-- ==== Sys2Proof/Word.lean ====
section
/-! DEFINITION. The words of the model: bytes, byte strings and 32-bit register words (R7: byte and bit order of the manual's tables). -/

namespace Sys2Proof

/-- One byte. -/
abbrev Byte := BitVec 8

/-- A byte string, byte 0 first. -/
abbrev Bytes := List (BitVec 8)

/-- One register of the 32-bit window (R64). -/
abbrev W32 := BitVec 32

/-- An instant or span of stage time in units of 2^-16 ns (R458: 64-bit nanoseconds with a 16-bit fraction). -/
abbrev Stamp := Nat

/-- One nanosecond in `Stamp` units. -/
abbrev nsUnit : Nat := 65536

end Sys2Proof
end

