-- ==== Sys2Proof/Syntax.lean ====
section
/-! DEFINITION. The commands of the block: one constructor of `Instr` for each row of spec/opcode_table.json, with the operands the
event brings from outside or the unit it happens in. -/

namespace Sys2Proof

/-- The sensors of R525, in the order of its table; `vcoreHigh` is the upper trip of VCORE. -/
inductive Sensor where
  | vcoreLow | vcoreHigh | vsram | vaon | glitch | tempHigh | tempLow | tempWarn | shield | avd18
  deriving DecidableEq, Repr

/-- The port clocks watched under R59, in the order R524 numbers them. -/
inductive ClkPort where
  | mclk0 | mclk1 | mclk2 | mclk3 | pkclk | rlclk | hclk
  deriving DecidableEq, Repr

/-- The two relay ports. -/
inductive Side where
  | east | west
  deriving DecidableEq, Repr

/-- What the sender of a relay message states in its hop header (R475) and ring header (R477), with the verdict of its 16-byte tag. -/
structure Hop where
  side   : Side
  flits  : Nat
  phase  : Bool
  seq    : Nat
  tagOk  : Bool
  src    : Nat
  dst    : Nat
  hops   : Nat
  deriving DecidableEq, Repr

/-- One position of the ring map of R483: a member and the state of its east hop. -/
structure MapEntry where
  member  : Nat
  eOffpkg : Bool
  eBroken : Bool
  deriving DecidableEq, Repr

/-- Why a hop breaks (R87): RX_ERR while the link stays up, or a fall of LINK_UP. -/
structure HopLoss where
  side     : Side
  linkFell : Bool
  deriving DecidableEq, Repr

/-- An ECHO message (R480): one of this side's that has come back or one of the neighbour's, with its hop header (R475) and the verdict of its tag. -/
structure EchoRx where
  returned : Bool
  flits    : Nat
  phase    : Bool
  seq      : Nat
  tagOk    : Bool
  deriving DecidableEq, Repr

/-- The candidate of an ELECT message (R482): its identity, and whether the message is the one that this member sent itself (R494, log entry 124). -/
structure Candidate where
  value : Nat
  own   : Bool
  deriving DecidableEq, Repr

/-- A relayed job as its JOB message carries it (R486), its key material sealed under the pair key (R485); `rngMs` is the origin seat's RNG_DEADLINE. -/
structure RelayedJob where
  tag       : Nat
  seat      : Nat
  opcode    : Nat
  opflags   : Nat
  body      : Bytes
  operands  : List Bytes
  key       : Bytes
  rngMs     : Nat
  deriving DecidableEq, Repr

/-- The status values of revision 2.1 (R14). -/
def statusCodes : List Nat :=
  [0x00, 0x01, 0x02, 0x03, 0x10, 0x11, 0x12, 0x13, 0x20, 0x21, 0x22, 0x23, 0x24, 0x30, 0x31, 0x32, 0x40, 0x41, 0x42, 0x43, 0x44, 0x50, 0x51, 0x60, 0x61,
   0x62, 0x70, 0x7F]

/-- The outcome of a relayed job as its DONE message carries it (R486); a key it gives comes sealed under the pair key (R485). -/
structure RelayedDone where
  tag     : Nat
  status  : Nat
  subcode : Nat
  opflags : Nat
  result  : Nat
  inBytes : Nat
  outputs : List Bytes
  keyOut  : Bytes
  deriving DecidableEq, Repr

/-- A beat of a response that carries RSP_ERR: its tag, and whether it is marked as the last of its burst (R67). -/
structure ErrBeat where
  tag  : Nat
  last : Bool
  deriving DecidableEq, Repr

/-- A job whose compare has ended, with the bits of the compare word that came out wrong (R304, R305; log entry 3). -/
structure CmpEnd where
  job   : Nat
  upset : BitVec 4
  deriving DecidableEq, Repr

/-- A memory that the class A sequence erases (R526, step 4). -/
inductive BlockMem where
  | schedules | hmacSlots | attributes | seatKeys | hopKeys | ringKey | operands | bayBuffers | drbg | pool | assocCache | peerCache
  deriving DecidableEq, Repr

/-- What reading the erasure back gives (R526, R527): the memories in which a word was not erased. -/
structure Erasure where
  dirty : List BlockMem
  deriving DecidableEq, Repr

/-- Every word was erased. -/
def Erasure.clean (e : Erasure) : Bool := e.dirty.isEmpty

/-- One answer of the custodian card: a T=1 block (R504). -/
inductive CardBlock where
  /-- an I-block: sequence bit, more bit, INF -/
  | iBlock (ns more : Bool) (inf : Bytes)
  /-- an R-block naming the sequence bit expected -/
  | rBlock (nr : Bool)
  /-- S(IFS response) -/
  | ifsResponse
  /-- S(IFS request) with the card's new IFSC -/
  | ifsRequest (ifsc : Nat)
  /-- S(WTX request) with its multiplier -/
  | wtxRequest (k : Nat)
  /-- S(RESYNCH response) -/
  | resynchResponse
  /-- S(ABORT request) -/
  | abortRequest
  /-- a block whose LRC or LEN is bad -/
  | bad
  /-- a block that stopped: ETU since the leading edge of its last character -/
  | cut (wait : Nat)
  deriving DecidableEq, Repr

/-- An answer to reset as the characters of R499 give it, `none` where a character is absent. -/
structure Atr where
  tckOk      : Bool
  offersT1   : Bool
  t15        : Bool
  /-- the class indicator: includes class B, includes class C -/
  classInd   : Option (Bool × Bool)
  clockLow   : Bool
  tc3Lrc     : Bool
  /-- TA1 as one byte -/
  ta1        : Option Nat
  /-- TA2: the specific mode's protocol is T=1 -/
  ta2        : Option Bool
  /-- TA3: IFSC -/
  ta3        : Option Nat
  /-- TB3: BWI in [7:4], CWI in [3:0] -/
  tb3        : Option Nat
  /-- CUST_CLK cycles from CUST_RSTN high to the first character, and the longest gap between two characters in ETU (R498) -/
  first      : Nat := 400
  gap        : Nat := 0
  deriving DecidableEq, Repr

/-- THE COMMANDS. The comment before a group names the chapter; the rule of each row is in spec/opcode_table.json. -/
inductive Instr where
  -- resets, supplies, alarms and ports
  | porstNAssert
  | porstNRelease
  | blkrstNAssert
  | blkrstNRelease
  | resetResponseDiscardEnd
  | vaonLoss
  | sensorTrip (sensor : Sensor) (detail0 detail1 : W32)
  | lockstep
  | erasureVerified (erased : Erasure)
  | clearA
  | clearB
  | sequencerFault (bay : Nat)
  | wingFailure (wing : Nat)
  | portClockLost (port : ClkPort)
  | portClockReturn (port : ClkPort)
  | refclkLost
  | refclkReturn (khz : Nat)
  -- register port, prompt port, memory ports
  | accessViolation (src off : Nat) (write : Bool)
  | regWrite (src off : Nat) (value : W32)
  | promptAccept
  | memReadData (port tag : Nat) (beat : Bytes) (last : Bool)
  | memWriteAck (port tag : Nat)
  | memRspErr (port : Nat) (tag : ErrBeat)
  -- start
  | rootkeyAck (data : BitVec 256) (err : Bool)
  | rootkeyTimeout
  | startStepDone (step : Nat) (ok : Bool) (info : Nat)
  | startStepBound (step : Nat)
  | imagesValidWrite (value : W32)
  | acceptVersionWrite (sqm : Bool) (value : W32)
  | clearFail (step : Nat)
  | runStep (step : Nat)
  | acceptUntested
  -- seats
  | configure (seat : Nat)
  | start (seat : Nat)
  | curtain (seat : Nat) (squash : Bool)
  | curtainQuiet (seat : Nat)
  | restart (seat : Nat)
  | reset (seat : Nat)
  | resetReport (seat : Nat)
  | disable (seat : Nat)
  | freeze (seat : Nat)
  | thaw (seat : Nat)
  | migOffer (seat : Nat)
  | save (seat : Nat)
  | restore (seat : Nat)
  | migCancel (seat : Nat)
  | seatTransitionEnd (seat : Nat)
  | shareWrite (seat which : Nat) (value : W32)
  | seatXWrite (reg : Nat) (value : W32)
  | atuInvalidate (value : W32)
  | atuInvalidateDone
  | atuFaultRead
  -- rings
  | doorbell (src seat slot : Nat) (value : W32)
  | cqHeadWrite (src seat slot : Nat) (value : W32)
  | ringEnable (src seat slot : Nat) (resume : Bool)
  | ringDisable (src seat slot : Nat) (resume : Bool)
  | resume (src seat slot : Nat)
  | ringSettingWrite (src seat slot reg : Nat) (value : W32)
  | jobFetch (seat : Nat)
  | promptEvaluation
  | jobDeadline (job : Nat)
  | nop (job : Nat)
  | fence (job : Nat)
  | stamp (job : Nat)
  | unassignedOpcode (job : Nat)
  -- placement
  | jobPlacement (job : Nat)
  | bayIssue (bay : Nat)
  | segmentBoundary (job : Nat)
  | heldRecordMark (job : Nat)
  | epochBoundary (slots : List (Nat × Nat))
  | wingIdle (wing : Nat)
  | wingGated (wing : Nat)
  | wingWake (wing : Nat)
  | wingWakeDone (wing : Nat)
  | advertisement
  | countermeasureReseed
  -- symmetric work
  | sealJob (job : Nat)
  | openJob (job : Nat)
  | macGen (job : Nat)
  | macVerify (job : Nat)
  | encrypt (job : Nat)
  | decrypt (job : Nat)
  | assocQuery (job : Nat)
  -- digests and the direct digest window
  | digest (job : Nat)
  | digestVerify (job : CmpEnd)
  | hmacGen (job : Nat)
  | hmacVerify (job : CmpEnd)
  | compare (job : CmpEnd)
  | hmacLoad (job : Nat)
  | hmacUnload (job : Nat)
  | dwStart (alg : Nat)
  | dwDataWrite (value : W32)
  | dwFinish (lastBytes : Nat)
  | dwAbort
  | dwAbsorbDone
  -- the big-number engines
  | modAdd (job : Nat)
  | modSub (job : Nat)
  | modMul (job : Nat)
  | modInv (job : Nat)
  | modExp (job : Nat)
  | modExpCrt (job : Nat)
  | engineLoad (wing : Nat)
  | runStart (wing : Nat)
  | datapathDone (wing : Nat) (agree : Bool)
  | releaseTick (wing : Nat)
  | wipeDone (wing : Nat) (clean : Bool)
  | mldsaBlockTick (wing : Nat)
  | floorWrite (value : W32)
  | rtQuery (value : W32)
  | slackRead (wing : Nat)
  | faultLogRead
  | admitStsRead (seat : Nat)
  -- curves and lattices
  | ecKeygen (job : Nat)
  | ecdsaSign (job : Nat)
  | ecdsaVerify (job : Nat)
  | ecdh (job : Nat)
  | ed25519Sign (job : Nat)
  | ed25519Verify (job : Nat)
  | mlkemKeygen (job : Nat)
  | mlkemEncaps (job : Nat)
  | mlkemDecaps (job : Nat)
  | mldsaKeygen (job : Nat)
  | mldsaSign (job : Nat)
  | mldsaVerify (job : Nat)
  | poly (job : Nat)
  -- keys
  | keyImport (job : Nat)
  | keyExport (job : Nat)
  | keyGenerate (job : Nat)
  | keyDerive (job : Nat)
  | keyDelete (job : Nat)
  | keyInfo (job : Nat)
  | keyRestrict (job : Nat)
  | keyEscrowOut (job : Nat)
  | keyEscrowIn (job : Nat)
  | eraseBwk
  -- entropy
  | sourceBlock (source : Nat) (samples : BitVec 512)
  | sourceRestartDone (source : Nat)
  | wordDelivery
  | reseedDue (inst : Nat)
  | instHeld (inst : Nat)
  | seedingDeadline (job : Nat)
  | rngGet (job : Nat)
  | rngReseed (job : Nat)
  | rngRaw (job : Nat)
  | enterRehearsal
  | exitRehearsal
  | revive (mask : Nat)
  | clearCounts
  -- the packet front
  | packetIn (port : Nat) (meta128 : BitVec 128) (bytes : Bytes) (err : Bool)
  | assocWrite (job : Nat)
  | assocKill (job : Nat)
  | nodeWrite (off : Nat) (value : W32)
  | swap
  | epochDrainEnd
  | rehash
  | rehashDone
  | peerAgeVisit (bucket : Nat)
  | strangerStsRead (seat : Nat)
  -- time
  | timePortValue
  | ppsRise
  | ppsFall
  | captureEdge (n : Nat)
  | captureSnapshot (n : Nat)
  | nowSnapshot
  | secureSnapshot
  | rateWrite (value : W32)
  | timeStep (frac : BitVec 16)
  | slew (frac : BitVec 16)
  | cancelSlew
  | slewDone
  | secAdvance (value : W32)
  -- the relay ring
  | linkUp (side : Side)
  | creditReturn (side : Side)
  | hopBreak (side : HopLoss)
  | hopSilence (side : Side)
  | hopRekeyDue (side : Side)
  | hello (x25519 mlkem : Bytes) (phase : Bool)
  | reply (x25519 ciphertext confirmW : Bytes)
  | confirm (confirmE : Bytes)
  | echo (side : Side) (returned : EchoRx) (roundTripNs : Nat)
  | probe (hop : Hop) (isAnswer formed : Bool) (leader : Nat)
  | electionStart
  | elect (hop : Hop) (identity : Candidate)
  | number (hop : Hop) (next : Nat)
  | map (hop : Hop) (entries : List MapEntry)
  | join (hop : Hop) (isAnswer refused : Bool) (given : Nat) (sealedRk : Bytes) (rkOk : Bool)
  | adv (hop : Hop) (starts : List (Nat × Nat)) (floor : Nat) (accepts : Bool)
  | relayJob (hop : Hop) (job : RelayedJob)
  | relayDone (hop : Hop) (done : RelayedDone)
  | relayCancel (hop : Hop) (tags : List Nat)
  | relayAlarm (hop : Hop) (member : Nat)
  | relayBreak (hop : Hop) (position : Nat)
  | timeSend
  | time (hop : Hop) (value : Stamp) (insideNs : Nat)
  | timeLoss
  | mailSend (value : W32)
  | mail (hop : Hop) (total offset : Nat) (part : Bytes) (final : Bool)
  | inboxRelease (value : W32)
  -- the custodian card
  | cardInsert
  | cardDebounce
  | cardRemoval
  | activationSupplyTimer
  | answerToReset (atr : Atr)
  | ppsEcho (echoed : Bytes)
  | reactivationWait
  | conditionQuery
  | readyMaxExpiry
  | t1BlockRx (block : CardBlock)
  | cardWaitExpiry
  | statusPoll
  | waitMaxExpiry
  | clockStop
  | authExpiry (act : Nat)
  | shareHoldExpiry
  | rootLock (arg : Nat)
  | authorize (arg : Nat)
  | importShare (arg : Nat)
  | exportShare (arg : Nat)
  | sharesClear (arg : Nat)
  | authEnd (arg : Nat)
  | reconDrop (arg : Nat)
  | deactivate (arg : Nat)
  | activate (arg : Nat)
  | sensorConditionEnd (sensor : Sensor)
  | vaonReturn
  | packetOutAccept (port : Nat)
  | answerToResetTimeout
  | ppsTimeout
  | brokenHopRekey (side : Side)
  deriving DecidableEq, Repr

end Sys2Proof
end

