-- ==== Sys2Proof/Machine/Table.lean ====
section
/-! DEFINITION. Helpers the whole machine shares: sparse tables in one canonical form, bytes and words (R7, little-endian unless a rule
says otherwise), bit fields, and saturating and wrapping counters. -/

namespace Sys2Proof.Machine

/-- The value of entry `i` of a sparse table whose unlisted entries hold `d`. -/
def tabGet {α : Type} (d : α) : List (Nat × α) → Nat → α
  | [], _ => d
  | (k, v) :: t, i => if k = i then v else tabGet d t i

/-- Put `v` at `i`, keys strictly rising, no check of the default. -/
def tabPut {α : Type} : List (Nat × α) → Nat → α → List (Nat × α)
  | [], i, v => [(i, v)]
  | (k, w) :: t, i, v =>
    if i < k then (i, v) :: (k, w) :: t
    else if i = k then (i, v) :: t
    else (k, w) :: tabPut t i v

/-- Remove entry `i`. -/
def tabDel {α : Type} (t : List (Nat × α)) (i : Nat) : List (Nat × α) := t.filter (fun p => !(p.1 == i))

/-- Write entry `i`: an entry equal to the unlisted value leaves the table, so equal tables are equal data. -/
def tabSet {α : Type} [DecidableEq α] (d : α) (t : List (Nat × α)) (i : Nat) (v : α) : List (Nat × α) :=
  if v = d then tabDel t i else tabPut t i v

/-- Apply `f` to every listed entry; entries that become the unlisted value leave the table. -/
def tabMap {α : Type} [DecidableEq α] (d : α) (t : List (Nat × α)) (f : Nat → α → α) : List (Nat × α) :=
  (t.map (fun p => (p.1, f p.1 p.2))).filter (fun p => !(decide (p.2 = d)))

/-- Keys of a sparse table strictly rise. -/
def tabSorted {α : Type} : List (Nat × α) → Bool
  | [] => true
  | [_] => true
  | (k, _) :: (k', v') :: t => decide (k < k') && tabSorted ((k', v') :: t)

/-- The canonical form: keys strictly rise and no entry equals the unlisted value. -/
def tabWf {α : Type} [DecidableEq α] (d : α) (t : List (Nat × α)) : Bool :=
  tabSorted t && t.all (fun p => !(decide (p.2 = d)))

/-- Apply `f` to the element at `i` of a list. -/
def listModify {α : Type} : List α → Nat → (α → α) → List α
  | [], _, _ => []
  | a :: t, 0, f => f a :: t
  | a :: t, n + 1, f => a :: listModify t n f

/-- Bits `[hi:lo]` of a number. -/
def bits (n hi lo : Nat) : Nat := (n >>> lo) % 2 ^ (hi + 1 - lo)

/-- Bit `i` of a number. -/
def bit (n i : Nat) : Bool := n.testBit i

/-- A Bool as a bit at place `i`. -/
def flag (b : Bool) (i : Nat) : Nat := if b then 2 ^ i else 0

/-- A 32-bit register word of a number. -/
def w32 (n : Nat) : W32 := BitVec.ofNat 32 n

/-- Set or clear bit `i` of a mask. -/
def maskSet (m i : Nat) (b : Bool) : Nat :=
  if b then m ||| 2 ^ i else if m.testBit i then m - 2 ^ i else m

/-- Add one, staying at the top of a `w`-bit counter. -/
def satInc (w n : Nat) : Nat := if n + 1 < 2 ^ w then n + 1 else 2 ^ w - 1

/-- Add one, wrapping at `w` bits. -/
def wrapInc (w n : Nat) : Nat := (n + 1) % 2 ^ w

/-- `a - b` modulo 2^32 (ring indexes, chapter 5). -/
def sub32 (a b : Nat) : Nat := (a + (2 ^ 32 - b % 2 ^ 32)) % 2 ^ 32

/-- Round `a / b` up. -/
def ceilDiv (a b : Nat) : Nat := (a + b - 1) / b

/-- `n` little-endian bytes of a number. -/
def leBytes : Nat → Nat → Bytes
  | 0, _ => []
  | n + 1, v => BitVec.ofNat 8 v :: leBytes n (v / 256)

/-- The number of little-endian bytes. -/
def leNat : Bytes → Nat
  | [] => 0
  | b :: t => b.toNat + 256 * leNat t

/-- The number of big-endian bytes. -/
def beNat (b : Bytes) : Nat := b.foldl (fun a x => a * 256 + x.toNat) 0

/-- `n` big-endian bytes of a number. -/
def beBytes (n v : Nat) : Bytes := (leBytes n v).reverse

/-- `n` zero bytes. -/
def zeros (n : Nat) : Bytes := List.replicate n 0

/-- Bytes `[off, off + n)`, zeros past the end. -/
def sliceZ (b : Bytes) (off n : Nat) : Bytes :=
  let x := (b.drop off).take n
  x ++ zeros (n - x.length)

/-- Little-endian field of `n` bytes at `off`, zeros past the end. -/
def fieldLE (b : Bytes) (off n : Nat) : Nat := leNat ((b.drop off).take n)

/-- Big-endian field of `n` bytes at `off`. -/
def fieldBE (b : Bytes) (off n : Nat) : Nat := beNat (sliceZ b off n)

/-- Bytewise exclusive or, as long as the shorter operand. -/
def xorBytes (a b : Bytes) : Bytes := List.zipWith (· ^^^ ·) a b

/-- Lay `v` over `b` at `off`; `b` keeps its length. -/
def overlay (b : Bytes) (off : Nat) (v : Bytes) : Bytes :=
  (b.take off ++ v ++ b.drop (off + v.length)).take b.length

/-- Cut a byte string into pieces of `n` bytes (`n` > 0), the last one shorter; fuel is the length. -/
def chunksF (n : Nat) : Nat → Bytes → List Bytes
  | 0, _ => []
  | f + 1, b => if b.isEmpty then [] else b.take n :: chunksF n f (b.drop n)

def chunks (n : Nat) (b : Bytes) : List Bytes := chunksF n b.length b

/-- ASCII text as bytes. -/
def ascii (t : String) : Bytes := t.toList.map (fun c => BitVec.ofNat 8 c.toNat)

/-- The numbers 0 … n-1 for which `p` holds, as a mask. -/
def maskOf (n : Nat) (p : Nat → Bool) : Nat := (List.range n).foldl (fun m i => if p i then m + 2 ^ i else m) 0

/-- Count of set bits among the low `n`. -/
def popcount (n m : Nat) : Nat := ((List.range n).filter (fun i => m.testBit i)).length

end Sys2Proof.Machine
end

