-- ==== Sys2Proof/Machine/Aes.lean ====
section
/-! DEFINITION. AES (FIPS 197): key expansion and single-block encryption and decryption, for the modes of R240. -/

namespace Sys2Proof.Machine

/-- The AES S-box, entry i in bits [8i+7:8i]. -/
def aesSboxWord : Nat := 0x16bb54b00f2d99416842e6bf0d89a18cdf2855cee9871e9b948ed9691198f8e19e1dc186b95735610ef6034866b53e708a8bbd4b1f74dde8c6b4a61c2e2578ba08ae7a65eaf4566ca94ed58d6d37c8e779e4959162acd3c25c2406490a3a32e0db0b5ede14b8ee4688902a22dc4f816073195d643d7ea7c41744975fec130ccdd2f3ff1021dab6bcf5389d928f40a351a89f3c507f02f94585334d43fbaaefd0cf584c4a39becb6a5bb1fc20ed00d153842fe329b3d63b52a05a6e1b1a2c830975b227ebe28012079a059618c323c7041531d871f1e5a534ccf73f362693fdb7c072a49cafa2d4adf04759fa7dc982ca76abd7fe2b670130c56f6bf27b777c63

/-- The inverse S-box. -/
def aesInvWord : Nat := 0x7d0c2155631469e126d677ba7e042b17619953833cbbebc8b0f52aae4d3be0a0ef9cc9939f7ae52d0d4ab519a97f51605fec8027591012b131c7078833a8dd1ff45acd78fec0db9a2079d2c64b3e56fc1bbe18aa0e62b76f89c5291d711af1476edf751ce837f9e28535ade72274ac9673e6b4f0cecff297eadc674f4111913a6b8a130103bdafc1020f3fca8f1e2cd00645b3b80558e4f70ad3bc8c00abd890849d8da75746155edab9edfd5048706c92b6655dcc5ca4d41698688664f6f87225d18b6d49a25b76b224d92866a12e084ec3fa420b954cee3d23c2a632947b54cbe9dec444438e3487ff2f9b8239e37cfbd7f3819ea340bf38a53630d56a0952

def aesSub (b : Byte) : Byte := BitVec.ofNat 8 (aesSboxWord >>> (8 * b.toNat))

def aesInvSub (b : Byte) : Byte := BitVec.ofNat 8 (aesInvWord >>> (8 * b.toNat))

/-- Multiplication by x in GF(2^8). -/
def xtime (b : Byte) : Byte := (b <<< 1) ^^^ (if b.getLsbD 7 then 0x1B#8 else 0#8)

/-- Product in GF(2^8) of AES; `n` steps over the low bits of the second factor. -/
def gfMulF : Nat → Byte → Nat → Byte
  | 0, _, _ => 0
  | f + 1, a, n => (if n % 2 = 1 then a else 0) ^^^ gfMulF f (xtime a) (n / 2)

def gfMul (a b : Byte) : Byte := gfMulF 8 a b.toNat

/-- Words of the expanded key, newest first: `i` words exist, `n` are wanted (by fuel), `nk` words of key. -/
def aesExpandF (nk : Nat) : Nat → Nat → Byte → List Bytes → List Bytes
  | 0, _, _, w => w
  | f + 1, i, rcon, w =>
    let prev := w.headD []
    let t := if i % nk = 0 then
        match (prev.rotateLeft 1).map aesSub with
        | b :: r => (b ^^^ rcon) :: r
        | [] => []
      else if nk > 6 ∧ i % nk = 4 then prev.map aesSub else prev
    let rcon' := if i % nk = 0 then xtime rcon else rcon
    aesExpandF nk f (i + 1) rcon' (xorBytes (w.getD (nk - 1) []) t :: w)

/-- Round keys of a key of 16, 24 or 32 bytes: 11, 13 or 15 of 16 bytes. -/
def aesKeys (key : Bytes) : List Bytes :=
  let nk := key.length / 4
  let words := aesExpandF nk (4 * (nk + 7) - nk) nk 1 (chunks 4 key).reverse
  (chunks 4 (List.range (4 * (nk + 7)) |>.map (fun i => BitVec.ofNat 8 i))).map (fun g =>
    (g.map (fun i => words.reverse.getD i.toNat [])).flatten)

def pick (b : Bytes) (ix : List Nat) : Bytes := ix.map (fun i => b.getD i 0)

def aesShift (b : Bytes) : Bytes := pick b [0, 5, 10, 15, 4, 9, 14, 3, 8, 13, 2, 7, 12, 1, 6, 11]

def aesInvShift (b : Bytes) : Bytes := pick b [0, 13, 10, 7, 4, 1, 14, 11, 8, 5, 2, 15, 12, 9, 6, 3]

def aesMixCol : Bytes → Bytes
  | [a, b, c, d] =>
    let t := a ^^^ b ^^^ c ^^^ d
    [a ^^^ t ^^^ xtime (a ^^^ b), b ^^^ t ^^^ xtime (b ^^^ c), c ^^^ t ^^^ xtime (c ^^^ d), d ^^^ t ^^^ xtime (d ^^^ a)]
  | x => x

def aesInvMixCol : Bytes → Bytes
  | [a, b, c, d] =>
    let u := xtime (xtime (a ^^^ c))
    let v := xtime (xtime (b ^^^ d))
    aesMixCol [a ^^^ u, b ^^^ v, c ^^^ u, d ^^^ v]
  | x => x

def aesMix (b : Bytes) : Bytes := ((chunks 4 b).map aesMixCol).flatten

def aesInvMix (b : Bytes) : Bytes := ((chunks 4 b).map aesInvMixCol).flatten

/-- The rounds after the first key addition. -/
def aesRounds : List Bytes → Bytes → Bytes
  | [], b => b
  | [k], b => xorBytes (aesShift (b.map aesSub)) k
  | k :: ks, b => aesRounds ks (xorBytes (aesMix (aesShift (b.map aesSub))) k)

/-- Encrypt one block under round keys. -/
def aesEncRk (rk : List Bytes) (b : Bytes) : Bytes :=
  match rk with
  | [] => b
  | k :: ks => aesRounds ks (xorBytes b k)

def aesInvRounds : List Bytes → Bytes → Bytes
  | [], b => b
  | [k], b => xorBytes ((aesInvShift b).map aesInvSub) k
  | k :: ks, b => aesInvRounds ks (aesInvMix (xorBytes ((aesInvShift b).map aesInvSub) k))

/-- Decrypt one block under round keys. -/
def aesDecRk (rk : List Bytes) (b : Bytes) : Bytes :=
  match rk.reverse with
  | [] => b
  | k :: ks => aesInvRounds ks (xorBytes b k)

/-- Encrypt one block under a key. -/
def aesEnc (key b : Bytes) : Bytes := aesEncRk (aesKeys key) b

def aesDec (key b : Bytes) : Bytes := aesDecRk (aesKeys key) b

end Sys2Proof.Machine
end

