-- ==== Sys2Proof/Machine/State.lean ====
section
/-! DEFINITION. THE STATE. Every register, table, queue, buffer, mode and pin the manual gives the block, as plain data, one structure for
each subsystem of chapter 1; `State.reset` is the block at step 1 of the power-up sequence (chapter 2): VAON within tolerance,
PORST_N and BLKRST_N low, always-on retained memory empty (R101). A table that repeats per seat, ring, bay or source is a list of
(number, entry) pairs, unlisted numbers holding the entry's reset value (Table.lean). Instants that are still pending (deadlines, ticks,
marks, ages) are held in UNSTEPPED time: stage time less every STEP applied since it last started, in units of 2^-16 ns, so that a step
moves stage time and every pending instant by the same offset at once (R463); stamps already fixed are held as stage time. -/

namespace Sys2Proof.Machine

/-- Why the machine stops with a fault. Only environments that break an integration bound (R561) reach one. -/
inductive Fault where
  /-- MEM_READ_DATA, MEM_WRITE_ACK and MEM_RSP_ERR: a response that answers no outstanding request on its port and tag, or is not the
  kind of response that request calls for, or marks the wrong beat as the last, outside the 10 us of R72. The surroundings answer each
  request once and in full (R67, R68). Safe: the machine stops where the manual gives no behaviour. -/
  | unsolicitedResponse
  deriving DecidableEq, Repr

/-- Why the machine refuses a command. -/
inductive Refusal where
  /-- a command with no meaning yet, by its mnemonic; safe -/
  | notModelled (mnemonic : String)
  deriving DecidableEq, Repr

/-- The values of SYNC_STAGES (R54): 3 or 4 stages. -/
inductive SyncStages where
  | three | four
  deriving DecidableEq, Repr

/-- The values of PKT_PORTS (R54): 0, 1 or 2 packet port pairs. -/
inductive PktPorts where
  | zero | one | two
  deriving DecidableEq, Repr

/-- Port shell parameters (R54), at their defaults; the shell is synthesized once, so no command writes them. -/
structure Params where
  syncStages   : SyncStages := .three
  pktPorts     : PktPorts := .two
  relayPresent : Bool := true
  custClassC   : Bool := true
  deriving DecidableEq, Repr

-- Jobs ---------------------------------------------------------------------------------------------------------------------

/-- Where a job came from. -/
inductive Src where
  /-- fetched from ring slot `slot` of the job's seat -/
  | ring (slot : Nat)
  /-- a packet that entered on PKT_IN `port` (R428) -/
  | packet (port : Nat)
  /-- relayed in from ring member `origin`, which tags it `tag` (R486) -/
  | relayed (origin tag : Nat)
  deriving DecidableEq, Repr

/-- Where a job is (chapters 5, 6, 10, 12, 13). -/
inductive Phase where
  /-- accepted, at the ring manager or waiting at the dispatcher -/
  | held
  /-- queued at a wing scheduler for a bay, or for the engine of a wing -/
  | queuedBay (bay : Nat)
  | queuedEng (wing : Nat)
  /-- started in a bay, or in an engine's input stage or run -/
  | inBay (bay : Nat)
  | inEng (wing : Nat)
  /-- a stream job paused at a segment boundary (R268), at the wing scheduler of `bay` -/
  | paused (bay : Nat)
  /-- at the key store (`started` once taken by one of its 4 units) or at the DRBG farm -/
  | store (started : Bool)
  | farm (started : Bool)
  /-- relayed to `member` under `tag` (R486) -/
  | away (member tag : Nat)
  /-- outcome fixed; the record waits for the job's data writes (R70), or is on its way -/
  | done
  | recordOut
  deriving DecidableEq, Repr

/-- What a read of a job brings. -/
inductive BufKind where
  /-- gather list, or bytes, of the descriptor at a body offset -/
  | list | data
  /-- entry and blob of the key KEYREF names, and of the SUBJECT or OUTREF entry; `b` numbers the stage that reads -/
  | key | keyBlob | subj | subjBlob
  /-- a bucket of the peer table -/
  | peer
  /-- the input context record, the spill slot, the association entry -/
  | ctxRec | spill | assoc
  /-- a key table entry while a seat is saved, and its blob -/
  | saveKey | saveBlob
  deriving DecidableEq, Repr

/-- A read of a job: its kind, the descriptor's body offset or the handle, and the offset of a part. -/
structure BufKey where
  kind : BufKind
  a    : Nat := 0
  b    : Nat := 0
  deriving DecidableEq, Repr

/-- A job's one outcome (R192) and the fields of its record (R187). -/
structure Outcome where
  status  : Nat
  sub     : Nat := 0
  /-- OPFLAGS of the record, bits [15:8] -/
  opf     : Nat := 0
  softLimit : Bool := false
  truncated : Bool := false
  inB     : Nat := 0
  outB    : Nat := 0
  result  : Nat := 0
  /-- stage time of the outcome, ns -/
  stamp   : Nat := 0
  /-- STAMP stays this even when data writes are acknowledged later (R191: TIMEOUT, SQUASHED, ALARM_ABORT) -/
  fixedStamp : Bool := false
  /-- the job was stopped: OUT_BYTES counts the output bytes whose writes have been acknowledged by its record (R239, R291, R415) -/
  part    : Bool := false
  /-- unstepped instant at which the outcome was fixed (R192), and whether it stays though a class A alarm falls on that instant: the job raised it itself
  (R338, R339), or its wipe did (R321) -/
  at_     : Stamp := 0
  raised  : Bool := false
  deriving DecidableEq, Repr

/-- The chaining state of a message (R276, R311): the STATE fields of a context record. -/
structure Ctx where
  msgBytes : Nat := 0
  aadBytes : Nat := 0
  iv       : Bytes := []
  /-- CHAIN: next counter block, last ciphertext block, chaining value or next block counter -/
  chain    : Bytes := []
  /-- ACC: GHASH, POLYVAL or Poly1305 accumulator as a number -/
  acc      : Nat := 0
  sivTag   : Bytes := []
  pass     : Nat := 0
  parts    : Nat := 0
  /-- digest chaining value or Keccak state (R311) -/
  hash     : Bytes := []
  deriving DecidableEq, Repr

/-- Where a paused job's chaining state is (R270, R271). -/
inductive Held where
  | none
  /-- clear in the bay buffer, paused at this stamp -/
  | clear (at_ : Nat)
  /-- clear in the bay buffer, its spill due while no slot was free: it resumes only on that bay (R273) -/
  | stuck
  /-- wrapping begun: the spill write to this slot is on its way -/
  | wrapping (slot : Nat)
  /-- in this spill slot -/
  | spilled (slot : Nat)
  deriving DecidableEq, Repr

/-- The packet a port packet job carries (chapter 14). -/
structure Pkt where
  metaIn  : BitVec 128 := 0
  /-- as it entered, and as it leaves with status OK -/
  bytes   : Bytes := []
  out     : Bytes := []
  /-- what the parse gave: KIND of the last node, its header offset, END, epoch and bank -/
  term    : Nat := 0
  off     : Nat := 0
  fin     : Nat := 0
  epoch   : Nat := 0
  /-- IP version, sender and receiver of the last IP header, sender port, for peer learning -/
  ipv6    : Bool := false
  sender  : Bytes := []
  port    : Nat := 0
  assoc   : Nat := 0
  seqNo   : Nat := 0
  payOff  : Nat := 0
  payLen  : Nat := 0
  nextHdr : Nat := 0
  /-- bits [23:16] of the output metadata, in place (R426) -/
  flags   : Nat := 0
  /-- an association is named or found (R426); the peer table held the sender at lookup; the lookup has been made -/
  named   : Bool := false
  known   : Bool := false
  looked  : Bool := false
  deriving DecidableEq, Repr

/-- The lease write a job waits for: of its association's nonce counter or window, or of a key's use count (R261, R379, R439). -/
inductive LeaseWait where
  | none
  | nonce
  | window
  | use (handle : Nat)
  deriving DecidableEq, Repr

/-- One job of the block. -/
structure Job where
  /-- acceptance number: jobs are accepted in rising order -/
  id       : Nat
  src      : Src := .ring 0
  seat     : Nat := 0
  gen      : Nat := 0
  opcode   : Nat := 0
  /-- the 16-bit flags word of the header (R178) -/
  flags    : Nat := 0
  tag      : Nat := 0
  affinity : Nat := 0
  body     : Bytes := []
  /-- acceptance stamp, and the deadline if the job has one (R196), in stage time -/
  acceptAt : Stamp := 0
  deadline : Option Stamp := none
  /-- WAIT_PREV: the job accepted before it on its ring; FENCE: the jobs it waits for and how many they were -/
  prev     : Option Nat := none
  waits    : List Nat := []
  fenceN   : Nat := 0
  phase    : Phase := .held
  /-- answered reads, by piece -/
  got      : List (BufKey × Nat × Bytes) := []
  outcome  : Option Outcome := none
  /-- first output write issued (R197), last data write acknowledged at -/
  committed : Bool := false
  lastAck  : Nat := 0
  wrote    : Nat := 0
  /-- source bytes of the segments and operands consumed so far; output bytes acknowledged; next counter block of an AES-CTR job, bytes 8 to 15 -/
  inDone   : Nat := 0
  outDone  : Nat := 0
  ctrNext  : Nat := 0
  /-- key: attribute word, clear material it runs on, where it came from -/
  attr     : Nat := 0
  key      : Bytes := []
  useCounted : Bool := false
  slotUsed : Bool := false
  inner    : Bytes := []
  outer    : Bytes := []
  /-- symmetric and digest work: association, salt and counter issued, lane, chaining state and held record -/
  assoc    : Option Nat := none
  nonce    : Option Nat := none
  soft     : Bool := false
  lane     : Nat := 0
  started  : Bool := false
  ctx      : Ctx := {}
  /-- stream jobs (R267): bytes of the input stream consumed, segments ended -/
  pos      : Nat := 0
  segs     : Nat := 0
  held     : Held := .none
  region   : Nat := 0
  scrub    : Bool := false
  zeroed   : Bool := false
  leaseWait : LeaseWait := .none
  /-- queue order within a queue, and when it entered (R219, R222) -/
  order    : Int := 0
  queuedAt : Nat := 0
  /-- seeding wait (R410): since when, and its deadline -/
  seedAt   : Nat := 0
  seedBy   : Option Nat := none
  /-- RNG_DEADLINE of the origin seat that a relayed-in job brought, ms (R486) -/
  rngMs    : Nat := 0
  /-- the wing it was in when its outcome was fixed, whose buffers and output stage hold what it still has to write (R33, R342) -/
  ranIn    : Option Nat := none
  /-- admission (R361): charge taken, waiting for credit -/
  charge   : Nat := 0
  admitted : Bool := false
  rtNs     : Nat := 0
  floor    : Nat := 0
  blocks   : Nat := 0
  blinded  : Bool := false
  /-- random values drawn at load, result of the run -/
  drawn    : Bytes := []
  drawDone : Bool := false
  outs     : List (Nat × Bytes) := []
  /-- status and subcode the run gave (rows of R334 and R357 after the compare); block of the first accepted ML-DSA iteration -/
  ran      : Option (Nat × Nat) := none
  accepted : Nat := 0
  reqs     : Nat := 0
  reseeded : Bool := false
  reseedWait : Bool := false
  pkt      : Option Pkt := none
  /-- RELAYED of the record; a relayed-in job whose CANCEL came after RS sends no DONE (R487) -/
  relayed  : Bool := false
  silent   : Bool := false
  /-- clear material of the key entry written at OUTREF or SUBJECT -/
  entry    : Bytes := []
  /-- a request of it has met a fault, which has been reported: a later one is counted and not logged (R71) -/
  faulted  : Bool := false
  /-- byte 1 of the header: CHAIN_LEN and its reserved bits (R178) -/
  hdr1     : Nat := 0
  /-- its bay left service while it was queued: it is placed again in acceptance order (R233) -/
  returned : Bool := false
  /-- HMAC_LOAD: its key was loaded before, as its start found it (R298) -/
  already  : Bool := false
  /-- relayed out: members whose east hop the path to the member, or back from it, uses, by the MAP its JOB was sent by (R488) -/
  path     : List Nat := []
  /-- RNG_RAW: blocks of which bytes are still to be written: number, bytes left, failures as RESULT counts them (R415) -/
  raws     : List (Nat × Nat × Nat) := []
  deriving DecidableEq, Repr

-- Memory ports and translation ----------------------------------------------------------------------------------------------

/-- What a data write of a job carries: output or tag bytes, zeros of a scrub (R264), a record or entry, which counts in no record field, or bytes of a block of raw
samples (R415). -/
inductive WKind where
  | data | zero | side
  | raw (block : Nat)
  deriving DecidableEq, Repr

/-- Whose request an access is. -/
inductive Owner where
  /-- piece `ord` of read `key` of a job -/
  | jobRead (job : Nat) (key : BufKey) (ord : Nat)
  /-- a data write of a job -/
  | jobWrite (job : Nat) (kind : WKind)
  /-- a completion record, at the index it was given (R188) -/
  | record (job seat slot idx : Nat)
  /-- the record of a fetch fault (R199), at the index it was given -/
  | fetchRec (seat slot idx : Nat)
  /-- packet `k` of a fetch -/
  | fetch (seat slot k : Nat)
  /-- part of an image fetch (R118) -/
  | image (part : Nat)
  /-- lease or exact write-back of an association counter, and of a key's use count -/
  | assocLease (index job : Nat)
  | keyLease (seat handle job : Nat)
  /-- a write back of association, key or peer state; of the job whose work it is, where there is one (R139) -/
  | writeBack (job : Option Nat)
  /-- peer bucket read of the rehash or the scanner, and copy to the exception ring (chapter 14) -/
  | peerRead (table bucket : Nat)
  | exception (job : Option Nat)
  /-- context spill write of a job (R271) -/
  | spill (job : Nat)
  /-- migration buffer, in or out -/
  | migRead (ord : Nat)
  | migWrite
  /-- relay mail (R493) -/
  | mailRead (ord : Nat)
  | inboxWrite
  /-- a write after whose acknowledgement the writes listed follow, one after another (R437, R450, R451) -/
  | chain (job : Option Nat) (next : List (Nat × Bytes))
  /-- answers are discarded -/
  | orphan
  deriving DecidableEq, Repr

/-- How far an access has come. -/
inductive AccSt where
  | waiting
  /-- table walk at `level`, reading the table at `table`: not issued, or issued on a tag -/
  | walk (level table : Nat)
  | walkOut (level table port tag : Nat)
  /-- translated to `phys`, and issued on a tag -/
  | ready (phys : Nat)
  | out (phys port tag : Nat)
  deriving DecidableEq, Repr

/-- One request of the block, within one 4 KiB page (R66). -/
structure Access where
  id     : Nat
  owner  : Owner
  /-- REQ_SEAT: the seat whose tables translate it (R35) -/
  seat   : Nat := 0
  /-- bootstrap (identity) translation, R118 -/
  boot   : Bool := false
  va     : Nat := 0
  len    : Nat := 0
  write  : Bool := false
  /-- REQ_ATTR (R66) -/
  attr   : Nat := 0
  /-- data to write, or data read so far -/
  data   : Bytes := []
  st     : AccSt := .waiting
  /-- RSP_ERR came with a beat of it: its fault has been taken, and its last response is still to come (R67, R71) -/
  failed : Bool := false
  /-- its job has reported a fault: one of this request is counted and not logged (R71, R139) -/
  quiet  : Bool := false
  /-- unstepped instant at which its data request was issued -/
  at_    : Stamp := 0
  /-- the job it was made for, once its answer is only discarded: a fault of it still counts as one of that job's (R71) -/
  maker  : Option Nat := none
  deriving DecidableEq, Repr

/-- One entry of the translation cache (R140): seat, page number, page base, permissions, page size as log2. -/
structure TlbEntry where
  seat : Nat
  page : Nat
  base : Nat
  r    : Bool
  w    : Bool
  log2 : Nat
  deriving DecidableEq, Repr

/-- The memory ports and the translation unit. -/
structure MemUnit where
  accesses : List Access := []
  nextId   : Nat := 0
  tlb      : List TlbEntry := []
  /-- SEAT_ATU_INV at work: the word written, the range start, and the first access number after the write -/
  inv      : Option (Nat × Nat × Nat) := none
  /-- inside the 10 us of R72, and the secure time (ns) at which it began -/
  discard  : Bool := false
  discardAt : Nat := 0
  /-- ports whose clock is lost (R59): MCLK0-3, PKCLK, RLCLK, HCLK -/
  stalled  : List ClkPort := []
  deriving DecidableEq, Repr

-- Start ---------------------------------------------------------------------------------------------------------------------

/-- One start record of the journal (R114). -/
structure StartRec where
  startNo : Nat := 0
  secureT : Nat := 0
  outcomes : List Nat := []
  safeCause : Nat := 0
  state   : Nat := 0
  smfVer  : Nat := 0
  sqmVer  : Nat := 0
  retired : Nat := 0
  deriving DecidableEq, Repr

/-- The start journal (R114), always-on retained memory; `good` is its CRCs holding (an empty journal is good, log entry 57). -/
structure Journal where
  good    : Bool := true
  count   : Nat := 0
  fails   : List Nat := []
  excl    : Nat := 0
  last    : Nat := 15
  cleared : Bool := false
  recs    : List (Nat × StartRec) := []
  deriving DecidableEq, Repr

/-- The stage manager's start (chapter 3). -/
structure Start where
  porst   : Bool := true
  blkrst  : Bool := true
  vaonBad : Bool := false
  /-- VAON has returned with both resets high, and neither has been asserted since: the block waits for one to start it (R115, log entry 111) -/
  cold    : Bool := false
  /-- SMG_START_STATE -/
  state   : Nat := 0
  step    : Nat := 0
  safeCause : Nat := 0
  /-- the step in progress of the main sequence, and whether step 12 runs beside it -/
  running : Option Nat := none
  step12  : Bool := false
  outcomes : List Nat := List.replicate 12 0
  /-- what plans the steps (R111): failure counts as step 1 read them; for an optional step, 1 when it failed at the previous start -/
  planned : List Nat := []
  /-- unstepped instants at which the step in progress, and step 12, began -/
  stepAt  : Nat := 0
  step12At : Nat := 0
  /-- RUN_STEP in progress; CUST_DET has read 1 since it was accepted (R107) -/
  runStep : Option Nat := none
  cardSeen : Bool := false
  cmdBusy : Bool := false
  cmdResult : Nat := 0
  /-- (VAON) registers of R125 -/
  imagesValid : Bool := false
  accept  : Bool := false
  acceptSmf : Nat := 0
  acceptSqm : Nat := 0
  imgSmf  : Nat := 0
  imgAlt  : Nat := 0
  imgSqm  : Nat := 0
  smfVer  : Nat := 0
  sqmVer  : Nat := 0
  golden  : Bool := false
  wingsActive : Nat := 0
  /-- wings the plan of step 9 wakes -/
  plan9   : Nat := 0
  /-- image bytes fetched, pieces answered, and the compatibility table of each running image -/
  imgGot  : List (Nat × Bytes) := []
  imgLen  : Option Nat := none
  imgErr  : Bool := false
  smfCompat : Bytes := []
  sqmCompat : Bytes := []
  /-- ROOTKEY_REQ and what was latched -/
  rootReq : Bool := false
  rootKey : Option Nat := none
  rootBad : Bool := false
  deriving DecidableEq, Repr

-- Alarms --------------------------------------------------------------------------------------------------------------------

/-- One entry of the alarm log (R536). -/
structure AlmEntry where
  cause : Nat
  cls   : Nat
  d0    : W32
  d1    : W32
  stamp : Nat
  deriving DecidableEq, Repr

/-- Alarms and sensors (chapter 18). -/
structure Alarms where
  armed    : Bool := false
  aActive  : Bool := false
  bActive  : Bool := false
  eraseFail : Bool := false
  clearLock : Bool := false
  aCause   : Nat := 0
  bCause   : Nat := 0
  clearResult : Nat := 0
  /-- conditions that hold, with the detail words of their trips -/
  holds    : List (Sensor × W32 × W32) := []
  temp     : W32 := 0
  tempWarn : Nat := 0x64
  vcore    : W32 := 0
  cntA     : Nat := 0
  cntB     : Nat := 0
  cntC     : Nat := 0
  /-- (VAON) -/
  lastA    : Nat := 0
  total    : Nat := 0
  /-- latest 64 entries, by log index -/
  log      : List (Nat × AlmEntry) := []
  maskC    : W32 := 0
  /-- class A sequence between its steps 4 and 5, and aborted jobs whose records are awaited before vector 0 -/
  verifying : Bool := false
  vec0Wait : Bool := false
  /-- unstepped instant of the last class A alarm (R192); step 6 of its sequence is still to run, as it is only for an alarm that found A_ACTIVE 0 (R529) -/
  alarmAt  : Option Stamp := none
  step6    : Bool := false
  /-- memories whose erasure could not be verified: held in reset until BLKRST_N or PORST_N (R527) -/
  heldMems : List BlockMem := []
  /-- secure-time stamps (ns) of class A alarms since the last reset, newest first -/
  stampsA  : List Nat := []
  deriving DecidableEq, Repr

-- Seats and rings -----------------------------------------------------------------------------------------------------------

/-- The SEAT_X_ settings of a seat (R167). -/
structure SeatSet where
  opts    : Nat := 0x3206
  root    : Nat := 0
  keytab  : Nat := 0
  keyLen  : Nat := 0
  deriving DecidableEq, Repr

/-- The curtain-only settings of a ring slot (R169). -/
structure RingSet where
  enable : Bool := false
  base   : Nat := 0
  cqBase : Nat := 0
  cfg    : Nat := 4
  deriving DecidableEq, Repr

/-- A transition of a seat in progress (R130). -/
inductive Transit where
  | none
  /-- curtain falling: squash or drain -/
  | curtain (squash : Bool)
  /-- reset sequence, accepted at this instant (R154) -/
  | reset (at_ : Nat)
  /-- FREEZE flushing held records -/
  | freeze
  /-- MIG_OFFER, SAVE and RESTORE at work -/
  | offer
  | save
  | restore
  deriving DecidableEq, Repr

/-- One ring slot (chapter 5). -/
structure Ring where
  /-- settings written, and settings in force -/
  set      : RingSet := {}
  act      : RingSet := {}
  coal     : Nat := 1
  tmo      : Nat := 0x2710
  db       : Nat := 0
  fetchIdx : Nat := 0
  cqHead   : Nat := 0
  cqTail   : Nat := 0
  lost     : Nat := 0
  cplFault : Bool := false
  fetchFault : Bool := false
  dbErr    : Bool := false
  armed    : Bool := true
  /-- a fetch in progress: packets that have come, by position; `some []` once its first read is issued -/
  fetching : Bool := false
  packets  : List (Nat × Bytes) := []
  fetchLen : Nat := 0
  /-- curtain: the producer index recorded at the CURTAIN write (R148) -/
  cut      : Option Nat := none
  /-- unconsumed records: index, ns of acknowledgement, PROMPT_NOW since the last evaluation -/
  unread   : List (Nat × Nat × Bool) := []
  /-- records of the ring issued and not answered; fetch fault records that are due, oldest first: subcode, entry index (R199) -/
  recsOut  : Nat := 0
  faultRecs : List (Nat × Nat) := []
  lastJob  : Option Nat := none
  deriving DecidableEq, Repr

/-- One seat (chapters 4, 11, 13, 14). -/
structure Seat where
  state   : Nat := 0
  /-- always-on retained (R132) -/
  gen     : Nat := 0
  spent   : Bool := false
  cfgReject : Bool := false
  saved   : Bool := false
  offer   : Bool := false
  transit : Transit := .none
  writesOpen : Bool := false
  /-- requests numbered below this were made before the reset that set WRITES_OPEN (R156) -/
  openBelow : Nat := 0
  /-- shares: as written, and in force since an epoch boundary (R144) -/
  shareW  : Nat := 0x00400001
  shareJ  : Nat := 0x00100100
  shareK  : Nat := 0x00040100
  actW    : Nat := 0x00400001
  actJ    : Nat := 0x00100100
  actK    : Nat := 0x00040100
  /-- SEAT_X_ settings as last accepted, and in force -/
  set     : SeatSet := {}
  act     : SeatSet := {}
  faultCnt : Nat := 0
  /-- random-byte bucket (R146), bytes -/
  bucket  : Nat := 0
  /-- bays in the order they were added (R208) -/
  bays    : List Nat := []
  /-- ring slot after the last one fetched from (R177) -/
  rrSlot  : Nat := 0
  /-- admission (R360): as written, in force, credit in ns, shed count -/
  admitW  : Nat := 0x04000000
  admitAct : Nat := 0x04000000
  credit  : Int := 0
  shed    : Nat := 0
  /-- packet front (chapter 14): association range, stranger budget as written and in force, credit, shed count -/
  abase   : Nat := 0
  acount  : Nat := 0
  strg    : Nat := 0x01000000
  strgAct : Nat := 0x01000000
  strgCredit : Nat := 0
  strgShed : Nat := 0
  /-- jobs a reset in progress squashes at its end, or a class A alarm before that completes with ALARM_ABORT (R157) -/
  resetJobs : List Job := []
  deriving DecidableEq, Repr

/-- Private halves of a migration offer (R159). -/
structure Offer where
  ident : Bytes := []
  xPriv : Bytes := []
  kemDk : Bytes := []
  deriving DecidableEq, Repr

/-- Seat commands and the registers beside them (R167). -/
structure SeatRegs where
  cmdSts  : Nat := 0
  sel     : Nat := 0
  migBuf  : Nat := 0
  migBufLen : Nat := 0
  migLen  : Nat := 0
  invAddr : Nat := 0
  /-- SEAT_ATU_FAULT and its address -/
  fault   : Nat := 0
  faultAddr : Nat := 0
  /-- a migration command at work: seat, its buffer and length when it was accepted, pieces of the buffer read, keys read, step; the association entries
  looked at so far, and those of the seat with their indexes (R160) -/
  migSeat : Option Nat := none
  migAt   : Nat := 0
  migCap  : Nat := 0
  migScan : Nat := 0
  migAssocs : List (Nat × Bytes) := []
  /-- commands accepted while another was at work, oldest first: seat, buffer, length -/
  migQueue : List (Nat × Nat × Nat) := []
  migGot  : List (Nat × Bytes) := []
  migKeys : List (Nat × Bytes) := []
  migStep : Nat := 0
  /-- value of the last register read by a command that reads (R11, R64) -/
  readData : W32 := 0
  deriving DecidableEq, Repr

-- Placement -----------------------------------------------------------------------------------------------------------------

/-- The round-key, state and counter registers of a cipher lane (R21): the seat it served last, the key its round keys come from, the block or tag
state and the counter it left. -/
structure LaneRegs where
  seat : Option Nat := none
  key  : Bytes := []
  st   : Bytes := []
  ctr  : Bytes := []
  deriving DecidableEq, Repr

/-- A region of a bay buffer (R26): the job that has it, the seat that had it last, and the bytes it holds. -/
structure Region where
  job   : Option Nat := none
  seat  : Nat := 0
  bytes : Bytes := []
  deriving DecidableEq, Repr

/-- One bay (chapters 1, 6, 8). -/
structure Bay where
  retired  : Bool := false
  /-- round slots of the last epoch, slots per us (R214); none before the first epoch -/
  rate     : Option Nat := none
  /-- memory reads of the epoch in progress: their number and their latencies added up, ns; mean latency of the last epoch with one (R381) -/
  reads    : Nat := 0
  readNs   : Nat := 0
  latency  : Nat := 0
  /-- wraps made since the start (R277) -/
  wraps    : Nat := 0
  /-- registers of the two cipher lanes (R21) -/
  lanes    : List (Nat × LaneRegs) := []
  /-- the countermeasure generator's last seed, and the mask generator's (R250, R251) -/
  seed     : Bytes := []
  mask     : Bytes := []
  deriving DecidableEq, Repr

/-- One wing. `power`: 0 GATED, 1 WAKING, 2 ON, 3 DRAINING. -/
structure Wing where
  power   : Nat := 0
  failed  : Bool := false
  /-- ns since which no job is queued or running in the wing; ns at which it was woken -/
  idleAt  : Nat := 0
  wokenAt : Nat := 0
  /-- deficits of R220, by seat, and of R221, by 2048 + seat (2048 + 1024: the relay queue) -/
  deficit : List (Nat × Nat) := []
  /-- the seat served last, by position of the bay in the wing (8: the engine) -/
  turn    : List (Nat × Nat) := []
  deriving DecidableEq, Repr

/-- Placement registers that take effect at an epoch boundary (R234). -/
structure PlcRegs where
  ctrl    : Nat := 3
  rehome  : Nat := 0x14
  gate    : Nat := 0x000A0864
  preempt : Nat := 0x7D0
  hop     : Nat := 0x01900028
  relay   : Nat := 0x000107D0
  deriving DecidableEq, Repr

/-- An advertisement of a ring member (R228): starts per command class, floor, accepts. -/
structure Advert where
  starts  : List (Nat × Nat) := []
  floor   : Nat := 0
  accepts : Bool := false
  deriving DecidableEq, Repr

/-- Words of a seat that take effect at an epoch boundary: its shares, stranger budget and admission (R144, R360, R454). -/
structure EpochWords where
  shareW : Nat := 0x00400001
  shareJ : Nat := 0x00100100
  shareK : Nat := 0x00040100
  strg   : Nat := 0x01000000
  admitW : Nat := 0x04000000
  deriving DecidableEq, Repr

/-- The written values that take effect at a boundary, as they were at its stamp (R548). -/
structure Latch where
  seats : List (Nat × EpochWords) := []
  place : PlcRegs := {}
  floor : Nat := 0
  deriving DecidableEq, Repr

/-- Placement (chapter 6). -/
structure Place where
  set      : PlcRegs := {}
  act      : PlcRegs := {}
  /-- what the boundary that has come is to put into force, while writes of its own stamp have been taken since (R548) -/
  latch    : Option Latch := none
  deny     : List (Nat × Nat) := []
  bays     : List (Nat × Bay) := []
  wings    : List (Nat × Wing) := []
  home     : List (Nat × Nat) := []
  rotate   : Nat := 0
  /-- seat, AFFINITY, bay; newest first -/
  affin    : List (Nat × Nat × Nat) := []
  lastWake : Option Nat := none
  cntRelayOut : Nat := 0
  cntRelayIn : Nat := 0
  cntRehome : Nat := 0
  cntPreempt : Nat := 0
  cntWake  : Nat := 0
  /-- signed place numbers for the head of a queue (R222) -/
  front    : Int := 0
  adverts  : List (Nat × Advert) := []
  deriving DecidableEq, Repr

-- Engines -------------------------------------------------------------------------------------------------------------------

/-- One big-number engine (chapter 10). -/
structure Engine where
  /-- job in the input stage, whether it is full; job in the run phase -/
  staged   : Option Nat := none
  loadFull : Bool := false
  running  : Option Nat := none
  /-- the job whose run has ended and whose operand memory is being wiped (R320) -/
  wiping   : Option Nat := none
  /-- the seat of the job whose operand memory is being wiped (R321) -/
  wipeSeat : Nat := 0
  /-- a job that left the input stage before its run: its region is being wiped (R320, R487), and its seat -/
  stageWipe : Option Nat := none
  stageSeat : Nat := 0
  rs       : Nat := 0
  rt       : Nat := 0
  floorRun : Nat := 0
  /-- step 4: instants at which the datapaths ended, block by block for ML-DSA signing, and whether they agree in each -/
  ends     : List Stamp := []
  agrees   : List Bool := []
  block    : Nat := 1
  cntJobs  : Nat := 0
  cntFault : Nat := 0
  cntLate  : Nat := 0
  slackMin : Nat := 0xFFFFFFFF
  deriving DecidableEq, Repr

/-- The engines' common registers (R343). -/
structure Engines where
  eng      : List (Nat × Engine) := []
  floor    : Nat := 0
  inForce  : Nat := 0
  faultCfg : Nat := 0x00640003
  faultLog : Nat := 0
  rtQuery  : Nat := 0
  /-- stamps of the FAULT_DETECTED outcomes of the last 1,000 ms, the longest window of R337, newest first -/
  faults   : List Nat := []
  deriving DecidableEq, Repr

-- Key store -----------------------------------------------------------------------------------------------------------------

/-- An attribute record (R374) with its use lease (R379). -/
structure Attr where
  seat    : Nat
  gen     : Nat
  handle  : Nat
  attr    : Nat
  expires : Nat
  limit   : Nat
  count   : Nat
  matLen  : Nat
  blob    : Nat := 0
  /-- stored lease value once acknowledged; a lease write on its way with its value, and the number of its request -/
  stored  : Option Nat := none
  leasing : Option Nat := none
  leaseReq : Nat := 0
  deriving DecidableEq, Repr

/-- A key schedule in a bay's cache slice (R25, R380). -/
structure Sched where
  bay    : Nat
  seat   : Nat
  gen    : Nat
  handle : Nat
  attr   : Nat
  mat    : Bytes
  deriving DecidableEq, Repr

/-- A loaded HMAC slot (R298). -/
structure HmacSlot where
  seat   : Nat
  gen    : Nat
  handle : Nat
  attr   : Nat
  inner  : Bytes
  outer  : Bytes
  deriving DecidableEq, Repr

/-- The key store and the context spill area (chapters 8, 12). -/
structure KeyStore where
  bk       : Option Bytes := none
  epochTag : Nat := 0
  epochNew : Bool := false
  /-- always-on retained: EPOCH, WRAP_STARTS and their CRC; BWK sealed under the BK beside it -/
  epoch    : Nat := 0
  wrapStarts : Nat := 0
  epochGood : Bool := false
  bwk      : Option (Bytes × Bytes) := none
  sealCount : Nat := 0
  /-- seats whose keys are held, newest first (R368) -/
  seatKeys : List (Nat × Nat) := []
  /-- newest first -/
  attrs    : List Attr := []
  scheds   : List Sched := []
  slots    : List HmacSlot := []
  cntLoad  : Nat := 0
  cntInvalid : Nat := 0
  cntExpired : Nat := 0
  cntImport : Nat := 0
  maskSeed : Bytes := []
  /-- context spill -/
  spillBase : Nat := 0
  spillSlots : Nat := 0
  /-- slots in use: number and job -/
  spillUsed : List (Nat × Nat) := []
  spillFull : Bool := false
  cntSpill : Nat := 0
  cntCtxInvalid : Nat := 0
  /-- counters of the digest group -/
  cntCmpFault : Nat := 0
  cntTrunc : Nat := 0
  cntShort : Nat := 0
  /-- deficits of the key store and of the generate units (R392, R418), by seat -/
  deficit  : List (Nat × Nat) := []
  farmDeficit : List (Nat × Nat) := []
  deriving DecidableEq, Repr

-- Digest window -------------------------------------------------------------------------------------------------------------

/-- The direct digest window (R312). `st`: 0 IDLE, 1 OPEN, 2 ERROR. -/
structure DigestWindow where
  st     : Nat := 0
  busy   : Bool := false
  /-- FINISH accepted: the final absorption is in progress -/
  finishing : Bool := false
  done   : Bool := false
  alg    : Nat := 0
  errs   : Nat := 0
  count  : Nat := 0
  lowHalf : Nat := 0
  heldWord : Option Bytes := none
  /-- committed bytes of the open block, chaining state -/
  part   : Bytes := []
  hash   : Bytes := []
  out    : Bytes := []
  deriving DecidableEq, Repr

-- Entropy -------------------------------------------------------------------------------------------------------------------

/-- One noise source (R402). `st`: 0 STARTUP, 1 RUNNING, 2 RESTARTING, 3 RETIRED. -/
structure Source where
  st      : Nat := 0
  /-- start-up blocks passed -/
  testOk  : Nat := 0
  consec  : Nat := 0
  /-- secure-time stamps (ns) of failures, newest first -/
  recent  : List Nat := []
  failCnt : Nat := 0
  /-- last sample and the length of its run -/
  lastBit : Bool := false
  run     : Nat := 0
  reg     : BitVec 256 := 0
  passed  : Nat := 0
  /-- RNG_RAW writing from this source; the block in progress began before it (R421); unstepped instant at which the block in progress began -/
  raw     : Option Nat := none
  rawSkip : Bool := false
  blockAt : Stamp := 0
  /-- RESTARTING ends 20 us after the restart, at this instant -/
  readyAt : Nat := 0
  deriving DecidableEq, Repr

/-- One DRBG instance (R407). `st`: 0 EMPTY, 1 SEEDING, 2 READY, 3 HELD. -/
structure Drbg where
  st      : Nat := 0
  key     : Bytes := []
  v       : Bytes := []
  reqs    : Nat := 0
  /-- secure time (ns) of the last seed -/
  seededAt : Nat := 0
  reseed  : Bool := false
  /-- words still to come and words delivered so far -/
  want    : Nat := 0
  words   : List Bytes := []
  /-- place among requests, additional input of the job that asked -/
  reqNo   : Nat := 0
  addl    : Bytes := []
  byJob   : Bool := false
  deriving DecidableEq, Repr

/-- Sources, pool and farm (chapter 13). -/
structure Entropy where
  sources : List (Nat × Source) := []
  pool    : List Bytes := []
  inst    : List (Nat × Drbg) := []
  instSel : Nat := 0
  rehearsal : Bool := false
  cmdResult : Nat := 0
  cntSeed : Nat := 0
  cntNotReady : Nat := 0
  cntRetire : Nat := 0
  nextReq : Nat := 0
  /-- step 4 in progress or over: sources run -/
  on      : Bool := false
  deriving DecidableEq, Repr

-- Stage time and secure time ------------------------------------------------------------------------------------------------

/-- One capture input (R468): stamp held, its flags, and its snapshot. -/
structure Capture where
  stamp : Stamp := 0
  valid : Bool := false
  lost  : Bool := false
  fast  : Nat := 0
  lastAt : Option Stamp := none
  snap  : Stamp := 0
  deriving DecidableEq, Repr

/-- Stage time and secure time (chapter 15). Stage time is `mono + offset` in 2^-16 ns: `mono` only advances, `offset` is what the
steps have made of it (R461); `sub` is the part below 2^-16 ns, in units of 2^-64 ns (R460). -/
structure TimeBase where
  mono     : Stamp := 0
  offset   : Int := 0
  sub      : Nat := 0
  runs     : Bool := false
  /-- always-on: secure time (ns), the lead of R458, and whether their CRCs hold -/
  secure   : Nat := 0
  secGood  : Bool := false
  lead     : Nat := 0
  leadGood : Bool := false
  secRestarted : Bool := false
  /-- TIME_STS -/
  holdover : Bool := false
  follower : Bool := false
  refLost  : Bool := false
  stepped  : Bool := false
  unlisted : Bool := false
  refAbsent : Bool := true
  slewPos  : Bool := false
  rateLo   : Nat := 0
  rateHi   : Nat := 0
  rate     : Int := 0
  adjLo    : Nat := 0
  adjHi    : Nat := 0
  /-- remaining slew in 2^-64 ns -/
  slewLeft : Int := 0
  slewing  : Bool := false
  refKhz   : Nat := 0
  refUsed  : Nat := 0
  /-- REFCLK as it runs, kHz, when known from its last return -/
  refIs    : Nat := 0
  ppsCfg   : Nat := 0x186A0
  ppsHigh  : Bool := false
  /-- the whole second (ns) at which PPS_OUT rose, the next one stage time reaches by advancing, and the width taken at the rise (us) -/
  ppsRose  : Nat := 0
  ppsNext  : Nat := 0
  ppsWidth : Nat := 0x186A0
  captCfg  : Nat := 0
  capt     : List (Nat × Capture) := []
  cntStep  : Nat := 0
  /-- snapshots -/
  snap     : Stamp := 0
  secSnap  : Nat := 0
  /-- time port: last value, TIME_STEP due, TIME_SEQ; due instant -/
  portNs   : Nat := 0
  portFrac : Nat := 0
  portStep : Bool := false
  portStepOut : Bool := false
  portSeq  : Nat := 0
  portDue  : Nat := 0
  /-- next epoch boundary, advertisement, countermeasure reseed, TIME message and prompt evaluation -/
  epochDue : Nat := 0
  advDue   : Nat := 0
  reseedDue : Nat := 0
  timeDue  : Nat := 0
  promptDue : Nat := 0
  deriving DecidableEq, Repr

-- Relay ---------------------------------------------------------------------------------------------------------------------

/-- A relay message queued to be sent: hop, kind, source, destination, hops, contents. -/
inductive RMsg where
  | hello (x kem : Bytes) (phase : Bool)
  | reply (x ct w : Bytes)
  | confirm (e : Bytes)
  | echo
  | probe (isAnswer formed : Bool) (leader : Nat)
  | elect (identity : Nat)
  | number (next : Nat)
  | map (entries : List MapEntry)
  | join (isAnswer refused : Bool) (given : Nat) (sealedRk : Bytes)
  | adv (starts : List (Nat × Nat)) (floor : Nat) (accepts : Bool)
  | job (j : RelayedJob)
  | done (d : RelayedDone)
  | cancel (tags : List Nat)
  | alarm (member : Nat)
  | break_ (position : Nat)
  | time (value : Stamp)
  | mail (total offset : Nat) (part : Bytes) (final : Bool)
  deriving DecidableEq, Repr

/-- A message sent on a hop: its headers, its contents, and its flits as they leave (R475). -/
structure RSent where
  east : Bool
  src  : Nat
  dst  : Nat
  hops : Nat
  seq  : Nat
  phase : Bool
  msg  : RMsg
  wire : Bytes := []
  deriving DecidableEq, Repr

/-- What a member states of its side of a hop (R480, R483): its OFFPKG bit, and that the hop is not keyed. -/
structure HopMark where
  off  : Bool
  down : Bool
  deriving DecidableEq, Repr

/-- Ring work that waits for the DRBG of seat 0 (R409): a HELLO to send, one to answer, an election to start or judge, the ring key of a leader. -/
inductive RWant where
  | hello (again : Bool)
  | answer (x ek : Bytes) (phase : Bool)
  | start
  | elect (hop : Hop) (identity : Candidate)
  | lead
  deriving DecidableEq, Repr

/-- One relay hop (R475, R478). -/
structure RHop where
  link    : Bool := false
  upAt    : Nat := 0
  /-- credits held to send, one for each flit (R85) -/
  credits : Nat := 0
  /-- messages that wait for credits, oldest first, and the flits of the first that are still to leave once it has started (0: not started) -/
  queue   : List RSent := []
  txLeft  : Nat := 0
  /-- RX_CREDIT pulses returned since LINK_UP rose (R85) -/
  rxPulses : Nat := 0
  keyed   : Bool := false
  broken  : Bool := false
  phase   : Bool := false
  /-- 64 bytes of hop keys: send key, receive key; the keys of the phase being agreed and the confirm key -/
  sendKey : Bytes := []
  recvKey : Bytes := []
  newKeys : Bytes := []
  digest  : Bytes := []
  newPhase : Bool := false
  confirming : Bool := false
  keyedAt : Nat := 0
  txSeq   : Nat := 0
  rxSeq   : Nat := 0
  /-- the old phase's receive count, still accepted for messages in flight (R481) -/
  oldPhase : Option Nat := none
  lastRx  : Nat := 0
  /-- east side's private halves while HELLO is out -/
  xPriv   : Bytes := []
  kemDk   : Bytes := []
  hello   : Bytes := []
  /-- unstepped instant at which it was sent -/
  helloAt : Stamp := 0
  echoes  : Nat := 0
  best    : Nat := 0
  latency : Nat := 0
  offpkg  : Bool := false
  probed  : Bool := false
  deriving DecidableEq, Repr

/-- The relay ring (chapter 16). -/
structure Relay where
  ctrl    : Nat := 0
  /-- RLY_CTRL as start step 11 took it (R495) -/
  ctrlAct : Nat := 0
  east    : RHop := {}
  west    : RHop := {}
  formed  : Bool := false
  leader  : Bool := false
  leaderIs : Nat := 0
  pkgMaster : Bool := false
  noBwk   : Bool := false
  authFail : Bool := false
  full    : Bool := false
  member  : Nat := 0xFF
  rk      : Bytes := []
  map     : List MapEntry := []
  /-- the leader's: what members have stated of their sides of hops, by member and side -/
  marks   : List (Nat × Side × HopMark) := []
  /-- an election has begun since this member asked to join (R494) -/
  rejoin  : Bool := false
  mapSel  : Nat := 0
  cntBreak : Nat := 0
  cntAuth : Nat := 0
  cntStale : Nat := 0
  /-- election: own identity once drawn, own ELECT sent, probe sent at (ns) -/
  identity : Option Nat := none
  electSent : Bool := false
  probeAt : Option Nat := none
  sealNo  : Nat := 0
  /-- what waits for the DRBG of seat 0, oldest first (R409) -/
  wants   : List RWant := []
  nextTag : Nat := 0
  lastTime : Nat := 0
  timeSeen : Bool := false
  /-- mail out -/
  mailSrc : Nat := 0
  mailLen : Nat := 0
  mailBusy : Bool := false
  mailDst : Nat := 0
  mailResult : Nat := 0
  mailGot : List (Nat × Bytes) := []
  /-- bytes of the mail being sent; members whose east hop its path uses -/
  mailTotal : Nat := 0
  mailPath : List Nat := []
  /-- the destination has been asked whether its inbox takes the mail, and has not answered (log entry 129) -/
  mailAsked : Bool := false
  /-- inbox -/
  inbox   : Nat := 0
  inboxLen : Nat := 0
  inboxFull : Bool := false
  sender  : Nat := 0
  got     : Nat := 0
  part    : Nat := 0
  /-- members whose east hop the path of the mail that is coming uses (R493) -/
  partPath : List Nat := []
  /-- messages sent, newest first; the surroundings take them -/
  sent    : List RSent := []
  deriving DecidableEq, Repr

-- Custodian -----------------------------------------------------------------------------------------------------------------

/-- A record of the custodian journal (R518). -/
structure CustRec where
  txn     : Nat := 0
  card    : Nat := 0
  kind    : Nat := 0
  phase   : Nat := 0
  secureT : Nat := 0
  detail  : Nat := 0
  deriving DecidableEq, Repr

/-- A share record held (R515). -/
structure Share where
  splitId : Nat
  x       : Nat
  m       : Nat
  n       : Nat
  check   : Bytes
  share   : Bytes
  deriving DecidableEq, Repr

/-- What the T=1 exchange in progress is for. -/
inductive CardOp where
  | none | ifs | query | getCert | authorize | getShare | putShare | checkCommit
  deriving DecidableEq, Repr

/-- The custodian port (chapter 17). `st`: 0 ABSENT … 6 FAILED (R508). -/
structure Cust where
  st      : Nat := 0
  /-- CUST_DET, and since when (ns); debounced -/
  det     : Bool := false
  detAt   : Nat := 0
  present : Bool := false
  /-- pins: CUST_VCC_EN, CUST_RSTN, CUST_CLK running (its divider), CUST_IO pulled low -/
  vcc     : Bool := false
  rstn    : Bool := false
  clkDiv  : Nat := 0
  ioLow   : Bool := true
  clkStopped : Bool := false
  clkStopOk : Bool := false
  fidi    : Nat := 0x11
  ifsc    : Nat := 0x20
  bwi     : Nat := 4
  cwi     : Nat := 13
  /-- when CUST_RSTN rises, 500 cycles after the clock has started (R498), and a change of divider that waits for the end of a character (R497): when, and to what -/
  rstAt   : Option Nat := none
  divNext : Option (Nat × Nat) := none
  /-- a second activation, or one after a failed PPS (R501), waiting 10 ms -/
  second  : Bool := false
  waiting : Bool := false
  ppsWant : Option Nat := none
  holdAt  : Nat := 0
  /-- T=1: N(S) to send and expected, INF still to send, INF received, failed attempts, resynchronisations -/
  ns      : Bool := false
  nr      : Bool := false
  outInf  : Bytes := []
  sentInf : Bytes := []
  inInf   : Bytes := []
  /-- the card has begun its answer, so that the I-block last sent is acknowledged -/
  answering : Bool := false
  fails   : Nat := 0
  resynchs : Nat := 0
  wtx     : Nat := 1
  op      : CardOp := .none
  /-- S(RESYNCH request) is out; the card answered 0x9101 and is polled -/
  resyncing : Bool := false
  polling : Bool := false
  /-- what came with the answers that said busy (R506) -/
  answer  : Bytes := []
  /-- the command APDU of the exchange; last character sent at, last block received at, supply enabled or reactivation begun at, last condition
  query and status poll sent at -/
  apdu    : Bytes := []
  sendEnd : Nat := 0
  lastAt  : Nat := 0
  actAt   : Nat := 0
  queryAt : Nat := 0
  pollAt  : Nat := 0
  /-- command in progress: code, argument, when its last character was sent -/
  cmd     : Nat := 0
  arg     : Nat := 0
  busy    : Bool := false
  sts     : Nat := 0
  cmdAt   : Nat := 0
  /-- what GET_CERT returned in this activation -/
  cert    : Option Bytes := none
  challenge : Bytes := []
  /-- an ACCEPT version has been written since AUTHORIZE named the pair (R124) -/
  voided  : Bool := false
  ephPriv : Bytes := []
  jrec    : Option Nat := none
  /-- the write whose final status word came last (R522): its record, when, and the SECURE_T of its COMMIT -/
  lastWrite : Option (Nat × Nat × Nat) := none
  lastSent : Bytes := []
  /-- reconciliation: records still to settle -/
  settle  : List Nat := []
  split   : Nat := 0
  cfg     : Nat := 0x00140532
  /-- authorizations: end in secure ns by act 1 REHEARSAL, 2 UNTESTED, 3 ESCROW -/
  auth    : List (Nat × Nat) := []
  shares  : List Share := []
  sharesAt : Nat := 0
  sharesM : Nat := 0
  cardId  : Nat := 0
  resolved : Bool := false
  outcome : Nat := 0
  recSettled : Nat := 0
  cntRemove : Nat := 0
  cntErr  : Nat := 0
  /-- always-on retained: the root's digest and lock -/
  rootHash : Bytes := []
  rootSet : Bool := false
  /-- the custodian journal: its header passes its CRC, and the records that fail theirs (R518) -/
  jGood   : Bool := true
  badRecs : List Nat := []
  nextTxn : Nat := 0
  recs    : List (Nat × CustRec) := []
  deriving DecidableEq, Repr

-- Packet front --------------------------------------------------------------------------------------------------------------

/-- An association in the on-block cache (R439): its entry as loaded and since changed, the stored seal lease and window lease once
acknowledged, and lease writes on their way. -/
structure Assoc where
  index   : Nat
  seat    : Nat := 0
  gen     : Nat := 0
  state   : Nat := 0
  mode    : Nat := 0
  tagLen  : Nat := 0
  keyref  : Nat := 0
  flags   : Nat := 0
  spi     : Nat := 0
  outSpi  : Nat := 0
  sealSalt : Bytes := []
  openSalt : Bytes := []
  ctr     : Nat := 0
  soft    : Nat := 0
  flow    : Nat := 0
  home    : Nat := 0xFF
  winTop  : Nat := 0
  winLease : Nat := 0
  winBits : Nat := 0
  localEp : Bytes := []
  peerEp  : Bytes := []
  /-- lease values acknowledged, and lease values being written, with the numbers of the requests that write them -/
  sealStored : Option Nat := none
  sealNext : Option Nat := none
  sealReq  : Nat := 0
  winStored : Option Nat := none
  winNext : Option Nat := none
  winReq   : Nat := 0
  deriving DecidableEq, Repr

/-- A follow entry of the fragment table (R455). -/
structure Follow where
  key   : Bytes
  assoc : Nat
  epoch : Nat
  stamp : Stamp
  deriving DecidableEq, Repr

/-- A packet in the packet front before its bay, or on its way out. -/
structure PktOut where
  port  : Nat
  assoc : Nat
  order : Nat
  /-- the association is named or found: packets of it leave in the order they entered (R75) -/
  named : Bool
  metaOut : BitVec 128
  bytes : Bytes
  deriving DecidableEq, Repr

/-- Writes of the peer unit to one entry, or to the entries of a relocation, in order; one without bytes waits for the lookups in progress (R451). -/
structure PeerAct where
  job    : Option Nat := none
  writes : List (Nat × Bytes) := []
  deriving DecidableEq, Repr

/-- The packet front (chapter 14). -/
structure Front where
  forerunner : Bool := false
  enabled  : Bool := false
  /-- step 10 running or failed: PKT_IN ready held low (R51) -/
  loading  : Bool := false
  rehashBusy : Bool := false
  rehashReq : Bool := false
  excFull  : Bool := false
  assocBase : Nat := 0
  peerBase : Nat := 0
  peerNext : Nat := 0
  seed1    : Nat := 0
  seed2    : Nat := 0
  nextSeed1 : Nat := 0
  nextSeed2 : Nat := 0
  /-- rehash: bucket reached -/
  rehashAt : Nat := 0
  /-- base and seeds of the table that the rehash fills, as the REHASH write took them (R453, R547) -/
  rehBase  : Nat := 0
  rehSeed1 : Nat := 0
  rehSeed2 : Nat := 0
  /-- what the peer unit has still to write, oldest first, and what waits for the lookups whose requests lie below a number (R450, R451) -/
  peerQ    : List PeerAct := []
  peerHold : Option (PeerAct × Nat) := none
  /-- buckets the scanner visits at this instant, or whose read it waits for; instants of the last visits (R452) -/
  visits   : List Nat := []
  visited  : List (Nat × Nat) := []
  age      : Nat := 0x3C
  current  : Nat := 0
  bank     : Bool := false
  draining : Bool := false
  swapAt   : Nat := 0
  grace    : Nat := 0x2710
  excBase  : Nat := 0
  excCfg   : Nat := 4
  excHead  : Nat := 0
  excTail  : Nat := 0
  cntDiscard : Nat := 0
  cntExc   : Nat := 0
  cntPeerFail : Nat := 0
  cntShed  : Nat := 0
  cntRenewed : Nat := 0
  cntExcLost : Nat := 0
  cntOrphan : Nat := 0
  cntLearned : Nat := 0
  /-- words of the nodes: bank × 512 + node × 8 + word -/
  nodes    : List (Nat × Nat) := []
  /-- association cache, most recently used first -/
  cache    : List Assoc := []
  /-- associations (index, seat, generation) that have issued their SEAL_SOFT, also once their entry has left the cache (R259) -/
  softDone : List (Nat × Nat × Nat) := []
  follow   : List Follow := []
  /-- peer buckets known on the block (the cache of R448, written through): table 0 current, 1 next; × 65536 + bucket -/
  peers    : List (Nat × Bytes) := []
  /-- packets ready to leave, oldest first -/
  outQ     : List PktOut := []
  outNo    : Nat := 0
  deriving DecidableEq, Repr

-- The machine ---------------------------------------------------------------------------------------------------------------

/-- A prompt waiting on the prompt port: function and entry (R74 merges equal ones). -/
structure Prompt where
  fn  : Nat
  vec : Nat
  deriving DecidableEq, Repr

end Sys2Proof.Machine

namespace Sys2Proof.Machine

/-- THE STATE OF THE BLOCK. -/
structure State where
  /-- commands waiting, first in, first out -/
  pending  : List Instr
  params   : Params
  start    : Start
  journal  : Journal
  alarms   : Alarms
  seats    : List (Nat × Seat)
  /-- ring slots, by seat × 16 + slot -/
  rings    : List (Nat × Ring)
  seatRegs : SeatRegs
  offers   : List (Nat × Offer)
  jobs     : List Job
  nextJob  : Nat
  mem      : MemUnit
  place    : Place
  /-- regions of the bay buffers, by bay (R26) -/
  buffers  : List (Nat × List Region)
  engines  : Engines
  keys     : KeyStore
  window   : DigestWindow
  entropy  : Entropy
  front    : Front
  time     : TimeBase
  relay    : Relay
  cust     : Cust
  /-- prompts waiting for PRM_READY, oldest first -/
  prompts  : List Prompt
  /-- the model's own: how many free values have been taken (Config.free) -/
  freeCount : Nat
  deriving DecidableEq, Repr

/-- The block at step 1 of the power-up sequence: both resets low, retained memory empty, every register at its reset value. -/
def State.reset : State where
  pending := []
  params := {}
  start := {}
  journal := {}
  alarms := {}
  seats := []
  rings := []
  seatRegs := {}
  offers := []
  jobs := []
  nextJob := 0
  mem := {}
  place := {}
  buffers := []
  engines := {}
  keys := {}
  window := {}
  entropy := {}
  front := {}
  time := {}
  relay := {}
  cust := {}
  prompts := []
  freeCount := 0

end Sys2Proof.Machine
end

