-- ==== Sys2Proof/Machine/Modes.lean ====
section
/-! DEFINITION. The symmetric modes of R240 as steps on the chaining state of a message (R276): AES-GCM and GMAC (SP 800-38D), AES-GCM-SIV
(RFC 8452), ChaCha20-Poly1305 (RFC 8439), AES-CMAC (SP 800-38B), AES-CTR and CBC (SP 800-38A), AES-XTS (IEEE 1619). -/

namespace Sys2Proof.Machine

-- GHASH and POLYVAL ---------------------------------------------------------------------------------------------------------

/-- Product in the GCM field; numbers are big-endian blocks, `n` bits of `x` are still to come from bit n-1 down. -/
def ghashMulF : Nat → Nat → Nat → Nat → Nat
  | 0, _, _, z => z
  | n + 1, x, v, z =>
    ghashMulF n x (if v % 2 = 1 then (v / 2) ^^^ (0xE1 <<< 120) else v / 2) (if x.testBit n then z ^^^ v else z)

def ghashMul (x y : Nat) : Nat := ghashMulF 128 x y 0

/-- Fold zero-padded 16-byte blocks into an accumulator. -/
def ghashFold (h acc : Nat) (data : Bytes) : Nat :=
  (chunks 16 data).foldl (fun a c => ghashMul (a ^^^ beNat (c ++ zeros (16 - c.length))) h) acc

/-- mulX of RFC 8452, on a big-endian block of the GCM field. -/
def ghashMulX (v : Nat) : Nat := if v % 2 = 1 then (v / 2) ^^^ (0xE1 <<< 120) else v / 2

/-- POLYVAL through GHASH (RFC 8452, appendix A): the key and every block are byte-reversed. -/
def polyvalKey (h : Bytes) : Nat := ghashMulX (beNat h.reverse)

def polyvalFold (h acc : Nat) (data : Bytes) : Nat :=
  (chunks 16 data).foldl (fun a c => ghashMul (a ^^^ beNat (c ++ zeros (16 - c.length)).reverse) h) acc

-- Counters ------------------------------------------------------------------------------------------------------------------

/-- Add one to the big-endian counter in the last `n` bytes of a block; the bytes before never change (R241). -/
def incBE (n : Nat) (b : Bytes) : Bytes :=
  let k := b.length - n
  b.take k ++ beBytes n ((beNat (b.drop k) + 1) % 2 ^ (8 * n))

/-- Add one to the little-endian counter in the first 4 bytes (GCM-SIV). -/
def incLE32 (b : Bytes) : Bytes := leBytes 4 ((leNat (b.take 4) + 1) % 2 ^ 32) ++ b.drop 4

/-- Counter mode: key stream of `f` over blocks from `ctr`; the next counter block and the output. -/
def ctrRun (f inc : Bytes → Bytes) : List Bytes → Bytes → Bytes × Bytes
  | [], ctr => (ctr, [])
  | c :: cs, ctr =>
    let r := ctrRun f inc cs (inc ctr)
    (r.1, xorBytes c (f ctr) ++ r.2)

-- ChaCha20-Poly1305 ---------------------------------------------------------------------------------------------------------

def chachaQr (s : List (BitVec 32)) (i j k l : Nat) : List (BitVec 32) :=
  let a := s.getD i 0; let b := s.getD j 0; let c := s.getD k 0; let d := s.getD l 0
  let a := a + b; let d := (d ^^^ a).rotateLeft 16
  let c := c + d; let b := (b ^^^ c).rotateLeft 12
  let a := a + b; let d := (d ^^^ a).rotateLeft 8
  let c := c + d; let b := (b ^^^ c).rotateLeft 7
  (((s.set i a).set j b).set k c).set l d

def chachaDouble (s : List (BitVec 32)) : List (BitVec 32) :=
  let s := chachaQr (chachaQr (chachaQr (chachaQr s 0 4 8 12) 1 5 9 13) 2 6 10 14) 3 7 11 15
  chachaQr (chachaQr (chachaQr (chachaQr s 0 5 10 15) 1 6 11 12) 2 7 8 13) 3 4 9 14

/-- The ChaCha20 block of a key, a counter and a 12-byte nonce. -/
def chachaBlock (key : Bytes) (ctr : Nat) (nonce : Bytes) : Bytes :=
  let st := (chunks 4 (ascii "expand 32-byte k" ++ key ++ leBytes 4 ctr ++ nonce)).map (fun c => BitVec.ofNat 32 (leNat c))
  let r := (List.range 10).foldl (fun s _ => chachaDouble s) st
  ((List.zipWith (· + ·) st r).map (fun x => leBytes 4 x.toNat)).flatten

/-- Poly1305 over 16-byte pieces, each already zero-padded where RFC 8439 pads. -/
def polyFold (key : Bytes) (acc : Nat) (data : Bytes) : Nat :=
  let r := leNat (key.take 16) &&& 0x0ffffffc0ffffffc0ffffffc0fffffff
  (chunks 16 data).foldl (fun a c => ((a + leNat c + 2 ^ (8 * c.length)) * r) % (2 ^ 130 - 5)) acc

def pad16 (b : Bytes) : Bytes := b ++ zeros ((16 - b.length % 16) % 16)

-- Open blocks ---------------------------------------------------------------------------------------------------------------

/-- Fold bytes into an accumulator of 16-byte blocks of which `off` bytes of an open block are already in it: whole blocks by `f`, and with `close` the
last of them; otherwise bytes of a block that stays open are put in by `add` and multiplied once it is whole. A segment of R267 may end inside a
block. -/
def foldOpen (f add : Nat → Bytes → Nat) (acc off : Nat) (data : Bytes) (close : Bool) : Nat :=
  let d := zeros off ++ data
  let n := if close then d.length else d.length / 16 * 16
  let acc := f acc (d.take n)
  if n < d.length then add acc (d.drop n) else acc

def ghashOpen (h acc off : Nat) (data : Bytes) (close : Bool) : Nat :=
  foldOpen (ghashFold h) (fun a c => a ^^^ beNat (c ++ zeros (16 - c.length))) acc off data close

def polyvalOpen (h acc off : Nat) (data : Bytes) (close : Bool) : Nat :=
  foldOpen (polyvalFold h) (fun a c => a ^^^ beNat (c ++ zeros (16 - c.length)).reverse) acc off data close

def polyOpen (key : Bytes) (acc off : Nat) (data : Bytes) (close : Bool) : Nat :=
  foldOpen (fun a d => polyFold key a (pad16 d)) (fun a c => a + leNat c) acc off data close

/-- Counter mode over bytes that follow `off` bytes of an open block of `blk`: the counter of the block still open, or the next one; and the output. -/
def ctrOpen (f inc : Bytes → Bytes) (blk off : Nat) (data ctr : Bytes) (close : Bool) : Bytes × Bytes :=
  let cs := chunks blk (zeros off ++ data)
  let used := if close then cs.length else (off + data.length) / blk
  ((List.range used).foldl (fun c _ => inc c) ctr, (ctrRun f inc cs ctr).2.drop off)

-- XTS -----------------------------------------------------------------------------------------------------------------------

/-- Multiply a tweak (little-endian number) by x. -/
def xtsMulX (t : Nat) : Nat := if t.testBit 127 then (2 * t) % 2 ^ 128 ^^^ 0x87 else 2 * t

def xtsMulXN : Nat → Nat → Nat
  | 0, t => t
  | n + 1, t => xtsMulXN n (xtsMulX t)

def xtsBlock (f : Bytes → Bytes) (t : Nat) (b : Bytes) : Bytes :=
  let w := leBytes 16 t
  xorBytes (f (xorBytes b w)) w

/-- Whole blocks and, at the end of a unit, ciphertext stealing for a partial last block. `f` is the block function, `enc` its direction. -/
def xtsRun (f : Bytes → Bytes) (enc : Bool) : List Bytes → Nat → Bytes
  | [], _ => []
  | [b], t => xtsBlock f t b
  | [b, p], t =>
    if p.length < 16 then
      let t1 := if enc then t else xtsMulX t
      let t2 := if enc then xtsMulX t else t
      let cc := xtsBlock f t1 b
      xtsBlock f t2 (p ++ cc.drop p.length) ++ cc.take p.length
    else xtsBlock f t b ++ xtsBlock f (xtsMulX t) p
  | b :: bs, t => xtsBlock f t b ++ xtsRun f enc bs (xtsMulX t)

-- Modes on a chaining state -------------------------------------------------------------------------------------------------

/-- Modes of R240. -/
abbrev mGcm : Nat := 1
abbrev mSiv : Nat := 2
abbrev mChacha : Nat := 3
abbrev mGmac : Nat := 4
abbrev mCmac : Nat := 5
abbrev mCtr : Nat := 6
abbrev mCbc : Nat := 7
abbrev mXts : Nat := 8

/-- Counter bytes of AES-CTR by PARAM (R240). -/
def ctrWidth (param : Nat) : Nat := if param = 0 then 16 else if param = 1 then 8 else 4

/-- The AES-GCM-SIV message keys (RFC 8452): authentication key and encryption key. -/
def sivKeys (key nonce : Bytes) : Bytes × Bytes :=
  let rk := aesKeys key
  let d := fun i => (aesEncRk rk (leBytes 4 i ++ nonce.take 12)).take 8
  (d 0 ++ d 1, if key.length = 32 then d 2 ++ d 3 ++ d 4 ++ d 5 else d 2 ++ d 3)

/-- The state of a message before its first byte, by mode and IV field. -/
def ctxStart (mode : Nat) (iv : Bytes) : Ctx :=
  { iv := iv
    chain := if mode = mGcm then iv.take 12 ++ [0, 0, 0, 2]
      else if mode = mChacha then leBytes 4 1 ++ zeros 12
      else if mode = mCtr ∨ mode = mCbc ∨ mode = mXts then iv
      else zeros 16 }

/-- Fold additional data: whole 16-byte blocks, or the last of it, zero-padded. -/
def aadRun (mode : Nat) (key : Bytes) (c : Ctx) (aad : Bytes) : Ctx :=
  let acc :=
    if mode = mGcm then ghashFold (beNat (aesEnc key (zeros 16))) c.acc aad
    else if mode = mSiv then polyvalFold (polyvalKey (sivKeys key c.iv).1) c.acc aad
    else if mode = mChacha then polyFold (chachaBlock key 0 (c.iv.take 12)) c.acc (pad16 aad)
    else c.acc
  { c with acc := acc, aadBytes := c.aadBytes + aad.length }

/-- Run payload through the mode, on from MSG_BYTES, which may stand inside a block; with `last` it is the rest of the payload. Encrypt when `enc`. -/
def dataRun (mode : Nat) (enc : Bool) (param : Nat) (key : Bytes) (c : Ctx) (data : Bytes) (last : Bool) : Ctx × Bytes :=
  let n := c.msgBytes + data.length
  if mode = mGcm then
    let rk := aesKeys key
    let off := c.msgBytes % 16
    let r := ctrOpen (aesEncRk rk) (incBE 4) 16 off data c.chain last
    ({ c with chain := r.1, acc := ghashOpen (beNat (aesEncRk rk (zeros 16))) c.acc off (if enc then r.2 else data) last, msgBytes := n }, r.2)
  else if mode = mGmac then
    ({ c with acc := ghashFold (beNat (aesEnc key (zeros 16))) c.acc data, msgBytes := n }, [])
  else if mode = mChacha then
    let r := ctrOpen (fun ctr => chachaBlock key (leNat (ctr.take 4)) (c.iv.take 12)) incLE32 64 (c.msgBytes % 64) data c.chain last
    let out := if enc then r.2 else data
    ({ c with chain := r.1, acc := polyOpen (chachaBlock key 0 (c.iv.take 12)) c.acc (c.msgBytes % 16) out last, msgBytes := n }, r.2)
  else if mode = mCmac then
    let rk := aesKeys key
    let blk := fun ch b => aesEncRk rk (xorBytes ch b)
    if last then
      let k1 := xtsLike (beNat (aesEncRk rk (zeros 16)))
      let cs := chunks 16 data
      let ch := (cs.take (cs.length - 1)).foldl blk c.chain
      let l := cs.getLastD []
      let fin := if l.length = 16 then xorBytes l (beBytes 16 k1)
        else xorBytes (l ++ [0x80] ++ zeros (15 - l.length)) (beBytes 16 (xtsLike k1))
      ({ c with chain := blk ch fin, msgBytes := n }, [])
    else ({ c with chain := (chunks 16 data).foldl blk c.chain, msgBytes := n }, [])
  else if mode = mCtr then
    let r := ctrOpen (aesEncRk (aesKeys key)) (incBE (ctrWidth param)) 16 (c.msgBytes % 16) data c.chain last
    ({ c with chain := r.1, msgBytes := n }, r.2)
  else if mode = mCbc then
    let rk := aesKeys key
    let r := (chunks 16 data).foldl (fun (p : Bytes × Bytes) b =>
      if enc then let o := aesEncRk rk (xorBytes b p.1); (o, p.2 ++ o)
      else (b, p.2 ++ xorBytes (aesDecRk rk b) p.1)) (c.chain, [])
    ({ c with chain := r.1, msgBytes := n }, r.2)
  else if mode = mXts then
    let h := key.length / 2
    let rk := aesKeys (key.take h)
    let rk2 := aesKeys (key.drop h)
    let f := if enc then aesEncRk rk else aesDecRk rk
    let tweak := fun unit => leNat (aesEncRk rk2 (leBytes 16 (unit % 2 ^ 128)))
    if param = 0 then
      let t := xtsMulXN (c.msgBytes / 16) (tweak (leNat c.iv))
      ({ c with msgBytes := n, chain := if last then leBytes 16 ((leNat c.iv + 1) % 2 ^ 128) else c.chain }, xtsRun f enc (chunks 16 data) t)
    else
      -- units of 2^PARAM bytes; a run may begin and end inside a unit
      let u := 2 ^ param
      let out := (data.length / 16)
      let blocks := chunks 16 data
      let r := (List.range out).map (fun i =>
        let pos := c.msgBytes + 16 * i
        xtsBlock f (xtsMulXN (pos % u / 16) (tweak (leNat c.iv + pos / u))) (blocks.getD i []))
      ({ c with msgBytes := n, chain := leBytes 16 ((leNat c.iv + n / u) % 2 ^ 128) }, r.flatten)
  else if mode = mSiv then
    let ks := sivKeys key c.iv
    let off := c.msgBytes % 16
    if c.pass = 0 ∧ enc then ({ c with acc := polyvalOpen (polyvalKey ks.1) c.acc off data last, msgBytes := n }, [])
    else
      let r := ctrOpen (aesEnc ks.2) incLE32 16 off data c.chain last
      let acc := if enc then c.acc else polyvalOpen (polyvalKey ks.1) c.acc off r.2 last
      ({ c with chain := r.1, acc := acc, msgBytes := n }, r.2)
  else (c, [])
where
  /-- doubling in the CMAC field -/
  xtsLike (v : Nat) : Nat := if v.testBit 127 then (2 * v) % 2 ^ 128 ^^^ 0x87 else 2 * v

/-- First counter block of the second pass of AES-GCM-SIV. -/
def sivCtr (tag : Bytes) : Bytes := tag.take 15 ++ [tag.getD 15 0 ||| 0x80]

/-- The full tag of a message that has been run to its end. -/
def modeTag (mode : Nat) (key : Bytes) (c : Ctx) : Bytes :=
  if mode = mGcm ∨ mode = mGmac then
    let rk := aesKeys key
    let h := beNat (aesEncRk rk (zeros 16))
    let lens := if mode = mGcm then beBytes 8 (8 * c.aadBytes) ++ beBytes 8 (8 * c.msgBytes) else beBytes 8 (8 * c.msgBytes) ++ zeros 8
    xorBytes (beBytes 16 (ghashFold h c.acc lens)) (aesEncRk rk (c.iv.take 12 ++ [0, 0, 0, 1]))
  else if mode = mChacha then
    let k := chachaBlock key 0 (c.iv.take 12)
    let a := polyFold k c.acc (leBytes 8 c.aadBytes ++ leBytes 8 c.msgBytes)
    leBytes 16 ((a + leNat ((k.drop 16).take 16)) % 2 ^ 128)
  else if mode = mSiv then
    let ks := sivKeys key c.iv
    let a := (beBytes 16 (polyvalFold (polyvalKey ks.1) c.acc (leBytes 8 (8 * c.aadBytes) ++ leBytes 8 (8 * c.msgBytes)))).reverse
    let x := xorBytes a (c.iv.take 12 ++ zeros 4)
    aesEnc ks.2 (x.take 15 ++ [x.getD 15 0 &&& 0x7F])
  else if mode = mCmac then c.chain
  else []

-- Whole messages, for the block's own seals ---------------------------------------------------------------------------------

/-- AES-256-GCM seal with a 12-byte nonce: ciphertext and 16-byte tag. -/
def gcmSeal (key nonce aad pt : Bytes) : Bytes × Bytes :=
  let r := dataRun mGcm true 0 key (aadRun mGcm key (ctxStart mGcm nonce) aad) pt true
  (r.2, modeTag mGcm key r.1)

/-- AES-256-GCM open: the plaintext when the tag verifies. -/
def gcmOpen (key nonce aad ct tag : Bytes) : Option Bytes :=
  let r := dataRun mGcm false 0 key (aadRun mGcm key (ctxStart mGcm nonce) aad) ct true
  if modeTag mGcm key r.1 = tag then some r.2 else none

-- Key wrap with padding (SP 800-38F) ----------------------------------------------------------------------------------------

/-- The wrapping rounds: register A and the semiblocks, steps from `t`. -/
def kwStepF (rk : List Bytes) (n : Nat) : Nat → Nat → Bytes → List Bytes → Bytes × List Bytes
  | 0, _, a, r => (a, r)
  | f + 1, t, a, r =>
    let i := (t - 1) % n
    let b := aesEncRk rk (a ++ r.getD i [])
    kwStepF rk n f (t + 1) (xorBytes (b.take 8) (beBytes 8 t)) (r.set i (b.drop 8))

def kwUnstepF (rk : List Bytes) (n : Nat) : Nat → Bytes → List Bytes → Bytes × List Bytes
  | 0, a, r => (a, r)
  | t + 1, a, r =>
    let i := t % n
    let b := aesDecRk rk (xorBytes a (beBytes 8 (t + 1)) ++ r.getD i [])
    kwUnstepF rk n t (b.take 8) (r.set i (b.drop 8))

/-- AES-KWP wrap. -/
def kwpWrap (key pt : Bytes) : Bytes :=
  let rk := aesKeys key
  let aiv : Bytes := [0xA6, 0x59, 0x59, 0xA6] ++ beBytes 4 pt.length
  let p := pt ++ zeros ((8 - pt.length % 8) % 8)
  let n := p.length / 8
  if n = 1 then aesEncRk rk (aiv ++ p)
  else
    let r := kwStepF rk n (6 * n) 1 aiv (chunks 8 p)
    r.1 ++ r.2.flatten

/-- AES-KWP unwrap: the plaintext when its integrity check holds. -/
def kwpUnwrap (key ct : Bytes) : Option Bytes :=
  let rk := aesKeys key
  let n := ct.length / 8 - 1
  if ct.length % 8 ≠ 0 ∨ ct.length < 16 then none
  else
    let r := if n = 1 then let b := aesDecRk rk ct; (b.take 8, b.drop 8)
      else let u := kwUnstepF rk n (6 * n) (ct.take 8) (chunks 8 (ct.drop 8)); (u.1, u.2.flatten)
    let len := fieldBE r.1 4 4
    if r.1.take 4 = [0xA6, 0x59, 0x59, 0xA6] ∧ len ≤ 8 * n ∧ 8 * (n - 1) < len ∧ r.2.drop len = zeros (8 * n - len) then some (r.2.take len) else none

end Sys2Proof.Machine
end

