-- ==== Sys2Proof/Machine/Sha.lean ====
section
/-! DEFINITION. Hash functions of R289: SHA-2 (FIPS 180-4), SHA-3 and SHAKE (FIPS 202), as a chaining value in the byte form of R311 that
whole blocks are absorbed into, and the padding of R294. -/

namespace Sys2Proof.Machine

def sha256KWord : Nat := 0xc67178f2bef9a3f7a4506ceb90befffa8cc7020884c8781478a5636f748f82ee682e6ff35b9cca4f4ed8aa4a391c0cb334b0bcb52748774c1e376c0819a4c116106aa070f40e3585d6990624d192e819c76c51a3c24b8b70a81a664ba2bfe8a192722c8581c2c92e766a0abb650a735453380d134d2c6dfc2e1b213827b70a851429296706ca6351d5a79147c6e00bf3bf597fc7b00327c8a831c66d983e515276f988da5cb0a9dc4a7484aa2de92c6f240ca1cc0fc19dc6efbe4786e49b69c1c19bf1749bdc06a780deb1fe72be5d74550c7dc3243185be12835b01d807aa98ab1c5ed5923f82a459f111f13956c25be9b5dba5b5c0fbcf71374491428a2f98
def sha512KWord : Nat := 0x6c44198c4a4758175fcb6fab3ad6faec597f299cfc657e2a4cc5d4becb3e42b6431d67c49c100d4c3c9ebe0a15c9bebc32caab7b40c7249328db77f523047d841b710b35131c471b113f9804bef90dae0a637dc5a2c898a606f067aa72176fbaf57d4f7fee6ed178eada7dd6cde0eb1ed186b8c721c0c207ca273eceea26619cc67178f2e372532bbef9a3f7b2c67915a4506cebde82bde990befffa23631e288cc702081a6439ec84c87814a1f0ab7278a5636f43172f60748f82ee5defb2fc682e6ff3d6b2b8a35b9cca4f7763e3734ed8aa4ae3418acb391c0cb3c5c95a6334b0bcb5e19b48a82748774cdf8eeb991e376c085141ab5319a4c116b8d2d0c8106aa07032bbd1b8f40e35855771202ad69906245565a910d192e819d6ef5218c76c51a30654be30c24b8b70d0f89791a81a664bbc423001a2bfe8a14cf1036492722c851482353b81c2c92e47edaee6766a0abb3c77b2a8650a73548baf63de53380d139d95b3df4d2c6dfc5ac42aed2e1b21385c26c92627b70a8546d22ffc142929670a0e6e7006ca6351e003826fd5a79147930aa725c6e00bf33da88fc2bf597fc7beef0ee4b00327c898fb213fa831c66d2db43210983e5152ee66dfab76f988da831153b55cb0a9dcbd41fbd44a7484aa6ea6e4832de92c6f592b0275240ca1cc77ac9c650fc19dc68b8cd5b5efbe4786384f25e3e49b69c19ef14ad2c19bf174cf6926949bdc06a725c7123580deb1fe3b1696b172be5d74f27b896f550c7dc3d5ffb4e2243185be4ee4b28c12835b0145706fbed807aa98a3030242ab1c5ed5da6d8118923f82a4af194f9b59f111f1b605d0193956c25bf348b538e9b5dba58189dbbcb5c0fbcfec4d3b2f7137449123ef65cd428a2f98d728ae22
def sha256HWord : Nat := 0x5be0cd191f83d9ab9b05688c510e527fa54ff53a3c6ef372bb67ae856a09e667
def sha224HWord : Nat := 0xbefa4fa464f98fa768581511ffc00b31f70e59393070dd17367cd507c1059ed8
def sha512HWord : Nat := 0x5be0cd19137e21791f83d9abfb41bd6b9b05688c2b3e6c1f510e527fade682d1a54ff53a5f1d36f13c6ef372fe94f82bbb67ae8584caa73b6a09e667f3bcc908
def sha384HWord : Nat := 0x47b5481dbefa4fa4db0c2e0d64f98fa78eb44a876858151167332667ffc00b31152fecd8f70e59399159015a3070dd17629a292a367cd507cbbb9d5dc1059ed8
def keccakRcWord : Nat := 0x8000000080008008000000008000000180000000000080808000000080008081800000008000000a000000000000800a8000000000000080800000000000800280000000000080038000000000008089800000000000008b000000008000808b000000008000000a00000000800080090000000000000088000000000000008a800000000000800980000000800080810000000080000001000000000000808b8000000080008000800000000000808a00000000000080820000000000000001

/-- Rotation amounts of Keccak, lane x + 5y. -/
def keccakRot : List Nat := [0, 1, 62, 28, 27, 36, 44, 6, 55, 20, 3, 10, 43, 25, 39, 41, 45, 15, 21, 8, 18, 2, 61, 56, 14]

/-- Message schedule of SHA-2, newest word first. -/
def shaSched {w : Nat} (s0 s1 : BitVec w → BitVec w) : Nat → List (BitVec w) → List (BitVec w)
  | 0, l => l
  | n + 1, l => shaSched s0 s1 n ((s1 (l.getD 1 0) + l.getD 6 0 + s0 (l.getD 14 0) + l.getD 15 0) :: l)

/-- The rounds of SHA-2 over schedule words and constants. -/
def shaRounds {w : Nat} (b0 b1 : BitVec w → BitVec w) : List (BitVec w × BitVec w) → List (BitVec w) → List (BitVec w)
  | [], st => st
  | (k, m) :: r, [a, b, c, d, e, f, g, h] =>
    let t1 := h + b1 e + ((e &&& f) ^^^ (~~~e &&& g)) + k + m
    let t2 := b0 a + ((a &&& b) ^^^ (a &&& c) ^^^ (b &&& c))
    shaRounds b0 b1 r [t1 + t2, a, b, c, d + t1, e, f, g]
  | _ :: r, st => shaRounds b0 b1 r st

def rr {w : Nat} (x : BitVec w) (n : Nat) : BitVec w := x.rotateRight n

def beWords (w : Nat) (b : Bytes) : List (BitVec w) := (chunks (w / 8) b).map (fun c => BitVec.ofNat w (beNat c))

def wordsBe {w : Nat} (l : List (BitVec w)) : Bytes := (l.map (fun x => beBytes (w / 8) x.toNat)).flatten

/-- One SHA-256 compression; the chaining value is 32 bytes. -/
def sha256Block (hv blk : Bytes) : Bytes :=
  let st := beWords 32 hv
  let s0 := fun x : BitVec 32 => rr x 7 ^^^ rr x 18 ^^^ (x >>> 3)
  let s1 := fun x : BitVec 32 => rr x 17 ^^^ rr x 19 ^^^ (x >>> 10)
  let ws := (shaSched s0 s1 48 (beWords 32 blk).reverse).reverse
  let ks := (List.range 64).map (fun i => BitVec.ofNat 32 (sha256KWord >>> (32 * i)))
  let st' := shaRounds (fun x => rr x 2 ^^^ rr x 13 ^^^ rr x 22) (fun x => rr x 6 ^^^ rr x 11 ^^^ rr x 25) (ks.zip ws) st
  wordsBe (List.zipWith (· + ·) st st')

/-- One SHA-512 compression; the chaining value is 64 bytes. -/
def sha512Block (hv blk : Bytes) : Bytes :=
  let st := beWords 64 hv
  let s0 := fun x : BitVec 64 => rr x 1 ^^^ rr x 8 ^^^ (x >>> 7)
  let s1 := fun x : BitVec 64 => rr x 19 ^^^ rr x 61 ^^^ (x >>> 6)
  let ws := (shaSched s0 s1 64 (beWords 64 blk).reverse).reverse
  let ks := (List.range 80).map (fun i => BitVec.ofNat 64 (sha512KWord >>> (64 * i)))
  let st' := shaRounds (fun x => rr x 28 ^^^ rr x 34 ^^^ rr x 39) (fun x => rr x 14 ^^^ rr x 18 ^^^ rr x 41) (ks.zip ws) st
  wordsBe (List.zipWith (· + ·) st st')

def keccakRound (st : List (BitVec 64)) (rc : BitVec 64) : List (BitVec 64) :=
  let a := fun i => st.getD i 0
  let c := (List.range 5).map (fun x => a x ^^^ a (x + 5) ^^^ a (x + 10) ^^^ a (x + 15) ^^^ a (x + 20))
  let d := (List.range 5).map (fun x => c.getD ((x + 4) % 5) 0 ^^^ (c.getD ((x + 1) % 5) 0).rotateLeft 1)
  let t := (List.zip st ((List.range 25).zip keccakRot)).map (fun p => (p.1 ^^^ d.getD (p.2.1 % 5) 0).rotateLeft p.2.2)
  -- pi: lane (y, 2x + 3y) takes lane (x, y); lane at X + 5Y takes x = X + 3Y, y = X
  let b := (List.range 25).map (fun i => t.getD ((i % 5 + 3 * (i / 5)) % 5 + 5 * (i % 5)) 0)
  let r := (List.range 25).map (fun i =>
    let y := 5 * (i / 5)
    b.getD i 0 ^^^ (~~~(b.getD (y + (i + 1) % 5) 0) &&& b.getD (y + (i % 5 + 2) % 5) 0))
  match r with
  | x :: xs => (x ^^^ rc) :: xs
  | [] => []

/-- Keccak-f[1600] on the 200-byte state. -/
def keccakF (b : Bytes) : Bytes :=
  let st := (chunks 8 b).map (fun c => BitVec.ofNat 64 (leNat c))
  let st := (List.range 24).foldl (fun st i => keccakRound st (BitVec.ofNat 64 (keccakRcWord >>> (64 * i)))) st
  (st.map (fun x => leBytes 8 x.toNat)).flatten

-- The algorithms of R289 by ALG code ----------------------------------------------------------------------------------------

/-- Block, or rate, in bytes. -/
def hashBlock (alg : Nat) : Nat :=
  match alg with
  | 1 => 64 | 2 => 64 | 3 => 128 | 4 => 128 | 5 => 144 | 6 => 136 | 7 => 104 | 8 => 72 | 9 => 168 | 10 => 136 | _ => 64

/-- Digest bytes; 0 for SHAKE, whose output is as long as asked. -/
def hashLen (alg : Nat) : Nat :=
  match alg with
  | 1 => 28 | 2 => 32 | 3 => 48 | 4 => 64 | 5 => 28 | 6 => 32 | 7 => 48 | 8 => 64 | _ => 0

def isSha2 (alg : Nat) : Bool := decide (1 ≤ alg) && decide (alg ≤ 4)

def isShake (alg : Nat) : Bool := alg == 9 || alg == 10

/-- The initial chaining value. -/
def hashInit (alg : Nat) : Bytes :=
  match alg with
  | 1 => ((List.range 8).map (fun i => beBytes 4 (sha224HWord >>> (32 * i)))).flatten
  | 2 => ((List.range 8).map (fun i => beBytes 4 (sha256HWord >>> (32 * i)))).flatten
  | 3 => ((List.range 8).map (fun i => beBytes 8 (sha384HWord >>> (64 * i)))).flatten
  | 4 => ((List.range 8).map (fun i => beBytes 8 (sha512HWord >>> (64 * i)))).flatten
  | _ => zeros 200

/-- Absorb one whole block. -/
def hashAbsorb1 (alg : Nat) (hv blk : Bytes) : Bytes :=
  if alg = 1 ∨ alg = 2 then sha256Block hv blk
  else if alg = 3 ∨ alg = 4 then sha512Block hv blk
  else keccakF (xorBytes hv (blk ++ zeros (200 - blk.length)))

/-- Absorb whole blocks. -/
def hashAbsorb (alg : Nat) (hv data : Bytes) : Bytes := (chunks (hashBlock alg) data).foldl (hashAbsorb1 alg) hv

/-- The message's last bytes with the padding of the standard: `total` message bytes in all, `rest` those not yet absorbed. -/
def hashPad (alg total : Nat) (rest : Bytes) : Bytes :=
  let b := hashBlock alg
  if isSha2 alg then
    let lenB := if b = 64 then 8 else 16
    let z := (b - (rest.length + 1 + lenB) % b) % b
    rest ++ [0x80] ++ zeros z ++ beBytes lenB (8 * total)
  else
    let dom : Byte := if isShake alg then 0x1F else 0x06
    let z := b - 1 - rest.length % b
    if z = 0 then rest ++ [dom ||| 0x80] else rest ++ [dom] ++ zeros (z - 1) ++ [0x80]

/-- Squeeze `n` bytes: rate bytes of each state in turn; fuel bounds the states. -/
def squeezeF (rate : Nat) : Nat → Bytes → Nat → Bytes
  | 0, _, _ => []
  | f + 1, st, n => if n ≤ rate then st.take n else st.take rate ++ squeezeF rate f (keccakF st) (n - rate)

/-- Output bytes of a chaining value after the last block. -/
def hashOut (alg : Nat) (hv : Bytes) (n : Nat) : Bytes :=
  if isShake alg then squeezeF (hashBlock alg) (n / hashBlock alg + 1) hv n else hv.take n

/-- Digest of a whole message, `n` bytes of it. -/
def hashN (alg : Nat) (msg : Bytes) (n : Nat) : Bytes := hashOut alg (hashAbsorb alg (hashInit alg) (hashPad alg msg.length msg)) n

def hash (alg : Nat) (msg : Bytes) : Bytes := hashN alg msg (hashLen alg)

def sha256 (m : Bytes) : Bytes := hash 2 m
def sha384 (m : Bytes) : Bytes := hash 3 m
def sha512 (m : Bytes) : Bytes := hash 4 m
def shake128 (m : Bytes) (n : Nat) : Bytes := hashN 9 m n
def shake256 (m : Bytes) (n : Nat) : Bytes := hashN 10 m n

end Sys2Proof.Machine
end

