-- ==== Sys2Proof/Machine/Kdf.lean ====
section
/-! DEFINITION. HMAC (FIPS 198-1), HKDF (RFC 5869), the SP 800-108 KDF of R366, CRC-32C, and the CTR_DRBG of SP 800-90A (R406). -/

namespace Sys2Proof.Machine

/-- The padded key of HMAC: one block (a longer key is hashed first). -/
def hmacPadKey (alg : Nat) (key : Bytes) : Bytes :=
  let k := if hashBlock alg < key.length then hash alg key else key
  k ++ zeros (hashBlock alg - k.length)

/-- The inner and outer chaining values after the padded key (R298). -/
def hmacInner (alg : Nat) (key : Bytes) : Bytes := hashAbsorb1 alg (hashInit alg) ((hmacPadKey alg key).map (· ^^^ 0x36))

def hmacOuter (alg : Nat) (key : Bytes) : Bytes := hashAbsorb1 alg (hashInit alg) ((hmacPadKey alg key).map (· ^^^ 0x5C))

/-- The tag from the outer value and the inner digest. -/
def hmacFinish (alg : Nat) (outer innerDigest : Bytes) : Bytes :=
  (hashAbsorb alg outer (hashPad alg (hashBlock alg + innerDigest.length) innerDigest)).take (hashLen alg)

def hmac (alg : Nat) (key msg : Bytes) : Bytes :=
  hmacFinish alg (hmacOuter alg key)
    ((hashAbsorb alg (hmacInner alg key) (hashPad alg (hashBlock alg + msg.length) msg)).take (hashLen alg))

/-- Output blocks of HKDF-Expand: the last block first made, `i` its number. -/
def hkdfBlocks (alg : Nat) (prk info : Bytes) : Nat → Nat → Bytes → Bytes
  | 0, _, _ => []
  | n + 1, i, t =>
    let t' := hmac alg prk (t ++ info ++ [BitVec.ofNat 8 i])
    t' ++ hkdfBlocks alg prk info n (i + 1) t'

/-- HKDF with a hash of R289: `n` bytes. -/
def hkdf (alg : Nat) (ikm salt info : Bytes) (n : Nat) : Bytes :=
  (hkdfBlocks alg (hmac alg (if salt.isEmpty then zeros (hashLen alg) else salt) ikm) info (ceilDiv n (hashLen alg)) 1 []).take n

/-- The KDF of R366: SP 800-108 in counter mode with HMAC-SHA-384, first 256 bits; one iteration serves. -/
def ladderKdf (key : Bytes) (label : String) (context : Bytes) : Bytes :=
  (hmac 3 key (beBytes 4 1 ++ ascii label ++ [0] ++ context ++ beBytes 4 256)).take 32

-- CRC-32C -------------------------------------------------------------------------------------------------------------------

def crcByteF : Nat → Nat → Nat
  | 0, c => c
  | n + 1, c => crcByteF n (if c % 2 = 1 then (c / 2) ^^^ 0x82F63B78 else c / 2)

/-- CRC-32C (Castagnoli) as RFC 3720 uses it. -/
def crc32c (b : Bytes) : Nat :=
  (b.foldl (fun c x => crcByteF 8 (c ^^^ x.toNat)) 0xFFFFFFFF) ^^^ 0xFFFFFFFF

-- CTR_DRBG ------------------------------------------------------------------------------------------------------------------

/-- BCC of the derivation function: CBC-MAC over whole blocks. -/
def bcc (rk : List Bytes) (data : Bytes) : Bytes := (chunks 16 data).foldl (fun ch b => aesEncRk rk (xorBytes ch b)) (zeros 16)

/-- Block_Cipher_df of SP 800-90A with AES-256: 48 bytes. -/
def drbgDf (input : Bytes) : Bytes :=
  let s := beBytes 4 input.length ++ beBytes 4 48 ++ input ++ [0x80]
  let s := s ++ zeros ((16 - s.length % 16) % 16)
  let rk := aesKeys ((List.range 32).map (BitVec.ofNat 8 ·))
  let t := bcc rk (beBytes 4 0 ++ zeros 12 ++ s) ++ bcc rk (beBytes 4 1 ++ zeros 12 ++ s) ++ bcc rk (beBytes 4 2 ++ zeros 12 ++ s)
  let rk2 := aesKeys (t.take 32)
  let x1 := aesEncRk rk2 ((t.drop 32).take 16)
  let x2 := aesEncRk rk2 x1
  x1 ++ x2 ++ aesEncRk rk2 x2

/-- Counter blocks after V: `n` output blocks and the last V. -/
def drbgBlocks (rk : List Bytes) : Nat → Nat → Nat × List Bytes
  | 0, v => (v, [])
  | n + 1, v =>
    let v' := (v + 1) % 2 ^ 128
    let r := drbgBlocks rk n v'
    (r.1, aesEncRk rk (beBytes 16 v') :: r.2)

/-- CTR_DRBG_Update: key and V after 48 bytes of provided data. -/
def drbgUpdate (key v data : Bytes) : Bytes × Bytes :=
  let t := xorBytes (drbgBlocks (aesKeys key) 3 (beNat v)).2.flatten data
  (t.take 32, t.drop 32)

/-- Instantiate from entropy input with nonce, and a personalization string. -/
def drbgInstantiate (entropy pers : Bytes) : Bytes × Bytes := drbgUpdate (zeros 32) (zeros 16) (drbgDf (entropy ++ pers))

/-- Reseed from entropy and additional input. -/
def drbgReseed (key v entropy addl : Bytes) : Bytes × Bytes := drbgUpdate key v (drbgDf (entropy ++ addl))

/-- Generate `n` bytes with additional input: output, key, V. -/
def drbgGenerate (key v : Bytes) (n : Nat) (addl : Bytes) : Bytes × Bytes × Bytes :=
  let ad := if addl.isEmpty then zeros 48 else drbgDf addl
  let kv := if addl.isEmpty then (key, v) else drbgUpdate key v ad
  let r := drbgBlocks (aesKeys kv.1) (ceilDiv n 16) (beNat kv.2)
  let kv' := drbgUpdate kv.1 (beBytes 16 r.1) ad
  (r.2.flatten.take n, kv'.1, kv'.2)

end Sys2Proof.Machine
end

