-- ==== Sys2Proof/Machine/Big.lean ====
section
/-! DEFINITION. Big-number arithmetic of the engine datapaths (R323, R335): exponentiation and inversion modulo a number, and the Chinese
remainder recombination of MOD_EXP_CRT. -/

namespace Sys2Proof.Machine

/-- Square and multiply from bit `n - 1` of the exponent down. -/
def modPowF (b e m : Nat) : Nat → Nat → Nat
  | 0, acc => acc
  | n + 1, acc =>
    let a := acc * acc % m
    modPowF b e m n (if e.testBit n then a * b % m else a)

/-- `b ^ e mod m`; any number to the power 0 is 1 mod m (R335). -/
def modPow (b e m : Nat) : Nat := modPowF (b % m) e m (e.log2 + 1) (1 % m)

/-- Extended Euclid: `r0 = a·x0 mod m` and so on; fuel bounds the divisions. -/
def egcdF (m : Nat) : Nat → Nat → Nat → Nat → Nat → Nat × Nat
  | 0, r0, _, x0, _ => (r0, x0)
  | f + 1, r0, r1, x0, x1 =>
    if r1 = 0 then (r0, x0) else egcdF m f r1 (r0 % r1) x1 ((x0 + m * m - (r0 / r1) * x1 % m) % m)

/-- Greatest common divisor of `a` and `m`, and a coefficient of `a`. -/
def egcd (a m : Nat) : Nat × Nat := egcdF m (2 * (m.log2 + 2)) (a % m) m 1 0

/-- The inverse modulo `m` of an invertible `a`. -/
def modInv (a m : Nat) : Nat := (egcd a m).2 % m

/-- `a - b mod m` for residues. -/
def modSub (a b m : Nat) : Nat := (a + m - b % m) % m

/-- `a ^ d mod p·q` from the CRT key (Garner). -/
def modExpCrt (a p q dp dq qinv : Nat) : Nat :=
  let m1 := modPow a dp p
  let m2 := modPow a dq q
  m2 + q * (qinv * modSub m1 (m2 % p) p % p)

end Sys2Proof.Machine
end

