-- ==== Sys2Proof/Machine/Flags.lean ====
section
/-! DEFINITION. Status codes (R14), flag words and the completion record (R187): every flag a job header or a record carries. -/

namespace Sys2Proof.Machine

-- Status codes --------------------------------------------------------------------------------------------------------------

abbrev stOk : Nat := 0x00
abbrev stAuthFail : Nat := 0x01
abbrev stUnequal : Nat := 0x02
abbrev stShort : Nat := 0x03
abbrev stNonceExhausted : Nat := 0x10
abbrev stContextInvalid : Nat := 0x11
abbrev stKeyHandle : Nat := 0x12
abbrev stKeyExpired : Nat := 0x13
abbrev stOperandRange : Nat := 0x20
abbrev stNotInvertible : Nat := 0x21
abbrev stPointInvalid : Nat := 0x22
abbrev stFaultDetected : Nat := 0x23
abbrev stLate : Nat := 0x24
abbrev stRngNotReady : Nat := 0x30
abbrev stEntropyFailed : Nat := 0x31
abbrev stRngRehearsal : Nat := 0x32
abbrev stParseDepth : Nat := 0x40
abbrev stParseLength : Nat := 0x41
abbrev stNoAssoc : Nat := 0x42
abbrev stReplay : Nat := 0x43
abbrev stOrphan : Nat := 0x44
abbrev stTimeout : Nat := 0x50
abbrev stSquashed : Nat := 0x51
abbrev stTranslation : Nat := 0x60
abbrev stQuota : Nat := 0x61
abbrev stCardInterrupted : Nat := 0x62
abbrev stAlarmAbort : Nat := 0x70
abbrev stInternal : Nat := 0x7F

/-- The status values the block writes (R14). -/
def isStatus (n : Nat) : Bool := Sys2Proof.statusCodes.contains n

-- Header flags (R178) -------------------------------------------------------------------------------------------------------

/-- WAIT_PREV, NO_CPL, PROMPT_NOW, GUARD of a header flags word. -/
def hWaitPrev (flags : Nat) : Bool := flags.testBit 0
def hNoCpl (flags : Nat) : Bool := flags.testBit 1
def hPromptNow (flags : Nat) : Bool := flags.testBit 2
def hGuard (flags : Nat) : Bool := flags.testBit 3

/-- OPFLAGS of a header flags word. -/
def hOpf (flags : Nat) : Nat := bits flags 15 8

-- Completion record (R187, R188) --------------------------------------------------------------------------------------------

/-- PHASE of the record at index `i` of a ring of 2^`log2` entries. -/
def phaseBit (i log2 : Nat) : Bool := i / 2 ^ log2 % 2 == 0

/-- FLAGS of a record. -/
def recFlags (opf : Nat) (relayed soft truncated phase : Bool) : Nat :=
  opf % 256 * 256 + flag relayed 3 + flag soft 2 + flag truncated 1 + flag phase 0

/-- The 32 bytes of a record. -/
def recBytes (tag status sub flags inB outB stamp result : Nat) : Bytes :=
  leBytes 4 tag ++ leBytes 1 status ++ leBytes 1 sub ++ leBytes 2 flags ++ leBytes 4 inB ++ leBytes 4 outB ++ leBytes 8 stamp ++ leBytes 8 result

end Sys2Proof.Machine
end

