-- ==== Sys2Proof/Machine/Curves.lean ====
section
/-! DEFINITION. The curves of R346 and R348: P-256 and P-384 (FIPS 186-5, SP 800-56A), X25519 (RFC 7748), Ed25519 and Ed25519ph with an
empty context (RFC 8032). Blinding (R351) changes no value and is not spelled out. -/

namespace Sys2Proof.Machine

-- Prime curves --------------------------------------------------------------------------------------------------------------

/-- A short Weierstrass curve with a = -3: field prime, b, base point, group order, bytes of a coordinate. -/
structure Curve where
  p : Nat
  b : Nat
  gx : Nat
  gy : Nat
  n : Nat
  len : Nat

def p256 : Curve where
  p := 0xffffffff00000001000000000000000000000000ffffffffffffffffffffffff
  b := 0x5ac635d8aa3a93e7b3ebbd55769886bc651d06b0cc53b0f63bce3c3e27d2604b
  gx := 0x6b17d1f2e12c4247f8bce6e563a440f277037d812deb33a0f4a13945d898c296
  gy := 0x4fe342e2fe1a7f9b8ee7eb4a7c0f9e162bce33576b315ececbb6406837bf51f5
  n := 0xffffffff00000000ffffffffffffffffbce6faada7179e84f3b9cac2fc632551
  len := 32

def p384 : Curve where
  p := 0xfffffffffffffffffffffffffffffffffffffffffffffffffffffffffffffffeffffffff0000000000000000ffffffff
  b := 0xb3312fa7e23ee7e4988e056be3f82d19181d9c6efe8141120314088f5013875ac656398d8a2ed19d2a85c8edd3ec2aef
  gx := 0xaa87ca22be8b05378eb1c71ef320ad746e1d3b628ba79b9859f741e082542a385502f25dbf55296c3a545e3872760ab7
  gy := 0x3617de4a96262c6f5d9e98bf9292dc29f8f41dbd289a147ce9da3113b5f0b8c00a60b1ce1d7e819d7a431d7c90ea0e5f
  n := 0xffffffffffffffffffffffffffffffffffffffffffffffffc7634d81f4372ddf581a0db248b0a77aecec196accc52973
  len := 48

/-- Jacobian coordinates; Z = 0 is the point at infinity. -/
abbrev JPoint := Nat × Nat × Nat

def jDouble (p : Nat) : JPoint → JPoint
  | (x, y, z) =>
    if z = 0 ∨ y = 0 then (1, 1, 0)
    else
      let zz := z * z % p
      let m := 3 * ((x + zz) * modSub x zz p % p) % p
      let yy := y * y % p
      let s := 4 * x * yy % p
      let x' := modSub (m * m) (2 * s) p
      (x', modSub (m * modSub s x' p) (8 * yy * yy) p, 2 * y * z % p)

def jAdd (p : Nat) (a b : JPoint) : JPoint :=
  let (x1, y1, z1) := a
  let (x2, y2, z2) := b
  if z1 = 0 then b else if z2 = 0 then a
  else
    let z1z := z1 * z1 % p
    let z2z := z2 * z2 % p
    let u1 := x1 * z2z % p
    let u2 := x2 * z1z % p
    let s1 := y1 * z2z * z2 % p
    let s2 := y2 * z1z * z1 % p
    if u1 = u2 then (if s1 = s2 then jDouble p a else (1, 1, 0))
    else
      let h := modSub u2 u1 p
      let r := modSub s2 s1 p
      let hh := h * h % p
      let hhh := h * hh % p
      let v := u1 * hh % p
      let x3 := modSub (r * r) (hhh + 2 * v) p
      (x3, modSub (r * modSub v x3 p) (s1 * hhh) p, h * z1 * z2 % p)

def jMulF (p k : Nat) (q : JPoint) : Nat → JPoint → JPoint
  | 0, acc => acc
  | n + 1, acc =>
    let d := jDouble p acc
    jMulF p k q n (if k.testBit n then jAdd p d q else d)

def jMul (p k : Nat) (q : JPoint) : JPoint := jMulF p k q (k.log2 + 1) (1, 1, 0)

/-- Affine coordinates, `none` for the point at infinity. -/
def jAffine (p : Nat) : JPoint → Option (Nat × Nat)
  | (x, y, z) =>
    if z = 0 then none
    else
      let i := modInv z p
      let ii := i * i % p
      some (x * ii % p, y * ii * i % p)

def Curve.g (c : Curve) : JPoint := (c.gx, c.gy, 1)

def Curve.onCurve (c : Curve) (x y : Nat) : Bool := y * y % c.p == (x * x * x + (c.p - 3) * x + c.b) % c.p

/-- X ‖ Y, each big-endian; the point at infinity as zeros. -/
def Curve.enc (c : Curve) (q : JPoint) : Bytes :=
  match jAffine c.p q with
  | some (x, y) => beBytes c.len x ++ beBytes c.len y
  | none => zeros (2 * c.len)

def Curve.pub (c : Curve) (d : Nat) : Bytes := c.enc (jMul c.p d c.g)

/-- A peer or verification key, with the status and subcode of R357 when it is refused. The all-zero string names the point at infinity
(log entry 20). -/
def Curve.decode (c : Curve) (b : Bytes) : Except (Nat × Nat) JPoint :=
  let x := beNat (b.take c.len)
  let y := beNat ((b.drop c.len).take c.len)
  if c.p ≤ x ∨ c.p ≤ y then .error (stOperandRange, 1)
  else if x = 0 ∧ y = 0 then .error (stPointInvalid, 2)
  else if c.onCurve x y then .ok (x, y, 1)
  else .error (stPointInvalid, 1)

/-- The leftmost bits of a hash, up to the bit length of the order (R348). -/
def Curve.hashNum (c : Curve) (h : Bytes) : Nat :=
  let k := 8 * c.len
  if k < 8 * h.length then beNat h / 2 ^ (8 * h.length - k) else beNat h

/-- ECDSA signature with per-signature value k: (r, s). -/
def Curve.sign (c : Curve) (d k : Nat) (h : Bytes) : Nat × Nat :=
  let r := match jAffine c.p (jMul c.p k c.g) with
    | some (x, _) => x % c.n
    | none => 0
  (r, modInv k c.n * ((c.hashNum h + r * d) % c.n) % c.n)

/-- The per-signature value and a private key from drawn bytes, 64 bits beyond the order, reduced (R346): 1 … n-1. -/
def Curve.scalar (c : Curve) (drawn : Bytes) : Nat := beNat drawn % (c.n - 1) + 1

def Curve.verify (c : Curve) (q : JPoint) (h : Bytes) (r s : Nat) : Bool :=
  let w := modInv s c.n
  let z := c.hashNum h
  match jAffine c.p (jAdd c.p (jMul c.p (z * w % c.n) c.g) (jMul c.p (r * w % c.n) q)) with
  | some (x, _) => x % c.n == r
  | none => false

-- X25519 --------------------------------------------------------------------------------------------------------------------

abbrev p25519 : Nat := 2 ^ 255 - 19

/-- One ladder step: (x2, z2, x3, z3) for bit `k`. -/
def x25519Step (x1 : Nat) (k : Bool) (st : Nat × Nat × Nat × Nat) : Nat × Nat × Nat × Nat :=
  let p := p25519
  let (x2, z2, x3, z3) := st
  let (x2, x3, z2, z3) := if k then (x3, x2, z3, z2) else (x2, x3, z2, z3)
  let a := (x2 + z2) % p
  let aa := a * a % p
  let b := modSub x2 z2 p
  let bb := b * b % p
  let e := modSub aa bb p
  let da := modSub x3 z3 p * a % p
  let cb := (x3 + z3) * b % p
  let x3' := (da + cb) * (da + cb) % p
  let d := modSub da cb p
  let z3' := x1 * (d * d % p) % p
  let x2' := aa * bb % p
  let z2' := e * (aa + 121665 * e) % p
  if k then (x3', z3', x2', z2') else (x2', z2', x3', z3')

def x25519F (x1 k : Nat) : Nat → Nat × Nat × Nat × Nat → Nat × Nat × Nat × Nat
  | 0, st => st
  | n + 1, st => x25519F x1 k n (x25519Step x1 (k.testBit n) st)

/-- Clamp a scalar (RFC 7748). -/
def clamp25519 (b : Bytes) : Nat :=
  let n := leNat (b.take 32) % 2 ^ 254
  n - n % 8 + 2 ^ 254

/-- X25519 of a scalar and a u-coordinate; bit 255 is masked and u reduced (R358). -/
def x25519 (scalar u : Bytes) : Bytes :=
  let x1 := leNat (u.take 32) % 2 ^ 255 % p25519
  let (x2, z2, _, _) := x25519F x1 (clamp25519 scalar) 255 (1, 0, x1, 1)
  leBytes 32 (x2 * modPow z2 (p25519 - 2) p25519 % p25519)

def x25519Base : Bytes := leBytes 32 9

-- Ed25519 -------------------------------------------------------------------------------------------------------------------

def edD : Nat := 37095705934669439343138083508754565189542113879843219016388785533085940283555

abbrev edL : Nat := 2 ^ 252 + 27742317777372353535851937790883648493

def edSqrtM1 : Nat := modPow 2 ((p25519 - 1) / 4) p25519

/-- Extended coordinates X, Y, Z, T. -/
abbrev EPoint := Nat × Nat × Nat × Nat

def edAdd (a b : EPoint) : EPoint :=
  let p := p25519
  let (x1, y1, z1, t1) := a
  let (x2, y2, z2, t2) := b
  let aa := modSub y1 x1 p * modSub y2 x2 p % p
  let bb := (y1 + x1) * (y2 + x2) % p
  let cc := 2 * t1 * t2 * edD % p
  let dd := 2 * z1 * z2 % p
  let e := modSub bb aa p
  let f := modSub dd cc p
  let g := (dd + cc) % p
  let h := (bb + aa) % p
  (e * f % p, g * h % p, f * g % p, e * h % p)

def edMulF (k : Nat) (q : EPoint) : Nat → EPoint → EPoint
  | 0, acc => acc
  | n + 1, acc =>
    let d := edAdd acc acc
    edMulF k q n (if k.testBit n then edAdd d q else d)

def edMul (k : Nat) (q : EPoint) : EPoint := edMulF k q (k.log2 + 1) (0, 1, 1, 0)

/-- x from y and its sign bit (RFC 8032, 5.1.3). -/
def edRecoverX (y : Nat) (sign : Bool) : Option Nat :=
  let p := p25519
  if p ≤ y then none
  else
    let u := modSub (y * y) 1 p
    let v := (edD * (y * y % p) + 1) % p
    let x2 := u * modPow v (p - 2) p % p
    if x2 = 0 then (if sign then none else some 0)
    else
      let x := modPow x2 ((p + 3) / 8) p
      let x := if x * x % p = x2 then x else x * edSqrtM1 % p
      if x * x % p ≠ x2 then none else some (if x.testBit 0 == sign then x else p - x)

def edDecode (b : Bytes) : Option EPoint :=
  let n := leNat (b.take 32)
  let y := n % 2 ^ 255
  (edRecoverX y (n.testBit 255)).map (fun x => (x, y, 1, x * y % p25519))

def edEncode (q : EPoint) : Bytes :=
  let (x, y, z, _) := q
  let i := modPow z (p25519 - 2) p25519
  leBytes 32 (y * i % p25519 + if (x * i % p25519).testBit 0 then 2 ^ 255 else 0)

def edBase : EPoint :=
  let y := 4 * modPow 5 (p25519 - 2) p25519 % p25519
  match edRecoverX y false with
  | some x => (x, y, 1, x * y % p25519)
  | none => (0, 1, 1, 0)

/-- The dom2 string of Ed25519ph with an empty context; empty for Ed25519. -/
def edDom (ph : Bool) : Bytes := if ph then ascii "SigEd25519 no Ed25519 collisions" ++ [1, 0] else []

/-- The secret scalar and hash prefix of a seed. -/
def edSecret (seed : Bytes) : Nat × Bytes :=
  let h := sha512 seed
  (clamp25519 (h.take 32), h.drop 32)

def edPublic (seed : Bytes) : Bytes := edEncode (edMul (edSecret seed).1 edBase)

def edSign (ph : Bool) (seed msg : Bytes) : Bytes :=
  let (a, pre) := edSecret seed
  let pub := edEncode (edMul a edBase)
  let r := leNat (sha512 (edDom ph ++ pre ++ msg)) % edL
  let rp := edEncode (edMul r edBase)
  let k := leNat (sha512 (edDom ph ++ rp ++ pub ++ msg)) % edL
  rp ++ leBytes 32 ((r + k * a) % edL)

/-- Points equal as points. -/
def edEq (a b : EPoint) : Bool :=
  let (x1, y1, z1, _) := a
  let (x2, y2, z2, _) := b
  x1 * z2 % p25519 == x2 * z1 % p25519 && y1 * z2 % p25519 == y2 * z1 % p25519

/-- Status and subcode of a verification (R357): 0 for a signature that verifies. The cofactored equation of RFC 8032. -/
def edVerify (ph : Bool) (pub msg sig : Bytes) : Nat × Nat :=
  match edDecode pub with
  | none => (stPointInvalid, 4)
  | some a =>
    let s := leNat ((sig.drop 32).take 32)
    match edDecode (sig.take 32) with
    | none => (stAuthFail, 0x11)
    | some r =>
      if edL ≤ s then (stAuthFail, 0x11)
      else
        let k := leNat (sha512 (edDom ph ++ sig.take 32 ++ pub ++ msg)) % edL
        if edEq (edMul 8 (edMul s edBase)) (edMul 8 (edAdd r (edMul k a))) then (0, 0) else (stAuthFail, 0x10)

end Sys2Proof.Machine
end

