-- ==== Sys2Proof/Config.lean ====
section
/-! DEFINITION. The free values of the model: constants without a body, for what the manual leaves to Lastiward's images and ROM or does
not fix. Nothing can be proved of their values; the log entry named beside each says where it is used. -/

namespace Sys2Proof.Config

/-- The Lastiward ECDSA P-384 public key in the boot ROM, X then Y (R120 gives no value). Log entry 8. -/
opaque lastiwardP384 : Bytes

/-- The Lastiward ML-DSA-87 public key in the boot ROM (R120 gives no value). Log entry 8. -/
opaque lastiwardMldsa87 : Bytes

/-- The default parser graph an SMF image carries (R431 describes it and gives no encoding), as the eight words of each node, for the
SMF version running. Log entry 9. -/
opaque defaultGraph : Nat → List (Nat × Nat)

/-- A value the manual leaves open, by the number of free values taken before it (State.freeCount). Log entry 10. -/
opaque free : Nat → Nat

/-- The rate, in round slots per microsecond, at which the estimates of R213 take a bay that completed no slot in the last epoch: R214 measures 0, and
R213 divides by it. Log entry 33. -/
opaque idleRate : Nat → Nat

/-- What stage time reads once the count of R458 has run past its 64 bits, by the count it would be. Log entry 123. -/
opaque stagePast : Nat → Nat

/-- Bytes of blinding values that a job of an opcode draws beside those of its result, for both datapaths (R325, R336, R351 name the values
and not all of their lengths). Log entry 47. -/
opaque blindBytes : Nat → Nat

/-- Packets that the output buffers of the packet front hold before PKT_INn_READY falls (R77 gives no size). Log entry 83. -/
opaque pktRoom : Nat

end Sys2Proof.Config
end

