-- ==== Sys2Proof/Machine/Ops.lean ====
section
/-! DEFINITION. Named operations over the state that every family uses: tables of seats, rings, bays, wings, engines and sources; stage
time; prompts (R74, R194); alarms (R524 to R532); reset and power conditions; who may access a register (R62, R63). -/

namespace Sys2Proof.Machine

-- Tables --------------------------------------------------------------------------------------------------------------------

def State.seat (s : State) (i : Nat) : Seat := tabGet {} s.seats i

def State.setSeat (s : State) (i : Nat) (v : Seat) : State := { s with seats := tabSet {} s.seats i v }

def State.modSeat (s : State) (i : Nat) (f : Seat → Seat) : State := s.setSeat i (f (s.seat i))

def ringKey (seat slot : Nat) : Nat := seat * 16 + slot

def State.ring (s : State) (seat slot : Nat) : Ring := tabGet {} s.rings (ringKey seat slot)

def State.setRing (s : State) (seat slot : Nat) (v : Ring) : State := { s with rings := tabSet {} s.rings (ringKey seat slot) v }

def State.modRing (s : State) (seat slot : Nat) (f : Ring → Ring) : State := s.setRing seat slot (f (s.ring seat slot))

def State.bay (s : State) (b : Nat) : Bay := tabGet {} s.place.bays b

def State.modBay (s : State) (b : Nat) (f : Bay → Bay) : State :=
  { s with place := { s.place with bays := tabSet {} s.place.bays b (f (s.bay b)) } }

def State.wing (s : State) (w : Nat) : Wing := tabGet {} s.place.wings w

def State.modWing (s : State) (w : Nat) (f : Wing → Wing) : State :=
  { s with place := { s.place with wings := tabSet {} s.place.wings w (f (s.wing w)) } }

def State.engine (s : State) (w : Nat) : Engine := tabGet {} s.engines.eng w

def State.modEngine (s : State) (w : Nat) (f : Engine → Engine) : State :=
  { s with engines := { s.engines with eng := tabSet {} s.engines.eng w (f (s.engine w)) } }

def State.source (s : State) (i : Nat) : Source := tabGet {} s.entropy.sources i

def State.modSource (s : State) (i : Nat) (f : Source → Source) : State :=
  { s with entropy := { s.entropy with sources := tabSet {} s.entropy.sources i (f (s.source i)) } }

def State.inst (s : State) (i : Nat) : Drbg := tabGet {} s.entropy.inst i

def State.modInst (s : State) (i : Nat) (f : Drbg → Drbg) : State :=
  { s with entropy := { s.entropy with inst := tabSet {} s.entropy.inst i (f (s.inst i)) } }

/-- Seats with an entry beside seat 0, in number order. -/
def State.liveSeats (s : State) : List Nat := 0 :: (s.seats.map (·.1)).filter (· ≠ 0)

-- Jobs ----------------------------------------------------------------------------------------------------------------------

def State.job? (s : State) (id : Nat) : Option Job := s.jobs.find? (fun j => j.id == id)

def State.modJob (s : State) (id : Nat) (f : Job → Job) : State :=
  { s with jobs := s.jobs.map (fun j => if j.id == id then f j else j) }

def State.dropJob (s : State) (id : Nat) : State := { s with jobs := s.jobs.filter (fun j => !(j.id == id)) }

-- Time ----------------------------------------------------------------------------------------------------------------------

/-- Stage time (R458) in units of 2^-16 ns: a count of 64 bits and a fraction of 16. What it reads once it has run past its top is a free value (DESIGN CHOICE, log
entry 123). -/
def State.stamp (s : State) : Stamp :=
  let n := ((s.time.mono : Int) + s.time.offset).toNat
  if n < 2 ^ 80 then n else Config.stagePast n % 2 ^ 80

/-- Stage time in whole nanoseconds. -/
def State.now (s : State) : Nat := s.stamp / nsUnit

/-- Unstepped time, in which pending instants are held (R463). -/
def State.mono (s : State) : Stamp := s.time.mono

/-- Unstepped instant `n` ns after now. -/
def State.after (s : State) (n : Nat) : Stamp := s.time.mono + n * nsUnit

/-- Unstepped instant of the deadline `n` ns after now: a deadline is a stage-time instant with fraction zero (R472), so the fraction of now is left out. -/
def State.deadlineAt (s : State) (n : Nat) : Stamp := s.time.mono - s.stamp % nsUnit + n * nsUnit

/-- Secure time in whole seconds (R469). -/
def State.secs (s : State) : Nat := s.time.secure / 1000000000

/-- The pending instant `t` is strictly earlier than now (R472: the wait has timed out). -/
def State.past (s : State) (t : Stamp) : Bool := decide (t < s.time.mono)

/-- The pending instant `t` has come. -/
def State.due (s : State) (t : Stamp) : Bool := decide (t ≤ s.time.mono)

-- Resets --------------------------------------------------------------------------------------------------------------------

/-- BLKRST_N and PORST_N are both high, VAON is good, and one of the two resets has been released since it returned: the core is out of reset. -/
def State.up (s : State) : Bool := !s.start.porst && !s.start.blkrst && !s.start.vaonBad && !s.start.cold

/-- The block serves jobs: READY or safe stage (R115). -/
def State.serving (s : State) : Bool := s.up && (s.start.state == 3 || s.start.state == 4)

def State.ready (s : State) : Bool := s.up && s.start.state == 3

-- Scheduling epochs ---------------------------------------------------------------------------------------------------------

def Seat.words (t : Seat) : EpochWords := { shareW := t.shareW, shareJ := t.shareJ, shareK := t.shareK, strg := t.strg, admitW := t.admitW }

/-- The written values that take effect at a boundary, as they stand (R144, R234, R332, R360, R454). -/
def epochWords (s : State) : Latch :=
  { seats := s.seats.map (fun p => (p.1, p.2.words)), place := s.place.set, floor := s.engines.floor }

/-- A write at the stamp of a boundary takes effect at the following one (R548): what was written before is kept for the boundary that has come. -/
def latchEpoch (s : State) : State :=
  if s.place.latch.isNone && s.due s.time.epochDue then { s with place := { s.place with latch := some (epochWords s) } } else s

-- Prompts -------------------------------------------------------------------------------------------------------------------

/-- Present a prompt; one already waiting for the same function and entry takes it in (R74). -/
def raise (s : State) (fn vec : Nat) : State :=
  if s.prompts.contains ⟨fn, vec⟩ then s else { s with prompts := s.prompts ++ [⟨fn, vec⟩] }

/-- Raise manager vector `m` (R194): function 0, entry m. -/
def vector (s : State) (m : Nat) : State := raise s 0 m

-- Alarms --------------------------------------------------------------------------------------------------------------------

/-- Write one log entry (R536): 64 entries, TOTAL wraps at 24 bits. -/
def almLog (s : State) (cause cls d0 d1 : Nat) : State :=
  let a := s.alarms
  { s with alarms := { a with
      log := tabPut a.log (a.total % 64) ⟨cause, cls, w32 d0, w32 d1, s.now⟩
      total := (a.total + 1) % 2 ^ 24 } }

/-- A class C alarm (R532): one log entry, one count, vector 0 unless its cause is masked. -/
def alarmC (s : State) (cause d0 d1 : Nat) : State :=
  let s := almLog s cause 3 d0 d1
  let s := { s with alarms := { s.alarms with cntC := wrapInc 32 s.alarms.cntC } }
  if s.alarms.maskC.toNat.testBit (cause - 0x40) then s else vector s 0

/-- A write that a rule ignores "with a class C alarm naming the register" (R524, cause REG_REFUSED). -/
def refuse (s : State) (off : Nat) (value : W32) : State := alarmC s 0x46 off value.toNat

/-- An access that R62 does not permit (R63): class C alarm ACCESS with the offset, the write flag and HREG_SRC. -/
def accessAlarm (s : State) (src off : Nat) (write : Bool) : State := alarmC s 0x40 off (flag write 11 + src % 2048)

/-- Whether R62 permits an access. `src` is HREG_SRC[10:0]; offsets are 24 bits. -/
def permitted (src off : Nat) (write : Bool) : Bool :=
  src.testBit 10 || (decide (off < 8) && !write)
    || (decide (0x400000 ≤ off) && decide (off < 0x800000) && decide (0 < off / 0x1000 % 0x400)
        && off / 0x1000 % 0x400 == src % 1024)

/-- HREG_SRC of the physical function. -/
abbrev mgr : Nat := 0x400

/-- HOSTREG moves transfers: no reset is low (R65), and HCLK is not lost (R59: a transfer stalls, and its command comes when the clock is back). -/
def State.hostOpen (s : State) : Bool := s.up && !s.mem.stalled.contains .hclk

/-- An access that HOSTREG accepts as a write of `value` at `off` by `src`: nothing while a reset is low (R65) or HCLK is lost (R59); nothing in
HALTED outside the mailbox (R116, R545); an alarm when R62 does not permit it; nothing at the idle ranges in safe stage (R545); else the effect
`f`. -/
def hreg (s : State) (src off : Nat) (write : Bool) (f : State → State) : State :=
  if !s.hostOpen then s
  else if s.start.state == 5 && !(decide (off < 8) || (decide (0x10000 ≤ off) && decide (off < 0x11000))) then s
  else if !permitted src off write then accessAlarm s src off write
  else if s.start.state == 4 && (off / 0x10000 == 3 || off / 0x10000 == 6 || off / 0x10000 == 7 || off / 0x10000 == 9) then s
  else f s

/-- The same for a register of the manager, written by the physical function. -/
def mgrWrite (s : State) (off : Nat) (f : State → State) : State := hreg s mgr off true f

/-- The value a register read returns. -/
def readBack (s : State) (v : Nat) : State := { s with seatRegs := { s.seatRegs with readData := w32 v } }

/-- The manager's read of a register with an effect of its own: `f` where HOSTREG serves it; else it returns what R65, R116 and R545 give, zero, or in an idle range
of safe stage the register's reset value `idle`; while HCLK is lost it stalls (R59). -/
def hregRead (s : State) (off idle : Nat) (f : State → State) : State :=
  if s.mem.stalled.contains .hclk then s
  else if !s.up || s.start.state == 5 && !(decide (off < 8) || (decide (0x10000 ≤ off) && decide (off < 0x11000))) then readBack s 0
  else if s.start.state == 4 && (off / 0x10000 == 3 || off / 0x10000 == 6 || off / 0x10000 == 7 || off / 0x10000 == 9) then readBack s idle
  else f s

-- Outcomes of a meaning -----------------------------------------------------------------------------------------------------

abbrev Out := Host.Outcome State Fault Refusal

/-- A next state. -/
def ok (s : State) : Out := .next s

/-- The effect `f` when `c` holds; otherwise nothing happens (log entry 2). -/
def whenDo (c : Bool) (s : State) (f : State → State) : State := if c then f s else s

end Sys2Proof.Machine
end

