-- ==== Sys2Proof/Machine/Mem.lean ====
section
/-! DEFINITION. The memory ports and the translation unit (chapters 2 and 4): requests, tags, walks, the translation cache. What an answered
or faulting request means to its owner is in MemEvents.lean and Finish.lean. -/

namespace Sys2Proof.Machine

-- Requests ------------------------------------------------------------------------------------------------------------------

/-- Cut a byte range at 4 KiB boundaries (R66): pieces (address, length); fuel bounds their number. -/
def pagesF : Nat → Nat → Nat → List (Nat × Nat)
  | 0, _, _ => []
  | f + 1, a, n => if n = 0 then [] else
      let k := min n (4096 - a % 4096)
      (a, k) :: pagesF f (a + k) (n - k)

def pages (a n : Nat) : List (Nat × Nat) := pagesF (n / 4096 + 2) a n

/-- Cut bytes as `pages` cuts their range: (address, bytes). -/
def pageBytesF : Nat → Nat → Bytes → List (Nat × Bytes)
  | 0, _, _ => []
  | f + 1, a, b => if b.isEmpty then [] else
      let k := 4096 - a % 4096
      (a, b.take k) :: pageBytesF f (a + k) (b.drop k)

def pageBytes (a : Nat) (b : Bytes) : List (Nat × Bytes) := pageBytesF (b.length / 4096 + 2) a b

/-- Add an access at the end of the list of requests. -/
def addAccess (s : State) (f : Nat → Access) : State :=
  { s with mem := { s.mem with accesses := s.mem.accesses ++ [f s.mem.nextId], nextId := s.mem.nextId + 1 } }

/-- A read of `len` bytes at `va` (within one page) under the tables of `seat`. -/
def addRead (s : State) (o : Owner) (seat va len attr : Nat) : State :=
  addAccess s (fun i => { id := i, owner := o, seat := seat, va := va, len := len, attr := attr })

/-- A write of bytes at `va` (within one page). -/
def addWrite (s : State) (o : Owner) (seat va : Nat) (data : Bytes) (attr : Nat) : State :=
  addAccess s (fun i => { id := i, owner := o, seat := seat, va := va, len := data.length, write := true, attr := attr, data := data })

/-- Writes of a byte string at consecutive addresses, page by page. -/
def addWrites (s : State) (o : Owner) (seat va : Nat) (data : Bytes) (attr : Nat) : State :=
  (pageBytes va data).foldl (fun s p => addWrite s o seat p.1 p.2 attr) s

-- Peer table buckets ---------------------------------------------------------------------------------------------------------

/-- Base and seeds of a table: 0 current, 1 the rehash target. -/
def peerBaseOf (s : State) (t : Nat) : Nat := if t = 0 then s.front.peerBase else s.front.rehBase

def peerAddr (s : State) (t b : Nat) : Nat := peerBaseOf s t + 128 * b

def peerIx (t b : Nat) : Nat := t * 65536 + b

/-- A bucket known on the block. -/
def bucket? (s : State) (t b : Nat) : Option Bytes := (s.front.peers.find? (fun p => p.1 == peerIx t b)).map (·.2)

/-- The request is a read of the peer table for a lookup. -/
def isLookup (o : Owner) : Bool :=
  match o with
  | .jobRead _ k _ => k.kind == .peer
  | _ => false

/-- The request reads bucket `b` of table `t`. -/
def readsBucket (t b : Nat) (o : Owner) : Bool :=
  match o with
  | .jobRead _ k _ => k.kind == .peer && k.a == t && k.b == b
  | .peerRead x y => x == t && y == b
  | _ => false

/-- Addresses that the peer unit has still to write. -/
def peerWrites (s : State) : List Nat :=
  (s.mem.accesses.filterMap (fun a => match a.owner with
    | .chain _ rest => some (a.va :: rest.map (·.1))
    | _ => none)).flatten
    ++ (s.front.peerQ.map (fun a => a.writes.map (·.1))).flatten ++ (match s.front.peerHold with
    | some (a, _) => a.writes.map (·.1)
    | none => [])

/-- A bucket that is being read, written or visited stays on the block. -/
def bucketBusy (s : State) (i : Nat) : Bool :=
  let t := i / 65536
  let b := i % 65536
  let at_ := peerAddr s t b
  s.mem.accesses.any (fun a => readsBucket t b a.owner) || (t == 0 && s.front.visits.contains b)
    || (peerWrites s).any (fun va => decide (at_ ≤ va) && decide (va < at_ + 128))

/-- Keep a bucket, most recently used; 2,048 buckets hold the 8,192 entries, and the least recently used of those at rest leaves. -/
def keepBucket (s : State) (t b : Nat) (v : Bytes) : State :=
  let l := (peerIx t b, v) :: s.front.peers.filter (fun p => p.1 != peerIx t b)
  let l := if l.length ≤ 2048 then l else
    match (l.drop 1).reverse.find? (fun p => !bucketBusy s p.1) with
    | some x => l.filter (fun p => p.1 != x.1)
    | none => l.take 2048
  { s with front := { s.front with peers := l } }

/-- A bucket that has been read; what the block knows of it already is as new or newer. -/
def gotBucket (s : State) (t b : Nat) (v : Bytes) : State := if (bucket? s t b).isSome then s else keepBucket s t b v

-- Requests -------------------------------------------------------------------------------------------------------------------

def State.access? (s : State) (id : Nat) : Option Access := s.mem.accesses.find? (fun a => a.id == id)

def State.modAccess (s : State) (id : Nat) (f : Access → Access) : State :=
  { s with mem := { s.mem with accesses := s.mem.accesses.map (fun a => if a.id == id then f a else a) } }

/-- The job a request was made for (R71). -/
def Owner.job (o : Owner) : Option Nat :=
  match o with
  | .jobRead j _ _ => some j
  | .jobWrite j _ => some j
  | .spill j => some j
  | .writeBack j => j
  | .exception j => j
  | .chain j _ => j
  | _ => none

/-- The same, kept when the request has been given up. -/
def Access.job (a : Access) : Option Nat := (a.maker).or a.owner.job

/-- A request whose owner changes remembers the job it was made for (R71). -/
def Access.owned (a : Access) (o : Owner) : Access := { a with owner := o, maker := a.job }

/-- Receive and discard what is still to come of a request: its owner is gone (R71), and `quiet` says that its job has reported a fault. -/
def Access.discarded (a : Access) (quiet : Bool) : Access := { a.owned .orphan with quiet := a.quiet || quiet }

def State.dropAccess (s : State) (id : Nat) : State :=
  { s with mem := { s.mem with accesses := s.mem.accesses.filter (fun a => !(a.id == id)) } }

-- Tags ----------------------------------------------------------------------------------------------------------------------

/-- The port and tag a request is out on. -/
def Access.on (a : Access) : Option (Nat × Nat) :=
  match a.st with
  | .walkOut _ _ p t => some (p, t)
  | .out _ p t => some (p, t)
  | _ => none

/-- Issued to a memory port and not yet answered. -/
def Access.issued (a : Access) : Bool := a.on.isSome

/-- MEM0 to MEM3 by address bits [13:12] (R66). -/
def portOf (phys : Nat) : Nat := phys / 4096 % 4

def clkOf (port : Nat) : ClkPort :=
  match port with
  | 0 => .mclk0
  | 1 => .mclk1
  | 2 => .mclk2
  | _ => .mclk3

/-- The clock of a memory port is lost: nothing crosses it, in or out, until it returns (R59). -/
def portStalled (s : State) (port : Nat) : Bool := s.mem.stalled.contains (clkOf port)

/-- The lowest of the 512 tags of a port that no request waits on (R67; log entry 12), unless its clock is lost (R59). -/
def freeTag (s : State) (port : Nat) : Option Nat :=
  if portStalled s port then none
  else (List.range 512).find? (fun t => s.mem.accesses.all (fun a => !(a.on == some (port, t))))

-- Translation ---------------------------------------------------------------------------------------------------------------

/-- TRANSLATION_FAULT subcodes of R137. -/
abbrev tfInvalid : Nat := 0x01
abbrev tfRead : Nat := 0x02
abbrev tfWrite : Nat := 0x03
abbrev tfHigh : Nat := 0x04
abbrev tfFormat : Nat := 0x05
abbrev tfRspErr : Nat := 0x10
abbrev tfWalkErr : Nat := 0x11

/-- The cached translation of an address under a seat's tables. -/
def tlbFind (s : State) (seat va : Nat) : Option TlbEntry :=
  s.mem.tlb.find? (fun e => e.seat == seat && e.page == va / 2 ^ e.log2 && decide (va < 2 ^ 48))

/-- Permission of a leaf for an access (R137). -/
def permFault (r w write : Bool) : Option Nat :=
  if write then (if w then none else some tfWrite) else (if r then none else some tfRead)

/-- Cache a translation: 8,192 entries, the oldest evicted (R140, log entry 12). -/
def tlbAdd (s : State) (e : TlbEntry) : State := { s with mem := { s.mem with tlb := (e :: s.mem.tlb).take 8192 } }

/-- Index of a walk level (R136): bits [47:39], [38:30], [29:21], [20:12]. -/
def walkIndex (level va : Nat) : Nat := va / 2 ^ (39 - 9 * level) % 512

/-- Byte address of the entry a walk reads. -/
def walkAddr (level table va : Nat) : Nat := table + 8 * walkIndex level va

/-- Bits of address inside a leaf of a level. -/
def leafLog2 (level : Nat) : Nat := 39 - 9 * level

/-- What one table entry gives (R136, R137): a fault, the next table, or a leaf (base, R, W). -/
inductive WalkStep where
  | fault (sub : Nat)
  | table (addr : Nat)
  | leaf (base : Nat) (r w : Bool)
  deriving DecidableEq, Repr

def walkEntry (level e : Nat) : WalkStep :=
  let addr := e / 4096 * 4096
  let leaf := e.testBit 3
  if !e.testBit 0 then .fault tfInvalid
  else if bits e 11 4 ≠ 0 then .fault tfFormat
  else if leaf && level == 0 then .fault tfFormat
  else if !leaf && level == 3 then .fault tfFormat
  else if leaf then
    if addr % 2 ^ leafLog2 level ≠ 0 then .fault tfFormat else .leaf addr (e.testBit 1) (e.testBit 2)
  else .table addr

/-- Issue a request at a physical address: its state on the tag taken, or `none` while the port has no tag or no clock. -/
def onPort (s : State) (phys : Nat) (f : Nat → Nat → AccSt) : Option AccSt :=
  (freeTag s (portOf phys)).map (fun t => f (portOf phys) t)

/-- Start or go on with one access: translate it (R135 to R138), then issue it. The second component is the fault it met. -/
def memTry (s : State) (a : Access) : State × Option Nat :=
  match a.st with
  | .waiting =>
    if a.boot then
      match onPort s a.va (AccSt.out a.va) with
      | some st => (s.modAccess a.id (fun a => { a with st := st, at_ := s.mono }), none)
      | none => (s, none)
    else if 2 ^ 48 ≤ a.va then (s, some tfHigh)
    else
      match tlbFind s a.seat a.va with
      | some e =>
        match permFault e.r e.w a.write with
        | some c => (s, some c)
        | none =>
          let phys := e.base + a.va % 2 ^ e.log2
          match onPort s phys (AccSt.out phys) with
          | some st => (s.modAccess a.id (fun a => { a with st := st, at_ := s.mono }), none)
          | none => (s, none)
      | none =>
        let root := (s.seat a.seat).act.root
        match onPort s (walkAddr 0 root a.va) (AccSt.walkOut 0 root) with
        | some st => (s.modAccess a.id (fun a => { a with st := st }), none)
        | none => (s.modAccess a.id (fun a => { a with st := .walk 0 root }), none)
  | .walk l t =>
    match onPort s (walkAddr l t a.va) (AccSt.walkOut l t) with
    | some st => (s.modAccess a.id (fun a => { a with st := st }), none)
    | none => (s, none)
  | .ready phys =>
    match onPort s phys (AccSt.out phys) with
    | some st => (s.modAccess a.id (fun a => { a with st := st, at_ := s.mono }), none)
    | none => (s, none)
  | _ => (s, none)

/-- The access that an answer on a port and tag belongs to. -/
def answered (s : State) (port tag : Nat) : Option Access := s.mem.accesses.find? (fun a => a.on == some (port, tag))

/-- A walk read is answered with `beat` (R136 to R138): the entry is judged, a leaf is cached, and the access goes on. -/
def walkAnswer (s : State) (a : Access) (level table : Nat) (beat : Bytes) : State × Option Nat :=
  let e := fieldLE beat (walkAddr level table a.va % 128) 8
  match walkEntry level e with
  | .fault c => (s, some c)
  | .table t => (s.modAccess a.id (fun a => { a with st := .walk (level + 1) t }), none)
  | .leaf base r w =>
    let l := leafLog2 level
    let s := tlbAdd s { seat := a.seat, page := a.va / 2 ^ l, base := base, r := r, w := w, log2 := l }
    match permFault r w a.write with
    | some c => (s, some c)
    | none => (s.modAccess a.id (fun a => { a with st := .ready (base + a.va % 2 ^ l) }), none)

-- Invalidation --------------------------------------------------------------------------------------------------------------

/-- Whether a SEAT_ATU_INV word (R167) covers a cached entry. -/
def invCovers (word addr : Nat) (e : TlbEntry) : Bool :=
  match bits word 31 30 with
  | 0 => true
  | 1 => e.seat == bits word 9 0
  | _ => e.seat == bits word 9 0 && decide (e.page * 2 ^ e.log2 < addr + 4096 * bits word 29 16) && decide (addr < (e.page + 1) * 2 ^ e.log2)

/-- Drop the cached translations a word covers; accesses translated and not yet issued are translated again. -/
def tlbDrop (s : State) (p : TlbEntry → Bool) : State :=
  { s with mem := { s.mem with
      tlb := s.mem.tlb.filter (fun e => !p e)
      accesses := s.mem.accesses.map (fun a => match a.st with | .ready _ => if a.boot then a else { a with st := .waiting } | _ => a) } }

/-- Drop every cached translation of a seat (RESTART with a new root, RESET step 3). -/
def tlbDropSeat (s : State) (seat : Nat) : State := tlbDrop s (fun e => e.seat == seat)

end Sys2Proof.Machine
end

