-- ==== Sys2Proof/Machine/Operands.lean ====
section
/-! DEFINITION. Every operand form of a command packet: body fields, buffer descriptors and gather lists (R178 to R181, R292), the reads a job
makes and the bytes it has (R68), and the writes it spreads over a destination. -/

namespace Sys2Proof.Machine

-- Body fields ---------------------------------------------------------------------------------------------------------------

/-- Little-endian field of `n` bytes at byte `off` of the first packet (body bytes begin at 16). -/
def Job.fld (j : Job) (off n : Nat) : Nat := fieldLE j.body (off - 16) n

def Job.bytesAt (j : Job) (off n : Nat) : Bytes := sliceZ j.body (off - 16) n

/-- OPFLAGS bit `b` of the header, numbered 8 to 15 as the manual numbers them. -/
def Job.opBit (j : Job) (b : Nat) : Bool := j.flags.testBit b

/-- Reserved bits of the common header that are not zero (R178). -/
def Job.hdrReserved (j : Job) : Bool := bits j.hdr1 7 4 != 0 || bits j.flags 7 4 != 0

/-- SEG (R279). -/
def Job.seg (j : Job) : Nat := bits j.flags 13 12

/-- A buffer descriptor (R181). -/
structure Desc where
  addr : Nat
  len  : Nat
  sgl  : Bool
  resv : Nat
  deriving DecidableEq, Repr

def descOf (b : Bytes) : Desc :=
  { addr := fieldLE b 0 8, len := fieldLE b 8 4, sgl := (fieldLE b 12 4).testBit 0, resv := fieldLE b 12 4 / 2 }

/-- The descriptor at byte `off` of the first packet. -/
def Job.desc (j : Job) (off : Nat) : Desc := descOf (j.bytesAt off 16)

/-- A zero descriptor. -/
def Desc.zero (d : Desc) : Bool := d.addr == 0 && d.len == 0 && !d.sgl && d.resv == 0

/-- A body descriptor that R181 refuses before any list is read. -/
def Desc.bad (d : Desc) : Bool := d.sgl && (d.len == 0 || decide (4096 < d.len) || d.addr % 16 != 0)

/-- A body descriptor that check 1 of a group refuses, where the group's check 1 names reserved bits (`strict`: R340, R359, R391, R416). -/
def Desc.refused (d : Desc) (strict : Bool) : Bool := d.bad || (strict && d.resv != 0)

-- Reads ---------------------------------------------------------------------------------------------------------------------

/-- A read of a job: what it brings, under whose tables, its pieces (address, length), REQ_ATTR. -/
structure Read where
  key    : BufKey
  seat   : Nat
  pieces : List (Nat × Nat)
  attr   : Nat := 0
  deriving DecidableEq, Repr

def Read.make (key : BufKey) (seat va len attr : Nat) : Read := { key := key, seat := seat, pieces := pages va len, attr := attr }

/-- The bytes of a piece that has come. -/
def Job.piece (j : Job) (k : BufKey) (ord : Nat) : Option Bytes :=
  (j.got.find? (fun g => g.1 == k && g.2.1 == ord)).map (·.2.2)

/-- All bytes of a read, once every piece has come. -/
def Job.all (j : Job) (r : Read) : Option Bytes :=
  ((List.range r.pieces.length).mapM (fun i => j.piece r.key i)).map List.flatten

def Job.hasRead (j : Job) (r : Read) : Bool := (j.all r).isSome

/-- The read has been issued: a piece of it is on its way or has come. -/
def readIssued (s : State) (j : Job) (r : Read) : Bool :=
  j.got.any (fun g => g.1 == r.key)
    || s.mem.accesses.any (fun a => match a.owner with | .jobRead i k _ => i == j.id && k == r.key | _ => false)

/-- Issue a read of a job that has not been issued. -/
def issueRead (s : State) (j : Job) (r : Read) : State :=
  if readIssued s j r then s
  else ((List.range r.pieces.length).zip r.pieces).foldl (fun s p => addRead s (.jobRead j.id r.key p.1) r.seat p.2.1 p.2.2 r.attr) s

/-- Issue every read of a list that has not been issued. -/
def issueReads (s : State) (j : Job) (rs : List Read) : State := rs.foldl (fun s r => issueRead s j r) s

-- Gather lists --------------------------------------------------------------------------------------------------------------

def listKey (off : Nat) : BufKey := { kind := .list, a := off }

/-- The read of the gather list of the descriptor at `off`. -/
def Job.listRead (j : Job) (off : Nat) : Read := Read.make (listKey off) j.seat (j.desc off).addr (16 * (j.desc off).len) 0

/-- The reads of all gather lists among descriptors. -/
def Job.listReads (j : Job) (offs : List Nat) : List Read := (offs.filter (fun o => (j.desc o).sgl)).map j.listRead

/-- Entries of a list as (address, length), entries of length 0 skipped. -/
def listEntries (b : Bytes) : List (Nat × Nat) :=
  ((chunks 16 b).map (fun c => (fieldLE c 0 8, fieldLE c 8 4))).filter (fun e => decide (0 < e.2))

/-- The buffer a descriptor names as (address, length) runs; empty while its list has not come. -/
def Job.runs (j : Job) (off : Nat) : List (Nat × Nat) :=
  let d := j.desc off
  if d.sgl then listEntries ((j.all (j.listRead off)).getD []) else if d.len = 0 then [] else [(d.addr, d.len)]

/-- Available length (R292). -/
def Job.avail (j : Job) (off : Nat) : Nat := ((j.runs off).map (·.2)).foldl (· + ·) 0

/-- A list whose joined length exceeds 2^32 − 1 bytes (R181). -/
def Job.tooLong (j : Job) (off : Nat) : Bool := (j.desc off).sgl && decide (2 ^ 32 - 1 < j.avail off)

/-- The runs of bytes `[off, off + n)` of joined runs. -/
def cutRuns : List (Nat × Nat) → Nat → Nat → List (Nat × Nat)
  | [], _, _ => []
  | (a, l) :: t, off, n =>
    if n = 0 then []
    else if l ≤ off then cutRuns t (off - l) n
    else
      let k := min n (l - off)
      (a + off, k) :: cutRuns t 0 (n - k)

/-- The read of bytes `[off, off + n)` of the buffer at body offset `d`. -/
def Job.dataRead (j : Job) (d off n : Nat) : Read :=
  { key := { kind := .data, a := d, b := off }, seat := j.seat
    pieces := ((cutRuns (j.runs d) off n).map (fun r => pages r.1 r.2)).flatten }

/-- The same bytes read again, as an AES-GCM-SIV seal does in its second pass (R252). -/
def Job.dataAgain (j : Job) (d off n : Nat) : Read :=
  let r := j.dataRead d off n
  { r with key := { r.key with b := off + 2 ^ 32 } }

/-- Source bytes of the segment or operands in progress that have come; those read again do not count anew (R239). -/
def Job.dataIn (j : Job) : Nat :=
  ((j.got.filter (fun g => g.1.kind == .data && decide (g.1.b < 2 ^ 32))).map (fun g => g.2.2.length)).foldl (· + ·) 0

/-- Source bytes a job has read so far: those consumed, and those of the segment in progress. -/
def Job.seen (j : Job) : Nat := j.inDone + j.dataIn

/-- The bytes of such a read. -/
def Job.dataOf (j : Job) (d off n : Nat) : Bytes := (j.all (j.dataRead d off n)).getD []

-- Writes --------------------------------------------------------------------------------------------------------------------

/-- Lay bytes over runs: (address, bytes). -/
def spread : List (Nat × Nat) → Bytes → List (Nat × Bytes)
  | [], _ => []
  | (a, l) :: t, b => if b.isEmpty then [] else (a, b.take l) :: spread t (b.drop l)

/-- Data writes of a job, of one kind, at bytes `off` on of the buffer at body offset `d`; they are its commit point (R154, R197). -/
def writeAs (s : State) (j : Job) (k : WKind) (d off : Nat) (data : Bytes) : State :=
  let s := (spread (cutRuns (j.runs d) off data.length) data).foldl (fun s w => addWrites s (.jobWrite j.id k) j.seat w.1 w.2 0) s
  if data.isEmpty then s else s.modJob j.id (fun j => { j with committed := true })

/-- Output bytes of a job. -/
def writeBuf (s : State) (j : Job) (d off : Nat) (data : Bytes) : State := writeAs s j .data d off data

/-- A data write of a job at a seat address, as a context record, key table entry or association entry is written. -/
def writeAt (s : State) (j : Job) (seat va : Nat) (data : Bytes) (attr : Nat) : State :=
  (addWrites s (.jobWrite j.id .side) seat va data attr).modJob j.id (fun j => { j with committed := true })

end Sys2Proof.Machine
end

