-- ==== Sys2Proof/Machine/RelayBase.lean ====
section
/-! DEFINITION. Sending on the relay ring (R475 to R477, R485): hops, credits, routes over the MAP, and the pair keys. A message is held by
its kind and contents, and as the flits that leave; of one that comes, the encryption under the hop key shows as its SEQ and the verdict of its tag (log entry 30). -/

namespace Sys2Proof.Machine

def State.hop (s : State) (sd : Side) : RHop :=
  match sd with
  | .east => s.relay.east
  | .west => s.relay.west

def State.modHop (s : State) (sd : Side) (f : RHop → RHop) : State :=
  match sd with
  | .east => { s with relay := { s.relay with east := f s.relay.east } }
  | .west => { s with relay := { s.relay with west := f s.relay.west } }

def other (sd : Side) : Side :=
  match sd with
  | .east => .west
  | .west => .east

/-- A hop without keys, its link as it is (R489, R527): of its queue a message of which flits have left is sent to its end, and an ALARM that waits still goes,
sealed before the erasure; the rest goes. -/
def RHop.unkeyed (h : RHop) : RHop :=
  { h with keyed := false, sendKey := [], recvKey := [], newKeys := [], confirming := false, oldPhase := none, xPriv := [], kemDk := [], hello := []
           probed := false, digest := []
           queue := (h.queue.take (if h.txLeft = 0 then 0 else 1)) ++ (h.queue.drop (if h.txLeft = 0 then 0 else 1)).filter (fun m => m.msg matches .alarm _) }

-- Sizes ---------------------------------------------------------------------------------------------------------------------

/-- Payload bytes of a message; lengths the manual does not state are the model's (log entry 31). -/
def rmsgLen (m : RMsg) : Nat :=
  match m with
  | .hello _ _ _ => 32 + 1184 + 1
  | .reply _ _ _ => 32 + 1088 + 32
  | .confirm _ => 32
  | .echo => 8
  | .probe _ _ _ => 4
  | .elect _ => 8
  | .number _ => 1
  | .map es => 2 * es.length
  | .join isAnswer _ _ rk => if isAnswer then 2 + rk.length else 1
  | .adv _ _ _ => 80
  | .job j => 16 + j.body.length + (j.operands.map List.length).foldl (· + ·) 0 + j.key.length
  | .done d => 32 + (d.outputs.map List.length).foldl (· + ·) 0 + d.keyOut.length
  | .cancel ts => 4 * ts.length
  | .alarm _ => 1
  | .break_ _ => 2
  | .time _ => 10
  | .mail _ _ p _ => 8 + p.length

/-- KIND of a message (R477); the echoes of R478 have none in the table and take 0 (log entry 31). -/
def rmsgKind (m : RMsg) : Nat :=
  match m with
  | .probe _ _ _ => 0x01
  | .elect _ => 0x02
  | .number _ => 0x03
  | .map _ => 0x04
  | .join _ _ _ _ => 0x05
  | .adv _ _ _ => 0x06
  | .job _ => 0x07
  | .done _ => 0x08
  | .cancel _ => 0x09
  | .alarm _ => 0x0A
  | .time _ => 0x0B
  | .mail _ _ _ _ => 0x0C
  | .break_ _ => 0x0D
  | .echo => 0
  | .hello _ _ _ => 0
  | .reply _ _ _ => 0
  | .confirm _ => 0

/-- Payload of a message; forms the manual does not state are the model's (log entry 31). -/
def rmsgBytes (m : RMsg) : Bytes :=
  let b := match m with
    | .hello x kem phase => x ++ kem ++ leBytes 1 (flag phase 0)
    | .reply x ct w => x ++ ct ++ w
    | .confirm e => e
    | .echo => []
    | .probe isAnswer formed leader => leBytes 1 (flag isAnswer 0 + flag formed 1) ++ leBytes 1 leader
    | .elect identity => leBytes 8 identity
    | .number next => leBytes 1 next
    | .map es => (es.map (fun e => leBytes 1 e.member ++ leBytes 1 (flag e.eOffpkg 0 + flag e.eBroken 1))).flatten
    | .join isAnswer refused given rk => if isAnswer then leBytes 1 given ++ leBytes 1 (flag refused 0) ++ rk else leBytes 1 given
    | .adv starts floor accepts =>
      leBytes 1 floor ++ leBytes 1 (flag accepts 0) ++ zeros 6 ++ (starts.map (fun p => leBytes 4 p.1 ++ leBytes 4 p.2)).flatten
    | .job j => leBytes 4 j.tag ++ leBytes 2 j.seat ++ leBytes 1 j.opcode ++ leBytes 1 j.opflags ++ leBytes 4 j.rngMs ++ leBytes 4 j.key.length
        ++ j.body ++ j.operands.flatten ++ j.key
    | .done d => leBytes 4 d.tag ++ leBytes 1 d.status ++ leBytes 1 d.subcode ++ leBytes 2 d.opflags ++ leBytes 8 d.result ++ leBytes 8 d.inBytes
        ++ leBytes 4 d.keyOut.length ++ zeros 4 ++ d.outputs.flatten ++ d.keyOut
    | .cancel ts => (ts.map (leBytes 4)).flatten
    | .alarm m => leBytes 1 m
    | .break_ p => leBytes 2 p
    | .time v => leBytes 10 v
    | .mail total off p final => leBytes 4 (total + flag final 31) ++ leBytes 4 off ++ p
  sliceZ b 0 (rmsgLen m)

/-- Keying messages are sent in clear (R478). -/
def isKeying (m : RMsg) : Bool :=
  match m with
  | .hello _ _ _ => true
  | .reply _ _ _ => true
  | .confirm _ => true
  | _ => false

/-- FLITS of a message (R475). -/
def rmsgFlits (m : RMsg) : Nat := if isKeying m then ceilDiv (8 + rmsgLen m + 16) 64 else ceilDiv (8 + (8 + rmsgLen m) + 16) 64

/-- Hop header (R475). -/
def hopHeader (flits : Nat) (keying phase : Bool) (seq : Nat) : Bytes :=
  leBytes 1 flits ++ leBytes 1 (flag keying 1 + flag phase 0) ++ leBytes 6 seq

/-- Ring header (R477). -/
def ringHeader (m : RSent) : Bytes :=
  leBytes 1 (rmsgKind m.msg) ++ leBytes 1 m.src ++ leBytes 1 m.dst ++ leBytes 1 m.hops ++ leBytes 4 (rmsgLen m.msg)

/-- The flits of a message (R475, R476): the hop header in clear, the hop body under AES-256-GCM with SEQ as the nonce and the header as additional data, the
tag, and zeros to the end of the last flit; a keying message in clear, with no tag. -/
def relayWire (key : Bytes) (m : RSent) : Bytes :=
  let n := rmsgFlits m.msg
  let b :=
    if isKeying m.msg then hopHeader n true m.phase 0 ++ rmsgBytes m.msg
    else
      let h := hopHeader n false m.phase m.seq
      let r := gcmSeal key (zeros 6 ++ leBytes 6 m.seq) h (ringHeader m ++ rmsgBytes m.msg)
      h ++ r.1 ++ r.2
  sliceZ b 0 (64 * n)

-- Hops ----------------------------------------------------------------------------------------------------------------------

/-- RLCLK is lost: nothing crosses the relay ports, in or out, until it returns (R59). -/
def relayStalled (s : State) : Bool := s.mem.stalled.contains .rlclk

/-- A credit is held, and RLCLK runs (R59, R85). -/
def canLeave (s : State) (sd : Side) : Bool := decide (0 < (s.hop sd).credits) && !relayStalled s

/-- The flits of a queued message that leave now: all that are left of it, or as many as there are credits. -/
def flitsNow (h : RHop) (m : RSent) : Nat := min h.credits (if h.txLeft = 0 then rmsgFlits m.msg else h.txLeft)

/-- Flits of the first message of a hop's queue leave, one for each credit held (R85); a message may start with fewer credits than it has flits
(R476), and has been sent when its last flit has left. -/
def hopPut (s : State) (sd : Side) (m : RSent) (t : List RSent) : State :=
  let h := s.hop sd
  let n := flitsNow h m
  let left := (if h.txLeft = 0 then rmsgFlits m.msg else h.txLeft) - n
  let s := s.modHop sd (fun h => { h with credits := h.credits - n, txLeft := left, queue := if left = 0 then t else h.queue })
  if left = 0 then { s with relay := { s.relay with sent := m :: s.relay.sent } } else s

/-- Messages that wait leave while a credit is held; fuel is the queue's length. -/
def hopDrainF (sd : Side) : Nat → State → State
  | 0, s => s
  | n + 1, s =>
    match (s.hop sd).queue with
    | [] => s
    | m :: t => if canLeave s sd then hopDrainF sd n (hopPut s sd m t) else s

def hopDrain (s : State) (sd : Side) : State := hopDrainF sd ((s.hop sd).queue.length) s

/-- Send a message on a hop: keying messages on any hop with a link, others on a keyed one, numbered by SEQ under the phase (R475). A payload past the 16,288 bytes
of R477 is no message. -/
def hopSend (s : State) (sd : Side) (src dst hops : Nat) (msg : RMsg) : State :=
  let h := s.hop sd
  if !h.link || !(h.keyed || isKeying msg) || decide (16288 < rmsgLen msg) then s
  else
    let m : RSent := { east := sd == .east, src := src, dst := dst, hops := hops, seq := if isKeying msg then 0 else h.txSeq
                       phase := h.phase, msg := msg }
    let m := { m with wire := relayWire h.sendKey m }
    let s := s.modHop sd (fun h => if isKeying msg then h else { h with txSeq := h.txSeq + 1 })
    hopDrain (s.modHop sd (fun h => { h with queue := h.queue ++ [m] })) sd

-- Routes --------------------------------------------------------------------------------------------------------------------

/-- Position of a member in the MAP. -/
def mapPos (es : List MapEntry) (m : Nat) : Option Nat :=
  let i := es.findIdx (fun e => e.member == m)
  if i < es.length then some i else none

/-- Sum of the hop figures over `n` east hops from position `p`; `none` when one is broken. -/
def eastCost (es : List MapEntry) (on off : Nat) : Nat → Nat → Option Nat
  | 0, _ => some 0
  | n + 1, p =>
    match es[p % es.length]? with
    | none => none
    | some e => if e.eBroken then none else (eastCost es on off n (p + 1)).map (· + if e.eOffpkg then off else on)

/-- h of R229 from member `a` to member `b`, the direction, and the positions of the hops used: the shorter path with no broken hop (R483); a tie
goes east. The shorter direction of R229 is the one of the smaller sum of hop figures, not of fewer hops (DESIGN CHOICE, log entry 121). -/
def routeIn (es : List MapEntry) (on off a b : Nat) : Option (Nat × Side × List Nat) :=
  match mapPos es a, mapPos es b with
  | some a, some b =>
    let n := es.length
    let e := (b + n - a) % n
    let east := (List.range e).map (fun i => (a + i) % n)
    let west := (List.range (n - e)).map (fun i => (b + i) % n)
    match eastCost es on off e a, eastCost es on off (n - e) b with
    | some x, some y => if y < x then some (y, .west, west) else some (x, .east, east)
    | some x, none => some (x, .east, east)
    | none, some y => some (y, .west, west)
    | none, none => none
  | _, _ => none

def routeBetween (s : State) (a b : Nat) : Option (Nat × Side × List Nat) :=
  routeIn s.relay.map (bits s.place.act.hop 15 0) (bits s.place.act.hop 31 16) a b

/-- h(m) of R229 and the direction to send in. -/
def routeTo (s : State) (m : Nat) : Option (Nat × Side) := (routeBetween s s.relay.member m).map (fun r => (r.1, r.2.1))

/-- Members whose east hop lies on the way from `a` to `b` (R488). -/
def hopsUsed (s : State) (a b : Nat) : List Nat :=
  match routeBetween s a b with
  | some r => r.2.2.filterMap (fun i => (s.relay.map[i]?).map (·.member))
  | none => []

/-- The same, both ways between this member and another. -/
def pathOf (s : State) (m : Nat) : List Nat := hopsUsed s s.relay.member m ++ hopsUsed s m s.relay.member

/-- Send to a member of the ring by its route; to a member out of the ring nothing is sent. -/
def sendTo (s : State) (dst : Nat) (msg : RMsg) : State :=
  match routeTo s dst with
  | some (_, sd) => hopSend s sd s.relay.member dst 0 msg
  | none => s

/-- Send to every member, on both hops; members forward it around the ring. -/
def sendBoth (s : State) (msg : RMsg) : State := hopSend (hopSend s .east s.relay.member 0xFF 0 msg) .west s.relay.member 0xFF 0 msg

/-- The end of a mail send (R493): its reads still out are given up, RESULT stands, vector 7. -/
def mailEnd (s : State) (r : Nat) : State :=
  vector { s with
    mem := { s.mem with accesses := s.mem.accesses.filterMap (fun a =>
      match a.owner with
      | .mailRead _ => if a.issued then some (a.discarded false) else none
      | _ => some a) }
    relay := { s.relay with mailBusy := false, mailAsked := false, mailResult := r, mailGot := [] } } 7

/-- A send that can no longer reach its destination ends as broken (R493). -/
def mailBreak (s : State) : State := if s.relay.mailBusy then mailEnd s 3 else s

/-- The pair key PK(a, b) of R485. -/
def pairKey (rk : Bytes) (a b : Nat) : Bytes := hkdf 3 rk [] (ascii "Pysia relay pair" ++ [BitVec.ofNat 8 a, BitVec.ofNat 8 b]) 32

/-- Seal key material for a member under the pair key; the seal count advances (R485), and goes before the ciphertext and its tag, so that the nonce can be formed
(DESIGN CHOICE, log entry 125). -/
def pairSeal (s : State) (a b : Nat) (mat : Bytes) : State × Bytes :=
  let c := leBytes 11 s.relay.sealNo
  let r := gcmSeal (pairKey s.relay.rk a b) (beBytes 1 s.relay.member ++ c) [] mat
  ({ s with relay := { s.relay with sealNo := s.relay.sealNo + 1 } }, c ++ r.1 ++ r.2)

/-- Open what `sender` sealed under the pair key of `a` and `b` (R485); nothing without RK, or when the tag fails. -/
def pairOpen (s : State) (sender a b : Nat) (box : Bytes) : Option Bytes :=
  if s.relay.rk = [] ∨ box.length < 27 then none
  else
    let ct := (box.drop 11).take (box.length - 27)
    gcmOpen (pairKey s.relay.rk a b) (beBytes 1 sender ++ box.take 11) [] ct (box.drop (box.length - 16))

end Sys2Proof.Machine
end

