-- ==== Sys2Proof/Machine/Finish.lean ====
section
/-! DEFINITION. How a job ends: its one outcome (R192), faults (R71, R137, R139), the completion record and its order (R70, R186 to R193),
prompts (R195), and `fin`, which carries on what a command has set going: requests that can be issued and records that are due. -/

namespace Sys2Proof.Machine

-- Units ---------------------------------------------------------------------------------------------------------------------

/-- The wing a job's unit belongs to. -/
def jobWing (j : Job) : Option Nat :=
  match j.phase with
  | .queuedBay b => some (b / 8)
  | .queuedEng w => some w
  | .inBay b => some (b / 8)
  | .inEng w => some w
  | .paused b => some (b / 8)
  | _ => none

/-- The bay that holds a job. -/
def jobBay (j : Job) : Option Nat :=
  match j.phase with
  | .queuedBay b => some b
  | .inBay b => some b
  | .paused b => some b
  | _ => none

-- Outcomes ------------------------------------------------------------------------------------------------------------------

/-- Requests of a job that are not data writes. -/
def isReadOf (id : Nat) (o : Owner) : Bool :=
  match o with
  | .jobRead j _ _ => j == id
  | .spill j => j == id
  | _ => false

def isWriteOf (id : Nat) (o : Owner) : Bool :=
  match o with
  | .jobWrite j _ => j == id
  | _ => false

/-- A data write of the job is issued or to be issued, and not answered. -/
def writesOut (s : State) (id : Nat) : Bool := s.mem.accesses.any (fun a => isWriteOf id a.owner)

/-- The job has reported a fault already, whatever its status: a later one of its requests is counted and not logged (R71). -/
def reported (s : State) (id : Nat) : Bool := (s.job? id).any (fun j => j.faulted)

/-- Requests of a job that has ended: reads not issued are dropped, issued ones are received and discarded (R71). -/
def dropReads (s : State) (id : Nat) : State :=
  { s with mem := { s.mem with accesses := s.mem.accesses.filterMap (fun a =>
      if isReadOf id a.owner then (if a.issued then some (a.discarded (reported s id)) else none) else some a) } }

/-- Data writes of a job not yet issued are dropped; issued ones are still answered (R70, R71). -/
def dropWrites (s : State) (id : Nat) : State :=
  { s with mem := { s.mem with accesses := s.mem.accesses.filterMap (fun a =>
      if isWriteOf id a.owner then
        match a.st with
        | .out _ _ _ => some a
        | .walkOut _ _ _ _ => some { (a.discarded (reported s id)) with write := false }
        | _ => none
      else some a) } }

/-- The region of a bay buffer that a job has is given up with the bytes it holds then (R26); it is zeroed before a job of another seat has it. -/
def freeRegion (s : State) (id : Nat) (left : Bytes) : State :=
  { s with buffers := tabMap [] s.buffers (fun _ l => l.map (fun r => if r.job == some id then { r with job := none, bytes := left } else r)) }

/-- A job gets a region of its own in a bay's buffer: one given up by its own seat as it is, one of another seat zeroed first (R26). -/
def takeRegion (s : State) (b id seat : Nat) : State :=
  let l := tabGet [] s.buffers b
  let mine := fun (r : Region) => { r with job := some id, seat := seat, bytes := if r.seat = seat then r.bytes else zeros r.bytes.length }
  let i := l.findIdx (fun r => r.job.isNone)
  let l := if i < l.length then l.modify i mine else l ++ [{ job := some id, seat := seat, bytes := [] }]
  { s with buffers := tabSet [] s.buffers b l }

/-- Regions of the buffers for which `p` holds are zeroed (R28, R33, R38, R154). -/
def wipeRegions (s : State) (p : Nat → Region → Bool) : State :=
  { s with buffers := tabMap [] s.buffers (fun b l => l.map (fun r => if p b r then { r with bytes := zeros r.bytes.length } else r)) }

/-- What a job that ends leaves clear in its region: source bytes; a green-room region is zeroed whatever the status (R266). -/
def Job.clearBytes (j : Job) : Bytes :=
  if j.opcode = 0x11 ∧ j.opBit 14 then [] else ((j.got.filter (fun g => g.1.kind == .data)).map (·.2.2)).flatten

/-- Spill slots of a job are freed unread. -/
def freeSpill (s : State) (id : Nat) : State :=
  { s with keys := { s.keys with spillUsed := s.keys.spillUsed.filter (fun p => !(p.2 == id)) } }

/-- An engine that holds the job lets it go: a staged job leaves the input stage, whose region is wiped, a run is stopped and wiped (R320, R341, R487). -/
def engineLeave (s : State) (id : Nat) : State :=
  let seat := ((s.job? id).map (·.seat)).getD 0
  { s with engines := { s.engines with eng := tabMap {} s.engines.eng (fun _ e =>
      let e := if e.staged == some id then { e with staged := none, loadFull := false, stageWipe := some id, stageSeat := seat } else e
      let e := if e.running == some id then { e with running := none, wiping := some id, wipeSeat := seat, ends := [] } else e
      e) } }

/-- Loaded HMAC slots a seat holds (R300). -/
def slotCount (s : State) (seat : Nat) : Nat := (s.keys.slots.filter (fun c => c.seat == seat)).length

/-- A job of the digest group (R288). -/
def isDigestOp (j : Job) : Bool := decide (0x20 ≤ j.opcode) && decide (j.opcode ≤ 0x26)

/-- RESULT a record carries whatever its status (R239, R259, R291, R326, R350, R415). -/
def baseResult (s : State) (j : Job) : Nat :=
  if j.opcode = 0x10 ∧ j.opBit 15 then j.nonce.getD (2 ^ 64 - 1)
  else if j.opcode = 0x11 ∧ j.opBit 15 then j.fld 24 8
  else if j.opcode = 0x14 ∨ j.opcode = 0x15 then j.ctrNext
  else if j.opcode = 0x20 ∨ j.opcode = 0x22 ∨ ((j.opcode = 0x21 ∨ j.opcode = 0x23) ∧ (bits j.flags 13 12 = 1 ∨ bits j.flags 13 12 = 2)) then j.ctx.msgBytes
  else if j.opcode = 0x25 ∨ j.opcode = 0x26 then slotCount s j.seat
  else if j.opcode = 0x50 ∨ j.opcode = 0x52 then j.reqs
  else if 0 < j.rtNs then j.blocks * 2 ^ 40 + j.floor * 2 ^ 32 + j.rtNs
  else 0

/-- A random job (R413). -/
def isRandom (j : Job) : Bool := j.opcode == 0x50 || j.opcode == 0x51 || j.opcode == 0x52

/-- A job of the big-number engines, curves and lattices: its OUT_BYTES is 0 unless its status is OK (R326, R350). -/
def isEngineOp (j : Job) : Bool := decide (0x30 ≤ j.opcode) && decide (j.opcode ≤ 0x4C)

/-- The status is one a check before an engine's run gives: such a job has read no operand, though a relayed-in one has brought its own (R340, R359). -/
def drawCheck (status : Nat) : Bool := status == stRngNotReady || status == stEntropyFailed || status == stRngRehearsal

/-- IN_BYTES of a job stopped with a status: the source bytes it has read (R239, R291, R326, R350, R415); none where check 7 of R416 or a check before an
engine's run fails. -/
def baseIn (j : Job) (status : Nat) : Nat :=
  if (isRandom j && status == stRngNotReady && j.phase != .farm true) || (isEngineOp j && drawCheck status) then 0 else j.seen

/-- OPFLAGS of a record that a stopped job keeps: BLINDED (R326), RESEEDED (R415), SLOT_USED (R291). -/
def baseOpf (j : Job) : Nat := if (j.blinded && j.drawDone) || j.reseeded || j.slotUsed then 0x80 else 0

/-- A class A alarm falls on this very instant: any other outcome gives way to its ALARM_ABORT (R192). -/
def alarmNow (s : State) : Bool := s.alarms.verifying && s.alarms.alarmAt == some s.mono

/-- Fix the outcome of a job that has none (R192). The region of a job that times out is wiped (R198). -/
def fixOutcome (s : State) (id : Nat) (o : Outcome) : State :=
  match s.job? id with
  | none => s
  | some j =>
    if j.outcome.isSome || (alarmNow s && o.status != stAlarmAbort) then s
    else
      let s := freeRegion s id (if o.status = stTimeout then zeros j.clearBytes.length else j.clearBytes)
      dropReads (s.modJob id (fun j => { j with outcome := some { o with stamp := s.now, at_ := s.mono }, phase := .done, inDone := j.seen, got := []
                                                key := [], drawn := [], inner := [], outer := [], held := .none, leaseWait := .none, ranIn := jobWing j })) id

/-- What a stopped job leaves in the block goes: its spill slots, its writes not issued, its place in an engine, its results (R71, R198, R341). -/
def quit (s : State) (id : Nat) : State :=
  engineLeave (freeSpill (dropWrites (s.modJob id (fun j => { j with outs := [], entry := [] })) id) id) id

/-- The association of a job that names one is `i`, held by a seat in a generation. -/
def namesAssoc (j : Job) (i seat gen : Nat) : Bool :=
  match j.pkt with
  | some p => p.named && p.assoc == i
  | none => j.opBit 15 && j.fld 20 4 == i && seat == j.seat && gen == j.gen

/-- NONCE_SOFT_LIMIT of a job that ends now: set for it, or for every later SEAL and ASSOC_QUERY of an association that has issued its SEAL_SOFT, be its entry
held or not (R259). -/
def softNow (s : State) (j : Job) : Bool :=
  j.soft || ((j.opcode == 0x10 || j.opcode == 0x16)
    && (s.front.cache.any (fun a => decide (a.soft < a.ctr) && namesAssoc j a.index a.seat a.gen) || s.front.softDone.any (fun a => namesAssoc j a.1 a.2.1 a.2.2)))

/-- End a job that has no outcome with a status that stops it (R137, R148, R198, R38, R28): nothing more is issued for it. A digest job that a class A alarm
stops carries RESULT zero (R316). -/
def stop (s : State) (id status sub : Nat) : State :=
  match s.job? id with
  | none => s
  | some j =>
    if j.outcome.isSome then s
    else
      let abrupt := status == stTimeout || status == stSquashed || status == stAlarmAbort
      quit (fixOutcome s id { status := status, sub := sub, result := if isDigestOp j && status == stAlarmAbort then 0 else baseResult s j, softLimit := softNow s j, opf := baseOpf j, inB := baseIn j status
                              part := !isEngineOp j, fixedStamp := abrupt }) id

/-- A check of a job fails: it has read and written nothing, and RESULT is zero but for what `baseResult` keeps. -/
def failJob (s : State) (id status sub : Nat) : State :=
  match s.job? id with
  | none => s
  | some j =>
    if j.outcome.isSome then s
    else quit (fixOutcome s id { status := status, sub := sub, result := baseResult s j, softLimit := softNow s j, opf := baseOpf j }) id

/-- A request of the job met a translation fault or RSP_ERR (R71, R137): TRANSLATION_FAULT governs until its record is on its way (R265, R342). -/
def faultJob (s : State) (id sub : Nat) : State :=
  match s.job? id with
  | none => s
  | some j =>
    match j.outcome with
    | none => stop s id stTranslation sub
    | some o =>
      if j.phase = .done ∧ o.status ≠ stTranslation ∧ !o.fixedStamp then
        dropWrites (s.modJob id (fun j =>
          { j with scrub := false, outs := [], entry := [], outcome := some { o with status := stTranslation, sub := sub, outB := 0, part := !isEngineOp j } })) id
      else s

-- Fault log -----------------------------------------------------------------------------------------------------------------

/-- A fault of this request is logged: its job has not reported one. -/
def logged (s : State) (a : Access) : Bool := !a.quiet && !a.job.any (reported s)

/-- The job of a request has reported a fault: later ones of its requests, given up or not, are counted and not logged (R71). -/
def noteFault (s : State) (a : Access) : State :=
  match a.job with
  | none => s
  | some id =>
    let s := s.modJob id (fun j => { j with faulted := true })
    { s with mem := { s.mem with accesses := s.mem.accesses.map (fun b => if b.job == some id then { b with quiet := true } else b) } }

/-- Count a fault under the seat whose tables translated the request, and log it unless its job has reported one; a fault that finds the log full
sets OVERRUN (R71, R139). -/
def logFault (s : State) (seat sub va : Nat) (log : Bool) : State :=
  let s := s.modSeat seat (fun t => { t with faultCnt := satInc 32 t.faultCnt })
  let r := s.seatRegs
  if r.fault.testBit 31 then { s with seatRegs := { r with fault := maskSet r.fault 30 true } }
  else if !log then s
  else { s with seatRegs := { r with fault := 2 ^ 31 + sub * 2 ^ 16 + seat, faultAddr := va % 2 ^ 64 } }

/-- A ring stops fetching at once: a job whose packets have not all come is given up and fetched anew later (R170, R199, R200). -/
def stopFetch (s : State) (seat slot : Nat) (quiet : Bool) : State :=
  let s := s.modRing seat slot (fun r => { r with fetching := false, packets := [] })
  { s with mem := { s.mem with accesses := s.mem.accesses.filterMap (fun a =>
    match a.owner with
    | .fetch se sl _ => if se == seat && sl == slot then (if a.issued then some (a.discarded quiet) else none) else some a
    | _ => some a) } }

/-- Ring slot `slot` becomes FAULTED by a packet fetch (R199): packets read are discarded, a record is due, vector 3. -/
def fetchFault (s : State) (seat slot k sub : Nat) : State :=
  let s := s.modRing seat slot (fun r => { r with fetchFault := true, faultRecs := r.faultRecs ++ [(sub, (r.fetchIdx + k) % 2 ^ 32)] })
  vector (stopFetch s seat slot true) 3

/-- A completion record write met a fault (R200): the record is dropped, its index is free again unless the next one has been given (log entry 25);
LOST, CPL_FAULT, vector 3, class C alarm. -/
def cplFault (s : State) (seat slot idx : Nat) : State :=
  let s := s.modRing seat slot (fun r =>
    { r with lost := satInc 16 r.lost, cplFault := true, recsOut := r.recsOut - 1
             cqTail := if r.cqTail = (idx + 1) % 2 ^ 32 then idx else r.cqTail })
  alarmC (vector (stopFetch s seat slot false) 3) 0x44 seat slot

-- Completion ----------------------------------------------------------------------------------------------------------------

/-- The counters a completion moves (R287, R317, R397, R424). -/
def countOutcome (s : State) (o : Outcome) : State :=
  let k := s.keys
  let e := s.entropy
  { s with
    entropy := { e with cntNotReady := if o.status = stRngNotReady then satInc 32 e.cntNotReady else e.cntNotReady }
    keys := { k with
      cntInvalid := if o.status = stKeyHandle then satInc 32 k.cntInvalid else k.cntInvalid
      cntExpired := if o.status = stKeyExpired then satInc 32 k.cntExpired else k.cntExpired
      cntCtxInvalid := if o.status = stContextInvalid then satInc 32 k.cntCtxInvalid else k.cntCtxInvalid
      cntTrunc := if o.truncated then wrapInc 32 k.cntTrunc else k.cntTrunc
      cntShort := if o.status = stShort then wrapInc 32 k.cntShort else k.cntShort } }

/-- Vector 0 follows the last record of an aborted job (R526 step 6): it is raised once no aborted job is left. -/
def lastAborted (s : State) : State :=
  if s.alarms.vec0Wait && s.jobs.all (fun j => match j.outcome with | some o => o.status != stAlarmAbort | none => true) then
    vector { s with alarms := { s.alarms with vec0Wait := false } } 0
  else s

/-- A job leaves the block. -/
def leave (s : State) (id : Nat) : State := lastAborted (s.dropJob id)

/-- STAMP of a record (R191). -/
def recStamp (j : Job) (o : Outcome) : Nat := if o.fixedStamp || j.wrote == 0 then o.stamp else j.lastAck

/-- Every earlier job of the ring has completed (R186). -/
def orderOk (s : State) (j : Job) (seat slot : Nat) : Bool :=
  !((s.ring seat slot).act.cfg.testBit 31) || s.jobs.all (fun k => !(k.src == .ring slot && k.seat == seat && decide (k.id < j.id)))

/-- OUT_BYTES of a record: of a stopped job the bytes whose writes have been acknowledged. -/
def recOut (j : Job) (o : Outcome) : Nat := if o.part then j.outDone else o.outB

/-- RESULT of a record: RNG_RAW counts the failures in the blocks that have been written (R415). -/
def recResult (j : Job) (o : Outcome) : Nat := if j.opcode = 0x52 then j.reqs else o.result

/-- Issue the record of a job at RING_CQ_TAIL, which moves on (R188); it waits for no other record of the ring (R70). -/
def issueRecord (s : State) (j : Job) (o : Outcome) (slot : Nat) : State :=
  let r := s.ring j.seat slot
  let log2 := bits r.act.cfg 4 0
  let flags := recFlags o.opf j.relayed o.softLimit o.truncated (phaseBit r.cqTail log2)
  let rec_ := recBytes j.tag o.status o.sub flags o.inB (recOut j o) (recStamp j o) (recResult j o)
  let s := countOutcome s o
  let s := addWrite s (.record j.id j.seat slot r.cqTail) j.seat (r.act.cqBase + r.cqTail % 2 ^ log2 * 32) rec_ 4
  (s.modRing j.seat slot (fun r => { r with recsOut := r.recsOut + 1, cqTail := (r.cqTail + 1) % 2 ^ 32 })).modJob j.id
    (fun j => { j with phase := .recordOut })

/-- Zero writes over the output range of an OPEN whose tag failed (R264, R284). -/
def scrubJob (s : State) (j : Job) : State :=
  let s := s.modJob j.id (fun j => { j with zeroed := true })
  j.outs.foldl (fun s p => addWrites s (.jobWrite j.id .zero) j.seat p.1 p.2 0) s

/-- Output metadata of a packet (R426). -/
def pktMeta (p : Pkt) (o : Outcome) : BitVec 128 :=
  let good := o.status == stOk
  let v := (if good then p.payLen * 2 ^ 112 + p.payOff * 2 ^ 96 + p.nextHdr * 2 ^ 88 else 0)
    + p.assoc * 2 ^ 64 + bits p.metaIn.toNat 63 32 * 2 ^ 32 + p.term * 2 ^ 26 + p.epoch * 2 ^ 24
    + ((p.flags ||| flag o.softLimit 23 ||| flag (!good) 16) / 2 ^ 16 % 256) * 2 ^ 16 + o.sub * 2 ^ 8 + o.status
  BitVec.ofNat 128 v

/-- A packet is ready to leave, after earlier packets of its association, by whichever port they entered (R75). -/
def packetDone (s : State) (j : Job) (p : Pkt) (o : Outcome) (port : Nat) : State :=
  if s.jobs.any (fun k => decide (k.id < j.id) && (match k.pkt with | some q => p.named && q.named && q.assoc == p.assoc | none => false)) then s
  else
    let good := o.status == stOk
    let s := countOutcome s o
    let s := { s with front := { s.front with
      cntExc := if good then s.front.cntExc else wrapInc 32 s.front.cntExc
      outQ := s.front.outQ ++ [{ port := port, assoc := p.assoc, order := j.id, named := p.named, metaOut := pktMeta p o, bytes := if good then p.out else p.bytes }] } }
    leave s j.id

/-- One job whose outcome is fixed moves on when nothing holds its record: its data writes are answered (R70), its operand memory is wiped (R320), and
the instant of its outcome is past, so that no class A alarm can fall on it any more (R192). -/
def settleJob (s : State) (id : Nat) : State :=
  match s.job? id with
  | none => s
  | some j =>
    match j.outcome with
    | none => s
    | some o =>
      if j.phase ≠ .done ∨ s.mono ≤ o.at_ ∨ writesOut s id ∨ s.engines.eng.any (fun p => p.2.wiping == some id || p.2.stageWipe == some id) then s
      else if j.scrub && !j.zeroed then scrubJob s j
      else
        match j.src with
        | .ring slot =>
          if !orderOk s j j.seat slot then s
          else if hNoCpl j.flags && o.status == stOk then leave (countOutcome s o) id
          else issueRecord s j o slot
        | .packet port =>
          match j.pkt with
          | some p => packetDone s j p o port
          | none => leave s id
        | .relayed origin tag =>
          let s := if j.silent then s
            else sendTo s origin (.done { tag := tag, status := o.status, subcode := o.sub, opflags := o.opf, result := o.result, inBytes := o.inB
                                          outputs := j.outs.map (·.2), keyOut := j.entry })
          leave s id

/-- A fetch fault record that is due: subcode, and the index of the entry that faulted as RESULT (R199). It is no job's record, so CPL_ORDER does not hold it
behind the records of earlier jobs (R186 speaks of jobs' records alone; DESIGN CHOICE, log entry 116). -/
def fetchRecord (s : State) (seat slot : Nat) (f : Nat × Nat) : State :=
  let r := s.ring seat slot
  let log2 := bits r.act.cfg 4 0
  let b := recBytes 0xFFFFFFFF stTranslation f.1 (recFlags 0 false false false (phaseBit r.cqTail log2)) 0 0 s.now f.2
  (addWrite s (.fetchRec seat slot r.cqTail) seat (r.act.cqBase + r.cqTail % 2 ^ log2 * 32) b 4).modRing seat slot
    (fun r => { r with recsOut := r.recsOut + 1, cqTail := (r.cqTail + 1) % 2 ^ 32 })

/-- Fetch fault records that are due (R199). -/
def settleRing (s : State) (key : Nat) : State :=
  let seat := key / 16
  let slot := key % 16
  let l := (s.ring seat slot).faultRecs
  l.foldl (fun s f => fetchRecord s seat slot f) (s.modRing seat slot (fun r => { r with faultRecs := [] }))

def settle (s : State) : State :=
  let s := (s.rings.map (·.1)).foldl settleRing s
  (s.jobs.map (·.id)).foldl settleJob s

-- Prompts -------------------------------------------------------------------------------------------------------------------

/-- Evaluate a ring (R195). A record counts toward COUNT once it has been acknowledged (R70). The oldest unconsumed record is the one acknowledged first,
where records are acknowledged out of index order (DESIGN CHOICE, log entry 114). -/
def evalRing (s : State) (seat slot : Nat) : State :=
  let r := s.ring seat slot
  let count := bits r.coal 15 0
  let time := bits r.coal 31 16
  let now := s.mono
  let enough := decide (count ≤ sub32 r.cqTail r.cqHead - r.recsOut)
  let old := time != 0 && (match r.unread with
    | [] => false
    | (_, at_, _) :: _ => decide (at_ + time * 100 * nsUnit ≤ now))
  let urgent := r.unread.any (fun u => u.2.2)
  let s := s.modRing seat slot (fun r => { r with unread := r.unread.map (fun u => (u.1, u.2.1, false)) })
  if r.armed && count != 0 && (enough || old || urgent) then
    raise (s.modRing seat slot (fun r => { r with armed := false })) seat (bits r.act.cfg 15 5)
  else s

/-- The record of index `idx` is acknowledged: it is noted while it is unconsumed, and the ring is evaluated (R195). -/
def recordAcked (s : State) (seat slot idx : Nat) (promptNow : Bool) : State :=
  let s := s.modRing seat slot (fun r =>
    { r with unread := if sub32 idx r.cqHead < sub32 r.cqTail r.cqHead then r.unread ++ [(idx, s.mono, promptNow)] else r.unread, recsOut := r.recsOut - 1 })
  evalRing s seat slot

-- Migration and mail faults -------------------------------------------------------------------------------------------------

/-- Code of a migration command (R167). -/
def migCode (t : Transit) : Nat :=
  match t with
  | .offer => 9
  | .save => 10
  | _ => 11

/-- No migration command is at work. -/
def migNone (r : SeatRegs) : SeatRegs :=
  { r with migSeat := none, migAt := 0, migCap := 0, migGot := [], migKeys := [], migStep := 0, migScan := 0, migAssocs := [] }

/-- The migration command at work ends with a RESULT (R130, R161, R163): TRANSIT clears and vector 1 is raised. A refusal is reported in SEAT_CMD_STS under
the command and the seat it refuses; a good end leaves it as it is (log entry 86). A RESTORE that is refused leaves none of the image's jobs. -/
def migEnd (s : State) (result : Nat) : State :=
  match s.seatRegs.migSeat with
  | none => s
  | some m =>
    let undo := (s.seat m).transit == .restore && result != 0
    let mine := fun (j : Job) => j.seat == m && j.src matches .ring _
    let gone := (s.jobs.filter (fun j => undo && mine j)).map (·.id)
    let s := gone.foldl (fun s id => (freeSpill s id).dropJob id) s
    let sts := if result = 0 then s.seatRegs.cmdSts else migCode (s.seat m).transit * 2 ^ 24 + result * 2 ^ 16 + m
    let s := s.modSeat m (fun t => { t with transit := .none })
    vector { s with seatRegs := { migNone s.seatRegs with cmdSts := sts } } 1

/-- Requests of a migration command that has ended: reads not issued are dropped, issued ones received and discarded; writes not issued are dropped. -/
def dropMig (s : State) : State :=
  { s with mem := { s.mem with accesses := s.mem.accesses.filterMap (fun a =>
      match a.owner with
      | .migRead _ => if a.issued then some (a.discarded false) else none
      | .migWrite => (match a.st with
        | .out _ _ _ => some (a.owned (.writeBack none))
        | .walkOut _ _ _ _ => some { (a.discarded false) with write := false }
        | _ => none)
      | _ => some a) } }

/-- A page of the association table that seat 0 does not map holds no entry of a seat (log entry 87). -/
def State.noMigPage (s : State) (ord : Nat) : State :=
  { s with seatRegs := { s.seatRegs with migGot := tabPut s.seatRegs.migGot ord (zeros 4096) } }

/-- A fault on the migration buffer refuses the command at work with RESULT 0x05 (R161); the seat is as before. -/
def migFault (s : State) : State := migEnd (dropMig s) 5

/-- Take a free value (log entry 10). -/
def takeFree (s : State) : State × Nat := ({ s with freeCount := s.freeCount + 1 }, Config.free s.freeCount)

-- Faults of requests --------------------------------------------------------------------------------------------------------

/-- Jobs for which `p` holds end by a fault of a request they wait for. -/
def faultWhere (s : State) (p : Job → Bool) (sub : Nat) : State :=
  ((s.jobs.filter (fun j => p j && j.outcome.isNone)).map (·.id)).foldl (fun s id => faultJob s id sub) s

/-- A lease write of an association meets a fault (R261, R439): the jobs that wait for it complete with TRANSLATION_FAULT; the next writes it again. `off` is its
place in the entry: the counter, WIN_CLEAN or the window lease. A fault of a write that the held entry did not ask for says nothing of its lease; where WIN_CLEAN
stays 1 in memory the window has no lease until both are written again. -/
def leaseFault (s : State) (i req off sub : Nat) : State :=
  match s.front.cache.find? (fun c => c.index == i) with
  | none => s
  | some c =>
    if req ≠ (if off = 32 then c.sealReq else c.winReq) + (if off = 12 then 1 else 0) then s
    else
      let lost := fun (c : Assoc) =>
        if off = 32 then { c with sealNext := none }
        else if off = 12 then { c with winNext := none, winStored := none, flags := maskSet c.flags 4 true } else { c with winNext := none }
      let s := { s with front := { s.front with cache := s.front.cache.map (fun c => if c.index == i then lost c else c) } }
      faultWhere s (fun j => j.assoc == some i && j.leaseWait == (if off = 32 then .nonce else .window)) sub

/-- A lease write of a key's use count meets a fault (R394): the jobs that wait to count a use of the key; the next job writes it again. -/
def useFault (s : State) (seat h req sub : Nat) : State :=
  match s.keys.attrs.find? (fun r => r.seat == seat && r.handle == h && r.leaseReq == req && r.leasing.isSome) with
  | none => s
  | some _ =>
    let s := { s with keys := { s.keys with attrs := s.keys.attrs.map (fun r => if r.seat == seat && r.handle == h then { r with leasing := none } else r) } }
    faultWhere s (fun j => j.seat == seat && j.leaseWait == .use h) sub

/-- The job on whose behalf a write back, a chain of writes or a copy goes meets the fault, if it is still in the block (R139). -/
def faultOf (s : State) (job : Option Nat) (sub : Nat) : State :=
  match job with
  | some id => faultJob s id sub
  | none => s

/-- A request met a translation fault or RSP_ERR. With `more`, responses of it are still to come: it keeps its tag and they are discarded (R67). A job whose
record is dropped (R200) leaves the block at the fault, and so counts as completed from then on, for WAIT_PREV, FENCE, the curtain and INFLIGHT, though its
record is never acknowledged (R564 does not say; DESIGN CHOICE, log entry 115). -/
def onFault (s : State) (a : Access) (sub : Nat) (more : Option Bytes) : State :=
  let s := if a.boot || a.failed then s else noteFault (logFault s a.seat sub a.va (logged s a)) a
  let s := match more with
    | none => s.dropAccess a.id
    | some d => s.modAccess a.id (fun a => { (a.discarded true) with data := d, failed := true })
  match a.owner with
  | .jobRead j _ _ => faultJob s j sub
  | .jobWrite j _ => faultJob s j sub
  | .record j seat slot idx => leave (cplFault s seat slot idx) j
  | .fetchRec seat slot idx => cplFault s seat slot idx
  | .fetch seat slot k => fetchFault s seat slot k sub
  | .image _ => { s with start := { s.start with imgErr := true } }
  | .assocLease i _ => leaseFault s i a.id (a.va % 256) sub
  | .keyLease seat h _ => useFault s seat h a.id sub
  | .writeBack job => faultOf s job sub
  | .peerRead t b => keepBucket s t b (zeros 128)
  | .exception job => faultOf s job sub
  | .chain job _ => faultOf s job sub
  | .spill j => alarmC (faultJob s j sub) 0x48 (match s.job? j with | some x => x.seat | none => 0) 0
  | .migRead ord => if ord / 2 ^ 40 = 5 ∧ sub = 1 then s.noMigPage ord else migFault s
  | .migWrite => migFault s
  | .mailRead _ =>
    let f := takeFree s
    mailEnd f.1 (f.2 % 256)
  | .inboxWrite => { s with relay := { s.relay with part := 0, got := 0, partPath := [] } }
  | .orphan => s

/-- An output write of a job whose outcome was fixed at this very instant: it goes out later, so that a class A alarm at the instant finds nothing
written (R192, R342). -/
def tooSoon (s : State) (a : Access) : Bool :=
  match a.owner with
  | .jobWrite id _ => (s.job? id).any (fun j => j.outcome.any (fun o => decide (s.mono ≤ o.at_)))
  | _ => false

/-- Start or carry on one request. -/
def pumpOne (s : State) (id : Nat) : State :=
  match s.access? id with
  | none => s
  | some a =>
    if tooSoon s a then s
    else
      match memTry s a with
      | (s, none) => s
      | (s, some sub) => onFault s a sub none

def pump (s : State) : State := (s.mem.accesses.map (·.id)).foldl pumpOne s

-- Deficits ------------------------------------------------------------------------------------------------------------------

/-- A seat with jobs queued for the bays of a wing, or (2048 on) for its engine, the relay queue as one seat. The two kinds of queue have deficits of their own:
the deficit for the bays is set to zero when no job of the seat is queued for a bay of the wing, though one may be queued for its engine (DESIGN CHOICE,
log entry 117). -/
def wingLive (s : State) (w k : Nat) : Bool :=
  s.jobs.any (fun j => j.outcome.isNone && (match j.phase with
    | .queuedBay b => b / 8 == w && j.seat == k
    | .paused b => b / 8 == w && j.seat == k
    | .queuedEng v => v == w && k == 2048 + (match j.src with
      | .relayed _ _ => 1024
      | _ => j.seat)
    | _ => false))

/-- Key of the key store's and the farm's deficits that holds the seat served last. -/
abbrev storeTurn : Nat := 4096

/-- A seat with jobs queued at the key store, or (`farm`) at the generate units, where a job with parts to come stays queued. -/
def unitLive (s : State) (farm : Bool) (k : Nat) : Bool :=
  k == storeTurn || s.jobs.any (fun j => j.outcome.isNone && j.seat == k && (match j.phase with
    | .farm _ => farm
    | .store started => !farm && !started
    | _ => false))

/-- Seats whose queues are empty have their deficits set to zero (R220, R221, R392, R418). -/
def dropDeficits (s : State) : State :=
  { s with
    place := { s.place with wings := tabMap {} s.place.wings (fun w x => { x with deficit := x.deficit.filter (fun p => wingLive s w p.1) }) }
    keys := { s.keys with deficit := s.keys.deficit.filter (fun p => unitLive s false p.1), farmDeficit := s.keys.farmDeficit.filter (fun p => unitLive s true p.1) } }

/-- A memory held in reset holds nothing (R527). -/
def holdMem (s : State) (m : BlockMem) : State :=
  match m with
  | .schedules => { s with keys := { s.keys with scheds := [] } }
  | .hmacSlots => { s with keys := { s.keys with slots := [] } }
  | .attributes => { s with keys := { s.keys with attrs := [] } }
  | .seatKeys => { s with keys := { s.keys with seatKeys := [] } }
  | .hopKeys => { s with relay := { s.relay with east := s.relay.east.unkeyed, west := s.relay.west.unkeyed } }
  | .ringKey => { s with relay := { s.relay with rk := [] } }
  | .operands => { s with engines := { s.engines with eng := tabMap {} s.engines.eng (fun _ e => { e with staged := none, loadFull := false }) } }
  | .bayBuffers => { s with buffers := tabMap [] s.buffers (fun _ l => l.map (fun r => { r with bytes := [] })) }
  | .drbg => { s with entropy := { s.entropy with inst := [] } }
  | .pool => { s with entropy := { s.entropy with pool := [] } }
  | .assocCache => { s with front := { s.front with cache := [] } }
  | .peerCache => { s with front := { s.front with peers := [] } }

/-- Every memory held in reset is kept empty, whatever a command has put into it (R527). -/
def holdMems (s : State) : State := s.alarms.heldMems.foldl holdMem s

/-- Lookups that began before a request number are still reading (R451). -/
def lookupsOut (s : State) (n : Nat) : Bool := s.mem.accesses.any (fun a => decide (a.id < n) && isLookup a.owner)

def isChain (o : Owner) : Bool :=
  match o with
  | .chain _ _ => true
  | _ => false

/-- The next write of the peer unit, which does one thing at a time (R451). -/
def peerGoF : Nat → State → State
  | 0, s => s
  | f + 1, s =>
    let put := fun (q : List PeerAct) (h : Option (PeerAct × Nat)) => ({ s with front := { s.front with peerQ := q, peerHold := h } } : State)
    if s.mem.accesses.any (fun a => isChain a.owner) then s
    else
      match s.front.peerHold, s.front.peerQ with
      | some (a, n), q => if lookupsOut s n then s else peerGoF f (put (a :: q) none)
      | none, [] => s
      | none, a :: q =>
        match a.writes with
        | [] => peerGoF f (put q none)
        | (va, b) :: rest => if b = [] then peerGoF f (put q (some ({ a with writes := rest }, s.mem.nextId))) else addWrite (put q none) (.chain a.job rest) 0 va b 0

def peerGo (s : State) : State := peerGoF (2 * s.front.peerQ.length + 4) s

/-- Carry on what a command has set going: records that are due, requests that can be issued, deficits of seats with nothing queued any more; memories held in
reset stay empty. -/
def fin (s : State) : State := dropDeficits (pump (settle (pump (settle (pump (peerGo (holdMems s)))))))

/-- Issue the reads of a job that are missing. -/
def needReads (s : State) (id : Nat) (rs : List Read) : State :=
  match s.job? id with
  | some j => issueReads s j rs
  | none => s

end Sys2Proof.Machine
end

