-- ==== Sys2Proof/Machine/Farm.lean ====
section
/-! DEFINITION. The entropy pool and the DRBG farm (chapter 13) as other families use them: who owns an instance, requests for words, draws,
zeroization, and how class B alarms and the end of rehearsal mode act (R411, R422, R531). -/

namespace Sys2Proof.Machine

-- Units in service ----------------------------------------------------------------------------------------------------------

/-- A wing in service: not excluded, not failed (R34). -/
def State.wingOk (s : State) (w : Nat) : Bool := decide (w < 8) && s.start.wingsActive.testBit w && !(s.wing w).failed

/-- A bay in service (R206). -/
def State.bayOk (s : State) (b : Nat) : Bool := s.wingOk (b / 8) && !(s.bay b).retired

/-- The bay is guarded (R20). -/
def isGuarded (b : Nat) : Bool := b % 8 == 7

-- Instances -----------------------------------------------------------------------------------------------------------------

/-- The owner of an instance is in service (R407). -/
def instOwned (s : State) (i : Nat) : Bool :=
  if i = 0 then s.up && s.entropy.on
  else if i < 1024 then decide (2 ≤ (s.seat i).state) && decide ((s.seat i).state ≤ 4)
  else s.up && decide (i < 1032) && s.bayOk (8 * (i - 1024) + 7)

/-- Nothing forbids instantiation and reseeding: no class A or class B alarm, no rehearsal (R407, R420, R528). -/
def canSeed (s : State) : Bool := s.up && s.entropy.on && !s.alarms.aActive && !s.alarms.bActive && !s.entropy.rehearsal

/-- Request words for an instance: it takes the next place among requests. -/
def wantWords (s : State) (i n : Nat) (byJob : Bool) (addl : Bytes) (f : Drbg → Drbg) : State :=
  let s := s.modInst i (fun d => f { d with want := n, words := [], reqNo := s.entropy.nextReq, byJob := byJob, addl := addl })
  { s with entropy := { s.entropy with nextReq := s.entropy.nextReq + 1 } }

/-- Instantiation is requested for an EMPTY instance whose owner is in service (R407). -/
def instRequest (s : State) (i : Nat) : State :=
  if canSeed s && instOwned s i && (s.inst i).st == 0 then wantWords s i 3 false [] (fun d => { d with st := 1 }) else s

/-- Every instance that may have an owner in service, in number order. -/
def instNumbers (s : State) : List Nat := s.liveSeats ++ (List.range 8).map (1024 + ·)

def requestAll (s : State) : State := (instNumbers s).foldl instRequest s

/-- Two reseed words are requested (R407); none while a reseed is pending. -/
def reseedRequest (s : State) (i : Nat) (byJob : Bool) (addl : Bytes) : State :=
  if canSeed s && decide (2 ≤ (s.inst i).st) && (s.inst i).want == 0 then wantWords s i 2 byJob addl (fun d => { d with reseed := true }) else s

def zeroInst (s : State) (i : Nat) : State := s.modInst i (fun _ => {})

def zeroAllInst (s : State) : State := { s with entropy := { s.entropy with inst := [], pool := [] } }

/-- Age limits of an instance, ns of secure time. -/
def ageNs (s : State) (d : Drbg) : Nat := s.time.secure - d.seededAt

/-- The instance serves a request (R407, R410): READY and below both limits. -/
def drawOk (s : State) (i : Nat) : Bool :=
  let d := s.inst i
  d.st == 2 && decide (d.reqs < 1048576) && decide (ageNs s d < 1000000000)

/-- One Generate of `n` bytes (R406, R409): one request more; the limits of R407 are judged as it is counted. -/
def draw (s : State) (i n : Nat) (addl : Bytes) : State × Bytes :=
  let d := s.inst i
  let r := drbgGenerate d.key d.v n addl
  let s := s.modInst i (fun d => { d with key := r.2.1, v := r.2.2, reqs := d.reqs + 1 })
  let s := if d.reqs + 1 = 983040 then reseedRequest s i false [] else s
  let s := if d.reqs + 1 = 1048576 then s.modInst i (fun d => { d with st := 3 }) else s
  (s, r.1)

/-- A draw when the instance serves it. -/
def tryDraw (s : State) (i n : Nat) : Option (State × Bytes) := if drawOk s i then some (draw s i n []) else none

-- Words ---------------------------------------------------------------------------------------------------------------------

/-- The personalization string of R406. -/
def drbgPers (s : State) (i : Nat) : Bytes :=
  ascii "GXP drbg" ++ beBytes 2 i ++ beBytes 2 (if i < 1024 then (s.seat i).gen else 0) ++ beBytes 4 s.journal.count ++ beBytes 8 s.keys.epoch

/-- The instance a job draws from: its seat's; a relayed-in job draws from seat 0 (R409). -/
def Job.instance_ (j : Job) : Nat :=
  match j.src with
  | .relayed _ _ => 0
  | _ => j.seat

/-- The consumers that wait on the instance (R408). -/
def waiters (s : State) (i : Nat) : List Job := s.jobs.filter (fun j => j.instance_ == i && j.seedBy.isSome && j.outcome.isNone)

/-- Since when the oldest of them waits; of a reseed that a job asked for, the job itself does not count (R408). -/
def oldestWait (s : State) (i : Nat) (byJob : Bool) : Option Nat :=
  ((waiters s i).filter (fun j => !(byJob && j.reseedWait))).foldl (fun m j => some (min (m.getD j.seedAt) j.seedAt)) none

/-- Place of a request in the order of R408: tier, place in the tier, number. -/
def wordRank (s : State) (i : Nat) (d : Drbg) : Nat × Nat × Nat :=
  if i = 0 || 1024 ≤ i then (1, i, i)
  else
    match oldestWait s i d.byJob with
    | some t => (2, t, i)
    | none => (3, d.reqNo, i)

def rankLt (a b : Nat × Nat × Nat) : Bool :=
  decide (a.1 < b.1) || (a.1 == b.1 && (decide (a.2.1 < b.2.1) || (a.2.1 == b.2.1 && decide (a.2.2 < b.2.2))))

/-- The request the next word goes to. -/
def nextWanted (s : State) : Option Nat :=
  (s.entropy.inst.filter (fun p => decide (0 < p.2.want))).foldl (fun best p =>
    match best with
    | none => some p.1
    | some b => if rankLt (wordRank s p.1 p.2) (wordRank s b (s.inst b)) then some p.1 else some b) none

/-- The last word of a request has come: instantiate, or reseed with the stage time and the additional input of R406. -/
def seedDone (s : State) (i : Nat) : State :=
  let d := s.inst i
  let e := d.words.flatten
  let kv := if d.st = 1 then drbgInstantiate e (drbgPers s i) else drbgReseed d.key d.v e (beBytes 8 s.now ++ d.addl)
  let s := s.modInst i (fun d => { d with st := 2, key := kv.1, v := kv.2, reqs := 0, seededAt := s.time.secure, reseed := false, want := 0,
                                          words := [], byJob := false, addl := [] })
  { s with entropy := { s.entropy with cntSeed := wrapInc 32 s.entropy.cntSeed } }

/-- One word leaves the pool for one request (R405, R408). -/
def deliverWord (s : State) : State :=
  match s.entropy.pool, nextWanted s with
  | w :: rest, some i =>
    let s := { s with entropy := { s.entropy with pool := rest } }
    let s := s.modInst i (fun d => { d with words := d.words ++ [w], want := d.want - 1 })
    if (s.inst i).want = 0 then seedDone s i else s
  | _, _ => s

/-- A consumer begins to wait (R410): its seeding deadline in force, and the request of its instance moves to tier 2. -/
def beginWait (s : State) (id : Nat) : State :=
  match s.job? id with
  | none => s
  | some j =>
    if j.seedBy.isSome then s
    else
      let ms := match j.src with
        | .relayed _ _ => j.rngMs
        | _ => bits (s.seat j.seat).act.opts 15 8
      s.modJob id (fun j => { j with seedAt := s.mono, seedBy := some (s.deadlineAt (ms * 1000000)) })

/-- The consumer waits no longer. -/
def endWait (s : State) (id : Nat) : State := s.modJob id (fun j => { j with seedBy := none })

-- Consumers -----------------------------------------------------------------------------------------------------------------

/-- A job that waits for random values or draws them now (R50, R411): a random job at the farm, a consumer with a seeding wait, a guarded job
that waits in its bay for masks, a blinded job in an input stage before its draws are done, a KEY_GENERATE that waits to start. -/
def isDrawer (j : Job) : Bool :=
  j.outcome.isNone &&
    (match j.phase with
     | .farm _ => j.opcode != 0x52
     | .inBay b => isGuarded b && j.attr.testBit 23 && !j.started
     | .inEng _ => j.blinded && !j.drawDone
     | .store taken => taken && j.opcode == 0x62 && !j.started
     | _ => j.seedBy.isSome)

/-- Complete every waiting or drawing consumer. -/
def failDrawers (s : State) (status : Nat) : State :=
  ((s.jobs.filter isDrawer).map (·.id)).foldl (fun s id => stop s id status 0) s

/-- Sources that are healthy (R404). -/
def healthy (s : State) : Nat := ((List.range 16).filter (fun i => (s.source i).st != 3)).length

/-- A class B alarm (R411, R531): logged and counted; the first of them zeroizes the farm and fails its consumers. -/
def alarmB (s : State) (cause d0 : Nat) : State :=
  let s := almLog s cause 2 d0 0
  let s := { s with alarms := { s.alarms with cntB := satInc 32 s.alarms.cntB } }
  if s.alarms.bActive then s
  else
    let s := { s with alarms := { s.alarms with bActive := true, bCause := cause } }
    vector (failDrawers (zeroAllInst s) stEntropyFailed) 0

/-- Restart a source (R402): 20 us later its start-up test begins. An RNG_RAW job on it goes on with the blocks that follow. -/
def restartSource (s : State) (i : Nat) : State :=
  s.modSource i (fun x => { x with st := 2, testOk := 0, readyAt := s.after 20000 })

/-- The end of rehearsal mode (R422). -/
def endRehearsal (s : State) : State :=
  if s.entropy.rehearsal then
    let s := ((s.jobs.filter (fun j => j.opcode == 0x52)).map (·.id)).foldl (fun s id => stop s id stRngRehearsal 1) s
    let s := (List.range 16).foldl (fun s i =>
      let s := s.modSource i (fun x => { x with raw := none })
      if (s.source i).st = 3 then s else restartSource s i) s
    vector (requestAll { s with entropy := { s.entropy with rehearsal := false, pool := [] } }) 4
  else s

end Sys2Proof.Machine
end

