-- ==== Sys2Proof/Machine/Shamir.lean ====
section
/-! DEFINITION. Secret shares over GF(2^8) (R515): splitting and joining, byte by byte. -/

namespace Sys2Proof.Machine

/-- Inverse in GF(2^8): the 254th power. -/
def gfInv (a : Byte) : Byte :=
  let a2 := gfMul a a
  let a4 := gfMul a2 a2
  let a8 := gfMul a4 a4
  let a16 := gfMul a8 a8
  let a32 := gfMul a16 a16
  let a64 := gfMul a32 a32
  let a128 := gfMul a64 a64
  gfMul a128 (gfMul a64 (gfMul a32 (gfMul a16 (gfMul a8 (gfMul a4 a2)))))

/-- Value at x of the polynomial whose coefficients are given lowest first. -/
def gfEval (coeffs : Bytes) (x : Byte) : Byte := coeffs.foldr (fun c a => c ^^^ gfMul x a) 0

/-- Lagrange weight at 0 of the point `x` among `xs`. -/
def gfWeight (xs : Bytes) (x : Byte) : Byte :=
  (xs.filter (· ≠ x)).foldl (fun a y => gfMul a (gfMul y (gfInv (y ^^^ x)))) 1

/-- Share x of a secret: `coeffs i` are the random coefficients of byte i. -/
def shamirShare (secret : Bytes) (coeffs : List Bytes) (x : Byte) : Bytes :=
  List.zipWith (fun s c => gfEval (s :: c) x) secret coeffs

/-- The secret from shares (x, bytes) with distinct x. -/
def shamirJoin (n : Nat) (shares : List (Byte × Bytes)) : Bytes :=
  let xs := shares.map (·.1)
  (List.range n).map (fun i => shares.foldl (fun a p => a ^^^ gfMul (gfWeight xs p.1) (p.2.getD i 0)) 0)

end Sys2Proof.Machine
end

