-- ==== Sys2Proof/Machine/Time.lean ====
section
/-! DEFINITION. Stage time and secure time (chapter 15): the passing of time, rate, step and slew, holdover, the time port, the pulse per
second, capture, snapshots and secure time. -/

namespace Sys2Proof.Machine

-- Passing of time -----------------------------------------------------------------------------------------------------------

/-- What stage time gains in one nanosecond of REFCLK-derived time (R460), in units of 2^-64 ns: RATE × 2^-48 and the slew of 2^-10. -/
def slewStep (t : TimeBase) : Int :=
  if t.slewing then (if t.slewPos then min (2 ^ 54) t.slewLeft else max (-(2 ^ 54)) t.slewLeft) else 0

/-- One nanosecond of REFCLK-derived time: stage time advances as R460 gives while it runs, secure time by 1 ns (R469), a 64-bit count that
nothing makes smaller (R470). -/
def timeTick (t : TimeBase) : TimeBase :=
  let t := { t with secure := max t.secure (min (t.secure + 1) (2 ^ 64 - 1)) }
  if t.runs then
    let d := slewStep t
    let total := ((t.mono * 2 ^ 48 + t.sub : Nat) : Int) + 2 ^ 64 + t.rate * 2 ^ 16 + d
    { t with mono := total.toNat / 2 ^ 48, sub := total.toNat % 2 ^ 48, slewLeft := t.slewLeft - d }
  else t

/-- What an empty queue does: one nanosecond passes (log entry 1). Nothing advances while VAON is out of range. -/
def tick (s : State) : State := if s.start.vaonBad then s else { s with time := timeTick s.time }

-- Starting and stopping -----------------------------------------------------------------------------------------------------

/-- PPS: the first whole second stage time reaches by advancing (R467). -/
def nextSecond (ns : Nat) : Nat := (ns / 1000000000 + 1) * 1000000000

/-- At the assertion of a reset: the lead, stage time less secure time in whole nanoseconds, is recorded and stage time stops (R458). -/
def timeStop (s : State) : State :=
  if s.time.runs then
    { s with time := { s.time with runs := false, lead := s.now - s.time.secure, leadGood := true } }
  else s

/-- The registers and pins of the time base at BLKRST_N: everything but the always-on part (R544), to which TIME_SEC_HI belongs (R94, R474). -/
def timeReset (t : TimeBase) (porst : Bool) : TimeBase :=
  { secure := t.secure, secSnap := t.secSnap, secGood := t.secGood, lead := t.lead, leadGood := t.leadGood, secRestarted := t.secRestarted
    refAbsent := t.refAbsent, refIs := t.refIs, refKhz := if porst then 0 else t.refKhz }

/-- Frequencies start step 2 takes for REFCLK when TIME_REF_KHZ is 0 (R459), kHz. -/
def refList : List Nat := [10000, 12500, 20000, 25000, 50000, 100000, 125000, 156250]

/-- The measured REFCLK by R459: the nearest of the list when within 5 % of it, else rounded to 10 kHz with REF_UNLISTED. -/
def refMeasure (khz : Nat) : Nat × Bool :=
  match refList.find? (fun f => decide (f * 95 ≤ khz * 100) && decide (khz * 100 ≤ f * 105)) with
  | some f => (f, false)
  | none => ((khz + 5) / 10 * 10, true)

/-- Start of stage time at step 2 (R458, R459, R563). -/
def timeStart (s : State) : State :=
  let t := s.time
  let v := t.secure + if t.leadGood then t.lead else 0
  let t := { t with mono := v * nsUnit, offset := 0, sub := 0, runs := true, ppsNext := nextSecond v, portDue := v * nsUnit,
                    epochDue := v * nsUnit + 1000 * nsUnit, advDue := v * nsUnit + 1000 * nsUnit, timeDue := v * nsUnit + 1000 * nsUnit,
                    reseedDue := v * nsUnit + 1000000 * nsUnit, promptDue := v * nsUnit + 100 * nsUnit }
  if t.refAbsent then
    let t := { t with refUsed := t.refKhz, holdover := true, refLost := true }
    alarmC { s with time := t } 0x42 0 0
  else if t.refKhz = 0 then
    { s with time := { t with refUsed := (refMeasure t.refIs).1, unlisted := t.unlisted || (refMeasure t.refIs).2 } }
  else { s with time := { t with refUsed := t.refKhz } }

-- REFCLK --------------------------------------------------------------------------------------------------------------------

/-- REFCLK has shown no rising edge for 2 us (R84, R465): the time base holds over and a class C alarm is raised, in holdover too when a REFCLK that came back off
its frequency stops again. -/
def refLose (s : State) : State :=
  let ran := !s.time.refAbsent
  let s := { s with time := { s.time with refAbsent := true } }
  if s.up && s.time.runs && ran then vector (alarmC { s with time := { s.time with holdover := true, refLost := true } } 0x42 0 0) 6 else s

def execRefclkLost (s : State) : Out := ok (refLose s)

/-- REFCLK shows 1,024 consecutive cycles at `khz` (R465, R563): the time base returns to it without a step when TIME_REF_USED reads 0, which
it then measures, or when the frequency lies within 1 % of TIME_REF_USED. -/
def refBack (s : State) (khz : Nat) : State :=
  let s := { s with time := { s.time with refAbsent := false, refIs := khz } }
  let t := s.time
  if s.up && t.runs && t.holdover then
    if t.refUsed = 0 then
      let m := refMeasure khz
      vector { s with time := { t with refUsed := m.1, unlisted := t.unlisted || m.2, holdover := false } } 6
    else if t.refUsed * 99 ≤ khz * 100 ∧ khz * 100 ≤ t.refUsed * 101 then
      vector { s with time := { t with holdover := false } } 6
    else s
  else s

-- Time port and pulse per second --------------------------------------------------------------------------------------------

/-- A new value on the time port (R79): every 8 ns of stage time, TIME_SEQ one more, TIME_STEP with the first value after a step. It runs on
PKCLK (R78). -/
def portValue (s : State) : State :=
  let t := s.time
  if s.up && t.runs && s.due t.portDue && !s.mem.stalled.contains .pkclk then
    { s with time := { t with portNs := s.now, portFrac := s.stamp % nsUnit, portStepOut := t.portStep, portStep := false
                              portSeq := (t.portSeq + 1) % 4, portDue := t.portDue + 8 * nsUnit } }
  else s

def execTimePortValue (s : State) : Out := ok (portValue s)

/-- PPS_OUT rises when stage time reaches a whole second by advancing (R81, R467); the width in force is taken then. -/
def ppsUp (s : State) : State :=
  let t := s.time
  if s.up && t.runs && !t.ppsHigh && decide (t.ppsNext ≤ s.now) then
    { s with time := { t with ppsHigh := true, ppsRose := t.ppsNext, ppsNext := t.ppsNext + 1000000000, ppsWidth := t.ppsCfg } }
  else s

def execPpsRise (s : State) : Out := ok (ppsUp s)

/-- PPS_OUT falls WIDTH_US × 1,000 ns after its rising instant (R467). -/
def ppsDown (s : State) : State :=
  let t := s.time
  if t.ppsHigh && decide (t.ppsRose + t.ppsWidth * 1000 ≤ s.now) then { s with time := { t with ppsHigh := false } } else s

def execPpsFall (s : State) : Out := ok (ppsDown s)

-- Capture -------------------------------------------------------------------------------------------------------------------

def State.capture (s : State) (n : Nat) : Capture := tabGet {} s.time.capt n

def State.setCapture (s : State) (n : Nat) (c : Capture) : State := { s with time := { s.time with capt := tabSet {} s.time.capt n c } }

/-- A rising edge on CAPT[n] (R82, R468): stamped when its EN bit is set and at least 100 ns after the last stamped edge, else counted in
FAST; a stamp that finds VALID set sets LOST; PROMPT raises vector 6. -/
def capEdge (s : State) (n : Nat) : State :=
  if s.up && s.time.runs && decide (n < 8) && s.time.captCfg.testBit n then
    let c := s.capture n
    let early := match c.lastAt with
      | some l => decide (s.mono < l + 100 * nsUnit)
      | none => false
    if early then s.setCapture n { c with fast := satInc 8 c.fast }
    else
      let s := s.setCapture n { c with stamp := s.stamp, valid := true, lost := c.lost || c.valid, lastAt := some s.mono }
      if s.time.captCfg.testBit (8 + n) then vector s 6 else s
  else s

def execCaptureEdge (n : Nat) (s : State) : Out := ok (capEdge s n)

/-- TIME_CAPT_STS of an input: fraction of the snapshot, VALID, LOST, FAST. -/
def capWord (c : Capture) : Nat := (c.stamp % nsUnit) * 2 ^ 16 + flag c.valid 15 + flag c.lost 14 + c.fast

/-- A read of TIME_CAPT_STS of input n (R468): the snapshot is taken and VALID, LOST and FAST clear. -/
def execCaptureSnapshot (n : Nat) (s : State) : Out :=
  ok (hregRead s (0x80100 + 0x10 * n) 0 (fun s =>
    if n < 8 then
      let c := s.capture n
      readBack (s.setCapture n { c with snap := c.stamp, valid := false, lost := false, fast := 0 }) (capWord c)
    else s))

/-- A read of TIME_NOW_LO (R466): the whole of stage time is taken as the snapshot. -/
def execNowSnapshot (s : State) : Out :=
  ok (hregRead s 0x80004 0 (fun s => readBack { s with time := { s.time with snap := s.stamp } } (s.now % 2 ^ 32)))

/-- A read of TIME_SEC_LO: secure time is taken as its snapshot. -/
def execSecureSnapshot (s : State) : Out :=
  ok (hregRead s 0x80040 0 (fun s => readBack { s with time := { s.time with secSnap := s.time.secure } } (s.time.secure % 2 ^ 32)))

-- Rate, step and slew -------------------------------------------------------------------------------------------------------

/-- A two's-complement number of `w` bits. -/
def toInt (w n : Nat) : Int := if n % 2 ^ w < 2 ^ (w - 1) then (n % 2 ^ w : Nat) else (n % 2 ^ w : Nat) - (2 ^ w : Nat)

/-- A write to TIME_RATE_HI (R460, R466, R474): both words take effect as one 40-bit value, within −2^38 and 2^38. -/
def rateHi (s : State) (v : W32) : State :=
  let hi := v.toNat % 256
  let r := toInt 40 (hi * 2 ^ 32 + s.time.rateLo)
  if s.time.follower || decide (r < -(2 ^ 38)) || decide (2 ^ 38 < r) then refuse s 0x80014 v
  else { s with time := { s.time with rateHi := hi, rate := r } }

def execRateWrite (value : W32) (s : State) : Out := ok (mgrWrite s 0x80014 (rateHi · value))

/-- The word a TIME_ADJ_CTL command writes. -/
def adjWord (cmd : Nat) (frac : BitVec 16) : W32 := w32 (cmd * 2 ^ 30 + frac.toNat)

/-- The signed offset of TIME_ADJ_LO and TIME_ADJ_HI, ns. -/
def adjNs (t : TimeBase) : Int := toInt 64 (t.adjHi * 2 ^ 32 + t.adjLo)

/-- Apply a step of `d` units of 2^-16 ns to stage time (R461): every pending instant moves with it (R463), a slew ends, PPS_OUT falls, the
next time port value carries TIME_STEP. -/
def applyStep (s : State) (d : Int) : State :=
  let t := s.time
  let stage := ((s.stamp : Int) + d).toNat / nsUnit
  { s with time := { t with offset := (s.stamp : Int) + d - t.mono, slewing := false, slewLeft := 0, stepped := true, cntStep := wrapInc 32 t.cntStep
                            portStep := true, ppsHigh := false, ppsNext := nextSecond stage } }

/-- STEP (R461, R466, R474): refused while this instance follows its package's master, and when the result leaves 0 to 2^64 − 1 ns. -/
def stepCmd (s : State) (frac : BitVec 16) : State :=
  let d := adjNs s.time * nsUnit + frac.toNat
  let r := (s.stamp : Int) + d
  if s.time.follower || decide (r < 0) || decide (((2 ^ 64 - 1 : Int)) * nsUnit < r) then refuse s 0x80020 (adjWord 1 frac)
  else applyStep s d

def execTimeStep (frac : BitVec 16) (s : State) : Out := ok (mgrWrite s 0x80020 (stepCmd · frac))

/-- SLEW (R462): the offset in TIME_ADJ replaces what is left of any slew; it must lie within 2^31 − 1 ns and have no fraction; an offset of
zero completes at once with vector 6. -/
def slewCmd (s : State) (frac : BitVec 16) : State :=
  let d := adjNs s.time
  if s.time.follower || frac.toNat ≠ 0 || decide (d < -(2 ^ 31 - 1)) || decide (2 ^ 31 - 1 < d) then refuse s 0x80020 (adjWord 2 frac)
  else if d = 0 then vector { s with time := { s.time with slewing := false, slewLeft := 0 } } 6
  else { s with time := { s.time with slewing := true, slewLeft := d * 2 ^ 64, slewPos := decide (0 < d) } }

def execSlew (frac : BitVec 16) (s : State) : Out := ok (mgrWrite s 0x80020 (slewCmd · frac))

/-- CANCEL (R462): what is left of a slew is removed, without a vector. -/
def cancelCmd (s : State) : State :=
  if s.time.follower then refuse s 0x80020 (adjWord 3 0)
  else { s with time := { s.time with slewing := false, slewLeft := 0 } }

def execCancelSlew (s : State) : Out := ok (mgrWrite s 0x80020 cancelCmd)

/-- SLEW_LEFT has reached zero by running (R462): vector 6. -/
def slewEnd (s : State) : State :=
  if s.up && s.time.slewing && s.time.slewLeft == 0 then vector { s with time := { s.time with slewing := false } } 6 else s

def execSlewDone (s : State) : Out := ok (slewEnd s)

/-- A write to TIME_ADJ_CTL: a reserved CMD is ignored with an alarm (R474). -/
def adjCtl (s : State) (v : W32) : State :=
  match bits v.toNat 31 30 with
  | 1 => stepCmd s (BitVec.ofNat 16 v.toNat)
  | 2 => slewCmd s (BitVec.ofNat 16 v.toNat)
  | 3 => cancelCmd s
  | _ => refuse s 0x80020 v

-- Secure time ---------------------------------------------------------------------------------------------------------------

/-- Secure time after `k` seconds are added (R470). A sum past the 64 bits of R469 has no stated value: a free value that is not smaller than
before (log entry 63). -/
def secSum (free old k : Nat) : Nat :=
  let n := old + k * 1000000000
  if n < 2 ^ 64 then n else old + free % (2 ^ 64 - old)

/-- TIME_SEC_ADV (R470): k × 10^9 ns are added; 0 is ignored. -/
def secAdv (s : State) (v : W32) : State :=
  { s with freeCount := if s.time.secure + v.toNat * 1000000000 < 2 ^ 64 then s.freeCount else s.freeCount + 1
           time := { s.time with secure := secSum (Config.free s.freeCount) s.time.secure v.toNat } }

def execSecAdvance (value : W32) (s : State) : Out := ok (mgrWrite s 0x80048 (secAdv · value))

-- Registers -----------------------------------------------------------------------------------------------------------------

/-- TIME_SLEW_LEFT: the remaining slew in ns, two's complement, rounded toward zero. -/
def slewWord (t : TimeBase) : Nat := ((Int.tdiv t.slewLeft (2 ^ 64)) % (2 ^ 32)).toNat

/-- Reads of the time range. -/
def timeReg (s : State) (off : Nat) : Nat :=
  let t := s.time
  if off = 0x80000 then
    flag t.holdover 31 + flag t.slewing 30 + flag t.follower 29 + flag t.secRestarted 28 + flag t.refLost 27 + flag t.stepped 26 + flag t.unlisted 25
  else if off = 0x80004 then s.now % 2 ^ 32
  else if off = 0x80008 then t.snap / nsUnit / 2 ^ 32
  else if off = 0x8000C then t.snap % nsUnit
  else if off = 0x80010 then t.rateLo
  else if off = 0x80014 then t.rateHi
  else if off = 0x80018 then t.adjLo
  else if off = 0x8001C then t.adjHi
  else if off = 0x80024 then slewWord t
  else if off = 0x80028 then t.refKhz
  else if off = 0x8002C then t.refUsed
  else if off = 0x80030 then t.ppsCfg
  else if off = 0x80034 then t.captCfg
  else if off = 0x80040 then t.secure % 2 ^ 32
  else if off = 0x80044 then t.secSnap / 2 ^ 32
  else if off = 0x8004C then t.cntStep
  else if 0x80100 ≤ off ∧ off < 0x80180 then
    let c := s.capture ((off - 0x80100) / 16)
    match off % 16 with
    | 0 => capWord c
    | 4 => c.snap / nsUnit % 2 ^ 32
    | 8 => c.snap / nsUnit / 2 ^ 32
    | _ => 0
  else 0

/-- Writes to the time range by the physical function (R474); other offsets ignore them (R9). -/
def timeWrite (s : State) (off : Nat) (v : W32) : State :=
  let n := v.toNat
  match off with
  | 0x80000 =>
    { s with time := { s.time with secRestarted := s.time.secRestarted && !n.testBit 28, refLost := s.time.refLost && !n.testBit 27
                                   stepped := s.time.stepped && !n.testBit 26, unlisted := s.time.unlisted && !n.testBit 25 } }
  | 0x80010 => { s with time := { s.time with rateLo := n } }
  | 0x80014 => rateHi s v
  | 0x80018 => { s with time := { s.time with adjLo := n } }
  | 0x8001C => { s with time := { s.time with adjHi := n } }
  | 0x80020 => adjCtl s v
  | 0x80028 =>
    let k := n % 2 ^ 18
    if k = 0 ∨ (10000 ≤ k ∧ k ≤ 156250) then { s with time := { s.time with refKhz := k } } else refuse s off v
  | 0x80030 =>
    let k := n % 2 ^ 20
    if 1 ≤ k ∧ k ≤ 999999 then { s with time := { s.time with ppsCfg := k } } else refuse s off v
  | 0x80034 => { s with time := { s.time with captCfg := n % 2 ^ 16 } }
  | 0x80048 => secAdv s v
  | _ => s

end Sys2Proof.Machine
end

