-- ==== Sys2Proof/Machine/Card.lean ====
section
/-! DEFINITION. The custodian card port (chapter 17): pins and clock, activation, T=1, certificates, commands, authorizations, shares of the
block wrap key, and the custodian journal. -/

namespace Sys2Proof.Machine

def State.modCust (s : State) (f : Cust → Cust) : State := { s with cust := f s.cust }

-- Clock ---------------------------------------------------------------------------------------------------------------------

/-- Fi and Di of a TA1 byte, when R496 supports them. -/
def cardFi (ta1 : Nat) : Option Nat :=
  match ta1 / 16 with
  | 0 => some 372
  | 1 => some 372
  | 9 => some 512
  | _ => none

def cardDi (ta1 : Nat) : Option Nat :=
  match ta1 % 16 with
  | 1 => some 1
  | 2 => some 2
  | 3 => some 4
  | 4 => some 8
  | 5 => some 16
  | 6 => some 32
  | _ => none

def cardSupported (ta1 : Nat) : Bool := (cardFi ta1).isSome && (cardDi ta1).isSome

/-- Largest clock of an Fi code, kHz (log entry 26). -/
def cardFmax (ta1 : Nat) : Nat := if ta1 / 16 = 0 then 4000 else 5000

/-- The dividers of R497 from TIME_REF_USED. -/
def holdDiv (ref : Nat) : Nat := max 1 (ref / 1000)

def runDiv (ref fmax100 fidi : Nat) : Nat := max 1 (ceilDiv ref (min (fmax100 * 100) (cardFmax fidi)))

/-- The divider in use: the run divider in READY and BUSY, else the hold divider. -/
def cardDiv (s : State) : Nat :=
  if s.cust.st = 4 ∨ s.cust.st = 5 then runDiv s.time.refUsed (bits s.cust.cfg 7 0) s.cust.fidi else holdDiv s.time.refUsed

/-- `n` CUST_CLK cycles in units of 2^-16 ns. -/
def cycles (s : State) (n : Nat) : Nat := n * cardDiv s * 1000000 * nsUnit / max 1 s.time.refUsed

/-- `n` ETU. -/
def etus (s : State) (n : Nat) : Nat := cycles s (n * (cardFi s.cust.fidi).getD 372 / max 1 ((cardDi s.cust.fidi).getD 1))

/-- Block wait BWT (R505): 11 ETU and 2^BWI × 960 × 372 cycles at the run clock; character wait CWT. -/
def bwt (s : State) : Nat :=
  let c (n : Nat) : Nat := n * runDiv s.time.refUsed (bits s.cust.cfg 7 0) s.cust.fidi * 1000000 * nsUnit / max 1 s.time.refUsed
  etus s 11 + c (2 ^ s.cust.bwi * 960 * 372)

def cwt (s : State) : Nat := etus s (11 + 2 ^ s.cust.cwi)

-- Journal -------------------------------------------------------------------------------------------------------------------

def State.custRec (s : State) (i : Nat) : CustRec := tabGet {} s.cust.recs i

def State.modCustRec (s : State) (i : Nat) (f : CustRec → CustRec) : State :=
  s.modCust (fun c => { c with recs := tabSet {} c.recs i (f (s.custRec i)) })

/-- Set the phase of a record, with the secure time of the change (R518). -/
def recPhase (s : State) (i p : Nat) : State := s.modCustRec i (fun r => { r with phase := p, secureT := s.secs })

/-- Records 0x01 and 0x02 are open. -/
def CustRec.isOpen (r : CustRec) : Bool := r.phase == 1 || r.phase == 2

/-- The record a new transaction takes: the oldest that is not open. -/
def freeRec (s : State) : Option Nat :=
  ((List.range 31).filter (fun i => !(s.custRec i).isOpen)).foldl (fun best i =>
    match best with
    | none => some i
    | some b => if (s.custRec i).txn < (s.custRec b).txn then some i else some b) none

/-- When the last character of a write has been sent its record is in COMMIT (R519): what a command finds when no step has passed since. -/
def cardCatchUp (s : State) : State :=
  match s.cust.jrec with
  | some i => if (s.custRec i).phase = 1 ∧ s.cust.outInf = [] ∧ s.due s.cust.sendEnd then recPhase s i 2 else s
  | none => s

/-- A record is settled (R520, R521): CUST_RECON and vector 8. -/
def recSettle (s : State) (i p out : Nat) : State :=
  vector ((recPhase s i p).modCust (fun c => { c with resolved := true, outcome := out, recSettled := i })) 8

/-- The journal's bytes (R518). -/
def custRecBytes (r : CustRec) : Bytes :=
  let b := leBytes 4 r.txn ++ leBytes 8 r.card ++ leBytes 1 r.kind ++ leBytes 1 r.phase ++ zeros 2 ++ leBytes 8 r.secureT ++ leBytes 4 r.detail ++ zeros 32
  b ++ leBytes 4 (crc32c b)

def custJournalBytes (s : State) : Bytes :=
  let h := ascii "CJRN" ++ leBytes 4 s.cust.nextTxn ++ zeros 52
  h ++ leBytes 4 (crc32c h) ++ ((List.range 31).map (fun i => custRecBytes (s.custRec i))).flatten

-- Block wrap key ------------------------------------------------------------------------------------------------------------

/-- BWK, when it is held sealed under the BK of this start (R369). -/
def bwkOf (s : State) : Option Bytes :=
  match s.keys.bwk, s.keys.bk with
  | some (b, k), some k' => if k = k' then some b else none
  | _, _ => none

-- Authorizations ------------------------------------------------------------------------------------------------------------

/-- An authorization in force: its end is later than secure time (R472, R514, R522). -/
def authInForce (s : State) (act : Nat) : Bool := s.cust.auth.any (fun p => p.1 == act && decide (s.time.secure < p.2))

def endAuth (s : State) (act : Nat) : State := s.modCust (fun c => { c with auth := c.auth.filter (fun p => !(p.1 == act)) })

-- Ends ----------------------------------------------------------------------------------------------------------------------

/-- A command ends with a status (R512): CUST_CMD_STS and vector 8. What the port does with the card of its own goes on. -/
def cmdDone (s : State) (status sub : Nat) : State :=
  vector (s.modCust (fun c => { c with busy := false, sts := c.cmd * 2 ^ 16 + sub * 2 ^ 8 + status })) 8

/-- A command that has used the card ends, and with it its exchange. -/
def cmdEnd (s : State) (status sub : Nat) : State :=
  cmdDone (s.modCust (fun c =>
    { c with st := if c.st = 5 then 4 else c.st, jrec := none, op := .none, polling := false, challenge := [], ephPriv := [] })) status sub

/-- Deactivation in the order of R92; what the activation learned is forgotten. -/
def cardOff (s : State) : State :=
  s.modCust (fun c =>
    { c with rstn := false, rstAt := none, clkDiv := 0, divNext := none, ioLow := true, vcc := false, clkStopped := false, clkStopOk := false, fidi := 0x11, ifsc := 0x20
             bwi := 4, cwi := 13, waiting := false, ppsWant := none, ns := false, nr := false, outInf := [], sentInf := [], inInf := [], answering := false
             fails := 0, resynchs := 0, wtx := 1, op := .none, resyncing := false, polling := false, apdu := [], answer := [], cert := none, cardId := 0
             settle := [], lastSent := [] })

/-- The open write of a deactivated card (R519): rolled back from DATA, left open in COMMIT. Answers the subcode of R521. -/
def cutWrite (s : State) : State × Nat :=
  let s := cardCatchUp s
  match s.cust.jrec with
  | none => (s, 0)
  | some i => if (s.custRec i).phase = 1 then (recPhase s i 4, 1) else if (s.custRec i).phase = 2 then (s, 2) else (s, 0)

/-- A command cut off by removal or deactivation ends with CARD_INTERRUPTED (R521), or with the status given. -/
def cardCut (s : State) (st : Nat) (status : Option Nat) : State :=
  let r := cutWrite s
  let s := cardOff r.1
  let s := if s.cust.busy then (match status with | some x => cmdEnd s x 0 | none => cmdEnd s stCardInterrupted r.2) else s
  s.modCust (fun c => { c with st := st, second := false, jrec := none })

/-- The card enters FAILED (R508): vector 8. -/
def cardFailed (s : State) : State := vector (s.modCust (fun c => { c with st := 6, second := false })) 8

/-- A class A alarm deactivates the card, ends its command with ALARM_ABORT, every authorization and the shares held (R508, R514, R516, R521). -/
def cardAlarm (s : State) : State :=
  let s := if s.cust.st = 0 then s else cardFailed (cardCut s 6 (some stAlarmAbort))
  s.modCust (fun c => { c with auth := [], shares := [], sharesM := 0 })

-- Sending -------------------------------------------------------------------------------------------------------------------

/-- LRC of a block. -/
def lrc (b : Bytes) : Byte := b.foldl (· ^^^ ·) 0

/-- Send a T=1 block (R504): 11 ETU a character, 16 more in HOLD (R502), after 700 cycles when the clock is stopped (R507). A divider that has changed is in use
from the end of the character before (R497). -/
def sendBlock (s : State) (pcb : Nat) (inf : Bytes) : State :=
  let b : Bytes := [0, BitVec.ofNat 8 pcb, BitVec.ofNat 8 inf.length] ++ inf
  let b := b ++ [lrc b]
  let start := max s.mono s.cust.sendEnd + if s.cust.clkStopped then cycles s 700 else 0
  let ends := start + etus s (b.length * (if s.cust.st = 3 then 27 else 11))
  s.modCust (fun c => { c with lastSent := b, sendEnd := ends, clkStopped := false, clkDiv := if s.due c.sendEnd then cardDiv s else c.clkDiv })

/-- Send the next I-block of the APDU: at most IFSC bytes, M set while more follow. -/
def sendI (s : State) : State :=
  let k := s.cust.outInf.take s.cust.ifsc
  let rest := s.cust.outInf.drop s.cust.ifsc
  let s := s.modCust (fun c => { c with outInf := rest, sentInf := k, answering := false })
  let s := sendBlock s (flag s.cust.ns 6 + flag (!rest.isEmpty) 5) k
  if s.cust.polling then s else s.modCust (fun c => { c with cmdAt := c.sendEnd })

/-- R-block naming the expected N(S). -/
def sendR (s : State) (err : Nat) : State := sendBlock s (0x80 + flag s.cust.nr 4 + err) []

/-- Send again the block that an R-block can name (R505): S(IFS request) while it is unanswered, else the I-block last sent; an R-block is never named by one. -/
def resendLast (s : State) : State :=
  if s.cust.op = .ifs then sendBlock s 0xC1 [254] else sendBlock s (flag s.cust.ns 6 + flag (!s.cust.outInf.isEmpty) 5) s.cust.sentInf

/-- Begin an exchange with a command APDU, CLA 0x80 (R511; its remaining header bytes by log entry 27). -/
def startApdu (s : State) (op : CardOp) (ins : Nat) (data : Bytes) : State :=
  let a : Bytes := [0x80, BitVec.ofNat 8 ins, 0, 0, BitVec.ofNat 8 data.length] ++ data
  sendI (s.modCust (fun c => { c with op := op, apdu := a, outInf := a, inInf := [], answer := [], fails := 0, resynchs := 0, wtx := 1, polling := false }))

-- Certificates --------------------------------------------------------------------------------------------------------------

/-- ECDSA P-384 over SHA-384 of a message, signature r ‖ s. -/
def p384Check (pub msg sig : Bytes) : Bool :=
  match p384.decode pub with
  | .error _ => false
  | .ok q =>
    let r := beNat (sig.take 48)
    let t := beNat ((sig.drop 48).take 48)
    sig.length == 96 && decide (0 < r) && decide (r < p384.n) && decide (0 < t) && decide (t < p384.n) && p384.verify q (sha384 msg) r t

/-- The subcode that refuses a certificate (R510): 0 accepted, 0x21, or 0x23 when it has only expired. -/
def certJudge (s : State) (c : Bytes) : Nat :=
  let cert := c.take 209
  let root := c.drop 209
  if c.length ≠ 305 ∨ !s.cust.rootSet ∨ sha384 root ≠ s.cust.rootHash ∨ !p384Check root (cert.take 113) (cert.drop 113) then 0x21
  else if fieldBE cert 105 8 ≤ s.secs then 0x23
  else 0

def certId (c : Bytes) : Nat := fieldBE c 0 8
def certRoles (c : Bytes) : Nat := (c.getD 8 0).toNat
def certKey (c : Bytes) : Bytes := sliceZ c 9 96

/-- Role bit a command needs: the act's, or SHARE (R510, R512). -/
def roleBit (cmd arg : Nat) : Nat := if cmd = 2 then arg % 4 - 1 else 3

-- Transport -----------------------------------------------------------------------------------------------------------------

/-- The transport key of a share (R515), from the block's ephemeral private half and the card's certified key. -/
def shareKey (priv : Nat) (cert : Bytes) : Option Bytes :=
  match p384.decode (certKey cert) with
  | .error _ => none
  | .ok q =>
    match jAffine p384.p (jMul p384.p priv q) with
    | some (x, _) => some (hkdf 3 (beBytes 48 x) [] (ascii "Pysia share" ++ sliceZ cert 0 8) 32)
    | none => none

/-- Check value of R515. -/
def bwkCheck (bwk : Bytes) : Bytes := (sha384 (ascii "GXP bwk check" ++ bwk)).take 8

/-- Share x of the split of R517. -/
def bwkShare (bwk : Bytes) (split m x : Nat) : Bytes :=
  let cs := (List.range (m - 1)).map (fun j => ladderKdf bwk "GXP split" (beBytes 4 split ++ beBytes 1 m ++ beBytes 1 (j + 1)))
  shamirShare bwk ((List.range 32).map (fun k => cs.map (fun c => c.getD k 0))) (BitVec.ofNat 8 x)

/-- The 47-byte share record of R515. -/
def shareRec (split x m n : Nat) (bwk : Bytes) : Bytes :=
  beBytes 4 split ++ beBytes 1 x ++ beBytes 1 m ++ beBytes 1 n ++ bwkCheck bwk ++ bwkShare bwk split m x

def shareOf (b : Bytes) : Share :=
  { splitId := fieldBE b 0 4, x := fieldBE b 4 1, m := fieldBE b 5 1, n := fieldBE b 6 1, check := sliceZ b 7 8, share := sliceZ b 15 32 }

-- Commands of the card ------------------------------------------------------------------------------------------------------

/-- Take a journal record for a write (R518, R519): PHASE DATA before the first character. -/
def takeRec (s : State) (i kind card detail : Nat) : State :=
  let t := s.cust.nextTxn
  (s.modCustRec i (fun _ => { txn := t, card := card, kind := kind, phase := 1, secureT := s.secs, detail := detail })).modCust
    (fun c => { c with nextTxn := (t + 1) % 2 ^ 32, jrec := some i })

/-- Send AUTHORIZE (R513). -/
def sendAuthorize (s : State) (cert : Bytes) : State :=
  match freeRec s with
  | none => cmdEnd s stQuota 0x40
  | some i =>
    match tryDraw s 0 32 with
    | none => s
    | some (s, nonce) =>
      let act := s.cust.arg % 4
      let t := s.cust.nextTxn
      let vers := if act = 2 then beBytes 4 s.start.acceptSmf ++ beBytes 4 s.start.acceptSqm else zeros 8
      let ch := ascii "GXPA" ++ beBytes 1 act ++ beBytes 4 0x47585064 ++ beBytes 4 s.keys.epochTag ++ nonce ++ beBytes 4 t ++ vers
      let s := takeRec s i 0x30 (certId cert) act
      startApdu (s.modCust (fun c => { c with challenge := ch, voided := false })) .authorize 0x30 ch

/-- Send GET_SHARE (R516) under a fresh ephemeral key. -/
def sendGetShare (s : State) : State :=
  match tryDraw s 0 56 with
  | none => s
  | some (s, r) =>
    let d := p384.scalar r
    startApdu (s.modCust (fun c => { c with ephPriv := beBytes 48 d })) .getShare 0x40 (p384.pub d)

/-- Send PUT_SHARE (R517). -/
def sendPutShare (s : State) (cert bwk : Bytes) : State :=
  match freeRec s with
  | none => cmdEnd s stQuota 0x40
  | some i =>
    match tryDraw s 0 56 with
    | none => s
    | some (s, r) =>
      let d := p384.scalar r
      match shareKey d cert with
      | none => cmdEnd s stAuthFail 0x21
      | some k =>
        let a := s.cust.arg
        let sealed := gcmSeal k (zeros 12) [] (shareRec s.cust.split (bits a 4 0) (bits a 12 8) (bits a 20 16) bwk)
        let t := s.cust.nextTxn
        let s := takeRec s i 0x50 (certId cert) s.cust.split
        startApdu s .putShare 0x50 (beBytes 4 t ++ p384.pub d ++ sealed.1 ++ sealed.2)

/-- The command in progress goes on once its certificate is held (R510). -/
def cmdGo (s : State) (cert : Bytes) : State :=
  let j := certJudge s cert
  if j ≠ 0 then cmdEnd s stAuthFail j
  else if !(certRoles cert).testBit (roleBit s.cust.cmd s.cust.arg) then cmdEnd s stAuthFail 0x22
  else if s.cust.cmd = 2 then sendAuthorize s cert
  else if s.cust.cmd = 3 then sendGetShare s
  else
    match bwkOf s with
    | none => cmdEnd s stKeyHandle 0x40
    | some b => sendPutShare s cert b

/-- A card in READY with no exchange does what comes next: reconciliation (R520), then the manager's command. -/
def cardGo (s : State) : State :=
  let c := s.cust
  if !(c.st = 4 ∨ c.st = 5) ∨ c.op ≠ .none ∨ c.resyncing then s
  else
    match c.cert, c.settle with
    | none, _ :: _ => startApdu s .getCert 0x20 []
    | some cert, _ :: _ =>
      let mine := c.settle.filter (fun i => (s.custRec i).isOpen && (s.custRec i).card == certId cert)
      let s := s.modCust (fun c => { c with settle := mine })
      match mine with
      | i :: _ => startApdu s .checkCommit 0x60 (beBytes 4 (s.custRec i).txn ++ beBytes 4 s.keys.epochTag)
      | [] => if c.busy then cmdGo (s.modCust (fun c => { c with st := 5 })) cert else s
    | none, [] => if c.busy then startApdu (s.modCust (fun c => { c with st := 5 })) .getCert 0x20 [] else s
    | some cert, [] => if c.busy then cmdGo (s.modCust (fun c => { c with st := 5 })) cert else s

/-- Open records, oldest first. -/
def openRecs (s : State) : List Nat :=
  ((List.range 31).filter (fun i => (s.custRec i).isOpen)).foldr (fun i l =>
    (l.filter (fun k => decide ((s.custRec k).txn < (s.custRec i).txn))) ++ i :: l.filter (fun k => !decide ((s.custRec k).txn < (s.custRec i).txn))) []

/-- The card answers READY (R502, R508): the run clock, reconciliation, vector 8. -/
def cardReady (s : State) : State :=
  let s := vector (s.modCust (fun c => { c with st := 4, op := .none })) 8
  let s := s.modCust (fun c => { c with clkDiv := cardDiv s })
  cardGo (s.modCust (fun c => { c with settle := openRecs s }))

/-- Outcome of a status word other than done (R511). -/
def swFail (s : State) (sw : Nat) : State :=
  if sw = 0x6982 then cmdEnd s stAuthFail 0x27
  else if sw = 0x6A82 then cmdEnd s stAuthFail 0x26
  else cmdEnd s stInternal 0x0B

/-- The final status word of a write sets its record's phase (R519); a removal in the same character time takes it back (R522). -/
def writeDone (s : State) (sw : Nat) : State :=
  match s.cust.jrec with
  | some i =>
    let sec := (s.custRec i).secureT
    (recPhase s i (if sw = 0x9000 then 3 else 4)).modCust (fun c => { c with lastWrite := some (i, s.mono, sec) })
  | none => s

/-- The signature of AUTHORIZE has come (R513, R514). An authorization of a pair of versions of which one has been written since ends as it begins, so that no
pair is accepted but the one it names (R124, log entry 92). -/
def authorizeDone (s : State) (sig : Bytes) : State :=
  let cert := s.cust.cert.getD []
  let act := s.cust.arg % 4
  if p384Check (certKey cert) s.cust.challenge sig then
    let secs := if act = 3 then 3600 else 60
    let s := endAuth s act
    cmdEnd (if act = 2 ∧ s.cust.voided then s else s.modCust (fun c => { c with auth := (act, s.time.secure + secs * 1000000000) :: c.auth })) stOk 0
  else cmdEnd s stAuthFail 0x24

/-- A share has come (R516). -/
def shareDone (s : State) (data : Bytes) : State :=
  let cert := s.cust.cert.getD []
  match (shareKey (beNat s.cust.ephPriv) cert).bind (fun k => gcmOpen k (zeros 12) [] (data.take 47) (data.drop 47)) with
  | none => cmdEnd s stAuthFail 0x25
  | some b =>
    let x := shareOf b
    let held := s.cust.shares
    if data.length ≠ 63 then cmdEnd s stAuthFail 0x25
    else if held.any (fun h => h.splitId != x.splitId || h.m != x.m || h.n != x.n || h.check != x.check || h.x == x.x) then cmdEnd s stAuthFail 0x26
    else
      let held' := held ++ [x]
      if held'.length < x.m then
        cmdEnd (s.modCust (fun c => { c with shares := held', sharesM := x.m, sharesAt := if held.isEmpty then s.time.secure else c.sharesAt })) stOk 0
      else
        let bwk := shamirJoin 32 (held'.map (fun h => (BitVec.ofNat 8 h.x, h.share)))
        if bwkCheck bwk = x.check then
          cmdEnd ({ s with keys := { s.keys with bwk := some (bwk, s.keys.bk.getD []) } }.modCust (fun c => { c with shares := [], sharesM := x.m })) stOk 0
        else cmdEnd (s.modCust (fun c => { c with shares := [], sharesM := 0 })) stAuthFail 0x26

/-- A record settled by CHECK_COMMIT (R520), if RECON_DROP has not dropped it meanwhile, and the next one. -/
def checkDone (s : State) (data : Bytes) (sw : Nat) : State :=
  match s.cust.settle with
  | [] => s.modCust (fun c => { c with op := .none })
  | i :: rest =>
    let s := s.modCust (fun c => { c with op := .none, settle := rest })
    if !(s.custRec i).isOpen then s
    else if sw = 0x9000 ∧ data = [1] then recSettle s i 3 1
    else if (sw = 0x9000 ∧ data = [0]) ∨ sw = 0x6A82 then recSettle s i 4 2
    else s

/-- The response of the card to the exchange in progress is whole. The data of a command are all that came with its answers (DESIGN CHOICE, log entry 107). -/
def cardAnswer (s : State) (data : Bytes) (sw : Nat) : State :=
  let op := s.cust.op
  if sw = 0x9101 ∧ op ≠ .query then s.modCust (fun c => { c with polling := true, pollAt := s.mono, apdu := [], answer := c.answer ++ data })
  else
    let data := if op = .query then data else s.cust.answer ++ data
    let s := s.modCust (fun c => { c with polling := false })
    match op with
    | .none => s
    | .ifs => s
    | .query => if sw = 0x9000 ∧ data = [0] then cardReady s else s.modCust (fun c => { c with op := .none })
    | .getCert =>
      if sw = 0x9000 then
        let s := s.modCust (fun c => { c with op := .none, cert := some data })
        cardGo (s.modCust (fun c => { c with cardId := if certJudge s data = 0 then certId data else 0 }))
      else if s.cust.settle ≠ [] then cardGo (s.modCust (fun c => { c with op := .none, settle := [] }))
      else swFail s sw
    | .authorize =>
      let s := writeDone s sw
      if sw = 0x9000 then authorizeDone s data else swFail s sw
    | .getShare => if sw = 0x9000 then shareDone s data else swFail s sw
    | .putShare =>
      let s := writeDone s sw
      if sw = 0x9000 then cmdEnd s stOk 0 else swFail s sw
    | .checkCommit => cardGo (checkDone s data sw)

-- T=1 -----------------------------------------------------------------------------------------------------------------------

/-- The link has failed (R505): the card is deactivated and FAILED, its command ends. -/
def linkFail (s : State) : State :=
  let r := cutWrite s
  let s := cardOff r.1
  let s := if s.cust.busy then cmdEnd s stInternal 0x0A else s
  cardFailed s

/-- A failed attempt (R505): counted; after 3 on one block S(RESYNCH request), up to 3 times; else `again`. -/
def attemptFailed (s : State) (again : State → State) : State :=
  let s := s.modCust (fun c => { c with fails := c.fails + 1, cntErr := satInc 32 c.cntErr })
  if s.cust.resyncing ∨ 3 ≤ s.cust.fails then
    if 3 ≤ s.cust.resynchs then linkFail s
    else sendBlock (s.modCust (fun c => { c with resyncing := true, resynchs := c.resynchs + 1 })) 0xC0 []
  else again s

/-- A block from the card (R504 to R506). One that stops part way fails when its next character is later than CWT, and is no block before that. An R-block that names
the block last sent has it sent again (R505); one that comes when the card has begun its answer can name only the R-block sent since, which is sent again (DEDUCED,
log entry 132). -/
def t1Block (s : State) (b : CardBlock) : State :=
  let s := (cardCatchUp s).modCust (fun c => { c with lastAt := s.mono, wtx := 1 })
  let bad := attemptFailed s (fun s => sendR s 1)
  if s.cust.resyncing then
    match b with
    | .resynchResponse =>
      let s := s.modCust (fun c => { c with resyncing := false, ns := false, nr := false, fails := 0, inInf := [], answering := false })
      if s.cust.op = .ifs then sendBlock s 0xC1 [254] else sendI (s.modCust (fun c => { c with outInf := c.apdu }))
    | _ => attemptFailed s id
  else
    match b with
    | .bad => bad
    | .cut _ => attemptFailed s (fun s => sendR s 2)
    | .resynchResponse => bad
    | .ifsResponse => if s.cust.op = .ifs then s.modCust (fun c => { c with op := .none, fails := 0 }) else bad
    | .wtxRequest k => (sendBlock s 0xE3 [BitVec.ofNat 8 k]).modCust (fun c => { c with wtx := k })
    | .ifsRequest n =>
      if n = 0 ∨ 254 < n then bad else (sendBlock s 0xE1 [BitVec.ofNat 8 n]).modCust (fun c => { c with ifsc := n })
    | .abortRequest =>
      let s := (cutWrite s).1
      if s.cust.busy ∧ s.cust.settle = [] then cmdEnd s stInternal 0x0A
      else cardGo (s.modCust (fun c => { c with op := .none, settle := c.settle.drop 1 }))
    | .rBlock nr =>
      if s.cust.op = .ifs then attemptFailed s resendLast
      else if s.cust.answering then attemptFailed s (fun s => sendR s 0)
      else if nr = s.cust.ns then attemptFailed s resendLast
      else if s.cust.outInf ≠ [] then sendI (s.modCust (fun c => { c with ns := !c.ns, fails := 0 }))
      else attemptFailed s (fun s => sendR s 0)
    | .iBlock ns more inf =>
      if s.cust.op = .ifs ∨ s.cust.outInf ≠ [] ∨ ns ≠ s.cust.nr then bad
      else
        let all := s.cust.inInf ++ inf
        let s := s.modCust (fun c => { c with nr := !c.nr, fails := 0, inInf := all, ns := if c.answering then c.ns else !c.ns, answering := true })
        if more then sendR s 0
        else cardAnswer (s.modCust (fun c => { c with inInf := [] })) (all.take (all.length - 2)) (beNat (all.drop (all.length - 2)))

/-- The exchange awaits a block of the card. -/
def cardExpects (s : State) : Bool :=
  s.up && s.cust.rstn && (s.cust.st == 3 || s.cust.st == 4 || s.cust.st == 5) && (s.cust.op != .none || s.cust.resyncing)
    && !(s.cust.polling && s.cust.apdu.isEmpty)

/-- A block that has stopped for no longer than CWT: its next character may yet come. -/
def awaitsMore (s : State) (b : CardBlock) : Bool :=
  match b with
  | .cut w => decide (etus s w ≤ cwt s)
  | _ => false

def execT1BlockRx (block : CardBlock) (s : State) : Out := ok (fin (whenDo (cardExpects s && !awaitsMore s block) s (t1Block · block)))

/-- A block wait above BWT, or above k × BWT after S(WTX), counts as a failed attempt (R505, R506). A character wait above CWT is one inside a block: it comes with
the block (`CardBlock.cut`; DEDUCED, log entry 132). -/
def execCardWaitExpiry (s : State) : Out :=
  ok (fin (whenDo (cardExpects s && s.past (s.cust.sendEnd + s.cust.wtx * bwt s)) s
    (fun s => attemptFailed ((cardCatchUp s).modCust (fun c => { c with wtx := 1 })) (fun s => sendR s 2))))

/-- GET_STATUS every 10 ms while the card answers 0x9101 (R506). -/
def statusPollStep (s : State) : State :=
  let a : Bytes := [0x80, 0x12, 0, 0, 0]
  sendI (s.modCust (fun c => { c with apdu := a, outInf := a, inInf := [], fails := 0, resynchs := 0 }))

def execStatusPoll (s : State) : Out :=
  ok (fin (whenDo (s.up && s.cust.polling && s.cust.apdu.isEmpty && s.due (s.cust.pollAt + 10000000 * nsUnit)) s statusPollStep))

-- Activation ----------------------------------------------------------------------------------------------------------------

/-- Begin activation (R498 step 2); it needs a REFCLK figure (R497). -/
def cardActivate (s : State) : State :=
  s.modCust (fun c => { c with st := 2, vcc := true, rstn := false, rstAt := none, clkDiv := 0, ioLow := true, waiting := false, actAt := s.mono })

def execCardInsert (s : State) : Out :=
  ok (fin (whenDo (!s.cust.det) s (fun s =>
    { s.modCust (fun c => { c with det := true, detAt := s.mono, st := if s.up then 1 else c.st }) with start := { s.start with cardSeen := true } })))

/-- CUST_DET has read 1 for 10 ms (R91): the card is present, and one in DEBOUNCE is activated once TIME_REF_USED holds a frequency (R497). The card port works on in HALTED,
where R116 only limits the registers served (DESIGN CHOICE, log entry 93). -/
def execCardDebounce (s : State) : Out :=
  ok (fin (whenDo (s.up && s.time.runs && s.cust.det && s.cust.st != 0 && s.due (s.cust.detAt + 10000000 * nsUnit)) s (fun s =>
    let t := s.modCust (fun c => { c with present := true })
    if s.time.refUsed = 0 || s.cust.st != 1 then t else cardActivate t)))

/-- A write whose final status word came in the character time in which CUST_DET falls (R522): removal governs, so that its record is in COMMIT again and its command
is cut off. A removal can follow the word in its character time only at the same stamp (DEDUCED, log entry 134). -/
def undoWrite (s : State) : State :=
  match s.cust.lastWrite with
  | some (i, at_, sec) =>
    if at_ = s.mono ∧ ((s.custRec i).phase = 3 ∨ (s.custRec i).phase = 4) then
      (s.modCustRec i (fun r => { r with phase := 2, secureT := sec })).modCust (fun c =>
        { c with jrec := some i, busy := c.busy || c.cmd == 2 || c.cmd == 4 })
    else s
  | none => s

/-- CUST_DET falls (R92, R508, R521, R522): deactivation, authorizations and rehearsal end, vector 8. -/
def cardRemove (s : State) : State :=
  let was := s.cust.st
  let s := s.modCust (fun c => { c with det := false, present := false })
  if was = 0 then s
  else
    let s := cardCut (undoWrite s) 0 none
    let s := s.modCust (fun c => { c with auth := [], cntRemove := wrapInc 32 c.cntRemove })
    vector (endRehearsal s) 8

def execCardRemoval (s : State) : Out := ok (fin (whenDo s.cust.det s cardRemove))

/-- 1 ms after the supply (R498 step 4): CUST_IO released, the hold clock runs, and CUST_RSTN is to rise 500 cycles later. -/
def execActivationSupplyTimer (s : State) : Out :=
  ok (fin (whenDo (s.up && s.cust.st == 2 && s.cust.vcc && s.cust.ioLow && s.due (s.cust.actAt + 1000000 * nsUnit)) s (fun s =>
    s.modCust (fun c => { c with ioLow := false, clkDiv := holdDiv s.time.refUsed, rstAt := some (s.mono + cycles s 500) }))))

/-- CUST_RSTN rises when its instant has come (R498 step 5). -/
def cardReset (s : State) : State :=
  match s.cust.rstAt with
  | some t => if s.due t then s.modCust (fun c => { c with rstn := true, rstAt := none, actAt := t }) else s
  | none => s

/-- A divider that waited for the end of a character is in use (R497). -/
def cardDivide (s : State) : State :=
  match s.cust.divNext with
  | some (t, d) => if s.due t then s.modCust (fun c => { c with clkDiv := if c.clkStopped then 0 else d, divNext := none }) else s
  | none => s

/-- What the port does of itself as time passes: CUST_RSTN rises, a divider takes effect, and a write whose last character has been sent goes to COMMIT. -/
def cardTick (s : State) : State := cardCatchUp (cardDivide (cardReset s))

/-- ATR or PPS has failed (R501): one more activation after 10 ms, then FAILED. -/
def activationFailed (s : State) : State :=
  let again := !s.cust.second
  let s := cardOff s
  if again then s.modCust (fun c => { c with second := true, waiting := true, actAt := s.mono })
  else cardFailed (s.modCust (fun c => { c with cntErr := satInc 32 c.cntErr }))

/-- HOLD (R502): S(IFS request) with IFSD 254 first. -/
def enterHold (s : State) : State :=
  let s := s.modCust (fun c => { c with st := 3, op := .ifs, holdAt := s.mono, queryAt := s.mono, second := false, sendEnd := s.mono })
  sendBlock s 0xC1 [254]

/-- The checks of R499. -/
def atrOk (s : State) (a : Atr) : Bool :=
  a.tckOk && a.offersT1
    && (match a.classInd with
        | none => !s.params.custClassC
        | some (b, c) => if s.params.custClassC then c else b)
    && a.tc3Lrc
    && (match a.ta2 with
        | none => true
        | some t1 => t1 && cardSupported (a.ta1.getD 0x11))

/-- The bounds of R498: the first character 400 to 40,000 cycles after CUST_RSTN, no gap above 9,600 ETU, and the last character, which comes now, at most 20,160 ETU
after the first. -/
def atrInTime (s : State) (a : Atr) : Bool :=
  decide (400 ≤ a.first) && decide (a.first ≤ 40000) && decide (a.gap ≤ 9600) && !s.past (s.cust.actAt + cycles s a.first + etus s 20160)

/-- The answer to reset (R498 to R501). -/
def atrIn (s : State) (a : Atr) : State :=
  if !atrInTime s a || !atrOk s a then activationFailed s
  else
    let ta1 := a.ta1.getD 0x11
    let tb := a.tb3.getD 0x4D
    let s := s.modCust (fun c => { c with ifsc := a.ta3.getD 0x20, bwi := tb / 16, cwi := tb % 16, clkStopOk := a.clockLow && a.t15, lastAt := s.mono })
    match a.ta2 with
    | some _ => enterHold (s.modCust (fun c => { c with fidi := ta1 }))
    | none =>
      if cardSupported ta1 && !(cardFi ta1 == some 372 && cardDi ta1 == some 1) && !s.cust.second then
        let t : Byte := BitVec.ofNat 8 ta1
        let b : Bytes := [0xFF, 0x11, t, 0xFF ^^^ 0x11 ^^^ t]
        s.modCust (fun c => { c with ppsWant := some ta1, lastSent := b, sendEnd := s.mono + etus s 44 })
      else enterHold s

def execAnswerToReset (atr : Atr) (s : State) : Out :=
  ok (fin (whenDo (s.up && s.cust.st == 2 && s.cust.rstn && s.cust.ppsWant == none) s (atrIn · atr)))

/-- No ATR character within 40,000 cycles (R498, R501): the bound has passed when stage time is later than it (R472). -/
def execAnswerToResetTimeout (s : State) : Out :=
  ok (fin (whenDo (s.up && s.cust.st == 2 && s.cust.rstn && s.cust.ppsWant == none && s.past (s.cust.actAt + cycles s 40000)) s activationFailed))

/-- The card echoes the PPS request: all four bytes within 9,600 ETU (R500). -/
def ppsIn (s : State) (echoed : Bytes) : State :=
  match s.cust.ppsWant with
  | none => s
  | some t => if echoed = s.cust.lastSent ∧ !s.past (s.cust.sendEnd + etus s 9600) then enterHold (s.modCust (fun c => { c with fidi := t, ppsWant := none })) else activationFailed s

def execPpsEcho (echoed : Bytes) (s : State) : Out := ok (fin (whenDo s.up s (ppsIn · echoed)))

def execPpsTimeout (s : State) : Out :=
  ok (fin (whenDo (s.up && s.cust.ppsWant != none && s.past (s.cust.sendEnd + etus s 9600)) s activationFailed))

/-- 10 ms after a failure the card is activated once more, without PPS (R501). -/
def execReactivationWait (s : State) : Out :=
  ok (fin (whenDo (s.up && s.cust.st == 2 && s.cust.waiting && s.due (s.cust.actAt + 10000000 * nsUnit)) s cardActivate))

/-- QUERY_CONDITION every 10 ms in HOLD (R502). -/
def execConditionQuery (s : State) : Out :=
  ok (fin (whenDo (s.up && s.cust.st == 3 && s.cust.op == .none && s.due s.cust.queryAt) s (fun s =>
    startApdu (s.modCust (fun c => { c with queryAt := s.mono + 10000000 * nsUnit })) .query 0x10 [])))

/-- READY_MAX has passed in HOLD (R502). -/
def execReadyMaxExpiry (s : State) : Out :=
  ok (fin (whenDo (s.up && s.cust.st == 3 && s.past (s.cust.holdAt + bits s.cust.cfg 23 16 * 100000000 * nsUnit)) s (fun s => cardFailed (cardOff s))))

/-- A command, of the manager or of the block's own, exceeds WAIT_MAX (R506): the manager's ends with TIMEOUT 0x20, then the card is deactivated and reactivated; a write in COMMIT stays open (R522). -/
def waitMax (s : State) : State :=
  let r := cutWrite s
  let s := cardOff r.1
  let s := if s.cust.busy then cmdEnd s stTimeout 0x20 else s
  cardActivate (s.modCust (fun c => { c with second := false, jrec := none }))

def execWaitMaxExpiry (s : State) : Out :=
  ok (fin (whenDo (s.up && (s.cust.st == 3 || s.cust.st == 4 || s.cust.st == 5) && s.cust.op != .none && s.cust.op != .ifs && s.past (s.cust.cmdAt + bits s.cust.cfg 15 8 * 1000000000 * nsUnit)) s waitMax))

/-- The clock is held low 1,860 cycles after an exchange, when the card allows it (R507). -/
def execClockStop (s : State) : Out :=
  ok (fin (whenDo (s.up && s.cust.clkStopOk && !s.cust.clkStopped && (s.cust.st == 3 || s.cust.st == 4) && s.cust.op == .none
      && decide (max s.cust.sendEnd s.cust.lastAt + cycles s 1860 ≤ s.mono)) s (fun s => s.modCust (fun c => { c with clkStopped := true, clkDiv := 0 }))))

/-- REFCLK is back: a card present that waits for a frequency is activated (R497). -/
def execRefclkReturn (khz : Nat) (s : State) : Out :=
  let s := refBack s khz
  ok (fin (if s.up && s.cust.st == 1 && s.cust.present && s.time.refUsed != 0 then cardActivate s else s))

-- Authorizations and shares -------------------------------------------------------------------------------------------------

def execAuthExpiry (act : Nat) (s : State) : Out :=
  ok (fin (whenDo (s.cust.auth.any (fun p => p.1 == act && decide (p.2 ≤ s.time.secure))) s (endAuth · act)))

/-- 600 s of secure time since the first share was held (R516). -/
def execShareHoldExpiry (s : State) : Out :=
  ok (fin (whenDo (!s.cust.shares.isEmpty && decide (s.cust.sharesAt + 600000000000 ≤ s.time.secure)) s
    (fun s => s.modCust (fun c => { c with shares := [], sharesM := 0 }))))

-- Manager commands ----------------------------------------------------------------------------------------------------------

/-- CUST_CMD is written (R512): ignored while BUSY is 1. -/
def custCmd (s : State) (cmd arg : Nat) (f : State → State) : State :=
  mgrWrite s 0xA0004 (fun s => if s.cust.busy then s else f (s.modCust (fun c => { c with busy := true, cmd := cmd, arg := arg, sts := cmd * 2 ^ 16 })))

/-- A command that uses the card (R512): the card's state is judged before the argument (log entry 108). -/
def useCard (s : State) (good : Bool) : State :=
  if s.cust.st ≠ 4 then cmdDone s stInternal 0x09
  else if !good then cmdDone s stInternal 0x04
  else cardGo s

def rootLockCmd (s : State) : State :=
  if s.cust.arg ≠ 0 ∨ s.cust.rootSet ∨ leNat s.cust.rootHash = 0 then cmdDone s stInternal 0x04
  else cmdDone (s.modCust (fun c => { c with rootSet := true })) stOk 0

def authorizeCmd (s : State) : State := useCard s (decide (1 ≤ s.cust.arg) && decide (s.cust.arg ≤ 3))

def importShareCmd (s : State) : State := useCard s (s.cust.arg == 0)

def exportShareCmd (s : State) : State :=
  let a := s.cust.arg
  let x := bits a 4 0
  let m := bits a 12 8
  let n := bits a 20 16
  if s.cust.st ≠ 4 then cmdDone s stInternal 0x09
  else if m < 2 ∨ n < m ∨ 16 < n ∨ x < 1 ∨ n < x ∨ bits a 7 5 ≠ 0 ∨ bits a 15 13 ≠ 0 ∨ bits a 23 21 ≠ 0 then cmdDone s stInternal 0x04
  else if (bwkOf s).isNone then cmdDone s stKeyHandle 0x40
  else if !authInForce s 3 then cmdDone s stKeyHandle 0x41
  else cardGo s

def sharesClearCmd (s : State) : State :=
  if s.cust.arg ≠ 0 then cmdDone s stInternal 0x04 else cmdDone (s.modCust (fun c => { c with shares := [], sharesM := 0 })) stOk 0

def authEndCmd (s : State) : State :=
  if s.cust.arg = 0 ∨ 3 < s.cust.arg then cmdDone s stInternal 0x04 else cmdDone (endAuth s s.cust.arg) stOk 0

def reconDropCmd (s : State) : State :=
  if 30 < s.cust.arg ∨ !(s.custRec s.cust.arg).isOpen then cmdDone s stInternal 0x04
  else cmdDone (recSettle s s.cust.arg 5 3) stOk 0

def deactivateCmd (s : State) : State :=
  if s.cust.arg ≠ 0 then cmdDone s stInternal 0x04
  else
    let s := if s.cust.st = 0 then s else cardFailed ((cutWrite s).1 |> cardOff)
    cmdDone (s.modCust (fun c => { c with jrec := none })) stOk 0

def activateCmd (s : State) : State :=
  if s.cust.arg ≠ 0 ∨ !s.cust.present ∨ s.cust.st ≠ 6 then cmdDone s stInternal 0x04
  else
    let s := cmdDone s stOk 0
    let s := s.modCust (fun c => { c with second := false })
    if s.time.refUsed = 0 then s.modCust (fun c => { c with st := 1 }) else cardActivate s

def execRootLock (arg : Nat) (s : State) : Out := ok (fin (custCmd s 0x01 arg rootLockCmd))
def execAuthorize (arg : Nat) (s : State) : Out := ok (fin (custCmd s 0x02 arg authorizeCmd))
def execImportShare (arg : Nat) (s : State) : Out := ok (fin (custCmd s 0x03 arg importShareCmd))
def execExportShare (arg : Nat) (s : State) : Out := ok (fin (custCmd s 0x04 arg exportShareCmd))
def execSharesClear (arg : Nat) (s : State) : Out := ok (fin (custCmd s 0x05 arg sharesClearCmd))
def execAuthEnd (arg : Nat) (s : State) : Out := ok (fin (custCmd s 0x06 arg authEndCmd))
def execReconDrop (arg : Nat) (s : State) : Out := ok (fin (custCmd s 0x07 arg reconDropCmd))
def execDeactivate (arg : Nat) (s : State) : Out := ok (fin (custCmd s 0x08 arg deactivateCmd))
def execActivate (arg : Nat) (s : State) : Out := ok (fin (custCmd s 0x09 arg activateCmd))

-- Registers -----------------------------------------------------------------------------------------------------------------

/-- Reads of the custodian range (R523). -/
def custReg (s : State) (off : Nat) : Nat :=
  let s := cardCatchUp s
  let c := s.cust
  if off = 0xA0000 then flag c.present 31 + c.st * 2 ^ 28 + flag c.rootSet 27 + flag c.clkStopped 26 + c.fidi * 2 ^ 8 + c.ifsc
  else if off = 0xA0008 then flag c.busy 31 + c.sts
  else if off = 0xA000C then c.split
  else if off = 0xA0010 then c.cfg
  else if off = 0xA0014 then flag (authInForce s 3) 2 + flag (authInForce s 2) 1 + flag (authInForce s 1) 0
  else if off = 0xA0018 then c.sharesM * 2 ^ 8 + c.shares.length
  else if off = 0xA001C then c.cardId % 2 ^ 32
  else if off = 0xA0020 then c.cardId / 2 ^ 32
  else if off = 0xA0024 then
    flag ((List.range 31).any (fun i => (s.custRec i).isOpen && c.jrec != some i)) 31 + flag c.resolved 30 + c.outcome * 2 ^ 28 + c.recSettled
  else if off = 0xA0028 then c.cntRemove
  else if off = 0xA002C then c.cntErr
  else if 0xA0040 ≤ off ∧ off < 0xA0070 then fieldLE c.rootHash (off - 0xA0040) 4
  else if 0xA0800 ≤ off ∧ off < 0xA1000 then fieldLE (custJournalBytes s) (off - 0xA0800) 4
  else 0

/-- CUST_CFG is written (R497, R523): in READY and BUSY a new F_MAX sets the run divider, between characters: at once, or when the character being sent ends, from
which the characters left are sent at the new divider. -/
def cfgWrite (s : State) (n : Nat) : State :=
  let t := s.modCust (fun c => { c with cfg := n })
  if !(s.cust.st = 4 ∨ s.cust.st = 5) ∨ s.cust.clkDiv = 0 then t
  else if s.due s.cust.sendEnd then t.modCust (fun c => { c with clkDiv := cardDiv t, divNext := none })
  else
    let k := (s.cust.sendEnd - s.mono) / max 1 (etus s 11)
    let edge := s.cust.sendEnd - k * etus s 11
    let ends := edge + k * etus t 11
    t.modCust (fun c => { c with divNext := some (edge, cardDiv t), sendEnd := ends, cmdAt := if c.cmdAt = c.sendEnd then ends else c.cmdAt })

/-- Writes to the custodian range. -/
def custWrite (s : State) (off : Nat) (v : W32) : State :=
  let n := v.toNat
  if off = 0xA0004 then
    if s.cust.busy then s
    else
      let s := s.modCust (fun c => { c with busy := true, cmd := n / 2 ^ 24, arg := n % 2 ^ 24, sts := n / 2 ^ 24 * 2 ^ 16 })
      match n / 2 ^ 24 with
      | 1 => rootLockCmd s
      | 2 => authorizeCmd s
      | 3 => importShareCmd s
      | 4 => exportShareCmd s
      | 5 => sharesClearCmd s
      | 6 => authEndCmd s
      | 7 => reconDropCmd s
      | 8 => deactivateCmd s
      | 9 => activateCmd s
      | _ => cmdDone s stInternal 0x04
  else if off = 0xA000C then s.modCust (fun c => { c with split := n })
  else if off = 0xA0010 then
    if bits n 23 16 = 0 ∨ bits n 15 8 = 0 ∨ bits n 7 0 < 10 ∨ 50 < bits n 7 0 then refuse s off v
    else cfgWrite s (n % 2 ^ 24)
  else if off = 0xA0024 then s.modCust (fun c => { c with resolved := c.resolved && !n.testBit 30 })
  else if 0xA0040 ≤ off ∧ off < 0xA0070 then
    if s.cust.rootSet then s
    else s.modCust (fun c => { c with rootHash := overlay (sliceZ c.rootHash 0 48) (off - 0xA0040) (leBytes 4 n) })
  else s

end Sys2Proof.Machine
end

