-- ==== Sys2Proof/Machine/Window.lean ====
section
/-! DEFINITION. The direct digest window (R312 to R315, R317): its registers and commands. -/

namespace Sys2Proof.Machine

def State.modWindow (s : State) (f : DigestWindow → DigestWindow) : State := { s with window := f s.window }

/-- Message limit of an algorithm in bytes (R289). -/
def hashLimit (alg : Nat) : Nat := if alg = 1 ∨ alg = 2 then 2 ^ 61 - 1 else 2 ^ 64 - 1

abbrev errLost : Nat := 1
abbrev errCmd : Nat := 2
abbrev errLen : Nat := 4
abbrev errAlarm : Nat := 8

def dwErr (s : State) (e : Nat) : State := s.modWindow (fun w => { w with errs := w.errs ||| e })

/-- ABORT, and what a class A alarm or a reset erases: state, held word, output. -/
def dwErase (w : DigestWindow) : DigestWindow :=
  { w with st := 0, busy := false, finishing := false, done := false, heldWord := none, part := [], hash := [], out := [] }

/-- START: with an ALG of 0x1 to 0x8 the window opens; any other sets ERR_CMD. -/
def dwOpen (s : State) (alg : Nat) : State :=
  if s.window.busy then dwErr s errCmd
  else if 1 ≤ alg ∧ alg ≤ 8 then
    s.modWindow (fun w => { dwErase w with st := 1, alg := alg, count := 0, hash := hashInit alg })
  else dwErr s errCmd

/-- Commit bytes of the held word: a full block raises BUSY. -/
def dwCommit (w : DigestWindow) (b : Bytes) : DigestWindow :=
  let part := w.part ++ b
  { w with part := part, count := w.count + b.length, busy := part.length == hashBlock w.alg }

/-- A write to the low half only loads it; while BUSY it is lost (R312, R313). -/
def dwLow (s : State) (v : W32) : State :=
  if s.window.st = 1 ∧ s.window.busy then (dwErr s errLost).modWindow (fun w => { w with st := 2 })
  else s.modWindow (fun w => { w with lowHalf := v.toNat })

/-- A write to the high half completes a word; the word held before is committed (R313). -/
def dwHigh (s : State) (v : W32) : State :=
  let w := s.window
  if w.st ≠ 1 then s
  else if w.busy then (dwErr s errLost).modWindow (fun w => { w with st := 2 })
  else
    let new := leBytes 4 w.lowHalf ++ leBytes 4 v.toNat
    match w.heldWord with
    | none => s.modWindow (fun w => { w with heldWord := some new })
    | some old =>
      if hashLimit w.alg < w.count + 8 then (dwErr s errLen).modWindow (fun w => { w with st := 2 })
      else s.modWindow (fun w => { dwCommit w old with heldWord := some new })

/-- FINISH: the last bytes are committed, padded and absorbed (R312, R313). -/
def dwClose (s : State) (last : Nat) : State :=
  let w := s.window
  if w.busy then dwErr s errCmd
  else if w.st ≠ 1 then dwErr s errCmd
  else
    let fits := match w.heldWord with
      | none => last == 0
      | some _ => decide (1 ≤ last) && decide (last ≤ 8)
    if !fits then (dwErr s errCmd).modWindow (fun w => { w with st := 2 })
    else if hashLimit w.alg < w.count + last then (dwErr s errLen).modWindow (fun w => { w with st := 2 })
    else s.modWindow (fun w => { dwCommit w ((w.heldWord.getD []).take last) with busy := true, finishing := true, heldWord := none })

/-- The absorption ends (R314): BUSY falls; after FINISH the digest is written, DONE rises and the window is IDLE. -/
def dwAbsorbed (s : State) : State :=
  s.modWindow (fun w =>
    if !w.busy then w
    else if w.finishing then
      let hv := hashAbsorb w.alg w.hash (hashPad w.alg w.count w.part)
      { dwErase w with done := true, out := hashOut w.alg hv (hashLen w.alg) }
    else { w with busy := false, hash := hashAbsorb w.alg w.hash w.part, part := [] })

def execDwStart (alg : Nat) (s : State) : Out := ok (mgrWrite s 0xC0000 (dwOpen · (alg % 16)))

def execDwDataWrite (value : W32) (s : State) : Out := ok (mgrWrite s 0xC0014 (dwHigh · value))

def execDwFinish (lastBytes : Nat) (s : State) : Out := ok (mgrWrite s 0xC0000 (dwClose · (lastBytes % 16)))

def execDwAbort (s : State) : Out := ok (mgrWrite s 0xC0000 (fun s => s.modWindow dwErase))

def execDwAbsorbDone (s : State) : Out := ok (whenDo s.up s dwAbsorbed)

/-- Reads of the digest range (R315, R317). -/
def digReg (s : State) (off : Nat) : Nat :=
  let w := s.window
  if off = 0xC0004 then
    flag w.busy 31 + flag (w.st == 1) 30 + flag w.done 29 + flag (w.st == 2) 28 + w.alg * 2 ^ 16 + w.errs
  else if off = 0xC0008 then w.count % 2 ^ 32
  else if off = 0xC000C then w.count / 2 ^ 32
  else if 0xC0040 ≤ off ∧ off < 0xC0080 then (if w.done then fieldLE w.out (off - 0xC0040) 4 else 0)
  else if off = 0xC0100 then s.keys.slots.length
  else if off = 0xC0104 then s.keys.cntCmpFault
  else if off = 0xC0108 then s.keys.cntTrunc
  else if off = 0xC010C then s.keys.cntShort
  else 0

/-- Writes to the digest range. -/
def digWrite (s : State) (off : Nat) (v : W32) : State :=
  let n := v.toNat
  if off = 0xC0000 then
    match n / 2 ^ 28 with
    | 1 => dwOpen s (n % 16)
    | 2 => dwClose s (bits n 19 16)
    | 3 => s.modWindow dwErase
    | _ => dwErr s errCmd
  else if off = 0xC0004 then s.modWindow (fun w => { w with errs := maskSet (maskSet (maskSet (maskSet w.errs 0 (w.errs.testBit 0 && !n.testBit 0)) 1 (w.errs.testBit 1 && !n.testBit 1)) 2 (w.errs.testBit 2 && !n.testBit 2)) 3 (w.errs.testBit 3 && !n.testBit 3) })
  else if off = 0xC0010 then dwLow s v
  else if off = 0xC0014 then dwHigh s v
  else s

end Sys2Proof.Machine
end

