-- ==== Sys2Proof/Machine/Alarm.lean ====
section
/-! DEFINITION. Class A alarms (R526 to R530) and what ends a start (R113, R115): the start journal's outcomes (R108 to R110), the erasure of
every key and operand (R38), and the failure of wings and bays in service (R28, R34). -/

namespace Sys2Proof.Machine

-- Start journal -------------------------------------------------------------------------------------------------------------

def State.modStart (s : State) (f : Start → Start) : State := { s with start := f s.start }

def State.modJournal (s : State) (f : Journal → Journal) : State := { s with journal := f s.journal }

/-- Change the record of this start. -/
def modStartRec (s : State) (f : StartRec → StartRec) : State :=
  s.modJournal (fun j => { j with recs := tabSet {} j.recs j.last (f (tabGet {} j.recs j.last)) })

def setNth (l : List Nat) (n k v : Nat) : List Nat := (List.range n).map (fun i => if i + 1 = k then v else l.getD i 0)

/-- Failure count of a step after an outcome (R110). -/
def failAfter (k out n : Nat) : Nat :=
  if out = 5 then min 3 (n + 1) else if out = 2 then 0 else if out = 4 ∧ 10 ≤ k then 0 else n

/-- Write the outcome of step `k` to the register and the journal (R108). -/
def putOutcome (s : State) (k out : Nat) : State :=
  let s := s.modStart (fun t => { t with outcomes := setNth t.outcomes 12 k out })
  let s := modStartRec s (fun r => { r with outcomes := s.start.outcomes })
  s.modJournal (fun j => { j with fails := setNth j.fails 12 k (failAfter k out (j.fails.getD (k - 1) 0)) })

/-- Drop the accesses of the image fetch; bootstrap translation ends (R118). -/
def dropImage (s : State) : State :=
  { s with mem := { s.mem with accesses := s.mem.accesses.filterMap (fun a =>
      match a.owner with
      | .image _ => if a.issued then some (a.discarded false) else none
      | _ => some a) } }

/-- The start ends in a state, with a safe-stage cause (R114, R115). -/
def endStart (s : State) (state cause : Nat) : State :=
  let s := dropImage s
  let s := s.modStart (fun t => { t with state := state, safeCause := cause, running := none })
  modStartRec s (fun r => { r with state := state, safeCause := cause, smfVer := s.start.smfVer, sqmVer := s.start.sqmVer })

/-- HALTED (R116): no step runs on. -/
def halt (s : State) : State :=
  let s := endStart s 5 0
  { (s.modStart (fun t => { t with step12 := false, rootReq := false })) with entropy := { s.entropy with on := false, inst := [] } }

/-- A class A alarm during a start (R113): ALARMED for the running steps, and HALTED. -/
def startAlarm (s : State) : State :=
  if s.start.state = 1 ∨ s.start.state = 2 then
    let s := match s.start.running with
      | some k => putOutcome s k 9
      | none => s
    halt (if s.start.step12 then putOutcome s 12 9 else s)
  else s

-- Wings and bays ------------------------------------------------------------------------------------------------------------

/-- Complete the jobs for which `p` holds and that have no outcome. -/
def stopWhere (s : State) (p : Job → Bool) (status sub : Nat) : State :=
  ((s.jobs.filter (fun j => p j && j.outcome.isNone)).map (·.id)).foldl (fun s id => stop s id status sub) s

/-- Wipe a bay's cache slice, buffer and lane registers (R28, R33). -/
def wipeBay (s : State) (b : Nat) : State :=
  let s := { s with keys := { s.keys with scheds := s.keys.scheds.filter (fun c => c.bay != b) } }
  wipeRegions (s.modBay b (fun x => { x with lanes := [] })) (fun c _ => c == b)

/-- Ordinary bays of the active wings. -/
def homeBays (s : State) : List Nat := (List.range 64).filter (fun b => s.bayOk b && !isGuarded b)

/-- Entries of the home table that name a bay out of service are rewritten, in turn over the bays left (R209, log entry 34). -/
def mendHome (s : State) : State :=
  let l := homeBays s
  if s.place.home = [] then s
  else
    { s with place := { s.place with home := (List.range 512).foldl (fun t i =>
        let b := tabGet 0 s.place.home i
        if l.contains b then t else tabSet 0 t i (l.getD (i % max 1 l.length) 0)) s.place.home } }

/-- A wing has failed in service (R34, R112, R224): it is GATED and excluded, the next start excludes it, and its bays leave the home table (R209). -/
def markWingFailed (s : State) (w : Nat) : State :=
  let s := s.modWing w (fun x => { x with failed := true, power := 0 })
  let s := s.modStart (fun t => { t with wingsActive := maskSet t.wingsActive w false })
  let s := s.modJournal (fun j => { j with excl := maskSet j.excl w true })
  mendHome ((List.range 8).foldl (fun s i => wipeBay s (8 * w + i)) s)

-- Class A -------------------------------------------------------------------------------------------------------------------

/-- Erase what a job holds clear in bay buffers and operand memories (R38): operands that have come, keys, schedules, states, results. What a record
says of it stays: the bytes read, the message length, the next counter. -/
def eraseJob (j : Job) : Job :=
  if j.outcome.isSome then j
  else { j with key := [], drawn := [], inner := [], outer := [], ctx := { msgBytes := j.ctx.msgBytes }, entry := [], outs := [], held := .none, attr := 0
                got := [], inDone := j.seen }

/-- An engine on which a run or a staged job is erased: a run's wipe is verified as after any stopped run (R320, R321, R341). -/
def eraseEngine (s : State) (e : Engine) : Engine :=
  match e.running with
  | some id =>
    { e with staged := none, loadFull := false, running := none, ends := [], wiping := some id, wipeSeat := ((s.job? id).map (·.seat)).getD 0 }
  | none => { e with staged := none, loadFull := false, ends := [] }

/-- Step 4 of the class A sequence. A wipe of operand memory that has begun goes on to its own verification (R321, R339). -/
def eraseAll (s : State) : State :=
  let s := zeroAllInst s
  { s with
    keys := { s.keys with attrs := [], scheds := [], slots := [], seatKeys := [], spillUsed := [] }
    front := { s.front with cache := [], peers := [], peerQ := [], peerHold := none, visits := [] }
    place := { s.place with
      bays := tabMap {} s.place.bays (fun _ b => { b with lanes := [] })
      wings := tabMap {} s.place.wings (fun _ w => if w.power = 3 then { w with power := 0 } else w) }
    buffers := tabMap [] s.buffers (fun _ _ => [])
    engines := { s.engines with eng := tabMap {} s.engines.eng (fun _ e => eraseEngine s e) }
    window := { dwErase s.window with errs := s.window.errs ||| errAlarm }
    seatRegs := { s.seatRegs with migKeys := [] }
    jobs := s.jobs.map eraseJob
    relay := { s.relay with rk := [], formed := false, wants := [] } }

/-- The hop keys of a side are erased; the link stays. -/
def unkeyHop (s : State) (sd : Side) : State := s.modHop sd RHop.unkeyed

/-- Fetches in progress are given up; their entries are fetched again (R526 step 2). -/
def dropFetches (s : State) : State :=
  let s : State := { s with rings := tabMap {} s.rings (fun _ r => { r with fetching := false, packets := [] }) }
  { s with mem := { s.mem with accesses := s.mem.accesses.filterMap (fun a =>
      match a.owner with
      | .fetch _ _ _ => if a.issued then some (a.discarded false) else none
      | _ => some a) } }

/-- Jobs whose outcome was fixed at this very instant: the class A alarm falls on the same instant, and ALARM_ABORT governs (R192, R342), but for a job
whose outcome raised it (R338, R339). It governs a digest job, too, of which a write is in progress (R316). -/
def reopen (s : State) : State :=
  let now := fun (j : Job) => j.phase == .done
    && j.outcome.any (fun o => !o.raised && (decide (s.mono ≤ o.at_) || (isDigestOp j && o.status == stOk && writesOut s j.id)))
  let ids := (s.jobs.filter now).map (·.id)
  ids.foldl dropWrites { s with jobs := s.jobs.map (fun j => if now j then { j with outcome := none } else j) }

/-- Third class A alarm within 60 s of secure time since the last reset (R535). -/
def thirdAlarm (s : State) : Bool :=
  match s.alarms.stampsA with
  | _ :: b :: _ => decide (s.time.secure ≤ b + 60000000000)
  | _ => false

/-- An engine named by WIPE_FAIL is failed in service (R530): its wing is, with the class C alarm WING_FAILED of R34 (R524). -/
def failWing (s : State) (w : Nat) : State := alarmC (markWingFailed s w) 0x51 w 0

/-- A class A alarm: its cause is fixed and steps 1 to 4 of R526 act; R113 during a start, R529 when one is in force, R530 for WIPE_FAIL. -/
def alarmA (s : State) (cause d0 d1 : Nat) : State :=
  let s := almLog s cause 1 d0 d1
  let lock := cause == 0x0C || thirdAlarm s
  let s := { s with alarms := { s.alarms with
      cntA := satInc 32 s.alarms.cntA, lastA := cause * 2 ^ 24 + s.journal.count % 2 ^ 16
      aActive := true, aCause := if s.alarms.aActive then s.alarms.aCause else cause, step6 := s.alarms.step6 || !s.alarms.aActive
      clearLock := s.alarms.clearLock || lock, stampsA := (s.time.secure :: s.alarms.stampsA).take 2, verifying := true, alarmAt := some s.mono } }
  let s := dropFetches (reopen s)
  let s := endRehearsal s
  let s := cardAlarm s
  let s := sendBoth s (.alarm s.relay.member)
  let s := mailBreak (eraseAll (unkeyHop (unkeyHop s .east) .west))
  let s := if cause = 0x0B then failWing s d0 else s
  startAlarm s

/-- A job a reset in progress would squash is completed with ALARM_ABORT instead (R157); the reset writes no record for it (R155). -/
def abortReset (now mono : Nat) (t : Seat) : Seat :=
  { t with resetJobs := t.resetJobs.map (fun j =>
      if j.outcome.isSome then j else { j with outcome := some { status := stAlarmAbort, stamp := now, at_ := mono, fixedStamp := true } }) }

/-- Step 6 of the class A sequence (R526): vector 0 follows the records of the jobs that step 5 aborted, or comes at once when there are none. It runs for the
alarm that found A_ACTIVE 0; one that came on top runs steps 2 to 5 alone (R529). -/
def sixthStep (s : State) (aborted : Bool) : State :=
  if !s.alarms.step6 then s
  else
    let s := { s with alarms := { s.alarms with step6 := false } }
    if aborted then { s with alarms := { s.alarms with vec0Wait := true } } else vector s 0

/-- Step 5 of the class A sequence (R526, R527): every job in flight is fixed as ALARM_ABORT, those of a seat reset in progress too (R157). Memories that could
not be verified are held in reset. -/
def erasureVerified (s : State) (erased : Erasure) : State :=
  let a := s.alarms
  let s := { s with
    alarms := { a with verifying := false, eraseFail := a.eraseFail || !erased.clean, clearLock := a.clearLock || !erased.clean
                       heldMems := a.heldMems ++ erased.dirty.filter (fun m => !a.heldMems.contains m) }
    seats := tabMap {} s.seats (fun _ t => abortReset s.now s.mono t) }
  let some_ := s.jobs.any (fun j => j.outcome.isNone)
  sixthStep (stopWhere s (fun _ => true) stAlarmAbort 0) some_

end Sys2Proof.Machine
end

