-- ==== Sys2Proof/Machine/RingBase.lean ====
section
/-! DEFINITION. Command rings (chapter 5): doorbells and indexes, ring settings, fetching, acceptance and ordering of jobs, deadlines. -/

namespace Sys2Proof.Machine

-- Helpers -------------------------------------------------------------------------------------------------------------------

/-- Entries of a ring. -/
def Ring.size (r : Ring) : Nat := 2 ^ bits r.act.cfg 4 0

/-- Enabled and not FAULTED. -/
def Ring.active (r : Ring) : Bool := r.act.enable && !r.fetchFault && !r.cplFault

/-- A job came from a ring. -/
def fromRing (j : Job) : Bool :=
  match j.src with
  | .ring _ => true
  | _ => false

/-- Jobs of a ring, and of a seat's rings, in flight: fetched and not completed (R564). -/
def ringInflight (s : State) (seat slot : Nat) : Nat := (s.jobs.filter (fun j => j.seat == seat && j.src == .ring slot)).length

def seatInflight (s : State) (seat : Nat) : Nat := (s.jobs.filter (fun j => j.seat == seat && fromRing j)).length

def rejectCfg (s : State) (seat : Nat) : State := s.modSeat seat (fun t => { t with cfgReject := true })

/-- A job that has no outcome yet. -/
def State.liveJob (s : State) (id : Nat) : Option Job := (s.job? id).filter (fun j => j.outcome.isNone)

/-- Its deadline is strictly earlier than now (R197, R472). -/
def Job.late (s : State) (j : Job) : Bool :=
  match j.deadline with
  | some d => s.past d
  | none => false

-- Settings ------------------------------------------------------------------------------------------------------------------

/-- States in which curtain-only settings are accepted (R151, R169). -/
def settingsOpen (t : Seat) : Bool := t.state == 0 || t.state == 1 || t.state == 3

/-- The HW_RING of a slot is backed by no other ring slot: of any seat in force, of the same seat in `cfgs` (R171). -/
def hwFree (s : State) (seat slot : Nat) (cfgs : List (Nat × RingSet)) (hw : Nat) : Bool :=
  s.rings.all (fun p => p.1 / 16 == seat || !p.2.act.enable || bits p.2.act.cfg 27 16 != hw)
    && cfgs.all (fun c => c.1 == slot || !c.2.enable || bits c.2.cfg 27 16 != hw)

/-- The checks of R171 on one enabled slot. -/
def ringOk (s : State) (seat slot : Nat) (cfgs : List (Nat × RingSet)) (c : RingSet) : Bool :=
  c.base != 0 && c.cqBase != 0 && decide (4 ≤ bits c.cfg 4 0) && decide (bits c.cfg 4 0 ≤ 16) && hwFree s seat slot cfgs (bits c.cfg 27 16)

/-- The checks of R171 on every slot of a seat, with the settings written. -/
def ringsOk (s : State) (seat : Nat) : Bool :=
  let cfgs := (List.range 16).map (fun i => (i, (s.ring seat i).set))
  cfgs.all (fun c => !c.2.enable || ringOk s seat c.1 cfgs c.2)

/-- The check of R153 that can fail. -/
def rootOk (t : Seat) : Bool := t.set.root != 0

/-- Put the SEAT_X_ settings of a seat in force; cached translations go when the root changed (R151, R152). -/
def applySeatX (s : State) (seat : Nat) : State :=
  let t := s.seat seat
  let s := if t.act.root ≠ t.set.root then tlbDropSeat s seat else s
  s.modSeat seat (fun t => { t with act := t.set })

/-- A ring slot goes from disabled to enabled at START or RESTART (R172): the fetch index, RING_CQ_TAIL and the recorded producer index are zero;
RING_CQ_HEAD is software's to set before, and LOST, the fault bits and ARMED stay. The job accepted last stays noted: one that is still in flight holds the first
WAIT_PREV job (R185). -/
def ringZero (r : Ring) : Ring :=
  { r with db := 0, fetchIdx := 0, cqTail := 0, fetching := false, packets := [], fetchLen := 0, cut := none, unread := [], faultRecs := [] }

/-- Indexes and faults of a ring slot to their first state (R155, R170). -/
def ringFresh (r : Ring) : Ring :=
  { ringZero r with cqHead := 0, lost := 0, cplFault := false, fetchFault := false, dbErr := false, armed := true }

/-- RESUME: leave FAULTED (R199, R200); on a ring that is not FAULTED it changes nothing, so each packet is still read once (R174). -/
def ringResume (s : State) (seat slot : Nat) : State :=
  s.modRing seat slot (fun r => { r with cplFault := false, fetchFault := false })

/-- ENABLE = 1 written to a disabled ring of seat 0 (R152, R170, R171). -/
def enableSeat0 (s : State) (slot : Nat) : State :=
  let r := s.ring 0 slot
  let cfgs := (List.range 16).filterMap (fun i => if i = slot then none else some (i, (s.ring 0 i).act))
  let c := { r.set with enable := true }
  if rootOk (s.seat 0) && ringOk s 0 slot cfgs c then
    (applySeatX s 0).modRing 0 slot (fun r => { ringFresh r with set := c, act := c })
  else rejectCfg s 0

/-- A write to RING_CTRL (R169, R170). -/
def ringCtrl (s : State) (src seat slot : Nat) (enable resume : Bool) : State :=
  let r := s.ring seat slot
  let t := s.seat seat
  let s := if !src.testBit 10 || enable == r.set.enable then s
    else if seat = 0 then
      if enable then enableSeat0 s slot
      else stopFetch (s.modRing 0 slot (fun r => { r with set := { r.set with enable := false }, act := { r.act with enable := false } })) 0 slot false
    else if settingsOpen t then s.modRing seat slot (fun r => { r with set := { r.set with enable := enable } })
    else rejectCfg s seat
  if resume then ringResume s seat slot else s

/-- Offset of a register of a ring slot. -/
def ringOff (seat slot reg : Nat) : Nat := 0x400000 + seat * 0x1000 + slot * 0x80 + reg

/-- BASE, CQ_BASE or CFG with one word written; `reg` is the page offset in the slot. -/
def ringSetWord (c : RingSet) (reg v : Nat) : RingSet :=
  if reg = 0x20 then { c with base := c.base / 2 ^ 32 * 2 ^ 32 + v / 4096 * 4096 }
  else if reg = 0x24 then { c with base := v * 2 ^ 32 + c.base % 2 ^ 32 }
  else if reg = 0x28 then { c with cqBase := c.cqBase / 2 ^ 32 * 2 ^ 32 + v / 4096 * 4096 }
  else if reg = 0x2C then { c with cqBase := v * 2 ^ 32 + c.cqBase % 2 ^ 32 }
  else if reg = 0x30 then { c with cfg := maskSet (maskSet (maskSet v 30 false) 29 false) 28 false }
  else c

/-- A write to BASE, CQ_BASE or CFG (R169, R170); a tenant's is an access that R62 does not permit. -/
def ringSetting (s : State) (src seat slot reg : Nat) (v : W32) : State :=
  if !src.testBit 10 then accessAlarm s src (ringOff seat slot reg) true
  else if seat = 0 then
    if (s.ring 0 slot).set.enable then rejectCfg s 0
    else s.modRing 0 slot (fun r => { r with set := ringSetWord r.set reg v.toNat })
  else if settingsOpen (s.seat seat) then s.modRing seat slot (fun r => { r with set := ringSetWord r.set reg v.toNat })
  else rejectCfg s seat

-- Indexes -------------------------------------------------------------------------------------------------------------------

/-- A write to RING_DB (R149, R173). -/
def ringDoorbell (s : State) (seat slot : Nat) (v : W32) : State :=
  let r := s.ring seat slot
  let t := s.seat seat
  let resetting := match t.transit with
    | .reset _ => true
    | _ => false
  if !r.act.enable || t.state < 2 || resetting then s
  else if sub32 v.toNat r.fetchIdx ≤ r.size then s.modRing seat slot (fun r => { r with db := v.toNat })
  else s.modRing seat slot (fun r => { r with dbErr := true })

/-- A write to RING_CQ_HEAD (R175, R195). -/
def ringHead (s : State) (seat slot : Nat) (v : W32) : State :=
  let r := s.ring seat slot
  let n := v.toNat
  if sub32 n r.cqHead ≤ sub32 r.cqTail r.cqHead then
    evalRing (s.modRing seat slot (fun r =>
      { r with cqHead := n, armed := true, unread := r.unread.filter (fun u => decide (sub32 u.1 n < sub32 r.cqTail n)) })) seat slot
  else s.modRing seat slot (fun r => { r with dbErr := true })

-- Fetching ------------------------------------------------------------------------------------------------------------------

/-- Producer index up to which entries may be fetched: the doorbell's, or the index recorded by CURTAIN (R148). -/
def Ring.limit (r : Ring) : Nat := r.cut.getD r.db

/-- CHAIN_LEN + 1, once the first packet has come. -/
def Ring.chain (r : Ring) : Nat :=
  match r.packets.find? (fun p => p.1 == 0) with
  | some (_, b) => (b.getD 1 0).toNat % 16 + 1
  | none => 1

/-- The seat may fetch (R148, R176, R528). -/
def seatFetches (s : State) (seat : Nat) : Bool :=
  let t := s.seat seat
  s.serving && !s.alarms.aActive && t.state == 2
    && (match t.transit with
        | .none => true
        | .curtain _ => true
        | _ => false)
    && decide (seatInflight s seat < t.actJ % 2 ^ 15)

/-- A slot has a job to fetch (R176). -/
def ringFetches (s : State) (seat slot : Nat) : Bool :=
  let r := s.ring seat slot
  r.active && decide (r.chain ≤ sub32 r.limit r.fetchIdx) && decide (sub32 r.cqTail r.cqHead + ringInflight s seat slot < r.size)

/-- Issue the reads of packets `from` … of a fetch. -/
def fetchPackets (s : State) (seat slot from_ n : Nat) : State :=
  let r := s.ring seat slot
  ((List.range n).drop from_).foldl (fun s k =>
    addRead s (.fetch seat slot k) seat (r.act.base + (r.fetchIdx + k) % r.size * 128) 128 0) s

/-- The slot that is served next, in round-robin order (R177). -/
def nextSlot (s : State) (seat : Nat) : Option Nat :=
  let from_ := (s.seat seat).rrSlot
  ((List.range 16).map (fun i => (from_ + i) % 16)).find? (ringFetches s seat)

/-- JOB_FETCH: begin, or go on with, the fetch of one job (R176, R177); one at a time for each seat. -/
def startFetch (s : State) (seat : Nat) : State :=
  if !seatFetches s seat || (List.range 16).any (fun i => (s.ring seat i).fetching) then s
  else
    match nextSlot s seat with
    | none => s
    | some slot =>
      let r := s.ring seat slot
      let s := s.modRing seat slot (fun r => { r with fetching := true, fetchLen := r.chain })
      if r.packets = [] then fetchPackets s seat slot 0 1 else fetchPackets s seat slot 1 r.chain

/-- The jobs a FENCE waits for (R183). -/
def fenceScope (s : State) (seat slot scope : Nat) : List Nat :=
  (s.jobs.filter (fun j => j.seat == seat && fromRing j && (scope == 1 || j.src == .ring slot))).map (·.id)

/-- A FENCE whose SCOPE is assigned (R184). -/
def isFence (j : Job) : Bool := j.opcode == 1 && decide (j.fld 16 1 ≤ 1)

/-- TIMEOUT in microseconds, or none (R196). -/
def timeoutUs (field dflt : Nat) : Option Nat :=
  if field = 0xFFFFFFFF then none else if field = 0 then (if dflt = 0 then none else some dflt) else some field

/-- A job is accepted (R177, R178, R196): its packets have all come. -/
def acceptJob (s : State) (seat slot : Nat) (packets : List Bytes) : State :=
  let r := s.ring seat slot
  let h := packets.getD 0 []
  let fl := fieldLE h 2 2
  let id := s.nextJob
  let op := fieldLE h 0 1
  let scope := fieldLE h 16 1
  let waits := if op = 1 ∧ scope ≤ 1 then fenceScope s seat slot scope else []
  let j : Job :=
    { id := id, src := .ring slot, seat := seat, gen := (s.seat seat).gen, opcode := op, flags := fl, tag := fieldLE h 4 4, affinity := fieldLE h 12 4
      body := (packets.map (fun p => sliceZ p 16 112)).flatten, acceptAt := s.stamp
      deadline := if op = 1 then none else (timeoutUs (fieldLE h 8 4) r.tmo).map (fun us => s.deadlineAt (us * 1000))
      prev := if hWaitPrev fl then r.lastJob else none, waits := waits, fenceN := waits.length, hdr1 := fieldLE h 1 1 }
  let s := { s with jobs := s.jobs ++ [j], nextJob := id + 1 }
  let s := s.modRing seat slot (fun r =>
    { r with fetchIdx := (r.fetchIdx + packets.length) % 2 ^ 32, fetching := false, packets := [], lastJob := some id })
  s.modSeat seat (fun t => { t with rrSlot := (slot + 1) % 16 })

/-- Packet `k` of a fetch has come: with the first, the rest is read if the producer index covers it; with the last the job is accepted. -/
def packetIn (s : State) (seat slot k : Nat) (b : Bytes) : State :=
  let r := s.ring seat slot
  if !r.fetching then s
  else
    let s := s.modRing seat slot (fun r => { r with packets := tabPut r.packets k b })
    let r := s.ring seat slot
    let n := r.chain
    if k = 0 ∧ 1 < n then
      if n ≤ sub32 r.limit r.fetchIdx then fetchPackets (s.modRing seat slot (fun r => { r with fetchLen := n })) seat slot 1 n
      else s.modRing seat slot (fun r => { r with fetching := false })
    else if r.packets.length = n then acceptJob s seat slot (r.packets.map (·.2))
    else s

-- Ordering ------------------------------------------------------------------------------------------------------------------

/-- Held at the ring manager by WAIT_PREV or an earlier FENCE of its scope (R185, R564). -/
def heldBack (s : State) (j : Job) : Bool :=
  (match j.prev with
   | some p => s.jobs.any (fun k => k.id == p)
   | none => false)
  || (fromRing j && s.jobs.any (fun k => isFence k && decide (k.id < j.id) && k.seat == j.seat && fromRing k && (k.fld 16 1 == 1 || k.src == j.src)))

/-- A job the ring manager may pass on: live, held, and not held back. -/
def ripe (s : State) (id : Nat) : Option Job := (s.liveJob id).filter (fun j => j.phase == .held && !heldBack s j)

/-- A memory request the job waits on is issued or waits for its port: a read, a spill, an output write, or the lease write it waits for (R198). -/
def readsOut (s : State) (j : Job) : Bool :=
  s.mem.accesses.any (fun a => isReadOf j.id a.owner || isWriteOf j.id a.owner
    || (match a.owner with
        | .assocLease i _ => j.assoc == some i && (j.leaseWait == .nonce || j.leaseWait == .window)
        | .keyLease seat h _ => j.seat == seat && j.leaseWait == .use h
        | _ => false))

/-- Where a job is when its deadline passes (R198, R269, R341, R417); `none` where another event decides. -/
def timeoutSub (s : State) (j : Job) : Option Nat :=
  match j.phase with
  | .held => some 1
  | .queuedBay _ => some 1
  | .queuedEng _ => some 1
  | .inBay _ => some (if readsOut s j then 3 else 2)
  | .inEng w => if (s.engine w).staged == some j.id && readsOut s j then some 3 else none
  | .paused _ => some 2
  | .store started => some (if started then (if readsOut s j then 3 else 2) else 1)
  | .farm started => some (if started then 2 else 1)
  | .away _ _ => some 2
  | _ => none

/-- The seeding deadline of a job that still waits is strictly earlier than now, and no later than its own deadline, which a job past its commit point
has no more (R198, R410, R423). -/
def seedLate (s : State) (j : Job) : Bool :=
  match j.seedBy with
  | none => false
  | some t => s.past t && (match j.deadline with
    | some d => j.committed || decide (t ≤ d)
    | none => true)

/-- A job meets an event: RNG_NOT_READY or TIMEOUT when the deadline that governs has passed (R197, R410), else the event. -/
def inTime (s : State) (j : Job) (sub : Nat) (f : State → State) : State :=
  if seedLate s j then stop s j.id stRngNotReady 0
  else if j.late s && !j.committed then stop s j.id stTimeout sub
  else f s

/-- End a job with OK. -/
def okJob (s : State) (id result : Nat) : State := fixOutcome s id { status := stOk, result := result }

end Sys2Proof.Machine
end

