-- ==== Sys2Proof/Machine/KeyBase.lean ====
section
/-! DEFINITION. The key store as other families use it (chapter 12): ladder keys, key table entries, attribute records with their leases, the
checks of a handle, and erasure. -/

namespace Sys2Proof.Machine

def State.modKeys (s : State) (f : KeyStore → KeyStore) : State := { s with keys := f s.keys }

-- Ladder --------------------------------------------------------------------------------------------------------------------

def seatContext (s : State) (seat gen : Nat) : Bytes := beBytes 2 seat ++ beBytes 2 gen ++ beBytes 8 s.keys.epoch

/-- KEK(s, g) and CK(s, g) of R366. -/
def kek (s : State) (seat gen : Nat) : Bytes := ladderKdf (s.keys.bk.getD []) "GXP seat kek" (seatContext s seat gen)

def ctxKey (s : State) (seat gen : Nat) : Bytes := ladderKdf (s.keys.bk.getD []) "GXP seat ctx" (seatContext s seat gen)

/-- The epoch tag of R366. -/
def epochTagOf (s : State) : Nat := fieldBE (ladderKdf (s.keys.bk.getD []) "GXP epoch tag" (beBytes 8 s.keys.epoch)) 0 4

/-- The seat keys of a seat are held: at most 64 seats, the least recently used dropped (R368). -/
def holdSeatKeys (s : State) (seat gen : Nat) : State :=
  s.modKeys (fun k => { k with seatKeys := ((seat, gen) :: k.seatKeys.filter (fun p => !(p == (seat, gen)))).take 64 })

-- Entries -------------------------------------------------------------------------------------------------------------------

/-- Largest MAT_LEN of R377. -/
abbrev maxMat : Nat := 4896

/-- A key table entry as R371 lays it out. -/
structure Entry where
  format  : Nat
  state   : Nat
  seat    : Nat
  gen     : Nat
  attr    : Nat
  matLen  : Nat
  expires : Nat
  limit   : Nat
  count   : Nat
  blob    : Nat
  nonce   : Bytes
  inl     : Bytes
  tag     : Bytes
  deriving DecidableEq, Repr

def entryOf (b : Bytes) : Entry :=
  { format := fieldLE b 0 1, state := fieldLE b 1 1, seat := fieldLE b 2 2, gen := fieldLE b 4 2, attr := fieldLE b 8 4, matLen := fieldLE b 12 4
    expires := fieldLE b 16 8, limit := fieldLE b 24 8, count := fieldLE b 32 8, blob := fieldLE b 40 8, nonce := sliceZ b 48 12
    inl := sliceZ b 64 176, tag := sliceZ b 240 16 }

/-- Bytes 0 to 31 of an entry. -/
def entryHead (e : Entry) : Bytes :=
  leBytes 1 e.format ++ leBytes 1 e.state ++ leBytes 2 e.seat ++ leBytes 2 e.gen ++ zeros 2 ++ leBytes 4 e.attr ++ leBytes 4 e.matLen
    ++ leBytes 8 e.expires ++ leBytes 8 e.limit

/-- The 256 bytes of an entry. -/
def entryBytes (e : Entry) : Bytes :=
  entryHead e ++ leBytes 8 e.count ++ leBytes 8 e.blob ++ sliceZ e.nonce 0 12 ++ zeros 4 ++ sliceZ e.inl 0 176 ++ sliceZ e.tag 0 16

/-- Additional data of an entry's seal (R372), from its bytes. -/
def entryAad (b : Bytes) (h : Nat) : Bytes := sliceZ b 0 32 ++ sliceZ b 40 24 ++ leBytes 4 h

/-- Seat address of an entry (R370). -/
def entryAddr (s : State) (seat h : Nat) : Nat := (s.seat seat).act.keytab + 256 * h

/-- The material of an entry under its TAG. -/
def openEntry (s : State) (seat gen h : Nat) (b blob : Bytes) : Option Bytes :=
  let e := entryOf b
  let ct := if e.matLen ≤ 176 then e.inl.take e.matLen else blob
  gcmOpen (kek s seat gen) e.nonce (entryAad b h) ct e.tag

/-- Seal an entry (R372): the next nonce, the entry's bytes, and the bytes for BLOB_ADDR when the material does not fit inline. -/
def sealEntry (s : State) (seat gen h attr expires limit count blob : Nat) (mat : Bytes) : State × Bytes × Bytes :=
  let s := holdSeatKeys s seat gen
  let nonce := leBytes 4 s.keys.wrapStarts ++ leBytes 8 s.keys.sealCount
  let inl := decide (mat.length ≤ 176)
  let e : Entry := { format := 1, state := 1, seat := seat, gen := gen, attr := attr, matLen := mat.length, expires := expires, limit := limit, count := count
                     blob := if inl then 0 else blob, nonce := nonce, inl := [], tag := [] }
  let r := gcmSeal (kek s seat gen) nonce (entryAad (entryBytes e) h) mat
  let s := s.modKeys (fun k => { k with sealCount := k.sealCount + 1 })
  (s, entryBytes { e with inl := if inl then r.1 else [], tag := r.2 }, if inl then [] else r.1)

-- KEYATTR -------------------------------------------------------------------------------------------------------------------

def attrAlg (a : Nat) : Nat := a / 2 ^ 24
def attrGuarded (a : Nat) : Bool := a.testBit 23
def attrExportable (a : Nat) : Bool := a.testBit 22
def attrWrap (a : Nat) : Bool := a.testBit 21

/-- Lifetime in seconds, 0 for none (R376). -/
def attrLife (a : Nat) : Nat :=
  a % 2 ^ 14 * (match bits a 15 14 with
    | 0 => 1
    | 1 => 60
    | 2 => 3600
    | _ => 86400)

/-- EXPIRES for an entry written now (R378). -/
def expiresAt (s : State) (a : Nat) : Nat := if attrLife a = 0 then 0 else s.secs + attrLife a

/-- MAT_LEN of an algorithm, where R377 lists one (0 where it lists a range). -/
def algLen (alg : Nat) : Nat :=
  match alg with
  | 0x01 => 16 | 0x02 => 24 | 0x03 => 32 | 0x04 => 32 | 0x05 => 64 | 0x06 => 32
  | 0x30 => 32 | 0x31 => 48 | 0x32 => 32 | 0x33 => 32
  | 0x40 => 1632 | 0x41 => 2400 | 0x42 => 3168 | 0x48 => 2560 | 0x49 => 4032 | 0x4A => 4896
  | _ => 0

/-- A length that R377 lists. -/
def matLenOk (alg n : Nat) : Bool :=
  match alg with
  | 0x08 => decide (1 ≤ n) && decide (n ≤ 64)
  | 0x09 => decide (1 ≤ n) && decide (n ≤ 64)
  | 0x0A => decide (1 ≤ n) && decide (n ≤ 128)
  | 0x0B => decide (1 ≤ n) && decide (n ≤ 128)
  | 0x10 => decide (16 ≤ n) && decide (n ≤ 64)
  | 0x20 => n % 40 == 0 && decide (40 ≤ n) && decide (n ≤ 2560)
  | 0x21 => n % 8 == 0 && decide (8 ≤ n) && decide (n ≤ 1024)
  | _ => decide (0 < algLen alg) && n == algLen alg

/-- An ALG value of R377. -/
def algOk (alg : Nat) : Bool := decide (0 < algLen alg) || (decide (0x08 ≤ alg) && decide (alg ≤ 0x0B)) || alg == 0x10 || alg == 0x20 || alg == 0x21

/-- KEYATTR of an entry to be written: reserved bits, ALG, and WRAP and GUARDED where the algorithm allows them (R376, R377, R388). -/
def attrOk (a : Nat) : Bool :=
  let alg := attrAlg a
  bits a 20 16 == 0 && algOk alg
    && (!attrWrap a || (decide (1 ≤ alg) && decide (alg ≤ 3)))
    && (!attrGuarded a || decide (alg ≤ 0x0B))

/-- Expired (R378, R379): the subcode of KEY_EXPIRED. -/
def expiredSub (s : State) (expires limit count : Nat) : Option Nat :=
  if expires ≠ 0 ∧ expires ≤ s.secs then some 0 else if limit ≠ 0 ∧ limit ≤ count then some 1 else none

-- Attribute records ---------------------------------------------------------------------------------------------------------

def isAttr (seat handle : Nat) (a : Attr) : Bool := a.seat == seat && a.handle == handle

/-- The record of a handle of the seat's present generation. -/
def findAttr (s : State) (seat handle : Nat) : Option Attr :=
  s.keys.attrs.find? (fun a => isAttr seat handle a && a.gen == (s.seat seat).gen)

/-- Drop a record without write-back. -/
def dropAttr (s : State) (seat handle : Nat) : State := s.modKeys (fun k => { k with attrs := k.attrs.filter (fun a => !isAttr seat handle a) })

def modAttr (s : State) (seat handle : Nat) (f : Attr → Attr) : State :=
  s.modKeys (fun k => { k with attrs := k.attrs.map (fun a => if isAttr seat handle a then f a else a) })

/-- Write a count to USE_COUNT of an entry. -/
def writeCount (s : State) (o : Owner) (seat handle n : Nat) : State := addWrite s o seat (entryAddr s seat handle + 32) (leBytes 8 n) 2

/-- Put a record at the head; past 65,536 the least recently used leaves, with its exact count when it holds a lease (R374, R379). -/
def putAttr (s : State) (a : Attr) : State :=
  let all := a :: s.keys.attrs.filter (fun x => !isAttr a.seat a.handle x)
  let s := s.modKeys (fun k => { k with attrs := all.take 65536 })
  match all.drop 65536 with
  | [] => s
  | x :: _ => if x.stored.isSome then writeCount s (.writeBack none) x.seat x.handle x.count else s

/-- What counting one use answers (R379). -/
inductive UseResult where
  | counted (s : State)
  | expired (sub : Nat)
  | wait (s : State)

/-- Ask for a lease: USE_COUNT + 4,096, capped at USE_LIMIT, unless one is on its way. -/
def askLease (s : State) (a : Attr) (job : Nat) : State :=
  if a.leasing.isSome then s
  else
    let v := min (a.count + 4096) a.limit
    modAttr (writeCount s (.keyLease a.seat a.handle job) a.seat a.handle v) a.seat a.handle (fun a => { a with leasing := some v, leaseReq := s.mem.nextId })

/-- The lease write a job waits for from now on (R261, R379, R439). -/
def setWait (s : State) (id : Nat) (w : LeaseWait) : State := s.modJob id (fun j => { j with leaseWait := w })

/-- Count one use of a key for a job (R378, R379); a job that waits to count it waits for the lease write of the key (R394). -/
def countUse (s : State) (a : Attr) (job : Nat) : UseResult :=
  match expiredSub s a.expires a.limit a.count with
  | some sub => .expired sub
  | none =>
    if a.limit = 0 then .counted s
    else
      match a.stored with
      | none => .wait (setWait (askLease s a job) job (.use a.handle))
      | some v =>
        if a.count < v then
          let a' := { a with count := a.count + 1 }
          let s := setWait (modAttr s a.seat a.handle (fun x => { x with count := x.count + 1 })) job .none
          .counted (if v < a.limit ∧ v ≤ a'.count + 1024 then askLease s a' job else s)
        else .wait (setWait (askLease s a job) job (.use a.handle))

/-- A lease write is acknowledged: the one the record asked for, by the number of its request (a record that has gone meanwhile may have left one on its way). -/
def leaseAcked (s : State) (seat handle req : Nat) : State :=
  modAttr s seat handle (fun a => match a.leasing with
    | some v => if a.leaseReq = req then { a with stored := some v, leasing := none } else a
    | none => a)

-- Checks of a handle --------------------------------------------------------------------------------------------------------

/-- The reads of an entry, by stage (0 check, 1 load, 2 second check), and of its blob. -/
def keyKey (h stage : Nat) : BufKey := { kind := .key, a := h, b := stage }

def keyRead (s : State) (j : Job) (h stage : Nat) : Read := Read.make (keyKey h stage) j.seat (entryAddr s j.seat h) 256 2

def blobRead (j : Job) (h stage : Nat) (e : Entry) : Read := Read.make { kind := .keyBlob, a := h, b := stage } j.seat e.blob e.matLen 2

/-- The first 4,096 bytes of a read, and the rest, as reads of their own: the input stage of an engine holds no more at once (R354). -/
def Read.head (r : Read) : Read := { r with key := { r.key with b := r.key.b + 16 }, pieces := cutRuns r.pieces 0 4096 }

def Read.len (r : Read) : Nat := (r.pieces.map (·.2)).foldl (· + ·) 0

def Read.rest (r : Read) : Read := { r with key := { r.key with b := r.key.b + 32 }, pieces := cutRuns r.pieces 4096 (r.len - 4096) }

/-- The bytes of a read that may have come in two parts. -/
def Job.allParts (j : Job) (r : Read) : Option Bytes := j.all r <|> (j.all r.head).bind (fun a => (j.all r.rest).map (a ++ ·))

/-- A key-management job on the handle is in progress (R393): started, or its writes still out. -/
def keyBusy (s : State) (j : Job) (h : Nat) : Bool :=
  s.jobs.any (fun k => k.id != j.id && k.seat == j.seat && decide (0x60 ≤ k.opcode) && decide (k.opcode ≤ 0x68) && k.fld 20 4 == h
    && ((k.phase == .store true && k.started) || (k.phase == .done && writesOut s k.id)))

/-- A key-management opcode (R383). -/
def isKeyOp (op : Nat) : Bool := decide (0x60 ≤ op) && decide (op ≤ 0x68)

/-- A read brings the entry of a handle or its blob for a check or load that is still to be made; what a placed job holds of OUTREF was judged before. -/
def isEntryRead (h : Nat) (j : Job) (k : BufKey) : Bool :=
  k.a == h && (k.kind == .key || k.kind == .keyBlob || k.kind == .subj || k.kind == .subjBlob) && (k.b != 3 || j.phase == .held)

/-- A job may have read the entry of a key of the seat for a check or a load that is still to be made; a key-management job once started has made its
checks (R392). -/
def mayCheck (seat : Nat) (j : Job) : Bool :=
  (j.seat == seat || j.opcode == 0x70 || j.opcode == 0x71) && j.outcome.isNone && !(isKeyOp j.opcode && j.started)

/-- A key-management job starts on a handle: what other jobs have read of the entry for checks still to be made is given up, and read anew once the job
has left the entry as it is then (R393, R394). -/
def staleEntry (s : State) (id seat h : Nat) : State :=
  let hit := fun (k : Nat) (key : BufKey) => k != id && (s.job? k).any (fun j => mayCheck seat j && isEntryRead h j key)
  let s' : State := { s with jobs := s.jobs.map (fun j => if j.id != id && mayCheck seat j then { j with got := j.got.filter (fun g => !isEntryRead h j g.1) } else j) }
  { s' with mem := { s'.mem with accesses := s'.mem.accesses.filterMap (fun a =>
      match a.owner with
      | .jobRead k key _ => if hit k key then (if a.issued then some (a.discarded false) else none) else some a
      | _ => some a) } }

/-- What a check or a load of a key answers. -/
inductive KeyAnswer where
  /-- reads that have not come -/
  | need (rs : List Read)
  /-- wait for a key-management job (R393) -/
  | busy
  | bad (sub : Nat)
  | good (a : Attr) (mat : Bytes)

/-- Read and judge an entry (R373): 0x02, 0x03, or the record and the material. -/
def judgeEntry (s : State) (j : Job) (h stage : Nat) : KeyAnswer :=
  let r := keyRead s j h stage
  match j.all r with
  | none => .need [r]
  | some b =>
    let e := entryOf b
    let gen := (s.seat j.seat).gen
    if e.state ≠ 1 ∨ e.format ≠ 1 then .bad 2
    else if e.seat ≠ j.seat ∨ e.gen ≠ gen ∨ maxMat < e.matLen then .bad 3
    else
      let rb := blobRead j h stage e
      match (if e.matLen ≤ 176 then some [] else j.allParts rb) with
      | none => .need [rb]
      | some blob =>
        match openEntry s j.seat gen h b blob with
        | none => .bad 3
        | some mat =>
          .good { seat := j.seat, gen := gen, handle := h, attr := e.attr, expires := e.expires, limit := e.limit, count := e.count, matLen := e.matLen, blob := e.blob } mat

/-- The checks of R373 on a handle: the record when one is held, else the entry. No material is given out. -/
def checkKey (s : State) (j : Job) (h stage : Nat) : KeyAnswer :=
  if (s.seat j.seat).act.keyLen ≤ h then .bad 1
  else if keyBusy s j h then .busy
  else
    match findAttr s j.seat h with
    | some a => .good a []
    | none =>
      match judgeEntry s j h stage with
      | .good a _ => .good a []
      | x => x

/-- Load material: the entry is read and opened under its TAG (R374), which waits like any check for a key-management job on the handle (R393), but for
that of a key-management job, whose checks are made; the record held keeps its count. -/
def loadKey (s : State) (j : Job) (h stage : Nat) : KeyAnswer :=
  if (s.seat j.seat).act.keyLen ≤ h then .bad 1
  else if !isKeyOp j.opcode && keyBusy s j h then .busy
  else
    match judgeEntry s j h stage with
    | .good a mat => .good ((findAttr s j.seat h).getD a) mat
    | x => x

/-- Keep the record of a handle that has passed, most recently used. -/
def keepAttr (s : State) (a : Attr) : State := putAttr (holdSeatKeys s a.seat a.gen) a

-- Erasure -------------------------------------------------------------------------------------------------------------------

/-- Erase what the block holds of a seat's keys (R154 step 3, R395), and its DRBG instance. -/
def eraseSeatKeys (s : State) (seat : Nat) : State :=
  zeroInst (s.modKeys (fun k =>
    { k with attrs := k.attrs.filter (fun a => a.seat != seat), scheds := k.scheds.filter (fun c => c.seat != seat)
             slots := k.slots.filter (fun c => c.seat != seat), seatKeys := k.seatKeys.filter (fun p => p.1 != seat) })) seat

end Sys2Proof.Machine
end

