-- ==== Sys2Proof/Machine/Assoc.lean ====
section
/-! DEFINITION. Associations (R437 to R447): entries and their cache, the nonce lease of R261, the window lease of R439, nonces, the replay
window, ownership. -/

namespace Sys2Proof.Machine

def State.modFront (s : State) (f : Front → Front) : State := { s with front := f s.front }

-- Entries -------------------------------------------------------------------------------------------------------------------

def aSealEn (f : Nat) : Bool := f.testBit 0
def aOpenEn (f : Nat) : Bool := f.testBit 1
def aEsn (f : Nat) : Bool := f.testBit 2
def aLearn (f : Nat) : Bool := f.testBit 3
def aWinClean (f : Nat) : Bool := f.testBit 4

/-- Every bit of WIN_BITS. -/
abbrev winFull : Nat := 2 ^ 1024 - 1

/-- The counter value that is never issued (R260). -/
abbrev ctrEnd : Nat := 2 ^ 64 - 1

/-- The fields of an entry (R437), the window as R439 takes it at load. -/
def assocOf (i : Nat) (b : Bytes) : Assoc :=
  let fl := fieldLE b 12 4
  { index := i, seat := fieldLE b 2 2, gen := fieldLE b 4 2, state := if fieldLE b 0 1 = 1 then fieldLE b 1 1 else 0, mode := fieldLE b 6 1
    tagLen := fieldLE b 7 1, keyref := fieldLE b 8 4, flags := fl, spi := fieldBE b 16 4, outSpi := fieldBE b 20 4, sealSalt := sliceZ b 24 4
    openSalt := sliceZ b 28 4, ctr := fieldLE b 32 8, soft := fieldLE b 40 8, flow := fieldLE b 48 4, home := fieldLE b 52 1
    winTop := if aWinClean fl then fieldLE b 56 8 else fieldLE b 64 8, winLease := fieldLE b 64 8
    winBits := if aWinClean fl then fieldLE b 72 128 else winFull, localEp := sliceZ b 200 18, peerEp := sliceZ b 218 18 }

/-- FLOW_HASH (R438): the lower endpoint string first. -/
def flowHash (a b : Bytes) : Nat := if beNat a ≤ beNat b then crc32c (a ++ b) else crc32c (b ++ a)

/-- Address of an entry. -/
def assocAddr (s : State) (i : Nat) : Nat := s.front.assocBase + 256 * i

/-- The read of an entry, under seat 0 with REQ_ATTR[1]. -/
def assocRead (s : State) (i : Nat) : Read := Read.make { kind := .assoc, a := i } 0 (assocAddr s i) 256 2

-- Cache ---------------------------------------------------------------------------------------------------------------------

def State.assoc? (s : State) (i : Nat) : Option Assoc := s.front.cache.find? (fun a => a.index == i)

def modAssoc (s : State) (i : Nat) (f : Assoc → Assoc) : State :=
  s.modFront (fun x => { x with cache := x.cache.map (fun a => if a.index == i then f a else a) })

def dropAssoc (s : State) (i : Nat) : State := s.modFront (fun x => { x with cache := x.cache.filter (fun a => a.index != i) })

/-- The entry becomes the most recently used. -/
def touchAssoc (s : State) (a : Assoc) : State := s.modFront (fun x => { x with cache := a :: x.cache.filter (fun c => c.index != a.index) })

/-- A write into an entry. -/
def assocPut (s : State) (o : Owner) (i off : Nat) (data : Bytes) : State := addWrite s o 0 (assocAddr s i + off) data 2

/-- A lease write of the association is on its way. -/
def leaseOut (s : State) (i : Nat) : Bool :=
  s.mem.accesses.any (fun a => match a.owner with | .assocLease k _ => k == i | _ => false)

/-- Ask for a nonce lease: SEAL_CTR + 65,536, capped (R261). -/
def askSeal (s : State) (i job : Nat) : State :=
  match s.assoc? i with
  | some a =>
    if a.sealNext.isSome then s
    else
      let v := min (a.ctr + 65536) ctrEnd
      assocPut (modAssoc s i (fun a => { a with sealNext := some v, sealReq := s.mem.nextId })) (.assocLease i job) i 32 (leBytes 8 v)
  | none => s

/-- Ask for a window lease of `top` + 16,384, capped (R439); WIN_CLEAN is cleared with the first. -/
def askWindow (s : State) (i job top : Nat) : State :=
  match s.assoc? i with
  | some a =>
    if a.winNext.isSome then s
    else
      let v := min (top + 16384) ctrEnd
      let s := assocPut (modAssoc s i (fun a => { a with winNext := some v, winReq := s.mem.nextId, flags := maskSet a.flags 4 false })) (.assocLease i job) i 64
        (leBytes 8 v)
      if aWinClean a.flags then assocPut s (.assocLease i job) i 12 (leBytes 4 (maskSet a.flags 4 false)) else s
  | none => s

/-- A job uses the entry, or a lease of it is being written: it is not evicted. -/
def assocUsed (s : State) (a : Assoc) : Bool :=
  s.jobs.any (fun j => j.assoc == some a.index && j.outcome.isNone) || leaseOut s a.index

/-- The exact counter and window of an evicted entry (R261, R439). -/
def assocBack (s : State) (a : Assoc) : State :=
  let s := assocPut s (.writeBack none) a.index 32 (leBytes 8 a.ctr)
  let s := assocPut s (.writeBack none) a.index 56 (leBytes 8 a.winTop)
  let s := assocPut s (.writeBack none) a.index 72 (leBytes 128 a.winBits)
  assocPut s (.writeBack none) a.index 12 (leBytes 4 (maskSet a.flags 4 true))

/-- Past 16,384 entries the least recently used that no job uses leaves (R439). -/
def assocEvict (s : State) : State :=
  if s.front.cache.length ≤ 16384 then s
  else
    match s.front.cache.reverse.find? (fun a => !assocUsed s a) with
    | some a =>
      let s := dropAssoc s a.index
      if a.sealStored.isSome || a.winStored.isSome then assocBack s a else s
    | none => s

/-- An entry read for a job enters the cache, and its leases are written (R261, R439). -/
def assocLoad (s : State) (job : Nat) (a : Assoc) : State :=
  let s := assocEvict (touchAssoc s a)
  askWindow (askSeal s a.index job) a.index job a.winTop

/-- A lease write is acknowledged; `off` is its place in the entry, `req` the number of its request. One that the entry as it is held now did not ask for, left on
its way when the entry was dropped and loaded again, confirms nothing (R261, R439). -/
def assocAcked (s : State) (i req off : Nat) : State :=
  modAssoc s i (fun a =>
    if off = 32 then (match a.sealNext with
      | some v => if a.sealReq = req then { a with sealStored := some v, sealNext := none } else a
      | none => a)
    else if off = 64 then (match a.winNext with
      | some v => if a.winReq = req then { a with winStored := some v, winLease := v, winNext := none } else a
      | none => a)
    else a)

-- Nonces --------------------------------------------------------------------------------------------------------------------

/-- The sealing direction is sealed off (R260), or is to be (R447). -/
def sealedOff (a : Assoc) : Bool := a.ctr == ctrEnd || (!aEsn a.flags && decide (2 ^ 32 ≤ a.ctr))

/-- NONCE_SOFT_LIMIT (R259): a value at or above SEAL_SOFT has been issued (log entry 42). -/
def softReached (a : Assoc) : Bool := decide (a.soft < a.ctr)

/-- An association that has issued its SEAL_SOFT is noted (R259). -/
def noteSoft (s : State) (a : Assoc) : State :=
  if softReached a && !s.front.softDone.contains (a.index, a.seat, a.gen) then s.modFront (fun f => { f with softDone := (a.index, a.seat, a.gen) :: f.softDone })
  else s

/-- What asking for a nonce answers. -/
inductive NonceAns where
  | issued (s : State) (v : Nat)
  | sealed (s : State)
  | wait (s : State)

/-- Issue the next counter value (R258, R260, R261, R447); a SEAL that waits for its value waits for the lease write of the counter. -/
def issueNonce (s : State) (i job : Nat) : NonceAns :=
  match s.assoc? i with
  | none => .wait s
  | some a =>
    if sealedOff a then
      .sealed (if a.ctr = ctrEnd then s
        else assocPut (modAssoc (noteSoft s { a with ctr := ctrEnd }) i (fun a => { a with ctr := ctrEnd, sealStored := some ctrEnd })) (.writeBack (some job)) i 32 (leBytes 8 ctrEnd))
    else
      match a.sealStored with
      | none => .wait (setWait (askSeal s i job) job .nonce)
      | some v =>
        if a.ctr < v then
          let s := setWait (noteSoft (modAssoc s i (fun a => { a with ctr := a.ctr + 1 })) { a with ctr := a.ctr + 1 }) job .none
          .issued (if v ≠ ctrEnd ∧ v ≤ a.ctr + 1 + 16384 then askSeal s i job else s) a.ctr
        else .wait (setWait (askSeal s i job) job .nonce)

-- Window --------------------------------------------------------------------------------------------------------------------

/-- The replay check of R446: the subcode of REPLAY. -/
def replaySub (a : Assoc) (n : Nat) : Option Nat :=
  if n = 0 then some 3
  else if a.winTop < n then none
  else if n + 1023 < a.winTop then some 1
  else if a.winBits.testBit (a.winTop - n) then some 2 else none

/-- Mark a number (R446). -/
def markWindow (a : Assoc) (n : Nat) : Assoc :=
  if a.winTop < n then
    let d := n - a.winTop
    { a with winTop := n, winBits := (if d < 1024 then a.winBits * 2 ^ d % 2 ^ 1024 else 0) ||| 1 }
  else { a with winBits := a.winBits ||| 2 ^ (a.winTop - n) }

/-- The window may be marked with a number: the lease covers it and its writes are acknowledged (R439). -/
def markReady (s : State) (a : Assoc) (n : Nat) : Bool :=
  match a.winStored with
  | some v => decide (max n a.winTop ≤ v)
      && !(s.mem.accesses.any (fun x => match x.owner with | .assocLease k _ => k == a.index && x.va % 256 == 12 | _ => false))
  | none => false

/-- A job waits until the window may be marked (R439). -/
def waitWindow (s : State) (i job top : Nat) : State := setWait (askWindow s i job top) job .window

/-- Mark, and renew the lease when the top comes within 4,096 of it. -/
def markAssoc (s : State) (i job n : Nat) : State :=
  match s.assoc? i with
  | none => s
  | some a =>
    let a' := markWindow a n
    let s := setWait (modAssoc s i (fun a => markWindow a n)) job .none
    match a'.winStored with
    | some v => if v ≠ ctrEnd ∧ v ≤ a'.winTop + 4096 then askWindow s i job a'.winTop else s
    | none => s

-- Ownership -----------------------------------------------------------------------------------------------------------------

/-- NO_ASSOCIATION of R443 for an entry as a seat's job, or (with `pkt`) a packet, finds it; the packet's owner is the entry's seat. Causes are
judged in the order of the table, but for a memory job ownership, which check 3 of R242 names, comes before the direction (log entry 61). -/
def assocBad (s : State) (a : Assoc) (seat : Nat) (sealing isOpen pkt : Bool) (spi : Option Nat) : Option Nat :=
  let foreign := a.seat ≠ seat ∨ a.gen ≠ (s.seat a.seat).gen
  if s.front.assocBase = 0 then some 1
  else if a.state = 2 then some 7
  else if a.state ≠ 1 then some 1
  else if spi.any (fun x => x != a.spi) then some 2
  else if !pkt ∧ foreign then some 4
  else if (sealing && !aSealEn a.flags) || (isOpen && !aOpenEn a.flags) then some 3
  else if foreign then some 4
  else if pkt ∧ a.mode = 2 then some 6
  else none

/-- The direction of an association job: SEAL or outbound packet; OPEN or inbound packet. -/
def Job.opens (j : Job) : Bool :=
  match j.pkt with
  | some p => !p.metaIn.getLsbD 24
  | none => j.opcode == 0x11

end Sys2Proof.Machine
end

