-- ==== Sys2Proof/Machine/Work.lean ====
section
/-! DEFINITION. Symmetric and digest jobs as work (chapters 7, 8, 9): the checks made at the dispatcher (R242, R280, R296), the input stream and
its segments (R267, R310), and the context record with its checks (R276, R285, R311). -/

namespace Sys2Proof.Machine

-- Answers of a check --------------------------------------------------------------------------------------------------------

/-- What stops a chain of checks: reads that have not come, a wait (with what it asked for), or a status. -/
inductive Halt where
  | need (rs : List Read)
  | wait (s : State)
  | fail (status sub opf : Nat)

abbrev Ck := Except Halt

/-- A check of a table: it fails with a status and subcode. -/
def chk (bad : Bool) (status sub : Nat) : Ck Unit := if bad then .error (.fail status sub 0) else .ok ()

/-- Wait until a condition holds. -/
def chkWait (s : State) (c : Bool) : Ck Unit := if c then .ok () else .error (.wait s)

/-- Wait until every read of a list has come. -/
def needAll (j : Job) (rs : List Read) : Ck Unit :=
  match rs.filter (fun r => !j.hasRead r) with
  | [] => .ok ()
  | m => .error (.need m)

def needBytes (j : Job) (r : Read) : Ck Bytes :=
  match j.all r with
  | some b => .ok b
  | none => .error (.need [r])

/-- Descriptors of the body at some offsets (R181): the form of each, then its list; `strict` where check 1 of the group names reserved bits. -/
def needLists (j : Job) (offs : List Nat) (strict : Bool) : Ck Unit := do
  chk (offs.any (fun o => (j.desc o).refused strict)) stInternal 4
  needAll j (j.listReads offs)
  chk (offs.any j.tooLong) stInternal 4

/-- End a job by a failed check. -/
def failOpf (s : State) (id status sub opf : Nat) : State :=
  let s := failJob s id status sub
  if opf = 0 then s else s.modJob id (fun j => { j with outcome := j.outcome.map (fun o => { o with opf := opf }) })

/-- The checks that follow a handle's: one that fails leaves the record of the handle, which has passed, with the key store (R374, R379). -/
def keepOn {α : Type} (s : State) (j : Job) (x : Ck α) : Ck α :=
  match x with
  | .error (.fail status sub opf) => .error (.wait (failOpf s j.id status sub opf))
  | y => y

-- Keys ----------------------------------------------------------------------------------------------------------------------

/-- A key as KEYREF of a job (R205, R373): 0x30 for GUARD, 0x32 for a WRAP or SECRET key, 0x31 where the algorithm does not fit. -/
def keyCk (s : State) (j : Job) (h : Nat) (guard : Bool) (fits : Nat → Nat → Bool) : Ck (State × Attr) :=
  match checkKey s j h 0 with
  | .need rs => .error (.need rs)
  | .busy => .error (.wait s)
  | .bad sub => .error (.fail stKeyHandle sub 0)
  | .good a _ => do
    chk (guard && !attrGuarded a.attr) stKeyHandle 0x30
    chk (attrWrap a.attr || attrAlg a.attr == 0x10) stKeyHandle 0x32
    chk (!fits (attrAlg a.attr) a.matLen) stKeyHandle 0x31
    pure (keepAttr s a, a)

-- Symmetric fields ----------------------------------------------------------------------------------------------------------

/-- What a symmetric job runs: mode, tag length, PARAM, key handle, IV field. -/
structure SymW where
  mode   : Nat
  tagLen : Nat
  param  : Nat
  handle : Nat
  iv     : Bytes
  deriving DecidableEq, Repr

/-- A job of the symmetric group. -/
def Job.isSym (j : Job) : Bool := decide (0x10 ≤ j.opcode) && decide (j.opcode ≤ 0x16)

/-- A job of the digest group. -/
def Job.isDig (j : Job) : Bool := decide (0x20 ≤ j.opcode) && decide (j.opcode ≤ 0x26)

/-- ASSOC = 1 of a symmetric job; a packet is always on an association. -/
def Job.onAssoc (j : Job) : Bool := j.isSym && (j.opBit 15 || j.pkt.isSome)

/-- The association a job of the symmetric or packet group names. -/
def Job.assocIdx (j : Job) : Nat :=
  match j.pkt with
  | some p => p.assoc
  | none => j.fld (if j.opcode = 0x70 ∨ j.opcode = 0x71 then 16 else 20) 4

/-- Encrypting direction. -/
def Job.enc (j : Job) : Bool := j.opcode == 0x10 || j.opcode == 0x14

/-- The counter value of a job on an association: issued to it, or received. -/
def Job.ctr (j : Job) : Nat :=
  if j.opcode = 0x10 then j.nonce.getD 0 else j.fld 24 8

/-- The work of a job by the entry of its association, or by its body. -/
def symBy (entry : Option Assoc) (j : Job) : SymW :=
  match entry with
  | some a =>
    { mode := a.mode, tagLen := a.tagLen, param := 0, handle := a.keyref
      iv := (if j.opcode = 0x10 then a.sealSalt else a.openSalt) ++ beBytes 8 j.ctr ++ zeros 4 }
  | none => { mode := j.fld 16 1, tagLen := j.fld 17 1, param := j.fld 18 1, handle := j.fld 20 4, iv := j.bytesAt 32 16 }

def symOf (s : State) (j : Job) : SymW := symBy (if j.onAssoc then s.assoc? j.assocIdx else none) j

/-- MODE on an opcode (R240). -/
def modeOn (op mode : Nat) : Bool :=
  if op = 0x10 ∨ op = 0x11 then decide (1 ≤ mode) && decide (mode ≤ 3)
  else if op = 0x12 ∨ op = 0x13 then mode == 4 || mode == 5
  else if op = 0x14 ∨ op = 0x15 then decide (6 ≤ mode) && decide (mode ≤ 8)
  else false

def tagFits (mode n : Nat) : Bool :=
  match mode with
  | 1 => n == 4 || n == 8 || (decide (12 ≤ n) && decide (n ≤ 16))
  | 4 => n == 4 || n == 8 || (decide (12 ≤ n) && decide (n ≤ 16))
  | 2 => n == 16
  | 3 => n == 16
  | 5 => decide (4 ≤ n) && decide (n ≤ 16)
  | _ => n == 0

def paramFits (mode p : Nat) : Bool :=
  match mode with
  | 6 => decide (p ≤ 2)
  | 8 => p == 0 || (decide (9 ≤ p) && decide (p ≤ 16))
  | _ => p == 0

def keyFits (mode alg : Nat) : Bool :=
  match mode with
  | 2 => alg == 1 || alg == 3
  | 3 => alg == 6
  | 8 => alg == 4 || alg == 5
  | _ => decide (1 ≤ alg) && decide (alg ≤ 3)

def payloadFits (mode param n : Nat) : Bool :=
  match mode with
  | 7 => n % 16 == 0
  | 8 => if param = 0 then decide (16 ≤ n) && decide (n ≤ 2 ^ 24) else n != 0 && n % 2 ^ param == 0
  | _ => decide (n < 2 ^ 32)

def ivFits (mode : Nat) (iv : Bytes) : Bool :=
  if mode = 5 then iv == zeros 16 else if mode ≤ 4 then iv.drop 12 == zeros 4 else true

/-- Inline additional data (R238). -/
def Job.inl (j : Job) : Nat := if j.isSym then j.fld 19 1 else 0

def Job.aadLen (j : Job) : Nat := if j.isSym then j.inl + j.avail 80 else 0

/-- Payload, or declared message length. -/
def Job.payLen (j : Job) : Nat := if j.isDig then (if j.opcode = 0x24 then j.fld 18 2 else j.fld 24 4) else j.avail 48

/-- The CTX descriptor against SEG (R280). -/
def ctxBad (j : Job) : Bool :=
  let c := j.desc 112
  if j.seg = 0 then !c.zero else c.sgl || decide (c.len < 256) || c.addr % 64 != 0

/-- The SEG positions table (R279, R280) on a symmetric job. -/
def symSegBad (j : Job) : Bool :=
  let mode := j.fld 16 1
  let param := j.fld 18 1
  let pay := j.avail 48
  let whole := pay != 0 && (if mode = 8 then pay % 2 ^ param == 0 else pay % 64 == 0)
  if j.seg = 0 then false
  else
    j.opBit 15 || j.opcode == 0x16 || j.opBit 14 || mode == 2 || (mode == 8 && decide (param < 9))
      || (j.seg != 3 && (!(j.desc 96).zero || !whole))
      || (j.seg != 1 && (j.bytesAt 32 16 != zeros 16 || j.aadLen != 0))
      || (j.seg == 3 && mode == 5 && pay == 0)

/-- The opcode makes or checks a tag. -/
def Job.hasTag (j : Job) : Bool := decide (0x10 ≤ j.opcode) && decide (j.opcode ≤ 0x13)

/-- The opcode has output in DST. -/
def Job.hasOut (j : Job) : Bool := j.opcode == 0x10 || j.opcode == 0x11 || j.opcode == 0x14 || j.opcode == 0x15

/-- Check 1 of R242. -/
def symBad (j : Job) : Bool :=
  let op := j.opcode
  let mode := j.fld 16 1
  let pay := j.avail 48
  let assoc := j.opBit 15
  (assoc && !(op == 0x10 || op == 0x11 || op == 0x16)) || (!assoc && op == 0x16) || ctxBad j || symSegBad j
    || (j.opBit 14 && (op != 0x11 || decide (65536 < pay)))
    || decide (112 < j.inl) || (j.inl != 0 && decide (j.body.length < 224))
    || (if assoc then mode != 0 || j.fld 17 1 != 0 || j.fld 18 1 != 0 || j.fld 23 1 != 0 || j.bytesAt 32 16 != zeros 16
        else !modeOn op mode || !tagFits mode (j.fld 17 1) || !paramFits mode (j.fld 18 1) || !ivFits mode (j.bytesAt 32 16)
          || (mode == 8 && j.seg != 0 && pay % 2 ^ j.fld 18 1 != 0) || !payloadFits mode (j.fld 18 1) pay
          || (decide (3 < mode) && j.aadLen != 0)
          || (j.hasTag && (j.seg == 0 || j.seg == 3) && decide (j.avail 96 < j.fld 17 1)))
    || (j.hasOut && decide (j.avail 64 < pay))

/-- An ASSOC_WRITE or ASSOC_KILL of the association, accepted earlier, whose entry writes are not all acknowledged: jobs of one association take
effect in acceptance order (R37), so a later one is not judged yet. -/
def entryBusy (s : State) (i id : Nat) : Bool :=
  s.jobs.any (fun k => k.pkt.isNone && (k.opcode == 0x70 || k.opcode == 0x71) && k.assocIdx == i && decide (k.id < id) && k.phase != .recordOut)

/-- The association entry of a job, checked (R443); a read entry that passes enters the cache. -/
def assocCk (s : State) (j : Job) (i seat : Nat) (spi : Option Nat) : Ck (State × Assoc) :=
  let test := fun (a : Assoc) => assocBad s a seat (j.opcode == 0x10) (j.opcode == 0x11) j.pkt.isSome spi
  if s.front.assocBase = 0 then .error (.fail stNoAssoc 1 0)
  else if entryBusy s i j.id then .error (.wait s)
  else
    match s.assoc? i with
    | some a =>
      match test a with
      | some sub => .error (.fail stNoAssoc sub 0)
      | none => .ok (touchAssoc s a, a)
    | none =>
      match j.all (assocRead s i) with
      | none => .error (.need [assocRead s i])
      | some b =>
        let a := assocOf i b
        match test a with
        | some sub => .error (.fail stNoAssoc sub 0)
        | none => .ok ((assocLoad s j.id a).modJob j.id (fun j => { j with got := j.got.filter (fun g => g.1.kind != .assoc), assoc := some i }), a)

/-- The class of an association for a job that uses no key of it (R204, R210): that of its home bay, or, before it has one, that of its key; a key that
fails its check makes it ordinary (log entry 79). -/
def assocAttr (s : State) (j : Job) (a : Assoc) : Ck (State × Nat) :=
  if a.home ≠ 0xFF then .ok (s, if isGuarded a.home then 2 ^ 23 else 0)
  else if a.state ≠ 1 then .ok (s, 0)
  else
    match checkKey s { j with seat := a.seat } a.keyref 0 with
    | .need rs => .error (.need rs)
    | .busy => .error (.wait s)
    | .bad _ => .ok (s, 0)
    | .good r _ => .ok (keepAttr s r, r.attr)

/-- The checks of R242 made at the dispatcher: the state after them and the attribute word of the key (for an ASSOC_QUERY the class of its association). -/
def symCheck (s : State) (j : Job) : Ck (State × Nat) := do
  if j.opcode = 0x16 then
    chk (symBad j) stInternal 4
    let r ← assocCk s j j.assocIdx j.seat none
    let k ← assocAttr r.1 j r.2
    pure (k.1.modJob j.id (fun j => { j with assoc := some j.assocIdx }), k.2)
  else
    needLists j [48, 64, 80, 96] false
    chk (symBad j) stInternal 4
    chk (j.opBit 14 && !(s.seat j.seat).act.opts.testBit 5) stQuota 0x10
    if j.opBit 15 then
      let r ← assocCk s j j.assocIdx j.seat none
      chk (decide (j.avail 96 < r.2.tagLen)) stInternal 4
      let k ← keyCk r.1 j r.2.keyref (hGuard j.flags) (fun alg _ => keyFits r.2.mode alg)
      pure (k.1.modJob j.id (fun j => { j with assoc := some j.assocIdx }), k.2.attr)
    else
      let k ← keyCk s j (j.fld 20 4) (hGuard j.flags) (fun alg _ => keyFits (j.fld 16 1) alg)
      pure (k.1, k.2.attr)

-- Digest fields -------------------------------------------------------------------------------------------------------------

def Job.alg (j : Job) : Nat := j.fld 16 1
def Job.outLen (j : Job) : Nat := j.fld 18 2
def Job.msgLen (j : Job) : Nat := j.fld 24 4
def Job.padF (j : Job) : Nat := bits j.flags 15 14

/-- An HMAC opcode. -/
def Job.isHmac (j : Job) : Bool := j.opcode == 0x22 || j.opcode == 0x23 || j.opcode == 0x25 || j.opcode == 0x26

/-- The opcode compares with EXPECT. -/
def Job.hasExpect (j : Job) : Bool := j.opcode == 0x21 || j.opcode == 0x23 || j.opcode == 0x24

/-- Software padding (R294). -/
def padSw (s : State) (j : Job) : Bool :=
  (j.opcode == 0x20 || j.opcode == 0x21) && isSha2 j.alg
    && (j.padF == 2 || (j.padF == 0 && !(s.seat j.seat).act.opts.testBit 2))

def algOn (op alg : Nat) : Bool :=
  if op = 0x20 ∨ op = 0x21 then decide (1 ≤ alg) && decide (alg ≤ 10)
  else if op = 0x24 then alg == 0
  else decide (1 ≤ alg) && decide (alg ≤ 4)

/-- OUT_LEN ranges (R290). -/
def outLenFits (j : Job) : Bool :=
  let n := j.outLen
  let op := j.opcode
  if j.seg = 1 ∨ j.seg = 2 then n == 0
  else if op = 0x24 then decide (1 ≤ n) && decide (n ≤ 64)
  else if op = 0x25 ∨ op = 0x26 then n == 0
  else if isShake j.alg then (if op = 0x20 then decide (1 ≤ n) else decide (4 ≤ n) && decide (n ≤ 64))
  else decide (4 ≤ n) && decide (n ≤ hashLen j.alg)

/-- Check 1 of R296. -/
def digBad (s : State) (j : Job) : Bool :=
  let op := j.opcode
  let blk := hashBlock j.alg
  !algOn op j.alg || !outLenFits j || j.padF == 3 || ctxBad j
    || (j.padF == 2 && !((op == 0x20 || op == 0x21) && isSha2 j.alg))
    || (padSw s j && (j.seg == 0 || j.seg == 3) && (j.msgLen == 0 || j.msgLen % blk != 0))
    || (j.seg != 0 && (op == 0x24 || op == 0x25 || op == 0x26))
    || ((j.seg == 1 || j.seg == 2) && (j.msgLen == 0 || j.msgLen % blk != 0 || !(j.desc 80).zero))
    || ((op == 0x20 || op == 0x22) && (j.seg == 0 || j.seg == 3) && decide (j.avail 64 < j.outLen))

/-- The checks of R296 made at the dispatcher; HMAC_UNLOAD makes check 3 only. -/
def digCheck (s : State) (j : Job) : Ck (State × Nat) := do
  needLists j ((if j.opcode = 0x25 ∨ j.opcode = 0x26 then [] else [48]) ++ (if j.opcode = 0x20 ∨ j.opcode = 0x22 then [64] else [])
    ++ (if j.hasExpect then [80] else [])) false
  chk (j.opcode != 0x26 && digBad s j) stInternal 4
  chk (j.opcode != 0x26 && (j.padF == 1 || j.padF == 2) && !(s.seat j.seat).act.opts.testBit 3) stQuota 0x11
  if j.isHmac then
    let k ← keyCk s j (j.fld 20 4) (hGuard j.flags) (fun alg _ => algOn j.opcode j.alg && alg == j.alg + 7)
    pure (k.1, k.2.attr)
  else pure (s, 0)

-- The input stream ----------------------------------------------------------------------------------------------------------

/-- Input stream bytes (R267, R310). -/
def Job.streamLen (j : Job) : Nat := j.aadLen + j.payLen

/-- A stream job; a green-room job counts as one that is not (R268). -/
def Job.stream (j : Job) : Bool := j.pkt.isNone && ((j.isSym && j.opcode != 0x16) || (j.isDig && decide (j.opcode ≤ 0x23))) && decide (16384 < j.streamLen)

/-- A stream job that pauses at segment boundaries. -/
def Job.pausable (j : Job) : Bool := j.stream && !(j.isSym && j.opBit 14)

/-- Work bytes: the input stream, and the payload again for the second pass of an AES-GCM-SIV seal. -/
def workLen (w : SymW) (j : Job) : Nat := j.streamLen + if j.isSym && w.mode == mSiv && j.opcode == 0x10 then j.payLen else 0

/-- Where the segment in progress ends (R267): 16,384-byte runs of the input stream, and then of the second pass of an AES-GCM-SIV seal; all of the work
of a job that is no stream job. Where ciphertext stealing needs the block before a last segment shorter than a block, that block is left to it (log
entry 41). -/
def segEnd (w : SymW) (j : Job) : Nat :=
  let str := j.streamLen
  let n := ceilDiv str 16384
  if !j.stream then workLen w j
  else if j.segs < n then
    let e := min str ((j.segs + 1) * 16384)
    if j.isSym && w.mode == mXts && w.param == 0 && decide (e < str) && decide (str < e + 16) then e - 16 else e
  else min (workLen w j) (str + (j.segs - n + 1) * 16384)

/-- Payload bytes that the cipher of a job has done, and has still to do: of an AES-GCM-SIV seal in its second pass. -/
def cipherDone (w : SymW) (j : Job) (pos : Nat) : Nat :=
  if w.mode = mSiv ∧ j.opcode = 0x10 then pos - j.streamLen else min j.payLen (pos - j.aadLen)

def cipherLeft (w : SymW) (j : Job) : Nat := j.payLen - cipherDone w j j.pos

/-- The segment in progress is the last. -/
def lastSeg (w : SymW) (j : Job) : Bool := segEnd w j == workLen w j

/-- Payload bytes of a packet: what lies between its IV and its tag (R445). -/
def pktLen (w : SymW) (p : Pkt) : Nat := p.fin - w.tagLen - (p.off + 16)

/-- Bytes of the next segment that the scheduler charges (R220). -/
def jobCost (w : SymW) (j : Job) : Nat :=
  (match j.pkt with
   | some p => pktLen w p
   | none => if j.pausable then segEnd w j - j.pos else if j.isSym && j.opcode == 0x16 then 0 else if j.opcode == 0x70 || j.opcode == 0x71 then 0 else j.payLen) + 128

-- Context records -----------------------------------------------------------------------------------------------------------

/-- Bytes 0 to 19 of a record. -/
def recHead (form cls op seat gen keyref mode tagLen param parts : Nat) : Bytes :=
  [1, BitVec.ofNat 8 form, BitVec.ofNat 8 cls, BitVec.ofNat 8 op] ++ leBytes 2 seat ++ leBytes 2 gen ++ leBytes 4 keyref
    ++ [BitVec.ofNat 8 mode, BitVec.ofNat 8 tagLen, BitVec.ofNat 8 param, 0] ++ leBytes 4 parts

/-- ACC bytes 80 to 96 by mode. -/
def accBytes (mode acc : Nat) : Bytes :=
  if mode = mGcm ∨ mode = mGmac then beBytes 16 acc ++ [0]
  else if mode = mSiv then (beBytes 16 acc).reverse ++ [0]
  else if mode = mChacha then leBytes 17 acc else zeros 17

def accOf (mode : Nat) (b : Bytes) : Nat :=
  if mode = mGcm ∨ mode = mGmac then beNat (b.take 16)
  else if mode = mSiv then beNat (b.take 16).reverse
  else if mode = mChacha then leNat b else 0

/-- STATE of a record, bytes 32 to 239 (R276, R311). -/
def stateBytes (cls mode : Nat) (c : Ctx) : Bytes :=
  if cls = 1 then
    sliceZ (leBytes 8 c.msgBytes ++ leBytes 8 c.aadBytes ++ sliceZ c.iv 0 16 ++ sliceZ c.chain 0 16 ++ accBytes mode c.acc ++ zeros 15
      ++ sliceZ c.sivTag 0 16 ++ [BitVec.ofNat 8 c.pass]) 0 208
  else sliceZ (leBytes 8 c.msgBytes ++ c.hash) 0 208

def stateOf (cls mode parts : Nat) (b : Bytes) : Ctx :=
  if cls = 1 then
    { msgBytes := fieldLE b 0 8, aadBytes := fieldLE b 8 8, iv := sliceZ b 16 16, chain := sliceZ b 32 16, acc := accOf mode (sliceZ b 48 17)
      sivTag := sliceZ b 80 16, pass := fieldLE b 96 1, parts := parts }
  else
    { msgBytes := fieldLE b 0 8, parts := parts
      hash := sliceZ b 8 (if mode = 1 ∨ mode = 2 then 32 else if mode = 3 ∨ mode = 4 then 64 else 200) }

/-- CLASS, MODE, TAG_LEN, PARAM and KEYREF of a job's record. -/
def recFields (w : SymW) (j : Job) : Nat × Nat × Nat × Nat × Nat :=
  if j.isDig then (2, j.alg, 0, 0, if j.isHmac then j.fld 20 4 else 0) else (1, w.mode, w.tagLen, w.param, w.handle)

/-- WRAP_NONCE (R277); the wrap count of the bay advances. -/
def wrapNonce (s : State) (b : Nat) : State × Bytes :=
  (s.modBay b (fun x => { x with wraps := x.wraps + 1 }), leBytes 4 s.keys.wrapStarts ++ [BitVec.ofNat 8 b] ++ leBytes 7 (s.bay b).wraps)

/-- A WRAPPED record of a job (R277). -/
def wrapRec (s : State) (w : SymW) (j : Job) (b : Nat) (c : Ctx) : State × Bytes :=
  let f := recFields w j
  let n := wrapNonce s b
  let s := holdSeatKeys n.1 j.seat j.gen
  let head := recHead 1 f.1 j.opcode j.seat j.gen f.2.2.2.2 f.2.1 f.2.2.1 f.2.2.2.1 c.parts
  let r := gcmSeal (ctxKey s j.seat j.gen) n.2 head (stateBytes f.1 f.2.1 c)
  (s, head ++ n.2 ++ r.1 ++ r.2)

/-- A CLEAR record of a job (R276, R278). -/
def clearRec (w : SymW) (j : Job) (c : Ctx) : Bytes :=
  let f := recFields w j
  let b := recHead 2 f.1 j.opcode j.seat j.gen f.2.2.2.2 f.2.1 f.2.2.1 f.2.2.2.1 c.parts ++ zeros 12 ++ stateBytes f.1 f.2.1 c
  b ++ leBytes 4 (crc32c b) ++ zeros 12

/-- CLEAR_EXPORT of the job's seat, and its key not GUARDED. -/
def clearForm (s : State) (j : Job) : Bool := (s.seat j.seat).act.opts.testBit 4 && !attrGuarded j.attr

/-- Message limit of check 6. -/
def msgLimit (w : SymW) (j : Job) : Nat :=
  if j.isDig then hashLimit j.alg
  else if w.mode = mGcm ∨ w.mode = mGmac then 2 ^ 36 - 32
  else if w.mode = mChacha then 2 ^ 38 else 2 ^ 128

/-- The checks of R285: the subcode of CONTEXT_INVALID, or the state the record holds; `more` bytes are still to come. -/
def judgeRec (s : State) (w : SymW) (j : Job) (b : Bytes) (more : Nat) : Except Nat Ctx :=
  let f := recFields w j
  let form := fieldLE b 1 1
  if fieldLE b 0 1 ≠ 1 ∨ (form ≠ 1 ∧ form ≠ 2) ∨ fieldLE b 2 1 ≠ f.1 then .error 3
  else if form = 2 ∧ !clearForm s j then .error 3
  else if fieldLE b 4 2 ≠ j.seat ∨ fieldLE b 6 2 ≠ (s.seat j.seat).gen then .error 2
  else
    match (if form = 1 then gcmOpen (ctxKey s j.seat j.gen) (sliceZ b 20 12) (sliceZ b 0 20) (sliceZ b 32 208) (sliceZ b 240 16)
           else if fieldLE b 240 4 = crc32c (sliceZ b 0 240) ∧ sliceZ b 244 12 = zeros 12 then some (sliceZ b 32 208) else none) with
    | none => .error 1
    | some st =>
      let c := stateOf f.1 f.2.1 (fieldLE b 16 4) st
      if fieldLE b 3 1 ≠ j.opcode ∨ fieldLE b 8 4 ≠ f.2.2.2.2 ∨ fieldLE b 12 1 ≠ f.2.1 ∨ fieldLE b 13 1 ≠ f.2.2.1 ∨ fieldLE b 14 1 ≠ f.2.2.2.1 then .error 4
      else if msgLimit w j < c.msgBytes + more then .error 5
      else .ok c

/-- The read of the input record, and of a spill slot. -/
def ctxRead (j : Job) : Read := Read.make { kind := .ctxRec } j.seat (j.desc 112).addr 256 0

def spillAddr (s : State) (slot : Nat) : Nat := s.keys.spillBase + 256 * slot

def spillRead (s : State) (slot : Nat) : Read := Read.make { kind := .spill, a := slot } 0 (spillAddr s slot) 256 2

end Sys2Proof.Machine
end

