-- ==== Sys2Proof/Machine/Choose.lean ====
section
/-! DEFINITION. Which bay a job goes to (R204 to R218): service time in round slots, the estimate E(b), bay sets, homing and rehoming, the queues
of the wing schedulers. -/

namespace Sys2Proof.Machine

-- Service time --------------------------------------------------------------------------------------------------------------

/-- Real slots of a block by key algorithm (R246). -/
def blockSlots (alg : Nat) : Nat :=
  match alg with
  | 2 => 12
  | 3 => 14
  | 5 => 14
  | 6 => 40
  | _ => 10

/-- Fixed real slots by mode and key algorithm (R253). -/
def fixedSlots (mode alg units : Nat) : Nat :=
  match mode with
  | 1 => blockSlots alg
  | 4 => blockSlots alg
  | 2 => if alg = 3 then 112 else 60
  | 3 => 40
  | 8 => units * blockSlots alg
  | _ => 0

/-- Handshakes of a compression (R289). -/
def hashSlots (alg : Nat) : Nat := if alg ≤ 2 then 64 else if alg ≤ 4 then 80 else 48

/-- Compressions of a digest job over `n` bytes (R308); without a slot a part or paused job that goes on from a record needs the outer state alone. -/
def compressions (s : State) (j : Job) (n : Nat) : Nat :=
  let b := hashBlock j.alg
  let bare := !(s.keys.slots.any (fun c => c.seat == j.seat && c.gen == j.gen && c.handle == j.fld 20 4))
  match j.opcode with
  | 0x24 => 0
  | 0x25 => 2
  | 0x26 => 0
  | _ =>
    if j.seg = 1 ∨ j.seg = 2 then n / b
    else if padSw s j then n / b
    else if isSha2 j.alg then (n + if b = 64 then 8 else 16) / b + 1 + (if j.isHmac then 1 + (if bare then (if j.seg = 3 ∨ j.started then 1 else 2) else 0) else 0)
    else n / b + 1 + (if isShake j.alg then ceilDiv j.outLen b - 1 else 0)

/-- The job goes on from a record in a spill slot, or from an input record it has still to read. -/
def Job.fromSlot (j : Job) : Bool :=
  match j.held with
  | .wrapping _ => true
  | .spilled _ => true
  | _ => false

def Job.fromInput (j : Job) : Bool := (j.seg == 2 || j.seg == 3) && !j.started

/-- Fixed slots at resumption from a record (R275): what is recomputed from the key, and the unwrapping. An input record of a seat that may export it
clear is taken to be clear (log entry 80). -/
def resumeSlots (s : State) (j : Job) (mode alg : Nat) : Nat :=
  if j.fromSlot || j.fromInput then
    (if j.isDig then 0
     else match mode with
      | 1 => blockSlots alg
      | 4 => blockSlots alg
      | 5 => blockSlots alg
      | 3 => 40
      | 2 => if alg = 3 then 98 else 50
      | _ => 0)
    + (if j.fromSlot || !clearForm s j then 210 else 0)
  else 0

/-- Real slots with the dummy slots of a seat's density (R248). -/
def withDummies (s : State) (seat real : Nat) : Nat :=
  let d := bits (s.seat seat).act.opts 1 0
  real * 16 / (16 - (if d = 0 then 0 else 2 ^ (d - 1)))

/-- Round slots a job still needs: its cipher blocks (R246) and fixed slots (R253, R275) with dummy slots, its compressions without (R306, R308), twice the
handshakes under masking (R251). -/
def jobSlots (s : State) (j : Job) : Nat :=
  let w := symOf s j
  let g := if attrGuarded j.attr then 2 else 1
  let alg := attrAlg j.attr
  if j.opcode = 0x24 then ceilDiv j.outLen 16
  else if j.isDig then (compressions s j (j.payLen - j.pos) * hashSlots j.alg + withDummies s j.seat (resumeSlots s j 0 0)) * g
  else if !j.isSym ∨ j.opcode = 0x16 then 0
  else
    let left := match j.pkt with
      | some p => pktLen w p
      | none => cipherLeft w j
    let blk := if alg = 6 then 64 else 16
    let units := if w.param = 0 then 1 else ceilDiv left (2 ^ w.param)
    let real := (if w.mode = mGmac then 0 else ceilDiv left blk * blockSlots alg) + fixedSlots w.mode alg units + resumeSlots s j w.mode alg
    withDummies s j.seat real * g

/-- Measured rate of a bay, slots per microsecond (R214): 3,000 before its first epoch, and a free value where it completed no slot (log entry 33). -/
def bayRate (s : State) (b : Nat) : Nat :=
  match (s.bay b).rate with
  | none => 3000
  | some 0 => Config.idleRate b
  | some r => r

/-- Time of slots on a bay in picoseconds. -/
def slotsPs (s : State) (b n : Nat) : Nat := n * 1000000 / bayRate s b

/-- W(b) for the placement of job `skip`: the work of every other job queued and running on the bay. -/
def waitPs (s : State) (b skip : Nat) : Nat :=
  slotsPs s b (((s.jobs.filter (fun j => jobBay j == some b && j.id != skip)).map (jobSlots s)).foldl (· + ·) 0)

/-- Schedule load time of R381: the table's figure at the bay's rate, and the bay's mean memory read latency. -/
def loadPs (s : State) (b attr : Nat) : Nat :=
  let ns := match attrAlg attr with
    | 1 => 180
    | 2 => 190
    | 3 => 200
    | 4 => 260
    | 5 => 300
    | 6 => 150
    | _ => 220
  ns * (if attrGuarded attr then 2 else 1) * 3000 * 1000 / bayRate s b + (s.bay b).latency * 1000

/-- The handle whose schedule a job needs in its bay. -/
def schedHandle (s : State) (j : Job) : Option Nat :=
  if j.isSym then (if j.opcode = 0x16 then none else some (symOf s j).handle)
  else if j.opcode = 0x22 ∨ j.opcode = 0x23 then some (j.fld 20 4) else none

def isSched (j : Job) (h b : Nat) (c : Sched) : Bool := c.bay == b && c.seat == j.seat && c.gen == j.gen && c.handle == h

/-- The bay holds the schedule of the job's key (R25). -/
def resident (s : State) (j : Job) (h b : Nat) : Bool := s.keys.scheds.any (isSched j h b)

/-- A paused job as another bay would take it: its record is wrapped before it moves, and read back there (R271, R275). -/
def Job.seenBy (j : Job) (b : Nat) : Job :=
  match j.phase, j.held with
  | .paused x, .clear _ => if x = b then j else { j with held := .wrapping 0 }
  | .paused x, .stuck => if x = b then j else { j with held := .wrapping 0 }
  | _, _ => j

/-- E(b) of R213, in picoseconds. -/
def estPs (s : State) (j : Job) (b : Nat) : Nat :=
  let l := match schedHandle s j with
    | some h => if resident s j h b then 0 else loadPs s b j.attr
    | none => 0
  waitPs s b j.id + l + slotsPs s b (jobSlots s (j.seenBy b)) + if (s.wing (b / 8)).power = 2 then 0 else 2000000

-- Bay sets ------------------------------------------------------------------------------------------------------------------

/-- The bay set of a seat (R208), in the order the bays were added. -/
def baySet (s : State) (seat : Nat) : List Nat :=
  (s.seat seat).bays.filter (fun b => s.jobs.any (fun j => j.seat == seat && jobBay j == some b))

def maxBays (s : State) (seat : Nat) : Nat := bits (s.seat seat).actW 22 16

/-- The bay lies above the seat's count (R208). -/
def aboveCount (s : State) (seat b : Nat) : Bool := ((baySet s seat).drop (maxBays s seat)).contains b

/-- The seat's bay set admits the bay. -/
def admits (s : State) (seat b : Nat) : Bool :=
  let l := baySet s seat
  if l.contains b then !aboveCount s seat b else decide (l.length < maxBays s seat)

/-- Classes that use bays, by the key and the opcode (R204): a guarded key, an association on an ordinary key, or stateless. -/
def classBay (s : State) (j : Job) (b : Nat) : Bool :=
  if attrGuarded j.attr then isGuarded b
  else !isGuarded b || (!j.onAssoc && j.opcode < 0x70 && s.place.act.ctrl.testBit 2)

/-- Bays of the class in service (R206). -/
def inService (s : State) (j : Job) : List Nat := (List.range 64).filter (fun b => s.bayOk b && classBay s j b)

/-- Bays that hold the schedule of the job's key. -/
def holders (s : State) (j : Job) : List Nat :=
  match schedHandle s j with
  | some h => (List.range 64).filter (resident s j h)
  | none => []

/-- Once 8 bays hold the schedule of the key, only those are eligible (R215). -/
def capOk (s : State) (j : Job) (b : Nat) : Bool := decide ((holders s j).length < 8) || (holders s j).contains b

/-- The bay is eligible for the job (R207, R215). -/
def eligible (s : State) (j : Job) (b : Nat) : Bool :=
  s.bayOk b && classBay s j b && (s.wing (b / 8)).power != 3 && admits s j.seat b && capOk s j b

/-- The least of a list by a measure, ties to the first. -/
def leastBy (f : Nat → Nat) (l : List Nat) : Option Nat :=
  l.foldl (fun best b => match best with
    | none => some b
    | some x => if f b < f x then some b else some x) none

/-- Eligible bays of a job. -/
def candidates (s : State) (j : Job) : List Nat := (List.range 64).filter (eligible s j)

/-- The bay of R213 and R217. -/
def chooseBay (s : State) (j : Job) : Option Nat :=
  let start := s.place.rotate % 64
  let l := candidates s j
  let l := l.filter (fun b => decide (start ≤ b)) ++ l.filter (fun b => decide (b < start))
  match leastBy (estPs s j) l with
  | none => none
  | some best =>
    match s.place.affin.find? (fun a => a.1 == j.seat && a.2.1 == j.affinity) with
    | some a => if j.affinity ≠ 0 ∧ l.contains a.2.2 ∧ estPs s j a.2.2 * 8 ≤ estPs s j best * 9 then some a.2.2 else some best
    | none => some best

/-- The placement is remembered for the AFFINITY value, and the rotating start advances (R213, R217). -/
def noteChoice (s : State) (j : Job) (b : Nat) : State :=
  let p := s.place
  { s with place := { p with
      rotate := (p.rotate + 1) % 64
      affin := if j.affinity = 0 then p.affin
        else ((j.seat, j.affinity, b) :: p.affin.filter (fun a => !(a.1 == j.seat && a.2.1 == j.affinity))).take 1024 } }

-- Queues --------------------------------------------------------------------------------------------------------------------

/-- A place behind every job, and one before. -/
def tailOrder (s : State) : Int := (s.jobs.map (·.order)).foldl max 0 + 1

def headOrder (s : State) : Int := (s.jobs.map (·.order)).foldl min 0 - 1

/-- The place of a job in the queue of a bay: behind every job, but for one that a bay gave back, which keeps its acceptance order among its seat's (R233). -/
def queueOrder (s : State) (j : Job) (b : Nat) : Int :=
  let later := s.jobs.filter (fun k => j.returned && k.seat == j.seat && decide (j.id < k.id) && k.phase == .queuedBay b && k.outcome.isNone)
  (later.map (·.order)).foldl min (tailOrder s)

/-- A paused job of a falling or fallen curtain waits for RESTART (R148). -/
def curtained (s : State) (seat : Nat) : Bool :=
  (s.seat seat).state == 3 || (s.seat seat).state == 4 || (match (s.seat seat).transit with
    | .curtain _ => true
    | _ => false)

/-- A job that a bay gave back is placed again in its acceptance order (R233): the seat's later ones wait for it. -/
def givenBack (s : State) (j : Job) : Bool :=
  s.jobs.any (fun k => k.returned && k.seat == j.seat && decide (k.id < j.id) && k.phase == .held && k.outcome.isNone && !(k.started && curtained s k.seat))

/-- No unit is left for a job (R206): one that had started says what it has read and written (R239). -/
def noUnit (s : State) (j : Job) : State := if j.started then stop s j.id stInternal 3 else failJob s j.id stInternal 3

/-- A job enters the queue of a bay (R219); the bay joins the seat's set. A job placed again with its record in a spill slot is a paused one. -/
def queueBay (s : State) (j : Job) (b attr : Nat) : State :=
  let s := s.modSeat j.seat (fun t => if (baySet s j.seat).contains b then t else { t with bays := baySet s j.seat ++ [b] })
  s.modJob j.id (fun k => { k with phase := if k.started then .paused b else .queuedBay b, attr := attr, order := queueOrder s k b, returned := false, queuedAt := s.mono })

/-- A STATELESS or GUARDED job is placed (R206, R213); `none` waits. -/
def placeFree (s : State) (j : Job) (attr : Nat) : State :=
  let j := { j with attr := attr }
  if inService s j = [] then noUnit s j
  else if givenBack s j then s
  else
    match chooseBay s j with
    | some b => queueBay (noteChoice s j b) j b attr
    | none => s

-- Homing --------------------------------------------------------------------------------------------------------------------

/-- A job works on the association; a packet once its association is named or found. -/
def onIndex (i : Nat) (j : Job) : Bool :=
  (match j.pkt with
   | some p => p.named
   | none => j.onAssoc || j.opcode == 0x70 || j.opcode == 0x71) && j.assocIdx == i

/-- Jobs of the association that have been placed and not completed (log entry 34). -/
def quiet (s : State) (i id : Nat) : Bool := s.jobs.all (fun k => k.id == id || !onIndex i k || k.phase == .held)

/-- An earlier job of the association is still at the dispatcher or the ring manager (R212, R232). -/
def behind (s : State) (i : Nat) (j : Job) : Bool :=
  s.jobs.any (fun k => onIndex i k && decide (k.id < j.id) && k.phase == .held && k.outcome.isNone)

/-- The bay with the least estimated wait among eligible bays of the class; a tie goes to the lowest (log entry 34). -/
def leastWait (s : State) (j : Job) (l : List Nat) : Option Nat := leastBy (fun b => waitPs s b j.id) (l.filter (eligible s j))

/-- R210: the bay of the home table, or the guarded bay of its wing; of the bay set when that is full. -/
def homeBay (s : State) (j : Job) (hash : Nat) : Option Nat :=
  let t := tabGet 0 s.place.home (hash % 512)
  let b := if attrGuarded j.attr then 8 * (t / 8) + 7 else t
  let set_ := baySet s j.seat
  if maxBays s j.seat ≤ set_.length ∧ !set_.contains b then leastWait s j set_
  else if eligible s j b then some b else leastWait s j (List.range 64)

/-- R211: the new home of a quiet association, when there is cause. A home that 8 other bays keep from the key's schedule, or that is no longer of the class of the
key, is a cause too, which R211 does not list (DESIGN CHOICE, log entry 120). -/
def rehomeBay (s : State) (j : Job) (home : Nat) : Option Nat :=
  let p := (s.wing (home / 8)).power
  match leastWait s j (List.range 64) with
  | none => none
  | some best =>
    if !s.bayOk home || !classBay s j home || p == 3 || p == 0 || aboveCount s j.seat home || !capOk s j home
        || decide (waitPs s best j.id + s.place.act.rehome % 65536 * 1000000 < waitPs s home j.id) then some best
    else none

/-- HOME of an entry is written for a job (R210), in the cached copy too. -/
def setHome (s : State) (i b job : Nat) : State :=
  assocPut (modAssoc s i (fun a => { a with home := b })) (.writeBack (some job)) i 52 [BitVec.ofNat 8 b]

/-- The bay of a job on an association, from its HOME and FLOW_HASH (R210 to R212): the state with HOME written, and the bay; `none` waits. An entry that
is not valid yet gets no HOME written (log entry 79). -/
def homeFor (s : State) (j : Job) (i home hash : Nat) (valid : Bool) : State × Option Nat :=
  if quiet s i j.id then
    if home = 0xFF ∨ !valid then
      match homeBay s j hash with
      | some b => (if valid then setHome s i b j.id else s, some b)
      | none => (s, none)
    else
      match rehomeBay s j home with
      | some b =>
        if b = home then (s, some b)
        else
          let s := setHome s i b j.id
          ({ s with place := { s.place with cntRehome := wrapInc 32 s.place.cntRehome } }, some b)
      | none => (s, if eligible s j home then some home else none)
  else (s, if eligible s j home then some home else none)

/-- A job on an association is placed on its home bay. -/
def placeAssoc (s : State) (j : Job) (i attr : Nat) : State :=
  let j := { j with attr := attr }
  if behind s i j || givenBack s j then s
  else if inService s j = [] then noUnit s j
  else
    match s.assoc? i with
    | none => s
    | some a =>
      match homeFor s j i a.home a.flow true with
      | (s, some b) => queueBay s j b attr
      | (s, none) => s

-- Home table ----------------------------------------------------------------------------------------------------------------

/-- The table at READY (R209). -/
def fillHome (s : State) : State :=
  let l := homeBays s
  { s with place := { s.place with home := (List.range 512).foldl (fun t i => tabSet 0 t i (l.getD (i % max 1 l.length) 0)) [] } }

end Sys2Proof.Machine
end

