-- ==== Sys2Proof/Machine/Start.lean ====
section
/-! DEFINITION. Starting a symmetric or digest job in its bay (checks 5 to 9 of R242, 4 to 10 of R296): schedules and their eviction, masks,
the count of a use, the nonce, the input record. All waits are resolved first; the start is then one act. -/

namespace Sys2Proof.Machine

-- Schedules -----------------------------------------------------------------------------------------------------------------

/-- A running job of the bay uses the schedule (R216). -/
def schedInUse (s : State) (c : Sched) : Bool :=
  s.jobs.any (fun j => j.phase == .inBay c.bay && j.started && j.seat == c.seat && schedHandle s j == some c.handle && j.outcome.isNone)

def keyCache (s : State) (seat : Nat) : Nat := bits (s.seat seat).actK 14 0

def schedCount (s : State) (seat : Nat) : Nat := (s.keys.scheds.filter (fun c => c.seat == seat)).length

/-- The least recently used of the schedules for which `p` holds and that no running job uses (newest first in the list). -/
def schedVictim (s : State) (p : Sched → Bool) : Option Sched := s.keys.scheds.reverse.find? (fun c => p c && !schedInUse s c)

def dropSched (s : State) (c : Sched) : State :=
  s.modKeys (fun k => { k with scheds := k.scheds.filter (fun x => !(x.bay == c.bay && x.seat == c.seat && x.gen == c.gen && x.handle == c.handle)) })

/-- Schedules of a seat above a count are evicted, least recently used first, but for those a running job uses (R145, R216). -/
def seatTrim (s : State) (seat target : Nat) : State :=
  ((s.keys.scheds.reverse.filter (fun c => c.seat == seat && !schedInUse s c)).take (schedCount s seat - target)).foldl dropSched s

/-- Every seat's schedules above its KEYCACHE quota go as soon as no running job uses them (R145). -/
def trimAll (s : State) : State := ((s.keys.scheds.map (·.seat)).eraseDups).foldl (fun s seat => seatTrim s seat (keyCache s seat)) s

/-- Room for one more schedule of a seat in a bay: its quota (R143), then the slice's 256 entries (R216). -/
def schedRoom (s : State) (seat b : Nat) : Ck State := do
  let s := seatTrim s seat (keyCache s seat - 1)
  chkWait s (schedCount s seat < keyCache s seat)
  if (s.keys.scheds.filter (fun c => c.bay == b)).length < 256 then pure s
  else
    match schedVictim s (fun c => c.bay == b && decide (keyCache s c.seat < schedCount s c.seat)) with
    | some c => pure (dropSched s c)
    | none =>
      match schedVictim s (fun c => c.bay == b) with
      | some c => pure (dropSched s c)
      | none => .error (.wait s)

/-- A job goes back to the dispatcher, to be placed again (R233); with a job of an association, the jobs of it that wait in the bay or its queue. One that
has started keeps the gather lists it has read. -/
def toDispatch (s : State) (j : Job) : State :=
  let back := fun (k : Job) => k.id == j.id || ((j.onAssoc || j.opcode == 0x70 || j.opcode == 0x71) && onIndex j.assocIdx k && !k.started && k.outcome.isNone
    && (jobBay k).isSome)
  ((s.jobs.filter back).map (·.id)).foldl (fun s id =>
    dropReads ((freeRegion s id []).modJob id (fun k =>
      { k with phase := .held, returned := true, got := if k.started then k.got.filter (fun g => g.1.kind == .list) else [], lane := 0, region := 0, drawDone := false, leaseWait := .none })) id) s

/-- A ninth bay never holds the schedule of a key (R215): a job that meets 8 holders in other bays is placed again, and a job of an association, which has
one home, waits for one of them to drop it (log entry 81). -/
def capCk (s : State) (j : Job) (b : Nat) : Ck Unit :=
  if capOk s j b then .ok () else .error (.wait (if j.onAssoc then s else toDispatch s j))

/-- The material of a handle in a bay: from the schedule it holds, else the entry is read, opened and cached (R215, R374, R380). -/
def bayKey (s : State) (j : Job) (h b : Nat) (cache : Bool) : Ck (State × Bytes) :=
  match (if cache then s.keys.scheds.find? (isSched j h b) else none) with
  | some c => .ok (s.modKeys (fun k => { k with scheds := c :: k.scheds.filter (fun x => !isSched j h b x) }), c.mat)
  | none =>
    match loadKey s j h 1 with
    | .need rs => .error (.need rs)
    | .busy => .error (.wait s)
    | .bad sub => .error (.fail stKeyHandle sub 0)
    | .good a mat =>
      if cache then do
        capCk s j b
        let s ← schedRoom s j.seat b
        pure (s.modKeys (fun k => { k with scheds := { bay := b, seat := j.seat, gen := j.gen, handle := h, attr := a.attr, mat := mat } :: k.scheds
                                           cntLoad := wrapInc 32 k.cntLoad }), mat)
      else pure (s, mat)

/-- The record of a handle at the start, most recently used from now on (R374): checked again when it has been dropped. -/
def bayAttr (s : State) (j : Job) (h : Nat) : Ck (State × Attr) :=
  match checkKey s j h 1 with
  | .need rs => .error (.need rs)
  | .busy => .error (.wait s)
  | .bad sub => .error (.fail stKeyHandle sub 0)
  | .good a _ => .ok (keepAttr s a, a)

/-- A handle may name another key by the start of a job than at its placement: a bay the key must not be used in (R30, R204) gives the job back. -/
def classCk (s : State) (j : Job) (attr b : Nat) : Ck Unit :=
  if classBay s { j with attr := attr } b then .ok () else .error (.wait (toDispatch s j))

/-- Lifetime and use limit (check 5 of R242, 4 of R296). -/
def expiryCk (s : State) (a : Attr) : Ck Unit :=
  match expiredSub s a.expires a.limit a.count with
  | some sub => .error (.fail stKeyExpired sub 0)
  | none => .ok ()

/-- A check made only when `c` holds. -/
def ckIf (c : Bool) (x : Ck Unit) : Ck Unit := if c then x else .ok ()

/-- A draw of masks, blinding or random values under a class B alarm or in rehearsal mode (R50, R420). -/
def noDraws (s : State) : Ck Unit := do
  chk s.alarms.bActive stEntropyFailed 0
  chk s.entropy.rehearsal stRngRehearsal 0

/-- Masks of a guarded job (R251): drawn once from the guarded bay's instance, waiting for it. -/
def drawMasks (s : State) (j : Job) (b : Nat) (guarded : Bool) : Ck State :=
  if !guarded || j.drawDone then .ok s
  else
    match tryDraw s (1024 + b / 8) 48 with
    | some r => .ok ((r.1.modBay b (fun x => { x with mask := r.2 })).modJob j.id (fun j => { j with drawDone := true }))
    | none => .error (.wait s)

/-- Count one use at the start, or wait for its lease (R379). -/
def useCk (s : State) (j : Job) (a : Attr) : Ck State :=
  match countUse s ((findAttr s a.seat a.handle).getD a) j.id with
  | .counted s => .ok s
  | .expired sub => .error (.fail stKeyExpired sub 0)
  | .wait s => .error (.wait s)

-- Symmetric starts ----------------------------------------------------------------------------------------------------------

/-- Masks are drawn afresh after every 4,096 blocks of a guarded job (R251), here from block `before` to block `after` of it, unless a class B alarm or
rehearsal keeps the instance from serving. -/
def remask (s : State) (j : Job) (b before after : Nat) : State :=
  if attrGuarded j.attr && decide (before / 4096 < after / 4096) then
    match tryDraw s (1024 + b / 8) 48 with
    | some r => r.1.modBay b (fun x => { x with mask := r.2 })
    | none => s
  else s

/-- Checks 8 and 9 of R242 (R260, R446, R447). -/
def assocStartCk (s : State) (j : Job) (a : Assoc) : Ck Unit :=
  if j.opcode = 0x10 then
    if sealedOff a then
      match issueNonce s a.index j.id with
      | .sealed s' => .error (.wait (failOpf (s'.modJob j.id (fun j => { j with soft := softReached { a with ctr := ctrEnd } })) j.id stNonceExhausted 0 0x20))
      | _ => .error (.fail stNonceExhausted 0 0x20)
    else .ok ()
  else
    match replaySub a j.ctr with
    | some sub => .error (.fail stReplay sub 0)
    | none => .ok ()

/-- Take the nonce of a SEAL (R258, R261). -/
def nonceCk (s : State) (j : Job) : Ck (State × Option Nat) :=
  match j.assoc with
  | some i =>
    if j.opcode = 0x10 then
      match issueNonce s i j.id with
      | .issued s v => .ok (s, some v)
      | .sealed s => .error (.wait s)
      | .wait s => .error (.wait s)
    else .ok (s, none)
  | none => .ok (s, none)

/-- SOFT of a SEAL or ASSOC_QUERY after its nonce (R259). -/
def softOf (s : State) (j : Job) : Bool :=
  match j.assoc.bind s.assoc? with
  | some a => (j.opcode == 0x10 || j.opcode == 0x16) && softReached a
  | none => false

/-- The registers of the cipher lane a job runs on follow it (R21): round keys, tag accumulator, counter or chaining block. -/
def laneKeep (s : State) (id : Nat) : State :=
  match s.job? id with
  | some j =>
    match j.phase with
    | .inBay b =>
      if j.lane < 2 then
        s.modBay b (fun x => { x with lanes := tabSet {} x.lanes j.lane { seat := some j.seat, key := j.key, st := leBytes 17 j.ctx.acc, ctr := j.ctx.chain } })
      else s
    | _ => s
  | none => s

/-- The chaining state of a job, with bytes 8 to 15 of its next counter block (R239). -/
def putCtx (mode : Nat) (c : Ctx) (j : Job) : Job := { j with ctx := c, ctrNext := if mode = mCtr then fieldBE c.chain 8 8 else j.ctrNext }

/-- Start with the key and the chaining state of the message; a bad record ends the job (R243). -/
def beginSym (s : State) (j : Job) (attr : Nat) (key : Bytes) (nonce : Option Nat) (rec_ : Option Bytes) : State :=
  let s := s.modJob j.id (fun j => { j with started := true, key := key, attr := attr, nonce := nonce, soft := softOf s j })
  match s.job? j.id with
  | none => s
  | some j =>
    let w := symOf s j
    match rec_ with
    | none => laneKeep (s.modJob j.id (putCtx w.mode (ctxStart w.mode w.iv))) j.id
    | some b =>
      match judgeRec (holdSeatKeys s j.seat j.gen) w j b j.payLen with
      | .ok c => laneKeep ((holdSeatKeys s j.seat j.gen).modJob j.id (putCtx w.mode c)) j.id
      | .error sub => failJob s j.id stContextInvalid sub

/-- The checks of the association a job names, if any. -/
def assocOfCk (s : State) (j : Job) : Ck Unit :=
  match j.assoc.bind s.assoc? with
  | some e => assocStartCk s j e
  | none => .ok ()

/-- The context record of a MIDDLE or LAST job. -/
def ctxIn (j : Job) : Ck (Option Bytes) :=
  if j.seg = 2 ∨ j.seg = 3 then (do
    let x ← needBytes j (ctxRead j)
    pure (some x))
  else .ok none

/-- The association of a job that names one, checked. -/
def assocSelf (s : State) (j : Job) : Ck State :=
  if j.onAssoc then (do
    let r ← assocCk s j j.assocIdx j.seat none
    pure r.1)
  else .ok s

/-- A job of the symmetric group starts in its bay. -/
def startSym (s : State) (j : Job) (b : Nat) : Ck State := do
  let s ← assocSelf s j
  let w := symOf s j
  let (s, a) ← bayAttr s j w.handle
  keepOn s j (do
    classCk s j a.attr b
    let g := attrGuarded a.attr
    expiryCk s a
    chk (keyCache s j.seat == 0) stQuota 3
    ckIf g (noDraws s)
    assocOfCk s j
    let rec_ ← ctxIn j
    let k ← bayKey s j w.handle b true
    let s ← drawMasks k.1 j b g
    let _ ← nonceCk s j
    let s ← useCk s j a
    let n ← nonceCk s j
    pure (beginSym n.1 j a.attr k.2 n.2 rec_))

/-- ASSOC_QUERY starts when every earlier SEAL of the association has its nonce or has completed, and takes the state that follows them (R256, R260). -/
def startQuery (s : State) (j : Job) : Ck State := do
  let r ← assocCk s j j.assocIdx j.seat none
  if s.jobs.any (fun k => k.onAssoc && k.assocIdx == j.assocIdx && k.opcode == 0x10 && decide (k.id < j.id) && k.nonce.isNone && k.outcome.isNone) then
    .error (.wait s)
  else pure (r.1.modJob j.id (fun k => { k with started := true, ctrNext := if sealedOff r.2 then ctrEnd else r.2.ctr
                                                soft := softOf r.1 { j with assoc := some j.assocIdx } }))

-- Digest starts -------------------------------------------------------------------------------------------------------------

/-- The slot that holds the job's key (R298, R299). -/
def slotOf (s : State) (j : Job) : Option HmacSlot :=
  s.keys.slots.find? (fun c => c.seat == j.seat && c.gen == j.gen && c.handle == j.fld 20 4)

def hmacQuota (s : State) (seat : Nat) : Nat := bits (s.seat seat).actK 28 16

/-- Loads at work that are to take a slot (R298): of a seat, or all. -/
def loadsOut (s : State) (p : Job → Bool) : Nat :=
  (s.jobs.filter (fun k => p k && k.opcode == 0x25 && k.started && k.outcome.isNone && !k.already)).length

/-- A load or unload of the same key is at work: the key store serializes them (R298, R316). -/
def slotBusy (s : State) (j : Job) : Bool :=
  s.jobs.any (fun k => k.id != j.id && (k.opcode == 0x25 || k.opcode == 0x26) && k.seat == j.seat && k.gen == j.gen && k.fld 20 4 == j.fld 20 4
    && k.started && k.outcome.isNone)

/-- Checks 5 and 6 of R296, which an HMAC_LOAD of a key already loaded passes (R298, log entry 35). -/
def slotCk (s : State) (j : Job) : Ck Unit := do
  let have_ := (slotOf s j).isSome
  chk (!have_ && decide (hmacQuota s j.seat ≤ slotCount s j.seat + loadsOut s (fun k => k.seat == j.seat))) stQuota 1
  chk (!have_ && decide (4096 ≤ s.keys.slots.length + loadsOut s (fun _ => true))) stQuota 0x12

/-- A source shorter than its declared length (R293). -/
def shortBad (j : Job) : Bool :=
  let op := j.opcode
  if op = 0x25 ∨ op = 0x26 then false
  else decide (j.avail 48 < j.payLen) || (j.hasExpect && (j.seg == 0 || j.seg == 3) && decide (j.avail 80 < j.outLen))

/-- The digest job uses a key: HMAC_GEN, HMAC_VERIFY and HMAC_LOAD. -/
def keyedDig (j : Job) : Bool := j.opcode == 0x22 || j.opcode == 0x23 || j.opcode == 0x25

/-- The loaded slot an HMAC job uses. -/
def slotIn (s : State) (j : Job) : Option HmacSlot := if j.opcode = 0x22 ∨ j.opcode = 0x23 then slotOf s j else none

/-- The record of the key of a keyed digest job, with its class and lifetime checked. -/
def digAttr (s : State) (j : Job) (b : Nat) : Ck (State × Option Attr) :=
  if keyedDig j then (do
    let r ← bayAttr s j (j.fld 20 4)
    classCk r.1 j r.2.attr b
    keepOn r.1 j (expiryCk r.1 r.2)
    pure (r.1, some r.2))
  else .ok (s, none)

/-- The context record of a MIDDLE or LAST digest job, checked. -/
def digCtx (s : State) (j : Job) : Ck (Option Ctx) :=
  if j.seg = 2 ∨ j.seg = 3 then (do
    let x ← needBytes j (ctxRead j)
    match judgeRec s (symOf s j) j x j.payLen with
    | .ok c => pure (some c)
    | .error sub => .error (.fail stContextInvalid sub 0))
  else .ok none

/-- The key of a keyed digest job that has no loaded slot. -/
def digKey (s : State) (j : Job) (b : Nat) : Ck (State × Bytes) :=
  if keyedDig j && (slotIn s j).isNone && !(j.opcode == 0x25 && (slotOf s j).isSome) then bayKey s j (j.fld 20 4) b (j.opcode != 0x25) else .ok (s, [])

/-- One use of the key of a digest job. -/
def digUse (s : State) (j : Job) (a : Option Attr) : Ck State :=
  match a with
  | some a => useCk s j a
  | none => .ok s

/-- A digest job starts in its bay; an HMAC_LOAD of a key already loaded changes nothing, so it counts no use and draws no masks (R298). -/
def startDig (s : State) (j : Job) (b : Nat) : Ck State := do
  let slot := slotIn s j
  let (s, a) ← digAttr s j b
  chkWait s (!(j.opcode == 0x25 || j.opcode == 0x26) || !slotBusy s j)
  keepOn s j (do
    ckIf (j.opcode == 0x25) (slotCk s j)
    chk ((j.opcode == 0x22 || j.opcode == 0x23) && slot.isNone && keyCache s j.seat == 0) stQuota 3
    let attr := (a.map (·.attr)).getD j.attr
    let g := keyedDig j && attrGuarded attr
    ckIf g (noDraws s)
    let c ← digCtx s { j with attr := attr }
    chk (shortBad j) stShort 0
    let loaded := j.opcode == 0x25 && (slotOf s j).isSome
    let k ← digKey s j b
    let s ← drawMasks k.1 j b (g && !loaded)
    let s ← digUse s j (if loaded then none else a)
    let inner := match slot with
      | some c => c.inner
      | none => if keyedDig j then hmacInner j.alg k.2 else []
    let outer := match slot with
      | some c => c.outer
      | none => if keyedDig j then hmacOuter j.alg k.2 else []
    let ctx := c.getD { hash := if j.isHmac then inner else hashInit j.alg }
    pure (s.modJob j.id (fun j => { j with started := true, already := loaded, attr := attr, slotUsed := slot.isSome, inner := inner, outer := outer, ctx := ctx })))

end Sys2Proof.Machine
end

