-- ==== Sys2Proof/Machine/Stream.lean ====
section
/-! DEFINITION. The run of a symmetric or digest job: the reads of a segment, what a segment does to the chaining state and to memory, and how the
job ends (R239, R243, R263 to R266, R279, R291, R295, R302 to R305, R309). -/

namespace Sys2Proof.Machine

-- Reads ---------------------------------------------------------------------------------------------------------------------

/-- The part carried ends the message. -/
def Job.endsMsg (j : Job) : Bool := j.seg == 0 || j.seg == 3

/-- Expected tag or value read with the last segment; first of all by an AES-GCM-SIV open. -/
def tagReads (w : SymW) (j : Job) : List Read :=
  if j.isDig then (if j.hasExpect && j.endsMsg && lastSeg w j then [j.dataRead 80 0 j.outLen] else [])
  else if (j.opcode == 0x11 || j.opcode == 0x13) && j.endsMsg && (lastSeg w j || (w.mode == mSiv && j.pos == 0)) then [j.dataRead 96 0 w.tagLen]
  else []

/-- Part of a range [a, b) inside [lo, hi), from lo: offset and length. -/
def cutRange (a b lo hi : Nat) : Nat × Nat := (max a lo - lo, min b hi - max a lo)

/-- Additional data buffer, payload and second-pass payload of the segment in progress. -/
def segAad (w : SymW) (j : Job) : Nat × Nat := cutRange j.pos (segEnd w j) j.inl j.aadLen
def segPay (w : SymW) (j : Job) : Nat × Nat := cutRange j.pos (segEnd w j) j.aadLen j.streamLen
def segTwo (w : SymW) (j : Job) : Nat × Nat := cutRange j.pos (segEnd w j) j.streamLen (workLen w j)

/-- The reads of the segment in progress: an AES-GCM-SIV seal reads its source again once the first pass over it has all come (R252). -/
def segReads (w : SymW) (j : Job) : List Read :=
  if j.opcode = 0x16 ∨ j.opcode = 0x25 ∨ j.opcode = 0x26 then []
  else
    (if j.isSym then [j.dataRead 80 (segAad w j).1 (segAad w j).2] else [])
      ++ [j.dataRead 48 (segPay w j).1 (segPay w j).2]
      ++ (if j.isSym && w.mode == mSiv && j.opcode == 0x10 && j.hasRead (j.dataRead 48 (segPay w j).1 (segPay w j).2) then
            [j.dataAgain 48 (segTwo w j).1 (segTwo w j).2] else [])
      ++ tagReads w j

/-- Payload bytes of the second pass, read again (R252). -/
def twoBytes (w : SymW) (j : Job) : Bytes := (j.all (j.dataAgain 48 (segTwo w j).1 (segTwo w j).2)).getD []

/-- Inline additional data of the segment (R238): body bytes of the first continuation packet. -/
def inlBytes (w : SymW) (j : Job) : Bytes := sliceZ j.body (112 + j.pos) (min (segEnd w j) j.inl - j.pos)

/-- Data of a segment that has ended is counted (R239, R291) and given up; gather lists stay. -/
def dropData (w : SymW) (j : Job) : Job :=
  { j with inDone := j.seen + (if j.isSym then (inlBytes w j).length else 0), got := j.got.filter (fun g => g.1.kind != .data) }

-- Symmetric segments --------------------------------------------------------------------------------------------------------

/-- What the segment in progress does: the chaining state after it, and output bytes with their offset in DST. The one pass of an AES-GCM-SIV open is
the pass in counter mode, which R276 numbers 1 (log entry 41). -/
def symStep (w : SymW) (j : Job) : Ctx × Nat × Bytes :=
  let c := if w.mode = mSiv ∧ j.opcode = 0x11 ∧ j.pos = 0 then { j.ctx with chain := sivCtr (j.dataOf 96 0 16), pass := 1 } else j.ctx
  let aad := inlBytes w j ++ j.dataOf 80 (segAad w j).1 (segAad w j).2
  let c := if aad.isEmpty then c else aadRun w.mode j.key c aad
  let pay := j.dataOf 48 (segPay w j).1 (segPay w j).2
  let ends := j.endsMsg && decide (j.streamLen ≤ segEnd w j)
  let r := if pay.isEmpty && !(ends && lastSeg w j) then (c, []) else dataRun w.mode j.enc w.param j.key c pay ends
  if w.mode = mSiv ∧ j.opcode = 0x10 then
    let c := r.1
    let c := if c.pass = 0 ∧ j.streamLen ≤ segEnd w j then
        let t := modeTag mSiv j.key c
        { c with sivTag := t, pass := 1, chain := sivCtr t, msgBytes := 0 }
      else c
    let two := twoBytes w j
    let r := if two.isEmpty then (c, []) else dataRun mSiv true 0 j.key c two true
    (r.1, (segTwo w j).1, r.2)
  else (r.1, (segPay w j).1, r.2)

/-- Keep what a segment gave: output written, or held in the green room (R266). -/
def keepSeg (s : State) (w : SymW) (j : Job) (c : Ctx) (off : Nat) (out : Bytes) : State :=
  let e := segEnd w j
  let green := j.opcode == 0x11 && j.opBit 14
  let s := if out.isEmpty || !j.hasOut then s else if green then s.modJob j.id (fun j => { j with inner := j.inner ++ out }) else writeBuf s j 64 off out
  let blk := if w.mode = mChacha then 64 else 16
  let s := match j.phase with
    | .inBay b => remask s j b (cipherDone w j j.pos / blk) (cipherDone w j e / blk)
    | _ => s
  laneKeep (s.modJob j.id (fun k => { putCtx w.mode c (dropData w k) with pos := e, segs := k.segs + 1 })) j.id

/-- The record a FIRST or MIDDLE part writes (R278, R279). -/
def writeRec (s : State) (w : SymW) (j : Job) (c : Ctx) : State :=
  let c := { c with parts := (c.parts + 1) % 2 ^ 32 }
  let d := j.desc 112
  let va := d.addr + if j.seg = 2 ∧ 512 ≤ d.len then 256 else 0
  if clearForm s j then writeAt s j j.seat va (clearRec w j c) 0
  else
    let b := match j.phase with
      | .inBay b => b
      | _ => 0
    let r := wrapRec s w j b c
    writeAt r.1 j j.seat va r.2 0

/-- End a job that has run to its end. -/
def finishJob (s : State) (j : Job) (o : Outcome) : State := fixOutcome s j.id o

/-- The tag failure of an OPEN: its output range is to be zeroed once its writes are acknowledged (R264); a green-room job wrote nothing. -/
def tagBad (s : State) (j : Job) (o : Outcome) : State :=
  let runs := cutRuns (j.runs 64) 0 j.payLen
  let scrub := j.opcode == 0x11 && !j.opBit 14 && decide (0 < j.payLen)
  let s := if scrub then s.modJob j.id (fun j => { j with scrub := true, outs := runs.map (fun r => (r.1, zeros r.2)) }) else s
  finishJob s j { o with status := stAuthFail, opf := 0x80, outB := 0 }

/-- The end of a symmetric job: tag written or compared, record written, window marked (R239, R263, R264, R446). -/
def endSym (s : State) (w : SymW) (j : Job) (c : Ctx) (off : Nat) (out : Bytes) : State :=
  let inB := j.streamLen
  let tag := (if w.mode = mSiv ∧ j.opcode = 0x10 then c.sivTag else modeTag w.mode j.key c).take w.tagLen
  let expected := j.dataOf 96 0 w.tagLen
  let base : Outcome := { status := stOk, inB := inB, outB := if j.hasOut then j.payLen else 0, result := baseResult s j, softLimit := j.soft }
  if !j.endsMsg then
    finishJob (writeRec (keepSeg s w j c off out) w j c) j { base with result := if w.mode = mCtr then fieldBE c.chain 8 8 else base.result }
  else
    match j.opcode with
    | 0x10 => finishJob (writeBuf (keepSeg s w j c off out) j 96 0 tag) j { base with outB := base.outB + w.tagLen }
    | 0x12 => finishJob (writeBuf s j 96 0 tag) j { base with outB := w.tagLen }
    | 0x13 =>
      if tag = expected then finishJob s j { base with inB := inB + w.tagLen }
      else tagBad s j { base with inB := inB + w.tagLen }
    | 0x11 =>
      let o := { base with inB := inB + w.tagLen }
      if tag ≠ expected then tagBad (keepSeg s w j c off out) j o
      else
        match j.assoc.bind s.assoc? with
        | some a =>
          if !markReady s a j.ctr then waitWindow s a.index j.id (max j.ctr a.winTop)
          else openDone (markAssoc s a.index j.id j.ctr) w j c off out o
        | none => openDone s w j c off out o
    | _ => finishJob (keepSeg s w j c off out) j { base with result := if w.mode = mCtr then fieldBE c.chain 8 8 else base.result }
where
  /-- plaintext out: as the lane produced it, or from the green room -/
  openDone (s : State) (w : SymW) (j : Job) (c : Ctx) (off : Nat) (out : Bytes) (o : Outcome) : State :=
    if j.opBit 14 then finishJob (writeBuf s j 64 0 (j.inner ++ out)) j { o with opf := 0x40 }
    else finishJob (keepSeg s w j c off out) j o

-- Digest segments -----------------------------------------------------------------------------------------------------------

/-- Absorb the segment in progress: whole blocks, and what is left of the last. A segment of a SHA-3 or SHAKE message may begin inside a block of which
the state holds the bytes before: zeros stand for them (log entry 41). -/
def digStep (w : SymW) (j : Job) : Ctx × Bytes :=
  let data := j.dataOf 48 (segPay w j).1 (segPay w j).2
  let d := zeros (j.ctx.msgBytes % hashBlock j.alg) ++ data
  let n := d.length / hashBlock j.alg * hashBlock j.alg
  ({ j.ctx with hash := hashAbsorb j.alg j.ctx.hash (d.take n), msgBytes := j.ctx.msgBytes + data.length }, d.drop n)

/-- The state of a message at a segment boundary: the bytes of a block that stays open are put into the Keccak state. -/
def digOpen (r : Ctx × Bytes) : Ctx := if r.2.isEmpty then r.1 else { r.1 with hash := xorBytes r.1.hash (r.2 ++ zeros (200 - r.2.length)) }

/-- The digest or tag of a message that ends with the bytes `rest`. -/
def digValue (sw : Bool) (j : Job) (c : Ctx) (rest : Bytes) : Bytes :=
  if sw then c.hash.take (hashLen j.alg)
  else
    let total := c.msgBytes + if j.isHmac then hashBlock j.alg else 0
    let hv := hashAbsorb j.alg c.hash (hashPad j.alg total rest)
    if j.isHmac then hmacFinish j.alg j.outer (hv.take (hashLen j.alg)) else hashOut j.alg hv j.outLen

/-- The compare word of R304: four bits, each computed separately, so that an upset may turn any of them (log entry 3). -/
def cmpWord (upset : BitVec 4) (a b : Bytes) : Nat :=
  (if a = b then 0x1010 else 0x2020)
    ^^^ (flag (upset.getLsbD 0) 4 + flag (upset.getLsbD 1) 5 + flag (upset.getLsbD 2) 12 + flag (upset.getLsbD 3) 13)

/-- A pattern that is neither equal nor unequal is counted and raises COMPARE_PATTERN (R305). -/
def mixedPattern (s : State) (j : Job) : State :=
  alarmC (s.modKeys (fun k => { k with cntCmpFault := satInc 32 k.cntCmpFault })) 0x4A ((jobBay j).getD 0) j.seat

/-- End a compare (R305). -/
def endCompare (s : State) (j : Job) (word : Nat) (o : Outcome) : State :=
  let mixed := word != 0x1010 && word != 0x2020
  finishJob (if mixed then mixedPattern s j else s) j
    { o with status := if word = 0x1010 then stOk else stUnequal, sub := if mixed then 1 else 0, result := word }

/-- LENGTH_TRUNCATED (R293). -/
def truncated (j : Job) : Bool :=
  decide (j.payLen < j.avail 48) || (j.hasExpect && j.endsMsg && decide (j.outLen < j.avail 80))

/-- Blocks that the keys of an HMAC without a slot take at the start of a job (R308). -/
def keyBlocks (j : Job) : Nat := if !j.isHmac || j.slotUsed || j.seg = 1 || j.seg = 2 then 0 else if j.seg = 3 then 1 else 2

/-- Blocks a digest job has taken by byte `pos` of what it carries of its message. -/
def blocksBy (j : Job) (pos : Nat) : Nat := keyBlocks j + pos / hashBlock j.alg

/-- Blocks of all of a guarded job: with the padding, and the outer hash where the message ends (R306). -/
def blocksAll (j : Job) : Nat :=
  if j.endsMsg then keyBlocks j + (j.payLen + if hashBlock j.alg = 64 then 8 else 16) / hashBlock j.alg + 2 else blocksBy j j.payLen

def endDig (upset : BitVec 4) (s : State) (w : SymW) (j : Job) : State :=
  let r := digStep w j
  let c := r.1
  let s := match j.phase with
    | .inBay b => remask s j b (blocksBy j j.pos) (blocksAll j)
    | _ => s
  let sw := padSw s j
  let o : Outcome := { status := stOk, inB := j.payLen, truncated := truncated j, result := c.msgBytes
                       opf := (if j.slotUsed then 0x80 else 0) + if sw then 0x40 else 0 }
  if !j.endsMsg then finishJob (writeRec s w j c) j o
  else
    let v := (digValue sw j c r.2).take j.outLen
    if j.hasExpect then endCompare s j (cmpWord upset v (j.dataOf 80 0 j.outLen)) { o with inB := o.inB + j.outLen }
    else finishJob (writeBuf s j 64 0 v) j { o with outB := j.outLen }

/-- A segment of a digest stream that is not the last; a guarded one takes fresh masks after every 4,096 blocks (R306). -/
def digSeg (s : State) (w : SymW) (j : Job) : State :=
  let e := segEnd w j
  let s := match j.phase with
    | .inBay b => remask s j b (blocksBy j j.pos) (blocksBy j e)
    | _ => s
  s.modJob j.id (fun k => { dropData w k with ctx := digOpen (digStep w j), pos := e, segs := k.segs + 1 })

-- Operations ----------------------------------------------------------------------------------------------------------------

/-- The job of an operation command: started in a bay, its segment's reads all come, not stopped by a class A alarm. -/
def opJob (s : State) (id : Nat) (ops : List Nat) (last : Bool) (f : State → SymW → Job → State) : State :=
  match s.liveJob id with
  | none => s
  | some j =>
    let w := symOf s j
    let inBay := match j.phase with
      | .inBay _ => true
      | _ => false
    if !s.serving || s.alarms.verifying || !inBay || !j.started || j.held != .none || j.pkt.isSome || !ops.contains j.opcode || lastSeg w j != last then s
    else if j.late s && !j.committed then stop s id stTimeout ((timeoutSub s j).getD 2)
    else if (segReads w j).any (fun r => !j.hasRead r) then issueReads s j (segReads w j)
    else f s w j

def symOp (s : State) (id op : Nat) : State :=
  opJob s id [op] true (fun s w j => let r := symStep w j; endSym s w j r.1 r.2.1 r.2.2)

/-- ASSOC_QUERY (R239, R256, R260): the value taken at its start. -/
def queryEnd (s : State) (j : Job) : State :=
  finishJob s j { status := stOk, result := j.ctrNext, softLimit := j.soft, opf := if j.ctrNext = ctrEnd then 0x20 else 0 }

def digOp (s : State) (id op : Nat) (upset : BitVec 4) : State := opJob s id [op] true (endDig upset)

def compareEnd (upset : BitVec 4) (s : State) (_w : SymW) (j : Job) : State :=
  endCompare s j (cmpWord upset (j.dataOf 48 0 j.outLen) (j.dataOf 80 0 j.outLen)) { status := stOk, inB := 2 * j.outLen, truncated := truncated j }

/-- HMAC_LOAD (R298): the states go into the slot its start has counted, or the key was loaded before it started. -/
def hmacLoadEnd (s : State) (_w : SymW) (j : Job) : State :=
  if j.already then finishJob s j { status := stOk, result := 2 ^ 16 + slotCount s j.seat }
  else
    let s := s.modKeys (fun k => { k with slots := { seat := j.seat, gen := j.gen, handle := j.fld 20 4, attr := j.attr, inner := j.inner, outer := j.outer } :: k.slots })
    finishJob s j { status := stOk, result := slotCount s j.seat }

/-- HMAC_UNLOAD (R300). -/
def hmacUnloadEnd (s : State) (_w : SymW) (j : Job) : State :=
  let had := (slotOf s j).isSome
  let s := s.modKeys (fun k => { k with slots := k.slots.filter (fun c => !(c.seat == j.seat && c.gen == j.gen && c.handle == j.fld 20 4)) })
  finishJob s j { status := stOk, result := flag (!had) 16 + slotCount s j.seat }

end Sys2Proof.Machine
end

