-- ==== Sys2Proof/Machine/Pkt.lean ====
section
/-! DEFINITION. A packet in its home bay (steps 7 to 10 of R444): the peer table (R448 to R454), the start of a packet, opening and sealing in ESP
(R445 to R447). -/

namespace Sys2Proof.Machine

-- Peer table ----------------------------------------------------------------------------------------------------------------

/-- The key of a peer entry as bytes (log entry 36). -/
def peerKey (i : Nat) (addr : Bytes) (port : Nat) : Bytes := leBytes 3 i ++ sliceZ addr 0 16 ++ beBytes 2 port

/-- The two buckets of a key under two seeds (R448). -/
def bucketsOf (seed1 seed2 : Nat) (key : Bytes) : Nat × Nat :=
  let a := crc32c (leBytes 4 seed1 ++ key) % 65536
  let b := crc32c (leBytes 4 seed2 ++ key) % 65536
  (a, if a = b then a ^^^ 1 else b)

def peerPair (s : State) (t : Nat) (key : Bytes) : Nat × Nat :=
  if t = 0 then bucketsOf s.front.seed1 s.front.seed2 key else bucketsOf s.front.rehSeed1 s.front.rehSeed2 key

def peerRead (s : State) (t b : Nat) : Read := Read.make { kind := .peer, a := t, b := b } 0 (peerAddr s t b) 128 0

/-- Slot `k` of a bucket. -/
def slotBytes (b : Bytes) (k : Nat) : Bytes := sliceZ b (32 * k) 32

def slotValid (e : Bytes) : Bool := (fieldLE e 21 1).testBit 0

/-- The key an entry holds. -/
def slotKey (e : Bytes) : Bytes := sliceZ e 18 3 ++ sliceZ e 0 18

def slotHit (key e : Bytes) : Bool := slotValid e && slotKey e == key

def findSlot (p : Bytes → Bool) (b : Bytes) : Option Nat := (List.range 4).find? (fun k => p (slotBytes b k))

/-- Tables a lookup searches: the new one first while a rehash runs (R453). -/
def peerTables (s : State) : List Nat := if s.front.rehashBusy then [1, 0] else [0]

/-- Table, bucket and slot of a key, once every bucket is known. -/
def peerFind (s : State) (key : Bytes) : Option (Nat × Nat × Nat) :=
  (peerTables s).findSome? (fun t =>
    let p := peerPair s t key
    [p.1, p.2].findSome? (fun b => ((bucket? s t b).bind (findSlot (slotHit key))).map (fun k => (t, b, k))))

/-- Reads of the buckets of a key that are not known. -/
def peerNeeds (s : State) (key : Bytes) : List Read :=
  ((peerTables s).map (fun t =>
    let p := peerPair s t key
    ([p.1, p.2].filter (fun b => (bucket? s t b).isNone)).map (peerRead s t))).flatten

def setSlot (s : State) (t b k : Nat) (e : Bytes) : State := keepBucket s t b (overlay ((bucket? s t b).getD (zeros 128)) (32 * k) e)

/-- Entry bytes with FLAGS and LAST_SEEN. -/
def peerEntry (key : Bytes) (flags seen : Nat) : Bytes :=
  (key.drop 3).take 18 ++ key.take 3 ++ [BitVec.ofNat 8 flags] ++ zeros 2 ++ leBytes 8 seen

/-- The peer unit takes on writes; it serves what it has taken on in order, so that an update never meets a relocation in progress (R451). -/
def peerPush (s : State) (job : Option Nat) (ws : List (Nat × Bytes)) : State :=
  s.modFront (fun f => { f with peerQ := f.peerQ ++ [{ job := job, writes := ws }] })

/-- A hit (R449): HIT set, STALE cleared, LAST_SEEN written. -/
def peerHit (s : State) (job : Option Nat) (t b k : Nat) (key : Bytes) : State :=
  let e := peerEntry key 5 s.now
  peerPush (setSlot s t b k e) job [(peerAddr s t b + 32 * k + 21, e.drop 21)]

/-- Write a new entry: VALID by a request of its own after the rest (R450); what follows it is in `after`. -/
def peerPut (s : State) (job : Option Nat) (t b k : Nat) (e : Bytes) (after : List (Nat × Bytes)) : State :=
  let va := peerAddr s t b + 32 * k
  peerPush (setSlot s t b k e) job ((va, overlay e 21 [e.getD 21 0 &&& 0xFE]) :: (va + 21, [e.getD 21 0]) :: after)

/-- The other bucket of a resident entry. -/
def otherBucket (s : State) (t b : Nat) (e : Bytes) : Nat :=
  let p := peerPair s t (slotKey e)
  if p.1 = b then p.2 else p.1

/-- What an insertion answers (R450): buckets to read, done, or no place. -/
inductive InsAns where
  | need (rs : List (Nat × Nat))
  | done (s : State)
  | full

/-- The residents of two buckets in slot order: bucket, slot, bytes. -/
def residents (s : State) (t b1 b2 : Nat) : List (Nat × Nat × Bytes) :=
  ([b1, b2].map (fun b => (List.range 4).map (fun k => (b, k, slotBytes ((bucket? s t b).getD []) k)))).flatten

/-- Insert an entry into a table for a job, or for the rehash (R450, R451); the writes `after` follow its VALID. A relocation sets VALID
of the copy, waits for the lookups in progress, clears it in the original and only then writes the new entry there, each write after the one before is
acknowledged. -/
def peerInsert (s : State) (job : Option Nat) (t : Nat) (key e : Bytes) (after : List (Nat × Bytes)) : InsAns :=
  let p := peerPair s t key
  match [p.1, p.2].filter (fun b => (bucket? s t b).isNone) with
  | b :: bs => .need ((b :: bs).map (fun b => (t, b)))
  | [] =>
    let v := fun b => (bucket? s t b).getD []
    let count := fun b => ((List.range 4).filter (fun k => slotValid (slotBytes (v b) k))).length
    match [p.1, p.2].findSome? (fun b => (findSlot (slotHit key) (v b)).map (fun k => (b, k))) with
    | some (b, k) => .done (peerHit s job t b k key)
    | none =>
      let b := if count p.2 < count p.1 then p.2 else p.1
      match findSlot (fun e => !slotValid e) (v b) with
      | some k => .done (peerPut s job t b k e after)
      | none =>
        let rs := residents s t p.1 p.2
        match (rs.map (fun r => otherBucket s t r.1 r.2.2)).find? (fun b => (bucket? s t b).isNone) with
        | some b => .need [(t, b)]
        | none =>
          match rs.findSome? (fun r =>
            let o := otherBucket s t r.1 r.2.2
            (findSlot (fun e => !slotValid e) (v o)).map (fun k => (r, o, k))) with
          | some (r, o, k) =>
            let va := peerAddr s t r.1 + 32 * r.2.1
            let f := e.getD 21 0
            let s := peerPut s job t o k r.2.2 ([(va, []), (va + 21, [0]), (va, overlay e 21 [f &&& 0xFE]), (va + 21, [f])] ++ after)
            .done (setSlot s t r.1 r.2.1 e)
          | none => .full

-- Exception ring ------------------------------------------------------------------------------------------------------------

/-- Copies on their way. -/
def excOut (s : State) : Nat := (s.mem.accesses.filter (fun a => match a.owner with | .exception _ => true | _ => false)).length

/-- Copy a packet of a job to the exception ring (R453), or drop the copy. -/
def excCopy (s : State) (job : Nat) (p : Pkt) : State :=
  let f := s.front
  let n := 2 ^ f.excCfg
  let used := sub32 f.excTail f.excHead + excOut s
  if n ≤ used then s.modFront (fun f => { f with cntExcLost := wrapInc 32 f.cntExcLost, excFull := true })
  else
    let b := leBytes 16 p.metaIn.toNat ++ leBytes 8 s.now ++ leBytes 2 p.bytes.length ++ [1] ++ zeros 37 ++ sliceZ p.bytes 0 1984
    addWrite s (.exception (some job)) 0 (f.excBase + (f.excTail + excOut s) % n * 2048) b 0

/-- A copy is acknowledged: the ring's producer index moves on, vector 5 when the ring was empty. -/
def excAcked (s : State) : State :=
  let empty := s.front.excTail == s.front.excHead
  let s := s.modFront (fun f => { f with excTail := (f.excTail + 1) % 2 ^ 32 })
  if empty then vector s 5 else s

-- Learning ------------------------------------------------------------------------------------------------------------------

def setFlag (p : Pkt) (b : Nat) : Pkt := { p with flags := p.flags ||| 2 ^ b }

def modPkt (s : State) (id : Nat) (f : Pkt → Pkt) : State := s.modJob id (fun j => { j with pkt := j.pkt.map f })

/-- Learning applies to the packet (R449). -/
def learns (s : State) (p : Pkt) (a : Assoc) : Bool := !p.metaIn.getLsbD 24 && aLearn a.flags && s.front.peerBase != 0

def senderKey (p : Pkt) : Bytes := peerKey p.assoc p.sender p.port

/-- The sender of an authenticated packet is noted (R449, R450, R453); `none`: buckets are being read. -/
def learn (s : State) (j : Job) (p : Pkt) : Option State :=
  let key := senderKey p
  match peerNeeds s key with
  | _ :: _ => none
  | [] =>
    match peerFind s key with
    | some (t, b, k) => some (peerHit s (some j.id) t b k key)
    | none =>
      match peerInsert s (some j.id) (if s.front.rehashBusy then 1 else 0) key (peerEntry key 5 s.now) [] with
      | .need _ => none
      | .done s => some ((modPkt s j.id (setFlag · 18)).modFront (fun f => { f with cntLearned := wrapInc 32 f.cntLearned }))
      | .full =>
        let s := s.modFront (fun f => { f with cntPeerFail := wrapInc 32 f.cntPeerFail })
        some (if s.front.forerunner then excCopy s j.id p else vector (s.modFront (fun f => { f with rehashReq := true })) 5)

/-- The buckets a learning packet still needs. -/
def learnNeeds (s : State) (p : Pkt) : List Read :=
  let key := senderKey p
  match peerNeeds s key with
  | r :: rs => r :: rs
  | [] =>
    if (peerFind s key).isSome then []
    else
      match peerInsert s none (if s.front.rehashBusy then 1 else 0) key (peerEntry key 5 s.now) [] with
      | .need l => l.map (fun q => peerRead s q.1 q.2)
      | _ => []

-- Start ---------------------------------------------------------------------------------------------------------------------

/-- RFC 4303 Appendix A with a window of 1,024. -/
def esnOf (top sn : Nat) : Nat :=
  let tl := top % 2 ^ 32
  let th := top / 2 ^ 32
  let bl := (tl + 2 ^ 32 - 1023) % 2 ^ 32
  let hi := if 1023 ≤ tl then (if bl ≤ sn then th else th + 1) else (if bl ≤ sn then th + 2 ^ 32 - 1 else th)
  hi % 2 ^ 32 * 2 ^ 32 + sn

/-- The sequence number of an inbound packet. -/
def pktSeq (a : Assoc) (p : Pkt) : Nat :=
  let sn := fieldBE p.bytes (p.off + 4) 4
  if aEsn a.flags then esnOf a.winTop sn else sn

/-- The stranger budget (R454): off in forerunner mode and at RATE 0. -/
def strangerCk (s : State) (j : Job) : Ck State :=
  let t := s.seat j.seat
  if s.front.forerunner || t.strgAct % 2 ^ 16 == 0 then .ok s
  else if 1000 ≤ t.strgCredit then .ok (s.modSeat j.seat (fun t => { t with strgCredit := t.strgCredit - 1000 }))
  else
    let s := s.modSeat j.seat (fun t => { t with strgShed := satInc 16 t.strgShed })
    let s := s.modFront (fun f => { f with cntShed := wrapInc 32 f.cntShed })
    .error (.wait (failJob s j.id stQuota 0x30))

/-- A stranger met at the stamp of an epoch boundary sees the credit grown there (R456): it waits for the boundary. -/
def strangerWaits (s : State) (j : Job) : Bool :=
  !s.front.forerunner && (s.seat j.seat).strgAct % 2 ^ 16 != 0 && s.due s.time.epochDue

/-- The reads a peer lookup still needs. -/
def peersIn (s : State) (p : Pkt) : Ck Unit :=
  match peerNeeds s (senderKey p) with
  | [] => .ok ()
  | rs => .error (.need rs)

/-- What the lookup found is kept with the packet. -/
def lookedUp (s : State) (id : Nat) (known : Bool) : State :=
  modPkt s id (fun p => let p := { p with looked := true, known := known }; if known then p else setFlag p 17)

/-- Step 8: the peer lookup, made once. -/
def lookupCk (s : State) (j : Job) (p : Pkt) (a : Assoc) : Ck State :=
  if p.metaIn.getLsbD 24 || p.looked || !learns s p a then .ok s
  else do
    peersIn s p
    let known := (peerFind s (senderKey p)).isSome
    if known then pure (lookedUp s j.id known)
    else do
      chkWait s (!strangerWaits s j)
      strangerCk (lookedUp s j.id known) j

/-- The nonce of an outbound packet is not exhausted (R260); an inbound one passes the replay check of R446. -/
def pktOrder (s : State) (j : Job) (p : Pkt) (a : Assoc) : Ck Unit :=
  if p.metaIn.getLsbD 24 then
    if sealedOff a then
      match issueNonce s a.index j.id with
      | .sealed s' => .error (.wait (failJob (s'.modJob j.id (fun j => { j with soft := softReached { a with ctr := ctrEnd } })) j.id stNonceExhausted 0))
      | _ => .error (.fail stNonceExhausted 0 0)
    else .ok ()
  else
    match replaySub a (pktSeq a p) with
    | some sub => .error (.wait (failJob s j.id stReplay sub))
    | none => .ok ()

/-- The key of a packet; its reads keep what the packet has come to. -/
def pktKey (s : State) (j : Job) (h b : Nat) : Ck (State × Bytes) :=
  match bayKey s j h b true with
  | .error (.need rs) => .error (.wait (issueReads s j rs))
  | x => x

/-- A packet starts in its bay: steps 7 to 9 inbound, 7 and the nonce outbound. -/
def startPkt (s : State) (j : Job) (p : Pkt) (b : Nat) : Ck State := do
  let spi := if p.metaIn.getLsbD 24 then none else some (fieldBE p.bytes p.off 4)
  let r ← assocCk s j p.assoc j.seat spi
  let s := r.1
  let a := r.2
  let (s, k) ← bayAttr s j a.keyref
  keepOn s j (do
    classCk s j k.attr b
    let g := attrGuarded k.attr
    expiryCk s k
    ckIf g (noDraws s)
    chk (keyCache s j.seat == 0) stQuota 3
    let out := p.metaIn.getLsbD 24
    let s ← lookupCk s j p a
    pktOrder s j p a
    let m ← pktKey s j a.keyref b
    let s ← drawMasks m.1 j b g
    let j' := { j with assoc := some a.index }
    let _ ← nonceCk s j'
    let s ← useCk s j' k
    let n ← nonceCk s j'
    let s := n.1
    pure (laneKeep ((modPkt s j.id (fun p => { p with seqNo := if out then n.2.getD 0 else pktSeq a p })).modJob j.id (fun j =>
      { j with started := true, key := m.2, attr := k.attr, nonce := n.2, assoc := some a.index, soft := softOf s j' })) j.id))

-- Run -----------------------------------------------------------------------------------------------------------------------

/-- The packet's mode, nonce and additional data (R445, R257). -/
def espAad (a : Assoc) (spi seqNo : Nat) : Bytes :=
  beBytes 4 spi ++ (if aEsn a.flags then beBytes 4 (seqNo / 2 ^ 32) else []) ++ beBytes 4 (seqNo % 2 ^ 32)

/-- The UDP checksum before ESP over IPv4 becomes zero (R445). -/
def udpZero (p : Pkt) (b : Bytes) : Bytes := if p.term = 9 ∧ !p.ipv6 ∧ 2 ≤ p.off then overlay b (p.off - 2) [0, 0] else b

/-- An AEAD over a whole packet. -/
def espRun (mode : Nat) (enc : Bool) (key iv aad text : Bytes) : Bytes × Bytes :=
  let c := aadRun mode key (ctxStart mode (iv ++ zeros 4)) aad
  let r := dataRun mode enc 0 key c text true
  (r.2, modeTag mode key r.1)

/-- A packet leaves with OK: its new bytes and the payload fields. -/
def pktOk (s : State) (j : Job) (out : Bytes) (len nxt : Nat) : State :=
  let s := laneKeep (modPkt s j.id (fun p => { p with out := udpZero p out, payOff := p.off + 16, payLen := len, nextHdr := nxt })) j.id
  fixOutcome s j.id { status := stOk, softLimit := j.soft }

/-- Sealing (R445). -/
def pktSeal (s : State) (j : Job) (p : Pkt) (a : Assoc) : State :=
  let from_ := p.off + 16
  let n := p.fin - a.tagLen - from_
  let iv := beBytes 8 p.seqNo
  let r := espRun a.mode true j.key (a.sealSalt ++ iv) (espAad a a.outSpi p.seqNo) ((p.bytes.drop from_).take n)
  let b := overlay p.bytes p.off (beBytes 4 a.outSpi ++ beBytes 4 (p.seqNo % 2 ^ 32) ++ iv ++ r.1 ++ r.2.take a.tagLen)
  pktOk s j b n 0

/-- Opening (R445, R446): the tag, then the window mark and the sender. Where the trailer's pad length is larger than the bytes before
the trailer, the spec states no PAYLOAD_LEN: it is a free value (DESIGN CHOICE, log entry 103). -/
def pktOpen (s : State) (j : Job) (p : Pkt) (a : Assoc) : State :=
  let from_ := p.off + 16
  let n := p.fin - a.tagLen - from_
  let iv := (p.bytes.drop (p.off + 8)).take 8
  let r := espRun a.mode false j.key (a.openSalt ++ iv) (espAad a (fieldBE p.bytes p.off 4) p.seqNo) ((p.bytes.drop from_).take n)
  if r.2.take a.tagLen ≠ (p.bytes.drop (from_ + n)).take a.tagLen then fixOutcome s j.id { status := stAuthFail }
  else if !markReady s a p.seqNo then waitWindow s a.index j.id (max p.seqNo a.winTop)
  else
    let go := fun (s : State) =>
      let s := markAssoc s a.index j.id p.seqNo
      let pad := fieldLE r.1 (n - 2) 1
      let f := if n - 2 < pad then takeFree s else (s, n - 2 - pad)
      pktOk f.1 j (overlay p.bytes from_ (r.1 ++ zeros a.tagLen)) (f.2 % 2 ^ 14) (fieldLE r.1 (n - 1) 1)
    if !learns s p a then go s
    else
      match learnNeeds s p with
      | [] => match learn s j p with
        | some s => go s
        | none => s
      | rs => issueReads s j rs

/-- SEAL or OPEN of a packet that has started. -/
def pktOp (s : State) (id op : Nat) : State :=
  match s.liveJob id with
  | none => s
  | some j =>
    match j.phase, j.pkt, j.assoc.bind s.assoc? with
    | .inBay _, some p, some a =>
      if !s.serving || s.alarms.verifying || !j.started || j.opcode ≠ op then s
      else if op = 0x10 then pktSeal s j p a else pktOpen s j p a
    | _, _, _ => s

end Sys2Proof.Machine
end

