-- ==== Sys2Proof/Machine/AssocJob.lean ====
section
/-! DEFINITION. Association jobs (R440 to R442): ASSOC_WRITE and ASSOC_KILL. -/

namespace Sys2Proof.Machine

/-- OWNER of a new entry. -/
def Job.owner (j : Job) : Nat := if j.seat = 0 then j.fld 20 2 else j.seat

/-- Check 1 of R441. -/
def assocJobBad (j : Job) : Bool :=
  j.fld 19 1 != 0 || hOpf j.flags != 0 ||
    (if j.opcode = 0x71 then j.bytesAt 20 108 != zeros 108
     else (if j.seat = 0 then decide (1023 < j.fld 20 2) else j.fld 20 2 != 0)
       || !modeOn 0x10 (j.fld 22 1) || !tagFits (j.fld 22 1) (j.fld 23 1) || decide (15 < j.fld 28 4) || j.fld 48 8 == 0
       || j.bytesAt 108 20 != zeros 20)

/-- The entry as it stands: the cached one, or the one read; `stage` numbers the read. -/
def entryNow (s : State) (j : Job) (stage : Nat) : Ck Assoc :=
  match s.assoc? j.assocIdx with
  | some a => .ok a
  | none => do
    if entryBusy s j.assocIdx j.id then .error (.wait s)
    let r := { assocRead s j.assocIdx with key := { kind := .assoc, a := j.assocIdx, b := stage } }
    let b ← needBytes j r
    pure (assocOf j.assocIdx b)

/-- Checks 2 to 4 of R441. -/
def assocJobCk (s : State) (j : Job) (stage : Nat) : Ck Assoc := do
  chk (s.front.assocBase == 0) stNoAssoc 1
  let t := s.seat j.seat
  let i := j.assocIdx
  chk (j.seat != 0 && !(decide (t.abase ≤ i) && decide (i < t.abase + t.acount))) stNoAssoc 9
  let a ← entryNow s j stage
  chk (j.seat != 0 && a.state != 0 && (a.seat != j.seat || a.gen != t.gen)) stNoAssoc 4
  chk (j.opcode == 0x71 && a.state == 0) stNoAssoc 1
  pure a

/-- Check 5: KEYREF in the owner's key table. -/
def assocKeyCk (s : State) (j : Job) : Ck (State × Nat) :=
  if j.opcode = 0x71 then .ok (s, 0)
  else do
    let k ← keyCk s { j with seat := j.owner } (j.fld 24 4) false (fun alg _ => keyFits (j.fld 22 1) alg)
    pure (k.1, k.2.attr)

/-- LOCAL and PEER strings of the body. -/
def Job.localEp (j : Job) : Bytes := j.bytesAt 64 16 ++ j.bytesAt 96 2
def Job.peerEp (j : Job) : Bytes := j.bytesAt 80 16 ++ j.bytesAt 98 2

/-- The class of an association job: that of the association it finds, or, where it writes one that is not valid, that of its key. -/
def assocJobAttr (s : State) (j : Job) (a : Assoc) (attr : Nat) : Ck (State × Nat) :=
  if j.opcode = 0x70 ∧ a.state ≠ 1 then .ok (s, attr) else assocAttr s j a

/-- Placement of an association job as of any job of its association (R210 to R212, R440): on the home bay, which a quiet association may change; an
entry that is not valid has no home yet, and the job is placed where its new entry would be homed. -/
def placeAssocJob (s : State) (j : Job) (a : Assoc) (attr : Nat) : State :=
  let j := { j with attr := attr }
  let i := j.assocIdx
  let valid := a.state = 1
  let hash := if j.opcode = 0x70 ∧ !valid then flowHash j.localEp j.peerEp else a.flow
  if behind s i j || givenBack s j then s
  else if inService s j = [] then noUnit s j
  else
    match homeFor s j i a.home hash valid with
    | (s, some b) => queueBay (s.modJob j.id (fun k => { k with assoc := some i })) j b attr
    | (s, none) => s

/-- The dispatcher's part. -/
def assocJobPlace (s : State) (j : Job) : Ck State := do
  chk (assocJobBad j) stInternal 4
  let a ← assocJobCk s j 0
  let k ← assocKeyCk s j
  let c ← assocJobAttr k.1 j a k.2
  pure (placeAssocJob c.1 j a c.2)

/-- A write of HOME for the job is on its way. -/
def homeOut (s : State) (id : Nat) : Bool := s.mem.accesses.any (fun a => a.owner == .writeBack (some id))

/-- The start: checks 2 to 4 again, on the entry as earlier jobs of the association leave it. -/
def startAssocJob (s : State) (j : Job) : Ck State := do
  chkWait s (!homeOut s j.id)
  let a ← assocJobCk s j 1
  pure (s.modJob j.id (fun k => { k with started := true, fenceN := a.state, nonce := some a.ctr }))

/-- Bytes of a new entry, or zeros for a kill. -/
def newEntry (s : State) (j : Job) : Bytes :=
  if j.opcode = 0x71 then zeros 256
  else
    [1, 1] ++ leBytes 2 j.owner ++ leBytes 2 (s.seat j.owner).gen ++ j.bytesAt 22 2 ++ j.bytesAt 24 4 ++ leBytes 4 (j.fld 28 4 + 16)
      ++ j.bytesAt 32 16 ++ j.bytesAt 48 16 ++ leBytes 4 (flowHash j.localEp j.peerEp) ++ [0xFF, 0, 0, 0] ++ j.bytesAt 100 8 ++ zeros 136
      ++ j.localEp ++ j.peerEp ++ zeros 20

/-- The cached copy is dropped and every byte but STATE is written; STATE follows once those writes are acknowledged (R437). -/
def assocJobRun (s : State) (j : Job) : State :=
  let b := newEntry s j
  let va := assocAddr s j.assocIdx
  let s := dropAssoc s j.assocIdx
  let s := writeAt s j 0 va (b.take 1) 2
  (writeAt s j 0 (va + 2) (b.drop 2) 2).modJob j.id (fun k => { k with pos := 1 })

/-- STATE is written, and the outcome fixed. -/
def assocJobEnd (s : State) (j : Job) : State :=
  let s := writeAt s j 0 (assocAddr s j.assocIdx + 1) [if j.opcode = 0x71 then 0 else 1] 2
  fixOutcome s j.id
    { status := stOk, opf := if j.opcode = 0x70 ∧ j.fenceN ≠ 0 then 0x80 else 0
      result := if j.opcode = 0x70 then flowHash j.localEp j.peerEp else j.nonce.getD 0 }

/-- ASSOC_WRITE or ASSOC_KILL of a job that has started. -/
def assocJobOp (s : State) (id op : Nat) : State :=
  match s.liveJob id with
  | some j =>
    match j.phase with
    | .inBay _ =>
      if !s.serving || s.alarms.verifying || !j.started || j.opcode ≠ op || j.pos ≠ 0 then s
      else if j.late s then stop s id stTimeout ((timeoutSub s j).getD 2)
      else assocJobRun s j
    | _ => s
  | none => s

end Sys2Proof.Machine
end

