-- ==== Sys2Proof/Machine/Drr.lean ====
section
/-! DEFINITION. Deficit round robin (R220) in closed form: whole rounds that give no seat enough are skipped. -/

namespace Sys2Proof.Machine

/-- A seat with a job to serve: its quantum and the cost of its head job. -/
structure Cand where
  key     : Nat
  quantum : Nat
  cost    : Nat
  deriving DecidableEq, Repr

/-- Deficit of a seat. -/
def defOf (d : List (Nat × Nat)) (k : Nat) : Nat := tabGet 0 d k

/-- Visits a seat needs before its deficit covers the cost. -/
def visits (d : List (Nat × Nat)) (c : Cand) : Nat := max 1 (ceilDiv (c.cost - defOf d c.key) (max 1 c.quantum))

/-- The cap of R220. -/
def capOf (c : Cand) : Nat := max (16 * c.quantum) c.cost

/-- Deficit after `n` visits; it never exceeds the cap, which falls with WEIGHT. -/
def grown (d : List (Nat × Nat)) (c : Cand) (n : Nat) : Nat := min (capOf c) (defOf d c.key + n * c.quantum)

/-- Seats in the order of visits after the one served last, which comes last. -/
def visitOrder (turn : Nat) (cs : List Cand) : List Cand := cs.filter (fun c => decide (turn < c.key)) ++ cs.filter (fun c => decide (c.key ≤ turn))

def leastVisits (d : List (Nat × Nat)) (cs : List Cand) : Option Cand :=
  cs.foldl (fun best c => match best with
    | none => some c
    | some b => if visits d c < visits d b then some c else some b) none

/-- The seat served next and the deficits after it: the seat served last goes on while its deficit lasts; else the first whose deficit has
grown to its cost. -/
def drrPick (d : List (Nat × Nat)) (turn : Nat) (cs : List Cand) : Option (Nat × List (Nat × Nat)) :=
  match cs.find? (fun c => c.key == turn && decide (c.cost ≤ defOf d c.key)) with
  | some c => some (c.key, tabSet 0 d c.key (defOf d c.key - c.cost))
  | none =>
    let order := visitOrder turn cs
    match leastVisits d order with
    | none => none
    | some w =>
      let n := visits d w
      let before := (order.takeWhile (fun c => c.key != w.key)).map (·.key)
      let d' := order.foldl (fun t c => tabSet 0 t c.key (grown d c (if c.key == w.key || before.contains c.key then n else n - 1))) d
      some (w.key, tabSet 0 d' w.key (defOf d' w.key - w.cost))

/-- A seat with nothing queued has a deficit of zero. -/
def dropIdle (d : List (Nat × Nat)) (live : Nat → Bool) : List (Nat × Nat) := d.filter (fun p => live p.1)

end Sys2Proof.Machine
end

