-- ==== Sys2Proof/Machine/Bay.lean ====
section
/-! DEFINITION. A bay at work: which job it takes (R220, R254, R266), starts, segment boundaries and pauses (R222, R223, R267 to R269), held
records and their spill (R270 to R274). -/

namespace Sys2Proof.Machine

-- Bay buffer and lanes ------------------------------------------------------------------------------------------------------

/-- Jobs in a bay with no outcome. -/
def inBay (s : State) (b : Nat) : List Job := s.jobs.filter (fun j => j.phase == .inBay b && j.outcome.isNone)

/-- Size of the region of the bay buffer a job needs when it starts, where the manual gives one (R266, log entry 37). -/
def regionOf (j : Job) : Nat := if j.opcode == 0x11 && j.opBit 14 && j.pkt.isNone then (j.payLen + 4095) / 4096 * 4096 else 0

/-- Bytes a region takes: of a running job its size; 256 of a held record, until its spill write is acknowledged (R270, R271). -/
def regionSize (s : State) (b : Nat) (r : Region) : Nat :=
  match r.job.bind s.job? with
  | none => 0
  | some j =>
    match j.held with
    | .none => if j.phase == .inBay b then j.region else 0
    | .spilled _ => 0
    | _ => 256

/-- Bytes of a bay's buffer that regions and held records take. -/
def bufUsed (s : State) (b : Nat) : Nat := ((tabGet [] s.buffers b).map (regionSize s b)).foldl (· + ·) 0

/-- A job has its region in the bay; a job that comes without one is given one (R26). -/
def haveRegion (s : State) (b : Nat) (j : Job) : State :=
  if (tabGet [] s.buffers b).any (fun r => r.job == some j.id) then s else takeRegion s b j.id j.seat

/-- Before a lane starts a job of another seat its registers are cleared (R21). -/
def laneTake (s : State) (b l seat : Nat) : State :=
  if l < 2 then
    s.modBay b (fun x => { x with lanes := tabSet {} x.lanes l (if (tabGet {} x.lanes l).seat = some seat then tabGet {} x.lanes l else { seat := some seat }) })
  else s

def laneBusy (s : State) (b l : Nat) : Bool := (inBay s b).any (fun j => j.lane == l)

def freeLane (s : State) (b : Nat) : Option Nat := if !laneBusy s b 0 then some 0 else if !laneBusy s b 1 then some 1 else none

/-- Another job of the association in the same direction has started and not completed (R254, R269). -/
def dirBusy (s : State) (i : Nat) (j : Job) : Bool := s.jobs.any (fun k => k.id != j.id && onIndex i k && k.opcode == j.opcode && (k.started || (match k.phase with | .inBay _ => true | _ => false)))

/-- A job of the association accepted earlier, from whatever seat or port and wherever it is, has not started, or is paused: a later one does not start
before it (R27, R37, R232). -/
def assocAhead (s : State) (i : Nat) (j : Job) : Bool :=
  s.jobs.any (fun k => decide (k.id < j.id) && onIndex i k && k.outcome.isNone && (!k.started || (match k.phase with
    | .paused _ => true
    | _ => false)))

/-- The lane a job would start on: 0 and 1 cipher lanes, 2 the digest lane, 3 none (R254, R440). -/
def laneFor (s : State) (b : Nat) (j : Job) : Option Nat :=
  if j.isDig then (if laneBusy s b 2 then none else some 2)
  else if !j.started && (j.onAssoc || j.opcode == 0x70 || j.opcode == 0x71) && assocAhead s j.assocIdx j then none
  else if j.opcode = 0x16 then some 3
  else if j.opcode = 0x70 ∨ j.opcode = 0x71 then
    (if (inBay s b).any (onIndex j.assocIdx) then none else some 3)
  else if j.onAssoc then
    if (inBay s b).any (fun k => onIndex j.assocIdx k && decide (0x70 ≤ k.opcode)) || (!j.started && dirBusy s j.assocIdx j) then none
    else
      match (inBay s b).find? (fun k => onIndex j.assocIdx k && k.opcode != 0x16) with
      | some k => some k.lane
      | none => freeLane s b
  else freeLane s b

/-- The region fits. -/
def fits (s : State) (b : Nat) (j : Job) : Bool := regionOf j == 0 || decide (bufUsed s b + regionOf j ≤ 65536)

-- Queues --------------------------------------------------------------------------------------------------------------------

def inQueue (b : Nat) (j : Job) : Bool := j.outcome.isNone && (j.phase == .queuedBay b || j.phase == .paused b)

/-- A job spilled onto a guarded bay (R218). -/
def spilledJob (b : Nat) (j : Job) : Bool := isGuarded b && !attrGuarded j.attr && !j.onAssoc && j.opcode < 0x70

/-- Jobs a bay may take, in queue order; a guarded bay serves its own class before any spilled job. -/
def bayQueue (s : State) (b : Nat) : List Job :=
  let q := (s.jobs.filter (fun j => inQueue b j && !(j.phase == .paused b && curtained s j.seat))).mergeSort (fun x y => decide (x.order ≤ y.order))
  if q.any (fun j => !spilledJob b j) then q.filter (fun j => !spilledJob b j) else q

/-- A paused job can be taken: its record is clear, or in a slot. -/
def ready (j : Job) : Bool :=
  match j.held with
  | .wrapping _ => false
  | _ => true

/-- The head job of one seat's queue with its lane (R219): a green-room job that waits for its region lets jobs of other associations pass. -/
def headOf (s : State) (b : Nat) : List Job → List Nat → Option (Job × Nat)
  | [], _ => none
  | j :: t, blocked =>
    if blocked.any (fun i => onIndex i j) then headOf s b t blocked
    else if !ready j then none
    else
      match laneFor s b j with
      | none => none
      | some l => if fits s b j then some (j, l) else headOf s b t (if j.onAssoc then j.assocIdx :: blocked else blocked)

/-- The head jobs of a bay, one for each seat. -/
def bayHeads (s : State) (b : Nat) : List (Job × Nat) :=
  let q := bayQueue s b
  ((q.map (·.seat)).eraseDups.mergeSort (fun x y => decide (x ≤ y))).filterMap (fun seat => headOf s b (q.filter (fun j => j.seat == seat)) [])

def weight (s : State) (seat : Nat) : Nat := (s.seat seat).actW % 1024


-- Held records --------------------------------------------------------------------------------------------------------------

/-- The lowest free slot of the spill area. -/
def freeSlot (s : State) : Option Nat :=
  (List.range (s.keys.spillUsed.length + 1)).find? (fun k => decide (k < s.keys.spillSlots) && !(s.keys.spillUsed.any (fun p => p.1 == k)))

/-- Wrap a clear held record and write it to slot `k` (R271); the region keeps it until that write is acknowledged. -/
def wrapSpill (s : State) (j : Job) (b k : Nat) : State :=
  let r := wrapRec s (symOf s j) j b j.ctx
  let s := addWrite r.1 (.spill j.id) 0 (spillAddr s k) r.2 2
  let s := s.modKeys (fun x => { x with spillUsed := tabPut x.spillUsed k j.id, cntSpill := wrapInc 32 x.cntSpill })
  let s : State := { s with buffers := tabMap [] s.buffers (fun _ l => l.map (fun r =>
    if r.job == some j.id then { r with bytes := stateBytes (if j.isDig then 2 else 1) (symOf s j).mode j.ctx } else r)) }
  s.modJob j.id (fun j => { j with held := .wrapping k, ctx := { msgBytes := j.ctx.msgBytes } })

/-- A spill is due: the record is wrapped; with no slot free it stays clear, FULL is set and the alarm raised (R273). -/
def spillJob (s : State) (j : Job) (b : Nat) : State :=
  match j.held, freeSlot s with
  | .clear _, some k => wrapSpill s j b k
  | .stuck, some k => wrapSpill s j b k
  | .clear _, none =>
    (alarmC (s.modKeys (fun x => { x with spillFull := true })) 0x47 b j.seat).modJob j.id (fun j => { j with held := .stuck })
  | _, _ => s

/-- The spill write of a job is acknowledged: its region is zeroed and freed (R271). -/
def spillAcked (s : State) (id : Nat) : State :=
  match (s.job? id).map (fun (j : Job) => j.held) with
  | some (Held.wrapping k) => (freeRegion s id []).modJob id (fun j => { j with held := .spilled k })
  | _ => s

/-- A spilled record has been read at resumption: checked, and the slot freed (R272, R285). One that fails its check ends the job with CONTEXT_INVALID, which R297
does not list after a start (DEDUCED, log entry 135). -/
def unspill (s : State) (j : Job) (k : Nat) (b : Bytes) : State :=
  let s := holdSeatKeys s j.seat j.gen
  match judgeRec s (symOf s j) j b 0 with
  | .ok c => (freeSpill s j.id).modJob j.id (fun x => { x with held := .none, ctx := c, got := x.got.filter (fun g => !(g.1.kind == .spill && g.1.a == k)) })
  | .error sub => failJob (freeSpill s j.id) j.id stContextInvalid sub

-- Going on ------------------------------------------------------------------------------------------------------------------

/-- Apply a chain of checks and acts to a job. -/
def runCk (s : State) (j : Job) (c : Ck State) : State :=
  match c with
  | .ok s => s
  | .error (.need rs) => needReads s j.id rs
  | .error (.wait s) => s
  | .error (.fail st sub opf) => failOpf s j.id st sub opf

/-- What a job does at its start in a bay, by its kind. -/
def startCk (s : State) (j : Job) (b : Nat) : Ck State :=
  match j.pkt with
  | some p => startPkt s j p b
  | none =>
    if j.isDig then startDig s j b
    else if j.opcode = 0x16 then startQuery s j
    else if j.isSym then startSym s j b
    else startAssocJob s j

/-- The start of a job in its bay, and the first reads of its data. -/
def tryStart (s : State) (j : Job) (b : Nat) : State := runCk s j (startCk s j b)

/-- A job that has come with an image goes on without its key: it is not carried (R164). -/
def keyGone (j : Job) : Bool := (j.isSym && j.opcode != 0x16 && j.key.isEmpty) || (keyedDig j && j.outer.isEmpty)

/-- Its handle, and whether a key of an algorithm is the one it started with. -/
def keyAgain (s : State) (j : Job) : Nat × (Nat → Bool) :=
  if j.isSym then ((symOf s j).handle, keyFits (symOf s j).mode) else (j.fld 20 4, fun alg => alg == j.alg + 7)

/-- Checks of a job that has started end it, where they fail, with INTERNAL 0x03: of the statuses that may follow the start the one that says that no unit can
go on with it (R243, R297; DESIGN CHOICE, log entry 131). -/
def sinceStart {α : Type} (s : State) (j : Job) (x : Ck α) : Ck α :=
  match x with
  | .error (.fail _ _ _) => .error (.wait (stop s j.id stInternal 3))
  | y => y

/-- The key of such a job is loaded as at a start (R374, R380), where its bay may still use it (R30); with a KEYCACHE of 0 the schedule is not kept. -/
def rekeyCk (s : State) (j : Job) (b : Nat) : Ck State := sinceStart s j (do
  let h := keyAgain s j
  let r ← bayAttr s j h.1
  chk (!h.2 (attrAlg r.2.attr)) stKeyHandle 0x31
  classCk (r.1.modJob j.id (fun k => { k with attr := r.2.attr })) j r.2.attr b
  let r ← bayKey r.1 j h.1 b (keyCache s j.seat != 0)
  pure (r.1.modJob j.id (fun k =>
    if k.isSym then { k with key := r.2 } else { k with inner := hmacInner k.alg r.2, outer := hmacOuter k.alg r.2 })))

/-- A bay decides the deadline of a job it holds, by what the job waits for (R197, R198). -/
def bayTime (s : State) (j : Job) (f : State → State) : State := inTime s j ((timeoutSub s j).getD 2) f

/-- What a job in a bay does next: its start, its record's return, its entry's last write, or the reads of its segment. -/
def bayGo (s : State) (j : Job) (b : Nat) : State :=
  if !j.started then tryStart s j b
  else
    match j.held with
    | .spilled k =>
      if keyGone j then runCk s j (rekeyCk s j b)
      else
        match j.all (spillRead s k) with
        | some v => unspill s j k v
        | none => issueReads s j [spillRead s k]
    | _ =>
      if j.opcode = 0x70 ∨ j.opcode = 0x71 then (if j.pos = 1 && !writesOut s j.id then assocJobEnd s j else s)
      else if j.pkt.isSome then s
      else issueReads s j (segReads (symOf s j) j)

/-- Carry a job in a bay on, while its deadline allows it. -/
def advanceJob (s : State) (j : Job) (b : Nat) : State := if s.alarms.verifying then s else bayTime s j (fun s => bayGo s j b)

/-- Once: the start; once more: the reads that follow it. -/
def advance (s : State) (id : Nat) : State :=
  match s.liveJob id with
  | none => s
  | some j =>
    match j.phase with
    | .inBay b =>
      let s := advanceJob s j b
      match s.liveJob id with
      | some j' => if j' = j then s else advanceJob s j' b
      | none => s
    | _ => s

/-- Every job that waits in a bay is carried on: a lease, an instance, a schedule or a job of its association may have come free. Schedules above a
seat's quota go as they fall out of use (R145). -/
def advanceAll (s : State) : State :=
  ((s.jobs.filter (fun j => match j.phase with
    | .inBay _ => j.outcome.isNone
    | _ => false)).map (·.id)).foldl advance (trimAll s)

-- Issue ---------------------------------------------------------------------------------------------------------------------

/-- A job enters its bay; a paused one resumes, from its clear record up to 10,000 ns after the pause (R270), else from its slot. -/
def enterBay (s : State) (j : Job) (b l : Nat) : State :=
  let take := fun (s : State) => laneTake (haveRegion s b j) b l j.seat
  let resume := fun (s : State) => (take s).modJob j.id (fun j => { j with phase := .inBay b, lane := l, held := .none, region := regionOf j })
  match j.held with
  | .clear at_ =>
    if at_ + 10000 * nsUnit < s.mono then
      let s := spillJob s j b
      if (s.job? j.id).any (fun k => k.held == .stuck) then resume s else s
    else resume s
  | .stuck => resume s
  | _ => (take s).modJob j.id (fun j => { j with phase := .inBay b, lane := l, region := regionOf j })

/-- A job that cannot start for want of its region makes the bay spill a clear held record (R271). -/
def roomSpill (s : State) (b : Nat) : State :=
  let clear := fun (p : Job) => match p.phase, p.held with
    | .paused x, .clear _ => x == b
    | _, _ => false
  match (bayQueue s b).find? (fun j => !fits s b j && (laneFor s b j).isSome), s.jobs.find? clear with
  | some _, some p => spillJob s p b
  | _, _ => s

/-- BAY_ISSUE: the scheduler picks a seat by deficit round robin and its head job enters the bay (R220). -/
def issueBay (s : State) (b : Nat) : State :=
  let w := b / 8
  if !s.serving || s.alarms.verifying || !s.bayOk b || (s.wing w).power != 2 then s
  else
    let s := roomSpill (s.modWing w (fun x => { x with deficit := dropIdle x.deficit (wingLive s w) })) b
    let hs := bayHeads s b
    let cs := hs.map (fun h => ({ key := h.1.seat, quantum := weight s h.1.seat * 512, cost := jobCost (symOf s h.1) h.1 } : Cand))
    match drrPick (s.wing w).deficit (tabGet 0 (s.wing w).turn (b % 8)) cs with
    | none => s
    | some (seat, d) =>
      match hs.find? (fun h => h.1.seat == seat) with
      | some (j, l) =>
        bayTime s j (fun s => advance (enterBay (s.modWing w (fun x => { x with deficit := d, turn := tabSet 0 x.turn (b % 8) seat })) j b l) j.id)
      | none => s

def execBayIssue (bay : Nat) (s : State) : Out := ok (fin (issueBay s (bay % 64)))

-- Segment boundaries --------------------------------------------------------------------------------------------------------

/-- Why a stream job pauses at a boundary (R268). -/
def pauseCause (s : State) (j : Job) (b : Nat) : Option Nat :=
  let cost := jobCost (symOf s j) j
  let waited := s.jobs.any (fun k => k.seat != j.seat && inQueue b k && decide (k.queuedAt + s.place.act.preempt * nsUnit ≤ s.mono))
  if !j.pausable then none
  else if curtained s j.seat then some 2
  else if aboveCount s j.seat b && (!j.onAssoc || s.jobs.all (fun k => k.id == j.id || !onIndex j.assocIdx k || k.phase == .held)) then some 3
  else if defOf (s.wing (b / 8)).deficit j.seat < cost ∧ waited then some 1
  else none

/-- A job pauses: it goes to the head of its seat's queue with its record held clear (R222, R270). -/
def pauseJob (s : State) (j : Job) (b : Nat) : State :=
  s.modJob j.id (fun k => { k with phase := .paused b, held := .clear s.mono, order := headOrder s, queuedAt := s.mono, region := 0 })

/-- A paused job is placed again (R223): on another bay its record is wrapped at once (R271), and with no slot free it stays (R273); a placement on the
bay it is on is one too (R213). In the queue of another bay it keeps the place at the head that its pause gave it (DESIGN CHOICE, log entry 119). -/
def movePaused (s : State) (id b : Nat) : State :=
  match s.liveJob id with
  | none => s
  | some j =>
    let new := if j.onAssoc then leastWait s j (List.range 64) else chooseBay s j
    match new with
    | none => s
    | some n =>
      if n = b then (if j.onAssoc then s else noteChoice s j b)
      else
        let s := spillJob s j b
        match (s.job? id).map (fun (k : Job) => k.held) with
        | some (Held.wrapping _) =>
          let s := if j.onAssoc then setHome { s with place := { s.place with cntRehome := wrapInc 32 s.place.cntRehome } } j.assocIdx n j.id else noteChoice s j n
          let s := s.modSeat j.seat (fun t => if (baySet s j.seat).contains n then t else { t with bays := baySet s j.seat ++ [n] })
          s.modJob id (fun k => { k with phase := .paused n })
        | _ => s

/-- What follows a boundary: a pause, or the charge of the next segment; where no job has waited long enough for a pause, a deficit below the charge becomes 0
(DESIGN CHOICE, log entry 118). -/
def afterSeg (s : State) (id : Nat) : State :=
  match s.liveJob id with
  | none => s
  | some j =>
    match j.phase with
    | .inBay b =>
      match pauseCause s j b with
      | none =>
        let s := if j.pausable then s.modWing (b / 8) (fun x => { x with deficit := tabSet 0 x.deficit j.seat (defOf x.deficit j.seat - jobCost (symOf s j) j) }) else s
        advance s id
      | some c =>
        let s := pauseJob s j b
        let s := if c = 1 then { s with place := { s.place with cntPreempt := wrapInc 32 s.place.cntPreempt } } else s
        if c = 3 || (c = 1 && !j.onAssoc && !attrGuarded j.attr) then movePaused s id b else s
    | _ => s

/-- The work of a segment that ends. -/
def segWork (s : State) (w : SymW) (j : Job) : State :=
  if j.isDig then digSeg s w j else keepSeg s w j (symStep w j).1 (symStep w j).2.1 (symStep w j).2.2

/-- SEGMENT_BOUNDARY: the segment in progress, which is not the last, ends (R267). -/
def segBoundary (s : State) (id : Nat) : State :=
  let before := (s.job? id).map (·.segs)
  let s := opJob s id [0x10, 0x11, 0x12, 0x13, 0x14, 0x15, 0x20, 0x21, 0x22, 0x23] false segWork
  if (s.job? id).map (·.segs) = before then s else afterSeg s id

def execSegmentBoundary (job : Nat) (s : State) : Out := ok (fin (segBoundary s job))

/-- HELD_RECORD_MARK: stage time is strictly later than the pause plus 10,000 ns (R271). -/
def heldMark (s : State) (id : Nat) : State :=
  match s.liveJob id with
  | some j =>
    match j.phase, j.held with
    | .paused b, .clear at_ => if s.up && !s.alarms.verifying && s.past (at_ + 10000 * nsUnit) then spillJob s j b else s
    | _, _ => s
  | none => s

def execHeldRecordMark (job : Nat) (s : State) : Out := ok (fin (heldMark s job))

end Sys2Proof.Machine
end

