-- ==== Sys2Proof/Machine/Lattice.lean ====
section
/-! DEFINITION. Lattice work: the transforms of POLY (R347, R348), ML-KEM (FIPS 203) and ML-DSA (FIPS 204). Sampling from an extendable
output reads a fixed number of bytes, ample for every rejection to be met (log entry 21). -/

namespace Sys2Proof.Machine

abbrev Poly := List Nat

abbrev qKem : Nat := 3329
abbrev qDsa : Nat := 8380417

-- Transforms ----------------------------------------------------------------------------------------------------------------

/-- Reverse the low `n` bits. -/
def bitRev : Nat → Nat → Nat
  | 0, _ => 0
  | n + 1, v => v % 2 * 2 ^ n + bitRev n (v / 2)

def zetasKem : Array Nat := ((List.range 128).map (fun k => modPow 17 (bitRev 7 k) qKem)).toArray
def zetasDsa : Array Nat := ((List.range 256).map (fun k => modPow 1753 (bitRev 8 k) qDsa)).toArray

def polyAdd (q : Nat) (a b : Poly) : Poly := List.zipWith (fun x y => (x + y) % q) a b
def polySub (q : Nat) (a b : Poly) : Poly := List.zipWith (fun x y => modSub x y q) a b
def polyScale (q k : Nat) (a : Poly) : Poly := a.map (fun x => k * x % q)

/-- One level of the transform splits the polynomial in two halves; `k` numbers the node, `f` levels are left. -/
def nttF (q : Nat) (z : Array Nat) : Nat → Nat → Poly → Poly
  | 0, _, a => a
  | f + 1, k, a =>
    let h := a.length / 2
    let lo := a.take h
    let t := polyScale q (z.getD k 0) (a.drop h)
    nttF q z f (2 * k) (polyAdd q lo t) ++ nttF q z f (2 * k + 1) (polySub q lo t)

/-- The inverse, without the final division. -/
def inttF (q : Nat) (z : Array Nat) : Nat → Nat → Poly → Poly
  | 0, _, a => a
  | f + 1, k, a =>
    let h := a.length / 2
    let lo := inttF q z f (2 * k) (a.take h)
    let hi := inttF q z f (2 * k + 1) (a.drop h)
    polyAdd q lo hi ++ polyScale q (modInv (z.getD k 0) q) (polySub q lo hi)

def nttKem (a : Poly) : Poly := nttF qKem zetasKem 7 1 a
def inttKem (a : Poly) : Poly := polyScale qKem 3303 (inttF qKem zetasKem 7 1 a)
def nttDsa (a : Poly) : Poly := nttF qDsa zetasDsa 8 1 a
def inttDsa (a : Poly) : Poly := polyScale qDsa 8347681 (inttF qDsa zetasDsa 8 1 a)

/-- Products of pairs in the ML-KEM transform domain. -/
def mulKemF : Nat → Poly → Poly → Poly
  | i, a0 :: a1 :: as, b0 :: b1 :: bs =>
    let g := modPow 17 (2 * bitRev 7 i + 1) qKem
    ((a0 * b0 + a1 * b1 % qKem * g) % qKem) :: ((a0 * b1 + a1 * b0) % qKem) :: mulKemF (i + 1) as bs
  | _, _, _ => []

def mulKem (a b : Poly) : Poly := mulKemF 0 a b
def mulDsa (a b : Poly) : Poly := List.zipWith (fun x y => x * y % qDsa) a b

def zeroPoly : Poly := List.replicate 256 0

/-- Inner product with a product of polynomials. -/
def dotWith (q : Nat) (mul : Poly → Poly → Poly) (a b : List Poly) : Poly :=
  (List.zipWith mul a b).foldl (polyAdd q) zeroPoly

/-- POLY (R345): ring 0x31 or 0x32, SUB. -/
def polyOp (param sub : Nat) (a b : Poly) : Poly :=
  let kem := param == 0x31
  let q := if kem then qKem else qDsa
  match sub with
  | 0 => if kem then nttKem a else nttDsa a
  | 1 => if kem then inttKem a else inttDsa a
  | 2 => if kem then mulKem a b else mulDsa a b
  | 3 => polyAdd q a b
  | _ => polySub q a b

-- Bit packing ---------------------------------------------------------------------------------------------------------------

/-- Pack numbers of `d` bits, little-endian. -/
def packBits (d : Nat) (l : List Nat) : Bytes := ((chunks8 l).map (fun c => leBytes d (join c))).flatten
where
  join (c : List Nat) : Nat := c.foldr (fun x a => x + a * 2 ^ d) 0
  chunks8 (l : List Nat) : List (List Nat) := (List.range (ceilDiv l.length 8)).map (fun i => (l.drop (8 * i)).take 8)

/-- Numbers of `d` bits. -/
def unpackBits (d : Nat) (b : Bytes) : List Nat :=
  ((chunks d b).map (fun c => let v := leNat c; (List.range 8).map (fun i => v / 2 ^ (d * i) % 2 ^ d))).flatten

-- ML-KEM (FIPS 203) ---------------------------------------------------------------------------------------------------------

/-- k, eta1, du, dv of a parameter set 0x11 to 0x13 (eta2 is 2). -/
structure KemSet where
  k : Nat
  eta1 : Nat
  du : Nat
  dv : Nat

def kemSet (param : Nat) : KemSet := if param = 0x11 then ⟨2, 3, 10, 4⟩ else if param = 0x12 then ⟨3, 2, 10, 4⟩ else ⟨4, 2, 11, 5⟩

/-- Candidates below q from 3-byte groups. -/
def kemReject : Bytes → List Nat
  | a :: b :: c :: t =>
    let d1 := a.toNat + 256 * (b.toNat % 16)
    let d2 := b.toNat / 16 + 16 * c.toNat
    (if d1 < qKem then [d1] else []) ++ (if d2 < qKem then [d2] else []) ++ kemReject t
  | _ => []

def sampleNtt (rho : Bytes) (j i : Nat) : Poly :=
  (kemReject (shake128 (rho ++ [BitVec.ofNat 8 j, BitVec.ofNat 8 i]) 1344) ++ zeroPoly).take 256

/-- Centred binomial polynomial. -/
def sampleCbd (eta : Nat) (b : Bytes) : Poly :=
  (unpackBits 8 b |> fun l => (l.map (fun v => (List.range 8).map (fun i => v / 2 ^ i % 2))).flatten) |> fun bs =>
    (List.range 256).map (fun i =>
      let w := (bs.drop (2 * eta * i)).take (2 * eta)
      let x := (w.take eta).foldl (· + ·) 0
      let y := (w.drop eta).foldl (· + ·) 0
      (x + qKem - y) % qKem)

def kemPrf (eta : Nat) (s : Bytes) (n : Nat) : Poly := sampleCbd eta (shake256 (s ++ [BitVec.ofNat 8 n]) (64 * eta))

def compress (d x : Nat) : Nat := (x * 2 ^ d + 1664) / qKem % 2 ^ d
def decompress (d y : Nat) : Nat := (y * qKem + 2 ^ (d - 1)) / 2 ^ d

/-- Matrix entry i, j of A-hat. -/
def kemA (rho : Bytes) (i j : Nat) : Poly := sampleNtt rho j i

/-- K-PKE key pair: (encapsulation key, decapsulation part). -/
def pkeKeygen (k : KemSet) (d : Bytes) : Bytes × Bytes :=
  let g := hash 8 (d ++ [BitVec.ofNat 8 k.k])
  let rho := g.take 32
  let sigma := g.drop 32
  let s := (List.range k.k).map (fun i => nttKem (kemPrf k.eta1 sigma i))
  let e := (List.range k.k).map (fun i => nttKem (kemPrf k.eta1 sigma (k.k + i)))
  let t := (List.range k.k).map (fun i =>
    polyAdd qKem (dotWith qKem mulKem ((List.range k.k).map (kemA rho i)) s) (e.getD i []))
  ((t.map (packBits 12)).flatten ++ rho, (s.map (packBits 12)).flatten)

def polysOf (d n : Nat) (b : Bytes) : List Poly := (List.range n).map (fun i => unpackBits d ((b.drop (32 * d * i)).take (32 * d)))

def pkeEncrypt (k : KemSet) (ek m r : Bytes) : Bytes :=
  let t := polysOf 12 k.k ek
  let rho := ek.drop (384 * k.k)
  let y := (List.range k.k).map (fun i => nttKem (kemPrf k.eta1 r i))
  let u := (List.range k.k).map (fun i =>
    polyAdd qKem (inttKem (dotWith qKem mulKem ((List.range k.k).map (fun j => kemA rho j i)) y)) (kemPrf 2 r (k.k + i)))
  let mu := (unpackBits 1 m).map (decompress 1)
  let v := polyAdd qKem (polyAdd qKem (inttKem (dotWith qKem mulKem t y)) (kemPrf 2 r (2 * k.k))) mu
  (u.map (fun p => packBits k.du (p.map (compress k.du)))).flatten ++ packBits k.dv (v.map (compress k.dv))

def pkeDecrypt (k : KemSet) (dk c : Bytes) : Bytes :=
  let u := (polysOf k.du k.k c).map (fun p => p.map (decompress k.du))
  let v := (unpackBits k.dv (c.drop (32 * k.du * k.k))).map (decompress k.dv)
  let s := polysOf 12 k.k dk
  let w := polySub qKem v (inttKem (dotWith qKem mulKem s (u.map nttKem)))
  packBits 1 (w.map (compress 1))

/-- ML-KEM key pair from d and z. -/
def kemKeygen (param : Nat) (d z : Bytes) : Bytes × Bytes :=
  let p := pkeKeygen (kemSet param) d
  (p.1, p.2 ++ p.1 ++ hash 6 p.1 ++ z)

/-- The modulus check of an encapsulation key. -/
def kemEkOk (param : Nat) (ek : Bytes) : Bool :=
  let k := kemSet param
  (polysOf 12 k.k ek).all (fun p => p.all (fun x => decide (x < qKem)))

/-- Shared secret and ciphertext for message m. -/
def kemEncaps (param : Nat) (ek m : Bytes) : Bytes × Bytes :=
  let g := hash 8 (m ++ hash 6 ek)
  (g.take 32, pkeEncrypt (kemSet param) ek m (g.drop 32))

/-- Decapsulation with implicit rejection (R358). -/
def kemDecaps (param : Nat) (dk c : Bytes) : Bytes :=
  let k := kemSet param
  let ek := (dk.drop (384 * k.k)).take (384 * k.k + 32)
  let h := (dk.drop (768 * k.k + 32)).take 32
  let z := dk.drop (768 * k.k + 64)
  let m := pkeDecrypt k (dk.take (384 * k.k)) c
  let g := hash 8 (m ++ h)
  if pkeEncrypt k ek m (g.drop 32) = c then g.take 32 else shake256 (z ++ c) 32

/-- The import check of a decapsulation key (R386): hash and modulus. -/
def kemDkOk (param : Nat) (dk : Bytes) : Bool :=
  let k := kemSet param
  let ek := (dk.drop (384 * k.k)).take (384 * k.k + 32)
  dk.length == 768 * k.k + 96 && (dk.drop (768 * k.k + 32)).take 32 == hash 6 ek && kemEkOk param ek

-- ML-DSA (FIPS 204) ---------------------------------------------------------------------------------------------------------

/-- Parameters of a set 0x21 to 0x23. -/
structure DsaSet where
  tau : Nat
  lambda : Nat
  gamma1 : Nat
  gamma2 : Nat
  k : Nat
  l : Nat
  eta : Nat
  omega : Nat

def dsaSet (param : Nat) : DsaSet :=
  if param = 0x21 then ⟨39, 128, 17, (qDsa - 1) / 88, 4, 4, 2, 80⟩
  else if param = 0x22 then ⟨49, 192, 19, (qDsa - 1) / 32, 6, 5, 4, 55⟩
  else ⟨60, 256, 19, (qDsa - 1) / 32, 8, 7, 2, 75⟩

/-- tau × eta. -/
def DsaSet.beta (p : DsaSet) : Nat := p.tau * p.eta

/-- Bits of a packed s coefficient, and of w1. -/
def DsaSet.sBits (p : DsaSet) : Nat := if p.eta = 2 then 3 else 4

def DsaSet.w1Bits (p : DsaSet) : Nat := if p.l = 4 then 6 else 4

/-- |x| of a residue in its centred form. -/
def centredAbs (x : Nat) : Nat := if x ≤ qDsa / 2 then x else qDsa - x

def normOk (bound : Nat) (p : Poly) : Bool := p.all (fun x => decide (centredAbs x < bound))

def dsaReject : Bytes → List Nat
  | a :: b :: c :: t =>
    let v := a.toNat + 256 * b.toNat + 65536 * (c.toNat % 128)
    (if v < qDsa then [v] else []) ++ dsaReject t
  | _ => []

def dsaA (rho : Bytes) (r s : Nat) : Poly :=
  (dsaReject (shake128 (rho ++ [BitVec.ofNat 8 s, BitVec.ofNat 8 r]) 1344) ++ zeroPoly).take 256

/-- Coefficients of bounded size from half-bytes. -/
def dsaHalf (eta v : Nat) : List Nat :=
  if eta = 2 then (if v < 15 then [(qDsa + 2 - v % 5) % qDsa] else []) else (if v < 9 then [(qDsa + 4 - v) % qDsa] else [])

def dsaBounded (eta : Nat) (rho : Bytes) (r : Nat) : Poly :=
  ((((shake256 (rho ++ leBytes 2 r) 680).map (fun b => dsaHalf eta (b.toNat % 16) ++ dsaHalf eta (b.toNat / 16))).flatten) ++ zeroPoly).take 256

def dsaMask (p : DsaSet) (rho : Bytes) (mu : Nat) : List Poly :=
  (List.range p.l).map (fun r =>
    let v := shake256 (rho ++ leBytes 2 (mu + r)) (32 * (p.gamma1 + 1))
    (unpackBits (p.gamma1 + 1) v).map (fun x => (2 ^ p.gamma1 + qDsa - x) % qDsa))

/-- Places and signs of SampleInBall: `i` runs up to 255. -/
def inBallF (signs : Nat) : Nat → Nat → Nat → Bytes → Poly → Poly
  | 0, _, _, _, c => c
  | f + 1, i, n, bs, c =>
    match bs with
    | [] => c
    | b :: t =>
      if 256 ≤ i then c
      else if i < b.toNat then inBallF signs f i n t c
      else inBallF signs f (i + 1) (n + 1) t ((c.set i (c.getD b.toNat 0)).set b.toNat (if signs.testBit n then qDsa - 1 else 1))

def dsaBall (p : DsaSet) (seed : Bytes) : Poly :=
  let s := shake256 seed 408
  inBallF (leNat (s.take 8)) 400 (256 - p.tau) 0 (s.drop 8) zeroPoly

def power2Round (r : Nat) : Nat × Nat :=
  let r0 := r % 8192
  if 4096 < r0 then ((r + 8192 - r0) / 8192, (qDsa + r0 - 8192) % qDsa) else ((r - r0) / 8192, r0)

/-- High and low parts; the low part as a residue. -/
def decompose (g2 r : Nat) : Nat × Nat :=
  let a := 2 * g2
  let r0 := r % a
  let hi := g2 < r0
  let rr := if hi then r + a - r0 else r - r0
  let lo := if hi then (qDsa + r0 - a) % qDsa else r0
  if rr = qDsa - 1 then (0, (lo + qDsa - 1) % qDsa) else (rr / a, lo)

def useHint (g2 : Nat) (h r : Nat) : Nat :=
  let m := (qDsa - 1) / (2 * g2)
  let d := decompose g2 r
  if h = 1 then (if d.2 ≤ qDsa / 2 ∧ d.2 ≠ 0 then (d.1 + 1) % m else (d.1 + m - 1) % m) else d.1

/-- Signed coefficients packed as b - x in d bits. -/
def packSigned (d b : Nat) (p : Poly) : Bytes := packBits d (p.map (fun x => (b + qDsa - x) % qDsa))
def unpackSigned (d b : Nat) (v : Bytes) : Poly := (unpackBits d v).map (fun x => (b + qDsa - x) % qDsa)

/-- Public key and private key from the 32-byte seed. -/
def dsaKeygen (param : Nat) (xi : Bytes) : Bytes × Bytes :=
  let p := dsaSet param
  let h := shake256 (xi ++ [BitVec.ofNat 8 p.k, BitVec.ofNat 8 p.l]) 128
  let rho := h.take 32
  let rho' := (h.drop 32).take 64
  let kk := h.drop 96
  let s1 := (List.range p.l).map (dsaBounded p.eta rho')
  let s2 := (List.range p.k).map (fun i => dsaBounded p.eta rho' (p.l + i))
  let s1h := s1.map nttDsa
  let t := (List.range p.k).map (fun i =>
    polyAdd qDsa (inttDsa (dotWith qDsa mulDsa ((List.range p.l).map (dsaA rho i)) s1h)) (s2.getD i []))
  let pk := rho ++ (t.map (fun x => packBits 10 (x.map (fun c => (power2Round c).1)))).flatten
  let sk := rho ++ kk ++ shake256 pk 64 ++ (s1.map (packSigned p.sBits p.eta)).flatten ++ (s2.map (packSigned p.sBits p.eta)).flatten
    ++ (t.map (fun x => packSigned 13 4096 (x.map (fun c => (power2Round c).2)))).flatten
  (pk, sk)

/-- Cut a private key: rho, K, s1, s2, t0. -/
structure DsaKey where
  rho : Bytes
  kk  : Bytes
  s1  : List Poly
  s2  : List Poly
  t0  : List Poly

def cutPolys (n len : Nat) (f : Bytes → Poly) (b : Bytes) : List Poly := (List.range n).map (fun i => f ((b.drop (len * i)).take len))

def dsaKeyOf (p : DsaSet) (sk : Bytes) : DsaKey :=
  let sl := 32 * p.sBits
  let b1 := sk.drop 128
  let b2 := b1.drop (sl * p.l)
  let b3 := b2.drop (sl * p.k)
  { rho := sk.take 32, kk := (sk.drop 32).take 32, s1 := cutPolys p.l sl (unpackSigned p.sBits p.eta) b1
    s2 := cutPolys p.k sl (unpackSigned p.sBits p.eta) b2, t0 := cutPolys p.k 416 (unpackSigned 13 4096) b3 }

/-- The import check of R386: every coefficient of s1 and s2 decodes within its bound. -/
def dsaSkOk (param : Nat) (sk : Bytes) : Bool :=
  let p := dsaSet param
  let k := dsaKeyOf p sk
  (k.s1 ++ k.s2).all (fun x => x.all (fun c => decide (centredAbs c ≤ p.eta)))

/-- Hint bytes: positions by polynomial, then running counts. -/
def packHint (omega : Nat) (h : List Poly) : Bytes :=
  let pos := h.map (fun p => (List.range 256).filter (fun i => p.getD i 0 = 1))
  let ps := pos.flatten
  let cnt := (List.range h.length).map (fun i => ((pos.take (i + 1)).map List.length).foldl (· + ·) 0)
  (ps.map (BitVec.ofNat 8 ·)) ++ zeros (omega - ps.length) ++ cnt.map (BitVec.ofNat 8 ·)

def strictRise : List Nat → Bool
  | a :: b :: t => decide (a < b) && strictRise (b :: t)
  | _ => true

/-- Hint polynomials, `none` where the bytes do not decode. -/
def unpackHint (omega k : Nat) (b : Bytes) : Option (List Poly) :=
  let cnt := (b.drop omega).map (·.toNat)
  let starts := 0 :: cnt
  let segs := (List.range k).map (fun i => ((b.take omega).drop (starts.getD i 0)).take (cnt.getD i 0 - starts.getD i 0) |>.map (·.toNat))
  let good := (List.range k).all (fun i => decide (starts.getD i 0 ≤ cnt.getD i 0) && decide (cnt.getD i 0 ≤ omega))
    && segs.all strictRise && ((b.take omega).drop (cnt.getD (k - 1) 0)).all (· = 0)
  if good then some (segs.map (fun s => (List.range 256).map (fun i => if s.contains i then 1 else 0))) else none

/-- One iteration of the rejection loop: the signature when it is accepted. `kappa` is the mask counter. -/
def dsaIter (p : DsaSet) (s1h s2h t0h : List Poly) (a : List (List Poly)) (rho'' mu : Bytes) (kappa : Nat) : Option Bytes :=
  let y := dsaMask p rho'' kappa
  let yh := y.map nttDsa
  let w := a.map (fun row => inttDsa (dotWith qDsa mulDsa row yh))
  let w1 := w.map (fun x => x.map (fun c => (decompose p.gamma2 c).1))
  let c' := shake256 (mu ++ (w1.map (packBits p.w1Bits)).flatten) (p.lambda / 4)
  let c := nttDsa (dsaBall p c')
  let z := List.zipWith (fun y s => polyAdd qDsa y (inttDsa (mulDsa c s))) y s1h
  let r := List.zipWith (fun w s => polySub qDsa w (inttDsa (mulDsa c s))) w s2h
  let r0ok := r.all (fun x => x.all (fun v => decide (centredAbs (decompose p.gamma2 v).2 < p.gamma2 - p.beta)))
  if z.all (normOk (2 ^ p.gamma1 - p.beta)) && r0ok then
    let ct0 := t0h.map (fun t => inttDsa (mulDsa c t))
    let h := List.zipWith (fun r t => List.zipWith (fun rv tv =>
      if (decompose p.gamma2 ((rv + tv) % qDsa)).1 ≠ (decompose p.gamma2 rv).1 then 1 else 0) r t) r ct0
    let ones := (h.map (fun x => x.foldl (· + ·) 0)).foldl (· + ·) 0
    if ct0.all (normOk p.gamma2) && decide (ones ≤ p.omega) then
      some (c' ++ (z.map (packSigned (p.gamma1 + 1) (2 ^ p.gamma1))).flatten ++ packHint p.omega h)
    else none
  else none

/-- The first accepted of `f` iterations from number `i`, with its number. -/
def dsaLoopF (it : Nat → Option Bytes) : Nat → Nat → Option (Nat × Bytes)
  | 0, _ => none
  | f + 1, i =>
    match it i with
    | some s => some (i, s)
    | none => dsaLoopF it f (i + 1)

/-- ML-DSA signature of mu with the hedge rnd, at most 128 iterations (16 blocks of 8, R355): iteration from 0, signature. -/
def dsaSign (param : Nat) (sk mu rnd : Bytes) : Option (Nat × Bytes) :=
  let p := dsaSet param
  let key := dsaKeyOf p sk
  let rho'' := shake256 (key.kk ++ rnd ++ mu) 64
  let a := (List.range p.k).map (fun i => (List.range p.l).map (dsaA key.rho i))
  dsaLoopF (fun i => dsaIter p (key.s1.map nttDsa) (key.s2.map nttDsa) (key.t0.map nttDsa) a rho'' mu (i * p.l)) 128 0

/-- Status and subcode of a verification (R357). -/
def dsaVerify (param : Nat) (pk mu sig : Bytes) : Nat × Nat :=
  let p := dsaSet param
  let cl := p.lambda / 4
  let zl := 32 * (p.gamma1 + 1)
  let c' := sig.take cl
  let z := cutPolys p.l zl (unpackSigned (p.gamma1 + 1) (2 ^ p.gamma1)) (sig.drop cl)
  match unpackHint p.omega p.k (sig.drop (cl + zl * p.l)) with
  | none => (stAuthFail, 0x11)
  | some h =>
    let rho := pk.take 32
    let t1 := cutPolys p.k 320 (unpackBits 10) (pk.drop 32)
    let c := nttDsa (dsaBall p c')
    let zh := z.map nttDsa
    let w := (List.range p.k).map (fun i =>
      let az := dotWith qDsa mulDsa ((List.range p.l).map (dsaA rho i)) zh
      inttDsa (polySub qDsa az (mulDsa c (nttDsa ((t1.getD i []).map (fun x => x * 8192 % qDsa))))))
    let w1 := List.zipWith (fun h w => List.zipWith (useHint p.gamma2) h w) h w
    if z.all (normOk (2 ^ p.gamma1 - p.beta)) && shake256 (mu ++ (w1.map (packBits p.w1Bits)).flatten) cl == c' then (0, 0) else (stAuthFail, 0x10)

end Sys2Proof.Machine
end

