-- ==== Sys2Proof/Machine/Rt.lean ====
section
/-! DEFINITION. Engine work: token counts and release times (R327 to R330, R352 to R355), operands and outputs of opcodes 0x30 to 0x4C (R324, R345,
R347, R348). -/

namespace Sys2Proof.Machine

-- Groups --------------------------------------------------------------------------------------------------------------------

def isArith (op : Nat) : Bool := decide (0x30 ≤ op) && decide (op ≤ 0x35)

def isCurve (op : Nat) : Bool := decide (0x40 ≤ op) && decide (op ≤ 0x4C)

/-- An ENGINE-class opcode (R204). -/
def isEngine (op : Nat) : Bool := isArith op || isCurve op

-- Tokens --------------------------------------------------------------------------------------------------------------------

/-- Tokens of one modular multiplication (R328). -/
def mulTokens (x : Nat) : Nat := 2 * x * ceilDiv x 4 + 16

/-- T of R328. -/
def arithT (op n e : Nat) : Nat :=
  match op with
  | 0x30 => 2 * ceilDiv n 4 + 16
  | 0x31 => 2 * ceilDiv n 4 + 16
  | 0x32 => 3 * mulTokens n
  | 0x33 => (144 * n + 16) * ceilDiv n 4 + 16
  | 0x34 => (80 * e + 18) * mulTokens n
  | _ => 2 * (80 * (n / 2 + 1) + 18) * mulTokens (n / 2) + 4 * mulTokens (n / 2) + mulTokens n

/-- N_WORDS and E_WORDS as R324 allows them. -/
def arithFits (op n e : Nat) (keyExp : Bool) : Bool :=
  decide (1 ≤ n) && decide (n ≤ 128) && (op != 0x35 || n % 2 == 0)
    && (if op = 0x34 then decide (1 ≤ e) && decide (e ≤ 128) else e == 0) && (!keyExp || op == 0x34)

/-- K of R352; K(b) of R355. -/
def curveTokens (op param sub : Nat) : Nat :=
  match op, param with
  | 0x40, 0x01 => 43200
  | 0x40, 0x02 => 103200
  | 0x40, 0x03 => 48000
  | 0x40, 0x04 => 33600
  | 0x41, 0x01 => 60000
  | 0x41, 0x02 => 144000
  | 0x42, 0x01 => 115200
  | 0x42, 0x02 => 276000
  | 0x43, 0x01 => 52800
  | 0x43, 0x02 => 127200
  | 0x43, 0x03 => 48000
  | 0x44, 0x04 => 39840
  | 0x45, 0x04 => 72000
  | 0x46, 0x11 => 9120
  | 0x46, 0x12 => 13920
  | 0x46, 0x13 => 20640
  | 0x47, 0x11 => 11040
  | 0x47, 0x12 => 16800
  | 0x47, 0x13 => 24480
  | 0x48, 0x11 => 13200
  | 0x48, 0x12 => 20160
  | 0x48, 0x13 => 28800
  | 0x49, 0x21 => 28800
  | 0x49, 0x22 => 45600
  | 0x49, 0x23 => 67200
  | 0x4A, 0x21 => 14400 + sub * 28800
  | 0x4A, 0x22 => 21600 + sub * 43200
  | 0x4A, 0x23 => 33600 + sub * 62400
  | 0x4B, 0x21 => 33600
  | 0x4B, 0x22 => 50400
  | 0x4B, 0x23 => 76800
  | 0x4C, 0x31 => if sub ≤ 1 then 1200 else if sub = 2 then 720 else 240
  | 0x4C, 0x32 => if sub ≤ 1 then 1680 else if sub = 2 then 480 else 240
  | _, _ => 0

/-- SUB or block count as R347 and R353 allow them. -/
def curveSubFits (op sub : Nat) : Bool :=
  if op = 0x4C then decide (sub ≤ 4) else if op = 0x4A then decide (1 ≤ sub) && decide (sub ≤ 16) else sub == 0

/-- The token count of a command, 0 for what is no valid job. -/
def tokens (op n e : Nat) : Nat :=
  if isArith op then (if arithFits op n e false then arithT op n e + 64 + n else 0)
  else if isCurve op && curveSubFits op e then curveTokens op n e else 0

/-- RT of a token count at a floor (R329), ns. -/
def releaseNs (k floor : Nat) : Nat := ceilDiv (k * 100) ((if floor = 0 then 104 else if floor = 1 then 240 else 264) * 10) * 10

-- Fields of a job -----------------------------------------------------------------------------------------------------------

def Job.nWords (j : Job) : Nat := j.fld 16 1
def Job.eWords (j : Job) : Nat := j.fld 17 1
def Job.param (j : Job) : Nat := j.fld 16 1
def Job.curveSub (j : Job) : Nat := j.fld 17 1
def Job.hashBytes (j : Job) : Nat := j.fld 18 2

/-- KEY_EXP or TO_KEY. -/
def Job.keyExp (j : Job) : Bool := j.opBit 15
def Job.toKey (j : Job) : Bool := j.opBit 15

/-- Release time of a job at a floor; `b` counts ML-DSA blocks. -/
def jobRt (j : Job) (floor b : Nat) : Nat :=
  releaseNs (tokens j.opcode (j.fld 16 1) (if j.opcode = 0x4A then b else j.fld 17 1)) floor

-- Lengths -------------------------------------------------------------------------------------------------------------------

/-- Public key or polynomial, signature or ciphertext, shared secret (R348). -/
def paramLens (p : Nat) : Nat × Nat × Nat :=
  match p with
  | 0x01 => (64, 64, 32)
  | 0x02 => (96, 96, 48)
  | 0x03 => (32, 0, 32)
  | 0x04 => (32, 64, 0)
  | 0x11 => (800, 768, 32)
  | 0x12 => (1184, 1088, 32)
  | 0x13 => (1568, 1568, 32)
  | 0x21 => (1312, 2420, 0)
  | 0x22 => (1952, 3309, 0)
  | 0x23 => (2592, 4627, 0)
  | 0x31 => (512, 0, 0)
  | 0x32 => (1024, 0, 0)
  | _ => (0, 0, 0)

/-- PARAM on an opcode (R345). -/
def paramOn (op p : Nat) : Bool :=
  match op with
  | 0x40 => decide (1 ≤ p) && decide (p ≤ 4)
  | 0x41 => p == 1 || p == 2
  | 0x42 => p == 1 || p == 2
  | 0x43 => decide (1 ≤ p) && decide (p ≤ 3)
  | 0x44 => p == 4
  | 0x45 => p == 4
  | 0x46 => decide (0x11 ≤ p) && decide (p ≤ 0x13)
  | 0x47 => decide (0x11 ≤ p) && decide (p ≤ 0x13)
  | 0x48 => decide (0x11 ≤ p) && decide (p ≤ 0x13)
  | 0x49 => decide (0x21 ≤ p) && decide (p ≤ 0x23)
  | 0x4A => decide (0x21 ≤ p) && decide (p ≤ 0x23)
  | 0x4B => decide (0x21 ≤ p) && decide (p ≤ 0x23)
  | _ => p == 0x31 || p == 0x32

/-- The key algorithm of a parameter code (R377). -/
def paramAlg (p : Nat) : Nat :=
  match p with
  | 0x01 => 0x30
  | 0x02 => 0x31
  | 0x03 => 0x32
  | 0x04 => 0x33
  | 0x11 => 0x40
  | 0x12 => 0x41
  | 0x13 => 0x42
  | 0x21 => 0x48
  | 0x22 => 0x49
  | _ => 0x4A

/-- Inputs of a job: body offset of the descriptor, and the length it must have (R324, R348). -/
def inputsOf (j : Job) : List (Nat × Nat) :=
  let n := 8 * j.nWords
  let l := paramLens j.param
  match j.opcode with
  | 0x30 => [(32, n), (48, n), (64, n)]
  | 0x31 => [(32, n), (48, n), (64, n)]
  | 0x32 => [(32, n), (48, n), (64, n)]
  | 0x33 => [(32, n), (64, n)]
  | 0x34 => if j.keyExp then [(32, n), (64, n)] else [(32, n), (48, 8 * j.eWords), (64, n)]
  | 0x35 => [(32, n)]
  | 0x41 => [(32, j.hashBytes)]
  | 0x42 => [(32, j.hashBytes), (48, l.1), (64, l.2.1)]
  | 0x43 => [(32, l.1)]
  | 0x44 => [(32, j.hashBytes)]
  | 0x45 => [(32, j.hashBytes), (48, l.1), (64, l.2.1)]
  | 0x47 => [(32, l.1)]
  | 0x48 => [(32, l.2.1)]
  | 0x4A => [(32, 64)]
  | 0x4B => [(32, 64), (48, l.1), (64, l.2.1)]
  | 0x4C => if 2 ≤ j.curveSub then [(32, l.1), (48, l.1)] else [(32, l.1)]
  | _ => []

/-- Outputs of a job in buffers. -/
def outputsOf (j : Job) : List (Nat × Nat) :=
  let l := paramLens j.param
  if isArith j.opcode then [(80, 8 * j.nWords)]
  else
    match j.opcode with
    | 0x40 => [(80, l.1)]
    | 0x41 => [(80, l.2.1)]
    | 0x43 => if j.toKey then [] else [(80, l.2.2)]
    | 0x44 => [(80, l.2.1)]
    | 0x46 => [(80, l.1)]
    | 0x47 => if j.toKey then [(80, l.2.1)] else [(80, l.2.1), (96, l.2.2)]
    | 0x48 => if j.toKey then [] else [(80, l.2.2)]
    | 0x49 => [(80, l.1)]
    | 0x4A => [(80, l.2.1)]
    | 0x4C => [(80, l.1)]
    | _ => []

/-- The job writes an entry at OUTREF: its algorithm and material length. -/
def entryOut (j : Job) : Option (Nat × Nat) :=
  match j.opcode with
  | 0x40 => some (paramAlg j.param, algLen (paramAlg j.param))
  | 0x46 => some (paramAlg j.param, algLen (paramAlg j.param))
  | 0x49 => some (paramAlg j.param, algLen (paramAlg j.param))
  | 0x43 => if j.toKey then some (0x10, (paramLens j.param).2.2) else none
  | 0x47 => if j.toKey then some (0x10, 32) else none
  | 0x48 => if j.toKey then some (0x10, 32) else none
  | _ => none

/-- The job names a key in KEYREF (body offset 20). -/
def usesKey (j : Job) : Bool :=
  match j.opcode with
  | 0x34 => j.keyExp
  | 0x35 => true
  | 0x41 => true
  | 0x43 => true
  | 0x44 => true
  | 0x48 => true
  | 0x4A => true
  | _ => false

/-- Algorithm and length of that key. -/
def keyWanted (j : Job) : Nat × Nat :=
  match j.opcode with
  | 0x34 => (0x21, 8 * j.eWords)
  | 0x35 => (0x20, 20 * j.nWords)
  | _ => (paramAlg j.param, algLen (paramAlg j.param))

/-- The job blinds or draws (R325, R345). -/
def draws (j : Job) : Bool :=
  if isArith j.opcode then j.opBit 14 || j.keyExp || j.opcode == 0x35
  else !(j.opcode == 0x42 || j.opcode == 0x45 || j.opcode == 0x4B || j.opcode == 0x4C)

/-- Bytes a job draws for its result (R346); the blinding values come after them. -/
def drawLen (j : Job) : Nat :=
  match j.opcode with
  | 0x40 => if j.param = 1 then 40 else if j.param = 2 then 56 else 32
  | 0x41 => if j.param = 1 then 40 else 56
  | 0x46 => 64
  | 0x47 => 32
  | 0x49 => 32
  | 0x4A => 32
  | _ => 0

-- Checks before the run -----------------------------------------------------------------------------------------------------

/-- Every descriptor of the body is the input or output it must be, or zero. -/
def descsFit (j : Job) (offs : List Nat) : Bool :=
  offs.all (fun o =>
    match (inputsOf j).find? (fun p => p.1 == o), (outputsOf j).find? (fun p => p.1 == o) with
    | some p, _ => j.avail o == p.2
    | none, some p => decide (p.2 ≤ j.avail o)
    | none, none => (j.desc o).zero)

/-- Check 1 of R340. -/
def arithBad (j : Job) : Bool :=
  let key := usesKey j
  !arithFits j.opcode j.nWords j.eWords j.keyExp || bits j.flags 13 8 != 0 || j.fld 18 2 != 0 || (!key && j.fld 20 4 != 0)
    || j.fld 24 8 != 0 || j.bytesAt 96 32 != zeros 32 || !descsFit j [32, 48, 64, 80]

/-- MSG_LEN of R347. -/
def msgLenFits (j : Job) : Bool :=
  let n := j.hashBytes
  if j.opcode = 0x41 ∨ j.opcode = 0x42 then decide (20 ≤ n) && decide (n ≤ 64)
  else if j.opcode = 0x44 ∨ j.opcode = 0x45 then (if j.opBit 14 then n == 64 else decide (n ≤ 1024))
  else n == 0

/-- Check 1 of R359. -/
def curveBad (j : Job) : Bool :=
  let op := j.opcode
  let out := (entryOut j).isSome
  !paramOn op j.param || !(if op = 0x4C then decide (j.curveSub ≤ 4) else j.curveSub == 0) || !msgLenFits j
    || (j.toKey && !(op == 0x43 || op == 0x47 || op == 0x48)) || (j.opBit 14 && !(op == 0x44 || op == 0x45)) || bits j.flags 12 8 != 0 || j.hdrReserved
    || (!usesKey j && j.fld 20 4 != 0) || (!out && (j.fld 24 4 != 0 || j.fld 28 4 != 0))
    || (out && bits (j.fld 28 4) 20 16 != 0) || j.bytesAt 112 16 != zeros 16 || !descsFit j [32, 48, 64, 80, 96]

end Sys2Proof.Machine
end

