-- ==== Sys2Proof/Machine/EngPlace.lean ====
section
/-! DEFINITION. The dispatcher's part of an engine job: checks 1 to 3 of R340 and 1 to 4 of R359, admission (R360 to R362), the choice between a
local engine and a ring member (R227 to R231), and the JOB message (R486). -/

namespace Sys2Proof.Machine

-- Operands ------------------------------------------------------------------------------------------------------------------

/-- Where a relayed-in job holds the operand that its origin read for the descriptor at `d`. -/
def relayedKey (d : Nat) : BufKey := { kind := .data, a := d, b := 0xFFFFFFFF }

def Job.relayedIn (j : Job) : Bool :=
  match j.src with
  | .relayed _ _ => true
  | _ => false

/-- Bytes of key material a job loads. -/
def loadLen (j : Job) : Nat := if usesKey j then (keyWanted j).2 else 0

/-- A part of an input: body offset of its descriptor, place and length in the buffer, and whether the input stage takes it (R354). -/
structure InPart where
  desc    : Nat
  off     : Nat
  len     : Nat
  inStage : Bool
  deriving DecidableEq, Repr

/-- Inputs cut where the stage is full: `room` bytes of it are free. -/
def stageCut : Nat → List (Nat × Nat) → List InPart
  | _, [] => []
  | room, (d, n) :: t =>
    let k := min room n
    (if 0 < k then [{ desc := d, off := 0, len := k, inStage := true }] else [])
      ++ (if k < n then [{ desc := d, off := k, len := n - k, inStage := false }] else []) ++ stageCut (room - k) t

/-- The inputs of a job: the first 4,096 bytes, key material before them, fill the input stage (R354). -/
def inputParts (j : Job) : List InPart := if j.relayedIn then [] else stageCut (4096 - loadLen j) (inputsOf j)

/-- The read of a part. -/
def Job.partRead (j : Job) (p : InPart) : Read := j.dataRead p.desc p.off p.len

/-- An input operand as bytes. -/
def Job.operand (j : Job) (d : Nat) : Bytes :=
  if j.relayedIn then (j.piece (relayedKey d) 0).getD []
  else (((inputParts j).filter (fun p => p.desc == d)).map (fun p => j.dataOf d p.off p.len)).flatten

/-- The reads of every input operand. -/
def inputReads (j : Job) : List Read := (inputParts j).map j.partRead

/-- The entry at OUTREF as the dispatcher reads it. -/
def outRefRead (s : State) (j : Job) : Read := keyRead s j (j.fld 24 4) 3

-- Checks --------------------------------------------------------------------------------------------------------------------

/-- OUTREF names an entry that a key may be written to (log entry 45); the check waits for a key-management job on the handle (R393). -/
def outRefCk (s : State) (j : Job) : Ck Unit :=
  match entryOut j with
  | none => .ok ()
  | some (alg, len) => do
    chk (decide ((s.seat j.seat).act.keyLen ≤ j.fld 24 4)) stKeyHandle 1
    chkWait s (!keyBusy s j (j.fld 24 4))
    let b ← needBytes j (outRefRead s j)
    chk ((entryOf b).state == 1) stKeyHandle 0x23
    chk (decide (176 < len) && ((entryOf b).blob == 0 || (entryOf b).blob % 64 != 0)) stKeyHandle 0x22
    chk (attrAlg (j.fld 28 4) != alg) stKeyHandle 0x31
    chk (!attrOk (j.fld 28 4)) stInternal 4

/-- Checks 1 and 2. -/
def engCheck (s : State) (j : Job) : Ck State := do
  needLists j (if isArith j.opcode then [32, 48, 64, 80] else [32, 48, 64, 80, 96]) true
  chk (if isArith j.opcode then arithBad j else curveBad j) stInternal 4
  let s ← if usesKey j then (do
      let k ← keyCk s j (j.fld 20 4) false (fun alg len => (alg, len) == keyWanted j)
      pure k.1)
    else pure s
  keepOn s j (outRefCk s j)
  pure s

-- Admission -----------------------------------------------------------------------------------------------------------------

def admitRate (t : Seat) : Nat := t.admitAct % 2 ^ 13

/-- DEPTH_US × 1,000. -/
def admitDepth (t : Seat) : Nat := bits t.admitAct 31 16 * 1000

/-- Waiting for credit: judged and not admitted. -/
def waitsCredit (seat : Nat) (j : Job) : Bool :=
  j.seat == seat && isCurve j.opcode && !j.relayedIn && j.phase == .held && j.outcome.isNone && !j.admitted && decide (0 < j.charge)

/-- An earlier job of the seat's group that has not been judged, and may be. -/
def unjudged (s : State) (j : Job) : Bool :=
  s.jobs.any (fun k => k.seat == j.seat && isCurve k.opcode && !k.relayedIn && decide (k.id < j.id) && !k.admitted && k.charge == 0 && (ripe s k.id).isSome)

/-- Credit is taken. -/
def takeCredit (s : State) (j : Job) (charge : Nat) : State :=
  (s.modSeat j.seat (fun t => { t with credit := t.credit - charge })).modJob j.id (fun k => { k with admitted := true, charge := charge })

/-- Check 3 of R359 (R361, R362): admitted, waiting, or refused; a job that waits is not shed by a change of DEPTH_US (R363). -/
def admitJob (s : State) (j : Job) : State :=
  let t := s.seat j.seat
  let charge := jobRt j s.engines.inForce 1
  let waiting := s.jobs.filter (fun k => k.id != j.id && waitsCredit j.seat k)
  if !isCurve j.opcode || j.relayedIn || j.admitted || admitRate t == 0 then s.modJob j.id (fun k => { k with admitted := true })
  else if admitDepth t < charge && !waitsCredit j.seat j then failJob s j.id stQuota 0x21
  else if unjudged s j then s
  else if j.opBit 13 then
    (if waiting.all (fun k => decide (j.id < k.id)) && decide ((charge : Int) ≤ t.credit) then takeCredit s j charge
     else s.modJob j.id (fun k => { k with charge := charge }))
  else if ((charge + (waiting.map (·.charge)).foldl (· + ·) 0 : Nat) : Int) ≤ t.credit then takeCredit s j charge
  else (failJob s j.id stQuota 0x20).modSeat j.seat (fun t => { t with shed := satInc 16 t.shed })

-- Engines -------------------------------------------------------------------------------------------------------------------

/-- Jobs queued for the engine of a wing. -/
def engQueue (s : State) (w : Nat) : List Job :=
  (s.jobs.filter (fun j => j.phase == .queuedEng w && j.outcome.isNone)).mergeSort (fun x y => decide (x.order ≤ y.order))

/-- Release time of a job as the scheduler reckons it. -/
def engCost (s : State) (j : Job) : Nat := jobRt j s.engines.inForce 1

/-- Wait of an engine in ns: the rest of its run, its staged job, its queue (R221). -/
def engWait (s : State) (w : Nat) : Nat :=
  let e := s.engine w
  let run := if e.running.isSome then (e.rs + e.rt * nsUnit - s.mono) / nsUnit else 0
  let staged := match e.staged.bind s.job? with
    | some j => engCost s j
    | none => 0
  run + staged + ((engQueue s w).map (engCost s)).foldl (· + ·) 0

/-- Engines in service. -/
def engines (s : State) : List Nat := (List.range 8).filter s.wingOk

/-- The engine with the least estimate (R229), its wait plus the release time, which is the same on all of them; ties to the lowest (log entry 46). -/
def bestEngine (s : State) : Option Nat := leastBy (engWait s) ((engines s).filter (fun w => (s.wing w).power != 3))

-- Relaying ------------------------------------------------------------------------------------------------------------------

/-- The command class of an advertisement (log entry 46). -/
def advClass (op : Nat) : Nat := op / 16

/-- Estimate for a member, and h(m). -/
def memberEst (s : State) (j : Job) (m : Nat) : Option (Nat × Nat) :=
  match routeTo s m with
  | none => none
  | some (h, _) =>
    let a := tabGet {} s.place.adverts m
    if a.accepts then some (h + tabGet 0 a.starts (advClass j.opcode) + jobRt j a.floor 1 + h, h) else none

/-- Payload bytes of the JOB message of a job (R486), its key material as pairSeal leaves it. -/
def jobPayload (j : Job) : Nat :=
  16 + j.body.length + ((inputsOf j).map (·.2)).foldl (· + ·) 0 + if usesKey j then (keyWanted j).2 + 27 else 0

/-- The job may be relayed (R227, R231), and its JOB message can be sent (R477). -/
def mayRelay (s : State) (j : Job) : Bool :=
  decide (jobPayload j ≤ 16288) &&
  !j.relayedIn && s.place.act.ctrl.testBit 0 && s.relay.formed && decide (1 < s.relay.map.length)
    && !(tabGet 0 s.place.deny (j.seat / 32)).testBit (j.seat % 32)

/-- The member a job is relayed to, when it beats the local estimate by the margin (R229). -/
def relayTo (s : State) (j : Job) (localNs : Option Nat) : Option Nat :=
  if !mayRelay s j then none
  else
    let best := (s.relay.map.filter (fun e => e.member != s.relay.member)).foldl (fun (b : Option (Nat × Nat × Nat)) e =>
      match memberEst s j e.member, b with
      | none, _ => b
      | some (t, h), none => some (t, h, e.member)
      | some (t, h), some (t', h', _) => if t < t' || (t == t' && decide (h < h')) then some (t, h, e.member) else b) none
    match best, localNs with
    | some (t, _, m), some l => if t + s.place.act.relay % 2 ^ 12 < l then some m else none
    | _, _ => none

/-- The lifetime check and the count of one use (R341, R379). -/
def engUse (s : State) (j : Job) : Ck State :=
  if !usesKey j || j.relayedIn || j.useCounted then .ok s
  else do
    let r ← bayAttr s j (j.fld 20 4)
    let s ← keepOn r.1 j (useCk r.1 j r.2)
    pure (s.modJob j.id (fun k => { k with useCounted := true }))

/-- The key operand, opened under its tag (R318, R374). -/
def engKey (s : State) (j : Job) : Ck Bytes :=
  if !usesKey j then .ok []
  else if j.relayedIn then .ok j.key
  else
    match loadKey s j (j.fld 20 4) 1 with
    | .need rs => .error (.need rs)
    | .busy => .error (.wait s)
    | .bad sub => .error (.fail stKeyHandle sub 0)
    | .good _ mat => .ok mat

/-- Reads that a chain of checks still needs are issued in the state it has come to. -/
def keepNeed {α : Type} (s : State) (j : Job) (x : Ck α) : Ck α :=
  match x with
  | .error (.need rs) => .error (.wait (issueReads s j rs))
  | y => y

/-- The operands and the key of a job to be relayed. -/
def relayLoad (s : State) (j : Job) : Ck Bytes := do
  needAll j (inputReads j)
  engKey s j

/-- Send a job to a member: its lifetime is checked and its use counted, then its operands and key are read (R340, R359), and JOB leaves (R230, R486). -/
def relayOut (s : State) (j : Job) (m : Nat) : Ck State := do
  let s ← engUse s j
  let mat ← keepOn s j (keepNeed s j (relayLoad s j))
  let k := if usesKey j then pairSeal s s.relay.member m mat else (s, [])
  let tag := k.1.relay.nextTag
  let s := { k.1 with relay := { k.1.relay with nextTag := (tag + 1) % 2 ^ 32 }
                      place := { k.1.place with cntRelayOut := wrapInc 32 k.1.place.cntRelayOut } }
  let s := s.modJob j.id (fun x => { x with phase := .away m tag, relayed := true, path := pathOf s m })
  pure (sendTo s m (.job { tag := tag, seat := j.seat, opcode := j.opcode, opflags := hOpf j.flags, body := j.body
                           operands := (inputsOf j).map (fun p => j.operand p.1), key := k.2
                           rngMs := bits (s.seat j.seat).act.opts 15 8 }))

-- Placing -------------------------------------------------------------------------------------------------------------------

/-- A drawing job waits for its instance (R410); a class B alarm and rehearsal are judged at load. -/
def waitsSeed (s : State) (j : Job) : Bool := draws j && !s.alarms.bActive && !s.entropy.rehearsal && !drawOk s j.instance_

/-- The unit of an admitted job (R206, R229, R231). -/
def engUnit (s : State) (j : Job) : Ck State :=
  if engines s = [] then .error (.fail stInternal 3 0)
  else
    let best := bestEngine s
    match relayTo s j (best.map (fun w => engWait s w + engCost s j)) with
    | some m => relayOut s j m
    | none =>
      if waitsSeed s j then .error (.wait (beginWait s j.id))
      else
        match best with
        | some w => .ok ((endWait s j.id).modJob j.id (fun k => { k with phase := .queuedEng w, order := tailOrder s, queuedAt := s.mono }))
        | none => .ok s

/-- Admission, and the unit of a job that passes it. -/
def engGo (s : State) (id : Nat) : State :=
  match ripe s id with
  | none => s
  | some j =>
    let s := admitJob s j
    match ripe s id with
    | some j => if j.admitted then runCk s j (engUnit s j) else s
    | none => s

/-- JOB_PLACEMENT of an engine job. A relayed-in job was checked and admitted at its origin. -/
def engPlace (s : State) (j : Job) : Ck State :=
  if j.relayedIn then .ok (engGo s j.id)
  else do
    let s ← engCheck s j
    pure (engGo s j.id)

end Sys2Proof.Machine
end

