-- ==== Sys2Proof/Machine/Lane.lean ====
section
/-! DEFINITION. The commands that end a job in a bay: symmetric work (R236 to R266), digests (R288 to R311), association jobs (R440 to R442), and
the context spill registers (R287). -/

namespace Sys2Proof.Machine

/-- A command that may have let waiting jobs go on. -/
def carry (s : State) : State := fin (advanceAll s)

-- Symmetric work ------------------------------------------------------------------------------------------------------------

/-- The job is a packet. -/
def isPkt (s : State) (id : Nat) : Bool := (s.liveJob id).any (fun j => j.pkt.isSome)

def execSealJob (job : Nat) (s : State) : Out := ok (carry (if isPkt s job then pktOp s job 0x10 else symOp s job 0x10))

def execOpenJob (job : Nat) (s : State) : Out := ok (carry (if isPkt s job then pktOp s job 0x11 else symOp s job 0x11))

def execMacGen (job : Nat) (s : State) : Out := ok (carry (symOp s job 0x12))

def execMacVerify (job : Nat) (s : State) : Out := ok (carry (symOp s job 0x13))

def execEncrypt (job : Nat) (s : State) : Out := ok (carry (symOp s job 0x14))

def execDecrypt (job : Nat) (s : State) : Out := ok (carry (symOp s job 0x15))

def execAssocQuery (job : Nat) (s : State) : Out := ok (carry (opJob s job [0x16] true (fun s _ j => queryEnd s j)))

-- Digests -------------------------------------------------------------------------------------------------------------------

def execDigest (job : Nat) (s : State) : Out := ok (carry (digOp s job 0x20 0))

/-- A compare may come out wrong (R304, R305; log entry 3). -/
def execDigestVerify (job : CmpEnd) (s : State) : Out := ok (carry (digOp s job.job 0x21 job.upset))

def execHmacGen (job : Nat) (s : State) : Out := ok (carry (digOp s job 0x22 0))

def execHmacVerify (job : CmpEnd) (s : State) : Out := ok (carry (digOp s job.job 0x23 job.upset))

def execCompare (job : CmpEnd) (s : State) : Out := ok (carry (opJob s job.job [0x24] true (compareEnd job.upset)))

def execHmacLoad (job : Nat) (s : State) : Out := ok (carry (opJob s job [0x25] true hmacLoadEnd))

def execHmacUnload (job : Nat) (s : State) : Out := ok (carry (opJob s job [0x26] true hmacUnloadEnd))

-- Associations --------------------------------------------------------------------------------------------------------------

def execAssocWrite (job : Nat) (s : State) : Out := ok (carry (assocJobOp s job 0x70))

def execAssocKill (job : Nat) (s : State) : Out := ok (carry (assocJobOp s job 0x71))

-- Context spill registers ---------------------------------------------------------------------------------------------------

def ctxReg (s : State) (off : Nat) : Nat :=
  let k := s.keys
  match off with
  | 0x50F00 => k.spillBase % 2 ^ 32
  | 0x50F04 => k.spillBase / 2 ^ 32
  | 0x50F08 => k.spillSlots
  | 0x50F0C => flag k.spillFull 31 + k.spillUsed.length
  | 0x50F10 => k.cntSpill
  | 0x50F14 => k.cntCtxInvalid
  | _ => 0

/-- The area is set only while no slot holds a record. -/
def ctxWrite (s : State) (off : Nat) (v : W32) : State :=
  let n := v.toNat
  let area := fun (f : KeyStore → KeyStore) => if s.keys.spillUsed = [] then s.modKeys f else refuse s off v
  match off with
  | 0x50F00 => area (fun k => { k with spillBase := k.spillBase / 2 ^ 32 * 2 ^ 32 + n / 4096 * 4096 })
  | 0x50F04 => area (fun k => { k with spillBase := n * 2 ^ 32 + k.spillBase % 2 ^ 32 })
  | 0x50F08 => if 2 ^ 24 < n % 2 ^ 25 then refuse s off v else area (fun k => { k with spillSlots := n % 2 ^ 25 })
  | 0x50F0C => s.modKeys (fun k => { k with spillFull := k.spillFull && !n.testBit 31 })
  | _ => s

end Sys2Proof.Machine
end

