-- ==== Sys2Proof/Machine/Engine.lean ====
section
/-! DEFINITION. An engine at work (chapters 10 and 11): load, run start, datapaths, release and its outcome (R320, R334, R356, R357), LATE
(R339), the understudy's faults (R337), the wipe (R321), and the engine registers (R343, R365). -/

namespace Sys2Proof.Machine

-- Load ----------------------------------------------------------------------------------------------------------------------

/-- Key of a seat, or of the relay queue, among an engine's deficits. -/
def engKeyOf (j : Job) : Nat := 2048 + if j.relayedIn then 1024 else j.seat

/-- Candidates of the engine's round (R221, R231). -/
def engCands (s : State) (w : Nat) : List Cand :=
  let q := engQueue s w
  (q.map engKeyOf).eraseDups.filterMap (fun k => (q.find? (fun j => engKeyOf j == k)).map (fun j =>
    { key := k, quantum := (if k = 3072 then bits s.place.act.relay 21 12 else weight s (k - 2048)) * 1000, cost := engCost s j }))

/-- Checks 4 and 5 of R340, 5 and 6 of R359, and the count of one use. -/
def engLoadCk (s : State) (j : Job) : Ck State := do
  let s ← if usesKey j && !j.relayedIn && !j.useCounted then (do
      let r ← bayAttr s j (j.fld 20 4)
      keepOn r.1 j (expiryCk r.1 r.2)
      pure r.1)
    else pure s
  keepOn s j (ckIf (draws j) (noDraws s))
  let s ← keepOn s j (engUse s j)
  pure (s.modJob j.id (fun k => { k with started := true }))

/-- Operand memory holds no earlier job: its wipe has been verified. -/
def Engine.free (e : Engine) : Bool := e.running.isNone && e.wiping.isNone

/-- The reads that may be issued now: what the input stage holds, and the remainder once operand memory is free (R354). -/
def stageReads (e : Engine) (j : Job) : List Read := ((inputParts j).filter (fun p => p.inStage || e.free)).map j.partRead

/-- A key that the stage cannot hold is read in two parts: what fills the stage, and the rest into operand memory once that is free (R354). -/
def keyParts (s : State) (e : Engine) (j : Job) (x : Ck Bytes) : Ck Bytes :=
  match x with
  | .error (.need [r]) =>
    if r.key.kind = .keyBlob ∧ 4096 < r.len then (do
      needAll j [r.head]
      chkWait s e.free
      .error (.need [r.rest]))
    else x
  | y => y

/-- The key of an engine job is loaded. -/
def keyIn (s : State) (e : Engine) (j : Job) : Ck State := do
  let mat ← keyParts s e j (engKey s j)
  chkWait s (decide (mat.length ≤ 4096) || e.free)
  pure (s.modJob j.id (fun k => { k with key := mat }))

/-- One step of a load: the checks, the draws (R346, R351), the key, the operands, the full stage. -/
def loadStep (s : State) (w : Nat) : State :=
  let e := s.engine w
  match e.staged.bind s.liveJob with
  | none => s
  | some j =>
    if s.alarms.verifying || e.loadFull then s
    else if !j.started then runCk s j (engLoadCk s j)
    else if draws j && !j.drawDone then
      if s.alarms.bActive then failJob s j.id stEntropyFailed 0
      else if s.entropy.rehearsal then failJob s j.id stRngRehearsal 0
      else
        match tryDraw s j.instance_ (drawLen j + Config.blindBytes j.opcode) with
        | some r => (endWait r.1 j.id).modJob j.id (fun k => { k with drawDone := true, drawn := r.2.take (drawLen j) })
        | none => beginWait s j.id
    else if usesKey j && j.key == [] then
      runCk s j (keyIn s e j)
    else if (inputReads j).all j.hasRead then s.modEngine w (fun e => { e with loadFull := true })
    else issueReads s j (stageReads e j)

def engAdvance (s : State) (w : Nat) : State := (List.range 5).foldl (fun s _ => loadStep s w) s

/-- Every engine's load goes on. -/
def engAdvanceAll (s : State) : State := (List.range 8).foldl engAdvance s

/-- Whatever waits in a bay or an input stage goes on. -/
def carryAll (s : State) : State := fin (engAdvanceAll (advanceAll s))

/-- What a job keeps of the dispatcher's reads: gather lists, and the entry at OUTREF. -/
def keptRead (g : BufKey × Nat × Bytes) : Bool := g.1.kind == .list || (g.1.kind == .key && g.1.b == 3)

/-- ENGINE_LOAD: the engine takes a job from its wing scheduler (R318, R221). -/
def engLoad (s : State) (w : Nat) : State :=
  if !s.serving || s.alarms.verifying || !s.wingOk w || (s.wing w).power != 2 || (s.engine w).staged.isSome || (s.engine w).stageWipe.isSome then s
  else
    let live := fun k => decide (k < 2048) || (engQueue s w).any (fun j => engKeyOf j == k)
    let s := s.modWing w (fun x => { x with deficit := dropIdle x.deficit live })
    match drrPick (s.wing w).deficit (tabGet 0 (s.wing w).turn 8) (engCands s w) with
    | none => s
    | some (k, d) =>
      match (engQueue s w).find? (fun j => engKeyOf j == k) with
      | none => s
      | some j =>
        let s := s.modWing w (fun x => { x with deficit := d, turn := tabSet 0 x.turn 8 k })
        let s := s.modJob j.id (fun x => { x with phase := .inEng w, blinded := draws j, got := if j.relayedIn then x.got else x.got.filter keptRead })
        engAdvance (s.modEngine w (fun e => { e with staged := some j.id, loadFull := false })) w

def execEngineLoad (wing : Nat) (s : State) : Out := ok (fin (engLoad s (wing % 8)))

-- Run -----------------------------------------------------------------------------------------------------------------------

/-- RUN_START: step 3 of R320; RT is fixed under the floor in force (R332). -/
def runStart (s : State) (w : Nat) : State :=
  let e := s.engine w
  match e.staged.bind s.liveJob with
  | none => s
  | some j =>
    if !e.loadFull || !e.free || s.alarms.verifying || !s.serving then s
    else
      let f := s.engines.inForce
      let rt := jobRt j f 1
      let s := s.modEngine w (fun e => { e with staged := none, loadFull := false, running := some j.id, rs := s.mono, rt := rt, floorRun := f
                                                ends := [], agrees := [], block := 1 })
      s.modJob j.id (fun k => { k with rtNs := rt, floor := f, blocks := if j.opcode = 0x4A then 1 else 0 })

def execRunStart (wing : Nat) (s : State) : Out := ok (carryAll (runStart s (wing % 8)))

/-- The live job in the run phase of an engine. -/
def runJob (s : State) (w : Nat) : Option Job := (s.engine w).running.bind s.liveJob

/-- What a run gives: status and subcode of the first matching row past the compare, outputs by descriptor, key entry, accepted block. -/
structure RunOut where
  status : Nat := 0
  sub    : Nat := 0
  outs   : List (Nat × Bytes) := []
  entry  : Bytes := []
  block  : Nat := 1
  deriving DecidableEq, Repr

/-- Step 4 begins: the datapaths compute the job's result. -/
def engOp (s : State) (id op : Nat) (f : Job → RunOut) : State :=
  match s.liveJob id with
  | none => s
  | some j =>
    match j.phase with
    | .inEng w =>
      if j.opcode != op || (s.engine w).running != some id || j.ran.isSome || s.alarms.verifying then s
      else
        let r := f j
        s.modJob id (fun k => { k with ran := some (r.status, r.sub), outs := r.outs, entry := r.entry, accepted := r.block })
    | _ => s

/-- DATAPATH_DONE: both datapaths have ended and are compared; once for each block of an ML-DSA signature (R336, R356). -/
def datapathDone (s : State) (w : Nat) (agree : Bool) : State :=
  match runJob s w with
  | some j =>
    if j.ran.isNone || s.alarms.verifying || (j.opcode != 0x4A && (s.engine w).ends != []) || decide (16 ≤ (s.engine w).ends.length) then s
    else s.modEngine w (fun e => { e with ends := e.ends ++ [s.mono], agrees := e.agrees ++ [agree] })
  | none => s

def execDatapathDone (wing : Nat) (agree : Bool) (s : State) : Out := ok (fin (datapathDone s (wing % 8) agree))

-- Release -------------------------------------------------------------------------------------------------------------------

/-- Seat address of the blob of the entry at OUTREF. -/
def outBlob (s : State) (j : Job) : Nat := (entryOf ((j.all (outRefRead s j)).getD [])).blob

/-- Output writes of a released job: its results, or zeros with the entry left not valid (R334, R349, R357). -/
def writeOuts (s : State) (j : Job) (good : Bool) (outs : List (Nat × Bytes)) (entry : Bytes) : State :=
  let s := (outputsOf j).foldl (fun s p =>
    writeBuf s j p.1 0 (if good then sliceZ (((outs.find? (fun o => o.1 == p.1)).map (·.2)).getD []) 0 p.2 else zeros p.2)) s
  match entryOut j with
  | none => s
  | some (_, len) =>
    let h := j.fld 24 4
    let at_ := entryAddr s j.seat h
    let blob := outBlob s j
    let s := dropAttr s j.seat h
    if good then
      let a := j.fld 28 4
      let r := sealEntry s j.seat (s.seat j.seat).gen h a (expiresAt s a) 0 0 blob entry
      let s := if r.2.2 = [] then r.1 else writeAt r.1 j j.seat blob r.2.2 2
      writeAt s j j.seat at_ r.2.1 2
    else
      let s := if 176 < len then writeAt s j j.seat blob (zeros len) 2 else s
      writeAt s j j.seat at_ (zeros 256) 2

/-- Row 3 or later: what a relayed-in job sends back, or a local job writes. -/
def giveOuts (s : State) (j : Job) (good : Bool) : State :=
  match j.src with
  | .relayed origin _ =>
    let r := if good && j.entry != [] then pairSeal s origin s.relay.member j.entry else (s, [])
    r.1.modJob j.id (fun k => { k with entry := r.2
                                       outs := if good then (outputsOf j).map (fun p => (p.1, ((j.outs.find? (fun o => o.1 == p.1)).map (·.2)).getD []))
                                               else (outputsOf j).map (fun p => (p.1, zeros p.2)) })
  | _ => (writeOuts s j good j.outs j.entry).modJob j.id (fun k => { k with outs := [], entry := [] })

/-- The outcome of a job stays though a class A alarm falls on its instant (R321, R338, R339). -/
def keepOutcome (s : State) (id : Nat) : State := s.modJob id (fun k => { k with outcome := k.outcome.map (fun o => { o with raised := true }) })

/-- The outcome of a job raises a class A alarm: it was fixed before the alarm and stays (R192, R338, R339). -/
def raisesA (s : State) (j : Job) (cause w : Nat) : State := alarmA (keepOutcome s j.id) cause w j.seat

/-- A mismatch is counted and logged; a burst raises the class A alarm (R337, R338). -/
def countFault (s : State) (w : Nat) (j : Job) : State :=
  let s := s.modEngine w (fun e => { e with cntFault := satInc 32 e.cntFault })
  let g := s.engines
  let log := if g.faultLog.testBit 31 then maskSet g.faultLog 30 true else 2 ^ 31 + j.opcode * 2 ^ 16 + w * 2 ^ 13 + j.seat
  let last := fun ms => s.mono :: g.faults.filter (fun t => decide (s.mono ≤ t + ms * 1000000 * nsUnit))
  let s := alarmC { s with engines := { g with faultLog := log, faults := last 1000 } } 0x49 w j.seat
  if g.faultCfg % 16 ≤ (last (bits g.faultCfg 25 16)).length then raisesA s j 0x09 w else s

/-- Further charge of an ML-DSA signature (R361). -/
def chargeBlocks (s : State) (j : Job) (floor b : Nat) : State :=
  if j.relayedIn || j.opcode != 0x4A || admitRate (s.seat j.seat) == 0 then s
  else s.modSeat j.seat (fun t => { t with credit := max (-(admitDepth t : Int)) (t.credit - ((jobRt j floor b : Int) - jobRt j floor 1)) })

/-- The run leaves the datapaths and the wipe begins; the next run waits for it (R320, R321). -/
def startWipe (s : State) (w : Nat) (j : Job) : State :=
  s.modEngine w (fun e => { e with running := none, wiping := some j.id, wipeSeat := j.seat, cntJobs := wrapInc 32 e.cntJobs, ends := [] })

/-- Fields of the record of a released job. -/
def releaseOutcome (s : State) (j : Job) (status sub : Nat) : Outcome :=
  { status := status, sub := sub, result := baseResult s j, opf := baseOpf j, fixedStamp := status == stTimeout
    inB := ((inputsOf j).map (·.2)).foldl (· + ·) 0
    outB := if status = stOk then ((outputsOf j).map (·.2)).foldl (· + ·) 0 else 0 }

/-- Release with a status: outputs for rows 3 and later, the wipe, the one outcome. -/
def release (s : State) (w : Nat) (j : Job) (status sub : Nat) : State :=
  let s := if status = stTimeout ∨ status = stLate then s.modJob j.id (fun k => { k with outs := [], entry := [] }) else giveOuts s j (status == stOk)
  fixOutcome (startWipe s w j) j.id (releaseOutcome s j status sub)

/-- Whether block `b` ended at or before its tick. -/
def endedBy (e : Engine) (b : Nat) (tick : Stamp) : Bool :=
  match e.ends[b - 1]? with
  | some t => decide (t ≤ tick)
  | none => false

/-- A deadline lies strictly before the tick (R334, R356). -/
def Job.expiredAt (j : Job) (tick : Stamp) : Bool :=
  match j.deadline with
  | some d => decide (d < tick)
  | none => false

/-- The release tick of block `b` ends the job by the first matching row (R334, R356, R357); `end_` is step 4. -/
def releaseAt (s : State) (w : Nat) (j : Job) (tick : Stamp) (b : Nat) : State :=
  let e := s.engine w
  let end_ := e.ends[b - 1]?
  let inTime := endedBy e b tick
  let fault := inTime && (e.agrees.take b).contains false
  let s := chargeBlocks s j e.floorRun b
  let s := match end_ with
    | some t => if t ≤ tick then s.modEngine w (fun x => { x with slackMin := min x.slackMin ((tick - t) / nsUnit) }) else s
    | none => s
  let expired := j.expiredAt tick
  let r := match j.ran with
    | some r => r
    | none => (0, 0)
  let out := if expired then (stTimeout, 2)
    else if !inTime then (stLate, 0)
    else if fault then (stFaultDetected, 0)
    else if j.opcode = 0x4A ∧ r.1 = stOk ∧ b < j.accepted then (stInternal, 5)
    else r
  let s := release s w j out.1 out.2
  let s := if fault then countFault s w j else s
  if !inTime then raisesA (s.modEngine w (fun x => { x with cntLate := satInc 32 x.cntLate })) j 0x0A w else s

/-- The tick decides a run: it has come, and what it decides no arrival at its own instant can change: LATE is fixed only when it is strictly past (R472). -/
def tickDecides (s : State) (w : Nat) (j : Job) (tick : Stamp) (b : Nat) : Bool :=
  s.past tick || (s.due tick && (endedBy (s.engine w) b tick || j.expiredAt tick))

/-- RELEASE_TICK of any job but an ML-DSA signature. -/
def releaseTick (s : State) (w : Nat) : State :=
  let e := s.engine w
  match runJob s w with
  | some j =>
    let tick := e.rs + e.rt * nsUnit
    if j.opcode = 0x4A ∨ !tickDecides s w j tick 1 ∨ s.alarms.verifying then s else releaseAt s w j tick 1
  | none => s

def execReleaseTick (wing : Nat) (s : State) : Out := ok (carryAll (releaseTick s (wing % 8)))

/-- MLDSA_BLOCK_TICK: the tick of the block in progress (R356). -/
def blockTick (s : State) (w : Nat) : State :=
  let e := s.engine w
  match runJob s w with
  | some j =>
    let b := e.block
    let rt := jobRt j e.floorRun b
    let tick := e.rs + rt * nsUnit
    if j.opcode ≠ 0x4A ∨ !tickDecides s w j tick b ∨ s.alarms.verifying then s
    else
      let s := s.modJob j.id (fun k => { k with rtNs := rt, blocks := b })
      let j := { j with rtNs := rt, blocks := b }
      let expired := j.expiredAt tick
      let ended := endedBy e b tick
      let accepted := match j.ran with
        | some (st, _) => st == stOk && decide (j.accepted ≤ b)
        | none => false
      if expired || !ended || accepted || b == 16 then releaseAt s w j tick b
      else s.modEngine w (fun e => { e with block := b + 1, rt := jobRt j e.floorRun (b + 1) })
  | none => s

def execMldsaBlockTick (wing : Nat) (s : State) : Out := ok (carryAll (blockTick s (wing % 8)))

/-- The wipe that ends first: of operand memory, then of the input stage (DESIGN CHOICE, log entry 128); the job wiped and its seat. -/
def Engine.wipeOf (e : Engine) : Option (Nat × Nat) :=
  match e.wiping, e.stageWipe with
  | some id, _ => some (id, e.wipeSeat)
  | none, some id => some (id, e.stageSeat)
  | none, none => none

/-- That wipe is over. -/
def Engine.wiped (e : Engine) : Engine := if e.wiping.isSome then { e with wiping := none } else { e with stageWipe := none }

/-- WIPE_DONE: step 7 of R320, of operand memory and of the input stage; a word that reads non-zero is WIPE_FAIL (R321). -/
def wipeDone (s : State) (w : Nat) (clean : Bool) : State :=
  match (s.engine w).wipeOf with
  | none => s
  | some (id, seat) =>
    let s := s.modEngine w Engine.wiped
    if clean then s else alarmA (keepOutcome s id) 0x0B w seat

def execWipeDone (wing : Nat) (clean : Bool) (s : State) : Out := ok (carryAll (wipeDone s (wing % 8) clean))

-- Registers -----------------------------------------------------------------------------------------------------------------

/-- A run whose release time was fixed under another floor (R333). -/
def floorPending (s : State) : Bool := (List.range 8).any (fun w => (s.engine w).running.isSome && (s.engine w).floorRun != s.engines.inForce)

/-- BNE_RT_RESULT (R344, R353). -/
def rtResult (q : Nat) : Nat :=
  let k := tokens (bits q 23 16) (q % 256) (bits q 15 8)
  if q / 2 ^ 30 = 3 ∨ k = 0 then 0xFFFFFFFF else releaseNs k (q / 2 ^ 30)

/-- BNE_ADMIT_STS. -/
def admitSts (t : Seat) : Nat := t.credit.toNat / 1000 * 2 ^ 16 + t.shed

def engSts (e : Engine) : Nat := flag e.running.isSome 31 + flag e.staged.isSome 30 + flag e.wipeOf.isSome 29 + if e.running.isSome then e.floorRun else 0

def engReg (s : State) (off : Nat) : Nat :=
  let g := s.engines
  if off < 0x68000 then
    let e := s.engine (off % 0x10000 / 0x1000)
    match off % 0x1000 with
    | 0x0 => engSts e
    | 0x4 => e.cntJobs
    | 0x8 => e.cntFault
    | 0xC => e.cntLate
    | 0x10 => e.slackMin
    | _ => 0
  else if 0x6B000 ≤ off then 0
  else if 0x69000 ≤ off then
    let t := s.seat ((off - 0x69000) / 8)
    if 0x6B000 ≤ off then 0 else if off % 8 = 0 then t.admitW else if off % 8 = 4 then admitSts t else 0
  else
    match off with
    | 0x68000 => g.inForce * 2 ^ 16 + flag (floorPending s) 8 + g.floor
    | 0x68004 => g.faultCfg
    | 0x68008 => g.faultLog
    | 0x6800C => g.rtQuery
    | 0x68010 => rtResult g.rtQuery
    | _ => 0

/-- Reading clears these (RC). -/
def engRead (s : State) (off : Nat) : State :=
  if off < 0x68000 then (if off % 0x1000 = 0x10 then s.modEngine (off % 0x10000 / 0x1000) (fun e => { e with slackMin := 0xFFFFFFFF }) else s)
  else if off = 0x68008 then { s with engines := { s.engines with faultLog := 0 } }
  else if 0x69000 ≤ off ∧ off < 0x6B000 ∧ off % 8 = 4 then s.modSeat ((off - 0x69000) / 8) (fun t => { t with shed := 0 })
  else s

def engWrite (s : State) (off : Nat) (v : W32) : State :=
  let n := v.toNat
  let g := s.engines
  if 0x69000 ≤ off ∧ off < 0x6B000 ∧ off % 8 = 0 then
    if n / 2 ^ 16 = 0 ∨ 8000 < n % 2 ^ 13 then refuse s off v
    else (latchEpoch s).modSeat ((off - 0x69000) / 8) (fun t => { t with admitW := n / 2 ^ 16 * 2 ^ 16 + n % 2 ^ 13 })
  else
    match off with
    | 0x68000 => if n % 4 = 3 then refuse s off v else { latchEpoch s with engines := { g with floor := n % 4 } }
    | 0x68004 =>
      if bits n 25 16 = 0 ∨ 1000 < bits n 25 16 ∨ n % 16 = 0 then refuse s off v
      else { s with engines := { g with faultCfg := bits n 25 16 * 2 ^ 16 + n % 16 } }
    | 0x6800C => { s with engines := { g with rtQuery := n / 2 ^ 30 * 2 ^ 30 + n % 2 ^ 24 } }
    | _ => s

/-- A read that clears: the value goes to the reader, then the clear (R11, R64). -/
def clearRead (s : State) (off idle : Nat) : State := hregRead s off idle (fun s => engRead (readBack s (engReg s off)) off)

def execFloorWrite (value : W32) (s : State) : Out := ok (mgrWrite s 0x68000 (engWrite · 0x68000 value))

def execRtQuery (value : W32) (s : State) : Out := ok (mgrWrite s 0x6800C (engWrite · 0x6800C value))

def execSlackRead (wing : Nat) (s : State) : Out := ok (clearRead s (0x60010 + wing % 8 * 0x1000) 0xFFFFFFFF)

def execFaultLogRead (s : State) : Out := ok (clearRead s 0x68008 0)

def execAdmitStsRead (seat : Nat) (s : State) : Out := ok (clearRead s (0x69004 + seat % 1024 * 8) 0)

end Sys2Proof.Machine
end

