-- ==== Sys2Proof/Machine/EngRun.lean ====
section
/-! DEFINITION. What the datapaths of an engine compute (R323, R334, R335, R345, R346, R357, R358): one function and one command for each
opcode from 0x30 to 0x4C. -/

namespace Sys2Proof.Machine

-- Modular arithmetic --------------------------------------------------------------------------------------------------------

/-- Result of an arithmetic job as n × 8 big-endian bytes. -/
def arithOut (j : Job) (v : Nat) : RunOut := { outs := [(80, beBytes (8 * j.nWords) v)] }

def runBad (status sub : Nat) : RunOut := { status := status, sub := sub }

/-- Rows 4 and 5 of R334, then `f` on A and M. -/
def arithRows (j : Job) (odd : Bool) (f : Nat → Nat → RunOut) : RunOut :=
  let a := beNat (j.operand 32)
  let m := beNat (j.operand 64)
  if m < 3 || (odd && m % 2 == 0) then runBad stOperandRange 3
  else if m ≤ a then runBad stOperandRange 1
  else f a m

/-- Row 6 as well, with B. -/
def arithTwo (j : Job) (odd : Bool) (f : Nat → Nat → Nat → Nat) : RunOut :=
  arithRows j odd (fun a m =>
    let b := beNat (j.operand 48)
    if m ≤ b then runBad stOperandRange 2 else arithOut j (f a b m))

def runModAdd (j : Job) : RunOut := arithTwo j false (fun a b m => (a + b) % m)

def runModSub (j : Job) : RunOut := arithTwo j false modSub

def runModMul (j : Job) : RunOut := arithTwo j true (fun a b m => a * b % m)

def runModInv (j : Job) : RunOut :=
  arithRows j true (fun a m =>
    if a = 0 then runBad stNotInvertible 1
    else if (egcd a m).1 ≠ 1 then runBad stNotInvertible 2
    else arithOut j (modInv a m))

def runModExp (j : Job) : RunOut :=
  arithRows j true (fun a m => arithOut j (modPow a (beNat (if j.keyExp then j.key else j.operand 48)) m))

/-- Part `i` of an RSA CRT key of n words. -/
def crtPart (j : Job) (i : Nat) : Nat :=
  let h := 4 * j.nWords
  beNat ((j.key.drop (h * i)).take h)

def runModExpCrt (j : Job) : RunOut :=
  let a := beNat (j.operand 32)
  if crtPart j 0 * crtPart j 1 ≤ a then runBad stOperandRange 1
  else arithOut j (modExpCrt a (crtPart j 0) (crtPart j 1) (crtPart j 2) (crtPart j 3) (crtPart j 4))

def execModAdd (job : Nat) (s : State) : Out := ok (fin (engOp s job 0x30 runModAdd))

def execModSub (job : Nat) (s : State) : Out := ok (fin (engOp s job 0x31 runModSub))

def execModMul (job : Nat) (s : State) : Out := ok (fin (engOp s job 0x32 runModMul))

def execModInv (job : Nat) (s : State) : Out := ok (fin (engOp s job 0x33 runModInv))

def execModExp (job : Nat) (s : State) : Out := ok (fin (engOp s job 0x34 runModExp))

def execModExpCrt (job : Nat) (s : State) : Out := ok (fin (engOp s job 0x35 runModExpCrt))

-- Curves --------------------------------------------------------------------------------------------------------------------

def curveOf (param : Nat) : Curve := if param = 1 then p256 else p384

/-- A status and subcode as a run. -/
def runVerdict (v : Nat × Nat) : RunOut := runBad v.1 v.2

def runEcKeygen (j : Job) : RunOut :=
  let c := curveOf j.param
  match j.param with
  | 0x03 => { outs := [(80, x25519 j.drawn x25519Base)], entry := j.drawn }
  | 0x04 => { outs := [(80, edPublic j.drawn)], entry := j.drawn }
  | _ => { outs := [(80, c.pub (c.scalar j.drawn))], entry := beBytes c.len (c.scalar j.drawn) }

def runEcdsaSign (j : Job) : RunOut :=
  let c := curveOf j.param
  let g := c.sign (beNat j.key) (c.scalar j.drawn) (j.operand 32)
  if g.1 = 0 ∨ g.2 = 0 then runBad stInternal 6 else { outs := [(80, beBytes c.len g.1 ++ beBytes c.len g.2)] }

def runEcdsaVerify (j : Job) : RunOut :=
  let c := curveOf j.param
  match c.decode (j.operand 48) with
  | .error v => runVerdict v
  | .ok q =>
    let g := j.operand 64
    let r := beNat (g.take c.len)
    let t := beNat (g.drop c.len)
    if r = 0 ∨ c.n ≤ r ∨ t = 0 ∨ c.n ≤ t then runBad stAuthFail 0x11
    else if c.verify q (j.operand 32) r t then {} else runBad stAuthFail 0x10

/-- A shared secret: to OUT1, or to the entry at OUTREF. -/
def sharedOut (j : Job) (d : Nat) (rest : List (Nat × Bytes)) (secret : Bytes) : RunOut :=
  if j.toKey then { outs := rest, entry := secret } else { outs := rest ++ [(d, secret)] }

def runEcdh (j : Job) : RunOut :=
  if j.param = 3 then
    let z := x25519 j.key (j.operand 32)
    if z = zeros 32 then runBad stPointInvalid 3 else sharedOut j 80 [] z
  else
    let c := curveOf j.param
    match c.decode (j.operand 32) with
    | .error v => runVerdict v
    | .ok q => sharedOut j 80 [] ((c.enc (jMul c.p (beNat j.key) q)).take c.len)

def runEdSign (j : Job) : RunOut := { outs := [(80, edSign (j.opBit 14) j.key (j.operand 32))] }

def runEdVerify (j : Job) : RunOut := runVerdict (edVerify (j.opBit 14) (j.operand 48) (j.operand 32) (j.operand 64))

def execEcKeygen (job : Nat) (s : State) : Out := ok (fin (engOp s job 0x40 runEcKeygen))

def execEcdsaSign (job : Nat) (s : State) : Out := ok (fin (engOp s job 0x41 runEcdsaSign))

def execEcdsaVerify (job : Nat) (s : State) : Out := ok (fin (engOp s job 0x42 runEcdsaVerify))

def execEcdh (job : Nat) (s : State) : Out := ok (fin (engOp s job 0x43 runEcdh))

def execEd25519Sign (job : Nat) (s : State) : Out := ok (fin (engOp s job 0x44 runEdSign))

def execEd25519Verify (job : Nat) (s : State) : Out := ok (fin (engOp s job 0x45 runEdVerify))

-- Lattices ------------------------------------------------------------------------------------------------------------------

def runKemKeygen (j : Job) : RunOut :=
  let r := kemKeygen j.param (sliceZ j.drawn 0 32) (sliceZ j.drawn 32 32)
  { outs := [(80, r.1)], entry := r.2 }

def runKemEncaps (j : Job) : RunOut :=
  if !kemEkOk j.param (j.operand 32) then runBad stOperandRange 1
  else
    let r := kemEncaps j.param (j.operand 32) (sliceZ j.drawn 0 32)
    sharedOut j 96 [(80, r.2)] r.1

def runKemDecaps (j : Job) : RunOut := sharedOut j 80 [] (kemDecaps j.param j.key (j.operand 32))

def runDsaKeygen (j : Job) : RunOut :=
  let r := dsaKeygen j.param (sliceZ j.drawn 0 32)
  { outs := [(80, r.1)], entry := r.2 }

/-- The first accepted iteration lies in block i ÷ 8, counting from 1 (R355). -/
def runDsaSign (j : Job) : RunOut :=
  match dsaSign j.param j.key (j.operand 32) (sliceZ j.drawn 0 32) with
  | some (i, sig) => { outs := [(80, sig)], block := i / 8 + 1 }
  | none => { status := stInternal, sub := 5, block := 17 }

def runDsaVerify (j : Job) : RunOut := runVerdict (dsaVerify j.param (j.operand 48) (j.operand 32) (j.operand 64))

/-- Coefficients of a polynomial, 2 or 4 bytes each. -/
def coeffs (w : Nat) (b : Bytes) : List Nat := (chunks w b).map leNat

def runPoly (j : Job) : RunOut :=
  let w := if j.param = 0x31 then 2 else 4
  let q := if j.param = 0x31 then qKem else qDsa
  let a := coeffs w (j.operand 32)
  let b := if 2 ≤ j.curveSub then coeffs w (j.operand 48) else []
  if (a ++ b).any (fun x => decide (q ≤ x)) then runBad stOperandRange 1
  else { outs := [(80, ((polyOp j.param j.curveSub a b).map (leBytes w)).flatten)] }

def execMlkemKeygen (job : Nat) (s : State) : Out := ok (fin (engOp s job 0x46 runKemKeygen))

def execMlkemEncaps (job : Nat) (s : State) : Out := ok (fin (engOp s job 0x47 runKemEncaps))

def execMlkemDecaps (job : Nat) (s : State) : Out := ok (fin (engOp s job 0x48 runKemDecaps))

def execMldsaKeygen (job : Nat) (s : State) : Out := ok (fin (engOp s job 0x49 runDsaKeygen))

def execMldsaSign (job : Nat) (s : State) : Out := ok (fin (engOp s job 0x4A runDsaSign))

def execMldsaVerify (job : Nat) (s : State) : Out := ok (fin (engOp s job 0x4B runDsaVerify))

def execPoly (job : Nat) (s : State) : Out := ok (fin (engOp s job 0x4C runPoly))

end Sys2Proof.Machine
end

