-- ==== Sys2Proof/Machine/Rings.lean ====
section
/-! DEFINITION. The ring commands, the control opcodes and job deadlines (chapter 5). -/

namespace Sys2Proof.Machine

-- Register commands ---------------------------------------------------------------------------------------------------------

/-- An access to a ring slot of a seat page. -/
def ringAccess (s : State) (src seat slot reg : Nat) (f : State → State) : State := hreg s src (ringOff seat slot reg) true f

def execDoorbell (src seat slot : Nat) (value : W32) (s : State) : Out :=
  ok (fin (ringAccess s src (seat % 1024) (slot % 16) 0x00 (fun s => ringDoorbell s (seat % 1024) (slot % 16) value)))

def execCqHeadWrite (src seat slot : Nat) (value : W32) (s : State) : Out :=
  ok (fin (ringAccess s src (seat % 1024) (slot % 16) 0x08 (fun s => ringHead s (seat % 1024) (slot % 16) value)))

def execRingEnable (src seat slot : Nat) (resume : Bool) (s : State) : Out :=
  ok (fin (ringAccess s src (seat % 1024) (slot % 16) 0x10 (fun s => ringCtrl s src (seat % 1024) (slot % 16) true resume)))

def execRingDisable (src seat slot : Nat) (resume : Bool) (s : State) : Out :=
  ok (fin (ringAccess s src (seat % 1024) (slot % 16) 0x10 (fun s => ringCtrl s src (seat % 1024) (slot % 16) false resume)))

/-- A write of RESUME = 1 with ENABLE at its current value. -/
def execResume (src seat slot : Nat) (s : State) : Out :=
  ok (fin (ringAccess s src (seat % 1024) (slot % 16) 0x10 (fun s => ringResume s (seat % 1024) (slot % 16))))

/-- `reg` is the offset in the slot: 0x20, 0x24 BASE; 0x28, 0x2C CQ_BASE; 0x30 CFG. -/
def execRingSettingWrite (src seat slot reg : Nat) (value : W32) (s : State) : Out :=
  ok (fin (ringAccess s src (seat % 1024) (slot % 16) (reg % 128) (fun s => ringSetting s src (seat % 1024) (slot % 16) (reg % 128) value)))

-- Fetching and prompts ------------------------------------------------------------------------------------------------------

def execJobFetch (seat : Nat) (s : State) : Out := ok (fin (startFetch s (seat % 1024)))

/-- Every 100 ns of stage time each ring is evaluated (R195). -/
def evalAll (s : State) : State :=
  let s := { s with time := { s.time with promptDue := s.time.promptDue + 100 * nsUnit } }
  (s.rings.map (·.1)).foldl (fun s k => evalRing s (k / 16) (k % 16)) s

def execPromptEvaluation (s : State) : Out := ok (fin (whenDo (s.serving && s.due s.time.promptDue) s evalAll))

-- Control opcodes -----------------------------------------------------------------------------------------------------------

/-- A live job with one opcode at the ring manager, ready and in time: the event `f`. -/
def control (s : State) (id : Nat) (op : Nat) (f : State → Job → State) : State :=
  match ripe s id with
  | some j => if s.serving && j.opcode == op then inTime s j 1 (fun s => f s j) else s
  | none => s

def execNop (job : Nat) (s : State) : Out := ok (fin (control s job 0x00 (fun s j => okJob s j.id 0)))

/-- FENCE (R183, R184): OK once every job it waits for has completed; a bad SCOPE at once. -/
def fenceGo (s : State) (j : Job) : State :=
  if 1 < j.fld 16 1 then failJob s j.id stInternal 4
  else if j.waits.any (fun w => s.jobs.any (fun k => k.id == w)) then s
  else okJob s j.id j.fenceN

/-- A FENCE is judged while it is held: WAIT_PREV and earlier fences are among the jobs it waits for, but for a bad SCOPE, which waits for none. -/
def execFence (job : Nat) (s : State) : Out :=
  ok (fin (match s.liveJob job with
    | some j =>
      if s.serving && j.opcode == 0x01 && j.phase == .held && (decide (1 < j.fld 16 1) || !heldBack s j) then fenceGo s j else s
    | none => s))

/-- STAMP (R183): the stage time of acceptance, and secure time in seconds. -/
def execStamp (job : Nat) (s : State) : Out :=
  ok (fin (control s job 0x02 (fun s j =>
    (okJob s j.id s.secs).modJob j.id (fun k => { k with outcome := k.outcome.map (fun o => { o with stamp := j.acceptAt / nsUnit }) }))))

/-- Opcodes no group assigns (R180, R236, R288, R323, R346, R383, R413, R440). -/
def unassigned (op : Nat) : Bool :=
  (decide (0x03 ≤ op) && decide (op ≤ 0x0F)) || (decide (0x17 ≤ op) && decide (op ≤ 0x1F)) || (decide (0x27 ≤ op) && decide (op ≤ 0x2F))
    || (decide (0x36 ≤ op) && decide (op ≤ 0x3F)) || (decide (0x4D ≤ op) && decide (op ≤ 0x4F)) || (decide (0x53 ≤ op) && decide (op ≤ 0x5F))
    || (decide (0x69 ≤ op) && decide (op ≤ 0x6F)) || decide (0x72 ≤ op)

/-- Opcodes that safe stage serves (R117). -/
def safeOpcode (op : Nat) : Bool := decide (op ≤ 0x0F) || (decide (0x50 ≤ op) && decide (op ≤ 0x6F))

/-- An unassigned opcode: INTERNAL 0x02; in safe stage one outside the groups it serves 0x01 (R117). -/
def execUnassignedOpcode (job : Nat) (s : State) : Out :=
  ok (fin (match ripe s job with
    | some j =>
      if s.serving && unassigned j.opcode then
        inTime s j 1 (fun s => failJob s j.id stInternal (if s.start.state = 4 ∧ !safeOpcode j.opcode then 1 else 2))
      else s
    | none => s))

-- Deadlines -----------------------------------------------------------------------------------------------------------------


/-- The deadline of a job passes (R197, R198, R487): TIMEOUT; a relayed job is cancelled at its member. -/
def deadlinePass (s : State) (id : Nat) : State :=
  match s.liveJob id with
  | none => s
  | some j =>
    if seedLate s j then stop s id stRngNotReady 0
    else if !j.late s || j.committed || isFence j || s.alarms.verifying then s
    else
      match timeoutSub s j with
      | none => s
      | some sub =>
        let s := stop s id stTimeout sub
        match j.phase with
        | .away m tag => sendTo s m (.cancel [tag])
        | _ => s

def execJobDeadline (job : Nat) (s : State) : Out := ok (fin (whenDo s.up s (deadlinePass · job)))

-- Seat page registers -------------------------------------------------------------------------------------------------------

/-- Reads of a seat page (R202). -/
def pageReg (s : State) (seat off : Nat) : Nat :=
  let t := s.seat seat
  if off = 0x800 then t.gen * 2 ^ 16 + t.state * 2 ^ 12 + seat
  else if off = 0x804 then maskOf 16 (fun i => (s.ring seat i).cqTail != (s.ring seat i).cqHead)
  else if off < 0x800 then
    let slot := off / 0x80
    let r := s.ring seat slot
    match off % 0x80 with
    | 0x04 => r.fetchIdx
    | 0x08 => r.cqHead
    | 0x0C => r.cqTail
    | 0x10 => flag r.set.enable 0
    | 0x14 => r.lost * 2 ^ 16 + flag r.cplFault 5 + flag r.fetchFault 4 + flag r.dbErr 3 + flag r.armed 2
        + (if !r.act.enable then 0 else if r.active then 1 else 2)
    | 0x18 => r.coal
    | 0x1C => r.tmo
    | 0x20 => r.set.base % 2 ^ 32
    | 0x24 => r.set.base / 2 ^ 32
    | 0x28 => r.set.cqBase % 2 ^ 32
    | 0x2C => r.set.cqBase / 2 ^ 32
    | 0x30 => r.set.cfg
    | 0x34 => ringInflight s seat slot
    | _ => 0
  else 0

/-- Writes to a seat page. -/
def pageWrite (s : State) (src seat off : Nat) (v : W32) : State :=
  let slot := off / 0x80
  let n := v.toNat
  if off < 0x800 then
    match off % 0x80 with
    | 0x00 => ringDoorbell s seat slot v
    | 0x08 => ringHead s seat slot v
    | 0x10 => ringCtrl s src seat slot (n.testBit 0) (n.testBit 1)
    | 0x14 => s.modRing seat slot (fun r => { r with dbErr := r.dbErr && !n.testBit 3 })
    | 0x18 => s.modRing seat slot (fun r => { r with coal := n })
    | 0x1C => s.modRing seat slot (fun r => { r with tmo := n % 2 ^ 24 })
    | 0x20 => ringSetting s src seat slot 0x20 v
    | 0x24 => ringSetting s src seat slot 0x24 v
    | 0x28 => ringSetting s src seat slot 0x28 v
    | 0x2C => ringSetting s src seat slot 0x2C v
    | 0x30 => ringSetting s src seat slot 0x30 v
    | _ => s
  else s

end Sys2Proof.Machine
end

