-- ==== Sys2Proof/Machine/KeyJob.lean ====
section
/-! DEFINITION. Key-management jobs (R383 to R394): checks at the dispatcher, the choice of a seat by the key store, checks at the start, and
what each opcode from 0x60 to 0x68 does; KEY_BWK_CTRL and the key store registers (R369, R397). -/

namespace Sys2Proof.Machine

-- Fields --------------------------------------------------------------------------------------------------------------------

def Job.keyref (j : Job) : Nat := j.fld 16 4
def Job.subject (j : Job) : Nat := j.fld 20 4
def Job.newAttr (j : Job) : Nat := j.fld 24 4
def Job.kHash (j : Job) : Nat := j.fld 28 1
def Job.useLimit (j : Job) : Nat := j.fld 32 8

/-- The opcode names a KEYREF. -/
def hasKeyref (op : Nat) : Bool := op == 0x60 || op == 0x61 || op == 0x63

/-- The opcode writes its SUBJECT anew. -/
def writesSubject (op : Nat) : Bool := op == 0x60 || op == 0x62 || op == 0x63 || op == 0x68

/-- KEYATTR and USE_LIMIT are in use. -/
def hasNewAttr (op : Nat) : Bool := op == 0x60 || op == 0x62 || op == 0x63 || op == 0x66

-- Lengths -------------------------------------------------------------------------------------------------------------------

/-- An HMAC algorithm of R377. -/
def isHmacAlg (alg : Nat) : Bool := decide (0x08 ≤ alg) && decide (alg ≤ 0x0B)

/-- Length of AES-KWP's output for `n` bytes. -/
def kwpLen (n : Nat) : Nat := (n + 7) / 8 * 8 + 8

/-- Material length of a generated or derived key (R388). -/
def madeLen (alg : Nat) : Nat := if isHmacAlg alg || alg == 0x10 then 32 else algLen alg

/-- A wrapped length that some material of the algorithm has; an HMAC key may be of any length (R386). -/
def wrappedFits (alg n : Nat) : Bool :=
  decide (16 ≤ n) && n % 8 == 0 &&
    (isHmacAlg alg || (if alg = 0x10 then decide (n ≤ 72) && decide (24 ≤ n) else if alg = 0x20 ∨ alg = 0x21 then matLenOk alg (n - 8) else n == kwpLen (algLen alg)))

/-- KEYATTR of an entry the job writes (R376, R377, R388). -/
def newAttrFits (j : Job) : Bool :=
  let a := j.newAttr
  let alg := attrAlg a
  match j.opcode with
  | 0x60 => attrOk a
  | 0x62 => attrOk a && (decide (alg ≤ 0x0B) || alg == 0x10)
  | 0x63 => attrOk a && decide (0 < madeLen alg) && !(attrWrap a && attrGuarded a)
  | 0x66 => attrOk a
  | _ => a == 0

/-- Buffers of the opcode: what is not in use is zero. -/
def keyBufsFit (j : Job) : Bool :=
  let op := j.opcode
  let a := j.avail 48
  (if op = 0x60 then wrappedFits (attrAlg j.newAttr) a
   else if op = 0x63 then decide (a ≤ 128)
   else if op = 0x68 then a % 8 == 0 && decide (48 ≤ a) && decide (a ≤ 40 + maxMat)
   else (j.desc 48).zero)
    && (if op = 0x63 then decide (j.avail 64 ≤ 256) else (j.desc 64).zero)
    && (op == 0x61 || op == 0x67 || (j.desc 80).zero)

/-- Check 1 of R391, but for what R389 asks of the present attributes. -/
def keyJobBad (j : Job) : Bool :=
  let op := j.opcode
  (!hasKeyref op && j.keyref != 0) || !newAttrFits j || (!hasNewAttr op && j.useLimit != 0)
    || (if op = 0x63 then !(j.kHash == 2 || j.kHash == 3) else j.kHash != 0)
    || j.fld 29 3 != 0 || j.fld 40 8 != 0 || j.bytesAt 96 32 != zeros 32 || hOpf j.flags != 0 || j.hdrReserved || !keyBufsFit j

/-- A change that KEY_RESTRICT accepts (R389). -/
def narrows (j : Job) (a : Attr) : Bool :=
  let n := j.newAttr
  attrAlg n == attrAlg a.attr && attrGuarded n == attrGuarded a.attr && (!attrExportable n || attrExportable a.attr) && (!attrWrap n || attrWrap a.attr)
    && (j.useLimit == 0 || a.limit == 0 || decide (j.useLimit ≤ a.limit))

/-- Material bytes that a written entry will hold, as the dispatcher can tell (log entry 48). -/
def subjectLen (j : Job) : Nat :=
  match j.opcode with
  | 0x60 => if isHmacAlg (attrAlg j.newAttr) then 64 else j.avail 48 - 8
  | 0x68 => j.avail 48 - 40
  | _ => madeLen (attrAlg j.newAttr)

-- Checks at the dispatcher --------------------------------------------------------------------------------------------------

/-- A handle as R373 judges it, at a stage of reading; its record becomes the most recently used (R374). -/
def handleCk (s : State) (j : Job) (h stage : Nat) : Ck (State × Attr) :=
  match checkKey s j h stage with
  | .need rs => .error (.need rs)
  | .busy => .error (.wait s)
  | .bad sub => .error (.fail stKeyHandle sub 0)
  | .good a _ => .ok (keepAttr s a, a)

/-- Check 2 on KEYREF. -/
def keyrefCk (s : State) (j : Job) : Ck State := do
  let r ← handleCk s j j.keyref 0
  chk (j.opcode != 0x63 && !attrWrap r.2.attr) stKeyHandle 0x32
  chk (j.opcode == 0x63 && attrAlg r.2.attr != 0x10) stKeyHandle 0x31
  pure r.1

/-- Check 2 on a SUBJECT that the opcode reads, deletes or rewrites, and what R389 asks of KEY_RESTRICT. -/
def subjectCk (s : State) (j : Job) : Ck State := do
  let r ← handleCk s j j.subject 0
  chk ((j.opcode == 0x61 || j.opcode == 0x67) && !attrExportable r.2.attr) stKeyHandle 0x32
  keepOn r.1 j (do
    chk (j.opcode == 0x61 && decide (j.avail 80 < kwpLen r.2.matLen)) stInternal 4
    chk (j.opcode == 0x67 && decide (j.avail 80 < kwpLen (32 + r.2.matLen))) stInternal 4
    chk (j.opcode == 0x66 && !narrows j r.2) stInternal 4)
  pure r.1

/-- The entry of a SUBJECT that the opcode writes, as it is read at the dispatcher and, where that is given up (R393), at the start. -/
def freshRead (s : State) (j : Job) : Read := keyRead s j j.subject 0

/-- Check 3. -/
def freshCk (s : State) (j : Job) : Ck Unit := do
  chk (decide ((s.seat j.seat).act.keyLen ≤ j.subject)) stKeyHandle 1
  chkWait s (!keyBusy s j j.subject)
  let b ← needBytes j (freshRead s j)
  let e := entryOf b
  chk (e.state == 1) stKeyHandle 0x23
  chk (decide (176 < subjectLen j) && (e.blob == 0 || e.blob % 64 != 0)) stKeyHandle 0x22

/-- Check 4: BWK held and an escrow authorization in force. -/
def escrowCk (s : State) (j : Job) : Ck Unit := do
  if j.opcode == 0x67 || j.opcode == 0x68 then
    chk (bwkOf s).isNone stKeyHandle 0x40
    chk (!authInForce s 3) stKeyHandle 0x41

/-- An earlier key-management job of the subject is not served yet (R393, R394): the check of a SUBJECT waits for it. -/
def subjectOwed (s : State) (j : Job) : Bool :=
  s.jobs.any (fun k => decide (k.id < j.id) && k.seat == j.seat && isKeyOp k.opcode && k.subject == j.subject
    && ((k.phase == .held && k.outcome.isNone) || k.phase == .store true || k.phase == .store false || (k.phase == .done && writesOut s k.id)))

/-- Checks 2 and 3 on SUBJECT, once the earlier jobs of the subject are served. -/
def subjectPlace (s : State) (j : Job) : Ck State := do
  chkWait s (!subjectOwed s j)
  if writesSubject j.opcode then
    freshCk s j
    pure s
  else subjectCk s j

/-- JOB_PLACEMENT of a key-management job: opcodes 0x67 and 0x68 on seat 0 alone (R383), then checks 1 to 5. -/
def keyPlace (s : State) (j : Job) : Ck State := do
  chk ((j.opcode == 0x67 || j.opcode == 0x68) && j.seat != 0) stInternal 7
  needLists j [48, 64, 80] true
  chk (keyJobBad j) stInternal 4
  let s ← if hasKeyref j.opcode then keyrefCk s j else pure s
  let s ← keepOn s j (subjectPlace s j)
  keepOn s j (escrowCk s j)
  if j.opcode == 0x62 && !s.alarms.bActive && !s.entropy.rehearsal && !drawOk s j.seat then .error (.wait (beginWait s j.id))
  else pure ((endWait s j.id).modJob j.id (fun k => { k with phase := .store false, order := tailOrder s, queuedAt := s.mono }))

-- The key store's choice ----------------------------------------------------------------------------------------------------

/-- Service time of R392 at 3.0 GT/s, ns, of an import or of bringing in an escrow blob. -/
def importNs (alg len : Nat) : Nat :=
  if alg = 0x20 then 60 * (len / 40) * (len / 40) else if 0x48 ≤ alg then 30000 else if 0x40 ≤ alg then 25000 else 600 + 10 * ceilDiv len 16

/-- The algorithms of R377. -/
def allAlgs : List Nat := (List.range 0x4B).filter algOk

/-- An escrow blob of `n` bytes shows its algorithm only once it is unwrapped: the longest service time of those it may hold (log entry 82). -/
def escrowNs (n : Nat) : Nat :=
  ((List.range 8).map (fun d => ((allAlgs.filter (fun alg => matLenOk alg (n - 40 - d))).map (fun alg => importNs alg (n - 40 - d))).foldl max 0)).foldl max 0

/-- Handshake rate of the key store, slots per microsecond: the highest that a bay has measured in the last epoch, else 3,000 (log entry 82). -/
def storeRate (s : State) : Nat :=
  match (List.range 64).foldl (fun m b => max m ((s.bay b).rate.getD 3000)) 0 with
  | 0 => 3000
  | r => r

/-- Service time of R392, ns: the cost of a job. -/
def storeCost (s : State) (j : Job) : Nat :=
  let held := findAttr s j.seat j.subject
  let len := if writesSubject j.opcode then subjectLen j else (held.map (·.matLen)).getD 0
  let ns := match j.opcode with
    | 0x65 => 50
    | 0x64 => 200
    | 0x62 => 400
    | 0x66 => 400
    | 0x60 => importNs (attrAlg j.newAttr) len
    | 0x68 => escrowNs (j.avail 48)
    | _ => 600 + 10 * ceilDiv len 16
  ceilDiv (ns * 3000) (storeRate s)

/-- Jobs that wait for a unit of the key store, in the order they came. -/
def storeQueue (s : State) : List Job :=
  (s.jobs.filter (fun j => j.phase == .store false && j.outcome.isNone)).mergeSort (fun x y => decide (x.order ≤ y.order))

/-- Jobs at its 4 units. -/
def storeBusy (s : State) : Nat := (s.jobs.filter (fun j => j.phase == .store true && j.outcome.isNone)).length

/-- An earlier key-management job on the subject has not completed (R393). -/
def subjectQueued (s : State) (j : Job) : Bool :=
  s.jobs.any (fun k => decide (k.id < j.id) && k.seat == j.seat && isKeyOp k.opcode && k.subject == j.subject
    && (k.phase == .store true || k.phase == .store false || (k.phase == .done && writesOut s k.id)))

/-- The key store takes a waiting job: one of 4 units free, the seat's turn (R392), its subject free. -/
def storeTake (s : State) (j : Job) : Option State :=
  let q := (storeQueue s).filter (fun k => !subjectQueued s k)
  let live := fun k => k == storeTurn || q.any (fun x => x.seat == k)
  let d := dropIdle s.keys.deficit live
  let cs : List Cand := (q.map (·.seat)).eraseDups.filterMap (fun seat => (q.find? (fun x => x.seat == seat)).map (fun x =>
    { key := seat, quantum := weight s seat * 1000, cost := storeCost s x }))
  if 4 ≤ storeBusy s then none
  else
    match drrPick d (tabGet 0 d storeTurn) cs with
    | none => none
    | some (seat, d') =>
      if seat ≠ j.seat ∨ (q.find? (fun x => x.seat == seat)).map (·.id) ≠ some j.id then none
      else some ((s.modKeys (fun k => { k with deficit := tabSet 0 d' storeTurn seat })).modJob j.id (fun k => { k with phase := .store true }))

-- Writing -------------------------------------------------------------------------------------------------------------------

/-- The HMAC slot of a handle is freed (R300). -/
def freeHmac (s : State) (seat h : Nat) : State := s.modKeys (fun k => { k with slots := k.slots.filter (fun c => !(c.seat == seat && c.handle == h)) })

/-- Write an entry: the material at BLOB_ADDR when it does not fit inline, then the 256 bytes; the record held is dropped, the HMAC slot freed. -/
def writeEntry (s : State) (j : Job) (seat h attr expires limit count blob : Nat) (mat : Bytes) : State :=
  let r := sealEntry s seat (s.seat seat).gen h attr expires limit count blob mat
  let s := if r.2.2 = [] then r.1 else writeAt r.1 j seat blob r.2.2 2
  freeHmac (dropAttr (writeAt s j seat (entryAddr s seat h) r.2.1 2) seat h) seat h

/-- The outcome of a job: IN_BYTES, OUT_BYTES and RESULT of R385. -/
def keyOk (s : State) (j : Job) (result out : Nat) : State :=
  fixOutcome s j.id { status := stOk, result := result, inB := j.avail 48 + j.avail 64, outB := out }

/-- A failure of R386: IN1 was read; nothing is written. -/
def matFail (s : State) (j : Job) (status : Nat) : State :=
  let s := s.modKeys (fun k => { k with cntImport := satInc 32 k.cntImport })
  fixOutcome s j.id { status := status, sub := 0x20, inB := j.avail 48 + j.avail 64 }

-- Material ------------------------------------------------------------------------------------------------------------------

/-- RSA CRT key of R386. -/
def rsaOk (mat : Bytes) : Bool :=
  let n := mat.length / 5
  let h := n / 8
  let part := fun i => beNat ((mat.drop (n * i)).take n)
  let p := part 0
  let q := part 1
  p % 2 == 1 && q % 2 == 1 && decide (2 ^ (128 * h - 64) ≤ p * q) && decide (part 2 < p - 1) && decide (part 3 < q - 1)
    && part 4 * q % p == 1 % p

/-- The checks of R386 on unwrapped material: what is kept, or nothing. -/
def material (alg : Nat) (m : Bytes) : Option Bytes :=
  let m := if isHmacAlg alg && decide (hashBlock (alg - 7) < m.length) then hash (alg - 7) m else m
  let good := matLenOk alg m.length &&
    (match alg with
     | 0x04 => m.take 16 != m.drop 16
     | 0x05 => m.take 32 != m.drop 32
     | 0x20 => rsaOk m
     | 0x30 => decide (1 ≤ beNat m) && decide (beNat m < p256.n)
     | 0x31 => decide (1 ≤ beNat m) && decide (beNat m < p384.n)
     | 0x40 => kemDkOk 0x11 m
     | 0x41 => kemDkOk 0x12 m
     | 0x42 => kemDkOk 0x13 m
     | 0x48 => dsaSkOk 0x21 m
     | 0x49 => dsaSkOk 0x22 m
     | 0x4A => dsaSkOk 0x23 m
     | _ => true)
  if good then some m else none

-- Running -------------------------------------------------------------------------------------------------------------------

/-- Material of a handle at a stage (R374). -/
def matOf (s : State) (j : Job) (h stage : Nat) : Ck (Attr × Bytes) :=
  match loadKey s j h stage with
  | .need rs => .error (.need rs)
  | .busy => .error (.wait s)
  | .bad sub => .error (.fail stKeyHandle sub 0)
  | .good a m => .ok (a, m)

/-- Bytes of a buffer of the body, all of them. -/
def wholeBuf (j : Job) (off : Nat) : Ck Bytes := needBytes j (j.dataRead off 0 (j.avail off))

/-- Seconds left of KEY_INFO (R385). -/
def secondsLeft (s : State) (expires : Nat) : Nat := if expires = 0 then 0xFFFFFFFF else min 0xFFFFFFFE (expires - s.secs)

-- The start -----------------------------------------------------------------------------------------------------------------

/-- The opcode works on the material of its SUBJECT. -/
def opensSubject (op : Nat) : Bool := op == 0x61 || op == 0x66 || op == 0x67

/-- The record of KEYREF, with check 6. -/
def keyrefLive (s : State) (j : Job) : Ck (State × Option Attr) :=
  if hasKeyref j.opcode then (do
    let r ← handleCk s j j.keyref 1
    keepOn r.1 j (expiryCk r.1 r.2)
    pure (r.1, some r.2))
  else .ok (s, none)

/-- The record of a SUBJECT that is not written anew, with check 6 of KEY_EXPORT. -/
def subjectLive (s : State) (j : Job) : Ck State :=
  if writesSubject j.opcode then .ok s
  else do
    let r ← handleCk s j j.subject 2
    keepOn r.1 j (ckIf (j.opcode == 0x61) (expiryCk r.1 r.2))
    pure r.1

/-- KEY_GENERATE: check 7, and the draw of the material from the seat's bucket; until then the job waits (R388). -/
def genStart (s : State) (j : Job) : Ck State :=
  if j.opcode = 0x62 then (do
    let n := madeLen (attrAlg j.newAttr)
    chk ((s.seat j.seat).actJ / 2 ^ 16 == 0) stQuota 2
    noDraws s
    chkWait s (decide (n ≤ (s.seat j.seat).bucket))
    match tryDraw s j.seat n with
    | none => .error (.wait (beginWait s j.id))
    | some r =>
      pure (((endWait r.1 j.id).modSeat j.seat (fun t => { t with bucket := t.bucket - n })).modJob j.id (fun k => { k with drawn := r.2, drawDone := true })))
  else .ok s

/-- One use of KEYREF is counted (R379). -/
def keyrefUse (s : State) (j : Job) (a : Option Attr) : Ck State :=
  match a with
  | some a => useCk s j a
  | none => .ok s

/-- Material of a handle the opcode works on. -/
def matIf (s : State) (j : Job) (c : Bool) (h stage : Nat) : Ck Bytes :=
  if c then (do
    let r ← matOf s j h stage
    pure r.2)
  else .ok []

/-- The key store starts a job: checks 6 and 7, made once (R378, R391), what the job needs of its entries, one use of KEYREF. From then on the checks of
other jobs on the handle wait (R393). -/
def startKey (s : State) (j : Job) : Ck State := do
  let (s, a) ← keyrefLive s j
  let s ← keepOn s j (subjectLive s j)
  let kek_ ← keepOn s j (matIf s j (hasKeyref j.opcode) j.keyref 1)
  let m ← keepOn s j (matIf s j (opensSubject j.opcode) j.subject 2)
  let _ ← if writesSubject j.opcode then needBytes j (freshRead s j) else pure []
  let s ← keepOn s j (genStart s j)
  let s ← keepOn s j (keyrefUse s j a)
  let s := s.modJob j.id (fun k => { k with started := true, key := kek_, entry := m })
  pure (if writesSubject j.opcode || j.opcode == 0x64 || j.opcode == 0x66 then staleEntry s j.id j.seat j.subject else s)

-- Work ----------------------------------------------------------------------------------------------------------------------

/-- BLOB_ADDR of the entry that a started job writes anew. -/
def freshBlob (s : State) (j : Job) : Nat := (entryOf ((j.all (freshRead s j)).getD [])).blob

/-- The new entry of a job with its KEYATTR and USE_LIMIT, and its end. -/
def writeNew (s : State) (j : Job) (m : Bytes) : State :=
  keyOk (writeEntry s j j.seat j.subject j.newAttr (expiresAt s j.newAttr) j.useLimit 0 (freshBlob s j) m) j m.length 0

def runImport (s : State) (j : Job) : Ck State := do
  let b ← wholeBuf j 48
  match kwpUnwrap j.key b with
  | none => pure (matFail s j stAuthFail)
  | some m =>
    match material (attrAlg j.newAttr) m with
    | none => pure (matFail s j stKeyHandle)
    | some m => pure (writeNew s j m)

def runExport (s : State) (j : Job) : Ck State :=
  let out := kwpWrap j.key j.entry
  .ok (keyOk (writeBuf s j 80 0 out) j j.entry.length out.length)

def runGenerate (s : State) (j : Job) : Ck State := .ok (writeNew s j j.drawn)

def runDerive (s : State) (j : Job) : Ck State := do
  let salt ← wholeBuf j 48
  let info ← wholeBuf j 64
  pure (writeNew s j (hkdf j.kHash j.key salt info (madeLen (attrAlg j.newAttr))))

def isSubjectSched (j : Job) (c : Sched) : Bool := c.seat == j.seat && c.handle == j.subject

/-- Parts 1 to 4 of R389. -/
def eraseEntry (s : State) (j : Job) (a : Attr) : State :=
  let s := writeAt s j j.seat (entryAddr s j.seat j.subject) (zeros 256) 2
  let s := if 176 < a.matLen then writeAt s j j.seat a.blob (zeros a.matLen) 2 else s
  (freeHmac (dropAttr s j.seat j.subject) j.seat j.subject).modJob j.id (fun k => { k with reqs := a.matLen, zeroed := true })

/-- Part 5: schedules of the handle that no running job uses are dropped; the job ends when none is left. -/
def dropSubject (s : State) (j : Job) : State :=
  let s := s.modKeys (fun k => { k with scheds := k.scheds.filter (fun c => !(isSubjectSched j c && !schedInUse s c)) })
  if s.keys.scheds.any (isSubjectSched j) then s else keyOk s j ((s.job? j.id).map (fun (k : Job) => k.reqs) |>.getD 0) 0

/-- The record that a started job has of its SUBJECT. -/
def subjectRec (s : State) (j : Job) : Ck Attr := do
  let r ← handleCk s j j.subject 2
  pure r.2

def runDelete (s : State) (j : Job) : Ck State := do
  if j.zeroed then pure (dropSubject s j)
  else
    let a ← subjectRec s j
    pure (dropSubject (eraseEntry s j a) j)

def runInfo (s : State) (j : Job) : Ck State := do
  let a ← subjectRec s j
  pure (keyOk s j (a.attr * 2 ^ 32 + secondsLeft s a.expires) 0)

/-- The earlier of two EXPIRES values, 0 being none. -/
def soonest (a b : Nat) : Nat := if a = 0 then b else if b = 0 then a else min a b

/-- KEY_RESTRICT (R389): a lease of the record held stays in force, and is what the entry says of the use count. -/
def runRestrict (s : State) (j : Job) : Ck State := do
  let a ← subjectRec s j
  let expires := soonest a.expires (expiresAt s j.newAttr)
  let limit := if j.useLimit = 0 then a.limit else j.useLimit
  let s := writeEntry s j j.seat j.subject j.newAttr expires limit ((a.leasing <|> a.stored).getD a.count) a.blob j.entry
  pure (keyOk (putAttr s { a with attr := j.newAttr, expires := expires, limit := limit }) j j.entry.length 0)

/-- The plaintext of an escrow blob (R390); an expired key counts 0 seconds (log entry 49). -/
def escrowText (s : State) (a : Attr) (m : Bytes) : Bytes :=
  leBytes 4 a.attr ++ leBytes 8 (if a.expires = 0 then 0 else a.expires - s.secs) ++ leBytes 8 a.limit ++ leBytes 8 a.count ++ leBytes 4 m.length ++ m

def runEscrowOut (s : State) (j : Job) : Ck State := do
  let a ← subjectRec s j
  match bwkOf s with
  | none => .error (.fail stKeyHandle 0x40 0)
  | some bwk =>
    let out := kwpWrap bwk (escrowText s a j.entry)
    pure (keyOk (writeBuf s j 80 0 out) j j.entry.length out.length)

def runEscrowIn (s : State) (j : Job) : Ck State := do
  let b ← wholeBuf j 48
  match bwkOf s with
  | none => .error (.fail stKeyHandle 0x40 0)
  | some bwk =>
    match kwpUnwrap bwk b with
    | none => pure (matFail s j stAuthFail)
    | some t =>
      let a := fieldLE t 0 4
      let left := fieldLE t 4 8
      match (if t.length = 32 + fieldLE t 28 4 ∧ attrOk a then material (attrAlg a) (t.drop 32) else none) with
      | none => pure (matFail s j stKeyHandle)
      | some m =>
        let expires := if left = 0 then 0 else s.secs + left
        pure (keyOk (writeEntry s j j.seat j.subject a expires (fieldLE t 12 8) (fieldLE t 20 8) (freshBlob s j) m) j m.length 0)

/-- A job that has a unit of the key store: its start, then its work once its reads are in. -/
def storeWork (s : State) (id : Nat) (f : State → Job → Ck State) : State :=
  let s := match s.liveJob id with
    | some j => if j.started then s else runCk s j (startKey s j)
    | none => s
  match s.liveJob id with
  | some j => if j.started then runCk s j (f s j) else s
  | none => s

/-- A command of the key store on a job: its start when its turn has come, then its work once its reads are in. -/
def storeOp (s : State) (id op : Nat) (f : State → Job → Ck State) : State :=
  match s.liveJob id with
  | none => s
  | some j =>
    if !s.serving || s.alarms.verifying || j.opcode != op then s
    else
      match j.phase with
      | .store taken =>
        inTime s j ((timeoutSub s j).getD 1) (fun s =>
          match (if taken then some s else storeTake s j) with
          | none => s
          | some s => storeWork s id f)
      | _ => s

def execKeyImport (job : Nat) (s : State) : Out := ok (carryAll (storeOp s job 0x60 runImport))

def execKeyExport (job : Nat) (s : State) : Out := ok (carryAll (storeOp s job 0x61 runExport))

def execKeyGenerate (job : Nat) (s : State) : Out := ok (carryAll (storeOp s job 0x62 runGenerate))

def execKeyDerive (job : Nat) (s : State) : Out := ok (carryAll (storeOp s job 0x63 runDerive))

def execKeyDelete (job : Nat) (s : State) : Out := ok (carryAll (storeOp s job 0x64 runDelete))

def execKeyInfo (job : Nat) (s : State) : Out := ok (carryAll (storeOp s job 0x65 runInfo))

def execKeyRestrict (job : Nat) (s : State) : Out := ok (carryAll (storeOp s job 0x66 runRestrict))

def execKeyEscrowOut (job : Nat) (s : State) : Out := ok (carryAll (storeOp s job 0x67 runEscrowOut))

def execKeyEscrowIn (job : Nat) (s : State) : Out := ok (carryAll (storeOp s job 0x68 runEscrowIn))

-- Registers -----------------------------------------------------------------------------------------------------------------

/-- An escrow job that the key store has started, or that waits for it (R394). -/
def escrowJob (j : Job) : Bool :=
  (j.opcode == 0x67 || j.opcode == 0x68) && j.outcome.isNone && (match j.phase with
    | .store _ => true
    | _ => false)

/-- KEY_BWK_CTRL ERASE (R369): escrow jobs in progress complete with 0x40 and write nothing (R394). -/
def eraseBwk (s : State) : State :=
  ((s.jobs.filter escrowJob).map (·.id)).foldl (fun s id => failJob s id stKeyHandle 0x40) (s.modKeys (fun k => { k with bwk := none }))

def execEraseBwk (s : State) : Out := ok (fin (mgrWrite s 0x50020 eraseBwk))

def keyReg (s : State) (off : Nat) : Nat :=
  let k := s.keys
  match off with
  | 0x50000 => flag k.bk.isSome 31 + flag k.epochNew 30 + flag (bwkOf s).isSome 29 + flag (authInForce s 3) 28
  | 0x50004 => k.epochTag
  | 0x50008 => k.attrs.length
  | 0x5000C => k.scheds.length
  | 0x50010 => k.cntLoad
  | 0x50014 => k.cntInvalid
  | 0x50018 => k.cntExpired
  | 0x5001C => k.cntImport
  | 0x50024 => k.wrapStarts
  | _ => 0

def keyWrite (s : State) (off : Nat) (v : W32) : State := if off = 0x50020 ∧ v.toNat.testBit 0 then eraseBwk s else s

end Sys2Proof.Machine
end

