-- ==== Sys2Proof/Machine/EntropyJob.lean ====
section
/-! DEFINITION. Noise sources, health tests and conditioning (R398 to R404), words and instances (R405 to R410), the random opcodes (R413 to
R421), rehearsal mode and the entropy registers (R419 to R424). -/

namespace Sys2Proof.Machine

-- Health tests --------------------------------------------------------------------------------------------------------------

/-- A run of identical samples after one more, and whether it reached the cutoff of 41 (R399). -/
def runStep (st : Bool × Nat × Bool) (b : Bool) : Bool × Nat × Bool :=
  let n := if b = st.1 then st.2.1 + 1 else 1
  (b, n, st.2.2 || n == 41)

/-- Samples of a block, the first one first. -/
def sampleBits (v : BitVec 512) : List Bool := (List.range 512).map (fun i => v.getLsbD i)

/-- Repetition count test: last sample, run, failed. -/
def rctRun (x : Source) (l : List Bool) : Bool × Nat × Bool := l.foldl runStep (x.lastBit, x.run, false)

/-- Adaptive proportion test: 410 samples equal to the first one fail the block. -/
def aptFails (l : List Bool) : Bool := decide (410 ≤ (l.filter (fun b => b == l.headD false)).length)

/-- One sample enters the conditioner (R400). -/
def condStep (r : BitVec 256) (b : Bool) : BitVec 256 :=
  let n := b ^^ r.getLsbD 255 ^^ r.getLsbD 253 ^^ r.getLsbD 250 ^^ r.getLsbD 245
  (r <<< 1) ||| (if n then 1 else 0)

-- Sources -------------------------------------------------------------------------------------------------------------------

/-- A source is retired (R403, R404). -/
def retireSource (s : State) (i : Nat) : State :=
  let s := s.modSource i (fun x => { x with st := 3, testOk := 0, passed := 0, reg := 0 })
  let s := { s with entropy := { s.entropy with cntRetire := satInc 32 s.entropy.cntRetire } }
  let s := vector (alarmC s 0x4B i 0) 4
  if healthy s < 4 then alarmB s 0x20 (healthy s) else s

/-- A failed block of a source in use (R402, R403). -/
def sourceFails (s : State) (i : Nat) : State :=
  let now := s.time.secure
  let s := s.modSource i (fun x =>
    { x with consec := x.consec + 1, failCnt := satInc 16 x.failCnt, recent := now :: x.recent.filter (fun t => decide (now ≤ t + 1000000000)), passed := 0, reg := 0 })
  let x := s.source i
  if 3 ≤ x.consec ∨ 8 ≤ x.recent.length then retireSource s i else restartSource s i

/-- A word enters the pool; a full pool drops it (R405). -/
def poolAdd (s : State) (w : Bytes) : State :=
  if s.entropy.pool.length < 64 then { s with entropy := { s.entropy with pool := s.entropy.pool ++ [w] } } else s

/-- The samples of a block enter the conditioner; every second block gives a word. -/
def condition (s : State) (i : Nat) (l : List Bool) : State :=
  let s := s.modSource i (fun x => { x with reg := l.foldl condStep x.reg, passed := x.passed + 1 })
  let x := s.source i
  if x.passed < 2 then s else poolAdd (s.modSource i (fun x => { x with passed := 0 })) (leBytes 32 x.reg.toNat)

/-- A block of raw samples is written for a job, which ends with its last; the failures of the block count in RESULT once it is written (R415). -/
def rawBlock (i : Nat) (v : BitVec 512) (rct apt : Bool) (j : Job) (s : State) : State :=
  let s := writeAs s j (.raw (j.pos / 64)) 48 j.pos (leBytes 64 v.toNat)
  let s := s.modJob j.id (fun k => { k with pos := k.pos + 64, raws := k.raws ++ [(k.pos / 64, 64, (if rct then 2 ^ 16 else 0) + if apt then 1 else 0)] })
  match s.liveJob j.id with
  | none => s
  | some j =>
    if j.pos < j.fld 20 4 then s
    else fixOutcome (s.modSource i (fun x => { x with raw := none })) j.id { status := stOk, outB := j.pos }

/-- RNG_RAW takes a block of its source (R421), unless its deadline passed before its first write (R197). The block in which it came to the source is none of its
own: it starts on the source with the first sample of a block (DEDUCED, log entry 122). -/
def rawTake (s : State) (i : Nat) (v : BitVec 512) (rct apt : Bool) : State :=
  match (s.source i).raw.bind s.liveJob with
  | none => s.modSource i (fun x => { x with raw := none })
  | some j => if (s.source i).rawSkip then s.modSource i (fun x => { x with rawSkip := false }) else inTime s j 2 (rawBlock i v rct apt j)

/-- SOURCE_BLOCK: 512 samples of a source are complete (R399 to R404; R420 in rehearsal). -/
def sourceBlock (s : State) (i : Nat) (v : BitVec 512) : State :=
  let x := s.source i
  let runs := s.up && s.entropy.on && (x.st == 0 || x.st == 1 || (x.st == 3 && x.raw.isSome))
  if !runs then s
  else
    let l := sampleBits v
    let r := rctRun x l
    let rct := r.2.2
    let apt := aptFails l
    let bad := rct || apt
    let s := s.modSource i (fun x => { x with lastBit := r.1, run := r.2.1, blockAt := s.mono })
    let s := if x.raw.isSome then rawTake s i v rct apt else s
    if s.entropy.rehearsal then
      let s := if bad then s.modSource i (fun x => { x with failCnt := satInc 16 x.failCnt }) else s
      if x.st = 1 then condition s i l
      else if x.st = 0 then s.modSource i (fun x => if bad then { x with testOk := 0 } else if x.testOk = 0 then { x with testOk := 1 } else { x with testOk := 0, st := 1 })
      else s
    else if x.st = 0 then
      if bad then sourceFails s i
      else s.modSource i (fun x => if x.testOk = 0 then { x with testOk := 1 } else { x with testOk := 0, st := 1, consec := 0 })
    else if x.st = 1 then
      if bad then sourceFails s i else condition (s.modSource i (fun x => { x with consec := 0 })) i l
    else s

def execSourceBlock (source : Nat) (samples : BitVec 512) (s : State) : Out := ok (carryAll (sourceBlock s (source % 16) samples))

/-- SOURCE_RESTART_DONE: 20 us after the restart the start-up test begins (R402). -/
def restartDone (s : State) (i : Nat) : State :=
  let x := s.source i
  if s.up && s.entropy.on && x.st == 2 && s.due x.readyAt then
    s.modSource i (fun x => { x with st := 0, testOk := 0, lastBit := false, run := 0, reg := 0, passed := 0, rawSkip := false, blockAt := s.mono })
  else s

def execSourceRestartDone (source : Nat) (s : State) : Out := ok (fin (restartDone s (source % 16)))

-- Instances -----------------------------------------------------------------------------------------------------------------

/-- The wait of a job on an instance that is READY now ends; of its deadlines that are strictly earlier the one that governs ends the job (R410). -/
def endWaitOf (s : State) (id : Nat) : State :=
  match s.liveJob id with
  | none => s
  | some j => inTime s j ((timeoutSub s j).getD 1) (endWait · id)

/-- The waits on an instance that is READY now end (R410). -/
def endWaits (s : State) (i : Nat) : State :=
  ((s.jobs.filter (fun j => j.instance_ == i && j.seedBy.isSome && j.outcome.isNone)).map (·.id)).foldl endWaitOf s

/-- The reseed a job asked for is done (R417): RNG_RESEED ends with it, RNG_GET goes on to its parts. -/
def reseedDoneOf (s : State) (id : Nat) : State :=
  let s := s.modJob id (fun j => { j with reseedWait := false, reseeded := true })
  match s.liveJob id with
  | none => s
  | some j =>
    if j.opcode ≠ 0x51 then s
    else if j.late s then stop s id stTimeout 2
    else fixOutcome s id { status := stOk, opf := 0x80, inB := j.avail 32 }

def reseedDone (s : State) (i : Nat) : State :=
  ((s.jobs.filter (fun j => j.instance_ == i && j.reseedWait && j.outcome.isNone)).map (·.id)).foldl reseedDoneOf s

/-- WORD_DELIVERY: one word of the pool goes to the request that is first in order (R408). -/
def wordDelivery (s : State) : State :=
  match nextWanted s with
  | none => s
  | some i =>
    let job := (s.inst i).byJob
    let before := (s.inst i).want
    let s := deliverWord s
    if (s.inst i).st = 2 ∧ (s.inst i).want = 0 ∧ before = 1 then
      let s := endWaits s i
      if job then reseedDone s i else s
    else s

/-- RESEED_DUE: READY for 0.9 s of secure time (R407). -/
def execReseedDue (inst : Nat) (s : State) : Out :=
  let i := inst % 1032
  ok (fin (whenDo (s.up && (s.inst i).st == 2 && decide (900000000 ≤ ageNs s (s.inst i))) s (reseedRequest · i false [])))

/-- An instance goes from READY to HELD; its reseed has been due since 0.9 s, so words are requested where none were yet. -/
def holdInst (s : State) (i : Nat) : State := (reseedRequest s i false []).modInst i (fun d => { d with st := 3 })

/-- INST_HELD: READY for 1 s (R407). -/
def execInstHeld (inst : Nat) (s : State) : Out :=
  let i := inst % 1032
  ok (fin (whenDo (s.up && (s.inst i).st == 2 && decide (1000000000 ≤ ageNs s (s.inst i))) s (holdInst · i)))

/-- SEEDING_DEADLINE of a waiting job (R410). -/
def seedingPass (s : State) (id : Nat) : State :=
  match s.liveJob id with
  | some j => if s.up && !s.alarms.verifying && seedLate s j then stop s id stRngNotReady 0 else s
  | none => s

def execSeedingDeadline (job : Nat) (s : State) : Out := ok (carryAll (seedingPass s job))

-- Random jobs ---------------------------------------------------------------------------------------------------------------

def Job.rngLen (j : Job) : Nat := j.fld 20 4

/-- Check 1 of R416. -/
def rngBad (j : Job) : Bool :=
  let op := j.opcode
  let n := j.rngLen
  (if op = 0x50 then n == 0 || decide (16777216 < n) else if op = 0x52 then decide (n < 64) || decide (1048576 < n) || n % 64 != 0 else n != 0)
    || (if op = 0x51 then !(j.desc 48).zero else decide (j.avail 48 < n))
    || decide (256 < j.avail 32) || (op == 0x52 && !(j.desc 32).zero)
    || (if op = 0x52 then decide (15 < j.fld 16 1) else j.fld 16 1 != 0)
    || (op != 0x50 && j.opBit 15) || bits j.flags 14 8 != 0 || j.hdrReserved || j.fld 17 3 != 0 || j.fld 24 8 != 0 || j.bytesAt 64 64 != zeros 64

def rngRate (s : State) (seat : Nat) : Nat := (s.seat seat).actJ / 2 ^ 16

/-- JOB_PLACEMENT of a random job: checks 1 to 6 of R416. -/
def rngPlace (s : State) (j : Job) : Ck State := do
  needLists j [32, 48] true
  chk (rngBad j) stInternal 4
  chk (j.opcode == 0x52 && j.seat != 0) stInternal 7
  chk (j.opcode == 0x52 && !s.entropy.rehearsal) stInternal 8
  chk (j.opcode == 0x50 && rngRate s j.seat == 0) stQuota 2
  if j.opcode != 0x52 then noDraws s
  pure (s.modJob j.id (fun k => { k with phase := .farm false, order := tailOrder s, queuedAt := s.mono }))

/-- Bytes of the next part of RNG_GET (R417). -/
def partLen (j : Job) : Nat := min 65536 (j.rngLen - j.pos)

/-- The part can be generated now. -/
def partReady (s : State) (j : Job) : Bool :=
  drawOk s j.seat && decide (partLen j ≤ (s.seat j.seat).bucket) && (!j.opBit 15 || j.reseeded) && j.started

/-- RNG_GET jobs at the farm, in the order they came. -/
def farmQueue (s : State) : List Job :=
  (s.jobs.filter (fun j => j.opcode == 0x50 && j.outcome.isNone && (match j.phase with
    | .farm _ => partReady s j
    | _ => false))).mergeSort (fun x y => decide (x.order ≤ y.order))

/-- The generate units choose a seat (R418): the state after the choice when it falls on the job. -/
def farmTake (s : State) (j : Job) : Option State :=
  let q := farmQueue s
  let live := fun k => k == storeTurn || q.any (fun x => x.seat == k)
  let d := dropIdle s.keys.farmDeficit live
  let cs : List Cand := (q.map (·.seat)).eraseDups.filterMap (fun seat => (q.find? (fun x => x.seat == seat)).map (fun x =>
    { key := seat, quantum := weight s seat * 512, cost := partLen x + 128 }))
  match drrPick d (tabGet 0 d storeTurn) cs with
  | none => none
  | some (seat, d') =>
    if seat ≠ j.seat ∨ (q.find? (fun x => x.seat == seat)).map (·.id) ≠ some j.id then none
    else some (s.modKeys (fun k => { k with farmDeficit := tabSet 0 d' storeTurn seat }))

/-- One part: bucket, request, write (R417); the additional input enters the first. -/
def genPart (s : State) (j : Job) : State :=
  let n := partLen j
  let s := s.modSeat j.seat (fun t => { t with bucket := t.bucket - n })
  let ai := if j.pos = 0 then j.dataOf 32 0 (j.avail 32) else []
  let r := draw s j.seat n ai
  let s := writeBuf r.1 j 48 j.pos r.2
  let s := s.modJob j.id (fun k => { k with pos := k.pos + n, reqs := k.reqs + 1, phase := .farm true })
  match s.liveJob j.id with
  | none => s
  | some j =>
    if j.pos < j.rngLen then s
    else fixOutcome s j.id { status := stOk, result := j.reqs, opf := if j.reseeded then 0x80 else 0, inB := j.avail 32, outB := j.pos }

/-- Ask for the reseed of a job (R406), when no other is pending; it is then that an RNG_RESEED is issued (R417). -/
def askReseed (s : State) (j : Job) : State :=
  if (s.inst j.seat).want ≠ 0 ∨ !canSeed s then s
  else (reseedRequest s j.seat true (j.dataOf 32 0 (j.avail 32))).modJob j.id (fun k =>
    { k with reseedWait := true, phase := if j.opcode = 0x51 then .farm true else k.phase })

/-- A random job that does its work at the farm: AI read, instance READY or waited for. -/
def farmOp (s : State) (id op : Nat) (f : State → Job → State) : State :=
  match s.liveJob id with
  | none => s
  | some j =>
    if !s.serving || s.alarms.verifying || j.opcode != op then s
    else
      match j.phase with
      | .farm started =>
        inTime s j (if started then 2 else 1) (fun s =>
          if op = 0x52 then f s j
          else if !j.hasRead (j.dataRead 32 0 (j.avail 32)) then issueReads s j [j.dataRead 32 0 (j.avail 32)]
          else
            let s := s.modJob id (fun k => { k with started := true })
            match s.liveJob id with
            | none => s
            | some j => if j.reseedWait then s else if drawOk s j.seat then f s j else beginWait s id)
      | _ => s

/-- RNG_GET: the next part, after the reseed that PR asks for. -/
def rngNext (s : State) (j : Job) : State :=
  if j.opBit 15 && !j.reseeded then askReseed s j
  else if !partReady s j then s
  else
    match farmTake s j with
    | none => s
    | some s => genPart s j

def rngGet (s : State) (id : Nat) : State := farmOp s id 0x50 rngNext

def execRngGet (job : Nat) (s : State) : Out := ok (carryAll (rngGet s job))

def execRngReseed (job : Nat) (s : State) : Out := ok (carryAll (farmOp s job 0x51 askReseed))

/-- RNG_RAW begins on its source when no other is on it (R421). A retired source is switched on for it, and one that restarts begins with its test; on a source that
runs, the block in progress has begun before. -/
def rawStart (s : State) (j : Job) : State :=
  let i := j.fld 16 1 % 16
  if !s.entropy.rehearsal || ((s.source i).raw.bind s.liveJob).isSome then s
  else (s.modSource i (fun x => { x with raw := some j.id, rawSkip := (x.st == 0 || x.st == 1) && x.blockAt != s.mono })).modJob j.id (fun k => { k with phase := .farm true })

def execRngRaw (job : Nat) (s : State) : Out := ok (carryAll (farmOp s job 0x52 rawStart))

-- Commands ------------------------------------------------------------------------------------------------------------------

/-- RNG_CMD completes with a RESULT (R424). -/
def rngResult (s : State) (r : Nat) : State := vector { s with entropy := { s.entropy with cmdResult := r } } 4

/-- ENTER_REHEARSAL (R419), which consumes its authorization (R514). -/
def enterRehearsal (s : State) : State :=
  if s.entropy.rehearsal then rngResult s 3
  else if !authInForce s 1 then rngResult s 1
  else
    let s := failDrawers (zeroAllInst s) (if s.alarms.bActive then stEntropyFailed else stRngRehearsal)
    rngResult (endAuth { s with entropy := { s.entropy with rehearsal := true } } 1) 0

def exitRehearsal (s : State) : State := if s.entropy.rehearsal then rngResult (endRehearsal s) 0 else rngResult s 3

/-- REVIVE: retired sources of the mask restart (R402, R412). -/
def reviveSources (s : State) (mask : Nat) : State :=
  let l := (List.range 16).filter (fun i => mask.testBit i && (s.source i).st == 3)
  if l = [] then rngResult s 2
  else rngResult (l.foldl (fun s i => restartSource (s.modSource i (fun x => { x with consec := 0, recent := [] })) i) s) 0

def clearCounts (s : State) : State := rngResult ((List.range 16).foldl (fun s i => s.modSource i (fun x => { x with failCnt := 0 })) s) 0

def execEnterRehearsal (s : State) : Out := ok (carryAll (mgrWrite s 0x40004 enterRehearsal))

def execExitRehearsal (s : State) : Out := ok (carryAll (mgrWrite s 0x40004 exitRehearsal))

def execRevive (mask : Nat) (s : State) : Out := ok (fin (mgrWrite s 0x40004 (reviveSources · mask)))

def execClearCounts (s : State) : Out := ok (fin (mgrWrite s 0x40004 clearCounts))

-- Registers -----------------------------------------------------------------------------------------------------------------

/-- Failures in the last second of secure time, at most 8. -/
def recentCount (s : State) (x : Source) : Nat := min 8 (x.recent.filter (fun t => decide (s.time.secure ≤ t + 1000000000))).length

def rngReg (s : State) (off : Nat) : Nat :=
  let e := s.entropy
  let d := s.inst e.instSel
  let x := s.source ((off - 0x40100) / 4)
  match off with
  | 0x40000 => flag s.alarms.bActive 31 + flag e.rehearsal 30 + (if e.on then healthy s else 0) * 2 ^ 16 + maskOf 16 (fun i => (s.source i).st == 3)
  | 0x40008 => e.cmdResult
  | 0x4000C => 0x0019A029
  | 0x40010 => (e.inst.filter (fun p => decide (0 < p.2.want))).length * 2 ^ 16 + e.pool.length
  | 0x40014 => e.instSel
  | 0x40018 => d.st * 2 ^ 30 + flag d.reseed 29 + d.reqs
  | 0x4001C => e.cntSeed
  | 0x40020 => e.cntNotReady
  | 0x40024 => e.cntRetire
  | _ => if 0x40100 ≤ off ∧ off < 0x40140 then x.st * 2 ^ 30 + x.consec * 2 ^ 28 + recentCount s x * 2 ^ 24 + x.failCnt else 0

def rngWrite (s : State) (off : Nat) (v : W32) : State :=
  let n := v.toNat
  match off with
  | 0x40004 =>
    match n / 2 ^ 24 with
    | 1 => enterRehearsal s
    | 2 => exitRehearsal s
    | 3 => reviveSources s (n % 2 ^ 16)
    | 4 => clearCounts s
    | _ => rngResult s 2
  | 0x40014 => if 1031 < n % 2 ^ 11 then refuse s off v else { s with entropy := { s.entropy with instSel := n % 2 ^ 11 } }
  | _ => s

end Sys2Proof.Machine
end

