-- ==== Sys2Proof/Machine/Front.lean ====
section
/-! DEFINITION. The packet front (chapter 14): the parser graph (R429 to R433), banks and epochs (R434 to R436), a packet's way to its home bay
(R444), fragments (R455), the rehash and the scanner of the peer table (R452, R453), and the registers of R457. -/

namespace Sys2Proof.Machine

-- The parser ----------------------------------------------------------------------------------------------------------------

/-- What the walk knows: where it is, and what it met. `st` 0xFFFF while it walks and for a walk that ends well. -/
structure Parse where
  st     : Nat := 0xFFFF
  sub    : Nat := 0
  kind   : Nat := 0
  off    : Nat := 0
  fin    : Nat := 0
  v6     : Bool := false
  sender : Bytes := []
  dest   : Bytes := []
  /-- key of the fragment the packet is, and whether it is a later one -/
  frag   : Option Bytes := none
  later  : Bool := false
  /-- a non-ESP marker or NAT keepalive was found -/
  ike    : Bool := false
  deriving DecidableEq, Repr

def Parse.fail (w : Parse) (st sub : Nat) : Parse := { w with st := st, sub := sub }

/-- The 32 bytes of a node of a bank (R429). -/
def nodeBytes (s : State) (bank : Bool) (n : Nat) : Bytes :=
  ((List.range 8).map (fun j => leBytes 4 (tabGet 0 s.front.nodes ((if bank then 512 else 0) + n * 8 + j)))).flatten

def nf (nd : Bytes) (i : Nat) : Nat := fieldLE nd i 1

def kindOk (k : Nat) : Bool := decide (k ≤ 2) || (decide (8 ≤ k) && decide (k ≤ 11))

/-- Bytes [a, a + n) lie within byte 255 and END. -/
def seen (w : Parse) (a n : Nat) : Bool := decide (a + n ≤ min w.fin 256)

def mapped (a : Bytes) : Bytes := zeros 10 ++ [0xFF, 0xFF] ++ a

/-- What a header says of addresses and fragments (R431). A STEP header of 40 bytes whose version is 6 is an IPv6 header (log entry 43). -/
def header (w : Parse) (b : Bytes) (adv : Nat) : Parse :=
  let o := w.off
  if w.kind = 1 then
    let fo := fieldBE b (o + 6) 2
    let src := mapped (sliceZ b (o + 12) 4)
    let dst := mapped (sliceZ b (o + 16) 4)
    let w := { w with v6 := false, sender := src, dest := dst }
    if fo % 2 ^ 14 = 0 then w
    else { w with frag := some ([4] ++ src ++ dst ++ sliceZ b (o + 4) 2 ++ sliceZ b (o + 9) 1), later := fo % 2 ^ 13 != 0 }
  else if w.kind = 2 then
    let fo := fieldBE b (o + 2) 2
    if fo / 8 = 0 ∧ fo % 2 = 0 then w
    else { w with frag := some ([6] ++ w.sender ++ w.dest ++ sliceZ b (o + 4) 4 ++ sliceZ b o 1), later := fo / 8 != 0 }
  else if adv = 40 ∧ nf b o / 16 = 6 ∧ seen w o 40 then { w with v6 := true, sender := sliceZ b (o + 8) 16, dest := sliceZ b (o + 24) 16 }
  else w

/-- The next node (step 5). -/
def nextNode (nd b : Bytes) (o : Nat) : Nat :=
  let v := fieldBE b (o + nf nd 2) (nf nd 1)
  if nf nd 1 = 0 then nf nd 11 % 64
  else
    match (List.range 4).find? (fun k => (nf nd (20 + k)).testBit 7 && fieldBE nd (12 + 2 * k) 2 == v) with
    | some k => nf nd (20 + k) % 64
    | none => nf nd 11 % 64

/-- The end of a walk at a terminal node (R431 to R433). -/
def terminal (w : Parse) (b : Bytes) : Parse :=
  let esp := fun (w : Parse) => if seen w w.off 16 then w else w.fail stParseLength 3
  if w.kind = 8 then esp w
  else if w.kind = 9 then
    let n := w.fin - w.off
    if n = 1 ∧ seen w w.off 1 ∧ nf b w.off = 0xFF then { w with ike := true }
    else if 4 ≤ n ∧ seen w w.off 4 ∧ sliceZ b w.off 4 = zeros 4 then { w with ike := true }
    else esp w
  else w

/-- The walk of R430; the fuel is the nodes that may still be visited. -/
def walk (nodes : Nat → Bytes) (b : Bytes) : Nat → Nat → Parse → Parse
  | 0, _, w => w.fail stParseDepth 1
  | f + 1, n, w =>
    let nd := nodes n
    let w := { w with kind := nf nd 0 }
    if !(nf nd 31).testBit 7 || !kindOk w.kind then w.fail stParseDepth 2
    else
      let lenEn := (nf nd 9).testBit 0
      let l := fieldBE b (w.off + nf nd 8) 2 + nf nd 10
      if lenEn && !seen w (w.off + nf nd 8) 2 then w.fail stParseLength 3
      else if lenEn && decide (w.fin < w.off + l) then w.fail stParseLength 1
      else
        let w := if lenEn then { w with fin := w.off + l } else w
        if 8 ≤ w.kind then terminal w b
        else
          let adv := nf nd 7 + ((nf b (w.off + nf nd 3) &&& nf nd 4) / 2 ^ (nf nd 5 % 8)) * (nf nd 6 % 16)
          let need := if w.kind = 1 then 20 else if w.kind = 2 then 8 else 0
          if !seen w w.off need then w.fail stParseLength 3
          else
            let w := header w b adv
            if w.later then w
            else if nf nd 1 ≠ 0 && !seen w (w.off + nf nd 2) (nf nd 1) then w.fail stParseLength 3
            else if nf nd 6 % 16 ≠ 0 && !seen w (w.off + nf nd 3) 1 then w.fail stParseLength 3
            else if adv = 0 then w.fail stParseLength 4
            else if lenEn && decide (l < adv) then w.fail stParseLength 2
            else walk nodes b f (nextNode nd b w.off) { w with off := w.off + adv }

/-- Parse a packet on the bank of its epoch: at most 16 nodes. -/
def parse (s : State) (bank : Bool) (b : Bytes) : Parse := walk (nodeBytes s bank) b 16 0 { fin := b.length }

-- Epochs --------------------------------------------------------------------------------------------------------------------

def prevEpoch (s : State) : Nat := (s.front.current + 3) % 4

/-- Epoch, bank and EPOCH_RENEWED of a packet (R435). -/
def epochOf (s : State) (m : BitVec 128) : Nat × Bool × Bool :=
  let named := bits m.toNat 27 26
  if m.getLsbD 25 then
    if named = s.front.current then (named, s.front.bank, false)
    else if named = prevEpoch s ∧ s.front.draining then (named, !s.front.bank, false)
    else (s.front.current, s.front.bank, true)
  else (s.front.current, s.front.bank, false)

-- Fragments -----------------------------------------------------------------------------------------------------------------

def followLive (s : State) (f : Follow) : Bool := decide (s.mono ≤ f.stamp + 2000000 * nsUnit)

def findFollow (s : State) (key : Bytes) : Option Follow := s.front.follow.find? (fun f => f.key == key)

/-- Room for a follow entry: a free one, or one whose hold has passed. -/
def followRoom (s : State) (l : List Follow) : Option (List Follow) :=
  if l.length < 4096 then some l
  else
    match l.find? (fun f => !followLive s f) with
    | some x => some (l.filter (fun f => f.key != x.key))
    | none => none

/-- FRAGMENT_ORPHAN. -/
def orphan (s : State) (id sub : Nat) : State :=
  fixOutcome (s.modFront (fun f => { f with cntOrphan := wrapInc 32 f.cntOrphan })) id { status := stOrphan, sub := sub }

/-- A followed fragment leaves with OK and FRAG. -/
def follow (s : State) (id : Nat) (f : Follow) : State :=
  fixOutcome (modPkt s id (fun p => { setFlag p 20 with assoc := f.assoc, named := true, epoch := f.epoch })) id { status := stOk }

/-- A first fragment that reached ESP makes an entry or finds a live one, and leaves with its own SPI[23:0] and epoch (R455). -/
def firstFragment (s : State) (id : Nat) (key : Bytes) (assoc epoch : Nat) : State :=
  match (findFollow s key).filter (followLive s) with
  | some f => follow s id { f with assoc := assoc, epoch := epoch }
  | none =>
    match followRoom s (s.front.follow.filter (fun f => f.key != key)) with
    | some l =>
      let f : Follow := { key := key, assoc := assoc, epoch := epoch, stamp := s.mono }
      follow (s.modFront (fun x => { x with follow := l ++ [f] })) id f
    | none => orphan s id 2

/-- A later fragment. -/
def laterFragment (s : State) (id : Nat) (key : Bytes) : State :=
  match findFollow s key with
  | none => orphan s id 1
  | some f => if followLive s f then follow s id f else orphan (s.modFront (fun x => { x with follow := x.follow.filter (fun g => g.key != key) })) id 3

-- The way to the home bay ---------------------------------------------------------------------------------------------------

/-- Owner of the association of a packet: the entry's seat, once it is known. -/
def pktOwner (s : State) (j : Job) (i : Nat) : Nat :=
  match s.assoc? i with
  | some a => a.seat
  | none =>
    match j.all (assocRead s i) with
    | some b => (assocOf i b).seat
    | none => 0

/-- Steps 4 to 7 of R444 and placement on the home bay. -/
def placePkt (s : State) (j : Job) (p : Pkt) : Ck State := do
  let out := p.metaIn.getLsbD 24
  let i := p.assoc
  let owner := pktOwner s j i
  let r ← assocCk s j i owner (if out then none else some (fieldBE p.bytes p.off 4))
  let a := r.2
  let t := s.seat owner
  chk (decide (p.fin < p.off + 16 + a.tagLen + 2)) stParseLength 5
  chk (t.state != 2) stNoAssoc (0x10 + t.state)
  let j := { j with seat := owner, gen := t.gen }
  let s := r.1.modJob j.id (fun k => { k with seat := owner, gen := t.gen, assoc := some i })
  let k ← keyCk s j a.keyref false (fun alg _ => keyFits a.mode alg)
  pure (placeAssoc k.1 j i k.2.attr)

/-- Carry a packet on that waits in the packet front. -/
def frontGo (s : State) (id : Nat) : State :=
  match s.liveJob id with
  | some j =>
    match j.pkt with
    | some p => if j.phase == .held && !s.alarms.verifying then runCk s j (placePkt s j p) else s
    | none => s
  | none => s

/-- A terminal kind that is ESP. -/
def espEnd (w : Parse) : Bool := (w.kind == 8 || w.kind == 9) && !w.ike

/-- What a walk that ended well found: a non-ESP marker or NAT keepalive, a MACsec SecTAG (R426). -/
def found (w : Parse) (p : Pkt) : Pkt :=
  let p := if w.ike then setFlag p 21 else p
  if w.kind = 11 then setFlag p 22 else p

/-- What the parse of an accepted packet leads to (steps 1 to 3). -/
def parsed (s : State) (id : Nat) (w : Parse) (out : Bool) (b : Bytes) (epoch : Nat) : State :=
  let s := if w.st = 0xFFFF then modPkt s id (found w) else s
  if w.st ≠ 0xFFFF then fixOutcome s id { status := w.st, sub := w.sub }
  else if out then
    if w.later || !espEnd w then fixOutcome s id { status := stParseDepth, sub := 3 } else frontGo s id
  else
    match w.frag with
    | some key =>
      if w.later then laterFragment s id key
      else if espEnd w then firstFragment s id key (fieldBE b w.off 4 % 2 ^ 24) epoch
      else passOn s id w
    | none => if espEnd w then frontGo (modPkt s id (fun p => { p with assoc := fieldBE b w.off 4 % 2 ^ 24, named := true })) id else passOn s id w
where
  /-- PASS and MACSEC: the packet leaves as it entered -/
  passOn (s : State) (id : Nat) (w : Parse) : State :=
    fixOutcome (modPkt s id (fun p => { p with out := p.bytes })) id { status := stOk }

/-- Packet port pairs of the shell (R54). -/
def PktPorts.count : PktPorts → Nat
  | .zero => 0
  | .one => 1
  | .two => 2

/-- The output buffers are not full: they hold a number of packets that the spec leaves open (R77, log entry 83). -/
def outRoom (s : State) : Bool := s.front.outQ.isEmpty || decide (s.front.outQ.length < Config.pktRoom)

/-- PKT_INn takes packets: present, loaded, its clock running, output not backed up, no class A alarm (R51, R59, R77, R78, R526). -/
def pktReady (s : State) (port : Nat) : Bool :=
  s.ready && decide (port < s.params.pktPorts.count) && s.front.enabled && !s.front.loading && outRoom s && !s.alarms.aActive && !s.mem.stalled.contains .pkclk

/-- A whole packet arrives (R76, R425 to R433). -/
def packetArrive (s : State) (port : Nat) (m : BitVec 128) (b : Bytes) (err : Bool) : State :=
  if !pktReady s port then s
  else if err || decide (16384 < b.length) then s.modFront (fun f => { f with cntDiscard := wrapInc 32 f.cntDiscard })
  else
    let e := epochOf s m
    let out := m.getLsbD 24
    let w := parse s e.2.1 b
    let id := s.nextJob
    let p : Pkt := { metaIn := m, bytes := b, out := b, term := w.kind % 16, off := w.off, fin := w.fin, epoch := e.1, ipv6 := w.v6, sender := w.sender
                     port := if w.kind = 9 ∧ 8 ≤ w.off then fieldBE b (w.off - 8) 2 else 0
                     assoc := if out then m.toNat % 2 ^ 24 else 0, named := out, flags := flag e.2.2 19 }
    let j : Job := { id := id, src := .packet port, opcode := if out then 0x10 else 0x11, acceptAt := s.stamp, pkt := some p }
    let s := { s with jobs := s.jobs ++ [j], nextJob := id + 1 }
    let s := if e.2.2 then s.modFront (fun f => { f with cntRenewed := wrapInc 32 f.cntRenewed }) else s
    parsed s id w out b e.1

def execPacketIn (port : Nat) (meta128 : BitVec 128) (bytes : Bytes) (err : Bool) (s : State) : Out :=
  ok (carry (packetArrive s port meta128 bytes err))

/-- A packet of the association that entered earlier, by whichever port, has not left (R75). -/
def outBehind (s : State) (o : PktOut) : Bool := s.front.outQ.any (fun x => x.named && o.named && x.assoc == o.assoc && decide (x.order < o.order))

/-- The pipeline takes the oldest packet of a port (R77), after the earlier packets of its association. -/
def packetTake (s : State) (port : Nat) : State :=
  match s.front.outQ.find? (fun o => o.port == port) with
  | some o => if s.mem.stalled.contains .pkclk || outBehind s o then s else s.modFront (fun f => { f with outQ := f.outQ.erase o })
  | none => s

def execPacketOutAccept (port : Nat) (s : State) : Out := ok (whenDo s.up s (packetTake · port))

-- Banks ---------------------------------------------------------------------------------------------------------------------

/-- Bits of the words of a node that are in use; the others read zero (R9, R429). -/
def nodeMask (j : Nat) : Nat :=
  match j % 8 with
  | 1 => 0xFF0F07FF
  | 2 => 0x3FFF01FF
  | 5 => 0xBFBFBFBF
  | 6 => 0
  | 7 => 0x80000000
  | _ => 0xFFFFFFFF

/-- Node words of a bank. -/
def putNodes (s : State) (bank : Bool) (ws : List (Nat × Nat)) : State :=
  s.modFront (fun f => { f with nodes := ws.foldl (fun t w => tabSet 0 t ((if bank then 512 else 0) + w.1 % 512) (w.2 % 2 ^ 32 &&& nodeMask w.1)) f.nodes })

/-- A write to PKF_NODE (R429, R434): a SEL_WIDTH past 2 is out of range (R457). -/
def nodePut (s : State) (off : Nat) (v : W32) : State :=
  let i := off % 0x1000 / 4
  if (512 ≤ i) == s.front.bank || s.front.draining || i % 8 == 0 && decide (2 < bits v.toNat 15 8) then refuse s off v
  else s.modFront (fun f => { f with nodes := tabSet 0 f.nodes i (v.toNat &&& nodeMask i) })

def execNodeWrite (off : Nat) (value : W32) (s : State) : Out :=
  let o := 0x71000 + (off % 0x1000) / 4 * 4
  ok (mgrWrite s o (nodePut · o value))

/-- The swap itself. -/
def doSwap (s : State) : State :=
  s.modFront (fun f => { f with current := (f.current + 1) % 4, bank := !f.bank, draining := true, swapAt := s.mono })

/-- A SWAP write (R434). -/
def swapCmd (s : State) : State :=
  if s.front.draining || !(nf (nodeBytes s (!s.front.bank) 0) 31).testBit 7 then s else doSwap s

def execSwap (s : State) : Out := ok (mgrWrite s 0x70038 swapCmd)

/-- DRAINING clears (R436). -/
def drainEnd (s : State) : State :=
  let e := prevEpoch s
  let held := s.jobs.any (fun j => j.pkt.any (fun p => p.epoch == e)) || s.front.outQ.any (fun o => bits o.metaOut.toNat 25 24 == e)
    || s.front.follow.any (fun f => followLive s f && f.epoch == e)
  if s.front.draining && !held && s.due (s.front.swapAt + s.front.grace * 1000 * nsUnit) then s.modFront (fun f => { f with draining := false }) else s

def execEpochDrainEnd (s : State) : Out := ok (whenDo s.ready s drainEnd)

-- Rehash and scanner --------------------------------------------------------------------------------------------------------

/-- A REHASH write (R453): it takes the target's base and seeds as they stand (R547). -/
def rehashCmd (s : State) (v : W32) : State :=
  if s.front.forerunner then refuse s 0x70030 v
  else if s.front.rehashBusy || s.front.peerNext = 0 then s
  else s.modFront (fun f => { f with rehashBusy := true, rehashAt := 0, rehBase := f.peerNext, rehSeed1 := f.nextSeed1, rehSeed2 := f.nextSeed2
                                     peers := f.peers.filter (fun p => decide (p.1 < 65536)) })

/-- Read a bucket for the peer unit, unless the read is on its way. -/
def readBucket (s : State) (t b : Nat) : State :=
  if s.mem.accesses.any (fun a => a.owner == .peerRead t b) then s else addRead s (.peerRead t b) 0 (peerAddr s t b) 128 0

/-- Move slot `k` of bucket `b` of the current table, whose bytes are `v`, into the new table; `none` while buckets are being read. -/
def moveSlot (s : State) (b k : Nat) (v : Bytes) : State × Bool :=
  let e := slotBytes v k
  let key := slotKey e
  let p := peerPair s 1 key
  if !slotValid e then (s, true)
  else
    match [p.1, p.2].find? (fun b => (bucket? s 1 b).isNone) with
    | some x => (readBucket s 1 x, false)
    | none =>
      let gone := fun s => setSlot s 0 b k (overlay e 21 [0])
      let at_ := peerAddr s 0 b + 32 * k
      if [p.1, p.2].any (fun b => ((bucket? s 1 b).bind (findSlot (slotHit key))).isSome) then (gone s, true)
      else
        match peerInsert s none 1 key e [(at_, []), (at_ + 21, [0])] with
        | .need ((t, x) :: _) => (readBucket s t x, false)
        | .need [] => (s, true)
        | .done s => (gone s, true)
        | .full => (s.modFront (fun f => { f with cntPeerFail := wrapInc 32 f.cntPeerFail }), true)

/-- Go on with the rehash as far as the buckets read allow; `rehashAt` counts slots. -/
def rehashGo : Nat → State → State
  | 0, s => s
  | n + 1, s =>
    let at_ := s.front.rehashAt
    if !s.front.rehashBusy || 262144 ≤ at_ then s
    else
      match bucket? s 0 (at_ / 4) with
      | none => readBucket s 0 (at_ / 4)
      | some v =>
        let s := keepBucket s 0 (at_ / 4) v
        let r := moveSlot s (at_ / 4) (at_ % 4) v
        if r.2 then rehashGo n (r.1.modFront (fun f => { f with rehashAt := at_ + 1 })) else r.1

/-- Slots one event moves at most: 64. -/
def rehashStep (s : State) : State := rehashGo 64 s

def execRehash (s : State) : Out := ok (carry (mgrWrite s 0x70030 (fun s => rehashStep (rehashCmd s 1))))

/-- A bucket is being read, by the tables of now. -/
def bucketsRead (s : State) : Bool :=
  s.mem.accesses.any (fun a => isLookup a.owner || (match a.owner with
    | .peerRead _ _ => true
    | _ => false))

/-- The end of a rehash: new base and seeds, vector 5, once no bucket is being read; before the end it goes on. -/
def rehashEnd (s : State) : State :=
  if !s.front.rehashBusy then s
  else if s.front.rehashAt < 262144 then rehashStep s
  else if bucketsRead s then s
  else
    let f := s.front
    vector { s with front := { f with rehashBusy := false, rehashAt := 0, peerBase := f.rehBase, seed1 := f.rehSeed1, seed2 := f.rehSeed2
                                      peers := f.peers.filterMap (fun p => if 65536 ≤ p.1 then some (p.1 - 65536, p.2) else none) } } 5

def execRehashDone (s : State) : Out := ok (carry (whenDo (s.ready && !s.alarms.verifying) s rehashEnd))

/-- FLAGS of an entry after the scanner's visit (R452). -/
def aged (f : Nat) : Nat :=
  if !f.testBit 0 then f
  else if f.testBit 2 then maskSet f 2 false
  else if f.testBit 1 then maskSet f 0 false else maskSet f 1 true

/-- One entry of a bucket is aged. -/
def ageSlot (b : Nat) (v : Bytes) (s : State) (k : Nat) : State :=
  let e := slotBytes v k
  let new := aged (nf e 21)
  if nf e 21 = new then s
  else peerPush (setSlot s 0 b k (overlay e 21 [BitVec.ofNat 8 new])) none [(peerAddr s 0 b + 32 * k + 21, [BitVec.ofNat 8 new])]

/-- A visit takes effect, once its bucket is known. -/
def ageBucket (s : State) (b : Nat) : State :=
  match bucket? s 0 b with
  | none => s
  | some v => (List.range 4).foldl (ageSlot b v) (s.modFront (fun f => { f with visits := f.visits.erase b }))

/-- As an instant ends, the visits made at it take effect: a hit of the same stamp has gone first (R452, R456); aging pauses during a rehash (R453). -/
def ageDue (s : State) : State := if s.front.rehashBusy || s.alarms.aActive then s else s.front.visits.foldl ageBucket s

/-- The scanner visits a bucket once in PERIOD_S (R452). -/
def visitDue (s : State) (b : Nat) : Bool :=
  match s.front.visited.find? (fun p => p.1 == b) with
  | some p => s.due (p.2 + s.front.age * 1000000000 * nsUnit)
  | none => true

/-- The scanner visits a bucket (R452): it is read first where it is not known. -/
def ageVisit (s : State) (b : Nat) : State :=
  if s.front.age = 0 || s.front.rehashBusy || s.front.peerBase = 0 || !s.front.enabled || s.front.visits.contains b || !visitDue s b then s
  else
    let s := s.modFront (fun f => { f with visits := f.visits ++ [b], visited := tabPut f.visited b s.mono })
    if (bucket? s 0 b).isNone then readBucket s 0 b else s

def execPeerAgeVisit (bucket : Nat) (s : State) : Out := ok (carry (whenDo (s.ready && !s.alarms.aActive) s (ageVisit · (bucket % 65536))))

-- Registers -----------------------------------------------------------------------------------------------------------------

def strgWord (t : Seat) : Nat := t.strgCredit / 1000 * 2 ^ 16 + t.strgShed

/-- A read of PKF_SEAT_STRG_STS: SHED clears. -/
def execStrangerStsRead (seat : Nat) (s : State) : Out :=
  ok (hregRead s (0x7800C + 0x10 * (seat % 1024)) 0 (fun s =>
    (readBack s (strgWord (s.seat (seat % 1024)))).modSeat (seat % 1024) (fun t => { t with strgShed := 0 })))

/-- Reads of the packet front range. -/
def frontReg (s : State) (off : Nat) : Nat :=
  let f := s.front
  if 0x7C000 ≤ off then 0
  else if 0x78000 ≤ off then
    let t := s.seat (off % 0x8000 / 16 % 1024)
    match off % 16 with
    | 0 => t.abase
    | 4 => t.acount
    | 8 => t.strg
    | _ => strgWord t
  else if 0x71000 ≤ off then (if off < 0x72000 then tabGet 0 f.nodes (off % 0x1000 / 4) else 0)
  else
    match off with
    | 0x70000 => flag f.forerunner 1 + flag f.enabled 0
    | 0x70004 => flag f.rehashBusy 31 + flag f.rehashReq 30 + flag f.excFull 29 + f.cache.length
    | 0x70008 => f.assocBase % 2 ^ 32
    | 0x7000C => f.assocBase / 2 ^ 32
    | 0x70010 => f.peerBase % 2 ^ 32
    | 0x70014 => f.peerBase / 2 ^ 32
    | 0x70018 => f.peerNext % 2 ^ 32
    | 0x7001C => f.peerNext / 2 ^ 32
    | 0x70020 => f.seed1
    | 0x70024 => f.seed2
    | 0x70028 => f.nextSeed1
    | 0x7002C => f.nextSeed2
    | 0x70034 => f.age
    | 0x70038 => flag f.draining 4 + flag f.bank 3 + f.current
    | 0x7003C => f.grace
    | 0x70040 => f.excBase % 2 ^ 32
    | 0x70044 => f.excBase / 2 ^ 32
    | 0x70048 => f.excCfg
    | 0x7004C => f.excHead
    | 0x70050 => f.excTail
    | 0x70060 => f.cntDiscard
    | 0x70064 => f.cntExc
    | 0x70068 => f.cntPeerFail
    | 0x7006C => f.cntShed
    | 0x70070 => f.cntRenewed
    | 0x70074 => f.cntExcLost
    | 0x70078 => f.cntOrphan
    | 0x7007C => f.cntLearned
    | _ => 0

/-- A 64-bit address register with one half written; `al` bytes of alignment. -/
def putLo (al a n : Nat) : Nat := a / 2 ^ 32 * 2 ^ 32 + n / al * al

def putHi (a n : Nat) : Nat := n * 2 ^ 32 + a % 2 ^ 32

/-- Writes to a seat's block of the range. -/
def frontSeatWrite (s : State) (off : Nat) (v : W32) : State :=
  let n := v.toNat
  let seat := off % 0x8000 / 16 % 1024
  let t := s.seat seat
  match off % 16 with
  | 0 => if 2 ^ 24 < n % 2 ^ 24 + t.acount then refuse s off v else s.modSeat seat (fun t => { t with abase := n % 2 ^ 24 })
  | 4 => if 2 ^ 24 < t.abase + n % 2 ^ 25 then refuse s off v else s.modSeat seat (fun t => { t with acount := n % 2 ^ 25 })
  | 8 => if n / 2 ^ 16 = 0 then refuse s off v else (latchEpoch s).modSeat seat (fun t => { t with strg := n })
  | _ => s

/-- Writes to the packet front range (R457). -/
def frontWrite (s : State) (off : Nat) (v : W32) : State :=
  let n := v.toNat
  let f := s.front
  let set := fun (g : Front → Front) => s.modFront g
  if 0x7C000 ≤ off then s
  else if 0x78000 ≤ off then frontSeatWrite s off v
  else if 0x71000 ≤ off then (if off < 0x72000 then nodePut s off v else s)
  else
    match off with
    | 0x70000 => set (fun f => { f with forerunner := n.testBit 1 })
    | 0x70004 => set (fun f => { f with rehashReq := f.rehashReq && !n.testBit 30, excFull := f.excFull && !n.testBit 29 })
    | 0x70008 => if f.cache = [] then set (fun f => { f with assocBase := putLo 4096 f.assocBase n }) else refuse s off v
    | 0x7000C => if f.cache = [] then set (fun f => { f with assocBase := putHi f.assocBase n }) else refuse s off v
    | 0x70010 => if f.peerBase = 0 then set (fun f => { f with peerBase := putLo 4096 f.peerBase n }) else refuse s off v
    | 0x70014 => if f.peerBase = 0 then set (fun f => { f with peerBase := putHi f.peerBase n }) else refuse s off v
    | 0x70018 => set (fun f => { f with peerNext := putLo 4096 f.peerNext n })
    | 0x7001C => set (fun f => { f with peerNext := putHi f.peerNext n })
    | 0x70028 => set (fun f => { f with nextSeed1 := n })
    | 0x7002C => set (fun f => { f with nextSeed2 := n })
    | 0x70030 => if n.testBit 0 then rehashStep (rehashCmd s v) else s
    | 0x70034 => set (fun f => { f with age := n % 2 ^ 16 })
    | 0x70038 => if n.testBit 31 then swapCmd s else s
    | 0x7003C => if n % 2 ^ 24 = 0 then refuse s off v else set (fun f => { f with grace := n % 2 ^ 24 })
    | 0x70040 => set (fun f => { f with excBase := putLo 2048 f.excBase n })
    | 0x70044 => set (fun f => { f with excBase := putHi f.excBase n })
    | 0x70048 => if 4 ≤ n % 32 ∧ n % 32 ≤ 16 then set (fun f => { f with excCfg := n % 32 }) else refuse s off v
    | 0x7004C => set (fun f => { f with excHead := n })
    | _ => s

end Sys2Proof.Machine
end

