-- ==== Sys2Proof/Machine/Place.lean ====
section
/-! DEFINITION. The dispatcher (chapter 6): JOB_PLACEMENT of every class, the scheduling epoch (R144, R146, R214, R234, R332, R360, R454), wing
power (R224 to R226), advertisements (R228), the countermeasure reseed (R250) and the placement registers (R234). -/

namespace Sys2Proof.Machine

-- Placement -----------------------------------------------------------------------------------------------------------------

/-- A symmetric job: its checks, then its home bay or a bay of its class. -/
def symPlace (s : State) (j : Job) : Ck State := do
  let r ← symCheck s j
  let s := r.1
  if j.opBit 15 then
    let s := s.modJob j.id (fun k => { k with assoc := some j.assocIdx })
    pure (placeAssoc s j j.assocIdx r.2)
  else pure (placeFree s j r.2)

/-- A job that has started and whose bay has left service, or that a RESTORE has brought, is placed again; its checks are made (R233, R243). Its entry is
read where it is not held. While the seat is curtained it waits for RESTART (R148). -/
def placeAgain (s : State) (j : Job) : Ck State :=
  if curtained s j.seat then .error (.wait s)
  else if j.onAssoc then (do
    let s ← if (s.assoc? j.assocIdx).isSome then pure s else do
      let b ← needBytes j (assocRead s j.assocIdx)
      pure (assocLoad s j.id (assocOf j.assocIdx b))
    pure (placeAssoc s j j.assocIdx j.attr))
  else .ok (placeFree s j j.attr)

def digPlace (s : State) (j : Job) : Ck State := do
  let r ← digCheck s j
  pure (placeFree r.1 j r.2)

/-- The dispatcher's part of a job by its class (R204). -/
def placeCk (s : State) (j : Job) : Ck State :=
  if (j.isSym || j.isDig) && j.started then placeAgain s j
  else if j.isSym then symPlace s j
  else if j.isDig then digPlace s j
  else if isEngine j.opcode then engPlace s j
  else if isRandom j then rngPlace s j
  else if isKeyOp j.opcode then keyPlace s j
  else if j.opcode = 0x70 ∨ j.opcode = 0x71 then assocJobPlace s j
  else .ok s

/-- JOB_PLACEMENT: a job the ring manager has passed on, in time, that safe stage serves (R117, R197). -/
def placeJob (s : State) (id : Nat) : State :=
  match ripe s id with
  | none => s
  | some j =>
    if !s.serving || s.alarms.verifying then s
    else if j.pkt.isSome then frontGo s id
    else if unassigned j.opcode || decide (j.opcode < 0x10) then s
    else inTime s j 1 (fun s => if s.start.state = 4 ∧ !safeOpcode j.opcode then failJob s id stInternal 1 else runCk s j (placeCk s j))

def execJobPlacement (job : Nat) (s : State) : Out := ok (carryAll (placeJob s job))

-- Scheduling epoch ----------------------------------------------------------------------------------------------------------

/-- Admission at a boundary (R360): RATE from 0 fills the credit; else it grows up to the depth, and a reduced depth clips it. -/
def admitEpoch (t : Seat) : Seat :=
  let old := admitRate t
  let t := { t with admitAct := t.admitW }
  let rate := admitRate t
  let depth : Int := admitDepth t
  if rate = 0 then t else { t with credit := if old = 0 then depth else min depth (t.credit + rate) }

/-- One seat at a boundary. -/
def seatEpoch (t : Seat) : Seat :=
  let t := { t with actW := t.shareW, actJ := t.shareJ, actK := t.shareK, strgAct := t.strg }
  let t := if 2 ≤ t.state ∧ t.state ≤ 4 then { t with bucket := min 65536 (t.bucket + t.actJ / 2 ^ 16) } else t
  let t := { t with strgCredit := min (t.strgAct / 2 ^ 16 * 1000) (t.strgCredit + t.strgAct % 2 ^ 16) }
  admitEpoch t

/-- Jobs that wait for admission credit are judged in acceptance order (R362). -/
def admitWaiters (s : State) : State :=
  ((s.jobs.filter (fun j => waitsCredit j.seat j)).map (·.id)).foldl engGo s

/-- A bay at a boundary: the round slots it has completed are its rate (R214), and the reads of the epoch, if any, give its mean latency (R381). -/
def bayEpoch (slots : List (Nat × Nat)) (s : State) (b : Nat) : State :=
  s.modBay b (fun x => { x with rate := some (tabGet 0 (slots.map (fun p => (p.1 % 64, p.2))) b)
                                latency := if x.reads = 0 then x.latency else x.readNs / x.reads, reads := 0, readNs := 0 })

/-- One seat at a boundary, with the words `w` that were written before its stamp (R548); what has been written since waits for the following boundary. -/
def seatBoundary (w : EpochWords) (t : Seat) : Seat :=
  let u := seatEpoch { t with shareW := w.shareW, shareJ := w.shareJ, shareK := w.shareK, strg := w.strg, admitW := w.admitW }
  { u with shareW := t.shareW, shareJ := t.shareJ, shareK := t.shareK, strg := t.strg, admitW := t.admitW }

/-- EPOCH_BOUNDARY (R144, R548): values written before the boundary come into force, credits grow, bays report their round slots, schedules above a reduced quota go
(R145). -/
def epochBoundary (s : State) (slots : List (Nat × Nat)) : State :=
  if !s.up || !s.due s.time.epochDue then s
  else
    let l := s.place.latch.getD (epochWords s)
    let s := { s with
      time := { s.time with epochDue := s.time.epochDue + 1000 * nsUnit }
      seats := tabMap {} s.seats (fun k t => seatBoundary (tabGet {} l.seats k) t)
      place := { s.place with act := l.place, latch := none }
      engines := { s.engines with inForce := l.floor } }
    let s := (List.range 64).foldl (bayEpoch slots) s
    admitWaiters (trimAll s)

def execEpochBoundary (slots : List (Nat × Nat)) (s : State) : Out := ok (carryAll (epochBoundary s slots))

-- Wing power ----------------------------------------------------------------------------------------------------------------

/-- A job is queued or running in the wing, or what it has written from there is not acknowledged (R33, R342). -/
def wingBusy (s : State) (w : Nat) : Bool :=
  s.jobs.any (fun j => jobWing j == some w || (j.ranIn == some w && writesOut s j.id)) || (s.engine w).wiping.isSome || (s.engine w).stageWipe.isSome

/-- MIN_WINGS, 9 to 15 acting as 8 (R234). -/
def minWings (s : State) : Nat := min 8 (bits s.place.act.gate 19 16)

def wingsOn (s : State) : Nat := ((List.range 8).filter (fun w => (s.wing w).power == 2)).length

/-- As time passes, a wing that is ON and has work is idle from no earlier than now (R224). -/
def idleTick (s : State) : State :=
  (List.range 8).foldl (fun s w => if (s.wing w).power == 2 && wingBusy s w then s.modWing w (fun x => { x with idleAt := s.mono }) else s) s

/-- WING_IDLE: ON to DRAINING (R224). -/
def wingIdle (s : State) (w : Nat) : State :=
  let x := s.wing w
  if s.serving && x.power == 2 && !wingBusy s w && s.due (x.idleAt + s.place.act.gate % 256 * 1000 * nsUnit) && s.place.act.ctrl.testBit 1
      && decide (minWings s < wingsOn s) then
    s.modWing w (fun x => { x with power := 3 })
  else s

def execWingIdle (wing : Nat) (s : State) : Out := ok (fin (wingIdle s (wing % 8)))

/-- WING_GATED: the erasure of R33 is complete; the wing's cache slices are gone. -/
def wingGated (s : State) (w : Nat) : State :=
  if s.up && (s.wing w).power == 3 then
    (List.range 8).foldl (fun s i => wipeBay s (8 * w + i)) (s.modWing w (fun x => { x with power := 0 }))
  else s

def execWingGated (wing : Nat) (s : State) : Out := ok (carryAll (wingGated s (wing % 8)))

/-- The waits of the eligible bays of a job's class in the ON wings are all above WAKE_US (R225). -/
def crowded (s : State) (j : Job) : Bool :=
  let l := (List.range 64).filter (fun b => eligible s j b && (s.wing (b / 8)).power == 2)
  l.all (fun b => decide (bits s.place.act.gate 15 8 * 1000000 < waitPs s b s.nextJob))

/-- Jobs of a class that uses bays, at the dispatcher or queued. -/
def bayJobs (s : State) : List Job :=
  s.jobs.filter (fun j => j.outcome.isNone && (j.isSym || j.isDig || j.pkt.isSome || j.opcode == 0x70 || j.opcode == 0x71) && (match j.phase with
    | .held => true
    | .queuedBay _ => true
    | _ => false))

/-- A job waits in the wing. -/
def placedIn (s : State) (w : Nat) : Bool := s.jobs.any (fun j => j.outcome.isNone && jobWing j == some w)

/-- The wake condition of R225 holds for a gated wing that is not excluded. -/
def wakes (s : State) (w : Nat) : Bool :=
  s.wingOk w && (s.wing w).power == 0 && (placedIn s w || decide (wingsOn s < minWings s) || (bayJobs s).any (crowded s))

/-- A countermeasure generator takes a fresh seed (R250); while its instance does not serve it runs on its last one (log entry 50). -/
def reseedBay (s : State) (b : Nat) : State :=
  if !s.bayOk b then s
  else
    match tryDraw s 0 48 with
    | some r => r.1.modBay b (fun x => { x with seed := r.2 })
    | none => s

def reseedWing (s : State) (w : Nat) : State := (List.range 8).foldl (fun s i => reseedBay s (8 * w + i)) s

/-- Start step 9 wakes the wings of its plan, lowest first (R98, R103). -/
def stepWakes (s : State) (w : Nat) : Bool := s.start.running == some 9 && s.start.plan9.testBit w && (s.wing w).power == 0

/-- A wing is woken. -/
def wakeWing (s : State) (w : Nat) : State :=
  let s := s.modWing w (fun x => { x with power := 1, wokenAt := s.mono })
  { s with place := { s.place with lastWake := some s.mono } }

/-- WING_WAKE: the lowest wing that qualifies, none other woken in the last 2 us (R98, R224, R225). The wakes of start step 9 are not counted in
PLC_CNT_WAKE, which the manual does not say (DESIGN CHOICE, log entry 94). -/
def wingWake (s : State) (w : Nat) : State :=
  let free := match s.place.lastWake with
    | some t => s.due (t + 2000 * nsUnit)
    | none => true
  if !s.up || s.alarms.verifying || !free then s
  else if s.serving && (List.range 8).find? (wakes s) == some w then
    let s := wakeWing s w
    reseedWing { s with place := { s.place with cntWake := wrapInc 32 s.place.cntWake } } w
  else if (List.range 8).find? (stepWakes s) = some w then wakeWing s w
  else s

def execWingWake (wing : Nat) (s : State) : Out := ok (carryAll (wingWake s (wing % 8)))

/-- WING_WAKE_DONE: 2 us elapsed (R224). -/
def wingWakeDone (s : State) (w : Nat) : State :=
  if s.up && (s.wing w).power == 1 && s.due ((s.wing w).wokenAt + 2000 * nsUnit) then s.modWing w (fun x => { x with power := 2, idleAt := s.mono }) else s

def execWingWakeDone (wing : Nat) (s : State) : Out := ok (carryAll (wingWakeDone s (wing % 8)))

-- Advertisement and reseed --------------------------------------------------------------------------------------------------

/-- This block accepts relayed jobs: READY, no class A alarm, an engine in service (log entry 46). -/
def acceptsRelayed (s : State) : Bool := s.ready && !s.alarms.aActive && engines s != []

/-- ADVERTISEMENT: every 1 us, the earliest estimated start for each class, the floor and whether relayed jobs are accepted (R228), on every keyed hop (R476). -/
def advertise (s : State) : State :=
  if !s.up || !s.due s.time.advDue then s
  else
    let s := { s with time := { s.time with advDue := s.time.advDue + 1000 * nsUnit } }
    let t := match bestEngine s with
      | some w => engWait s w
      | none => 0
    sendBoth s (.adv [(3, t), (4, t)] s.engines.inForce (acceptsRelayed s))

def execAdvertisement (s : State) : Out := ok (fin (advertise s))

/-- COUNTERMEASURE_RESEED: every 1 ms the generators of the bays in ON and WAKING wings, and the key store's (R250, R409). -/
def countermeasures (s : State) : State :=
  if !s.up || !s.due s.time.reseedDue then s
  else
    let s := { s with time := { s.time with reseedDue := s.time.reseedDue + 1000000 * nsUnit } }
    let s := (List.range 8).foldl (fun s w => if (s.wing w).power = 1 ∨ (s.wing w).power = 2 then reseedWing s w else s) s
    match tryDraw s 0 48 with
    | some r => r.1.modKeys (fun k => { k with maskSeed := r.2 })
    | none => s

def execCountermeasureReseed (s : State) : Out := ok (fin (countermeasures s))

-- Registers -----------------------------------------------------------------------------------------------------------------

def satCount (l : List Job) : Nat := min 65535 l.length

def bayStatus (s : State) (b : Nat) : Nat :=
  flag (s.bay b).retired 31 + flag (isGuarded b) 30 + (s.keys.scheds.filter (fun c => c.bay == b)).length * 2 ^ 16
    + satCount (s.jobs.filter (fun j => jobBay j == some b))

def plcReg (s : State) (off : Nat) : Nat :=
  let p := s.place
  let k := off % 0x10000 / 4
  match off with
  | 0x30000 => p.set.ctrl
  | 0x30004 => p.set.rehome
  | 0x30008 => p.set.gate
  | 0x3000C => p.set.preempt
  | 0x30010 => p.set.hop
  | 0x30014 => p.set.relay
  | 0x30018 => (List.range 8).foldl (fun n w => n + (s.wing w).power * 4 ^ w) 0
  | 0x30020 => p.cntRelayOut
  | 0x30024 => p.cntRelayIn
  | 0x30028 => p.cntRehome
  | 0x3002C => p.cntPreempt
  | 0x30030 => p.cntWake
  | _ =>
    if off % 4 ≠ 0 then 0
    else if 0x30080 ≤ off ∧ off < 0x30100 then tabGet 0 p.deny (k - 0x20)
    else if 0x30100 ≤ off ∧ off < 0x30200 then bayStatus s (k - 0x40)
    else if 0x30200 ≤ off ∧ off < 0x30220 then flag (s.engine (k - 0x80)).running.isSome 31 + satCount (engQueue s (k - 0x80))
    else if 0x30400 ≤ off ∧ off < 0x30600 then (List.range 4).foldl (fun n i => n + tabGet 0 p.home (4 * (k - 0x100) + i) * 256 ^ i) 0
    else 0

/-- A write out of range is ignored and alarms (R235); the values come into force at the next epoch, DENY at once. -/
def plcWrite (s : State) (off : Nat) (v : W32) : State :=
  let n := v.toNat
  let put := fun (good : Bool) (f : PlcRegs → PlcRegs) =>
    if good then (let s := latchEpoch s; { s with place := { s.place with set := f s.place.set } }) else refuse s off v
  match off with
  | 0x30000 => put true (fun p => { p with ctrl := n % 8 })
  | 0x30004 => put (n % 2 ^ 16 != 0) (fun p => { p with rehome := n % 2 ^ 16 })
  | 0x30008 => put (bits n 15 8 != 0 && n % 256 != 0) (fun p => { p with gate := n % 2 ^ 20 })
  | 0x3000C => put (decide (100 ≤ n % 2 ^ 20) && decide (n % 2 ^ 20 ≤ 1000000)) (fun p => { p with preempt := n % 2 ^ 20 })
  | 0x30010 => put true (fun p => { p with hop := n })
  | 0x30014 => put (bits n 21 12 != 0) (fun p => { p with relay := n % 2 ^ 22 })
  | _ =>
    if 0x30080 ≤ off ∧ off < 0x30100 ∧ off % 4 = 0 then { s with place := { s.place with deny := tabSet 0 s.place.deny ((off - 0x30080) / 4) n } } else s

end Sys2Proof.Machine
end

