-- ==== Sys2Proof/Machine/Relay.lean ====
section
/-! DEFINITION. The relay ring (chapter 16): links, hop keying, the forming of the ring, its map, relayed jobs, time within a package, mail and
the relay registers. An incoming message comes as its contents with the verdict of its tags (log entry 30). -/

namespace Sys2Proof.Machine

def State.modRelay (s : State) (f : Relay → Relay) : State := { s with relay := f s.relay }

-- Keying --------------------------------------------------------------------------------------------------------------------

/-- Start step 11 has begun at this start: the ring's own traffic runs (log entry 53). -/
def relayOn (s : State) : Bool :=
  let o := s.start.outcomes.getD 10 0
  s.up && s.params.relayPresent && !s.alarms.aActive && (o == 1 || o == 2 || o == 5)

/-- LAK of R479. -/
def lakOf (bwk : Bytes) : Bytes := ladderKdf bwk "GXP relay auth" []

/-- The transcript digest (log entry 54): HELLO, and the key and ciphertext of REPLY. -/
def hopDigest (hello x ct : Bytes) : Bytes := hash 3 (hello ++ x ++ ct)

/-- The 96 bytes of R479. -/
def hopKeys (xs ks lak digest : Bytes) : Bytes := hkdf 3 (xs ++ ks) lak (ascii "Pysia relay hop" ++ digest) 96

/-- A confirm tag: `c` is 0x57 for W and 0x45 for E. -/
def confirmTag (keys digest : Bytes) (c : Byte) : Bytes := (hmac 3 (sliceZ keys 64 32) (digest ++ [c])).take 32

/-- Ring work is kept until the DRBG of seat 0 is READY (R409). -/
def want (s : State) (w : RWant) : State := s.modRelay (fun r => if r.wants.contains w then r else { r with wants := r.wants ++ [w] })

/-- Flits have come over a hop: their receive buffers are free again, and as many RX_CREDIT pulses go back (R85). -/
def takeFlits (s : State) (sd : Side) (n : Nat) : State := s.modHop sd (fun h => { h with rxPulses := h.rxPulses + n })

/-- The BWK when held; else NO_BWK is set (R479). -/
def needBwk (s : State) : State × Option Bytes :=
  match bwkOf s with
  | some b => (s, some b)
  | none => (s.modRelay (fun r => { r with noBwk := true }), none)

/-- HELLO is due on the east hop: link and credit held, no exchange under way, and the hop not keyed or to be keyed again. -/
def helloDue (s : State) (again : Bool) : Bool :=
  let h := s.relay.east
  relayOn s && h.link && canLeave s .east && h.hello == [] && (again || (!h.keyed && !h.broken))

/-- Send HELLO (R478): the private halves come from the DRBG of seat 0, for which it waits (R409). -/
def sendHello (s : State) (again : Bool) : State :=
  if !helloDue s again then s
  else
    match needBwk s with
    | (s, none) => s
    | (s, some _) =>
      match tryDraw s 0 96 with
      | none => want s (.hello again)
      | some r =>
        let x := sliceZ r.2 0 32
        let k := kemKeygen 0x12 (sliceZ r.2 32 32) (sliceZ r.2 64 32)
        let h := r.1.relay.east
        let ph := if h.keyed then !h.phase else h.phase
        let pub := x25519 x x25519Base
        let s := r.1.modHop .east (fun h => { h with xPriv := x, kemDk := k.2, hello := pub ++ k.1 ++ [if ph then 1 else 0], helloAt := s.mono, newPhase := ph })
        hopSend s .east s.relay.member 0xFF 0 (.hello pub k.1 ph)

/-- A confirm tag failed (R479). -/
def authFails (s : State) (sd : Side) : State :=
  let s := s.modHop sd (fun h => { h with xPriv := [], kemDk := [], hello := [], newKeys := [], digest := [], confirming := false })
  s.modRelay (fun r => { r with authFail := true, cntAuth := satInc 32 r.cntAuth })

/-- PROBE leaves on a hop (R482). -/
def sendProbe (s : State) (sd : Side) : State :=
  let s := hopSend s sd s.relay.member 0xFF 0 (.probe false s.relay.formed s.relay.leaderIs)
  if s.relay.formed then s else s.modRelay (fun r => { r with probeAt := some (r.probeAt.getD s.mono) })

/-- The OFFPKG bit of a port (R480). -/
def offpkgBit (s : State) (sd : Side) : Bool := s.relay.ctrlAct.testBit (if sd = .east then 1 else 0)

-- What members state of their hops ------------------------------------------------------------------------------------------

/-- What this member states of its side of a hop. -/
def sideMark (s : State) (sd : Side) : HopMark := { off := (s.hop sd).offpkg, down := !(s.hop sd).keyed }

/-- What a member has stated of a side. -/
def markOf (ms : List (Nat × Side × HopMark)) (m : Nat) (sd : Side) : Option HopMark :=
  (ms.find? (fun x => x.1 == m && x.2.1 == sd)).map (·.2.2)

def putMark (ms : List (Nat × Side × HopMark)) (m : Nat) (sd : Side) (v : HopMark) : List (Nat × Side × HopMark) :=
  (m, sd, v) :: ms.filter (fun x => !(x.1 == m && x.2.1 == sd))

/-- One bit of a MAP entry: of the hop's two sides, set when either has set it; a side that has stated nothing leaves it as it was. -/
def sidesBit (f : HopMark → Bool) (a b : Option HopMark) (old : Bool) : Bool :=
  match a, b with
  | some x, some y => f x || f y
  | some x, none => f x || old
  | none, some y => f y || old
  | none, none => old

/-- A MAP with the states of its hops as the members have stated them (R480, R483). -/
def markedMap (ms : List (Nat × Side × HopMark)) (es : List MapEntry) : List MapEntry :=
  (es.zip (List.range es.length)).map (fun x =>
    let a := markOf ms x.1.member .east
    let b := (es[(x.2 + 1) % es.length]?).bind (fun e => markOf ms e.member .west)
    { x.1 with eOffpkg := sidesBit (·.off) a b x.1.eOffpkg, eBroken := sidesBit (·.down) a b x.1.eBroken })

/-- The leader notes what it knows of its own sides. -/
def noteOwn (s : State) : State :=
  s.modRelay (fun r => { r with marks := putMark (putMark r.marks r.member .east (sideMark s .east)) r.member .west (sideMark s .west) })

/-- A MAP in which entries `p` and the one before it say what this member states of its sides, and nothing else is said. -/
def ownReport (s : State) (es : List MapEntry) (p : Nat) : List MapEntry :=
  let n := es.length
  (es.zip (List.range n)).map (fun x =>
    if x.2 = p then { x.1 with eOffpkg := (sideMark s .east).off, eBroken := (sideMark s .east).down }
    else if (x.2 + 1) % n = p then { x.1 with eOffpkg := (sideMark s .west).off, eBroken := (sideMark s .west).down }
    else { x.1 with eOffpkg := false, eBroken := false })

/-- The member states its sides to the leader, in a MAP message addressed to it (DESIGN CHOICE, log entry 56): by its route, or, where its MAP shows none, over the
hop `sd`. -/
def tellLeader (s : State) (sd : Side) : State :=
  match mapPos s.relay.map s.relay.member with
  | none => s
  | some p =>
    let msg : RMsg := .map (ownReport s s.relay.map p)
    match routeTo s s.relay.leaderIs with
    | some (_, way) => hopSend s way s.relay.member s.relay.leaderIs 0 msg
    | none => hopSend s sd s.relay.member s.relay.leaderIs 0 msg

/-- A MAP entry differs from what this member states of its sides. -/
def misstated (s : State) (es : List MapEntry) : Bool :=
  match mapPos es s.relay.member with
  | none => false
  | some p =>
    let n := es.length
    let differs := fun (e : Option MapEntry) (k : HopMark) => e.any (fun e => e.eOffpkg != k.off || e.eBroken != k.down)
    differs es[p]? (sideMark s .east) || differs es[(p + n - 1) % n]? (sideMark s .west)

/-- A hop is keyed (R479 to R481): both directions run under the new phase from SEQ 0; the old phase is accepted for messages in flight. On a
hop that was not keyed the echoes and PROBE follow. -/
def keyHop (s : State) (sd : Side) (keys : Bytes) (ph : Bool) : State :=
  let again := (s.hop sd).keyed
  let e := sliceZ keys 0 32
  let w := sliceZ keys 32 32
  let s := s.modHop sd (fun h =>
    { h with keyed := true, broken := false, phase := ph, sendKey := if sd = .east then e else w, recvKey := if sd = .east then w else e, newKeys := []
             digest := [], confirming := false, keyedAt := s.time.secure, txSeq := 0, rxSeq := 0, oldPhase := if again then some h.rxSeq else none
             lastRx := s.mono, xPriv := [], kemDk := [], hello := [], echoes := 0, best := 0, offpkg := offpkgBit s sd })
  let s := (List.range 16).foldl (fun s _ => hopSend s sd s.relay.member 0xFF 0 .echo) s
  if again then s else sendProbe s sd

/-- A HELLO is kept for later, in place of one kept before. -/
def keepHello (s : State) (x ek : Bytes) (ph : Bool) : State :=
  s.modRelay (fun r => { r with wants := r.wants.filter (fun w => !(w matches .answer _ _ _)) ++ [.answer x ek ph] })

/-- HELLO arrives at the west port: REPLY with the west side's halves and tag W, once the DRBG of seat 0 serves (R409). One that comes while the hops are not keyed,
before step 11 or in a class A alarm, is answered when they are (R489). -/
def takeHello (s : State) (x ek : Bytes) (ph : Bool) : State :=
  if relayStalled s || !s.relay.west.link || !kemEkOk 0x12 ek then s
  else if !relayOn s then keepHello s x ek ph
  else
    match needBwk s with
    | (s, none) => s
    | (s, some b) =>
      match tryDraw s 0 64 with
      | none => want s (.answer x ek ph)
      | some r =>
        let d := sliceZ r.2 0 32
        let kem := kemEncaps 0x12 ek (sliceZ r.2 32 32)
        let pub := x25519 d x25519Base
        let dg := hopDigest (x ++ ek ++ [if ph then 1 else 0]) pub kem.2
        let keys := hopKeys (x25519 d x) kem.1 (lakOf b) dg
        let s := r.1.modHop .west (fun h => { h with newKeys := keys, digest := dg, newPhase := ph, confirming := true })
        hopSend s .west s.relay.member 0xFF 0 (.reply pub kem.2 (confirmTag keys dg 0x57))

/-- A message comes while RLCLK runs (R59): its flits' buffers are given back, and `f` takes it. -/
def arrive (s : State) (sd : Side) (flits : Nat) (f : State → State) : State :=
  if !s.up || relayStalled s || !(s.hop sd).link then s else f (takeFlits s sd flits)

def execHello (x25519 mlkem : Bytes) (phase : Bool) (s : State) : Out :=
  ok (fin (arrive s .west (rmsgFlits (.hello x25519 mlkem phase)) (takeHello · x25519 mlkem phase)))

-- Time within a package -----------------------------------------------------------------------------------------------------

/-- Position of this member, and whether the hop east of a position joins its ends inside a package. -/
def ownPos (s : State) : Nat := (mapPos s.relay.map s.relay.member).getD 0

def joined (es : List MapEntry) (p : Nat) : Bool :=
  match es[p % es.length]? with
  | some e => !e.eBroken && !e.eOffpkg
  | none => false

/-- Master of the run this member belongs to (R490): a run ends where a hop is off-package, so packages share no master (R47). -/
def isMaster (s : State) : Bool :=
  let es := s.relay.map
  let n := es.length
  if (List.range n).all (joined es) then es.all (fun e => decide (s.relay.member ≤ e.member)) else !joined es (ownPos s + n - 1)

/-- The role of this member under a new map (R490, R492). -/
def setRole (s : State) : State :=
  if !s.relay.formed then s
  else if isMaster s then
    let was := s.time.follower
    let s := { s with time := { s.time with follower := false }, relay := { s.relay with pkgMaster := true, timeSeen := false } }
    if was then vector (alarmC s 0x4C s.relay.member 0) 6 else s
  else
    let new := !s.time.follower
    { s with time := { s.time with follower := true }
             relay := { s.relay with pkgMaster := false, timeSeen := s.relay.timeSeen && !new, lastTime := if new then s.mono else s.relay.lastTime } }

/-- A hop counts as off-package when either side has set its bit (R480): this side's bit, or the other side's as the MAP tells it. -/
def hopOff (s : State) (sd : Side) : Bool :=
  let n := s.relay.map.length
  (s.hop sd).offpkg || (s.relay.map[if sd = .east then ownPos s else (ownPos s + n - 1) % n]?).any (fun e => s.relay.formed && e.eOffpkg)

/-- TIME_SEND: every 1 us the master sends its stage time east along its run (R491). -/
def timeSend (s : State) : State :=
  if !s.up || !s.time.runs || !s.due s.time.timeDue then s
  else
    let s := { s with time := { s.time with timeDue := s.time.timeDue + 1000 * nsUnit } }
    if s.relay.formed && s.relay.pkgMaster && !hopOff s .east then hopSend s .east s.relay.member 0xFF 0 (.time s.stamp) else s

def execTimeSend (s : State) : Out := ok (fin (timeSend s))

/-- Hops from the master of the run to this member: joined hops going west from it, at most a whole round of the ring. -/
def westRun (es : List MapEntry) : Nat → Nat → Nat
  | 0, _ => 0
  | f + 1, p => if joined es (p + es.length - 1) then 1 + westRun es f (p + es.length - 1) else 0

/-- k of R491: the master is the west end of the run, or the lowest number of one that closes on itself. -/
def masterHops (s : State) : Nat :=
  let es := s.relay.map
  let n := es.length
  if (List.range n).all (joined es) then
    let low := (es.map (·.member)).foldl min 255
    (ownPos s + n - (mapPos es low).getD 0) % max 1 n
  else westRun es n (ownPos s)

/-- The rate a follower sets: its own, a free value, of the sign that brings it back to its master (log entry 55). -/
def ownRate (free : Nat) (d : Int) : Int :=
  let r : Int := (free % (2 ^ 38 + 1) : Nat)
  if d < 0 then -r else r

/-- A follower steers by a value of the master's stage time now (R491): it steps with the first one, and with one that differs by more than the 8 ns × k within
which it keeps, as only a step of the master can make it (log entry 55); else it sets its own rate. -/
def steer (s : State) (value : Stamp) : State :=
  let d := (value : Int) - s.stamp
  let near : Int := 8 * masterHops s * nsUnit
  let first := !s.relay.timeSeen
  let s := s.modRelay (fun r => { r with timeSeen := true, lastTime := s.mono })
  if first || decide (near < d) || decide (d < -near) then applyStep s d
  else
    let f := takeFree s
    { f.1 with time := { f.1.time with rate := ownRate f.2 d } }

/-- TIME_LOSS: a follower that has had no TIME for 10 us goes on at its last rate (R492). -/
def timeLoss (s : State) : State :=
  if s.up && s.time.follower && s.past (s.relay.lastTime + 10000 * nsUnit) then s.modRelay (fun r => { r with lastTime := s.mono }) else s

def execTimeLoss (s : State) : Out := ok (timeLoss s)

-- Map -----------------------------------------------------------------------------------------------------------------------

/-- Another member of the ring can be reached. -/
def reached (s : State) (m : Nat) : Bool := (routeBetween s s.relay.member m).isSome

/-- One job that is away at such a member. -/
def loseAwayOf (p : Nat → Bool) (s : State) (j : Job) : State :=
  match j.phase with
  | .away m tag => if p m then sendTo (stop s j.id stTimeout 0x10) m (.cancel [tag]) else s
  | _ => s

/-- Jobs away for which `p` of the member holds complete with TIMEOUT 0x10, and are cancelled (R488). -/
def loseAway (s : State) (p : Nat → Bool) : State :=
  s.jobs.foldl (loseAwayOf p) s

/-- A relayed-in job is dropped (R487): from a queue, or from the input stage, whose region is wiped (R320); past RS it runs to release and sends no DONE. -/
def dropRelayed (s : State) (j : Job) : State :=
  let runs := s.engines.eng.any (fun p => p.2.running == some j.id)
  if runs || j.outcome.isSome then s.modJob j.id (fun j => { j with silent := true }) else (engineLeave s j.id).dropJob j.id

/-- One job that came from such an origin. -/
def dropOriginOf (p : Nat → Nat → Bool) (s : State) (j : Job) : State :=
  match j.src with
  | .relayed origin tag => if p origin tag then dropRelayed s j else s
  | _ => s

/-- Relayed-in jobs of origins for which `p` holds, and of a tag list when one is given. -/
def dropOrigin (s : State) (p : Nat → Nat → Bool) : State :=
  s.jobs.foldl (dropOriginOf p) s

/-- What a new map does here: jobs away at members out of the ring, jobs of such origins, a mail in part, the role, vector 7. -/
def newMap (s : State) (es : List MapEntry) : State :=
  let m := s.relay.member
  let s := s.modRelay (fun r => { r with map := es, formed := es.any (fun e => e.member == m), leader := (es.head?.map (·.member)) == some m
                                         leaderIs := (es.head?.map (·.member)).getD r.leaderIs, identity := none, electSent := false, probeAt := none })
  let s := dropOrigin (loseAway s (fun k => !reached s k)) (fun o _ => !reached s o)
  let s := if reached s s.relay.mailDst then s else mailBreak s
  let s := if !s.relay.inboxFull && !reached s s.relay.sender then s.modRelay (fun r => { r with part := 0, got := 0, partPath := [] }) else s
  vector (setRole s) 7

/-- The leader sends its map on both hops (R483), with the states of the hops as they have been stated to it. -/
def sendMap (s : State) (es : List MapEntry) : State :=
  let s := noteOwn s
  let es := markedMap s.relay.marks es
  newMap (sendBoth (s.modRelay (fun r => { r with map := es })) (.map es)) es

/-- The leader's MAP is sent anew when what is stated of the hops changes it (R483). -/
def renewMap (s : State) : State :=
  let s := noteOwn s
  if markedMap s.relay.marks s.relay.map = s.relay.map then s else sendMap s s.relay.map

/-- A hop of a member of a formed ring is keyed again, or its OFFPKG bit has changed: the leader's MAP says so (R480, R483). -/
def stateHops (s : State) (sd : Side) : State :=
  if !s.relay.formed then s else if s.relay.leader then renewMap s else tellLeader s sd

/-- A hop has been keyed: on one that was not, a formed ring is told of it (R483). -/
def keyedHop (s : State) (sd : Side) (keys : Bytes) (ph : Bool) : State :=
  let again := (s.hop sd).keyed
  let s := keyHop s sd keys ph
  if again then s else stateHops s sd

/-- REPLY arrives at the east port: CONFIRM, and the hop is keyed. -/
def takeReply (s : State) (x ct w : Bytes) : State :=
  let h := s.relay.east
  match bwkOf s with
  | some b =>
    if !relayOn s || !h.link || h.hello == [] then s
    else
      let dg := hopDigest h.hello x ct
      let keys := hopKeys (x25519 h.xPriv x) (kemDecaps 0x12 h.kemDk ct) (lakOf b) dg
      if confirmTag keys dg 0x57 ≠ w then authFails s .east
      else keyedHop (hopSend s .east s.relay.member 0xFF 0 (.confirm (confirmTag keys dg 0x45))) .east keys h.newPhase
  | none => s

def execReply (x25519 ciphertext confirmW : Bytes) (s : State) : Out :=
  ok (carryAll (arrive s .east (rmsgFlits (.reply x25519 ciphertext confirmW)) (takeReply · x25519 ciphertext confirmW)))

/-- What this member knows of its own hops, put into the MAP it holds. -/
def markOwn (s : State) (es : List MapEntry) : List MapEntry :=
  match mapPos es s.relay.member with
  | none => es
  | some p =>
    let n := es.length
    (es.zip (List.range n)).map (fun x =>
      let e := x.1
      let e := if x.2 = p then { e with eOffpkg := e.eOffpkg || s.relay.east.offpkg, eBroken := !s.relay.east.keyed } else e
      if (x.2 + 1) % n = p then { e with eOffpkg := e.eOffpkg || s.relay.west.offpkg, eBroken := e.eBroken || !s.relay.west.keyed } else e)

/-- Entries from position `p` on, so that the member there comes first. -/
def rotateMap (es : List MapEntry) (p : Nat) : List MapEntry := es.drop p ++ es.take p

/-- When the leader is out of the ring, the reachable member with the lowest number leads (R483). -/
def actLeader (s : State) : State :=
  if s.relay.leader then s
  else if reached s s.relay.leaderIs then s
  else if s.relay.map.all (fun e => decide (s.relay.member ≤ e.member) || !reached s e.member) then sendMap s (rotateMap s.relay.map (ownPos s)) else s

/-- One job away, whose path may have used the hop east of a member. -/
def loseByHop (m : Nat) (s : State) (j : Job) : State :=
  match j.phase with
  | .away d tag => if j.path.contains m then sendTo (stop s j.id stTimeout 0x10) d (.cancel [tag]) else s
  | _ => s

/-- Both members at the ends of a hop east of position `p` count as having stated it broken, until they state otherwise. -/
def markBroken (s : State) (p : Nat) : State :=
  let es := s.relay.map
  let put := fun (ms : List (Nat × Side × HopMark)) (q : Nat) (sd : Side) => match es[q % es.length]? with
    | some e => putMark ms e.member sd { off := (markOf ms e.member sd).any (·.off), down := true }
    | none => ms
  s.modRelay (fun r => { r with marks := put (put r.marks p .east) (p + 1) .west })

/-- A break of the hop east of a position (R488, R493): jobs whose outbound or return path used it, a mail that used it at either end, the leader's new map. -/
def onBreak (s : State) (p : Nat) : State :=
  let es := (s.relay.map.zip (List.range s.relay.map.length)).map (fun x => if x.2 = p then { x.1 with eBroken := true } else x.1)
  let m := ((s.relay.map[p]?).map (·.member)).getD 0xFF
  let s := s.modRelay (fun r => { r with map := es })
  let s := s.jobs.foldl (loseByHop m) s
  let s := if s.relay.mailBusy && s.relay.mailPath.contains m then mailEnd s 3 else s
  let s := if !s.relay.inboxFull && s.relay.partPath.contains m then s.modRelay (fun r => { r with part := 0, got := 0, partPath := [] }) else s
  let s := if s.relay.leader then sendMap (markBroken s p) es else setRole (dropOrigin (loseAway s (fun k => !reached s k)) (fun o _ => !reached s o))
  actLeader s

/-- A hop is broken (R87, R476): its keys are gone, and a formed ring is told. -/
def breakHop (s : State) (sd : Side) : State :=
  let was := (s.hop sd).keyed
  let s := (unkeyHop s sd).modHop sd (fun h => { h with broken := true })
  let s := s.modRelay (fun r => { r with wants := r.wants.filter (fun w => match w with
    | .hello _ => sd != .east
    | .answer _ _ _ => sd != .west
    | _ => true) })
  if !was then s
  else
    let s := s.modRelay (fun r => { r with cntBreak := wrapInc 32 r.cntBreak })
    if !s.relay.formed then s
    else
      let n := s.relay.map.length
      let p := if sd = .east then ownPos s else (ownPos s + n - 1) % n
      onBreak (hopSend s (other sd) s.relay.member 0xFF 0 (.break_ p)) p

/-- LINK_UP falls: nothing crosses the hop until it rises, and what waited to leave is gone. -/
def linkFall (s : State) (sd : Side) : State := (breakHop s sd).modHop sd (fun h => { h with link := false, credits := 0, queue := [], txLeft := 0 })

/-- HOP_BREAK (R87): RX_ERR, or a fall of LINK_UP. -/
def execHopBreak (side : HopLoss) (s : State) : Out :=
  let sd := side.side
  ok (carryAll (whenDo (s.up && (s.hop sd).link) s (fun s => if side.linkFell then linkFall s sd else breakHop s sd)))

def execHopSilence (side : Side) (s : State) : Out :=
  ok (carryAll (whenDo (s.up && (s.hop side).keyed && s.past ((s.hop side).lastRx + 10000 * nsUnit)) s (breakHop · side)))

-- Receiving -----------------------------------------------------------------------------------------------------------------

/-- The hop accepts a message (R475, R476): its phase and SEQ, its tag, its FLITS field of 8 bits; else the hop is broken. A message on a hop that is not keyed
is not read; while RLCLK is lost none comes (R59). -/
def accept (s : State) (h : Hop) : State × Bool :=
  let s := arrive s h.side (h.flits % 256) id
  let c := s.hop h.side
  let expect := if h.phase = c.phase then some c.rxSeq else c.oldPhase
  if !s.up || relayStalled s || !c.link || !c.keyed then (s, false)
  else if h.flits % 256 = 0 ∨ !h.tagOk ∨ expect ≠ some h.seq then
    let s := if h.tagOk then s else s.modRelay (fun r => { r with cntAuth := satInc 32 r.cntAuth })
    (breakHop s h.side, false)
  else
    (s.modHop h.side (fun c => if h.phase = c.phase then { c with rxSeq := c.rxSeq + 1, lastRx := s.mono, oldPhase := none }
      else { c with oldPhase := some (h.seq + 1), lastRx := s.mono }), true)

/-- Pass a message on in its direction of travel (R477). -/
def forward (s : State) (h : Hop) (msg : RMsg) : State :=
  if 255 ≤ h.hops + 1 then s else hopSend s (other h.side) h.src h.dst (h.hops + 1) msg

/-- A message accepted on its hop: removed when it carries this member's own SRC, members without a number sharing 0xFF; acted on when it is for this member or for
all; passed on when it is for another or for all. -/
def receive (s : State) (h : Hop) (msg : RMsg) (f : State → State) : State :=
  match accept s h with
  | (s, false) => s
  | (s, true) =>
    if h.src = s.relay.member then s
    else
      let mine := h.dst == 0xFF || h.dst == s.relay.member
      let s := if h.dst = 0xFF ∨ h.dst ≠ s.relay.member then forward s h msg else s
      if mine then f s else s

/-- A message that its own rule passes on (ELECT, NUMBER, TIME). -/
def receiveHere (s : State) (h : Hop) (f : State → State) : State :=
  match accept s h with
  | (s, false) => s
  | (s, true) => f s

-- Links ---------------------------------------------------------------------------------------------------------------------

/-- LINK_UP rises (R85, R478): no credits are held, and 128 credit pulses go back, one for each receive buffer; on a hop that was keyed the rise
follows a fall, which breaks it. -/
def linkRise (s : State) (sd : Side) : State :=
  if !s.up || !s.params.relayPresent then s
  else
    let s := if (s.hop sd).keyed then breakHop s sd else s
    s.modHop sd (fun h => { h with link := true, upAt := s.mono, credits := 0, queue := [], txLeft := 0, rxPulses := 128 })

def execLinkUp (side : Side) (s : State) : Out := ok (fin (linkRise s side))

/-- CREDIT_RETURN (R85): one buffer more; messages that wait leave, and keying starts once credits arrive. -/
def creditIn (s : State) (sd : Side) : State :=
  if !s.up || relayStalled s || !(s.hop sd).link then s
  else sendHello (hopDrain (s.modHop sd (fun h => { h with credits := h.credits + 1 })) sd) false

def execCreditReturn (side : Side) (s : State) : Out := ok (fin (creditIn s side))

/-- HOP_REKEY_DUE (R481): the east side starts the exchange under the other phase. -/
def rekeyDue (s : State) (sd : Side) : State :=
  let h := s.hop sd
  if sd = .east && h.keyed && (decide (2 ^ 32 ≤ h.txSeq) || decide (2 ^ 32 ≤ h.rxSeq) || decide (h.keyedAt + 3600000000000 ≤ s.time.secure)) then sendHello s true else s

def execHopRekeyDue (side : Side) (s : State) : Out := ok (fin (rekeyDue s side))

/-- A HELLO has had no answer within the 300 us of R478: HELLO 100 us, REPLY 200 us. -/
def helloLost (s : State) (sd : Side) : Bool := sd == .east && (s.hop sd).hello != [] && !(s.hop sd).keyed && s.past ((s.hop sd).helloAt + 300000 * nsUnit)

/-- BROKEN_HOP_REKEY (R481): LINK_UP has been high for 10 us; the east side sends HELLO, the west side may be keyed again. An exchange that the neighbour has not
answered in time is begun afresh, which the manual does not say (DESIGN CHOICE, log entry 126). -/
def brokenRekey (s : State) (sd : Side) : State :=
  let h := s.hop sd
  if relayOn s && (h.broken || helloLost s sd) && h.link && s.due (h.upAt + 10000 * nsUnit) then
    sendHello (s.modHop sd (fun h => { h with broken := false, hello := if h.keyed then h.hello else [], xPriv := if h.keyed then h.xPriv else [], kemDk := if h.keyed then h.kemDk else [] })) false
  else s

def execBrokenHopRekey (side : Side) (s : State) : Out := ok (fin (brokenRekey s side))

/-- CONFIRM arrives at the west port (R479). -/
def takeConfirm (s : State) (e : Bytes) : State :=
  let h := s.relay.west
  if !relayOn s || !h.confirming then s
  else if confirmTag h.newKeys h.digest 0x45 ≠ e then authFails s .west
  else keyedHop s .west h.newKeys h.newPhase

def execConfirm (confirmE : Bytes) (s : State) : Out := ok (carryAll (arrive s .west (rmsgFlits (.confirm confirmE)) (takeConfirm · confirmE)))

/-- The header of an ECHO; it is for the neighbour alone. -/
def echoHop (e : EchoRx) (sd : Side) : Hop :=
  { side := sd, flits := e.flits, phase := e.phase, seq := e.seq, tagOk := e.tagOk, src := 0xFF, dst := 0xFF, hops := 0 }

/-- ECHO once taken (R480): one of the neighbour's is sent back; one of this side's has come back after a round trip. -/
def echoHere (s : State) (sd : Side) (returned : Bool) (ns : Nat) : State :=
  if !returned then hopSend s sd s.relay.member 0xFF 0 .echo
  else s.modHop sd (fun h =>
    let best := if h.echoes = 0 then ns else min h.best ns
    { h with echoes := h.echoes + 1, best := best, latency := if h.echoes + 1 = 16 then best / 2 else h.latency })

def execEcho (side : Side) (returned : EchoRx) (roundTripNs : Nat) (s : State) : Out :=
  ok (carryAll (receiveHere s (echoHop returned side) (fun s => echoHere s side returned.returned roundTripNs)))

-- Forming -------------------------------------------------------------------------------------------------------------------

/-- PROBE once taken: the first answer of a formed ring is joined (R482). -/
def probeHere (s : State) (h : Hop) (isAnswer formed : Bool) (leader : Nat) : State :=
  if !isAnswer then (if s.relay.formed then hopSend s h.side s.relay.member 0xFF 0 (.probe true true s.relay.leaderIs) else s)
  else if formed && !s.relay.formed then
    let asked := s.relay.east.probed || s.relay.west.probed
    let s := (s.modHop h.side (fun c => { c with probed := true })).modRelay (fun r => { r with leaderIs := leader })
    if asked then s else hopSend (s.modRelay (fun r => { r with rejoin := false })) h.side 0xFF leader 0 (.join false false s.relay.member [])
  else s

/-- PROBE (R477, R482): a member of a formed ring answers; the answer of one makes this member ask to join; members pass it on as any message for all. -/
def probeIn (s : State) (h : Hop) (isAnswer formed : Bool) (leader : Nat) : State :=
  receive s h (.probe isAnswer formed leader) (fun s => probeHere s h isAnswer formed leader)

def execProbe (hop : Hop) (isAnswer formed : Bool) (leader : Nat) (s : State) : Out := ok (carryAll (probeIn s hop isAnswer formed leader))

/-- Draw a candidate identity: NODE_ID over 48 random bits. -/
def drawIdentity (s : State) : Option (State × Nat) := (tryDraw s 0 6).map (fun r => (r.1, s.relay.ctrlAct / 2 ^ 16 * 2 ^ 48 + beNat r.2))

/-- This member's identity in the election, drawn once. -/
def ownIdentity (s : State) : Option (State × Nat) :=
  match s.relay.identity with
  | some n => some (s, n)
  | none =>
    match drawIdentity s with
    | none => none
    | some x => some (x.1.modRelay (fun r => { r with identity := some x.2 }), x.2)

/-- This member's own ELECT leaves east. -/
def sendElect (s : State) (identity : Nat) : State :=
  let s := s.modRelay (fun r => { r with electSent := true })
  hopSend s .east s.relay.member 0xFF 0 (.elect identity)

/-- ELECTION_START: 1 ms after its PROBE on two keyed hops, no formed ring having answered (R482). -/
def electionStart (s : State) : State :=
  let r := s.relay
  let late := match r.probeAt with
    | some t => s.past (t + 1000000 * nsUnit)
    | none => false
  if relayOn s && !r.formed && r.east.keyed && r.west.keyed && !r.east.probed && !r.west.probed && !r.electSent && late then
    match ownIdentity s with
    | some x => sendElect x.1 x.2
    | none => want s .start
  else s

def execElectionStart (s : State) : Out := ok (fin (electionStart s))

/-- This member has won: it is the leader and member 0, and draws RK (R482 step 3). -/
def becomeLeader (s : State) : State :=
  match tryDraw s 0 32 with
  | none => want s .lead
  | some r =>
    let s := r.1.modRelay (fun x => { x with member := 0, leader := true, leaderIs := 0, rk := r.2, sealNo := 0 })
    hopSend s .east 0 0xFF 0 (.number 1)

/-- ELECT once taken (R482). Of two members with equal identities each removes the other's, so that neither comes back and the election does not close (R494). -/
def electHere (s : State) (h : Hop) (identity : Candidate) : State :=
  if s.relay.formed then s
  else
    match ownIdentity s with
    | none => want s (.elect h identity)
    | some (s, own) =>
      let s := s.modRelay (fun r => { r with rejoin := r.rejoin || r.east.probed || r.west.probed })
      if identity.value < own then forward s h (.elect identity.value)
      else if !s.relay.electSent then sendElect s own
      else if identity.value = own && identity.own then becomeLeader s
      else s

/-- ELECT (R482): removed by a formed ring; the own one returned makes a leader; a lower one is forwarded; a higher one is removed, and the own one
sent if it has not been. -/
def electIn (s : State) (h : Hop) (identity : Candidate) : State := receiveHere s h (fun s => electHere s h identity)

def execElect (hop : Hop) (identity : Candidate) (s : State) : Out := ok (carryAll (electIn s hop identity))

/-- Ring work that has waited is tried again (R409). -/
def tryWant (s : State) (w : RWant) : State :=
  match w with
  | .hello again => sendHello s again
  | .answer x ek ph => takeHello s x ek ph
  | .start => electionStart s
  | .elect h identity => electHere s h identity
  | .lead => if s.relay.formed || !relayOn s then s else becomeLeader s

/-- All of it, in order. -/
def tryWants (s : State) : State := s.relay.wants.foldl tryWant (s.modRelay (fun r => { r with wants := [] }))

/-- WORD_DELIVERY (R408): what waited for an instance goes on when it is READY, ring work and a card command that waited for seat 0's included (R409). -/
def execWordDelivery (s : State) : Out := ok (carryAll (if s.up then cardGo (tryWants (wordDelivery s)) else s))

/-- NUMBER once taken (R482). -/
def numberHere (s : State) (h : Hop) (next : Nat) : State :=
  if s.relay.formed then s
  else if s.relay.leader then
    sendMap (s.modRelay (fun r => { r with marks := [] })) ((List.range (min next 255)).map (fun i => { member := i, eOffpkg := false, eBroken := false }))
  else if 254 < next then forward (s.modRelay (fun r => { r with full := true })) h (.number next)
  else forward (s.modRelay (fun r => { r with member := next, leaderIs := h.src })) h (.number (next + 1))

/-- NUMBER (R482): each member takes the number and passes on the next; back at the leader it closes the ring, and MAP follows. -/
def numberIn (s : State) (h : Hop) (next : Nat) : State := receiveHere s h (fun s => numberHere s h next)

def execNumber (hop : Hop) (next : Nat) (s : State) : Out := ok (carryAll (numberIn s hop next))

/-- A member's statement of its sides reaches the leader (log entry 56), which sends a MAP that is changed by it. -/
def reportHere (s : State) (src : Nat) (es : List MapEntry) : State :=
  match mapPos es src with
  | none => s
  | some p =>
    let n := es.length
    let mark := fun (ms : List (Nat × Side × HopMark)) (sd : Side) (e : Option MapEntry) => match e with
      | some e => putMark ms src sd { off := e.eOffpkg, down := e.eBroken }
      | none => ms
    renewMap (s.modRelay (fun r => { r with marks := mark (mark r.marks .east es[p]?) .west es[(p + n - 1) % n]? }))

/-- A member of the ring without RK, as one that was numbered by an election, asks the leader for it (R482, R485, log entry 127). -/
def askKey (s : State) : State :=
  if s.relay.formed && !s.relay.leader && s.relay.rk == [] then sendTo s s.relay.leaderIs (.join false false s.relay.member []) else s

/-- A member that asked to join while an election ran, and is not in the ring that came of it, probes again (R494). -/
def probeAgain (s : State) : State :=
  if s.relay.formed || !s.relay.rejoin then s
  else
    let s := (s.modRelay (fun r => { r with rejoin := false })).modHop .east (fun h => { h with probed := false })
    sendProbe (sendProbe (s.modHop .west (fun h => { h with probed := false })) .east) .west

/-- MAP once taken (R483). Of two leaders that meet, the one with the lower number leads on. A member that finds its own hops misstated says so to the leader. -/
def mapHere (s : State) (h : Hop) (es : List MapEntry) : State :=
  if h.dst ≠ 0xFF then (if s.relay.leader then reportHere s h.src es else s)
  else if s.relay.leader && decide (s.relay.member < h.src) then s
  else
    let s := newMap s (markOwn s es)
    let s := if s.relay.formed && misstated s es then tellLeader s h.side else s
    askKey (probeAgain s)

/-- MAP (R477, R483): taken, and passed on; the leader removes its own that comes back. -/
def mapIn (s : State) (h : Hop) (es : List MapEntry) : State := receive s h (.map es) (fun s => mapHere s h es)

def execMap (hop : Hop) (entries : List MapEntry) (s : State) : Out := ok (carryAll (mapIn s hop entries))

/-- The lowest free member number. -/
def freeMember (es : List MapEntry) : Option Nat := (List.range 255).find? (fun m => es.all (fun e => e.member != m))

/-- A new member stands at position `p` of the MAP; what was stated of the hop it comes into is stated no more. -/
def insertMember (s : State) (es : List MapEntry) (p m : Nat) : State :=
  let n := es.length
  let before := (es[(p + n - 1) % n]?).map (·.member)
  let after := (es[p % n]?).map (·.member)
  let s := s.modRelay (fun r => { r with marks := r.marks.filter (fun x => !((some x.1 == before && x.2.1 == .east) || (some x.1 == after && x.2.1 == .west))) })
  let es := es.map (fun e => if some e.member = before then { e with eOffpkg := false, eBroken := false } else e)
  let e : MapEntry := { member := m, eOffpkg := false, eBroken := false }
  sendMap s (es.take p ++ [e] ++ es.drop p)

/-- The leader answers a JOIN (R482, R489): a former member keeps its number; a new one takes the lowest free and stands where its message came
from. A member of the ring that asks for RK alone changes no MAP (log entry 127). -/
def answerJoin (s : State) (h : Hop) (own : Nat) : State :=
  let es := s.relay.map
  let n := es.length
  let back := es.any (fun e => e.member == own)
  match (if back then some own else freeMember es) with
  | none => hopSend s h.side s.relay.member 0xFF 0 (.join true true 0xFF [])
  | some m =>
    let r := pairSeal s s.relay.member m s.relay.rk
    let s := hopSend r.1 h.side s.relay.member m 0 (.join true false m r.2)
    let p := if h.side = .east then min n (h.hops + 1) else n - min n h.hops
    if h.src ≠ 0xFF then s
    else if back then sendMap s es
    else insertMember s es p m

/-- This member waits for the answer to a JOIN, and the answer is for it: by its number, or by the one given to a member that has none (R477). -/
def joinMine (s : State) (h : Hop) (given : Nat) : Bool :=
  (if s.relay.member = 0xFF then h.dst == 0xFF || h.dst == given else h.dst == s.relay.member)
    && (if s.relay.formed then s.relay.rk == [] else s.relay.east.probed || s.relay.west.probed)

/-- JOIN (R477, R482, R494): a request reaches the leader it is addressed to and is removed during an election; one addressed to a member that leads no more is sent
on to the leader; an answer gives a number and the ring key; one that comes back to its sender is removed. What the answer carries is RK itself and the verdict of
its seal (log entry 127). -/
def joinIn (s : State) (h : Hop) (isAnswer refused : Bool) (given : Nat) (sealedRk : Bytes) (rkOk : Bool) : State :=
  match accept s h with
  | (s, false) => s
  | (s, true) =>
    let msg : RMsg := .join isAnswer refused given sealedRk
    if s.relay.member ≠ 0xFF ∧ h.src = s.relay.member then s
    else if !isAnswer then
      if !s.relay.formed then s
      else if h.dst ≠ s.relay.member then forward s h msg
      else if s.relay.leader then answerJoin s h given
      else
        match routeTo s s.relay.leaderIs with
        | some (_, sd) => hopSend s sd h.src s.relay.leaderIs (h.hops + 1) msg
        | none => s
    else if joinMine s h given then
      if refused then s.modRelay (fun r => { r with full := true })
      else if rkOk then s.modRelay (fun r => { r with member := given, rk := sealedRk, sealNo := 0, leaderIs := h.src })
      else s
    else if h.dst = s.relay.member ∧ s.relay.member ≠ 0xFF then s
    else forward s h msg

def execJoin (hop : Hop) (isAnswer refused : Bool) (given : Nat) (sealedRk : Bytes) (rkOk : Bool) (s : State) : Out :=
  ok (carryAll (joinIn s hop isAnswer refused given sealedRk rkOk))

-- Traffic -------------------------------------------------------------------------------------------------------------------

/-- ADV (R228): the latest of a member is kept. -/
def execAdv (hop : Hop) (starts : List (Nat × Nat)) (floor : Nat) (accepts : Bool) (s : State) : Out :=
  ok (fin (receive s hop (.adv starts floor accepts) (fun s =>
    { s with place := { s.place with adverts := tabSet {} s.place.adverts hop.src { starts := starts, floor := floor, accepts := accepts } } })))

/-- The DONE of a job that this member cannot run for want of its key. -/
def refuseJob (s : State) (origin : Nat) (j : RelayedJob) : State :=
  sendTo s origin (.done { tag := j.tag, status := stKeyHandle, subcode := 3, opflags := 0, result := 0, inBytes := 0, outputs := [], keyOut := [] })

/-- The key material of a JOB, opened under the pair key of its origin and this member (R485). -/
def jobKey (s : State) (origin : Nat) (j : RelayedJob) : Option Bytes := if j.key = [] then some [] else pairOpen s origin origin s.relay.member j.key

/-- JOB once taken (R486). -/
def jobHere (s : State) (h : Hop) (j : RelayedJob) : State :=
  if !acceptsRelayed s || !isEngine j.opcode then s
  else
    match jobKey s h.src j with
    | none => refuseJob s h.src j
    | some key =>
    let n : Job := { id := s.nextJob, src := .relayed h.src j.tag, opcode := j.opcode, flags := j.opflags * 256, body := j.body, acceptAt := s.stamp
                     key := key, rngMs := j.rngMs, admitted := true }
    let n := { n with got := ((inputsOf n).zip j.operands).map (fun p => (relayedKey p.1.1, 0, p.2)) }
    { s with jobs := s.jobs ++ [n], nextJob := s.nextJob + 1, place := { s.place with cntRelayIn := wrapInc 32 s.place.cntRelayIn } }

/-- JOB (R486): a job in the relay queue of this member. -/
def jobIn (s : State) (h : Hop) (j : RelayedJob) : State := receive s h (.job j) (fun s => jobHere s h j)

def execRelayJob (hop : Hop) (job : RelayedJob) (s : State) : Out := ok (carryAll (jobIn s hop job))

/-- DONE reports a run that reached row 3 or later of R334 or R357, so its outputs, the entry at OUTREF included, are written (R349): results with OK, zeros
otherwise. A run stopped short of its release brings no outputs. -/
def doneWrites (d : RelayedDone) : Bool :=
  d.result % 2 ^ 32 != 0 && (d.outputs != [] || d.status == stOk || d.status == stFaultDetected || d.status == stOperandRange || d.status == stPointInvalid)

/-- DONE reports a run that reached its release, so that what it took beyond block 1 is charged (R357, R361). -/
def doneReleased (d : RelayedDone) : Bool :=
  d.result % 2 ^ 32 != 0 && (d.status == stOk || d.status == stLate || d.status == stFaultDetected || d.status == stOperandRange || d.status == stPointInvalid
    || (d.status == stInternal && d.subcode == 5))

/-- The key material of a DONE, opened under the pair key of this member and the one that ran the job (R485). -/
def doneKey (s : State) (j : Job) (d : RelayedDone) : Option Bytes :=
  match j.phase with
  | .away m _ => if d.keyOut = [] then some [] else pairOpen s m s.relay.member m d.keyOut
  | _ => none

/-- The outcome of a relayed job at its origin (R486): the further ML-DSA charge of a run taken (R361), outputs written, key entries sealed, the record
fixed. A status of no catalogue value, which no member sends, counts as INTERNAL (R14, log entry 85). -/
def takeDone (s : State) (j : Job) (d : RelayedDone) : State :=
  let j := { j with blocks := d.result / 2 ^ 40, floor := bits d.result 39 32, rtNs := d.result % 2 ^ 32 }
  let s := s.modJob j.id (fun _ => j)
  let s := if doneReleased d then chargeBlocks s j j.floor j.blocks else s
  let good := d.status == stOk
  match doneKey s j d with
  | none => failJob s j.id stKeyHandle 3
  | some key =>
    let s := if doneWrites d then writeOuts s j good (((outputsOf j).zip d.outputs).map (fun p => (p.1.1, p.2))) key else s
    fixOutcome s j.id { status := if isStatus d.status then d.status else stInternal, sub := d.subcode, opf := d.opflags, result := d.result
                        inB := d.inBytes, outB := if good then ((outputsOf j).map (·.2)).foldl (· + ·) 0 else 0 }

/-- A DONE that names no job still away is discarded and counted (R487). -/
def staleDone (s : State) : State := s.modRelay (fun r => { r with cntStale := wrapInc 32 r.cntStale })

/-- DONE once taken (R486). A job whose deadline has passed ended with TIMEOUT before it came (R472, R487): CANCEL has been sent, and DONE is stale. -/
def doneHere (s : State) (h : Hop) (d : RelayedDone) : State :=
  match s.jobs.find? (fun j => j.phase == .away h.src d.tag && j.outcome.isNone) with
  | none => staleDone s
  | some j => if j.late s then staleDone (sendTo (stop s j.id stTimeout 2) h.src (.cancel [d.tag])) else takeDone s j d

/-- DONE (R486, R487): for no job still away it is stale. -/
def doneIn (s : State) (h : Hop) (d : RelayedDone) : State := receive s h (.done d) (fun s => doneHere s h d)

def execRelayDone (hop : Hop) (done : RelayedDone) (s : State) : Out := ok (carryAll (doneIn s hop done))

/-- CANCEL (R487). -/
def execRelayCancel (hop : Hop) (tags : List Nat) (s : State) : Out :=
  ok (carryAll (receive s hop (.cancel tags) (fun s => dropOrigin s (fun o t => o == hop.src && tags.contains t))))

/-- ALARM (R42, R489): every job away at the member ends with ALARM_ABORT. -/
def memberAlarm (s : State) (m : Nat) : State :=
  let s := stopWhere s (fun j => match j.phase with
    | .away k _ => k == m
    | _ => false) stAlarmAbort 0
  { s with place := { s.place with adverts := tabSet {} s.place.adverts m { tabGet {} s.place.adverts m with accepts := false } } }

def execRelayAlarm (hop : Hop) (member : Nat) (s : State) : Out := ok (carryAll (receive s hop (.alarm member) (memberAlarm · member)))

def execRelayBreak (hop : Hop) (position : Nat) (s : State) : Out := ok (carryAll (receive s hop (.break_ position) (onBreak · position)))

/-- TIME once taken (R491). -/
def timeHere (s : State) (h : Hop) (value : Stamp) (insideNs : Nat) : State :=
  if hopOff s h.side || !s.time.follower || h.src == s.relay.member then s
  else
    let v := value + ((s.hop h.side).latency + insideNs) * nsUnit
    let s := if hopOff s (other h.side) then s else forward s h (.time v)
    steer s v

/-- TIME (R485, R491): removed on an off-package hop; a follower adds the hop's latency and its own, steers and passes it on. -/
def timeIn (s : State) (h : Hop) (value : Stamp) (insideNs : Nat) : State := receiveHere s h (fun s => timeHere s h value insideNs)

def execTime (hop : Hop) (value : Stamp) (insideNs : Nat) (s : State) : Out := ok (carryAll (timeIn s hop value insideNs))

-- Mail ----------------------------------------------------------------------------------------------------------------------

/-- The inbox takes a mail of this length from this member: it is not full, long enough, and not taken up by a mail of another member that is coming (R493, log
entry 129). -/
def inboxTakes (s : State) (src total : Nat) : Bool :=
  let r := s.relay
  !r.inboxFull && decide (total ≤ r.inboxLen) && (r.got == 0 || r.sender == src)

/-- The inbox is kept for a mail that is to come (R493). -/
def inboxFor (s : State) (src total : Nat) : State :=
  s.modRelay (fun r => { r with sender := src, got := total, part := 0, partPath := hopsUsed s src r.member })

/-- The buffer of a mail is read. -/
def mailReads (s : State) : State :=
  let s := s.modRelay (fun r => { r with mailAsked := false })
  let ps := pages s.relay.mailSrc s.relay.mailTotal
  ((List.range ps.length).zip ps).foldl (fun s p => addRead s (.mailRead p.1) 0 p.2.1 p.2.2 0) s

/-- SEND (R493): the destination is asked first whether its inbox takes the mail, by a MAIL without a part (DESIGN CHOICE, log entry 129); this block's own inbox is
asked at once. A length of 0 or past 16 MiB is refused as a destination out of the ring (DESIGN CHOICE, log entry 130). -/
def mailCmd (s : State) (v : W32) : State :=
  let m := v.toNat % 256
  let n := s.relay.mailLen
  if s.relay.mailBusy || v.toNat / 2 ^ 24 ≠ 1 then s
  else if !s.relay.formed || !reached s m || n == 0 || decide (2 ^ 24 < n) then mailEnd s 2
  else
    let s := s.modRelay (fun r => { r with mailBusy := true, mailDst := m, mailTotal := n, mailGot := [], mailAsked := true
                                           mailPath := hopsUsed s r.member m })
    if m ≠ s.relay.member then sendTo s m (.mail n 0 [] false)
    else if inboxTakes s m n then mailReads (inboxFor s m n)
    else mailEnd s 2

def execMailSend (value : W32) (s : State) : Out := ok (fin (mgrWrite s 0x9002C (mailCmd · value)))

/-- Byte strings with the place each has in their row, from `n` on. -/
def pieces (n : Nat) (l : List Bytes) : List (Nat × Bytes) :=
  match l with
  | [] => []
  | b :: t => (n, b) :: pieces (n + b.length) t

/-- A part of a mail (R493): one that does not go on from the last, or does not fit, is dropped. -/
def mailPart (s : State) (src total offset : Nat) (part : Bytes) (final : Bool) : State :=
  let r := s.relay
  if r.inboxFull || decide (r.inboxLen < total) || decide (total < offset + part.length) || final != (offset + part.length == total) then s
  else if r.part ≠ offset ∨ r.sender ≠ src ∨ r.got ≠ total then s
  else addWrites (s.modRelay (fun r => { r with part := offset + part.length })) .inboxWrite 0 (r.inbox + offset) part 0

/-- A part leaves for its destination, which may be this member. -/
def sendPart (s : State) (total offset : Nat) (part : Bytes) : State :=
  if s.relay.mailDst = s.relay.member then mailPart s s.relay.member total offset part (offset + part.length == total)
  else sendTo s s.relay.mailDst (.mail total offset part (offset + part.length == total))

/-- A piece of the buffer has come; with the last one the MAIL messages leave in order, and the send ends. -/
def mailData (s : State) (ord : Nat) (b : Bytes) : State :=
  let s := s.modRelay (fun r => { r with mailGot := tabPut r.mailGot ord b })
  let n := s.relay.mailTotal
  let got := s.relay.mailGot
  if !s.relay.mailBusy || (got.map (·.2.length)).foldl (· + ·) 0 < n then s
  else mailEnd ((pieces 0 (got.map (·.2))).foldl (fun s p => sendPart s n p.1 p.2) s) 0

/-- MAIL once taken (log entry 129): without a part, the question at offset 0 whether the inbox takes the mail, or the answer at the end of the mail. -/
def mailHere (s : State) (h : Hop) (total offset : Nat) (part : Bytes) (final : Bool) : State :=
  if part ≠ [] then mailPart s h.src total offset part final
  else if offset = 0 then
    if inboxTakes s h.src total then sendTo (inboxFor s h.src total) h.src (.mail total total [] true) else sendTo s h.src (.mail total total [] false)
  else if s.relay.mailAsked && s.relay.mailDst == h.src && s.relay.mailTotal == total then (if final then mailReads s else mailEnd s 2)
  else s

/-- MAIL (R493): parts in order into the inbox; a mail that finds it full, or longer than it, is refused. -/
def mailIn (s : State) (h : Hop) (total offset : Nat) (part : Bytes) (final : Bool) : State :=
  receive s h (.mail total offset part final) (fun s => mailHere s h total offset part final)

def execMail (hop : Hop) (total offset : Nat) (part : Bytes) (final : Bool) (s : State) : Out := ok (fin (mailIn s hop total offset part final))

/-- Inbox writes are acknowledged: the whole mail is there. -/
def inboxAcked (s : State) : State :=
  let r := s.relay
  if !r.inboxFull && decide (0 < r.got) && r.part == r.got && !(s.mem.accesses.any (fun a => a.owner == .inboxWrite)) then
    vector (s.modRelay (fun r => { r with inboxFull := true })) 7
  else s

def inboxFree (s : State) (v : W32) : State :=
  if v.toNat.testBit 31 then s.modRelay (fun r => { r with inboxFull := false, got := 0, part := 0, partPath := [] }) else s

def execInboxRelease (value : W32) (s : State) : Out := ok (mgrWrite s 0x90040 (inboxFree · value))

-- Start step 11 -------------------------------------------------------------------------------------------------------------

/-- What a hop does as step 11 begins: it takes its OFFPKG bit, of which a formed ring is told (R480); a HELLO left without an answer is given up; a keyed hop of a
member of no ring is probed afresh. -/
def hopBegin (s : State) (sd : Side) : State :=
  let new := (s.hop sd).offpkg != offpkgBit s sd
  let s := s.modHop sd (fun h => { h with offpkg := offpkgBit s sd })
  if !(s.hop sd).keyed then s.modHop sd (fun h => { h with hello := [], xPriv := [], kemDk := [] })
  else if s.relay.formed then (if new then stateHops s sd else s)
  else sendProbe (s.modHop sd (fun h => { h with probed := false })) sd

/-- Step 11 begins (R482, R484, R494, R495): RLY_CTRL takes effect, the hops are keyed, an election that has not closed is repeated afresh, and a HELLO that came before is answered. -/
def relayBegin (s : State) : State :=
  let s := s.modRelay (fun r => { r with ctrlAct := r.ctrl, identity := none, electSent := false, probeAt := none })
  tryWants (sendHello (hopBegin (hopBegin s .east) .west) false)

/-- How step 11 stands: passed, failed, or neither yet (R484). -/
def relayVerdict (s : State) : Option Bool :=
  let r := s.relay
  if r.noBwk || r.authFail then some false else if r.formed && r.member != 0xFF then some true else none

-- Registers -----------------------------------------------------------------------------------------------------------------

def mapWord (s : State) : Nat :=
  match (if s.relay.formed then s.relay.map[s.relay.mapSel]? else none) with
  | some e => 2 ^ 31 + flag e.eOffpkg 30 + flag e.eBroken 29 + e.member
  | none => 0

def relayReg (s : State) (off : Nat) : Nat :=
  let r := s.relay
  match off % 0x10000 with
  | 0x00 => r.ctrl
  | 0x04 => flag r.formed 31 + flag r.leader 30 + flag r.pkgMaster 29 + flag r.east.keyed 28 + flag r.west.keyed 27 + flag r.noBwk 26 + flag r.authFail 25
      + flag r.full 24 + (if r.formed then (r.map.filter (fun e => reached s e.member)).length else 0) * 2 ^ 16 + r.member
  | 0x08 => min 65535 r.east.latency * 2 ^ 16 + min 65535 r.west.latency
  | 0x0C => r.mapSel
  | 0x10 => mapWord s
  | 0x14 => r.cntBreak
  | 0x18 => r.cntAuth
  | 0x1C => r.cntStale
  | 0x20 => r.mailSrc % 2 ^ 32
  | 0x24 => r.mailSrc / 2 ^ 32
  | 0x28 => r.mailLen
  | 0x30 => flag r.mailBusy 31 + r.mailResult
  | 0x34 => r.inbox % 2 ^ 32
  | 0x38 => r.inbox / 2 ^ 32
  | 0x3C => r.inboxLen
  | 0x40 => if r.inboxFull then 2 ^ 31 + r.sender else 0
  | 0x44 => if r.inboxFull then r.got else 0
  | _ => 0

def relayWrite (s : State) (off : Nat) (v : W32) : State :=
  let n := v.toNat
  match off % 0x10000 with
  | 0x00 => s.modRelay (fun r => { r with ctrl := n / 2 ^ 16 * 2 ^ 16 + n % 4 })
  | 0x04 => s.modRelay (fun r => { r with noBwk := r.noBwk && !n.testBit 26, authFail := r.authFail && !n.testBit 25, full := r.full && !n.testBit 24 })
  | 0x0C => s.modRelay (fun r => { r with mapSel := n % 256 })
  | 0x20 => s.modRelay (fun r => { r with mailSrc := putLo 1 r.mailSrc n })
  | 0x24 => s.modRelay (fun r => { r with mailSrc := putHi r.mailSrc n })
  | 0x28 => s.modRelay (fun r => { r with mailLen := n % 2 ^ 25 })
  | 0x2C => mailCmd s v
  | 0x34 => s.modRelay (fun r => { r with inbox := putLo 1 r.inbox n })
  | 0x38 => s.modRelay (fun r => { r with inbox := putHi r.inbox n })
  | 0x3C => s.modRelay (fun r => { r with inboxLen := n % 2 ^ 25 })
  | 0x40 => inboxFree s v
  | _ => s

end Sys2Proof.Machine
end

