-- ==== Sys2Proof/Machine/Migrate.lean ====
section
/-! DEFINITION. Migration (R158 to R164): the offer, the image and its four body sections, and the steps by which MIG_OFFER, SAVE and RESTORE run.
A command asks for what it reads and writes a step at a time; each step follows when the accesses of the one before are answered. The byte
layout of the header's lengths and of the body sections is the model's own (log entry 51). -/

namespace Sys2Proof.Machine

-- Byte forms ----------------------------------------------------------------------------------------------------------------

/-- Byte strings one after another, each after its length. -/
def packParts (l : List Bytes) : Bytes := (l.map (fun b => leBytes 4 b.length ++ b)).flatten

def unpackF : Nat → Bytes → List Bytes
  | 0, _ => []
  | f + 1, b => if b.length < 4 then [] else (b.drop 4).take (fieldLE b 0 4) :: unpackF f (b.drop (4 + fieldLE b 0 4))

def unpackParts (b : Bytes) : List Bytes := unpackF b.length b

/-- Numbers of 16 bytes each. -/
def packNums (l : List Nat) : Bytes := (l.map (leBytes 16)).flatten

def numAt (b : Bytes) (i : Nat) : Nat := fieldLE b (16 * i) 16

def optNum (o : Option Nat) : Nat :=
  match o with
  | none => 0
  | some n => n + 1

def numOpt (n : Nat) : Option Nat := if n = 0 then none else some (n - 1)

-- Reads of a migration ------------------------------------------------------------------------------------------------------

/-- Number of a read: 0 the buffer, 1 a page of the key table, 2 an association entry, 4 a blob, 5 a page of the association table. -/
def migOrd (kind i : Nat) : Nat := kind * 2 ^ 40 + i

def migReads (s : State) (kind seat va n attr : Nat) : State :=
  let ps := pages va n
  ((List.range ps.length).zip ps).foldl (fun s p => addRead s (.migRead (migOrd kind p.1)) seat p.2.1 p.2.2 attr) s

/-- The bytes of one answered read. -/
def migPiece (s : State) (kind i : Nat) : Bytes := tabGet [] s.seatRegs.migGot (migOrd kind i)

/-- The bytes of the pieces of a kind, in order. -/
def migBytes (s : State) (kind : Nat) : Bytes :=
  ((s.seatRegs.migGot.filter (fun p => p.1 / 2 ^ 40 == kind)).map (·.2)).flatten

/-- No access of a migration is on its way. -/
def migIdle (s : State) : Bool :=
  !(s.mem.accesses.any (fun a => match a.owner with
    | .migRead _ => true
    | .migWrite => true
    | _ => false))

def State.modRegs (s : State) (f : SeatRegs → SeatRegs) : State := { s with seatRegs := f s.seatRegs }

def migNext (s : State) (n : Nat) : State := s.modRegs (fun r => { r with migStep := n })

def offerOf (s : State) (seat : Nat) : Offer := tabGet {} s.offers seat

def setOffer (s : State) (seat : Nat) (o : Offer) : State := { s with offers := tabSet {} s.offers seat o }

-- Offer ---------------------------------------------------------------------------------------------------------------------

abbrev hwRev : Nat := 0x00020001

/-- The 1,232 bytes of R159. -/
def offerBytes (ident x d z : Bytes) : Bytes :=
  ascii "MOFR" ++ ident ++ leBytes 4 hwRev ++ x25519 x x25519Base ++ (kemKeygen 0x12 d z).1

/-- MIG_OFFER: the identifier and both private halves are drawn from seat 0, which it waits for (R409), the offer is written, and OFFER is set. -/
def offerStep (s : State) (m : Nat) (last : Bool) : State :=
  if s.seatRegs.migStep = 0 then
    match tryDraw s 0 104 with
    | none => s
    | some r =>
      let ident := sliceZ r.2 0 8
      let x := sliceZ r.2 8 32
      let d := sliceZ r.2 40 32
      let z := sliceZ r.2 72 32
      let s := migNext (r.1.modRegs (fun g => { g with migKeys := [(0, ident), (1, x), (2, (kemKeygen 0x12 d z).2)] })) 1
      addWrites s .migWrite 0 s.seatRegs.migAt (offerBytes ident x d z) 0
  else if !last then s
  else
    let k := s.seatRegs.migKeys
    let s := setOffer s m { ident := tabGet [] k 0, xPriv := tabGet [] k 1, kemDk := tabGet [] k 2 }
    migEnd ((s.modSeat m (fun t => { t with offer := true })).modRegs (fun g => { g with migLen := 1232 })) 0

-- Rings section -------------------------------------------------------------------------------------------------------------

def ringPart (r : Ring) : Bytes :=
  packNums [flag r.set.enable 0, r.set.base, r.set.cqBase, r.set.cfg, r.coal, r.tmo, r.db, r.fetchIdx, r.cqHead, r.cqTail]

def ringOfPart (b : Bytes) : Ring :=
  let c : RingSet := { enable := numAt b 0 == 1, base := numAt b 1, cqBase := numAt b 2, cfg := numAt b 3 }
  { set := c, act := c, coal := numAt b 4, tmo := numAt b 5, db := numAt b 6, fetchIdx := numAt b 7, cqHead := numAt b 8, cqTail := numAt b 9 }

def ringSection (s : State) (seat : Nat) : Bytes := packParts ((List.range 16).map (fun i => ringPart (s.ring seat i)))

-- Contexts section ----------------------------------------------------------------------------------------------------------

/-- A stream job at rest between two segments: paused at a bay, or back at the dispatcher because its bay has left service or it has just been restored. -/
def atRest (j : Job) : Bool :=
  j.outcome.isNone && (match j.phase with
    | .paused _ => true
    | .held => j.started
    | _ => false)

/-- Paused stream jobs of a seat. -/
def pausedJobs (s : State) (seat : Nat) : List Job := s.jobs.filter (fun j => j.seat == seat && fromRing j && atRest j)

def jobSlot (j : Job) : Nat :=
  match j.src with
  | .ring slot => slot
  | _ => 0

/-- The read of a spilled record, and the record once it has come. A slot is read once (R272): what was read stays with the job, for its resumption here
when the SAVE is refused. -/
def slotRead (s : State) (j : Job) : List Read :=
  match j.held with
  | .spilled k => [spillRead s k]
  | _ => []

/-- The chaining state of a paused job, from its clear record or the slot read; `none` when the slot's record does not pass (R285). -/
def heldCtx (s : State) (j : Job) : Option Ctx :=
  match j.held with
  | .spilled k =>
    match judgeRec s (symOf s j) j ((j.all (spillRead s k)).getD []) 0 with
    | .ok c => some c
    | .error _ => none
  | .clear _ => some j.ctx
  | .stuck => some j.ctx
  | _ => none

/-- A string in a field of `n` bytes after its length: the length of an image does not depend on the records in it. -/
def fixField (n : Nat) (b : Bytes) : Bytes := leBytes 2 b.length ++ sliceZ b 0 n

def ofField (b : Bytes) : Bytes := sliceZ b 2 (fieldLE b 0 2)

def ctxParts (c : Ctx) : List Bytes :=
  [packNums [c.msgBytes, c.aadBytes, c.pass, c.parts], fixField 16 c.iv, fixField 16 c.chain, leBytes 17 c.acc, fixField 16 c.sivTag, fixField 200 c.hash]

def ctxOfParts (p : List Bytes) : Ctx :=
  let n := p.getD 0 []
  { msgBytes := numAt n 0, aadBytes := numAt n 1, pass := numAt n 2, parts := numAt n 3, iv := ofField (p.getD 1 []), chain := ofField (p.getD 2 [])
    acc := leNat (p.getD 3 []), sivTag := ofField (p.getD 4 []), hash := ofField (p.getD 5 []) }

/-- A paused job: its packet, where it stands, what it holds, and the gather lists it has read. Its key, its schedule and the states of an HMAC slot are
not carried (R164): it takes its key from the key table again. -/
def jobPart (s : State) (j : Job) : Bytes :=
  let c := heldCtx s j
  packParts ([packNums [jobSlot j, j.opcode, j.flags, j.tag, j.affinity, j.pos, j.segs, j.attr, optNum (j.deadline.map (fun d => d - s.mono)), optNum j.assoc,
      optNum j.nonce, flag c.isSome 0 + flag j.committed 1 + flag j.soft 2, j.inDone, j.outDone, j.ctrNext, j.wrote], j.body]
    ++ ctxParts (c.getD {})
    ++ ((j.got.filter (fun g => g.1.kind == .list)).map (fun g => [packNums [g.1.a, g.2.1], g.2.2])).flatten)

def listsOfParts : List Bytes → List (BufKey × Nat × Bytes)
  | n :: b :: t => (listKey (numAt n 0), numAt n 1, b) :: listsOfParts t
  | _ => []

/-- A job of an image under the destination seat, and whether its record passed at the source. -/
def jobOfPart (s : State) (seat : Nat) (b : Bytes) : Job × Bool :=
  let p := unpackParts b
  let n := p.getD 0 []
  let f := numAt n 11
  ({ id := s.nextJob, src := .ring (numAt n 0 % 16), seat := seat, gen := (s.seat seat).gen, opcode := numAt n 1, flags := numAt n 2, tag := numAt n 3
     affinity := numAt n 4, body := p.getD 1 [], acceptAt := s.stamp, deadline := (numOpt (numAt n 8)).map (fun d => s.mono + d), got := listsOfParts (p.drop 8)
     committed := f.testBit 1, attr := numAt n 7, assoc := numOpt (numAt n 9), nonce := numOpt (numAt n 10), soft := f.testBit 2, started := true
     ctx := ctxOfParts (p.drop 2), pos := numAt n 5, segs := numAt n 6, inDone := numAt n 12, outDone := numAt n 13, ctrNext := numAt n 14
     wrote := numAt n 15, queuedAt := s.mono, order := tailOrder s }, f.testBit 0)

def ctxSection (s : State) (seat : Nat) : Bytes := packParts ((pausedJobs s seat).map (jobPart s))

-- Associations section ------------------------------------------------------------------------------------------------------

/-- An entry as it stands: the cached one, or the one that bytes hold. -/
def assocNow (s : State) (i : Nat) (b : Bytes) : Assoc := (s.assoc? i).getD (assocOf i b)

/-- The association is valid and owned by the seat, wherever in the table it stands (R160). -/
def ownsAssoc (s : State) (seat i : Nat) (b : Bytes) : Bool :=
  let a := assocNow s i b
  a.state == 1 && a.seat == seat && a.gen == (s.seat seat).gen

/-- Associations owned by the seat, by index. -/
def ownedAssocs (s : State) : List Nat := s.seatRegs.migAssocs.map (·.1)

/-- The entry with both counters and the window as they stand, WIN_CLEAN 1. -/
def assocPart (s : State) (e : Nat × Bytes) : Bytes :=
  let a := assocNow s e.1 e.2
  let b := overlay e.2 12 (leBytes 4 (maskSet a.flags 4 true))
  let b := overlay (overlay b 32 (leBytes 8 a.ctr)) 56 (leBytes 8 a.winTop)
  leBytes 4 e.1 ++ overlay b 72 (leBytes 128 a.winBits)

def assocSection (s : State) : Bytes := packParts (s.seatRegs.migAssocs.map (assocPart s))

/-- An entry of the image for the destination seat: owner, HOME 0xFF, FLOW_HASH afresh, STATE still zero (R163, R438). -/
def assocEntry (s : State) (seat : Nat) (b : Bytes) : Bytes :=
  let b := overlay b 1 ([0] ++ leBytes 2 seat ++ leBytes 2 (s.seat seat).gen)
  let b := overlay b 48 (leBytes 4 (flowHash (sliceZ b 200 18) (sliceZ b 218 18)))
  overlay (overlay b 52 [0xFF]) 64 (sliceZ b 56 8)

-- Keys section --------------------------------------------------------------------------------------------------------------

/-- The entry of a handle as read from the key table. -/
def keyEntry (s : State) (h : Nat) : Bytes := sliceZ (migPiece s 1 (h / 16)) (256 * (h % 16)) 256

/-- Entries whose fields name the seat (R373). -/
def keyHandles (s : State) (seat : Nat) : List Nat :=
  (List.range (s.seat seat).act.keyLen).filter (fun h =>
    let e := entryOf (keyEntry s h)
    e.state == 1 && e.format == 1 && e.seat == seat && e.gen == (s.seat seat).gen && decide (e.matLen ≤ maxMat))

/-- The blob of a handle: at most three pieces, as it may lie in three pages (R66). -/
def blobOf (s : State) (h : Nat) : Bytes := migPiece s 4 (3 * h) ++ migPiece s 4 (3 * h + 1) ++ migPiece s 4 (3 * h + 2)

/-- Seconds a key still has; 0 for no lifetime, 2^64 for one that has expired. -/
def leftOf (s : State) (expires : Nat) : Nat := if expires = 0 then 0 else if expires ≤ s.secs then 2 ^ 64 else expires - s.secs

/-- A key with its attributes, the count as the block holds it, and its material. -/
def keyPart (s : State) (seat h : Nat) : List Bytes :=
  let b := keyEntry s h
  let e := entryOf b
  match openEntry s seat (s.seat seat).gen h b (blobOf s h) with
  | none => []
  | some mat =>
    let n := match findAttr s seat h with
      | some a => a.count
      | none => e.count
    [packNums [h, e.attr, leftOf s e.expires, e.limit, n, e.blob] ++ mat]

def keySection (s : State) (seat : Nat) : Bytes := packParts ((keyHandles s seat).map (keyPart s seat)).flatten

/-- EXPIRES at the destination (R163): a key that had expired stays expired. -/
def expiresFrom (s : State) (left : Nat) : Nat := if left = 0 then 0 else if 2 ^ 64 ≤ left then 1 else s.secs + left

-- Image ---------------------------------------------------------------------------------------------------------------------

/-- The migration key of R160. -/
def migKey (xSecret kemSecret ident : Bytes) : Bytes := hkdf 3 (xSecret ++ kemSecret) [] (ascii "Pysia migration" ++ ident) 32

/-- The 64-byte header. -/
def imageHeader (ident : Bytes) (lens : List Nat) : Bytes :=
  sliceZ (ascii "SMIG" ++ leBytes 2 1 ++ [0, 0] ++ ident ++ leBytes 4 hwRev ++ (lens.map (leBytes 4)).flatten) 0 64

/-- Lengths of the body sections in a header. -/
def imageLens (h : Bytes) : List Nat := (List.range 4).map (fun i => fieldLE h (20 + 4 * i) 4)

def sumLens (l : List Nat) : Nat := l.foldl (· + ·) 0

/-- The four sections of the body. -/
def imageSecs (s : State) (seat : Nat) : List Bytes := [ringSection s seat, ctxSection s seat, assocSection s, keySection s seat]

/-- Bytes of the image: header, encapsulation, body and tag. -/
def imageLen (s : State) (seat : Nat) : Nat := 64 + 32 + 1088 + sumLens ((imageSecs s seat).map List.length) + 16

/-- The image: header, encapsulation, sealed body, tag. -/
def imageOf (s : State) (seat : Nat) (offer rnd : Bytes) : Bytes :=
  let ident := sliceZ offer 4 8
  let x := sliceZ rnd 0 32
  let kem := kemEncaps 0x12 (sliceZ offer 48 1184) (sliceZ rnd 32 32)
  let secs := imageSecs s seat
  let head := imageHeader ident (secs.map List.length)
  let r := gcmSeal (migKey (x25519 x (sliceZ offer 16 32)) kem.1 ident) (zeros 12) head secs.flatten
  head ++ x25519 x x25519Base ++ kem.2 ++ r.1 ++ r.2

-- SAVE ----------------------------------------------------------------------------------------------------------------------

/-- Entries of the association table (R437). -/
abbrev assocCount : Nat := 2 ^ 24

/-- The offer in the buffer is judged, and the key table is read. -/
def saveReads (s : State) (m : Nat) : State :=
  let offer := migBytes s 0
  if sliceZ offer 0 4 ≠ ascii "MOFR" ∨ !kemEkOk 0x12 (sliceZ offer 48 1184) then migEnd s 6
  else migNext (migReads s 1 m (s.seat m).act.keytab (256 * (s.seat m).act.keyLen) 2) 1

/-- The reads of the blob of an entry that has one. -/
def blobReads (m : Nat) (s : State) (h : Nat) : State :=
  let e := entryOf (keyEntry s h)
  if e.matLen ≤ 176 then s
  else
    let ps := pages e.blob e.matLen
    ((List.range ps.length).zip ps).foldl (fun s p => addRead s (.migRead (migOrd 4 (3 * h + p.1))) m p.2.1 p.2.2 2) s

/-- Blobs of the keys whose material is not inline. -/
def saveBlobs (s : State) (m : Nat) : State :=
  let s := (keyHandles s m).foldl (blobReads m) s
  migNext s 2

/-- The entries of the seat on the page of the association table that has come. -/
def scanPage (s : State) (m : Nat) : List (Nat × Bytes) :=
  let k := s.seatRegs.migScan
  ((List.range 16).map (fun i => (k + i, sliceZ (migPiece s 5 (k / 16)) (256 * i) 256))).filter (fun e => ownsAssoc s m e.1 e.2)

/-- The association table is looked through a page at a time for what the seat owns (R160). -/
def saveScan (s : State) (m : Nat) : State :=
  let k := s.seatRegs.migScan
  let come := s.seatRegs.migGot.any (fun p => p.1 == migOrd 5 (k / 16))
  if s.front.assocBase = 0 ∨ assocCount ≤ k then migNext s 3
  else if come then
    s.modRegs (fun g => { g with migScan := k + 16, migAssocs := g.migAssocs ++ scanPage s m, migGot := g.migGot.filter (fun p => p.1 != migOrd 5 (k / 16)) })
  else addRead s (.migRead (migOrd 5 (k / 16))) 0 (assocAddr s k) 4096 2

/-- The spilled records are read, once nothing can refuse the SAVE but a fault: the length of the image is known, and fits the buffer (R161, R272). -/
def saveSlots (s : State) (m : Nat) : State :=
  let s := s.modRegs (fun g => { g with migLen := imageLen s m })
  if s.seatRegs.migCap < s.seatRegs.migLen then migEnd s 4
  else migNext ((pausedJobs s m).foldl (fun s j => issueReads s j (slotRead s j)) s) 4

/-- Every spilled record of the seat has been read. -/
def slotsIn (s : State) (m : Nat) : Bool := (pausedJobs s m).all (fun j => (slotRead s j).all j.hasRead)

/-- The image is made and written over the offer. -/
def saveWrite (s : State) (m : Nat) : State :=
  if !slotsIn s m then s
  else
    match tryDraw s 0 64 with
    | none => s
    | some r =>
      let s := holdSeatKeys r.1 m (s.seat m).gen
      let img := imageOf s m (migBytes s 0) r.2
      addWrites (migNext (s.modRegs (fun g => { g with migLen := img.length })) 5) .migWrite 0 s.seatRegs.migAt img 0

/-- The seat's associations become invalid: STATE 0x02, migrated (R162, R437). -/
def saveInvalid (s : State) : State :=
  migNext ((ownedAssocs s).foldl (fun s i => dropAssoc (addWrite s .migWrite 0 (assocAddr s i + 1) [2] 2) i) s) 6

/-- The end of a SAVE: the image holds the seat's jobs now. -/
def saveEnd (s : State) (m : Nat) : State :=
  let s := (pausedJobs s m).foldl (fun s j => (freeSpill s j.id).dropJob j.id) s
  migEnd (s.modSeat m (fun t => { t with saved := true })) 0

def saveStep (s : State) (m : Nat) (last : Bool) : State :=
  match s.seatRegs.migStep with
  | 0 => saveReads s m
  | 1 => saveBlobs s m
  | 2 => saveScan s m
  | 3 => saveSlots s m
  | 4 => saveWrite s m
  | 5 => saveInvalid s
  | _ => if last then saveEnd s m else s

-- RESTORE -------------------------------------------------------------------------------------------------------------------

/-- The header is judged, and the rest of the image is read. A buffer too short for the image that the header describes is a bad header, as is one too short for
a header (R163 gives no RESULT for it; DESIGN CHOICE, log entry 113). -/
def restoreHead (s : State) (m : Nat) : State :=
  let h := migBytes s 0
  let n := 1184 + sumLens (imageLens h) + 16
  if sliceZ h 0 4 ≠ ascii "SMIG" then migEnd s 7
  else if fieldLE h 4 2 ≠ 1 ∨ fieldLE h 16 4 ≠ hwRev then migEnd s 8
  else if sliceZ h 8 8 ≠ (offerOf s m).ident then migEnd s 6
  else if s.seatRegs.migCap < n then migEnd s 7
  else migNext (migReads (s.modRegs (fun g => { g with migGot := [], migKeys := [(0, h)] })) 0 0 (s.seatRegs.migAt + 1184) (n - 1184) 0) 1

/-- The body under the tag, cut into its sections. -/
def openImage (s : State) (m : Nat) : Option (List Bytes) :=
  let h := tabGet [] s.seatRegs.migKeys 0
  let o := offerOf s m
  let rest := migBytes s 0
  let n := sumLens (imageLens h)
  let key := migKey (x25519 o.xPriv (sliceZ h 64 32)) (kemDecaps 0x12 o.kemDk (sliceZ h 96 1088)) o.ident
  (gcmOpen key (zeros 12) (h.take 64) (rest.take n) (sliceZ rest n 16)).map (fun b =>
    (List.range 4).map (fun i => (b.drop (sumLens ((imageLens h).take i))).take ((imageLens h).getD i 0)))

/-- Sections once the image has opened. -/
def sectionOf (s : State) (i : Nat) : List Bytes := unpackParts (tabGet [] s.seatRegs.migKeys (1 + i))

/-- Spill slots that are free. -/
def freeSlots (s : State) : Nat := s.keys.spillSlots - s.keys.spillUsed.length

/-- The image is opened and what it carries is judged; the destination's entries are read (R163). -/
def restoreOpen (s : State) (m : Nat) : State :=
  match openImage s m with
  | none => migEnd s 7
  | some l =>
    let s := s.modRegs (fun g => { g with migKeys := (0, tabGet [] g.migKeys 0) :: (List.range 4).map (fun i => (1 + i, l.getD i [])) })
    let t := s.seat m
    let ix := (sectionOf s 2).map (fun b => fieldLE b 0 4)
    if (sectionOf s 3).any (fun b => decide (t.act.keyLen ≤ numAt b 0)) || decide (freeSlots s < (sectionOf s 1).length) then migEnd s 4
    else if s.front.assocBase = 0 ∧ ix ≠ [] then migEnd s 0x0B
    else if ix.any (fun i => !(decide (t.abase ≤ i) && decide (i < t.abase + t.acount))) then migEnd s 0x0B
    else migNext (ix.foldl (fun s i => addRead s (.migRead (migOrd 2 i)) 0 (assocAddr s i) 256 2) s) 2

/-- One key under the destination's KEK. -/
def restoreKey (m : Nat) (s : State) (b : Bytes) : State :=
  let h := numAt b 0
  let r := sealEntry s m (s.seat m).gen h (numAt b 1) (expiresFrom s (numAt b 2)) (numAt b 3) (numAt b 4) (numAt b 5) (b.drop 96)
  let s := addWrites r.1 .migWrite m (entryAddr s m h) r.2.1 2
  if r.2.2 = [] then s else addWrites s .migWrite m (numAt b 5) r.2.2 2

/-- The entry of the image that a job of it works on. -/
def imageAssoc (s : State) (j : Job) : Option Assoc :=
  if j.onAssoc then ((sectionOf s 2).find? (fun b => fieldLE b 0 4 == j.assocIdx)).map (fun b => assocOf j.assocIdx (b.drop 4)) else none

/-- One paused job with its record in a spill slot of this block (R163): it waits at the dispatcher, to be placed after RESTART. -/
def restoreJob (m : Nat) (s : State) (b : Bytes) : State :=
  let r := jobOfPart s m b
  match freeSlot s with
  | none => s
  | some k =>
    let w := wrapRec s (symBy (imageAssoc s r.1) r.1) r.1 ((inService s r.1).headD 0) r.1.ctx
    let s := addWrite w.1 .migWrite 0 (spillAddr s k) (if r.2 then w.2 else zeros 256) 2
    let s := s.modKeys (fun x => { x with spillUsed := tabPut x.spillUsed k r.1.id })
    { s with jobs := s.jobs ++ [{ r.1 with held := .spilled k, ctx := { msgBytes := r.1.ctx.msgBytes } }], nextJob := s.nextJob + 1 }

/-- Nothing is written unless every destination entry has STATE 0x00; then keys, jobs and entries, STATE still zero. -/
def restoreWrite (s : State) (m : Nat) : State :=
  if (sectionOf s 2).any (fun b => (assocNow s (fieldLE b 0 4) (migPiece s 2 (fieldLE b 0 4))).state != 0) then migEnd s 0x0B
  else
    let s := (sectionOf s 3).foldl (restoreKey m) s
    let s := (sectionOf s 1).foldl (restoreJob m) s
    let s := (sectionOf s 2).foldl (fun s b =>
      dropAssoc (addWrite s .migWrite 0 (assocAddr s (fieldLE b 0 4)) (assocEntry s m (b.drop 4)) 2) (fieldLE b 0 4)) s
    migNext s 3

/-- STATE of every entry, once the rest of it is written (R437). -/
def restoreStates (s : State) : State :=
  migNext ((sectionOf s 2).foldl (fun s b => addWrite s .migWrite 0 (assocAddr s (fieldLE b 0 4) + 1) (sliceZ (b.drop 4) 1 1) 2) s) 4

/-- The ring settings and indexes of the image; the last paused job of a slot is the last it has accepted. -/
def restoreRings (s : State) (m : Nat) : State :=
  (List.range 16).foldl (fun s i => s.setRing m i
    { ringOfPart ((sectionOf s 0).getD i []) with lastJob := (((pausedJobs s m).filter (fun j => j.src == .ring i)).getLast?).map (·.id) }) s

/-- FROZEN; the rings are installed, the offer and its private halves erased (R159). -/
def restoreEnd (s : State) (m : Nat) : State :=
  let s := restoreRings s m
  migEnd (setOffer (s.modSeat m (fun t => { t with state := 4, offer := false, saved := false })) m {}) 0

def restoreStep (s : State) (m : Nat) (last : Bool) : State :=
  match s.seatRegs.migStep with
  | 0 => restoreHead s m
  | 1 => restoreOpen s m
  | 2 => restoreWrite s m
  | 3 => restoreStates s
  | _ => if last then restoreEnd s m else s

-- Running -------------------------------------------------------------------------------------------------------------------

/-- One step of the command at work, when nothing of it is on its way. -/
def migStep (s : State) (last : Bool) : State :=
  match s.seatRegs.migSeat with
  | none => s
  | some m =>
    if !migIdle s || s.alarms.verifying then s
    else
      match (s.seat m).transit with
      | .offer => offerStep s m last
      | .save => saveStep s m last
      | .restore => restoreStep s m last
      | _ => s

/-- What a migration command reads first: the offer, or the header and encapsulation of an image (R161, R163). -/
def migFirst (s : State) (m : Nat) : State :=
  match (s.seat m).transit with
  | .save => migReads s 0 0 s.seatRegs.migAt 1232 0
  | .restore => migReads s 0 0 s.seatRegs.migAt 1184 0
  | _ => s

/-- The next command accepted begins when none is at work (log entry 52). -/
def migTake (s : State) : State :=
  match s.seatRegs.migSeat, s.seatRegs.migQueue with
  | none, (m, at_, cap) :: rest =>
    migFirst (s.modRegs (fun g => { migNone g with migSeat := some m, migAt := at_, migCap := cap, migQueue := rest })) m
  | _, _ => s

/-- As far as it goes; the last step, which ends the transition, is SEAT_TRANSITION_END's. -/
def migGo (s : State) (last : Bool) : State := (List.range 8).foldl (fun s _ => migStep (migTake s) last) s

/-- A migration command is accepted with the buffer and length written (R130): it begins now, or when those accepted before it have ended. -/
def migBegin (s : State) (m : Nat) (t : Transit) : State :=
  let s := s.modSeat m (fun x => { x with transit := t })
  migGo (s.modRegs (fun g => { g with migQueue := g.migQueue ++ [(m, g.migBuf, g.migBufLen)] })) false

/-- A migration command of the seat is abandoned (R157). -/
def migAbandon (s : State) (m : Nat) : State :=
  let s := s.modRegs (fun g => { g with migQueue := g.migQueue.filter (fun q => q.1 != m) })
  if s.seatRegs.migSeat = some m then (dropMig s).modRegs migNone else s

/-- The ring carries an image to some other member, or forms a ring of one. -/
def ringServes (s : State) : Bool :=
  let r := s.relay
  r.formed && (decide (r.map.length ≤ 1) || r.map.any (fun e => e.member != r.member && (routeTo s e.member).isSome))

/-- The providers of R49 that a migration needs are there: the graph of the packet front is loaded and step 10 has not failed or been skipped at the start; where
step 11 has passed, failed or been skipped, the ring is formed and reaches another member (log entry 88). -/
def migProviders (s : State) : Bool :=
  let o := fun k => s.start.outcomes.getD (k - 1) 0
  !s.front.loading && ((o 10 != 4 && o 10 != 5) || s.front.enabled) && ((o 11 != 2 && o 11 != 4 && o 11 != 5) || ringServes s)

end Sys2Proof.Machine
end

