-- ==== Sys2Proof/Machine/Seats.lean ====
section
/-! DEFINITION. Seat commands and transitions (R129 to R134, R148 to R157), shares (R143), seat settings (R151, R152), translation
invalidation (R141, R168) and the seat registers (R167). -/

namespace Sys2Proof.Machine

-- Results -------------------------------------------------------------------------------------------------------------------

/-- SEAT_CMD_STS after a command. -/
def seatResult (s : State) (cmd seat r : Nat) : State := s.modRegs (fun g => { g with cmdSts := cmd * 2 ^ 24 + r * 2 ^ 16 + seat })

/-- A reset of the seat runs. -/
def resetting (t : Seat) : Bool :=
  match t.transit with
  | .reset _ => true
  | _ => false

/-- The settings to be in force pass R153 and R171. -/
def settingsOk (s : State) (seat : Nat) : Bool := ringsOk s seat && rootOk (s.seat seat)

/-- Ring slots of a seat. -/
def onSlots (s : State) (seat : Nat) (f : Ring → Ring) : State := (List.range 16).foldl (fun s i => s.modRing seat i f) s

-- Curtain -------------------------------------------------------------------------------------------------------------------

/-- A ring job fetched but not issued to a bay or engine, nor taken by the key store or the farm (R148); a stream job at rest has been issued. -/
def unissued (seat : Nat) (j : Job) : Bool :=
  j.seat == seat && fromRing j && (match j.phase with
    | .held => !j.started
    | .queuedBay _ => true
    | .queuedEng _ => true
    | .store started => !started
    | .farm started => !started
    | _ => false)

/-- A squashing curtain completes unissued jobs with SQUASHED, those fetched after the command too. -/
def squash (s : State) (seat : Nat) : State :=
  match (s.seat seat).transit with
  | .curtain true => stopWhere s (unissued seat) stSquashed 0
  | _ => s

/-- CURTAIN (R148): the producer index of each ring is recorded, and the curtain falls. -/
def curtainCmd (s : State) (seat : Nat) (sq : Bool) : State :=
  squash ((onSlots s seat (fun r => { r with cut := some r.db })).modSeat seat (fun t => { t with transit := .curtain sq })) seat

/-- Every job whose entry lies below the recorded index has been fetched. -/
def cutReached (r : Ring) : Bool := !r.active || (!r.fetching && decide (sub32 r.limit r.fetchIdx < r.chain))

/-- A job that holds the curtain: a ring job of the seat that is not a paused stream job. -/
def holdsCurtain (seat : Nat) (j : Job) : Bool :=
  j.seat == seat && fromRing j && !atRest j

/-- A write under the tables of the seat has not been acknowledged. -/
def seatWrites (s : State) (seat : Nat) : Bool := s.mem.accesses.any (fun a => a.write && a.seat == seat)

/-- A write of the seat made before its reset has not been acknowledged (R156): requests are numbered in the order they are made. -/
def oldWrites (s : State) (seat : Nat) : Bool := s.mem.accesses.any (fun a => a.write && a.seat == seat && decide (a.id < (s.seat seat).openBelow))

/-- CURTAIN_QUIET: step 4 of R148. -/
def curtainQuiet (s : State) (seat : Nat) : State :=
  match (s.seat seat).transit with
  | .curtain _ =>
    if (List.range 16).all (fun i => cutReached (s.ring seat i)) && !(s.jobs.any (holdsCurtain seat)) && !seatWrites s seat then
      vector ((onSlots s seat (fun r => { r with cut := none })).modSeat seat (fun t => { t with state := 3, transit := .none })) 1
    else s
  | _ => s

/-- RESTART (R151): held settings come into force together; paused jobs may be issued again. -/
def restartCmd (s : State) (seat : Nat) : State :=
  let s := applySeatX s seat
  let s := onSlots s seat (fun r => { (if r.set.enable && !r.act.enable then ringZero r else r) with act := r.set, cut := none })
  instRequest (s.modSeat seat (fun t => { t with state := 2 })) seat

-- Start and disable ---------------------------------------------------------------------------------------------------------

/-- The bay buffer regions of a seat are zeroed, and no job has one any more (R154). -/
def dropRegions (s : State) (seat : Nat) : State :=
  { s with buffers := tabMap [] s.buffers (fun _ l => l.map (fun r =>
      if r.seat == seat then { r with job := none, bytes := zeros r.bytes.length } else r)) }

/-- START: doorbells are accepted from now on; the random-byte bucket is full (R146). -/
def startCmd (s : State) (seat : Nat) : State :=
  let s := applySeatX s seat
  let s := onSlots s seat (fun r => { (if r.set.enable && !r.act.enable then ringZero r else r) with act := r.set })
  instRequest (s.modSeat seat (fun t => { t with state := 2, bucket := 65536 })) seat

/-- DISABLE (R129, R132): the seat is erased, its generation advances or is spent, and settings and shares return to their reset values. An offer that is
outstanding goes with its private halves, which R159 does not say (DESIGN CHOICE, log entry 89). -/
def disableCmd (s : State) (seat : Nat) : State :=
  let s := tlbDropSeat (eraseSeatKeys (dropRegions s seat) seat) seat
  let s := { setOffer s seat {} with rings := s.rings.filter (fun p => p.1 / 16 != seat) }
  let d : Seat := {}
  s.modSeat seat (fun t =>
    { t with state := 0, gen := if t.gen < 0xFFFF then t.gen + 1 else t.gen, spent := t.spent || t.gen == 0xFFFF, saved := false, offer := false
             shareW := d.shareW, shareJ := d.shareJ, shareK := d.shareK, actW := d.shareW, actJ := d.shareJ, actK := d.shareK
             set := {}, act := {}, bays := [], rrSlot := 0 })

-- Reset ---------------------------------------------------------------------------------------------------------------------

/-- Jobs a seat reset squashes without a record. -/
def resetJob (seat : Nat) (j : Job) : Bool := j.seat == seat && fromRing j

/-- Accesses of the seat: nothing further is issued, reads are discarded when they come, issued writes are still acknowledged (R154, R155). -/
def resetAccess (seat : Nat) (ids : List Nat) (a : Access) : Option Access :=
  let mine := a.seat == seat || (match a.owner with
    | .jobRead j _ _ => ids.contains j
    | .jobWrite j _ => ids.contains j
    | .spill j => ids.contains j
    | _ => false)
  if !mine then some a
  else
    match a.st with
    | .out _ _ _ => some (if a.write then a.owned (.writeBack none) else a.discarded false)
    | .walkOut _ _ _ _ => some { (a.discarded false) with write := false }
    | _ => none

/-- A job away is cancelled at its member (R487). -/
def cancelAway (s : State) (j : Job) : State :=
  match j.phase with
  | .away m tag => sendTo s m (.cancel [tag])
  | _ => s

/-- RESET (R154, R155, R157): it takes over a transition in progress; steps 1 to 3 are one act, step 4 follows. The jobs it takes out of the block are squashed with
no record at step 4, or completed with ALARM_ABORT by a class A alarm before that. -/
def resetCmd (s : State) (seat : Nat) : State :=
  let s := migAbandon s seat
  let s := stopWhere s (fun j => j.seat == seat && j.pkt.isSome) stSquashed 0
  let js := s.jobs.filter (resetJob seat)
  let ids := js.map (·.id)
  let s := js.foldl cancelAway s
  let s := ids.foldl (fun s id => engineLeave (freeSpill s id) id) s
  let s := lastAborted { s with jobs := s.jobs.filter (fun j => !resetJob seat j)
                                mem := { s.mem with accesses := s.mem.accesses.filterMap (resetAccess seat ids) } }
  let s := tlbDropSeat (eraseSeatKeys (dropRegions s seat) seat) seat
  let s := onSlots s seat (fun r =>
    { ringFresh r with set := { r.set with enable := false }, act := { r.act with enable := false }, recsOut := 0 })
  s.modSeat seat (fun t => { t with transit := .reset s.mono, bays := [], openBelow := s.mem.nextId, resetJobs := js.filter (fun j => j.outcome.isNone) })

/-- RESET_REPORT: step 4, once every write is acknowledged or 100 us after step 1 (R156); the admission credit is full (R360), and the seat's DRBG instance goes as
the seat leaves service (R407). -/
def resetReport (s : State) (seat : Nat) : State :=
  let t := s.seat seat
  match t.transit with
  | .reset at_ =>
    let writing := oldWrites s seat
    if writing && !s.due (at_ + 100000 * nsUnit) then s
    else
      let s := s.modSeat seat (fun t =>
        { t with state := 1, transit := .none, resetJobs := [], saved := false, writesOpen := writing, credit := if admitRate t = 0 then t.credit else admitDepth t })
      let s := zeroInst (if writing then alarmC s 0x45 seat 0 else s) seat
      vector s 1
  | _ => s

/-- WRITES_OPEN clears when the last acknowledgement of the reset's writes arrives, whatever the seat has begun since (R156). -/
def writesClosed (s : State) (seat : Nat) : State :=
  if (s.seat seat).writesOpen && !oldWrites s seat then s.modSeat seat (fun t => { t with writesOpen := false }) else s

-- Freeze --------------------------------------------------------------------------------------------------------------------

/-- A paused job's record is spilled. -/
def flushOf (s : State) (j : Job) : State :=
  match j.phase with
  | .paused b => spillJob s j b
  | _ => s

/-- Wrap and write every held record of the seat that is clear (R271). -/
def freezeFlush (s : State) (seat : Nat) : State :=
  (pausedJobs s seat).foldl flushOf s

/-- Every held record of the seat is in its slot. -/
def flushed (s : State) (seat : Nat) : Bool :=
  (pausedJobs s seat).all (fun j => match j.held with
    | .spilled _ => true
    | _ => false)

def freezeCmd (s : State) (seat : Nat) : State := freezeFlush (s.modSeat seat (fun t => { t with transit := .freeze })) seat

-- The command register ------------------------------------------------------------------------------------------------------

/-- The effect of a command the table of R129 lists for the seat's state, or the RESULT that refuses it. -/
def seatAct (s : State) (cmd seat : Nat) (sq : Bool) : Except Nat State :=
  let t := s.seat seat
  let go := migProviders s
  match cmd, t.state with
  | 0x01, 0 =>
    if t.spent then .error 9
    else if !settingsOk s seat then .error 2
    else .ok (s.modSeat seat (fun t => { t with state := 1 }))
  | 0x02, 1 => if settingsOk s seat then .ok (startCmd s seat) else .error 2
  | 0x03, 2 => .ok (curtainCmd s seat sq)
  | 0x04, 3 => if settingsOk s seat then .ok (restartCmd s seat) else .error 2
  | 0x05, 1 => .ok (resetCmd s seat)
  | 0x05, 2 => .ok (resetCmd s seat)
  | 0x05, 3 => .ok (resetCmd s seat)
  | 0x05, 4 => if t.saved then .error 1 else .ok (resetCmd s seat)
  | 0x06, 1 => .ok (disableCmd s seat)
  | 0x06, 4 => if t.saved then .ok (disableCmd s seat) else .error 1
  | 0x07, 3 => .ok (freezeCmd s seat)
  | 0x08, 4 => if t.saved then .error 1 else .ok (s.modSeat seat (fun t => { t with state := 3 }))
  | 0x09, 1 =>
    if !go then .error 1
    else if s.seatRegs.migBufLen < 1232 then .error 4
    else .ok (migBegin s seat .offer)
  | 0x0A, 4 =>
    if t.saved || !go then .error 1
    else .ok (migBegin s seat .save)
  | 0x0B, 1 =>
    if !t.offer then .error 6
    else if !go then .error 1
    else if s.seatRegs.migBufLen < 1184 then .error 7
    else .ok (migBegin s seat .restore)
  | 0x0C, 1 => if t.offer then .ok (setOffer (s.modSeat seat (fun t => { t with offer := false })) seat {}) else .error 1
  | _, _ => .error 1

/-- A write to SEAT_CMD (R129 to R131): seat 0 first, then a CONFIGURE outside READY, where seats stay DISABLED (R116, R117, R128; log entry 90), then a
transition in progress. -/
def seatCmd (s : State) (cmd seat : Nat) (sq : Bool) : State :=
  let t := s.seat seat
  let acc := seatResult s cmd seat 0
  if seat = 0 then seatResult s cmd seat 0x0A
  else if s.start.state ≠ 3 ∧ cmd = 1 then seatResult s cmd seat 1
  else if t.transit ≠ .none ∧ (cmd ≠ 5 ∨ resetting t) then seatResult s cmd seat 3
  else
    match seatAct acc cmd seat sq with
    | .ok s => s
    | .error r => seatResult s cmd seat r

def seatExec (cmd seat : Nat) (sq : Bool) (s : State) : Out := ok (carryAll (mgrWrite s 0x20000 (seatCmd · cmd (seat % 1024) sq)))

def execConfigure (seat : Nat) (s : State) : Out := seatExec 0x01 seat false s
def execStart (seat : Nat) (s : State) : Out := seatExec 0x02 seat false s
def execCurtain (seat : Nat) (squash : Bool) (s : State) : Out := seatExec 0x03 seat squash s
def execRestart (seat : Nat) (s : State) : Out := seatExec 0x04 seat false s
def execReset (seat : Nat) (s : State) : Out := seatExec 0x05 seat false s
def execDisable (seat : Nat) (s : State) : Out := seatExec 0x06 seat false s
def execFreeze (seat : Nat) (s : State) : Out := seatExec 0x07 seat false s
def execThaw (seat : Nat) (s : State) : Out := seatExec 0x08 seat false s
def execMigOffer (seat : Nat) (s : State) : Out := seatExec 0x09 seat false s
def execSave (seat : Nat) (s : State) : Out := seatExec 0x0A seat false s
def execRestore (seat : Nat) (s : State) : Out := seatExec 0x0B seat false s
def execMigCancel (seat : Nat) (s : State) : Out := seatExec 0x0C seat false s

def execCurtainQuiet (seat : Nat) (s : State) : Out := ok (carryAll (whenDo s.up s (curtainQuiet · (seat % 1024))))

def execResetReport (seat : Nat) (s : State) : Out := ok (carryAll (whenDo s.up s (resetReport · (seat % 1024))))

/-- The end of FREEZE, or the next and last step of a migration command. -/
def transitionEnd (s : State) (seat : Nat) : State :=
  match (s.seat seat).transit with
  | .freeze =>
    let s := freezeFlush s seat
    if flushed s seat then vector (s.modSeat seat (fun t => { t with state := 4, transit := .none })) 1 else s
  | .offer => migGo s (s.seatRegs.migSeat == some seat)
  | .save => migGo s (s.seatRegs.migSeat == some seat)
  | .restore => migGo s (s.seatRegs.migSeat == some seat)
  | _ => s

def execSeatTransitionEnd (seat : Nat) (s : State) : Out :=
  ok (carryAll (whenDo (s.up && !s.alarms.verifying) s (transitionEnd · (seat % 1024))))

-- Shares --------------------------------------------------------------------------------------------------------------------

/-- A share register (0 W, 1 J, 2 K): every field in its range (R143), reserved bits reading zero. -/
def shareOk (which n : Nat) : Bool :=
  match which with
  | 0 => decide (1 ≤ bits n 22 16) && decide (bits n 22 16 ≤ 64) && n % 1024 != 0
  | 1 => decide (1 ≤ n % 2 ^ 15) && decide (n % 2 ^ 15 ≤ 16384)
  | _ => decide (bits n 28 16 ≤ 4096) && decide (n % 2 ^ 15 ≤ 16384)

def sharePut (t : Seat) (which n : Nat) : Seat :=
  match which with
  | 0 => { t with shareW := bits n 22 16 * 2 ^ 16 + n % 1024 }
  | 1 => { t with shareJ := n / 2 ^ 16 * 2 ^ 16 + n % 2 ^ 15 }
  | _ => { t with shareK := bits n 28 16 * 2 ^ 16 + n % 2 ^ 15 }

def shareWrite (s : State) (seat which : Nat) (v : W32) : State :=
  if shareOk which v.toNat then (latchEpoch s).modSeat seat (fun t => sharePut t which v.toNat) else rejectCfg s seat

def execShareWrite (seat which : Nat) (value : W32) (s : State) : Out :=
  ok (fin (mgrWrite s (0x28004 + seat % 1024 * 0x20 + which % 3 * 4) (shareWrite · (seat % 1024) (which % 3) value)))

-- Seat settings -------------------------------------------------------------------------------------------------------------

/-- One SEAT_X_ word; `reg` is its offset in the range. -/
def setWord (c : SeatSet) (reg n : Nat) : SeatSet :=
  match reg with
  | 0x0C => { c with opts := bits n 15 8 * 2 ^ 8 + n % 2 ^ 6 }
  | 0x10 => { c with root := putLo 4096 c.root n }
  | 0x14 => { c with root := putHi c.root n }
  | 0x18 => { c with keytab := putLo 4096 c.keytab n }
  | 0x1C => { c with keytab := putHi c.keytab n }
  | 0x20 => { c with keyLen := n }
  | _ => c

/-- Whether a SEAT_X_ write is accepted now (R151, R152). -/
def seatXOpen (s : State) (seat : Nat) : Bool :=
  if seat = 0 then (List.range 16).all (fun i => !(s.ring 0 i).set.enable) && seatInflight s 0 == 0 else settingsOpen (s.seat seat)

/-- A SEAT_X_ write for the seat SEAT_SEL names (R151, R152): at once while no job can run, else held. An OPTS write with RNG_DEADLINE 0, out of its range,
is ignored with CFG_REJECT, as a share write would be (DESIGN CHOICE, log entry 91). -/
def seatXWrite (s : State) (reg : Nat) (v : W32) : State :=
  let m := s.seatRegs.sel
  if !seatXOpen s m || (reg == 0x0C && bits v.toNat 15 8 == 0) then rejectCfg s m
  else
    let s := s.modSeat m (fun t => { t with set := setWord t.set reg v.toNat })
    if m ≠ 0 ∧ (s.seat m).state ≤ 1 then applySeatX s m else s

/-- `reg` is the offset of a SEAT_X_ register: 0x0C to 0x20. -/
def execSeatXWrite (reg : Nat) (value : W32) (s : State) : Out :=
  ok (fin (mgrWrite s (0x20000 + reg % 0x100) (seatXWrite · (reg % 0x100) value)))

-- Translation ---------------------------------------------------------------------------------------------------------------

/-- SEAT_ATU_INV (R141, R168): covered translations are dropped; BUSY until no walk begun before it is left. -/
def atuInv (s : State) (v : W32) : State :=
  let n := v.toNat
  if s.mem.inv.isSome then s
  else if n / 2 ^ 30 = 3 ∨ (n / 2 ^ 30 = 2 ∧ bits n 29 16 = 0) then refuse s 0x20040 v
  else
    let s := tlbDrop s (invCovers n s.seatRegs.invAddr)
    { s with mem := { s.mem with inv := some (n, s.seatRegs.invAddr, s.mem.nextId) } }

def execAtuInvalidate (value : W32) (s : State) : Out := ok (fin (mgrWrite s 0x20040 (atuInv · value)))

/-- A walk is at work for an access begun before the mark. -/
def walking (mark : Nat) (a : Access) : Bool :=
  decide (a.id < mark) && (match a.st with
    | .walk _ _ => true
    | .walkOut _ _ _ _ => true
    | _ => false)

/-- ATU_INVALIDATE_DONE: what walks under way have cached meanwhile is dropped too, and BUSY clears. -/
def atuInvDone (s : State) : State :=
  match s.mem.inv with
  | none => s
  | some (word, addr, mark) =>
    if s.mem.accesses.any (walking mark) then s
    else
      let s := tlbDrop s (invCovers word addr)
      { s with mem := { s.mem with inv := none } }

def execAtuInvalidateDone (s : State) : Out := ok (fin (whenDo s.up s atuInvDone))

/-- A read of SEAT_ATU_FAULT clears the log (R139). -/
def faultRead (s : State) : State := (readBack s s.seatRegs.fault).modRegs (fun g => { g with fault := 0 })

def execAtuFaultRead (s : State) : Out := ok (hregRead s 0x20050 0 faultRead)

-- Registers -----------------------------------------------------------------------------------------------------------------

/-- SEAT_STATE. -/
def seatWord (t : Seat) : Nat :=
  t.gen * 2 ^ 16 + flag t.cfgReject 15 + flag t.saved 14 + flag t.offer 13 + flag (t.transit != .none) 12 + flag t.writesOpen 11 + flag t.spent 10 + t.state

def useK (s : State) (seat : Nat) : Nat := slotCount s seat * 2 ^ 16 + schedCount s seat

def seatReg (s : State) (off : Nat) : Nat :=
  let g := s.seatRegs
  let x := (s.seat g.sel).set
  if 0x28000 ≤ off then
    let k := off % 0x8000 / 0x20
    let t := s.seat k
    match off % 0x20 with
    | 0x00 => seatWord t
    | 0x04 => t.shareW
    | 0x08 => t.shareJ
    | 0x0C => t.shareK
    | 0x10 => seatInflight s k
    | 0x14 => useK s k
    | 0x18 => t.faultCnt
    | _ => 0
  else
    match off % 0x10000 with
    | 0x04 => g.cmdSts
    | 0x08 => g.sel
    | 0x0C => x.opts
    | 0x10 => x.root % 2 ^ 32
    | 0x14 => x.root / 2 ^ 32
    | 0x18 => x.keytab % 2 ^ 32
    | 0x1C => x.keytab / 2 ^ 32
    | 0x20 => x.keyLen
    | 0x28 => g.migBuf % 2 ^ 32
    | 0x2C => g.migBuf / 2 ^ 32
    | 0x30 => g.migBufLen
    | 0x34 => g.migLen
    | 0x44 => g.invAddr % 2 ^ 32
    | 0x48 => g.invAddr / 2 ^ 32
    | 0x4C => flag s.mem.inv.isSome 0
    | 0x50 => g.fault
    | 0x54 => g.faultAddr % 2 ^ 32
    | 0x58 => g.faultAddr / 2 ^ 32
    | _ => 0

def seatWrite (s : State) (off : Nat) (v : W32) : State :=
  let n := v.toNat
  if 0x28000 ≤ off then
    let k := off % 0x8000 / 0x20
    match off % 0x20 with
    | 0x00 => s.modSeat k (fun t => { t with cfgReject := t.cfgReject && !n.testBit 15 })
    | 0x04 => shareWrite s k 0 v
    | 0x08 => shareWrite s k 1 v
    | 0x0C => shareWrite s k 2 v
    | _ => s
  else
    match off % 0x10000 with
    | 0x00 => seatCmd s (n / 2 ^ 24) (n % 1024) (n.testBit 16)
    | 0x08 => s.modRegs (fun g => { g with sel := n % 1024 })
    | 0x0C => seatXWrite s 0x0C v
    | 0x10 => seatXWrite s 0x10 v
    | 0x14 => seatXWrite s 0x14 v
    | 0x18 => seatXWrite s 0x18 v
    | 0x1C => seatXWrite s 0x1C v
    | 0x20 => seatXWrite s 0x20 v
    | 0x28 => s.modRegs (fun g => { g with migBuf := putLo 1 g.migBuf n })
    | 0x2C => s.modRegs (fun g => { g with migBuf := putHi g.migBuf n })
    | 0x30 => s.modRegs (fun g => { g with migBufLen := n })
    | 0x40 => atuInv s v
    | 0x44 => s.modRegs (fun g => { g with invAddr := putLo 4096 g.invAddr n })
    | 0x48 => s.modRegs (fun g => { g with invAddr := putHi g.invAddr (n % 2 ^ 16) })
    | _ => s

end Sys2Proof.Machine
end

