-- ==== Sys2Proof/Machine/Sensors.lean ====
section
/-! DEFINITION. Sensors, the clearing of alarms, faults of sequencers and wings, lost port clocks, accesses that are not permitted, prompts taken,
and the alarm registers (chapters 1, 2 and 18). -/

namespace Sys2Proof.Machine

def State.modAlarms (s : State) (f : Alarms → Alarms) : State := { s with alarms := f s.alarms }

-- Sensors -------------------------------------------------------------------------------------------------------------------

/-- A temperature in 1/16 °C, two's complement in the low 16 bits of its word. -/
def tempOf (d : W32) : Int := toInt 16 d.toNat

/-- The quantity is past the limit of its sensor (R525); the limits are strict, but for the warning. -/
def tripsAt (s : State) (x : Sensor) (d0 d1 : W32) : Bool :=
  match x with
  | .vcoreLow => decide (d0.toNat < 570)
  | .vcoreHigh => decide (1000 < d0.toNat)
  | .vsram => decide (d0.toNat + 20 < d1.toNat) || decide (d0.toNat < 720)
  | .vaon => decide (d0.toNat < 710)
  | .glitch => decide (60 < d0.toNat)
  | .tempHigh => decide (115 * 16 < tempOf d0)
  | .tempLow => decide (tempOf d0 < -(45 * 16))
  | .tempWarn => decide ((s.alarms.tempWarn : Int) * 16 ≤ tempOf d0)
  | .shield => decide (d0.toNat < 16)
  | .avd18 => decide (d0.toNat < 1710) || decide (1890 < d0.toNat)

/-- Cause of a sensor (R524). -/
def sensorCause (x : Sensor) : Nat :=
  match x with
  | .vcoreLow => 0x01
  | .vcoreHigh => 0x02
  | .vsram => 0x03
  | .vaon => 0x04
  | .glitch => 0x05
  | .tempHigh => 0x06
  | .tempLow => 0x07
  | .shield => 0x08
  | .tempWarn => 0x4E
  | .avd18 => 0x4F

/-- Bit of ALM_SENSOR. -/
def sensorBit (x : Sensor) : Nat :=
  match x with
  | .vcoreLow => 0
  | .vcoreHigh => 0
  | .vsram => 1
  | .vaon => 2
  | .glitch => 3
  | .tempHigh => 4
  | .tempLow => 5
  | .shield => 6
  | .tempWarn => 7
  | .avd18 => 8

/-- The alarm of a trip: two details for VSRAM, one for the others. -/
def raiseTrip (s : State) (x : Sensor) (d0 d1 : W32) : State :=
  let c := sensorCause x
  if c < 0x40 then alarmA s c d0.toNat (if x = .vsram then d1.toNat else 0) else alarmC s c d0.toNat 0

def sensorHolds (s : State) (x : Sensor) : Bool := s.alarms.holds.any (fun h => h.1 == x)

/-- What the sensor measures shows in ALM_TEMP or ALM_VCORE. -/
def sensorRead (s : State) (x : Sensor) (d0 : W32) : State :=
  match x with
  | .vcoreLow => s.modAlarms (fun a => { a with vcore := w32 (d0.toNat % 4096) })
  | .vcoreHigh => s.modAlarms (fun a => { a with vcore := w32 (d0.toNat % 4096) })
  | .tempHigh => s.modAlarms (fun a => { a with temp := w32 (d0.toNat % 65536) })
  | .tempLow => s.modAlarms (fun a => { a with temp := w32 (d0.toNat % 65536) })
  | .tempWarn => s.modAlarms (fun a => { a with temp := w32 (d0.toNat % 65536) })
  | _ => s

/-- SENSOR_TRIP (R100, R525): before the sensors are armed the condition is only held; the warning and AVD18 wait until re-armed. -/
def sensorTrip (s : State) (x : Sensor) (d0 d1 : W32) : State :=
  let s := if s.up then sensorRead s x d0 else s
  if !tripsAt s x d0 d1 then s
  else
    let was := sensorHolds s x
    let s := s.modAlarms (fun a => { a with holds := (x, d0, d1) :: a.holds.filter (fun h => h.1 != x) })
    if !s.up || !s.alarms.armed || (was && (x == .tempWarn || x == .avd18)) then s else raiseTrip s x d0 d1

def execSensorTrip (sensor : Sensor) (detail0 detail1 : W32) (s : State) : Out := ok (carryAll (sensorTrip s sensor detail0 detail1))

/-- SENSOR_CONDITION_END: the bit clears, and the warning and AVD18 are re-armed (R525). -/
def execSensorConditionEnd (sensor : Sensor) (s : State) : Out :=
  ok (s.modAlarms (fun a => { a with holds := a.holds.filter (fun h => h.1 != sensor) }))

/-- The sensors in the order of their causes. -/
def sensorOrder : List Sensor := [.vcoreLow, .vcoreHigh, .vsram, .vaon, .glitch, .tempHigh, .tempLow, .shield, .tempWarn, .avd18]

/-- The sensors are armed at the end of start step 2: conditions that hold trip at once (R525), in the order of their causes (R539). -/
def armSensors (s : State) : State :=
  (sensorOrder.filterMap (fun x => s.alarms.holds.find? (fun h => h.1 == x))).foldl (fun s h => raiseTrip s h.1 h.2.1 h.2.2)
    (s.modAlarms (fun a => { a with armed := true }))

-- Class A -------------------------------------------------------------------------------------------------------------------

/-- LOCKSTEP: the two stage manager cores disagree (R524). -/
def execLockstep (s : State) : Out := ok (carryAll (whenDo s.up s (alarmA · 0x0C 0 0)))

/-- ERASURE_VERIFIED: step 5 of the class A sequence. -/
def execErasureVerified (erased : Erasure) (s : State) : Out := ok (carryAll (whenDo (s.up && s.alarms.verifying) s (erasureVerified · erased)))

-- Clearing ------------------------------------------------------------------------------------------------------------------

/-- RESULT of CLEAR_A (R534). -/
def clearAResult (s : State) : Nat :=
  let a := s.alarms
  if !a.aActive then 4
  else if a.clearLock then 3
  else if a.holds.any (fun h => decide (sensorBit h.1 ≤ 6)) || a.verifying then 1
  else 0

/-- RESULT of CLEAR_B. -/
def clearBResult (s : State) : Nat := if !s.alarms.bActive then 4 else if healthy s < 4 then 2 else 0

/-- An accepted CLEAR_A (R528): fetching and intake resume, instances are requested, the hops are keyed. -/
def acceptA (s : State) : State :=
  tryWants (sendHello (requestAll (vector (s.modAlarms (fun a => { a with aActive := false, aCause := 0 })) 0)) false)

/-- An accepted CLEAR_B (R412). -/
def acceptB (s : State) : State := requestAll (vector (s.modAlarms (fun a => { a with bActive := false, bCause := 0 })) 0)

/-- A write to ALM_CLEAR (R534): CLEAR_A is judged first, then CLEAR_B; a class that is not named is not cleared. -/
def almClear (s : State) (a b : Bool) : State :=
  let ra := if a then clearAResult s else 4
  let s := if ra = 0 then acceptA s else s
  let rb := if b then clearBResult s else 4
  let s := if rb = 0 then acceptB s else s
  let r := if ra = 1 ∨ ra = 3 then ra else if rb = 2 then 2 else if ra = 0 ∨ rb = 0 then 0 else 4
  s.modAlarms (fun x => { x with clearResult := r })

def execClearA (s : State) : Out := ok (carryAll (mgrWrite s 0xB0004 (almClear · true false)))

def execClearB (s : State) : Out := ok (carryAll (mgrWrite s 0xB0004 (almClear · false true)))

-- Sequencers and wings ------------------------------------------------------------------------------------------------------

/-- The job's chaining state is in the bay: it has started there, or is paused with its record clear. -/
def heldInBay (b : Nat) (j : Job) : Bool :=
  match j.phase, j.held with
  | .inBay x, _ => x == b
  | .paused x, .clear _ => x == b
  | .paused x, .stuck => x == b
  | _, _ => false

/-- Jobs queued for a bay return to the dispatcher (R233). -/
def returnQueued (s : State) (b : Nat) : State :=
  { s with jobs := s.jobs.map (fun j => match j.phase with
      | .queuedBay x => if x = b then { j with phase := .held, returned := true } else j
      | .paused x => if x = b ∧ j.outcome.isNone then { j with phase := .held, returned := true } else j
      | _ => j) }

/-- SEQUENCER_FAULT (R28): the bay is retired, its jobs complete with INTERNAL 0x0C, it is wiped and recorded. -/
def sequencerFault (s : State) (b : Nat) : State :=
  let s := s.modBay b (fun x => { x with retired := true })
  let s := stopWhere s (heldInBay b) stInternal 0x0C
  let s := wipeBay (returnQueued s b) b
  let s := modStartRec s (fun r => { r with retired := maskSet r.retired b true })
  let s := if isGuarded b then zeroInst s (1024 + b / 8) else s
  mendHome (alarmC s 0x50 b 0)

def execSequencerFault (bay : Nat) (s : State) : Out := ok (carryAll (whenDo (s.up && s.bayOk (bay % 64)) s (sequencerFault · (bay % 64))))

/-- A job is held in a bay of the wing, or is its engine's. -/
def heldInWing (w : Nat) (j : Job) : Bool :=
  (List.range 8).any (fun i => heldInBay (8 * w + i) j) || j.phase == .queuedEng w || j.phase == .inEng w

/-- WING_FAILURE (R34): the jobs held in the wing and those of its engine complete with INTERNAL 0x0D; jobs queued for its bays return to the dispatcher
(R206, R233); the next start excludes it. -/
def wingFailure (s : State) (w : Nat) : State :=
  let s := stopWhere s (heldInWing w) stInternal 0x0D
  let s := (List.range 8).foldl (fun s i => returnQueued s (8 * w + i)) s
  let s := zeroInst (markWingFailed s w) (1024 + w)
  alarmC s 0x51 w 0

def execWingFailure (wing : Nat) (s : State) : Out := ok (carryAll (whenDo (s.up && s.wingOk (wing % 8)) s (wingFailure · (wing % 8))))

-- Port clocks ---------------------------------------------------------------------------------------------------------------

/-- DETAIL0 of PORT_CLOCK. -/
def clkNumber (p : ClkPort) : Nat :=
  match p with
  | .mclk0 => 0
  | .mclk1 => 1
  | .mclk2 => 2
  | .mclk3 => 3
  | .pkclk => 4
  | .rlclk => 5
  | .hclk => 6

/-- PORT_CLOCK_LOST (R59): no edge for 10 us of stage time; transfers of the port stall with their state kept. -/
def execPortClockLost (port : ClkPort) (s : State) : Out :=
  ok (whenDo (s.up && s.time.runs && !s.mem.stalled.contains port) s (fun s =>
    alarmC { s with mem := { s.mem with stalled := port :: s.mem.stalled } } 0x41 (clkNumber port) 0))

/-- PORT_CLOCK_RETURN: the transfers resume. -/
def execPortClockReturn (port : ClkPort) (s : State) : Out :=
  let s := { s with mem := { s.mem with stalled := s.mem.stalled.filter (· != port) } }
  ok (carryAll (sendHello (hopDrain (hopDrain s .east) .west) false))

-- Ports ---------------------------------------------------------------------------------------------------------------------

/-- ACCESS_VIOLATION: an access that R62 does not permit (R63, R65, R543). -/
def execAccessViolation (src off : Nat) (write : Bool) (s : State) : Out :=
  let o := off % 2 ^ 24 / 4 * 4
  ok (whenDo (!permitted (src % 2048) o write) s (fun s => hreg s (src % 2048) o write id))

/-- PROMPT_ACCEPT: the endpoint takes the oldest prompt (R73, R74); its port runs on HCLK. -/
def execPromptAccept (s : State) : Out :=
  ok (whenDo (!s.mem.stalled.contains .hclk) s (fun s => { s with prompts := s.prompts.drop 1 }))

-- Registers -----------------------------------------------------------------------------------------------------------------

/-- The bytes of an entry of the alarm log (R536). -/
def almEntryBytes (e : AlmEntry) : Bytes :=
  leBytes 4 (e.cause * 2 ^ 24 + e.cls * 2 ^ 22) ++ leBytes 4 e.d0.toNat ++ leBytes 4 e.d1.toNat ++ zeros 4 ++ leBytes 8 e.stamp ++ zeros 8

/-- Reads of the alarm range. -/
def almReg (s : State) (off : Nat) : Nat :=
  let a := s.alarms
  match off with
  | 0xB0000 => flag a.aActive 31 + flag a.bActive 30 + flag a.eraseFail 29 + flag a.clearLock 28 + a.aCause * 2 ^ 16 + a.bCause * 2 ^ 8
  | 0xB0008 => a.clearResult
  | 0xB000C => if a.armed then maskOf 9 (fun i => a.holds.any (fun h => sensorBit h.1 == i)) else 0
  | 0xB0010 => a.temp.toNat
  | 0xB0014 => a.tempWarn
  | 0xB0018 => a.vcore.toNat
  | 0xB001C => a.cntA
  | 0xB0020 => a.cntB
  | 0xB0024 => a.cntC
  | 0xB0028 => a.lastA
  | 0xB002C => a.total * 2 ^ 8 + (if a.log = [] then 0 else (a.total + 63) % 64)
  | 0xB0030 => a.maskC.toNat
  | _ =>
    if 0xB0800 ≤ off ∧ off < 0xB1000 then
      match a.log.find? (fun e => e.1 == (off - 0xB0800) / 32) with
      | some e => fieldLE (almEntryBytes e.2) (off % 32) 4
      | none => 0
    else 0

/-- Writes to the alarm range (R540). -/
def almWrite (s : State) (off : Nat) (v : W32) : State :=
  let n := v.toNat
  match off with
  | 0xB0004 => almClear s (n.testBit 1) (n.testBit 0)
  | 0xB0014 => if 60 ≤ n % 256 ∧ n % 256 ≤ 110 then s.modAlarms (fun a => { a with tempWarn := n % 256 }) else refuse s off v
  | 0xB0030 => s.modAlarms (fun a => { a with maskC := v })
  | _ => s

/-- ALARM_N (R93, R533): low while a class A or class B alarm is in force; high while PORST_N is low. -/
def alarmN (s : State) : Bool := s.start.porst || !(s.alarms.aActive || s.alarms.bActive)

end Sys2Proof.Machine
end

