-- ==== Sys2Proof/Machine/Boot.lean ====
section
/-! DEFINITION. Starting the block (chapter 3): the twelve steps with their bounds and outcomes, the start journal, images and versions, safe
stage, ROOTKEY, the commands of the stage manager and its registers. -/

namespace Sys2Proof.Machine

-- Steps ---------------------------------------------------------------------------------------------------------------------

/-- Bound of a step in ns (R103). -/
def stepBound (k : Nat) : Nat :=
  match k with
  | 1 => 20000
  | 2 => 200000
  | 3 => 1100000
  | 4 => 2000000
  | 5 => 100000
  | 6 => 5000000
  | 7 => 5000000
  | 8 => 10000
  | 9 => 3000000
  | 10 => 1000000
  | 11 => 50000000
  | _ => 1000000000

def outNotRun : Nat := 0
def outStarted : Nat := 1
def outPass : Nat := 2
def outAlt : Nat := 3
def outSkipped : Nat := 4
def outFailed : Nat := 5
def outUntested : Nat := 6
def outAccepted : Nat := 7
def outAbsent : Nat := 8

/-- A foundation step fails (R102). -/
def failHalt (s : State) (k : Nat) : State := halt (putOutcome s k outFailed)

/-- Seat 0 runs from READY or safe stage on (R131). -/
def seatZeroRuns (s : State) : State := s.modSeat 0 (fun t => { t with state := 2, bucket := 65536 })

/-- What READY and safe stage share: seat 0, and vector 6 while SEC_RESTARTED is 1 (R471). -/
def enterService (s : State) : State :=
  let s := requestAll (seatZeroRuns s)
  if s.time.secRestarted then vector s 6 else s

/-- The start ends in safe stage at step `k` (R117); step 12 runs on. -/
def safeStage (s : State) (k cause : Nat) : State := enterService (endStart (s.modStart (fun t => { t with step := k })) 4 cause)

/-- The start ends in READY (R104); the home table is written (R209). -/
def enterReady (s : State) : State := enterService (fillHome (endStart s 3 0))

/-- Step `k` of the main sequence begins (R108). -/
def beginStep (s : State) (k : Nat) : State :=
  putOutcome (s.modStart (fun t => { t with running := some k, step := k, stepAt := s.mono, state := 1 })) k outStarted

/-- What step 1 planned for a step (R111): a failure count, or for an optional step 1 when it failed at the previous start. -/
def planOf (s : State) (k : Nat) : Nat := s.start.planned.getD (k - 1) 0

-- Journal -------------------------------------------------------------------------------------------------------------------

/-- A bad journal is cleared, and the clearing is recorded (R109). CLEARED stays set through later starts, until the journal is lost with VAON: the manual gives
nothing that clears it (DESIGN CHOICE, log entry 95). -/
def journalCheck (s : State) : State :=
  if s.journal.good then s else s.modJournal (fun _ => { good := true, cleared := true })

/-- One past the largest TXN_ID of the records held: what NEXT_TXN becomes when its header is cleared, since a TXN_ID is never used again (R518; DESIGN CHOICE, log
entry 133). -/
def txnAfter (s : State) : Nat := s.cust.recs.foldl (fun n p => max n ((p.2.txn + 1) % 2 ^ 32)) 0

/-- A record of the custodian journal that fails its CRC is cleared, and the clearing raises the class C alarm (R518). -/
def dropCustRec (s : State) (i : Nat) : State := alarmC (s.modCust (fun c => { c with recs := tabSet {} c.recs i {} })) 0x4D 0 0

/-- The custodian journal is checked, its records and its header each by its own CRC; every clearing raises the class C alarm (R518). -/
def custJournalCheck (s : State) : State :=
  let t := (s.cust.badRecs.foldl dropCustRec s).modCust (fun c => { c with badRecs := [] })
  if t.cust.jGood then t else alarmC (t.modCust (fun c => { c with jGood := true, nextTxn := txnAfter t })) 0x4D 0 0

/-- Outcomes of the newest record. -/
def lastOutcomes (s : State) : List Nat := (tabGet {} s.journal.recs s.journal.last).outcomes

/-- Steps the previous start left STARTED count as FAILED (R109). A reset in AWAIT_IMAGES finds step 12 STARTED, which runs beside the wait: it counts against
step 12, as any STARTED does (DEDUCED, log entry 96). -/
def countCut (s : State) : State :=
  let o := lastOutcomes s
  s.modJournal (fun j => { j with fails := (List.range 12).map (fun i =>
    let n := j.fails.getD i 0
    if o.getD i 0 = outStarted then failAfter (i + 1) outFailed n else n) })

/-- The plan of a start (R102, R111). -/
def planSteps (s : State) : List Nat :=
  let o := lastOutcomes s
  (List.range 12).map (fun i =>
    if 9 ≤ i then (if o.getD i 0 = outStarted ∨ o.getD i 0 = outFailed then 1 else 0) else s.journal.fails.getD i 0)

/-- Start step 1 begins when a reset is released (R103, R109, R114): the journals are checked, the plan is made, a new record is opened. -/
def startBegin (s : State) : State :=
  let s := countCut (journalCheck (custJournalCheck s))
  let p := planSteps s
  let s := s.modStart (fun t =>
    { t with planned := p, outcomes := List.replicate 12 0, safeCause := 0, plan9 := maskOf 8 (fun w => !s.journal.excl.testBit w) })
  let s := s.modJournal (fun j =>
    let n := (j.count + 1) % 2 ^ 32
    let i := (j.last + 1) % 16
    { j with count := n, last := i, recs := tabSet {} j.recs i { startNo := n, secureT := s.secs, state := 1 } })
  beginStep s 1

-- ROOTKEY -------------------------------------------------------------------------------------------------------------------

/-- Step 3 begins: ROOTKEY_REQ rises (R88). -/
def beginLadder (s : State) : State := (beginStep s 3).modStart (fun t => { t with rootReq := true, rootKey := none, rootBad := false })

/-- ROOTKEY_ACK rises (R89): the secret is latched and judged, ROOTKEY_REQ falls. -/
def rootkeyAck (s : State) (data : BitVec 256) (err : Bool) : State :=
  s.modStart (fun t => { t with rootReq := false, rootKey := some data.toNat, rootBad := err || data.toNat == 0 || data.toNat == 2 ^ 256 - 1 })

/-- The secret is latched while ROOTKEY_REQ is high, up to 1 ms after it rose. -/
def execRootkeyAck (data : BitVec 256) (err : Bool) (s : State) : Out :=
  ok (whenDo (s.up && s.start.rootReq && !s.past (s.start.stepAt + 1000000 * nsUnit)) s (rootkeyAck · data err))

/-- ROOTKEY_TIMEOUT (R89): 1 ms after the request, it falls and the step fails. -/
def execRootkeyTimeout (s : State) : Out :=
  ok (fin (whenDo (s.up && s.start.rootReq && s.past (s.start.stepAt + 1000000 * nsUnit)) s (failHalt · 3)))

/-- The block key from the root secret (R366); the secret is forgotten. -/
def deriveBk (s : State) (root : Nat) : State :=
  (s.modKeys (fun k => { k with bk := some (ladderKdf (beBytes 32 root) "GXP block" (beBytes 4 0x47585064)) })).modStart (fun t => { t with rootKey := none })

-- Entropy -------------------------------------------------------------------------------------------------------------------

/-- Step 4 begins (R402, R407): the sources run, and seat 0's instance is requested. -/
def beginEntropy (s : State) : State :=
  let s := beginStep s 4
  instRequest { s with entropy := { s.entropy with on := true } } 0

/-- Sources that have passed their start-up test and run: one that failed a later block before the step is judged does not count, which R106 leaves open (DESIGN
CHOICE, log entry 112). -/
def sourcesPassed (s : State) : Nat := ((List.range 16).filter (fun i => (s.source i).st == 1)).length

/-- End of step 4 (R366, R367): EPOCH and WRAP_STARTS, the epoch tag, the seal count. -/
def epochStep (s : State) : State :=
  let s := if !s.keys.epochGood || s.keys.wrapStarts == 2 ^ 32 - 1 then
      let r := draw s 0 8 []
      r.1.modKeys (fun k => { k with epoch := beNat r.2, wrapStarts := 0, epochGood := true, epochNew := true })
    else s.modKeys (fun k => { k with wrapStarts := k.wrapStarts + 1 })
  s.modKeys (fun k => { k with epochTag := epochTagOf s, sealCount := 0 })

-- Images --------------------------------------------------------------------------------------------------------------------

/-- Largest image of a kind (R120). -/
def imgMax (kind : Nat) : Nat := if kind = 1 then 4 * 2 ^ 20 else 2 ^ 20

/-- Address the step in progress fetches from (R111). "None registered" is the whole 64-bit alternate address being zero, though the words stand in the row of
SMG_IMG_SMF_ALT_LO alone (DEDUCED, log entry 97). -/
def imgAddr (s : State) : Nat :=
  if s.start.running = some 6 then (if planOf s 6 ≠ 0 ∧ s.start.imgAlt ≠ 0 then s.start.imgAlt else s.start.imgSmf) else s.start.imgSqm

/-- A read of the image under seat 0 in bootstrap translation (R118). -/
def addBoot (s : State) (part va len : Nat) : State := addAccess s (fun i => { id := i, owner := .image part, boot := true, va := va, len := len })

/-- The fetch of an image begins with its header. -/
def beginFetch (s : State) (k : Nat) : State :=
  let s := (beginStep s k).modStart (fun t => { t with imgGot := [], imgLen := none, imgErr := false })
  addBoot s 0 (imgAddr s) 64

/-- An answered read of the image: with the header its length is known and the rest is read, page by page; the registered range ends there. -/
def imageData (s : State) (part : Nat) (b : Bytes) : State :=
  let s := s.modStart (fun t => { t with imgGot := tabPut t.imgGot part b })
  if part ≠ 0 then s
  else
    let n := fieldLE b 12 4
    let kind := if s.start.running = some 6 then 1 else 2
    if n < 64 ∨ imgMax kind < n then s.modStart (fun t => { t with imgErr := true })
    else
      let ps := pages (imgAddr s + 64) (n - 64)
      ((List.range ps.length).zip ps).foldl (fun s p => addBoot s (p.1 + 1) p.2.1 p.2.2) (s.modStart (fun t => { t with imgLen := some n }))

/-- The whole image, once every piece has come. -/
def imgWhole (s : State) : Option Bytes :=
  match s.start.imgLen with
  | some n =>
    let b := (s.start.imgGot.map (·.2)).flatten
    if b.length = n then some b else none
  | none => none

/-- Every header field holds a value its table allows (R120; the body lies before the table, log entry 58). -/
def headerOk (kind : Nat) (b : Bytes) : Bool :=
  let cnt := fieldLE b 24 2
  b.take 4 == ascii "XOMI" && fieldLE b 4 2 == 1 && fieldLE b 6 1 == kind && fieldLE b 7 1 == 0
    && decide (1 ≤ cnt) && decide (cnt ≤ 256) && fieldLE b 26 2 == 0 && (sliceZ b 32 32) == zeros 32
    && decide (64 + fieldLE b 16 4 ≤ fieldLE b 20 4)
    && fieldLE b 28 4 == fieldLE b 20 4 + 12 * cnt && fieldLE b 12 4 == fieldLE b 28 4 + 4723 && decide (fieldLE b 12 4 ≤ imgMax kind)

/-- Both signatures verify under the Lastiward keys (R120). -/
def signed (b : Bytes) : Bool :=
  let n := fieldLE b 28 4
  let h := sha384 (b.take n)
  let r := fieldBE b n 48
  let t := fieldBE b (n + 48) 48
  (match p384.decode Config.lastiwardP384 with
   | .ok q => decide (0 < r) && decide (r < p384.n) && decide (0 < t) && decide (t < p384.n) && p384.verify q h r t
   | .error _ => false)
  && dsaVerify 0x23 Config.lastiwardMldsa87 (shake256 (shake256 Config.lastiwardMldsa87 64 ++ [0, 0] ++ h) 64) (sliceZ b (n + 96) 4627) == (0, 0)

def imgOk (kind : Nat) (b : Bytes) : Bool := headerOk kind b && signed b

/-- The compatibility table of an image. -/
def compatOf (b : Bytes) : Bytes := sliceZ b (fieldLE b 20 4) (12 * fieldLE b 24 2)

/-- A field of an entry matches; build 0xFFFF matches any build (R122). -/
def verMatch (entry v : Nat) : Bool := entry == v || (entry % 65536 == 0xFFFF && entry / 65536 == v / 65536)

/-- The triple stands in a table. -/
def listed (t : Bytes) (smf sqm : Nat) : Bool :=
  (chunks 12 t).any (fun e => fieldLE e 0 4 == hwRev && verMatch (fieldLE e 4 4) smf && verMatch (fieldLE e 8 4) sqm)

-- Going from step to step ---------------------------------------------------------------------------------------------------

/-- Step 12 begins when step 5 ends (R104), unless it is skipped. -/
def beginCard (s : State) : State :=
  if planOf s 12 ≠ 0 then putOutcome s 12 outSkipped
  else putOutcome (s.modStart (fun t => { t with step12 := true, step12At := s.mono })) 12 outStarted

/-- Step 6 (R111). -/
def beginSmf (s : State) : State :=
  if planOf s 6 = 3 then safeStage (putOutcome s 6 outFailed) 6 5 else beginFetch s 6

/-- After step 5: the wait for the images, or step 6 at once (R105, R119). -/
def afterTranslation (s : State) : State :=
  let s := beginCard s
  if s.start.imagesValid then beginSmf s else s.modStart (fun t => { t with running := none, state := 2 })

/-- Step 7 (R111, R121): the golden image needs no fetch. -/
def beginSqm (s : State) : State :=
  if planOf s 7 = 3 then safeStage (putOutcome s 7 outFailed) 7 5
  else if planOf s 7 = 0 then beginFetch (dropImage s) 7
  else (beginStep (dropImage s) 7).modStart (fun t => { t with golden := true })

/-- Step 9 (R111): the wings that step 1 planned are woken one at a time. -/
def beginWings (s : State) : State := if planOf s 9 = 3 then safeStage (putOutcome s 9 outFailed) 9 5 else beginStep s 9

/-- Step 11 (R107, R484). -/
def beginRelay (s : State) : State :=
  if !s.params.relayPresent then enterReady (putOutcome (s.modStart (fun t => { t with step := 11 })) 11 outAbsent)
  else if planOf s 11 ≠ 0 then enterReady (putOutcome (s.modStart (fun t => { t with step := 11 })) 11 outSkipped)
  else relayBegin (beginStep s 11)

/-- Step 10 (R51): the packet ports are not ready while it runs. -/
def beginFront (s : State) : State :=
  if planOf s 10 ≠ 0 then beginRelay (putOutcome (s.modStart (fun t => { t with step := 10 })) 10 outSkipped)
  else (beginStep s 10).modFront (fun f => { f with loading := true })

/-- The nodes of a bank are cleared, and the default graph is put in. -/
def loadGraph (s : State) (bank : Bool) : State :=
  let base := if bank then 512 else 0
  putNodes (s.modFront (fun f => { f with nodes := f.nodes.filter (fun p => !(decide (base ≤ p.1) && decide (p.1 < base + 512))) })) bank
    (Config.defaultGraph s.start.smfVer)

/-- Step 10 is over: its graph is in the current bank at a start, in the inactive bank and swapped in under RUN_STEP (R434). A failed load at a start
keeps the packet ports off (R51); after a failed RUN_STEP 10 ports that were on before go on with the graph they had (DESIGN CHOICE, log entry 98). -/
def frontEnd (s : State) (good run : Bool) : State :=
  if good then
    let s := if run then doSwap (loadGraph s (!s.front.bank)) else loadGraph s s.front.bank
    s.modFront (fun f => { f with enabled := true, loading := false })
  else s.modFront (fun f => { f with loading := false })

-- Ends of steps -------------------------------------------------------------------------------------------------------------

/-- CUST_DET that reads 1 as stage time starts is seen from now on (R91). -/
def seeCard (s : State) : State := if s.cust.det then s.modCust (fun c => { c with st := 1, detAt := s.mono }) else s

/-- Step 2: stage time runs, the sensors are armed (R458, R525). -/
def doneManager (s : State) : State := armSensors (beginLadder (putOutcome (seeCard (timeStart s)) 2 outPass))

/-- Step 3 (R89): the handshake is over and good, or not. -/
def doneLadder (s : State) (good : Bool) : State :=
  match s.start.rootKey with
  | none => s
  | some r => if s.start.rootBad || !good then failHalt s 3 else beginEntropy (putOutcome (deriveBk s r) 3 outPass)

/-- Step 4 (R106). -/
def doneEntropy (s : State) : State :=
  if s.alarms.bActive then failHalt s 4
  else if 4 ≤ sourcesPassed s ∧ drawOk s 0 then beginStep (putOutcome (epochStep s) 4 outPass) 5
  else s

/-- Step 6 (R111, R120): PASS, PASS_ALT from the alternate slot, or safe stage. -/
def doneSmf (s : State) : State :=
  if s.start.imgErr then safeStage (putOutcome s 6 outFailed) 6 1
  else
    match imgWhole s with
    | none => s
    | some b =>
      if !imgOk 1 b then safeStage (putOutcome s 6 outFailed) 6 1
      else
        let alt := planOf s 6 ≠ 0 ∧ s.start.imgAlt ≠ 0
        let s := s.modStart (fun t => { t with smfVer := fieldLE b 8 4, smfCompat := compatOf b })
        beginSqm (putOutcome s 6 (if alt then outAlt else outPass))

/-- Bootstrap translation ends (R118), and step 8 begins. -/
def afterSqm (s : State) (out : Nat) : State := beginStep (putOutcome (dropImage s) 7 out) 8

def doneSqm (s : State) : State :=
  if s.start.golden then afterSqm (s.modStart (fun t => { t with sqmVer := 0x02010000, sqmCompat := [] })) outAlt
  else if s.start.imgErr then safeStage (putOutcome s 7 outFailed) 7 2
  else
    match imgWhole s with
    | none => s
    | some b =>
      if !imgOk 2 b then safeStage (putOutcome s 7 outFailed) 7 2
      else afterSqm (s.modStart (fun t => { t with sqmVer := fieldLE b 8 4, sqmCompat := compatOf b })) outPass

/-- Step 8 (R122, R123). -/
def donePairing (s : State) : State :=
  let t := s.start
  if listed t.smfCompat t.smfVer t.sqmVer || listed t.sqmCompat t.smfVer t.sqmVer then beginWings (putOutcome s 8 outPass)
  else if t.accept ∧ t.smfVer = t.acceptSmf ∧ t.sqmVer = t.acceptSqm then beginWings (putOutcome s 8 outAccepted)
  else safeStage (putOutcome s 8 outUntested) 8 3

/-- Every wing of the plan has been woken (R98). -/
def wingsAwake (s : State) : Bool := (List.range 8).all (fun w => !s.start.plan9.testBit w || (s.wing w).power == 2)

/-- Step 9 (R34, R112): `passed` is the mask of wings that passed their test; the others are GATED again (R224). -/
def doneWings (s : State) (passed : Nat) : State :=
  let plan := s.start.plan9
  let good := plan &&& passed
  let bad := plan - good
  let s := s.modJournal (fun j => { j with excl := j.excl ||| bad })
  let s := s.modStart (fun t => { t with wingsActive := good })
  let s := (List.range 8).foldl (fun s w => s.modWing w (fun x => if good.testBit w then { x with idleAt := s.mono } else { x with power := 0 })) s
  let s := (List.range 8).foldl (fun s w => if good.testBit w then reseedWing s w else s) s
  if good = 0 then safeStage (putOutcome s 9 outFailed) 9 4
  else beginFront (requestAll (putOutcome s 9 (if bad ≠ 0 then outFailed else if plan = 255 then outPass else outAlt)))

/-- Step 10. -/
def doneFront (s : State) (good : Bool) : State :=
  beginRelay (putOutcome (if good then frontEnd s true false else s) 10 (if good then outPass else outFailed))

/-- Step 11 (R484). -/
def doneRelay (s : State) : State :=
  match relayVerdict s with
  | none => s
  | some good => enterReady (putOutcome s 11 (if good then outPass else outFailed))

/-- Outcome of step 11 at its bound: a block that holds a member number and a MAP has passed it (R484). -/
def relayAtBound (s : State) : Nat := if relayVerdict s = some true then outPass else outFailed

/-- A command of SMG_CMD ends (R126): RESULT, and vector 2. -/
def smgEnd (s : State) (result : Nat) : State := vector (s.modStart (fun t => { t with cmdBusy := false, cmdResult := result, runStep := none })) 2

/-- A step that RUN_STEP runs ends (R127). -/
def runEnd (s : State) (k out : Nat) : State := smgEnd (putOutcome s k out) (if out = outFailed then 4 else 0)

/-- The card is READY (R503). -/
def cardIsReady (s : State) : Bool := s.cust.st == 4 || s.cust.st == 5

/-- Step 12 ends: the step of the start, and the one RUN_STEP runs, each with its outcome. -/
def endCard (s : State) (main run : Bool) (out outRun : Nat) : State :=
  let s := if main && s.start.step12 then putOutcome (s.modStart (fun t => { t with step12 := false })) 12 out else s
  if run && s.start.runStep == some 12 then runEnd s 12 outRun else s

/-- Within the bound of the step in progress; time does not run yet in steps 1 and 2 (log entry 59). -/
def inBound (s : State) (k from_ : Nat) : Bool := decide (k ≤ 2) || !s.past (from_ + stepBound k * nsUnit)

/-- START_STEP_DONE of the main sequence. -/
def mainDone (s : State) (k : Nat) (good : Bool) (info : Nat) : State :=
  match k with
  | 1 => if good then beginStep (putOutcome s 1 outPass) 2 else failHalt s 1
  | 2 => if good then doneManager s else failHalt s 2
  | 3 => doneLadder s good
  | 4 => doneEntropy s
  | 5 => if good then afterTranslation (putOutcome s 5 outPass) else failHalt s 5
  | 6 => doneSmf s
  | 7 => doneSqm s
  | 8 => donePairing s
  | 9 => if !good then doneWings s 0 else if wingsAwake s then doneWings s info else s
  | 10 => doneFront s good
  | _ => doneRelay s

/-- START_STEP_DONE of a step under RUN_STEP; step 10 waits until the last swap has drained (log entry 60). -/
def runDone (s : State) (k : Nat) (good : Bool) : State :=
  if k = 10 then
    if good && s.front.draining then s else runEnd (frontEnd s good true) 10 (if good then outPass else outFailed)
  else
    match relayVerdict s with
    | none => s
    | some g => runEnd s 11 (if g then outPass else outFailed)

/-- START_STEP_DONE (R103). -/
def stepDone (s : State) (k : Nat) (good : Bool) (info : Nat) : State :=
  let t := s.start
  if k = 12 then
    if cardIsReady s then endCard s (inBound s 12 t.step12At) (inBound s 12 t.stepAt) outPass outPass else s
  else if t.running = some k then (if inBound s k t.stepAt then mainDone s k good info else s)
  else if t.runStep = some k then (if inBound s k t.stepAt then runDone s k good else s)
  else s

def execStartStepDone (step : Nat) (ok : Bool) (info : Nat) (s : State) : Out :=
  .next (carryAll (whenDo s.up s (stepDone · step ok info)))

-- Bounds --------------------------------------------------------------------------------------------------------------------

/-- What the bound of a step of the main sequence brings (R102, R106, R484). At the bound of step 9 no wing of the plan has passed the step, so all of them fail
and are excluded, which R112 does not say (DESIGN CHOICE, log entry 99). -/
def mainBound (s : State) (k : Nat) : State :=
  match k with
  | 4 =>
    let n := sourcesPassed s
    if n < 4 then failHalt (if s.alarms.bActive then s else alarmB s 0x20 (healthy s)) 4
    else if !s.alarms.bActive && drawOk s 0 then doneEntropy s
    else failHalt s 4
  | 6 => safeStage (putOutcome s 6 outFailed) 6 1
  | 7 => safeStage (putOutcome s 7 outFailed) 7 2
  | 8 => donePairing s
  | 9 => doneWings s 0
  | 10 => doneFront s false
  | 11 => enterReady (putOutcome s 11 (relayAtBound s))
  | _ => failHalt s k

/-- The bound of a step is strictly earlier than now (R472). -/
def boundDue (s : State) (k from_ : Nat) : Bool := decide (k ≤ 2) || s.past (from_ + stepBound k * nsUnit)

/-- Outcome of step 12 at its bound (R107, R503); `seen`: CUST_DET has read 1. -/
def cardBound (s : State) (seen : Bool) : Nat := if cardIsReady s then outPass else if seen then outFailed else outAbsent

/-- START_STEP_BOUND (R103). -/
def stepAtBound (s : State) (k : Nat) : State :=
  let t := s.start
  if k = 12 then
    endCard s (boundDue s 12 t.step12At) (boundDue s 12 t.stepAt) (cardBound s (s.cust.det || decide (0 < s.cust.cntRemove))) (cardBound s t.cardSeen)
  else if t.running = some k then (if boundDue s k t.stepAt then mainBound s k else s)
  else if t.runStep = some k then
    (if boundDue s k t.stepAt then runEnd (if k = 10 then frontEnd s false true else s) k (if k = 11 then relayAtBound s else outFailed) else s)
  else s

def execStartStepBound (step : Nat) (s : State) : Out := ok (carryAll (whenDo s.up s (stepAtBound · step)))

-- Image and version registers -----------------------------------------------------------------------------------------------

/-- LOCK in SMG_BOOT_CTRL (R119). -/
def imgLock (s : State) : Bool := s.start.running == some 6 || s.start.running == some 7

/-- A write to SMG_BOOT_CTRL (R119): a write of IMAGES_VALID = 1 ends the wait. -/
def bootCtrl (s : State) (v : W32) : State :=
  if imgLock s then s
  else
    let b := v.toNat.testBit 0
    let s := s.modStart (fun t => { t with imagesValid := b })
    if b && s.start.state == 2 then beginSmf s else s

def execImagesValidWrite (value : W32) (s : State) : Out := ok (carryAll (mgrWrite s 0x1001C (bootCtrl · value)))

/-- A write to an ACCEPT version (R124, R514): it ends the authorization in force, and one that is on its way. -/
def acceptVersion (s : State) (sqm : Bool) (v : W32) : State :=
  endAuth ((s.modCust (fun c => { c with voided := true })).modStart (fun t => if sqm then { t with acceptSqm := v.toNat, accept := false } else { t with acceptSmf := v.toNat, accept := false })) 2

def execAcceptVersionWrite (sqm : Bool) (value : W32) (s : State) : Out :=
  ok (mgrWrite s (if sqm then 0x1002C else 0x10028) (acceptVersion · sqm value))

/-- An image address register with one half written (R118, R119). Image addresses are aligned to 4 KiB: the low 12 bits read zero in all three, which the register
table says of the first alone (DEDUCED, log entry 110). -/
def imgWrite (s : State) (off n : Nat) : State :=
  if imgLock s then s
  else
    s.modStart (fun t => match off with
      | 0x10030 => { t with imgSmf := putLo 4096 t.imgSmf n }
      | 0x10034 => { t with imgSmf := putHi t.imgSmf n }
      | 0x10038 => { t with imgAlt := putLo 4096 t.imgAlt n }
      | 0x1003C => { t with imgAlt := putHi t.imgAlt n }
      | 0x10040 => { t with imgSqm := putLo 4096 t.imgSqm n }
      | _ => { t with imgSqm := putHi t.imgSqm n })

-- Commands of the stage manager ---------------------------------------------------------------------------------------------

/-- CLEAR_FAIL (R110). -/
def clearFails (s : State) (k : Nat) : State :=
  s.modJournal (fun j => { j with fails := if k = 0 then List.replicate 12 0 else setNth j.fails 12 k 0 })

/-- RUN_STEP begins a step (R127). STEP of SMG_START_STATE stays as the start left it (DESIGN CHOICE, log entry 100). -/
def runBegin (s : State) (k : Nat) : State :=
  let s := putOutcome (s.modStart (fun t => { t with runStep := some k, cmdBusy := true, stepAt := s.mono, cardSeen := s.cust.det })) k outStarted
  if k = 10 then s.modFront (fun f => { f with loading := true })
  else if k = 11 then (if s.params.relayPresent then relayBegin s else runEnd s 11 outAbsent)
  else s

/-- SMG_CMD (R126): the code, the state, the argument, the authorization, in this order. -/
def smgCmd (s : State) (code arg : Nat) : State :=
  let st := s.start.state
  if s.start.cmdBusy then s
  else
    match code with
    | 1 => if st = 0 then smgEnd s 3 else if 12 < arg then smgEnd s 2 else smgEnd (clearFails s arg) 0
    | 2 => if st ≠ 3 then smgEnd s 3 else if arg < 10 ∨ 12 < arg then smgEnd s 2 else runBegin s arg
    | 3 =>
      if st ≠ 3 ∧ st ≠ 4 then smgEnd s 3
      else if arg ≠ 0 then smgEnd s 2
      else if !authInForce s 2 then smgEnd s 1
      else smgEnd (endAuth (s.modStart (fun t => { t with accept := true })) 2) 0
    | _ => smgEnd s 2

def execClearFail (step : Nat) (s : State) : Out := ok (mgrWrite s 0x10048 (smgCmd · 1 (step % 2 ^ 24)))

def execRunStep (step : Nat) (s : State) : Out := ok (carryAll (mgrWrite s 0x10048 (smgCmd · 2 (step % 2 ^ 24))))

def execAcceptUntested (s : State) : Out := ok (mgrWrite s 0x10048 (smgCmd · 3 0))

-- Registers -----------------------------------------------------------------------------------------------------------------

/-- A list of small numbers, `w` bits each. -/
def packNibbles (w : Nat) (l : List Nat) : Nat := l.foldr (fun x n => x % 2 ^ w + 2 ^ w * n) 0

def startRecBytes (r : StartRec) : Bytes :=
  let b := leBytes 4 r.startNo ++ leBytes 8 r.secureT ++ leBytes 6 (packNibbles 4 r.outcomes) ++ leBytes 1 r.safeCause ++ leBytes 1 r.state
    ++ leBytes 4 r.smfVer ++ leBytes 4 r.sqmVer ++ leBytes 8 r.retired ++ zeros 8
  b ++ leBytes 4 (crc32c b)

/-- The bytes of the start journal (R114); a record not written yet is zero. -/
def journalBytes (j : Journal) : Bytes :=
  let h := ascii "SJRN" ++ leBytes 4 j.count ++ leBytes 3 (packNibbles 2 j.fails) ++ leBytes 1 j.excl ++ leBytes 1 j.last ++ leBytes 1 (flag j.cleared 0) ++ zeros 46
  h ++ leBytes 4 (crc32c h) ++ ((List.range 16).map (fun i => let r := tabGet {} j.recs i; if r = {} then zeros 48 else startRecBytes r)).flatten

/-- Reads of the stage manager mailbox (R125). -/
def smgReg (s : State) (off : Nat) : Nat :=
  let t := s.start
  match off with
  | 0x10000 => t.safeCause * 2 ^ 20 + t.step * 2 ^ 8 + t.state
  | 0x10004 => s.journal.count
  | 0x10008 => packNibbles 4 (t.outcomes.take 8)
  | 0x1000C => packNibbles 4 (t.outcomes.drop 8)
  | 0x10010 => packNibbles 2 s.journal.fails
  | 0x10014 => s.journal.excl
  | 0x10018 => t.wingsActive
  | 0x1001C => flag t.accept 2 + flag (imgLock s) 1 + flag t.imagesValid 0
  | 0x10020 => t.smfVer
  | 0x10024 => t.sqmVer
  | 0x10028 => t.acceptSmf
  | 0x1002C => t.acceptSqm
  | 0x10030 => t.imgSmf % 2 ^ 32
  | 0x10034 => t.imgSmf / 2 ^ 32
  | 0x10038 => t.imgAlt % 2 ^ 32
  | 0x1003C => t.imgAlt / 2 ^ 32
  | 0x10040 => t.imgSqm % 2 ^ 32
  | 0x10044 => t.imgSqm / 2 ^ 32
  | 0x1004C => flag t.cmdBusy 31 + t.cmdResult
  | _ => if 0x10400 ≤ off ∧ off < 0x10800 then fieldLE (journalBytes s.journal) (off - 0x10400) 4 else 0

/-- Writes to the mailbox. -/
def smgWrite (s : State) (off : Nat) (v : W32) : State :=
  let n := v.toNat
  match off with
  | 0x10014 => s.modJournal (fun j => { j with excl := j.excl &&& (n ^^^ (2 ^ 32 - 1)) })
  | 0x1001C => bootCtrl s v
  | 0x10028 => acceptVersion s false v
  | 0x1002C => acceptVersion s true v
  | 0x10048 => smgCmd s (n / 2 ^ 24) (n % 2 ^ 24)
  | _ => if 0x10030 ≤ off ∧ off < 0x10048 then imgWrite s off n else s

end Sys2Proof.Machine
end

