-- ==== Sys2Proof/Machine/MemEvents.lean ====
section
/-! DEFINITION. Answers of the memory ports (R67 to R72): read data to whom it belongs, write acknowledgements, RSP_ERR. -/

namespace Sys2Proof.Machine

-- Read data -----------------------------------------------------------------------------------------------------------------

/-- A piece of a job's read has come; a packet held in the packet front goes on (a job in a unit goes on with `carryAll`). -/
def jobData (s : State) (id : Nat) (key : BufKey) (ord : Nat) (b : Bytes) : State :=
  match s.liveJob id with
  | none => s
  | some j =>
    if key.kind = .peer then gotBucket s key.a key.b b
    else
      let s := s.modJob id (fun j => { j with got := j.got ++ [(key, ord, b)] })
      if j.pkt.isSome && j.phase == .held then frontGo s id else s

/-- A bucket the peer unit has read (R452, R453). -/
def peerData (s : State) (t b : Nat) (v : Bytes) : State :=
  let s := gotBucket s t b v
  if s.front.rehashBusy && !s.alarms.verifying then rehashStep s else s

/-- A bay measures the latency of the memory reads of the jobs in it (R381). -/
def noteLatency (s : State) (a : Access) : State :=
  match a.owner with
  | .jobRead id _ _ =>
    match (s.liveJob id).map (·.phase) with
    | some (Phase.inBay b) => s.modBay b (fun x => { x with reads := x.reads + 1, readNs := x.readNs + (s.mono - a.at_) / nsUnit })
    | _ => s
  | _ => s

/-- The whole of a read has come. -/
def deliver (s : State) (a : Access) (b : Bytes) : State :=
  let s := noteLatency (s.dropAccess a.id) a
  match a.owner with
  | .jobRead id key ord => jobData s id key ord b
  | .fetch seat slot k => squash (packetIn s seat slot k b) seat
  | .image part => imageData s part b
  | .peerRead t x => peerData s t x b
  | .migRead ord => migGo (s.modRegs (fun r => { r with migGot := tabPut r.migGot ord b })) false
  | .mailRead ord => mailData s ord b
  | _ => s

/-- Beats of 128 bytes a request takes (R66). -/
def beatsOf (phys len : Nat) : Nat := ceilDiv (phys % 128 + len) 128

/-- One beat of a walk: the entry is judged (R136, R137). A walk whose request has ended is dropped. -/
def walkBeat (s : State) (a : Access) (level table : Nat) (beat : Bytes) : State :=
  if a.owner = .orphan then s.dropAccess a.id
  else
    match walkAnswer s a level table beat with
    | (s, none) => s
    | (s, some sub) => onFault s a sub none

/-- A response of a memory port changes nothing: it is one of the 10 us after a reset, received and discarded (R72), or the port's clock is lost and
the transfer stalls until it returns (R59). -/
def responseIdle (s : State) (port : Nat) : Bool := s.mem.discard || portStalled s port

/-- Beats of a read request received with one more: whole, and whether the last beat should be marked. -/
def beatsIn (a : Access) (phys : Nat) (v : Bytes) : Bytes × Bool :=
  (a.data ++ v, decide (128 * beatsOf phys a.len ≤ (a.data ++ v).length))

/-- MEM_READ_DATA: a beat answers the request on its port and tag; beats come in address order and the last one is marked (R68). -/
def execMemReadData (port tag : Nat) (beat : Bytes) (last : Bool) (s : State) : Out :=
  if responseIdle s port then .next s
  else
    match answered s port tag with
    | none => .fault .unsolicitedResponse
    | some a =>
      let v := sliceZ beat 0 128
      match a.st with
      | .walkOut l t _ _ => if last then .next (carryAll (walkBeat s a l t v)) else .fault .unsolicitedResponse
      | .out phys _ _ =>
        let d := beatsIn a phys v
        if a.write || d.2 != last then .fault .unsolicitedResponse
        else if d.2 then .next (carryAll (deliver s a (sliceZ d.1 (phys % 128) a.len)))
        else .next (s.modAccess a.id (fun a => { a with data := d.1 }))
      | _ => .fault .unsolicitedResponse

-- Acknowledgements ----------------------------------------------------------------------------------------------------------

/-- A completion record is acknowledged (R188, R195, R564): the ring's index moves on and the job is complete. -/
def recordDone (s : State) (id seat slot idx : Nat) : State :=
  leave (recordAcked s seat slot idx ((s.job? id).any (fun j => hPromptNow j.flags))) id

/-- `n` bytes of block `b` of raw samples have been written: with its last byte its failures count in RESULT (R415). -/
def rawAcked (j : Job) (b n : Nat) : Job :=
  match j.raws.find? (fun r => r.1 == b) with
  | none => j
  | some (_, left, fails) =>
    if n < left then { j with raws := j.raws.map (fun r => if r.1 == b then (b, left - n, fails) else r) }
    else { j with raws := j.raws.filter (fun r => r.1 != b), reqs := j.reqs + fails }

/-- A data write of a job is acknowledged. -/
def writeAcked (j : Job) (k : WKind) (n now : Nat) : Job :=
  let j := { j with lastAck := now, wrote := j.wrote + 1 }
  match k with
  | .data => { j with outDone := j.outDone + n }
  | .raw b => rawAcked { j with outDone := j.outDone + n } b n
  | .zero => j
  | .side => j

/-- What waits on an acknowledged write goes on. -/
def ackOwner (s : State) (a : Access) : State :=
  match a.owner with
  | .jobWrite id k => s.modJob id (fun j => writeAcked j k a.len s.now)
  | .record id seat slot idx => recordDone s id seat slot idx
  | .fetchRec seat slot idx => recordAcked s seat slot idx false
  | .assocLease i _ => assocAcked s i a.id (a.va % 256)
  | .keyLease seat h _ => leaseAcked s seat h a.id
  | .exception _ => excAcked s
  | .spill id => spillAcked s id
  | .migWrite => migGo s false
  | .inboxWrite => inboxAcked s
  | .chain job rest => { s with front := { s.front with peerQ := { job := job, writes := rest } :: s.front.peerQ } }
  | _ => s

/-- MEM_WRITE_ACK: the write on its port and tag is visible (R69); WRITES_OPEN of its seat clears with the last one (R156). -/
def execMemWriteAck (port tag : Nat) (s : State) : Out :=
  if responseIdle s port then .next s
  else
    match answered s port tag with
    | none => .fault .unsolicitedResponse
    | some a =>
      match a.st with
      | .out _ _ _ => if a.write then .next (carryAll (writesClosed (ackOwner (s.dropAccess a.id) a) a.seat)) else .fault .unsolicitedResponse
      | _ => .fault .unsolicitedResponse

-- Errors --------------------------------------------------------------------------------------------------------------------

/-- A request met RSP_ERR (R71, R138): as a walk it caches nothing, and the class C alarm names the seat; a walk whose request has ended says no more. -/
def rspErr (s : State) (a : Access) (more : Option Bytes) : State :=
  match a.st with
  | .walkOut _ _ _ _ => onFault (alarmC s 0x43 a.seat 0) a tfWalkErr more
  | _ => onFault s a tfRspErr more

/-- MEM_RSP_ERR on a beat, or on an acknowledgement: the request has failed at once (R71). The beats of its burst that are still to come follow, up to
the one marked as the last, which frees its tag (R67; log entry 78). -/
def execMemRspErr (port : Nat) (tag : ErrBeat) (s : State) : Out :=
  if responseIdle s port then .next s
  else
    let last := tag.last
    match answered s port tag.tag with
    | none => .fault .unsolicitedResponse
    | some a =>
      match a.st with
      | .out phys _ _ =>
        if a.write then (if last then .next (carryAll (writesClosed (rspErr s a none) a.seat)) else .fault .unsolicitedResponse)
        else
          let d := beatsIn a phys (zeros 128)
          if d.2 != last then .fault .unsolicitedResponse
          else .next (carryAll (rspErr s a (if last then none else some d.1)))
      | _ => if last then .next (carryAll (rspErr s a none)) else .fault .unsolicitedResponse

end Sys2Proof.Machine
end

