-- ==== Sys2Proof/Machine/Resets.lean ====
section
/-! DEFINITION. Resets and the always-on supply (R60, R72, R94, R95, R101, R471, R544): what each keeps, what each erases, and the start that
follows a release. -/

namespace Sys2Proof.Machine

/-- What BLKRST_N leaves of the start: the (VAON) registers of R125. -/
def startKept (t : Start) : Start :=
  { porst := t.porst, blkrst := t.blkrst, vaonBad := t.vaonBad, imagesValid := t.imagesValid, accept := t.accept, acceptSmf := t.acceptSmf
    acceptSqm := t.acceptSqm, imgSmf := t.imgSmf, imgAlt := t.imgAlt, imgSqm := t.imgSqm }

/-- GENERATION and SPENT of a seat (R132). -/
def seatKept (t : Seat) : Seat := { gen := t.gen, spent := t.spent }

/-- EPOCH, WRAP_STARTS and the sealed block wrap key (R367, R369). -/
def keysKept (k : KeyStore) : KeyStore := { epoch := k.epoch, wrapStarts := k.wrapStarts, epochGood := k.epochGood, bwk := k.bwk }

/-- The custodian root, its journal and the card's presence (R94, R509, R518). -/
def custKept (c : Cust) : Cust :=
  { det := c.det, rootHash := c.rootHash, rootSet := c.rootSet, jGood := c.jGood, badRecs := c.badRecs, nextTxn := c.nextTxn, recs := c.recs }

/-- A link that is up stays up; the hop starts afresh, with its receive buffers free (R85). -/
def hopKept (h : RHop) : RHop := { link := h.link, rxPulses := if h.link then 128 else 0 }

/-- The erasure and the register reset that BLKRST_N and PORST_N share (R60, R72, R94, R95): stage time stops with its lead recorded, a custodian
write in progress is settled by R519, no job is left and no record follows. At BLKRST_N too ALARM_N rises, as the alarms in force are cleared with ALM_STS, though
R93 has it stay low until the manager clears the cause (DESIGN CHOICE, log entry 101). ALM_TEMP_WARN is back at its reset value, so a junction below it no longer
holds the warning (R525). -/
def blockReset (s : State) : State :=
  let s := (cutWrite (timeStop s)).1
  { s with
    start := startKept s.start
    alarms := { lastA := s.alarms.lastA, holds := s.alarms.holds.filter (fun h => tripsAt { s with alarms := {} } h.1 h.2.1 h.2.2) }
    seats := tabMap {} s.seats (fun _ t => seatKept t)
    rings := []
    seatRegs := {}
    offers := []
    jobs := []
    nextJob := 0
    mem := { discard := true, discardAt := s.time.secure }
    place := {}
    buffers := []
    engines := {}
    keys := keysKept s.keys
    window := {}
    entropy := {}
    front := {}
    time := timeReset s.time false
    relay := { east := hopKept s.relay.east, west := hopKept s.relay.west }
    cust := custKept s.cust
    prompts := [] }

/-- The always-on registers that PORST_N resets beside (R94, R544): the (VAON) class. -/
def vaonReset (s : State) : State :=
  { s with
    start := { porst := s.start.porst, blkrst := s.start.blkrst, vaonBad := s.start.vaonBad }
    alarms := { s.alarms with lastA := 0 }
    time := timeReset s.time true }

/-- The start begins when no reset is low any more (R60, R103, R115). -/
def released (s : State) : State := if s.up then startBegin s else s

/-- PORST_N falls (R94). -/
def execPorstNAssert (s : State) : Out :=
  ok (whenDo (!s.start.porst) s (fun s => vaonReset (blockReset (s.modStart (fun t => { t with porst := true })))))

/-- PORST_N rises; the block starts when BLKRST_N is high (R60). -/
def execPorstNRelease (s : State) : Out :=
  ok (carryAll (whenDo s.start.porst s (fun s => released (s.modStart (fun t => { t with porst := false })))))

/-- BLKRST_N falls (R94, R95); while PORST_N is low PORST_N governs. -/
def execBlkrstNAssert (s : State) : Out :=
  ok (whenDo (!s.start.blkrst) s (fun s => blockReset (s.modStart (fun t => { t with blkrst := true }))))

/-- BLKRST_N rises: start step 1 begins (R103). -/
def execBlkrstNRelease (s : State) : Out :=
  ok (carryAll (whenDo s.start.blkrst s (fun s => released (s.modStart (fun t => { t with blkrst := false })))))

/-- RESET_RESPONSE_DISCARD_END: 10 us after the assertion responses are no longer discarded (R72); the span is judged on secure time, which runs
on in reset. -/
def execResetResponseDiscardEnd (s : State) : Out :=
  ok (whenDo (s.mem.discard && decide (s.mem.discardAt + 10000 ≤ s.time.secure)) s (fun s => { s with mem := { s.mem with discard := false } }))

/-- VAON falls below 0.70 V (R101): with the registers, retained memory and secure time are lost. -/
def vaonLost (s : State) : State :=
  let s := vaonReset (blockReset (s.modStart (fun t => { t with vaonBad := true })))
  { s with
    journal := {}
    mem := { s.mem with discardAt := 0 }
    seats := []
    keys := {}
    time := { refAbsent := s.time.refAbsent, refIs := s.time.refIs }
    cust := { det := s.cust.det } }

def execVaonLoss (s : State) : Out := ok (whenDo (!s.start.vaonBad) s vaonLost)

/-- VAON rises (R471): the CRC of secure time fails, secure time restarts at zero and SEC_RESTARTED is set. A block whose resets are both high does not start by
itself: only BLKRST_N or PORST_N starts it again (R113 and R115 say so of a block that has been started; R101 does not say whether VAON itself does: DESIGN CHOICE,
log entry 111). -/
def vaonBack (s : State) : State :=
  let s := s.modStart (fun t => { t with vaonBad := false, cold := !t.porst && !t.blkrst })
  if s.time.secGood then s else { s with time := { s.time with secure := 0, secGood := true, secRestarted := true } }

def execVaonReturn (s : State) : Out := ok (carryAll (whenDo s.start.vaonBad s vaonBack))

end Sys2Proof.Machine
end

