-- ==== Sys2Proof/Machine/HostReg.lean ====
section
/-! DEFINITION. The register window (chapter 19): REG_WRITE, which writes any register as its chapter gives, and the value each offset reads. -/

namespace Sys2Proof.Machine

-- Writes --------------------------------------------------------------------------------------------------------------------

/-- Registers of a seat page that a tenant may not write, beside the ring settings (R551): a whole register of them is treated as R169 gives. -/
def pageManagerOnly (p : Nat) : Bool :=
  p == 0x800 || p == 0x804 || (decide (p < 0x800) && (p % 0x80 == 0x04 || p % 0x80 == 0x0C || p % 0x80 == 0x34))

/-- A permitted write to a seat page. -/
def pageAccess (s : State) (src off : Nat) (v : W32) : State :=
  let p := off % 0x1000
  if !src.testBit 10 && pageManagerOnly p then accessAlarm s src off true else pageWrite s src (off / 0x1000 % 0x400) p v

/-- A permitted write, by range (R541). Identity registers are RO; reserved offsets ignore writes (R8, R9). -/
def writeReg (s : State) (src off : Nat) (v : W32) : State :=
  match off / 0x10000 with
  | 0x1 => if off < 0x11000 then smgWrite s off v else s
  | 0x2 => seatWrite s off v
  | 0x3 => plcWrite s off v
  | 0x4 => rngWrite s off v
  | 0x5 => ctxWrite (keyWrite s off v) off v
  | 0x6 => engWrite s off v
  | 0x7 => frontWrite s off v
  | 0x8 => timeWrite s off v
  | 0x9 => relayWrite s off v
  | 0xA => custWrite s off v
  | 0xB => almWrite s off v
  | 0xC => digWrite s off v
  | _ => if 0x400000 ≤ off ∧ off < 0x800000 then pageAccess s src off v else s

/-- REG_WRITE: a whole-word write that HOSTREG accepts (R62, R64, R65, R545). -/
def execRegWrite (src off : Nat) (value : W32) (s : State) : Out :=
  let o := off % 2 ^ 24 / 4 * 4
  ok (carryAll (hreg s (src % 2048) o true (writeReg · (src % 2048) o value)))

-- Reads ---------------------------------------------------------------------------------------------------------------------

/-- BLOCK_ID and HWREV. -/
def identReg (off : Nat) : Nat :=
  match off with
  | 0x0 => 0x47585064
  | 0x4 => hwRev
  | _ => 0

/-- The value at an offset, by range; an RC register reads its value before the read clears it, which its own command does. -/
def readReg (s : State) (off : Nat) : Nat :=
  match off / 0x10000 with
  | 0x0 => identReg off
  | 0x1 => if off < 0x11000 then smgReg s off else 0
  | 0x2 => seatReg s off
  | 0x3 => plcReg s off
  | 0x4 => rngReg s off
  | 0x5 => if 0x50F00 ≤ off then ctxReg s off else keyReg s off
  | 0x6 => engReg s off
  | 0x7 => frontReg s off
  | 0x8 => timeReg s off
  | 0x9 => relayReg s off
  | 0xA => custReg s off
  | 0xB => almReg s off
  | 0xC => digReg s off
  | _ => if 0x400000 ≤ off ∧ off < 0x800000 then pageReg s (off / 0x1000 % 0x400) (off % 0x1000) else 0

/-- The idle ranges of safe stage read the reset values of their registers (R545). -/
def idleState (s : State) : State := { s with place := {}, engines := {}, front := {}, relay := {}, seats := [], jobs := [] }

/-- What a read by `src` returns (R62, R63, R65, R116, R545). -/
def readValue (s : State) (src off : Nat) : Nat :=
  let o := off % 2 ^ 24 / 4 * 4
  if s.start.porst || s.start.vaonBad then 0
  else if s.start.blkrst then identReg o
  else if s.start.state = 5 ∧ !(decide (o < 8) || (decide (0x10000 ≤ o) && decide (o < 0x11000))) then 0
  else if !permitted src o false then 0
  else if s.start.state = 4 ∧ (o / 0x10000 = 3 ∨ o / 0x10000 = 6 ∨ o / 0x10000 = 7 ∨ o / 0x10000 = 9) then readReg (idleState s) o
  else readReg s o

end Sys2Proof.Machine
end

