-- ==== Sys2Proof/Machine/Dispatch.lean ====
section
/-! DEFINITION. The dispatch of commands to their meanings: one arm per command. -/

namespace Sys2Proof.Machine

open Sys2Proof

def exec (i : Instr) (s : State) : Host.Outcome State Fault Refusal :=
  match i with
  | .porstNAssert => Sys2Proof.Machine.execPorstNAssert s
  | .porstNRelease => Sys2Proof.Machine.execPorstNRelease s
  | .blkrstNAssert => Sys2Proof.Machine.execBlkrstNAssert s
  | .blkrstNRelease => Sys2Proof.Machine.execBlkrstNRelease s
  | .resetResponseDiscardEnd => Sys2Proof.Machine.execResetResponseDiscardEnd s
  | .vaonLoss => Sys2Proof.Machine.execVaonLoss s
  | .sensorTrip sensor detail0 detail1 => Sys2Proof.Machine.execSensorTrip sensor detail0 detail1 s
  | .lockstep => Sys2Proof.Machine.execLockstep s
  | .erasureVerified erased => Sys2Proof.Machine.execErasureVerified erased s
  | .clearA => Sys2Proof.Machine.execClearA s
  | .clearB => Sys2Proof.Machine.execClearB s
  | .sequencerFault bay => Sys2Proof.Machine.execSequencerFault bay s
  | .wingFailure wing => Sys2Proof.Machine.execWingFailure wing s
  | .portClockLost port => Sys2Proof.Machine.execPortClockLost port s
  | .portClockReturn port => Sys2Proof.Machine.execPortClockReturn port s
  | .refclkLost => Sys2Proof.Machine.execRefclkLost s
  | .refclkReturn khz => Sys2Proof.Machine.execRefclkReturn khz s
  | .accessViolation src off write => Sys2Proof.Machine.execAccessViolation src off write s
  | .regWrite src off value => Sys2Proof.Machine.execRegWrite src off value s
  | .promptAccept => Sys2Proof.Machine.execPromptAccept s
  | .memReadData port tag beat last => Sys2Proof.Machine.execMemReadData port tag beat last s
  | .memWriteAck port tag => Sys2Proof.Machine.execMemWriteAck port tag s
  | .memRspErr port tag => Sys2Proof.Machine.execMemRspErr port tag s
  | .rootkeyAck data err => Sys2Proof.Machine.execRootkeyAck data err s
  | .rootkeyTimeout => Sys2Proof.Machine.execRootkeyTimeout s
  | .startStepDone step ok info => Sys2Proof.Machine.execStartStepDone step ok info s
  | .startStepBound step => Sys2Proof.Machine.execStartStepBound step s
  | .imagesValidWrite value => Sys2Proof.Machine.execImagesValidWrite value s
  | .acceptVersionWrite sqm value => Sys2Proof.Machine.execAcceptVersionWrite sqm value s
  | .clearFail step => Sys2Proof.Machine.execClearFail step s
  | .runStep step => Sys2Proof.Machine.execRunStep step s
  | .acceptUntested => Sys2Proof.Machine.execAcceptUntested s
  | .configure seat => Sys2Proof.Machine.execConfigure seat s
  | .start seat => Sys2Proof.Machine.execStart seat s
  | .curtain seat squash => Sys2Proof.Machine.execCurtain seat squash s
  | .curtainQuiet seat => Sys2Proof.Machine.execCurtainQuiet seat s
  | .restart seat => Sys2Proof.Machine.execRestart seat s
  | .reset seat => Sys2Proof.Machine.execReset seat s
  | .resetReport seat => Sys2Proof.Machine.execResetReport seat s
  | .disable seat => Sys2Proof.Machine.execDisable seat s
  | .freeze seat => Sys2Proof.Machine.execFreeze seat s
  | .thaw seat => Sys2Proof.Machine.execThaw seat s
  | .migOffer seat => Sys2Proof.Machine.execMigOffer seat s
  | .save seat => Sys2Proof.Machine.execSave seat s
  | .restore seat => Sys2Proof.Machine.execRestore seat s
  | .migCancel seat => Sys2Proof.Machine.execMigCancel seat s
  | .seatTransitionEnd seat => Sys2Proof.Machine.execSeatTransitionEnd seat s
  | .shareWrite seat which value => Sys2Proof.Machine.execShareWrite seat which value s
  | .seatXWrite reg value => Sys2Proof.Machine.execSeatXWrite reg value s
  | .atuInvalidate value => Sys2Proof.Machine.execAtuInvalidate value s
  | .atuInvalidateDone => Sys2Proof.Machine.execAtuInvalidateDone s
  | .atuFaultRead => Sys2Proof.Machine.execAtuFaultRead s
  | .doorbell src seat slot value => Sys2Proof.Machine.execDoorbell src seat slot value s
  | .cqHeadWrite src seat slot value => Sys2Proof.Machine.execCqHeadWrite src seat slot value s
  | .ringEnable src seat slot resume => Sys2Proof.Machine.execRingEnable src seat slot resume s
  | .ringDisable src seat slot resume => Sys2Proof.Machine.execRingDisable src seat slot resume s
  | .resume src seat slot => Sys2Proof.Machine.execResume src seat slot s
  | .ringSettingWrite src seat slot reg value => Sys2Proof.Machine.execRingSettingWrite src seat slot reg value s
  | .jobFetch seat => Sys2Proof.Machine.execJobFetch seat s
  | .promptEvaluation => Sys2Proof.Machine.execPromptEvaluation s
  | .jobDeadline job => Sys2Proof.Machine.execJobDeadline job s
  | .nop job => Sys2Proof.Machine.execNop job s
  | .fence job => Sys2Proof.Machine.execFence job s
  | .stamp job => Sys2Proof.Machine.execStamp job s
  | .unassignedOpcode job => Sys2Proof.Machine.execUnassignedOpcode job s
  | .jobPlacement job => Sys2Proof.Machine.execJobPlacement job s
  | .bayIssue bay => Sys2Proof.Machine.execBayIssue bay s
  | .segmentBoundary job => Sys2Proof.Machine.execSegmentBoundary job s
  | .heldRecordMark job => Sys2Proof.Machine.execHeldRecordMark job s
  | .epochBoundary slots => Sys2Proof.Machine.execEpochBoundary slots s
  | .wingIdle wing => Sys2Proof.Machine.execWingIdle wing s
  | .wingGated wing => Sys2Proof.Machine.execWingGated wing s
  | .wingWake wing => Sys2Proof.Machine.execWingWake wing s
  | .wingWakeDone wing => Sys2Proof.Machine.execWingWakeDone wing s
  | .advertisement => Sys2Proof.Machine.execAdvertisement s
  | .countermeasureReseed => Sys2Proof.Machine.execCountermeasureReseed s
  | .sealJob job => Sys2Proof.Machine.execSealJob job s
  | .openJob job => Sys2Proof.Machine.execOpenJob job s
  | .macGen job => Sys2Proof.Machine.execMacGen job s
  | .macVerify job => Sys2Proof.Machine.execMacVerify job s
  | .encrypt job => Sys2Proof.Machine.execEncrypt job s
  | .decrypt job => Sys2Proof.Machine.execDecrypt job s
  | .assocQuery job => Sys2Proof.Machine.execAssocQuery job s
  | .digest job => Sys2Proof.Machine.execDigest job s
  | .digestVerify job => Sys2Proof.Machine.execDigestVerify job s
  | .hmacGen job => Sys2Proof.Machine.execHmacGen job s
  | .hmacVerify job => Sys2Proof.Machine.execHmacVerify job s
  | .compare job => Sys2Proof.Machine.execCompare job s
  | .hmacLoad job => Sys2Proof.Machine.execHmacLoad job s
  | .hmacUnload job => Sys2Proof.Machine.execHmacUnload job s
  | .dwStart alg => Sys2Proof.Machine.execDwStart alg s
  | .dwDataWrite value => Sys2Proof.Machine.execDwDataWrite value s
  | .dwFinish lastBytes => Sys2Proof.Machine.execDwFinish lastBytes s
  | .dwAbort => Sys2Proof.Machine.execDwAbort s
  | .dwAbsorbDone => Sys2Proof.Machine.execDwAbsorbDone s
  | .modAdd job => Sys2Proof.Machine.execModAdd job s
  | .modSub job => Sys2Proof.Machine.execModSub job s
  | .modMul job => Sys2Proof.Machine.execModMul job s
  | .modInv job => Sys2Proof.Machine.execModInv job s
  | .modExp job => Sys2Proof.Machine.execModExp job s
  | .modExpCrt job => Sys2Proof.Machine.execModExpCrt job s
  | .engineLoad wing => Sys2Proof.Machine.execEngineLoad wing s
  | .runStart wing => Sys2Proof.Machine.execRunStart wing s
  | .datapathDone wing agree => Sys2Proof.Machine.execDatapathDone wing agree s
  | .releaseTick wing => Sys2Proof.Machine.execReleaseTick wing s
  | .wipeDone wing clean => Sys2Proof.Machine.execWipeDone wing clean s
  | .mldsaBlockTick wing => Sys2Proof.Machine.execMldsaBlockTick wing s
  | .floorWrite value => Sys2Proof.Machine.execFloorWrite value s
  | .rtQuery value => Sys2Proof.Machine.execRtQuery value s
  | .slackRead wing => Sys2Proof.Machine.execSlackRead wing s
  | .faultLogRead => Sys2Proof.Machine.execFaultLogRead s
  | .admitStsRead seat => Sys2Proof.Machine.execAdmitStsRead seat s
  | .ecKeygen job => Sys2Proof.Machine.execEcKeygen job s
  | .ecdsaSign job => Sys2Proof.Machine.execEcdsaSign job s
  | .ecdsaVerify job => Sys2Proof.Machine.execEcdsaVerify job s
  | .ecdh job => Sys2Proof.Machine.execEcdh job s
  | .ed25519Sign job => Sys2Proof.Machine.execEd25519Sign job s
  | .ed25519Verify job => Sys2Proof.Machine.execEd25519Verify job s
  | .mlkemKeygen job => Sys2Proof.Machine.execMlkemKeygen job s
  | .mlkemEncaps job => Sys2Proof.Machine.execMlkemEncaps job s
  | .mlkemDecaps job => Sys2Proof.Machine.execMlkemDecaps job s
  | .mldsaKeygen job => Sys2Proof.Machine.execMldsaKeygen job s
  | .mldsaSign job => Sys2Proof.Machine.execMldsaSign job s
  | .mldsaVerify job => Sys2Proof.Machine.execMldsaVerify job s
  | .poly job => Sys2Proof.Machine.execPoly job s
  | .keyImport job => Sys2Proof.Machine.execKeyImport job s
  | .keyExport job => Sys2Proof.Machine.execKeyExport job s
  | .keyGenerate job => Sys2Proof.Machine.execKeyGenerate job s
  | .keyDerive job => Sys2Proof.Machine.execKeyDerive job s
  | .keyDelete job => Sys2Proof.Machine.execKeyDelete job s
  | .keyInfo job => Sys2Proof.Machine.execKeyInfo job s
  | .keyRestrict job => Sys2Proof.Machine.execKeyRestrict job s
  | .keyEscrowOut job => Sys2Proof.Machine.execKeyEscrowOut job s
  | .keyEscrowIn job => Sys2Proof.Machine.execKeyEscrowIn job s
  | .eraseBwk => Sys2Proof.Machine.execEraseBwk s
  | .sourceBlock source samples => Sys2Proof.Machine.execSourceBlock source samples s
  | .sourceRestartDone source => Sys2Proof.Machine.execSourceRestartDone source s
  | .wordDelivery => Sys2Proof.Machine.execWordDelivery s
  | .reseedDue inst => Sys2Proof.Machine.execReseedDue inst s
  | .instHeld inst => Sys2Proof.Machine.execInstHeld inst s
  | .seedingDeadline job => Sys2Proof.Machine.execSeedingDeadline job s
  | .rngGet job => Sys2Proof.Machine.execRngGet job s
  | .rngReseed job => Sys2Proof.Machine.execRngReseed job s
  | .rngRaw job => Sys2Proof.Machine.execRngRaw job s
  | .enterRehearsal => Sys2Proof.Machine.execEnterRehearsal s
  | .exitRehearsal => Sys2Proof.Machine.execExitRehearsal s
  | .revive mask => Sys2Proof.Machine.execRevive mask s
  | .clearCounts => Sys2Proof.Machine.execClearCounts s
  | .packetIn port meta128 bytes err => Sys2Proof.Machine.execPacketIn port meta128 bytes err s
  | .assocWrite job => Sys2Proof.Machine.execAssocWrite job s
  | .assocKill job => Sys2Proof.Machine.execAssocKill job s
  | .nodeWrite off value => Sys2Proof.Machine.execNodeWrite off value s
  | .swap => Sys2Proof.Machine.execSwap s
  | .epochDrainEnd => Sys2Proof.Machine.execEpochDrainEnd s
  | .rehash => Sys2Proof.Machine.execRehash s
  | .rehashDone => Sys2Proof.Machine.execRehashDone s
  | .peerAgeVisit bucket => Sys2Proof.Machine.execPeerAgeVisit bucket s
  | .strangerStsRead seat => Sys2Proof.Machine.execStrangerStsRead seat s
  | .timePortValue => Sys2Proof.Machine.execTimePortValue s
  | .ppsRise => Sys2Proof.Machine.execPpsRise s
  | .ppsFall => Sys2Proof.Machine.execPpsFall s
  | .captureEdge n => Sys2Proof.Machine.execCaptureEdge n s
  | .captureSnapshot n => Sys2Proof.Machine.execCaptureSnapshot n s
  | .nowSnapshot => Sys2Proof.Machine.execNowSnapshot s
  | .secureSnapshot => Sys2Proof.Machine.execSecureSnapshot s
  | .rateWrite value => Sys2Proof.Machine.execRateWrite value s
  | .timeStep frac => Sys2Proof.Machine.execTimeStep frac s
  | .slew frac => Sys2Proof.Machine.execSlew frac s
  | .cancelSlew => Sys2Proof.Machine.execCancelSlew s
  | .slewDone => Sys2Proof.Machine.execSlewDone s
  | .secAdvance value => Sys2Proof.Machine.execSecAdvance value s
  | .linkUp side => Sys2Proof.Machine.execLinkUp side s
  | .creditReturn side => Sys2Proof.Machine.execCreditReturn side s
  | .hopBreak side => Sys2Proof.Machine.execHopBreak side s
  | .hopSilence side => Sys2Proof.Machine.execHopSilence side s
  | .hopRekeyDue side => Sys2Proof.Machine.execHopRekeyDue side s
  | .hello x25519 mlkem phase => Sys2Proof.Machine.execHello x25519 mlkem phase s
  | .reply x25519 ciphertext confirmW => Sys2Proof.Machine.execReply x25519 ciphertext confirmW s
  | .confirm confirmE => Sys2Proof.Machine.execConfirm confirmE s
  | .echo side returned roundTripNs => Sys2Proof.Machine.execEcho side returned roundTripNs s
  | .probe hop isAnswer formed leader => Sys2Proof.Machine.execProbe hop isAnswer formed leader s
  | .electionStart => Sys2Proof.Machine.execElectionStart s
  | .elect hop identity => Sys2Proof.Machine.execElect hop identity s
  | .number hop next => Sys2Proof.Machine.execNumber hop next s
  | .map hop entries => Sys2Proof.Machine.execMap hop entries s
  | .join hop isAnswer refused given sealedRk rkOk => Sys2Proof.Machine.execJoin hop isAnswer refused given sealedRk rkOk s
  | .adv hop starts floor accepts => Sys2Proof.Machine.execAdv hop starts floor accepts s
  | .relayJob hop job => Sys2Proof.Machine.execRelayJob hop job s
  | .relayDone hop done => Sys2Proof.Machine.execRelayDone hop done s
  | .relayCancel hop tags => Sys2Proof.Machine.execRelayCancel hop tags s
  | .relayAlarm hop member => Sys2Proof.Machine.execRelayAlarm hop member s
  | .relayBreak hop position => Sys2Proof.Machine.execRelayBreak hop position s
  | .timeSend => Sys2Proof.Machine.execTimeSend s
  | .time hop value insideNs => Sys2Proof.Machine.execTime hop value insideNs s
  | .timeLoss => Sys2Proof.Machine.execTimeLoss s
  | .mailSend value => Sys2Proof.Machine.execMailSend value s
  | .mail hop total offset part final => Sys2Proof.Machine.execMail hop total offset part final s
  | .inboxRelease value => Sys2Proof.Machine.execInboxRelease value s
  | .cardInsert => Sys2Proof.Machine.execCardInsert s
  | .cardDebounce => Sys2Proof.Machine.execCardDebounce s
  | .cardRemoval => Sys2Proof.Machine.execCardRemoval s
  | .activationSupplyTimer => Sys2Proof.Machine.execActivationSupplyTimer s
  | .answerToReset atr => Sys2Proof.Machine.execAnswerToReset atr s
  | .ppsEcho echoed => Sys2Proof.Machine.execPpsEcho echoed s
  | .reactivationWait => Sys2Proof.Machine.execReactivationWait s
  | .conditionQuery => Sys2Proof.Machine.execConditionQuery s
  | .readyMaxExpiry => Sys2Proof.Machine.execReadyMaxExpiry s
  | .t1BlockRx block => Sys2Proof.Machine.execT1BlockRx block s
  | .cardWaitExpiry => Sys2Proof.Machine.execCardWaitExpiry s
  | .statusPoll => Sys2Proof.Machine.execStatusPoll s
  | .waitMaxExpiry => Sys2Proof.Machine.execWaitMaxExpiry s
  | .clockStop => Sys2Proof.Machine.execClockStop s
  | .authExpiry act => Sys2Proof.Machine.execAuthExpiry act s
  | .shareHoldExpiry => Sys2Proof.Machine.execShareHoldExpiry s
  | .rootLock arg => Sys2Proof.Machine.execRootLock arg s
  | .authorize arg => Sys2Proof.Machine.execAuthorize arg s
  | .importShare arg => Sys2Proof.Machine.execImportShare arg s
  | .exportShare arg => Sys2Proof.Machine.execExportShare arg s
  | .sharesClear arg => Sys2Proof.Machine.execSharesClear arg s
  | .authEnd arg => Sys2Proof.Machine.execAuthEnd arg s
  | .reconDrop arg => Sys2Proof.Machine.execReconDrop arg s
  | .deactivate arg => Sys2Proof.Machine.execDeactivate arg s
  | .activate arg => Sys2Proof.Machine.execActivate arg s
  | .sensorConditionEnd sensor => Sys2Proof.Machine.execSensorConditionEnd sensor s
  | .vaonReturn => Sys2Proof.Machine.execVaonReturn s
  | .packetOutAccept port => Sys2Proof.Machine.execPacketOutAccept port s
  | .answerToResetTimeout => Sys2Proof.Machine.execAnswerToResetTimeout s
  | .ppsTimeout => Sys2Proof.Machine.execPpsTimeout s
  | .brokenHopRekey side => Sys2Proof.Machine.execBrokenHopRekey side s

end Sys2Proof.Machine
end

