-- ==== Sys2Proof/Machine/Step.lean ====
section
/-! DEFINITION. One step of the block: the command at the front of the queue runs on the rest of the queue; on an empty queue one
nanosecond passes (log entry 1). -/

namespace Sys2Proof.Machine

open Sys2Proof

/-- One step. With nothing commanded one nanosecond of REFCLK-derived time passes, the scanner's visits of the instant that ends take effect (R452), the card
port moves on with its clock (R497, R498, R519), a wing that is ON and has work is noted busy, and records whose outcome was fixed before leave (R192). -/
def step (s : State) : Host.Outcome State Fault Refusal :=
  match s.pending with
  | [] => .next (fin (idleTick (cardTick (tick (ageDue s)))))
  | c :: rest => exec c { s with pending := rest }

/-- `s` with the command that a word spells at the front of its queue; no word spells one (Decode.lean). -/
def State.withFetchWord (s : State) (nbits w : Nat) : State :=
  match Sys2Proof.decodeTableWord nbits w with
  | some c => { s with pending := c :: s.pending }
  | none => s

end Sys2Proof.Machine
end

