-- ==== Sys2Proof/Safety.lean ====
section
/-! DEFINITION. What statements about runs of the block speak of: when an access of the manager or a tenant reaches its register, the legal modes
of the machine, and the counts the manual bounds. -/

namespace Sys2Proof.Machine

/-- HOSTREG accepts an access of the physical function at `off` (R59, R62, R65, R116, R545): no reset is low and HCLK runs, the block is not HALTED
outside the mailbox, and the offset does not lie in a range that is idle in safe stage. -/
def State.served (s : State) (off : Nat) : Bool :=
  s.hostOpen && !(s.start.state == 5 && !(decide (off < 8) || (decide (0x10000 ≤ off) && decide (off < 0x11000))))
    && !(s.start.state == 4 && (off / 0x10000 == 3 || off / 0x10000 == 6 || off / 0x10000 == 7 || off / 0x10000 == 9))

/-- A block in service whose jobs go on: READY or safe stage, and no erasure awaits its verification (R115, R526). -/
def State.working (s : State) : Bool := s.serving && !s.alarms.verifying

/-- A job its lane can end (R243, R254, R267): in a bay, started, its last segment in progress, every byte of the segment read, and neither late
nor a packet. -/
def laneReady (s : State) (j : Job) (op : Nat) : Bool :=
  s.working && (match j.phase with
    | .inBay _ => true
    | _ => false) && j.started && j.held == .none && j.pkt.isNone && j.opcode == op && lastSeg (symOf s j) j
    && !(j.late s && !j.committed) && (segReads (symOf s j) j).all j.hasRead

/-- A job whose datapaths can begin (R320): in the run phase of the engine of wing `w`, with no result yet. -/
def runReady (s : State) (j : Job) (op w : Nat) : Bool :=
  s.jobs.contains j && j.phase == .inEng w && j.opcode == op && (s.engine w).running == some j.id && j.ran.isNone && !s.alarms.verifying

/-- The job of the run phase has the result its datapaths computed (R320, R334). -/
def State.withRun (s : State) (id : Nat) (r : RunOut) : State :=
  s.modJob id (fun k => { k with ran := some (r.status, r.sub), outs := r.outs, entry := r.entry, accepted := r.block })

/-- A key-management job at one of the key store's units, in time (R392, R393, R410). -/
def storeReady (s : State) (j : Job) (op : Nat) : Bool :=
  s.working && j.opcode == op && j.phase == .store true && !seedLate s j && !(j.late s && !j.committed)

/-- A random job at the farm whose additional input has been read, in time, and asks for no reseed that is still to come (R410, R417). -/
def farmReady (s : State) (j : Job) (op : Nat) : Bool :=
  s.working && j.opcode == op && (j.phase == .farm true || j.phase == .farm false) && !seedLate s j && !(j.late s && !j.committed)
    && j.hasRead (j.dataRead 32 0 (j.avail 32)) && !j.reseedWait

/-- The modes the manual names are all the modes there are: SMG_START_STATE (R115), the window's state (R312) and CARD_STATE (R508); TIME_SEQ has two
bits (R79). -/
def legalModes (s : State) : Prop :=
  s.start.state ≤ 5 ∧ s.window.st ≤ 2 ∧ s.cust.st ≤ 6 ∧ s.time.portSeq < 4

/-- Commands that may change the digest window (R312 to R316). -/
def movesWindow (c : Instr) : Bool :=
  match c with
  | .porstNAssert | .blkrstNAssert | .vaonLoss | .sensorTrip _ _ _ | .lockstep | .regWrite _ _ _ | .startStepDone _ _ _ | .dwStart _ |
  .dwDataWrite _ | .dwFinish _ | .dwAbort | .dwAbsorbDone | .releaseTick _ | .wipeDone _ _ | .mldsaBlockTick _ => true
  | _ => false

/-- Commands that may change the start journal (R108 to R114). -/
def movesJournal (c : Instr) : Bool :=
  match c with
  | .porstNRelease | .blkrstNRelease | .vaonLoss | .sensorTrip _ _ _ | .lockstep | .sequencerFault _ | .wingFailure _ | .regWrite _ _ _ |
  .rootkeyTimeout | .startStepDone _ _ _ | .startStepBound _ | .imagesValidWrite _ | .clearFail _ | .runStep _ | .acceptUntested | .releaseTick _
  | .wipeDone _ _ | .mldsaBlockTick _ => true
  | _ => false

/-- Commands that may change the time base (R458 to R474). -/
def movesTime (c : Instr) : Bool :=
  match c with
  | .porstNAssert | .blkrstNAssert | .vaonLoss | .refclkLost | .refclkReturn _ | .regWrite _ _ _ | .startStepDone _ _ _ | .startStepBound _ |
  .clearFail _ | .runStep _ | .acceptUntested | .promptEvaluation | .epochBoundary _ | .advertisement | .countermeasureReseed | .timePortValue |
  .ppsRise | .ppsFall | .captureEdge _ | .captureSnapshot _ | .nowSnapshot | .secureSnapshot | .rateWrite _ | .timeStep _ | .slew _ | .cancelSlew
  | .slewDone | .secAdvance _ | .linkUp _ | .hopBreak _ | .hopSilence _ | .reply _ _ _ | .confirm _ | .echo _ _ _ | .probe _ _ _ _ | .elect _ _ |
  .number _ _ | .map _ _ | .join _ _ _ _ _ _ | .adv _ _ _ _ | .relayJob _ _ | .relayDone _ _ | .relayCancel _ _ | .relayAlarm _ _ |
  .relayBreak _ _ | .timeSend | .time _ _ _ | .mail _ _ _ _ _ | .vaonReturn => true
  | _ => false

/-- Commands that may change the custodian card port (R491 to R523). -/
def movesCust (c : Instr) : Bool :=
  match c with
  | .porstNAssert | .porstNRelease | .blkrstNAssert | .blkrstNRelease | .vaonLoss | .sensorTrip _ _ _ | .lockstep | .refclkReturn _ |
  .regWrite _ _ _ | .startStepDone _ _ _ | .acceptVersionWrite _ _ | .clearFail _ | .runStep _ | .acceptUntested | .releaseTick _ | .wipeDone _ _
  | .mldsaBlockTick _ | .wordDelivery | .enterRehearsal | .cardInsert | .cardDebounce | .cardRemoval | .activationSupplyTimer | .answerToReset _ |
  .ppsEcho _ | .reactivationWait | .conditionQuery | .readyMaxExpiry | .t1BlockRx _ | .cardWaitExpiry | .statusPoll | .waitMaxExpiry | .clockStop
  | .authExpiry _ | .shareHoldExpiry | .rootLock _ | .authorize _ | .importShare _ | .exportShare _ | .sharesClear _ | .authEnd _ | .reconDrop _ |
  .deactivate _ | .activate _ | .answerToResetTimeout | .ppsTimeout => true
  | _ => false

/-- Commands that may change the private halves of migration offers (R159). -/
def movesOffers (c : Instr) : Bool :=
  match c with
  | .porstNAssert | .blkrstNAssert | .vaonLoss | .regWrite _ _ _ | .memReadData _ _ _ _ | .memWriteAck _ _ | .configure _ | .start _ |
  .curtain _ _ | .restart _ | .reset _ | .disable _ | .freeze _ | .thaw _ | .migOffer _ | .save _ | .restore _ | .migCancel _ |
  .seatTransitionEnd _ => true
  | _ => false

-- Own effects ---------------------------------------------------------------------------------------------------------------

/-- `t` is `u` once the work that waits has gone on: jobs advance, requests for memory ports and completion records leave. -/
def follows (u t : State) : Prop := t = u ∨ t = fin u ∨ t = carry u ∨ t = carryAll u

/-- Commands whose own effect may change a seat (chapter 4). -/
def actsOnSeats (c : Instr) : Bool :=
  match c with
  | .porstNAssert | .blkrstNAssert | .vaonLoss | .erasureVerified _ | .regWrite _ _ _ | .memReadData _ _ _ _ | .memWriteAck _ _ | .memRspErr _ _ |
  .startStepDone _ _ _ | .startStepBound _ | .imagesValidWrite _ | .configure _ | .start _ | .curtain _ _ | .curtainQuiet _ | .restart _ |
  .reset _ | .resetReport _ | .disable _ | .freeze _ | .thaw _ | .migOffer _ | .save _ | .restore _ | .migCancel _ | .seatTransitionEnd _ |
  .shareWrite _ _ _ | .seatXWrite _ _ | .ringEnable _ _ _ _ | .ringDisable _ _ _ _ | .ringSettingWrite _ _ _ _ _ | .jobPlacement _ | .bayIssue _ |
  .segmentBoundary _ | .epochBoundary _ | .releaseTick _ | .mldsaBlockTick _ | .floorWrite _ | .rtQuery _ | .slackRead _ | .faultLogRead |
  .admitStsRead _ | .keyImport _ | .keyExport _ | .keyGenerate _ | .keyDerive _ | .keyDelete _ | .keyInfo _ | .keyRestrict _ | .keyEscrowOut _ |
  .keyEscrowIn _ | .rngGet _ | .packetIn _ _ _ _ | .strangerStsRead _ | .relayDone _ _ => true
  | _ => false

/-- Commands whose own effect may change a command ring (chapter 5). -/
def actsOnRings (c : Instr) : Bool :=
  match c with
  | .porstNAssert | .blkrstNAssert | .vaonLoss | .sensorTrip _ _ _ | .lockstep | .regWrite _ _ _ | .memReadData _ _ _ _ | .memWriteAck _ _ |
  .memRspErr _ _ | .startStepDone _ _ _ | .configure _ | .start _ | .curtain _ _ | .curtainQuiet _ | .restart _ | .reset _ | .disable _ |
  .freeze _ | .thaw _ | .migOffer _ | .save _ | .restore _ | .migCancel _ | .seatTransitionEnd _ | .doorbell _ _ _ _ | .cqHeadWrite _ _ _ _ |
  .ringEnable _ _ _ _ | .ringDisable _ _ _ _ | .resume _ _ _ | .ringSettingWrite _ _ _ _ _ | .jobFetch _ | .promptEvaluation | .releaseTick _ |
  .wipeDone _ _ | .mldsaBlockTick _ => true
  | _ => false

/-- Commands whose own effect may change a job. -/
def actsOnJobs (c : Instr) : Bool :=
  match c with
  | .porstNRelease | .blkrstNRelease | .resetResponseDiscardEnd | .clearA | .clearB | .portClockLost _ | .portClockReturn _ | .refclkLost |
  .refclkReturn _ | .accessViolation _ _ _ | .promptAccept | .rootkeyAck _ _ | .rootkeyTimeout | .imagesValidWrite _ | .acceptVersionWrite _ _ |
  .curtainQuiet _ | .resetReport _ | .shareWrite _ _ _ | .seatXWrite _ _ | .atuInvalidate _ | .atuInvalidateDone | .atuFaultRead |
  .doorbell _ _ _ _ | .cqHeadWrite _ _ _ _ | .ringEnable _ _ _ _ | .ringDisable _ _ _ _ | .resume _ _ _ | .ringSettingWrite _ _ _ _ _ |
  .jobFetch _ | .promptEvaluation | .wingIdle _ | .wingGated _ | .wingWake _ | .wingWakeDone _ | .advertisement | .countermeasureReseed |
  .dwStart _ | .dwDataWrite _ | .dwFinish _ | .dwAbort | .dwAbsorbDone | .datapathDone _ _ | .floorWrite _ | .rtQuery _ | .slackRead _ |
  .faultLogRead | .admitStsRead _ | .sourceRestartDone _ | .reseedDue _ | .instHeld _ | .revive _ | .clearCounts | .nodeWrite _ _ | .swap |
  .epochDrainEnd | .rehash | .rehashDone | .peerAgeVisit _ | .strangerStsRead _ | .timePortValue | .ppsRise | .ppsFall | .captureEdge _ |
  .captureSnapshot _ | .nowSnapshot | .secureSnapshot | .rateWrite _ | .timeStep _ | .slew _ | .cancelSlew | .slewDone | .secAdvance _ |
  .creditReturn _ | .hopRekeyDue _ | .hello _ _ _ | .electionStart | .timeSend | .timeLoss | .mailSend _ | .inboxRelease _ | .cardInsert |
  .cardDebounce | .activationSupplyTimer | .answerToReset _ | .ppsEcho _ | .reactivationWait | .conditionQuery | .readyMaxExpiry | .t1BlockRx _ |
  .cardWaitExpiry | .statusPoll | .waitMaxExpiry | .clockStop | .authExpiry _ | .shareHoldExpiry | .rootLock _ | .authorize _ | .importShare _ |
  .exportShare _ | .sharesClear _ | .authEnd _ | .reconDrop _ | .deactivate _ | .activate _ | .sensorConditionEnd _ | .vaonReturn |
  .packetOutAccept _ | .answerToResetTimeout | .ppsTimeout | .brokenHopRekey _ => false
  | _ => true

/-- Commands whose own effect may change the key store and what it holds (chapter 12). -/
def actsOnKeys (c : Instr) : Bool :=
  match c with
  | .porstNAssert | .blkrstNAssert | .vaonLoss | .sensorTrip _ _ _ | .lockstep | .erasureVerified _ | .sequencerFault _ | .wingFailure _ |
  .regWrite _ _ _ | .memReadData _ _ _ _ | .memWriteAck _ _ | .memRspErr _ _ | .startStepDone _ _ _ | .startStepBound _ | .clearFail _ |
  .runStep _ | .acceptUntested | .configure _ | .start _ | .curtain _ _ | .restart _ | .reset _ | .disable _ | .freeze _ | .thaw _ | .migOffer _ |
  .save _ | .restore _ | .migCancel _ | .seatTransitionEnd _ | .jobDeadline _ | .nop _ | .fence _ | .stamp _ | .unassignedOpcode _ |
  .jobPlacement _ | .bayIssue _ | .segmentBoundary _ | .heldRecordMark _ | .epochBoundary _ | .wingGated _ | .countermeasureReseed | .sealJob _ |
  .openJob _ | .macGen _ | .macVerify _ | .encrypt _ | .decrypt _ | .assocQuery _ | .digest _ | .digestVerify _ | .hmacGen _ | .hmacVerify _ |
  .compare _ | .hmacLoad _ | .hmacUnload _ | .engineLoad _ | .releaseTick _ | .wipeDone _ _ | .mldsaBlockTick _ | .keyImport _ | .keyExport _ |
  .keyGenerate _ | .keyDerive _ | .keyDelete _ | .keyInfo _ | .keyRestrict _ | .keyEscrowOut _ | .keyEscrowIn _ | .eraseBwk | .sourceBlock _ _ |
  .wordDelivery | .seedingDeadline _ | .rngGet _ | .rngReseed _ | .rngRaw _ | .enterRehearsal | .exitRehearsal | .packetIn _ _ _ _ | .assocWrite _
  | .assocKill _ | .linkUp _ | .hopBreak _ | .hopSilence _ | .reply _ _ _ | .confirm _ | .echo _ _ _ | .probe _ _ _ _ | .elect _ _ | .number _ _ |
  .map _ _ | .join _ _ _ _ _ _ | .adv _ _ _ _ | .relayJob _ _ | .relayDone _ _ | .relayCancel _ _ | .relayAlarm _ _ | .relayBreak _ _ |
  .time _ _ _ | .mail _ _ _ _ _ | .cardRemoval | .t1BlockRx _ => true
  | _ => false

/-- Commands whose own effect may change the alarm registers, the log and the sensors (chapter 18). -/
def actsOnAlarms (c : Instr) : Bool :=
  match c with
  | .porstNAssert | .porstNRelease | .blkrstNAssert | .blkrstNRelease | .vaonLoss | .sensorTrip _ _ _ | .lockstep | .erasureVerified _ | .clearA |
  .clearB | .sequencerFault _ | .wingFailure _ | .portClockLost _ | .refclkLost | .accessViolation _ _ _ | .regWrite _ _ _ | .memReadData _ _ _ _
  | .memWriteAck _ _ | .memRspErr _ _ | .startStepDone _ _ _ | .startStepBound _ | .imagesValidWrite _ | .acceptVersionWrite _ _ | .clearFail _ |
  .runStep _ | .acceptUntested | .configure _ | .start _ | .curtain _ _ | .restart _ | .reset _ | .resetReport _ | .disable _ | .freeze _ |
  .thaw _ | .migOffer _ | .save _ | .restore _ | .migCancel _ | .seatTransitionEnd _ | .shareWrite _ _ _ | .seatXWrite _ _ | .atuInvalidate _ |
  .doorbell _ _ _ _ | .cqHeadWrite _ _ _ _ | .ringEnable _ _ _ _ | .ringDisable _ _ _ _ | .resume _ _ _ | .ringSettingWrite _ _ _ _ _ |
  .bayIssue _ | .segmentBoundary _ | .heldRecordMark _ | .digest _ | .digestVerify _ | .hmacGen _ | .hmacVerify _ | .compare _ | .dwStart _ |
  .dwDataWrite _ | .dwFinish _ | .dwAbort | .releaseTick _ | .wipeDone _ _ | .mldsaBlockTick _ | .floorWrite _ | .rtQuery _ | .eraseBwk |
  .sourceBlock _ _ | .enterRehearsal | .exitRehearsal | .revive _ | .clearCounts | .nodeWrite _ _ | .swap | .rehash | .rateWrite _ | .timeStep _ |
  .slew _ | .cancelSlew | .secAdvance _ | .linkUp _ | .hopBreak _ | .hopSilence _ | .reply _ _ _ | .confirm _ | .echo _ _ _ | .probe _ _ _ _ |
  .elect _ _ | .number _ _ | .map _ _ | .join _ _ _ _ _ _ | .adv _ _ _ _ | .relayJob _ _ | .relayDone _ _ | .relayCancel _ _ | .relayAlarm _ _ |
  .relayBreak _ _ | .time _ _ _ | .mailSend _ | .mail _ _ _ _ _ | .inboxRelease _ | .rootLock _ | .authorize _ | .importShare _ | .exportShare _ |
  .sharesClear _ | .authEnd _ | .reconDrop _ | .deactivate _ | .activate _ | .sensorConditionEnd _ => true
  | _ => false

/-- Commands whose own effect may change memory accesses and translations (chapters 2 and 4). -/
def actsOnMem (c : Instr) : Bool :=
  match c with
  | .porstNAssert | .blkrstNAssert | .resetResponseDiscardEnd | .vaonLoss | .sensorTrip _ _ _ | .lockstep | .erasureVerified _ | .sequencerFault _
  | .wingFailure _ | .portClockLost _ | .portClockReturn _ | .regWrite _ _ _ | .memReadData _ _ _ _ | .memWriteAck _ _ | .memRspErr _ _ |
  .rootkeyTimeout | .startStepDone _ _ _ | .startStepBound _ | .imagesValidWrite _ | .clearFail _ | .runStep _ | .acceptUntested | .configure _ |
  .start _ | .curtain _ _ | .restart _ | .reset _ | .disable _ | .freeze _ | .thaw _ | .migOffer _ | .save _ | .restore _ | .migCancel _ |
  .seatTransitionEnd _ | .seatXWrite _ _ | .atuInvalidate _ | .atuInvalidateDone | .ringEnable _ _ _ _ | .ringDisable _ _ _ _ | .jobFetch _ |
  .jobDeadline _ | .nop _ | .fence _ | .stamp _ | .unassignedOpcode _ | .jobPlacement _ | .bayIssue _ | .segmentBoundary _ | .heldRecordMark _ |
  .epochBoundary _ | .sealJob _ | .openJob _ | .macGen _ | .macVerify _ | .encrypt _ | .decrypt _ | .assocQuery _ | .digest _ | .digestVerify _ |
  .hmacGen _ | .hmacVerify _ | .compare _ | .hmacLoad _ | .hmacUnload _ | .engineLoad _ | .releaseTick _ | .wipeDone _ _ | .mldsaBlockTick _ |
  .keyImport _ | .keyExport _ | .keyGenerate _ | .keyDerive _ | .keyDelete _ | .keyInfo _ | .keyRestrict _ | .keyEscrowOut _ | .keyEscrowIn _ |
  .eraseBwk | .sourceBlock _ _ | .wordDelivery | .seedingDeadline _ | .rngGet _ | .rngReseed _ | .rngRaw _ | .enterRehearsal | .exitRehearsal |
  .packetIn _ _ _ _ | .assocWrite _ | .assocKill _ | .rehash | .rehashDone | .peerAgeVisit _ | .linkUp _ | .hopBreak _ | .hopSilence _ |
  .reply _ _ _ | .confirm _ | .echo _ _ _ | .probe _ _ _ _ | .elect _ _ | .number _ _ | .map _ _ | .join _ _ _ _ _ _ | .adv _ _ _ _ |
  .relayJob _ _ | .relayDone _ _ | .relayCancel _ _ | .relayAlarm _ _ | .relayBreak _ _ | .time _ _ _ | .mailSend _ | .mail _ _ _ _ _ |
  .cardRemoval => true
  | _ => false

/-- Commands whose own effect may change the packet front (chapter 14). -/
def actsOnFront (c : Instr) : Bool :=
  match c with
  | .porstNAssert | .blkrstNAssert | .vaonLoss | .sensorTrip _ _ _ | .lockstep | .regWrite _ _ _ | .memReadData _ _ _ _ | .memWriteAck _ _ |
  .memRspErr _ _ | .startStepDone _ _ _ | .startStepBound _ | .clearFail _ | .runStep _ | .acceptUntested | .configure _ | .start _ | .curtain _ _
  | .restart _ | .reset _ | .disable _ | .freeze _ | .thaw _ | .migOffer _ | .save _ | .restore _ | .migCancel _ | .seatTransitionEnd _ |
  .jobPlacement _ | .bayIssue _ | .segmentBoundary _ | .sealJob _ | .openJob _ | .macGen _ | .macVerify _ | .encrypt _ | .decrypt _ |
  .releaseTick _ | .wipeDone _ _ | .mldsaBlockTick _ | .packetIn _ _ _ _ | .assocWrite _ | .assocKill _ | .nodeWrite _ _ | .swap | .epochDrainEnd
  | .rehash | .rehashDone | .peerAgeVisit _ | .packetOutAccept _ => true
  | _ => false

/-- Commands whose own effect may change the relay ring (chapter 16). -/
def actsOnRelay (c : Instr) : Bool :=
  match c with
  | .porstNAssert | .blkrstNAssert | .vaonLoss | .sensorTrip _ _ _ | .lockstep | .clearA | .clearB | .portClockReturn _ | .regWrite _ _ _ |
  .memReadData _ _ _ _ | .memWriteAck _ _ | .memRspErr _ _ | .startStepDone _ _ _ | .startStepBound _ | .clearFail _ | .runStep _ |
  .acceptUntested | .configure _ | .start _ | .curtain _ _ | .restart _ | .reset _ | .disable _ | .freeze _ | .thaw _ | .migOffer _ | .save _ |
  .restore _ | .migCancel _ | .jobDeadline _ | .jobPlacement _ | .epochBoundary _ | .advertisement | .releaseTick _ | .wipeDone _ _ |
  .mldsaBlockTick _ | .wordDelivery | .linkUp _ | .creditReturn _ | .hopBreak _ | .hopSilence _ | .hopRekeyDue _ | .hello _ _ _ | .reply _ _ _ |
  .confirm _ | .echo _ _ _ | .probe _ _ _ _ | .electionStart | .elect _ _ | .number _ _ | .map _ _ | .join _ _ _ _ _ _ | .adv _ _ _ _ |
  .relayJob _ _ | .relayDone _ _ | .relayCancel _ _ | .relayAlarm _ _ | .relayBreak _ _ | .timeSend | .time _ _ _ | .timeLoss | .mailSend _ |
  .mail _ _ _ _ _ | .inboxRelease _ | .brokenHopRekey _ => true
  | _ => false

/-- Commands whose own effect may change the entropy farm (chapter 13). -/
def actsOnEntropy (c : Instr) : Bool :=
  match c with
  | .porstNAssert | .blkrstNAssert | .vaonLoss | .sensorTrip _ _ _ | .lockstep | .clearA | .clearB | .sequencerFault _ | .wingFailure _ |
  .portClockReturn _ | .regWrite _ _ _ | .memReadData _ _ _ _ | .memWriteAck _ _ | .rootkeyTimeout | .startStepDone _ _ _ | .startStepBound _ |
  .imagesValidWrite _ | .clearFail _ | .runStep _ | .acceptUntested | .configure _ | .start _ | .curtain _ _ | .restart _ | .reset _ |
  .resetReport _ | .disable _ | .freeze _ | .thaw _ | .migOffer _ | .save _ | .restore _ | .migCancel _ | .seatTransitionEnd _ | .bayIssue _ |
  .segmentBoundary _ | .wingWake _ | .countermeasureReseed | .sealJob _ | .openJob _ | .macGen _ | .macVerify _ | .encrypt _ | .decrypt _ |
  .digest _ | .digestVerify _ | .hmacGen _ | .hmacVerify _ | .engineLoad _ | .releaseTick _ | .wipeDone _ _ | .mldsaBlockTick _ | .keyImport _ |
  .keyExport _ | .keyGenerate _ | .keyDerive _ | .keyDelete _ | .keyInfo _ | .keyRestrict _ | .keyEscrowOut _ | .keyEscrowIn _ | .sourceBlock _ _
  | .sourceRestartDone _ | .wordDelivery | .reseedDue _ | .instHeld _ | .rngGet _ | .rngReseed _ | .rngRaw _ | .enterRehearsal | .exitRehearsal |
  .revive _ | .clearCounts | .creditReturn _ | .hopRekeyDue _ | .hello _ _ _ | .electionStart | .elect _ _ | .cardRemoval | .t1BlockRx _ |
  .authorize _ | .importShare _ | .exportShare _ | .brokenHopRekey _ => true
  | _ => false

/-- Commands whose own effect may change the engines (chapters 10 and 11). -/
def actsOnEngines (c : Instr) : Bool :=
  match c with
  | .porstNAssert | .blkrstNAssert | .vaonLoss | .sensorTrip _ _ _ | .lockstep | .erasureVerified _ | .sequencerFault _ | .wingFailure _ |
  .regWrite _ _ _ | .memReadData _ _ _ _ | .memRspErr _ _ | .startStepDone _ _ _ | .startStepBound _ | .clearFail _ | .runStep _ | .acceptUntested
  | .configure _ | .start _ | .curtain _ _ | .restart _ | .reset _ | .disable _ | .freeze _ | .thaw _ | .migOffer _ | .save _ | .restore _ |
  .migCancel _ | .jobDeadline _ | .nop _ | .fence _ | .stamp _ | .unassignedOpcode _ | .jobPlacement _ | .bayIssue _ | .segmentBoundary _ |
  .epochBoundary _ | .sealJob _ | .openJob _ | .macGen _ | .macVerify _ | .encrypt _ | .decrypt _ | .assocQuery _ | .digest _ | .digestVerify _ |
  .hmacGen _ | .hmacVerify _ | .compare _ | .hmacLoad _ | .hmacUnload _ | .engineLoad _ | .runStart _ | .datapathDone _ _ | .releaseTick _ |
  .wipeDone _ _ | .mldsaBlockTick _ | .floorWrite _ | .rtQuery _ | .slackRead _ | .faultLogRead | .admitStsRead _ | .keyImport _ | .keyExport _ |
  .keyGenerate _ | .keyDerive _ | .keyDelete _ | .keyInfo _ | .keyRestrict _ | .keyEscrowOut _ | .keyEscrowIn _ | .eraseBwk | .sourceBlock _ _ |
  .wordDelivery | .seedingDeadline _ | .rngGet _ | .rngReseed _ | .rngRaw _ | .enterRehearsal | .exitRehearsal | .packetIn _ _ _ _ | .assocWrite _
  | .assocKill _ | .linkUp _ | .hopBreak _ | .hopSilence _ | .reply _ _ _ | .confirm _ | .echo _ _ _ | .probe _ _ _ _ | .elect _ _ | .number _ _ |
  .map _ _ | .join _ _ _ _ _ _ | .adv _ _ _ _ | .relayJob _ _ | .relayDone _ _ | .relayCancel _ _ | .relayAlarm _ _ | .relayBreak _ _ |
  .time _ _ _ | .mail _ _ _ _ _ | .cardRemoval => true
  | _ => false

/-- Commands whose own effect may change bays and wings (chapter 6). -/
def actsOnPlace (c : Instr) : Bool :=
  match c with
  | .porstNAssert | .blkrstNAssert | .vaonLoss | .sensorTrip _ _ _ | .lockstep | .sequencerFault _ | .wingFailure _ | .regWrite _ _ _ |
  .memReadData _ _ _ _ | .memWriteAck _ _ | .startStepDone _ _ _ | .startStepBound _ | .configure _ | .start _ | .curtain _ _ | .restart _ |
  .reset _ | .disable _ | .freeze _ | .thaw _ | .migOffer _ | .save _ | .restore _ | .migCancel _ | .seatTransitionEnd _ | .shareWrite _ _ _ |
  .jobPlacement _ | .bayIssue _ | .segmentBoundary _ | .heldRecordMark _ | .epochBoundary _ | .wingIdle _ | .wingGated _ | .wingWake _ |
  .wingWakeDone _ | .countermeasureReseed | .sealJob _ | .openJob _ | .macGen _ | .macVerify _ | .encrypt _ | .decrypt _ | .digest _ |
  .digestVerify _ | .hmacGen _ | .hmacVerify _ | .engineLoad _ | .releaseTick _ | .wipeDone _ _ | .mldsaBlockTick _ | .floorWrite _ | .rtQuery _ |
  .packetIn _ _ _ _ | .adv _ _ _ _ | .relayJob _ _ | .relayAlarm _ _ => true
  | _ => false

/-- Commands whose own effect may change bay buffers (chapter 8). -/
def actsOnBuffers (c : Instr) : Bool :=
  match c with
  | .porstNAssert | .blkrstNAssert | .vaonLoss | .sensorTrip _ _ _ | .lockstep | .erasureVerified _ | .sequencerFault _ | .wingFailure _ |
  .regWrite _ _ _ | .memReadData _ _ _ _ | .memWriteAck _ _ | .memRspErr _ _ | .startStepDone _ _ _ | .startStepBound _ | .clearFail _ |
  .runStep _ | .acceptUntested | .configure _ | .start _ | .curtain _ _ | .restart _ | .reset _ | .disable _ | .freeze _ | .thaw _ | .migOffer _ |
  .save _ | .restore _ | .migCancel _ | .seatTransitionEnd _ | .jobDeadline _ | .nop _ | .fence _ | .stamp _ | .unassignedOpcode _ |
  .jobPlacement _ | .bayIssue _ | .segmentBoundary _ | .heldRecordMark _ | .epochBoundary _ | .wingGated _ | .sealJob _ | .openJob _ | .macGen _ |
  .macVerify _ | .encrypt _ | .decrypt _ | .assocQuery _ | .digest _ | .digestVerify _ | .hmacGen _ | .hmacVerify _ | .compare _ | .hmacLoad _ |
  .hmacUnload _ | .engineLoad _ | .releaseTick _ | .wipeDone _ _ | .mldsaBlockTick _ | .keyImport _ | .keyExport _ | .keyGenerate _ | .keyDerive _
  | .keyDelete _ | .keyInfo _ | .keyRestrict _ | .keyEscrowOut _ | .keyEscrowIn _ | .eraseBwk | .sourceBlock _ _ | .wordDelivery |
  .seedingDeadline _ | .rngGet _ | .rngReseed _ | .rngRaw _ | .enterRehearsal | .exitRehearsal | .packetIn _ _ _ _ | .assocWrite _ | .assocKill _
  | .linkUp _ | .hopBreak _ | .hopSilence _ | .reply _ _ _ | .confirm _ | .echo _ _ _ | .probe _ _ _ _ | .elect _ _ | .number _ _ | .map _ _ |
  .join _ _ _ _ _ _ | .adv _ _ _ _ | .relayJob _ _ | .relayDone _ _ | .relayCancel _ _ | .relayAlarm _ _ | .relayBreak _ _ | .time _ _ _ |
  .mail _ _ _ _ _ | .cardRemoval => true
  | _ => false

/-- Commands whose own effect may change the start (chapter 3). -/
def actsOnStart (c : Instr) : Bool :=
  match c with
  | .porstNAssert | .porstNRelease | .blkrstNAssert | .blkrstNRelease | .vaonLoss | .sensorTrip _ _ _ | .lockstep | .wingFailure _ |
  .regWrite _ _ _ | .memReadData _ _ _ _ | .memRspErr _ _ | .rootkeyAck _ _ | .rootkeyTimeout | .startStepDone _ _ _ | .startStepBound _ |
  .imagesValidWrite _ | .acceptVersionWrite _ _ | .clearFail _ | .runStep _ | .acceptUntested | .configure _ | .start _ | .curtain _ _ |
  .restart _ | .reset _ | .disable _ | .freeze _ | .thaw _ | .migOffer _ | .save _ | .restore _ | .migCancel _ | .releaseTick _ | .wipeDone _ _ |
  .mldsaBlockTick _ | .cardInsert | .vaonReturn => true
  | _ => false

end Sys2Proof.Machine
end

