-- ==== Sys2Proof/Certificates/Slice0/Obligations.lean ====
section
/-! DEFINITION. The statements for the provers, each a proposition about the model. -/

open Sys2Proof Sys2Proof.Machine

-- The whole machine ---------------------------------------------------------------------------------------------------------

/-- The block takes its commands first in, first out: a step is the command at the front of the queue, run on the queue's rest. -/
def Obligations.StepRunsTheFront : Prop :=
  ∀ (c : Instr) (q : List Instr) (s : State), step { s with pending := c :: q } = exec c { s with pending := q }

/-- With no command waiting one nanosecond passes (log entry 1, the model's choice): secure time advances by it while VAON is in tolerance (R469), stage time by
the rate and slew in force (R460); the aging visits of the instant that ends take effect (log entry 104, the model's choice), the card port moves on with its clock
(R497, R498, R519), of an ON wing that has work the instant before which it is not idle is now (R224), and nothing else changes, but that what waits for a later
instant, a request for a memory port or a completion record, leaves then. -/
def Obligations.IdleStepPassesOneNanosecond : Prop :=
  ∀ (s : State), s.pending = [] → ∃ u, step s = .next (fin u)
    ∧ u.time = (if s.start.vaonBad then s.time else timeTick s.time)
    ∧ { u with time := s.time, place := s.place, front := s.front, cust := s.cust } = s
    ∧ { u.place with wings := s.place.wings } = s.place
    ∧ (∀ w, u.wing w = if w < 8 ∧ (s.wing w).power = 2 ∧ wingBusy s w = true then { s.wing w with idleAt := u.time.mono } else s.wing w)
    ∧ u.front = (ageDue s).front ∧ (s.front.visits = [] ∨ s.front.rehashBusy = true ∨ s.alarms.aActive = true → u.front = s.front)
    ∧ u.cust = (cardTick { s with time := u.time }).cust
    ∧ (s.cust.rstAt = none → s.cust.divNext = none → s.cust.jrec = none → u.cust = s.cust)

/-- Whatever command is at the front, a step that answers a next state has taken exactly that one from the queue: nothing a command does adds,
drops or reorders the commands that wait behind it, and the port shell's parameters (R54) never change. -/
def Obligations.EveryStepTakesOneCommand : Prop :=
  ∀ (s t : State), step s = .next t → t.pending = s.pending.tail ∧ t.params = s.params

-- Stage time and secure time ------------------------------------------------------------------------------------------------

/-- RATE_WRITE, STEP, SLEW and CANCEL (R460, R461, R462, R466, R474): of a block that is no follower, with the operand and the result in range, the
operand takes effect and nothing but the time base changes, and a SLEW of zero ends at once with vector 6; while FOLLOWER reads 1, and out of range, the
write changes nothing but the alarm it raises, class C REG_REFUSED naming the register. -/
def Obligations.RateStepSlewAndCancelSteerStageTime : Prop :=
  (∀ (s : State), s.time.follower = false →
     (∀ v : W32, s.served 0x80014 = true →
       -(2 ^ 38) ≤ toInt 40 (v.toNat % 256 * 2 ^ 32 + s.time.rateLo) → toInt 40 (v.toNat % 256 * 2 ^ 32 + s.time.rateLo) ≤ 2 ^ 38 →
       exec (.rateWrite v) s = .next { s with time :=
         { s.time with rateHi := v.toNat % 256, rate := toInt 40 (v.toNat % 256 * 2 ^ 32 + s.time.rateLo) } })
     ∧ (∀ (frac : BitVec 16) (d : Int), s.served 0x80020 = true → d = adjNs s.time * 2 ^ 16 + frac.toNat →
       0 ≤ (s.stamp : Int) + d → (s.stamp : Int) + d ≤ (2 ^ 64 - 1) * 2 ^ 16 →
       exec (.timeStep frac) s = .next { s with time :=
         { s.time with offset := (s.stamp : Int) + d - s.time.mono, slewing := false, slewLeft := 0, stepped := true
                       cntStep := (s.time.cntStep + 1) % 2 ^ 32
                       portStep := true, ppsHigh := false
                       ppsNext := (((s.stamp : Int) + d).toNat / 2 ^ 16 / 1000000000 + 1) * 1000000000 } })
     ∧ (∀ d : Int, s.served 0x80020 = true → d = adjNs s.time → d ≠ 0 → -(2 ^ 31 - 1) ≤ d → d ≤ 2 ^ 31 - 1 →
       exec (.slew 0) s = .next { s with time := { s.time with slewing := true, slewLeft := d * 2 ^ 64, slewPos := decide (0 < d) } })
     ∧ (s.served 0x80020 = true → adjNs s.time = 0 →
       exec (.slew 0) s = .next (vector { s with time := { s.time with slewing := false, slewLeft := 0 } } 6))
     ∧ (s.served 0x80020 = true → exec .cancelSlew s = .next { s with time := { s.time with slewing := false, slewLeft := 0 } })
     ∧ (s.up = true → s.time.slewing = true → s.time.slewLeft = 0 →
       exec .slewDone s = .next (vector { s with time := { s.time with slewing := false } } 6)))
  ∧ (∀ (s : State) (frac : BitVec 16),
     (∀ v : W32, s.served 0x80014 = true →
       s.time.follower = true ∨ toInt 40 (v.toNat % 256 * 2 ^ 32 + s.time.rateLo) < -(2 ^ 38) ∨ 2 ^ 38 < toInt 40 (v.toNat % 256 * 2 ^ 32 + s.time.rateLo) →
       exec (.rateWrite v) s = .next (alarmC s 0x46 0x80014 v.toNat))
     ∧ (s.served 0x80020 = true →
       s.time.follower = true ∨ (s.stamp : Int) + (adjNs s.time * 2 ^ 16 + frac.toNat) < 0
         ∨ (2 ^ 64 - 1) * 2 ^ 16 < (s.stamp : Int) + (adjNs s.time * 2 ^ 16 + frac.toNat) →
       exec (.timeStep frac) s = .next (alarmC s 0x46 0x80020 (2 ^ 30 + frac.toNat)))
     ∧ (s.served 0x80020 = true → s.time.follower = true ∨ frac ≠ 0 ∨ adjNs s.time < -(2 ^ 31 - 1) ∨ 2 ^ 31 - 1 < adjNs s.time →
       exec (.slew frac) s = .next (alarmC s 0x46 0x80020 (2 * 2 ^ 30 + frac.toNat)))
     ∧ (s.served 0x80020 = true → s.time.follower = true → exec .cancelSlew s = .next (alarmC s 0x46 0x80020 (3 * 2 ^ 30))))

/-- The time port takes a new value each 8 ns of stage time with the next TIME_SEQ, carrying TIME_STEP once after a step (R79, R461). -/
def Obligations.TimePortCountsItsValues : Prop :=
  ∀ (s : State), s.up = true → s.time.runs = true → s.time.portDue ≤ s.time.mono → s.mem.stalled.contains .pkclk = false →
    exec .timePortValue s = .next { s with time :=
      { s.time with portNs := s.now, portFrac := s.stamp % 2 ^ 16, portStepOut := s.time.portStep, portStep := false
                    portSeq := (s.time.portSeq + 1) % 4, portDue := s.time.portDue + 8 * 2 ^ 16 } }

/-- PPS_OUT rises at a whole second that stage time has reached by advancing, with the width in force then, and falls WIDTH_US × 1,000 ns after the
instant it rose at; a step lowers it at once, and the next rise is at the first whole second after it; a width written takes effect at the next rise
(R467). -/
def Obligations.PulsePerSecondRisesAndFalls : Prop :=
  ∀ (s : State),
    (s.up = true → s.time.runs = true → s.time.ppsHigh = false → s.time.ppsNext ≤ s.now →
      exec .ppsRise s = .next { s with time :=
        { s.time with ppsHigh := true, ppsRose := s.time.ppsNext, ppsNext := s.time.ppsNext + 1000000000, ppsWidth := s.time.ppsCfg } })
    ∧ (s.time.ppsHigh = true → s.time.ppsRose + s.time.ppsWidth * 1000 ≤ s.now →
      exec .ppsFall s = .next { s with time := { s.time with ppsHigh := false } })
    ∧ (s.time.ppsHigh = true → s.now < s.time.ppsRose + s.time.ppsWidth * 1000 → exec .ppsFall s = .next s)
    ∧ (∀ frac t, exec (.timeStep frac) s = .next t → t.time.offset ≠ s.time.offset → t.time.ppsHigh = false
      ∧ t.time.ppsNext = (t.now / 1000000000 + 1) * 1000000000)
    ∧ (∀ v : W32, s.served 0x80030 = true → 1 ≤ v.toNat % 2 ^ 20 → v.toNat % 2 ^ 20 ≤ 999999 →
      exec (.regWrite mgr 0x80030 v) s = .next (carryAll { s with time := { s.time with ppsCfg := v.toNat % 2 ^ 20 } }))

/-- An enabled edge 100 ns or more after the last stamped one takes the stamp, sets VALID, and LOST where VALID stood, and raises vector 6 where
PROMPT is set; a faster one only counts in FAST, up to 255 (R82, R468). -/
def Obligations.CaptureStampsItsEdges : Prop :=
  ∀ (s : State) (n : Nat), s.up = true → s.time.runs = true → n < 8 → s.time.captCfg.testBit n = true →
    ((∀ l, (s.capture n).lastAt = some l → l + 100 * 2 ^ 16 ≤ s.time.mono) →
      ∃ u : State, u = s.setCapture n
          { s.capture n with stamp := s.stamp, valid := true, lost := (s.capture n).lost || (s.capture n).valid, lastAt := some s.time.mono }
        ∧ exec (.captureEdge n) s = .next (if s.time.captCfg.testBit (8 + n) then vector u 6 else u))
    ∧ (∀ l, (s.capture n).lastAt = some l → s.time.mono < l + 100 * 2 ^ 16 →
      exec (.captureEdge n) s = .next (s.setCapture n
        { s.capture n with fast := if (s.capture n).fast + 1 < 256 then (s.capture n).fast + 1 else 255 }))

/-- The reads that take a snapshot (R466, R468, R469): TIME_CAPT_STS clears VALID, LOST and FAST as it is read, and TIME_NOW_LO and TIME_SEC_LO
change nothing but their snapshot; each answers the value that stood before. -/
def Obligations.SnapshotReadsAnswerTheValueTheyTake : Prop :=
  ∀ (s : State),
    (∀ n, n < 8 → s.served (0x80100 + 0x10 * n) = true →
      exec (.captureSnapshot n) s = .next { s.setCapture n { s.capture n with snap := (s.capture n).stamp, valid := false, lost := false, fast := 0 } with
        seatRegs := { s.seatRegs with readData := w32 (capWord (s.capture n)) } })
    ∧ (s.served 0x80004 = true →
      exec .nowSnapshot s = .next { s with time := { s.time with snap := s.stamp }, seatRegs := { s.seatRegs with readData := w32 (s.now % 2 ^ 32) } })
    ∧ (s.served 0x80040 = true →
      exec .secureSnapshot s = .next { s with
        time := { s.time with secSnap := s.time.secure }, seatRegs := { s.seatRegs with readData := w32 (s.time.secure % 2 ^ 32) } })

/-- Secure time changes only by advancing, or by TIME_SEC_ADV, a write of k to which adds k × 1,000,000,000 ns and touches nothing else; no other command
changes it, and none but the loss of VAON and its return (R101, R471) makes it smaller (R470). -/
def Obligations.SecureTimeAdvancesByWholeSeconds : Prop :=
  ∀ (s : State),
    (∀ v : W32, s.served 0x80048 = true → s.time.secure + v.toNat * 1000000000 < 2 ^ 64 →
      exec (.secAdvance v) s = .next { s with time := { s.time with secure := s.time.secure + v.toNat * 1000000000 } })
    ∧ (∀ c t, exec c s = .next t → c ≠ .vaonLoss → c ≠ .vaonReturn → s.time.secure ≤ t.time.secure
      ∧ ((∀ v, c ≠ .secAdvance v) → (∀ src off v, c ≠ .regWrite src off v) → t.time.secure = s.time.secure))

/-- REFCLK lost in service is held over with REF_LOST, alarm REFCLK_LOST and vector 6, and its return within 1 % of TIME_REF_USED ends the
holdover with vector 6 and no step (R84, R465). -/
def Obligations.RefclkIsHeldOverAndComesBack : Prop :=
  ∀ (s : State), s.up = true → s.time.runs = true →
    (s.time.refAbsent = false →
      exec .refclkLost s = .next (vector (alarmC { s with time := { s.time with refAbsent := true, holdover := true, refLost := true } } 0x42 0 0) 6))
    ∧ (∀ khz, s.time.holdover = true → s.time.refUsed ≠ 0 → s.time.refUsed * 99 ≤ khz * 100 → khz * 100 ≤ s.time.refUsed * 101 → s.cust.st ≠ 1 →
      exec (.refclkReturn khz) s = .next (fin (vector { s with time := { s.time with refAbsent := false, refIs := khz, holdover := false } } 6)))

-- The direct digest window --------------------------------------------------------------------------------------------------

/-- The window's commands (R312, R313, R314): START opens it on a named algorithm, a data write completes a word and commits the one before, FINISH
commits the last bytes and begins the final absorption, the absorption leaves the chaining state or the digest, and ABORT erases it, each changing the
window alone; what the window cannot take, a START or FINISH while BUSY, an ALG that names no algorithm, a FINISH of an idle window, is dropped with an
error flag and without a fault, and a word written while BUSY moves the window to ERROR. -/
def Obligations.DigestWindowCommandsChangeTheWindowAlone : Prop :=
  (∀ (s : State) (w : DigestWindow), w = s.window →
     (∀ alg, s.served 0xC0000 = true → w.busy = false → 1 ≤ alg → alg ≤ 8 →
       exec (.dwStart alg) s = .next { s with window :=
         { w with st := 1, finishing := false, done := false, heldWord := none, part := [], hash := hashInit alg, out := [], alg := alg, count := 0 } })
     ∧ (∀ v : W32, s.served 0xC0014 = true → w.st = 1 → w.busy = false → w.heldWord = none →
       exec (.dwDataWrite v) s = .next { s with window := { w with heldWord := some (leBytes 4 w.lowHalf ++ leBytes 4 v.toNat) } })
     ∧ (∀ (v : W32) old, s.served 0xC0014 = true → w.st = 1 → w.busy = false → w.heldWord = some old → w.count + 8 ≤ hashLimit w.alg →
       exec (.dwDataWrite v) s = .next { s with window := { w with
         part := w.part ++ old, count := w.count + old.length,
         busy := (w.part ++ old).length == hashBlock w.alg,
         heldWord := some (leBytes 4 w.lowHalf ++ leBytes 4 v.toNat) } })
     ∧ (∀ v : W32, s.served 0xC0010 = true → w.busy = false →
      exec (.regWrite mgr 0xC0010 v) s = .next (carryAll { s with window := { w with lowHalf := v.toNat } }))
    ∧ (s.served 0xC0000 = true → w.st = 1 → w.busy = false → w.heldWord = none → w.count ≤ hashLimit w.alg →
      exec (.dwFinish 0) s = .next { s with window := { w with busy := true, finishing := true, heldWord := none } })
    ∧ (∀ n old, s.served 0xC0000 = true → w.st = 1 → w.busy = false → w.heldWord = some old → 1 ≤ n → n ≤ 8 → w.count + n ≤ hashLimit w.alg →
       exec (.dwFinish n) s = .next { s with window := { w with
         part := w.part ++ old.take n, count := w.count + (old.take n).length,
         busy := true, finishing := true, heldWord := none } })
     ∧ (s.served 0xC0000 = true →
       exec .dwAbort s = .next { s with window :=
         { w with st := 0, busy := false, finishing := false, done := false, heldWord := none, part := [], hash := [], out := [] } })
     ∧ (s.up = true → w.busy = true → w.finishing = false →
       exec .dwAbsorbDone s = .next { s with window := { w with busy := false, hash := hashAbsorb w.alg w.hash w.part, part := [] } })
     ∧ (s.up = true → w.busy = true → w.finishing = true →
       exec .dwAbsorbDone s = .next { s with window :=
         { w with
           st := 0, busy := false, finishing := false, done := true, heldWord := none, part := [], hash := [],
           out := hashOut w.alg (hashAbsorb w.alg w.hash (hashPad w.alg w.count w.part)) (hashLen w.alg) } }))
  ∧ (∀ (s : State) (w : DigestWindow), w = s.window →
     (∀ alg, alg < 16 → s.served 0xC0000 = true → w.busy = true ∨ alg = 0 ∨ 8 < alg →
       exec (.dwStart alg) s = .next { s with window := { w with errs := w.errs ||| 2 } })
     ∧ (∀ n, n < 16 → s.served 0xC0000 = true → w.busy = true ∨ w.st ≠ 1 →
       exec (.dwFinish n) s = .next { s with window := { w with errs := w.errs ||| 2 } })
     ∧ (∀ v : W32, s.served 0xC0014 = true → w.st = 1 → w.busy = true →
       exec (.dwDataWrite v) s = .next { s with window := { w with errs := w.errs ||| 1, st := 2 } })
     ∧ (∀ v : W32, s.served 0xC0014 = true → w.st ≠ 1 → exec (.dwDataWrite v) s = .next s))

-- Access ----------------------------------------------------------------------------------------------------------------

/-- HOSTREG serves the physical function everywhere, and a tenant in its own page and at BLOCK_ID and HWREV (R62, R63): any other access of a tenant has no
effect but one class C alarm ACCESS, with the offset, the write flag and the number of its seat; and a register of a tenant's own page that only the
physical function may write is not written by the tenant, whose write raises the same alarm (R169, R551). -/
def Obligations.OtherTenantAccessesOnlyRaiseAnAlarm : Prop :=
  (∀ (s : State) (src off : Nat) (v : W32), s.hostOpen = true → s.start.state ≠ 5 → src < 1024 →
     (off < 0x400000 ∨ 0x800000 ≤ off ∨ off / 0x1000 % 0x400 ≠ src ∨ src = 0) → off < 2 ^ 24 → off % 4 = 0 →
     exec (.regWrite src off v) s = .next (carryAll (alarmC s 0x40 off (2048 + src))))
  ∧ (∀ (s : State) (seat slot reg : Nat) (v : W32), s.hostOpen = true → s.start.state ≠ 5 → 0 < seat → seat < 1024 → slot < 16 →
     (reg = 0x20 ∨ reg = 0x24 ∨ reg = 0x28 ∨ reg = 0x2C ∨ reg = 0x30) →
     exec (.ringSettingWrite seat seat slot reg v) s = .next (fin (alarmC s 0x40 (ringOff seat slot reg) (2048 + seat))))

/-- While a reset is low, VAON is out of tolerance or HCLK is lost every register write does nothing; a block in HALTED takes writes of the mailbox
alone (R59, R65, R116). -/
def Obligations.NothingIsWrittenWhileDownOrHalted : Prop :=
  ∀ (s : State) (src off : Nat) (v : W32),
    (s.hostOpen = false → exec (.regWrite src off v) s = .next (carryAll s))
    ∧ (s.start.state = 5 → 0x11000 ≤ off → off < 2 ^ 24 → exec (.regWrite src off v) s = .next (carryAll s))

/-- REG_WRITE reaches the register at its offset (R8, R168, R234, R312, R313, R457, R474, R495, R523, R532, R541): the low half of the window's data is loaded, or sets
LOST and ERROR while BUSY, ALM_MASK_C takes any value, PLC_RELAY one whose field is not zero and refuses the others with REG_REFUSED, and a register that takes every
value of its field, of the seats, placement, the packet front, the time base, the relay ring, the card port or the alarms, reads as it was written. -/
def Obligations.RegisterWritesAreReadBack : Prop :=
  ∀ (s : State) (v : W32), s.hostOpen = true → s.start.state = 3 →
    exec (.regWrite mgr 0xC0010 v) s = .next (carryAll (if s.window.st = 1 ∧ s.window.busy = true then
        { s with window := { s.window with errs := s.window.errs ||| 1, st := 2 } } else { s with window := { s.window with lowHalf := v.toNat } }))
    ∧ (∀ t, t = { s with alarms := { s.alarms with maskC := v } } → exec (.regWrite mgr 0xB0030 v) s = .next (carryAll t) ∧ readReg t 0xB0030 = v.toNat)
    ∧ (v.toNat / 2 ^ 12 % 2 ^ 10 = 0 → exec (.regWrite mgr 0x30014 v) s = .next (carryAll (alarmC s 0x46 0x30014 v.toNat)))
    ∧ (v.toNat / 2 ^ 12 % 2 ^ 10 ≠ 0 → ∃ t, exec (.regWrite mgr 0x30014 v) s = .next (carryAll t) ∧ readReg t 0x30014 = v.toNat % 2 ^ 22
      ∧ { t with place := s.place } = s)
    ∧ (∀ p ∈ [(0x20008, 10), (0x30000, 3), (0x30010, 32), (0x70028, 32), (0x7002C, 32), (0x70034, 16), (0x80010, 32), (0x80018, 32), (0x8001C, 32),
        (0x80034, 16), (0x9000C, 8), (0x90028, 25), (0x9003C, 25), (0xA000C, 32), (0xB0030, 32)],
      ∃ t, exec (.regWrite mgr p.1 v) s = .next (carryAll t) ∧ readReg t p.1 = v.toNat % 2 ^ p.2 ∧ t.jobs = s.jobs ∧ t.mem = s.mem ∧ t.keys = s.keys)

-- Command rings -------------------------------------------------------------------------------------------------------------

/-- RING_DB and RING_CQ_HEAD (R149, R173, R175), written by the physical function or the seat itself: an index within the ring is taken, one
beyond it sets DB_ERR and is ignored, and the doorbell of a ring that is not enabled, or of a seat at rest, changes nothing. -/
def Obligations.RingIndexesAreTakenInRange : Prop :=
  ∀ (s : State) (src seat slot : Nat) (v : W32) (r : Ring), r = s.ring seat slot → s.hostOpen = true → s.start.state ≠ 5 → seat < 1024 → slot < 16 →
    (src.testBit 10 = true ∨ (src % 1024 = seat ∧ 0 < seat)) →
    (r.act.enable = true → 2 ≤ (s.seat seat).state → (∀ t, (s.seat seat).transit ≠ .reset t) → sub32 v.toNat r.fetchIdx ≤ 2 ^ (r.act.cfg % 32) →
      exec (.doorbell src seat slot v) s = .next (fin (s.setRing seat slot { r with db := v.toNat })))
    ∧ (r.act.enable = true → 2 ≤ (s.seat seat).state → (∀ t, (s.seat seat).transit ≠ .reset t) → 2 ^ (r.act.cfg % 32) < sub32 v.toNat r.fetchIdx →
      exec (.doorbell src seat slot v) s = .next (fin (s.setRing seat slot { r with dbErr := true })))
    ∧ (r.act.enable = false ∨ (s.seat seat).state < 2 → exec (.doorbell src seat slot v) s = .next (fin s))
    ∧ (sub32 v.toNat r.cqHead ≤ sub32 r.cqTail r.cqHead →
      exec (.cqHeadWrite src seat slot v) s = .next (fin (evalRing (s.setRing seat slot { r with
        cqHead := v.toNat, armed := true, unread := r.unread.filter (fun u => decide (sub32 u.1 v.toNat < sub32 r.cqTail v.toNat)) }) seat slot)))
    ∧ (sub32 r.cqTail r.cqHead < sub32 v.toNat r.cqHead →
      exec (.cqHeadWrite src seat slot v) s = .next (fin (s.setRing seat slot { r with dbErr := true })))

/-- RING_CTRL and the ring settings written by the physical function (R169, R170, R199): while the seat is DISABLED, CONFIGURED or CURTAINED they change the
settings written, not those in force; in another state they set CFG_REJECT; RESUME clears both fault bits. A ring of seat 0 takes its settings while it is disabled, and
ENABLE, which passes its checks, puts them in force at once with the indexes and LOST at zero. -/
def Obligations.RingSettingsWaitForTheCurtain : Prop :=
  ∀ (s : State) (src seat slot : Nat) (r : Ring), r = s.ring seat slot → s.hostOpen = true → s.start.state ≠ 5 → 0 < seat → seat < 1024 → slot < 16 →
    src.testBit 10 = true →
    ((s.seat seat).state = 0 ∨ (s.seat seat).state = 1 ∨ (s.seat seat).state = 3 →
      (r.set.enable = false → exec (.ringEnable src seat slot false) s = .next (fin (s.setRing seat slot { r with set := { r.set with enable := true } })))
      ∧ (r.set.enable = true → exec (.ringDisable src seat slot false) s = .next (fin (s.setRing seat slot { r with set := { r.set with enable := false } })))
      ∧ (∀ v : W32, exec (.ringSettingWrite src seat slot 0x30 v) s = .next (fin (s.setRing seat slot { r with set := ringSetWord r.set 0x30 v.toNat }))
          ∧ exec (.ringSettingWrite src seat slot 0x24 v) s
            = .next (fin (s.setRing seat slot { r with set := { r.set with base := v.toNat * 2 ^ 32 + r.set.base % 2 ^ 32 } }))))
    ∧ ((s.seat seat).state = 2 ∨ (s.seat seat).state = 4 →
      (r.set.enable = false → exec (.ringEnable src seat slot false) s = .next (fin (s.setSeat seat { s.seat seat with cfgReject := true })))
      ∧ ∀ v : W32, exec (.ringSettingWrite src seat slot 0x30 v) s = .next (fin (s.setSeat seat { s.seat seat with cfgReject := true })))
    ∧ (∀ r0, r0 = s.ring 0 slot →
      (∀ v : W32, exec (.ringSettingWrite src 0 slot 0x30 v) s = .next (fin (if r0.set.enable = true then s.setSeat 0 { s.seat 0 with cfgReject := true }
          else s.setRing 0 slot { r0 with set := ringSetWord r0.set 0x30 v.toNat })))
      ∧ (r0.set.enable = false → exec (.ringEnable src 0 slot false) s = .next (fin (enableSeat0 s slot)))
      ∧ (∀ c, c = { r0.set with enable := true } → rootOk (s.seat 0) = true →
        ringOk s 0 slot ((List.range 16).filterMap (fun i => if i = slot then none else some (i, (s.ring 0 i).act))) c = true →
        ((enableSeat0 s slot).ring 0 slot) = { r0 with
          set := c, act := c, db := 0, fetchIdx := 0, cqTail := 0, fetching := false, packets := [], fetchLen := 0, cut := none, unread := [], faultRecs := []
          cqHead := 0, lost := 0, cplFault := false, fetchFault := false, dbErr := false, armed := true })
      ∧ (r0.set.enable = true → ∃ t, exec (.ringDisable src 0 slot false) s = .next (fin t) ∧ (t.ring 0 slot).set.enable = false
        ∧ (t.ring 0 slot).act.enable = false ∧ (t.ring 0 slot).fetching = false ∧ t.jobs = s.jobs))
    ∧ exec (.resume src seat slot) s = .next (fin (s.setRing seat slot { r with cplFault := false, fetchFault := false }))

/-- Fetching and prompting (R70, R148, R176, R177, R195): a seat that may fetch, with no fetch in progress, reads the first packet of the next slot's
next entry, or the rest of a job whose first packet it has; every 100 ns each ring is evaluated, and one that is armed, with a COUNT that is not 0, and has COUNT
acknowledged records unread, or one acknowledged TIME × 100 ns ago, or an urgent one, is disarmed and prompts; a ring that is not armed, whose COUNT is 0, or of
which none of the three holds, stays as it is, but that an urgent record counts at one evaluation only. That the oldest unread record is the one acknowledged first
is the model's choice (log entry 114). -/
def Obligations.JobsAreFetchedAndRingsPrompt : Prop :=
  ∀ (s : State) (seat : Nat),
    (∀ slot, seat < 1024 → seatFetches s seat = true → (∀ i, i < 16 → (s.ring seat i).fetching = false) → nextSlot s seat = some slot →
      ∀ u, u = s.setRing seat slot { s.ring seat slot with fetching := true, fetchLen := (s.ring seat slot).chain } →
      ((s.ring seat slot).packets = [] → exec (.jobFetch seat) s = .next (fin (addRead u (.fetch seat slot 0) seat
        ((s.ring seat slot).act.base + (s.ring seat slot).fetchIdx % (s.ring seat slot).size * 128) 128 0)))
      ∧ ((s.ring seat slot).packets ≠ [] → exec (.jobFetch seat) s = .next (fin (fetchPackets u seat slot 1 (s.ring seat slot).chain))))
    ∧ (s.serving = true → s.time.promptDue ≤ s.time.mono →
      exec .promptEvaluation s = .next (fin ((s.rings.map (·.1)).foldl (fun s k => evalRing s (k / 16) (k % 16))
        { s with time := { s.time with promptDue := s.time.promptDue + 100 * 2 ^ 16 } })))
    ∧ (∀ (slot : Nat) (r : Ring) (due : Prop), r = s.ring seat slot →
        (due ↔ r.coal % 2 ^ 16 ≤ sub32 r.cqTail r.cqHead - r.recsOut
          ∨ (r.coal / 2 ^ 16 % 2 ^ 16 ≠ 0 ∧ ∃ x, r.unread.head? = some x ∧ x.2.1 + r.coal / 2 ^ 16 % 2 ^ 16 * 100 * 2 ^ 16 ≤ s.time.mono)
          ∨ ∃ x ∈ r.unread, x.2.2 = true) →
      (r.armed = true → r.coal % 2 ^ 16 ≠ 0 → due → ∃ t, evalRing s seat slot = t
        ∧ { t with rings := s.rings, prompts := s.prompts } = s
        ∧ t.ring seat slot = { r with unread := r.unread.map (fun u => (u.1, u.2.1, false)), armed := false }
        ∧ t.prompts = (if (⟨seat, r.act.cfg / 2 ^ 5 % 2 ^ 11⟩ : Prompt) ∈ s.prompts then s.prompts
            else s.prompts ++ [⟨seat, r.act.cfg / 2 ^ 5 % 2 ^ 11⟩]))
      ∧ (r.armed = false ∨ r.coal % 2 ^ 16 = 0 ∨ ¬due →
        evalRing s seat slot = s.setRing seat slot { r with unread := r.unread.map (fun u => (u.1, u.2.1, false)) }))

/-- The control opcodes and opcodes no group assigns (R117, R180, R183, R184, R185): a job the ring manager may pass on ends at once, NOP with OK,
STAMP with secure time in seconds and the stage time of its acceptance, an unassigned opcode with INTERNAL 0x02, or 0x01 where safe stage serves no
such group; a FENCE ends with the number of jobs it waited for once none of them is left, and with INTERNAL 0x04 at once for a bad SCOPE. -/
def Obligations.ControlOpcodesEndAtTheRingManager : Prop :=
  ∀ (s : State) (id : Nat) (j : Job), s.serving = true →
    (ripe s id = some j → seedLate s j = false → j.late s = false →
      (j.opcode = 0x00 → exec (.nop id) s = .next (fin (fixOutcome s j.id { status := 0 })))
      ∧ (j.opcode = 0x02 → exec (.stamp id) s = .next (fin ((fixOutcome s j.id { status := 0, result := s.time.secure / 1000000000 }).modJob j.id
          (fun k => { k with outcome := k.outcome.map (fun o => { o with stamp := j.acceptAt / 2 ^ 16 }) }))))
      ∧ (unassigned j.opcode = true → s.start.state = 3 ∨ safeOpcode j.opcode = true → exec (.unassignedOpcode id) s = .next (fin (failJob s j.id stInternal 2)))
      ∧ (0x76 ≤ j.opcode → s.start.state = 4 → exec (.unassignedOpcode id) s = .next (fin (failJob s j.id stInternal 1))))
    ∧ (s.liveJob id = some j → j.opcode = 0x01 → j.phase = .held →
      (j.fld 16 1 ≤ 1 → heldBack s j = false → (∀ w, w ∈ j.waits → ∀ k ∈ s.jobs, k.id ≠ w) →
        exec (.fence id) s = .next (fin (fixOutcome s j.id { status := 0, result := j.fenceN })))
      ∧ (1 < j.fld 16 1 → exec (.fence id) s = .next (fin (failJob s j.id stInternal 4))))

/-- Deadlines (R192, R197, R198, R410): a live job whose deadline is earlier than now, and which has not begun to write its output, ends with TIMEOUT and the
subcode of the place it is in, and one that is away is cancelled there; where its seeding deadline passed first it ends with RNG_NOT_READY; one that is in
time stays. -/
def Obligations.LateJobsTimeOutWhereTheyAre : Prop :=
  ∀ (s : State) (id : Nat) (j : Job), s.up = true → s.liveJob id = some j →
    (seedLate s j = true → s.alarms.verifying = false → exec (.seedingDeadline id) s = .next (carryAll (stop s id stRngNotReady 0))
      ∧ exec (.jobDeadline id) s = .next (fin (stop s id stRngNotReady 0)))
    ∧ (seedLate s j = false → j.committed = false → isFence j = false → s.alarms.verifying = false → j.late s = true →
      (∀ sub, timeoutSub s j = some sub → (∀ m tag, j.phase ≠ .away m tag) → exec (.jobDeadline id) s = .next (fin (stop s id stTimeout sub)))
      ∧ (∀ m tag, j.phase = .away m tag → exec (.jobDeadline id) s = .next (fin (sendTo (stop s id stTimeout 2) m (.cancel [tag])))))
    ∧ (seedLate s j = false → j.late s = false → exec (.jobDeadline id) s = .next (fin s))
    ∧ timeoutSub s j = (match j.phase with
      | .held => some 1
      | .queuedBay _ => some 1
      | .queuedEng _ => some 1
      | .inBay _ => some (if readsOut s j then 3 else 2)
      | .inEng w => if (s.engine w).staged = some j.id ∧ readsOut s j = true then some 3 else none
      | .paused _ => some 2
      | .store taken => some (if taken then (if readsOut s j then 3 else 2) else 1)
      | .farm taken => some (if taken then 2 else 1)
      | .away _ _ => some 2
      | _ => none)

-- The dispatcher --------------------------------------------------------------------------------------------------------

/-- At a scheduling epoch (R144, R145, R146, R214, R234, R332, R360, R381, R454, R548) the written shares, stranger budget, admission and placement settings and
the seeding floor come into force, those written before the boundary's own stamp; an enabled seat's random bytes grow by its rate up to 65,536, its stranger credit
grows up to its depth, its admission credit too, or is filled where its rate was 0, and stays where its rate is 0; and every bay has the
round slots the epoch completed as its rate (an operand of the command, log entry 3, the model's choice); the next epoch is 1 us on. -/
def Obligations.EpochsPutWrittenSharesInForce : Prop :=
  (∀ (s : State) (l : List (Nat × Nat)) (w : Latch), s.up = true → s.time.epochDue ≤ s.time.mono →
    s.place.latch = some w ∨ (s.place.latch = none ∧ w = { seats := s.seats.map (fun p => (p.1, p.2.words)), place := s.place.set, floor := s.engines.floor }) →
    exec (.epochBoundary l) s = .next (carryAll (admitWaiters (trimAll ((List.range 64).foldl (bayEpoch l) { s with
      time := { s.time with epochDue := s.time.epochDue + 1000 * 2 ^ 16 }
      seats := tabMap {} s.seats (fun k t => seatBoundary (tabGet {} w.seats k) t)
      place := { s.place with act := w.place, latch := none }
      engines := { s.engines with inForce := w.floor } })))))
  ∧ (∀ s : State, (latchEpoch s).place.latch = (if s.place.latch = none ∧ s.time.epochDue ≤ s.time.mono then some (epochWords s) else s.place.latch)
      ∧ { latchEpoch s with place := s.place } = s ∧ { (latchEpoch s).place with latch := s.place.latch } = s.place)
  ∧ (∀ (w : EpochWords) (t u : Seat), u = seatBoundary w t →
      u.actW = w.shareW ∧ u.actJ = w.shareJ ∧ u.actK = w.shareK ∧ u.strgAct = w.strg ∧ u.admitAct = w.admitW ∧ u.words = t.words
      ∧ u.bucket = (if 2 ≤ t.state ∧ t.state ≤ 4 then min 65536 (t.bucket + w.shareJ / 2 ^ 16) else t.bucket)
      ∧ u.strgCredit = min (w.strg / 2 ^ 16 * 1000) (t.strgCredit + w.strg % 2 ^ 16)
      ∧ (w.admitW % 2 ^ 13 = 0 → u.credit = t.credit)
      ∧ (w.admitW % 2 ^ 13 ≠ 0 → t.admitAct % 2 ^ 13 = 0 → u.credit = (w.admitW / 2 ^ 16 % 2 ^ 16 * 1000 : Nat))
      ∧ (w.admitW % 2 ^ 13 ≠ 0 → t.admitAct % 2 ^ 13 ≠ 0 →
        u.credit = min ((w.admitW / 2 ^ 16 % 2 ^ 16 * 1000 : Nat) : Int) (t.credit + (w.admitW % 2 ^ 13 : Nat)))
      ∧ u.state = t.state ∧ u.transit = t.transit ∧ u.set = t.set ∧ u.act = t.act)
  ∧ (∀ (s : State) (l : List (Nat × Nat)) (b : Nat), (bayEpoch l s b).bay b = { s.bay b with
      rate := some (tabGet 0 (l.map (fun p => (p.1 % 64, p.2))) b)
      latency := if (s.bay b).reads = 0 then (s.bay b).latency else (s.bay b).readNs / (s.bay b).reads, reads := 0, readNs := 0 })

/-- Wing power (R98, R103, R224, R225, R226): an idle ON wing drains when gating is on and more wings than MIN_WINGS are ON, a draining wing is gated with its
cached schedules gone, a wing that is woken counts in CNT_WAKE, one that start step 9 wakes does not (log entry 94, the model's choice), none is woken
within 2 us of another, and 2 us after its wake it is ON. -/
def Obligations.WingPowerFollowsTheWork : Prop :=
  ∀ (s : State) (w : Nat), w < 8 →
    (s.serving = true → (s.wing w).power = 2 → wingBusy s w = false → (s.wing w).idleAt + s.place.act.gate % 256 * 1000 * 2 ^ 16 ≤ s.time.mono →
      s.place.act.ctrl.testBit 1 = true → minWings s < wingsOn s →
      exec (.wingIdle w) s = .next (fin (s.modWing w (fun x => { x with power := 3 }))))
    ∧ (s.up = true → (s.wing w).power = 3 →
      exec (.wingGated w) s = .next (carryAll ((List.range 8).foldl (fun s i => wipeBay s (8 * w + i)) (s.modWing w (fun x => { x with power := 0 })))))
    ∧ (∀ u, s.up = true → s.alarms.verifying = false → u = s.modWing w (fun x => { x with power := 1, wokenAt := s.time.mono }) →
      ((∀ t, s.place.lastWake = some t → t + 2000 * 2 ^ 16 ≤ s.time.mono) →
        (s.serving = true → (List.range 8).find? (wakes s) = some w → exec (.wingWake w) s = .next (carryAll (reseedWing { u with
          place := { u.place with lastWake := some s.time.mono, cntWake := (s.place.cntWake + 1) % 2 ^ 32 } } w)))
        ∧ (s.serving = false → (List.range 8).find? (stepWakes s) = some w →
          exec (.wingWake w) s = .next (carryAll { u with place := { u.place with lastWake := some s.time.mono } })))
      ∧ (∀ t, s.place.lastWake = some t → s.time.mono < t + 2000 * 2 ^ 16 → exec (.wingWake w) s = .next (carryAll s)))
    ∧ (s.up = true → (s.wing w).power = 1 → (s.wing w).wokenAt + 2000 * 2 ^ 16 ≤ s.time.mono →
      exec (.wingWakeDone w) s = .next (carryAll (s.modWing w (fun x => { x with power := 2, idleAt := s.time.mono }))))

/-- The dispatcher (R117, R197, R204, R206, R213, R219, R233): a job of any class that may be passed on, in time, whose checks pass goes where its class takes it,
a digest job or a symmetric job without association to the queue of the bay that the estimate chooses, or waits while an earlier job of its seat that a bay gave
back is still to be placed; a job whose checks fail ends with the status of the
first that fails; a late one ends with TIMEOUT 0x01, and one that safe stage does not serve with INTERNAL 0x01. -/
def Obligations.JobsThatPassTheirChecksAreQueued : Prop :=
  ∀ (s : State) (id : Nat) (j : Job), s.serving = true → s.alarms.verifying = false → ripe s id = some j → j.pkt = none →
    unassigned j.opcode = false → 0x10 ≤ j.opcode → seedLate s j = false →
    (j.late s = false → s.start.state = 3 ∨ safeOpcode j.opcode = true →
      (∀ t, placeCk s j = .ok t → exec (.jobPlacement id) s = .next (carryAll t))
      ∧ (∀ status sub, placeCk s j = .error (.fail status sub 0) → exec (.jobPlacement id) s = .next (carryAll (failJob s j.id status sub))))
    ∧ (j.started = false → (j.isDig = true → placeCk s j = digPlace s j) ∧ (j.isSym = true → placeCk s j = symPlace s j))
    ∧ (∀ t attr, (j.isDig = true ∧ digCheck s j = .ok (t, attr)) ∨ (j.isSym = true ∧ j.opBit 15 = false ∧ symCheck s j = .ok (t, attr)) →
      j.started = false → j.late s = false → s.start.state = 3 → ∀ b, inService t { j with attr := attr } ≠ [] →
      (givenBack t { j with attr := attr } = true → exec (.jobPlacement id) s = .next (carryAll t))
      ∧ (givenBack t { j with attr := attr } = false → chooseBay t { j with attr := attr } = some b →
        exec (.jobPlacement id) s = .next (carryAll (queueBay (noteChoice t { j with attr := attr } b) { j with attr := attr } b attr))))
    ∧ (j.late s = true → j.committed = false → exec (.jobPlacement id) s = .next (carryAll (stop s j.id stTimeout 1)))
    ∧ (s.start.state = 4 → j.late s = false → safeOpcode j.opcode = false → exec (.jobPlacement id) s = .next (carryAll (failJob s id stInternal 1)))

/-- A bay (R197, R220, R251, R267, R270, R271, R273, R306): the head job of the seat that the deficit round robin picks enters the bay, once a job that lacks room
for its region has made a clear record spill, or ends with TIMEOUT when it is late; a segment of a digest stream that is not the last moves its chaining state on, with fresh masks after every
4,096 blocks of a guarded job; a record held clear for more than 10,000 ns is spilled to the lowest free slot, and stays, with FULL and alarm SPILL_FULL,
when no slot is free. -/
def Obligations.BaysIssueSegmentAndSpill : Prop :=
  ∀ (s : State),
    (∀ u b l seat d j, b < 64 → s.serving = true → s.alarms.verifying = false → s.bayOk b = true → (s.wing (b / 8)).power = 2 →
      u = roomSpill (s.modWing (b / 8) (fun x => { x with deficit := dropIdle x.deficit (wingLive s (b / 8)) })) b →
      drrPick (u.wing (b / 8)).deficit (tabGet 0 (u.wing (b / 8)).turn (b % 8))
        ((bayHeads u b).map (fun h => ({ key := h.1.seat, quantum := weight u h.1.seat * 512, cost := jobCost (symOf u h.1) h.1 } : Cand)))
        = some (seat, d) →
      (bayHeads u b).find? (fun h => h.1.seat == seat) = some (j, l) →
      seedLate u j = false →
      ((j.late u = true → j.committed = true) → exec (.bayIssue b) s = .next (fin (advance (enterBay (u.modWing (b / 8)
        (fun x => { x with deficit := d, turn := tabSet 0 x.turn (b % 8) seat })) j b l) j.id)))
      ∧ (j.late u = true → j.committed = false → exec (.bayIssue b) s = .next (fin (stop u j.id stTimeout ((timeoutSub u j).getD 2)))))
    ∧ (∀ id j b w, s.serving = true → s.alarms.verifying = false → s.liveJob id = some j → w = symOf s j → j.phase = .inBay b → j.started = true →
      j.held = .none → j.pkt = none → 0x20 ≤ j.opcode → j.opcode ≤ 0x23 → lastSeg w j = false → (j.late s = true → j.committed = true) →
      (segReads w j).all j.hasRead = true →
      exec (.segmentBoundary id) s = .next (fin (afterSeg ((remask s j b (blocksBy j j.pos) (blocksBy j (segEnd w j))).modJob id (fun k =>
        { dropData w k with ctx := digOpen (digStep w j), pos := segEnd w j, segs := k.segs + 1 })) id)))
    ∧ (∀ id j b k, s.up = true → s.alarms.verifying = false → s.liveJob id = some j → j.phase = .paused b → ∀ at_, j.held = .clear at_ →
      at_ + 10000 * 2 ^ 16 < s.time.mono →
      (freeSlot s = some k → exec (.heldRecordMark id) s = .next (fin (wrapSpill s j b k)))
      ∧ (freeSlot s = none → exec (.heldRecordMark id) s = .next (fin ((alarmC (s.modKeys (fun x => { x with spillFull := true })) 0x47 b j.seat).modJob j.id
          (fun j => { j with held := .stuck })))))

/-- The block's own periodic work (R228, R250, R409, R476): each microsecond the advertisement goes over both hops, each of which takes it while it is keyed, with the
wait of the engine that is free first for the classes of the two engine groups (log entry 46, the model's choice); each millisecond the countermeasure generators of the bays in waking and ON wings, and the key store's, take a fresh seed. -/
def Obligations.PeriodicAdvertsAndReseeds : Prop :=
  ∀ (s : State), s.up = true →
    (∀ u w, s.time.advDue ≤ s.time.mono → u = { s with time := { s.time with advDue := s.time.advDue + 1000 * 2 ^ 16 } } → bestEngine u = some w →
      exec .advertisement s = .next (fin (sendBoth u (.adv [(3, engWait u w), (4, engWait u w)] s.engines.inForce (acceptsRelayed u)))))
    ∧ (∀ u, s.time.advDue ≤ s.time.mono → u = { s with time := { s.time with advDue := s.time.advDue + 1000 * 2 ^ 16 } } → bestEngine u = none →
      exec .advertisement s = .next (fin (sendBoth u (.adv [(3, 0), (4, 0)] s.engines.inForce (acceptsRelayed u)))))
    ∧ (s.relay.east.keyed = false → s.relay.west.keyed = false → ∀ m, isKeying m = false → sendBoth s m = s)
    ∧ (s.time.mono < s.time.advDue → exec .advertisement s = .next (fin s))
    ∧ (∀ u r, s.time.reseedDue ≤ s.time.mono →
      u = (List.range 8).foldl (fun s w => if (s.wing w).power = 1 ∨ (s.wing w).power = 2 then reseedWing s w else s)
        { s with time := { s.time with reseedDue := s.time.reseedDue + 1000000 * 2 ^ 16 } } →
      tryDraw u 0 48 = some r →
      exec .countermeasureReseed s = .next (fin { r.1 with keys := { r.1.keys with maskSeed := r.2 } }))

-- Symmetric work ------------------------------------------------------------------------------------------------------------

/-- The end of a symmetric memory job whose last segment is read (R239, R243, R263, R264, R279, R446): SEAL writes the ciphertext and the tag, MAC_GEN the
tag, ENCRYPT and DECRYPT their output, OPEN writes the plaintext when the tags agree, of an association once its window is marked, up to the top that log entry 105
(the model's choice) gives where a lease is waited for, and MAC_VERIFY
compares; each with OK, the input and output counts and, of a stateless SEAL, RESULT zero. A FIRST or MIDDLE part writes its output and its context record. -/
def Obligations.SymmetricJobsEndWithTheirOutput : Prop :=
  ∀ (s : State) (id : Nat) (j : Job) (w : SymW) (r : Ctx × Nat × Bytes) (tag : Bytes) (o : Outcome),
    s.liveJob id = some j → w = symOf s j → r = symStep w j →
    tag = (if w.mode = 2 ∧ j.opcode = 0x10 then r.1.sivTag else modeTag w.mode j.key r.1).take w.tagLen →
    o = { status := 0, inB := j.streamLen, outB := if j.hasOut then j.payLen else 0, result := baseResult s j, softLimit := j.soft } →
    (j.endsMsg = true →
      (laneReady s j 0x10 = true → exec (.sealJob id) s = .next (carry (fixOutcome (writeBuf (keepSeg s w j r.1 r.2.1 r.2.2) j 96 0 tag) j.id
          { o with outB := j.payLen + w.tagLen })))
      ∧ (laneReady s j 0x11 = true → tag = j.dataOf 96 0 w.tagLen →
        (∀ t, (j.assoc.bind s.assoc? = none ∧ t = s)
            ∨ (∃ a, j.assoc.bind s.assoc? = some a ∧ markReady s a j.ctr = true ∧ t = markAssoc s a.index j.id j.ctr) →
          (j.opBit 14 = false → exec (.openJob id) s = .next (carry (fixOutcome (keepSeg t w j r.1 r.2.1 r.2.2) j.id { o with inB := j.streamLen + w.tagLen })))
          ∧ (j.opBit 14 = true → exec (.openJob id) s = .next (carry (fixOutcome (writeBuf t j 64 0 (j.inner ++ r.2.2)) j.id
              { o with inB := j.streamLen + w.tagLen, opf := 0x40 }))))
        ∧ (∀ a, j.assoc.bind s.assoc? = some a → markReady s a j.ctr = false →
          exec (.openJob id) s = .next (carry (waitWindow s a.index j.id (max j.ctr a.winTop)))))
      ∧ (laneReady s j 0x12 = true → exec (.macGen id) s = .next (carry (fixOutcome (writeBuf s j 96 0 tag) j.id { o with outB := w.tagLen })))
      ∧ (laneReady s j 0x13 = true → tag = j.dataOf 96 0 w.tagLen →
        exec (.macVerify id) s = .next (carry (fixOutcome s j.id { o with inB := j.streamLen + w.tagLen })))
      ∧ (laneReady s j 0x14 = true → exec (.encrypt id) s = .next (carry (fixOutcome (keepSeg s w j r.1 r.2.1 r.2.2) j.id
          { o with result := if w.mode = 6 then fieldBE r.1.chain 8 8 else baseResult s j })))
      ∧ (laneReady s j 0x15 = true → exec (.decrypt id) s = .next (carry (fixOutcome (keepSeg s w j r.1 r.2.1 r.2.2) j.id
          { o with result := if w.mode = 6 then fieldBE r.1.chain 8 8 else baseResult s j }))))
    ∧ (∀ t, j.endsMsg = false → t = .next (carry (fixOutcome (writeRec (keepSeg s w j r.1 r.2.1 r.2.2) w j r.1) j.id
        { o with result := if w.mode = 6 then fieldBE r.1.chain 8 8 else baseResult s j })) →
      (laneReady s j 0x10 = true → exec (.sealJob id) s = t) ∧ (laneReady s j 0x11 = true → exec (.openJob id) s = t)
      ∧ (laneReady s j 0x12 = true → exec (.macGen id) s = t) ∧ (laneReady s j 0x13 = true → exec (.macVerify id) s = t)
      ∧ (laneReady s j 0x14 = true → exec (.encrypt id) s = t) ∧ (laneReady s j 0x15 = true → exec (.decrypt id) s = t))

/-- A tag that does not agree (R263, R264): AUTH_FAIL with OPFLAGS 0x80 and no output byte counted; an OPEN that had written plaintext has its whole
output range zeroed, a green-room OPEN and a MAC_VERIFY write nothing. -/
def Obligations.AWrongTagReleasesNoPlaintext : Prop :=
  ∀ (s : State) (id : Nat) (j : Job) (w : SymW) (r : Ctx × Nat × Bytes) (o : Outcome),
    s.liveJob id = some j → w = symOf s j → r = symStep w j → j.endsMsg = true →
    (modeTag w.mode j.key r.1).take w.tagLen ≠ j.dataOf 96 0 w.tagLen →
    o = { status := stAuthFail, opf := 0x80, inB := j.streamLen + w.tagLen, outB := 0, result := baseResult s j, softLimit := j.soft } →
    (laneReady s j 0x13 = true → exec (.macVerify id) s = .next (carry (fixOutcome s j.id o)))
    ∧ (laneReady s j 0x11 = true → j.opBit 14 = true → exec (.openJob id) s = .next (carry (fixOutcome (keepSeg s w j r.1 r.2.1 r.2.2) j.id o)))
    ∧ (laneReady s j 0x11 = true → j.opBit 14 = false → 0 < j.payLen →
      exec (.openJob id) s = .next (carry (fixOutcome ((keepSeg s w j r.1 r.2.1 r.2.2).modJob j.id (fun k =>
        { k with scrub := true, outs := (cutRuns (j.runs 64) 0 j.payLen).map (fun x => (x.1, zeros x.2)) })) j.id o)))

/-- Jobs on associations (R239, R256, R260, R437, R440, R441): ASSOC_QUERY takes the next nonce at its start, or all ones when the association is sealed
off, and answers it; ASSOC_WRITE and ASSOC_KILL drop the cached copy and write every byte of the entry but its state, which follows when those writes are
acknowledged. -/
def Obligations.AssociationJobsReadAndWriteEntries : Prop :=
  ∀ (s : State) (id : Nat) (j : Job), s.liveJob id = some j →
    (laneReady s j 0x16 = true → exec (.assocQuery id) s = .next (carry (fixOutcome s j.id
        { status := 0, result := j.ctrNext, softLimit := j.soft, opf := if j.ctrNext = 2 ^ 64 - 1 then 0x20 else 0 })))
    ∧ (∀ r, assocCk s j j.assocIdx j.seat none = .ok r →
      (∀ k ∈ s.jobs, k.onAssoc = true → k.assocIdx = j.assocIdx → k.opcode = 0x10 → k.id < j.id → k.nonce = none → k.outcome ≠ none) →
      startQuery s j = .ok (r.1.modJob j.id (fun k => { k with
        started := true, ctrNext := if sealedOff r.2 then 2 ^ 64 - 1 else r.2.ctr, soft := softOf r.1 { j with assoc := some j.assocIdx } })))
    ∧ (∀ b, s.serving = true → s.alarms.verifying = false → j.phase = .inBay b → j.started = true → j.pos = 0 → j.late s = false →
      (j.opcode = 0x70 → exec (.assocWrite id) s = .next (carry (assocJobRun s j)))
      ∧ (j.opcode = 0x71 → exec (.assocKill id) s = .next (carry (assocJobRun s j))))
    ∧ (∀ va, va = s.front.assocBase + 256 * j.assocIdx → assocJobRun s j
        = (writeAt (writeAt (dropAssoc s j.assocIdx) j 0 va ((newEntry s j).take 1) 2) j 0 (va + 2) ((newEntry s j).drop 2) 2).modJob j.id
            (fun k => { k with pos := 1 }))

-- Digests -------------------------------------------------------------------------------------------------------------------

/-- The end of a digest job (R251, R279, R291, R302, R303, R304, R305, R306): of one that closes its message the value, cut to OUT_LEN, is written, or compared with
EXPECT, a guarded job taking fresh masks where its blocks with the padding and the outer hash pass 4,096; RESULT is the message length, or the compare word; an unequal compare ends with UNEQUAL, and a word of which a bit came out wrong (an operand of the
command, log entry 3, the model's choice) with subcode 0x01, a count and alarm COMPARE_PATTERN. A FIRST or MIDDLE part writes its context record. -/
def Obligations.DigestJobsWriteOrCompareTheirValue : Prop :=
  ∀ (s m : State) (id bay : Nat) (j : Job) (w : SymW) (v : Bytes) (o : Outcome) (u : BitVec 4),
    s.liveJob id = some j → w = symOf s j → j.phase = .inBay bay → m = remask s j bay (blocksBy j j.pos) (blocksAll j) → v = (digValue (padSw m j) j (digStep w j).1 (digStep w j).2).take j.outLen →
    o = { status := 0, inB := j.payLen, truncated := truncated j, result := (digStep w j).1.msgBytes
          opf := (if j.slotUsed then 0x80 else 0) + if padSw m j then 0x40 else 0 } →
    (j.endsMsg = true →
      (laneReady s j 0x20 = true → exec (.digest id) s = .next (carry (fixOutcome (writeBuf m j 64 0 v) j.id { o with outB := j.outLen })))
      ∧ (laneReady s j 0x22 = true → exec (.hmacGen id) s = .next (carry (fixOutcome (writeBuf m j 64 0 v) j.id { o with outB := j.outLen })))
      ∧ (∀ e, laneReady s j 0x21 = true → e = { o with inB := j.payLen + j.outLen } →
        (v = j.dataOf 80 0 j.outLen → exec (.digestVerify ⟨id, 0⟩) s = .next (carry (fixOutcome m j.id { e with result := 0x1010 })))
        ∧ (v ≠ j.dataOf 80 0 j.outLen → exec (.digestVerify ⟨id, 0⟩) s = .next (carry (fixOutcome m j.id { e with status := stUnequal, result := 0x2020 })))
        ∧ (∀ n, n = cmpWord u v (j.dataOf 80 0 j.outLen) → n ≠ 0x1010 → n ≠ 0x2020 → exec (.digestVerify ⟨id, u⟩) s = .next (carry (fixOutcome
            (mixedPattern m j) j.id { e with status := stUnequal, sub := 1, result := n }))))
      ∧ (∀ e, laneReady s j 0x23 = true → e = { o with inB := j.payLen + j.outLen } →
        (v = j.dataOf 80 0 j.outLen → exec (.hmacVerify ⟨id, 0⟩) s = .next (carry (fixOutcome m j.id { e with result := 0x1010 })))
        ∧ (v ≠ j.dataOf 80 0 j.outLen → exec (.hmacVerify ⟨id, 0⟩) s = .next (carry (fixOutcome m j.id { e with status := stUnequal, result := 0x2020 })))
        ∧ (∀ n, n = cmpWord u v (j.dataOf 80 0 j.outLen) → n ≠ 0x1010 → n ≠ 0x2020 → exec (.hmacVerify ⟨id, u⟩) s = .next (carry (fixOutcome
            (mixedPattern m j) j.id { e with status := stUnequal, sub := 1, result := n })))))
    ∧ (∀ t, j.endsMsg = false → t = .next (carry (fixOutcome (writeRec m w j (digStep w j).1) j.id o)) →
      (laneReady s j 0x20 = true → exec (.digest id) s = t) ∧ (laneReady s j 0x22 = true → exec (.hmacGen id) s = t)
      ∧ (laneReady s j 0x21 = true → exec (.digestVerify ⟨id, u⟩) s = t) ∧ (laneReady s j 0x23 = true → exec (.hmacVerify ⟨id, u⟩) s = t))

/-- COMPARE, HMAC_LOAD and HMAC_UNLOAD (R298, R300, R304, R305): COMPARE writes the compare word to RESULT, with UNEQUAL where the ranges differ, and as a
verifying digest job where a bit of the word came out wrong (log entry 3); HMAC_LOAD of a key that had a slot at its start says so in RESULT bit 16, and of a key without
one puts its two states into a slot; HMAC_UNLOAD frees the slot, and says in bit 16 that there was none. -/
def Obligations.CompareAndHmacSlots : Prop :=
  ∀ (s : State) (id : Nat) (j : Job) (u : BitVec 4) (o : Outcome), s.liveJob id = some j →
    o = { status := 0, inB := 2 * j.outLen, truncated := truncated j } →
    (laneReady s j 0x24 = true →
      (j.dataOf 48 0 j.outLen = j.dataOf 80 0 j.outLen → exec (.compare ⟨id, 0⟩) s = .next (carry (fixOutcome s j.id { o with result := 0x1010 })))
      ∧ (j.dataOf 48 0 j.outLen ≠ j.dataOf 80 0 j.outLen →
        exec (.compare ⟨id, 0⟩) s = .next (carry (fixOutcome s j.id { o with status := stUnequal, result := 0x2020 })))
      ∧ (∀ n, n = cmpWord u (j.dataOf 48 0 j.outLen) (j.dataOf 80 0 j.outLen) → n ≠ 0x1010 → n ≠ 0x2020 →
        exec (.compare ⟨id, u⟩) s = .next (carry (fixOutcome (mixedPattern s j) j.id { o with status := stUnequal, sub := 1, result := n }))))
    ∧ (laneReady s j 0x25 = true →
      (j.already = true → exec (.hmacLoad id) s = .next (carry (fixOutcome s j.id { status := 0, result := 2 ^ 16 + slotCount s j.seat })))
      ∧ (∀ t, j.already = false →
        t = s.modKeys (fun k => { k with slots := { seat := j.seat, gen := j.gen, handle := j.fld 20 4, attr := j.attr, inner := j.inner, outer := j.outer } :: k.slots }) →
        exec (.hmacLoad id) s = .next (carry (fixOutcome t j.id { status := 0, result := slotCount t j.seat }))))
    ∧ (∀ t, laneReady s j 0x26 = true →
      t = s.modKeys (fun k => { k with slots := k.slots.filter (fun c => !(c.seat == j.seat && c.gen == j.gen && c.handle == j.fld 20 4)) }) →
      exec (.hmacUnload id) s = .next (carry (fixOutcome t j.id { status := 0, result := (if slotOf s j = none then 2 ^ 16 else 0) + slotCount t j.seat })))

-- Engines -------------------------------------------------------------------------------------------------------------------

/-- What the datapaths of an engine compute for the modular opcodes (R323, R324, R334, R335): with operands A, B below a modulus M of 3 or more, odd where
the opcode asks for it, the result is the residue, as N_WORDS big-endian words, in OUT. -/
def Obligations.ModularOpcodesComputeResidues : Prop :=
  ∀ (s : State) (id w : Nat) (j : Job) (a b m n : Nat), s.liveJob id = some j → a = beNat (j.operand 32) → m = beNat (j.operand 64) → n = 8 * j.nWords →
    b = beNat (j.operand 48) →
    (runReady s j 0x30 w = true → 3 ≤ m → a < m → b < m → exec (.modAdd id) s = .next (fin (s.withRun id { outs := [(80, beBytes n ((a + b) % m))] })))
    ∧ (runReady s j 0x31 w = true → 3 ≤ m → a < m → b < m →
      exec (.modSub id) s = .next (fin (s.withRun id { outs := [(80, beBytes n ((a + m - b) % m))] })))
    ∧ (runReady s j 0x32 w = true → 3 ≤ m → m % 2 = 1 → a < m → b < m →
      exec (.modMul id) s = .next (fin (s.withRun id { outs := [(80, beBytes n (a * b % m))] })))
    ∧ (runReady s j 0x33 w = true → 3 ≤ m → m % 2 = 1 → a < m → 0 < a → (egcd a m).1 = 1 →
      exec (.modInv id) s = .next (fin (s.withRun id { outs := [(80, beBytes n (modInv a m))] })))
    ∧ (∀ e, runReady s j 0x34 w = true → 3 ≤ m → m % 2 = 1 → a < m → e = (if j.keyExp then beNat j.key else beNat (j.operand 48)) →
      exec (.modExp id) s = .next (fin (s.withRun id { outs := [(80, beBytes n (modPow a e m))] })))
    ∧ (∀ p q dp dq qi, runReady s j 0x35 w = true → p = crtPart j 0 → q = crtPart j 1 → dp = crtPart j 2 → dq = crtPart j 3 → qi = crtPart j 4 →
      a < p * q → exec (.modExpCrt id) s = .next (fin (s.withRun id { outs := [(80, beBytes n (modExpCrt a p q dp dq qi))] })))

/-- Operands out of range (R323, R334): the run of every modular opcode ends with the status and the subcode of the first row that matches, the modulus, A, B, and what has
no inverse, and no output. -/
def Obligations.OperandsOutOfRangeAreNamed : Prop :=
  ∀ (s : State) (id w : Nat) (j : Job) (a b m : Nat) (ends : Nat → Nat → Host.Outcome State Fault Refusal), s.liveJob id = some j →
    a = beNat (j.operand 32) → m = beNat (j.operand 64) → b = beNat (j.operand 48) →
    (ends = fun status sub => .next (fin (s.withRun id { status := status, sub := sub }))) →
    (runReady s j 0x30 w = true →
      (m < 3 → exec (.modAdd id) s = ends stOperandRange 3)
      ∧ (3 ≤ m → m ≤ a → exec (.modAdd id) s = ends stOperandRange 1)
      ∧ (3 ≤ m → a < m → m ≤ b → exec (.modAdd id) s = ends stOperandRange 2))
    ∧ (runReady s j 0x31 w = true →
      (m < 3 → exec (.modSub id) s = ends stOperandRange 3)
      ∧ (3 ≤ m → m ≤ a → exec (.modSub id) s = ends stOperandRange 1)
      ∧ (3 ≤ m → a < m → m ≤ b → exec (.modSub id) s = ends stOperandRange 2))
    ∧ (runReady s j 0x32 w = true →
      (m < 3 ∨ m % 2 = 0 → exec (.modMul id) s = ends stOperandRange 3)
      ∧ (3 ≤ m → m % 2 = 1 → m ≤ a → exec (.modMul id) s = ends stOperandRange 1)
      ∧ (3 ≤ m → m % 2 = 1 → a < m → m ≤ b → exec (.modMul id) s = ends stOperandRange 2))
    ∧ (runReady s j 0x33 w = true →
      (m < 3 ∨ m % 2 = 0 → exec (.modInv id) s = ends stOperandRange 3)
      ∧ (3 ≤ m → m % 2 = 1 → m ≤ a → exec (.modInv id) s = ends stOperandRange 1)
      ∧ (3 ≤ m → m % 2 = 1 → a = 0 → exec (.modInv id) s = ends stNotInvertible 1)
      ∧ (3 ≤ m → m % 2 = 1 → 0 < a → a < m → (egcd a m).1 ≠ 1 → exec (.modInv id) s = ends stNotInvertible 2))
    ∧ (runReady s j 0x34 w = true →
      (m < 3 ∨ m % 2 = 0 → exec (.modExp id) s = ends stOperandRange 3)
      ∧ (3 ≤ m → m % 2 = 1 → m ≤ a → exec (.modExp id) s = ends stOperandRange 1))
    ∧ (runReady s j 0x35 w = true → crtPart j 0 * crtPart j 1 ≤ a → exec (.modExpCrt id) s = ends stOperandRange 1)

/-- The arithmetic of the modular opcodes (R335): the power computed by square and multiply is the power, and the result of the extended Euclid of an
invertible A is its inverse. -/
def Obligations.PowersAndInversesAreRight : Prop :=
  (∀ b e m : Nat, modPow b e m = b ^ e % m)
  ∧ (∀ a m : Nat, 1 < m → Nat.gcd a m = 1 → modInv a m < m ∧ a * modInv a m % m = 1)

/-- The curve opcodes (R345, R346, R357, R358): a generated key pair goes to OUT1 and OUTREF, a signature to OUT1, a shared secret to OUT1 or, with
TO_KEY, to OUTREF; the all-zero X25519 secret is POINT_INVALID 0x03, and a signature that does not verify AUTH_FAIL. -/
def Obligations.CurveOpcodesSignAndAgree : Prop :=
  ∀ (s : State) (id w : Nat) (j : Job), s.liveJob id = some j →
    (runReady s j 0x40 w = true →
      (∀ c, c = curveOf j.param → j.param = 1 ∨ j.param = 2 → exec (.ecKeygen id) s = .next (fin (s.withRun id
        { outs := [(80, c.pub (c.scalar j.drawn))], entry := beBytes c.len (c.scalar j.drawn) })))
      ∧ (j.param = 3 → exec (.ecKeygen id) s = .next (fin (s.withRun id { outs := [(80, x25519 j.drawn x25519Base)], entry := j.drawn })))
      ∧ (j.param = 4 → exec (.ecKeygen id) s = .next (fin (s.withRun id { outs := [(80, edPublic j.drawn)], entry := j.drawn }))))
    ∧ (∀ c g, runReady s j 0x41 w = true → c = curveOf j.param → g = c.sign (beNat j.key) (c.scalar j.drawn) (j.operand 32) → g.1 ≠ 0 → g.2 ≠ 0 →
      exec (.ecdsaSign id) s = .next (fin (s.withRun id { outs := [(80, beBytes c.len g.1 ++ beBytes c.len g.2)] })))
    ∧ (∀ c q r t, runReady s j 0x42 w = true → c = curveOf j.param → c.decode (j.operand 48) = .ok q → r = beNat ((j.operand 64).take c.len) →
      t = beNat ((j.operand 64).drop c.len) →
      (0 < r → r < c.n → 0 < t → t < c.n → c.verify q (j.operand 32) r t = true → exec (.ecdsaVerify id) s = .next (fin (s.withRun id {})))
      ∧ (0 < r → r < c.n → 0 < t → t < c.n → c.verify q (j.operand 32) r t = false →
        exec (.ecdsaVerify id) s = .next (fin (s.withRun id { status := stAuthFail, sub := 0x10 })))
      ∧ (r = 0 ∨ c.n ≤ r ∨ t = 0 ∨ c.n ≤ t → exec (.ecdsaVerify id) s = .next (fin (s.withRun id { status := stAuthFail, sub := 0x11 }))))
    ∧ (∀ z, runReady s j 0x43 w = true → j.param = 3 → z = x25519 j.key (j.operand 32) →
      (z = zeros 32 → exec (.ecdh id) s = .next (fin (s.withRun id { status := stPointInvalid, sub := 3 })))
      ∧ (z ≠ zeros 32 → j.toKey = false → exec (.ecdh id) s = .next (fin (s.withRun id { outs := [(80, z)] })))
      ∧ (z ≠ zeros 32 → j.toKey = true → exec (.ecdh id) s = .next (fin (s.withRun id { entry := z }))))
    ∧ (∀ c q z, runReady s j 0x43 w = true → j.param = 1 ∨ j.param = 2 → c = curveOf j.param → c.decode (j.operand 32) = .ok q →
      z = (c.enc (jMul c.p (beNat j.key) q)).take c.len →
      (j.toKey = false → exec (.ecdh id) s = .next (fin (s.withRun id { outs := [(80, z)] })))
      ∧ (j.toKey = true → exec (.ecdh id) s = .next (fin (s.withRun id { entry := z }))))
    ∧ (runReady s j 0x44 w = true → exec (.ed25519Sign id) s = .next (fin (s.withRun id { outs := [(80, edSign (j.opBit 14) j.key (j.operand 32))] })))
    ∧ (∀ v, runReady s j 0x45 w = true → v = edVerify (j.opBit 14) (j.operand 48) (j.operand 32) (j.operand 64) →
      exec (.ed25519Verify id) s = .next (fin (s.withRun id { status := v.1, sub := v.2 })))

/-- The lattice opcodes (R345, R346, R355, R357, R358): ML-KEM and ML-DSA key pairs, ciphertexts, secrets and signatures at their outputs, the accepted
iteration i of a signature in block i ÷ 8 + 1, INTERNAL 0x05 where none of 16 blocks accepts, and a polynomial coefficient not below the modulus OPERAND_RANGE 0x01. -/
def Obligations.LatticeOpcodesFollowTheirStandards : Prop :=
  ∀ (s : State) (id w : Nat) (j : Job), s.liveJob id = some j →
    (∀ r, runReady s j 0x46 w = true → r = kemKeygen j.param (sliceZ j.drawn 0 32) (sliceZ j.drawn 32 32) →
      exec (.mlkemKeygen id) s = .next (fin (s.withRun id { outs := [(80, r.1)], entry := r.2 })))
    ∧ (∀ r, runReady s j 0x47 w = true → kemEkOk j.param (j.operand 32) = true → r = kemEncaps j.param (j.operand 32) (sliceZ j.drawn 0 32) →
      (j.toKey = false → exec (.mlkemEncaps id) s = .next (fin (s.withRun id { outs := [(80, r.2), (96, r.1)] })))
      ∧ (j.toKey = true → exec (.mlkemEncaps id) s = .next (fin (s.withRun id { outs := [(80, r.2)], entry := r.1 }))))
    ∧ (∀ z, runReady s j 0x48 w = true → z = kemDecaps j.param j.key (j.operand 32) →
      (j.toKey = false → exec (.mlkemDecaps id) s = .next (fin (s.withRun id { outs := [(80, z)] })))
      ∧ (j.toKey = true → exec (.mlkemDecaps id) s = .next (fin (s.withRun id { entry := z }))))
    ∧ (∀ r, runReady s j 0x49 w = true → r = dsaKeygen j.param (sliceZ j.drawn 0 32) →
      exec (.mldsaKeygen id) s = .next (fin (s.withRun id { outs := [(80, r.1)], entry := r.2 })))
    ∧ (runReady s j 0x4A w = true →
      exec (.mldsaSign id) s = .next (fin (s.withRun id (match dsaSign j.param j.key (j.operand 32) (sliceZ j.drawn 0 32) with
        | some (i, sig) => { outs := [(80, sig)], block := i / 8 + 1 }
        | none => { status := stInternal, sub := 5, block := 17 }))))
    ∧ (∀ v, runReady s j 0x4B w = true → v = dsaVerify j.param (j.operand 48) (j.operand 32) (j.operand 64) →
      exec (.mldsaVerify id) s = .next (fin (s.withRun id { status := v.1, sub := v.2 })))
    ∧ (∀ n q a b, runReady s j 0x4C w = true → (j.param = 0x31 ∧ n = 2 ∧ q = qKem) ∨ (j.param = 0x32 ∧ n = 4 ∧ q = qDsa) → a = coeffs n (j.operand 32) →
      b = (if 2 ≤ j.curveSub then coeffs n (j.operand 48) else []) →
      ((∀ x ∈ a ++ b, x < q) →
        exec (.poly id) s = .next (fin (s.withRun id { outs := [(80, ((polyOp j.param j.curveSub a b).map (leBytes n)).flatten)] })))
      ∧ ((∃ x ∈ a ++ b, q ≤ x) → exec (.poly id) s = .next (fin (s.withRun id { status := stOperandRange, sub := 1 }))))

/-- The phases of an engine (R318, R320, R321, R332, R333, R334, R336, R338, R339, R356, R361): a run starts when the load is full and the datapaths and the
wipe are done, with its release time fixed under the floor in force; the datapaths end; the release tick ends the job with the outcome of its run, with
TIMEOUT past its deadline, with FAULT_DETECTED where the datapaths differ, or with LATE and class A alarm ENGINE_LATE when they had not ended and the tick is past; an
ML-DSA block that accepts nothing is followed by the next, and the accepting block ends the job; the wipe of operand memory frees the engine, that of the input stage
frees the stage, which comes first where both are under way being the model's choice (log entry 128), and a word that reads non-zero is class A alarm WIPE_FAIL with the
seat of the job wiped, whose outcome stays. -/
def Obligations.EnginesRunInPhases : Prop :=
  ∀ (s : State) (w : Nat) (e : Engine), w < 8 → e = s.engine w →
    (s.alarms.verifying = false →
      (∀ j, s.serving = true → e.staged.bind s.liveJob = some j → e.loadFull = true → e.running = none → e.wiping = none →
        exec (.runStart w) s = .next (carryAll ((s.modEngine w (fun e => { e with
            staged := none, loadFull := false, running := some j.id, rs := s.time.mono, rt := jobRt j s.engines.inForce 1, floorRun := s.engines.inForce
            ends := [], agrees := [], block := 1 })).modJob j.id (fun k => { k with
            rtNs := jobRt j s.engines.inForce 1, floor := s.engines.inForce, blocks := if j.opcode = 0x4A then 1 else 0 }))))
      ∧ (∀ j agree, runJob s w = some j → j.ran.isSome = true → j.opcode ≠ 0x4A ∧ e.ends = [] ∨ j.opcode = 0x4A ∧ e.ends.length < 16 →
        exec (.datapathDone w agree) s = .next (fin (s.modEngine w (fun e => { e with ends := e.ends ++ [s.time.mono], agrees := e.agrees ++ [agree] }))))
      ∧ (∀ j r tick, runJob s w = some j → j.opcode ≠ 0x4A → tick = e.rs + e.rt * 2 ^ 16 → tick ≤ s.time.mono → j.ran = some r →
        (∀ t u, e.ends = [t] → t ≤ tick → u = s.modEngine w (fun x => { x with slackMin := min x.slackMin ((tick - t) / 2 ^ 16) }) →
          (e.agrees = [true] → (∀ d, j.deadline = some d → tick ≤ d) → exec (.releaseTick w) s = .next (carryAll (release u w j r.1 r.2)))
          ∧ (e.agrees = [true] → (∀ d, j.deadline = some d → d < tick → exec (.releaseTick w) s = .next (carryAll (release u w j stTimeout 2))))
          ∧ (e.agrees = [false] → (∀ d, j.deadline = some d → tick ≤ d) →
            exec (.releaseTick w) s = .next (carryAll (countFault (release u w j stFaultDetected 0) w j))))
        ∧ (e.ends = [] → tick < s.time.mono → (∀ d, j.deadline = some d → tick ≤ d) →
          exec (.releaseTick w) s = .next (carryAll (raisesA ((release s w j stLate 0).modEngine w (fun x => { x with cntLate := satInc 32 x.cntLate })) j 0x0A w))))
      ∧ (∀ j k t tick, runJob s w = some j → j.opcode = 0x4A → tick = e.rs + jobRt j e.floorRun e.block * 2 ^ 16 → (∀ d, j.deadline = some d → tick ≤ d) →
        tick ≤ s.time.mono → e.block < 16 → e.ends[e.block - 1]? = some t → t ≤ tick → j.ran = some (0, 0) →
        k = { j with rtNs := jobRt j e.floorRun e.block, blocks := e.block } →
        (e.block < j.accepted → exec (.mldsaBlockTick w) s
          = .next (carryAll ((s.modJob j.id (fun k => { k with rtNs := jobRt j e.floorRun e.block, blocks := e.block })).modEngine w
              (fun x => { x with block := e.block + 1, rt := jobRt k x.floorRun (e.block + 1) }))))
        ∧ (j.accepted ≤ e.block → (e.agrees.take e.block).contains false = false → exec (.mldsaBlockTick w) s
          = .next (carryAll (release ((chargeBlocks (s.modJob j.id (fun k => { k with rtNs := jobRt j e.floorRun e.block, blocks := e.block })) k
              e.floorRun e.block).modEngine w (fun x => { x with slackMin := min x.slackMin ((tick - t) / 2 ^ 16) })) w k 0 0)))))
    ∧ (∀ id u, e.wiping = some id → u = s.modEngine w (fun e => { e with wiping := none }) →
      exec (.wipeDone w true) s = .next (carryAll u) ∧ exec (.wipeDone w false) s = .next (carryAll (alarmA (keepOutcome u id) 0x0B w e.wipeSeat)))
    ∧ (∀ id u, e.wiping = none → e.stageWipe = some id → u = s.modEngine w (fun e => { e with stageWipe := none }) →
      exec (.wipeDone w true) s = .next (carryAll u) ∧ exec (.wipeDone w false) s = .next (carryAll (alarmA (keepOutcome u id) 0x0B w e.stageSeat)))
    ∧ (e.wiping = none → e.stageWipe = none → ∀ clean, exec (.wipeDone w clean) s = .next (carryAll s))

/-- An engine with an empty input stage, whose wipe is verified, takes the head job of the seat that the deficit round robin picks from its queue (R221, R231, R318). -/
def Obligations.EnginesLoadTheSchedulersChoice : Prop :=
  ∀ (s u : State) (w k : Nat) (d : List (Nat × Nat)) (j : Job), w < 8 → s.serving = true → s.alarms.verifying = false → s.wingOk w = true →
    (s.wing w).power = 2 → (s.engine w).staged = none → (s.engine w).stageWipe = none →
    u = s.modWing w (fun x => { x with deficit := dropIdle x.deficit (fun k => decide (k < 2048) || (engQueue s w).any (fun j => engKeyOf j == k)) }) →
    drrPick (u.wing w).deficit (tabGet 0 (u.wing w).turn 8) (engCands u w) = some (k, d) → (engQueue u w).find? (fun j => engKeyOf j == k) = some j →
    exec (.engineLoad w) s = .next (fin (engAdvance (((u.modWing w (fun x => { x with deficit := d, turn := tabSet 0 x.turn 8 k })).modJob j.id (fun x =>
      { x with phase := .inEng w, blinded := draws j, got := if j.relayedIn then x.got else x.got.filter keptRead })).modEngine w
        (fun e => { e with staged := some j.id, loadFull := false })) w))

/-- The engine registers (R332, R343, R344, R360, R365): a seeding floor of 0 to 2 is set and 3 refused, a query is kept, and the read-clear registers
give their value and clear. -/
def Obligations.EngineRegistersSetQueryAndClear : Prop :=
  ∀ (s : State) (v : W32),
    (s.served 0x68000 = true →
      (v.toNat % 4 ≠ 3 → exec (.floorWrite v) s = .next { latchEpoch s with engines := { s.engines with floor := v.toNat % 4 } })
      ∧ (v.toNat % 4 = 3 → exec (.floorWrite v) s = .next (alarmC s 0x46 0x68000 v.toNat)))
    ∧ (s.served 0x6800C = true →
      exec (.rtQuery v) s = .next { s with engines := { s.engines with rtQuery := v.toNat / 2 ^ 30 * 2 ^ 30 + v.toNat % 2 ^ 24 } })
    ∧ (∀ w, w < 8 → s.served (0x60010 + w * 0x1000) = true →
      exec (.slackRead w) s = .next ({ s with seatRegs := { s.seatRegs with readData := w32 (s.engine w).slackMin } }.modEngine w
        (fun e => { e with slackMin := 0xFFFFFFFF })))
    ∧ (s.served 0x68008 = true →
      exec .faultLogRead s = .next { s with seatRegs := { s.seatRegs with readData := w32 s.engines.faultLog }, engines := { s.engines with faultLog := 0 } })
    ∧ (∀ seat, seat < 1024 → s.served (0x69004 + seat * 8) = true →
      exec (.admitStsRead seat) s = .next ({ s with seatRegs := { s.seatRegs with
        readData := w32 ((s.seat seat).credit.toNat / 1000 * 2 ^ 16 + (s.seat seat).shed) } }.modSeat seat (fun t => { t with shed := 0 })))

-- Keys ----------------------------------------------------------------------------------------------------------------------

/-- Keys that are written (R378, R379, R385, R386, R387, R388, R391, R410): at its start KEY_GENERATE draws its material from the seat's instance and charges
it to the seat's random bytes; once started and read, KEY_IMPORT unwraps IN1 under the wrapping key and writes the material that R386 accepts, KEY_DERIVE
derives it by HKDF, KEY_GENERATE writes what it drew; the entry at SUBJECT is sealed with its lifetime and use limit, and RESULT is the material's
length. Material that does not unwrap is AUTH_FAIL 0x20, and material that R386 refuses KEY_HANDLE_INVALID 0x20. KEY_EXPORT writes the wrapped material of
SUBJECT to OUT. -/
def Obligations.KeyJobsImportExportGenerateAndDerive : Prop :=
  ∀ (s : State) (id : Nat) (j : Job) (put : Bytes → State), s.liveJob id = some j →
    put = (fun m => keyOk (writeEntry s j j.seat j.subject j.newAttr (expiresAt s j.newAttr) j.useLimit 0 (freshBlob s j) m) j m.length 0) →
    (j.started = true →
      (∀ b, storeReady s j 0x60 = true → wholeBuf j 48 = .ok b →
        (∀ p m, kwpUnwrap j.key b = some p → material (attrAlg j.newAttr) p = some m → exec (.keyImport id) s = .next (carryAll (put m)))
        ∧ (∀ p, kwpUnwrap j.key b = some p → material (attrAlg j.newAttr) p = none → exec (.keyImport id) s = .next (carryAll (matFail s j stKeyHandle)))
        ∧ (kwpUnwrap j.key b = none → exec (.keyImport id) s = .next (carryAll (matFail s j stAuthFail))))
      ∧ (∀ o, storeReady s j 0x61 = true → o = kwpWrap j.key j.entry →
        exec (.keyExport id) s = .next (carryAll (keyOk (writeBuf s j 80 0 o) j j.entry.length o.length)))
      ∧ (storeReady s j 0x62 = true → exec (.keyGenerate id) s = .next (carryAll (put j.drawn)))
      ∧ (∀ b i, storeReady s j 0x63 = true → wholeBuf j 48 = .ok b → wholeBuf j 64 = .ok i →
        exec (.keyDerive id) s = .next (carryAll (put (hkdf j.kHash j.key b i (madeLen (attrAlg j.newAttr)))))))
    ∧ (∀ n r, j.opcode = 0x62 → n = madeLen (attrAlg j.newAttr) → (s.seat j.seat).actJ / 2 ^ 16 ≠ 0 → noDraws s = .ok () → n ≤ (s.seat j.seat).bucket →
      tryDraw s j.seat n = some r → genStart s j = .ok (((endWait r.1 j.id).modSeat j.seat (fun t => { t with bucket := t.bucket - n })).modJob j.id
        (fun k => { k with drawn := r.2, drawDone := true })))
    ∧ (∀ t k, j.started = false → startKey s j = .ok t → t.liveJob id = some k → k.started = true →
      (storeReady s j 0x60 = true → exec (.keyImport id) s = .next (carryAll (runCk t k (runImport t k))))
      ∧ (storeReady s j 0x61 = true → exec (.keyExport id) s = .next (carryAll (runCk t k (runExport t k))))
      ∧ (storeReady s j 0x62 = true → exec (.keyGenerate id) s = .next (carryAll (runCk t k (runGenerate t k))))
      ∧ (storeReady s j 0x63 = true → exec (.keyDerive id) s = .next (carryAll (runCk t k (runDerive t k)))))

/-- Keys that are read, deleted and moved, once their job has started (R369, R374, R379, R385, R389, R390): KEY_DELETE writes zeros over the entry and drops
every copy the block holds, KEY_INFO gives KEYATTR and the seconds left, KEY_RESTRICT rewrites the entry with the earlier expiry and keeps the lease in
force, KEY_ESCROW_OUT wraps the key under BWK, KEY_ESCROW_IN writes the key that unwraps, with its numbers little-endian (log entry 49, the model's choice), and
what does not unwrap is AUTH_FAIL 0x20; KEY_BWK_CTRL ERASE erases BWK and ends the escrow jobs at work with KEY_HANDLE_INVALID 0x40. -/
def Obligations.KeyJobsDeleteInformRestrictAndEscrow : Prop :=
  (∀ (s : State) (id : Nat) (j : Job) (a : Attr) (bwk : Bytes), s.liveJob id = some j → j.started = true →
    (subjectRec s j = .ok a →
      (storeReady s j 0x64 = true → j.zeroed = false → exec (.keyDelete id) s = .next (carryAll (dropSubject (eraseEntry s j a) j)))
      ∧ (storeReady s j 0x65 = true → exec (.keyInfo id) s = .next (carryAll (fixOutcome s j.id
          { status := 0, inB := j.avail 48 + j.avail 64
            result := a.attr * 2 ^ 32 + (if a.expires = 0 then 0xFFFFFFFF else min 0xFFFFFFFE (a.expires - s.time.secure / 1000000000)) })))
      ∧ (∀ x l, storeReady s j 0x66 = true → x = soonest a.expires (expiresAt s j.newAttr) → l = (if j.useLimit = 0 then a.limit else j.useLimit) →
        exec (.keyRestrict id) s = .next (carryAll (keyOk (putAttr (writeEntry s j j.seat j.subject j.newAttr x l
          ((a.leasing <|> a.stored).getD a.count) a.blob j.entry) { a with attr := j.newAttr, expires := x, limit := l }) j j.entry.length 0)))
      ∧ (∀ o, storeReady s j 0x67 = true → bwkOf s = some bwk → o = kwpWrap bwk (escrowText s a j.entry) →
        exec (.keyEscrowOut id) s = .next (carryAll (keyOk (writeBuf s j 80 0 o) j j.entry.length o.length))))
    ∧ (storeReady s j 0x64 = true → j.zeroed = true → exec (.keyDelete id) s = .next (carryAll (dropSubject s j)))
    ∧ (∀ b, storeReady s j 0x68 = true → wholeBuf j 48 = .ok b → bwkOf s = some bwk →
      (∀ t m, kwpUnwrap bwk b = some t → t.length = 32 + fieldLE t 28 4 → attrOk (fieldLE t 0 4) = true →
        material (attrAlg (fieldLE t 0 4)) (t.drop 32) = some m →
        exec (.keyEscrowIn id) s = .next (carryAll (keyOk (writeEntry s j j.seat j.subject (fieldLE t 0 4)
          (if fieldLE t 4 8 = 0 then 0 else s.time.secure / 1000000000 + fieldLE t 4 8) (fieldLE t 12 8) (fieldLE t 20 8) (freshBlob s j) m) j m.length 0)))
      ∧ (kwpUnwrap bwk b = none → exec (.keyEscrowIn id) s = .next (carryAll (matFail s j stAuthFail)))))
  ∧ (∀ s : State, s.served 0x50020 = true → ∃ t, exec .eraseBwk s = .next (fin t) ∧ t.keys.bwk = none
      ∧ ((∀ j ∈ s.jobs, escrowJob j = false) → t = { s with keys := { s.keys with bwk := none } })
      ∧ (s.alarms.verifying = false → (s.jobs.map (·.id)).Nodup → ∀ j ∈ s.jobs, escrowJob j = true →
        ∃ k ∈ t.jobs, k.id = j.id ∧ ∃ o, k.outcome = some o ∧ o.status = stKeyHandle ∧ o.sub = 0x40))

-- Random values -------------------------------------------------------------------------------------------------------------

/-- A block of a source (R399, R400, R402, R405): in the start-up test the first good block is counted and the second puts the source in use; in use a
good block enters the conditioner; a block that fails the repetition or the proportion test counts as a failure. Twenty microseconds after a restart
the start-up test begins anew. -/
def Obligations.SourceBlocksAreTested : Prop :=
  ∀ (s u : State) (i : Nat) (v : BitVec 512) (x : Source) (l : List Bool) (r : Bool × Nat × Bool), i < 16 → s.up = true → s.entropy.on = true →
    x = s.source i → l = sampleBits v → r = rctRun x l → x.raw = none → u = s.modSource i (fun x => { x with lastBit := r.1, run := r.2.1, blockAt := s.time.mono }) →
    (s.entropy.rehearsal = false → r.2.2 = false → aptFails l = false →
      (x.st = 0 → exec (.sourceBlock i v) s = .next (carryAll (u.modSource i (fun x => if x.testOk = 0 then { x with testOk := 1 } else
        { x with testOk := 0, st := 1, consec := 0 }))))
      ∧ (x.st = 1 → exec (.sourceBlock i v) s = .next (carryAll (condition (u.modSource i (fun x => { x with consec := 0 })) i l))))
    ∧ (s.entropy.rehearsal = false → r.2.2 = true ∨ aptFails l = true → x.st ≤ 1 → exec (.sourceBlock i v) s = .next (carryAll (sourceFails u i)))
    ∧ (x.st = 2 → s.time.mono < x.readyAt → exec (.sourceRestartDone i) s = .next (fin s))
    ∧ (x.st = 2 → x.readyAt ≤ s.time.mono → exec (.sourceRestartDone i) s = .next (fin (s.modSource i (fun x =>
        { x with st := 0, testOk := 0, lastBit := false, run := 0, reg := 0, passed := 0, rawSkip := false, blockAt := s.time.mono }))))

/-- Words and instances (R405, R407, R408, R409, R410): the oldest word of the pool goes to the request that is first in order, and what waited for an
instance that is READY with it goes on, work of the relay ring and of the card port included; an instance READY for 0.9 s of secure time asks for two reseed words, and after 1 s it is HELD, with its words requested. -/
def Obligations.WordsSeedInstances : Prop :=
  ∀ (s : State) (i : Nat), s.up = true →
    (∀ w rest t, nextWanted s = some i → s.entropy.pool = w :: rest →
      t = { s with entropy := { s.entropy with pool := rest } }.modInst i (fun d => { d with words := d.words ++ [w], want := d.want - 1 }) →
      ((t.inst i).want ≠ 0 → exec .wordDelivery s = .next (carryAll (cardGo (tryWants t))))
      ∧ ((t.inst i).want = 0 → (s.inst i).want = 1 →
        exec .wordDelivery s = .next (carryAll (cardGo (tryWants (
          if (s.inst i).byJob then reseedDone (endWaits (seedDone t i) i) i else endWaits (seedDone t i) i))))))
    ∧ (i < 1032 → (s.inst i).st = 2 → 900000000 ≤ s.time.secure - (s.inst i).seededAt → exec (.reseedDue i) s = .next (fin (reseedRequest s i false [])))
    ∧ (i < 1032 → (s.inst i).st = 2 → 1000000000 ≤ s.time.secure - (s.inst i).seededAt →
      exec (.instHeld i) s = .next (fin ((reseedRequest s i false []).modInst i (fun d => { d with st := 3 }))))

/-- The random opcodes at the farm (R417, R418, R421): RNG_GET generates and writes its next part when its seat has its turn, RNG_RESEED requests reseed
words with its additional input, RNG_RAW takes the source it names, from the first sample of a block on (log entry 122, the model's choice). -/
def Obligations.RandomJobsDrawReseedAndRecord : Prop :=
  ∀ (s u : State) (id : Nat) (j k : Job), s.liveJob id = some j → u = s.modJob id (fun k => { k with started := true }) → k = { j with started := true } →
    (∀ t, farmReady s j 0x50 = true → drawOk u j.seat = true → (j.opBit 15 = true → j.reseeded = true) → partReady u k = true → farmTake u k = some t →
      exec (.rngGet id) s = .next (carryAll (genPart t k)))
    ∧ (farmReady s j 0x51 = true → drawOk u j.seat = true → (u.inst j.seat).want = 0 → canSeed u = true →
      exec (.rngReseed id) s = .next (carryAll ((reseedRequest u j.seat true (j.dataOf 32 0 (j.avail 32))).modJob j.id
        (fun k => { k with reseedWait := true, phase := .farm true }))))
    ∧ (∀ i, farmReady s j 0x52 = true → i = j.fld 16 1 % 16 → s.entropy.rehearsal = true → (s.source i).raw = none →
      exec (.rngRaw id) s = .next (carryAll ((s.modSource i (fun x => { x with
        raw := some j.id, rawSkip := (x.st == 0 || x.st == 1) && x.blockAt != s.time.mono })).modJob j.id (fun k => { k with phase := .farm true }))))

/-- RNG_CMD (R402, R412, R419, R422, R424, R514): each command leaves its RESULT and raises vector 4; ENTER_REHEARSAL takes its authorization, zeroizes the
instances and fails the jobs that draw; REVIVE restarts the retired sources of its mask; CLEAR_COUNTS clears the failure counts. -/
def Obligations.EntropyCommandsLeaveTheirResult : Prop :=
  ∀ (s : State), s.served 0x40004 = true →
    (s.entropy.rehearsal = true → exec .enterRehearsal s = .next (carryAll (vector { s with entropy := { s.entropy with cmdResult := 3 } } 4)))
    ∧ (s.entropy.rehearsal = false → authInForce s 1 = false →
      exec .enterRehearsal s = .next (carryAll (vector { s with entropy := { s.entropy with cmdResult := 1 } } 4)))
    ∧ (∀ u, s.entropy.rehearsal = false → authInForce s 1 = true →
      u = failDrawers { s with entropy := { s.entropy with inst := [], pool := [] } } (if s.alarms.bActive then stEntropyFailed else stRngRehearsal) →
      exec .enterRehearsal s = .next (carryAll (vector { u with
        entropy := { u.entropy with rehearsal := true, cmdResult := 0 }, cust := { u.cust with auth := u.cust.auth.filter (fun p => !(p.1 == 1)) } } 4)))
    ∧ (∀ u, s.entropy.rehearsal = true → u = endRehearsal s →
      exec .exitRehearsal s = .next (carryAll (vector { u with entropy := { u.entropy with cmdResult := 0 } } 4)))
    ∧ (s.entropy.rehearsal = false → exec .exitRehearsal s = .next (carryAll (vector { s with entropy := { s.entropy with cmdResult := 3 } } 4)))
    ∧ (∀ mask l u, l = (List.range 16).filter (fun i => mask.testBit i && (s.source i).st == 3) → l ≠ [] →
      u = l.foldl (fun s i => restartSource (s.modSource i (fun x => { x with consec := 0, recent := [] })) i) s →
      exec (.revive mask) s = .next (fin (vector { u with entropy := { u.entropy with cmdResult := 0 } } 4)))
    ∧ (∀ u, u = (List.range 16).foldl (fun s i => s.modSource i (fun x => { x with failCnt := 0 })) s →
      exec .clearCounts s = .next (fin (vector { u with entropy := { u.entropy with cmdResult := 0 } } 4)))

-- The packet front ----------------------------------------------------------------------------------------------------------

/-- Packets in and out (R75, R76, R77, R425, R428, R430, R435, R436): a packet with an error mark, or of more than 16,384 bytes, is discarded and counted;
any other becomes the next job in order, parsed on the bank of its epoch, the current one with EPOCH_RENEWED where the epoch it names is gone, and what its
parse leads to follows; the pipeline takes the oldest packet of its port, once the earlier packets of its association have left; DRAINING clears once nothing of the previous epoch is left and the grace time has passed. -/
def Obligations.PacketsEnterInOrderAndLeave : Prop :=
  ∀ (s : State) (port : Nat) (m : BitVec 128) (b : Bytes),
    (∀ err, pktReady s port = true → err = true ∨ 16384 < b.length →
      exec (.packetIn port m b err) s = .next (carry { s with front := { s.front with cntDiscard := (s.front.cntDiscard + 1) % 2 ^ 32 } }))
    ∧ (∀ e w p j u, pktReady s port = true → b.length ≤ 16384 → e = epochOf s m → w = parse s e.2.1 b →
      p = { metaIn := m, bytes := b, out := b, term := w.kind % 16, off := w.off, fin := w.fin, epoch := e.1, ipv6 := w.v6, sender := w.sender
            port := if w.kind = 9 ∧ 8 ≤ w.off then fieldBE b (w.off - 8) 2 else 0
            assoc := if m.getLsbD 24 then m.toNat % 2 ^ 24 else 0, named := m.getLsbD 24, flags := if e.2.2 then 2 ^ 19 else 0 } →
      j = { id := s.nextJob, src := .packet port, opcode := if m.getLsbD 24 then 0x10 else 0x11, acceptAt := s.stamp, pkt := some p } →
      u = { s with jobs := s.jobs ++ [j], nextJob := s.nextJob + 1
                   front := if e.2.2 then { s.front with cntRenewed := (s.front.cntRenewed + 1) % 2 ^ 32 } else s.front } →
      exec (.packetIn port m b false) s = .next (carry (parsed u s.nextJob w (m.getLsbD 24) b e.1)))
    ∧ (∀ o, s.up = true → s.mem.stalled.contains .pkclk = false → s.front.outQ.find? (fun o => o.port == port) = some o →
      (∀ x ∈ s.front.outQ, x.named = true → o.named = true → x.assoc = o.assoc → o.order ≤ x.order) →
      exec (.packetOutAccept port) s = .next { s with front := { s.front with outQ := s.front.outQ.erase o } })
    ∧ (∀ e, s.ready = true → s.front.draining = true → e = (s.front.current + 3) % 4 → (∀ j ∈ s.jobs, ∀ p, j.pkt = some p → p.epoch ≠ e) →
      (∀ o ∈ s.front.outQ, bits o.metaOut.toNat 25 24 ≠ e) → (∀ f ∈ s.front.follow, followLive s f = true → f.epoch ≠ e) →
      s.front.swapAt + s.front.grace * 1000 * 2 ^ 16 ≤ s.time.mono →
      exec .epochDrainEnd s = .next { s with front := { s.front with draining := false } })

/-- Banks, the peer table and the stranger budget (R434, R435, R449, R452, R453, R457): a node is written to the inactive bank alone, SWAP changes the bank
and the epoch when no epoch drains and node 0 of the inactive bank is valid, REHASH begins a rehash that takes over the table it named at its end, once no lookup reads a bucket, with vector
5, the scanner visits a bucket once a period, which is read where it is not known, and the visit ages its entries (log entries 32 and 104, the model's choices), and a read of PKF_SEAT_STRG_STS clears SHED. -/
def Obligations.BanksSwapAndPeerTablesAge : Prop :=
  ∀ (s : State),
    (∀ o i (v : W32), i < 1024 → o = 0x71000 + 4 * i → s.served o = true →
      ((s.front.bank = true → i < 512) ∧ (s.front.bank = false → 512 ≤ i) ∧ s.front.draining = false → i % 8 ≠ 0 ∨ v.toNat / 2 ^ 8 % 2 ^ 8 ≤ 2 →
        exec (.nodeWrite (4 * i) v) s = .next { s with front := { s.front with nodes := tabSet 0 s.front.nodes i (v.toNat &&& nodeMask i) } })
      ∧ ((s.front.bank = true ∧ 512 ≤ i) ∨ (s.front.bank = false ∧ i < 512) ∨ s.front.draining = true ∨ (i % 8 = 0 ∧ 2 < v.toNat / 2 ^ 8 % 2 ^ 8) →
        exec (.nodeWrite (4 * i) v) s = .next (alarmC s 0x46 o v.toNat)))
    ∧ (s.served 0x70038 = true →
      (s.front.draining = false → (nf (nodeBytes s (!s.front.bank) 0) 31).testBit 7 = true →
        exec .swap s = .next { s with front :=
          { s.front with current := (s.front.current + 1) % 4, bank := !s.front.bank, draining := true, swapAt := s.time.mono } })
      ∧ (s.front.draining = true → exec .swap s = .next s))
    ∧ (s.served 0x70030 = true → s.front.forerunner = false → s.front.rehashBusy = false → s.front.peerNext ≠ 0 →
      exec .rehash s = .next (carry (rehashStep { s with front :=
        { s.front with
          rehashBusy := true, rehashAt := 0, rehBase := s.front.peerNext, rehSeed1 := s.front.nextSeed1, rehSeed2 := s.front.nextSeed2
          peers := s.front.peers.filter (fun p => decide (p.1 < 65536)) } })))
    ∧ (s.served 0x70030 = true → s.front.forerunner = true → ∃ t, exec .rehash s = .next (carry (rehashStep t)) ∧ t = alarmC s 0x46 0x70030 1)
    ∧ (∀ f, s.ready = true → s.alarms.verifying = false → f = s.front → f.rehashBusy = true → 262144 ≤ f.rehashAt → bucketsRead s = false →
      exec .rehashDone s = .next (carry (vector { s with front :=
        { f with
          rehashBusy := false, rehashAt := 0, peerBase := f.rehBase, seed1 := f.rehSeed1, seed2 := f.rehSeed2
          peers := f.peers.filterMap (fun p => if 65536 ≤ p.1 then some (p.1 - 65536, p.2) else none) } } 5)))
    ∧ (∀ bucket, bucket < 65536 → s.ready = true → s.alarms.aActive = false →
      (∀ u, s.front.age ≠ 0 → s.front.rehashBusy = false → s.front.peerBase ≠ 0 → s.front.enabled = true → s.front.visits.contains bucket = false →
          visitDue s bucket = true →
          u = { s with front := { s.front with visits := s.front.visits ++ [bucket], visited := tabPut s.front.visited bucket s.time.mono } } →
        (bucket? s 0 bucket = none → exec (.peerAgeVisit bucket) s = .next (carry (readBucket u 0 bucket)))
        ∧ (bucket? s 0 bucket ≠ none → exec (.peerAgeVisit bucket) s = .next (carry u)))
      ∧ (s.front.age = 0 ∨ s.front.rehashBusy = true ∨ visitDue s bucket = false → exec (.peerAgeVisit bucket) s = .next (carry s)))
    ∧ (∀ b, (∀ p ∈ s.front.visited, p.1 ≠ b) → visitDue s b = true)
    ∧ (∀ b p, s.front.visited.find? (fun p => p.1 == b) = some p → visitDue s b = decide (p.2 + s.front.age * 1000000000 * 2 ^ 16 ≤ s.time.mono))
    ∧ (∀ b k v f, f = nf (slotBytes v k) 21 →
      (aged f = f → ageSlot b v s k = s)
      ∧ (aged f ≠ f → ageSlot b v s k = peerPush (setSlot s 0 b k (overlay (slotBytes v k) 21 [BitVec.ofNat 8 (aged f)])) none
          [(peerAddr s 0 b + 32 * k + 21, [BitVec.ofNat 8 (aged f)])]))
    ∧ (∀ f, f < 256 → (f.testBit 0 = false → aged f = f) ∧ (f.testBit 0 = true → f.testBit 2 = true → aged f = f - 4)
      ∧ (f.testBit 0 = true → f.testBit 2 = false → f.testBit 1 = false → aged f = f + 2)
      ∧ (f.testBit 0 = true → f.testBit 2 = false → f.testBit 1 = true → aged f = f - 1))
    ∧ (∀ seat, seat < 1024 → s.served (0x7800C + 0x10 * seat) = true →
      exec (.strangerStsRead seat) s = .next ({ s with seatRegs := { s.seatRegs with
        readData := w32 ((s.seat seat).strgCredit / 1000 * 2 ^ 16 + (s.seat seat).strgShed) } }.modSeat seat (fun t => { t with strgShed := 0 })))

-- The relay ring ------------------------------------------------------------------------------------------------------------

/-- Hops (R59, R85, R87, R475, R476, R478, R479, R480, R481, R489): LINK_UP brings a link without credits and gives back a pulse for each receive buffer, a
credit that comes is held or lets one flit of the first message that waits leave, and HELLO leaves with the first of a hop whose keying has not begun; HELLO, REPLY and
CONFIRM key the hop under the keys of its transcript while RLCLK runs, a wrong tag counts in CNT_AUTH and sets AUTH_FAIL, echoes measure it, its age or count keys it
again, RX_ERR, a fall of LINK_UP, more than 10 us of silence, a message out of its order or one whose tag fails erases its keys, and 10 us after LINK_UP rose a broken
hop may be keyed again from either side; a message leaves numbered, under its phase, as the flits of its encryption. The transcript's bytes are the model's (log entry
54), and that an exchange the neighbour left unanswered is begun afresh (log entry 126). -/
def Obligations.HopsAreKeyedMeasuredAndBroken : Prop :=
  ∀ (s : State) (sd : Side) (b : Bytes),
    (∀ u, s.up = true → s.params.relayPresent = true → u = (if (s.hop sd).keyed = true then breakHop s sd else s) →
      exec (.linkUp sd) s = .next (fin (u.modHop sd (fun h =>
        { h with link := true, upAt := u.time.mono, credits := 0, queue := [], txLeft := 0, rxPulses := 128 }))))
    ∧ (s.up = true → relayStalled s = false → (s.hop sd).link = true →
      ((s.hop sd).queue = [] → exec (.creditReturn sd) s = .next (fin (sendHello (s.modHop sd (fun h => { h with credits := h.credits + 1 })) false)))
      ∧ (∀ m q n, (s.hop sd).queue = m :: q → (s.hop sd).credits = 0 → n = (if (s.hop sd).txLeft = 0 then rmsgFlits m.msg else (s.hop sd).txLeft) →
        (1 < n → exec (.creditReturn sd) s = .next (fin (sendHello (s.modHop sd (fun h => { h with txLeft := n - 1 })) false)))
        ∧ (∀ u, n = 1 → u = s.modHop sd (fun h => { h with txLeft := 0, queue := q }) → q = [] →
          exec (.creditReturn sd) s = .next (fin (sendHello { u with relay := { u.relay with sent := m :: u.relay.sent } } false)))))
    ∧ (∀ again, (helloDue s again = true ↔ relayOn s = true ∧ s.relay.east.link = true ∧ 0 < s.relay.east.credits ∧ relayStalled s = false ∧ s.relay.east.hello = []
        ∧ (again = true ∨ (s.relay.east.keyed = false ∧ s.relay.east.broken = false)))
      ∧ (helloDue s again = false → sendHello s again = s)
      ∧ (helloDue s again = true → bwkOf s = none → sendHello s again = { s with relay := { s.relay with noBwk := true } })
      ∧ (∀ r, helloDue s again = true → bwkOf s = some b → tryDraw s 0 96 = some r →
        ∃ t ek dk ph, kemKeygen 0x12 (sliceZ r.2 32 32) (sliceZ r.2 64 32) = (ek, dk) ∧ ph = (if s.relay.east.keyed then !s.relay.east.phase else s.relay.east.phase)
          ∧ t = sendHello s again ∧ t.relay.east.hello = x25519 (sliceZ r.2 0 32) x25519Base ++ ek ++ [if ph then 1 else 0]
          ∧ t.relay.east.newPhase = ph ∧ t.relay.east.xPriv = sliceZ r.2 0 32 ∧ t.relay.east.kemDk = dk
          ∧ t.relay.east.keyed = s.relay.east.keyed ∧ t.relay.east.sendKey = s.relay.east.sendKey))
    ∧ (s.relay.east.keyed = true → 2 ^ 32 ≤ s.relay.east.txSeq ∨ 2 ^ 32 ≤ s.relay.east.rxSeq ∨ s.relay.east.keyedAt + 3600000000000 ≤ s.time.secure →
      exec (.hopRekeyDue .east) s = .next (fin (sendHello s true)))
    ∧ (relayOn s = true → (s.hop sd).link = true → (s.hop sd).keyed = false → (s.hop sd).upAt + 10000 * 2 ^ 16 ≤ s.time.mono →
      (s.hop sd).broken = true ∨ (sd = .east ∧ s.relay.east.hello ≠ [] ∧ s.relay.east.helloAt + 300000 * 2 ^ 16 < s.time.mono) →
      exec (.brokenHopRekey sd) s = .next (fin (sendHello (s.modHop sd (fun h => { h with broken := false, hello := [], xPriv := [], kemDk := [] })) false)))
    ∧ (s.time.mono < (s.hop sd).upAt + 10000 * 2 ^ 16 ∨ (s.hop sd).link = false → exec (.brokenHopRekey sd) s = .next (fin s))
    ∧ (∀ x ek ph u, s.up = true → relayStalled s = false → s.relay.west.link = true → kemEkOk 0x12 ek = true →
        u = takeFlits s .west (rmsgFlits (.hello x ek ph)) →
      (relayOn s = false → exec (.hello x ek ph) s = .next (fin (keepHello u x ek ph)))
      ∧ (∀ r pub m dg keys, relayOn s = true → bwkOf s = some b → tryDraw u 0 64 = some r → pub = x25519 (sliceZ r.2 0 32) x25519Base →
          m = kemEncaps 0x12 ek (sliceZ r.2 32 32) → dg = hopDigest (x ++ ek ++ [if ph then 1 else 0]) pub m.2 →
          keys = hopKeys (x25519 (sliceZ r.2 0 32) x) m.1 (lakOf b) dg →
        exec (.hello x ek ph) s = .next (fin (hopSend
          (r.1.modHop .west (fun h => { h with newKeys := keys, digest := dg, newPhase := ph, confirming := true })) .west r.1.relay.member 0xFF 0
          (.reply pub m.2 (confirmTag keys dg 0x57))))))
    ∧ (∀ x ct w u e dg keys, u = takeFlits s .east (rmsgFlits (.reply x ct w)) → e = u.relay.east → bwkOf s = some b → relayOn s = true →
        relayStalled s = false → e.link = true → e.hello ≠ [] → dg = hopDigest e.hello x ct →
        keys = hopKeys (x25519 e.xPriv x) (kemDecaps 0x12 e.kemDk ct) (lakOf b) dg →
      (confirmTag keys dg 0x57 = w → exec (.reply x ct w) s = .next (carryAll (keyedHop
        (hopSend u .east u.relay.member 0xFF 0 (.confirm (confirmTag keys dg 0x45))) .east keys e.newPhase)))
      ∧ (confirmTag keys dg 0x57 ≠ w → exec (.reply x ct w) s = .next (carryAll { u with relay :=
        { u.relay with
          east := { e with xPriv := [], kemDk := [], hello := [], newKeys := [], digest := [], confirming := false }
          authFail := true, cntAuth := satInc 32 s.relay.cntAuth } })))
    ∧ (∀ u, relayOn s = true → relayStalled s = false → s.relay.west.link = true → s.relay.west.confirming = true →
        u = takeFlits s .west (rmsgFlits (.confirm b)) →
      (confirmTag s.relay.west.newKeys s.relay.west.digest 0x45 = b →
        exec (.confirm b) s = .next (carryAll (keyedHop u .west s.relay.west.newKeys s.relay.west.newPhase)))
      ∧ (confirmTag s.relay.west.newKeys s.relay.west.digest 0x45 ≠ b → ∃ t, exec (.confirm b) s = .next (carryAll t)
        ∧ t.relay.authFail = true ∧ t.relay.cntAuth = satInc 32 s.relay.cntAuth ∧ t.relay.west.keyed = s.relay.west.keyed
        ∧ t.relay.west.newKeys = [] ∧ t.relay.west.confirming = false))
    ∧ (∀ keys ph h, h = (keyHop s sd keys ph).hop sd → h.keyed = true ∧ h.broken = false ∧ h.phase = ph ∧ h.keyedAt = s.time.secure ∧ h.rxSeq = 0
      ∧ h.offpkg = s.relay.ctrlAct.testBit (if sd = .east then 1 else 0)
      ∧ h.oldPhase = (if (s.hop sd).keyed then some (s.hop sd).rxSeq else none)
      ∧ (sd = .east → h.sendKey = sliceZ keys 0 32 ∧ h.recvKey = sliceZ keys 32 32)
      ∧ (sd = .west → h.sendKey = sliceZ keys 32 32 ∧ h.recvKey = sliceZ keys 0 32))
    ∧ (∀ keys ph, (s.relay.formed = false ∨ (s.hop sd).keyed = true → keyedHop s sd keys ph = keyHop s sd keys ph))
    ∧ (∀ e ns u, accept s (echoHop e sd) = (u, true) →
      (e.returned = false → exec (.echo sd e ns) s = .next (carryAll (hopSend u sd u.relay.member 0xFF 0 .echo)))
      ∧ (e.returned = true → (u.hop sd).echoes ≠ 15 → exec (.echo sd e ns) s = .next (carryAll (u.modHop sd (fun h =>
          { h with echoes := h.echoes + 1, best := if h.echoes = 0 then ns else min h.best ns }))))
      ∧ (e.returned = true → (u.hop sd).echoes = 15 → exec (.echo sd e ns) s = .next (carryAll (u.modHop sd (fun h =>
          { h with echoes := 16, best := min h.best ns, latency := min h.best ns / 2 })))))
    ∧ (s.up = true → (s.hop sd).link = true → exec (.hopBreak ⟨sd, false⟩) s = .next (carryAll (breakHop s sd))
      ∧ exec (.hopBreak ⟨sd, true⟩) s = .next (carryAll ((breakHop s sd).modHop sd (fun h => { h with link := false, credits := 0, queue := [], txLeft := 0 }))))
    ∧ (∀ u v, u = (unkeyHop s sd).modHop sd (fun h => { h with broken := true }) →
        v = { u with relay := { u.relay with
          wants := u.relay.wants.filter (fun w => match w with
            | .hello _ => sd != .east
            | .answer _ _ _ => sd != .west
            | _ => true)
          cntBreak := if (s.hop sd).keyed then (s.relay.cntBreak + 1) % 2 ^ 32 else s.relay.cntBreak } } →
      (v.hop sd).keyed = false ∧ (v.hop sd).sendKey = [] ∧ (v.hop sd).recvKey = [] ∧ (v.hop sd).link = (s.hop sd).link
      ∧ ((s.hop sd).keyed = false ∨ s.relay.formed = false → breakHop s sd = v)
      ∧ (∀ p n, (s.hop sd).keyed = true → s.relay.formed = true → n = s.relay.map.length → p = (if sd = .east then ownPos s else (ownPos s + n - 1) % n) →
        breakHop s sd = onBreak (hopSend v (other sd) s.relay.member 0xFF 0 (.break_ p)) p))
    ∧ (s.up = true → (s.hop sd).keyed = true → (s.hop sd).lastRx + 10000 * 2 ^ 16 < s.time.mono →
      exec (.hopSilence sd) s = .next (carryAll (breakHop s sd)))
    ∧ (∀ (h : Hop) (c : RHop) (u : State), s.up = true → relayStalled s = false → c = s.hop h.side → c.link = true → u = takeFlits s h.side (h.flits % 256) →
      (c.keyed = false → accept s h = (u, false))
      ∧ (c.keyed = true → h.flits % 256 ≠ 0 → h.tagOk = true →
        (h.phase = c.phase → h.seq = c.rxSeq →
          accept s h = (u.modHop h.side (fun c => { c with rxSeq := c.rxSeq + 1, lastRx := s.time.mono, oldPhase := none }), true))
        ∧ (h.phase ≠ c.phase → c.oldPhase = some h.seq →
          accept s h = (u.modHop h.side (fun c => { c with oldPhase := some (h.seq + 1), lastRx := s.time.mono }), true)))
      ∧ (c.keyed = true → h.tagOk = true → h.flits % 256 = 0 ∨ (h.phase = c.phase ∧ h.seq ≠ c.rxSeq) ∨ (h.phase ≠ c.phase ∧ c.oldPhase ≠ some h.seq) →
        accept s h = (breakHop u h.side, false))
      ∧ (c.keyed = true → h.tagOk = false →
        accept s h = (breakHop { u with relay := { u.relay with cntAuth := satInc 32 s.relay.cntAuth } } h.side, false)))
    ∧ (∀ (m : RMsg) (dst : Nat) (x : RSent), isKeying m = false → (s.hop sd).link = true → (s.hop sd).keyed = true → rmsgLen m ≤ 16288 → relayStalled s = false →
        (s.hop sd).queue = [] → (s.hop sd).txLeft = 0 → rmsgFlits m ≤ (s.hop sd).credits →
        x = { east := sd == .east, src := s.relay.member, dst := dst, hops := 0, seq := (s.hop sd).txSeq, phase := (s.hop sd).phase, msg := m } →
      ∃ t, t = hopSend s sd s.relay.member dst 0 m ∧ t.relay.sent = { x with wire := relayWire (s.hop sd).sendKey x } :: s.relay.sent
        ∧ (t.hop sd).txSeq = (s.hop sd).txSeq + 1 ∧ (t.hop sd).credits = (s.hop sd).credits - rmsgFlits m ∧ (t.hop sd).queue = []
        ∧ (relayWire (s.hop sd).sendKey x).length = 64 * rmsgFlits m)

/-- Forming (R477, R482, R483, R489, R494): a formed ring answers a PROBE and its first answer makes a member ask to join, more than 1 ms without an answer starts an
election, each member draws its identity once, the lowest wins, where an equal one of another member does not (log entry 124, the model's choice), and numbers the ring,
a member takes its number and passes on the next, MAP gives a member its ring and its role with vector 7 (log entry 56 on how members state their hops to the leader, the
model's choice), JOIN gives a member its number and the ring key (log entry 127 on a member that asks for the key alone, the model's choice), and ADV is kept. A message
for another member is passed on with HOPS counted (R477). -/
def Obligations.RingsFormFromTheirMessages : Prop :=
  ∀ (s u : State) (h : Hop), accept s h = (u, true) →
    (∀ l f v, h.src ≠ u.relay.member → h.dst = 0xFF ∨ h.dst = u.relay.member → v = (if h.dst = 0xFF then forward u h (.probe false f l) else u) →
      (v.relay.formed = true → exec (.probe h false f l) s = .next (carryAll (hopSend v h.side v.relay.member 0xFF 0 (.probe true true v.relay.leaderIs))))
      ∧ (v.relay.formed = false → exec (.probe h false f l) s = .next (carryAll v)))
    ∧ (∀ l v w, h.src ≠ u.relay.member → h.dst = 0xFF ∨ h.dst = u.relay.member → v = (if h.dst = 0xFF then forward u h (.probe true true l) else u) →
        v.relay.formed = false → w = { v.modHop h.side (fun c => { c with probed := true }) with relay :=
          { (v.modHop h.side (fun c => { c with probed := true })).relay with leaderIs := l } } →
      (v.relay.east.probed = false → v.relay.west.probed = false →
        exec (.probe h true true l) s = .next (carryAll (hopSend { w with relay := { w.relay with rejoin := false } } h.side 0xFF l 0
          (.join false false w.relay.member []))))
      ∧ (v.relay.east.probed = true ∨ v.relay.west.probed = true → exec (.probe h true true l) s = .next (carryAll w)))
    ∧ (∀ x r p n, x = s.relay → relayOn s = true → x.formed = false → x.east.keyed = true → x.west.keyed = true → x.east.probed = false →
        x.west.probed = false → x.identity = none → x.electSent = false → x.probeAt = some p → p + 1000000 * 2 ^ 16 < s.time.mono → tryDraw s 0 6 = some r →
        n = x.ctrlAct / 2 ^ 16 * 2 ^ 48 + beNat r.2 →
      exec .electionStart s = .next (fin (hopSend { r.1 with relay := { r.1.relay with identity := some n, electSent := true } } .east r.1.relay.member 0xFF 0 (.elect n))))
    ∧ (∀ c : Candidate, u.relay.formed = true → exec (.elect h c) s = .next (carryAll u))
    ∧ (∀ (c : Candidate) r m v, u.relay.formed = false → u.relay.identity = none → tryDraw u 0 6 = some r →
        m = u.relay.ctrlAct / 2 ^ 16 * 2 ^ 48 + beNat r.2 →
        v = { r.1 with relay := { r.1.relay with identity := some m, rejoin := r.1.relay.rejoin || r.1.relay.east.probed || r.1.relay.west.probed } } →
      (c.value < m → h.hops < 254 → exec (.elect h c) s = .next (carryAll (hopSend v (other h.side) h.src h.dst (h.hops + 1) (.elect c.value))))
      ∧ (m ≤ c.value → r.1.relay.electSent = false →
        exec (.elect h c) s = .next (carryAll (hopSend { v with relay := { v.relay with electSent := true } } .east v.relay.member 0xFF 0 (.elect m)))))
    ∧ (∀ (c : Candidate) own v, u.relay.formed = false → u.relay.identity = some own →
        v = { u with relay := { u.relay with rejoin := u.relay.rejoin || u.relay.east.probed || u.relay.west.probed } } →
      (c.value < own → h.hops < 254 → exec (.elect h c) s = .next (carryAll (hopSend v (other h.side) h.src h.dst (h.hops + 1) (.elect c.value))))
      ∧ (own ≤ c.value → u.relay.electSent = false →
        exec (.elect h c) s = .next (carryAll (hopSend { v with relay := { v.relay with electSent := true } } .east v.relay.member 0xFF 0 (.elect own))))
      ∧ (own < c.value ∨ (c.value = own ∧ c.own = false) → u.relay.electSent = true → exec (.elect h c) s = .next (carryAll v))
      ∧ (∀ r, c = ⟨own, true⟩ → u.relay.electSent = true → tryDraw v 0 32 = some r → exec (.elect h c) s = .next (carryAll (hopSend { r.1 with relay :=
          { r.1.relay with member := 0, leader := true, leaderIs := 0, rk := r.2, sealNo := 0 } } .east 0 0xFF 0 (.number 1)))))
    ∧ (∀ n, u.relay.formed = false → u.relay.leader = false → n ≤ 254 → h.hops < 254 → exec (.number h n) s = .next (carryAll
        (hopSend { u with relay := { u.relay with member := n, leaderIs := h.src } } (other h.side) h.src h.dst (h.hops + 1) (.number (n + 1)))))
    ∧ (∀ n, u.relay.formed = false → u.relay.leader = true → n ≤ 255 → exec (.number h n) s = .next (carryAll
        (sendMap { u with relay := { u.relay with marks := [] } } ((List.range n).map (fun i => { member := i, eOffpkg := false, eBroken := false })))))
    ∧ (∀ es, h.src ≠ u.relay.member → h.dst = 0xFF → u.relay.leader = false ∨ h.src ≤ u.relay.member → ∃ t, exec (.map h es) s = .next (carryAll t)
      ∧ t.relay.formed = (markOwn u es).any (fun e => e.member == u.relay.member) ∧ t.relay.map = markOwn u es ∧ t.relay.member = u.relay.member
      ∧ ⟨0, 7⟩ ∈ t.prompts)
    ∧ (∀ es, h.src ≠ u.relay.member → h.dst = u.relay.member → h.dst ≠ 0xFF → u.relay.leader = true →
      exec (.map h es) s = .next (carryAll (reportHere u h.src es)))
    ∧ (∀ m rk, u.relay.formed = false → u.relay.east.probed = true ∨ u.relay.west.probed = true →
        (u.relay.member = 0xFF ∧ (h.dst = 0xFF ∨ h.dst = m)) ∨ (u.relay.member ≠ 0xFF ∧ h.src ≠ u.relay.member ∧ h.dst = u.relay.member) →
      exec (.join h true false m rk true) s = .next (carryAll { u with relay := { u.relay with member := m, rk := rk, sealNo := 0, leaderIs := h.src } })
      ∧ exec (.join h true true m rk true) s = .next (carryAll { u with relay := { u.relay with full := true } }))
    ∧ (∀ own rk ok, u.relay.member = 0xFF ∨ h.src ≠ u.relay.member →
      (u.relay.formed = true → h.dst = u.relay.member → u.relay.leader = true → exec (.join h false false own rk ok) s = .next (carryAll (answerJoin u h own)))
      ∧ (u.relay.formed = true → h.dst ≠ u.relay.member → h.hops < 254 →
        exec (.join h false false own rk ok) s = .next (carryAll (hopSend u (other h.side) h.src h.dst (h.hops + 1) (.join false false own rk))))
      ∧ (u.relay.formed = false → exec (.join h false false own rk ok) s = .next (carryAll u)))
    ∧ (∀ own r, u.relay.map.any (fun e => e.member == own) = true → r = pairSeal u u.relay.member own u.relay.rk →
      ∃ t, t = hopSend r.1 h.side r.1.relay.member own 0 (.join true false own r.2)
        ∧ (h.src = 0xFF → answerJoin u h own = sendMap t u.relay.map) ∧ (h.src ≠ 0xFF → answerJoin u h own = t))
    ∧ (∀ own, u.relay.map.any (fun e => e.member == own) = false → freeMember u.relay.map = none →
      answerJoin u h own = hopSend u h.side u.relay.member 0xFF 0 (.join true true 0xFF []))
    ∧ (∀ st f a v, h.src ≠ u.relay.member → v = (if h.dst = 0xFF then forward u h (.adv st f a) else u) → h.dst = 0xFF ∨ h.dst = u.relay.member →
      exec (.adv h st f a) s = .next (fin { v with place := { v.place with adverts := tabSet {} v.place.adverts h.src { starts := st, floor := f, accepts := a } } }))
    ∧ (∀ st f a, h.src ≠ u.relay.member → h.dst ≠ 0xFF → h.dst ≠ u.relay.member → h.hops < 254 →
      exec (.adv h st f a) s = .next (fin (hopSend u (other h.side) h.src h.dst (h.hops + 1) (.adv st f a))))

/-- Traffic of a formed ring (R14, R42, R485, R486, R487, R488, R489, R490, R491, R492, R493): JOB becomes a job here with the key that its pair key opens, DONE completes
the job away, with INTERNAL where its status is none of the catalogue (log entry 85, the model's choice), and with KEY_HANDLE_INVALID where sealed key material does not
open (log entry 73, the model's choice), CANCEL drops the origin's jobs, ALARM ends those away at the member, BREAK takes a hop from the map, TIME is sent by the master
each microsecond and steers a follower, which goes on at its rate when it hears none, and mail is asked for (log entry 129, the model's choice), read from memory,
carried, written to the inbox and released; a mail of length 0 or past 2^24 bytes is refused (log entry 130, the model's choice). What makes a follower step
(log entry 55) and the rate it keeps (a free value) are the model's choices. TIME that comes over an off-package hop is removed (R485). -/
def Obligations.RingTrafficReachesItsMember : Prop :=
  ∀ (s u : State) (h : Hop),
    (accept s h = (u, true) → h.src ≠ u.relay.member → h.dst = u.relay.member → h.dst ≠ 0xFF →
      (∀ (j : RelayedJob), acceptsRelayed u = true → isEngine j.opcode = true →
        (∀ key, jobKey u h.src j = some key → ∃ t k, exec (.relayJob h j) s = .next (carryAll t) ∧ t.jobs = u.jobs ++ [k] ∧ t.nextJob = u.nextJob + 1
          ∧ k.id = u.nextJob ∧ k.src = .relayed h.src j.tag ∧ k.opcode = j.opcode ∧ k.body = j.body ∧ k.key = key
          ∧ t.place.cntRelayIn = (u.place.cntRelayIn + 1) % 2 ^ 32)
        ∧ (jobKey u h.src j = none → exec (.relayJob h j) s = .next (carryAll (sendTo u h.src (.done
            { tag := j.tag, status := 0x12, subcode := 3, opflags := 0, result := 0, inBytes := 0, outputs := [], keyOut := [] }))))
        ∧ jobKey u h.src j = (if j.key = [] then some [] else pairOpen u h.src h.src u.relay.member j.key))
      ∧ (∀ d : RelayedDone,
        (∀ j, u.jobs.find? (fun j => j.phase == .away h.src d.tag && j.outcome.isNone) = some j →
          (j.late u = false → exec (.relayDone h d) s = .next (carryAll (takeDone u j d)))
          ∧ (j.late u = true → ∃ v, v = sendTo (stop u j.id 0x50 2) h.src (.cancel [d.tag])
            ∧ exec (.relayDone h d) s = .next (carryAll { v with relay := { v.relay with cntStale := (v.relay.cntStale + 1) % 2 ^ 32 } })))
        ∧ (u.jobs.find? (fun j => j.phase == .away h.src d.tag && j.outcome.isNone) = none → exec (.relayDone h d) s = .next (carryAll { u with relay :=
            { u.relay with cntStale := (u.relay.cntStale + 1) % 2 ^ 32 } })))
      ∧ (∀ (d : RelayedDone) (j : Job), j.phase = .away h.src d.tag → d.keyOut = [] → d.result = 0 → d.status ≠ 0 → takeDone u j d = fixOutcome
          (u.modJob j.id (fun _ => { j with blocks := 0, floor := 0, rtNs := 0 })) j.id
          { status := if statusCodes.contains d.status then d.status else 0x7F, sub := d.subcode, opf := d.opflags, inB := d.inBytes })
      ∧ (∀ (d : RelayedDone) (j : Job), j.phase = .away h.src d.tag → d.keyOut ≠ [] → pairOpen u h.src u.relay.member h.src d.keyOut = none → d.result = 0 →
        takeDone u j d = failJob (u.modJob j.id (fun _ => { j with blocks := 0, floor := 0, rtNs := 0 })) j.id stKeyHandle 3)
      ∧ (∀ ts, exec (.relayCancel h ts) s = .next (carryAll (dropOrigin u (fun o t => o == h.src && ts.contains t))))
      ∧ (∀ m, exec (.relayAlarm h m) s = .next (carryAll (memberAlarm u m)))
      ∧ (∀ p, exec (.relayBreak h p) s = .next (carryAll (onBreak u p)))
      ∧ (∀ total off part, part ≠ [] → u.relay.inboxFull = false → total ≤ u.relay.inboxLen → off + part.length ≤ total →
        u.relay.part = off → u.relay.sender = h.src → u.relay.got = total →
        exec (.mail h total off part (off + part.length == total)) s = .next (fin (addWrites { u with relay :=
          { u.relay with part := off + part.length } } .inboxWrite 0 (u.relay.inbox + off) part 0)))
      ∧ (∀ total f, (inboxTakes u h.src total = true ↔ u.relay.inboxFull = false ∧ total ≤ u.relay.inboxLen ∧ (u.relay.got = 0 ∨ u.relay.sender = h.src))
        ∧ (inboxTakes u h.src total = true → ∃ v, v = { u with relay :=
            { u.relay with sender := h.src, got := total, part := 0, partPath := hopsUsed u h.src u.relay.member } }
          ∧ exec (.mail h total 0 [] f) s = .next (fin (sendTo v h.src (.mail total total [] true))))
        ∧ (inboxTakes u h.src total = false → exec (.mail h total 0 [] f) s = .next (fin (sendTo u h.src (.mail total total [] false)))))
      ∧ (∀ total, 0 < total → u.relay.mailAsked = true → u.relay.mailDst = h.src → u.relay.mailTotal = total →
        exec (.mail h total total [] true) s = .next (fin (mailReads u)) ∧ exec (.mail h total total [] false) s = .next (fin (mailEnd u 2))))
    ∧ (∀ v n w, accept s h = (u, true) → u.time.follower = true → h.src ≠ u.relay.member → w = v + ((u.hop h.side).latency + n) * 2 ^ 16 →
      (hopOff u h.side = false → exec (.time h v n) s = .next (carryAll (steer (if hopOff u (other h.side) then u else forward u h (.time w)) w)))
      ∧ (hopOff u h.side = true → exec (.time h v n) s = .next (carryAll u)))
    ∧ (∀ v d : Int, 0 ≤ v → v ≤ (2 ^ 64 - 1) * 2 ^ 16 → d = v - u.stamp →
      (u.relay.timeSeen = false ∨ 8 * masterHops u * 2 ^ 16 < d ∨ d < -(8 * masterHops u * 2 ^ 16) →
        ((steer u v.toNat).stamp : Int) = v ∧ (steer u v.toNat).time.stepped = true ∧ (steer u v.toNat).relay.timeSeen = true)
      ∧ (u.relay.timeSeen = true → -(8 * masterHops u * 2 ^ 16) ≤ d → d ≤ 8 * masterHops u * 2 ^ 16 →
        (steer u v.toNat).time = { u.time with rate := ownRate (Config.free u.freeCount) d } ∧ (steer u v.toNat).freeCount = u.freeCount + 1))
    ∧ (∀ t, s.up = true → s.time.runs = true → s.time.timeDue ≤ s.time.mono → t = { s with time := { s.time with timeDue := s.time.timeDue + 1000 * 2 ^ 16 } } →
      exec .timeSend s = .next (fin (if s.relay.formed && s.relay.pkgMaster && !hopOff s .east then
        hopSend t .east s.relay.member 0xFF 0 (.time s.stamp) else t)))
    ∧ (s.up = true → s.time.follower = true → s.relay.lastTime + 10000 * 2 ^ 16 < s.time.mono →
      exec .timeLoss s = .next { s with relay := { s.relay with lastTime := s.time.mono } })
    ∧ (∀ (v : W32) m n, s.served 0x9002C = true → s.relay.mailBusy = false → v.toNat / 2 ^ 24 = 1 → m = v.toNat % 256 → n = s.relay.mailLen →
      (s.relay.formed = false ∨ reached s m = false ∨ n = 0 ∨ 2 ^ 24 < n →
        ∃ t, exec (.mailSend v) s = .next (fin t) ∧ t.relay = { s.relay with mailBusy := false, mailAsked := false, mailResult := 2, mailGot := [] }
          ∧ ⟨0, 7⟩ ∈ t.prompts)
      ∧ (∀ t, s.relay.formed = true → reached s m = true → 0 < n → n ≤ 2 ^ 24 →
          t = { s with relay := { s.relay with
            mailBusy := true, mailDst := m, mailTotal := n, mailGot := [], mailAsked := true, mailPath := hopsUsed s s.relay.member m } } →
        (m ≠ s.relay.member → exec (.mailSend v) s = .next (fin (sendTo t m (.mail n 0 [] false))))
        ∧ (m = s.relay.member → inboxTakes t m n = true → exec (.mailSend v) s = .next (fin (mailReads (inboxFor t m n))))
        ∧ (m = s.relay.member → inboxTakes t m n = false → exec (.mailSend v) s = .next (fin (mailEnd t 2)))))
    ∧ (∀ v : W32, s.served 0x90040 = true → v.toNat.testBit 31 = true →
      exec (.inboxRelease v) s = .next { s with relay := { s.relay with inboxFull := false, got := 0, part := 0, partPath := [] } })

-- The custodian card --------------------------------------------------------------------------------------------------------

/-- A card comes and goes (R91, R92, R497, R498, R499, R500, R501, R502, R507, R508, R522): insertion enters DEBOUNCE, 10 ms later the card is present
and its supply is enabled, 1 ms on the hold clock runs and 500 cycles later CUST_RSTN rises, an answer to reset that comes in its time and passes its checks leads to
HOLD at once, or where TA1 offers other values than the default through a PPS whose echo leads there, and what fails, or comes later than its bound, leads to one more
activation 10 ms later and then to FAILED; a stopped clock is held low; removal ends the card, its authorizations and the rehearsal, with every contact low, and takes
back a write whose last status word came in the same character time (log entry 134 on what that is, the model's choice). -/
def Obligations.CardsAreActivatedAndRemoved : Prop :=
  ∀ (s : State) (c : Cust), s.up = true → c = s.cust →
    (c.det = false → exec .cardInsert s = .next (fin { s with
        cust := { c with det := true, detAt := s.time.mono, st := 1 }, start := { s.start with cardSeen := true } }))
    ∧ (s.time.runs = true → c.det = true → c.st = 1 → c.detAt + 10000000 * 2 ^ 16 ≤ s.time.mono → s.time.refUsed ≠ 0 →
      exec .cardDebounce s = .next (fin { s with cust :=
        { c with present := true, st := 2, vcc := true, rstn := false, rstAt := none, clkDiv := 0, ioLow := true, waiting := false, actAt := s.time.mono } }))
    ∧ (s.time.mono < c.detAt + 10000000 * 2 ^ 16 → exec .cardDebounce s = .next (fin s))
    ∧ (c.st = 2 → c.vcc = true → c.ioLow = true → c.actAt + 1000000 * 2 ^ 16 ≤ s.time.mono →
      exec .activationSupplyTimer s = .next (fin { s with cust :=
        { c with ioLow := false, clkDiv := max 1 (s.time.refUsed / 1000), rstAt := some (s.time.mono + cycles s 500) } }))
    ∧ (∀ t, c.rstAt = some t → c.divNext = none → c.jrec = none →
      (t ≤ s.time.mono → cardTick s = { s with cust := { c with rstn := true, rstAt := none, actAt := t } }) ∧ (s.time.mono < t → cardTick s = s))
    ∧ (∀ a : Atr, c.st = 2 → c.rstn = true → c.ppsWant = none →
      (atrInTime s a = true ↔ 400 ≤ a.first ∧ a.first ≤ 40000 ∧ a.gap ≤ 9600 ∧ s.time.mono ≤ c.actAt + cycles s a.first + etus s 20160)
      ∧ (atrOk s a = true ↔ a.tckOk = true ∧ a.offersT1 = true ∧ a.tc3Lrc = true ∧ (a.classInd = none → s.params.custClassC = false)
        ∧ (∀ x y, a.classInd = some (x, y) → (if s.params.custClassC then y else x) = true)
        ∧ (∀ x, a.ta2 = some x → x = true ∧ cardSupported (a.ta1.getD 0x11) = true))
      ∧ (atrInTime s a = false ∨ atrOk s a = false → exec (.answerToReset a) s = .next (fin (activationFailed s)))
      ∧ (∀ t k, atrInTime s a = true → atrOk s a = true → t = a.tb3.getD 0x4D →
          k = { c with ifsc := a.ta3.getD 0x20, bwi := t / 16, cwi := t % 16, clkStopOk := a.clockLow && a.t15, lastAt := s.time.mono } →
        (∀ b, a.ta2 = some b → exec (.answerToReset a) s = .next (fin (enterHold { s with cust := { k with fidi := a.ta1.getD 0x11 } })))
        ∧ (∀ x, a.ta2 = none → x = a.ta1.getD 0x11 →
          (cardSupported x = false ∨ (cardFi x = some 372 ∧ cardDi x = some 1) ∨ c.second = true →
            exec (.answerToReset a) s = .next (fin (enterHold { s with cust := k })))
          ∧ (cardSupported x = true → ¬(cardFi x = some 372 ∧ cardDi x = some 1) → c.second = false →
            exec (.answerToReset a) s = .next (fin { s with cust := { k with
              ppsWant := some x, lastSent := [0xFF, 0x11, BitVec.ofNat 8 x, 0xFF ^^^ 0x11 ^^^ BitVec.ofNat 8 x], sendEnd := s.time.mono + etus s 44 } })))))
    ∧ (∀ t, c.ppsWant = some t →
      (s.time.mono ≤ c.sendEnd + etus s 9600 → exec (.ppsEcho c.lastSent) s = .next (fin (enterHold { s with cust := { c with fidi := t, ppsWant := none } })))
      ∧ (∀ b, b ≠ c.lastSent ∨ c.sendEnd + etus s 9600 < s.time.mono → exec (.ppsEcho b) s = .next (fin (activationFailed s)))
      ∧ (c.sendEnd + etus s 9600 < s.time.mono → exec .ppsTimeout s = .next (fin (activationFailed s))))
    ∧ (c.st = 2 → c.rstn = true → c.ppsWant = none → c.actAt + cycles s 40000 < s.time.mono →
      exec .answerToResetTimeout s = .next (fin (activationFailed s)))
    ∧ (enterHold s).cust.st = 3 ∧ (enterHold s).cust.op = .ifs ∧ (enterHold s).cust.lastSent = [0, 0xC1, 1, 254, 0x3E] ∧ (enterHold s).cust.holdAt = s.time.mono
    ∧ (activationFailed s).cust.waiting = !c.second ∧ (activationFailed s).cust.vcc = false ∧ (activationFailed s).cust.rstn = false
    ∧ (activationFailed s).cust.st = (if c.second then 6 else c.st)
    ∧ (c.st = 2 → c.waiting = true → c.actAt + 10000000 * 2 ^ 16 ≤ s.time.mono → exec .reactivationWait s = .next (fin { s with cust :=
        { c with st := 2, vcc := true, rstn := false, rstAt := none, clkDiv := 0, ioLow := true, waiting := false, actAt := s.time.mono } }))
    ∧ (c.st = 3 → c.holdAt + bits c.cfg 23 16 * 100000000 * 2 ^ 16 < s.time.mono → exec .readyMaxExpiry s = .next (fin (cardFailed (cardOff s))))
    ∧ (c.clkStopOk = true → c.clkStopped = false → c.st = 3 ∨ c.st = 4 → c.op = .none → max c.sendEnd c.lastAt + cycles s 1860 ≤ s.time.mono →
      exec .clockStop s = .next (fin { s with cust := { c with clkStopped := true, clkDiv := 0 } }))
    ∧ (c.det = true → ∃ t, exec .cardRemoval s = .next (fin t) ∧ t.cust.det = false ∧ t.cust.present = false
      ∧ (c.st ≠ 0 → t.cust.st = 0 ∧ t.cust.auth = [] ∧ t.cust.vcc = false ∧ t.cust.rstn = false ∧ t.cust.clkDiv = 0 ∧ t.cust.ioLow = true
        ∧ t.cust.busy = false ∧ t.cust.cntRemove = (c.cntRemove + 1) % 2 ^ 32)
      ∧ (∀ i sec, c.st ≠ 0 → c.lastWrite = some (i, s.time.mono, sec) → (s.custRec i).phase = 3 ∨ (s.custRec i).phase = 4 → c.cmd = 2 ∨ c.cmd = 4 →
        t.custRec i = { s.custRec i with phase := 2, secureT := sec } ∧ t.cust.sts = c.cmd * 2 ^ 16 + 2 * 2 ^ 8 + stCardInterrupted))

/-- The link to the card (R502, R504, R505, R506): the condition is asked each 10 ms in HOLD; an answer to it that says ready enters READY with vector 8; an
IFS response ends its request, a waiting-time request is granted, an IFS request of the card is answered and taken, an acknowledgement sends the next block, one that
names the block last sent has it sent again, a chained block is acknowledged, and a bad block, one that stops for more than CWT, or no block within BWT or the k × BWT
granted (log entry 132 on which wait is which, the model's choice), is a failed attempt; a card that is still working is polled each 10 ms, and WAIT_MAX ends its command
and starts it again. The header bytes after CLA and INS are the model's (log entry 27). -/
def Obligations.CardExchangesFollowTheirBlocks : Prop :=
  ∀ (s u : State) (c : Cust), s.up = true → c = s.cust → u = { cardCatchUp s with cust := { (cardCatchUp s).cust with lastAt := s.time.mono, wtx := 1 } } →
    (c.st = 3 → c.op = .none → c.queryAt ≤ s.time.mono →
      exec .conditionQuery s = .next (fin (startApdu { s with cust := { c with queryAt := s.time.mono + 10000000 * 2 ^ 16 } } .query 0x10 [])))
    ∧ (cardExpects s = true → c.resyncing = false →
      (c.op = .ifs → exec (.t1BlockRx .ifsResponse) s = .next (fin { u with cust := { u.cust with op := .none, fails := 0 } }))
      ∧ (∀ k, ∃ t, t = sendBlock u 0xE3 [BitVec.ofNat 8 k]
        ∧ exec (.t1BlockRx (.wtxRequest k)) s = .next (fin { t with cust := { t.cust with wtx := k } }))
      ∧ (∀ n, 0 < n → n ≤ 254 → ∃ t, t = sendBlock u 0xE1 [BitVec.ofNat 8 n]
        ∧ exec (.t1BlockRx (.ifsRequest n)) s = .next (fin { t with cust := { t.cust with ifsc := n } }))
      ∧ (c.op ≠ .ifs → c.answering = false →
        (c.outInf ≠ [] → exec (.t1BlockRx (.rBlock (!c.ns))) s = .next (fin (sendI { u with cust := { u.cust with ns := !c.ns, fails := 0 } })))
        ∧ exec (.t1BlockRx (.rBlock c.ns)) s = .next (fin (attemptFailed u resendLast)))
      ∧ (∀ b, c.op ≠ .ifs → c.outInf = [] → exec (.t1BlockRx (.iBlock c.nr true b)) s = .next (fin (sendR { u with cust :=
          { u.cust with nr := !c.nr, fails := 0, inInf := c.inInf ++ b, ns := if c.answering then c.ns else !c.ns, answering := true } } 0)))
      ∧ (c.op = .query → c.outInf = [] → c.inInf = [] → exec (.t1BlockRx (.iBlock c.nr false [0, 0x90, 0x00])) s = .next (fin (cardReady { u with cust :=
          { u.cust with nr := !c.nr, fails := 0, inInf := [], ns := if c.answering then c.ns else !c.ns, answering := true, polling := false } })))
      ∧ exec (.t1BlockRx .bad) s = .next (fin (attemptFailed u (fun s => sendR s 1)))
      ∧ (∀ w, (cwt s < etus s w → exec (.t1BlockRx (.cut w)) s = .next (fin (attemptFailed u (fun s => sendR s 2))))
        ∧ (etus s w ≤ cwt s → exec (.t1BlockRx (.cut w)) s = .next (fin s))))
    ∧ (cardExpects s = true →
      (c.sendEnd + c.wtx * bwt s < s.time.mono → exec .cardWaitExpiry s = .next (fin (attemptFailed
          { cardCatchUp s with cust := { (cardCatchUp s).cust with wtx := 1 } } (fun s => sendR s 2))))
      ∧ (s.time.mono ≤ c.sendEnd + c.wtx * bwt s → exec .cardWaitExpiry s = .next (fin s)))
    ∧ (∀ f k, c.resyncing = false → k = { c with fails := c.fails + 1, cntErr := satInc 32 c.cntErr } →
      (c.fails < 2 → attemptFailed s f = f { s with cust := k })
      ∧ (2 ≤ c.fails → c.resynchs < 3 → attemptFailed s f = sendBlock { s with cust := { k with resyncing := true, resynchs := c.resynchs + 1 } } 0xC0 [])
      ∧ (2 ≤ c.fails → 3 ≤ c.resynchs → attemptFailed s f = linkFail { s with cust := k }))
    ∧ (c.polling = true → c.apdu = [] → c.pollAt + 10000000 * 2 ^ 16 ≤ s.time.mono → exec .statusPoll s = .next (fin (sendI { s with cust :=
        { c with apdu := [0x80, 0x12, 0, 0, 0], outInf := [0x80, 0x12, 0, 0, 0], inInf := [], fails := 0, resynchs := 0, wtx := c.wtx } })))
    ∧ (c.st = 3 ∨ c.st = 4 ∨ c.st = 5 → c.op ≠ .none → c.op ≠ .ifs → c.cmdAt + bits c.cfg 15 8 * 1000000000 * 2 ^ 16 < s.time.mono →
      ∃ t, exec .waitMaxExpiry s = .next (fin t) ∧ t.cust.st = 2 ∧ t.cust.vcc = true ∧ t.cust.busy = false ∧ t.cust.second = false
        ∧ (c.busy = true → t.cust.sts = c.cmd * 2 ^ 16 + 0x20 * 2 ^ 8 + 0x50))

/-- The manager's custodian commands (R508, R509, R512, R513, R514, R516, R517, R518, R519, R520, R522): a command that needs no card ends at once with its
effect and leaves what the port does with the card alone; one that needs the card asks it for its certificate first, and AUTHORIZE then sends its challenge,
its numbers big-endian (log entry 29, the model's choice), under a journal record in DATA; one whose argument or state is wrong, the state judged first (log entry 108,
the model's choice), ends with INTERNAL and changes nothing else; the card's signature brings an
authorization into force, but one of a pair of versions written since (log entry 92, the model's choice); an authorization ends at its instant and
held shares 600 s of secure time after the first. -/
def Obligations.CustodianCommandsTakeEffect : Prop :=
  ∀ (s u : State) (c : Cust) (arg cmd : Nat), c = s.cust → u = { s with cust := { c with busy := true, cmd := cmd, arg := arg, sts := cmd * 2 ^ 16 } } →
    (s.served 0xA0004 = true → c.busy = false →
      (cmd = 1 → arg = 0 → c.rootSet = false → leNat c.rootHash ≠ 0 →
        exec (.rootLock arg) s = .next (fin (cmdDone { u with cust := { u.cust with rootSet := true } } 0 0)))
      ∧ (cmd = 1 → arg ≠ 0 ∨ c.rootSet = true ∨ leNat c.rootHash = 0 → exec (.rootLock arg) s = .next (fin (cmdDone u 0x7F 0x04)))
      ∧ (c.st ≠ 4 →
        (cmd = 2 → exec (.authorize arg) s = .next (fin (cmdDone u 0x7F 0x09)))
        ∧ (cmd = 3 → exec (.importShare arg) s = .next (fin (cmdDone u 0x7F 0x09)))
        ∧ (cmd = 4 → exec (.exportShare arg) s = .next (fin (cmdDone u 0x7F 0x09))))
      ∧ (c.st = 4 → c.op = .none → c.resyncing = false → c.cert = none → c.settle = [] →
        (cmd = 2 → 1 ≤ arg → arg ≤ 3 →
          exec (.authorize arg) s = .next (fin (startApdu { u with cust := { u.cust with st := 5 } } .getCert 0x20 [])))
        ∧ (cmd = 3 → arg = 0 →
          exec (.importShare arg) s = .next (fin (startApdu { u with cust := { u.cust with st := 5 } } .getCert 0x20 [])))
        ∧ (∀ x m n, cmd = 4 → x = bits arg 4 0 → m = bits arg 12 8 → n = bits arg 20 16 → 2 ≤ m → m ≤ n → n ≤ 16 → 1 ≤ x → x ≤ n →
            bits arg 7 5 = 0 → bits arg 15 13 = 0 → bits arg 23 21 = 0 → (bwkOf s).isSome = true → authInForce s 3 = true →
          exec (.exportShare arg) s = .next (fin (startApdu { u with cust := { u.cust with st := 5 } } .getCert 0x20 []))))
      ∧ (∀ k i r w ch, c.st = 4 → c.op = .none → c.resyncing = false → c.settle = [] → c.cert = some k → certJudge s k = 0 →
          cmd = 2 → 1 ≤ arg → arg ≤ 3 → (certRoles k).testBit (arg - 1) = true → freeRec s = some i →
          tryDraw { u with cust := { u.cust with st := 5 } } 0 32 = some r →
          ch = ascii "GXPA" ++ beBytes 1 arg ++ beBytes 4 0x47585064 ++ beBytes 4 s.keys.epochTag ++ r.2 ++ beBytes 4 c.nextTxn
            ++ (if arg = 2 then beBytes 4 s.start.acceptSmf ++ beBytes 4 s.start.acceptSqm else zeros 8) →
          w = takeRec r.1 i 0x30 (certId k) arg →
        exec (.authorize arg) s = .next (fin (startApdu { w with cust := { w.cust with challenge := ch, voided := false } } .authorize 0x30 ch))
        ∧ w.custRec i = { txn := c.nextTxn, card := certId k, kind := 0x30, phase := 1, secureT := s.time.secure / 1000000000, detail := arg })
      ∧ (cmd = 5 → arg = 0 → exec (.sharesClear arg) s = .next (fin (cmdDone { u with cust := { u.cust with shares := [], sharesM := 0 } } 0 0)))
      ∧ (cmd = 6 → 1 ≤ arg → arg ≤ 3 → exec (.authEnd arg) s
          = .next (fin (cmdDone { u with cust := { u.cust with auth := c.auth.filter (fun p => !(p.1 == arg)) } } 0 0)))
      ∧ (cmd = 6 → arg = 0 ∨ 3 < arg → exec (.authEnd arg) s = .next (fin (cmdDone u 0x7F 0x04)))
      ∧ (cmd = 7 → arg ≤ 30 → (s.custRec arg).isOpen = true → ∃ t, exec (.reconDrop arg) s = .next (fin (cmdDone t 0 0))
          ∧ t.custRec arg = { s.custRec arg with phase := 5, secureT := s.time.secure / 1000000000 } ∧ t.cust.resolved = true ∧ t.cust.outcome = 3
          ∧ t.cust.recSettled = arg ∧ (∀ i, i ≠ arg → t.custRec i = s.custRec i))
      ∧ (cmd = 8 → arg = 0 → c.st ≠ 0 → ∃ t, exec (.deactivate arg) s = .next (fin (cmdDone t 0 0))
          ∧ t.cust.st = 6 ∧ t.cust.vcc = false ∧ t.cust.rstn = false ∧ t.cust.clkDiv = 0 ∧ t.cust.ioLow = true ∧ t.cust.op = .none)
      ∧ (cmd = 9 → arg = 0 → c.present = true → c.st = 6 → s.time.refUsed ≠ 0 → ∃ t, t = cmdDone u 0 0
          ∧ exec (.activate arg) s = .next (fin { t with cust :=
            { t.cust with second := false, st := 2, vcc := true, rstn := false, rstAt := none, clkDiv := 0, ioLow := true, waiting := false, actAt := s.time.mono } })))
    ∧ (∀ v st sub, v = cmdDone s st sub → v.cust = { c with busy := false, sts := c.cmd * 2 ^ 16 + sub * 2 ^ 8 + st } ∧ ⟨0, 8⟩ ∈ v.prompts)
    ∧ (∀ sig v, v = (authorizeDone s sig).cust →
      (p384Check (certKey (c.cert.getD [])) c.challenge sig = true → v.sts = c.cmd * 2 ^ 16
        ∧ v.auth = (if c.arg % 4 = 2 ∧ c.voided = true then [] else [(c.arg % 4, s.time.secure + (if c.arg % 4 = 3 then 3600 else 60) * 1000000000)])
          ++ c.auth.filter (fun p => !(p.1 == c.arg % 4)))
      ∧ (p384Check (certKey (c.cert.getD [])) c.challenge sig = false → v.auth = c.auth ∧ v.sts = c.cmd * 2 ^ 16 + 0x24 * 2 ^ 8 + 0x01))
    ∧ (∀ act, c.auth.any (fun p => p.1 == act && decide (p.2 ≤ s.time.secure)) = true →
      exec (.authExpiry act) s = .next (fin { s with cust := { c with auth := c.auth.filter (fun p => !(p.1 == act)) } }))
    ∧ (c.shares ≠ [] → c.sharesAt + 600000000000 ≤ s.time.secure →
      exec .shareHoldExpiry s = .next (fin { s with cust := { c with shares := [], sharesM := 0 } }))

-- Resets, start and alarms ----------------------------------------------------------------------------------------------------

/-- Resets (R60, R72, R94, R95, R101, R132, R471, R474, R509, R518, R544): BLKRST_N and PORST_N leave the start journal, each seat's generation, EPOCH and
the sealed block wrap key, the custodian's root and journal, secure time and its snapshot, BLKRST_N the registers of the VAON domain too, and no job, ring,
access, buffer, key or window content; responses are discarded for 10 us, judged on secure time (log entry 19, the model's choice); the start begins when the last of
them rises, and a custodian journal whose header fails its CRC is cleared and recorded (log entry 133 on NEXT_TXN, the model's choice); the loss of VAON takes the
retained memory and secure time, which its return starts at zero, and no start follows it (log entry 111, the model's choice). That ALARM_N rises at the reset (log entry
101) and that prompts that wait are dropped at it (log entry 77) are the model's choices too. -/
def Obligations.ResetsKeepWhatIsRetained : Prop :=
  ∀ (s : State) (kept : State → Prop),
    (kept = fun t => t.up = false ∧ t.start.state = 0 ∧ t.start.vaonBad = s.start.vaonBad ∧ t.params = s.params ∧ t.pending = s.pending
      ∧ t.journal = s.journal ∧ t.time.secure = s.time.secure ∧ t.time.secSnap = s.time.secSnap ∧ t.time.secGood = s.time.secGood ∧ t.time.runs = false
      ∧ t.seats = tabMap {} s.seats (fun _ x => { gen := x.gen, spent := x.spent }) ∧ (∀ i, (t.seat i).state = 0)
      ∧ t.keys = { epoch := s.keys.epoch, wrapStarts := s.keys.wrapStarts, epochGood := s.keys.epochGood, bwk := s.keys.bwk }
      ∧ t.cust.rootHash = s.cust.rootHash ∧ t.cust.rootSet = s.cust.rootSet ∧ t.cust.det = s.cust.det ∧ t.cust.nextTxn = s.cust.nextTxn
      ∧ (s.cust.jrec = none → t.cust.recs = s.cust.recs) ∧ t.cust.vcc = false ∧ t.cust.rstn = false ∧ t.cust.auth = [] ∧ t.cust.shares = []
      ∧ t.jobs = [] ∧ t.rings = [] ∧ t.offers = [] ∧ t.buffers = [] ∧ t.prompts = [] ∧ t.window = {} ∧ t.entropy = {} ∧ t.front = {} ∧ t.engines = {}
      ∧ t.place = {} ∧ t.seatRegs = {} ∧ t.mem.accesses = [] ∧ t.mem.discard = true ∧ t.mem.discardAt = s.time.secure ∧ alarmN t = true
      ∧ (∀ sd, t.hop sd = { link := (s.hop sd).link, rxPulses := if (s.hop sd).link then 128 else 0 })) →
    (s.start.porst = false → ∃ t, exec .porstNAssert s = .next t ∧ kept t ∧ t.start.porst = true ∧ t.start.acceptSmf = 0 ∧ t.start.imgSmf = 0
      ∧ t.alarms.lastA = 0 ∧ t.time.refKhz = 0)
    ∧ (s.start.blkrst = false → ∃ t, exec .blkrstNAssert s = .next t ∧ kept t ∧ t.start.blkrst = true ∧ t.start.accept = s.start.accept
      ∧ t.start.acceptSmf = s.start.acceptSmf ∧ t.start.acceptSqm = s.start.acceptSqm ∧ t.start.imagesValid = s.start.imagesValid
      ∧ t.start.imgSmf = s.start.imgSmf ∧ t.start.imgAlt = s.start.imgAlt ∧ t.start.imgSqm = s.start.imgSqm ∧ t.alarms.lastA = s.alarms.lastA
      ∧ t.time.refKhz = s.time.refKhz)
    ∧ (s.start.porst = true → exec .porstNAssert s = .next s) ∧ (s.start.blkrst = true → exec .blkrstNAssert s = .next s)
    ∧ (∀ u, s.start.porst = true → u = { s with start := { s.start with porst := false } } →
      exec .porstNRelease s = .next (carryAll (if u.up then startBegin u else u)))
    ∧ (∀ u, s.start.blkrst = true → u = { s with start := { s.start with blkrst := false } } →
      exec .blkrstNRelease s = .next (carryAll (if u.up then startBegin u else u)))
    ∧ (s.cust.badRecs = [] → (s.cust.jGood = true → (startBegin s).cust = s.cust)
      ∧ (s.cust.jGood = false → (startBegin s).cust = { s.cust with jGood := true, nextTxn := txnAfter s } ∧ (startBegin s).alarms = (alarmC s 0x4D 0 0).alarms))
    ∧ (s.journal.good = true → s.cust.jGood = true → s.cust.badRecs = [] → (startBegin s).start.running = some 1 ∧ (startBegin s).start.state = 1
      ∧ (startBegin s).journal.count = (s.journal.count + 1) % 2 ^ 32 ∧ (startBegin s).journal.last = (s.journal.last + 1) % 16
      ∧ (startBegin s).start.outcomes = 1 :: List.replicate 11 0
      ∧ ∀ w < 8, (startBegin s).start.plan9.testBit w = !s.journal.excl.testBit w)
    ∧ (s.mem.discard = true → s.mem.discardAt + 10000 ≤ s.time.secure →
      exec .resetResponseDiscardEnd s = .next { s with mem := { s.mem with discard := false } })
    ∧ (s.start.vaonBad = false → ∃ t, exec .vaonLoss s = .next t ∧ t.up = false ∧ t.start.imagesValid = false ∧ t.start.acceptSmf = 0 ∧ t.journal = {}
      ∧ t.seats = [] ∧ t.keys = {} ∧ t.time.secure = 0 ∧ t.time.secGood = false ∧ t.cust = { det := s.cust.det } ∧ t.alarms.lastA = 0)
    ∧ (∀ u, s.start.vaonBad = true → s.time.secGood = false → u = { s with
        start := { s.start with vaonBad := false, cold := !s.start.porst && !s.start.blkrst }
        time := { s.time with secure := 0, secGood := true, secRestarted := true } } →
      exec .vaonReturn s = .next (carryAll u) ∧ u.up = false)

/-- The start (R89, R102, R103, R104, R105, R106, R107, R108, R112, R117, R119, R122, R123, R124, R126, R127, R484, R503, R514): the root secret is latched and
judged, a passed step is written PASS and the next begins, a failed foundation step halts the block and a failed optional one does not, the pair
of images is looked up, the wings that step 1 planned are awake when step 9 ends and those that fail their test are excluded, the last step leads to READY;
the commands of the stage manager change the versions accepted, which voids an authorization for them, the failure counts and the optional steps, and end
with vector 2. A step that is at work when its bound has passed ends by what it has come to. That the bounds of steps 1 and 2 are met as the command says (log entry
59), that a version written voids an AUTHORIZE under way (log entry 92), which sources count as passed (log entry 112) and that RUN_STEP leaves STEP (log entry 100) are
the model's choices. -/
def Obligations.StartStepsLeadToService : Prop :=
  ∀ (s : State), s.up = true →
    (∀ info, (s.start.running = some 1 →
        exec (.startStepDone 1 true info) s = .next (carryAll (beginStep (putOutcome s 1 2) 2))
        ∧ exec (.startStepDone 1 false info) s = .next (carryAll (failHalt s 1)))
      ∧ (s.start.running = some 2 → exec (.startStepDone 2 true info) s = .next (carryAll (doneManager s)))
      ∧ (∀ r, s.start.running = some 3 → s.time.mono ≤ s.start.stepAt + 1100000 * 2 ^ 16 → s.start.rootKey = some r → s.start.rootBad = false →
        exec (.startStepDone 3 true info) s = .next (carryAll (beginEntropy (putOutcome (deriveBk s r) 3 2))))
      ∧ (s.start.running = some 4 → s.time.mono ≤ s.start.stepAt + 2000000 * 2 ^ 16 → s.alarms.bActive = false → 4 ≤ sourcesPassed s → drawOk s 0 = true →
        exec (.startStepDone 4 true info) s = .next (carryAll (beginStep (putOutcome (epochStep s) 4 2) 5)))
      ∧ (∀ t, s.start.running = some 8 → s.time.mono ≤ s.start.stepAt + 10000 * 2 ^ 16 → t = s.start →
        exec (.startStepDone 8 true info) s = .next (carryAll
          (if listed t.smfCompat t.smfVer t.sqmVer || listed t.sqmCompat t.smfVer t.sqmVer then beginWings (putOutcome s 8 2)
           else if t.accept ∧ t.smfVer = t.acceptSmf ∧ t.sqmVer = t.acceptSqm then beginWings (putOutcome s 8 7)
           else safeStage (putOutcome s 8 6) 8 3)))
      ∧ (s.start.running = some 9 → s.time.mono ≤ s.start.stepAt + 3000000 * 2 ^ 16 → (∀ w < 8, s.start.plan9.testBit w = true → (s.wing w).power = 2) →
        exec (.startStepDone 9 true info) s = .next (carryAll (doneWings s info)))
      ∧ ((doneWings s info).start.wingsActive = s.start.plan9 &&& info
        ∧ (doneWings s info).journal.excl = s.journal.excl ||| (s.start.plan9 - (s.start.plan9 &&& info)))
      ∧ (s.start.running ≠ some 10 → s.start.runStep = some 10 → s.time.mono ≤ s.start.stepAt + 1000000 * 2 ^ 16 → s.front.draining = false →
        exec (.startStepDone 10 true info) s = .next (carryAll (smgEnd (putOutcome (frontEnd s true true) 10 2) 0)))
      ∧ (s.start.running = some 11 → s.time.mono ≤ s.start.stepAt + 50000000 * 2 ^ 16 → s.relay.noBwk = false → s.relay.authFail = false →
        s.relay.formed = true → s.relay.member ≠ 0xFF → exec (.startStepDone 11 true info) s = .next (carryAll (enterReady (putOutcome s 11 2))))
      ∧ (s.start.step12 = true → s.start.runStep = none → s.cust.st = 4 → s.time.mono ≤ s.start.step12At + 1000000000 * 2 ^ 16 →
        exec (.startStepDone 12 true info) s = .next (carryAll (putOutcome { s with start := { s.start with step12 := false } } 12 2))))
    ∧ (s.start.running = some 4 → s.start.stepAt + 2000000 * 2 ^ 16 < s.time.mono → s.alarms.bActive = false →
      (sourcesPassed s < 4 → exec (.startStepBound 4) s = .next (carryAll (failHalt (alarmB s 0x20 (healthy s)) 4)))
      ∧ (4 ≤ sourcesPassed s → drawOk s 0 = true → exec (.startStepBound 4) s = .next (carryAll (beginStep (putOutcome (epochStep s) 4 2) 5)))
      ∧ (4 ≤ sourcesPassed s → drawOk s 0 = false → exec (.startStepBound 4) s = .next (carryAll (failHalt s 4))))
    ∧ (s.start.running = some 5 → s.start.stepAt + 100000 * 2 ^ 16 < s.time.mono → exec (.startStepBound 5) s = .next (carryAll (failHalt s 5)))
    ∧ (s.start.running = some 6 → s.start.stepAt + 5000000 * 2 ^ 16 < s.time.mono →
      exec (.startStepBound 6) s = .next (carryAll (safeStage (putOutcome s 6 5) 6 1)))
    ∧ (∀ o, o = (if s.relay.noBwk = false ∧ s.relay.authFail = false ∧ s.relay.formed = true ∧ s.relay.member ≠ 0xFF then 2 else 5) →
      s.start.stepAt + 50000000 * 2 ^ 16 < s.time.mono →
      (s.start.running = some 11 → exec (.startStepBound 11) s = .next (carryAll (enterReady (putOutcome s 11 o))))
      ∧ (s.start.running ≠ some 11 → s.start.runStep = some 11 →
        exec (.startStepBound 11) s = .next (carryAll (smgEnd (putOutcome s 11 o) (if o = 5 then 4 else 0)))))
    ∧ ((failHalt s 5).start.state = 5 ∧ (enterReady s).start.state = 3 ∧ (safeStage s 6 1).start.state = 4 ∧ (safeStage s 6 1).start.safeCause = 1
      ∧ ((enterReady s).seat 0).state = 2 ∧ (putOutcome s 6 5).start.outcomes.getD 5 0 = 5)
    ∧ (∀ d e, s.start.rootReq = true → s.time.mono ≤ s.start.stepAt + 1000000 * 2 ^ 16 → exec (.rootkeyAck d e) s = .next { s with start :=
        { s.start with rootReq := false, rootKey := some d.toNat, rootBad := e || d.toNat == 0 || d.toNat == 2 ^ 256 - 1 } })
    ∧ (s.start.rootReq = true → s.start.stepAt + 1000000 * 2 ^ 16 < s.time.mono → exec .rootkeyTimeout s = .next (fin (failHalt s 3)))
    ∧ (∀ v : W32, s.served 0x1001C = true → s.start.running ≠ some 6 → s.start.running ≠ some 7 →
      (s.start.state ≠ 2 ∨ v.toNat.testBit 0 = false →
        exec (.imagesValidWrite v) s = .next (carryAll { s with start := { s.start with imagesValid := v.toNat.testBit 0 } }))
      ∧ (s.start.state = 2 → v.toNat.testBit 0 = true →
        exec (.imagesValidWrite v) s = .next (carryAll (beginSmf { s with start := { s.start with imagesValid := true } }))))
    ∧ (∀ v : W32, (s.served 0x10028 = true → exec (.acceptVersionWrite false v) s = .next { s with
          start := { s.start with acceptSmf := v.toNat, accept := false }, cust := { s.cust with voided := true, auth := s.cust.auth.filter (fun p => !(p.1 == 2)) } })
      ∧ (s.served 0x1002C = true → exec (.acceptVersionWrite true v) s = .next { s with
          start := { s.start with acceptSqm := v.toNat, accept := false }, cust := { s.cust with voided := true, auth := s.cust.auth.filter (fun p => !(p.1 == 2)) } }))
    ∧ (s.served 0x10048 = true → s.start.cmdBusy = false →
      (∀ k, s.start.state ≠ 0 → 1 ≤ k → k ≤ 12 → exec (.clearFail k) s = .next (smgEnd { s with journal :=
          { s.journal with fails := (List.range 12).map (fun i => if i + 1 = k then 0 else s.journal.fails.getD i 0) } } 0))
      ∧ (s.start.state ≠ 0 → exec (.clearFail 0) s = .next (smgEnd { s with journal := { s.journal with fails := List.replicate 12 0 } } 0))
      ∧ (∀ u k, s.start.state = 3 → u = { s with start := { s.start with runStep := some k, cmdBusy := true, stepAt := s.time.mono, cardSeen := s.cust.det } } →
        (k = 10 → exec (.runStep k) s = .next (carryAll ((putOutcome u 10 1).modFront (fun f => { f with loading := true }))))
        ∧ (k = 11 → s.params.relayPresent = true → exec (.runStep k) s = .next (carryAll (relayBegin (putOutcome u 11 1))))
        ∧ (k = 12 → exec (.runStep k) s = .next (carryAll (putOutcome u 12 1))))
      ∧ (s.start.state ≠ 3 → ∀ k, exec (.runStep k) s = .next (carryAll (smgEnd s 3)))
      ∧ (s.start.state = 3 ∨ s.start.state = 4 → (authInForce s 2 = true → exec .acceptUntested s = .next (smgEnd { s with
            start := { s.start with accept := true }, cust := { s.cust with auth := s.cust.auth.filter (fun p => !(p.1 == 2)) } } 0))
        ∧ (authInForce s 2 = false → exec .acceptUntested s = .next (smgEnd s 1))))

/-- Alarms (R28, R34, R38, R42, R59, R63, R73, R224, R524, R525, R526, R527, R528, R529, R533, R534): a trip of an armed sensor and a lockstep mismatch raise their
alarm, the warning and AVD18 once until their condition ends, whose class A erases keys, instances and the pool, buffers, operands and results, the entries held of
associations and peers, window and hop keys and keeps its first cause; verification ends every job in flight with ALARM_ABORT, and memories that fail it are held; CLEAR_A
and CLEAR_B act when their condition allows and leave their result; a faulty sequencer is retired and a faulty wing gated and excluded; a lost port clock stalls its port
until it returns; an access that is not permitted raises ACCESS; an accepted prompt leaves. -/
def Obligations.AlarmsEraseAbortAndClear : Prop :=
  ∀ (s : State), s.up = true →
    (∀ x d0 d1, (tripsAt s x d0 d1 = false → exec (.sensorTrip x d0 d1) s = .next (carryAll (sensorRead s x d0)))
      ∧ (∀ u, tripsAt s x d0 d1 = true → u = { sensorRead s x d0 with alarms :=
          { (sensorRead s x d0).alarms with holds := (x, d0, d1) :: s.alarms.holds.filter (fun h => h.1 != x) } } →
        (s.alarms.armed = true → (x ≠ .tempWarn ∧ x ≠ .avd18) ∨ sensorHolds s x = false →
          exec (.sensorTrip x d0 d1) s = .next (carryAll (raiseTrip u x d0 d1)))
        ∧ (s.alarms.armed = false ∨ ((x = .tempWarn ∨ x = .avd18) ∧ sensorHolds s x = true) → exec (.sensorTrip x d0 d1) s = .next (carryAll u))))
    ∧ (∀ x, exec (.sensorConditionEnd x) s = .next { s with alarms := { s.alarms with holds := s.alarms.holds.filter (fun h => h.1 != x) } })
    ∧ exec .lockstep s = .next (carryAll (alarmA s 0x0C 0 0))
    ∧ (∀ c d0 d1 t, t = alarmA s c d0 d1 → t.alarms.aActive = true ∧ t.alarms.verifying = true
      ∧ t.alarms.aCause = (if s.alarms.aActive then s.alarms.aCause else c) ∧ (c = 0x0C → t.alarms.clearLock = true)
      ∧ t.keys.attrs = [] ∧ t.keys.scheds = [] ∧ t.keys.slots = [] ∧ t.keys.seatKeys = [] ∧ t.window.hash = [] ∧ t.window.part = []
      ∧ t.relay.east.keyed = false ∧ t.relay.west.keyed = false ∧ t.relay.rk = [] ∧ t.cust.auth = [] ∧ t.cust.shares = []
      ∧ t.entropy.inst = [] ∧ t.entropy.pool = [] ∧ t.front.cache = [] ∧ t.front.peers = [] ∧ (∀ b, tabGet [] t.buffers b = [])
      ∧ (∀ b, (t.bay b).lanes = []) ∧ (∀ w, (t.engine w).staged = none ∧ (t.engine w).loadFull = false ∧ (t.engine w).running = none)
      ∧ (∀ j ∈ t.jobs, j.outcome = none → j.key = [] ∧ j.drawn = [] ∧ j.got = [] ∧ j.entry = [] ∧ j.outs = [] ∧ j.inner = [] ∧ j.outer = [])
      ∧ alarmN t = t.start.porst)
    ∧ (∀ e : Erasure, s.alarms.verifying = true → ∃ t, exec (.erasureVerified e) s = .next (carryAll t) ∧ t.alarms.verifying = false
      ∧ t.alarms.eraseFail = (s.alarms.eraseFail || !e.clean) ∧ t.alarms.clearLock = (s.alarms.clearLock || !e.clean) ∧ (∀ m ∈ e.dirty, m ∈ t.alarms.heldMems)
      ∧ ((s.jobs.map (·.id)).Nodup → ∀ j ∈ s.jobs, j.outcome = none → ∃ k ∈ t.jobs, k.id = j.id ∧ ∃ o, k.outcome = some o ∧ o.status = stAlarmAbort)
      ∧ (s.alarms.step6 = true → ((∃ j ∈ s.jobs, j.outcome = none) → t.alarms.vec0Wait = true) ∧ ((∀ j ∈ s.jobs, j.outcome ≠ none) → ⟨0, 0⟩ ∈ t.prompts)))
    ∧ (s.served 0xB0004 = true →
      (clearAResult s = 0 → exec .clearA s = .next (carryAll { acceptA s with alarms := { (acceptA s).alarms with clearResult := 0 } }))
      ∧ (clearAResult s ≠ 0 → exec .clearA s = .next (carryAll { s with alarms :=
          { s.alarms with clearResult := if clearAResult s = 1 ∨ clearAResult s = 3 then clearAResult s else 4 } }))
      ∧ (clearBResult s = 0 → exec .clearB s = .next (carryAll { acceptB s with alarms := { (acceptB s).alarms with clearResult := 0 } }))
      ∧ (clearBResult s ≠ 0 → exec .clearB s = .next (carryAll { s with alarms := { s.alarms with clearResult := clearBResult s } })))
    ∧ (acceptA s).alarms = { s.alarms with aActive := false, aCause := 0 } ∧ ⟨0, 0⟩ ∈ (acceptA s).prompts
    ∧ (acceptB s).alarms = { s.alarms with bActive := false, bCause := 0 } ∧ ⟨0, 0⟩ ∈ (acceptB s).prompts
    ∧ ((clearAResult s = 0 ↔ s.alarms.aActive = true ∧ s.alarms.clearLock = false ∧ s.alarms.verifying = false
          ∧ ∀ h ∈ s.alarms.holds, 7 ≤ sensorBit h.1) ∧ (clearBResult s = 0 ↔ s.alarms.bActive = true ∧ 4 ≤ healthy s))
    ∧ (∀ b, b < 64 → s.bayOk b = true → exec (.sequencerFault b) s = .next (carryAll (sequencerFault s b)) ∧ (sequencerFault s b).bayOk b = false
      ∧ ((s.jobs.map (·.id)).Nodup → ∀ j ∈ s.jobs, j.outcome = none → heldInBay b j = true → alarmNow s = false →
        ∃ k ∈ (sequencerFault s b).jobs, k.id = j.id ∧ ∃ o, k.outcome = some o ∧ o.status = stInternal ∧ o.sub = 0x0C))
    ∧ (∀ w, w < 8 → s.wingOk w = true → exec (.wingFailure w) s = .next (carryAll (wingFailure s w)) ∧ (wingFailure s w).wingOk w = false
      ∧ (wingFailure s w).journal.excl.testBit w = true ∧ ((wingFailure s w).wing w).power = 0)
    ∧ (∀ p, (s.time.runs = true → p ∉ s.mem.stalled → exec (.portClockLost p) s
        = .next (alarmC { s with mem := { s.mem with stalled := p :: s.mem.stalled } } 0x41 (clkNumber p) 0))
      ∧ exec (.portClockReturn p) s = .next (carryAll (sendHello (hopDrain (hopDrain { s with mem :=
          { s.mem with stalled := s.mem.stalled.filter (· != p) } } .east) .west) false)))
    ∧ (∀ src o w, src < 2048 → o < 2 ^ 24 → o % 4 = 0 → permitted src o w = false → s.start.state ≠ 5 → s.hostOpen = true →
      exec (.accessViolation src o w) s = .next (alarmC s 0x40 o ((if w then 2048 else 0) + src)))
    ∧ (∀ p q, s.mem.stalled.contains .hclk = false → s.prompts = p :: q → exec .promptAccept s = .next { s with prompts := q })

/-- Answers of memory (R59, R66, R67, R68, R69, R70, R71, R72, R136, R137, R138): the last beat of a read hands its bytes to the owner and frees the tag, an
earlier one is kept, a walk's beat is judged, an acknowledgement makes the write visible and closes it; RSP_ERR is at once a fault of the request, with an
alarm for a walk, and a read burst keeps its tag until its last beat (log entry 78, the model's choice); while responses are discarded, or the port's clock
is lost, nothing changes, and an answer to no request is a fault, the model's choice for surroundings that break their bounds (log entry 22). -/
def Obligations.MemoryAnswersReachTheirOwner : Prop :=
  ∀ (s : State) (port tag : Nat) (beat : Bytes), beat.length = 128 →
    (s.mem.discard = true ∨ portStalled s port = true → ∀ l, exec (.memReadData port tag beat l) s = .next s ∧ exec (.memWriteAck port tag) s = .next s
      ∧ exec (.memRspErr port ⟨tag, l⟩) s = .next s)
    ∧ (s.mem.discard = false → portStalled s port = false →
      ((∀ a ∈ s.mem.accesses, a.on ≠ some (port, tag)) → ∀ l, exec (.memReadData port tag beat l) s = .fault .unsolicitedResponse
        ∧ exec (.memWriteAck port tag) s = .fault .unsolicitedResponse ∧ exec (.memRspErr port ⟨tag, l⟩) s = .fault .unsolicitedResponse)
      ∧ (∀ a, answered s port tag = some a →
        (∀ phys, a.st = .out phys port tag → a.write = false →
          (128 * ((phys % 128 + a.len + 127) / 128) ≤ a.data.length + 128 →
            exec (.memReadData port tag beat true) s = .next (carryAll (deliver s a (sliceZ (a.data ++ beat) (phys % 128) a.len)))
            ∧ exec (.memRspErr port ⟨tag, true⟩) s = .next (carryAll (onFault s a 0x10 none)))
          ∧ (a.data.length + 128 < 128 * ((phys % 128 + a.len + 127) / 128) →
            exec (.memReadData port tag beat false) s = .next { s with mem :=
              { s.mem with accesses := s.mem.accesses.map (fun x => if x.id == a.id then { x with data := a.data ++ beat } else x) } }
            ∧ exec (.memRspErr port ⟨tag, false⟩) s = .next (carryAll (onFault s a 0x10 (some (a.data ++ zeros 128))))))
        ∧ (∀ l t e, a.st = .walkOut l t port tag → a.owner ≠ .orphan → e = fieldLE beat ((t + 8 * (a.va / 2 ^ (39 - 9 * l) % 512)) % 128) 8 →
          (∀ n, walkEntry l e = .table n → exec (.memReadData port tag beat true) s = .next (carryAll { s with mem :=
              { s.mem with accesses := s.mem.accesses.map (fun x => if x.id == a.id then { x with st := .walk (l + 1) n } else x) } }))
          ∧ (∀ n r w u, walkEntry l e = .leaf n r w →
            u = tlbAdd s { seat := a.seat, page := a.va / 2 ^ (39 - 9 * l), base := n, r := r, w := w, log2 := 39 - 9 * l } →
            (∀ c, permFault r w a.write = some c → exec (.memReadData port tag beat true) s = .next (carryAll (onFault u a c none)))
            ∧ (permFault r w a.write = none → exec (.memReadData port tag beat true) s = .next (carryAll (u.modAccess a.id (fun x =>
                { x with st := .ready (n + a.va % 2 ^ (39 - 9 * l)) })))))
          ∧ (∀ c, walkEntry l e = .fault c → exec (.memReadData port tag beat true) s = .next (carryAll (onFault s a c none))))
        ∧ (∀ phys, a.st = .out phys port tag → a.write = true →
          exec (.memWriteAck port tag) s = .next (carryAll (writesClosed
            (ackOwner { s with mem := { s.mem with accesses := s.mem.accesses.filter (fun x => !(x.id == a.id)) } } a) a.seat))
          ∧ exec (.memRspErr port ⟨tag, true⟩) s = .next (carryAll (writesClosed (onFault s a 0x10 none) a.seat)))
        ∧ (∀ l t, a.st = .walkOut l t port tag → exec (.memRspErr port ⟨tag, true⟩) s
            = .next (carryAll (onFault (alarmC s 0x43 a.seat 0) a 0x11 none)))))
    ∧ (∀ l e, walkEntry l e = (if e.testBit 0 = false then .fault 1 else if bits e 11 4 ≠ 0 ∨ (e.testBit 3 = true ∧ l = 0) ∨ (e.testBit 3 = false ∧ l = 3)
        ∨ (e.testBit 3 = true ∧ e / 4096 * 4096 % 2 ^ (39 - 9 * l) ≠ 0) then .fault 5
      else if e.testBit 3 then .leaf (e / 4096 * 4096) (e.testBit 1) (e.testBit 2) else .table (e / 4096 * 4096)))

-- Seats ---------------------------------------------------------------------------------------------------------------------

/-- Seat commands (R129, R130, R131, R148, R151, R154, R155, R157, R158, R159, R161): a command the table lists for the state of its seat is accepted with
RESULT 0 and takes its effect, START and RESTART put held settings in force, CURTAIN records the producer indexes, RESET drops the seat's jobs, whatever
other transition is in progress, DISABLE advances the generation, the migration commands begin their transition; seat 0, a transition in progress, any
other state, settings that fail their checks, a spent seat, a buffer too short, no offer and a lost provider refuse each command with their RESULT and nothing else. That CONFIGURE is refused outside READY (log entry 90), which providers a migration needs (log entry 88) and that
migrations work one after another (log entry 52) are the model's choices. -/
def Obligations.SeatCommandsFollowTheirTable : Prop :=
  ∀ (s : State) (m : Nat) (t : Seat), t = s.seat m → s.served 0x20000 = true → 1 ≤ m → m < 1024 →
    ∀ (a : Nat → State), (a = fun c => { s with seatRegs := { s.seatRegs with cmdSts := c * 2 ^ 24 + m } }) →
    (t.transit = .none →
      (t.state = 0 → s.start.state = 3 → t.spent = false → settingsOk (a 1) m = true →
        exec (.configure m) s = .next (carryAll ((a 1).setSeat m { t with state := 1 })))
      ∧ (t.state = 1 → settingsOk (a 2) m = true → exec (.start m) s = .next (carryAll (startCmd (a 2) m))
        ∧ ((startCmd (a 2) m).seat m).state = 2 ∧ ((startCmd (a 2) m).seat m).bucket = 65536 ∧ ((startCmd (a 2) m).seat m).act = t.set)
      ∧ (∀ sq, t.state = 2 → exec (.curtain m sq) s = .next (carryAll (curtainCmd (a 3) m sq)) ∧ ((curtainCmd (a 3) m sq).seat m).transit = .curtain sq
        ∧ ∀ i < 16, ((curtainCmd (a 3) m sq).ring m i).cut = some (s.ring m i).db)
      ∧ (t.state = 3 → settingsOk (a 4) m = true → exec (.restart m) s = .next (carryAll (restartCmd (a 4) m))
        ∧ ((restartCmd (a 4) m).seat m).state = 2 ∧ ((restartCmd (a 4) m).seat m).act = t.set)
      ∧ (t.state = 1 ∨ (t.state = 4 ∧ t.saved = true) → exec (.disable m) s = .next (carryAll (disableCmd (a 6) m))
        ∧ ((disableCmd (a 6) m).seat m).state = 0 ∧ ((disableCmd (a 6) m).seat m).gen = (if t.gen < 0xFFFF then t.gen + 1 else t.gen)
        ∧ (t.gen = 0xFFFF → ((disableCmd (a 6) m).seat m).spent = true) ∧ ((disableCmd (a 6) m).seat m).set = {}
        ∧ ∀ i < 16, (disableCmd (a 6) m).ring m i = {})
      ∧ (t.state = 3 → exec (.freeze m) s = .next (carryAll (freezeCmd (a 7) m)))
      ∧ (t.state = 4 → t.saved = false → exec (.thaw m) s = .next (carryAll ((a 8).setSeat m { t with state := 3 })))
      ∧ (t.state = 1 → migProviders s = true → 1232 ≤ s.seatRegs.migBufLen → exec (.migOffer m) s = .next (carryAll (migBegin (a 9) m .offer)))
      ∧ (t.state = 4 → t.saved = false → migProviders s = true → exec (.save m) s = .next (carryAll (migBegin (a 10) m .save)))
      ∧ (t.state = 1 → t.offer = true → migProviders s = true → 1184 ≤ s.seatRegs.migBufLen →
        exec (.restore m) s = .next (carryAll (migBegin (a 11) m .restore)))
      ∧ (t.state = 1 → t.offer = true →
        exec (.migCancel m) s = .next (carryAll { (a 12).setSeat m { t with offer := false } with offers := tabSet {} s.offers m {} }))
      ∧ (t.state ≠ 2 → ∀ sq, exec (.curtain m sq) s = .next (carryAll { s with seatRegs := { s.seatRegs with cmdSts := 3 * 2 ^ 24 + 2 ^ 16 + m } })))
    ∧ ((∀ b, t.transit ≠ .reset b) → t.state = 1 ∨ t.state = 2 ∨ t.state = 3 ∨ (t.state = 4 ∧ t.saved = false) →
      exec (.reset m) s = .next (carryAll (resetCmd (a 5) m))
      ∧ ((resetCmd (a 5) m).seat m).transit = .reset s.time.mono ∧ (∀ j ∈ (resetCmd (a 5) m).jobs, resetJob m j = false)
      ∧ ∀ i < 16, ((resetCmd (a 5) m).ring m i).set.enable = false ∧ ((resetCmd (a 5) m).ring m i).db = 0)
    ∧ (∀ (sq : Bool) (n : Nat → List (Nat × Instr × Bool)) (refused : Nat → Nat → Nat → Host.Outcome State Fault Refusal),
      n = (fun m => [(1, .configure m, t.state == 0), (2, .start m, t.state == 1), (3, .curtain m sq, t.state == 2), (4, .restart m, t.state == 3),
        (5, .reset m, t.state == 1 || t.state == 2 || t.state == 3 || (t.state == 4 && !t.saved)), (6, .disable m, t.state == 1 || (t.state == 4 && t.saved)),
        (7, .freeze m, t.state == 3), (8, .thaw m, t.state == 4 && !t.saved), (9, .migOffer m, t.state == 1), (10, .save m, t.state == 4 && !t.saved),
        (11, .restore m, t.state == 1), (12, .migCancel m, t.state == 1 && t.offer)]) →
      refused = (fun c r m => .next (carryAll { s with seatRegs := { s.seatRegs with cmdSts := c * 2 ^ 24 + r * 2 ^ 16 + m } })) →
      (∀ p ∈ n 0, exec p.2.1 s = refused p.1 0x0A 0)
      ∧ (s.start.state ≠ 3 → exec (.configure m) s = refused 1 1 m)
      ∧ (t.transit ≠ .none → ∀ p ∈ n m, (p.1 = 1 → s.start.state = 3) → (p.1 = 5 → ∃ b, t.transit = .reset b) → exec p.2.1 s = refused p.1 3 m)
      ∧ (t.transit = .none → ∀ p ∈ n m, p.2.2 = false → exec p.2.1 s = refused p.1 1 m)
      ∧ (t.transit = .none →
        (t.state = 0 → s.start.state = 3 → (t.spent = true → exec (.configure m) s = refused 1 9 m)
          ∧ (t.spent = false → settingsOk (a 1) m = false → exec (.configure m) s = refused 1 2 m))
        ∧ (t.state = 1 → settingsOk (a 2) m = false → exec (.start m) s = refused 2 2 m)
        ∧ (t.state = 3 → settingsOk (a 4) m = false → exec (.restart m) s = refused 4 2 m)
        ∧ (t.state = 1 → (migProviders s = false → exec (.migOffer m) s = refused 9 1 m)
          ∧ (migProviders s = true → s.seatRegs.migBufLen < 1232 → exec (.migOffer m) s = refused 9 4 m))
        ∧ (t.state = 4 → t.saved = false → migProviders s = false → exec (.save m) s = refused 10 1 m)
        ∧ (t.state = 1 → (t.offer = false → exec (.restore m) s = refused 11 6 m)
          ∧ (t.offer = true → migProviders s = false → exec (.restore m) s = refused 11 1 m)
          ∧ (t.offer = true → migProviders s = true → s.seatRegs.migBufLen < 1184 → exec (.restore m) s = refused 11 7 m))))

/-- Transitions end and settings are taken (R139, R141, R143, R148, R151, R152, R156, R159, R162, R164, R168, R271): a quiet curtain is CURTAINED with vector
1, a reset reports CONFIGURED with vector 1, with WRITES_OPEN and an alarm when a write made before it is still open, FREEZE ends in FROZEN, the last step
of MIG_OFFER, SAVE and RESTORE sets OFFER, SAVED or FROZEN with vector 1, and the next migration accepted begins; a share or setting in range is written and
any other sets CFG_REJECT; an invalidation drops the translations its word covers and ends when the walks before it have; a read of the fault log clears it. -/
def Obligations.SeatTransitionsEndAndSettingsAreTaken : Prop :=
  ∀ (s : State) (m : Nat) (t : Seat), t = s.seat m → m < 1024 →
    (s.up = true →
      (∀ sq, t.transit = .curtain sq → (∀ i < 16, cutReached (s.ring m i) = true) → (∀ j ∈ s.jobs, holdsCurtain m j = false) → seatWrites s m = false →
        ∃ u, exec (.curtainQuiet m) s = .next (carryAll (vector u 1)) ∧ u.seat m = { t with state := 3, transit := .none }
          ∧ ∀ i < 16, u.ring m i = { s.ring m i with cut := none })
      ∧ (∀ b, t.transit = .reset b → oldWrites s m = false → ∃ u, exec (.resetReport m) s = .next (carryAll (vector (zeroInst (s.setSeat m u) m) 1))
          ∧ u = { t with state := 1, transit := .none, resetJobs := [], saved := false, writesOpen := false, credit := if admitRate t = 0 then t.credit else admitDepth t })
      ∧ (∀ b, t.transit = .reset b → oldWrites s m = true → b + 100000 * 2 ^ 16 ≤ s.time.mono → ∃ u,
          exec (.resetReport m) s = .next (carryAll (vector (zeroInst (alarmC (s.setSeat m u) 0x45 m 0) m) 1)) ∧ u.state = 1 ∧ u.transit = .none ∧ u.writesOpen = true)
      ∧ (s.alarms.verifying = false → t.transit = .freeze → flushed (freezeFlush s m) m = true → ∃ u,
          exec (.seatTransitionEnd m) s = .next (carryAll (vector u 1)) ∧ (u.seat m).state = 4 ∧ (u.seat m).transit = .none)
      ∧ (∀ k (more : State → State), s.alarms.verifying = false → s.seatRegs.migSeat = some m → migIdle s = true →
        (more = fun u => (List.range 7).foldl (fun u _ => migStep (migTake u) true) u) →
        (∀ u, u = migEnd (((setOffer s m { ident := tabGet [] k 0, xPriv := tabGet [] k 1, kemDk := tabGet [] k 2 }).modSeat
            m (fun t => { t with offer := true })).modRegs (fun g => { g with migLen := 1232 })) 0 → t.transit = .offer → s.seatRegs.migStep ≠ 0 →
          k = s.seatRegs.migKeys → exec (.seatTransitionEnd m) s = .next (carryAll (more u)) ∧ (u.seat m).offer = true ∧ (u.seat m).transit = .none)
        ∧ (∀ u, u = saveEnd s m → t.transit = .save → 6 ≤ s.seatRegs.migStep →
          exec (.seatTransitionEnd m) s = .next (carryAll (more u)) ∧ (u.seat m).saved = true ∧ (u.seat m).transit = .none)
        ∧ (∀ u, u = restoreEnd s m → t.transit = .restore → 4 ≤ s.seatRegs.migStep →
          exec (.seatTransitionEnd m) s = .next (carryAll (more u)) ∧ (u.seat m).state = 4 ∧ (u.seat m).offer = false ∧ (u.seat m).transit = .none)
        ∧ (∀ u, u.seatRegs.migSeat = none → u.seatRegs.migQueue = [] → more u = u)))
    ∧ (∀ w (v : W32), w < 3 → s.served (0x28004 + m * 0x20 + w * 4) = true →
      (shareOk w v.toNat = true → exec (.shareWrite m w v) s = .next (fin ((latchEpoch s).setSeat m (sharePut t w v.toNat))))
      ∧ (shareOk w v.toNat = false → exec (.shareWrite m w v) s = .next (fin (s.setSeat m { t with cfgReject := true }))))
    ∧ (∀ o (v : W32), 0x0C ≤ o → o ≤ 0x20 → s.served (0x20000 + o) = true → m = s.seatRegs.sel →
      (o ≠ 0x0C ∨ bits v.toNat 15 8 ≠ 0 →
        (m ≠ 0 → t.state = 0 ∨ t.state = 1 →
          exec (.seatXWrite o v) s = .next (fin (applySeatX (s.setSeat m { t with set := setWord t.set o v.toNat }) m)))
        ∧ (m ≠ 0 → t.state = 3 → exec (.seatXWrite o v) s = .next (fin (s.setSeat m { t with set := setWord t.set o v.toNat })))
        ∧ (m = 0 → seatXOpen s 0 = true → exec (.seatXWrite o v) s = .next (fin (s.setSeat 0 { t with set := setWord t.set o v.toNat }))))
      ∧ (m ≠ 0 ∧ (t.state = 2 ∨ t.state = 4) ∨ m = 0 ∧ seatXOpen s 0 = false →
        exec (.seatXWrite o v) s = .next (fin (s.setSeat m { t with cfgReject := true }))))
    ∧ (∀ v : W32, s.served 0x20040 = true → s.mem.inv = none → v.toNat / 2 ^ 30 < 2 ∨ (v.toNat / 2 ^ 30 = 2 ∧ bits v.toNat 29 16 ≠ 0) →
      ∃ u, exec (.atuInvalidate v) s = .next (fin u) ∧ u.mem.tlb = s.mem.tlb.filter (fun e => !invCovers v.toNat s.seatRegs.invAddr e)
        ∧ u.mem.inv = some (v.toNat, s.seatRegs.invAddr, s.mem.nextId))
    ∧ (∀ w b k, s.up = true → s.mem.inv = some (w, b, k) → (∀ x ∈ s.mem.accesses, walking k x = false) →
      ∃ u, exec .atuInvalidateDone s = .next (fin u) ∧ u.mem.inv = none ∧ u.mem.tlb = s.mem.tlb.filter (fun e => !invCovers w b e))
    ∧ (s.served 0x20050 = true →
      exec .atuFaultRead s = .next { s with seatRegs := { s.seatRegs with readData := w32 s.seatRegs.fault, fault := 0 } })

-- The whole machine -----------------------------------------------------------------------------------------------------------

/-- After the first power-up (R94, R125, R132, R143, R167, R312, R360, R467, R474, R508, R523, R540) every seat is unconfigured with generation 0 and the
shares, options and budgets its registers give, no ring, job, access, prompt or command is held, the window is idle, no alarm is in force, the registers
of time, alarms and the card port read the reset values of their tables, and the modes are legal. -/
def Obligations.ResetLeavesTheStatedValues : Prop :=
  State.reset.pending = [] ∧ State.reset.start.state = 0 ∧ State.reset.jobs = [] ∧ State.reset.rings = [] ∧ State.reset.mem.accesses = []
    ∧ State.reset.prompts = [] ∧ State.reset.window.st = 0
    ∧ (∀ i, (State.reset.seat i).state = 0 ∧ (State.reset.seat i).gen = 0 ∧ (State.reset.seat i).spent = false
      ∧ (State.reset.seat i).shareW = 0x00400001 ∧ (State.reset.seat i).shareJ = 0x00100100 ∧ (State.reset.seat i).shareK = 0x00040100
      ∧ (State.reset.seat i).set.opts = 0x3206 ∧ (State.reset.seat i).admitW = 0x04000000 ∧ (State.reset.seat i).strg = 0x01000000)
    ∧ readReg State.reset 0x80030 = 0x186A0 ∧ readReg State.reset 0xB0014 = 0x64 ∧ readReg State.reset 0xB0030 = 0 ∧ readReg State.reset 0xA0010 = 0x00140532
    ∧ readReg State.reset 0xB0000 = 0 ∧ State.reset.alarms.log = [] ∧ State.reset.time.secRestarted = false ∧ legalModes State.reset

/-- From any state with legal modes, whatever command is at the front, a step that answers a next state leaves legal modes: SMG_START_STATE, the
window's state and CARD_STATE name a mode of their tables (R115, R312, R508), and TIME_SEQ counts modulo 4 (R79). -/
def Obligations.EveryStepKeepsLegalModes : Prop :=
  ∀ (s t : State), legalModes s → step s = .next t → legalModes t

/-- What a command may change (R108, R159, R312, R458, R508): every command leaves the digest window, the start journal, the time
base, the card port and the private halves of offers as they are, unless it is one of those that act on that part. Work that waits goes on after a command
(jobs advance, requests for memory leave, records are written); but for that, every command leaves the seats, the rings, the jobs, the key store, the alarm
registers and sensors, memory accesses, the packet front, the relay ring, the entropy farm, the engines, the dispatcher's tables, the bay buffers and the start
sequencer each as it is, unless it is one of those that act on that part. A command of one seat leaves another alone: a write to a ring of a seat leaves every
other seat, its rings, every job and the key store as they are; a seat command leaves every other seat, its rings, its jobs (where no two jobs share a name)
and its keys. -/
def Obligations.EachPartChangesByItsOwnCommands : Prop :=
  (∀ (c : Instr) (s t : State), exec c s = .next t →
    (movesWindow c = false → t.window = s.window) ∧ (movesJournal c = false → t.journal = s.journal) ∧ (movesTime c = false → t.time = s.time)
    ∧ (movesCust c = false → t.cust = s.cust) ∧ (movesOffers c = false → t.offers = s.offers)
    ∧ ∃ u, follows u t
      ∧ (actsOnSeats c = false → u.seats = s.seats) ∧ (actsOnRings c = false → u.rings = s.rings) ∧ (actsOnJobs c = false → u.jobs = s.jobs)
      ∧ (actsOnKeys c = false → u.keys = s.keys) ∧ (actsOnAlarms c = false → u.alarms = s.alarms) ∧ (actsOnMem c = false → u.mem = s.mem)
      ∧ (actsOnFront c = false → u.front = s.front) ∧ (actsOnRelay c = false → u.relay = s.relay) ∧ (actsOnEntropy c = false → u.entropy = s.entropy)
      ∧ (actsOnEngines c = false → u.engines = s.engines) ∧ (actsOnPlace c = false → u.place = s.place)
      ∧ (actsOnBuffers c = false → u.buffers = s.buffers) ∧ (actsOnStart c = false → u.start = s.start))
  ∧ (∀ (s : State) (src m k slot reg : Nat) (v : W32) (b : Bool), m < 1024 → k ≠ m →
    ∀ c ∈ [Instr.doorbell src m slot v, .cqHeadWrite src m slot v, .ringEnable src m slot b, .ringDisable src m slot b, .resume src m slot,
           .ringSettingWrite src m slot reg v],
      ∃ u, exec c s = .next (fin u) ∧ u.seat k = s.seat k ∧ (∀ i < 16, u.ring k i = s.ring k i) ∧ u.jobs = s.jobs ∧ u.keys = s.keys)
  ∧ (∀ (s : State) (m k : Nat) (sq : Bool), m < 1024 → k ≠ m →
    ∀ c ∈ [Instr.configure m, .start m, .curtain m sq, .restart m, .reset m, .disable m, .freeze m, .thaw m, .migCancel m],
      ∃ u, exec c s = .next (carryAll u) ∧ u.seat k = s.seat k ∧ (∀ i < 16, u.ring k i = s.ring k i)
        ∧ ((s.jobs.map (·.id)).Nodup → u.jobs.filter (fun j => j.seat == k) = s.jobs.filter (fun j => j.seat == k))
        ∧ u.keys.attrs.filter (fun a => a.seat == k) = s.keys.attrs.filter (fun a => a.seat == k)
        ∧ u.keys.scheds.filter (fun a => a.seat == k) = s.keys.scheds.filter (fun a => a.seat == k)
        ∧ u.keys.slots.filter (fun a => a.seat == k) = s.keys.slots.filter (fun a => a.seat == k))
end

