-- ==== Sys2Proof/Laws/State.lean ====
section
/-! SUPPORT. The laws of the sparse tables (a read after a write, and their canonical form) and of the state's tables; for each update of a table, the
fields of State it leaves alone. The updates of a whole part stand in Laws/Updates.lean. -/

namespace Sys2Proof.Machine

-- Read after write ----------------------------------------------------------------------------------------------------------

@[simp] theorem tabGet_tabPut_same {α : Type} (d : α) (t : List (Nat × α)) (i : Nat) (v : α) : tabGet d (tabPut t i v) i = v := by
  induction t with
  | nil => simp [tabPut, tabGet]
  | cons p t ih =>
    obtain ⟨k, w⟩ := p
    unfold tabPut
    split
    · simp [tabGet]
    · split
      · simp [tabGet]
      · rename_i h
        simp [tabGet, ih, Ne.symm h]

theorem tabGet_tabPut_other {α : Type} (d : α) (t : List (Nat × α)) (i j : Nat) (v : α) (h : j ≠ i) :
    tabGet d (tabPut t i v) j = tabGet d t j := by
  induction t with
  | nil => simp [tabPut, tabGet, Ne.symm h]
  | cons p t ih =>
    obtain ⟨k, w⟩ := p
    unfold tabPut
    split
    · simp [tabGet, Ne.symm h]
    · split
      · rename_i e; subst e; simp [tabGet, Ne.symm h]
      · simp [tabGet, ih]

@[simp] theorem tabGet_tabDel_same {α : Type} (d : α) (t : List (Nat × α)) (i : Nat) : tabGet d (tabDel t i) i = d := by
  induction t with
  | nil => rfl
  | cons p t ih =>
    obtain ⟨k, w⟩ := p
    by_cases h : k = i <;> simp_all [tabDel, tabGet]

theorem tabGet_tabDel_other {α : Type} (d : α) (t : List (Nat × α)) (i j : Nat) (h : j ≠ i) : tabGet d (tabDel t i) j = tabGet d t j := by
  induction t with
  | nil => rfl
  | cons p t ih =>
    obtain ⟨k, w⟩ := p
    by_cases e : k = i
    · subst e; simp_all [tabDel, tabGet, Ne.symm h]
    · simp_all [tabDel, tabGet]

@[simp] theorem tabGet_tabSet_same {α : Type} [DecidableEq α] (d : α) (t : List (Nat × α)) (i : Nat) (v : α) : tabGet d (tabSet d t i v) i = v := by
  unfold tabSet; split <;> simp_all

theorem tabGet_tabSet_other {α : Type} [DecidableEq α] (d : α) (t : List (Nat × α)) (i j : Nat) (v : α) (h : j ≠ i) :
    tabGet d (tabSet d t i v) j = tabGet d t j := by
  unfold tabSet; split
  · exact tabGet_tabDel_other d t i j h
  · exact tabGet_tabPut_other d t i j v h

-- The canonical form --------------------------------------------------------------------------------------------------------

/-- Every key of a sorted table lies above a key that stands before them all. -/
theorem tabSorted_cons {α : Type} (k : Nat) (w : α) (t : List (Nat × α)) :
    tabSorted ((k, w) :: t) = true ↔ (∀ p ∈ t, k < p.1) ∧ tabSorted t = true := by
  induction t generalizing k w with
  | nil => simp [tabSorted]
  | cons p t ih =>
    obtain ⟨k', w'⟩ := p
    rw [tabSorted]
    simp only [Bool.and_eq_true, decide_eq_true_eq, List.mem_cons, forall_eq_or_imp, ih]
    constructor
    · rintro ⟨h, h1, h2⟩
      exact ⟨⟨h, fun p hp => Nat.lt_trans h (h1 p hp)⟩, h1, h2⟩
    · rintro ⟨⟨h, _⟩, h1, h2⟩
      exact ⟨h, h1, h2⟩

theorem tabSorted_filter {α : Type} (f : Nat × α → Bool) (t : List (Nat × α)) (h : tabSorted t = true) : tabSorted (t.filter f) = true := by
  induction t with
  | nil => rfl
  | cons p t ih =>
    obtain ⟨k, w⟩ := p
    rw [tabSorted_cons] at h
    rw [List.filter_cons]
    split
    · rw [tabSorted_cons]
      exact ⟨fun p hp => h.1 p (List.mem_filter.mp hp).1, ih h.2⟩
    · exact ih h.2

theorem mem_tabPut {α : Type} (t : List (Nat × α)) (i : Nat) (v : α) (p : Nat × α) (h : p ∈ tabPut t i v) : p = (i, v) ∨ p ∈ t := by
  induction t with
  | nil => simpa [tabPut] using h
  | cons q t ih =>
    obtain ⟨k, w⟩ := q
    unfold tabPut at h
    split at h
    · simpa using h
    · split at h
      · simp only [List.mem_cons] at h ⊢
        rcases h with h | h
        · exact .inl h
        · exact .inr (.inr h)
      · simp only [List.mem_cons] at h ⊢
        rcases h with h | h
        · exact .inr (.inl h)
        · rcases ih h with h | h
          · exact .inl h
          · exact .inr (.inr h)

theorem tabSorted_tabPut {α : Type} (t : List (Nat × α)) (i : Nat) (v : α) (h : tabSorted t = true) : tabSorted (tabPut t i v) = true := by
  induction t with
  | nil => rfl
  | cons q t ih =>
    obtain ⟨k, w⟩ := q
    have hs := h
    rw [tabSorted_cons] at h
    unfold tabPut
    split
    · rename_i hlt
      rw [tabSorted_cons]
      refine ⟨fun p hp => ?_, hs⟩
      rcases List.mem_cons.mp hp with e | e
      · rw [e]; exact hlt
      · exact Nat.lt_trans hlt (h.1 p e)
    · split
      · rename_i e; rw [e, tabSorted_cons]; exact h
      · rw [tabSorted_cons]
        refine ⟨fun p hp => ?_, ih h.2⟩
        rcases mem_tabPut t i v p hp with e | e
        · rw [e]; simp only; omega
        · exact h.1 p e

/-- Writing an entry keeps the canonical form. -/
theorem tabWf_tabSet {α : Type} [DecidableEq α] (d : α) (t : List (Nat × α)) (i : Nat) (v : α) (h : tabWf d t = true) : tabWf d (tabSet d t i v) = true := by
  unfold tabWf at *
  rw [Bool.and_eq_true] at *
  unfold tabSet
  split
  · exact ⟨tabSorted_filter _ t h.1, List.all_eq_true.mpr fun p hp => List.all_eq_true.mp h.2 p (List.mem_filter.mp hp).1⟩
  · rename_i hv
    refine ⟨tabSorted_tabPut t i v h.1, List.all_eq_true.mpr fun p hp => ?_⟩
    rcases mem_tabPut t i v p hp with e | e
    · simp [e, hv]
    · exact List.all_eq_true.mp h.2 p e

theorem tabSorted_map {α : Type} (f : Nat → α → α) (t : List (Nat × α)) (h : tabSorted t = true) : tabSorted (t.map (fun p => (p.1, f p.1 p.2))) = true := by
  induction t with
  | nil => rfl
  | cons p t ih =>
    obtain ⟨k, w⟩ := p
    rw [tabSorted_cons] at h
    rw [List.map_cons, tabSorted_cons]
    refine ⟨fun p hp => ?_, ih h.2⟩
    obtain ⟨q, hq, e⟩ := List.mem_map.mp hp
    rw [← e]; exact h.1 q hq

/-- Changing every entry keeps the canonical form. -/
theorem tabWf_tabMap {α : Type} [DecidableEq α] (d : α) (t : List (Nat × α)) (f : Nat → α → α) (h : tabSorted t = true) : tabWf d (tabMap d t f) = true := by
  unfold tabWf tabMap
  rw [Bool.and_eq_true]
  exact ⟨tabSorted_filter _ _ (tabSorted_map f t h), List.all_eq_true.mpr fun p hp => (List.mem_filter.mp hp).2⟩

-- The tables of the state ---------------------------------------------------------------------------------------------------

@[simp] theorem State.seat_setSeat (s : State) (i : Nat) (v : Seat) : (s.setSeat i v).seat i = v := tabGet_tabSet_same _ _ _ _

theorem State.seat_setSeat_other (s : State) (i j : Nat) (v : Seat) (h : j ≠ i) : (s.setSeat i v).seat j = s.seat j := tabGet_tabSet_other _ _ _ _ _ h

@[simp] theorem State.seat_modSeat (s : State) (i : Nat) (f : Seat → Seat) : (s.modSeat i f).seat i = f (s.seat i) := tabGet_tabSet_same _ _ _ _

theorem State.seat_modSeat_other (s : State) (i j : Nat) (f : Seat → Seat) (h : j ≠ i) : (s.modSeat i f).seat j = s.seat j :=
  tabGet_tabSet_other _ _ _ _ _ h

@[simp] theorem State.ring_setRing (s : State) (a b : Nat) (v : Ring) : (s.setRing a b v).ring a b = v := tabGet_tabSet_same _ _ _ _

@[simp] theorem State.ring_modRing (s : State) (a b : Nat) (f : Ring → Ring) : (s.modRing a b f).ring a b = f (s.ring a b) := tabGet_tabSet_same _ _ _ _

theorem State.ring_modRing_other (s : State) (a b c e : Nat) (f : Ring → Ring) (h : ringKey c e ≠ ringKey a b) : (s.modRing a b f).ring c e = s.ring c e :=
  tabGet_tabSet_other _ _ _ _ _ h

@[simp] theorem State.bay_modBay (s : State) (b : Nat) (f : Bay → Bay) : (s.modBay b f).bay b = f (s.bay b) := tabGet_tabSet_same _ _ _ _

theorem State.bay_modBay_other (s : State) (b c : Nat) (f : Bay → Bay) (h : c ≠ b) : (s.modBay b f).bay c = s.bay c := tabGet_tabSet_other _ _ _ _ _ h

@[simp] theorem State.wing_modWing (s : State) (w : Nat) (f : Wing → Wing) : (s.modWing w f).wing w = f (s.wing w) := tabGet_tabSet_same _ _ _ _

theorem State.wing_modWing_other (s : State) (w x : Nat) (f : Wing → Wing) (h : x ≠ w) : (s.modWing w f).wing x = s.wing x := tabGet_tabSet_other _ _ _ _ _ h

@[simp] theorem State.engine_modEngine (s : State) (w : Nat) (f : Engine → Engine) : (s.modEngine w f).engine w = f (s.engine w) := tabGet_tabSet_same _ _ _ _

theorem State.engine_modEngine_other (s : State) (w x : Nat) (f : Engine → Engine) (h : x ≠ w) : (s.modEngine w f).engine x = s.engine x :=
  tabGet_tabSet_other _ _ _ _ _ h

@[simp] theorem State.source_modSource (s : State) (i : Nat) (f : Source → Source) : (s.modSource i f).source i = f (s.source i) := tabGet_tabSet_same _ _ _ _

theorem State.source_modSource_other (s : State) (i j : Nat) (f : Source → Source) (h : j ≠ i) : (s.modSource i f).source j = s.source j :=
  tabGet_tabSet_other _ _ _ _ _ h

@[simp] theorem State.inst_modInst (s : State) (i : Nat) (f : Drbg → Drbg) : (s.modInst i f).inst i = f (s.inst i) := tabGet_tabSet_same _ _ _ _

theorem State.inst_modInst_other (s : State) (i j : Nat) (f : Drbg → Drbg) (h : j ≠ i) : (s.modInst i f).inst j = s.inst j :=
  tabGet_tabSet_other _ _ _ _ _ h

/-- Two states with the same parts are one. -/
theorem State.same_parts (s t : State) (h1 : s.pending = t.pending) (h2 : s.params = t.params) (h3 : s.start = t.start) (h4 : s.journal = t.journal)
    (h5 : s.alarms = t.alarms) (h6 : s.seats = t.seats) (h7 : s.rings = t.rings) (h8 : s.seatRegs = t.seatRegs) (h9 : s.offers = t.offers) (h10 :
    s.jobs = t.jobs) (h11 : s.nextJob = t.nextJob) (h12 : s.mem = t.mem) (h13 : s.place = t.place) (h14 : s.buffers = t.buffers) (h15 : s.engines =
    t.engines) (h16 : s.keys = t.keys) (h17 : s.window = t.window) (h18 : s.entropy = t.entropy) (h19 : s.front = t.front) (h20 : s.time = t.time)
    (h21 : s.relay = t.relay) (h22 : s.cust = t.cust) (h23 : s.prompts = t.prompts) (h24 : s.freeCount = t.freeCount) : s = t := by
  cases s; cases t; simp_all

-- Accesses ------------------------------------------------------------------------------------------------------------------

@[simp] theorem whenDo_true (s : State) (f : State → State) : whenDo true s f = f s := rfl

@[simp] theorem whenDo_false (s : State) (f : State → State) : whenDo false s f = s := rfl

-- What an update leaves alone ----------------------------------------------------------------------------------------------

@[simp] theorem State.setSeat_fields (s : State) (i : Nat) (v : Seat) : (s.setSeat i v).pending = s.pending ∧ (s.setSeat i v).params = s.params ∧
    (s.setSeat i v).start = s.start ∧ (s.setSeat i v).journal = s.journal ∧ (s.setSeat i v).alarms = s.alarms ∧ (s.setSeat i v).rings = s.rings ∧
    (s.setSeat i v).seatRegs = s.seatRegs ∧ (s.setSeat i v).offers = s.offers ∧ (s.setSeat i v).jobs = s.jobs ∧ (s.setSeat i v).nextJob = s.nextJob ∧
    (s.setSeat i v).mem = s.mem ∧ (s.setSeat i v).place = s.place ∧ (s.setSeat i v).buffers = s.buffers ∧ (s.setSeat i v).engines = s.engines ∧
    (s.setSeat i v).keys = s.keys ∧ (s.setSeat i v).window = s.window ∧ (s.setSeat i v).entropy = s.entropy ∧ (s.setSeat i v).front = s.front ∧
    (s.setSeat i v).time = s.time ∧ (s.setSeat i v).relay = s.relay ∧ (s.setSeat i v).cust = s.cust ∧ (s.setSeat i v).prompts = s.prompts ∧
    (s.setSeat i v).freeCount = s.freeCount :=
  ⟨rfl, rfl, rfl, rfl, rfl, rfl, rfl, rfl, rfl, rfl, rfl, rfl, rfl, rfl, rfl, rfl, rfl, rfl, rfl, rfl, rfl, rfl, rfl⟩

@[simp] theorem State.modSeat_fields (s : State) (i : Nat) (f : Seat → Seat) : (s.modSeat i f).pending = s.pending ∧ (s.modSeat i f).params = s.params ∧
    (s.modSeat i f).start = s.start ∧ (s.modSeat i f).journal = s.journal ∧ (s.modSeat i f).alarms = s.alarms ∧ (s.modSeat i f).rings = s.rings ∧
    (s.modSeat i f).seatRegs = s.seatRegs ∧ (s.modSeat i f).offers = s.offers ∧ (s.modSeat i f).jobs = s.jobs ∧ (s.modSeat i f).nextJob = s.nextJob ∧
    (s.modSeat i f).mem = s.mem ∧ (s.modSeat i f).place = s.place ∧ (s.modSeat i f).buffers = s.buffers ∧ (s.modSeat i f).engines = s.engines ∧
    (s.modSeat i f).keys = s.keys ∧ (s.modSeat i f).window = s.window ∧ (s.modSeat i f).entropy = s.entropy ∧ (s.modSeat i f).front = s.front ∧
    (s.modSeat i f).time = s.time ∧ (s.modSeat i f).relay = s.relay ∧ (s.modSeat i f).cust = s.cust ∧ (s.modSeat i f).prompts = s.prompts ∧
    (s.modSeat i f).freeCount = s.freeCount :=
  ⟨rfl, rfl, rfl, rfl, rfl, rfl, rfl, rfl, rfl, rfl, rfl, rfl, rfl, rfl, rfl, rfl, rfl, rfl, rfl, rfl, rfl, rfl, rfl⟩

@[simp] theorem State.setRing_fields (s : State) (a b : Nat) (v : Ring) : (s.setRing a b v).pending = s.pending ∧ (s.setRing a b v).params = s.params ∧
    (s.setRing a b v).start = s.start ∧ (s.setRing a b v).journal = s.journal ∧ (s.setRing a b v).alarms = s.alarms ∧ (s.setRing a b v).seats = s.seats ∧
    (s.setRing a b v).seatRegs = s.seatRegs ∧ (s.setRing a b v).offers = s.offers ∧ (s.setRing a b v).jobs = s.jobs ∧ (s.setRing a b v).nextJob = s.nextJob ∧
    (s.setRing a b v).mem = s.mem ∧ (s.setRing a b v).place = s.place ∧ (s.setRing a b v).buffers = s.buffers ∧ (s.setRing a b v).engines = s.engines ∧
    (s.setRing a b v).keys = s.keys ∧ (s.setRing a b v).window = s.window ∧ (s.setRing a b v).entropy = s.entropy ∧ (s.setRing a b v).front = s.front ∧
    (s.setRing a b v).time = s.time ∧ (s.setRing a b v).relay = s.relay ∧ (s.setRing a b v).cust = s.cust ∧ (s.setRing a b v).prompts = s.prompts ∧
    (s.setRing a b v).freeCount = s.freeCount :=
  ⟨rfl, rfl, rfl, rfl, rfl, rfl, rfl, rfl, rfl, rfl, rfl, rfl, rfl, rfl, rfl, rfl, rfl, rfl, rfl, rfl, rfl, rfl, rfl⟩

@[simp] theorem State.modRing_fields (s : State) (a b : Nat) (f : Ring → Ring) : (s.modRing a b f).pending = s.pending ∧
    (s.modRing a b f).params = s.params ∧ (s.modRing a b f).start = s.start ∧ (s.modRing a b f).journal = s.journal ∧ (s.modRing a b f).alarms = s.alarms ∧
    (s.modRing a b f).seats = s.seats ∧ (s.modRing a b f).seatRegs = s.seatRegs ∧ (s.modRing a b f).offers = s.offers ∧ (s.modRing a b f).jobs = s.jobs ∧
    (s.modRing a b f).nextJob = s.nextJob ∧ (s.modRing a b f).mem = s.mem ∧ (s.modRing a b f).place = s.place ∧ (s.modRing a b f).buffers = s.buffers ∧
    (s.modRing a b f).engines = s.engines ∧ (s.modRing a b f).keys = s.keys ∧ (s.modRing a b f).window = s.window ∧ (s.modRing a b f).entropy = s.entropy ∧
    (s.modRing a b f).front = s.front ∧ (s.modRing a b f).time = s.time ∧ (s.modRing a b f).relay = s.relay ∧ (s.modRing a b f).cust = s.cust ∧
    (s.modRing a b f).prompts = s.prompts ∧ (s.modRing a b f).freeCount = s.freeCount :=
  ⟨rfl, rfl, rfl, rfl, rfl, rfl, rfl, rfl, rfl, rfl, rfl, rfl, rfl, rfl, rfl, rfl, rfl, rfl, rfl, rfl, rfl, rfl, rfl⟩

@[simp] theorem State.modBay_fields (s : State) (b : Nat) (f : Bay → Bay) : (s.modBay b f).pending = s.pending ∧ (s.modBay b f).params = s.params ∧
    (s.modBay b f).start = s.start ∧ (s.modBay b f).journal = s.journal ∧ (s.modBay b f).alarms = s.alarms ∧ (s.modBay b f).seats = s.seats ∧
    (s.modBay b f).rings = s.rings ∧ (s.modBay b f).seatRegs = s.seatRegs ∧ (s.modBay b f).offers = s.offers ∧ (s.modBay b f).jobs = s.jobs ∧
    (s.modBay b f).nextJob = s.nextJob ∧ (s.modBay b f).mem = s.mem ∧ (s.modBay b f).buffers = s.buffers ∧ (s.modBay b f).engines = s.engines ∧
    (s.modBay b f).keys = s.keys ∧ (s.modBay b f).window = s.window ∧ (s.modBay b f).entropy = s.entropy ∧ (s.modBay b f).front = s.front ∧
    (s.modBay b f).time = s.time ∧ (s.modBay b f).relay = s.relay ∧ (s.modBay b f).cust = s.cust ∧ (s.modBay b f).prompts = s.prompts ∧
    (s.modBay b f).freeCount = s.freeCount :=
  ⟨rfl, rfl, rfl, rfl, rfl, rfl, rfl, rfl, rfl, rfl, rfl, rfl, rfl, rfl, rfl, rfl, rfl, rfl, rfl, rfl, rfl, rfl, rfl⟩

@[simp] theorem State.modWing_fields (s : State) (w : Nat) (f : Wing → Wing) : (s.modWing w f).pending = s.pending ∧ (s.modWing w f).params = s.params ∧
    (s.modWing w f).start = s.start ∧ (s.modWing w f).journal = s.journal ∧ (s.modWing w f).alarms = s.alarms ∧ (s.modWing w f).seats = s.seats ∧
    (s.modWing w f).rings = s.rings ∧ (s.modWing w f).seatRegs = s.seatRegs ∧ (s.modWing w f).offers = s.offers ∧ (s.modWing w f).jobs = s.jobs ∧
    (s.modWing w f).nextJob = s.nextJob ∧ (s.modWing w f).mem = s.mem ∧ (s.modWing w f).buffers = s.buffers ∧ (s.modWing w f).engines = s.engines ∧
    (s.modWing w f).keys = s.keys ∧ (s.modWing w f).window = s.window ∧ (s.modWing w f).entropy = s.entropy ∧ (s.modWing w f).front = s.front ∧
    (s.modWing w f).time = s.time ∧ (s.modWing w f).relay = s.relay ∧ (s.modWing w f).cust = s.cust ∧ (s.modWing w f).prompts = s.prompts ∧
    (s.modWing w f).freeCount = s.freeCount :=
  ⟨rfl, rfl, rfl, rfl, rfl, rfl, rfl, rfl, rfl, rfl, rfl, rfl, rfl, rfl, rfl, rfl, rfl, rfl, rfl, rfl, rfl, rfl, rfl⟩

@[simp] theorem State.modEngine_fields (s : State) (w : Nat) (f : Engine → Engine) : (s.modEngine w f).pending = s.pending ∧
    (s.modEngine w f).params = s.params ∧ (s.modEngine w f).start = s.start ∧ (s.modEngine w f).journal = s.journal ∧ (s.modEngine w f).alarms = s.alarms ∧
    (s.modEngine w f).seats = s.seats ∧ (s.modEngine w f).rings = s.rings ∧ (s.modEngine w f).seatRegs = s.seatRegs ∧ (s.modEngine w f).offers = s.offers ∧
    (s.modEngine w f).jobs = s.jobs ∧ (s.modEngine w f).nextJob = s.nextJob ∧ (s.modEngine w f).mem = s.mem ∧ (s.modEngine w f).place = s.place ∧
    (s.modEngine w f).buffers = s.buffers ∧ (s.modEngine w f).keys = s.keys ∧ (s.modEngine w f).window = s.window ∧ (s.modEngine w f).entropy = s.entropy ∧
    (s.modEngine w f).front = s.front ∧ (s.modEngine w f).time = s.time ∧ (s.modEngine w f).relay = s.relay ∧ (s.modEngine w f).cust = s.cust ∧
    (s.modEngine w f).prompts = s.prompts ∧ (s.modEngine w f).freeCount = s.freeCount :=
  ⟨rfl, rfl, rfl, rfl, rfl, rfl, rfl, rfl, rfl, rfl, rfl, rfl, rfl, rfl, rfl, rfl, rfl, rfl, rfl, rfl, rfl, rfl, rfl⟩

@[simp] theorem State.modSource_fields (s : State) (i : Nat) (f : Source → Source) : (s.modSource i f).pending = s.pending ∧
    (s.modSource i f).params = s.params ∧ (s.modSource i f).start = s.start ∧ (s.modSource i f).journal = s.journal ∧ (s.modSource i f).alarms = s.alarms ∧
    (s.modSource i f).seats = s.seats ∧ (s.modSource i f).rings = s.rings ∧ (s.modSource i f).seatRegs = s.seatRegs ∧ (s.modSource i f).offers = s.offers ∧
    (s.modSource i f).jobs = s.jobs ∧ (s.modSource i f).nextJob = s.nextJob ∧ (s.modSource i f).mem = s.mem ∧ (s.modSource i f).place = s.place ∧
    (s.modSource i f).buffers = s.buffers ∧ (s.modSource i f).engines = s.engines ∧ (s.modSource i f).keys = s.keys ∧ (s.modSource i f).window = s.window ∧
    (s.modSource i f).front = s.front ∧ (s.modSource i f).time = s.time ∧ (s.modSource i f).relay = s.relay ∧ (s.modSource i f).cust = s.cust ∧
    (s.modSource i f).prompts = s.prompts ∧ (s.modSource i f).freeCount = s.freeCount :=
  ⟨rfl, rfl, rfl, rfl, rfl, rfl, rfl, rfl, rfl, rfl, rfl, rfl, rfl, rfl, rfl, rfl, rfl, rfl, rfl, rfl, rfl, rfl, rfl⟩

@[simp] theorem State.modInst_fields (s : State) (i : Nat) (f : Drbg → Drbg) : (s.modInst i f).pending = s.pending ∧ (s.modInst i f).params = s.params ∧
    (s.modInst i f).start = s.start ∧ (s.modInst i f).journal = s.journal ∧ (s.modInst i f).alarms = s.alarms ∧ (s.modInst i f).seats = s.seats ∧
    (s.modInst i f).rings = s.rings ∧ (s.modInst i f).seatRegs = s.seatRegs ∧ (s.modInst i f).offers = s.offers ∧ (s.modInst i f).jobs = s.jobs ∧
    (s.modInst i f).nextJob = s.nextJob ∧ (s.modInst i f).mem = s.mem ∧ (s.modInst i f).place = s.place ∧ (s.modInst i f).buffers = s.buffers ∧
    (s.modInst i f).engines = s.engines ∧ (s.modInst i f).keys = s.keys ∧ (s.modInst i f).window = s.window ∧ (s.modInst i f).front = s.front ∧
    (s.modInst i f).time = s.time ∧ (s.modInst i f).relay = s.relay ∧ (s.modInst i f).cust = s.cust ∧ (s.modInst i f).prompts = s.prompts ∧
    (s.modInst i f).freeCount = s.freeCount :=
  ⟨rfl, rfl, rfl, rfl, rfl, rfl, rfl, rfl, rfl, rfl, rfl, rfl, rfl, rfl, rfl, rfl, rfl, rfl, rfl, rfl, rfl, rfl, rfl⟩

@[simp] theorem State.modJob_fields (s : State) (id : Nat) (f : Job → Job) : (s.modJob id f).pending = s.pending ∧ (s.modJob id f).params = s.params ∧
    (s.modJob id f).start = s.start ∧ (s.modJob id f).journal = s.journal ∧ (s.modJob id f).alarms = s.alarms ∧ (s.modJob id f).seats = s.seats ∧
    (s.modJob id f).rings = s.rings ∧ (s.modJob id f).seatRegs = s.seatRegs ∧ (s.modJob id f).offers = s.offers ∧ (s.modJob id f).nextJob = s.nextJob ∧
    (s.modJob id f).mem = s.mem ∧ (s.modJob id f).place = s.place ∧ (s.modJob id f).buffers = s.buffers ∧ (s.modJob id f).engines = s.engines ∧
    (s.modJob id f).keys = s.keys ∧ (s.modJob id f).window = s.window ∧ (s.modJob id f).entropy = s.entropy ∧ (s.modJob id f).front = s.front ∧
    (s.modJob id f).time = s.time ∧ (s.modJob id f).relay = s.relay ∧ (s.modJob id f).cust = s.cust ∧ (s.modJob id f).prompts = s.prompts ∧
    (s.modJob id f).freeCount = s.freeCount :=
  ⟨rfl, rfl, rfl, rfl, rfl, rfl, rfl, rfl, rfl, rfl, rfl, rfl, rfl, rfl, rfl, rfl, rfl, rfl, rfl, rfl, rfl, rfl, rfl⟩

@[simp] theorem State.dropJob_fields (s : State) (id : Nat) : (s.dropJob id).pending = s.pending ∧ (s.dropJob id).params = s.params ∧
    (s.dropJob id).start = s.start ∧ (s.dropJob id).journal = s.journal ∧ (s.dropJob id).alarms = s.alarms ∧ (s.dropJob id).seats = s.seats ∧
    (s.dropJob id).rings = s.rings ∧ (s.dropJob id).seatRegs = s.seatRegs ∧ (s.dropJob id).offers = s.offers ∧ (s.dropJob id).nextJob = s.nextJob ∧
    (s.dropJob id).mem = s.mem ∧ (s.dropJob id).place = s.place ∧ (s.dropJob id).buffers = s.buffers ∧ (s.dropJob id).engines = s.engines ∧
    (s.dropJob id).keys = s.keys ∧ (s.dropJob id).window = s.window ∧ (s.dropJob id).entropy = s.entropy ∧ (s.dropJob id).front = s.front ∧
    (s.dropJob id).time = s.time ∧ (s.dropJob id).relay = s.relay ∧ (s.dropJob id).cust = s.cust ∧ (s.dropJob id).prompts = s.prompts ∧
    (s.dropJob id).freeCount = s.freeCount :=
  ⟨rfl, rfl, rfl, rfl, rfl, rfl, rfl, rfl, rfl, rfl, rfl, rfl, rfl, rfl, rfl, rfl, rfl, rfl, rfl, rfl, rfl, rfl, rfl⟩

@[simp] theorem State.wing_modBay (s : State) (b w : Nat) (f : Bay → Bay) : (s.modBay b f).wing w = s.wing w := rfl

@[simp] theorem State.bay_modWing (s : State) (w b : Nat) (f : Wing → Wing) : (s.modWing w f).bay b = s.bay b := rfl

@[simp] theorem State.inst_modSource (s : State) (i k : Nat) (f : Source → Source) : (s.modSource i f).inst k = s.inst k := rfl

@[simp] theorem State.source_modInst (s : State) (i k : Nat) (f : Drbg → Drbg) : (s.modInst i f).source k = s.source k := rfl

end Sys2Proof.Machine
end

