-- ==== Sys2Proof/Laws/Access.lean ====
section
/-! SUPPORT. What an access does by where it comes from (R62, R63, R65, R116, R545), and the outcome of a meaning. -/

namespace Sys2Proof.Machine

@[simp] theorem ok_eq (s t : State) : (ok s = .next t) = (s = t) := by simp [ok]

/-- The physical function may make every access (R62). -/
@[simp] theorem permitted_mgr (off : Nat) (w : Bool) : permitted mgr off w = true := by
  have h : (1024 : Nat).testBit 10 = true := by decide
  simp [permitted, mgr, h]

/-- An access of the physical function that is served takes its effect. -/
theorem hreg_served (s : State) (off : Nat) (w : Bool) (f : State → State) (h : s.served off = true) : hreg s mgr off w f = f s := by
  simp only [State.served, Bool.and_eq_true, Bool.not_eq_true'] at h
  obtain ⟨⟨h1, h2⟩, h3⟩ := h
  unfold hreg
  rw [h1, h2, h3]
  simp

theorem mgrWrite_served (s : State) (off : Nat) (f : State → State) (h : s.served off = true) : mgrWrite s off f = f s :=
  hreg_served s off true f h

/-- While a reset is low, VAON is out of tolerance or HCLK is lost, an access does nothing (R59, R65). -/
theorem hreg_down (s : State) (src off : Nat) (w : Bool) (f : State → State) (h : s.hostOpen = false) : hreg s src off w f = s := by
  simp [hreg, h]

/-- An access that R62 does not permit raises the ACCESS alarm and has no effect (R63). -/
theorem hreg_denied (s : State) (src off : Nat) (w : Bool) (f : State → State) (h : permitted src off w = false) (h1 : s.hostOpen = true)
    (h2 : s.start.state ≠ 5) : hreg s src off w f = accessAlarm s src off w := by
  simp [hreg, h, h1, h2]

end Sys2Proof.Machine
end

