-- ==== Sys2Proof/Laws/FrameBase.lean ====
section
/-! SUPPORT. What an operation leaves alone: the parts of the state, the relation "differs in these parts alone", and how it is carried through
records, folds, pairs, options, chains of checks and outcomes. Each Laws/Frame file states it once for every operation of its module. -/

namespace Sys2Proof.Machine

/-- The parts of the state. -/
inductive Part where
  | pending | params | start | journal | alarms | seats | rings | seatRegs | offers | jobs | nextJob | mem | place | buffers | engines | keys |
  window | entropy | front | time | relay | cust | prompts | freeCount
  deriving DecidableEq, Repr

def Part.all : List Part :=
  [.pending, .params, .start, .journal, .alarms, .seats, .rings, .seatRegs, .offers, .jobs, .nextJob, .mem, .place, .buffers, .engines, .keys,
   .window, .entropy, .front, .time, .relay, .cust, .prompts, .freeCount]

/-- These parts. -/
def only (l : List Part) (p : Part) : Bool := l.contains p

/-- Every part but these. -/
def allBut (l : List Part) (p : Part) : Bool := !l.contains p

/-- Every part of `a` is one of `b`. -/
def within (a b : Part → Bool) : Bool := Part.all.all (fun p => !a p || b p)

theorem within_elim {a b : Part → Bool} (h : within a b = true) {p : Part} (hp : b p = false) : a p = false := by
  have := List.all_eq_true.mp h p (by cases p <;> decide)
  cases ha : a p with
  | false => rfl
  | true => rw [ha, hp] at this; exact absurd this (by decide)

theorem within_mem {a b : Part → Bool} (h : within a b = true) {p : Part} (hp : a p = true) : b p = true := by
  cases hb : b p with
  | true => rfl
  | false => rw [within_elim h hb] at hp; exact absurd hp (by decide)

theorem within_trans {a b d : Part → Bool} (h : within a b = true) (g : within b d = true) : within a d = true := by
  refine List.all_eq_true.mpr fun p _ => ?_
  cases hd : d p with
  | true => simp
  | false => rw [within_elim h (within_elim g hd)]; rfl

/-- `t` has this part as `s` has it. -/
def Part.same (p : Part) (s t : State) : Prop :=
  match p with
  | .pending => t.pending = s.pending
  | .params => t.params = s.params
  | .start => t.start = s.start
  | .journal => t.journal = s.journal
  | .alarms => t.alarms = s.alarms
  | .seats => t.seats = s.seats
  | .rings => t.rings = s.rings
  | .seatRegs => t.seatRegs = s.seatRegs
  | .offers => t.offers = s.offers
  | .jobs => t.jobs = s.jobs
  | .nextJob => t.nextJob = s.nextJob
  | .mem => t.mem = s.mem
  | .place => t.place = s.place
  | .buffers => t.buffers = s.buffers
  | .engines => t.engines = s.engines
  | .keys => t.keys = s.keys
  | .window => t.window = s.window
  | .entropy => t.entropy = s.entropy
  | .front => t.front = s.front
  | .time => t.time = s.time
  | .relay => t.relay = s.relay
  | .cust => t.cust = s.cust
  | .prompts => t.prompts = s.prompts
  | .freeCount => t.freeCount = s.freeCount

/-- `t` differs from `s` in parts of `ch` alone. -/
structure Keeps (ch : Part → Bool) (s t : State) : Prop where
  part : ∀ p, ch p = false → p.same s t

variable {ch c : Part → Bool} {s t u : State}

theorem Keeps.pending (h : Keeps ch s t) (hp : ch .pending = false) : t.pending = s.pending := h.part .pending hp

theorem Keeps.params (h : Keeps ch s t) (hp : ch .params = false) : t.params = s.params := h.part .params hp

theorem Keeps.start (h : Keeps ch s t) (hp : ch .start = false) : t.start = s.start := h.part .start hp

theorem Keeps.journal (h : Keeps ch s t) (hp : ch .journal = false) : t.journal = s.journal := h.part .journal hp

theorem Keeps.alarms (h : Keeps ch s t) (hp : ch .alarms = false) : t.alarms = s.alarms := h.part .alarms hp

theorem Keeps.seats (h : Keeps ch s t) (hp : ch .seats = false) : t.seats = s.seats := h.part .seats hp

theorem Keeps.rings (h : Keeps ch s t) (hp : ch .rings = false) : t.rings = s.rings := h.part .rings hp

theorem Keeps.seatRegs (h : Keeps ch s t) (hp : ch .seatRegs = false) : t.seatRegs = s.seatRegs := h.part .seatRegs hp

theorem Keeps.offers (h : Keeps ch s t) (hp : ch .offers = false) : t.offers = s.offers := h.part .offers hp

theorem Keeps.jobs (h : Keeps ch s t) (hp : ch .jobs = false) : t.jobs = s.jobs := h.part .jobs hp

theorem Keeps.nextJob (h : Keeps ch s t) (hp : ch .nextJob = false) : t.nextJob = s.nextJob := h.part .nextJob hp

theorem Keeps.mem (h : Keeps ch s t) (hp : ch .mem = false) : t.mem = s.mem := h.part .mem hp

theorem Keeps.place (h : Keeps ch s t) (hp : ch .place = false) : t.place = s.place := h.part .place hp

theorem Keeps.buffers (h : Keeps ch s t) (hp : ch .buffers = false) : t.buffers = s.buffers := h.part .buffers hp

theorem Keeps.engines (h : Keeps ch s t) (hp : ch .engines = false) : t.engines = s.engines := h.part .engines hp

theorem Keeps.keys (h : Keeps ch s t) (hp : ch .keys = false) : t.keys = s.keys := h.part .keys hp

theorem Keeps.window (h : Keeps ch s t) (hp : ch .window = false) : t.window = s.window := h.part .window hp

theorem Keeps.entropy (h : Keeps ch s t) (hp : ch .entropy = false) : t.entropy = s.entropy := h.part .entropy hp

theorem Keeps.front (h : Keeps ch s t) (hp : ch .front = false) : t.front = s.front := h.part .front hp

theorem Keeps.time (h : Keeps ch s t) (hp : ch .time = false) : t.time = s.time := h.part .time hp

theorem Keeps.relay (h : Keeps ch s t) (hp : ch .relay = false) : t.relay = s.relay := h.part .relay hp

theorem Keeps.cust (h : Keeps ch s t) (hp : ch .cust = false) : t.cust = s.cust := h.part .cust hp

theorem Keeps.prompts (h : Keeps ch s t) (hp : ch .prompts = false) : t.prompts = s.prompts := h.part .prompts hp

theorem Keeps.freeCount (h : Keeps ch s t) (hp : ch .freeCount = false) : t.freeCount = s.freeCount := h.part .freeCount hp

theorem Keeps.refl (s : State) : Keeps ch s s := ⟨fun p _ => by cases p <;> rfl⟩

theorem Keeps.self (s : State) : Keeps ch s (id s) := .refl s

theorem Keeps.trans (h : Keeps ch s t) (g : Keeps ch t u) : Keeps ch s u := by
  refine ⟨fun p hp => ?_⟩
  have a := h.part p hp
  have b := g.part p hp
  cases p <;> exact Eq.trans b a

theorem Keeps.mono (h : Keeps c s t) (m : within c ch = true) : Keeps ch s t := ⟨fun p hp => h.part p (within_elim m hp)⟩

/-- One more operation, whose parts lie within `ch`. -/
theorem Keeps.step (g : Keeps c t u) (m : within c ch = true) (h : Keeps ch s t) : Keeps ch s u := h.trans (g.mono m)

/-- An update of the record, on the state `t` it is written over. -/
theorem Keeps.upd {v1 v2 v3 v4 v5 v6 v7 v8 v9 v10 v11 v12 v13 v14 v15 v16 v17 v18 v19 v20 v21 v22 v23} (h1 : ch .params = true ∨ v1 = t.params) (h2
    : ch .start = true ∨ v2 = t.start) (h3 : ch .journal = true ∨ v3 = t.journal) (h4 : ch .alarms = true ∨ v4 = t.alarms) (h5 : ch .seats = true ∨
    v5 = t.seats) (h6 : ch .rings = true ∨ v6 = t.rings) (h7 : ch .seatRegs = true ∨ v7 = t.seatRegs) (h8 : ch .offers = true ∨ v8 = t.offers) (h9 :
    ch .jobs = true ∨ v9 = t.jobs) (h10 : ch .nextJob = true ∨ v10 = t.nextJob) (h11 : ch .mem = true ∨ v11 = t.mem) (h12 : ch .place = true ∨ v12 =
    t.place) (h13 : ch .buffers = true ∨ v13 = t.buffers) (h14 : ch .engines = true ∨ v14 = t.engines) (h15 : ch .keys = true ∨ v15 = t.keys) (h16 :
    ch .window = true ∨ v16 = t.window) (h17 : ch .entropy = true ∨ v17 = t.entropy) (h18 : ch .front = true ∨ v18 = t.front) (h19 : ch .time = true
    ∨ v19 = t.time) (h20 : ch .relay = true ∨ v20 = t.relay) (h21 : ch .cust = true ∨ v21 = t.cust) (h22 : ch .prompts = true ∨ v22 = t.prompts)
    (h23 : ch .freeCount = true ∨ v23 = t.freeCount) (h : Keeps ch s t) : Keeps ch s (State.mk t.pending v1 v2 v3 v4 v5 v6 v7 v8 v9 v10 v11 v12 v13
    v14 v15 v16 v17 v18 v19 v20 v21 v22 v23) := by
  refine h.trans ⟨fun p hp => ?_⟩
  cases p
  · exact Eq.refl _
  · exact h1.resolve_left (by rw [hp]; decide)
  · exact h2.resolve_left (by rw [hp]; decide)
  · exact h3.resolve_left (by rw [hp]; decide)
  · exact h4.resolve_left (by rw [hp]; decide)
  · exact h5.resolve_left (by rw [hp]; decide)
  · exact h6.resolve_left (by rw [hp]; decide)
  · exact h7.resolve_left (by rw [hp]; decide)
  · exact h8.resolve_left (by rw [hp]; decide)
  · exact h9.resolve_left (by rw [hp]; decide)
  · exact h10.resolve_left (by rw [hp]; decide)
  · exact h11.resolve_left (by rw [hp]; decide)
  · exact h12.resolve_left (by rw [hp]; decide)
  · exact h13.resolve_left (by rw [hp]; decide)
  · exact h14.resolve_left (by rw [hp]; decide)
  · exact h15.resolve_left (by rw [hp]; decide)
  · exact h16.resolve_left (by rw [hp]; decide)
  · exact h17.resolve_left (by rw [hp]; decide)
  · exact h18.resolve_left (by rw [hp]; decide)
  · exact h19.resolve_left (by rw [hp]; decide)
  · exact h20.resolve_left (by rw [hp]; decide)
  · exact h21.resolve_left (by rw [hp]; decide)
  · exact h22.resolve_left (by rw [hp]; decide)
  · exact h23.resolve_left (by rw [hp]; decide)

theorem Keeps.foldl {α : Type} {f : State → α → State} (l : List α) (hf : ∀ t a, Keeps ch t (f t a)) (h : Keeps ch s t) : Keeps ch s (l.foldl f t) := by
  induction l generalizing t with
  | nil => exact h
  | cons a l ih => exact ih (h.trans (hf t a))

theorem Keeps.ite {b : Prop} [Decidable b] (h : Keeps ch s t) (g : Keeps ch s u) : Keeps ch s (if b then t else u) := by split <;> assumption

theorem Keeps.ite_fst {α : Type} {b : Prop} [Decidable b] {x y : State × α} (h : Keeps ch s x.1) (g : Keeps ch s y.1) :
    Keeps ch s (if b then x else y).1 := by split <;> assumption

theorem Keeps.dite {b : Prop} [Decidable b] {f : b → State} {g : ¬b → State} (h : ∀ x, Keeps ch s (f x)) (k : ∀ x, Keeps ch s (g x)) :
    Keeps ch s (if x : b then f x else g x) := by split <;> (first | exact h _ | exact k _)

theorem Keeps.fst {α : Type} {a : State × α} {x : α} (e : a = (t, x)) (h : Keeps ch s a.1) : Keeps ch s t := by rw [e] at h; exact h

/-- The result of an operation, computed on the state itself or on one that keeps as much. -/
theorem Keeps.after {f : State → State} (hf : ∀ t, Keeps ch t (f t)) (h : Keeps ch s t) : Keeps ch s (f t) := h.trans (hf t)

/-- An operation that may not answer. -/
structure OptKeeps (ch : Part → Bool) (s : State) (o : Option State) : Prop where
  ans : ∀ t, o = some t → Keeps ch s t

structure OptKeeps2 {α : Type} (ch : Part → Bool) (s : State) (o : Option (State × α)) : Prop where
  ans : ∀ t a, o = some (t, a) → Keeps ch s t

theorem OptKeeps.some (h : Keeps ch s t) : OptKeeps ch s (.some t) := ⟨by intro _ e; cases e; exact h⟩

theorem OptKeeps.get {o : Option State} (h : OptKeeps ch s o) (e : o = .some t) : Keeps ch s t := h.ans t e

theorem OptKeeps2.get {α : Type} {a : α} {o : Option (State × α)} (h : OptKeeps2 ch s o) (e : o = .some (t, a)) : Keeps ch s t := h.ans t a e

theorem OptKeeps.step {o : Option State} (g : OptKeeps c t o) (m : within c ch = true) (h : Keeps ch s t) : OptKeeps ch s o :=
  ⟨fun u e => (g.ans u e).step m h⟩

theorem OptKeeps2.step {α : Type} {o : Option (State × α)} (g : OptKeeps2 c t o) (m : within c ch = true) (h : Keeps ch s t) : OptKeeps2 ch s o :=
  ⟨fun u a e => (g.ans u a e).step m h⟩

theorem OptKeeps2.map {α β : Type} {o : Option (State × α)} {f : State × α → β} (h : OptKeeps2 ch s o) :
    OptKeeps2 ch s (o.map (fun r => (r.1, f r))) :=
  ⟨fun t b e => by cases o with
    | none => cases e
    | some r => cases e; exact h.ans _ _ rfl⟩

theorem OptKeeps.none : OptKeeps ch s .none := ⟨by intro _ e; cases e⟩

theorem OptKeeps2.some {α : Type} {a : α} (h : Keeps ch s t) : OptKeeps2 ch s (.some (t, a)) := ⟨by intro _ _ e; cases e; exact h⟩

theorem OptKeeps2.none {α : Type} : OptKeeps2 (α := α) ch s .none := ⟨by intro _ _ e; cases e⟩

/-- An operation that refuses with a code. -/
structure AnsKeeps (ch : Part → Bool) (s : State) (x : Except Nat State) : Prop where
  ans : ∀ t, x = .ok t → Keeps ch s t

theorem AnsKeeps.ok (h : Keeps ch s t) : AnsKeeps ch s (.ok t) := ⟨by intro _ e; cases e; exact h⟩

theorem AnsKeeps.error {n : Nat} : AnsKeeps ch s (.error n) := ⟨by intro _ e; cases e⟩

theorem AnsKeeps.ite {b : Prop} [Decidable b] {x y : Except Nat State} (h : AnsKeeps ch s x) (g : AnsKeeps ch s y) :
    AnsKeeps ch s (if b then x else y) := by split <;> assumption

theorem AnsKeeps.get {x : Except Nat State} (h : AnsKeeps ch s x) (e : x = .ok t) : Keeps ch s t := h.ans t e

/-- The meaning of a command: its next state. -/
structure OutKeeps (ch : Part → Bool) (s : State) (o : Host.Outcome State Fault Refusal) : Prop where
  next_keeps : ∀ t, o = .next t → Keeps ch s t

theorem OutKeeps.ok (h : Keeps ch s t) : OutKeeps ch s (ok t) := ⟨by intro _ e; cases e; exact h⟩

theorem OutKeeps.next (h : Keeps ch s t) : OutKeeps ch s (.next t) := ⟨by intro _ e; cases e; exact h⟩

theorem OutKeeps.ite {b : Prop} [Decidable b] {o q : Host.Outcome State Fault Refusal} (h : OutKeeps ch s o) (g : OutKeeps ch s q) :
    OutKeeps ch s (if b then o else q) := by split <;> assumption

theorem OutKeeps.mono {o : Host.Outcome State Fault Refusal} (h : OutKeeps c s o) (m : within c ch = true) : OutKeeps ch s o :=
  ⟨fun t e => (h.next_keeps t e).mono m⟩

theorem OutKeeps.fault {f : Fault} : OutKeeps ch s (.fault f) := ⟨by intro _ e; cases e⟩

theorem OutKeeps.refused {r : Refusal} : OutKeeps ch s (.refused r) := ⟨by intro _ e; cases e⟩

end Sys2Proof.Machine
end

