-- ==== Sys2Proof/Laws/FrameCk.lean ====
section
/-! SUPPORT. What a chain of checks leaves alone: its answer, and the state a wait leaves. -/

namespace Sys2Proof.Machine

variable {ch : Part → Bool} {s t : State}

/-- A chain of checks: what holds of its answer, and of the state a wait leaves. -/
inductive CkOk {α : Type} (p : α → Prop) (w : State → Prop) : Ck α → Prop where
  | answer {a : α} (h : p a) : CkOk p w (.ok a)
  | waits {t : State} (h : w t) : CkOk p w (.error (.wait t))
  | need {r : List Read} : CkOk p w (.error (.need r))
  | fail {x y z : Nat} : CkOk p w (.error (.fail x y z))

/-- The answer is a state, a state with something, or neither. -/
structure OfState (ch : Part → Bool) (s : State) (a : State) : Prop where
  keeps : Keeps ch s a

structure OfPair {α : Type} (ch : Part → Bool) (s : State) (a : State × α) : Prop where
  keeps : Keeps ch s a.1

structure OfAny {α : Type} (a : α) : Prop where
  self : a = a

theorem ofAny {α : Type} (a : α) : OfAny a := ⟨rfl⟩

theorem ofPair {α : Type} {s t : State} {a : α} (h : Keeps ch s t) : OfPair ch s (t, a) := ⟨h⟩

theorem ck_ok {α : Type} {p : α → Prop} {w : State → Prop} {a : α} (h : p a) : CkOk p w (.ok a) := .answer h

theorem ck_pure {α : Type} {p : α → Prop} {w : State → Prop} {a : α} (h : p a) : CkOk p w (pure a) := .answer h

theorem ck_ite {α : Type} {p : α → Prop} {w : State → Prop} {b : Prop} [Decidable b] {x y : Ck α} (h : CkOk p w x) (g : CkOk p w y) :
    CkOk p w (if b then x else y) := by split <;> assumption

theorem ck_bind {α β : Type} {p : α → Prop} {q : β → Prop} {w : State → Prop} {c : Ck α} {f : α → Ck β}
    (h : CkOk p w c) (g : ∀ a, p a → CkOk q w (f a)) : CkOk q w (c >>= f) := by
  cases h with
  | answer h => exact g _ h
  | waits h => exact .waits h
  | need => exact .need
  | fail => exact .fail

theorem ck_bindState {s : State} {β : Type} {q : β → Prop} {c : Ck State} {f : State → Ck β}
    (h : CkOk (OfState ch s) (Keeps ch s) c) (g : ∀ a, Keeps ch s a → CkOk q (Keeps ch s) (f a)) : CkOk q (Keeps ch s) (c >>= f) :=
  ck_bind h (fun a ha => g a ha.keeps)

theorem ck_bindPair {s : State} {α β : Type} {q : β → Prop} {c : Ck (State × α)} {f : State × α → Ck β}
    (h : CkOk (OfPair ch s) (Keeps ch s) c) (g : ∀ a b, Keeps ch s a → CkOk q (Keeps ch s) (f (a, b))) : CkOk q (Keeps ch s) (c >>= f) :=
  ck_bind h (fun a ha => g a.1 a.2 ha.keeps)

theorem ck_bindAny {α β : Type} {q : β → Prop} {w : State → Prop} {c : Ck α} {f : α → Ck β}
    (h : CkOk OfAny w c) (g : ∀ a, CkOk q w (f a)) : CkOk q w (c >>= f) := ck_bind h (fun a _ => g a)

theorem ck_any {α : Type} {p : α → Prop} {w : State → Prop} {c : Ck α} (h : CkOk p w c) : CkOk OfAny w c := by
  cases h with
  | answer h => exact .answer (ofAny _)
  | waits h => exact .waits h
  | need => exact .need
  | fail => exact .fail

/-- A chain of checks made in a state that keeps as much. -/
theorem ck_after {c : Ck State} (h : Keeps ch s t) (g : CkOk (OfState ch t) (Keeps ch t) c) : CkOk (OfState ch s) (Keeps ch s) c := by
  cases g with
  | answer g => exact .answer ⟨h.trans g.keeps⟩
  | waits g => exact .waits (h.trans g)
  | need => exact .need
  | fail => exact .fail

/-- A match on a chain of checks: what its answer, and its wait, keep. -/
theorem ck_okState {c : Ck State} (h : CkOk (OfState ch s) (Keeps ch s) c) (e : c = .ok t) : Keeps ch s t := by
  subst e; cases h with | answer h => exact h.keeps

theorem ck_okPair {α : Type} {a : α} {c : Ck (State × α)} (h : CkOk (OfPair ch s) (Keeps ch s) c) (e : c = .ok (t, a)) : Keeps ch s t := by
  subst e; cases h with | answer h => exact h.keeps

theorem ck_waits {α : Type} {p : α → Prop} {c : Ck α} (h : CkOk p (Keeps ch s) c) (e : c = .error (.wait t)) : Keeps ch s t := by
  subst e; cases h with | waits h => exact h

end Sys2Proof.Machine
end

