-- ==== Sys2Proof/Laws/FrameOps.lean ====
section
/-! SUPPORT. Frames of Machine/Ops: for each operation, the parts of the state it may change. -/

namespace Sys2Proof.Machine

theorem State.setSeat_keeps (s : State) (i : Nat) (v : Seat) : Keeps (only [.seats]) s (State.setSeat s i v) := by
  unfold State.setSeat
  repeat' (first
    | with_reducible apply Keeps.refl
    | with_reducible assumption
    | with_reducible apply Keeps.ite
    | with_reducible apply Keeps.ite_fst
    | with_reducible refine Keeps.foldl _ (fun _ _ => ?_) ?_
    | extract_lets
    | split
    | dsimp only
    | ((with_reducible apply Keeps.upd) <;> first | exact .inl rfl | exact .inr rfl | skip))

theorem State.modSeat_keeps (s : State) (i : Nat) (f : Seat → Seat) : Keeps (only [.seats]) s (State.modSeat s i f) := by
  unfold State.modSeat
  repeat' (first
    | with_reducible apply Keeps.refl
    | with_reducible assumption
    | ((with_reducible apply Keeps.step (State.setSeat_keeps ..)); focus exact rfl)
    | with_reducible apply Keeps.ite
    | with_reducible apply Keeps.ite_fst
    | with_reducible refine Keeps.foldl _ (fun _ _ => ?_) ?_
    | extract_lets
    | split
    | dsimp only)

theorem State.setRing_keeps (s : State) (seat : Nat) (slot : Nat) (v : Ring) : Keeps (only [.rings]) s (State.setRing s seat slot v) := by
  unfold State.setRing
  repeat' (first
    | with_reducible apply Keeps.refl
    | with_reducible assumption
    | with_reducible apply Keeps.ite
    | with_reducible apply Keeps.ite_fst
    | with_reducible refine Keeps.foldl _ (fun _ _ => ?_) ?_
    | extract_lets
    | split
    | dsimp only
    | ((with_reducible apply Keeps.upd) <;> first | exact .inl rfl | exact .inr rfl | skip))

theorem State.modRing_keeps (s : State) (seat : Nat) (slot : Nat) (f : Ring → Ring) : Keeps (only [.rings]) s (State.modRing s seat slot f) := by
  unfold State.modRing
  repeat' (first
    | with_reducible apply Keeps.refl
    | with_reducible assumption
    | ((with_reducible apply Keeps.step (State.setRing_keeps ..)); focus exact rfl)
    | with_reducible apply Keeps.ite
    | with_reducible apply Keeps.ite_fst
    | with_reducible refine Keeps.foldl _ (fun _ _ => ?_) ?_
    | extract_lets
    | split
    | dsimp only)

theorem State.modBay_keeps (s : State) (b : Nat) (f : Bay → Bay) : Keeps (only [.place]) s (State.modBay s b f) := by
  unfold State.modBay
  repeat' (first
    | with_reducible apply Keeps.refl
    | with_reducible assumption
    | with_reducible apply Keeps.ite
    | with_reducible apply Keeps.ite_fst
    | with_reducible refine Keeps.foldl _ (fun _ _ => ?_) ?_
    | extract_lets
    | split
    | dsimp only
    | ((with_reducible apply Keeps.upd) <;> first | exact .inl rfl | exact .inr rfl | skip))

theorem State.modWing_keeps (s : State) (w : Nat) (f : Wing → Wing) : Keeps (only [.place]) s (State.modWing s w f) := by
  unfold State.modWing
  repeat' (first
    | with_reducible apply Keeps.refl
    | with_reducible assumption
    | with_reducible apply Keeps.ite
    | with_reducible apply Keeps.ite_fst
    | with_reducible refine Keeps.foldl _ (fun _ _ => ?_) ?_
    | extract_lets
    | split
    | dsimp only
    | ((with_reducible apply Keeps.upd) <;> first | exact .inl rfl | exact .inr rfl | skip))

theorem State.modEngine_keeps (s : State) (w : Nat) (f : Engine → Engine) : Keeps (only [.engines]) s (State.modEngine s w f) := by
  unfold State.modEngine
  repeat' (first
    | with_reducible apply Keeps.refl
    | with_reducible assumption
    | with_reducible apply Keeps.ite
    | with_reducible apply Keeps.ite_fst
    | with_reducible refine Keeps.foldl _ (fun _ _ => ?_) ?_
    | extract_lets
    | split
    | dsimp only
    | ((with_reducible apply Keeps.upd) <;> first | exact .inl rfl | exact .inr rfl | skip))

theorem State.modSource_keeps (s : State) (i : Nat) (f : Source → Source) : Keeps (only [.entropy]) s (State.modSource s i f) := by
  unfold State.modSource
  repeat' (first
    | with_reducible apply Keeps.refl
    | with_reducible assumption
    | with_reducible apply Keeps.ite
    | with_reducible apply Keeps.ite_fst
    | with_reducible refine Keeps.foldl _ (fun _ _ => ?_) ?_
    | extract_lets
    | split
    | dsimp only
    | ((with_reducible apply Keeps.upd) <;> first | exact .inl rfl | exact .inr rfl | skip))

theorem State.modInst_keeps (s : State) (i : Nat) (f : Drbg → Drbg) : Keeps (only [.entropy]) s (State.modInst s i f) := by
  unfold State.modInst
  repeat' (first
    | with_reducible apply Keeps.refl
    | with_reducible assumption
    | with_reducible apply Keeps.ite
    | with_reducible apply Keeps.ite_fst
    | with_reducible refine Keeps.foldl _ (fun _ _ => ?_) ?_
    | extract_lets
    | split
    | dsimp only
    | ((with_reducible apply Keeps.upd) <;> first | exact .inl rfl | exact .inr rfl | skip))

theorem State.modJob_keeps (s : State) (id : Nat) (f : Job → Job) : Keeps (only [.jobs]) s (State.modJob s id f) := by
  unfold State.modJob
  repeat' (first
    | with_reducible apply Keeps.refl
    | with_reducible assumption
    | with_reducible apply Keeps.ite
    | with_reducible apply Keeps.ite_fst
    | with_reducible refine Keeps.foldl _ (fun _ _ => ?_) ?_
    | extract_lets
    | split
    | dsimp only
    | ((with_reducible apply Keeps.upd) <;> first | exact .inl rfl | exact .inr rfl | skip))

theorem State.dropJob_keeps (s : State) (id : Nat) : Keeps (only [.jobs]) s (State.dropJob s id) := by
  unfold State.dropJob
  repeat' (first
    | with_reducible apply Keeps.refl
    | with_reducible assumption
    | with_reducible apply Keeps.ite
    | with_reducible apply Keeps.ite_fst
    | with_reducible refine Keeps.foldl _ (fun _ _ => ?_) ?_
    | extract_lets
    | split
    | dsimp only
    | ((with_reducible apply Keeps.upd) <;> first | exact .inl rfl | exact .inr rfl | skip))

theorem latchEpoch_keeps (s : State) : Keeps (only [.place]) s (latchEpoch s) := by
  unfold latchEpoch
  repeat' (first
    | with_reducible apply Keeps.refl
    | with_reducible assumption
    | with_reducible apply Keeps.ite
    | with_reducible apply Keeps.ite_fst
    | with_reducible refine Keeps.foldl _ (fun _ _ => ?_) ?_
    | extract_lets
    | split
    | dsimp only
    | ((with_reducible apply Keeps.upd) <;> first | exact .inl rfl | exact .inr rfl | skip))

theorem raise_keeps (s : State) (fn : Nat) (vec : Nat) : Keeps (only [.prompts]) s (raise s fn vec) := by
  unfold raise
  repeat' (first
    | with_reducible apply Keeps.refl
    | with_reducible assumption
    | with_reducible apply Keeps.ite
    | with_reducible apply Keeps.ite_fst
    | with_reducible refine Keeps.foldl _ (fun _ _ => ?_) ?_
    | extract_lets
    | split
    | dsimp only
    | ((with_reducible apply Keeps.upd) <;> first | exact .inl rfl | exact .inr rfl | skip))

theorem vector_keeps (s : State) (m : Nat) : Keeps (only [.prompts]) s (vector s m) := by
  unfold vector
  repeat' (first
    | with_reducible apply Keeps.refl
    | with_reducible assumption
    | ((with_reducible apply Keeps.step (raise_keeps ..)); focus exact rfl)
    | with_reducible apply Keeps.ite
    | with_reducible apply Keeps.ite_fst
    | with_reducible refine Keeps.foldl _ (fun _ _ => ?_) ?_
    | extract_lets
    | split
    | dsimp only)

theorem almLog_keeps (s : State) (cause : Nat) (cls : Nat) (d0 : Nat) (d1 : Nat) : Keeps (only [.alarms]) s (almLog s cause cls d0 d1) := by
  unfold almLog
  repeat' (first
    | with_reducible apply Keeps.refl
    | with_reducible assumption
    | with_reducible apply Keeps.ite
    | with_reducible apply Keeps.ite_fst
    | with_reducible refine Keeps.foldl _ (fun _ _ => ?_) ?_
    | extract_lets
    | split
    | dsimp only
    | ((with_reducible apply Keeps.upd) <;> first | exact .inl rfl | exact .inr rfl | skip))

theorem alarmC_keeps (s : State) (cause : Nat) (d0 : Nat) (d1 : Nat) : Keeps (only [.alarms, .prompts]) s (alarmC s cause d0 d1) := by
  unfold alarmC
  repeat' (first
    | with_reducible apply Keeps.refl
    | with_reducible assumption
    | ((with_reducible apply Keeps.step (almLog_keeps ..)); focus exact rfl)
    | ((with_reducible apply Keeps.step (vector_keeps ..)); focus exact rfl)
    | with_reducible apply Keeps.ite
    | with_reducible apply Keeps.ite_fst
    | with_reducible refine Keeps.foldl _ (fun _ _ => ?_) ?_
    | extract_lets
    | split
    | dsimp only
    | ((with_reducible apply Keeps.upd) <;> first | exact .inl rfl | exact .inr rfl | skip))

theorem refuse_keeps (s : State) (off : Nat) (value : W32) : Keeps (only [.alarms, .prompts]) s (refuse s off value) := by
  unfold refuse
  repeat' (first
    | with_reducible apply Keeps.refl
    | with_reducible assumption
    | ((with_reducible apply Keeps.step (alarmC_keeps ..)); focus exact rfl)
    | with_reducible apply Keeps.ite
    | with_reducible apply Keeps.ite_fst
    | with_reducible refine Keeps.foldl _ (fun _ _ => ?_) ?_
    | extract_lets
    | split
    | dsimp only)

theorem accessAlarm_keeps (s : State) (src : Nat) (off : Nat) (write : Bool) : Keeps (only [.alarms, .prompts]) s (accessAlarm s src off write) := by
  unfold accessAlarm
  repeat' (first
    | with_reducible apply Keeps.refl
    | with_reducible assumption
    | ((with_reducible apply Keeps.step (alarmC_keeps ..)); focus exact rfl)
    | with_reducible apply Keeps.ite
    | with_reducible apply Keeps.ite_fst
    | with_reducible refine Keeps.foldl _ (fun _ _ => ?_) ?_
    | extract_lets
    | split
    | dsimp only)

theorem hreg_keeps {ch : Part → Bool} {s0 s : State} {src off : Nat} {w : Bool} {f : State → State} (hm : within (only [.alarms, .prompts]) ch = true)
    (h0 : Keeps ch s0 s) (hf : ∀ t, Keeps ch t (f t)) : Keeps ch s0 (hreg s src off w f) := by
  unfold hreg
  repeat' (first
    | with_reducible apply Keeps.refl
    | with_reducible assumption
    | ((with_reducible apply Keeps.step (accessAlarm_keeps ..)); focus exact (within_trans rfl hm))
    | with_reducible exact hf _
    | with_reducible exact hf _ _
    | with_reducible exact hf _ _ _
    | with_reducible refine Keeps.trans ?_ (hf _)
    | with_reducible refine Keeps.trans ?_ (hf _ _)
    | with_reducible refine Keeps.trans ?_ (hf _ _ _)
    | with_reducible apply Keeps.ite
    | with_reducible apply Keeps.ite_fst
    | with_reducible refine Keeps.foldl _ (fun _ _ => ?_) ?_
    | extract_lets
    | split
    | dsimp only)

theorem mgrWrite_keeps {ch : Part → Bool} {s0 s : State} {off : Nat} {f : State → State} (hm : within (only [.alarms, .prompts]) ch = true) (h0 :
    Keeps ch s0 s) (hf : ∀ t, Keeps ch t (f t)) : Keeps ch s0 (mgrWrite s off f) := by
  unfold mgrWrite
  repeat' (first
    | with_reducible apply Keeps.refl
    | with_reducible assumption
    | ((with_reducible apply hreg_keeps); focus exact (within_trans rfl hm))
    | with_reducible intro _
    | with_reducible apply Keeps.self
    | with_reducible exact hf _
    | with_reducible exact hf _ _
    | with_reducible exact hf _ _ _
    | with_reducible refine Keeps.trans ?_ (hf _)
    | with_reducible refine Keeps.trans ?_ (hf _ _)
    | with_reducible refine Keeps.trans ?_ (hf _ _ _)
    | with_reducible apply Keeps.ite
    | with_reducible apply Keeps.ite_fst
    | with_reducible refine Keeps.foldl _ (fun _ _ => ?_) ?_
    | extract_lets
    | split
    | dsimp only)

theorem readBack_keeps (s : State) (v : Nat) : Keeps (only [.seatRegs]) s (readBack s v) := by
  unfold readBack
  repeat' (first
    | with_reducible apply Keeps.refl
    | with_reducible assumption
    | with_reducible apply Keeps.ite
    | with_reducible apply Keeps.ite_fst
    | with_reducible refine Keeps.foldl _ (fun _ _ => ?_) ?_
    | extract_lets
    | split
    | dsimp only
    | ((with_reducible apply Keeps.upd) <;> first | exact .inl rfl | exact .inr rfl | skip))

theorem hregRead_keeps {ch : Part → Bool} {s0 s : State} {off idle : Nat} {f : State → State} (hm : within (only [.seatRegs]) ch = true) (h0 : Keeps
    ch s0 s) (hf : ∀ t, Keeps ch t (f t)) : Keeps ch s0 (hregRead s off idle f) := by
  unfold hregRead
  repeat' (first
    | with_reducible apply Keeps.refl
    | with_reducible assumption
    | ((with_reducible apply Keeps.step (readBack_keeps ..)); focus exact (within_trans rfl hm))
    | with_reducible exact hf _
    | with_reducible exact hf _ _
    | with_reducible exact hf _ _ _
    | with_reducible refine Keeps.trans ?_ (hf _)
    | with_reducible refine Keeps.trans ?_ (hf _ _)
    | with_reducible refine Keeps.trans ?_ (hf _ _ _)
    | with_reducible apply Keeps.ite
    | with_reducible apply Keeps.ite_fst
    | with_reducible refine Keeps.foldl _ (fun _ _ => ?_) ?_
    | extract_lets
    | split
    | dsimp only)

theorem whenDo_keeps {ch : Part → Bool} {s0 s : State} {b : Bool} {f : State → State} (hm : within (only []) ch = true) (h0 : Keeps ch s0 s) (hf : ∀
    t, Keeps ch t (f t)) : Keeps ch s0 (whenDo b s f) := by
  unfold whenDo
  repeat' (first
    | with_reducible apply Keeps.refl
    | with_reducible assumption
    | with_reducible exact hf _
    | with_reducible exact hf _ _
    | with_reducible exact hf _ _ _
    | with_reducible refine Keeps.trans ?_ (hf _)
    | with_reducible refine Keeps.trans ?_ (hf _ _)
    | with_reducible refine Keeps.trans ?_ (hf _ _ _)
    | with_reducible apply Keeps.ite
    | with_reducible apply Keeps.ite_fst
    | with_reducible refine Keeps.foldl _ (fun _ _ => ?_) ?_
    | extract_lets
    | split
    | dsimp only)

end Sys2Proof.Machine
end

