-- ==== Sys2Proof/Laws/FrameMem.lean ====
section
/-! SUPPORT. Frames of Machine/Mem: for each operation, the parts of the state it may change. -/

namespace Sys2Proof.Machine

theorem addAccess_keeps (s : State) (f : Nat → Access) : Keeps (only [.mem]) s (addAccess s f) := by
  unfold addAccess
  repeat' (first
    | with_reducible apply Keeps.refl
    | with_reducible assumption
    | with_reducible apply Keeps.ite
    | with_reducible apply Keeps.ite_fst
    | with_reducible refine Keeps.foldl _ (fun _ _ => ?_) ?_
    | extract_lets
    | split
    | dsimp only
    | ((with_reducible apply Keeps.upd) <;> first | exact .inl rfl | exact .inr rfl | skip))

theorem addRead_keeps (s : State) (o : Owner) (seat : Nat) (va : Nat) (len : Nat) (attr : Nat) : Keeps (only [.mem]) s (addRead s o seat va len attr)
    := by
  unfold addRead
  repeat' (first
    | with_reducible apply Keeps.refl
    | with_reducible assumption
    | ((with_reducible apply Keeps.step (addAccess_keeps ..)); focus exact rfl)
    | with_reducible apply Keeps.ite
    | with_reducible apply Keeps.ite_fst
    | with_reducible refine Keeps.foldl _ (fun _ _ => ?_) ?_
    | extract_lets
    | split
    | dsimp only)

theorem addWrite_keeps (s : State) (o : Owner) (seat : Nat) (va : Nat) (data : Bytes) (attr : Nat) : Keeps (only [.mem]) s (addWrite s o seat va data
    attr) := by
  unfold addWrite
  repeat' (first
    | with_reducible apply Keeps.refl
    | with_reducible assumption
    | ((with_reducible apply Keeps.step (addAccess_keeps ..)); focus exact rfl)
    | with_reducible apply Keeps.ite
    | with_reducible apply Keeps.ite_fst
    | with_reducible refine Keeps.foldl _ (fun _ _ => ?_) ?_
    | extract_lets
    | split
    | dsimp only)

theorem addWrites_keeps (s : State) (o : Owner) (seat : Nat) (va : Nat) (data : Bytes) (attr : Nat) : Keeps (only [.mem]) s (addWrites s o seat va
    data attr) := by
  unfold addWrites
  repeat' (first
    | with_reducible apply Keeps.refl
    | with_reducible assumption
    | ((with_reducible apply Keeps.step (addWrite_keeps ..)); focus exact rfl)
    | with_reducible apply Keeps.ite
    | with_reducible apply Keeps.ite_fst
    | with_reducible refine Keeps.foldl _ (fun _ _ => ?_) ?_
    | extract_lets
    | split
    | dsimp only)

theorem keepBucket_keeps (s : State) (t : Nat) (b : Nat) (v : Bytes) : Keeps (only [.front]) s (keepBucket s t b v) := by
  unfold keepBucket
  repeat' (first
    | with_reducible apply Keeps.refl
    | with_reducible assumption
    | with_reducible apply Keeps.ite
    | with_reducible apply Keeps.ite_fst
    | with_reducible refine Keeps.foldl _ (fun _ _ => ?_) ?_
    | extract_lets
    | split
    | dsimp only
    | ((with_reducible apply Keeps.upd) <;> first | exact .inl rfl | exact .inr rfl | skip))

theorem gotBucket_keeps (s : State) (t : Nat) (b : Nat) (v : Bytes) : Keeps (only [.front]) s (gotBucket s t b v) := by
  unfold gotBucket
  repeat' (first
    | with_reducible apply Keeps.refl
    | with_reducible assumption
    | ((with_reducible apply Keeps.step (keepBucket_keeps ..)); focus exact rfl)
    | with_reducible apply Keeps.ite
    | with_reducible apply Keeps.ite_fst
    | with_reducible refine Keeps.foldl _ (fun _ _ => ?_) ?_
    | extract_lets
    | split
    | dsimp only)

theorem State.modAccess_keeps (s : State) (id : Nat) (f : Access → Access) : Keeps (only [.mem]) s (State.modAccess s id f) := by
  unfold State.modAccess
  repeat' (first
    | with_reducible apply Keeps.refl
    | with_reducible assumption
    | with_reducible apply Keeps.ite
    | with_reducible apply Keeps.ite_fst
    | with_reducible refine Keeps.foldl _ (fun _ _ => ?_) ?_
    | extract_lets
    | split
    | dsimp only
    | ((with_reducible apply Keeps.upd) <;> first | exact .inl rfl | exact .inr rfl | skip))

theorem State.dropAccess_keeps (s : State) (id : Nat) : Keeps (only [.mem]) s (State.dropAccess s id) := by
  unfold State.dropAccess
  repeat' (first
    | with_reducible apply Keeps.refl
    | with_reducible assumption
    | with_reducible apply Keeps.ite
    | with_reducible apply Keeps.ite_fst
    | with_reducible refine Keeps.foldl _ (fun _ _ => ?_) ?_
    | extract_lets
    | split
    | dsimp only
    | ((with_reducible apply Keeps.upd) <;> first | exact .inl rfl | exact .inr rfl | skip))

theorem tlbAdd_keeps (s : State) (e : TlbEntry) : Keeps (only [.mem]) s (tlbAdd s e) := by
  unfold tlbAdd
  repeat' (first
    | with_reducible apply Keeps.refl
    | with_reducible assumption
    | with_reducible apply Keeps.ite
    | with_reducible apply Keeps.ite_fst
    | with_reducible refine Keeps.foldl _ (fun _ _ => ?_) ?_
    | extract_lets
    | split
    | dsimp only
    | ((with_reducible apply Keeps.upd) <;> first | exact .inl rfl | exact .inr rfl | skip))

theorem memTry_keeps (s : State) (a : Access) : Keeps (only [.mem]) s (memTry s a).1 := by
  unfold memTry
  repeat' (first
    | with_reducible apply Keeps.refl
    | with_reducible assumption
    | ((with_reducible apply Keeps.step (State.modAccess_keeps ..)); focus exact rfl)
    | with_reducible apply Keeps.ite
    | with_reducible apply Keeps.ite_fst
    | with_reducible refine Keeps.foldl _ (fun _ _ => ?_) ?_
    | extract_lets
    | split
    | dsimp only)

theorem walkAnswer_keeps (s : State) (a : Access) (level : Nat) (table : Nat) (beat : Bytes) : Keeps (only [.mem]) s (walkAnswer s a level table
    beat).1 := by
  unfold walkAnswer
  repeat' (first
    | with_reducible apply Keeps.refl
    | with_reducible assumption
    | ((with_reducible apply Keeps.step (State.modAccess_keeps ..)); focus exact rfl)
    | ((with_reducible apply Keeps.step (tlbAdd_keeps ..)); focus exact rfl)
    | with_reducible apply Keeps.ite
    | with_reducible apply Keeps.ite_fst
    | with_reducible refine Keeps.foldl _ (fun _ _ => ?_) ?_
    | extract_lets
    | split
    | dsimp only)

theorem tlbDrop_keeps (s : State) (p : TlbEntry → Bool) : Keeps (only [.mem]) s (tlbDrop s p) := by
  unfold tlbDrop
  repeat' (first
    | with_reducible apply Keeps.refl
    | with_reducible assumption
    | with_reducible apply Keeps.ite
    | with_reducible apply Keeps.ite_fst
    | with_reducible refine Keeps.foldl _ (fun _ _ => ?_) ?_
    | extract_lets
    | split
    | dsimp only
    | ((with_reducible apply Keeps.upd) <;> first | exact .inl rfl | exact .inr rfl | skip))

theorem tlbDropSeat_keeps (s : State) (seat : Nat) : Keeps (only [.mem]) s (tlbDropSeat s seat) := by
  unfold tlbDropSeat
  repeat' (first
    | with_reducible apply Keeps.refl
    | with_reducible assumption
    | ((with_reducible apply Keeps.step (tlbDrop_keeps ..)); focus exact rfl)
    | with_reducible apply Keeps.ite
    | with_reducible apply Keeps.ite_fst
    | with_reducible refine Keeps.foldl _ (fun _ _ => ?_) ?_
    | extract_lets
    | split
    | dsimp only)

end Sys2Proof.Machine
end

