-- ==== Sys2Proof/Laws/FrameOperands.lean ====
section
/-! SUPPORT. Frames of Machine/Operands: for each operation, the parts of the state it may change. -/

namespace Sys2Proof.Machine

theorem issueRead_keeps (s : State) (j : Job) (r : Read) : Keeps (only [.mem]) s (issueRead s j r) := by
  unfold issueRead
  repeat' (first
    | with_reducible apply Keeps.refl
    | with_reducible assumption
    | ((with_reducible apply Keeps.step (addRead_keeps ..)); focus exact rfl)
    | with_reducible apply Keeps.ite
    | with_reducible apply Keeps.ite_fst
    | with_reducible refine Keeps.foldl _ (fun _ _ => ?_) ?_
    | extract_lets
    | split
    | dsimp only)

theorem issueReads_keeps (s : State) (j : Job) (rs : List Read) : Keeps (only [.mem]) s (issueReads s j rs) := by
  unfold issueReads
  repeat' (first
    | with_reducible apply Keeps.refl
    | with_reducible assumption
    | ((with_reducible apply Keeps.step (issueRead_keeps ..)); focus exact rfl)
    | with_reducible apply Keeps.ite
    | with_reducible apply Keeps.ite_fst
    | with_reducible refine Keeps.foldl _ (fun _ _ => ?_) ?_
    | extract_lets
    | split
    | dsimp only)

theorem writeAs_keeps (s : State) (j : Job) (k : WKind) (d : Nat) (off : Nat) (data : Bytes) : Keeps (only [.jobs, .mem]) s (writeAs s j k d off data)
    := by
  unfold writeAs
  repeat' (first
    | with_reducible apply Keeps.refl
    | with_reducible assumption
    | ((with_reducible apply Keeps.step (addWrites_keeps ..)); focus exact rfl)
    | ((with_reducible apply Keeps.step (State.modJob_keeps ..)); focus exact rfl)
    | with_reducible apply Keeps.ite
    | with_reducible apply Keeps.ite_fst
    | with_reducible refine Keeps.foldl _ (fun _ _ => ?_) ?_
    | extract_lets
    | split
    | dsimp only)

theorem writeBuf_keeps (s : State) (j : Job) (d : Nat) (off : Nat) (data : Bytes) : Keeps (only [.jobs, .mem]) s (writeBuf s j d off data) := by
  unfold writeBuf
  repeat' (first
    | with_reducible apply Keeps.refl
    | with_reducible assumption
    | ((with_reducible apply Keeps.step (writeAs_keeps ..)); focus exact rfl)
    | with_reducible apply Keeps.ite
    | with_reducible apply Keeps.ite_fst
    | with_reducible refine Keeps.foldl _ (fun _ _ => ?_) ?_
    | extract_lets
    | split
    | dsimp only)

theorem writeAt_keeps (s : State) (j : Job) (seat : Nat) (va : Nat) (data : Bytes) (attr : Nat) : Keeps (only [.jobs, .mem]) s (writeAt s j seat va
    data attr) := by
  unfold writeAt
  repeat' (first
    | with_reducible apply Keeps.refl
    | with_reducible assumption
    | ((with_reducible apply Keeps.step (State.modJob_keeps ..)); focus exact rfl)
    | ((with_reducible apply Keeps.step (addWrites_keeps ..)); focus exact rfl)
    | with_reducible apply Keeps.ite
    | with_reducible apply Keeps.ite_fst
    | with_reducible refine Keeps.foldl _ (fun _ _ => ?_) ?_
    | extract_lets
    | split
    | dsimp only)

end Sys2Proof.Machine
end

