-- ==== Sys2Proof/Laws/FrameRelayBase.lean ====
section
/-! SUPPORT. Frames of Machine/RelayBase: for each operation, the parts of the state it may change. -/

namespace Sys2Proof.Machine

theorem State.modHop_keeps (s : State) (sd : Side) (f : RHop → RHop) : Keeps (only [.relay]) s (State.modHop s sd f) := by
  unfold State.modHop
  repeat' (first
    | with_reducible apply Keeps.refl
    | with_reducible assumption
    | with_reducible apply Keeps.ite
    | with_reducible apply Keeps.ite_fst
    | with_reducible refine Keeps.foldl _ (fun _ _ => ?_) ?_
    | extract_lets
    | split
    | dsimp only
    | ((with_reducible apply Keeps.upd) <;> first | exact .inl rfl | exact .inr rfl | skip))

theorem hopPut_keeps (s : State) (sd : Side) (m : RSent) (t : List RSent) : Keeps (only [.relay]) s (hopPut s sd m t) := by
  unfold hopPut
  repeat' (first
    | with_reducible apply Keeps.refl
    | with_reducible assumption
    | ((with_reducible apply Keeps.step (State.modHop_keeps ..)); focus exact rfl)
    | with_reducible apply Keeps.ite
    | with_reducible apply Keeps.ite_fst
    | with_reducible refine Keeps.foldl _ (fun _ _ => ?_) ?_
    | extract_lets
    | split
    | dsimp only
    | ((with_reducible apply Keeps.upd) <;> first | exact .inl rfl | exact .inr rfl | skip))

theorem hopDrainF_keeps (sd : Side) (n : Nat) (s : State) : Keeps (only [.relay]) s (hopDrainF sd n s) := by
  induction n generalizing s with
  | zero => exact .refl _
  | succ n ih =>
    unfold hopDrainF
    repeat' split
    · exact .refl _
    · exact (hopPut_keeps ..).trans (ih _)
    · exact .refl _

theorem hopDrain_keeps (s : State) (sd : Side) : Keeps (only [.relay]) s (hopDrain s sd) := by
  unfold hopDrain
  repeat' (first
    | with_reducible apply Keeps.refl
    | with_reducible assumption
    | ((with_reducible apply Keeps.step (hopDrainF_keeps ..)); focus exact rfl)
    | with_reducible apply Keeps.ite
    | with_reducible apply Keeps.ite_fst
    | with_reducible refine Keeps.foldl _ (fun _ _ => ?_) ?_
    | extract_lets
    | split
    | dsimp only)

theorem hopSend_keeps (s : State) (sd : Side) (src : Nat) (dst : Nat) (hops : Nat) (msg : RMsg) : Keeps (only [.relay]) s (hopSend s sd src dst hops
    msg) := by
  unfold hopSend
  repeat' (first
    | with_reducible apply Keeps.refl
    | with_reducible assumption
    | ((with_reducible apply Keeps.step (State.modHop_keeps ..)); focus exact rfl)
    | ((with_reducible apply Keeps.step (hopDrain_keeps ..)); focus exact rfl)
    | with_reducible apply Keeps.ite
    | with_reducible apply Keeps.ite_fst
    | with_reducible refine Keeps.foldl _ (fun _ _ => ?_) ?_
    | extract_lets
    | split
    | dsimp only)

theorem sendTo_keeps (s : State) (dst : Nat) (msg : RMsg) : Keeps (only [.relay]) s (sendTo s dst msg) := by
  unfold sendTo
  repeat' (first
    | with_reducible apply Keeps.refl
    | with_reducible assumption
    | ((with_reducible apply Keeps.step (hopSend_keeps ..)); focus exact rfl)
    | with_reducible apply Keeps.ite
    | with_reducible apply Keeps.ite_fst
    | with_reducible refine Keeps.foldl _ (fun _ _ => ?_) ?_
    | extract_lets
    | split
    | dsimp only)

theorem sendBoth_keeps (s : State) (msg : RMsg) : Keeps (only [.relay]) s (sendBoth s msg) := by
  unfold sendBoth
  repeat' (first
    | with_reducible apply Keeps.refl
    | with_reducible assumption
    | ((with_reducible apply Keeps.step (hopSend_keeps ..)); focus exact rfl)
    | with_reducible apply Keeps.ite
    | with_reducible apply Keeps.ite_fst
    | with_reducible refine Keeps.foldl _ (fun _ _ => ?_) ?_
    | extract_lets
    | split
    | dsimp only)

theorem mailEnd_keeps (s : State) (r : Nat) : Keeps (only [.mem, .relay, .prompts]) s (mailEnd s r) := by
  unfold mailEnd
  repeat' (first
    | with_reducible apply Keeps.refl
    | with_reducible assumption
    | ((with_reducible apply Keeps.step (vector_keeps ..)); focus exact rfl)
    | with_reducible apply Keeps.ite
    | with_reducible apply Keeps.ite_fst
    | with_reducible refine Keeps.foldl _ (fun _ _ => ?_) ?_
    | extract_lets
    | split
    | dsimp only
    | ((with_reducible apply Keeps.upd) <;> first | exact .inl rfl | exact .inr rfl | skip))

theorem mailBreak_keeps (s : State) : Keeps (only [.mem, .relay, .prompts]) s (mailBreak s) := by
  unfold mailBreak
  repeat' (first
    | with_reducible apply Keeps.refl
    | with_reducible assumption
    | ((with_reducible apply Keeps.step (mailEnd_keeps ..)); focus exact rfl)
    | with_reducible apply Keeps.ite
    | with_reducible apply Keeps.ite_fst
    | with_reducible refine Keeps.foldl _ (fun _ _ => ?_) ?_
    | extract_lets
    | split
    | dsimp only)

theorem pairSeal_keeps (s : State) (a : Nat) (b : Nat) (mat : Bytes) : Keeps (only [.relay]) s (pairSeal s a b mat).1 := by
  unfold pairSeal
  repeat' (first
    | with_reducible apply Keeps.refl
    | with_reducible assumption
    | with_reducible apply Keeps.ite
    | with_reducible apply Keeps.ite_fst
    | with_reducible refine Keeps.foldl _ (fun _ _ => ?_) ?_
    | extract_lets
    | split
    | dsimp only
    | ((with_reducible apply Keeps.upd) <;> first | exact .inl rfl | exact .inr rfl | skip))

end Sys2Proof.Machine
end

