-- ==== Sys2Proof/Laws/FrameFinish.lean ====
section
/-! SUPPORT. Frames of Machine/Finish: for each operation, the parts of the state it may change. -/

namespace Sys2Proof.Machine

theorem dropReads_keeps (s : State) (id : Nat) : Keeps (only [.mem]) s (dropReads s id) := by
  unfold dropReads
  repeat' (first
    | with_reducible apply Keeps.refl
    | with_reducible assumption
    | with_reducible apply Keeps.ite
    | with_reducible apply Keeps.ite_fst
    | with_reducible refine Keeps.foldl _ (fun _ _ => ?_) ?_
    | extract_lets
    | split
    | dsimp only
    | ((with_reducible apply Keeps.upd) <;> first | exact .inl rfl | exact .inr rfl | skip))

theorem dropWrites_keeps (s : State) (id : Nat) : Keeps (only [.mem]) s (dropWrites s id) := by
  unfold dropWrites
  repeat' (first
    | with_reducible apply Keeps.refl
    | with_reducible assumption
    | with_reducible apply Keeps.ite
    | with_reducible apply Keeps.ite_fst
    | with_reducible refine Keeps.foldl _ (fun _ _ => ?_) ?_
    | extract_lets
    | split
    | dsimp only
    | ((with_reducible apply Keeps.upd) <;> first | exact .inl rfl | exact .inr rfl | skip))

theorem freeRegion_keeps (s : State) (id : Nat) (left : Bytes) : Keeps (only [.buffers]) s (freeRegion s id left) := by
  unfold freeRegion
  repeat' (first
    | with_reducible apply Keeps.refl
    | with_reducible assumption
    | with_reducible apply Keeps.ite
    | with_reducible apply Keeps.ite_fst
    | with_reducible refine Keeps.foldl _ (fun _ _ => ?_) ?_
    | extract_lets
    | split
    | dsimp only
    | ((with_reducible apply Keeps.upd) <;> first | exact .inl rfl | exact .inr rfl | skip))

theorem takeRegion_keeps (s : State) (b : Nat) (id : Nat) (seat : Nat) : Keeps (only [.buffers]) s (takeRegion s b id seat) := by
  unfold takeRegion
  repeat' (first
    | with_reducible apply Keeps.refl
    | with_reducible assumption
    | with_reducible apply Keeps.ite
    | with_reducible apply Keeps.ite_fst
    | with_reducible refine Keeps.foldl _ (fun _ _ => ?_) ?_
    | extract_lets
    | split
    | dsimp only
    | ((with_reducible apply Keeps.upd) <;> first | exact .inl rfl | exact .inr rfl | skip))

theorem wipeRegions_keeps (s : State) (p : Nat → Region → Bool) : Keeps (only [.buffers]) s (wipeRegions s p) := by
  unfold wipeRegions
  repeat' (first
    | with_reducible apply Keeps.refl
    | with_reducible assumption
    | with_reducible apply Keeps.ite
    | with_reducible apply Keeps.ite_fst
    | with_reducible refine Keeps.foldl _ (fun _ _ => ?_) ?_
    | extract_lets
    | split
    | dsimp only
    | ((with_reducible apply Keeps.upd) <;> first | exact .inl rfl | exact .inr rfl | skip))

theorem freeSpill_keeps (s : State) (id : Nat) : Keeps (only [.keys]) s (freeSpill s id) := by
  unfold freeSpill
  repeat' (first
    | with_reducible apply Keeps.refl
    | with_reducible assumption
    | with_reducible apply Keeps.ite
    | with_reducible apply Keeps.ite_fst
    | with_reducible refine Keeps.foldl _ (fun _ _ => ?_) ?_
    | extract_lets
    | split
    | dsimp only
    | ((with_reducible apply Keeps.upd) <;> first | exact .inl rfl | exact .inr rfl | skip))

theorem engineLeave_keeps (s : State) (id : Nat) : Keeps (only [.engines]) s (engineLeave s id) := by
  unfold engineLeave
  repeat' (first
    | with_reducible apply Keeps.refl
    | with_reducible assumption
    | with_reducible apply Keeps.ite
    | with_reducible apply Keeps.ite_fst
    | with_reducible refine Keeps.foldl _ (fun _ _ => ?_) ?_
    | extract_lets
    | split
    | dsimp only
    | ((with_reducible apply Keeps.upd) <;> first | exact .inl rfl | exact .inr rfl | skip))

theorem fixOutcome_keeps (s : State) (id : Nat) (o : Outcome) : Keeps (only [.jobs, .mem, .buffers]) s (fixOutcome s id o) := by
  unfold fixOutcome
  repeat' (first
    | with_reducible apply Keeps.refl
    | with_reducible assumption
    | ((with_reducible apply Keeps.step (freeRegion_keeps ..)); focus exact rfl)
    | ((with_reducible apply Keeps.step (dropReads_keeps ..)); focus exact rfl)
    | ((with_reducible apply Keeps.step (State.modJob_keeps ..)); focus exact rfl)
    | with_reducible apply Keeps.ite
    | with_reducible apply Keeps.ite_fst
    | with_reducible refine Keeps.foldl _ (fun _ _ => ?_) ?_
    | extract_lets
    | split
    | dsimp only)

theorem quit_keeps (s : State) (id : Nat) : Keeps (only [.jobs, .mem, .engines, .keys]) s (quit s id) := by
  unfold quit
  repeat' (first
    | with_reducible apply Keeps.refl
    | with_reducible assumption
    | ((with_reducible apply Keeps.step (engineLeave_keeps ..)); focus exact rfl)
    | ((with_reducible apply Keeps.step (freeSpill_keeps ..)); focus exact rfl)
    | ((with_reducible apply Keeps.step (dropWrites_keeps ..)); focus exact rfl)
    | ((with_reducible apply Keeps.step (State.modJob_keeps ..)); focus exact rfl)
    | with_reducible apply Keeps.ite
    | with_reducible apply Keeps.ite_fst
    | with_reducible refine Keeps.foldl _ (fun _ _ => ?_) ?_
    | extract_lets
    | split
    | dsimp only)

theorem stop_keeps (s : State) (id : Nat) (status : Nat) (sub : Nat) : Keeps (only [.jobs, .mem, .buffers, .engines, .keys]) s (stop s id status sub)
    := by
  unfold stop
  repeat' (first
    | with_reducible apply Keeps.refl
    | with_reducible assumption
    | ((with_reducible apply Keeps.step (quit_keeps ..)); focus exact rfl)
    | ((with_reducible apply Keeps.step (fixOutcome_keeps ..)); focus exact rfl)
    | with_reducible apply Keeps.ite
    | with_reducible apply Keeps.ite_fst
    | with_reducible refine Keeps.foldl _ (fun _ _ => ?_) ?_
    | extract_lets
    | split
    | dsimp only)

theorem failJob_keeps (s : State) (id : Nat) (status : Nat) (sub : Nat) : Keeps (only [.jobs, .mem, .buffers, .engines, .keys]) s (failJob s id status
    sub) := by
  unfold failJob
  repeat' (first
    | with_reducible apply Keeps.refl
    | with_reducible assumption
    | ((with_reducible apply Keeps.step (quit_keeps ..)); focus exact rfl)
    | ((with_reducible apply Keeps.step (fixOutcome_keeps ..)); focus exact rfl)
    | with_reducible apply Keeps.ite
    | with_reducible apply Keeps.ite_fst
    | with_reducible refine Keeps.foldl _ (fun _ _ => ?_) ?_
    | extract_lets
    | split
    | dsimp only)

theorem faultJob_keeps (s : State) (id : Nat) (sub : Nat) : Keeps (only [.jobs, .mem, .buffers, .engines, .keys]) s (faultJob s id sub) := by
  unfold faultJob
  repeat' (first
    | with_reducible apply Keeps.refl
    | with_reducible assumption
    | ((with_reducible apply Keeps.step (stop_keeps ..)); focus exact rfl)
    | ((with_reducible apply Keeps.step (dropWrites_keeps ..)); focus exact rfl)
    | ((with_reducible apply Keeps.step (State.modJob_keeps ..)); focus exact rfl)
    | with_reducible apply Keeps.ite
    | with_reducible apply Keeps.ite_fst
    | with_reducible refine Keeps.foldl _ (fun _ _ => ?_) ?_
    | extract_lets
    | split
    | dsimp only)

theorem noteFault_keeps (s : State) (a : Access) : Keeps (only [.jobs, .mem]) s (noteFault s a) := by
  unfold noteFault
  repeat' (first
    | with_reducible apply Keeps.refl
    | with_reducible assumption
    | ((with_reducible apply Keeps.step (State.modJob_keeps ..)); focus exact rfl)
    | with_reducible apply Keeps.ite
    | with_reducible apply Keeps.ite_fst
    | with_reducible refine Keeps.foldl _ (fun _ _ => ?_) ?_
    | extract_lets
    | split
    | dsimp only
    | ((with_reducible apply Keeps.upd) <;> first | exact .inl rfl | exact .inr rfl | skip))

theorem logFault_keeps (s : State) (seat : Nat) (sub : Nat) (va : Nat) (log : Bool) : Keeps (only [.seats, .seatRegs]) s (logFault s seat sub va log)
    := by
  unfold logFault
  repeat' (first
    | with_reducible apply Keeps.refl
    | with_reducible assumption
    | ((with_reducible apply Keeps.step (State.modSeat_keeps ..)); focus exact rfl)
    | with_reducible apply Keeps.ite
    | with_reducible apply Keeps.ite_fst
    | with_reducible refine Keeps.foldl _ (fun _ _ => ?_) ?_
    | extract_lets
    | split
    | dsimp only
    | ((with_reducible apply Keeps.upd) <;> first | exact .inl rfl | exact .inr rfl | skip))

theorem stopFetch_keeps (s : State) (seat : Nat) (slot : Nat) (quiet : Bool) : Keeps (only [.rings, .mem]) s (stopFetch s seat slot quiet) := by
  unfold stopFetch
  repeat' (first
    | with_reducible apply Keeps.refl
    | with_reducible assumption
    | ((with_reducible apply Keeps.step (State.modRing_keeps ..)); focus exact rfl)
    | with_reducible apply Keeps.ite
    | with_reducible apply Keeps.ite_fst
    | with_reducible refine Keeps.foldl _ (fun _ _ => ?_) ?_
    | extract_lets
    | split
    | dsimp only
    | ((with_reducible apply Keeps.upd) <;> first | exact .inl rfl | exact .inr rfl | skip))

theorem fetchFault_keeps (s : State) (seat : Nat) (slot : Nat) (k : Nat) (sub : Nat) : Keeps (only [.rings, .mem, .prompts]) s (fetchFault s seat slot
    k sub) := by
  unfold fetchFault
  repeat' (first
    | with_reducible apply Keeps.refl
    | with_reducible assumption
    | ((with_reducible apply Keeps.step (State.modRing_keeps ..)); focus exact rfl)
    | ((with_reducible apply Keeps.step (vector_keeps ..)); focus exact rfl)
    | ((with_reducible apply Keeps.step (stopFetch_keeps ..)); focus exact rfl)
    | with_reducible apply Keeps.ite
    | with_reducible apply Keeps.ite_fst
    | with_reducible refine Keeps.foldl _ (fun _ _ => ?_) ?_
    | extract_lets
    | split
    | dsimp only)

theorem cplFault_keeps (s : State) (seat : Nat) (slot : Nat) (idx : Nat) : Keeps (only [.alarms, .rings, .mem, .prompts]) s (cplFault s seat slot idx)
    := by
  unfold cplFault
  repeat' (first
    | with_reducible apply Keeps.refl
    | with_reducible assumption
    | ((with_reducible apply Keeps.step (State.modRing_keeps ..)); focus exact rfl)
    | ((with_reducible apply Keeps.step (alarmC_keeps ..)); focus exact rfl)
    | ((with_reducible apply Keeps.step (vector_keeps ..)); focus exact rfl)
    | ((with_reducible apply Keeps.step (stopFetch_keeps ..)); focus exact rfl)
    | with_reducible apply Keeps.ite
    | with_reducible apply Keeps.ite_fst
    | with_reducible refine Keeps.foldl _ (fun _ _ => ?_) ?_
    | extract_lets
    | split
    | dsimp only)

theorem countOutcome_keeps (s : State) (o : Outcome) : Keeps (only [.keys, .entropy]) s (countOutcome s o) := by
  unfold countOutcome
  repeat' (first
    | with_reducible apply Keeps.refl
    | with_reducible assumption
    | with_reducible apply Keeps.ite
    | with_reducible apply Keeps.ite_fst
    | with_reducible refine Keeps.foldl _ (fun _ _ => ?_) ?_
    | extract_lets
    | split
    | dsimp only
    | ((with_reducible apply Keeps.upd) <;> first | exact .inl rfl | exact .inr rfl | skip))

theorem lastAborted_keeps (s : State) : Keeps (only [.alarms, .prompts]) s (lastAborted s) := by
  unfold lastAborted
  repeat' (first
    | with_reducible apply Keeps.refl
    | with_reducible assumption
    | ((with_reducible apply Keeps.step (vector_keeps ..)); focus exact rfl)
    | with_reducible apply Keeps.ite
    | with_reducible apply Keeps.ite_fst
    | with_reducible refine Keeps.foldl _ (fun _ _ => ?_) ?_
    | extract_lets
    | split
    | dsimp only
    | ((with_reducible apply Keeps.upd) <;> first | exact .inl rfl | exact .inr rfl | skip))

theorem leave_keeps (s : State) (id : Nat) : Keeps (only [.alarms, .jobs, .prompts]) s (leave s id) := by
  unfold leave
  repeat' (first
    | with_reducible apply Keeps.refl
    | with_reducible assumption
    | ((with_reducible apply Keeps.step (lastAborted_keeps ..)); focus exact rfl)
    | ((with_reducible apply Keeps.step (State.dropJob_keeps ..)); focus exact rfl)
    | with_reducible apply Keeps.ite
    | with_reducible apply Keeps.ite_fst
    | with_reducible refine Keeps.foldl _ (fun _ _ => ?_) ?_
    | extract_lets
    | split
    | dsimp only)

theorem issueRecord_keeps (s : State) (j : Job) (o : Outcome) (slot : Nat) : Keeps (only [.rings, .jobs, .mem, .keys, .entropy]) s (issueRecord s j o
    slot) := by
  unfold issueRecord
  repeat' (first
    | with_reducible apply Keeps.refl
    | with_reducible assumption
    | ((with_reducible apply Keeps.step (countOutcome_keeps ..)); focus exact rfl)
    | ((with_reducible apply Keeps.step (addWrite_keeps ..)); focus exact rfl)
    | ((with_reducible apply Keeps.step (State.modJob_keeps ..)); focus exact rfl)
    | ((with_reducible apply Keeps.step (State.modRing_keeps ..)); focus exact rfl)
    | with_reducible apply Keeps.ite
    | with_reducible apply Keeps.ite_fst
    | with_reducible refine Keeps.foldl _ (fun _ _ => ?_) ?_
    | extract_lets
    | split
    | dsimp only)

theorem scrubJob_keeps (s : State) (j : Job) : Keeps (only [.jobs, .mem]) s (scrubJob s j) := by
  unfold scrubJob
  repeat' (first
    | with_reducible apply Keeps.refl
    | with_reducible assumption
    | ((with_reducible apply Keeps.step (State.modJob_keeps ..)); focus exact rfl)
    | ((with_reducible apply Keeps.step (addWrites_keeps ..)); focus exact rfl)
    | with_reducible apply Keeps.ite
    | with_reducible apply Keeps.ite_fst
    | with_reducible refine Keeps.foldl _ (fun _ _ => ?_) ?_
    | extract_lets
    | split
    | dsimp only)

theorem packetDone_keeps (s : State) (j : Job) (p : Pkt) (o : Outcome) (port : Nat) : Keeps (only [.alarms, .jobs, .keys, .entropy, .front, .prompts])
    s (packetDone s j p o port) := by
  unfold packetDone
  repeat' (first
    | with_reducible apply Keeps.refl
    | with_reducible assumption
    | ((with_reducible apply Keeps.step (countOutcome_keeps ..)); focus exact rfl)
    | ((with_reducible apply Keeps.step (leave_keeps ..)); focus exact rfl)
    | with_reducible apply Keeps.ite
    | with_reducible apply Keeps.ite_fst
    | with_reducible refine Keeps.foldl _ (fun _ _ => ?_) ?_
    | extract_lets
    | split
    | dsimp only
    | ((with_reducible apply Keeps.upd) <;> first | exact .inl rfl | exact .inr rfl | skip))

theorem settleJob_keeps (s : State) (id : Nat) : Keeps (only [.alarms, .rings, .jobs, .mem, .keys, .entropy, .front, .relay, .prompts]) s (settleJob s
    id) := by
  unfold settleJob
  repeat' (first
    | with_reducible apply Keeps.refl
    | with_reducible assumption
    | ((with_reducible apply Keeps.step (scrubJob_keeps ..)); focus exact rfl)
    | ((with_reducible apply Keeps.step (leave_keeps ..)); focus exact rfl)
    | ((with_reducible apply Keeps.step (countOutcome_keeps ..)); focus exact rfl)
    | ((with_reducible apply Keeps.step (issueRecord_keeps ..)); focus exact rfl)
    | ((with_reducible apply Keeps.step (packetDone_keeps ..)); focus exact rfl)
    | ((with_reducible apply Keeps.step (sendTo_keeps ..)); focus exact rfl)
    | with_reducible apply Keeps.ite
    | with_reducible apply Keeps.ite_fst
    | with_reducible refine Keeps.foldl _ (fun _ _ => ?_) ?_
    | extract_lets
    | split
    | dsimp only)

theorem fetchRecord_keeps (s : State) (seat : Nat) (slot : Nat) (f : Nat × Nat) : Keeps (only [.rings, .mem]) s (fetchRecord s seat slot f) := by
  unfold fetchRecord
  repeat' (first
    | with_reducible apply Keeps.refl
    | with_reducible assumption
    | ((with_reducible apply Keeps.step (State.modRing_keeps ..)); focus exact rfl)
    | ((with_reducible apply Keeps.step (addWrite_keeps ..)); focus exact rfl)
    | with_reducible apply Keeps.ite
    | with_reducible apply Keeps.ite_fst
    | with_reducible refine Keeps.foldl _ (fun _ _ => ?_) ?_
    | extract_lets
    | split
    | dsimp only)

theorem settleRing_keeps (s : State) (key : Nat) : Keeps (only [.rings, .mem]) s (settleRing s key) := by
  unfold settleRing
  repeat' (first
    | with_reducible apply Keeps.refl
    | with_reducible assumption
    | ((with_reducible apply Keeps.step (fetchRecord_keeps ..)); focus exact rfl)
    | ((with_reducible apply Keeps.step (State.modRing_keeps ..)); focus exact rfl)
    | with_reducible apply Keeps.ite
    | with_reducible apply Keeps.ite_fst
    | with_reducible refine Keeps.foldl _ (fun _ _ => ?_) ?_
    | extract_lets
    | split
    | dsimp only)

theorem settle_keeps (s : State) : Keeps (only [.alarms, .rings, .jobs, .mem, .keys, .entropy, .front, .relay, .prompts]) s (settle s) := by
  unfold settle
  repeat' (first
    | with_reducible apply Keeps.refl
    | with_reducible assumption
    | ((with_reducible apply Keeps.step (settleRing_keeps ..)); focus exact rfl)
    | ((with_reducible apply Keeps.step (settleJob_keeps ..)); focus exact rfl)
    | with_reducible apply Keeps.ite
    | with_reducible apply Keeps.ite_fst
    | with_reducible refine Keeps.foldl _ (fun _ _ => ?_) ?_
    | extract_lets
    | split
    | dsimp only)

theorem evalRing_keeps (s : State) (seat : Nat) (slot : Nat) : Keeps (only [.rings, .prompts]) s (evalRing s seat slot) := by
  unfold evalRing
  repeat' (first
    | with_reducible apply Keeps.refl
    | with_reducible assumption
    | ((with_reducible apply Keeps.step (State.modRing_keeps ..)); focus exact rfl)
    | ((with_reducible apply Keeps.step (raise_keeps ..)); focus exact rfl)
    | with_reducible apply Keeps.ite
    | with_reducible apply Keeps.ite_fst
    | with_reducible refine Keeps.foldl _ (fun _ _ => ?_) ?_
    | extract_lets
    | split
    | dsimp only)

theorem recordAcked_keeps (s : State) (seat : Nat) (slot : Nat) (idx : Nat) (promptNow : Bool) : Keeps (only [.rings, .prompts]) s (recordAcked s seat
    slot idx promptNow) := by
  unfold recordAcked
  repeat' (first
    | with_reducible apply Keeps.refl
    | with_reducible assumption
    | ((with_reducible apply Keeps.step (State.modRing_keeps ..)); focus exact rfl)
    | ((with_reducible apply Keeps.step (evalRing_keeps ..)); focus exact rfl)
    | with_reducible apply Keeps.ite
    | with_reducible apply Keeps.ite_fst
    | with_reducible refine Keeps.foldl _ (fun _ _ => ?_) ?_
    | extract_lets
    | split
    | dsimp only)

theorem migEnd_keeps (s : State) (result : Nat) : Keeps (only [.seats, .seatRegs, .jobs, .keys, .prompts]) s (migEnd s result) := by
  unfold migEnd
  repeat' (first
    | with_reducible apply Keeps.refl
    | with_reducible assumption
    | ((with_reducible apply Keeps.step (State.dropJob_keeps ..)); focus exact rfl)
    | ((with_reducible apply Keeps.step (freeSpill_keeps ..)); focus exact rfl)
    | ((with_reducible apply Keeps.step (State.modSeat_keeps ..)); focus exact rfl)
    | ((with_reducible apply Keeps.step (vector_keeps ..)); focus exact rfl)
    | with_reducible apply Keeps.ite
    | with_reducible apply Keeps.ite_fst
    | with_reducible refine Keeps.foldl _ (fun _ _ => ?_) ?_
    | extract_lets
    | split
    | dsimp only
    | ((with_reducible apply Keeps.upd) <;> first | exact .inl rfl | exact .inr rfl | skip))

theorem dropMig_keeps (s : State) : Keeps (only [.mem]) s (dropMig s) := by
  unfold dropMig
  repeat' (first
    | with_reducible apply Keeps.refl
    | with_reducible assumption
    | with_reducible apply Keeps.ite
    | with_reducible apply Keeps.ite_fst
    | with_reducible refine Keeps.foldl _ (fun _ _ => ?_) ?_
    | extract_lets
    | split
    | dsimp only
    | ((with_reducible apply Keeps.upd) <;> first | exact .inl rfl | exact .inr rfl | skip))

theorem State.noMigPage_keeps (s : State) (ord : Nat) : Keeps (only [.seatRegs]) s (State.noMigPage s ord) := by
  unfold State.noMigPage
  repeat' (first
    | with_reducible apply Keeps.refl
    | with_reducible assumption
    | with_reducible apply Keeps.ite
    | with_reducible apply Keeps.ite_fst
    | with_reducible refine Keeps.foldl _ (fun _ _ => ?_) ?_
    | extract_lets
    | split
    | dsimp only
    | ((with_reducible apply Keeps.upd) <;> first | exact .inl rfl | exact .inr rfl | skip))

theorem migFault_keeps (s : State) : Keeps (only [.seats, .seatRegs, .jobs, .mem, .keys, .prompts]) s (migFault s) := by
  unfold migFault
  repeat' (first
    | with_reducible apply Keeps.refl
    | with_reducible assumption
    | ((with_reducible apply Keeps.step (migEnd_keeps ..)); focus exact rfl)
    | ((with_reducible apply Keeps.step (dropMig_keeps ..)); focus exact rfl)
    | with_reducible apply Keeps.ite
    | with_reducible apply Keeps.ite_fst
    | with_reducible refine Keeps.foldl _ (fun _ _ => ?_) ?_
    | extract_lets
    | split
    | dsimp only)

theorem takeFree_keeps (s : State) : Keeps (only [.freeCount]) s (takeFree s).1 := by
  unfold takeFree
  repeat' (first
    | with_reducible apply Keeps.refl
    | with_reducible assumption
    | with_reducible apply Keeps.ite
    | with_reducible apply Keeps.ite_fst
    | with_reducible refine Keeps.foldl _ (fun _ _ => ?_) ?_
    | extract_lets
    | split
    | dsimp only
    | ((with_reducible apply Keeps.upd) <;> first | exact .inl rfl | exact .inr rfl | skip))

theorem faultWhere_keeps (s : State) (p : Job → Bool) (sub : Nat) : Keeps (only [.jobs, .mem, .buffers, .engines, .keys]) s (faultWhere s p sub) := by
  unfold faultWhere
  repeat' (first
    | with_reducible apply Keeps.refl
    | with_reducible assumption
    | ((with_reducible apply Keeps.step (faultJob_keeps ..)); focus exact rfl)
    | with_reducible apply Keeps.ite
    | with_reducible apply Keeps.ite_fst
    | with_reducible refine Keeps.foldl _ (fun _ _ => ?_) ?_
    | extract_lets
    | split
    | dsimp only)

theorem leaseFault_keeps (s : State) (i : Nat) (req : Nat) (off : Nat) (sub : Nat) : Keeps (only [.jobs, .mem, .buffers, .engines, .keys, .front]) s
    (leaseFault s i req off sub) := by
  unfold leaseFault
  repeat' (first
    | with_reducible apply Keeps.refl
    | with_reducible assumption
    | ((with_reducible apply Keeps.step (faultWhere_keeps ..)); focus exact rfl)
    | with_reducible apply Keeps.ite
    | with_reducible apply Keeps.ite_fst
    | with_reducible refine Keeps.foldl _ (fun _ _ => ?_) ?_
    | extract_lets
    | split
    | dsimp only
    | ((with_reducible apply Keeps.upd) <;> first | exact .inl rfl | exact .inr rfl | skip))

theorem useFault_keeps (s : State) (seat : Nat) (h : Nat) (req : Nat) (sub : Nat) : Keeps (only [.jobs, .mem, .buffers, .engines, .keys]) s (useFault
    s seat h req sub) := by
  unfold useFault
  repeat' (first
    | with_reducible apply Keeps.refl
    | with_reducible assumption
    | ((with_reducible apply Keeps.step (faultWhere_keeps ..)); focus exact rfl)
    | with_reducible apply Keeps.ite
    | with_reducible apply Keeps.ite_fst
    | with_reducible refine Keeps.foldl _ (fun _ _ => ?_) ?_
    | extract_lets
    | split
    | dsimp only
    | ((with_reducible apply Keeps.upd) <;> first | exact .inl rfl | exact .inr rfl | skip))

theorem faultOf_keeps (s : State) (job : Option Nat) (sub : Nat) : Keeps (only [.jobs, .mem, .buffers, .engines, .keys]) s (faultOf s job sub) := by
  unfold faultOf
  repeat' (first
    | with_reducible apply Keeps.refl
    | with_reducible assumption
    | ((with_reducible apply Keeps.step (faultJob_keeps ..)); focus exact rfl)
    | with_reducible apply Keeps.ite
    | with_reducible apply Keeps.ite_fst
    | with_reducible refine Keeps.foldl _ (fun _ _ => ?_) ?_
    | extract_lets
    | split
    | dsimp only)

theorem onFault_keeps (s : State) (a : Access) (sub : Nat) (more : Option Bytes) : Keeps (allBut [.pending, .params, .journal, .offers, .nextJob,
    .place, .window, .entropy, .time, .cust]) s (onFault s a sub more) := by
  unfold onFault
  repeat' (first
    | with_reducible apply Keeps.refl
    | with_reducible assumption
    | ((with_reducible apply Keeps.step (noteFault_keeps ..)); focus exact rfl)
    | ((with_reducible apply Keeps.step (logFault_keeps ..)); focus exact rfl)
    | ((with_reducible apply Keeps.step (State.dropAccess_keeps ..)); focus exact rfl)
    | ((with_reducible apply Keeps.step (State.modAccess_keeps ..)); focus exact rfl)
    | ((with_reducible apply Keeps.step (faultJob_keeps ..)); focus exact rfl)
    | ((with_reducible apply Keeps.step (leave_keeps ..)); focus exact rfl)
    | ((with_reducible apply Keeps.step (cplFault_keeps ..)); focus exact rfl)
    | ((with_reducible apply Keeps.step (fetchFault_keeps ..)); focus exact rfl)
    | ((with_reducible apply Keeps.step (leaseFault_keeps ..)); focus exact rfl)
    | ((with_reducible apply Keeps.step (useFault_keeps ..)); focus exact rfl)
    | ((with_reducible apply Keeps.step (faultOf_keeps ..)); focus exact rfl)
    | ((with_reducible apply Keeps.step (keepBucket_keeps ..)); focus exact rfl)
    | ((with_reducible apply Keeps.step (alarmC_keeps ..)); focus exact rfl)
    | ((with_reducible apply Keeps.step (State.noMigPage_keeps ..)); focus exact rfl)
    | ((with_reducible apply Keeps.step (migFault_keeps ..)); focus exact rfl)
    | ((with_reducible apply Keeps.step (takeFree_keeps ..)); focus exact rfl)
    | ((with_reducible apply Keeps.step (mailEnd_keeps ..)); focus exact rfl)
    | with_reducible refine Keeps.fst (by assumption) ?_
    | with_reducible apply Keeps.ite
    | with_reducible apply Keeps.ite_fst
    | with_reducible refine Keeps.foldl _ (fun _ _ => ?_) ?_
    | extract_lets
    | split
    | dsimp only
    | ((with_reducible apply Keeps.upd) <;> first | exact .inl rfl | exact .inr rfl | skip))

theorem pumpOne_keeps (s : State) (id : Nat) : Keeps (allBut [.pending, .params, .journal, .offers, .nextJob, .place, .window, .entropy, .time,
    .cust]) s (pumpOne s id) := by
  unfold pumpOne
  repeat' (first
    | with_reducible apply Keeps.refl
    | with_reducible assumption
    | ((with_reducible apply Keeps.step (memTry_keeps ..)); focus exact rfl)
    | ((with_reducible apply Keeps.step (onFault_keeps ..)); focus exact rfl)
    | with_reducible refine Keeps.fst (by assumption) ?_
    | with_reducible apply Keeps.ite
    | with_reducible apply Keeps.ite_fst
    | with_reducible refine Keeps.foldl _ (fun _ _ => ?_) ?_
    | extract_lets
    | split
    | dsimp only)

theorem pump_keeps (s : State) : Keeps (allBut [.pending, .params, .journal, .offers, .nextJob, .place, .window, .entropy, .time, .cust]) s (pump s)
    := by
  unfold pump
  repeat' (first
    | with_reducible apply Keeps.refl
    | with_reducible assumption
    | ((with_reducible apply Keeps.step (pumpOne_keeps ..)); focus exact rfl)
    | with_reducible apply Keeps.ite
    | with_reducible apply Keeps.ite_fst
    | with_reducible refine Keeps.foldl _ (fun _ _ => ?_) ?_
    | extract_lets
    | split
    | dsimp only)

theorem dropDeficits_keeps (s : State) : Keeps (only [.place, .keys]) s (dropDeficits s) := by
  unfold dropDeficits
  repeat' (first
    | with_reducible apply Keeps.refl
    | with_reducible assumption
    | with_reducible apply Keeps.ite
    | with_reducible apply Keeps.ite_fst
    | with_reducible refine Keeps.foldl _ (fun _ _ => ?_) ?_
    | extract_lets
    | split
    | dsimp only
    | ((with_reducible apply Keeps.upd) <;> first | exact .inl rfl | exact .inr rfl | skip))

theorem holdMem_keeps (s : State) (m : BlockMem) : Keeps (only [.buffers, .engines, .keys, .entropy, .front, .relay]) s (holdMem s m) := by
  unfold holdMem
  repeat' (first
    | with_reducible apply Keeps.refl
    | with_reducible assumption
    | with_reducible apply Keeps.ite
    | with_reducible apply Keeps.ite_fst
    | with_reducible refine Keeps.foldl _ (fun _ _ => ?_) ?_
    | extract_lets
    | split
    | dsimp only
    | ((with_reducible apply Keeps.upd) <;> first | exact .inl rfl | exact .inr rfl | skip))

theorem holdMems_keeps (s : State) : Keeps (only [.buffers, .engines, .keys, .entropy, .front, .relay]) s (holdMems s) := by
  unfold holdMems
  repeat' (first
    | with_reducible apply Keeps.refl
    | with_reducible assumption
    | ((with_reducible apply Keeps.step (holdMem_keeps ..)); focus exact rfl)
    | with_reducible apply Keeps.ite
    | with_reducible apply Keeps.ite_fst
    | with_reducible refine Keeps.foldl _ (fun _ _ => ?_) ?_
    | extract_lets
    | split
    | dsimp only)

theorem peerGoF_keeps (n : Nat) (s : State) : Keeps (only [.mem, .front]) s (peerGoF n s) := by
  induction n generalizing s with
  | zero => exact .refl _
  | succ n ih =>
    unfold peerGoF
    dsimp only
    repeat' (first
      | exact .refl _
      | refine Keeps.trans ?_ (ih _)
      | (with_reducible apply Keeps.step (addWrite_keeps ..)); focus exact rfl
      | split
      | (with_reducible apply Keeps.upd) <;> first | exact .inl rfl | exact .inr rfl | skip)

theorem peerGo_keeps (s : State) : Keeps (only [.mem, .front]) s (peerGo s) := by
  unfold peerGo
  repeat' (first
    | with_reducible apply Keeps.refl
    | with_reducible assumption
    | ((with_reducible apply Keeps.step (peerGoF_keeps ..)); focus exact rfl)
    | with_reducible apply Keeps.ite
    | with_reducible apply Keeps.ite_fst
    | with_reducible refine Keeps.foldl _ (fun _ _ => ?_) ?_
    | extract_lets
    | split
    | dsimp only)

theorem fin_keeps (s : State) : Keeps (allBut [.pending, .params, .journal, .offers, .nextJob, .window, .time, .cust]) s (fin s) := by
  unfold fin
  repeat' (first
    | with_reducible apply Keeps.refl
    | with_reducible assumption
    | ((with_reducible apply Keeps.step (dropDeficits_keeps ..)); focus exact rfl)
    | ((with_reducible apply Keeps.step (pump_keeps ..)); focus exact rfl)
    | ((with_reducible apply Keeps.step (settle_keeps ..)); focus exact rfl)
    | ((with_reducible apply Keeps.step (peerGo_keeps ..)); focus exact rfl)
    | ((with_reducible apply Keeps.step (holdMems_keeps ..)); focus exact rfl)
    | with_reducible apply Keeps.ite
    | with_reducible apply Keeps.ite_fst
    | with_reducible refine Keeps.foldl _ (fun _ _ => ?_) ?_
    | extract_lets
    | split
    | dsimp only)

theorem needReads_keeps (s : State) (id : Nat) (rs : List Read) : Keeps (only [.mem]) s (needReads s id rs) := by
  unfold needReads
  repeat' (first
    | with_reducible apply Keeps.refl
    | with_reducible assumption
    | ((with_reducible apply Keeps.step (issueReads_keeps ..)); focus exact rfl)
    | with_reducible apply Keeps.ite
    | with_reducible apply Keeps.ite_fst
    | with_reducible refine Keeps.foldl _ (fun _ _ => ?_) ?_
    | extract_lets
    | split
    | dsimp only)

end Sys2Proof.Machine
end

