-- ==== Sys2Proof/Laws/FrameFarm.lean ====
section
/-! SUPPORT. Frames of Machine/Farm: for each operation, the parts of the state it may change. -/

namespace Sys2Proof.Machine

theorem wantWords_keeps (s : State) (i : Nat) (n : Nat) (byJob : Bool) (addl : Bytes) (f : Drbg → Drbg) : Keeps (only [.entropy]) s (wantWords s i n
    byJob addl f) := by
  unfold wantWords
  repeat' (first
    | with_reducible apply Keeps.refl
    | with_reducible assumption
    | ((with_reducible apply Keeps.step (State.modInst_keeps ..)); focus exact rfl)
    | with_reducible apply Keeps.ite
    | with_reducible apply Keeps.ite_fst
    | with_reducible refine Keeps.foldl _ (fun _ _ => ?_) ?_
    | extract_lets
    | split
    | dsimp only
    | ((with_reducible apply Keeps.upd) <;> first | exact .inl rfl | exact .inr rfl | skip))

theorem instRequest_keeps (s : State) (i : Nat) : Keeps (only [.entropy]) s (instRequest s i) := by
  unfold instRequest
  repeat' (first
    | with_reducible apply Keeps.refl
    | with_reducible assumption
    | ((with_reducible apply Keeps.step (wantWords_keeps ..)); focus exact rfl)
    | with_reducible apply Keeps.ite
    | with_reducible apply Keeps.ite_fst
    | with_reducible refine Keeps.foldl _ (fun _ _ => ?_) ?_
    | extract_lets
    | split
    | dsimp only)

theorem requestAll_keeps (s : State) : Keeps (only [.entropy]) s (requestAll s) := by
  unfold requestAll
  repeat' (first
    | with_reducible apply Keeps.refl
    | with_reducible assumption
    | ((with_reducible apply Keeps.step (instRequest_keeps ..)); focus exact rfl)
    | with_reducible apply Keeps.ite
    | with_reducible apply Keeps.ite_fst
    | with_reducible refine Keeps.foldl _ (fun _ _ => ?_) ?_
    | extract_lets
    | split
    | dsimp only)

theorem reseedRequest_keeps (s : State) (i : Nat) (byJob : Bool) (addl : Bytes) : Keeps (only [.entropy]) s (reseedRequest s i byJob addl) := by
  unfold reseedRequest
  repeat' (first
    | with_reducible apply Keeps.refl
    | with_reducible assumption
    | ((with_reducible apply Keeps.step (wantWords_keeps ..)); focus exact rfl)
    | with_reducible apply Keeps.ite
    | with_reducible apply Keeps.ite_fst
    | with_reducible refine Keeps.foldl _ (fun _ _ => ?_) ?_
    | extract_lets
    | split
    | dsimp only)

theorem zeroInst_keeps (s : State) (i : Nat) : Keeps (only [.entropy]) s (zeroInst s i) := by
  unfold zeroInst
  repeat' (first
    | with_reducible apply Keeps.refl
    | with_reducible assumption
    | ((with_reducible apply Keeps.step (State.modInst_keeps ..)); focus exact rfl)
    | with_reducible apply Keeps.ite
    | with_reducible apply Keeps.ite_fst
    | with_reducible refine Keeps.foldl _ (fun _ _ => ?_) ?_
    | extract_lets
    | split
    | dsimp only)

theorem zeroAllInst_keeps (s : State) : Keeps (only [.entropy]) s (zeroAllInst s) := by
  unfold zeroAllInst
  repeat' (first
    | with_reducible apply Keeps.refl
    | with_reducible assumption
    | with_reducible apply Keeps.ite
    | with_reducible apply Keeps.ite_fst
    | with_reducible refine Keeps.foldl _ (fun _ _ => ?_) ?_
    | extract_lets
    | split
    | dsimp only
    | ((with_reducible apply Keeps.upd) <;> first | exact .inl rfl | exact .inr rfl | skip))

theorem draw_keeps (s : State) (i : Nat) (n : Nat) (addl : Bytes) : Keeps (only [.entropy]) s (draw s i n addl).1 := by
  unfold draw
  repeat' (first
    | with_reducible apply Keeps.refl
    | with_reducible assumption
    | ((with_reducible apply Keeps.step (State.modInst_keeps ..)); focus exact rfl)
    | ((with_reducible apply Keeps.step (reseedRequest_keeps ..)); focus exact rfl)
    | with_reducible apply Keeps.ite
    | with_reducible apply Keeps.ite_fst
    | with_reducible refine Keeps.foldl _ (fun _ _ => ?_) ?_
    | extract_lets
    | split
    | dsimp only)

theorem tryDraw_keeps (s : State) (i : Nat) (n : Nat) : OptKeeps2 (only [.entropy]) s (tryDraw s i n) := by
  unfold tryDraw
  repeat' (first
    | with_reducible apply Keeps.refl
    | with_reducible assumption
    | with_reducible exact OptKeeps2.none
    | with_reducible apply OptKeeps2.some
    | ((with_reducible apply Keeps.step (draw_keeps ..)); focus exact rfl)
    | with_reducible refine Keeps.fst (by assumption) ?_
    | with_reducible apply Keeps.ite
    | with_reducible apply Keeps.ite_fst
    | with_reducible refine Keeps.foldl _ (fun _ _ => ?_) ?_
    | extract_lets
    | split
    | dsimp only)

theorem seedDone_keeps (s : State) (i : Nat) : Keeps (only [.entropy]) s (seedDone s i) := by
  unfold seedDone
  repeat' (first
    | with_reducible apply Keeps.refl
    | with_reducible assumption
    | ((with_reducible apply Keeps.step (State.modInst_keeps ..)); focus exact rfl)
    | with_reducible apply Keeps.ite
    | with_reducible apply Keeps.ite_fst
    | with_reducible refine Keeps.foldl _ (fun _ _ => ?_) ?_
    | extract_lets
    | split
    | dsimp only
    | ((with_reducible apply Keeps.upd) <;> first | exact .inl rfl | exact .inr rfl | skip))

theorem deliverWord_keeps (s : State) : Keeps (only [.entropy]) s (deliverWord s) := by
  unfold deliverWord
  repeat' (first
    | with_reducible apply Keeps.refl
    | with_reducible assumption
    | ((with_reducible apply Keeps.step (State.modInst_keeps ..)); focus exact rfl)
    | ((with_reducible apply Keeps.step (seedDone_keeps ..)); focus exact rfl)
    | with_reducible apply Keeps.ite
    | with_reducible apply Keeps.ite_fst
    | with_reducible refine Keeps.foldl _ (fun _ _ => ?_) ?_
    | extract_lets
    | split
    | dsimp only
    | ((with_reducible apply Keeps.upd) <;> first | exact .inl rfl | exact .inr rfl | skip))

theorem beginWait_keeps (s : State) (id : Nat) : Keeps (only [.jobs]) s (beginWait s id) := by
  unfold beginWait
  repeat' (first
    | with_reducible apply Keeps.refl
    | with_reducible assumption
    | ((with_reducible apply Keeps.step (State.modJob_keeps ..)); focus exact rfl)
    | with_reducible apply Keeps.ite
    | with_reducible apply Keeps.ite_fst
    | with_reducible refine Keeps.foldl _ (fun _ _ => ?_) ?_
    | extract_lets
    | split
    | dsimp only)

theorem endWait_keeps (s : State) (id : Nat) : Keeps (only [.jobs]) s (endWait s id) := by
  unfold endWait
  repeat' (first
    | with_reducible apply Keeps.refl
    | with_reducible assumption
    | ((with_reducible apply Keeps.step (State.modJob_keeps ..)); focus exact rfl)
    | with_reducible apply Keeps.ite
    | with_reducible apply Keeps.ite_fst
    | with_reducible refine Keeps.foldl _ (fun _ _ => ?_) ?_
    | extract_lets
    | split
    | dsimp only)

theorem failDrawers_keeps (s : State) (status : Nat) : Keeps (only [.jobs, .mem, .buffers, .engines, .keys]) s (failDrawers s status) := by
  unfold failDrawers
  repeat' (first
    | with_reducible apply Keeps.refl
    | with_reducible assumption
    | ((with_reducible apply Keeps.step (stop_keeps ..)); focus exact rfl)
    | with_reducible apply Keeps.ite
    | with_reducible apply Keeps.ite_fst
    | with_reducible refine Keeps.foldl _ (fun _ _ => ?_) ?_
    | extract_lets
    | split
    | dsimp only)

theorem alarmB_keeps (s : State) (cause : Nat) (d0 : Nat) : Keeps (only [.alarms, .jobs, .mem, .buffers, .engines, .keys, .entropy, .prompts]) s
    (alarmB s cause d0) := by
  unfold alarmB
  repeat' (first
    | with_reducible apply Keeps.refl
    | with_reducible assumption
    | ((with_reducible apply Keeps.step (almLog_keeps ..)); focus exact rfl)
    | ((with_reducible apply Keeps.step (vector_keeps ..)); focus exact rfl)
    | ((with_reducible apply Keeps.step (failDrawers_keeps ..)); focus exact rfl)
    | ((with_reducible apply Keeps.step (zeroAllInst_keeps ..)); focus exact rfl)
    | with_reducible apply Keeps.ite
    | with_reducible apply Keeps.ite_fst
    | with_reducible refine Keeps.foldl _ (fun _ _ => ?_) ?_
    | extract_lets
    | split
    | dsimp only
    | ((with_reducible apply Keeps.upd) <;> first | exact .inl rfl | exact .inr rfl | skip))

theorem restartSource_keeps (s : State) (i : Nat) : Keeps (only [.entropy]) s (restartSource s i) := by
  unfold restartSource
  repeat' (first
    | with_reducible apply Keeps.refl
    | with_reducible assumption
    | ((with_reducible apply Keeps.step (State.modSource_keeps ..)); focus exact rfl)
    | with_reducible apply Keeps.ite
    | with_reducible apply Keeps.ite_fst
    | with_reducible refine Keeps.foldl _ (fun _ _ => ?_) ?_
    | extract_lets
    | split
    | dsimp only)

theorem endRehearsal_keeps (s : State) : Keeps (only [.jobs, .mem, .buffers, .engines, .keys, .entropy, .prompts]) s (endRehearsal s) := by
  unfold endRehearsal
  repeat' (first
    | with_reducible apply Keeps.refl
    | with_reducible assumption
    | ((with_reducible apply Keeps.step (stop_keeps ..)); focus exact rfl)
    | ((with_reducible apply Keeps.step (State.modSource_keeps ..)); focus exact rfl)
    | ((with_reducible apply Keeps.step (restartSource_keeps ..)); focus exact rfl)
    | ((with_reducible apply Keeps.step (vector_keeps ..)); focus exact rfl)
    | ((with_reducible apply Keeps.step (requestAll_keeps ..)); focus exact rfl)
    | with_reducible apply Keeps.ite
    | with_reducible apply Keeps.ite_fst
    | with_reducible refine Keeps.foldl _ (fun _ _ => ?_) ?_
    | extract_lets
    | split
    | dsimp only
    | ((with_reducible apply Keeps.upd) <;> first | exact .inl rfl | exact .inr rfl | skip))

end Sys2Proof.Machine
end

