-- ==== Sys2Proof/Laws/FrameTime.lean ====
section
/-! SUPPORT. Frames of Machine/Time: for each operation, the parts of the state it may change. -/

namespace Sys2Proof.Machine

theorem tick_keeps (s : State) : Keeps (only [.time]) s (tick s) := by
  unfold tick
  repeat' (first
    | with_reducible apply Keeps.refl
    | with_reducible assumption
    | with_reducible apply Keeps.ite
    | with_reducible apply Keeps.ite_fst
    | with_reducible refine Keeps.foldl _ (fun _ _ => ?_) ?_
    | extract_lets
    | split
    | dsimp only
    | ((with_reducible apply Keeps.upd) <;> first | exact .inl rfl | exact .inr rfl | skip))

theorem timeStop_keeps (s : State) : Keeps (only [.time]) s (timeStop s) := by
  unfold timeStop
  repeat' (first
    | with_reducible apply Keeps.refl
    | with_reducible assumption
    | with_reducible apply Keeps.ite
    | with_reducible apply Keeps.ite_fst
    | with_reducible refine Keeps.foldl _ (fun _ _ => ?_) ?_
    | extract_lets
    | split
    | dsimp only
    | ((with_reducible apply Keeps.upd) <;> first | exact .inl rfl | exact .inr rfl | skip))

theorem timeStart_keeps (s : State) : Keeps (only [.alarms, .time, .prompts]) s (timeStart s) := by
  unfold timeStart
  repeat' (first
    | with_reducible apply Keeps.refl
    | with_reducible assumption
    | ((with_reducible apply Keeps.step (alarmC_keeps ..)); focus exact rfl)
    | with_reducible apply Keeps.ite
    | with_reducible apply Keeps.ite_fst
    | with_reducible refine Keeps.foldl _ (fun _ _ => ?_) ?_
    | extract_lets
    | split
    | dsimp only
    | ((with_reducible apply Keeps.upd) <;> first | exact .inl rfl | exact .inr rfl | skip))

theorem refLose_keeps (s : State) : Keeps (only [.alarms, .time, .prompts]) s (refLose s) := by
  unfold refLose
  repeat' (first
    | with_reducible apply Keeps.refl
    | with_reducible assumption
    | ((with_reducible apply Keeps.step (vector_keeps ..)); focus exact rfl)
    | ((with_reducible apply Keeps.step (alarmC_keeps ..)); focus exact rfl)
    | with_reducible apply Keeps.ite
    | with_reducible apply Keeps.ite_fst
    | with_reducible refine Keeps.foldl _ (fun _ _ => ?_) ?_
    | extract_lets
    | split
    | dsimp only
    | ((with_reducible apply Keeps.upd) <;> first | exact .inl rfl | exact .inr rfl | skip))

theorem execRefclkLost_keeps (s : State) : OutKeeps (only [.alarms, .time, .prompts]) s (execRefclkLost s) := by
  unfold execRefclkLost
  repeat' (first
    | with_reducible apply Keeps.refl
    | with_reducible assumption
    | with_reducible exact OutKeeps.fault
    | with_reducible exact OutKeeps.refused
    | with_reducible apply OutKeeps.ok
    | with_reducible apply OutKeeps.next
    | with_reducible apply OutKeeps.ite
    | ((with_reducible apply Keeps.step (refLose_keeps ..)); focus exact rfl)
    | with_reducible apply Keeps.ite
    | with_reducible apply Keeps.ite_fst
    | with_reducible refine Keeps.foldl _ (fun _ _ => ?_) ?_
    | extract_lets
    | split
    | dsimp only)

theorem refBack_keeps (s : State) (khz : Nat) : Keeps (only [.time, .prompts]) s (refBack s khz) := by
  unfold refBack
  repeat' (first
    | with_reducible apply Keeps.refl
    | with_reducible assumption
    | ((with_reducible apply Keeps.step (vector_keeps ..)); focus exact rfl)
    | with_reducible apply Keeps.ite
    | with_reducible apply Keeps.ite_fst
    | with_reducible refine Keeps.foldl _ (fun _ _ => ?_) ?_
    | extract_lets
    | split
    | dsimp only
    | ((with_reducible apply Keeps.upd) <;> first | exact .inl rfl | exact .inr rfl | skip))

theorem portValue_keeps (s : State) : Keeps (only [.time]) s (portValue s) := by
  unfold portValue
  repeat' (first
    | with_reducible apply Keeps.refl
    | with_reducible assumption
    | with_reducible apply Keeps.ite
    | with_reducible apply Keeps.ite_fst
    | with_reducible refine Keeps.foldl _ (fun _ _ => ?_) ?_
    | extract_lets
    | split
    | dsimp only
    | ((with_reducible apply Keeps.upd) <;> first | exact .inl rfl | exact .inr rfl | skip))

theorem execTimePortValue_keeps (s : State) : OutKeeps (only [.time]) s (execTimePortValue s) := by
  unfold execTimePortValue
  repeat' (first
    | with_reducible apply Keeps.refl
    | with_reducible assumption
    | with_reducible exact OutKeeps.fault
    | with_reducible exact OutKeeps.refused
    | with_reducible apply OutKeeps.ok
    | with_reducible apply OutKeeps.next
    | with_reducible apply OutKeeps.ite
    | ((with_reducible apply Keeps.step (portValue_keeps ..)); focus exact rfl)
    | with_reducible apply Keeps.ite
    | with_reducible apply Keeps.ite_fst
    | with_reducible refine Keeps.foldl _ (fun _ _ => ?_) ?_
    | extract_lets
    | split
    | dsimp only)

theorem ppsUp_keeps (s : State) : Keeps (only [.time]) s (ppsUp s) := by
  unfold ppsUp
  repeat' (first
    | with_reducible apply Keeps.refl
    | with_reducible assumption
    | with_reducible apply Keeps.ite
    | with_reducible apply Keeps.ite_fst
    | with_reducible refine Keeps.foldl _ (fun _ _ => ?_) ?_
    | extract_lets
    | split
    | dsimp only
    | ((with_reducible apply Keeps.upd) <;> first | exact .inl rfl | exact .inr rfl | skip))

theorem execPpsRise_keeps (s : State) : OutKeeps (only [.time]) s (execPpsRise s) := by
  unfold execPpsRise
  repeat' (first
    | with_reducible apply Keeps.refl
    | with_reducible assumption
    | with_reducible exact OutKeeps.fault
    | with_reducible exact OutKeeps.refused
    | with_reducible apply OutKeeps.ok
    | with_reducible apply OutKeeps.next
    | with_reducible apply OutKeeps.ite
    | ((with_reducible apply Keeps.step (ppsUp_keeps ..)); focus exact rfl)
    | with_reducible apply Keeps.ite
    | with_reducible apply Keeps.ite_fst
    | with_reducible refine Keeps.foldl _ (fun _ _ => ?_) ?_
    | extract_lets
    | split
    | dsimp only)

theorem ppsDown_keeps (s : State) : Keeps (only [.time]) s (ppsDown s) := by
  unfold ppsDown
  repeat' (first
    | with_reducible apply Keeps.refl
    | with_reducible assumption
    | with_reducible apply Keeps.ite
    | with_reducible apply Keeps.ite_fst
    | with_reducible refine Keeps.foldl _ (fun _ _ => ?_) ?_
    | extract_lets
    | split
    | dsimp only
    | ((with_reducible apply Keeps.upd) <;> first | exact .inl rfl | exact .inr rfl | skip))

theorem execPpsFall_keeps (s : State) : OutKeeps (only [.time]) s (execPpsFall s) := by
  unfold execPpsFall
  repeat' (first
    | with_reducible apply Keeps.refl
    | with_reducible assumption
    | with_reducible exact OutKeeps.fault
    | with_reducible exact OutKeeps.refused
    | with_reducible apply OutKeeps.ok
    | with_reducible apply OutKeeps.next
    | with_reducible apply OutKeeps.ite
    | ((with_reducible apply Keeps.step (ppsDown_keeps ..)); focus exact rfl)
    | with_reducible apply Keeps.ite
    | with_reducible apply Keeps.ite_fst
    | with_reducible refine Keeps.foldl _ (fun _ _ => ?_) ?_
    | extract_lets
    | split
    | dsimp only)

theorem State.setCapture_keeps (s : State) (n : Nat) (c : Capture) : Keeps (only [.time]) s (State.setCapture s n c) := by
  unfold State.setCapture
  repeat' (first
    | with_reducible apply Keeps.refl
    | with_reducible assumption
    | with_reducible apply Keeps.ite
    | with_reducible apply Keeps.ite_fst
    | with_reducible refine Keeps.foldl _ (fun _ _ => ?_) ?_
    | extract_lets
    | split
    | dsimp only
    | ((with_reducible apply Keeps.upd) <;> first | exact .inl rfl | exact .inr rfl | skip))

theorem capEdge_keeps (s : State) (n : Nat) : Keeps (only [.time, .prompts]) s (capEdge s n) := by
  unfold capEdge
  repeat' (first
    | with_reducible apply Keeps.refl
    | with_reducible assumption
    | ((with_reducible apply Keeps.step (State.setCapture_keeps ..)); focus exact rfl)
    | ((with_reducible apply Keeps.step (vector_keeps ..)); focus exact rfl)
    | with_reducible apply Keeps.ite
    | with_reducible apply Keeps.ite_fst
    | with_reducible refine Keeps.foldl _ (fun _ _ => ?_) ?_
    | extract_lets
    | split
    | dsimp only)

theorem execCaptureEdge_keeps (n : Nat) (s : State) : OutKeeps (only [.time, .prompts]) s (execCaptureEdge n s) := by
  unfold execCaptureEdge
  repeat' (first
    | with_reducible apply Keeps.refl
    | with_reducible assumption
    | with_reducible exact OutKeeps.fault
    | with_reducible exact OutKeeps.refused
    | with_reducible apply OutKeeps.ok
    | with_reducible apply OutKeeps.next
    | with_reducible apply OutKeeps.ite
    | ((with_reducible apply Keeps.step (capEdge_keeps ..)); focus exact rfl)
    | with_reducible apply Keeps.ite
    | with_reducible apply Keeps.ite_fst
    | with_reducible refine Keeps.foldl _ (fun _ _ => ?_) ?_
    | extract_lets
    | split
    | dsimp only)

theorem execCaptureSnapshot_keeps (n : Nat) (s : State) : OutKeeps (only [.seatRegs, .time]) s (execCaptureSnapshot n s) := by
  unfold execCaptureSnapshot
  repeat' (first
    | with_reducible apply Keeps.refl
    | with_reducible assumption
    | with_reducible exact OutKeeps.fault
    | with_reducible exact OutKeeps.refused
    | with_reducible apply OutKeeps.ok
    | with_reducible apply OutKeeps.next
    | with_reducible apply OutKeeps.ite
    | ((with_reducible apply hregRead_keeps); focus exact rfl)
    | ((with_reducible apply Keeps.step (readBack_keeps ..)); focus exact rfl)
    | ((with_reducible apply Keeps.step (State.setCapture_keeps ..)); focus exact rfl)
    | with_reducible intro _
    | with_reducible apply Keeps.self
    | with_reducible apply Keeps.ite
    | with_reducible apply Keeps.ite_fst
    | with_reducible refine Keeps.foldl _ (fun _ _ => ?_) ?_
    | extract_lets
    | split
    | dsimp only)

theorem execNowSnapshot_keeps (s : State) : OutKeeps (only [.seatRegs, .time]) s (execNowSnapshot s) := by
  unfold execNowSnapshot
  repeat' (first
    | with_reducible apply Keeps.refl
    | with_reducible assumption
    | with_reducible exact OutKeeps.fault
    | with_reducible exact OutKeeps.refused
    | with_reducible apply OutKeeps.ok
    | with_reducible apply OutKeeps.next
    | with_reducible apply OutKeeps.ite
    | ((with_reducible apply hregRead_keeps); focus exact rfl)
    | ((with_reducible apply Keeps.step (readBack_keeps ..)); focus exact rfl)
    | with_reducible intro _
    | with_reducible apply Keeps.self
    | with_reducible apply Keeps.ite
    | with_reducible apply Keeps.ite_fst
    | with_reducible refine Keeps.foldl _ (fun _ _ => ?_) ?_
    | extract_lets
    | split
    | dsimp only
    | ((with_reducible apply Keeps.upd) <;> first | exact .inl rfl | exact .inr rfl | skip))

theorem execSecureSnapshot_keeps (s : State) : OutKeeps (only [.seatRegs, .time]) s (execSecureSnapshot s) := by
  unfold execSecureSnapshot
  repeat' (first
    | with_reducible apply Keeps.refl
    | with_reducible assumption
    | with_reducible exact OutKeeps.fault
    | with_reducible exact OutKeeps.refused
    | with_reducible apply OutKeeps.ok
    | with_reducible apply OutKeeps.next
    | with_reducible apply OutKeeps.ite
    | ((with_reducible apply hregRead_keeps); focus exact rfl)
    | ((with_reducible apply Keeps.step (readBack_keeps ..)); focus exact rfl)
    | with_reducible intro _
    | with_reducible apply Keeps.self
    | with_reducible apply Keeps.ite
    | with_reducible apply Keeps.ite_fst
    | with_reducible refine Keeps.foldl _ (fun _ _ => ?_) ?_
    | extract_lets
    | split
    | dsimp only
    | ((with_reducible apply Keeps.upd) <;> first | exact .inl rfl | exact .inr rfl | skip))

theorem rateHi_keeps (s : State) (v : W32) : Keeps (only [.alarms, .time, .prompts]) s (rateHi s v) := by
  unfold rateHi
  repeat' (first
    | with_reducible apply Keeps.refl
    | with_reducible assumption
    | ((with_reducible apply Keeps.step (refuse_keeps ..)); focus exact rfl)
    | with_reducible apply Keeps.ite
    | with_reducible apply Keeps.ite_fst
    | with_reducible refine Keeps.foldl _ (fun _ _ => ?_) ?_
    | extract_lets
    | split
    | dsimp only
    | ((with_reducible apply Keeps.upd) <;> first | exact .inl rfl | exact .inr rfl | skip))

theorem execRateWrite_keeps (value : W32) (s : State) : OutKeeps (only [.alarms, .time, .prompts]) s (execRateWrite value s) := by
  unfold execRateWrite
  repeat' (first
    | with_reducible apply Keeps.refl
    | with_reducible assumption
    | with_reducible exact OutKeeps.fault
    | with_reducible exact OutKeeps.refused
    | with_reducible apply OutKeeps.ok
    | with_reducible apply OutKeeps.next
    | with_reducible apply OutKeeps.ite
    | ((with_reducible apply mgrWrite_keeps); focus exact rfl)
    | ((with_reducible apply Keeps.step (rateHi_keeps ..)); focus exact rfl)
    | with_reducible intro _
    | with_reducible apply Keeps.self
    | with_reducible apply Keeps.ite
    | with_reducible apply Keeps.ite_fst
    | with_reducible refine Keeps.foldl _ (fun _ _ => ?_) ?_
    | extract_lets
    | split
    | dsimp only)

theorem applyStep_keeps (s : State) (d : Int) : Keeps (only [.time]) s (applyStep s d) := by
  unfold applyStep
  repeat' (first
    | with_reducible apply Keeps.refl
    | with_reducible assumption
    | with_reducible apply Keeps.ite
    | with_reducible apply Keeps.ite_fst
    | with_reducible refine Keeps.foldl _ (fun _ _ => ?_) ?_
    | extract_lets
    | split
    | dsimp only
    | ((with_reducible apply Keeps.upd) <;> first | exact .inl rfl | exact .inr rfl | skip))

theorem stepCmd_keeps (s : State) (frac : BitVec 16) : Keeps (only [.alarms, .time, .prompts]) s (stepCmd s frac) := by
  unfold stepCmd
  repeat' (first
    | with_reducible apply Keeps.refl
    | with_reducible assumption
    | ((with_reducible apply Keeps.step (refuse_keeps ..)); focus exact rfl)
    | ((with_reducible apply Keeps.step (applyStep_keeps ..)); focus exact rfl)
    | with_reducible apply Keeps.ite
    | with_reducible apply Keeps.ite_fst
    | with_reducible refine Keeps.foldl _ (fun _ _ => ?_) ?_
    | extract_lets
    | split
    | dsimp only)

theorem execTimeStep_keeps (frac : BitVec 16) (s : State) : OutKeeps (only [.alarms, .time, .prompts]) s (execTimeStep frac s) := by
  unfold execTimeStep
  repeat' (first
    | with_reducible apply Keeps.refl
    | with_reducible assumption
    | with_reducible exact OutKeeps.fault
    | with_reducible exact OutKeeps.refused
    | with_reducible apply OutKeeps.ok
    | with_reducible apply OutKeeps.next
    | with_reducible apply OutKeeps.ite
    | ((with_reducible apply mgrWrite_keeps); focus exact rfl)
    | ((with_reducible apply Keeps.step (stepCmd_keeps ..)); focus exact rfl)
    | with_reducible intro _
    | with_reducible apply Keeps.self
    | with_reducible apply Keeps.ite
    | with_reducible apply Keeps.ite_fst
    | with_reducible refine Keeps.foldl _ (fun _ _ => ?_) ?_
    | extract_lets
    | split
    | dsimp only)

theorem slewCmd_keeps (s : State) (frac : BitVec 16) : Keeps (only [.alarms, .time, .prompts]) s (slewCmd s frac) := by
  unfold slewCmd
  repeat' (first
    | with_reducible apply Keeps.refl
    | with_reducible assumption
    | ((with_reducible apply Keeps.step (refuse_keeps ..)); focus exact rfl)
    | ((with_reducible apply Keeps.step (vector_keeps ..)); focus exact rfl)
    | with_reducible apply Keeps.ite
    | with_reducible apply Keeps.ite_fst
    | with_reducible refine Keeps.foldl _ (fun _ _ => ?_) ?_
    | extract_lets
    | split
    | dsimp only
    | ((with_reducible apply Keeps.upd) <;> first | exact .inl rfl | exact .inr rfl | skip))

theorem execSlew_keeps (frac : BitVec 16) (s : State) : OutKeeps (only [.alarms, .time, .prompts]) s (execSlew frac s) := by
  unfold execSlew
  repeat' (first
    | with_reducible apply Keeps.refl
    | with_reducible assumption
    | with_reducible exact OutKeeps.fault
    | with_reducible exact OutKeeps.refused
    | with_reducible apply OutKeeps.ok
    | with_reducible apply OutKeeps.next
    | with_reducible apply OutKeeps.ite
    | ((with_reducible apply mgrWrite_keeps); focus exact rfl)
    | ((with_reducible apply Keeps.step (slewCmd_keeps ..)); focus exact rfl)
    | with_reducible intro _
    | with_reducible apply Keeps.self
    | with_reducible apply Keeps.ite
    | with_reducible apply Keeps.ite_fst
    | with_reducible refine Keeps.foldl _ (fun _ _ => ?_) ?_
    | extract_lets
    | split
    | dsimp only)

theorem cancelCmd_keeps (s : State) : Keeps (only [.alarms, .time, .prompts]) s (cancelCmd s) := by
  unfold cancelCmd
  repeat' (first
    | with_reducible apply Keeps.refl
    | with_reducible assumption
    | ((with_reducible apply Keeps.step (refuse_keeps ..)); focus exact rfl)
    | with_reducible apply Keeps.ite
    | with_reducible apply Keeps.ite_fst
    | with_reducible refine Keeps.foldl _ (fun _ _ => ?_) ?_
    | extract_lets
    | split
    | dsimp only
    | ((with_reducible apply Keeps.upd) <;> first | exact .inl rfl | exact .inr rfl | skip))

theorem execCancelSlew_keeps (s : State) : OutKeeps (only [.alarms, .time, .prompts]) s (execCancelSlew s) := by
  unfold execCancelSlew
  repeat' (first
    | with_reducible apply Keeps.refl
    | with_reducible assumption
    | with_reducible exact OutKeeps.fault
    | with_reducible exact OutKeeps.refused
    | with_reducible apply OutKeeps.ok
    | with_reducible apply OutKeeps.next
    | with_reducible apply OutKeeps.ite
    | ((with_reducible apply mgrWrite_keeps); focus exact rfl)
    | ((with_reducible apply Keeps.step (cancelCmd_keeps ..)); focus exact rfl)
    | with_reducible intro _
    | with_reducible apply Keeps.self
    | with_reducible apply Keeps.ite
    | with_reducible apply Keeps.ite_fst
    | with_reducible refine Keeps.foldl _ (fun _ _ => ?_) ?_
    | extract_lets
    | split
    | dsimp only)

theorem slewEnd_keeps (s : State) : Keeps (only [.time, .prompts]) s (slewEnd s) := by
  unfold slewEnd
  repeat' (first
    | with_reducible apply Keeps.refl
    | with_reducible assumption
    | ((with_reducible apply Keeps.step (vector_keeps ..)); focus exact rfl)
    | with_reducible apply Keeps.ite
    | with_reducible apply Keeps.ite_fst
    | with_reducible refine Keeps.foldl _ (fun _ _ => ?_) ?_
    | extract_lets
    | split
    | dsimp only
    | ((with_reducible apply Keeps.upd) <;> first | exact .inl rfl | exact .inr rfl | skip))

theorem execSlewDone_keeps (s : State) : OutKeeps (only [.time, .prompts]) s (execSlewDone s) := by
  unfold execSlewDone
  repeat' (first
    | with_reducible apply Keeps.refl
    | with_reducible assumption
    | with_reducible exact OutKeeps.fault
    | with_reducible exact OutKeeps.refused
    | with_reducible apply OutKeeps.ok
    | with_reducible apply OutKeeps.next
    | with_reducible apply OutKeeps.ite
    | ((with_reducible apply Keeps.step (slewEnd_keeps ..)); focus exact rfl)
    | with_reducible apply Keeps.ite
    | with_reducible apply Keeps.ite_fst
    | with_reducible refine Keeps.foldl _ (fun _ _ => ?_) ?_
    | extract_lets
    | split
    | dsimp only)

theorem adjCtl_keeps (s : State) (v : W32) : Keeps (only [.alarms, .time, .prompts]) s (adjCtl s v) := by
  unfold adjCtl
  repeat' (first
    | with_reducible apply Keeps.refl
    | with_reducible assumption
    | ((with_reducible apply Keeps.step (stepCmd_keeps ..)); focus exact rfl)
    | ((with_reducible apply Keeps.step (slewCmd_keeps ..)); focus exact rfl)
    | ((with_reducible apply Keeps.step (cancelCmd_keeps ..)); focus exact rfl)
    | ((with_reducible apply Keeps.step (refuse_keeps ..)); focus exact rfl)
    | with_reducible apply Keeps.ite
    | with_reducible apply Keeps.ite_fst
    | with_reducible refine Keeps.foldl _ (fun _ _ => ?_) ?_
    | extract_lets
    | split
    | dsimp only)

theorem secAdv_keeps (s : State) (v : W32) : Keeps (only [.time, .freeCount]) s (secAdv s v) := by
  unfold secAdv
  repeat' (first
    | with_reducible apply Keeps.refl
    | with_reducible assumption
    | with_reducible apply Keeps.ite
    | with_reducible apply Keeps.ite_fst
    | with_reducible refine Keeps.foldl _ (fun _ _ => ?_) ?_
    | extract_lets
    | split
    | dsimp only
    | ((with_reducible apply Keeps.upd) <;> first | exact .inl rfl | exact .inr rfl | skip))

theorem execSecAdvance_keeps (value : W32) (s : State) : OutKeeps (only [.alarms, .time, .prompts, .freeCount]) s (execSecAdvance value s) := by
  unfold execSecAdvance
  repeat' (first
    | with_reducible apply Keeps.refl
    | with_reducible assumption
    | with_reducible exact OutKeeps.fault
    | with_reducible exact OutKeeps.refused
    | with_reducible apply OutKeeps.ok
    | with_reducible apply OutKeeps.next
    | with_reducible apply OutKeeps.ite
    | ((with_reducible apply mgrWrite_keeps); focus exact rfl)
    | ((with_reducible apply Keeps.step (secAdv_keeps ..)); focus exact rfl)
    | with_reducible intro _
    | with_reducible apply Keeps.self
    | with_reducible apply Keeps.ite
    | with_reducible apply Keeps.ite_fst
    | with_reducible refine Keeps.foldl _ (fun _ _ => ?_) ?_
    | extract_lets
    | split
    | dsimp only)

theorem timeWrite_keeps (s : State) (off : Nat) (v : W32) : Keeps (only [.alarms, .time, .prompts, .freeCount]) s (timeWrite s off v) := by
  unfold timeWrite
  repeat' (first
    | with_reducible apply Keeps.refl
    | with_reducible assumption
    | ((with_reducible apply Keeps.step (rateHi_keeps ..)); focus exact rfl)
    | ((with_reducible apply Keeps.step (adjCtl_keeps ..)); focus exact rfl)
    | ((with_reducible apply Keeps.step (refuse_keeps ..)); focus exact rfl)
    | ((with_reducible apply Keeps.step (secAdv_keeps ..)); focus exact rfl)
    | with_reducible apply Keeps.ite
    | with_reducible apply Keeps.ite_fst
    | with_reducible refine Keeps.foldl _ (fun _ _ => ?_) ?_
    | extract_lets
    | split
    | dsimp only
    | ((with_reducible apply Keeps.upd) <;> first | exact .inl rfl | exact .inr rfl | skip))

end Sys2Proof.Machine
end

