-- ==== Sys2Proof/Laws/FrameCard.lean ====
section
/-! SUPPORT. Frames of Machine/Card: for each operation, the parts of the state it may change. -/

namespace Sys2Proof.Machine

theorem State.modCust_keeps (s : State) (f : Cust → Cust) : Keeps (only [.cust]) s (State.modCust s f) := by
  unfold State.modCust
  repeat' (first
    | with_reducible apply Keeps.refl
    | with_reducible assumption
    | with_reducible apply Keeps.ite
    | with_reducible apply Keeps.ite_fst
    | with_reducible refine Keeps.foldl _ (fun _ _ => ?_) ?_
    | extract_lets
    | split
    | dsimp only
    | ((with_reducible apply Keeps.upd) <;> first | exact .inl rfl | exact .inr rfl | skip))

theorem State.modCustRec_keeps (s : State) (i : Nat) (f : CustRec → CustRec) : Keeps (only [.cust]) s (State.modCustRec s i f) := by
  unfold State.modCustRec
  repeat' (first
    | with_reducible apply Keeps.refl
    | with_reducible assumption
    | ((with_reducible apply Keeps.step (State.modCust_keeps ..)); focus exact rfl)
    | with_reducible apply Keeps.ite
    | with_reducible apply Keeps.ite_fst
    | with_reducible refine Keeps.foldl _ (fun _ _ => ?_) ?_
    | extract_lets
    | split
    | dsimp only)

theorem recPhase_keeps (s : State) (i : Nat) (p : Nat) : Keeps (only [.cust]) s (recPhase s i p) := by
  unfold recPhase
  repeat' (first
    | with_reducible apply Keeps.refl
    | with_reducible assumption
    | ((with_reducible apply Keeps.step (State.modCustRec_keeps ..)); focus exact rfl)
    | with_reducible apply Keeps.ite
    | with_reducible apply Keeps.ite_fst
    | with_reducible refine Keeps.foldl _ (fun _ _ => ?_) ?_
    | extract_lets
    | split
    | dsimp only)

theorem cardCatchUp_keeps (s : State) : Keeps (only [.cust]) s (cardCatchUp s) := by
  unfold cardCatchUp
  repeat' (first
    | with_reducible apply Keeps.refl
    | with_reducible assumption
    | ((with_reducible apply Keeps.step (recPhase_keeps ..)); focus exact rfl)
    | with_reducible apply Keeps.ite
    | with_reducible apply Keeps.ite_fst
    | with_reducible refine Keeps.foldl _ (fun _ _ => ?_) ?_
    | extract_lets
    | split
    | dsimp only)

theorem recSettle_keeps (s : State) (i : Nat) (p : Nat) (out : Nat) : Keeps (only [.cust, .prompts]) s (recSettle s i p out) := by
  unfold recSettle
  repeat' (first
    | with_reducible apply Keeps.refl
    | with_reducible assumption
    | ((with_reducible apply Keeps.step (vector_keeps ..)); focus exact rfl)
    | ((with_reducible apply Keeps.step (State.modCust_keeps ..)); focus exact rfl)
    | ((with_reducible apply Keeps.step (recPhase_keeps ..)); focus exact rfl)
    | with_reducible apply Keeps.ite
    | with_reducible apply Keeps.ite_fst
    | with_reducible refine Keeps.foldl _ (fun _ _ => ?_) ?_
    | extract_lets
    | split
    | dsimp only)

theorem endAuth_keeps (s : State) (act : Nat) : Keeps (only [.cust]) s (endAuth s act) := by
  unfold endAuth
  repeat' (first
    | with_reducible apply Keeps.refl
    | with_reducible assumption
    | ((with_reducible apply Keeps.step (State.modCust_keeps ..)); focus exact rfl)
    | with_reducible apply Keeps.ite
    | with_reducible apply Keeps.ite_fst
    | with_reducible refine Keeps.foldl _ (fun _ _ => ?_) ?_
    | extract_lets
    | split
    | dsimp only)

theorem cmdDone_keeps (s : State) (status : Nat) (sub : Nat) : Keeps (only [.cust, .prompts]) s (cmdDone s status sub) := by
  unfold cmdDone
  repeat' (first
    | with_reducible apply Keeps.refl
    | with_reducible assumption
    | ((with_reducible apply Keeps.step (vector_keeps ..)); focus exact rfl)
    | ((with_reducible apply Keeps.step (State.modCust_keeps ..)); focus exact rfl)
    | with_reducible apply Keeps.ite
    | with_reducible apply Keeps.ite_fst
    | with_reducible refine Keeps.foldl _ (fun _ _ => ?_) ?_
    | extract_lets
    | split
    | dsimp only)

theorem cmdEnd_keeps (s : State) (status : Nat) (sub : Nat) : Keeps (only [.cust, .prompts]) s (cmdEnd s status sub) := by
  unfold cmdEnd
  repeat' (first
    | with_reducible apply Keeps.refl
    | with_reducible assumption
    | ((with_reducible apply Keeps.step (cmdDone_keeps ..)); focus exact rfl)
    | ((with_reducible apply Keeps.step (State.modCust_keeps ..)); focus exact rfl)
    | with_reducible apply Keeps.ite
    | with_reducible apply Keeps.ite_fst
    | with_reducible refine Keeps.foldl _ (fun _ _ => ?_) ?_
    | extract_lets
    | split
    | dsimp only)

theorem cardOff_keeps (s : State) : Keeps (only [.cust]) s (cardOff s) := by
  unfold cardOff
  repeat' (first
    | with_reducible apply Keeps.refl
    | with_reducible assumption
    | ((with_reducible apply Keeps.step (State.modCust_keeps ..)); focus exact rfl)
    | with_reducible apply Keeps.ite
    | with_reducible apply Keeps.ite_fst
    | with_reducible refine Keeps.foldl _ (fun _ _ => ?_) ?_
    | extract_lets
    | split
    | dsimp only)

theorem cutWrite_keeps (s : State) : Keeps (only [.cust]) s (cutWrite s).1 := by
  unfold cutWrite
  repeat' (first
    | with_reducible apply Keeps.refl
    | with_reducible assumption
    | ((with_reducible apply Keeps.step (cardCatchUp_keeps ..)); focus exact rfl)
    | ((with_reducible apply Keeps.step (recPhase_keeps ..)); focus exact rfl)
    | with_reducible apply Keeps.ite
    | with_reducible apply Keeps.ite_fst
    | with_reducible refine Keeps.foldl _ (fun _ _ => ?_) ?_
    | extract_lets
    | split
    | dsimp only)

theorem cardCut_keeps (s : State) (st : Nat) (status : Option Nat) : Keeps (only [.cust, .prompts]) s (cardCut s st status) := by
  unfold cardCut
  repeat' (first
    | with_reducible apply Keeps.refl
    | with_reducible assumption
    | ((with_reducible apply Keeps.step (cutWrite_keeps ..)); focus exact rfl)
    | ((with_reducible apply Keeps.step (cardOff_keeps ..)); focus exact rfl)
    | ((with_reducible apply Keeps.step (cmdEnd_keeps ..)); focus exact rfl)
    | ((with_reducible apply Keeps.step (State.modCust_keeps ..)); focus exact rfl)
    | with_reducible refine Keeps.fst (by assumption) ?_
    | with_reducible apply Keeps.ite
    | with_reducible apply Keeps.ite_fst
    | with_reducible refine Keeps.foldl _ (fun _ _ => ?_) ?_
    | extract_lets
    | split
    | dsimp only)

theorem cardFailed_keeps (s : State) : Keeps (only [.cust, .prompts]) s (cardFailed s) := by
  unfold cardFailed
  repeat' (first
    | with_reducible apply Keeps.refl
    | with_reducible assumption
    | ((with_reducible apply Keeps.step (vector_keeps ..)); focus exact rfl)
    | ((with_reducible apply Keeps.step (State.modCust_keeps ..)); focus exact rfl)
    | with_reducible apply Keeps.ite
    | with_reducible apply Keeps.ite_fst
    | with_reducible refine Keeps.foldl _ (fun _ _ => ?_) ?_
    | extract_lets
    | split
    | dsimp only)

theorem cardAlarm_keeps (s : State) : Keeps (only [.cust, .prompts]) s (cardAlarm s) := by
  unfold cardAlarm
  repeat' (first
    | with_reducible apply Keeps.refl
    | with_reducible assumption
    | ((with_reducible apply Keeps.step (cardFailed_keeps ..)); focus exact rfl)
    | ((with_reducible apply Keeps.step (cardCut_keeps ..)); focus exact rfl)
    | ((with_reducible apply Keeps.step (State.modCust_keeps ..)); focus exact rfl)
    | with_reducible apply Keeps.ite
    | with_reducible apply Keeps.ite_fst
    | with_reducible refine Keeps.foldl _ (fun _ _ => ?_) ?_
    | extract_lets
    | split
    | dsimp only)

theorem sendBlock_keeps (s : State) (pcb : Nat) (inf : Bytes) : Keeps (only [.cust]) s (sendBlock s pcb inf) := by
  unfold sendBlock
  repeat' (first
    | with_reducible apply Keeps.refl
    | with_reducible assumption
    | ((with_reducible apply Keeps.step (State.modCust_keeps ..)); focus exact rfl)
    | with_reducible apply Keeps.ite
    | with_reducible apply Keeps.ite_fst
    | with_reducible refine Keeps.foldl _ (fun _ _ => ?_) ?_
    | extract_lets
    | split
    | dsimp only)

theorem sendI_keeps (s : State) : Keeps (only [.cust]) s (sendI s) := by
  unfold sendI
  repeat' (first
    | with_reducible apply Keeps.refl
    | with_reducible assumption
    | ((with_reducible apply Keeps.step (State.modCust_keeps ..)); focus exact rfl)
    | ((with_reducible apply Keeps.step (sendBlock_keeps ..)); focus exact rfl)
    | with_reducible apply Keeps.ite
    | with_reducible apply Keeps.ite_fst
    | with_reducible refine Keeps.foldl _ (fun _ _ => ?_) ?_
    | extract_lets
    | split
    | dsimp only)

theorem sendR_keeps (s : State) (err : Nat) : Keeps (only [.cust]) s (sendR s err) := by
  unfold sendR
  repeat' (first
    | with_reducible apply Keeps.refl
    | with_reducible assumption
    | ((with_reducible apply Keeps.step (sendBlock_keeps ..)); focus exact rfl)
    | with_reducible apply Keeps.ite
    | with_reducible apply Keeps.ite_fst
    | with_reducible refine Keeps.foldl _ (fun _ _ => ?_) ?_
    | extract_lets
    | split
    | dsimp only)

theorem resendLast_keeps (s : State) : Keeps (only [.cust]) s (resendLast s) := by
  unfold resendLast
  repeat' (first
    | with_reducible apply Keeps.refl
    | with_reducible assumption
    | ((with_reducible apply Keeps.step (sendBlock_keeps ..)); focus exact rfl)
    | with_reducible apply Keeps.ite
    | with_reducible apply Keeps.ite_fst
    | with_reducible refine Keeps.foldl _ (fun _ _ => ?_) ?_
    | extract_lets
    | split
    | dsimp only)

theorem startApdu_keeps (s : State) (op : CardOp) (ins : Nat) (data : Bytes) : Keeps (only [.cust]) s (startApdu s op ins data) := by
  unfold startApdu
  repeat' (first
    | with_reducible apply Keeps.refl
    | with_reducible assumption
    | ((with_reducible apply Keeps.step (sendI_keeps ..)); focus exact rfl)
    | ((with_reducible apply Keeps.step (State.modCust_keeps ..)); focus exact rfl)
    | with_reducible apply Keeps.ite
    | with_reducible apply Keeps.ite_fst
    | with_reducible refine Keeps.foldl _ (fun _ _ => ?_) ?_
    | extract_lets
    | split
    | dsimp only)

theorem takeRec_keeps (s : State) (i : Nat) (kind : Nat) (card : Nat) (detail : Nat) : Keeps (only [.cust]) s (takeRec s i kind card detail) := by
  unfold takeRec
  repeat' (first
    | with_reducible apply Keeps.refl
    | with_reducible assumption
    | ((with_reducible apply Keeps.step (State.modCust_keeps ..)); focus exact rfl)
    | ((with_reducible apply Keeps.step (State.modCustRec_keeps ..)); focus exact rfl)
    | with_reducible apply Keeps.ite
    | with_reducible apply Keeps.ite_fst
    | with_reducible refine Keeps.foldl _ (fun _ _ => ?_) ?_
    | extract_lets
    | split
    | dsimp only)

theorem sendAuthorize_keeps (s : State) (cert : Bytes) : Keeps (only [.entropy, .cust, .prompts]) s (sendAuthorize s cert) := by
  unfold sendAuthorize
  repeat' (first
    | with_reducible apply Keeps.refl
    | with_reducible assumption
    | ((with_reducible apply Keeps.step (cmdEnd_keeps ..)); focus exact rfl)
    | ((with_reducible apply OptKeeps2.step (tryDraw_keeps ..)); focus exact rfl)
    | ((with_reducible apply Keeps.step (takeRec_keeps ..)); focus exact rfl)
    | ((with_reducible apply Keeps.step (startApdu_keeps ..)); focus exact rfl)
    | ((with_reducible apply Keeps.step (State.modCust_keeps ..)); focus exact rfl)
    | with_reducible refine OptKeeps2.get ?_ (by assumption)
    | with_reducible apply OptKeeps2.some
    | with_reducible apply OptKeeps2.map
    | with_reducible apply Keeps.ite
    | with_reducible apply Keeps.ite_fst
    | with_reducible refine Keeps.foldl _ (fun _ _ => ?_) ?_
    | extract_lets
    | split
    | dsimp only)

theorem sendGetShare_keeps (s : State) : Keeps (only [.entropy, .cust]) s (sendGetShare s) := by
  unfold sendGetShare
  repeat' (first
    | with_reducible apply Keeps.refl
    | with_reducible assumption
    | ((with_reducible apply OptKeeps2.step (tryDraw_keeps ..)); focus exact rfl)
    | ((with_reducible apply Keeps.step (startApdu_keeps ..)); focus exact rfl)
    | ((with_reducible apply Keeps.step (State.modCust_keeps ..)); focus exact rfl)
    | with_reducible refine OptKeeps2.get ?_ (by assumption)
    | with_reducible apply OptKeeps2.some
    | with_reducible apply OptKeeps2.map
    | with_reducible apply Keeps.ite
    | with_reducible apply Keeps.ite_fst
    | with_reducible refine Keeps.foldl _ (fun _ _ => ?_) ?_
    | extract_lets
    | split
    | dsimp only)

theorem sendPutShare_keeps (s : State) (cert : Bytes) (bwk : Bytes) : Keeps (only [.entropy, .cust, .prompts]) s (sendPutShare s cert bwk) := by
  unfold sendPutShare
  repeat' (first
    | with_reducible apply Keeps.refl
    | with_reducible assumption
    | ((with_reducible apply Keeps.step (cmdEnd_keeps ..)); focus exact rfl)
    | ((with_reducible apply OptKeeps2.step (tryDraw_keeps ..)); focus exact rfl)
    | ((with_reducible apply Keeps.step (takeRec_keeps ..)); focus exact rfl)
    | ((with_reducible apply Keeps.step (startApdu_keeps ..)); focus exact rfl)
    | with_reducible refine OptKeeps2.get ?_ (by assumption)
    | with_reducible apply OptKeeps2.some
    | with_reducible apply OptKeeps2.map
    | with_reducible apply Keeps.ite
    | with_reducible apply Keeps.ite_fst
    | with_reducible refine Keeps.foldl _ (fun _ _ => ?_) ?_
    | extract_lets
    | split
    | dsimp only)

theorem cmdGo_keeps (s : State) (cert : Bytes) : Keeps (only [.entropy, .cust, .prompts]) s (cmdGo s cert) := by
  unfold cmdGo
  repeat' (first
    | with_reducible apply Keeps.refl
    | with_reducible assumption
    | ((with_reducible apply Keeps.step (cmdEnd_keeps ..)); focus exact rfl)
    | ((with_reducible apply Keeps.step (sendAuthorize_keeps ..)); focus exact rfl)
    | ((with_reducible apply Keeps.step (sendGetShare_keeps ..)); focus exact rfl)
    | ((with_reducible apply Keeps.step (sendPutShare_keeps ..)); focus exact rfl)
    | with_reducible apply Keeps.ite
    | with_reducible apply Keeps.ite_fst
    | with_reducible refine Keeps.foldl _ (fun _ _ => ?_) ?_
    | extract_lets
    | split
    | dsimp only)

theorem cardGo_keeps (s : State) : Keeps (only [.entropy, .cust, .prompts]) s (cardGo s) := by
  unfold cardGo
  repeat' (first
    | with_reducible apply Keeps.refl
    | with_reducible assumption
    | ((with_reducible apply Keeps.step (startApdu_keeps ..)); focus exact rfl)
    | ((with_reducible apply Keeps.step (State.modCust_keeps ..)); focus exact rfl)
    | ((with_reducible apply Keeps.step (cmdGo_keeps ..)); focus exact rfl)
    | with_reducible apply Keeps.ite
    | with_reducible apply Keeps.ite_fst
    | with_reducible refine Keeps.foldl _ (fun _ _ => ?_) ?_
    | extract_lets
    | split
    | dsimp only
    | dsimp +zetaDelta only)

theorem cardReady_keeps (s : State) : Keeps (only [.entropy, .cust, .prompts]) s (cardReady s) := by
  unfold cardReady
  repeat' (first
    | with_reducible apply Keeps.refl
    | with_reducible assumption
    | ((with_reducible apply Keeps.step (vector_keeps ..)); focus exact rfl)
    | ((with_reducible apply Keeps.step (State.modCust_keeps ..)); focus exact rfl)
    | ((with_reducible apply Keeps.step (cardGo_keeps ..)); focus exact rfl)
    | with_reducible apply Keeps.ite
    | with_reducible apply Keeps.ite_fst
    | with_reducible refine Keeps.foldl _ (fun _ _ => ?_) ?_
    | extract_lets
    | split
    | dsimp only)

theorem swFail_keeps (s : State) (sw : Nat) : Keeps (only [.cust, .prompts]) s (swFail s sw) := by
  unfold swFail
  repeat' (first
    | with_reducible apply Keeps.refl
    | with_reducible assumption
    | ((with_reducible apply Keeps.step (cmdEnd_keeps ..)); focus exact rfl)
    | with_reducible apply Keeps.ite
    | with_reducible apply Keeps.ite_fst
    | with_reducible refine Keeps.foldl _ (fun _ _ => ?_) ?_
    | extract_lets
    | split
    | dsimp only)

theorem writeDone_keeps (s : State) (sw : Nat) : Keeps (only [.cust]) s (writeDone s sw) := by
  unfold writeDone
  repeat' (first
    | with_reducible apply Keeps.refl
    | with_reducible assumption
    | ((with_reducible apply Keeps.step (State.modCust_keeps ..)); focus exact rfl)
    | ((with_reducible apply Keeps.step (recPhase_keeps ..)); focus exact rfl)
    | with_reducible apply Keeps.ite
    | with_reducible apply Keeps.ite_fst
    | with_reducible refine Keeps.foldl _ (fun _ _ => ?_) ?_
    | extract_lets
    | split
    | dsimp only)

theorem authorizeDone_keeps (s : State) (sig : Bytes) : Keeps (only [.cust, .prompts]) s (authorizeDone s sig) := by
  unfold authorizeDone
  repeat' (first
    | with_reducible apply Keeps.refl
    | with_reducible assumption
    | ((with_reducible apply Keeps.step (endAuth_keeps ..)); focus exact rfl)
    | ((with_reducible apply Keeps.step (cmdEnd_keeps ..)); focus exact rfl)
    | ((with_reducible apply Keeps.step (State.modCust_keeps ..)); focus exact rfl)
    | with_reducible apply Keeps.ite
    | with_reducible apply Keeps.ite_fst
    | with_reducible refine Keeps.foldl _ (fun _ _ => ?_) ?_
    | extract_lets
    | split
    | dsimp only)

theorem shareDone_keeps (s : State) (data : Bytes) : Keeps (only [.keys, .cust, .prompts]) s (shareDone s data) := by
  unfold shareDone
  repeat' (first
    | with_reducible apply Keeps.refl
    | with_reducible assumption
    | ((with_reducible apply Keeps.step (cmdEnd_keeps ..)); focus exact rfl)
    | ((with_reducible apply Keeps.step (State.modCust_keeps ..)); focus exact rfl)
    | with_reducible apply Keeps.ite
    | with_reducible apply Keeps.ite_fst
    | with_reducible refine Keeps.foldl _ (fun _ _ => ?_) ?_
    | extract_lets
    | split
    | dsimp only
    | ((with_reducible apply Keeps.upd) <;> first | exact .inl rfl | exact .inr rfl | skip))

theorem checkDone_keeps (s : State) (data : Bytes) (sw : Nat) : Keeps (only [.cust, .prompts]) s (checkDone s data sw) := by
  unfold checkDone
  repeat' (first
    | with_reducible apply Keeps.refl
    | with_reducible assumption
    | ((with_reducible apply Keeps.step (State.modCust_keeps ..)); focus exact rfl)
    | ((with_reducible apply Keeps.step (recSettle_keeps ..)); focus exact rfl)
    | with_reducible apply Keeps.ite
    | with_reducible apply Keeps.ite_fst
    | with_reducible refine Keeps.foldl _ (fun _ _ => ?_) ?_
    | extract_lets
    | split
    | dsimp only)

theorem cardAnswer_keeps (s : State) (data : Bytes) (sw : Nat) : Keeps (only [.keys, .entropy, .cust, .prompts]) s (cardAnswer s data sw) := by
  unfold cardAnswer
  repeat' (first
    | with_reducible apply Keeps.refl
    | with_reducible assumption
    | ((with_reducible apply Keeps.step (State.modCust_keeps ..)); focus exact rfl)
    | ((with_reducible apply Keeps.step (cardReady_keeps ..)); focus exact rfl)
    | ((with_reducible apply Keeps.step (cardGo_keeps ..)); focus exact rfl)
    | ((with_reducible apply Keeps.step (swFail_keeps ..)); focus exact rfl)
    | ((with_reducible apply Keeps.step (writeDone_keeps ..)); focus exact rfl)
    | ((with_reducible apply Keeps.step (authorizeDone_keeps ..)); focus exact rfl)
    | ((with_reducible apply Keeps.step (shareDone_keeps ..)); focus exact rfl)
    | ((with_reducible apply Keeps.step (cmdEnd_keeps ..)); focus exact rfl)
    | ((with_reducible apply Keeps.step (checkDone_keeps ..)); focus exact rfl)
    | with_reducible apply Keeps.ite
    | with_reducible apply Keeps.ite_fst
    | with_reducible refine Keeps.foldl _ (fun _ _ => ?_) ?_
    | extract_lets
    | split
    | dsimp only)

theorem linkFail_keeps (s : State) : Keeps (only [.cust, .prompts]) s (linkFail s) := by
  unfold linkFail
  repeat' (first
    | with_reducible apply Keeps.refl
    | with_reducible assumption
    | ((with_reducible apply Keeps.step (cutWrite_keeps ..)); focus exact rfl)
    | ((with_reducible apply Keeps.step (cardOff_keeps ..)); focus exact rfl)
    | ((with_reducible apply Keeps.step (cmdEnd_keeps ..)); focus exact rfl)
    | ((with_reducible apply Keeps.step (cardFailed_keeps ..)); focus exact rfl)
    | with_reducible refine Keeps.fst (by assumption) ?_
    | with_reducible apply Keeps.ite
    | with_reducible apply Keeps.ite_fst
    | with_reducible refine Keeps.foldl _ (fun _ _ => ?_) ?_
    | extract_lets
    | split
    | dsimp only)

theorem attemptFailed_keeps {ch : Part → Bool} {s0 s : State}  {f : State → State} (hm : within (only [.cust, .prompts]) ch = true) (h0 : Keeps ch s0
    s) (hf : ∀ t, Keeps ch t (f t)) : Keeps ch s0 (attemptFailed s f) := by
  unfold attemptFailed
  repeat' (first
    | with_reducible apply Keeps.refl
    | with_reducible assumption
    | ((with_reducible apply Keeps.step (State.modCust_keeps ..)); focus exact (within_trans rfl hm))
    | ((with_reducible apply Keeps.step (linkFail_keeps ..)); focus exact (within_trans rfl hm))
    | ((with_reducible apply Keeps.step (sendBlock_keeps ..)); focus exact (within_trans rfl hm))
    | with_reducible exact hf _
    | with_reducible exact hf _ _
    | with_reducible exact hf _ _ _
    | with_reducible refine Keeps.trans ?_ (hf _)
    | with_reducible refine Keeps.trans ?_ (hf _ _)
    | with_reducible refine Keeps.trans ?_ (hf _ _ _)
    | with_reducible apply Keeps.ite
    | with_reducible apply Keeps.ite_fst
    | with_reducible refine Keeps.foldl _ (fun _ _ => ?_) ?_
    | extract_lets
    | split
    | dsimp only)

theorem t1Block_keeps (s : State) (b : CardBlock) : Keeps (only [.keys, .entropy, .cust, .prompts]) s (t1Block s b) := by
  unfold t1Block
  repeat' (first
    | with_reducible apply Keeps.refl
    | with_reducible assumption
    | ((with_reducible apply Keeps.step (State.modCust_keeps ..)); focus exact rfl)
    | ((with_reducible apply Keeps.step (cardCatchUp_keeps ..)); focus exact rfl)
    | ((with_reducible apply attemptFailed_keeps); focus exact rfl)
    | ((with_reducible apply Keeps.step (sendR_keeps ..)); focus exact rfl)
    | ((with_reducible apply Keeps.step (sendBlock_keeps ..)); focus exact rfl)
    | ((with_reducible apply Keeps.step (sendI_keeps ..)); focus exact rfl)
    | ((with_reducible apply Keeps.step (cutWrite_keeps ..)); focus exact rfl)
    | ((with_reducible apply Keeps.step (cmdEnd_keeps ..)); focus exact rfl)
    | ((with_reducible apply Keeps.step (cardGo_keeps ..)); focus exact rfl)
    | ((with_reducible apply Keeps.step (resendLast_keeps ..)); focus exact rfl)
    | ((with_reducible apply Keeps.step (cardAnswer_keeps ..)); focus exact rfl)
    | with_reducible intro _
    | with_reducible apply Keeps.self
    | with_reducible refine Keeps.fst (by assumption) ?_
    | with_reducible apply Keeps.ite
    | with_reducible apply Keeps.ite_fst
    | with_reducible refine Keeps.foldl _ (fun _ _ => ?_) ?_
    | extract_lets
    | split
    | dsimp only)

theorem execT1BlockRx_keeps (block : CardBlock) (s : State) : OutKeeps (allBut [.pending, .params, .journal, .offers, .nextJob, .window, .time]) s
    (execT1BlockRx block s) := by
  unfold execT1BlockRx
  repeat' (first
    | with_reducible apply Keeps.refl
    | with_reducible assumption
    | with_reducible exact OutKeeps.fault
    | with_reducible exact OutKeeps.refused
    | with_reducible apply OutKeeps.ok
    | with_reducible apply OutKeeps.next
    | with_reducible apply OutKeeps.ite
    | ((with_reducible apply Keeps.step (fin_keeps ..)); focus exact rfl)
    | ((with_reducible apply whenDo_keeps); focus exact rfl)
    | ((with_reducible apply Keeps.step (t1Block_keeps ..)); focus exact rfl)
    | with_reducible intro _
    | with_reducible apply Keeps.self
    | with_reducible apply Keeps.ite
    | with_reducible apply Keeps.ite_fst
    | with_reducible refine Keeps.foldl _ (fun _ _ => ?_) ?_
    | extract_lets
    | split
    | dsimp only)

theorem execCardWaitExpiry_keeps (s : State) : OutKeeps (allBut [.pending, .params, .journal, .offers, .nextJob, .window, .time]) s
    (execCardWaitExpiry s) := by
  unfold execCardWaitExpiry
  repeat' (first
    | with_reducible apply Keeps.refl
    | with_reducible assumption
    | with_reducible exact OutKeeps.fault
    | with_reducible exact OutKeeps.refused
    | with_reducible apply OutKeeps.ok
    | with_reducible apply OutKeeps.next
    | with_reducible apply OutKeeps.ite
    | ((with_reducible apply Keeps.step (fin_keeps ..)); focus exact rfl)
    | ((with_reducible apply whenDo_keeps); focus exact rfl)
    | ((with_reducible apply attemptFailed_keeps); focus exact rfl)
    | ((with_reducible apply Keeps.step (State.modCust_keeps ..)); focus exact rfl)
    | ((with_reducible apply Keeps.step (cardCatchUp_keeps ..)); focus exact rfl)
    | ((with_reducible apply Keeps.step (sendR_keeps ..)); focus exact rfl)
    | with_reducible intro _
    | with_reducible apply Keeps.self
    | with_reducible apply Keeps.ite
    | with_reducible apply Keeps.ite_fst
    | with_reducible refine Keeps.foldl _ (fun _ _ => ?_) ?_
    | extract_lets
    | split
    | dsimp only)

theorem statusPollStep_keeps (s : State) : Keeps (only [.cust]) s (statusPollStep s) := by
  unfold statusPollStep
  repeat' (first
    | with_reducible apply Keeps.refl
    | with_reducible assumption
    | ((with_reducible apply Keeps.step (sendI_keeps ..)); focus exact rfl)
    | ((with_reducible apply Keeps.step (State.modCust_keeps ..)); focus exact rfl)
    | with_reducible apply Keeps.ite
    | with_reducible apply Keeps.ite_fst
    | with_reducible refine Keeps.foldl _ (fun _ _ => ?_) ?_
    | extract_lets
    | split
    | dsimp only)

theorem execStatusPoll_keeps (s : State) : OutKeeps (allBut [.pending, .params, .journal, .offers, .nextJob, .window, .time]) s (execStatusPoll s) :=
    by
  unfold execStatusPoll
  repeat' (first
    | with_reducible apply Keeps.refl
    | with_reducible assumption
    | with_reducible exact OutKeeps.fault
    | with_reducible exact OutKeeps.refused
    | with_reducible apply OutKeeps.ok
    | with_reducible apply OutKeeps.next
    | with_reducible apply OutKeeps.ite
    | ((with_reducible apply Keeps.step (fin_keeps ..)); focus exact rfl)
    | ((with_reducible apply whenDo_keeps); focus exact rfl)
    | ((with_reducible apply Keeps.step (statusPollStep_keeps ..)); focus exact rfl)
    | with_reducible intro _
    | with_reducible apply Keeps.self
    | with_reducible apply Keeps.ite
    | with_reducible apply Keeps.ite_fst
    | with_reducible refine Keeps.foldl _ (fun _ _ => ?_) ?_
    | extract_lets
    | split
    | dsimp only)

theorem cardActivate_keeps (s : State) : Keeps (only [.cust]) s (cardActivate s) := by
  unfold cardActivate
  repeat' (first
    | with_reducible apply Keeps.refl
    | with_reducible assumption
    | ((with_reducible apply Keeps.step (State.modCust_keeps ..)); focus exact rfl)
    | with_reducible apply Keeps.ite
    | with_reducible apply Keeps.ite_fst
    | with_reducible refine Keeps.foldl _ (fun _ _ => ?_) ?_
    | extract_lets
    | split
    | dsimp only)

theorem execCardInsert_keeps (s : State) : OutKeeps (allBut [.pending, .params, .journal, .offers, .nextJob, .window, .time]) s (execCardInsert s) :=
    by
  unfold execCardInsert
  repeat' (first
    | with_reducible apply Keeps.refl
    | with_reducible assumption
    | with_reducible exact OutKeeps.fault
    | with_reducible exact OutKeeps.refused
    | with_reducible apply OutKeeps.ok
    | with_reducible apply OutKeeps.next
    | with_reducible apply OutKeeps.ite
    | ((with_reducible apply Keeps.step (fin_keeps ..)); focus exact rfl)
    | ((with_reducible apply whenDo_keeps); focus exact rfl)
    | ((with_reducible apply Keeps.step (State.modCust_keeps ..)); focus exact rfl)
    | with_reducible intro _
    | with_reducible apply Keeps.self
    | with_reducible apply Keeps.ite
    | with_reducible apply Keeps.ite_fst
    | with_reducible refine Keeps.foldl _ (fun _ _ => ?_) ?_
    | extract_lets
    | split
    | dsimp only
    | ((with_reducible apply Keeps.upd) <;> first | exact .inl rfl | exact .inr rfl | skip))

theorem execCardDebounce_keeps (s : State) : OutKeeps (allBut [.pending, .params, .journal, .offers, .nextJob, .window, .time]) s (execCardDebounce s)
    := by
  unfold execCardDebounce
  repeat' (first
    | with_reducible apply Keeps.refl
    | with_reducible assumption
    | with_reducible exact OutKeeps.fault
    | with_reducible exact OutKeeps.refused
    | with_reducible apply OutKeeps.ok
    | with_reducible apply OutKeeps.next
    | with_reducible apply OutKeeps.ite
    | ((with_reducible apply Keeps.step (fin_keeps ..)); focus exact rfl)
    | ((with_reducible apply whenDo_keeps); focus exact rfl)
    | ((with_reducible apply Keeps.step (State.modCust_keeps ..)); focus exact rfl)
    | ((with_reducible apply Keeps.step (cardActivate_keeps ..)); focus exact rfl)
    | with_reducible intro _
    | with_reducible apply Keeps.self
    | with_reducible apply Keeps.ite
    | with_reducible apply Keeps.ite_fst
    | with_reducible refine Keeps.foldl _ (fun _ _ => ?_) ?_
    | extract_lets
    | split
    | dsimp only)

theorem undoWrite_keeps (s : State) : Keeps (only [.cust]) s (undoWrite s) := by
  unfold undoWrite
  repeat' (first
    | with_reducible apply Keeps.refl
    | with_reducible assumption
    | ((with_reducible apply Keeps.step (State.modCust_keeps ..)); focus exact rfl)
    | ((with_reducible apply Keeps.step (State.modCustRec_keeps ..)); focus exact rfl)
    | with_reducible apply Keeps.ite
    | with_reducible apply Keeps.ite_fst
    | with_reducible refine Keeps.foldl _ (fun _ _ => ?_) ?_
    | extract_lets
    | split
    | dsimp only)

theorem cardRemove_keeps (s : State) : Keeps (only [.jobs, .mem, .buffers, .engines, .keys, .entropy, .cust, .prompts]) s (cardRemove s) := by
  unfold cardRemove
  repeat' (first
    | with_reducible apply Keeps.refl
    | with_reducible assumption
    | ((with_reducible apply Keeps.step (State.modCust_keeps ..)); focus exact rfl)
    | ((with_reducible apply Keeps.step (cardCut_keeps ..)); focus exact rfl)
    | ((with_reducible apply Keeps.step (undoWrite_keeps ..)); focus exact rfl)
    | ((with_reducible apply Keeps.step (vector_keeps ..)); focus exact rfl)
    | ((with_reducible apply Keeps.step (endRehearsal_keeps ..)); focus exact rfl)
    | with_reducible apply Keeps.ite
    | with_reducible apply Keeps.ite_fst
    | with_reducible refine Keeps.foldl _ (fun _ _ => ?_) ?_
    | extract_lets
    | split
    | dsimp only)

theorem execCardRemoval_keeps (s : State) : OutKeeps (allBut [.pending, .params, .journal, .offers, .nextJob, .window, .time]) s (execCardRemoval s)
    := by
  unfold execCardRemoval
  repeat' (first
    | with_reducible apply Keeps.refl
    | with_reducible assumption
    | with_reducible exact OutKeeps.fault
    | with_reducible exact OutKeeps.refused
    | with_reducible apply OutKeeps.ok
    | with_reducible apply OutKeeps.next
    | with_reducible apply OutKeeps.ite
    | ((with_reducible apply Keeps.step (fin_keeps ..)); focus exact rfl)
    | ((with_reducible apply whenDo_keeps); focus exact rfl)
    | ((with_reducible apply Keeps.step (cardRemove_keeps ..)); focus exact rfl)
    | with_reducible intro _
    | with_reducible apply Keeps.self
    | with_reducible apply Keeps.ite
    | with_reducible apply Keeps.ite_fst
    | with_reducible refine Keeps.foldl _ (fun _ _ => ?_) ?_
    | extract_lets
    | split
    | dsimp only)

theorem execActivationSupplyTimer_keeps (s : State) : OutKeeps (allBut [.pending, .params, .journal, .offers, .nextJob, .window, .time]) s
    (execActivationSupplyTimer s) := by
  unfold execActivationSupplyTimer
  repeat' (first
    | with_reducible apply Keeps.refl
    | with_reducible assumption
    | with_reducible exact OutKeeps.fault
    | with_reducible exact OutKeeps.refused
    | with_reducible apply OutKeeps.ok
    | with_reducible apply OutKeeps.next
    | with_reducible apply OutKeeps.ite
    | ((with_reducible apply Keeps.step (fin_keeps ..)); focus exact rfl)
    | ((with_reducible apply whenDo_keeps); focus exact rfl)
    | ((with_reducible apply Keeps.step (State.modCust_keeps ..)); focus exact rfl)
    | with_reducible intro _
    | with_reducible apply Keeps.self
    | with_reducible apply Keeps.ite
    | with_reducible apply Keeps.ite_fst
    | with_reducible refine Keeps.foldl _ (fun _ _ => ?_) ?_
    | extract_lets
    | split
    | dsimp only)

theorem cardReset_keeps (s : State) : Keeps (only [.cust]) s (cardReset s) := by
  unfold cardReset
  repeat' (first
    | with_reducible apply Keeps.refl
    | with_reducible assumption
    | ((with_reducible apply Keeps.step (State.modCust_keeps ..)); focus exact rfl)
    | with_reducible apply Keeps.ite
    | with_reducible apply Keeps.ite_fst
    | with_reducible refine Keeps.foldl _ (fun _ _ => ?_) ?_
    | extract_lets
    | split
    | dsimp only)

theorem cardDivide_keeps (s : State) : Keeps (only [.cust]) s (cardDivide s) := by
  unfold cardDivide
  repeat' (first
    | with_reducible apply Keeps.refl
    | with_reducible assumption
    | ((with_reducible apply Keeps.step (State.modCust_keeps ..)); focus exact rfl)
    | with_reducible apply Keeps.ite
    | with_reducible apply Keeps.ite_fst
    | with_reducible refine Keeps.foldl _ (fun _ _ => ?_) ?_
    | extract_lets
    | split
    | dsimp only)

theorem cardTick_keeps (s : State) : Keeps (only [.cust]) s (cardTick s) := by
  unfold cardTick
  repeat' (first
    | with_reducible apply Keeps.refl
    | with_reducible assumption
    | ((with_reducible apply Keeps.step (cardCatchUp_keeps ..)); focus exact rfl)
    | ((with_reducible apply Keeps.step (cardDivide_keeps ..)); focus exact rfl)
    | ((with_reducible apply Keeps.step (cardReset_keeps ..)); focus exact rfl)
    | with_reducible apply Keeps.ite
    | with_reducible apply Keeps.ite_fst
    | with_reducible refine Keeps.foldl _ (fun _ _ => ?_) ?_
    | extract_lets
    | split
    | dsimp only)

theorem activationFailed_keeps (s : State) : Keeps (only [.cust, .prompts]) s (activationFailed s) := by
  unfold activationFailed
  repeat' (first
    | with_reducible apply Keeps.refl
    | with_reducible assumption
    | ((with_reducible apply Keeps.step (cardOff_keeps ..)); focus exact rfl)
    | ((with_reducible apply Keeps.step (State.modCust_keeps ..)); focus exact rfl)
    | ((with_reducible apply Keeps.step (cardFailed_keeps ..)); focus exact rfl)
    | with_reducible apply Keeps.ite
    | with_reducible apply Keeps.ite_fst
    | with_reducible refine Keeps.foldl _ (fun _ _ => ?_) ?_
    | extract_lets
    | split
    | dsimp only)

theorem enterHold_keeps (s : State) : Keeps (only [.cust]) s (enterHold s) := by
  unfold enterHold
  repeat' (first
    | with_reducible apply Keeps.refl
    | with_reducible assumption
    | ((with_reducible apply Keeps.step (State.modCust_keeps ..)); focus exact rfl)
    | ((with_reducible apply Keeps.step (sendBlock_keeps ..)); focus exact rfl)
    | with_reducible apply Keeps.ite
    | with_reducible apply Keeps.ite_fst
    | with_reducible refine Keeps.foldl _ (fun _ _ => ?_) ?_
    | extract_lets
    | split
    | dsimp only)

theorem atrIn_keeps (s : State) (a : Atr) : Keeps (only [.cust, .prompts]) s (atrIn s a) := by
  unfold atrIn
  repeat' (first
    | with_reducible apply Keeps.refl
    | with_reducible assumption
    | ((with_reducible apply Keeps.step (activationFailed_keeps ..)); focus exact rfl)
    | ((with_reducible apply Keeps.step (State.modCust_keeps ..)); focus exact rfl)
    | ((with_reducible apply Keeps.step (enterHold_keeps ..)); focus exact rfl)
    | with_reducible apply Keeps.ite
    | with_reducible apply Keeps.ite_fst
    | with_reducible refine Keeps.foldl _ (fun _ _ => ?_) ?_
    | extract_lets
    | split
    | dsimp only)

theorem execAnswerToReset_keeps (atr : Atr) (s : State) : OutKeeps (allBut [.pending, .params, .journal, .offers, .nextJob, .window, .time]) s
    (execAnswerToReset atr s) := by
  unfold execAnswerToReset
  repeat' (first
    | with_reducible apply Keeps.refl
    | with_reducible assumption
    | with_reducible exact OutKeeps.fault
    | with_reducible exact OutKeeps.refused
    | with_reducible apply OutKeeps.ok
    | with_reducible apply OutKeeps.next
    | with_reducible apply OutKeeps.ite
    | ((with_reducible apply Keeps.step (fin_keeps ..)); focus exact rfl)
    | ((with_reducible apply whenDo_keeps); focus exact rfl)
    | ((with_reducible apply Keeps.step (atrIn_keeps ..)); focus exact rfl)
    | with_reducible intro _
    | with_reducible apply Keeps.self
    | with_reducible apply Keeps.ite
    | with_reducible apply Keeps.ite_fst
    | with_reducible refine Keeps.foldl _ (fun _ _ => ?_) ?_
    | extract_lets
    | split
    | dsimp only)

theorem execAnswerToResetTimeout_keeps (s : State) : OutKeeps (allBut [.pending, .params, .journal, .offers, .nextJob, .window, .time]) s
    (execAnswerToResetTimeout s) := by
  unfold execAnswerToResetTimeout
  repeat' (first
    | with_reducible apply Keeps.refl
    | with_reducible assumption
    | with_reducible exact OutKeeps.fault
    | with_reducible exact OutKeeps.refused
    | with_reducible apply OutKeeps.ok
    | with_reducible apply OutKeeps.next
    | with_reducible apply OutKeeps.ite
    | ((with_reducible apply Keeps.step (fin_keeps ..)); focus exact rfl)
    | ((with_reducible apply whenDo_keeps); focus exact rfl)
    | ((with_reducible apply Keeps.step (activationFailed_keeps ..)); focus exact rfl)
    | with_reducible intro _
    | with_reducible apply Keeps.self
    | with_reducible apply Keeps.ite
    | with_reducible apply Keeps.ite_fst
    | with_reducible refine Keeps.foldl _ (fun _ _ => ?_) ?_
    | extract_lets
    | split
    | dsimp only)

theorem ppsIn_keeps (s : State) (echoed : Bytes) : Keeps (only [.cust, .prompts]) s (ppsIn s echoed) := by
  unfold ppsIn
  repeat' (first
    | with_reducible apply Keeps.refl
    | with_reducible assumption
    | ((with_reducible apply Keeps.step (enterHold_keeps ..)); focus exact rfl)
    | ((with_reducible apply Keeps.step (State.modCust_keeps ..)); focus exact rfl)
    | ((with_reducible apply Keeps.step (activationFailed_keeps ..)); focus exact rfl)
    | with_reducible apply Keeps.ite
    | with_reducible apply Keeps.ite_fst
    | with_reducible refine Keeps.foldl _ (fun _ _ => ?_) ?_
    | extract_lets
    | split
    | dsimp only)

theorem execPpsEcho_keeps (echoed : Bytes) (s : State) : OutKeeps (allBut [.pending, .params, .journal, .offers, .nextJob, .window, .time]) s
    (execPpsEcho echoed s) := by
  unfold execPpsEcho
  repeat' (first
    | with_reducible apply Keeps.refl
    | with_reducible assumption
    | with_reducible exact OutKeeps.fault
    | with_reducible exact OutKeeps.refused
    | with_reducible apply OutKeeps.ok
    | with_reducible apply OutKeeps.next
    | with_reducible apply OutKeeps.ite
    | ((with_reducible apply Keeps.step (fin_keeps ..)); focus exact rfl)
    | ((with_reducible apply whenDo_keeps); focus exact rfl)
    | ((with_reducible apply Keeps.step (ppsIn_keeps ..)); focus exact rfl)
    | with_reducible intro _
    | with_reducible apply Keeps.self
    | with_reducible apply Keeps.ite
    | with_reducible apply Keeps.ite_fst
    | with_reducible refine Keeps.foldl _ (fun _ _ => ?_) ?_
    | extract_lets
    | split
    | dsimp only)

theorem execPpsTimeout_keeps (s : State) : OutKeeps (allBut [.pending, .params, .journal, .offers, .nextJob, .window, .time]) s (execPpsTimeout s) :=
    by
  unfold execPpsTimeout
  repeat' (first
    | with_reducible apply Keeps.refl
    | with_reducible assumption
    | with_reducible exact OutKeeps.fault
    | with_reducible exact OutKeeps.refused
    | with_reducible apply OutKeeps.ok
    | with_reducible apply OutKeeps.next
    | with_reducible apply OutKeeps.ite
    | ((with_reducible apply Keeps.step (fin_keeps ..)); focus exact rfl)
    | ((with_reducible apply whenDo_keeps); focus exact rfl)
    | ((with_reducible apply Keeps.step (activationFailed_keeps ..)); focus exact rfl)
    | with_reducible intro _
    | with_reducible apply Keeps.self
    | with_reducible apply Keeps.ite
    | with_reducible apply Keeps.ite_fst
    | with_reducible refine Keeps.foldl _ (fun _ _ => ?_) ?_
    | extract_lets
    | split
    | dsimp only)

theorem execReactivationWait_keeps (s : State) : OutKeeps (allBut [.pending, .params, .journal, .offers, .nextJob, .window, .time]) s
    (execReactivationWait s) := by
  unfold execReactivationWait
  repeat' (first
    | with_reducible apply Keeps.refl
    | with_reducible assumption
    | with_reducible exact OutKeeps.fault
    | with_reducible exact OutKeeps.refused
    | with_reducible apply OutKeeps.ok
    | with_reducible apply OutKeeps.next
    | with_reducible apply OutKeeps.ite
    | ((with_reducible apply Keeps.step (fin_keeps ..)); focus exact rfl)
    | ((with_reducible apply whenDo_keeps); focus exact rfl)
    | ((with_reducible apply Keeps.step (cardActivate_keeps ..)); focus exact rfl)
    | with_reducible intro _
    | with_reducible apply Keeps.self
    | with_reducible apply Keeps.ite
    | with_reducible apply Keeps.ite_fst
    | with_reducible refine Keeps.foldl _ (fun _ _ => ?_) ?_
    | extract_lets
    | split
    | dsimp only)

theorem execConditionQuery_keeps (s : State) : OutKeeps (allBut [.pending, .params, .journal, .offers, .nextJob, .window, .time]) s
    (execConditionQuery s) := by
  unfold execConditionQuery
  repeat' (first
    | with_reducible apply Keeps.refl
    | with_reducible assumption
    | with_reducible exact OutKeeps.fault
    | with_reducible exact OutKeeps.refused
    | with_reducible apply OutKeeps.ok
    | with_reducible apply OutKeeps.next
    | with_reducible apply OutKeeps.ite
    | ((with_reducible apply Keeps.step (fin_keeps ..)); focus exact rfl)
    | ((with_reducible apply whenDo_keeps); focus exact rfl)
    | ((with_reducible apply Keeps.step (startApdu_keeps ..)); focus exact rfl)
    | ((with_reducible apply Keeps.step (State.modCust_keeps ..)); focus exact rfl)
    | with_reducible intro _
    | with_reducible apply Keeps.self
    | with_reducible apply Keeps.ite
    | with_reducible apply Keeps.ite_fst
    | with_reducible refine Keeps.foldl _ (fun _ _ => ?_) ?_
    | extract_lets
    | split
    | dsimp only)

theorem execReadyMaxExpiry_keeps (s : State) : OutKeeps (allBut [.pending, .params, .journal, .offers, .nextJob, .window, .time]) s
    (execReadyMaxExpiry s) := by
  unfold execReadyMaxExpiry
  repeat' (first
    | with_reducible apply Keeps.refl
    | with_reducible assumption
    | with_reducible exact OutKeeps.fault
    | with_reducible exact OutKeeps.refused
    | with_reducible apply OutKeeps.ok
    | with_reducible apply OutKeeps.next
    | with_reducible apply OutKeeps.ite
    | ((with_reducible apply Keeps.step (fin_keeps ..)); focus exact rfl)
    | ((with_reducible apply whenDo_keeps); focus exact rfl)
    | ((with_reducible apply Keeps.step (cardFailed_keeps ..)); focus exact rfl)
    | ((with_reducible apply Keeps.step (cardOff_keeps ..)); focus exact rfl)
    | with_reducible intro _
    | with_reducible apply Keeps.self
    | with_reducible apply Keeps.ite
    | with_reducible apply Keeps.ite_fst
    | with_reducible refine Keeps.foldl _ (fun _ _ => ?_) ?_
    | extract_lets
    | split
    | dsimp only)

theorem waitMax_keeps (s : State) : Keeps (only [.cust, .prompts]) s (waitMax s) := by
  unfold waitMax
  repeat' (first
    | with_reducible apply Keeps.refl
    | with_reducible assumption
    | ((with_reducible apply Keeps.step (cutWrite_keeps ..)); focus exact rfl)
    | ((with_reducible apply Keeps.step (cardOff_keeps ..)); focus exact rfl)
    | ((with_reducible apply Keeps.step (cmdEnd_keeps ..)); focus exact rfl)
    | ((with_reducible apply Keeps.step (cardActivate_keeps ..)); focus exact rfl)
    | ((with_reducible apply Keeps.step (State.modCust_keeps ..)); focus exact rfl)
    | with_reducible refine Keeps.fst (by assumption) ?_
    | with_reducible apply Keeps.ite
    | with_reducible apply Keeps.ite_fst
    | with_reducible refine Keeps.foldl _ (fun _ _ => ?_) ?_
    | extract_lets
    | split
    | dsimp only)

theorem execWaitMaxExpiry_keeps (s : State) : OutKeeps (allBut [.pending, .params, .journal, .offers, .nextJob, .window, .time]) s (execWaitMaxExpiry
    s) := by
  unfold execWaitMaxExpiry
  repeat' (first
    | with_reducible apply Keeps.refl
    | with_reducible assumption
    | with_reducible exact OutKeeps.fault
    | with_reducible exact OutKeeps.refused
    | with_reducible apply OutKeeps.ok
    | with_reducible apply OutKeeps.next
    | with_reducible apply OutKeeps.ite
    | ((with_reducible apply Keeps.step (fin_keeps ..)); focus exact rfl)
    | ((with_reducible apply whenDo_keeps); focus exact rfl)
    | ((with_reducible apply Keeps.step (waitMax_keeps ..)); focus exact rfl)
    | with_reducible intro _
    | with_reducible apply Keeps.self
    | with_reducible apply Keeps.ite
    | with_reducible apply Keeps.ite_fst
    | with_reducible refine Keeps.foldl _ (fun _ _ => ?_) ?_
    | extract_lets
    | split
    | dsimp only)

theorem execClockStop_keeps (s : State) : OutKeeps (allBut [.pending, .params, .journal, .offers, .nextJob, .window, .time]) s (execClockStop s) := by
  unfold execClockStop
  repeat' (first
    | with_reducible apply Keeps.refl
    | with_reducible assumption
    | with_reducible exact OutKeeps.fault
    | with_reducible exact OutKeeps.refused
    | with_reducible apply OutKeeps.ok
    | with_reducible apply OutKeeps.next
    | with_reducible apply OutKeeps.ite
    | ((with_reducible apply Keeps.step (fin_keeps ..)); focus exact rfl)
    | ((with_reducible apply whenDo_keeps); focus exact rfl)
    | ((with_reducible apply Keeps.step (State.modCust_keeps ..)); focus exact rfl)
    | with_reducible intro _
    | with_reducible apply Keeps.self
    | with_reducible apply Keeps.ite
    | with_reducible apply Keeps.ite_fst
    | with_reducible refine Keeps.foldl _ (fun _ _ => ?_) ?_
    | extract_lets
    | split
    | dsimp only)

theorem execRefclkReturn_keeps (khz : Nat) (s : State) : OutKeeps (allBut [.pending, .params, .journal, .offers, .nextJob, .window]) s
    (execRefclkReturn khz s) := by
  unfold execRefclkReturn
  repeat' (first
    | with_reducible apply Keeps.refl
    | with_reducible assumption
    | with_reducible exact OutKeeps.fault
    | with_reducible exact OutKeeps.refused
    | with_reducible apply OutKeeps.ok
    | with_reducible apply OutKeeps.next
    | with_reducible apply OutKeeps.ite
    | ((with_reducible apply Keeps.step (refBack_keeps ..)); focus exact rfl)
    | ((with_reducible apply Keeps.step (fin_keeps ..)); focus exact rfl)
    | ((with_reducible apply Keeps.step (cardActivate_keeps ..)); focus exact rfl)
    | with_reducible apply Keeps.ite
    | with_reducible apply Keeps.ite_fst
    | with_reducible refine Keeps.foldl _ (fun _ _ => ?_) ?_
    | extract_lets
    | split
    | dsimp only)

theorem execAuthExpiry_keeps (act : Nat) (s : State) : OutKeeps (allBut [.pending, .params, .journal, .offers, .nextJob, .window, .time]) s
    (execAuthExpiry act s) := by
  unfold execAuthExpiry
  repeat' (first
    | with_reducible apply Keeps.refl
    | with_reducible assumption
    | with_reducible exact OutKeeps.fault
    | with_reducible exact OutKeeps.refused
    | with_reducible apply OutKeeps.ok
    | with_reducible apply OutKeeps.next
    | with_reducible apply OutKeeps.ite
    | ((with_reducible apply Keeps.step (fin_keeps ..)); focus exact rfl)
    | ((with_reducible apply whenDo_keeps); focus exact rfl)
    | ((with_reducible apply Keeps.step (endAuth_keeps ..)); focus exact rfl)
    | with_reducible intro _
    | with_reducible apply Keeps.self
    | with_reducible apply Keeps.ite
    | with_reducible apply Keeps.ite_fst
    | with_reducible refine Keeps.foldl _ (fun _ _ => ?_) ?_
    | extract_lets
    | split
    | dsimp only)

theorem execShareHoldExpiry_keeps (s : State) : OutKeeps (allBut [.pending, .params, .journal, .offers, .nextJob, .window, .time]) s
    (execShareHoldExpiry s) := by
  unfold execShareHoldExpiry
  repeat' (first
    | with_reducible apply Keeps.refl
    | with_reducible assumption
    | with_reducible exact OutKeeps.fault
    | with_reducible exact OutKeeps.refused
    | with_reducible apply OutKeeps.ok
    | with_reducible apply OutKeeps.next
    | with_reducible apply OutKeeps.ite
    | ((with_reducible apply Keeps.step (fin_keeps ..)); focus exact rfl)
    | ((with_reducible apply whenDo_keeps); focus exact rfl)
    | ((with_reducible apply Keeps.step (State.modCust_keeps ..)); focus exact rfl)
    | with_reducible intro _
    | with_reducible apply Keeps.self
    | with_reducible apply Keeps.ite
    | with_reducible apply Keeps.ite_fst
    | with_reducible refine Keeps.foldl _ (fun _ _ => ?_) ?_
    | extract_lets
    | split
    | dsimp only)

theorem custCmd_keeps {ch : Part → Bool} {s0 s : State} {cmd arg : Nat} {f : State → State} (hm : within (only [.alarms, .cust, .prompts]) ch = true)
    (h0 : Keeps ch s0 s) (hf : ∀ t, Keeps ch t (f t)) : Keeps ch s0 (custCmd s cmd arg f) := by
  unfold custCmd
  repeat' (first
    | with_reducible apply Keeps.refl
    | with_reducible assumption
    | ((with_reducible apply mgrWrite_keeps); focus exact (within_trans rfl hm))
    | ((with_reducible apply Keeps.step (State.modCust_keeps ..)); focus exact (within_trans rfl hm))
    | with_reducible intro _
    | with_reducible apply Keeps.self
    | with_reducible exact hf _
    | with_reducible exact hf _ _
    | with_reducible exact hf _ _ _
    | with_reducible refine Keeps.trans ?_ (hf _)
    | with_reducible refine Keeps.trans ?_ (hf _ _)
    | with_reducible refine Keeps.trans ?_ (hf _ _ _)
    | with_reducible apply Keeps.ite
    | with_reducible apply Keeps.ite_fst
    | with_reducible refine Keeps.foldl _ (fun _ _ => ?_) ?_
    | extract_lets
    | split
    | dsimp only)

theorem useCard_keeps (s : State) (good : Bool) : Keeps (only [.entropy, .cust, .prompts]) s (useCard s good) := by
  unfold useCard
  repeat' (first
    | with_reducible apply Keeps.refl
    | with_reducible assumption
    | ((with_reducible apply Keeps.step (cmdDone_keeps ..)); focus exact rfl)
    | ((with_reducible apply Keeps.step (cardGo_keeps ..)); focus exact rfl)
    | with_reducible apply Keeps.ite
    | with_reducible apply Keeps.ite_fst
    | with_reducible refine Keeps.foldl _ (fun _ _ => ?_) ?_
    | extract_lets
    | split
    | dsimp only)

theorem rootLockCmd_keeps (s : State) : Keeps (only [.cust, .prompts]) s (rootLockCmd s) := by
  unfold rootLockCmd
  repeat' (first
    | with_reducible apply Keeps.refl
    | with_reducible assumption
    | ((with_reducible apply Keeps.step (cmdDone_keeps ..)); focus exact rfl)
    | ((with_reducible apply Keeps.step (State.modCust_keeps ..)); focus exact rfl)
    | with_reducible apply Keeps.ite
    | with_reducible apply Keeps.ite_fst
    | with_reducible refine Keeps.foldl _ (fun _ _ => ?_) ?_
    | extract_lets
    | split
    | dsimp only)

theorem authorizeCmd_keeps (s : State) : Keeps (only [.entropy, .cust, .prompts]) s (authorizeCmd s) := by
  unfold authorizeCmd
  repeat' (first
    | with_reducible apply Keeps.refl
    | with_reducible assumption
    | ((with_reducible apply Keeps.step (useCard_keeps ..)); focus exact rfl)
    | with_reducible apply Keeps.ite
    | with_reducible apply Keeps.ite_fst
    | with_reducible refine Keeps.foldl _ (fun _ _ => ?_) ?_
    | extract_lets
    | split
    | dsimp only)

theorem importShareCmd_keeps (s : State) : Keeps (only [.entropy, .cust, .prompts]) s (importShareCmd s) := by
  unfold importShareCmd
  repeat' (first
    | with_reducible apply Keeps.refl
    | with_reducible assumption
    | ((with_reducible apply Keeps.step (useCard_keeps ..)); focus exact rfl)
    | with_reducible apply Keeps.ite
    | with_reducible apply Keeps.ite_fst
    | with_reducible refine Keeps.foldl _ (fun _ _ => ?_) ?_
    | extract_lets
    | split
    | dsimp only)

theorem exportShareCmd_keeps (s : State) : Keeps (only [.entropy, .cust, .prompts]) s (exportShareCmd s) := by
  unfold exportShareCmd
  repeat' (first
    | with_reducible apply Keeps.refl
    | with_reducible assumption
    | ((with_reducible apply Keeps.step (cmdDone_keeps ..)); focus exact rfl)
    | ((with_reducible apply Keeps.step (cardGo_keeps ..)); focus exact rfl)
    | with_reducible apply Keeps.ite
    | with_reducible apply Keeps.ite_fst
    | with_reducible refine Keeps.foldl _ (fun _ _ => ?_) ?_
    | extract_lets
    | split
    | dsimp only)

theorem sharesClearCmd_keeps (s : State) : Keeps (only [.cust, .prompts]) s (sharesClearCmd s) := by
  unfold sharesClearCmd
  repeat' (first
    | with_reducible apply Keeps.refl
    | with_reducible assumption
    | ((with_reducible apply Keeps.step (cmdDone_keeps ..)); focus exact rfl)
    | ((with_reducible apply Keeps.step (State.modCust_keeps ..)); focus exact rfl)
    | with_reducible apply Keeps.ite
    | with_reducible apply Keeps.ite_fst
    | with_reducible refine Keeps.foldl _ (fun _ _ => ?_) ?_
    | extract_lets
    | split
    | dsimp only)

theorem authEndCmd_keeps (s : State) : Keeps (only [.cust, .prompts]) s (authEndCmd s) := by
  unfold authEndCmd
  repeat' (first
    | with_reducible apply Keeps.refl
    | with_reducible assumption
    | ((with_reducible apply Keeps.step (cmdDone_keeps ..)); focus exact rfl)
    | ((with_reducible apply Keeps.step (endAuth_keeps ..)); focus exact rfl)
    | with_reducible apply Keeps.ite
    | with_reducible apply Keeps.ite_fst
    | with_reducible refine Keeps.foldl _ (fun _ _ => ?_) ?_
    | extract_lets
    | split
    | dsimp only)

theorem reconDropCmd_keeps (s : State) : Keeps (only [.cust, .prompts]) s (reconDropCmd s) := by
  unfold reconDropCmd
  repeat' (first
    | with_reducible apply Keeps.refl
    | with_reducible assumption
    | ((with_reducible apply Keeps.step (cmdDone_keeps ..)); focus exact rfl)
    | ((with_reducible apply Keeps.step (recSettle_keeps ..)); focus exact rfl)
    | with_reducible apply Keeps.ite
    | with_reducible apply Keeps.ite_fst
    | with_reducible refine Keeps.foldl _ (fun _ _ => ?_) ?_
    | extract_lets
    | split
    | dsimp only)

theorem deactivateCmd_keeps (s : State) : Keeps (only [.cust, .prompts]) s (deactivateCmd s) := by
  unfold deactivateCmd
  repeat' (first
    | with_reducible apply Keeps.refl
    | with_reducible assumption
    | ((with_reducible apply Keeps.step (cmdDone_keeps ..)); focus exact rfl)
    | ((with_reducible apply Keeps.step (cardFailed_keeps ..)); focus exact rfl)
    | ((with_reducible apply Keeps.step (cardOff_keeps ..)); focus exact rfl)
    | ((with_reducible apply Keeps.step (cutWrite_keeps ..)); focus exact rfl)
    | ((with_reducible apply Keeps.step (State.modCust_keeps ..)); focus exact rfl)
    | with_reducible refine Keeps.fst (by assumption) ?_
    | with_reducible apply Keeps.ite
    | with_reducible apply Keeps.ite_fst
    | with_reducible refine Keeps.foldl _ (fun _ _ => ?_) ?_
    | extract_lets
    | split
    | dsimp only)

theorem activateCmd_keeps (s : State) : Keeps (only [.cust, .prompts]) s (activateCmd s) := by
  unfold activateCmd
  repeat' (first
    | with_reducible apply Keeps.refl
    | with_reducible assumption
    | ((with_reducible apply Keeps.step (cmdDone_keeps ..)); focus exact rfl)
    | ((with_reducible apply Keeps.step (State.modCust_keeps ..)); focus exact rfl)
    | ((with_reducible apply Keeps.step (cardActivate_keeps ..)); focus exact rfl)
    | with_reducible apply Keeps.ite
    | with_reducible apply Keeps.ite_fst
    | with_reducible refine Keeps.foldl _ (fun _ _ => ?_) ?_
    | extract_lets
    | split
    | dsimp only)

theorem execRootLock_keeps (arg : Nat) (s : State) : OutKeeps (allBut [.pending, .params, .journal, .offers, .nextJob, .window, .time]) s
    (execRootLock arg s) := by
  unfold execRootLock
  repeat' (first
    | with_reducible apply Keeps.refl
    | with_reducible assumption
    | with_reducible exact OutKeeps.fault
    | with_reducible exact OutKeeps.refused
    | with_reducible apply OutKeeps.ok
    | with_reducible apply OutKeeps.next
    | with_reducible apply OutKeeps.ite
    | ((with_reducible apply Keeps.step (fin_keeps ..)); focus exact rfl)
    | ((with_reducible apply custCmd_keeps); focus exact rfl)
    | ((with_reducible apply Keeps.step (rootLockCmd_keeps ..)); focus exact rfl)
    | with_reducible intro _
    | with_reducible apply Keeps.self
    | with_reducible apply Keeps.ite
    | with_reducible apply Keeps.ite_fst
    | with_reducible refine Keeps.foldl _ (fun _ _ => ?_) ?_
    | extract_lets
    | split
    | dsimp only)

theorem execAuthorize_keeps (arg : Nat) (s : State) : OutKeeps (allBut [.pending, .params, .journal, .offers, .nextJob, .window, .time]) s
    (execAuthorize arg s) := by
  unfold execAuthorize
  repeat' (first
    | with_reducible apply Keeps.refl
    | with_reducible assumption
    | with_reducible exact OutKeeps.fault
    | with_reducible exact OutKeeps.refused
    | with_reducible apply OutKeeps.ok
    | with_reducible apply OutKeeps.next
    | with_reducible apply OutKeeps.ite
    | ((with_reducible apply Keeps.step (fin_keeps ..)); focus exact rfl)
    | ((with_reducible apply custCmd_keeps); focus exact rfl)
    | ((with_reducible apply Keeps.step (authorizeCmd_keeps ..)); focus exact rfl)
    | with_reducible intro _
    | with_reducible apply Keeps.self
    | with_reducible apply Keeps.ite
    | with_reducible apply Keeps.ite_fst
    | with_reducible refine Keeps.foldl _ (fun _ _ => ?_) ?_
    | extract_lets
    | split
    | dsimp only)

theorem execImportShare_keeps (arg : Nat) (s : State) : OutKeeps (allBut [.pending, .params, .journal, .offers, .nextJob, .window, .time]) s
    (execImportShare arg s) := by
  unfold execImportShare
  repeat' (first
    | with_reducible apply Keeps.refl
    | with_reducible assumption
    | with_reducible exact OutKeeps.fault
    | with_reducible exact OutKeeps.refused
    | with_reducible apply OutKeeps.ok
    | with_reducible apply OutKeeps.next
    | with_reducible apply OutKeeps.ite
    | ((with_reducible apply Keeps.step (fin_keeps ..)); focus exact rfl)
    | ((with_reducible apply custCmd_keeps); focus exact rfl)
    | ((with_reducible apply Keeps.step (importShareCmd_keeps ..)); focus exact rfl)
    | with_reducible intro _
    | with_reducible apply Keeps.self
    | with_reducible apply Keeps.ite
    | with_reducible apply Keeps.ite_fst
    | with_reducible refine Keeps.foldl _ (fun _ _ => ?_) ?_
    | extract_lets
    | split
    | dsimp only)

theorem execExportShare_keeps (arg : Nat) (s : State) : OutKeeps (allBut [.pending, .params, .journal, .offers, .nextJob, .window, .time]) s
    (execExportShare arg s) := by
  unfold execExportShare
  repeat' (first
    | with_reducible apply Keeps.refl
    | with_reducible assumption
    | with_reducible exact OutKeeps.fault
    | with_reducible exact OutKeeps.refused
    | with_reducible apply OutKeeps.ok
    | with_reducible apply OutKeeps.next
    | with_reducible apply OutKeeps.ite
    | ((with_reducible apply Keeps.step (fin_keeps ..)); focus exact rfl)
    | ((with_reducible apply custCmd_keeps); focus exact rfl)
    | ((with_reducible apply Keeps.step (exportShareCmd_keeps ..)); focus exact rfl)
    | with_reducible intro _
    | with_reducible apply Keeps.self
    | with_reducible apply Keeps.ite
    | with_reducible apply Keeps.ite_fst
    | with_reducible refine Keeps.foldl _ (fun _ _ => ?_) ?_
    | extract_lets
    | split
    | dsimp only)

theorem execSharesClear_keeps (arg : Nat) (s : State) : OutKeeps (allBut [.pending, .params, .journal, .offers, .nextJob, .window, .time]) s
    (execSharesClear arg s) := by
  unfold execSharesClear
  repeat' (first
    | with_reducible apply Keeps.refl
    | with_reducible assumption
    | with_reducible exact OutKeeps.fault
    | with_reducible exact OutKeeps.refused
    | with_reducible apply OutKeeps.ok
    | with_reducible apply OutKeeps.next
    | with_reducible apply OutKeeps.ite
    | ((with_reducible apply Keeps.step (fin_keeps ..)); focus exact rfl)
    | ((with_reducible apply custCmd_keeps); focus exact rfl)
    | ((with_reducible apply Keeps.step (sharesClearCmd_keeps ..)); focus exact rfl)
    | with_reducible intro _
    | with_reducible apply Keeps.self
    | with_reducible apply Keeps.ite
    | with_reducible apply Keeps.ite_fst
    | with_reducible refine Keeps.foldl _ (fun _ _ => ?_) ?_
    | extract_lets
    | split
    | dsimp only)

theorem execAuthEnd_keeps (arg : Nat) (s : State) : OutKeeps (allBut [.pending, .params, .journal, .offers, .nextJob, .window, .time]) s (execAuthEnd
    arg s) := by
  unfold execAuthEnd
  repeat' (first
    | with_reducible apply Keeps.refl
    | with_reducible assumption
    | with_reducible exact OutKeeps.fault
    | with_reducible exact OutKeeps.refused
    | with_reducible apply OutKeeps.ok
    | with_reducible apply OutKeeps.next
    | with_reducible apply OutKeeps.ite
    | ((with_reducible apply Keeps.step (fin_keeps ..)); focus exact rfl)
    | ((with_reducible apply custCmd_keeps); focus exact rfl)
    | ((with_reducible apply Keeps.step (authEndCmd_keeps ..)); focus exact rfl)
    | with_reducible intro _
    | with_reducible apply Keeps.self
    | with_reducible apply Keeps.ite
    | with_reducible apply Keeps.ite_fst
    | with_reducible refine Keeps.foldl _ (fun _ _ => ?_) ?_
    | extract_lets
    | split
    | dsimp only)

theorem execReconDrop_keeps (arg : Nat) (s : State) : OutKeeps (allBut [.pending, .params, .journal, .offers, .nextJob, .window, .time]) s
    (execReconDrop arg s) := by
  unfold execReconDrop
  repeat' (first
    | with_reducible apply Keeps.refl
    | with_reducible assumption
    | with_reducible exact OutKeeps.fault
    | with_reducible exact OutKeeps.refused
    | with_reducible apply OutKeeps.ok
    | with_reducible apply OutKeeps.next
    | with_reducible apply OutKeeps.ite
    | ((with_reducible apply Keeps.step (fin_keeps ..)); focus exact rfl)
    | ((with_reducible apply custCmd_keeps); focus exact rfl)
    | ((with_reducible apply Keeps.step (reconDropCmd_keeps ..)); focus exact rfl)
    | with_reducible intro _
    | with_reducible apply Keeps.self
    | with_reducible apply Keeps.ite
    | with_reducible apply Keeps.ite_fst
    | with_reducible refine Keeps.foldl _ (fun _ _ => ?_) ?_
    | extract_lets
    | split
    | dsimp only)

theorem execDeactivate_keeps (arg : Nat) (s : State) : OutKeeps (allBut [.pending, .params, .journal, .offers, .nextJob, .window, .time]) s
    (execDeactivate arg s) := by
  unfold execDeactivate
  repeat' (first
    | with_reducible apply Keeps.refl
    | with_reducible assumption
    | with_reducible exact OutKeeps.fault
    | with_reducible exact OutKeeps.refused
    | with_reducible apply OutKeeps.ok
    | with_reducible apply OutKeeps.next
    | with_reducible apply OutKeeps.ite
    | ((with_reducible apply Keeps.step (fin_keeps ..)); focus exact rfl)
    | ((with_reducible apply custCmd_keeps); focus exact rfl)
    | ((with_reducible apply Keeps.step (deactivateCmd_keeps ..)); focus exact rfl)
    | with_reducible intro _
    | with_reducible apply Keeps.self
    | with_reducible apply Keeps.ite
    | with_reducible apply Keeps.ite_fst
    | with_reducible refine Keeps.foldl _ (fun _ _ => ?_) ?_
    | extract_lets
    | split
    | dsimp only)

theorem execActivate_keeps (arg : Nat) (s : State) : OutKeeps (allBut [.pending, .params, .journal, .offers, .nextJob, .window, .time]) s
    (execActivate arg s) := by
  unfold execActivate
  repeat' (first
    | with_reducible apply Keeps.refl
    | with_reducible assumption
    | with_reducible exact OutKeeps.fault
    | with_reducible exact OutKeeps.refused
    | with_reducible apply OutKeeps.ok
    | with_reducible apply OutKeeps.next
    | with_reducible apply OutKeeps.ite
    | ((with_reducible apply Keeps.step (fin_keeps ..)); focus exact rfl)
    | ((with_reducible apply custCmd_keeps); focus exact rfl)
    | ((with_reducible apply Keeps.step (activateCmd_keeps ..)); focus exact rfl)
    | with_reducible intro _
    | with_reducible apply Keeps.self
    | with_reducible apply Keeps.ite
    | with_reducible apply Keeps.ite_fst
    | with_reducible refine Keeps.foldl _ (fun _ _ => ?_) ?_
    | extract_lets
    | split
    | dsimp only)

theorem cfgWrite_keeps (s : State) (n : Nat) : Keeps (only [.cust]) s (cfgWrite s n) := by
  unfold cfgWrite
  repeat' (first
    | with_reducible apply Keeps.refl
    | with_reducible assumption
    | ((with_reducible apply Keeps.step (State.modCust_keeps ..)); focus exact rfl)
    | with_reducible apply Keeps.ite
    | with_reducible apply Keeps.ite_fst
    | with_reducible refine Keeps.foldl _ (fun _ _ => ?_) ?_
    | extract_lets
    | split
    | dsimp only)

theorem custWrite_keeps (s : State) (off : Nat) (v : W32) : Keeps (only [.alarms, .entropy, .cust, .prompts]) s (custWrite s off v) := by
  unfold custWrite
  repeat' (first
    | with_reducible apply Keeps.refl
    | with_reducible assumption
    | ((with_reducible apply Keeps.step (State.modCust_keeps ..)); focus exact rfl)
    | ((with_reducible apply Keeps.step (rootLockCmd_keeps ..)); focus exact rfl)
    | ((with_reducible apply Keeps.step (authorizeCmd_keeps ..)); focus exact rfl)
    | ((with_reducible apply Keeps.step (importShareCmd_keeps ..)); focus exact rfl)
    | ((with_reducible apply Keeps.step (exportShareCmd_keeps ..)); focus exact rfl)
    | ((with_reducible apply Keeps.step (sharesClearCmd_keeps ..)); focus exact rfl)
    | ((with_reducible apply Keeps.step (authEndCmd_keeps ..)); focus exact rfl)
    | ((with_reducible apply Keeps.step (reconDropCmd_keeps ..)); focus exact rfl)
    | ((with_reducible apply Keeps.step (deactivateCmd_keeps ..)); focus exact rfl)
    | ((with_reducible apply Keeps.step (activateCmd_keeps ..)); focus exact rfl)
    | ((with_reducible apply Keeps.step (cmdDone_keeps ..)); focus exact rfl)
    | ((with_reducible apply Keeps.step (refuse_keeps ..)); focus exact rfl)
    | ((with_reducible apply Keeps.step (cfgWrite_keeps ..)); focus exact rfl)
    | with_reducible apply Keeps.ite
    | with_reducible apply Keeps.ite_fst
    | with_reducible refine Keeps.foldl _ (fun _ _ => ?_) ?_
    | extract_lets
    | split
    | dsimp only)

end Sys2Proof.Machine
end

