-- ==== Sys2Proof/Laws/FrameWindow.lean ====
section
/-! SUPPORT. Frames of Machine/Window: for each operation, the parts of the state it may change. -/

namespace Sys2Proof.Machine

theorem State.modWindow_keeps (s : State) (f : DigestWindow → DigestWindow) : Keeps (only [.window]) s (State.modWindow s f) := by
  unfold State.modWindow
  repeat' (first
    | with_reducible apply Keeps.refl
    | with_reducible assumption
    | with_reducible apply Keeps.ite
    | with_reducible apply Keeps.ite_fst
    | with_reducible refine Keeps.foldl _ (fun _ _ => ?_) ?_
    | extract_lets
    | split
    | dsimp only
    | ((with_reducible apply Keeps.upd) <;> first | exact .inl rfl | exact .inr rfl | skip))

theorem dwErr_keeps (s : State) (e : Nat) : Keeps (only [.window]) s (dwErr s e) := by
  unfold dwErr
  repeat' (first
    | with_reducible apply Keeps.refl
    | with_reducible assumption
    | ((with_reducible apply Keeps.step (State.modWindow_keeps ..)); focus exact rfl)
    | with_reducible apply Keeps.ite
    | with_reducible apply Keeps.ite_fst
    | with_reducible refine Keeps.foldl _ (fun _ _ => ?_) ?_
    | extract_lets
    | split
    | dsimp only)

theorem dwOpen_keeps (s : State) (alg : Nat) : Keeps (only [.window]) s (dwOpen s alg) := by
  unfold dwOpen
  repeat' (first
    | with_reducible apply Keeps.refl
    | with_reducible assumption
    | ((with_reducible apply Keeps.step (dwErr_keeps ..)); focus exact rfl)
    | ((with_reducible apply Keeps.step (State.modWindow_keeps ..)); focus exact rfl)
    | with_reducible apply Keeps.ite
    | with_reducible apply Keeps.ite_fst
    | with_reducible refine Keeps.foldl _ (fun _ _ => ?_) ?_
    | extract_lets
    | split
    | dsimp only)

theorem dwLow_keeps (s : State) (v : W32) : Keeps (only [.window]) s (dwLow s v) := by
  unfold dwLow
  repeat' (first
    | with_reducible apply Keeps.refl
    | with_reducible assumption
    | ((with_reducible apply Keeps.step (State.modWindow_keeps ..)); focus exact rfl)
    | ((with_reducible apply Keeps.step (dwErr_keeps ..)); focus exact rfl)
    | with_reducible apply Keeps.ite
    | with_reducible apply Keeps.ite_fst
    | with_reducible refine Keeps.foldl _ (fun _ _ => ?_) ?_
    | extract_lets
    | split
    | dsimp only)

theorem dwHigh_keeps (s : State) (v : W32) : Keeps (only [.window]) s (dwHigh s v) := by
  unfold dwHigh
  repeat' (first
    | with_reducible apply Keeps.refl
    | with_reducible assumption
    | ((with_reducible apply Keeps.step (State.modWindow_keeps ..)); focus exact rfl)
    | ((with_reducible apply Keeps.step (dwErr_keeps ..)); focus exact rfl)
    | with_reducible apply Keeps.ite
    | with_reducible apply Keeps.ite_fst
    | with_reducible refine Keeps.foldl _ (fun _ _ => ?_) ?_
    | extract_lets
    | split
    | dsimp only)

theorem dwClose_keeps (s : State) (last : Nat) : Keeps (only [.window]) s (dwClose s last) := by
  unfold dwClose
  repeat' (first
    | with_reducible apply Keeps.refl
    | with_reducible assumption
    | ((with_reducible apply Keeps.step (dwErr_keeps ..)); focus exact rfl)
    | ((with_reducible apply Keeps.step (State.modWindow_keeps ..)); focus exact rfl)
    | with_reducible apply Keeps.ite
    | with_reducible apply Keeps.ite_fst
    | with_reducible refine Keeps.foldl _ (fun _ _ => ?_) ?_
    | extract_lets
    | split
    | dsimp only)

theorem dwAbsorbed_keeps (s : State) : Keeps (only [.window]) s (dwAbsorbed s) := by
  unfold dwAbsorbed
  repeat' (first
    | with_reducible apply Keeps.refl
    | with_reducible assumption
    | ((with_reducible apply Keeps.step (State.modWindow_keeps ..)); focus exact rfl)
    | with_reducible apply Keeps.ite
    | with_reducible apply Keeps.ite_fst
    | with_reducible refine Keeps.foldl _ (fun _ _ => ?_) ?_
    | extract_lets
    | split
    | dsimp only)

theorem execDwStart_keeps (alg : Nat) (s : State) : OutKeeps (only [.alarms, .window, .prompts]) s (execDwStart alg s) := by
  unfold execDwStart
  repeat' (first
    | with_reducible apply Keeps.refl
    | with_reducible assumption
    | with_reducible exact OutKeeps.fault
    | with_reducible exact OutKeeps.refused
    | with_reducible apply OutKeeps.ok
    | with_reducible apply OutKeeps.next
    | with_reducible apply OutKeeps.ite
    | ((with_reducible apply mgrWrite_keeps); focus exact rfl)
    | ((with_reducible apply Keeps.step (dwOpen_keeps ..)); focus exact rfl)
    | with_reducible intro _
    | with_reducible apply Keeps.self
    | with_reducible apply Keeps.ite
    | with_reducible apply Keeps.ite_fst
    | with_reducible refine Keeps.foldl _ (fun _ _ => ?_) ?_
    | extract_lets
    | split
    | dsimp only)

theorem execDwDataWrite_keeps (value : W32) (s : State) : OutKeeps (only [.alarms, .window, .prompts]) s (execDwDataWrite value s) := by
  unfold execDwDataWrite
  repeat' (first
    | with_reducible apply Keeps.refl
    | with_reducible assumption
    | with_reducible exact OutKeeps.fault
    | with_reducible exact OutKeeps.refused
    | with_reducible apply OutKeeps.ok
    | with_reducible apply OutKeeps.next
    | with_reducible apply OutKeeps.ite
    | ((with_reducible apply mgrWrite_keeps); focus exact rfl)
    | ((with_reducible apply Keeps.step (dwHigh_keeps ..)); focus exact rfl)
    | with_reducible intro _
    | with_reducible apply Keeps.self
    | with_reducible apply Keeps.ite
    | with_reducible apply Keeps.ite_fst
    | with_reducible refine Keeps.foldl _ (fun _ _ => ?_) ?_
    | extract_lets
    | split
    | dsimp only)

theorem execDwFinish_keeps (lastBytes : Nat) (s : State) : OutKeeps (only [.alarms, .window, .prompts]) s (execDwFinish lastBytes s) := by
  unfold execDwFinish
  repeat' (first
    | with_reducible apply Keeps.refl
    | with_reducible assumption
    | with_reducible exact OutKeeps.fault
    | with_reducible exact OutKeeps.refused
    | with_reducible apply OutKeeps.ok
    | with_reducible apply OutKeeps.next
    | with_reducible apply OutKeeps.ite
    | ((with_reducible apply mgrWrite_keeps); focus exact rfl)
    | ((with_reducible apply Keeps.step (dwClose_keeps ..)); focus exact rfl)
    | with_reducible intro _
    | with_reducible apply Keeps.self
    | with_reducible apply Keeps.ite
    | with_reducible apply Keeps.ite_fst
    | with_reducible refine Keeps.foldl _ (fun _ _ => ?_) ?_
    | extract_lets
    | split
    | dsimp only)

theorem execDwAbort_keeps (s : State) : OutKeeps (only [.alarms, .window, .prompts]) s (execDwAbort s) := by
  unfold execDwAbort
  repeat' (first
    | with_reducible apply Keeps.refl
    | with_reducible assumption
    | with_reducible exact OutKeeps.fault
    | with_reducible exact OutKeeps.refused
    | with_reducible apply OutKeeps.ok
    | with_reducible apply OutKeeps.next
    | with_reducible apply OutKeeps.ite
    | ((with_reducible apply mgrWrite_keeps); focus exact rfl)
    | ((with_reducible apply Keeps.step (State.modWindow_keeps ..)); focus exact rfl)
    | with_reducible intro _
    | with_reducible apply Keeps.self
    | with_reducible apply Keeps.ite
    | with_reducible apply Keeps.ite_fst
    | with_reducible refine Keeps.foldl _ (fun _ _ => ?_) ?_
    | extract_lets
    | split
    | dsimp only)

theorem execDwAbsorbDone_keeps (s : State) : OutKeeps (only [.window]) s (execDwAbsorbDone s) := by
  unfold execDwAbsorbDone
  repeat' (first
    | with_reducible apply Keeps.refl
    | with_reducible assumption
    | with_reducible exact OutKeeps.fault
    | with_reducible exact OutKeeps.refused
    | with_reducible apply OutKeeps.ok
    | with_reducible apply OutKeeps.next
    | with_reducible apply OutKeeps.ite
    | ((with_reducible apply whenDo_keeps); focus exact rfl)
    | ((with_reducible apply Keeps.step (dwAbsorbed_keeps ..)); focus exact rfl)
    | with_reducible intro _
    | with_reducible apply Keeps.self
    | with_reducible apply Keeps.ite
    | with_reducible apply Keeps.ite_fst
    | with_reducible refine Keeps.foldl _ (fun _ _ => ?_) ?_
    | extract_lets
    | split
    | dsimp only)

theorem digWrite_keeps (s : State) (off : Nat) (v : W32) : Keeps (only [.window]) s (digWrite s off v) := by
  unfold digWrite
  repeat' (first
    | with_reducible apply Keeps.refl
    | with_reducible assumption
    | ((with_reducible apply Keeps.step (dwOpen_keeps ..)); focus exact rfl)
    | ((with_reducible apply Keeps.step (dwClose_keeps ..)); focus exact rfl)
    | ((with_reducible apply Keeps.step (State.modWindow_keeps ..)); focus exact rfl)
    | ((with_reducible apply Keeps.step (dwErr_keeps ..)); focus exact rfl)
    | ((with_reducible apply Keeps.step (dwLow_keeps ..)); focus exact rfl)
    | ((with_reducible apply Keeps.step (dwHigh_keeps ..)); focus exact rfl)
    | with_reducible apply Keeps.ite
    | with_reducible apply Keeps.ite_fst
    | with_reducible refine Keeps.foldl _ (fun _ _ => ?_) ?_
    | extract_lets
    | split
    | dsimp only)

end Sys2Proof.Machine
end

