-- ==== Sys2Proof/Laws/FrameAlarm.lean ====
section
/-! SUPPORT. Frames of Machine/Alarm: for each operation, the parts of the state it may change. -/

namespace Sys2Proof.Machine

theorem State.modStart_keeps (s : State) (f : Start → Start) : Keeps (only [.start]) s (State.modStart s f) := by
  unfold State.modStart
  repeat' (first
    | with_reducible apply Keeps.refl
    | with_reducible assumption
    | with_reducible apply Keeps.ite
    | with_reducible apply Keeps.ite_fst
    | with_reducible refine Keeps.foldl _ (fun _ _ => ?_) ?_
    | extract_lets
    | split
    | dsimp only
    | ((with_reducible apply Keeps.upd) <;> first | exact .inl rfl | exact .inr rfl | skip))

theorem State.modJournal_keeps (s : State) (f : Journal → Journal) : Keeps (only [.journal]) s (State.modJournal s f) := by
  unfold State.modJournal
  repeat' (first
    | with_reducible apply Keeps.refl
    | with_reducible assumption
    | with_reducible apply Keeps.ite
    | with_reducible apply Keeps.ite_fst
    | with_reducible refine Keeps.foldl _ (fun _ _ => ?_) ?_
    | extract_lets
    | split
    | dsimp only
    | ((with_reducible apply Keeps.upd) <;> first | exact .inl rfl | exact .inr rfl | skip))

theorem modStartRec_keeps (s : State) (f : StartRec → StartRec) : Keeps (only [.journal]) s (modStartRec s f) := by
  unfold modStartRec
  repeat' (first
    | with_reducible apply Keeps.refl
    | with_reducible assumption
    | ((with_reducible apply Keeps.step (State.modJournal_keeps ..)); focus exact rfl)
    | with_reducible apply Keeps.ite
    | with_reducible apply Keeps.ite_fst
    | with_reducible refine Keeps.foldl _ (fun _ _ => ?_) ?_
    | extract_lets
    | split
    | dsimp only)

theorem putOutcome_keeps (s : State) (k : Nat) (out : Nat) : Keeps (only [.start, .journal]) s (putOutcome s k out) := by
  unfold putOutcome
  repeat' (first
    | with_reducible apply Keeps.refl
    | with_reducible assumption
    | ((with_reducible apply Keeps.step (State.modStart_keeps ..)); focus exact rfl)
    | ((with_reducible apply Keeps.step (modStartRec_keeps ..)); focus exact rfl)
    | ((with_reducible apply Keeps.step (State.modJournal_keeps ..)); focus exact rfl)
    | with_reducible apply Keeps.ite
    | with_reducible apply Keeps.ite_fst
    | with_reducible refine Keeps.foldl _ (fun _ _ => ?_) ?_
    | extract_lets
    | split
    | dsimp only)

theorem dropImage_keeps (s : State) : Keeps (only [.mem]) s (dropImage s) := by
  unfold dropImage
  repeat' (first
    | with_reducible apply Keeps.refl
    | with_reducible assumption
    | with_reducible apply Keeps.ite
    | with_reducible apply Keeps.ite_fst
    | with_reducible refine Keeps.foldl _ (fun _ _ => ?_) ?_
    | extract_lets
    | split
    | dsimp only
    | ((with_reducible apply Keeps.upd) <;> first | exact .inl rfl | exact .inr rfl | skip))

theorem endStart_keeps (s : State) (state : Nat) (cause : Nat) : Keeps (only [.start, .journal, .mem]) s (endStart s state cause) := by
  unfold endStart
  repeat' (first
    | with_reducible apply Keeps.refl
    | with_reducible assumption
    | ((with_reducible apply Keeps.step (dropImage_keeps ..)); focus exact rfl)
    | ((with_reducible apply Keeps.step (State.modStart_keeps ..)); focus exact rfl)
    | ((with_reducible apply Keeps.step (modStartRec_keeps ..)); focus exact rfl)
    | with_reducible apply Keeps.ite
    | with_reducible apply Keeps.ite_fst
    | with_reducible refine Keeps.foldl _ (fun _ _ => ?_) ?_
    | extract_lets
    | split
    | dsimp only)

theorem halt_keeps (s : State) : Keeps (only [.start, .journal, .mem, .entropy]) s (halt s) := by
  unfold halt
  repeat' (first
    | with_reducible apply Keeps.refl
    | with_reducible assumption
    | ((with_reducible apply Keeps.step (endStart_keeps ..)); focus exact rfl)
    | ((with_reducible apply Keeps.step (State.modStart_keeps ..)); focus exact rfl)
    | with_reducible apply Keeps.ite
    | with_reducible apply Keeps.ite_fst
    | with_reducible refine Keeps.foldl _ (fun _ _ => ?_) ?_
    | extract_lets
    | split
    | dsimp only
    | ((with_reducible apply Keeps.upd) <;> first | exact .inl rfl | exact .inr rfl | skip))

theorem startAlarm_keeps (s : State) : Keeps (only [.start, .journal, .mem, .entropy]) s (startAlarm s) := by
  unfold startAlarm
  repeat' (first
    | with_reducible apply Keeps.refl
    | with_reducible assumption
    | ((with_reducible apply Keeps.step (putOutcome_keeps ..)); focus exact rfl)
    | ((with_reducible apply Keeps.step (halt_keeps ..)); focus exact rfl)
    | with_reducible apply Keeps.ite
    | with_reducible apply Keeps.ite_fst
    | with_reducible refine Keeps.foldl _ (fun _ _ => ?_) ?_
    | extract_lets
    | split
    | dsimp only)

theorem stopWhere_keeps (s : State) (p : Job → Bool) (status : Nat) (sub : Nat) : Keeps (only [.jobs, .mem, .buffers, .engines, .keys]) s (stopWhere s
    p status sub) := by
  unfold stopWhere
  repeat' (first
    | with_reducible apply Keeps.refl
    | with_reducible assumption
    | ((with_reducible apply Keeps.step (stop_keeps ..)); focus exact rfl)
    | with_reducible apply Keeps.ite
    | with_reducible apply Keeps.ite_fst
    | with_reducible refine Keeps.foldl _ (fun _ _ => ?_) ?_
    | extract_lets
    | split
    | dsimp only)

theorem wipeBay_keeps (s : State) (b : Nat) : Keeps (only [.place, .buffers, .keys]) s (wipeBay s b) := by
  unfold wipeBay
  repeat' (first
    | with_reducible apply Keeps.refl
    | with_reducible assumption
    | ((with_reducible apply Keeps.step (wipeRegions_keeps ..)); focus exact rfl)
    | ((with_reducible apply Keeps.step (State.modBay_keeps ..)); focus exact rfl)
    | with_reducible apply Keeps.ite
    | with_reducible apply Keeps.ite_fst
    | with_reducible refine Keeps.foldl _ (fun _ _ => ?_) ?_
    | extract_lets
    | split
    | dsimp only
    | ((with_reducible apply Keeps.upd) <;> first | exact .inl rfl | exact .inr rfl | skip))

theorem mendHome_keeps (s : State) : Keeps (only [.place]) s (mendHome s) := by
  unfold mendHome
  repeat' (first
    | with_reducible apply Keeps.refl
    | with_reducible assumption
    | with_reducible apply Keeps.ite
    | with_reducible apply Keeps.ite_fst
    | with_reducible refine Keeps.foldl _ (fun _ _ => ?_) ?_
    | extract_lets
    | split
    | dsimp only
    | ((with_reducible apply Keeps.upd) <;> first | exact .inl rfl | exact .inr rfl | skip))

theorem markWingFailed_keeps (s : State) (w : Nat) : Keeps (only [.start, .journal, .place, .buffers, .keys]) s (markWingFailed s w) := by
  unfold markWingFailed
  repeat' (first
    | with_reducible apply Keeps.refl
    | with_reducible assumption
    | ((with_reducible apply Keeps.step (State.modWing_keeps ..)); focus exact rfl)
    | ((with_reducible apply Keeps.step (State.modStart_keeps ..)); focus exact rfl)
    | ((with_reducible apply Keeps.step (State.modJournal_keeps ..)); focus exact rfl)
    | ((with_reducible apply Keeps.step (mendHome_keeps ..)); focus exact rfl)
    | ((with_reducible apply Keeps.step (wipeBay_keeps ..)); focus exact rfl)
    | with_reducible apply Keeps.ite
    | with_reducible apply Keeps.ite_fst
    | with_reducible refine Keeps.foldl _ (fun _ _ => ?_) ?_
    | extract_lets
    | split
    | dsimp only)

theorem eraseAll_keeps (s : State) : Keeps (only [.seatRegs, .jobs, .place, .buffers, .engines, .keys, .window, .entropy, .front, .relay]) s (eraseAll
    s) := by
  unfold eraseAll
  repeat' (first
    | with_reducible apply Keeps.refl
    | with_reducible assumption
    | ((with_reducible apply Keeps.step (zeroAllInst_keeps ..)); focus exact rfl)
    | with_reducible apply Keeps.ite
    | with_reducible apply Keeps.ite_fst
    | with_reducible refine Keeps.foldl _ (fun _ _ => ?_) ?_
    | extract_lets
    | split
    | dsimp only
    | ((with_reducible apply Keeps.upd) <;> first | exact .inl rfl | exact .inr rfl | skip))

theorem unkeyHop_keeps (s : State) (sd : Side) : Keeps (only [.relay]) s (unkeyHop s sd) := by
  unfold unkeyHop
  repeat' (first
    | with_reducible apply Keeps.refl
    | with_reducible assumption
    | ((with_reducible apply Keeps.step (State.modHop_keeps ..)); focus exact rfl)
    | with_reducible apply Keeps.ite
    | with_reducible apply Keeps.ite_fst
    | with_reducible refine Keeps.foldl _ (fun _ _ => ?_) ?_
    | extract_lets
    | split
    | dsimp only)

theorem dropFetches_keeps (s : State) : Keeps (only [.rings, .mem]) s (dropFetches s) := by
  unfold dropFetches
  repeat' (first
    | with_reducible apply Keeps.refl
    | with_reducible assumption
    | with_reducible apply Keeps.ite
    | with_reducible apply Keeps.ite_fst
    | with_reducible refine Keeps.foldl _ (fun _ _ => ?_) ?_
    | extract_lets
    | split
    | dsimp only
    | ((with_reducible apply Keeps.upd) <;> first | exact .inl rfl | exact .inr rfl | skip))

theorem reopen_keeps (s : State) : Keeps (only [.jobs, .mem]) s (reopen s) := by
  unfold reopen
  repeat' (first
    | with_reducible apply Keeps.refl
    | with_reducible assumption
    | ((with_reducible apply Keeps.step (dropWrites_keeps ..)); focus exact rfl)
    | with_reducible apply Keeps.ite
    | with_reducible apply Keeps.ite_fst
    | with_reducible refine Keeps.foldl _ (fun _ _ => ?_) ?_
    | extract_lets
    | split
    | dsimp only
    | ((with_reducible apply Keeps.upd) <;> first | exact .inl rfl | exact .inr rfl | skip))

theorem failWing_keeps (s : State) (w : Nat) : Keeps (only [.start, .journal, .alarms, .place, .buffers, .keys, .prompts]) s (failWing s w) := by
  unfold failWing
  repeat' (first
    | with_reducible apply Keeps.refl
    | with_reducible assumption
    | ((with_reducible apply Keeps.step (alarmC_keeps ..)); focus exact rfl)
    | ((with_reducible apply Keeps.step (markWingFailed_keeps ..)); focus exact rfl)
    | with_reducible apply Keeps.ite
    | with_reducible apply Keeps.ite_fst
    | with_reducible refine Keeps.foldl _ (fun _ _ => ?_) ?_
    | extract_lets
    | split
    | dsimp only)

theorem alarmA_keeps (s : State) (cause : Nat) (d0 : Nat) (d1 : Nat) : Keeps (allBut [.pending, .params, .seats, .offers, .nextJob, .time,
    .freeCount]) s (alarmA s cause d0 d1) := by
  unfold alarmA
  repeat' (first
    | with_reducible apply Keeps.refl
    | with_reducible assumption
    | ((with_reducible apply Keeps.step (almLog_keeps ..)); focus exact rfl)
    | ((with_reducible apply Keeps.step (dropFetches_keeps ..)); focus exact rfl)
    | ((with_reducible apply Keeps.step (reopen_keeps ..)); focus exact rfl)
    | ((with_reducible apply Keeps.step (endRehearsal_keeps ..)); focus exact rfl)
    | ((with_reducible apply Keeps.step (cardAlarm_keeps ..)); focus exact rfl)
    | ((with_reducible apply Keeps.step (sendBoth_keeps ..)); focus exact rfl)
    | ((with_reducible apply Keeps.step (mailBreak_keeps ..)); focus exact rfl)
    | ((with_reducible apply Keeps.step (eraseAll_keeps ..)); focus exact rfl)
    | ((with_reducible apply Keeps.step (unkeyHop_keeps ..)); focus exact rfl)
    | ((with_reducible apply Keeps.step (failWing_keeps ..)); focus exact rfl)
    | ((with_reducible apply Keeps.step (startAlarm_keeps ..)); focus exact rfl)
    | with_reducible apply Keeps.ite
    | with_reducible apply Keeps.ite_fst
    | with_reducible refine Keeps.foldl _ (fun _ _ => ?_) ?_
    | extract_lets
    | split
    | dsimp only
    | ((with_reducible apply Keeps.upd) <;> first | exact .inl rfl | exact .inr rfl | skip))

theorem sixthStep_keeps (s : State) (aborted : Bool) : Keeps (only [.alarms, .prompts]) s (sixthStep s aborted) := by
  unfold sixthStep
  repeat' (first
    | with_reducible apply Keeps.refl
    | with_reducible assumption
    | ((with_reducible apply Keeps.step (vector_keeps ..)); focus exact rfl)
    | with_reducible apply Keeps.ite
    | with_reducible apply Keeps.ite_fst
    | with_reducible refine Keeps.foldl _ (fun _ _ => ?_) ?_
    | extract_lets
    | split
    | dsimp only
    | ((with_reducible apply Keeps.upd) <;> first | exact .inl rfl | exact .inr rfl | skip))

theorem erasureVerified_keeps (s : State) (erased : Erasure) : Keeps (only [.alarms, .seats, .jobs, .mem, .buffers, .engines, .keys, .prompts]) s
    (erasureVerified s erased) := by
  unfold erasureVerified
  repeat' (first
    | with_reducible apply Keeps.refl
    | with_reducible assumption
    | ((with_reducible apply Keeps.step (sixthStep_keeps ..)); focus exact rfl)
    | ((with_reducible apply Keeps.step (stopWhere_keeps ..)); focus exact rfl)
    | with_reducible apply Keeps.ite
    | with_reducible apply Keeps.ite_fst
    | with_reducible refine Keeps.foldl _ (fun _ _ => ?_) ?_
    | extract_lets
    | split
    | dsimp only
    | ((with_reducible apply Keeps.upd) <;> first | exact .inl rfl | exact .inr rfl | skip))

end Sys2Proof.Machine
end

