-- ==== Sys2Proof/Laws/FrameRingBase.lean ====
section
/-! SUPPORT. Frames of Machine/RingBase: for each operation, the parts of the state it may change. -/

namespace Sys2Proof.Machine

theorem rejectCfg_keeps (s : State) (seat : Nat) : Keeps (only [.seats]) s (rejectCfg s seat) := by
  unfold rejectCfg
  repeat' (first
    | with_reducible apply Keeps.refl
    | with_reducible assumption
    | ((with_reducible apply Keeps.step (State.modSeat_keeps ..)); focus exact rfl)
    | with_reducible apply Keeps.ite
    | with_reducible apply Keeps.ite_fst
    | with_reducible refine Keeps.foldl _ (fun _ _ => ?_) ?_
    | extract_lets
    | split
    | dsimp only)

theorem applySeatX_keeps (s : State) (seat : Nat) : Keeps (only [.seats, .mem]) s (applySeatX s seat) := by
  unfold applySeatX
  repeat' (first
    | with_reducible apply Keeps.refl
    | with_reducible assumption
    | ((with_reducible apply Keeps.step (tlbDropSeat_keeps ..)); focus exact rfl)
    | ((with_reducible apply Keeps.step (State.modSeat_keeps ..)); focus exact rfl)
    | with_reducible apply Keeps.ite
    | with_reducible apply Keeps.ite_fst
    | with_reducible refine Keeps.foldl _ (fun _ _ => ?_) ?_
    | extract_lets
    | split
    | dsimp only)

theorem ringResume_keeps (s : State) (seat : Nat) (slot : Nat) : Keeps (only [.rings]) s (ringResume s seat slot) := by
  unfold ringResume
  repeat' (first
    | with_reducible apply Keeps.refl
    | with_reducible assumption
    | ((with_reducible apply Keeps.step (State.modRing_keeps ..)); focus exact rfl)
    | with_reducible apply Keeps.ite
    | with_reducible apply Keeps.ite_fst
    | with_reducible refine Keeps.foldl _ (fun _ _ => ?_) ?_
    | extract_lets
    | split
    | dsimp only)

theorem enableSeat0_keeps (s : State) (slot : Nat) : Keeps (only [.seats, .rings, .mem]) s (enableSeat0 s slot) := by
  unfold enableSeat0
  repeat' (first
    | with_reducible apply Keeps.refl
    | with_reducible assumption
    | ((with_reducible apply Keeps.step (State.modRing_keeps ..)); focus exact rfl)
    | ((with_reducible apply Keeps.step (applySeatX_keeps ..)); focus exact rfl)
    | ((with_reducible apply Keeps.step (rejectCfg_keeps ..)); focus exact rfl)
    | with_reducible apply Keeps.ite
    | with_reducible apply Keeps.ite_fst
    | with_reducible refine Keeps.foldl _ (fun _ _ => ?_) ?_
    | extract_lets
    | split
    | dsimp only)

theorem ringCtrl_keeps (s : State) (src : Nat) (seat : Nat) (slot : Nat) (enable : Bool) (resume : Bool) : Keeps (only [.seats, .rings, .mem]) s
    (ringCtrl s src seat slot enable resume) := by
  unfold ringCtrl
  repeat' (first
    | with_reducible apply Keeps.refl
    | with_reducible assumption
    | ((with_reducible apply Keeps.step (enableSeat0_keeps ..)); focus exact rfl)
    | ((with_reducible apply Keeps.step (stopFetch_keeps ..)); focus exact rfl)
    | ((with_reducible apply Keeps.step (State.modRing_keeps ..)); focus exact rfl)
    | ((with_reducible apply Keeps.step (rejectCfg_keeps ..)); focus exact rfl)
    | ((with_reducible apply Keeps.step (ringResume_keeps ..)); focus exact rfl)
    | with_reducible apply Keeps.ite
    | with_reducible apply Keeps.ite_fst
    | with_reducible refine Keeps.foldl _ (fun _ _ => ?_) ?_
    | extract_lets
    | split
    | dsimp only)

theorem ringSetting_keeps (s : State) (src : Nat) (seat : Nat) (slot : Nat) (reg : Nat) (v : W32) : Keeps (only [.alarms, .seats, .rings, .prompts]) s
    (ringSetting s src seat slot reg v) := by
  unfold ringSetting
  repeat' (first
    | with_reducible apply Keeps.refl
    | with_reducible assumption
    | ((with_reducible apply Keeps.step (accessAlarm_keeps ..)); focus exact rfl)
    | ((with_reducible apply Keeps.step (rejectCfg_keeps ..)); focus exact rfl)
    | ((with_reducible apply Keeps.step (State.modRing_keeps ..)); focus exact rfl)
    | with_reducible apply Keeps.ite
    | with_reducible apply Keeps.ite_fst
    | with_reducible refine Keeps.foldl _ (fun _ _ => ?_) ?_
    | extract_lets
    | split
    | dsimp only)

theorem ringDoorbell_keeps (s : State) (seat : Nat) (slot : Nat) (v : W32) : Keeps (only [.rings]) s (ringDoorbell s seat slot v) := by
  unfold ringDoorbell
  repeat' (first
    | with_reducible apply Keeps.refl
    | with_reducible assumption
    | ((with_reducible apply Keeps.step (State.modRing_keeps ..)); focus exact rfl)
    | with_reducible apply Keeps.ite
    | with_reducible apply Keeps.ite_fst
    | with_reducible refine Keeps.foldl _ (fun _ _ => ?_) ?_
    | extract_lets
    | split
    | dsimp only)

theorem ringHead_keeps (s : State) (seat : Nat) (slot : Nat) (v : W32) : Keeps (only [.rings, .prompts]) s (ringHead s seat slot v) := by
  unfold ringHead
  repeat' (first
    | with_reducible apply Keeps.refl
    | with_reducible assumption
    | ((with_reducible apply Keeps.step (evalRing_keeps ..)); focus exact rfl)
    | ((with_reducible apply Keeps.step (State.modRing_keeps ..)); focus exact rfl)
    | with_reducible apply Keeps.ite
    | with_reducible apply Keeps.ite_fst
    | with_reducible refine Keeps.foldl _ (fun _ _ => ?_) ?_
    | extract_lets
    | split
    | dsimp only)

theorem fetchPackets_keeps (s : State) (seat : Nat) (slot : Nat) (from_ : Nat) (n : Nat) : Keeps (only [.mem]) s (fetchPackets s seat slot from_ n) :=
    by
  unfold fetchPackets
  repeat' (first
    | with_reducible apply Keeps.refl
    | with_reducible assumption
    | ((with_reducible apply Keeps.step (addRead_keeps ..)); focus exact rfl)
    | with_reducible apply Keeps.ite
    | with_reducible apply Keeps.ite_fst
    | with_reducible refine Keeps.foldl _ (fun _ _ => ?_) ?_
    | extract_lets
    | split
    | dsimp only)

theorem startFetch_keeps (s : State) (seat : Nat) : Keeps (only [.rings, .mem]) s (startFetch s seat) := by
  unfold startFetch
  repeat' (first
    | with_reducible apply Keeps.refl
    | with_reducible assumption
    | ((with_reducible apply Keeps.step (State.modRing_keeps ..)); focus exact rfl)
    | ((with_reducible apply Keeps.step (fetchPackets_keeps ..)); focus exact rfl)
    | with_reducible apply Keeps.ite
    | with_reducible apply Keeps.ite_fst
    | with_reducible refine Keeps.foldl _ (fun _ _ => ?_) ?_
    | extract_lets
    | split
    | dsimp only)

theorem acceptJob_keeps (s : State) (seat : Nat) (slot : Nat) (packets : List Bytes) : Keeps (only [.seats, .rings, .jobs, .nextJob]) s (acceptJob s
    seat slot packets) := by
  unfold acceptJob
  repeat' (first
    | with_reducible apply Keeps.refl
    | with_reducible assumption
    | ((with_reducible apply Keeps.step (State.modRing_keeps ..)); focus exact rfl)
    | ((with_reducible apply Keeps.step (State.modSeat_keeps ..)); focus exact rfl)
    | with_reducible apply Keeps.ite
    | with_reducible apply Keeps.ite_fst
    | with_reducible refine Keeps.foldl _ (fun _ _ => ?_) ?_
    | extract_lets
    | split
    | dsimp only
    | ((with_reducible apply Keeps.upd) <;> first | exact .inl rfl | exact .inr rfl | skip))

theorem packetIn_keeps (s : State) (seat : Nat) (slot : Nat) (k : Nat) (b : Bytes) : Keeps (only [.seats, .rings, .jobs, .nextJob, .mem]) s (packetIn
    s seat slot k b) := by
  unfold packetIn
  repeat' (first
    | with_reducible apply Keeps.refl
    | with_reducible assumption
    | ((with_reducible apply Keeps.step (State.modRing_keeps ..)); focus exact rfl)
    | ((with_reducible apply Keeps.step (fetchPackets_keeps ..)); focus exact rfl)
    | ((with_reducible apply Keeps.step (acceptJob_keeps ..)); focus exact rfl)
    | with_reducible apply Keeps.ite
    | with_reducible apply Keeps.ite_fst
    | with_reducible refine Keeps.foldl _ (fun _ _ => ?_) ?_
    | extract_lets
    | split
    | dsimp only)

theorem inTime_keeps {ch : Part → Bool} {s0 s : State} {j : Job} {sub : Nat} {f : State → State} (hm : within (only [.jobs, .mem, .buffers, .engines,
    .keys]) ch = true) (h0 : Keeps ch s0 s) (hf : ∀ t, Keeps ch t (f t)) : Keeps ch s0 (inTime s j sub f) := by
  unfold inTime
  repeat' (first
    | with_reducible apply Keeps.refl
    | with_reducible assumption
    | ((with_reducible apply Keeps.step (stop_keeps ..)); focus exact (within_trans rfl hm))
    | with_reducible exact hf _
    | with_reducible exact hf _ _
    | with_reducible exact hf _ _ _
    | with_reducible refine Keeps.trans ?_ (hf _)
    | with_reducible refine Keeps.trans ?_ (hf _ _)
    | with_reducible refine Keeps.trans ?_ (hf _ _ _)
    | with_reducible apply Keeps.ite
    | with_reducible apply Keeps.ite_fst
    | with_reducible refine Keeps.foldl _ (fun _ _ => ?_) ?_
    | extract_lets
    | split
    | dsimp only)

theorem okJob_keeps (s : State) (id : Nat) (result : Nat) : Keeps (only [.jobs, .mem, .buffers]) s (okJob s id result) := by
  unfold okJob
  repeat' (first
    | with_reducible apply Keeps.refl
    | with_reducible assumption
    | ((with_reducible apply Keeps.step (fixOutcome_keeps ..)); focus exact rfl)
    | with_reducible apply Keeps.ite
    | with_reducible apply Keeps.ite_fst
    | with_reducible refine Keeps.foldl _ (fun _ _ => ?_) ?_
    | extract_lets
    | split
    | dsimp only)

end Sys2Proof.Machine
end

