-- ==== Sys2Proof/Laws/FrameKeyBase.lean ====
section
/-! SUPPORT. Frames of Machine/KeyBase: for each operation, the parts of the state it may change. -/

namespace Sys2Proof.Machine

theorem State.modKeys_keeps (s : State) (f : KeyStore → KeyStore) : Keeps (only [.keys]) s (State.modKeys s f) := by
  unfold State.modKeys
  repeat' (first
    | with_reducible apply Keeps.refl
    | with_reducible assumption
    | with_reducible apply Keeps.ite
    | with_reducible apply Keeps.ite_fst
    | with_reducible refine Keeps.foldl _ (fun _ _ => ?_) ?_
    | extract_lets
    | split
    | dsimp only
    | ((with_reducible apply Keeps.upd) <;> first | exact .inl rfl | exact .inr rfl | skip))

theorem holdSeatKeys_keeps (s : State) (seat : Nat) (gen : Nat) : Keeps (only [.keys]) s (holdSeatKeys s seat gen) := by
  unfold holdSeatKeys
  repeat' (first
    | with_reducible apply Keeps.refl
    | with_reducible assumption
    | ((with_reducible apply Keeps.step (State.modKeys_keeps ..)); focus exact rfl)
    | with_reducible apply Keeps.ite
    | with_reducible apply Keeps.ite_fst
    | with_reducible refine Keeps.foldl _ (fun _ _ => ?_) ?_
    | extract_lets
    | split
    | dsimp only)

theorem sealEntry_keeps (s : State) (seat : Nat) (gen : Nat) (h : Nat) (attr : Nat) (expires : Nat) (limit : Nat) (count : Nat) (blob : Nat) (mat :
    Bytes) : Keeps (only [.keys]) s (sealEntry s seat gen h attr expires limit count blob mat).1 := by
  unfold sealEntry
  repeat' (first
    | with_reducible apply Keeps.refl
    | with_reducible assumption
    | ((with_reducible apply Keeps.step (holdSeatKeys_keeps ..)); focus exact rfl)
    | ((with_reducible apply Keeps.step (State.modKeys_keeps ..)); focus exact rfl)
    | with_reducible apply Keeps.ite
    | with_reducible apply Keeps.ite_fst
    | with_reducible refine Keeps.foldl _ (fun _ _ => ?_) ?_
    | extract_lets
    | split
    | dsimp only)

theorem dropAttr_keeps (s : State) (seat : Nat) (handle : Nat) : Keeps (only [.keys]) s (dropAttr s seat handle) := by
  unfold dropAttr
  repeat' (first
    | with_reducible apply Keeps.refl
    | with_reducible assumption
    | ((with_reducible apply Keeps.step (State.modKeys_keeps ..)); focus exact rfl)
    | with_reducible apply Keeps.ite
    | with_reducible apply Keeps.ite_fst
    | with_reducible refine Keeps.foldl _ (fun _ _ => ?_) ?_
    | extract_lets
    | split
    | dsimp only)

theorem modAttr_keeps (s : State) (seat : Nat) (handle : Nat) (f : Attr → Attr) : Keeps (only [.keys]) s (modAttr s seat handle f) := by
  unfold modAttr
  repeat' (first
    | with_reducible apply Keeps.refl
    | with_reducible assumption
    | ((with_reducible apply Keeps.step (State.modKeys_keeps ..)); focus exact rfl)
    | with_reducible apply Keeps.ite
    | with_reducible apply Keeps.ite_fst
    | with_reducible refine Keeps.foldl _ (fun _ _ => ?_) ?_
    | extract_lets
    | split
    | dsimp only)

theorem writeCount_keeps (s : State) (o : Owner) (seat : Nat) (handle : Nat) (n : Nat) : Keeps (only [.mem]) s (writeCount s o seat handle n) := by
  unfold writeCount
  repeat' (first
    | with_reducible apply Keeps.refl
    | with_reducible assumption
    | ((with_reducible apply Keeps.step (addWrite_keeps ..)); focus exact rfl)
    | with_reducible apply Keeps.ite
    | with_reducible apply Keeps.ite_fst
    | with_reducible refine Keeps.foldl _ (fun _ _ => ?_) ?_
    | extract_lets
    | split
    | dsimp only)

theorem putAttr_keeps (s : State) (a : Attr) : Keeps (only [.mem, .keys]) s (putAttr s a) := by
  unfold putAttr
  repeat' (first
    | with_reducible apply Keeps.refl
    | with_reducible assumption
    | ((with_reducible apply Keeps.step (State.modKeys_keeps ..)); focus exact rfl)
    | ((with_reducible apply Keeps.step (writeCount_keeps ..)); focus exact rfl)
    | with_reducible apply Keeps.ite
    | with_reducible apply Keeps.ite_fst
    | with_reducible refine Keeps.foldl _ (fun _ _ => ?_) ?_
    | extract_lets
    | split
    | dsimp only)

theorem askLease_keeps (s : State) (a : Attr) (job : Nat) : Keeps (only [.mem, .keys]) s (askLease s a job) := by
  unfold askLease
  repeat' (first
    | with_reducible apply Keeps.refl
    | with_reducible assumption
    | ((with_reducible apply Keeps.step (modAttr_keeps ..)); focus exact rfl)
    | ((with_reducible apply Keeps.step (writeCount_keeps ..)); focus exact rfl)
    | with_reducible apply Keeps.ite
    | with_reducible apply Keeps.ite_fst
    | with_reducible refine Keeps.foldl _ (fun _ _ => ?_) ?_
    | extract_lets
    | split
    | dsimp only)

theorem setWait_keeps (s : State) (id : Nat) (w : LeaseWait) : Keeps (only [.jobs]) s (setWait s id w) := by
  unfold setWait
  repeat' (first
    | with_reducible apply Keeps.refl
    | with_reducible assumption
    | ((with_reducible apply Keeps.step (State.modJob_keeps ..)); focus exact rfl)
    | with_reducible apply Keeps.ite
    | with_reducible apply Keeps.ite_fst
    | with_reducible refine Keeps.foldl _ (fun _ _ => ?_) ?_
    | extract_lets
    | split
    | dsimp only)

theorem countUse_counted {s t : State} {a : Attr} {job : Nat} (e : countUse s a job = .counted t) : Keeps (only [.jobs, .mem, .keys]) s t := by
  unfold countUse at e
  (repeat' split at e) <;> (try cases e) <;> try exact .refl _
  all_goals repeat' (first
    | with_reducible apply Keeps.refl
    | with_reducible assumption
    | ((with_reducible apply Keeps.step (setWait_keeps ..)); focus exact rfl)
    | ((with_reducible apply Keeps.step (askLease_keeps ..)); focus exact rfl)
    | ((with_reducible apply Keeps.step (modAttr_keeps ..)); focus exact rfl)
    | with_reducible apply Keeps.ite
    | with_reducible apply Keeps.ite_fst
    | with_reducible refine Keeps.foldl _ (fun _ _ => ?_) ?_
    | extract_lets
    | split
    | dsimp only)

theorem countUse_wait {s t : State} {a : Attr} {job : Nat} (e : countUse s a job = .wait t) : Keeps (only [.jobs, .mem, .keys]) s t := by
  unfold countUse at e
  (repeat' split at e) <;> (try cases e) <;> try exact .refl _
  all_goals repeat' (first
    | with_reducible apply Keeps.refl
    | with_reducible assumption
    | ((with_reducible apply Keeps.step (setWait_keeps ..)); focus exact rfl)
    | ((with_reducible apply Keeps.step (askLease_keeps ..)); focus exact rfl)
    | ((with_reducible apply Keeps.step (modAttr_keeps ..)); focus exact rfl)
    | with_reducible apply Keeps.ite
    | with_reducible apply Keeps.ite_fst
    | with_reducible refine Keeps.foldl _ (fun _ _ => ?_) ?_
    | extract_lets
    | split
    | dsimp only)

theorem leaseAcked_keeps (s : State) (seat : Nat) (handle : Nat) (req : Nat) : Keeps (only [.keys]) s (leaseAcked s seat handle req) := by
  unfold leaseAcked
  repeat' (first
    | with_reducible apply Keeps.refl
    | with_reducible assumption
    | ((with_reducible apply Keeps.step (modAttr_keeps ..)); focus exact rfl)
    | with_reducible apply Keeps.ite
    | with_reducible apply Keeps.ite_fst
    | with_reducible refine Keeps.foldl _ (fun _ _ => ?_) ?_
    | extract_lets
    | split
    | dsimp only)

theorem staleEntry_keeps (s : State) (id : Nat) (seat : Nat) (h : Nat) : Keeps (only [.jobs, .mem]) s (staleEntry s id seat h) := by
  unfold staleEntry
  repeat' (first
    | with_reducible apply Keeps.refl
    | with_reducible assumption
    | with_reducible apply Keeps.ite
    | with_reducible apply Keeps.ite_fst
    | with_reducible refine Keeps.foldl _ (fun _ _ => ?_) ?_
    | extract_lets
    | split
    | dsimp only
    | ((with_reducible apply Keeps.upd) <;> first | exact .inl rfl | exact .inr rfl | skip))

theorem keepAttr_keeps (s : State) (a : Attr) : Keeps (only [.mem, .keys]) s (keepAttr s a) := by
  unfold keepAttr
  repeat' (first
    | with_reducible apply Keeps.refl
    | with_reducible assumption
    | ((with_reducible apply Keeps.step (putAttr_keeps ..)); focus exact rfl)
    | ((with_reducible apply Keeps.step (holdSeatKeys_keeps ..)); focus exact rfl)
    | with_reducible apply Keeps.ite
    | with_reducible apply Keeps.ite_fst
    | with_reducible refine Keeps.foldl _ (fun _ _ => ?_) ?_
    | extract_lets
    | split
    | dsimp only)

theorem eraseSeatKeys_keeps (s : State) (seat : Nat) : Keeps (only [.keys, .entropy]) s (eraseSeatKeys s seat) := by
  unfold eraseSeatKeys
  repeat' (first
    | with_reducible apply Keeps.refl
    | with_reducible assumption
    | ((with_reducible apply Keeps.step (zeroInst_keeps ..)); focus exact rfl)
    | ((with_reducible apply Keeps.step (State.modKeys_keeps ..)); focus exact rfl)
    | with_reducible apply Keeps.ite
    | with_reducible apply Keeps.ite_fst
    | with_reducible refine Keeps.foldl _ (fun _ _ => ?_) ?_
    | extract_lets
    | split
    | dsimp only)

end Sys2Proof.Machine
end

