-- ==== Sys2Proof/Laws/FrameAssoc.lean ====
section
/-! SUPPORT. Frames of Machine/Assoc: for each operation, the parts of the state it may change. -/

namespace Sys2Proof.Machine

theorem State.modFront_keeps (s : State) (f : Front → Front) : Keeps (only [.front]) s (State.modFront s f) := by
  unfold State.modFront
  repeat' (first
    | with_reducible apply Keeps.refl
    | with_reducible assumption
    | with_reducible apply Keeps.ite
    | with_reducible apply Keeps.ite_fst
    | with_reducible refine Keeps.foldl _ (fun _ _ => ?_) ?_
    | extract_lets
    | split
    | dsimp only
    | ((with_reducible apply Keeps.upd) <;> first | exact .inl rfl | exact .inr rfl | skip))

theorem modAssoc_keeps (s : State) (i : Nat) (f : Assoc → Assoc) : Keeps (only [.front]) s (modAssoc s i f) := by
  unfold modAssoc
  repeat' (first
    | with_reducible apply Keeps.refl
    | with_reducible assumption
    | ((with_reducible apply Keeps.step (State.modFront_keeps ..)); focus exact rfl)
    | with_reducible apply Keeps.ite
    | with_reducible apply Keeps.ite_fst
    | with_reducible refine Keeps.foldl _ (fun _ _ => ?_) ?_
    | extract_lets
    | split
    | dsimp only)

theorem dropAssoc_keeps (s : State) (i : Nat) : Keeps (only [.front]) s (dropAssoc s i) := by
  unfold dropAssoc
  repeat' (first
    | with_reducible apply Keeps.refl
    | with_reducible assumption
    | ((with_reducible apply Keeps.step (State.modFront_keeps ..)); focus exact rfl)
    | with_reducible apply Keeps.ite
    | with_reducible apply Keeps.ite_fst
    | with_reducible refine Keeps.foldl _ (fun _ _ => ?_) ?_
    | extract_lets
    | split
    | dsimp only)

theorem touchAssoc_keeps (s : State) (a : Assoc) : Keeps (only [.front]) s (touchAssoc s a) := by
  unfold touchAssoc
  repeat' (first
    | with_reducible apply Keeps.refl
    | with_reducible assumption
    | ((with_reducible apply Keeps.step (State.modFront_keeps ..)); focus exact rfl)
    | with_reducible apply Keeps.ite
    | with_reducible apply Keeps.ite_fst
    | with_reducible refine Keeps.foldl _ (fun _ _ => ?_) ?_
    | extract_lets
    | split
    | dsimp only)

theorem assocPut_keeps (s : State) (o : Owner) (i : Nat) (off : Nat) (data : Bytes) : Keeps (only [.mem]) s (assocPut s o i off data) := by
  unfold assocPut
  repeat' (first
    | with_reducible apply Keeps.refl
    | with_reducible assumption
    | ((with_reducible apply Keeps.step (addWrite_keeps ..)); focus exact rfl)
    | with_reducible apply Keeps.ite
    | with_reducible apply Keeps.ite_fst
    | with_reducible refine Keeps.foldl _ (fun _ _ => ?_) ?_
    | extract_lets
    | split
    | dsimp only)

theorem askSeal_keeps (s : State) (i : Nat) (job : Nat) : Keeps (only [.mem, .front]) s (askSeal s i job) := by
  unfold askSeal
  repeat' (first
    | with_reducible apply Keeps.refl
    | with_reducible assumption
    | ((with_reducible apply Keeps.step (assocPut_keeps ..)); focus exact rfl)
    | ((with_reducible apply Keeps.step (modAssoc_keeps ..)); focus exact rfl)
    | with_reducible apply Keeps.ite
    | with_reducible apply Keeps.ite_fst
    | with_reducible refine Keeps.foldl _ (fun _ _ => ?_) ?_
    | extract_lets
    | split
    | dsimp only)

theorem askWindow_keeps (s : State) (i : Nat) (job : Nat) (top : Nat) : Keeps (only [.mem, .front]) s (askWindow s i job top) := by
  unfold askWindow
  repeat' (first
    | with_reducible apply Keeps.refl
    | with_reducible assumption
    | ((with_reducible apply Keeps.step (assocPut_keeps ..)); focus exact rfl)
    | ((with_reducible apply Keeps.step (modAssoc_keeps ..)); focus exact rfl)
    | with_reducible apply Keeps.ite
    | with_reducible apply Keeps.ite_fst
    | with_reducible refine Keeps.foldl _ (fun _ _ => ?_) ?_
    | extract_lets
    | split
    | dsimp only)

theorem assocBack_keeps (s : State) (a : Assoc) : Keeps (only [.mem]) s (assocBack s a) := by
  unfold assocBack
  repeat' (first
    | with_reducible apply Keeps.refl
    | with_reducible assumption
    | ((with_reducible apply Keeps.step (assocPut_keeps ..)); focus exact rfl)
    | with_reducible apply Keeps.ite
    | with_reducible apply Keeps.ite_fst
    | with_reducible refine Keeps.foldl _ (fun _ _ => ?_) ?_
    | extract_lets
    | split
    | dsimp only)

theorem assocEvict_keeps (s : State) : Keeps (only [.mem, .front]) s (assocEvict s) := by
  unfold assocEvict
  repeat' (first
    | with_reducible apply Keeps.refl
    | with_reducible assumption
    | ((with_reducible apply Keeps.step (dropAssoc_keeps ..)); focus exact rfl)
    | ((with_reducible apply Keeps.step (assocBack_keeps ..)); focus exact rfl)
    | with_reducible apply Keeps.ite
    | with_reducible apply Keeps.ite_fst
    | with_reducible refine Keeps.foldl _ (fun _ _ => ?_) ?_
    | extract_lets
    | split
    | dsimp only)

theorem assocLoad_keeps (s : State) (job : Nat) (a : Assoc) : Keeps (only [.mem, .front]) s (assocLoad s job a) := by
  unfold assocLoad
  repeat' (first
    | with_reducible apply Keeps.refl
    | with_reducible assumption
    | ((with_reducible apply Keeps.step (assocEvict_keeps ..)); focus exact rfl)
    | ((with_reducible apply Keeps.step (touchAssoc_keeps ..)); focus exact rfl)
    | ((with_reducible apply Keeps.step (askWindow_keeps ..)); focus exact rfl)
    | ((with_reducible apply Keeps.step (askSeal_keeps ..)); focus exact rfl)
    | with_reducible apply Keeps.ite
    | with_reducible apply Keeps.ite_fst
    | with_reducible refine Keeps.foldl _ (fun _ _ => ?_) ?_
    | extract_lets
    | split
    | dsimp only)

theorem assocAcked_keeps (s : State) (i : Nat) (req : Nat) (off : Nat) : Keeps (only [.front]) s (assocAcked s i req off) := by
  unfold assocAcked
  repeat' (first
    | with_reducible apply Keeps.refl
    | with_reducible assumption
    | ((with_reducible apply Keeps.step (modAssoc_keeps ..)); focus exact rfl)
    | with_reducible apply Keeps.ite
    | with_reducible apply Keeps.ite_fst
    | with_reducible refine Keeps.foldl _ (fun _ _ => ?_) ?_
    | extract_lets
    | split
    | dsimp only)

theorem noteSoft_keeps (s : State) (a : Assoc) : Keeps (only [.front]) s (noteSoft s a) := by
  unfold noteSoft
  repeat' (first
    | with_reducible apply Keeps.refl
    | with_reducible assumption
    | ((with_reducible apply Keeps.step (State.modFront_keeps ..)); focus exact rfl)
    | with_reducible apply Keeps.ite
    | with_reducible apply Keeps.ite_fst
    | with_reducible refine Keeps.foldl _ (fun _ _ => ?_) ?_
    | extract_lets
    | split
    | dsimp only)

theorem issueNonce_issued {s t : State} {i job v : Nat} (e : issueNonce s i job = .issued t v) : Keeps (only [.jobs, .mem, .front]) s t := by
  unfold issueNonce at e
  (repeat' split at e) <;> (try cases e) <;> try exact .refl _
  all_goals repeat' (first
    | with_reducible apply Keeps.refl
    | with_reducible assumption
    | ((with_reducible apply Keeps.step (assocPut_keeps ..)); focus exact rfl)
    | ((with_reducible apply Keeps.step (modAssoc_keeps ..)); focus exact rfl)
    | ((with_reducible apply Keeps.step (noteSoft_keeps ..)); focus exact rfl)
    | ((with_reducible apply Keeps.step (setWait_keeps ..)); focus exact rfl)
    | ((with_reducible apply Keeps.step (askSeal_keeps ..)); focus exact rfl)
    | with_reducible apply Keeps.ite
    | with_reducible apply Keeps.ite_fst
    | with_reducible refine Keeps.foldl _ (fun _ _ => ?_) ?_
    | extract_lets
    | split
    | dsimp only)

theorem issueNonce_sealed {s t : State} {i job : Nat} (e : issueNonce s i job = .sealed t) : Keeps (only [.jobs, .mem, .front]) s t := by
  unfold issueNonce at e
  (repeat' split at e) <;> (try cases e) <;> try exact .refl _
  all_goals repeat' (first
    | with_reducible apply Keeps.refl
    | with_reducible assumption
    | ((with_reducible apply Keeps.step (assocPut_keeps ..)); focus exact rfl)
    | ((with_reducible apply Keeps.step (modAssoc_keeps ..)); focus exact rfl)
    | ((with_reducible apply Keeps.step (noteSoft_keeps ..)); focus exact rfl)
    | ((with_reducible apply Keeps.step (setWait_keeps ..)); focus exact rfl)
    | ((with_reducible apply Keeps.step (askSeal_keeps ..)); focus exact rfl)
    | with_reducible apply Keeps.ite
    | with_reducible apply Keeps.ite_fst
    | with_reducible refine Keeps.foldl _ (fun _ _ => ?_) ?_
    | extract_lets
    | split
    | dsimp only)

theorem issueNonce_wait {s t : State} {i job : Nat} (e : issueNonce s i job = .wait t) : Keeps (only [.jobs, .mem, .front]) s t := by
  unfold issueNonce at e
  (repeat' split at e) <;> (try cases e) <;> try exact .refl _
  all_goals repeat' (first
    | with_reducible apply Keeps.refl
    | with_reducible assumption
    | ((with_reducible apply Keeps.step (assocPut_keeps ..)); focus exact rfl)
    | ((with_reducible apply Keeps.step (modAssoc_keeps ..)); focus exact rfl)
    | ((with_reducible apply Keeps.step (noteSoft_keeps ..)); focus exact rfl)
    | ((with_reducible apply Keeps.step (setWait_keeps ..)); focus exact rfl)
    | ((with_reducible apply Keeps.step (askSeal_keeps ..)); focus exact rfl)
    | with_reducible apply Keeps.ite
    | with_reducible apply Keeps.ite_fst
    | with_reducible refine Keeps.foldl _ (fun _ _ => ?_) ?_
    | extract_lets
    | split
    | dsimp only)

theorem waitWindow_keeps (s : State) (i : Nat) (job : Nat) (top : Nat) : Keeps (only [.jobs, .mem, .front]) s (waitWindow s i job top) := by
  unfold waitWindow
  repeat' (first
    | with_reducible apply Keeps.refl
    | with_reducible assumption
    | ((with_reducible apply Keeps.step (setWait_keeps ..)); focus exact rfl)
    | ((with_reducible apply Keeps.step (askWindow_keeps ..)); focus exact rfl)
    | with_reducible apply Keeps.ite
    | with_reducible apply Keeps.ite_fst
    | with_reducible refine Keeps.foldl _ (fun _ _ => ?_) ?_
    | extract_lets
    | split
    | dsimp only)

theorem markAssoc_keeps (s : State) (i : Nat) (job : Nat) (n : Nat) : Keeps (only [.jobs, .mem, .front]) s (markAssoc s i job n) := by
  unfold markAssoc
  repeat' (first
    | with_reducible apply Keeps.refl
    | with_reducible assumption
    | ((with_reducible apply Keeps.step (setWait_keeps ..)); focus exact rfl)
    | ((with_reducible apply Keeps.step (modAssoc_keeps ..)); focus exact rfl)
    | ((with_reducible apply Keeps.step (askWindow_keeps ..)); focus exact rfl)
    | with_reducible apply Keeps.ite
    | with_reducible apply Keeps.ite_fst
    | with_reducible refine Keeps.foldl _ (fun _ _ => ?_) ?_
    | extract_lets
    | split
    | dsimp only)

end Sys2Proof.Machine
end

