-- ==== Sys2Proof/Laws/FrameWork.lean ====
section
/-! SUPPORT. Frames of Machine/Work: for each operation, the parts of the state it may change. -/

namespace Sys2Proof.Machine

theorem chk_ck {w : State → Prop} {bad : Bool} {status : Nat} {sub : Nat} : CkOk OfAny w (chk bad status sub) := by
  unfold chk
  repeat' (first
    | with_reducible apply Keeps.refl
    | with_reducible assumption
    | with_reducible exact ofAny _
    | with_reducible apply ck_ite
    | with_reducible exact CkOk.need
    | with_reducible exact CkOk.fail
    | with_reducible apply ck_ok
    | with_reducible apply ck_pure
    | with_reducible apply CkOk.waits
    | with_reducible refine ck_bindState ?_ (fun _ _ => ?_)
    | with_reducible refine ck_bindPair ?_ (fun _ _ _ => ?_)
    | with_reducible refine ck_bindAny ?_ (fun _ => ?_)
    | with_reducible apply OfState.mk
    | with_reducible apply ofPair
    | with_reducible apply Keeps.ite
    | with_reducible apply Keeps.ite_fst
    | with_reducible refine Keeps.foldl _ (fun _ _ => ?_) ?_
    | extract_lets
    | split
    | dsimp only)

theorem chkWait_ck {ch : Part → Bool} {s0 : State} {s : State} {c : Bool} (hm : within (only []) ch = true) (h0 : Keeps ch s0 s) : CkOk OfAny (Keeps
    ch s0) (chkWait s c) := by
  unfold chkWait
  repeat' (first
    | with_reducible apply Keeps.refl
    | with_reducible assumption
    | with_reducible exact ofAny _
    | with_reducible apply ck_ite
    | with_reducible exact CkOk.need
    | with_reducible exact CkOk.fail
    | with_reducible apply ck_ok
    | with_reducible apply ck_pure
    | with_reducible apply CkOk.waits
    | with_reducible refine ck_bindState ?_ (fun _ _ => ?_)
    | with_reducible refine ck_bindPair ?_ (fun _ _ _ => ?_)
    | with_reducible refine ck_bindAny ?_ (fun _ => ?_)
    | with_reducible apply OfState.mk
    | with_reducible apply ofPair
    | with_reducible apply Keeps.ite
    | with_reducible apply Keeps.ite_fst
    | with_reducible refine Keeps.foldl _ (fun _ _ => ?_) ?_
    | extract_lets
    | split
    | dsimp only)

theorem needAll_ck {w : State → Prop} {j : Job} {rs : List Read} : CkOk OfAny w (needAll j rs) := by
  unfold needAll
  repeat' (first
    | with_reducible apply Keeps.refl
    | with_reducible assumption
    | with_reducible exact ofAny _
    | with_reducible apply ck_ite
    | with_reducible exact CkOk.need
    | with_reducible exact CkOk.fail
    | with_reducible apply ck_ok
    | with_reducible apply ck_pure
    | with_reducible apply CkOk.waits
    | with_reducible refine ck_bindState ?_ (fun _ _ => ?_)
    | with_reducible refine ck_bindPair ?_ (fun _ _ _ => ?_)
    | with_reducible refine ck_bindAny ?_ (fun _ => ?_)
    | with_reducible apply OfState.mk
    | with_reducible apply ofPair
    | with_reducible apply Keeps.ite
    | with_reducible apply Keeps.ite_fst
    | with_reducible refine Keeps.foldl _ (fun _ _ => ?_) ?_
    | extract_lets
    | split
    | dsimp only)

theorem needBytes_ck {w : State → Prop} {j : Job} {r : Read} : CkOk OfAny w (needBytes j r) := by
  unfold needBytes
  repeat' (first
    | with_reducible apply Keeps.refl
    | with_reducible assumption
    | with_reducible exact ofAny _
    | with_reducible apply ck_ite
    | with_reducible exact CkOk.need
    | with_reducible exact CkOk.fail
    | with_reducible apply ck_ok
    | with_reducible apply ck_pure
    | with_reducible apply CkOk.waits
    | with_reducible refine ck_bindState ?_ (fun _ _ => ?_)
    | with_reducible refine ck_bindPair ?_ (fun _ _ _ => ?_)
    | with_reducible refine ck_bindAny ?_ (fun _ => ?_)
    | with_reducible apply OfState.mk
    | with_reducible apply ofPair
    | with_reducible apply Keeps.ite
    | with_reducible apply Keeps.ite_fst
    | with_reducible refine Keeps.foldl _ (fun _ _ => ?_) ?_
    | extract_lets
    | split
    | dsimp only)

theorem needLists_ck {w : State → Prop} {j : Job} {offs : List Nat} {strict : Bool} : CkOk OfAny w (needLists j offs strict) := by
  unfold needLists
  repeat' (first
    | with_reducible apply Keeps.refl
    | with_reducible assumption
    | with_reducible exact ofAny _
    | with_reducible apply ck_ite
    | with_reducible exact CkOk.need
    | with_reducible exact CkOk.fail
    | with_reducible apply ck_ok
    | with_reducible apply ck_pure
    | with_reducible apply CkOk.waits
    | with_reducible refine ck_bindState ?_ (fun _ _ => ?_)
    | with_reducible refine ck_bindPair ?_ (fun _ _ _ => ?_)
    | with_reducible refine ck_bindAny ?_ (fun _ => ?_)
    | with_reducible apply OfState.mk
    | with_reducible apply ofPair
    | with_reducible apply chk_ck
    | with_reducible apply needAll_ck
    | with_reducible refine ck_waits ?_ (by assumption)
    | with_reducible apply Keeps.ite
    | with_reducible apply Keeps.ite_fst
    | with_reducible refine Keeps.foldl _ (fun _ _ => ?_) ?_
    | extract_lets
    | split
    | dsimp only)

theorem failOpf_keeps (s : State) (id : Nat) (status : Nat) (sub : Nat) (opf : Nat) : Keeps (only [.jobs, .mem, .buffers, .engines, .keys]) s (failOpf
    s id status sub opf) := by
  unfold failOpf
  repeat' (first
    | with_reducible apply Keeps.refl
    | with_reducible assumption
    | ((with_reducible apply Keeps.step (failJob_keeps ..)); focus exact rfl)
    | ((with_reducible apply Keeps.step (State.modJob_keeps ..)); focus exact rfl)
    | with_reducible apply Keeps.ite
    | with_reducible apply Keeps.ite_fst
    | with_reducible refine Keeps.foldl _ (fun _ _ => ?_) ?_
    | extract_lets
    | split
    | dsimp only)

theorem keepOn_ck {ch : Part → Bool} {s0 s : State} {α : Type} {p : α → Prop} {j : Job} {x : Ck α} (hm : within (only [.jobs, .mem, .buffers,
    .engines, .keys]) ch = true) (h0 : Keeps ch s0 s) (hx : CkOk p (Keeps ch s0) x) : CkOk p (Keeps ch s0) (keepOn s j x) := by
  unfold keepOn
  cases hx with
  | answer h => exact .answer h
  | waits h => exact .waits h
  | need => exact .need
  | fail => exact .waits ((failOpf_keeps ..).step (within_trans rfl hm) h0)

theorem keyCk_ck {ch : Part → Bool} {s0 : State} {s : State} {j : Job} {h : Nat} {guard : Bool} {fits : Nat → Nat → Bool} (hm : within (only [.mem,
    .keys]) ch = true) (h0 : Keeps ch s0 s) : CkOk (OfPair ch s0) (Keeps ch s0) (keyCk s j h guard fits) := by
  unfold keyCk
  repeat' (first
    | with_reducible apply Keeps.refl
    | with_reducible assumption
    | with_reducible apply chk_ck
    | with_reducible exact ofAny _
    | with_reducible apply ck_ite
    | with_reducible exact CkOk.need
    | with_reducible exact CkOk.fail
    | with_reducible apply ck_ok
    | with_reducible apply ck_pure
    | with_reducible apply CkOk.waits
    | with_reducible refine ck_bindState ?_ (fun _ _ => ?_)
    | with_reducible refine ck_bindPair ?_ (fun _ _ _ => ?_)
    | with_reducible refine ck_bindAny ?_ (fun _ => ?_)
    | with_reducible apply OfState.mk
    | with_reducible apply ofPair
    | ((with_reducible apply Keeps.step (keepAttr_keeps ..)); focus exact (within_trans rfl hm))
    | with_reducible refine ck_waits ?_ (by assumption)
    | with_reducible apply Keeps.ite
    | with_reducible apply Keeps.ite_fst
    | with_reducible refine Keeps.foldl _ (fun _ _ => ?_) ?_
    | extract_lets
    | split
    | dsimp only)

theorem assocCk_ck {ch : Part → Bool} {s0 : State} {s : State} {j : Job} {i : Nat} {seat : Nat} {spi : Option Nat} (hm : within (only [.jobs, .mem,
    .front]) ch = true) (h0 : Keeps ch s0 s) : CkOk (OfPair ch s0) (Keeps ch s0) (assocCk s j i seat spi) := by
  unfold assocCk
  repeat' (first
    | with_reducible apply Keeps.refl
    | with_reducible assumption
    | with_reducible exact ofAny _
    | with_reducible apply ck_ite
    | with_reducible exact CkOk.need
    | with_reducible exact CkOk.fail
    | with_reducible apply ck_ok
    | with_reducible apply ck_pure
    | with_reducible apply CkOk.waits
    | with_reducible refine ck_bindState ?_ (fun _ _ => ?_)
    | with_reducible refine ck_bindPair ?_ (fun _ _ _ => ?_)
    | with_reducible refine ck_bindAny ?_ (fun _ => ?_)
    | with_reducible apply OfState.mk
    | with_reducible apply ofPair
    | ((with_reducible apply Keeps.step (touchAssoc_keeps ..)); focus exact (within_trans rfl hm))
    | ((with_reducible apply Keeps.step (State.modJob_keeps ..)); focus exact (within_trans rfl hm))
    | ((with_reducible apply Keeps.step (assocLoad_keeps ..)); focus exact (within_trans rfl hm))
    | with_reducible apply Keeps.ite
    | with_reducible apply Keeps.ite_fst
    | with_reducible refine Keeps.foldl _ (fun _ _ => ?_) ?_
    | extract_lets
    | split
    | dsimp only)

theorem assocAttr_ck {ch : Part → Bool} {s0 : State} {s : State} {j : Job} {a : Assoc} (hm : within (only [.mem, .keys]) ch = true) (h0 : Keeps ch s0
    s) : CkOk (OfPair ch s0) (Keeps ch s0) (assocAttr s j a) := by
  unfold assocAttr
  repeat' (first
    | with_reducible apply Keeps.refl
    | with_reducible assumption
    | with_reducible exact ofAny _
    | with_reducible apply ck_ite
    | with_reducible exact CkOk.need
    | with_reducible exact CkOk.fail
    | with_reducible apply ck_ok
    | with_reducible apply ck_pure
    | with_reducible apply CkOk.waits
    | with_reducible refine ck_bindState ?_ (fun _ _ => ?_)
    | with_reducible refine ck_bindPair ?_ (fun _ _ _ => ?_)
    | with_reducible refine ck_bindAny ?_ (fun _ => ?_)
    | with_reducible apply OfState.mk
    | with_reducible apply ofPair
    | ((with_reducible apply Keeps.step (keepAttr_keeps ..)); focus exact (within_trans rfl hm))
    | with_reducible apply Keeps.ite
    | with_reducible apply Keeps.ite_fst
    | with_reducible refine Keeps.foldl _ (fun _ _ => ?_) ?_
    | extract_lets
    | split
    | dsimp only)

theorem symCheck_ck {ch : Part → Bool} {s0 : State} {s : State} {j : Job} (hm : within (only [.jobs, .mem, .keys, .front]) ch = true) (h0 : Keeps ch
    s0 s) : CkOk (OfPair ch s0) (Keeps ch s0) (symCheck s j) := by
  unfold symCheck
  repeat' (first
    | with_reducible apply Keeps.refl
    | with_reducible assumption
    | with_reducible apply chk_ck
    | ((with_reducible apply assocCk_ck); focus exact (within_trans rfl hm))
    | with_reducible refine ck_any (p := OfPair _ _) ?_
    | ((with_reducible apply assocAttr_ck); focus exact (within_trans rfl hm))
    | with_reducible apply needLists_ck
    | ((with_reducible apply keyCk_ck); focus exact (within_trans rfl hm))
    | with_reducible exact ofAny _
    | with_reducible apply ck_ite
    | with_reducible exact CkOk.need
    | with_reducible exact CkOk.fail
    | with_reducible apply ck_ok
    | with_reducible apply ck_pure
    | with_reducible apply CkOk.waits
    | with_reducible refine ck_bindState ?_ (fun _ _ => ?_)
    | with_reducible refine ck_bindPair ?_ (fun _ _ _ => ?_)
    | with_reducible refine ck_bindAny ?_ (fun _ => ?_)
    | with_reducible apply OfState.mk
    | with_reducible apply ofPair
    | ((with_reducible apply Keeps.step (State.modJob_keeps ..)); focus exact (within_trans rfl hm))
    | with_reducible refine ck_waits ?_ (by assumption)
    | with_reducible refine ck_okPair ?_ (by assumption)
    | with_reducible apply Keeps.ite
    | with_reducible apply Keeps.ite_fst
    | with_reducible refine Keeps.foldl _ (fun _ _ => ?_) ?_
    | extract_lets
    | split
    | dsimp only)

theorem digCheck_ck {ch : Part → Bool} {s0 : State} {s : State} {j : Job} (hm : within (only [.mem, .keys]) ch = true) (h0 : Keeps ch s0 s) : CkOk
    (OfPair ch s0) (Keeps ch s0) (digCheck s j) := by
  unfold digCheck
  repeat' (first
    | with_reducible apply Keeps.refl
    | with_reducible assumption
    | with_reducible apply needLists_ck
    | with_reducible apply chk_ck
    | ((with_reducible apply keyCk_ck); focus exact (within_trans rfl hm))
    | with_reducible refine ck_any (p := OfPair _ _) ?_
    | with_reducible exact ofAny _
    | with_reducible apply ck_ite
    | with_reducible exact CkOk.need
    | with_reducible exact CkOk.fail
    | with_reducible apply ck_ok
    | with_reducible apply ck_pure
    | with_reducible apply CkOk.waits
    | with_reducible refine ck_bindState ?_ (fun _ _ => ?_)
    | with_reducible refine ck_bindPair ?_ (fun _ _ _ => ?_)
    | with_reducible refine ck_bindAny ?_ (fun _ => ?_)
    | with_reducible apply OfState.mk
    | with_reducible apply ofPair
    | with_reducible refine ck_waits ?_ (by assumption)
    | with_reducible refine ck_okPair ?_ (by assumption)
    | with_reducible apply Keeps.ite
    | with_reducible apply Keeps.ite_fst
    | with_reducible refine Keeps.foldl _ (fun _ _ => ?_) ?_
    | extract_lets
    | split
    | dsimp only)

theorem wrapNonce_keeps (s : State) (b : Nat) : Keeps (only [.place]) s (wrapNonce s b).1 := by
  unfold wrapNonce
  repeat' (first
    | with_reducible apply Keeps.refl
    | with_reducible assumption
    | ((with_reducible apply Keeps.step (State.modBay_keeps ..)); focus exact rfl)
    | with_reducible apply Keeps.ite
    | with_reducible apply Keeps.ite_fst
    | with_reducible refine Keeps.foldl _ (fun _ _ => ?_) ?_
    | extract_lets
    | split
    | dsimp only)

theorem wrapRec_keeps (s : State) (w : SymW) (j : Job) (b : Nat) (c : Ctx) : Keeps (only [.place, .keys]) s (wrapRec s w j b c).1 := by
  unfold wrapRec
  repeat' (first
    | with_reducible apply Keeps.refl
    | with_reducible assumption
    | ((with_reducible apply Keeps.step (wrapNonce_keeps ..)); focus exact rfl)
    | ((with_reducible apply Keeps.step (holdSeatKeys_keeps ..)); focus exact rfl)
    | with_reducible refine Keeps.fst (by assumption) ?_
    | with_reducible apply Keeps.ite
    | with_reducible apply Keeps.ite_fst
    | with_reducible refine Keeps.foldl _ (fun _ _ => ?_) ?_
    | extract_lets
    | split
    | dsimp only)

end Sys2Proof.Machine
end

