-- ==== Sys2Proof/Laws/FrameChoose.lean ====
section
/-! SUPPORT. Frames of Machine/Choose: for each operation, the parts of the state it may change. -/

namespace Sys2Proof.Machine

theorem noteChoice_keeps (s : State) (j : Job) (b : Nat) : Keeps (only [.place]) s (noteChoice s j b) := by
  unfold noteChoice
  repeat' (first
    | with_reducible apply Keeps.refl
    | with_reducible assumption
    | with_reducible apply Keeps.ite
    | with_reducible apply Keeps.ite_fst
    | with_reducible refine Keeps.foldl _ (fun _ _ => ?_) ?_
    | extract_lets
    | split
    | dsimp only
    | ((with_reducible apply Keeps.upd) <;> first | exact .inl rfl | exact .inr rfl | skip))

theorem noUnit_keeps (s : State) (j : Job) : Keeps (only [.jobs, .mem, .buffers, .engines, .keys]) s (noUnit s j) := by
  unfold noUnit
  repeat' (first
    | with_reducible apply Keeps.refl
    | with_reducible assumption
    | ((with_reducible apply Keeps.step (stop_keeps ..)); focus exact rfl)
    | ((with_reducible apply Keeps.step (failJob_keeps ..)); focus exact rfl)
    | with_reducible apply Keeps.ite
    | with_reducible apply Keeps.ite_fst
    | with_reducible refine Keeps.foldl _ (fun _ _ => ?_) ?_
    | extract_lets
    | split
    | dsimp only)

theorem queueBay_keeps (s : State) (j : Job) (b : Nat) (attr : Nat) : Keeps (only [.seats, .jobs]) s (queueBay s j b attr) := by
  unfold queueBay
  repeat' (first
    | with_reducible apply Keeps.refl
    | with_reducible assumption
    | ((with_reducible apply Keeps.step (State.modSeat_keeps ..)); focus exact rfl)
    | ((with_reducible apply Keeps.step (State.modJob_keeps ..)); focus exact rfl)
    | with_reducible apply Keeps.ite
    | with_reducible apply Keeps.ite_fst
    | with_reducible refine Keeps.foldl _ (fun _ _ => ?_) ?_
    | extract_lets
    | split
    | dsimp only)

theorem placeFree_keeps (s : State) (j : Job) (attr : Nat) : Keeps (only [.seats, .jobs, .mem, .place, .buffers, .engines, .keys]) s (placeFree s j
    attr) := by
  unfold placeFree
  repeat' (first
    | with_reducible apply Keeps.refl
    | with_reducible assumption
    | ((with_reducible apply Keeps.step (noUnit_keeps ..)); focus exact rfl)
    | ((with_reducible apply Keeps.step (queueBay_keeps ..)); focus exact rfl)
    | ((with_reducible apply Keeps.step (noteChoice_keeps ..)); focus exact rfl)
    | with_reducible apply Keeps.ite
    | with_reducible apply Keeps.ite_fst
    | with_reducible refine Keeps.foldl _ (fun _ _ => ?_) ?_
    | extract_lets
    | split
    | dsimp only)

theorem setHome_keeps (s : State) (i : Nat) (b : Nat) (job : Nat) : Keeps (only [.mem, .front]) s (setHome s i b job) := by
  unfold setHome
  repeat' (first
    | with_reducible apply Keeps.refl
    | with_reducible assumption
    | ((with_reducible apply Keeps.step (assocPut_keeps ..)); focus exact rfl)
    | ((with_reducible apply Keeps.step (modAssoc_keeps ..)); focus exact rfl)
    | with_reducible apply Keeps.ite
    | with_reducible apply Keeps.ite_fst
    | with_reducible refine Keeps.foldl _ (fun _ _ => ?_) ?_
    | extract_lets
    | split
    | dsimp only)

theorem homeFor_keeps (s : State) (j : Job) (i : Nat) (home : Nat) (hash : Nat) (valid : Bool) : Keeps (only [.mem, .place, .front]) s (homeFor s j i
    home hash valid).1 := by
  unfold homeFor
  repeat' (first
    | with_reducible apply Keeps.refl
    | with_reducible assumption
    | ((with_reducible apply Keeps.step (setHome_keeps ..)); focus exact rfl)
    | with_reducible apply Keeps.ite
    | with_reducible apply Keeps.ite_fst
    | with_reducible refine Keeps.foldl _ (fun _ _ => ?_) ?_
    | extract_lets
    | split
    | dsimp only
    | ((with_reducible apply Keeps.upd) <;> first | exact .inl rfl | exact .inr rfl | skip))

theorem placeAssoc_keeps (s : State) (j : Job) (i : Nat) (attr : Nat) : Keeps (only [.seats, .jobs, .mem, .place, .buffers, .engines, .keys, .front])
    s (placeAssoc s j i attr) := by
  unfold placeAssoc
  repeat' (first
    | with_reducible apply Keeps.refl
    | with_reducible assumption
    | ((with_reducible apply Keeps.step (noUnit_keeps ..)); focus exact rfl)
    | ((with_reducible apply Keeps.step (homeFor_keeps ..)); focus exact rfl)
    | ((with_reducible apply Keeps.step (queueBay_keeps ..)); focus exact rfl)
    | with_reducible refine Keeps.fst (by assumption) ?_
    | with_reducible apply Keeps.ite
    | with_reducible apply Keeps.ite_fst
    | with_reducible refine Keeps.foldl _ (fun _ _ => ?_) ?_
    | extract_lets
    | split
    | dsimp only)

theorem fillHome_keeps (s : State) : Keeps (only [.place]) s (fillHome s) := by
  unfold fillHome
  repeat' (first
    | with_reducible apply Keeps.refl
    | with_reducible assumption
    | with_reducible apply Keeps.ite
    | with_reducible apply Keeps.ite_fst
    | with_reducible refine Keeps.foldl _ (fun _ _ => ?_) ?_
    | extract_lets
    | split
    | dsimp only
    | ((with_reducible apply Keeps.upd) <;> first | exact .inl rfl | exact .inr rfl | skip))

end Sys2Proof.Machine
end

