-- ==== Sys2Proof/Laws/FrameStart.lean ====
section
/-! SUPPORT. Frames of Machine/Start: for each operation, the parts of the state it may change. -/

namespace Sys2Proof.Machine

theorem dropSched_keeps (s : State) (c : Sched) : Keeps (only [.keys]) s (dropSched s c) := by
  unfold dropSched
  repeat' (first
    | with_reducible apply Keeps.refl
    | with_reducible assumption
    | ((with_reducible apply Keeps.step (State.modKeys_keeps ..)); focus exact rfl)
    | with_reducible apply Keeps.ite
    | with_reducible apply Keeps.ite_fst
    | with_reducible refine Keeps.foldl _ (fun _ _ => ?_) ?_
    | extract_lets
    | split
    | dsimp only)

theorem seatTrim_keeps (s : State) (seat : Nat) (target : Nat) : Keeps (only [.keys]) s (seatTrim s seat target) := by
  unfold seatTrim
  repeat' (first
    | with_reducible apply Keeps.refl
    | with_reducible assumption
    | ((with_reducible apply Keeps.step (dropSched_keeps ..)); focus exact rfl)
    | with_reducible apply Keeps.ite
    | with_reducible apply Keeps.ite_fst
    | with_reducible refine Keeps.foldl _ (fun _ _ => ?_) ?_
    | extract_lets
    | split
    | dsimp only)

theorem trimAll_keeps (s : State) : Keeps (only [.keys]) s (trimAll s) := by
  unfold trimAll
  repeat' (first
    | with_reducible apply Keeps.refl
    | with_reducible assumption
    | ((with_reducible apply Keeps.step (seatTrim_keeps ..)); focus exact rfl)
    | with_reducible apply Keeps.ite
    | with_reducible apply Keeps.ite_fst
    | with_reducible refine Keeps.foldl _ (fun _ _ => ?_) ?_
    | extract_lets
    | split
    | dsimp only)

theorem schedRoom_ck {ch : Part → Bool} {s0 : State} {s : State} {seat : Nat} {b : Nat} (hm : within (only [.keys]) ch = true) (h0 : Keeps ch s0 s) :
    CkOk (OfState ch s0) (Keeps ch s0) (schedRoom s seat b) := by
  unfold schedRoom
  repeat' (first
    | with_reducible apply Keeps.refl
    | with_reducible assumption
    | ((with_reducible apply chkWait_ck); focus exact (within_trans rfl hm))
    | with_reducible exact ofAny _
    | with_reducible apply ck_ite
    | with_reducible exact CkOk.need
    | with_reducible exact CkOk.fail
    | with_reducible apply ck_ok
    | with_reducible apply ck_pure
    | with_reducible apply CkOk.waits
    | with_reducible refine ck_bindState ?_ (fun _ _ => ?_)
    | with_reducible refine ck_bindPair ?_ (fun _ _ _ => ?_)
    | with_reducible refine ck_bindAny ?_ (fun _ => ?_)
    | with_reducible apply OfState.mk
    | with_reducible apply ofPair
    | ((with_reducible apply Keeps.step (seatTrim_keeps ..)); focus exact (within_trans rfl hm))
    | ((with_reducible apply Keeps.step (dropSched_keeps ..)); focus exact (within_trans rfl hm))
    | with_reducible refine ck_waits ?_ (by assumption)
    | with_reducible apply Keeps.ite
    | with_reducible apply Keeps.ite_fst
    | with_reducible refine Keeps.foldl _ (fun _ _ => ?_) ?_
    | extract_lets
    | split
    | dsimp only)

theorem toDispatch_keeps (s : State) (j : Job) : Keeps (only [.jobs, .mem, .buffers]) s (toDispatch s j) := by
  unfold toDispatch
  repeat' (first
    | with_reducible apply Keeps.refl
    | with_reducible assumption
    | ((with_reducible apply Keeps.step (dropReads_keeps ..)); focus exact rfl)
    | ((with_reducible apply Keeps.step (State.modJob_keeps ..)); focus exact rfl)
    | ((with_reducible apply Keeps.step (freeRegion_keeps ..)); focus exact rfl)
    | with_reducible apply Keeps.ite
    | with_reducible apply Keeps.ite_fst
    | with_reducible refine Keeps.foldl _ (fun _ _ => ?_) ?_
    | extract_lets
    | split
    | dsimp only)

theorem capCk_ck {ch : Part → Bool} {s0 : State} {s : State} {j : Job} {b : Nat} (hm : within (only [.jobs, .mem, .buffers]) ch = true) (h0 : Keeps ch
    s0 s) : CkOk OfAny (Keeps ch s0) (capCk s j b) := by
  unfold capCk
  repeat' (first
    | with_reducible apply Keeps.refl
    | with_reducible assumption
    | with_reducible exact ofAny _
    | with_reducible apply ck_ite
    | with_reducible exact CkOk.need
    | with_reducible exact CkOk.fail
    | with_reducible apply ck_ok
    | with_reducible apply ck_pure
    | with_reducible apply CkOk.waits
    | with_reducible refine ck_bindState ?_ (fun _ _ => ?_)
    | with_reducible refine ck_bindPair ?_ (fun _ _ _ => ?_)
    | with_reducible refine ck_bindAny ?_ (fun _ => ?_)
    | with_reducible apply OfState.mk
    | with_reducible apply ofPair
    | ((with_reducible apply Keeps.step (toDispatch_keeps ..)); focus exact (within_trans rfl hm))
    | with_reducible apply Keeps.ite
    | with_reducible apply Keeps.ite_fst
    | with_reducible refine Keeps.foldl _ (fun _ _ => ?_) ?_
    | extract_lets
    | split
    | dsimp only)

theorem bayKey_ck {ch : Part → Bool} {s0 : State} {s : State} {j : Job} {h : Nat} {b : Nat} {cache : Bool} (hm : within (only [.jobs, .mem, .buffers,
    .keys]) ch = true) (h0 : Keeps ch s0 s) : CkOk (OfPair ch s0) (Keeps ch s0) (bayKey s j h b cache) := by
  unfold bayKey
  repeat' (first
    | with_reducible apply Keeps.refl
    | with_reducible assumption
    | ((with_reducible apply capCk_ck); focus exact (within_trans rfl hm))
    | ((with_reducible apply schedRoom_ck); focus exact (within_trans rfl hm))
    | with_reducible refine ck_any (p := OfState _ _) ?_
    | with_reducible exact ofAny _
    | with_reducible apply ck_ite
    | with_reducible exact CkOk.need
    | with_reducible exact CkOk.fail
    | with_reducible apply ck_ok
    | with_reducible apply ck_pure
    | with_reducible apply CkOk.waits
    | with_reducible refine ck_bindState ?_ (fun _ _ => ?_)
    | with_reducible refine ck_bindPair ?_ (fun _ _ _ => ?_)
    | with_reducible refine ck_bindAny ?_ (fun _ => ?_)
    | with_reducible apply OfState.mk
    | with_reducible apply ofPair
    | ((with_reducible apply Keeps.step (State.modKeys_keeps ..)); focus exact (within_trans rfl hm))
    | with_reducible refine ck_waits ?_ (by assumption)
    | with_reducible refine ck_okState ?_ (by assumption)
    | with_reducible apply Keeps.ite
    | with_reducible apply Keeps.ite_fst
    | with_reducible refine Keeps.foldl _ (fun _ _ => ?_) ?_
    | extract_lets
    | split
    | dsimp only)

theorem bayAttr_ck {ch : Part → Bool} {s0 : State} {s : State} {j : Job} {h : Nat} (hm : within (only [.mem, .keys]) ch = true) (h0 : Keeps ch s0 s) :
    CkOk (OfPair ch s0) (Keeps ch s0) (bayAttr s j h) := by
  unfold bayAttr
  repeat' (first
    | with_reducible apply Keeps.refl
    | with_reducible assumption
    | with_reducible exact ofAny _
    | with_reducible apply ck_ite
    | with_reducible exact CkOk.need
    | with_reducible exact CkOk.fail
    | with_reducible apply ck_ok
    | with_reducible apply ck_pure
    | with_reducible apply CkOk.waits
    | with_reducible refine ck_bindState ?_ (fun _ _ => ?_)
    | with_reducible refine ck_bindPair ?_ (fun _ _ _ => ?_)
    | with_reducible refine ck_bindAny ?_ (fun _ => ?_)
    | with_reducible apply OfState.mk
    | with_reducible apply ofPair
    | ((with_reducible apply Keeps.step (keepAttr_keeps ..)); focus exact (within_trans rfl hm))
    | with_reducible apply Keeps.ite
    | with_reducible apply Keeps.ite_fst
    | with_reducible refine Keeps.foldl _ (fun _ _ => ?_) ?_
    | extract_lets
    | split
    | dsimp only)

theorem classCk_ck {ch : Part → Bool} {s0 : State} {s : State} {j : Job} {attr : Nat} {b : Nat} (hm : within (only [.jobs, .mem, .buffers]) ch = true)
    (h0 : Keeps ch s0 s) : CkOk OfAny (Keeps ch s0) (classCk s j attr b) := by
  unfold classCk
  repeat' (first
    | with_reducible apply Keeps.refl
    | with_reducible assumption
    | with_reducible exact ofAny _
    | with_reducible apply ck_ite
    | with_reducible exact CkOk.need
    | with_reducible exact CkOk.fail
    | with_reducible apply ck_ok
    | with_reducible apply ck_pure
    | with_reducible apply CkOk.waits
    | with_reducible refine ck_bindState ?_ (fun _ _ => ?_)
    | with_reducible refine ck_bindPair ?_ (fun _ _ _ => ?_)
    | with_reducible refine ck_bindAny ?_ (fun _ => ?_)
    | with_reducible apply OfState.mk
    | with_reducible apply ofPair
    | ((with_reducible apply Keeps.step (toDispatch_keeps ..)); focus exact (within_trans rfl hm))
    | with_reducible apply Keeps.ite
    | with_reducible apply Keeps.ite_fst
    | with_reducible refine Keeps.foldl _ (fun _ _ => ?_) ?_
    | extract_lets
    | split
    | dsimp only)

theorem expiryCk_ck {ch : Part → Bool} {s0 : State} {s : State} {a : Attr} (hm : within (only []) ch = true) (h0 : Keeps ch s0 s) : CkOk OfAny (Keeps
    ch s0) (expiryCk s a) := by
  unfold expiryCk
  repeat' (first
    | with_reducible apply Keeps.refl
    | with_reducible assumption
    | with_reducible exact ofAny _
    | with_reducible apply ck_ite
    | with_reducible exact CkOk.need
    | with_reducible exact CkOk.fail
    | with_reducible apply ck_ok
    | with_reducible apply ck_pure
    | with_reducible apply CkOk.waits
    | with_reducible refine ck_bindState ?_ (fun _ _ => ?_)
    | with_reducible refine ck_bindPair ?_ (fun _ _ _ => ?_)
    | with_reducible refine ck_bindAny ?_ (fun _ => ?_)
    | with_reducible apply OfState.mk
    | with_reducible apply ofPair
    | with_reducible apply Keeps.ite
    | with_reducible apply Keeps.ite_fst
    | with_reducible refine Keeps.foldl _ (fun _ _ => ?_) ?_
    | extract_lets
    | split
    | dsimp only)

theorem ckIf_ck {w : State → Prop} {c : Bool} {x : Ck Unit} (h : CkOk OfAny w x) : CkOk OfAny w (ckIf c x) := by
  unfold ckIf
  exact ck_ite h (.answer (ofAny _))

theorem noDraws_ck {ch : Part → Bool} {s0 : State} {s : State} (hm : within (only []) ch = true) (h0 : Keeps ch s0 s) : CkOk OfAny (Keeps ch s0)
    (noDraws s) := by
  unfold noDraws
  repeat' (first
    | with_reducible apply Keeps.refl
    | with_reducible assumption
    | with_reducible apply chk_ck
    | with_reducible exact ofAny _
    | with_reducible apply ck_ite
    | with_reducible exact CkOk.need
    | with_reducible exact CkOk.fail
    | with_reducible apply ck_ok
    | with_reducible apply ck_pure
    | with_reducible apply CkOk.waits
    | with_reducible refine ck_bindState ?_ (fun _ _ => ?_)
    | with_reducible refine ck_bindPair ?_ (fun _ _ _ => ?_)
    | with_reducible refine ck_bindAny ?_ (fun _ => ?_)
    | with_reducible apply OfState.mk
    | with_reducible apply ofPair
    | with_reducible refine ck_waits ?_ (by assumption)
    | with_reducible apply Keeps.ite
    | with_reducible apply Keeps.ite_fst
    | with_reducible refine Keeps.foldl _ (fun _ _ => ?_) ?_
    | extract_lets
    | split
    | dsimp only)

theorem drawMasks_ck {ch : Part → Bool} {s0 : State} {s : State} {j : Job} {b : Nat} {guarded : Bool} (hm : within (only [.jobs, .place, .entropy]) ch
    = true) (h0 : Keeps ch s0 s) : CkOk (OfState ch s0) (Keeps ch s0) (drawMasks s j b guarded) := by
  unfold drawMasks
  repeat' (first
    | with_reducible apply Keeps.refl
    | with_reducible assumption
    | with_reducible exact ofAny _
    | with_reducible apply ck_ite
    | with_reducible exact CkOk.need
    | with_reducible exact CkOk.fail
    | with_reducible apply ck_ok
    | with_reducible apply ck_pure
    | with_reducible apply CkOk.waits
    | with_reducible refine ck_bindState ?_ (fun _ _ => ?_)
    | with_reducible refine ck_bindPair ?_ (fun _ _ _ => ?_)
    | with_reducible refine ck_bindAny ?_ (fun _ => ?_)
    | with_reducible apply OfState.mk
    | with_reducible apply ofPair
    | ((with_reducible apply OptKeeps2.step (tryDraw_keeps ..)); focus exact (within_trans rfl hm))
    | ((with_reducible apply Keeps.step (State.modJob_keeps ..)); focus exact (within_trans rfl hm))
    | ((with_reducible apply Keeps.step (State.modBay_keeps ..)); focus exact (within_trans rfl hm))
    | with_reducible refine OptKeeps2.get ?_ (by assumption)
    | with_reducible apply OptKeeps2.some
    | with_reducible apply OptKeeps2.map
    | with_reducible apply Keeps.ite
    | with_reducible apply Keeps.ite_fst
    | with_reducible refine Keeps.foldl _ (fun _ _ => ?_) ?_
    | extract_lets
    | split
    | dsimp only)

theorem useCk_ck {ch : Part → Bool} {s0 : State} {s : State} {j : Job} {a : Attr} (hm : within (only [.jobs, .mem, .keys]) ch = true) (h0 : Keeps ch
    s0 s) : CkOk (OfState ch s0) (Keeps ch s0) (useCk s j a) := by
  unfold useCk
  repeat' (first
    | with_reducible apply Keeps.refl
    | with_reducible assumption
    | with_reducible exact ofAny _
    | with_reducible apply ck_ite
    | with_reducible exact CkOk.need
    | with_reducible exact CkOk.fail
    | with_reducible apply ck_ok
    | with_reducible apply ck_pure
    | with_reducible apply CkOk.waits
    | with_reducible refine ck_bindState ?_ (fun _ _ => ?_)
    | with_reducible refine ck_bindPair ?_ (fun _ _ _ => ?_)
    | with_reducible refine ck_bindAny ?_ (fun _ => ?_)
    | with_reducible apply OfState.mk
    | with_reducible apply ofPair
    | with_reducible refine Keeps.step (countUse_counted (by assumption)) (within_trans (by decide) hm) ?_
    | with_reducible refine Keeps.step (countUse_wait (by assumption)) (within_trans (by decide) hm) ?_
    | with_reducible apply Keeps.ite
    | with_reducible apply Keeps.ite_fst
    | with_reducible refine Keeps.foldl _ (fun _ _ => ?_) ?_
    | extract_lets
    | split
    | dsimp only)

theorem remask_keeps (s : State) (j : Job) (b : Nat) (before : Nat) (after : Nat) : Keeps (only [.place, .entropy]) s (remask s j b before after) :=
    by
  unfold remask
  repeat' (first
    | with_reducible apply Keeps.refl
    | with_reducible assumption
    | ((with_reducible apply OptKeeps2.step (tryDraw_keeps ..)); focus exact rfl)
    | ((with_reducible apply Keeps.step (State.modBay_keeps ..)); focus exact rfl)
    | with_reducible refine OptKeeps2.get ?_ (by assumption)
    | with_reducible apply OptKeeps2.some
    | with_reducible apply OptKeeps2.map
    | with_reducible apply Keeps.ite
    | with_reducible apply Keeps.ite_fst
    | with_reducible refine Keeps.foldl _ (fun _ _ => ?_) ?_
    | extract_lets
    | split
    | dsimp only)

theorem assocStartCk_ck {ch : Part → Bool} {s0 : State} {s : State} {j : Job} {a : Assoc} (hm : within (only [.jobs, .mem, .buffers, .engines, .keys,
    .front]) ch = true) (h0 : Keeps ch s0 s) : CkOk OfAny (Keeps ch s0) (assocStartCk s j a) := by
  unfold assocStartCk
  repeat' (first
    | with_reducible apply Keeps.refl
    | with_reducible assumption
    | with_reducible exact ofAny _
    | with_reducible apply ck_ite
    | with_reducible exact CkOk.need
    | with_reducible exact CkOk.fail
    | with_reducible apply ck_ok
    | with_reducible apply ck_pure
    | with_reducible apply CkOk.waits
    | with_reducible refine ck_bindState ?_ (fun _ _ => ?_)
    | with_reducible refine ck_bindPair ?_ (fun _ _ _ => ?_)
    | with_reducible refine ck_bindAny ?_ (fun _ => ?_)
    | with_reducible apply OfState.mk
    | with_reducible apply ofPair
    | with_reducible refine Keeps.step (issueNonce_issued (by assumption)) (within_trans (by decide) hm) ?_
    | with_reducible refine Keeps.step (issueNonce_sealed (by assumption)) (within_trans (by decide) hm) ?_
    | with_reducible refine Keeps.step (issueNonce_wait (by assumption)) (within_trans (by decide) hm) ?_
    | ((with_reducible apply Keeps.step (failOpf_keeps ..)); focus exact (within_trans rfl hm))
    | ((with_reducible apply Keeps.step (State.modJob_keeps ..)); focus exact (within_trans rfl hm))
    | with_reducible apply Keeps.ite
    | with_reducible apply Keeps.ite_fst
    | with_reducible refine Keeps.foldl _ (fun _ _ => ?_) ?_
    | extract_lets
    | split
    | dsimp only)

theorem nonceCk_ck {ch : Part → Bool} {s0 : State} {s : State} {j : Job} (hm : within (only [.jobs, .mem, .front]) ch = true) (h0 : Keeps ch s0 s) :
    CkOk (OfPair ch s0) (Keeps ch s0) (nonceCk s j) := by
  unfold nonceCk
  repeat' (first
    | with_reducible apply Keeps.refl
    | with_reducible assumption
    | with_reducible exact ofAny _
    | with_reducible apply ck_ite
    | with_reducible exact CkOk.need
    | with_reducible exact CkOk.fail
    | with_reducible apply ck_ok
    | with_reducible apply ck_pure
    | with_reducible apply CkOk.waits
    | with_reducible refine ck_bindState ?_ (fun _ _ => ?_)
    | with_reducible refine ck_bindPair ?_ (fun _ _ _ => ?_)
    | with_reducible refine ck_bindAny ?_ (fun _ => ?_)
    | with_reducible apply OfState.mk
    | with_reducible apply ofPair
    | with_reducible refine Keeps.step (issueNonce_issued (by assumption)) (within_trans (by decide) hm) ?_
    | with_reducible refine Keeps.step (issueNonce_sealed (by assumption)) (within_trans (by decide) hm) ?_
    | with_reducible refine Keeps.step (issueNonce_wait (by assumption)) (within_trans (by decide) hm) ?_
    | with_reducible apply Keeps.ite
    | with_reducible apply Keeps.ite_fst
    | with_reducible refine Keeps.foldl _ (fun _ _ => ?_) ?_
    | extract_lets
    | split
    | dsimp only)

theorem laneKeep_keeps (s : State) (id : Nat) : Keeps (only [.place]) s (laneKeep s id) := by
  unfold laneKeep
  repeat' (first
    | with_reducible apply Keeps.refl
    | with_reducible assumption
    | ((with_reducible apply Keeps.step (State.modBay_keeps ..)); focus exact rfl)
    | with_reducible apply Keeps.ite
    | with_reducible apply Keeps.ite_fst
    | with_reducible refine Keeps.foldl _ (fun _ _ => ?_) ?_
    | extract_lets
    | split
    | dsimp only)

theorem beginSym_keeps (s : State) (j : Job) (attr : Nat) (key : Bytes) (nonce : Option Nat) (rec_ : Option Bytes) : Keeps (only [.jobs, .mem, .place,
    .buffers, .engines, .keys]) s (beginSym s j attr key nonce rec_) := by
  unfold beginSym
  repeat' (first
    | with_reducible apply Keeps.refl
    | with_reducible assumption
    | ((with_reducible apply Keeps.step (State.modJob_keeps ..)); focus exact rfl)
    | ((with_reducible apply Keeps.step (laneKeep_keeps ..)); focus exact rfl)
    | ((with_reducible apply Keeps.step (holdSeatKeys_keeps ..)); focus exact rfl)
    | ((with_reducible apply Keeps.step (failJob_keeps ..)); focus exact rfl)
    | with_reducible apply Keeps.ite
    | with_reducible apply Keeps.ite_fst
    | with_reducible refine Keeps.foldl _ (fun _ _ => ?_) ?_
    | extract_lets
    | split
    | dsimp only)

theorem assocOfCk_ck {ch : Part → Bool} {s0 : State} {s : State} {j : Job} (hm : within (only [.jobs, .mem, .buffers, .engines, .keys, .front]) ch =
    true) (h0 : Keeps ch s0 s) : CkOk OfAny (Keeps ch s0) (assocOfCk s j) := by
  unfold assocOfCk
  repeat' (first
    | with_reducible apply Keeps.refl
    | with_reducible assumption
    | ((with_reducible apply assocStartCk_ck); focus exact (within_trans rfl hm))
    | with_reducible exact ofAny _
    | with_reducible apply ck_ite
    | with_reducible exact CkOk.need
    | with_reducible exact CkOk.fail
    | with_reducible apply ck_ok
    | with_reducible apply ck_pure
    | with_reducible apply CkOk.waits
    | with_reducible refine ck_bindState ?_ (fun _ _ => ?_)
    | with_reducible refine ck_bindPair ?_ (fun _ _ _ => ?_)
    | with_reducible refine ck_bindAny ?_ (fun _ => ?_)
    | with_reducible apply OfState.mk
    | with_reducible apply ofPair
    | with_reducible refine ck_waits ?_ (by assumption)
    | with_reducible apply Keeps.ite
    | with_reducible apply Keeps.ite_fst
    | with_reducible refine Keeps.foldl _ (fun _ _ => ?_) ?_
    | extract_lets
    | split
    | dsimp only)

theorem ctxIn_ck {w : State → Prop} {j : Job} : CkOk OfAny w (ctxIn j) := by
  unfold ctxIn
  repeat' (first
    | with_reducible apply Keeps.refl
    | with_reducible assumption
    | with_reducible exact ofAny _
    | with_reducible apply ck_ite
    | with_reducible exact CkOk.need
    | with_reducible exact CkOk.fail
    | with_reducible apply ck_ok
    | with_reducible apply ck_pure
    | with_reducible apply CkOk.waits
    | with_reducible refine ck_bindState ?_ (fun _ _ => ?_)
    | with_reducible refine ck_bindPair ?_ (fun _ _ _ => ?_)
    | with_reducible refine ck_bindAny ?_ (fun _ => ?_)
    | with_reducible apply OfState.mk
    | with_reducible apply ofPair
    | with_reducible apply needBytes_ck
    | with_reducible refine ck_waits ?_ (by assumption)
    | with_reducible apply Keeps.ite
    | with_reducible apply Keeps.ite_fst
    | with_reducible refine Keeps.foldl _ (fun _ _ => ?_) ?_
    | extract_lets
    | split
    | dsimp only)

theorem assocSelf_ck {ch : Part → Bool} {s0 : State} {s : State} {j : Job} (hm : within (only [.jobs, .mem, .front]) ch = true) (h0 : Keeps ch s0 s) :
    CkOk (OfState ch s0) (Keeps ch s0) (assocSelf s j) := by
  unfold assocSelf
  repeat' (first
    | with_reducible apply Keeps.refl
    | with_reducible assumption
    | ((with_reducible apply assocCk_ck); focus exact (within_trans rfl hm))
    | with_reducible refine ck_any (p := OfPair _ _) ?_
    | with_reducible exact ofAny _
    | with_reducible apply ck_ite
    | with_reducible exact CkOk.need
    | with_reducible exact CkOk.fail
    | with_reducible apply ck_ok
    | with_reducible apply ck_pure
    | with_reducible apply CkOk.waits
    | with_reducible refine ck_bindState ?_ (fun _ _ => ?_)
    | with_reducible refine ck_bindPair ?_ (fun _ _ _ => ?_)
    | with_reducible refine ck_bindAny ?_ (fun _ => ?_)
    | with_reducible apply OfState.mk
    | with_reducible apply ofPair
    | with_reducible refine ck_okPair ?_ (by assumption)
    | with_reducible refine ck_waits ?_ (by assumption)
    | with_reducible apply Keeps.ite
    | with_reducible apply Keeps.ite_fst
    | with_reducible refine Keeps.foldl _ (fun _ _ => ?_) ?_
    | extract_lets
    | split
    | dsimp only)

theorem startSym_ck {ch : Part → Bool} {s0 : State} {s : State} {j : Job} {b : Nat} (hm : within (only [.jobs, .mem, .place, .buffers, .engines,
    .keys, .entropy, .front]) ch = true) (h0 : Keeps ch s0 s) : CkOk (OfState ch s0) (Keeps ch s0) (startSym s j b) := by
  unfold startSym
  repeat' (first
    | with_reducible apply Keeps.refl
    | with_reducible assumption
    | ((with_reducible apply assocSelf_ck); focus exact (within_trans rfl hm))
    | with_reducible refine ck_any (p := OfState _ _) ?_
    | ((with_reducible apply bayAttr_ck); focus exact (within_trans rfl hm))
    | with_reducible refine ck_any (p := OfPair _ _) ?_
    | ((with_reducible apply keepOn_ck); focus exact (within_trans rfl hm))
    | ((with_reducible apply classCk_ck); focus exact (within_trans rfl hm))
    | ((with_reducible apply expiryCk_ck); focus exact (within_trans rfl hm))
    | with_reducible apply chk_ck
    | with_reducible apply ckIf_ck
    | ((with_reducible apply noDraws_ck); focus exact (within_trans rfl hm))
    | ((with_reducible apply assocOfCk_ck); focus exact (within_trans rfl hm))
    | with_reducible apply ctxIn_ck
    | ((with_reducible apply bayKey_ck); focus exact (within_trans rfl hm))
    | ((with_reducible apply drawMasks_ck); focus exact (within_trans rfl hm))
    | ((with_reducible apply nonceCk_ck); focus exact (within_trans rfl hm))
    | ((with_reducible apply useCk_ck); focus exact (within_trans rfl hm))
    | with_reducible exact ofAny _
    | with_reducible apply ck_ite
    | with_reducible exact CkOk.need
    | with_reducible exact CkOk.fail
    | with_reducible apply ck_ok
    | with_reducible apply ck_pure
    | with_reducible apply CkOk.waits
    | with_reducible refine ck_bindState ?_ (fun _ _ => ?_)
    | with_reducible refine ck_bindPair ?_ (fun _ _ _ => ?_)
    | with_reducible refine ck_bindAny ?_ (fun _ => ?_)
    | with_reducible apply OfState.mk
    | with_reducible apply ofPair
    | ((with_reducible apply Keeps.step (beginSym_keeps ..)); focus exact (within_trans rfl hm))
    | with_reducible refine ck_okState ?_ (by assumption)
    | with_reducible refine ck_waits ?_ (by assumption)
    | with_reducible refine ck_okPair ?_ (by assumption)
    | with_reducible apply Keeps.ite
    | with_reducible apply Keeps.ite_fst
    | with_reducible refine Keeps.foldl _ (fun _ _ => ?_) ?_
    | extract_lets
    | split
    | dsimp only)

theorem startQuery_ck {ch : Part → Bool} {s0 : State} {s : State} {j : Job} (hm : within (only [.jobs, .mem, .front]) ch = true) (h0 : Keeps ch s0 s)
    : CkOk (OfState ch s0) (Keeps ch s0) (startQuery s j) := by
  unfold startQuery
  repeat' (first
    | with_reducible apply Keeps.refl
    | with_reducible assumption
    | ((with_reducible apply assocCk_ck); focus exact (within_trans rfl hm))
    | with_reducible refine ck_any (p := OfPair _ _) ?_
    | with_reducible exact ofAny _
    | with_reducible apply ck_ite
    | with_reducible exact CkOk.need
    | with_reducible exact CkOk.fail
    | with_reducible apply ck_ok
    | with_reducible apply ck_pure
    | with_reducible apply CkOk.waits
    | with_reducible refine ck_bindState ?_ (fun _ _ => ?_)
    | with_reducible refine ck_bindPair ?_ (fun _ _ _ => ?_)
    | with_reducible refine ck_bindAny ?_ (fun _ => ?_)
    | with_reducible apply OfState.mk
    | with_reducible apply ofPair
    | ((with_reducible apply Keeps.step (State.modJob_keeps ..)); focus exact (within_trans rfl hm))
    | with_reducible refine ck_okPair ?_ (by assumption)
    | with_reducible refine ck_waits ?_ (by assumption)
    | with_reducible apply Keeps.ite
    | with_reducible apply Keeps.ite_fst
    | with_reducible refine Keeps.foldl _ (fun _ _ => ?_) ?_
    | extract_lets
    | split
    | dsimp only)

theorem slotCk_ck {ch : Part → Bool} {s0 : State} {s : State} {j : Job} (hm : within (only []) ch = true) (h0 : Keeps ch s0 s) : CkOk OfAny (Keeps ch
    s0) (slotCk s j) := by
  unfold slotCk
  repeat' (first
    | with_reducible apply Keeps.refl
    | with_reducible assumption
    | with_reducible apply chk_ck
    | with_reducible exact ofAny _
    | with_reducible apply ck_ite
    | with_reducible exact CkOk.need
    | with_reducible exact CkOk.fail
    | with_reducible apply ck_ok
    | with_reducible apply ck_pure
    | with_reducible apply CkOk.waits
    | with_reducible refine ck_bindState ?_ (fun _ _ => ?_)
    | with_reducible refine ck_bindPair ?_ (fun _ _ _ => ?_)
    | with_reducible refine ck_bindAny ?_ (fun _ => ?_)
    | with_reducible apply OfState.mk
    | with_reducible apply ofPair
    | with_reducible refine ck_waits ?_ (by assumption)
    | with_reducible apply Keeps.ite
    | with_reducible apply Keeps.ite_fst
    | with_reducible refine Keeps.foldl _ (fun _ _ => ?_) ?_
    | extract_lets
    | split
    | dsimp only)

theorem digAttr_ck {ch : Part → Bool} {s0 : State} {s : State} {j : Job} {b : Nat} (hm : within (only [.jobs, .mem, .buffers, .engines, .keys]) ch =
    true) (h0 : Keeps ch s0 s) : CkOk (OfPair ch s0) (Keeps ch s0) (digAttr s j b) := by
  unfold digAttr
  repeat' (first
    | with_reducible apply Keeps.refl
    | with_reducible assumption
    | ((with_reducible apply bayAttr_ck); focus exact (within_trans rfl hm))
    | with_reducible refine ck_any (p := OfPair _ _) ?_
    | ((with_reducible apply classCk_ck); focus exact (within_trans rfl hm))
    | ((with_reducible apply keepOn_ck); focus exact (within_trans rfl hm))
    | ((with_reducible apply expiryCk_ck); focus exact (within_trans rfl hm))
    | with_reducible exact ofAny _
    | with_reducible apply ck_ite
    | with_reducible exact CkOk.need
    | with_reducible exact CkOk.fail
    | with_reducible apply ck_ok
    | with_reducible apply ck_pure
    | with_reducible apply CkOk.waits
    | with_reducible refine ck_bindState ?_ (fun _ _ => ?_)
    | with_reducible refine ck_bindPair ?_ (fun _ _ _ => ?_)
    | with_reducible refine ck_bindAny ?_ (fun _ => ?_)
    | with_reducible apply OfState.mk
    | with_reducible apply ofPair
    | with_reducible refine ck_okPair ?_ (by assumption)
    | with_reducible refine ck_waits ?_ (by assumption)
    | with_reducible apply Keeps.ite
    | with_reducible apply Keeps.ite_fst
    | with_reducible refine Keeps.foldl _ (fun _ _ => ?_) ?_
    | extract_lets
    | split
    | dsimp only)

theorem digCtx_ck {ch : Part → Bool} {s0 : State} {s : State} {j : Job} (hm : within (only []) ch = true) (h0 : Keeps ch s0 s) : CkOk OfAny (Keeps ch
    s0) (digCtx s j) := by
  unfold digCtx
  repeat' (first
    | with_reducible apply Keeps.refl
    | with_reducible assumption
    | with_reducible apply needBytes_ck
    | with_reducible exact ofAny _
    | with_reducible apply ck_ite
    | with_reducible exact CkOk.need
    | with_reducible exact CkOk.fail
    | with_reducible apply ck_ok
    | with_reducible apply ck_pure
    | with_reducible apply CkOk.waits
    | with_reducible refine ck_bindState ?_ (fun _ _ => ?_)
    | with_reducible refine ck_bindPair ?_ (fun _ _ _ => ?_)
    | with_reducible refine ck_bindAny ?_ (fun _ => ?_)
    | with_reducible apply OfState.mk
    | with_reducible apply ofPair
    | with_reducible refine ck_waits ?_ (by assumption)
    | with_reducible apply Keeps.ite
    | with_reducible apply Keeps.ite_fst
    | with_reducible refine Keeps.foldl _ (fun _ _ => ?_) ?_
    | extract_lets
    | split
    | dsimp only)

theorem digKey_ck {ch : Part → Bool} {s0 : State} {s : State} {j : Job} {b : Nat} (hm : within (only [.jobs, .mem, .buffers, .keys]) ch = true) (h0 :
    Keeps ch s0 s) : CkOk (OfPair ch s0) (Keeps ch s0) (digKey s j b) := by
  unfold digKey
  repeat' (first
    | with_reducible apply Keeps.refl
    | with_reducible assumption
    | ((with_reducible apply bayKey_ck); focus exact (within_trans rfl hm))
    | with_reducible refine ck_any (p := OfPair _ _) ?_
    | with_reducible exact ofAny _
    | with_reducible apply ck_ite
    | with_reducible exact CkOk.need
    | with_reducible exact CkOk.fail
    | with_reducible apply ck_ok
    | with_reducible apply ck_pure
    | with_reducible apply CkOk.waits
    | with_reducible refine ck_bindState ?_ (fun _ _ => ?_)
    | with_reducible refine ck_bindPair ?_ (fun _ _ _ => ?_)
    | with_reducible refine ck_bindAny ?_ (fun _ => ?_)
    | with_reducible apply OfState.mk
    | with_reducible apply ofPair
    | with_reducible refine ck_okPair ?_ (by assumption)
    | with_reducible refine ck_waits ?_ (by assumption)
    | with_reducible apply Keeps.ite
    | with_reducible apply Keeps.ite_fst
    | with_reducible refine Keeps.foldl _ (fun _ _ => ?_) ?_
    | extract_lets
    | split
    | dsimp only)

theorem digUse_ck {ch : Part → Bool} {s0 : State} {s : State} {j : Job} {a : Option Attr} (hm : within (only [.jobs, .mem, .keys]) ch = true) (h0 :
    Keeps ch s0 s) : CkOk (OfState ch s0) (Keeps ch s0) (digUse s j a) := by
  unfold digUse
  repeat' (first
    | with_reducible apply Keeps.refl
    | with_reducible assumption
    | ((with_reducible apply useCk_ck); focus exact (within_trans rfl hm))
    | with_reducible refine ck_any (p := OfState _ _) ?_
    | with_reducible exact ofAny _
    | with_reducible apply ck_ite
    | with_reducible exact CkOk.need
    | with_reducible exact CkOk.fail
    | with_reducible apply ck_ok
    | with_reducible apply ck_pure
    | with_reducible apply CkOk.waits
    | with_reducible refine ck_bindState ?_ (fun _ _ => ?_)
    | with_reducible refine ck_bindPair ?_ (fun _ _ _ => ?_)
    | with_reducible refine ck_bindAny ?_ (fun _ => ?_)
    | with_reducible apply OfState.mk
    | with_reducible apply ofPair
    | with_reducible refine ck_okState ?_ (by assumption)
    | with_reducible refine ck_waits ?_ (by assumption)
    | with_reducible apply Keeps.ite
    | with_reducible apply Keeps.ite_fst
    | with_reducible refine Keeps.foldl _ (fun _ _ => ?_) ?_
    | extract_lets
    | split
    | dsimp only)

theorem startDig_ck {ch : Part → Bool} {s0 : State} {s : State} {j : Job} {b : Nat} (hm : within (only [.jobs, .mem, .place, .buffers, .engines,
    .keys, .entropy]) ch = true) (h0 : Keeps ch s0 s) : CkOk (OfState ch s0) (Keeps ch s0) (startDig s j b) := by
  unfold startDig
  repeat' (first
    | with_reducible apply Keeps.refl
    | with_reducible assumption
    | ((with_reducible apply digAttr_ck); focus exact (within_trans rfl hm))
    | with_reducible refine ck_any (p := OfPair _ _) ?_
    | ((with_reducible apply chkWait_ck); focus exact (within_trans rfl hm))
    | ((with_reducible apply keepOn_ck); focus exact (within_trans rfl hm))
    | with_reducible apply ckIf_ck
    | ((with_reducible apply slotCk_ck); focus exact (within_trans rfl hm))
    | with_reducible apply chk_ck
    | ((with_reducible apply noDraws_ck); focus exact (within_trans rfl hm))
    | ((with_reducible apply digCtx_ck); focus exact (within_trans rfl hm))
    | ((with_reducible apply digKey_ck); focus exact (within_trans rfl hm))
    | ((with_reducible apply drawMasks_ck); focus exact (within_trans rfl hm))
    | with_reducible refine ck_any (p := OfState _ _) ?_
    | ((with_reducible apply digUse_ck); focus exact (within_trans rfl hm))
    | with_reducible exact ofAny _
    | with_reducible apply ck_ite
    | with_reducible exact CkOk.need
    | with_reducible exact CkOk.fail
    | with_reducible apply ck_ok
    | with_reducible apply ck_pure
    | with_reducible apply CkOk.waits
    | with_reducible refine ck_bindState ?_ (fun _ _ => ?_)
    | with_reducible refine ck_bindPair ?_ (fun _ _ _ => ?_)
    | with_reducible refine ck_bindAny ?_ (fun _ => ?_)
    | with_reducible apply OfState.mk
    | with_reducible apply ofPair
    | ((with_reducible apply Keeps.step (State.modJob_keeps ..)); focus exact (within_trans rfl hm))
    | with_reducible refine ck_okPair ?_ (by assumption)
    | with_reducible refine ck_waits ?_ (by assumption)
    | with_reducible refine ck_okState ?_ (by assumption)
    | with_reducible apply Keeps.ite
    | with_reducible apply Keeps.ite_fst
    | with_reducible refine Keeps.foldl _ (fun _ _ => ?_) ?_
    | extract_lets
    | split
    | dsimp only)

end Sys2Proof.Machine
end

