-- ==== Sys2Proof/Laws/FrameStream.lean ====
section
/-! SUPPORT. Frames of Machine/Stream: for each operation, the parts of the state it may change. -/

namespace Sys2Proof.Machine

theorem keepSeg_keeps (s : State) (w : SymW) (j : Job) (c : Ctx) (off : Nat) (out : Bytes) : Keeps (only [.jobs, .mem, .place, .entropy]) s (keepSeg s
    w j c off out) := by
  unfold keepSeg
  repeat' (first
    | with_reducible apply Keeps.refl
    | with_reducible assumption
    | ((with_reducible apply Keeps.step (State.modJob_keeps ..)); focus exact rfl)
    | ((with_reducible apply Keeps.step (writeBuf_keeps ..)); focus exact rfl)
    | ((with_reducible apply Keeps.step (remask_keeps ..)); focus exact rfl)
    | ((with_reducible apply Keeps.step (laneKeep_keeps ..)); focus exact rfl)
    | with_reducible apply Keeps.ite
    | with_reducible apply Keeps.ite_fst
    | with_reducible refine Keeps.foldl _ (fun _ _ => ?_) ?_
    | extract_lets
    | split
    | dsimp only)

theorem writeRec_keeps (s : State) (w : SymW) (j : Job) (c : Ctx) : Keeps (only [.jobs, .mem, .place, .keys]) s (writeRec s w j c) := by
  unfold writeRec
  repeat' (first
    | with_reducible apply Keeps.refl
    | with_reducible assumption
    | ((with_reducible apply Keeps.step (writeAt_keeps ..)); focus exact rfl)
    | ((with_reducible apply Keeps.step (wrapRec_keeps ..)); focus exact rfl)
    | with_reducible refine Keeps.fst (by assumption) ?_
    | with_reducible apply Keeps.ite
    | with_reducible apply Keeps.ite_fst
    | with_reducible refine Keeps.foldl _ (fun _ _ => ?_) ?_
    | extract_lets
    | split
    | dsimp only)

theorem finishJob_keeps (s : State) (j : Job) (o : Outcome) : Keeps (only [.jobs, .mem, .buffers]) s (finishJob s j o) := by
  unfold finishJob
  repeat' (first
    | with_reducible apply Keeps.refl
    | with_reducible assumption
    | ((with_reducible apply Keeps.step (fixOutcome_keeps ..)); focus exact rfl)
    | with_reducible apply Keeps.ite
    | with_reducible apply Keeps.ite_fst
    | with_reducible refine Keeps.foldl _ (fun _ _ => ?_) ?_
    | extract_lets
    | split
    | dsimp only)

theorem tagBad_keeps (s : State) (j : Job) (o : Outcome) : Keeps (only [.jobs, .mem, .buffers]) s (tagBad s j o) := by
  unfold tagBad
  repeat' (first
    | with_reducible apply Keeps.refl
    | with_reducible assumption
    | ((with_reducible apply Keeps.step (State.modJob_keeps ..)); focus exact rfl)
    | ((with_reducible apply Keeps.step (finishJob_keeps ..)); focus exact rfl)
    | with_reducible apply Keeps.ite
    | with_reducible apply Keeps.ite_fst
    | with_reducible refine Keeps.foldl _ (fun _ _ => ?_) ?_
    | extract_lets
    | split
    | dsimp only)

theorem endSym.openDone_keeps (s : State) (w : SymW) (j : Job) (c : Ctx) (off : Nat) (out : Bytes) (o : Outcome) : Keeps (only [.jobs, .mem, .place,
    .buffers, .entropy]) s (endSym.openDone s w j c off out o) := by
  unfold endSym.openDone
  repeat' (first
    | with_reducible apply Keeps.refl
    | with_reducible assumption
    | ((with_reducible apply Keeps.step (finishJob_keeps ..)); focus exact rfl)
    | ((with_reducible apply Keeps.step (writeBuf_keeps ..)); focus exact rfl)
    | ((with_reducible apply Keeps.step (keepSeg_keeps ..)); focus exact rfl)
    | with_reducible apply Keeps.ite
    | with_reducible apply Keeps.ite_fst
    | with_reducible refine Keeps.foldl _ (fun _ _ => ?_) ?_
    | extract_lets
    | split
    | dsimp only)

theorem endSym_keeps (s : State) (w : SymW) (j : Job) (c : Ctx) (off : Nat) (out : Bytes) : Keeps (only [.jobs, .mem, .place, .buffers, .keys,
    .entropy, .front]) s (endSym s w j c off out) := by
  unfold endSym
  repeat' (first
    | with_reducible apply Keeps.refl
    | with_reducible assumption
    | ((with_reducible apply Keeps.step (finishJob_keeps ..)); focus exact rfl)
    | ((with_reducible apply Keeps.step (writeRec_keeps ..)); focus exact rfl)
    | ((with_reducible apply Keeps.step (keepSeg_keeps ..)); focus exact rfl)
    | ((with_reducible apply Keeps.step (writeBuf_keeps ..)); focus exact rfl)
    | ((with_reducible apply Keeps.step (tagBad_keeps ..)); focus exact rfl)
    | ((with_reducible apply Keeps.step (waitWindow_keeps ..)); focus exact rfl)
    | ((with_reducible apply Keeps.step (endSym.openDone_keeps ..)); focus exact rfl)
    | ((with_reducible apply Keeps.step (markAssoc_keeps ..)); focus exact rfl)
    | with_reducible apply Keeps.ite
    | with_reducible apply Keeps.ite_fst
    | with_reducible refine Keeps.foldl _ (fun _ _ => ?_) ?_
    | extract_lets
    | split
    | dsimp only)

theorem mixedPattern_keeps (s : State) (j : Job) : Keeps (only [.alarms, .keys, .prompts]) s (mixedPattern s j) := by
  unfold mixedPattern
  repeat' (first
    | with_reducible apply Keeps.refl
    | with_reducible assumption
    | ((with_reducible apply Keeps.step (alarmC_keeps ..)); focus exact rfl)
    | ((with_reducible apply Keeps.step (State.modKeys_keeps ..)); focus exact rfl)
    | with_reducible apply Keeps.ite
    | with_reducible apply Keeps.ite_fst
    | with_reducible refine Keeps.foldl _ (fun _ _ => ?_) ?_
    | extract_lets
    | split
    | dsimp only)

theorem endCompare_keeps (s : State) (j : Job) (word : Nat) (o : Outcome) : Keeps (only [.alarms, .jobs, .mem, .buffers, .keys, .prompts]) s
    (endCompare s j word o) := by
  unfold endCompare
  repeat' (first
    | with_reducible apply Keeps.refl
    | with_reducible assumption
    | ((with_reducible apply Keeps.step (finishJob_keeps ..)); focus exact rfl)
    | ((with_reducible apply Keeps.step (mixedPattern_keeps ..)); focus exact rfl)
    | with_reducible apply Keeps.ite
    | with_reducible apply Keeps.ite_fst
    | with_reducible refine Keeps.foldl _ (fun _ _ => ?_) ?_
    | extract_lets
    | split
    | dsimp only)

theorem endDig_keeps (upset : BitVec 4) (s : State) (w : SymW) (j : Job) : Keeps (only [.alarms, .jobs, .mem, .place, .buffers, .keys, .entropy,
    .prompts]) s (endDig upset s w j) := by
  unfold endDig
  repeat' (first
    | with_reducible apply Keeps.refl
    | with_reducible assumption
    | ((with_reducible apply Keeps.step (remask_keeps ..)); focus exact rfl)
    | ((with_reducible apply Keeps.step (finishJob_keeps ..)); focus exact rfl)
    | ((with_reducible apply Keeps.step (writeRec_keeps ..)); focus exact rfl)
    | ((with_reducible apply Keeps.step (endCompare_keeps ..)); focus exact rfl)
    | ((with_reducible apply Keeps.step (writeBuf_keeps ..)); focus exact rfl)
    | with_reducible apply Keeps.ite
    | with_reducible apply Keeps.ite_fst
    | with_reducible refine Keeps.foldl _ (fun _ _ => ?_) ?_
    | extract_lets
    | split
    | dsimp only)

theorem digSeg_keeps (s : State) (w : SymW) (j : Job) : Keeps (only [.jobs, .place, .entropy]) s (digSeg s w j) := by
  unfold digSeg
  repeat' (first
    | with_reducible apply Keeps.refl
    | with_reducible assumption
    | ((with_reducible apply Keeps.step (remask_keeps ..)); focus exact rfl)
    | ((with_reducible apply Keeps.step (State.modJob_keeps ..)); focus exact rfl)
    | with_reducible apply Keeps.ite
    | with_reducible apply Keeps.ite_fst
    | with_reducible refine Keeps.foldl _ (fun _ _ => ?_) ?_
    | extract_lets
    | split
    | dsimp only)

theorem opJob_keeps {ch : Part → Bool} {s0 s : State} {id : Nat} {ops : List Nat} {last : Bool} {f : State → SymW → Job → State} (hm : within (only
    [.jobs, .mem, .buffers, .engines, .keys]) ch = true) (h0 : Keeps ch s0 s) (hf : ∀ t w j, Keeps ch t (f t w j)) : Keeps ch s0 (opJob s id ops last
    f) := by
  unfold opJob
  repeat' (first
    | with_reducible apply Keeps.refl
    | with_reducible assumption
    | ((with_reducible apply Keeps.step (stop_keeps ..)); focus exact (within_trans rfl hm))
    | ((with_reducible apply Keeps.step (issueReads_keeps ..)); focus exact (within_trans rfl hm))
    | with_reducible exact hf _
    | with_reducible exact hf _ _
    | with_reducible exact hf _ _ _
    | with_reducible refine Keeps.trans ?_ (hf _)
    | with_reducible refine Keeps.trans ?_ (hf _ _)
    | with_reducible refine Keeps.trans ?_ (hf _ _ _)
    | with_reducible apply Keeps.ite
    | with_reducible apply Keeps.ite_fst
    | with_reducible refine Keeps.foldl _ (fun _ _ => ?_) ?_
    | extract_lets
    | split
    | dsimp only)

theorem symOp_keeps (s : State) (id : Nat) (op : Nat) : Keeps (only [.jobs, .mem, .place, .buffers, .engines, .keys, .entropy, .front]) s (symOp s id
    op) := by
  unfold symOp
  repeat' (first
    | with_reducible apply Keeps.refl
    | with_reducible assumption
    | ((with_reducible apply opJob_keeps); focus exact rfl)
    | ((with_reducible apply Keeps.step (endSym_keeps ..)); focus exact rfl)
    | with_reducible intro _
    | with_reducible apply Keeps.self
    | with_reducible apply Keeps.ite
    | with_reducible apply Keeps.ite_fst
    | with_reducible refine Keeps.foldl _ (fun _ _ => ?_) ?_
    | extract_lets
    | split
    | dsimp only)

theorem queryEnd_keeps (s : State) (j : Job) : Keeps (only [.jobs, .mem, .buffers]) s (queryEnd s j) := by
  unfold queryEnd
  repeat' (first
    | with_reducible apply Keeps.refl
    | with_reducible assumption
    | ((with_reducible apply Keeps.step (finishJob_keeps ..)); focus exact rfl)
    | with_reducible apply Keeps.ite
    | with_reducible apply Keeps.ite_fst
    | with_reducible refine Keeps.foldl _ (fun _ _ => ?_) ?_
    | extract_lets
    | split
    | dsimp only)

theorem digOp_keeps (s : State) (id : Nat) (op : Nat) (upset : BitVec 4) : Keeps (only [.alarms, .jobs, .mem, .place, .buffers, .engines, .keys,
    .entropy, .prompts]) s (digOp s id op upset) := by
  unfold digOp
  repeat' (first
    | with_reducible apply Keeps.refl
    | with_reducible assumption
    | ((with_reducible apply opJob_keeps); focus exact rfl)
    | ((with_reducible apply Keeps.step (endDig_keeps ..)); focus exact rfl)
    | with_reducible intro _
    | with_reducible apply Keeps.self
    | with_reducible apply Keeps.ite
    | with_reducible apply Keeps.ite_fst
    | with_reducible refine Keeps.foldl _ (fun _ _ => ?_) ?_
    | extract_lets
    | split
    | dsimp only)

theorem compareEnd_keeps (upset : BitVec 4) (s : State) (_w : SymW) (j : Job) : Keeps (only [.alarms, .jobs, .mem, .buffers, .keys, .prompts]) s
    (compareEnd upset s _w j) := by
  unfold compareEnd
  repeat' (first
    | with_reducible apply Keeps.refl
    | with_reducible assumption
    | ((with_reducible apply Keeps.step (endCompare_keeps ..)); focus exact rfl)
    | with_reducible apply Keeps.ite
    | with_reducible apply Keeps.ite_fst
    | with_reducible refine Keeps.foldl _ (fun _ _ => ?_) ?_
    | extract_lets
    | split
    | dsimp only)

theorem hmacLoadEnd_keeps (s : State) (_w : SymW) (j : Job) : Keeps (only [.jobs, .mem, .buffers, .keys]) s (hmacLoadEnd s _w j) := by
  unfold hmacLoadEnd
  repeat' (first
    | with_reducible apply Keeps.refl
    | with_reducible assumption
    | ((with_reducible apply Keeps.step (finishJob_keeps ..)); focus exact rfl)
    | ((with_reducible apply Keeps.step (State.modKeys_keeps ..)); focus exact rfl)
    | with_reducible apply Keeps.ite
    | with_reducible apply Keeps.ite_fst
    | with_reducible refine Keeps.foldl _ (fun _ _ => ?_) ?_
    | extract_lets
    | split
    | dsimp only)

theorem hmacUnloadEnd_keeps (s : State) (_w : SymW) (j : Job) : Keeps (only [.jobs, .mem, .buffers, .keys]) s (hmacUnloadEnd s _w j) := by
  unfold hmacUnloadEnd
  repeat' (first
    | with_reducible apply Keeps.refl
    | with_reducible assumption
    | ((with_reducible apply Keeps.step (State.modKeys_keeps ..)); focus exact rfl)
    | ((with_reducible apply Keeps.step (finishJob_keeps ..)); focus exact rfl)
    | with_reducible apply Keeps.ite
    | with_reducible apply Keeps.ite_fst
    | with_reducible refine Keeps.foldl _ (fun _ _ => ?_) ?_
    | extract_lets
    | split
    | dsimp only)

end Sys2Proof.Machine
end

