-- ==== Sys2Proof/Laws/FramePkt.lean ====
section
/-! SUPPORT. Frames of Machine/Pkt: for each operation, the parts of the state it may change. -/

namespace Sys2Proof.Machine

theorem setSlot_keeps (s : State) (t : Nat) (b : Nat) (k : Nat) (e : Bytes) : Keeps (only [.front]) s (setSlot s t b k e) := by
  unfold setSlot
  repeat' (first
    | with_reducible apply Keeps.refl
    | with_reducible assumption
    | ((with_reducible apply Keeps.step (keepBucket_keeps ..)); focus exact rfl)
    | with_reducible apply Keeps.ite
    | with_reducible apply Keeps.ite_fst
    | with_reducible refine Keeps.foldl _ (fun _ _ => ?_) ?_
    | extract_lets
    | split
    | dsimp only)

theorem peerPush_keeps (s : State) (job : Option Nat) (ws : List (Nat × Bytes)) : Keeps (only [.front]) s (peerPush s job ws) := by
  unfold peerPush
  repeat' (first
    | with_reducible apply Keeps.refl
    | with_reducible assumption
    | ((with_reducible apply Keeps.step (State.modFront_keeps ..)); focus exact rfl)
    | with_reducible apply Keeps.ite
    | with_reducible apply Keeps.ite_fst
    | with_reducible refine Keeps.foldl _ (fun _ _ => ?_) ?_
    | extract_lets
    | split
    | dsimp only)

theorem peerHit_keeps (s : State) (job : Option Nat) (t : Nat) (b : Nat) (k : Nat) (key : Bytes) : Keeps (only [.front]) s (peerHit s job t b k key)
    := by
  unfold peerHit
  repeat' (first
    | with_reducible apply Keeps.refl
    | with_reducible assumption
    | ((with_reducible apply Keeps.step (peerPush_keeps ..)); focus exact rfl)
    | ((with_reducible apply Keeps.step (setSlot_keeps ..)); focus exact rfl)
    | with_reducible apply Keeps.ite
    | with_reducible apply Keeps.ite_fst
    | with_reducible refine Keeps.foldl _ (fun _ _ => ?_) ?_
    | extract_lets
    | split
    | dsimp only)

theorem peerPut_keeps (s : State) (job : Option Nat) (t : Nat) (b : Nat) (k : Nat) (e : Bytes) (after : List (Nat × Bytes)) : Keeps (only [.front]) s
    (peerPut s job t b k e after) := by
  unfold peerPut
  repeat' (first
    | with_reducible apply Keeps.refl
    | with_reducible assumption
    | ((with_reducible apply Keeps.step (peerPush_keeps ..)); focus exact rfl)
    | ((with_reducible apply Keeps.step (setSlot_keeps ..)); focus exact rfl)
    | with_reducible apply Keeps.ite
    | with_reducible apply Keeps.ite_fst
    | with_reducible refine Keeps.foldl _ (fun _ _ => ?_) ?_
    | extract_lets
    | split
    | dsimp only)

theorem peerInsert_done {s t : State} {job : Option Nat} {n : Nat} {key e : Bytes} {after : List (Nat × Bytes)} (h : peerInsert s job n key e after =
    .done t) : Keeps (only [.front]) s t := by
  unfold peerInsert at h
  dsimp only at h
  (repeat' split at h) <;> (try cases h) <;> try exact .refl _
  all_goals repeat' (first
    | with_reducible apply Keeps.refl
    | with_reducible assumption
    | ((with_reducible apply Keeps.step (peerHit_keeps ..)); focus exact rfl)
    | ((with_reducible apply Keeps.step (peerPut_keeps ..)); focus exact rfl)
    | ((with_reducible apply Keeps.step (setSlot_keeps ..)); focus exact rfl)
    | with_reducible apply Keeps.ite
    | with_reducible apply Keeps.ite_fst
    | with_reducible refine Keeps.foldl _ (fun _ _ => ?_) ?_
    | extract_lets
    | split
    | dsimp only)

theorem excCopy_keeps (s : State) (job : Nat) (p : Pkt) : Keeps (only [.mem, .front]) s (excCopy s job p) := by
  unfold excCopy
  repeat' (first
    | with_reducible apply Keeps.refl
    | with_reducible assumption
    | ((with_reducible apply Keeps.step (State.modFront_keeps ..)); focus exact rfl)
    | ((with_reducible apply Keeps.step (addWrite_keeps ..)); focus exact rfl)
    | with_reducible apply Keeps.ite
    | with_reducible apply Keeps.ite_fst
    | with_reducible refine Keeps.foldl _ (fun _ _ => ?_) ?_
    | extract_lets
    | split
    | dsimp only)

theorem excAcked_keeps (s : State) : Keeps (only [.front, .prompts]) s (excAcked s) := by
  unfold excAcked
  repeat' (first
    | with_reducible apply Keeps.refl
    | with_reducible assumption
    | ((with_reducible apply Keeps.step (State.modFront_keeps ..)); focus exact rfl)
    | ((with_reducible apply Keeps.step (vector_keeps ..)); focus exact rfl)
    | with_reducible apply Keeps.ite
    | with_reducible apply Keeps.ite_fst
    | with_reducible refine Keeps.foldl _ (fun _ _ => ?_) ?_
    | extract_lets
    | split
    | dsimp only)

theorem modPkt_keeps (s : State) (id : Nat) (f : Pkt → Pkt) : Keeps (only [.jobs]) s (modPkt s id f) := by
  unfold modPkt
  repeat' (first
    | with_reducible apply Keeps.refl
    | with_reducible assumption
    | ((with_reducible apply Keeps.step (State.modJob_keeps ..)); focus exact rfl)
    | with_reducible apply Keeps.ite
    | with_reducible apply Keeps.ite_fst
    | with_reducible refine Keeps.foldl _ (fun _ _ => ?_) ?_
    | extract_lets
    | split
    | dsimp only)

theorem learn_keeps (s : State) (j : Job) (p : Pkt) : OptKeeps (only [.jobs, .mem, .front, .prompts]) s (learn s j p) := by
  unfold learn
  repeat' (first
    | with_reducible apply Keeps.refl
    | with_reducible assumption
    | with_reducible exact OptKeeps.none
    | with_reducible apply OptKeeps.some
    | ((with_reducible apply Keeps.step (peerHit_keeps ..)); focus exact rfl)
    | with_reducible refine Keeps.step (peerInsert_done (by assumption)) (by decide) ?_
    | ((with_reducible apply Keeps.step (State.modFront_keeps ..)); focus exact rfl)
    | ((with_reducible apply Keeps.step (modPkt_keeps ..)); focus exact rfl)
    | ((with_reducible apply Keeps.step (excCopy_keeps ..)); focus exact rfl)
    | ((with_reducible apply Keeps.step (vector_keeps ..)); focus exact rfl)
    | with_reducible apply Keeps.ite
    | with_reducible apply Keeps.ite_fst
    | with_reducible refine Keeps.foldl _ (fun _ _ => ?_) ?_
    | extract_lets
    | split
    | dsimp only)

theorem strangerCk_ck {ch : Part → Bool} {s0 : State} {s : State} {j : Job} (hm : within (only [.seats, .jobs, .mem, .buffers, .engines, .keys,
    .front]) ch = true) (h0 : Keeps ch s0 s) : CkOk (OfState ch s0) (Keeps ch s0) (strangerCk s j) := by
  unfold strangerCk
  repeat' (first
    | with_reducible apply Keeps.refl
    | with_reducible assumption
    | with_reducible exact ofAny _
    | with_reducible apply ck_ite
    | with_reducible exact CkOk.need
    | with_reducible exact CkOk.fail
    | with_reducible apply ck_ok
    | with_reducible apply ck_pure
    | with_reducible apply CkOk.waits
    | with_reducible refine ck_bindState ?_ (fun _ _ => ?_)
    | with_reducible refine ck_bindPair ?_ (fun _ _ _ => ?_)
    | with_reducible refine ck_bindAny ?_ (fun _ => ?_)
    | with_reducible apply OfState.mk
    | with_reducible apply ofPair
    | ((with_reducible apply Keeps.step (State.modSeat_keeps ..)); focus exact (within_trans rfl hm))
    | ((with_reducible apply Keeps.step (State.modFront_keeps ..)); focus exact (within_trans rfl hm))
    | ((with_reducible apply Keeps.step (failJob_keeps ..)); focus exact (within_trans rfl hm))
    | with_reducible apply Keeps.ite
    | with_reducible apply Keeps.ite_fst
    | with_reducible refine Keeps.foldl _ (fun _ _ => ?_) ?_
    | extract_lets
    | split
    | dsimp only)

theorem peersIn_ck {ch : Part → Bool} {s0 : State} {s : State} {p : Pkt} (hm : within (only []) ch = true) (h0 : Keeps ch s0 s) : CkOk OfAny (Keeps ch
    s0) (peersIn s p) := by
  unfold peersIn
  repeat' (first
    | with_reducible apply Keeps.refl
    | with_reducible assumption
    | with_reducible exact ofAny _
    | with_reducible apply ck_ite
    | with_reducible exact CkOk.need
    | with_reducible exact CkOk.fail
    | with_reducible apply ck_ok
    | with_reducible apply ck_pure
    | with_reducible apply CkOk.waits
    | with_reducible refine ck_bindState ?_ (fun _ _ => ?_)
    | with_reducible refine ck_bindPair ?_ (fun _ _ _ => ?_)
    | with_reducible refine ck_bindAny ?_ (fun _ => ?_)
    | with_reducible apply OfState.mk
    | with_reducible apply ofPair
    | with_reducible apply Keeps.ite
    | with_reducible apply Keeps.ite_fst
    | with_reducible refine Keeps.foldl _ (fun _ _ => ?_) ?_
    | extract_lets
    | split
    | dsimp only)

theorem lookedUp_keeps (s : State) (id : Nat) (known : Bool) : Keeps (only [.jobs]) s (lookedUp s id known) := by
  unfold lookedUp
  repeat' (first
    | with_reducible apply Keeps.refl
    | with_reducible assumption
    | ((with_reducible apply Keeps.step (modPkt_keeps ..)); focus exact rfl)
    | with_reducible apply Keeps.ite
    | with_reducible apply Keeps.ite_fst
    | with_reducible refine Keeps.foldl _ (fun _ _ => ?_) ?_
    | extract_lets
    | split
    | dsimp only)

theorem lookupCk_ck {ch : Part → Bool} {s0 : State} {s : State} {j : Job} {p : Pkt} {a : Assoc} (hm : within (only [.seats, .jobs, .mem, .buffers,
    .engines, .keys, .front]) ch = true) (h0 : Keeps ch s0 s) : CkOk (OfState ch s0) (Keeps ch s0) (lookupCk s j p a) := by
  unfold lookupCk
  repeat' (first
    | with_reducible apply Keeps.refl
    | with_reducible assumption
    | ((with_reducible apply peersIn_ck); focus exact (within_trans rfl hm))
    | ((with_reducible apply chkWait_ck); focus exact (within_trans rfl hm))
    | ((with_reducible apply strangerCk_ck); focus exact (within_trans rfl hm))
    | with_reducible refine ck_any (p := OfState _ _) ?_
    | with_reducible exact ofAny _
    | with_reducible apply ck_ite
    | with_reducible exact CkOk.need
    | with_reducible exact CkOk.fail
    | with_reducible apply ck_ok
    | with_reducible apply ck_pure
    | with_reducible apply CkOk.waits
    | with_reducible refine ck_bindState ?_ (fun _ _ => ?_)
    | with_reducible refine ck_bindPair ?_ (fun _ _ _ => ?_)
    | with_reducible refine ck_bindAny ?_ (fun _ => ?_)
    | with_reducible apply OfState.mk
    | with_reducible apply ofPair
    | ((with_reducible apply Keeps.step (lookedUp_keeps ..)); focus exact (within_trans rfl hm))
    | with_reducible refine ck_waits ?_ (by assumption)
    | with_reducible refine ck_okState ?_ (by assumption)
    | with_reducible apply Keeps.ite
    | with_reducible apply Keeps.ite_fst
    | with_reducible refine Keeps.foldl _ (fun _ _ => ?_) ?_
    | extract_lets
    | split
    | dsimp only)

theorem pktOrder_ck {ch : Part → Bool} {s0 : State} {s : State} {j : Job} {p : Pkt} {a : Assoc} (hm : within (only [.jobs, .mem, .buffers, .engines,
    .keys, .front]) ch = true) (h0 : Keeps ch s0 s) : CkOk OfAny (Keeps ch s0) (pktOrder s j p a) := by
  unfold pktOrder
  repeat' (first
    | with_reducible apply Keeps.refl
    | with_reducible assumption
    | with_reducible exact ofAny _
    | with_reducible apply ck_ite
    | with_reducible exact CkOk.need
    | with_reducible exact CkOk.fail
    | with_reducible apply ck_ok
    | with_reducible apply ck_pure
    | with_reducible apply CkOk.waits
    | with_reducible refine ck_bindState ?_ (fun _ _ => ?_)
    | with_reducible refine ck_bindPair ?_ (fun _ _ _ => ?_)
    | with_reducible refine ck_bindAny ?_ (fun _ => ?_)
    | with_reducible apply OfState.mk
    | with_reducible apply ofPair
    | with_reducible refine Keeps.step (issueNonce_issued (by assumption)) (within_trans (by decide) hm) ?_
    | with_reducible refine Keeps.step (issueNonce_sealed (by assumption)) (within_trans (by decide) hm) ?_
    | with_reducible refine Keeps.step (issueNonce_wait (by assumption)) (within_trans (by decide) hm) ?_
    | ((with_reducible apply Keeps.step (failJob_keeps ..)); focus exact (within_trans rfl hm))
    | ((with_reducible apply Keeps.step (State.modJob_keeps ..)); focus exact (within_trans rfl hm))
    | with_reducible apply Keeps.ite
    | with_reducible apply Keeps.ite_fst
    | with_reducible refine Keeps.foldl _ (fun _ _ => ?_) ?_
    | extract_lets
    | split
    | dsimp only)

theorem pktKey_ck {ch : Part → Bool} {s0 : State} {s : State} {j : Job} {h : Nat} {b : Nat} (hm : within (only [.jobs, .mem, .buffers, .keys]) ch =
    true) (h0 : Keeps ch s0 s) : CkOk (OfPair ch s0) (Keeps ch s0) (pktKey s j h b) := by
  unfold pktKey
  repeat' (first
    | with_reducible apply Keeps.refl
    | with_reducible assumption
    | ((with_reducible apply bayKey_ck); focus exact (within_trans rfl hm))
    | with_reducible refine ck_any (p := OfPair _ _) ?_
    | with_reducible exact ofAny _
    | with_reducible apply ck_ite
    | with_reducible exact CkOk.need
    | with_reducible exact CkOk.fail
    | with_reducible apply ck_ok
    | with_reducible apply ck_pure
    | with_reducible apply CkOk.waits
    | with_reducible refine ck_bindState ?_ (fun _ _ => ?_)
    | with_reducible refine ck_bindPair ?_ (fun _ _ _ => ?_)
    | with_reducible refine ck_bindAny ?_ (fun _ => ?_)
    | with_reducible apply OfState.mk
    | with_reducible apply ofPair
    | ((with_reducible apply Keeps.step (issueReads_keeps ..)); focus exact (within_trans rfl hm))
    | with_reducible refine ck_okPair ?_ (by assumption)
    | with_reducible refine ck_waits ?_ (by assumption)
    | with_reducible apply Keeps.ite
    | with_reducible apply Keeps.ite_fst
    | with_reducible refine Keeps.foldl _ (fun _ _ => ?_) ?_
    | extract_lets
    | split
    | dsimp only)

theorem startPkt_ck {ch : Part → Bool} {s0 : State} {s : State} {j : Job} {p : Pkt} {b : Nat} (hm : within (only [.seats, .jobs, .mem, .place,
    .buffers, .engines, .keys, .entropy, .front]) ch = true) (h0 : Keeps ch s0 s) : CkOk (OfState ch s0) (Keeps ch s0) (startPkt s j p b) := by
  unfold startPkt
  repeat' (first
    | with_reducible apply Keeps.refl
    | with_reducible assumption
    | ((with_reducible apply assocCk_ck); focus exact (within_trans rfl hm))
    | with_reducible refine ck_any (p := OfPair _ _) ?_
    | ((with_reducible apply bayAttr_ck); focus exact (within_trans rfl hm))
    | ((with_reducible apply keepOn_ck); focus exact (within_trans rfl hm))
    | ((with_reducible apply classCk_ck); focus exact (within_trans rfl hm))
    | ((with_reducible apply expiryCk_ck); focus exact (within_trans rfl hm))
    | with_reducible apply ckIf_ck
    | ((with_reducible apply noDraws_ck); focus exact (within_trans rfl hm))
    | with_reducible apply chk_ck
    | ((with_reducible apply lookupCk_ck); focus exact (within_trans rfl hm))
    | with_reducible refine ck_any (p := OfState _ _) ?_
    | ((with_reducible apply pktOrder_ck); focus exact (within_trans rfl hm))
    | ((with_reducible apply pktKey_ck); focus exact (within_trans rfl hm))
    | ((with_reducible apply drawMasks_ck); focus exact (within_trans rfl hm))
    | ((with_reducible apply nonceCk_ck); focus exact (within_trans rfl hm))
    | ((with_reducible apply useCk_ck); focus exact (within_trans rfl hm))
    | with_reducible exact ofAny _
    | with_reducible apply ck_ite
    | with_reducible exact CkOk.need
    | with_reducible exact CkOk.fail
    | with_reducible apply ck_ok
    | with_reducible apply ck_pure
    | with_reducible apply CkOk.waits
    | with_reducible refine ck_bindState ?_ (fun _ _ => ?_)
    | with_reducible refine ck_bindPair ?_ (fun _ _ _ => ?_)
    | with_reducible refine ck_bindAny ?_ (fun _ => ?_)
    | with_reducible apply OfState.mk
    | with_reducible apply ofPair
    | ((with_reducible apply Keeps.step (laneKeep_keeps ..)); focus exact (within_trans rfl hm))
    | ((with_reducible apply Keeps.step (State.modJob_keeps ..)); focus exact (within_trans rfl hm))
    | ((with_reducible apply Keeps.step (modPkt_keeps ..)); focus exact (within_trans rfl hm))
    | with_reducible refine ck_okPair ?_ (by assumption)
    | with_reducible refine ck_waits ?_ (by assumption)
    | with_reducible refine ck_okState ?_ (by assumption)
    | with_reducible apply Keeps.ite
    | with_reducible apply Keeps.ite_fst
    | with_reducible refine Keeps.foldl _ (fun _ _ => ?_) ?_
    | extract_lets
    | split
    | dsimp only)

theorem pktOk_keeps (s : State) (j : Job) (out : Bytes) (len : Nat) (nxt : Nat) : Keeps (only [.jobs, .mem, .place, .buffers]) s (pktOk s j out len
    nxt) := by
  unfold pktOk
  repeat' (first
    | with_reducible apply Keeps.refl
    | with_reducible assumption
    | ((with_reducible apply Keeps.step (laneKeep_keeps ..)); focus exact rfl)
    | ((with_reducible apply Keeps.step (modPkt_keeps ..)); focus exact rfl)
    | ((with_reducible apply Keeps.step (fixOutcome_keeps ..)); focus exact rfl)
    | with_reducible apply Keeps.ite
    | with_reducible apply Keeps.ite_fst
    | with_reducible refine Keeps.foldl _ (fun _ _ => ?_) ?_
    | extract_lets
    | split
    | dsimp only)

theorem pktSeal_keeps (s : State) (j : Job) (p : Pkt) (a : Assoc) : Keeps (only [.jobs, .mem, .place, .buffers]) s (pktSeal s j p a) := by
  unfold pktSeal
  repeat' (first
    | with_reducible apply Keeps.refl
    | with_reducible assumption
    | ((with_reducible apply Keeps.step (pktOk_keeps ..)); focus exact rfl)
    | with_reducible apply Keeps.ite
    | with_reducible apply Keeps.ite_fst
    | with_reducible refine Keeps.foldl _ (fun _ _ => ?_) ?_
    | extract_lets
    | split
    | dsimp only)

theorem pktOpen_keeps (s : State) (j : Job) (p : Pkt) (a : Assoc) : Keeps (only [.jobs, .mem, .place, .buffers, .front, .prompts, .freeCount]) s
    (pktOpen s j p a) := by
  unfold pktOpen
  repeat' (first
    | with_reducible apply Keeps.refl
    | with_reducible assumption
    | ((with_reducible apply Keeps.step (fixOutcome_keeps ..)); focus exact rfl)
    | ((with_reducible apply Keeps.step (waitWindow_keeps ..)); focus exact rfl)
    | ((with_reducible apply Keeps.step (markAssoc_keeps ..)); focus exact rfl)
    | ((with_reducible apply Keeps.step (takeFree_keeps ..)); focus exact rfl)
    | ((with_reducible apply Keeps.step (pktOk_keeps ..)); focus exact rfl)
    | ((with_reducible apply OptKeeps.step (learn_keeps ..)); focus exact rfl)
    | ((with_reducible apply Keeps.step (issueReads_keeps ..)); focus exact rfl)
    | with_reducible refine Keeps.fst (by assumption) ?_
    | with_reducible refine OptKeeps.get ?_ (by assumption)
    | with_reducible apply OptKeeps.some
    | with_reducible apply Keeps.ite
    | with_reducible apply Keeps.ite_fst
    | with_reducible refine Keeps.foldl _ (fun _ _ => ?_) ?_
    | extract_lets
    | split
    | dsimp only)

theorem pktOp_keeps (s : State) (id : Nat) (op : Nat) : Keeps (only [.jobs, .mem, .place, .buffers, .front, .prompts, .freeCount]) s (pktOp s id op)
    := by
  unfold pktOp
  repeat' (first
    | with_reducible apply Keeps.refl
    | with_reducible assumption
    | ((with_reducible apply Keeps.step (pktSeal_keeps ..)); focus exact rfl)
    | ((with_reducible apply Keeps.step (pktOpen_keeps ..)); focus exact rfl)
    | with_reducible apply Keeps.ite
    | with_reducible apply Keeps.ite_fst
    | with_reducible refine Keeps.foldl _ (fun _ _ => ?_) ?_
    | extract_lets
    | split
    | dsimp only)

end Sys2Proof.Machine
end

