-- ==== Sys2Proof/Laws/FrameAssocJob.lean ====
section
/-! SUPPORT. Frames of Machine/AssocJob: for each operation, the parts of the state it may change. -/

namespace Sys2Proof.Machine

theorem entryNow_ck {ch : Part → Bool} {s0 : State} {s : State} {j : Job} {stage : Nat} (hm : within (only []) ch = true) (h0 : Keeps ch s0 s) : CkOk
    OfAny (Keeps ch s0) (entryNow s j stage) := by
  unfold entryNow
  repeat' (first
    | with_reducible apply Keeps.refl
    | with_reducible assumption
    | with_reducible apply needBytes_ck
    | with_reducible exact ofAny _
    | with_reducible apply ck_ite
    | with_reducible exact CkOk.need
    | with_reducible exact CkOk.fail
    | with_reducible apply ck_ok
    | with_reducible apply ck_pure
    | with_reducible apply CkOk.waits
    | with_reducible refine ck_bindState ?_ (fun _ _ => ?_)
    | with_reducible refine ck_bindPair ?_ (fun _ _ _ => ?_)
    | with_reducible refine ck_bindAny ?_ (fun _ => ?_)
    | with_reducible apply OfState.mk
    | with_reducible apply ofPair
    | with_reducible refine ck_waits ?_ (by assumption)
    | with_reducible apply Keeps.ite
    | with_reducible apply Keeps.ite_fst
    | with_reducible refine Keeps.foldl _ (fun _ _ => ?_) ?_
    | extract_lets
    | split
    | dsimp only)

theorem assocJobCk_ck {ch : Part → Bool} {s0 : State} {s : State} {j : Job} {stage : Nat} (hm : within (only []) ch = true) (h0 : Keeps ch s0 s) :
    CkOk OfAny (Keeps ch s0) (assocJobCk s j stage) := by
  unfold assocJobCk
  repeat' (first
    | with_reducible apply Keeps.refl
    | with_reducible assumption
    | with_reducible apply chk_ck
    | ((with_reducible apply entryNow_ck); focus exact (within_trans rfl hm))
    | with_reducible exact ofAny _
    | with_reducible apply ck_ite
    | with_reducible exact CkOk.need
    | with_reducible exact CkOk.fail
    | with_reducible apply ck_ok
    | with_reducible apply ck_pure
    | with_reducible apply CkOk.waits
    | with_reducible refine ck_bindState ?_ (fun _ _ => ?_)
    | with_reducible refine ck_bindPair ?_ (fun _ _ _ => ?_)
    | with_reducible refine ck_bindAny ?_ (fun _ => ?_)
    | with_reducible apply OfState.mk
    | with_reducible apply ofPair
    | with_reducible refine ck_waits ?_ (by assumption)
    | with_reducible apply Keeps.ite
    | with_reducible apply Keeps.ite_fst
    | with_reducible refine Keeps.foldl _ (fun _ _ => ?_) ?_
    | extract_lets
    | split
    | dsimp only)

theorem assocKeyCk_ck {ch : Part → Bool} {s0 : State} {s : State} {j : Job} (hm : within (only [.mem, .keys]) ch = true) (h0 : Keeps ch s0 s) : CkOk
    (OfPair ch s0) (Keeps ch s0) (assocKeyCk s j) := by
  unfold assocKeyCk
  repeat' (first
    | with_reducible apply Keeps.refl
    | with_reducible assumption
    | ((with_reducible apply keyCk_ck); focus exact (within_trans rfl hm))
    | with_reducible refine ck_any (p := OfPair _ _) ?_
    | with_reducible exact ofAny _
    | with_reducible apply ck_ite
    | with_reducible exact CkOk.need
    | with_reducible exact CkOk.fail
    | with_reducible apply ck_ok
    | with_reducible apply ck_pure
    | with_reducible apply CkOk.waits
    | with_reducible refine ck_bindState ?_ (fun _ _ => ?_)
    | with_reducible refine ck_bindPair ?_ (fun _ _ _ => ?_)
    | with_reducible refine ck_bindAny ?_ (fun _ => ?_)
    | with_reducible apply OfState.mk
    | with_reducible apply ofPair
    | with_reducible refine ck_okPair ?_ (by assumption)
    | with_reducible refine ck_waits ?_ (by assumption)
    | with_reducible apply Keeps.ite
    | with_reducible apply Keeps.ite_fst
    | with_reducible refine Keeps.foldl _ (fun _ _ => ?_) ?_
    | extract_lets
    | split
    | dsimp only)

theorem assocJobAttr_ck {ch : Part → Bool} {s0 : State} {s : State} {j : Job} {a : Assoc} {attr : Nat} (hm : within (only [.mem, .keys]) ch = true)
    (h0 : Keeps ch s0 s) : CkOk (OfPair ch s0) (Keeps ch s0) (assocJobAttr s j a attr) := by
  unfold assocJobAttr
  repeat' (first
    | with_reducible apply Keeps.refl
    | with_reducible assumption
    | ((with_reducible apply assocAttr_ck); focus exact (within_trans rfl hm))
    | with_reducible refine ck_any (p := OfPair _ _) ?_
    | with_reducible exact ofAny _
    | with_reducible apply ck_ite
    | with_reducible exact CkOk.need
    | with_reducible exact CkOk.fail
    | with_reducible apply ck_ok
    | with_reducible apply ck_pure
    | with_reducible apply CkOk.waits
    | with_reducible refine ck_bindState ?_ (fun _ _ => ?_)
    | with_reducible refine ck_bindPair ?_ (fun _ _ _ => ?_)
    | with_reducible refine ck_bindAny ?_ (fun _ => ?_)
    | with_reducible apply OfState.mk
    | with_reducible apply ofPair
    | with_reducible refine ck_okPair ?_ (by assumption)
    | with_reducible refine ck_waits ?_ (by assumption)
    | with_reducible apply Keeps.ite
    | with_reducible apply Keeps.ite_fst
    | with_reducible refine Keeps.foldl _ (fun _ _ => ?_) ?_
    | extract_lets
    | split
    | dsimp only)

theorem placeAssocJob_keeps (s : State) (j : Job) (a : Assoc) (attr : Nat) : Keeps (only [.seats, .jobs, .mem, .place, .buffers, .engines, .keys,
    .front]) s (placeAssocJob s j a attr) := by
  unfold placeAssocJob
  repeat' (first
    | with_reducible apply Keeps.refl
    | with_reducible assumption
    | ((with_reducible apply Keeps.step (noUnit_keeps ..)); focus exact rfl)
    | ((with_reducible apply Keeps.step (homeFor_keeps ..)); focus exact rfl)
    | ((with_reducible apply Keeps.step (queueBay_keeps ..)); focus exact rfl)
    | ((with_reducible apply Keeps.step (State.modJob_keeps ..)); focus exact rfl)
    | with_reducible refine Keeps.fst (by assumption) ?_
    | with_reducible apply Keeps.ite
    | with_reducible apply Keeps.ite_fst
    | with_reducible refine Keeps.foldl _ (fun _ _ => ?_) ?_
    | extract_lets
    | split
    | dsimp only)

theorem assocJobPlace_ck {ch : Part → Bool} {s0 : State} {s : State} {j : Job} (hm : within (only [.seats, .jobs, .mem, .place, .buffers, .engines,
    .keys, .front]) ch = true) (h0 : Keeps ch s0 s) : CkOk (OfState ch s0) (Keeps ch s0) (assocJobPlace s j) := by
  unfold assocJobPlace
  repeat' (first
    | with_reducible apply Keeps.refl
    | with_reducible assumption
    | with_reducible apply chk_ck
    | ((with_reducible apply assocJobCk_ck); focus exact (within_trans rfl hm))
    | ((with_reducible apply assocKeyCk_ck); focus exact (within_trans rfl hm))
    | with_reducible refine ck_any (p := OfPair _ _) ?_
    | ((with_reducible apply assocJobAttr_ck); focus exact (within_trans rfl hm))
    | with_reducible exact ofAny _
    | with_reducible apply ck_ite
    | with_reducible exact CkOk.need
    | with_reducible exact CkOk.fail
    | with_reducible apply ck_ok
    | with_reducible apply ck_pure
    | with_reducible apply CkOk.waits
    | with_reducible refine ck_bindState ?_ (fun _ _ => ?_)
    | with_reducible refine ck_bindPair ?_ (fun _ _ _ => ?_)
    | with_reducible refine ck_bindAny ?_ (fun _ => ?_)
    | with_reducible apply OfState.mk
    | with_reducible apply ofPair
    | ((with_reducible apply Keeps.step (placeAssocJob_keeps ..)); focus exact (within_trans rfl hm))
    | with_reducible refine ck_waits ?_ (by assumption)
    | with_reducible refine ck_okPair ?_ (by assumption)
    | with_reducible apply Keeps.ite
    | with_reducible apply Keeps.ite_fst
    | with_reducible refine Keeps.foldl _ (fun _ _ => ?_) ?_
    | extract_lets
    | split
    | dsimp only)

theorem startAssocJob_ck {ch : Part → Bool} {s0 : State} {s : State} {j : Job} (hm : within (only [.jobs]) ch = true) (h0 : Keeps ch s0 s) : CkOk
    (OfState ch s0) (Keeps ch s0) (startAssocJob s j) := by
  unfold startAssocJob
  repeat' (first
    | with_reducible apply Keeps.refl
    | with_reducible assumption
    | ((with_reducible apply chkWait_ck); focus exact (within_trans rfl hm))
    | ((with_reducible apply assocJobCk_ck); focus exact (within_trans rfl hm))
    | with_reducible exact ofAny _
    | with_reducible apply ck_ite
    | with_reducible exact CkOk.need
    | with_reducible exact CkOk.fail
    | with_reducible apply ck_ok
    | with_reducible apply ck_pure
    | with_reducible apply CkOk.waits
    | with_reducible refine ck_bindState ?_ (fun _ _ => ?_)
    | with_reducible refine ck_bindPair ?_ (fun _ _ _ => ?_)
    | with_reducible refine ck_bindAny ?_ (fun _ => ?_)
    | with_reducible apply OfState.mk
    | with_reducible apply ofPair
    | ((with_reducible apply Keeps.step (State.modJob_keeps ..)); focus exact (within_trans rfl hm))
    | with_reducible refine ck_waits ?_ (by assumption)
    | with_reducible apply Keeps.ite
    | with_reducible apply Keeps.ite_fst
    | with_reducible refine Keeps.foldl _ (fun _ _ => ?_) ?_
    | extract_lets
    | split
    | dsimp only)

theorem assocJobRun_keeps (s : State) (j : Job) : Keeps (only [.jobs, .mem, .front]) s (assocJobRun s j) := by
  unfold assocJobRun
  repeat' (first
    | with_reducible apply Keeps.refl
    | with_reducible assumption
    | ((with_reducible apply Keeps.step (dropAssoc_keeps ..)); focus exact rfl)
    | ((with_reducible apply Keeps.step (writeAt_keeps ..)); focus exact rfl)
    | ((with_reducible apply Keeps.step (State.modJob_keeps ..)); focus exact rfl)
    | with_reducible apply Keeps.ite
    | with_reducible apply Keeps.ite_fst
    | with_reducible refine Keeps.foldl _ (fun _ _ => ?_) ?_
    | extract_lets
    | split
    | dsimp only)

theorem assocJobEnd_keeps (s : State) (j : Job) : Keeps (only [.jobs, .mem, .buffers]) s (assocJobEnd s j) := by
  unfold assocJobEnd
  repeat' (first
    | with_reducible apply Keeps.refl
    | with_reducible assumption
    | ((with_reducible apply Keeps.step (writeAt_keeps ..)); focus exact rfl)
    | ((with_reducible apply Keeps.step (fixOutcome_keeps ..)); focus exact rfl)
    | with_reducible apply Keeps.ite
    | with_reducible apply Keeps.ite_fst
    | with_reducible refine Keeps.foldl _ (fun _ _ => ?_) ?_
    | extract_lets
    | split
    | dsimp only)

theorem assocJobOp_keeps (s : State) (id : Nat) (op : Nat) : Keeps (only [.jobs, .mem, .buffers, .engines, .keys, .front]) s (assocJobOp s id op) :=
    by
  unfold assocJobOp
  repeat' (first
    | with_reducible apply Keeps.refl
    | with_reducible assumption
    | ((with_reducible apply Keeps.step (stop_keeps ..)); focus exact rfl)
    | ((with_reducible apply Keeps.step (assocJobRun_keeps ..)); focus exact rfl)
    | with_reducible apply Keeps.ite
    | with_reducible apply Keeps.ite_fst
    | with_reducible refine Keeps.foldl _ (fun _ _ => ?_) ?_
    | extract_lets
    | split
    | dsimp only)

end Sys2Proof.Machine
end

