-- ==== Sys2Proof/Laws/FrameBay.lean ====
section
/-! SUPPORT. Frames of Machine/Bay: for each operation, the parts of the state it may change. -/

namespace Sys2Proof.Machine

theorem haveRegion_keeps (s : State) (b : Nat) (j : Job) : Keeps (only [.buffers]) s (haveRegion s b j) := by
  unfold haveRegion
  repeat' (first
    | with_reducible apply Keeps.refl
    | with_reducible assumption
    | ((with_reducible apply Keeps.step (takeRegion_keeps ..)); focus exact rfl)
    | with_reducible apply Keeps.ite
    | with_reducible apply Keeps.ite_fst
    | with_reducible refine Keeps.foldl _ (fun _ _ => ?_) ?_
    | extract_lets
    | split
    | dsimp only)

theorem laneTake_keeps (s : State) (b : Nat) (l : Nat) (seat : Nat) : Keeps (only [.place]) s (laneTake s b l seat) := by
  unfold laneTake
  repeat' (first
    | with_reducible apply Keeps.refl
    | with_reducible assumption
    | ((with_reducible apply Keeps.step (State.modBay_keeps ..)); focus exact rfl)
    | with_reducible apply Keeps.ite
    | with_reducible apply Keeps.ite_fst
    | with_reducible refine Keeps.foldl _ (fun _ _ => ?_) ?_
    | extract_lets
    | split
    | dsimp only)

theorem wrapSpill_keeps (s : State) (j : Job) (b : Nat) (k : Nat) : Keeps (only [.jobs, .mem, .place, .buffers, .keys]) s (wrapSpill s j b k) := by
  unfold wrapSpill
  repeat' (first
    | with_reducible apply Keeps.refl
    | with_reducible assumption
    | ((with_reducible apply Keeps.step (wrapRec_keeps ..)); focus exact rfl)
    | ((with_reducible apply Keeps.step (addWrite_keeps ..)); focus exact rfl)
    | ((with_reducible apply Keeps.step (State.modKeys_keeps ..)); focus exact rfl)
    | ((with_reducible apply Keeps.step (State.modJob_keeps ..)); focus exact rfl)
    | with_reducible refine Keeps.fst (by assumption) ?_
    | with_reducible apply Keeps.ite
    | with_reducible apply Keeps.ite_fst
    | with_reducible refine Keeps.foldl _ (fun _ _ => ?_) ?_
    | extract_lets
    | split
    | dsimp only
    | ((with_reducible apply Keeps.upd) <;> first | exact .inl rfl | exact .inr rfl | skip))

theorem spillJob_keeps (s : State) (j : Job) (b : Nat) : Keeps (only [.alarms, .jobs, .mem, .place, .buffers, .keys, .prompts]) s (spillJob s j b) :=
    by
  unfold spillJob
  repeat' (first
    | with_reducible apply Keeps.refl
    | with_reducible assumption
    | ((with_reducible apply Keeps.step (wrapSpill_keeps ..)); focus exact rfl)
    | ((with_reducible apply Keeps.step (State.modJob_keeps ..)); focus exact rfl)
    | ((with_reducible apply Keeps.step (alarmC_keeps ..)); focus exact rfl)
    | ((with_reducible apply Keeps.step (State.modKeys_keeps ..)); focus exact rfl)
    | with_reducible apply Keeps.ite
    | with_reducible apply Keeps.ite_fst
    | with_reducible refine Keeps.foldl _ (fun _ _ => ?_) ?_
    | extract_lets
    | split
    | dsimp only)

theorem spillAcked_keeps (s : State) (id : Nat) : Keeps (only [.jobs, .buffers]) s (spillAcked s id) := by
  unfold spillAcked
  repeat' (first
    | with_reducible apply Keeps.refl
    | with_reducible assumption
    | ((with_reducible apply Keeps.step (State.modJob_keeps ..)); focus exact rfl)
    | ((with_reducible apply Keeps.step (freeRegion_keeps ..)); focus exact rfl)
    | with_reducible apply Keeps.ite
    | with_reducible apply Keeps.ite_fst
    | with_reducible refine Keeps.foldl _ (fun _ _ => ?_) ?_
    | extract_lets
    | split
    | dsimp only)

theorem unspill_keeps (s : State) (j : Job) (k : Nat) (b : Bytes) : Keeps (only [.jobs, .mem, .buffers, .engines, .keys]) s (unspill s j k b) := by
  unfold unspill
  repeat' (first
    | with_reducible apply Keeps.refl
    | with_reducible assumption
    | ((with_reducible apply Keeps.step (holdSeatKeys_keeps ..)); focus exact rfl)
    | ((with_reducible apply Keeps.step (State.modJob_keeps ..)); focus exact rfl)
    | ((with_reducible apply Keeps.step (freeSpill_keeps ..)); focus exact rfl)
    | ((with_reducible apply Keeps.step (failJob_keeps ..)); focus exact rfl)
    | with_reducible apply Keeps.ite
    | with_reducible apply Keeps.ite_fst
    | with_reducible refine Keeps.foldl _ (fun _ _ => ?_) ?_
    | extract_lets
    | split
    | dsimp only)

theorem runCk_keeps {ch : Part → Bool} {s0 s : State} {j : Job} {c : Ck State} (hm : within (only [.jobs, .mem, .buffers, .engines, .keys]) ch = true)
    (h0 : Keeps ch s0 s) (hc : CkOk (OfState ch s0) (Keeps ch s0) c) : Keeps ch s0 (runCk s j c) := by
  unfold runCk
  cases hc with
  | answer h => exact h.keeps
  | waits h => exact h
  | need => exact (needReads_keeps ..).step (within_trans (by decide) hm) h0
  | fail => exact (failOpf_keeps ..).step (within_trans (by decide) hm) h0

theorem startCk_ck {ch : Part → Bool} {s0 : State} {s : State} {j : Job} {b : Nat} (hm : within (only [.seats, .jobs, .mem, .place, .buffers,
    .engines, .keys, .entropy, .front]) ch = true) (h0 : Keeps ch s0 s) : CkOk (OfState ch s0) (Keeps ch s0) (startCk s j b) := by
  unfold startCk
  repeat' (first
    | with_reducible apply Keeps.refl
    | with_reducible assumption
    | ((with_reducible apply startPkt_ck); focus exact (within_trans rfl hm))
    | with_reducible refine ck_any (p := OfState _ _) ?_
    | ((with_reducible apply startDig_ck); focus exact (within_trans rfl hm))
    | ((with_reducible apply startQuery_ck); focus exact (within_trans rfl hm))
    | ((with_reducible apply startSym_ck); focus exact (within_trans rfl hm))
    | ((with_reducible apply startAssocJob_ck); focus exact (within_trans rfl hm))
    | with_reducible exact ofAny _
    | with_reducible apply ck_ite
    | with_reducible exact CkOk.need
    | with_reducible exact CkOk.fail
    | with_reducible apply ck_ok
    | with_reducible apply ck_pure
    | with_reducible apply CkOk.waits
    | with_reducible refine ck_bindState ?_ (fun _ _ => ?_)
    | with_reducible refine ck_bindPair ?_ (fun _ _ _ => ?_)
    | with_reducible refine ck_bindAny ?_ (fun _ => ?_)
    | with_reducible apply OfState.mk
    | with_reducible apply ofPair
    | with_reducible refine ck_okState ?_ (by assumption)
    | with_reducible refine ck_waits ?_ (by assumption)
    | with_reducible apply Keeps.ite
    | with_reducible apply Keeps.ite_fst
    | with_reducible refine Keeps.foldl _ (fun _ _ => ?_) ?_
    | extract_lets
    | split
    | dsimp only)

theorem tryStart_keeps (s : State) (j : Job) (b : Nat) : Keeps (only [.seats, .jobs, .mem, .place, .buffers, .engines, .keys, .entropy, .front]) s
    (tryStart s j b) := by
  unfold tryStart
  repeat' (first
    | with_reducible apply Keeps.refl
    | with_reducible assumption
    | ((with_reducible apply runCk_keeps); focus exact rfl)
    | with_reducible intro _
    | with_reducible apply Keeps.self
    | with_reducible refine ck_okState ?_ (by assumption)
    | with_reducible refine ck_waits ?_ (by assumption)
    | ((with_reducible apply startCk_ck); focus exact rfl)
    | with_reducible refine ck_any (p := OfState _ _) ?_
    | with_reducible exact ofAny _
    | with_reducible apply ck_ite
    | with_reducible exact CkOk.need
    | with_reducible exact CkOk.fail
    | with_reducible apply ck_ok
    | with_reducible apply ck_pure
    | with_reducible apply CkOk.waits
    | with_reducible refine ck_bindState ?_ (fun _ _ => ?_)
    | with_reducible refine ck_bindPair ?_ (fun _ _ _ => ?_)
    | with_reducible refine ck_bindAny ?_ (fun _ => ?_)
    | with_reducible apply OfState.mk
    | with_reducible apply ofPair
    | with_reducible apply Keeps.ite
    | with_reducible apply Keeps.ite_fst
    | with_reducible refine Keeps.foldl _ (fun _ _ => ?_) ?_
    | extract_lets
    | split
    | dsimp only)

theorem sinceStart_ck {ch : Part → Bool} {s0 s : State} {α : Type} {p : α → Prop} {j : Job} {x : Ck α} (hm : within (only [.jobs, .mem, .buffers,
    .engines, .keys]) ch = true) (h0 : Keeps ch s0 s) (hx : CkOk p (Keeps ch s0) x) : CkOk p (Keeps ch s0) (sinceStart s j x) := by
  unfold sinceStart
  cases hx with
  | answer h => exact .answer h
  | waits h => exact .waits h
  | need => exact .need
  | fail => exact .waits ((stop_keeps ..).step (within_trans rfl hm) h0)

theorem rekeyCk_ck {ch : Part → Bool} {s0 : State} {s : State} {j : Job} {b : Nat} (hm : within (only [.jobs, .mem, .buffers, .engines, .keys]) ch =
    true) (h0 : Keeps ch s0 s) : CkOk (OfState ch s0) (Keeps ch s0) (rekeyCk s j b) := by
  unfold rekeyCk
  repeat' (first
    | with_reducible apply Keeps.refl
    | with_reducible assumption
    | ((with_reducible apply sinceStart_ck); focus exact (within_trans rfl hm))
    | ((with_reducible apply bayAttr_ck); focus exact (within_trans rfl hm))
    | with_reducible refine ck_any (p := OfPair _ _) ?_
    | with_reducible apply chk_ck
    | ((with_reducible apply classCk_ck); focus exact (within_trans rfl hm))
    | ((with_reducible apply bayKey_ck); focus exact (within_trans rfl hm))
    | with_reducible exact ofAny _
    | with_reducible apply ck_ite
    | with_reducible exact CkOk.need
    | with_reducible exact CkOk.fail
    | with_reducible apply ck_ok
    | with_reducible apply ck_pure
    | with_reducible apply CkOk.waits
    | with_reducible refine ck_bindState ?_ (fun _ _ => ?_)
    | with_reducible refine ck_bindPair ?_ (fun _ _ _ => ?_)
    | with_reducible refine ck_bindAny ?_ (fun _ => ?_)
    | with_reducible apply OfState.mk
    | with_reducible apply ofPair
    | ((with_reducible apply Keeps.step (State.modJob_keeps ..)); focus exact (within_trans rfl hm))
    | with_reducible refine ck_waits ?_ (by assumption)
    | with_reducible refine ck_okPair ?_ (by assumption)
    | with_reducible apply Keeps.ite
    | with_reducible apply Keeps.ite_fst
    | with_reducible refine Keeps.foldl _ (fun _ _ => ?_) ?_
    | extract_lets
    | split
    | dsimp only)

theorem bayTime_keeps {ch : Part → Bool} {s0 s : State} {j : Job} {f : State → State} (hm : within (only [.jobs, .mem, .buffers, .engines, .keys]) ch
    = true) (h0 : Keeps ch s0 s) (hf : ∀ t, Keeps ch t (f t)) : Keeps ch s0 (bayTime s j f) := by
  unfold bayTime
  repeat' (first
    | with_reducible apply Keeps.refl
    | with_reducible assumption
    | ((with_reducible apply inTime_keeps); focus exact (within_trans rfl hm))
    | with_reducible intro _
    | with_reducible apply Keeps.self
    | with_reducible exact hf _
    | with_reducible exact hf _ _
    | with_reducible exact hf _ _ _
    | with_reducible refine Keeps.trans ?_ (hf _)
    | with_reducible refine Keeps.trans ?_ (hf _ _)
    | with_reducible refine Keeps.trans ?_ (hf _ _ _)
    | with_reducible apply Keeps.ite
    | with_reducible apply Keeps.ite_fst
    | with_reducible refine Keeps.foldl _ (fun _ _ => ?_) ?_
    | extract_lets
    | split
    | dsimp only)

theorem bayGo_keeps (s : State) (j : Job) (b : Nat) : Keeps (only [.seats, .jobs, .mem, .place, .buffers, .engines, .keys, .entropy, .front]) s (bayGo
    s j b) := by
  unfold bayGo
  repeat' (first
    | with_reducible apply Keeps.refl
    | with_reducible assumption
    | ((with_reducible apply Keeps.step (tryStart_keeps ..)); focus exact rfl)
    | ((with_reducible apply runCk_keeps); focus exact rfl)
    | ((with_reducible apply Keeps.step (unspill_keeps ..)); focus exact rfl)
    | ((with_reducible apply Keeps.step (issueReads_keeps ..)); focus exact rfl)
    | ((with_reducible apply Keeps.step (assocJobEnd_keeps ..)); focus exact rfl)
    | with_reducible intro _
    | with_reducible apply Keeps.self
    | with_reducible refine ck_okState ?_ (by assumption)
    | with_reducible refine ck_waits ?_ (by assumption)
    | ((with_reducible apply rekeyCk_ck); focus exact rfl)
    | with_reducible refine ck_any (p := OfState _ _) ?_
    | with_reducible exact ofAny _
    | with_reducible apply ck_ite
    | with_reducible exact CkOk.need
    | with_reducible exact CkOk.fail
    | with_reducible apply ck_ok
    | with_reducible apply ck_pure
    | with_reducible apply CkOk.waits
    | with_reducible refine ck_bindState ?_ (fun _ _ => ?_)
    | with_reducible refine ck_bindPair ?_ (fun _ _ _ => ?_)
    | with_reducible refine ck_bindAny ?_ (fun _ => ?_)
    | with_reducible apply OfState.mk
    | with_reducible apply ofPair
    | with_reducible apply Keeps.ite
    | with_reducible apply Keeps.ite_fst
    | with_reducible refine Keeps.foldl _ (fun _ _ => ?_) ?_
    | extract_lets
    | split
    | dsimp only)

theorem advanceJob_keeps (s : State) (j : Job) (b : Nat) : Keeps (only [.seats, .jobs, .mem, .place, .buffers, .engines, .keys, .entropy, .front]) s
    (advanceJob s j b) := by
  unfold advanceJob
  repeat' (first
    | with_reducible apply Keeps.refl
    | with_reducible assumption
    | ((with_reducible apply bayTime_keeps); focus exact rfl)
    | ((with_reducible apply Keeps.step (bayGo_keeps ..)); focus exact rfl)
    | with_reducible intro _
    | with_reducible apply Keeps.self
    | with_reducible apply Keeps.ite
    | with_reducible apply Keeps.ite_fst
    | with_reducible refine Keeps.foldl _ (fun _ _ => ?_) ?_
    | extract_lets
    | split
    | dsimp only)

theorem advance_keeps (s : State) (id : Nat) : Keeps (only [.seats, .jobs, .mem, .place, .buffers, .engines, .keys, .entropy, .front]) s (advance s
    id) := by
  unfold advance
  repeat' (first
    | with_reducible apply Keeps.refl
    | with_reducible assumption
    | ((with_reducible apply Keeps.step (advanceJob_keeps ..)); focus exact rfl)
    | with_reducible apply Keeps.ite
    | with_reducible apply Keeps.ite_fst
    | with_reducible refine Keeps.foldl _ (fun _ _ => ?_) ?_
    | extract_lets
    | split
    | dsimp only)

theorem advanceAll_keeps (s : State) : Keeps (only [.seats, .jobs, .mem, .place, .buffers, .engines, .keys, .entropy, .front]) s (advanceAll s) := by
  unfold advanceAll
  repeat' (first
    | with_reducible apply Keeps.refl
    | with_reducible assumption
    | ((with_reducible apply Keeps.step (advance_keeps ..)); focus exact rfl)
    | ((with_reducible apply Keeps.step (trimAll_keeps ..)); focus exact rfl)
    | with_reducible apply Keeps.ite
    | with_reducible apply Keeps.ite_fst
    | with_reducible refine Keeps.foldl _ (fun _ _ => ?_) ?_
    | extract_lets
    | split
    | dsimp only)

theorem enterBay_keeps (s : State) (j : Job) (b : Nat) (l : Nat) : Keeps (only [.alarms, .jobs, .mem, .place, .buffers, .keys, .prompts]) s (enterBay
    s j b l) := by
  unfold enterBay
  repeat' (first
    | with_reducible apply Keeps.refl
    | with_reducible assumption
    | ((with_reducible apply Keeps.step (laneTake_keeps ..)); focus exact rfl)
    | ((with_reducible apply Keeps.step (haveRegion_keeps ..)); focus exact rfl)
    | ((with_reducible apply Keeps.step (State.modJob_keeps ..)); focus exact rfl)
    | ((with_reducible apply Keeps.step (spillJob_keeps ..)); focus exact rfl)
    | with_reducible apply Keeps.ite
    | with_reducible apply Keeps.ite_fst
    | with_reducible refine Keeps.foldl _ (fun _ _ => ?_) ?_
    | extract_lets
    | split
    | dsimp only)

theorem roomSpill_keeps (s : State) (b : Nat) : Keeps (only [.alarms, .jobs, .mem, .place, .buffers, .keys, .prompts]) s (roomSpill s b) := by
  unfold roomSpill
  repeat' (first
    | with_reducible apply Keeps.refl
    | with_reducible assumption
    | ((with_reducible apply Keeps.step (spillJob_keeps ..)); focus exact rfl)
    | with_reducible apply Keeps.ite
    | with_reducible apply Keeps.ite_fst
    | with_reducible refine Keeps.foldl _ (fun _ _ => ?_) ?_
    | extract_lets
    | split
    | dsimp only)

theorem issueBay_keeps (s : State) (b : Nat) : Keeps (only [.alarms, .seats, .jobs, .mem, .place, .buffers, .engines, .keys, .entropy, .front,
    .prompts]) s (issueBay s b) := by
  unfold issueBay
  repeat' (first
    | with_reducible apply Keeps.refl
    | with_reducible assumption
    | ((with_reducible apply Keeps.step (roomSpill_keeps ..)); focus exact rfl)
    | ((with_reducible apply Keeps.step (State.modWing_keeps ..)); focus exact rfl)
    | ((with_reducible apply bayTime_keeps); focus exact rfl)
    | ((with_reducible apply Keeps.step (advance_keeps ..)); focus exact rfl)
    | ((with_reducible apply Keeps.step (enterBay_keeps ..)); focus exact rfl)
    | with_reducible intro _
    | with_reducible apply Keeps.self
    | with_reducible apply Keeps.ite
    | with_reducible apply Keeps.ite_fst
    | with_reducible refine Keeps.foldl _ (fun _ _ => ?_) ?_
    | extract_lets
    | split
    | dsimp only)

theorem execBayIssue_keeps (bay : Nat) (s : State) : OutKeeps (allBut [.pending, .params, .journal, .offers, .nextJob, .window, .time, .cust]) s
    (execBayIssue bay s) := by
  unfold execBayIssue
  repeat' (first
    | with_reducible apply Keeps.refl
    | with_reducible assumption
    | with_reducible exact OutKeeps.fault
    | with_reducible exact OutKeeps.refused
    | with_reducible apply OutKeeps.ok
    | with_reducible apply OutKeeps.next
    | with_reducible apply OutKeeps.ite
    | ((with_reducible apply Keeps.step (fin_keeps ..)); focus exact rfl)
    | ((with_reducible apply Keeps.step (issueBay_keeps ..)); focus exact rfl)
    | with_reducible apply Keeps.ite
    | with_reducible apply Keeps.ite_fst
    | with_reducible refine Keeps.foldl _ (fun _ _ => ?_) ?_
    | extract_lets
    | split
    | dsimp only)

theorem pauseJob_keeps (s : State) (j : Job) (b : Nat) : Keeps (only [.jobs]) s (pauseJob s j b) := by
  unfold pauseJob
  repeat' (first
    | with_reducible apply Keeps.refl
    | with_reducible assumption
    | ((with_reducible apply Keeps.step (State.modJob_keeps ..)); focus exact rfl)
    | with_reducible apply Keeps.ite
    | with_reducible apply Keeps.ite_fst
    | with_reducible refine Keeps.foldl _ (fun _ _ => ?_) ?_
    | extract_lets
    | split
    | dsimp only)

theorem movePaused_keeps (s : State) (id : Nat) (b : Nat) : Keeps (only [.alarms, .seats, .jobs, .mem, .place, .buffers, .keys, .front, .prompts]) s
    (movePaused s id b) := by
  unfold movePaused
  repeat' (first
    | with_reducible apply Keeps.refl
    | with_reducible assumption
    | ((with_reducible apply Keeps.step (noteChoice_keeps ..)); focus exact rfl)
    | ((with_reducible apply Keeps.step (spillJob_keeps ..)); focus exact rfl)
    | ((with_reducible apply Keeps.step (setHome_keeps ..)); focus exact rfl)
    | ((with_reducible apply Keeps.step (State.modSeat_keeps ..)); focus exact rfl)
    | ((with_reducible apply Keeps.step (State.modJob_keeps ..)); focus exact rfl)
    | with_reducible apply Keeps.ite
    | with_reducible apply Keeps.ite_fst
    | with_reducible refine Keeps.foldl _ (fun _ _ => ?_) ?_
    | extract_lets
    | split
    | dsimp only
    | dsimp +zetaDelta only
    | ((with_reducible apply Keeps.upd) <;> first | exact .inl rfl | exact .inr rfl | skip))

theorem afterSeg_keeps (s : State) (id : Nat) : Keeps (only [.alarms, .seats, .jobs, .mem, .place, .buffers, .engines, .keys, .entropy, .front,
    .prompts]) s (afterSeg s id) := by
  unfold afterSeg
  repeat' (first
    | with_reducible apply Keeps.refl
    | with_reducible assumption
    | ((with_reducible apply Keeps.step (State.modWing_keeps ..)); focus exact rfl)
    | ((with_reducible apply Keeps.step (advance_keeps ..)); focus exact rfl)
    | ((with_reducible apply Keeps.step (pauseJob_keeps ..)); focus exact rfl)
    | ((with_reducible apply Keeps.step (movePaused_keeps ..)); focus exact rfl)
    | with_reducible apply Keeps.ite
    | with_reducible apply Keeps.ite_fst
    | with_reducible refine Keeps.foldl _ (fun _ _ => ?_) ?_
    | extract_lets
    | split
    | dsimp only
    | ((with_reducible apply Keeps.upd) <;> first | exact .inl rfl | exact .inr rfl | skip))

theorem segWork_keeps (s : State) (w : SymW) (j : Job) : Keeps (only [.jobs, .mem, .place, .entropy]) s (segWork s w j) := by
  unfold segWork
  repeat' (first
    | with_reducible apply Keeps.refl
    | with_reducible assumption
    | ((with_reducible apply Keeps.step (digSeg_keeps ..)); focus exact rfl)
    | ((with_reducible apply Keeps.step (keepSeg_keeps ..)); focus exact rfl)
    | with_reducible apply Keeps.ite
    | with_reducible apply Keeps.ite_fst
    | with_reducible refine Keeps.foldl _ (fun _ _ => ?_) ?_
    | extract_lets
    | split
    | dsimp only)

theorem segBoundary_keeps (s : State) (id : Nat) : Keeps (only [.alarms, .seats, .jobs, .mem, .place, .buffers, .engines, .keys, .entropy, .front,
    .prompts]) s (segBoundary s id) := by
  unfold segBoundary
  repeat' (first
    | with_reducible apply Keeps.refl
    | with_reducible assumption
    | ((with_reducible apply opJob_keeps); focus exact rfl)
    | ((with_reducible apply Keeps.step (segWork_keeps ..)); focus exact rfl)
    | ((with_reducible apply Keeps.step (afterSeg_keeps ..)); focus exact rfl)
    | with_reducible intro _
    | with_reducible apply Keeps.self
    | with_reducible apply Keeps.ite
    | with_reducible apply Keeps.ite_fst
    | with_reducible refine Keeps.foldl _ (fun _ _ => ?_) ?_
    | extract_lets
    | split
    | dsimp only)

theorem execSegmentBoundary_keeps (job : Nat) (s : State) : OutKeeps (allBut [.pending, .params, .journal, .offers, .nextJob, .window, .time, .cust])
    s (execSegmentBoundary job s) := by
  unfold execSegmentBoundary
  repeat' (first
    | with_reducible apply Keeps.refl
    | with_reducible assumption
    | with_reducible exact OutKeeps.fault
    | with_reducible exact OutKeeps.refused
    | with_reducible apply OutKeeps.ok
    | with_reducible apply OutKeeps.next
    | with_reducible apply OutKeeps.ite
    | ((with_reducible apply Keeps.step (fin_keeps ..)); focus exact rfl)
    | ((with_reducible apply Keeps.step (segBoundary_keeps ..)); focus exact rfl)
    | with_reducible apply Keeps.ite
    | with_reducible apply Keeps.ite_fst
    | with_reducible refine Keeps.foldl _ (fun _ _ => ?_) ?_
    | extract_lets
    | split
    | dsimp only)

theorem heldMark_keeps (s : State) (id : Nat) : Keeps (only [.alarms, .jobs, .mem, .place, .buffers, .keys, .prompts]) s (heldMark s id) := by
  unfold heldMark
  repeat' (first
    | with_reducible apply Keeps.refl
    | with_reducible assumption
    | ((with_reducible apply Keeps.step (spillJob_keeps ..)); focus exact rfl)
    | with_reducible apply Keeps.ite
    | with_reducible apply Keeps.ite_fst
    | with_reducible refine Keeps.foldl _ (fun _ _ => ?_) ?_
    | extract_lets
    | split
    | dsimp only)

theorem execHeldRecordMark_keeps (job : Nat) (s : State) : OutKeeps (allBut [.pending, .params, .journal, .offers, .nextJob, .window, .time, .cust]) s
    (execHeldRecordMark job s) := by
  unfold execHeldRecordMark
  repeat' (first
    | with_reducible apply Keeps.refl
    | with_reducible assumption
    | with_reducible exact OutKeeps.fault
    | with_reducible exact OutKeeps.refused
    | with_reducible apply OutKeeps.ok
    | with_reducible apply OutKeeps.next
    | with_reducible apply OutKeeps.ite
    | ((with_reducible apply Keeps.step (fin_keeps ..)); focus exact rfl)
    | ((with_reducible apply Keeps.step (heldMark_keeps ..)); focus exact rfl)
    | with_reducible apply Keeps.ite
    | with_reducible apply Keeps.ite_fst
    | with_reducible refine Keeps.foldl _ (fun _ _ => ?_) ?_
    | extract_lets
    | split
    | dsimp only)

end Sys2Proof.Machine
end

