-- ==== Sys2Proof/Laws/FrameEngPlace.lean ====
section
/-! SUPPORT. Frames of Machine/EngPlace: for each operation, the parts of the state it may change. -/

namespace Sys2Proof.Machine

theorem outRefCk_ck {ch : Part → Bool} {s0 : State} {s : State} {j : Job} (hm : within (only []) ch = true) (h0 : Keeps ch s0 s) : CkOk OfAny (Keeps
    ch s0) (outRefCk s j) := by
  unfold outRefCk
  repeat' (first
    | with_reducible apply Keeps.refl
    | with_reducible assumption
    | with_reducible apply chk_ck
    | ((with_reducible apply chkWait_ck); focus exact (within_trans rfl hm))
    | with_reducible apply needBytes_ck
    | with_reducible exact ofAny _
    | with_reducible apply ck_ite
    | with_reducible exact CkOk.need
    | with_reducible exact CkOk.fail
    | with_reducible apply ck_ok
    | with_reducible apply ck_pure
    | with_reducible apply CkOk.waits
    | with_reducible refine ck_bindState ?_ (fun _ _ => ?_)
    | with_reducible refine ck_bindPair ?_ (fun _ _ _ => ?_)
    | with_reducible refine ck_bindAny ?_ (fun _ => ?_)
    | with_reducible apply OfState.mk
    | with_reducible apply ofPair
    | with_reducible refine ck_waits ?_ (by assumption)
    | with_reducible apply Keeps.ite
    | with_reducible apply Keeps.ite_fst
    | with_reducible refine Keeps.foldl _ (fun _ _ => ?_) ?_
    | extract_lets
    | split
    | dsimp only)

theorem engCheck_ck {ch : Part → Bool} {s0 : State} {s : State} {j : Job} (hm : within (only [.jobs, .mem, .buffers, .engines, .keys]) ch = true) (h0
    : Keeps ch s0 s) : CkOk (OfState ch s0) (Keeps ch s0) (engCheck s j) := by
  unfold engCheck
  repeat' (first
    | with_reducible apply Keeps.refl
    | with_reducible assumption
    | with_reducible apply needLists_ck
    | with_reducible apply chk_ck
    | ((with_reducible apply keepOn_ck); focus exact (within_trans rfl hm))
    | ((with_reducible apply outRefCk_ck); focus exact (within_trans rfl hm))
    | ((with_reducible apply keyCk_ck); focus exact (within_trans rfl hm))
    | with_reducible refine ck_any (p := OfPair _ _) ?_
    | with_reducible exact ofAny _
    | with_reducible apply ck_ite
    | with_reducible exact CkOk.need
    | with_reducible exact CkOk.fail
    | with_reducible apply ck_ok
    | with_reducible apply ck_pure
    | with_reducible apply CkOk.waits
    | with_reducible refine ck_bindState ?_ (fun _ _ => ?_)
    | with_reducible refine ck_bindPair ?_ (fun _ _ _ => ?_)
    | with_reducible refine ck_bindAny ?_ (fun _ => ?_)
    | with_reducible apply OfState.mk
    | with_reducible apply ofPair
    | with_reducible refine ck_waits ?_ (by assumption)
    | with_reducible refine ck_okPair ?_ (by assumption)
    | with_reducible apply Keeps.ite
    | with_reducible apply Keeps.ite_fst
    | with_reducible refine Keeps.foldl _ (fun _ _ => ?_) ?_
    | extract_lets
    | split
    | dsimp only)

theorem takeCredit_keeps (s : State) (j : Job) (charge : Nat) : Keeps (only [.seats, .jobs]) s (takeCredit s j charge) := by
  unfold takeCredit
  repeat' (first
    | with_reducible apply Keeps.refl
    | with_reducible assumption
    | ((with_reducible apply Keeps.step (State.modJob_keeps ..)); focus exact rfl)
    | ((with_reducible apply Keeps.step (State.modSeat_keeps ..)); focus exact rfl)
    | with_reducible apply Keeps.ite
    | with_reducible apply Keeps.ite_fst
    | with_reducible refine Keeps.foldl _ (fun _ _ => ?_) ?_
    | extract_lets
    | split
    | dsimp only)

theorem admitJob_keeps (s : State) (j : Job) : Keeps (only [.seats, .jobs, .mem, .buffers, .engines, .keys]) s (admitJob s j) := by
  unfold admitJob
  repeat' (first
    | with_reducible apply Keeps.refl
    | with_reducible assumption
    | ((with_reducible apply Keeps.step (State.modJob_keeps ..)); focus exact rfl)
    | ((with_reducible apply Keeps.step (failJob_keeps ..)); focus exact rfl)
    | ((with_reducible apply Keeps.step (takeCredit_keeps ..)); focus exact rfl)
    | ((with_reducible apply Keeps.step (State.modSeat_keeps ..)); focus exact rfl)
    | with_reducible apply Keeps.ite
    | with_reducible apply Keeps.ite_fst
    | with_reducible refine Keeps.foldl _ (fun _ _ => ?_) ?_
    | extract_lets
    | split
    | dsimp only)

theorem engUse_ck {ch : Part → Bool} {s0 : State} {s : State} {j : Job} (hm : within (only [.jobs, .mem, .buffers, .engines, .keys]) ch = true) (h0 :
    Keeps ch s0 s) : CkOk (OfState ch s0) (Keeps ch s0) (engUse s j) := by
  unfold engUse
  repeat' (first
    | with_reducible apply Keeps.refl
    | with_reducible assumption
    | ((with_reducible apply bayAttr_ck); focus exact (within_trans rfl hm))
    | with_reducible refine ck_any (p := OfPair _ _) ?_
    | ((with_reducible apply keepOn_ck); focus exact (within_trans rfl hm))
    | ((with_reducible apply useCk_ck); focus exact (within_trans rfl hm))
    | with_reducible refine ck_any (p := OfState _ _) ?_
    | with_reducible exact ofAny _
    | with_reducible apply ck_ite
    | with_reducible exact CkOk.need
    | with_reducible exact CkOk.fail
    | with_reducible apply ck_ok
    | with_reducible apply ck_pure
    | with_reducible apply CkOk.waits
    | with_reducible refine ck_bindState ?_ (fun _ _ => ?_)
    | with_reducible refine ck_bindPair ?_ (fun _ _ _ => ?_)
    | with_reducible refine ck_bindAny ?_ (fun _ => ?_)
    | with_reducible apply OfState.mk
    | with_reducible apply ofPair
    | ((with_reducible apply Keeps.step (State.modJob_keeps ..)); focus exact (within_trans rfl hm))
    | with_reducible refine ck_okPair ?_ (by assumption)
    | with_reducible refine ck_waits ?_ (by assumption)
    | with_reducible refine ck_okState ?_ (by assumption)
    | with_reducible apply Keeps.ite
    | with_reducible apply Keeps.ite_fst
    | with_reducible refine Keeps.foldl _ (fun _ _ => ?_) ?_
    | extract_lets
    | split
    | dsimp only)

theorem engKey_ck {ch : Part → Bool} {s0 : State} {s : State} {j : Job} (hm : within (only []) ch = true) (h0 : Keeps ch s0 s) : CkOk OfAny (Keeps ch
    s0) (engKey s j) := by
  unfold engKey
  repeat' (first
    | with_reducible apply Keeps.refl
    | with_reducible assumption
    | with_reducible exact ofAny _
    | with_reducible apply ck_ite
    | with_reducible exact CkOk.need
    | with_reducible exact CkOk.fail
    | with_reducible apply ck_ok
    | with_reducible apply ck_pure
    | with_reducible apply CkOk.waits
    | with_reducible refine ck_bindState ?_ (fun _ _ => ?_)
    | with_reducible refine ck_bindPair ?_ (fun _ _ _ => ?_)
    | with_reducible refine ck_bindAny ?_ (fun _ => ?_)
    | with_reducible apply OfState.mk
    | with_reducible apply ofPair
    | with_reducible apply Keeps.ite
    | with_reducible apply Keeps.ite_fst
    | with_reducible refine Keeps.foldl _ (fun _ _ => ?_) ?_
    | extract_lets
    | split
    | dsimp only)

theorem keepNeed_ck {ch : Part → Bool} {s0 s : State} {α : Type} {p : α → Prop} {j : Job} {x : Ck α} (hm : within (only [.mem]) ch = true) (h0 : Keeps
    ch s0 s) (hx : CkOk p (Keeps ch s0) x) : CkOk p (Keeps ch s0) (keepNeed s j x) := by
  unfold keepNeed
  cases hx with
  | answer h => exact .answer h
  | waits h => exact .waits h
  | need => exact .waits ((issueReads_keeps ..).step (within_trans rfl hm) h0)
  | fail => exact .fail

theorem relayLoad_ck {ch : Part → Bool} {s0 : State} {s : State} {j : Job} (hm : within (only []) ch = true) (h0 : Keeps ch s0 s) : CkOk OfAny (Keeps
    ch s0) (relayLoad s j) := by
  unfold relayLoad
  repeat' (first
    | with_reducible apply Keeps.refl
    | with_reducible assumption
    | with_reducible apply needAll_ck
    | ((with_reducible apply engKey_ck); focus exact (within_trans rfl hm))
    | with_reducible exact ofAny _
    | with_reducible apply ck_ite
    | with_reducible exact CkOk.need
    | with_reducible exact CkOk.fail
    | with_reducible apply ck_ok
    | with_reducible apply ck_pure
    | with_reducible apply CkOk.waits
    | with_reducible refine ck_bindState ?_ (fun _ _ => ?_)
    | with_reducible refine ck_bindPair ?_ (fun _ _ _ => ?_)
    | with_reducible refine ck_bindAny ?_ (fun _ => ?_)
    | with_reducible apply OfState.mk
    | with_reducible apply ofPair
    | with_reducible refine ck_waits ?_ (by assumption)
    | with_reducible apply Keeps.ite
    | with_reducible apply Keeps.ite_fst
    | with_reducible refine Keeps.foldl _ (fun _ _ => ?_) ?_
    | extract_lets
    | split
    | dsimp only)

theorem relayOut_ck {ch : Part → Bool} {s0 : State} {s : State} {j : Job} {m : Nat} (hm : within (only [.jobs, .mem, .place, .buffers, .engines,
    .keys, .relay]) ch = true) (h0 : Keeps ch s0 s) : CkOk (OfState ch s0) (Keeps ch s0) (relayOut s j m) := by
  unfold relayOut
  repeat' (first
    | with_reducible apply Keeps.refl
    | with_reducible assumption
    | ((with_reducible apply engUse_ck); focus exact (within_trans rfl hm))
    | with_reducible refine ck_any (p := OfState _ _) ?_
    | ((with_reducible apply keepOn_ck); focus exact (within_trans rfl hm))
    | ((with_reducible apply keepNeed_ck); focus exact (within_trans rfl hm))
    | ((with_reducible apply relayLoad_ck); focus exact (within_trans rfl hm))
    | with_reducible exact ofAny _
    | with_reducible apply ck_ite
    | with_reducible exact CkOk.need
    | with_reducible exact CkOk.fail
    | with_reducible apply ck_ok
    | with_reducible apply ck_pure
    | with_reducible apply CkOk.waits
    | with_reducible refine ck_bindState ?_ (fun _ _ => ?_)
    | with_reducible refine ck_bindPair ?_ (fun _ _ _ => ?_)
    | with_reducible refine ck_bindAny ?_ (fun _ => ?_)
    | with_reducible apply OfState.mk
    | with_reducible apply ofPair
    | ((with_reducible apply Keeps.step (pairSeal_keeps ..)); focus exact (within_trans rfl hm))
    | ((with_reducible apply Keeps.step (State.modJob_keeps ..)); focus exact (within_trans rfl hm))
    | ((with_reducible apply Keeps.step (sendTo_keeps ..)); focus exact (within_trans rfl hm))
    | with_reducible refine ck_okState ?_ (by assumption)
    | with_reducible refine ck_waits ?_ (by assumption)
    | with_reducible refine Keeps.fst (by assumption) ?_
    | with_reducible apply Keeps.ite
    | with_reducible apply Keeps.ite_fst
    | with_reducible refine Keeps.foldl _ (fun _ _ => ?_) ?_
    | extract_lets
    | split
    | dsimp only
    | ((with_reducible apply Keeps.upd) <;> first | exact .inl (within_mem hm rfl) | exact .inr rfl | skip))

theorem engUnit_ck {ch : Part → Bool} {s0 : State} {s : State} {j : Job} (hm : within (only [.jobs, .mem, .place, .buffers, .engines, .keys, .relay])
    ch = true) (h0 : Keeps ch s0 s) : CkOk (OfState ch s0) (Keeps ch s0) (engUnit s j) := by
  unfold engUnit
  repeat' (first
    | with_reducible apply Keeps.refl
    | with_reducible assumption
    | ((with_reducible apply relayOut_ck); focus exact (within_trans rfl hm))
    | with_reducible refine ck_any (p := OfState _ _) ?_
    | with_reducible exact ofAny _
    | with_reducible apply ck_ite
    | with_reducible exact CkOk.need
    | with_reducible exact CkOk.fail
    | with_reducible apply ck_ok
    | with_reducible apply ck_pure
    | with_reducible apply CkOk.waits
    | with_reducible refine ck_bindState ?_ (fun _ _ => ?_)
    | with_reducible refine ck_bindPair ?_ (fun _ _ _ => ?_)
    | with_reducible refine ck_bindAny ?_ (fun _ => ?_)
    | with_reducible apply OfState.mk
    | with_reducible apply ofPair
    | ((with_reducible apply Keeps.step (beginWait_keeps ..)); focus exact (within_trans rfl hm))
    | ((with_reducible apply Keeps.step (State.modJob_keeps ..)); focus exact (within_trans rfl hm))
    | ((with_reducible apply Keeps.step (endWait_keeps ..)); focus exact (within_trans rfl hm))
    | with_reducible refine ck_okState ?_ (by assumption)
    | with_reducible refine ck_waits ?_ (by assumption)
    | with_reducible apply Keeps.ite
    | with_reducible apply Keeps.ite_fst
    | with_reducible refine Keeps.foldl _ (fun _ _ => ?_) ?_
    | extract_lets
    | split
    | dsimp only
    | dsimp +zetaDelta only)

theorem engGo_keeps (s : State) (id : Nat) : Keeps (only [.seats, .jobs, .mem, .place, .buffers, .engines, .keys, .relay]) s (engGo s id) := by
  unfold engGo
  repeat' (first
    | with_reducible apply Keeps.refl
    | with_reducible assumption
    | ((with_reducible apply Keeps.step (admitJob_keeps ..)); focus exact rfl)
    | ((with_reducible apply runCk_keeps); focus exact rfl)
    | with_reducible intro _
    | with_reducible apply Keeps.self
    | with_reducible refine ck_okState ?_ (by assumption)
    | with_reducible refine ck_waits ?_ (by assumption)
    | ((with_reducible apply engUnit_ck); focus exact rfl)
    | with_reducible refine ck_any (p := OfState _ _) ?_
    | with_reducible exact ofAny _
    | with_reducible apply ck_ite
    | with_reducible exact CkOk.need
    | with_reducible exact CkOk.fail
    | with_reducible apply ck_ok
    | with_reducible apply ck_pure
    | with_reducible apply CkOk.waits
    | with_reducible refine ck_bindState ?_ (fun _ _ => ?_)
    | with_reducible refine ck_bindPair ?_ (fun _ _ _ => ?_)
    | with_reducible refine ck_bindAny ?_ (fun _ => ?_)
    | with_reducible apply OfState.mk
    | with_reducible apply ofPair
    | with_reducible apply Keeps.ite
    | with_reducible apply Keeps.ite_fst
    | with_reducible refine Keeps.foldl _ (fun _ _ => ?_) ?_
    | extract_lets
    | split
    | dsimp only)

theorem engPlace_ck {ch : Part → Bool} {s0 : State} {s : State} {j : Job} (hm : within (only [.seats, .jobs, .mem, .place, .buffers, .engines, .keys,
    .relay]) ch = true) (h0 : Keeps ch s0 s) : CkOk (OfState ch s0) (Keeps ch s0) (engPlace s j) := by
  unfold engPlace
  repeat' (first
    | with_reducible apply Keeps.refl
    | with_reducible assumption
    | ((with_reducible apply engCheck_ck); focus exact (within_trans rfl hm))
    | with_reducible refine ck_any (p := OfState _ _) ?_
    | with_reducible exact ofAny _
    | with_reducible apply ck_ite
    | with_reducible exact CkOk.need
    | with_reducible exact CkOk.fail
    | with_reducible apply ck_ok
    | with_reducible apply ck_pure
    | with_reducible apply CkOk.waits
    | with_reducible refine ck_bindState ?_ (fun _ _ => ?_)
    | with_reducible refine ck_bindPair ?_ (fun _ _ _ => ?_)
    | with_reducible refine ck_bindAny ?_ (fun _ => ?_)
    | with_reducible apply OfState.mk
    | with_reducible apply ofPair
    | ((with_reducible apply Keeps.step (engGo_keeps ..)); focus exact (within_trans rfl hm))
    | with_reducible refine ck_okState ?_ (by assumption)
    | with_reducible refine ck_waits ?_ (by assumption)
    | with_reducible apply Keeps.ite
    | with_reducible apply Keeps.ite_fst
    | with_reducible refine Keeps.foldl _ (fun _ _ => ?_) ?_
    | extract_lets
    | split
    | dsimp only)

end Sys2Proof.Machine
end

