-- ==== Sys2Proof/Laws/FrameLane.lean ====
section
/-! SUPPORT. Frames of Machine/Lane: for each operation, the parts of the state it may change. -/

namespace Sys2Proof.Machine

theorem carry_keeps (s : State) : Keeps (allBut [.pending, .params, .journal, .offers, .nextJob, .window, .time, .cust]) s (carry s) := by
  unfold carry
  repeat' (first
    | with_reducible apply Keeps.refl
    | with_reducible assumption
    | ((with_reducible apply Keeps.step (fin_keeps ..)); focus exact rfl)
    | ((with_reducible apply Keeps.step (advanceAll_keeps ..)); focus exact rfl)
    | with_reducible apply Keeps.ite
    | with_reducible apply Keeps.ite_fst
    | with_reducible refine Keeps.foldl _ (fun _ _ => ?_) ?_
    | extract_lets
    | split
    | dsimp only)

theorem execSealJob_keeps (job : Nat) (s : State) : OutKeeps (allBut [.pending, .params, .journal, .offers, .nextJob, .window, .time, .cust]) s
    (execSealJob job s) := by
  unfold execSealJob
  repeat' (first
    | with_reducible apply Keeps.refl
    | with_reducible assumption
    | with_reducible exact OutKeeps.fault
    | with_reducible exact OutKeeps.refused
    | with_reducible apply OutKeeps.ok
    | with_reducible apply OutKeeps.next
    | with_reducible apply OutKeeps.ite
    | ((with_reducible apply Keeps.step (carry_keeps ..)); focus exact rfl)
    | ((with_reducible apply Keeps.step (pktOp_keeps ..)); focus exact rfl)
    | ((with_reducible apply Keeps.step (symOp_keeps ..)); focus exact rfl)
    | with_reducible apply Keeps.ite
    | with_reducible apply Keeps.ite_fst
    | with_reducible refine Keeps.foldl _ (fun _ _ => ?_) ?_
    | extract_lets
    | split
    | dsimp only)

theorem execOpenJob_keeps (job : Nat) (s : State) : OutKeeps (allBut [.pending, .params, .journal, .offers, .nextJob, .window, .time, .cust]) s
    (execOpenJob job s) := by
  unfold execOpenJob
  repeat' (first
    | with_reducible apply Keeps.refl
    | with_reducible assumption
    | with_reducible exact OutKeeps.fault
    | with_reducible exact OutKeeps.refused
    | with_reducible apply OutKeeps.ok
    | with_reducible apply OutKeeps.next
    | with_reducible apply OutKeeps.ite
    | ((with_reducible apply Keeps.step (carry_keeps ..)); focus exact rfl)
    | ((with_reducible apply Keeps.step (pktOp_keeps ..)); focus exact rfl)
    | ((with_reducible apply Keeps.step (symOp_keeps ..)); focus exact rfl)
    | with_reducible apply Keeps.ite
    | with_reducible apply Keeps.ite_fst
    | with_reducible refine Keeps.foldl _ (fun _ _ => ?_) ?_
    | extract_lets
    | split
    | dsimp only)

theorem execMacGen_keeps (job : Nat) (s : State) : OutKeeps (allBut [.pending, .params, .journal, .offers, .nextJob, .window, .time, .cust]) s
    (execMacGen job s) := by
  unfold execMacGen
  repeat' (first
    | with_reducible apply Keeps.refl
    | with_reducible assumption
    | with_reducible exact OutKeeps.fault
    | with_reducible exact OutKeeps.refused
    | with_reducible apply OutKeeps.ok
    | with_reducible apply OutKeeps.next
    | with_reducible apply OutKeeps.ite
    | ((with_reducible apply Keeps.step (carry_keeps ..)); focus exact rfl)
    | ((with_reducible apply Keeps.step (symOp_keeps ..)); focus exact rfl)
    | with_reducible apply Keeps.ite
    | with_reducible apply Keeps.ite_fst
    | with_reducible refine Keeps.foldl _ (fun _ _ => ?_) ?_
    | extract_lets
    | split
    | dsimp only)

theorem execMacVerify_keeps (job : Nat) (s : State) : OutKeeps (allBut [.pending, .params, .journal, .offers, .nextJob, .window, .time, .cust]) s
    (execMacVerify job s) := by
  unfold execMacVerify
  repeat' (first
    | with_reducible apply Keeps.refl
    | with_reducible assumption
    | with_reducible exact OutKeeps.fault
    | with_reducible exact OutKeeps.refused
    | with_reducible apply OutKeeps.ok
    | with_reducible apply OutKeeps.next
    | with_reducible apply OutKeeps.ite
    | ((with_reducible apply Keeps.step (carry_keeps ..)); focus exact rfl)
    | ((with_reducible apply Keeps.step (symOp_keeps ..)); focus exact rfl)
    | with_reducible apply Keeps.ite
    | with_reducible apply Keeps.ite_fst
    | with_reducible refine Keeps.foldl _ (fun _ _ => ?_) ?_
    | extract_lets
    | split
    | dsimp only)

theorem execEncrypt_keeps (job : Nat) (s : State) : OutKeeps (allBut [.pending, .params, .journal, .offers, .nextJob, .window, .time, .cust]) s
    (execEncrypt job s) := by
  unfold execEncrypt
  repeat' (first
    | with_reducible apply Keeps.refl
    | with_reducible assumption
    | with_reducible exact OutKeeps.fault
    | with_reducible exact OutKeeps.refused
    | with_reducible apply OutKeeps.ok
    | with_reducible apply OutKeeps.next
    | with_reducible apply OutKeeps.ite
    | ((with_reducible apply Keeps.step (carry_keeps ..)); focus exact rfl)
    | ((with_reducible apply Keeps.step (symOp_keeps ..)); focus exact rfl)
    | with_reducible apply Keeps.ite
    | with_reducible apply Keeps.ite_fst
    | with_reducible refine Keeps.foldl _ (fun _ _ => ?_) ?_
    | extract_lets
    | split
    | dsimp only)

theorem execDecrypt_keeps (job : Nat) (s : State) : OutKeeps (allBut [.pending, .params, .journal, .offers, .nextJob, .window, .time, .cust]) s
    (execDecrypt job s) := by
  unfold execDecrypt
  repeat' (first
    | with_reducible apply Keeps.refl
    | with_reducible assumption
    | with_reducible exact OutKeeps.fault
    | with_reducible exact OutKeeps.refused
    | with_reducible apply OutKeeps.ok
    | with_reducible apply OutKeeps.next
    | with_reducible apply OutKeeps.ite
    | ((with_reducible apply Keeps.step (carry_keeps ..)); focus exact rfl)
    | ((with_reducible apply Keeps.step (symOp_keeps ..)); focus exact rfl)
    | with_reducible apply Keeps.ite
    | with_reducible apply Keeps.ite_fst
    | with_reducible refine Keeps.foldl _ (fun _ _ => ?_) ?_
    | extract_lets
    | split
    | dsimp only)

theorem execAssocQuery_keeps (job : Nat) (s : State) : OutKeeps (allBut [.pending, .params, .journal, .offers, .nextJob, .window, .time, .cust]) s
    (execAssocQuery job s) := by
  unfold execAssocQuery
  repeat' (first
    | with_reducible apply Keeps.refl
    | with_reducible assumption
    | with_reducible exact OutKeeps.fault
    | with_reducible exact OutKeeps.refused
    | with_reducible apply OutKeeps.ok
    | with_reducible apply OutKeeps.next
    | with_reducible apply OutKeeps.ite
    | ((with_reducible apply Keeps.step (carry_keeps ..)); focus exact rfl)
    | ((with_reducible apply opJob_keeps); focus exact rfl)
    | ((with_reducible apply Keeps.step (queryEnd_keeps ..)); focus exact rfl)
    | with_reducible intro _
    | with_reducible apply Keeps.self
    | with_reducible apply Keeps.ite
    | with_reducible apply Keeps.ite_fst
    | with_reducible refine Keeps.foldl _ (fun _ _ => ?_) ?_
    | extract_lets
    | split
    | dsimp only)

theorem execDigest_keeps (job : Nat) (s : State) : OutKeeps (allBut [.pending, .params, .journal, .offers, .nextJob, .window, .time, .cust]) s
    (execDigest job s) := by
  unfold execDigest
  repeat' (first
    | with_reducible apply Keeps.refl
    | with_reducible assumption
    | with_reducible exact OutKeeps.fault
    | with_reducible exact OutKeeps.refused
    | with_reducible apply OutKeeps.ok
    | with_reducible apply OutKeeps.next
    | with_reducible apply OutKeeps.ite
    | ((with_reducible apply Keeps.step (carry_keeps ..)); focus exact rfl)
    | ((with_reducible apply Keeps.step (digOp_keeps ..)); focus exact rfl)
    | with_reducible apply Keeps.ite
    | with_reducible apply Keeps.ite_fst
    | with_reducible refine Keeps.foldl _ (fun _ _ => ?_) ?_
    | extract_lets
    | split
    | dsimp only)

theorem execDigestVerify_keeps (job : CmpEnd) (s : State) : OutKeeps (allBut [.pending, .params, .journal, .offers, .nextJob, .window, .time, .cust])
    s (execDigestVerify job s) := by
  unfold execDigestVerify
  repeat' (first
    | with_reducible apply Keeps.refl
    | with_reducible assumption
    | with_reducible exact OutKeeps.fault
    | with_reducible exact OutKeeps.refused
    | with_reducible apply OutKeeps.ok
    | with_reducible apply OutKeeps.next
    | with_reducible apply OutKeeps.ite
    | ((with_reducible apply Keeps.step (carry_keeps ..)); focus exact rfl)
    | ((with_reducible apply Keeps.step (digOp_keeps ..)); focus exact rfl)
    | with_reducible apply Keeps.ite
    | with_reducible apply Keeps.ite_fst
    | with_reducible refine Keeps.foldl _ (fun _ _ => ?_) ?_
    | extract_lets
    | split
    | dsimp only)

theorem execHmacGen_keeps (job : Nat) (s : State) : OutKeeps (allBut [.pending, .params, .journal, .offers, .nextJob, .window, .time, .cust]) s
    (execHmacGen job s) := by
  unfold execHmacGen
  repeat' (first
    | with_reducible apply Keeps.refl
    | with_reducible assumption
    | with_reducible exact OutKeeps.fault
    | with_reducible exact OutKeeps.refused
    | with_reducible apply OutKeeps.ok
    | with_reducible apply OutKeeps.next
    | with_reducible apply OutKeeps.ite
    | ((with_reducible apply Keeps.step (carry_keeps ..)); focus exact rfl)
    | ((with_reducible apply Keeps.step (digOp_keeps ..)); focus exact rfl)
    | with_reducible apply Keeps.ite
    | with_reducible apply Keeps.ite_fst
    | with_reducible refine Keeps.foldl _ (fun _ _ => ?_) ?_
    | extract_lets
    | split
    | dsimp only)

theorem execHmacVerify_keeps (job : CmpEnd) (s : State) : OutKeeps (allBut [.pending, .params, .journal, .offers, .nextJob, .window, .time, .cust]) s
    (execHmacVerify job s) := by
  unfold execHmacVerify
  repeat' (first
    | with_reducible apply Keeps.refl
    | with_reducible assumption
    | with_reducible exact OutKeeps.fault
    | with_reducible exact OutKeeps.refused
    | with_reducible apply OutKeeps.ok
    | with_reducible apply OutKeeps.next
    | with_reducible apply OutKeeps.ite
    | ((with_reducible apply Keeps.step (carry_keeps ..)); focus exact rfl)
    | ((with_reducible apply Keeps.step (digOp_keeps ..)); focus exact rfl)
    | with_reducible apply Keeps.ite
    | with_reducible apply Keeps.ite_fst
    | with_reducible refine Keeps.foldl _ (fun _ _ => ?_) ?_
    | extract_lets
    | split
    | dsimp only)

theorem execCompare_keeps (job : CmpEnd) (s : State) : OutKeeps (allBut [.pending, .params, .journal, .offers, .nextJob, .window, .time, .cust]) s
    (execCompare job s) := by
  unfold execCompare
  repeat' (first
    | with_reducible apply Keeps.refl
    | with_reducible assumption
    | with_reducible exact OutKeeps.fault
    | with_reducible exact OutKeeps.refused
    | with_reducible apply OutKeeps.ok
    | with_reducible apply OutKeeps.next
    | with_reducible apply OutKeeps.ite
    | ((with_reducible apply Keeps.step (carry_keeps ..)); focus exact rfl)
    | ((with_reducible apply opJob_keeps); focus exact rfl)
    | ((with_reducible apply Keeps.step (compareEnd_keeps ..)); focus exact rfl)
    | with_reducible intro _
    | with_reducible apply Keeps.self
    | with_reducible apply Keeps.ite
    | with_reducible apply Keeps.ite_fst
    | with_reducible refine Keeps.foldl _ (fun _ _ => ?_) ?_
    | extract_lets
    | split
    | dsimp only)

theorem execHmacLoad_keeps (job : Nat) (s : State) : OutKeeps (allBut [.pending, .params, .journal, .offers, .nextJob, .window, .time, .cust]) s
    (execHmacLoad job s) := by
  unfold execHmacLoad
  repeat' (first
    | with_reducible apply Keeps.refl
    | with_reducible assumption
    | with_reducible exact OutKeeps.fault
    | with_reducible exact OutKeeps.refused
    | with_reducible apply OutKeeps.ok
    | with_reducible apply OutKeeps.next
    | with_reducible apply OutKeeps.ite
    | ((with_reducible apply Keeps.step (carry_keeps ..)); focus exact rfl)
    | ((with_reducible apply opJob_keeps); focus exact rfl)
    | ((with_reducible apply Keeps.step (hmacLoadEnd_keeps ..)); focus exact rfl)
    | with_reducible intro _
    | with_reducible apply Keeps.self
    | with_reducible apply Keeps.ite
    | with_reducible apply Keeps.ite_fst
    | with_reducible refine Keeps.foldl _ (fun _ _ => ?_) ?_
    | extract_lets
    | split
    | dsimp only)

theorem execHmacUnload_keeps (job : Nat) (s : State) : OutKeeps (allBut [.pending, .params, .journal, .offers, .nextJob, .window, .time, .cust]) s
    (execHmacUnload job s) := by
  unfold execHmacUnload
  repeat' (first
    | with_reducible apply Keeps.refl
    | with_reducible assumption
    | with_reducible exact OutKeeps.fault
    | with_reducible exact OutKeeps.refused
    | with_reducible apply OutKeeps.ok
    | with_reducible apply OutKeeps.next
    | with_reducible apply OutKeeps.ite
    | ((with_reducible apply Keeps.step (carry_keeps ..)); focus exact rfl)
    | ((with_reducible apply opJob_keeps); focus exact rfl)
    | ((with_reducible apply Keeps.step (hmacUnloadEnd_keeps ..)); focus exact rfl)
    | with_reducible intro _
    | with_reducible apply Keeps.self
    | with_reducible apply Keeps.ite
    | with_reducible apply Keeps.ite_fst
    | with_reducible refine Keeps.foldl _ (fun _ _ => ?_) ?_
    | extract_lets
    | split
    | dsimp only)

theorem execAssocWrite_keeps (job : Nat) (s : State) : OutKeeps (allBut [.pending, .params, .journal, .offers, .nextJob, .window, .time, .cust]) s
    (execAssocWrite job s) := by
  unfold execAssocWrite
  repeat' (first
    | with_reducible apply Keeps.refl
    | with_reducible assumption
    | with_reducible exact OutKeeps.fault
    | with_reducible exact OutKeeps.refused
    | with_reducible apply OutKeeps.ok
    | with_reducible apply OutKeeps.next
    | with_reducible apply OutKeeps.ite
    | ((with_reducible apply Keeps.step (carry_keeps ..)); focus exact rfl)
    | ((with_reducible apply Keeps.step (assocJobOp_keeps ..)); focus exact rfl)
    | with_reducible apply Keeps.ite
    | with_reducible apply Keeps.ite_fst
    | with_reducible refine Keeps.foldl _ (fun _ _ => ?_) ?_
    | extract_lets
    | split
    | dsimp only)

theorem execAssocKill_keeps (job : Nat) (s : State) : OutKeeps (allBut [.pending, .params, .journal, .offers, .nextJob, .window, .time, .cust]) s
    (execAssocKill job s) := by
  unfold execAssocKill
  repeat' (first
    | with_reducible apply Keeps.refl
    | with_reducible assumption
    | with_reducible exact OutKeeps.fault
    | with_reducible exact OutKeeps.refused
    | with_reducible apply OutKeeps.ok
    | with_reducible apply OutKeeps.next
    | with_reducible apply OutKeeps.ite
    | ((with_reducible apply Keeps.step (carry_keeps ..)); focus exact rfl)
    | ((with_reducible apply Keeps.step (assocJobOp_keeps ..)); focus exact rfl)
    | with_reducible apply Keeps.ite
    | with_reducible apply Keeps.ite_fst
    | with_reducible refine Keeps.foldl _ (fun _ _ => ?_) ?_
    | extract_lets
    | split
    | dsimp only)

theorem ctxWrite_keeps (s : State) (off : Nat) (v : W32) : Keeps (only [.alarms, .keys, .prompts]) s (ctxWrite s off v) := by
  unfold ctxWrite
  repeat' (first
    | with_reducible apply Keeps.refl
    | with_reducible assumption
    | ((with_reducible apply Keeps.step (State.modKeys_keeps ..)); focus exact rfl)
    | ((with_reducible apply Keeps.step (refuse_keeps ..)); focus exact rfl)
    | with_reducible apply Keeps.ite
    | with_reducible apply Keeps.ite_fst
    | with_reducible refine Keeps.foldl _ (fun _ _ => ?_) ?_
    | extract_lets
    | split
    | dsimp only)

end Sys2Proof.Machine
end

