-- ==== Sys2Proof/Laws/FrameEngine.lean ====
section
/-! SUPPORT. Frames of Machine/Engine: for each operation, the parts of the state it may change. -/

namespace Sys2Proof.Machine

theorem engLoadCk_ck {ch : Part → Bool} {s0 : State} {s : State} {j : Job} (hm : within (only [.jobs, .mem, .buffers, .engines, .keys]) ch = true) (h0
    : Keeps ch s0 s) : CkOk (OfState ch s0) (Keeps ch s0) (engLoadCk s j) := by
  unfold engLoadCk
  repeat' (first
    | with_reducible apply Keeps.refl
    | with_reducible assumption
    | ((with_reducible apply keepOn_ck); focus exact (within_trans rfl hm))
    | with_reducible apply ckIf_ck
    | ((with_reducible apply noDraws_ck); focus exact (within_trans rfl hm))
    | ((with_reducible apply engUse_ck); focus exact (within_trans rfl hm))
    | with_reducible refine ck_any (p := OfState _ _) ?_
    | ((with_reducible apply bayAttr_ck); focus exact (within_trans rfl hm))
    | with_reducible refine ck_any (p := OfPair _ _) ?_
    | ((with_reducible apply expiryCk_ck); focus exact (within_trans rfl hm))
    | with_reducible exact ofAny _
    | with_reducible apply ck_ite
    | with_reducible exact CkOk.need
    | with_reducible exact CkOk.fail
    | with_reducible apply ck_ok
    | with_reducible apply ck_pure
    | with_reducible apply CkOk.waits
    | with_reducible refine ck_bindState ?_ (fun _ _ => ?_)
    | with_reducible refine ck_bindPair ?_ (fun _ _ _ => ?_)
    | with_reducible refine ck_bindAny ?_ (fun _ => ?_)
    | with_reducible apply OfState.mk
    | with_reducible apply ofPair
    | ((with_reducible apply Keeps.step (State.modJob_keeps ..)); focus exact (within_trans rfl hm))
    | with_reducible refine ck_waits ?_ (by assumption)
    | with_reducible refine ck_okState ?_ (by assumption)
    | with_reducible refine ck_okPair ?_ (by assumption)
    | with_reducible apply Keeps.ite
    | with_reducible apply Keeps.ite_fst
    | with_reducible refine Keeps.foldl _ (fun _ _ => ?_) ?_
    | extract_lets
    | split
    | dsimp only)

theorem keyParts_ck {ch : Part → Bool} {s0 s : State} {e : Engine} {j : Job} {x : Ck Bytes} (hm : within (only []) ch = true) (h0 : Keeps ch s0 s) (hx
    : CkOk OfAny (Keeps ch s0) x) : CkOk OfAny (Keeps ch s0) (keyParts s e j x) := by
  unfold keyParts
  split
  · split
    · exact ck_bindAny needAll_ck (fun _ => ck_bindAny (chkWait_ck (within_trans rfl hm) h0) (fun _ => .need))
    · exact hx
  · exact hx

theorem keyIn_ck {ch : Part → Bool} {s0 : State} {s : State} {e : Engine} {j : Job} (hm : within (only [.jobs]) ch = true) (h0 : Keeps ch s0 s) : CkOk
    (OfState ch s0) (Keeps ch s0) (keyIn s e j) := by
  unfold keyIn
  repeat' (first
    | with_reducible apply Keeps.refl
    | with_reducible assumption
    | ((with_reducible apply keyParts_ck); focus exact (within_trans rfl hm))
    | ((with_reducible apply engKey_ck); focus exact (within_trans rfl hm))
    | ((with_reducible apply chkWait_ck); focus exact (within_trans rfl hm))
    | with_reducible exact ofAny _
    | with_reducible apply ck_ite
    | with_reducible exact CkOk.need
    | with_reducible exact CkOk.fail
    | with_reducible apply ck_ok
    | with_reducible apply ck_pure
    | with_reducible apply CkOk.waits
    | with_reducible refine ck_bindState ?_ (fun _ _ => ?_)
    | with_reducible refine ck_bindPair ?_ (fun _ _ _ => ?_)
    | with_reducible refine ck_bindAny ?_ (fun _ => ?_)
    | with_reducible apply OfState.mk
    | with_reducible apply ofPair
    | ((with_reducible apply Keeps.step (State.modJob_keeps ..)); focus exact (within_trans rfl hm))
    | with_reducible refine ck_waits ?_ (by assumption)
    | with_reducible apply Keeps.ite
    | with_reducible apply Keeps.ite_fst
    | with_reducible refine Keeps.foldl _ (fun _ _ => ?_) ?_
    | extract_lets
    | split
    | dsimp only)

theorem loadStep_keeps (s : State) (w : Nat) : Keeps (only [.jobs, .mem, .buffers, .engines, .keys, .entropy]) s (loadStep s w) := by
  unfold loadStep
  repeat' (first
    | with_reducible apply Keeps.refl
    | with_reducible assumption
    | ((with_reducible apply runCk_keeps); focus exact rfl)
    | ((with_reducible apply Keeps.step (failJob_keeps ..)); focus exact rfl)
    | ((with_reducible apply OptKeeps2.step (tryDraw_keeps ..)); focus exact rfl)
    | ((with_reducible apply Keeps.step (State.modJob_keeps ..)); focus exact rfl)
    | ((with_reducible apply Keeps.step (endWait_keeps ..)); focus exact rfl)
    | ((with_reducible apply Keeps.step (beginWait_keeps ..)); focus exact rfl)
    | ((with_reducible apply Keeps.step (State.modEngine_keeps ..)); focus exact rfl)
    | ((with_reducible apply Keeps.step (issueReads_keeps ..)); focus exact rfl)
    | with_reducible intro _
    | with_reducible apply Keeps.self
    | with_reducible refine ck_okState ?_ (by assumption)
    | with_reducible refine ck_waits ?_ (by assumption)
    | with_reducible refine OptKeeps2.get ?_ (by assumption)
    | with_reducible apply OptKeeps2.some
    | with_reducible apply OptKeeps2.map
    | ((with_reducible apply engLoadCk_ck); focus exact rfl)
    | with_reducible refine ck_any (p := OfState _ _) ?_
    | ((with_reducible apply keyIn_ck); focus exact rfl)
    | with_reducible exact ofAny _
    | with_reducible apply ck_ite
    | with_reducible exact CkOk.need
    | with_reducible exact CkOk.fail
    | with_reducible apply ck_ok
    | with_reducible apply ck_pure
    | with_reducible apply CkOk.waits
    | with_reducible refine ck_bindState ?_ (fun _ _ => ?_)
    | with_reducible refine ck_bindPair ?_ (fun _ _ _ => ?_)
    | with_reducible refine ck_bindAny ?_ (fun _ => ?_)
    | with_reducible apply OfState.mk
    | with_reducible apply ofPair
    | with_reducible apply Keeps.ite
    | with_reducible apply Keeps.ite_fst
    | with_reducible refine Keeps.foldl _ (fun _ _ => ?_) ?_
    | extract_lets
    | split
    | dsimp only)

theorem engAdvance_keeps (s : State) (w : Nat) : Keeps (only [.jobs, .mem, .buffers, .engines, .keys, .entropy]) s (engAdvance s w) := by
  unfold engAdvance
  repeat' (first
    | with_reducible apply Keeps.refl
    | with_reducible assumption
    | ((with_reducible apply Keeps.step (loadStep_keeps ..)); focus exact rfl)
    | with_reducible apply Keeps.ite
    | with_reducible apply Keeps.ite_fst
    | with_reducible refine Keeps.foldl _ (fun _ _ => ?_) ?_
    | extract_lets
    | split
    | dsimp only)

theorem engAdvanceAll_keeps (s : State) : Keeps (only [.jobs, .mem, .buffers, .engines, .keys, .entropy]) s (engAdvanceAll s) := by
  unfold engAdvanceAll
  repeat' (first
    | with_reducible apply Keeps.refl
    | with_reducible assumption
    | ((with_reducible apply Keeps.step (engAdvance_keeps ..)); focus exact rfl)
    | with_reducible apply Keeps.ite
    | with_reducible apply Keeps.ite_fst
    | with_reducible refine Keeps.foldl _ (fun _ _ => ?_) ?_
    | extract_lets
    | split
    | dsimp only)

theorem carryAll_keeps (s : State) : Keeps (allBut [.pending, .params, .journal, .offers, .nextJob, .window, .time, .cust]) s (carryAll s) := by
  unfold carryAll
  repeat' (first
    | with_reducible apply Keeps.refl
    | with_reducible assumption
    | ((with_reducible apply Keeps.step (fin_keeps ..)); focus exact rfl)
    | ((with_reducible apply Keeps.step (engAdvanceAll_keeps ..)); focus exact rfl)
    | ((with_reducible apply Keeps.step (advanceAll_keeps ..)); focus exact rfl)
    | with_reducible apply Keeps.ite
    | with_reducible apply Keeps.ite_fst
    | with_reducible refine Keeps.foldl _ (fun _ _ => ?_) ?_
    | extract_lets
    | split
    | dsimp only)

theorem engLoad_keeps (s : State) (w : Nat) : Keeps (only [.jobs, .mem, .place, .buffers, .engines, .keys, .entropy]) s (engLoad s w) := by
  unfold engLoad
  repeat' (first
    | with_reducible apply Keeps.refl
    | with_reducible assumption
    | ((with_reducible apply Keeps.step (State.modWing_keeps ..)); focus exact rfl)
    | ((with_reducible apply Keeps.step (State.modJob_keeps ..)); focus exact rfl)
    | ((with_reducible apply Keeps.step (engAdvance_keeps ..)); focus exact rfl)
    | ((with_reducible apply Keeps.step (State.modEngine_keeps ..)); focus exact rfl)
    | with_reducible apply Keeps.ite
    | with_reducible apply Keeps.ite_fst
    | with_reducible refine Keeps.foldl _ (fun _ _ => ?_) ?_
    | extract_lets
    | split
    | dsimp only)

theorem execEngineLoad_keeps (wing : Nat) (s : State) : OutKeeps (allBut [.pending, .params, .journal, .offers, .nextJob, .window, .time, .cust]) s
    (execEngineLoad wing s) := by
  unfold execEngineLoad
  repeat' (first
    | with_reducible apply Keeps.refl
    | with_reducible assumption
    | with_reducible exact OutKeeps.fault
    | with_reducible exact OutKeeps.refused
    | with_reducible apply OutKeeps.ok
    | with_reducible apply OutKeeps.next
    | with_reducible apply OutKeeps.ite
    | ((with_reducible apply Keeps.step (fin_keeps ..)); focus exact rfl)
    | ((with_reducible apply Keeps.step (engLoad_keeps ..)); focus exact rfl)
    | with_reducible apply Keeps.ite
    | with_reducible apply Keeps.ite_fst
    | with_reducible refine Keeps.foldl _ (fun _ _ => ?_) ?_
    | extract_lets
    | split
    | dsimp only)

theorem runStart_keeps (s : State) (w : Nat) : Keeps (only [.jobs, .engines]) s (runStart s w) := by
  unfold runStart
  repeat' (first
    | with_reducible apply Keeps.refl
    | with_reducible assumption
    | ((with_reducible apply Keeps.step (State.modEngine_keeps ..)); focus exact rfl)
    | ((with_reducible apply Keeps.step (State.modJob_keeps ..)); focus exact rfl)
    | with_reducible apply Keeps.ite
    | with_reducible apply Keeps.ite_fst
    | with_reducible refine Keeps.foldl _ (fun _ _ => ?_) ?_
    | extract_lets
    | split
    | dsimp only)

theorem execRunStart_keeps (wing : Nat) (s : State) : OutKeeps (allBut [.pending, .params, .journal, .offers, .nextJob, .window, .time, .cust]) s
    (execRunStart wing s) := by
  unfold execRunStart
  repeat' (first
    | with_reducible apply Keeps.refl
    | with_reducible assumption
    | with_reducible exact OutKeeps.fault
    | with_reducible exact OutKeeps.refused
    | with_reducible apply OutKeeps.ok
    | with_reducible apply OutKeeps.next
    | with_reducible apply OutKeeps.ite
    | ((with_reducible apply Keeps.step (carryAll_keeps ..)); focus exact rfl)
    | ((with_reducible apply Keeps.step (runStart_keeps ..)); focus exact rfl)
    | with_reducible apply Keeps.ite
    | with_reducible apply Keeps.ite_fst
    | with_reducible refine Keeps.foldl _ (fun _ _ => ?_) ?_
    | extract_lets
    | split
    | dsimp only)

theorem engOp_keeps (s : State) (id : Nat) (op : Nat) (f : Job → RunOut) : Keeps (only [.jobs]) s (engOp s id op f) := by
  unfold engOp
  repeat' (first
    | with_reducible apply Keeps.refl
    | with_reducible assumption
    | ((with_reducible apply Keeps.step (State.modJob_keeps ..)); focus exact rfl)
    | with_reducible apply Keeps.ite
    | with_reducible apply Keeps.ite_fst
    | with_reducible refine Keeps.foldl _ (fun _ _ => ?_) ?_
    | extract_lets
    | split
    | dsimp only)

theorem datapathDone_keeps (s : State) (w : Nat) (agree : Bool) : Keeps (only [.engines]) s (datapathDone s w agree) := by
  unfold datapathDone
  repeat' (first
    | with_reducible apply Keeps.refl
    | with_reducible assumption
    | ((with_reducible apply Keeps.step (State.modEngine_keeps ..)); focus exact rfl)
    | with_reducible apply Keeps.ite
    | with_reducible apply Keeps.ite_fst
    | with_reducible refine Keeps.foldl _ (fun _ _ => ?_) ?_
    | extract_lets
    | split
    | dsimp only)

theorem execDatapathDone_keeps (wing : Nat) (agree : Bool) (s : State) : OutKeeps (allBut [.pending, .params, .journal, .offers, .nextJob, .window,
    .time, .cust]) s (execDatapathDone wing agree s) := by
  unfold execDatapathDone
  repeat' (first
    | with_reducible apply Keeps.refl
    | with_reducible assumption
    | with_reducible exact OutKeeps.fault
    | with_reducible exact OutKeeps.refused
    | with_reducible apply OutKeeps.ok
    | with_reducible apply OutKeeps.next
    | with_reducible apply OutKeeps.ite
    | ((with_reducible apply Keeps.step (fin_keeps ..)); focus exact rfl)
    | ((with_reducible apply Keeps.step (datapathDone_keeps ..)); focus exact rfl)
    | with_reducible apply Keeps.ite
    | with_reducible apply Keeps.ite_fst
    | with_reducible refine Keeps.foldl _ (fun _ _ => ?_) ?_
    | extract_lets
    | split
    | dsimp only)

theorem writeOuts_keeps (s : State) (j : Job) (good : Bool) (outs : List (Nat × Bytes)) (entry : Bytes) : Keeps (only [.jobs, .mem, .keys]) s
    (writeOuts s j good outs entry) := by
  unfold writeOuts
  repeat' (first
    | with_reducible apply Keeps.refl
    | with_reducible assumption
    | ((with_reducible apply Keeps.step (writeBuf_keeps ..)); focus exact rfl)
    | ((with_reducible apply Keeps.step (dropAttr_keeps ..)); focus exact rfl)
    | ((with_reducible apply Keeps.step (sealEntry_keeps ..)); focus exact rfl)
    | ((with_reducible apply Keeps.step (writeAt_keeps ..)); focus exact rfl)
    | with_reducible refine Keeps.fst (by assumption) ?_
    | with_reducible apply Keeps.ite
    | with_reducible apply Keeps.ite_fst
    | with_reducible refine Keeps.foldl _ (fun _ _ => ?_) ?_
    | extract_lets
    | split
    | dsimp only)

theorem giveOuts_keeps (s : State) (j : Job) (good : Bool) : Keeps (only [.jobs, .mem, .keys, .relay]) s (giveOuts s j good) := by
  unfold giveOuts
  repeat' (first
    | with_reducible apply Keeps.refl
    | with_reducible assumption
    | ((with_reducible apply Keeps.step (pairSeal_keeps ..)); focus exact rfl)
    | ((with_reducible apply Keeps.step (State.modJob_keeps ..)); focus exact rfl)
    | ((with_reducible apply Keeps.step (writeOuts_keeps ..)); focus exact rfl)
    | with_reducible refine Keeps.fst (by assumption) ?_
    | with_reducible apply Keeps.ite
    | with_reducible apply Keeps.ite_fst
    | with_reducible refine Keeps.foldl _ (fun _ _ => ?_) ?_
    | extract_lets
    | split
    | dsimp only)

theorem keepOutcome_keeps (s : State) (id : Nat) : Keeps (only [.jobs]) s (keepOutcome s id) := by
  unfold keepOutcome
  repeat' (first
    | with_reducible apply Keeps.refl
    | with_reducible assumption
    | ((with_reducible apply Keeps.step (State.modJob_keeps ..)); focus exact rfl)
    | with_reducible apply Keeps.ite
    | with_reducible apply Keeps.ite_fst
    | with_reducible refine Keeps.foldl _ (fun _ _ => ?_) ?_
    | extract_lets
    | split
    | dsimp only)

theorem raisesA_keeps (s : State) (j : Job) (cause : Nat) (w : Nat) : Keeps (allBut [.pending, .params, .seats, .offers, .nextJob, .time, .freeCount])
    s (raisesA s j cause w) := by
  unfold raisesA
  repeat' (first
    | with_reducible apply Keeps.refl
    | with_reducible assumption
    | ((with_reducible apply Keeps.step (alarmA_keeps ..)); focus exact rfl)
    | ((with_reducible apply Keeps.step (keepOutcome_keeps ..)); focus exact rfl)
    | with_reducible apply Keeps.ite
    | with_reducible apply Keeps.ite_fst
    | with_reducible refine Keeps.foldl _ (fun _ _ => ?_) ?_
    | extract_lets
    | split
    | dsimp only)

theorem countFault_keeps (s : State) (w : Nat) (j : Job) : Keeps (allBut [.pending, .params, .seats, .offers, .nextJob, .time, .freeCount]) s
    (countFault s w j) := by
  unfold countFault
  repeat' (first
    | with_reducible apply Keeps.refl
    | with_reducible assumption
    | ((with_reducible apply Keeps.step (State.modEngine_keeps ..)); focus exact rfl)
    | ((with_reducible apply Keeps.step (alarmC_keeps ..)); focus exact rfl)
    | ((with_reducible apply Keeps.step (raisesA_keeps ..)); focus exact rfl)
    | with_reducible apply Keeps.ite
    | with_reducible apply Keeps.ite_fst
    | with_reducible refine Keeps.foldl _ (fun _ _ => ?_) ?_
    | extract_lets
    | split
    | dsimp only
    | ((with_reducible apply Keeps.upd) <;> first | exact .inl rfl | exact .inr rfl | skip))

theorem chargeBlocks_keeps (s : State) (j : Job) (floor : Nat) (b : Nat) : Keeps (only [.seats]) s (chargeBlocks s j floor b) := by
  unfold chargeBlocks
  repeat' (first
    | with_reducible apply Keeps.refl
    | with_reducible assumption
    | ((with_reducible apply Keeps.step (State.modSeat_keeps ..)); focus exact rfl)
    | with_reducible apply Keeps.ite
    | with_reducible apply Keeps.ite_fst
    | with_reducible refine Keeps.foldl _ (fun _ _ => ?_) ?_
    | extract_lets
    | split
    | dsimp only)

theorem startWipe_keeps (s : State) (w : Nat) (j : Job) : Keeps (only [.engines]) s (startWipe s w j) := by
  unfold startWipe
  repeat' (first
    | with_reducible apply Keeps.refl
    | with_reducible assumption
    | ((with_reducible apply Keeps.step (State.modEngine_keeps ..)); focus exact rfl)
    | with_reducible apply Keeps.ite
    | with_reducible apply Keeps.ite_fst
    | with_reducible refine Keeps.foldl _ (fun _ _ => ?_) ?_
    | extract_lets
    | split
    | dsimp only)

theorem release_keeps (s : State) (w : Nat) (j : Job) (status : Nat) (sub : Nat) : Keeps (only [.jobs, .mem, .buffers, .engines, .keys, .relay]) s
    (release s w j status sub) := by
  unfold release
  repeat' (first
    | with_reducible apply Keeps.refl
    | with_reducible assumption
    | ((with_reducible apply Keeps.step (State.modJob_keeps ..)); focus exact rfl)
    | ((with_reducible apply Keeps.step (giveOuts_keeps ..)); focus exact rfl)
    | ((with_reducible apply Keeps.step (fixOutcome_keeps ..)); focus exact rfl)
    | ((with_reducible apply Keeps.step (startWipe_keeps ..)); focus exact rfl)
    | with_reducible apply Keeps.ite
    | with_reducible apply Keeps.ite_fst
    | with_reducible refine Keeps.foldl _ (fun _ _ => ?_) ?_
    | extract_lets
    | split
    | dsimp only)

theorem releaseAt_keeps (s : State) (w : Nat) (j : Job) (tick : Stamp) (b : Nat) : Keeps (allBut [.pending, .params, .offers, .nextJob, .time,
    .freeCount]) s (releaseAt s w j tick b) := by
  unfold releaseAt
  repeat' (first
    | with_reducible apply Keeps.refl
    | with_reducible assumption
    | ((with_reducible apply Keeps.step (chargeBlocks_keeps ..)); focus exact rfl)
    | ((with_reducible apply Keeps.step (State.modEngine_keeps ..)); focus exact rfl)
    | ((with_reducible apply Keeps.step (release_keeps ..)); focus exact rfl)
    | ((with_reducible apply Keeps.step (countFault_keeps ..)); focus exact rfl)
    | ((with_reducible apply Keeps.step (raisesA_keeps ..)); focus exact rfl)
    | with_reducible apply Keeps.ite
    | with_reducible apply Keeps.ite_fst
    | with_reducible refine Keeps.foldl _ (fun _ _ => ?_) ?_
    | extract_lets
    | split
    | dsimp only)

theorem releaseTick_keeps (s : State) (w : Nat) : Keeps (allBut [.pending, .params, .offers, .nextJob, .time, .freeCount]) s (releaseTick s w) := by
  unfold releaseTick
  repeat' (first
    | with_reducible apply Keeps.refl
    | with_reducible assumption
    | ((with_reducible apply Keeps.step (releaseAt_keeps ..)); focus exact rfl)
    | with_reducible apply Keeps.ite
    | with_reducible apply Keeps.ite_fst
    | with_reducible refine Keeps.foldl _ (fun _ _ => ?_) ?_
    | extract_lets
    | split
    | dsimp only)

theorem execReleaseTick_keeps (wing : Nat) (s : State) : OutKeeps (allBut [.pending, .params, .offers, .nextJob, .time]) s (execReleaseTick wing s) :=
    by
  unfold execReleaseTick
  repeat' (first
    | with_reducible apply Keeps.refl
    | with_reducible assumption
    | with_reducible exact OutKeeps.fault
    | with_reducible exact OutKeeps.refused
    | with_reducible apply OutKeeps.ok
    | with_reducible apply OutKeeps.next
    | with_reducible apply OutKeeps.ite
    | ((with_reducible apply Keeps.step (carryAll_keeps ..)); focus exact rfl)
    | ((with_reducible apply Keeps.step (releaseTick_keeps ..)); focus exact rfl)
    | with_reducible apply Keeps.ite
    | with_reducible apply Keeps.ite_fst
    | with_reducible refine Keeps.foldl _ (fun _ _ => ?_) ?_
    | extract_lets
    | split
    | dsimp only)

theorem blockTick_keeps (s : State) (w : Nat) : Keeps (allBut [.pending, .params, .offers, .nextJob, .time, .freeCount]) s (blockTick s w) := by
  unfold blockTick
  repeat' (first
    | with_reducible apply Keeps.refl
    | with_reducible assumption
    | ((with_reducible apply Keeps.step (State.modJob_keeps ..)); focus exact rfl)
    | ((with_reducible apply Keeps.step (releaseAt_keeps ..)); focus exact rfl)
    | ((with_reducible apply Keeps.step (State.modEngine_keeps ..)); focus exact rfl)
    | with_reducible apply Keeps.ite
    | with_reducible apply Keeps.ite_fst
    | with_reducible refine Keeps.foldl _ (fun _ _ => ?_) ?_
    | extract_lets
    | split
    | dsimp only)

theorem execMldsaBlockTick_keeps (wing : Nat) (s : State) : OutKeeps (allBut [.pending, .params, .offers, .nextJob, .time]) s (execMldsaBlockTick wing
    s) := by
  unfold execMldsaBlockTick
  repeat' (first
    | with_reducible apply Keeps.refl
    | with_reducible assumption
    | with_reducible exact OutKeeps.fault
    | with_reducible exact OutKeeps.refused
    | with_reducible apply OutKeeps.ok
    | with_reducible apply OutKeeps.next
    | with_reducible apply OutKeeps.ite
    | ((with_reducible apply Keeps.step (carryAll_keeps ..)); focus exact rfl)
    | ((with_reducible apply Keeps.step (blockTick_keeps ..)); focus exact rfl)
    | with_reducible apply Keeps.ite
    | with_reducible apply Keeps.ite_fst
    | with_reducible refine Keeps.foldl _ (fun _ _ => ?_) ?_
    | extract_lets
    | split
    | dsimp only)

theorem wipeDone_keeps (s : State) (w : Nat) (clean : Bool) : Keeps (allBut [.pending, .params, .seats, .offers, .nextJob, .time, .freeCount]) s
    (wipeDone s w clean) := by
  unfold wipeDone
  repeat' (first
    | with_reducible apply Keeps.refl
    | with_reducible assumption
    | ((with_reducible apply Keeps.step (State.modEngine_keeps ..)); focus exact rfl)
    | ((with_reducible apply Keeps.step (alarmA_keeps ..)); focus exact rfl)
    | ((with_reducible apply Keeps.step (keepOutcome_keeps ..)); focus exact rfl)
    | with_reducible apply Keeps.ite
    | with_reducible apply Keeps.ite_fst
    | with_reducible refine Keeps.foldl _ (fun _ _ => ?_) ?_
    | extract_lets
    | split
    | dsimp only)

theorem execWipeDone_keeps (wing : Nat) (clean : Bool) (s : State) : OutKeeps (allBut [.pending, .params, .offers, .nextJob, .time]) s (execWipeDone
    wing clean s) := by
  unfold execWipeDone
  repeat' (first
    | with_reducible apply Keeps.refl
    | with_reducible assumption
    | with_reducible exact OutKeeps.fault
    | with_reducible exact OutKeeps.refused
    | with_reducible apply OutKeeps.ok
    | with_reducible apply OutKeeps.next
    | with_reducible apply OutKeeps.ite
    | ((with_reducible apply Keeps.step (carryAll_keeps ..)); focus exact rfl)
    | ((with_reducible apply Keeps.step (wipeDone_keeps ..)); focus exact rfl)
    | with_reducible apply Keeps.ite
    | with_reducible apply Keeps.ite_fst
    | with_reducible refine Keeps.foldl _ (fun _ _ => ?_) ?_
    | extract_lets
    | split
    | dsimp only)

theorem engRead_keeps (s : State) (off : Nat) : Keeps (only [.seats, .engines]) s (engRead s off) := by
  unfold engRead
  repeat' (first
    | with_reducible apply Keeps.refl
    | with_reducible assumption
    | ((with_reducible apply Keeps.step (State.modEngine_keeps ..)); focus exact rfl)
    | ((with_reducible apply Keeps.step (State.modSeat_keeps ..)); focus exact rfl)
    | with_reducible apply Keeps.ite
    | with_reducible apply Keeps.ite_fst
    | with_reducible refine Keeps.foldl _ (fun _ _ => ?_) ?_
    | extract_lets
    | split
    | dsimp only
    | ((with_reducible apply Keeps.upd) <;> first | exact .inl rfl | exact .inr rfl | skip))

theorem engWrite_keeps (s : State) (off : Nat) (v : W32) : Keeps (only [.alarms, .seats, .place, .engines, .prompts]) s (engWrite s off v) := by
  unfold engWrite
  repeat' (first
    | with_reducible apply Keeps.refl
    | with_reducible assumption
    | ((with_reducible apply Keeps.step (refuse_keeps ..)); focus exact rfl)
    | ((with_reducible apply Keeps.step (State.modSeat_keeps ..)); focus exact rfl)
    | ((with_reducible apply Keeps.step (latchEpoch_keeps ..)); focus exact rfl)
    | with_reducible apply Keeps.ite
    | with_reducible apply Keeps.ite_fst
    | with_reducible refine Keeps.foldl _ (fun _ _ => ?_) ?_
    | extract_lets
    | split
    | dsimp only
    | ((with_reducible apply Keeps.upd) <;> first | exact .inl rfl | exact .inr rfl | skip))

theorem clearRead_keeps (s : State) (off : Nat) (idle : Nat) : Keeps (only [.seats, .seatRegs, .engines]) s (clearRead s off idle) := by
  unfold clearRead
  repeat' (first
    | with_reducible apply Keeps.refl
    | with_reducible assumption
    | ((with_reducible apply hregRead_keeps); focus exact rfl)
    | ((with_reducible apply Keeps.step (engRead_keeps ..)); focus exact rfl)
    | ((with_reducible apply Keeps.step (readBack_keeps ..)); focus exact rfl)
    | with_reducible intro _
    | with_reducible apply Keeps.self
    | with_reducible apply Keeps.ite
    | with_reducible apply Keeps.ite_fst
    | with_reducible refine Keeps.foldl _ (fun _ _ => ?_) ?_
    | extract_lets
    | split
    | dsimp only)

theorem execFloorWrite_keeps (value : W32) (s : State) : OutKeeps (only [.alarms, .seats, .place, .engines, .prompts]) s (execFloorWrite value s) :=
    by
  unfold execFloorWrite
  repeat' (first
    | with_reducible apply Keeps.refl
    | with_reducible assumption
    | with_reducible exact OutKeeps.fault
    | with_reducible exact OutKeeps.refused
    | with_reducible apply OutKeeps.ok
    | with_reducible apply OutKeeps.next
    | with_reducible apply OutKeeps.ite
    | ((with_reducible apply mgrWrite_keeps); focus exact rfl)
    | ((with_reducible apply Keeps.step (engWrite_keeps ..)); focus exact rfl)
    | with_reducible intro _
    | with_reducible apply Keeps.self
    | with_reducible apply Keeps.ite
    | with_reducible apply Keeps.ite_fst
    | with_reducible refine Keeps.foldl _ (fun _ _ => ?_) ?_
    | extract_lets
    | split
    | dsimp only)

theorem execRtQuery_keeps (value : W32) (s : State) : OutKeeps (only [.alarms, .seats, .place, .engines, .prompts]) s (execRtQuery value s) := by
  unfold execRtQuery
  repeat' (first
    | with_reducible apply Keeps.refl
    | with_reducible assumption
    | with_reducible exact OutKeeps.fault
    | with_reducible exact OutKeeps.refused
    | with_reducible apply OutKeeps.ok
    | with_reducible apply OutKeeps.next
    | with_reducible apply OutKeeps.ite
    | ((with_reducible apply mgrWrite_keeps); focus exact rfl)
    | ((with_reducible apply Keeps.step (engWrite_keeps ..)); focus exact rfl)
    | with_reducible intro _
    | with_reducible apply Keeps.self
    | with_reducible apply Keeps.ite
    | with_reducible apply Keeps.ite_fst
    | with_reducible refine Keeps.foldl _ (fun _ _ => ?_) ?_
    | extract_lets
    | split
    | dsimp only)

theorem execSlackRead_keeps (wing : Nat) (s : State) : OutKeeps (only [.seats, .seatRegs, .engines]) s (execSlackRead wing s) := by
  unfold execSlackRead
  repeat' (first
    | with_reducible apply Keeps.refl
    | with_reducible assumption
    | with_reducible exact OutKeeps.fault
    | with_reducible exact OutKeeps.refused
    | with_reducible apply OutKeeps.ok
    | with_reducible apply OutKeeps.next
    | with_reducible apply OutKeeps.ite
    | ((with_reducible apply Keeps.step (clearRead_keeps ..)); focus exact rfl)
    | with_reducible apply Keeps.ite
    | with_reducible apply Keeps.ite_fst
    | with_reducible refine Keeps.foldl _ (fun _ _ => ?_) ?_
    | extract_lets
    | split
    | dsimp only)

theorem execFaultLogRead_keeps (s : State) : OutKeeps (only [.seats, .seatRegs, .engines]) s (execFaultLogRead s) := by
  unfold execFaultLogRead
  repeat' (first
    | with_reducible apply Keeps.refl
    | with_reducible assumption
    | with_reducible exact OutKeeps.fault
    | with_reducible exact OutKeeps.refused
    | with_reducible apply OutKeeps.ok
    | with_reducible apply OutKeeps.next
    | with_reducible apply OutKeeps.ite
    | ((with_reducible apply Keeps.step (clearRead_keeps ..)); focus exact rfl)
    | with_reducible apply Keeps.ite
    | with_reducible apply Keeps.ite_fst
    | with_reducible refine Keeps.foldl _ (fun _ _ => ?_) ?_
    | extract_lets
    | split
    | dsimp only)

theorem execAdmitStsRead_keeps (seat : Nat) (s : State) : OutKeeps (only [.seats, .seatRegs, .engines]) s (execAdmitStsRead seat s) := by
  unfold execAdmitStsRead
  repeat' (first
    | with_reducible apply Keeps.refl
    | with_reducible assumption
    | with_reducible exact OutKeeps.fault
    | with_reducible exact OutKeeps.refused
    | with_reducible apply OutKeeps.ok
    | with_reducible apply OutKeeps.next
    | with_reducible apply OutKeeps.ite
    | ((with_reducible apply Keeps.step (clearRead_keeps ..)); focus exact rfl)
    | with_reducible apply Keeps.ite
    | with_reducible apply Keeps.ite_fst
    | with_reducible refine Keeps.foldl _ (fun _ _ => ?_) ?_
    | extract_lets
    | split
    | dsimp only)

end Sys2Proof.Machine
end

