-- ==== Sys2Proof/Laws/FrameEngRun.lean ====
section
/-! SUPPORT. Frames of Machine/EngRun: for each operation, the parts of the state it may change. -/

namespace Sys2Proof.Machine

theorem execModAdd_keeps (job : Nat) (s : State) : OutKeeps (allBut [.pending, .params, .journal, .offers, .nextJob, .window, .time, .cust]) s
    (execModAdd job s) := by
  unfold execModAdd
  repeat' (first
    | with_reducible apply Keeps.refl
    | with_reducible assumption
    | with_reducible exact OutKeeps.fault
    | with_reducible exact OutKeeps.refused
    | with_reducible apply OutKeeps.ok
    | with_reducible apply OutKeeps.next
    | with_reducible apply OutKeeps.ite
    | ((with_reducible apply Keeps.step (fin_keeps ..)); focus exact rfl)
    | ((with_reducible apply Keeps.step (engOp_keeps ..)); focus exact rfl)
    | with_reducible apply Keeps.ite
    | with_reducible apply Keeps.ite_fst
    | with_reducible refine Keeps.foldl _ (fun _ _ => ?_) ?_
    | extract_lets
    | split
    | dsimp only)

theorem execModSub_keeps (job : Nat) (s : State) : OutKeeps (allBut [.pending, .params, .journal, .offers, .nextJob, .window, .time, .cust]) s
    (execModSub job s) := by
  unfold execModSub
  repeat' (first
    | with_reducible apply Keeps.refl
    | with_reducible assumption
    | with_reducible exact OutKeeps.fault
    | with_reducible exact OutKeeps.refused
    | with_reducible apply OutKeeps.ok
    | with_reducible apply OutKeeps.next
    | with_reducible apply OutKeeps.ite
    | ((with_reducible apply Keeps.step (fin_keeps ..)); focus exact rfl)
    | ((with_reducible apply Keeps.step (engOp_keeps ..)); focus exact rfl)
    | with_reducible apply Keeps.ite
    | with_reducible apply Keeps.ite_fst
    | with_reducible refine Keeps.foldl _ (fun _ _ => ?_) ?_
    | extract_lets
    | split
    | dsimp only)

theorem execModMul_keeps (job : Nat) (s : State) : OutKeeps (allBut [.pending, .params, .journal, .offers, .nextJob, .window, .time, .cust]) s
    (execModMul job s) := by
  unfold execModMul
  repeat' (first
    | with_reducible apply Keeps.refl
    | with_reducible assumption
    | with_reducible exact OutKeeps.fault
    | with_reducible exact OutKeeps.refused
    | with_reducible apply OutKeeps.ok
    | with_reducible apply OutKeeps.next
    | with_reducible apply OutKeeps.ite
    | ((with_reducible apply Keeps.step (fin_keeps ..)); focus exact rfl)
    | ((with_reducible apply Keeps.step (engOp_keeps ..)); focus exact rfl)
    | with_reducible apply Keeps.ite
    | with_reducible apply Keeps.ite_fst
    | with_reducible refine Keeps.foldl _ (fun _ _ => ?_) ?_
    | extract_lets
    | split
    | dsimp only)

theorem execModInv_keeps (job : Nat) (s : State) : OutKeeps (allBut [.pending, .params, .journal, .offers, .nextJob, .window, .time, .cust]) s
    (execModInv job s) := by
  unfold execModInv
  repeat' (first
    | with_reducible apply Keeps.refl
    | with_reducible assumption
    | with_reducible exact OutKeeps.fault
    | with_reducible exact OutKeeps.refused
    | with_reducible apply OutKeeps.ok
    | with_reducible apply OutKeeps.next
    | with_reducible apply OutKeeps.ite
    | ((with_reducible apply Keeps.step (fin_keeps ..)); focus exact rfl)
    | ((with_reducible apply Keeps.step (engOp_keeps ..)); focus exact rfl)
    | with_reducible apply Keeps.ite
    | with_reducible apply Keeps.ite_fst
    | with_reducible refine Keeps.foldl _ (fun _ _ => ?_) ?_
    | extract_lets
    | split
    | dsimp only)

theorem execModExp_keeps (job : Nat) (s : State) : OutKeeps (allBut [.pending, .params, .journal, .offers, .nextJob, .window, .time, .cust]) s
    (execModExp job s) := by
  unfold execModExp
  repeat' (first
    | with_reducible apply Keeps.refl
    | with_reducible assumption
    | with_reducible exact OutKeeps.fault
    | with_reducible exact OutKeeps.refused
    | with_reducible apply OutKeeps.ok
    | with_reducible apply OutKeeps.next
    | with_reducible apply OutKeeps.ite
    | ((with_reducible apply Keeps.step (fin_keeps ..)); focus exact rfl)
    | ((with_reducible apply Keeps.step (engOp_keeps ..)); focus exact rfl)
    | with_reducible apply Keeps.ite
    | with_reducible apply Keeps.ite_fst
    | with_reducible refine Keeps.foldl _ (fun _ _ => ?_) ?_
    | extract_lets
    | split
    | dsimp only)

theorem execModExpCrt_keeps (job : Nat) (s : State) : OutKeeps (allBut [.pending, .params, .journal, .offers, .nextJob, .window, .time, .cust]) s
    (execModExpCrt job s) := by
  unfold execModExpCrt
  repeat' (first
    | with_reducible apply Keeps.refl
    | with_reducible assumption
    | with_reducible exact OutKeeps.fault
    | with_reducible exact OutKeeps.refused
    | with_reducible apply OutKeeps.ok
    | with_reducible apply OutKeeps.next
    | with_reducible apply OutKeeps.ite
    | ((with_reducible apply Keeps.step (fin_keeps ..)); focus exact rfl)
    | ((with_reducible apply Keeps.step (engOp_keeps ..)); focus exact rfl)
    | with_reducible apply Keeps.ite
    | with_reducible apply Keeps.ite_fst
    | with_reducible refine Keeps.foldl _ (fun _ _ => ?_) ?_
    | extract_lets
    | split
    | dsimp only)

theorem execEcKeygen_keeps (job : Nat) (s : State) : OutKeeps (allBut [.pending, .params, .journal, .offers, .nextJob, .window, .time, .cust]) s
    (execEcKeygen job s) := by
  unfold execEcKeygen
  repeat' (first
    | with_reducible apply Keeps.refl
    | with_reducible assumption
    | with_reducible exact OutKeeps.fault
    | with_reducible exact OutKeeps.refused
    | with_reducible apply OutKeeps.ok
    | with_reducible apply OutKeeps.next
    | with_reducible apply OutKeeps.ite
    | ((with_reducible apply Keeps.step (fin_keeps ..)); focus exact rfl)
    | ((with_reducible apply Keeps.step (engOp_keeps ..)); focus exact rfl)
    | with_reducible apply Keeps.ite
    | with_reducible apply Keeps.ite_fst
    | with_reducible refine Keeps.foldl _ (fun _ _ => ?_) ?_
    | extract_lets
    | split
    | dsimp only)

theorem execEcdsaSign_keeps (job : Nat) (s : State) : OutKeeps (allBut [.pending, .params, .journal, .offers, .nextJob, .window, .time, .cust]) s
    (execEcdsaSign job s) := by
  unfold execEcdsaSign
  repeat' (first
    | with_reducible apply Keeps.refl
    | with_reducible assumption
    | with_reducible exact OutKeeps.fault
    | with_reducible exact OutKeeps.refused
    | with_reducible apply OutKeeps.ok
    | with_reducible apply OutKeeps.next
    | with_reducible apply OutKeeps.ite
    | ((with_reducible apply Keeps.step (fin_keeps ..)); focus exact rfl)
    | ((with_reducible apply Keeps.step (engOp_keeps ..)); focus exact rfl)
    | with_reducible apply Keeps.ite
    | with_reducible apply Keeps.ite_fst
    | with_reducible refine Keeps.foldl _ (fun _ _ => ?_) ?_
    | extract_lets
    | split
    | dsimp only)

theorem execEcdsaVerify_keeps (job : Nat) (s : State) : OutKeeps (allBut [.pending, .params, .journal, .offers, .nextJob, .window, .time, .cust]) s
    (execEcdsaVerify job s) := by
  unfold execEcdsaVerify
  repeat' (first
    | with_reducible apply Keeps.refl
    | with_reducible assumption
    | with_reducible exact OutKeeps.fault
    | with_reducible exact OutKeeps.refused
    | with_reducible apply OutKeeps.ok
    | with_reducible apply OutKeeps.next
    | with_reducible apply OutKeeps.ite
    | ((with_reducible apply Keeps.step (fin_keeps ..)); focus exact rfl)
    | ((with_reducible apply Keeps.step (engOp_keeps ..)); focus exact rfl)
    | with_reducible apply Keeps.ite
    | with_reducible apply Keeps.ite_fst
    | with_reducible refine Keeps.foldl _ (fun _ _ => ?_) ?_
    | extract_lets
    | split
    | dsimp only)

theorem execEcdh_keeps (job : Nat) (s : State) : OutKeeps (allBut [.pending, .params, .journal, .offers, .nextJob, .window, .time, .cust]) s (execEcdh
    job s) := by
  unfold execEcdh
  repeat' (first
    | with_reducible apply Keeps.refl
    | with_reducible assumption
    | with_reducible exact OutKeeps.fault
    | with_reducible exact OutKeeps.refused
    | with_reducible apply OutKeeps.ok
    | with_reducible apply OutKeeps.next
    | with_reducible apply OutKeeps.ite
    | ((with_reducible apply Keeps.step (fin_keeps ..)); focus exact rfl)
    | ((with_reducible apply Keeps.step (engOp_keeps ..)); focus exact rfl)
    | with_reducible apply Keeps.ite
    | with_reducible apply Keeps.ite_fst
    | with_reducible refine Keeps.foldl _ (fun _ _ => ?_) ?_
    | extract_lets
    | split
    | dsimp only)

theorem execEd25519Sign_keeps (job : Nat) (s : State) : OutKeeps (allBut [.pending, .params, .journal, .offers, .nextJob, .window, .time, .cust]) s
    (execEd25519Sign job s) := by
  unfold execEd25519Sign
  repeat' (first
    | with_reducible apply Keeps.refl
    | with_reducible assumption
    | with_reducible exact OutKeeps.fault
    | with_reducible exact OutKeeps.refused
    | with_reducible apply OutKeeps.ok
    | with_reducible apply OutKeeps.next
    | with_reducible apply OutKeeps.ite
    | ((with_reducible apply Keeps.step (fin_keeps ..)); focus exact rfl)
    | ((with_reducible apply Keeps.step (engOp_keeps ..)); focus exact rfl)
    | with_reducible apply Keeps.ite
    | with_reducible apply Keeps.ite_fst
    | with_reducible refine Keeps.foldl _ (fun _ _ => ?_) ?_
    | extract_lets
    | split
    | dsimp only)

theorem execEd25519Verify_keeps (job : Nat) (s : State) : OutKeeps (allBut [.pending, .params, .journal, .offers, .nextJob, .window, .time, .cust]) s
    (execEd25519Verify job s) := by
  unfold execEd25519Verify
  repeat' (first
    | with_reducible apply Keeps.refl
    | with_reducible assumption
    | with_reducible exact OutKeeps.fault
    | with_reducible exact OutKeeps.refused
    | with_reducible apply OutKeeps.ok
    | with_reducible apply OutKeeps.next
    | with_reducible apply OutKeeps.ite
    | ((with_reducible apply Keeps.step (fin_keeps ..)); focus exact rfl)
    | ((with_reducible apply Keeps.step (engOp_keeps ..)); focus exact rfl)
    | with_reducible apply Keeps.ite
    | with_reducible apply Keeps.ite_fst
    | with_reducible refine Keeps.foldl _ (fun _ _ => ?_) ?_
    | extract_lets
    | split
    | dsimp only)

theorem execMlkemKeygen_keeps (job : Nat) (s : State) : OutKeeps (allBut [.pending, .params, .journal, .offers, .nextJob, .window, .time, .cust]) s
    (execMlkemKeygen job s) := by
  unfold execMlkemKeygen
  repeat' (first
    | with_reducible apply Keeps.refl
    | with_reducible assumption
    | with_reducible exact OutKeeps.fault
    | with_reducible exact OutKeeps.refused
    | with_reducible apply OutKeeps.ok
    | with_reducible apply OutKeeps.next
    | with_reducible apply OutKeeps.ite
    | ((with_reducible apply Keeps.step (fin_keeps ..)); focus exact rfl)
    | ((with_reducible apply Keeps.step (engOp_keeps ..)); focus exact rfl)
    | with_reducible apply Keeps.ite
    | with_reducible apply Keeps.ite_fst
    | with_reducible refine Keeps.foldl _ (fun _ _ => ?_) ?_
    | extract_lets
    | split
    | dsimp only)

theorem execMlkemEncaps_keeps (job : Nat) (s : State) : OutKeeps (allBut [.pending, .params, .journal, .offers, .nextJob, .window, .time, .cust]) s
    (execMlkemEncaps job s) := by
  unfold execMlkemEncaps
  repeat' (first
    | with_reducible apply Keeps.refl
    | with_reducible assumption
    | with_reducible exact OutKeeps.fault
    | with_reducible exact OutKeeps.refused
    | with_reducible apply OutKeeps.ok
    | with_reducible apply OutKeeps.next
    | with_reducible apply OutKeeps.ite
    | ((with_reducible apply Keeps.step (fin_keeps ..)); focus exact rfl)
    | ((with_reducible apply Keeps.step (engOp_keeps ..)); focus exact rfl)
    | with_reducible apply Keeps.ite
    | with_reducible apply Keeps.ite_fst
    | with_reducible refine Keeps.foldl _ (fun _ _ => ?_) ?_
    | extract_lets
    | split
    | dsimp only)

theorem execMlkemDecaps_keeps (job : Nat) (s : State) : OutKeeps (allBut [.pending, .params, .journal, .offers, .nextJob, .window, .time, .cust]) s
    (execMlkemDecaps job s) := by
  unfold execMlkemDecaps
  repeat' (first
    | with_reducible apply Keeps.refl
    | with_reducible assumption
    | with_reducible exact OutKeeps.fault
    | with_reducible exact OutKeeps.refused
    | with_reducible apply OutKeeps.ok
    | with_reducible apply OutKeeps.next
    | with_reducible apply OutKeeps.ite
    | ((with_reducible apply Keeps.step (fin_keeps ..)); focus exact rfl)
    | ((with_reducible apply Keeps.step (engOp_keeps ..)); focus exact rfl)
    | with_reducible apply Keeps.ite
    | with_reducible apply Keeps.ite_fst
    | with_reducible refine Keeps.foldl _ (fun _ _ => ?_) ?_
    | extract_lets
    | split
    | dsimp only)

theorem execMldsaKeygen_keeps (job : Nat) (s : State) : OutKeeps (allBut [.pending, .params, .journal, .offers, .nextJob, .window, .time, .cust]) s
    (execMldsaKeygen job s) := by
  unfold execMldsaKeygen
  repeat' (first
    | with_reducible apply Keeps.refl
    | with_reducible assumption
    | with_reducible exact OutKeeps.fault
    | with_reducible exact OutKeeps.refused
    | with_reducible apply OutKeeps.ok
    | with_reducible apply OutKeeps.next
    | with_reducible apply OutKeeps.ite
    | ((with_reducible apply Keeps.step (fin_keeps ..)); focus exact rfl)
    | ((with_reducible apply Keeps.step (engOp_keeps ..)); focus exact rfl)
    | with_reducible apply Keeps.ite
    | with_reducible apply Keeps.ite_fst
    | with_reducible refine Keeps.foldl _ (fun _ _ => ?_) ?_
    | extract_lets
    | split
    | dsimp only)

theorem execMldsaSign_keeps (job : Nat) (s : State) : OutKeeps (allBut [.pending, .params, .journal, .offers, .nextJob, .window, .time, .cust]) s
    (execMldsaSign job s) := by
  unfold execMldsaSign
  repeat' (first
    | with_reducible apply Keeps.refl
    | with_reducible assumption
    | with_reducible exact OutKeeps.fault
    | with_reducible exact OutKeeps.refused
    | with_reducible apply OutKeeps.ok
    | with_reducible apply OutKeeps.next
    | with_reducible apply OutKeeps.ite
    | ((with_reducible apply Keeps.step (fin_keeps ..)); focus exact rfl)
    | ((with_reducible apply Keeps.step (engOp_keeps ..)); focus exact rfl)
    | with_reducible apply Keeps.ite
    | with_reducible apply Keeps.ite_fst
    | with_reducible refine Keeps.foldl _ (fun _ _ => ?_) ?_
    | extract_lets
    | split
    | dsimp only)

theorem execMldsaVerify_keeps (job : Nat) (s : State) : OutKeeps (allBut [.pending, .params, .journal, .offers, .nextJob, .window, .time, .cust]) s
    (execMldsaVerify job s) := by
  unfold execMldsaVerify
  repeat' (first
    | with_reducible apply Keeps.refl
    | with_reducible assumption
    | with_reducible exact OutKeeps.fault
    | with_reducible exact OutKeeps.refused
    | with_reducible apply OutKeeps.ok
    | with_reducible apply OutKeeps.next
    | with_reducible apply OutKeeps.ite
    | ((with_reducible apply Keeps.step (fin_keeps ..)); focus exact rfl)
    | ((with_reducible apply Keeps.step (engOp_keeps ..)); focus exact rfl)
    | with_reducible apply Keeps.ite
    | with_reducible apply Keeps.ite_fst
    | with_reducible refine Keeps.foldl _ (fun _ _ => ?_) ?_
    | extract_lets
    | split
    | dsimp only)

theorem execPoly_keeps (job : Nat) (s : State) : OutKeeps (allBut [.pending, .params, .journal, .offers, .nextJob, .window, .time, .cust]) s (execPoly
    job s) := by
  unfold execPoly
  repeat' (first
    | with_reducible apply Keeps.refl
    | with_reducible assumption
    | with_reducible exact OutKeeps.fault
    | with_reducible exact OutKeeps.refused
    | with_reducible apply OutKeeps.ok
    | with_reducible apply OutKeeps.next
    | with_reducible apply OutKeeps.ite
    | ((with_reducible apply Keeps.step (fin_keeps ..)); focus exact rfl)
    | ((with_reducible apply Keeps.step (engOp_keeps ..)); focus exact rfl)
    | with_reducible apply Keeps.ite
    | with_reducible apply Keeps.ite_fst
    | with_reducible refine Keeps.foldl _ (fun _ _ => ?_) ?_
    | extract_lets
    | split
    | dsimp only)

end Sys2Proof.Machine
end

