-- ==== Sys2Proof/Laws/FrameKeyJob.lean ====
section
/-! SUPPORT. Frames of Machine/KeyJob: for each operation, the parts of the state it may change. -/

namespace Sys2Proof.Machine

theorem handleCk_ck {ch : Part → Bool} {s0 : State} {s : State} {j : Job} {h : Nat} {stage : Nat} (hm : within (only [.mem, .keys]) ch = true) (h0 :
    Keeps ch s0 s) : CkOk (OfPair ch s0) (Keeps ch s0) (handleCk s j h stage) := by
  unfold handleCk
  repeat' (first
    | with_reducible apply Keeps.refl
    | with_reducible assumption
    | with_reducible exact ofAny _
    | with_reducible apply ck_ite
    | with_reducible exact CkOk.need
    | with_reducible exact CkOk.fail
    | with_reducible apply ck_ok
    | with_reducible apply ck_pure
    | with_reducible apply CkOk.waits
    | with_reducible refine ck_bindState ?_ (fun _ _ => ?_)
    | with_reducible refine ck_bindPair ?_ (fun _ _ _ => ?_)
    | with_reducible refine ck_bindAny ?_ (fun _ => ?_)
    | with_reducible apply OfState.mk
    | with_reducible apply ofPair
    | ((with_reducible apply Keeps.step (keepAttr_keeps ..)); focus exact (within_trans rfl hm))
    | with_reducible apply Keeps.ite
    | with_reducible apply Keeps.ite_fst
    | with_reducible refine Keeps.foldl _ (fun _ _ => ?_) ?_
    | extract_lets
    | split
    | dsimp only)

theorem keyrefCk_ck {ch : Part → Bool} {s0 : State} {s : State} {j : Job} (hm : within (only [.mem, .keys]) ch = true) (h0 : Keeps ch s0 s) : CkOk
    (OfState ch s0) (Keeps ch s0) (keyrefCk s j) := by
  unfold keyrefCk
  repeat' (first
    | with_reducible apply Keeps.refl
    | with_reducible assumption
    | ((with_reducible apply handleCk_ck); focus exact (within_trans rfl hm))
    | with_reducible refine ck_any (p := OfPair _ _) ?_
    | with_reducible apply chk_ck
    | with_reducible exact ofAny _
    | with_reducible apply ck_ite
    | with_reducible exact CkOk.need
    | with_reducible exact CkOk.fail
    | with_reducible apply ck_ok
    | with_reducible apply ck_pure
    | with_reducible apply CkOk.waits
    | with_reducible refine ck_bindState ?_ (fun _ _ => ?_)
    | with_reducible refine ck_bindPair ?_ (fun _ _ _ => ?_)
    | with_reducible refine ck_bindAny ?_ (fun _ => ?_)
    | with_reducible apply OfState.mk
    | with_reducible apply ofPair
    | with_reducible refine ck_okPair ?_ (by assumption)
    | with_reducible refine ck_waits ?_ (by assumption)
    | with_reducible apply Keeps.ite
    | with_reducible apply Keeps.ite_fst
    | with_reducible refine Keeps.foldl _ (fun _ _ => ?_) ?_
    | extract_lets
    | split
    | dsimp only)

theorem subjectCk_ck {ch : Part → Bool} {s0 : State} {s : State} {j : Job} (hm : within (only [.jobs, .mem, .buffers, .engines, .keys]) ch = true) (h0
    : Keeps ch s0 s) : CkOk (OfState ch s0) (Keeps ch s0) (subjectCk s j) := by
  unfold subjectCk
  repeat' (first
    | with_reducible apply Keeps.refl
    | with_reducible assumption
    | ((with_reducible apply handleCk_ck); focus exact (within_trans rfl hm))
    | with_reducible refine ck_any (p := OfPair _ _) ?_
    | with_reducible apply chk_ck
    | ((with_reducible apply keepOn_ck); focus exact (within_trans rfl hm))
    | with_reducible exact ofAny _
    | with_reducible apply ck_ite
    | with_reducible exact CkOk.need
    | with_reducible exact CkOk.fail
    | with_reducible apply ck_ok
    | with_reducible apply ck_pure
    | with_reducible apply CkOk.waits
    | with_reducible refine ck_bindState ?_ (fun _ _ => ?_)
    | with_reducible refine ck_bindPair ?_ (fun _ _ _ => ?_)
    | with_reducible refine ck_bindAny ?_ (fun _ => ?_)
    | with_reducible apply OfState.mk
    | with_reducible apply ofPair
    | with_reducible refine ck_okPair ?_ (by assumption)
    | with_reducible refine ck_waits ?_ (by assumption)
    | with_reducible apply Keeps.ite
    | with_reducible apply Keeps.ite_fst
    | with_reducible refine Keeps.foldl _ (fun _ _ => ?_) ?_
    | extract_lets
    | split
    | dsimp only)

theorem freshCk_ck {ch : Part → Bool} {s0 : State} {s : State} {j : Job} (hm : within (only []) ch = true) (h0 : Keeps ch s0 s) : CkOk OfAny (Keeps ch
    s0) (freshCk s j) := by
  unfold freshCk
  repeat' (first
    | with_reducible apply Keeps.refl
    | with_reducible assumption
    | with_reducible apply chk_ck
    | ((with_reducible apply chkWait_ck); focus exact (within_trans rfl hm))
    | with_reducible apply needBytes_ck
    | with_reducible exact ofAny _
    | with_reducible apply ck_ite
    | with_reducible exact CkOk.need
    | with_reducible exact CkOk.fail
    | with_reducible apply ck_ok
    | with_reducible apply ck_pure
    | with_reducible apply CkOk.waits
    | with_reducible refine ck_bindState ?_ (fun _ _ => ?_)
    | with_reducible refine ck_bindPair ?_ (fun _ _ _ => ?_)
    | with_reducible refine ck_bindAny ?_ (fun _ => ?_)
    | with_reducible apply OfState.mk
    | with_reducible apply ofPair
    | with_reducible refine ck_waits ?_ (by assumption)
    | with_reducible apply Keeps.ite
    | with_reducible apply Keeps.ite_fst
    | with_reducible refine Keeps.foldl _ (fun _ _ => ?_) ?_
    | extract_lets
    | split
    | dsimp only)

theorem escrowCk_ck {ch : Part → Bool} {s0 : State} {s : State} {j : Job} (hm : within (only []) ch = true) (h0 : Keeps ch s0 s) : CkOk OfAny (Keeps
    ch s0) (escrowCk s j) := by
  unfold escrowCk
  repeat' (first
    | with_reducible apply Keeps.refl
    | with_reducible assumption
    | with_reducible apply chk_ck
    | with_reducible exact ofAny _
    | with_reducible apply ck_ite
    | with_reducible exact CkOk.need
    | with_reducible exact CkOk.fail
    | with_reducible apply ck_ok
    | with_reducible apply ck_pure
    | with_reducible apply CkOk.waits
    | with_reducible refine ck_bindState ?_ (fun _ _ => ?_)
    | with_reducible refine ck_bindPair ?_ (fun _ _ _ => ?_)
    | with_reducible refine ck_bindAny ?_ (fun _ => ?_)
    | with_reducible apply OfState.mk
    | with_reducible apply ofPair
    | with_reducible refine ck_waits ?_ (by assumption)
    | with_reducible apply Keeps.ite
    | with_reducible apply Keeps.ite_fst
    | with_reducible refine Keeps.foldl _ (fun _ _ => ?_) ?_
    | extract_lets
    | split
    | dsimp only)

theorem subjectPlace_ck {ch : Part → Bool} {s0 : State} {s : State} {j : Job} (hm : within (only [.jobs, .mem, .buffers, .engines, .keys]) ch = true)
    (h0 : Keeps ch s0 s) : CkOk (OfState ch s0) (Keeps ch s0) (subjectPlace s j) := by
  unfold subjectPlace
  repeat' (first
    | with_reducible apply Keeps.refl
    | with_reducible assumption
    | ((with_reducible apply chkWait_ck); focus exact (within_trans rfl hm))
    | ((with_reducible apply freshCk_ck); focus exact (within_trans rfl hm))
    | ((with_reducible apply subjectCk_ck); focus exact (within_trans rfl hm))
    | with_reducible refine ck_any (p := OfState _ _) ?_
    | with_reducible exact ofAny _
    | with_reducible apply ck_ite
    | with_reducible exact CkOk.need
    | with_reducible exact CkOk.fail
    | with_reducible apply ck_ok
    | with_reducible apply ck_pure
    | with_reducible apply CkOk.waits
    | with_reducible refine ck_bindState ?_ (fun _ _ => ?_)
    | with_reducible refine ck_bindPair ?_ (fun _ _ _ => ?_)
    | with_reducible refine ck_bindAny ?_ (fun _ => ?_)
    | with_reducible apply OfState.mk
    | with_reducible apply ofPair
    | with_reducible refine ck_waits ?_ (by assumption)
    | with_reducible refine ck_okState ?_ (by assumption)
    | with_reducible apply Keeps.ite
    | with_reducible apply Keeps.ite_fst
    | with_reducible refine Keeps.foldl _ (fun _ _ => ?_) ?_
    | extract_lets
    | split
    | dsimp only)

theorem keyPlace_ck {ch : Part → Bool} {s0 : State} {s : State} {j : Job} (hm : within (only [.jobs, .mem, .buffers, .engines, .keys]) ch = true) (h0
    : Keeps ch s0 s) : CkOk (OfState ch s0) (Keeps ch s0) (keyPlace s j) := by
  unfold keyPlace
  repeat' (first
    | with_reducible apply Keeps.refl
    | with_reducible assumption
    | with_reducible apply chk_ck
    | with_reducible apply needLists_ck
    | ((with_reducible apply keepOn_ck); focus exact (within_trans rfl hm))
    | ((with_reducible apply subjectPlace_ck); focus exact (within_trans rfl hm))
    | with_reducible refine ck_any (p := OfState _ _) ?_
    | ((with_reducible apply escrowCk_ck); focus exact (within_trans rfl hm))
    | ((with_reducible apply keyrefCk_ck); focus exact (within_trans rfl hm))
    | with_reducible exact ofAny _
    | with_reducible apply ck_ite
    | with_reducible exact CkOk.need
    | with_reducible exact CkOk.fail
    | with_reducible apply ck_ok
    | with_reducible apply ck_pure
    | with_reducible apply CkOk.waits
    | with_reducible refine ck_bindState ?_ (fun _ _ => ?_)
    | with_reducible refine ck_bindPair ?_ (fun _ _ _ => ?_)
    | with_reducible refine ck_bindAny ?_ (fun _ => ?_)
    | with_reducible apply OfState.mk
    | with_reducible apply ofPair
    | ((with_reducible apply Keeps.step (beginWait_keeps ..)); focus exact (within_trans rfl hm))
    | ((with_reducible apply Keeps.step (State.modJob_keeps ..)); focus exact (within_trans rfl hm))
    | ((with_reducible apply Keeps.step (endWait_keeps ..)); focus exact (within_trans rfl hm))
    | with_reducible refine ck_waits ?_ (by assumption)
    | with_reducible refine ck_okState ?_ (by assumption)
    | with_reducible apply Keeps.ite
    | with_reducible apply Keeps.ite_fst
    | with_reducible refine Keeps.foldl _ (fun _ _ => ?_) ?_
    | extract_lets
    | split
    | dsimp only)

theorem storeTake_keeps (s : State) (j : Job) : OptKeeps (only [.jobs, .keys]) s (storeTake s j) := by
  unfold storeTake
  repeat' (first
    | with_reducible apply Keeps.refl
    | with_reducible assumption
    | with_reducible exact OptKeeps.none
    | with_reducible apply OptKeeps.some
    | ((with_reducible apply Keeps.step (State.modJob_keeps ..)); focus exact rfl)
    | ((with_reducible apply Keeps.step (State.modKeys_keeps ..)); focus exact rfl)
    | with_reducible apply Keeps.ite
    | with_reducible apply Keeps.ite_fst
    | with_reducible refine Keeps.foldl _ (fun _ _ => ?_) ?_
    | extract_lets
    | split
    | dsimp only)

theorem freeHmac_keeps (s : State) (seat : Nat) (h : Nat) : Keeps (only [.keys]) s (freeHmac s seat h) := by
  unfold freeHmac
  repeat' (first
    | with_reducible apply Keeps.refl
    | with_reducible assumption
    | ((with_reducible apply Keeps.step (State.modKeys_keeps ..)); focus exact rfl)
    | with_reducible apply Keeps.ite
    | with_reducible apply Keeps.ite_fst
    | with_reducible refine Keeps.foldl _ (fun _ _ => ?_) ?_
    | extract_lets
    | split
    | dsimp only)

theorem writeEntry_keeps (s : State) (j : Job) (seat : Nat) (h : Nat) (attr : Nat) (expires : Nat) (limit : Nat) (count : Nat) (blob : Nat) (mat :
    Bytes) : Keeps (only [.jobs, .mem, .keys]) s (writeEntry s j seat h attr expires limit count blob mat) := by
  unfold writeEntry
  repeat' (first
    | with_reducible apply Keeps.refl
    | with_reducible assumption
    | ((with_reducible apply Keeps.step (sealEntry_keeps ..)); focus exact rfl)
    | ((with_reducible apply Keeps.step (writeAt_keeps ..)); focus exact rfl)
    | ((with_reducible apply Keeps.step (freeHmac_keeps ..)); focus exact rfl)
    | ((with_reducible apply Keeps.step (dropAttr_keeps ..)); focus exact rfl)
    | with_reducible refine Keeps.fst (by assumption) ?_
    | with_reducible apply Keeps.ite
    | with_reducible apply Keeps.ite_fst
    | with_reducible refine Keeps.foldl _ (fun _ _ => ?_) ?_
    | extract_lets
    | split
    | dsimp only)

theorem keyOk_keeps (s : State) (j : Job) (result : Nat) (out : Nat) : Keeps (only [.jobs, .mem, .buffers]) s (keyOk s j result out) := by
  unfold keyOk
  repeat' (first
    | with_reducible apply Keeps.refl
    | with_reducible assumption
    | ((with_reducible apply Keeps.step (fixOutcome_keeps ..)); focus exact rfl)
    | with_reducible apply Keeps.ite
    | with_reducible apply Keeps.ite_fst
    | with_reducible refine Keeps.foldl _ (fun _ _ => ?_) ?_
    | extract_lets
    | split
    | dsimp only)

theorem matFail_keeps (s : State) (j : Job) (status : Nat) : Keeps (only [.jobs, .mem, .buffers, .keys]) s (matFail s j status) := by
  unfold matFail
  repeat' (first
    | with_reducible apply Keeps.refl
    | with_reducible assumption
    | ((with_reducible apply Keeps.step (State.modKeys_keeps ..)); focus exact rfl)
    | ((with_reducible apply Keeps.step (fixOutcome_keeps ..)); focus exact rfl)
    | with_reducible apply Keeps.ite
    | with_reducible apply Keeps.ite_fst
    | with_reducible refine Keeps.foldl _ (fun _ _ => ?_) ?_
    | extract_lets
    | split
    | dsimp only)

theorem matOf_ck {ch : Part → Bool} {s0 : State} {s : State} {j : Job} {h : Nat} {stage : Nat} (hm : within (only []) ch = true) (h0 : Keeps ch s0 s)
    : CkOk OfAny (Keeps ch s0) (matOf s j h stage) := by
  unfold matOf
  repeat' (first
    | with_reducible apply Keeps.refl
    | with_reducible assumption
    | with_reducible exact ofAny _
    | with_reducible apply ck_ite
    | with_reducible exact CkOk.need
    | with_reducible exact CkOk.fail
    | with_reducible apply ck_ok
    | with_reducible apply ck_pure
    | with_reducible apply CkOk.waits
    | with_reducible refine ck_bindState ?_ (fun _ _ => ?_)
    | with_reducible refine ck_bindPair ?_ (fun _ _ _ => ?_)
    | with_reducible refine ck_bindAny ?_ (fun _ => ?_)
    | with_reducible apply OfState.mk
    | with_reducible apply ofPair
    | with_reducible apply Keeps.ite
    | with_reducible apply Keeps.ite_fst
    | with_reducible refine Keeps.foldl _ (fun _ _ => ?_) ?_
    | extract_lets
    | split
    | dsimp only)

theorem wholeBuf_ck {w : State → Prop} {j : Job} {off : Nat} : CkOk OfAny w (wholeBuf j off) := by
  unfold wholeBuf
  repeat' (first
    | with_reducible apply Keeps.refl
    | with_reducible assumption
    | with_reducible exact ofAny _
    | with_reducible apply ck_ite
    | with_reducible exact CkOk.need
    | with_reducible exact CkOk.fail
    | with_reducible apply ck_ok
    | with_reducible apply ck_pure
    | with_reducible apply CkOk.waits
    | with_reducible refine ck_bindState ?_ (fun _ _ => ?_)
    | with_reducible refine ck_bindPair ?_ (fun _ _ _ => ?_)
    | with_reducible refine ck_bindAny ?_ (fun _ => ?_)
    | with_reducible apply OfState.mk
    | with_reducible apply ofPair
    | with_reducible apply needBytes_ck
    | with_reducible refine ck_waits ?_ (by assumption)
    | with_reducible apply Keeps.ite
    | with_reducible apply Keeps.ite_fst
    | with_reducible refine Keeps.foldl _ (fun _ _ => ?_) ?_
    | extract_lets
    | split
    | dsimp only)

theorem keyrefLive_ck {ch : Part → Bool} {s0 : State} {s : State} {j : Job} (hm : within (only [.jobs, .mem, .buffers, .engines, .keys]) ch = true)
    (h0 : Keeps ch s0 s) : CkOk (OfPair ch s0) (Keeps ch s0) (keyrefLive s j) := by
  unfold keyrefLive
  repeat' (first
    | with_reducible apply Keeps.refl
    | with_reducible assumption
    | ((with_reducible apply handleCk_ck); focus exact (within_trans rfl hm))
    | with_reducible refine ck_any (p := OfPair _ _) ?_
    | ((with_reducible apply keepOn_ck); focus exact (within_trans rfl hm))
    | ((with_reducible apply expiryCk_ck); focus exact (within_trans rfl hm))
    | with_reducible exact ofAny _
    | with_reducible apply ck_ite
    | with_reducible exact CkOk.need
    | with_reducible exact CkOk.fail
    | with_reducible apply ck_ok
    | with_reducible apply ck_pure
    | with_reducible apply CkOk.waits
    | with_reducible refine ck_bindState ?_ (fun _ _ => ?_)
    | with_reducible refine ck_bindPair ?_ (fun _ _ _ => ?_)
    | with_reducible refine ck_bindAny ?_ (fun _ => ?_)
    | with_reducible apply OfState.mk
    | with_reducible apply ofPair
    | with_reducible refine ck_okPair ?_ (by assumption)
    | with_reducible refine ck_waits ?_ (by assumption)
    | with_reducible apply Keeps.ite
    | with_reducible apply Keeps.ite_fst
    | with_reducible refine Keeps.foldl _ (fun _ _ => ?_) ?_
    | extract_lets
    | split
    | dsimp only)

theorem subjectLive_ck {ch : Part → Bool} {s0 : State} {s : State} {j : Job} (hm : within (only [.jobs, .mem, .buffers, .engines, .keys]) ch = true)
    (h0 : Keeps ch s0 s) : CkOk (OfState ch s0) (Keeps ch s0) (subjectLive s j) := by
  unfold subjectLive
  repeat' (first
    | with_reducible apply Keeps.refl
    | with_reducible assumption
    | ((with_reducible apply handleCk_ck); focus exact (within_trans rfl hm))
    | with_reducible refine ck_any (p := OfPair _ _) ?_
    | ((with_reducible apply keepOn_ck); focus exact (within_trans rfl hm))
    | with_reducible apply ckIf_ck
    | ((with_reducible apply expiryCk_ck); focus exact (within_trans rfl hm))
    | with_reducible exact ofAny _
    | with_reducible apply ck_ite
    | with_reducible exact CkOk.need
    | with_reducible exact CkOk.fail
    | with_reducible apply ck_ok
    | with_reducible apply ck_pure
    | with_reducible apply CkOk.waits
    | with_reducible refine ck_bindState ?_ (fun _ _ => ?_)
    | with_reducible refine ck_bindPair ?_ (fun _ _ _ => ?_)
    | with_reducible refine ck_bindAny ?_ (fun _ => ?_)
    | with_reducible apply OfState.mk
    | with_reducible apply ofPair
    | with_reducible refine ck_okPair ?_ (by assumption)
    | with_reducible refine ck_waits ?_ (by assumption)
    | with_reducible apply Keeps.ite
    | with_reducible apply Keeps.ite_fst
    | with_reducible refine Keeps.foldl _ (fun _ _ => ?_) ?_
    | extract_lets
    | split
    | dsimp only)

theorem genStart_ck {ch : Part → Bool} {s0 : State} {s : State} {j : Job} (hm : within (only [.seats, .jobs, .entropy]) ch = true) (h0 : Keeps ch s0
    s) : CkOk (OfState ch s0) (Keeps ch s0) (genStart s j) := by
  unfold genStart
  repeat' (first
    | with_reducible apply Keeps.refl
    | with_reducible assumption
    | with_reducible apply chk_ck
    | ((with_reducible apply noDraws_ck); focus exact (within_trans rfl hm))
    | ((with_reducible apply chkWait_ck); focus exact (within_trans rfl hm))
    | with_reducible exact ofAny _
    | with_reducible apply ck_ite
    | with_reducible exact CkOk.need
    | with_reducible exact CkOk.fail
    | with_reducible apply ck_ok
    | with_reducible apply ck_pure
    | with_reducible apply CkOk.waits
    | with_reducible refine ck_bindState ?_ (fun _ _ => ?_)
    | with_reducible refine ck_bindPair ?_ (fun _ _ _ => ?_)
    | with_reducible refine ck_bindAny ?_ (fun _ => ?_)
    | with_reducible apply OfState.mk
    | with_reducible apply ofPair
    | ((with_reducible apply OptKeeps2.step (tryDraw_keeps ..)); focus exact (within_trans rfl hm))
    | ((with_reducible apply Keeps.step (beginWait_keeps ..)); focus exact (within_trans rfl hm))
    | ((with_reducible apply Keeps.step (State.modJob_keeps ..)); focus exact (within_trans rfl hm))
    | ((with_reducible apply Keeps.step (State.modSeat_keeps ..)); focus exact (within_trans rfl hm))
    | ((with_reducible apply Keeps.step (endWait_keeps ..)); focus exact (within_trans rfl hm))
    | with_reducible refine ck_waits ?_ (by assumption)
    | with_reducible refine OptKeeps2.get ?_ (by assumption)
    | with_reducible apply OptKeeps2.some
    | with_reducible apply OptKeeps2.map
    | with_reducible apply Keeps.ite
    | with_reducible apply Keeps.ite_fst
    | with_reducible refine Keeps.foldl _ (fun _ _ => ?_) ?_
    | extract_lets
    | split
    | dsimp only)

theorem keyrefUse_ck {ch : Part → Bool} {s0 : State} {s : State} {j : Job} {a : Option Attr} (hm : within (only [.jobs, .mem, .keys]) ch = true) (h0 :
    Keeps ch s0 s) : CkOk (OfState ch s0) (Keeps ch s0) (keyrefUse s j a) := by
  unfold keyrefUse
  repeat' (first
    | with_reducible apply Keeps.refl
    | with_reducible assumption
    | ((with_reducible apply useCk_ck); focus exact (within_trans rfl hm))
    | with_reducible refine ck_any (p := OfState _ _) ?_
    | with_reducible exact ofAny _
    | with_reducible apply ck_ite
    | with_reducible exact CkOk.need
    | with_reducible exact CkOk.fail
    | with_reducible apply ck_ok
    | with_reducible apply ck_pure
    | with_reducible apply CkOk.waits
    | with_reducible refine ck_bindState ?_ (fun _ _ => ?_)
    | with_reducible refine ck_bindPair ?_ (fun _ _ _ => ?_)
    | with_reducible refine ck_bindAny ?_ (fun _ => ?_)
    | with_reducible apply OfState.mk
    | with_reducible apply ofPair
    | with_reducible refine ck_okState ?_ (by assumption)
    | with_reducible refine ck_waits ?_ (by assumption)
    | with_reducible apply Keeps.ite
    | with_reducible apply Keeps.ite_fst
    | with_reducible refine Keeps.foldl _ (fun _ _ => ?_) ?_
    | extract_lets
    | split
    | dsimp only)

theorem matIf_ck {ch : Part → Bool} {s0 : State} {s : State} {j : Job} {c : Bool} {h : Nat} {stage : Nat} (hm : within (only []) ch = true) (h0 :
    Keeps ch s0 s) : CkOk OfAny (Keeps ch s0) (matIf s j c h stage) := by
  unfold matIf
  repeat' (first
    | with_reducible apply Keeps.refl
    | with_reducible assumption
    | ((with_reducible apply matOf_ck); focus exact (within_trans rfl hm))
    | with_reducible exact ofAny _
    | with_reducible apply ck_ite
    | with_reducible exact CkOk.need
    | with_reducible exact CkOk.fail
    | with_reducible apply ck_ok
    | with_reducible apply ck_pure
    | with_reducible apply CkOk.waits
    | with_reducible refine ck_bindState ?_ (fun _ _ => ?_)
    | with_reducible refine ck_bindPair ?_ (fun _ _ _ => ?_)
    | with_reducible refine ck_bindAny ?_ (fun _ => ?_)
    | with_reducible apply OfState.mk
    | with_reducible apply ofPair
    | with_reducible refine ck_waits ?_ (by assumption)
    | with_reducible apply Keeps.ite
    | with_reducible apply Keeps.ite_fst
    | with_reducible refine Keeps.foldl _ (fun _ _ => ?_) ?_
    | extract_lets
    | split
    | dsimp only)

theorem startKey_ck {ch : Part → Bool} {s0 : State} {s : State} {j : Job} (hm : within (only [.seats, .jobs, .mem, .buffers, .engines, .keys,
    .entropy]) ch = true) (h0 : Keeps ch s0 s) : CkOk (OfState ch s0) (Keeps ch s0) (startKey s j) := by
  unfold startKey
  repeat' (first
    | with_reducible apply Keeps.refl
    | with_reducible assumption
    | ((with_reducible apply keyrefLive_ck); focus exact (within_trans rfl hm))
    | with_reducible refine ck_any (p := OfPair _ _) ?_
    | ((with_reducible apply keepOn_ck); focus exact (within_trans rfl hm))
    | ((with_reducible apply subjectLive_ck); focus exact (within_trans rfl hm))
    | with_reducible refine ck_any (p := OfState _ _) ?_
    | ((with_reducible apply matIf_ck); focus exact (within_trans rfl hm))
    | ((with_reducible apply genStart_ck); focus exact (within_trans rfl hm))
    | ((with_reducible apply keyrefUse_ck); focus exact (within_trans rfl hm))
    | with_reducible apply needBytes_ck
    | with_reducible exact ofAny _
    | with_reducible apply ck_ite
    | with_reducible exact CkOk.need
    | with_reducible exact CkOk.fail
    | with_reducible apply ck_ok
    | with_reducible apply ck_pure
    | with_reducible apply CkOk.waits
    | with_reducible refine ck_bindState ?_ (fun _ _ => ?_)
    | with_reducible refine ck_bindPair ?_ (fun _ _ _ => ?_)
    | with_reducible refine ck_bindAny ?_ (fun _ => ?_)
    | with_reducible apply OfState.mk
    | with_reducible apply ofPair
    | ((with_reducible apply Keeps.step (State.modJob_keeps ..)); focus exact (within_trans rfl hm))
    | ((with_reducible apply Keeps.step (staleEntry_keeps ..)); focus exact (within_trans rfl hm))
    | with_reducible refine ck_okPair ?_ (by assumption)
    | with_reducible refine ck_waits ?_ (by assumption)
    | with_reducible refine ck_okState ?_ (by assumption)
    | with_reducible apply Keeps.ite
    | with_reducible apply Keeps.ite_fst
    | with_reducible refine Keeps.foldl _ (fun _ _ => ?_) ?_
    | extract_lets
    | split
    | dsimp only)

theorem writeNew_keeps (s : State) (j : Job) (m : Bytes) : Keeps (only [.jobs, .mem, .buffers, .keys]) s (writeNew s j m) := by
  unfold writeNew
  repeat' (first
    | with_reducible apply Keeps.refl
    | with_reducible assumption
    | ((with_reducible apply Keeps.step (keyOk_keeps ..)); focus exact rfl)
    | ((with_reducible apply Keeps.step (writeEntry_keeps ..)); focus exact rfl)
    | with_reducible apply Keeps.ite
    | with_reducible apply Keeps.ite_fst
    | with_reducible refine Keeps.foldl _ (fun _ _ => ?_) ?_
    | extract_lets
    | split
    | dsimp only)

theorem runImport_ck {ch : Part → Bool} {s0 : State} {s : State} {j : Job} (hm : within (only [.jobs, .mem, .buffers, .keys]) ch = true) (h0 : Keeps
    ch s0 s) : CkOk (OfState ch s0) (Keeps ch s0) (runImport s j) := by
  unfold runImport
  repeat' (first
    | with_reducible apply Keeps.refl
    | with_reducible assumption
    | with_reducible apply wholeBuf_ck
    | with_reducible exact ofAny _
    | with_reducible apply ck_ite
    | with_reducible exact CkOk.need
    | with_reducible exact CkOk.fail
    | with_reducible apply ck_ok
    | with_reducible apply ck_pure
    | with_reducible apply CkOk.waits
    | with_reducible refine ck_bindState ?_ (fun _ _ => ?_)
    | with_reducible refine ck_bindPair ?_ (fun _ _ _ => ?_)
    | with_reducible refine ck_bindAny ?_ (fun _ => ?_)
    | with_reducible apply OfState.mk
    | with_reducible apply ofPair
    | ((with_reducible apply Keeps.step (matFail_keeps ..)); focus exact (within_trans rfl hm))
    | ((with_reducible apply Keeps.step (writeNew_keeps ..)); focus exact (within_trans rfl hm))
    | with_reducible refine ck_waits ?_ (by assumption)
    | with_reducible apply Keeps.ite
    | with_reducible apply Keeps.ite_fst
    | with_reducible refine Keeps.foldl _ (fun _ _ => ?_) ?_
    | extract_lets
    | split
    | dsimp only)

theorem runExport_ck {ch : Part → Bool} {s0 : State} {s : State} {j : Job} (hm : within (only [.jobs, .mem, .buffers]) ch = true) (h0 : Keeps ch s0 s)
    : CkOk (OfState ch s0) (Keeps ch s0) (runExport s j) := by
  unfold runExport
  repeat' (first
    | with_reducible apply Keeps.refl
    | with_reducible assumption
    | with_reducible exact ofAny _
    | with_reducible apply ck_ite
    | with_reducible exact CkOk.need
    | with_reducible exact CkOk.fail
    | with_reducible apply ck_ok
    | with_reducible apply ck_pure
    | with_reducible apply CkOk.waits
    | with_reducible refine ck_bindState ?_ (fun _ _ => ?_)
    | with_reducible refine ck_bindPair ?_ (fun _ _ _ => ?_)
    | with_reducible refine ck_bindAny ?_ (fun _ => ?_)
    | with_reducible apply OfState.mk
    | with_reducible apply ofPair
    | ((with_reducible apply Keeps.step (keyOk_keeps ..)); focus exact (within_trans rfl hm))
    | ((with_reducible apply Keeps.step (writeBuf_keeps ..)); focus exact (within_trans rfl hm))
    | with_reducible apply Keeps.ite
    | with_reducible apply Keeps.ite_fst
    | with_reducible refine Keeps.foldl _ (fun _ _ => ?_) ?_
    | extract_lets
    | split
    | dsimp only)

theorem runGenerate_ck {ch : Part → Bool} {s0 : State} {s : State} {j : Job} (hm : within (only [.jobs, .mem, .buffers, .keys]) ch = true) (h0 : Keeps
    ch s0 s) : CkOk (OfState ch s0) (Keeps ch s0) (runGenerate s j) := by
  unfold runGenerate
  repeat' (first
    | with_reducible apply Keeps.refl
    | with_reducible assumption
    | with_reducible exact ofAny _
    | with_reducible apply ck_ite
    | with_reducible exact CkOk.need
    | with_reducible exact CkOk.fail
    | with_reducible apply ck_ok
    | with_reducible apply ck_pure
    | with_reducible apply CkOk.waits
    | with_reducible refine ck_bindState ?_ (fun _ _ => ?_)
    | with_reducible refine ck_bindPair ?_ (fun _ _ _ => ?_)
    | with_reducible refine ck_bindAny ?_ (fun _ => ?_)
    | with_reducible apply OfState.mk
    | with_reducible apply ofPair
    | ((with_reducible apply Keeps.step (writeNew_keeps ..)); focus exact (within_trans rfl hm))
    | with_reducible apply Keeps.ite
    | with_reducible apply Keeps.ite_fst
    | with_reducible refine Keeps.foldl _ (fun _ _ => ?_) ?_
    | extract_lets
    | split
    | dsimp only)

theorem runDerive_ck {ch : Part → Bool} {s0 : State} {s : State} {j : Job} (hm : within (only [.jobs, .mem, .buffers, .keys]) ch = true) (h0 : Keeps
    ch s0 s) : CkOk (OfState ch s0) (Keeps ch s0) (runDerive s j) := by
  unfold runDerive
  repeat' (first
    | with_reducible apply Keeps.refl
    | with_reducible assumption
    | with_reducible apply wholeBuf_ck
    | with_reducible exact ofAny _
    | with_reducible apply ck_ite
    | with_reducible exact CkOk.need
    | with_reducible exact CkOk.fail
    | with_reducible apply ck_ok
    | with_reducible apply ck_pure
    | with_reducible apply CkOk.waits
    | with_reducible refine ck_bindState ?_ (fun _ _ => ?_)
    | with_reducible refine ck_bindPair ?_ (fun _ _ _ => ?_)
    | with_reducible refine ck_bindAny ?_ (fun _ => ?_)
    | with_reducible apply OfState.mk
    | with_reducible apply ofPair
    | ((with_reducible apply Keeps.step (writeNew_keeps ..)); focus exact (within_trans rfl hm))
    | with_reducible refine ck_waits ?_ (by assumption)
    | with_reducible apply Keeps.ite
    | with_reducible apply Keeps.ite_fst
    | with_reducible refine Keeps.foldl _ (fun _ _ => ?_) ?_
    | extract_lets
    | split
    | dsimp only)

theorem eraseEntry_keeps (s : State) (j : Job) (a : Attr) : Keeps (only [.jobs, .mem, .keys]) s (eraseEntry s j a) := by
  unfold eraseEntry
  repeat' (first
    | with_reducible apply Keeps.refl
    | with_reducible assumption
    | ((with_reducible apply Keeps.step (writeAt_keeps ..)); focus exact rfl)
    | ((with_reducible apply Keeps.step (State.modJob_keeps ..)); focus exact rfl)
    | ((with_reducible apply Keeps.step (freeHmac_keeps ..)); focus exact rfl)
    | ((with_reducible apply Keeps.step (dropAttr_keeps ..)); focus exact rfl)
    | with_reducible apply Keeps.ite
    | with_reducible apply Keeps.ite_fst
    | with_reducible refine Keeps.foldl _ (fun _ _ => ?_) ?_
    | extract_lets
    | split
    | dsimp only)

theorem dropSubject_keeps (s : State) (j : Job) : Keeps (only [.jobs, .mem, .buffers, .keys]) s (dropSubject s j) := by
  unfold dropSubject
  repeat' (first
    | with_reducible apply Keeps.refl
    | with_reducible assumption
    | ((with_reducible apply Keeps.step (State.modKeys_keeps ..)); focus exact rfl)
    | ((with_reducible apply Keeps.step (keyOk_keeps ..)); focus exact rfl)
    | with_reducible apply Keeps.ite
    | with_reducible apply Keeps.ite_fst
    | with_reducible refine Keeps.foldl _ (fun _ _ => ?_) ?_
    | extract_lets
    | split
    | dsimp only)

theorem subjectRec_ck {ch : Part → Bool} {s0 : State} {s : State} {j : Job} (hm : within (only [.mem, .keys]) ch = true) (h0 : Keeps ch s0 s) : CkOk
    OfAny (Keeps ch s0) (subjectRec s j) := by
  unfold subjectRec
  repeat' (first
    | with_reducible apply Keeps.refl
    | with_reducible assumption
    | ((with_reducible apply handleCk_ck); focus exact (within_trans rfl hm))
    | with_reducible refine ck_any (p := OfPair _ _) ?_
    | with_reducible exact ofAny _
    | with_reducible apply ck_ite
    | with_reducible exact CkOk.need
    | with_reducible exact CkOk.fail
    | with_reducible apply ck_ok
    | with_reducible apply ck_pure
    | with_reducible apply CkOk.waits
    | with_reducible refine ck_bindState ?_ (fun _ _ => ?_)
    | with_reducible refine ck_bindPair ?_ (fun _ _ _ => ?_)
    | with_reducible refine ck_bindAny ?_ (fun _ => ?_)
    | with_reducible apply OfState.mk
    | with_reducible apply ofPair
    | with_reducible refine ck_okPair ?_ (by assumption)
    | with_reducible refine ck_waits ?_ (by assumption)
    | with_reducible apply Keeps.ite
    | with_reducible apply Keeps.ite_fst
    | with_reducible refine Keeps.foldl _ (fun _ _ => ?_) ?_
    | extract_lets
    | split
    | dsimp only)

theorem runDelete_ck {ch : Part → Bool} {s0 : State} {s : State} {j : Job} (hm : within (only [.jobs, .mem, .buffers, .keys]) ch = true) (h0 : Keeps
    ch s0 s) : CkOk (OfState ch s0) (Keeps ch s0) (runDelete s j) := by
  unfold runDelete
  repeat' (first
    | with_reducible apply Keeps.refl
    | with_reducible assumption
    | ((with_reducible apply subjectRec_ck); focus exact (within_trans rfl hm))
    | with_reducible exact ofAny _
    | with_reducible apply ck_ite
    | with_reducible exact CkOk.need
    | with_reducible exact CkOk.fail
    | with_reducible apply ck_ok
    | with_reducible apply ck_pure
    | with_reducible apply CkOk.waits
    | with_reducible refine ck_bindState ?_ (fun _ _ => ?_)
    | with_reducible refine ck_bindPair ?_ (fun _ _ _ => ?_)
    | with_reducible refine ck_bindAny ?_ (fun _ => ?_)
    | with_reducible apply OfState.mk
    | with_reducible apply ofPair
    | ((with_reducible apply Keeps.step (dropSubject_keeps ..)); focus exact (within_trans rfl hm))
    | ((with_reducible apply Keeps.step (eraseEntry_keeps ..)); focus exact (within_trans rfl hm))
    | with_reducible refine ck_waits ?_ (by assumption)
    | with_reducible apply Keeps.ite
    | with_reducible apply Keeps.ite_fst
    | with_reducible refine Keeps.foldl _ (fun _ _ => ?_) ?_
    | extract_lets
    | split
    | dsimp only)

theorem runInfo_ck {ch : Part → Bool} {s0 : State} {s : State} {j : Job} (hm : within (only [.jobs, .mem, .buffers, .keys]) ch = true) (h0 : Keeps ch
    s0 s) : CkOk (OfState ch s0) (Keeps ch s0) (runInfo s j) := by
  unfold runInfo
  repeat' (first
    | with_reducible apply Keeps.refl
    | with_reducible assumption
    | ((with_reducible apply subjectRec_ck); focus exact (within_trans rfl hm))
    | with_reducible exact ofAny _
    | with_reducible apply ck_ite
    | with_reducible exact CkOk.need
    | with_reducible exact CkOk.fail
    | with_reducible apply ck_ok
    | with_reducible apply ck_pure
    | with_reducible apply CkOk.waits
    | with_reducible refine ck_bindState ?_ (fun _ _ => ?_)
    | with_reducible refine ck_bindPair ?_ (fun _ _ _ => ?_)
    | with_reducible refine ck_bindAny ?_ (fun _ => ?_)
    | with_reducible apply OfState.mk
    | with_reducible apply ofPair
    | ((with_reducible apply Keeps.step (keyOk_keeps ..)); focus exact (within_trans rfl hm))
    | with_reducible refine ck_waits ?_ (by assumption)
    | with_reducible apply Keeps.ite
    | with_reducible apply Keeps.ite_fst
    | with_reducible refine Keeps.foldl _ (fun _ _ => ?_) ?_
    | extract_lets
    | split
    | dsimp only)

theorem runRestrict_ck {ch : Part → Bool} {s0 : State} {s : State} {j : Job} (hm : within (only [.jobs, .mem, .buffers, .keys]) ch = true) (h0 : Keeps
    ch s0 s) : CkOk (OfState ch s0) (Keeps ch s0) (runRestrict s j) := by
  unfold runRestrict
  repeat' (first
    | with_reducible apply Keeps.refl
    | with_reducible assumption
    | ((with_reducible apply subjectRec_ck); focus exact (within_trans rfl hm))
    | with_reducible exact ofAny _
    | with_reducible apply ck_ite
    | with_reducible exact CkOk.need
    | with_reducible exact CkOk.fail
    | with_reducible apply ck_ok
    | with_reducible apply ck_pure
    | with_reducible apply CkOk.waits
    | with_reducible refine ck_bindState ?_ (fun _ _ => ?_)
    | with_reducible refine ck_bindPair ?_ (fun _ _ _ => ?_)
    | with_reducible refine ck_bindAny ?_ (fun _ => ?_)
    | with_reducible apply OfState.mk
    | with_reducible apply ofPair
    | ((with_reducible apply Keeps.step (writeEntry_keeps ..)); focus exact (within_trans rfl hm))
    | ((with_reducible apply Keeps.step (keyOk_keeps ..)); focus exact (within_trans rfl hm))
    | ((with_reducible apply Keeps.step (putAttr_keeps ..)); focus exact (within_trans rfl hm))
    | with_reducible refine ck_waits ?_ (by assumption)
    | with_reducible apply Keeps.ite
    | with_reducible apply Keeps.ite_fst
    | with_reducible refine Keeps.foldl _ (fun _ _ => ?_) ?_
    | extract_lets
    | split
    | dsimp only)

theorem runEscrowOut_ck {ch : Part → Bool} {s0 : State} {s : State} {j : Job} (hm : within (only [.jobs, .mem, .buffers, .keys]) ch = true) (h0 :
    Keeps ch s0 s) : CkOk (OfState ch s0) (Keeps ch s0) (runEscrowOut s j) := by
  unfold runEscrowOut
  repeat' (first
    | with_reducible apply Keeps.refl
    | with_reducible assumption
    | ((with_reducible apply subjectRec_ck); focus exact (within_trans rfl hm))
    | with_reducible exact ofAny _
    | with_reducible apply ck_ite
    | with_reducible exact CkOk.need
    | with_reducible exact CkOk.fail
    | with_reducible apply ck_ok
    | with_reducible apply ck_pure
    | with_reducible apply CkOk.waits
    | with_reducible refine ck_bindState ?_ (fun _ _ => ?_)
    | with_reducible refine ck_bindPair ?_ (fun _ _ _ => ?_)
    | with_reducible refine ck_bindAny ?_ (fun _ => ?_)
    | with_reducible apply OfState.mk
    | with_reducible apply ofPair
    | ((with_reducible apply Keeps.step (keyOk_keeps ..)); focus exact (within_trans rfl hm))
    | ((with_reducible apply Keeps.step (writeBuf_keeps ..)); focus exact (within_trans rfl hm))
    | with_reducible refine ck_waits ?_ (by assumption)
    | with_reducible apply Keeps.ite
    | with_reducible apply Keeps.ite_fst
    | with_reducible refine Keeps.foldl _ (fun _ _ => ?_) ?_
    | extract_lets
    | split
    | dsimp only)

theorem runEscrowIn_ck {ch : Part → Bool} {s0 : State} {s : State} {j : Job} (hm : within (only [.jobs, .mem, .buffers, .keys]) ch = true) (h0 : Keeps
    ch s0 s) : CkOk (OfState ch s0) (Keeps ch s0) (runEscrowIn s j) := by
  unfold runEscrowIn
  repeat' (first
    | with_reducible apply Keeps.refl
    | with_reducible assumption
    | with_reducible apply wholeBuf_ck
    | with_reducible exact ofAny _
    | with_reducible apply ck_ite
    | with_reducible exact CkOk.need
    | with_reducible exact CkOk.fail
    | with_reducible apply ck_ok
    | with_reducible apply ck_pure
    | with_reducible apply CkOk.waits
    | with_reducible refine ck_bindState ?_ (fun _ _ => ?_)
    | with_reducible refine ck_bindPair ?_ (fun _ _ _ => ?_)
    | with_reducible refine ck_bindAny ?_ (fun _ => ?_)
    | with_reducible apply OfState.mk
    | with_reducible apply ofPair
    | ((with_reducible apply Keeps.step (matFail_keeps ..)); focus exact (within_trans rfl hm))
    | ((with_reducible apply Keeps.step (keyOk_keeps ..)); focus exact (within_trans rfl hm))
    | ((with_reducible apply Keeps.step (writeEntry_keeps ..)); focus exact (within_trans rfl hm))
    | with_reducible refine ck_waits ?_ (by assumption)
    | with_reducible apply Keeps.ite
    | with_reducible apply Keeps.ite_fst
    | with_reducible refine Keeps.foldl _ (fun _ _ => ?_) ?_
    | extract_lets
    | split
    | dsimp only)

theorem storeWork_keeps {ch : Part → Bool} {s0 s : State} {id : Nat} {f : State → Job → Ck State} (hm : within (only [.seats, .jobs, .mem, .buffers,
    .engines, .keys, .entropy]) ch = true) (h0 : Keeps ch s0 s) (hf : ∀ t j, CkOk (OfState ch t) (Keeps ch t) (f t j)) : Keeps ch s0 (storeWork s id
    f) := by
  unfold storeWork
  extract_lets t
  have h1 : Keeps ch s0 t := by
    dsimp only [t]
    (repeat' split) <;> first
      | exact h0
      | exact runCk_keeps (within_trans rfl hm) h0 (startKey_ck (within_trans rfl hm) h0)
  clear_value t
  (repeat' split) <;> first
    | exact h1
    | exact runCk_keeps (within_trans rfl hm) h1 (ck_after h1 (hf _ _))

theorem storeOp_keeps {ch : Part → Bool} {s0 s : State} {id op : Nat} {f : State → Job → Ck State} (hm : within (only [.seats, .jobs, .mem, .buffers,
    .engines, .keys, .entropy]) ch = true) (h0 : Keeps ch s0 s) (hf : ∀ t j, CkOk (OfState ch t) (Keeps ch t) (f t j)) : Keeps ch s0 (storeOp s id op
    f) := by
  unfold storeOp
  repeat' (first
    | with_reducible apply Keeps.refl
    | with_reducible assumption
    | with_reducible exact ofAny _
    | with_reducible apply ck_ite
    | with_reducible exact CkOk.need
    | with_reducible exact CkOk.fail
    | with_reducible apply ck_ok
    | with_reducible apply ck_pure
    | with_reducible apply CkOk.waits
    | with_reducible refine ck_bindState ?_ (fun _ _ => ?_)
    | with_reducible refine ck_bindPair ?_ (fun _ _ _ => ?_)
    | with_reducible refine ck_bindAny ?_ (fun _ => ?_)
    | with_reducible apply OfState.mk
    | with_reducible apply ofPair
    | ((with_reducible apply inTime_keeps); focus exact (within_trans rfl hm))
    | ((with_reducible apply OptKeeps.step (storeTake_keeps ..)); focus exact (within_trans rfl hm))
    | ((with_reducible apply storeWork_keeps); focus exact (within_trans rfl hm))
    | with_reducible intro _
    | with_reducible apply Keeps.self
    | with_reducible refine OptKeeps.get ?_ (by assumption)
    | with_reducible apply OptKeeps.some
    | with_reducible exact hf _
    | with_reducible exact hf _ _
    | with_reducible exact hf _ _ _
    | with_reducible refine Keeps.trans ?_ (hf _)
    | with_reducible refine Keeps.trans ?_ (hf _ _)
    | with_reducible refine Keeps.trans ?_ (hf _ _ _)
    | with_reducible apply Keeps.ite
    | with_reducible apply Keeps.ite_fst
    | with_reducible refine Keeps.foldl _ (fun _ _ => ?_) ?_
    | extract_lets
    | split
    | dsimp only)

theorem execKeyImport_keeps (job : Nat) (s : State) : OutKeeps (allBut [.pending, .params, .journal, .offers, .nextJob, .window, .time, .cust]) s
    (execKeyImport job s) := by
  unfold execKeyImport
  repeat' (first
    | with_reducible apply Keeps.refl
    | with_reducible assumption
    | with_reducible exact OutKeeps.fault
    | with_reducible exact OutKeeps.refused
    | with_reducible apply OutKeeps.ok
    | with_reducible apply OutKeeps.next
    | with_reducible apply OutKeeps.ite
    | ((with_reducible apply Keeps.step (carryAll_keeps ..)); focus exact rfl)
    | ((with_reducible apply storeOp_keeps); focus exact rfl)
    | with_reducible intro _
    | with_reducible apply Keeps.self
    | with_reducible refine ck_okState ?_ (by assumption)
    | with_reducible refine ck_waits ?_ (by assumption)
    | ((with_reducible apply runImport_ck); focus exact rfl)
    | with_reducible refine ck_any (p := OfState _ _) ?_
    | with_reducible exact ofAny _
    | with_reducible apply ck_ite
    | with_reducible exact CkOk.need
    | with_reducible exact CkOk.fail
    | with_reducible apply ck_ok
    | with_reducible apply ck_pure
    | with_reducible apply CkOk.waits
    | with_reducible refine ck_bindState ?_ (fun _ _ => ?_)
    | with_reducible refine ck_bindPair ?_ (fun _ _ _ => ?_)
    | with_reducible refine ck_bindAny ?_ (fun _ => ?_)
    | with_reducible apply OfState.mk
    | with_reducible apply ofPair
    | with_reducible apply Keeps.ite
    | with_reducible apply Keeps.ite_fst
    | with_reducible refine Keeps.foldl _ (fun _ _ => ?_) ?_
    | extract_lets
    | split
    | dsimp only)

theorem execKeyExport_keeps (job : Nat) (s : State) : OutKeeps (allBut [.pending, .params, .journal, .offers, .nextJob, .window, .time, .cust]) s
    (execKeyExport job s) := by
  unfold execKeyExport
  repeat' (first
    | with_reducible apply Keeps.refl
    | with_reducible assumption
    | with_reducible exact OutKeeps.fault
    | with_reducible exact OutKeeps.refused
    | with_reducible apply OutKeeps.ok
    | with_reducible apply OutKeeps.next
    | with_reducible apply OutKeeps.ite
    | ((with_reducible apply Keeps.step (carryAll_keeps ..)); focus exact rfl)
    | ((with_reducible apply storeOp_keeps); focus exact rfl)
    | with_reducible intro _
    | with_reducible apply Keeps.self
    | with_reducible refine ck_okState ?_ (by assumption)
    | with_reducible refine ck_waits ?_ (by assumption)
    | ((with_reducible apply runExport_ck); focus exact rfl)
    | with_reducible refine ck_any (p := OfState _ _) ?_
    | with_reducible exact ofAny _
    | with_reducible apply ck_ite
    | with_reducible exact CkOk.need
    | with_reducible exact CkOk.fail
    | with_reducible apply ck_ok
    | with_reducible apply ck_pure
    | with_reducible apply CkOk.waits
    | with_reducible refine ck_bindState ?_ (fun _ _ => ?_)
    | with_reducible refine ck_bindPair ?_ (fun _ _ _ => ?_)
    | with_reducible refine ck_bindAny ?_ (fun _ => ?_)
    | with_reducible apply OfState.mk
    | with_reducible apply ofPair
    | with_reducible apply Keeps.ite
    | with_reducible apply Keeps.ite_fst
    | with_reducible refine Keeps.foldl _ (fun _ _ => ?_) ?_
    | extract_lets
    | split
    | dsimp only)

theorem execKeyGenerate_keeps (job : Nat) (s : State) : OutKeeps (allBut [.pending, .params, .journal, .offers, .nextJob, .window, .time, .cust]) s
    (execKeyGenerate job s) := by
  unfold execKeyGenerate
  repeat' (first
    | with_reducible apply Keeps.refl
    | with_reducible assumption
    | with_reducible exact OutKeeps.fault
    | with_reducible exact OutKeeps.refused
    | with_reducible apply OutKeeps.ok
    | with_reducible apply OutKeeps.next
    | with_reducible apply OutKeeps.ite
    | ((with_reducible apply Keeps.step (carryAll_keeps ..)); focus exact rfl)
    | ((with_reducible apply storeOp_keeps); focus exact rfl)
    | with_reducible intro _
    | with_reducible apply Keeps.self
    | with_reducible refine ck_okState ?_ (by assumption)
    | with_reducible refine ck_waits ?_ (by assumption)
    | ((with_reducible apply runGenerate_ck); focus exact rfl)
    | with_reducible refine ck_any (p := OfState _ _) ?_
    | with_reducible exact ofAny _
    | with_reducible apply ck_ite
    | with_reducible exact CkOk.need
    | with_reducible exact CkOk.fail
    | with_reducible apply ck_ok
    | with_reducible apply ck_pure
    | with_reducible apply CkOk.waits
    | with_reducible refine ck_bindState ?_ (fun _ _ => ?_)
    | with_reducible refine ck_bindPair ?_ (fun _ _ _ => ?_)
    | with_reducible refine ck_bindAny ?_ (fun _ => ?_)
    | with_reducible apply OfState.mk
    | with_reducible apply ofPair
    | with_reducible apply Keeps.ite
    | with_reducible apply Keeps.ite_fst
    | with_reducible refine Keeps.foldl _ (fun _ _ => ?_) ?_
    | extract_lets
    | split
    | dsimp only)

theorem execKeyDerive_keeps (job : Nat) (s : State) : OutKeeps (allBut [.pending, .params, .journal, .offers, .nextJob, .window, .time, .cust]) s
    (execKeyDerive job s) := by
  unfold execKeyDerive
  repeat' (first
    | with_reducible apply Keeps.refl
    | with_reducible assumption
    | with_reducible exact OutKeeps.fault
    | with_reducible exact OutKeeps.refused
    | with_reducible apply OutKeeps.ok
    | with_reducible apply OutKeeps.next
    | with_reducible apply OutKeeps.ite
    | ((with_reducible apply Keeps.step (carryAll_keeps ..)); focus exact rfl)
    | ((with_reducible apply storeOp_keeps); focus exact rfl)
    | with_reducible intro _
    | with_reducible apply Keeps.self
    | with_reducible refine ck_okState ?_ (by assumption)
    | with_reducible refine ck_waits ?_ (by assumption)
    | ((with_reducible apply runDerive_ck); focus exact rfl)
    | with_reducible refine ck_any (p := OfState _ _) ?_
    | with_reducible exact ofAny _
    | with_reducible apply ck_ite
    | with_reducible exact CkOk.need
    | with_reducible exact CkOk.fail
    | with_reducible apply ck_ok
    | with_reducible apply ck_pure
    | with_reducible apply CkOk.waits
    | with_reducible refine ck_bindState ?_ (fun _ _ => ?_)
    | with_reducible refine ck_bindPair ?_ (fun _ _ _ => ?_)
    | with_reducible refine ck_bindAny ?_ (fun _ => ?_)
    | with_reducible apply OfState.mk
    | with_reducible apply ofPair
    | with_reducible apply Keeps.ite
    | with_reducible apply Keeps.ite_fst
    | with_reducible refine Keeps.foldl _ (fun _ _ => ?_) ?_
    | extract_lets
    | split
    | dsimp only)

theorem execKeyDelete_keeps (job : Nat) (s : State) : OutKeeps (allBut [.pending, .params, .journal, .offers, .nextJob, .window, .time, .cust]) s
    (execKeyDelete job s) := by
  unfold execKeyDelete
  repeat' (first
    | with_reducible apply Keeps.refl
    | with_reducible assumption
    | with_reducible exact OutKeeps.fault
    | with_reducible exact OutKeeps.refused
    | with_reducible apply OutKeeps.ok
    | with_reducible apply OutKeeps.next
    | with_reducible apply OutKeeps.ite
    | ((with_reducible apply Keeps.step (carryAll_keeps ..)); focus exact rfl)
    | ((with_reducible apply storeOp_keeps); focus exact rfl)
    | with_reducible intro _
    | with_reducible apply Keeps.self
    | with_reducible refine ck_okState ?_ (by assumption)
    | with_reducible refine ck_waits ?_ (by assumption)
    | ((with_reducible apply runDelete_ck); focus exact rfl)
    | with_reducible refine ck_any (p := OfState _ _) ?_
    | with_reducible exact ofAny _
    | with_reducible apply ck_ite
    | with_reducible exact CkOk.need
    | with_reducible exact CkOk.fail
    | with_reducible apply ck_ok
    | with_reducible apply ck_pure
    | with_reducible apply CkOk.waits
    | with_reducible refine ck_bindState ?_ (fun _ _ => ?_)
    | with_reducible refine ck_bindPair ?_ (fun _ _ _ => ?_)
    | with_reducible refine ck_bindAny ?_ (fun _ => ?_)
    | with_reducible apply OfState.mk
    | with_reducible apply ofPair
    | with_reducible apply Keeps.ite
    | with_reducible apply Keeps.ite_fst
    | with_reducible refine Keeps.foldl _ (fun _ _ => ?_) ?_
    | extract_lets
    | split
    | dsimp only)

theorem execKeyInfo_keeps (job : Nat) (s : State) : OutKeeps (allBut [.pending, .params, .journal, .offers, .nextJob, .window, .time, .cust]) s
    (execKeyInfo job s) := by
  unfold execKeyInfo
  repeat' (first
    | with_reducible apply Keeps.refl
    | with_reducible assumption
    | with_reducible exact OutKeeps.fault
    | with_reducible exact OutKeeps.refused
    | with_reducible apply OutKeeps.ok
    | with_reducible apply OutKeeps.next
    | with_reducible apply OutKeeps.ite
    | ((with_reducible apply Keeps.step (carryAll_keeps ..)); focus exact rfl)
    | ((with_reducible apply storeOp_keeps); focus exact rfl)
    | with_reducible intro _
    | with_reducible apply Keeps.self
    | with_reducible refine ck_okState ?_ (by assumption)
    | with_reducible refine ck_waits ?_ (by assumption)
    | ((with_reducible apply runInfo_ck); focus exact rfl)
    | with_reducible refine ck_any (p := OfState _ _) ?_
    | with_reducible exact ofAny _
    | with_reducible apply ck_ite
    | with_reducible exact CkOk.need
    | with_reducible exact CkOk.fail
    | with_reducible apply ck_ok
    | with_reducible apply ck_pure
    | with_reducible apply CkOk.waits
    | with_reducible refine ck_bindState ?_ (fun _ _ => ?_)
    | with_reducible refine ck_bindPair ?_ (fun _ _ _ => ?_)
    | with_reducible refine ck_bindAny ?_ (fun _ => ?_)
    | with_reducible apply OfState.mk
    | with_reducible apply ofPair
    | with_reducible apply Keeps.ite
    | with_reducible apply Keeps.ite_fst
    | with_reducible refine Keeps.foldl _ (fun _ _ => ?_) ?_
    | extract_lets
    | split
    | dsimp only)

theorem execKeyRestrict_keeps (job : Nat) (s : State) : OutKeeps (allBut [.pending, .params, .journal, .offers, .nextJob, .window, .time, .cust]) s
    (execKeyRestrict job s) := by
  unfold execKeyRestrict
  repeat' (first
    | with_reducible apply Keeps.refl
    | with_reducible assumption
    | with_reducible exact OutKeeps.fault
    | with_reducible exact OutKeeps.refused
    | with_reducible apply OutKeeps.ok
    | with_reducible apply OutKeeps.next
    | with_reducible apply OutKeeps.ite
    | ((with_reducible apply Keeps.step (carryAll_keeps ..)); focus exact rfl)
    | ((with_reducible apply storeOp_keeps); focus exact rfl)
    | with_reducible intro _
    | with_reducible apply Keeps.self
    | with_reducible refine ck_okState ?_ (by assumption)
    | with_reducible refine ck_waits ?_ (by assumption)
    | ((with_reducible apply runRestrict_ck); focus exact rfl)
    | with_reducible refine ck_any (p := OfState _ _) ?_
    | with_reducible exact ofAny _
    | with_reducible apply ck_ite
    | with_reducible exact CkOk.need
    | with_reducible exact CkOk.fail
    | with_reducible apply ck_ok
    | with_reducible apply ck_pure
    | with_reducible apply CkOk.waits
    | with_reducible refine ck_bindState ?_ (fun _ _ => ?_)
    | with_reducible refine ck_bindPair ?_ (fun _ _ _ => ?_)
    | with_reducible refine ck_bindAny ?_ (fun _ => ?_)
    | with_reducible apply OfState.mk
    | with_reducible apply ofPair
    | with_reducible apply Keeps.ite
    | with_reducible apply Keeps.ite_fst
    | with_reducible refine Keeps.foldl _ (fun _ _ => ?_) ?_
    | extract_lets
    | split
    | dsimp only)

theorem execKeyEscrowOut_keeps (job : Nat) (s : State) : OutKeeps (allBut [.pending, .params, .journal, .offers, .nextJob, .window, .time, .cust]) s
    (execKeyEscrowOut job s) := by
  unfold execKeyEscrowOut
  repeat' (first
    | with_reducible apply Keeps.refl
    | with_reducible assumption
    | with_reducible exact OutKeeps.fault
    | with_reducible exact OutKeeps.refused
    | with_reducible apply OutKeeps.ok
    | with_reducible apply OutKeeps.next
    | with_reducible apply OutKeeps.ite
    | ((with_reducible apply Keeps.step (carryAll_keeps ..)); focus exact rfl)
    | ((with_reducible apply storeOp_keeps); focus exact rfl)
    | with_reducible intro _
    | with_reducible apply Keeps.self
    | with_reducible refine ck_okState ?_ (by assumption)
    | with_reducible refine ck_waits ?_ (by assumption)
    | ((with_reducible apply runEscrowOut_ck); focus exact rfl)
    | with_reducible refine ck_any (p := OfState _ _) ?_
    | with_reducible exact ofAny _
    | with_reducible apply ck_ite
    | with_reducible exact CkOk.need
    | with_reducible exact CkOk.fail
    | with_reducible apply ck_ok
    | with_reducible apply ck_pure
    | with_reducible apply CkOk.waits
    | with_reducible refine ck_bindState ?_ (fun _ _ => ?_)
    | with_reducible refine ck_bindPair ?_ (fun _ _ _ => ?_)
    | with_reducible refine ck_bindAny ?_ (fun _ => ?_)
    | with_reducible apply OfState.mk
    | with_reducible apply ofPair
    | with_reducible apply Keeps.ite
    | with_reducible apply Keeps.ite_fst
    | with_reducible refine Keeps.foldl _ (fun _ _ => ?_) ?_
    | extract_lets
    | split
    | dsimp only)

theorem execKeyEscrowIn_keeps (job : Nat) (s : State) : OutKeeps (allBut [.pending, .params, .journal, .offers, .nextJob, .window, .time, .cust]) s
    (execKeyEscrowIn job s) := by
  unfold execKeyEscrowIn
  repeat' (first
    | with_reducible apply Keeps.refl
    | with_reducible assumption
    | with_reducible exact OutKeeps.fault
    | with_reducible exact OutKeeps.refused
    | with_reducible apply OutKeeps.ok
    | with_reducible apply OutKeeps.next
    | with_reducible apply OutKeeps.ite
    | ((with_reducible apply Keeps.step (carryAll_keeps ..)); focus exact rfl)
    | ((with_reducible apply storeOp_keeps); focus exact rfl)
    | with_reducible intro _
    | with_reducible apply Keeps.self
    | with_reducible refine ck_okState ?_ (by assumption)
    | with_reducible refine ck_waits ?_ (by assumption)
    | ((with_reducible apply runEscrowIn_ck); focus exact rfl)
    | with_reducible refine ck_any (p := OfState _ _) ?_
    | with_reducible exact ofAny _
    | with_reducible apply ck_ite
    | with_reducible exact CkOk.need
    | with_reducible exact CkOk.fail
    | with_reducible apply ck_ok
    | with_reducible apply ck_pure
    | with_reducible apply CkOk.waits
    | with_reducible refine ck_bindState ?_ (fun _ _ => ?_)
    | with_reducible refine ck_bindPair ?_ (fun _ _ _ => ?_)
    | with_reducible refine ck_bindAny ?_ (fun _ => ?_)
    | with_reducible apply OfState.mk
    | with_reducible apply ofPair
    | with_reducible apply Keeps.ite
    | with_reducible apply Keeps.ite_fst
    | with_reducible refine Keeps.foldl _ (fun _ _ => ?_) ?_
    | extract_lets
    | split
    | dsimp only)

theorem eraseBwk_keeps (s : State) : Keeps (only [.jobs, .mem, .buffers, .engines, .keys]) s (eraseBwk s) := by
  unfold eraseBwk
  repeat' (first
    | with_reducible apply Keeps.refl
    | with_reducible assumption
    | ((with_reducible apply Keeps.step (failJob_keeps ..)); focus exact rfl)
    | ((with_reducible apply Keeps.step (State.modKeys_keeps ..)); focus exact rfl)
    | with_reducible apply Keeps.ite
    | with_reducible apply Keeps.ite_fst
    | with_reducible refine Keeps.foldl _ (fun _ _ => ?_) ?_
    | extract_lets
    | split
    | dsimp only)

theorem execEraseBwk_keeps (s : State) : OutKeeps (allBut [.pending, .params, .journal, .offers, .nextJob, .window, .time, .cust]) s (execEraseBwk s)
    := by
  unfold execEraseBwk
  repeat' (first
    | with_reducible apply Keeps.refl
    | with_reducible assumption
    | with_reducible exact OutKeeps.fault
    | with_reducible exact OutKeeps.refused
    | with_reducible apply OutKeeps.ok
    | with_reducible apply OutKeeps.next
    | with_reducible apply OutKeeps.ite
    | ((with_reducible apply Keeps.step (fin_keeps ..)); focus exact rfl)
    | ((with_reducible apply mgrWrite_keeps); focus exact rfl)
    | ((with_reducible apply Keeps.step (eraseBwk_keeps ..)); focus exact rfl)
    | with_reducible intro _
    | with_reducible apply Keeps.self
    | with_reducible apply Keeps.ite
    | with_reducible apply Keeps.ite_fst
    | with_reducible refine Keeps.foldl _ (fun _ _ => ?_) ?_
    | extract_lets
    | split
    | dsimp only)

theorem keyWrite_keeps (s : State) (off : Nat) (v : W32) : Keeps (only [.jobs, .mem, .buffers, .engines, .keys]) s (keyWrite s off v) := by
  unfold keyWrite
  repeat' (first
    | with_reducible apply Keeps.refl
    | with_reducible assumption
    | ((with_reducible apply Keeps.step (eraseBwk_keeps ..)); focus exact rfl)
    | with_reducible apply Keeps.ite
    | with_reducible apply Keeps.ite_fst
    | with_reducible refine Keeps.foldl _ (fun _ _ => ?_) ?_
    | extract_lets
    | split
    | dsimp only)

end Sys2Proof.Machine
end

