-- ==== Sys2Proof/Laws/FrameEntropyJob.lean ====
section
/-! SUPPORT. Frames of Machine/EntropyJob: for each operation, the parts of the state it may change. -/

namespace Sys2Proof.Machine

theorem retireSource_keeps (s : State) (i : Nat) : Keeps (only [.alarms, .jobs, .mem, .buffers, .engines, .keys, .entropy, .prompts]) s (retireSource
    s i) := by
  unfold retireSource
  repeat' (first
    | with_reducible apply Keeps.refl
    | with_reducible assumption
    | ((with_reducible apply Keeps.step (State.modSource_keeps ..)); focus exact rfl)
    | ((with_reducible apply Keeps.step (vector_keeps ..)); focus exact rfl)
    | ((with_reducible apply Keeps.step (alarmC_keeps ..)); focus exact rfl)
    | ((with_reducible apply Keeps.step (alarmB_keeps ..)); focus exact rfl)
    | with_reducible apply Keeps.ite
    | with_reducible apply Keeps.ite_fst
    | with_reducible refine Keeps.foldl _ (fun _ _ => ?_) ?_
    | extract_lets
    | split
    | dsimp only
    | ((with_reducible apply Keeps.upd) <;> first | exact .inl rfl | exact .inr rfl | skip))

theorem sourceFails_keeps (s : State) (i : Nat) : Keeps (only [.alarms, .jobs, .mem, .buffers, .engines, .keys, .entropy, .prompts]) s (sourceFails s
    i) := by
  unfold sourceFails
  repeat' (first
    | with_reducible apply Keeps.refl
    | with_reducible assumption
    | ((with_reducible apply Keeps.step (State.modSource_keeps ..)); focus exact rfl)
    | ((with_reducible apply Keeps.step (retireSource_keeps ..)); focus exact rfl)
    | ((with_reducible apply Keeps.step (restartSource_keeps ..)); focus exact rfl)
    | with_reducible apply Keeps.ite
    | with_reducible apply Keeps.ite_fst
    | with_reducible refine Keeps.foldl _ (fun _ _ => ?_) ?_
    | extract_lets
    | split
    | dsimp only)

theorem poolAdd_keeps (s : State) (w : Bytes) : Keeps (only [.entropy]) s (poolAdd s w) := by
  unfold poolAdd
  repeat' (first
    | with_reducible apply Keeps.refl
    | with_reducible assumption
    | with_reducible apply Keeps.ite
    | with_reducible apply Keeps.ite_fst
    | with_reducible refine Keeps.foldl _ (fun _ _ => ?_) ?_
    | extract_lets
    | split
    | dsimp only
    | ((with_reducible apply Keeps.upd) <;> first | exact .inl rfl | exact .inr rfl | skip))

theorem condition_keeps (s : State) (i : Nat) (l : List Bool) : Keeps (only [.entropy]) s (condition s i l) := by
  unfold condition
  repeat' (first
    | with_reducible apply Keeps.refl
    | with_reducible assumption
    | ((with_reducible apply Keeps.step (State.modSource_keeps ..)); focus exact rfl)
    | ((with_reducible apply Keeps.step (poolAdd_keeps ..)); focus exact rfl)
    | with_reducible apply Keeps.ite
    | with_reducible apply Keeps.ite_fst
    | with_reducible refine Keeps.foldl _ (fun _ _ => ?_) ?_
    | extract_lets
    | split
    | dsimp only)

theorem rawBlock_keeps (i : Nat) (v : BitVec 512) (rct : Bool) (apt : Bool) (j : Job) (s : State) : Keeps (only [.jobs, .mem, .buffers, .entropy]) s
    (rawBlock i v rct apt j s) := by
  unfold rawBlock
  repeat' (first
    | with_reducible apply Keeps.refl
    | with_reducible assumption
    | ((with_reducible apply Keeps.step (writeAs_keeps ..)); focus exact rfl)
    | ((with_reducible apply Keeps.step (State.modJob_keeps ..)); focus exact rfl)
    | ((with_reducible apply Keeps.step (fixOutcome_keeps ..)); focus exact rfl)
    | ((with_reducible apply Keeps.step (State.modSource_keeps ..)); focus exact rfl)
    | with_reducible apply Keeps.ite
    | with_reducible apply Keeps.ite_fst
    | with_reducible refine Keeps.foldl _ (fun _ _ => ?_) ?_
    | extract_lets
    | split
    | dsimp only)

theorem rawTake_keeps (s : State) (i : Nat) (v : BitVec 512) (rct : Bool) (apt : Bool) : Keeps (only [.jobs, .mem, .buffers, .engines, .keys,
    .entropy]) s (rawTake s i v rct apt) := by
  unfold rawTake
  repeat' (first
    | with_reducible apply Keeps.refl
    | with_reducible assumption
    | ((with_reducible apply Keeps.step (State.modSource_keeps ..)); focus exact rfl)
    | ((with_reducible apply inTime_keeps); focus exact rfl)
    | ((with_reducible apply Keeps.step (rawBlock_keeps ..)); focus exact rfl)
    | with_reducible intro _
    | with_reducible apply Keeps.self
    | with_reducible apply Keeps.ite
    | with_reducible apply Keeps.ite_fst
    | with_reducible refine Keeps.foldl _ (fun _ _ => ?_) ?_
    | extract_lets
    | split
    | dsimp only)

theorem sourceBlock_keeps (s : State) (i : Nat) (v : BitVec 512) : Keeps (only [.alarms, .jobs, .mem, .buffers, .engines, .keys, .entropy, .prompts])
    s (sourceBlock s i v) := by
  unfold sourceBlock
  repeat' (first
    | with_reducible apply Keeps.refl
    | with_reducible assumption
    | ((with_reducible apply Keeps.step (State.modSource_keeps ..)); focus exact rfl)
    | ((with_reducible apply Keeps.step (rawTake_keeps ..)); focus exact rfl)
    | ((with_reducible apply Keeps.step (condition_keeps ..)); focus exact rfl)
    | ((with_reducible apply Keeps.step (sourceFails_keeps ..)); focus exact rfl)
    | with_reducible apply Keeps.ite
    | with_reducible apply Keeps.ite_fst
    | with_reducible refine Keeps.foldl _ (fun _ _ => ?_) ?_
    | extract_lets
    | split
    | dsimp only)

theorem execSourceBlock_keeps (source : Nat) (samples : BitVec 512) (s : State) : OutKeeps (allBut [.pending, .params, .journal, .offers, .nextJob,
    .window, .time, .cust]) s (execSourceBlock source samples s) := by
  unfold execSourceBlock
  repeat' (first
    | with_reducible apply Keeps.refl
    | with_reducible assumption
    | with_reducible exact OutKeeps.fault
    | with_reducible exact OutKeeps.refused
    | with_reducible apply OutKeeps.ok
    | with_reducible apply OutKeeps.next
    | with_reducible apply OutKeeps.ite
    | ((with_reducible apply Keeps.step (carryAll_keeps ..)); focus exact rfl)
    | ((with_reducible apply Keeps.step (sourceBlock_keeps ..)); focus exact rfl)
    | with_reducible apply Keeps.ite
    | with_reducible apply Keeps.ite_fst
    | with_reducible refine Keeps.foldl _ (fun _ _ => ?_) ?_
    | extract_lets
    | split
    | dsimp only)

theorem restartDone_keeps (s : State) (i : Nat) : Keeps (only [.entropy]) s (restartDone s i) := by
  unfold restartDone
  repeat' (first
    | with_reducible apply Keeps.refl
    | with_reducible assumption
    | ((with_reducible apply Keeps.step (State.modSource_keeps ..)); focus exact rfl)
    | with_reducible apply Keeps.ite
    | with_reducible apply Keeps.ite_fst
    | with_reducible refine Keeps.foldl _ (fun _ _ => ?_) ?_
    | extract_lets
    | split
    | dsimp only)

theorem execSourceRestartDone_keeps (source : Nat) (s : State) : OutKeeps (allBut [.pending, .params, .journal, .offers, .nextJob, .window, .time,
    .cust]) s (execSourceRestartDone source s) := by
  unfold execSourceRestartDone
  repeat' (first
    | with_reducible apply Keeps.refl
    | with_reducible assumption
    | with_reducible exact OutKeeps.fault
    | with_reducible exact OutKeeps.refused
    | with_reducible apply OutKeeps.ok
    | with_reducible apply OutKeeps.next
    | with_reducible apply OutKeeps.ite
    | ((with_reducible apply Keeps.step (fin_keeps ..)); focus exact rfl)
    | ((with_reducible apply Keeps.step (restartDone_keeps ..)); focus exact rfl)
    | with_reducible apply Keeps.ite
    | with_reducible apply Keeps.ite_fst
    | with_reducible refine Keeps.foldl _ (fun _ _ => ?_) ?_
    | extract_lets
    | split
    | dsimp only)

theorem endWaitOf_keeps (s : State) (id : Nat) : Keeps (only [.jobs, .mem, .buffers, .engines, .keys]) s (endWaitOf s id) := by
  unfold endWaitOf
  repeat' (first
    | with_reducible apply Keeps.refl
    | with_reducible assumption
    | ((with_reducible apply inTime_keeps); focus exact rfl)
    | ((with_reducible apply Keeps.step (endWait_keeps ..)); focus exact rfl)
    | with_reducible intro _
    | with_reducible apply Keeps.self
    | with_reducible apply Keeps.ite
    | with_reducible apply Keeps.ite_fst
    | with_reducible refine Keeps.foldl _ (fun _ _ => ?_) ?_
    | extract_lets
    | split
    | dsimp only)

theorem endWaits_keeps (s : State) (i : Nat) : Keeps (only [.jobs, .mem, .buffers, .engines, .keys]) s (endWaits s i) := by
  unfold endWaits
  repeat' (first
    | with_reducible apply Keeps.refl
    | with_reducible assumption
    | ((with_reducible apply Keeps.step (endWaitOf_keeps ..)); focus exact rfl)
    | with_reducible apply Keeps.ite
    | with_reducible apply Keeps.ite_fst
    | with_reducible refine Keeps.foldl _ (fun _ _ => ?_) ?_
    | extract_lets
    | split
    | dsimp only)

theorem reseedDoneOf_keeps (s : State) (id : Nat) : Keeps (only [.jobs, .mem, .buffers, .engines, .keys]) s (reseedDoneOf s id) := by
  unfold reseedDoneOf
  repeat' (first
    | with_reducible apply Keeps.refl
    | with_reducible assumption
    | ((with_reducible apply Keeps.step (State.modJob_keeps ..)); focus exact rfl)
    | ((with_reducible apply Keeps.step (stop_keeps ..)); focus exact rfl)
    | ((with_reducible apply Keeps.step (fixOutcome_keeps ..)); focus exact rfl)
    | with_reducible apply Keeps.ite
    | with_reducible apply Keeps.ite_fst
    | with_reducible refine Keeps.foldl _ (fun _ _ => ?_) ?_
    | extract_lets
    | split
    | dsimp only)

theorem reseedDone_keeps (s : State) (i : Nat) : Keeps (only [.jobs, .mem, .buffers, .engines, .keys]) s (reseedDone s i) := by
  unfold reseedDone
  repeat' (first
    | with_reducible apply Keeps.refl
    | with_reducible assumption
    | ((with_reducible apply Keeps.step (reseedDoneOf_keeps ..)); focus exact rfl)
    | with_reducible apply Keeps.ite
    | with_reducible apply Keeps.ite_fst
    | with_reducible refine Keeps.foldl _ (fun _ _ => ?_) ?_
    | extract_lets
    | split
    | dsimp only)

theorem wordDelivery_keeps (s : State) : Keeps (only [.jobs, .mem, .buffers, .engines, .keys, .entropy]) s (wordDelivery s) := by
  unfold wordDelivery
  repeat' (first
    | with_reducible apply Keeps.refl
    | with_reducible assumption
    | ((with_reducible apply Keeps.step (deliverWord_keeps ..)); focus exact rfl)
    | ((with_reducible apply Keeps.step (endWaits_keeps ..)); focus exact rfl)
    | ((with_reducible apply Keeps.step (reseedDone_keeps ..)); focus exact rfl)
    | with_reducible apply Keeps.ite
    | with_reducible apply Keeps.ite_fst
    | with_reducible refine Keeps.foldl _ (fun _ _ => ?_) ?_
    | extract_lets
    | split
    | dsimp only)

theorem execReseedDue_keeps (inst : Nat) (s : State) : OutKeeps (allBut [.pending, .params, .journal, .offers, .nextJob, .window, .time, .cust]) s
    (execReseedDue inst s) := by
  unfold execReseedDue
  repeat' (first
    | with_reducible apply Keeps.refl
    | with_reducible assumption
    | with_reducible exact OutKeeps.fault
    | with_reducible exact OutKeeps.refused
    | with_reducible apply OutKeeps.ok
    | with_reducible apply OutKeeps.next
    | with_reducible apply OutKeeps.ite
    | ((with_reducible apply Keeps.step (fin_keeps ..)); focus exact rfl)
    | ((with_reducible apply whenDo_keeps); focus exact rfl)
    | ((with_reducible apply Keeps.step (reseedRequest_keeps ..)); focus exact rfl)
    | with_reducible intro _
    | with_reducible apply Keeps.self
    | with_reducible apply Keeps.ite
    | with_reducible apply Keeps.ite_fst
    | with_reducible refine Keeps.foldl _ (fun _ _ => ?_) ?_
    | extract_lets
    | split
    | dsimp only)

theorem holdInst_keeps (s : State) (i : Nat) : Keeps (only [.entropy]) s (holdInst s i) := by
  unfold holdInst
  repeat' (first
    | with_reducible apply Keeps.refl
    | with_reducible assumption
    | ((with_reducible apply Keeps.step (State.modInst_keeps ..)); focus exact rfl)
    | ((with_reducible apply Keeps.step (reseedRequest_keeps ..)); focus exact rfl)
    | with_reducible apply Keeps.ite
    | with_reducible apply Keeps.ite_fst
    | with_reducible refine Keeps.foldl _ (fun _ _ => ?_) ?_
    | extract_lets
    | split
    | dsimp only)

theorem execInstHeld_keeps (inst : Nat) (s : State) : OutKeeps (allBut [.pending, .params, .journal, .offers, .nextJob, .window, .time, .cust]) s
    (execInstHeld inst s) := by
  unfold execInstHeld
  repeat' (first
    | with_reducible apply Keeps.refl
    | with_reducible assumption
    | with_reducible exact OutKeeps.fault
    | with_reducible exact OutKeeps.refused
    | with_reducible apply OutKeeps.ok
    | with_reducible apply OutKeeps.next
    | with_reducible apply OutKeeps.ite
    | ((with_reducible apply Keeps.step (fin_keeps ..)); focus exact rfl)
    | ((with_reducible apply whenDo_keeps); focus exact rfl)
    | ((with_reducible apply Keeps.step (holdInst_keeps ..)); focus exact rfl)
    | with_reducible intro _
    | with_reducible apply Keeps.self
    | with_reducible apply Keeps.ite
    | with_reducible apply Keeps.ite_fst
    | with_reducible refine Keeps.foldl _ (fun _ _ => ?_) ?_
    | extract_lets
    | split
    | dsimp only)

theorem seedingPass_keeps (s : State) (id : Nat) : Keeps (only [.jobs, .mem, .buffers, .engines, .keys]) s (seedingPass s id) := by
  unfold seedingPass
  repeat' (first
    | with_reducible apply Keeps.refl
    | with_reducible assumption
    | ((with_reducible apply Keeps.step (stop_keeps ..)); focus exact rfl)
    | with_reducible apply Keeps.ite
    | with_reducible apply Keeps.ite_fst
    | with_reducible refine Keeps.foldl _ (fun _ _ => ?_) ?_
    | extract_lets
    | split
    | dsimp only)

theorem execSeedingDeadline_keeps (job : Nat) (s : State) : OutKeeps (allBut [.pending, .params, .journal, .offers, .nextJob, .window, .time, .cust])
    s (execSeedingDeadline job s) := by
  unfold execSeedingDeadline
  repeat' (first
    | with_reducible apply Keeps.refl
    | with_reducible assumption
    | with_reducible exact OutKeeps.fault
    | with_reducible exact OutKeeps.refused
    | with_reducible apply OutKeeps.ok
    | with_reducible apply OutKeeps.next
    | with_reducible apply OutKeeps.ite
    | ((with_reducible apply Keeps.step (carryAll_keeps ..)); focus exact rfl)
    | ((with_reducible apply Keeps.step (seedingPass_keeps ..)); focus exact rfl)
    | with_reducible apply Keeps.ite
    | with_reducible apply Keeps.ite_fst
    | with_reducible refine Keeps.foldl _ (fun _ _ => ?_) ?_
    | extract_lets
    | split
    | dsimp only)

theorem rngPlace_ck {ch : Part → Bool} {s0 : State} {s : State} {j : Job} (hm : within (only [.jobs]) ch = true) (h0 : Keeps ch s0 s) : CkOk (OfState
    ch s0) (Keeps ch s0) (rngPlace s j) := by
  unfold rngPlace
  repeat' (first
    | with_reducible apply Keeps.refl
    | with_reducible assumption
    | with_reducible apply needLists_ck
    | with_reducible apply chk_ck
    | ((with_reducible apply noDraws_ck); focus exact (within_trans rfl hm))
    | with_reducible exact ofAny _
    | with_reducible apply ck_ite
    | with_reducible exact CkOk.need
    | with_reducible exact CkOk.fail
    | with_reducible apply ck_ok
    | with_reducible apply ck_pure
    | with_reducible apply CkOk.waits
    | with_reducible refine ck_bindState ?_ (fun _ _ => ?_)
    | with_reducible refine ck_bindPair ?_ (fun _ _ _ => ?_)
    | with_reducible refine ck_bindAny ?_ (fun _ => ?_)
    | with_reducible apply OfState.mk
    | with_reducible apply ofPair
    | ((with_reducible apply Keeps.step (State.modJob_keeps ..)); focus exact (within_trans rfl hm))
    | with_reducible refine ck_waits ?_ (by assumption)
    | with_reducible apply Keeps.ite
    | with_reducible apply Keeps.ite_fst
    | with_reducible refine Keeps.foldl _ (fun _ _ => ?_) ?_
    | extract_lets
    | split
    | dsimp only)

theorem farmTake_keeps (s : State) (j : Job) : OptKeeps (only [.keys]) s (farmTake s j) := by
  unfold farmTake
  repeat' (first
    | with_reducible apply Keeps.refl
    | with_reducible assumption
    | with_reducible exact OptKeeps.none
    | with_reducible apply OptKeeps.some
    | ((with_reducible apply Keeps.step (State.modKeys_keeps ..)); focus exact rfl)
    | with_reducible apply Keeps.ite
    | with_reducible apply Keeps.ite_fst
    | with_reducible refine Keeps.foldl _ (fun _ _ => ?_) ?_
    | extract_lets
    | split
    | dsimp only)

theorem genPart_keeps (s : State) (j : Job) : Keeps (only [.seats, .jobs, .mem, .buffers, .entropy]) s (genPart s j) := by
  unfold genPart
  repeat' (first
    | with_reducible apply Keeps.refl
    | with_reducible assumption
    | ((with_reducible apply Keeps.step (State.modSeat_keeps ..)); focus exact rfl)
    | ((with_reducible apply Keeps.step (draw_keeps ..)); focus exact rfl)
    | ((with_reducible apply Keeps.step (writeBuf_keeps ..)); focus exact rfl)
    | ((with_reducible apply Keeps.step (State.modJob_keeps ..)); focus exact rfl)
    | ((with_reducible apply Keeps.step (fixOutcome_keeps ..)); focus exact rfl)
    | with_reducible refine Keeps.fst (by assumption) ?_
    | with_reducible apply Keeps.ite
    | with_reducible apply Keeps.ite_fst
    | with_reducible refine Keeps.foldl _ (fun _ _ => ?_) ?_
    | extract_lets
    | split
    | dsimp only)

theorem askReseed_keeps (s : State) (j : Job) : Keeps (only [.jobs, .entropy]) s (askReseed s j) := by
  unfold askReseed
  repeat' (first
    | with_reducible apply Keeps.refl
    | with_reducible assumption
    | ((with_reducible apply Keeps.step (State.modJob_keeps ..)); focus exact rfl)
    | ((with_reducible apply Keeps.step (reseedRequest_keeps ..)); focus exact rfl)
    | with_reducible apply Keeps.ite
    | with_reducible apply Keeps.ite_fst
    | with_reducible refine Keeps.foldl _ (fun _ _ => ?_) ?_
    | extract_lets
    | split
    | dsimp only)

theorem farmOp_keeps {ch : Part → Bool} {s0 s : State} {id op : Nat} {f : State → Job → State} (hm : within (only [.jobs, .mem, .buffers, .engines,
    .keys]) ch = true) (h0 : Keeps ch s0 s) (hf : ∀ t j, Keeps ch t (f t j)) : Keeps ch s0 (farmOp s id op f) := by
  unfold farmOp
  repeat' (first
    | with_reducible apply Keeps.refl
    | with_reducible assumption
    | ((with_reducible apply inTime_keeps); focus exact (within_trans rfl hm))
    | ((with_reducible apply Keeps.step (issueReads_keeps ..)); focus exact (within_trans rfl hm))
    | ((with_reducible apply Keeps.step (State.modJob_keeps ..)); focus exact (within_trans rfl hm))
    | ((with_reducible apply Keeps.step (beginWait_keeps ..)); focus exact (within_trans rfl hm))
    | with_reducible intro _
    | with_reducible apply Keeps.self
    | with_reducible exact hf _
    | with_reducible exact hf _ _
    | with_reducible exact hf _ _ _
    | with_reducible refine Keeps.trans ?_ (hf _)
    | with_reducible refine Keeps.trans ?_ (hf _ _)
    | with_reducible refine Keeps.trans ?_ (hf _ _ _)
    | with_reducible apply Keeps.ite
    | with_reducible apply Keeps.ite_fst
    | with_reducible refine Keeps.foldl _ (fun _ _ => ?_) ?_
    | extract_lets
    | split
    | dsimp only)

theorem rngNext_keeps (s : State) (j : Job) : Keeps (only [.seats, .jobs, .mem, .buffers, .keys, .entropy]) s (rngNext s j) := by
  unfold rngNext
  repeat' (first
    | with_reducible apply Keeps.refl
    | with_reducible assumption
    | ((with_reducible apply Keeps.step (askReseed_keeps ..)); focus exact rfl)
    | ((with_reducible apply OptKeeps.step (farmTake_keeps ..)); focus exact rfl)
    | ((with_reducible apply Keeps.step (genPart_keeps ..)); focus exact rfl)
    | with_reducible refine OptKeeps.get ?_ (by assumption)
    | with_reducible apply OptKeeps.some
    | with_reducible apply Keeps.ite
    | with_reducible apply Keeps.ite_fst
    | with_reducible refine Keeps.foldl _ (fun _ _ => ?_) ?_
    | extract_lets
    | split
    | dsimp only)

theorem rngGet_keeps (s : State) (id : Nat) : Keeps (only [.seats, .jobs, .mem, .buffers, .engines, .keys, .entropy]) s (rngGet s id) := by
  unfold rngGet
  repeat' (first
    | with_reducible apply Keeps.refl
    | with_reducible assumption
    | ((with_reducible apply farmOp_keeps); focus exact rfl)
    | ((with_reducible apply Keeps.step (rngNext_keeps ..)); focus exact rfl)
    | with_reducible intro _
    | with_reducible apply Keeps.self
    | with_reducible apply Keeps.ite
    | with_reducible apply Keeps.ite_fst
    | with_reducible refine Keeps.foldl _ (fun _ _ => ?_) ?_
    | extract_lets
    | split
    | dsimp only)

theorem execRngGet_keeps (job : Nat) (s : State) : OutKeeps (allBut [.pending, .params, .journal, .offers, .nextJob, .window, .time, .cust]) s
    (execRngGet job s) := by
  unfold execRngGet
  repeat' (first
    | with_reducible apply Keeps.refl
    | with_reducible assumption
    | with_reducible exact OutKeeps.fault
    | with_reducible exact OutKeeps.refused
    | with_reducible apply OutKeeps.ok
    | with_reducible apply OutKeeps.next
    | with_reducible apply OutKeeps.ite
    | ((with_reducible apply Keeps.step (carryAll_keeps ..)); focus exact rfl)
    | ((with_reducible apply Keeps.step (rngGet_keeps ..)); focus exact rfl)
    | with_reducible apply Keeps.ite
    | with_reducible apply Keeps.ite_fst
    | with_reducible refine Keeps.foldl _ (fun _ _ => ?_) ?_
    | extract_lets
    | split
    | dsimp only)

theorem execRngReseed_keeps (job : Nat) (s : State) : OutKeeps (allBut [.pending, .params, .journal, .offers, .nextJob, .window, .time, .cust]) s
    (execRngReseed job s) := by
  unfold execRngReseed
  repeat' (first
    | with_reducible apply Keeps.refl
    | with_reducible assumption
    | with_reducible exact OutKeeps.fault
    | with_reducible exact OutKeeps.refused
    | with_reducible apply OutKeeps.ok
    | with_reducible apply OutKeeps.next
    | with_reducible apply OutKeeps.ite
    | ((with_reducible apply Keeps.step (carryAll_keeps ..)); focus exact rfl)
    | ((with_reducible apply farmOp_keeps); focus exact rfl)
    | ((with_reducible apply Keeps.step (askReseed_keeps ..)); focus exact rfl)
    | with_reducible intro _
    | with_reducible apply Keeps.self
    | with_reducible apply Keeps.ite
    | with_reducible apply Keeps.ite_fst
    | with_reducible refine Keeps.foldl _ (fun _ _ => ?_) ?_
    | extract_lets
    | split
    | dsimp only)

theorem rawStart_keeps (s : State) (j : Job) : Keeps (only [.jobs, .entropy]) s (rawStart s j) := by
  unfold rawStart
  repeat' (first
    | with_reducible apply Keeps.refl
    | with_reducible assumption
    | ((with_reducible apply Keeps.step (State.modJob_keeps ..)); focus exact rfl)
    | ((with_reducible apply Keeps.step (State.modSource_keeps ..)); focus exact rfl)
    | with_reducible apply Keeps.ite
    | with_reducible apply Keeps.ite_fst
    | with_reducible refine Keeps.foldl _ (fun _ _ => ?_) ?_
    | extract_lets
    | split
    | dsimp only)

theorem execRngRaw_keeps (job : Nat) (s : State) : OutKeeps (allBut [.pending, .params, .journal, .offers, .nextJob, .window, .time, .cust]) s
    (execRngRaw job s) := by
  unfold execRngRaw
  repeat' (first
    | with_reducible apply Keeps.refl
    | with_reducible assumption
    | with_reducible exact OutKeeps.fault
    | with_reducible exact OutKeeps.refused
    | with_reducible apply OutKeeps.ok
    | with_reducible apply OutKeeps.next
    | with_reducible apply OutKeeps.ite
    | ((with_reducible apply Keeps.step (carryAll_keeps ..)); focus exact rfl)
    | ((with_reducible apply farmOp_keeps); focus exact rfl)
    | ((with_reducible apply Keeps.step (rawStart_keeps ..)); focus exact rfl)
    | with_reducible intro _
    | with_reducible apply Keeps.self
    | with_reducible apply Keeps.ite
    | with_reducible apply Keeps.ite_fst
    | with_reducible refine Keeps.foldl _ (fun _ _ => ?_) ?_
    | extract_lets
    | split
    | dsimp only)

theorem rngResult_keeps (s : State) (r : Nat) : Keeps (only [.entropy, .prompts]) s (rngResult s r) := by
  unfold rngResult
  repeat' (first
    | with_reducible apply Keeps.refl
    | with_reducible assumption
    | ((with_reducible apply Keeps.step (vector_keeps ..)); focus exact rfl)
    | with_reducible apply Keeps.ite
    | with_reducible apply Keeps.ite_fst
    | with_reducible refine Keeps.foldl _ (fun _ _ => ?_) ?_
    | extract_lets
    | split
    | dsimp only
    | ((with_reducible apply Keeps.upd) <;> first | exact .inl rfl | exact .inr rfl | skip))

theorem enterRehearsal_keeps (s : State) : Keeps (only [.jobs, .mem, .buffers, .engines, .keys, .entropy, .cust, .prompts]) s (enterRehearsal s) := by
  unfold enterRehearsal
  repeat' (first
    | with_reducible apply Keeps.refl
    | with_reducible assumption
    | ((with_reducible apply Keeps.step (rngResult_keeps ..)); focus exact rfl)
    | ((with_reducible apply Keeps.step (failDrawers_keeps ..)); focus exact rfl)
    | ((with_reducible apply Keeps.step (zeroAllInst_keeps ..)); focus exact rfl)
    | ((with_reducible apply Keeps.step (endAuth_keeps ..)); focus exact rfl)
    | with_reducible apply Keeps.ite
    | with_reducible apply Keeps.ite_fst
    | with_reducible refine Keeps.foldl _ (fun _ _ => ?_) ?_
    | extract_lets
    | split
    | dsimp only
    | ((with_reducible apply Keeps.upd) <;> first | exact .inl rfl | exact .inr rfl | skip))

theorem exitRehearsal_keeps (s : State) : Keeps (only [.jobs, .mem, .buffers, .engines, .keys, .entropy, .prompts]) s (exitRehearsal s) := by
  unfold exitRehearsal
  repeat' (first
    | with_reducible apply Keeps.refl
    | with_reducible assumption
    | ((with_reducible apply Keeps.step (rngResult_keeps ..)); focus exact rfl)
    | ((with_reducible apply Keeps.step (endRehearsal_keeps ..)); focus exact rfl)
    | with_reducible apply Keeps.ite
    | with_reducible apply Keeps.ite_fst
    | with_reducible refine Keeps.foldl _ (fun _ _ => ?_) ?_
    | extract_lets
    | split
    | dsimp only)

theorem reviveSources_keeps (s : State) (mask : Nat) : Keeps (only [.entropy, .prompts]) s (reviveSources s mask) := by
  unfold reviveSources
  repeat' (first
    | with_reducible apply Keeps.refl
    | with_reducible assumption
    | ((with_reducible apply Keeps.step (rngResult_keeps ..)); focus exact rfl)
    | ((with_reducible apply Keeps.step (restartSource_keeps ..)); focus exact rfl)
    | ((with_reducible apply Keeps.step (State.modSource_keeps ..)); focus exact rfl)
    | with_reducible apply Keeps.ite
    | with_reducible apply Keeps.ite_fst
    | with_reducible refine Keeps.foldl _ (fun _ _ => ?_) ?_
    | extract_lets
    | split
    | dsimp only)

theorem clearCounts_keeps (s : State) : Keeps (only [.entropy, .prompts]) s (clearCounts s) := by
  unfold clearCounts
  repeat' (first
    | with_reducible apply Keeps.refl
    | with_reducible assumption
    | ((with_reducible apply Keeps.step (rngResult_keeps ..)); focus exact rfl)
    | ((with_reducible apply Keeps.step (State.modSource_keeps ..)); focus exact rfl)
    | with_reducible apply Keeps.ite
    | with_reducible apply Keeps.ite_fst
    | with_reducible refine Keeps.foldl _ (fun _ _ => ?_) ?_
    | extract_lets
    | split
    | dsimp only)

theorem execEnterRehearsal_keeps (s : State) : OutKeeps (allBut [.pending, .params, .journal, .offers, .nextJob, .window, .time]) s
    (execEnterRehearsal s) := by
  unfold execEnterRehearsal
  repeat' (first
    | with_reducible apply Keeps.refl
    | with_reducible assumption
    | with_reducible exact OutKeeps.fault
    | with_reducible exact OutKeeps.refused
    | with_reducible apply OutKeeps.ok
    | with_reducible apply OutKeeps.next
    | with_reducible apply OutKeeps.ite
    | ((with_reducible apply Keeps.step (carryAll_keeps ..)); focus exact rfl)
    | ((with_reducible apply mgrWrite_keeps); focus exact rfl)
    | ((with_reducible apply Keeps.step (enterRehearsal_keeps ..)); focus exact rfl)
    | with_reducible intro _
    | with_reducible apply Keeps.self
    | with_reducible apply Keeps.ite
    | with_reducible apply Keeps.ite_fst
    | with_reducible refine Keeps.foldl _ (fun _ _ => ?_) ?_
    | extract_lets
    | split
    | dsimp only)

theorem execExitRehearsal_keeps (s : State) : OutKeeps (allBut [.pending, .params, .journal, .offers, .nextJob, .window, .time, .cust]) s
    (execExitRehearsal s) := by
  unfold execExitRehearsal
  repeat' (first
    | with_reducible apply Keeps.refl
    | with_reducible assumption
    | with_reducible exact OutKeeps.fault
    | with_reducible exact OutKeeps.refused
    | with_reducible apply OutKeeps.ok
    | with_reducible apply OutKeeps.next
    | with_reducible apply OutKeeps.ite
    | ((with_reducible apply Keeps.step (carryAll_keeps ..)); focus exact rfl)
    | ((with_reducible apply mgrWrite_keeps); focus exact rfl)
    | ((with_reducible apply Keeps.step (exitRehearsal_keeps ..)); focus exact rfl)
    | with_reducible intro _
    | with_reducible apply Keeps.self
    | with_reducible apply Keeps.ite
    | with_reducible apply Keeps.ite_fst
    | with_reducible refine Keeps.foldl _ (fun _ _ => ?_) ?_
    | extract_lets
    | split
    | dsimp only)

theorem execRevive_keeps (mask : Nat) (s : State) : OutKeeps (allBut [.pending, .params, .journal, .offers, .nextJob, .window, .time, .cust]) s
    (execRevive mask s) := by
  unfold execRevive
  repeat' (first
    | with_reducible apply Keeps.refl
    | with_reducible assumption
    | with_reducible exact OutKeeps.fault
    | with_reducible exact OutKeeps.refused
    | with_reducible apply OutKeeps.ok
    | with_reducible apply OutKeeps.next
    | with_reducible apply OutKeeps.ite
    | ((with_reducible apply Keeps.step (fin_keeps ..)); focus exact rfl)
    | ((with_reducible apply mgrWrite_keeps); focus exact rfl)
    | ((with_reducible apply Keeps.step (reviveSources_keeps ..)); focus exact rfl)
    | with_reducible intro _
    | with_reducible apply Keeps.self
    | with_reducible apply Keeps.ite
    | with_reducible apply Keeps.ite_fst
    | with_reducible refine Keeps.foldl _ (fun _ _ => ?_) ?_
    | extract_lets
    | split
    | dsimp only)

theorem execClearCounts_keeps (s : State) : OutKeeps (allBut [.pending, .params, .journal, .offers, .nextJob, .window, .time, .cust]) s
    (execClearCounts s) := by
  unfold execClearCounts
  repeat' (first
    | with_reducible apply Keeps.refl
    | with_reducible assumption
    | with_reducible exact OutKeeps.fault
    | with_reducible exact OutKeeps.refused
    | with_reducible apply OutKeeps.ok
    | with_reducible apply OutKeeps.next
    | with_reducible apply OutKeeps.ite
    | ((with_reducible apply Keeps.step (fin_keeps ..)); focus exact rfl)
    | ((with_reducible apply mgrWrite_keeps); focus exact rfl)
    | ((with_reducible apply Keeps.step (clearCounts_keeps ..)); focus exact rfl)
    | with_reducible intro _
    | with_reducible apply Keeps.self
    | with_reducible apply Keeps.ite
    | with_reducible apply Keeps.ite_fst
    | with_reducible refine Keeps.foldl _ (fun _ _ => ?_) ?_
    | extract_lets
    | split
    | dsimp only)

theorem rngWrite_keeps (s : State) (off : Nat) (v : W32) : Keeps (only [.alarms, .jobs, .mem, .buffers, .engines, .keys, .entropy, .cust, .prompts]) s
    (rngWrite s off v) := by
  unfold rngWrite
  repeat' (first
    | with_reducible apply Keeps.refl
    | with_reducible assumption
    | ((with_reducible apply Keeps.step (enterRehearsal_keeps ..)); focus exact rfl)
    | ((with_reducible apply Keeps.step (exitRehearsal_keeps ..)); focus exact rfl)
    | ((with_reducible apply Keeps.step (reviveSources_keeps ..)); focus exact rfl)
    | ((with_reducible apply Keeps.step (clearCounts_keeps ..)); focus exact rfl)
    | ((with_reducible apply Keeps.step (rngResult_keeps ..)); focus exact rfl)
    | ((with_reducible apply Keeps.step (refuse_keeps ..)); focus exact rfl)
    | with_reducible apply Keeps.ite
    | with_reducible apply Keeps.ite_fst
    | with_reducible refine Keeps.foldl _ (fun _ _ => ?_) ?_
    | extract_lets
    | split
    | dsimp only
    | ((with_reducible apply Keeps.upd) <;> first | exact .inl rfl | exact .inr rfl | skip))

end Sys2Proof.Machine
end

