-- ==== Sys2Proof/Laws/FrameFront.lean ====
section
/-! SUPPORT. Frames of Machine/Front: for each operation, the parts of the state it may change. -/

namespace Sys2Proof.Machine

theorem orphan_keeps (s : State) (id : Nat) (sub : Nat) : Keeps (only [.jobs, .mem, .buffers, .front]) s (orphan s id sub) := by
  unfold orphan
  repeat' (first
    | with_reducible apply Keeps.refl
    | with_reducible assumption
    | ((with_reducible apply Keeps.step (fixOutcome_keeps ..)); focus exact rfl)
    | ((with_reducible apply Keeps.step (State.modFront_keeps ..)); focus exact rfl)
    | with_reducible apply Keeps.ite
    | with_reducible apply Keeps.ite_fst
    | with_reducible refine Keeps.foldl _ (fun _ _ => ?_) ?_
    | extract_lets
    | split
    | dsimp only)

theorem follow_keeps (s : State) (id : Nat) (f : Follow) : Keeps (only [.jobs, .mem, .buffers]) s (follow s id f) := by
  unfold follow
  repeat' (first
    | with_reducible apply Keeps.refl
    | with_reducible assumption
    | ((with_reducible apply Keeps.step (fixOutcome_keeps ..)); focus exact rfl)
    | ((with_reducible apply Keeps.step (modPkt_keeps ..)); focus exact rfl)
    | with_reducible apply Keeps.ite
    | with_reducible apply Keeps.ite_fst
    | with_reducible refine Keeps.foldl _ (fun _ _ => ?_) ?_
    | extract_lets
    | split
    | dsimp only)

theorem firstFragment_keeps (s : State) (id : Nat) (key : Bytes) (assoc : Nat) (epoch : Nat) : Keeps (only [.jobs, .mem, .buffers, .front]) s
    (firstFragment s id key assoc epoch) := by
  unfold firstFragment
  repeat' (first
    | with_reducible apply Keeps.refl
    | with_reducible assumption
    | ((with_reducible apply Keeps.step (follow_keeps ..)); focus exact rfl)
    | ((with_reducible apply Keeps.step (State.modFront_keeps ..)); focus exact rfl)
    | ((with_reducible apply Keeps.step (orphan_keeps ..)); focus exact rfl)
    | with_reducible apply Keeps.ite
    | with_reducible apply Keeps.ite_fst
    | with_reducible refine Keeps.foldl _ (fun _ _ => ?_) ?_
    | extract_lets
    | split
    | dsimp only)

theorem laterFragment_keeps (s : State) (id : Nat) (key : Bytes) : Keeps (only [.jobs, .mem, .buffers, .front]) s (laterFragment s id key) := by
  unfold laterFragment
  repeat' (first
    | with_reducible apply Keeps.refl
    | with_reducible assumption
    | ((with_reducible apply Keeps.step (orphan_keeps ..)); focus exact rfl)
    | ((with_reducible apply Keeps.step (follow_keeps ..)); focus exact rfl)
    | ((with_reducible apply Keeps.step (State.modFront_keeps ..)); focus exact rfl)
    | with_reducible apply Keeps.ite
    | with_reducible apply Keeps.ite_fst
    | with_reducible refine Keeps.foldl _ (fun _ _ => ?_) ?_
    | extract_lets
    | split
    | dsimp only)

theorem placePkt_ck {ch : Part → Bool} {s0 : State} {s : State} {j : Job} {p : Pkt} (hm : within (only [.seats, .jobs, .mem, .place, .buffers,
    .engines, .keys, .front]) ch = true) (h0 : Keeps ch s0 s) : CkOk (OfState ch s0) (Keeps ch s0) (placePkt s j p) := by
  unfold placePkt
  repeat' (first
    | with_reducible apply Keeps.refl
    | with_reducible assumption
    | ((with_reducible apply assocCk_ck); focus exact (within_trans rfl hm))
    | with_reducible refine ck_any (p := OfPair _ _) ?_
    | with_reducible apply chk_ck
    | ((with_reducible apply keyCk_ck); focus exact (within_trans rfl hm))
    | with_reducible exact ofAny _
    | with_reducible apply ck_ite
    | with_reducible exact CkOk.need
    | with_reducible exact CkOk.fail
    | with_reducible apply ck_ok
    | with_reducible apply ck_pure
    | with_reducible apply CkOk.waits
    | with_reducible refine ck_bindState ?_ (fun _ _ => ?_)
    | with_reducible refine ck_bindPair ?_ (fun _ _ _ => ?_)
    | with_reducible refine ck_bindAny ?_ (fun _ => ?_)
    | with_reducible apply OfState.mk
    | with_reducible apply ofPair
    | ((with_reducible apply Keeps.step (State.modJob_keeps ..)); focus exact (within_trans rfl hm))
    | ((with_reducible apply Keeps.step (placeAssoc_keeps ..)); focus exact (within_trans rfl hm))
    | with_reducible refine ck_okPair ?_ (by assumption)
    | with_reducible refine ck_waits ?_ (by assumption)
    | with_reducible apply Keeps.ite
    | with_reducible apply Keeps.ite_fst
    | with_reducible refine Keeps.foldl _ (fun _ _ => ?_) ?_
    | extract_lets
    | split
    | dsimp only)

theorem frontGo_keeps (s : State) (id : Nat) : Keeps (only [.seats, .jobs, .mem, .place, .buffers, .engines, .keys, .front]) s (frontGo s id) := by
  unfold frontGo
  repeat' (first
    | with_reducible apply Keeps.refl
    | with_reducible assumption
    | ((with_reducible apply runCk_keeps); focus exact rfl)
    | with_reducible intro _
    | with_reducible apply Keeps.self
    | with_reducible refine ck_okState ?_ (by assumption)
    | with_reducible refine ck_waits ?_ (by assumption)
    | ((with_reducible apply placePkt_ck); focus exact rfl)
    | with_reducible refine ck_any (p := OfState _ _) ?_
    | with_reducible exact ofAny _
    | with_reducible apply ck_ite
    | with_reducible exact CkOk.need
    | with_reducible exact CkOk.fail
    | with_reducible apply ck_ok
    | with_reducible apply ck_pure
    | with_reducible apply CkOk.waits
    | with_reducible refine ck_bindState ?_ (fun _ _ => ?_)
    | with_reducible refine ck_bindPair ?_ (fun _ _ _ => ?_)
    | with_reducible refine ck_bindAny ?_ (fun _ => ?_)
    | with_reducible apply OfState.mk
    | with_reducible apply ofPair
    | with_reducible apply Keeps.ite
    | with_reducible apply Keeps.ite_fst
    | with_reducible refine Keeps.foldl _ (fun _ _ => ?_) ?_
    | extract_lets
    | split
    | dsimp only)

theorem parsed.passOn_keeps (s : State) (id : Nat) (w : Parse) : Keeps (only [.jobs, .mem, .buffers]) s (parsed.passOn s id w) := by
  unfold parsed.passOn
  repeat' (first
    | with_reducible apply Keeps.refl
    | with_reducible assumption
    | ((with_reducible apply Keeps.step (fixOutcome_keeps ..)); focus exact rfl)
    | ((with_reducible apply Keeps.step (modPkt_keeps ..)); focus exact rfl)
    | with_reducible apply Keeps.ite
    | with_reducible apply Keeps.ite_fst
    | with_reducible refine Keeps.foldl _ (fun _ _ => ?_) ?_
    | extract_lets
    | split
    | dsimp only)

theorem parsed_keeps (s : State) (id : Nat) (w : Parse) (out : Bool) (b : Bytes) (epoch : Nat) : Keeps (only [.seats, .jobs, .mem, .place, .buffers,
    .engines, .keys, .front]) s (parsed s id w out b epoch) := by
  unfold parsed
  repeat' (first
    | with_reducible apply Keeps.refl
    | with_reducible assumption
    | ((with_reducible apply Keeps.step (modPkt_keeps ..)); focus exact rfl)
    | ((with_reducible apply Keeps.step (fixOutcome_keeps ..)); focus exact rfl)
    | ((with_reducible apply Keeps.step (frontGo_keeps ..)); focus exact rfl)
    | ((with_reducible apply Keeps.step (laterFragment_keeps ..)); focus exact rfl)
    | ((with_reducible apply Keeps.step (firstFragment_keeps ..)); focus exact rfl)
    | ((with_reducible apply Keeps.step (parsed.passOn_keeps ..)); focus exact rfl)
    | with_reducible apply Keeps.ite
    | with_reducible apply Keeps.ite_fst
    | with_reducible refine Keeps.foldl _ (fun _ _ => ?_) ?_
    | extract_lets
    | split
    | dsimp only)

theorem packetArrive_keeps (s : State) (port : Nat) (m : BitVec 128) (b : Bytes) (err : Bool) : Keeps (only [.seats, .jobs, .nextJob, .mem, .place,
    .buffers, .engines, .keys, .front]) s (packetArrive s port m b err) := by
  unfold packetArrive
  repeat' (first
    | with_reducible apply Keeps.refl
    | with_reducible assumption
    | ((with_reducible apply Keeps.step (State.modFront_keeps ..)); focus exact rfl)
    | ((with_reducible apply Keeps.step (parsed_keeps ..)); focus exact rfl)
    | with_reducible apply Keeps.ite
    | with_reducible apply Keeps.ite_fst
    | with_reducible refine Keeps.foldl _ (fun _ _ => ?_) ?_
    | extract_lets
    | split
    | dsimp only
    | ((with_reducible apply Keeps.upd) <;> first | exact .inl rfl | exact .inr rfl | skip))

theorem execPacketIn_keeps (port : Nat) (meta128 : BitVec 128) (bytes : Bytes) (err : Bool) (s : State) : OutKeeps (allBut [.pending, .params,
    .journal, .offers, .window, .time, .cust]) s (execPacketIn port meta128 bytes err s) := by
  unfold execPacketIn
  repeat' (first
    | with_reducible apply Keeps.refl
    | with_reducible assumption
    | with_reducible exact OutKeeps.fault
    | with_reducible exact OutKeeps.refused
    | with_reducible apply OutKeeps.ok
    | with_reducible apply OutKeeps.next
    | with_reducible apply OutKeeps.ite
    | ((with_reducible apply Keeps.step (carry_keeps ..)); focus exact rfl)
    | ((with_reducible apply Keeps.step (packetArrive_keeps ..)); focus exact rfl)
    | with_reducible apply Keeps.ite
    | with_reducible apply Keeps.ite_fst
    | with_reducible refine Keeps.foldl _ (fun _ _ => ?_) ?_
    | extract_lets
    | split
    | dsimp only)

theorem packetTake_keeps (s : State) (port : Nat) : Keeps (only [.front]) s (packetTake s port) := by
  unfold packetTake
  repeat' (first
    | with_reducible apply Keeps.refl
    | with_reducible assumption
    | ((with_reducible apply Keeps.step (State.modFront_keeps ..)); focus exact rfl)
    | with_reducible apply Keeps.ite
    | with_reducible apply Keeps.ite_fst
    | with_reducible refine Keeps.foldl _ (fun _ _ => ?_) ?_
    | extract_lets
    | split
    | dsimp only)

theorem execPacketOutAccept_keeps (port : Nat) (s : State) : OutKeeps (only [.front]) s (execPacketOutAccept port s) := by
  unfold execPacketOutAccept
  repeat' (first
    | with_reducible apply Keeps.refl
    | with_reducible assumption
    | with_reducible exact OutKeeps.fault
    | with_reducible exact OutKeeps.refused
    | with_reducible apply OutKeeps.ok
    | with_reducible apply OutKeeps.next
    | with_reducible apply OutKeeps.ite
    | ((with_reducible apply whenDo_keeps); focus exact rfl)
    | ((with_reducible apply Keeps.step (packetTake_keeps ..)); focus exact rfl)
    | with_reducible intro _
    | with_reducible apply Keeps.self
    | with_reducible apply Keeps.ite
    | with_reducible apply Keeps.ite_fst
    | with_reducible refine Keeps.foldl _ (fun _ _ => ?_) ?_
    | extract_lets
    | split
    | dsimp only)

theorem putNodes_keeps (s : State) (bank : Bool) (ws : List (Nat × Nat)) : Keeps (only [.front]) s (putNodes s bank ws) := by
  unfold putNodes
  repeat' (first
    | with_reducible apply Keeps.refl
    | with_reducible assumption
    | ((with_reducible apply Keeps.step (State.modFront_keeps ..)); focus exact rfl)
    | with_reducible apply Keeps.ite
    | with_reducible apply Keeps.ite_fst
    | with_reducible refine Keeps.foldl _ (fun _ _ => ?_) ?_
    | extract_lets
    | split
    | dsimp only)

theorem nodePut_keeps (s : State) (off : Nat) (v : W32) : Keeps (only [.alarms, .front, .prompts]) s (nodePut s off v) := by
  unfold nodePut
  repeat' (first
    | with_reducible apply Keeps.refl
    | with_reducible assumption
    | ((with_reducible apply Keeps.step (refuse_keeps ..)); focus exact rfl)
    | ((with_reducible apply Keeps.step (State.modFront_keeps ..)); focus exact rfl)
    | with_reducible apply Keeps.ite
    | with_reducible apply Keeps.ite_fst
    | with_reducible refine Keeps.foldl _ (fun _ _ => ?_) ?_
    | extract_lets
    | split
    | dsimp only)

theorem execNodeWrite_keeps (off : Nat) (value : W32) (s : State) : OutKeeps (only [.alarms, .front, .prompts]) s (execNodeWrite off value s) := by
  unfold execNodeWrite
  repeat' (first
    | with_reducible apply Keeps.refl
    | with_reducible assumption
    | with_reducible exact OutKeeps.fault
    | with_reducible exact OutKeeps.refused
    | with_reducible apply OutKeeps.ok
    | with_reducible apply OutKeeps.next
    | with_reducible apply OutKeeps.ite
    | ((with_reducible apply mgrWrite_keeps); focus exact rfl)
    | ((with_reducible apply Keeps.step (nodePut_keeps ..)); focus exact rfl)
    | with_reducible intro _
    | with_reducible apply Keeps.self
    | with_reducible apply Keeps.ite
    | with_reducible apply Keeps.ite_fst
    | with_reducible refine Keeps.foldl _ (fun _ _ => ?_) ?_
    | extract_lets
    | split
    | dsimp only)

theorem doSwap_keeps (s : State) : Keeps (only [.front]) s (doSwap s) := by
  unfold doSwap
  repeat' (first
    | with_reducible apply Keeps.refl
    | with_reducible assumption
    | ((with_reducible apply Keeps.step (State.modFront_keeps ..)); focus exact rfl)
    | with_reducible apply Keeps.ite
    | with_reducible apply Keeps.ite_fst
    | with_reducible refine Keeps.foldl _ (fun _ _ => ?_) ?_
    | extract_lets
    | split
    | dsimp only)

theorem swapCmd_keeps (s : State) : Keeps (only [.front]) s (swapCmd s) := by
  unfold swapCmd
  repeat' (first
    | with_reducible apply Keeps.refl
    | with_reducible assumption
    | ((with_reducible apply Keeps.step (doSwap_keeps ..)); focus exact rfl)
    | with_reducible apply Keeps.ite
    | with_reducible apply Keeps.ite_fst
    | with_reducible refine Keeps.foldl _ (fun _ _ => ?_) ?_
    | extract_lets
    | split
    | dsimp only)

theorem execSwap_keeps (s : State) : OutKeeps (only [.alarms, .front, .prompts]) s (execSwap s) := by
  unfold execSwap
  repeat' (first
    | with_reducible apply Keeps.refl
    | with_reducible assumption
    | with_reducible exact OutKeeps.fault
    | with_reducible exact OutKeeps.refused
    | with_reducible apply OutKeeps.ok
    | with_reducible apply OutKeeps.next
    | with_reducible apply OutKeeps.ite
    | ((with_reducible apply mgrWrite_keeps); focus exact rfl)
    | ((with_reducible apply Keeps.step (swapCmd_keeps ..)); focus exact rfl)
    | with_reducible intro _
    | with_reducible apply Keeps.self
    | with_reducible apply Keeps.ite
    | with_reducible apply Keeps.ite_fst
    | with_reducible refine Keeps.foldl _ (fun _ _ => ?_) ?_
    | extract_lets
    | split
    | dsimp only)

theorem drainEnd_keeps (s : State) : Keeps (only [.front]) s (drainEnd s) := by
  unfold drainEnd
  repeat' (first
    | with_reducible apply Keeps.refl
    | with_reducible assumption
    | ((with_reducible apply Keeps.step (State.modFront_keeps ..)); focus exact rfl)
    | with_reducible apply Keeps.ite
    | with_reducible apply Keeps.ite_fst
    | with_reducible refine Keeps.foldl _ (fun _ _ => ?_) ?_
    | extract_lets
    | split
    | dsimp only)

theorem execEpochDrainEnd_keeps (s : State) : OutKeeps (only [.front]) s (execEpochDrainEnd s) := by
  unfold execEpochDrainEnd
  repeat' (first
    | with_reducible apply Keeps.refl
    | with_reducible assumption
    | with_reducible exact OutKeeps.fault
    | with_reducible exact OutKeeps.refused
    | with_reducible apply OutKeeps.ok
    | with_reducible apply OutKeeps.next
    | with_reducible apply OutKeeps.ite
    | ((with_reducible apply whenDo_keeps); focus exact rfl)
    | ((with_reducible apply Keeps.step (drainEnd_keeps ..)); focus exact rfl)
    | with_reducible intro _
    | with_reducible apply Keeps.self
    | with_reducible apply Keeps.ite
    | with_reducible apply Keeps.ite_fst
    | with_reducible refine Keeps.foldl _ (fun _ _ => ?_) ?_
    | extract_lets
    | split
    | dsimp only)

theorem rehashCmd_keeps (s : State) (v : W32) : Keeps (only [.alarms, .front, .prompts]) s (rehashCmd s v) := by
  unfold rehashCmd
  repeat' (first
    | with_reducible apply Keeps.refl
    | with_reducible assumption
    | ((with_reducible apply Keeps.step (refuse_keeps ..)); focus exact rfl)
    | ((with_reducible apply Keeps.step (State.modFront_keeps ..)); focus exact rfl)
    | with_reducible apply Keeps.ite
    | with_reducible apply Keeps.ite_fst
    | with_reducible refine Keeps.foldl _ (fun _ _ => ?_) ?_
    | extract_lets
    | split
    | dsimp only)

theorem readBucket_keeps (s : State) (t : Nat) (b : Nat) : Keeps (only [.mem]) s (readBucket s t b) := by
  unfold readBucket
  repeat' (first
    | with_reducible apply Keeps.refl
    | with_reducible assumption
    | ((with_reducible apply Keeps.step (addRead_keeps ..)); focus exact rfl)
    | with_reducible apply Keeps.ite
    | with_reducible apply Keeps.ite_fst
    | with_reducible refine Keeps.foldl _ (fun _ _ => ?_) ?_
    | extract_lets
    | split
    | dsimp only)

theorem moveSlot_keeps (s : State) (b : Nat) (k : Nat) (v : Bytes) : Keeps (only [.mem, .front]) s (moveSlot s b k v).1 := by
  unfold moveSlot
  repeat' (first
    | with_reducible apply Keeps.refl
    | with_reducible assumption
    | ((with_reducible apply Keeps.step (readBucket_keeps ..)); focus exact rfl)
    | ((with_reducible apply Keeps.step (setSlot_keeps ..)); focus exact rfl)
    | with_reducible refine Keeps.step (peerInsert_done (by assumption)) (by decide) ?_
    | ((with_reducible apply Keeps.step (State.modFront_keeps ..)); focus exact rfl)
    | with_reducible apply Keeps.ite
    | with_reducible apply Keeps.ite_fst
    | with_reducible refine Keeps.foldl _ (fun _ _ => ?_) ?_
    | extract_lets
    | split
    | dsimp only)

theorem rehashGo_keeps (n : Nat) (s : State) : Keeps (only [.mem, .front]) s (rehashGo n s) := by
  induction n generalizing s with
  | zero => exact .refl _
  | succ n ih =>
    unfold rehashGo
    dsimp only
    split
    · exact .refl _
    · split
      · exact (readBucket_keeps ..).mono rfl
      · rename_i v _
        have h1 := Keeps.trans ((keepBucket_keeps s 0 (s.front.rehashAt / 4) v).mono rfl : Keeps (only [.mem, .front]) s _) ((moveSlot_keeps _ (s.front.rehashAt / 4) (s.front.rehashAt % 4) v).mono rfl)
        split
        · exact (h1.trans ((State.modFront_keeps ..).mono rfl)).trans (ih _)
        · exact h1

theorem rehashStep_keeps (s : State) : Keeps (only [.mem, .front]) s (rehashStep s) := by
  unfold rehashStep
  repeat' (first
    | with_reducible apply Keeps.refl
    | with_reducible assumption
    | ((with_reducible apply Keeps.step (rehashGo_keeps ..)); focus exact rfl)
    | with_reducible apply Keeps.ite
    | with_reducible apply Keeps.ite_fst
    | with_reducible refine Keeps.foldl _ (fun _ _ => ?_) ?_
    | extract_lets
    | split
    | dsimp only)

theorem execRehash_keeps (s : State) : OutKeeps (allBut [.pending, .params, .journal, .offers, .nextJob, .window, .time, .cust]) s (execRehash s) :=
    by
  unfold execRehash
  repeat' (first
    | with_reducible apply Keeps.refl
    | with_reducible assumption
    | with_reducible exact OutKeeps.fault
    | with_reducible exact OutKeeps.refused
    | with_reducible apply OutKeeps.ok
    | with_reducible apply OutKeeps.next
    | with_reducible apply OutKeeps.ite
    | ((with_reducible apply Keeps.step (carry_keeps ..)); focus exact rfl)
    | ((with_reducible apply mgrWrite_keeps); focus exact rfl)
    | ((with_reducible apply Keeps.step (rehashStep_keeps ..)); focus exact rfl)
    | ((with_reducible apply Keeps.step (rehashCmd_keeps ..)); focus exact rfl)
    | with_reducible intro _
    | with_reducible apply Keeps.self
    | with_reducible apply Keeps.ite
    | with_reducible apply Keeps.ite_fst
    | with_reducible refine Keeps.foldl _ (fun _ _ => ?_) ?_
    | extract_lets
    | split
    | dsimp only)

theorem rehashEnd_keeps (s : State) : Keeps (only [.mem, .front, .prompts]) s (rehashEnd s) := by
  unfold rehashEnd
  repeat' (first
    | with_reducible apply Keeps.refl
    | with_reducible assumption
    | ((with_reducible apply Keeps.step (rehashStep_keeps ..)); focus exact rfl)
    | ((with_reducible apply Keeps.step (vector_keeps ..)); focus exact rfl)
    | with_reducible apply Keeps.ite
    | with_reducible apply Keeps.ite_fst
    | with_reducible refine Keeps.foldl _ (fun _ _ => ?_) ?_
    | extract_lets
    | split
    | dsimp only
    | ((with_reducible apply Keeps.upd) <;> first | exact .inl rfl | exact .inr rfl | skip))

theorem execRehashDone_keeps (s : State) : OutKeeps (allBut [.pending, .params, .journal, .offers, .nextJob, .window, .time, .cust]) s (execRehashDone
    s) := by
  unfold execRehashDone
  repeat' (first
    | with_reducible apply Keeps.refl
    | with_reducible assumption
    | with_reducible exact OutKeeps.fault
    | with_reducible exact OutKeeps.refused
    | with_reducible apply OutKeeps.ok
    | with_reducible apply OutKeeps.next
    | with_reducible apply OutKeeps.ite
    | ((with_reducible apply Keeps.step (carry_keeps ..)); focus exact rfl)
    | ((with_reducible apply whenDo_keeps); focus exact rfl)
    | ((with_reducible apply Keeps.step (rehashEnd_keeps ..)); focus exact rfl)
    | with_reducible intro _
    | with_reducible apply Keeps.self
    | with_reducible apply Keeps.ite
    | with_reducible apply Keeps.ite_fst
    | with_reducible refine Keeps.foldl _ (fun _ _ => ?_) ?_
    | extract_lets
    | split
    | dsimp only)

theorem ageSlot_keeps (b : Nat) (v : Bytes) (s : State) (k : Nat) : Keeps (only [.front]) s (ageSlot b v s k) := by
  unfold ageSlot
  repeat' (first
    | with_reducible apply Keeps.refl
    | with_reducible assumption
    | ((with_reducible apply Keeps.step (peerPush_keeps ..)); focus exact rfl)
    | ((with_reducible apply Keeps.step (setSlot_keeps ..)); focus exact rfl)
    | with_reducible apply Keeps.ite
    | with_reducible apply Keeps.ite_fst
    | with_reducible refine Keeps.foldl _ (fun _ _ => ?_) ?_
    | extract_lets
    | split
    | dsimp only)

theorem ageBucket_keeps (s : State) (b : Nat) : Keeps (only [.front]) s (ageBucket s b) := by
  unfold ageBucket
  repeat' (first
    | with_reducible apply Keeps.refl
    | with_reducible assumption
    | ((with_reducible apply Keeps.step (ageSlot_keeps ..)); focus exact rfl)
    | ((with_reducible apply Keeps.step (State.modFront_keeps ..)); focus exact rfl)
    | with_reducible apply Keeps.ite
    | with_reducible apply Keeps.ite_fst
    | with_reducible refine Keeps.foldl _ (fun _ _ => ?_) ?_
    | extract_lets
    | split
    | dsimp only)

theorem ageDue_keeps (s : State) : Keeps (only [.front]) s (ageDue s) := by
  unfold ageDue
  repeat' (first
    | with_reducible apply Keeps.refl
    | with_reducible assumption
    | ((with_reducible apply Keeps.step (ageBucket_keeps ..)); focus exact rfl)
    | with_reducible apply Keeps.ite
    | with_reducible apply Keeps.ite_fst
    | with_reducible refine Keeps.foldl _ (fun _ _ => ?_) ?_
    | extract_lets
    | split
    | dsimp only)

theorem ageVisit_keeps (s : State) (b : Nat) : Keeps (only [.mem, .front]) s (ageVisit s b) := by
  unfold ageVisit
  repeat' (first
    | with_reducible apply Keeps.refl
    | with_reducible assumption
    | ((with_reducible apply Keeps.step (State.modFront_keeps ..)); focus exact rfl)
    | ((with_reducible apply Keeps.step (readBucket_keeps ..)); focus exact rfl)
    | with_reducible apply Keeps.ite
    | with_reducible apply Keeps.ite_fst
    | with_reducible refine Keeps.foldl _ (fun _ _ => ?_) ?_
    | extract_lets
    | split
    | dsimp only)

theorem execPeerAgeVisit_keeps (bucket : Nat) (s : State) : OutKeeps (allBut [.pending, .params, .journal, .offers, .nextJob, .window, .time, .cust])
    s (execPeerAgeVisit bucket s) := by
  unfold execPeerAgeVisit
  repeat' (first
    | with_reducible apply Keeps.refl
    | with_reducible assumption
    | with_reducible exact OutKeeps.fault
    | with_reducible exact OutKeeps.refused
    | with_reducible apply OutKeeps.ok
    | with_reducible apply OutKeeps.next
    | with_reducible apply OutKeeps.ite
    | ((with_reducible apply Keeps.step (carry_keeps ..)); focus exact rfl)
    | ((with_reducible apply whenDo_keeps); focus exact rfl)
    | ((with_reducible apply Keeps.step (ageVisit_keeps ..)); focus exact rfl)
    | with_reducible intro _
    | with_reducible apply Keeps.self
    | with_reducible apply Keeps.ite
    | with_reducible apply Keeps.ite_fst
    | with_reducible refine Keeps.foldl _ (fun _ _ => ?_) ?_
    | extract_lets
    | split
    | dsimp only)

theorem execStrangerStsRead_keeps (seat : Nat) (s : State) : OutKeeps (only [.seats, .seatRegs]) s (execStrangerStsRead seat s) := by
  unfold execStrangerStsRead
  repeat' (first
    | with_reducible apply Keeps.refl
    | with_reducible assumption
    | with_reducible exact OutKeeps.fault
    | with_reducible exact OutKeeps.refused
    | with_reducible apply OutKeeps.ok
    | with_reducible apply OutKeeps.next
    | with_reducible apply OutKeeps.ite
    | ((with_reducible apply hregRead_keeps); focus exact rfl)
    | ((with_reducible apply Keeps.step (State.modSeat_keeps ..)); focus exact rfl)
    | ((with_reducible apply Keeps.step (readBack_keeps ..)); focus exact rfl)
    | with_reducible intro _
    | with_reducible apply Keeps.self
    | with_reducible apply Keeps.ite
    | with_reducible apply Keeps.ite_fst
    | with_reducible refine Keeps.foldl _ (fun _ _ => ?_) ?_
    | extract_lets
    | split
    | dsimp only)

theorem frontSeatWrite_keeps (s : State) (off : Nat) (v : W32) : Keeps (only [.alarms, .seats, .place, .prompts]) s (frontSeatWrite s off v) := by
  unfold frontSeatWrite
  repeat' (first
    | with_reducible apply Keeps.refl
    | with_reducible assumption
    | ((with_reducible apply Keeps.step (refuse_keeps ..)); focus exact rfl)
    | ((with_reducible apply Keeps.step (State.modSeat_keeps ..)); focus exact rfl)
    | ((with_reducible apply Keeps.step (latchEpoch_keeps ..)); focus exact rfl)
    | with_reducible apply Keeps.ite
    | with_reducible apply Keeps.ite_fst
    | with_reducible refine Keeps.foldl _ (fun _ _ => ?_) ?_
    | extract_lets
    | split
    | dsimp only)

theorem frontWrite_keeps (s : State) (off : Nat) (v : W32) : Keeps (only [.alarms, .seats, .mem, .place, .front, .prompts]) s (frontWrite s off v) :=
    by
  unfold frontWrite
  repeat' (first
    | with_reducible apply Keeps.refl
    | with_reducible assumption
    | ((with_reducible apply Keeps.step (State.modFront_keeps ..)); focus exact rfl)
    | ((with_reducible apply Keeps.step (frontSeatWrite_keeps ..)); focus exact rfl)
    | ((with_reducible apply Keeps.step (nodePut_keeps ..)); focus exact rfl)
    | ((with_reducible apply Keeps.step (refuse_keeps ..)); focus exact rfl)
    | ((with_reducible apply Keeps.step (rehashStep_keeps ..)); focus exact rfl)
    | ((with_reducible apply Keeps.step (rehashCmd_keeps ..)); focus exact rfl)
    | ((with_reducible apply Keeps.step (swapCmd_keeps ..)); focus exact rfl)
    | with_reducible apply Keeps.ite
    | with_reducible apply Keeps.ite_fst
    | with_reducible refine Keeps.foldl _ (fun _ _ => ?_) ?_
    | extract_lets
    | split
    | dsimp only)

end Sys2Proof.Machine
end

