-- ==== Sys2Proof/Laws/FrameRelay.lean ====
section
/-! SUPPORT. Frames of Machine/Relay: for each operation, the parts of the state it may change. -/

namespace Sys2Proof.Machine

theorem State.modRelay_keeps (s : State) (f : Relay → Relay) : Keeps (only [.relay]) s (State.modRelay s f) := by
  unfold State.modRelay
  repeat' (first
    | with_reducible apply Keeps.refl
    | with_reducible assumption
    | with_reducible apply Keeps.ite
    | with_reducible apply Keeps.ite_fst
    | with_reducible refine Keeps.foldl _ (fun _ _ => ?_) ?_
    | extract_lets
    | split
    | dsimp only
    | ((with_reducible apply Keeps.upd) <;> first | exact .inl rfl | exact .inr rfl | skip))

theorem want_keeps (s : State) (w : RWant) : Keeps (only [.relay]) s (want s w) := by
  unfold want
  repeat' (first
    | with_reducible apply Keeps.refl
    | with_reducible assumption
    | ((with_reducible apply Keeps.step (State.modRelay_keeps ..)); focus exact rfl)
    | with_reducible apply Keeps.ite
    | with_reducible apply Keeps.ite_fst
    | with_reducible refine Keeps.foldl _ (fun _ _ => ?_) ?_
    | extract_lets
    | split
    | dsimp only)

theorem takeFlits_keeps (s : State) (sd : Side) (n : Nat) : Keeps (only [.relay]) s (takeFlits s sd n) := by
  unfold takeFlits
  repeat' (first
    | with_reducible apply Keeps.refl
    | with_reducible assumption
    | ((with_reducible apply Keeps.step (State.modHop_keeps ..)); focus exact rfl)
    | with_reducible apply Keeps.ite
    | with_reducible apply Keeps.ite_fst
    | with_reducible refine Keeps.foldl _ (fun _ _ => ?_) ?_
    | extract_lets
    | split
    | dsimp only)

theorem needBwk_keeps (s : State) : Keeps (only [.relay]) s (needBwk s).1 := by
  unfold needBwk
  repeat' (first
    | with_reducible apply Keeps.refl
    | with_reducible assumption
    | ((with_reducible apply Keeps.step (State.modRelay_keeps ..)); focus exact rfl)
    | with_reducible apply Keeps.ite
    | with_reducible apply Keeps.ite_fst
    | with_reducible refine Keeps.foldl _ (fun _ _ => ?_) ?_
    | extract_lets
    | split
    | dsimp only)

theorem sendHello_keeps (s : State) (again : Bool) : Keeps (only [.entropy, .relay]) s (sendHello s again) := by
  unfold sendHello
  repeat' (first
    | with_reducible apply Keeps.refl
    | with_reducible assumption
    | ((with_reducible apply Keeps.step (needBwk_keeps ..)); focus exact rfl)
    | ((with_reducible apply OptKeeps2.step (tryDraw_keeps ..)); focus exact rfl)
    | ((with_reducible apply Keeps.step (want_keeps ..)); focus exact rfl)
    | ((with_reducible apply Keeps.step (State.modHop_keeps ..)); focus exact rfl)
    | ((with_reducible apply Keeps.step (hopSend_keeps ..)); focus exact rfl)
    | with_reducible refine Keeps.fst (by assumption) ?_
    | with_reducible refine OptKeeps2.get ?_ (by assumption)
    | with_reducible apply OptKeeps2.some
    | with_reducible apply OptKeeps2.map
    | with_reducible apply Keeps.ite
    | with_reducible apply Keeps.ite_fst
    | with_reducible refine Keeps.foldl _ (fun _ _ => ?_) ?_
    | extract_lets
    | split
    | dsimp only)

theorem authFails_keeps (s : State) (sd : Side) : Keeps (only [.relay]) s (authFails s sd) := by
  unfold authFails
  repeat' (first
    | with_reducible apply Keeps.refl
    | with_reducible assumption
    | ((with_reducible apply Keeps.step (State.modHop_keeps ..)); focus exact rfl)
    | ((with_reducible apply Keeps.step (State.modRelay_keeps ..)); focus exact rfl)
    | with_reducible apply Keeps.ite
    | with_reducible apply Keeps.ite_fst
    | with_reducible refine Keeps.foldl _ (fun _ _ => ?_) ?_
    | extract_lets
    | split
    | dsimp only)

theorem sendProbe_keeps (s : State) (sd : Side) : Keeps (only [.relay]) s (sendProbe s sd) := by
  unfold sendProbe
  repeat' (first
    | with_reducible apply Keeps.refl
    | with_reducible assumption
    | ((with_reducible apply Keeps.step (hopSend_keeps ..)); focus exact rfl)
    | ((with_reducible apply Keeps.step (State.modRelay_keeps ..)); focus exact rfl)
    | with_reducible apply Keeps.ite
    | with_reducible apply Keeps.ite_fst
    | with_reducible refine Keeps.foldl _ (fun _ _ => ?_) ?_
    | extract_lets
    | split
    | dsimp only)

theorem noteOwn_keeps (s : State) : Keeps (only [.relay]) s (noteOwn s) := by
  unfold noteOwn
  repeat' (first
    | with_reducible apply Keeps.refl
    | with_reducible assumption
    | ((with_reducible apply Keeps.step (State.modRelay_keeps ..)); focus exact rfl)
    | with_reducible apply Keeps.ite
    | with_reducible apply Keeps.ite_fst
    | with_reducible refine Keeps.foldl _ (fun _ _ => ?_) ?_
    | extract_lets
    | split
    | dsimp only)

theorem tellLeader_keeps (s : State) (sd : Side) : Keeps (only [.relay]) s (tellLeader s sd) := by
  unfold tellLeader
  repeat' (first
    | with_reducible apply Keeps.refl
    | with_reducible assumption
    | ((with_reducible apply Keeps.step (hopSend_keeps ..)); focus exact rfl)
    | with_reducible apply Keeps.ite
    | with_reducible apply Keeps.ite_fst
    | with_reducible refine Keeps.foldl _ (fun _ _ => ?_) ?_
    | extract_lets
    | split
    | dsimp only)

theorem keyHop_keeps (s : State) (sd : Side) (keys : Bytes) (ph : Bool) : Keeps (only [.relay]) s (keyHop s sd keys ph) := by
  unfold keyHop
  repeat' (first
    | with_reducible apply Keeps.refl
    | with_reducible assumption
    | ((with_reducible apply Keeps.step (State.modHop_keeps ..)); focus exact rfl)
    | ((with_reducible apply Keeps.step (hopSend_keeps ..)); focus exact rfl)
    | ((with_reducible apply Keeps.step (sendProbe_keeps ..)); focus exact rfl)
    | with_reducible apply Keeps.ite
    | with_reducible apply Keeps.ite_fst
    | with_reducible refine Keeps.foldl _ (fun _ _ => ?_) ?_
    | extract_lets
    | split
    | dsimp only)

theorem keepHello_keeps (s : State) (x : Bytes) (ek : Bytes) (ph : Bool) : Keeps (only [.relay]) s (keepHello s x ek ph) := by
  unfold keepHello
  repeat' (first
    | with_reducible apply Keeps.refl
    | with_reducible assumption
    | ((with_reducible apply Keeps.step (State.modRelay_keeps ..)); focus exact rfl)
    | with_reducible apply Keeps.ite
    | with_reducible apply Keeps.ite_fst
    | with_reducible refine Keeps.foldl _ (fun _ _ => ?_) ?_
    | extract_lets
    | split
    | dsimp only)

theorem takeHello_keeps (s : State) (x : Bytes) (ek : Bytes) (ph : Bool) : Keeps (only [.entropy, .relay]) s (takeHello s x ek ph) := by
  unfold takeHello
  repeat' (first
    | with_reducible apply Keeps.refl
    | with_reducible assumption
    | ((with_reducible apply Keeps.step (keepHello_keeps ..)); focus exact rfl)
    | ((with_reducible apply Keeps.step (needBwk_keeps ..)); focus exact rfl)
    | ((with_reducible apply OptKeeps2.step (tryDraw_keeps ..)); focus exact rfl)
    | ((with_reducible apply Keeps.step (want_keeps ..)); focus exact rfl)
    | ((with_reducible apply Keeps.step (State.modHop_keeps ..)); focus exact rfl)
    | ((with_reducible apply Keeps.step (hopSend_keeps ..)); focus exact rfl)
    | with_reducible refine Keeps.fst (by assumption) ?_
    | with_reducible refine OptKeeps2.get ?_ (by assumption)
    | with_reducible apply OptKeeps2.some
    | with_reducible apply OptKeeps2.map
    | with_reducible apply Keeps.ite
    | with_reducible apply Keeps.ite_fst
    | with_reducible refine Keeps.foldl _ (fun _ _ => ?_) ?_
    | extract_lets
    | split
    | dsimp only)

theorem arrive_keeps {ch : Part → Bool} {s0 s : State} {sd : Side} {n : Nat} {f : State → State} (hm : within (only [.relay]) ch = true) (h0 : Keeps
    ch s0 s) (hf : ∀ t, Keeps ch t (f t)) : Keeps ch s0 (arrive s sd n f) := by
  unfold arrive
  repeat' (first
    | with_reducible apply Keeps.refl
    | with_reducible assumption
    | ((with_reducible apply Keeps.step (takeFlits_keeps ..)); focus exact (within_trans rfl hm))
    | with_reducible exact hf _
    | with_reducible exact hf _ _
    | with_reducible exact hf _ _ _
    | with_reducible refine Keeps.trans ?_ (hf _)
    | with_reducible refine Keeps.trans ?_ (hf _ _)
    | with_reducible refine Keeps.trans ?_ (hf _ _ _)
    | with_reducible apply Keeps.ite
    | with_reducible apply Keeps.ite_fst
    | with_reducible refine Keeps.foldl _ (fun _ _ => ?_) ?_
    | extract_lets
    | split
    | dsimp only)

theorem execHello_keeps (x25519 : Bytes) (mlkem : Bytes) (phase : Bool) (s : State) : OutKeeps (allBut [.pending, .params, .journal, .offers,
    .nextJob, .window, .time, .cust]) s (execHello x25519 mlkem phase s) := by
  unfold execHello
  repeat' (first
    | with_reducible apply Keeps.refl
    | with_reducible assumption
    | with_reducible exact OutKeeps.fault
    | with_reducible exact OutKeeps.refused
    | with_reducible apply OutKeeps.ok
    | with_reducible apply OutKeeps.next
    | with_reducible apply OutKeeps.ite
    | ((with_reducible apply Keeps.step (fin_keeps ..)); focus exact rfl)
    | ((with_reducible apply arrive_keeps); focus exact rfl)
    | ((with_reducible apply Keeps.step (takeHello_keeps ..)); focus exact rfl)
    | with_reducible intro _
    | with_reducible apply Keeps.self
    | with_reducible apply Keeps.ite
    | with_reducible apply Keeps.ite_fst
    | with_reducible refine Keeps.foldl _ (fun _ _ => ?_) ?_
    | extract_lets
    | split
    | dsimp only)

theorem setRole_keeps (s : State) : Keeps (only [.alarms, .time, .relay, .prompts]) s (setRole s) := by
  unfold setRole
  repeat' (first
    | with_reducible apply Keeps.refl
    | with_reducible assumption
    | ((with_reducible apply Keeps.step (vector_keeps ..)); focus exact rfl)
    | ((with_reducible apply Keeps.step (alarmC_keeps ..)); focus exact rfl)
    | with_reducible apply Keeps.ite
    | with_reducible apply Keeps.ite_fst
    | with_reducible refine Keeps.foldl _ (fun _ _ => ?_) ?_
    | extract_lets
    | split
    | dsimp only
    | ((with_reducible apply Keeps.upd) <;> first | exact .inl rfl | exact .inr rfl | skip))

theorem timeSend_keeps (s : State) : Keeps (only [.time, .relay]) s (timeSend s) := by
  unfold timeSend
  repeat' (first
    | with_reducible apply Keeps.refl
    | with_reducible assumption
    | ((with_reducible apply Keeps.step (hopSend_keeps ..)); focus exact rfl)
    | with_reducible apply Keeps.ite
    | with_reducible apply Keeps.ite_fst
    | with_reducible refine Keeps.foldl _ (fun _ _ => ?_) ?_
    | extract_lets
    | split
    | dsimp only
    | ((with_reducible apply Keeps.upd) <;> first | exact .inl rfl | exact .inr rfl | skip))

theorem execTimeSend_keeps (s : State) : OutKeeps (allBut [.pending, .params, .journal, .offers, .nextJob, .window, .cust]) s (execTimeSend s) := by
  unfold execTimeSend
  repeat' (first
    | with_reducible apply Keeps.refl
    | with_reducible assumption
    | with_reducible exact OutKeeps.fault
    | with_reducible exact OutKeeps.refused
    | with_reducible apply OutKeeps.ok
    | with_reducible apply OutKeeps.next
    | with_reducible apply OutKeeps.ite
    | ((with_reducible apply Keeps.step (fin_keeps ..)); focus exact rfl)
    | ((with_reducible apply Keeps.step (timeSend_keeps ..)); focus exact rfl)
    | with_reducible apply Keeps.ite
    | with_reducible apply Keeps.ite_fst
    | with_reducible refine Keeps.foldl _ (fun _ _ => ?_) ?_
    | extract_lets
    | split
    | dsimp only)

theorem steer_keeps (s : State) (value : Stamp) : Keeps (only [.time, .relay, .freeCount]) s (steer s value) := by
  unfold steer
  repeat' (first
    | with_reducible apply Keeps.refl
    | with_reducible assumption
    | ((with_reducible apply Keeps.step (State.modRelay_keeps ..)); focus exact rfl)
    | ((with_reducible apply Keeps.step (applyStep_keeps ..)); focus exact rfl)
    | ((with_reducible apply Keeps.step (takeFree_keeps ..)); focus exact rfl)
    | with_reducible refine Keeps.fst (by assumption) ?_
    | with_reducible apply Keeps.ite
    | with_reducible apply Keeps.ite_fst
    | with_reducible refine Keeps.foldl _ (fun _ _ => ?_) ?_
    | extract_lets
    | split
    | dsimp only
    | ((with_reducible apply Keeps.upd) <;> first | exact .inl rfl | exact .inr rfl | skip))

theorem timeLoss_keeps (s : State) : Keeps (only [.relay]) s (timeLoss s) := by
  unfold timeLoss
  repeat' (first
    | with_reducible apply Keeps.refl
    | with_reducible assumption
    | ((with_reducible apply Keeps.step (State.modRelay_keeps ..)); focus exact rfl)
    | with_reducible apply Keeps.ite
    | with_reducible apply Keeps.ite_fst
    | with_reducible refine Keeps.foldl _ (fun _ _ => ?_) ?_
    | extract_lets
    | split
    | dsimp only)

theorem execTimeLoss_keeps (s : State) : OutKeeps (only [.relay]) s (execTimeLoss s) := by
  unfold execTimeLoss
  repeat' (first
    | with_reducible apply Keeps.refl
    | with_reducible assumption
    | with_reducible exact OutKeeps.fault
    | with_reducible exact OutKeeps.refused
    | with_reducible apply OutKeeps.ok
    | with_reducible apply OutKeeps.next
    | with_reducible apply OutKeeps.ite
    | ((with_reducible apply Keeps.step (timeLoss_keeps ..)); focus exact rfl)
    | with_reducible apply Keeps.ite
    | with_reducible apply Keeps.ite_fst
    | with_reducible refine Keeps.foldl _ (fun _ _ => ?_) ?_
    | extract_lets
    | split
    | dsimp only)

theorem loseAwayOf_keeps (p : Nat → Bool) (s : State) (j : Job) : Keeps (only [.jobs, .mem, .buffers, .engines, .keys, .relay]) s (loseAwayOf p s j)
    := by
  unfold loseAwayOf
  repeat' (first
    | with_reducible apply Keeps.refl
    | with_reducible assumption
    | ((with_reducible apply Keeps.step (sendTo_keeps ..)); focus exact rfl)
    | ((with_reducible apply Keeps.step (stop_keeps ..)); focus exact rfl)
    | with_reducible apply Keeps.ite
    | with_reducible apply Keeps.ite_fst
    | with_reducible refine Keeps.foldl _ (fun _ _ => ?_) ?_
    | extract_lets
    | split
    | dsimp only)

theorem loseAway_keeps (s : State) (p : Nat → Bool) : Keeps (only [.jobs, .mem, .buffers, .engines, .keys, .relay]) s (loseAway s p) := by
  unfold loseAway
  repeat' (first
    | with_reducible apply Keeps.refl
    | with_reducible assumption
    | ((with_reducible apply Keeps.step (loseAwayOf_keeps ..)); focus exact rfl)
    | with_reducible apply Keeps.ite
    | with_reducible apply Keeps.ite_fst
    | with_reducible refine Keeps.foldl _ (fun _ _ => ?_) ?_
    | extract_lets
    | split
    | dsimp only)

theorem dropRelayed_keeps (s : State) (j : Job) : Keeps (only [.jobs, .engines]) s (dropRelayed s j) := by
  unfold dropRelayed
  repeat' (first
    | with_reducible apply Keeps.refl
    | with_reducible assumption
    | ((with_reducible apply Keeps.step (State.modJob_keeps ..)); focus exact rfl)
    | ((with_reducible apply Keeps.step (State.dropJob_keeps ..)); focus exact rfl)
    | ((with_reducible apply Keeps.step (engineLeave_keeps ..)); focus exact rfl)
    | with_reducible apply Keeps.ite
    | with_reducible apply Keeps.ite_fst
    | with_reducible refine Keeps.foldl _ (fun _ _ => ?_) ?_
    | extract_lets
    | split
    | dsimp only)

theorem dropOriginOf_keeps (p : Nat → Nat → Bool) (s : State) (j : Job) : Keeps (only [.jobs, .engines]) s (dropOriginOf p s j) := by
  unfold dropOriginOf
  repeat' (first
    | with_reducible apply Keeps.refl
    | with_reducible assumption
    | ((with_reducible apply Keeps.step (dropRelayed_keeps ..)); focus exact rfl)
    | with_reducible apply Keeps.ite
    | with_reducible apply Keeps.ite_fst
    | with_reducible refine Keeps.foldl _ (fun _ _ => ?_) ?_
    | extract_lets
    | split
    | dsimp only)

theorem dropOrigin_keeps (s : State) (p : Nat → Nat → Bool) : Keeps (only [.jobs, .engines]) s (dropOrigin s p) := by
  unfold dropOrigin
  repeat' (first
    | with_reducible apply Keeps.refl
    | with_reducible assumption
    | ((with_reducible apply Keeps.step (dropOriginOf_keeps ..)); focus exact rfl)
    | with_reducible apply Keeps.ite
    | with_reducible apply Keeps.ite_fst
    | with_reducible refine Keeps.foldl _ (fun _ _ => ?_) ?_
    | extract_lets
    | split
    | dsimp only)

theorem newMap_keeps (s : State) (es : List MapEntry) : Keeps (only [.alarms, .jobs, .mem, .buffers, .engines, .keys, .time, .relay, .prompts]) s
    (newMap s es) := by
  unfold newMap
  repeat' (first
    | with_reducible apply Keeps.refl
    | with_reducible assumption
    | ((with_reducible apply Keeps.step (State.modRelay_keeps ..)); focus exact rfl)
    | ((with_reducible apply Keeps.step (dropOrigin_keeps ..)); focus exact rfl)
    | ((with_reducible apply Keeps.step (loseAway_keeps ..)); focus exact rfl)
    | ((with_reducible apply Keeps.step (mailBreak_keeps ..)); focus exact rfl)
    | ((with_reducible apply Keeps.step (vector_keeps ..)); focus exact rfl)
    | ((with_reducible apply Keeps.step (setRole_keeps ..)); focus exact rfl)
    | with_reducible apply Keeps.ite
    | with_reducible apply Keeps.ite_fst
    | with_reducible refine Keeps.foldl _ (fun _ _ => ?_) ?_
    | extract_lets
    | split
    | dsimp only)

theorem sendMap_keeps (s : State) (es : List MapEntry) : Keeps (only [.alarms, .jobs, .mem, .buffers, .engines, .keys, .time, .relay, .prompts]) s
    (sendMap s es) := by
  unfold sendMap
  repeat' (first
    | with_reducible apply Keeps.refl
    | with_reducible assumption
    | ((with_reducible apply Keeps.step (noteOwn_keeps ..)); focus exact rfl)
    | ((with_reducible apply Keeps.step (newMap_keeps ..)); focus exact rfl)
    | ((with_reducible apply Keeps.step (sendBoth_keeps ..)); focus exact rfl)
    | ((with_reducible apply Keeps.step (State.modRelay_keeps ..)); focus exact rfl)
    | with_reducible apply Keeps.ite
    | with_reducible apply Keeps.ite_fst
    | with_reducible refine Keeps.foldl _ (fun _ _ => ?_) ?_
    | extract_lets
    | split
    | dsimp only)

theorem renewMap_keeps (s : State) : Keeps (only [.alarms, .jobs, .mem, .buffers, .engines, .keys, .time, .relay, .prompts]) s (renewMap s) := by
  unfold renewMap
  repeat' (first
    | with_reducible apply Keeps.refl
    | with_reducible assumption
    | ((with_reducible apply Keeps.step (noteOwn_keeps ..)); focus exact rfl)
    | ((with_reducible apply Keeps.step (sendMap_keeps ..)); focus exact rfl)
    | with_reducible apply Keeps.ite
    | with_reducible apply Keeps.ite_fst
    | with_reducible refine Keeps.foldl _ (fun _ _ => ?_) ?_
    | extract_lets
    | split
    | dsimp only)

theorem stateHops_keeps (s : State) (sd : Side) : Keeps (only [.alarms, .jobs, .mem, .buffers, .engines, .keys, .time, .relay, .prompts]) s (stateHops
    s sd) := by
  unfold stateHops
  repeat' (first
    | with_reducible apply Keeps.refl
    | with_reducible assumption
    | ((with_reducible apply Keeps.step (renewMap_keeps ..)); focus exact rfl)
    | ((with_reducible apply Keeps.step (tellLeader_keeps ..)); focus exact rfl)
    | with_reducible apply Keeps.ite
    | with_reducible apply Keeps.ite_fst
    | with_reducible refine Keeps.foldl _ (fun _ _ => ?_) ?_
    | extract_lets
    | split
    | dsimp only)

theorem keyedHop_keeps (s : State) (sd : Side) (keys : Bytes) (ph : Bool) : Keeps (only [.alarms, .jobs, .mem, .buffers, .engines, .keys, .time,
    .relay, .prompts]) s (keyedHop s sd keys ph) := by
  unfold keyedHop
  repeat' (first
    | with_reducible apply Keeps.refl
    | with_reducible assumption
    | ((with_reducible apply Keeps.step (keyHop_keeps ..)); focus exact rfl)
    | ((with_reducible apply Keeps.step (stateHops_keeps ..)); focus exact rfl)
    | with_reducible apply Keeps.ite
    | with_reducible apply Keeps.ite_fst
    | with_reducible refine Keeps.foldl _ (fun _ _ => ?_) ?_
    | extract_lets
    | split
    | dsimp only)

theorem takeReply_keeps (s : State) (x : Bytes) (ct : Bytes) (w : Bytes) : Keeps (only [.alarms, .jobs, .mem, .buffers, .engines, .keys, .time,
    .relay, .prompts]) s (takeReply s x ct w) := by
  unfold takeReply
  repeat' (first
    | with_reducible apply Keeps.refl
    | with_reducible assumption
    | ((with_reducible apply Keeps.step (authFails_keeps ..)); focus exact rfl)
    | ((with_reducible apply Keeps.step (keyedHop_keeps ..)); focus exact rfl)
    | ((with_reducible apply Keeps.step (hopSend_keeps ..)); focus exact rfl)
    | with_reducible apply Keeps.ite
    | with_reducible apply Keeps.ite_fst
    | with_reducible refine Keeps.foldl _ (fun _ _ => ?_) ?_
    | extract_lets
    | split
    | dsimp only)

theorem execReply_keeps (x25519 : Bytes) (ciphertext : Bytes) (confirmW : Bytes) (s : State) : OutKeeps (allBut [.pending, .params, .journal, .offers,
    .nextJob, .window, .cust]) s (execReply x25519 ciphertext confirmW s) := by
  unfold execReply
  repeat' (first
    | with_reducible apply Keeps.refl
    | with_reducible assumption
    | with_reducible exact OutKeeps.fault
    | with_reducible exact OutKeeps.refused
    | with_reducible apply OutKeeps.ok
    | with_reducible apply OutKeeps.next
    | with_reducible apply OutKeeps.ite
    | ((with_reducible apply Keeps.step (carryAll_keeps ..)); focus exact rfl)
    | ((with_reducible apply arrive_keeps); focus exact rfl)
    | ((with_reducible apply Keeps.step (takeReply_keeps ..)); focus exact rfl)
    | with_reducible intro _
    | with_reducible apply Keeps.self
    | with_reducible apply Keeps.ite
    | with_reducible apply Keeps.ite_fst
    | with_reducible refine Keeps.foldl _ (fun _ _ => ?_) ?_
    | extract_lets
    | split
    | dsimp only)

theorem actLeader_keeps (s : State) : Keeps (only [.alarms, .jobs, .mem, .buffers, .engines, .keys, .time, .relay, .prompts]) s (actLeader s) := by
  unfold actLeader
  repeat' (first
    | with_reducible apply Keeps.refl
    | with_reducible assumption
    | ((with_reducible apply Keeps.step (sendMap_keeps ..)); focus exact rfl)
    | with_reducible apply Keeps.ite
    | with_reducible apply Keeps.ite_fst
    | with_reducible refine Keeps.foldl _ (fun _ _ => ?_) ?_
    | extract_lets
    | split
    | dsimp only)

theorem loseByHop_keeps (m : Nat) (s : State) (j : Job) : Keeps (only [.jobs, .mem, .buffers, .engines, .keys, .relay]) s (loseByHop m s j) := by
  unfold loseByHop
  repeat' (first
    | with_reducible apply Keeps.refl
    | with_reducible assumption
    | ((with_reducible apply Keeps.step (sendTo_keeps ..)); focus exact rfl)
    | ((with_reducible apply Keeps.step (stop_keeps ..)); focus exact rfl)
    | with_reducible apply Keeps.ite
    | with_reducible apply Keeps.ite_fst
    | with_reducible refine Keeps.foldl _ (fun _ _ => ?_) ?_
    | extract_lets
    | split
    | dsimp only)

theorem markBroken_keeps (s : State) (p : Nat) : Keeps (only [.relay]) s (markBroken s p) := by
  unfold markBroken
  repeat' (first
    | with_reducible apply Keeps.refl
    | with_reducible assumption
    | ((with_reducible apply Keeps.step (State.modRelay_keeps ..)); focus exact rfl)
    | with_reducible apply Keeps.ite
    | with_reducible apply Keeps.ite_fst
    | with_reducible refine Keeps.foldl _ (fun _ _ => ?_) ?_
    | extract_lets
    | split
    | dsimp only)

theorem onBreak_keeps (s : State) (p : Nat) : Keeps (only [.alarms, .jobs, .mem, .buffers, .engines, .keys, .time, .relay, .prompts]) s (onBreak s p)
    := by
  unfold onBreak
  repeat' (first
    | with_reducible apply Keeps.refl
    | with_reducible assumption
    | ((with_reducible apply Keeps.step (State.modRelay_keeps ..)); focus exact rfl)
    | ((with_reducible apply Keeps.step (loseByHop_keeps ..)); focus exact rfl)
    | ((with_reducible apply Keeps.step (mailEnd_keeps ..)); focus exact rfl)
    | ((with_reducible apply Keeps.step (sendMap_keeps ..)); focus exact rfl)
    | ((with_reducible apply Keeps.step (markBroken_keeps ..)); focus exact rfl)
    | ((with_reducible apply Keeps.step (setRole_keeps ..)); focus exact rfl)
    | ((with_reducible apply Keeps.step (dropOrigin_keeps ..)); focus exact rfl)
    | ((with_reducible apply Keeps.step (loseAway_keeps ..)); focus exact rfl)
    | ((with_reducible apply Keeps.step (actLeader_keeps ..)); focus exact rfl)
    | with_reducible apply Keeps.ite
    | with_reducible apply Keeps.ite_fst
    | with_reducible refine Keeps.foldl _ (fun _ _ => ?_) ?_
    | extract_lets
    | split
    | dsimp only)

theorem breakHop_keeps (s : State) (sd : Side) : Keeps (only [.alarms, .jobs, .mem, .buffers, .engines, .keys, .time, .relay, .prompts]) s (breakHop s
    sd) := by
  unfold breakHop
  repeat' (first
    | with_reducible apply Keeps.refl
    | with_reducible assumption
    | ((with_reducible apply Keeps.step (State.modHop_keeps ..)); focus exact rfl)
    | ((with_reducible apply Keeps.step (unkeyHop_keeps ..)); focus exact rfl)
    | ((with_reducible apply Keeps.step (State.modRelay_keeps ..)); focus exact rfl)
    | ((with_reducible apply Keeps.step (onBreak_keeps ..)); focus exact rfl)
    | ((with_reducible apply Keeps.step (hopSend_keeps ..)); focus exact rfl)
    | with_reducible apply Keeps.ite
    | with_reducible apply Keeps.ite_fst
    | with_reducible refine Keeps.foldl _ (fun _ _ => ?_) ?_
    | extract_lets
    | split
    | dsimp only)

theorem linkFall_keeps (s : State) (sd : Side) : Keeps (only [.alarms, .jobs, .mem, .buffers, .engines, .keys, .time, .relay, .prompts]) s (linkFall s
    sd) := by
  unfold linkFall
  repeat' (first
    | with_reducible apply Keeps.refl
    | with_reducible assumption
    | ((with_reducible apply Keeps.step (State.modHop_keeps ..)); focus exact rfl)
    | ((with_reducible apply Keeps.step (breakHop_keeps ..)); focus exact rfl)
    | with_reducible apply Keeps.ite
    | with_reducible apply Keeps.ite_fst
    | with_reducible refine Keeps.foldl _ (fun _ _ => ?_) ?_
    | extract_lets
    | split
    | dsimp only)

theorem execHopBreak_keeps (side : HopLoss) (s : State) : OutKeeps (allBut [.pending, .params, .journal, .offers, .nextJob, .window, .cust]) s
    (execHopBreak side s) := by
  unfold execHopBreak
  repeat' (first
    | with_reducible apply Keeps.refl
    | with_reducible assumption
    | with_reducible exact OutKeeps.fault
    | with_reducible exact OutKeeps.refused
    | with_reducible apply OutKeeps.ok
    | with_reducible apply OutKeeps.next
    | with_reducible apply OutKeeps.ite
    | ((with_reducible apply Keeps.step (carryAll_keeps ..)); focus exact rfl)
    | ((with_reducible apply whenDo_keeps); focus exact rfl)
    | ((with_reducible apply Keeps.step (linkFall_keeps ..)); focus exact rfl)
    | ((with_reducible apply Keeps.step (breakHop_keeps ..)); focus exact rfl)
    | with_reducible intro _
    | with_reducible apply Keeps.self
    | with_reducible apply Keeps.ite
    | with_reducible apply Keeps.ite_fst
    | with_reducible refine Keeps.foldl _ (fun _ _ => ?_) ?_
    | extract_lets
    | split
    | dsimp only)

theorem execHopSilence_keeps (side : Side) (s : State) : OutKeeps (allBut [.pending, .params, .journal, .offers, .nextJob, .window, .cust]) s
    (execHopSilence side s) := by
  unfold execHopSilence
  repeat' (first
    | with_reducible apply Keeps.refl
    | with_reducible assumption
    | with_reducible exact OutKeeps.fault
    | with_reducible exact OutKeeps.refused
    | with_reducible apply OutKeeps.ok
    | with_reducible apply OutKeeps.next
    | with_reducible apply OutKeeps.ite
    | ((with_reducible apply Keeps.step (carryAll_keeps ..)); focus exact rfl)
    | ((with_reducible apply whenDo_keeps); focus exact rfl)
    | ((with_reducible apply Keeps.step (breakHop_keeps ..)); focus exact rfl)
    | with_reducible intro _
    | with_reducible apply Keeps.self
    | with_reducible apply Keeps.ite
    | with_reducible apply Keeps.ite_fst
    | with_reducible refine Keeps.foldl _ (fun _ _ => ?_) ?_
    | extract_lets
    | split
    | dsimp only)

theorem accept_keeps (s : State) (h : Hop) : Keeps (only [.alarms, .jobs, .mem, .buffers, .engines, .keys, .time, .relay, .prompts]) s (accept s h).1
    := by
  unfold accept
  repeat' (first
    | with_reducible apply Keeps.refl
    | with_reducible assumption
    | ((with_reducible apply arrive_keeps); focus exact rfl)
    | ((with_reducible apply Keeps.step (State.modRelay_keeps ..)); focus exact rfl)
    | ((with_reducible apply Keeps.step (breakHop_keeps ..)); focus exact rfl)
    | ((with_reducible apply Keeps.step (State.modHop_keeps ..)); focus exact rfl)
    | with_reducible intro _
    | with_reducible apply Keeps.self
    | with_reducible apply Keeps.ite
    | with_reducible apply Keeps.ite_fst
    | with_reducible refine Keeps.foldl _ (fun _ _ => ?_) ?_
    | extract_lets
    | split
    | dsimp only)

theorem forward_keeps (s : State) (h : Hop) (msg : RMsg) : Keeps (only [.relay]) s (forward s h msg) := by
  unfold forward
  repeat' (first
    | with_reducible apply Keeps.refl
    | with_reducible assumption
    | ((with_reducible apply Keeps.step (hopSend_keeps ..)); focus exact rfl)
    | with_reducible apply Keeps.ite
    | with_reducible apply Keeps.ite_fst
    | with_reducible refine Keeps.foldl _ (fun _ _ => ?_) ?_
    | extract_lets
    | split
    | dsimp only)

theorem receive_keeps {ch : Part → Bool} {s0 s : State} {h : Hop} {msg : RMsg} {f : State → State} (hm : within (only [.alarms, .jobs, .mem, .buffers,
    .engines, .keys, .time, .relay, .prompts]) ch = true) (h0 : Keeps ch s0 s) (hf : ∀ t, Keeps ch t (f t)) : Keeps ch s0 (receive s h msg f) := by
  unfold receive
  repeat' (first
    | with_reducible apply Keeps.refl
    | with_reducible assumption
    | ((with_reducible apply Keeps.step (accept_keeps ..)); focus exact (within_trans rfl hm))
    | ((with_reducible apply Keeps.step (forward_keeps ..)); focus exact (within_trans rfl hm))
    | with_reducible refine Keeps.fst (by assumption) ?_
    | with_reducible exact hf _
    | with_reducible exact hf _ _
    | with_reducible exact hf _ _ _
    | with_reducible refine Keeps.trans ?_ (hf _)
    | with_reducible refine Keeps.trans ?_ (hf _ _)
    | with_reducible refine Keeps.trans ?_ (hf _ _ _)
    | with_reducible apply Keeps.ite
    | with_reducible apply Keeps.ite_fst
    | with_reducible refine Keeps.foldl _ (fun _ _ => ?_) ?_
    | extract_lets
    | split
    | dsimp only)

theorem receiveHere_keeps {ch : Part → Bool} {s0 s : State} {h : Hop} {f : State → State} (hm : within (only [.alarms, .jobs, .mem, .buffers,
    .engines, .keys, .time, .relay, .prompts]) ch = true) (h0 : Keeps ch s0 s) (hf : ∀ t, Keeps ch t (f t)) : Keeps ch s0 (receiveHere s h f) := by
  unfold receiveHere
  repeat' (first
    | with_reducible apply Keeps.refl
    | with_reducible assumption
    | ((with_reducible apply Keeps.step (accept_keeps ..)); focus exact (within_trans rfl hm))
    | with_reducible refine Keeps.fst (by assumption) ?_
    | with_reducible exact hf _
    | with_reducible exact hf _ _
    | with_reducible exact hf _ _ _
    | with_reducible refine Keeps.trans ?_ (hf _)
    | with_reducible refine Keeps.trans ?_ (hf _ _)
    | with_reducible refine Keeps.trans ?_ (hf _ _ _)
    | with_reducible apply Keeps.ite
    | with_reducible apply Keeps.ite_fst
    | with_reducible refine Keeps.foldl _ (fun _ _ => ?_) ?_
    | extract_lets
    | split
    | dsimp only)

theorem linkRise_keeps (s : State) (sd : Side) : Keeps (only [.alarms, .jobs, .mem, .buffers, .engines, .keys, .time, .relay, .prompts]) s (linkRise s
    sd) := by
  unfold linkRise
  repeat' (first
    | with_reducible apply Keeps.refl
    | with_reducible assumption
    | ((with_reducible apply Keeps.step (breakHop_keeps ..)); focus exact rfl)
    | ((with_reducible apply Keeps.step (State.modHop_keeps ..)); focus exact rfl)
    | with_reducible apply Keeps.ite
    | with_reducible apply Keeps.ite_fst
    | with_reducible refine Keeps.foldl _ (fun _ _ => ?_) ?_
    | extract_lets
    | split
    | dsimp only)

theorem execLinkUp_keeps (side : Side) (s : State) : OutKeeps (allBut [.pending, .params, .journal, .offers, .nextJob, .window, .cust]) s (execLinkUp
    side s) := by
  unfold execLinkUp
  repeat' (first
    | with_reducible apply Keeps.refl
    | with_reducible assumption
    | with_reducible exact OutKeeps.fault
    | with_reducible exact OutKeeps.refused
    | with_reducible apply OutKeeps.ok
    | with_reducible apply OutKeeps.next
    | with_reducible apply OutKeeps.ite
    | ((with_reducible apply Keeps.step (fin_keeps ..)); focus exact rfl)
    | ((with_reducible apply Keeps.step (linkRise_keeps ..)); focus exact rfl)
    | with_reducible apply Keeps.ite
    | with_reducible apply Keeps.ite_fst
    | with_reducible refine Keeps.foldl _ (fun _ _ => ?_) ?_
    | extract_lets
    | split
    | dsimp only)

theorem creditIn_keeps (s : State) (sd : Side) : Keeps (only [.entropy, .relay]) s (creditIn s sd) := by
  unfold creditIn
  repeat' (first
    | with_reducible apply Keeps.refl
    | with_reducible assumption
    | ((with_reducible apply Keeps.step (sendHello_keeps ..)); focus exact rfl)
    | ((with_reducible apply Keeps.step (hopDrain_keeps ..)); focus exact rfl)
    | ((with_reducible apply Keeps.step (State.modHop_keeps ..)); focus exact rfl)
    | with_reducible apply Keeps.ite
    | with_reducible apply Keeps.ite_fst
    | with_reducible refine Keeps.foldl _ (fun _ _ => ?_) ?_
    | extract_lets
    | split
    | dsimp only)

theorem execCreditReturn_keeps (side : Side) (s : State) : OutKeeps (allBut [.pending, .params, .journal, .offers, .nextJob, .window, .time, .cust]) s
    (execCreditReturn side s) := by
  unfold execCreditReturn
  repeat' (first
    | with_reducible apply Keeps.refl
    | with_reducible assumption
    | with_reducible exact OutKeeps.fault
    | with_reducible exact OutKeeps.refused
    | with_reducible apply OutKeeps.ok
    | with_reducible apply OutKeeps.next
    | with_reducible apply OutKeeps.ite
    | ((with_reducible apply Keeps.step (fin_keeps ..)); focus exact rfl)
    | ((with_reducible apply Keeps.step (creditIn_keeps ..)); focus exact rfl)
    | with_reducible apply Keeps.ite
    | with_reducible apply Keeps.ite_fst
    | with_reducible refine Keeps.foldl _ (fun _ _ => ?_) ?_
    | extract_lets
    | split
    | dsimp only)

theorem rekeyDue_keeps (s : State) (sd : Side) : Keeps (only [.entropy, .relay]) s (rekeyDue s sd) := by
  unfold rekeyDue
  repeat' (first
    | with_reducible apply Keeps.refl
    | with_reducible assumption
    | ((with_reducible apply Keeps.step (sendHello_keeps ..)); focus exact rfl)
    | with_reducible apply Keeps.ite
    | with_reducible apply Keeps.ite_fst
    | with_reducible refine Keeps.foldl _ (fun _ _ => ?_) ?_
    | extract_lets
    | split
    | dsimp only)

theorem execHopRekeyDue_keeps (side : Side) (s : State) : OutKeeps (allBut [.pending, .params, .journal, .offers, .nextJob, .window, .time, .cust]) s
    (execHopRekeyDue side s) := by
  unfold execHopRekeyDue
  repeat' (first
    | with_reducible apply Keeps.refl
    | with_reducible assumption
    | with_reducible exact OutKeeps.fault
    | with_reducible exact OutKeeps.refused
    | with_reducible apply OutKeeps.ok
    | with_reducible apply OutKeeps.next
    | with_reducible apply OutKeeps.ite
    | ((with_reducible apply Keeps.step (fin_keeps ..)); focus exact rfl)
    | ((with_reducible apply Keeps.step (rekeyDue_keeps ..)); focus exact rfl)
    | with_reducible apply Keeps.ite
    | with_reducible apply Keeps.ite_fst
    | with_reducible refine Keeps.foldl _ (fun _ _ => ?_) ?_
    | extract_lets
    | split
    | dsimp only)

theorem brokenRekey_keeps (s : State) (sd : Side) : Keeps (only [.entropy, .relay]) s (brokenRekey s sd) := by
  unfold brokenRekey
  repeat' (first
    | with_reducible apply Keeps.refl
    | with_reducible assumption
    | ((with_reducible apply Keeps.step (sendHello_keeps ..)); focus exact rfl)
    | ((with_reducible apply Keeps.step (State.modHop_keeps ..)); focus exact rfl)
    | with_reducible apply Keeps.ite
    | with_reducible apply Keeps.ite_fst
    | with_reducible refine Keeps.foldl _ (fun _ _ => ?_) ?_
    | extract_lets
    | split
    | dsimp only)

theorem execBrokenHopRekey_keeps (side : Side) (s : State) : OutKeeps (allBut [.pending, .params, .journal, .offers, .nextJob, .window, .time, .cust])
    s (execBrokenHopRekey side s) := by
  unfold execBrokenHopRekey
  repeat' (first
    | with_reducible apply Keeps.refl
    | with_reducible assumption
    | with_reducible exact OutKeeps.fault
    | with_reducible exact OutKeeps.refused
    | with_reducible apply OutKeeps.ok
    | with_reducible apply OutKeeps.next
    | with_reducible apply OutKeeps.ite
    | ((with_reducible apply Keeps.step (fin_keeps ..)); focus exact rfl)
    | ((with_reducible apply Keeps.step (brokenRekey_keeps ..)); focus exact rfl)
    | with_reducible apply Keeps.ite
    | with_reducible apply Keeps.ite_fst
    | with_reducible refine Keeps.foldl _ (fun _ _ => ?_) ?_
    | extract_lets
    | split
    | dsimp only)

theorem takeConfirm_keeps (s : State) (e : Bytes) : Keeps (only [.alarms, .jobs, .mem, .buffers, .engines, .keys, .time, .relay, .prompts]) s
    (takeConfirm s e) := by
  unfold takeConfirm
  repeat' (first
    | with_reducible apply Keeps.refl
    | with_reducible assumption
    | ((with_reducible apply Keeps.step (authFails_keeps ..)); focus exact rfl)
    | ((with_reducible apply Keeps.step (keyedHop_keeps ..)); focus exact rfl)
    | with_reducible apply Keeps.ite
    | with_reducible apply Keeps.ite_fst
    | with_reducible refine Keeps.foldl _ (fun _ _ => ?_) ?_
    | extract_lets
    | split
    | dsimp only)

theorem execConfirm_keeps (confirmE : Bytes) (s : State) : OutKeeps (allBut [.pending, .params, .journal, .offers, .nextJob, .window, .cust]) s
    (execConfirm confirmE s) := by
  unfold execConfirm
  repeat' (first
    | with_reducible apply Keeps.refl
    | with_reducible assumption
    | with_reducible exact OutKeeps.fault
    | with_reducible exact OutKeeps.refused
    | with_reducible apply OutKeeps.ok
    | with_reducible apply OutKeeps.next
    | with_reducible apply OutKeeps.ite
    | ((with_reducible apply Keeps.step (carryAll_keeps ..)); focus exact rfl)
    | ((with_reducible apply arrive_keeps); focus exact rfl)
    | ((with_reducible apply Keeps.step (takeConfirm_keeps ..)); focus exact rfl)
    | with_reducible intro _
    | with_reducible apply Keeps.self
    | with_reducible apply Keeps.ite
    | with_reducible apply Keeps.ite_fst
    | with_reducible refine Keeps.foldl _ (fun _ _ => ?_) ?_
    | extract_lets
    | split
    | dsimp only)

theorem echoHere_keeps (s : State) (sd : Side) (returned : Bool) (ns : Nat) : Keeps (only [.relay]) s (echoHere s sd returned ns) := by
  unfold echoHere
  repeat' (first
    | with_reducible apply Keeps.refl
    | with_reducible assumption
    | ((with_reducible apply Keeps.step (hopSend_keeps ..)); focus exact rfl)
    | ((with_reducible apply Keeps.step (State.modHop_keeps ..)); focus exact rfl)
    | with_reducible apply Keeps.ite
    | with_reducible apply Keeps.ite_fst
    | with_reducible refine Keeps.foldl _ (fun _ _ => ?_) ?_
    | extract_lets
    | split
    | dsimp only)

theorem execEcho_keeps (side : Side) (returned : EchoRx) (roundTripNs : Nat) (s : State) : OutKeeps (allBut [.pending, .params, .journal, .offers,
    .nextJob, .window, .cust]) s (execEcho side returned roundTripNs s) := by
  unfold execEcho
  repeat' (first
    | with_reducible apply Keeps.refl
    | with_reducible assumption
    | with_reducible exact OutKeeps.fault
    | with_reducible exact OutKeeps.refused
    | with_reducible apply OutKeeps.ok
    | with_reducible apply OutKeeps.next
    | with_reducible apply OutKeeps.ite
    | ((with_reducible apply Keeps.step (carryAll_keeps ..)); focus exact rfl)
    | ((with_reducible apply receiveHere_keeps); focus exact rfl)
    | ((with_reducible apply Keeps.step (echoHere_keeps ..)); focus exact rfl)
    | with_reducible intro _
    | with_reducible apply Keeps.self
    | with_reducible apply Keeps.ite
    | with_reducible apply Keeps.ite_fst
    | with_reducible refine Keeps.foldl _ (fun _ _ => ?_) ?_
    | extract_lets
    | split
    | dsimp only)

theorem probeHere_keeps (s : State) (h : Hop) (isAnswer : Bool) (formed : Bool) (leader : Nat) : Keeps (only [.relay]) s (probeHere s h isAnswer
    formed leader) := by
  unfold probeHere
  repeat' (first
    | with_reducible apply Keeps.refl
    | with_reducible assumption
    | ((with_reducible apply Keeps.step (hopSend_keeps ..)); focus exact rfl)
    | ((with_reducible apply Keeps.step (State.modRelay_keeps ..)); focus exact rfl)
    | ((with_reducible apply Keeps.step (State.modHop_keeps ..)); focus exact rfl)
    | with_reducible apply Keeps.ite
    | with_reducible apply Keeps.ite_fst
    | with_reducible refine Keeps.foldl _ (fun _ _ => ?_) ?_
    | extract_lets
    | split
    | dsimp only)

theorem probeIn_keeps (s : State) (h : Hop) (isAnswer : Bool) (formed : Bool) (leader : Nat) : Keeps (only [.alarms, .jobs, .mem, .buffers, .engines,
    .keys, .time, .relay, .prompts]) s (probeIn s h isAnswer formed leader) := by
  unfold probeIn
  repeat' (first
    | with_reducible apply Keeps.refl
    | with_reducible assumption
    | ((with_reducible apply receive_keeps); focus exact rfl)
    | ((with_reducible apply Keeps.step (probeHere_keeps ..)); focus exact rfl)
    | with_reducible intro _
    | with_reducible apply Keeps.self
    | with_reducible apply Keeps.ite
    | with_reducible apply Keeps.ite_fst
    | with_reducible refine Keeps.foldl _ (fun _ _ => ?_) ?_
    | extract_lets
    | split
    | dsimp only)

theorem execProbe_keeps (hop : Hop) (isAnswer : Bool) (formed : Bool) (leader : Nat) (s : State) : OutKeeps (allBut [.pending, .params, .journal,
    .offers, .nextJob, .window, .cust]) s (execProbe hop isAnswer formed leader s) := by
  unfold execProbe
  repeat' (first
    | with_reducible apply Keeps.refl
    | with_reducible assumption
    | with_reducible exact OutKeeps.fault
    | with_reducible exact OutKeeps.refused
    | with_reducible apply OutKeeps.ok
    | with_reducible apply OutKeeps.next
    | with_reducible apply OutKeeps.ite
    | ((with_reducible apply Keeps.step (carryAll_keeps ..)); focus exact rfl)
    | ((with_reducible apply Keeps.step (probeIn_keeps ..)); focus exact rfl)
    | with_reducible apply Keeps.ite
    | with_reducible apply Keeps.ite_fst
    | with_reducible refine Keeps.foldl _ (fun _ _ => ?_) ?_
    | extract_lets
    | split
    | dsimp only)

theorem drawIdentity_keeps (s : State) : OptKeeps2 (only [.entropy]) s (drawIdentity s) := by
  unfold drawIdentity
  repeat' (first
    | with_reducible apply Keeps.refl
    | with_reducible assumption
    | with_reducible exact OptKeeps2.none
    | with_reducible apply OptKeeps2.some
    | ((with_reducible apply OptKeeps2.step (tryDraw_keeps ..)); focus exact rfl)
    | with_reducible refine OptKeeps2.get ?_ (by assumption)
    | with_reducible apply OptKeeps2.some
    | with_reducible apply OptKeeps2.map
    | with_reducible apply Keeps.ite
    | with_reducible apply Keeps.ite_fst
    | with_reducible refine Keeps.foldl _ (fun _ _ => ?_) ?_
    | extract_lets
    | split
    | dsimp only)

theorem ownIdentity_keeps (s : State) : OptKeeps2 (only [.entropy, .relay]) s (ownIdentity s) := by
  unfold ownIdentity
  repeat' (first
    | with_reducible apply Keeps.refl
    | with_reducible assumption
    | with_reducible exact OptKeeps2.none
    | with_reducible apply OptKeeps2.some
    | ((with_reducible apply OptKeeps2.step (drawIdentity_keeps ..)); focus exact rfl)
    | ((with_reducible apply Keeps.step (State.modRelay_keeps ..)); focus exact rfl)
    | with_reducible refine OptKeeps2.get ?_ (by assumption)
    | with_reducible apply OptKeeps2.some
    | with_reducible apply OptKeeps2.map
    | with_reducible apply Keeps.ite
    | with_reducible apply Keeps.ite_fst
    | with_reducible refine Keeps.foldl _ (fun _ _ => ?_) ?_
    | extract_lets
    | split
    | dsimp only)

theorem sendElect_keeps (s : State) (identity : Nat) : Keeps (only [.relay]) s (sendElect s identity) := by
  unfold sendElect
  repeat' (first
    | with_reducible apply Keeps.refl
    | with_reducible assumption
    | ((with_reducible apply Keeps.step (State.modRelay_keeps ..)); focus exact rfl)
    | ((with_reducible apply Keeps.step (hopSend_keeps ..)); focus exact rfl)
    | with_reducible apply Keeps.ite
    | with_reducible apply Keeps.ite_fst
    | with_reducible refine Keeps.foldl _ (fun _ _ => ?_) ?_
    | extract_lets
    | split
    | dsimp only)

theorem electionStart_keeps (s : State) : Keeps (only [.entropy, .relay]) s (electionStart s) := by
  unfold electionStart
  repeat' (first
    | with_reducible apply Keeps.refl
    | with_reducible assumption
    | ((with_reducible apply OptKeeps2.step (ownIdentity_keeps ..)); focus exact rfl)
    | ((with_reducible apply Keeps.step (sendElect_keeps ..)); focus exact rfl)
    | ((with_reducible apply Keeps.step (want_keeps ..)); focus exact rfl)
    | with_reducible refine OptKeeps2.get ?_ (by assumption)
    | with_reducible apply OptKeeps2.some
    | with_reducible apply OptKeeps2.map
    | with_reducible apply Keeps.ite
    | with_reducible apply Keeps.ite_fst
    | with_reducible refine Keeps.foldl _ (fun _ _ => ?_) ?_
    | extract_lets
    | split
    | dsimp only)

theorem execElectionStart_keeps (s : State) : OutKeeps (allBut [.pending, .params, .journal, .offers, .nextJob, .window, .time, .cust]) s
    (execElectionStart s) := by
  unfold execElectionStart
  repeat' (first
    | with_reducible apply Keeps.refl
    | with_reducible assumption
    | with_reducible exact OutKeeps.fault
    | with_reducible exact OutKeeps.refused
    | with_reducible apply OutKeeps.ok
    | with_reducible apply OutKeeps.next
    | with_reducible apply OutKeeps.ite
    | ((with_reducible apply Keeps.step (fin_keeps ..)); focus exact rfl)
    | ((with_reducible apply Keeps.step (electionStart_keeps ..)); focus exact rfl)
    | with_reducible apply Keeps.ite
    | with_reducible apply Keeps.ite_fst
    | with_reducible refine Keeps.foldl _ (fun _ _ => ?_) ?_
    | extract_lets
    | split
    | dsimp only)

theorem becomeLeader_keeps (s : State) : Keeps (only [.entropy, .relay]) s (becomeLeader s) := by
  unfold becomeLeader
  repeat' (first
    | with_reducible apply Keeps.refl
    | with_reducible assumption
    | ((with_reducible apply OptKeeps2.step (tryDraw_keeps ..)); focus exact rfl)
    | ((with_reducible apply Keeps.step (want_keeps ..)); focus exact rfl)
    | ((with_reducible apply Keeps.step (State.modRelay_keeps ..)); focus exact rfl)
    | ((with_reducible apply Keeps.step (hopSend_keeps ..)); focus exact rfl)
    | with_reducible refine OptKeeps2.get ?_ (by assumption)
    | with_reducible apply OptKeeps2.some
    | with_reducible apply OptKeeps2.map
    | with_reducible apply Keeps.ite
    | with_reducible apply Keeps.ite_fst
    | with_reducible refine Keeps.foldl _ (fun _ _ => ?_) ?_
    | extract_lets
    | split
    | dsimp only)

theorem electHere_keeps (s : State) (h : Hop) (identity : Candidate) : Keeps (only [.entropy, .relay]) s (electHere s h identity) := by
  unfold electHere
  repeat' (first
    | with_reducible apply Keeps.refl
    | with_reducible assumption
    | ((with_reducible apply OptKeeps2.step (ownIdentity_keeps ..)); focus exact rfl)
    | ((with_reducible apply Keeps.step (want_keeps ..)); focus exact rfl)
    | ((with_reducible apply Keeps.step (State.modRelay_keeps ..)); focus exact rfl)
    | ((with_reducible apply Keeps.step (forward_keeps ..)); focus exact rfl)
    | ((with_reducible apply Keeps.step (sendElect_keeps ..)); focus exact rfl)
    | ((with_reducible apply Keeps.step (becomeLeader_keeps ..)); focus exact rfl)
    | with_reducible refine OptKeeps2.get ?_ (by assumption)
    | with_reducible apply OptKeeps2.some
    | with_reducible apply OptKeeps2.map
    | with_reducible apply Keeps.ite
    | with_reducible apply Keeps.ite_fst
    | with_reducible refine Keeps.foldl _ (fun _ _ => ?_) ?_
    | extract_lets
    | split
    | dsimp only)

theorem electIn_keeps (s : State) (h : Hop) (identity : Candidate) : Keeps (only [.alarms, .jobs, .mem, .buffers, .engines, .keys, .entropy, .time,
    .relay, .prompts]) s (electIn s h identity) := by
  unfold electIn
  repeat' (first
    | with_reducible apply Keeps.refl
    | with_reducible assumption
    | ((with_reducible apply receiveHere_keeps); focus exact rfl)
    | ((with_reducible apply Keeps.step (electHere_keeps ..)); focus exact rfl)
    | with_reducible intro _
    | with_reducible apply Keeps.self
    | with_reducible apply Keeps.ite
    | with_reducible apply Keeps.ite_fst
    | with_reducible refine Keeps.foldl _ (fun _ _ => ?_) ?_
    | extract_lets
    | split
    | dsimp only)

theorem execElect_keeps (hop : Hop) (identity : Candidate) (s : State) : OutKeeps (allBut [.pending, .params, .journal, .offers, .nextJob, .window,
    .cust]) s (execElect hop identity s) := by
  unfold execElect
  repeat' (first
    | with_reducible apply Keeps.refl
    | with_reducible assumption
    | with_reducible exact OutKeeps.fault
    | with_reducible exact OutKeeps.refused
    | with_reducible apply OutKeeps.ok
    | with_reducible apply OutKeeps.next
    | with_reducible apply OutKeeps.ite
    | ((with_reducible apply Keeps.step (carryAll_keeps ..)); focus exact rfl)
    | ((with_reducible apply Keeps.step (electIn_keeps ..)); focus exact rfl)
    | with_reducible apply Keeps.ite
    | with_reducible apply Keeps.ite_fst
    | with_reducible refine Keeps.foldl _ (fun _ _ => ?_) ?_
    | extract_lets
    | split
    | dsimp only)

theorem tryWant_keeps (s : State) (w : RWant) : Keeps (only [.entropy, .relay]) s (tryWant s w) := by
  unfold tryWant
  repeat' (first
    | with_reducible apply Keeps.refl
    | with_reducible assumption
    | ((with_reducible apply Keeps.step (sendHello_keeps ..)); focus exact rfl)
    | ((with_reducible apply Keeps.step (takeHello_keeps ..)); focus exact rfl)
    | ((with_reducible apply Keeps.step (electionStart_keeps ..)); focus exact rfl)
    | ((with_reducible apply Keeps.step (electHere_keeps ..)); focus exact rfl)
    | ((with_reducible apply Keeps.step (becomeLeader_keeps ..)); focus exact rfl)
    | with_reducible apply Keeps.ite
    | with_reducible apply Keeps.ite_fst
    | with_reducible refine Keeps.foldl _ (fun _ _ => ?_) ?_
    | extract_lets
    | split
    | dsimp only)

theorem tryWants_keeps (s : State) : Keeps (only [.entropy, .relay]) s (tryWants s) := by
  unfold tryWants
  repeat' (first
    | with_reducible apply Keeps.refl
    | with_reducible assumption
    | ((with_reducible apply Keeps.step (tryWant_keeps ..)); focus exact rfl)
    | ((with_reducible apply Keeps.step (State.modRelay_keeps ..)); focus exact rfl)
    | with_reducible apply Keeps.ite
    | with_reducible apply Keeps.ite_fst
    | with_reducible refine Keeps.foldl _ (fun _ _ => ?_) ?_
    | extract_lets
    | split
    | dsimp only)

theorem execWordDelivery_keeps (s : State) : OutKeeps (allBut [.pending, .params, .journal, .offers, .nextJob, .window, .time]) s (execWordDelivery s)
    := by
  unfold execWordDelivery
  repeat' (first
    | with_reducible apply Keeps.refl
    | with_reducible assumption
    | with_reducible exact OutKeeps.fault
    | with_reducible exact OutKeeps.refused
    | with_reducible apply OutKeeps.ok
    | with_reducible apply OutKeeps.next
    | with_reducible apply OutKeeps.ite
    | ((with_reducible apply Keeps.step (carryAll_keeps ..)); focus exact rfl)
    | ((with_reducible apply Keeps.step (cardGo_keeps ..)); focus exact rfl)
    | ((with_reducible apply Keeps.step (tryWants_keeps ..)); focus exact rfl)
    | ((with_reducible apply Keeps.step (wordDelivery_keeps ..)); focus exact rfl)
    | with_reducible apply Keeps.ite
    | with_reducible apply Keeps.ite_fst
    | with_reducible refine Keeps.foldl _ (fun _ _ => ?_) ?_
    | extract_lets
    | split
    | dsimp only)

theorem numberHere_keeps (s : State) (h : Hop) (next : Nat) : Keeps (only [.alarms, .jobs, .mem, .buffers, .engines, .keys, .time, .relay, .prompts])
    s (numberHere s h next) := by
  unfold numberHere
  repeat' (first
    | with_reducible apply Keeps.refl
    | with_reducible assumption
    | ((with_reducible apply Keeps.step (sendMap_keeps ..)); focus exact rfl)
    | ((with_reducible apply Keeps.step (State.modRelay_keeps ..)); focus exact rfl)
    | ((with_reducible apply Keeps.step (forward_keeps ..)); focus exact rfl)
    | with_reducible apply Keeps.ite
    | with_reducible apply Keeps.ite_fst
    | with_reducible refine Keeps.foldl _ (fun _ _ => ?_) ?_
    | extract_lets
    | split
    | dsimp only)

theorem numberIn_keeps (s : State) (h : Hop) (next : Nat) : Keeps (only [.alarms, .jobs, .mem, .buffers, .engines, .keys, .time, .relay, .prompts]) s
    (numberIn s h next) := by
  unfold numberIn
  repeat' (first
    | with_reducible apply Keeps.refl
    | with_reducible assumption
    | ((with_reducible apply receiveHere_keeps); focus exact rfl)
    | ((with_reducible apply Keeps.step (numberHere_keeps ..)); focus exact rfl)
    | with_reducible intro _
    | with_reducible apply Keeps.self
    | with_reducible apply Keeps.ite
    | with_reducible apply Keeps.ite_fst
    | with_reducible refine Keeps.foldl _ (fun _ _ => ?_) ?_
    | extract_lets
    | split
    | dsimp only)

theorem execNumber_keeps (hop : Hop) (next : Nat) (s : State) : OutKeeps (allBut [.pending, .params, .journal, .offers, .nextJob, .window, .cust]) s
    (execNumber hop next s) := by
  unfold execNumber
  repeat' (first
    | with_reducible apply Keeps.refl
    | with_reducible assumption
    | with_reducible exact OutKeeps.fault
    | with_reducible exact OutKeeps.refused
    | with_reducible apply OutKeeps.ok
    | with_reducible apply OutKeeps.next
    | with_reducible apply OutKeeps.ite
    | ((with_reducible apply Keeps.step (carryAll_keeps ..)); focus exact rfl)
    | ((with_reducible apply Keeps.step (numberIn_keeps ..)); focus exact rfl)
    | with_reducible apply Keeps.ite
    | with_reducible apply Keeps.ite_fst
    | with_reducible refine Keeps.foldl _ (fun _ _ => ?_) ?_
    | extract_lets
    | split
    | dsimp only)

theorem reportHere_keeps (s : State) (src : Nat) (es : List MapEntry) : Keeps (only [.alarms, .jobs, .mem, .buffers, .engines, .keys, .time, .relay,
    .prompts]) s (reportHere s src es) := by
  unfold reportHere
  repeat' (first
    | with_reducible apply Keeps.refl
    | with_reducible assumption
    | ((with_reducible apply Keeps.step (renewMap_keeps ..)); focus exact rfl)
    | ((with_reducible apply Keeps.step (State.modRelay_keeps ..)); focus exact rfl)
    | with_reducible apply Keeps.ite
    | with_reducible apply Keeps.ite_fst
    | with_reducible refine Keeps.foldl _ (fun _ _ => ?_) ?_
    | extract_lets
    | split
    | dsimp only)

theorem askKey_keeps (s : State) : Keeps (only [.relay]) s (askKey s) := by
  unfold askKey
  repeat' (first
    | with_reducible apply Keeps.refl
    | with_reducible assumption
    | ((with_reducible apply Keeps.step (sendTo_keeps ..)); focus exact rfl)
    | with_reducible apply Keeps.ite
    | with_reducible apply Keeps.ite_fst
    | with_reducible refine Keeps.foldl _ (fun _ _ => ?_) ?_
    | extract_lets
    | split
    | dsimp only)

theorem probeAgain_keeps (s : State) : Keeps (only [.relay]) s (probeAgain s) := by
  unfold probeAgain
  repeat' (first
    | with_reducible apply Keeps.refl
    | with_reducible assumption
    | ((with_reducible apply Keeps.step (State.modHop_keeps ..)); focus exact rfl)
    | ((with_reducible apply Keeps.step (State.modRelay_keeps ..)); focus exact rfl)
    | ((with_reducible apply Keeps.step (sendProbe_keeps ..)); focus exact rfl)
    | with_reducible apply Keeps.ite
    | with_reducible apply Keeps.ite_fst
    | with_reducible refine Keeps.foldl _ (fun _ _ => ?_) ?_
    | extract_lets
    | split
    | dsimp only)

theorem mapHere_keeps (s : State) (h : Hop) (es : List MapEntry) : Keeps (only [.alarms, .jobs, .mem, .buffers, .engines, .keys, .time, .relay,
    .prompts]) s (mapHere s h es) := by
  unfold mapHere
  repeat' (first
    | with_reducible apply Keeps.refl
    | with_reducible assumption
    | ((with_reducible apply Keeps.step (reportHere_keeps ..)); focus exact rfl)
    | ((with_reducible apply Keeps.step (newMap_keeps ..)); focus exact rfl)
    | ((with_reducible apply Keeps.step (tellLeader_keeps ..)); focus exact rfl)
    | ((with_reducible apply Keeps.step (askKey_keeps ..)); focus exact rfl)
    | ((with_reducible apply Keeps.step (probeAgain_keeps ..)); focus exact rfl)
    | with_reducible apply Keeps.ite
    | with_reducible apply Keeps.ite_fst
    | with_reducible refine Keeps.foldl _ (fun _ _ => ?_) ?_
    | extract_lets
    | split
    | dsimp only)

theorem mapIn_keeps (s : State) (h : Hop) (es : List MapEntry) : Keeps (only [.alarms, .jobs, .mem, .buffers, .engines, .keys, .time, .relay,
    .prompts]) s (mapIn s h es) := by
  unfold mapIn
  repeat' (first
    | with_reducible apply Keeps.refl
    | with_reducible assumption
    | ((with_reducible apply receive_keeps); focus exact rfl)
    | ((with_reducible apply Keeps.step (mapHere_keeps ..)); focus exact rfl)
    | with_reducible intro _
    | with_reducible apply Keeps.self
    | with_reducible apply Keeps.ite
    | with_reducible apply Keeps.ite_fst
    | with_reducible refine Keeps.foldl _ (fun _ _ => ?_) ?_
    | extract_lets
    | split
    | dsimp only)

theorem execMap_keeps (hop : Hop) (entries : List MapEntry) (s : State) : OutKeeps (allBut [.pending, .params, .journal, .offers, .nextJob, .window,
    .cust]) s (execMap hop entries s) := by
  unfold execMap
  repeat' (first
    | with_reducible apply Keeps.refl
    | with_reducible assumption
    | with_reducible exact OutKeeps.fault
    | with_reducible exact OutKeeps.refused
    | with_reducible apply OutKeeps.ok
    | with_reducible apply OutKeeps.next
    | with_reducible apply OutKeeps.ite
    | ((with_reducible apply Keeps.step (carryAll_keeps ..)); focus exact rfl)
    | ((with_reducible apply Keeps.step (mapIn_keeps ..)); focus exact rfl)
    | with_reducible apply Keeps.ite
    | with_reducible apply Keeps.ite_fst
    | with_reducible refine Keeps.foldl _ (fun _ _ => ?_) ?_
    | extract_lets
    | split
    | dsimp only)

theorem insertMember_keeps (s : State) (es : List MapEntry) (p : Nat) (m : Nat) : Keeps (only [.alarms, .jobs, .mem, .buffers, .engines, .keys, .time,
    .relay, .prompts]) s (insertMember s es p m) := by
  unfold insertMember
  repeat' (first
    | with_reducible apply Keeps.refl
    | with_reducible assumption
    | ((with_reducible apply Keeps.step (State.modRelay_keeps ..)); focus exact rfl)
    | ((with_reducible apply Keeps.step (sendMap_keeps ..)); focus exact rfl)
    | with_reducible apply Keeps.ite
    | with_reducible apply Keeps.ite_fst
    | with_reducible refine Keeps.foldl _ (fun _ _ => ?_) ?_
    | extract_lets
    | split
    | dsimp only)

theorem answerJoin_keeps (s : State) (h : Hop) (own : Nat) : Keeps (only [.alarms, .jobs, .mem, .buffers, .engines, .keys, .time, .relay, .prompts]) s
    (answerJoin s h own) := by
  unfold answerJoin
  repeat' (first
    | with_reducible apply Keeps.refl
    | with_reducible assumption
    | ((with_reducible apply Keeps.step (hopSend_keeps ..)); focus exact rfl)
    | ((with_reducible apply Keeps.step (pairSeal_keeps ..)); focus exact rfl)
    | ((with_reducible apply Keeps.step (sendMap_keeps ..)); focus exact rfl)
    | ((with_reducible apply Keeps.step (insertMember_keeps ..)); focus exact rfl)
    | with_reducible refine Keeps.fst (by assumption) ?_
    | with_reducible apply Keeps.ite
    | with_reducible apply Keeps.ite_fst
    | with_reducible refine Keeps.foldl _ (fun _ _ => ?_) ?_
    | extract_lets
    | split
    | dsimp only)

theorem joinIn_keeps (s : State) (h : Hop) (isAnswer : Bool) (refused : Bool) (given : Nat) (sealedRk : Bytes) (rkOk : Bool) : Keeps (only [.alarms,
    .jobs, .mem, .buffers, .engines, .keys, .time, .relay, .prompts]) s (joinIn s h isAnswer refused given sealedRk rkOk) := by
  unfold joinIn
  repeat' (first
    | with_reducible apply Keeps.refl
    | with_reducible assumption
    | ((with_reducible apply Keeps.step (accept_keeps ..)); focus exact rfl)
    | ((with_reducible apply Keeps.step (forward_keeps ..)); focus exact rfl)
    | ((with_reducible apply Keeps.step (answerJoin_keeps ..)); focus exact rfl)
    | ((with_reducible apply Keeps.step (hopSend_keeps ..)); focus exact rfl)
    | ((with_reducible apply Keeps.step (State.modRelay_keeps ..)); focus exact rfl)
    | with_reducible refine Keeps.fst (by assumption) ?_
    | with_reducible apply Keeps.ite
    | with_reducible apply Keeps.ite_fst
    | with_reducible refine Keeps.foldl _ (fun _ _ => ?_) ?_
    | extract_lets
    | split
    | dsimp only)

theorem execJoin_keeps (hop : Hop) (isAnswer : Bool) (refused : Bool) (given : Nat) (sealedRk : Bytes) (rkOk : Bool) (s : State) : OutKeeps (allBut
    [.pending, .params, .journal, .offers, .nextJob, .window, .cust]) s (execJoin hop isAnswer refused given sealedRk rkOk s) := by
  unfold execJoin
  repeat' (first
    | with_reducible apply Keeps.refl
    | with_reducible assumption
    | with_reducible exact OutKeeps.fault
    | with_reducible exact OutKeeps.refused
    | with_reducible apply OutKeeps.ok
    | with_reducible apply OutKeeps.next
    | with_reducible apply OutKeeps.ite
    | ((with_reducible apply Keeps.step (carryAll_keeps ..)); focus exact rfl)
    | ((with_reducible apply Keeps.step (joinIn_keeps ..)); focus exact rfl)
    | with_reducible apply Keeps.ite
    | with_reducible apply Keeps.ite_fst
    | with_reducible refine Keeps.foldl _ (fun _ _ => ?_) ?_
    | extract_lets
    | split
    | dsimp only)

theorem execAdv_keeps (hop : Hop) (starts : List (Nat × Nat)) (floor : Nat) (accepts : Bool) (s : State) : OutKeeps (allBut [.pending, .params,
    .journal, .offers, .nextJob, .window, .cust]) s (execAdv hop starts floor accepts s) := by
  unfold execAdv
  repeat' (first
    | with_reducible apply Keeps.refl
    | with_reducible assumption
    | with_reducible exact OutKeeps.fault
    | with_reducible exact OutKeeps.refused
    | with_reducible apply OutKeeps.ok
    | with_reducible apply OutKeeps.next
    | with_reducible apply OutKeeps.ite
    | ((with_reducible apply Keeps.step (fin_keeps ..)); focus exact rfl)
    | ((with_reducible apply receive_keeps); focus exact rfl)
    | with_reducible intro _
    | with_reducible apply Keeps.self
    | with_reducible apply Keeps.ite
    | with_reducible apply Keeps.ite_fst
    | with_reducible refine Keeps.foldl _ (fun _ _ => ?_) ?_
    | extract_lets
    | split
    | dsimp only
    | ((with_reducible apply Keeps.upd) <;> first | exact .inl rfl | exact .inr rfl | skip))

theorem refuseJob_keeps (s : State) (origin : Nat) (j : RelayedJob) : Keeps (only [.relay]) s (refuseJob s origin j) := by
  unfold refuseJob
  repeat' (first
    | with_reducible apply Keeps.refl
    | with_reducible assumption
    | ((with_reducible apply Keeps.step (sendTo_keeps ..)); focus exact rfl)
    | with_reducible apply Keeps.ite
    | with_reducible apply Keeps.ite_fst
    | with_reducible refine Keeps.foldl _ (fun _ _ => ?_) ?_
    | extract_lets
    | split
    | dsimp only)

theorem jobHere_keeps (s : State) (h : Hop) (j : RelayedJob) : Keeps (only [.jobs, .nextJob, .place, .relay]) s (jobHere s h j) := by
  unfold jobHere
  repeat' (first
    | with_reducible apply Keeps.refl
    | with_reducible assumption
    | ((with_reducible apply Keeps.step (refuseJob_keeps ..)); focus exact rfl)
    | with_reducible apply Keeps.ite
    | with_reducible apply Keeps.ite_fst
    | with_reducible refine Keeps.foldl _ (fun _ _ => ?_) ?_
    | extract_lets
    | split
    | dsimp only
    | ((with_reducible apply Keeps.upd) <;> first | exact .inl rfl | exact .inr rfl | skip))

theorem jobIn_keeps (s : State) (h : Hop) (j : RelayedJob) : Keeps (only [.alarms, .jobs, .nextJob, .mem, .place, .buffers, .engines, .keys, .time,
    .relay, .prompts]) s (jobIn s h j) := by
  unfold jobIn
  repeat' (first
    | with_reducible apply Keeps.refl
    | with_reducible assumption
    | ((with_reducible apply receive_keeps); focus exact rfl)
    | ((with_reducible apply Keeps.step (jobHere_keeps ..)); focus exact rfl)
    | with_reducible intro _
    | with_reducible apply Keeps.self
    | with_reducible apply Keeps.ite
    | with_reducible apply Keeps.ite_fst
    | with_reducible refine Keeps.foldl _ (fun _ _ => ?_) ?_
    | extract_lets
    | split
    | dsimp only)

theorem execRelayJob_keeps (hop : Hop) (job : RelayedJob) (s : State) : OutKeeps (allBut [.pending, .params, .journal, .offers, .window, .cust]) s
    (execRelayJob hop job s) := by
  unfold execRelayJob
  repeat' (first
    | with_reducible apply Keeps.refl
    | with_reducible assumption
    | with_reducible exact OutKeeps.fault
    | with_reducible exact OutKeeps.refused
    | with_reducible apply OutKeeps.ok
    | with_reducible apply OutKeeps.next
    | with_reducible apply OutKeeps.ite
    | ((with_reducible apply Keeps.step (carryAll_keeps ..)); focus exact rfl)
    | ((with_reducible apply Keeps.step (jobIn_keeps ..)); focus exact rfl)
    | with_reducible apply Keeps.ite
    | with_reducible apply Keeps.ite_fst
    | with_reducible refine Keeps.foldl _ (fun _ _ => ?_) ?_
    | extract_lets
    | split
    | dsimp only)

theorem takeDone_keeps (s : State) (j : Job) (d : RelayedDone) : Keeps (only [.seats, .jobs, .mem, .buffers, .engines, .keys]) s (takeDone s j d) :=
    by
  unfold takeDone
  repeat' (first
    | with_reducible apply Keeps.refl
    | with_reducible assumption
    | ((with_reducible apply Keeps.step (State.modJob_keeps ..)); focus exact rfl)
    | ((with_reducible apply Keeps.step (chargeBlocks_keeps ..)); focus exact rfl)
    | ((with_reducible apply Keeps.step (failJob_keeps ..)); focus exact rfl)
    | ((with_reducible apply Keeps.step (writeOuts_keeps ..)); focus exact rfl)
    | ((with_reducible apply Keeps.step (fixOutcome_keeps ..)); focus exact rfl)
    | with_reducible apply Keeps.ite
    | with_reducible apply Keeps.ite_fst
    | with_reducible refine Keeps.foldl _ (fun _ _ => ?_) ?_
    | extract_lets
    | split
    | dsimp only)

theorem staleDone_keeps (s : State) : Keeps (only [.relay]) s (staleDone s) := by
  unfold staleDone
  repeat' (first
    | with_reducible apply Keeps.refl
    | with_reducible assumption
    | ((with_reducible apply Keeps.step (State.modRelay_keeps ..)); focus exact rfl)
    | with_reducible apply Keeps.ite
    | with_reducible apply Keeps.ite_fst
    | with_reducible refine Keeps.foldl _ (fun _ _ => ?_) ?_
    | extract_lets
    | split
    | dsimp only)

theorem doneHere_keeps (s : State) (h : Hop) (d : RelayedDone) : Keeps (only [.seats, .jobs, .mem, .buffers, .engines, .keys, .relay]) s (doneHere s h
    d) := by
  unfold doneHere
  repeat' (first
    | with_reducible apply Keeps.refl
    | with_reducible assumption
    | ((with_reducible apply Keeps.step (staleDone_keeps ..)); focus exact rfl)
    | ((with_reducible apply Keeps.step (sendTo_keeps ..)); focus exact rfl)
    | ((with_reducible apply Keeps.step (stop_keeps ..)); focus exact rfl)
    | ((with_reducible apply Keeps.step (takeDone_keeps ..)); focus exact rfl)
    | with_reducible apply Keeps.ite
    | with_reducible apply Keeps.ite_fst
    | with_reducible refine Keeps.foldl _ (fun _ _ => ?_) ?_
    | extract_lets
    | split
    | dsimp only)

theorem doneIn_keeps (s : State) (h : Hop) (d : RelayedDone) : Keeps (only [.alarms, .seats, .jobs, .mem, .buffers, .engines, .keys, .time, .relay,
    .prompts]) s (doneIn s h d) := by
  unfold doneIn
  repeat' (first
    | with_reducible apply Keeps.refl
    | with_reducible assumption
    | ((with_reducible apply receive_keeps); focus exact rfl)
    | ((with_reducible apply Keeps.step (doneHere_keeps ..)); focus exact rfl)
    | with_reducible intro _
    | with_reducible apply Keeps.self
    | with_reducible apply Keeps.ite
    | with_reducible apply Keeps.ite_fst
    | with_reducible refine Keeps.foldl _ (fun _ _ => ?_) ?_
    | extract_lets
    | split
    | dsimp only)

theorem execRelayDone_keeps (hop : Hop) (done : RelayedDone) (s : State) : OutKeeps (allBut [.pending, .params, .journal, .offers, .nextJob, .window,
    .cust]) s (execRelayDone hop done s) := by
  unfold execRelayDone
  repeat' (first
    | with_reducible apply Keeps.refl
    | with_reducible assumption
    | with_reducible exact OutKeeps.fault
    | with_reducible exact OutKeeps.refused
    | with_reducible apply OutKeeps.ok
    | with_reducible apply OutKeeps.next
    | with_reducible apply OutKeeps.ite
    | ((with_reducible apply Keeps.step (carryAll_keeps ..)); focus exact rfl)
    | ((with_reducible apply Keeps.step (doneIn_keeps ..)); focus exact rfl)
    | with_reducible apply Keeps.ite
    | with_reducible apply Keeps.ite_fst
    | with_reducible refine Keeps.foldl _ (fun _ _ => ?_) ?_
    | extract_lets
    | split
    | dsimp only)

theorem execRelayCancel_keeps (hop : Hop) (tags : List Nat) (s : State) : OutKeeps (allBut [.pending, .params, .journal, .offers, .nextJob, .window,
    .cust]) s (execRelayCancel hop tags s) := by
  unfold execRelayCancel
  repeat' (first
    | with_reducible apply Keeps.refl
    | with_reducible assumption
    | with_reducible exact OutKeeps.fault
    | with_reducible exact OutKeeps.refused
    | with_reducible apply OutKeeps.ok
    | with_reducible apply OutKeeps.next
    | with_reducible apply OutKeeps.ite
    | ((with_reducible apply Keeps.step (carryAll_keeps ..)); focus exact rfl)
    | ((with_reducible apply receive_keeps); focus exact rfl)
    | ((with_reducible apply Keeps.step (dropOrigin_keeps ..)); focus exact rfl)
    | with_reducible intro _
    | with_reducible apply Keeps.self
    | with_reducible apply Keeps.ite
    | with_reducible apply Keeps.ite_fst
    | with_reducible refine Keeps.foldl _ (fun _ _ => ?_) ?_
    | extract_lets
    | split
    | dsimp only)

theorem memberAlarm_keeps (s : State) (m : Nat) : Keeps (only [.jobs, .mem, .place, .buffers, .engines, .keys]) s (memberAlarm s m) := by
  unfold memberAlarm
  repeat' (first
    | with_reducible apply Keeps.refl
    | with_reducible assumption
    | ((with_reducible apply Keeps.step (stopWhere_keeps ..)); focus exact rfl)
    | with_reducible apply Keeps.ite
    | with_reducible apply Keeps.ite_fst
    | with_reducible refine Keeps.foldl _ (fun _ _ => ?_) ?_
    | extract_lets
    | split
    | dsimp only
    | ((with_reducible apply Keeps.upd) <;> first | exact .inl rfl | exact .inr rfl | skip))

theorem execRelayAlarm_keeps (hop : Hop) (member : Nat) (s : State) : OutKeeps (allBut [.pending, .params, .journal, .offers, .nextJob, .window,
    .cust]) s (execRelayAlarm hop member s) := by
  unfold execRelayAlarm
  repeat' (first
    | with_reducible apply Keeps.refl
    | with_reducible assumption
    | with_reducible exact OutKeeps.fault
    | with_reducible exact OutKeeps.refused
    | with_reducible apply OutKeeps.ok
    | with_reducible apply OutKeeps.next
    | with_reducible apply OutKeeps.ite
    | ((with_reducible apply Keeps.step (carryAll_keeps ..)); focus exact rfl)
    | ((with_reducible apply receive_keeps); focus exact rfl)
    | ((with_reducible apply Keeps.step (memberAlarm_keeps ..)); focus exact rfl)
    | with_reducible intro _
    | with_reducible apply Keeps.self
    | with_reducible apply Keeps.ite
    | with_reducible apply Keeps.ite_fst
    | with_reducible refine Keeps.foldl _ (fun _ _ => ?_) ?_
    | extract_lets
    | split
    | dsimp only)

theorem execRelayBreak_keeps (hop : Hop) (position : Nat) (s : State) : OutKeeps (allBut [.pending, .params, .journal, .offers, .nextJob, .window,
    .cust]) s (execRelayBreak hop position s) := by
  unfold execRelayBreak
  repeat' (first
    | with_reducible apply Keeps.refl
    | with_reducible assumption
    | with_reducible exact OutKeeps.fault
    | with_reducible exact OutKeeps.refused
    | with_reducible apply OutKeeps.ok
    | with_reducible apply OutKeeps.next
    | with_reducible apply OutKeeps.ite
    | ((with_reducible apply Keeps.step (carryAll_keeps ..)); focus exact rfl)
    | ((with_reducible apply receive_keeps); focus exact rfl)
    | ((with_reducible apply Keeps.step (onBreak_keeps ..)); focus exact rfl)
    | with_reducible intro _
    | with_reducible apply Keeps.self
    | with_reducible apply Keeps.ite
    | with_reducible apply Keeps.ite_fst
    | with_reducible refine Keeps.foldl _ (fun _ _ => ?_) ?_
    | extract_lets
    | split
    | dsimp only)

theorem timeHere_keeps (s : State) (h : Hop) (value : Stamp) (insideNs : Nat) : Keeps (only [.time, .relay, .freeCount]) s (timeHere s h value
    insideNs) := by
  unfold timeHere
  repeat' (first
    | with_reducible apply Keeps.refl
    | with_reducible assumption
    | ((with_reducible apply Keeps.step (forward_keeps ..)); focus exact rfl)
    | ((with_reducible apply Keeps.step (steer_keeps ..)); focus exact rfl)
    | with_reducible apply Keeps.ite
    | with_reducible apply Keeps.ite_fst
    | with_reducible refine Keeps.foldl _ (fun _ _ => ?_) ?_
    | extract_lets
    | split
    | dsimp only)

theorem timeIn_keeps (s : State) (h : Hop) (value : Stamp) (insideNs : Nat) : Keeps (only [.alarms, .jobs, .mem, .buffers, .engines, .keys, .time,
    .relay, .prompts, .freeCount]) s (timeIn s h value insideNs) := by
  unfold timeIn
  repeat' (first
    | with_reducible apply Keeps.refl
    | with_reducible assumption
    | ((with_reducible apply receiveHere_keeps); focus exact rfl)
    | ((with_reducible apply Keeps.step (timeHere_keeps ..)); focus exact rfl)
    | with_reducible intro _
    | with_reducible apply Keeps.self
    | with_reducible apply Keeps.ite
    | with_reducible apply Keeps.ite_fst
    | with_reducible refine Keeps.foldl _ (fun _ _ => ?_) ?_
    | extract_lets
    | split
    | dsimp only)

theorem execTime_keeps (hop : Hop) (value : Stamp) (insideNs : Nat) (s : State) : OutKeeps (allBut [.pending, .params, .journal, .offers, .nextJob,
    .window, .cust]) s (execTime hop value insideNs s) := by
  unfold execTime
  repeat' (first
    | with_reducible apply Keeps.refl
    | with_reducible assumption
    | with_reducible exact OutKeeps.fault
    | with_reducible exact OutKeeps.refused
    | with_reducible apply OutKeeps.ok
    | with_reducible apply OutKeeps.next
    | with_reducible apply OutKeeps.ite
    | ((with_reducible apply Keeps.step (carryAll_keeps ..)); focus exact rfl)
    | ((with_reducible apply Keeps.step (timeIn_keeps ..)); focus exact rfl)
    | with_reducible apply Keeps.ite
    | with_reducible apply Keeps.ite_fst
    | with_reducible refine Keeps.foldl _ (fun _ _ => ?_) ?_
    | extract_lets
    | split
    | dsimp only)

theorem inboxFor_keeps (s : State) (src : Nat) (total : Nat) : Keeps (only [.relay]) s (inboxFor s src total) := by
  unfold inboxFor
  repeat' (first
    | with_reducible apply Keeps.refl
    | with_reducible assumption
    | ((with_reducible apply Keeps.step (State.modRelay_keeps ..)); focus exact rfl)
    | with_reducible apply Keeps.ite
    | with_reducible apply Keeps.ite_fst
    | with_reducible refine Keeps.foldl _ (fun _ _ => ?_) ?_
    | extract_lets
    | split
    | dsimp only)

theorem mailReads_keeps (s : State) : Keeps (only [.mem, .relay]) s (mailReads s) := by
  unfold mailReads
  repeat' (first
    | with_reducible apply Keeps.refl
    | with_reducible assumption
    | ((with_reducible apply Keeps.step (State.modRelay_keeps ..)); focus exact rfl)
    | ((with_reducible apply Keeps.step (addRead_keeps ..)); focus exact rfl)
    | with_reducible apply Keeps.ite
    | with_reducible apply Keeps.ite_fst
    | with_reducible refine Keeps.foldl _ (fun _ _ => ?_) ?_
    | extract_lets
    | split
    | dsimp only)

theorem mailCmd_keeps (s : State) (v : W32) : Keeps (only [.mem, .relay, .prompts]) s (mailCmd s v) := by
  unfold mailCmd
  repeat' (first
    | with_reducible apply Keeps.refl
    | with_reducible assumption
    | ((with_reducible apply Keeps.step (mailEnd_keeps ..)); focus exact rfl)
    | ((with_reducible apply Keeps.step (State.modRelay_keeps ..)); focus exact rfl)
    | ((with_reducible apply Keeps.step (sendTo_keeps ..)); focus exact rfl)
    | ((with_reducible apply Keeps.step (mailReads_keeps ..)); focus exact rfl)
    | ((with_reducible apply Keeps.step (inboxFor_keeps ..)); focus exact rfl)
    | with_reducible apply Keeps.ite
    | with_reducible apply Keeps.ite_fst
    | with_reducible refine Keeps.foldl _ (fun _ _ => ?_) ?_
    | extract_lets
    | split
    | dsimp only)

theorem execMailSend_keeps (value : W32) (s : State) : OutKeeps (allBut [.pending, .params, .journal, .offers, .nextJob, .window, .time, .cust]) s
    (execMailSend value s) := by
  unfold execMailSend
  repeat' (first
    | with_reducible apply Keeps.refl
    | with_reducible assumption
    | with_reducible exact OutKeeps.fault
    | with_reducible exact OutKeeps.refused
    | with_reducible apply OutKeeps.ok
    | with_reducible apply OutKeeps.next
    | with_reducible apply OutKeeps.ite
    | ((with_reducible apply Keeps.step (fin_keeps ..)); focus exact rfl)
    | ((with_reducible apply mgrWrite_keeps); focus exact rfl)
    | ((with_reducible apply Keeps.step (mailCmd_keeps ..)); focus exact rfl)
    | with_reducible intro _
    | with_reducible apply Keeps.self
    | with_reducible apply Keeps.ite
    | with_reducible apply Keeps.ite_fst
    | with_reducible refine Keeps.foldl _ (fun _ _ => ?_) ?_
    | extract_lets
    | split
    | dsimp only)

theorem mailPart_keeps (s : State) (src : Nat) (total : Nat) (offset : Nat) (part : Bytes) (final : Bool) : Keeps (only [.mem, .relay]) s (mailPart s
    src total offset part final) := by
  unfold mailPart
  repeat' (first
    | with_reducible apply Keeps.refl
    | with_reducible assumption
    | ((with_reducible apply Keeps.step (addWrites_keeps ..)); focus exact rfl)
    | ((with_reducible apply Keeps.step (State.modRelay_keeps ..)); focus exact rfl)
    | with_reducible apply Keeps.ite
    | with_reducible apply Keeps.ite_fst
    | with_reducible refine Keeps.foldl _ (fun _ _ => ?_) ?_
    | extract_lets
    | split
    | dsimp only)

theorem sendPart_keeps (s : State) (total : Nat) (offset : Nat) (part : Bytes) : Keeps (only [.mem, .relay]) s (sendPart s total offset part) := by
  unfold sendPart
  repeat' (first
    | with_reducible apply Keeps.refl
    | with_reducible assumption
    | ((with_reducible apply Keeps.step (mailPart_keeps ..)); focus exact rfl)
    | ((with_reducible apply Keeps.step (sendTo_keeps ..)); focus exact rfl)
    | with_reducible apply Keeps.ite
    | with_reducible apply Keeps.ite_fst
    | with_reducible refine Keeps.foldl _ (fun _ _ => ?_) ?_
    | extract_lets
    | split
    | dsimp only)

theorem mailData_keeps (s : State) (ord : Nat) (b : Bytes) : Keeps (only [.mem, .relay, .prompts]) s (mailData s ord b) := by
  unfold mailData
  repeat' (first
    | with_reducible apply Keeps.refl
    | with_reducible assumption
    | ((with_reducible apply Keeps.step (State.modRelay_keeps ..)); focus exact rfl)
    | ((with_reducible apply Keeps.step (mailEnd_keeps ..)); focus exact rfl)
    | ((with_reducible apply Keeps.step (sendPart_keeps ..)); focus exact rfl)
    | with_reducible apply Keeps.ite
    | with_reducible apply Keeps.ite_fst
    | with_reducible refine Keeps.foldl _ (fun _ _ => ?_) ?_
    | extract_lets
    | split
    | dsimp only)

theorem mailHere_keeps (s : State) (h : Hop) (total : Nat) (offset : Nat) (part : Bytes) (final : Bool) : Keeps (only [.mem, .relay, .prompts]) s
    (mailHere s h total offset part final) := by
  unfold mailHere
  repeat' (first
    | with_reducible apply Keeps.refl
    | with_reducible assumption
    | ((with_reducible apply Keeps.step (mailPart_keeps ..)); focus exact rfl)
    | ((with_reducible apply Keeps.step (sendTo_keeps ..)); focus exact rfl)
    | ((with_reducible apply Keeps.step (inboxFor_keeps ..)); focus exact rfl)
    | ((with_reducible apply Keeps.step (mailReads_keeps ..)); focus exact rfl)
    | ((with_reducible apply Keeps.step (mailEnd_keeps ..)); focus exact rfl)
    | with_reducible apply Keeps.ite
    | with_reducible apply Keeps.ite_fst
    | with_reducible refine Keeps.foldl _ (fun _ _ => ?_) ?_
    | extract_lets
    | split
    | dsimp only)

theorem mailIn_keeps (s : State) (h : Hop) (total : Nat) (offset : Nat) (part : Bytes) (final : Bool) : Keeps (only [.alarms, .jobs, .mem, .buffers,
    .engines, .keys, .time, .relay, .prompts]) s (mailIn s h total offset part final) := by
  unfold mailIn
  repeat' (first
    | with_reducible apply Keeps.refl
    | with_reducible assumption
    | ((with_reducible apply receive_keeps); focus exact rfl)
    | ((with_reducible apply Keeps.step (mailHere_keeps ..)); focus exact rfl)
    | with_reducible intro _
    | with_reducible apply Keeps.self
    | with_reducible apply Keeps.ite
    | with_reducible apply Keeps.ite_fst
    | with_reducible refine Keeps.foldl _ (fun _ _ => ?_) ?_
    | extract_lets
    | split
    | dsimp only)

theorem execMail_keeps (hop : Hop) (total : Nat) (offset : Nat) (part : Bytes) (final : Bool) (s : State) : OutKeeps (allBut [.pending, .params,
    .journal, .offers, .nextJob, .window, .cust]) s (execMail hop total offset part final s) := by
  unfold execMail
  repeat' (first
    | with_reducible apply Keeps.refl
    | with_reducible assumption
    | with_reducible exact OutKeeps.fault
    | with_reducible exact OutKeeps.refused
    | with_reducible apply OutKeeps.ok
    | with_reducible apply OutKeeps.next
    | with_reducible apply OutKeeps.ite
    | ((with_reducible apply Keeps.step (fin_keeps ..)); focus exact rfl)
    | ((with_reducible apply Keeps.step (mailIn_keeps ..)); focus exact rfl)
    | with_reducible apply Keeps.ite
    | with_reducible apply Keeps.ite_fst
    | with_reducible refine Keeps.foldl _ (fun _ _ => ?_) ?_
    | extract_lets
    | split
    | dsimp only)

theorem inboxAcked_keeps (s : State) : Keeps (only [.relay, .prompts]) s (inboxAcked s) := by
  unfold inboxAcked
  repeat' (first
    | with_reducible apply Keeps.refl
    | with_reducible assumption
    | ((with_reducible apply Keeps.step (vector_keeps ..)); focus exact rfl)
    | ((with_reducible apply Keeps.step (State.modRelay_keeps ..)); focus exact rfl)
    | with_reducible apply Keeps.ite
    | with_reducible apply Keeps.ite_fst
    | with_reducible refine Keeps.foldl _ (fun _ _ => ?_) ?_
    | extract_lets
    | split
    | dsimp only)

theorem inboxFree_keeps (s : State) (v : W32) : Keeps (only [.relay]) s (inboxFree s v) := by
  unfold inboxFree
  repeat' (first
    | with_reducible apply Keeps.refl
    | with_reducible assumption
    | ((with_reducible apply Keeps.step (State.modRelay_keeps ..)); focus exact rfl)
    | with_reducible apply Keeps.ite
    | with_reducible apply Keeps.ite_fst
    | with_reducible refine Keeps.foldl _ (fun _ _ => ?_) ?_
    | extract_lets
    | split
    | dsimp only)

theorem execInboxRelease_keeps (value : W32) (s : State) : OutKeeps (only [.alarms, .relay, .prompts]) s (execInboxRelease value s) := by
  unfold execInboxRelease
  repeat' (first
    | with_reducible apply Keeps.refl
    | with_reducible assumption
    | with_reducible exact OutKeeps.fault
    | with_reducible exact OutKeeps.refused
    | with_reducible apply OutKeeps.ok
    | with_reducible apply OutKeeps.next
    | with_reducible apply OutKeeps.ite
    | ((with_reducible apply mgrWrite_keeps); focus exact rfl)
    | ((with_reducible apply Keeps.step (inboxFree_keeps ..)); focus exact rfl)
    | with_reducible intro _
    | with_reducible apply Keeps.self
    | with_reducible apply Keeps.ite
    | with_reducible apply Keeps.ite_fst
    | with_reducible refine Keeps.foldl _ (fun _ _ => ?_) ?_
    | extract_lets
    | split
    | dsimp only)

theorem hopBegin_keeps (s : State) (sd : Side) : Keeps (only [.alarms, .jobs, .mem, .buffers, .engines, .keys, .time, .relay, .prompts]) s (hopBegin s
    sd) := by
  unfold hopBegin
  repeat' (first
    | with_reducible apply Keeps.refl
    | with_reducible assumption
    | ((with_reducible apply Keeps.step (State.modHop_keeps ..)); focus exact rfl)
    | ((with_reducible apply Keeps.step (stateHops_keeps ..)); focus exact rfl)
    | ((with_reducible apply Keeps.step (sendProbe_keeps ..)); focus exact rfl)
    | with_reducible apply Keeps.ite
    | with_reducible apply Keeps.ite_fst
    | with_reducible refine Keeps.foldl _ (fun _ _ => ?_) ?_
    | extract_lets
    | split
    | dsimp only)

theorem relayBegin_keeps (s : State) : Keeps (only [.alarms, .jobs, .mem, .buffers, .engines, .keys, .entropy, .time, .relay, .prompts]) s (relayBegin
    s) := by
  unfold relayBegin
  repeat' (first
    | with_reducible apply Keeps.refl
    | with_reducible assumption
    | ((with_reducible apply Keeps.step (State.modRelay_keeps ..)); focus exact rfl)
    | ((with_reducible apply Keeps.step (tryWants_keeps ..)); focus exact rfl)
    | ((with_reducible apply Keeps.step (sendHello_keeps ..)); focus exact rfl)
    | ((with_reducible apply Keeps.step (hopBegin_keeps ..)); focus exact rfl)
    | with_reducible apply Keeps.ite
    | with_reducible apply Keeps.ite_fst
    | with_reducible refine Keeps.foldl _ (fun _ _ => ?_) ?_
    | extract_lets
    | split
    | dsimp only)

theorem relayWrite_keeps (s : State) (off : Nat) (v : W32) : Keeps (only [.mem, .relay, .prompts]) s (relayWrite s off v) := by
  unfold relayWrite
  repeat' (first
    | with_reducible apply Keeps.refl
    | with_reducible assumption
    | ((with_reducible apply Keeps.step (State.modRelay_keeps ..)); focus exact rfl)
    | ((with_reducible apply Keeps.step (mailCmd_keeps ..)); focus exact rfl)
    | ((with_reducible apply Keeps.step (inboxFree_keeps ..)); focus exact rfl)
    | with_reducible apply Keeps.ite
    | with_reducible apply Keeps.ite_fst
    | with_reducible refine Keeps.foldl _ (fun _ _ => ?_) ?_
    | extract_lets
    | split
    | dsimp only)

end Sys2Proof.Machine
end

