-- ==== Sys2Proof/Laws/FrameMigrate.lean ====
section
/-! SUPPORT. Frames of Machine/Migrate: for each operation, the parts of the state it may change. -/

namespace Sys2Proof.Machine

theorem migReads_keeps (s : State) (kind : Nat) (seat : Nat) (va : Nat) (n : Nat) (attr : Nat) : Keeps (only [.mem]) s (migReads s kind seat va n
    attr) := by
  unfold migReads
  repeat' (first
    | with_reducible apply Keeps.refl
    | with_reducible assumption
    | ((with_reducible apply Keeps.step (addRead_keeps ..)); focus exact rfl)
    | with_reducible apply Keeps.ite
    | with_reducible apply Keeps.ite_fst
    | with_reducible refine Keeps.foldl _ (fun _ _ => ?_) ?_
    | extract_lets
    | split
    | dsimp only)

theorem State.modRegs_keeps (s : State) (f : SeatRegs → SeatRegs) : Keeps (only [.seatRegs]) s (State.modRegs s f) := by
  unfold State.modRegs
  repeat' (first
    | with_reducible apply Keeps.refl
    | with_reducible assumption
    | with_reducible apply Keeps.ite
    | with_reducible apply Keeps.ite_fst
    | with_reducible refine Keeps.foldl _ (fun _ _ => ?_) ?_
    | extract_lets
    | split
    | dsimp only
    | ((with_reducible apply Keeps.upd) <;> first | exact .inl rfl | exact .inr rfl | skip))

theorem migNext_keeps (s : State) (n : Nat) : Keeps (only [.seatRegs]) s (migNext s n) := by
  unfold migNext
  repeat' (first
    | with_reducible apply Keeps.refl
    | with_reducible assumption
    | ((with_reducible apply Keeps.step (State.modRegs_keeps ..)); focus exact rfl)
    | with_reducible apply Keeps.ite
    | with_reducible apply Keeps.ite_fst
    | with_reducible refine Keeps.foldl _ (fun _ _ => ?_) ?_
    | extract_lets
    | split
    | dsimp only)

theorem setOffer_keeps (s : State) (seat : Nat) (o : Offer) : Keeps (only [.offers]) s (setOffer s seat o) := by
  unfold setOffer
  repeat' (first
    | with_reducible apply Keeps.refl
    | with_reducible assumption
    | with_reducible apply Keeps.ite
    | with_reducible apply Keeps.ite_fst
    | with_reducible refine Keeps.foldl _ (fun _ _ => ?_) ?_
    | extract_lets
    | split
    | dsimp only
    | ((with_reducible apply Keeps.upd) <;> first | exact .inl rfl | exact .inr rfl | skip))

theorem offerStep_keeps (s : State) (m : Nat) (last : Bool) : Keeps (only [.seats, .seatRegs, .offers, .jobs, .mem, .keys, .entropy, .prompts]) s
    (offerStep s m last) := by
  unfold offerStep
  repeat' (first
    | with_reducible apply Keeps.refl
    | with_reducible assumption
    | ((with_reducible apply OptKeeps2.step (tryDraw_keeps ..)); focus exact rfl)
    | ((with_reducible apply Keeps.step (migNext_keeps ..)); focus exact rfl)
    | ((with_reducible apply Keeps.step (State.modRegs_keeps ..)); focus exact rfl)
    | ((with_reducible apply Keeps.step (addWrites_keeps ..)); focus exact rfl)
    | ((with_reducible apply Keeps.step (setOffer_keeps ..)); focus exact rfl)
    | ((with_reducible apply Keeps.step (migEnd_keeps ..)); focus exact rfl)
    | ((with_reducible apply Keeps.step (State.modSeat_keeps ..)); focus exact rfl)
    | with_reducible refine OptKeeps2.get ?_ (by assumption)
    | with_reducible apply OptKeeps2.some
    | with_reducible apply OptKeeps2.map
    | with_reducible apply Keeps.ite
    | with_reducible apply Keeps.ite_fst
    | with_reducible refine Keeps.foldl _ (fun _ _ => ?_) ?_
    | extract_lets
    | split
    | dsimp only)

theorem saveReads_keeps (s : State) (m : Nat) : Keeps (only [.seats, .seatRegs, .jobs, .mem, .keys, .prompts]) s (saveReads s m) := by
  unfold saveReads
  repeat' (first
    | with_reducible apply Keeps.refl
    | with_reducible assumption
    | ((with_reducible apply Keeps.step (migEnd_keeps ..)); focus exact rfl)
    | ((with_reducible apply Keeps.step (migNext_keeps ..)); focus exact rfl)
    | ((with_reducible apply Keeps.step (migReads_keeps ..)); focus exact rfl)
    | with_reducible apply Keeps.ite
    | with_reducible apply Keeps.ite_fst
    | with_reducible refine Keeps.foldl _ (fun _ _ => ?_) ?_
    | extract_lets
    | split
    | dsimp only)

theorem blobReads_keeps (m : Nat) (s : State) (h : Nat) : Keeps (only [.mem]) s (blobReads m s h) := by
  unfold blobReads
  repeat' (first
    | with_reducible apply Keeps.refl
    | with_reducible assumption
    | ((with_reducible apply Keeps.step (addRead_keeps ..)); focus exact rfl)
    | with_reducible apply Keeps.ite
    | with_reducible apply Keeps.ite_fst
    | with_reducible refine Keeps.foldl _ (fun _ _ => ?_) ?_
    | extract_lets
    | split
    | dsimp only)

theorem saveBlobs_keeps (s : State) (m : Nat) : Keeps (only [.seatRegs, .mem]) s (saveBlobs s m) := by
  unfold saveBlobs
  repeat' (first
    | with_reducible apply Keeps.refl
    | with_reducible assumption
    | ((with_reducible apply Keeps.step (blobReads_keeps ..)); focus exact rfl)
    | ((with_reducible apply Keeps.step (migNext_keeps ..)); focus exact rfl)
    | with_reducible apply Keeps.ite
    | with_reducible apply Keeps.ite_fst
    | with_reducible refine Keeps.foldl _ (fun _ _ => ?_) ?_
    | extract_lets
    | split
    | dsimp only)

theorem saveScan_keeps (s : State) (m : Nat) : Keeps (only [.seatRegs, .mem]) s (saveScan s m) := by
  unfold saveScan
  repeat' (first
    | with_reducible apply Keeps.refl
    | with_reducible assumption
    | ((with_reducible apply Keeps.step (migNext_keeps ..)); focus exact rfl)
    | ((with_reducible apply Keeps.step (State.modRegs_keeps ..)); focus exact rfl)
    | ((with_reducible apply Keeps.step (addRead_keeps ..)); focus exact rfl)
    | with_reducible apply Keeps.ite
    | with_reducible apply Keeps.ite_fst
    | with_reducible refine Keeps.foldl _ (fun _ _ => ?_) ?_
    | extract_lets
    | split
    | dsimp only)

theorem saveSlots_keeps (s : State) (m : Nat) : Keeps (only [.seats, .seatRegs, .jobs, .mem, .keys, .prompts]) s (saveSlots s m) := by
  unfold saveSlots
  repeat' (first
    | with_reducible apply Keeps.refl
    | with_reducible assumption
    | ((with_reducible apply Keeps.step (State.modRegs_keeps ..)); focus exact rfl)
    | ((with_reducible apply Keeps.step (migEnd_keeps ..)); focus exact rfl)
    | ((with_reducible apply Keeps.step (migNext_keeps ..)); focus exact rfl)
    | ((with_reducible apply Keeps.step (issueReads_keeps ..)); focus exact rfl)
    | with_reducible apply Keeps.ite
    | with_reducible apply Keeps.ite_fst
    | with_reducible refine Keeps.foldl _ (fun _ _ => ?_) ?_
    | extract_lets
    | split
    | dsimp only)

theorem saveWrite_keeps (s : State) (m : Nat) : Keeps (only [.seatRegs, .mem, .keys, .entropy]) s (saveWrite s m) := by
  unfold saveWrite
  repeat' (first
    | with_reducible apply Keeps.refl
    | with_reducible assumption
    | ((with_reducible apply OptKeeps2.step (tryDraw_keeps ..)); focus exact rfl)
    | ((with_reducible apply Keeps.step (holdSeatKeys_keeps ..)); focus exact rfl)
    | ((with_reducible apply Keeps.step (addWrites_keeps ..)); focus exact rfl)
    | ((with_reducible apply Keeps.step (migNext_keeps ..)); focus exact rfl)
    | ((with_reducible apply Keeps.step (State.modRegs_keeps ..)); focus exact rfl)
    | with_reducible refine OptKeeps2.get ?_ (by assumption)
    | with_reducible apply OptKeeps2.some
    | with_reducible apply OptKeeps2.map
    | with_reducible apply Keeps.ite
    | with_reducible apply Keeps.ite_fst
    | with_reducible refine Keeps.foldl _ (fun _ _ => ?_) ?_
    | extract_lets
    | split
    | dsimp only)

theorem saveInvalid_keeps (s : State) : Keeps (only [.seatRegs, .mem, .front]) s (saveInvalid s) := by
  unfold saveInvalid
  repeat' (first
    | with_reducible apply Keeps.refl
    | with_reducible assumption
    | ((with_reducible apply Keeps.step (migNext_keeps ..)); focus exact rfl)
    | ((with_reducible apply Keeps.step (dropAssoc_keeps ..)); focus exact rfl)
    | ((with_reducible apply Keeps.step (addWrite_keeps ..)); focus exact rfl)
    | with_reducible apply Keeps.ite
    | with_reducible apply Keeps.ite_fst
    | with_reducible refine Keeps.foldl _ (fun _ _ => ?_) ?_
    | extract_lets
    | split
    | dsimp only)

theorem saveEnd_keeps (s : State) (m : Nat) : Keeps (only [.seats, .seatRegs, .jobs, .keys, .prompts]) s (saveEnd s m) := by
  unfold saveEnd
  repeat' (first
    | with_reducible apply Keeps.refl
    | with_reducible assumption
    | ((with_reducible apply Keeps.step (State.dropJob_keeps ..)); focus exact rfl)
    | ((with_reducible apply Keeps.step (freeSpill_keeps ..)); focus exact rfl)
    | ((with_reducible apply Keeps.step (migEnd_keeps ..)); focus exact rfl)
    | ((with_reducible apply Keeps.step (State.modSeat_keeps ..)); focus exact rfl)
    | with_reducible apply Keeps.ite
    | with_reducible apply Keeps.ite_fst
    | with_reducible refine Keeps.foldl _ (fun _ _ => ?_) ?_
    | extract_lets
    | split
    | dsimp only)

theorem saveStep_keeps (s : State) (m : Nat) (last : Bool) : Keeps (only [.seats, .seatRegs, .jobs, .mem, .keys, .entropy, .front, .prompts]) s
    (saveStep s m last) := by
  unfold saveStep
  repeat' (first
    | with_reducible apply Keeps.refl
    | with_reducible assumption
    | ((with_reducible apply Keeps.step (saveReads_keeps ..)); focus exact rfl)
    | ((with_reducible apply Keeps.step (saveBlobs_keeps ..)); focus exact rfl)
    | ((with_reducible apply Keeps.step (saveScan_keeps ..)); focus exact rfl)
    | ((with_reducible apply Keeps.step (saveSlots_keeps ..)); focus exact rfl)
    | ((with_reducible apply Keeps.step (saveWrite_keeps ..)); focus exact rfl)
    | ((with_reducible apply Keeps.step (saveInvalid_keeps ..)); focus exact rfl)
    | ((with_reducible apply Keeps.step (saveEnd_keeps ..)); focus exact rfl)
    | with_reducible apply Keeps.ite
    | with_reducible apply Keeps.ite_fst
    | with_reducible refine Keeps.foldl _ (fun _ _ => ?_) ?_
    | extract_lets
    | split
    | dsimp only)

theorem restoreHead_keeps (s : State) (m : Nat) : Keeps (only [.seats, .seatRegs, .jobs, .mem, .keys, .prompts]) s (restoreHead s m) := by
  unfold restoreHead
  repeat' (first
    | with_reducible apply Keeps.refl
    | with_reducible assumption
    | ((with_reducible apply Keeps.step (migEnd_keeps ..)); focus exact rfl)
    | ((with_reducible apply Keeps.step (migNext_keeps ..)); focus exact rfl)
    | ((with_reducible apply Keeps.step (migReads_keeps ..)); focus exact rfl)
    | ((with_reducible apply Keeps.step (State.modRegs_keeps ..)); focus exact rfl)
    | with_reducible apply Keeps.ite
    | with_reducible apply Keeps.ite_fst
    | with_reducible refine Keeps.foldl _ (fun _ _ => ?_) ?_
    | extract_lets
    | split
    | dsimp only)

theorem restoreOpen_keeps (s : State) (m : Nat) : Keeps (only [.seats, .seatRegs, .jobs, .mem, .keys, .prompts]) s (restoreOpen s m) := by
  unfold restoreOpen
  repeat' (first
    | with_reducible apply Keeps.refl
    | with_reducible assumption
    | ((with_reducible apply Keeps.step (migEnd_keeps ..)); focus exact rfl)
    | ((with_reducible apply Keeps.step (State.modRegs_keeps ..)); focus exact rfl)
    | ((with_reducible apply Keeps.step (migNext_keeps ..)); focus exact rfl)
    | ((with_reducible apply Keeps.step (addRead_keeps ..)); focus exact rfl)
    | with_reducible apply Keeps.ite
    | with_reducible apply Keeps.ite_fst
    | with_reducible refine Keeps.foldl _ (fun _ _ => ?_) ?_
    | extract_lets
    | split
    | dsimp only)

theorem restoreKey_keeps (m : Nat) (s : State) (b : Bytes) : Keeps (only [.mem, .keys]) s (restoreKey m s b) := by
  unfold restoreKey
  repeat' (first
    | with_reducible apply Keeps.refl
    | with_reducible assumption
    | ((with_reducible apply Keeps.step (sealEntry_keeps ..)); focus exact rfl)
    | ((with_reducible apply Keeps.step (addWrites_keeps ..)); focus exact rfl)
    | with_reducible refine Keeps.fst (by assumption) ?_
    | with_reducible apply Keeps.ite
    | with_reducible apply Keeps.ite_fst
    | with_reducible refine Keeps.foldl _ (fun _ _ => ?_) ?_
    | extract_lets
    | split
    | dsimp only)

theorem restoreJob_keeps (m : Nat) (s : State) (b : Bytes) : Keeps (only [.jobs, .nextJob, .mem, .place, .keys]) s (restoreJob m s b) := by
  unfold restoreJob
  repeat' (first
    | with_reducible apply Keeps.refl
    | with_reducible assumption
    | ((with_reducible apply Keeps.step (wrapRec_keeps ..)); focus exact rfl)
    | ((with_reducible apply Keeps.step (addWrite_keeps ..)); focus exact rfl)
    | ((with_reducible apply Keeps.step (State.modKeys_keeps ..)); focus exact rfl)
    | with_reducible refine Keeps.fst (by assumption) ?_
    | with_reducible apply Keeps.ite
    | with_reducible apply Keeps.ite_fst
    | with_reducible refine Keeps.foldl _ (fun _ _ => ?_) ?_
    | extract_lets
    | split
    | dsimp only
    | ((with_reducible apply Keeps.upd) <;> first | exact .inl rfl | exact .inr rfl | skip))

theorem restoreWrite_keeps (s : State) (m : Nat) : Keeps (only [.seats, .seatRegs, .jobs, .nextJob, .mem, .place, .keys, .front, .prompts]) s
    (restoreWrite s m) := by
  unfold restoreWrite
  repeat' (first
    | with_reducible apply Keeps.refl
    | with_reducible assumption
    | ((with_reducible apply Keeps.step (migEnd_keeps ..)); focus exact rfl)
    | ((with_reducible apply Keeps.step (restoreKey_keeps ..)); focus exact rfl)
    | ((with_reducible apply Keeps.step (restoreJob_keeps ..)); focus exact rfl)
    | ((with_reducible apply Keeps.step (dropAssoc_keeps ..)); focus exact rfl)
    | ((with_reducible apply Keeps.step (addWrite_keeps ..)); focus exact rfl)
    | ((with_reducible apply Keeps.step (migNext_keeps ..)); focus exact rfl)
    | with_reducible apply Keeps.ite
    | with_reducible apply Keeps.ite_fst
    | with_reducible refine Keeps.foldl _ (fun _ _ => ?_) ?_
    | extract_lets
    | split
    | dsimp only)

theorem restoreStates_keeps (s : State) : Keeps (only [.seatRegs, .mem]) s (restoreStates s) := by
  unfold restoreStates
  repeat' (first
    | with_reducible apply Keeps.refl
    | with_reducible assumption
    | ((with_reducible apply Keeps.step (migNext_keeps ..)); focus exact rfl)
    | ((with_reducible apply Keeps.step (addWrite_keeps ..)); focus exact rfl)
    | with_reducible apply Keeps.ite
    | with_reducible apply Keeps.ite_fst
    | with_reducible refine Keeps.foldl _ (fun _ _ => ?_) ?_
    | extract_lets
    | split
    | dsimp only)

theorem restoreRings_keeps (s : State) (m : Nat) : Keeps (only [.rings]) s (restoreRings s m) := by
  unfold restoreRings
  repeat' (first
    | with_reducible apply Keeps.refl
    | with_reducible assumption
    | ((with_reducible apply Keeps.step (State.setRing_keeps ..)); focus exact rfl)
    | with_reducible apply Keeps.ite
    | with_reducible apply Keeps.ite_fst
    | with_reducible refine Keeps.foldl _ (fun _ _ => ?_) ?_
    | extract_lets
    | split
    | dsimp only)

theorem restoreEnd_keeps (s : State) (m : Nat) : Keeps (only [.seats, .rings, .seatRegs, .offers, .jobs, .keys, .prompts]) s (restoreEnd s m) := by
  unfold restoreEnd
  repeat' (first
    | with_reducible apply Keeps.refl
    | with_reducible assumption
    | ((with_reducible apply Keeps.step (restoreRings_keeps ..)); focus exact rfl)
    | ((with_reducible apply Keeps.step (migEnd_keeps ..)); focus exact rfl)
    | ((with_reducible apply Keeps.step (setOffer_keeps ..)); focus exact rfl)
    | ((with_reducible apply Keeps.step (State.modSeat_keeps ..)); focus exact rfl)
    | with_reducible apply Keeps.ite
    | with_reducible apply Keeps.ite_fst
    | with_reducible refine Keeps.foldl _ (fun _ _ => ?_) ?_
    | extract_lets
    | split
    | dsimp only)

theorem restoreStep_keeps (s : State) (m : Nat) (last : Bool) : Keeps (only [.seats, .rings, .seatRegs, .offers, .jobs, .nextJob, .mem, .place, .keys,
    .front, .prompts]) s (restoreStep s m last) := by
  unfold restoreStep
  repeat' (first
    | with_reducible apply Keeps.refl
    | with_reducible assumption
    | ((with_reducible apply Keeps.step (restoreHead_keeps ..)); focus exact rfl)
    | ((with_reducible apply Keeps.step (restoreOpen_keeps ..)); focus exact rfl)
    | ((with_reducible apply Keeps.step (restoreWrite_keeps ..)); focus exact rfl)
    | ((with_reducible apply Keeps.step (restoreStates_keeps ..)); focus exact rfl)
    | ((with_reducible apply Keeps.step (restoreEnd_keeps ..)); focus exact rfl)
    | with_reducible apply Keeps.ite
    | with_reducible apply Keeps.ite_fst
    | with_reducible refine Keeps.foldl _ (fun _ _ => ?_) ?_
    | extract_lets
    | split
    | dsimp only)

theorem migStep_keeps (s : State) (last : Bool) : Keeps (only [.seats, .rings, .seatRegs, .offers, .jobs, .nextJob, .mem, .place, .keys, .entropy,
    .front, .prompts]) s (migStep s last) := by
  unfold migStep
  repeat' (first
    | with_reducible apply Keeps.refl
    | with_reducible assumption
    | ((with_reducible apply Keeps.step (offerStep_keeps ..)); focus exact rfl)
    | ((with_reducible apply Keeps.step (saveStep_keeps ..)); focus exact rfl)
    | ((with_reducible apply Keeps.step (restoreStep_keeps ..)); focus exact rfl)
    | with_reducible apply Keeps.ite
    | with_reducible apply Keeps.ite_fst
    | with_reducible refine Keeps.foldl _ (fun _ _ => ?_) ?_
    | extract_lets
    | split
    | dsimp only)

theorem migFirst_keeps (s : State) (m : Nat) : Keeps (only [.mem]) s (migFirst s m) := by
  unfold migFirst
  repeat' (first
    | with_reducible apply Keeps.refl
    | with_reducible assumption
    | ((with_reducible apply Keeps.step (migReads_keeps ..)); focus exact rfl)
    | with_reducible apply Keeps.ite
    | with_reducible apply Keeps.ite_fst
    | with_reducible refine Keeps.foldl _ (fun _ _ => ?_) ?_
    | extract_lets
    | split
    | dsimp only)

theorem migTake_keeps (s : State) : Keeps (only [.seatRegs, .mem]) s (migTake s) := by
  unfold migTake
  repeat' (first
    | with_reducible apply Keeps.refl
    | with_reducible assumption
    | ((with_reducible apply Keeps.step (migFirst_keeps ..)); focus exact rfl)
    | ((with_reducible apply Keeps.step (State.modRegs_keeps ..)); focus exact rfl)
    | with_reducible apply Keeps.ite
    | with_reducible apply Keeps.ite_fst
    | with_reducible refine Keeps.foldl _ (fun _ _ => ?_) ?_
    | extract_lets
    | split
    | dsimp only)

theorem migGo_keeps (s : State) (last : Bool) : Keeps (only [.seats, .rings, .seatRegs, .offers, .jobs, .nextJob, .mem, .place, .keys, .entropy,
    .front, .prompts]) s (migGo s last) := by
  unfold migGo
  repeat' (first
    | with_reducible apply Keeps.refl
    | with_reducible assumption
    | ((with_reducible apply Keeps.step (migStep_keeps ..)); focus exact rfl)
    | ((with_reducible apply Keeps.step (migTake_keeps ..)); focus exact rfl)
    | with_reducible apply Keeps.ite
    | with_reducible apply Keeps.ite_fst
    | with_reducible refine Keeps.foldl _ (fun _ _ => ?_) ?_
    | extract_lets
    | split
    | dsimp only)

theorem migBegin_keeps (s : State) (m : Nat) (t : Transit) : Keeps (only [.seats, .rings, .seatRegs, .offers, .jobs, .nextJob, .mem, .place, .keys,
    .entropy, .front, .prompts]) s (migBegin s m t) := by
  unfold migBegin
  repeat' (first
    | with_reducible apply Keeps.refl
    | with_reducible assumption
    | ((with_reducible apply Keeps.step (State.modSeat_keeps ..)); focus exact rfl)
    | ((with_reducible apply Keeps.step (migGo_keeps ..)); focus exact rfl)
    | ((with_reducible apply Keeps.step (State.modRegs_keeps ..)); focus exact rfl)
    | with_reducible apply Keeps.ite
    | with_reducible apply Keeps.ite_fst
    | with_reducible refine Keeps.foldl _ (fun _ _ => ?_) ?_
    | extract_lets
    | split
    | dsimp only)

theorem migAbandon_keeps (s : State) (m : Nat) : Keeps (only [.seatRegs, .mem]) s (migAbandon s m) := by
  unfold migAbandon
  repeat' (first
    | with_reducible apply Keeps.refl
    | with_reducible assumption
    | ((with_reducible apply Keeps.step (State.modRegs_keeps ..)); focus exact rfl)
    | ((with_reducible apply Keeps.step (dropMig_keeps ..)); focus exact rfl)
    | with_reducible apply Keeps.ite
    | with_reducible apply Keeps.ite_fst
    | with_reducible refine Keeps.foldl _ (fun _ _ => ?_) ?_
    | extract_lets
    | split
    | dsimp only)

end Sys2Proof.Machine
end

