-- ==== Sys2Proof/Laws/FrameSeats.lean ====
section
/-! SUPPORT. Frames of Machine/Seats: for each operation, the parts of the state it may change. -/

namespace Sys2Proof.Machine

theorem seatResult_keeps (s : State) (cmd : Nat) (seat : Nat) (r : Nat) : Keeps (only [.seatRegs]) s (seatResult s cmd seat r) := by
  unfold seatResult
  repeat' (first
    | with_reducible apply Keeps.refl
    | with_reducible assumption
    | ((with_reducible apply Keeps.step (State.modRegs_keeps ..)); focus exact rfl)
    | with_reducible apply Keeps.ite
    | with_reducible apply Keeps.ite_fst
    | with_reducible refine Keeps.foldl _ (fun _ _ => ?_) ?_
    | extract_lets
    | split
    | dsimp only)

theorem onSlots_keeps (s : State) (seat : Nat) (f : Ring → Ring) : Keeps (only [.rings]) s (onSlots s seat f) := by
  unfold onSlots
  repeat' (first
    | with_reducible apply Keeps.refl
    | with_reducible assumption
    | ((with_reducible apply Keeps.step (State.modRing_keeps ..)); focus exact rfl)
    | with_reducible apply Keeps.ite
    | with_reducible apply Keeps.ite_fst
    | with_reducible refine Keeps.foldl _ (fun _ _ => ?_) ?_
    | extract_lets
    | split
    | dsimp only)

theorem squash_keeps (s : State) (seat : Nat) : Keeps (only [.jobs, .mem, .buffers, .engines, .keys]) s (squash s seat) := by
  unfold squash
  repeat' (first
    | with_reducible apply Keeps.refl
    | with_reducible assumption
    | ((with_reducible apply Keeps.step (stopWhere_keeps ..)); focus exact rfl)
    | with_reducible apply Keeps.ite
    | with_reducible apply Keeps.ite_fst
    | with_reducible refine Keeps.foldl _ (fun _ _ => ?_) ?_
    | extract_lets
    | split
    | dsimp only)

theorem curtainCmd_keeps (s : State) (seat : Nat) (sq : Bool) : Keeps (only [.seats, .rings, .jobs, .mem, .buffers, .engines, .keys]) s (curtainCmd s
    seat sq) := by
  unfold curtainCmd
  repeat' (first
    | with_reducible apply Keeps.refl
    | with_reducible assumption
    | ((with_reducible apply Keeps.step (squash_keeps ..)); focus exact rfl)
    | ((with_reducible apply Keeps.step (State.modSeat_keeps ..)); focus exact rfl)
    | ((with_reducible apply Keeps.step (onSlots_keeps ..)); focus exact rfl)
    | with_reducible apply Keeps.ite
    | with_reducible apply Keeps.ite_fst
    | with_reducible refine Keeps.foldl _ (fun _ _ => ?_) ?_
    | extract_lets
    | split
    | dsimp only)

theorem curtainQuiet_keeps (s : State) (seat : Nat) : Keeps (only [.seats, .rings, .prompts]) s (curtainQuiet s seat) := by
  unfold curtainQuiet
  repeat' (first
    | with_reducible apply Keeps.refl
    | with_reducible assumption
    | ((with_reducible apply Keeps.step (vector_keeps ..)); focus exact rfl)
    | ((with_reducible apply Keeps.step (State.modSeat_keeps ..)); focus exact rfl)
    | ((with_reducible apply Keeps.step (onSlots_keeps ..)); focus exact rfl)
    | with_reducible apply Keeps.ite
    | with_reducible apply Keeps.ite_fst
    | with_reducible refine Keeps.foldl _ (fun _ _ => ?_) ?_
    | extract_lets
    | split
    | dsimp only)

theorem restartCmd_keeps (s : State) (seat : Nat) : Keeps (only [.seats, .rings, .mem, .entropy]) s (restartCmd s seat) := by
  unfold restartCmd
  repeat' (first
    | with_reducible apply Keeps.refl
    | with_reducible assumption
    | ((with_reducible apply Keeps.step (applySeatX_keeps ..)); focus exact rfl)
    | ((with_reducible apply Keeps.step (onSlots_keeps ..)); focus exact rfl)
    | ((with_reducible apply Keeps.step (instRequest_keeps ..)); focus exact rfl)
    | ((with_reducible apply Keeps.step (State.modSeat_keeps ..)); focus exact rfl)
    | with_reducible apply Keeps.ite
    | with_reducible apply Keeps.ite_fst
    | with_reducible refine Keeps.foldl _ (fun _ _ => ?_) ?_
    | extract_lets
    | split
    | dsimp only)

theorem dropRegions_keeps (s : State) (seat : Nat) : Keeps (only [.buffers]) s (dropRegions s seat) := by
  unfold dropRegions
  repeat' (first
    | with_reducible apply Keeps.refl
    | with_reducible assumption
    | with_reducible apply Keeps.ite
    | with_reducible apply Keeps.ite_fst
    | with_reducible refine Keeps.foldl _ (fun _ _ => ?_) ?_
    | extract_lets
    | split
    | dsimp only
    | ((with_reducible apply Keeps.upd) <;> first | exact .inl rfl | exact .inr rfl | skip))

theorem startCmd_keeps (s : State) (seat : Nat) : Keeps (only [.seats, .rings, .mem, .entropy]) s (startCmd s seat) := by
  unfold startCmd
  repeat' (first
    | with_reducible apply Keeps.refl
    | with_reducible assumption
    | ((with_reducible apply Keeps.step (applySeatX_keeps ..)); focus exact rfl)
    | ((with_reducible apply Keeps.step (onSlots_keeps ..)); focus exact rfl)
    | ((with_reducible apply Keeps.step (instRequest_keeps ..)); focus exact rfl)
    | ((with_reducible apply Keeps.step (State.modSeat_keeps ..)); focus exact rfl)
    | with_reducible apply Keeps.ite
    | with_reducible apply Keeps.ite_fst
    | with_reducible refine Keeps.foldl _ (fun _ _ => ?_) ?_
    | extract_lets
    | split
    | dsimp only)

theorem disableCmd_keeps (s : State) (seat : Nat) : Keeps (only [.seats, .rings, .offers, .mem, .buffers, .keys, .entropy]) s (disableCmd s seat) :=
    by
  unfold disableCmd
  repeat' (first
    | with_reducible apply Keeps.refl
    | with_reducible assumption
    | ((with_reducible apply Keeps.step (tlbDropSeat_keeps ..)); focus exact rfl)
    | ((with_reducible apply Keeps.step (eraseSeatKeys_keeps ..)); focus exact rfl)
    | ((with_reducible apply Keeps.step (dropRegions_keeps ..)); focus exact rfl)
    | ((with_reducible apply Keeps.step (setOffer_keeps ..)); focus exact rfl)
    | ((with_reducible apply Keeps.step (State.modSeat_keeps ..)); focus exact rfl)
    | with_reducible apply Keeps.ite
    | with_reducible apply Keeps.ite_fst
    | with_reducible refine Keeps.foldl _ (fun _ _ => ?_) ?_
    | extract_lets
    | split
    | dsimp only
    | ((with_reducible apply Keeps.upd) <;> first | exact .inl rfl | exact .inr rfl | skip))

theorem cancelAway_keeps (s : State) (j : Job) : Keeps (only [.relay]) s (cancelAway s j) := by
  unfold cancelAway
  repeat' (first
    | with_reducible apply Keeps.refl
    | with_reducible assumption
    | ((with_reducible apply Keeps.step (sendTo_keeps ..)); focus exact rfl)
    | with_reducible apply Keeps.ite
    | with_reducible apply Keeps.ite_fst
    | with_reducible refine Keeps.foldl _ (fun _ _ => ?_) ?_
    | extract_lets
    | split
    | dsimp only)

theorem resetCmd_keeps (s : State) (seat : Nat) : Keeps (only [.alarms, .seats, .rings, .seatRegs, .jobs, .mem, .buffers, .engines, .keys, .entropy,
    .relay, .prompts]) s (resetCmd s seat) := by
  unfold resetCmd
  repeat' (first
    | with_reducible apply Keeps.refl
    | with_reducible assumption
    | ((with_reducible apply Keeps.step (migAbandon_keeps ..)); focus exact rfl)
    | ((with_reducible apply Keeps.step (stopWhere_keeps ..)); focus exact rfl)
    | ((with_reducible apply Keeps.step (cancelAway_keeps ..)); focus exact rfl)
    | ((with_reducible apply Keeps.step (engineLeave_keeps ..)); focus exact rfl)
    | ((with_reducible apply Keeps.step (freeSpill_keeps ..)); focus exact rfl)
    | ((with_reducible apply Keeps.step (lastAborted_keeps ..)); focus exact rfl)
    | ((with_reducible apply Keeps.step (tlbDropSeat_keeps ..)); focus exact rfl)
    | ((with_reducible apply Keeps.step (eraseSeatKeys_keeps ..)); focus exact rfl)
    | ((with_reducible apply Keeps.step (dropRegions_keeps ..)); focus exact rfl)
    | ((with_reducible apply Keeps.step (onSlots_keeps ..)); focus exact rfl)
    | ((with_reducible apply Keeps.step (State.modSeat_keeps ..)); focus exact rfl)
    | with_reducible apply Keeps.ite
    | with_reducible apply Keeps.ite_fst
    | with_reducible refine Keeps.foldl _ (fun _ _ => ?_) ?_
    | extract_lets
    | split
    | dsimp only
    | ((with_reducible apply Keeps.upd) <;> first | exact .inl rfl | exact .inr rfl | skip))

theorem resetReport_keeps (s : State) (seat : Nat) : Keeps (only [.alarms, .seats, .entropy, .prompts]) s (resetReport s seat) := by
  unfold resetReport
  repeat' (first
    | with_reducible apply Keeps.refl
    | with_reducible assumption
    | ((with_reducible apply Keeps.step (State.modSeat_keeps ..)); focus exact rfl)
    | ((with_reducible apply Keeps.step (zeroInst_keeps ..)); focus exact rfl)
    | ((with_reducible apply Keeps.step (alarmC_keeps ..)); focus exact rfl)
    | ((with_reducible apply Keeps.step (vector_keeps ..)); focus exact rfl)
    | with_reducible apply Keeps.ite
    | with_reducible apply Keeps.ite_fst
    | with_reducible refine Keeps.foldl _ (fun _ _ => ?_) ?_
    | extract_lets
    | split
    | dsimp only)

theorem writesClosed_keeps (s : State) (seat : Nat) : Keeps (only [.seats]) s (writesClosed s seat) := by
  unfold writesClosed
  repeat' (first
    | with_reducible apply Keeps.refl
    | with_reducible assumption
    | ((with_reducible apply Keeps.step (State.modSeat_keeps ..)); focus exact rfl)
    | with_reducible apply Keeps.ite
    | with_reducible apply Keeps.ite_fst
    | with_reducible refine Keeps.foldl _ (fun _ _ => ?_) ?_
    | extract_lets
    | split
    | dsimp only)

theorem flushOf_keeps (s : State) (j : Job) : Keeps (only [.alarms, .jobs, .mem, .place, .buffers, .keys, .prompts]) s (flushOf s j) := by
  unfold flushOf
  repeat' (first
    | with_reducible apply Keeps.refl
    | with_reducible assumption
    | ((with_reducible apply Keeps.step (spillJob_keeps ..)); focus exact rfl)
    | with_reducible apply Keeps.ite
    | with_reducible apply Keeps.ite_fst
    | with_reducible refine Keeps.foldl _ (fun _ _ => ?_) ?_
    | extract_lets
    | split
    | dsimp only)

theorem freezeFlush_keeps (s : State) (seat : Nat) : Keeps (only [.alarms, .jobs, .mem, .place, .buffers, .keys, .prompts]) s (freezeFlush s seat) :=
    by
  unfold freezeFlush
  repeat' (first
    | with_reducible apply Keeps.refl
    | with_reducible assumption
    | ((with_reducible apply Keeps.step (flushOf_keeps ..)); focus exact rfl)
    | with_reducible apply Keeps.ite
    | with_reducible apply Keeps.ite_fst
    | with_reducible refine Keeps.foldl _ (fun _ _ => ?_) ?_
    | extract_lets
    | split
    | dsimp only)

theorem freezeCmd_keeps (s : State) (seat : Nat) : Keeps (only [.alarms, .seats, .jobs, .mem, .place, .buffers, .keys, .prompts]) s (freezeCmd s seat)
    := by
  unfold freezeCmd
  repeat' (first
    | with_reducible apply Keeps.refl
    | with_reducible assumption
    | ((with_reducible apply Keeps.step (freezeFlush_keeps ..)); focus exact rfl)
    | ((with_reducible apply Keeps.step (State.modSeat_keeps ..)); focus exact rfl)
    | with_reducible apply Keeps.ite
    | with_reducible apply Keeps.ite_fst
    | with_reducible refine Keeps.foldl _ (fun _ _ => ?_) ?_
    | extract_lets
    | split
    | dsimp only)

theorem seatAct_keeps (s : State) (cmd seat : Nat) (sq : Bool) : AnsKeeps (allBut [.pending, .params, .start, .journal, .window, .time, .cust,
    .freeCount]) s (seatAct s cmd seat sq) := by
  unfold seatAct
  dsimp only
  split
  all_goals
    repeat' (first
    | with_reducible apply Keeps.refl
    | with_reducible assumption
    | with_reducible exact AnsKeeps.error
    | with_reducible apply AnsKeeps.ok
    | with_reducible apply AnsKeeps.ite
    | ((with_reducible apply Keeps.step (State.modSeat_keeps ..)); focus exact rfl)
    | ((with_reducible apply Keeps.step (startCmd_keeps ..)); focus exact rfl)
    | ((with_reducible apply Keeps.step (curtainCmd_keeps ..)); focus exact rfl)
    | ((with_reducible apply Keeps.step (restartCmd_keeps ..)); focus exact rfl)
    | ((with_reducible apply Keeps.step (resetCmd_keeps ..)); focus exact rfl)
    | ((with_reducible apply Keeps.step (disableCmd_keeps ..)); focus exact rfl)
    | ((with_reducible apply Keeps.step (freezeCmd_keeps ..)); focus exact rfl)
    | ((with_reducible apply Keeps.step (migBegin_keeps ..)); focus exact rfl)
    | ((with_reducible apply Keeps.step (setOffer_keeps ..)); focus exact rfl)
    | with_reducible apply Keeps.ite
    | with_reducible apply Keeps.ite_fst
    | with_reducible refine Keeps.foldl _ (fun _ _ => ?_) ?_
    | extract_lets
    | split
    | dsimp only)

theorem seatCmd_keeps (s : State) (cmd : Nat) (seat : Nat) (sq : Bool) : Keeps (allBut [.pending, .params, .start, .journal, .window, .time, .cust,
    .freeCount]) s (seatCmd s cmd seat sq) := by
  unfold seatCmd
  repeat' (first
    | with_reducible apply Keeps.refl
    | with_reducible assumption
    | ((with_reducible apply Keeps.step (seatResult_keeps ..)); focus exact rfl)
    | with_reducible refine Keeps.step ((seatAct_keeps _ _ _ _).get (by assumption)) (by decide) ?_
    | with_reducible apply Keeps.ite
    | with_reducible apply Keeps.ite_fst
    | with_reducible refine Keeps.foldl _ (fun _ _ => ?_) ?_
    | extract_lets
    | split
    | dsimp only)

theorem seatExec_keeps (cmd : Nat) (seat : Nat) (sq : Bool) (s : State) : OutKeeps (allBut [.pending, .params, .journal, .window, .time, .cust]) s
    (seatExec cmd seat sq s) := by
  unfold seatExec
  repeat' (first
    | with_reducible apply Keeps.refl
    | with_reducible assumption
    | with_reducible exact OutKeeps.fault
    | with_reducible exact OutKeeps.refused
    | with_reducible apply OutKeeps.ok
    | with_reducible apply OutKeeps.next
    | with_reducible apply OutKeeps.ite
    | ((with_reducible apply Keeps.step (carryAll_keeps ..)); focus exact rfl)
    | ((with_reducible apply mgrWrite_keeps); focus exact rfl)
    | ((with_reducible apply Keeps.step (seatCmd_keeps ..)); focus exact rfl)
    | with_reducible intro _
    | with_reducible apply Keeps.self
    | with_reducible apply Keeps.ite
    | with_reducible apply Keeps.ite_fst
    | with_reducible refine Keeps.foldl _ (fun _ _ => ?_) ?_
    | extract_lets
    | split
    | dsimp only)

theorem execConfigure_keeps (seat : Nat) (s : State) : OutKeeps (allBut [.pending, .params, .journal, .window, .time, .cust]) s (execConfigure seat s)
    := by
  unfold execConfigure
  repeat' (first
    | with_reducible apply Keeps.refl
    | with_reducible assumption
    | with_reducible exact OutKeeps.fault
    | with_reducible exact OutKeeps.refused
    | with_reducible apply OutKeeps.ok
    | with_reducible apply OutKeeps.next
    | with_reducible apply OutKeeps.ite
    | ((with_reducible apply OutKeeps.mono (seatExec_keeps ..)); focus exact rfl)
    | with_reducible apply Keeps.ite
    | with_reducible apply Keeps.ite_fst
    | with_reducible refine Keeps.foldl _ (fun _ _ => ?_) ?_
    | extract_lets
    | split
    | dsimp only)

theorem execStart_keeps (seat : Nat) (s : State) : OutKeeps (allBut [.pending, .params, .journal, .window, .time, .cust]) s (execStart seat s) := by
  unfold execStart
  repeat' (first
    | with_reducible apply Keeps.refl
    | with_reducible assumption
    | with_reducible exact OutKeeps.fault
    | with_reducible exact OutKeeps.refused
    | with_reducible apply OutKeeps.ok
    | with_reducible apply OutKeeps.next
    | with_reducible apply OutKeeps.ite
    | ((with_reducible apply OutKeeps.mono (seatExec_keeps ..)); focus exact rfl)
    | with_reducible apply Keeps.ite
    | with_reducible apply Keeps.ite_fst
    | with_reducible refine Keeps.foldl _ (fun _ _ => ?_) ?_
    | extract_lets
    | split
    | dsimp only)

theorem execCurtain_keeps (seat : Nat) (squash : Bool) (s : State) : OutKeeps (allBut [.pending, .params, .journal, .window, .time, .cust]) s
    (execCurtain seat squash s) := by
  unfold execCurtain
  repeat' (first
    | with_reducible apply Keeps.refl
    | with_reducible assumption
    | with_reducible exact OutKeeps.fault
    | with_reducible exact OutKeeps.refused
    | with_reducible apply OutKeeps.ok
    | with_reducible apply OutKeeps.next
    | with_reducible apply OutKeeps.ite
    | ((with_reducible apply OutKeeps.mono (seatExec_keeps ..)); focus exact rfl)
    | with_reducible apply Keeps.ite
    | with_reducible apply Keeps.ite_fst
    | with_reducible refine Keeps.foldl _ (fun _ _ => ?_) ?_
    | extract_lets
    | split
    | dsimp only)

theorem execRestart_keeps (seat : Nat) (s : State) : OutKeeps (allBut [.pending, .params, .journal, .window, .time, .cust]) s (execRestart seat s) :=
    by
  unfold execRestart
  repeat' (first
    | with_reducible apply Keeps.refl
    | with_reducible assumption
    | with_reducible exact OutKeeps.fault
    | with_reducible exact OutKeeps.refused
    | with_reducible apply OutKeeps.ok
    | with_reducible apply OutKeeps.next
    | with_reducible apply OutKeeps.ite
    | ((with_reducible apply OutKeeps.mono (seatExec_keeps ..)); focus exact rfl)
    | with_reducible apply Keeps.ite
    | with_reducible apply Keeps.ite_fst
    | with_reducible refine Keeps.foldl _ (fun _ _ => ?_) ?_
    | extract_lets
    | split
    | dsimp only)

theorem execReset_keeps (seat : Nat) (s : State) : OutKeeps (allBut [.pending, .params, .journal, .window, .time, .cust]) s (execReset seat s) := by
  unfold execReset
  repeat' (first
    | with_reducible apply Keeps.refl
    | with_reducible assumption
    | with_reducible exact OutKeeps.fault
    | with_reducible exact OutKeeps.refused
    | with_reducible apply OutKeeps.ok
    | with_reducible apply OutKeeps.next
    | with_reducible apply OutKeeps.ite
    | ((with_reducible apply OutKeeps.mono (seatExec_keeps ..)); focus exact rfl)
    | with_reducible apply Keeps.ite
    | with_reducible apply Keeps.ite_fst
    | with_reducible refine Keeps.foldl _ (fun _ _ => ?_) ?_
    | extract_lets
    | split
    | dsimp only)

theorem execDisable_keeps (seat : Nat) (s : State) : OutKeeps (allBut [.pending, .params, .journal, .window, .time, .cust]) s (execDisable seat s) :=
    by
  unfold execDisable
  repeat' (first
    | with_reducible apply Keeps.refl
    | with_reducible assumption
    | with_reducible exact OutKeeps.fault
    | with_reducible exact OutKeeps.refused
    | with_reducible apply OutKeeps.ok
    | with_reducible apply OutKeeps.next
    | with_reducible apply OutKeeps.ite
    | ((with_reducible apply OutKeeps.mono (seatExec_keeps ..)); focus exact rfl)
    | with_reducible apply Keeps.ite
    | with_reducible apply Keeps.ite_fst
    | with_reducible refine Keeps.foldl _ (fun _ _ => ?_) ?_
    | extract_lets
    | split
    | dsimp only)

theorem execFreeze_keeps (seat : Nat) (s : State) : OutKeeps (allBut [.pending, .params, .journal, .window, .time, .cust]) s (execFreeze seat s) := by
  unfold execFreeze
  repeat' (first
    | with_reducible apply Keeps.refl
    | with_reducible assumption
    | with_reducible exact OutKeeps.fault
    | with_reducible exact OutKeeps.refused
    | with_reducible apply OutKeeps.ok
    | with_reducible apply OutKeeps.next
    | with_reducible apply OutKeeps.ite
    | ((with_reducible apply OutKeeps.mono (seatExec_keeps ..)); focus exact rfl)
    | with_reducible apply Keeps.ite
    | with_reducible apply Keeps.ite_fst
    | with_reducible refine Keeps.foldl _ (fun _ _ => ?_) ?_
    | extract_lets
    | split
    | dsimp only)

theorem execThaw_keeps (seat : Nat) (s : State) : OutKeeps (allBut [.pending, .params, .journal, .window, .time, .cust]) s (execThaw seat s) := by
  unfold execThaw
  repeat' (first
    | with_reducible apply Keeps.refl
    | with_reducible assumption
    | with_reducible exact OutKeeps.fault
    | with_reducible exact OutKeeps.refused
    | with_reducible apply OutKeeps.ok
    | with_reducible apply OutKeeps.next
    | with_reducible apply OutKeeps.ite
    | ((with_reducible apply OutKeeps.mono (seatExec_keeps ..)); focus exact rfl)
    | with_reducible apply Keeps.ite
    | with_reducible apply Keeps.ite_fst
    | with_reducible refine Keeps.foldl _ (fun _ _ => ?_) ?_
    | extract_lets
    | split
    | dsimp only)

theorem execMigOffer_keeps (seat : Nat) (s : State) : OutKeeps (allBut [.pending, .params, .journal, .window, .time, .cust]) s (execMigOffer seat s)
    := by
  unfold execMigOffer
  repeat' (first
    | with_reducible apply Keeps.refl
    | with_reducible assumption
    | with_reducible exact OutKeeps.fault
    | with_reducible exact OutKeeps.refused
    | with_reducible apply OutKeeps.ok
    | with_reducible apply OutKeeps.next
    | with_reducible apply OutKeeps.ite
    | ((with_reducible apply OutKeeps.mono (seatExec_keeps ..)); focus exact rfl)
    | with_reducible apply Keeps.ite
    | with_reducible apply Keeps.ite_fst
    | with_reducible refine Keeps.foldl _ (fun _ _ => ?_) ?_
    | extract_lets
    | split
    | dsimp only)

theorem execSave_keeps (seat : Nat) (s : State) : OutKeeps (allBut [.pending, .params, .journal, .window, .time, .cust]) s (execSave seat s) := by
  unfold execSave
  repeat' (first
    | with_reducible apply Keeps.refl
    | with_reducible assumption
    | with_reducible exact OutKeeps.fault
    | with_reducible exact OutKeeps.refused
    | with_reducible apply OutKeeps.ok
    | with_reducible apply OutKeeps.next
    | with_reducible apply OutKeeps.ite
    | ((with_reducible apply OutKeeps.mono (seatExec_keeps ..)); focus exact rfl)
    | with_reducible apply Keeps.ite
    | with_reducible apply Keeps.ite_fst
    | with_reducible refine Keeps.foldl _ (fun _ _ => ?_) ?_
    | extract_lets
    | split
    | dsimp only)

theorem execRestore_keeps (seat : Nat) (s : State) : OutKeeps (allBut [.pending, .params, .journal, .window, .time, .cust]) s (execRestore seat s) :=
    by
  unfold execRestore
  repeat' (first
    | with_reducible apply Keeps.refl
    | with_reducible assumption
    | with_reducible exact OutKeeps.fault
    | with_reducible exact OutKeeps.refused
    | with_reducible apply OutKeeps.ok
    | with_reducible apply OutKeeps.next
    | with_reducible apply OutKeeps.ite
    | ((with_reducible apply OutKeeps.mono (seatExec_keeps ..)); focus exact rfl)
    | with_reducible apply Keeps.ite
    | with_reducible apply Keeps.ite_fst
    | with_reducible refine Keeps.foldl _ (fun _ _ => ?_) ?_
    | extract_lets
    | split
    | dsimp only)

theorem execMigCancel_keeps (seat : Nat) (s : State) : OutKeeps (allBut [.pending, .params, .journal, .window, .time, .cust]) s (execMigCancel seat s)
    := by
  unfold execMigCancel
  repeat' (first
    | with_reducible apply Keeps.refl
    | with_reducible assumption
    | with_reducible exact OutKeeps.fault
    | with_reducible exact OutKeeps.refused
    | with_reducible apply OutKeeps.ok
    | with_reducible apply OutKeeps.next
    | with_reducible apply OutKeeps.ite
    | ((with_reducible apply OutKeeps.mono (seatExec_keeps ..)); focus exact rfl)
    | with_reducible apply Keeps.ite
    | with_reducible apply Keeps.ite_fst
    | with_reducible refine Keeps.foldl _ (fun _ _ => ?_) ?_
    | extract_lets
    | split
    | dsimp only)

theorem execCurtainQuiet_keeps (seat : Nat) (s : State) : OutKeeps (allBut [.pending, .params, .journal, .offers, .nextJob, .window, .time, .cust]) s
    (execCurtainQuiet seat s) := by
  unfold execCurtainQuiet
  repeat' (first
    | with_reducible apply Keeps.refl
    | with_reducible assumption
    | with_reducible exact OutKeeps.fault
    | with_reducible exact OutKeeps.refused
    | with_reducible apply OutKeeps.ok
    | with_reducible apply OutKeeps.next
    | with_reducible apply OutKeeps.ite
    | ((with_reducible apply Keeps.step (carryAll_keeps ..)); focus exact rfl)
    | ((with_reducible apply whenDo_keeps); focus exact rfl)
    | ((with_reducible apply Keeps.step (curtainQuiet_keeps ..)); focus exact rfl)
    | with_reducible intro _
    | with_reducible apply Keeps.self
    | with_reducible apply Keeps.ite
    | with_reducible apply Keeps.ite_fst
    | with_reducible refine Keeps.foldl _ (fun _ _ => ?_) ?_
    | extract_lets
    | split
    | dsimp only)

theorem execResetReport_keeps (seat : Nat) (s : State) : OutKeeps (allBut [.pending, .params, .journal, .offers, .nextJob, .window, .time, .cust]) s
    (execResetReport seat s) := by
  unfold execResetReport
  repeat' (first
    | with_reducible apply Keeps.refl
    | with_reducible assumption
    | with_reducible exact OutKeeps.fault
    | with_reducible exact OutKeeps.refused
    | with_reducible apply OutKeeps.ok
    | with_reducible apply OutKeeps.next
    | with_reducible apply OutKeeps.ite
    | ((with_reducible apply Keeps.step (carryAll_keeps ..)); focus exact rfl)
    | ((with_reducible apply whenDo_keeps); focus exact rfl)
    | ((with_reducible apply Keeps.step (resetReport_keeps ..)); focus exact rfl)
    | with_reducible intro _
    | with_reducible apply Keeps.self
    | with_reducible apply Keeps.ite
    | with_reducible apply Keeps.ite_fst
    | with_reducible refine Keeps.foldl _ (fun _ _ => ?_) ?_
    | extract_lets
    | split
    | dsimp only)

theorem transitionEnd_keeps (s : State) (seat : Nat) : Keeps (allBut [.pending, .params, .start, .journal, .engines, .window, .time, .relay, .cust,
    .freeCount]) s (transitionEnd s seat) := by
  unfold transitionEnd
  repeat' (first
    | with_reducible apply Keeps.refl
    | with_reducible assumption
    | ((with_reducible apply Keeps.step (freezeFlush_keeps ..)); focus exact rfl)
    | ((with_reducible apply Keeps.step (vector_keeps ..)); focus exact rfl)
    | ((with_reducible apply Keeps.step (State.modSeat_keeps ..)); focus exact rfl)
    | ((with_reducible apply Keeps.step (migGo_keeps ..)); focus exact rfl)
    | with_reducible apply Keeps.ite
    | with_reducible apply Keeps.ite_fst
    | with_reducible refine Keeps.foldl _ (fun _ _ => ?_) ?_
    | extract_lets
    | split
    | dsimp only)

theorem execSeatTransitionEnd_keeps (seat : Nat) (s : State) : OutKeeps (allBut [.pending, .params, .journal, .window, .time, .cust]) s
    (execSeatTransitionEnd seat s) := by
  unfold execSeatTransitionEnd
  repeat' (first
    | with_reducible apply Keeps.refl
    | with_reducible assumption
    | with_reducible exact OutKeeps.fault
    | with_reducible exact OutKeeps.refused
    | with_reducible apply OutKeeps.ok
    | with_reducible apply OutKeeps.next
    | with_reducible apply OutKeeps.ite
    | ((with_reducible apply Keeps.step (carryAll_keeps ..)); focus exact rfl)
    | ((with_reducible apply whenDo_keeps); focus exact rfl)
    | ((with_reducible apply Keeps.step (transitionEnd_keeps ..)); focus exact rfl)
    | with_reducible intro _
    | with_reducible apply Keeps.self
    | with_reducible apply Keeps.ite
    | with_reducible apply Keeps.ite_fst
    | with_reducible refine Keeps.foldl _ (fun _ _ => ?_) ?_
    | extract_lets
    | split
    | dsimp only)

theorem shareWrite_keeps (s : State) (seat : Nat) (which : Nat) (v : W32) : Keeps (only [.seats, .place]) s (shareWrite s seat which v) := by
  unfold shareWrite
  repeat' (first
    | with_reducible apply Keeps.refl
    | with_reducible assumption
    | ((with_reducible apply Keeps.step (State.modSeat_keeps ..)); focus exact rfl)
    | ((with_reducible apply Keeps.step (latchEpoch_keeps ..)); focus exact rfl)
    | ((with_reducible apply Keeps.step (rejectCfg_keeps ..)); focus exact rfl)
    | with_reducible apply Keeps.ite
    | with_reducible apply Keeps.ite_fst
    | with_reducible refine Keeps.foldl _ (fun _ _ => ?_) ?_
    | extract_lets
    | split
    | dsimp only)

theorem execShareWrite_keeps (seat : Nat) (which : Nat) (value : W32) (s : State) : OutKeeps (allBut [.pending, .params, .journal, .offers, .nextJob,
    .window, .time, .cust]) s (execShareWrite seat which value s) := by
  unfold execShareWrite
  repeat' (first
    | with_reducible apply Keeps.refl
    | with_reducible assumption
    | with_reducible exact OutKeeps.fault
    | with_reducible exact OutKeeps.refused
    | with_reducible apply OutKeeps.ok
    | with_reducible apply OutKeeps.next
    | with_reducible apply OutKeeps.ite
    | ((with_reducible apply Keeps.step (fin_keeps ..)); focus exact rfl)
    | ((with_reducible apply mgrWrite_keeps); focus exact rfl)
    | ((with_reducible apply Keeps.step (shareWrite_keeps ..)); focus exact rfl)
    | with_reducible intro _
    | with_reducible apply Keeps.self
    | with_reducible apply Keeps.ite
    | with_reducible apply Keeps.ite_fst
    | with_reducible refine Keeps.foldl _ (fun _ _ => ?_) ?_
    | extract_lets
    | split
    | dsimp only)

theorem seatXWrite_keeps (s : State) (reg : Nat) (v : W32) : Keeps (only [.seats, .mem]) s (seatXWrite s reg v) := by
  unfold seatXWrite
  repeat' (first
    | with_reducible apply Keeps.refl
    | with_reducible assumption
    | ((with_reducible apply Keeps.step (rejectCfg_keeps ..)); focus exact rfl)
    | ((with_reducible apply Keeps.step (State.modSeat_keeps ..)); focus exact rfl)
    | ((with_reducible apply Keeps.step (applySeatX_keeps ..)); focus exact rfl)
    | with_reducible apply Keeps.ite
    | with_reducible apply Keeps.ite_fst
    | with_reducible refine Keeps.foldl _ (fun _ _ => ?_) ?_
    | extract_lets
    | split
    | dsimp only)

theorem execSeatXWrite_keeps (reg : Nat) (value : W32) (s : State) : OutKeeps (allBut [.pending, .params, .journal, .offers, .nextJob, .window, .time,
    .cust]) s (execSeatXWrite reg value s) := by
  unfold execSeatXWrite
  repeat' (first
    | with_reducible apply Keeps.refl
    | with_reducible assumption
    | with_reducible exact OutKeeps.fault
    | with_reducible exact OutKeeps.refused
    | with_reducible apply OutKeeps.ok
    | with_reducible apply OutKeeps.next
    | with_reducible apply OutKeeps.ite
    | ((with_reducible apply Keeps.step (fin_keeps ..)); focus exact rfl)
    | ((with_reducible apply mgrWrite_keeps); focus exact rfl)
    | ((with_reducible apply Keeps.step (seatXWrite_keeps ..)); focus exact rfl)
    | with_reducible intro _
    | with_reducible apply Keeps.self
    | with_reducible apply Keeps.ite
    | with_reducible apply Keeps.ite_fst
    | with_reducible refine Keeps.foldl _ (fun _ _ => ?_) ?_
    | extract_lets
    | split
    | dsimp only)

theorem atuInv_keeps (s : State) (v : W32) : Keeps (only [.alarms, .mem, .prompts]) s (atuInv s v) := by
  unfold atuInv
  repeat' (first
    | with_reducible apply Keeps.refl
    | with_reducible assumption
    | ((with_reducible apply Keeps.step (refuse_keeps ..)); focus exact rfl)
    | ((with_reducible apply Keeps.step (tlbDrop_keeps ..)); focus exact rfl)
    | with_reducible apply Keeps.ite
    | with_reducible apply Keeps.ite_fst
    | with_reducible refine Keeps.foldl _ (fun _ _ => ?_) ?_
    | extract_lets
    | split
    | dsimp only
    | ((with_reducible apply Keeps.upd) <;> first | exact .inl rfl | exact .inr rfl | skip))

theorem execAtuInvalidate_keeps (value : W32) (s : State) : OutKeeps (allBut [.pending, .params, .journal, .offers, .nextJob, .window, .time, .cust])
    s (execAtuInvalidate value s) := by
  unfold execAtuInvalidate
  repeat' (first
    | with_reducible apply Keeps.refl
    | with_reducible assumption
    | with_reducible exact OutKeeps.fault
    | with_reducible exact OutKeeps.refused
    | with_reducible apply OutKeeps.ok
    | with_reducible apply OutKeeps.next
    | with_reducible apply OutKeeps.ite
    | ((with_reducible apply Keeps.step (fin_keeps ..)); focus exact rfl)
    | ((with_reducible apply mgrWrite_keeps); focus exact rfl)
    | ((with_reducible apply Keeps.step (atuInv_keeps ..)); focus exact rfl)
    | with_reducible intro _
    | with_reducible apply Keeps.self
    | with_reducible apply Keeps.ite
    | with_reducible apply Keeps.ite_fst
    | with_reducible refine Keeps.foldl _ (fun _ _ => ?_) ?_
    | extract_lets
    | split
    | dsimp only)

theorem atuInvDone_keeps (s : State) : Keeps (only [.mem]) s (atuInvDone s) := by
  unfold atuInvDone
  repeat' (first
    | with_reducible apply Keeps.refl
    | with_reducible assumption
    | ((with_reducible apply Keeps.step (tlbDrop_keeps ..)); focus exact rfl)
    | with_reducible apply Keeps.ite
    | with_reducible apply Keeps.ite_fst
    | with_reducible refine Keeps.foldl _ (fun _ _ => ?_) ?_
    | extract_lets
    | split
    | dsimp only
    | ((with_reducible apply Keeps.upd) <;> first | exact .inl rfl | exact .inr rfl | skip))

theorem execAtuInvalidateDone_keeps (s : State) : OutKeeps (allBut [.pending, .params, .journal, .offers, .nextJob, .window, .time, .cust]) s
    (execAtuInvalidateDone s) := by
  unfold execAtuInvalidateDone
  repeat' (first
    | with_reducible apply Keeps.refl
    | with_reducible assumption
    | with_reducible exact OutKeeps.fault
    | with_reducible exact OutKeeps.refused
    | with_reducible apply OutKeeps.ok
    | with_reducible apply OutKeeps.next
    | with_reducible apply OutKeeps.ite
    | ((with_reducible apply Keeps.step (fin_keeps ..)); focus exact rfl)
    | ((with_reducible apply whenDo_keeps); focus exact rfl)
    | ((with_reducible apply Keeps.step (atuInvDone_keeps ..)); focus exact rfl)
    | with_reducible intro _
    | with_reducible apply Keeps.self
    | with_reducible apply Keeps.ite
    | with_reducible apply Keeps.ite_fst
    | with_reducible refine Keeps.foldl _ (fun _ _ => ?_) ?_
    | extract_lets
    | split
    | dsimp only)

theorem faultRead_keeps (s : State) : Keeps (only [.seatRegs]) s (faultRead s) := by
  unfold faultRead
  repeat' (first
    | with_reducible apply Keeps.refl
    | with_reducible assumption
    | ((with_reducible apply Keeps.step (State.modRegs_keeps ..)); focus exact rfl)
    | ((with_reducible apply Keeps.step (readBack_keeps ..)); focus exact rfl)
    | with_reducible apply Keeps.ite
    | with_reducible apply Keeps.ite_fst
    | with_reducible refine Keeps.foldl _ (fun _ _ => ?_) ?_
    | extract_lets
    | split
    | dsimp only)

theorem execAtuFaultRead_keeps (s : State) : OutKeeps (only [.seatRegs]) s (execAtuFaultRead s) := by
  unfold execAtuFaultRead
  repeat' (first
    | with_reducible apply Keeps.refl
    | with_reducible assumption
    | with_reducible exact OutKeeps.fault
    | with_reducible exact OutKeeps.refused
    | with_reducible apply OutKeeps.ok
    | with_reducible apply OutKeeps.next
    | with_reducible apply OutKeeps.ite
    | ((with_reducible apply hregRead_keeps); focus exact rfl)
    | ((with_reducible apply Keeps.step (faultRead_keeps ..)); focus exact rfl)
    | with_reducible intro _
    | with_reducible apply Keeps.self
    | with_reducible apply Keeps.ite
    | with_reducible apply Keeps.ite_fst
    | with_reducible refine Keeps.foldl _ (fun _ _ => ?_) ?_
    | extract_lets
    | split
    | dsimp only)

theorem seatWrite_keeps (s : State) (off : Nat) (v : W32) : Keeps (allBut [.pending, .params, .start, .journal, .window, .time, .cust, .freeCount]) s
    (seatWrite s off v) := by
  unfold seatWrite
  repeat' (first
    | with_reducible apply Keeps.refl
    | with_reducible assumption
    | ((with_reducible apply Keeps.step (State.modSeat_keeps ..)); focus exact rfl)
    | ((with_reducible apply Keeps.step (shareWrite_keeps ..)); focus exact rfl)
    | ((with_reducible apply Keeps.step (seatCmd_keeps ..)); focus exact rfl)
    | ((with_reducible apply Keeps.step (State.modRegs_keeps ..)); focus exact rfl)
    | ((with_reducible apply Keeps.step (seatXWrite_keeps ..)); focus exact rfl)
    | ((with_reducible apply Keeps.step (atuInv_keeps ..)); focus exact rfl)
    | with_reducible apply Keeps.ite
    | with_reducible apply Keeps.ite_fst
    | with_reducible refine Keeps.foldl _ (fun _ _ => ?_) ?_
    | extract_lets
    | split
    | dsimp only)

end Sys2Proof.Machine
end

