-- ==== Sys2Proof/Laws/FrameSensors.lean ====
section
/-! SUPPORT. Frames of Machine/Sensors: for each operation, the parts of the state it may change. -/

namespace Sys2Proof.Machine

theorem State.modAlarms_keeps (s : State) (f : Alarms → Alarms) : Keeps (only [.alarms]) s (State.modAlarms s f) := by
  unfold State.modAlarms
  repeat' (first
    | with_reducible apply Keeps.refl
    | with_reducible assumption
    | with_reducible apply Keeps.ite
    | with_reducible apply Keeps.ite_fst
    | with_reducible refine Keeps.foldl _ (fun _ _ => ?_) ?_
    | extract_lets
    | split
    | dsimp only
    | ((with_reducible apply Keeps.upd) <;> first | exact .inl rfl | exact .inr rfl | skip))

theorem raiseTrip_keeps (s : State) (x : Sensor) (d0 : W32) (d1 : W32) : Keeps (allBut [.pending, .params, .seats, .offers, .nextJob, .time,
    .freeCount]) s (raiseTrip s x d0 d1) := by
  unfold raiseTrip
  repeat' (first
    | with_reducible apply Keeps.refl
    | with_reducible assumption
    | ((with_reducible apply Keeps.step (alarmA_keeps ..)); focus exact rfl)
    | ((with_reducible apply Keeps.step (alarmC_keeps ..)); focus exact rfl)
    | with_reducible apply Keeps.ite
    | with_reducible apply Keeps.ite_fst
    | with_reducible refine Keeps.foldl _ (fun _ _ => ?_) ?_
    | extract_lets
    | split
    | dsimp only)

theorem sensorRead_keeps (s : State) (x : Sensor) (d0 : W32) : Keeps (only [.alarms]) s (sensorRead s x d0) := by
  unfold sensorRead
  repeat' (first
    | with_reducible apply Keeps.refl
    | with_reducible assumption
    | ((with_reducible apply Keeps.step (State.modAlarms_keeps ..)); focus exact rfl)
    | with_reducible apply Keeps.ite
    | with_reducible apply Keeps.ite_fst
    | with_reducible refine Keeps.foldl _ (fun _ _ => ?_) ?_
    | extract_lets
    | split
    | dsimp only)

theorem sensorTrip_keeps (s : State) (x : Sensor) (d0 : W32) (d1 : W32) : Keeps (allBut [.pending, .params, .seats, .offers, .nextJob, .time,
    .freeCount]) s (sensorTrip s x d0 d1) := by
  unfold sensorTrip
  repeat' (first
    | with_reducible apply Keeps.refl
    | with_reducible assumption
    | ((with_reducible apply Keeps.step (sensorRead_keeps ..)); focus exact rfl)
    | ((with_reducible apply Keeps.step (State.modAlarms_keeps ..)); focus exact rfl)
    | ((with_reducible apply Keeps.step (raiseTrip_keeps ..)); focus exact rfl)
    | with_reducible apply Keeps.ite
    | with_reducible apply Keeps.ite_fst
    | with_reducible refine Keeps.foldl _ (fun _ _ => ?_) ?_
    | extract_lets
    | split
    | dsimp only)

theorem execSensorTrip_keeps (sensor : Sensor) (detail0 : W32) (detail1 : W32) (s : State) : OutKeeps (allBut [.pending, .params, .offers, .nextJob,
    .time]) s (execSensorTrip sensor detail0 detail1 s) := by
  unfold execSensorTrip
  repeat' (first
    | with_reducible apply Keeps.refl
    | with_reducible assumption
    | with_reducible exact OutKeeps.fault
    | with_reducible exact OutKeeps.refused
    | with_reducible apply OutKeeps.ok
    | with_reducible apply OutKeeps.next
    | with_reducible apply OutKeeps.ite
    | ((with_reducible apply Keeps.step (carryAll_keeps ..)); focus exact rfl)
    | ((with_reducible apply Keeps.step (sensorTrip_keeps ..)); focus exact rfl)
    | with_reducible apply Keeps.ite
    | with_reducible apply Keeps.ite_fst
    | with_reducible refine Keeps.foldl _ (fun _ _ => ?_) ?_
    | extract_lets
    | split
    | dsimp only)

theorem execSensorConditionEnd_keeps (sensor : Sensor) (s : State) : OutKeeps (only [.alarms]) s (execSensorConditionEnd sensor s) := by
  unfold execSensorConditionEnd
  repeat' (first
    | with_reducible apply Keeps.refl
    | with_reducible assumption
    | with_reducible exact OutKeeps.fault
    | with_reducible exact OutKeeps.refused
    | with_reducible apply OutKeeps.ok
    | with_reducible apply OutKeeps.next
    | with_reducible apply OutKeeps.ite
    | ((with_reducible apply Keeps.step (State.modAlarms_keeps ..)); focus exact rfl)
    | with_reducible apply Keeps.ite
    | with_reducible apply Keeps.ite_fst
    | with_reducible refine Keeps.foldl _ (fun _ _ => ?_) ?_
    | extract_lets
    | split
    | dsimp only)

theorem armSensors_keeps (s : State) : Keeps (allBut [.pending, .params, .seats, .offers, .nextJob, .time, .freeCount]) s (armSensors s) := by
  unfold armSensors
  repeat' (first
    | with_reducible apply Keeps.refl
    | with_reducible assumption
    | ((with_reducible apply Keeps.step (raiseTrip_keeps ..)); focus exact rfl)
    | ((with_reducible apply Keeps.step (State.modAlarms_keeps ..)); focus exact rfl)
    | with_reducible apply Keeps.ite
    | with_reducible apply Keeps.ite_fst
    | with_reducible refine Keeps.foldl _ (fun _ _ => ?_) ?_
    | extract_lets
    | split
    | dsimp only)

theorem execLockstep_keeps (s : State) : OutKeeps (allBut [.pending, .params, .offers, .nextJob, .time]) s (execLockstep s) := by
  unfold execLockstep
  repeat' (first
    | with_reducible apply Keeps.refl
    | with_reducible assumption
    | with_reducible exact OutKeeps.fault
    | with_reducible exact OutKeeps.refused
    | with_reducible apply OutKeeps.ok
    | with_reducible apply OutKeeps.next
    | with_reducible apply OutKeeps.ite
    | ((with_reducible apply Keeps.step (carryAll_keeps ..)); focus exact rfl)
    | ((with_reducible apply whenDo_keeps); focus exact rfl)
    | ((with_reducible apply Keeps.step (alarmA_keeps ..)); focus exact rfl)
    | with_reducible intro _
    | with_reducible apply Keeps.self
    | with_reducible apply Keeps.ite
    | with_reducible apply Keeps.ite_fst
    | with_reducible refine Keeps.foldl _ (fun _ _ => ?_) ?_
    | extract_lets
    | split
    | dsimp only)

theorem execErasureVerified_keeps (erased : Erasure) (s : State) : OutKeeps (allBut [.pending, .params, .journal, .offers, .nextJob, .window, .time,
    .cust]) s (execErasureVerified erased s) := by
  unfold execErasureVerified
  repeat' (first
    | with_reducible apply Keeps.refl
    | with_reducible assumption
    | with_reducible exact OutKeeps.fault
    | with_reducible exact OutKeeps.refused
    | with_reducible apply OutKeeps.ok
    | with_reducible apply OutKeeps.next
    | with_reducible apply OutKeeps.ite
    | ((with_reducible apply Keeps.step (carryAll_keeps ..)); focus exact rfl)
    | ((with_reducible apply whenDo_keeps); focus exact rfl)
    | ((with_reducible apply Keeps.step (erasureVerified_keeps ..)); focus exact rfl)
    | with_reducible intro _
    | with_reducible apply Keeps.self
    | with_reducible apply Keeps.ite
    | with_reducible apply Keeps.ite_fst
    | with_reducible refine Keeps.foldl _ (fun _ _ => ?_) ?_
    | extract_lets
    | split
    | dsimp only)

theorem acceptA_keeps (s : State) : Keeps (only [.alarms, .entropy, .relay, .prompts]) s (acceptA s) := by
  unfold acceptA
  repeat' (first
    | with_reducible apply Keeps.refl
    | with_reducible assumption
    | ((with_reducible apply Keeps.step (tryWants_keeps ..)); focus exact rfl)
    | ((with_reducible apply Keeps.step (sendHello_keeps ..)); focus exact rfl)
    | ((with_reducible apply Keeps.step (requestAll_keeps ..)); focus exact rfl)
    | ((with_reducible apply Keeps.step (vector_keeps ..)); focus exact rfl)
    | ((with_reducible apply Keeps.step (State.modAlarms_keeps ..)); focus exact rfl)
    | with_reducible apply Keeps.ite
    | with_reducible apply Keeps.ite_fst
    | with_reducible refine Keeps.foldl _ (fun _ _ => ?_) ?_
    | extract_lets
    | split
    | dsimp only)

theorem acceptB_keeps (s : State) : Keeps (only [.alarms, .entropy, .prompts]) s (acceptB s) := by
  unfold acceptB
  repeat' (first
    | with_reducible apply Keeps.refl
    | with_reducible assumption
    | ((with_reducible apply Keeps.step (requestAll_keeps ..)); focus exact rfl)
    | ((with_reducible apply Keeps.step (vector_keeps ..)); focus exact rfl)
    | ((with_reducible apply Keeps.step (State.modAlarms_keeps ..)); focus exact rfl)
    | with_reducible apply Keeps.ite
    | with_reducible apply Keeps.ite_fst
    | with_reducible refine Keeps.foldl _ (fun _ _ => ?_) ?_
    | extract_lets
    | split
    | dsimp only)

theorem almClear_keeps (s : State) (a : Bool) (b : Bool) : Keeps (only [.alarms, .entropy, .relay, .prompts]) s (almClear s a b) := by
  unfold almClear
  repeat' (first
    | with_reducible apply Keeps.refl
    | with_reducible assumption
    | ((with_reducible apply Keeps.step (acceptA_keeps ..)); focus exact rfl)
    | ((with_reducible apply Keeps.step (acceptB_keeps ..)); focus exact rfl)
    | ((with_reducible apply Keeps.step (State.modAlarms_keeps ..)); focus exact rfl)
    | with_reducible apply Keeps.ite
    | with_reducible apply Keeps.ite_fst
    | with_reducible refine Keeps.foldl _ (fun _ _ => ?_) ?_
    | extract_lets
    | split
    | dsimp only)

theorem execClearA_keeps (s : State) : OutKeeps (allBut [.pending, .params, .journal, .offers, .nextJob, .window, .time, .cust]) s (execClearA s) :=
    by
  unfold execClearA
  repeat' (first
    | with_reducible apply Keeps.refl
    | with_reducible assumption
    | with_reducible exact OutKeeps.fault
    | with_reducible exact OutKeeps.refused
    | with_reducible apply OutKeeps.ok
    | with_reducible apply OutKeeps.next
    | with_reducible apply OutKeeps.ite
    | ((with_reducible apply Keeps.step (carryAll_keeps ..)); focus exact rfl)
    | ((with_reducible apply mgrWrite_keeps); focus exact rfl)
    | ((with_reducible apply Keeps.step (almClear_keeps ..)); focus exact rfl)
    | with_reducible intro _
    | with_reducible apply Keeps.self
    | with_reducible apply Keeps.ite
    | with_reducible apply Keeps.ite_fst
    | with_reducible refine Keeps.foldl _ (fun _ _ => ?_) ?_
    | extract_lets
    | split
    | dsimp only)

theorem execClearB_keeps (s : State) : OutKeeps (allBut [.pending, .params, .journal, .offers, .nextJob, .window, .time, .cust]) s (execClearB s) :=
    by
  unfold execClearB
  repeat' (first
    | with_reducible apply Keeps.refl
    | with_reducible assumption
    | with_reducible exact OutKeeps.fault
    | with_reducible exact OutKeeps.refused
    | with_reducible apply OutKeeps.ok
    | with_reducible apply OutKeeps.next
    | with_reducible apply OutKeeps.ite
    | ((with_reducible apply Keeps.step (carryAll_keeps ..)); focus exact rfl)
    | ((with_reducible apply mgrWrite_keeps); focus exact rfl)
    | ((with_reducible apply Keeps.step (almClear_keeps ..)); focus exact rfl)
    | with_reducible intro _
    | with_reducible apply Keeps.self
    | with_reducible apply Keeps.ite
    | with_reducible apply Keeps.ite_fst
    | with_reducible refine Keeps.foldl _ (fun _ _ => ?_) ?_
    | extract_lets
    | split
    | dsimp only)

theorem returnQueued_keeps (s : State) (b : Nat) : Keeps (only [.jobs]) s (returnQueued s b) := by
  unfold returnQueued
  repeat' (first
    | with_reducible apply Keeps.refl
    | with_reducible assumption
    | with_reducible apply Keeps.ite
    | with_reducible apply Keeps.ite_fst
    | with_reducible refine Keeps.foldl _ (fun _ _ => ?_) ?_
    | extract_lets
    | split
    | dsimp only
    | ((with_reducible apply Keeps.upd) <;> first | exact .inl rfl | exact .inr rfl | skip))

theorem sequencerFault_keeps (s : State) (b : Nat) : Keeps (only [.journal, .alarms, .jobs, .mem, .place, .buffers, .engines, .keys, .entropy,
    .prompts]) s (sequencerFault s b) := by
  unfold sequencerFault
  repeat' (first
    | with_reducible apply Keeps.refl
    | with_reducible assumption
    | ((with_reducible apply Keeps.step (State.modBay_keeps ..)); focus exact rfl)
    | ((with_reducible apply Keeps.step (stopWhere_keeps ..)); focus exact rfl)
    | ((with_reducible apply Keeps.step (wipeBay_keeps ..)); focus exact rfl)
    | ((with_reducible apply Keeps.step (returnQueued_keeps ..)); focus exact rfl)
    | ((with_reducible apply Keeps.step (modStartRec_keeps ..)); focus exact rfl)
    | ((with_reducible apply Keeps.step (zeroInst_keeps ..)); focus exact rfl)
    | ((with_reducible apply Keeps.step (mendHome_keeps ..)); focus exact rfl)
    | ((with_reducible apply Keeps.step (alarmC_keeps ..)); focus exact rfl)
    | with_reducible apply Keeps.ite
    | with_reducible apply Keeps.ite_fst
    | with_reducible refine Keeps.foldl _ (fun _ _ => ?_) ?_
    | extract_lets
    | split
    | dsimp only)

theorem execSequencerFault_keeps (bay : Nat) (s : State) : OutKeeps (allBut [.pending, .params, .offers, .nextJob, .window, .time, .cust]) s
    (execSequencerFault bay s) := by
  unfold execSequencerFault
  repeat' (first
    | with_reducible apply Keeps.refl
    | with_reducible assumption
    | with_reducible exact OutKeeps.fault
    | with_reducible exact OutKeeps.refused
    | with_reducible apply OutKeeps.ok
    | with_reducible apply OutKeeps.next
    | with_reducible apply OutKeeps.ite
    | ((with_reducible apply Keeps.step (carryAll_keeps ..)); focus exact rfl)
    | ((with_reducible apply whenDo_keeps); focus exact rfl)
    | ((with_reducible apply Keeps.step (sequencerFault_keeps ..)); focus exact rfl)
    | with_reducible intro _
    | with_reducible apply Keeps.self
    | with_reducible apply Keeps.ite
    | with_reducible apply Keeps.ite_fst
    | with_reducible refine Keeps.foldl _ (fun _ _ => ?_) ?_
    | extract_lets
    | split
    | dsimp only)

theorem wingFailure_keeps (s : State) (w : Nat) : Keeps (only [.start, .journal, .alarms, .jobs, .mem, .place, .buffers, .engines, .keys, .entropy,
    .prompts]) s (wingFailure s w) := by
  unfold wingFailure
  repeat' (first
    | with_reducible apply Keeps.refl
    | with_reducible assumption
    | ((with_reducible apply Keeps.step (stopWhere_keeps ..)); focus exact rfl)
    | ((with_reducible apply Keeps.step (returnQueued_keeps ..)); focus exact rfl)
    | ((with_reducible apply Keeps.step (zeroInst_keeps ..)); focus exact rfl)
    | ((with_reducible apply Keeps.step (markWingFailed_keeps ..)); focus exact rfl)
    | ((with_reducible apply Keeps.step (alarmC_keeps ..)); focus exact rfl)
    | with_reducible apply Keeps.ite
    | with_reducible apply Keeps.ite_fst
    | with_reducible refine Keeps.foldl _ (fun _ _ => ?_) ?_
    | extract_lets
    | split
    | dsimp only)

theorem execWingFailure_keeps (wing : Nat) (s : State) : OutKeeps (allBut [.pending, .params, .offers, .nextJob, .window, .time, .cust]) s
    (execWingFailure wing s) := by
  unfold execWingFailure
  repeat' (first
    | with_reducible apply Keeps.refl
    | with_reducible assumption
    | with_reducible exact OutKeeps.fault
    | with_reducible exact OutKeeps.refused
    | with_reducible apply OutKeeps.ok
    | with_reducible apply OutKeeps.next
    | with_reducible apply OutKeeps.ite
    | ((with_reducible apply Keeps.step (carryAll_keeps ..)); focus exact rfl)
    | ((with_reducible apply whenDo_keeps); focus exact rfl)
    | ((with_reducible apply Keeps.step (wingFailure_keeps ..)); focus exact rfl)
    | with_reducible intro _
    | with_reducible apply Keeps.self
    | with_reducible apply Keeps.ite
    | with_reducible apply Keeps.ite_fst
    | with_reducible refine Keeps.foldl _ (fun _ _ => ?_) ?_
    | extract_lets
    | split
    | dsimp only)

theorem execPortClockLost_keeps (port : ClkPort) (s : State) : OutKeeps (only [.alarms, .mem, .prompts]) s (execPortClockLost port s) := by
  unfold execPortClockLost
  repeat' (first
    | with_reducible apply Keeps.refl
    | with_reducible assumption
    | with_reducible exact OutKeeps.fault
    | with_reducible exact OutKeeps.refused
    | with_reducible apply OutKeeps.ok
    | with_reducible apply OutKeeps.next
    | with_reducible apply OutKeeps.ite
    | ((with_reducible apply whenDo_keeps); focus exact rfl)
    | ((with_reducible apply Keeps.step (alarmC_keeps ..)); focus exact rfl)
    | with_reducible intro _
    | with_reducible apply Keeps.self
    | with_reducible apply Keeps.ite
    | with_reducible apply Keeps.ite_fst
    | with_reducible refine Keeps.foldl _ (fun _ _ => ?_) ?_
    | extract_lets
    | split
    | dsimp only
    | ((with_reducible apply Keeps.upd) <;> first | exact .inl rfl | exact .inr rfl | skip))

theorem execPortClockReturn_keeps (port : ClkPort) (s : State) : OutKeeps (allBut [.pending, .params, .journal, .offers, .nextJob, .window, .time,
    .cust]) s (execPortClockReturn port s) := by
  unfold execPortClockReturn
  repeat' (first
    | with_reducible apply Keeps.refl
    | with_reducible assumption
    | with_reducible exact OutKeeps.fault
    | with_reducible exact OutKeeps.refused
    | with_reducible apply OutKeeps.ok
    | with_reducible apply OutKeeps.next
    | with_reducible apply OutKeeps.ite
    | ((with_reducible apply Keeps.step (carryAll_keeps ..)); focus exact rfl)
    | ((with_reducible apply Keeps.step (sendHello_keeps ..)); focus exact rfl)
    | ((with_reducible apply Keeps.step (hopDrain_keeps ..)); focus exact rfl)
    | with_reducible apply Keeps.ite
    | with_reducible apply Keeps.ite_fst
    | with_reducible refine Keeps.foldl _ (fun _ _ => ?_) ?_
    | extract_lets
    | split
    | dsimp only
    | ((with_reducible apply Keeps.upd) <;> first | exact .inl rfl | exact .inr rfl | skip))

theorem execAccessViolation_keeps (src : Nat) (off : Nat) (write : Bool) (s : State) : OutKeeps (only [.alarms, .prompts]) s (execAccessViolation src
    off write s) := by
  unfold execAccessViolation
  repeat' (first
    | with_reducible apply Keeps.refl
    | with_reducible assumption
    | with_reducible exact OutKeeps.fault
    | with_reducible exact OutKeeps.refused
    | with_reducible apply OutKeeps.ok
    | with_reducible apply OutKeeps.next
    | with_reducible apply OutKeeps.ite
    | ((with_reducible apply whenDo_keeps); focus exact rfl)
    | ((with_reducible apply hreg_keeps); focus exact rfl)
    | with_reducible intro _
    | with_reducible apply Keeps.self
    | with_reducible apply Keeps.ite
    | with_reducible apply Keeps.ite_fst
    | with_reducible refine Keeps.foldl _ (fun _ _ => ?_) ?_
    | extract_lets
    | split
    | dsimp only)

theorem execPromptAccept_keeps (s : State) : OutKeeps (only [.prompts]) s (execPromptAccept s) := by
  unfold execPromptAccept
  repeat' (first
    | with_reducible apply Keeps.refl
    | with_reducible assumption
    | with_reducible exact OutKeeps.fault
    | with_reducible exact OutKeeps.refused
    | with_reducible apply OutKeeps.ok
    | with_reducible apply OutKeeps.next
    | with_reducible apply OutKeeps.ite
    | ((with_reducible apply whenDo_keeps); focus exact rfl)
    | with_reducible intro _
    | with_reducible apply Keeps.self
    | with_reducible apply Keeps.ite
    | with_reducible apply Keeps.ite_fst
    | with_reducible refine Keeps.foldl _ (fun _ _ => ?_) ?_
    | extract_lets
    | split
    | dsimp only
    | ((with_reducible apply Keeps.upd) <;> first | exact .inl rfl | exact .inr rfl | skip))

theorem almWrite_keeps (s : State) (off : Nat) (v : W32) : Keeps (only [.alarms, .entropy, .relay, .prompts]) s (almWrite s off v) := by
  unfold almWrite
  repeat' (first
    | with_reducible apply Keeps.refl
    | with_reducible assumption
    | ((with_reducible apply Keeps.step (almClear_keeps ..)); focus exact rfl)
    | ((with_reducible apply Keeps.step (State.modAlarms_keeps ..)); focus exact rfl)
    | ((with_reducible apply Keeps.step (refuse_keeps ..)); focus exact rfl)
    | with_reducible apply Keeps.ite
    | with_reducible apply Keeps.ite_fst
    | with_reducible refine Keeps.foldl _ (fun _ _ => ?_) ?_
    | extract_lets
    | split
    | dsimp only)

end Sys2Proof.Machine
end

