-- ==== Sys2Proof/Laws/FrameBoot.lean ====
section
/-! SUPPORT. Frames of Machine/Boot: for each operation, the parts of the state it may change. -/

namespace Sys2Proof.Machine

theorem failHalt_keeps (s : State) (k : Nat) : Keeps (only [.start, .journal, .mem, .entropy]) s (failHalt s k) := by
  unfold failHalt
  repeat' (first
    | with_reducible apply Keeps.refl
    | with_reducible assumption
    | ((with_reducible apply Keeps.step (halt_keeps ..)); focus exact rfl)
    | ((with_reducible apply Keeps.step (putOutcome_keeps ..)); focus exact rfl)
    | with_reducible apply Keeps.ite
    | with_reducible apply Keeps.ite_fst
    | with_reducible refine Keeps.foldl _ (fun _ _ => ?_) ?_
    | extract_lets
    | split
    | dsimp only)

theorem seatZeroRuns_keeps (s : State) : Keeps (only [.seats]) s (seatZeroRuns s) := by
  unfold seatZeroRuns
  repeat' (first
    | with_reducible apply Keeps.refl
    | with_reducible assumption
    | ((with_reducible apply Keeps.step (State.modSeat_keeps ..)); focus exact rfl)
    | with_reducible apply Keeps.ite
    | with_reducible apply Keeps.ite_fst
    | with_reducible refine Keeps.foldl _ (fun _ _ => ?_) ?_
    | extract_lets
    | split
    | dsimp only)

theorem enterService_keeps (s : State) : Keeps (only [.seats, .entropy, .prompts]) s (enterService s) := by
  unfold enterService
  repeat' (first
    | with_reducible apply Keeps.refl
    | with_reducible assumption
    | ((with_reducible apply Keeps.step (requestAll_keeps ..)); focus exact rfl)
    | ((with_reducible apply Keeps.step (seatZeroRuns_keeps ..)); focus exact rfl)
    | ((with_reducible apply Keeps.step (vector_keeps ..)); focus exact rfl)
    | with_reducible apply Keeps.ite
    | with_reducible apply Keeps.ite_fst
    | with_reducible refine Keeps.foldl _ (fun _ _ => ?_) ?_
    | extract_lets
    | split
    | dsimp only)

theorem safeStage_keeps (s : State) (k : Nat) (cause : Nat) : Keeps (only [.start, .journal, .seats, .mem, .entropy, .prompts]) s (safeStage s k
    cause) := by
  unfold safeStage
  repeat' (first
    | with_reducible apply Keeps.refl
    | with_reducible assumption
    | ((with_reducible apply Keeps.step (enterService_keeps ..)); focus exact rfl)
    | ((with_reducible apply Keeps.step (endStart_keeps ..)); focus exact rfl)
    | ((with_reducible apply Keeps.step (State.modStart_keeps ..)); focus exact rfl)
    | with_reducible apply Keeps.ite
    | with_reducible apply Keeps.ite_fst
    | with_reducible refine Keeps.foldl _ (fun _ _ => ?_) ?_
    | extract_lets
    | split
    | dsimp only)

theorem enterReady_keeps (s : State) : Keeps (only [.start, .journal, .seats, .mem, .place, .entropy, .prompts]) s (enterReady s) := by
  unfold enterReady
  repeat' (first
    | with_reducible apply Keeps.refl
    | with_reducible assumption
    | ((with_reducible apply Keeps.step (enterService_keeps ..)); focus exact rfl)
    | ((with_reducible apply Keeps.step (fillHome_keeps ..)); focus exact rfl)
    | ((with_reducible apply Keeps.step (endStart_keeps ..)); focus exact rfl)
    | with_reducible apply Keeps.ite
    | with_reducible apply Keeps.ite_fst
    | with_reducible refine Keeps.foldl _ (fun _ _ => ?_) ?_
    | extract_lets
    | split
    | dsimp only)

theorem beginStep_keeps (s : State) (k : Nat) : Keeps (only [.start, .journal]) s (beginStep s k) := by
  unfold beginStep
  repeat' (first
    | with_reducible apply Keeps.refl
    | with_reducible assumption
    | ((with_reducible apply Keeps.step (putOutcome_keeps ..)); focus exact rfl)
    | ((with_reducible apply Keeps.step (State.modStart_keeps ..)); focus exact rfl)
    | with_reducible apply Keeps.ite
    | with_reducible apply Keeps.ite_fst
    | with_reducible refine Keeps.foldl _ (fun _ _ => ?_) ?_
    | extract_lets
    | split
    | dsimp only)

theorem journalCheck_keeps (s : State) : Keeps (only [.journal]) s (journalCheck s) := by
  unfold journalCheck
  repeat' (first
    | with_reducible apply Keeps.refl
    | with_reducible assumption
    | ((with_reducible apply Keeps.step (State.modJournal_keeps ..)); focus exact rfl)
    | with_reducible apply Keeps.ite
    | with_reducible apply Keeps.ite_fst
    | with_reducible refine Keeps.foldl _ (fun _ _ => ?_) ?_
    | extract_lets
    | split
    | dsimp only)

theorem dropCustRec_keeps (s : State) (i : Nat) : Keeps (only [.alarms, .cust, .prompts]) s (dropCustRec s i) := by
  unfold dropCustRec
  repeat' (first
    | with_reducible apply Keeps.refl
    | with_reducible assumption
    | ((with_reducible apply Keeps.step (alarmC_keeps ..)); focus exact rfl)
    | ((with_reducible apply Keeps.step (State.modCust_keeps ..)); focus exact rfl)
    | with_reducible apply Keeps.ite
    | with_reducible apply Keeps.ite_fst
    | with_reducible refine Keeps.foldl _ (fun _ _ => ?_) ?_
    | extract_lets
    | split
    | dsimp only)

theorem custJournalCheck_keeps (s : State) : Keeps (only [.alarms, .cust, .prompts]) s (custJournalCheck s) := by
  unfold custJournalCheck
  repeat' (first
    | with_reducible apply Keeps.refl
    | with_reducible assumption
    | ((with_reducible apply Keeps.step (State.modCust_keeps ..)); focus exact rfl)
    | ((with_reducible apply Keeps.step (dropCustRec_keeps ..)); focus exact rfl)
    | ((with_reducible apply Keeps.step (alarmC_keeps ..)); focus exact rfl)
    | with_reducible apply Keeps.ite
    | with_reducible apply Keeps.ite_fst
    | with_reducible refine Keeps.foldl _ (fun _ _ => ?_) ?_
    | extract_lets
    | split
    | dsimp only)

theorem countCut_keeps (s : State) : Keeps (only [.journal]) s (countCut s) := by
  unfold countCut
  repeat' (first
    | with_reducible apply Keeps.refl
    | with_reducible assumption
    | ((with_reducible apply Keeps.step (State.modJournal_keeps ..)); focus exact rfl)
    | with_reducible apply Keeps.ite
    | with_reducible apply Keeps.ite_fst
    | with_reducible refine Keeps.foldl _ (fun _ _ => ?_) ?_
    | extract_lets
    | split
    | dsimp only)

theorem startBegin_keeps (s : State) : Keeps (only [.start, .journal, .alarms, .cust, .prompts]) s (startBegin s) := by
  unfold startBegin
  repeat' (first
    | with_reducible apply Keeps.refl
    | with_reducible assumption
    | ((with_reducible apply Keeps.step (countCut_keeps ..)); focus exact rfl)
    | ((with_reducible apply Keeps.step (journalCheck_keeps ..)); focus exact rfl)
    | ((with_reducible apply Keeps.step (custJournalCheck_keeps ..)); focus exact rfl)
    | ((with_reducible apply Keeps.step (State.modStart_keeps ..)); focus exact rfl)
    | ((with_reducible apply Keeps.step (State.modJournal_keeps ..)); focus exact rfl)
    | ((with_reducible apply Keeps.step (beginStep_keeps ..)); focus exact rfl)
    | with_reducible apply Keeps.ite
    | with_reducible apply Keeps.ite_fst
    | with_reducible refine Keeps.foldl _ (fun _ _ => ?_) ?_
    | extract_lets
    | split
    | dsimp only)

theorem beginLadder_keeps (s : State) : Keeps (only [.start, .journal]) s (beginLadder s) := by
  unfold beginLadder
  repeat' (first
    | with_reducible apply Keeps.refl
    | with_reducible assumption
    | ((with_reducible apply Keeps.step (State.modStart_keeps ..)); focus exact rfl)
    | ((with_reducible apply Keeps.step (beginStep_keeps ..)); focus exact rfl)
    | with_reducible apply Keeps.ite
    | with_reducible apply Keeps.ite_fst
    | with_reducible refine Keeps.foldl _ (fun _ _ => ?_) ?_
    | extract_lets
    | split
    | dsimp only)

theorem rootkeyAck_keeps (s : State) (data : BitVec 256) (err : Bool) : Keeps (only [.start]) s (rootkeyAck s data err) := by
  unfold rootkeyAck
  repeat' (first
    | with_reducible apply Keeps.refl
    | with_reducible assumption
    | ((with_reducible apply Keeps.step (State.modStart_keeps ..)); focus exact rfl)
    | with_reducible apply Keeps.ite
    | with_reducible apply Keeps.ite_fst
    | with_reducible refine Keeps.foldl _ (fun _ _ => ?_) ?_
    | extract_lets
    | split
    | dsimp only)

theorem execRootkeyAck_keeps (data : BitVec 256) (err : Bool) (s : State) : OutKeeps (only [.start]) s (execRootkeyAck data err s) := by
  unfold execRootkeyAck
  repeat' (first
    | with_reducible apply Keeps.refl
    | with_reducible assumption
    | with_reducible exact OutKeeps.fault
    | with_reducible exact OutKeeps.refused
    | with_reducible apply OutKeeps.ok
    | with_reducible apply OutKeeps.next
    | with_reducible apply OutKeeps.ite
    | ((with_reducible apply whenDo_keeps); focus exact rfl)
    | ((with_reducible apply Keeps.step (rootkeyAck_keeps ..)); focus exact rfl)
    | with_reducible intro _
    | with_reducible apply Keeps.self
    | with_reducible apply Keeps.ite
    | with_reducible apply Keeps.ite_fst
    | with_reducible refine Keeps.foldl _ (fun _ _ => ?_) ?_
    | extract_lets
    | split
    | dsimp only)

theorem execRootkeyTimeout_keeps (s : State) : OutKeeps (allBut [.pending, .params, .offers, .nextJob, .window, .time, .cust]) s (execRootkeyTimeout
    s) := by
  unfold execRootkeyTimeout
  repeat' (first
    | with_reducible apply Keeps.refl
    | with_reducible assumption
    | with_reducible exact OutKeeps.fault
    | with_reducible exact OutKeeps.refused
    | with_reducible apply OutKeeps.ok
    | with_reducible apply OutKeeps.next
    | with_reducible apply OutKeeps.ite
    | ((with_reducible apply Keeps.step (fin_keeps ..)); focus exact rfl)
    | ((with_reducible apply whenDo_keeps); focus exact rfl)
    | ((with_reducible apply Keeps.step (failHalt_keeps ..)); focus exact rfl)
    | with_reducible intro _
    | with_reducible apply Keeps.self
    | with_reducible apply Keeps.ite
    | with_reducible apply Keeps.ite_fst
    | with_reducible refine Keeps.foldl _ (fun _ _ => ?_) ?_
    | extract_lets
    | split
    | dsimp only)

theorem deriveBk_keeps (s : State) (root : Nat) : Keeps (only [.start, .keys]) s (deriveBk s root) := by
  unfold deriveBk
  repeat' (first
    | with_reducible apply Keeps.refl
    | with_reducible assumption
    | ((with_reducible apply Keeps.step (State.modStart_keeps ..)); focus exact rfl)
    | ((with_reducible apply Keeps.step (State.modKeys_keeps ..)); focus exact rfl)
    | with_reducible apply Keeps.ite
    | with_reducible apply Keeps.ite_fst
    | with_reducible refine Keeps.foldl _ (fun _ _ => ?_) ?_
    | extract_lets
    | split
    | dsimp only)

theorem beginEntropy_keeps (s : State) : Keeps (only [.start, .journal, .entropy]) s (beginEntropy s) := by
  unfold beginEntropy
  repeat' (first
    | with_reducible apply Keeps.refl
    | with_reducible assumption
    | ((with_reducible apply Keeps.step (beginStep_keeps ..)); focus exact rfl)
    | ((with_reducible apply Keeps.step (instRequest_keeps ..)); focus exact rfl)
    | with_reducible apply Keeps.ite
    | with_reducible apply Keeps.ite_fst
    | with_reducible refine Keeps.foldl _ (fun _ _ => ?_) ?_
    | extract_lets
    | split
    | dsimp only
    | ((with_reducible apply Keeps.upd) <;> first | exact .inl rfl | exact .inr rfl | skip))

theorem epochStep_keeps (s : State) : Keeps (only [.keys, .entropy]) s (epochStep s) := by
  unfold epochStep
  repeat' (first
    | with_reducible apply Keeps.refl
    | with_reducible assumption
    | ((with_reducible apply Keeps.step (draw_keeps ..)); focus exact rfl)
    | ((with_reducible apply Keeps.step (State.modKeys_keeps ..)); focus exact rfl)
    | with_reducible refine Keeps.fst (by assumption) ?_
    | with_reducible apply Keeps.ite
    | with_reducible apply Keeps.ite_fst
    | with_reducible refine Keeps.foldl _ (fun _ _ => ?_) ?_
    | extract_lets
    | split
    | dsimp only)

theorem addBoot_keeps (s : State) (part : Nat) (va : Nat) (len : Nat) : Keeps (only [.mem]) s (addBoot s part va len) := by
  unfold addBoot
  repeat' (first
    | with_reducible apply Keeps.refl
    | with_reducible assumption
    | ((with_reducible apply Keeps.step (addAccess_keeps ..)); focus exact rfl)
    | with_reducible apply Keeps.ite
    | with_reducible apply Keeps.ite_fst
    | with_reducible refine Keeps.foldl _ (fun _ _ => ?_) ?_
    | extract_lets
    | split
    | dsimp only)

theorem beginFetch_keeps (s : State) (k : Nat) : Keeps (only [.start, .journal, .mem]) s (beginFetch s k) := by
  unfold beginFetch
  repeat' (first
    | with_reducible apply Keeps.refl
    | with_reducible assumption
    | ((with_reducible apply Keeps.step (State.modStart_keeps ..)); focus exact rfl)
    | ((with_reducible apply Keeps.step (beginStep_keeps ..)); focus exact rfl)
    | ((with_reducible apply Keeps.step (addBoot_keeps ..)); focus exact rfl)
    | with_reducible apply Keeps.ite
    | with_reducible apply Keeps.ite_fst
    | with_reducible refine Keeps.foldl _ (fun _ _ => ?_) ?_
    | extract_lets
    | split
    | dsimp only)

theorem imageData_keeps (s : State) (part : Nat) (b : Bytes) : Keeps (only [.start, .mem]) s (imageData s part b) := by
  unfold imageData
  repeat' (first
    | with_reducible apply Keeps.refl
    | with_reducible assumption
    | ((with_reducible apply Keeps.step (State.modStart_keeps ..)); focus exact rfl)
    | ((with_reducible apply Keeps.step (addBoot_keeps ..)); focus exact rfl)
    | with_reducible apply Keeps.ite
    | with_reducible apply Keeps.ite_fst
    | with_reducible refine Keeps.foldl _ (fun _ _ => ?_) ?_
    | extract_lets
    | split
    | dsimp only)

theorem beginCard_keeps (s : State) : Keeps (only [.start, .journal]) s (beginCard s) := by
  unfold beginCard
  repeat' (first
    | with_reducible apply Keeps.refl
    | with_reducible assumption
    | ((with_reducible apply Keeps.step (putOutcome_keeps ..)); focus exact rfl)
    | ((with_reducible apply Keeps.step (State.modStart_keeps ..)); focus exact rfl)
    | with_reducible apply Keeps.ite
    | with_reducible apply Keeps.ite_fst
    | with_reducible refine Keeps.foldl _ (fun _ _ => ?_) ?_
    | extract_lets
    | split
    | dsimp only)

theorem beginSmf_keeps (s : State) : Keeps (only [.start, .journal, .seats, .mem, .entropy, .prompts]) s (beginSmf s) := by
  unfold beginSmf
  repeat' (first
    | with_reducible apply Keeps.refl
    | with_reducible assumption
    | ((with_reducible apply Keeps.step (safeStage_keeps ..)); focus exact rfl)
    | ((with_reducible apply Keeps.step (putOutcome_keeps ..)); focus exact rfl)
    | ((with_reducible apply Keeps.step (beginFetch_keeps ..)); focus exact rfl)
    | with_reducible apply Keeps.ite
    | with_reducible apply Keeps.ite_fst
    | with_reducible refine Keeps.foldl _ (fun _ _ => ?_) ?_
    | extract_lets
    | split
    | dsimp only)

theorem afterTranslation_keeps (s : State) : Keeps (only [.start, .journal, .seats, .mem, .entropy, .prompts]) s (afterTranslation s) := by
  unfold afterTranslation
  repeat' (first
    | with_reducible apply Keeps.refl
    | with_reducible assumption
    | ((with_reducible apply Keeps.step (beginCard_keeps ..)); focus exact rfl)
    | ((with_reducible apply Keeps.step (beginSmf_keeps ..)); focus exact rfl)
    | ((with_reducible apply Keeps.step (State.modStart_keeps ..)); focus exact rfl)
    | with_reducible apply Keeps.ite
    | with_reducible apply Keeps.ite_fst
    | with_reducible refine Keeps.foldl _ (fun _ _ => ?_) ?_
    | extract_lets
    | split
    | dsimp only)

theorem beginSqm_keeps (s : State) : Keeps (only [.start, .journal, .seats, .mem, .entropy, .prompts]) s (beginSqm s) := by
  unfold beginSqm
  repeat' (first
    | with_reducible apply Keeps.refl
    | with_reducible assumption
    | ((with_reducible apply Keeps.step (safeStage_keeps ..)); focus exact rfl)
    | ((with_reducible apply Keeps.step (putOutcome_keeps ..)); focus exact rfl)
    | ((with_reducible apply Keeps.step (beginFetch_keeps ..)); focus exact rfl)
    | ((with_reducible apply Keeps.step (dropImage_keeps ..)); focus exact rfl)
    | ((with_reducible apply Keeps.step (State.modStart_keeps ..)); focus exact rfl)
    | ((with_reducible apply Keeps.step (beginStep_keeps ..)); focus exact rfl)
    | with_reducible apply Keeps.ite
    | with_reducible apply Keeps.ite_fst
    | with_reducible refine Keeps.foldl _ (fun _ _ => ?_) ?_
    | extract_lets
    | split
    | dsimp only)

theorem beginWings_keeps (s : State) : Keeps (only [.start, .journal, .seats, .mem, .entropy, .prompts]) s (beginWings s) := by
  unfold beginWings
  repeat' (first
    | with_reducible apply Keeps.refl
    | with_reducible assumption
    | ((with_reducible apply Keeps.step (safeStage_keeps ..)); focus exact rfl)
    | ((with_reducible apply Keeps.step (putOutcome_keeps ..)); focus exact rfl)
    | ((with_reducible apply Keeps.step (beginStep_keeps ..)); focus exact rfl)
    | with_reducible apply Keeps.ite
    | with_reducible apply Keeps.ite_fst
    | with_reducible refine Keeps.foldl _ (fun _ _ => ?_) ?_
    | extract_lets
    | split
    | dsimp only)

theorem beginRelay_keeps (s : State) : Keeps (allBut [.pending, .params, .rings, .seatRegs, .offers, .nextJob, .window, .front, .cust, .freeCount]) s
    (beginRelay s) := by
  unfold beginRelay
  repeat' (first
    | with_reducible apply Keeps.refl
    | with_reducible assumption
    | ((with_reducible apply Keeps.step (enterReady_keeps ..)); focus exact rfl)
    | ((with_reducible apply Keeps.step (putOutcome_keeps ..)); focus exact rfl)
    | ((with_reducible apply Keeps.step (State.modStart_keeps ..)); focus exact rfl)
    | ((with_reducible apply Keeps.step (relayBegin_keeps ..)); focus exact rfl)
    | ((with_reducible apply Keeps.step (beginStep_keeps ..)); focus exact rfl)
    | with_reducible apply Keeps.ite
    | with_reducible apply Keeps.ite_fst
    | with_reducible refine Keeps.foldl _ (fun _ _ => ?_) ?_
    | extract_lets
    | split
    | dsimp only)

theorem beginFront_keeps (s : State) : Keeps (allBut [.pending, .params, .rings, .seatRegs, .offers, .nextJob, .window, .cust, .freeCount]) s
    (beginFront s) := by
  unfold beginFront
  repeat' (first
    | with_reducible apply Keeps.refl
    | with_reducible assumption
    | ((with_reducible apply Keeps.step (beginRelay_keeps ..)); focus exact rfl)
    | ((with_reducible apply Keeps.step (putOutcome_keeps ..)); focus exact rfl)
    | ((with_reducible apply Keeps.step (State.modStart_keeps ..)); focus exact rfl)
    | ((with_reducible apply Keeps.step (State.modFront_keeps ..)); focus exact rfl)
    | ((with_reducible apply Keeps.step (beginStep_keeps ..)); focus exact rfl)
    | with_reducible apply Keeps.ite
    | with_reducible apply Keeps.ite_fst
    | with_reducible refine Keeps.foldl _ (fun _ _ => ?_) ?_
    | extract_lets
    | split
    | dsimp only)

theorem loadGraph_keeps (s : State) (bank : Bool) : Keeps (only [.front]) s (loadGraph s bank) := by
  unfold loadGraph
  repeat' (first
    | with_reducible apply Keeps.refl
    | with_reducible assumption
    | ((with_reducible apply Keeps.step (putNodes_keeps ..)); focus exact rfl)
    | ((with_reducible apply Keeps.step (State.modFront_keeps ..)); focus exact rfl)
    | with_reducible apply Keeps.ite
    | with_reducible apply Keeps.ite_fst
    | with_reducible refine Keeps.foldl _ (fun _ _ => ?_) ?_
    | extract_lets
    | split
    | dsimp only)

theorem frontEnd_keeps (s : State) (good : Bool) (run : Bool) : Keeps (only [.front]) s (frontEnd s good run) := by
  unfold frontEnd
  repeat' (first
    | with_reducible apply Keeps.refl
    | with_reducible assumption
    | ((with_reducible apply Keeps.step (doSwap_keeps ..)); focus exact rfl)
    | ((with_reducible apply Keeps.step (loadGraph_keeps ..)); focus exact rfl)
    | ((with_reducible apply Keeps.step (State.modFront_keeps ..)); focus exact rfl)
    | with_reducible apply Keeps.ite
    | with_reducible apply Keeps.ite_fst
    | with_reducible refine Keeps.foldl _ (fun _ _ => ?_) ?_
    | extract_lets
    | split
    | dsimp only)

theorem seeCard_keeps (s : State) : Keeps (only [.cust]) s (seeCard s) := by
  unfold seeCard
  repeat' (first
    | with_reducible apply Keeps.refl
    | with_reducible assumption
    | ((with_reducible apply Keeps.step (State.modCust_keeps ..)); focus exact rfl)
    | with_reducible apply Keeps.ite
    | with_reducible apply Keeps.ite_fst
    | with_reducible refine Keeps.foldl _ (fun _ _ => ?_) ?_
    | extract_lets
    | split
    | dsimp only)

theorem doneManager_keeps (s : State) : Keeps (allBut [.pending, .params, .seats, .offers, .nextJob, .freeCount]) s (doneManager s) := by
  unfold doneManager
  repeat' (first
    | with_reducible apply Keeps.refl
    | with_reducible assumption
    | ((with_reducible apply Keeps.step (armSensors_keeps ..)); focus exact rfl)
    | ((with_reducible apply Keeps.step (beginLadder_keeps ..)); focus exact rfl)
    | ((with_reducible apply Keeps.step (putOutcome_keeps ..)); focus exact rfl)
    | ((with_reducible apply Keeps.step (seeCard_keeps ..)); focus exact rfl)
    | ((with_reducible apply Keeps.step (timeStart_keeps ..)); focus exact rfl)
    | with_reducible apply Keeps.ite
    | with_reducible apply Keeps.ite_fst
    | with_reducible refine Keeps.foldl _ (fun _ _ => ?_) ?_
    | extract_lets
    | split
    | dsimp only)

theorem doneLadder_keeps (s : State) (good : Bool) : Keeps (only [.start, .journal, .mem, .keys, .entropy]) s (doneLadder s good) := by
  unfold doneLadder
  repeat' (first
    | with_reducible apply Keeps.refl
    | with_reducible assumption
    | ((with_reducible apply Keeps.step (failHalt_keeps ..)); focus exact rfl)
    | ((with_reducible apply Keeps.step (beginEntropy_keeps ..)); focus exact rfl)
    | ((with_reducible apply Keeps.step (putOutcome_keeps ..)); focus exact rfl)
    | ((with_reducible apply Keeps.step (deriveBk_keeps ..)); focus exact rfl)
    | with_reducible apply Keeps.ite
    | with_reducible apply Keeps.ite_fst
    | with_reducible refine Keeps.foldl _ (fun _ _ => ?_) ?_
    | extract_lets
    | split
    | dsimp only)

theorem doneEntropy_keeps (s : State) : Keeps (only [.start, .journal, .mem, .keys, .entropy]) s (doneEntropy s) := by
  unfold doneEntropy
  repeat' (first
    | with_reducible apply Keeps.refl
    | with_reducible assumption
    | ((with_reducible apply Keeps.step (failHalt_keeps ..)); focus exact rfl)
    | ((with_reducible apply Keeps.step (beginStep_keeps ..)); focus exact rfl)
    | ((with_reducible apply Keeps.step (putOutcome_keeps ..)); focus exact rfl)
    | ((with_reducible apply Keeps.step (epochStep_keeps ..)); focus exact rfl)
    | with_reducible apply Keeps.ite
    | with_reducible apply Keeps.ite_fst
    | with_reducible refine Keeps.foldl _ (fun _ _ => ?_) ?_
    | extract_lets
    | split
    | dsimp only)

theorem doneSmf_keeps (s : State) : Keeps (only [.start, .journal, .seats, .mem, .entropy, .prompts]) s (doneSmf s) := by
  unfold doneSmf
  repeat' (first
    | with_reducible apply Keeps.refl
    | with_reducible assumption
    | ((with_reducible apply Keeps.step (safeStage_keeps ..)); focus exact rfl)
    | ((with_reducible apply Keeps.step (putOutcome_keeps ..)); focus exact rfl)
    | ((with_reducible apply Keeps.step (State.modStart_keeps ..)); focus exact rfl)
    | ((with_reducible apply Keeps.step (beginSqm_keeps ..)); focus exact rfl)
    | with_reducible apply Keeps.ite
    | with_reducible apply Keeps.ite_fst
    | with_reducible refine Keeps.foldl _ (fun _ _ => ?_) ?_
    | extract_lets
    | split
    | dsimp only)

theorem afterSqm_keeps (s : State) (out : Nat) : Keeps (only [.start, .journal, .mem]) s (afterSqm s out) := by
  unfold afterSqm
  repeat' (first
    | with_reducible apply Keeps.refl
    | with_reducible assumption
    | ((with_reducible apply Keeps.step (beginStep_keeps ..)); focus exact rfl)
    | ((with_reducible apply Keeps.step (putOutcome_keeps ..)); focus exact rfl)
    | ((with_reducible apply Keeps.step (dropImage_keeps ..)); focus exact rfl)
    | with_reducible apply Keeps.ite
    | with_reducible apply Keeps.ite_fst
    | with_reducible refine Keeps.foldl _ (fun _ _ => ?_) ?_
    | extract_lets
    | split
    | dsimp only)

theorem doneSqm_keeps (s : State) : Keeps (only [.start, .journal, .seats, .mem, .entropy, .prompts]) s (doneSqm s) := by
  unfold doneSqm
  repeat' (first
    | with_reducible apply Keeps.refl
    | with_reducible assumption
    | ((with_reducible apply Keeps.step (afterSqm_keeps ..)); focus exact rfl)
    | ((with_reducible apply Keeps.step (State.modStart_keeps ..)); focus exact rfl)
    | ((with_reducible apply Keeps.step (safeStage_keeps ..)); focus exact rfl)
    | ((with_reducible apply Keeps.step (putOutcome_keeps ..)); focus exact rfl)
    | with_reducible apply Keeps.ite
    | with_reducible apply Keeps.ite_fst
    | with_reducible refine Keeps.foldl _ (fun _ _ => ?_) ?_
    | extract_lets
    | split
    | dsimp only)

theorem donePairing_keeps (s : State) : Keeps (only [.start, .journal, .seats, .mem, .entropy, .prompts]) s (donePairing s) := by
  unfold donePairing
  repeat' (first
    | with_reducible apply Keeps.refl
    | with_reducible assumption
    | ((with_reducible apply Keeps.step (beginWings_keeps ..)); focus exact rfl)
    | ((with_reducible apply Keeps.step (putOutcome_keeps ..)); focus exact rfl)
    | ((with_reducible apply Keeps.step (safeStage_keeps ..)); focus exact rfl)
    | with_reducible apply Keeps.ite
    | with_reducible apply Keeps.ite_fst
    | with_reducible refine Keeps.foldl _ (fun _ _ => ?_) ?_
    | extract_lets
    | split
    | dsimp only)

theorem doneWings_keeps (s : State) (passed : Nat) : Keeps (allBut [.pending, .params, .rings, .seatRegs, .offers, .nextJob, .window, .cust,
    .freeCount]) s (doneWings s passed) := by
  unfold doneWings
  repeat' (first
    | with_reducible apply Keeps.refl
    | with_reducible assumption
    | ((with_reducible apply Keeps.step (State.modJournal_keeps ..)); focus exact rfl)
    | ((with_reducible apply Keeps.step (State.modStart_keeps ..)); focus exact rfl)
    | ((with_reducible apply Keeps.step (State.modWing_keeps ..)); focus exact rfl)
    | ((with_reducible apply Keeps.step (reseedWing_keeps ..)); focus exact rfl)
    | ((with_reducible apply Keeps.step (safeStage_keeps ..)); focus exact rfl)
    | ((with_reducible apply Keeps.step (putOutcome_keeps ..)); focus exact rfl)
    | ((with_reducible apply Keeps.step (beginFront_keeps ..)); focus exact rfl)
    | ((with_reducible apply Keeps.step (requestAll_keeps ..)); focus exact rfl)
    | with_reducible apply Keeps.ite
    | with_reducible apply Keeps.ite_fst
    | with_reducible refine Keeps.foldl _ (fun _ _ => ?_) ?_
    | extract_lets
    | split
    | dsimp only)

theorem doneFront_keeps (s : State) (good : Bool) : Keeps (allBut [.pending, .params, .rings, .seatRegs, .offers, .nextJob, .window, .cust,
    .freeCount]) s (doneFront s good) := by
  unfold doneFront
  repeat' (first
    | with_reducible apply Keeps.refl
    | with_reducible assumption
    | ((with_reducible apply Keeps.step (beginRelay_keeps ..)); focus exact rfl)
    | ((with_reducible apply Keeps.step (putOutcome_keeps ..)); focus exact rfl)
    | ((with_reducible apply Keeps.step (frontEnd_keeps ..)); focus exact rfl)
    | with_reducible apply Keeps.ite
    | with_reducible apply Keeps.ite_fst
    | with_reducible refine Keeps.foldl _ (fun _ _ => ?_) ?_
    | extract_lets
    | split
    | dsimp only)

theorem doneRelay_keeps (s : State) : Keeps (only [.start, .journal, .seats, .mem, .place, .entropy, .prompts]) s (doneRelay s) := by
  unfold doneRelay
  repeat' (first
    | with_reducible apply Keeps.refl
    | with_reducible assumption
    | ((with_reducible apply Keeps.step (enterReady_keeps ..)); focus exact rfl)
    | ((with_reducible apply Keeps.step (putOutcome_keeps ..)); focus exact rfl)
    | with_reducible apply Keeps.ite
    | with_reducible apply Keeps.ite_fst
    | with_reducible refine Keeps.foldl _ (fun _ _ => ?_) ?_
    | extract_lets
    | split
    | dsimp only)

theorem smgEnd_keeps (s : State) (result : Nat) : Keeps (only [.start, .prompts]) s (smgEnd s result) := by
  unfold smgEnd
  repeat' (first
    | with_reducible apply Keeps.refl
    | with_reducible assumption
    | ((with_reducible apply Keeps.step (vector_keeps ..)); focus exact rfl)
    | ((with_reducible apply Keeps.step (State.modStart_keeps ..)); focus exact rfl)
    | with_reducible apply Keeps.ite
    | with_reducible apply Keeps.ite_fst
    | with_reducible refine Keeps.foldl _ (fun _ _ => ?_) ?_
    | extract_lets
    | split
    | dsimp only)

theorem runEnd_keeps (s : State) (k : Nat) (out : Nat) : Keeps (only [.start, .journal, .prompts]) s (runEnd s k out) := by
  unfold runEnd
  repeat' (first
    | with_reducible apply Keeps.refl
    | with_reducible assumption
    | ((with_reducible apply Keeps.step (smgEnd_keeps ..)); focus exact rfl)
    | ((with_reducible apply Keeps.step (putOutcome_keeps ..)); focus exact rfl)
    | with_reducible apply Keeps.ite
    | with_reducible apply Keeps.ite_fst
    | with_reducible refine Keeps.foldl _ (fun _ _ => ?_) ?_
    | extract_lets
    | split
    | dsimp only)

theorem endCard_keeps (s : State) (main : Bool) (run : Bool) (out : Nat) (outRun : Nat) : Keeps (only [.start, .journal, .prompts]) s (endCard s main
    run out outRun) := by
  unfold endCard
  repeat' (first
    | with_reducible apply Keeps.refl
    | with_reducible assumption
    | ((with_reducible apply Keeps.step (putOutcome_keeps ..)); focus exact rfl)
    | ((with_reducible apply Keeps.step (State.modStart_keeps ..)); focus exact rfl)
    | ((with_reducible apply Keeps.step (runEnd_keeps ..)); focus exact rfl)
    | with_reducible apply Keeps.ite
    | with_reducible apply Keeps.ite_fst
    | with_reducible refine Keeps.foldl _ (fun _ _ => ?_) ?_
    | extract_lets
    | split
    | dsimp only)

theorem mainDone_keeps (s : State) (k : Nat) (good : Bool) (info : Nat) : Keeps (allBut [.pending, .params, .offers, .nextJob, .freeCount]) s
    (mainDone s k good info) := by
  unfold mainDone
  repeat' (first
    | with_reducible apply Keeps.refl
    | with_reducible assumption
    | ((with_reducible apply Keeps.step (beginStep_keeps ..)); focus exact rfl)
    | ((with_reducible apply Keeps.step (putOutcome_keeps ..)); focus exact rfl)
    | ((with_reducible apply Keeps.step (failHalt_keeps ..)); focus exact rfl)
    | ((with_reducible apply Keeps.step (doneManager_keeps ..)); focus exact rfl)
    | ((with_reducible apply Keeps.step (doneLadder_keeps ..)); focus exact rfl)
    | ((with_reducible apply Keeps.step (doneEntropy_keeps ..)); focus exact rfl)
    | ((with_reducible apply Keeps.step (afterTranslation_keeps ..)); focus exact rfl)
    | ((with_reducible apply Keeps.step (doneSmf_keeps ..)); focus exact rfl)
    | ((with_reducible apply Keeps.step (doneSqm_keeps ..)); focus exact rfl)
    | ((with_reducible apply Keeps.step (donePairing_keeps ..)); focus exact rfl)
    | ((with_reducible apply Keeps.step (doneWings_keeps ..)); focus exact rfl)
    | ((with_reducible apply Keeps.step (doneFront_keeps ..)); focus exact rfl)
    | ((with_reducible apply Keeps.step (doneRelay_keeps ..)); focus exact rfl)
    | with_reducible apply Keeps.ite
    | with_reducible apply Keeps.ite_fst
    | with_reducible refine Keeps.foldl _ (fun _ _ => ?_) ?_
    | extract_lets
    | split
    | dsimp only)

theorem runDone_keeps (s : State) (k : Nat) (good : Bool) : Keeps (only [.start, .journal, .front, .prompts]) s (runDone s k good) := by
  unfold runDone
  repeat' (first
    | with_reducible apply Keeps.refl
    | with_reducible assumption
    | ((with_reducible apply Keeps.step (runEnd_keeps ..)); focus exact rfl)
    | ((with_reducible apply Keeps.step (frontEnd_keeps ..)); focus exact rfl)
    | with_reducible apply Keeps.ite
    | with_reducible apply Keeps.ite_fst
    | with_reducible refine Keeps.foldl _ (fun _ _ => ?_) ?_
    | extract_lets
    | split
    | dsimp only)

theorem stepDone_keeps (s : State) (k : Nat) (good : Bool) (info : Nat) : Keeps (allBut [.pending, .params, .offers, .nextJob, .freeCount]) s
    (stepDone s k good info) := by
  unfold stepDone
  repeat' (first
    | with_reducible apply Keeps.refl
    | with_reducible assumption
    | ((with_reducible apply Keeps.step (endCard_keeps ..)); focus exact rfl)
    | ((with_reducible apply Keeps.step (mainDone_keeps ..)); focus exact rfl)
    | ((with_reducible apply Keeps.step (runDone_keeps ..)); focus exact rfl)
    | with_reducible apply Keeps.ite
    | with_reducible apply Keeps.ite_fst
    | with_reducible refine Keeps.foldl _ (fun _ _ => ?_) ?_
    | extract_lets
    | split
    | dsimp only)

theorem execStartStepDone_keeps (step : Nat) (ok : Bool) (info : Nat) (s : State) : OutKeeps (allBut [.pending, .params, .offers, .nextJob]) s
    (execStartStepDone step ok info s) := by
  unfold execStartStepDone
  repeat' (first
    | with_reducible apply Keeps.refl
    | with_reducible assumption
    | with_reducible exact OutKeeps.fault
    | with_reducible exact OutKeeps.refused
    | with_reducible apply OutKeeps.ok
    | with_reducible apply OutKeeps.next
    | with_reducible apply OutKeeps.ite
    | ((with_reducible apply Keeps.step (carryAll_keeps ..)); focus exact rfl)
    | ((with_reducible apply whenDo_keeps); focus exact rfl)
    | ((with_reducible apply Keeps.step (stepDone_keeps ..)); focus exact rfl)
    | with_reducible intro _
    | with_reducible apply Keeps.self
    | with_reducible apply Keeps.ite
    | with_reducible apply Keeps.ite_fst
    | with_reducible refine Keeps.foldl _ (fun _ _ => ?_) ?_
    | extract_lets
    | split
    | dsimp only)

theorem mainBound_keeps (s : State) (k : Nat) : Keeps (allBut [.pending, .params, .rings, .seatRegs, .offers, .nextJob, .window, .cust, .freeCount]) s
    (mainBound s k) := by
  unfold mainBound
  repeat' (first
    | with_reducible apply Keeps.refl
    | with_reducible assumption
    | ((with_reducible apply Keeps.step (failHalt_keeps ..)); focus exact rfl)
    | ((with_reducible apply Keeps.step (alarmB_keeps ..)); focus exact rfl)
    | ((with_reducible apply Keeps.step (doneEntropy_keeps ..)); focus exact rfl)
    | ((with_reducible apply Keeps.step (safeStage_keeps ..)); focus exact rfl)
    | ((with_reducible apply Keeps.step (putOutcome_keeps ..)); focus exact rfl)
    | ((with_reducible apply Keeps.step (donePairing_keeps ..)); focus exact rfl)
    | ((with_reducible apply Keeps.step (doneWings_keeps ..)); focus exact rfl)
    | ((with_reducible apply Keeps.step (doneFront_keeps ..)); focus exact rfl)
    | ((with_reducible apply Keeps.step (enterReady_keeps ..)); focus exact rfl)
    | with_reducible apply Keeps.ite
    | with_reducible apply Keeps.ite_fst
    | with_reducible refine Keeps.foldl _ (fun _ _ => ?_) ?_
    | extract_lets
    | split
    | dsimp only)

theorem stepAtBound_keeps (s : State) (k : Nat) : Keeps (allBut [.pending, .params, .rings, .seatRegs, .offers, .nextJob, .window, .cust, .freeCount])
    s (stepAtBound s k) := by
  unfold stepAtBound
  repeat' (first
    | with_reducible apply Keeps.refl
    | with_reducible assumption
    | ((with_reducible apply Keeps.step (endCard_keeps ..)); focus exact rfl)
    | ((with_reducible apply Keeps.step (mainBound_keeps ..)); focus exact rfl)
    | ((with_reducible apply Keeps.step (runEnd_keeps ..)); focus exact rfl)
    | ((with_reducible apply Keeps.step (frontEnd_keeps ..)); focus exact rfl)
    | with_reducible apply Keeps.ite
    | with_reducible apply Keeps.ite_fst
    | with_reducible refine Keeps.foldl _ (fun _ _ => ?_) ?_
    | extract_lets
    | split
    | dsimp only)

theorem execStartStepBound_keeps (step : Nat) (s : State) : OutKeeps (allBut [.pending, .params, .offers, .nextJob, .window, .cust]) s
    (execStartStepBound step s) := by
  unfold execStartStepBound
  repeat' (first
    | with_reducible apply Keeps.refl
    | with_reducible assumption
    | with_reducible exact OutKeeps.fault
    | with_reducible exact OutKeeps.refused
    | with_reducible apply OutKeeps.ok
    | with_reducible apply OutKeeps.next
    | with_reducible apply OutKeeps.ite
    | ((with_reducible apply Keeps.step (carryAll_keeps ..)); focus exact rfl)
    | ((with_reducible apply whenDo_keeps); focus exact rfl)
    | ((with_reducible apply Keeps.step (stepAtBound_keeps ..)); focus exact rfl)
    | with_reducible intro _
    | with_reducible apply Keeps.self
    | with_reducible apply Keeps.ite
    | with_reducible apply Keeps.ite_fst
    | with_reducible refine Keeps.foldl _ (fun _ _ => ?_) ?_
    | extract_lets
    | split
    | dsimp only)

theorem bootCtrl_keeps (s : State) (v : W32) : Keeps (only [.start, .journal, .seats, .mem, .entropy, .prompts]) s (bootCtrl s v) := by
  unfold bootCtrl
  repeat' (first
    | with_reducible apply Keeps.refl
    | with_reducible assumption
    | ((with_reducible apply Keeps.step (State.modStart_keeps ..)); focus exact rfl)
    | ((with_reducible apply Keeps.step (beginSmf_keeps ..)); focus exact rfl)
    | with_reducible apply Keeps.ite
    | with_reducible apply Keeps.ite_fst
    | with_reducible refine Keeps.foldl _ (fun _ _ => ?_) ?_
    | extract_lets
    | split
    | dsimp only)

theorem execImagesValidWrite_keeps (value : W32) (s : State) : OutKeeps (allBut [.pending, .params, .offers, .nextJob, .window, .time, .cust]) s
    (execImagesValidWrite value s) := by
  unfold execImagesValidWrite
  repeat' (first
    | with_reducible apply Keeps.refl
    | with_reducible assumption
    | with_reducible exact OutKeeps.fault
    | with_reducible exact OutKeeps.refused
    | with_reducible apply OutKeeps.ok
    | with_reducible apply OutKeeps.next
    | with_reducible apply OutKeeps.ite
    | ((with_reducible apply Keeps.step (carryAll_keeps ..)); focus exact rfl)
    | ((with_reducible apply mgrWrite_keeps); focus exact rfl)
    | ((with_reducible apply Keeps.step (bootCtrl_keeps ..)); focus exact rfl)
    | with_reducible intro _
    | with_reducible apply Keeps.self
    | with_reducible apply Keeps.ite
    | with_reducible apply Keeps.ite_fst
    | with_reducible refine Keeps.foldl _ (fun _ _ => ?_) ?_
    | extract_lets
    | split
    | dsimp only)

theorem acceptVersion_keeps (s : State) (sqm : Bool) (v : W32) : Keeps (only [.start, .cust]) s (acceptVersion s sqm v) := by
  unfold acceptVersion
  repeat' (first
    | with_reducible apply Keeps.refl
    | with_reducible assumption
    | ((with_reducible apply Keeps.step (endAuth_keeps ..)); focus exact rfl)
    | ((with_reducible apply Keeps.step (State.modStart_keeps ..)); focus exact rfl)
    | ((with_reducible apply Keeps.step (State.modCust_keeps ..)); focus exact rfl)
    | with_reducible apply Keeps.ite
    | with_reducible apply Keeps.ite_fst
    | with_reducible refine Keeps.foldl _ (fun _ _ => ?_) ?_
    | extract_lets
    | split
    | dsimp only)

theorem execAcceptVersionWrite_keeps (sqm : Bool) (value : W32) (s : State) : OutKeeps (only [.start, .alarms, .cust, .prompts]) s
    (execAcceptVersionWrite sqm value s) := by
  unfold execAcceptVersionWrite
  repeat' (first
    | with_reducible apply Keeps.refl
    | with_reducible assumption
    | with_reducible exact OutKeeps.fault
    | with_reducible exact OutKeeps.refused
    | with_reducible apply OutKeeps.ok
    | with_reducible apply OutKeeps.next
    | with_reducible apply OutKeeps.ite
    | ((with_reducible apply mgrWrite_keeps); focus exact rfl)
    | ((with_reducible apply Keeps.step (acceptVersion_keeps ..)); focus exact rfl)
    | with_reducible intro _
    | with_reducible apply Keeps.self
    | with_reducible apply Keeps.ite
    | with_reducible apply Keeps.ite_fst
    | with_reducible refine Keeps.foldl _ (fun _ _ => ?_) ?_
    | extract_lets
    | split
    | dsimp only)

theorem imgWrite_keeps (s : State) (off : Nat) (n : Nat) : Keeps (only [.start]) s (imgWrite s off n) := by
  unfold imgWrite
  repeat' (first
    | with_reducible apply Keeps.refl
    | with_reducible assumption
    | ((with_reducible apply Keeps.step (State.modStart_keeps ..)); focus exact rfl)
    | with_reducible apply Keeps.ite
    | with_reducible apply Keeps.ite_fst
    | with_reducible refine Keeps.foldl _ (fun _ _ => ?_) ?_
    | extract_lets
    | split
    | dsimp only)

theorem clearFails_keeps (s : State) (k : Nat) : Keeps (only [.journal]) s (clearFails s k) := by
  unfold clearFails
  repeat' (first
    | with_reducible apply Keeps.refl
    | with_reducible assumption
    | ((with_reducible apply Keeps.step (State.modJournal_keeps ..)); focus exact rfl)
    | with_reducible apply Keeps.ite
    | with_reducible apply Keeps.ite_fst
    | with_reducible refine Keeps.foldl _ (fun _ _ => ?_) ?_
    | extract_lets
    | split
    | dsimp only)

theorem runBegin_keeps (s : State) (k : Nat) : Keeps (allBut [.pending, .params, .seats, .rings, .seatRegs, .offers, .nextJob, .place, .window, .cust,
    .freeCount]) s (runBegin s k) := by
  unfold runBegin
  repeat' (first
    | with_reducible apply Keeps.refl
    | with_reducible assumption
    | ((with_reducible apply Keeps.step (putOutcome_keeps ..)); focus exact rfl)
    | ((with_reducible apply Keeps.step (State.modStart_keeps ..)); focus exact rfl)
    | ((with_reducible apply Keeps.step (State.modFront_keeps ..)); focus exact rfl)
    | ((with_reducible apply Keeps.step (relayBegin_keeps ..)); focus exact rfl)
    | ((with_reducible apply Keeps.step (runEnd_keeps ..)); focus exact rfl)
    | with_reducible apply Keeps.ite
    | with_reducible apply Keeps.ite_fst
    | with_reducible refine Keeps.foldl _ (fun _ _ => ?_) ?_
    | extract_lets
    | split
    | dsimp only)

theorem smgCmd_keeps (s : State) (code : Nat) (arg : Nat) : Keeps (allBut [.pending, .params, .seats, .rings, .seatRegs, .offers, .nextJob, .place,
    .window, .freeCount]) s (smgCmd s code arg) := by
  unfold smgCmd
  repeat' (first
    | with_reducible apply Keeps.refl
    | with_reducible assumption
    | ((with_reducible apply Keeps.step (smgEnd_keeps ..)); focus exact rfl)
    | ((with_reducible apply Keeps.step (clearFails_keeps ..)); focus exact rfl)
    | ((with_reducible apply Keeps.step (runBegin_keeps ..)); focus exact rfl)
    | ((with_reducible apply Keeps.step (endAuth_keeps ..)); focus exact rfl)
    | ((with_reducible apply Keeps.step (State.modStart_keeps ..)); focus exact rfl)
    | with_reducible apply Keeps.ite
    | with_reducible apply Keeps.ite_fst
    | with_reducible refine Keeps.foldl _ (fun _ _ => ?_) ?_
    | extract_lets
    | split
    | dsimp only)

theorem execClearFail_keeps (step : Nat) (s : State) : OutKeeps (allBut [.pending, .params, .seats, .rings, .seatRegs, .offers, .nextJob, .place,
    .window, .freeCount]) s (execClearFail step s) := by
  unfold execClearFail
  repeat' (first
    | with_reducible apply Keeps.refl
    | with_reducible assumption
    | with_reducible exact OutKeeps.fault
    | with_reducible exact OutKeeps.refused
    | with_reducible apply OutKeeps.ok
    | with_reducible apply OutKeeps.next
    | with_reducible apply OutKeeps.ite
    | ((with_reducible apply mgrWrite_keeps); focus exact rfl)
    | ((with_reducible apply Keeps.step (smgCmd_keeps ..)); focus exact rfl)
    | with_reducible intro _
    | with_reducible apply Keeps.self
    | with_reducible apply Keeps.ite
    | with_reducible apply Keeps.ite_fst
    | with_reducible refine Keeps.foldl _ (fun _ _ => ?_) ?_
    | extract_lets
    | split
    | dsimp only)

theorem execRunStep_keeps (step : Nat) (s : State) : OutKeeps (allBut [.pending, .params, .offers, .nextJob, .window]) s (execRunStep step s) := by
  unfold execRunStep
  repeat' (first
    | with_reducible apply Keeps.refl
    | with_reducible assumption
    | with_reducible exact OutKeeps.fault
    | with_reducible exact OutKeeps.refused
    | with_reducible apply OutKeeps.ok
    | with_reducible apply OutKeeps.next
    | with_reducible apply OutKeeps.ite
    | ((with_reducible apply Keeps.step (carryAll_keeps ..)); focus exact rfl)
    | ((with_reducible apply mgrWrite_keeps); focus exact rfl)
    | ((with_reducible apply Keeps.step (smgCmd_keeps ..)); focus exact rfl)
    | with_reducible intro _
    | with_reducible apply Keeps.self
    | with_reducible apply Keeps.ite
    | with_reducible apply Keeps.ite_fst
    | with_reducible refine Keeps.foldl _ (fun _ _ => ?_) ?_
    | extract_lets
    | split
    | dsimp only)

theorem execAcceptUntested_keeps (s : State) : OutKeeps (allBut [.pending, .params, .seats, .rings, .seatRegs, .offers, .nextJob, .place, .window,
    .freeCount]) s (execAcceptUntested s) := by
  unfold execAcceptUntested
  repeat' (first
    | with_reducible apply Keeps.refl
    | with_reducible assumption
    | with_reducible exact OutKeeps.fault
    | with_reducible exact OutKeeps.refused
    | with_reducible apply OutKeeps.ok
    | with_reducible apply OutKeeps.next
    | with_reducible apply OutKeeps.ite
    | ((with_reducible apply mgrWrite_keeps); focus exact rfl)
    | ((with_reducible apply Keeps.step (smgCmd_keeps ..)); focus exact rfl)
    | with_reducible intro _
    | with_reducible apply Keeps.self
    | with_reducible apply Keeps.ite
    | with_reducible apply Keeps.ite_fst
    | with_reducible refine Keeps.foldl _ (fun _ _ => ?_) ?_
    | extract_lets
    | split
    | dsimp only)

theorem smgWrite_keeps (s : State) (off : Nat) (v : W32) : Keeps (allBut [.pending, .params, .rings, .seatRegs, .offers, .nextJob, .place, .window,
    .freeCount]) s (smgWrite s off v) := by
  unfold smgWrite
  repeat' (first
    | with_reducible apply Keeps.refl
    | with_reducible assumption
    | ((with_reducible apply Keeps.step (State.modJournal_keeps ..)); focus exact rfl)
    | ((with_reducible apply Keeps.step (bootCtrl_keeps ..)); focus exact rfl)
    | ((with_reducible apply Keeps.step (acceptVersion_keeps ..)); focus exact rfl)
    | ((with_reducible apply Keeps.step (smgCmd_keeps ..)); focus exact rfl)
    | ((with_reducible apply Keeps.step (imgWrite_keeps ..)); focus exact rfl)
    | with_reducible apply Keeps.ite
    | with_reducible apply Keeps.ite_fst
    | with_reducible refine Keeps.foldl _ (fun _ _ => ?_) ?_
    | extract_lets
    | split
    | dsimp only)

end Sys2Proof.Machine
end

