-- ==== Sys2Proof/Laws/FrameMemEvents.lean ====
section
/-! SUPPORT. Frames of Machine/MemEvents: for each operation, the parts of the state it may change. -/

namespace Sys2Proof.Machine

theorem jobData_keeps (s : State) (id : Nat) (key : BufKey) (ord : Nat) (b : Bytes) : Keeps (only [.seats, .jobs, .mem, .place, .buffers, .engines,
    .keys, .front]) s (jobData s id key ord b) := by
  unfold jobData
  repeat' (first
    | with_reducible apply Keeps.refl
    | with_reducible assumption
    | ((with_reducible apply Keeps.step (gotBucket_keeps ..)); focus exact rfl)
    | ((with_reducible apply Keeps.step (State.modJob_keeps ..)); focus exact rfl)
    | ((with_reducible apply Keeps.step (frontGo_keeps ..)); focus exact rfl)
    | with_reducible apply Keeps.ite
    | with_reducible apply Keeps.ite_fst
    | with_reducible refine Keeps.foldl _ (fun _ _ => ?_) ?_
    | extract_lets
    | split
    | dsimp only)

theorem peerData_keeps (s : State) (t : Nat) (b : Nat) (v : Bytes) : Keeps (only [.mem, .front]) s (peerData s t b v) := by
  unfold peerData
  repeat' (first
    | with_reducible apply Keeps.refl
    | with_reducible assumption
    | ((with_reducible apply Keeps.step (gotBucket_keeps ..)); focus exact rfl)
    | ((with_reducible apply Keeps.step (rehashStep_keeps ..)); focus exact rfl)
    | with_reducible apply Keeps.ite
    | with_reducible apply Keeps.ite_fst
    | with_reducible refine Keeps.foldl _ (fun _ _ => ?_) ?_
    | extract_lets
    | split
    | dsimp only)

theorem noteLatency_keeps (s : State) (a : Access) : Keeps (only [.place]) s (noteLatency s a) := by
  unfold noteLatency
  repeat' (first
    | with_reducible apply Keeps.refl
    | with_reducible assumption
    | ((with_reducible apply Keeps.step (State.modBay_keeps ..)); focus exact rfl)
    | with_reducible apply Keeps.ite
    | with_reducible apply Keeps.ite_fst
    | with_reducible refine Keeps.foldl _ (fun _ _ => ?_) ?_
    | extract_lets
    | split
    | dsimp only)

theorem deliver_keeps (s : State) (a : Access) (b : Bytes) : Keeps (allBut [.pending, .params, .journal, .alarms, .window, .time, .cust, .freeCount])
    s (deliver s a b) := by
  unfold deliver
  repeat' (first
    | with_reducible apply Keeps.refl
    | with_reducible assumption
    | ((with_reducible apply Keeps.step (noteLatency_keeps ..)); focus exact rfl)
    | ((with_reducible apply Keeps.step (State.dropAccess_keeps ..)); focus exact rfl)
    | ((with_reducible apply Keeps.step (jobData_keeps ..)); focus exact rfl)
    | ((with_reducible apply Keeps.step (squash_keeps ..)); focus exact rfl)
    | ((with_reducible apply Keeps.step (packetIn_keeps ..)); focus exact rfl)
    | ((with_reducible apply Keeps.step (imageData_keeps ..)); focus exact rfl)
    | ((with_reducible apply Keeps.step (peerData_keeps ..)); focus exact rfl)
    | ((with_reducible apply Keeps.step (migGo_keeps ..)); focus exact rfl)
    | ((with_reducible apply Keeps.step (State.modRegs_keeps ..)); focus exact rfl)
    | ((with_reducible apply Keeps.step (mailData_keeps ..)); focus exact rfl)
    | with_reducible apply Keeps.ite
    | with_reducible apply Keeps.ite_fst
    | with_reducible refine Keeps.foldl _ (fun _ _ => ?_) ?_
    | extract_lets
    | split
    | dsimp only)

theorem walkBeat_keeps (s : State) (a : Access) (level : Nat) (table : Nat) (beat : Bytes) : Keeps (allBut [.pending, .params, .journal, .offers,
    .nextJob, .place, .window, .entropy, .time, .cust]) s (walkBeat s a level table beat) := by
  unfold walkBeat
  repeat' (first
    | with_reducible apply Keeps.refl
    | with_reducible assumption
    | ((with_reducible apply Keeps.step (State.dropAccess_keeps ..)); focus exact rfl)
    | ((with_reducible apply Keeps.step (walkAnswer_keeps ..)); focus exact rfl)
    | ((with_reducible apply Keeps.step (onFault_keeps ..)); focus exact rfl)
    | with_reducible refine Keeps.fst (by assumption) ?_
    | with_reducible apply Keeps.ite
    | with_reducible apply Keeps.ite_fst
    | with_reducible refine Keeps.foldl _ (fun _ _ => ?_) ?_
    | extract_lets
    | split
    | dsimp only)

theorem execMemReadData_keeps (port : Nat) (tag : Nat) (beat : Bytes) (last : Bool) (s : State) : OutKeeps (allBut [.pending, .params, .journal,
    .window, .time, .cust]) s (execMemReadData port tag beat last s) := by
  unfold execMemReadData
  repeat' (first
    | with_reducible apply Keeps.refl
    | with_reducible assumption
    | with_reducible exact OutKeeps.fault
    | with_reducible exact OutKeeps.refused
    | with_reducible apply OutKeeps.ok
    | with_reducible apply OutKeeps.next
    | with_reducible apply OutKeeps.ite
    | ((with_reducible apply Keeps.step (carryAll_keeps ..)); focus exact rfl)
    | ((with_reducible apply Keeps.step (walkBeat_keeps ..)); focus exact rfl)
    | ((with_reducible apply Keeps.step (deliver_keeps ..)); focus exact rfl)
    | ((with_reducible apply Keeps.step (State.modAccess_keeps ..)); focus exact rfl)
    | with_reducible apply Keeps.ite
    | with_reducible apply Keeps.ite_fst
    | with_reducible refine Keeps.foldl _ (fun _ _ => ?_) ?_
    | extract_lets
    | split
    | dsimp only)

theorem recordDone_keeps (s : State) (id : Nat) (seat : Nat) (slot : Nat) (idx : Nat) : Keeps (only [.alarms, .rings, .jobs, .prompts]) s (recordDone
    s id seat slot idx) := by
  unfold recordDone
  repeat' (first
    | with_reducible apply Keeps.refl
    | with_reducible assumption
    | ((with_reducible apply Keeps.step (leave_keeps ..)); focus exact rfl)
    | ((with_reducible apply Keeps.step (recordAcked_keeps ..)); focus exact rfl)
    | with_reducible apply Keeps.ite
    | with_reducible apply Keeps.ite_fst
    | with_reducible refine Keeps.foldl _ (fun _ _ => ?_) ?_
    | extract_lets
    | split
    | dsimp only)

theorem ackOwner_keeps (s : State) (a : Access) : Keeps (allBut [.pending, .params, .start, .journal, .engines, .window, .time, .cust, .freeCount]) s
    (ackOwner s a) := by
  unfold ackOwner
  repeat' (first
    | with_reducible apply Keeps.refl
    | with_reducible assumption
    | ((with_reducible apply Keeps.step (State.modJob_keeps ..)); focus exact rfl)
    | ((with_reducible apply Keeps.step (recordDone_keeps ..)); focus exact rfl)
    | ((with_reducible apply Keeps.step (recordAcked_keeps ..)); focus exact rfl)
    | ((with_reducible apply Keeps.step (assocAcked_keeps ..)); focus exact rfl)
    | ((with_reducible apply Keeps.step (leaseAcked_keeps ..)); focus exact rfl)
    | ((with_reducible apply Keeps.step (excAcked_keeps ..)); focus exact rfl)
    | ((with_reducible apply Keeps.step (spillAcked_keeps ..)); focus exact rfl)
    | ((with_reducible apply Keeps.step (migGo_keeps ..)); focus exact rfl)
    | ((with_reducible apply Keeps.step (inboxAcked_keeps ..)); focus exact rfl)
    | with_reducible apply Keeps.ite
    | with_reducible apply Keeps.ite_fst
    | with_reducible refine Keeps.foldl _ (fun _ _ => ?_) ?_
    | extract_lets
    | split
    | dsimp only
    | ((with_reducible apply Keeps.upd) <;> first | exact .inl rfl | exact .inr rfl | skip))

theorem execMemWriteAck_keeps (port : Nat) (tag : Nat) (s : State) : OutKeeps (allBut [.pending, .params, .journal, .window, .time, .cust]) s
    (execMemWriteAck port tag s) := by
  unfold execMemWriteAck
  repeat' (first
    | with_reducible apply Keeps.refl
    | with_reducible assumption
    | with_reducible exact OutKeeps.fault
    | with_reducible exact OutKeeps.refused
    | with_reducible apply OutKeeps.ok
    | with_reducible apply OutKeeps.next
    | with_reducible apply OutKeeps.ite
    | ((with_reducible apply Keeps.step (carryAll_keeps ..)); focus exact rfl)
    | ((with_reducible apply Keeps.step (writesClosed_keeps ..)); focus exact rfl)
    | ((with_reducible apply Keeps.step (ackOwner_keeps ..)); focus exact rfl)
    | ((with_reducible apply Keeps.step (State.dropAccess_keeps ..)); focus exact rfl)
    | with_reducible apply Keeps.ite
    | with_reducible apply Keeps.ite_fst
    | with_reducible refine Keeps.foldl _ (fun _ _ => ?_) ?_
    | extract_lets
    | split
    | dsimp only)

theorem rspErr_keeps (s : State) (a : Access) (more : Option Bytes) : Keeps (allBut [.pending, .params, .journal, .offers, .nextJob, .place, .window,
    .entropy, .time, .cust]) s (rspErr s a more) := by
  unfold rspErr
  repeat' (first
    | with_reducible apply Keeps.refl
    | with_reducible assumption
    | ((with_reducible apply Keeps.step (onFault_keeps ..)); focus exact rfl)
    | ((with_reducible apply Keeps.step (alarmC_keeps ..)); focus exact rfl)
    | with_reducible apply Keeps.ite
    | with_reducible apply Keeps.ite_fst
    | with_reducible refine Keeps.foldl _ (fun _ _ => ?_) ?_
    | extract_lets
    | split
    | dsimp only)

theorem execMemRspErr_keeps (port : Nat) (tag : ErrBeat) (s : State) : OutKeeps (allBut [.pending, .params, .journal, .offers, .nextJob, .window,
    .time, .cust]) s (execMemRspErr port tag s) := by
  unfold execMemRspErr
  repeat' (first
    | with_reducible apply Keeps.refl
    | with_reducible assumption
    | with_reducible exact OutKeeps.fault
    | with_reducible exact OutKeeps.refused
    | with_reducible apply OutKeeps.ok
    | with_reducible apply OutKeeps.next
    | with_reducible apply OutKeeps.ite
    | ((with_reducible apply Keeps.step (carryAll_keeps ..)); focus exact rfl)
    | ((with_reducible apply Keeps.step (writesClosed_keeps ..)); focus exact rfl)
    | ((with_reducible apply Keeps.step (rspErr_keeps ..)); focus exact rfl)
    | with_reducible apply Keeps.ite
    | with_reducible apply Keeps.ite_fst
    | with_reducible refine Keeps.foldl _ (fun _ _ => ?_) ?_
    | extract_lets
    | split
    | dsimp only)

end Sys2Proof.Machine
end

