-- ==== Sys2Proof/Laws/FrameHostReg.lean ====
section
/-! SUPPORT. Frames of Machine/HostReg: for each operation, the parts of the state it may change. -/

namespace Sys2Proof.Machine

theorem pageAccess_keeps (s : State) (src : Nat) (off : Nat) (v : W32) : Keeps (only [.alarms, .seats, .rings, .mem, .prompts]) s (pageAccess s src
    off v) := by
  unfold pageAccess
  repeat' (first
    | with_reducible apply Keeps.refl
    | with_reducible assumption
    | ((with_reducible apply Keeps.step (accessAlarm_keeps ..)); focus exact rfl)
    | ((with_reducible apply Keeps.step (pageWrite_keeps ..)); focus exact rfl)
    | with_reducible apply Keeps.ite
    | with_reducible apply Keeps.ite_fst
    | with_reducible refine Keeps.foldl _ (fun _ _ => ?_) ?_
    | extract_lets
    | split
    | dsimp only)

theorem writeReg_keeps (s : State) (src : Nat) (off : Nat) (v : W32) : Keeps (allBut [.pending, .params]) s (writeReg s src off v) := by
  unfold writeReg
  repeat' (first
    | with_reducible apply Keeps.refl
    | with_reducible assumption
    | ((with_reducible apply Keeps.step (smgWrite_keeps ..)); focus exact rfl)
    | ((with_reducible apply Keeps.step (seatWrite_keeps ..)); focus exact rfl)
    | ((with_reducible apply Keeps.step (plcWrite_keeps ..)); focus exact rfl)
    | ((with_reducible apply Keeps.step (rngWrite_keeps ..)); focus exact rfl)
    | ((with_reducible apply Keeps.step (ctxWrite_keeps ..)); focus exact rfl)
    | ((with_reducible apply Keeps.step (keyWrite_keeps ..)); focus exact rfl)
    | ((with_reducible apply Keeps.step (engWrite_keeps ..)); focus exact rfl)
    | ((with_reducible apply Keeps.step (frontWrite_keeps ..)); focus exact rfl)
    | ((with_reducible apply Keeps.step (timeWrite_keeps ..)); focus exact rfl)
    | ((with_reducible apply Keeps.step (relayWrite_keeps ..)); focus exact rfl)
    | ((with_reducible apply Keeps.step (custWrite_keeps ..)); focus exact rfl)
    | ((with_reducible apply Keeps.step (almWrite_keeps ..)); focus exact rfl)
    | ((with_reducible apply Keeps.step (digWrite_keeps ..)); focus exact rfl)
    | ((with_reducible apply Keeps.step (pageAccess_keeps ..)); focus exact rfl)
    | with_reducible apply Keeps.ite
    | with_reducible apply Keeps.ite_fst
    | with_reducible refine Keeps.foldl _ (fun _ _ => ?_) ?_
    | extract_lets
    | split
    | dsimp only)

theorem execRegWrite_keeps (src : Nat) (off : Nat) (value : W32) (s : State) : OutKeeps (allBut [.pending, .params]) s (execRegWrite src off value s)
    := by
  unfold execRegWrite
  repeat' (first
    | with_reducible apply Keeps.refl
    | with_reducible assumption
    | with_reducible exact OutKeeps.fault
    | with_reducible exact OutKeeps.refused
    | with_reducible apply OutKeeps.ok
    | with_reducible apply OutKeeps.next
    | with_reducible apply OutKeeps.ite
    | ((with_reducible apply Keeps.step (carryAll_keeps ..)); focus exact rfl)
    | ((with_reducible apply hreg_keeps); focus exact rfl)
    | ((with_reducible apply Keeps.step (writeReg_keeps ..)); focus exact rfl)
    | with_reducible intro _
    | with_reducible apply Keeps.self
    | with_reducible apply Keeps.ite
    | with_reducible apply Keeps.ite_fst
    | with_reducible refine Keeps.foldl _ (fun _ _ => ?_) ?_
    | extract_lets
    | split
    | dsimp only)

theorem idleState_keeps (s : State) : Keeps (only [.seats, .jobs, .place, .engines, .front, .relay]) s (idleState s) := by
  unfold idleState
  repeat' (first
    | with_reducible apply Keeps.refl
    | with_reducible assumption
    | with_reducible apply Keeps.ite
    | with_reducible apply Keeps.ite_fst
    | with_reducible refine Keeps.foldl _ (fun _ _ => ?_) ?_
    | extract_lets
    | split
    | dsimp only
    | ((with_reducible apply Keeps.upd) <;> first | exact .inl rfl | exact .inr rfl | skip))

end Sys2Proof.Machine
end

