-- ==== Sys2Proof/Laws/ExecFrame.lean ====
section
/-! SUPPORT. For each command, the parts of the state it may change, and what a step keeps. -/

namespace Sys2Proof.Machine

/-- The parts a command may change. -/
def movedBy (c : Instr) : Part → Bool :=
  match c with
  | .porstNAssert => allBut [.pending, .params, .journal, .freeCount]
  | .porstNRelease => allBut [.pending, .params, .offers, .nextJob, .window, .time]
  | .blkrstNAssert => allBut [.pending, .params, .journal, .freeCount]
  | .blkrstNRelease => allBut [.pending, .params, .offers, .nextJob, .window, .time]
  | .resetResponseDiscardEnd => only [.mem]
  | .vaonLoss => allBut [.pending, .params, .freeCount]
  | .sensorTrip _ _ _ => allBut [.pending, .params, .offers, .nextJob, .time]
  | .lockstep => allBut [.pending, .params, .offers, .nextJob, .time]
  | .erasureVerified _ => allBut [.pending, .params, .journal, .offers, .nextJob, .window, .time, .cust]
  | .clearA => allBut [.pending, .params, .journal, .offers, .nextJob, .window, .time, .cust]
  | .clearB => allBut [.pending, .params, .journal, .offers, .nextJob, .window, .time, .cust]
  | .sequencerFault _ => allBut [.pending, .params, .offers, .nextJob, .window, .time, .cust]
  | .wingFailure _ => allBut [.pending, .params, .offers, .nextJob, .window, .time, .cust]
  | .portClockLost _ => only [.alarms, .mem, .prompts]
  | .portClockReturn _ => allBut [.pending, .params, .journal, .offers, .nextJob, .window, .time, .cust]
  | .refclkLost => only [.alarms, .time, .prompts]
  | .refclkReturn _ => allBut [.pending, .params, .journal, .offers, .nextJob, .window]
  | .accessViolation _ _ _ => only [.alarms, .prompts]
  | .regWrite _ _ _ => allBut [.pending, .params]
  | .promptAccept => only [.prompts]
  | .memReadData _ _ _ _ => allBut [.pending, .params, .journal, .window, .time, .cust]
  | .memWriteAck _ _ => allBut [.pending, .params, .journal, .window, .time, .cust]
  | .memRspErr _ _ => allBut [.pending, .params, .journal, .offers, .nextJob, .window, .time, .cust]
  | .rootkeyAck _ _ => only [.start]
  | .rootkeyTimeout => allBut [.pending, .params, .offers, .nextJob, .window, .time, .cust]
  | .startStepDone _ _ _ => allBut [.pending, .params, .offers, .nextJob]
  | .startStepBound _ => allBut [.pending, .params, .offers, .nextJob, .window, .cust]
  | .imagesValidWrite _ => allBut [.pending, .params, .offers, .nextJob, .window, .time, .cust]
  | .acceptVersionWrite _ _ => only [.start, .alarms, .cust, .prompts]
  | .clearFail _ => allBut [.pending, .params, .seats, .rings, .seatRegs, .offers, .nextJob, .place, .window, .freeCount]
  | .runStep _ => allBut [.pending, .params, .offers, .nextJob, .window]
  | .acceptUntested => allBut [.pending, .params, .seats, .rings, .seatRegs, .offers, .nextJob, .place, .window, .freeCount]
  | .configure _ => allBut [.pending, .params, .journal, .window, .time, .cust]
  | .start _ => allBut [.pending, .params, .journal, .window, .time, .cust]
  | .curtain _ _ => allBut [.pending, .params, .journal, .window, .time, .cust]
  | .curtainQuiet _ => allBut [.pending, .params, .journal, .offers, .nextJob, .window, .time, .cust]
  | .restart _ => allBut [.pending, .params, .journal, .window, .time, .cust]
  | .reset _ => allBut [.pending, .params, .journal, .window, .time, .cust]
  | .resetReport _ => allBut [.pending, .params, .journal, .offers, .nextJob, .window, .time, .cust]
  | .disable _ => allBut [.pending, .params, .journal, .window, .time, .cust]
  | .freeze _ => allBut [.pending, .params, .journal, .window, .time, .cust]
  | .thaw _ => allBut [.pending, .params, .journal, .window, .time, .cust]
  | .migOffer _ => allBut [.pending, .params, .journal, .window, .time, .cust]
  | .save _ => allBut [.pending, .params, .journal, .window, .time, .cust]
  | .restore _ => allBut [.pending, .params, .journal, .window, .time, .cust]
  | .migCancel _ => allBut [.pending, .params, .journal, .window, .time, .cust]
  | .seatTransitionEnd _ => allBut [.pending, .params, .journal, .window, .time, .cust]
  | .shareWrite _ _ _ => allBut [.pending, .params, .journal, .offers, .nextJob, .window, .time, .cust]
  | .seatXWrite _ _ => allBut [.pending, .params, .journal, .offers, .nextJob, .window, .time, .cust]
  | .atuInvalidate _ => allBut [.pending, .params, .journal, .offers, .nextJob, .window, .time, .cust]
  | .atuInvalidateDone => allBut [.pending, .params, .journal, .offers, .nextJob, .window, .time, .cust]
  | .atuFaultRead => only [.seatRegs]
  | .doorbell _ _ _ _ => allBut [.pending, .params, .journal, .offers, .nextJob, .window, .time, .cust]
  | .cqHeadWrite _ _ _ _ => allBut [.pending, .params, .journal, .offers, .nextJob, .window, .time, .cust]
  | .ringEnable _ _ _ _ => allBut [.pending, .params, .journal, .offers, .nextJob, .window, .time, .cust]
  | .ringDisable _ _ _ _ => allBut [.pending, .params, .journal, .offers, .nextJob, .window, .time, .cust]
  | .resume _ _ _ => allBut [.pending, .params, .journal, .offers, .nextJob, .window, .time, .cust]
  | .ringSettingWrite _ _ _ _ _ => allBut [.pending, .params, .journal, .offers, .nextJob, .window, .time, .cust]
  | .jobFetch _ => allBut [.pending, .params, .journal, .offers, .nextJob, .window, .time, .cust]
  | .promptEvaluation => allBut [.pending, .params, .journal, .offers, .nextJob, .window, .cust]
  | .jobDeadline _ => allBut [.pending, .params, .journal, .offers, .nextJob, .window, .time, .cust]
  | .nop _ => allBut [.pending, .params, .journal, .offers, .nextJob, .window, .time, .cust]
  | .fence _ => allBut [.pending, .params, .journal, .offers, .nextJob, .window, .time, .cust]
  | .stamp _ => allBut [.pending, .params, .journal, .offers, .nextJob, .window, .time, .cust]
  | .unassignedOpcode _ => allBut [.pending, .params, .journal, .offers, .nextJob, .window, .time, .cust]
  | .jobPlacement _ => allBut [.pending, .params, .journal, .offers, .nextJob, .window, .time, .cust]
  | .bayIssue _ => allBut [.pending, .params, .journal, .offers, .nextJob, .window, .time, .cust]
  | .segmentBoundary _ => allBut [.pending, .params, .journal, .offers, .nextJob, .window, .time, .cust]
  | .heldRecordMark _ => allBut [.pending, .params, .journal, .offers, .nextJob, .window, .time, .cust]
  | .epochBoundary _ => allBut [.pending, .params, .journal, .offers, .nextJob, .window, .cust]
  | .wingIdle _ => allBut [.pending, .params, .journal, .offers, .nextJob, .window, .time, .cust]
  | .wingGated _ => allBut [.pending, .params, .journal, .offers, .nextJob, .window, .time, .cust]
  | .wingWake _ => allBut [.pending, .params, .journal, .offers, .nextJob, .window, .time, .cust]
  | .wingWakeDone _ => allBut [.pending, .params, .journal, .offers, .nextJob, .window, .time, .cust]
  | .advertisement => allBut [.pending, .params, .journal, .offers, .nextJob, .window, .cust]
  | .countermeasureReseed => allBut [.pending, .params, .journal, .offers, .nextJob, .window, .cust]
  | .sealJob _ => allBut [.pending, .params, .journal, .offers, .nextJob, .window, .time, .cust]
  | .openJob _ => allBut [.pending, .params, .journal, .offers, .nextJob, .window, .time, .cust]
  | .macGen _ => allBut [.pending, .params, .journal, .offers, .nextJob, .window, .time, .cust]
  | .macVerify _ => allBut [.pending, .params, .journal, .offers, .nextJob, .window, .time, .cust]
  | .encrypt _ => allBut [.pending, .params, .journal, .offers, .nextJob, .window, .time, .cust]
  | .decrypt _ => allBut [.pending, .params, .journal, .offers, .nextJob, .window, .time, .cust]
  | .assocQuery _ => allBut [.pending, .params, .journal, .offers, .nextJob, .window, .time, .cust]
  | .digest _ => allBut [.pending, .params, .journal, .offers, .nextJob, .window, .time, .cust]
  | .digestVerify _ => allBut [.pending, .params, .journal, .offers, .nextJob, .window, .time, .cust]
  | .hmacGen _ => allBut [.pending, .params, .journal, .offers, .nextJob, .window, .time, .cust]
  | .hmacVerify _ => allBut [.pending, .params, .journal, .offers, .nextJob, .window, .time, .cust]
  | .compare _ => allBut [.pending, .params, .journal, .offers, .nextJob, .window, .time, .cust]
  | .hmacLoad _ => allBut [.pending, .params, .journal, .offers, .nextJob, .window, .time, .cust]
  | .hmacUnload _ => allBut [.pending, .params, .journal, .offers, .nextJob, .window, .time, .cust]
  | .dwStart _ => only [.alarms, .window, .prompts]
  | .dwDataWrite _ => only [.alarms, .window, .prompts]
  | .dwFinish _ => only [.alarms, .window, .prompts]
  | .dwAbort => only [.alarms, .window, .prompts]
  | .dwAbsorbDone => only [.window]
  | .modAdd _ => allBut [.pending, .params, .journal, .offers, .nextJob, .window, .time, .cust]
  | .modSub _ => allBut [.pending, .params, .journal, .offers, .nextJob, .window, .time, .cust]
  | .modMul _ => allBut [.pending, .params, .journal, .offers, .nextJob, .window, .time, .cust]
  | .modInv _ => allBut [.pending, .params, .journal, .offers, .nextJob, .window, .time, .cust]
  | .modExp _ => allBut [.pending, .params, .journal, .offers, .nextJob, .window, .time, .cust]
  | .modExpCrt _ => allBut [.pending, .params, .journal, .offers, .nextJob, .window, .time, .cust]
  | .engineLoad _ => allBut [.pending, .params, .journal, .offers, .nextJob, .window, .time, .cust]
  | .runStart _ => allBut [.pending, .params, .journal, .offers, .nextJob, .window, .time, .cust]
  | .datapathDone _ _ => allBut [.pending, .params, .journal, .offers, .nextJob, .window, .time, .cust]
  | .releaseTick _ => allBut [.pending, .params, .offers, .nextJob, .time]
  | .wipeDone _ _ => allBut [.pending, .params, .offers, .nextJob, .time]
  | .mldsaBlockTick _ => allBut [.pending, .params, .offers, .nextJob, .time]
  | .floorWrite _ => only [.alarms, .seats, .place, .engines, .prompts]
  | .rtQuery _ => only [.alarms, .seats, .place, .engines, .prompts]
  | .slackRead _ => only [.seats, .seatRegs, .engines]
  | .faultLogRead => only [.seats, .seatRegs, .engines]
  | .admitStsRead _ => only [.seats, .seatRegs, .engines]
  | .ecKeygen _ => allBut [.pending, .params, .journal, .offers, .nextJob, .window, .time, .cust]
  | .ecdsaSign _ => allBut [.pending, .params, .journal, .offers, .nextJob, .window, .time, .cust]
  | .ecdsaVerify _ => allBut [.pending, .params, .journal, .offers, .nextJob, .window, .time, .cust]
  | .ecdh _ => allBut [.pending, .params, .journal, .offers, .nextJob, .window, .time, .cust]
  | .ed25519Sign _ => allBut [.pending, .params, .journal, .offers, .nextJob, .window, .time, .cust]
  | .ed25519Verify _ => allBut [.pending, .params, .journal, .offers, .nextJob, .window, .time, .cust]
  | .mlkemKeygen _ => allBut [.pending, .params, .journal, .offers, .nextJob, .window, .time, .cust]
  | .mlkemEncaps _ => allBut [.pending, .params, .journal, .offers, .nextJob, .window, .time, .cust]
  | .mlkemDecaps _ => allBut [.pending, .params, .journal, .offers, .nextJob, .window, .time, .cust]
  | .mldsaKeygen _ => allBut [.pending, .params, .journal, .offers, .nextJob, .window, .time, .cust]
  | .mldsaSign _ => allBut [.pending, .params, .journal, .offers, .nextJob, .window, .time, .cust]
  | .mldsaVerify _ => allBut [.pending, .params, .journal, .offers, .nextJob, .window, .time, .cust]
  | .poly _ => allBut [.pending, .params, .journal, .offers, .nextJob, .window, .time, .cust]
  | .keyImport _ => allBut [.pending, .params, .journal, .offers, .nextJob, .window, .time, .cust]
  | .keyExport _ => allBut [.pending, .params, .journal, .offers, .nextJob, .window, .time, .cust]
  | .keyGenerate _ => allBut [.pending, .params, .journal, .offers, .nextJob, .window, .time, .cust]
  | .keyDerive _ => allBut [.pending, .params, .journal, .offers, .nextJob, .window, .time, .cust]
  | .keyDelete _ => allBut [.pending, .params, .journal, .offers, .nextJob, .window, .time, .cust]
  | .keyInfo _ => allBut [.pending, .params, .journal, .offers, .nextJob, .window, .time, .cust]
  | .keyRestrict _ => allBut [.pending, .params, .journal, .offers, .nextJob, .window, .time, .cust]
  | .keyEscrowOut _ => allBut [.pending, .params, .journal, .offers, .nextJob, .window, .time, .cust]
  | .keyEscrowIn _ => allBut [.pending, .params, .journal, .offers, .nextJob, .window, .time, .cust]
  | .eraseBwk => allBut [.pending, .params, .journal, .offers, .nextJob, .window, .time, .cust]
  | .sourceBlock _ _ => allBut [.pending, .params, .journal, .offers, .nextJob, .window, .time, .cust]
  | .sourceRestartDone _ => allBut [.pending, .params, .journal, .offers, .nextJob, .window, .time, .cust]
  | .wordDelivery => allBut [.pending, .params, .journal, .offers, .nextJob, .window, .time]
  | .reseedDue _ => allBut [.pending, .params, .journal, .offers, .nextJob, .window, .time, .cust]
  | .instHeld _ => allBut [.pending, .params, .journal, .offers, .nextJob, .window, .time, .cust]
  | .seedingDeadline _ => allBut [.pending, .params, .journal, .offers, .nextJob, .window, .time, .cust]
  | .rngGet _ => allBut [.pending, .params, .journal, .offers, .nextJob, .window, .time, .cust]
  | .rngReseed _ => allBut [.pending, .params, .journal, .offers, .nextJob, .window, .time, .cust]
  | .rngRaw _ => allBut [.pending, .params, .journal, .offers, .nextJob, .window, .time, .cust]
  | .enterRehearsal => allBut [.pending, .params, .journal, .offers, .nextJob, .window, .time]
  | .exitRehearsal => allBut [.pending, .params, .journal, .offers, .nextJob, .window, .time, .cust]
  | .revive _ => allBut [.pending, .params, .journal, .offers, .nextJob, .window, .time, .cust]
  | .clearCounts => allBut [.pending, .params, .journal, .offers, .nextJob, .window, .time, .cust]
  | .packetIn _ _ _ _ => allBut [.pending, .params, .journal, .offers, .window, .time, .cust]
  | .assocWrite _ => allBut [.pending, .params, .journal, .offers, .nextJob, .window, .time, .cust]
  | .assocKill _ => allBut [.pending, .params, .journal, .offers, .nextJob, .window, .time, .cust]
  | .nodeWrite _ _ => only [.alarms, .front, .prompts]
  | .swap => only [.alarms, .front, .prompts]
  | .epochDrainEnd => only [.front]
  | .rehash => allBut [.pending, .params, .journal, .offers, .nextJob, .window, .time, .cust]
  | .rehashDone => allBut [.pending, .params, .journal, .offers, .nextJob, .window, .time, .cust]
  | .peerAgeVisit _ => allBut [.pending, .params, .journal, .offers, .nextJob, .window, .time, .cust]
  | .strangerStsRead _ => only [.seats, .seatRegs]
  | .timePortValue => only [.time]
  | .ppsRise => only [.time]
  | .ppsFall => only [.time]
  | .captureEdge _ => only [.time, .prompts]
  | .captureSnapshot _ => only [.seatRegs, .time]
  | .nowSnapshot => only [.seatRegs, .time]
  | .secureSnapshot => only [.seatRegs, .time]
  | .rateWrite _ => only [.alarms, .time, .prompts]
  | .timeStep _ => only [.alarms, .time, .prompts]
  | .slew _ => only [.alarms, .time, .prompts]
  | .cancelSlew => only [.alarms, .time, .prompts]
  | .slewDone => only [.time, .prompts]
  | .secAdvance _ => only [.alarms, .time, .prompts, .freeCount]
  | .linkUp _ => allBut [.pending, .params, .journal, .offers, .nextJob, .window, .cust]
  | .creditReturn _ => allBut [.pending, .params, .journal, .offers, .nextJob, .window, .time, .cust]
  | .hopBreak _ => allBut [.pending, .params, .journal, .offers, .nextJob, .window, .cust]
  | .hopSilence _ => allBut [.pending, .params, .journal, .offers, .nextJob, .window, .cust]
  | .hopRekeyDue _ => allBut [.pending, .params, .journal, .offers, .nextJob, .window, .time, .cust]
  | .hello _ _ _ => allBut [.pending, .params, .journal, .offers, .nextJob, .window, .time, .cust]
  | .reply _ _ _ => allBut [.pending, .params, .journal, .offers, .nextJob, .window, .cust]
  | .confirm _ => allBut [.pending, .params, .journal, .offers, .nextJob, .window, .cust]
  | .echo _ _ _ => allBut [.pending, .params, .journal, .offers, .nextJob, .window, .cust]
  | .probe _ _ _ _ => allBut [.pending, .params, .journal, .offers, .nextJob, .window, .cust]
  | .electionStart => allBut [.pending, .params, .journal, .offers, .nextJob, .window, .time, .cust]
  | .elect _ _ => allBut [.pending, .params, .journal, .offers, .nextJob, .window, .cust]
  | .number _ _ => allBut [.pending, .params, .journal, .offers, .nextJob, .window, .cust]
  | .map _ _ => allBut [.pending, .params, .journal, .offers, .nextJob, .window, .cust]
  | .join _ _ _ _ _ _ => allBut [.pending, .params, .journal, .offers, .nextJob, .window, .cust]
  | .adv _ _ _ _ => allBut [.pending, .params, .journal, .offers, .nextJob, .window, .cust]
  | .relayJob _ _ => allBut [.pending, .params, .journal, .offers, .window, .cust]
  | .relayDone _ _ => allBut [.pending, .params, .journal, .offers, .nextJob, .window, .cust]
  | .relayCancel _ _ => allBut [.pending, .params, .journal, .offers, .nextJob, .window, .cust]
  | .relayAlarm _ _ => allBut [.pending, .params, .journal, .offers, .nextJob, .window, .cust]
  | .relayBreak _ _ => allBut [.pending, .params, .journal, .offers, .nextJob, .window, .cust]
  | .timeSend => allBut [.pending, .params, .journal, .offers, .nextJob, .window, .cust]
  | .time _ _ _ => allBut [.pending, .params, .journal, .offers, .nextJob, .window, .cust]
  | .timeLoss => only [.relay]
  | .mailSend _ => allBut [.pending, .params, .journal, .offers, .nextJob, .window, .time, .cust]
  | .mail _ _ _ _ _ => allBut [.pending, .params, .journal, .offers, .nextJob, .window, .cust]
  | .inboxRelease _ => only [.alarms, .relay, .prompts]
  | .cardInsert => allBut [.pending, .params, .journal, .offers, .nextJob, .window, .time]
  | .cardDebounce => allBut [.pending, .params, .journal, .offers, .nextJob, .window, .time]
  | .cardRemoval => allBut [.pending, .params, .journal, .offers, .nextJob, .window, .time]
  | .activationSupplyTimer => allBut [.pending, .params, .journal, .offers, .nextJob, .window, .time]
  | .answerToReset _ => allBut [.pending, .params, .journal, .offers, .nextJob, .window, .time]
  | .ppsEcho _ => allBut [.pending, .params, .journal, .offers, .nextJob, .window, .time]
  | .reactivationWait => allBut [.pending, .params, .journal, .offers, .nextJob, .window, .time]
  | .conditionQuery => allBut [.pending, .params, .journal, .offers, .nextJob, .window, .time]
  | .readyMaxExpiry => allBut [.pending, .params, .journal, .offers, .nextJob, .window, .time]
  | .t1BlockRx _ => allBut [.pending, .params, .journal, .offers, .nextJob, .window, .time]
  | .cardWaitExpiry => allBut [.pending, .params, .journal, .offers, .nextJob, .window, .time]
  | .statusPoll => allBut [.pending, .params, .journal, .offers, .nextJob, .window, .time]
  | .waitMaxExpiry => allBut [.pending, .params, .journal, .offers, .nextJob, .window, .time]
  | .clockStop => allBut [.pending, .params, .journal, .offers, .nextJob, .window, .time]
  | .authExpiry _ => allBut [.pending, .params, .journal, .offers, .nextJob, .window, .time]
  | .shareHoldExpiry => allBut [.pending, .params, .journal, .offers, .nextJob, .window, .time]
  | .rootLock _ => allBut [.pending, .params, .journal, .offers, .nextJob, .window, .time]
  | .authorize _ => allBut [.pending, .params, .journal, .offers, .nextJob, .window, .time]
  | .importShare _ => allBut [.pending, .params, .journal, .offers, .nextJob, .window, .time]
  | .exportShare _ => allBut [.pending, .params, .journal, .offers, .nextJob, .window, .time]
  | .sharesClear _ => allBut [.pending, .params, .journal, .offers, .nextJob, .window, .time]
  | .authEnd _ => allBut [.pending, .params, .journal, .offers, .nextJob, .window, .time]
  | .reconDrop _ => allBut [.pending, .params, .journal, .offers, .nextJob, .window, .time]
  | .deactivate _ => allBut [.pending, .params, .journal, .offers, .nextJob, .window, .time]
  | .activate _ => allBut [.pending, .params, .journal, .offers, .nextJob, .window, .time]
  | .sensorConditionEnd _ => only [.alarms]
  | .vaonReturn => allBut [.pending, .params, .journal, .offers, .nextJob, .window, .cust]
  | .packetOutAccept _ => only [.front]
  | .answerToResetTimeout => allBut [.pending, .params, .journal, .offers, .nextJob, .window, .time]
  | .ppsTimeout => allBut [.pending, .params, .journal, .offers, .nextJob, .window, .time]
  | .brokenHopRekey _ => allBut [.pending, .params, .journal, .offers, .nextJob, .window, .time, .cust]

/-- What a command leaves alone. -/
theorem exec_keeps (c : Instr) (s : State) : OutKeeps (movedBy c) s (exec c s) := by
  cases c with
  | porstNAssert => exact execPorstNAssert_keeps ..
  | porstNRelease => exact execPorstNRelease_keeps ..
  | blkrstNAssert => exact execBlkrstNAssert_keeps ..
  | blkrstNRelease => exact execBlkrstNRelease_keeps ..
  | resetResponseDiscardEnd => exact execResetResponseDiscardEnd_keeps ..
  | vaonLoss => exact execVaonLoss_keeps ..
  | sensorTrip _ _ _ => exact execSensorTrip_keeps ..
  | lockstep => exact execLockstep_keeps ..
  | erasureVerified _ => exact execErasureVerified_keeps ..
  | clearA => exact execClearA_keeps ..
  | clearB => exact execClearB_keeps ..
  | sequencerFault _ => exact execSequencerFault_keeps ..
  | wingFailure _ => exact execWingFailure_keeps ..
  | portClockLost _ => exact execPortClockLost_keeps ..
  | portClockReturn _ => exact execPortClockReturn_keeps ..
  | refclkLost => exact execRefclkLost_keeps ..
  | refclkReturn _ => exact execRefclkReturn_keeps ..
  | accessViolation _ _ _ => exact execAccessViolation_keeps ..
  | regWrite _ _ _ => exact execRegWrite_keeps ..
  | promptAccept => exact execPromptAccept_keeps ..
  | memReadData _ _ _ _ => exact execMemReadData_keeps ..
  | memWriteAck _ _ => exact execMemWriteAck_keeps ..
  | memRspErr _ _ => exact execMemRspErr_keeps ..
  | rootkeyAck _ _ => exact execRootkeyAck_keeps ..
  | rootkeyTimeout => exact execRootkeyTimeout_keeps ..
  | startStepDone _ _ _ => exact execStartStepDone_keeps ..
  | startStepBound _ => exact execStartStepBound_keeps ..
  | imagesValidWrite _ => exact execImagesValidWrite_keeps ..
  | acceptVersionWrite _ _ => exact execAcceptVersionWrite_keeps ..
  | clearFail _ => exact execClearFail_keeps ..
  | runStep _ => exact execRunStep_keeps ..
  | acceptUntested => exact execAcceptUntested_keeps ..
  | configure _ => exact execConfigure_keeps ..
  | start _ => exact execStart_keeps ..
  | curtain _ _ => exact execCurtain_keeps ..
  | curtainQuiet _ => exact execCurtainQuiet_keeps ..
  | restart _ => exact execRestart_keeps ..
  | reset _ => exact execReset_keeps ..
  | resetReport _ => exact execResetReport_keeps ..
  | disable _ => exact execDisable_keeps ..
  | freeze _ => exact execFreeze_keeps ..
  | thaw _ => exact execThaw_keeps ..
  | migOffer _ => exact execMigOffer_keeps ..
  | save _ => exact execSave_keeps ..
  | restore _ => exact execRestore_keeps ..
  | migCancel _ => exact execMigCancel_keeps ..
  | seatTransitionEnd _ => exact execSeatTransitionEnd_keeps ..
  | shareWrite _ _ _ => exact execShareWrite_keeps ..
  | seatXWrite _ _ => exact execSeatXWrite_keeps ..
  | atuInvalidate _ => exact execAtuInvalidate_keeps ..
  | atuInvalidateDone => exact execAtuInvalidateDone_keeps ..
  | atuFaultRead => exact execAtuFaultRead_keeps ..
  | doorbell _ _ _ _ => exact execDoorbell_keeps ..
  | cqHeadWrite _ _ _ _ => exact execCqHeadWrite_keeps ..
  | ringEnable _ _ _ _ => exact execRingEnable_keeps ..
  | ringDisable _ _ _ _ => exact execRingDisable_keeps ..
  | resume _ _ _ => exact execResume_keeps ..
  | ringSettingWrite _ _ _ _ _ => exact execRingSettingWrite_keeps ..
  | jobFetch _ => exact execJobFetch_keeps ..
  | promptEvaluation => exact execPromptEvaluation_keeps ..
  | jobDeadline _ => exact execJobDeadline_keeps ..
  | nop _ => exact execNop_keeps ..
  | fence _ => exact execFence_keeps ..
  | stamp _ => exact execStamp_keeps ..
  | unassignedOpcode _ => exact execUnassignedOpcode_keeps ..
  | jobPlacement _ => exact execJobPlacement_keeps ..
  | bayIssue _ => exact execBayIssue_keeps ..
  | segmentBoundary _ => exact execSegmentBoundary_keeps ..
  | heldRecordMark _ => exact execHeldRecordMark_keeps ..
  | epochBoundary _ => exact execEpochBoundary_keeps ..
  | wingIdle _ => exact execWingIdle_keeps ..
  | wingGated _ => exact execWingGated_keeps ..
  | wingWake _ => exact execWingWake_keeps ..
  | wingWakeDone _ => exact execWingWakeDone_keeps ..
  | advertisement => exact execAdvertisement_keeps ..
  | countermeasureReseed => exact execCountermeasureReseed_keeps ..
  | sealJob _ => exact execSealJob_keeps ..
  | openJob _ => exact execOpenJob_keeps ..
  | macGen _ => exact execMacGen_keeps ..
  | macVerify _ => exact execMacVerify_keeps ..
  | encrypt _ => exact execEncrypt_keeps ..
  | decrypt _ => exact execDecrypt_keeps ..
  | assocQuery _ => exact execAssocQuery_keeps ..
  | digest _ => exact execDigest_keeps ..
  | digestVerify _ => exact execDigestVerify_keeps ..
  | hmacGen _ => exact execHmacGen_keeps ..
  | hmacVerify _ => exact execHmacVerify_keeps ..
  | compare _ => exact execCompare_keeps ..
  | hmacLoad _ => exact execHmacLoad_keeps ..
  | hmacUnload _ => exact execHmacUnload_keeps ..
  | dwStart _ => exact execDwStart_keeps ..
  | dwDataWrite _ => exact execDwDataWrite_keeps ..
  | dwFinish _ => exact execDwFinish_keeps ..
  | dwAbort => exact execDwAbort_keeps ..
  | dwAbsorbDone => exact execDwAbsorbDone_keeps ..
  | modAdd _ => exact execModAdd_keeps ..
  | modSub _ => exact execModSub_keeps ..
  | modMul _ => exact execModMul_keeps ..
  | modInv _ => exact execModInv_keeps ..
  | modExp _ => exact execModExp_keeps ..
  | modExpCrt _ => exact execModExpCrt_keeps ..
  | engineLoad _ => exact execEngineLoad_keeps ..
  | runStart _ => exact execRunStart_keeps ..
  | datapathDone _ _ => exact execDatapathDone_keeps ..
  | releaseTick _ => exact execReleaseTick_keeps ..
  | wipeDone _ _ => exact execWipeDone_keeps ..
  | mldsaBlockTick _ => exact execMldsaBlockTick_keeps ..
  | floorWrite _ => exact execFloorWrite_keeps ..
  | rtQuery _ => exact execRtQuery_keeps ..
  | slackRead _ => exact execSlackRead_keeps ..
  | faultLogRead => exact execFaultLogRead_keeps ..
  | admitStsRead _ => exact execAdmitStsRead_keeps ..
  | ecKeygen _ => exact execEcKeygen_keeps ..
  | ecdsaSign _ => exact execEcdsaSign_keeps ..
  | ecdsaVerify _ => exact execEcdsaVerify_keeps ..
  | ecdh _ => exact execEcdh_keeps ..
  | ed25519Sign _ => exact execEd25519Sign_keeps ..
  | ed25519Verify _ => exact execEd25519Verify_keeps ..
  | mlkemKeygen _ => exact execMlkemKeygen_keeps ..
  | mlkemEncaps _ => exact execMlkemEncaps_keeps ..
  | mlkemDecaps _ => exact execMlkemDecaps_keeps ..
  | mldsaKeygen _ => exact execMldsaKeygen_keeps ..
  | mldsaSign _ => exact execMldsaSign_keeps ..
  | mldsaVerify _ => exact execMldsaVerify_keeps ..
  | poly _ => exact execPoly_keeps ..
  | keyImport _ => exact execKeyImport_keeps ..
  | keyExport _ => exact execKeyExport_keeps ..
  | keyGenerate _ => exact execKeyGenerate_keeps ..
  | keyDerive _ => exact execKeyDerive_keeps ..
  | keyDelete _ => exact execKeyDelete_keeps ..
  | keyInfo _ => exact execKeyInfo_keeps ..
  | keyRestrict _ => exact execKeyRestrict_keeps ..
  | keyEscrowOut _ => exact execKeyEscrowOut_keeps ..
  | keyEscrowIn _ => exact execKeyEscrowIn_keeps ..
  | eraseBwk => exact execEraseBwk_keeps ..
  | sourceBlock _ _ => exact execSourceBlock_keeps ..
  | sourceRestartDone _ => exact execSourceRestartDone_keeps ..
  | wordDelivery => exact execWordDelivery_keeps ..
  | reseedDue _ => exact execReseedDue_keeps ..
  | instHeld _ => exact execInstHeld_keeps ..
  | seedingDeadline _ => exact execSeedingDeadline_keeps ..
  | rngGet _ => exact execRngGet_keeps ..
  | rngReseed _ => exact execRngReseed_keeps ..
  | rngRaw _ => exact execRngRaw_keeps ..
  | enterRehearsal => exact execEnterRehearsal_keeps ..
  | exitRehearsal => exact execExitRehearsal_keeps ..
  | revive _ => exact execRevive_keeps ..
  | clearCounts => exact execClearCounts_keeps ..
  | packetIn _ _ _ _ => exact execPacketIn_keeps ..
  | assocWrite _ => exact execAssocWrite_keeps ..
  | assocKill _ => exact execAssocKill_keeps ..
  | nodeWrite _ _ => exact execNodeWrite_keeps ..
  | swap => exact execSwap_keeps ..
  | epochDrainEnd => exact execEpochDrainEnd_keeps ..
  | rehash => exact execRehash_keeps ..
  | rehashDone => exact execRehashDone_keeps ..
  | peerAgeVisit _ => exact execPeerAgeVisit_keeps ..
  | strangerStsRead _ => exact execStrangerStsRead_keeps ..
  | timePortValue => exact execTimePortValue_keeps ..
  | ppsRise => exact execPpsRise_keeps ..
  | ppsFall => exact execPpsFall_keeps ..
  | captureEdge _ => exact execCaptureEdge_keeps ..
  | captureSnapshot _ => exact execCaptureSnapshot_keeps ..
  | nowSnapshot => exact execNowSnapshot_keeps ..
  | secureSnapshot => exact execSecureSnapshot_keeps ..
  | rateWrite _ => exact execRateWrite_keeps ..
  | timeStep _ => exact execTimeStep_keeps ..
  | slew _ => exact execSlew_keeps ..
  | cancelSlew => exact execCancelSlew_keeps ..
  | slewDone => exact execSlewDone_keeps ..
  | secAdvance _ => exact execSecAdvance_keeps ..
  | linkUp _ => exact execLinkUp_keeps ..
  | creditReturn _ => exact execCreditReturn_keeps ..
  | hopBreak _ => exact execHopBreak_keeps ..
  | hopSilence _ => exact execHopSilence_keeps ..
  | hopRekeyDue _ => exact execHopRekeyDue_keeps ..
  | hello _ _ _ => exact execHello_keeps ..
  | reply _ _ _ => exact execReply_keeps ..
  | confirm _ => exact execConfirm_keeps ..
  | echo _ _ _ => exact execEcho_keeps ..
  | probe _ _ _ _ => exact execProbe_keeps ..
  | electionStart => exact execElectionStart_keeps ..
  | elect _ _ => exact execElect_keeps ..
  | number _ _ => exact execNumber_keeps ..
  | map _ _ => exact execMap_keeps ..
  | join _ _ _ _ _ _ => exact execJoin_keeps ..
  | adv _ _ _ _ => exact execAdv_keeps ..
  | relayJob _ _ => exact execRelayJob_keeps ..
  | relayDone _ _ => exact execRelayDone_keeps ..
  | relayCancel _ _ => exact execRelayCancel_keeps ..
  | relayAlarm _ _ => exact execRelayAlarm_keeps ..
  | relayBreak _ _ => exact execRelayBreak_keeps ..
  | timeSend => exact execTimeSend_keeps ..
  | time _ _ _ => exact execTime_keeps ..
  | timeLoss => exact execTimeLoss_keeps ..
  | mailSend _ => exact execMailSend_keeps ..
  | mail _ _ _ _ _ => exact execMail_keeps ..
  | inboxRelease _ => exact execInboxRelease_keeps ..
  | cardInsert => exact execCardInsert_keeps ..
  | cardDebounce => exact execCardDebounce_keeps ..
  | cardRemoval => exact execCardRemoval_keeps ..
  | activationSupplyTimer => exact execActivationSupplyTimer_keeps ..
  | answerToReset _ => exact execAnswerToReset_keeps ..
  | ppsEcho _ => exact execPpsEcho_keeps ..
  | reactivationWait => exact execReactivationWait_keeps ..
  | conditionQuery => exact execConditionQuery_keeps ..
  | readyMaxExpiry => exact execReadyMaxExpiry_keeps ..
  | t1BlockRx _ => exact execT1BlockRx_keeps ..
  | cardWaitExpiry => exact execCardWaitExpiry_keeps ..
  | statusPoll => exact execStatusPoll_keeps ..
  | waitMaxExpiry => exact execWaitMaxExpiry_keeps ..
  | clockStop => exact execClockStop_keeps ..
  | authExpiry _ => exact execAuthExpiry_keeps ..
  | shareHoldExpiry => exact execShareHoldExpiry_keeps ..
  | rootLock _ => exact execRootLock_keeps ..
  | authorize _ => exact execAuthorize_keeps ..
  | importShare _ => exact execImportShare_keeps ..
  | exportShare _ => exact execExportShare_keeps ..
  | sharesClear _ => exact execSharesClear_keeps ..
  | authEnd _ => exact execAuthEnd_keeps ..
  | reconDrop _ => exact execReconDrop_keeps ..
  | deactivate _ => exact execDeactivate_keeps ..
  | activate _ => exact execActivate_keeps ..
  | sensorConditionEnd _ => exact execSensorConditionEnd_keeps ..
  | vaonReturn => exact execVaonReturn_keeps ..
  | packetOutAccept _ => exact execPacketOutAccept_keeps ..
  | answerToResetTimeout => exact execAnswerToResetTimeout_keeps ..
  | ppsTimeout => exact execPpsTimeout_keeps ..
  | brokenHopRekey _ => exact execBrokenHopRekey_keeps ..

/-- No command touches the queue or the parameters (R54). -/
theorem exec_keeps_queue (c : Instr) (s t : State) (h : exec c s = .next t) : t.pending = s.pending ∧ t.params = s.params := by
  have k := (exec_keeps c s).next_keeps t h
  exact ⟨k.pending (by cases c <;> rfl), k.params (by cases c <;> rfl)⟩

end Sys2Proof.Machine
end

