-- ==== Sys2Proof/Laws/ExecOwn.lean ====
section
/-! SUPPORT. For each command, the parts of the state its own effect may change, the work that waits and then goes on left aside. -/

namespace Sys2Proof.Machine

/-- The answer follows a state that differs from `s` in parts of `ch` alone. -/
structure OwnKeeps (ch : Part → Bool) (s : State) (o : Host.Outcome State Fault Refusal) : Prop where
  next_own : ∀ t, o = .next t → ∃ u, follows u t ∧ Keeps ch s u

variable {ch c : Part → Bool} {s t u : State}

theorem OwnKeeps.ok (h : Keeps ch s t) : OwnKeeps ch s (ok t) := ⟨by intro _ e; cases e; exact ⟨t, Or.inl rfl, h⟩⟩

theorem OwnKeeps.next (h : Keeps ch s t) : OwnKeeps ch s (.next t) := ⟨by intro _ e; cases e; exact ⟨t, Or.inl rfl, h⟩⟩

theorem OwnKeeps.okFin (h : Keeps ch s t) : OwnKeeps ch s (Machine.ok (fin t)) := ⟨fun _ e => ⟨t, Or.inr (Or.inl (Host.Outcome.next.inj e).symm), h⟩⟩

theorem OwnKeeps.okCarry (h : Keeps ch s t) : OwnKeeps ch s (Machine.ok (carry t)) := ⟨fun _ e => ⟨t, Or.inr (Or.inr (Or.inl (Host.Outcome.next.inj e).symm)), h⟩⟩

theorem OwnKeeps.okCarryAll (h : Keeps ch s t) : OwnKeeps ch s (Machine.ok (carryAll t)) :=
  ⟨fun _ e => ⟨t, Or.inr (Or.inr (Or.inr (Host.Outcome.next.inj e).symm)), h⟩⟩

theorem OwnKeeps.nextFin (h : Keeps ch s t) : OwnKeeps ch s (.next (fin t)) := .okFin h

theorem OwnKeeps.nextCarry (h : Keeps ch s t) : OwnKeeps ch s (.next (carry t)) := .okCarry h

theorem OwnKeeps.nextCarryAll (h : Keeps ch s t) : OwnKeeps ch s (.next (carryAll t)) := .okCarryAll h

theorem OwnKeeps.ite {b : Prop} [Decidable b] {o q : Host.Outcome State Fault Refusal} (h : OwnKeeps ch s o) (g : OwnKeeps ch s q) :
    OwnKeeps ch s (if b then o else q) := by split <;> assumption

theorem OwnKeeps.mono {o : Host.Outcome State Fault Refusal} (h : OwnKeeps c s o) (m : within c ch = true) : OwnKeeps ch s o :=
  ⟨fun t e => let ⟨u, f, k⟩ := h.next_own t e; ⟨u, f, k.mono m⟩⟩

theorem OwnKeeps.fault {f : Fault} : OwnKeeps ch s (.fault f) := ⟨by intro _ e; cases e⟩

theorem OwnKeeps.refused {r : Refusal} : OwnKeeps ch s (.refused r) := ⟨by intro _ e; cases e⟩

theorem execPorstNAssert_own (s : State) : OwnKeeps (allBut [.pending, .params, .journal, .freeCount]) s (execPorstNAssert s) := by
  unfold execPorstNAssert
  repeat' (first
    | with_reducible apply Keeps.refl
    | with_reducible assumption
    | with_reducible exact OwnKeeps.fault
    | with_reducible exact OwnKeeps.refused
    | with_reducible apply OwnKeeps.okFin
    | with_reducible apply OwnKeeps.okCarry
    | with_reducible apply OwnKeeps.okCarryAll
    | with_reducible apply OwnKeeps.nextFin
    | with_reducible apply OwnKeeps.nextCarry
    | with_reducible apply OwnKeeps.nextCarryAll
    | with_reducible apply OwnKeeps.ite
    | with_reducible apply OwnKeeps.ok
    | with_reducible apply OwnKeeps.next
    | ((with_reducible apply whenDo_keeps); focus exact rfl)
    | ((with_reducible apply Keeps.step (vaonReset_keeps ..)); focus exact rfl)
    | ((with_reducible apply Keeps.step (blockReset_keeps ..)); focus exact rfl)
    | ((with_reducible apply Keeps.step (State.modStart_keeps ..)); focus exact rfl)
    | with_reducible intro _
    | with_reducible apply Keeps.self
    | with_reducible apply Keeps.ite
    | with_reducible apply Keeps.ite_fst
    | with_reducible refine Keeps.foldl _ (fun _ _ => ?_) ?_
    | extract_lets
    | split
    | dsimp only)

theorem execPorstNRelease_own (s : State) : OwnKeeps (only [.start, .journal, .alarms, .cust, .prompts]) s (execPorstNRelease s) := by
  unfold execPorstNRelease
  repeat' (first
    | with_reducible apply Keeps.refl
    | with_reducible assumption
    | with_reducible exact OwnKeeps.fault
    | with_reducible exact OwnKeeps.refused
    | with_reducible apply OwnKeeps.okFin
    | with_reducible apply OwnKeeps.okCarry
    | with_reducible apply OwnKeeps.okCarryAll
    | with_reducible apply OwnKeeps.nextFin
    | with_reducible apply OwnKeeps.nextCarry
    | with_reducible apply OwnKeeps.nextCarryAll
    | with_reducible apply OwnKeeps.ite
    | with_reducible apply OwnKeeps.ok
    | with_reducible apply OwnKeeps.next
    | ((with_reducible apply whenDo_keeps); focus exact rfl)
    | ((with_reducible apply Keeps.step (released_keeps ..)); focus exact rfl)
    | ((with_reducible apply Keeps.step (State.modStart_keeps ..)); focus exact rfl)
    | with_reducible intro _
    | with_reducible apply Keeps.self
    | with_reducible apply Keeps.ite
    | with_reducible apply Keeps.ite_fst
    | with_reducible refine Keeps.foldl _ (fun _ _ => ?_) ?_
    | extract_lets
    | split
    | dsimp only)

theorem execBlkrstNAssert_own (s : State) : OwnKeeps (allBut [.pending, .params, .journal, .freeCount]) s (execBlkrstNAssert s) := by
  unfold execBlkrstNAssert
  repeat' (first
    | with_reducible apply Keeps.refl
    | with_reducible assumption
    | with_reducible exact OwnKeeps.fault
    | with_reducible exact OwnKeeps.refused
    | with_reducible apply OwnKeeps.okFin
    | with_reducible apply OwnKeeps.okCarry
    | with_reducible apply OwnKeeps.okCarryAll
    | with_reducible apply OwnKeeps.nextFin
    | with_reducible apply OwnKeeps.nextCarry
    | with_reducible apply OwnKeeps.nextCarryAll
    | with_reducible apply OwnKeeps.ite
    | with_reducible apply OwnKeeps.ok
    | with_reducible apply OwnKeeps.next
    | ((with_reducible apply whenDo_keeps); focus exact rfl)
    | ((with_reducible apply Keeps.step (blockReset_keeps ..)); focus exact rfl)
    | ((with_reducible apply Keeps.step (State.modStart_keeps ..)); focus exact rfl)
    | with_reducible intro _
    | with_reducible apply Keeps.self
    | with_reducible apply Keeps.ite
    | with_reducible apply Keeps.ite_fst
    | with_reducible refine Keeps.foldl _ (fun _ _ => ?_) ?_
    | extract_lets
    | split
    | dsimp only)

theorem execBlkrstNRelease_own (s : State) : OwnKeeps (only [.start, .journal, .alarms, .cust, .prompts]) s (execBlkrstNRelease s) := by
  unfold execBlkrstNRelease
  repeat' (first
    | with_reducible apply Keeps.refl
    | with_reducible assumption
    | with_reducible exact OwnKeeps.fault
    | with_reducible exact OwnKeeps.refused
    | with_reducible apply OwnKeeps.okFin
    | with_reducible apply OwnKeeps.okCarry
    | with_reducible apply OwnKeeps.okCarryAll
    | with_reducible apply OwnKeeps.nextFin
    | with_reducible apply OwnKeeps.nextCarry
    | with_reducible apply OwnKeeps.nextCarryAll
    | with_reducible apply OwnKeeps.ite
    | with_reducible apply OwnKeeps.ok
    | with_reducible apply OwnKeeps.next
    | ((with_reducible apply whenDo_keeps); focus exact rfl)
    | ((with_reducible apply Keeps.step (released_keeps ..)); focus exact rfl)
    | ((with_reducible apply Keeps.step (State.modStart_keeps ..)); focus exact rfl)
    | with_reducible intro _
    | with_reducible apply Keeps.self
    | with_reducible apply Keeps.ite
    | with_reducible apply Keeps.ite_fst
    | with_reducible refine Keeps.foldl _ (fun _ _ => ?_) ?_
    | extract_lets
    | split
    | dsimp only)

theorem execResetResponseDiscardEnd_own (s : State) : OwnKeeps (only [.mem]) s (execResetResponseDiscardEnd s) := by
  unfold execResetResponseDiscardEnd
  repeat' (first
    | with_reducible apply Keeps.refl
    | with_reducible assumption
    | with_reducible exact OwnKeeps.fault
    | with_reducible exact OwnKeeps.refused
    | with_reducible apply OwnKeeps.okFin
    | with_reducible apply OwnKeeps.okCarry
    | with_reducible apply OwnKeeps.okCarryAll
    | with_reducible apply OwnKeeps.nextFin
    | with_reducible apply OwnKeeps.nextCarry
    | with_reducible apply OwnKeeps.nextCarryAll
    | with_reducible apply OwnKeeps.ite
    | with_reducible apply OwnKeeps.ok
    | with_reducible apply OwnKeeps.next
    | ((with_reducible apply whenDo_keeps); focus exact rfl)
    | with_reducible intro _
    | with_reducible apply Keeps.self
    | with_reducible apply Keeps.ite
    | with_reducible apply Keeps.ite_fst
    | with_reducible refine Keeps.foldl _ (fun _ _ => ?_) ?_
    | extract_lets
    | split
    | dsimp only
    | ((with_reducible apply Keeps.upd) <;> first | exact .inl rfl | exact .inr rfl | skip))

theorem execVaonLoss_own (s : State) : OwnKeeps (allBut [.pending, .params, .freeCount]) s (execVaonLoss s) := by
  unfold execVaonLoss
  repeat' (first
    | with_reducible apply Keeps.refl
    | with_reducible assumption
    | with_reducible exact OwnKeeps.fault
    | with_reducible exact OwnKeeps.refused
    | with_reducible apply OwnKeeps.okFin
    | with_reducible apply OwnKeeps.okCarry
    | with_reducible apply OwnKeeps.okCarryAll
    | with_reducible apply OwnKeeps.nextFin
    | with_reducible apply OwnKeeps.nextCarry
    | with_reducible apply OwnKeeps.nextCarryAll
    | with_reducible apply OwnKeeps.ite
    | with_reducible apply OwnKeeps.ok
    | with_reducible apply OwnKeeps.next
    | ((with_reducible apply whenDo_keeps); focus exact rfl)
    | ((with_reducible apply Keeps.step (vaonLost_keeps ..)); focus exact rfl)
    | with_reducible intro _
    | with_reducible apply Keeps.self
    | with_reducible apply Keeps.ite
    | with_reducible apply Keeps.ite_fst
    | with_reducible refine Keeps.foldl _ (fun _ _ => ?_) ?_
    | extract_lets
    | split
    | dsimp only)

theorem execSensorTrip_own (sensor : Sensor) (detail0 : W32) (detail1 : W32) (s : State) : OwnKeeps (allBut [.pending, .params, .seats, .offers,
    .nextJob, .time, .freeCount]) s (execSensorTrip sensor detail0 detail1 s) := by
  unfold execSensorTrip
  repeat' (first
    | with_reducible apply Keeps.refl
    | with_reducible assumption
    | with_reducible exact OwnKeeps.fault
    | with_reducible exact OwnKeeps.refused
    | with_reducible apply OwnKeeps.okFin
    | with_reducible apply OwnKeeps.okCarry
    | with_reducible apply OwnKeeps.okCarryAll
    | with_reducible apply OwnKeeps.nextFin
    | with_reducible apply OwnKeeps.nextCarry
    | with_reducible apply OwnKeeps.nextCarryAll
    | with_reducible apply OwnKeeps.ite
    | with_reducible apply OwnKeeps.ok
    | with_reducible apply OwnKeeps.next
    | ((with_reducible apply Keeps.step (sensorTrip_keeps ..)); focus exact rfl)
    | with_reducible apply Keeps.ite
    | with_reducible apply Keeps.ite_fst
    | with_reducible refine Keeps.foldl _ (fun _ _ => ?_) ?_
    | extract_lets
    | split
    | dsimp only)

theorem execLockstep_own (s : State) : OwnKeeps (allBut [.pending, .params, .seats, .offers, .nextJob, .time, .freeCount]) s (execLockstep s) := by
  unfold execLockstep
  repeat' (first
    | with_reducible apply Keeps.refl
    | with_reducible assumption
    | with_reducible exact OwnKeeps.fault
    | with_reducible exact OwnKeeps.refused
    | with_reducible apply OwnKeeps.okFin
    | with_reducible apply OwnKeeps.okCarry
    | with_reducible apply OwnKeeps.okCarryAll
    | with_reducible apply OwnKeeps.nextFin
    | with_reducible apply OwnKeeps.nextCarry
    | with_reducible apply OwnKeeps.nextCarryAll
    | with_reducible apply OwnKeeps.ite
    | with_reducible apply OwnKeeps.ok
    | with_reducible apply OwnKeeps.next
    | ((with_reducible apply whenDo_keeps); focus exact rfl)
    | ((with_reducible apply Keeps.step (alarmA_keeps ..)); focus exact rfl)
    | with_reducible intro _
    | with_reducible apply Keeps.self
    | with_reducible apply Keeps.ite
    | with_reducible apply Keeps.ite_fst
    | with_reducible refine Keeps.foldl _ (fun _ _ => ?_) ?_
    | extract_lets
    | split
    | dsimp only)

theorem execErasureVerified_own (erased : Erasure) (s : State) : OwnKeeps (only [.alarms, .seats, .jobs, .mem, .buffers, .engines, .keys, .prompts]) s
    (execErasureVerified erased s) := by
  unfold execErasureVerified
  repeat' (first
    | with_reducible apply Keeps.refl
    | with_reducible assumption
    | with_reducible exact OwnKeeps.fault
    | with_reducible exact OwnKeeps.refused
    | with_reducible apply OwnKeeps.okFin
    | with_reducible apply OwnKeeps.okCarry
    | with_reducible apply OwnKeeps.okCarryAll
    | with_reducible apply OwnKeeps.nextFin
    | with_reducible apply OwnKeeps.nextCarry
    | with_reducible apply OwnKeeps.nextCarryAll
    | with_reducible apply OwnKeeps.ite
    | with_reducible apply OwnKeeps.ok
    | with_reducible apply OwnKeeps.next
    | ((with_reducible apply whenDo_keeps); focus exact rfl)
    | ((with_reducible apply Keeps.step (erasureVerified_keeps ..)); focus exact rfl)
    | with_reducible intro _
    | with_reducible apply Keeps.self
    | with_reducible apply Keeps.ite
    | with_reducible apply Keeps.ite_fst
    | with_reducible refine Keeps.foldl _ (fun _ _ => ?_) ?_
    | extract_lets
    | split
    | dsimp only)

theorem execClearA_own (s : State) : OwnKeeps (only [.alarms, .entropy, .relay, .prompts]) s (execClearA s) := by
  unfold execClearA
  repeat' (first
    | with_reducible apply Keeps.refl
    | with_reducible assumption
    | with_reducible exact OwnKeeps.fault
    | with_reducible exact OwnKeeps.refused
    | with_reducible apply OwnKeeps.okFin
    | with_reducible apply OwnKeeps.okCarry
    | with_reducible apply OwnKeeps.okCarryAll
    | with_reducible apply OwnKeeps.nextFin
    | with_reducible apply OwnKeeps.nextCarry
    | with_reducible apply OwnKeeps.nextCarryAll
    | with_reducible apply OwnKeeps.ite
    | with_reducible apply OwnKeeps.ok
    | with_reducible apply OwnKeeps.next
    | ((with_reducible apply mgrWrite_keeps); focus exact rfl)
    | ((with_reducible apply Keeps.step (almClear_keeps ..)); focus exact rfl)
    | with_reducible intro _
    | with_reducible apply Keeps.self
    | with_reducible apply Keeps.ite
    | with_reducible apply Keeps.ite_fst
    | with_reducible refine Keeps.foldl _ (fun _ _ => ?_) ?_
    | extract_lets
    | split
    | dsimp only)

theorem execClearB_own (s : State) : OwnKeeps (only [.alarms, .entropy, .relay, .prompts]) s (execClearB s) := by
  unfold execClearB
  repeat' (first
    | with_reducible apply Keeps.refl
    | with_reducible assumption
    | with_reducible exact OwnKeeps.fault
    | with_reducible exact OwnKeeps.refused
    | with_reducible apply OwnKeeps.okFin
    | with_reducible apply OwnKeeps.okCarry
    | with_reducible apply OwnKeeps.okCarryAll
    | with_reducible apply OwnKeeps.nextFin
    | with_reducible apply OwnKeeps.nextCarry
    | with_reducible apply OwnKeeps.nextCarryAll
    | with_reducible apply OwnKeeps.ite
    | with_reducible apply OwnKeeps.ok
    | with_reducible apply OwnKeeps.next
    | ((with_reducible apply mgrWrite_keeps); focus exact rfl)
    | ((with_reducible apply Keeps.step (almClear_keeps ..)); focus exact rfl)
    | with_reducible intro _
    | with_reducible apply Keeps.self
    | with_reducible apply Keeps.ite
    | with_reducible apply Keeps.ite_fst
    | with_reducible refine Keeps.foldl _ (fun _ _ => ?_) ?_
    | extract_lets
    | split
    | dsimp only)

theorem execSequencerFault_own (bay : Nat) (s : State) : OwnKeeps (only [.journal, .alarms, .jobs, .mem, .place, .buffers, .engines, .keys, .entropy,
    .prompts]) s (execSequencerFault bay s) := by
  unfold execSequencerFault
  repeat' (first
    | with_reducible apply Keeps.refl
    | with_reducible assumption
    | with_reducible exact OwnKeeps.fault
    | with_reducible exact OwnKeeps.refused
    | with_reducible apply OwnKeeps.okFin
    | with_reducible apply OwnKeeps.okCarry
    | with_reducible apply OwnKeeps.okCarryAll
    | with_reducible apply OwnKeeps.nextFin
    | with_reducible apply OwnKeeps.nextCarry
    | with_reducible apply OwnKeeps.nextCarryAll
    | with_reducible apply OwnKeeps.ite
    | with_reducible apply OwnKeeps.ok
    | with_reducible apply OwnKeeps.next
    | ((with_reducible apply whenDo_keeps); focus exact rfl)
    | ((with_reducible apply Keeps.step (sequencerFault_keeps ..)); focus exact rfl)
    | with_reducible intro _
    | with_reducible apply Keeps.self
    | with_reducible apply Keeps.ite
    | with_reducible apply Keeps.ite_fst
    | with_reducible refine Keeps.foldl _ (fun _ _ => ?_) ?_
    | extract_lets
    | split
    | dsimp only)

theorem execWingFailure_own (wing : Nat) (s : State) : OwnKeeps (only [.start, .journal, .alarms, .jobs, .mem, .place, .buffers, .engines, .keys,
    .entropy, .prompts]) s (execWingFailure wing s) := by
  unfold execWingFailure
  repeat' (first
    | with_reducible apply Keeps.refl
    | with_reducible assumption
    | with_reducible exact OwnKeeps.fault
    | with_reducible exact OwnKeeps.refused
    | with_reducible apply OwnKeeps.okFin
    | with_reducible apply OwnKeeps.okCarry
    | with_reducible apply OwnKeeps.okCarryAll
    | with_reducible apply OwnKeeps.nextFin
    | with_reducible apply OwnKeeps.nextCarry
    | with_reducible apply OwnKeeps.nextCarryAll
    | with_reducible apply OwnKeeps.ite
    | with_reducible apply OwnKeeps.ok
    | with_reducible apply OwnKeeps.next
    | ((with_reducible apply whenDo_keeps); focus exact rfl)
    | ((with_reducible apply Keeps.step (wingFailure_keeps ..)); focus exact rfl)
    | with_reducible intro _
    | with_reducible apply Keeps.self
    | with_reducible apply Keeps.ite
    | with_reducible apply Keeps.ite_fst
    | with_reducible refine Keeps.foldl _ (fun _ _ => ?_) ?_
    | extract_lets
    | split
    | dsimp only)

theorem execPortClockLost_own (port : ClkPort) (s : State) : OwnKeeps (only [.alarms, .mem, .prompts]) s (execPortClockLost port s) := by
  unfold execPortClockLost
  repeat' (first
    | with_reducible apply Keeps.refl
    | with_reducible assumption
    | with_reducible exact OwnKeeps.fault
    | with_reducible exact OwnKeeps.refused
    | with_reducible apply OwnKeeps.okFin
    | with_reducible apply OwnKeeps.okCarry
    | with_reducible apply OwnKeeps.okCarryAll
    | with_reducible apply OwnKeeps.nextFin
    | with_reducible apply OwnKeeps.nextCarry
    | with_reducible apply OwnKeeps.nextCarryAll
    | with_reducible apply OwnKeeps.ite
    | with_reducible apply OwnKeeps.ok
    | with_reducible apply OwnKeeps.next
    | ((with_reducible apply whenDo_keeps); focus exact rfl)
    | ((with_reducible apply Keeps.step (alarmC_keeps ..)); focus exact rfl)
    | with_reducible intro _
    | with_reducible apply Keeps.self
    | with_reducible apply Keeps.ite
    | with_reducible apply Keeps.ite_fst
    | with_reducible refine Keeps.foldl _ (fun _ _ => ?_) ?_
    | extract_lets
    | split
    | dsimp only
    | ((with_reducible apply Keeps.upd) <;> first | exact .inl rfl | exact .inr rfl | skip))

theorem execPortClockReturn_own (port : ClkPort) (s : State) : OwnKeeps (only [.mem, .entropy, .relay]) s (execPortClockReturn port s) := by
  unfold execPortClockReturn
  repeat' (first
    | with_reducible apply Keeps.refl
    | with_reducible assumption
    | with_reducible exact OwnKeeps.fault
    | with_reducible exact OwnKeeps.refused
    | with_reducible apply OwnKeeps.okFin
    | with_reducible apply OwnKeeps.okCarry
    | with_reducible apply OwnKeeps.okCarryAll
    | with_reducible apply OwnKeeps.nextFin
    | with_reducible apply OwnKeeps.nextCarry
    | with_reducible apply OwnKeeps.nextCarryAll
    | with_reducible apply OwnKeeps.ite
    | with_reducible apply OwnKeeps.ok
    | with_reducible apply OwnKeeps.next
    | ((with_reducible apply Keeps.step (sendHello_keeps ..)); focus exact rfl)
    | ((with_reducible apply Keeps.step (hopDrain_keeps ..)); focus exact rfl)
    | with_reducible apply Keeps.ite
    | with_reducible apply Keeps.ite_fst
    | with_reducible refine Keeps.foldl _ (fun _ _ => ?_) ?_
    | extract_lets
    | split
    | dsimp only
    | ((with_reducible apply Keeps.upd) <;> first | exact .inl rfl | exact .inr rfl | skip))

theorem execRefclkLost_own (s : State) : OwnKeeps (only [.alarms, .time, .prompts]) s (execRefclkLost s) := by
  unfold execRefclkLost
  repeat' (first
    | with_reducible apply Keeps.refl
    | with_reducible assumption
    | with_reducible exact OwnKeeps.fault
    | with_reducible exact OwnKeeps.refused
    | with_reducible apply OwnKeeps.okFin
    | with_reducible apply OwnKeeps.okCarry
    | with_reducible apply OwnKeeps.okCarryAll
    | with_reducible apply OwnKeeps.nextFin
    | with_reducible apply OwnKeeps.nextCarry
    | with_reducible apply OwnKeeps.nextCarryAll
    | with_reducible apply OwnKeeps.ite
    | with_reducible apply OwnKeeps.ok
    | with_reducible apply OwnKeeps.next
    | ((with_reducible apply Keeps.step (refLose_keeps ..)); focus exact rfl)
    | with_reducible apply Keeps.ite
    | with_reducible apply Keeps.ite_fst
    | with_reducible refine Keeps.foldl _ (fun _ _ => ?_) ?_
    | extract_lets
    | split
    | dsimp only)

theorem execRefclkReturn_own (khz : Nat) (s : State) : OwnKeeps (only [.time, .cust, .prompts]) s (execRefclkReturn khz s) := by
  unfold execRefclkReturn
  repeat' (first
    | with_reducible apply Keeps.refl
    | with_reducible assumption
    | with_reducible exact OwnKeeps.fault
    | with_reducible exact OwnKeeps.refused
    | with_reducible apply OwnKeeps.okFin
    | with_reducible apply OwnKeeps.okCarry
    | with_reducible apply OwnKeeps.okCarryAll
    | with_reducible apply OwnKeeps.nextFin
    | with_reducible apply OwnKeeps.nextCarry
    | with_reducible apply OwnKeeps.nextCarryAll
    | with_reducible apply OwnKeeps.ite
    | with_reducible apply OwnKeeps.ok
    | with_reducible apply OwnKeeps.next
    | ((with_reducible apply Keeps.step (refBack_keeps ..)); focus exact rfl)
    | ((with_reducible apply Keeps.step (cardActivate_keeps ..)); focus exact rfl)
    | with_reducible apply Keeps.ite
    | with_reducible apply Keeps.ite_fst
    | with_reducible refine Keeps.foldl _ (fun _ _ => ?_) ?_
    | extract_lets
    | split
    | dsimp only)

theorem execAccessViolation_own (src : Nat) (off : Nat) (write : Bool) (s : State) : OwnKeeps (only [.alarms, .prompts]) s (execAccessViolation src
    off write s) := by
  unfold execAccessViolation
  repeat' (first
    | with_reducible apply Keeps.refl
    | with_reducible assumption
    | with_reducible exact OwnKeeps.fault
    | with_reducible exact OwnKeeps.refused
    | with_reducible apply OwnKeeps.okFin
    | with_reducible apply OwnKeeps.okCarry
    | with_reducible apply OwnKeeps.okCarryAll
    | with_reducible apply OwnKeeps.nextFin
    | with_reducible apply OwnKeeps.nextCarry
    | with_reducible apply OwnKeeps.nextCarryAll
    | with_reducible apply OwnKeeps.ite
    | with_reducible apply OwnKeeps.ok
    | with_reducible apply OwnKeeps.next
    | ((with_reducible apply whenDo_keeps); focus exact rfl)
    | ((with_reducible apply hreg_keeps); focus exact rfl)
    | with_reducible intro _
    | with_reducible apply Keeps.self
    | with_reducible apply Keeps.ite
    | with_reducible apply Keeps.ite_fst
    | with_reducible refine Keeps.foldl _ (fun _ _ => ?_) ?_
    | extract_lets
    | split
    | dsimp only)

theorem execRegWrite_own (src : Nat) (off : Nat) (value : W32) (s : State) : OwnKeeps (allBut [.pending, .params]) s (execRegWrite src off value s) :=
    by
  unfold execRegWrite
  repeat' (first
    | with_reducible apply Keeps.refl
    | with_reducible assumption
    | with_reducible exact OwnKeeps.fault
    | with_reducible exact OwnKeeps.refused
    | with_reducible apply OwnKeeps.okFin
    | with_reducible apply OwnKeeps.okCarry
    | with_reducible apply OwnKeeps.okCarryAll
    | with_reducible apply OwnKeeps.nextFin
    | with_reducible apply OwnKeeps.nextCarry
    | with_reducible apply OwnKeeps.nextCarryAll
    | with_reducible apply OwnKeeps.ite
    | with_reducible apply OwnKeeps.ok
    | with_reducible apply OwnKeeps.next
    | ((with_reducible apply hreg_keeps); focus exact rfl)
    | ((with_reducible apply Keeps.step (writeReg_keeps ..)); focus exact rfl)
    | with_reducible intro _
    | with_reducible apply Keeps.self
    | with_reducible apply Keeps.ite
    | with_reducible apply Keeps.ite_fst
    | with_reducible refine Keeps.foldl _ (fun _ _ => ?_) ?_
    | extract_lets
    | split
    | dsimp only)

theorem execPromptAccept_own (s : State) : OwnKeeps (only [.prompts]) s (execPromptAccept s) := by
  unfold execPromptAccept
  repeat' (first
    | with_reducible apply Keeps.refl
    | with_reducible assumption
    | with_reducible exact OwnKeeps.fault
    | with_reducible exact OwnKeeps.refused
    | with_reducible apply OwnKeeps.okFin
    | with_reducible apply OwnKeeps.okCarry
    | with_reducible apply OwnKeeps.okCarryAll
    | with_reducible apply OwnKeeps.nextFin
    | with_reducible apply OwnKeeps.nextCarry
    | with_reducible apply OwnKeeps.nextCarryAll
    | with_reducible apply OwnKeeps.ite
    | with_reducible apply OwnKeeps.ok
    | with_reducible apply OwnKeeps.next
    | ((with_reducible apply whenDo_keeps); focus exact rfl)
    | with_reducible intro _
    | with_reducible apply Keeps.self
    | with_reducible apply Keeps.ite
    | with_reducible apply Keeps.ite_fst
    | with_reducible refine Keeps.foldl _ (fun _ _ => ?_) ?_
    | extract_lets
    | split
    | dsimp only
    | ((with_reducible apply Keeps.upd) <;> first | exact .inl rfl | exact .inr rfl | skip))

theorem execMemReadData_own (port : Nat) (tag : Nat) (beat : Bytes) (last : Bool) (s : State) : OwnKeeps (allBut [.pending, .params, .journal,
    .window, .time, .cust]) s (execMemReadData port tag beat last s) := by
  unfold execMemReadData
  repeat' (first
    | with_reducible apply Keeps.refl
    | with_reducible assumption
    | with_reducible exact OwnKeeps.fault
    | with_reducible exact OwnKeeps.refused
    | with_reducible apply OwnKeeps.okFin
    | with_reducible apply OwnKeeps.okCarry
    | with_reducible apply OwnKeeps.okCarryAll
    | with_reducible apply OwnKeeps.nextFin
    | with_reducible apply OwnKeeps.nextCarry
    | with_reducible apply OwnKeeps.nextCarryAll
    | with_reducible apply OwnKeeps.ite
    | with_reducible apply OwnKeeps.ok
    | with_reducible apply OwnKeeps.next
    | ((with_reducible apply Keeps.step (walkBeat_keeps ..)); focus exact rfl)
    | ((with_reducible apply Keeps.step (deliver_keeps ..)); focus exact rfl)
    | ((with_reducible apply Keeps.step (State.modAccess_keeps ..)); focus exact rfl)
    | with_reducible apply Keeps.ite
    | with_reducible apply Keeps.ite_fst
    | with_reducible refine Keeps.foldl _ (fun _ _ => ?_) ?_
    | extract_lets
    | split
    | dsimp only)

theorem execMemWriteAck_own (port : Nat) (tag : Nat) (s : State) : OwnKeeps (allBut [.pending, .params, .start, .journal, .engines, .window, .time,
    .cust, .freeCount]) s (execMemWriteAck port tag s) := by
  unfold execMemWriteAck
  repeat' (first
    | with_reducible apply Keeps.refl
    | with_reducible assumption
    | with_reducible exact OwnKeeps.fault
    | with_reducible exact OwnKeeps.refused
    | with_reducible apply OwnKeeps.okFin
    | with_reducible apply OwnKeeps.okCarry
    | with_reducible apply OwnKeeps.okCarryAll
    | with_reducible apply OwnKeeps.nextFin
    | with_reducible apply OwnKeeps.nextCarry
    | with_reducible apply OwnKeeps.nextCarryAll
    | with_reducible apply OwnKeeps.ite
    | with_reducible apply OwnKeeps.ok
    | with_reducible apply OwnKeeps.next
    | ((with_reducible apply Keeps.step (writesClosed_keeps ..)); focus exact rfl)
    | ((with_reducible apply Keeps.step (ackOwner_keeps ..)); focus exact rfl)
    | ((with_reducible apply Keeps.step (State.dropAccess_keeps ..)); focus exact rfl)
    | with_reducible apply Keeps.ite
    | with_reducible apply Keeps.ite_fst
    | with_reducible refine Keeps.foldl _ (fun _ _ => ?_) ?_
    | extract_lets
    | split
    | dsimp only)

theorem execMemRspErr_own (port : Nat) (tag : ErrBeat) (s : State) : OwnKeeps (allBut [.pending, .params, .journal, .offers, .nextJob, .place,
    .window, .entropy, .time, .cust]) s (execMemRspErr port tag s) := by
  unfold execMemRspErr
  repeat' (first
    | with_reducible apply Keeps.refl
    | with_reducible assumption
    | with_reducible exact OwnKeeps.fault
    | with_reducible exact OwnKeeps.refused
    | with_reducible apply OwnKeeps.okFin
    | with_reducible apply OwnKeeps.okCarry
    | with_reducible apply OwnKeeps.okCarryAll
    | with_reducible apply OwnKeeps.nextFin
    | with_reducible apply OwnKeeps.nextCarry
    | with_reducible apply OwnKeeps.nextCarryAll
    | with_reducible apply OwnKeeps.ite
    | with_reducible apply OwnKeeps.ok
    | with_reducible apply OwnKeeps.next
    | ((with_reducible apply Keeps.step (writesClosed_keeps ..)); focus exact rfl)
    | ((with_reducible apply Keeps.step (rspErr_keeps ..)); focus exact rfl)
    | with_reducible apply Keeps.ite
    | with_reducible apply Keeps.ite_fst
    | with_reducible refine Keeps.foldl _ (fun _ _ => ?_) ?_
    | extract_lets
    | split
    | dsimp only)

theorem execRootkeyAck_own (data : BitVec 256) (err : Bool) (s : State) : OwnKeeps (only [.start]) s (execRootkeyAck data err s) := by
  unfold execRootkeyAck
  repeat' (first
    | with_reducible apply Keeps.refl
    | with_reducible assumption
    | with_reducible exact OwnKeeps.fault
    | with_reducible exact OwnKeeps.refused
    | with_reducible apply OwnKeeps.okFin
    | with_reducible apply OwnKeeps.okCarry
    | with_reducible apply OwnKeeps.okCarryAll
    | with_reducible apply OwnKeeps.nextFin
    | with_reducible apply OwnKeeps.nextCarry
    | with_reducible apply OwnKeeps.nextCarryAll
    | with_reducible apply OwnKeeps.ite
    | with_reducible apply OwnKeeps.ok
    | with_reducible apply OwnKeeps.next
    | ((with_reducible apply whenDo_keeps); focus exact rfl)
    | ((with_reducible apply Keeps.step (rootkeyAck_keeps ..)); focus exact rfl)
    | with_reducible intro _
    | with_reducible apply Keeps.self
    | with_reducible apply Keeps.ite
    | with_reducible apply Keeps.ite_fst
    | with_reducible refine Keeps.foldl _ (fun _ _ => ?_) ?_
    | extract_lets
    | split
    | dsimp only)

theorem execRootkeyTimeout_own (s : State) : OwnKeeps (only [.start, .journal, .mem, .entropy]) s (execRootkeyTimeout s) := by
  unfold execRootkeyTimeout
  repeat' (first
    | with_reducible apply Keeps.refl
    | with_reducible assumption
    | with_reducible exact OwnKeeps.fault
    | with_reducible exact OwnKeeps.refused
    | with_reducible apply OwnKeeps.okFin
    | with_reducible apply OwnKeeps.okCarry
    | with_reducible apply OwnKeeps.okCarryAll
    | with_reducible apply OwnKeeps.nextFin
    | with_reducible apply OwnKeeps.nextCarry
    | with_reducible apply OwnKeeps.nextCarryAll
    | with_reducible apply OwnKeeps.ite
    | with_reducible apply OwnKeeps.ok
    | with_reducible apply OwnKeeps.next
    | ((with_reducible apply whenDo_keeps); focus exact rfl)
    | ((with_reducible apply Keeps.step (failHalt_keeps ..)); focus exact rfl)
    | with_reducible intro _
    | with_reducible apply Keeps.self
    | with_reducible apply Keeps.ite
    | with_reducible apply Keeps.ite_fst
    | with_reducible refine Keeps.foldl _ (fun _ _ => ?_) ?_
    | extract_lets
    | split
    | dsimp only)

theorem execStartStepDone_own (step : Nat) (ok : Bool) (info : Nat) (s : State) : OwnKeeps (allBut [.pending, .params, .offers, .nextJob, .freeCount])
    s (execStartStepDone step ok info s) := by
  unfold execStartStepDone
  repeat' (first
    | with_reducible apply Keeps.refl
    | with_reducible assumption
    | with_reducible exact OwnKeeps.fault
    | with_reducible exact OwnKeeps.refused
    | with_reducible apply OwnKeeps.okFin
    | with_reducible apply OwnKeeps.okCarry
    | with_reducible apply OwnKeeps.okCarryAll
    | with_reducible apply OwnKeeps.nextFin
    | with_reducible apply OwnKeeps.nextCarry
    | with_reducible apply OwnKeeps.nextCarryAll
    | with_reducible apply OwnKeeps.ite
    | with_reducible apply OwnKeeps.ok
    | with_reducible apply OwnKeeps.next
    | ((with_reducible apply whenDo_keeps); focus exact rfl)
    | ((with_reducible apply Keeps.step (stepDone_keeps ..)); focus exact rfl)
    | with_reducible intro _
    | with_reducible apply Keeps.self
    | with_reducible apply Keeps.ite
    | with_reducible apply Keeps.ite_fst
    | with_reducible refine Keeps.foldl _ (fun _ _ => ?_) ?_
    | extract_lets
    | split
    | dsimp only)

theorem execStartStepBound_own (step : Nat) (s : State) : OwnKeeps (allBut [.pending, .params, .rings, .seatRegs, .offers, .nextJob, .window, .cust,
    .freeCount]) s (execStartStepBound step s) := by
  unfold execStartStepBound
  repeat' (first
    | with_reducible apply Keeps.refl
    | with_reducible assumption
    | with_reducible exact OwnKeeps.fault
    | with_reducible exact OwnKeeps.refused
    | with_reducible apply OwnKeeps.okFin
    | with_reducible apply OwnKeeps.okCarry
    | with_reducible apply OwnKeeps.okCarryAll
    | with_reducible apply OwnKeeps.nextFin
    | with_reducible apply OwnKeeps.nextCarry
    | with_reducible apply OwnKeeps.nextCarryAll
    | with_reducible apply OwnKeeps.ite
    | with_reducible apply OwnKeeps.ok
    | with_reducible apply OwnKeeps.next
    | ((with_reducible apply whenDo_keeps); focus exact rfl)
    | ((with_reducible apply Keeps.step (stepAtBound_keeps ..)); focus exact rfl)
    | with_reducible intro _
    | with_reducible apply Keeps.self
    | with_reducible apply Keeps.ite
    | with_reducible apply Keeps.ite_fst
    | with_reducible refine Keeps.foldl _ (fun _ _ => ?_) ?_
    | extract_lets
    | split
    | dsimp only)

theorem execImagesValidWrite_own (value : W32) (s : State) : OwnKeeps (only [.start, .journal, .alarms, .seats, .mem, .entropy, .prompts]) s
    (execImagesValidWrite value s) := by
  unfold execImagesValidWrite
  repeat' (first
    | with_reducible apply Keeps.refl
    | with_reducible assumption
    | with_reducible exact OwnKeeps.fault
    | with_reducible exact OwnKeeps.refused
    | with_reducible apply OwnKeeps.okFin
    | with_reducible apply OwnKeeps.okCarry
    | with_reducible apply OwnKeeps.okCarryAll
    | with_reducible apply OwnKeeps.nextFin
    | with_reducible apply OwnKeeps.nextCarry
    | with_reducible apply OwnKeeps.nextCarryAll
    | with_reducible apply OwnKeeps.ite
    | with_reducible apply OwnKeeps.ok
    | with_reducible apply OwnKeeps.next
    | ((with_reducible apply mgrWrite_keeps); focus exact rfl)
    | ((with_reducible apply Keeps.step (bootCtrl_keeps ..)); focus exact rfl)
    | with_reducible intro _
    | with_reducible apply Keeps.self
    | with_reducible apply Keeps.ite
    | with_reducible apply Keeps.ite_fst
    | with_reducible refine Keeps.foldl _ (fun _ _ => ?_) ?_
    | extract_lets
    | split
    | dsimp only)

theorem execAcceptVersionWrite_own (sqm : Bool) (value : W32) (s : State) : OwnKeeps (only [.start, .alarms, .cust, .prompts]) s
    (execAcceptVersionWrite sqm value s) := by
  unfold execAcceptVersionWrite
  repeat' (first
    | with_reducible apply Keeps.refl
    | with_reducible assumption
    | with_reducible exact OwnKeeps.fault
    | with_reducible exact OwnKeeps.refused
    | with_reducible apply OwnKeeps.okFin
    | with_reducible apply OwnKeeps.okCarry
    | with_reducible apply OwnKeeps.okCarryAll
    | with_reducible apply OwnKeeps.nextFin
    | with_reducible apply OwnKeeps.nextCarry
    | with_reducible apply OwnKeeps.nextCarryAll
    | with_reducible apply OwnKeeps.ite
    | with_reducible apply OwnKeeps.ok
    | with_reducible apply OwnKeeps.next
    | ((with_reducible apply mgrWrite_keeps); focus exact rfl)
    | ((with_reducible apply Keeps.step (acceptVersion_keeps ..)); focus exact rfl)
    | with_reducible intro _
    | with_reducible apply Keeps.self
    | with_reducible apply Keeps.ite
    | with_reducible apply Keeps.ite_fst
    | with_reducible refine Keeps.foldl _ (fun _ _ => ?_) ?_
    | extract_lets
    | split
    | dsimp only)

theorem execClearFail_own (step : Nat) (s : State) : OwnKeeps (allBut [.pending, .params, .seats, .rings, .seatRegs, .offers, .nextJob, .place,
    .window, .freeCount]) s (execClearFail step s) := by
  unfold execClearFail
  repeat' (first
    | with_reducible apply Keeps.refl
    | with_reducible assumption
    | with_reducible exact OwnKeeps.fault
    | with_reducible exact OwnKeeps.refused
    | with_reducible apply OwnKeeps.okFin
    | with_reducible apply OwnKeeps.okCarry
    | with_reducible apply OwnKeeps.okCarryAll
    | with_reducible apply OwnKeeps.nextFin
    | with_reducible apply OwnKeeps.nextCarry
    | with_reducible apply OwnKeeps.nextCarryAll
    | with_reducible apply OwnKeeps.ite
    | with_reducible apply OwnKeeps.ok
    | with_reducible apply OwnKeeps.next
    | ((with_reducible apply mgrWrite_keeps); focus exact rfl)
    | ((with_reducible apply Keeps.step (smgCmd_keeps ..)); focus exact rfl)
    | with_reducible intro _
    | with_reducible apply Keeps.self
    | with_reducible apply Keeps.ite
    | with_reducible apply Keeps.ite_fst
    | with_reducible refine Keeps.foldl _ (fun _ _ => ?_) ?_
    | extract_lets
    | split
    | dsimp only)

theorem execRunStep_own (step : Nat) (s : State) : OwnKeeps (allBut [.pending, .params, .seats, .rings, .seatRegs, .offers, .nextJob, .place, .window,
    .freeCount]) s (execRunStep step s) := by
  unfold execRunStep
  repeat' (first
    | with_reducible apply Keeps.refl
    | with_reducible assumption
    | with_reducible exact OwnKeeps.fault
    | with_reducible exact OwnKeeps.refused
    | with_reducible apply OwnKeeps.okFin
    | with_reducible apply OwnKeeps.okCarry
    | with_reducible apply OwnKeeps.okCarryAll
    | with_reducible apply OwnKeeps.nextFin
    | with_reducible apply OwnKeeps.nextCarry
    | with_reducible apply OwnKeeps.nextCarryAll
    | with_reducible apply OwnKeeps.ite
    | with_reducible apply OwnKeeps.ok
    | with_reducible apply OwnKeeps.next
    | ((with_reducible apply mgrWrite_keeps); focus exact rfl)
    | ((with_reducible apply Keeps.step (smgCmd_keeps ..)); focus exact rfl)
    | with_reducible intro _
    | with_reducible apply Keeps.self
    | with_reducible apply Keeps.ite
    | with_reducible apply Keeps.ite_fst
    | with_reducible refine Keeps.foldl _ (fun _ _ => ?_) ?_
    | extract_lets
    | split
    | dsimp only)

theorem execAcceptUntested_own (s : State) : OwnKeeps (allBut [.pending, .params, .seats, .rings, .seatRegs, .offers, .nextJob, .place, .window,
    .freeCount]) s (execAcceptUntested s) := by
  unfold execAcceptUntested
  repeat' (first
    | with_reducible apply Keeps.refl
    | with_reducible assumption
    | with_reducible exact OwnKeeps.fault
    | with_reducible exact OwnKeeps.refused
    | with_reducible apply OwnKeeps.okFin
    | with_reducible apply OwnKeeps.okCarry
    | with_reducible apply OwnKeeps.okCarryAll
    | with_reducible apply OwnKeeps.nextFin
    | with_reducible apply OwnKeeps.nextCarry
    | with_reducible apply OwnKeeps.nextCarryAll
    | with_reducible apply OwnKeeps.ite
    | with_reducible apply OwnKeeps.ok
    | with_reducible apply OwnKeeps.next
    | ((with_reducible apply mgrWrite_keeps); focus exact rfl)
    | ((with_reducible apply Keeps.step (smgCmd_keeps ..)); focus exact rfl)
    | with_reducible intro _
    | with_reducible apply Keeps.self
    | with_reducible apply Keeps.ite
    | with_reducible apply Keeps.ite_fst
    | with_reducible refine Keeps.foldl _ (fun _ _ => ?_) ?_
    | extract_lets
    | split
    | dsimp only)

theorem execConfigure_own (seat : Nat) (s : State) : OwnKeeps (allBut [.pending, .params, .journal, .window, .time, .cust]) s (execConfigure seat s)
    := by
  unfold execConfigure seatExec
  repeat' (first
    | with_reducible apply Keeps.refl
    | with_reducible assumption
    | with_reducible exact OwnKeeps.fault
    | with_reducible exact OwnKeeps.refused
    | with_reducible apply OwnKeeps.okFin
    | with_reducible apply OwnKeeps.okCarry
    | with_reducible apply OwnKeeps.okCarryAll
    | with_reducible apply OwnKeeps.nextFin
    | with_reducible apply OwnKeeps.nextCarry
    | with_reducible apply OwnKeeps.nextCarryAll
    | with_reducible apply OwnKeeps.ite
    | with_reducible apply OwnKeeps.ok
    | with_reducible apply OwnKeeps.next
    | ((with_reducible apply OutKeeps.mono (seatExec_keeps ..)); focus exact rfl)
    | ((with_reducible apply mgrWrite_keeps); focus exact rfl)
    | ((with_reducible apply Keeps.step (seatCmd_keeps ..)); focus exact rfl)
    | with_reducible intro _
    | with_reducible apply Keeps.self
    | with_reducible apply Keeps.ite
    | with_reducible apply Keeps.ite_fst
    | with_reducible refine Keeps.foldl _ (fun _ _ => ?_) ?_
    | extract_lets
    | split
    | dsimp only)

theorem execStart_own (seat : Nat) (s : State) : OwnKeeps (allBut [.pending, .params, .journal, .window, .time, .cust]) s (execStart seat s) := by
  unfold execStart seatExec
  repeat' (first
    | with_reducible apply Keeps.refl
    | with_reducible assumption
    | with_reducible exact OwnKeeps.fault
    | with_reducible exact OwnKeeps.refused
    | with_reducible apply OwnKeeps.okFin
    | with_reducible apply OwnKeeps.okCarry
    | with_reducible apply OwnKeeps.okCarryAll
    | with_reducible apply OwnKeeps.nextFin
    | with_reducible apply OwnKeeps.nextCarry
    | with_reducible apply OwnKeeps.nextCarryAll
    | with_reducible apply OwnKeeps.ite
    | with_reducible apply OwnKeeps.ok
    | with_reducible apply OwnKeeps.next
    | ((with_reducible apply OutKeeps.mono (seatExec_keeps ..)); focus exact rfl)
    | ((with_reducible apply mgrWrite_keeps); focus exact rfl)
    | ((with_reducible apply Keeps.step (seatCmd_keeps ..)); focus exact rfl)
    | with_reducible intro _
    | with_reducible apply Keeps.self
    | with_reducible apply Keeps.ite
    | with_reducible apply Keeps.ite_fst
    | with_reducible refine Keeps.foldl _ (fun _ _ => ?_) ?_
    | extract_lets
    | split
    | dsimp only)

theorem execCurtain_own (seat : Nat) (squash : Bool) (s : State) : OwnKeeps (allBut [.pending, .params, .journal, .window, .time, .cust]) s
    (execCurtain seat squash s) := by
  unfold execCurtain seatExec
  repeat' (first
    | with_reducible apply Keeps.refl
    | with_reducible assumption
    | with_reducible exact OwnKeeps.fault
    | with_reducible exact OwnKeeps.refused
    | with_reducible apply OwnKeeps.okFin
    | with_reducible apply OwnKeeps.okCarry
    | with_reducible apply OwnKeeps.okCarryAll
    | with_reducible apply OwnKeeps.nextFin
    | with_reducible apply OwnKeeps.nextCarry
    | with_reducible apply OwnKeeps.nextCarryAll
    | with_reducible apply OwnKeeps.ite
    | with_reducible apply OwnKeeps.ok
    | with_reducible apply OwnKeeps.next
    | ((with_reducible apply OutKeeps.mono (seatExec_keeps ..)); focus exact rfl)
    | ((with_reducible apply mgrWrite_keeps); focus exact rfl)
    | ((with_reducible apply Keeps.step (seatCmd_keeps ..)); focus exact rfl)
    | with_reducible intro _
    | with_reducible apply Keeps.self
    | with_reducible apply Keeps.ite
    | with_reducible apply Keeps.ite_fst
    | with_reducible refine Keeps.foldl _ (fun _ _ => ?_) ?_
    | extract_lets
    | split
    | dsimp only)

theorem execCurtainQuiet_own (seat : Nat) (s : State) : OwnKeeps (only [.seats, .rings, .prompts]) s (execCurtainQuiet seat s) := by
  unfold execCurtainQuiet
  repeat' (first
    | with_reducible apply Keeps.refl
    | with_reducible assumption
    | with_reducible exact OwnKeeps.fault
    | with_reducible exact OwnKeeps.refused
    | with_reducible apply OwnKeeps.okFin
    | with_reducible apply OwnKeeps.okCarry
    | with_reducible apply OwnKeeps.okCarryAll
    | with_reducible apply OwnKeeps.nextFin
    | with_reducible apply OwnKeeps.nextCarry
    | with_reducible apply OwnKeeps.nextCarryAll
    | with_reducible apply OwnKeeps.ite
    | with_reducible apply OwnKeeps.ok
    | with_reducible apply OwnKeeps.next
    | ((with_reducible apply whenDo_keeps); focus exact rfl)
    | ((with_reducible apply Keeps.step (curtainQuiet_keeps ..)); focus exact rfl)
    | with_reducible intro _
    | with_reducible apply Keeps.self
    | with_reducible apply Keeps.ite
    | with_reducible apply Keeps.ite_fst
    | with_reducible refine Keeps.foldl _ (fun _ _ => ?_) ?_
    | extract_lets
    | split
    | dsimp only)

theorem execRestart_own (seat : Nat) (s : State) : OwnKeeps (allBut [.pending, .params, .journal, .window, .time, .cust]) s (execRestart seat s) := by
  unfold execRestart seatExec
  repeat' (first
    | with_reducible apply Keeps.refl
    | with_reducible assumption
    | with_reducible exact OwnKeeps.fault
    | with_reducible exact OwnKeeps.refused
    | with_reducible apply OwnKeeps.okFin
    | with_reducible apply OwnKeeps.okCarry
    | with_reducible apply OwnKeeps.okCarryAll
    | with_reducible apply OwnKeeps.nextFin
    | with_reducible apply OwnKeeps.nextCarry
    | with_reducible apply OwnKeeps.nextCarryAll
    | with_reducible apply OwnKeeps.ite
    | with_reducible apply OwnKeeps.ok
    | with_reducible apply OwnKeeps.next
    | ((with_reducible apply OutKeeps.mono (seatExec_keeps ..)); focus exact rfl)
    | ((with_reducible apply mgrWrite_keeps); focus exact rfl)
    | ((with_reducible apply Keeps.step (seatCmd_keeps ..)); focus exact rfl)
    | with_reducible intro _
    | with_reducible apply Keeps.self
    | with_reducible apply Keeps.ite
    | with_reducible apply Keeps.ite_fst
    | with_reducible refine Keeps.foldl _ (fun _ _ => ?_) ?_
    | extract_lets
    | split
    | dsimp only)

theorem execReset_own (seat : Nat) (s : State) : OwnKeeps (allBut [.pending, .params, .journal, .window, .time, .cust]) s (execReset seat s) := by
  unfold execReset seatExec
  repeat' (first
    | with_reducible apply Keeps.refl
    | with_reducible assumption
    | with_reducible exact OwnKeeps.fault
    | with_reducible exact OwnKeeps.refused
    | with_reducible apply OwnKeeps.okFin
    | with_reducible apply OwnKeeps.okCarry
    | with_reducible apply OwnKeeps.okCarryAll
    | with_reducible apply OwnKeeps.nextFin
    | with_reducible apply OwnKeeps.nextCarry
    | with_reducible apply OwnKeeps.nextCarryAll
    | with_reducible apply OwnKeeps.ite
    | with_reducible apply OwnKeeps.ok
    | with_reducible apply OwnKeeps.next
    | ((with_reducible apply OutKeeps.mono (seatExec_keeps ..)); focus exact rfl)
    | ((with_reducible apply mgrWrite_keeps); focus exact rfl)
    | ((with_reducible apply Keeps.step (seatCmd_keeps ..)); focus exact rfl)
    | with_reducible intro _
    | with_reducible apply Keeps.self
    | with_reducible apply Keeps.ite
    | with_reducible apply Keeps.ite_fst
    | with_reducible refine Keeps.foldl _ (fun _ _ => ?_) ?_
    | extract_lets
    | split
    | dsimp only)

theorem execResetReport_own (seat : Nat) (s : State) : OwnKeeps (only [.alarms, .seats, .entropy, .prompts]) s (execResetReport seat s) := by
  unfold execResetReport
  repeat' (first
    | with_reducible apply Keeps.refl
    | with_reducible assumption
    | with_reducible exact OwnKeeps.fault
    | with_reducible exact OwnKeeps.refused
    | with_reducible apply OwnKeeps.okFin
    | with_reducible apply OwnKeeps.okCarry
    | with_reducible apply OwnKeeps.okCarryAll
    | with_reducible apply OwnKeeps.nextFin
    | with_reducible apply OwnKeeps.nextCarry
    | with_reducible apply OwnKeeps.nextCarryAll
    | with_reducible apply OwnKeeps.ite
    | with_reducible apply OwnKeeps.ok
    | with_reducible apply OwnKeeps.next
    | ((with_reducible apply whenDo_keeps); focus exact rfl)
    | ((with_reducible apply Keeps.step (resetReport_keeps ..)); focus exact rfl)
    | with_reducible intro _
    | with_reducible apply Keeps.self
    | with_reducible apply Keeps.ite
    | with_reducible apply Keeps.ite_fst
    | with_reducible refine Keeps.foldl _ (fun _ _ => ?_) ?_
    | extract_lets
    | split
    | dsimp only)

theorem execDisable_own (seat : Nat) (s : State) : OwnKeeps (allBut [.pending, .params, .journal, .window, .time, .cust]) s (execDisable seat s) := by
  unfold execDisable seatExec
  repeat' (first
    | with_reducible apply Keeps.refl
    | with_reducible assumption
    | with_reducible exact OwnKeeps.fault
    | with_reducible exact OwnKeeps.refused
    | with_reducible apply OwnKeeps.okFin
    | with_reducible apply OwnKeeps.okCarry
    | with_reducible apply OwnKeeps.okCarryAll
    | with_reducible apply OwnKeeps.nextFin
    | with_reducible apply OwnKeeps.nextCarry
    | with_reducible apply OwnKeeps.nextCarryAll
    | with_reducible apply OwnKeeps.ite
    | with_reducible apply OwnKeeps.ok
    | with_reducible apply OwnKeeps.next
    | ((with_reducible apply OutKeeps.mono (seatExec_keeps ..)); focus exact rfl)
    | ((with_reducible apply mgrWrite_keeps); focus exact rfl)
    | ((with_reducible apply Keeps.step (seatCmd_keeps ..)); focus exact rfl)
    | with_reducible intro _
    | with_reducible apply Keeps.self
    | with_reducible apply Keeps.ite
    | with_reducible apply Keeps.ite_fst
    | with_reducible refine Keeps.foldl _ (fun _ _ => ?_) ?_
    | extract_lets
    | split
    | dsimp only)

theorem execFreeze_own (seat : Nat) (s : State) : OwnKeeps (allBut [.pending, .params, .journal, .window, .time, .cust]) s (execFreeze seat s) := by
  unfold execFreeze seatExec
  repeat' (first
    | with_reducible apply Keeps.refl
    | with_reducible assumption
    | with_reducible exact OwnKeeps.fault
    | with_reducible exact OwnKeeps.refused
    | with_reducible apply OwnKeeps.okFin
    | with_reducible apply OwnKeeps.okCarry
    | with_reducible apply OwnKeeps.okCarryAll
    | with_reducible apply OwnKeeps.nextFin
    | with_reducible apply OwnKeeps.nextCarry
    | with_reducible apply OwnKeeps.nextCarryAll
    | with_reducible apply OwnKeeps.ite
    | with_reducible apply OwnKeeps.ok
    | with_reducible apply OwnKeeps.next
    | ((with_reducible apply OutKeeps.mono (seatExec_keeps ..)); focus exact rfl)
    | ((with_reducible apply mgrWrite_keeps); focus exact rfl)
    | ((with_reducible apply Keeps.step (seatCmd_keeps ..)); focus exact rfl)
    | with_reducible intro _
    | with_reducible apply Keeps.self
    | with_reducible apply Keeps.ite
    | with_reducible apply Keeps.ite_fst
    | with_reducible refine Keeps.foldl _ (fun _ _ => ?_) ?_
    | extract_lets
    | split
    | dsimp only)

theorem execThaw_own (seat : Nat) (s : State) : OwnKeeps (allBut [.pending, .params, .journal, .window, .time, .cust]) s (execThaw seat s) := by
  unfold execThaw seatExec
  repeat' (first
    | with_reducible apply Keeps.refl
    | with_reducible assumption
    | with_reducible exact OwnKeeps.fault
    | with_reducible exact OwnKeeps.refused
    | with_reducible apply OwnKeeps.okFin
    | with_reducible apply OwnKeeps.okCarry
    | with_reducible apply OwnKeeps.okCarryAll
    | with_reducible apply OwnKeeps.nextFin
    | with_reducible apply OwnKeeps.nextCarry
    | with_reducible apply OwnKeeps.nextCarryAll
    | with_reducible apply OwnKeeps.ite
    | with_reducible apply OwnKeeps.ok
    | with_reducible apply OwnKeeps.next
    | ((with_reducible apply OutKeeps.mono (seatExec_keeps ..)); focus exact rfl)
    | ((with_reducible apply mgrWrite_keeps); focus exact rfl)
    | ((with_reducible apply Keeps.step (seatCmd_keeps ..)); focus exact rfl)
    | with_reducible intro _
    | with_reducible apply Keeps.self
    | with_reducible apply Keeps.ite
    | with_reducible apply Keeps.ite_fst
    | with_reducible refine Keeps.foldl _ (fun _ _ => ?_) ?_
    | extract_lets
    | split
    | dsimp only)

theorem execMigOffer_own (seat : Nat) (s : State) : OwnKeeps (allBut [.pending, .params, .journal, .window, .time, .cust]) s (execMigOffer seat s) :=
    by
  unfold execMigOffer seatExec
  repeat' (first
    | with_reducible apply Keeps.refl
    | with_reducible assumption
    | with_reducible exact OwnKeeps.fault
    | with_reducible exact OwnKeeps.refused
    | with_reducible apply OwnKeeps.okFin
    | with_reducible apply OwnKeeps.okCarry
    | with_reducible apply OwnKeeps.okCarryAll
    | with_reducible apply OwnKeeps.nextFin
    | with_reducible apply OwnKeeps.nextCarry
    | with_reducible apply OwnKeeps.nextCarryAll
    | with_reducible apply OwnKeeps.ite
    | with_reducible apply OwnKeeps.ok
    | with_reducible apply OwnKeeps.next
    | ((with_reducible apply OutKeeps.mono (seatExec_keeps ..)); focus exact rfl)
    | ((with_reducible apply mgrWrite_keeps); focus exact rfl)
    | ((with_reducible apply Keeps.step (seatCmd_keeps ..)); focus exact rfl)
    | with_reducible intro _
    | with_reducible apply Keeps.self
    | with_reducible apply Keeps.ite
    | with_reducible apply Keeps.ite_fst
    | with_reducible refine Keeps.foldl _ (fun _ _ => ?_) ?_
    | extract_lets
    | split
    | dsimp only)

theorem execSave_own (seat : Nat) (s : State) : OwnKeeps (allBut [.pending, .params, .journal, .window, .time, .cust]) s (execSave seat s) := by
  unfold execSave seatExec
  repeat' (first
    | with_reducible apply Keeps.refl
    | with_reducible assumption
    | with_reducible exact OwnKeeps.fault
    | with_reducible exact OwnKeeps.refused
    | with_reducible apply OwnKeeps.okFin
    | with_reducible apply OwnKeeps.okCarry
    | with_reducible apply OwnKeeps.okCarryAll
    | with_reducible apply OwnKeeps.nextFin
    | with_reducible apply OwnKeeps.nextCarry
    | with_reducible apply OwnKeeps.nextCarryAll
    | with_reducible apply OwnKeeps.ite
    | with_reducible apply OwnKeeps.ok
    | with_reducible apply OwnKeeps.next
    | ((with_reducible apply OutKeeps.mono (seatExec_keeps ..)); focus exact rfl)
    | ((with_reducible apply mgrWrite_keeps); focus exact rfl)
    | ((with_reducible apply Keeps.step (seatCmd_keeps ..)); focus exact rfl)
    | with_reducible intro _
    | with_reducible apply Keeps.self
    | with_reducible apply Keeps.ite
    | with_reducible apply Keeps.ite_fst
    | with_reducible refine Keeps.foldl _ (fun _ _ => ?_) ?_
    | extract_lets
    | split
    | dsimp only)

theorem execRestore_own (seat : Nat) (s : State) : OwnKeeps (allBut [.pending, .params, .journal, .window, .time, .cust]) s (execRestore seat s) := by
  unfold execRestore seatExec
  repeat' (first
    | with_reducible apply Keeps.refl
    | with_reducible assumption
    | with_reducible exact OwnKeeps.fault
    | with_reducible exact OwnKeeps.refused
    | with_reducible apply OwnKeeps.okFin
    | with_reducible apply OwnKeeps.okCarry
    | with_reducible apply OwnKeeps.okCarryAll
    | with_reducible apply OwnKeeps.nextFin
    | with_reducible apply OwnKeeps.nextCarry
    | with_reducible apply OwnKeeps.nextCarryAll
    | with_reducible apply OwnKeeps.ite
    | with_reducible apply OwnKeeps.ok
    | with_reducible apply OwnKeeps.next
    | ((with_reducible apply OutKeeps.mono (seatExec_keeps ..)); focus exact rfl)
    | ((with_reducible apply mgrWrite_keeps); focus exact rfl)
    | ((with_reducible apply Keeps.step (seatCmd_keeps ..)); focus exact rfl)
    | with_reducible intro _
    | with_reducible apply Keeps.self
    | with_reducible apply Keeps.ite
    | with_reducible apply Keeps.ite_fst
    | with_reducible refine Keeps.foldl _ (fun _ _ => ?_) ?_
    | extract_lets
    | split
    | dsimp only)

theorem execMigCancel_own (seat : Nat) (s : State) : OwnKeeps (allBut [.pending, .params, .journal, .window, .time, .cust]) s (execMigCancel seat s)
    := by
  unfold execMigCancel seatExec
  repeat' (first
    | with_reducible apply Keeps.refl
    | with_reducible assumption
    | with_reducible exact OwnKeeps.fault
    | with_reducible exact OwnKeeps.refused
    | with_reducible apply OwnKeeps.okFin
    | with_reducible apply OwnKeeps.okCarry
    | with_reducible apply OwnKeeps.okCarryAll
    | with_reducible apply OwnKeeps.nextFin
    | with_reducible apply OwnKeeps.nextCarry
    | with_reducible apply OwnKeeps.nextCarryAll
    | with_reducible apply OwnKeeps.ite
    | with_reducible apply OwnKeeps.ok
    | with_reducible apply OwnKeeps.next
    | ((with_reducible apply OutKeeps.mono (seatExec_keeps ..)); focus exact rfl)
    | ((with_reducible apply mgrWrite_keeps); focus exact rfl)
    | ((with_reducible apply Keeps.step (seatCmd_keeps ..)); focus exact rfl)
    | with_reducible intro _
    | with_reducible apply Keeps.self
    | with_reducible apply Keeps.ite
    | with_reducible apply Keeps.ite_fst
    | with_reducible refine Keeps.foldl _ (fun _ _ => ?_) ?_
    | extract_lets
    | split
    | dsimp only)

theorem execSeatTransitionEnd_own (seat : Nat) (s : State) : OwnKeeps (allBut [.pending, .params, .start, .journal, .engines, .window, .time, .relay,
    .cust, .freeCount]) s (execSeatTransitionEnd seat s) := by
  unfold execSeatTransitionEnd
  repeat' (first
    | with_reducible apply Keeps.refl
    | with_reducible assumption
    | with_reducible exact OwnKeeps.fault
    | with_reducible exact OwnKeeps.refused
    | with_reducible apply OwnKeeps.okFin
    | with_reducible apply OwnKeeps.okCarry
    | with_reducible apply OwnKeeps.okCarryAll
    | with_reducible apply OwnKeeps.nextFin
    | with_reducible apply OwnKeeps.nextCarry
    | with_reducible apply OwnKeeps.nextCarryAll
    | with_reducible apply OwnKeeps.ite
    | with_reducible apply OwnKeeps.ok
    | with_reducible apply OwnKeeps.next
    | ((with_reducible apply whenDo_keeps); focus exact rfl)
    | ((with_reducible apply Keeps.step (transitionEnd_keeps ..)); focus exact rfl)
    | with_reducible intro _
    | with_reducible apply Keeps.self
    | with_reducible apply Keeps.ite
    | with_reducible apply Keeps.ite_fst
    | with_reducible refine Keeps.foldl _ (fun _ _ => ?_) ?_
    | extract_lets
    | split
    | dsimp only)

theorem execShareWrite_own (seat : Nat) (which : Nat) (value : W32) (s : State) : OwnKeeps (only [.alarms, .seats, .place, .prompts]) s
    (execShareWrite seat which value s) := by
  unfold execShareWrite
  repeat' (first
    | with_reducible apply Keeps.refl
    | with_reducible assumption
    | with_reducible exact OwnKeeps.fault
    | with_reducible exact OwnKeeps.refused
    | with_reducible apply OwnKeeps.okFin
    | with_reducible apply OwnKeeps.okCarry
    | with_reducible apply OwnKeeps.okCarryAll
    | with_reducible apply OwnKeeps.nextFin
    | with_reducible apply OwnKeeps.nextCarry
    | with_reducible apply OwnKeeps.nextCarryAll
    | with_reducible apply OwnKeeps.ite
    | with_reducible apply OwnKeeps.ok
    | with_reducible apply OwnKeeps.next
    | ((with_reducible apply mgrWrite_keeps); focus exact rfl)
    | ((with_reducible apply Keeps.step (shareWrite_keeps ..)); focus exact rfl)
    | with_reducible intro _
    | with_reducible apply Keeps.self
    | with_reducible apply Keeps.ite
    | with_reducible apply Keeps.ite_fst
    | with_reducible refine Keeps.foldl _ (fun _ _ => ?_) ?_
    | extract_lets
    | split
    | dsimp only)

theorem execSeatXWrite_own (reg : Nat) (value : W32) (s : State) : OwnKeeps (only [.alarms, .seats, .mem, .prompts]) s (execSeatXWrite reg value s) :=
    by
  unfold execSeatXWrite
  repeat' (first
    | with_reducible apply Keeps.refl
    | with_reducible assumption
    | with_reducible exact OwnKeeps.fault
    | with_reducible exact OwnKeeps.refused
    | with_reducible apply OwnKeeps.okFin
    | with_reducible apply OwnKeeps.okCarry
    | with_reducible apply OwnKeeps.okCarryAll
    | with_reducible apply OwnKeeps.nextFin
    | with_reducible apply OwnKeeps.nextCarry
    | with_reducible apply OwnKeeps.nextCarryAll
    | with_reducible apply OwnKeeps.ite
    | with_reducible apply OwnKeeps.ok
    | with_reducible apply OwnKeeps.next
    | ((with_reducible apply mgrWrite_keeps); focus exact rfl)
    | ((with_reducible apply Keeps.step (seatXWrite_keeps ..)); focus exact rfl)
    | with_reducible intro _
    | with_reducible apply Keeps.self
    | with_reducible apply Keeps.ite
    | with_reducible apply Keeps.ite_fst
    | with_reducible refine Keeps.foldl _ (fun _ _ => ?_) ?_
    | extract_lets
    | split
    | dsimp only)

theorem execAtuInvalidate_own (value : W32) (s : State) : OwnKeeps (only [.alarms, .mem, .prompts]) s (execAtuInvalidate value s) := by
  unfold execAtuInvalidate
  repeat' (first
    | with_reducible apply Keeps.refl
    | with_reducible assumption
    | with_reducible exact OwnKeeps.fault
    | with_reducible exact OwnKeeps.refused
    | with_reducible apply OwnKeeps.okFin
    | with_reducible apply OwnKeeps.okCarry
    | with_reducible apply OwnKeeps.okCarryAll
    | with_reducible apply OwnKeeps.nextFin
    | with_reducible apply OwnKeeps.nextCarry
    | with_reducible apply OwnKeeps.nextCarryAll
    | with_reducible apply OwnKeeps.ite
    | with_reducible apply OwnKeeps.ok
    | with_reducible apply OwnKeeps.next
    | ((with_reducible apply mgrWrite_keeps); focus exact rfl)
    | ((with_reducible apply Keeps.step (atuInv_keeps ..)); focus exact rfl)
    | with_reducible intro _
    | with_reducible apply Keeps.self
    | with_reducible apply Keeps.ite
    | with_reducible apply Keeps.ite_fst
    | with_reducible refine Keeps.foldl _ (fun _ _ => ?_) ?_
    | extract_lets
    | split
    | dsimp only)

theorem execAtuInvalidateDone_own (s : State) : OwnKeeps (only [.mem]) s (execAtuInvalidateDone s) := by
  unfold execAtuInvalidateDone
  repeat' (first
    | with_reducible apply Keeps.refl
    | with_reducible assumption
    | with_reducible exact OwnKeeps.fault
    | with_reducible exact OwnKeeps.refused
    | with_reducible apply OwnKeeps.okFin
    | with_reducible apply OwnKeeps.okCarry
    | with_reducible apply OwnKeeps.okCarryAll
    | with_reducible apply OwnKeeps.nextFin
    | with_reducible apply OwnKeeps.nextCarry
    | with_reducible apply OwnKeeps.nextCarryAll
    | with_reducible apply OwnKeeps.ite
    | with_reducible apply OwnKeeps.ok
    | with_reducible apply OwnKeeps.next
    | ((with_reducible apply whenDo_keeps); focus exact rfl)
    | ((with_reducible apply Keeps.step (atuInvDone_keeps ..)); focus exact rfl)
    | with_reducible intro _
    | with_reducible apply Keeps.self
    | with_reducible apply Keeps.ite
    | with_reducible apply Keeps.ite_fst
    | with_reducible refine Keeps.foldl _ (fun _ _ => ?_) ?_
    | extract_lets
    | split
    | dsimp only)

theorem execAtuFaultRead_own (s : State) : OwnKeeps (only [.seatRegs]) s (execAtuFaultRead s) := by
  unfold execAtuFaultRead
  repeat' (first
    | with_reducible apply Keeps.refl
    | with_reducible assumption
    | with_reducible exact OwnKeeps.fault
    | with_reducible exact OwnKeeps.refused
    | with_reducible apply OwnKeeps.okFin
    | with_reducible apply OwnKeeps.okCarry
    | with_reducible apply OwnKeeps.okCarryAll
    | with_reducible apply OwnKeeps.nextFin
    | with_reducible apply OwnKeeps.nextCarry
    | with_reducible apply OwnKeeps.nextCarryAll
    | with_reducible apply OwnKeeps.ite
    | with_reducible apply OwnKeeps.ok
    | with_reducible apply OwnKeeps.next
    | ((with_reducible apply hregRead_keeps); focus exact rfl)
    | ((with_reducible apply Keeps.step (faultRead_keeps ..)); focus exact rfl)
    | with_reducible intro _
    | with_reducible apply Keeps.self
    | with_reducible apply Keeps.ite
    | with_reducible apply Keeps.ite_fst
    | with_reducible refine Keeps.foldl _ (fun _ _ => ?_) ?_
    | extract_lets
    | split
    | dsimp only)

theorem execDoorbell_own (src : Nat) (seat : Nat) (slot : Nat) (value : W32) (s : State) : OwnKeeps (only [.alarms, .rings, .prompts]) s (execDoorbell
    src seat slot value s) := by
  unfold execDoorbell
  repeat' (first
    | with_reducible apply Keeps.refl
    | with_reducible assumption
    | with_reducible exact OwnKeeps.fault
    | with_reducible exact OwnKeeps.refused
    | with_reducible apply OwnKeeps.okFin
    | with_reducible apply OwnKeeps.okCarry
    | with_reducible apply OwnKeeps.okCarryAll
    | with_reducible apply OwnKeeps.nextFin
    | with_reducible apply OwnKeeps.nextCarry
    | with_reducible apply OwnKeeps.nextCarryAll
    | with_reducible apply OwnKeeps.ite
    | with_reducible apply OwnKeeps.ok
    | with_reducible apply OwnKeeps.next
    | ((with_reducible apply ringAccess_keeps); focus exact rfl)
    | ((with_reducible apply Keeps.step (ringDoorbell_keeps ..)); focus exact rfl)
    | with_reducible intro _
    | with_reducible apply Keeps.self
    | with_reducible apply Keeps.ite
    | with_reducible apply Keeps.ite_fst
    | with_reducible refine Keeps.foldl _ (fun _ _ => ?_) ?_
    | extract_lets
    | split
    | dsimp only)

theorem execCqHeadWrite_own (src : Nat) (seat : Nat) (slot : Nat) (value : W32) (s : State) : OwnKeeps (only [.alarms, .rings, .prompts]) s
    (execCqHeadWrite src seat slot value s) := by
  unfold execCqHeadWrite
  repeat' (first
    | with_reducible apply Keeps.refl
    | with_reducible assumption
    | with_reducible exact OwnKeeps.fault
    | with_reducible exact OwnKeeps.refused
    | with_reducible apply OwnKeeps.okFin
    | with_reducible apply OwnKeeps.okCarry
    | with_reducible apply OwnKeeps.okCarryAll
    | with_reducible apply OwnKeeps.nextFin
    | with_reducible apply OwnKeeps.nextCarry
    | with_reducible apply OwnKeeps.nextCarryAll
    | with_reducible apply OwnKeeps.ite
    | with_reducible apply OwnKeeps.ok
    | with_reducible apply OwnKeeps.next
    | ((with_reducible apply ringAccess_keeps); focus exact rfl)
    | ((with_reducible apply Keeps.step (ringHead_keeps ..)); focus exact rfl)
    | with_reducible intro _
    | with_reducible apply Keeps.self
    | with_reducible apply Keeps.ite
    | with_reducible apply Keeps.ite_fst
    | with_reducible refine Keeps.foldl _ (fun _ _ => ?_) ?_
    | extract_lets
    | split
    | dsimp only)

theorem execRingEnable_own (src : Nat) (seat : Nat) (slot : Nat) (resume : Bool) (s : State) : OwnKeeps (only [.alarms, .seats, .rings, .mem,
    .prompts]) s (execRingEnable src seat slot resume s) := by
  unfold execRingEnable
  repeat' (first
    | with_reducible apply Keeps.refl
    | with_reducible assumption
    | with_reducible exact OwnKeeps.fault
    | with_reducible exact OwnKeeps.refused
    | with_reducible apply OwnKeeps.okFin
    | with_reducible apply OwnKeeps.okCarry
    | with_reducible apply OwnKeeps.okCarryAll
    | with_reducible apply OwnKeeps.nextFin
    | with_reducible apply OwnKeeps.nextCarry
    | with_reducible apply OwnKeeps.nextCarryAll
    | with_reducible apply OwnKeeps.ite
    | with_reducible apply OwnKeeps.ok
    | with_reducible apply OwnKeeps.next
    | ((with_reducible apply ringAccess_keeps); focus exact rfl)
    | ((with_reducible apply Keeps.step (ringCtrl_keeps ..)); focus exact rfl)
    | with_reducible intro _
    | with_reducible apply Keeps.self
    | with_reducible apply Keeps.ite
    | with_reducible apply Keeps.ite_fst
    | with_reducible refine Keeps.foldl _ (fun _ _ => ?_) ?_
    | extract_lets
    | split
    | dsimp only)

theorem execRingDisable_own (src : Nat) (seat : Nat) (slot : Nat) (resume : Bool) (s : State) : OwnKeeps (only [.alarms, .seats, .rings, .mem,
    .prompts]) s (execRingDisable src seat slot resume s) := by
  unfold execRingDisable
  repeat' (first
    | with_reducible apply Keeps.refl
    | with_reducible assumption
    | with_reducible exact OwnKeeps.fault
    | with_reducible exact OwnKeeps.refused
    | with_reducible apply OwnKeeps.okFin
    | with_reducible apply OwnKeeps.okCarry
    | with_reducible apply OwnKeeps.okCarryAll
    | with_reducible apply OwnKeeps.nextFin
    | with_reducible apply OwnKeeps.nextCarry
    | with_reducible apply OwnKeeps.nextCarryAll
    | with_reducible apply OwnKeeps.ite
    | with_reducible apply OwnKeeps.ok
    | with_reducible apply OwnKeeps.next
    | ((with_reducible apply ringAccess_keeps); focus exact rfl)
    | ((with_reducible apply Keeps.step (ringCtrl_keeps ..)); focus exact rfl)
    | with_reducible intro _
    | with_reducible apply Keeps.self
    | with_reducible apply Keeps.ite
    | with_reducible apply Keeps.ite_fst
    | with_reducible refine Keeps.foldl _ (fun _ _ => ?_) ?_
    | extract_lets
    | split
    | dsimp only)

theorem execResume_own (src : Nat) (seat : Nat) (slot : Nat) (s : State) : OwnKeeps (only [.alarms, .rings, .prompts]) s (execResume src seat slot s)
    := by
  unfold execResume
  repeat' (first
    | with_reducible apply Keeps.refl
    | with_reducible assumption
    | with_reducible exact OwnKeeps.fault
    | with_reducible exact OwnKeeps.refused
    | with_reducible apply OwnKeeps.okFin
    | with_reducible apply OwnKeeps.okCarry
    | with_reducible apply OwnKeeps.okCarryAll
    | with_reducible apply OwnKeeps.nextFin
    | with_reducible apply OwnKeeps.nextCarry
    | with_reducible apply OwnKeeps.nextCarryAll
    | with_reducible apply OwnKeeps.ite
    | with_reducible apply OwnKeeps.ok
    | with_reducible apply OwnKeeps.next
    | ((with_reducible apply ringAccess_keeps); focus exact rfl)
    | ((with_reducible apply Keeps.step (ringResume_keeps ..)); focus exact rfl)
    | with_reducible intro _
    | with_reducible apply Keeps.self
    | with_reducible apply Keeps.ite
    | with_reducible apply Keeps.ite_fst
    | with_reducible refine Keeps.foldl _ (fun _ _ => ?_) ?_
    | extract_lets
    | split
    | dsimp only)

theorem execRingSettingWrite_own (src : Nat) (seat : Nat) (slot : Nat) (reg : Nat) (value : W32) (s : State) : OwnKeeps (only [.alarms, .seats,
    .rings, .prompts]) s (execRingSettingWrite src seat slot reg value s) := by
  unfold execRingSettingWrite
  repeat' (first
    | with_reducible apply Keeps.refl
    | with_reducible assumption
    | with_reducible exact OwnKeeps.fault
    | with_reducible exact OwnKeeps.refused
    | with_reducible apply OwnKeeps.okFin
    | with_reducible apply OwnKeeps.okCarry
    | with_reducible apply OwnKeeps.okCarryAll
    | with_reducible apply OwnKeeps.nextFin
    | with_reducible apply OwnKeeps.nextCarry
    | with_reducible apply OwnKeeps.nextCarryAll
    | with_reducible apply OwnKeeps.ite
    | with_reducible apply OwnKeeps.ok
    | with_reducible apply OwnKeeps.next
    | ((with_reducible apply ringAccess_keeps); focus exact rfl)
    | ((with_reducible apply Keeps.step (ringSetting_keeps ..)); focus exact rfl)
    | with_reducible intro _
    | with_reducible apply Keeps.self
    | with_reducible apply Keeps.ite
    | with_reducible apply Keeps.ite_fst
    | with_reducible refine Keeps.foldl _ (fun _ _ => ?_) ?_
    | extract_lets
    | split
    | dsimp only)

theorem execJobFetch_own (seat : Nat) (s : State) : OwnKeeps (only [.rings, .mem]) s (execJobFetch seat s) := by
  unfold execJobFetch
  repeat' (first
    | with_reducible apply Keeps.refl
    | with_reducible assumption
    | with_reducible exact OwnKeeps.fault
    | with_reducible exact OwnKeeps.refused
    | with_reducible apply OwnKeeps.okFin
    | with_reducible apply OwnKeeps.okCarry
    | with_reducible apply OwnKeeps.okCarryAll
    | with_reducible apply OwnKeeps.nextFin
    | with_reducible apply OwnKeeps.nextCarry
    | with_reducible apply OwnKeeps.nextCarryAll
    | with_reducible apply OwnKeeps.ite
    | with_reducible apply OwnKeeps.ok
    | with_reducible apply OwnKeeps.next
    | ((with_reducible apply Keeps.step (startFetch_keeps ..)); focus exact rfl)
    | with_reducible apply Keeps.ite
    | with_reducible apply Keeps.ite_fst
    | with_reducible refine Keeps.foldl _ (fun _ _ => ?_) ?_
    | extract_lets
    | split
    | dsimp only)

theorem execPromptEvaluation_own (s : State) : OwnKeeps (only [.rings, .time, .prompts]) s (execPromptEvaluation s) := by
  unfold execPromptEvaluation
  repeat' (first
    | with_reducible apply Keeps.refl
    | with_reducible assumption
    | with_reducible exact OwnKeeps.fault
    | with_reducible exact OwnKeeps.refused
    | with_reducible apply OwnKeeps.okFin
    | with_reducible apply OwnKeeps.okCarry
    | with_reducible apply OwnKeeps.okCarryAll
    | with_reducible apply OwnKeeps.nextFin
    | with_reducible apply OwnKeeps.nextCarry
    | with_reducible apply OwnKeeps.nextCarryAll
    | with_reducible apply OwnKeeps.ite
    | with_reducible apply OwnKeeps.ok
    | with_reducible apply OwnKeeps.next
    | ((with_reducible apply whenDo_keeps); focus exact rfl)
    | ((with_reducible apply Keeps.step (evalAll_keeps ..)); focus exact rfl)
    | with_reducible intro _
    | with_reducible apply Keeps.self
    | with_reducible apply Keeps.ite
    | with_reducible apply Keeps.ite_fst
    | with_reducible refine Keeps.foldl _ (fun _ _ => ?_) ?_
    | extract_lets
    | split
    | dsimp only)

theorem execJobDeadline_own (job : Nat) (s : State) : OwnKeeps (only [.jobs, .mem, .buffers, .engines, .keys, .relay]) s (execJobDeadline job s) := by
  unfold execJobDeadline
  repeat' (first
    | with_reducible apply Keeps.refl
    | with_reducible assumption
    | with_reducible exact OwnKeeps.fault
    | with_reducible exact OwnKeeps.refused
    | with_reducible apply OwnKeeps.okFin
    | with_reducible apply OwnKeeps.okCarry
    | with_reducible apply OwnKeeps.okCarryAll
    | with_reducible apply OwnKeeps.nextFin
    | with_reducible apply OwnKeeps.nextCarry
    | with_reducible apply OwnKeeps.nextCarryAll
    | with_reducible apply OwnKeeps.ite
    | with_reducible apply OwnKeeps.ok
    | with_reducible apply OwnKeeps.next
    | ((with_reducible apply whenDo_keeps); focus exact rfl)
    | ((with_reducible apply Keeps.step (deadlinePass_keeps ..)); focus exact rfl)
    | with_reducible intro _
    | with_reducible apply Keeps.self
    | with_reducible apply Keeps.ite
    | with_reducible apply Keeps.ite_fst
    | with_reducible refine Keeps.foldl _ (fun _ _ => ?_) ?_
    | extract_lets
    | split
    | dsimp only)

theorem execNop_own (job : Nat) (s : State) : OwnKeeps (only [.jobs, .mem, .buffers, .engines, .keys]) s (execNop job s) := by
  unfold execNop
  repeat' (first
    | with_reducible apply Keeps.refl
    | with_reducible assumption
    | with_reducible exact OwnKeeps.fault
    | with_reducible exact OwnKeeps.refused
    | with_reducible apply OwnKeeps.okFin
    | with_reducible apply OwnKeeps.okCarry
    | with_reducible apply OwnKeeps.okCarryAll
    | with_reducible apply OwnKeeps.nextFin
    | with_reducible apply OwnKeeps.nextCarry
    | with_reducible apply OwnKeeps.nextCarryAll
    | with_reducible apply OwnKeeps.ite
    | with_reducible apply OwnKeeps.ok
    | with_reducible apply OwnKeeps.next
    | ((with_reducible apply control_keeps); focus exact rfl)
    | ((with_reducible apply Keeps.step (okJob_keeps ..)); focus exact rfl)
    | with_reducible intro _
    | with_reducible apply Keeps.self
    | with_reducible apply Keeps.ite
    | with_reducible apply Keeps.ite_fst
    | with_reducible refine Keeps.foldl _ (fun _ _ => ?_) ?_
    | extract_lets
    | split
    | dsimp only)

theorem execFence_own (job : Nat) (s : State) : OwnKeeps (only [.jobs, .mem, .buffers, .engines, .keys]) s (execFence job s) := by
  unfold execFence
  repeat' (first
    | with_reducible apply Keeps.refl
    | with_reducible assumption
    | with_reducible exact OwnKeeps.fault
    | with_reducible exact OwnKeeps.refused
    | with_reducible apply OwnKeeps.okFin
    | with_reducible apply OwnKeeps.okCarry
    | with_reducible apply OwnKeeps.okCarryAll
    | with_reducible apply OwnKeeps.nextFin
    | with_reducible apply OwnKeeps.nextCarry
    | with_reducible apply OwnKeeps.nextCarryAll
    | with_reducible apply OwnKeeps.ite
    | with_reducible apply OwnKeeps.ok
    | with_reducible apply OwnKeeps.next
    | ((with_reducible apply Keeps.step (fenceGo_keeps ..)); focus exact rfl)
    | with_reducible apply Keeps.ite
    | with_reducible apply Keeps.ite_fst
    | with_reducible refine Keeps.foldl _ (fun _ _ => ?_) ?_
    | extract_lets
    | split
    | dsimp only)

theorem execStamp_own (job : Nat) (s : State) : OwnKeeps (only [.jobs, .mem, .buffers, .engines, .keys]) s (execStamp job s) := by
  unfold execStamp
  repeat' (first
    | with_reducible apply Keeps.refl
    | with_reducible assumption
    | with_reducible exact OwnKeeps.fault
    | with_reducible exact OwnKeeps.refused
    | with_reducible apply OwnKeeps.okFin
    | with_reducible apply OwnKeeps.okCarry
    | with_reducible apply OwnKeeps.okCarryAll
    | with_reducible apply OwnKeeps.nextFin
    | with_reducible apply OwnKeeps.nextCarry
    | with_reducible apply OwnKeeps.nextCarryAll
    | with_reducible apply OwnKeeps.ite
    | with_reducible apply OwnKeeps.ok
    | with_reducible apply OwnKeeps.next
    | ((with_reducible apply control_keeps); focus exact rfl)
    | ((with_reducible apply Keeps.step (State.modJob_keeps ..)); focus exact rfl)
    | ((with_reducible apply Keeps.step (okJob_keeps ..)); focus exact rfl)
    | with_reducible intro _
    | with_reducible apply Keeps.self
    | with_reducible apply Keeps.ite
    | with_reducible apply Keeps.ite_fst
    | with_reducible refine Keeps.foldl _ (fun _ _ => ?_) ?_
    | extract_lets
    | split
    | dsimp only)

theorem execUnassignedOpcode_own (job : Nat) (s : State) : OwnKeeps (only [.jobs, .mem, .buffers, .engines, .keys]) s (execUnassignedOpcode job s) :=
    by
  unfold execUnassignedOpcode
  repeat' (first
    | with_reducible apply Keeps.refl
    | with_reducible assumption
    | with_reducible exact OwnKeeps.fault
    | with_reducible exact OwnKeeps.refused
    | with_reducible apply OwnKeeps.okFin
    | with_reducible apply OwnKeeps.okCarry
    | with_reducible apply OwnKeeps.okCarryAll
    | with_reducible apply OwnKeeps.nextFin
    | with_reducible apply OwnKeeps.nextCarry
    | with_reducible apply OwnKeeps.nextCarryAll
    | with_reducible apply OwnKeeps.ite
    | with_reducible apply OwnKeeps.ok
    | with_reducible apply OwnKeeps.next
    | ((with_reducible apply inTime_keeps); focus exact rfl)
    | ((with_reducible apply Keeps.step (failJob_keeps ..)); focus exact rfl)
    | with_reducible intro _
    | with_reducible apply Keeps.self
    | with_reducible apply Keeps.ite
    | with_reducible apply Keeps.ite_fst
    | with_reducible refine Keeps.foldl _ (fun _ _ => ?_) ?_
    | extract_lets
    | split
    | dsimp only)

theorem execJobPlacement_own (job : Nat) (s : State) : OwnKeeps (only [.seats, .jobs, .mem, .place, .buffers, .engines, .keys, .front, .relay]) s
    (execJobPlacement job s) := by
  unfold execJobPlacement
  repeat' (first
    | with_reducible apply Keeps.refl
    | with_reducible assumption
    | with_reducible exact OwnKeeps.fault
    | with_reducible exact OwnKeeps.refused
    | with_reducible apply OwnKeeps.okFin
    | with_reducible apply OwnKeeps.okCarry
    | with_reducible apply OwnKeeps.okCarryAll
    | with_reducible apply OwnKeeps.nextFin
    | with_reducible apply OwnKeeps.nextCarry
    | with_reducible apply OwnKeeps.nextCarryAll
    | with_reducible apply OwnKeeps.ite
    | with_reducible apply OwnKeeps.ok
    | with_reducible apply OwnKeeps.next
    | ((with_reducible apply Keeps.step (placeJob_keeps ..)); focus exact rfl)
    | with_reducible apply Keeps.ite
    | with_reducible apply Keeps.ite_fst
    | with_reducible refine Keeps.foldl _ (fun _ _ => ?_) ?_
    | extract_lets
    | split
    | dsimp only)

theorem execBayIssue_own (bay : Nat) (s : State) : OwnKeeps (only [.alarms, .seats, .jobs, .mem, .place, .buffers, .engines, .keys, .entropy, .front,
    .prompts]) s (execBayIssue bay s) := by
  unfold execBayIssue
  repeat' (first
    | with_reducible apply Keeps.refl
    | with_reducible assumption
    | with_reducible exact OwnKeeps.fault
    | with_reducible exact OwnKeeps.refused
    | with_reducible apply OwnKeeps.okFin
    | with_reducible apply OwnKeeps.okCarry
    | with_reducible apply OwnKeeps.okCarryAll
    | with_reducible apply OwnKeeps.nextFin
    | with_reducible apply OwnKeeps.nextCarry
    | with_reducible apply OwnKeeps.nextCarryAll
    | with_reducible apply OwnKeeps.ite
    | with_reducible apply OwnKeeps.ok
    | with_reducible apply OwnKeeps.next
    | ((with_reducible apply Keeps.step (issueBay_keeps ..)); focus exact rfl)
    | with_reducible apply Keeps.ite
    | with_reducible apply Keeps.ite_fst
    | with_reducible refine Keeps.foldl _ (fun _ _ => ?_) ?_
    | extract_lets
    | split
    | dsimp only)

theorem execSegmentBoundary_own (job : Nat) (s : State) : OwnKeeps (only [.alarms, .seats, .jobs, .mem, .place, .buffers, .engines, .keys, .entropy,
    .front, .prompts]) s (execSegmentBoundary job s) := by
  unfold execSegmentBoundary
  repeat' (first
    | with_reducible apply Keeps.refl
    | with_reducible assumption
    | with_reducible exact OwnKeeps.fault
    | with_reducible exact OwnKeeps.refused
    | with_reducible apply OwnKeeps.okFin
    | with_reducible apply OwnKeeps.okCarry
    | with_reducible apply OwnKeeps.okCarryAll
    | with_reducible apply OwnKeeps.nextFin
    | with_reducible apply OwnKeeps.nextCarry
    | with_reducible apply OwnKeeps.nextCarryAll
    | with_reducible apply OwnKeeps.ite
    | with_reducible apply OwnKeeps.ok
    | with_reducible apply OwnKeeps.next
    | ((with_reducible apply Keeps.step (segBoundary_keeps ..)); focus exact rfl)
    | with_reducible apply Keeps.ite
    | with_reducible apply Keeps.ite_fst
    | with_reducible refine Keeps.foldl _ (fun _ _ => ?_) ?_
    | extract_lets
    | split
    | dsimp only)

theorem execHeldRecordMark_own (job : Nat) (s : State) : OwnKeeps (only [.alarms, .jobs, .mem, .place, .buffers, .keys, .prompts]) s
    (execHeldRecordMark job s) := by
  unfold execHeldRecordMark
  repeat' (first
    | with_reducible apply Keeps.refl
    | with_reducible assumption
    | with_reducible exact OwnKeeps.fault
    | with_reducible exact OwnKeeps.refused
    | with_reducible apply OwnKeeps.okFin
    | with_reducible apply OwnKeeps.okCarry
    | with_reducible apply OwnKeeps.okCarryAll
    | with_reducible apply OwnKeeps.nextFin
    | with_reducible apply OwnKeeps.nextCarry
    | with_reducible apply OwnKeeps.nextCarryAll
    | with_reducible apply OwnKeeps.ite
    | with_reducible apply OwnKeeps.ok
    | with_reducible apply OwnKeeps.next
    | ((with_reducible apply Keeps.step (heldMark_keeps ..)); focus exact rfl)
    | with_reducible apply Keeps.ite
    | with_reducible apply Keeps.ite_fst
    | with_reducible refine Keeps.foldl _ (fun _ _ => ?_) ?_
    | extract_lets
    | split
    | dsimp only)

theorem execEpochBoundary_own (slots : List (Nat × Nat)) (s : State) : OwnKeeps (only [.seats, .jobs, .mem, .place, .buffers, .engines, .keys, .time,
    .relay]) s (execEpochBoundary slots s) := by
  unfold execEpochBoundary
  repeat' (first
    | with_reducible apply Keeps.refl
    | with_reducible assumption
    | with_reducible exact OwnKeeps.fault
    | with_reducible exact OwnKeeps.refused
    | with_reducible apply OwnKeeps.okFin
    | with_reducible apply OwnKeeps.okCarry
    | with_reducible apply OwnKeeps.okCarryAll
    | with_reducible apply OwnKeeps.nextFin
    | with_reducible apply OwnKeeps.nextCarry
    | with_reducible apply OwnKeeps.nextCarryAll
    | with_reducible apply OwnKeeps.ite
    | with_reducible apply OwnKeeps.ok
    | with_reducible apply OwnKeeps.next
    | ((with_reducible apply Keeps.step (epochBoundary_keeps ..)); focus exact rfl)
    | with_reducible apply Keeps.ite
    | with_reducible apply Keeps.ite_fst
    | with_reducible refine Keeps.foldl _ (fun _ _ => ?_) ?_
    | extract_lets
    | split
    | dsimp only)

theorem execWingIdle_own (wing : Nat) (s : State) : OwnKeeps (only [.place]) s (execWingIdle wing s) := by
  unfold execWingIdle
  repeat' (first
    | with_reducible apply Keeps.refl
    | with_reducible assumption
    | with_reducible exact OwnKeeps.fault
    | with_reducible exact OwnKeeps.refused
    | with_reducible apply OwnKeeps.okFin
    | with_reducible apply OwnKeeps.okCarry
    | with_reducible apply OwnKeeps.okCarryAll
    | with_reducible apply OwnKeeps.nextFin
    | with_reducible apply OwnKeeps.nextCarry
    | with_reducible apply OwnKeeps.nextCarryAll
    | with_reducible apply OwnKeeps.ite
    | with_reducible apply OwnKeeps.ok
    | with_reducible apply OwnKeeps.next
    | ((with_reducible apply Keeps.step (wingIdle_keeps ..)); focus exact rfl)
    | with_reducible apply Keeps.ite
    | with_reducible apply Keeps.ite_fst
    | with_reducible refine Keeps.foldl _ (fun _ _ => ?_) ?_
    | extract_lets
    | split
    | dsimp only)

theorem execWingGated_own (wing : Nat) (s : State) : OwnKeeps (only [.place, .buffers, .keys]) s (execWingGated wing s) := by
  unfold execWingGated
  repeat' (first
    | with_reducible apply Keeps.refl
    | with_reducible assumption
    | with_reducible exact OwnKeeps.fault
    | with_reducible exact OwnKeeps.refused
    | with_reducible apply OwnKeeps.okFin
    | with_reducible apply OwnKeeps.okCarry
    | with_reducible apply OwnKeeps.okCarryAll
    | with_reducible apply OwnKeeps.nextFin
    | with_reducible apply OwnKeeps.nextCarry
    | with_reducible apply OwnKeeps.nextCarryAll
    | with_reducible apply OwnKeeps.ite
    | with_reducible apply OwnKeeps.ok
    | with_reducible apply OwnKeeps.next
    | ((with_reducible apply Keeps.step (wingGated_keeps ..)); focus exact rfl)
    | with_reducible apply Keeps.ite
    | with_reducible apply Keeps.ite_fst
    | with_reducible refine Keeps.foldl _ (fun _ _ => ?_) ?_
    | extract_lets
    | split
    | dsimp only)

theorem execWingWake_own (wing : Nat) (s : State) : OwnKeeps (only [.place, .entropy]) s (execWingWake wing s) := by
  unfold execWingWake
  repeat' (first
    | with_reducible apply Keeps.refl
    | with_reducible assumption
    | with_reducible exact OwnKeeps.fault
    | with_reducible exact OwnKeeps.refused
    | with_reducible apply OwnKeeps.okFin
    | with_reducible apply OwnKeeps.okCarry
    | with_reducible apply OwnKeeps.okCarryAll
    | with_reducible apply OwnKeeps.nextFin
    | with_reducible apply OwnKeeps.nextCarry
    | with_reducible apply OwnKeeps.nextCarryAll
    | with_reducible apply OwnKeeps.ite
    | with_reducible apply OwnKeeps.ok
    | with_reducible apply OwnKeeps.next
    | ((with_reducible apply Keeps.step (wingWake_keeps ..)); focus exact rfl)
    | with_reducible apply Keeps.ite
    | with_reducible apply Keeps.ite_fst
    | with_reducible refine Keeps.foldl _ (fun _ _ => ?_) ?_
    | extract_lets
    | split
    | dsimp only)

theorem execWingWakeDone_own (wing : Nat) (s : State) : OwnKeeps (only [.place]) s (execWingWakeDone wing s) := by
  unfold execWingWakeDone
  repeat' (first
    | with_reducible apply Keeps.refl
    | with_reducible assumption
    | with_reducible exact OwnKeeps.fault
    | with_reducible exact OwnKeeps.refused
    | with_reducible apply OwnKeeps.okFin
    | with_reducible apply OwnKeeps.okCarry
    | with_reducible apply OwnKeeps.okCarryAll
    | with_reducible apply OwnKeeps.nextFin
    | with_reducible apply OwnKeeps.nextCarry
    | with_reducible apply OwnKeeps.nextCarryAll
    | with_reducible apply OwnKeeps.ite
    | with_reducible apply OwnKeeps.ok
    | with_reducible apply OwnKeeps.next
    | ((with_reducible apply Keeps.step (wingWakeDone_keeps ..)); focus exact rfl)
    | with_reducible apply Keeps.ite
    | with_reducible apply Keeps.ite_fst
    | with_reducible refine Keeps.foldl _ (fun _ _ => ?_) ?_
    | extract_lets
    | split
    | dsimp only)

theorem execAdvertisement_own (s : State) : OwnKeeps (only [.time, .relay]) s (execAdvertisement s) := by
  unfold execAdvertisement
  repeat' (first
    | with_reducible apply Keeps.refl
    | with_reducible assumption
    | with_reducible exact OwnKeeps.fault
    | with_reducible exact OwnKeeps.refused
    | with_reducible apply OwnKeeps.okFin
    | with_reducible apply OwnKeeps.okCarry
    | with_reducible apply OwnKeeps.okCarryAll
    | with_reducible apply OwnKeeps.nextFin
    | with_reducible apply OwnKeeps.nextCarry
    | with_reducible apply OwnKeeps.nextCarryAll
    | with_reducible apply OwnKeeps.ite
    | with_reducible apply OwnKeeps.ok
    | with_reducible apply OwnKeeps.next
    | ((with_reducible apply Keeps.step (advertise_keeps ..)); focus exact rfl)
    | with_reducible apply Keeps.ite
    | with_reducible apply Keeps.ite_fst
    | with_reducible refine Keeps.foldl _ (fun _ _ => ?_) ?_
    | extract_lets
    | split
    | dsimp only)

theorem execCountermeasureReseed_own (s : State) : OwnKeeps (only [.place, .keys, .entropy, .time]) s (execCountermeasureReseed s) := by
  unfold execCountermeasureReseed
  repeat' (first
    | with_reducible apply Keeps.refl
    | with_reducible assumption
    | with_reducible exact OwnKeeps.fault
    | with_reducible exact OwnKeeps.refused
    | with_reducible apply OwnKeeps.okFin
    | with_reducible apply OwnKeeps.okCarry
    | with_reducible apply OwnKeeps.okCarryAll
    | with_reducible apply OwnKeeps.nextFin
    | with_reducible apply OwnKeeps.nextCarry
    | with_reducible apply OwnKeeps.nextCarryAll
    | with_reducible apply OwnKeeps.ite
    | with_reducible apply OwnKeeps.ok
    | with_reducible apply OwnKeeps.next
    | ((with_reducible apply Keeps.step (countermeasures_keeps ..)); focus exact rfl)
    | with_reducible apply Keeps.ite
    | with_reducible apply Keeps.ite_fst
    | with_reducible refine Keeps.foldl _ (fun _ _ => ?_) ?_
    | extract_lets
    | split
    | dsimp only)

theorem execSealJob_own (job : Nat) (s : State) : OwnKeeps (only [.jobs, .mem, .place, .buffers, .engines, .keys, .entropy, .front, .prompts,
    .freeCount]) s (execSealJob job s) := by
  unfold execSealJob
  repeat' (first
    | with_reducible apply Keeps.refl
    | with_reducible assumption
    | with_reducible exact OwnKeeps.fault
    | with_reducible exact OwnKeeps.refused
    | with_reducible apply OwnKeeps.okFin
    | with_reducible apply OwnKeeps.okCarry
    | with_reducible apply OwnKeeps.okCarryAll
    | with_reducible apply OwnKeeps.nextFin
    | with_reducible apply OwnKeeps.nextCarry
    | with_reducible apply OwnKeeps.nextCarryAll
    | with_reducible apply OwnKeeps.ite
    | with_reducible apply OwnKeeps.ok
    | with_reducible apply OwnKeeps.next
    | ((with_reducible apply Keeps.step (pktOp_keeps ..)); focus exact rfl)
    | ((with_reducible apply Keeps.step (symOp_keeps ..)); focus exact rfl)
    | with_reducible apply Keeps.ite
    | with_reducible apply Keeps.ite_fst
    | with_reducible refine Keeps.foldl _ (fun _ _ => ?_) ?_
    | extract_lets
    | split
    | dsimp only)

theorem execOpenJob_own (job : Nat) (s : State) : OwnKeeps (only [.jobs, .mem, .place, .buffers, .engines, .keys, .entropy, .front, .prompts,
    .freeCount]) s (execOpenJob job s) := by
  unfold execOpenJob
  repeat' (first
    | with_reducible apply Keeps.refl
    | with_reducible assumption
    | with_reducible exact OwnKeeps.fault
    | with_reducible exact OwnKeeps.refused
    | with_reducible apply OwnKeeps.okFin
    | with_reducible apply OwnKeeps.okCarry
    | with_reducible apply OwnKeeps.okCarryAll
    | with_reducible apply OwnKeeps.nextFin
    | with_reducible apply OwnKeeps.nextCarry
    | with_reducible apply OwnKeeps.nextCarryAll
    | with_reducible apply OwnKeeps.ite
    | with_reducible apply OwnKeeps.ok
    | with_reducible apply OwnKeeps.next
    | ((with_reducible apply Keeps.step (pktOp_keeps ..)); focus exact rfl)
    | ((with_reducible apply Keeps.step (symOp_keeps ..)); focus exact rfl)
    | with_reducible apply Keeps.ite
    | with_reducible apply Keeps.ite_fst
    | with_reducible refine Keeps.foldl _ (fun _ _ => ?_) ?_
    | extract_lets
    | split
    | dsimp only)

theorem execMacGen_own (job : Nat) (s : State) : OwnKeeps (only [.jobs, .mem, .place, .buffers, .engines, .keys, .entropy, .front]) s (execMacGen job
    s) := by
  unfold execMacGen
  repeat' (first
    | with_reducible apply Keeps.refl
    | with_reducible assumption
    | with_reducible exact OwnKeeps.fault
    | with_reducible exact OwnKeeps.refused
    | with_reducible apply OwnKeeps.okFin
    | with_reducible apply OwnKeeps.okCarry
    | with_reducible apply OwnKeeps.okCarryAll
    | with_reducible apply OwnKeeps.nextFin
    | with_reducible apply OwnKeeps.nextCarry
    | with_reducible apply OwnKeeps.nextCarryAll
    | with_reducible apply OwnKeeps.ite
    | with_reducible apply OwnKeeps.ok
    | with_reducible apply OwnKeeps.next
    | ((with_reducible apply Keeps.step (symOp_keeps ..)); focus exact rfl)
    | with_reducible apply Keeps.ite
    | with_reducible apply Keeps.ite_fst
    | with_reducible refine Keeps.foldl _ (fun _ _ => ?_) ?_
    | extract_lets
    | split
    | dsimp only)

theorem execMacVerify_own (job : Nat) (s : State) : OwnKeeps (only [.jobs, .mem, .place, .buffers, .engines, .keys, .entropy, .front]) s
    (execMacVerify job s) := by
  unfold execMacVerify
  repeat' (first
    | with_reducible apply Keeps.refl
    | with_reducible assumption
    | with_reducible exact OwnKeeps.fault
    | with_reducible exact OwnKeeps.refused
    | with_reducible apply OwnKeeps.okFin
    | with_reducible apply OwnKeeps.okCarry
    | with_reducible apply OwnKeeps.okCarryAll
    | with_reducible apply OwnKeeps.nextFin
    | with_reducible apply OwnKeeps.nextCarry
    | with_reducible apply OwnKeeps.nextCarryAll
    | with_reducible apply OwnKeeps.ite
    | with_reducible apply OwnKeeps.ok
    | with_reducible apply OwnKeeps.next
    | ((with_reducible apply Keeps.step (symOp_keeps ..)); focus exact rfl)
    | with_reducible apply Keeps.ite
    | with_reducible apply Keeps.ite_fst
    | with_reducible refine Keeps.foldl _ (fun _ _ => ?_) ?_
    | extract_lets
    | split
    | dsimp only)

theorem execEncrypt_own (job : Nat) (s : State) : OwnKeeps (only [.jobs, .mem, .place, .buffers, .engines, .keys, .entropy, .front]) s (execEncrypt
    job s) := by
  unfold execEncrypt
  repeat' (first
    | with_reducible apply Keeps.refl
    | with_reducible assumption
    | with_reducible exact OwnKeeps.fault
    | with_reducible exact OwnKeeps.refused
    | with_reducible apply OwnKeeps.okFin
    | with_reducible apply OwnKeeps.okCarry
    | with_reducible apply OwnKeeps.okCarryAll
    | with_reducible apply OwnKeeps.nextFin
    | with_reducible apply OwnKeeps.nextCarry
    | with_reducible apply OwnKeeps.nextCarryAll
    | with_reducible apply OwnKeeps.ite
    | with_reducible apply OwnKeeps.ok
    | with_reducible apply OwnKeeps.next
    | ((with_reducible apply Keeps.step (symOp_keeps ..)); focus exact rfl)
    | with_reducible apply Keeps.ite
    | with_reducible apply Keeps.ite_fst
    | with_reducible refine Keeps.foldl _ (fun _ _ => ?_) ?_
    | extract_lets
    | split
    | dsimp only)

theorem execDecrypt_own (job : Nat) (s : State) : OwnKeeps (only [.jobs, .mem, .place, .buffers, .engines, .keys, .entropy, .front]) s (execDecrypt
    job s) := by
  unfold execDecrypt
  repeat' (first
    | with_reducible apply Keeps.refl
    | with_reducible assumption
    | with_reducible exact OwnKeeps.fault
    | with_reducible exact OwnKeeps.refused
    | with_reducible apply OwnKeeps.okFin
    | with_reducible apply OwnKeeps.okCarry
    | with_reducible apply OwnKeeps.okCarryAll
    | with_reducible apply OwnKeeps.nextFin
    | with_reducible apply OwnKeeps.nextCarry
    | with_reducible apply OwnKeeps.nextCarryAll
    | with_reducible apply OwnKeeps.ite
    | with_reducible apply OwnKeeps.ok
    | with_reducible apply OwnKeeps.next
    | ((with_reducible apply Keeps.step (symOp_keeps ..)); focus exact rfl)
    | with_reducible apply Keeps.ite
    | with_reducible apply Keeps.ite_fst
    | with_reducible refine Keeps.foldl _ (fun _ _ => ?_) ?_
    | extract_lets
    | split
    | dsimp only)

theorem execAssocQuery_own (job : Nat) (s : State) : OwnKeeps (only [.jobs, .mem, .buffers, .engines, .keys]) s (execAssocQuery job s) := by
  unfold execAssocQuery
  repeat' (first
    | with_reducible apply Keeps.refl
    | with_reducible assumption
    | with_reducible exact OwnKeeps.fault
    | with_reducible exact OwnKeeps.refused
    | with_reducible apply OwnKeeps.okFin
    | with_reducible apply OwnKeeps.okCarry
    | with_reducible apply OwnKeeps.okCarryAll
    | with_reducible apply OwnKeeps.nextFin
    | with_reducible apply OwnKeeps.nextCarry
    | with_reducible apply OwnKeeps.nextCarryAll
    | with_reducible apply OwnKeeps.ite
    | with_reducible apply OwnKeeps.ok
    | with_reducible apply OwnKeeps.next
    | ((with_reducible apply opJob_keeps); focus exact rfl)
    | ((with_reducible apply Keeps.step (queryEnd_keeps ..)); focus exact rfl)
    | with_reducible intro _
    | with_reducible apply Keeps.self
    | with_reducible apply Keeps.ite
    | with_reducible apply Keeps.ite_fst
    | with_reducible refine Keeps.foldl _ (fun _ _ => ?_) ?_
    | extract_lets
    | split
    | dsimp only)

theorem execDigest_own (job : Nat) (s : State) : OwnKeeps (only [.alarms, .jobs, .mem, .place, .buffers, .engines, .keys, .entropy, .prompts]) s
    (execDigest job s) := by
  unfold execDigest
  repeat' (first
    | with_reducible apply Keeps.refl
    | with_reducible assumption
    | with_reducible exact OwnKeeps.fault
    | with_reducible exact OwnKeeps.refused
    | with_reducible apply OwnKeeps.okFin
    | with_reducible apply OwnKeeps.okCarry
    | with_reducible apply OwnKeeps.okCarryAll
    | with_reducible apply OwnKeeps.nextFin
    | with_reducible apply OwnKeeps.nextCarry
    | with_reducible apply OwnKeeps.nextCarryAll
    | with_reducible apply OwnKeeps.ite
    | with_reducible apply OwnKeeps.ok
    | with_reducible apply OwnKeeps.next
    | ((with_reducible apply Keeps.step (digOp_keeps ..)); focus exact rfl)
    | with_reducible apply Keeps.ite
    | with_reducible apply Keeps.ite_fst
    | with_reducible refine Keeps.foldl _ (fun _ _ => ?_) ?_
    | extract_lets
    | split
    | dsimp only)

theorem execDigestVerify_own (job : CmpEnd) (s : State) : OwnKeeps (only [.alarms, .jobs, .mem, .place, .buffers, .engines, .keys, .entropy,
    .prompts]) s (execDigestVerify job s) := by
  unfold execDigestVerify
  repeat' (first
    | with_reducible apply Keeps.refl
    | with_reducible assumption
    | with_reducible exact OwnKeeps.fault
    | with_reducible exact OwnKeeps.refused
    | with_reducible apply OwnKeeps.okFin
    | with_reducible apply OwnKeeps.okCarry
    | with_reducible apply OwnKeeps.okCarryAll
    | with_reducible apply OwnKeeps.nextFin
    | with_reducible apply OwnKeeps.nextCarry
    | with_reducible apply OwnKeeps.nextCarryAll
    | with_reducible apply OwnKeeps.ite
    | with_reducible apply OwnKeeps.ok
    | with_reducible apply OwnKeeps.next
    | ((with_reducible apply Keeps.step (digOp_keeps ..)); focus exact rfl)
    | with_reducible apply Keeps.ite
    | with_reducible apply Keeps.ite_fst
    | with_reducible refine Keeps.foldl _ (fun _ _ => ?_) ?_
    | extract_lets
    | split
    | dsimp only)

theorem execHmacGen_own (job : Nat) (s : State) : OwnKeeps (only [.alarms, .jobs, .mem, .place, .buffers, .engines, .keys, .entropy, .prompts]) s
    (execHmacGen job s) := by
  unfold execHmacGen
  repeat' (first
    | with_reducible apply Keeps.refl
    | with_reducible assumption
    | with_reducible exact OwnKeeps.fault
    | with_reducible exact OwnKeeps.refused
    | with_reducible apply OwnKeeps.okFin
    | with_reducible apply OwnKeeps.okCarry
    | with_reducible apply OwnKeeps.okCarryAll
    | with_reducible apply OwnKeeps.nextFin
    | with_reducible apply OwnKeeps.nextCarry
    | with_reducible apply OwnKeeps.nextCarryAll
    | with_reducible apply OwnKeeps.ite
    | with_reducible apply OwnKeeps.ok
    | with_reducible apply OwnKeeps.next
    | ((with_reducible apply Keeps.step (digOp_keeps ..)); focus exact rfl)
    | with_reducible apply Keeps.ite
    | with_reducible apply Keeps.ite_fst
    | with_reducible refine Keeps.foldl _ (fun _ _ => ?_) ?_
    | extract_lets
    | split
    | dsimp only)

theorem execHmacVerify_own (job : CmpEnd) (s : State) : OwnKeeps (only [.alarms, .jobs, .mem, .place, .buffers, .engines, .keys, .entropy, .prompts])
    s (execHmacVerify job s) := by
  unfold execHmacVerify
  repeat' (first
    | with_reducible apply Keeps.refl
    | with_reducible assumption
    | with_reducible exact OwnKeeps.fault
    | with_reducible exact OwnKeeps.refused
    | with_reducible apply OwnKeeps.okFin
    | with_reducible apply OwnKeeps.okCarry
    | with_reducible apply OwnKeeps.okCarryAll
    | with_reducible apply OwnKeeps.nextFin
    | with_reducible apply OwnKeeps.nextCarry
    | with_reducible apply OwnKeeps.nextCarryAll
    | with_reducible apply OwnKeeps.ite
    | with_reducible apply OwnKeeps.ok
    | with_reducible apply OwnKeeps.next
    | ((with_reducible apply Keeps.step (digOp_keeps ..)); focus exact rfl)
    | with_reducible apply Keeps.ite
    | with_reducible apply Keeps.ite_fst
    | with_reducible refine Keeps.foldl _ (fun _ _ => ?_) ?_
    | extract_lets
    | split
    | dsimp only)

theorem execCompare_own (job : CmpEnd) (s : State) : OwnKeeps (only [.alarms, .jobs, .mem, .buffers, .engines, .keys, .prompts]) s (execCompare job s)
    := by
  unfold execCompare
  repeat' (first
    | with_reducible apply Keeps.refl
    | with_reducible assumption
    | with_reducible exact OwnKeeps.fault
    | with_reducible exact OwnKeeps.refused
    | with_reducible apply OwnKeeps.okFin
    | with_reducible apply OwnKeeps.okCarry
    | with_reducible apply OwnKeeps.okCarryAll
    | with_reducible apply OwnKeeps.nextFin
    | with_reducible apply OwnKeeps.nextCarry
    | with_reducible apply OwnKeeps.nextCarryAll
    | with_reducible apply OwnKeeps.ite
    | with_reducible apply OwnKeeps.ok
    | with_reducible apply OwnKeeps.next
    | ((with_reducible apply opJob_keeps); focus exact rfl)
    | ((with_reducible apply Keeps.step (compareEnd_keeps ..)); focus exact rfl)
    | with_reducible intro _
    | with_reducible apply Keeps.self
    | with_reducible apply Keeps.ite
    | with_reducible apply Keeps.ite_fst
    | with_reducible refine Keeps.foldl _ (fun _ _ => ?_) ?_
    | extract_lets
    | split
    | dsimp only)

theorem execHmacLoad_own (job : Nat) (s : State) : OwnKeeps (only [.jobs, .mem, .buffers, .engines, .keys]) s (execHmacLoad job s) := by
  unfold execHmacLoad
  repeat' (first
    | with_reducible apply Keeps.refl
    | with_reducible assumption
    | with_reducible exact OwnKeeps.fault
    | with_reducible exact OwnKeeps.refused
    | with_reducible apply OwnKeeps.okFin
    | with_reducible apply OwnKeeps.okCarry
    | with_reducible apply OwnKeeps.okCarryAll
    | with_reducible apply OwnKeeps.nextFin
    | with_reducible apply OwnKeeps.nextCarry
    | with_reducible apply OwnKeeps.nextCarryAll
    | with_reducible apply OwnKeeps.ite
    | with_reducible apply OwnKeeps.ok
    | with_reducible apply OwnKeeps.next
    | ((with_reducible apply opJob_keeps); focus exact rfl)
    | ((with_reducible apply Keeps.step (hmacLoadEnd_keeps ..)); focus exact rfl)
    | with_reducible intro _
    | with_reducible apply Keeps.self
    | with_reducible apply Keeps.ite
    | with_reducible apply Keeps.ite_fst
    | with_reducible refine Keeps.foldl _ (fun _ _ => ?_) ?_
    | extract_lets
    | split
    | dsimp only)

theorem execHmacUnload_own (job : Nat) (s : State) : OwnKeeps (only [.jobs, .mem, .buffers, .engines, .keys]) s (execHmacUnload job s) := by
  unfold execHmacUnload
  repeat' (first
    | with_reducible apply Keeps.refl
    | with_reducible assumption
    | with_reducible exact OwnKeeps.fault
    | with_reducible exact OwnKeeps.refused
    | with_reducible apply OwnKeeps.okFin
    | with_reducible apply OwnKeeps.okCarry
    | with_reducible apply OwnKeeps.okCarryAll
    | with_reducible apply OwnKeeps.nextFin
    | with_reducible apply OwnKeeps.nextCarry
    | with_reducible apply OwnKeeps.nextCarryAll
    | with_reducible apply OwnKeeps.ite
    | with_reducible apply OwnKeeps.ok
    | with_reducible apply OwnKeeps.next
    | ((with_reducible apply opJob_keeps); focus exact rfl)
    | ((with_reducible apply Keeps.step (hmacUnloadEnd_keeps ..)); focus exact rfl)
    | with_reducible intro _
    | with_reducible apply Keeps.self
    | with_reducible apply Keeps.ite
    | with_reducible apply Keeps.ite_fst
    | with_reducible refine Keeps.foldl _ (fun _ _ => ?_) ?_
    | extract_lets
    | split
    | dsimp only)

theorem execDwStart_own (alg : Nat) (s : State) : OwnKeeps (only [.alarms, .window, .prompts]) s (execDwStart alg s) := by
  unfold execDwStart
  repeat' (first
    | with_reducible apply Keeps.refl
    | with_reducible assumption
    | with_reducible exact OwnKeeps.fault
    | with_reducible exact OwnKeeps.refused
    | with_reducible apply OwnKeeps.okFin
    | with_reducible apply OwnKeeps.okCarry
    | with_reducible apply OwnKeeps.okCarryAll
    | with_reducible apply OwnKeeps.nextFin
    | with_reducible apply OwnKeeps.nextCarry
    | with_reducible apply OwnKeeps.nextCarryAll
    | with_reducible apply OwnKeeps.ite
    | with_reducible apply OwnKeeps.ok
    | with_reducible apply OwnKeeps.next
    | ((with_reducible apply mgrWrite_keeps); focus exact rfl)
    | ((with_reducible apply Keeps.step (dwOpen_keeps ..)); focus exact rfl)
    | with_reducible intro _
    | with_reducible apply Keeps.self
    | with_reducible apply Keeps.ite
    | with_reducible apply Keeps.ite_fst
    | with_reducible refine Keeps.foldl _ (fun _ _ => ?_) ?_
    | extract_lets
    | split
    | dsimp only)

theorem execDwDataWrite_own (value : W32) (s : State) : OwnKeeps (only [.alarms, .window, .prompts]) s (execDwDataWrite value s) := by
  unfold execDwDataWrite
  repeat' (first
    | with_reducible apply Keeps.refl
    | with_reducible assumption
    | with_reducible exact OwnKeeps.fault
    | with_reducible exact OwnKeeps.refused
    | with_reducible apply OwnKeeps.okFin
    | with_reducible apply OwnKeeps.okCarry
    | with_reducible apply OwnKeeps.okCarryAll
    | with_reducible apply OwnKeeps.nextFin
    | with_reducible apply OwnKeeps.nextCarry
    | with_reducible apply OwnKeeps.nextCarryAll
    | with_reducible apply OwnKeeps.ite
    | with_reducible apply OwnKeeps.ok
    | with_reducible apply OwnKeeps.next
    | ((with_reducible apply mgrWrite_keeps); focus exact rfl)
    | ((with_reducible apply Keeps.step (dwHigh_keeps ..)); focus exact rfl)
    | with_reducible intro _
    | with_reducible apply Keeps.self
    | with_reducible apply Keeps.ite
    | with_reducible apply Keeps.ite_fst
    | with_reducible refine Keeps.foldl _ (fun _ _ => ?_) ?_
    | extract_lets
    | split
    | dsimp only)

theorem execDwFinish_own (lastBytes : Nat) (s : State) : OwnKeeps (only [.alarms, .window, .prompts]) s (execDwFinish lastBytes s) := by
  unfold execDwFinish
  repeat' (first
    | with_reducible apply Keeps.refl
    | with_reducible assumption
    | with_reducible exact OwnKeeps.fault
    | with_reducible exact OwnKeeps.refused
    | with_reducible apply OwnKeeps.okFin
    | with_reducible apply OwnKeeps.okCarry
    | with_reducible apply OwnKeeps.okCarryAll
    | with_reducible apply OwnKeeps.nextFin
    | with_reducible apply OwnKeeps.nextCarry
    | with_reducible apply OwnKeeps.nextCarryAll
    | with_reducible apply OwnKeeps.ite
    | with_reducible apply OwnKeeps.ok
    | with_reducible apply OwnKeeps.next
    | ((with_reducible apply mgrWrite_keeps); focus exact rfl)
    | ((with_reducible apply Keeps.step (dwClose_keeps ..)); focus exact rfl)
    | with_reducible intro _
    | with_reducible apply Keeps.self
    | with_reducible apply Keeps.ite
    | with_reducible apply Keeps.ite_fst
    | with_reducible refine Keeps.foldl _ (fun _ _ => ?_) ?_
    | extract_lets
    | split
    | dsimp only)

theorem execDwAbort_own (s : State) : OwnKeeps (only [.alarms, .window, .prompts]) s (execDwAbort s) := by
  unfold execDwAbort
  repeat' (first
    | with_reducible apply Keeps.refl
    | with_reducible assumption
    | with_reducible exact OwnKeeps.fault
    | with_reducible exact OwnKeeps.refused
    | with_reducible apply OwnKeeps.okFin
    | with_reducible apply OwnKeeps.okCarry
    | with_reducible apply OwnKeeps.okCarryAll
    | with_reducible apply OwnKeeps.nextFin
    | with_reducible apply OwnKeeps.nextCarry
    | with_reducible apply OwnKeeps.nextCarryAll
    | with_reducible apply OwnKeeps.ite
    | with_reducible apply OwnKeeps.ok
    | with_reducible apply OwnKeeps.next
    | ((with_reducible apply mgrWrite_keeps); focus exact rfl)
    | ((with_reducible apply Keeps.step (State.modWindow_keeps ..)); focus exact rfl)
    | with_reducible intro _
    | with_reducible apply Keeps.self
    | with_reducible apply Keeps.ite
    | with_reducible apply Keeps.ite_fst
    | with_reducible refine Keeps.foldl _ (fun _ _ => ?_) ?_
    | extract_lets
    | split
    | dsimp only)

theorem execDwAbsorbDone_own (s : State) : OwnKeeps (only [.window]) s (execDwAbsorbDone s) := by
  unfold execDwAbsorbDone
  repeat' (first
    | with_reducible apply Keeps.refl
    | with_reducible assumption
    | with_reducible exact OwnKeeps.fault
    | with_reducible exact OwnKeeps.refused
    | with_reducible apply OwnKeeps.okFin
    | with_reducible apply OwnKeeps.okCarry
    | with_reducible apply OwnKeeps.okCarryAll
    | with_reducible apply OwnKeeps.nextFin
    | with_reducible apply OwnKeeps.nextCarry
    | with_reducible apply OwnKeeps.nextCarryAll
    | with_reducible apply OwnKeeps.ite
    | with_reducible apply OwnKeeps.ok
    | with_reducible apply OwnKeeps.next
    | ((with_reducible apply whenDo_keeps); focus exact rfl)
    | ((with_reducible apply Keeps.step (dwAbsorbed_keeps ..)); focus exact rfl)
    | with_reducible intro _
    | with_reducible apply Keeps.self
    | with_reducible apply Keeps.ite
    | with_reducible apply Keeps.ite_fst
    | with_reducible refine Keeps.foldl _ (fun _ _ => ?_) ?_
    | extract_lets
    | split
    | dsimp only)

theorem execModAdd_own (job : Nat) (s : State) : OwnKeeps (only [.jobs]) s (execModAdd job s) := by
  unfold execModAdd
  repeat' (first
    | with_reducible apply Keeps.refl
    | with_reducible assumption
    | with_reducible exact OwnKeeps.fault
    | with_reducible exact OwnKeeps.refused
    | with_reducible apply OwnKeeps.okFin
    | with_reducible apply OwnKeeps.okCarry
    | with_reducible apply OwnKeeps.okCarryAll
    | with_reducible apply OwnKeeps.nextFin
    | with_reducible apply OwnKeeps.nextCarry
    | with_reducible apply OwnKeeps.nextCarryAll
    | with_reducible apply OwnKeeps.ite
    | with_reducible apply OwnKeeps.ok
    | with_reducible apply OwnKeeps.next
    | ((with_reducible apply Keeps.step (engOp_keeps ..)); focus exact rfl)
    | with_reducible apply Keeps.ite
    | with_reducible apply Keeps.ite_fst
    | with_reducible refine Keeps.foldl _ (fun _ _ => ?_) ?_
    | extract_lets
    | split
    | dsimp only)

theorem execModSub_own (job : Nat) (s : State) : OwnKeeps (only [.jobs]) s (execModSub job s) := by
  unfold execModSub
  repeat' (first
    | with_reducible apply Keeps.refl
    | with_reducible assumption
    | with_reducible exact OwnKeeps.fault
    | with_reducible exact OwnKeeps.refused
    | with_reducible apply OwnKeeps.okFin
    | with_reducible apply OwnKeeps.okCarry
    | with_reducible apply OwnKeeps.okCarryAll
    | with_reducible apply OwnKeeps.nextFin
    | with_reducible apply OwnKeeps.nextCarry
    | with_reducible apply OwnKeeps.nextCarryAll
    | with_reducible apply OwnKeeps.ite
    | with_reducible apply OwnKeeps.ok
    | with_reducible apply OwnKeeps.next
    | ((with_reducible apply Keeps.step (engOp_keeps ..)); focus exact rfl)
    | with_reducible apply Keeps.ite
    | with_reducible apply Keeps.ite_fst
    | with_reducible refine Keeps.foldl _ (fun _ _ => ?_) ?_
    | extract_lets
    | split
    | dsimp only)

theorem execModMul_own (job : Nat) (s : State) : OwnKeeps (only [.jobs]) s (execModMul job s) := by
  unfold execModMul
  repeat' (first
    | with_reducible apply Keeps.refl
    | with_reducible assumption
    | with_reducible exact OwnKeeps.fault
    | with_reducible exact OwnKeeps.refused
    | with_reducible apply OwnKeeps.okFin
    | with_reducible apply OwnKeeps.okCarry
    | with_reducible apply OwnKeeps.okCarryAll
    | with_reducible apply OwnKeeps.nextFin
    | with_reducible apply OwnKeeps.nextCarry
    | with_reducible apply OwnKeeps.nextCarryAll
    | with_reducible apply OwnKeeps.ite
    | with_reducible apply OwnKeeps.ok
    | with_reducible apply OwnKeeps.next
    | ((with_reducible apply Keeps.step (engOp_keeps ..)); focus exact rfl)
    | with_reducible apply Keeps.ite
    | with_reducible apply Keeps.ite_fst
    | with_reducible refine Keeps.foldl _ (fun _ _ => ?_) ?_
    | extract_lets
    | split
    | dsimp only)

theorem execModInv_own (job : Nat) (s : State) : OwnKeeps (only [.jobs]) s (execModInv job s) := by
  unfold execModInv
  repeat' (first
    | with_reducible apply Keeps.refl
    | with_reducible assumption
    | with_reducible exact OwnKeeps.fault
    | with_reducible exact OwnKeeps.refused
    | with_reducible apply OwnKeeps.okFin
    | with_reducible apply OwnKeeps.okCarry
    | with_reducible apply OwnKeeps.okCarryAll
    | with_reducible apply OwnKeeps.nextFin
    | with_reducible apply OwnKeeps.nextCarry
    | with_reducible apply OwnKeeps.nextCarryAll
    | with_reducible apply OwnKeeps.ite
    | with_reducible apply OwnKeeps.ok
    | with_reducible apply OwnKeeps.next
    | ((with_reducible apply Keeps.step (engOp_keeps ..)); focus exact rfl)
    | with_reducible apply Keeps.ite
    | with_reducible apply Keeps.ite_fst
    | with_reducible refine Keeps.foldl _ (fun _ _ => ?_) ?_
    | extract_lets
    | split
    | dsimp only)

theorem execModExp_own (job : Nat) (s : State) : OwnKeeps (only [.jobs]) s (execModExp job s) := by
  unfold execModExp
  repeat' (first
    | with_reducible apply Keeps.refl
    | with_reducible assumption
    | with_reducible exact OwnKeeps.fault
    | with_reducible exact OwnKeeps.refused
    | with_reducible apply OwnKeeps.okFin
    | with_reducible apply OwnKeeps.okCarry
    | with_reducible apply OwnKeeps.okCarryAll
    | with_reducible apply OwnKeeps.nextFin
    | with_reducible apply OwnKeeps.nextCarry
    | with_reducible apply OwnKeeps.nextCarryAll
    | with_reducible apply OwnKeeps.ite
    | with_reducible apply OwnKeeps.ok
    | with_reducible apply OwnKeeps.next
    | ((with_reducible apply Keeps.step (engOp_keeps ..)); focus exact rfl)
    | with_reducible apply Keeps.ite
    | with_reducible apply Keeps.ite_fst
    | with_reducible refine Keeps.foldl _ (fun _ _ => ?_) ?_
    | extract_lets
    | split
    | dsimp only)

theorem execModExpCrt_own (job : Nat) (s : State) : OwnKeeps (only [.jobs]) s (execModExpCrt job s) := by
  unfold execModExpCrt
  repeat' (first
    | with_reducible apply Keeps.refl
    | with_reducible assumption
    | with_reducible exact OwnKeeps.fault
    | with_reducible exact OwnKeeps.refused
    | with_reducible apply OwnKeeps.okFin
    | with_reducible apply OwnKeeps.okCarry
    | with_reducible apply OwnKeeps.okCarryAll
    | with_reducible apply OwnKeeps.nextFin
    | with_reducible apply OwnKeeps.nextCarry
    | with_reducible apply OwnKeeps.nextCarryAll
    | with_reducible apply OwnKeeps.ite
    | with_reducible apply OwnKeeps.ok
    | with_reducible apply OwnKeeps.next
    | ((with_reducible apply Keeps.step (engOp_keeps ..)); focus exact rfl)
    | with_reducible apply Keeps.ite
    | with_reducible apply Keeps.ite_fst
    | with_reducible refine Keeps.foldl _ (fun _ _ => ?_) ?_
    | extract_lets
    | split
    | dsimp only)

theorem execEngineLoad_own (wing : Nat) (s : State) : OwnKeeps (only [.jobs, .mem, .place, .buffers, .engines, .keys, .entropy]) s (execEngineLoad
    wing s) := by
  unfold execEngineLoad
  repeat' (first
    | with_reducible apply Keeps.refl
    | with_reducible assumption
    | with_reducible exact OwnKeeps.fault
    | with_reducible exact OwnKeeps.refused
    | with_reducible apply OwnKeeps.okFin
    | with_reducible apply OwnKeeps.okCarry
    | with_reducible apply OwnKeeps.okCarryAll
    | with_reducible apply OwnKeeps.nextFin
    | with_reducible apply OwnKeeps.nextCarry
    | with_reducible apply OwnKeeps.nextCarryAll
    | with_reducible apply OwnKeeps.ite
    | with_reducible apply OwnKeeps.ok
    | with_reducible apply OwnKeeps.next
    | ((with_reducible apply Keeps.step (engLoad_keeps ..)); focus exact rfl)
    | with_reducible apply Keeps.ite
    | with_reducible apply Keeps.ite_fst
    | with_reducible refine Keeps.foldl _ (fun _ _ => ?_) ?_
    | extract_lets
    | split
    | dsimp only)

theorem execRunStart_own (wing : Nat) (s : State) : OwnKeeps (only [.jobs, .engines]) s (execRunStart wing s) := by
  unfold execRunStart
  repeat' (first
    | with_reducible apply Keeps.refl
    | with_reducible assumption
    | with_reducible exact OwnKeeps.fault
    | with_reducible exact OwnKeeps.refused
    | with_reducible apply OwnKeeps.okFin
    | with_reducible apply OwnKeeps.okCarry
    | with_reducible apply OwnKeeps.okCarryAll
    | with_reducible apply OwnKeeps.nextFin
    | with_reducible apply OwnKeeps.nextCarry
    | with_reducible apply OwnKeeps.nextCarryAll
    | with_reducible apply OwnKeeps.ite
    | with_reducible apply OwnKeeps.ok
    | with_reducible apply OwnKeeps.next
    | ((with_reducible apply Keeps.step (runStart_keeps ..)); focus exact rfl)
    | with_reducible apply Keeps.ite
    | with_reducible apply Keeps.ite_fst
    | with_reducible refine Keeps.foldl _ (fun _ _ => ?_) ?_
    | extract_lets
    | split
    | dsimp only)

theorem execDatapathDone_own (wing : Nat) (agree : Bool) (s : State) : OwnKeeps (only [.engines]) s (execDatapathDone wing agree s) := by
  unfold execDatapathDone
  repeat' (first
    | with_reducible apply Keeps.refl
    | with_reducible assumption
    | with_reducible exact OwnKeeps.fault
    | with_reducible exact OwnKeeps.refused
    | with_reducible apply OwnKeeps.okFin
    | with_reducible apply OwnKeeps.okCarry
    | with_reducible apply OwnKeeps.okCarryAll
    | with_reducible apply OwnKeeps.nextFin
    | with_reducible apply OwnKeeps.nextCarry
    | with_reducible apply OwnKeeps.nextCarryAll
    | with_reducible apply OwnKeeps.ite
    | with_reducible apply OwnKeeps.ok
    | with_reducible apply OwnKeeps.next
    | ((with_reducible apply Keeps.step (datapathDone_keeps ..)); focus exact rfl)
    | with_reducible apply Keeps.ite
    | with_reducible apply Keeps.ite_fst
    | with_reducible refine Keeps.foldl _ (fun _ _ => ?_) ?_
    | extract_lets
    | split
    | dsimp only)

theorem execReleaseTick_own (wing : Nat) (s : State) : OwnKeeps (allBut [.pending, .params, .offers, .nextJob, .time, .freeCount]) s (execReleaseTick
    wing s) := by
  unfold execReleaseTick
  repeat' (first
    | with_reducible apply Keeps.refl
    | with_reducible assumption
    | with_reducible exact OwnKeeps.fault
    | with_reducible exact OwnKeeps.refused
    | with_reducible apply OwnKeeps.okFin
    | with_reducible apply OwnKeeps.okCarry
    | with_reducible apply OwnKeeps.okCarryAll
    | with_reducible apply OwnKeeps.nextFin
    | with_reducible apply OwnKeeps.nextCarry
    | with_reducible apply OwnKeeps.nextCarryAll
    | with_reducible apply OwnKeeps.ite
    | with_reducible apply OwnKeeps.ok
    | with_reducible apply OwnKeeps.next
    | ((with_reducible apply Keeps.step (releaseTick_keeps ..)); focus exact rfl)
    | with_reducible apply Keeps.ite
    | with_reducible apply Keeps.ite_fst
    | with_reducible refine Keeps.foldl _ (fun _ _ => ?_) ?_
    | extract_lets
    | split
    | dsimp only)

theorem execWipeDone_own (wing : Nat) (clean : Bool) (s : State) : OwnKeeps (allBut [.pending, .params, .seats, .offers, .nextJob, .time, .freeCount])
    s (execWipeDone wing clean s) := by
  unfold execWipeDone
  repeat' (first
    | with_reducible apply Keeps.refl
    | with_reducible assumption
    | with_reducible exact OwnKeeps.fault
    | with_reducible exact OwnKeeps.refused
    | with_reducible apply OwnKeeps.okFin
    | with_reducible apply OwnKeeps.okCarry
    | with_reducible apply OwnKeeps.okCarryAll
    | with_reducible apply OwnKeeps.nextFin
    | with_reducible apply OwnKeeps.nextCarry
    | with_reducible apply OwnKeeps.nextCarryAll
    | with_reducible apply OwnKeeps.ite
    | with_reducible apply OwnKeeps.ok
    | with_reducible apply OwnKeeps.next
    | ((with_reducible apply Keeps.step (wipeDone_keeps ..)); focus exact rfl)
    | with_reducible apply Keeps.ite
    | with_reducible apply Keeps.ite_fst
    | with_reducible refine Keeps.foldl _ (fun _ _ => ?_) ?_
    | extract_lets
    | split
    | dsimp only)

theorem execMldsaBlockTick_own (wing : Nat) (s : State) : OwnKeeps (allBut [.pending, .params, .offers, .nextJob, .time, .freeCount]) s
    (execMldsaBlockTick wing s) := by
  unfold execMldsaBlockTick
  repeat' (first
    | with_reducible apply Keeps.refl
    | with_reducible assumption
    | with_reducible exact OwnKeeps.fault
    | with_reducible exact OwnKeeps.refused
    | with_reducible apply OwnKeeps.okFin
    | with_reducible apply OwnKeeps.okCarry
    | with_reducible apply OwnKeeps.okCarryAll
    | with_reducible apply OwnKeeps.nextFin
    | with_reducible apply OwnKeeps.nextCarry
    | with_reducible apply OwnKeeps.nextCarryAll
    | with_reducible apply OwnKeeps.ite
    | with_reducible apply OwnKeeps.ok
    | with_reducible apply OwnKeeps.next
    | ((with_reducible apply Keeps.step (blockTick_keeps ..)); focus exact rfl)
    | with_reducible apply Keeps.ite
    | with_reducible apply Keeps.ite_fst
    | with_reducible refine Keeps.foldl _ (fun _ _ => ?_) ?_
    | extract_lets
    | split
    | dsimp only)

theorem execFloorWrite_own (value : W32) (s : State) : OwnKeeps (only [.alarms, .seats, .place, .engines, .prompts]) s (execFloorWrite value s) := by
  unfold execFloorWrite
  repeat' (first
    | with_reducible apply Keeps.refl
    | with_reducible assumption
    | with_reducible exact OwnKeeps.fault
    | with_reducible exact OwnKeeps.refused
    | with_reducible apply OwnKeeps.okFin
    | with_reducible apply OwnKeeps.okCarry
    | with_reducible apply OwnKeeps.okCarryAll
    | with_reducible apply OwnKeeps.nextFin
    | with_reducible apply OwnKeeps.nextCarry
    | with_reducible apply OwnKeeps.nextCarryAll
    | with_reducible apply OwnKeeps.ite
    | with_reducible apply OwnKeeps.ok
    | with_reducible apply OwnKeeps.next
    | ((with_reducible apply mgrWrite_keeps); focus exact rfl)
    | ((with_reducible apply Keeps.step (engWrite_keeps ..)); focus exact rfl)
    | with_reducible intro _
    | with_reducible apply Keeps.self
    | with_reducible apply Keeps.ite
    | with_reducible apply Keeps.ite_fst
    | with_reducible refine Keeps.foldl _ (fun _ _ => ?_) ?_
    | extract_lets
    | split
    | dsimp only)

theorem execRtQuery_own (value : W32) (s : State) : OwnKeeps (only [.alarms, .seats, .place, .engines, .prompts]) s (execRtQuery value s) := by
  unfold execRtQuery
  repeat' (first
    | with_reducible apply Keeps.refl
    | with_reducible assumption
    | with_reducible exact OwnKeeps.fault
    | with_reducible exact OwnKeeps.refused
    | with_reducible apply OwnKeeps.okFin
    | with_reducible apply OwnKeeps.okCarry
    | with_reducible apply OwnKeeps.okCarryAll
    | with_reducible apply OwnKeeps.nextFin
    | with_reducible apply OwnKeeps.nextCarry
    | with_reducible apply OwnKeeps.nextCarryAll
    | with_reducible apply OwnKeeps.ite
    | with_reducible apply OwnKeeps.ok
    | with_reducible apply OwnKeeps.next
    | ((with_reducible apply mgrWrite_keeps); focus exact rfl)
    | ((with_reducible apply Keeps.step (engWrite_keeps ..)); focus exact rfl)
    | with_reducible intro _
    | with_reducible apply Keeps.self
    | with_reducible apply Keeps.ite
    | with_reducible apply Keeps.ite_fst
    | with_reducible refine Keeps.foldl _ (fun _ _ => ?_) ?_
    | extract_lets
    | split
    | dsimp only)

theorem execSlackRead_own (wing : Nat) (s : State) : OwnKeeps (only [.seats, .seatRegs, .engines]) s (execSlackRead wing s) := by
  unfold execSlackRead
  repeat' (first
    | with_reducible apply Keeps.refl
    | with_reducible assumption
    | with_reducible exact OwnKeeps.fault
    | with_reducible exact OwnKeeps.refused
    | with_reducible apply OwnKeeps.okFin
    | with_reducible apply OwnKeeps.okCarry
    | with_reducible apply OwnKeeps.okCarryAll
    | with_reducible apply OwnKeeps.nextFin
    | with_reducible apply OwnKeeps.nextCarry
    | with_reducible apply OwnKeeps.nextCarryAll
    | with_reducible apply OwnKeeps.ite
    | with_reducible apply OwnKeeps.ok
    | with_reducible apply OwnKeeps.next
    | ((with_reducible apply Keeps.step (clearRead_keeps ..)); focus exact rfl)
    | with_reducible apply Keeps.ite
    | with_reducible apply Keeps.ite_fst
    | with_reducible refine Keeps.foldl _ (fun _ _ => ?_) ?_
    | extract_lets
    | split
    | dsimp only)

theorem execFaultLogRead_own (s : State) : OwnKeeps (only [.seats, .seatRegs, .engines]) s (execFaultLogRead s) := by
  unfold execFaultLogRead
  repeat' (first
    | with_reducible apply Keeps.refl
    | with_reducible assumption
    | with_reducible exact OwnKeeps.fault
    | with_reducible exact OwnKeeps.refused
    | with_reducible apply OwnKeeps.okFin
    | with_reducible apply OwnKeeps.okCarry
    | with_reducible apply OwnKeeps.okCarryAll
    | with_reducible apply OwnKeeps.nextFin
    | with_reducible apply OwnKeeps.nextCarry
    | with_reducible apply OwnKeeps.nextCarryAll
    | with_reducible apply OwnKeeps.ite
    | with_reducible apply OwnKeeps.ok
    | with_reducible apply OwnKeeps.next
    | ((with_reducible apply Keeps.step (clearRead_keeps ..)); focus exact rfl)
    | with_reducible apply Keeps.ite
    | with_reducible apply Keeps.ite_fst
    | with_reducible refine Keeps.foldl _ (fun _ _ => ?_) ?_
    | extract_lets
    | split
    | dsimp only)

theorem execAdmitStsRead_own (seat : Nat) (s : State) : OwnKeeps (only [.seats, .seatRegs, .engines]) s (execAdmitStsRead seat s) := by
  unfold execAdmitStsRead
  repeat' (first
    | with_reducible apply Keeps.refl
    | with_reducible assumption
    | with_reducible exact OwnKeeps.fault
    | with_reducible exact OwnKeeps.refused
    | with_reducible apply OwnKeeps.okFin
    | with_reducible apply OwnKeeps.okCarry
    | with_reducible apply OwnKeeps.okCarryAll
    | with_reducible apply OwnKeeps.nextFin
    | with_reducible apply OwnKeeps.nextCarry
    | with_reducible apply OwnKeeps.nextCarryAll
    | with_reducible apply OwnKeeps.ite
    | with_reducible apply OwnKeeps.ok
    | with_reducible apply OwnKeeps.next
    | ((with_reducible apply Keeps.step (clearRead_keeps ..)); focus exact rfl)
    | with_reducible apply Keeps.ite
    | with_reducible apply Keeps.ite_fst
    | with_reducible refine Keeps.foldl _ (fun _ _ => ?_) ?_
    | extract_lets
    | split
    | dsimp only)

theorem execEcKeygen_own (job : Nat) (s : State) : OwnKeeps (only [.jobs]) s (execEcKeygen job s) := by
  unfold execEcKeygen
  repeat' (first
    | with_reducible apply Keeps.refl
    | with_reducible assumption
    | with_reducible exact OwnKeeps.fault
    | with_reducible exact OwnKeeps.refused
    | with_reducible apply OwnKeeps.okFin
    | with_reducible apply OwnKeeps.okCarry
    | with_reducible apply OwnKeeps.okCarryAll
    | with_reducible apply OwnKeeps.nextFin
    | with_reducible apply OwnKeeps.nextCarry
    | with_reducible apply OwnKeeps.nextCarryAll
    | with_reducible apply OwnKeeps.ite
    | with_reducible apply OwnKeeps.ok
    | with_reducible apply OwnKeeps.next
    | ((with_reducible apply Keeps.step (engOp_keeps ..)); focus exact rfl)
    | with_reducible apply Keeps.ite
    | with_reducible apply Keeps.ite_fst
    | with_reducible refine Keeps.foldl _ (fun _ _ => ?_) ?_
    | extract_lets
    | split
    | dsimp only)

theorem execEcdsaSign_own (job : Nat) (s : State) : OwnKeeps (only [.jobs]) s (execEcdsaSign job s) := by
  unfold execEcdsaSign
  repeat' (first
    | with_reducible apply Keeps.refl
    | with_reducible assumption
    | with_reducible exact OwnKeeps.fault
    | with_reducible exact OwnKeeps.refused
    | with_reducible apply OwnKeeps.okFin
    | with_reducible apply OwnKeeps.okCarry
    | with_reducible apply OwnKeeps.okCarryAll
    | with_reducible apply OwnKeeps.nextFin
    | with_reducible apply OwnKeeps.nextCarry
    | with_reducible apply OwnKeeps.nextCarryAll
    | with_reducible apply OwnKeeps.ite
    | with_reducible apply OwnKeeps.ok
    | with_reducible apply OwnKeeps.next
    | ((with_reducible apply Keeps.step (engOp_keeps ..)); focus exact rfl)
    | with_reducible apply Keeps.ite
    | with_reducible apply Keeps.ite_fst
    | with_reducible refine Keeps.foldl _ (fun _ _ => ?_) ?_
    | extract_lets
    | split
    | dsimp only)

theorem execEcdsaVerify_own (job : Nat) (s : State) : OwnKeeps (only [.jobs]) s (execEcdsaVerify job s) := by
  unfold execEcdsaVerify
  repeat' (first
    | with_reducible apply Keeps.refl
    | with_reducible assumption
    | with_reducible exact OwnKeeps.fault
    | with_reducible exact OwnKeeps.refused
    | with_reducible apply OwnKeeps.okFin
    | with_reducible apply OwnKeeps.okCarry
    | with_reducible apply OwnKeeps.okCarryAll
    | with_reducible apply OwnKeeps.nextFin
    | with_reducible apply OwnKeeps.nextCarry
    | with_reducible apply OwnKeeps.nextCarryAll
    | with_reducible apply OwnKeeps.ite
    | with_reducible apply OwnKeeps.ok
    | with_reducible apply OwnKeeps.next
    | ((with_reducible apply Keeps.step (engOp_keeps ..)); focus exact rfl)
    | with_reducible apply Keeps.ite
    | with_reducible apply Keeps.ite_fst
    | with_reducible refine Keeps.foldl _ (fun _ _ => ?_) ?_
    | extract_lets
    | split
    | dsimp only)

theorem execEcdh_own (job : Nat) (s : State) : OwnKeeps (only [.jobs]) s (execEcdh job s) := by
  unfold execEcdh
  repeat' (first
    | with_reducible apply Keeps.refl
    | with_reducible assumption
    | with_reducible exact OwnKeeps.fault
    | with_reducible exact OwnKeeps.refused
    | with_reducible apply OwnKeeps.okFin
    | with_reducible apply OwnKeeps.okCarry
    | with_reducible apply OwnKeeps.okCarryAll
    | with_reducible apply OwnKeeps.nextFin
    | with_reducible apply OwnKeeps.nextCarry
    | with_reducible apply OwnKeeps.nextCarryAll
    | with_reducible apply OwnKeeps.ite
    | with_reducible apply OwnKeeps.ok
    | with_reducible apply OwnKeeps.next
    | ((with_reducible apply Keeps.step (engOp_keeps ..)); focus exact rfl)
    | with_reducible apply Keeps.ite
    | with_reducible apply Keeps.ite_fst
    | with_reducible refine Keeps.foldl _ (fun _ _ => ?_) ?_
    | extract_lets
    | split
    | dsimp only)

theorem execEd25519Sign_own (job : Nat) (s : State) : OwnKeeps (only [.jobs]) s (execEd25519Sign job s) := by
  unfold execEd25519Sign
  repeat' (first
    | with_reducible apply Keeps.refl
    | with_reducible assumption
    | with_reducible exact OwnKeeps.fault
    | with_reducible exact OwnKeeps.refused
    | with_reducible apply OwnKeeps.okFin
    | with_reducible apply OwnKeeps.okCarry
    | with_reducible apply OwnKeeps.okCarryAll
    | with_reducible apply OwnKeeps.nextFin
    | with_reducible apply OwnKeeps.nextCarry
    | with_reducible apply OwnKeeps.nextCarryAll
    | with_reducible apply OwnKeeps.ite
    | with_reducible apply OwnKeeps.ok
    | with_reducible apply OwnKeeps.next
    | ((with_reducible apply Keeps.step (engOp_keeps ..)); focus exact rfl)
    | with_reducible apply Keeps.ite
    | with_reducible apply Keeps.ite_fst
    | with_reducible refine Keeps.foldl _ (fun _ _ => ?_) ?_
    | extract_lets
    | split
    | dsimp only)

theorem execEd25519Verify_own (job : Nat) (s : State) : OwnKeeps (only [.jobs]) s (execEd25519Verify job s) := by
  unfold execEd25519Verify
  repeat' (first
    | with_reducible apply Keeps.refl
    | with_reducible assumption
    | with_reducible exact OwnKeeps.fault
    | with_reducible exact OwnKeeps.refused
    | with_reducible apply OwnKeeps.okFin
    | with_reducible apply OwnKeeps.okCarry
    | with_reducible apply OwnKeeps.okCarryAll
    | with_reducible apply OwnKeeps.nextFin
    | with_reducible apply OwnKeeps.nextCarry
    | with_reducible apply OwnKeeps.nextCarryAll
    | with_reducible apply OwnKeeps.ite
    | with_reducible apply OwnKeeps.ok
    | with_reducible apply OwnKeeps.next
    | ((with_reducible apply Keeps.step (engOp_keeps ..)); focus exact rfl)
    | with_reducible apply Keeps.ite
    | with_reducible apply Keeps.ite_fst
    | with_reducible refine Keeps.foldl _ (fun _ _ => ?_) ?_
    | extract_lets
    | split
    | dsimp only)

theorem execMlkemKeygen_own (job : Nat) (s : State) : OwnKeeps (only [.jobs]) s (execMlkemKeygen job s) := by
  unfold execMlkemKeygen
  repeat' (first
    | with_reducible apply Keeps.refl
    | with_reducible assumption
    | with_reducible exact OwnKeeps.fault
    | with_reducible exact OwnKeeps.refused
    | with_reducible apply OwnKeeps.okFin
    | with_reducible apply OwnKeeps.okCarry
    | with_reducible apply OwnKeeps.okCarryAll
    | with_reducible apply OwnKeeps.nextFin
    | with_reducible apply OwnKeeps.nextCarry
    | with_reducible apply OwnKeeps.nextCarryAll
    | with_reducible apply OwnKeeps.ite
    | with_reducible apply OwnKeeps.ok
    | with_reducible apply OwnKeeps.next
    | ((with_reducible apply Keeps.step (engOp_keeps ..)); focus exact rfl)
    | with_reducible apply Keeps.ite
    | with_reducible apply Keeps.ite_fst
    | with_reducible refine Keeps.foldl _ (fun _ _ => ?_) ?_
    | extract_lets
    | split
    | dsimp only)

theorem execMlkemEncaps_own (job : Nat) (s : State) : OwnKeeps (only [.jobs]) s (execMlkemEncaps job s) := by
  unfold execMlkemEncaps
  repeat' (first
    | with_reducible apply Keeps.refl
    | with_reducible assumption
    | with_reducible exact OwnKeeps.fault
    | with_reducible exact OwnKeeps.refused
    | with_reducible apply OwnKeeps.okFin
    | with_reducible apply OwnKeeps.okCarry
    | with_reducible apply OwnKeeps.okCarryAll
    | with_reducible apply OwnKeeps.nextFin
    | with_reducible apply OwnKeeps.nextCarry
    | with_reducible apply OwnKeeps.nextCarryAll
    | with_reducible apply OwnKeeps.ite
    | with_reducible apply OwnKeeps.ok
    | with_reducible apply OwnKeeps.next
    | ((with_reducible apply Keeps.step (engOp_keeps ..)); focus exact rfl)
    | with_reducible apply Keeps.ite
    | with_reducible apply Keeps.ite_fst
    | with_reducible refine Keeps.foldl _ (fun _ _ => ?_) ?_
    | extract_lets
    | split
    | dsimp only)

theorem execMlkemDecaps_own (job : Nat) (s : State) : OwnKeeps (only [.jobs]) s (execMlkemDecaps job s) := by
  unfold execMlkemDecaps
  repeat' (first
    | with_reducible apply Keeps.refl
    | with_reducible assumption
    | with_reducible exact OwnKeeps.fault
    | with_reducible exact OwnKeeps.refused
    | with_reducible apply OwnKeeps.okFin
    | with_reducible apply OwnKeeps.okCarry
    | with_reducible apply OwnKeeps.okCarryAll
    | with_reducible apply OwnKeeps.nextFin
    | with_reducible apply OwnKeeps.nextCarry
    | with_reducible apply OwnKeeps.nextCarryAll
    | with_reducible apply OwnKeeps.ite
    | with_reducible apply OwnKeeps.ok
    | with_reducible apply OwnKeeps.next
    | ((with_reducible apply Keeps.step (engOp_keeps ..)); focus exact rfl)
    | with_reducible apply Keeps.ite
    | with_reducible apply Keeps.ite_fst
    | with_reducible refine Keeps.foldl _ (fun _ _ => ?_) ?_
    | extract_lets
    | split
    | dsimp only)

theorem execMldsaKeygen_own (job : Nat) (s : State) : OwnKeeps (only [.jobs]) s (execMldsaKeygen job s) := by
  unfold execMldsaKeygen
  repeat' (first
    | with_reducible apply Keeps.refl
    | with_reducible assumption
    | with_reducible exact OwnKeeps.fault
    | with_reducible exact OwnKeeps.refused
    | with_reducible apply OwnKeeps.okFin
    | with_reducible apply OwnKeeps.okCarry
    | with_reducible apply OwnKeeps.okCarryAll
    | with_reducible apply OwnKeeps.nextFin
    | with_reducible apply OwnKeeps.nextCarry
    | with_reducible apply OwnKeeps.nextCarryAll
    | with_reducible apply OwnKeeps.ite
    | with_reducible apply OwnKeeps.ok
    | with_reducible apply OwnKeeps.next
    | ((with_reducible apply Keeps.step (engOp_keeps ..)); focus exact rfl)
    | with_reducible apply Keeps.ite
    | with_reducible apply Keeps.ite_fst
    | with_reducible refine Keeps.foldl _ (fun _ _ => ?_) ?_
    | extract_lets
    | split
    | dsimp only)

theorem execMldsaSign_own (job : Nat) (s : State) : OwnKeeps (only [.jobs]) s (execMldsaSign job s) := by
  unfold execMldsaSign
  repeat' (first
    | with_reducible apply Keeps.refl
    | with_reducible assumption
    | with_reducible exact OwnKeeps.fault
    | with_reducible exact OwnKeeps.refused
    | with_reducible apply OwnKeeps.okFin
    | with_reducible apply OwnKeeps.okCarry
    | with_reducible apply OwnKeeps.okCarryAll
    | with_reducible apply OwnKeeps.nextFin
    | with_reducible apply OwnKeeps.nextCarry
    | with_reducible apply OwnKeeps.nextCarryAll
    | with_reducible apply OwnKeeps.ite
    | with_reducible apply OwnKeeps.ok
    | with_reducible apply OwnKeeps.next
    | ((with_reducible apply Keeps.step (engOp_keeps ..)); focus exact rfl)
    | with_reducible apply Keeps.ite
    | with_reducible apply Keeps.ite_fst
    | with_reducible refine Keeps.foldl _ (fun _ _ => ?_) ?_
    | extract_lets
    | split
    | dsimp only)

theorem execMldsaVerify_own (job : Nat) (s : State) : OwnKeeps (only [.jobs]) s (execMldsaVerify job s) := by
  unfold execMldsaVerify
  repeat' (first
    | with_reducible apply Keeps.refl
    | with_reducible assumption
    | with_reducible exact OwnKeeps.fault
    | with_reducible exact OwnKeeps.refused
    | with_reducible apply OwnKeeps.okFin
    | with_reducible apply OwnKeeps.okCarry
    | with_reducible apply OwnKeeps.okCarryAll
    | with_reducible apply OwnKeeps.nextFin
    | with_reducible apply OwnKeeps.nextCarry
    | with_reducible apply OwnKeeps.nextCarryAll
    | with_reducible apply OwnKeeps.ite
    | with_reducible apply OwnKeeps.ok
    | with_reducible apply OwnKeeps.next
    | ((with_reducible apply Keeps.step (engOp_keeps ..)); focus exact rfl)
    | with_reducible apply Keeps.ite
    | with_reducible apply Keeps.ite_fst
    | with_reducible refine Keeps.foldl _ (fun _ _ => ?_) ?_
    | extract_lets
    | split
    | dsimp only)

theorem execPoly_own (job : Nat) (s : State) : OwnKeeps (only [.jobs]) s (execPoly job s) := by
  unfold execPoly
  repeat' (first
    | with_reducible apply Keeps.refl
    | with_reducible assumption
    | with_reducible exact OwnKeeps.fault
    | with_reducible exact OwnKeeps.refused
    | with_reducible apply OwnKeeps.okFin
    | with_reducible apply OwnKeeps.okCarry
    | with_reducible apply OwnKeeps.okCarryAll
    | with_reducible apply OwnKeeps.nextFin
    | with_reducible apply OwnKeeps.nextCarry
    | with_reducible apply OwnKeeps.nextCarryAll
    | with_reducible apply OwnKeeps.ite
    | with_reducible apply OwnKeeps.ok
    | with_reducible apply OwnKeeps.next
    | ((with_reducible apply Keeps.step (engOp_keeps ..)); focus exact rfl)
    | with_reducible apply Keeps.ite
    | with_reducible apply Keeps.ite_fst
    | with_reducible refine Keeps.foldl _ (fun _ _ => ?_) ?_
    | extract_lets
    | split
    | dsimp only)

theorem execKeyImport_own (job : Nat) (s : State) : OwnKeeps (only [.seats, .jobs, .mem, .buffers, .engines, .keys, .entropy]) s (execKeyImport job s)
    := by
  unfold execKeyImport
  repeat' (first
    | with_reducible apply Keeps.refl
    | with_reducible assumption
    | with_reducible exact OwnKeeps.fault
    | with_reducible exact OwnKeeps.refused
    | with_reducible apply OwnKeeps.okFin
    | with_reducible apply OwnKeeps.okCarry
    | with_reducible apply OwnKeeps.okCarryAll
    | with_reducible apply OwnKeeps.nextFin
    | with_reducible apply OwnKeeps.nextCarry
    | with_reducible apply OwnKeeps.nextCarryAll
    | with_reducible apply OwnKeeps.ite
    | with_reducible apply OwnKeeps.ok
    | with_reducible apply OwnKeeps.next
    | ((with_reducible apply storeOp_keeps); focus exact rfl)
    | with_reducible intro _
    | with_reducible apply Keeps.self
    | with_reducible refine ck_okState ?_ (by assumption)
    | with_reducible refine ck_waits ?_ (by assumption)
    | ((with_reducible apply runImport_ck); focus exact rfl)
    | with_reducible refine ck_any (p := OfState _ _) ?_
    | with_reducible exact ofAny _
    | with_reducible apply ck_ite
    | with_reducible exact CkOk.need
    | with_reducible exact CkOk.fail
    | with_reducible apply ck_ok
    | with_reducible apply ck_pure
    | with_reducible apply CkOk.waits
    | with_reducible refine ck_bindState ?_ (fun _ _ => ?_)
    | with_reducible refine ck_bindPair ?_ (fun _ _ _ => ?_)
    | with_reducible refine ck_bindAny ?_ (fun _ => ?_)
    | with_reducible apply OfState.mk
    | with_reducible apply ofPair
    | with_reducible apply Keeps.ite
    | with_reducible apply Keeps.ite_fst
    | with_reducible refine Keeps.foldl _ (fun _ _ => ?_) ?_
    | extract_lets
    | split
    | dsimp only)

theorem execKeyExport_own (job : Nat) (s : State) : OwnKeeps (only [.seats, .jobs, .mem, .buffers, .engines, .keys, .entropy]) s (execKeyExport job s)
    := by
  unfold execKeyExport
  repeat' (first
    | with_reducible apply Keeps.refl
    | with_reducible assumption
    | with_reducible exact OwnKeeps.fault
    | with_reducible exact OwnKeeps.refused
    | with_reducible apply OwnKeeps.okFin
    | with_reducible apply OwnKeeps.okCarry
    | with_reducible apply OwnKeeps.okCarryAll
    | with_reducible apply OwnKeeps.nextFin
    | with_reducible apply OwnKeeps.nextCarry
    | with_reducible apply OwnKeeps.nextCarryAll
    | with_reducible apply OwnKeeps.ite
    | with_reducible apply OwnKeeps.ok
    | with_reducible apply OwnKeeps.next
    | ((with_reducible apply storeOp_keeps); focus exact rfl)
    | with_reducible intro _
    | with_reducible apply Keeps.self
    | with_reducible refine ck_okState ?_ (by assumption)
    | with_reducible refine ck_waits ?_ (by assumption)
    | ((with_reducible apply runExport_ck); focus exact rfl)
    | with_reducible refine ck_any (p := OfState _ _) ?_
    | with_reducible exact ofAny _
    | with_reducible apply ck_ite
    | with_reducible exact CkOk.need
    | with_reducible exact CkOk.fail
    | with_reducible apply ck_ok
    | with_reducible apply ck_pure
    | with_reducible apply CkOk.waits
    | with_reducible refine ck_bindState ?_ (fun _ _ => ?_)
    | with_reducible refine ck_bindPair ?_ (fun _ _ _ => ?_)
    | with_reducible refine ck_bindAny ?_ (fun _ => ?_)
    | with_reducible apply OfState.mk
    | with_reducible apply ofPair
    | with_reducible apply Keeps.ite
    | with_reducible apply Keeps.ite_fst
    | with_reducible refine Keeps.foldl _ (fun _ _ => ?_) ?_
    | extract_lets
    | split
    | dsimp only)

theorem execKeyGenerate_own (job : Nat) (s : State) : OwnKeeps (only [.seats, .jobs, .mem, .buffers, .engines, .keys, .entropy]) s (execKeyGenerate
    job s) := by
  unfold execKeyGenerate
  repeat' (first
    | with_reducible apply Keeps.refl
    | with_reducible assumption
    | with_reducible exact OwnKeeps.fault
    | with_reducible exact OwnKeeps.refused
    | with_reducible apply OwnKeeps.okFin
    | with_reducible apply OwnKeeps.okCarry
    | with_reducible apply OwnKeeps.okCarryAll
    | with_reducible apply OwnKeeps.nextFin
    | with_reducible apply OwnKeeps.nextCarry
    | with_reducible apply OwnKeeps.nextCarryAll
    | with_reducible apply OwnKeeps.ite
    | with_reducible apply OwnKeeps.ok
    | with_reducible apply OwnKeeps.next
    | ((with_reducible apply storeOp_keeps); focus exact rfl)
    | with_reducible intro _
    | with_reducible apply Keeps.self
    | with_reducible refine ck_okState ?_ (by assumption)
    | with_reducible refine ck_waits ?_ (by assumption)
    | ((with_reducible apply runGenerate_ck); focus exact rfl)
    | with_reducible refine ck_any (p := OfState _ _) ?_
    | with_reducible exact ofAny _
    | with_reducible apply ck_ite
    | with_reducible exact CkOk.need
    | with_reducible exact CkOk.fail
    | with_reducible apply ck_ok
    | with_reducible apply ck_pure
    | with_reducible apply CkOk.waits
    | with_reducible refine ck_bindState ?_ (fun _ _ => ?_)
    | with_reducible refine ck_bindPair ?_ (fun _ _ _ => ?_)
    | with_reducible refine ck_bindAny ?_ (fun _ => ?_)
    | with_reducible apply OfState.mk
    | with_reducible apply ofPair
    | with_reducible apply Keeps.ite
    | with_reducible apply Keeps.ite_fst
    | with_reducible refine Keeps.foldl _ (fun _ _ => ?_) ?_
    | extract_lets
    | split
    | dsimp only)

theorem execKeyDerive_own (job : Nat) (s : State) : OwnKeeps (only [.seats, .jobs, .mem, .buffers, .engines, .keys, .entropy]) s (execKeyDerive job s)
    := by
  unfold execKeyDerive
  repeat' (first
    | with_reducible apply Keeps.refl
    | with_reducible assumption
    | with_reducible exact OwnKeeps.fault
    | with_reducible exact OwnKeeps.refused
    | with_reducible apply OwnKeeps.okFin
    | with_reducible apply OwnKeeps.okCarry
    | with_reducible apply OwnKeeps.okCarryAll
    | with_reducible apply OwnKeeps.nextFin
    | with_reducible apply OwnKeeps.nextCarry
    | with_reducible apply OwnKeeps.nextCarryAll
    | with_reducible apply OwnKeeps.ite
    | with_reducible apply OwnKeeps.ok
    | with_reducible apply OwnKeeps.next
    | ((with_reducible apply storeOp_keeps); focus exact rfl)
    | with_reducible intro _
    | with_reducible apply Keeps.self
    | with_reducible refine ck_okState ?_ (by assumption)
    | with_reducible refine ck_waits ?_ (by assumption)
    | ((with_reducible apply runDerive_ck); focus exact rfl)
    | with_reducible refine ck_any (p := OfState _ _) ?_
    | with_reducible exact ofAny _
    | with_reducible apply ck_ite
    | with_reducible exact CkOk.need
    | with_reducible exact CkOk.fail
    | with_reducible apply ck_ok
    | with_reducible apply ck_pure
    | with_reducible apply CkOk.waits
    | with_reducible refine ck_bindState ?_ (fun _ _ => ?_)
    | with_reducible refine ck_bindPair ?_ (fun _ _ _ => ?_)
    | with_reducible refine ck_bindAny ?_ (fun _ => ?_)
    | with_reducible apply OfState.mk
    | with_reducible apply ofPair
    | with_reducible apply Keeps.ite
    | with_reducible apply Keeps.ite_fst
    | with_reducible refine Keeps.foldl _ (fun _ _ => ?_) ?_
    | extract_lets
    | split
    | dsimp only)

theorem execKeyDelete_own (job : Nat) (s : State) : OwnKeeps (only [.seats, .jobs, .mem, .buffers, .engines, .keys, .entropy]) s (execKeyDelete job s)
    := by
  unfold execKeyDelete
  repeat' (first
    | with_reducible apply Keeps.refl
    | with_reducible assumption
    | with_reducible exact OwnKeeps.fault
    | with_reducible exact OwnKeeps.refused
    | with_reducible apply OwnKeeps.okFin
    | with_reducible apply OwnKeeps.okCarry
    | with_reducible apply OwnKeeps.okCarryAll
    | with_reducible apply OwnKeeps.nextFin
    | with_reducible apply OwnKeeps.nextCarry
    | with_reducible apply OwnKeeps.nextCarryAll
    | with_reducible apply OwnKeeps.ite
    | with_reducible apply OwnKeeps.ok
    | with_reducible apply OwnKeeps.next
    | ((with_reducible apply storeOp_keeps); focus exact rfl)
    | with_reducible intro _
    | with_reducible apply Keeps.self
    | with_reducible refine ck_okState ?_ (by assumption)
    | with_reducible refine ck_waits ?_ (by assumption)
    | ((with_reducible apply runDelete_ck); focus exact rfl)
    | with_reducible refine ck_any (p := OfState _ _) ?_
    | with_reducible exact ofAny _
    | with_reducible apply ck_ite
    | with_reducible exact CkOk.need
    | with_reducible exact CkOk.fail
    | with_reducible apply ck_ok
    | with_reducible apply ck_pure
    | with_reducible apply CkOk.waits
    | with_reducible refine ck_bindState ?_ (fun _ _ => ?_)
    | with_reducible refine ck_bindPair ?_ (fun _ _ _ => ?_)
    | with_reducible refine ck_bindAny ?_ (fun _ => ?_)
    | with_reducible apply OfState.mk
    | with_reducible apply ofPair
    | with_reducible apply Keeps.ite
    | with_reducible apply Keeps.ite_fst
    | with_reducible refine Keeps.foldl _ (fun _ _ => ?_) ?_
    | extract_lets
    | split
    | dsimp only)

theorem execKeyInfo_own (job : Nat) (s : State) : OwnKeeps (only [.seats, .jobs, .mem, .buffers, .engines, .keys, .entropy]) s (execKeyInfo job s) :=
    by
  unfold execKeyInfo
  repeat' (first
    | with_reducible apply Keeps.refl
    | with_reducible assumption
    | with_reducible exact OwnKeeps.fault
    | with_reducible exact OwnKeeps.refused
    | with_reducible apply OwnKeeps.okFin
    | with_reducible apply OwnKeeps.okCarry
    | with_reducible apply OwnKeeps.okCarryAll
    | with_reducible apply OwnKeeps.nextFin
    | with_reducible apply OwnKeeps.nextCarry
    | with_reducible apply OwnKeeps.nextCarryAll
    | with_reducible apply OwnKeeps.ite
    | with_reducible apply OwnKeeps.ok
    | with_reducible apply OwnKeeps.next
    | ((with_reducible apply storeOp_keeps); focus exact rfl)
    | with_reducible intro _
    | with_reducible apply Keeps.self
    | with_reducible refine ck_okState ?_ (by assumption)
    | with_reducible refine ck_waits ?_ (by assumption)
    | ((with_reducible apply runInfo_ck); focus exact rfl)
    | with_reducible refine ck_any (p := OfState _ _) ?_
    | with_reducible exact ofAny _
    | with_reducible apply ck_ite
    | with_reducible exact CkOk.need
    | with_reducible exact CkOk.fail
    | with_reducible apply ck_ok
    | with_reducible apply ck_pure
    | with_reducible apply CkOk.waits
    | with_reducible refine ck_bindState ?_ (fun _ _ => ?_)
    | with_reducible refine ck_bindPair ?_ (fun _ _ _ => ?_)
    | with_reducible refine ck_bindAny ?_ (fun _ => ?_)
    | with_reducible apply OfState.mk
    | with_reducible apply ofPair
    | with_reducible apply Keeps.ite
    | with_reducible apply Keeps.ite_fst
    | with_reducible refine Keeps.foldl _ (fun _ _ => ?_) ?_
    | extract_lets
    | split
    | dsimp only)

theorem execKeyRestrict_own (job : Nat) (s : State) : OwnKeeps (only [.seats, .jobs, .mem, .buffers, .engines, .keys, .entropy]) s (execKeyRestrict
    job s) := by
  unfold execKeyRestrict
  repeat' (first
    | with_reducible apply Keeps.refl
    | with_reducible assumption
    | with_reducible exact OwnKeeps.fault
    | with_reducible exact OwnKeeps.refused
    | with_reducible apply OwnKeeps.okFin
    | with_reducible apply OwnKeeps.okCarry
    | with_reducible apply OwnKeeps.okCarryAll
    | with_reducible apply OwnKeeps.nextFin
    | with_reducible apply OwnKeeps.nextCarry
    | with_reducible apply OwnKeeps.nextCarryAll
    | with_reducible apply OwnKeeps.ite
    | with_reducible apply OwnKeeps.ok
    | with_reducible apply OwnKeeps.next
    | ((with_reducible apply storeOp_keeps); focus exact rfl)
    | with_reducible intro _
    | with_reducible apply Keeps.self
    | with_reducible refine ck_okState ?_ (by assumption)
    | with_reducible refine ck_waits ?_ (by assumption)
    | ((with_reducible apply runRestrict_ck); focus exact rfl)
    | with_reducible refine ck_any (p := OfState _ _) ?_
    | with_reducible exact ofAny _
    | with_reducible apply ck_ite
    | with_reducible exact CkOk.need
    | with_reducible exact CkOk.fail
    | with_reducible apply ck_ok
    | with_reducible apply ck_pure
    | with_reducible apply CkOk.waits
    | with_reducible refine ck_bindState ?_ (fun _ _ => ?_)
    | with_reducible refine ck_bindPair ?_ (fun _ _ _ => ?_)
    | with_reducible refine ck_bindAny ?_ (fun _ => ?_)
    | with_reducible apply OfState.mk
    | with_reducible apply ofPair
    | with_reducible apply Keeps.ite
    | with_reducible apply Keeps.ite_fst
    | with_reducible refine Keeps.foldl _ (fun _ _ => ?_) ?_
    | extract_lets
    | split
    | dsimp only)

theorem execKeyEscrowOut_own (job : Nat) (s : State) : OwnKeeps (only [.seats, .jobs, .mem, .buffers, .engines, .keys, .entropy]) s (execKeyEscrowOut
    job s) := by
  unfold execKeyEscrowOut
  repeat' (first
    | with_reducible apply Keeps.refl
    | with_reducible assumption
    | with_reducible exact OwnKeeps.fault
    | with_reducible exact OwnKeeps.refused
    | with_reducible apply OwnKeeps.okFin
    | with_reducible apply OwnKeeps.okCarry
    | with_reducible apply OwnKeeps.okCarryAll
    | with_reducible apply OwnKeeps.nextFin
    | with_reducible apply OwnKeeps.nextCarry
    | with_reducible apply OwnKeeps.nextCarryAll
    | with_reducible apply OwnKeeps.ite
    | with_reducible apply OwnKeeps.ok
    | with_reducible apply OwnKeeps.next
    | ((with_reducible apply storeOp_keeps); focus exact rfl)
    | with_reducible intro _
    | with_reducible apply Keeps.self
    | with_reducible refine ck_okState ?_ (by assumption)
    | with_reducible refine ck_waits ?_ (by assumption)
    | ((with_reducible apply runEscrowOut_ck); focus exact rfl)
    | with_reducible refine ck_any (p := OfState _ _) ?_
    | with_reducible exact ofAny _
    | with_reducible apply ck_ite
    | with_reducible exact CkOk.need
    | with_reducible exact CkOk.fail
    | with_reducible apply ck_ok
    | with_reducible apply ck_pure
    | with_reducible apply CkOk.waits
    | with_reducible refine ck_bindState ?_ (fun _ _ => ?_)
    | with_reducible refine ck_bindPair ?_ (fun _ _ _ => ?_)
    | with_reducible refine ck_bindAny ?_ (fun _ => ?_)
    | with_reducible apply OfState.mk
    | with_reducible apply ofPair
    | with_reducible apply Keeps.ite
    | with_reducible apply Keeps.ite_fst
    | with_reducible refine Keeps.foldl _ (fun _ _ => ?_) ?_
    | extract_lets
    | split
    | dsimp only)

theorem execKeyEscrowIn_own (job : Nat) (s : State) : OwnKeeps (only [.seats, .jobs, .mem, .buffers, .engines, .keys, .entropy]) s (execKeyEscrowIn
    job s) := by
  unfold execKeyEscrowIn
  repeat' (first
    | with_reducible apply Keeps.refl
    | with_reducible assumption
    | with_reducible exact OwnKeeps.fault
    | with_reducible exact OwnKeeps.refused
    | with_reducible apply OwnKeeps.okFin
    | with_reducible apply OwnKeeps.okCarry
    | with_reducible apply OwnKeeps.okCarryAll
    | with_reducible apply OwnKeeps.nextFin
    | with_reducible apply OwnKeeps.nextCarry
    | with_reducible apply OwnKeeps.nextCarryAll
    | with_reducible apply OwnKeeps.ite
    | with_reducible apply OwnKeeps.ok
    | with_reducible apply OwnKeeps.next
    | ((with_reducible apply storeOp_keeps); focus exact rfl)
    | with_reducible intro _
    | with_reducible apply Keeps.self
    | with_reducible refine ck_okState ?_ (by assumption)
    | with_reducible refine ck_waits ?_ (by assumption)
    | ((with_reducible apply runEscrowIn_ck); focus exact rfl)
    | with_reducible refine ck_any (p := OfState _ _) ?_
    | with_reducible exact ofAny _
    | with_reducible apply ck_ite
    | with_reducible exact CkOk.need
    | with_reducible exact CkOk.fail
    | with_reducible apply ck_ok
    | with_reducible apply ck_pure
    | with_reducible apply CkOk.waits
    | with_reducible refine ck_bindState ?_ (fun _ _ => ?_)
    | with_reducible refine ck_bindPair ?_ (fun _ _ _ => ?_)
    | with_reducible refine ck_bindAny ?_ (fun _ => ?_)
    | with_reducible apply OfState.mk
    | with_reducible apply ofPair
    | with_reducible apply Keeps.ite
    | with_reducible apply Keeps.ite_fst
    | with_reducible refine Keeps.foldl _ (fun _ _ => ?_) ?_
    | extract_lets
    | split
    | dsimp only)

theorem execEraseBwk_own (s : State) : OwnKeeps (only [.alarms, .jobs, .mem, .buffers, .engines, .keys, .prompts]) s (execEraseBwk s) := by
  unfold execEraseBwk
  repeat' (first
    | with_reducible apply Keeps.refl
    | with_reducible assumption
    | with_reducible exact OwnKeeps.fault
    | with_reducible exact OwnKeeps.refused
    | with_reducible apply OwnKeeps.okFin
    | with_reducible apply OwnKeeps.okCarry
    | with_reducible apply OwnKeeps.okCarryAll
    | with_reducible apply OwnKeeps.nextFin
    | with_reducible apply OwnKeeps.nextCarry
    | with_reducible apply OwnKeeps.nextCarryAll
    | with_reducible apply OwnKeeps.ite
    | with_reducible apply OwnKeeps.ok
    | with_reducible apply OwnKeeps.next
    | ((with_reducible apply mgrWrite_keeps); focus exact rfl)
    | ((with_reducible apply Keeps.step (eraseBwk_keeps ..)); focus exact rfl)
    | with_reducible intro _
    | with_reducible apply Keeps.self
    | with_reducible apply Keeps.ite
    | with_reducible apply Keeps.ite_fst
    | with_reducible refine Keeps.foldl _ (fun _ _ => ?_) ?_
    | extract_lets
    | split
    | dsimp only)

theorem execSourceBlock_own (source : Nat) (samples : BitVec 512) (s : State) : OwnKeeps (only [.alarms, .jobs, .mem, .buffers, .engines, .keys,
    .entropy, .prompts]) s (execSourceBlock source samples s) := by
  unfold execSourceBlock
  repeat' (first
    | with_reducible apply Keeps.refl
    | with_reducible assumption
    | with_reducible exact OwnKeeps.fault
    | with_reducible exact OwnKeeps.refused
    | with_reducible apply OwnKeeps.okFin
    | with_reducible apply OwnKeeps.okCarry
    | with_reducible apply OwnKeeps.okCarryAll
    | with_reducible apply OwnKeeps.nextFin
    | with_reducible apply OwnKeeps.nextCarry
    | with_reducible apply OwnKeeps.nextCarryAll
    | with_reducible apply OwnKeeps.ite
    | with_reducible apply OwnKeeps.ok
    | with_reducible apply OwnKeeps.next
    | ((with_reducible apply Keeps.step (sourceBlock_keeps ..)); focus exact rfl)
    | with_reducible apply Keeps.ite
    | with_reducible apply Keeps.ite_fst
    | with_reducible refine Keeps.foldl _ (fun _ _ => ?_) ?_
    | extract_lets
    | split
    | dsimp only)

theorem execSourceRestartDone_own (source : Nat) (s : State) : OwnKeeps (only [.entropy]) s (execSourceRestartDone source s) := by
  unfold execSourceRestartDone
  repeat' (first
    | with_reducible apply Keeps.refl
    | with_reducible assumption
    | with_reducible exact OwnKeeps.fault
    | with_reducible exact OwnKeeps.refused
    | with_reducible apply OwnKeeps.okFin
    | with_reducible apply OwnKeeps.okCarry
    | with_reducible apply OwnKeeps.okCarryAll
    | with_reducible apply OwnKeeps.nextFin
    | with_reducible apply OwnKeeps.nextCarry
    | with_reducible apply OwnKeeps.nextCarryAll
    | with_reducible apply OwnKeeps.ite
    | with_reducible apply OwnKeeps.ok
    | with_reducible apply OwnKeeps.next
    | ((with_reducible apply Keeps.step (restartDone_keeps ..)); focus exact rfl)
    | with_reducible apply Keeps.ite
    | with_reducible apply Keeps.ite_fst
    | with_reducible refine Keeps.foldl _ (fun _ _ => ?_) ?_
    | extract_lets
    | split
    | dsimp only)

theorem execWordDelivery_own (s : State) : OwnKeeps (only [.jobs, .mem, .buffers, .engines, .keys, .entropy, .relay, .cust, .prompts]) s
    (execWordDelivery s) := by
  unfold execWordDelivery
  repeat' (first
    | with_reducible apply Keeps.refl
    | with_reducible assumption
    | with_reducible exact OwnKeeps.fault
    | with_reducible exact OwnKeeps.refused
    | with_reducible apply OwnKeeps.okFin
    | with_reducible apply OwnKeeps.okCarry
    | with_reducible apply OwnKeeps.okCarryAll
    | with_reducible apply OwnKeeps.nextFin
    | with_reducible apply OwnKeeps.nextCarry
    | with_reducible apply OwnKeeps.nextCarryAll
    | with_reducible apply OwnKeeps.ite
    | with_reducible apply OwnKeeps.ok
    | with_reducible apply OwnKeeps.next
    | ((with_reducible apply Keeps.step (cardGo_keeps ..)); focus exact rfl)
    | ((with_reducible apply Keeps.step (tryWants_keeps ..)); focus exact rfl)
    | ((with_reducible apply Keeps.step (wordDelivery_keeps ..)); focus exact rfl)
    | with_reducible apply Keeps.ite
    | with_reducible apply Keeps.ite_fst
    | with_reducible refine Keeps.foldl _ (fun _ _ => ?_) ?_
    | extract_lets
    | split
    | dsimp only)

theorem execReseedDue_own (inst : Nat) (s : State) : OwnKeeps (only [.entropy]) s (execReseedDue inst s) := by
  unfold execReseedDue
  repeat' (first
    | with_reducible apply Keeps.refl
    | with_reducible assumption
    | with_reducible exact OwnKeeps.fault
    | with_reducible exact OwnKeeps.refused
    | with_reducible apply OwnKeeps.okFin
    | with_reducible apply OwnKeeps.okCarry
    | with_reducible apply OwnKeeps.okCarryAll
    | with_reducible apply OwnKeeps.nextFin
    | with_reducible apply OwnKeeps.nextCarry
    | with_reducible apply OwnKeeps.nextCarryAll
    | with_reducible apply OwnKeeps.ite
    | with_reducible apply OwnKeeps.ok
    | with_reducible apply OwnKeeps.next
    | ((with_reducible apply whenDo_keeps); focus exact rfl)
    | ((with_reducible apply Keeps.step (reseedRequest_keeps ..)); focus exact rfl)
    | with_reducible intro _
    | with_reducible apply Keeps.self
    | with_reducible apply Keeps.ite
    | with_reducible apply Keeps.ite_fst
    | with_reducible refine Keeps.foldl _ (fun _ _ => ?_) ?_
    | extract_lets
    | split
    | dsimp only)

theorem execInstHeld_own (inst : Nat) (s : State) : OwnKeeps (only [.entropy]) s (execInstHeld inst s) := by
  unfold execInstHeld
  repeat' (first
    | with_reducible apply Keeps.refl
    | with_reducible assumption
    | with_reducible exact OwnKeeps.fault
    | with_reducible exact OwnKeeps.refused
    | with_reducible apply OwnKeeps.okFin
    | with_reducible apply OwnKeeps.okCarry
    | with_reducible apply OwnKeeps.okCarryAll
    | with_reducible apply OwnKeeps.nextFin
    | with_reducible apply OwnKeeps.nextCarry
    | with_reducible apply OwnKeeps.nextCarryAll
    | with_reducible apply OwnKeeps.ite
    | with_reducible apply OwnKeeps.ok
    | with_reducible apply OwnKeeps.next
    | ((with_reducible apply whenDo_keeps); focus exact rfl)
    | ((with_reducible apply Keeps.step (holdInst_keeps ..)); focus exact rfl)
    | with_reducible intro _
    | with_reducible apply Keeps.self
    | with_reducible apply Keeps.ite
    | with_reducible apply Keeps.ite_fst
    | with_reducible refine Keeps.foldl _ (fun _ _ => ?_) ?_
    | extract_lets
    | split
    | dsimp only)

theorem execSeedingDeadline_own (job : Nat) (s : State) : OwnKeeps (only [.jobs, .mem, .buffers, .engines, .keys]) s (execSeedingDeadline job s) := by
  unfold execSeedingDeadline
  repeat' (first
    | with_reducible apply Keeps.refl
    | with_reducible assumption
    | with_reducible exact OwnKeeps.fault
    | with_reducible exact OwnKeeps.refused
    | with_reducible apply OwnKeeps.okFin
    | with_reducible apply OwnKeeps.okCarry
    | with_reducible apply OwnKeeps.okCarryAll
    | with_reducible apply OwnKeeps.nextFin
    | with_reducible apply OwnKeeps.nextCarry
    | with_reducible apply OwnKeeps.nextCarryAll
    | with_reducible apply OwnKeeps.ite
    | with_reducible apply OwnKeeps.ok
    | with_reducible apply OwnKeeps.next
    | ((with_reducible apply Keeps.step (seedingPass_keeps ..)); focus exact rfl)
    | with_reducible apply Keeps.ite
    | with_reducible apply Keeps.ite_fst
    | with_reducible refine Keeps.foldl _ (fun _ _ => ?_) ?_
    | extract_lets
    | split
    | dsimp only)

theorem execRngGet_own (job : Nat) (s : State) : OwnKeeps (only [.seats, .jobs, .mem, .buffers, .engines, .keys, .entropy]) s (execRngGet job s) := by
  unfold execRngGet
  repeat' (first
    | with_reducible apply Keeps.refl
    | with_reducible assumption
    | with_reducible exact OwnKeeps.fault
    | with_reducible exact OwnKeeps.refused
    | with_reducible apply OwnKeeps.okFin
    | with_reducible apply OwnKeeps.okCarry
    | with_reducible apply OwnKeeps.okCarryAll
    | with_reducible apply OwnKeeps.nextFin
    | with_reducible apply OwnKeeps.nextCarry
    | with_reducible apply OwnKeeps.nextCarryAll
    | with_reducible apply OwnKeeps.ite
    | with_reducible apply OwnKeeps.ok
    | with_reducible apply OwnKeeps.next
    | ((with_reducible apply Keeps.step (rngGet_keeps ..)); focus exact rfl)
    | with_reducible apply Keeps.ite
    | with_reducible apply Keeps.ite_fst
    | with_reducible refine Keeps.foldl _ (fun _ _ => ?_) ?_
    | extract_lets
    | split
    | dsimp only)

theorem execRngReseed_own (job : Nat) (s : State) : OwnKeeps (only [.jobs, .mem, .buffers, .engines, .keys, .entropy]) s (execRngReseed job s) := by
  unfold execRngReseed
  repeat' (first
    | with_reducible apply Keeps.refl
    | with_reducible assumption
    | with_reducible exact OwnKeeps.fault
    | with_reducible exact OwnKeeps.refused
    | with_reducible apply OwnKeeps.okFin
    | with_reducible apply OwnKeeps.okCarry
    | with_reducible apply OwnKeeps.okCarryAll
    | with_reducible apply OwnKeeps.nextFin
    | with_reducible apply OwnKeeps.nextCarry
    | with_reducible apply OwnKeeps.nextCarryAll
    | with_reducible apply OwnKeeps.ite
    | with_reducible apply OwnKeeps.ok
    | with_reducible apply OwnKeeps.next
    | ((with_reducible apply farmOp_keeps); focus exact rfl)
    | ((with_reducible apply Keeps.step (askReseed_keeps ..)); focus exact rfl)
    | with_reducible intro _
    | with_reducible apply Keeps.self
    | with_reducible apply Keeps.ite
    | with_reducible apply Keeps.ite_fst
    | with_reducible refine Keeps.foldl _ (fun _ _ => ?_) ?_
    | extract_lets
    | split
    | dsimp only)

theorem execRngRaw_own (job : Nat) (s : State) : OwnKeeps (only [.jobs, .mem, .buffers, .engines, .keys, .entropy]) s (execRngRaw job s) := by
  unfold execRngRaw
  repeat' (first
    | with_reducible apply Keeps.refl
    | with_reducible assumption
    | with_reducible exact OwnKeeps.fault
    | with_reducible exact OwnKeeps.refused
    | with_reducible apply OwnKeeps.okFin
    | with_reducible apply OwnKeeps.okCarry
    | with_reducible apply OwnKeeps.okCarryAll
    | with_reducible apply OwnKeeps.nextFin
    | with_reducible apply OwnKeeps.nextCarry
    | with_reducible apply OwnKeeps.nextCarryAll
    | with_reducible apply OwnKeeps.ite
    | with_reducible apply OwnKeeps.ok
    | with_reducible apply OwnKeeps.next
    | ((with_reducible apply farmOp_keeps); focus exact rfl)
    | ((with_reducible apply Keeps.step (rawStart_keeps ..)); focus exact rfl)
    | with_reducible intro _
    | with_reducible apply Keeps.self
    | with_reducible apply Keeps.ite
    | with_reducible apply Keeps.ite_fst
    | with_reducible refine Keeps.foldl _ (fun _ _ => ?_) ?_
    | extract_lets
    | split
    | dsimp only)

theorem execEnterRehearsal_own (s : State) : OwnKeeps (only [.alarms, .jobs, .mem, .buffers, .engines, .keys, .entropy, .cust, .prompts]) s
    (execEnterRehearsal s) := by
  unfold execEnterRehearsal
  repeat' (first
    | with_reducible apply Keeps.refl
    | with_reducible assumption
    | with_reducible exact OwnKeeps.fault
    | with_reducible exact OwnKeeps.refused
    | with_reducible apply OwnKeeps.okFin
    | with_reducible apply OwnKeeps.okCarry
    | with_reducible apply OwnKeeps.okCarryAll
    | with_reducible apply OwnKeeps.nextFin
    | with_reducible apply OwnKeeps.nextCarry
    | with_reducible apply OwnKeeps.nextCarryAll
    | with_reducible apply OwnKeeps.ite
    | with_reducible apply OwnKeeps.ok
    | with_reducible apply OwnKeeps.next
    | ((with_reducible apply mgrWrite_keeps); focus exact rfl)
    | ((with_reducible apply Keeps.step (enterRehearsal_keeps ..)); focus exact rfl)
    | with_reducible intro _
    | with_reducible apply Keeps.self
    | with_reducible apply Keeps.ite
    | with_reducible apply Keeps.ite_fst
    | with_reducible refine Keeps.foldl _ (fun _ _ => ?_) ?_
    | extract_lets
    | split
    | dsimp only)

theorem execExitRehearsal_own (s : State) : OwnKeeps (only [.alarms, .jobs, .mem, .buffers, .engines, .keys, .entropy, .prompts]) s (execExitRehearsal
    s) := by
  unfold execExitRehearsal
  repeat' (first
    | with_reducible apply Keeps.refl
    | with_reducible assumption
    | with_reducible exact OwnKeeps.fault
    | with_reducible exact OwnKeeps.refused
    | with_reducible apply OwnKeeps.okFin
    | with_reducible apply OwnKeeps.okCarry
    | with_reducible apply OwnKeeps.okCarryAll
    | with_reducible apply OwnKeeps.nextFin
    | with_reducible apply OwnKeeps.nextCarry
    | with_reducible apply OwnKeeps.nextCarryAll
    | with_reducible apply OwnKeeps.ite
    | with_reducible apply OwnKeeps.ok
    | with_reducible apply OwnKeeps.next
    | ((with_reducible apply mgrWrite_keeps); focus exact rfl)
    | ((with_reducible apply Keeps.step (exitRehearsal_keeps ..)); focus exact rfl)
    | with_reducible intro _
    | with_reducible apply Keeps.self
    | with_reducible apply Keeps.ite
    | with_reducible apply Keeps.ite_fst
    | with_reducible refine Keeps.foldl _ (fun _ _ => ?_) ?_
    | extract_lets
    | split
    | dsimp only)

theorem execRevive_own (mask : Nat) (s : State) : OwnKeeps (only [.alarms, .entropy, .prompts]) s (execRevive mask s) := by
  unfold execRevive
  repeat' (first
    | with_reducible apply Keeps.refl
    | with_reducible assumption
    | with_reducible exact OwnKeeps.fault
    | with_reducible exact OwnKeeps.refused
    | with_reducible apply OwnKeeps.okFin
    | with_reducible apply OwnKeeps.okCarry
    | with_reducible apply OwnKeeps.okCarryAll
    | with_reducible apply OwnKeeps.nextFin
    | with_reducible apply OwnKeeps.nextCarry
    | with_reducible apply OwnKeeps.nextCarryAll
    | with_reducible apply OwnKeeps.ite
    | with_reducible apply OwnKeeps.ok
    | with_reducible apply OwnKeeps.next
    | ((with_reducible apply mgrWrite_keeps); focus exact rfl)
    | ((with_reducible apply Keeps.step (reviveSources_keeps ..)); focus exact rfl)
    | with_reducible intro _
    | with_reducible apply Keeps.self
    | with_reducible apply Keeps.ite
    | with_reducible apply Keeps.ite_fst
    | with_reducible refine Keeps.foldl _ (fun _ _ => ?_) ?_
    | extract_lets
    | split
    | dsimp only)

theorem execClearCounts_own (s : State) : OwnKeeps (only [.alarms, .entropy, .prompts]) s (execClearCounts s) := by
  unfold execClearCounts
  repeat' (first
    | with_reducible apply Keeps.refl
    | with_reducible assumption
    | with_reducible exact OwnKeeps.fault
    | with_reducible exact OwnKeeps.refused
    | with_reducible apply OwnKeeps.okFin
    | with_reducible apply OwnKeeps.okCarry
    | with_reducible apply OwnKeeps.okCarryAll
    | with_reducible apply OwnKeeps.nextFin
    | with_reducible apply OwnKeeps.nextCarry
    | with_reducible apply OwnKeeps.nextCarryAll
    | with_reducible apply OwnKeeps.ite
    | with_reducible apply OwnKeeps.ok
    | with_reducible apply OwnKeeps.next
    | ((with_reducible apply mgrWrite_keeps); focus exact rfl)
    | ((with_reducible apply Keeps.step (clearCounts_keeps ..)); focus exact rfl)
    | with_reducible intro _
    | with_reducible apply Keeps.self
    | with_reducible apply Keeps.ite
    | with_reducible apply Keeps.ite_fst
    | with_reducible refine Keeps.foldl _ (fun _ _ => ?_) ?_
    | extract_lets
    | split
    | dsimp only)

theorem execPacketIn_own (port : Nat) (meta128 : BitVec 128) (bytes : Bytes) (err : Bool) (s : State) : OwnKeeps (only [.seats, .jobs, .nextJob, .mem,
    .place, .buffers, .engines, .keys, .front]) s (execPacketIn port meta128 bytes err s) := by
  unfold execPacketIn
  repeat' (first
    | with_reducible apply Keeps.refl
    | with_reducible assumption
    | with_reducible exact OwnKeeps.fault
    | with_reducible exact OwnKeeps.refused
    | with_reducible apply OwnKeeps.okFin
    | with_reducible apply OwnKeeps.okCarry
    | with_reducible apply OwnKeeps.okCarryAll
    | with_reducible apply OwnKeeps.nextFin
    | with_reducible apply OwnKeeps.nextCarry
    | with_reducible apply OwnKeeps.nextCarryAll
    | with_reducible apply OwnKeeps.ite
    | with_reducible apply OwnKeeps.ok
    | with_reducible apply OwnKeeps.next
    | ((with_reducible apply Keeps.step (packetArrive_keeps ..)); focus exact rfl)
    | with_reducible apply Keeps.ite
    | with_reducible apply Keeps.ite_fst
    | with_reducible refine Keeps.foldl _ (fun _ _ => ?_) ?_
    | extract_lets
    | split
    | dsimp only)

theorem execAssocWrite_own (job : Nat) (s : State) : OwnKeeps (only [.jobs, .mem, .buffers, .engines, .keys, .front]) s (execAssocWrite job s) := by
  unfold execAssocWrite
  repeat' (first
    | with_reducible apply Keeps.refl
    | with_reducible assumption
    | with_reducible exact OwnKeeps.fault
    | with_reducible exact OwnKeeps.refused
    | with_reducible apply OwnKeeps.okFin
    | with_reducible apply OwnKeeps.okCarry
    | with_reducible apply OwnKeeps.okCarryAll
    | with_reducible apply OwnKeeps.nextFin
    | with_reducible apply OwnKeeps.nextCarry
    | with_reducible apply OwnKeeps.nextCarryAll
    | with_reducible apply OwnKeeps.ite
    | with_reducible apply OwnKeeps.ok
    | with_reducible apply OwnKeeps.next
    | ((with_reducible apply Keeps.step (assocJobOp_keeps ..)); focus exact rfl)
    | with_reducible apply Keeps.ite
    | with_reducible apply Keeps.ite_fst
    | with_reducible refine Keeps.foldl _ (fun _ _ => ?_) ?_
    | extract_lets
    | split
    | dsimp only)

theorem execAssocKill_own (job : Nat) (s : State) : OwnKeeps (only [.jobs, .mem, .buffers, .engines, .keys, .front]) s (execAssocKill job s) := by
  unfold execAssocKill
  repeat' (first
    | with_reducible apply Keeps.refl
    | with_reducible assumption
    | with_reducible exact OwnKeeps.fault
    | with_reducible exact OwnKeeps.refused
    | with_reducible apply OwnKeeps.okFin
    | with_reducible apply OwnKeeps.okCarry
    | with_reducible apply OwnKeeps.okCarryAll
    | with_reducible apply OwnKeeps.nextFin
    | with_reducible apply OwnKeeps.nextCarry
    | with_reducible apply OwnKeeps.nextCarryAll
    | with_reducible apply OwnKeeps.ite
    | with_reducible apply OwnKeeps.ok
    | with_reducible apply OwnKeeps.next
    | ((with_reducible apply Keeps.step (assocJobOp_keeps ..)); focus exact rfl)
    | with_reducible apply Keeps.ite
    | with_reducible apply Keeps.ite_fst
    | with_reducible refine Keeps.foldl _ (fun _ _ => ?_) ?_
    | extract_lets
    | split
    | dsimp only)

theorem execNodeWrite_own (off : Nat) (value : W32) (s : State) : OwnKeeps (only [.alarms, .front, .prompts]) s (execNodeWrite off value s) := by
  unfold execNodeWrite
  repeat' (first
    | with_reducible apply Keeps.refl
    | with_reducible assumption
    | with_reducible exact OwnKeeps.fault
    | with_reducible exact OwnKeeps.refused
    | with_reducible apply OwnKeeps.okFin
    | with_reducible apply OwnKeeps.okCarry
    | with_reducible apply OwnKeeps.okCarryAll
    | with_reducible apply OwnKeeps.nextFin
    | with_reducible apply OwnKeeps.nextCarry
    | with_reducible apply OwnKeeps.nextCarryAll
    | with_reducible apply OwnKeeps.ite
    | with_reducible apply OwnKeeps.ok
    | with_reducible apply OwnKeeps.next
    | ((with_reducible apply mgrWrite_keeps); focus exact rfl)
    | ((with_reducible apply Keeps.step (nodePut_keeps ..)); focus exact rfl)
    | with_reducible intro _
    | with_reducible apply Keeps.self
    | with_reducible apply Keeps.ite
    | with_reducible apply Keeps.ite_fst
    | with_reducible refine Keeps.foldl _ (fun _ _ => ?_) ?_
    | extract_lets
    | split
    | dsimp only)

theorem execSwap_own (s : State) : OwnKeeps (only [.alarms, .front, .prompts]) s (execSwap s) := by
  unfold execSwap
  repeat' (first
    | with_reducible apply Keeps.refl
    | with_reducible assumption
    | with_reducible exact OwnKeeps.fault
    | with_reducible exact OwnKeeps.refused
    | with_reducible apply OwnKeeps.okFin
    | with_reducible apply OwnKeeps.okCarry
    | with_reducible apply OwnKeeps.okCarryAll
    | with_reducible apply OwnKeeps.nextFin
    | with_reducible apply OwnKeeps.nextCarry
    | with_reducible apply OwnKeeps.nextCarryAll
    | with_reducible apply OwnKeeps.ite
    | with_reducible apply OwnKeeps.ok
    | with_reducible apply OwnKeeps.next
    | ((with_reducible apply mgrWrite_keeps); focus exact rfl)
    | ((with_reducible apply Keeps.step (swapCmd_keeps ..)); focus exact rfl)
    | with_reducible intro _
    | with_reducible apply Keeps.self
    | with_reducible apply Keeps.ite
    | with_reducible apply Keeps.ite_fst
    | with_reducible refine Keeps.foldl _ (fun _ _ => ?_) ?_
    | extract_lets
    | split
    | dsimp only)

theorem execEpochDrainEnd_own (s : State) : OwnKeeps (only [.front]) s (execEpochDrainEnd s) := by
  unfold execEpochDrainEnd
  repeat' (first
    | with_reducible apply Keeps.refl
    | with_reducible assumption
    | with_reducible exact OwnKeeps.fault
    | with_reducible exact OwnKeeps.refused
    | with_reducible apply OwnKeeps.okFin
    | with_reducible apply OwnKeeps.okCarry
    | with_reducible apply OwnKeeps.okCarryAll
    | with_reducible apply OwnKeeps.nextFin
    | with_reducible apply OwnKeeps.nextCarry
    | with_reducible apply OwnKeeps.nextCarryAll
    | with_reducible apply OwnKeeps.ite
    | with_reducible apply OwnKeeps.ok
    | with_reducible apply OwnKeeps.next
    | ((with_reducible apply whenDo_keeps); focus exact rfl)
    | ((with_reducible apply Keeps.step (drainEnd_keeps ..)); focus exact rfl)
    | with_reducible intro _
    | with_reducible apply Keeps.self
    | with_reducible apply Keeps.ite
    | with_reducible apply Keeps.ite_fst
    | with_reducible refine Keeps.foldl _ (fun _ _ => ?_) ?_
    | extract_lets
    | split
    | dsimp only)

theorem execRehash_own (s : State) : OwnKeeps (only [.alarms, .mem, .front, .prompts]) s (execRehash s) := by
  unfold execRehash
  repeat' (first
    | with_reducible apply Keeps.refl
    | with_reducible assumption
    | with_reducible exact OwnKeeps.fault
    | with_reducible exact OwnKeeps.refused
    | with_reducible apply OwnKeeps.okFin
    | with_reducible apply OwnKeeps.okCarry
    | with_reducible apply OwnKeeps.okCarryAll
    | with_reducible apply OwnKeeps.nextFin
    | with_reducible apply OwnKeeps.nextCarry
    | with_reducible apply OwnKeeps.nextCarryAll
    | with_reducible apply OwnKeeps.ite
    | with_reducible apply OwnKeeps.ok
    | with_reducible apply OwnKeeps.next
    | ((with_reducible apply mgrWrite_keeps); focus exact rfl)
    | ((with_reducible apply Keeps.step (rehashStep_keeps ..)); focus exact rfl)
    | ((with_reducible apply Keeps.step (rehashCmd_keeps ..)); focus exact rfl)
    | with_reducible intro _
    | with_reducible apply Keeps.self
    | with_reducible apply Keeps.ite
    | with_reducible apply Keeps.ite_fst
    | with_reducible refine Keeps.foldl _ (fun _ _ => ?_) ?_
    | extract_lets
    | split
    | dsimp only)

theorem execRehashDone_own (s : State) : OwnKeeps (only [.mem, .front, .prompts]) s (execRehashDone s) := by
  unfold execRehashDone
  repeat' (first
    | with_reducible apply Keeps.refl
    | with_reducible assumption
    | with_reducible exact OwnKeeps.fault
    | with_reducible exact OwnKeeps.refused
    | with_reducible apply OwnKeeps.okFin
    | with_reducible apply OwnKeeps.okCarry
    | with_reducible apply OwnKeeps.okCarryAll
    | with_reducible apply OwnKeeps.nextFin
    | with_reducible apply OwnKeeps.nextCarry
    | with_reducible apply OwnKeeps.nextCarryAll
    | with_reducible apply OwnKeeps.ite
    | with_reducible apply OwnKeeps.ok
    | with_reducible apply OwnKeeps.next
    | ((with_reducible apply whenDo_keeps); focus exact rfl)
    | ((with_reducible apply Keeps.step (rehashEnd_keeps ..)); focus exact rfl)
    | with_reducible intro _
    | with_reducible apply Keeps.self
    | with_reducible apply Keeps.ite
    | with_reducible apply Keeps.ite_fst
    | with_reducible refine Keeps.foldl _ (fun _ _ => ?_) ?_
    | extract_lets
    | split
    | dsimp only)

theorem execPeerAgeVisit_own (bucket : Nat) (s : State) : OwnKeeps (only [.mem, .front]) s (execPeerAgeVisit bucket s) := by
  unfold execPeerAgeVisit
  repeat' (first
    | with_reducible apply Keeps.refl
    | with_reducible assumption
    | with_reducible exact OwnKeeps.fault
    | with_reducible exact OwnKeeps.refused
    | with_reducible apply OwnKeeps.okFin
    | with_reducible apply OwnKeeps.okCarry
    | with_reducible apply OwnKeeps.okCarryAll
    | with_reducible apply OwnKeeps.nextFin
    | with_reducible apply OwnKeeps.nextCarry
    | with_reducible apply OwnKeeps.nextCarryAll
    | with_reducible apply OwnKeeps.ite
    | with_reducible apply OwnKeeps.ok
    | with_reducible apply OwnKeeps.next
    | ((with_reducible apply whenDo_keeps); focus exact rfl)
    | ((with_reducible apply Keeps.step (ageVisit_keeps ..)); focus exact rfl)
    | with_reducible intro _
    | with_reducible apply Keeps.self
    | with_reducible apply Keeps.ite
    | with_reducible apply Keeps.ite_fst
    | with_reducible refine Keeps.foldl _ (fun _ _ => ?_) ?_
    | extract_lets
    | split
    | dsimp only)

theorem execStrangerStsRead_own (seat : Nat) (s : State) : OwnKeeps (only [.seats, .seatRegs]) s (execStrangerStsRead seat s) := by
  unfold execStrangerStsRead
  repeat' (first
    | with_reducible apply Keeps.refl
    | with_reducible assumption
    | with_reducible exact OwnKeeps.fault
    | with_reducible exact OwnKeeps.refused
    | with_reducible apply OwnKeeps.okFin
    | with_reducible apply OwnKeeps.okCarry
    | with_reducible apply OwnKeeps.okCarryAll
    | with_reducible apply OwnKeeps.nextFin
    | with_reducible apply OwnKeeps.nextCarry
    | with_reducible apply OwnKeeps.nextCarryAll
    | with_reducible apply OwnKeeps.ite
    | with_reducible apply OwnKeeps.ok
    | with_reducible apply OwnKeeps.next
    | ((with_reducible apply hregRead_keeps); focus exact rfl)
    | ((with_reducible apply Keeps.step (State.modSeat_keeps ..)); focus exact rfl)
    | ((with_reducible apply Keeps.step (readBack_keeps ..)); focus exact rfl)
    | with_reducible intro _
    | with_reducible apply Keeps.self
    | with_reducible apply Keeps.ite
    | with_reducible apply Keeps.ite_fst
    | with_reducible refine Keeps.foldl _ (fun _ _ => ?_) ?_
    | extract_lets
    | split
    | dsimp only)

theorem execTimePortValue_own (s : State) : OwnKeeps (only [.time]) s (execTimePortValue s) := by
  unfold execTimePortValue
  repeat' (first
    | with_reducible apply Keeps.refl
    | with_reducible assumption
    | with_reducible exact OwnKeeps.fault
    | with_reducible exact OwnKeeps.refused
    | with_reducible apply OwnKeeps.okFin
    | with_reducible apply OwnKeeps.okCarry
    | with_reducible apply OwnKeeps.okCarryAll
    | with_reducible apply OwnKeeps.nextFin
    | with_reducible apply OwnKeeps.nextCarry
    | with_reducible apply OwnKeeps.nextCarryAll
    | with_reducible apply OwnKeeps.ite
    | with_reducible apply OwnKeeps.ok
    | with_reducible apply OwnKeeps.next
    | ((with_reducible apply Keeps.step (portValue_keeps ..)); focus exact rfl)
    | with_reducible apply Keeps.ite
    | with_reducible apply Keeps.ite_fst
    | with_reducible refine Keeps.foldl _ (fun _ _ => ?_) ?_
    | extract_lets
    | split
    | dsimp only)

theorem execPpsRise_own (s : State) : OwnKeeps (only [.time]) s (execPpsRise s) := by
  unfold execPpsRise
  repeat' (first
    | with_reducible apply Keeps.refl
    | with_reducible assumption
    | with_reducible exact OwnKeeps.fault
    | with_reducible exact OwnKeeps.refused
    | with_reducible apply OwnKeeps.okFin
    | with_reducible apply OwnKeeps.okCarry
    | with_reducible apply OwnKeeps.okCarryAll
    | with_reducible apply OwnKeeps.nextFin
    | with_reducible apply OwnKeeps.nextCarry
    | with_reducible apply OwnKeeps.nextCarryAll
    | with_reducible apply OwnKeeps.ite
    | with_reducible apply OwnKeeps.ok
    | with_reducible apply OwnKeeps.next
    | ((with_reducible apply Keeps.step (ppsUp_keeps ..)); focus exact rfl)
    | with_reducible apply Keeps.ite
    | with_reducible apply Keeps.ite_fst
    | with_reducible refine Keeps.foldl _ (fun _ _ => ?_) ?_
    | extract_lets
    | split
    | dsimp only)

theorem execPpsFall_own (s : State) : OwnKeeps (only [.time]) s (execPpsFall s) := by
  unfold execPpsFall
  repeat' (first
    | with_reducible apply Keeps.refl
    | with_reducible assumption
    | with_reducible exact OwnKeeps.fault
    | with_reducible exact OwnKeeps.refused
    | with_reducible apply OwnKeeps.okFin
    | with_reducible apply OwnKeeps.okCarry
    | with_reducible apply OwnKeeps.okCarryAll
    | with_reducible apply OwnKeeps.nextFin
    | with_reducible apply OwnKeeps.nextCarry
    | with_reducible apply OwnKeeps.nextCarryAll
    | with_reducible apply OwnKeeps.ite
    | with_reducible apply OwnKeeps.ok
    | with_reducible apply OwnKeeps.next
    | ((with_reducible apply Keeps.step (ppsDown_keeps ..)); focus exact rfl)
    | with_reducible apply Keeps.ite
    | with_reducible apply Keeps.ite_fst
    | with_reducible refine Keeps.foldl _ (fun _ _ => ?_) ?_
    | extract_lets
    | split
    | dsimp only)

theorem execCaptureEdge_own (n : Nat) (s : State) : OwnKeeps (only [.time, .prompts]) s (execCaptureEdge n s) := by
  unfold execCaptureEdge
  repeat' (first
    | with_reducible apply Keeps.refl
    | with_reducible assumption
    | with_reducible exact OwnKeeps.fault
    | with_reducible exact OwnKeeps.refused
    | with_reducible apply OwnKeeps.okFin
    | with_reducible apply OwnKeeps.okCarry
    | with_reducible apply OwnKeeps.okCarryAll
    | with_reducible apply OwnKeeps.nextFin
    | with_reducible apply OwnKeeps.nextCarry
    | with_reducible apply OwnKeeps.nextCarryAll
    | with_reducible apply OwnKeeps.ite
    | with_reducible apply OwnKeeps.ok
    | with_reducible apply OwnKeeps.next
    | ((with_reducible apply Keeps.step (capEdge_keeps ..)); focus exact rfl)
    | with_reducible apply Keeps.ite
    | with_reducible apply Keeps.ite_fst
    | with_reducible refine Keeps.foldl _ (fun _ _ => ?_) ?_
    | extract_lets
    | split
    | dsimp only)

theorem execCaptureSnapshot_own (n : Nat) (s : State) : OwnKeeps (only [.seatRegs, .time]) s (execCaptureSnapshot n s) := by
  unfold execCaptureSnapshot
  repeat' (first
    | with_reducible apply Keeps.refl
    | with_reducible assumption
    | with_reducible exact OwnKeeps.fault
    | with_reducible exact OwnKeeps.refused
    | with_reducible apply OwnKeeps.okFin
    | with_reducible apply OwnKeeps.okCarry
    | with_reducible apply OwnKeeps.okCarryAll
    | with_reducible apply OwnKeeps.nextFin
    | with_reducible apply OwnKeeps.nextCarry
    | with_reducible apply OwnKeeps.nextCarryAll
    | with_reducible apply OwnKeeps.ite
    | with_reducible apply OwnKeeps.ok
    | with_reducible apply OwnKeeps.next
    | ((with_reducible apply hregRead_keeps); focus exact rfl)
    | ((with_reducible apply Keeps.step (readBack_keeps ..)); focus exact rfl)
    | ((with_reducible apply Keeps.step (State.setCapture_keeps ..)); focus exact rfl)
    | with_reducible intro _
    | with_reducible apply Keeps.self
    | with_reducible apply Keeps.ite
    | with_reducible apply Keeps.ite_fst
    | with_reducible refine Keeps.foldl _ (fun _ _ => ?_) ?_
    | extract_lets
    | split
    | dsimp only)

theorem execNowSnapshot_own (s : State) : OwnKeeps (only [.seatRegs, .time]) s (execNowSnapshot s) := by
  unfold execNowSnapshot
  repeat' (first
    | with_reducible apply Keeps.refl
    | with_reducible assumption
    | with_reducible exact OwnKeeps.fault
    | with_reducible exact OwnKeeps.refused
    | with_reducible apply OwnKeeps.okFin
    | with_reducible apply OwnKeeps.okCarry
    | with_reducible apply OwnKeeps.okCarryAll
    | with_reducible apply OwnKeeps.nextFin
    | with_reducible apply OwnKeeps.nextCarry
    | with_reducible apply OwnKeeps.nextCarryAll
    | with_reducible apply OwnKeeps.ite
    | with_reducible apply OwnKeeps.ok
    | with_reducible apply OwnKeeps.next
    | ((with_reducible apply hregRead_keeps); focus exact rfl)
    | ((with_reducible apply Keeps.step (readBack_keeps ..)); focus exact rfl)
    | with_reducible intro _
    | with_reducible apply Keeps.self
    | with_reducible apply Keeps.ite
    | with_reducible apply Keeps.ite_fst
    | with_reducible refine Keeps.foldl _ (fun _ _ => ?_) ?_
    | extract_lets
    | split
    | dsimp only
    | ((with_reducible apply Keeps.upd) <;> first | exact .inl rfl | exact .inr rfl | skip))

theorem execSecureSnapshot_own (s : State) : OwnKeeps (only [.seatRegs, .time]) s (execSecureSnapshot s) := by
  unfold execSecureSnapshot
  repeat' (first
    | with_reducible apply Keeps.refl
    | with_reducible assumption
    | with_reducible exact OwnKeeps.fault
    | with_reducible exact OwnKeeps.refused
    | with_reducible apply OwnKeeps.okFin
    | with_reducible apply OwnKeeps.okCarry
    | with_reducible apply OwnKeeps.okCarryAll
    | with_reducible apply OwnKeeps.nextFin
    | with_reducible apply OwnKeeps.nextCarry
    | with_reducible apply OwnKeeps.nextCarryAll
    | with_reducible apply OwnKeeps.ite
    | with_reducible apply OwnKeeps.ok
    | with_reducible apply OwnKeeps.next
    | ((with_reducible apply hregRead_keeps); focus exact rfl)
    | ((with_reducible apply Keeps.step (readBack_keeps ..)); focus exact rfl)
    | with_reducible intro _
    | with_reducible apply Keeps.self
    | with_reducible apply Keeps.ite
    | with_reducible apply Keeps.ite_fst
    | with_reducible refine Keeps.foldl _ (fun _ _ => ?_) ?_
    | extract_lets
    | split
    | dsimp only
    | ((with_reducible apply Keeps.upd) <;> first | exact .inl rfl | exact .inr rfl | skip))

theorem execRateWrite_own (value : W32) (s : State) : OwnKeeps (only [.alarms, .time, .prompts]) s (execRateWrite value s) := by
  unfold execRateWrite
  repeat' (first
    | with_reducible apply Keeps.refl
    | with_reducible assumption
    | with_reducible exact OwnKeeps.fault
    | with_reducible exact OwnKeeps.refused
    | with_reducible apply OwnKeeps.okFin
    | with_reducible apply OwnKeeps.okCarry
    | with_reducible apply OwnKeeps.okCarryAll
    | with_reducible apply OwnKeeps.nextFin
    | with_reducible apply OwnKeeps.nextCarry
    | with_reducible apply OwnKeeps.nextCarryAll
    | with_reducible apply OwnKeeps.ite
    | with_reducible apply OwnKeeps.ok
    | with_reducible apply OwnKeeps.next
    | ((with_reducible apply mgrWrite_keeps); focus exact rfl)
    | ((with_reducible apply Keeps.step (rateHi_keeps ..)); focus exact rfl)
    | with_reducible intro _
    | with_reducible apply Keeps.self
    | with_reducible apply Keeps.ite
    | with_reducible apply Keeps.ite_fst
    | with_reducible refine Keeps.foldl _ (fun _ _ => ?_) ?_
    | extract_lets
    | split
    | dsimp only)

theorem execTimeStep_own (frac : BitVec 16) (s : State) : OwnKeeps (only [.alarms, .time, .prompts]) s (execTimeStep frac s) := by
  unfold execTimeStep
  repeat' (first
    | with_reducible apply Keeps.refl
    | with_reducible assumption
    | with_reducible exact OwnKeeps.fault
    | with_reducible exact OwnKeeps.refused
    | with_reducible apply OwnKeeps.okFin
    | with_reducible apply OwnKeeps.okCarry
    | with_reducible apply OwnKeeps.okCarryAll
    | with_reducible apply OwnKeeps.nextFin
    | with_reducible apply OwnKeeps.nextCarry
    | with_reducible apply OwnKeeps.nextCarryAll
    | with_reducible apply OwnKeeps.ite
    | with_reducible apply OwnKeeps.ok
    | with_reducible apply OwnKeeps.next
    | ((with_reducible apply mgrWrite_keeps); focus exact rfl)
    | ((with_reducible apply Keeps.step (stepCmd_keeps ..)); focus exact rfl)
    | with_reducible intro _
    | with_reducible apply Keeps.self
    | with_reducible apply Keeps.ite
    | with_reducible apply Keeps.ite_fst
    | with_reducible refine Keeps.foldl _ (fun _ _ => ?_) ?_
    | extract_lets
    | split
    | dsimp only)

theorem execSlew_own (frac : BitVec 16) (s : State) : OwnKeeps (only [.alarms, .time, .prompts]) s (execSlew frac s) := by
  unfold execSlew
  repeat' (first
    | with_reducible apply Keeps.refl
    | with_reducible assumption
    | with_reducible exact OwnKeeps.fault
    | with_reducible exact OwnKeeps.refused
    | with_reducible apply OwnKeeps.okFin
    | with_reducible apply OwnKeeps.okCarry
    | with_reducible apply OwnKeeps.okCarryAll
    | with_reducible apply OwnKeeps.nextFin
    | with_reducible apply OwnKeeps.nextCarry
    | with_reducible apply OwnKeeps.nextCarryAll
    | with_reducible apply OwnKeeps.ite
    | with_reducible apply OwnKeeps.ok
    | with_reducible apply OwnKeeps.next
    | ((with_reducible apply mgrWrite_keeps); focus exact rfl)
    | ((with_reducible apply Keeps.step (slewCmd_keeps ..)); focus exact rfl)
    | with_reducible intro _
    | with_reducible apply Keeps.self
    | with_reducible apply Keeps.ite
    | with_reducible apply Keeps.ite_fst
    | with_reducible refine Keeps.foldl _ (fun _ _ => ?_) ?_
    | extract_lets
    | split
    | dsimp only)

theorem execCancelSlew_own (s : State) : OwnKeeps (only [.alarms, .time, .prompts]) s (execCancelSlew s) := by
  unfold execCancelSlew
  repeat' (first
    | with_reducible apply Keeps.refl
    | with_reducible assumption
    | with_reducible exact OwnKeeps.fault
    | with_reducible exact OwnKeeps.refused
    | with_reducible apply OwnKeeps.okFin
    | with_reducible apply OwnKeeps.okCarry
    | with_reducible apply OwnKeeps.okCarryAll
    | with_reducible apply OwnKeeps.nextFin
    | with_reducible apply OwnKeeps.nextCarry
    | with_reducible apply OwnKeeps.nextCarryAll
    | with_reducible apply OwnKeeps.ite
    | with_reducible apply OwnKeeps.ok
    | with_reducible apply OwnKeeps.next
    | ((with_reducible apply mgrWrite_keeps); focus exact rfl)
    | ((with_reducible apply Keeps.step (cancelCmd_keeps ..)); focus exact rfl)
    | with_reducible intro _
    | with_reducible apply Keeps.self
    | with_reducible apply Keeps.ite
    | with_reducible apply Keeps.ite_fst
    | with_reducible refine Keeps.foldl _ (fun _ _ => ?_) ?_
    | extract_lets
    | split
    | dsimp only)

theorem execSlewDone_own (s : State) : OwnKeeps (only [.time, .prompts]) s (execSlewDone s) := by
  unfold execSlewDone
  repeat' (first
    | with_reducible apply Keeps.refl
    | with_reducible assumption
    | with_reducible exact OwnKeeps.fault
    | with_reducible exact OwnKeeps.refused
    | with_reducible apply OwnKeeps.okFin
    | with_reducible apply OwnKeeps.okCarry
    | with_reducible apply OwnKeeps.okCarryAll
    | with_reducible apply OwnKeeps.nextFin
    | with_reducible apply OwnKeeps.nextCarry
    | with_reducible apply OwnKeeps.nextCarryAll
    | with_reducible apply OwnKeeps.ite
    | with_reducible apply OwnKeeps.ok
    | with_reducible apply OwnKeeps.next
    | ((with_reducible apply Keeps.step (slewEnd_keeps ..)); focus exact rfl)
    | with_reducible apply Keeps.ite
    | with_reducible apply Keeps.ite_fst
    | with_reducible refine Keeps.foldl _ (fun _ _ => ?_) ?_
    | extract_lets
    | split
    | dsimp only)

theorem execSecAdvance_own (value : W32) (s : State) : OwnKeeps (only [.alarms, .time, .prompts, .freeCount]) s (execSecAdvance value s) := by
  unfold execSecAdvance
  repeat' (first
    | with_reducible apply Keeps.refl
    | with_reducible assumption
    | with_reducible exact OwnKeeps.fault
    | with_reducible exact OwnKeeps.refused
    | with_reducible apply OwnKeeps.okFin
    | with_reducible apply OwnKeeps.okCarry
    | with_reducible apply OwnKeeps.okCarryAll
    | with_reducible apply OwnKeeps.nextFin
    | with_reducible apply OwnKeeps.nextCarry
    | with_reducible apply OwnKeeps.nextCarryAll
    | with_reducible apply OwnKeeps.ite
    | with_reducible apply OwnKeeps.ok
    | with_reducible apply OwnKeeps.next
    | ((with_reducible apply mgrWrite_keeps); focus exact rfl)
    | ((with_reducible apply Keeps.step (secAdv_keeps ..)); focus exact rfl)
    | with_reducible intro _
    | with_reducible apply Keeps.self
    | with_reducible apply Keeps.ite
    | with_reducible apply Keeps.ite_fst
    | with_reducible refine Keeps.foldl _ (fun _ _ => ?_) ?_
    | extract_lets
    | split
    | dsimp only)

theorem execLinkUp_own (side : Side) (s : State) : OwnKeeps (only [.alarms, .jobs, .mem, .buffers, .engines, .keys, .time, .relay, .prompts]) s
    (execLinkUp side s) := by
  unfold execLinkUp
  repeat' (first
    | with_reducible apply Keeps.refl
    | with_reducible assumption
    | with_reducible exact OwnKeeps.fault
    | with_reducible exact OwnKeeps.refused
    | with_reducible apply OwnKeeps.okFin
    | with_reducible apply OwnKeeps.okCarry
    | with_reducible apply OwnKeeps.okCarryAll
    | with_reducible apply OwnKeeps.nextFin
    | with_reducible apply OwnKeeps.nextCarry
    | with_reducible apply OwnKeeps.nextCarryAll
    | with_reducible apply OwnKeeps.ite
    | with_reducible apply OwnKeeps.ok
    | with_reducible apply OwnKeeps.next
    | ((with_reducible apply Keeps.step (linkRise_keeps ..)); focus exact rfl)
    | with_reducible apply Keeps.ite
    | with_reducible apply Keeps.ite_fst
    | with_reducible refine Keeps.foldl _ (fun _ _ => ?_) ?_
    | extract_lets
    | split
    | dsimp only)

theorem execCreditReturn_own (side : Side) (s : State) : OwnKeeps (only [.entropy, .relay]) s (execCreditReturn side s) := by
  unfold execCreditReturn
  repeat' (first
    | with_reducible apply Keeps.refl
    | with_reducible assumption
    | with_reducible exact OwnKeeps.fault
    | with_reducible exact OwnKeeps.refused
    | with_reducible apply OwnKeeps.okFin
    | with_reducible apply OwnKeeps.okCarry
    | with_reducible apply OwnKeeps.okCarryAll
    | with_reducible apply OwnKeeps.nextFin
    | with_reducible apply OwnKeeps.nextCarry
    | with_reducible apply OwnKeeps.nextCarryAll
    | with_reducible apply OwnKeeps.ite
    | with_reducible apply OwnKeeps.ok
    | with_reducible apply OwnKeeps.next
    | ((with_reducible apply Keeps.step (creditIn_keeps ..)); focus exact rfl)
    | with_reducible apply Keeps.ite
    | with_reducible apply Keeps.ite_fst
    | with_reducible refine Keeps.foldl _ (fun _ _ => ?_) ?_
    | extract_lets
    | split
    | dsimp only)

theorem execHopBreak_own (side : HopLoss) (s : State) : OwnKeeps (only [.alarms, .jobs, .mem, .buffers, .engines, .keys, .time, .relay, .prompts]) s
    (execHopBreak side s) := by
  unfold execHopBreak
  repeat' (first
    | with_reducible apply Keeps.refl
    | with_reducible assumption
    | with_reducible exact OwnKeeps.fault
    | with_reducible exact OwnKeeps.refused
    | with_reducible apply OwnKeeps.okFin
    | with_reducible apply OwnKeeps.okCarry
    | with_reducible apply OwnKeeps.okCarryAll
    | with_reducible apply OwnKeeps.nextFin
    | with_reducible apply OwnKeeps.nextCarry
    | with_reducible apply OwnKeeps.nextCarryAll
    | with_reducible apply OwnKeeps.ite
    | with_reducible apply OwnKeeps.ok
    | with_reducible apply OwnKeeps.next
    | ((with_reducible apply whenDo_keeps); focus exact rfl)
    | ((with_reducible apply Keeps.step (linkFall_keeps ..)); focus exact rfl)
    | ((with_reducible apply Keeps.step (breakHop_keeps ..)); focus exact rfl)
    | with_reducible intro _
    | with_reducible apply Keeps.self
    | with_reducible apply Keeps.ite
    | with_reducible apply Keeps.ite_fst
    | with_reducible refine Keeps.foldl _ (fun _ _ => ?_) ?_
    | extract_lets
    | split
    | dsimp only)

theorem execHopSilence_own (side : Side) (s : State) : OwnKeeps (only [.alarms, .jobs, .mem, .buffers, .engines, .keys, .time, .relay, .prompts]) s
    (execHopSilence side s) := by
  unfold execHopSilence
  repeat' (first
    | with_reducible apply Keeps.refl
    | with_reducible assumption
    | with_reducible exact OwnKeeps.fault
    | with_reducible exact OwnKeeps.refused
    | with_reducible apply OwnKeeps.okFin
    | with_reducible apply OwnKeeps.okCarry
    | with_reducible apply OwnKeeps.okCarryAll
    | with_reducible apply OwnKeeps.nextFin
    | with_reducible apply OwnKeeps.nextCarry
    | with_reducible apply OwnKeeps.nextCarryAll
    | with_reducible apply OwnKeeps.ite
    | with_reducible apply OwnKeeps.ok
    | with_reducible apply OwnKeeps.next
    | ((with_reducible apply whenDo_keeps); focus exact rfl)
    | ((with_reducible apply Keeps.step (breakHop_keeps ..)); focus exact rfl)
    | with_reducible intro _
    | with_reducible apply Keeps.self
    | with_reducible apply Keeps.ite
    | with_reducible apply Keeps.ite_fst
    | with_reducible refine Keeps.foldl _ (fun _ _ => ?_) ?_
    | extract_lets
    | split
    | dsimp only)

theorem execHopRekeyDue_own (side : Side) (s : State) : OwnKeeps (only [.entropy, .relay]) s (execHopRekeyDue side s) := by
  unfold execHopRekeyDue
  repeat' (first
    | with_reducible apply Keeps.refl
    | with_reducible assumption
    | with_reducible exact OwnKeeps.fault
    | with_reducible exact OwnKeeps.refused
    | with_reducible apply OwnKeeps.okFin
    | with_reducible apply OwnKeeps.okCarry
    | with_reducible apply OwnKeeps.okCarryAll
    | with_reducible apply OwnKeeps.nextFin
    | with_reducible apply OwnKeeps.nextCarry
    | with_reducible apply OwnKeeps.nextCarryAll
    | with_reducible apply OwnKeeps.ite
    | with_reducible apply OwnKeeps.ok
    | with_reducible apply OwnKeeps.next
    | ((with_reducible apply Keeps.step (rekeyDue_keeps ..)); focus exact rfl)
    | with_reducible apply Keeps.ite
    | with_reducible apply Keeps.ite_fst
    | with_reducible refine Keeps.foldl _ (fun _ _ => ?_) ?_
    | extract_lets
    | split
    | dsimp only)

theorem execHello_own (x25519 : Bytes) (mlkem : Bytes) (phase : Bool) (s : State) : OwnKeeps (only [.entropy, .relay]) s (execHello x25519 mlkem phase
    s) := by
  unfold execHello
  repeat' (first
    | with_reducible apply Keeps.refl
    | with_reducible assumption
    | with_reducible exact OwnKeeps.fault
    | with_reducible exact OwnKeeps.refused
    | with_reducible apply OwnKeeps.okFin
    | with_reducible apply OwnKeeps.okCarry
    | with_reducible apply OwnKeeps.okCarryAll
    | with_reducible apply OwnKeeps.nextFin
    | with_reducible apply OwnKeeps.nextCarry
    | with_reducible apply OwnKeeps.nextCarryAll
    | with_reducible apply OwnKeeps.ite
    | with_reducible apply OwnKeeps.ok
    | with_reducible apply OwnKeeps.next
    | ((with_reducible apply arrive_keeps); focus exact rfl)
    | ((with_reducible apply Keeps.step (takeHello_keeps ..)); focus exact rfl)
    | with_reducible intro _
    | with_reducible apply Keeps.self
    | with_reducible apply Keeps.ite
    | with_reducible apply Keeps.ite_fst
    | with_reducible refine Keeps.foldl _ (fun _ _ => ?_) ?_
    | extract_lets
    | split
    | dsimp only)

theorem execReply_own (x25519 : Bytes) (ciphertext : Bytes) (confirmW : Bytes) (s : State) : OwnKeeps (only [.alarms, .jobs, .mem, .buffers, .engines,
    .keys, .time, .relay, .prompts]) s (execReply x25519 ciphertext confirmW s) := by
  unfold execReply
  repeat' (first
    | with_reducible apply Keeps.refl
    | with_reducible assumption
    | with_reducible exact OwnKeeps.fault
    | with_reducible exact OwnKeeps.refused
    | with_reducible apply OwnKeeps.okFin
    | with_reducible apply OwnKeeps.okCarry
    | with_reducible apply OwnKeeps.okCarryAll
    | with_reducible apply OwnKeeps.nextFin
    | with_reducible apply OwnKeeps.nextCarry
    | with_reducible apply OwnKeeps.nextCarryAll
    | with_reducible apply OwnKeeps.ite
    | with_reducible apply OwnKeeps.ok
    | with_reducible apply OwnKeeps.next
    | ((with_reducible apply arrive_keeps); focus exact rfl)
    | ((with_reducible apply Keeps.step (takeReply_keeps ..)); focus exact rfl)
    | with_reducible intro _
    | with_reducible apply Keeps.self
    | with_reducible apply Keeps.ite
    | with_reducible apply Keeps.ite_fst
    | with_reducible refine Keeps.foldl _ (fun _ _ => ?_) ?_
    | extract_lets
    | split
    | dsimp only)

theorem execConfirm_own (confirmE : Bytes) (s : State) : OwnKeeps (only [.alarms, .jobs, .mem, .buffers, .engines, .keys, .time, .relay, .prompts]) s
    (execConfirm confirmE s) := by
  unfold execConfirm
  repeat' (first
    | with_reducible apply Keeps.refl
    | with_reducible assumption
    | with_reducible exact OwnKeeps.fault
    | with_reducible exact OwnKeeps.refused
    | with_reducible apply OwnKeeps.okFin
    | with_reducible apply OwnKeeps.okCarry
    | with_reducible apply OwnKeeps.okCarryAll
    | with_reducible apply OwnKeeps.nextFin
    | with_reducible apply OwnKeeps.nextCarry
    | with_reducible apply OwnKeeps.nextCarryAll
    | with_reducible apply OwnKeeps.ite
    | with_reducible apply OwnKeeps.ok
    | with_reducible apply OwnKeeps.next
    | ((with_reducible apply arrive_keeps); focus exact rfl)
    | ((with_reducible apply Keeps.step (takeConfirm_keeps ..)); focus exact rfl)
    | with_reducible intro _
    | with_reducible apply Keeps.self
    | with_reducible apply Keeps.ite
    | with_reducible apply Keeps.ite_fst
    | with_reducible refine Keeps.foldl _ (fun _ _ => ?_) ?_
    | extract_lets
    | split
    | dsimp only)

theorem execEcho_own (side : Side) (returned : EchoRx) (roundTripNs : Nat) (s : State) : OwnKeeps (only [.alarms, .jobs, .mem, .buffers, .engines,
    .keys, .time, .relay, .prompts]) s (execEcho side returned roundTripNs s) := by
  unfold execEcho
  repeat' (first
    | with_reducible apply Keeps.refl
    | with_reducible assumption
    | with_reducible exact OwnKeeps.fault
    | with_reducible exact OwnKeeps.refused
    | with_reducible apply OwnKeeps.okFin
    | with_reducible apply OwnKeeps.okCarry
    | with_reducible apply OwnKeeps.okCarryAll
    | with_reducible apply OwnKeeps.nextFin
    | with_reducible apply OwnKeeps.nextCarry
    | with_reducible apply OwnKeeps.nextCarryAll
    | with_reducible apply OwnKeeps.ite
    | with_reducible apply OwnKeeps.ok
    | with_reducible apply OwnKeeps.next
    | ((with_reducible apply receiveHere_keeps); focus exact rfl)
    | ((with_reducible apply Keeps.step (echoHere_keeps ..)); focus exact rfl)
    | with_reducible intro _
    | with_reducible apply Keeps.self
    | with_reducible apply Keeps.ite
    | with_reducible apply Keeps.ite_fst
    | with_reducible refine Keeps.foldl _ (fun _ _ => ?_) ?_
    | extract_lets
    | split
    | dsimp only)

theorem execProbe_own (hop : Hop) (isAnswer : Bool) (formed : Bool) (leader : Nat) (s : State) : OwnKeeps (only [.alarms, .jobs, .mem, .buffers,
    .engines, .keys, .time, .relay, .prompts]) s (execProbe hop isAnswer formed leader s) := by
  unfold execProbe
  repeat' (first
    | with_reducible apply Keeps.refl
    | with_reducible assumption
    | with_reducible exact OwnKeeps.fault
    | with_reducible exact OwnKeeps.refused
    | with_reducible apply OwnKeeps.okFin
    | with_reducible apply OwnKeeps.okCarry
    | with_reducible apply OwnKeeps.okCarryAll
    | with_reducible apply OwnKeeps.nextFin
    | with_reducible apply OwnKeeps.nextCarry
    | with_reducible apply OwnKeeps.nextCarryAll
    | with_reducible apply OwnKeeps.ite
    | with_reducible apply OwnKeeps.ok
    | with_reducible apply OwnKeeps.next
    | ((with_reducible apply Keeps.step (probeIn_keeps ..)); focus exact rfl)
    | with_reducible apply Keeps.ite
    | with_reducible apply Keeps.ite_fst
    | with_reducible refine Keeps.foldl _ (fun _ _ => ?_) ?_
    | extract_lets
    | split
    | dsimp only)

theorem execElectionStart_own (s : State) : OwnKeeps (only [.entropy, .relay]) s (execElectionStart s) := by
  unfold execElectionStart
  repeat' (first
    | with_reducible apply Keeps.refl
    | with_reducible assumption
    | with_reducible exact OwnKeeps.fault
    | with_reducible exact OwnKeeps.refused
    | with_reducible apply OwnKeeps.okFin
    | with_reducible apply OwnKeeps.okCarry
    | with_reducible apply OwnKeeps.okCarryAll
    | with_reducible apply OwnKeeps.nextFin
    | with_reducible apply OwnKeeps.nextCarry
    | with_reducible apply OwnKeeps.nextCarryAll
    | with_reducible apply OwnKeeps.ite
    | with_reducible apply OwnKeeps.ok
    | with_reducible apply OwnKeeps.next
    | ((with_reducible apply Keeps.step (electionStart_keeps ..)); focus exact rfl)
    | with_reducible apply Keeps.ite
    | with_reducible apply Keeps.ite_fst
    | with_reducible refine Keeps.foldl _ (fun _ _ => ?_) ?_
    | extract_lets
    | split
    | dsimp only)

theorem execElect_own (hop : Hop) (identity : Candidate) (s : State) : OwnKeeps (only [.alarms, .jobs, .mem, .buffers, .engines, .keys, .entropy,
    .time, .relay, .prompts]) s (execElect hop identity s) := by
  unfold execElect
  repeat' (first
    | with_reducible apply Keeps.refl
    | with_reducible assumption
    | with_reducible exact OwnKeeps.fault
    | with_reducible exact OwnKeeps.refused
    | with_reducible apply OwnKeeps.okFin
    | with_reducible apply OwnKeeps.okCarry
    | with_reducible apply OwnKeeps.okCarryAll
    | with_reducible apply OwnKeeps.nextFin
    | with_reducible apply OwnKeeps.nextCarry
    | with_reducible apply OwnKeeps.nextCarryAll
    | with_reducible apply OwnKeeps.ite
    | with_reducible apply OwnKeeps.ok
    | with_reducible apply OwnKeeps.next
    | ((with_reducible apply Keeps.step (electIn_keeps ..)); focus exact rfl)
    | with_reducible apply Keeps.ite
    | with_reducible apply Keeps.ite_fst
    | with_reducible refine Keeps.foldl _ (fun _ _ => ?_) ?_
    | extract_lets
    | split
    | dsimp only)

theorem execNumber_own (hop : Hop) (next : Nat) (s : State) : OwnKeeps (only [.alarms, .jobs, .mem, .buffers, .engines, .keys, .time, .relay,
    .prompts]) s (execNumber hop next s) := by
  unfold execNumber
  repeat' (first
    | with_reducible apply Keeps.refl
    | with_reducible assumption
    | with_reducible exact OwnKeeps.fault
    | with_reducible exact OwnKeeps.refused
    | with_reducible apply OwnKeeps.okFin
    | with_reducible apply OwnKeeps.okCarry
    | with_reducible apply OwnKeeps.okCarryAll
    | with_reducible apply OwnKeeps.nextFin
    | with_reducible apply OwnKeeps.nextCarry
    | with_reducible apply OwnKeeps.nextCarryAll
    | with_reducible apply OwnKeeps.ite
    | with_reducible apply OwnKeeps.ok
    | with_reducible apply OwnKeeps.next
    | ((with_reducible apply Keeps.step (numberIn_keeps ..)); focus exact rfl)
    | with_reducible apply Keeps.ite
    | with_reducible apply Keeps.ite_fst
    | with_reducible refine Keeps.foldl _ (fun _ _ => ?_) ?_
    | extract_lets
    | split
    | dsimp only)

theorem execMap_own (hop : Hop) (entries : List MapEntry) (s : State) : OwnKeeps (only [.alarms, .jobs, .mem, .buffers, .engines, .keys, .time,
    .relay, .prompts]) s (execMap hop entries s) := by
  unfold execMap
  repeat' (first
    | with_reducible apply Keeps.refl
    | with_reducible assumption
    | with_reducible exact OwnKeeps.fault
    | with_reducible exact OwnKeeps.refused
    | with_reducible apply OwnKeeps.okFin
    | with_reducible apply OwnKeeps.okCarry
    | with_reducible apply OwnKeeps.okCarryAll
    | with_reducible apply OwnKeeps.nextFin
    | with_reducible apply OwnKeeps.nextCarry
    | with_reducible apply OwnKeeps.nextCarryAll
    | with_reducible apply OwnKeeps.ite
    | with_reducible apply OwnKeeps.ok
    | with_reducible apply OwnKeeps.next
    | ((with_reducible apply Keeps.step (mapIn_keeps ..)); focus exact rfl)
    | with_reducible apply Keeps.ite
    | with_reducible apply Keeps.ite_fst
    | with_reducible refine Keeps.foldl _ (fun _ _ => ?_) ?_
    | extract_lets
    | split
    | dsimp only)

theorem execJoin_own (hop : Hop) (isAnswer : Bool) (refused : Bool) (given : Nat) (sealedRk : Bytes) (rkOk : Bool) (s : State) : OwnKeeps (only
    [.alarms, .jobs, .mem, .buffers, .engines, .keys, .time, .relay, .prompts]) s (execJoin hop isAnswer refused given sealedRk rkOk s) := by
  unfold execJoin
  repeat' (first
    | with_reducible apply Keeps.refl
    | with_reducible assumption
    | with_reducible exact OwnKeeps.fault
    | with_reducible exact OwnKeeps.refused
    | with_reducible apply OwnKeeps.okFin
    | with_reducible apply OwnKeeps.okCarry
    | with_reducible apply OwnKeeps.okCarryAll
    | with_reducible apply OwnKeeps.nextFin
    | with_reducible apply OwnKeeps.nextCarry
    | with_reducible apply OwnKeeps.nextCarryAll
    | with_reducible apply OwnKeeps.ite
    | with_reducible apply OwnKeeps.ok
    | with_reducible apply OwnKeeps.next
    | ((with_reducible apply Keeps.step (joinIn_keeps ..)); focus exact rfl)
    | with_reducible apply Keeps.ite
    | with_reducible apply Keeps.ite_fst
    | with_reducible refine Keeps.foldl _ (fun _ _ => ?_) ?_
    | extract_lets
    | split
    | dsimp only)

theorem execAdv_own (hop : Hop) (starts : List (Nat × Nat)) (floor : Nat) (accepts : Bool) (s : State) : OwnKeeps (only [.alarms, .jobs, .mem, .place,
    .buffers, .engines, .keys, .time, .relay, .prompts]) s (execAdv hop starts floor accepts s) := by
  unfold execAdv
  repeat' (first
    | with_reducible apply Keeps.refl
    | with_reducible assumption
    | with_reducible exact OwnKeeps.fault
    | with_reducible exact OwnKeeps.refused
    | with_reducible apply OwnKeeps.okFin
    | with_reducible apply OwnKeeps.okCarry
    | with_reducible apply OwnKeeps.okCarryAll
    | with_reducible apply OwnKeeps.nextFin
    | with_reducible apply OwnKeeps.nextCarry
    | with_reducible apply OwnKeeps.nextCarryAll
    | with_reducible apply OwnKeeps.ite
    | with_reducible apply OwnKeeps.ok
    | with_reducible apply OwnKeeps.next
    | ((with_reducible apply receive_keeps); focus exact rfl)
    | with_reducible intro _
    | with_reducible apply Keeps.self
    | with_reducible apply Keeps.ite
    | with_reducible apply Keeps.ite_fst
    | with_reducible refine Keeps.foldl _ (fun _ _ => ?_) ?_
    | extract_lets
    | split
    | dsimp only
    | ((with_reducible apply Keeps.upd) <;> first | exact .inl rfl | exact .inr rfl | skip))

theorem execRelayJob_own (hop : Hop) (job : RelayedJob) (s : State) : OwnKeeps (only [.alarms, .jobs, .nextJob, .mem, .place, .buffers, .engines,
    .keys, .time, .relay, .prompts]) s (execRelayJob hop job s) := by
  unfold execRelayJob
  repeat' (first
    | with_reducible apply Keeps.refl
    | with_reducible assumption
    | with_reducible exact OwnKeeps.fault
    | with_reducible exact OwnKeeps.refused
    | with_reducible apply OwnKeeps.okFin
    | with_reducible apply OwnKeeps.okCarry
    | with_reducible apply OwnKeeps.okCarryAll
    | with_reducible apply OwnKeeps.nextFin
    | with_reducible apply OwnKeeps.nextCarry
    | with_reducible apply OwnKeeps.nextCarryAll
    | with_reducible apply OwnKeeps.ite
    | with_reducible apply OwnKeeps.ok
    | with_reducible apply OwnKeeps.next
    | ((with_reducible apply Keeps.step (jobIn_keeps ..)); focus exact rfl)
    | with_reducible apply Keeps.ite
    | with_reducible apply Keeps.ite_fst
    | with_reducible refine Keeps.foldl _ (fun _ _ => ?_) ?_
    | extract_lets
    | split
    | dsimp only)

theorem execRelayDone_own (hop : Hop) (done : RelayedDone) (s : State) : OwnKeeps (only [.alarms, .seats, .jobs, .mem, .buffers, .engines, .keys,
    .time, .relay, .prompts]) s (execRelayDone hop done s) := by
  unfold execRelayDone
  repeat' (first
    | with_reducible apply Keeps.refl
    | with_reducible assumption
    | with_reducible exact OwnKeeps.fault
    | with_reducible exact OwnKeeps.refused
    | with_reducible apply OwnKeeps.okFin
    | with_reducible apply OwnKeeps.okCarry
    | with_reducible apply OwnKeeps.okCarryAll
    | with_reducible apply OwnKeeps.nextFin
    | with_reducible apply OwnKeeps.nextCarry
    | with_reducible apply OwnKeeps.nextCarryAll
    | with_reducible apply OwnKeeps.ite
    | with_reducible apply OwnKeeps.ok
    | with_reducible apply OwnKeeps.next
    | ((with_reducible apply Keeps.step (doneIn_keeps ..)); focus exact rfl)
    | with_reducible apply Keeps.ite
    | with_reducible apply Keeps.ite_fst
    | with_reducible refine Keeps.foldl _ (fun _ _ => ?_) ?_
    | extract_lets
    | split
    | dsimp only)

theorem execRelayCancel_own (hop : Hop) (tags : List Nat) (s : State) : OwnKeeps (only [.alarms, .jobs, .mem, .buffers, .engines, .keys, .time,
    .relay, .prompts]) s (execRelayCancel hop tags s) := by
  unfold execRelayCancel
  repeat' (first
    | with_reducible apply Keeps.refl
    | with_reducible assumption
    | with_reducible exact OwnKeeps.fault
    | with_reducible exact OwnKeeps.refused
    | with_reducible apply OwnKeeps.okFin
    | with_reducible apply OwnKeeps.okCarry
    | with_reducible apply OwnKeeps.okCarryAll
    | with_reducible apply OwnKeeps.nextFin
    | with_reducible apply OwnKeeps.nextCarry
    | with_reducible apply OwnKeeps.nextCarryAll
    | with_reducible apply OwnKeeps.ite
    | with_reducible apply OwnKeeps.ok
    | with_reducible apply OwnKeeps.next
    | ((with_reducible apply receive_keeps); focus exact rfl)
    | ((with_reducible apply Keeps.step (dropOrigin_keeps ..)); focus exact rfl)
    | with_reducible intro _
    | with_reducible apply Keeps.self
    | with_reducible apply Keeps.ite
    | with_reducible apply Keeps.ite_fst
    | with_reducible refine Keeps.foldl _ (fun _ _ => ?_) ?_
    | extract_lets
    | split
    | dsimp only)

theorem execRelayAlarm_own (hop : Hop) (member : Nat) (s : State) : OwnKeeps (only [.alarms, .jobs, .mem, .place, .buffers, .engines, .keys, .time,
    .relay, .prompts]) s (execRelayAlarm hop member s) := by
  unfold execRelayAlarm
  repeat' (first
    | with_reducible apply Keeps.refl
    | with_reducible assumption
    | with_reducible exact OwnKeeps.fault
    | with_reducible exact OwnKeeps.refused
    | with_reducible apply OwnKeeps.okFin
    | with_reducible apply OwnKeeps.okCarry
    | with_reducible apply OwnKeeps.okCarryAll
    | with_reducible apply OwnKeeps.nextFin
    | with_reducible apply OwnKeeps.nextCarry
    | with_reducible apply OwnKeeps.nextCarryAll
    | with_reducible apply OwnKeeps.ite
    | with_reducible apply OwnKeeps.ok
    | with_reducible apply OwnKeeps.next
    | ((with_reducible apply receive_keeps); focus exact rfl)
    | ((with_reducible apply Keeps.step (memberAlarm_keeps ..)); focus exact rfl)
    | with_reducible intro _
    | with_reducible apply Keeps.self
    | with_reducible apply Keeps.ite
    | with_reducible apply Keeps.ite_fst
    | with_reducible refine Keeps.foldl _ (fun _ _ => ?_) ?_
    | extract_lets
    | split
    | dsimp only)

theorem execRelayBreak_own (hop : Hop) (position : Nat) (s : State) : OwnKeeps (only [.alarms, .jobs, .mem, .buffers, .engines, .keys, .time, .relay,
    .prompts]) s (execRelayBreak hop position s) := by
  unfold execRelayBreak
  repeat' (first
    | with_reducible apply Keeps.refl
    | with_reducible assumption
    | with_reducible exact OwnKeeps.fault
    | with_reducible exact OwnKeeps.refused
    | with_reducible apply OwnKeeps.okFin
    | with_reducible apply OwnKeeps.okCarry
    | with_reducible apply OwnKeeps.okCarryAll
    | with_reducible apply OwnKeeps.nextFin
    | with_reducible apply OwnKeeps.nextCarry
    | with_reducible apply OwnKeeps.nextCarryAll
    | with_reducible apply OwnKeeps.ite
    | with_reducible apply OwnKeeps.ok
    | with_reducible apply OwnKeeps.next
    | ((with_reducible apply receive_keeps); focus exact rfl)
    | ((with_reducible apply Keeps.step (onBreak_keeps ..)); focus exact rfl)
    | with_reducible intro _
    | with_reducible apply Keeps.self
    | with_reducible apply Keeps.ite
    | with_reducible apply Keeps.ite_fst
    | with_reducible refine Keeps.foldl _ (fun _ _ => ?_) ?_
    | extract_lets
    | split
    | dsimp only)

theorem execTimeSend_own (s : State) : OwnKeeps (only [.time, .relay]) s (execTimeSend s) := by
  unfold execTimeSend
  repeat' (first
    | with_reducible apply Keeps.refl
    | with_reducible assumption
    | with_reducible exact OwnKeeps.fault
    | with_reducible exact OwnKeeps.refused
    | with_reducible apply OwnKeeps.okFin
    | with_reducible apply OwnKeeps.okCarry
    | with_reducible apply OwnKeeps.okCarryAll
    | with_reducible apply OwnKeeps.nextFin
    | with_reducible apply OwnKeeps.nextCarry
    | with_reducible apply OwnKeeps.nextCarryAll
    | with_reducible apply OwnKeeps.ite
    | with_reducible apply OwnKeeps.ok
    | with_reducible apply OwnKeeps.next
    | ((with_reducible apply Keeps.step (timeSend_keeps ..)); focus exact rfl)
    | with_reducible apply Keeps.ite
    | with_reducible apply Keeps.ite_fst
    | with_reducible refine Keeps.foldl _ (fun _ _ => ?_) ?_
    | extract_lets
    | split
    | dsimp only)

theorem execTime_own (hop : Hop) (value : Stamp) (insideNs : Nat) (s : State) : OwnKeeps (only [.alarms, .jobs, .mem, .buffers, .engines, .keys,
    .time, .relay, .prompts, .freeCount]) s (execTime hop value insideNs s) := by
  unfold execTime
  repeat' (first
    | with_reducible apply Keeps.refl
    | with_reducible assumption
    | with_reducible exact OwnKeeps.fault
    | with_reducible exact OwnKeeps.refused
    | with_reducible apply OwnKeeps.okFin
    | with_reducible apply OwnKeeps.okCarry
    | with_reducible apply OwnKeeps.okCarryAll
    | with_reducible apply OwnKeeps.nextFin
    | with_reducible apply OwnKeeps.nextCarry
    | with_reducible apply OwnKeeps.nextCarryAll
    | with_reducible apply OwnKeeps.ite
    | with_reducible apply OwnKeeps.ok
    | with_reducible apply OwnKeeps.next
    | ((with_reducible apply Keeps.step (timeIn_keeps ..)); focus exact rfl)
    | with_reducible apply Keeps.ite
    | with_reducible apply Keeps.ite_fst
    | with_reducible refine Keeps.foldl _ (fun _ _ => ?_) ?_
    | extract_lets
    | split
    | dsimp only)

theorem execTimeLoss_own (s : State) : OwnKeeps (only [.relay]) s (execTimeLoss s) := by
  unfold execTimeLoss
  repeat' (first
    | with_reducible apply Keeps.refl
    | with_reducible assumption
    | with_reducible exact OwnKeeps.fault
    | with_reducible exact OwnKeeps.refused
    | with_reducible apply OwnKeeps.okFin
    | with_reducible apply OwnKeeps.okCarry
    | with_reducible apply OwnKeeps.okCarryAll
    | with_reducible apply OwnKeeps.nextFin
    | with_reducible apply OwnKeeps.nextCarry
    | with_reducible apply OwnKeeps.nextCarryAll
    | with_reducible apply OwnKeeps.ite
    | with_reducible apply OwnKeeps.ok
    | with_reducible apply OwnKeeps.next
    | ((with_reducible apply Keeps.step (timeLoss_keeps ..)); focus exact rfl)
    | with_reducible apply Keeps.ite
    | with_reducible apply Keeps.ite_fst
    | with_reducible refine Keeps.foldl _ (fun _ _ => ?_) ?_
    | extract_lets
    | split
    | dsimp only)

theorem execMailSend_own (value : W32) (s : State) : OwnKeeps (only [.alarms, .mem, .relay, .prompts]) s (execMailSend value s) := by
  unfold execMailSend
  repeat' (first
    | with_reducible apply Keeps.refl
    | with_reducible assumption
    | with_reducible exact OwnKeeps.fault
    | with_reducible exact OwnKeeps.refused
    | with_reducible apply OwnKeeps.okFin
    | with_reducible apply OwnKeeps.okCarry
    | with_reducible apply OwnKeeps.okCarryAll
    | with_reducible apply OwnKeeps.nextFin
    | with_reducible apply OwnKeeps.nextCarry
    | with_reducible apply OwnKeeps.nextCarryAll
    | with_reducible apply OwnKeeps.ite
    | with_reducible apply OwnKeeps.ok
    | with_reducible apply OwnKeeps.next
    | ((with_reducible apply mgrWrite_keeps); focus exact rfl)
    | ((with_reducible apply Keeps.step (mailCmd_keeps ..)); focus exact rfl)
    | with_reducible intro _
    | with_reducible apply Keeps.self
    | with_reducible apply Keeps.ite
    | with_reducible apply Keeps.ite_fst
    | with_reducible refine Keeps.foldl _ (fun _ _ => ?_) ?_
    | extract_lets
    | split
    | dsimp only)

theorem execMail_own (hop : Hop) (total : Nat) (offset : Nat) (part : Bytes) (final : Bool) (s : State) : OwnKeeps (only [.alarms, .jobs, .mem,
    .buffers, .engines, .keys, .time, .relay, .prompts]) s (execMail hop total offset part final s) := by
  unfold execMail
  repeat' (first
    | with_reducible apply Keeps.refl
    | with_reducible assumption
    | with_reducible exact OwnKeeps.fault
    | with_reducible exact OwnKeeps.refused
    | with_reducible apply OwnKeeps.okFin
    | with_reducible apply OwnKeeps.okCarry
    | with_reducible apply OwnKeeps.okCarryAll
    | with_reducible apply OwnKeeps.nextFin
    | with_reducible apply OwnKeeps.nextCarry
    | with_reducible apply OwnKeeps.nextCarryAll
    | with_reducible apply OwnKeeps.ite
    | with_reducible apply OwnKeeps.ok
    | with_reducible apply OwnKeeps.next
    | ((with_reducible apply Keeps.step (mailIn_keeps ..)); focus exact rfl)
    | with_reducible apply Keeps.ite
    | with_reducible apply Keeps.ite_fst
    | with_reducible refine Keeps.foldl _ (fun _ _ => ?_) ?_
    | extract_lets
    | split
    | dsimp only)

theorem execInboxRelease_own (value : W32) (s : State) : OwnKeeps (only [.alarms, .relay, .prompts]) s (execInboxRelease value s) := by
  unfold execInboxRelease
  repeat' (first
    | with_reducible apply Keeps.refl
    | with_reducible assumption
    | with_reducible exact OwnKeeps.fault
    | with_reducible exact OwnKeeps.refused
    | with_reducible apply OwnKeeps.okFin
    | with_reducible apply OwnKeeps.okCarry
    | with_reducible apply OwnKeeps.okCarryAll
    | with_reducible apply OwnKeeps.nextFin
    | with_reducible apply OwnKeeps.nextCarry
    | with_reducible apply OwnKeeps.nextCarryAll
    | with_reducible apply OwnKeeps.ite
    | with_reducible apply OwnKeeps.ok
    | with_reducible apply OwnKeeps.next
    | ((with_reducible apply mgrWrite_keeps); focus exact rfl)
    | ((with_reducible apply Keeps.step (inboxFree_keeps ..)); focus exact rfl)
    | with_reducible intro _
    | with_reducible apply Keeps.self
    | with_reducible apply Keeps.ite
    | with_reducible apply Keeps.ite_fst
    | with_reducible refine Keeps.foldl _ (fun _ _ => ?_) ?_
    | extract_lets
    | split
    | dsimp only)

theorem execCardInsert_own (s : State) : OwnKeeps (only [.start, .cust]) s (execCardInsert s) := by
  unfold execCardInsert
  repeat' (first
    | with_reducible apply Keeps.refl
    | with_reducible assumption
    | with_reducible exact OwnKeeps.fault
    | with_reducible exact OwnKeeps.refused
    | with_reducible apply OwnKeeps.okFin
    | with_reducible apply OwnKeeps.okCarry
    | with_reducible apply OwnKeeps.okCarryAll
    | with_reducible apply OwnKeeps.nextFin
    | with_reducible apply OwnKeeps.nextCarry
    | with_reducible apply OwnKeeps.nextCarryAll
    | with_reducible apply OwnKeeps.ite
    | with_reducible apply OwnKeeps.ok
    | with_reducible apply OwnKeeps.next
    | ((with_reducible apply whenDo_keeps); focus exact rfl)
    | ((with_reducible apply Keeps.step (State.modCust_keeps ..)); focus exact rfl)
    | with_reducible intro _
    | with_reducible apply Keeps.self
    | with_reducible apply Keeps.ite
    | with_reducible apply Keeps.ite_fst
    | with_reducible refine Keeps.foldl _ (fun _ _ => ?_) ?_
    | extract_lets
    | split
    | dsimp only
    | ((with_reducible apply Keeps.upd) <;> first | exact .inl rfl | exact .inr rfl | skip))

theorem execCardDebounce_own (s : State) : OwnKeeps (only [.cust]) s (execCardDebounce s) := by
  unfold execCardDebounce
  repeat' (first
    | with_reducible apply Keeps.refl
    | with_reducible assumption
    | with_reducible exact OwnKeeps.fault
    | with_reducible exact OwnKeeps.refused
    | with_reducible apply OwnKeeps.okFin
    | with_reducible apply OwnKeeps.okCarry
    | with_reducible apply OwnKeeps.okCarryAll
    | with_reducible apply OwnKeeps.nextFin
    | with_reducible apply OwnKeeps.nextCarry
    | with_reducible apply OwnKeeps.nextCarryAll
    | with_reducible apply OwnKeeps.ite
    | with_reducible apply OwnKeeps.ok
    | with_reducible apply OwnKeeps.next
    | ((with_reducible apply whenDo_keeps); focus exact rfl)
    | ((with_reducible apply Keeps.step (State.modCust_keeps ..)); focus exact rfl)
    | ((with_reducible apply Keeps.step (cardActivate_keeps ..)); focus exact rfl)
    | with_reducible intro _
    | with_reducible apply Keeps.self
    | with_reducible apply Keeps.ite
    | with_reducible apply Keeps.ite_fst
    | with_reducible refine Keeps.foldl _ (fun _ _ => ?_) ?_
    | extract_lets
    | split
    | dsimp only)

theorem execCardRemoval_own (s : State) : OwnKeeps (only [.jobs, .mem, .buffers, .engines, .keys, .entropy, .cust, .prompts]) s (execCardRemoval s) :=
    by
  unfold execCardRemoval
  repeat' (first
    | with_reducible apply Keeps.refl
    | with_reducible assumption
    | with_reducible exact OwnKeeps.fault
    | with_reducible exact OwnKeeps.refused
    | with_reducible apply OwnKeeps.okFin
    | with_reducible apply OwnKeeps.okCarry
    | with_reducible apply OwnKeeps.okCarryAll
    | with_reducible apply OwnKeeps.nextFin
    | with_reducible apply OwnKeeps.nextCarry
    | with_reducible apply OwnKeeps.nextCarryAll
    | with_reducible apply OwnKeeps.ite
    | with_reducible apply OwnKeeps.ok
    | with_reducible apply OwnKeeps.next
    | ((with_reducible apply whenDo_keeps); focus exact rfl)
    | ((with_reducible apply Keeps.step (cardRemove_keeps ..)); focus exact rfl)
    | with_reducible intro _
    | with_reducible apply Keeps.self
    | with_reducible apply Keeps.ite
    | with_reducible apply Keeps.ite_fst
    | with_reducible refine Keeps.foldl _ (fun _ _ => ?_) ?_
    | extract_lets
    | split
    | dsimp only)

theorem execActivationSupplyTimer_own (s : State) : OwnKeeps (only [.cust]) s (execActivationSupplyTimer s) := by
  unfold execActivationSupplyTimer
  repeat' (first
    | with_reducible apply Keeps.refl
    | with_reducible assumption
    | with_reducible exact OwnKeeps.fault
    | with_reducible exact OwnKeeps.refused
    | with_reducible apply OwnKeeps.okFin
    | with_reducible apply OwnKeeps.okCarry
    | with_reducible apply OwnKeeps.okCarryAll
    | with_reducible apply OwnKeeps.nextFin
    | with_reducible apply OwnKeeps.nextCarry
    | with_reducible apply OwnKeeps.nextCarryAll
    | with_reducible apply OwnKeeps.ite
    | with_reducible apply OwnKeeps.ok
    | with_reducible apply OwnKeeps.next
    | ((with_reducible apply whenDo_keeps); focus exact rfl)
    | ((with_reducible apply Keeps.step (State.modCust_keeps ..)); focus exact rfl)
    | with_reducible intro _
    | with_reducible apply Keeps.self
    | with_reducible apply Keeps.ite
    | with_reducible apply Keeps.ite_fst
    | with_reducible refine Keeps.foldl _ (fun _ _ => ?_) ?_
    | extract_lets
    | split
    | dsimp only)

theorem execAnswerToReset_own (atr : Atr) (s : State) : OwnKeeps (only [.cust, .prompts]) s (execAnswerToReset atr s) := by
  unfold execAnswerToReset
  repeat' (first
    | with_reducible apply Keeps.refl
    | with_reducible assumption
    | with_reducible exact OwnKeeps.fault
    | with_reducible exact OwnKeeps.refused
    | with_reducible apply OwnKeeps.okFin
    | with_reducible apply OwnKeeps.okCarry
    | with_reducible apply OwnKeeps.okCarryAll
    | with_reducible apply OwnKeeps.nextFin
    | with_reducible apply OwnKeeps.nextCarry
    | with_reducible apply OwnKeeps.nextCarryAll
    | with_reducible apply OwnKeeps.ite
    | with_reducible apply OwnKeeps.ok
    | with_reducible apply OwnKeeps.next
    | ((with_reducible apply whenDo_keeps); focus exact rfl)
    | ((with_reducible apply Keeps.step (atrIn_keeps ..)); focus exact rfl)
    | with_reducible intro _
    | with_reducible apply Keeps.self
    | with_reducible apply Keeps.ite
    | with_reducible apply Keeps.ite_fst
    | with_reducible refine Keeps.foldl _ (fun _ _ => ?_) ?_
    | extract_lets
    | split
    | dsimp only)

theorem execPpsEcho_own (echoed : Bytes) (s : State) : OwnKeeps (only [.cust, .prompts]) s (execPpsEcho echoed s) := by
  unfold execPpsEcho
  repeat' (first
    | with_reducible apply Keeps.refl
    | with_reducible assumption
    | with_reducible exact OwnKeeps.fault
    | with_reducible exact OwnKeeps.refused
    | with_reducible apply OwnKeeps.okFin
    | with_reducible apply OwnKeeps.okCarry
    | with_reducible apply OwnKeeps.okCarryAll
    | with_reducible apply OwnKeeps.nextFin
    | with_reducible apply OwnKeeps.nextCarry
    | with_reducible apply OwnKeeps.nextCarryAll
    | with_reducible apply OwnKeeps.ite
    | with_reducible apply OwnKeeps.ok
    | with_reducible apply OwnKeeps.next
    | ((with_reducible apply whenDo_keeps); focus exact rfl)
    | ((with_reducible apply Keeps.step (ppsIn_keeps ..)); focus exact rfl)
    | with_reducible intro _
    | with_reducible apply Keeps.self
    | with_reducible apply Keeps.ite
    | with_reducible apply Keeps.ite_fst
    | with_reducible refine Keeps.foldl _ (fun _ _ => ?_) ?_
    | extract_lets
    | split
    | dsimp only)

theorem execReactivationWait_own (s : State) : OwnKeeps (only [.cust]) s (execReactivationWait s) := by
  unfold execReactivationWait
  repeat' (first
    | with_reducible apply Keeps.refl
    | with_reducible assumption
    | with_reducible exact OwnKeeps.fault
    | with_reducible exact OwnKeeps.refused
    | with_reducible apply OwnKeeps.okFin
    | with_reducible apply OwnKeeps.okCarry
    | with_reducible apply OwnKeeps.okCarryAll
    | with_reducible apply OwnKeeps.nextFin
    | with_reducible apply OwnKeeps.nextCarry
    | with_reducible apply OwnKeeps.nextCarryAll
    | with_reducible apply OwnKeeps.ite
    | with_reducible apply OwnKeeps.ok
    | with_reducible apply OwnKeeps.next
    | ((with_reducible apply whenDo_keeps); focus exact rfl)
    | ((with_reducible apply Keeps.step (cardActivate_keeps ..)); focus exact rfl)
    | with_reducible intro _
    | with_reducible apply Keeps.self
    | with_reducible apply Keeps.ite
    | with_reducible apply Keeps.ite_fst
    | with_reducible refine Keeps.foldl _ (fun _ _ => ?_) ?_
    | extract_lets
    | split
    | dsimp only)

theorem execConditionQuery_own (s : State) : OwnKeeps (only [.cust]) s (execConditionQuery s) := by
  unfold execConditionQuery
  repeat' (first
    | with_reducible apply Keeps.refl
    | with_reducible assumption
    | with_reducible exact OwnKeeps.fault
    | with_reducible exact OwnKeeps.refused
    | with_reducible apply OwnKeeps.okFin
    | with_reducible apply OwnKeeps.okCarry
    | with_reducible apply OwnKeeps.okCarryAll
    | with_reducible apply OwnKeeps.nextFin
    | with_reducible apply OwnKeeps.nextCarry
    | with_reducible apply OwnKeeps.nextCarryAll
    | with_reducible apply OwnKeeps.ite
    | with_reducible apply OwnKeeps.ok
    | with_reducible apply OwnKeeps.next
    | ((with_reducible apply whenDo_keeps); focus exact rfl)
    | ((with_reducible apply Keeps.step (startApdu_keeps ..)); focus exact rfl)
    | ((with_reducible apply Keeps.step (State.modCust_keeps ..)); focus exact rfl)
    | with_reducible intro _
    | with_reducible apply Keeps.self
    | with_reducible apply Keeps.ite
    | with_reducible apply Keeps.ite_fst
    | with_reducible refine Keeps.foldl _ (fun _ _ => ?_) ?_
    | extract_lets
    | split
    | dsimp only)

theorem execReadyMaxExpiry_own (s : State) : OwnKeeps (only [.cust, .prompts]) s (execReadyMaxExpiry s) := by
  unfold execReadyMaxExpiry
  repeat' (first
    | with_reducible apply Keeps.refl
    | with_reducible assumption
    | with_reducible exact OwnKeeps.fault
    | with_reducible exact OwnKeeps.refused
    | with_reducible apply OwnKeeps.okFin
    | with_reducible apply OwnKeeps.okCarry
    | with_reducible apply OwnKeeps.okCarryAll
    | with_reducible apply OwnKeeps.nextFin
    | with_reducible apply OwnKeeps.nextCarry
    | with_reducible apply OwnKeeps.nextCarryAll
    | with_reducible apply OwnKeeps.ite
    | with_reducible apply OwnKeeps.ok
    | with_reducible apply OwnKeeps.next
    | ((with_reducible apply whenDo_keeps); focus exact rfl)
    | ((with_reducible apply Keeps.step (cardFailed_keeps ..)); focus exact rfl)
    | ((with_reducible apply Keeps.step (cardOff_keeps ..)); focus exact rfl)
    | with_reducible intro _
    | with_reducible apply Keeps.self
    | with_reducible apply Keeps.ite
    | with_reducible apply Keeps.ite_fst
    | with_reducible refine Keeps.foldl _ (fun _ _ => ?_) ?_
    | extract_lets
    | split
    | dsimp only)

theorem execT1BlockRx_own (block : CardBlock) (s : State) : OwnKeeps (only [.keys, .entropy, .cust, .prompts]) s (execT1BlockRx block s) := by
  unfold execT1BlockRx
  repeat' (first
    | with_reducible apply Keeps.refl
    | with_reducible assumption
    | with_reducible exact OwnKeeps.fault
    | with_reducible exact OwnKeeps.refused
    | with_reducible apply OwnKeeps.okFin
    | with_reducible apply OwnKeeps.okCarry
    | with_reducible apply OwnKeeps.okCarryAll
    | with_reducible apply OwnKeeps.nextFin
    | with_reducible apply OwnKeeps.nextCarry
    | with_reducible apply OwnKeeps.nextCarryAll
    | with_reducible apply OwnKeeps.ite
    | with_reducible apply OwnKeeps.ok
    | with_reducible apply OwnKeeps.next
    | ((with_reducible apply whenDo_keeps); focus exact rfl)
    | ((with_reducible apply Keeps.step (t1Block_keeps ..)); focus exact rfl)
    | with_reducible intro _
    | with_reducible apply Keeps.self
    | with_reducible apply Keeps.ite
    | with_reducible apply Keeps.ite_fst
    | with_reducible refine Keeps.foldl _ (fun _ _ => ?_) ?_
    | extract_lets
    | split
    | dsimp only)

theorem execCardWaitExpiry_own (s : State) : OwnKeeps (only [.cust, .prompts]) s (execCardWaitExpiry s) := by
  unfold execCardWaitExpiry
  repeat' (first
    | with_reducible apply Keeps.refl
    | with_reducible assumption
    | with_reducible exact OwnKeeps.fault
    | with_reducible exact OwnKeeps.refused
    | with_reducible apply OwnKeeps.okFin
    | with_reducible apply OwnKeeps.okCarry
    | with_reducible apply OwnKeeps.okCarryAll
    | with_reducible apply OwnKeeps.nextFin
    | with_reducible apply OwnKeeps.nextCarry
    | with_reducible apply OwnKeeps.nextCarryAll
    | with_reducible apply OwnKeeps.ite
    | with_reducible apply OwnKeeps.ok
    | with_reducible apply OwnKeeps.next
    | ((with_reducible apply whenDo_keeps); focus exact rfl)
    | ((with_reducible apply attemptFailed_keeps); focus exact rfl)
    | ((with_reducible apply Keeps.step (State.modCust_keeps ..)); focus exact rfl)
    | ((with_reducible apply Keeps.step (cardCatchUp_keeps ..)); focus exact rfl)
    | ((with_reducible apply Keeps.step (sendR_keeps ..)); focus exact rfl)
    | with_reducible intro _
    | with_reducible apply Keeps.self
    | with_reducible apply Keeps.ite
    | with_reducible apply Keeps.ite_fst
    | with_reducible refine Keeps.foldl _ (fun _ _ => ?_) ?_
    | extract_lets
    | split
    | dsimp only)

theorem execStatusPoll_own (s : State) : OwnKeeps (only [.cust]) s (execStatusPoll s) := by
  unfold execStatusPoll
  repeat' (first
    | with_reducible apply Keeps.refl
    | with_reducible assumption
    | with_reducible exact OwnKeeps.fault
    | with_reducible exact OwnKeeps.refused
    | with_reducible apply OwnKeeps.okFin
    | with_reducible apply OwnKeeps.okCarry
    | with_reducible apply OwnKeeps.okCarryAll
    | with_reducible apply OwnKeeps.nextFin
    | with_reducible apply OwnKeeps.nextCarry
    | with_reducible apply OwnKeeps.nextCarryAll
    | with_reducible apply OwnKeeps.ite
    | with_reducible apply OwnKeeps.ok
    | with_reducible apply OwnKeeps.next
    | ((with_reducible apply whenDo_keeps); focus exact rfl)
    | ((with_reducible apply Keeps.step (statusPollStep_keeps ..)); focus exact rfl)
    | with_reducible intro _
    | with_reducible apply Keeps.self
    | with_reducible apply Keeps.ite
    | with_reducible apply Keeps.ite_fst
    | with_reducible refine Keeps.foldl _ (fun _ _ => ?_) ?_
    | extract_lets
    | split
    | dsimp only)

theorem execWaitMaxExpiry_own (s : State) : OwnKeeps (only [.cust, .prompts]) s (execWaitMaxExpiry s) := by
  unfold execWaitMaxExpiry
  repeat' (first
    | with_reducible apply Keeps.refl
    | with_reducible assumption
    | with_reducible exact OwnKeeps.fault
    | with_reducible exact OwnKeeps.refused
    | with_reducible apply OwnKeeps.okFin
    | with_reducible apply OwnKeeps.okCarry
    | with_reducible apply OwnKeeps.okCarryAll
    | with_reducible apply OwnKeeps.nextFin
    | with_reducible apply OwnKeeps.nextCarry
    | with_reducible apply OwnKeeps.nextCarryAll
    | with_reducible apply OwnKeeps.ite
    | with_reducible apply OwnKeeps.ok
    | with_reducible apply OwnKeeps.next
    | ((with_reducible apply whenDo_keeps); focus exact rfl)
    | ((with_reducible apply Keeps.step (waitMax_keeps ..)); focus exact rfl)
    | with_reducible intro _
    | with_reducible apply Keeps.self
    | with_reducible apply Keeps.ite
    | with_reducible apply Keeps.ite_fst
    | with_reducible refine Keeps.foldl _ (fun _ _ => ?_) ?_
    | extract_lets
    | split
    | dsimp only)

theorem execClockStop_own (s : State) : OwnKeeps (only [.cust]) s (execClockStop s) := by
  unfold execClockStop
  repeat' (first
    | with_reducible apply Keeps.refl
    | with_reducible assumption
    | with_reducible exact OwnKeeps.fault
    | with_reducible exact OwnKeeps.refused
    | with_reducible apply OwnKeeps.okFin
    | with_reducible apply OwnKeeps.okCarry
    | with_reducible apply OwnKeeps.okCarryAll
    | with_reducible apply OwnKeeps.nextFin
    | with_reducible apply OwnKeeps.nextCarry
    | with_reducible apply OwnKeeps.nextCarryAll
    | with_reducible apply OwnKeeps.ite
    | with_reducible apply OwnKeeps.ok
    | with_reducible apply OwnKeeps.next
    | ((with_reducible apply whenDo_keeps); focus exact rfl)
    | ((with_reducible apply Keeps.step (State.modCust_keeps ..)); focus exact rfl)
    | with_reducible intro _
    | with_reducible apply Keeps.self
    | with_reducible apply Keeps.ite
    | with_reducible apply Keeps.ite_fst
    | with_reducible refine Keeps.foldl _ (fun _ _ => ?_) ?_
    | extract_lets
    | split
    | dsimp only)

theorem execAuthExpiry_own (act : Nat) (s : State) : OwnKeeps (only [.cust]) s (execAuthExpiry act s) := by
  unfold execAuthExpiry
  repeat' (first
    | with_reducible apply Keeps.refl
    | with_reducible assumption
    | with_reducible exact OwnKeeps.fault
    | with_reducible exact OwnKeeps.refused
    | with_reducible apply OwnKeeps.okFin
    | with_reducible apply OwnKeeps.okCarry
    | with_reducible apply OwnKeeps.okCarryAll
    | with_reducible apply OwnKeeps.nextFin
    | with_reducible apply OwnKeeps.nextCarry
    | with_reducible apply OwnKeeps.nextCarryAll
    | with_reducible apply OwnKeeps.ite
    | with_reducible apply OwnKeeps.ok
    | with_reducible apply OwnKeeps.next
    | ((with_reducible apply whenDo_keeps); focus exact rfl)
    | ((with_reducible apply Keeps.step (endAuth_keeps ..)); focus exact rfl)
    | with_reducible intro _
    | with_reducible apply Keeps.self
    | with_reducible apply Keeps.ite
    | with_reducible apply Keeps.ite_fst
    | with_reducible refine Keeps.foldl _ (fun _ _ => ?_) ?_
    | extract_lets
    | split
    | dsimp only)

theorem execShareHoldExpiry_own (s : State) : OwnKeeps (only [.cust]) s (execShareHoldExpiry s) := by
  unfold execShareHoldExpiry
  repeat' (first
    | with_reducible apply Keeps.refl
    | with_reducible assumption
    | with_reducible exact OwnKeeps.fault
    | with_reducible exact OwnKeeps.refused
    | with_reducible apply OwnKeeps.okFin
    | with_reducible apply OwnKeeps.okCarry
    | with_reducible apply OwnKeeps.okCarryAll
    | with_reducible apply OwnKeeps.nextFin
    | with_reducible apply OwnKeeps.nextCarry
    | with_reducible apply OwnKeeps.nextCarryAll
    | with_reducible apply OwnKeeps.ite
    | with_reducible apply OwnKeeps.ok
    | with_reducible apply OwnKeeps.next
    | ((with_reducible apply whenDo_keeps); focus exact rfl)
    | ((with_reducible apply Keeps.step (State.modCust_keeps ..)); focus exact rfl)
    | with_reducible intro _
    | with_reducible apply Keeps.self
    | with_reducible apply Keeps.ite
    | with_reducible apply Keeps.ite_fst
    | with_reducible refine Keeps.foldl _ (fun _ _ => ?_) ?_
    | extract_lets
    | split
    | dsimp only)

theorem execRootLock_own (arg : Nat) (s : State) : OwnKeeps (only [.alarms, .cust, .prompts]) s (execRootLock arg s) := by
  unfold execRootLock
  repeat' (first
    | with_reducible apply Keeps.refl
    | with_reducible assumption
    | with_reducible exact OwnKeeps.fault
    | with_reducible exact OwnKeeps.refused
    | with_reducible apply OwnKeeps.okFin
    | with_reducible apply OwnKeeps.okCarry
    | with_reducible apply OwnKeeps.okCarryAll
    | with_reducible apply OwnKeeps.nextFin
    | with_reducible apply OwnKeeps.nextCarry
    | with_reducible apply OwnKeeps.nextCarryAll
    | with_reducible apply OwnKeeps.ite
    | with_reducible apply OwnKeeps.ok
    | with_reducible apply OwnKeeps.next
    | ((with_reducible apply custCmd_keeps); focus exact rfl)
    | ((with_reducible apply Keeps.step (rootLockCmd_keeps ..)); focus exact rfl)
    | with_reducible intro _
    | with_reducible apply Keeps.self
    | with_reducible apply Keeps.ite
    | with_reducible apply Keeps.ite_fst
    | with_reducible refine Keeps.foldl _ (fun _ _ => ?_) ?_
    | extract_lets
    | split
    | dsimp only)

theorem execAuthorize_own (arg : Nat) (s : State) : OwnKeeps (only [.alarms, .entropy, .cust, .prompts]) s (execAuthorize arg s) := by
  unfold execAuthorize
  repeat' (first
    | with_reducible apply Keeps.refl
    | with_reducible assumption
    | with_reducible exact OwnKeeps.fault
    | with_reducible exact OwnKeeps.refused
    | with_reducible apply OwnKeeps.okFin
    | with_reducible apply OwnKeeps.okCarry
    | with_reducible apply OwnKeeps.okCarryAll
    | with_reducible apply OwnKeeps.nextFin
    | with_reducible apply OwnKeeps.nextCarry
    | with_reducible apply OwnKeeps.nextCarryAll
    | with_reducible apply OwnKeeps.ite
    | with_reducible apply OwnKeeps.ok
    | with_reducible apply OwnKeeps.next
    | ((with_reducible apply custCmd_keeps); focus exact rfl)
    | ((with_reducible apply Keeps.step (authorizeCmd_keeps ..)); focus exact rfl)
    | with_reducible intro _
    | with_reducible apply Keeps.self
    | with_reducible apply Keeps.ite
    | with_reducible apply Keeps.ite_fst
    | with_reducible refine Keeps.foldl _ (fun _ _ => ?_) ?_
    | extract_lets
    | split
    | dsimp only)

theorem execImportShare_own (arg : Nat) (s : State) : OwnKeeps (only [.alarms, .entropy, .cust, .prompts]) s (execImportShare arg s) := by
  unfold execImportShare
  repeat' (first
    | with_reducible apply Keeps.refl
    | with_reducible assumption
    | with_reducible exact OwnKeeps.fault
    | with_reducible exact OwnKeeps.refused
    | with_reducible apply OwnKeeps.okFin
    | with_reducible apply OwnKeeps.okCarry
    | with_reducible apply OwnKeeps.okCarryAll
    | with_reducible apply OwnKeeps.nextFin
    | with_reducible apply OwnKeeps.nextCarry
    | with_reducible apply OwnKeeps.nextCarryAll
    | with_reducible apply OwnKeeps.ite
    | with_reducible apply OwnKeeps.ok
    | with_reducible apply OwnKeeps.next
    | ((with_reducible apply custCmd_keeps); focus exact rfl)
    | ((with_reducible apply Keeps.step (importShareCmd_keeps ..)); focus exact rfl)
    | with_reducible intro _
    | with_reducible apply Keeps.self
    | with_reducible apply Keeps.ite
    | with_reducible apply Keeps.ite_fst
    | with_reducible refine Keeps.foldl _ (fun _ _ => ?_) ?_
    | extract_lets
    | split
    | dsimp only)

theorem execExportShare_own (arg : Nat) (s : State) : OwnKeeps (only [.alarms, .entropy, .cust, .prompts]) s (execExportShare arg s) := by
  unfold execExportShare
  repeat' (first
    | with_reducible apply Keeps.refl
    | with_reducible assumption
    | with_reducible exact OwnKeeps.fault
    | with_reducible exact OwnKeeps.refused
    | with_reducible apply OwnKeeps.okFin
    | with_reducible apply OwnKeeps.okCarry
    | with_reducible apply OwnKeeps.okCarryAll
    | with_reducible apply OwnKeeps.nextFin
    | with_reducible apply OwnKeeps.nextCarry
    | with_reducible apply OwnKeeps.nextCarryAll
    | with_reducible apply OwnKeeps.ite
    | with_reducible apply OwnKeeps.ok
    | with_reducible apply OwnKeeps.next
    | ((with_reducible apply custCmd_keeps); focus exact rfl)
    | ((with_reducible apply Keeps.step (exportShareCmd_keeps ..)); focus exact rfl)
    | with_reducible intro _
    | with_reducible apply Keeps.self
    | with_reducible apply Keeps.ite
    | with_reducible apply Keeps.ite_fst
    | with_reducible refine Keeps.foldl _ (fun _ _ => ?_) ?_
    | extract_lets
    | split
    | dsimp only)

theorem execSharesClear_own (arg : Nat) (s : State) : OwnKeeps (only [.alarms, .cust, .prompts]) s (execSharesClear arg s) := by
  unfold execSharesClear
  repeat' (first
    | with_reducible apply Keeps.refl
    | with_reducible assumption
    | with_reducible exact OwnKeeps.fault
    | with_reducible exact OwnKeeps.refused
    | with_reducible apply OwnKeeps.okFin
    | with_reducible apply OwnKeeps.okCarry
    | with_reducible apply OwnKeeps.okCarryAll
    | with_reducible apply OwnKeeps.nextFin
    | with_reducible apply OwnKeeps.nextCarry
    | with_reducible apply OwnKeeps.nextCarryAll
    | with_reducible apply OwnKeeps.ite
    | with_reducible apply OwnKeeps.ok
    | with_reducible apply OwnKeeps.next
    | ((with_reducible apply custCmd_keeps); focus exact rfl)
    | ((with_reducible apply Keeps.step (sharesClearCmd_keeps ..)); focus exact rfl)
    | with_reducible intro _
    | with_reducible apply Keeps.self
    | with_reducible apply Keeps.ite
    | with_reducible apply Keeps.ite_fst
    | with_reducible refine Keeps.foldl _ (fun _ _ => ?_) ?_
    | extract_lets
    | split
    | dsimp only)

theorem execAuthEnd_own (arg : Nat) (s : State) : OwnKeeps (only [.alarms, .cust, .prompts]) s (execAuthEnd arg s) := by
  unfold execAuthEnd
  repeat' (first
    | with_reducible apply Keeps.refl
    | with_reducible assumption
    | with_reducible exact OwnKeeps.fault
    | with_reducible exact OwnKeeps.refused
    | with_reducible apply OwnKeeps.okFin
    | with_reducible apply OwnKeeps.okCarry
    | with_reducible apply OwnKeeps.okCarryAll
    | with_reducible apply OwnKeeps.nextFin
    | with_reducible apply OwnKeeps.nextCarry
    | with_reducible apply OwnKeeps.nextCarryAll
    | with_reducible apply OwnKeeps.ite
    | with_reducible apply OwnKeeps.ok
    | with_reducible apply OwnKeeps.next
    | ((with_reducible apply custCmd_keeps); focus exact rfl)
    | ((with_reducible apply Keeps.step (authEndCmd_keeps ..)); focus exact rfl)
    | with_reducible intro _
    | with_reducible apply Keeps.self
    | with_reducible apply Keeps.ite
    | with_reducible apply Keeps.ite_fst
    | with_reducible refine Keeps.foldl _ (fun _ _ => ?_) ?_
    | extract_lets
    | split
    | dsimp only)

theorem execReconDrop_own (arg : Nat) (s : State) : OwnKeeps (only [.alarms, .cust, .prompts]) s (execReconDrop arg s) := by
  unfold execReconDrop
  repeat' (first
    | with_reducible apply Keeps.refl
    | with_reducible assumption
    | with_reducible exact OwnKeeps.fault
    | with_reducible exact OwnKeeps.refused
    | with_reducible apply OwnKeeps.okFin
    | with_reducible apply OwnKeeps.okCarry
    | with_reducible apply OwnKeeps.okCarryAll
    | with_reducible apply OwnKeeps.nextFin
    | with_reducible apply OwnKeeps.nextCarry
    | with_reducible apply OwnKeeps.nextCarryAll
    | with_reducible apply OwnKeeps.ite
    | with_reducible apply OwnKeeps.ok
    | with_reducible apply OwnKeeps.next
    | ((with_reducible apply custCmd_keeps); focus exact rfl)
    | ((with_reducible apply Keeps.step (reconDropCmd_keeps ..)); focus exact rfl)
    | with_reducible intro _
    | with_reducible apply Keeps.self
    | with_reducible apply Keeps.ite
    | with_reducible apply Keeps.ite_fst
    | with_reducible refine Keeps.foldl _ (fun _ _ => ?_) ?_
    | extract_lets
    | split
    | dsimp only)

theorem execDeactivate_own (arg : Nat) (s : State) : OwnKeeps (only [.alarms, .cust, .prompts]) s (execDeactivate arg s) := by
  unfold execDeactivate
  repeat' (first
    | with_reducible apply Keeps.refl
    | with_reducible assumption
    | with_reducible exact OwnKeeps.fault
    | with_reducible exact OwnKeeps.refused
    | with_reducible apply OwnKeeps.okFin
    | with_reducible apply OwnKeeps.okCarry
    | with_reducible apply OwnKeeps.okCarryAll
    | with_reducible apply OwnKeeps.nextFin
    | with_reducible apply OwnKeeps.nextCarry
    | with_reducible apply OwnKeeps.nextCarryAll
    | with_reducible apply OwnKeeps.ite
    | with_reducible apply OwnKeeps.ok
    | with_reducible apply OwnKeeps.next
    | ((with_reducible apply custCmd_keeps); focus exact rfl)
    | ((with_reducible apply Keeps.step (deactivateCmd_keeps ..)); focus exact rfl)
    | with_reducible intro _
    | with_reducible apply Keeps.self
    | with_reducible apply Keeps.ite
    | with_reducible apply Keeps.ite_fst
    | with_reducible refine Keeps.foldl _ (fun _ _ => ?_) ?_
    | extract_lets
    | split
    | dsimp only)

theorem execActivate_own (arg : Nat) (s : State) : OwnKeeps (only [.alarms, .cust, .prompts]) s (execActivate arg s) := by
  unfold execActivate
  repeat' (first
    | with_reducible apply Keeps.refl
    | with_reducible assumption
    | with_reducible exact OwnKeeps.fault
    | with_reducible exact OwnKeeps.refused
    | with_reducible apply OwnKeeps.okFin
    | with_reducible apply OwnKeeps.okCarry
    | with_reducible apply OwnKeeps.okCarryAll
    | with_reducible apply OwnKeeps.nextFin
    | with_reducible apply OwnKeeps.nextCarry
    | with_reducible apply OwnKeeps.nextCarryAll
    | with_reducible apply OwnKeeps.ite
    | with_reducible apply OwnKeeps.ok
    | with_reducible apply OwnKeeps.next
    | ((with_reducible apply custCmd_keeps); focus exact rfl)
    | ((with_reducible apply Keeps.step (activateCmd_keeps ..)); focus exact rfl)
    | with_reducible intro _
    | with_reducible apply Keeps.self
    | with_reducible apply Keeps.ite
    | with_reducible apply Keeps.ite_fst
    | with_reducible refine Keeps.foldl _ (fun _ _ => ?_) ?_
    | extract_lets
    | split
    | dsimp only)

theorem execSensorConditionEnd_own (sensor : Sensor) (s : State) : OwnKeeps (only [.alarms]) s (execSensorConditionEnd sensor s) := by
  unfold execSensorConditionEnd
  repeat' (first
    | with_reducible apply Keeps.refl
    | with_reducible assumption
    | with_reducible exact OwnKeeps.fault
    | with_reducible exact OwnKeeps.refused
    | with_reducible apply OwnKeeps.okFin
    | with_reducible apply OwnKeeps.okCarry
    | with_reducible apply OwnKeeps.okCarryAll
    | with_reducible apply OwnKeeps.nextFin
    | with_reducible apply OwnKeeps.nextCarry
    | with_reducible apply OwnKeeps.nextCarryAll
    | with_reducible apply OwnKeeps.ite
    | with_reducible apply OwnKeeps.ok
    | with_reducible apply OwnKeeps.next
    | ((with_reducible apply Keeps.step (State.modAlarms_keeps ..)); focus exact rfl)
    | with_reducible apply Keeps.ite
    | with_reducible apply Keeps.ite_fst
    | with_reducible refine Keeps.foldl _ (fun _ _ => ?_) ?_
    | extract_lets
    | split
    | dsimp only)

theorem execVaonReturn_own (s : State) : OwnKeeps (only [.start, .time]) s (execVaonReturn s) := by
  unfold execVaonReturn
  repeat' (first
    | with_reducible apply Keeps.refl
    | with_reducible assumption
    | with_reducible exact OwnKeeps.fault
    | with_reducible exact OwnKeeps.refused
    | with_reducible apply OwnKeeps.okFin
    | with_reducible apply OwnKeeps.okCarry
    | with_reducible apply OwnKeeps.okCarryAll
    | with_reducible apply OwnKeeps.nextFin
    | with_reducible apply OwnKeeps.nextCarry
    | with_reducible apply OwnKeeps.nextCarryAll
    | with_reducible apply OwnKeeps.ite
    | with_reducible apply OwnKeeps.ok
    | with_reducible apply OwnKeeps.next
    | ((with_reducible apply whenDo_keeps); focus exact rfl)
    | ((with_reducible apply Keeps.step (vaonBack_keeps ..)); focus exact rfl)
    | with_reducible intro _
    | with_reducible apply Keeps.self
    | with_reducible apply Keeps.ite
    | with_reducible apply Keeps.ite_fst
    | with_reducible refine Keeps.foldl _ (fun _ _ => ?_) ?_
    | extract_lets
    | split
    | dsimp only)

theorem execPacketOutAccept_own (port : Nat) (s : State) : OwnKeeps (only [.front]) s (execPacketOutAccept port s) := by
  unfold execPacketOutAccept
  repeat' (first
    | with_reducible apply Keeps.refl
    | with_reducible assumption
    | with_reducible exact OwnKeeps.fault
    | with_reducible exact OwnKeeps.refused
    | with_reducible apply OwnKeeps.okFin
    | with_reducible apply OwnKeeps.okCarry
    | with_reducible apply OwnKeeps.okCarryAll
    | with_reducible apply OwnKeeps.nextFin
    | with_reducible apply OwnKeeps.nextCarry
    | with_reducible apply OwnKeeps.nextCarryAll
    | with_reducible apply OwnKeeps.ite
    | with_reducible apply OwnKeeps.ok
    | with_reducible apply OwnKeeps.next
    | ((with_reducible apply whenDo_keeps); focus exact rfl)
    | ((with_reducible apply Keeps.step (packetTake_keeps ..)); focus exact rfl)
    | with_reducible intro _
    | with_reducible apply Keeps.self
    | with_reducible apply Keeps.ite
    | with_reducible apply Keeps.ite_fst
    | with_reducible refine Keeps.foldl _ (fun _ _ => ?_) ?_
    | extract_lets
    | split
    | dsimp only)

theorem execAnswerToResetTimeout_own (s : State) : OwnKeeps (only [.cust, .prompts]) s (execAnswerToResetTimeout s) := by
  unfold execAnswerToResetTimeout
  repeat' (first
    | with_reducible apply Keeps.refl
    | with_reducible assumption
    | with_reducible exact OwnKeeps.fault
    | with_reducible exact OwnKeeps.refused
    | with_reducible apply OwnKeeps.okFin
    | with_reducible apply OwnKeeps.okCarry
    | with_reducible apply OwnKeeps.okCarryAll
    | with_reducible apply OwnKeeps.nextFin
    | with_reducible apply OwnKeeps.nextCarry
    | with_reducible apply OwnKeeps.nextCarryAll
    | with_reducible apply OwnKeeps.ite
    | with_reducible apply OwnKeeps.ok
    | with_reducible apply OwnKeeps.next
    | ((with_reducible apply whenDo_keeps); focus exact rfl)
    | ((with_reducible apply Keeps.step (activationFailed_keeps ..)); focus exact rfl)
    | with_reducible intro _
    | with_reducible apply Keeps.self
    | with_reducible apply Keeps.ite
    | with_reducible apply Keeps.ite_fst
    | with_reducible refine Keeps.foldl _ (fun _ _ => ?_) ?_
    | extract_lets
    | split
    | dsimp only)

theorem execPpsTimeout_own (s : State) : OwnKeeps (only [.cust, .prompts]) s (execPpsTimeout s) := by
  unfold execPpsTimeout
  repeat' (first
    | with_reducible apply Keeps.refl
    | with_reducible assumption
    | with_reducible exact OwnKeeps.fault
    | with_reducible exact OwnKeeps.refused
    | with_reducible apply OwnKeeps.okFin
    | with_reducible apply OwnKeeps.okCarry
    | with_reducible apply OwnKeeps.okCarryAll
    | with_reducible apply OwnKeeps.nextFin
    | with_reducible apply OwnKeeps.nextCarry
    | with_reducible apply OwnKeeps.nextCarryAll
    | with_reducible apply OwnKeeps.ite
    | with_reducible apply OwnKeeps.ok
    | with_reducible apply OwnKeeps.next
    | ((with_reducible apply whenDo_keeps); focus exact rfl)
    | ((with_reducible apply Keeps.step (activationFailed_keeps ..)); focus exact rfl)
    | with_reducible intro _
    | with_reducible apply Keeps.self
    | with_reducible apply Keeps.ite
    | with_reducible apply Keeps.ite_fst
    | with_reducible refine Keeps.foldl _ (fun _ _ => ?_) ?_
    | extract_lets
    | split
    | dsimp only)

theorem execBrokenHopRekey_own (side : Side) (s : State) : OwnKeeps (only [.entropy, .relay]) s (execBrokenHopRekey side s) := by
  unfold execBrokenHopRekey
  repeat' (first
    | with_reducible apply Keeps.refl
    | with_reducible assumption
    | with_reducible exact OwnKeeps.fault
    | with_reducible exact OwnKeeps.refused
    | with_reducible apply OwnKeeps.okFin
    | with_reducible apply OwnKeeps.okCarry
    | with_reducible apply OwnKeeps.okCarryAll
    | with_reducible apply OwnKeeps.nextFin
    | with_reducible apply OwnKeeps.nextCarry
    | with_reducible apply OwnKeeps.nextCarryAll
    | with_reducible apply OwnKeeps.ite
    | with_reducible apply OwnKeeps.ok
    | with_reducible apply OwnKeeps.next
    | ((with_reducible apply Keeps.step (brokenRekey_keeps ..)); focus exact rfl)
    | with_reducible apply Keeps.ite
    | with_reducible apply Keeps.ite_fst
    | with_reducible refine Keeps.foldl _ (fun _ _ => ?_) ?_
    | extract_lets
    | split
    | dsimp only)

/-- The parts the own effect of a command may change. -/
def ownMoves (c : Instr) : Part → Bool :=
  match c with
  | .porstNAssert => allBut [.pending, .params, .journal, .freeCount]
  | .porstNRelease => only [.start, .journal, .alarms, .cust, .prompts]
  | .blkrstNAssert => allBut [.pending, .params, .journal, .freeCount]
  | .blkrstNRelease => only [.start, .journal, .alarms, .cust, .prompts]
  | .resetResponseDiscardEnd => only [.mem]
  | .vaonLoss => allBut [.pending, .params, .freeCount]
  | .sensorTrip _ _ _ => allBut [.pending, .params, .seats, .offers, .nextJob, .time, .freeCount]
  | .lockstep => allBut [.pending, .params, .seats, .offers, .nextJob, .time, .freeCount]
  | .erasureVerified _ => only [.alarms, .seats, .jobs, .mem, .buffers, .engines, .keys, .prompts]
  | .clearA => only [.alarms, .entropy, .relay, .prompts]
  | .clearB => only [.alarms, .entropy, .relay, .prompts]
  | .sequencerFault _ => only [.journal, .alarms, .jobs, .mem, .place, .buffers, .engines, .keys, .entropy, .prompts]
  | .wingFailure _ => only [.start, .journal, .alarms, .jobs, .mem, .place, .buffers, .engines, .keys, .entropy, .prompts]
  | .portClockLost _ => only [.alarms, .mem, .prompts]
  | .portClockReturn _ => only [.mem, .entropy, .relay]
  | .refclkLost => only [.alarms, .time, .prompts]
  | .refclkReturn _ => only [.time, .cust, .prompts]
  | .accessViolation _ _ _ => only [.alarms, .prompts]
  | .regWrite _ _ _ => allBut [.pending, .params]
  | .promptAccept => only [.prompts]
  | .memReadData _ _ _ _ => allBut [.pending, .params, .journal, .window, .time, .cust]
  | .memWriteAck _ _ => allBut [.pending, .params, .start, .journal, .engines, .window, .time, .cust, .freeCount]
  | .memRspErr _ _ => allBut [.pending, .params, .journal, .offers, .nextJob, .place, .window, .entropy, .time, .cust]
  | .rootkeyAck _ _ => only [.start]
  | .rootkeyTimeout => only [.start, .journal, .mem, .entropy]
  | .startStepDone _ _ _ => allBut [.pending, .params, .offers, .nextJob, .freeCount]
  | .startStepBound _ => allBut [.pending, .params, .rings, .seatRegs, .offers, .nextJob, .window, .cust, .freeCount]
  | .imagesValidWrite _ => only [.start, .journal, .alarms, .seats, .mem, .entropy, .prompts]
  | .acceptVersionWrite _ _ => only [.start, .alarms, .cust, .prompts]
  | .clearFail _ => allBut [.pending, .params, .seats, .rings, .seatRegs, .offers, .nextJob, .place, .window, .freeCount]
  | .runStep _ => allBut [.pending, .params, .seats, .rings, .seatRegs, .offers, .nextJob, .place, .window, .freeCount]
  | .acceptUntested => allBut [.pending, .params, .seats, .rings, .seatRegs, .offers, .nextJob, .place, .window, .freeCount]
  | .configure _ => allBut [.pending, .params, .journal, .window, .time, .cust]
  | .start _ => allBut [.pending, .params, .journal, .window, .time, .cust]
  | .curtain _ _ => allBut [.pending, .params, .journal, .window, .time, .cust]
  | .curtainQuiet _ => only [.seats, .rings, .prompts]
  | .restart _ => allBut [.pending, .params, .journal, .window, .time, .cust]
  | .reset _ => allBut [.pending, .params, .journal, .window, .time, .cust]
  | .resetReport _ => only [.alarms, .seats, .entropy, .prompts]
  | .disable _ => allBut [.pending, .params, .journal, .window, .time, .cust]
  | .freeze _ => allBut [.pending, .params, .journal, .window, .time, .cust]
  | .thaw _ => allBut [.pending, .params, .journal, .window, .time, .cust]
  | .migOffer _ => allBut [.pending, .params, .journal, .window, .time, .cust]
  | .save _ => allBut [.pending, .params, .journal, .window, .time, .cust]
  | .restore _ => allBut [.pending, .params, .journal, .window, .time, .cust]
  | .migCancel _ => allBut [.pending, .params, .journal, .window, .time, .cust]
  | .seatTransitionEnd _ => allBut [.pending, .params, .start, .journal, .engines, .window, .time, .relay, .cust, .freeCount]
  | .shareWrite _ _ _ => only [.alarms, .seats, .place, .prompts]
  | .seatXWrite _ _ => only [.alarms, .seats, .mem, .prompts]
  | .atuInvalidate _ => only [.alarms, .mem, .prompts]
  | .atuInvalidateDone => only [.mem]
  | .atuFaultRead => only [.seatRegs]
  | .doorbell _ _ _ _ => only [.alarms, .rings, .prompts]
  | .cqHeadWrite _ _ _ _ => only [.alarms, .rings, .prompts]
  | .ringEnable _ _ _ _ => only [.alarms, .seats, .rings, .mem, .prompts]
  | .ringDisable _ _ _ _ => only [.alarms, .seats, .rings, .mem, .prompts]
  | .resume _ _ _ => only [.alarms, .rings, .prompts]
  | .ringSettingWrite _ _ _ _ _ => only [.alarms, .seats, .rings, .prompts]
  | .jobFetch _ => only [.rings, .mem]
  | .promptEvaluation => only [.rings, .time, .prompts]
  | .jobDeadline _ => only [.jobs, .mem, .buffers, .engines, .keys, .relay]
  | .nop _ => only [.jobs, .mem, .buffers, .engines, .keys]
  | .fence _ => only [.jobs, .mem, .buffers, .engines, .keys]
  | .stamp _ => only [.jobs, .mem, .buffers, .engines, .keys]
  | .unassignedOpcode _ => only [.jobs, .mem, .buffers, .engines, .keys]
  | .jobPlacement _ => only [.seats, .jobs, .mem, .place, .buffers, .engines, .keys, .front, .relay]
  | .bayIssue _ => only [.alarms, .seats, .jobs, .mem, .place, .buffers, .engines, .keys, .entropy, .front, .prompts]
  | .segmentBoundary _ => only [.alarms, .seats, .jobs, .mem, .place, .buffers, .engines, .keys, .entropy, .front, .prompts]
  | .heldRecordMark _ => only [.alarms, .jobs, .mem, .place, .buffers, .keys, .prompts]
  | .epochBoundary _ => only [.seats, .jobs, .mem, .place, .buffers, .engines, .keys, .time, .relay]
  | .wingIdle _ => only [.place]
  | .wingGated _ => only [.place, .buffers, .keys]
  | .wingWake _ => only [.place, .entropy]
  | .wingWakeDone _ => only [.place]
  | .advertisement => only [.time, .relay]
  | .countermeasureReseed => only [.place, .keys, .entropy, .time]
  | .sealJob _ => only [.jobs, .mem, .place, .buffers, .engines, .keys, .entropy, .front, .prompts, .freeCount]
  | .openJob _ => only [.jobs, .mem, .place, .buffers, .engines, .keys, .entropy, .front, .prompts, .freeCount]
  | .macGen _ => only [.jobs, .mem, .place, .buffers, .engines, .keys, .entropy, .front]
  | .macVerify _ => only [.jobs, .mem, .place, .buffers, .engines, .keys, .entropy, .front]
  | .encrypt _ => only [.jobs, .mem, .place, .buffers, .engines, .keys, .entropy, .front]
  | .decrypt _ => only [.jobs, .mem, .place, .buffers, .engines, .keys, .entropy, .front]
  | .assocQuery _ => only [.jobs, .mem, .buffers, .engines, .keys]
  | .digest _ => only [.alarms, .jobs, .mem, .place, .buffers, .engines, .keys, .entropy, .prompts]
  | .digestVerify _ => only [.alarms, .jobs, .mem, .place, .buffers, .engines, .keys, .entropy, .prompts]
  | .hmacGen _ => only [.alarms, .jobs, .mem, .place, .buffers, .engines, .keys, .entropy, .prompts]
  | .hmacVerify _ => only [.alarms, .jobs, .mem, .place, .buffers, .engines, .keys, .entropy, .prompts]
  | .compare _ => only [.alarms, .jobs, .mem, .buffers, .engines, .keys, .prompts]
  | .hmacLoad _ => only [.jobs, .mem, .buffers, .engines, .keys]
  | .hmacUnload _ => only [.jobs, .mem, .buffers, .engines, .keys]
  | .dwStart _ => only [.alarms, .window, .prompts]
  | .dwDataWrite _ => only [.alarms, .window, .prompts]
  | .dwFinish _ => only [.alarms, .window, .prompts]
  | .dwAbort => only [.alarms, .window, .prompts]
  | .dwAbsorbDone => only [.window]
  | .modAdd _ => only [.jobs]
  | .modSub _ => only [.jobs]
  | .modMul _ => only [.jobs]
  | .modInv _ => only [.jobs]
  | .modExp _ => only [.jobs]
  | .modExpCrt _ => only [.jobs]
  | .engineLoad _ => only [.jobs, .mem, .place, .buffers, .engines, .keys, .entropy]
  | .runStart _ => only [.jobs, .engines]
  | .datapathDone _ _ => only [.engines]
  | .releaseTick _ => allBut [.pending, .params, .offers, .nextJob, .time, .freeCount]
  | .wipeDone _ _ => allBut [.pending, .params, .seats, .offers, .nextJob, .time, .freeCount]
  | .mldsaBlockTick _ => allBut [.pending, .params, .offers, .nextJob, .time, .freeCount]
  | .floorWrite _ => only [.alarms, .seats, .place, .engines, .prompts]
  | .rtQuery _ => only [.alarms, .seats, .place, .engines, .prompts]
  | .slackRead _ => only [.seats, .seatRegs, .engines]
  | .faultLogRead => only [.seats, .seatRegs, .engines]
  | .admitStsRead _ => only [.seats, .seatRegs, .engines]
  | .ecKeygen _ => only [.jobs]
  | .ecdsaSign _ => only [.jobs]
  | .ecdsaVerify _ => only [.jobs]
  | .ecdh _ => only [.jobs]
  | .ed25519Sign _ => only [.jobs]
  | .ed25519Verify _ => only [.jobs]
  | .mlkemKeygen _ => only [.jobs]
  | .mlkemEncaps _ => only [.jobs]
  | .mlkemDecaps _ => only [.jobs]
  | .mldsaKeygen _ => only [.jobs]
  | .mldsaSign _ => only [.jobs]
  | .mldsaVerify _ => only [.jobs]
  | .poly _ => only [.jobs]
  | .keyImport _ => only [.seats, .jobs, .mem, .buffers, .engines, .keys, .entropy]
  | .keyExport _ => only [.seats, .jobs, .mem, .buffers, .engines, .keys, .entropy]
  | .keyGenerate _ => only [.seats, .jobs, .mem, .buffers, .engines, .keys, .entropy]
  | .keyDerive _ => only [.seats, .jobs, .mem, .buffers, .engines, .keys, .entropy]
  | .keyDelete _ => only [.seats, .jobs, .mem, .buffers, .engines, .keys, .entropy]
  | .keyInfo _ => only [.seats, .jobs, .mem, .buffers, .engines, .keys, .entropy]
  | .keyRestrict _ => only [.seats, .jobs, .mem, .buffers, .engines, .keys, .entropy]
  | .keyEscrowOut _ => only [.seats, .jobs, .mem, .buffers, .engines, .keys, .entropy]
  | .keyEscrowIn _ => only [.seats, .jobs, .mem, .buffers, .engines, .keys, .entropy]
  | .eraseBwk => only [.alarms, .jobs, .mem, .buffers, .engines, .keys, .prompts]
  | .sourceBlock _ _ => only [.alarms, .jobs, .mem, .buffers, .engines, .keys, .entropy, .prompts]
  | .sourceRestartDone _ => only [.entropy]
  | .wordDelivery => only [.jobs, .mem, .buffers, .engines, .keys, .entropy, .relay, .cust, .prompts]
  | .reseedDue _ => only [.entropy]
  | .instHeld _ => only [.entropy]
  | .seedingDeadline _ => only [.jobs, .mem, .buffers, .engines, .keys]
  | .rngGet _ => only [.seats, .jobs, .mem, .buffers, .engines, .keys, .entropy]
  | .rngReseed _ => only [.jobs, .mem, .buffers, .engines, .keys, .entropy]
  | .rngRaw _ => only [.jobs, .mem, .buffers, .engines, .keys, .entropy]
  | .enterRehearsal => only [.alarms, .jobs, .mem, .buffers, .engines, .keys, .entropy, .cust, .prompts]
  | .exitRehearsal => only [.alarms, .jobs, .mem, .buffers, .engines, .keys, .entropy, .prompts]
  | .revive _ => only [.alarms, .entropy, .prompts]
  | .clearCounts => only [.alarms, .entropy, .prompts]
  | .packetIn _ _ _ _ => only [.seats, .jobs, .nextJob, .mem, .place, .buffers, .engines, .keys, .front]
  | .assocWrite _ => only [.jobs, .mem, .buffers, .engines, .keys, .front]
  | .assocKill _ => only [.jobs, .mem, .buffers, .engines, .keys, .front]
  | .nodeWrite _ _ => only [.alarms, .front, .prompts]
  | .swap => only [.alarms, .front, .prompts]
  | .epochDrainEnd => only [.front]
  | .rehash => only [.alarms, .mem, .front, .prompts]
  | .rehashDone => only [.mem, .front, .prompts]
  | .peerAgeVisit _ => only [.mem, .front]
  | .strangerStsRead _ => only [.seats, .seatRegs]
  | .timePortValue => only [.time]
  | .ppsRise => only [.time]
  | .ppsFall => only [.time]
  | .captureEdge _ => only [.time, .prompts]
  | .captureSnapshot _ => only [.seatRegs, .time]
  | .nowSnapshot => only [.seatRegs, .time]
  | .secureSnapshot => only [.seatRegs, .time]
  | .rateWrite _ => only [.alarms, .time, .prompts]
  | .timeStep _ => only [.alarms, .time, .prompts]
  | .slew _ => only [.alarms, .time, .prompts]
  | .cancelSlew => only [.alarms, .time, .prompts]
  | .slewDone => only [.time, .prompts]
  | .secAdvance _ => only [.alarms, .time, .prompts, .freeCount]
  | .linkUp _ => only [.alarms, .jobs, .mem, .buffers, .engines, .keys, .time, .relay, .prompts]
  | .creditReturn _ => only [.entropy, .relay]
  | .hopBreak _ => only [.alarms, .jobs, .mem, .buffers, .engines, .keys, .time, .relay, .prompts]
  | .hopSilence _ => only [.alarms, .jobs, .mem, .buffers, .engines, .keys, .time, .relay, .prompts]
  | .hopRekeyDue _ => only [.entropy, .relay]
  | .hello _ _ _ => only [.entropy, .relay]
  | .reply _ _ _ => only [.alarms, .jobs, .mem, .buffers, .engines, .keys, .time, .relay, .prompts]
  | .confirm _ => only [.alarms, .jobs, .mem, .buffers, .engines, .keys, .time, .relay, .prompts]
  | .echo _ _ _ => only [.alarms, .jobs, .mem, .buffers, .engines, .keys, .time, .relay, .prompts]
  | .probe _ _ _ _ => only [.alarms, .jobs, .mem, .buffers, .engines, .keys, .time, .relay, .prompts]
  | .electionStart => only [.entropy, .relay]
  | .elect _ _ => only [.alarms, .jobs, .mem, .buffers, .engines, .keys, .entropy, .time, .relay, .prompts]
  | .number _ _ => only [.alarms, .jobs, .mem, .buffers, .engines, .keys, .time, .relay, .prompts]
  | .map _ _ => only [.alarms, .jobs, .mem, .buffers, .engines, .keys, .time, .relay, .prompts]
  | .join _ _ _ _ _ _ => only [.alarms, .jobs, .mem, .buffers, .engines, .keys, .time, .relay, .prompts]
  | .adv _ _ _ _ => only [.alarms, .jobs, .mem, .place, .buffers, .engines, .keys, .time, .relay, .prompts]
  | .relayJob _ _ => only [.alarms, .jobs, .nextJob, .mem, .place, .buffers, .engines, .keys, .time, .relay, .prompts]
  | .relayDone _ _ => only [.alarms, .seats, .jobs, .mem, .buffers, .engines, .keys, .time, .relay, .prompts]
  | .relayCancel _ _ => only [.alarms, .jobs, .mem, .buffers, .engines, .keys, .time, .relay, .prompts]
  | .relayAlarm _ _ => only [.alarms, .jobs, .mem, .place, .buffers, .engines, .keys, .time, .relay, .prompts]
  | .relayBreak _ _ => only [.alarms, .jobs, .mem, .buffers, .engines, .keys, .time, .relay, .prompts]
  | .timeSend => only [.time, .relay]
  | .time _ _ _ => only [.alarms, .jobs, .mem, .buffers, .engines, .keys, .time, .relay, .prompts, .freeCount]
  | .timeLoss => only [.relay]
  | .mailSend _ => only [.alarms, .mem, .relay, .prompts]
  | .mail _ _ _ _ _ => only [.alarms, .jobs, .mem, .buffers, .engines, .keys, .time, .relay, .prompts]
  | .inboxRelease _ => only [.alarms, .relay, .prompts]
  | .cardInsert => only [.start, .cust]
  | .cardDebounce => only [.cust]
  | .cardRemoval => only [.jobs, .mem, .buffers, .engines, .keys, .entropy, .cust, .prompts]
  | .activationSupplyTimer => only [.cust]
  | .answerToReset _ => only [.cust, .prompts]
  | .ppsEcho _ => only [.cust, .prompts]
  | .reactivationWait => only [.cust]
  | .conditionQuery => only [.cust]
  | .readyMaxExpiry => only [.cust, .prompts]
  | .t1BlockRx _ => only [.keys, .entropy, .cust, .prompts]
  | .cardWaitExpiry => only [.cust, .prompts]
  | .statusPoll => only [.cust]
  | .waitMaxExpiry => only [.cust, .prompts]
  | .clockStop => only [.cust]
  | .authExpiry _ => only [.cust]
  | .shareHoldExpiry => only [.cust]
  | .rootLock _ => only [.alarms, .cust, .prompts]
  | .authorize _ => only [.alarms, .entropy, .cust, .prompts]
  | .importShare _ => only [.alarms, .entropy, .cust, .prompts]
  | .exportShare _ => only [.alarms, .entropy, .cust, .prompts]
  | .sharesClear _ => only [.alarms, .cust, .prompts]
  | .authEnd _ => only [.alarms, .cust, .prompts]
  | .reconDrop _ => only [.alarms, .cust, .prompts]
  | .deactivate _ => only [.alarms, .cust, .prompts]
  | .activate _ => only [.alarms, .cust, .prompts]
  | .sensorConditionEnd _ => only [.alarms]
  | .vaonReturn => only [.start, .time]
  | .packetOutAccept _ => only [.front]
  | .answerToResetTimeout => only [.cust, .prompts]
  | .ppsTimeout => only [.cust, .prompts]
  | .brokenHopRekey _ => only [.entropy, .relay]

/-- What a command's own effect leaves alone. -/
theorem exec_own (c : Instr) (s : State) : OwnKeeps (ownMoves c) s (exec c s) := by
  cases c with
  | porstNAssert => exact execPorstNAssert_own ..
  | porstNRelease => exact execPorstNRelease_own ..
  | blkrstNAssert => exact execBlkrstNAssert_own ..
  | blkrstNRelease => exact execBlkrstNRelease_own ..
  | resetResponseDiscardEnd => exact execResetResponseDiscardEnd_own ..
  | vaonLoss => exact execVaonLoss_own ..
  | sensorTrip _ _ _ => exact execSensorTrip_own ..
  | lockstep => exact execLockstep_own ..
  | erasureVerified _ => exact execErasureVerified_own ..
  | clearA => exact execClearA_own ..
  | clearB => exact execClearB_own ..
  | sequencerFault _ => exact execSequencerFault_own ..
  | wingFailure _ => exact execWingFailure_own ..
  | portClockLost _ => exact execPortClockLost_own ..
  | portClockReturn _ => exact execPortClockReturn_own ..
  | refclkLost => exact execRefclkLost_own ..
  | refclkReturn _ => exact execRefclkReturn_own ..
  | accessViolation _ _ _ => exact execAccessViolation_own ..
  | regWrite _ _ _ => exact execRegWrite_own ..
  | promptAccept => exact execPromptAccept_own ..
  | memReadData _ _ _ _ => exact execMemReadData_own ..
  | memWriteAck _ _ => exact execMemWriteAck_own ..
  | memRspErr _ _ => exact execMemRspErr_own ..
  | rootkeyAck _ _ => exact execRootkeyAck_own ..
  | rootkeyTimeout => exact execRootkeyTimeout_own ..
  | startStepDone _ _ _ => exact execStartStepDone_own ..
  | startStepBound _ => exact execStartStepBound_own ..
  | imagesValidWrite _ => exact execImagesValidWrite_own ..
  | acceptVersionWrite _ _ => exact execAcceptVersionWrite_own ..
  | clearFail _ => exact execClearFail_own ..
  | runStep _ => exact execRunStep_own ..
  | acceptUntested => exact execAcceptUntested_own ..
  | configure _ => exact execConfigure_own ..
  | start _ => exact execStart_own ..
  | curtain _ _ => exact execCurtain_own ..
  | curtainQuiet _ => exact execCurtainQuiet_own ..
  | restart _ => exact execRestart_own ..
  | reset _ => exact execReset_own ..
  | resetReport _ => exact execResetReport_own ..
  | disable _ => exact execDisable_own ..
  | freeze _ => exact execFreeze_own ..
  | thaw _ => exact execThaw_own ..
  | migOffer _ => exact execMigOffer_own ..
  | save _ => exact execSave_own ..
  | restore _ => exact execRestore_own ..
  | migCancel _ => exact execMigCancel_own ..
  | seatTransitionEnd _ => exact execSeatTransitionEnd_own ..
  | shareWrite _ _ _ => exact execShareWrite_own ..
  | seatXWrite _ _ => exact execSeatXWrite_own ..
  | atuInvalidate _ => exact execAtuInvalidate_own ..
  | atuInvalidateDone => exact execAtuInvalidateDone_own ..
  | atuFaultRead => exact execAtuFaultRead_own ..
  | doorbell _ _ _ _ => exact execDoorbell_own ..
  | cqHeadWrite _ _ _ _ => exact execCqHeadWrite_own ..
  | ringEnable _ _ _ _ => exact execRingEnable_own ..
  | ringDisable _ _ _ _ => exact execRingDisable_own ..
  | resume _ _ _ => exact execResume_own ..
  | ringSettingWrite _ _ _ _ _ => exact execRingSettingWrite_own ..
  | jobFetch _ => exact execJobFetch_own ..
  | promptEvaluation => exact execPromptEvaluation_own ..
  | jobDeadline _ => exact execJobDeadline_own ..
  | nop _ => exact execNop_own ..
  | fence _ => exact execFence_own ..
  | stamp _ => exact execStamp_own ..
  | unassignedOpcode _ => exact execUnassignedOpcode_own ..
  | jobPlacement _ => exact execJobPlacement_own ..
  | bayIssue _ => exact execBayIssue_own ..
  | segmentBoundary _ => exact execSegmentBoundary_own ..
  | heldRecordMark _ => exact execHeldRecordMark_own ..
  | epochBoundary _ => exact execEpochBoundary_own ..
  | wingIdle _ => exact execWingIdle_own ..
  | wingGated _ => exact execWingGated_own ..
  | wingWake _ => exact execWingWake_own ..
  | wingWakeDone _ => exact execWingWakeDone_own ..
  | advertisement => exact execAdvertisement_own ..
  | countermeasureReseed => exact execCountermeasureReseed_own ..
  | sealJob _ => exact execSealJob_own ..
  | openJob _ => exact execOpenJob_own ..
  | macGen _ => exact execMacGen_own ..
  | macVerify _ => exact execMacVerify_own ..
  | encrypt _ => exact execEncrypt_own ..
  | decrypt _ => exact execDecrypt_own ..
  | assocQuery _ => exact execAssocQuery_own ..
  | digest _ => exact execDigest_own ..
  | digestVerify _ => exact execDigestVerify_own ..
  | hmacGen _ => exact execHmacGen_own ..
  | hmacVerify _ => exact execHmacVerify_own ..
  | compare _ => exact execCompare_own ..
  | hmacLoad _ => exact execHmacLoad_own ..
  | hmacUnload _ => exact execHmacUnload_own ..
  | dwStart _ => exact execDwStart_own ..
  | dwDataWrite _ => exact execDwDataWrite_own ..
  | dwFinish _ => exact execDwFinish_own ..
  | dwAbort => exact execDwAbort_own ..
  | dwAbsorbDone => exact execDwAbsorbDone_own ..
  | modAdd _ => exact execModAdd_own ..
  | modSub _ => exact execModSub_own ..
  | modMul _ => exact execModMul_own ..
  | modInv _ => exact execModInv_own ..
  | modExp _ => exact execModExp_own ..
  | modExpCrt _ => exact execModExpCrt_own ..
  | engineLoad _ => exact execEngineLoad_own ..
  | runStart _ => exact execRunStart_own ..
  | datapathDone _ _ => exact execDatapathDone_own ..
  | releaseTick _ => exact execReleaseTick_own ..
  | wipeDone _ _ => exact execWipeDone_own ..
  | mldsaBlockTick _ => exact execMldsaBlockTick_own ..
  | floorWrite _ => exact execFloorWrite_own ..
  | rtQuery _ => exact execRtQuery_own ..
  | slackRead _ => exact execSlackRead_own ..
  | faultLogRead => exact execFaultLogRead_own ..
  | admitStsRead _ => exact execAdmitStsRead_own ..
  | ecKeygen _ => exact execEcKeygen_own ..
  | ecdsaSign _ => exact execEcdsaSign_own ..
  | ecdsaVerify _ => exact execEcdsaVerify_own ..
  | ecdh _ => exact execEcdh_own ..
  | ed25519Sign _ => exact execEd25519Sign_own ..
  | ed25519Verify _ => exact execEd25519Verify_own ..
  | mlkemKeygen _ => exact execMlkemKeygen_own ..
  | mlkemEncaps _ => exact execMlkemEncaps_own ..
  | mlkemDecaps _ => exact execMlkemDecaps_own ..
  | mldsaKeygen _ => exact execMldsaKeygen_own ..
  | mldsaSign _ => exact execMldsaSign_own ..
  | mldsaVerify _ => exact execMldsaVerify_own ..
  | poly _ => exact execPoly_own ..
  | keyImport _ => exact execKeyImport_own ..
  | keyExport _ => exact execKeyExport_own ..
  | keyGenerate _ => exact execKeyGenerate_own ..
  | keyDerive _ => exact execKeyDerive_own ..
  | keyDelete _ => exact execKeyDelete_own ..
  | keyInfo _ => exact execKeyInfo_own ..
  | keyRestrict _ => exact execKeyRestrict_own ..
  | keyEscrowOut _ => exact execKeyEscrowOut_own ..
  | keyEscrowIn _ => exact execKeyEscrowIn_own ..
  | eraseBwk => exact execEraseBwk_own ..
  | sourceBlock _ _ => exact execSourceBlock_own ..
  | sourceRestartDone _ => exact execSourceRestartDone_own ..
  | wordDelivery => exact execWordDelivery_own ..
  | reseedDue _ => exact execReseedDue_own ..
  | instHeld _ => exact execInstHeld_own ..
  | seedingDeadline _ => exact execSeedingDeadline_own ..
  | rngGet _ => exact execRngGet_own ..
  | rngReseed _ => exact execRngReseed_own ..
  | rngRaw _ => exact execRngRaw_own ..
  | enterRehearsal => exact execEnterRehearsal_own ..
  | exitRehearsal => exact execExitRehearsal_own ..
  | revive _ => exact execRevive_own ..
  | clearCounts => exact execClearCounts_own ..
  | packetIn _ _ _ _ => exact execPacketIn_own ..
  | assocWrite _ => exact execAssocWrite_own ..
  | assocKill _ => exact execAssocKill_own ..
  | nodeWrite _ _ => exact execNodeWrite_own ..
  | swap => exact execSwap_own ..
  | epochDrainEnd => exact execEpochDrainEnd_own ..
  | rehash => exact execRehash_own ..
  | rehashDone => exact execRehashDone_own ..
  | peerAgeVisit _ => exact execPeerAgeVisit_own ..
  | strangerStsRead _ => exact execStrangerStsRead_own ..
  | timePortValue => exact execTimePortValue_own ..
  | ppsRise => exact execPpsRise_own ..
  | ppsFall => exact execPpsFall_own ..
  | captureEdge _ => exact execCaptureEdge_own ..
  | captureSnapshot _ => exact execCaptureSnapshot_own ..
  | nowSnapshot => exact execNowSnapshot_own ..
  | secureSnapshot => exact execSecureSnapshot_own ..
  | rateWrite _ => exact execRateWrite_own ..
  | timeStep _ => exact execTimeStep_own ..
  | slew _ => exact execSlew_own ..
  | cancelSlew => exact execCancelSlew_own ..
  | slewDone => exact execSlewDone_own ..
  | secAdvance _ => exact execSecAdvance_own ..
  | linkUp _ => exact execLinkUp_own ..
  | creditReturn _ => exact execCreditReturn_own ..
  | hopBreak _ => exact execHopBreak_own ..
  | hopSilence _ => exact execHopSilence_own ..
  | hopRekeyDue _ => exact execHopRekeyDue_own ..
  | hello _ _ _ => exact execHello_own ..
  | reply _ _ _ => exact execReply_own ..
  | confirm _ => exact execConfirm_own ..
  | echo _ _ _ => exact execEcho_own ..
  | probe _ _ _ _ => exact execProbe_own ..
  | electionStart => exact execElectionStart_own ..
  | elect _ _ => exact execElect_own ..
  | number _ _ => exact execNumber_own ..
  | map _ _ => exact execMap_own ..
  | join _ _ _ _ _ _ => exact execJoin_own ..
  | adv _ _ _ _ => exact execAdv_own ..
  | relayJob _ _ => exact execRelayJob_own ..
  | relayDone _ _ => exact execRelayDone_own ..
  | relayCancel _ _ => exact execRelayCancel_own ..
  | relayAlarm _ _ => exact execRelayAlarm_own ..
  | relayBreak _ _ => exact execRelayBreak_own ..
  | timeSend => exact execTimeSend_own ..
  | time _ _ _ => exact execTime_own ..
  | timeLoss => exact execTimeLoss_own ..
  | mailSend _ => exact execMailSend_own ..
  | mail _ _ _ _ _ => exact execMail_own ..
  | inboxRelease _ => exact execInboxRelease_own ..
  | cardInsert => exact execCardInsert_own ..
  | cardDebounce => exact execCardDebounce_own ..
  | cardRemoval => exact execCardRemoval_own ..
  | activationSupplyTimer => exact execActivationSupplyTimer_own ..
  | answerToReset _ => exact execAnswerToReset_own ..
  | ppsEcho _ => exact execPpsEcho_own ..
  | reactivationWait => exact execReactivationWait_own ..
  | conditionQuery => exact execConditionQuery_own ..
  | readyMaxExpiry => exact execReadyMaxExpiry_own ..
  | t1BlockRx _ => exact execT1BlockRx_own ..
  | cardWaitExpiry => exact execCardWaitExpiry_own ..
  | statusPoll => exact execStatusPoll_own ..
  | waitMaxExpiry => exact execWaitMaxExpiry_own ..
  | clockStop => exact execClockStop_own ..
  | authExpiry _ => exact execAuthExpiry_own ..
  | shareHoldExpiry => exact execShareHoldExpiry_own ..
  | rootLock _ => exact execRootLock_own ..
  | authorize _ => exact execAuthorize_own ..
  | importShare _ => exact execImportShare_own ..
  | exportShare _ => exact execExportShare_own ..
  | sharesClear _ => exact execSharesClear_own ..
  | authEnd _ => exact execAuthEnd_own ..
  | reconDrop _ => exact execReconDrop_own ..
  | deactivate _ => exact execDeactivate_own ..
  | activate _ => exact execActivate_own ..
  | sensorConditionEnd _ => exact execSensorConditionEnd_own ..
  | vaonReturn => exact execVaonReturn_own ..
  | packetOutAccept _ => exact execPacketOutAccept_own ..
  | answerToResetTimeout => exact execAnswerToResetTimeout_own ..
  | ppsTimeout => exact execPpsTimeout_own ..
  | brokenHopRekey _ => exact execBrokenHopRekey_own ..

end Sys2Proof.Machine
end

