-- ==== Sys2Proof/Laws/Updates.lean ====
section
/-! SUPPORT. For each update of a part of the state, or of a table inside one, what it leaves alone, and what the part becomes. -/

namespace Sys2Proof.Machine

@[simp] theorem State.modStart_fields (s : State) (f : Start → Start) : (s.modStart f).start = f s.start ∧ (s.modStart f).pending = s.pending ∧
    (s.modStart f).params = s.params ∧ (s.modStart f).journal = s.journal ∧ (s.modStart f).alarms = s.alarms ∧ (s.modStart f).seats = s.seats ∧
    (s.modStart f).rings = s.rings ∧ (s.modStart f).seatRegs = s.seatRegs ∧ (s.modStart f).offers = s.offers ∧ (s.modStart f).jobs = s.jobs ∧
    (s.modStart f).nextJob = s.nextJob ∧ (s.modStart f).mem = s.mem ∧ (s.modStart f).place = s.place ∧ (s.modStart f).buffers = s.buffers ∧
    (s.modStart f).engines = s.engines ∧ (s.modStart f).keys = s.keys ∧ (s.modStart f).window = s.window ∧ (s.modStart f).entropy = s.entropy ∧
    (s.modStart f).front = s.front ∧ (s.modStart f).time = s.time ∧ (s.modStart f).relay = s.relay ∧ (s.modStart f).cust = s.cust ∧
    (s.modStart f).prompts = s.prompts ∧ (s.modStart f).freeCount = s.freeCount :=
  ⟨rfl, rfl, rfl, rfl, rfl, rfl, rfl, rfl, rfl, rfl, rfl, rfl, rfl, rfl, rfl, rfl, rfl, rfl, rfl, rfl, rfl, rfl, rfl, rfl⟩

@[simp] theorem State.modJournal_fields (s : State) (f : Journal → Journal) : (s.modJournal f).journal = f s.journal ∧ (s.modJournal f).pending = s.pending ∧
    (s.modJournal f).params = s.params ∧ (s.modJournal f).start = s.start ∧ (s.modJournal f).alarms = s.alarms ∧ (s.modJournal f).seats = s.seats ∧
    (s.modJournal f).rings = s.rings ∧ (s.modJournal f).seatRegs = s.seatRegs ∧ (s.modJournal f).offers = s.offers ∧ (s.modJournal f).jobs = s.jobs ∧
    (s.modJournal f).nextJob = s.nextJob ∧ (s.modJournal f).mem = s.mem ∧ (s.modJournal f).place = s.place ∧ (s.modJournal f).buffers = s.buffers ∧
    (s.modJournal f).engines = s.engines ∧ (s.modJournal f).keys = s.keys ∧ (s.modJournal f).window = s.window ∧ (s.modJournal f).entropy = s.entropy ∧
    (s.modJournal f).front = s.front ∧ (s.modJournal f).time = s.time ∧ (s.modJournal f).relay = s.relay ∧ (s.modJournal f).cust = s.cust ∧
    (s.modJournal f).prompts = s.prompts ∧ (s.modJournal f).freeCount = s.freeCount :=
  ⟨rfl, rfl, rfl, rfl, rfl, rfl, rfl, rfl, rfl, rfl, rfl, rfl, rfl, rfl, rfl, rfl, rfl, rfl, rfl, rfl, rfl, rfl, rfl, rfl⟩

@[simp] theorem State.modAlarms_fields (s : State) (f : Alarms → Alarms) : (s.modAlarms f).alarms = f s.alarms ∧ (s.modAlarms f).pending = s.pending ∧
    (s.modAlarms f).params = s.params ∧ (s.modAlarms f).start = s.start ∧ (s.modAlarms f).journal = s.journal ∧ (s.modAlarms f).seats = s.seats ∧
    (s.modAlarms f).rings = s.rings ∧ (s.modAlarms f).seatRegs = s.seatRegs ∧ (s.modAlarms f).offers = s.offers ∧ (s.modAlarms f).jobs = s.jobs ∧
    (s.modAlarms f).nextJob = s.nextJob ∧ (s.modAlarms f).mem = s.mem ∧ (s.modAlarms f).place = s.place ∧ (s.modAlarms f).buffers = s.buffers ∧
    (s.modAlarms f).engines = s.engines ∧ (s.modAlarms f).keys = s.keys ∧ (s.modAlarms f).window = s.window ∧ (s.modAlarms f).entropy = s.entropy ∧
    (s.modAlarms f).front = s.front ∧ (s.modAlarms f).time = s.time ∧ (s.modAlarms f).relay = s.relay ∧ (s.modAlarms f).cust = s.cust ∧
    (s.modAlarms f).prompts = s.prompts ∧ (s.modAlarms f).freeCount = s.freeCount :=
  ⟨rfl, rfl, rfl, rfl, rfl, rfl, rfl, rfl, rfl, rfl, rfl, rfl, rfl, rfl, rfl, rfl, rfl, rfl, rfl, rfl, rfl, rfl, rfl, rfl⟩

@[simp] theorem State.modRegs_fields (s : State) (f : SeatRegs → SeatRegs) : (s.modRegs f).seatRegs = f s.seatRegs ∧ (s.modRegs f).pending = s.pending ∧
    (s.modRegs f).params = s.params ∧ (s.modRegs f).start = s.start ∧ (s.modRegs f).journal = s.journal ∧ (s.modRegs f).alarms = s.alarms ∧
    (s.modRegs f).seats = s.seats ∧ (s.modRegs f).rings = s.rings ∧ (s.modRegs f).offers = s.offers ∧ (s.modRegs f).jobs = s.jobs ∧
    (s.modRegs f).nextJob = s.nextJob ∧ (s.modRegs f).mem = s.mem ∧ (s.modRegs f).place = s.place ∧ (s.modRegs f).buffers = s.buffers ∧
    (s.modRegs f).engines = s.engines ∧ (s.modRegs f).keys = s.keys ∧ (s.modRegs f).window = s.window ∧ (s.modRegs f).entropy = s.entropy ∧
    (s.modRegs f).front = s.front ∧ (s.modRegs f).time = s.time ∧ (s.modRegs f).relay = s.relay ∧ (s.modRegs f).cust = s.cust ∧
    (s.modRegs f).prompts = s.prompts ∧ (s.modRegs f).freeCount = s.freeCount :=
  ⟨rfl, rfl, rfl, rfl, rfl, rfl, rfl, rfl, rfl, rfl, rfl, rfl, rfl, rfl, rfl, rfl, rfl, rfl, rfl, rfl, rfl, rfl, rfl, rfl⟩

@[simp] theorem State.modKeys_fields (s : State) (f : KeyStore → KeyStore) : (s.modKeys f).keys = f s.keys ∧ (s.modKeys f).pending = s.pending ∧
    (s.modKeys f).params = s.params ∧ (s.modKeys f).start = s.start ∧ (s.modKeys f).journal = s.journal ∧ (s.modKeys f).alarms = s.alarms ∧
    (s.modKeys f).seats = s.seats ∧ (s.modKeys f).rings = s.rings ∧ (s.modKeys f).seatRegs = s.seatRegs ∧ (s.modKeys f).offers = s.offers ∧
    (s.modKeys f).jobs = s.jobs ∧ (s.modKeys f).nextJob = s.nextJob ∧ (s.modKeys f).mem = s.mem ∧ (s.modKeys f).place = s.place ∧
    (s.modKeys f).buffers = s.buffers ∧ (s.modKeys f).engines = s.engines ∧ (s.modKeys f).window = s.window ∧ (s.modKeys f).entropy = s.entropy ∧
    (s.modKeys f).front = s.front ∧ (s.modKeys f).time = s.time ∧ (s.modKeys f).relay = s.relay ∧ (s.modKeys f).cust = s.cust ∧
    (s.modKeys f).prompts = s.prompts ∧ (s.modKeys f).freeCount = s.freeCount :=
  ⟨rfl, rfl, rfl, rfl, rfl, rfl, rfl, rfl, rfl, rfl, rfl, rfl, rfl, rfl, rfl, rfl, rfl, rfl, rfl, rfl, rfl, rfl, rfl, rfl⟩

@[simp] theorem State.modWindow_fields (s : State) (f : DigestWindow → DigestWindow) : (s.modWindow f).window = f s.window ∧
    (s.modWindow f).pending = s.pending ∧ (s.modWindow f).params = s.params ∧ (s.modWindow f).start = s.start ∧ (s.modWindow f).journal = s.journal ∧
    (s.modWindow f).alarms = s.alarms ∧ (s.modWindow f).seats = s.seats ∧ (s.modWindow f).rings = s.rings ∧ (s.modWindow f).seatRegs = s.seatRegs ∧
    (s.modWindow f).offers = s.offers ∧ (s.modWindow f).jobs = s.jobs ∧ (s.modWindow f).nextJob = s.nextJob ∧ (s.modWindow f).mem = s.mem ∧
    (s.modWindow f).place = s.place ∧ (s.modWindow f).buffers = s.buffers ∧ (s.modWindow f).engines = s.engines ∧ (s.modWindow f).keys = s.keys ∧
    (s.modWindow f).entropy = s.entropy ∧ (s.modWindow f).front = s.front ∧ (s.modWindow f).time = s.time ∧ (s.modWindow f).relay = s.relay ∧
    (s.modWindow f).cust = s.cust ∧ (s.modWindow f).prompts = s.prompts ∧ (s.modWindow f).freeCount = s.freeCount :=
  ⟨rfl, rfl, rfl, rfl, rfl, rfl, rfl, rfl, rfl, rfl, rfl, rfl, rfl, rfl, rfl, rfl, rfl, rfl, rfl, rfl, rfl, rfl, rfl, rfl⟩

@[simp] theorem State.modFront_fields (s : State) (f : Front → Front) : (s.modFront f).front = f s.front ∧ (s.modFront f).pending = s.pending ∧
    (s.modFront f).params = s.params ∧ (s.modFront f).start = s.start ∧ (s.modFront f).journal = s.journal ∧ (s.modFront f).alarms = s.alarms ∧
    (s.modFront f).seats = s.seats ∧ (s.modFront f).rings = s.rings ∧ (s.modFront f).seatRegs = s.seatRegs ∧ (s.modFront f).offers = s.offers ∧
    (s.modFront f).jobs = s.jobs ∧ (s.modFront f).nextJob = s.nextJob ∧ (s.modFront f).mem = s.mem ∧ (s.modFront f).place = s.place ∧
    (s.modFront f).buffers = s.buffers ∧ (s.modFront f).engines = s.engines ∧ (s.modFront f).keys = s.keys ∧ (s.modFront f).window = s.window ∧
    (s.modFront f).entropy = s.entropy ∧ (s.modFront f).time = s.time ∧ (s.modFront f).relay = s.relay ∧ (s.modFront f).cust = s.cust ∧
    (s.modFront f).prompts = s.prompts ∧ (s.modFront f).freeCount = s.freeCount :=
  ⟨rfl, rfl, rfl, rfl, rfl, rfl, rfl, rfl, rfl, rfl, rfl, rfl, rfl, rfl, rfl, rfl, rfl, rfl, rfl, rfl, rfl, rfl, rfl, rfl⟩

@[simp] theorem State.modRelay_fields (s : State) (f : Relay → Relay) : (s.modRelay f).relay = f s.relay ∧ (s.modRelay f).pending = s.pending ∧
    (s.modRelay f).params = s.params ∧ (s.modRelay f).start = s.start ∧ (s.modRelay f).journal = s.journal ∧ (s.modRelay f).alarms = s.alarms ∧
    (s.modRelay f).seats = s.seats ∧ (s.modRelay f).rings = s.rings ∧ (s.modRelay f).seatRegs = s.seatRegs ∧ (s.modRelay f).offers = s.offers ∧
    (s.modRelay f).jobs = s.jobs ∧ (s.modRelay f).nextJob = s.nextJob ∧ (s.modRelay f).mem = s.mem ∧ (s.modRelay f).place = s.place ∧
    (s.modRelay f).buffers = s.buffers ∧ (s.modRelay f).engines = s.engines ∧ (s.modRelay f).keys = s.keys ∧ (s.modRelay f).window = s.window ∧
    (s.modRelay f).entropy = s.entropy ∧ (s.modRelay f).front = s.front ∧ (s.modRelay f).time = s.time ∧ (s.modRelay f).cust = s.cust ∧
    (s.modRelay f).prompts = s.prompts ∧ (s.modRelay f).freeCount = s.freeCount :=
  ⟨rfl, rfl, rfl, rfl, rfl, rfl, rfl, rfl, rfl, rfl, rfl, rfl, rfl, rfl, rfl, rfl, rfl, rfl, rfl, rfl, rfl, rfl, rfl, rfl⟩

@[simp] theorem State.modCust_fields (s : State) (f : Cust → Cust) : (s.modCust f).cust = f s.cust ∧ (s.modCust f).pending = s.pending ∧
    (s.modCust f).params = s.params ∧ (s.modCust f).start = s.start ∧ (s.modCust f).journal = s.journal ∧ (s.modCust f).alarms = s.alarms ∧
    (s.modCust f).seats = s.seats ∧ (s.modCust f).rings = s.rings ∧ (s.modCust f).seatRegs = s.seatRegs ∧ (s.modCust f).offers = s.offers ∧
    (s.modCust f).jobs = s.jobs ∧ (s.modCust f).nextJob = s.nextJob ∧ (s.modCust f).mem = s.mem ∧ (s.modCust f).place = s.place ∧
    (s.modCust f).buffers = s.buffers ∧ (s.modCust f).engines = s.engines ∧ (s.modCust f).keys = s.keys ∧ (s.modCust f).window = s.window ∧
    (s.modCust f).entropy = s.entropy ∧ (s.modCust f).front = s.front ∧ (s.modCust f).time = s.time ∧ (s.modCust f).relay = s.relay ∧
    (s.modCust f).prompts = s.prompts ∧ (s.modCust f).freeCount = s.freeCount :=
  ⟨rfl, rfl, rfl, rfl, rfl, rfl, rfl, rfl, rfl, rfl, rfl, rfl, rfl, rfl, rfl, rfl, rfl, rfl, rfl, rfl, rfl, rfl, rfl, rfl⟩

@[simp] theorem State.modCustRec_fields (s : State) (i : Nat) (f : CustRec → CustRec) : (s.modCustRec i f).pending = s.pending ∧
    (s.modCustRec i f).params = s.params ∧ (s.modCustRec i f).start = s.start ∧ (s.modCustRec i f).journal = s.journal ∧
    (s.modCustRec i f).alarms = s.alarms ∧ (s.modCustRec i f).seats = s.seats ∧ (s.modCustRec i f).rings = s.rings ∧
    (s.modCustRec i f).seatRegs = s.seatRegs ∧ (s.modCustRec i f).offers = s.offers ∧ (s.modCustRec i f).jobs = s.jobs ∧
    (s.modCustRec i f).nextJob = s.nextJob ∧ (s.modCustRec i f).mem = s.mem ∧ (s.modCustRec i f).place = s.place ∧ (s.modCustRec i f).buffers = s.buffers ∧
    (s.modCustRec i f).engines = s.engines ∧ (s.modCustRec i f).keys = s.keys ∧ (s.modCustRec i f).window = s.window ∧
    (s.modCustRec i f).entropy = s.entropy ∧ (s.modCustRec i f).front = s.front ∧ (s.modCustRec i f).time = s.time ∧ (s.modCustRec i f).relay = s.relay ∧
    (s.modCustRec i f).prompts = s.prompts ∧ (s.modCustRec i f).freeCount = s.freeCount :=
  ⟨rfl, rfl, rfl, rfl, rfl, rfl, rfl, rfl, rfl, rfl, rfl, rfl, rfl, rfl, rfl, rfl, rfl, rfl, rfl, rfl, rfl, rfl, rfl⟩

@[simp] theorem State.setCapture_fields (s : State) (n : Nat) (c : Capture) : (s.setCapture n c).pending = s.pending ∧ (s.setCapture n c).params = s.params ∧
    (s.setCapture n c).start = s.start ∧ (s.setCapture n c).journal = s.journal ∧ (s.setCapture n c).alarms = s.alarms ∧ (s.setCapture n c).seats = s.seats ∧
    (s.setCapture n c).rings = s.rings ∧ (s.setCapture n c).seatRegs = s.seatRegs ∧ (s.setCapture n c).offers = s.offers ∧ (s.setCapture n c).jobs = s.jobs ∧
    (s.setCapture n c).nextJob = s.nextJob ∧ (s.setCapture n c).mem = s.mem ∧ (s.setCapture n c).place = s.place ∧ (s.setCapture n c).buffers = s.buffers ∧
    (s.setCapture n c).engines = s.engines ∧ (s.setCapture n c).keys = s.keys ∧ (s.setCapture n c).window = s.window ∧
    (s.setCapture n c).entropy = s.entropy ∧ (s.setCapture n c).front = s.front ∧ (s.setCapture n c).relay = s.relay ∧ (s.setCapture n c).cust = s.cust ∧
    (s.setCapture n c).prompts = s.prompts ∧ (s.setCapture n c).freeCount = s.freeCount :=
  ⟨rfl, rfl, rfl, rfl, rfl, rfl, rfl, rfl, rfl, rfl, rfl, rfl, rfl, rfl, rfl, rfl, rfl, rfl, rfl, rfl, rfl, rfl, rfl⟩

@[simp] theorem State.modAccess_fields (s : State) (id : Nat) (f : Access → Access) : (s.modAccess id f).pending = s.pending ∧
    (s.modAccess id f).params = s.params ∧ (s.modAccess id f).start = s.start ∧ (s.modAccess id f).journal = s.journal ∧
    (s.modAccess id f).alarms = s.alarms ∧ (s.modAccess id f).seats = s.seats ∧ (s.modAccess id f).rings = s.rings ∧
    (s.modAccess id f).seatRegs = s.seatRegs ∧ (s.modAccess id f).offers = s.offers ∧ (s.modAccess id f).jobs = s.jobs ∧
    (s.modAccess id f).nextJob = s.nextJob ∧ (s.modAccess id f).place = s.place ∧ (s.modAccess id f).buffers = s.buffers ∧
    (s.modAccess id f).engines = s.engines ∧ (s.modAccess id f).keys = s.keys ∧ (s.modAccess id f).window = s.window ∧
    (s.modAccess id f).entropy = s.entropy ∧ (s.modAccess id f).front = s.front ∧ (s.modAccess id f).time = s.time ∧ (s.modAccess id f).relay = s.relay ∧
    (s.modAccess id f).cust = s.cust ∧ (s.modAccess id f).prompts = s.prompts ∧ (s.modAccess id f).freeCount = s.freeCount :=
  ⟨rfl, rfl, rfl, rfl, rfl, rfl, rfl, rfl, rfl, rfl, rfl, rfl, rfl, rfl, rfl, rfl, rfl, rfl, rfl, rfl, rfl, rfl, rfl⟩

@[simp] theorem State.dropAccess_fields (s : State) (id : Nat) : (s.dropAccess id).pending = s.pending ∧ (s.dropAccess id).params = s.params ∧
    (s.dropAccess id).start = s.start ∧ (s.dropAccess id).journal = s.journal ∧ (s.dropAccess id).alarms = s.alarms ∧ (s.dropAccess id).seats = s.seats ∧
    (s.dropAccess id).rings = s.rings ∧ (s.dropAccess id).seatRegs = s.seatRegs ∧ (s.dropAccess id).offers = s.offers ∧ (s.dropAccess id).jobs = s.jobs ∧
    (s.dropAccess id).nextJob = s.nextJob ∧ (s.dropAccess id).place = s.place ∧ (s.dropAccess id).buffers = s.buffers ∧
    (s.dropAccess id).engines = s.engines ∧ (s.dropAccess id).keys = s.keys ∧ (s.dropAccess id).window = s.window ∧ (s.dropAccess id).entropy = s.entropy ∧
    (s.dropAccess id).front = s.front ∧ (s.dropAccess id).time = s.time ∧ (s.dropAccess id).relay = s.relay ∧ (s.dropAccess id).cust = s.cust ∧
    (s.dropAccess id).prompts = s.prompts ∧ (s.dropAccess id).freeCount = s.freeCount :=
  ⟨rfl, rfl, rfl, rfl, rfl, rfl, rfl, rfl, rfl, rfl, rfl, rfl, rfl, rfl, rfl, rfl, rfl, rfl, rfl, rfl, rfl, rfl, rfl⟩

@[simp] theorem State.modHop_fields (s : State) (sd : Side) (f : RHop → RHop) : (s.modHop sd f).pending = s.pending ∧ (s.modHop sd f).params = s.params ∧
    (s.modHop sd f).start = s.start ∧ (s.modHop sd f).journal = s.journal ∧ (s.modHop sd f).alarms = s.alarms ∧ (s.modHop sd f).seats = s.seats ∧
    (s.modHop sd f).rings = s.rings ∧ (s.modHop sd f).seatRegs = s.seatRegs ∧ (s.modHop sd f).offers = s.offers ∧ (s.modHop sd f).jobs = s.jobs ∧
    (s.modHop sd f).nextJob = s.nextJob ∧ (s.modHop sd f).mem = s.mem ∧ (s.modHop sd f).place = s.place ∧ (s.modHop sd f).buffers = s.buffers ∧
    (s.modHop sd f).engines = s.engines ∧ (s.modHop sd f).keys = s.keys ∧ (s.modHop sd f).window = s.window ∧ (s.modHop sd f).entropy = s.entropy ∧
    (s.modHop sd f).front = s.front ∧ (s.modHop sd f).time = s.time ∧ (s.modHop sd f).cust = s.cust ∧ (s.modHop sd f).prompts = s.prompts ∧
    (s.modHop sd f).freeCount = s.freeCount :=
  by cases sd <;> exact ⟨rfl, rfl, rfl, rfl, rfl, rfl, rfl, rfl, rfl, rfl, rfl, rfl, rfl, rfl, rfl, rfl, rfl, rfl, rfl, rfl, rfl, rfl, rfl⟩

end Sys2Proof.Machine
end

