-- ==== Sys2Proof/WellFormed.lean ====
section
/-! DEFINITION. WELL-FORMED COMMANDS: the ranges the manual gives the operands of a command. A meaning takes any operand (it reduces a
register number as the address lines do, R62, or does nothing where no such unit exists); these checks name the operands the hardware can
bring. -/

namespace Sys2Proof

/-- A relay hop header: 1 to 255 flits and a 48-bit SEQ (R475), one-byte SRC, DST and HOPS (R477). -/
def Hop.wf (h : Hop) : Bool :=
  decide (1 ≤ h.flits) && decide (h.flits ≤ 255) && decide (h.src < 256) && decide (h.dst < 256) && decide (h.hops < 256) && decide (h.seq < 2 ^ 48)

/-- A member's number or a position in the MAP (R477, R483). -/
def memberWf (m : Nat) : Bool := decide (m < 255)

/-- HREG_SRC: the physical function, or a seat (R62). -/
def srcWf (src : Nat) : Bool := decide (src ≤ 0x400)

/-- A word-aligned offset of the 24-bit window (R62). -/
def offWf (off : Nat) : Bool := decide (off < 2 ^ 24) && decide (off % 4 = 0)

/-- A seat (R128), a ring slot (R169), a bay and a wing (R20), a noise source (R398), a DRBG instance (R406), a start step (R102). -/
def seatWf (m : Nat) : Bool := decide (m < 1024)
def slotWf (k : Nat) : Bool := decide (k < 16)
def bayWf (b : Nat) : Bool := decide (b < 64)
def wingWf (w : Nat) : Bool := decide (w < 8)
def sourceWf (i : Nat) : Bool := decide (i < 16)
def instWf (i : Nat) : Bool := decide (i < 1032)
def stepWf (k : Nat) : Bool := decide (1 ≤ k) && decide (k ≤ 12)

/-- A memory port and a request tag (R66), a 128-byte beat (R68). -/
def portWf (p : Nat) : Bool := decide (p < 4)
def tagWf (t : Nat) : Bool := decide (t < 512)
def beatWf (b : Bytes) : Bool := b.length == 128

/-- The command's operands are in the ranges the manual gives them. -/
def Instr.wf (i : Instr) : Bool :=
  match i with
  | .sequencerFault bay | .bayIssue bay => bayWf bay
  | .wingFailure wing | .wingIdle wing | .wingGated wing | .wingWake wing | .wingWakeDone wing | .engineLoad wing | .runStart wing
  | .releaseTick wing | .mldsaBlockTick wing | .slackRead wing => wingWf wing
  | .datapathDone wing _ | .wipeDone wing _ => wingWf wing
  | .accessViolation src off _ => srcWf src && offWf off
  | .regWrite src off _ => srcWf src && offWf off
  | .memReadData port tag beat _ => portWf port && tagWf tag && beatWf beat
  | .memWriteAck port tag => portWf port && tagWf tag
  | .memRspErr port tag => portWf port && tagWf tag.tag
  | .startStepDone step _ _ => stepWf step
  | .startStepBound step => stepWf step
  | .clearFail step | .runStep step => decide (step < 16)
  | .configure seat | .start seat | .curtainQuiet seat | .restart seat | .reset seat | .resetReport seat | .disable seat | .freeze seat
  | .thaw seat | .migOffer seat | .save seat | .restore seat | .migCancel seat | .seatTransitionEnd seat | .jobFetch seat
  | .admitStsRead seat | .strangerStsRead seat => seatWf seat
  | .curtain seat _ => seatWf seat
  | .shareWrite seat which _ => seatWf seat && decide (which < 3)
  | .seatXWrite reg _ => decide (0x0C ≤ reg) && decide (reg ≤ 0x20) && decide (reg % 4 = 0)
  | .doorbell src seat slot _ | .cqHeadWrite src seat slot _ => srcWf src && seatWf seat && slotWf slot
  | .ringEnable src seat slot _ | .ringDisable src seat slot _ => srcWf src && seatWf seat && slotWf slot
  | .resume src seat slot => srcWf src && seatWf seat && slotWf slot
  | .ringSettingWrite src seat slot reg _ => srcWf src && seatWf seat && slotWf slot && decide (reg < 0x80) && decide (reg % 4 = 0)
  | .epochBoundary slots => slots.all (fun p => bayWf p.1)
  | .dwStart alg => decide (alg < 16)
  | .dwFinish n => decide (n < 16)
  | .sourceBlock source _ | .sourceRestartDone source => sourceWf source
  | .reseedDue inst | .instHeld inst => instWf inst
  | .revive mask => decide (mask < 2 ^ 16)
  | .packetIn port _ _ _ => decide (port < 2)
  | .packetOutAccept port => decide (port < 2)
  | .nodeWrite off _ => decide (off < 0x1000) && decide (off % 4 = 0)
  | .peerAgeVisit bucket => decide (bucket < 65536)
  | .captureEdge n | .captureSnapshot n => decide (n < 8)
  | .hello x25519 mlkem _ => x25519.length == 32 && mlkem.length == 1184
  | .reply x25519 ct w => x25519.length == 32 && ct.length == 1088 && w.length == 32
  | .confirm e => e.length == 32
  | .echo _ e _ => decide (e.flits < 256) && decide (e.seq < 2 ^ 48)
  | .probe hop _ _ leader => hop.wf && decide (leader < 256)
  | .elect hop c => hop.wf && decide (c.value < 2 ^ 64)
  | .number hop next => hop.wf && decide (next ≤ 255)
  | .map hop entries => hop.wf && decide (entries.length ≤ 255)
  | .join hop _ _ given _ _ => hop.wf && decide (given < 256)
  | .adv hop _ _ _ => hop.wf
  | .relayJob hop _ => hop.wf
  | .relayDone hop done => hop.wf && statusCodes.contains done.status
  | .relayCancel hop _ => hop.wf
  | .relayAlarm hop member => hop.wf && memberWf member
  | .relayBreak hop position => hop.wf && memberWf position
  | .time hop _ _ => hop.wf
  | .mail hop total offset part _ => hop.wf && decide (total ≤ 2 ^ 24) && decide (offset + part.length ≤ total)
  | .authExpiry act => decide (1 ≤ act) && decide (act ≤ 3)
  | .rootLock arg | .authorize arg | .importShare arg | .exportShare arg | .sharesClear arg | .authEnd arg | .reconDrop arg
  | .deactivate arg | .activate arg => decide (arg < 2 ^ 24)
  | .porstNAssert | .porstNRelease | .blkrstNAssert | .blkrstNRelease | .resetResponseDiscardEnd | .vaonLoss | .lockstep | .clearA
  | .vaonReturn | .clearB | .refclkLost | .promptAccept | .rootkeyTimeout | .acceptUntested | .atuInvalidateDone | .atuFaultRead | .promptEvaluation
  | .advertisement | .countermeasureReseed | .dwAbort | .dwAbsorbDone | .faultLogRead | .eraseBwk | .wordDelivery | .enterRehearsal
  | .exitRehearsal | .clearCounts | .swap | .epochDrainEnd | .rehash | .rehashDone | .timePortValue | .ppsRise | .ppsFall
  | .nowSnapshot | .secureSnapshot | .cancelSlew | .slewDone | .electionStart | .timeSend | .timeLoss | .cardInsert | .cardDebounce
  | .cardRemoval | .activationSupplyTimer | .reactivationWait | .conditionQuery | .readyMaxExpiry | .cardWaitExpiry | .statusPoll
  | .waitMaxExpiry | .clockStop | .shareHoldExpiry | .answerToResetTimeout | .ppsTimeout => true
  | .sensorTrip _ _ _ | .erasureVerified _ | .portClockLost _ | .portClockReturn _ | .refclkReturn _ | .rootkeyAck _ _
  | .imagesValidWrite _ | .acceptVersionWrite _ _ | .atuInvalidate _ | .dwDataWrite _ | .floorWrite _ | .rtQuery _ | .rateWrite _
  | .timeStep _ | .slew _ | .secAdvance _ | .linkUp _ | .creditReturn _ | .hopBreak _ | .hopSilence _ | .hopRekeyDue _ | .mailSend _
  | .inboxRelease _ | .answerToReset _ | .ppsEcho _ | .t1BlockRx _ | .sensorConditionEnd _ | .brokenHopRekey _ => true
  | .jobDeadline _ | .nop _ | .fence _ | .stamp _ | .unassignedOpcode _ | .jobPlacement _ | .segmentBoundary _ | .heldRecordMark _
  | .sealJob _ | .openJob _ | .macGen _ | .macVerify _ | .encrypt _ | .decrypt _ | .assocQuery _ | .digest _ | .digestVerify _
  | .hmacGen _ | .hmacVerify _ | .compare _ | .hmacLoad _ | .hmacUnload _ | .modAdd _ | .modSub _ | .modMul _ | .modInv _
  | .modExp _ | .modExpCrt _ | .ecKeygen _ | .ecdsaSign _ | .ecdsaVerify _ | .ecdh _ | .ed25519Sign _ | .ed25519Verify _
  | .mlkemKeygen _ | .mlkemEncaps _ | .mlkemDecaps _ | .mldsaKeygen _ | .mldsaSign _ | .mldsaVerify _ | .poly _ | .keyImport _
  | .keyExport _ | .keyGenerate _ | .keyDerive _ | .keyDelete _ | .keyInfo _ | .keyRestrict _ | .keyEscrowOut _ | .keyEscrowIn _
  | .seedingDeadline _ | .rngGet _ | .rngReseed _ | .rngRaw _ | .assocWrite _ | .assocKill _ => true

end Sys2Proof
end

