-- ==== Sys2Proof/Tests/Slice0.lean ====
section
/-! SUPPORT. Tests of the model, and for each statement states that meet its hypotheses. A test's expected value is worked out from the rule its
docstring names. A witness gives, clause by clause, values that meet all the hypotheses of that clause, at a boundary of a range where the clause has
one; a hypothesis that only names a value (u = …) is written out in place. -/

namespace Sys2Proof.Tests

-- Each of these theorems is checked before the next one is read: several hundred of them waiting at once would take too many threads.
set_option Elab.async false

open Sys2Proof.Machine

-- Small states ------------------------------------------------------------------------------------------------------------------

/-- A block in service (READY), every wing awake-able, stage time running. -/
def svc : State := { State.reset with
  start := { State.reset.start with porst := false, blkrst := false, state := 3, wingsActive := 255, outcomes := List.replicate 12 2 }
  time := { State.reset.time with runs := true, refAbsent := false, refUsed := 25000 } }

/-- The same in the state `n` of R115. -/
def svcIn (n : Nat) : State := { svc with start := { svc.start with state := n } }

/-- The same with wing 0 ON and the jobs `l`. -/
def withJobs (l : List Job) : State := { svc with jobs := l, place := { svc.place with wings := [(0, { power := 2 })] } }

/-- The body of a command packet (R178) with the bytes `f.2` at byte `f.1` of the packet. -/
def pktBody (l : List (Nat × Bytes)) : Bytes := l.foldl (fun b f => overlay b (f.1 - 16) f.2) (zeros 112)

/-- A buffer descriptor (R181) of `len` bytes at `addr`. -/
def descBytes (addr len : Nat) : Bytes := leBytes 8 addr ++ leBytes 4 len ++ zeros 4

/-- The command answers a next state. -/
def isNext (o : Out) : Bool :=
  match o with
  | .next _ => true
  | _ => false

/-- The check passes, and what it gives meets `p`; it fails with this status and subcode. -/
def passes {α : Type} (c : Ck α) (p : α → Bool) : Bool :=
  match c with
  | .ok a => p a
  | .error _ => false

/-- No reset of a seat with no transition runs. -/
theorem not_resetting {s : State} {m : Nat} (h : (s.seat m).transit = .none) : ∀ t, (s.seat m).transit ≠ .reset t := by simp [h]

def failsWith {α : Type} (c : Ck α) (status sub : Nat) : Bool :=
  match c with
  | .error (.fail a b 0) => a == status && b == sub
  | _ => false

theorem next_of (o : Out) (h : isNext o = true) : ∃ t, o = .next t := by
  cases o with
  | next t => exact ⟨t, rfl⟩
  | fault f => simp [isNext] at h
  | refused r => simp [isNext] at h

-- Witnesses: time -----------------------------------------------------------------------------------------------------------------

theorem witness_IdleStepPassesOneNanosecond : State.reset.pending = [] ∧ State.reset.front.visits = [] ∧ State.reset.cust.rstAt = none
    ∧ State.reset.cust.divNext = none ∧ State.reset.cust.jrec = none := by decide

theorem witness_EveryStepTakesOneCommand : ∃ t, step { svc with pending := [.cancelSlew, .dwAbort] } = .next t := next_of _ (by decide +kernel)

/-- Stage time 5 ns with an adjustment of −5 ns: the result of the step is 0, the least in range. -/
def atZero : State := { svc with time := { svc.time with mono := 5 * 2 ^ 16, adjLo := 0xFFFFFFFB, adjHi := 0xFFFFFFFF } }

def adjTop : State := { svc with time := { svc.time with adjLo := 0x7FFFFFFF } }

def following : State := { svc with time := { svc.time with follower := true } }

theorem witness_RateStepSlewAndCancelSteerStageTime :
    (svc.time.follower = false ∧ svc.served 0x80014 = true ∧ -(2 ^ 38) ≤ toInt 40 ((64 : W32).toNat % 256 * 2 ^ 32 + svc.time.rateLo)
      ∧ toInt 40 ((64 : W32).toNat % 256 * 2 ^ 32 + svc.time.rateLo) = 2 ^ 38)
    ∧ (atZero.served 0x80020 = true ∧ atZero.time.follower = false ∧ 0 = (atZero.stamp : Int) + (adjNs atZero.time * 2 ^ 16 + (0 : BitVec 16).toNat)
      ∧ (atZero.stamp : Int) + (adjNs atZero.time * 2 ^ 16 + (0 : BitVec 16).toNat) ≤ (2 ^ 64 - 1) * 2 ^ 16)
    ∧ (adjTop.time.follower = false ∧ adjTop.served 0x80020 = true ∧ adjNs adjTop.time ≠ 0 ∧ -(2 ^ 31 - 1) ≤ adjNs adjTop.time
      ∧ adjNs adjTop.time = 2 ^ 31 - 1)
    ∧ (svc.time.follower = false ∧ svc.served 0x80020 = true ∧ adjNs svc.time = 0)
    ∧ (∃ s : State, s.time.follower = false ∧ s.up = true ∧ s.time.slewing = true ∧ s.time.slewLeft = 0)
    ∧ (∃ s : State, s.served 0x80014 = true ∧ 2 ^ 38 + 1 = toInt 40 ((64 : W32).toNat % 256 * 2 ^ 32 + s.time.rateLo))
    ∧ (∃ s : State, s.served 0x80020 = true ∧ (s.stamp : Int) + (adjNs s.time * 2 ^ 16 + (0xFFFF : BitVec 16).toNat) = -1)
    ∧ (svc.served 0x80020 = true ∧ (1 : BitVec 16) ≠ 0)
    ∧ (following.served 0x80020 = true ∧ following.time.follower = true) :=
  ⟨by decide +kernel, by decide +kernel, by decide +kernel, by decide +kernel,
    ⟨{ svc with time := { svc.time with slewing := true } }, by decide +kernel⟩,
    ⟨{ svc with time := { svc.time with rateLo := 1 } }, by decide +kernel⟩,
    ⟨{ atZero with time := { atZero.time with mono := 4 * 2 ^ 16 } }, by decide +kernel⟩, by decide +kernel, by decide +kernel⟩

theorem witness_TimePortCountsItsValues :
    svc.up = true ∧ svc.time.runs = true ∧ svc.time.portDue ≤ svc.time.mono ∧ svc.mem.stalled.contains .pkclk = false := by decide +kernel

/-- PPS_OUT high since second 1, and stage time at the instant it falls. -/
def ppsUp (ns : Nat) : State := { svc with time := { svc.time with mono := ns * 2 ^ 16, ppsHigh := true, ppsRose := 1000000000 } }

theorem witness_PulsePerSecondRisesAndFalls :
    (∃ s : State, s.up = true ∧ s.time.runs = true ∧ s.time.ppsHigh = false ∧ s.time.ppsNext = s.now)
    ∧ ((ppsUp 1100000000).time.ppsHigh = true
      ∧ (ppsUp 1100000000).time.ppsRose + (ppsUp 1100000000).time.ppsWidth * 1000 = (ppsUp 1100000000).now)
    ∧ ((ppsUp 1099999999).time.ppsHigh = true
      ∧ (ppsUp 1099999999).now < (ppsUp 1099999999).time.ppsRose + (ppsUp 1099999999).time.ppsWidth * 1000)
    ∧ (∃ t, exec (.timeStep 0) atZero = .next t ∧ t.time.offset ≠ atZero.time.offset)
    ∧ (svc.served 0x80030 = true ∧ 1 ≤ (999999 : W32).toNat % 2 ^ 20 ∧ (999999 : W32).toNat % 2 ^ 20 ≤ 999999) :=
  ⟨⟨{ svc with time := { svc.time with mono := 10 ^ 9 * 2 ^ 16, ppsNext := 10 ^ 9 } }, by decide +kernel⟩, by decide +kernel, by decide +kernel,
    ⟨_, rfl, by decide +kernel⟩, by decide +kernel⟩

/-- Input 7 enabled, its last stamped edge at 0. -/
def edgeAt (t : Stamp) : State := { svc with time := { svc.time with mono := t, captCfg := 0x80, capt := [(7, { lastAt := some 0 })] } }

theorem witness_CaptureStampsItsEdges :
    ((edgeAt (100 * 2 ^ 16)).up = true ∧ (edgeAt (100 * 2 ^ 16)).time.runs = true ∧ (edgeAt (100 * 2 ^ 16)).time.captCfg.testBit 7 = true
      ∧ ∀ l ∈ ((edgeAt (100 * 2 ^ 16)).capture 7).lastAt, l + 100 * 2 ^ 16 = (edgeAt (100 * 2 ^ 16)).time.mono)
    ∧ ((edgeAt (100 * 2 ^ 16 - 1)).up = true ∧ (edgeAt (100 * 2 ^ 16 - 1)).time.runs = true
      ∧ (edgeAt (100 * 2 ^ 16 - 1)).time.captCfg.testBit 7 = true ∧ ((edgeAt (100 * 2 ^ 16 - 1)).capture 7).lastAt = some 0
      ∧ (edgeAt (100 * 2 ^ 16 - 1)).time.mono < 0 + 100 * 2 ^ 16) := by decide +kernel

theorem witness_SnapshotReadsAnswerTheValueTheyTake :
    svc.served (0x80100 + 0x10 * 7) = true ∧ svc.served 0x80004 = true ∧ svc.served 0x80040 = true := by decide +kernel

theorem witness_SecureTimeAdvancesByWholeSeconds :
    (∃ (s : State) (v : W32), s.served 0x80048 = true ∧ s.time.secure + v.toNat * 1000000000 = 2 ^ 64 - 1)
    ∧ (∃ t, exec .cancelSlew svc = .next t ∧ Instr.cancelSlew ≠ .vaonLoss ∧ Instr.cancelSlew ≠ .vaonReturn
      ∧ (∀ v, Instr.cancelSlew ≠ .secAdvance v) ∧ ∀ src off v, Instr.cancelSlew ≠ .regWrite src off v) :=
  ⟨⟨{ svc with time := { svc.time with secure := 2 ^ 64 - 1 - 10 ^ 9 } }, 1, by decide +kernel⟩,
    ⟨_, rfl, by decide, by decide, by simp, by simp⟩⟩

theorem witness_RefclkIsHeldOverAndComesBack :
    ({ svc with time := { svc.time with holdover := true } }.up = true ∧ svc.time.runs = true ∧ svc.time.refAbsent = false)
    ∧ (∃ (s : State) (khz : Nat), s.up = true ∧ s.time.runs = true ∧ s.time.holdover = true ∧ s.time.refUsed ≠ 0 ∧ s.time.refUsed * 99 ≤ khz * 100
      ∧ khz * 100 = s.time.refUsed * 101 ∧ s.cust.st ≠ 1) :=
  ⟨by decide +kernel, ⟨{ svc with time := { svc.time with holdover := true } }, 25250, by decide +kernel⟩⟩

-- Witnesses: the window, access and rings -------------------------------------------------------------------------------------------

/-- The window with these settings. -/
def win (w : DigestWindow) : State := { svc with window := w }

theorem witness_DigestWindowCommandsChangeTheWindowAlone :
    (svc.served 0xC0000 = true ∧ svc.window.busy = false ∧ 1 ≤ 8 ∧ 8 ≤ 8)
    ∧ (∃ s : State, s.served 0xC0014 = true ∧ s.window.st = 1 ∧ s.window.busy = false ∧ s.window.heldWord = none)
    ∧ (∃ (s : State) (old : Bytes), s.served 0xC0014 = true ∧ s.window.st = 1 ∧ s.window.busy = false ∧ s.window.heldWord = some old
      ∧ s.window.count + 8 = hashLimit s.window.alg)
    ∧ (svc.served 0xC0010 = true ∧ svc.window.busy = false)
    ∧ (∃ s : State, s.served 0xC0000 = true ∧ s.window.st = 1 ∧ s.window.busy = false ∧ s.window.heldWord = none
      ∧ s.window.count = hashLimit s.window.alg)
    ∧ (∃ (s : State) (old : Bytes), s.served 0xC0000 = true ∧ s.window.st = 1 ∧ s.window.busy = false ∧ s.window.heldWord = some old ∧ 1 ≤ 8 ∧ 8 ≤ 8
      ∧ s.window.count + 8 = hashLimit s.window.alg)
    ∧ (∃ s : State, s.up = true ∧ s.window.busy = true ∧ s.window.finishing = false)
    ∧ (∃ s : State, s.up = true ∧ s.window.busy = true ∧ s.window.finishing = true)
    ∧ (9 < 16 ∧ svc.served 0xC0000 = true ∧ 8 < 9)
    ∧ (15 < 16 ∧ svc.served 0xC0000 = true ∧ svc.window.st ≠ 1)
    ∧ (∃ s : State, s.served 0xC0014 = true ∧ s.window.st = 1 ∧ s.window.busy = true)
    ∧ (svc.served 0xC0014 = true ∧ svc.window.st ≠ 1) :=
  ⟨by decide +kernel, ⟨win { st := 1, alg := 1 }, by decide +kernel⟩,
    ⟨win { st := 1, alg := 1, heldWord := some (zeros 8), count := hashLimit 1 - 8 }, zeros 8, by decide +kernel⟩, by decide +kernel,
    ⟨win { st := 1, alg := 1, count := hashLimit 1 }, by decide +kernel⟩,
    ⟨win { st := 1, alg := 1, heldWord := some (zeros 8), count := hashLimit 1 - 8 }, zeros 8, by decide +kernel⟩,
    ⟨win { st := 1, alg := 1, busy := true }, by decide +kernel⟩, ⟨win { st := 1, alg := 1, busy := true, finishing := true }, by decide +kernel⟩,
    by decide +kernel, by decide +kernel, ⟨win { st := 1, alg := 1, busy := true }, by decide +kernel⟩, by decide +kernel⟩

theorem witness_OtherTenantAccessesOnlyRaiseAnAlarm :
    (svc.hostOpen = true ∧ svc.start.state ≠ 5 ∧ 1023 < 1024 ∧ (0xFFFFFC : Nat) < 2 ^ 24 ∧ 0x800000 ≤ 0xFFFFFC ∧ 0xFFFFFC % 4 = 0)
    ∧ (0x401000 / 0x1000 % 0x400 ≠ 2 ∧ 0x401000 < 2 ^ 24 ∧ 0x401000 % 4 = 0)
    ∧ (0 < 1023 ∧ 1023 < 1024 ∧ 15 < 16 ∧ ((0x30 : Nat) = 0x20 ∨ 0x30 = 0x24 ∨ 0x30 = 0x28 ∨ 0x30 = 0x2C ∨ 0x30 = 0x30)) := by decide +kernel

theorem witness_NothingIsWrittenWhileDownOrHalted :
    State.reset.hostOpen = false ∧ ({ svc with mem := { svc.mem with stalled := [.hclk] } } : State).hostOpen = false
      ∧ (svcIn 5).start.state = 5 ∧ (0x11000 : Nat) ≤ 0x11000 ∧ 0x11000 < 2 ^ 24 := by decide +kernel

theorem witness_RegisterWritesAreReadBack : svc.hostOpen = true ∧ svc.start.state = 3 ∧ (0xFFC00FFF : W32).toNat / 2 ^ 12 % 2 ^ 10 = 0
    ∧ (0x1000 : W32).toNat / 2 ^ 12 % 2 ^ 10 ≠ 0 := by decide +kernel

/-- Seat 1023, RUNNING, with its ring 15. -/
def ringed (r : Ring) (st : Nat) : State := { svc with seats := [(1023, { state := st })], rings := [(ringKey 1023 15, r)] }

def openRing : Ring := { act := { enable := true } }

theorem witness_RingIndexesAreTakenInRange :
    (∃ (s : State) (src : Nat) (v : W32), (s.hostOpen = true ∧ s.start.state ≠ 5 ∧ src % 1024 = 1023 ∧ (s.ring 1023 15).act.enable = true
      ∧ 2 ≤ (s.seat 1023).state ∧ sub32 v.toNat (s.ring 1023 15).fetchIdx = 2 ^ ((s.ring 1023 15).act.cfg % 32))
      ∧ ∀ t, (s.seat 1023).transit ≠ .reset t)
    ∧ (∃ (s : State) (v : W32), (s.hostOpen = true ∧ s.start.state ≠ 5 ∧ mgr.testBit 10 = true ∧ (s.ring 1023 15).act.enable = true
      ∧ 2 ≤ (s.seat 1023).state ∧ 2 ^ ((s.ring 1023 15).act.cfg % 32) + 1 = sub32 v.toNat (s.ring 1023 15).fetchIdx)
      ∧ ∀ t, (s.seat 1023).transit ≠ .reset t)
    ∧ (svc.hostOpen = true ∧ svc.start.state ≠ 5 ∧ (svc.ring 1023 15).act.enable = false ∧ (svc.seat 1023).state < 2)
    ∧ (∃ (s : State) (v : W32), s.hostOpen = true ∧ s.start.state ≠ 5
      ∧ sub32 v.toNat (s.ring 1023 15).cqHead = sub32 (s.ring 1023 15).cqTail (s.ring 1023 15).cqHead)
    ∧ (∃ (s : State) (v : W32), s.hostOpen = true ∧ s.start.state ≠ 5
      ∧ sub32 (s.ring 1023 15).cqTail (s.ring 1023 15).cqHead + 1 = sub32 v.toNat (s.ring 1023 15).cqHead) :=
  ⟨⟨ringed openRing 2, 1023, 16, by decide +kernel, not_resetting (by decide +kernel)⟩,
    ⟨ringed openRing 2, 17, by decide +kernel, not_resetting (by decide +kernel)⟩, by decide +kernel,
    ⟨ringed { cqTail := 3, cqHead := 1 } 2, 3, by decide +kernel⟩, ⟨ringed { cqTail := 3, cqHead := 1 } 2, 4, by decide +kernel⟩⟩

theorem witness_RingSettingsWaitForTheCurtain :
    (∃ s : State, s.hostOpen = true ∧ s.start.state ≠ 5 ∧ mgr.testBit 10 = true ∧ (s.seat 1023).state = 3 ∧ (s.ring 1023 15).set.enable = false)
    ∧ (∃ s : State, s.hostOpen = true ∧ s.start.state ≠ 5 ∧ mgr.testBit 10 = true ∧ (s.seat 1023).state = 3 ∧ (s.ring 1023 15).set.enable = true)
    ∧ (∃ s : State, s.hostOpen = true ∧ s.start.state ≠ 5 ∧ mgr.testBit 10 = true ∧ (s.seat 1023).state = 4 ∧ (s.ring 1023 15).set.enable = false)
    ∧ (∃ s : State, s.hostOpen = true ∧ s.start.state ≠ 5 ∧ (s.ring 0 15).set.enable = false ∧ rootOk (s.seat 0) = true
      ∧ ringOk s 0 15 ((List.range 16).filterMap (fun i => if i = 15 then none else some (i, (s.ring 0 i).act))) { (s.ring 0 15).set with enable := true }
        = true)
    ∧ (∃ s : State, s.hostOpen = true ∧ s.start.state ≠ 5 ∧ (s.ring 0 15).set.enable = true) :=
  ⟨⟨ringed {} 3, by decide +kernel⟩, ⟨ringed { set := { enable := true } } 3, by decide +kernel⟩, ⟨ringed {} 4, by decide +kernel⟩,
    ⟨{ svc with seats := [(0, { state := 2, set := { root := 0x1000 } })], rings := [(15, { set := { base := 0x1000, cqBase := 0x2000, cfg := 4 } })] },
      by decide +kernel⟩,
    ⟨{ svc with rings := [(15, { set := { enable := true } })] }, by decide +kernel⟩⟩

theorem witness_JobsAreFetchedAndRingsPrompt :
    (∀ l ∈ [[], [(0, zeros 128)]], ∃ s : State, 1023 < 1024 ∧ seatFetches s 1023 = true ∧ (∀ i, i < 16 → (s.ring 1023 i).fetching = false)
      ∧ nextSlot s 1023 = some 15 ∧ (s.ring 1023 15).packets = l)
    ∧ (svc.serving = true ∧ svc.time.promptDue ≤ svc.time.mono)
    ∧ (∃ r : Ring, r.armed = true ∧ r.coal % 2 ^ 16 ≠ 0 ∧ r.coal % 2 ^ 16 = sub32 r.cqTail r.cqHead - r.recsOut)
    ∧ (∃ (s : State) (x : Nat × Stamp × Bool), (s.ring 1023 15).armed = true ∧ (s.ring 1023 15).coal % 2 ^ 16 ≠ 0 ∧ (s.ring 1023 15).coal / 2 ^ 16 % 2 ^ 16 ≠ 0
      ∧ (s.ring 1023 15).unread.head? = some x ∧ x.2.1 + (s.ring 1023 15).coal / 2 ^ 16 % 2 ^ 16 * 100 * 2 ^ 16 = s.time.mono)
    ∧ (∃ r : Ring, r.armed = true ∧ r.coal % 2 ^ 16 ≠ 0 ∧ ∃ x ∈ r.unread, x.2.2 = true)
    ∧ (∃ r : Ring, r.armed = true ∧ r.coal % 2 ^ 16 ≠ 0
      ∧ ¬(r.coal % 2 ^ 16 ≤ sub32 r.cqTail r.cqHead - r.recsOut ∨ r.coal / 2 ^ 16 % 2 ^ 16 ≠ 0 ∨ ∃ x ∈ r.unread, x.2.2 = true))
    ∧ (∃ r : Ring, r.armed = false) ∧ (∃ r : Ring, r.coal % 2 ^ 16 = 0) :=
  ⟨fun l h => ⟨ringed { openRing with db := 1, packets := l } 2, by revert l; decide +kernel⟩, by decide +kernel, ⟨{ cqTail := 1 }, by decide +kernel⟩,
    ⟨{ ringed { openRing with coal := 0x00010004, unread := [(0, 0, false)] } 2 with time := { svc.time with mono := 100 * 2 ^ 16 } }, (0, 0, false),
      by decide +kernel⟩,
    ⟨{ coal := 4, unread := [(0, 0, true)] }, by decide +kernel⟩, ⟨{ coal := 4, cqTail := 3 }, by decide +kernel⟩,
    ⟨{ armed := false }, rfl⟩, ⟨{ coal := 0 }, by decide +kernel⟩⟩

/-- A job at the ring manager with this opcode. -/
def heldJob (op : Nat) : Job := { id := 1, opcode := op, body := zeros 112 }

theorem witness_ControlOpcodesEndAtTheRingManager :
    (∀ op ∈ [0x00, 0x02, 0x03, 0x72, 0xFF], ripe (withJobs [heldJob op]) 1 = some (heldJob op) ∧ seedLate (withJobs [heldJob op]) (heldJob op) = false
      ∧ (heldJob op).late (withJobs [heldJob op]) = false ∧ (withJobs [heldJob op]).serving = true ∧ (withJobs [heldJob op]).start.state = 3
      ∧ (op ≠ 0x00 → op ≠ 0x02 → unassigned (heldJob op).opcode = true))
    ∧ (∃ s : State, ripe s 1 = some (heldJob 0x76) ∧ seedLate s (heldJob 0x76) = false ∧ (heldJob 0x76).late s = false ∧ s.serving = true
      ∧ (heldJob 0x76).opcode = 0x76 ∧ s.start.state = 4)
    ∧ (∃ (s : State) (j : Job), s.serving = true ∧ s.liveJob 1 = some j ∧ j.opcode = 1 ∧ j.phase = .held ∧ j.fld 16 1 = 1 ∧ heldBack s j = false
      ∧ j.waits = [0] ∧ ∀ w ∈ j.waits, ∀ k ∈ s.jobs, k.id ≠ w)
    ∧ (∃ (s : State) (j : Job), s.serving = true ∧ s.liveJob 1 = some j ∧ j.opcode = 1 ∧ j.phase = .held ∧ j.fld 16 1 = 2) :=
  ⟨by decide +kernel, ⟨{ svcIn 4 with jobs := [heldJob 0x76] }, by decide +kernel⟩,
    ⟨withJobs [{ heldJob 1 with body := pktBody [(16, [1])], waits := [0] }], { heldJob 1 with body := pktBody [(16, [1])], waits := [0] },
      by decide +kernel⟩,
    ⟨withJobs [{ heldJob 1 with body := pktBody [(16, [2])] }], { heldJob 1 with body := pktBody [(16, [2])] }, by decide +kernel⟩⟩

/-- One job with a deadline at 9 units of stage time, and the block at instant 10, so that it is late. -/
def lateJob (p : Phase) : Job := { id := 1, opcode := 0x20, deadline := some 9, phase := p, body := zeros 112 }

def lateState (p : Phase) : State := { withJobs [lateJob p] with time := { svc.time with mono := 10 } }

theorem witness_LateJobsTimeOutWhereTheyAre :
    (∃ (s : State) (j : Job), s.up = true ∧ s.liveJob 1 = some j ∧ seedLate s j = true ∧ s.alarms.verifying = false)
    ∧ (∀ p ∈ [(Phase.held, 1), (.queuedBay 0, 1), (.inBay 63, 2), (.paused 63, 2), (.store true, 2), (.farm false, 1), (.away 254 7, 2)],
      (lateState p.1).up = true ∧ (lateState p.1).liveJob 1 = some (lateJob p.1) ∧ seedLate (lateState p.1) (lateJob p.1) = false
      ∧ (lateJob p.1).committed = false ∧ isFence (lateJob p.1) = false ∧ (lateState p.1).alarms.verifying = false
      ∧ (lateJob p.1).late (lateState p.1) = true ∧ timeoutSub (lateState p.1) (lateJob p.1) = some p.2)
    ∧ (∃ s : State, s.up = true ∧ s.liveJob 1 = some (lateJob (.inBay 63)) ∧ seedLate s (lateJob (.inBay 63)) = false
      ∧ s.alarms.verifying = false ∧ (lateJob (.inBay 63)).late s = true ∧ timeoutSub s (lateJob (.inBay 63)) = some 3)
    ∧ (∃ s : State, s.up = true ∧ s.liveJob 1 = some (lateJob .held) ∧ seedLate s (lateJob .held) = false ∧ (lateJob .held).late s = false
      ∧ s.time.mono = 9) :=
  ⟨⟨{ withJobs [{ lateJob .held with seedBy := some 9 }] with time := { svc.time with mono := 10 } }, { lateJob .held with seedBy := some 9 },
      by decide +kernel⟩, by decide +kernel,
    ⟨{ lateState (.inBay 63) with mem := { accesses := [{ id := 0, owner := .jobRead 1 (listKey 48) 0 }] } }, by decide +kernel⟩,
    ⟨{ withJobs [lateJob .held] with time := { svc.time with mono := 9 } }, by decide +kernel⟩⟩

-- Witnesses: the dispatcher -----------------------------------------------------------------------------------------------------------

theorem witness_EpochsPutWrittenSharesInForce :
    (svc.up = true ∧ svc.time.epochDue = svc.time.mono ∧ svc.place.latch = none)
    ∧ (∃ s : State, s.up = true ∧ s.time.epochDue = s.time.mono ∧ s.place.latch = some {})
    ∧ (({} : EpochWords).admitW % 2 ^ 13 = 0 ∧ ({ admitW := 1 } : EpochWords).admitW % 2 ^ 13 ≠ 0 ∧ ({} : Seat).admitAct % 2 ^ 13 = 0
      ∧ ({ admitAct := 1 } : Seat).admitAct % 2 ^ 13 ≠ 0) :=
  ⟨by decide +kernel, ⟨{ svc with place := { svc.place with latch := some {} } }, by decide +kernel⟩, by decide +kernel⟩

/-- Wings 0 to 6 GATED, wing 7 with power `p`. -/
def wing7 (x : Wing) (ns : Nat) : State := { svc with
  place := { svc.place with wings := [(7, x)], act := { svc.place.act with gate := 0x00000864 } }, time := { svc.time with mono := ns * 2 ^ 16 } }

theorem witness_WingPowerFollowsTheWork :
    (∃ s : State, s.serving = true ∧ (s.wing 7).power = 2 ∧ wingBusy s 7 = false
      ∧ (s.wing 7).idleAt + s.place.act.gate % 256 * 1000 * 2 ^ 16 = s.time.mono ∧ s.place.act.ctrl.testBit 1 = true ∧ minWings s < wingsOn s)
    ∧ (∃ s : State, s.up = true ∧ (s.wing 7).power = 3)
    ∧ (svc.up = true ∧ svc.serving = true ∧ svc.alarms.verifying = false ∧ svc.place.lastWake = none ∧ (List.range 8).find? (wakes svc) = some 0)
    ∧ (∃ s : State, s.up = true ∧ s.serving = false ∧ s.alarms.verifying = false ∧ s.place.lastWake = some 0 ∧ 0 + 2000 * 2 ^ 16 = s.time.mono
      ∧ (List.range 8).find? (stepWakes s) = some 7)
    ∧ (∃ s : State, s.up = true ∧ s.alarms.verifying = false ∧ s.place.lastWake = some 0 ∧ s.time.mono + 1 = 0 + 2000 * 2 ^ 16)
    ∧ (∃ s : State, s.up = true ∧ (s.wing 7).power = 1 ∧ (s.wing 7).wokenAt + 2000 * 2 ^ 16 = s.time.mono) :=
  ⟨⟨wing7 { power := 2 } 100000, by decide +kernel⟩, ⟨wing7 { power := 3 } 0, by decide +kernel⟩, by decide +kernel,
    ⟨{ svcIn 1 with start := { (svcIn 1).start with running := some 9, plan9 := 128 }, place := { svc.place with lastWake := some 0 }
                    time := { svc.time with mono := 2000 * 2 ^ 16 } }, by decide +kernel⟩,
    ⟨{ svc with place := { svc.place with lastWake := some 0 }, time := { svc.time with mono := 2000 * 2 ^ 16 - 1 } }, by decide +kernel⟩,
    ⟨wing7 { power := 1 } 2000, by decide +kernel⟩⟩

/-- A data read of a job that has come, of the descriptor at body offset `d`. -/
def gotData (d off : Nat) (b : Bytes) : BufKey × Nat × Bytes := ({ kind := .data, a := d, b := off }, 0, b)

/-- A DIGEST, DIGEST_VERIFY, HMAC_GEN or HMAC_VERIFY of the SHA-256 digest of the 3 bytes 61 62 63, with the bytes of EXPECT `e`. -/
def abcJob (op : Nat) (p : Phase) (e : Bytes) : Job :=
  { id := 1, opcode := op, phase := p, started := true, ctx := { hash := hashInit 2 }
    body := pktBody [(16, [2]), (18, leBytes 2 32), (24, leBytes 4 3), (48, descBytes 0x1000 3), (if op = 0x20 ∨ op = 0x22 then 64 else 80, descBytes 0x2000 32)]
    got := [gotData 48 0 [0x61, 0x62, 0x63], gotData 80 0 e] }

/-- Job 1 is `j`, which the ring manager may pass on to the dispatcher. -/
def passable (s : State) (j : Job) : Bool :=
  s.serving && !s.alarms.verifying && ripe s 1 == some j && j.pkt.isNone && !unassigned j.opcode && decide (0x10 ≤ j.opcode) && !seedLate s j

theorem witness_JobsThatPassTheirChecksAreQueued :
    (∃ (s : State) (j : Job), passable s j = true ∧ j.late s = false ∧ s.start.state = 3 ∧ j.started = false ∧ j.isDig = true
      ∧ passes (placeCk s j) (fun _ => true) = true
      ∧ passes (digCheck s j) (fun r => inService r.1 { j with attr := r.2 } != [] && !givenBack r.1 { j with attr := r.2 }
        && (chooseBay r.1 { j with attr := r.2 }).isSome) = true)
    ∧ (∃ (s : State) (j : Job), passable s j = true ∧ j.late s = false ∧ s.start.state = 3 ∧ j.started = false ∧ j.isDig = true
      ∧ passes (placeCk s j) (fun _ => true) = true
      ∧ passes (digCheck s j) (fun r => inService r.1 { j with attr := r.2 } != [] && givenBack r.1 { j with attr := r.2 }) = true)
    ∧ (∃ (s : State) (j : Job), passable s j = true ∧ j.late s = false ∧ s.start.state = 3 ∧ j.isSym = true ∧ failsWith (placeCk s j) stInternal 4 = true)
    ∧ (∃ (s : State) (j : Job), passable s j = true ∧ j.committed = false ∧ j.late s = true)
    ∧ (∃ (s : State) (j : Job), passable s j = true ∧ s.start.state = 4 ∧ j.late s = false ∧ safeOpcode j.opcode = false) :=
  ⟨⟨withJobs [{ abcJob 0x20 .held [] with started := false }], { abcJob 0x20 .held [] with started := false }, by decide +kernel⟩,
    ⟨withJobs [{ heldJob 0x20 with id := 0, returned := true }, { abcJob 0x20 .held [] with started := false }],
      { abcJob 0x20 .held [] with started := false }, by decide +kernel⟩,
    ⟨withJobs [heldJob 0x10], heldJob 0x10, by decide +kernel⟩,
    ⟨{ withJobs [{ lateJob .held with opcode := 0x10 }] with time := { svc.time with mono := 10 } }, { lateJob .held with opcode := 0x10 },
      by decide +kernel⟩,
    ⟨{ svcIn 4 with jobs := [heldJob 0x10] }, heldJob 0x10, by decide +kernel⟩⟩

/-- One digest job queued for bay 0, of seat 1023. -/
def queued0 : Job := { abcJob 0x20 (.queuedBay 0) [] with seat := 1023, started := false }

/-- The same with a deadline that has passed. -/
def lateQueue : State := { withJobs [{ queued0 with deadline := some 9 }] with time := { svc.time with mono := 10 } }

/-- A digest stream of 16,385 bytes in bay 0, before its first segment's bytes are absorbed. -/
def longJob : Job := { abcJob 0x20 (.inBay 0) [] with
  body := pktBody [(16, [2]), (18, leBytes 2 32), (24, leBytes 4 16385), (48, descBytes 0x1000 16385), (64, descBytes 0x8000 32)]
  got := (List.range 4).map (fun i => ({ kind := .data, a := 48, b := 0 }, i, [0])) }

theorem witness_BaysIssueSegmentAndSpill :
    (∃ (s u : State) (l seat : Nat) (d : List (Nat × Nat)) (j : Job), s.serving = true ∧ s.alarms.verifying = false ∧ s.bayOk 0 = true
      ∧ (s.wing 0).power = 2 ∧ u = roomSpill (s.modWing 0 (fun x => { x with deficit := dropIdle x.deficit (wingLive s 0) })) 0
      ∧ drrPick (u.wing 0).deficit (tabGet 0 (u.wing 0).turn 0)
        ((bayHeads u 0).map (fun h => ({ key := h.1.seat, quantum := weight u h.1.seat * 512, cost := jobCost (symOf u h.1) h.1 } : Cand))) = some (seat, d)
      ∧ (bayHeads u 0).find? (fun h => h.1.seat == seat) = some (j, l) ∧ seedLate u j = false ∧ j.late u = false)
    ∧ (∃ (s u : State) (l seat : Nat) (d : List (Nat × Nat)) (j : Job), s.serving = true ∧ s.alarms.verifying = false ∧ s.bayOk 0 = true
      ∧ (s.wing 0).power = 2 ∧ u = roomSpill (s.modWing 0 (fun x => { x with deficit := dropIdle x.deficit (wingLive s 0) })) 0
      ∧ drrPick (u.wing 0).deficit (tabGet 0 (u.wing 0).turn 0)
        ((bayHeads u 0).map (fun h => ({ key := h.1.seat, quantum := weight u h.1.seat * 512, cost := jobCost (symOf u h.1) h.1 } : Cand))) = some (seat, d)
      ∧ (bayHeads u 0).find? (fun h => h.1.seat == seat) = some (j, l) ∧ seedLate u j = false ∧ j.late u = true ∧ j.committed = false)
    ∧ (∃ (s : State) (j : Job), s.serving = true ∧ s.alarms.verifying = false ∧ s.liveJob 1 = some j ∧ j.phase = .inBay 0 ∧ j.started = true
      ∧ j.held = .none ∧ j.pkt = none ∧ 0x20 ≤ j.opcode ∧ j.opcode ≤ 0x23 ∧ lastSeg (symOf s j) j = false ∧ j.late s = false
      ∧ (segReads (symOf s j) j).all j.hasRead = true)
    ∧ (∃ (s : State) (j : Job), s.up = true ∧ s.alarms.verifying = false ∧ s.liveJob 1 = some j ∧ j.phase = .paused 63 ∧ j.held = .clear 0
      ∧ 0 + 10000 * 2 ^ 16 + 1 = s.time.mono ∧ freeSlot s = some 0)
    ∧ (∃ (s : State) (j : Job), s.up = true ∧ s.alarms.verifying = false ∧ s.liveJob 1 = some j ∧ j.phase = .paused 63 ∧ j.held = .clear 0
      ∧ 0 + 10000 * 2 ^ 16 + 1 = s.time.mono ∧ freeSlot s = none) :=
  ⟨⟨withJobs [queued0], roomSpill ((withJobs [queued0]).modWing 0 (fun x => { x with deficit := dropIdle x.deficit (wingLive (withJobs [queued0]) 0) })) 0,
      2, 1023, [(1023, 381)], queued0, by decide +kernel⟩,
    ⟨lateQueue, roomSpill (lateQueue.modWing 0 (fun x => { x with deficit := dropIdle x.deficit (wingLive lateQueue 0) })) 0,
      2, 1023, [(1023, 381)], { queued0 with deadline := some 9 }, by decide +kernel⟩,
    ⟨withJobs [longJob], longJob, by decide +kernel⟩,
    ⟨{ withJobs [{ longJob with phase := .paused 63, held := .clear 0 }] with
        time := { svc.time with mono := 10000 * 2 ^ 16 + 1 }, keys := { svc.keys with spillSlots := 1 } },
      { longJob with phase := .paused 63, held := .clear 0 }, by decide +kernel⟩,
    ⟨{ withJobs [{ longJob with phase := .paused 63, held := .clear 0 }] with time := { svc.time with mono := 10000 * 2 ^ 16 + 1 } },
      { longJob with phase := .paused 63, held := .clear 0 }, by decide +kernel⟩⟩

/-- A READY generator, seeded now. -/
def seeded : Drbg := { st := 2, key := zeros 32, v := zeros 16 }

/-- Generator `i` READY. -/
def drawing (i : Nat) : State := { svc with entropy := { svc.entropy with on := true, inst := [(i, seeded)] } }

theorem witness_PeriodicAdvertsAndReseeds :
    (∃ s : State, s.up = true ∧ s.time.advDue = s.time.mono ∧ s.relay.formed = true
      ∧ bestEngine { s with time := { s.time with advDue := s.time.advDue + 1000 * 2 ^ 16 } } = some 0)
    ∧ (∃ s : State, s.up = true ∧ s.time.advDue = s.time.mono ∧ bestEngine { s with time := { s.time with advDue := s.time.advDue + 1000 * 2 ^ 16 } } = none)
    ∧ (svc.relay.east.keyed = false ∧ svc.relay.west.keyed = false ∧ isKeying (.adv [] 0 false) = false)
    ∧ (∃ s : State, s.up = true ∧ s.time.mono + 1 = s.time.advDue)
    ∧ ((drawing 0).up = true ∧ (drawing 0).time.reseedDue = (drawing 0).time.mono
      ∧ (tryDraw ((List.range 8).foldl (fun s w => if (s.wing w).power = 1 ∨ (s.wing w).power = 2 then reseedWing s w else s)
        { drawing 0 with time := { (drawing 0).time with reseedDue := (drawing 0).time.reseedDue + 1000000 * 2 ^ 16 } }) 0 48).isSome = true) :=
  ⟨⟨{ svc with relay := { svc.relay with formed := true } }, by decide +kernel⟩,
    ⟨{ svc with start := { svc.start with wingsActive := 0 } }, by decide +kernel⟩, by decide +kernel,
    ⟨{ svc with time := { svc.time with advDue := 1 } }, by decide +kernel⟩, by decide +kernel⟩

-- Witnesses: symmetric work and digests ------------------------------------------------------------------------------------------------

/-- A symmetric job under the key `key` on one block of payload `pay`, with the bytes `t` at its TAG buffer. -/
def symJob (op mode flags : Nat) (key pay t : Bytes) : Job :=
  { id := 1, opcode := op, flags := flags, phase := .inBay 0, started := true, key := key, ctx := ctxStart mode (zeros 16)
    body := pktBody [(16, [BitVec.ofNat 8 mode]), (17, if op < 0x14 then [16] else [0]), (48, descBytes 0x1000 16), (64, descBytes 0x2000 16),
      (96, descBytes 0x3000 16)]
    got := [gotData 48 0 pay, gotData 96 0 t] }

/-- The ciphertext and tag of one zero block under the zero AES-128 key and IV (AES-GCM submission, test case 2). -/
def gcmText : Bytes := beBytes 16 0x0388dace60b6a392f328c2b971b2fe78
def gcmTag : Bytes := beBytes 16 0xab6e47d42cec13bdf53a67b21257bddf

/-- Key, message and tag of RFC 4493, example 2. -/
def cmacKey : Bytes := beBytes 16 0x2b7e151628aed2a6abf7158809cf4f3c
def cmacText : Bytes := beBytes 16 0x6bc1bee22e409f96e93d7e117393172a
def cmacTag : Bytes := beBytes 16 0x070a16b46b4d4144f79bdd9dd04a287c

/-- An association OPEN of the zero-key text, and its association with `top` as the stored top of its window. -/
def windowed (assoc top : Option Nat) : State := { withJobs [{ symJob 0x11 1 0x8000 (zeros 16) gcmText gcmTag with assoc := assoc }] with
  front := { svc.front with cache := [{ index := 5, mode := 1, tagLen := 16, winStored := top }] } }

/-- The job ends its message in its lane, and its tag is what it read (`same`), or is not. -/
def tagMeets (s : State) (j : Job) (op : Nat) (same : Bool) : Bool :=
  laneReady s j op && s.liveJob 1 == some j && j.endsMsg && decide (0 < j.payLen)
    && (((modeTag (symOf s j).mode j.key (symStep (symOf s j) j).1).take (symOf s j).tagLen == j.dataOf 96 0 (symOf s j).tagLen) == same)

theorem witness_SymmetricJobsEndWithTheirOutput :
    (∀ p ∈ [(0x10, 1), (0x12, 4), (0x14, 6), (0x15, 6)], ∃ (s : State) (j : Job), laneReady s j p.1 = true ∧ s.liveJob 1 = some j ∧ j.endsMsg = true)
    ∧ (∀ flags ∈ [0, 2 ^ 14], ∃ (s : State) (j : Job), tagMeets s j 0x11 true = true ∧ j.assoc.bind s.assoc? = none
      ∧ j.opBit 14 = decide (flags = 2 ^ 14))
    ∧ (∀ top ∈ [some 0, none], ∃ (s : State) (j : Job) (a : Assoc), tagMeets s j 0x11 true = true ∧ j.assoc.bind s.assoc? = some a
      ∧ markReady s a j.ctr = top.isSome)
    ∧ (∃ (s : State) (j : Job), tagMeets s j 0x13 true = true)
    ∧ (∀ p ∈ [(0x10, 1), (0x11, 1), (0x12, 4), (0x13, 4), (0x14, 6), (0x15, 6)], ∃ (s : State) (j : Job), laneReady s j p.1 = true ∧ s.liveJob 1 = some j
      ∧ j.endsMsg = false) :=
  ⟨fun p h => ⟨withJobs [symJob p.1 p.2 0 (zeros 16) (zeros 16) []], symJob p.1 p.2 0 (zeros 16) (zeros 16) [], by revert p; decide +kernel⟩,
    fun flags h => ⟨withJobs [symJob 0x11 1 flags (zeros 16) gcmText gcmTag], symJob 0x11 1 flags (zeros 16) gcmText gcmTag, by
      revert flags; decide +kernel⟩,
    fun top h => ⟨windowed (some 5) top, { symJob 0x11 1 0x8000 (zeros 16) gcmText gcmTag with assoc := some 5 },
      { index := 5, mode := 1, tagLen := 16, winStored := top }, by revert top; decide +kernel⟩,
    ⟨withJobs [symJob 0x13 5 0 cmacKey cmacText cmacTag], symJob 0x13 5 0 cmacKey cmacText cmacTag, by decide +kernel⟩,
    fun p h => ⟨withJobs [symJob p.1 p.2 0x1000 (zeros 16) (zeros 16) []], symJob p.1 p.2 0x1000 (zeros 16) (zeros 16) [], by revert p; decide +kernel⟩⟩

theorem witness_AWrongTagReleasesNoPlaintext :
    ∀ p ∈ [(0x13, 5, 0), (0x11, 1, 2 ^ 14), (0x11, 1, 0)], ∃ (s : State) (j : Job), tagMeets s j p.1 false = true ∧ j.opBit 14 = decide (p.2.2 = 2 ^ 14) :=
  fun p h => ⟨withJobs [symJob p.1 p.2.1 p.2.2 cmacKey cmacText (zeros 16)], symJob p.1 p.2.1 p.2.2 cmacKey cmacText (zeros 16), by
    revert p; decide +kernel⟩

/-- A job on association 0xFFFFFF in bay 63. -/
def assocJob (op : Nat) : Job := { id := 1, opcode := op, flags := 0x8000, phase := .inBay 63, started := true, assoc := some 0xFFFFFF, body := zeros 112 }

def withAssoc (j : Job) : State := { withJobs [j] with front := { svc.front with cache := [{ index := 0xFFFFFF }] } }

/-- An ASSOC_QUERY of association 0 by seat 0, in its bay and not started. -/
def queryJob : Job := { assocJob 0x16 with started := false, assoc := some 0 }

theorem witness_AssociationJobsReadAndWriteEntries :
    (laneReady (withAssoc (assocJob 0x16)) (assocJob 0x16) 0x16 = true ∧ (withAssoc (assocJob 0x16)).liveJob 1 = some (assocJob 0x16))
    ∧ (∃ (s : State) (j : Job), s.liveJob 1 = some j ∧ passes (assocCk s j j.assocIdx j.seat none) (fun _ => true) = true
      ∧ ∀ k ∈ s.jobs, k.onAssoc = true → k.assocIdx = j.assocIdx → k.opcode = 0x10 → k.id < j.id → k.nonce = none → k.outcome ≠ none)
    ∧ (∀ op ∈ [0x70, 0x71], (withAssoc (assocJob op)).liveJob 1 = some (assocJob op) ∧ (withAssoc (assocJob op)).serving = true
      ∧ (withAssoc (assocJob op)).alarms.verifying = false ∧ (assocJob op).phase = .inBay 63 ∧ (assocJob op).started = true ∧ (assocJob op).pos = 0
      ∧ (assocJob op).late (withAssoc (assocJob op)) = false) :=
  ⟨by decide +kernel, ⟨{ withAssoc (queryJob) with front := { svc.front with assocBase := 0x1000, cache := [{ index := 0, state := 1, mode := 1, tagLen := 16 }] } },
    queryJob, by decide +kernel, by decide +kernel, by
      intro k h _ _ hop
      simp only [withAssoc, withJobs, List.mem_singleton] at h
      subst h
      exact absurd hop (by decide)⟩, by decide +kernel⟩

/-- SHA-256 of the bytes 61 62 63 (FIPS 180-2, appendix B.1). -/
def abcSha : Bytes := beBytes 32 0xba7816bf8f01cfea414140de5dae2223b00361a396177a9cb410ff61f20015ad

/-- HMAC_VERIFY of RFC 4231, test case 2: the key 4a 65 66 65 and its 28 bytes, with the bytes of EXPECT `e`. -/
def jefeJob (e : Bytes) : Job :=
  { id := 1, opcode := 0x23, phase := .inBay 0, started := true
    ctx := { hash := hashAbsorb 2 (hashInit 2) (xorBytes ([0x4a, 0x65, 0x66, 0x65] ++ zeros 60) (List.replicate 64 0x36)) }
    outer := hashAbsorb 2 (hashInit 2) (xorBytes ([0x4a, 0x65, 0x66, 0x65] ++ zeros 60) (List.replicate 64 0x5c))
    body := pktBody [(16, [2]), (18, leBytes 2 32), (24, leBytes 4 28), (48, descBytes 0x1000 28), (80, descBytes 0x2000 32)]
    got := [gotData 48 0 (beBytes 28 0x7768617420646f2079612077616e7420666f72206e6f7468696e673f), gotData 80 0 e] }

def jefeTag : Bytes := beBytes 32 0x5bdcc146bf60754e6a042426089575c75a003f089d2739839dec58b964ec3843

/-- The job ends its message in its lane, and its value is what it read (`same`), or is not. -/
def valueMeets (s : State) (j : Job) (op : Nat) (same : Bool) : Bool :=
  laneReady s j op && s.liveJob 1 == some j && j.endsMsg
    && j.phase == .inBay 0
    && (((digValue (padSw (remask s j 0 (blocksBy j j.pos) (blocksAll j)) j) j (digStep (symOf s j) j).1 (digStep (symOf s j) j).2).take j.outLen
      == j.dataOf 80 0 j.outLen) == same)

theorem witness_DigestJobsWriteOrCompareTheirValue :
    (∀ op ∈ [0x20, 0x22], ∃ (s : State) (j : Job), laneReady s j op = true ∧ s.liveJob 1 = some j ∧ j.endsMsg = true)
    ∧ (∃ (s : State) (j : Job), valueMeets s j 0x21 true = true) ∧ (∃ (s : State) (j : Job), valueMeets s j 0x21 false = true)
    ∧ (∃ (s : State) (j : Job), valueMeets s j 0x23 true = true) ∧ (∃ (s : State) (j : Job), valueMeets s j 0x23 false = true)
    ∧ (cmpWord 1 [] [] ≠ 0x1010 ∧ cmpWord 1 [] [] ≠ 0x2020 ∧ cmpWord 8 [0] [1] ≠ 0x1010 ∧ cmpWord 8 [0] [1] ≠ 0x2020)
    ∧ (∀ op ∈ [0x20, 0x21, 0x22, 0x23], ∃ (s : State) (j : Job), laneReady s j op = true ∧ s.liveJob 1 = some j ∧ j.endsMsg = false) :=
  ⟨fun op h => ⟨withJobs [abcJob op (.inBay 0) []], abcJob op (.inBay 0) [], by revert op; decide +kernel⟩,
    ⟨withJobs [abcJob 0x21 (.inBay 0) abcSha], abcJob 0x21 (.inBay 0) abcSha, by decide +kernel⟩,
    ⟨withJobs [abcJob 0x21 (.inBay 0) (zeros 32)], abcJob 0x21 (.inBay 0) (zeros 32), by decide +kernel⟩,
    ⟨withJobs [jefeJob jefeTag], jefeJob jefeTag, by decide +kernel⟩, ⟨withJobs [jefeJob (zeros 32)], jefeJob (zeros 32), by decide +kernel⟩,
    by decide +kernel,
    fun op h => ⟨withJobs [{ abcJob op (.inBay 0) [] with flags := 0x1000 }], { abcJob op (.inBay 0) [] with flags := 0x1000 }, by
      revert op; decide +kernel⟩⟩

/-- A COMPARE of four bytes, HMAC_LOAD or HMAC_UNLOAD in a bay. -/
def cmpJob (op : Nat) (a b : Bytes) : Job :=
  { id := 1, opcode := op, phase := .inBay 0, started := true
    body := pktBody (if op = 0x24 then [(18, leBytes 2 4), (48, descBytes 0x1000 4), (80, descBytes 0x2000 4)] else [])
    got := [gotData 48 0 a, gotData 80 0 b] }

def withSlot (j : Job) : State := { withJobs [j] with
  keys := { svc.keys with slots := [{ seat := 0, gen := 0, handle := 0, attr := 0, inner := [], outer := [] }] } }

theorem witness_CompareAndHmacSlots :
    (∀ b ∈ [zeros 4, [0, 0, 0, 1]], laneReady (withJobs [cmpJob 0x24 (zeros 4) b]) (cmpJob 0x24 (zeros 4) b) 0x24 = true
      ∧ (withJobs [cmpJob 0x24 (zeros 4) b]).liveJob 1 = some (cmpJob 0x24 (zeros 4) b)
      ∧ ((cmpJob 0x24 (zeros 4) b).dataOf 48 0 4 = (cmpJob 0x24 (zeros 4) b).dataOf 80 0 4 ↔ b = zeros 4)
      ∧ cmpWord 2 (zeros 4) b ≠ 0x1010 ∧ cmpWord 2 (zeros 4) b ≠ 0x2020)
    ∧ (∀ a ∈ [true, false], laneReady (withSlot { cmpJob 0x25 [] [] with already := a }) { cmpJob 0x25 [] [] with already := a } 0x25 = true
      ∧ (withSlot { cmpJob 0x25 [] [] with already := a }).liveJob 1 = some { cmpJob 0x25 [] [] with already := a })
    ∧ (laneReady (withSlot (cmpJob 0x26 [] [])) (cmpJob 0x26 [] []) 0x26 = true
      ∧ (withSlot (cmpJob 0x26 [] [])).liveJob 1 = some (cmpJob 0x26 [] [])) := by decide +kernel

-- Witnesses: engines ----------------------------------------------------------------------------------------------------------------------

/-- A job of member 1 in the run phase of engine 7, with these operands by descriptor. -/
def engJob (op : Nat) (head : Bytes) (key drawn : Bytes) (ops : List (Nat × Bytes)) : Job :=
  { id := 1, src := .relayed 1 7, opcode := op, phase := .inEng 7, key := key, drawn := drawn, body := pktBody [(16, head)]
    got := ops.map (fun p => (relayedKey p.1, 0, p.2)) }

def onEngine (j : Job) (e : Engine) : State := { withJobs [j] with engines := { svc.engines with eng := [(7, e)] } }

def running (j : Job) : State := onEngine j { running := some 1 }

/-- The job is live and its datapaths can begin. -/
def runs (j : Job) : Bool := (running j).liveJob 1 == some j && runReady (running j) j j.opcode 7

/-- A modular job on one word: A, B and M. -/
def arith (op a b m : Nat) : Job := engJob op [1] [] [] [(32, beBytes 8 a), (48, beBytes 8 b), (64, beBytes 8 m)]

theorem witness_ModularOpcodesComputeResidues :
    (∀ op ∈ [0x30, 0x31, 0x32, 0x33, 0x34], runs (arith op 2 2 3) = true ∧ beNat ((arith op 2 2 3).operand 32) = 2 ∧ beNat ((arith op 2 2 3).operand 48) = 2
      ∧ beNat ((arith op 2 2 3).operand 64) = 3)
    ∧ (3 ≤ 3 ∧ 3 % 2 = 1 ∧ 2 < 3 ∧ 0 < 2 ∧ (egcd 2 3).1 = 1)
    ∧ (∃ j : Job, runs j = true ∧ j.opcode = 0x35 ∧ crtPart j 0 = 3 ∧ crtPart j 1 = 5 ∧ beNat (j.operand 32) = 14) :=
  ⟨by decide +kernel, by decide +kernel,
    ⟨engJob 0x35 [1] (beBytes 4 3 ++ beBytes 4 5 ++ beBytes 4 1 ++ beBytes 4 1 ++ beBytes 4 2) [] [(32, beBytes 8 14)], by decide +kernel⟩⟩

theorem witness_OperandsOutOfRangeAreNamed :
    (∀ op ∈ [0x30, 0x31, 0x32, 0x33, 0x34], runs (arith op 0 0 2) = true ∧ beNat ((arith op 0 0 2).operand 64) < 3
      ∧ runs (arith op 3 0 3) = true ∧ beNat ((arith op 3 0 3).operand 64) = 3 ∧ beNat ((arith op 3 0 3).operand 32) = 3)
    ∧ (∀ op ∈ [0x30, 0x31, 0x32], runs (arith op 2 3 3) = true ∧ beNat ((arith op 2 3 3).operand 32) < beNat ((arith op 2 3 3).operand 64)
      ∧ beNat ((arith op 2 3 3).operand 48) = 3)
    ∧ (∀ op ∈ [0x33, 0x34], runs (arith op 1 1 4) = true ∧ beNat ((arith op 1 1 4).operand 64) = 4)
    ∧ (∃ j : Job, runs j = true ∧ j.opcode = 0x35 ∧ crtPart j 0 * crtPart j 1 = beNat (j.operand 32))
    ∧ (runs (arith 0x33 0 0 3) = true ∧ beNat ((arith 0x33 0 0 3).operand 32) = 0 ∧ beNat ((arith 0x33 0 0 3).operand 64) = 3)
    ∧ (runs (arith 0x33 3 0 9) = true ∧ beNat ((arith 0x33 3 0 9).operand 32) = 3 ∧ beNat ((arith 0x33 3 0 9).operand 64) = 9 ∧ (egcd 3 9).1 ≠ 1)
    ∧ (runs (arith 0x32 1 1 4) = true ∧ beNat ((arith 0x32 1 1 4).operand 64) = 4) :=
  ⟨by decide +kernel, by decide +kernel, by decide +kernel,
    ⟨engJob 0x35 [1] (beBytes 4 3 ++ beBytes 4 5 ++ beBytes 4 1 ++ beBytes 4 1 ++ beBytes 4 2) [] [(32, beBytes 8 15)], by decide +kernel⟩,
    by decide +kernel, by decide +kernel, by decide +kernel⟩

theorem witness_PowersAndInversesAreRight : 1 < 2 ∧ Nat.gcd 1 2 = 1 := by decide

/-- Public key, digest and signature of RFC 6979, A.2.5 (P-256, SHA-256, "sample"). -/
def samplePub : Bytes := beBytes 32 0x60FED4BA255A9D31C961EB74C6356D68C049B8923B61FA6CE669622E60F29FB6
  ++ beBytes 32 0x7903FE1008B8BC99A41AE9E95628BC64F2F1B20C2D7E9F5177A3C294D4462299
def sampleHash : Bytes := beBytes 32 0xAF2BDBE1AA9B6EC1E2ADE1D694F41FC71A831D0268E9891562113D8A62ADD1BF
def sampleSig : Bytes := beBytes 32 0xEFD48B2AACB6A8FD1140DD9CD45E81D69D2C877B56AAF991C34D0EA84EAF3716
  ++ beBytes 32 0xF7CB1C942D657C41D436C7A1B6E29F65F3E900DBB9AFF4064DC4AB2F843ACDA8

/-- The public key of an ECDSA verification is a point. -/
def decodes (b : Bytes) : Bool :=
  match (curveOf 1).decode b with
  | .ok _ => true
  | .error _ => false

/-- The verdict on the decoded public key. -/
def verifies (pub hash sig : Bytes) : Bool :=
  match (curveOf 1).decode pub with
  | .ok q => (curveOf 1).verify q hash (beNat (sig.take 32)) (beNat (sig.drop 32))
  | .error _ => false

def ecVerify (hash sig : Bytes) : Job := engJob 0x42 [1] [] [] [(32, hash), (48, samplePub), (64, sig)]

/-- Scalar, coordinate and result of RFC 7748, section 5.2. -/
def xScalar : Bytes := beBytes 32 0xa546e36bf0527c9d3b16154b82465edd62144c0ac1fc5a18506a2244ba449ac4
def xCoord : Bytes := beBytes 32 0xe6db6867583030db3594c1a424b15f7c726624ec26b3353b10a903a6d0ab1c4c
def xOut : Bytes := beBytes 32 0xc3da55379de9c6908e94ea4df28d084f32eccf03491c71f754b4075577a28552

theorem witness_CurveOpcodesSignAndAgree :
    (∀ p ∈ [1, 2, 3, 4], runs (engJob 0x40 [p] [] (zeros 40) []) = true)
    ∧ (runs (engJob 0x41 [1] (beBytes 32 1) (zeros 40) [(32, sampleHash)]) = true ∧ (curveOf 1).scalar (zeros 40) = 1
      ∧ ((curveOf 1).sign 1 1 sampleHash).1 ≠ 0 ∧ ((curveOf 1).sign 1 1 sampleHash).2 ≠ 0)
    ∧ (runs (ecVerify sampleHash sampleSig) = true ∧ verifies samplePub sampleHash sampleSig = true
      ∧ 0 < beNat (sampleSig.take 32) ∧ beNat (sampleSig.take 32) < (curveOf 1).n ∧ 0 < beNat (sampleSig.drop 32) ∧ beNat (sampleSig.drop 32) < (curveOf 1).n)
    ∧ (runs (ecVerify (zeros 32) sampleSig) = true ∧ decodes samplePub = true ∧ verifies samplePub (zeros 32) sampleSig = false)
    ∧ (runs (ecVerify sampleHash (beBytes 32 1 ++ beBytes 32 (curveOf 1).n)) = true ∧ (curveOf 1).n ≤ beNat ((beBytes 32 1 ++ beBytes 32 (curveOf 1).n).drop 32))
    ∧ (runs (engJob 0x43 [3] xScalar [] [(32, zeros 32)]) = true ∧ x25519 xScalar (zeros 32) = zeros 32)
    ∧ (runs (engJob 0x43 [3] xScalar [] [(32, xCoord)]) = true ∧ x25519 xScalar xCoord = xOut ∧ xOut ≠ zeros 32
      ∧ (engJob 0x43 [3] xScalar [] [(32, xCoord)]).toKey = false)
    ∧ (runs { engJob 0x43 [3] xScalar [] [(32, xCoord)] with flags := 0x8000 } = true
      ∧ ({ engJob 0x43 [3] xScalar [] [(32, xCoord)] with flags := 0x8000 } : Job).toKey = true)
    ∧ (∀ flags ∈ [0, 0x8000], runs { engJob 0x43 [1] (beBytes 32 1) [] [(32, samplePub)] with flags := flags } = true
      ∧ ({ engJob 0x43 [1] (beBytes 32 1) [] [(32, samplePub)] with flags := flags } : Job).toKey = decide (flags = 0x8000))
    ∧ (∀ op ∈ [0x44, 0x45], runs (engJob op [4] (zeros 32) [] []) = true) := by decide +kernel

/-- A polynomial of one coefficient. -/
def onePoly (x : Nat) : Job := engJob 0x4C [0x32, 0] [] [] [(32, leBytes 4 x)]

theorem witness_LatticeOpcodesFollowTheirStandards :
    (∀ op ∈ [0x46, 0x48, 0x49, 0x4A, 0x4B], runs (engJob op [0x11] [] [] []) = true)
    ∧ (∀ flags ∈ [0, 0x8000], ∃ j : Job, runs j = true ∧ j.opcode = 0x47 ∧ kemEkOk j.param (j.operand 32) = true ∧ j.toKey = decide (flags = 0x8000))
    ∧ (∀ flags ∈ [0, 0x8000], ∃ j : Job, runs j = true ∧ j.opcode = 0x48 ∧ j.toKey = decide (flags = 0x8000))
    ∧ (runs (onePoly (qDsa - 1)) = true ∧ (onePoly (qDsa - 1)).param = 0x32 ∧ coeffs 4 ((onePoly (qDsa - 1)).operand 32) = [qDsa - 1])
    ∧ (runs (onePoly qDsa) = true ∧ (onePoly qDsa).param = 0x32 ∧ coeffs 4 ((onePoly qDsa).operand 32) = [qDsa]) :=
  ⟨by decide +kernel, fun flags h => ⟨{ engJob 0x47 [0x11] [] [] [(32, zeros 800)] with flags := flags }, by revert flags; decide +kernel⟩,
    fun flags h => ⟨{ engJob 0x48 [0x11] [] [] [] with flags := flags }, by revert flags; decide +kernel⟩, by decide +kernel, by decide +kernel⟩

/-- A job of the engine, staged or running, and the block at the instant of its release tick. -/
def timed (j : Job) (e : Engine) (ns : Nat) : State := { onEngine j e with time := { svc.time with mono := ns * 2 ^ 16 } }

/-- A run that has its result. -/
def ranJob (op : Nat) : Job := { engJob op [1] [] [] [] with ran := some (0, 0), accepted := 2 }

theorem witness_EnginesRunInPhases :
    (∃ (s : State) (j : Job), s.alarms.verifying = false ∧ s.serving = true ∧ (s.engine 7).staged.bind s.liveJob = some j ∧ (s.engine 7).loadFull = true
      ∧ (s.engine 7).running = none ∧ (s.engine 7).wiping = none)
    ∧ (∃ (s : State) (j : Job), s.alarms.verifying = false ∧ runJob s 7 = some j ∧ j.ran.isSome = true ∧ j.opcode ≠ 0x4A ∧ (s.engine 7).ends = [])
    ∧ (∃ (s : State) (j : Job), s.alarms.verifying = false ∧ runJob s 7 = some j ∧ j.ran.isSome = true ∧ j.opcode = 0x4A ∧ (s.engine 7).ends.length = 15)
    ∧ (∀ p ∈ [(none, true, true), (some (9 * 2 ^ 16), true, true), (some (9 * 2 ^ 16 - 1), true, false), (none, false, true)], ∃ (s : State) (j : Job),
      s.alarms.verifying = false ∧ runJob s 7 = some j ∧ j.opcode ≠ 0x4A ∧ (s.engine 7).rs + (s.engine 7).rt * 2 ^ 16 = s.time.mono ∧ j.ran = some (0, 0)
      ∧ (s.engine 7).ends = [s.time.mono] ∧ (s.engine 7).agrees = [p.2.1] ∧ j.deadline = p.1 ∧ (j.deadline.all (fun d => decide (s.time.mono ≤ d))) = p.2.2)
    ∧ (∃ (s : State) (j : Job) (r : Nat × Nat), s.alarms.verifying = false ∧ runJob s 7 = some j ∧ j.opcode ≠ 0x4A
      ∧ (s.engine 7).rs + (s.engine 7).rt * 2 ^ 16 + 1 = s.time.mono ∧ j.ran = some r ∧ j.deadline = none ∧ (s.engine 7).ends = [])
    ∧ (∀ acc ∈ [1, 2], ∃ (s : State) (j : Job), s.alarms.verifying = false ∧ runJob s 7 = some j ∧ j.opcode = 0x4A ∧ j.deadline = none
      ∧ (s.engine 7).rs + jobRt j (s.engine 7).floorRun (s.engine 7).block * 2 ^ 16 = s.time.mono ∧ (s.engine 7).block = 1
      ∧ (s.engine 7).ends[(s.engine 7).block - 1]? = some s.time.mono ∧ ((s.engine 7).agrees.take (s.engine 7).block).contains false = false
      ∧ j.ran = some (0, 0) ∧ j.accepted = acc)
    ∧ (∃ s : State, s.alarms.verifying = false ∧ (s.engine 7).wiping = some 1)
    ∧ (∃ s : State, s.alarms.verifying = false ∧ (s.engine 7).wiping = none ∧ (s.engine 7).stageWipe = some 1)
    ∧ (svc.alarms.verifying = false ∧ (svc.engine 7).wiping = none ∧ (svc.engine 7).stageWipe = none) :=
  ⟨⟨onEngine (ranJob 0x30) { staged := some 1, loadFull := true }, ranJob 0x30, by decide +kernel⟩,
    ⟨running (ranJob 0x30), ranJob 0x30, by decide +kernel⟩,
    ⟨onEngine (ranJob 0x4A) { running := some 1, ends := List.replicate 15 0 }, ranJob 0x4A, by decide +kernel⟩,
    fun p h => ⟨timed { ranJob 0x30 with deadline := p.1 } { running := some 1, rt := 9, ends := [9 * 2 ^ 16], agrees := [p.2.1] } 9,
      { ranJob 0x30 with deadline := p.1 }, by revert p; decide +kernel⟩,
    ⟨{ timed (ranJob 0x30) { running := some 1, rt := 9 } 9 with time := { svc.time with mono := 9 * 2 ^ 16 + 1 } }, ranJob 0x30, (0, 0), by decide +kernel⟩,
    fun acc h => ⟨timed { ranJob 0x4A with accepted := acc } { running := some 1, block := 1, ends := [jobRt (ranJob 0x4A) 0 1 * 2 ^ 16], agrees := [true] }
      (jobRt (ranJob 0x4A) 0 1), { ranJob 0x4A with accepted := acc }, by revert acc; decide +kernel⟩,
    ⟨onEngine (ranJob 0x30) { wiping := some 1 }, by decide +kernel⟩, ⟨onEngine (ranJob 0x30) { stageWipe := some 1 }, by decide +kernel⟩,
    by decide +kernel⟩

/-- A modular job of seat 1023 queued for the engine of wing 0. -/
def engQueued : Job := { id := 1, seat := 1023, opcode := 0x30, phase := .queuedEng 0, body := pktBody [(16, [8])] }

/-- The scheduler picks it. -/
def picked (s : State) (w : Nat) (j : Job) : Bool :=
  let u := s.modWing w (fun x => { x with deficit := dropIdle x.deficit (fun k => decide (k < 2048) || (engQueue s w).any (fun j => engKeyOf j == k)) })
  match drrPick (u.wing w).deficit (tabGet 0 (u.wing w).turn 8) (engCands u w) with
  | some (k, _) => (engQueue u w).find? (fun j => engKeyOf j == k) == some j
  | none => false

theorem witness_EnginesLoadTheSchedulersChoice :
    ∃ (s : State) (j : Job), s.serving = true ∧ s.alarms.verifying = false ∧ s.wingOk 0 = true ∧ (s.wing 0).power = 2 ∧ (s.engine 0).staged = none
      ∧ (s.engine 0).stageWipe = none ∧ picked s 0 j = true := ⟨withJobs [engQueued], engQueued, by decide +kernel⟩

theorem witness_EngineRegistersSetQueryAndClear :
    svc.served 0x68000 = true ∧ (2 : W32).toNat % 4 ≠ 3 ∧ (3 : W32).toNat % 4 = 3 ∧ svc.served 0x6800C = true ∧ svc.served (0x60010 + 7 * 0x1000) = true
      ∧ svc.served 0x68008 = true ∧ svc.served (0x69004 + 1023 * 8) = true := by decide +kernel

-- Witnesses: keys -----------------------------------------------------------------------------------------------------------------------

/-- A key table entry of seat 1023 as the block seals it under an all-zero block key. -/
def sealed (attr len ct tag : Nat) : Bytes := entryBytes
  { format := 1, state := 1, seat := 1023, gen := 0, attr := attr, matLen := len, expires := 0, limit := 0, count := 0, blob := 0, nonce := zeros 12
    inl := beBytes len ct, tag := beBytes 16 tag }

/-- Entries: the wrapping key of RFC 5649, section 6, at handle 0; a derivation key of 16 zero bytes at 0; an exportable AES-128 key of zero bytes at 1. -/
def wrapEntry : Bytes := sealed 0x02200000 24 0x7de2cece098063c2d56367211852752671151d63f7d85d30 0x298f3e867d618b0b4858dfbc48e58e0f
def kdfEntry : Bytes := sealed 0x10000000 16 0x25a211a0203049337e2a5c5143a31b87 0x19e2a2786c9f12705063e18d10208eeb
def aesEntry : Bytes := sealed 0x01400000 16 0x25a211a0203049337e2a5c5143a31b87 0x0f7c7894649551b623cd0ecaf5892d0d

/-- The wrapped 20-byte key of RFC 5649, section 6, and the key. -/
def wrapped20 : Bytes := beBytes 32 0x138bdeaa9b8fa7fc61f97742e72248ee5ae6ae5360d1ae6a5f54f373fa543b6a
def plain20 : Bytes := beBytes 20 0xc37b7e6492584340bed12207808941155068f738

/-- A key-management job of seat 1023 at a unit of the key store: KEYREF 0, SUBJECT 1, this KEYATTR, IN1 the bytes `b`, OUT of 64 bytes, and the
entries read at KEYREF and SUBJECT. -/
def keyJob (op attr : Nat) (b : Bytes) (ref sub : Bytes) : Job :=
  { id := 1, seat := 1023, opcode := op, phase := .store true
    body := pktBody [(20, leBytes 4 1), (24, leBytes 4 attr), (28, [2]), (48, descBytes 0x1000 b.length), (80, descBytes 0x2000 64)]
    got := [gotData 48 0 b, (keyKey 0 1, 0, ref), (keyKey 1 2, 0, sub), (keyKey 1 0, 0, sub)] }

/-- Seat 1023 RUNNING with a table of two entries, a block key, a block wrap key and a READY generator. -/
def keyed (j : Job) : State := { withJobs [j] with
  seats := [(1023, { state := 2, act := { keyLen := 2 }, bucket := 32 })]
  keys := { svc.keys with bk := some (zeros 32), bwk := some (zeros 16, zeros 32) }
  entropy := { svc.entropy with on := true, inst := [(1023, seeded)] } }

/-- The start of the job passes, and the job goes on from it. -/
def starts (s : State) (j : Job) (op : Nat) : Bool :=
  storeReady s j op && s.liveJob 1 == some j && !j.started && passes (startKey s j) (fun t => (t.liveJob 1).any (·.started))

/-- The job after its start, with the key at KEYREF and the material at SUBJECT. -/
def started (op attr : Nat) (b key entry : Bytes) : Job := { keyJob op attr b [] (zeros 256) with started := true, key := key, entry := entry }

/-- The wrapping key of RFC 5649, section 6. -/
def kek : Bytes := beBytes 24 0x5840df6e29b02af1ab493b705bf16ea1ae8338f4dcc176a8

/-- The job has started, and what it reads of IN1 is `b`. -/
def onStore (j : Job) (op : Nat) (b : Bytes) : Bool :=
  storeReady (keyed j) j op && (keyed j).liveJob 1 == some j && j.started && passes (wholeBuf j 48) (· == b)

theorem witness_KeyJobsImportExportGenerateAndDerive :
    (onStore (started 0x60 0x08000000 wrapped20 kek []) 0x60 wrapped20 = true ∧ kwpUnwrap kek wrapped20 = some plain20
      ∧ material (attrAlg 0x08000000) plain20 = some plain20)
    ∧ (onStore (started 0x60 0x01000000 wrapped20 kek []) 0x60 wrapped20 = true ∧ material (attrAlg 0x01000000) plain20 = none)
    ∧ (onStore (started 0x60 0x08000000 (zeros 16) kek []) 0x60 (zeros 16) = true ∧ kwpUnwrap kek (zeros 16) = none)
    ∧ (∀ op ∈ [0x61, 0x62, 0x63], onStore (started op 0x01000000 [1] kek (zeros 16)) op [1] = true)
    ∧ passes (wholeBuf (started 0x63 0x01000000 [1] kek (zeros 16)) 64) (· == []) = true
    ∧ (∃ (s : State) (j : Job), s.liveJob 1 = some j ∧ j.opcode = 0x62 ∧ (s.seat j.seat).actJ / 2 ^ 16 ≠ 0 ∧ passes (noDraws s) (fun _ => true) = true
      ∧ madeLen (attrAlg j.newAttr) = (s.seat j.seat).bucket ∧ (tryDraw s j.seat (madeLen (attrAlg j.newAttr))).isSome = true)
    ∧ starts (keyed (keyJob 0x60 0x08000000 wrapped20 wrapEntry (zeros 256))) (keyJob 0x60 0x08000000 wrapped20 wrapEntry (zeros 256)) 0x60 = true
    ∧ starts (keyed (keyJob 0x61 0 [] wrapEntry aesEntry)) (keyJob 0x61 0 [] wrapEntry aesEntry) 0x61 = true
    ∧ starts (keyed (keyJob 0x62 0x03000000 [] [] (zeros 256))) (keyJob 0x62 0x03000000 [] [] (zeros 256)) 0x62 = true
    ∧ starts (keyed (keyJob 0x63 0x01000000 [1] kdfEntry (zeros 256))) (keyJob 0x63 0x01000000 [1] kdfEntry (zeros 256)) 0x63 = true :=
  ⟨by decide +kernel, by decide +kernel, by decide +kernel, by decide +kernel, by decide +kernel,
    ⟨keyed (keyJob 0x62 0x03000000 [] [] (zeros 256)), keyJob 0x62 0x03000000 [] [] (zeros 256), by decide +kernel⟩,
    by decide +kernel, by decide +kernel, by decide +kernel, by decide +kernel⟩

/-- The attribute record of handle 1. -/
def subjRec : Attr := { seat := 1023, gen := 0, handle := 1, attr := 0x01400000, expires := 0, limit := 0, count := 0, matLen := 16 }

def recorded (j : Job) : State := { keyed j with keys := { (keyed j).keys with attrs := [subjRec] } }

/-- A one-byte HMAC key escrowed under a block wrap key of zero bytes. -/
def escrowed : Bytes := beBytes 48 0x6953ed8018f1b90b979edea430e20df0152e8b3cccd9c9744d1d7cf5e6098086d8fff4b7a94b7632e2365bec7b2b917f

theorem witness_KeyJobsDeleteInformRestrictAndEscrow :
    (∀ op ∈ [0x64, 0x65, 0x66, 0x67], (recorded (started op 0x01000000 [] [] (zeros 16))).liveJob 1 = some (started op 0x01000000 [] [] (zeros 16))
      ∧ storeReady (recorded (started op 0x01000000 [] [] (zeros 16))) (started op 0x01000000 [] [] (zeros 16)) op = true
      ∧ (started op 0x01000000 [] [] (zeros 16)).zeroed = false
      ∧ passes (subjectRec (recorded (started op 0x01000000 [] [] (zeros 16))) (started op 0x01000000 [] [] (zeros 16))) (· == subjRec) = true
      ∧ bwkOf (recorded (started op 0x01000000 [] [] (zeros 16))) = some (zeros 16))
    ∧ (∃ (s : State) (j : Job), s.liveJob 1 = some j ∧ j.started = true ∧ storeReady s j 0x64 = true ∧ j.zeroed = true)
    ∧ (onStore (started 0x68 0 escrowed [] []) 0x68 escrowed = true ∧ bwkOf (keyed (started 0x68 0 escrowed [] [])) = some (zeros 16)
      ∧ ∃ t, kwpUnwrap (zeros 16) escrowed = some t ∧ t.length = 32 + fieldLE t 28 4 ∧ attrOk (fieldLE t 0 4) = true
        ∧ material (attrAlg (fieldLE t 0 4)) (t.drop 32) = some [0x61])
    ∧ (onStore (started 0x68 0 (zeros 16) [] []) 0x68 (zeros 16) = true ∧ kwpUnwrap (zeros 16) (zeros 16) = none)
    ∧ (svc.served 0x50020 = true ∧ ∀ j ∈ svc.jobs, escrowJob j = false)
    ∧ (∃ s : State, s.served 0x50020 = true ∧ s.alarms.verifying = false ∧ (s.jobs.map (·.id)).Nodup ∧ ∃ j ∈ s.jobs, escrowJob j = true) :=
  ⟨by decide +kernel,
    ⟨recorded { started 0x64 0 [] [] [] with zeroed := true }, { started 0x64 0 [] [] [] with zeroed := true }, by decide +kernel⟩,
    ⟨by decide +kernel, by decide +kernel, leBytes 4 0x08000000 ++ zeros 24 ++ leBytes 4 1 ++ [0x61], by decide +kernel⟩, by decide +kernel,
    by decide +kernel, ⟨withJobs [started 0x68 0 [] [] []], by decide +kernel⟩⟩

-- Witnesses: random values -----------------------------------------------------------------------------------------------------------------

/-- Source 15 in this state. -/
def src15 (x : Source) : State := { svc with entropy := { svc.entropy with on := true, sources := [(15, x)] } }

/-- Samples that alternate. -/
def mixed : BitVec 512 := BitVec.ofNat 512 ((2 ^ 512 - 1) / 3)

/-- The samples pass both tests. -/
def passesTests (x : Source) (v : BitVec 512) : Bool := !(rctRun x (sampleBits v)).2.2 && !aptFails (sampleBits v)

theorem witness_SourceBlocksAreTested :
    (∀ p ∈ [(0, 0), (0, 1), (1, 0)], (src15 { st := p.1, testOk := p.2 }).up = true ∧ (src15 { st := p.1, testOk := p.2 }).entropy.on = true
      ∧ ((src15 { st := p.1, testOk := p.2 }).source 15).raw = none ∧ (src15 { st := p.1, testOk := p.2 }).entropy.rehearsal = false
      ∧ ((src15 { st := p.1, testOk := p.2 }).source 15).st = p.1 ∧ passesTests ((src15 { st := p.1, testOk := p.2 }).source 15) mixed = true
      ∧ passesTests ((src15 { st := p.1, testOk := p.2 }).source 15) 0 = false)
    ∧ (∃ s : State, s.up = true ∧ s.entropy.on = true ∧ (s.source 15).st = 2 ∧ s.time.mono + 1 = (s.source 15).readyAt ∧ (s.source 15).raw = none)
    ∧ (∃ s : State, s.up = true ∧ s.entropy.on = true ∧ (s.source 15).st = 2 ∧ (s.source 15).readyAt = s.time.mono ∧ (s.source 15).raw = none) :=
  ⟨by decide +kernel, ⟨src15 { st := 2, readyAt := 1 }, by decide +kernel⟩, ⟨src15 { st := 2 }, by decide +kernel⟩⟩

/-- Generator 1031 in this state, with one word in the pool. -/
def gen1031 (d : Drbg) (ns : Nat) : State := { svc with
  entropy := { svc.entropy with on := true, pool := [zeros 32], inst := [(1031, d)] }, time := { svc.time with secure := ns } }

theorem witness_WordsSeedInstances :
    (∀ want ∈ [1, 2], (gen1031 { st := 1, want := want } 0).up = true ∧ nextWanted (gen1031 { st := 1, want := want } 0) = some 1031
      ∧ (gen1031 { st := 1, want := want } 0).entropy.pool = zeros 32 :: [] ∧ ((gen1031 { st := 1, want := want } 0).inst 1031).want = want)
    ∧ (1031 < 1032 ∧ ((gen1031 seeded 900000000).inst 1031).st = 2
      ∧ 900000000 = (gen1031 seeded 900000000).time.secure - ((gen1031 seeded 900000000).inst 1031).seededAt)
    ∧ (1031 < 1032 ∧ ((gen1031 seeded 1000000000).inst 1031).st = 2
      ∧ 1000000000 = (gen1031 seeded 1000000000).time.secure - ((gen1031 seeded 1000000000).inst 1031).seededAt) := by decide +kernel

/-- A random job at the farm; with `{ started := true }` it is the job the statement calls k. -/
def farmJob (op : Nat) (st : Bool) : Job :=
  { id := 1, seat := 1023, opcode := op, phase := .farm false, started := st, body := pktBody [(16, [15]), (20, leBytes 4 32)] }

def atFarm (op : Nat) (st : Bool) : State := { keyed (farmJob op st) with entropy :=
  { (keyed (farmJob op st)).entropy with rehearsal := decide (op = 0x52) } }

theorem witness_RandomJobsDrawReseedAndRecord :
    (∀ op ∈ [0x50, 0x51, 0x52], (atFarm op false).liveJob 1 = some (farmJob op false) ∧ farmReady (atFarm op false) (farmJob op false) op = true
      ∧ (atFarm op true).jobs = ((atFarm op false).modJob 1 (fun k => { k with started := true })).jobs ∧ drawOk (atFarm op true) 1023 = true)
    ∧ ((farmJob 0x50 false).opBit 15 = false ∧ partReady (atFarm 0x50 true) (farmJob 0x50 true) = true
      ∧ (farmTake (atFarm 0x50 true) (farmJob 0x50 true)).isSome = true)
    ∧ (((atFarm 0x51 true).inst 1023).want = 0 ∧ canSeed (atFarm 0x51 true) = true)
    ∧ ((farmJob 0x52 false).fld 16 1 % 16 = 15 ∧ (atFarm 0x52 false).entropy.rehearsal = true ∧ ((atFarm 0x52 false).source 15).raw = none) := by
  decide +kernel

theorem witness_EntropyCommandsLeaveTheirResult :
    (svc.served 0x40004 = true ∧ svc.entropy.rehearsal = false ∧ authInForce svc 1 = false)
    ∧ (∃ s : State, s.served 0x40004 = true ∧ s.entropy.rehearsal = true)
    ∧ (∃ s : State, s.served 0x40004 = true ∧ s.entropy.rehearsal = false ∧ authInForce s 1 = true)
    ∧ (∃ s : State, s.served 0x40004 = true ∧ (List.range 16).filter (fun i => (2 ^ 15).testBit i && (s.source i).st == 3) ≠ []) :=
  ⟨by decide +kernel, ⟨{ svc with entropy := { svc.entropy with rehearsal := true } }, by decide +kernel⟩,
    ⟨{ svc with cust := { svc.cust with auth := [(1, 1)] } }, by decide +kernel⟩, ⟨src15 { st := 3 }, by decide +kernel⟩⟩

-- Witnesses: the packet front ---------------------------------------------------------------------------------------------------------------

/-- The packet front enabled, with these settings. -/
def fronted (f : Front) : State := { svc with front := { f with enabled := true } }

/-- Two packets of association 5 wait for port 1, the earlier first. -/
def twoOut : List PktOut := [⟨1, 5, 0, true, 0, []⟩, ⟨1, 5, 1, true, 0, []⟩]

theorem witness_PacketsEnterInOrderAndLeave :
    (pktReady (fronted {}) 1 = true ∧ 16384 < (zeros 16385).length)
    ∧ (pktReady (fronted {}) 1 = true ∧ (zeros 16384).length ≤ 16384 ∧ (epochOf (fronted {}) 0).2.2 = false)
    ∧ (∃ (s : State) (o : PktOut), s.up = true ∧ s.mem.stalled.contains .pkclk = false ∧ s.front.outQ.find? (fun o => o.port == 1) = some o
      ∧ ∀ x ∈ s.front.outQ, x.named = true → o.named = true → x.assoc = o.assoc → o.order ≤ x.order)
    ∧ (∃ s : State, s.ready = true ∧ s.front.draining = true ∧ s.jobs = [] ∧ s.front.outQ = [] ∧ s.front.follow = []
      ∧ s.front.swapAt + s.front.grace * 1000 * 2 ^ 16 = s.time.mono) :=
  ⟨⟨by decide +kernel, Nat.lt_of_lt_of_eq (Nat.lt_succ_self _) List.length_replicate.symm⟩, ⟨by decide +kernel, Nat.le_of_eq List.length_replicate, by decide +kernel⟩,
    ⟨fronted { outQ := twoOut }, ⟨1, 5, 0, true, 0, []⟩, by decide +kernel⟩,
    ⟨{ fronted { draining := true } with time := { svc.time with mono := 10000 * 1000 * 2 ^ 16 } }, by decide +kernel⟩⟩

theorem witness_BanksSwapAndPeerTablesAge :
    (∃ s : State, s.served (0x71000 + 4 * 511) = true ∧ s.front.bank = true ∧ 511 < 512 ∧ s.front.draining = false ∧ 511 % 8 ≠ 0)
    ∧ (∃ s : State, s.served (0x71000 + 4 * 1016) = true ∧ s.front.bank = false ∧ s.front.draining = false ∧ 1016 % 8 = 0
      ∧ (0x200 : W32).toNat / 2 ^ 8 % 2 ^ 8 = 2 ∧ (0x300 : W32).toNat / 2 ^ 8 % 2 ^ 8 = 3)
    ∧ (svc.served (0x71000 + 4 * 1023) = true ∧ svc.front.bank = false ∧ 512 ≤ 1023 ∧ svc.front.draining = false)
    ∧ (∃ s : State, s.served (0x71000 + 4 * 1023) = true ∧ s.served 0x70038 = true ∧ s.front.draining = true)
    ∧ (∃ s : State, s.served 0x70038 = true ∧ s.front.draining = false ∧ (nf (nodeBytes s (!s.front.bank) 0) 31).testBit 7 = true)
    ∧ (∃ s : State, s.served 0x70030 = true ∧ s.front.forerunner = false ∧ s.front.rehashBusy = false ∧ s.front.peerNext ≠ 0)
    ∧ (∃ s : State, s.served 0x70030 = true ∧ s.front.forerunner = true)
    ∧ (∃ s : State, s.ready = true ∧ s.alarms.verifying = false ∧ s.front.rehashBusy = true ∧ s.front.rehashAt = 262144
      ∧ bucketsRead s = false)
    ∧ (∃ s : State, s.ready = true ∧ s.alarms.aActive = false ∧ s.front.age ≠ 0 ∧ s.front.rehashBusy = false ∧ s.front.peerBase ≠ 0
      ∧ s.front.enabled = true ∧ s.front.visits.contains 65535 = false ∧ visitDue s 65535 = true ∧ bucket? s 0 65535 = none)
    ∧ (∃ s : State, s.ready = true ∧ s.alarms.aActive = false ∧ s.front.age ≠ 0 ∧ s.front.rehashBusy = false ∧ s.front.peerBase ≠ 0
      ∧ s.front.enabled = true ∧ s.front.visits.contains 65535 = false ∧ visitDue s 65535 = true ∧ bucket? s 0 65535 = some (zeros 128))
    ∧ (∃ s : State, s.ready = true ∧ s.alarms.aActive = false ∧ s.front.visited.find? (fun p => p.1 == 65535) = some (65535, 0) ∧ visitDue s 65535 = false
      ∧ s.time.mono + 1 = 0 + s.front.age * 1000000000 * 2 ^ 16)
    ∧ (aged 0 = 0 ∧ aged 5 ≠ 5)
    ∧ svc.served (0x7800C + 0x10 * 1023) = true :=
  ⟨⟨fronted { bank := true }, by decide +kernel⟩, ⟨svc, by decide +kernel⟩, by decide +kernel, ⟨fronted { draining := true }, by decide +kernel⟩,
    ⟨fronted { nodes := [(519, 0x80000000)] }, by decide +kernel⟩, ⟨fronted { peerNext := 1 }, by decide +kernel⟩,
    ⟨fronted { forerunner := true }, by decide +kernel⟩,
    ⟨fronted { rehashBusy := true, rehashAt := 262144 }, by decide +kernel⟩, ⟨fronted { peerBase := 1 }, by decide +kernel⟩,
    ⟨fronted { peerBase := 1, peers := [(65535, zeros 128)] }, by decide +kernel⟩,
    ⟨{ fronted { age := 1, visited := [(65535, 0)] } with time := { svc.time with mono := 10 ^ 9 * 2 ^ 16 - 1 } }, by decide +kernel⟩, by decide +kernel,
    by decide +kernel⟩

-- Witnesses: the relay ring -----------------------------------------------------------------------------------------------------------------

/-- A keyed, linked hop. -/
def keyedHop : RHop := { link := true, keyed := true, credits := 1 }

/-- The block with these relay registers, both hops keyed, a READY generator 0, a block wrap key, at this instant. -/
def ringAt (r : Relay) (m : Stamp) : State := { svc with
  relay := { r with east := keyedHop, west := keyedHop }, time := { svc.time with mono := m }
  keys := { svc.keys with bk := some [], bwk := some (zeros 32, []) }, entropy := { svc.entropy with on := true, inst := [(0, seeded)] } }

/-- A message from member `src` to `dst` on the east hop. -/
def msg (src dst : Nat) : Hop := { side := .east, flits := 255, phase := false, seq := 0, tagOk := true, src := src, dst := dst, hops := 253 }

/-- The same with this east hop, or this west hop. -/
def eastAt (h : RHop) (m : Stamp) : State := { ringAt {} m with relay := { (ringAt {} m).relay with east := h } }
def westAt (h : RHop) (m : Stamp) : State := { ringAt {} m with relay := { (ringAt {} m).relay with west := h } }

/-- A message that waits. -/
def echoWaits : RSent := { east := false, src := 0, dst := 0, hops := 0, seq := 0, phase := false, msg := .echo }

theorem witness_HopsAreKeyedMeasuredAndBroken :
    (∀ s ∈ [svc, ringAt {} 0], s.up = true ∧ s.params.relayPresent = true ∧ (s.hop .west).keyed = s.relay.east.keyed)
    ∧ (∀ h ∈ [keyedHop, { link := true }], (westAt h 0).up = true ∧ relayStalled (westAt h 0) = false ∧ ((westAt h 0).hop .west).link = true
      ∧ ((westAt h 0).hop .west).queue = [])
    ∧ (∀ n ∈ [1, 2], ∃ s : State, s.up = true ∧ relayStalled s = false ∧ (s.hop .west).link = true
      ∧ (s.hop .west).queue = [echoWaits] ∧ (s.hop .west).credits = 0 ∧ (s.hop .west).txLeft = n)
    ∧ (∀ again ∈ [true, false], ∃ s : State, helloDue s again = true ∧ bwkOf s = some (zeros 32) ∧ (tryDraw s 0 96).isSome = true)
    ∧ (∃ s : State, helloDue s true = true ∧ bwkOf s = none) ∧ (helloDue svc true = false)
    ∧ ((eastAt { keyedHop with txSeq := 2 ^ 32 } 0).relay.east.keyed = true ∧ (eastAt { keyedHop with txSeq := 2 ^ 32 } 0).relay.east.txSeq = 2 ^ 32)
    ∧ (∀ sd ∈ [Side.east, .west], ∃ s : State, relayOn s = true ∧ (s.hop sd).link = true ∧ (s.hop sd).keyed = false
      ∧ (s.hop sd).upAt + 10000 * 2 ^ 16 = s.time.mono ∧ (s.hop sd).broken = true)
    ∧ (∃ s : State, relayOn s = true ∧ s.relay.east.link = true ∧ s.relay.east.keyed = false ∧ s.relay.east.upAt + 10000 * 2 ^ 16 ≤ s.time.mono
      ∧ s.relay.east.hello ≠ [] ∧ s.relay.east.helloAt + 300000 * 2 ^ 16 + 1 = s.time.mono)
    ∧ (∃ s : State, s.time.mono + 1 = (s.hop .west).upAt + 10000 * 2 ^ 16) ∧ (svc.hop .west).link = false
    ∧ (svc.relay.west.link = false ∧ (∃ s : State, s.up = true ∧ relayStalled s = false ∧ s.relay.west.link = true ∧ relayOn s = false)
      ∧ kemEkOk 0x12 (zeros 1184) = true)
    ∧ (relayOn (ringAt {} 0) = true ∧ relayStalled (ringAt {} 0) = false ∧ (ringAt {} 0).relay.west.link = true ∧ bwkOf (ringAt {} 0) = some (zeros 32)
      ∧ (tryDraw (takeFlits (ringAt {} 0) .west (rmsgFlits (.hello [] (zeros 1184) false))) 0 64).isSome = true)
    ∧ (∃ s : State, bwkOf s = some (zeros 32) ∧ relayOn s = true ∧ relayStalled s = false
      ∧ ∀ m, (takeFlits s .east m).relay.east.link = true ∧ (takeFlits s .east m).relay.east.hello ≠ [])
    ∧ (∀ keys dg c, (∃ w, confirmTag keys dg c = w) ∧ ∃ w, confirmTag keys dg c ≠ w)
    ∧ (∃ s : State, relayOn s = true ∧ relayStalled s = false ∧ s.relay.west.link = true ∧ s.relay.west.confirming = true)
    ∧ (∀ f ∈ [true, false], (ringAt { formed := f } 0).relay.formed = f ∧ ((ringAt { formed := f } 0).hop .west).keyed = true
      ∧ ((westAt {} 0).hop .west).keyed = false)
    ∧ (∀ n ∈ [0, 15], (accept (eastAt { keyedHop with echoes := n } 0) (echoHop ⟨true, 1, false, 0, true⟩ .east)).2 = true
      ∧ ((accept (eastAt { keyedHop with echoes := n } 0) (echoHop ⟨true, 1, false, 0, true⟩ .east)).1.hop .east).echoes = n)
    ∧ (accept (ringAt {} 0) (echoHop ⟨false, 255, false, 0, true⟩ .east)).2 = true
    ∧ ((ringAt {} (10000 * 2 ^ 16 + 1)).up = true ∧ ((ringAt {} (10000 * 2 ^ 16 + 1)).hop .east).keyed = true
      ∧ ((ringAt {} (10000 * 2 ^ 16 + 1)).hop .east).lastRx + 10000 * 2 ^ 16 + 1 = (ringAt {} (10000 * 2 ^ 16 + 1)).time.mono)
    ∧ ((ringAt {} 0).up = true ∧ relayStalled (ringAt {} 0) = false ∧ ((ringAt {} 0).hop .east).link = true ∧ ((ringAt {} 0).hop .east).keyed = true
      ∧ (msg 1 0).side = .east ∧ (msg 1 0).flits % 256 = 255 ∧ (msg 1 0).tagOk = true ∧ (msg 1 0).phase = ((ringAt {} 0).hop .east).phase
      ∧ (msg 1 0).seq = ((ringAt {} 0).hop .east).rxSeq)
    ∧ (∃ (s : State) (h : Hop), s.up = true ∧ relayStalled s = false ∧ (s.hop h.side).link = true ∧ (s.hop h.side).keyed = true ∧ h.flits % 256 ≠ 0 ∧ h.tagOk = true
      ∧ h.phase ≠ (s.hop h.side).phase ∧ (s.hop h.side).oldPhase = some h.seq)
    ∧ (∀ ok ∈ [true, false], ∃ (s : State) (h : Hop), s.up = true ∧ relayStalled s = false ∧ (s.hop h.side).link = true ∧ (s.hop h.side).keyed = true
      ∧ h.phase = (s.hop h.side).phase ∧ h.seq ≠ (s.hop h.side).rxSeq ∧ h.tagOk = ok)
    ∧ (isKeying .echo = false ∧ rmsgLen .echo ≤ 16288 ∧ relayStalled (ringAt {} 0) = false ∧ ((ringAt {} 0).hop .west).link = true
      ∧ ((ringAt {} 0).hop .west).keyed = true ∧ ((ringAt {} 0).hop .west).queue = [] ∧ ((ringAt {} 0).hop .west).txLeft = 0
      ∧ rmsgFlits .echo = ((ringAt {} 0).hop .west).credits) :=
  ⟨by decide +kernel, by decide +kernel,
    fun n h => ⟨westAt { keyedHop with credits := 0, txLeft := n, queue := [echoWaits] } 0, by revert n; decide +kernel⟩,
    fun again h => ⟨eastAt { keyedHop with keyed := again } 0, by revert again; decide +kernel⟩,
    ⟨{ ringAt {} 0 with keys := svc.keys }, by decide +kernel⟩, by decide +kernel, by decide +kernel,
    fun sd h => ⟨{ ringAt {} (10000 * 2 ^ 16) with relay := { svc.relay with east := { link := true, broken := true }, west := { link := true, broken := true } } },
      by revert sd; decide +kernel⟩,
    ⟨eastAt { link := true, hello := [0] } (300000 * 2 ^ 16 + 1), by decide +kernel⟩,
    ⟨ringAt {} (10000 * 2 ^ 16 - 1), by decide +kernel⟩, by decide +kernel,
    ⟨by decide +kernel, ⟨{ ringAt {} 0 with alarms := { svc.alarms with aActive := true } }, by decide +kernel⟩, by decide +kernel⟩, by decide +kernel,
    ⟨eastAt { keyedHop with hello := [0] } 0, by decide +kernel, by decide +kernel, by decide +kernel, fun m => ⟨rfl, List.cons_ne_nil 0 []⟩⟩,
    fun keys dg c => ⟨⟨_, rfl⟩, ⟨confirmTag keys dg c ++ [0], by simp⟩⟩,
    ⟨westAt { keyedHop with confirming := true } 0, by decide +kernel⟩,
    by decide +kernel, by decide +kernel, by decide +kernel, by decide +kernel, by decide +kernel,
    ⟨eastAt { keyedHop with phase := true, oldPhase := some 3 } 0, { msg 1 0 with seq := 3 }, by decide +kernel⟩,
    fun ok h => ⟨ringAt {} 0, { msg 1 0 with seq := 1, tagOk := ok }, by revert ok; decide +kernel⟩, by decide +kernel⟩

/-- The message is accepted, and the state it leaves meets `p`. -/
def takes (s : State) (h : Hop) (p : State → Bool) : Bool := (accept s h).2 && p (accept s h).1

theorem witness_RingsFormFromTheirMessages :
    (∀ f ∈ [true, false], takes (ringAt { formed := f } 0) (msg 1 0xFF) (fun u => decide ((msg 1 0xFF).src ≠ u.relay.member)
      && (forward u (msg 1 0xFF) (.probe false false 0)).relay.formed == f) = true)
    ∧ (takes (ringAt {} 0) (msg 1 0xFF) (fun u => decide ((msg 1 0xFF).src ≠ u.relay.member) && !(forward u (msg 1 0xFF) (.probe true true 0)).relay.formed
      && !u.relay.east.probed && !u.relay.west.probed) = true)
    ∧ (takes (westAt { keyedHop with probed := true } 0) (msg 1 0xFF) (fun u => !u.relay.formed && u.relay.west.probed) = true)
    ∧ (∃ s : State, relayOn s = true ∧ s.relay.formed = false ∧ s.relay.east.keyed = true ∧ s.relay.west.keyed = true ∧ s.relay.east.probed = false
      ∧ s.relay.west.probed = false ∧ s.relay.identity = none ∧ s.relay.electSent = false ∧ s.relay.probeAt = some 0 ∧ 0 + 1000000 * 2 ^ 16 + 1 = s.time.mono
      ∧ (tryDraw s 0 6).isSome = true)
    ∧ (takes (ringAt { ctrlAct := 2 ^ 16 } 0) (msg 1 0) (fun u => !u.relay.formed && u.relay.identity == none && !u.relay.electSent
        && (tryDraw u 0 6).isSome && u.relay.ctrlAct / 2 ^ 16 == 1) = true ∧ 0 < 1 * 2 ^ 48 ∧ (msg 1 0).hops < 254 ∧ 2 ^ 48 + 2 ^ 48 - 1 < 2 ^ 64 - 1)
    ∧ (∀ sent ∈ [true, false], takes (ringAt { identity := some 5, electSent := sent } 0) (msg 1 0) (fun u => !u.relay.formed && u.relay.identity == some 5
        && u.relay.electSent == sent && (tryDraw { u with relay := { u.relay with rejoin := u.relay.rejoin || u.relay.east.probed || u.relay.west.probed } } 0 32).isSome)
      = true ∧ 4 < 5 ∧ (msg 1 0).hops < 254 ∧ 5 < 6)
    ∧ (takes (ringAt { formed := true } 0) (msg 1 0) (fun u => u.relay.formed) = true)
    ∧ (takes (ringAt {} 0) (msg 1 0) (fun u => !u.relay.formed && !u.relay.leader) = true ∧ 254 ≤ 254 ∧ (msg 1 0).hops = 253)
    ∧ (takes (ringAt { leader := true } 0) (msg 1 0) (fun u => !u.relay.formed && u.relay.leader) = true ∧ 255 ≤ 255)
    ∧ (takes (ringAt { member := 0 } 0) (msg 1 0xFF) (fun u => decide ((msg 1 0xFF).src ≠ u.relay.member) && !u.relay.leader) = true)
    ∧ (takes (ringAt { member := 2, leader := true } 0) (msg 1 0xFF) (fun u => u.relay.leader && decide ((msg 1 0xFF).src < u.relay.member)) = true)
    ∧ (takes (ringAt { member := 0, leader := true } 0) (msg 1 0) (fun u => decide ((msg 1 0).src ≠ u.relay.member) && u.relay.leader) = true)
    ∧ (takes (westAt { keyedHop with probed := true } 0) (msg 1 0xFF) (fun u => !u.relay.formed && u.relay.west.probed && u.relay.member == 0xFF) = true)
    ∧ (takes { westAt { keyedHop with probed := true } 0 with relay := { (westAt { keyedHop with probed := true } 0).relay with member := 0 } } (msg 1 0)
      (fun u => !u.relay.formed && u.relay.west.probed && u.relay.member == 0) = true)
    ∧ (takes (ringAt { formed := true, leader := true, member := 0, map := [⟨0, false, false⟩] } 0) (msg 0xFF 0) (fun u => u.relay.formed && u.relay.leader
      && u.relay.map.any (fun e => e.member == 0) && !u.relay.map.any (fun e => e.member == 1) && decide ((msg 0xFF 0).dst = u.relay.member)) = true)
    ∧ (takes (ringAt { formed := true, member := 2 } 0) (msg 1 0) (fun u => u.relay.formed && decide ((msg 1 0).dst ≠ u.relay.member)) = true)
    ∧ (takes (ringAt { map := (List.range 255).map (fun i => ⟨i, false, false⟩) } 0) (msg 0xFF 0) (fun u => freeMember u.relay.map == none
      && !u.relay.map.any (fun e => e.member == 255)) = true)
    ∧ (takes (ringAt { member := 0 } 0) (msg 1 2) (fun u => decide ((msg 1 2).src ≠ u.relay.member) && decide ((msg 1 2).dst ≠ 0xFF)
      && decide ((msg 1 2).dst ≠ u.relay.member) && decide ((msg 1 2).hops = 253)) = true) :=
  ⟨by decide +kernel, by decide +kernel, by decide +kernel, ⟨ringAt { probeAt := some 0 } (1000000 * 2 ^ 16 + 1), by decide +kernel⟩, by decide +kernel,
    by decide +kernel, by decide +kernel, by decide +kernel, by decide +kernel, by decide +kernel, by decide +kernel, by decide +kernel, by decide +kernel,
    by decide +kernel, by decide +kernel, by decide +kernel, by decide +kernel, by decide +kernel⟩

/-- Member 0 of a formed ring of two, with a job away at member 1 whose deadline is 5. -/
def away1 (m : Stamp) : State := { ringAt { formed := true, member := 0, map := [⟨0, false, false⟩, ⟨1, false, false⟩], mailLen := 2 ^ 24, inboxLen := 4 } m with
  jobs := [{ id := 1, opcode := 0x30, phase := .away 1 7, deadline := some 5 }] }

/-- The message is one from another member to this one. -/
def toMe (u : State) : Bool := decide ((msg 1 0).src ≠ u.relay.member) && decide ((msg 1 0).dst = u.relay.member) && decide ((msg 1 0).dst ≠ 0xFF)

/-- The job away at member 1 under tag 7, and whether it is late. -/
def awayLate (u : State) : Option Bool := (u.jobs.find? (fun j => j.phase == .away 1 7 && j.outcome.isNone)).map (fun j => j.late u)

/-- A JOB whose key material is under no pair key. -/
def keyless : RelayedJob := { tag := 7, seat := 1, opcode := 0x30, opflags := 0, body := [], operands := [], key := [0], rngMs := 0 }

theorem witness_RingTrafficReachesItsMember :
    (takes (away1 0) (msg 1 0) (fun u => toMe u && acceptsRelayed u && isEngine 0x30
      && jobKey u 1 { keyless with key := [] } == some [] && jobKey u 1 keyless == none) = true)
    ∧ (pairOpen (away1 0) 1 0 1 [0] = none ∧ ({ status := 0, result := 0 } : Outcome).result = 0)
    ∧ (takes (away1 5) (msg 1 0) (fun u => toMe u && awayLate u == some false) = true)
    ∧ (takes (away1 6) (msg 1 0) (fun u => toMe u && awayLate u == some true) = true)
    ∧ (takes (ringAt { member := 0 } 0) (msg 1 0) (fun u => toMe u && awayLate u == none) = true)
    ∧ (takes (ringAt { member := 0, inboxLen := 4, sender := 1, got := 4 } 0) (msg 1 0) (fun u => toMe u && !u.relay.inboxFull && decide (4 ≤ u.relay.inboxLen)
      && decide (0 + (zeros 4).length ≤ 4) && u.relay.part == 0 && u.relay.sender == 1 && u.relay.got == 4) = true)
    ∧ (∀ n ∈ [4, 5], takes (away1 0) (msg 1 0) (fun u => toMe u && inboxTakes u 1 n == decide (n = 4)) = true)
    ∧ (takes (ringAt { member := 0, mailAsked := true, mailDst := 1, mailTotal := 1 } 0) (msg 1 0) (fun u => toMe u && u.relay.mailAsked && u.relay.mailDst == 1
      && u.relay.mailTotal == 1) = true)
    ∧ (∃ (s : State) (h : Hop), takes s h (fun u => !hopOff u h.side && u.time.follower && decide (h.src ≠ u.relay.member)) = true)
    ∧ (∃ (s : State) (h : Hop), takes s h (fun u => hopOff u h.side && u.time.follower && decide (h.src ≠ u.relay.member)) = true)
    ∧ (svc.relay.timeSeen = false ∧ ((2 ^ 64 - 1) * 2 ^ 16 : Nat) ≤ (2 ^ 64 - 1) * 2 ^ 16)
    ∧ (∀ d ∈ [(8 * 2 ^ 16 : Nat), 8 * 2 ^ 16 + 1], ∃ s : State, s.relay.timeSeen = true ∧ masterHops s = 1 ∧ s.stamp = 0 ∧ d ≤ (2 ^ 64 - 1) * 2 ^ 16)
    ∧ (svc.up = true ∧ svc.time.runs = true ∧ svc.time.timeDue = svc.time.mono)
    ∧ (∃ s : State, s.up = true ∧ s.time.follower = true ∧ s.relay.lastTime + 10000 * 2 ^ 16 + 1 = s.time.mono)
    ∧ (svc.served 0x9002C = true ∧ svc.relay.mailBusy = false ∧ (0x01000001 : W32).toNat / 2 ^ 24 = 1 ∧ svc.relay.formed = false)
    ∧ ((away1 0).served 0x9002C = true ∧ (away1 0).relay.mailBusy = false ∧ (away1 0).relay.formed = true ∧ reached (away1 0) 1 = true
      ∧ 0 < (away1 0).relay.mailLen ∧ (away1 0).relay.mailLen = 2 ^ 24 ∧ 1 ≠ (away1 0).relay.member ∧ reached (away1 0) 0 = true)
    ∧ (∀ n ∈ [4, 5], inboxTakes { away1 0 with relay := { (away1 0).relay with mailBusy := true, mailDst := 0, mailTotal := n, mailAsked := true } } 0 n
      = decide (n = 4))
    ∧ (svc.served 0x90040 = true ∧ (0x80000000 : W32).toNat.testBit 31 = true) :=
  ⟨by decide +kernel, by decide +kernel, by decide +kernel, by decide +kernel, by decide +kernel, by decide +kernel, by decide +kernel, by decide +kernel,
    ⟨{ ringAt { member := 0 } 0 with time := { svc.time with follower := true } }, msg 1 0xFF, by decide +kernel⟩,
    ⟨{ ringAt { member := 0, formed := true, map := [⟨0, false, false⟩, ⟨1, true, false⟩] } 0 with time := { svc.time with follower := true } }, { msg 1 0xFF with side := .west },
      by decide +kernel⟩, by decide +kernel,
    fun d h => ⟨ringAt { timeSeen := true, member := 1, map := [⟨0, false, false⟩, ⟨1, true, false⟩] } 0, by revert d; decide +kernel⟩, by decide +kernel,
    ⟨{ svc with time := { svc.time with follower := true, mono := 10000 * 2 ^ 16 + 1 } }, by decide +kernel⟩, by decide +kernel, by decide +kernel,
    by decide +kernel, by decide +kernel⟩

-- Witnesses: the custodian card --------------------------------------------------------------------------------------------------------------

/-- The card port in this state at this instant. -/
def card (c : Cust) (m : Stamp) : State := { svc with cust := c, time := { svc.time with mono := m } }

/-- An answer to reset of class C with this TA1 and TA2. -/
def atr (ta1 : Option Nat) (ta2 : Option Bool) : Atr :=
  { tckOk := true, offersT1 := true, t15 := true, classInd := some (true, true), clockLow := true, tc3Lrc := true, ta1 := ta1, ta2 := ta2, ta3 := none, tb3 := none }

/-- The card after its reset, or not answering yet. -/
def waitsAtr (m : Stamp) : State := card { st := 2, rstn := true } m

theorem witness_CardsAreActivatedAndRemoved :
    (svc.up = true ∧ svc.cust.det = false)
    ∧ (∃ s : State, s.up = true ∧ s.time.runs = true ∧ s.cust.det = true ∧ s.cust.st = 1 ∧ s.cust.detAt + 10000000 * 2 ^ 16 = s.time.mono
      ∧ s.time.refUsed ≠ 0)
    ∧ (∃ s : State, s.up = true ∧ s.time.mono + 1 = s.cust.detAt + 10000000 * 2 ^ 16)
    ∧ (∃ s : State, s.up = true ∧ s.cust.st = 2 ∧ s.cust.vcc = true ∧ s.cust.ioLow = true ∧ s.cust.actAt + 1000000 * 2 ^ 16 = s.time.mono)
    ∧ (∀ t ∈ [5, 6], ∃ s : State, s.up = true ∧ s.cust.rstAt = some t ∧ s.cust.divNext = none ∧ s.cust.jrec = none ∧ s.time.mono = 5)
    ∧ ((waitsAtr 0).up = true ∧ (waitsAtr 0).cust.st = 2 ∧ (waitsAtr 0).cust.rstn = true ∧ (waitsAtr 0).cust.ppsWant = none)
    ∧ (∀ f ∈ [400, 40000], atrInTime (waitsAtr (cycles (waitsAtr 0) f + etus (waitsAtr 0) 20160)) { atr none none with first := f, gap := 9600 } = true)
    ∧ (∀ f ∈ [399, 40001], atrInTime (waitsAtr 0) { atr none none with first := f } = false)
    ∧ (atrOk (waitsAtr 0) { atr none none with tckOk := false } = false ∧ atrOk (waitsAtr 0) (atr (some 0x11) (some true)) = true
      ∧ (atr (some 0x11) (some true)).ta2 = some true)
    ∧ (∀ x ∈ [none, some 0x11, some 0xFF], atrInTime (waitsAtr 0) (atr x none) = true ∧ atrOk (waitsAtr 0) (atr x none) = true ∧ (atr x none).ta2 = none
      ∧ (cardSupported (x.getD 0x11) = false ∨ (cardFi (x.getD 0x11) = some 372 ∧ cardDi (x.getD 0x11) = some 1)))
    ∧ (atrInTime (waitsAtr 0) (atr (some 0x96) none) = true ∧ atrOk (waitsAtr 0) (atr (some 0x96) none) = true ∧ cardSupported 0x96 = true
      ∧ cardFi 0x96 ≠ some 372 ∧ (waitsAtr 0).cust.second = false)
    ∧ (∀ d ∈ [0, 1], ∃ s : State, s.up = true ∧ s.cust.ppsWant = some 0x11 ∧ s.cust.lastSent ≠ [1] ∧ s.cust.sendEnd + etus s 9600 + d = s.time.mono)
    ∧ (∃ s : State, s.up = true ∧ s.cust.st = 2 ∧ s.cust.rstn = true ∧ s.cust.ppsWant = none ∧ s.cust.actAt + cycles s 40000 + 1 = s.time.mono)
    ∧ (∃ s : State, s.up = true ∧ s.cust.st = 2 ∧ s.cust.waiting = true ∧ s.cust.actAt + 10000000 * 2 ^ 16 = s.time.mono)
    ∧ (∃ s : State, s.up = true ∧ s.cust.st = 3 ∧ s.cust.holdAt + bits s.cust.cfg 23 16 * 100000000 * 2 ^ 16 + 1 = s.time.mono)
    ∧ (∃ s : State, s.up = true ∧ s.cust.clkStopOk = true ∧ s.cust.clkStopped = false ∧ s.cust.st = 4 ∧ s.cust.op = .none
      ∧ max s.cust.sendEnd s.cust.lastAt + cycles s 1860 = s.time.mono)
    ∧ (∃ s : State, s.up = true ∧ s.cust.det = true ∧ s.cust.st ≠ 0)
    ∧ (∃ s : State, s.up = true ∧ s.cust.det = true ∧ s.cust.st ≠ 0 ∧ s.cust.lastWrite = some (30, s.time.mono, 0) ∧ (s.custRec 30).phase = 3 ∧ s.cust.cmd = 2) :=
  ⟨by decide +kernel, ⟨card { det := true, st := 1 } (10000000 * 2 ^ 16), by decide +kernel⟩, ⟨card {} (10000000 * 2 ^ 16 - 1), by decide +kernel⟩,
    ⟨card { st := 2, vcc := true, ioLow := true } (1000000 * 2 ^ 16), by decide +kernel⟩,
    fun t h => ⟨card { rstAt := some t } 5, by revert t; decide +kernel⟩, by decide +kernel, by decide +kernel, by decide +kernel, by decide +kernel,
    by decide +kernel, by decide +kernel,
    fun d h => ⟨card { ppsWant := some 0x11 } (etus svc 9600 + d), by revert d; decide +kernel⟩, ⟨waitsAtr (cycles svc 40000 + 1), by decide +kernel⟩,
    ⟨card { st := 2, waiting := true } (10000000 * 2 ^ 16), by decide +kernel⟩,
    ⟨card { st := 3 } (20 * 100000000 * 2 ^ 16 + 1), by decide +kernel⟩, ⟨card { st := 4, clkStopOk := true } (cycles (card { st := 4 } 0) 1860), by decide +kernel⟩,
    ⟨card { st := 1, det := true } 0, by decide +kernel⟩,
    ⟨card { st := 4, det := true, cmd := 2, lastWrite := some (30, 0, 0), recs := [(30, { phase := 3 })] } 0, by decide +kernel⟩⟩

theorem witness_CardExchangesFollowTheirBlocks :
    (∃ s : State, s.up = true ∧ s.cust.st = 3 ∧ s.cust.op = .none ∧ s.cust.queryAt = s.time.mono)
    ∧ (∃ s : State, s.up = true ∧ cardExpects s = true ∧ s.cust.resyncing = false ∧ s.cust.op = .ifs)
    ∧ (∀ a ∈ [true, false], ∃ s : State, s.up = true ∧ cardExpects s = true ∧ s.cust.resyncing = false ∧ s.cust.op ≠ .ifs ∧ s.cust.answering = a
      ∧ (s.cust.outInf ≠ []) = (a = false) ∧ 0 < 1 ∧ 254 ≤ 254)
    ∧ (∃ s : State, s.up = true ∧ cardExpects s = true ∧ s.cust.resyncing = false ∧ s.cust.op = .query ∧ s.cust.outInf = [] ∧ s.cust.inInf = [])
    ∧ (∃ (s : State) (w v : Nat), s.up = true ∧ cardExpects s = true ∧ s.cust.resyncing = false ∧ cwt s < etus s w ∧ etus s v = cwt s)
    ∧ (∀ d ∈ [0, 1], ∃ s : State, s.up = true ∧ cardExpects s = true ∧ s.cust.sendEnd + s.cust.wtx * bwt s + d = s.time.mono)
    ∧ (∀ p ∈ [(1, 0), (2, 2), (2, 3)], ∃ s : State, s.up = true ∧ s.cust.resyncing = false ∧ s.cust.fails = p.1 ∧ s.cust.resynchs = p.2)
    ∧ (∃ s : State, s.up = true ∧ s.cust.polling = true ∧ s.cust.apdu = [] ∧ s.cust.pollAt + 10000000 * 2 ^ 16 = s.time.mono)
    ∧ (∀ st ∈ [3, 4, 5], ∃ s : State, s.up = true ∧ s.cust.st = st ∧ s.cust.op ≠ .none ∧ s.cust.op ≠ .ifs
      ∧ s.cust.cmdAt + bits s.cust.cfg 15 8 * 1000000000 * 2 ^ 16 + 1 = s.time.mono ∧ s.cust.busy = true) :=
  ⟨⟨card { st := 3 } 0, by decide +kernel⟩, ⟨card { st := 3, rstn := true, op := .ifs } 0, by decide +kernel⟩,
    fun a h => ⟨card { st := 4, rstn := true, op := .authorize, answering := a, outInf := if a then [] else [0] } 0, by revert a; decide +kernel⟩,
    ⟨card { st := 3, rstn := true, op := .query } 0, by decide +kernel⟩,
    ⟨card { st := 4, rstn := true, op := .authorize } 0, 11 + 2 ^ 13 + 1, 11 + 2 ^ 13, by decide +kernel⟩,
    fun d h => ⟨card { st := 3, rstn := true, op := .ifs } (bwt (card { st := 3 } 0) + d), by revert d; decide +kernel⟩,
    fun p h => ⟨card { fails := p.1, resynchs := p.2 } 0, by revert p; decide +kernel⟩,
    ⟨card { polling := true } (10000000 * 2 ^ 16), by decide +kernel⟩,
    fun st h => ⟨card { st := st, op := .authorize, busy := true } (5 * 1000000000 * 2 ^ 16 + 1), by revert st; decide +kernel⟩⟩

/-- The argument of EXPORT_SHARE with M = N = 16 and index 16. -/
def export16 : Nat := 16 * 2 ^ 16 + 16 * 2 ^ 8 + 16

/-- A card in READY, authorization 3 in force and the block wrap key held. -/
def readyCard : State := { card { st := 4, auth := [(3, 1)] } 0 with keys := { svc.keys with bk := some [], bwk := some (zeros 32, []) } }

/-- A root key whose private half is 1, so that its public half is the base point of P-384, and its SHA-384. -/
def basePub : Bytes := beBytes 48 p384.gx ++ beBytes 48 p384.gy
def baseHash : Bytes := beBytes 48 0xa19d4db171b582eb8052b0cfe555e17894aa22d1c8a9770950697dd8f796d2fa4bf0a56ad80006b7ea08e1191f814b65

/-- A signature under that key with the per-message secret 1 (FIPS 186-5, 6.4): r is the abscissa of the base point, s the digest plus r. -/
def baseSig (t : Nat) : Bytes := beBytes 48 p384.gx ++ beBytes 48 t

/-- Certificate (R510) of card 1 for every act, with that key, without end, and the root key after it. -/
def baseCert : Bytes := beBytes 8 1 ++ [7] ++ basePub ++ beBytes 8 (2 ^ 64 - 1)
  ++ baseSig 0x583743b6204ecda4c1442b3f19df2d9b25c6f70e73a15f830e5d679524030cbef473779e922fd52f924a3b9ab78d1d14 ++ basePub

theorem witness_CustodianCommandsTakeEffect :
    (∃ s : State, s.served 0xA0004 = true ∧ s.cust.busy = false ∧ s.cust.rootSet = false ∧ leNat s.cust.rootHash ≠ 0)
    ∧ (readyCard.served 0xA0004 = true ∧ readyCard.cust.busy = false ∧ readyCard.cust.st = 4 ∧ readyCard.cust.op = .none ∧ readyCard.cust.resyncing = false
      ∧ readyCard.cust.cert = none ∧ readyCard.cust.settle = [] ∧ 1 ≤ 3 ∧ 3 ≤ 3)
    ∧ (2 ≤ bits export16 12 8 ∧ bits export16 12 8 ≤ bits export16 20 16 ∧ bits export16 20 16 = 16 ∧ 1 ≤ bits export16 4 0
      ∧ bits export16 4 0 = bits export16 20 16 ∧ bits export16 7 5 = 0 ∧ bits export16 15 13 = 0 ∧ bits export16 23 21 = 0
      ∧ (bwkOf readyCard).isSome = true ∧ authInForce readyCard 3 = true)
    ∧ (svc.served 0xA0004 = true ∧ svc.cust.busy = false ∧ svc.cust.st ≠ 4 ∧ 3 < 4)
    ∧ (∃ s : State, s.served 0xA0004 = true ∧ s.cust.busy = false ∧ 30 ≤ 30 ∧ (s.custRec 30).isOpen = true)
    ∧ (∃ s : State, s.served 0xA0004 = true ∧ s.cust.busy = false ∧ s.cust.present = true ∧ s.cust.st = 6 ∧ s.time.refUsed ≠ 0)
    ∧ (∃ (s : State) (k : Bytes) (i : Nat), s.served 0xA0004 = true ∧ s.cust.busy = false ∧ s.cust.st = 4 ∧ s.cust.op = .none ∧ s.cust.resyncing = false
      ∧ s.cust.settle = [] ∧ s.cust.cert = some k ∧ certJudge s k = 0 ∧ (certRoles k).testBit (3 - 1) = true ∧ freeRec s = some i
      ∧ (tryDraw { s with cust := { s.cust with busy := true, cmd := 2, arg := 3, sts := 2 * 2 ^ 16, st := 5 } } 0 32).isSome = true)
    ∧ (∀ g ∈ [true, false], p384Check (certKey baseCert) (ascii "GXPA") (if g then baseSig 0x389b70ebe68407d57d5faa87ba7b2987f0306078f120c51e322ec183c0604f79a0dc8cb1a6dbe6b85c8bc43ae319fa43
      else zeros 96) = g)
    ∧ (∃ s : State, s.cust.auth.any (fun p => p.1 == 3 && decide (p.2 ≤ s.time.secure)) = true)
    ∧ (∃ s : State, s.cust.shares ≠ [] ∧ s.cust.sharesAt + 600000000000 = s.time.secure) :=
  ⟨⟨card { rootHash := [1] } 0, by decide +kernel⟩, by decide +kernel, by decide +kernel, by decide +kernel,
    ⟨card { recs := [(30, { phase := 1 })] } 0, by decide +kernel⟩, ⟨card { present := true, st := 6 } 0, by decide +kernel⟩,
    ⟨{ card { st := 4, rootSet := true, rootHash := baseHash, cert := some baseCert } 0 with
        entropy := { svc.entropy with on := true, inst := [(0, seeded)] } }, baseCert, 0, by decide +kernel⟩, by decide +kernel,
    ⟨card { auth := [(3, 0)] } 0, by decide +kernel⟩,
    ⟨{ card { shares := [{ splitId := 0, x := 1, m := 2, n := 2, check := [], share := [] }] } 0 with time := { svc.time with secure := 600000000000 } },
      by decide +kernel⟩⟩

-- Witnesses: resets, start and alarms ----------------------------------------------------------------------------------------------------------

theorem witness_ResetsKeepWhatIsRetained :
    (svc.start.porst = false ∧ svc.start.blkrst = false ∧ svc.cust.jrec = none)
    ∧ (State.reset.start.porst = true ∧ State.reset.start.blkrst = true)
    ∧ (svc.journal.good = true ∧ svc.cust.jGood = true ∧ svc.cust.badRecs = []) ∧ (∃ s : State, s.cust.jGood = false ∧ s.cust.badRecs = [])
    ∧ (∃ s : State, s.mem.discard = true ∧ s.mem.discardAt + 10000 = s.time.secure)
    ∧ svc.start.vaonBad = false
    ∧ (∃ s : State, s.start.vaonBad = true ∧ s.time.secGood = false) :=
  ⟨by decide, by decide, by decide, ⟨{ svc with cust := { svc.cust with jGood := false } }, by decide⟩,
    ⟨{ svc with mem := { svc.mem with discard := true }, time := { svc.time with secure := 10000 } }, by decide⟩, by decide,
    ⟨{ svc with start := { svc.start with vaonBad := true } }, by decide⟩⟩

/-- A block in state `n` of R115 at step `k`, at this instant. -/
def step_ (n : Nat) (k : Option Nat) (ns : Nat) : State := { svc with
  start := { svc.start with state := n, running := k }, time := { svc.time with mono := ns * 2 ^ 16 } }

/-- The same one unit of stage time later. -/
def late_ (n : Nat) (k : Option Nat) (ns : Nat) : State := { step_ n k ns with time := { svc.time with mono := ns * 2 ^ 16 + 1 } }

theorem witness_StartStepsLeadToService :
    (∀ k ∈ [1, 2], (step_ 1 (some k) 0).up = true ∧ (step_ 1 (some k) 0).start.running = some k)
    ∧ (∃ s : State, s.up = true ∧ s.start.running = some 3 ∧ s.time.mono = s.start.stepAt + 1100000 * 2 ^ 16 ∧ s.start.rootKey = some 1
      ∧ s.start.rootBad = false)
    ∧ (∃ s : State, s.up = true ∧ s.start.running = some 4 ∧ s.time.mono = s.start.stepAt + 2000000 * 2 ^ 16 ∧ s.alarms.bActive = false
      ∧ sourcesPassed s = 4 ∧ drawOk s 0 = true)
    ∧ ((step_ 2 (some 8) 10000).up = true ∧ (step_ 2 (some 8) 10000).start.running = some 8
      ∧ (step_ 2 (some 8) 10000).time.mono = (step_ 2 (some 8) 10000).start.stepAt + 10000 * 2 ^ 16)
    ∧ (∃ s : State, s.up = true ∧ s.start.running = some 9 ∧ s.time.mono = s.start.stepAt + 3000000 * 2 ^ 16
      ∧ ∀ w < 8, s.start.plan9.testBit w = true → (s.wing w).power = 2)
    ∧ (∃ s : State, s.up = true ∧ s.start.running ≠ some 10 ∧ s.start.runStep = some 10 ∧ s.time.mono = s.start.stepAt + 1000000 * 2 ^ 16
      ∧ s.front.draining = false)
    ∧ (∃ s : State, s.up = true ∧ s.start.running = some 11 ∧ s.time.mono = s.start.stepAt + 50000000 * 2 ^ 16 ∧ s.relay.noBwk = false
      ∧ s.relay.authFail = false ∧ s.relay.formed = true ∧ s.relay.member ≠ 0xFF)
    ∧ (∃ s : State, s.up = true ∧ s.start.step12 = true ∧ s.start.runStep = none ∧ s.cust.st = 4 ∧ s.time.mono = s.start.step12At + 1000000000 * 2 ^ 16)
    ∧ (∀ p ∈ [(3, [(0, seeded)]), (4, [(0, seeded)]), (4, [])], ∃ s : State, s.up = true ∧ s.start.running = some 4
      ∧ s.start.stepAt + 2000000 * 2 ^ 16 + 1 = s.time.mono ∧ s.alarms.bActive = false ∧ sourcesPassed s = p.1 ∧ drawOk s 0 = (p.2 != []))
    ∧ (∀ p ∈ [(5, 100000), (6, 5000000), (11, 50000000)], (late_ 2 (some p.1) p.2).up = true ∧ (late_ 2 (some p.1) p.2).start.running = some p.1
      ∧ (late_ 2 (some p.1) p.2).start.stepAt + p.2 * 2 ^ 16 + 1 = (late_ 2 (some p.1) p.2).time.mono)
    ∧ (∀ f ∈ [true, false], ∃ s : State, s.up = true ∧ s.start.stepAt + 50000000 * 2 ^ 16 + 1 = s.time.mono ∧ s.start.running ≠ some 11 ∧ s.start.runStep = some 11
      ∧ (s.relay.noBwk = false ∧ s.relay.authFail = false ∧ s.relay.formed = true ∧ s.relay.member ≠ 0xFF) = (f = true))
    ∧ (∀ d ∈ [0, 1], ∃ s : State, s.up = true ∧ s.start.rootReq = true ∧ s.time.mono = s.start.stepAt + 1000000 * 2 ^ 16 + d)
    ∧ ((step_ 2 none 0).served 0x1001C = true ∧ (step_ 2 none 0).start.running ≠ some 6 ∧ (step_ 2 none 0).start.running ≠ some 7
      ∧ (step_ 2 none 0).start.state = 2 ∧ (1 : W32).toNat.testBit 0 = true ∧ (0 : W32).toNat.testBit 0 = false)
    ∧ (svc.served 0x1001C = true ∧ svc.start.running = none ∧ svc.start.state ≠ 2 ∧ svc.served 0x10028 = true ∧ svc.served 0x1002C = true)
    ∧ (svc.served 0x10048 = true ∧ svc.start.cmdBusy = false ∧ svc.start.state = 3 ∧ svc.params.relayPresent = true ∧ authInForce svc 2 = false)
    ∧ ((svcIn 4).served 0x10048 = true ∧ (svcIn 4).start.cmdBusy = false ∧ (svcIn 4).start.state ≠ 3)
    ∧ (∃ s : State, s.served 0x10048 = true ∧ s.start.cmdBusy = false ∧ s.start.state = 4 ∧ authInForce s 2 = true) :=
  ⟨by decide +kernel, ⟨{ step_ 1 (some 3) 1100000 with start := { (step_ 1 (some 3) 0).start with rootKey := some 1 } }, by decide +kernel⟩,
    ⟨{ step_ 1 (some 4) 2000000 with
        entropy := { svc.entropy with inst := [(0, seeded)], sources := [(0, { st := 1 }), (1, { st := 1 }), (2, { st := 1 }), (3, { st := 1 })] } },
      by decide +kernel⟩, by decide +kernel,
    ⟨{ step_ 2 (some 9) 3000000 with start := { (step_ 2 (some 9) 0).start with plan9 := 128 }, place := { svc.place with wings := [(7, { power := 2 })] } },
      by decide +kernel⟩,
    ⟨{ step_ 3 none 1000000 with start := { (step_ 3 none 0).start with runStep := some 10 } }, by decide +kernel⟩,
    ⟨{ step_ 2 (some 11) 50000000 with relay := { svc.relay with formed := true, member := 254 } }, by decide +kernel⟩,
    ⟨{ step_ 3 none 1000000000 with start := { svc.start with step12 := true }, cust := { svc.cust with st := 4 } }, by decide +kernel⟩,
    fun p h => ⟨{ late_ 1 (some 4) 2000000 with entropy :=
        { svc.entropy with inst := p.2, sources := (List.range p.1).map (fun i => (i, { st := 1 })) } }, by revert p; decide +kernel⟩,
    by decide +kernel,
    fun f h => ⟨{ late_ 3 none 50000000 with start := { (late_ 3 none 50000000).start with runStep := some 11 }, relay := { svc.relay with formed := f, member := 0 } },
      by revert f; decide +kernel⟩,
    fun d h => ⟨{ step_ 1 (some 3) 1000000 with
        start := { (step_ 1 (some 3) 0).start with rootReq := true }, time := { svc.time with mono := 1000000 * 2 ^ 16 + d } }, by revert d; decide +kernel⟩,
    by decide +kernel, by decide +kernel, by decide +kernel, by decide +kernel,
    ⟨{ svcIn 4 with cust := { svc.cust with auth := [(2, 1)] } }, by decide +kernel⟩⟩

/-- The alarm registers in this state. -/
def alarmed (a : Alarms) : State := { svc with alarms := a }

theorem witness_AlarmsEraseAbortAndClear :
    ((alarmed { armed := true }).up = true ∧ tripsAt (alarmed { armed := true }) .vcoreLow 569 0 = true ∧ (alarmed { armed := true }).alarms.armed = true)
    ∧ (svc.up = true ∧ tripsAt svc .vcoreHigh 1001 0 = true ∧ svc.alarms.armed = false)
    ∧ (svc.up = true ∧ tripsAt svc .vcoreHigh 1000 0 = false)
    ∧ (∃ s : State, s.up = true ∧ tripsAt s .tempWarn 1600 0 = true ∧ s.alarms.armed = true ∧ sensorHolds s .tempWarn = true)
    ∧ (∀ b ∈ [true, false], ∃ s : State, s.up = true ∧ s.alarms.verifying = true ∧ s.alarms.step6 = true ∧ (s.jobs.map (·.id)).Nodup
      ∧ (∃ j ∈ s.jobs, j.outcome = none) = (b = true))
    ∧ (svc.served 0xB0004 = true ∧ clearAResult svc ≠ 0)
    ∧ ((alarmed { aActive := true }).served 0xB0004 = true ∧ clearAResult (alarmed { aActive := true }) = 0)
    ∧ ((alarmed { bActive := true }).served 0xB0004 = true ∧ clearBResult (alarmed { bActive := true }) = 0)
    ∧ (∃ s : State, s.served 0xB0004 = true ∧ clearBResult s = 2 ∧ healthy s = 3)
    ∧ (63 < 64 ∧ svc.bayOk 63 = true ∧ 7 < 8 ∧ svc.wingOk 7 = true)
    ∧ (∃ s : State, s.bayOk 0 = true ∧ (s.jobs.map (·.id)).Nodup ∧ alarmNow s = false ∧ ∃ j ∈ s.jobs, j.outcome = none ∧ heldInBay 0 j = true)
    ∧ (svc.time.runs = true ∧ ClkPort.hclk ∉ svc.mem.stalled)
    ∧ (1023 < 2048 ∧ 0xFFFFFC < 2 ^ 24 ∧ 0xFFFFFC % 4 = 0 ∧ permitted 1023 0xFFFFFC true = false ∧ svc.start.state ≠ 5 ∧ svc.hostOpen = true)
    ∧ (∃ s : State, s.mem.stalled.contains .hclk = false ∧ s.prompts = [⟨0, 0⟩]) :=
  ⟨by decide +kernel, by decide +kernel, by decide +kernel, ⟨alarmed { armed := true, holds := [(.tempWarn, 1600, 0)] }, by decide +kernel⟩,
    fun b h => ⟨{ withJobs (if b then [longJob] else []) with alarms := { verifying := true, step6 := true } }, by revert b; decide +kernel⟩,
    by decide +kernel, by decide +kernel, by decide +kernel,
    ⟨{ alarmed { bActive := true } with entropy := { svc.entropy with sources := (List.range 13).map (fun i => (i, { st := 3 })) } }, by decide +kernel⟩,
    by decide +kernel, ⟨withJobs [longJob], by decide +kernel⟩, by decide +kernel, by decide +kernel, ⟨{ svc with prompts := [⟨0, 0⟩] }, by decide +kernel⟩⟩

-- Witnesses: memory and seats --------------------------------------------------------------------------------------------------------------------

/-- One access on port 3, tag 511. -/
def onBus (a : Access) : State := { svc with mem := { svc.mem with accesses := [a] } }

def readAcc (len : Nat) : Access := { id := 0, owner := .jobRead 1 (listKey 48) 0, va := 0x1000, len := len, st := .out 0x1000 3 511 }
def walkAcc (l : Nat) : Access := { id := 0, owner := .jobRead 1 (listKey 48) 0, va := 0, len := 1, st := .walkOut l 0x1000 3 511 }

/-- The fault with which a leaf answers a read, if the entry is a leaf. -/
def leafCode (x : WalkStep) : Option (Option Nat) :=
  match x with
  | .leaf _ r w => some (permFault r w false)
  | _ => none

theorem witness_MemoryAnswersReachTheirOwner :
    ((zeros 128).length = 128 ∧ (∃ s : State, s.mem.discard = true) ∧ (∃ s : State, s.mem.discard = false ∧ portStalled s 3 = true))
    ∧ (svc.mem.discard = false ∧ portStalled svc 3 = false ∧ ∀ a ∈ svc.mem.accesses, a.on ≠ some (3, 511))
    ∧ ((onBus (readAcc 128)).mem.discard = false ∧ portStalled (onBus (readAcc 128)) 3 = false ∧ answered (onBus (readAcc 128)) 3 511 = some (readAcc 128) ∧ (readAcc 128).write = false
      ∧ 128 * ((0x1000 % 128 + (readAcc 128).len + 127) / 128) = (readAcc 128).data.length + 128)
    ∧ ((onBus (readAcc 129)).mem.discard = false ∧ answered (onBus (readAcc 129)) 3 511 = some (readAcc 129) ∧ (readAcc 129).write = false
      ∧ (readAcc 129).data.length + 128 < 128 * ((0x1000 % 128 + (readAcc 129).len + 127) / 128))
    ∧ (answered (onBus (walkAcc 3)) 3 511 = some (walkAcc 3) ∧ (walkAcc 3).owner ≠ .orphan ∧ walkEntry 3 (fieldLE (zeros 128) 0 8) = .fault 1)
    ∧ (answered (onBus (walkAcc 0)) 3 511 = some (walkAcc 0) ∧ (walkAcc 0).owner ≠ .orphan
      ∧ walkEntry 0 (fieldLE (leBytes 8 0x2001 ++ zeros 120) 0 8) = .table 0x2000)
    ∧ (∀ p ∈ [(0x200B, none), (0x2009, some 2)], answered (onBus (walkAcc 3)) 3 511 = some (walkAcc 3) ∧ (walkAcc 3).owner ≠ .orphan
      ∧ leafCode (walkEntry 3 (fieldLE (leBytes 8 p.1 ++ zeros 120) 0 8)) = some p.2)
    ∧ (∃ (s : State) (a : Access), s.mem.discard = false ∧ answered s 3 511 = some a ∧ a.st = .out 0x1000 3 511 ∧ a.write = true) :=
  ⟨⟨by decide +kernel, ⟨{ svc with mem := { svc.mem with discard := true } }, rfl⟩,
      ⟨{ svc with mem := { svc.mem with stalled := [clkOf 3] } }, by decide +kernel⟩⟩, by decide +kernel, by decide +kernel, by decide +kernel,
    by decide +kernel, by decide +kernel, by decide +kernel, ⟨onBus { readAcc 1 with write := true }, { readAcc 1 with write := true }, by decide +kernel⟩⟩

/-- Seat 1023. -/
def seat_ (t : Seat) : State := { svc with seats := [(1023, t)] }

/-- Seat 1023 in a block of a formed ring, and the migration registers, with this length of buffer. -/
def mig (t : Seat) (len : Nat) : State := { seat_ t with seatRegs := { svc.seatRegs with migBufLen := len }, relay := { svc.relay with formed := true } }

theorem witness_SeatCommandsFollowTheirTable :
    (∀ st ∈ [0, 1, 2, 3, 4], ∃ s : State, (s.served 0x20000 = true ∧ 1 ≤ 1023 ∧ 1023 < 1024 ∧ (s.seat 1023).transit = .none ∧ (s.seat 1023).state = st
      ∧ (s.seat 1023).spent = false ∧ s.start.state = 3 ∧ (s.seat 1023).saved = false
      ∧ ∀ c ∈ [1, 2, 4], settingsOk { s with seatRegs := { s.seatRegs with cmdSts := c * 2 ^ 24 + 1023 } } 1023 = true)
      ∧ ∀ b, (s.seat 1023).transit ≠ .reset b)
    ∧ (∃ s : State, s.served 0x20000 = true ∧ (s.seat 1023).transit = .none ∧ (s.seat 1023).state = 4 ∧ (s.seat 1023).saved = true
      ∧ (s.seat 1023).gen = 0xFFFF)
    ∧ (∃ s : State, s.served 0x20000 = true ∧ (s.seat 1023).transit = .none ∧ (s.seat 1023).state = 1 ∧ migProviders s = true
      ∧ s.seatRegs.migBufLen = 1232)
    ∧ (∃ s : State, s.served 0x20000 = true ∧ (s.seat 1023).transit = .none ∧ (s.seat 1023).state = 4 ∧ (s.seat 1023).saved = false
      ∧ migProviders s = true)
    ∧ (∃ s : State, s.served 0x20000 = true ∧ (s.seat 1023).transit = .none ∧ (s.seat 1023).state = 1 ∧ (s.seat 1023).offer = true
      ∧ migProviders s = true ∧ s.seatRegs.migBufLen = 1184)
    ∧ (∃ s : State, s.served 0x20000 = true ∧ s.start.state = 3 ∧ (s.seat 1023).transit ≠ .none)
    ∧ (∃ s : State, s.served 0x20000 = true ∧ s.start.state = 3 ∧ (s.seat 1023).transit = .reset 0)
    ∧ ((svcIn 4).served 0x20000 = true ∧ (svcIn 4).start.state ≠ 3)
    ∧ (∃ s : State, s.served 0x20000 = true ∧ (s.seat 1023).transit = .none ∧ (s.seat 1023).state = 0 ∧ s.start.state = 3 ∧ (s.seat 1023).spent = true)
    ∧ (∀ st ∈ [0, 1, 3], ∃ s : State, s.served 0x20000 = true ∧ (s.seat 1023).transit = .none ∧ (s.seat 1023).state = st ∧ s.start.state = 3
      ∧ (s.seat 1023).spent = false ∧ ∀ c ∈ [1, 2, 4], settingsOk { s with seatRegs := { s.seatRegs with cmdSts := c * 2 ^ 24 + 1023 } } 1023 = false)
    ∧ (∀ b ∈ [true, false], ∃ s : State, s.served 0x20000 = true ∧ (s.seat 1023).transit = .none ∧ (s.seat 1023).state = 1 ∧ (s.seat 1023).offer = b
      ∧ migProviders s = true ∧ s.seatRegs.migBufLen = 1183)
    ∧ (∀ st ∈ [1, 4], ∃ s : State, s.served 0x20000 = true ∧ (s.seat 1023).transit = .none ∧ (s.seat 1023).state = st ∧ (s.seat 1023).offer = true
      ∧ (s.seat 1023).saved = false ∧ migProviders s = false) :=
  ⟨fun st h => ⟨seat_ { state := st, set := { root := 0x1000 } }, by revert st; decide +kernel, not_resetting (by revert st; decide +kernel)⟩,
    ⟨seat_ { state := 4, saved := true, gen := 0xFFFF }, by decide +kernel⟩, ⟨mig { state := 1 } 1232, by decide +kernel⟩,
    ⟨mig { state := 4 } 0, by decide +kernel⟩, ⟨mig { state := 1, offer := true } 1184, by decide +kernel⟩,
    ⟨seat_ { transit := .freeze }, by decide +kernel⟩, ⟨seat_ { transit := .reset 0 }, by decide +kernel⟩, by decide +kernel,
    ⟨seat_ { spent := true }, by decide +kernel⟩, fun st h => ⟨seat_ { state := st, set := { opts := 0xFFFF } }, by revert st; decide +kernel⟩,
    fun b h => ⟨mig { state := 1, offer := b } 1183, by revert b; decide +kernel⟩,
    fun st h => ⟨{ mig { state := st, offer := true } 1232 with front := { svc.front with loading := true } }, by revert st; decide +kernel⟩⟩

/-- The last step of a migration command of seat 1023. -/
def migLast (x : Transit) (k : Nat) : State := { seat_ { state := 1, transit := x } with
  seatRegs := { svc.seatRegs with migSeat := some 1023, migStep := k } }

theorem witness_SeatTransitionsEndAndSettingsAreTaken :
    (∃ s : State, s.up = true ∧ (s.seat 1023).transit = .curtain true ∧ (∀ i < 16, cutReached (s.ring 1023 i) = true)
      ∧ (∀ j ∈ s.jobs, holdsCurtain 1023 j = false) ∧ seatWrites s 1023 = false)
    ∧ (∃ s : State, s.up = true ∧ (s.seat 1023).transit = .reset 0 ∧ oldWrites s 1023 = false)
    ∧ (∃ s : State, s.up = true ∧ (s.seat 1023).transit = .reset 0 ∧ oldWrites s 1023 = true ∧ 0 + 100000 * 2 ^ 16 = s.time.mono)
    ∧ (∃ s : State, s.up = true ∧ s.alarms.verifying = false ∧ (s.seat 1023).transit = .freeze ∧ flushed (freezeFlush s 1023) 1023 = true)
    ∧ (∀ p ∈ [(Transit.offer, 1), (.save, 6), (.restore, 4)], (migLast p.1 p.2).up = true ∧ (migLast p.1 p.2).alarms.verifying = false
      ∧ (migLast p.1 p.2).seatRegs.migSeat = some 1023 ∧ migIdle (migLast p.1 p.2) = true ∧ ((migLast p.1 p.2).seat 1023).transit = p.1
      ∧ (migLast p.1 p.2).seatRegs.migStep = p.2)
    ∧ (∀ w ∈ [0, 1, 2], svc.served (0x28004 + 1023 * 0x20 + w * 4) = true ∧ shareOk w (0x00400001 : W32).toNat = true
      ∧ shareOk w (0xFFFFFFFF : W32).toNat = false)
    ∧ (∀ st ∈ [0, 1, 2, 3, 4], ∃ s : State, s.served (0x20000 + 0x20) = true ∧ s.seatRegs.sel = 1023 ∧ (s.seat 1023).state = st)
    ∧ (svc.served (0x20000 + 0x0C) = true ∧ bits (0x100 : W32).toNat 15 8 ≠ 0 ∧ svc.seatRegs.sel = 0 ∧ seatXOpen svc 0 = true)
    ∧ (svc.served 0x20040 = true ∧ svc.mem.inv = none ∧ (0x40000000 : W32).toNat / 2 ^ 30 = 1 ∧ (0x80010000 : W32).toNat / 2 ^ 30 = 2
      ∧ bits (0x80010000 : W32).toNat 29 16 = 1)
    ∧ (∃ s : State, s.up = true ∧ s.mem.inv = some (0, 0, 0) ∧ ∀ x ∈ s.mem.accesses, walking 0 x = false)
    ∧ svc.served 0x20050 = true :=
  ⟨⟨seat_ { state := 2, transit := .curtain true }, by decide +kernel⟩, ⟨seat_ { state := 2, transit := .reset 0 }, by decide +kernel⟩,
    ⟨{ seat_ { state := 2, transit := .reset 0, openBelow := 1 } with
        mem := { svc.mem with accesses := [{ readAcc 1 with seat := 1023, write := true }] }, time := { svc.time with mono := 100000 * 2 ^ 16 } },
      by decide +kernel⟩,
    ⟨seat_ { state := 3, transit := .freeze }, by decide +kernel⟩, by decide +kernel, by decide +kernel,
    fun st h => ⟨{ seat_ { state := st } with seatRegs := { svc.seatRegs with sel := 1023 } }, by revert st; decide +kernel⟩, by decide +kernel,
    by decide +kernel, ⟨{ svc with mem := { svc.mem with inv := some (0, 0, 0) } }, by decide +kernel⟩, by decide +kernel⟩

theorem witness_EveryStepKeepsLegalModes : legalModes svc ∧ ∃ t, step { svc with pending := [.cancelSlew] } = .next t :=
  ⟨by unfold legalModes; decide +kernel, next_of _ (by decide +kernel)⟩

theorem witness_EachPartChangesByItsOwnCommands :
    (∃ t, exec .cancelSlew svc = .next t ∧ movesWindow .cancelSlew = false ∧ movesJournal .cancelSlew = false ∧ movesCust .cancelSlew = false
      ∧ movesOffers .cancelSlew = false ∧ actsOnSeats .cancelSlew = false ∧ actsOnRings .cancelSlew = false ∧ actsOnJobs .cancelSlew = false
      ∧ actsOnKeys .cancelSlew = false ∧ actsOnMem .cancelSlew = false ∧ actsOnFront .cancelSlew = false ∧ actsOnRelay .cancelSlew = false
      ∧ actsOnEntropy .cancelSlew = false ∧ actsOnEngines .cancelSlew = false ∧ actsOnPlace .cancelSlew = false ∧ actsOnBuffers .cancelSlew = false
      ∧ actsOnStart .cancelSlew = false)
    ∧ (∃ t, exec .dwAbort svc = .next t ∧ movesTime .dwAbort = false)
    ∧ (∃ t, exec .nowSnapshot svc = .next t ∧ actsOnAlarms .nowSnapshot = false)
    ∧ (1023 < 1024 ∧ 0 ≠ 1023 ∧ 15 < 16 ∧ (svc.jobs.map (·.id)).Nodup) :=
  ⟨⟨_, rfl, by decide⟩, ⟨_, rfl, by decide⟩, ⟨_, rfl, by decide⟩, by decide⟩

-- Tests: ill-formed commands -------------------------------------------------------------------------------------------------------------------

/-- A hop header in range. -/
def goodHop : Hop := { side := .east, flits := 1, phase := false, seq := 0, tagOk := true, src := 0, dst := 0, hops := 0 }

/-- One command out of range for each unit number (R20, R128, R169, R398, R406, R102). -/
theorem test_wf_refuses_units : ∀ c ∈ [Instr.bayIssue 64, .wingIdle 8, .datapathDone 8 true, .configure 1024, .curtain 1024 false, .admitStsRead 1024,
    .sourceBlock 16 0, .reseedDue 1032, .startStepDone 0 true 0, .startStepBound 13, .clearFail 16, .captureEdge 8, .epochBoundary [(64, 0)]],
    c.wf = false := by decide +kernel

/-- Register accesses (R62, R169) and memory answers (R66, R68) out of range. -/
theorem test_wf_refuses_accesses : ∀ c ∈ [Instr.accessViolation 0x401 0 false, .regWrite mgr 2 0, .regWrite mgr (2 ^ 24) 0, .doorbell 0x401 0 0 0,
    .cqHeadWrite 0 1024 0 0, .ringEnable 0 0 16 false, .ringDisable 0 0 16 false, .resume 0 0 16, .ringSettingWrite 0 0 0 0x80 0,
    .ringSettingWrite 0 0 0 2 0, .shareWrite 0 3 0, .seatXWrite 0x08 0, .seatXWrite 0x24 0, .seatXWrite 0x0E 0, .nodeWrite 0x1000 0, .nodeWrite 2 0,
    .memReadData 4 0 (zeros 128) true, .memReadData 0 512 (zeros 128) true, .memReadData 0 0 (zeros 127) true, .memWriteAck 4 0, .memRspErr 0 ⟨512, true⟩],
    c.wf = false := by decide +kernel

/-- Operands of the window, the packet front and the card port out of range (R312, R427, R447, R508, R512). -/
theorem test_wf_refuses_fields : ∀ c ∈ [Instr.dwStart 16, .dwFinish 16, .revive (2 ^ 16), .packetIn 2 0 [] false, .packetOutAccept 2, .peerAgeVisit 65536,
    .authExpiry 0, .authExpiry 4, .rootLock (2 ^ 24), .authorize (2 ^ 24), .activate (2 ^ 24)], c.wf = false := by decide +kernel

/-- Relay messages out of range (R475, R477, R479, R483, R493). -/
theorem test_wf_refuses_messages : ∀ c ∈ [Instr.hello (zeros 31) (zeros 1184) false, .hello (zeros 32) (zeros 1183) false, .reply (zeros 32) (zeros 1087) (zeros 32),
    .reply (zeros 32) (zeros 1088) (zeros 31), .confirm (zeros 31), .probe goodHop false false 256, .elect goodHop ⟨2 ^ 64, true⟩, .number goodHop 256,
    .join goodHop false false 256 [] true, .relayAlarm goodHop 255, .relayBreak goodHop 255, .mail goodHop (2 ^ 24 + 1) 0 [] true,
    .mail goodHop 1 1 [0] true, .adv { goodHop with flits := 0 } [] 0 false, .adv { goodHop with flits := 256 } [] 0 false,
    .relayCancel { goodHop with src := 256 } [], .relayCancel { goodHop with dst := 256 } [], .time { goodHop with hops := 256 } 0 0,
    .time { goodHop with seq := 2 ^ 48 } 0 0], c.wf = false := by decide +kernel

theorem test_wf_accepts : ∀ c ∈ [Instr.bayIssue 63, .wingIdle 7, .configure 1023, .regWrite mgr 0xFFFFFC 0, .ringSettingWrite 0 1023 15 0x30 0,
    .nodeWrite 0xFFC 0, .memReadData 3 511 (zeros 128) true, .dwStart 15, .packetIn 1 0 [] false, .authExpiry 3, .elect goodHop ⟨2 ^ 64 - 1, true⟩,
    .mail goodHop 1 0 [0] true, .sealJob 0, .lockstep], c.wf = true := by decide +kernel

-- Tests: algorithms against their standards --------------------------------------------------------------------------------------------------

/-- SHA-256 of 61 62 63 (FIPS 180-2, B.1). -/
theorem test_sha256 : hash 2 [0x61, 0x62, 0x63] = abcSha := by decide +kernel

/-- SHA3-256 of the empty message (FIPS 202). -/
theorem test_sha3_256 : beNat (hash 6 []) = 0xa7ffc6f8bf1ed76651c14756a061d662f580ff4de43b49fa82d80a4b80f8434a := by decide +kernel

/-- AES-128 of FIPS 197, C.1. -/
theorem test_aes128 : beNat (aesEnc (beBytes 16 0x000102030405060708090a0b0c0d0e0f) (beBytes 16 0x00112233445566778899aabbccddeeff))
    = 0x69c4e0d86a7b0430d8cdb78070b4c55a := by decide +kernel

/-- AES-GCM submission, test case 2. -/
theorem test_gcm : gcmSeal (zeros 16) (zeros 12) [] (zeros 16) = (gcmText, gcmTag) := by decide +kernel

/-- HKDF-SHA-256 of RFC 5869, A.1. -/
theorem test_hkdf : hkdf 2 (List.replicate 22 0x0b) (beBytes 13 0x000102030405060708090a0b0c) (beBytes 10 0xf0f1f2f3f4f5f6f7f8f9) 42
    = beBytes 42 0x3cb25f25faacd57a90434f64d0362f2a2d2d0a90cf1a5a4c5db02d56ecc4c5bf34007208d5b887185865 := by decide +kernel

-- Tests: the manual's tables ---------------------------------------------------------------------------------------------------------------

/-- The table of release times (R328, R329): opcode, n, e, and RT at 0.60 V, 0.75 V and 0.85 V. -/
theorem test_release_times : ∀ r ∈ [(0x30, 4, 0, 90, 40, 40), (0x32, 4, 0, 140, 60, 60), (0x33, 4, 0, 650, 290, 260), (0x34, 32, 1, 49850, 21600, 19640),
    (0x34, 32, 32, 1308930, 567200, 515640), (0x35, 32, 0, 382760, 165860, 150790), (0x35, 48, 0, 1182160, 512270, 465700),
    (0x35, 64, 0, 2703040, 1171320, 1064840)],
    releaseNs (tokens r.1 r.2.1 r.2.2.1) 0 = r.2.2.2.1 ∧ releaseNs (tokens r.1 r.2.1 r.2.2.1) 1 = r.2.2.2.2.1
      ∧ releaseNs (tokens r.1 r.2.1 r.2.2.1) 2 = r.2.2.2.2.2 := by decide +kernel

/-- The same for curves and lattices (R352, R355): opcode, PARAM, SUB or blocks, and RT at 0.60 V, 0.75 V and 0.85 V. -/
theorem test_curve_release_times : ∀ r ∈ [(0x42, 2, 0, 265390, 115000, 104550), (0x43, 3, 0, 46160, 20000, 18190), (0x44, 4, 0, 38310, 16600, 15100),
    (0x47, 0x12, 0, 16160, 7000, 6370), (0x49, 0x23, 0, 64620, 28000, 25460), (0x4A, 0x21, 1, 41540, 18000, 16370), (0x4C, 0x32, 2, 470, 200, 190)],
    releaseNs (tokens r.1 r.2.1 r.2.2.1) 0 = r.2.2.2.1 ∧ releaseNs (tokens r.1 r.2.1 r.2.2.1) 1 = r.2.2.2.2.1
      ∧ releaseNs (tokens r.1 r.2.1 r.2.2.1) 2 = r.2.2.2.2.2 := by decide +kernel

/-- Registers after a start as their tables give them (chapters 2, 4, 6, 9, 14, 15, 17, 18). -/
theorem test_register_resets : ∀ r ∈ [(0x0, 0x47585064), (0x4, 0x00020001), (0x30008, 0x000A0864), (0x3000C, 0x7D0), (0x30010, 0x01900028), (0x30014, 0x000107D0),
    (0x80030, 0x186A0), (0xA0010, 0x00140532), (0xB0014, 0x64)], readReg svc r.1 = r.2 := by decide +kernel

/-- A SEAL of `pay` bytes of payload and `aad` bytes of additional data under AES-256-GCM. -/
def sealOf (pay aad segs : Nat) : Job := { id := 1, opcode := 0x10, phase := .held, segs := segs, attr := 0x03000000
                                           body := pktBody [(16, [1, 16]), (48, descBytes 0x1000 pay), (80, descBytes 0x20000 aad)] }

/-- Segments of a job of 40,980 bytes of which 20 are additional data: 16,384, 16,384 and 8,212 (R267). -/
theorem test_segments : (List.range 3).map (fun k => segEnd (symOf svc (sealOf 40960 20 k)) (sealOf 40960 20 k)) = [16384, 32768, 40980] := by decide +kernel

/-- The 1,400-byte seal of R253: 88 blocks and one for the tag mask, 1,424 slots at 16 a block. -/
theorem test_seal_slots : jobSlots svc (sealOf 1400 20 0) = 1424 := by decide +kernel

/-- A 64-bit doorbell word past the ring: 17 entries on a ring of 16 (R173). -/
theorem test_doorbell : (match exec (.doorbell 1023 1023 15 17) (ringed openRing 2) with
    | .next t => (t.ring 1023 15).dbErr && decide ((t.ring 1023 15).db = 0)
    | _ => false) = true := by decide +kernel

/-- A tenant's write outside its page is one entry of class C in the alarm log, with the offset and 0x800 + its seat (R63). -/
theorem test_access_alarm : (match exec (.regWrite 5 0xB0030 0xFFFFFFFF) svc with
    | .next t => t.alarms.log.map (fun e => (e.2.cause, e.2.cls, e.2.d0, e.2.d1)) == [(0x40, 3, 0xB0030, 0x805)] && decide (t.alarms.maskC = 0)
    | _ => false) = true := by decide +kernel

/-- A step of −5 ns from 5 ns: stage time reads 0 (R461). -/
theorem test_step : (match exec (.timeStep 0) atZero with
    | .next t => decide (t.now = 0) && t.time.stepped && decide (t.time.mono = atZero.time.mono)
    | _ => false) = true := by decide +kernel

/-- The class A alarm of a lockstep mismatch (R526, R524 row LOCKSTEP): cause 0x0C, keys and window erased. -/
theorem test_lockstep : (match exec .lockstep (recorded (keyJob 0x65 0 [] [] [])) with
    | .next t => t.alarms.aActive && decide (t.alarms.aCause = 0x0C) && t.keys.attrs == []
    | _ => false) = true := by decide +kernel

/-- An empty queue: one nanosecond passes (the model's clock, log entry 1). -/
theorem test_idle : (match step svc with
    | .next t => decide (t.now = 1)
    | _ => false) = true := by decide +kernel

end Sys2Proof.Tests
end

section
/-! PROOF. Secure time (R470). The frame lemmas say of most operations that they leave the whole time base alone; for each of those that may change it, a lemma
here says that secure time stays, so that a command can change it by TIME_SEC_ADV and by VAON alone. -/

namespace Sys2Proof.Machine

variable {ch : Part → Bool} {s t : State}

-- Reading secure time through frames, choices, folds and accesses

/-- An operation whose frame leaves out the time base leaves secure time alone. -/
theorem Keeps.secure (h : Keeps ch s t) (hp : ch .time = false) : t.time.secure = s.time.secure := by rw [h.time hp]

@[simp] theorem ite_secure (c : Prop) [Decidable c] (s t : State) :
    (if c then s else t).time.secure = if c then s.time.secure else t.time.secure := by split <;> rfl

theorem foldl_secure {α : Type} {f : State → α → State} (hf : ∀ t a, (f t a).time.secure = t.time.secure) (l : List α) (s : State) :
    (l.foldl f s).time.secure = s.time.secure := by
  induction l generalizing s with
  | nil => rfl
  | cons a l ih => rw [List.foldl_cons, ih, hf]

theorem whenDo_secure {f : State → State} (c : Bool) (s : State) (hf : ∀ t, (f t).time.secure = t.time.secure) :
    (whenDo c s f).time.secure = s.time.secure := by
  cases c
  · rfl
  · exact hf s

/-- A register access takes its effect, or it leaves the time base alone. -/
theorem hreg_cases (s : State) (src off : Nat) (w : Bool) (f : State → State) : hreg s src off w f = f s ∨ (hreg s src off w f).time = s.time := by
  unfold hreg
  split
  · exact .inr rfl
  split
  · exact .inr rfl
  split
  · exact .inr ((accessAlarm_keeps ..).time rfl)
  split
  · exact .inr rfl
  · exact .inl rfl

theorem hreg_secure {f : State → State} (s : State) (src off : Nat) (w : Bool) (hf : (f s).time.secure = s.time.secure) :
    (hreg s src off w f).time.secure = s.time.secure := by
  rcases hreg_cases s src off w f with h | h
  · simpa only [h] using hf
  · exact congrArg TimeBase.secure h

theorem mgrWrite_secure {f : State → State} (s : State) (off : Nat) (hf : (f s).time.secure = s.time.secure) :
    (mgrWrite s off f).time.secure = s.time.secure := hreg_secure s mgr off true hf

theorem hregRead_secure {f : State → State} (s : State) (off idle : Nat) (hf : (f s).time.secure = s.time.secure) :
    (hregRead s off idle f).time.secure = s.time.secure := by
  simp [hregRead, (readBack_keeps ..).secure rfl, hf]

@[simp] theorem alarmC_secure (s : State) (cause d0 d1 : Nat) : (alarmC s cause d0 d1).time.secure = s.time.secure := (alarmC_keeps ..).secure rfl

@[simp] theorem vector_secure (s : State) (m : Nat) : (vector s m).time.secure = s.time.secure := (vector_keeps ..).secure rfl

@[simp] theorem refuse_secure (s : State) (off : Nat) (v : W32) : (refuse s off v).time.secure = s.time.secure := (refuse_keeps ..).secure rfl

@[simp] theorem fin_secure (s : State) : (fin s).time.secure = s.time.secure := (fin_keeps ..).secure rfl

@[simp] theorem carryAll_secure (s : State) : (carryAll s).time.secure = s.time.secure := (carryAll_keeps ..).secure rfl

-- Stage time

@[simp] theorem timeStart_secure (s : State) : (timeStart s).time.secure = s.time.secure := by simp [timeStart]

@[simp] theorem timeStop_secure (s : State) : (timeStop s).time.secure = s.time.secure := by simp [timeStop]

@[simp] theorem refLose_secure (s : State) : (refLose s).time.secure = s.time.secure := by simp [refLose]

@[simp] theorem refBack_secure (s : State) (khz : Nat) : (refBack s khz).time.secure = s.time.secure := by simp [refBack]

@[simp] theorem portValue_secure (s : State) : (portValue s).time.secure = s.time.secure := by simp [portValue]

@[simp] theorem ppsUp_secure (s : State) : (ppsUp s).time.secure = s.time.secure := by simp [ppsUp]

@[simp] theorem ppsDown_secure (s : State) : (ppsDown s).time.secure = s.time.secure := by simp [ppsDown]

@[simp] theorem State.setCapture_secure (s : State) (n : Nat) (c : Capture) : (s.setCapture n c).time.secure = s.time.secure := rfl

@[simp] theorem capEdge_secure (s : State) (n : Nat) : (capEdge s n).time.secure = s.time.secure := by simp [capEdge]

@[simp] theorem rateHi_secure (s : State) (v : W32) : (rateHi s v).time.secure = s.time.secure := by simp [rateHi]

@[simp] theorem applyStep_secure (s : State) (d : Int) : (applyStep s d).time.secure = s.time.secure := rfl

@[simp] theorem stepCmd_secure (s : State) (frac : BitVec 16) : (stepCmd s frac).time.secure = s.time.secure := by
  unfold stepCmd
  extract_lets d r
  split
  · exact refuse_secure ..
  · exact applyStep_secure ..

/-- A slew is begun: stated for any offset, so that no proof evaluates the one that the registers hold. -/
theorem slewBegin_secure (s : State) (left : Int) (pos : Bool) :
    { s with time := { s.time with slewing := true, slewLeft := left, slewPos := pos } }.time.secure = s.time.secure := rfl

@[simp] theorem slewCmd_secure (s : State) (frac : BitVec 16) : (slewCmd s frac).time.secure = s.time.secure := by
  unfold slewCmd
  extract_lets d
  split
  · exact refuse_secure ..
  split
  · exact vector_secure ..
  · exact slewBegin_secure s (d * 2 ^ 64) (decide (0 < d))

@[simp] theorem cancelCmd_secure (s : State) : (cancelCmd s).time.secure = s.time.secure := by simp [cancelCmd]

@[simp] theorem slewEnd_secure (s : State) : (slewEnd s).time.secure = s.time.secure := by simp [slewEnd]

@[simp] theorem adjCtl_secure (s : State) (v : W32) : (adjCtl s v).time.secure = s.time.secure := by
  unfold adjCtl
  split <;> simp

theorem secSum_fits (free old k : Nat) (h : old + k * 1000000000 < 2 ^ 64) : secSum free old k = old + k * 1000000000 := if_pos h

theorem le_secSum (free old k : Nat) : old ≤ secSum free old k := by
  unfold secSum
  dsimp only
  split <;> omega

/-- TIME_SEC_ADV only adds (R470). -/
theorem secAdv_secure_le (s : State) (v : W32) : s.time.secure ≤ (secAdv s v).time.secure := le_secSum ..

/-- Of the writes to the time range only TIME_SEC_ADV touches secure time (R470, R474), and it adds. -/
theorem timeWrite_secure_le (s : State) (off : Nat) (v : W32) : s.time.secure ≤ (timeWrite s off v).time.secure := by
  unfold timeWrite
  split
  case h_10 => -- TIME_SEC_ADV
    exact secAdv_secure_le s v
  all_goals exact Nat.le_of_eq (by simp)

-- What stage time sets off

@[simp] theorem evalAll_secure (s : State) : (evalAll s).time.secure = s.time.secure := by
  simp only [evalAll]
  exact foldl_secure (fun _ _ => (evalRing_keeps ..).secure rfl) ..

@[simp] theorem epochBoundary_secure (s : State) (slots : List (Nat × Nat)) : (epochBoundary s slots).time.secure = s.time.secure := by
  simp [epochBoundary, (admitWaiters_keeps ..).secure rfl, (trimAll_keeps ..).secure rfl, foldl_secure (fun t b => (bayEpoch_keeps slots t b).secure rfl)]

@[simp] theorem advertise_secure (s : State) : (advertise s).time.secure = s.time.secure := by
  simp [advertise, (sendBoth_keeps ..).secure rfl]

theorem tryDraw_secure {s t : State} {i n : Nat} {b : Bytes} (h : tryDraw s i n = some (t, b)) : t.time.secure = s.time.secure :=
  ((tryDraw_keeps s i n).get h).secure rfl

@[simp] theorem countermeasures_secure (s : State) : (countermeasures s).time.secure = s.time.secure := by
  have hw : ∀ (t : State) (w : Nat),
      (if (t.wing w).power = 1 ∨ (t.wing w).power = 2 then reseedWing t w else t).time.secure = t.time.secure :=
    fun t w => by simp [(reseedWing_keeps ..).secure rfl]
  unfold countermeasures
  split
  · rfl
  dsimp only
  split
  next hr => simpa using (tryDraw_secure hr).trans (foldl_secure hw ..)
  next => exact foldl_secure hw ..

-- The relay ring

@[simp] theorem setRole_secure (s : State) : (setRole s).time.secure = s.time.secure := by simp [setRole]

@[simp] theorem timeSend_secure (s : State) : (timeSend s).time.secure = s.time.secure := by
  simp [timeSend, (hopSend_keeps ..).secure rfl]

@[simp] theorem steer_secure (s : State) (value : Stamp) : (steer s value).time.secure = s.time.secure := by
  simp [steer, takeFree]

theorem arrive_secure {f : State → State} (s : State) (sd : Side) (n : Nat) (hf : ∀ t, (f t).time.secure = t.time.secure) :
    (arrive s sd n f).time.secure = s.time.secure := by
  simp [arrive, hf, (takeFlits_keeps ..).secure rfl]

@[simp] theorem newMap_secure (s : State) (es : List MapEntry) : (newMap s es).time.secure = s.time.secure := by
  simp [newMap, (mailBreak_keeps ..).secure rfl, (dropOrigin_keeps ..).secure rfl, (loseAway_keeps ..).secure rfl]

@[simp] theorem sendMap_secure (s : State) (es : List MapEntry) : (sendMap s es).time.secure = s.time.secure := by
  simp [sendMap, (sendBoth_keeps ..).secure rfl, (noteOwn_keeps ..).secure rfl]

@[simp] theorem renewMap_secure (s : State) : (renewMap s).time.secure = s.time.secure := by
  simp [renewMap, (noteOwn_keeps ..).secure rfl]

@[simp] theorem stateHops_secure (s : State) (sd : Side) : (stateHops s sd).time.secure = s.time.secure := by
  simp [stateHops, (tellLeader_keeps ..).secure rfl]

@[simp] theorem keyedHop_secure (s : State) (sd : Side) (keys : Bytes) (ph : Bool) : (keyedHop s sd keys ph).time.secure = s.time.secure := by
  simp [keyedHop, (keyHop_keeps ..).secure rfl]

@[simp] theorem takeReply_secure (s : State) (x ct w : Bytes) : (takeReply s x ct w).time.secure = s.time.secure := by
  unfold takeReply
  dsimp only
  split
  · simp [(authFails_keeps ..).secure rfl, (hopSend_keeps ..).secure rfl]
  · rfl

@[simp] theorem takeConfirm_secure (s : State) (e : Bytes) : (takeConfirm s e).time.secure = s.time.secure := by
  simp [takeConfirm, (authFails_keeps ..).secure rfl]

@[simp] theorem actLeader_secure (s : State) : (actLeader s).time.secure = s.time.secure := by simp [actLeader]

@[simp] theorem onBreak_secure (s : State) (p : Nat) : (onBreak s p).time.secure = s.time.secure := by
  simp [onBreak, (markBroken_keeps ..).secure rfl, (dropOrigin_keeps ..).secure rfl, (loseAway_keeps ..).secure rfl, (mailEnd_keeps ..).secure rfl,
    foldl_secure (fun t j => (loseByHop_keeps _ t j).secure rfl)]

@[simp] theorem breakHop_secure (s : State) (sd : Side) : (breakHop s sd).time.secure = s.time.secure := by
  simp [breakHop, (unkeyHop_keeps ..).secure rfl, (hopSend_keeps ..).secure rfl]

@[simp] theorem linkFall_secure (s : State) (sd : Side) : (linkFall s sd).time.secure = s.time.secure := by simp [linkFall]

@[simp] theorem linkRise_secure (s : State) (sd : Side) : (linkRise s sd).time.secure = s.time.secure := by simp [linkRise]

/-- A message that the hop does not accept may break it. -/
@[simp] theorem accept_secure (s : State) (h : Hop) : (accept s h).1.time.secure = s.time.secure := by
  have ha : (arrive s h.side (h.flits % 256) id).time.secure = s.time.secure := arrive_secure s _ _ fun _ => rfl
  simp [accept, apply_ite Prod.fst, ha]

theorem receive_secure {f : State → State} (s : State) (h : Hop) (msg : RMsg) (hf : ∀ t, (f t).time.secure = t.time.secure) :
    (receive s h msg f).time.secure = s.time.secure := by
  have ha := accept_secure s h
  unfold receive
  split
  next u e => rwa [e] at ha
  next u e =>
    rw [e] at ha
    simp [hf, (forward_keeps ..).secure rfl, ← ha]

theorem receiveHere_secure {f : State → State} (s : State) (h : Hop) (hf : ∀ t, (f t).time.secure = t.time.secure) :
    (receiveHere s h f).time.secure = s.time.secure := by
  have ha := accept_secure s h
  unfold receiveHere
  split
  next u e => rwa [e] at ha
  next u e => rw [e] at ha; exact (hf u).trans ha

@[simp] theorem numberHere_secure (s : State) (h : Hop) (next : Nat) : (numberHere s h next).time.secure = s.time.secure := by
  simp [numberHere, (forward_keeps ..).secure rfl]

@[simp] theorem reportHere_secure (s : State) (src : Nat) (es : List MapEntry) : (reportHere s src es).time.secure = s.time.secure := by
  unfold reportHere
  split
  · rfl
  · simp

@[simp] theorem mapHere_secure (s : State) (h : Hop) (es : List MapEntry) : (mapHere s h es).time.secure = s.time.secure := by
  simp [mapHere, (askKey_keeps ..).secure rfl, (probeAgain_keeps ..).secure rfl, (tellLeader_keeps ..).secure rfl]

@[simp] theorem insertMember_secure (s : State) (es : List MapEntry) (p m : Nat) : (insertMember s es p m).time.secure = s.time.secure := by
  simp [insertMember]

@[simp] theorem answerJoin_secure (s : State) (h : Hop) (own : Nat) : (answerJoin s h own).time.secure = s.time.secure := by
  unfold answerJoin
  extract_lets es n back
  split
  · exact (hopSend_keeps ..).secure rfl
  · simp [(hopSend_keeps ..).secure rfl, (pairSeal_keeps ..).secure rfl]

@[simp] theorem joinIn_secure (s : State) (h : Hop) (isAnswer refused : Bool) (given : Nat) (sealedRk : Bytes) (rkOk : Bool) :
    (joinIn s h isAnswer refused given sealedRk rkOk).time.secure = s.time.secure := by
  have ha := accept_secure s h
  unfold joinIn
  split
  next u e => rwa [e] at ha
  next u e =>
    rw [e] at ha
    refine Eq.trans ?_ ha
    dsimp only
    repeat' split
    all_goals simp [(forward_keeps ..).secure rfl, (hopSend_keeps ..).secure rfl]

@[simp] theorem timeHere_secure (s : State) (h : Hop) (value : Stamp) (insideNs : Nat) : (timeHere s h value insideNs).time.secure = s.time.secure := by
  simp [timeHere, (forward_keeps ..).secure rfl]

@[simp] theorem hopBegin_secure (s : State) (sd : Side) : (hopBegin s sd).time.secure = s.time.secure := by
  simp [hopBegin, (sendProbe_keeps ..).secure rfl]

@[simp] theorem relayBegin_secure (s : State) : (relayBegin s).time.secure = s.time.secure := by
  simp [relayBegin, (tryWants_keeps ..).secure rfl, (sendHello_keeps ..).secure rfl]

-- Starting and stopping

@[simp] theorem putOutcome_secure (s : State) (k out : Nat) : (putOutcome s k out).time.secure = s.time.secure := (putOutcome_keeps ..).secure rfl

@[simp] theorem beginStep_secure (s : State) (k : Nat) : (beginStep s k).time.secure = s.time.secure := (beginStep_keeps ..).secure rfl

@[simp] theorem enterReady_secure (s : State) : (enterReady s).time.secure = s.time.secure := (enterReady_keeps ..).secure rfl

@[simp] theorem safeStage_secure (s : State) (k cause : Nat) : (safeStage s k cause).time.secure = s.time.secure := (safeStage_keeps ..).secure rfl

@[simp] theorem failHalt_secure (s : State) (k : Nat) : (failHalt s k).time.secure = s.time.secure := (failHalt_keeps ..).secure rfl

@[simp] theorem runEnd_secure (s : State) (k out : Nat) : (runEnd s k out).time.secure = s.time.secure := (runEnd_keeps ..).secure rfl

@[simp] theorem frontEnd_secure (s : State) (good run : Bool) : (frontEnd s good run).time.secure = s.time.secure := (frontEnd_keeps ..).secure rfl

@[simp] theorem smgEnd_secure (s : State) (result : Nat) : (smgEnd s result).time.secure = s.time.secure := (smgEnd_keeps ..).secure rfl

@[simp] theorem beginRelay_secure (s : State) : (beginRelay s).time.secure = s.time.secure := by simp [beginRelay]

@[simp] theorem beginFront_secure (s : State) : (beginFront s).time.secure = s.time.secure := by simp [beginFront]

@[simp] theorem doneManager_secure (s : State) : (doneManager s).time.secure = s.time.secure := by
  simp [doneManager, (armSensors_keeps ..).secure rfl, (beginLadder_keeps ..).secure rfl, (seeCard_keeps ..).secure rfl]

@[simp] theorem doneWings_secure (s : State) (passed : Nat) : (doneWings s passed).time.secure = s.time.secure := by
  have hg : ∀ (good : Nat) (t : State) (w : Nat), (if good.testBit w then reseedWing t w else t).time.secure = t.time.secure :=
    fun good t w => by simp [(reseedWing_keeps ..).secure rfl]
  unfold doneWings
  extract_lets plan good bad s1 s2 s3 s4
  have h : s4.time.secure = s.time.secure := 
    (foldl_secure (hg good) ..).trans (foldl_secure (fun t w => (State.modWing_keeps t w _).secure rfl) ..)
  split
  · simpa using h
  · simpa [(requestAll_keeps ..).secure rfl] using h

@[simp] theorem doneFront_secure (s : State) (good : Bool) : (doneFront s good).time.secure = s.time.secure := by simp [doneFront]

@[simp] theorem mainDone_secure (s : State) (k : Nat) (good : Bool) (info : Nat) : (mainDone s k good info).time.secure = s.time.secure := by
  unfold mainDone
  split <;> simp [(doneLadder_keeps ..).secure rfl, (doneEntropy_keeps ..).secure rfl, (afterTranslation_keeps ..).secure rfl, (doneSmf_keeps ..).secure rfl,
    (doneSqm_keeps ..).secure rfl, (donePairing_keeps ..).secure rfl, (doneRelay_keeps ..).secure rfl]

@[simp] theorem stepDone_secure (s : State) (k : Nat) (good : Bool) (info : Nat) : (stepDone s k good info).time.secure = s.time.secure := by
  simp [stepDone, (endCard_keeps ..).secure rfl, (runDone_keeps ..).secure rfl]

@[simp] theorem mainBound_secure (s : State) (k : Nat) : (mainBound s k).time.secure = s.time.secure := by
  unfold mainBound
  split <;> simp [(alarmB_keeps ..).secure rfl, (doneEntropy_keeps ..).secure rfl, (donePairing_keeps ..).secure rfl]

@[simp] theorem stepAtBound_secure (s : State) (k : Nat) : (stepAtBound s k).time.secure = s.time.secure := by
  simp [stepAtBound, (endCard_keeps ..).secure rfl]

@[simp] theorem runBegin_secure (s : State) (k : Nat) : (runBegin s k).time.secure = s.time.secure := by simp [runBegin]

@[simp] theorem smgCmd_secure (s : State) (code arg : Nat) : (smgCmd s code arg).time.secure = s.time.secure := by
  unfold smgCmd
  dsimp only
  split
  · rfl
  split <;> simp [(clearFails_keeps ..).secure rfl, (endAuth_keeps ..).secure rfl]

@[simp] theorem smgWrite_secure (s : State) (off : Nat) (v : W32) : (smgWrite s off v).time.secure = s.time.secure := by
  unfold smgWrite
  dsimp only
  split <;> simp [(bootCtrl_keeps ..).secure rfl, (acceptVersion_keeps ..).secure rfl, (imgWrite_keeps ..).secure rfl]

/-- A reset keeps secure time, which is always on (R544). -/
@[simp] theorem blockReset_secure (s : State) : (blockReset s).time.secure = s.time.secure := by
  simp [blockReset, timeReset, (cutWrite_keeps ..).secure rfl]

@[simp] theorem vaonReset_secure (s : State) : (vaonReset s).time.secure = s.time.secure := rfl

-- Register writes

/-- No register write makes secure time smaller (R470). -/
theorem writeReg_secure_le (s : State) (src off : Nat) (v : W32) : s.time.secure ≤ (writeReg s src off v).time.secure := by
  unfold writeReg
  split
  case h_8 => -- the time range
    exact timeWrite_secure_le s off v
  all_goals refine Nat.le_of_eq (Eq.symm ?_)
  · simp
  · exact (seatWrite_keeps ..).secure rfl
  · exact (plcWrite_keeps ..).secure rfl
  · exact (rngWrite_keeps ..).secure rfl
  · exact ((ctxWrite_keeps ..).secure rfl).trans ((keyWrite_keeps ..).secure rfl)
  · exact (engWrite_keeps ..).secure rfl
  · exact (frontWrite_keeps ..).secure rfl
  · exact (relayWrite_keeps ..).secure rfl
  · exact (custWrite_keeps ..).secure rfl
  · exact (almWrite_keeps ..).secure rfl
  · exact (digWrite_keeps ..).secure rfl
  · simp [(pageAccess_keeps ..).secure rfl]

-- Every command

theorem next_secure {u : State} (h : ok u = .next t) (k : u.time.secure = s.time.secure) : t.time.secure = s.time.secure := by
  rw [ok_eq] at h
  rw [← h, k]

/-- A command whose frame names the time base still leaves secure time, the loss of VAON and its return, TIME_SEC_ADV and register writes aside. -/
theorem exec_secure_of_movedBy_time {c : Instr} (h : exec c s = .next t) (hm : movedBy c .time ≠ false) (hloss : c ≠ .vaonLoss)
    (hback : c ≠ .vaonReturn) (hadv : ∀ v, c ≠ .secAdvance v) (hreg : ∀ src off v, c ≠ .regWrite src off v) : t.time.secure = s.time.secure := by
  cases c with
  | vaonLoss => exact absurd rfl hloss
  | vaonReturn => exact absurd rfl hback
  | secAdvance v => exact absurd rfl (hadv v)
  | regWrite src off v => exact absurd rfl (hreg src off v)
  | porstNAssert => exact next_secure h (whenDo_secure _ s fun t => by simp)
  | blkrstNAssert => exact next_secure h (whenDo_secure _ s fun t => by simp)
  | refclkLost => exact next_secure h (refLose_secure s)
  | refclkReturn khz => exact next_secure h (by simp [(cardActivate_keeps ..).secure rfl])
  | startStepDone step good info => exact next_secure h (by simp [whenDo_secure])
  | startStepBound step => exact next_secure h (by simp [whenDo_secure])
  | clearFail step => exact next_secure h (mgrWrite_secure s _ (smgCmd_secure ..))
  | runStep step => exact next_secure h (by simp [mgrWrite_secure])
  | acceptUntested => exact next_secure h (mgrWrite_secure s _ (smgCmd_secure ..))
  | promptEvaluation => exact next_secure h (by simp [whenDo_secure])
  | epochBoundary slots => exact next_secure h (by simp)
  | advertisement => exact next_secure h (by simp)
  | countermeasureReseed => exact next_secure h (by simp)
  | timePortValue => exact next_secure h (portValue_secure s)
  | ppsRise => exact next_secure h (ppsUp_secure s)
  | ppsFall => exact next_secure h (ppsDown_secure s)
  | captureEdge n => exact next_secure h (capEdge_secure s n)
  | captureSnapshot n => exact next_secure h (hregRead_secure s _ _ (by simp [(readBack_keeps ..).secure rfl]))
  | nowSnapshot => exact next_secure h (hregRead_secure s _ _ ((readBack_keeps ..).secure rfl))
  | secureSnapshot => exact next_secure h (hregRead_secure s _ _ ((readBack_keeps ..).secure rfl))
  | rateWrite v => exact next_secure h (mgrWrite_secure s _ (rateHi_secure s v))
  | timeStep frac => exact next_secure h (mgrWrite_secure s _ (stepCmd_secure s frac))
  | slew frac => exact next_secure h (mgrWrite_secure s _ (slewCmd_secure s frac))
  | cancelSlew => exact next_secure h (mgrWrite_secure s _ (cancelCmd_secure s))
  | slewDone => exact next_secure h (slewEnd_secure s)
  | linkUp sd => exact next_secure h (by simp)
  | hopBreak sd => exact next_secure h (by simp [whenDo_secure])
  | hopSilence sd => exact next_secure h (by simp [whenDo_secure])
  | reply x ct w => exact next_secure h (by simp [arrive_secure])
  | confirm e => exact next_secure h (by simp [arrive_secure])
  | echo sd e ns => exact next_secure h (by simp [receiveHere_secure, (echoHere_keeps ..).secure rfl])
  | probe hop ans formed leader => exact next_secure h (by simp [probeIn, receive_secure, (probeHere_keeps ..).secure rfl])
  | elect hop identity => exact next_secure h (by simp [electIn, receiveHere_secure, (electHere_keeps ..).secure rfl])
  | number hop n => exact next_secure h (by simp [numberIn, receiveHere_secure])
  | map hop es => exact next_secure h (by simp [mapIn, receive_secure])
  | join hop ans refused given rk good => exact next_secure h (by simp)
  | adv hop starts floor accepts => exact next_secure h (by simp [receive_secure])
  | relayJob hop job => exact next_secure h (by simp [jobIn, receive_secure, (jobHere_keeps ..).secure rfl])
  | relayDone hop d => exact next_secure h (by simp [doneIn, receive_secure, (doneHere_keeps ..).secure rfl])
  | relayCancel hop tags => exact next_secure h (by simp [receive_secure, (dropOrigin_keeps ..).secure rfl])
  | relayAlarm hop m => exact next_secure h (by simp [receive_secure, (memberAlarm_keeps ..).secure rfl])
  | relayBreak hop p => exact next_secure h (by simp [receive_secure])
  | timeSend => exact next_secure h (by simp)
  | time hop v ns => exact next_secure h (by simp [timeIn, receiveHere_secure])
  | mail hop total offset part final => exact next_secure h (by simp [mailIn, receive_secure, (mailHere_keeps ..).secure rfl])
  | _ => exact absurd rfl hm

/-- Secure time changes by TIME_SEC_ADV and by VAON alone (R470): its own command, or a register write. -/
theorem exec_secure {c : Instr} (h : exec c s = .next t) (hloss : c ≠ .vaonLoss) (hback : c ≠ .vaonReturn) (hadv : ∀ v, c ≠ .secAdvance v)
    (hreg : ∀ src off v, c ≠ .regWrite src off v) : t.time.secure = s.time.secure := by
  by_cases hm : movedBy c .time = false
  · exact ((exec_keeps c s).next_keeps t h).secure hm
  · exact exec_secure_of_movedBy_time h hm hloss hback hadv hreg

/-- A register access whose effect makes secure time no smaller makes it no smaller. -/
theorem hreg_secure_le {f : State → State} (s : State) (src off : Nat) (w : Bool) (hf : s.time.secure ≤ (f s).time.secure) :
    s.time.secure ≤ (hreg s src off w f).time.secure := by
  rcases hreg_cases s src off w f with h | h
  · simpa only [h] using hf
  · exact Nat.le_of_eq (congrArg TimeBase.secure h.symm)

/-- No command makes secure time smaller, the loss of VAON and its return aside (R470). -/
theorem exec_secure_le {c : Instr} (h : exec c s = .next t) (hloss : c ≠ .vaonLoss) (hback : c ≠ .vaonReturn) : s.time.secure ≤ t.time.secure := by
  by_cases hadv : ∃ v, c = .secAdvance v
  · obtain ⟨v, rfl⟩ := hadv
    rw [← Host.Outcome.next.inj h]
    exact hreg_secure_le s mgr 0x80048 true (secAdv_secure_le s v)
  by_cases hreg : ∃ src off v, c = .regWrite src off v
  · obtain ⟨src, off, v, rfl⟩ := hreg
    rw [← Host.Outcome.next.inj h, carryAll_secure]
    exact hreg_secure_le s _ _ true (writeReg_secure_le ..)
  · exact Nat.le_of_eq (exec_secure h hloss hback (fun v e => hadv ⟨v, e⟩) fun src off v e => hreg ⟨src, off, v, e⟩).symm

/-- A served write of TIME_SEC_ADV whose sum fits adds its seconds and touches nothing else (R470). -/
theorem exec_secAdvance (s : State) (v : W32) (hs : s.served 0x80048 = true) (hfit : s.time.secure + v.toNat * 1000000000 < 2 ^ 64) :
    exec (.secAdvance v) s = .next { s with time := { s.time with secure := s.time.secure + v.toNat * 1000000000 } } := by
  have hadv : secAdv s v = { s with time := { s.time with secure := s.time.secure + v.toNat * 1000000000 } } := by
    rw [secAdv, secSum_fits _ _ _ hfit, if_pos hfit]
  calc exec (.secAdvance v) s = ok (mgrWrite s 0x80048 (secAdv · v)) := rfl
    _ = _ := by rw [mgrWrite_served s _ _ hs, hadv, ok]

/-- Settles O9: the command that adds seconds by `exec_secAdvance`, every other command by its frame and by what it does to the time base. -/
theorem secureTimeAdvancesByWholeSeconds : Obligations.SecureTimeAdvancesByWholeSeconds :=
  fun s => ⟨exec_secAdvance s, fun _ _ h hloss hback => ⟨exec_secure_le h hloss hback, exec_secure h hloss hback⟩⟩

end Sys2Proof.Machine
end

section
/-! PROOF. The pulse per second (R467). -/

namespace Sys2Proof.Machine

/-- PPS_OUT rises at the whole second that stage time has reached, with the width in force then. -/
theorem exec_ppsRise (s : State) (hup : s.up = true) (hruns : s.time.runs = true) (hlow : s.time.ppsHigh = false) (hdue : s.time.ppsNext ≤ s.now) :
    exec .ppsRise s = .next { s with time :=
      { s.time with ppsHigh := true, ppsRose := s.time.ppsNext, ppsNext := s.time.ppsNext + 1000000000, ppsWidth := s.time.ppsCfg } } := by
  calc exec .ppsRise s = ok (ppsUp s) := rfl
    _ = _ := by simp [ppsUp, hup, hruns, hlow, hdue, ok]

theorem exec_ppsFall_due (s : State) (hhigh : s.time.ppsHigh = true) (hdue : s.time.ppsRose + s.time.ppsWidth * 1000 ≤ s.now) :
    exec .ppsFall s = .next { s with time := { s.time with ppsHigh := false } } := by
  calc exec .ppsFall s = ok (ppsDown s) := rfl
    _ = _ := by simp [ppsDown, hhigh, hdue, ok]

theorem exec_ppsFall_early (s : State) (hearly : s.now < s.time.ppsRose + s.time.ppsWidth * 1000) : exec .ppsFall s = .next s := by
  calc exec .ppsFall s = ok (ppsDown s) := rfl
    _ = _ := by simp [ppsDown, Nat.not_le.mpr hearly, ok]

/-- A step within the 64 bits of R461 puts stage time where it says. -/
theorem stamp_applyStep (s : State) (d : Int) (hlo : 0 ≤ (s.stamp : Int) + d) (hhi : (s.stamp : Int) + d ≤ (2 ^ 64 - 1) * nsUnit) :
    (applyStep s d).stamp = ((s.stamp : Int) + d).toNat := by
  have hsum : (s.time.mono : Int) + ((s.stamp : Int) + d - s.time.mono) = (s.stamp : Int) + d := by omega
  have hfit : ((s.stamp : Int) + d).toNat < 2 ^ 80 := by simp only [nsUnit] at hhi; omega
  calc (applyStep s d).stamp
      = if ((s.time.mono : Int) + ((s.stamp : Int) + d - s.time.mono)).toNat < 2 ^ 80
          then ((s.time.mono : Int) + ((s.stamp : Int) + d - s.time.mono)).toNat
          else Config.stagePast ((s.time.mono : Int) + ((s.stamp : Int) + d - s.time.mono)).toNat % 2 ^ 80 := rfl
    _ = _ := by rw [hsum, if_pos hfit]

/-- A STEP command leaves the time base alone, or it is a step to an instant within the 64 bits of R461. -/
theorem stepCmd_cases (s : State) (frac : BitVec 16) : (stepCmd s frac).time = s.time ∨
    ∃ d, stepCmd s frac = applyStep s d ∧ 0 ≤ (s.stamp : Int) + d ∧ (s.stamp : Int) + d ≤ (2 ^ 64 - 1) * nsUnit := by
  unfold stepCmd
  extract_lets d r
  split
  next => exact .inl ((refuse_keeps ..).time rfl)
  next h =>
    simp only [Bool.or_eq_true, decide_eq_true_eq, not_or, Int.not_lt] at h
    obtain ⟨⟨-, hlo⟩, hhi⟩ := h
    exact .inr ⟨d, rfl, hlo, hhi⟩

/-- A step lowers PPS_OUT, which rises next at the first whole second after the instant it leads to (R467). -/
theorem pps_applyStep (s : State) (d : Int) (hlo : 0 ≤ (s.stamp : Int) + d) (hhi : (s.stamp : Int) + d ≤ (2 ^ 64 - 1) * nsUnit) :
    (applyStep s d).time.ppsHigh = false ∧ (applyStep s d).time.ppsNext = ((applyStep s d).now / 1000000000 + 1) * 1000000000 := by
  refine ⟨rfl, ?_⟩
  rw [State.now, stamp_applyStep s d hlo hhi]
  rfl

/-- TIME_STEP that moves stage time is a step taken. -/
theorem pps_exec_timeStep {s t : State} {frac : BitVec 16} (h : exec (.timeStep frac) s = .next t) (hmoved : t.time.offset ≠ s.time.offset) :
    t.time.ppsHigh = false ∧ t.time.ppsNext = (t.now / 1000000000 + 1) * 1000000000 := by
  have ht : mgrWrite s 0x80020 (stepCmd · frac) = t := Host.Outcome.next.inj h
  rcases hreg_cases s mgr 0x80020 true (stepCmd · frac) with hw | hw <;> rw [← mgrWrite, ht] at hw
  · rcases stepCmd_cases s frac with hk | ⟨d, hd, hlo, hhi⟩
    · exact absurd (by rw [hw, hk]) hmoved
    · rw [hw, hd]
      exact pps_applyStep s d hlo hhi
  · exact absurd (by rw [hw]) hmoved

/-- A width of TIME_PPS within its range is kept for the next rise; the pulse in progress is not touched. -/
theorem timeWrite_ppsCfg (s : State) (v : W32) (hlo : 1 ≤ v.toNat % 2 ^ 20) (hhi : v.toNat % 2 ^ 20 ≤ 999999) :
    timeWrite s 0x80030 v = { s with time := { s.time with ppsCfg := v.toNat % 2 ^ 20 } } := if_pos ⟨hlo, hhi⟩

theorem exec_regWrite_ppsCfg (s : State) (v : W32) (hs : s.served 0x80030 = true) (hlo : 1 ≤ v.toNat % 2 ^ 20) (hhi : v.toNat % 2 ^ 20 ≤ 999999) :
    exec (.regWrite mgr 0x80030 v) s = .next (carryAll { s with time := { s.time with ppsCfg := v.toNat % 2 ^ 20 } }) := by
  calc exec (.regWrite mgr 0x80030 v) s = ok (carryAll (hreg s mgr 0x80030 true (writeReg · mgr 0x80030 v))) := rfl
    _ = ok (carryAll (timeWrite s 0x80030 v)) := by rw [hreg_served s _ _ _ hs]; rfl
    _ = _ := by rw [timeWrite_ppsCfg s v hlo hhi, ok]

/-- Settles O6: the rise, the fall, the step and the width each by the lemma on its command. -/
theorem pulsePerSecondRisesAndFalls : Obligations.PulsePerSecondRisesAndFalls :=
  fun s => ⟨exec_ppsRise s, exec_ppsFall_due s, fun _ => exec_ppsFall_early s, fun _ _ => pps_exec_timeStep, exec_regWrite_ppsCfg s⟩

end Sys2Proof.Machine
end

section
/-! PROOF. Legal modes (R79, R115, R312, R508): no operation leaves the modes of their tables. -/
namespace Sys2Proof.Machine
variable {s t : State}

/-- The parts that hold no mode. -/
def unmoded : Part → Bool := allBut [.start, .window, .cust, .time]

/-- An operation whose frame leaves out the four parts that hold a mode keeps legal modes. -/
theorem Keeps.legal {ch : Part → Bool} (k : Keeps ch s t) (hp : within ch unmoded = true) (hs : legalModes s) : legalModes t := by
  have k' := k.mono hp
  simpa only [legalModes, k'.start rfl, k'.window rfl, k'.cust rfl, k'.time rfl] using hs

theorem legalModes.start (hs : legalModes s) : s.start.state ≤ 5 := hs.1

theorem legalModes.window (hs : legalModes s) : s.window.st ≤ 2 := hs.2.1

theorem legalModes.card (hs : legalModes s) : s.cust.st ≤ 6 := hs.2.2.1

theorem legalModes.time (hs : legalModes s) : s.time.portSeq < 4 := hs.2.2.2

theorem State.modStart_legal {f : Start → Start} (hs : legalModes s) (hf : (f s.start).state ≤ 5) : legalModes (s.modStart f) :=
  ⟨hf, hs.window, hs.card, hs.time⟩

theorem State.modWindow_legal {f : DigestWindow → DigestWindow} (hs : legalModes s) (hf : (f s.window).st ≤ 2) : legalModes (s.modWindow f) :=
  ⟨hs.start, hf, hs.card, hs.time⟩

theorem State.modCust_legal {f : Cust → Cust} (hs : legalModes s) (hf : (f s.cust).st ≤ 6) : legalModes (s.modCust f) :=
  ⟨hs.start, hs.window, hf, hs.time⟩

theorem legalModes.withTime {x : TimeBase} (hs : legalModes s) (hx : x.portSeq < 4) : legalModes { s with time := x } := ⟨hs.start, hs.window, hs.card, hx⟩

theorem legalModes.withStart {x : Start} (hs : legalModes s) (hx : x.state ≤ 5) : legalModes { s with start := x } := ⟨hx, hs.window, hs.card, hs.time⟩

theorem legalModes.withRelay (hs : legalModes s) (x : Relay) : legalModes { s with relay := x } := hs

theorem legalModes.withKeys (hs : legalModes s) (x : KeyStore) : legalModes { s with keys := x } := hs

theorem legalModes.withAlarms (hs : legalModes s) (x : Alarms) : legalModes { s with alarms := x } := hs

theorem legalModes.withEntropy (hs : legalModes s) (x : Entropy) : legalModes { s with entropy := x } := hs

theorem tryDraw_legal {i n : Nat} {b : Bytes} (h : tryDraw s i n = some (t, b)) (hs : legalModes s) : legalModes t :=
  ((tryDraw_keeps s i n).get h).legal rfl hs

theorem legalModes.withFree (hs : legalModes s) (x : Nat) : legalModes { s with freeCount := x } := hs

theorem legalModes.withEngines (hs : legalModes s) (x : Engines) : legalModes { s with engines := x } := hs

-- Folds

theorem foldl_legal {α : Type} {f : State → α → State} (hf : ∀ t a, legalModes t → legalModes (f t a)) (l : List α) (hs : legalModes s) :
    legalModes (l.foldl f s) := by
  induction l generalizing s with
  | nil => exact hs
  | cons a l ih => exact ih (hf s a hs)

-- Operations that reach no part with a mode

theorem noteFault_legal (hs : legalModes s) (a : Access) : legalModes (noteFault s a) := (noteFault_keeps ..).legal rfl hs

theorem logFault_legal (hs : legalModes s) (seat sub va : Nat) (log : Bool) : legalModes (logFault s seat sub va log) := (logFault_keeps ..).legal rfl hs

theorem State.dropAccess_legal (hs : legalModes s) (id : Nat) : legalModes (State.dropAccess s id) := (State.dropAccess_keeps ..).legal rfl hs

theorem State.modAccess_legal (hs :
    legalModes s) (id : Nat) (f : Access → Access) : legalModes (State.modAccess s id f) := (State.modAccess_keeps ..).legal rfl hs

theorem mailEnd_legal (hs : legalModes s) (r : Nat) : legalModes (mailEnd s r) := (mailEnd_keeps ..).legal rfl hs

theorem takeFree_legal (hs : legalModes s) : legalModes (takeFree s).1 := (takeFree_keeps ..).legal rfl hs

theorem faultJob_legal (hs : legalModes s) (id sub : Nat) : legalModes (faultJob s id sub) := (faultJob_keeps ..).legal rfl hs

theorem leave_legal (hs : legalModes s) (id : Nat) : legalModes (leave s id) := (leave_keeps ..).legal rfl hs

theorem cplFault_legal (hs : legalModes s) (seat slot idx : Nat) : legalModes (cplFault s seat slot idx) := (cplFault_keeps ..).legal rfl hs

theorem fetchFault_legal (hs : legalModes s) (seat slot k sub : Nat) : legalModes (fetchFault s seat slot k sub) := (fetchFault_keeps ..).legal rfl hs

theorem leaseFault_legal (hs : legalModes s) (i req off sub : Nat) : legalModes (leaseFault s i req off sub) := (leaseFault_keeps ..).legal rfl hs

theorem useFault_legal (hs : legalModes s) (seat h req sub : Nat) : legalModes (useFault s seat h req sub) := (useFault_keeps ..).legal rfl hs

theorem faultOf_legal (hs : legalModes s) (job : Option Nat) (sub : Nat) : legalModes (faultOf s job sub) := (faultOf_keeps ..).legal rfl hs

theorem keepBucket_legal (hs : legalModes s) (t b : Nat) (v : Bytes) : legalModes (keepBucket s t b v) := (keepBucket_keeps ..).legal rfl hs

theorem alarmC_legal (hs : legalModes s) (cause d0 d1 : Nat) : legalModes (alarmC s cause d0 d1) := (alarmC_keeps ..).legal rfl hs

theorem State.noMigPage_legal (hs : legalModes s) (ord : Nat) : legalModes (State.noMigPage s ord) := (State.noMigPage_keeps ..).legal rfl hs

theorem migFault_legal (hs : legalModes s) : legalModes (migFault s) := (migFault_keeps ..).legal rfl hs

theorem orphan_legal (hs : legalModes s) (id sub : Nat) : legalModes (orphan s id sub) := (orphan_keeps ..).legal rfl hs

theorem memTry_legal (hs : legalModes s) (a : Access) : legalModes (memTry s a).1 := (memTry_keeps ..).legal rfl hs

theorem dropDeficits_legal (hs : legalModes s) : legalModes (dropDeficits s) := (dropDeficits_keeps ..).legal rfl hs

theorem settle_legal (hs : legalModes s) : legalModes (settle s) := (settle_keeps ..).legal rfl hs

theorem peerGo_legal (hs : legalModes s) : legalModes (peerGo s) := (peerGo_keeps ..).legal rfl hs

theorem holdMems_legal (hs : legalModes s) : legalModes (holdMems s) := (holdMems_keeps ..).legal rfl hs

theorem vector_legal (hs : legalModes s) (m : Nat) : legalModes (vector s m) := (vector_keeps ..).legal rfl hs

theorem refuse_legal (hs : legalModes s) (off : Nat) (value : W32) : legalModes (refuse s off value) := (refuse_keeps ..).legal rfl hs

theorem endRehearsal_legal (hs : legalModes s) : legalModes (endRehearsal s) := (endRehearsal_keeps ..).legal rfl hs

theorem modStartRec_legal (hs : legalModes s) (f : StartRec → StartRec) : legalModes (modStartRec s f) := (modStartRec_keeps ..).legal rfl hs

theorem State.modJournal_legal (hs : legalModes s) (f : Journal → Journal) : legalModes (State.modJournal s f) := (State.modJournal_keeps ..).legal rfl hs

theorem dropImage_legal (hs : legalModes s) : legalModes (dropImage s) := (dropImage_keeps ..).legal rfl hs

theorem State.modWing_legal (hs : legalModes s) (w : Nat) (f : Wing → Wing) : legalModes (State.modWing s w f) := (State.modWing_keeps ..).legal rfl hs

theorem mendHome_legal (hs : legalModes s) : legalModes (mendHome s) := (mendHome_keeps ..).legal rfl hs

theorem wipeBay_legal (hs : legalModes s) (b : Nat) : legalModes (wipeBay s b) := (wipeBay_keeps ..).legal rfl hs

theorem zeroAllInst_legal (hs : legalModes s) : legalModes (zeroAllInst s) := (zeroAllInst_keeps ..).legal rfl hs

theorem almLog_legal (hs : legalModes s) (cause cls d0 d1 : Nat) : legalModes (almLog s cause cls d0 d1) := (almLog_keeps ..).legal rfl hs

theorem sendBoth_legal (hs : legalModes s) (msg : RMsg) : legalModes (sendBoth s msg) := (sendBoth_keeps ..).legal rfl hs

theorem dropFetches_legal (hs : legalModes s) : legalModes (dropFetches s) := (dropFetches_keeps ..).legal rfl hs

theorem reopen_legal (hs : legalModes s) : legalModes (reopen s) := (reopen_keeps ..).legal rfl hs

theorem mailBreak_legal (hs : legalModes s) : legalModes (mailBreak s) := (mailBreak_keeps ..).legal rfl hs

theorem unkeyHop_legal (hs : legalModes s) (sd : Side) : legalModes (unkeyHop s sd) := (unkeyHop_keeps ..).legal rfl hs

theorem advanceAll_legal (hs : legalModes s) : legalModes (advanceAll s) := (advanceAll_keeps ..).legal rfl hs

theorem engAdvanceAll_legal (hs : legalModes s) : legalModes (engAdvanceAll s) := (engAdvanceAll_keeps ..).legal rfl hs

theorem keepOutcome_legal (hs : legalModes s) (id : Nat) : legalModes (keepOutcome s id) := (keepOutcome_keeps ..).legal rfl hs

theorem State.modEngine_legal (hs :
    legalModes s) (w : Nat) (f : Engine → Engine) : legalModes (State.modEngine s w f) := (State.modEngine_keeps ..).legal rfl hs

theorem chargeBlocks_legal (hs : legalModes s) (j : Job) (floor b : Nat) : legalModes (chargeBlocks s j floor b) := (chargeBlocks_keeps ..).legal rfl hs

theorem release_legal (hs : legalModes s) (w : Nat) (j : Job) (status sub : Nat) : legalModes (release s w j status sub) := (release_keeps ..).legal rfl hs

theorem State.modJob_legal (hs : legalModes s) (id : Nat) (f : Job → Job) : legalModes (State.modJob s id f) := (State.modJob_keeps ..).legal rfl hs

theorem evalRing_legal (hs : legalModes s) (seat slot : Nat) : legalModes (evalRing s seat slot) := (evalRing_keeps ..).legal rfl hs

theorem rngResult_legal (hs : legalModes s) (r : Nat) : legalModes (rngResult s r) := (rngResult_keeps ..).legal rfl hs

theorem failDrawers_legal (hs : legalModes s) (status : Nat) : legalModes (failDrawers s status) := (failDrawers_keeps ..).legal rfl hs

theorem exitRehearsal_legal (hs : legalModes s) : legalModes (exitRehearsal s) := (exitRehearsal_keeps ..).legal rfl hs

theorem reviveSources_legal (hs : legalModes s) (mask : Nat) : legalModes (reviveSources s mask) := (reviveSources_keeps ..).legal rfl hs

theorem clearCounts_legal (hs : legalModes s) : legalModes (clearCounts s) := (clearCounts_keeps ..).legal rfl hs

theorem admitWaiters_legal (hs : legalModes s) : legalModes (admitWaiters s) := (admitWaiters_keeps ..).legal rfl hs

theorem trimAll_legal (hs : legalModes s) : legalModes (trimAll s) := (trimAll_keeps ..).legal rfl hs

theorem bayEpoch_legal (hs : legalModes s) (slots : List (Nat × Nat)) (b : Nat) : legalModes (bayEpoch slots s b) := (bayEpoch_keeps ..).legal rfl hs

theorem reseedWing_legal (hs : legalModes s) (w : Nat) : legalModes (reseedWing s w) := (reseedWing_keeps ..).legal rfl hs

theorem State.modKeys_legal (hs : legalModes s) (f : KeyStore → KeyStore) : legalModes (State.modKeys s f) := (State.modKeys_keeps ..).legal rfl hs

theorem hopSend_legal (hs :
    legalModes s) (sd : Side) (src dst hops : Nat) (msg : RMsg) : legalModes (hopSend s sd src dst hops msg) := (hopSend_keeps ..).legal rfl hs

theorem State.modRelay_legal (hs : legalModes s) (f : Relay → Relay) : legalModes (State.modRelay s f) := (State.modRelay_keeps ..).legal rfl hs

theorem dropOrigin_legal (hs : legalModes s) (p : Nat → Nat → Bool) : legalModes (dropOrigin s p) := (dropOrigin_keeps ..).legal rfl hs

theorem loseAway_legal (hs : legalModes s) (p : Nat → Bool) : legalModes (loseAway s p) := (loseAway_keeps ..).legal rfl hs

theorem noteOwn_legal (hs : legalModes s) : legalModes (noteOwn s) := (noteOwn_keeps ..).legal rfl hs

theorem tellLeader_legal (hs : legalModes s) (sd : Side) : legalModes (tellLeader s sd) := (tellLeader_keeps ..).legal rfl hs

theorem keyHop_legal (hs : legalModes s) (sd : Side) (keys : Bytes) (ph : Bool) : legalModes (keyHop s sd keys ph) := (keyHop_keeps ..).legal rfl hs

theorem authFails_legal (hs : legalModes s) (sd : Side) : legalModes (authFails s sd) := (authFails_keeps ..).legal rfl hs

theorem loseByHop_legal (hs : legalModes s) (m : Nat) (j : Job) : legalModes (loseByHop m s j) := (loseByHop_keeps ..).legal rfl hs

theorem markBroken_legal (hs : legalModes s) (p : Nat) : legalModes (markBroken s p) := (markBroken_keeps ..).legal rfl hs

theorem State.modHop_legal (hs : legalModes s) (sd : Side) (f : RHop → RHop) : legalModes (State.modHop s sd f) := (State.modHop_keeps ..).legal rfl hs

theorem takeFlits_legal (hs : legalModes s) (sd : Side) (n : Nat) : legalModes (takeFlits s sd n) := (takeFlits_keeps ..).legal rfl hs

theorem forward_legal (hs : legalModes s) (h : Hop) (msg : RMsg) : legalModes (forward s h msg) := (forward_keeps ..).legal rfl hs

theorem probeHere_legal (hs :
    legalModes s) (h : Hop) (isAnswer formed : Bool) (leader : Nat) : legalModes (probeHere s h isAnswer formed leader) := (probeHere_keeps ..).legal rfl hs

theorem electHere_legal (hs : legalModes s) (h : Hop) (identity : Candidate) : legalModes (electHere s h identity) := (electHere_keeps ..).legal rfl hs

theorem askKey_legal (hs : legalModes s) : legalModes (askKey s) := (askKey_keeps ..).legal rfl hs

theorem probeAgain_legal (hs : legalModes s) : legalModes (probeAgain s) := (probeAgain_keeps ..).legal rfl hs

theorem pairSeal_legal (hs : legalModes s) (a b : Nat) (mat : Bytes) : legalModes (pairSeal s a b mat).1 := (pairSeal_keeps ..).legal rfl hs

theorem jobHere_legal (hs : legalModes s) (h : Hop) (j : RelayedJob) : legalModes (jobHere s h j) := (jobHere_keeps ..).legal rfl hs

theorem doneHere_legal (hs : legalModes s) (h : Hop) (d : RelayedDone) : legalModes (doneHere s h d) := (doneHere_keeps ..).legal rfl hs

theorem mailHere_legal (hs :
    legalModes s) (h : Hop) (total offset : Nat) (part : Bytes) (final : Bool) : legalModes (mailHere s h total offset part final) := (mailHere_keeps ..).legal rfl hs

theorem sendProbe_legal (hs : legalModes s) (sd : Side) : legalModes (sendProbe s sd) := (sendProbe_keeps ..).legal rfl hs

theorem tryWants_legal (hs : legalModes s) : legalModes (tryWants s) := (tryWants_keeps ..).legal rfl hs

theorem sendHello_legal (hs : legalModes s) (again : Bool) : legalModes (sendHello s again) := (sendHello_keeps ..).legal rfl hs

theorem sensorRead_legal (hs : legalModes s) (x : Sensor) (d0 : W32) : legalModes (sensorRead s x d0) := (sensorRead_keeps ..).legal rfl hs

theorem State.modAlarms_legal (hs : legalModes s) (f : Alarms → Alarms) : legalModes (State.modAlarms s f) := (State.modAlarms_keeps ..).legal rfl hs

theorem stopWhere_legal (hs : legalModes s) (p : Job → Bool) (status sub : Nat) : legalModes (stopWhere s p status sub) := (stopWhere_keeps ..).legal rfl hs

theorem returnQueued_legal (hs : legalModes s) (b : Nat) : legalModes (returnQueued s b) := (returnQueued_keeps ..).legal rfl hs

theorem zeroInst_legal (hs : legalModes s) (i : Nat) : legalModes (zeroInst s i) := (zeroInst_keeps ..).legal rfl hs

theorem enterService_legal (hs : legalModes s) : legalModes (enterService s) := (enterService_keeps ..).legal rfl hs

theorem fillHome_legal (hs : legalModes s) : legalModes (fillHome s) := (fillHome_keeps ..).legal rfl hs

theorem countCut_legal (hs : legalModes s) : legalModes (countCut s) := (countCut_keeps ..).legal rfl hs

theorem journalCheck_legal (hs : legalModes s) : legalModes (journalCheck s) := (journalCheck_keeps ..).legal rfl hs

theorem instRequest_legal (hs : legalModes s) (i : Nat) : legalModes (instRequest s i) := (instRequest_keeps ..).legal rfl hs

theorem addBoot_legal (hs : legalModes s) (part va len : Nat) : legalModes (addBoot s part va len) := (addBoot_keeps ..).legal rfl hs

theorem State.modFront_legal (hs : legalModes s) (f : Front → Front) : legalModes (State.modFront s f) := (State.modFront_keeps ..).legal rfl hs

theorem epochStep_legal (hs : legalModes s) : legalModes (epochStep s) := (epochStep_keeps ..).legal rfl hs

theorem requestAll_legal (hs : legalModes s) : legalModes (requestAll s) := (requestAll_keeps ..).legal rfl hs

theorem frontEnd_legal (hs : legalModes s) (good run : Bool) : legalModes (frontEnd s good run) := (frontEnd_keeps ..).legal rfl hs

theorem alarmB_legal (hs : legalModes s) (cause d0 : Nat) : legalModes (alarmB s cause d0) := (alarmB_keeps ..).legal rfl hs

theorem clearFails_legal (hs : legalModes s) (k : Nat) : legalModes (clearFails s k) := (clearFails_keeps ..).legal rfl hs

theorem noteLatency_legal (hs : legalModes s) (a : Access) : legalModes (noteLatency s a) := (noteLatency_keeps ..).legal rfl hs

theorem jobData_legal (hs :
    legalModes s) (id : Nat) (key : BufKey) (ord : Nat) (b : Bytes) : legalModes (jobData s id key ord b) := (jobData_keeps ..).legal rfl hs

theorem squash_legal (hs : legalModes s) (seat : Nat) : legalModes (squash s seat) := (squash_keeps ..).legal rfl hs

theorem packetIn_legal (hs : legalModes s) (seat slot k : Nat) (b : Bytes) : legalModes (packetIn s seat slot k b) := (packetIn_keeps ..).legal rfl hs

theorem peerData_legal (hs : legalModes s) (t b : Nat) (v : Bytes) : legalModes (peerData s t b v) := (peerData_keeps ..).legal rfl hs

theorem migGo_legal (hs : legalModes s) (last : Bool) : legalModes (migGo s last) := (migGo_keeps ..).legal rfl hs

theorem State.modRegs_legal (hs : legalModes s) (f : SeatRegs → SeatRegs) : legalModes (State.modRegs s f) := (State.modRegs_keeps ..).legal rfl hs

theorem mailData_legal (hs : legalModes s) (ord : Nat) (b : Bytes) : legalModes (mailData s ord b) := (mailData_keeps ..).legal rfl hs

theorem walkAnswer_legal (hs :
    legalModes s) (a : Access) (level table : Nat) (beat : Bytes) : legalModes (walkAnswer s a level table beat).1 := (walkAnswer_keeps ..).legal rfl hs

theorem seatWrite_legal (hs : legalModes s) (off : Nat) (v : W32) : legalModes (seatWrite s off v) := (seatWrite_keeps ..).legal rfl hs

theorem plcWrite_legal (hs : legalModes s) (off : Nat) (v : W32) : legalModes (plcWrite s off v) := (plcWrite_keeps ..).legal rfl hs

theorem ctxWrite_legal (hs : legalModes s) (off : Nat) (v : W32) : legalModes (ctxWrite s off v) := (ctxWrite_keeps ..).legal rfl hs

theorem keyWrite_legal (hs : legalModes s) (off : Nat) (v : W32) : legalModes (keyWrite s off v) := (keyWrite_keeps ..).legal rfl hs

theorem engWrite_legal (hs : legalModes s) (off : Nat) (v : W32) : legalModes (engWrite s off v) := (engWrite_keeps ..).legal rfl hs

theorem frontWrite_legal (hs : legalModes s) (off : Nat) (v : W32) : legalModes (frontWrite s off v) := (frontWrite_keeps ..).legal rfl hs

theorem relayWrite_legal (hs : legalModes s) (off : Nat) (v : W32) : legalModes (relayWrite s off v) := (relayWrite_keeps ..).legal rfl hs

theorem almWrite_legal (hs : legalModes s) (off : Nat) (v : W32) : legalModes (almWrite s off v) := (almWrite_keeps ..).legal rfl hs

theorem pageAccess_legal (hs : legalModes s) (src off : Nat) (v : W32) : legalModes (pageAccess s src off v) := (pageAccess_keeps ..).legal rfl hs
end Sys2Proof.Machine
end

section
/-! PROOF. Legal modes (R79, R115, R312, R508): each operation that reaches SMG_START_STATE, the window, the card port or the time port leaves them legal. -/
namespace Sys2Proof.Machine
variable {s t : State}

theorem onFault_legal (hs : legalModes s) (a : Access) (sub : Nat) (more : Option Bytes) : legalModes (onFault s a sub more) := by
  unfold onFault
  extract_lets t u
  have ht : legalModes t := by
    unfold t
    split
    · exact hs
    · exact noteFault_legal (logFault_legal hs ..) a
  have hu : legalModes u := by
    unfold u
    cases more
    · exact State.dropAccess_legal ht a.id
    · exact State.modAccess_legal ht ..
  clear_value u
  split
  case h_6 => exact ⟨hu.start, hu.window, hu.card, hu.time⟩
  case h_17 => exact hu
  case h_16 => exact mailEnd_legal (takeFree_legal hu) _
  all_goals grind [faultJob_legal, leave_legal, cplFault_legal, fetchFault_legal, leaseFault_legal, useFault_legal, faultOf_legal, keepBucket_legal, alarmC_legal,
    State.noMigPage_legal, migFault_legal, orphan_legal]

theorem pumpOne_legal (hs : legalModes s) (id : Nat) : legalModes (pumpOne s id) := by
  grind [pumpOne, memTry_legal, onFault_legal]

theorem pump_legal (hs : legalModes s) : legalModes (pump s) := by
  grind [pump, pumpOne_legal, foldl_legal]

theorem fin_legal (hs : legalModes s) : legalModes (fin s) := by
  grind [fin, dropDeficits_legal, pump_legal, settle_legal, peerGo_legal, holdMems_legal]

theorem tick_legal (hs : legalModes s) : legalModes (tick s) := by
  have hseq : (timeTick s.time).portSeq = s.time.portSeq := by
    unfold timeTick
    extract_lets
    split <;> rfl
  grind [tick, legalModes.withTime, legalModes.time]

theorem timeStop_legal (hs : legalModes s) : legalModes (timeStop s) := by
  grind [timeStop, legalModes.withTime, legalModes.time]

theorem timeStart_legal (hs : legalModes s) : legalModes (timeStart s) := by
  grind [timeStart, alarmC_legal, legalModes.withTime, legalModes.time]

theorem refLose_legal (hs : legalModes s) : legalModes (refLose s) := by
  grind [refLose, vector_legal, alarmC_legal, legalModes.withTime, legalModes.time]

theorem refBack_legal (hs : legalModes s) (khz : Nat) : legalModes (refBack s khz) := by
  grind [refBack, vector_legal, legalModes.withTime, legalModes.time]

theorem portValue_legal (hs : legalModes s) : legalModes (portValue s) := by
  grind [portValue, legalModes.withTime, legalModes.time]

theorem ppsUp_legal (hs : legalModes s) : legalModes (ppsUp s) := by
  grind [ppsUp, legalModes.withTime, legalModes.time]

theorem ppsDown_legal (hs : legalModes s) : legalModes (ppsDown s) := by
  grind [ppsDown, legalModes.withTime, legalModes.time]

theorem State.setCapture_legal (hs : legalModes s) (n : Nat) (c : Capture) : legalModes (s.setCapture n c) := hs.withTime hs.time

theorem capEdge_legal (hs : legalModes s) (n : Nat) : legalModes (capEdge s n) := by
  grind [capEdge, State.setCapture_legal, vector_legal]

theorem rateHi_legal (hs : legalModes s) (v : W32) : legalModes (rateHi s v) := by
  grind [rateHi, refuse_legal, legalModes.withTime, legalModes.time]

theorem applyStep_legal (hs : legalModes s) (d : Int) : legalModes (applyStep s d) := hs.withTime hs.time

theorem stepCmd_legal (hs : legalModes s) (frac : BitVec 16) : legalModes (stepCmd s frac) := by
  grind [stepCmd, refuse_legal, applyStep_legal]

theorem slewCmd_legal (hs : legalModes s) (frac : BitVec 16) : legalModes (slewCmd s frac) := by
  unfold slewCmd
  extract_lets d
  split
  · exact refuse_legal hs ..
  split
  · exact vector_legal (hs.withTime (x := { s.time with slewing := false, slewLeft := 0 }) hs.time) 6
  · exact hs.withTime (x := { s.time with slewing := true, slewLeft := d * 2 ^ 64, slewPos := decide (0 < d) }) hs.time

theorem cancelCmd_legal (hs : legalModes s) : legalModes (cancelCmd s) := by
  grind [cancelCmd, refuse_legal, legalModes.withTime, legalModes.time]

theorem slewEnd_legal (hs : legalModes s) : legalModes (slewEnd s) := by
  grind [slewEnd, vector_legal, legalModes.withTime, legalModes.time]

theorem adjCtl_legal (hs : legalModes s) (v : W32) : legalModes (adjCtl s v) := by
  grind [adjCtl, stepCmd_legal, slewCmd_legal, cancelCmd_legal, refuse_legal]

theorem secAdv_legal (hs : legalModes s) (v : W32) : legalModes (secAdv s v) :=
  (hs.withTime (x := { s.time with secure := secSum (Config.free s.freeCount) s.time.secure v.toNat }) hs.time).withFree _

theorem timeWrite_legal (hs : legalModes s) (off : Nat) (v : W32) : legalModes (timeWrite s off v) := by
  unfold timeWrite
  dsimp only
  split
  case h_3 => exact rateHi_legal hs v
  case h_6 => exact adjCtl_legal hs v
  case h_10 => exact secAdv_legal hs v
  case h_7 | h_8 =>
    split
    · exact ⟨hs.start, hs.window, hs.card, hs.time⟩
    · exact refuse_legal hs ..
  all_goals exact ⟨hs.start, hs.window, hs.card, hs.time⟩

theorem State.modCustRec_legal (hs : legalModes s) (i : Nat) (f : CustRec → CustRec) : legalModes (State.modCustRec s i f) := by
  grind [State.modCustRec, State.modCust_legal, legalModes.card]

theorem recPhase_legal (hs : legalModes s) (i p : Nat) : legalModes (recPhase s i p) := by
  grind [recPhase, State.modCustRec_legal]

theorem cardCatchUp_legal (hs : legalModes s) : legalModes (cardCatchUp s) := by
  grind [cardCatchUp, recPhase_legal]

theorem recSettle_legal (hs : legalModes s) (i p out : Nat) : legalModes (recSettle s i p out) := by
  grind [recSettle, vector_legal, recPhase_legal, State.modCust_legal, legalModes.card]

theorem endAuth_legal (hs : legalModes s) (act : Nat) : legalModes (endAuth s act) := by
  grind [endAuth, State.modCust_legal, legalModes.card]

theorem cmdDone_legal (hs : legalModes s) (status sub : Nat) : legalModes (cmdDone s status sub) := by
  grind [cmdDone, vector_legal, State.modCust_legal, legalModes.card]

theorem cmdEnd_legal (hs : legalModes s) (status sub : Nat) : legalModes (cmdEnd s status sub) := by
  grind [cmdEnd, cmdDone_legal, State.modCust_legal, legalModes.card]

theorem cardOff_legal (hs : legalModes s) : legalModes (cardOff s) := by
  grind [cardOff, State.modCust_legal, legalModes.card, settle_legal]

theorem cutWrite_legal (hs : legalModes s) : legalModes (cutWrite s).1 := by
  grind [cutWrite, cardCatchUp_legal, recPhase_legal]

theorem cardCut_legal (hs : legalModes s) {st : Nat} (hst : st ≤ 6) (status : Option Nat) : legalModes (cardCut s st status) := by
  have ho := cardOff_legal (cutWrite_legal hs)
  unfold cardCut
  dsimp only
  refine State.modCust_legal ?_ hst
  grind [cmdEnd_legal]

theorem cardFailed_legal (hs : legalModes s) : legalModes (cardFailed s) := by
  grind [cardFailed, vector_legal, State.modCust_legal, legalModes.card]

theorem cardAlarm_legal (hs : legalModes s) : legalModes (cardAlarm s) := by
  grind [cardAlarm, cardFailed_legal, cardCut_legal, State.modCust_legal, legalModes.card]

theorem sendBlock_legal (hs : legalModes s) (pcb : Nat) (inf : Bytes) : legalModes (sendBlock s pcb inf) := by
  grind [sendBlock, State.modCust_legal, legalModes.card]

theorem sendI_legal (hs : legalModes s) : legalModes (sendI s) := by
  grind [sendI, State.modCust_legal, legalModes.card, sendBlock_legal]

theorem sendR_legal (hs : legalModes s) (err : Nat) : legalModes (sendR s err) := by
  grind [sendR, sendBlock_legal]

theorem resendLast_legal (hs : legalModes s) : legalModes (resendLast s) := by
  grind [resendLast, sendBlock_legal]

theorem startApdu_legal (hs : legalModes s) (op : CardOp) (ins : Nat) (data : Bytes) : legalModes (startApdu s op ins data) := by
  grind [startApdu, sendI_legal, State.modCust_legal, legalModes.card]

theorem takeRec_legal (hs : legalModes s) (i kind card detail : Nat) : legalModes (takeRec s i kind card detail) := by
  grind [takeRec, State.modCustRec_legal, State.modCust_legal, legalModes.card]

theorem sendAuthorize_legal (hs : legalModes s) (cert : Bytes) : legalModes (sendAuthorize s cert) := by
  grind [sendAuthorize, tryDraw_legal, cmdEnd_legal, takeRec_legal, startApdu_legal, State.modCust_legal, legalModes.card]

theorem sendGetShare_legal (hs : legalModes s) : legalModes (sendGetShare s) := by
  grind [sendGetShare, tryDraw_legal, startApdu_legal, State.modCust_legal, legalModes.card]

theorem sendPutShare_legal (hs : legalModes s) (cert bwk : Bytes) : legalModes (sendPutShare s cert bwk) := by
  unfold sendPutShare
  split
  · exact cmdEnd_legal hs ..
  split
  · exact hs
  next hd =>
    have ht := tryDraw_legal hd hs
    dsimp only
    split
    · exact cmdEnd_legal ht ..
    · exact startApdu_legal (takeRec_legal ht ..) ..

theorem cmdGo_legal (hs : legalModes s) (cert : Bytes) : legalModes (cmdGo s cert) := by
  grind [cmdGo, cmdEnd_legal, sendAuthorize_legal, sendGetShare_legal, sendPutShare_legal]

theorem cardGo_legal (hs : legalModes s) : legalModes (cardGo s) := by
  grind [cardGo, startApdu_legal, State.modCust_legal, legalModes.card, settle_legal, cmdGo_legal]

theorem cardReady_legal (hs : legalModes s) : legalModes (cardReady s) := by
  grind [cardReady, vector_legal, State.modCust_legal, legalModes.card, cardGo_legal, settle_legal]

theorem swFail_legal (hs : legalModes s) (sw : Nat) : legalModes (swFail s sw) := by
  grind [swFail, cmdEnd_legal]

theorem writeDone_legal (hs : legalModes s) (sw : Nat) : legalModes (writeDone s sw) := by
  grind [writeDone, recPhase_legal, State.modCust_legal, legalModes.card]

theorem authorizeDone_legal (hs : legalModes s) (sig : Bytes) : legalModes (authorizeDone s sig) := by
  grind [authorizeDone, endAuth_legal, cmdEnd_legal, State.modCust_legal, legalModes.card]

theorem shareDone_legal (hs : legalModes s) (data : Bytes) : legalModes (shareDone s data) := by
  grind [shareDone, cmdEnd_legal, State.modCust_legal, legalModes.card, legalModes.withKeys]

theorem checkDone_legal (hs : legalModes s) (data : Bytes) (sw : Nat) : legalModes (checkDone s data sw) := by
  grind [checkDone, State.modCust_legal, legalModes.card, settle_legal, recSettle_legal]

theorem cardAnswer_legal (hs : legalModes s) (data : Bytes) (sw : Nat) : legalModes (cardAnswer s data sw) := by
  grind [cardAnswer, State.modCust_legal, legalModes.card, cardReady_legal, cardGo_legal, settle_legal, swFail_legal, writeDone_legal,
    authorizeDone_legal, shareDone_legal, cmdEnd_legal, checkDone_legal]

theorem linkFail_legal (hs : legalModes s) : legalModes (linkFail s) := by
  grind [linkFail, cutWrite_legal, cardOff_legal, cmdEnd_legal, cardFailed_legal]

theorem attemptFailed_legal (hs :
    legalModes s) {again : State → State} (ha : ∀ t, legalModes t → legalModes (again t)) : legalModes (attemptFailed s again) := by
  grind [attemptFailed, linkFail_legal, sendBlock_legal, State.modCust_legal, legalModes.card]

theorem t1Block_legal (hs : legalModes s) (b : CardBlock) : legalModes (t1Block s b) := by
  unfold t1Block
  extract_lets t bad
  have ht : legalModes t := State.modCust_legal (cardCatchUp_legal hs) (cardCatchUp_legal hs).card
  have hbad : legalModes bad := attemptFailed_legal ht fun _ h => sendR_legal h 1
  have hcut : legalModes (attemptFailed t (fun s => sendR s 2)) := attemptFailed_legal ht fun _ h => sendR_legal h 2
  have hack : legalModes (attemptFailed t (fun s => sendR s 0)) := attemptFailed_legal ht fun _ h => sendR_legal h 0
  have hagain : legalModes (attemptFailed t resendLast) := attemptFailed_legal ht fun _ h => resendLast_legal h
  have hid : legalModes (attemptFailed t id) := attemptFailed_legal ht fun _ h => h
  clear_value bad t
  split
  · split
    · grind [sendBlock_legal, sendI_legal, State.modCust_legal, legalModes.card]
    · exact hid
  cases b <;> grind [sendR_legal, sendI_legal, sendBlock_legal, cutWrite_legal, cmdEnd_legal, cardGo_legal, cardAnswer_legal, State.modCust_legal, legalModes.card]

theorem statusPollStep_legal (hs : legalModes s) : legalModes (statusPollStep s) := by
  grind [statusPollStep, sendI_legal, State.modCust_legal, legalModes.card]

theorem cardActivate_legal (hs : legalModes s) : legalModes (cardActivate s) := by
  grind [cardActivate, State.modCust_legal, legalModes.card]

theorem undoWrite_legal (hs : legalModes s) : legalModes (undoWrite s) := by
  grind [undoWrite, State.modCustRec_legal, State.modCust_legal, legalModes.card]

theorem cardRemove_legal (hs : legalModes s) : legalModes (cardRemove s) := by
  grind [cardRemove, State.modCust_legal, legalModes.card, cardCut_legal, undoWrite_legal, vector_legal, endRehearsal_legal]

theorem cardReset_legal (hs : legalModes s) : legalModes (cardReset s) := by
  grind [cardReset, State.modCust_legal, legalModes.card]

theorem cardDivide_legal (hs : legalModes s) : legalModes (cardDivide s) := by
  grind [cardDivide, State.modCust_legal, legalModes.card]

theorem cardTick_legal (hs : legalModes s) : legalModes (cardTick s) := by
  grind [cardTick, cardCatchUp_legal, cardDivide_legal, cardReset_legal]

theorem activationFailed_legal (hs : legalModes s) : legalModes (activationFailed s) := by
  grind [activationFailed, cardOff_legal, State.modCust_legal, legalModes.card, cardFailed_legal]

theorem enterHold_legal (hs : legalModes s) : legalModes (enterHold s) := by
  grind [enterHold, State.modCust_legal, legalModes.card, sendBlock_legal]

theorem atrIn_legal (hs : legalModes s) (a : Atr) : legalModes (atrIn s a) := by
  grind [atrIn, activationFailed_legal, State.modCust_legal, legalModes.card, enterHold_legal]

theorem ppsIn_legal (hs : legalModes s) (echoed : Bytes) : legalModes (ppsIn s echoed) := by
  grind [ppsIn, enterHold_legal, State.modCust_legal, legalModes.card, activationFailed_legal]

theorem waitMax_legal (hs : legalModes s) : legalModes (waitMax s) := by
  grind [waitMax, cutWrite_legal, cardOff_legal, cmdEnd_legal, cardActivate_legal, State.modCust_legal, legalModes.card]

theorem useCard_legal (hs : legalModes s) (good : Bool) : legalModes (useCard s good) := by
  grind [useCard, cmdDone_legal, cardGo_legal]

theorem rootLockCmd_legal (hs : legalModes s) : legalModes (rootLockCmd s) := by
  grind [rootLockCmd, cmdDone_legal, State.modCust_legal, legalModes.card]

theorem authorizeCmd_legal (hs : legalModes s) : legalModes (authorizeCmd s) := by
  grind [authorizeCmd, useCard_legal]

theorem importShareCmd_legal (hs : legalModes s) : legalModes (importShareCmd s) := by
  grind [importShareCmd, useCard_legal]

theorem exportShareCmd_legal (hs : legalModes s) : legalModes (exportShareCmd s) := by
  grind [exportShareCmd, cmdDone_legal, cardGo_legal]

theorem sharesClearCmd_legal (hs : legalModes s) : legalModes (sharesClearCmd s) := by
  grind [sharesClearCmd, cmdDone_legal, State.modCust_legal, legalModes.card]

theorem authEndCmd_legal (hs : legalModes s) : legalModes (authEndCmd s) := by
  grind [authEndCmd, cmdDone_legal, endAuth_legal]

theorem reconDropCmd_legal (hs : legalModes s) : legalModes (reconDropCmd s) := by
  grind [reconDropCmd, cmdDone_legal, recSettle_legal]

theorem deactivateCmd_legal (hs : legalModes s) : legalModes (deactivateCmd s) := by
  grind [deactivateCmd, cmdDone_legal, cardFailed_legal, cutWrite_legal, cardOff_legal, State.modCust_legal, legalModes.card]

theorem activateCmd_legal (hs : legalModes s) : legalModes (activateCmd s) := by
  grind [activateCmd, cmdDone_legal, State.modCust_legal, legalModes.card, cardActivate_legal]

theorem cfgWrite_legal (hs : legalModes s) (n : Nat) : legalModes (cfgWrite s n) := by
  grind [cfgWrite, State.modCust_legal, legalModes.card]

theorem custWrite_legal (hs : legalModes s) (off : Nat) (v : W32) : legalModes (custWrite s off v) := by
  grind [custWrite, State.modCust_legal, legalModes.card, rootLockCmd_legal, authorizeCmd_legal, importShareCmd_legal, exportShareCmd_legal,
    sharesClearCmd_legal, authEndCmd_legal, reconDropCmd_legal, deactivateCmd_legal, activateCmd_legal, cmdDone_legal, refuse_legal, cfgWrite_legal]

theorem dwErr_legal (hs : legalModes s) (e : Nat) : legalModes (dwErr s e) := by
  grind [dwErr, State.modWindow_legal, legalModes.window]

theorem dwOpen_legal (hs : legalModes s) (alg : Nat) : legalModes (dwOpen s alg) := by
  grind [dwOpen, dwErr_legal, State.modWindow_legal, legalModes.window, dwErase]

theorem dwLow_legal (hs : legalModes s) (v : W32) : legalModes (dwLow s v) := by
  grind [dwLow, dwErr_legal, State.modWindow_legal, legalModes.window]

theorem dwHigh_legal (hs : legalModes s) (v : W32) : legalModes (dwHigh s v) := by
  grind [dwHigh, dwErr_legal, State.modWindow_legal, legalModes.window, dwCommit]

theorem dwClose_legal (hs : legalModes s) (last : Nat) : legalModes (dwClose s last) := by
  grind [dwClose, dwErr_legal, State.modWindow_legal, legalModes.window, dwCommit]

theorem dwAbsorbed_legal (hs : legalModes s) : legalModes (dwAbsorbed s) := by
  grind [dwAbsorbed, State.modWindow_legal, legalModes.window, dwErase]

theorem digWrite_legal (hs : legalModes s) (off : Nat) (v : W32) : legalModes (digWrite s off v) := by
  grind [digWrite, dwOpen_legal, dwClose_legal, State.modWindow_legal, legalModes.window, dwErr_legal, dwLow_legal, dwHigh_legal, dwErase]

theorem putOutcome_legal (hs : legalModes s) (k out : Nat) : legalModes (putOutcome s k out) := by
  grind [putOutcome, State.modStart_legal, legalModes.start, modStartRec_legal, State.modJournal_legal]

theorem endStart_legal (hs : legalModes s) (state cause : Nat) (hst : state ≤ 5) : legalModes (endStart s state cause) := by
  grind [endStart, dropImage_legal, State.modStart_legal, modStartRec_legal]

theorem halt_legal (hs : legalModes s) : legalModes (halt s) := by
  have he := (endStart_legal hs 5 0 (Nat.le_refl 5))
  exact ⟨he.start, he.window, he.card, he.time⟩

theorem startAlarm_legal (hs : legalModes s) : legalModes (startAlarm s) := by
  grind [startAlarm, putOutcome_legal, halt_legal]

theorem markWingFailed_legal (hs : legalModes s) (w : Nat) : legalModes (markWingFailed s w) := by
  grind [markWingFailed, State.modWing_legal, State.modStart_legal, legalModes.start, State.modJournal_legal, mendHome_legal, wipeBay_legal, foldl_legal]

theorem eraseAll_legal (hs : legalModes s) : legalModes (eraseAll s) := by
  have hz := zeroAllInst_legal hs
  exact ⟨hz.start, Nat.zero_le 2, hz.card, hz.time⟩

theorem failWing_legal (hs : legalModes s) (w : Nat) : legalModes (failWing s w) := by
  grind [failWing, alarmC_legal, markWingFailed_legal]

theorem alarmA_legal (hs : legalModes s) (cause d0 d1 : Nat) : legalModes (alarmA s cause d0 d1) := by
  unfold alarmA
  extract_lets t lock _ u v w x y z a
  have hu : legalModes u := almLog_legal hs cause 1 d0 d1
  have hy : legalModes y := sendBoth_legal (cardAlarm_legal (endRehearsal_legal (dropFetches_legal (reopen_legal hu)))) _
  have hz : legalModes z := mailBreak_legal (eraseAll_legal (unkeyHop_legal (unkeyHop_legal hy _) _))
  clear_value z
  grind [startAlarm_legal, failWing_legal]

theorem carry_legal (hs : legalModes s) : legalModes (carry s) := by
  grind [carry, fin_legal, advanceAll_legal]

theorem carryAll_legal (hs : legalModes s) : legalModes (carryAll s) := by
  grind [carryAll, fin_legal, engAdvanceAll_legal, advanceAll_legal]

theorem raisesA_legal (hs : legalModes s) (j : Job) (cause w : Nat) : legalModes (raisesA s j cause w) := by
  grind [raisesA, alarmA_legal, keepOutcome_legal]

theorem countFault_legal (hs : legalModes s) (w : Nat) (j : Job) : legalModes (countFault s w j) := by
  unfold countFault
  extract_lets t g log last u
  have ht : legalModes t := State.modEngine_legal hs w _
  have hu : legalModes u := alarmC_legal (legalModes.withEngines ht _) ..
  split
  · exact raisesA_legal hu ..
  · exact hu

theorem releaseAt_legal (hs : legalModes s) (w : Nat) (j : Job) (tick : Stamp) (b : Nat) : legalModes (releaseAt s w j tick b) := by
  grind [releaseAt, tick_legal, chargeBlocks_legal, State.modEngine_legal, release_legal, countFault_legal, raisesA_legal]

theorem releaseTick_legal (hs : legalModes s) (w : Nat) : legalModes (releaseTick s w) := by
  grind [releaseTick, tick_legal, releaseAt_legal]

theorem blockTick_legal (hs : legalModes s) (w : Nat) : legalModes (blockTick s w) := by
  grind [blockTick, tick_legal, State.modJob_legal, releaseAt_legal, State.modEngine_legal]

theorem wipeDone_legal (hs : legalModes s) (w : Nat) (clean : Bool) : legalModes (wipeDone s w clean) := by
  grind [wipeDone, State.modEngine_legal, alarmA_legal, keepOutcome_legal]

theorem evalAll_legal (hs : legalModes s) : legalModes (evalAll s) :=
  foldl_legal (fun _ _ h => evalRing_legal h ..) _ (hs.withTime hs.time)

theorem enterRehearsal_legal (hs : legalModes s) : legalModes (enterRehearsal s) := by
  grind [enterRehearsal, rngResult_legal, zeroAllInst_legal, failDrawers_legal, endAuth_legal, legalModes.withEntropy]

theorem rngWrite_legal (hs : legalModes s) (off : Nat) (v : W32) : legalModes (rngWrite s off v) := by
  unfold rngWrite
  dsimp only
  split
  · split
    · exact enterRehearsal_legal hs
    · exact exitRehearsal_legal hs
    · exact reviveSources_legal hs _
    · exact clearCounts_legal hs
    · exact rngResult_legal hs 2
  · split
    · exact refuse_legal hs ..
    · exact hs
  · exact hs

theorem epochBoundary_legal (hs : legalModes s) (slots : List (Nat × Nat)) : legalModes (epochBoundary s slots) := by
  unfold epochBoundary
  split
  · exact hs
  · exact admitWaiters_legal (trimAll_legal (foldl_legal (fun _ _ h => bayEpoch_legal h ..) _ ⟨hs.start, hs.window, hs.card, hs.time⟩))

theorem advertise_legal (hs : legalModes s) : legalModes (advertise s) := by
  unfold advertise
  split
  · exact hs
  · exact sendBoth_legal (hs.withTime (x := { s.time with advDue := s.time.advDue + 1000 * nsUnit }) hs.time) _

theorem countermeasures_legal (hs : legalModes s) : legalModes (countermeasures s) := by
  unfold countermeasures
  split
  · exact hs
  extract_lets _ t u
  have ht : legalModes t := hs.withTime (x := { s.time with reseedDue := s.time.reseedDue + 1000000 * nsUnit }) hs.time
  have hu : legalModes u := foldl_legal (fun s w h => by
    split
    · exact reseedWing_legal h _
    · exact h) _ ht
  clear_value u
  split
  next hd => exact State.modKeys_legal (tryDraw_legal hd hu) _
  · exact hu

theorem setRole_legal (hs : legalModes s) : legalModes (setRole s) := by
  unfold setRole
  split
  · exact hs
  split
  · extract_lets was _ _ t
    have ht : legalModes t := (hs.withTime (x := { s.time with follower := false }) hs.time).withRelay _
    clear_value t
    split
    · exact vector_legal (alarmC_legal ht ..) 6
    · exact ht
  · exact (hs.withTime (x := { s.time with follower := true }) hs.time).withRelay _

theorem timeSend_legal (hs : legalModes s) : legalModes (timeSend s) := by
  grind [timeSend, hopSend_legal, legalModes.withTime, legalModes.time]

theorem steer_legal (hs : legalModes s) (value : Stamp) : legalModes (steer s value) := by
  have hf := takeFree_legal (State.modRelay_legal hs (fun r => { r with timeSeen := true, lastTime := s.mono }))
  unfold steer
  extract_lets d near first t f
  split
  · exact applyStep_legal (State.modRelay_legal hs _) d
  · exact hf.withTime hf.time

theorem newMap_legal (hs : legalModes s) (es : List MapEntry) : legalModes (newMap s es) := by
  grind [newMap, State.modRelay_legal, dropOrigin_legal, loseAway_legal, mailBreak_legal, vector_legal, setRole_legal]

theorem sendMap_legal (hs : legalModes s) (es : List MapEntry) : legalModes (sendMap s es) := by
  grind [sendMap, noteOwn_legal, newMap_legal, sendBoth_legal, State.modRelay_legal]

theorem renewMap_legal (hs : legalModes s) : legalModes (renewMap s) := by
  grind [renewMap, noteOwn_legal, sendMap_legal]

theorem stateHops_legal (hs : legalModes s) (sd : Side) : legalModes (stateHops s sd) := by
  grind [stateHops, renewMap_legal, tellLeader_legal]

theorem keyedHop_legal (hs : legalModes s) (sd : Side) (keys : Bytes) (ph : Bool) : legalModes (keyedHop s sd keys ph) := by
  grind [keyedHop, keyHop_legal, stateHops_legal]

theorem takeReply_legal (hs : legalModes s) (x ct w : Bytes) : legalModes (takeReply s x ct w) := by
  grind [takeReply, authFails_legal, keyedHop_legal, hopSend_legal]

theorem actLeader_legal (hs : legalModes s) : legalModes (actLeader s) := by
  grind [actLeader, sendMap_legal]

theorem onBreak_legal (hs : legalModes s) (p : Nat) : legalModes (onBreak s p) := by
  grind [onBreak, State.modRelay_legal, loseByHop_legal, mailEnd_legal, sendMap_legal, markBroken_legal, setRole_legal, dropOrigin_legal, loseAway_legal,
    actLeader_legal, foldl_legal]

theorem breakHop_legal (hs : legalModes s) (sd : Side) : legalModes (breakHop s sd) := by
  grind [breakHop, unkeyHop_legal, State.modHop_legal, State.modRelay_legal, onBreak_legal, hopSend_legal]

theorem linkFall_legal (hs : legalModes s) (sd : Side) : legalModes (linkFall s sd) := by
  grind [linkFall, breakHop_legal, State.modHop_legal]

theorem arrive_legal {f : State → State} (hs :
    legalModes s) (sd : Side) (n : Nat) (hf : ∀ t, legalModes t → legalModes (f t)) : legalModes (arrive s sd n f) := by
  grind [arrive, takeFlits_legal]

theorem accept_legal (hs : legalModes s) (h : Hop) : legalModes (accept s h).1 := by
  have ha := arrive_legal hs h.side (h.flits % 256) (f := id) fun _ h => h
  grind [accept, breakHop_legal, State.modHop_legal, State.modRelay_legal]

theorem receive_legal {f : State → State} (hs :
    legalModes s) (h : Hop) (msg : RMsg) (hf : ∀ t, legalModes t → legalModes (f t)) : legalModes (receive s h msg f) := by
  have ha := accept_legal hs h
  unfold receive
  generalize accept s h = r at ha
  obtain ⟨t, b⟩ := r
  cases b
  · exact ha
  dsimp only at ha ⊢
  split
  · exact ha
  split
  · refine hf _ ?_
    split
    · exact forward_legal ha ..
    · exact ha
  · split
    · exact forward_legal ha ..
    · exact ha

theorem receiveHere_legal {f : State → State} (hs : legalModes s) (h : Hop) (hf : ∀ t, legalModes t → legalModes (f t)) : legalModes (receiveHere s h f) := by
  have ha := accept_legal hs h
  unfold receiveHere
  generalize accept s h = r at ha
  obtain ⟨t, b⟩ := r
  cases b
  · exact ha
  · exact hf t ha

theorem linkRise_legal (hs : legalModes s) (sd : Side) : legalModes (linkRise s sd) := by
  grind [linkRise, breakHop_legal, State.modHop_legal]

theorem takeConfirm_legal (hs : legalModes s) (e : Bytes) : legalModes (takeConfirm s e) := by
  grind [takeConfirm, authFails_legal, keyedHop_legal]

theorem probeIn_legal (hs : legalModes s) (h : Hop) (isAnswer formed : Bool) (leader : Nat) : legalModes (probeIn s h isAnswer formed leader) :=
  receive_legal hs h _ fun _ ht => probeHere_legal ht ..

theorem electIn_legal (hs : legalModes s) (h : Hop) (identity : Candidate) : legalModes (electIn s h identity) :=
  receiveHere_legal hs h fun _ ht => electHere_legal ht ..

theorem numberHere_legal (hs : legalModes s) (h : Hop) (next : Nat) : legalModes (numberHere s h next) := by
  grind [numberHere, sendMap_legal, State.modRelay_legal, forward_legal]

theorem numberIn_legal (hs : legalModes s) (h : Hop) (next : Nat) : legalModes (numberIn s h next) :=
  receiveHere_legal hs h fun _ ht => numberHere_legal ht ..

theorem reportHere_legal (hs : legalModes s) (src : Nat) (es : List MapEntry) : legalModes (reportHere s src es) := by
  grind [reportHere, renewMap_legal, State.modRelay_legal]

theorem mapHere_legal (hs : legalModes s) (h : Hop) (es : List MapEntry) : legalModes (mapHere s h es) := by
  grind [mapHere, reportHere_legal, newMap_legal, tellLeader_legal, askKey_legal, probeAgain_legal]

theorem mapIn_legal (hs : legalModes s) (h : Hop) (es : List MapEntry) : legalModes (mapIn s h es) :=
  receive_legal hs h _ fun _ ht => mapHere_legal ht ..

theorem insertMember_legal (hs : legalModes s) (es : List MapEntry) (p m : Nat) : legalModes (insertMember s es p m) := by
  grind [insertMember, State.modRelay_legal, sendMap_legal]

theorem answerJoin_legal (hs : legalModes s) (h : Hop) (own : Nat) : legalModes (answerJoin s h own) := by
  grind [answerJoin, hopSend_legal, pairSeal_legal, sendMap_legal, insertMember_legal]

theorem joinIn_legal (hs : legalModes s) (h : Hop) (isAnswer refused : Bool) (given : Nat) (sealedRk : Bytes) (rkOk : Bool) :
    legalModes (joinIn s h isAnswer refused given sealedRk rkOk) := by
  have ha := accept_legal hs h
  unfold joinIn
  generalize accept s h = r at ha
  obtain ⟨t, b⟩ := r
  cases b
  · exact ha
  · grind [forward_legal, answerJoin_legal, hopSend_legal, State.modRelay_legal]

theorem jobIn_legal (hs : legalModes s) (h : Hop) (j : RelayedJob) : legalModes (jobIn s h j) := receive_legal hs h _ fun _ ht => jobHere_legal ht ..

theorem doneIn_legal (hs : legalModes s) (h : Hop) (d : RelayedDone) : legalModes (doneIn s h d) := receive_legal hs h _ fun _ ht => doneHere_legal ht ..

theorem timeHere_legal (hs : legalModes s) (h : Hop) (value : Stamp) (insideNs : Nat) : legalModes (timeHere s h value insideNs) := by
  grind [timeHere, forward_legal, steer_legal]

theorem timeIn_legal (hs : legalModes s) (h : Hop) (value : Stamp) (insideNs : Nat) : legalModes (timeIn s h value insideNs) :=
  receiveHere_legal hs h fun _ ht => timeHere_legal ht ..

theorem mailIn_legal (hs : legalModes s) (h : Hop) (total offset : Nat) (part : Bytes) (final : Bool) : legalModes (mailIn s h total offset part final) :=
  receive_legal hs h _ fun _ ht => mailHere_legal ht ..

theorem hopBegin_legal (hs : legalModes s) (sd : Side) : legalModes (hopBegin s sd) := by
  grind [hopBegin, State.modHop_legal, stateHops_legal, sendProbe_legal]

theorem relayBegin_legal (hs : legalModes s) : legalModes (relayBegin s) := by
  grind [relayBegin, State.modRelay_legal, tryWants_legal, sendHello_legal, hopBegin_legal]

theorem raiseTrip_legal (hs : legalModes s) (x : Sensor) (d0 d1 : W32) : legalModes (raiseTrip s x d0 d1) := by
  grind [raiseTrip, alarmA_legal, alarmC_legal]

theorem sensorTrip_legal (hs : legalModes s) (x : Sensor) (d0 d1 : W32) : legalModes (sensorTrip s x d0 d1) := by
  grind [sensorTrip, sensorRead_legal, State.modAlarms_legal, raiseTrip_legal]

theorem armSensors_legal (hs : legalModes s) : legalModes (armSensors s) := by
  grind [armSensors, raiseTrip_legal, State.modAlarms_legal, foldl_legal]

theorem wingFailure_legal (hs : legalModes s) (w : Nat) : legalModes (wingFailure s w) := by
  grind [wingFailure, stopWhere_legal, returnQueued_legal, zeroInst_legal, markWingFailed_legal, alarmC_legal, foldl_legal]

theorem failHalt_legal (hs : legalModes s) (k : Nat) : legalModes (failHalt s k) := by
  grind [failHalt, halt_legal, putOutcome_legal]

theorem safeStage_legal (hs : legalModes s) (k cause : Nat) : legalModes (safeStage s k cause) := by
  grind [safeStage, enterService_legal, endStart_legal, State.modStart_legal, legalModes.start]

theorem enterReady_legal (hs : legalModes s) : legalModes (enterReady s) := by
  grind [enterReady, enterService_legal, fillHome_legal, endStart_legal]

theorem beginStep_legal (hs : legalModes s) (k : Nat) : legalModes (beginStep s k) := by
  grind [beginStep, putOutcome_legal, State.modStart_legal, legalModes.start]

theorem dropCustRec_legal (hs : legalModes s) (i : Nat) : legalModes (dropCustRec s i) := by
  grind [dropCustRec, alarmC_legal, State.modCust_legal, legalModes.card]

theorem custJournalCheck_legal (hs : legalModes s) : legalModes (custJournalCheck s) := by
  grind [custJournalCheck, dropCustRec_legal, State.modCust_legal, legalModes.card, alarmC_legal, foldl_legal]

theorem startBegin_legal (hs : legalModes s) : legalModes (startBegin s) := by
  grind [startBegin, countCut_legal, journalCheck_legal, custJournalCheck_legal, State.modStart_legal, legalModes.start, State.modJournal_legal,
    beginStep_legal]

theorem beginLadder_legal (hs : legalModes s) : legalModes (beginLadder s) := by
  grind [beginLadder, beginStep_legal, State.modStart_legal, legalModes.start]

theorem rootkeyAck_legal (hs : legalModes s) (data : BitVec 256) (err : Bool) : legalModes (rootkeyAck s data err) := by
  grind [rootkeyAck, State.modStart_legal, legalModes.start]

theorem deriveBk_legal (hs : legalModes s) (root : Nat) : legalModes (deriveBk s root) := by
  grind [deriveBk, State.modKeys_legal, State.modStart_legal, legalModes.start]

theorem beginEntropy_legal (hs : legalModes s) : legalModes (beginEntropy s) := by
  grind [beginEntropy, beginStep_legal, instRequest_legal, legalModes.withEntropy]

theorem beginFetch_legal (hs : legalModes s) (k : Nat) : legalModes (beginFetch s k) := by
  grind [beginFetch, beginStep_legal, State.modStart_legal, legalModes.start, addBoot_legal]

theorem imageData_legal (hs : legalModes s) (part : Nat) (b : Bytes) : legalModes (imageData s part b) := by
  grind [imageData, State.modStart_legal, legalModes.start, addBoot_legal, foldl_legal]

theorem beginCard_legal (hs : legalModes s) : legalModes (beginCard s) := by
  grind [beginCard, putOutcome_legal, State.modStart_legal, legalModes.start]

theorem beginSmf_legal (hs : legalModes s) : legalModes (beginSmf s) := by
  grind [beginSmf, safeStage_legal, putOutcome_legal, beginFetch_legal]

theorem afterTranslation_legal (hs : legalModes s) : legalModes (afterTranslation s) := by
  grind [afterTranslation, beginCard_legal, beginSmf_legal, State.modStart_legal, legalModes.start]

theorem beginSqm_legal (hs : legalModes s) : legalModes (beginSqm s) := by
  grind [beginSqm, safeStage_legal, putOutcome_legal, beginFetch_legal, dropImage_legal, beginStep_legal, State.modStart_legal, legalModes.start]

theorem beginWings_legal (hs : legalModes s) : legalModes (beginWings s) := by
  grind [beginWings, safeStage_legal, putOutcome_legal, beginStep_legal]

theorem beginRelay_legal (hs : legalModes s) : legalModes (beginRelay s) := by
  grind [beginRelay, enterReady_legal, putOutcome_legal, State.modStart_legal, legalModes.start, relayBegin_legal, beginStep_legal]

theorem beginFront_legal (hs : legalModes s) : legalModes (beginFront s) := by
  grind [beginFront, beginRelay_legal, putOutcome_legal, State.modStart_legal, legalModes.start, beginStep_legal, State.modFront_legal]

theorem seeCard_legal (hs : legalModes s) : legalModes (seeCard s) := by
  grind [seeCard, State.modCust_legal, legalModes.card]

theorem doneManager_legal (hs : legalModes s) : legalModes (doneManager s) := by
  grind [doneManager, armSensors_legal, beginLadder_legal, putOutcome_legal, seeCard_legal, timeStart_legal]

theorem doneLadder_legal (hs : legalModes s) (good : Bool) : legalModes (doneLadder s good) := by
  grind [doneLadder, failHalt_legal, beginEntropy_legal, putOutcome_legal, deriveBk_legal]

theorem doneEntropy_legal (hs : legalModes s) : legalModes (doneEntropy s) := by
  grind [doneEntropy, failHalt_legal, beginStep_legal, putOutcome_legal, epochStep_legal]

theorem doneSmf_legal (hs : legalModes s) : legalModes (doneSmf s) := by
  grind [doneSmf, safeStage_legal, putOutcome_legal, State.modStart_legal, legalModes.start, beginSqm_legal]

theorem afterSqm_legal (hs : legalModes s) (out : Nat) : legalModes (afterSqm s out) := by
  grind [afterSqm, beginStep_legal, putOutcome_legal, dropImage_legal]

theorem doneSqm_legal (hs : legalModes s) : legalModes (doneSqm s) := by
  grind [doneSqm, afterSqm_legal, State.modStart_legal, legalModes.start, safeStage_legal, putOutcome_legal]

theorem donePairing_legal (hs : legalModes s) : legalModes (donePairing s) := by
  grind [donePairing, beginWings_legal, putOutcome_legal, safeStage_legal]

theorem doneWings_legal (hs : legalModes s) (passed : Nat) : legalModes (doneWings s passed) := by
  grind [doneWings, State.modJournal_legal, State.modStart_legal, legalModes.start, State.modWing_legal, reseedWing_legal, safeStage_legal,
    putOutcome_legal, beginFront_legal, requestAll_legal, foldl_legal]

theorem doneFront_legal (hs : legalModes s) (good : Bool) : legalModes (doneFront s good) := by
  grind [doneFront, beginRelay_legal, putOutcome_legal, frontEnd_legal]

theorem doneRelay_legal (hs : legalModes s) : legalModes (doneRelay s) := by
  grind [doneRelay, enterReady_legal, putOutcome_legal]

theorem smgEnd_legal (hs : legalModes s) (result : Nat) : legalModes (smgEnd s result) := by
  grind [smgEnd, vector_legal, State.modStart_legal, legalModes.start]

theorem runEnd_legal (hs : legalModes s) (k out : Nat) : legalModes (runEnd s k out) := by
  grind [runEnd, smgEnd_legal, putOutcome_legal]

theorem endCard_legal (hs : legalModes s) (main run : Bool) (out outRun : Nat) : legalModes (endCard s main run out outRun) := by
  grind [endCard, putOutcome_legal, State.modStart_legal, legalModes.start, runEnd_legal]

theorem mainDone_legal (hs : legalModes s) (k : Nat) (good : Bool) (info : Nat) : legalModes (mainDone s k good info) := by
  unfold mainDone
  split <;> grind [beginStep_legal, putOutcome_legal, failHalt_legal, doneManager_legal, doneLadder_legal, doneEntropy_legal, afterTranslation_legal,
    doneSmf_legal, doneSqm_legal, donePairing_legal, doneWings_legal, doneFront_legal, doneRelay_legal]

theorem runDone_legal (hs : legalModes s) (k : Nat) (good : Bool) : legalModes (runDone s k good) := by
  grind [runDone, runEnd_legal, frontEnd_legal]

theorem stepDone_legal (hs : legalModes s) (k : Nat) (good : Bool) (info : Nat) : legalModes (stepDone s k good info) := by
  grind [stepDone, endCard_legal, mainDone_legal, runDone_legal]

theorem mainBound_legal (hs : legalModes s) (k : Nat) : legalModes (mainBound s k) := by
  unfold mainBound
  split <;> grind [failHalt_legal, alarmB_legal, doneEntropy_legal, safeStage_legal, putOutcome_legal, donePairing_legal, doneWings_legal, doneFront_legal,
    enterReady_legal]

theorem stepAtBound_legal (hs : legalModes s) (k : Nat) : legalModes (stepAtBound s k) := by
  grind [stepAtBound, endCard_legal, mainBound_legal, runEnd_legal, frontEnd_legal]

theorem bootCtrl_legal (hs : legalModes s) (v : W32) : legalModes (bootCtrl s v) := by
  grind [bootCtrl, State.modStart_legal, legalModes.start, beginSmf_legal]

theorem acceptVersion_legal (hs : legalModes s) (sqm : Bool) (v : W32) : legalModes (acceptVersion s sqm v) := by
  grind [acceptVersion, endAuth_legal, State.modCust_legal, legalModes.card, State.modStart_legal, legalModes.start, accept_legal]

theorem imgWrite_legal (hs : legalModes s) (off n : Nat) : legalModes (imgWrite s off n) := by
  grind [imgWrite, State.modStart_legal, legalModes.start]

theorem runBegin_legal (hs : legalModes s) (k : Nat) : legalModes (runBegin s k) := by
  grind [runBegin, putOutcome_legal, State.modStart_legal, legalModes.start, State.modFront_legal, relayBegin_legal, runEnd_legal]

theorem smgCmd_legal (hs : legalModes s) (code arg : Nat) : legalModes (smgCmd s code arg) := by
  unfold smgCmd
  dsimp only
  split
  · exact hs
  split <;> grind [smgEnd_legal, clearFails_legal, runBegin_legal, endAuth_legal, State.modStart_legal, legalModes.start]

theorem smgWrite_legal (hs : legalModes s) (off : Nat) (v : W32) : legalModes (smgWrite s off v) := by
  unfold smgWrite
  dsimp only
  split <;> grind [State.modJournal_legal, bootCtrl_legal, acceptVersion_legal, smgCmd_legal, imgWrite_legal]

theorem deliver_legal (hs : legalModes s) (a : Access) (b : Bytes) : legalModes (deliver s a b) := by
  grind [deliver, noteLatency_legal, State.dropAccess_legal, jobData_legal, squash_legal, packetIn_legal, imageData_legal, peerData_legal, migGo_legal,
    State.modRegs_legal, mailData_legal]

theorem walkBeat_legal (hs : legalModes s) (a : Access) (level table : Nat) (beat : Bytes) : legalModes (walkBeat s a level table beat) := by
  grind [walkBeat, orphan_legal, State.dropAccess_legal, walkAnswer_legal, onFault_legal]

theorem rspErr_legal (hs : legalModes s) (a : Access) (more : Option Bytes) : legalModes (rspErr s a more) := by
  grind [rspErr, onFault_legal, alarmC_legal]

theorem blockReset_legal (s : State) : legalModes (blockReset s) := ⟨Nat.zero_le 5, Nat.zero_le 2, Nat.zero_le 6, by simp [blockReset, timeReset]⟩

theorem vaonReset_legal (hs : legalModes s) : legalModes (vaonReset s) := ⟨Nat.zero_le 5, hs.window, hs.card, by simp [vaonReset, timeReset]⟩

theorem released_legal (hs : legalModes s) : legalModes (released s) := by
  grind [released, startBegin_legal]

theorem vaonLost_legal (s : State) : legalModes (vaonLost s) := ⟨Nat.zero_le 5, Nat.zero_le 2, Nat.zero_le 6, Nat.zero_lt_succ 3⟩

theorem vaonBack_legal (hs : legalModes s) : legalModes (vaonBack s) := by
  have hb := State.modStart_legal (f := fun t => { t with vaonBad := false, cold := !t.porst && !t.blkrst }) hs hs.start
  unfold vaonBack
  extract_lets t
  split
  · exact hb
  · exact hb.withTime hb.time

theorem writeReg_legal (hs : legalModes s) (src off : Nat) (v : W32) : legalModes (writeReg s src off v) := by
  grind [writeReg, smgWrite_legal, seatWrite_legal, plcWrite_legal, rngWrite_legal, ctxWrite_legal, keyWrite_legal, engWrite_legal, frontWrite_legal,
    timeWrite_legal, relayWrite_legal, custWrite_legal, almWrite_legal, digWrite_legal, pageAccess_legal]
end Sys2Proof.Machine
end

section
/-! PROOF. Legal modes and the queue: every command (O59, O3). -/
namespace Sys2Proof.Machine
variable {s t : State}

-- Accesses and choices

theorem whenDo_legal {f : State → State} (c : Bool) (hs : legalModes s) (hf : ∀ t, legalModes t → legalModes (f t)) : legalModes (whenDo c s f) := by
  cases c
  · exact hs
  · exact hf s hs

theorem hreg_legal {f : State → State} (hs : legalModes s) (src off : Nat) (w : Bool) (hf : ∀ t, legalModes t → legalModes (f t)) :
    legalModes (hreg s src off w f) := by
  unfold hreg
  split
  · exact hs
  split
  · exact hs
  split
  · exact (accessAlarm_keeps ..).legal rfl hs
  split
  · exact hs
  · exact hf s hs

theorem mgrWrite_legal {f : State → State} (hs : legalModes s) (off : Nat) (hf : ∀ t, legalModes t → legalModes (f t)) : legalModes (mgrWrite s off f) :=
  hreg_legal hs mgr off true hf

theorem readBack_legal (hs : legalModes s) (n : Nat) : legalModes (readBack s n) := (readBack_keeps ..).legal rfl hs

theorem hregRead_legal {f : State → State} (hs : legalModes s) (off idle : Nat) (hf : ∀ t, legalModes t → legalModes (f t)) :
    legalModes (hregRead s off idle f) := by
  grind [hregRead, readBack_legal]

theorem custCmd_legal {f : State → State} (hs :
    legalModes s) (cmd arg : Nat) (hf : ∀ t, legalModes t → legalModes (f t)) : legalModes (custCmd s cmd arg f) :=
  mgrWrite_legal hs _ fun u hu => by
    split
    · exact hu
    · exact hf _ (State.modCust_legal hu hu.card)

/-- What follows a state with legal modes has legal modes. -/
theorem follows_legal {u : State} (h : follows u t) (hu : legalModes u) : legalModes t := by
  rcases h with h | h | h | h <;> rw [h]
  · exact hu
  · exact fin_legal hu
  · exact carry_legal hu
  · exact carryAll_legal hu

-- Commands

theorem memReadData_legal {port tag : Nat} {beat : Bytes} {last : Bool} (h : execMemReadData port tag beat last s = .next t) (hs :
    legalModes s) : legalModes t := by
  grind [execMemReadData, carryAll_legal, walkBeat_legal, deliver_legal, State.modAccess_legal]

theorem memRspErr_legal {port : Nat} {tag : ErrBeat} (h : execMemRspErr port tag s = .next t) (hs : legalModes s) : legalModes t := by
  have hw : ∀ u seat, legalModes u → legalModes (writesClosed u seat) := fun u seat hu => (writesClosed_keeps u seat).legal rfl hu
  grind [execMemRspErr, carryAll_legal, rspErr_legal]

theorem seatExec_legal {cmd seat : Nat} {sq : Bool} (h : seatExec cmd seat sq s = .next t) (hs : legalModes s) : legalModes t := by
  rw [← Host.Outcome.next.inj h]
  exact carryAll_legal (mgrWrite_legal hs _ fun u hu => (seatCmd_keeps ..).legal rfl hu)

theorem cardActivateIfWaiting_legal (hs : legalModes s) :
    legalModes (if s.up && s.cust.st == 1 && s.cust.present && s.time.refUsed != 0 then cardActivate s else s) := by
  split
  · exact cardActivate_legal hs
  · exact hs

theorem cardInsert_legal (hs : legalModes s) : legalModes { s.modCust (fun c => { c with det := true, detAt := s.mono, st := if s.up then 1 else c.st }) with
    start := { s.start with cardSeen := true } } := by
  refine ⟨hs.start, hs.window, ?_, hs.time⟩
  change (if s.up then 1 else s.cust.st) ≤ 6
  split
  · decide
  · exact hs.card

theorem next_legal {u : State} (h : ok u = .next t) (hu : legalModes u) : legalModes t := by
  rw [ok_eq] at h
  rwa [← h]

/-- A command whose own effect reaches a part that holds a mode leaves legal modes. -/
theorem exec_legal_of_ownMoves {c : Instr} (h : exec c s = .next t) (hm : within (ownMoves c) unmoded ≠ true) (hs : legalModes s) : legalModes t := by
  cases c with
  | porstNAssert => exact next_legal h (whenDo_legal _ hs fun u hu => vaonReset_legal (blockReset_legal _))
  | porstNRelease => exact next_legal h (carryAll_legal (whenDo_legal _ hs fun u hu => released_legal (State.modStart_legal hu hu.start)))
  | blkrstNAssert => exact next_legal h (whenDo_legal _ hs fun u hu => blockReset_legal _)
  | blkrstNRelease => exact next_legal h (carryAll_legal (whenDo_legal _ hs fun u hu => released_legal (State.modStart_legal hu hu.start)))
  | vaonLoss => exact next_legal h (whenDo_legal _ hs fun u hu => vaonLost_legal u)
  | sensorTrip x d0 d1 => exact next_legal h (carryAll_legal (sensorTrip_legal hs x d0 d1))
  | lockstep => exact next_legal h (carryAll_legal (whenDo_legal _ hs fun u hu => alarmA_legal hu ..))
  | wingFailure w => exact next_legal h (carryAll_legal (whenDo_legal _ hs fun u hu => wingFailure_legal hu _))
  | refclkLost => exact next_legal h (refLose_legal hs)
  | refclkReturn khz => exact next_legal h (fin_legal (cardActivateIfWaiting_legal (refBack_legal hs khz)))
  | regWrite src off v => exact next_legal h (carryAll_legal (hreg_legal hs _ _ true fun u hu => writeReg_legal hu ..))
  | memReadData port tag beat last => exact memReadData_legal h hs
  | memRspErr port tag => exact memRspErr_legal h hs
  | rootkeyAck data err => exact next_legal h (whenDo_legal _ hs fun u hu => rootkeyAck_legal hu ..)
  | rootkeyTimeout => exact next_legal h (fin_legal (whenDo_legal _ hs fun u hu => failHalt_legal hu 3))
  | startStepDone step good info => exact next_legal h (carryAll_legal (whenDo_legal _ hs fun u hu => stepDone_legal hu ..))
  | startStepBound step => exact next_legal h (carryAll_legal (whenDo_legal _ hs fun u hu => stepAtBound_legal hu step))
  | imagesValidWrite v => exact next_legal h (carryAll_legal (mgrWrite_legal hs _ fun u hu => bootCtrl_legal hu v))
  | acceptVersionWrite sqm v => exact next_legal h (mgrWrite_legal hs _ fun u hu => acceptVersion_legal hu sqm v)
  | clearFail step => exact next_legal h (mgrWrite_legal hs _ fun u hu => smgCmd_legal hu ..)
  | runStep step => exact next_legal h (carryAll_legal (mgrWrite_legal hs _ fun u hu => smgCmd_legal hu ..))
  | acceptUntested => exact next_legal h (mgrWrite_legal hs _ fun u hu => smgCmd_legal hu ..)
  | configure | start | curtain | restart | reset | disable | freeze | thaw | migOffer | save | restore | migCancel => exact seatExec_legal h hs
  | promptEvaluation => exact next_legal h (fin_legal (whenDo_legal _ hs fun u hu => evalAll_legal hu))
  | epochBoundary slots => exact next_legal h (carryAll_legal (epochBoundary_legal hs slots))
  | advertisement => exact next_legal h (fin_legal (advertise_legal hs))
  | countermeasureReseed => exact next_legal h (fin_legal (countermeasures_legal hs))
  | dwStart alg => exact next_legal h (mgrWrite_legal hs _ fun u hu => dwOpen_legal hu _)
  | dwDataWrite v => exact next_legal h (mgrWrite_legal hs _ fun u hu => dwHigh_legal hu v)
  | dwFinish n => exact next_legal h (mgrWrite_legal hs _ fun u hu => dwClose_legal hu _)
  | dwAbort => exact next_legal h (mgrWrite_legal hs _ fun u hu => State.modWindow_legal hu (Nat.zero_le 2))
  | dwAbsorbDone => exact next_legal h (whenDo_legal _ hs fun u hu => dwAbsorbed_legal hu)
  | releaseTick w => exact next_legal h (carryAll_legal (releaseTick_legal hs _))
  | wipeDone w clean => exact next_legal h (carryAll_legal (wipeDone_legal hs _ clean))
  | mldsaBlockTick w => exact next_legal h (carryAll_legal (blockTick_legal hs _))
  | wordDelivery =>
    refine next_legal h (carryAll_legal ?_)
    split
    · exact cardGo_legal ((tryWants_keeps ..).legal rfl ((wordDelivery_keeps ..).legal rfl hs))
    · exact hs
  | enterRehearsal => exact next_legal h (carryAll_legal (mgrWrite_legal hs _ fun u hu => enterRehearsal_legal hu))
  | timePortValue => exact next_legal h (portValue_legal hs)
  | ppsRise => exact next_legal h (ppsUp_legal hs)
  | ppsFall => exact next_legal h (ppsDown_legal hs)
  | captureEdge n => exact next_legal h (capEdge_legal hs n)
  | captureSnapshot n =>
    refine next_legal h (hregRead_legal hs _ _ fun u hu => ?_)
    split
    · exact readBack_legal (State.setCapture_legal hu ..) _
    · exact hu
  | nowSnapshot => exact next_legal h (hregRead_legal hs _ _ fun u hu => readBack_legal (hu.withTime (x := { u.time with snap := u.stamp }) hu.time) _)
  | secureSnapshot => exact next_legal h (hregRead_legal hs _ _ fun u hu => readBack_legal (hu.withTime (x := { u.time with secSnap :=
  u.time.secure }) hu.time) _)
  | rateWrite v => exact next_legal h (mgrWrite_legal hs _ fun u hu => rateHi_legal hu v)
  | timeStep frac => exact next_legal h (mgrWrite_legal hs _ fun u hu => stepCmd_legal hu frac)
  | slew frac => exact next_legal h (mgrWrite_legal hs _ fun u hu => slewCmd_legal hu frac)
  | cancelSlew => exact next_legal h (mgrWrite_legal hs _ fun u hu => cancelCmd_legal hu)
  | slewDone => exact next_legal h (slewEnd_legal hs)
  | secAdvance v => exact next_legal h (mgrWrite_legal hs _ fun u hu => secAdv_legal hu v)
  | linkUp sd => exact next_legal h (fin_legal (linkRise_legal hs sd))
  | hopBreak x =>
    refine next_legal h (carryAll_legal (whenDo_legal _ hs fun u hu => ?_))
    split
    · exact linkFall_legal hu _
    · exact breakHop_legal hu _
  | hopSilence sd => exact next_legal h (carryAll_legal (whenDo_legal _ hs fun u hu => breakHop_legal hu sd))
  | reply x ct w => exact next_legal h (carryAll_legal (arrive_legal hs _ _ fun u hu => takeReply_legal hu x ct w))
  | confirm e => exact next_legal h (carryAll_legal (arrive_legal hs _ _ fun u hu => takeConfirm_legal hu e))
  | echo sd e ns => exact next_legal h (carryAll_legal (receiveHere_legal hs _ fun u hu => (echoHere_keeps ..).legal rfl hu))
  | probe hop ans formed leader => exact next_legal h (carryAll_legal (probeIn_legal hs ..))
  | elect hop x => exact next_legal h (carryAll_legal (electIn_legal hs ..))
  | number hop n => exact next_legal h (carryAll_legal (numberIn_legal hs ..))
  | map hop es => exact next_legal h (carryAll_legal (mapIn_legal hs ..))
  | join hop ans refused given rk good => exact next_legal h (carryAll_legal (joinIn_legal hs ..))
  | adv hop starts floor accepts => exact next_legal h (fin_legal (receive_legal hs _ _ fun u hu => ⟨hu.start, hu.window, hu.card, hu.time⟩))
  | relayJob hop job => exact next_legal h (carryAll_legal (jobIn_legal hs ..))
  | relayDone hop d => exact next_legal h (carryAll_legal (doneIn_legal hs ..))
  | relayCancel hop tags => exact next_legal h (carryAll_legal (receive_legal hs _ _ fun u hu => dropOrigin_legal hu _))
  | relayAlarm hop m => exact next_legal h (carryAll_legal (receive_legal hs _ _ fun u hu => (memberAlarm_keeps ..).legal rfl hu))
  | relayBreak hop p => exact next_legal h (carryAll_legal (receive_legal hs _ _ fun u hu => onBreak_legal hu p))
  | timeSend => exact next_legal h (fin_legal (timeSend_legal hs))
  | time hop v ns => exact next_legal h (carryAll_legal (timeIn_legal hs ..))
  | mail hop total offset part final => exact next_legal h (fin_legal (mailIn_legal hs ..))
  | cardInsert => exact next_legal h (fin_legal (whenDo_legal _ hs fun u hu => cardInsert_legal hu))
  | cardDebounce =>
    refine next_legal h (fin_legal (whenDo_legal _ hs fun u hu => ?_))
    have hp := State.modCust_legal (f := fun c => { c with present := true }) hu hu.card
    dsimp only
    split
    · exact hp
    · exact cardActivate_legal hp
  | cardRemoval => exact next_legal h (fin_legal (whenDo_legal _ hs fun u hu => cardRemove_legal hu))
  | activationSupplyTimer => exact next_legal h (fin_legal (whenDo_legal _ hs fun u hu => State.modCust_legal hu hu.card))
  | answerToReset a => exact next_legal h (fin_legal (whenDo_legal _ hs fun u hu => atrIn_legal hu a))
  | ppsEcho b => exact next_legal h (fin_legal (whenDo_legal _ hs fun u hu => ppsIn_legal hu b))
  | reactivationWait => exact next_legal h (fin_legal (whenDo_legal _ hs fun u hu => cardActivate_legal hu))
  | conditionQuery => exact next_legal h (fin_legal (whenDo_legal _ hs fun u hu => startApdu_legal (State.modCust_legal hu hu.card) ..))
  | readyMaxExpiry => exact next_legal h (fin_legal (whenDo_legal _ hs fun u hu => cardFailed_legal (cardOff_legal hu)))
  | t1BlockRx b => exact next_legal h (fin_legal (whenDo_legal _ hs fun u hu => t1Block_legal hu b))
  | cardWaitExpiry =>
    exact next_legal h (fin_legal (whenDo_legal _ hs fun u hu =>
      attemptFailed_legal (State.modCust_legal (cardCatchUp_legal hu) (cardCatchUp_legal hu).card) fun v hv => sendR_legal hv 2))
  | statusPoll => exact next_legal h (fin_legal (whenDo_legal _ hs fun u hu => statusPollStep_legal hu))
  | waitMaxExpiry => exact next_legal h (fin_legal (whenDo_legal _ hs fun u hu => waitMax_legal hu))
  | clockStop => exact next_legal h (fin_legal (whenDo_legal _ hs fun u hu => State.modCust_legal hu hu.card))
  | authExpiry a => exact next_legal h (fin_legal (whenDo_legal _ hs fun u hu => endAuth_legal hu a))
  | shareHoldExpiry => exact next_legal h (fin_legal (whenDo_legal _ hs fun u hu => State.modCust_legal hu hu.card))
  | rootLock a => exact next_legal h (fin_legal (custCmd_legal hs _ _ fun u hu => rootLockCmd_legal hu))
  | authorize a => exact next_legal h (fin_legal (custCmd_legal hs _ _ fun u hu => authorizeCmd_legal hu))
  | importShare a => exact next_legal h (fin_legal (custCmd_legal hs _ _ fun u hu => importShareCmd_legal hu))
  | exportShare a => exact next_legal h (fin_legal (custCmd_legal hs _ _ fun u hu => exportShareCmd_legal hu))
  | sharesClear a => exact next_legal h (fin_legal (custCmd_legal hs _ _ fun u hu => sharesClearCmd_legal hu))
  | authEnd a => exact next_legal h (fin_legal (custCmd_legal hs _ _ fun u hu => authEndCmd_legal hu))
  | reconDrop a => exact next_legal h (fin_legal (custCmd_legal hs _ _ fun u hu => reconDropCmd_legal hu))
  | deactivate a => exact next_legal h (fin_legal (custCmd_legal hs _ _ fun u hu => deactivateCmd_legal hu))
  | activate a => exact next_legal h (fin_legal (custCmd_legal hs _ _ fun u hu => activateCmd_legal hu))
  | vaonReturn => exact next_legal h (carryAll_legal (whenDo_legal _ hs fun u hu => vaonBack_legal hu))
  | answerToResetTimeout => exact next_legal h (fin_legal (whenDo_legal _ hs fun u hu => activationFailed_legal hu))
  | ppsTimeout => exact next_legal h (fin_legal (whenDo_legal _ hs fun u hu => activationFailed_legal hu))
  | _ => exact absurd rfl hm

/-- Every command keeps legal modes: most reach no part that holds one. -/
theorem exec_legal {c : Instr} (h : exec c s = .next t) (hs : legalModes s) : legalModes t := by
  by_cases hm : within (ownMoves c) unmoded = true
  · obtain ⟨u, hf, k⟩ := (exec_own c s).next_own t h
    exact follows_legal hf (k.legal hm hs)
  · exact exec_legal_of_ownMoves h hm hs

/-- Settles O59: with no command waiting the clock and the card port move on; a command keeps legal modes by `exec_legal`. -/
theorem everyStepKeepsLegalModes : Obligations.EveryStepKeepsLegalModes := by
  intro s t hs h
  unfold step at h
  split at h
  · rw [← Host.Outcome.next.inj h]
    exact fin_legal ((idleTick_keeps _).legal rfl (cardTick_legal (tick_legal ((ageDue_keeps s).legal rfl hs))))
  · exact exec_legal h hs

/-- Settles O3: every part of a step is framed, and no frame names the queue or the parameters. -/
theorem everyStepTakesOneCommand : Obligations.EveryStepTakesOneCommand := by
  intro s t h
  unfold step at h
  split at h
  next hq =>
    rw [← Host.Outcome.next.inj h, hq]
    have hf := fin_keeps (idleTick (cardTick (tick (ageDue s))))
    have hi := idleTick_keeps (cardTick (tick (ageDue s)))
    have hc := cardTick_keeps (tick (ageDue s))
    have ht := tick_keeps (ageDue s)
    have ha := ageDue_keeps s
    exact ⟨by rw [hf.pending rfl, hi.pending rfl, hc.pending rfl, ht.pending rfl, ha.pending rfl, hq]; rfl,
      by rw [hf.params rfl, hi.params rfl, hc.params rfl, ht.params rfl, ha.params rfl]⟩
  next c rest hq =>
    rw [hq]
    exact exec_keeps_queue c _ t h

end Sys2Proof.Machine
end

section
/-! PROOF. Stage time and secure time (chapter 15): the commands of the time base. -/

namespace Sys2Proof.Machine

/-- Settles O1: the queue of `c :: q` is not empty. -/
theorem stepRunsTheFront : Obligations.StepRunsTheFront := fun _ _ _ => rfl

-- Rate, step, slew and cancel (R460, R461, R462, R466, R474)

theorem rateHi_inRange (s : State) (v : W32) (hfol : s.time.follower = false)
    (hlo : -(2 ^ 38) ≤ toInt 40 (v.toNat % 256 * 2 ^ 32 + s.time.rateLo)) (hhi : toInt 40 (v.toNat % 256 * 2 ^ 32 + s.time.rateLo) ≤ 2 ^ 38) :
    rateHi s v = { s with time := { s.time with rateHi := v.toNat % 256, rate := toInt 40 (v.toNat % 256 * 2 ^ 32 + s.time.rateLo) } } := by
  simp only [rateHi, hfol, Int.not_lt.mpr hlo, Int.not_lt.mpr hhi, decide_false, Bool.or_false, Bool.false_eq_true, if_false]

theorem rateHi_refused (s : State) (v : W32)
    (h : s.time.follower = true ∨ toInt 40 (v.toNat % 256 * 2 ^ 32 + s.time.rateLo) < -(2 ^ 38) ∨ 2 ^ 38 < toInt 40 (v.toNat % 256 * 2 ^ 32 + s.time.rateLo)) :
    rateHi s v = alarmC s 0x46 0x80014 v.toNat := by
  have hc : (s.time.follower || decide (toInt 40 (v.toNat % 256 * 2 ^ 32 + s.time.rateLo) < -(2 ^ 38))
      || decide (2 ^ 38 < toInt 40 (v.toNat % 256 * 2 ^ 32 + s.time.rateLo))) = true := by
    simpa only [Bool.or_eq_true, decide_eq_true_eq, or_assoc] using h
  simp only [rateHi, hc, if_true, refuse]

theorem toNat_adjWord (c : Nat) (frac : BitVec 16) (hc : c ≤ 3) : (adjWord c frac).toNat = c * 2 ^ 30 + frac.toNat := by
  have hf := frac.isLt
  rw [adjWord, w32, BitVec.toNat_ofNat, Nat.mod_eq_of_lt (by omega)]

theorem stepCmd_inRange (s : State) (frac : BitVec 16) (hfol : s.time.follower = false) (hlo : 0 ≤ (s.stamp : Int) + (adjNs s.time * 2 ^ 16 + frac.toNat))
    (hhi : (s.stamp : Int) + (adjNs s.time * 2 ^ 16 + frac.toNat) ≤ (2 ^ 64 - 1) * 2 ^ 16) :
    stepCmd s frac = applyStep s (adjNs s.time * 2 ^ 16 + frac.toNat) := by
  have hu : ((nsUnit : Nat) : Int) = 2 ^ 16 := rfl
  simp only [stepCmd, hu, hfol, Int.not_lt.mpr hlo, Int.not_lt.mpr hhi, decide_false, Bool.or_false, Bool.false_eq_true, if_false]

theorem stepCmd_refused (s : State) (frac : BitVec 16) (h : s.time.follower = true ∨ (s.stamp : Int) + (adjNs s.time * 2 ^ 16 + frac.toNat) < 0
      ∨ (2 ^ 64 - 1) * 2 ^ 16 < (s.stamp : Int) + (adjNs s.time * 2 ^ 16 + frac.toNat)) :
    stepCmd s frac = alarmC s 0x46 0x80020 (2 ^ 30 + frac.toNat) := by
  have hu : ((nsUnit : Nat) : Int) = 2 ^ 16 := rfl
  have hc : (s.time.follower || decide ((s.stamp : Int) + (adjNs s.time * 2 ^ 16 + frac.toNat) < 0)
      || decide ((2 ^ 64 - 1) * 2 ^ 16 < (s.stamp : Int) + (adjNs s.time * 2 ^ 16 + frac.toNat))) = true := by
    simpa only [Bool.or_eq_true, decide_eq_true_eq, or_assoc] using h
  simp only [stepCmd, hu, hc, if_true, refuse, toNat_adjWord 1 frac (by decide), Nat.one_mul]

theorem slewCmd_inRange (s : State) (hfol : s.time.follower = false) (hlo : -(2 ^ 31 - 1) ≤ adjNs s.time) (hhi : adjNs s.time ≤ 2 ^ 31 - 1) :
    slewCmd s 0 = if adjNs s.time = 0 then vector { s with time := { s.time with slewing := false, slewLeft := 0 } } 6
      else { s with time := { s.time with slewing := true, slewLeft := adjNs s.time * 2 ^ 64, slewPos := decide (0 < adjNs s.time) } } := by
  have hz : (0 : BitVec 16).toNat = 0 := rfl
  simp only [slewCmd, hfol, hz, Int.not_lt.mpr hlo, Int.not_lt.mpr hhi, decide_false, ne_eq, not_true_eq_false, Bool.or_false, Bool.false_eq_true, if_false]

theorem slewCmd_refused (s : State) (frac : BitVec 16)
    (h : s.time.follower = true ∨ frac ≠ 0 ∨ adjNs s.time < -(2 ^ 31 - 1) ∨ 2 ^ 31 - 1 < adjNs s.time) :
    slewCmd s frac = alarmC s 0x46 0x80020 (2 * 2 ^ 30 + frac.toNat) := by
  have hz : frac ≠ 0 ↔ frac.toNat ≠ 0 := not_congr (BitVec.toNat_inj (y := (0 : BitVec 16))).symm
  have hc : (s.time.follower || decide (frac.toNat ≠ 0) || decide (adjNs s.time < -(2 ^ 31 - 1)) || decide (2 ^ 31 - 1 < adjNs s.time)) = true := by
    rw [hz] at h
    simpa only [Bool.or_eq_true, decide_eq_true_eq, or_assoc] using h
  simp only [slewCmd, hc, if_true, refuse, toNat_adjWord 2 frac (by decide)]

theorem cancelCmd_free (s : State) (hfol : s.time.follower = false) : cancelCmd s = { s with time := { s.time with slewing := false, slewLeft := 0 } } := by
  simp only [cancelCmd, hfol, Bool.false_eq_true, if_false]

theorem cancelCmd_refused (s : State) (hfol : s.time.follower = true) : cancelCmd s = alarmC s 0x46 0x80020 (3 * 2 ^ 30) := by
  have hw : (adjWord 3 0).toNat = 3 * 2 ^ 30 := toNat_adjWord 3 0 (by decide)
  simp only [cancelCmd, hfol, if_true, refuse, hw]

/-- A served register command of the manager ends with its effect. -/
theorem exec_mgrWrite (s t : State) (off : Nat) (f : State → State) (hs : s.served off = true) (hf : f s = t) : ok (mgrWrite s off f) = .next t := by
  rw [mgrWrite_served s off f hs, hf, ok]

theorem exec_slewDone (s : State) (hup : s.up = true) (hsl : s.time.slewing = true) (hleft : s.time.slewLeft = 0) :
    exec .slewDone s = .next (vector { s with time := { s.time with slewing := false } } 6) := by
  calc exec .slewDone s = ok (slewEnd s) := rfl
    _ = _ := by simp only [slewEnd, hup, hsl, hleft, beq_self_eq_true, Bool.and_self, if_true, ok]

/-- Settles O4: each command by the lemma on what it does in range, and on what it does when it is refused. -/
theorem rateStepSlewAndCancelSteerStageTime : Obligations.RateStepSlewAndCancelSteerStageTime := by
  refine ⟨fun s hfol => ⟨fun v hs hlo hhi => exec_mgrWrite s _ _ _ hs (rateHi_inRange s v hfol hlo hhi), fun frac d hs hd hlo hhi => ?_,
    fun d hs hd hne hlo hhi => ?_, fun hs h0 => ?_, fun hs => exec_mgrWrite s _ _ _ hs (cancelCmd_free s hfol), exec_slewDone s⟩,
    fun s frac => ⟨fun v hs h => exec_mgrWrite s _ _ _ hs (rateHi_refused s v h), fun hs h => exec_mgrWrite s _ _ _ hs (stepCmd_refused s frac h),
    fun hs h => exec_mgrWrite s _ _ _ hs (slewCmd_refused s frac h), fun hs hfol => exec_mgrWrite s _ _ _ hs (cancelCmd_refused s hfol)⟩⟩
  · subst hd
    exact exec_mgrWrite s _ _ _ hs (stepCmd_inRange s frac hfol hlo hhi)
  · subst hd
    exact exec_mgrWrite s _ _ _ hs ((slewCmd_inRange s hfol hlo hhi).trans (if_neg hne))
  · exact exec_mgrWrite s _ _ _ hs ((slewCmd_inRange s hfol (by omega) (by omega)).trans (if_pos h0))

-- The time port, the capture inputs and the snapshots (R79, R82, R466, R468, R469)

/-- Settles O5: the port's next value is due and its clock runs. -/
theorem timePortCountsItsValues : Obligations.TimePortCountsItsValues := by
  intro s hup hruns hdue hclk
  have hd : s.due s.time.portDue = true := decide_eq_true hdue
  calc exec .timePortValue s = ok (portValue s) := rfl
    _ = _ := by
      simp only [portValue, hup, hruns, hd, hclk, Bool.not_false, Bool.and_self, if_true, ok] <;> rfl

/-- An enabled edge is either stamped or, within 100 ns of the last one stamped, counted in FAST (R468). -/
theorem capEdge_enabled (s : State) (n : Nat) (hup : s.up = true) (hruns : s.time.runs = true) (hn : n < 8) (hcfg : s.time.captCfg.testBit n = true) :
    capEdge s n = if (match (s.capture n).lastAt with
        | some l => decide (s.mono < l + 100 * nsUnit)
        | none => false) = true then s.setCapture n { s.capture n with fast := satInc 8 (s.capture n).fast }
      else if s.time.captCfg.testBit (8 + n) then
        vector (s.setCapture n { s.capture n with stamp := s.stamp, valid := true, lost := (s.capture n).lost || (s.capture n).valid, lastAt := some s.mono }) 6
      else s.setCapture n { s.capture n with stamp := s.stamp, valid := true, lost := (s.capture n).lost || (s.capture n).valid, lastAt := some s.mono } := by
  simp only [capEdge, hup, hruns, hn, hcfg, decide_true, Bool.and_self, if_true]
  rfl

/-- Settles O7: both cases of `capEdge_enabled`. -/
theorem captureStampsItsEdges : Obligations.CaptureStampsItsEdges := by
  intro s n hup hruns hn hcfg
  have hk := capEdge_enabled s n hup hruns hn hcfg
  refine ⟨fun hlate => ⟨_, rfl, ?_⟩, fun l hl hearly => ?_⟩
  · have hno : ¬ (match (s.capture n).lastAt with
        | some l => decide (s.mono < l + 100 * nsUnit)
        | none => false) = true := by
      cases hl : (s.capture n).lastAt with
      | none => exact Bool.false_ne_true
      | some l =>
        have hle : l + 100 * nsUnit ≤ s.mono := hlate l hl
        simpa only [decide_eq_true_eq, Nat.not_lt] using hle
    exact congrArg Host.Outcome.next (hk.trans (if_neg hno))
  · have hd : decide (s.mono < l + 100 * nsUnit) = true := decide_eq_true hearly
    exact congrArg Host.Outcome.next (hk.trans (if_pos (by rw [hl]; exact hd)))

/-- A read of the manager that is served takes its effect. -/
theorem hregRead_served (s : State) (off idle : Nat) (f : State → State) (hs : s.served off = true) : hregRead s off idle f = f s := by
  simp only [State.served, State.hostOpen, Bool.and_eq_true, Bool.not_eq_true'] at hs
  obtain ⟨⟨⟨hup, hclk⟩, hhalt⟩, hidle⟩ := hs
  simp only [hregRead, hup, hclk, hhalt, hidle, Bool.not_true, Bool.or_false, Bool.false_eq_true, if_false]

theorem exec_hregRead (s t : State) (off idle : Nat) (f : State → State) (hs : s.served off = true) (hf : f s = t) : ok (hregRead s off idle f) = .next t := by
  rw [hregRead_served s off idle f hs, hf, ok]

/-- Settles O8: a read that is served takes its snapshot. -/
theorem snapshotReadsAnswerTheValueTheyTake : Obligations.SnapshotReadsAnswerTheValueTheyTake :=
  fun s => ⟨fun _ hn hs => exec_hregRead s _ _ _ _ hs (if_pos hn), fun hs => exec_hregRead s _ _ _ _ hs rfl, fun hs => exec_hregRead s _ _ _ _ hs rfl⟩

-- REFCLK (R84, R465)

theorem refLose_running (s : State) (hup : s.up = true) (hruns : s.time.runs = true) (hon : s.time.refAbsent = false) :
    refLose s = vector (alarmC { s with time := { s.time with refAbsent := true, holdover := true, refLost := true } } 0x42 0 0) 6 := by
  have hc : (({ s with time := { s.time with refAbsent := true } } : State).up && s.time.runs && !s.time.refAbsent) = true := by
    rw [hruns, hon]
    exact (Bool.and_true _).trans ((Bool.and_true _).trans hup)
  exact if_pos hc

theorem refBack_near (s : State) (khz : Nat) (hup : s.up = true) (hruns : s.time.runs = true) (hhold : s.time.holdover = true) (hused : s.time.refUsed ≠ 0)
    (hlo : s.time.refUsed * 99 ≤ khz * 100) (hhi : khz * 100 ≤ s.time.refUsed * 101) :
    refBack s khz = vector { s with time := { s.time with refAbsent := false, refIs := khz, holdover := false } } 6 := by
  have hc : (({ s with time := { s.time with refAbsent := false, refIs := khz } } : State).up && s.time.runs && s.time.holdover) = true := by
    rw [hruns, hhold]
    exact (Bool.and_true _).trans ((Bool.and_true _).trans hup)
  exact (if_pos hc).trans ((if_neg hused).trans (if_pos ⟨hlo, hhi⟩))

/-- Settles O10: the loss by `refLose_running`, the return by `refBack_near`; a card that is not in DEBOUNCE waits for no frequency. -/
theorem refclkIsHeldOverAndComesBack : Obligations.RefclkIsHeldOverAndComesBack := by
  intro s hup hruns
  refine ⟨fun hon => congrArg Host.Outcome.next (refLose_running s hup hruns hon), fun khz hhold hused hlo hhi hst => ?_⟩
  have hb := refBack_near s khz hup hruns hhold hused hlo hhi
  have hcust : (refBack s khz).cust = s.cust := (refBack_keeps s khz).cust rfl
  have hno : ¬ ((refBack s khz).up && (refBack s khz).cust.st == 1 && (refBack s khz).cust.present && (refBack s khz).time.refUsed != 0) = true := by
    rw [hcust]
    simp [hst]
  calc exec (.refclkReturn khz) s
      = ok (fin (if (refBack s khz).up && (refBack s khz).cust.st == 1 && (refBack s khz).cust.present && (refBack s khz).time.refUsed != 0
          then cardActivate (refBack s khz) else refBack s khz)) := rfl
    _ = _ := by rw [if_neg hno, hb, ok]

end Sys2Proof.Machine
end

section
/-! PROOF. Register accesses: what a write reaches, what it does not, and what the register reads after it (O12 to O14). -/

namespace Sys2Proof.Machine

-- Accesses that are not permitted (R62, R63)

/-- A tenant is permitted nothing outside its own page but reads of the identity registers. -/
theorem permitted_tenant (src off : Nat) (hsrc : src < 1024) (hout : off < 0x400000 ∨ 0x800000 ≤ off ∨ off / 0x1000 % 0x400 ≠ src ∨ src = 0) :
    permitted src off true = false := by
  have hbit : src.testBit 10 = false := Nat.testBit_lt_two_pow hsrc
  have hmod : src % 1024 = src := Nat.mod_eq_of_lt hsrc
  simp only [permitted, hbit, hmod, Bool.not_true, Bool.and_false, Bool.or_false, Bool.false_or]
  rcases hout with h | h | h | h
  · simp [Nat.not_le.mpr h]
  · simp [Nat.not_lt.mpr h]
  · simp [h]
  · subst h
    simp only [Bool.and_eq_false_iff, decide_eq_false_iff_not, beq_eq_false_iff_ne]
    omega

theorem accessAlarm_write (s : State) (src off : Nat) (hsrc : src < 1024) : accessAlarm s src off true = alarmC s 0x40 off (2048 + src) := by
  have hmod : src % 2048 = src := Nat.mod_eq_of_lt (by omega)
  rw [accessAlarm, hmod]
  rfl

/-- A write of a whole word at an aligned offset is the access at that offset. -/
theorem exec_regWrite_aligned (s : State) (src off : Nat) (v : W32) (hsrc : src < 2048) (hoff : off < 2 ^ 24) (h4 : off % 4 = 0) :
    exec (.regWrite src off v) s = .next (carryAll (hreg s src off true (writeReg · src off v))) := by
  have ho : off % 2 ^ 24 / 4 * 4 = off := by omega
  have hs : src % 2048 = src := Nat.mod_eq_of_lt hsrc
  calc exec (.regWrite src off v) s
      = ok (carryAll (hreg s (src % 2048) (off % 2 ^ 24 / 4 * 4) true (writeReg · (src % 2048) (off % 2 ^ 24 / 4 * 4) v))) := rfl
    _ = _ := by rw [ho, hs, ok]

/-- The registers of a ring's settings, as a permitted access of any source reaches them (R62, R65, R116). -/
theorem ringAccess_permitted (s : State) (src seat slot reg : Nat) (f : State → State) (hopen : s.hostOpen = true) (hst : s.start.state ≠ 5) (hseat : seat < 1024)
    (hslot : slot < 16) (hreg : reg < 128) (hsrc : src.testBit 10 = true ∨ (src % 1024 = seat ∧ 0 < seat)) : ringAccess s src seat slot reg f = f s := by
  have hpage : ringOff seat slot reg / 0x1000 % 0x400 = seat := by simp only [ringOff]; omega
  have hlo : 0x400000 ≤ ringOff seat slot reg := by simp only [ringOff]; omega
  have hhi : ringOff seat slot reg < 0x800000 := by simp only [ringOff]; omega
  have hperm : permitted src (ringOff seat slot reg) true = true := by
    rcases hsrc with h | ⟨h, hpos⟩
    · simp [permitted, h]
    · simp [permitted, hpage, hlo, hhi, hpos, h]
  have hrange : (ringOff seat slot reg / 0x10000 == 3 || ringOff seat slot reg / 0x10000 == 6 || ringOff seat slot reg / 0x10000 == 7
      || ringOff seat slot reg / 0x10000 == 9) = false := by
    simp only [Bool.or_eq_false_iff, beq_eq_false_iff_ne]
    omega
  have hhalt : (s.start.state == 5) = false := beq_eq_false_iff_ne.mpr hst
  unfold ringAccess Machine.hreg
  simp only [hopen, hhalt, hperm, hrange, Bool.not_true, Bool.false_and, Bool.and_false, Bool.false_eq_true, if_false]

/-- A tenant's write to a ring setting of its own page raises the ACCESS alarm (R169, R551). -/
theorem ringSetting_tenant (s : State) (seat slot reg : Nat) (v : W32) (hseat : seat < 1024) :
    ringSetting s seat seat slot reg v = alarmC s 0x40 (ringOff seat slot reg) (2048 + seat) := by
  have hbit : seat.testBit 10 = false := Nat.testBit_lt_two_pow hseat
  simp only [ringSetting, hbit, Bool.not_false, if_true]
  exact accessAlarm_write s seat _ hseat

/-- Settles O12: outside its page a tenant's write is denied, and inside it the ring settings are the physical function's. -/
theorem otherTenantAccessesOnlyRaiseAnAlarm : Obligations.OtherTenantAccessesOnlyRaiseAnAlarm := by
  refine ⟨fun s src off v hopen hst hsrc hout hoff h4 => ?_, fun s seat slot reg v hopen hst hpos hseat hslot hreg => ?_⟩
  · rw [exec_regWrite_aligned s src off v (by omega) hoff h4, hreg_denied s src off true _ (permitted_tenant src off hsrc hout) hopen hst,
      accessAlarm_write s src off hsrc]
  · have h1 : seat % 1024 = seat := Nat.mod_eq_of_lt hseat
    have h2 : slot % 16 = slot := Nat.mod_eq_of_lt hslot
    have hlt : reg < 128 := by omega
    have h3 : reg % 128 = reg := Nat.mod_eq_of_lt hlt
    calc exec (.ringSettingWrite seat seat slot reg v) s
        = ok (fin (ringAccess s seat (seat % 1024) (slot % 16) (reg % 128) (fun s => ringSetting s seat (seat % 1024) (slot % 16) (reg % 128) v))) := rfl
      _ = _ := by
        rw [h1, h2, h3, ringAccess_permitted s seat seat slot reg _ hopen hst hseat hslot hlt (.inr ⟨h1, hpos⟩), ringSetting_tenant s seat slot reg v hseat, ok]

-- Accesses of a block that is down or HALTED (R59, R65, R116)

/-- In HALTED an access outside the identity registers and the mailbox does nothing. -/
theorem hreg_halted (s : State) (src off : Nat) (w : Bool) (f : State → State) (hst : s.start.state = 5) (hoff : 0x11000 ≤ off) : hreg s src off w f = s := by
  have hlo : ¬ off < 8 := by omega
  have hhi : ¬ off < 0x11000 := by omega
  simp [hreg, hst, hlo, hhi]

/-- Settles O13. -/
theorem nothingIsWrittenWhileDownOrHalted : Obligations.NothingIsWrittenWhileDownOrHalted := by
  refine fun s src off v => ⟨fun hdown => ?_, fun hst hlo hhi => ?_⟩
  · exact congrArg (fun t => Host.Outcome.next (carryAll t)) (hreg_down s _ _ _ _ hdown)
  · exact congrArg (fun t => Host.Outcome.next (carryAll t)) (hreg_halted s _ _ _ _ hst (by omega))

-- Registers that read as they were written (R541)

/-- In READY every access of the physical function is served. -/
theorem served_ready (s : State) (off : Nat) (hopen : s.hostOpen = true) (hst : s.start.state = 3) : s.served off = true := by
  simp [State.served, hopen, hst]

/-- A write of the physical function in READY takes effect. -/
theorem exec_regWrite_ready (s : State) (off : Nat) (v : W32) (hopen : s.hostOpen = true) (hst : s.start.state = 3) (hoff : off < 2 ^ 24) (h4 : off % 4 = 0) :
    exec (.regWrite mgr off v) s = .next (carryAll (writeReg s mgr off v)) := by
  rw [exec_regWrite_aligned s mgr off v (by decide) hoff h4, hreg_served s off true _ (served_ready s off hopen hst)]

/-- A register that reads `v` under the mask of its field after the write of `v`, which leaves jobs, memory and keys alone. -/
def readsBack (s : State) (v : W32) (p : Nat × Nat) : Prop :=
  readReg (writeReg s mgr p.1 v) p.1 = v.toNat % 2 ^ p.2 ∧ (writeReg s mgr p.1 v).jobs = s.jobs ∧ (writeReg s mgr p.1 v).mem = s.mem
    ∧ (writeReg s mgr p.1 v).keys = s.keys

/-- PLC_CTRL is written by way of the latch of the epoch that is due. -/
theorem readsBack_plcCtrl (s : State) (v : W32) : readsBack s v (0x30000, 3) :=
  ⟨rfl, (plcWrite_keeps s 0x30000 v).jobs rfl, (plcWrite_keeps s 0x30000 v).mem rfl, (plcWrite_keeps s 0x30000 v).keys rfl⟩

theorem readsBack_plcHop (s : State) (v : W32) : readsBack s v (0x30010, 32) :=
  ⟨(Nat.mod_eq_of_lt v.isLt).symm, (plcWrite_keeps s 0x30010 v).jobs rfl, (plcWrite_keeps s 0x30010 v).mem rfl, (plcWrite_keeps s 0x30010 v).keys rfl⟩

/-- What the card port does of itself before a read leaves CUST_SPLIT alone. -/
theorem cardCatchUp_split (s : State) : (cardCatchUp s).cust.split = s.cust.split := by
  unfold cardCatchUp
  split
  · split <;> rfl
  · rfl

theorem readsBack_custSplit (s : State) (v : W32) : readsBack s v (0xA000C, 32) :=
  ⟨(cardCatchUp_split (writeReg s mgr 0xA000C v)).trans (Nat.mod_eq_of_lt v.isLt).symm, rfl, rfl, rfl⟩

/-- The registers that take every value of their field. -/
theorem readsBack_all (s : State) (v : W32) : ∀ p ∈ [(0x20008, 10), (0x30000, 3), (0x30010, 32), (0x70028, 32), (0x7002C, 32), (0x70034, 16), (0x80010, 32),
    (0x80018, 32), (0x8001C, 32), (0x80034, 16), (0x9000C, 8), (0x90028, 25), (0x9003C, 25), (0xA000C, 32), (0xB0030, 32)], readsBack s v p := by
  have hv : v.toNat = v.toNat % 2 ^ 32 := (Nat.mod_eq_of_lt v.isLt).symm
  simp only [List.forall_mem_cons, List.not_mem_nil, false_implies, implies_true, and_true]
  exact ⟨⟨rfl, rfl, rfl, rfl⟩, readsBack_plcCtrl s v, readsBack_plcHop s v, ⟨hv, rfl, rfl, rfl⟩, ⟨hv, rfl, rfl, rfl⟩, ⟨rfl, rfl, rfl, rfl⟩,
    ⟨hv, rfl, rfl, rfl⟩, ⟨hv, rfl, rfl, rfl⟩, ⟨hv, rfl, rfl, rfl⟩, ⟨rfl, rfl, rfl, rfl⟩, ⟨rfl, rfl, rfl, rfl⟩, ⟨rfl, rfl, rfl, rfl⟩,
    ⟨rfl, rfl, rfl, rfl⟩, readsBack_custSplit s v, ⟨hv, rfl, rfl, rfl⟩⟩

/-- They are whole words of the register window. -/
theorem readsBack_aligned : ∀ p ∈ [(0x20008, 10), (0x30000, 3), (0x30010, 32), (0x70028, 32), (0x7002C, 32), (0x70034, 16), (0x80010, 32),
    (0x80018, 32), (0x8001C, 32), (0x80034, 16), (0x9000C, 8), (0x90028, 25), (0x9003C, 25), (0xA000C, 32), (0xB0030, 32)],
    p.1 < 2 ^ 24 ∧ p.1 % 4 = 0 := by decide

theorem bits_eq_div (n hi lo : Nat) : bits n hi lo = n / 2 ^ lo % 2 ^ (hi + 1 - lo) := by rw [bits, Nat.shiftRight_eq_div_pow]

/-- PLC_RELAY takes a value whose field is not zero, and changes placement alone. -/
theorem plcWrite_relay (s : State) (v : W32) (h : v.toNat / 2 ^ 12 % 2 ^ 10 ≠ 0) :
    plcWrite s 0x30014 v = { latchEpoch s with place := { (latchEpoch s).place with set := { (latchEpoch s).place.set with relay := v.toNat % 2 ^ 22 } } } :=
  if_pos (show (bits v.toNat 21 12 != 0) = true from bne_iff_ne.mpr (by rwa [bits_eq_div]))

theorem latchEpoch_place (s : State) : { latchEpoch s with place := s.place } = s := by
  unfold latchEpoch
  split <;> rfl

/-- Settles O14: each register by what its range does with the write. -/
theorem registerWritesAreReadBack : Obligations.RegisterWritesAreReadBack := by
  intro s v hopen hst
  have hw := fun off hoff h4 => exec_regWrite_ready s off v hopen hst hoff h4
  refine ⟨?_, fun t ht => ?_, fun h => ?_, fun h => ⟨_, hw 0x30014 (by decide) (by decide), ?_, ?_⟩, fun p hp => ?_⟩
  · rw [hw 0xC0010 (by decide) (by decide)]
    rfl
  · subst ht
    exact ⟨hw 0xB0030 (by decide) (by decide), rfl⟩
  · rw [hw 0x30014 (by decide) (by decide)]
    have hno : plcWrite s 0x30014 v = alarmC s 0x46 0x30014 v.toNat := if_neg (show ¬(bits v.toNat 21 12 != 0) = true from fun hb => bne_iff_ne.mp hb ((bits_eq_div ..).trans h))
    exact congrArg (fun t => Host.Outcome.next (carryAll t)) hno
  · have hr : writeReg s mgr 0x30014 v = plcWrite s 0x30014 v := rfl
    rw [hr, plcWrite_relay s v h]
    rfl
  · have hr : writeReg s mgr 0x30014 v = plcWrite s 0x30014 v := rfl
    rw [hr, plcWrite_relay s v h]
    exact latchEpoch_place s
  · obtain ⟨hread, hjobs, hmem, hkeys⟩ := readsBack_all s v p hp
    obtain ⟨hoff, h4⟩ := readsBack_aligned p hp
    exact ⟨_, hw p.1 hoff h4, hread, hjobs, hmem, hkeys⟩

end Sys2Proof.Machine
end

section
/-! PROOF. The direct digest window (R312 to R314). -/

namespace Sys2Proof.Machine

/-- A command of the window that is served changes the window by `f`. -/
theorem exec_window (s t : State) (off : Nat) (f : State → State) (hs : s.served off = true) (hf : f s = t) : ok (mgrWrite s off f) = .next t :=
  exec_mgrWrite s t off f hs hf

-- START

theorem dwOpen_named (s : State) (alg : Nat) (hb : s.window.busy = false) (h1 : 1 ≤ alg) (h8 : alg ≤ 8) :
    dwOpen s alg = s.modWindow (fun w => { dwErase w with st := 1, alg := alg, count := 0, hash := hashInit alg }) := by
  simp only [dwOpen, hb, Bool.false_eq_true, if_false, h1, h8, and_self, if_true]

theorem dwOpen_dropped (s : State) (alg : Nat) (h : s.window.busy = true ∨ alg = 0 ∨ 8 < alg) : dwOpen s alg = dwErr s errCmd := by
  cases hb : s.window.busy with
  | true => simp only [dwOpen, hb, if_true]
  | false =>
    have hn : ¬ (1 ≤ alg ∧ alg ≤ 8) := by
      simp only [hb, Bool.false_eq_true, false_or] at h
      omega
    simp only [dwOpen, hb, Bool.false_eq_true, if_false, hn]

-- Data

theorem dwHigh_first (s : State) (v : W32) (hst : s.window.st = 1) (hb : s.window.busy = false) (hh : s.window.heldWord = none) :
    dwHigh s v = s.modWindow (fun w => { w with heldWord := some (leBytes 4 s.window.lowHalf ++ leBytes 4 v.toNat) }) := by
  simp only [dwHigh, hst, hb, hh, ne_eq, not_true_eq_false, Bool.false_eq_true, if_false]

theorem dwHigh_next (s : State) (v : W32) (old : Bytes) (hst : s.window.st = 1) (hb : s.window.busy = false) (hh : s.window.heldWord = some old)
    (hfit : s.window.count + 8 ≤ hashLimit s.window.alg) :
    dwHigh s v = s.modWindow (fun w => { dwCommit w old with heldWord := some (leBytes 4 s.window.lowHalf ++ leBytes 4 v.toNat) }) := by
  simp only [dwHigh, hst, hb, hh, Nat.not_lt.mpr hfit, ne_eq, not_true_eq_false, Bool.false_eq_true, if_false]

theorem dwHigh_busy (s : State) (v : W32) (hst : s.window.st = 1) (hb : s.window.busy = true) :
    dwHigh s v = (dwErr s errLost).modWindow (fun w => { w with st := 2 }) := by
  simp only [dwHigh, hst, hb, ne_eq, not_true_eq_false, if_false, if_true]

theorem dwHigh_closed (s : State) (v : W32) (hst : s.window.st ≠ 1) : dwHigh s v = s := by
  simp only [dwHigh, hst, ne_eq, not_false_eq_true, if_true]

theorem dwLow_free (s : State) (v : W32) (hb : s.window.busy = false) : dwLow s v = s.modWindow (fun w => { w with lowHalf := v.toNat }) := by
  simp only [dwLow, hb, Bool.false_eq_true, and_false, if_false]

-- FINISH

theorem dwClose_empty (s : State) (hst : s.window.st = 1) (hb : s.window.busy = false) (hh : s.window.heldWord = none)
    (hfit : s.window.count ≤ hashLimit s.window.alg) :
    dwClose s 0 = s.modWindow (fun w => { dwCommit w [] with busy := true, finishing := true, heldWord := none }) := by
  simp only [dwClose, hst, hb, hh, Nat.not_lt.mpr hfit, Nat.add_zero, ne_eq, not_true_eq_false, Bool.false_eq_true, if_false, beq_self_eq_true, Bool.not_true]
  simp only [State.modWindow, hh, Option.getD_none, List.take_nil]

theorem dwClose_held (s : State) (n : Nat) (old : Bytes) (hst : s.window.st = 1) (hb : s.window.busy = false) (hh : s.window.heldWord = some old)
    (h1 : 1 ≤ n) (h8 : n ≤ 8) (hfit : s.window.count + n ≤ hashLimit s.window.alg) :
    dwClose s n = s.modWindow (fun w => { dwCommit w (old.take n) with busy := true, finishing := true, heldWord := none }) := by
  simp only [dwClose, hst, hb, hh, h1, h8, Nat.not_lt.mpr hfit, ne_eq, not_true_eq_false, Bool.false_eq_true, if_false, decide_true, Bool.and_self, Bool.not_true]
  simp only [State.modWindow, hh, Option.getD_some]

theorem dwClose_dropped (s : State) (n : Nat) (h : s.window.busy = true ∨ s.window.st ≠ 1) : dwClose s n = dwErr s errCmd := by
  cases hb : s.window.busy with
  | true => simp only [dwClose, hb, if_true]
  | false =>
    have hst : s.window.st ≠ 1 := by simpa only [hb, Bool.false_eq_true, false_or] using h
    simp only [dwClose, hb, hst, Bool.false_eq_true, if_false, ne_eq, not_false_eq_true, if_true]

-- Absorption

theorem dwAbsorbed_block (s : State) (hb : s.window.busy = true) (hf : s.window.finishing = false) :
    dwAbsorbed s = { s with window := { s.window with busy := false, hash := hashAbsorb s.window.alg s.window.hash s.window.part, part := [] } } := by
  simp only [dwAbsorbed, State.modWindow, hb, hf, Bool.not_true, Bool.false_eq_true, if_false]

theorem dwAbsorbed_last (s : State) (hb : s.window.busy = true) (hf : s.window.finishing = true) :
    dwAbsorbed s = { s with window := { dwErase s.window with
      done := true
      out := hashOut s.window.alg (hashAbsorb s.window.alg s.window.hash (hashPad s.window.alg s.window.count s.window.part)) (hashLen s.window.alg) } } := by
  simp only [dwAbsorbed, State.modWindow, hb, hf, Bool.not_true, Bool.false_eq_true, if_false, if_true]

theorem exec_dwAbsorbDone (s : State) (hup : s.up = true) : exec .dwAbsorbDone s = .next (dwAbsorbed s) := by
  calc exec .dwAbsorbDone s = ok (whenDo s.up s dwAbsorbed) := rfl
    _ = _ := by rw [hup, whenDo_true, ok]

/-- Settles O11: each command of the window by the lemma on its case. -/
theorem digestWindowCommandsChangeTheWindowAlone : Obligations.DigestWindowCommandsChangeTheWindowAlone := by
  refine ⟨fun s w hw => ?_, fun s w hw => ?_⟩ <;> subst hw
  · refine ⟨fun alg hs hb h1 h8 => ?_, fun v hs hst hb hh => exec_window s _ _ _ hs (dwHigh_first s v hst hb hh),
      fun v old hs hst hb hh hfit => exec_window s _ _ _ hs (dwHigh_next s v old hst hb hh hfit), fun v hs hb => ?_, fun hs hst hb hh hfit => ?_,
      fun n old hs hst hb hh h1 h8 hfit => ?_, fun hs => exec_window s _ _ _ hs rfl, fun hup hb hf => ?_, fun hup hb hf => ?_⟩
    · have hm : alg % 16 = alg := Nat.mod_eq_of_lt (by omega)
      refine exec_window s _ _ _ hs ?_
      rw [hm, dwOpen_named s alg hb h1 h8]
      simp only [State.modWindow, dwErase, hb]
    · calc exec (.regWrite mgr 0xC0010 v) s = ok (carryAll (hreg s mgr 0xC0010 true (writeReg · mgr 0xC0010 v))) := rfl
        _ = ok (carryAll (dwLow s v)) := by rw [hreg_served s _ _ _ hs]; rfl
        _ = _ := by rw [dwLow_free s v hb, ok]; rfl
    · refine exec_window s _ _ _ hs ((dwClose_empty s hst hb hh hfit).trans ?_)
      simp only [State.modWindow, dwCommit, List.append_nil, List.length_nil, Nat.add_zero]
    · have hm : n % 16 = n := Nat.mod_eq_of_lt (by omega)
      refine exec_window s _ _ _ hs ?_
      rw [hm, dwClose_held s n old hst hb hh h1 h8 hfit]
      rfl
    · rw [exec_dwAbsorbDone s hup, dwAbsorbed_block s hb hf]
    · rw [exec_dwAbsorbDone s hup, dwAbsorbed_last s hb hf]
      simp only [dwErase]
  · refine ⟨fun alg ha hs h => ?_, fun n hn hs h => ?_, fun v hs hst hb => exec_window s _ _ _ hs (dwHigh_busy s v hst hb),
      fun v hs hst => exec_window s _ _ _ hs (dwHigh_closed s v hst)⟩
    · refine exec_window s _ _ _ hs ?_
      rw [Nat.mod_eq_of_lt ha, dwOpen_dropped s alg h]
      rfl
    · refine exec_window s _ _ _ hs ?_
      rw [Nat.mod_eq_of_lt hn, dwClose_dropped s n h]
      rfl

end Sys2Proof.Machine
end

section
/-! PROOF. Command rings: indexes, settings, fetching, prompts, control opcodes and deadlines (O15 to O19). -/

namespace Sys2Proof.Machine

-- Accesses to a ring's registers (R62, R169)

/-- A command that is a permitted access of a ring slot has the effect of its access. -/
theorem ok_ringAccess (s : State) (src seat slot reg : Nat) (f : Nat → Nat → State → State) (hopen : s.hostOpen = true) (hst : s.start.state ≠ 5)
    (hseat : seat < 1024) (hslot : slot < 16) (hreg : reg < 128) (hsrc : src.testBit 10 = true ∨ (src % 1024 = seat ∧ 0 < seat)) :
    ok (fin (ringAccess s src (seat % 1024) (slot % 16) reg (f (seat % 1024) (slot % 16)))) = .next (fin (f seat slot s)) := by
  rw [Nat.mod_eq_of_lt hseat, Nat.mod_eq_of_lt hslot, ringAccess_permitted s src seat slot reg _ hopen hst hseat hslot hreg hsrc, ok]

/-- A ring is read from the table of rings. -/
theorem State.ring_of_rings {s t : State} (h : t.rings = s.rings) (seat slot : Nat) : t.ring seat slot = s.ring seat slot :=
  congrArg (fun l => tabGet ({} : Ring) l (ringKey seat slot)) h

-- Indexes (R149, R173, R175)

/-- A doorbell is heard: the ring is enabled, and its seat is in service and not being reset. -/
theorem ringDoorbell_heard (s : State) (seat slot : Nat) (v : W32) (hen : (s.ring seat slot).act.enable = true) (hst : 2 ≤ (s.seat seat).state)
    (htr : ∀ t, (s.seat seat).transit ≠ .reset t) :
    ringDoorbell s seat slot v = (if sub32 v.toNat (s.ring seat slot).fetchIdx ≤ (s.ring seat slot).size
      then s.modRing seat slot (fun r => { r with db := v.toNat }) else s.modRing seat slot (fun r => { r with dbErr := true })) := by
  have hlo : ¬ (s.seat seat).state < 2 := by omega
  cases ht : (s.seat seat).transit with
  | reset t => exact absurd ht (htr t)
  | _ => simp [ringDoorbell, hen, hlo, ht]

theorem ringDoorbell_idle (s : State) (seat slot : Nat) (v : W32) (h : (s.ring seat slot).act.enable = false ∨ (s.seat seat).state < 2) :
    ringDoorbell s seat slot v = s := by
  simp only [ringDoorbell]
  rw [if_pos]
  rcases h with h | h <;> simp [h]

theorem Ring.size_eq (r : Ring) : r.size = 2 ^ (r.act.cfg % 32) := by
  rw [Ring.size, bits_eq_div]
  simp

/-- Settles O15: each index register by the lemma on its case. -/
theorem ringIndexesAreTakenInRange : Obligations.RingIndexesAreTakenInRange := by
  intro s src seat slot v r hr hopen hst hseat hslot hsrc
  subst hr
  have hdb : exec (.doorbell src seat slot v) s = .next (fin (ringDoorbell s seat slot v)) :=
    ok_ringAccess s src seat slot 0 (fun a b s => ringDoorbell s a b v) hopen hst hseat hslot (by decide) hsrc
  have hcq : exec (.cqHeadWrite src seat slot v) s = .next (fin (ringHead s seat slot v)) :=
    ok_ringAccess s src seat slot 8 (fun a b s => ringHead s a b v) hopen hst hseat hslot (by decide) hsrc
  rw [hdb, hcq, ← Ring.size_eq]
  refine ⟨fun hen h2 htr hin => ?_, fun hen h2 htr hout => ?_, fun hrest => ?_, fun hin => ?_, fun hout => ?_⟩
  · rw [ringDoorbell_heard s seat slot v hen h2 htr, if_pos hin]
    rfl
  · rw [ringDoorbell_heard s seat slot v hen h2 htr, if_neg (Nat.not_le.mpr hout)]
    rfl
  · rw [ringDoorbell_idle s seat slot v hrest]
  · simp only [ringHead, if_pos hin]
    rfl
  · simp only [ringHead, if_neg (Nat.not_le.mpr hout)]
    rfl

-- Settings (R169, R170, R199)

theorem settingsOpen_iff (t : Seat) : settingsOpen t = true ↔ t.state = 0 ∨ t.state = 1 ∨ t.state = 3 := by
  simp [settingsOpen, or_assoc]

/-- ENABLE is written to another value than the one written before, at an open seat other than 0. -/
theorem ringCtrl_open (s : State) (src seat slot : Nat) (en : Bool) (hsrc : src.testBit 10 = true) (hseat : 0 < seat) (hen : (s.ring seat slot).set.enable = !en)
    (ho : settingsOpen (s.seat seat) = true) :
    ringCtrl s src seat slot en false = s.modRing seat slot (fun r => { r with set := { r.set with enable := en } }) := by
  simp [ringCtrl, hsrc, hen, ho, Nat.pos_iff_ne_zero.mp hseat]

theorem ringCtrl_closed (s : State) (src seat slot : Nat) (en : Bool) (hsrc : src.testBit 10 = true) (hseat : 0 < seat) (hen : (s.ring seat slot).set.enable = !en)
    (hc : settingsOpen (s.seat seat) = false) : ringCtrl s src seat slot en false = rejectCfg s seat := by
  simp [ringCtrl, hsrc, hen, hc, Nat.pos_iff_ne_zero.mp hseat]

theorem ringCtrl_root_enable (s : State) (src slot : Nat) (hsrc : src.testBit 10 = true) (hen : (s.ring 0 slot).set.enable = false) :
    ringCtrl s src 0 slot true false = enableSeat0 s slot := by
  simp [ringCtrl, hsrc, hen]

theorem ringCtrl_root_disable (s : State) (src slot : Nat) (hsrc : src.testBit 10 = true) (hen : (s.ring 0 slot).set.enable = true) :
    ringCtrl s src 0 slot false false
      = stopFetch (s.modRing 0 slot (fun r => { r with set := { r.set with enable := false }, act := { r.act with enable := false } })) 0 slot false := by
  simp [ringCtrl, hsrc, hen]

theorem ringSetting_open (s : State) (src seat slot reg : Nat) (v : W32) (hsrc : src.testBit 10 = true) (hseat : 0 < seat) (ho : settingsOpen (s.seat seat) = true) :
    ringSetting s src seat slot reg v = s.modRing seat slot (fun r => { r with set := ringSetWord r.set reg v.toNat }) := by
  simp [ringSetting, hsrc, ho, Nat.pos_iff_ne_zero.mp hseat]

theorem ringSetting_closed (s : State) (src seat slot reg : Nat) (v : W32) (hsrc : src.testBit 10 = true) (hseat : 0 < seat)
    (hc : settingsOpen (s.seat seat) = false) : ringSetting s src seat slot reg v = rejectCfg s seat := by
  simp [ringSetting, hsrc, hc, Nat.pos_iff_ne_zero.mp hseat]

theorem ringSetting_root (s : State) (src slot reg : Nat) (v : W32) (hsrc : src.testBit 10 = true) :
    ringSetting s src 0 slot reg v = (if (s.ring 0 slot).set.enable = true then rejectCfg s 0
      else s.modRing 0 slot (fun r => { r with set := ringSetWord r.set reg v.toNat })) := by
  simp only [ringSetting, hsrc, Bool.not_true, Bool.false_eq_true, if_false, if_true]

/-- ENABLE of a ring of seat 0 that passes its checks (R152, R170, R171). -/
theorem enableSeat0_ring (s : State) (slot : Nat) (hroot : rootOk (s.seat 0) = true)
    (hok : ringOk s 0 slot ((List.range 16).filterMap (fun i => if i = slot then none else some (i, (s.ring 0 i).act)))
      { (s.ring 0 slot).set with enable := true } = true) :
    (enableSeat0 s slot).ring 0 slot
      = { ringFresh (s.ring 0 slot) with set := { (s.ring 0 slot).set with enable := true }, act := { (s.ring 0 slot).set with enable := true } } := by
  have hring : (applySeatX s 0).ring 0 slot = s.ring 0 slot := State.ring_of_rings ((applySeatX_keeps s 0).rings rfl) 0 slot
  simp only [enableSeat0, hroot, hok, Bool.and_self, if_true, State.ring_modRing, hring]

theorem stopFetch_ring (s : State) (seat slot : Nat) (q : Bool) :
    (stopFetch s seat slot q).ring seat slot = { s.ring seat slot with fetching := false, packets := [] } :=
  State.ring_modRing s seat slot (fun r => { r with fetching := false, packets := [] })

/-- Settles O16. -/
theorem ringSettingsWaitForTheCurtain : Obligations.RingSettingsWaitForTheCurtain := by
  intro s src seat slot r hr hopen hst hpos hseat hslot hsrc
  subst hr
  have access (a : Nat) (ha : a < 1024) (reg : Nat) (hreg : reg < 128) (f : Nat → Nat → State → State) :=
    ok_ringAccess s src a slot reg f hopen hst ha hslot hreg (.inl hsrc)
  have hctrl (a : Nat) (ha : a < 1024) : exec (.ringEnable src a slot false) s = .next (fin (ringCtrl s src a slot true false)) :=
    access a ha 0x10 (by decide) (fun a b s => ringCtrl s src a b true false)
  have hdis (a : Nat) (ha : a < 1024) : exec (.ringDisable src a slot false) s = .next (fin (ringCtrl s src a slot false false)) :=
    access a ha 0x10 (by decide) (fun a b s => ringCtrl s src a b false false)
  have hset (a : Nat) (ha : a < 1024) (reg : Nat) (hreg : reg < 128) (v : W32) :
      exec (.ringSettingWrite src a slot reg v) s = .next (fin (ringSetting s src a slot reg v)) := by
    have := access a ha (reg % 128) (Nat.mod_lt _ (by decide)) (fun a b s => ringSetting s src a b (reg % 128) v)
    rw [Nat.mod_eq_of_lt hreg] at this
    refine Eq.trans ?_ this
    show execRingSettingWrite src a slot reg v s = _
    rw [execRingSettingWrite, Nat.mod_eq_of_lt hreg]
  refine ⟨fun hopenSt => ?_, fun hclosed => ?_, fun r0 hr0 => ?_, ?_⟩
  · have ho := (settingsOpen_iff _).mpr hopenSt
    refine ⟨fun hen => ?_, fun hen => ?_, fun v => ⟨?_, ?_⟩⟩
    · rw [hctrl seat hseat, ringCtrl_open s src seat slot true hsrc hpos hen ho]
      rfl
    · rw [hdis seat hseat, ringCtrl_open s src seat slot false hsrc hpos hen ho]
      rfl
    · rw [hset seat hseat _ (by decide), ringSetting_open s src seat slot _ v hsrc hpos ho]
      rfl
    · rw [hset seat hseat _ (by decide), ringSetting_open s src seat slot _ v hsrc hpos ho]
      rfl
  · have hc : settingsOpen (s.seat seat) = false := by
      rw [Bool.eq_false_iff, ne_eq, settingsOpen_iff]
      omega
    refine ⟨fun hen => ?_, fun v => ?_⟩
    · rw [hctrl seat hseat, ringCtrl_closed s src seat slot true hsrc hpos hen hc]
      rfl
    · rw [hset seat hseat _ (by decide), ringSetting_closed s src seat slot _ v hsrc hpos hc]
      rfl
  · subst hr0
    refine ⟨fun v => ?_, fun hen => ?_, fun c hc hroot hok => ?_, fun hen => ?_⟩
    · rw [hset 0 (by decide) _ (by decide), ringSetting_root s src slot _ v hsrc]
      rfl
    · rw [hctrl 0 (by decide), ringCtrl_root_enable s src slot hsrc hen]
    · subst hc
      exact enableSeat0_ring s slot hroot hok
    · refine ⟨_, (hdis 0 (by decide)).trans (by rw [ringCtrl_root_disable s src slot hsrc hen]), ?_⟩
      rw [stopFetch_ring, State.ring_modRing]
      exact ⟨rfl, rfl, rfl, ((stopFetch_keeps _ _ _ _).jobs rfl).trans rfl⟩
  · exact access seat hseat 0x10 (by decide) (fun a b s => ringResume s a b)

end Sys2Proof.Machine
end

section
/-! PROOF. Fetching, prompts, control opcodes and deadlines (O17 to O19). -/

namespace Sys2Proof.Machine

-- Fetching (R148, R176, R177)

/-- A fetch begins, or goes on, on the slot that is served next. -/
theorem startFetch_next (s : State) (seat slot : Nat) (hf : seatFetches s seat = true) (hfree : ∀ i, i < 16 → (s.ring seat i).fetching = false)
    (hn : nextSlot s seat = some slot) :
    startFetch s seat = (if (s.ring seat slot).packets = []
      then fetchPackets (s.modRing seat slot (fun r => { r with fetching := true, fetchLen := r.chain })) seat slot 0 1
      else fetchPackets (s.modRing seat slot (fun r => { r with fetching := true, fetchLen := r.chain })) seat slot 1 (s.ring seat slot).chain) := by
  have hany : ((List.range 16).any (fun i => (s.ring seat i).fetching)) = false := by
    simpa only [List.any_eq_false, List.mem_range, Bool.not_eq_true] using hfree
  simp only [startFetch, hf, hany, hn, Bool.not_true, Bool.or_self, Bool.false_eq_true, if_false]

/-- The read of the first packet alone. -/
theorem fetchPackets_first (s : State) (seat slot : Nat) : fetchPackets s seat slot 0 1 = addRead s (.fetch seat slot 0) seat
    ((s.ring seat slot).act.base + (s.ring seat slot).fetchIdx % (s.ring seat slot).size * 128) 128 0 := rfl

-- Prompts (R195)

/-- The oldest unread record was acknowledged TIME × 100 ns ago or more, where TIME is not 0. -/
def Ring.recordOld (r : Ring) (now : Stamp) : Bool :=
  bits r.coal 31 16 != 0 && (match r.unread with
    | [] => false
    | (_, at_, _) :: _ => decide (at_ + bits r.coal 31 16 * 100 * nsUnit ≤ now))

/-- The ring has a reason to prompt. -/
def Ring.promptDue (r : Ring) (now : Stamp) : Bool :=
  decide (bits r.coal 15 0 ≤ sub32 r.cqTail r.cqHead - r.recsOut) || r.recordOld now || r.unread.any (fun u => u.2.2)

/-- A ring whose urgent records have been counted. -/
def Ring.counted (r : Ring) : Ring := { r with unread := r.unread.map (fun u => (u.1, u.2.1, false)) }

theorem evalRing_eq (s : State) (seat slot : Nat) :
    evalRing s seat slot = (if ((s.ring seat slot).armed && bits (s.ring seat slot).coal 15 0 != 0 && (s.ring seat slot).promptDue s.mono) = true
      then raise ((s.modRing seat slot Ring.counted).modRing seat slot (fun r => { r with armed := false })) seat (bits (s.ring seat slot).act.cfg 15 5)
      else s.modRing seat slot Ring.counted) := rfl

theorem Ring.recordOld_iff (r : Ring) (now : Stamp) : r.recordOld now = true ↔
    (r.coal / 2 ^ 16 % 2 ^ 16 ≠ 0 ∧ ∃ x, r.unread.head? = some x ∧ x.2.1 + r.coal / 2 ^ 16 % 2 ^ 16 * 100 * 2 ^ 16 ≤ now) := by
  rw [Ring.recordOld, bits_eq_div]
  cases r.unread with
  | nil => simp
  | cons u us => simp [nsUnit]

theorem Ring.promptDue_iff (r : Ring) (now : Stamp) : r.promptDue now = true ↔
    (r.coal % 2 ^ 16 ≤ sub32 r.cqTail r.cqHead - r.recsOut
      ∨ (r.coal / 2 ^ 16 % 2 ^ 16 ≠ 0 ∧ ∃ x, r.unread.head? = some x ∧ x.2.1 + r.coal / 2 ^ 16 % 2 ^ 16 * 100 * 2 ^ 16 ≤ now)
      ∨ ∃ x ∈ r.unread, x.2.2 = true) := by
  rw [Ring.promptDue, Bool.or_eq_true, Bool.or_eq_true, Ring.recordOld_iff, List.any_eq_true, decide_eq_true_iff, bits_eq_div, or_assoc]
  simp

/-- A ring that has no reason to prompt, or may not, only counts its urgent records. -/
theorem evalRing_rest (s : State) (seat slot : Nat) (h : (s.ring seat slot).armed = false ∨ (s.ring seat slot).coal % 2 ^ 16 = 0
    ∨ ¬ (s.ring seat slot).promptDue s.mono = true) : evalRing s seat slot = s.modRing seat slot Ring.counted := by
  rw [evalRing_eq, if_neg]
  rw [bits_eq_div]
  rcases h with h | h | h <;> simp_all

theorem evalRing_prompts (s : State) (seat slot : Nat) (ha : (s.ring seat slot).armed = true) (hc : (s.ring seat slot).coal % 2 ^ 16 ≠ 0)
    (hd : (s.ring seat slot).promptDue s.mono = true) :
    evalRing s seat slot = raise ((s.modRing seat slot Ring.counted).modRing seat slot (fun r => { r with armed := false })) seat
      (bits (s.ring seat slot).act.cfg 15 5) := by
  rw [evalRing_eq, if_pos]
  rw [ha, hd, bits_eq_div]
  simpa using hc

theorem raise_prompts (s : State) (fn vec : Nat) :
    (raise s fn vec).prompts = (if (⟨fn, vec⟩ : Prompt) ∈ s.prompts then s.prompts else s.prompts ++ [⟨fn, vec⟩]) := by
  unfold raise
  simp only [List.contains_iff_mem]
  split <;> rfl

/-- Raising a prompt after a change of the rings changes nothing else. -/
theorem raise_modRings (s : State) (l : List (Nat × Ring)) (fn vec : Nat) :
    { raise { s with rings := l } fn vec with rings := s.rings, prompts := s.prompts } = s := by
  unfold raise
  split <;> rfl

/-- Settles O17. -/
theorem jobsAreFetchedAndRingsPrompt : Obligations.JobsAreFetchedAndRingsPrompt := by
  refine fun s seat => ⟨fun slot hseat hf hfree hn u hu => ?_, fun hserv hdue => ?_, fun slot r due hr hdue => ?_⟩
  · have hex : exec (.jobFetch seat) s = .next (fin (startFetch s seat)) := by
      show execJobFetch seat s = _
      rw [execJobFetch, Nat.mod_eq_of_lt hseat, ok]
    subst hu
    rw [hex, startFetch_next s seat slot hf hfree hn]
    refine ⟨fun hp => ?_, fun hp => ?_⟩
    · rw [if_pos hp, fetchPackets_first, State.ring_modRing]
      rfl
    · rw [if_neg hp]
      rfl
  · have hd : s.due s.time.promptDue = true := decide_eq_true hdue
    calc exec .promptEvaluation s = ok (fin (whenDo (s.serving && s.due s.time.promptDue) s evalAll)) := rfl
      _ = _ := by
        rw [hserv, hd, Bool.and_self, whenDo_true, ok]
        rfl
  · subst hr
    have hd := hdue.trans (Ring.promptDue_iff _ s.mono).symm
    refine ⟨fun ha hc h => ⟨_, rfl, ?_⟩, fun h => evalRing_rest s seat slot (by rwa [hd] at h)⟩
    rw [evalRing_prompts s seat slot ha hc (hd.mp h)]
    refine ⟨raise_modRings s _ _ _, ?_, ?_⟩
    · rw [State.ring_of_rings ((raise_keeps _ _ _).rings rfl), State.ring_modRing, State.ring_modRing]
      rfl
    · rw [raise_prompts, bits_eq_div]
      rfl

-- Control opcodes (R180, R183 to R185)

/-- A control opcode of a ripe job in time has its effect. -/
theorem control_ripe (s : State) (id op : Nat) (j : Job) (f : State → Job → State) (hserv : s.serving = true) (hr : ripe s id = some j)
    (hs : seedLate s j = false) (hl : j.late s = false) (ho : j.opcode = op) : control s id op f = f s j := by
  simp [control, hserv, hr, inTime, hs, hl, ho]

/-- An opcode past the last group is in none that safe stage serves. -/
theorem unassigned_high (op : Nat) (h : 0x76 ≤ op) : unassigned op = true ∧ safeOpcode op = false := by
  constructor
  · simp only [unassigned, Bool.or_eq_true, decide_eq_true_iff]
    omega
  · simp only [safeOpcode, Bool.or_eq_false_iff, Bool.and_eq_false_iff, decide_eq_false_iff_not]
    omega

theorem exec_unassignedOpcode (s : State) (id : Nat) (j : Job) (hserv : s.serving = true) (hr : ripe s id = some j)
    (hs : seedLate s j = false) (hl : j.late s = false) (hu : unassigned j.opcode = true) :
    exec (.unassignedOpcode id) s = .next (fin (failJob s j.id stInternal (if s.start.state = 4 ∧ !safeOpcode j.opcode then 1 else 2))) := by
  show execUnassignedOpcode id s = _
  simp [execUnassignedOpcode, hserv, hr, inTime, hs, hl, hu, ok]

/-- A FENCE that is held is judged. -/
theorem exec_fence (s : State) (id : Nat) (j : Job) (hserv : s.serving = true) (hj : s.liveJob id = some j) (ho : j.opcode = 1) (hp : j.phase = .held)
    (hb : 1 < j.fld 16 1 ∨ heldBack s j = false) : exec (.fence id) s = .next (fin (fenceGo s j)) := by
  have hcond : (s.serving && j.opcode == 0x01 && j.phase == .held && (decide (1 < j.fld 16 1) || !heldBack s j)) = true := by
    rcases hb with hb | hb <;> simp [hserv, ho, hp, hb]
  show execFence id s = _
  simp only [execFence, hj, hcond, if_true, ok]

/-- Settles O18. -/
theorem controlOpcodesEndAtTheRingManager : Obligations.ControlOpcodesEndAtTheRingManager := by
  refine fun s id j hserv => ⟨fun hr hs hl => ⟨fun ho => ?_, fun ho => ?_, fun hu hst => ?_, fun hop hst => ?_⟩, fun hj ho hp => ⟨fun hsc hb hw => ?_, fun hsc => ?_⟩⟩
  · exact congrArg (fun t => Host.Outcome.next (fin t)) (control_ripe s id 0 j _ hserv hr hs hl ho)
  · exact congrArg (fun t => Host.Outcome.next (fin t)) (control_ripe s id 2 j _ hserv hr hs hl ho)
  · rw [exec_unassignedOpcode s id j hserv hr hs hl hu, if_neg]
    rcases hst with h | h <;> simp [h]
  · obtain ⟨hu, hsafe⟩ := unassigned_high j.opcode hop
    rw [exec_unassignedOpcode s id j hserv hr hs hl hu, if_pos ⟨hst, by rw [hsafe]; rfl⟩]
  · have hnone : j.waits.any (fun w => s.jobs.any (fun k => k.id == w)) = false := by
      simpa only [List.any_eq_false, List.any_eq_true, beq_iff_eq, not_exists, not_and] using hw
    rw [exec_fence s id j hserv hj ho hp (.inr hb), fenceGo, if_neg (Nat.not_lt.mpr hsc), hnone]
    rfl
  · rw [exec_fence s id j hserv hj ho hp (.inl hsc), fenceGo, if_pos hsc]

-- Deadlines (R192, R197, R198, R410)

/-- A job whose seeding deadline governs ends with RNG_NOT_READY. -/
theorem deadlinePass_seed (s : State) (id : Nat) (j : Job) (hj : s.liveJob id = some j) (hs : seedLate s j = true) :
    deadlinePass s id = stop s id stRngNotReady 0 := by
  simp only [deadlinePass, hj, hs, if_true]

theorem deadlinePass_inTime (s : State) (id : Nat) (j : Job) (hj : s.liveJob id = some j) (hs : seedLate s j = false) (hl : j.late s = false) :
    deadlinePass s id = s := by
  simp [deadlinePass, hj, hs, hl]

/-- A late job, which has not begun to write and waits for no erasure, times out by its place. -/
theorem deadlinePass_here (s : State) (id sub : Nat) (j : Job) (hj : s.liveJob id = some j) (hs : seedLate s j = false) (hc : j.committed = false)
    (hf : isFence j = false) (hv : s.alarms.verifying = false) (hl : j.late s = true) (hsub : timeoutSub s j = some sub)
    (hna : ∀ m tag, j.phase ≠ .away m tag) : deadlinePass s id = stop s id stTimeout sub := by
  cases hp : j.phase with
  | away m tag => exact absurd hp (hna m tag)
  | _ => simp [deadlinePass, hj, hs, hc, hf, hv, hl, hsub, hp]

/-- One that is away times out as it is cancelled there. -/
theorem deadlinePass_away (s : State) (id m tag : Nat) (j : Job) (hj : s.liveJob id = some j) (hs : seedLate s j = false) (hc : j.committed = false)
    (hf : isFence j = false) (hv : s.alarms.verifying = false) (hl : j.late s = true) (hp : j.phase = .away m tag) :
    deadlinePass s id = sendTo (stop s id stTimeout 2) m (.cancel [tag]) := by
  simp [deadlinePass, hj, hs, hc, hf, hv, hl, timeoutSub, hp]

theorem exec_jobDeadline (s : State) (id : Nat) (hup : s.up = true) : exec (.jobDeadline id) s = .next (fin (deadlinePass s id)) := by
  calc exec (.jobDeadline id) s = ok (fin (whenDo s.up s (deadlinePass · id))) := rfl
    _ = _ := by rw [hup, whenDo_true, ok]

/-- Settles O19: by the phase of the job. -/
theorem lateJobsTimeOutWhereTheyAre : Obligations.LateJobsTimeOutWhereTheyAre := by
  refine fun s id j hup hj => ⟨fun hs hv => ⟨?_, ?_⟩, fun hs hc hf hv hl => ⟨fun sub hsub hna => ?_, fun m tag hp => ?_⟩, fun hs hl => ?_, ?_⟩
  · calc exec (.seedingDeadline id) s = ok (carryAll (seedingPass s id)) := rfl
      _ = _ := by simp [seedingPass, hj, hup, hv, hs, ok]
  · rw [exec_jobDeadline s id hup, deadlinePass_seed s id j hj hs]
  · rw [exec_jobDeadline s id hup, deadlinePass_here s id sub j hj hs hc hf hv hl hsub hna]
  · rw [exec_jobDeadline s id hup, deadlinePass_away s id m tag j hj hs hc hf hv hl hp]
  · rw [exec_jobDeadline s id hup, deadlinePass_inTime s id j hj hs hl]
  · unfold timeoutSub
    cases j.phase with
    | inEng w => simp
    | _ => rfl

end Sys2Proof.Machine
end

section
/-! PROOF. The dispatcher: scheduling epochs, wing power, placement and the periodic work (O20 to O24). -/

namespace Sys2Proof.Machine

-- Scheduling epochs (R144 to R146, R360, R548)

/-- Admission at a boundary: the settings come into force and the credit follows the new rate. -/
theorem admitEpoch_eq (t : Seat) : admitEpoch t = { t with
    admitAct := t.admitW
    credit := if t.admitW % 2 ^ 13 = 0 then t.credit
      else if t.admitAct % 2 ^ 13 = 0 then (admitDepth { t with admitAct := t.admitW } : Int)
      else min (admitDepth { t with admitAct := t.admitW } : Int) (t.credit + (t.admitW % 2 ^ 13 : Nat)) } := by
  unfold admitEpoch admitRate
  by_cases h : t.admitW % 2 ^ 13 = 0
  · simp only [h, if_true]
  · simp only [h, if_false]

/-- A seat at a boundary: the words written before it come into force and the credits grow. -/
theorem seatBoundary_eq (w : EpochWords) (t : Seat) : seatBoundary w t = { t with
    actW := w.shareW, actJ := w.shareJ, actK := w.shareK, strgAct := w.strg, admitAct := w.admitW
    bucket := if 2 ≤ t.state ∧ t.state ≤ 4 then min 65536 (t.bucket + w.shareJ / 2 ^ 16) else t.bucket
    strgCredit := min (w.strg / 2 ^ 16 * 1000) (t.strgCredit + w.strg % 2 ^ 16)
    credit := if w.admitW % 2 ^ 13 = 0 then t.credit
      else if t.admitAct % 2 ^ 13 = 0 then (w.admitW / 2 ^ 16 % 2 ^ 16 * 1000 : Nat)
      else min ((w.admitW / 2 ^ 16 % 2 ^ 16 * 1000 : Nat) : Int) (t.credit + (w.admitW % 2 ^ 13 : Nat)) } := by
  by_cases h : 2 ≤ t.state ∧ t.state ≤ 4
  all_goals
    simp only [seatBoundary, seatEpoch, admitEpoch_eq, admitDepth, bits_eq_div, h, if_true, if_false, and_self]

theorem latchEpoch_latch (s : State) :
    (latchEpoch s).place.latch = (if s.place.latch = none ∧ s.time.epochDue ≤ s.time.mono then some (epochWords s) else s.place.latch) := by
  unfold latchEpoch State.due
  simp only [Bool.and_eq_true, Option.isNone_iff_eq_none, decide_eq_true_iff]
  split <;> rfl

/-- It changes the latch alone. -/
theorem latchEpoch_rest (s : State) : { (latchEpoch s).place with latch := s.place.latch } = s.place := by
  unfold latchEpoch
  split <;> rfl

/-- Settles O20. -/
theorem epochsPutWrittenSharesInForce : Obligations.EpochsPutWrittenSharesInForce := by
  refine ⟨fun s l w hup hdue hw => ?_, fun s => ⟨latchEpoch_latch s, latchEpoch_place s, latchEpoch_rest s⟩, fun w t u hu => ?_, fun s l b => ?_⟩
  · have hd : s.due s.time.epochDue = true := decide_eq_true hdue
    have hlatch : s.place.latch.getD (epochWords s) = w := by
      rcases hw with h | ⟨h, rfl⟩ <;> rw [h] <;> rfl
    calc exec (.epochBoundary l) s = ok (carryAll (epochBoundary s l)) := rfl
      _ = _ := by
        rw [epochBoundary, hup, hd, hlatch, ok]
        rfl
  · subst hu
    rw [seatBoundary_eq]
    exact ⟨rfl, rfl, rfl, rfl, rfl, rfl, rfl, rfl, fun h => if_pos h, fun h h0 => (if_neg h).trans (if_pos h0), fun h h0 => (if_neg h).trans (if_neg h0),
      rfl, rfl, rfl, rfl⟩
  · exact State.bay_modBay s b _

-- Wing power (R98, R224, R225)

theorem wingIdle_drains (s : State) (w : Nat) (hserv : s.serving = true) (hp : (s.wing w).power = 2) (hb : wingBusy s w = false)
    (hdue : (s.wing w).idleAt + s.place.act.gate % 256 * 1000 * 2 ^ 16 ≤ s.time.mono) (hg : s.place.act.ctrl.testBit 1 = true)
    (hmin : minWings s < wingsOn s) : wingIdle s w = s.modWing w (fun x => { x with power := 3 }) := by
  have hd : s.due ((s.wing w).idleAt + s.place.act.gate % 256 * 1000 * nsUnit) = true := decide_eq_true hdue
  simp [wingIdle, hserv, hp, hb, hd, hg, hmin]

theorem wingGated_drained (s : State) (w : Nat) (hup : s.up = true) (hp : (s.wing w).power = 3) :
    wingGated s w = (List.range 8).foldl (fun s i => wipeBay s (8 * w + i)) (s.modWing w (fun x => { x with power := 0 })) := by
  simp [wingGated, hup, hp]

theorem wingWakeDone_awake (s : State) (w : Nat) (hup : s.up = true) (hp : (s.wing w).power = 1) (hdue : (s.wing w).wokenAt + 2000 * 2 ^ 16 ≤ s.time.mono) :
    wingWakeDone s w = s.modWing w (fun x => { x with power := 2, idleAt := s.mono }) := by
  have hd : s.due ((s.wing w).wokenAt + 2000 * nsUnit) = true := decide_eq_true hdue
  simp [wingWakeDone, hup, hp, hd]

/-- No wing has been woken in the last 2 us (R225). -/
def wakeFree (s : State) : Bool :=
  match s.place.lastWake with
  | some t => s.due (t + 2000 * nsUnit)
  | none => true

theorem wakeFree_true (s : State) (h : ∀ t, s.place.lastWake = some t → t + 2000 * 2 ^ 16 ≤ s.time.mono) : wakeFree s = true := by
  unfold wakeFree
  cases ht : s.place.lastWake with
  | none => rfl
  | some t => exact decide_eq_true (h t ht)

theorem wakeFree_false (s : State) (t : Stamp) (ht : s.place.lastWake = some t) (h : s.time.mono < t + 2000 * 2 ^ 16) : wakeFree s = false := by
  simp only [wakeFree, ht]
  exact decide_eq_false (Nat.not_le.mpr h)

theorem wingWake_eq (s : State) (w : Nat) : wingWake s w
    = (if (!s.up || s.alarms.verifying || !wakeFree s) = true then s
      else if (s.serving && (List.range 8).find? (wakes s) == some w) = true then
        reseedWing { wakeWing s w with place := { (wakeWing s w).place with cntWake := wrapInc 32 (wakeWing s w).place.cntWake } } w
      else if (List.range 8).find? (stepWakes s) = some w then wakeWing s w
      else s) := rfl

/-- Settles O21. -/
theorem wingPowerFollowsTheWork : Obligations.WingPowerFollowsTheWork := by
  intro s w hw
  have hm : w % 8 = w := Nat.mod_eq_of_lt hw
  have hwake : exec (.wingWake w) s = .next (carryAll (wingWake s w)) := by
    show execWingWake w s = _
    rw [execWingWake, hm, ok]
  refine ⟨fun hserv hp hb hdue hg hmin => ?_, fun hup hp => ?_, fun u hup hv hu => ⟨fun hfree => ⟨fun hserv hfind => ?_, fun hserv hfind => ?_⟩, fun t ht hlt => ?_⟩,
    fun hup hp hdue => ?_⟩
  · show execWingIdle w s = _
    rw [execWingIdle, hm, wingIdle_drains s w hserv hp hb hdue hg hmin, ok]
  · show execWingGated w s = _
    rw [execWingGated, hm, wingGated_drained s w hup hp, ok]
  · subst hu
    rw [hwake, wingWake_eq, hup, hv, wakeFree_true s hfree, hserv, hfind]
    simp only [Bool.not_true, Bool.or_self, Bool.false_eq_true, if_false, BEq.rfl, Bool.and_self, if_true]
    rfl
  · subst hu
    rw [hwake, wingWake_eq, hup, hv, wakeFree_true s hfree, hserv, hfind]
    simp only [Bool.not_true, Bool.or_self, Bool.false_eq_true, if_false, Bool.false_and, if_true]
    rfl
  · rw [hwake, wingWake_eq, wakeFree_false s t ht hlt, Bool.not_false, Bool.or_true, if_pos rfl]
  · show execWingWakeDone w s = _
    rw [execWingWakeDone, hm, wingWakeDone_awake s w hup hp hdue, ok]
    rfl

-- Placement (R117, R197, R204)

/-- A job the dispatcher takes up: its deadline is judged, then what safe stage serves, then its checks are made. -/
theorem placeJob_ripe (s : State) (id : Nat) (j : Job) (hserv : s.serving = true) (hv : s.alarms.verifying = false) (hr : ripe s id = some j) (hpkt : j.pkt = none)
    (hu : unassigned j.opcode = false) (hop : 0x10 ≤ j.opcode) : placeJob s id
    = inTime s j 1 (fun s => if s.start.state = 4 ∧ !safeOpcode j.opcode then failJob s id stInternal 1 else runCk s j (placeCk s j)) := by
  have hlo : ¬ j.opcode < 0x10 := by omega
  simp [placeJob, hserv, hv, hr, hpkt, hu, hlo]

/-- One in time that is served has its checks made. -/
theorem placeJob_served (s : State) (id : Nat) (j : Job) (hserv : s.serving = true) (hv : s.alarms.verifying = false) (hr : ripe s id = some j) (hpkt : j.pkt = none)
    (hu : unassigned j.opcode = false) (hop : 0x10 ≤ j.opcode) (hs : seedLate s j = false) (hl : j.late s = false)
    (hst : s.start.state = 3 ∨ safeOpcode j.opcode = true) : placeJob s id = runCk s j (placeCk s j) := by
  have hno : ¬ (s.start.state = 4 ∧ (!safeOpcode j.opcode) = true) := by
    rcases hst with h | h <;> simp [h]
  rw [placeJob_ripe s id j hserv hv hr hpkt hu hop, inTime, hs, hl]
  simp only [Bool.false_and, Bool.false_eq_true, if_false, hno]

theorem isSym_of_isDig (j : Job) (h : j.isDig = true) : j.isSym = false := by
  simp only [Job.isDig, Bool.and_eq_true, decide_eq_true_iff] at h
  simp only [Job.isSym, Bool.and_eq_false_iff, decide_eq_false_iff_not]
  omega

theorem placeCk_dig (s : State) (j : Job) (h : j.isDig = true) (hst : j.started = false) : placeCk s j = digPlace s j := by
  simp [placeCk, h, hst, isSym_of_isDig j h]

theorem placeCk_sym (s : State) (j : Job) (h : j.isSym = true) (hst : j.started = false) : placeCk s j = symPlace s j := by
  simp [placeCk, h, hst]

/-- A job without association whose checks pass is placed with the flags of its key. -/
theorem placeCk_free (s t : State) (j : Job) (attr : Nat) (hst : j.started = false)
    (h : (j.isDig = true ∧ digCheck s j = .ok (t, attr)) ∨ (j.isSym = true ∧ j.opBit 15 = false ∧ symCheck s j = .ok (t, attr))) :
    placeCk s j = .ok (placeFree t j attr) := by
  rcases h with ⟨hd, hck⟩ | ⟨hy, h15, hck⟩
  · rw [placeCk_dig s j hd hst, digPlace, hck]
    rfl
  · rw [placeCk_sym s j hy hst, symPlace, hck]
    show (if j.opBit 15 then _ else _) = _
    rw [h15]
    rfl

theorem placeFree_waits (s : State) (j : Job) (attr : Nat) (hs : inService s { j with attr := attr } ≠ []) (hg : givenBack s { j with attr := attr } = true) :
    placeFree s j attr = s := by
  simp only [placeFree, hs, hg, if_false, if_true]

theorem placeFree_chosen (s : State) (j : Job) (attr b : Nat) (hs : inService s { j with attr := attr } ≠ []) (hg : givenBack s { j with attr := attr } = false)
    (hb : chooseBay s { j with attr := attr } = some b) :
    placeFree s j attr = queueBay (noteChoice s { j with attr := attr } b) { j with attr := attr } b attr := by
  simp only [placeFree, hs, hg, hb, Bool.false_eq_true, if_false]

/-- Settles O22. -/
theorem jobsThatPassTheirChecksAreQueued : Obligations.JobsThatPassTheirChecksAreQueued := by
  intro s id j hserv hv hr hpkt hu hop hs
  have hex : ∀ t, placeJob s id = t → exec (.jobPlacement id) s = .next (carryAll t) := by
    rintro t rfl
    rfl
  have served := placeJob_served s id j hserv hv hr hpkt hu hop hs
  refine ⟨fun hl hst => ⟨fun t ht => ?_, fun status sub ht => ?_⟩, fun hst => ⟨fun hd => placeCk_dig s j hd hst, fun hy => placeCk_sym s j hy hst⟩,
    fun t attr hck hst hl h3 b hin => ⟨fun hg => ?_, fun hg hb => ?_⟩, fun hl hc => ?_, fun h4 hl hsafe => ?_⟩
  · exact hex _ (by rw [served hl hst, ht, runCk])
  · exact hex _ (by rw [served hl hst, ht, runCk, failOpf, if_pos rfl])
  · exact hex _ (by rw [served hl (.inl h3), placeCk_free s t j attr hst hck, runCk, placeFree_waits t j attr hin hg])
  · exact hex _ (by rw [served hl (.inl h3), placeCk_free s t j attr hst hck, runCk, placeFree_chosen t j attr b hin hg hb])
  · exact hex _ (by
      rw [placeJob_ripe s id j hserv hv hr hpkt hu hop, inTime, hs, hl, hc]
      rfl)
  · exact hex _ (by
      rw [placeJob_ripe s id j hserv hv hr hpkt hu hop, inTime, hs, hl, h4, hsafe]
      rfl)

-- Advertisements and reseeds (R228, R250, R409)

/-- A hop that is not keyed takes no message but a keying one (R476). -/
theorem hopSend_unkeyed (s : State) (sd : Side) (src dst hops : Nat) (m : RMsg) (hk : (s.hop sd).keyed = false) (hm : isKeying m = false) :
    hopSend s sd src dst hops m = s := by
  simp [hopSend, hk, hm]

/-- The wait an advertisement states (R228): that of the engine that is free first. -/
def advWait (s : State) : Nat :=
  match bestEngine s with
  | some w => engWait s w
  | none => 0

/-- The state in which an advertisement that is due goes out. -/
def advNext (s : State) : State := { s with time := { s.time with advDue := s.time.advDue + 1000 * nsUnit } }

theorem advertise_due (s : State) (hup : s.up = true) (hdue : s.time.advDue ≤ s.time.mono) :
    advertise s = sendBoth (advNext s) (.adv [(3, advWait (advNext s)), (4, advWait (advNext s))] (advNext s).engines.inForce (acceptsRelayed (advNext s))) := by
  have hd : s.due s.time.advDue = true := decide_eq_true hdue
  simp only [advertise, hup, hd, Bool.not_true, Bool.or_self, Bool.false_eq_true, if_false, advWait]
  rfl

theorem exec_advertisement (s : State) : exec .advertisement s = .next (fin (advertise s)) := rfl

/-- Settles O24. -/
theorem periodicAdvertsAndReseeds : Obligations.PeriodicAdvertsAndReseeds := by
  intro s hup
  refine ⟨fun u w hdue hu hb => ?_, fun u hdue hu hb => ?_, fun he hw m hm => ?_, fun hnot => ?_, fun u r hdue hu hr => ?_⟩
  · have hw : advWait (advNext s) = engWait u w := by
      subst hu
      exact congrArg (fun o : Option Nat => match o with | some w => engWait (advNext s) w | none => 0) hb
    rw [exec_advertisement, advertise_due s hup hdue, hw, hu]
    rfl
  · have hw : advWait (advNext s) = 0 := by
      subst hu
      exact congrArg (fun o : Option Nat => match o with | some w => engWait (advNext s) w | none => 0) hb
    rw [exec_advertisement, advertise_due s hup hdue, hw, hu]
    rfl
  · rw [sendBoth, hopSend_unkeyed s .east _ _ _ m he hm, hopSend_unkeyed s .west _ _ _ m hw hm]
  · have hd : s.due s.time.advDue = false := decide_eq_false (Nat.not_le.mpr hnot)
    rw [exec_advertisement, advertise, hup, hd]
    rfl
  · have hd : s.due s.time.reseedDue = true := decide_eq_true hdue
    show execCountermeasureReseed s = _
    simp only [execCountermeasureReseed, countermeasures, hup, hd, Bool.not_true, Bool.or_self, Bool.false_eq_true, if_false, ok]
    rw [show nsUnit = 2 ^ 16 from rfl, ← hu, hr]
    rfl

end Sys2Proof.Machine
end

section
/-! PROOF. Bays: issue, segment boundaries and spills (O23). -/

namespace Sys2Proof.Machine

-- Jobs by their name

theorem State.job?_id {s : State} {id : Nat} {j : Job} (h : s.job? id = some j) : j.id = id := by simpa using List.find?_some h

theorem State.liveJob_iff (s : State) (id : Nat) (j : Job) : s.liveJob id = some j ↔ s.job? id = some j ∧ j.outcome = none := by
  simp [State.liveJob, Option.filter_eq_some_iff]

theorem State.liveJob_id {s : State} {id : Nat} {j : Job} (h : s.liveJob id = some j) : j.id = id := State.job?_id ((State.liveJob_iff s id j).mp h).1

theorem State.job?_of_jobs {s t : State} (h : t.jobs = s.jobs) (id : Nat) : t.job? id = s.job? id := by rw [State.job?, State.job?, h]

/-- A change of one job that keeps its name is what its lookup then gives. -/
theorem State.job?_modJob (s : State) (id : Nat) (f : Job → Job) (hf : ∀ k, (f k).id = k.id) : (s.modJob id f).job? id = (s.job? id).map f := by
  have hcomp : ((fun j : Job => j.id == id) ∘ fun j => if j.id == id then f j else j) = fun j => j.id == id := by
    funext j
    simp only [Function.comp]
    split
    · rw [hf]
    · rfl
  simp only [State.job?, State.modJob, List.find?_map, hcomp]
  cases h : s.jobs.find? (fun j => j.id == id) with
  | none => rfl
  | some j =>
    have hj : (j.id == id) = true := by simpa using List.find?_some h
    simp only [Option.map_some, hj, if_true]

-- Issue (R220)

/-- The state in which a bay picks: a seat with nothing queued in the wing has no deficit, and a job that lacks room has made a record spill. -/
def bayPicks (s : State) (b : Nat) : State :=
  roomSpill (s.modWing (b / 8) (fun x => { x with deficit := dropIdle x.deficit (wingLive s (b / 8)) })) b

/-- The heads of a bay as the deficit round robin sees them. -/
def bayCands (u : State) (b : Nat) : List Cand :=
  (bayHeads u b).map (fun h => ({ key := h.1.seat, quantum := weight u h.1.seat * 512, cost := jobCost (symOf u h.1) h.1 } : Cand))

theorem issueBay_picked (s : State) (b l seat : Nat) (d : List (Nat × Nat)) (j : Job) (hserv : s.serving = true) (hv : s.alarms.verifying = false)
    (hb : s.bayOk b = true) (hw : (s.wing (b / 8)).power = 2)
    (hp : drrPick ((bayPicks s b).wing (b / 8)).deficit (tabGet 0 ((bayPicks s b).wing (b / 8)).turn (b % 8)) (bayCands (bayPicks s b) b) = some (seat, d))
    (hh : (bayHeads (bayPicks s b) b).find? (fun h => h.1.seat == seat) = some (j, l)) :
    issueBay s b = bayTime (bayPicks s b) j (fun s => advance (enterBay (s.modWing (b / 8)
      (fun x => { x with deficit := d, turn := tabSet 0 x.turn (b % 8) seat })) j b l) j.id) := by
  simp only [bayPicks, bayCands] at hp hh ⊢
  simp [issueBay, hserv, hv, hb, hw, hp, hh]

-- Segment boundaries (R267, R306)

/-- The operation of a job whose segment is read and is in time, by its kind. -/
theorem opJob_ready (s : State) (id : Nat) (ops : List Nat) (last : Bool) (f : State → SymW → Job → State) (j : Job) (b : Nat) (hserv : s.serving = true)
    (hv : s.alarms.verifying = false) (hj : s.liveJob id = some j) (hp : j.phase = .inBay b) (hst : j.started = true) (hh : j.held = .none) (hpkt : j.pkt = none)
    (hops : j.opcode ∈ ops) (hl : lastSeg (symOf s j) j = last) (ht : j.late s = true → j.committed = true) (hr : (segReads (symOf s j) j).all j.hasRead = true) :
    opJob s id ops last f = f s (symOf s j) j := by
  have hlate : (j.late s && !j.committed) = false := by
    cases hc : j.committed with
    | true => simp
    | false =>
      have : j.late s = false := by
        rw [Bool.eq_false_iff]
        intro h
        simp [hc] at ht
        simp [h] at ht
      simp [this]
  have hreads : (segReads (symOf s j) j).any (fun r => !j.hasRead r) = false := by
    simpa [List.any_eq_false, List.all_eq_true] using hr
  simp [opJob, hj, hserv, hv, hp, hst, hh, hpkt, hops, hl, hlate, hreads]

/-- A digest job at the end of the segment in progress. -/
def digMoved (w : SymW) (j k : Job) : Job := { dropData w k with ctx := digOpen (digStep w j), pos := segEnd w j, segs := k.segs + 1 }

/-- A segment of a digest stream moves the job on by one segment. -/
theorem digSeg_segs (s : State) (w : SymW) (j : Job) (id : Nat) (hj : s.job? id = some j) :
    ((digSeg s w j).job? id).map (·.segs) = some (j.segs + 1) := by
  have hid := State.job?_id hj
  subst hid
  have key (u : State) (hu : u.jobs = s.jobs) : ((u.modJob j.id (digMoved w j)).job? j.id).map (·.segs) = some (j.segs + 1) := by
    rw [State.job?_modJob _ _ (digMoved w j) (fun _ => rfl), State.job?_of_jobs hu, hj]
    rfl
  unfold digSeg
  extract_lets e u
  refine key u ?_
  simp only [u]
  split
  · exact (remask_keeps _ _ _ _ _).jobs rfl
  · rfl

theorem digSeg_bay (s : State) (w : SymW) (j : Job) (b : Nat) (hp : j.phase = .inBay b) :
    digSeg s w j = (remask s j b (blocksBy j j.pos) (blocksBy j (segEnd w j))).modJob j.id (digMoved w j) := by
  simp only [digSeg, hp]
  rfl

/-- The digest opcodes whose stream has segments. -/
theorem isDig_stream (j : Job) (h1 : 0x20 ≤ j.opcode) (h2 : j.opcode ≤ 0x23) : j.isDig = true := by
  simp only [Job.isDig, Bool.and_eq_true, decide_eq_true_iff]
  omega

theorem mem_streamOps (op : Nat) (h1 : 0x20 ≤ op) (h2 : op ≤ 0x23) : op ∈ [0x10, 0x11, 0x12, 0x13, 0x14, 0x15, 0x20, 0x21, 0x22, 0x23] := by
  have : op = 0x20 ∨ op = 0x21 ∨ op = 0x22 ∨ op = 0x23 := by omega
  rcases this with rfl | rfl | rfl | rfl <;> decide

theorem segBoundary_dig (s : State) (id : Nat) (j : Job) (b : Nat) (hserv : s.serving = true)
    (hv : s.alarms.verifying = false) (hj : s.liveJob id = some j) (hp : j.phase = .inBay b) (hst : j.started = true) (hh : j.held = .none) (hpkt : j.pkt = none)
    (h1 : 0x20 ≤ j.opcode) (h2 : j.opcode ≤ 0x23) (hl : lastSeg (symOf s j) j = false) (ht : j.late s = true → j.committed = true)
    (hr : (segReads (symOf s j) j).all j.hasRead = true) : segBoundary s id = afterSeg (digSeg s (symOf s j) j) id := by
  have hwork : opJob s id [0x10, 0x11, 0x12, 0x13, 0x14, 0x15, 0x20, 0x21, 0x22, 0x23] false segWork = digSeg s (symOf s j) j := by
    rw [opJob_ready s id _ false segWork j b hserv hv hj hp hst hh hpkt (mem_streamOps _ h1 h2) hl ht hr, segWork, if_pos (isDig_stream j h1 h2)]
  have hjob := ((State.liveJob_iff s id j).mp hj).1
  rw [segBoundary, hwork, digSeg_segs s _ j id hjob, hjob]
  simp

-- Spills (R271, R273)

theorem heldMark_due (s : State) (id : Nat) (j : Job) (b : Nat) (at_ : Stamp) (hup : s.up = true) (hv : s.alarms.verifying = false) (hj : s.liveJob id = some j)
    (hp : j.phase = .paused b) (hh : j.held = .clear at_) (hlt : at_ + 10000 * 2 ^ 16 < s.time.mono) : heldMark s id = spillJob s j b := by
  have hd : s.past (at_ + 10000 * nsUnit) = true := decide_eq_true hlt
  simp [heldMark, hj, hp, hh, hup, hv, hd]

theorem spillJob_clear (s : State) (j : Job) (b k : Nat) (at_ : Stamp) (hh : j.held = .clear at_) (hf : freeSlot s = some k) : spillJob s j b = wrapSpill s j b k := by
  simp only [spillJob, hh, hf]

theorem spillJob_full (s : State) (j : Job) (b : Nat) (at_ : Stamp) (hh : j.held = .clear at_) (hf : freeSlot s = none) :
    spillJob s j b = (alarmC (s.modKeys (fun x => { x with spillFull := true })) 0x47 b j.seat).modJob j.id (fun j => { j with held := .stuck }) := by
  simp only [spillJob, hh, hf]

/-- Settles O23. -/
theorem baysIssueSegmentAndSpill : Obligations.BaysIssueSegmentAndSpill := by
  intro s
  refine ⟨fun u b l seat d j hlt hserv hv hb hw hu hp hh hs => ?_, fun id j b w hserv hv hj hw hp hst hh hpkt h1 h2 hl ht hr => ?_,
    fun id j b k hup hv hj hp at_ hh hlt => ⟨fun hf => ?_, fun hf => ?_⟩⟩
  · have hex : exec (.bayIssue b) s = .next (fin (issueBay s b)) := by
      show execBayIssue b s = _
      rw [execBayIssue, Nat.mod_eq_of_lt hlt, ok]
    have hpick : u = bayPicks s b := hu
    clear hu
    subst hpick
    rw [hex, issueBay_picked s b l seat d j hserv hv hb hw hp hh, bayTime, inTime, hs]
    refine ⟨fun ht => ?_, fun hl hc => ?_⟩
    · cases hl : j.late (bayPicks s b) with
      | true => simp [ht hl]
      | false => simp
    · simp [hl, hc]
  · subst hw
    have hid := State.liveJob_id hj
    calc exec (.segmentBoundary id) s = .next (fin (segBoundary s id)) := rfl
      _ = _ := by
        rw [segBoundary_dig s id j b hserv hv hj hp hst hh hpkt h1 h2 hl ht hr, digSeg_bay s _ j b hp, hid]
        rfl
  · exact congrArg (fun t => Host.Outcome.next (fin t)) ((heldMark_due s id j b at_ hup hv hj hp hh hlt).trans (spillJob_clear s j b k at_ hh hf))
  · exact congrArg (fun t => Host.Outcome.next (fin t)) ((heldMark_due s id j b at_ hup hv hj hp hh hlt).trans (spillJob_full s j b at_ hh hf))

end Sys2Proof.Machine
end

section
/-! PROOF. The ends of symmetric, association and digest jobs (O25 to O29). -/

namespace Sys2Proof.Machine

/-- An operation's command, by what the operation leads to. -/
theorem ok_carry {t u : State} (h : t = u) : ok (carry t) = .next (carry u) := by rw [h, ok]

-- Operations of a lane (R243, R254, R267)

/-- What it means that a lane can end a job. -/
theorem laneReady_iff (s : State) (j : Job) (op : Nat) (h : laneReady s j op = true) :
    (s.serving = true ∧ s.alarms.verifying = false) ∧ (∃ b, j.phase = .inBay b) ∧ j.started = true ∧ j.held = .none ∧ j.pkt = none ∧ j.opcode = op
      ∧ lastSeg (symOf s j) j = true ∧ (j.late s = true → j.committed = true) ∧ (segReads (symOf s j) j).all j.hasRead = true := by
  simp only [laneReady, State.working, Bool.and_eq_true, Bool.not_eq_true', beq_iff_eq, Option.isNone_iff_eq_none, Bool.and_eq_false_iff,
    Bool.not_eq_false'] at h
  obtain ⟨⟨⟨⟨⟨⟨⟨⟨⟨hserv, hv⟩, hp⟩, hst⟩, hh⟩, hpkt⟩, hop⟩, hl⟩, ht⟩, hr⟩ := h
  refine ⟨⟨hserv, hv⟩, ?_, hst, hh, hpkt, hop, hl, fun hlate => ht.resolve_left (by simp [hlate]), hr⟩
  cases hph : j.phase with
  | inBay b => exact ⟨b, rfl⟩
  | _ => simp [hph] at hp

/-- The operation of a job that its lane can end is the end of the job. -/
theorem opJob_lane (s : State) (id op : Nat) (j : Job) (f : State → SymW → Job → State) (hj : s.liveJob id = some j) (h : laneReady s j op = true) :
    opJob s id [op] true f = f s (symOf s j) j := by
  obtain ⟨⟨hserv, hv⟩, ⟨b, hp⟩, hst, hh, hpkt, hop, hl, ht, hr⟩ := laneReady_iff s j op h
  exact opJob_ready s id [op] true f j b hserv hv hj hp hst hh hpkt (by simp [hop]) hl ht hr

theorem laneReady_opcode {s : State} {j : Job} {op : Nat} (h : laneReady s j op = true) : j.opcode = op := by
  obtain ⟨-, -, -, -, -, hop, -⟩ := laneReady_iff s j op h
  exact hop

/-- A job that its lane can end is no packet. -/
theorem isPkt_lane (s : State) (id op : Nat) (j : Job) (hj : s.liveJob id = some j) (h : laneReady s j op = true) : isPkt s id = false := by
  obtain ⟨-, -, -, -, hpkt, -⟩ := laneReady_iff s j op h
  simp [isPkt, hj, hpkt]

-- The end of a symmetric job (R239, R263, R264, R446)

/-- The tag a symmetric job computes. -/
def symTag (w : SymW) (j : Job) (c : Ctx) : Bytes := (if w.mode = mSiv ∧ j.opcode = 0x10 then c.sivTag else modeTag w.mode j.key c).take w.tagLen

/-- The outcome of a symmetric job that ends well, but for its tag. -/
def symBase (s : State) (j : Job) : Outcome :=
  { status := stOk, inB := j.streamLen, outB := if j.hasOut then j.payLen else 0, result := baseResult s j, softLimit := j.soft }

theorem endSym_part (s : State) (w : SymW) (j : Job) (c : Ctx) (off : Nat) (out : Bytes) (he : j.endsMsg = false) :
    endSym s w j c off out = fixOutcome (writeRec (keepSeg s w j c off out) w j c) j.id
      { symBase s j with result := if w.mode = mCtr then fieldBE c.chain 8 8 else baseResult s j } := by
  simp only [endSym, he, Bool.not_false, if_true]
  rfl

theorem endSym_seal (s : State) (w : SymW) (j : Job) (c : Ctx) (off : Nat) (out : Bytes) (he : j.endsMsg = true) (hop : j.opcode = 0x10) :
    endSym s w j c off out = fixOutcome (writeBuf (keepSeg s w j c off out) j 96 0 (symTag w j c)) j.id { symBase s j with outB := j.payLen + w.tagLen } := by
  have ho : j.hasOut = true := by simp [Job.hasOut, hop]
  simp only [endSym, he, hop, Bool.not_true, Bool.false_eq_true, if_false, ho, if_true, symTag, symBase]
  rfl

theorem endSym_mac (s : State) (w : SymW) (j : Job) (c : Ctx) (off : Nat) (out : Bytes) (he : j.endsMsg = true) (hop : j.opcode = 0x12) :
    endSym s w j c off out = fixOutcome (writeBuf s j 96 0 (symTag w j c)) j.id { symBase s j with outB := w.tagLen } := by
  simp only [endSym, he, hop, Bool.not_true, Bool.false_eq_true, if_false, symTag, symBase]
  rfl

/-- A MAC_VERIFY compares. -/
theorem endSym_verify (s : State) (w : SymW) (j : Job) (c : Ctx) (off : Nat) (out : Bytes) (he : j.endsMsg = true) (hop : j.opcode = 0x13) :
    endSym s w j c off out = (if symTag w j c = j.dataOf 96 0 w.tagLen then fixOutcome s j.id { symBase s j with inB := j.streamLen + w.tagLen }
      else tagBad s j { symBase s j with inB := j.streamLen + w.tagLen }) := by
  simp only [endSym, he, hop, Bool.not_true, Bool.false_eq_true, if_false, symTag, symBase]
  rfl

theorem endSym_crypt (s : State) (w : SymW) (j : Job) (c : Ctx) (off : Nat) (out : Bytes) (he : j.endsMsg = true) (hop : j.opcode = 0x14 ∨ j.opcode = 0x15) :
    endSym s w j c off out = fixOutcome (keepSeg s w j c off out) j.id
      { symBase s j with result := if w.mode = mCtr then fieldBE c.chain 8 8 else baseResult s j } := by
  rcases hop with hop | hop
  all_goals
    simp only [endSym, he, hop, Bool.not_true, Bool.false_eq_true, if_false, symBase]
    rfl

/-- An OPEN whose tags agree marks the window of its association, once the lease lets it, and releases its plaintext. -/
theorem endSym_open (s : State) (w : SymW) (j : Job) (c : Ctx) (off : Nat) (out : Bytes) (he : j.endsMsg = true) (hop : j.opcode = 0x11)
    (ht : symTag w j c = j.dataOf 96 0 w.tagLen) : endSym s w j c off out = (match j.assoc.bind s.assoc? with
      | some a => if !markReady s a j.ctr then waitWindow s a.index j.id (max j.ctr a.winTop)
        else endSym.openDone (markAssoc s a.index j.id j.ctr) w j c off out { symBase s j with inB := j.streamLen + w.tagLen }
      | none => endSym.openDone s w j c off out { symBase s j with inB := j.streamLen + w.tagLen }) := by
  have ht' : (if w.mode = mSiv ∧ j.opcode = 0x10 then c.sivTag else modeTag w.mode j.key c).take w.tagLen = j.dataOf 96 0 w.tagLen := ht
  rw [hop] at ht'
  simp only [endSym, he, hop, Bool.not_true, Bool.false_eq_true, if_false, symBase, ht', ne_eq, not_true_eq_false] <;> rfl

theorem endSym_open_bad (s : State) (w : SymW) (j : Job) (c : Ctx) (off : Nat) (out : Bytes) (he : j.endsMsg = true) (hop : j.opcode = 0x11)
    (ht : symTag w j c ≠ j.dataOf 96 0 w.tagLen) :
    endSym s w j c off out = tagBad (keepSeg s w j c off out) j { symBase s j with inB := j.streamLen + w.tagLen } := by
  have ht' : (if w.mode = mSiv ∧ j.opcode = 0x10 then c.sivTag else modeTag w.mode j.key c).take w.tagLen ≠ j.dataOf 96 0 w.tagLen := ht
  rw [hop] at ht'
  simp only [endSym, he, hop, Bool.not_true, Bool.false_eq_true, if_false, symBase, ht', ne_eq, not_false_eq_true, if_true]

theorem openDone_plain (s : State) (w : SymW) (j : Job) (c : Ctx) (off : Nat) (out : Bytes) (o : Outcome) (h : j.opBit 14 = false) :
    endSym.openDone s w j c off out o = fixOutcome (keepSeg s w j c off out) j.id o := by
  simp only [endSym.openDone, h, Bool.false_eq_true, if_false, finishJob]

theorem openDone_green (s : State) (w : SymW) (j : Job) (c : Ctx) (off : Nat) (out : Bytes) (o : Outcome) (h : j.opBit 14 = true) :
    endSym.openDone s w j c off out o = fixOutcome (writeBuf s j 64 0 (j.inner ++ out)) j.id { o with opf := 0x40 } := by
  simp only [endSym.openDone, h, if_true, finishJob]

/-- A tag failure with nothing to zero. -/
theorem tagBad_quiet (s : State) (j : Job) (o : Outcome) (h : j.opcode ≠ 0x11 ∨ j.opBit 14 = true) :
    tagBad s j o = fixOutcome s j.id { o with status := stAuthFail, opf := 0x80, outB := 0 } := by
  have hno : (j.opcode == 0x11 && !j.opBit 14 && decide (0 < j.payLen)) = false := by
    rcases h with h | h <;> simp [h]
  simp only [tagBad, hno, Bool.false_eq_true, if_false, finishJob]

/-- The tag failure of an OPEN that has written. -/
theorem tagBad_scrub (s : State) (j : Job) (o : Outcome) (h : j.opcode = 0x11) (hg : j.opBit 14 = false) (hp : 0 < j.payLen) :
    tagBad s j o = fixOutcome (s.modJob j.id (fun k => { k with scrub := true, outs := (cutRuns (j.runs 64) 0 j.payLen).map (fun x => (x.1, zeros x.2)) })) j.id
      { o with status := stAuthFail, opf := 0x80, outB := 0 } := by
  have hyes : (j.opcode == 0x11 && !j.opBit 14 && decide (0 < j.payLen)) = true := by simp [h, hg, hp]
  simp only [tagBad, hyes, if_true, finishJob]

theorem symOp_lane (s : State) (id op : Nat) (j : Job) (hj : s.liveJob id = some j) (h : laneReady s j op = true) :
    symOp s id op = endSym s (symOf s j) j (symStep (symOf s j) j).1 (symStep (symOf s j) j).2.1 (symStep (symOf s j) j).2.2 :=
  opJob_lane s id op j _ hj h

theorem exec_sealJob (s : State) (id : Nat) (hp : isPkt s id = false) : exec (.sealJob id) s = .next (carry (symOp s id 0x10)) := by
  show execSealJob id s = _
  rw [execSealJob, hp, ok]
  rfl

theorem exec_openJob (s : State) (id : Nat) (hp : isPkt s id = false) : exec (.openJob id) s = .next (carry (symOp s id 0x11)) := by
  show execOpenJob id s = _
  rw [execOpenJob, hp, ok]
  rfl

theorem exec_symOps (s : State) (id : Nat) : exec (.macGen id) s = .next (carry (symOp s id 0x12)) ∧ exec (.macVerify id) s = .next (carry (symOp s id 0x13))
    ∧ exec (.encrypt id) s = .next (carry (symOp s id 0x14)) ∧ exec (.decrypt id) s = .next (carry (symOp s id 0x15)) := ⟨rfl, rfl, rfl, rfl⟩

/-- Settles O25. -/
theorem symmetricJobsEndWithTheirOutput : Obligations.SymmetricJobsEndWithTheirOutput := by
  intro s id j w r tag o hj hw hr htag ho
  subst hw
  have hseal (h : laneReady s j 0x10 = true) : exec (.sealJob id) s = .next (carry (endSym s (symOf s j) j r.1 r.2.1 r.2.2)) := by
    rw [exec_sealJob s id (isPkt_lane s id _ j hj h), symOp_lane s id _ j hj h, hr]
  have hopen (h : laneReady s j 0x11 = true) : exec (.openJob id) s = .next (carry (endSym s (symOf s j) j r.1 r.2.1 r.2.2)) := by
    rw [exec_openJob s id (isPkt_lane s id _ j hj h), symOp_lane s id _ j hj h, hr]
  obtain ⟨hgen, hver, henc, hdec⟩ := exec_symOps s id
  have hlane (op : Nat) (h : laneReady s j op = true) : symOp s id op = endSym s (symOf s j) j r.1 r.2.1 r.2.2 := by
    rw [symOp_lane s id _ j hj h, hr]
  have hbase : o = symBase s j := ho
  have htag' : tag = symTag (symOf s j) j r.1 := htag
  clear ho htag
  subst hbase htag'
  refine ⟨fun he => ⟨fun h => ?_, fun h ht => ⟨fun t ht' => ⟨fun hg => ?_, fun hg => ?_⟩, fun a ha hm => ?_⟩, fun h => ?_, fun h ht => ?_, fun h => ?_, fun h => ?_⟩,
    fun t he ht => ?_⟩
  · rw [hseal h, endSym_seal s _ j _ _ _ he (laneReady_opcode h)]
  · rw [hopen h, endSym_open s _ j _ _ _ he (laneReady_opcode h) ht]
    rcases ht' with ⟨hn, rfl⟩ | ⟨a, ha, hm, rfl⟩
    · rw [hn, openDone_plain _ _ _ _ _ _ _ hg]
    · rw [ha]
      simp only [hm, Bool.not_true, Bool.false_eq_true, if_false, openDone_plain _ _ _ _ _ _ _ hg]
  · rw [hopen h, endSym_open s _ j _ _ _ he (laneReady_opcode h) ht]
    rcases ht' with ⟨hn, rfl⟩ | ⟨a, ha, hm, rfl⟩
    · rw [hn, openDone_green _ _ _ _ _ _ _ hg]
    · rw [ha]
      simp only [hm, Bool.not_true, Bool.false_eq_true, if_false, openDone_green _ _ _ _ _ _ _ hg]
  · rw [hopen h, endSym_open s _ j _ _ _ he (laneReady_opcode h) ht, ha]
    simp only [hm, Bool.not_false, if_true]
  · rw [hgen, hlane _ h, endSym_mac s _ j _ _ _ he (laneReady_opcode h)]
  · rw [hver, hlane _ h, endSym_verify s _ j _ _ _ he (laneReady_opcode h), if_pos ht]
  · rw [henc, hlane _ h, endSym_crypt s _ j _ _ _ he (.inl (laneReady_opcode h))]
  · rw [hdec, hlane _ h, endSym_crypt s _ j _ _ _ he (.inr (laneReady_opcode h))]
  · have hend : Host.Outcome.next (carry (endSym s (symOf s j) j r.1 r.2.1 r.2.2)) = t := by
      rw [ht, endSym_part s _ j _ _ _ he]
    exact ⟨fun h => (hseal h).trans hend, fun h => (hopen h).trans hend, fun h => (hgen.trans (by rw [hlane _ h])).trans hend,
      fun h => (hver.trans (by rw [hlane _ h])).trans hend, fun h => (henc.trans (by rw [hlane _ h])).trans hend,
      fun h => (hdec.trans (by rw [hlane _ h])).trans hend⟩

theorem symTag_open (w : SymW) (j : Job) (c : Ctx) (h : j.opcode ≠ 0x10) : symTag w j c = (modeTag w.mode j.key c).take w.tagLen := by
  simp only [symTag, h, and_false, if_false]

/-- Settles O26. -/
theorem aWrongTagReleasesNoPlaintext : Obligations.AWrongTagReleasesNoPlaintext := by
  intro s id j w r o hj hw hr he hne ho
  subst hw
  have hopen (h : laneReady s j 0x11 = true) :
      exec (.openJob id) s = .next (carry (tagBad (keepSeg s (symOf s j) j r.1 r.2.1 r.2.2) j { symBase s j with inB := j.streamLen + (symOf s j).tagLen })) := by
    have hop := laneReady_opcode h
    have ht : symTag (symOf s j) j r.1 ≠ j.dataOf 96 0 (symOf s j).tagLen := by
      rwa [symTag_open _ j _ (by rw [hop]; decide)]
    rw [exec_openJob s id (isPkt_lane s id _ j hj h), symOp_lane s id _ j hj h, ← hr, endSym_open_bad s _ j _ _ _ he hop ht]
  refine ⟨fun h => ?_, fun h hg => ?_, fun h hg hp => ?_⟩
  · have hop := laneReady_opcode h
    have ht : symTag (symOf s j) j r.1 ≠ j.dataOf 96 0 (symOf s j).tagLen := by
      rwa [symTag_open _ j _ (by rw [hop]; decide)]
    rw [(exec_symOps s id).2.1, symOp_lane s id _ j hj h, ← hr, endSym_verify s _ j _ _ _ he hop, if_neg ht, tagBad_quiet s j _ (.inl (by rw [hop]; decide)), ho]
    rfl
  · rw [hopen h, tagBad_quiet _ j _ (.inr hg), ho]
    rfl
  · rw [hopen h, tagBad_scrub _ j _ (laneReady_opcode h) hg hp, ho]
    rfl

-- Association jobs (R256, R260, R437, R441)

theorem assocJobOp_runs (s : State) (id op b : Nat) (j : Job) (hj : s.liveJob id = some j) (hserv : s.serving = true) (hv : s.alarms.verifying = false)
    (hp : j.phase = .inBay b) (hst : j.started = true) (hpos : j.pos = 0) (hl : j.late s = false) (hop : j.opcode = op) :
    assocJobOp s id op = assocJobRun s j := by
  simp [assocJobOp, hj, hp, hserv, hv, hst, hpos, hl, hop]

/-- The start of a query behind no SEAL that still wants its nonce. -/
theorem startQuery_free (s : State) (j : Job) (r : State × Assoc) (hck : assocCk s j j.assocIdx j.seat none = .ok r)
    (hq : ∀ k ∈ s.jobs, k.onAssoc = true → k.assocIdx = j.assocIdx → k.opcode = 0x10 → k.id < j.id → k.nonce = none → k.outcome ≠ none) :
    startQuery s j = .ok (r.1.modJob j.id (fun k => { k with
      started := true, ctrNext := if sealedOff r.2 then ctrEnd else r.2.ctr, soft := softOf r.1 { j with assoc := some j.assocIdx } })) := by
  have hnone : s.jobs.any (fun k => k.onAssoc && k.assocIdx == j.assocIdx && k.opcode == 0x10 && decide (k.id < j.id) && k.nonce.isNone && k.outcome.isNone) = false := by
    simp only [List.any_eq_false, Bool.and_eq_true, beq_iff_eq, decide_eq_true_iff, Option.isNone_iff_eq_none]
    rintro k hk ⟨⟨⟨⟨⟨h1, h2⟩, h3⟩, h4⟩, h5⟩, h6⟩
    exact hq k hk h1 h2 h3 h4 h5 h6
  rw [startQuery, hck]
  show (if _ then _ else _) = _
  rw [hnone]
  rfl

/-- Settles O27. -/
theorem associationJobsReadAndWriteEntries : Obligations.AssociationJobsReadAndWriteEntries := by
  refine fun s id j hj => ⟨fun h => ?_, fun r hck hq => startQuery_free s j r hck hq, fun b hserv hv hp hst hpos hl => ⟨fun hop => ?_, fun hop => ?_⟩, fun va hva => ?_⟩
  · calc exec (.assocQuery id) s = .next (carry (opJob s id [0x16] true (fun s _ j => queryEnd s j))) := rfl
      _ = _ := by
        rw [opJob_lane s id 0x16 j _ hj h]
        rfl
  · calc exec (.assocWrite id) s = .next (carry (assocJobOp s id 0x70)) := rfl
      _ = _ := by rw [assocJobOp_runs s id _ b j hj hserv hv hp hst hpos hl hop]
  · calc exec (.assocKill id) s = .next (carry (assocJobOp s id 0x71)) := rfl
      _ = _ := by rw [assocJobOp_runs s id _ b j hj hserv hv hp hst hpos hl hop]
  · rw [hva]
    rfl

-- Digests (R302 to R306)

/-- The outcome of a digest job, but for its compare word. -/
def digBase (m : State) (w : SymW) (j : Job) : Outcome :=
  { status := stOk, inB := j.payLen, truncated := truncated j, result := (digStep w j).1.msgBytes
    opf := (if j.slotUsed then 0x80 else 0) + if padSw m j then 0x40 else 0 }

/-- The value of a digest job, cut to OUT_LEN. -/
def digCut (m : State) (w : SymW) (j : Job) : Bytes := (digValue (padSw m j) j (digStep w j).1 (digStep w j).2).take j.outLen

/-- The end of a digest job, once a guarded one has its fresh masks. -/
theorem endDig_eq (u : BitVec 4) (s : State) (w : SymW) (j : Job) (b : Nat) (m : State) (hp : j.phase = .inBay b)
    (hm : m = remask s j b (blocksBy j j.pos) (blocksAll j)) :
    endDig u s w j = (if j.endsMsg = false then fixOutcome (writeRec m w j (digStep w j).1) j.id (digBase m w j)
      else if j.hasExpect = true then
        endCompare m j (cmpWord u (digCut m w j) (j.dataOf 80 0 j.outLen)) { digBase m w j with inB := j.payLen + j.outLen }
      else fixOutcome (writeBuf m j 64 0 (digCut m w j)) j.id { digBase m w j with outB := j.outLen }) := by
  subst hm
  cases he : j.endsMsg with
  | true => simp only [endDig, hp, he, Bool.not_true, Bool.false_eq_true, Bool.true_eq_false, if_false, finishJob, digBase, digCut]
  | false => simp only [endDig, hp, he, Bool.not_false, if_true, finishJob, digBase]

theorem hasExpect_iff (j : Job) : j.hasExpect = true ↔ j.opcode = 0x21 ∨ j.opcode = 0x23 ∨ j.opcode = 0x24 := by
  simp [Job.hasExpect, or_assoc]

theorem cmpWord_zero (a b : Bytes) : cmpWord 0 a b = if a = b then 0x1010 else 0x2020 := by
  unfold cmpWord
  split <;> decide

theorem endCompare_equal (s : State) (j : Job) (o : Outcome) : endCompare s j 0x1010 o = fixOutcome s j.id { o with status := stOk, sub := 0, result := 0x1010 } := rfl

theorem endCompare_unequal (s : State) (j : Job) (o : Outcome) :
    endCompare s j 0x2020 o = fixOutcome s j.id { o with status := stUnequal, sub := 0, result := 0x2020 } := rfl

theorem endCompare_mixed (s : State) (j : Job) (n : Nat) (o : Outcome) (h1 : n ≠ 0x1010) (h2 : n ≠ 0x2020) :
    endCompare s j n o = fixOutcome (mixedPattern s j) j.id { o with status := stUnequal, sub := 1, result := n } := by
  have hm : (n != 0x1010 && n != 0x2020) = true := by simp [h1, h2]
  simp only [endCompare, hm, h1, if_true, if_false, finishJob]

/-- The three ends of a compare: equal, unequal, and a word that is neither. -/
theorem endCompare_cases (s : State) (j : Job) (a b : Bytes) (o : Outcome) (hs : o.status = stOk) (hz : o.sub = 0) (u : BitVec 4) :
    (a = b → endCompare s j (cmpWord 0 a b) o = fixOutcome s j.id { o with result := 0x1010 })
    ∧ (a ≠ b → endCompare s j (cmpWord 0 a b) o = fixOutcome s j.id { o with status := stUnequal, result := 0x2020 })
    ∧ (∀ n, n = cmpWord u a b → n ≠ 0x1010 → n ≠ 0x2020 →
        endCompare s j (cmpWord u a b) o = fixOutcome (mixedPattern s j) j.id { o with status := stUnequal, sub := 1, result := n }) := by
  refine ⟨fun h => ?_, fun h => ?_, fun n hn h1 h2 => ?_⟩
  · rw [cmpWord_zero, if_pos h, endCompare_equal, ← hs, ← hz]
  · rw [cmpWord_zero, if_neg h, endCompare_unequal, ← hz]
  · rw [← hn, endCompare_mixed s j n o h1 h2]

/-- Settles O28. -/
theorem digestJobsWriteOrCompareTheirValue : Obligations.DigestJobsWriteOrCompareTheirValue := by
  intro s m id bay j w v o u hj hw hp hm hv ho
  subst hw
  have hlane (op : Nat) (u : BitVec 4) (h : laneReady s j op = true) : digOp s id op u = endDig u s (symOf s j) j := opJob_lane s id op j _ hj h
  have hend (u : BitVec 4) := endDig_eq u s (symOf s j) j bay m hp hm
  have hv' : v = digCut m (symOf s j) j := hv
  have ho' : o = digBase m (symOf s j) j := ho
  clear hm hv ho
  subst hv' ho'
  have value (op : Nat) (he : j.endsMsg = true) (h : laneReady s j op = true) (hop : op = 0x20 ∨ op = 0x22) :
      digOp s id op 0 = fixOutcome (writeBuf m j 64 0 (digCut m (symOf s j) j)) j.id { digBase m (symOf s j) j with outB := j.outLen } := by
    have hne : ¬ j.hasExpect = true := by
      rw [hasExpect_iff, laneReady_opcode h]
      omega
    rw [hlane op 0 h, hend, if_neg (by simp [he]), if_neg hne]
  have comp (op : Nat) (u : BitVec 4) (he : j.endsMsg = true) (h : laneReady s j op = true) (hop : op = 0x21 ∨ op = 0x23) :
      digOp s id op u = endCompare m j (cmpWord u (digCut m (symOf s j) j) (j.dataOf 80 0 j.outLen))
        { digBase m (symOf s j) j with inB := j.payLen + j.outLen } := by
    have hyes : j.hasExpect = true := by
      rw [hasExpect_iff, laneReady_opcode h]
      omega
    rw [hlane op u h, hend, if_neg (by simp [he]), if_pos hyes]
  have cases3 (u : BitVec 4) := endCompare_cases m j (digCut m (symOf s j) j) (j.dataOf 80 0 j.outLen)
    { digBase m (symOf s j) j with inB := j.payLen + j.outLen } rfl rfl u
  refine ⟨fun he => ⟨fun h => ok_carry (value _ he h (.inl rfl)), fun h => ok_carry (value _ he h (.inr rfl)), fun e h hee => ?_, fun e h hee => ?_⟩, fun t he ht => ?_⟩
  · subst hee
    exact ⟨fun hv => ok_carry ((comp _ 0 he h (.inl rfl)).trans ((cases3 u).1 hv)), fun hv => ok_carry ((comp _ 0 he h (.inl rfl)).trans ((cases3 u).2.1 hv)),
      fun n hn h1 h2 => ok_carry ((comp _ u he h (.inl rfl)).trans ((cases3 u).2.2 n hn h1 h2))⟩
  · subst hee
    exact ⟨fun hv => ok_carry ((comp _ 0 he h (.inr rfl)).trans ((cases3 u).1 hv)), fun hv => ok_carry ((comp _ 0 he h (.inr rfl)).trans ((cases3 u).2.1 hv)),
      fun n hn h1 h2 => ok_carry ((comp _ u he h (.inr rfl)).trans ((cases3 u).2.2 n hn h1 h2))⟩
  · have part (op : Nat) (u : BitVec 4) (h : laneReady s j op = true) : ok (carry (digOp s id op u)) = t := by
      rw [ht, hlane op u h, hend, if_pos he, ok]
    exact ⟨part _ 0, part _ 0, part _ u, part _ u⟩

/-- Settles O29. -/
theorem compareAndHmacSlots : Obligations.CompareAndHmacSlots := by
  intro s id j u o hj ho
  subst ho
  refine ⟨fun h => ?_, fun h => ⟨fun ha => ?_, fun t ha ht => ?_⟩, fun t h ht => ?_⟩
  · have cmp (u : BitVec 4) : opJob s id [0x24] true (compareEnd u)
        = endCompare s j (cmpWord u (j.dataOf 48 0 j.outLen) (j.dataOf 80 0 j.outLen)) { status := stOk, inB := 2 * j.outLen, truncated := truncated j } :=
      opJob_lane s id 0x24 j _ hj h
    have cases3 := endCompare_cases s j (j.dataOf 48 0 j.outLen) (j.dataOf 80 0 j.outLen)
      { status := stOk, inB := 2 * j.outLen, truncated := truncated j } rfl rfl u
    exact ⟨fun hv => ok_carry ((cmp 0).trans (cases3.1 hv)), fun hv => ok_carry ((cmp 0).trans (cases3.2.1 hv)),
      fun n hn h1 h2 => ok_carry ((cmp u).trans (cases3.2.2 n hn h1 h2))⟩
  · refine ok_carry ((opJob_lane s id 0x25 j _ hj h).trans ?_)
    simp only [hmacLoadEnd, ha, if_true, finishJob]
  · refine ok_carry ((opJob_lane s id 0x25 j _ hj h).trans ?_)
    simp only [hmacLoadEnd, ha, Bool.false_eq_true, if_false, finishJob, ht]
  · refine ok_carry ((opJob_lane s id 0x26 j _ hj h).trans ?_)
    cases hs : slotOf s j with
    | none => simp [hmacUnloadEnd, hs, finishJob, ht, flag]
    | some c => simp [hmacUnloadEnd, hs, finishJob, ht, flag]

end Sys2Proof.Machine
end

section
/-! PROOF. What an engine's datapaths compute: modular arithmetic, curves and lattices (O30 to O34). -/

namespace Sys2Proof.Machine

-- Square and multiply (R335)

/-- With the bits of the exponent from `n` on worked off, the rest of the run gives the power. -/
theorem modPowF_eq (b e m n acc : Nat) (h : acc = b ^ (e / 2 ^ n) % m) : modPowF (b % m) e m n acc = b ^ e % m := by
  induction n generalizing acc with
  | zero => simpa [modPowF] using h
  | succ n ih =>
    have hhalf : e / 2 ^ (n + 1) = e / 2 ^ n / 2 := by rw [Nat.pow_succ, Nat.div_div_eq_div_mul]
    have hsq : acc * acc % m = b ^ (2 * (e / 2 ^ n / 2)) % m := by
      rw [h, hhalf, ← Nat.mul_mod, ← Nat.pow_add, Nat.two_mul]
    refine ih _ ?_
    rw [Nat.testBit_eq_decide_div_mod_eq, hsq]
    by_cases hbit : e / 2 ^ n % 2 = 1
    · have hodd : e / 2 ^ n = 2 * (e / 2 ^ n / 2) + 1 := by omega
      rw [if_pos (decide_eq_true hbit), ← Nat.mul_mod, ← Nat.pow_add_one, ← hodd]
    · have heven : e / 2 ^ n = 2 * (e / 2 ^ n / 2) := by omega
      rw [if_neg (by simpa using hbit), ← heven]

theorem modPow_eq (b e m : Nat) : modPow b e m = b ^ e % m :=
  modPowF_eq b e m _ _ (by rw [Nat.div_eq_of_lt Nat.lt_log2_self, Nat.pow_zero])

-- Extended Euclid (R335)

/-- The remainder `r` is `a` times its coefficient `x`, modulo `m`. -/
def EgcdRel (a m r x : Nat) : Prop := ∃ k : Int, (r : Int) = a * x + m * k

theorem cast_mod_eq (x m : Nat) : ((x % m : Nat) : Int) = x - m * (x / m : Nat) := by
  have h := congrArg (Nat.cast : Nat → Int) (Nat.div_add_mod x m)
  rw [Int.natCast_add, Int.natCast_mul] at h
  omega

/-- The coefficient of the next remainder. -/
theorem egcd_coeff (m q x0 x1 : Nat) (hm : 0 < m) : ∃ k : Int, (((x0 + m * m - q * x1 % m) % m : Nat) : Int) = x0 - q * x1 + m * k := by
  have hle : q * x1 % m ≤ x0 + m * m := calc
    q * x1 % m ≤ m := Nat.le_of_lt (Nat.mod_lt _ hm)
    _ ≤ m * m := Nat.le_mul_of_pos_left m hm
    _ ≤ x0 + m * m := Nat.le_add_left ..
  refine ⟨m + (q * x1 / m : Nat) - ((x0 + m * m - q * x1 % m) / m : Nat), ?_⟩
  rw [cast_mod_eq, Int.ofNat_sub hle, cast_mod_eq, Int.natCast_add, Int.natCast_mul, Int.natCast_mul, Int.mul_sub, Int.mul_add]
  omega

/-- The relation of a remainder and its coefficient passes on to the next. -/
theorem egcd_step (a m r0 r1 x0 x1 : Nat) (hm : 0 < m) (h0 : EgcdRel a m r0 x0) (h1 : EgcdRel a m r1 x1) :
    EgcdRel a m (r0 % r1) ((x0 + m * m - (r0 / r1) * x1 % m) % m) := by
  obtain ⟨k0, h0⟩ := h0
  obtain ⟨k1, h1⟩ := h1
  obtain ⟨k, hk⟩ := egcd_coeff m (r0 / r1) x0 x1 hm
  refine ⟨k0 - k1 * (r0 / r1 : Nat) - a * k, ?_⟩
  rw [cast_mod_eq, hk, h0, h1]
  grind

/-- Two divisions halve the smaller number. -/
theorem mod_mod_lt_half (r1 t n : Nat) (ht : 0 < t) (htr : t < r1) (h : r1 < 2 * n) : r1 % t < n := by
  by_cases hle : 2 * t ≤ r1
  · have := Nat.mod_lt r1 ht
    omega
  · rw [Nat.mod_eq_sub_mod (Nat.le_of_lt htr), Nat.mod_eq_of_lt (by omega)]
    omega

/-- With two divisions for each bit of the smaller number the run ends at the greatest common divisor, and the relation holds of it. -/
theorem egcdF_spec (a m : Nat) (hm : 0 < m) (k f r0 r1 x0 x1 : Nat) (hr : r1 < 2 ^ k) (hf : 2 * k ≤ f) (h0 : EgcdRel a m r0 x0) (h1 : EgcdRel a m r1 x1) :
    (egcdF m f r0 r1 x0 x1).1 = Nat.gcd r0 r1 ∧ EgcdRel a m (egcdF m f r0 r1 x0 x1).1 (egcdF m f r0 r1 x0 x1).2 := by
  induction k generalizing f r0 r1 x0 x1 with
  | zero =>
    obtain rfl : r1 = 0 := Nat.lt_one_iff.mp hr
    cases f with
    | zero => exact ⟨(Nat.gcd_zero_right r0).symm, h0⟩
    | succ f => exact ⟨(Nat.gcd_zero_right r0).symm, h0⟩
  | succ k ih =>
    obtain ⟨f, rfl⟩ : ∃ g, f = g + 2 := ⟨f - 2, by omega⟩
    by_cases hz : r1 = 0
    · subst hz
      exact ⟨(Nat.gcd_zero_right r0).symm, h0⟩
    · have hstep := egcd_step a m r0 r1 x0 x1 hm h0 h1
      rw [egcdF, if_neg hz, Nat.gcd_comm r0 r1, Nat.gcd_rec r1 r0, Nat.gcd_comm (r0 % r1) r1]
      by_cases ht : r0 % r1 = 0
      · rw [ht, egcdF, if_pos rfl]
        exact ⟨(Nat.gcd_zero_right r1).symm, h1⟩
      · rw [egcdF, if_neg ht, Nat.gcd_comm r1 (r0 % r1), Nat.gcd_rec (r0 % r1) r1, Nat.gcd_comm (r1 % (r0 % r1))]
        refine ih f _ _ _ _ ?_ (by omega) hstep (egcd_step a m _ _ _ _ hm h1 hstep)
        exact mod_mod_lt_half r1 (r0 % r1) (2 ^ k) (Nat.pos_of_ne_zero ht) (Nat.mod_lt r0 (Nat.pos_of_ne_zero hz)) (by rw [Nat.pow_succ] at hr; omega)

theorem modInv_spec (a m : Nat) (hm : 1 < m) (h : Nat.gcd a m = 1) : modInv a m < m ∧ a * modInv a m % m = 1 := by
  have hpos : 0 < m := by omega
  have hlt : m < 2 ^ (m.log2 + 1) := Nat.lt_log2_self
  have ha : EgcdRel a m (a % m) 1 := ⟨-(a / m : Nat), by rw [cast_mod_eq]; grind⟩
  have h0 : EgcdRel a m m 0 := ⟨1, by simp⟩
  obtain ⟨hg, hx⟩ := egcdF_spec a m hpos (m.log2 + 1) (2 * (m.log2 + 2)) (a % m) m 1 0 hlt (by omega) ha h0
  rw [hg, ← Nat.gcd_rec, Nat.gcd_comm, h] at hx
  obtain ⟨k, hk⟩ := hx
  refine ⟨Nat.mod_lt _ hpos, ?_⟩
  have hmul : ((a * modInv a m : Nat) : Int) = (1 : Nat) + m * -(k + a * ((egcd a m).2 / m : Nat)) := by
    rw [hk, Int.natCast_mul, modInv, cast_mod_eq, egcd]
    grind
  have hmod := congrArg (· % (m : Int)) hmul
  simp only [Int.add_mul_emod_self_left] at hmod
  have hnat : a * modInv a m % m = 1 % m := Int.ofNat_inj.mp hmod
  rw [hnat, Nat.mod_eq_of_lt hm]

/-- Settles O32. -/
theorem powersAndInversesAreRight : Obligations.PowersAndInversesAreRight := ⟨modPow_eq, modInv_spec⟩

-- Runs (R320)

/-- The datapaths of a job whose run can begin compute its result. -/
theorem engOp_ready (s : State) (id op w : Nat) (j : Job) (f : Job → RunOut) (hj : s.liveJob id = some j) (h : runReady s j op w = true) :
    engOp s id op f = s.withRun id (f j) := by
  simp only [runReady, Bool.and_eq_true, beq_iff_eq, Option.isNone_iff_eq_none, Bool.not_eq_true'] at h
  obtain ⟨⟨⟨⟨⟨-, hp⟩, hop⟩, hrun⟩, hran⟩, hv⟩ := h
  rw [State.liveJob_id hj] at hrun
  simp [engOp, hj, hp, hop, hrun, hran, hv, State.withRun]

/-- An engine's command, by the result its datapaths compute. -/
theorem ok_engOp {s : State} {id op w : Nat} {j : Job} {f : Job → RunOut} {r : RunOut} (hj : s.liveJob id = some j) (h : runReady s j op w = true) (hf : f j = r) :
    ok (fin (engOp s id op f)) = .next (fin (s.withRun id r)) := by
  rw [engOp_ready s id op w j f hj h, hf, ok]

-- Modular opcodes (R323, R324, R334)

/-- The modulus is out of range: below 3, or even where the opcode asks for an odd one. -/
theorem arithRows_modulus (j : Job) (odd : Bool) (f : Nat → Nat → RunOut) (h : beNat (j.operand 64) < 3 ∨ (odd = true ∧ beNat (j.operand 64) % 2 = 0)) :
    arithRows j odd f = runBad stOperandRange 3 := by
  have hbad : (decide (beNat (j.operand 64) < 3) || (odd && beNat (j.operand 64) % 2 == 0)) = true := by
    rcases h with h | ⟨h, h2⟩ <;> simp [h]
    exact .inr h2
  simp only [arithRows, hbad, if_true]

/-- With a modulus in range A is judged. -/
theorem arithRows_A (j : Job) (odd : Bool) (f : Nat → Nat → RunOut) (h3 : 3 ≤ beNat (j.operand 64)) (ho : odd = true → beNat (j.operand 64) % 2 = 1) :
    arithRows j odd f = (if beNat (j.operand 64) ≤ beNat (j.operand 32) then runBad stOperandRange 1 else f (beNat (j.operand 32)) (beNat (j.operand 64))) := by
  have hok : (decide (beNat (j.operand 64) < 3) || (odd && beNat (j.operand 64) % 2 == 0)) = false := by
    cases odd with
    | false => simpa using h3
    | true => simp [ho rfl, h3]
  simp only [arithRows, hok, Bool.false_eq_true, if_false]

theorem arithRows_bad (j : Job) (odd : Bool) (f : Nat → Nat → RunOut) (h3 : 3 ≤ beNat (j.operand 64)) (ho : odd = true → beNat (j.operand 64) % 2 = 1)
    (ha : beNat (j.operand 64) ≤ beNat (j.operand 32)) : arithRows j odd f = runBad stOperandRange 1 := by rw [arithRows_A j odd f h3 ho, if_pos ha]

theorem arithRows_good (j : Job) (odd : Bool) (f : Nat → Nat → RunOut) (h3 : 3 ≤ beNat (j.operand 64)) (ho : odd = true → beNat (j.operand 64) % 2 = 1)
    (ha : beNat (j.operand 32) < beNat (j.operand 64)) : arithRows j odd f = f (beNat (j.operand 32)) (beNat (j.operand 64)) := by
  rw [arithRows_A j odd f h3 ho, if_neg (Nat.not_le.mpr ha)]

theorem arithTwo_good (j : Job) (odd : Bool) (f : Nat → Nat → Nat → Nat) (h3 : 3 ≤ beNat (j.operand 64)) (ho : odd = true → beNat (j.operand 64) % 2 = 1)
    (ha : beNat (j.operand 32) < beNat (j.operand 64)) (hb : beNat (j.operand 48) < beNat (j.operand 64)) :
    arithTwo j odd f = arithOut j (f (beNat (j.operand 32)) (beNat (j.operand 48)) (beNat (j.operand 64))) := by
  rw [arithTwo, arithRows_good j odd _ h3 ho ha]
  exact if_neg (Nat.not_le.mpr hb)

theorem arithTwo_modulus (j : Job) (odd : Bool) (f : Nat → Nat → Nat → Nat) (h : beNat (j.operand 64) < 3 ∨ (odd = true ∧ beNat (j.operand 64) % 2 = 0)) :
    arithTwo j odd f = runBad stOperandRange 3 := arithRows_modulus j odd _ h

theorem arithTwo_badA (j : Job) (odd : Bool) (f : Nat → Nat → Nat → Nat) (h3 : 3 ≤ beNat (j.operand 64)) (ho : odd = true → beNat (j.operand 64) % 2 = 1)
    (ha : beNat (j.operand 64) ≤ beNat (j.operand 32)) : arithTwo j odd f = runBad stOperandRange 1 := arithRows_bad j odd _ h3 ho ha

theorem arithTwo_badB (j : Job) (odd : Bool) (f : Nat → Nat → Nat → Nat) (h3 : 3 ≤ beNat (j.operand 64)) (ho : odd = true → beNat (j.operand 64) % 2 = 1)
    (ha : beNat (j.operand 32) < beNat (j.operand 64)) (hb : beNat (j.operand 64) ≤ beNat (j.operand 48)) :
    arithTwo j odd f = runBad stOperandRange 2 := by
  rw [arithTwo, arithRows_good j odd _ h3 ho ha]
  exact if_pos hb

theorem modSub_lt (a b m : Nat) (hb : b < m) : modSub a b m = (a + m - b) % m := by rw [modSub, Nat.mod_eq_of_lt hb]

/-- Settles O30: each opcode by its rows and its arithmetic. -/
theorem modularOpcodesComputeResidues : Obligations.ModularOpcodesComputeResidues := by
  intro s id w j a b m n hj ha hm hn hb
  subst ha hm hn hb
  refine ⟨fun h h3 ha hb => ok_engOp hj h ?_, fun h h3 ha hb => ok_engOp hj h ?_, fun h h3 hodd ha hb => ok_engOp hj h ?_,
    fun h h3 hodd ha hpos hg => ok_engOp hj h ?_, fun e h h3 hodd ha he => ok_engOp hj h ?_, fun p q dp dq qi h hp hq hdp hdq hqi ha => ok_engOp hj h ?_⟩
  · exact arithTwo_good j false _ h3 (fun h => absurd h (by decide)) ha hb
  · rw [runModSub, arithTwo_good j false _ h3 (fun h => absurd h (by decide)) ha hb, modSub_lt _ _ _ hb]
    rfl
  · exact arithTwo_good j true _ h3 (fun _ => hodd) ha hb
  · rw [runModInv, arithRows_good j true _ h3 (fun _ => hodd) ha, if_neg (Nat.pos_iff_ne_zero.mp hpos), if_neg (not_not_intro hg)]
    rfl
  · have hexp : beNat (if j.keyExp then j.key else j.operand 48) = e := by
      rw [he]
      exact apply_ite beNat _ _ _
    rw [runModExp, arithRows_good j true _ h3 (fun _ => hodd) ha, hexp]
    rfl
  · rw [hp, hq] at ha
    subst hp hq hdp hdq hqi
    exact if_neg (Nat.not_le.mpr ha)

/-- Settles O31. -/
theorem operandsOutOfRangeAreNamed : Obligations.OperandsOutOfRangeAreNamed := by
  intro s id w j a b m ends hj ha hm hb hends
  subst ha hm hb hends
  have hany : false = true → beNat (j.operand 64) % 2 = 1 := fun h => absurd h (by decide)
  refine ⟨fun h => ⟨fun h3 => ok_engOp hj h ?_, fun h3 ha => ok_engOp hj h ?_, fun h3 ha hb => ok_engOp hj h ?_⟩,
    fun h => ⟨fun h3 => ok_engOp hj h ?_, fun h3 ha => ok_engOp hj h ?_, fun h3 ha hb => ok_engOp hj h ?_⟩,
    fun h => ⟨fun h3 => ok_engOp hj h ?_, fun h3 ho ha => ok_engOp hj h ?_, fun h3 ho ha hb => ok_engOp hj h ?_⟩,
    fun h => ⟨fun h3 => ok_engOp hj h ?_, fun h3 ho ha => ok_engOp hj h ?_, fun h3 ho ha => ok_engOp hj h ?_, fun h3 ho hpos ha hg => ok_engOp hj h ?_⟩,
    fun h => ⟨fun h3 => ok_engOp hj h ?_, fun h3 ho ha => ok_engOp hj h ?_⟩, fun h ha => ok_engOp hj h (if_pos ha)⟩
  · exact arithTwo_modulus j false _ (.inl h3)
  · exact arithTwo_badA j false _ h3 hany ha
  · exact arithTwo_badB j false _ h3 hany ha hb
  · exact arithTwo_modulus j false _ (.inl h3)
  · exact arithTwo_badA j false _ h3 hany ha
  · exact arithTwo_badB j false _ h3 hany ha hb
  · exact arithTwo_modulus j true _ (h3.imp_right (⟨rfl, ·⟩))
  · exact arithTwo_badA j true _ h3 (fun _ => ho) ha
  · exact arithTwo_badB j true _ h3 (fun _ => ho) ha hb
  · exact arithRows_modulus j true _ (h3.imp_right (⟨rfl, ·⟩))
  · exact arithRows_bad j true _ h3 (fun _ => ho) ha
  · exact (arithRows_good j true _ h3 (fun _ => ho) (by omega)).trans (if_pos ha)
  · exact (arithRows_good j true _ h3 (fun _ => ho) ha).trans ((if_neg (Nat.pos_iff_ne_zero.mp hpos)).trans (if_pos hg))
  · exact arithRows_modulus j true _ (h3.imp_right (⟨rfl, ·⟩))
  · exact arithRows_bad j true _ h3 (fun _ => ho) ha

-- Curves (R345, R357, R358)

theorem runEcKeygen_weierstrass (j : Job) (h : j.param = 1 ∨ j.param = 2) : runEcKeygen j
    = { outs := [(80, (curveOf j.param).pub ((curveOf j.param).scalar j.drawn))], entry := beBytes (curveOf j.param).len ((curveOf j.param).scalar j.drawn) } := by
  rcases h with h | h <;> simp only [runEcKeygen, h]

theorem runEcdh_weierstrass (j : Job) (q : JPoint) (h : j.param = 1 ∨ j.param = 2) (hq : (curveOf j.param).decode (j.operand 32) = .ok q) :
    runEcdh j = sharedOut j 80 [] (((curveOf j.param).enc (jMul (curveOf j.param).p (beNat j.key) q)).take (curveOf j.param).len) := by
  have h3 : j.param ≠ 3 := by omega
  simp only [runEcdh, h3, if_false, hq]

theorem sharedOut_key (j : Job) (d : Nat) (rest : List (Nat × Bytes)) (z : Bytes) (h : j.toKey = true) : sharedOut j d rest z = { outs := rest, entry := z } := by
  rw [sharedOut, if_pos h]

theorem sharedOut_mem (j : Job) (d : Nat) (rest : List (Nat × Bytes)) (z : Bytes) (h : j.toKey = false) : sharedOut j d rest z = { outs := rest ++ [(d, z)] } := by
  rw [sharedOut, if_neg (by simp [h])]

/-- A verification whose point decodes judges R and S, then the signature. -/
theorem runEcdsaVerify_point (j : Job) (q : JPoint) (hq : (curveOf j.param).decode (j.operand 48) = .ok q) (r t : Nat)
    (hr : r = beNat ((j.operand 64).take (curveOf j.param).len)) (ht : t = beNat ((j.operand 64).drop (curveOf j.param).len)) :
    runEcdsaVerify j = (if r = 0 ∨ (curveOf j.param).n ≤ r ∨ t = 0 ∨ (curveOf j.param).n ≤ t then runBad stAuthFail 0x11
      else if (curveOf j.param).verify q (j.operand 32) r t then {} else runBad stAuthFail 0x10) := by
  subst hr ht
  simp only [runEcdsaVerify, hq]

/-- Settles O33. -/
theorem curveOpcodesSignAndAgree : Obligations.CurveOpcodesSignAndAgree := by
  refine fun s id w j hj => ⟨fun h => ⟨fun c hc hp => ok_engOp hj h ?_, fun hp => ok_engOp hj h ?_, fun hp => ok_engOp hj h ?_⟩,
    fun c g h hc hg h1 h2 => ok_engOp hj h ?_, fun c q r t h hc hq hr ht => ⟨fun h1 h2 h3 h4 hv => ok_engOp hj h ?_, fun h1 h2 h3 h4 hv => ok_engOp hj h ?_,
      fun hbad => ok_engOp hj h ?_⟩, fun z h hp hz => ⟨fun h0 => ok_engOp hj h ?_, fun h0 hk => ok_engOp hj h ?_, fun h0 hk => ok_engOp hj h ?_⟩,
    fun c q z h hp hc hq hz => ⟨fun hk => ok_engOp hj h ?_, fun hk => ok_engOp hj h ?_⟩, fun h => ok_engOp hj h rfl, fun v h hv => ok_engOp hj h ?_⟩
  · rw [hc, runEcKeygen_weierstrass j hp]
  · simp only [runEcKeygen, hp]
  · simp only [runEcKeygen, hp]
  · subst hc hg
    exact if_neg (by simp [h1, h2])
  · subst hc
    rw [runEcdsaVerify_point j q hq r t hr ht, if_neg (by omega), if_pos hv]
  · subst hc
    rw [runEcdsaVerify_point j q hq r t hr ht, if_neg (by omega), if_neg (by simp [hv])]
    rfl
  · subst hc
    rw [runEcdsaVerify_point j q hq r t hr ht, if_pos hbad]
    rfl
  · simp only [runEcdh, hp, if_true, ← hz, h0]
    rfl
  · simp only [runEcdh, hp, if_true, ← hz, h0, if_false, sharedOut_mem j _ _ _ hk, List.nil_append]
  · simp only [runEcdh, hp, if_true, ← hz, h0, if_false, sharedOut_key j _ _ _ hk]
  · subst hc hz
    rw [runEcdh_weierstrass j q hp hq, sharedOut_mem j _ _ _ hk, List.nil_append]
  · subst hc hz
    rw [runEcdh_weierstrass j q hp hq, sharedOut_key j _ _ _ hk]
  · rw [hv]
    rfl

-- Lattices (R345, R355, R358)

/-- The coefficients of a polynomial job by its ring. -/
theorem runPoly_eq (j : Job) (n q : Nat) (h : (j.param = 0x31 ∧ n = 2 ∧ q = qKem) ∨ (j.param = 0x32 ∧ n = 4 ∧ q = qDsa)) :
    runPoly j = (if ((coeffs n (j.operand 32) ++ if 2 ≤ j.curveSub then coeffs n (j.operand 48) else []).any (fun x => decide (q ≤ x))) = true
      then runBad stOperandRange 1
      else { outs := [(80, ((polyOp j.param j.curveSub (coeffs n (j.operand 32)) (if 2 ≤ j.curveSub then coeffs n (j.operand 48) else [])).map (leBytes n)).flatten)] }) := by
  rcases h with ⟨hp, rfl, rfl⟩ | ⟨hp, rfl, rfl⟩
  · simp only [runPoly, hp, if_true]
  · have hne : j.param ≠ 0x31 := by rw [hp]; decide
    simp only [runPoly, hne, if_false]

/-- Settles O34. -/
theorem latticeOpcodesFollowTheirStandards : Obligations.LatticeOpcodesFollowTheirStandards := by
  refine fun s id w j hj => ⟨fun r h hr => ok_engOp hj h ?_, fun r h hek hr => ⟨fun hk => ok_engOp hj h ?_, fun hk => ok_engOp hj h ?_⟩,
    fun z h hz => ⟨fun hk => ok_engOp hj h ?_, fun hk => ok_engOp hj h ?_⟩, fun r h hr => ok_engOp hj h ?_, fun h => ok_engOp hj h ?_, fun v h hv => ok_engOp hj h ?_,
    fun n q a b h hp ha hb => ⟨fun hin => ok_engOp hj h ?_, fun hout => ok_engOp hj h ?_⟩⟩
  · rw [hr, runKemKeygen]
  · simp only [runKemEncaps, hek, ← hr, Bool.not_true, Bool.false_eq_true, if_false, sharedOut_mem j _ _ _ hk]
    rfl
  · simp only [runKemEncaps, hek, ← hr, Bool.not_true, Bool.false_eq_true, if_false, sharedOut_key j _ _ _ hk]
  · rw [runKemDecaps, ← hz, sharedOut_mem j _ _ _ hk, List.nil_append]
  · rw [runKemDecaps, ← hz, sharedOut_key j _ _ _ hk]
  · rw [hr, runDsaKeygen]
  · rw [runDsaSign] <;> rfl
  · rw [hv]
    rfl
  · subst ha hb
    rw [runPoly_eq j n q hp, if_neg]
    simpa only [List.any_eq_true, decide_eq_true_iff, not_exists, not_and, Nat.not_le] using hin
  · subst ha hb
    rw [runPoly_eq j n q hp, if_pos]
    · rfl
    · simpa only [List.any_eq_true, decide_eq_true_iff] using hout

end Sys2Proof.Machine
end

section
/-! PROOF. The phases of an engine, its load and its registers (O35 to O37). -/

namespace Sys2Proof.Machine

-- The state of an engine

theorem State.modEngine_congr (s : State) (w : Nat) (f g : Engine → Engine) (h : f (s.engine w) = g (s.engine w)) : s.modEngine w f = s.modEngine w g := by
  rw [State.modEngine, State.modEngine, h]

-- The start of a run and the end of its datapaths (R320, R332, R336)

theorem runStart_full (s : State) (w : Nat) (j : Job) (hserv : s.serving = true) (hv : s.alarms.verifying = false)
    (hj : (s.engine w).staged.bind s.liveJob = some j) (hf : (s.engine w).loadFull = true) (hr : (s.engine w).running = none) (hw : (s.engine w).wiping = none) :
    runStart s w = (s.modEngine w (fun e => { e with
        staged := none, loadFull := false, running := some j.id, rs := s.mono, rt := jobRt j s.engines.inForce 1, floorRun := s.engines.inForce
        ends := [], agrees := [], block := 1 })).modJob j.id (fun k => { k with
          rtNs := jobRt j s.engines.inForce 1, floor := s.engines.inForce, blocks := if j.opcode = 0x4A then 1 else 0 }) := by
  simp [runStart, hj, hf, Engine.free, hr, hw, hv, hserv]

theorem datapathDone_ends (s : State) (w : Nat) (j : Job) (agree : Bool) (hv : s.alarms.verifying = false) (hj : runJob s w = some j) (hr : j.ran.isSome = true)
    (h : j.opcode ≠ 0x4A ∧ (s.engine w).ends = [] ∨ j.opcode = 0x4A ∧ (s.engine w).ends.length < 16) :
    datapathDone s w agree = s.modEngine w (fun e => { e with ends := e.ends ++ [s.mono], agrees := e.agrees ++ [agree] }) := by
  have hran : j.ran.isNone = false := by
    cases hj : j.ran with
    | none => simp [hj] at hr
    | some r => rfl
  rcases h with ⟨ho, he⟩ | ⟨ho, he⟩
  · simp [datapathDone, hj, hran, hv, he]
  · simp [datapathDone, hj, hran, hv, ho, Nat.not_le.mpr he]

-- Release ticks (R334, R339, R356)

/-- The slack that an end before its tick leaves. -/
def noteSlack (s : State) (w : Nat) (t tick : Stamp) : State := s.modEngine w (fun x => { x with slackMin := min x.slackMin ((tick - t) / nsUnit) })

theorem endedBy_of (e : Engine) (b : Nat) (t tick : Stamp) (h : e.ends[b - 1]? = some t) (ht : t ≤ tick) : endedBy e b tick = true := by
  simp [endedBy, h, ht]

theorem expiredAt_false (j : Job) (tick : Stamp) (h : ∀ d, j.deadline = some d → tick ≤ d) : j.expiredAt tick = false := by
  unfold Job.expiredAt
  cases hd : j.deadline with
  | none => rfl
  | some d => exact decide_eq_false (Nat.not_lt.mpr (h d hd))

theorem expiredAt_true (j : Job) (d tick : Stamp) (hd : j.deadline = some d) (h : d < tick) : j.expiredAt tick = true := by
  simp only [Job.expiredAt, hd]
  exact decide_eq_true h

/-- A block that ended in time is released with the outcome of the first row that matches. -/
theorem releaseAt_ended (s : State) (w : Nat) (j : Job) (tick t : Stamp) (b : Nat) (h : (s.engine w).ends[b - 1]? = some t) (ht : t ≤ tick) :
    releaseAt s w j tick b
      = (let fault := ((s.engine w).agrees.take b).contains false
        let out := if j.expiredAt tick then (stTimeout, 2) else if fault then (stFaultDetected, 0)
          else if j.opcode = 0x4A ∧ (j.ran.getD (0, 0)).1 = stOk ∧ b < j.accepted then (stInternal, 5) else j.ran.getD (0, 0)
        let u := release (noteSlack (chargeBlocks s j (s.engine w).floorRun b) w t tick) w j out.1 out.2
        if fault then countFault u w j else u) := by
  have he := endedBy_of (s.engine w) b t tick h ht
  simp only [releaseAt, he, h, ht, if_true, Bool.true_and, Bool.not_true, Bool.false_eq_true, if_false, noteSlack]
  cases j.ran <;> rfl

/-- One that has not ended is LATE, and an alarm. -/
theorem releaseAt_late (s : State) (w : Nat) (j : Job) (tick : Stamp) (b : Nat) (h : (s.engine w).ends[b - 1]? = none) (hd : j.expiredAt tick = false) :
    releaseAt s w j tick b = raisesA ((release (chargeBlocks s j (s.engine w).floorRun b) w j stLate 0).modEngine w
      (fun x => { x with cntLate := satInc 32 x.cntLate })) j 0x0A w := by
  have he : endedBy (s.engine w) b tick = false := by simp [endedBy, h]
  simp only [releaseAt, he, h, hd, Bool.false_and, Bool.not_false, Bool.false_eq_true, if_false, if_true]

theorem chargeBlocks_other (s : State) (j : Job) (floor b : Nat) (h : j.opcode ≠ 0x4A) : chargeBlocks s j floor b = s := by
  simp [chargeBlocks, h]

/-- The tick of any other job than a signature that has come, its datapaths ended. -/
theorem releaseTick_ended (s : State) (w : Nat) (j : Job) (t tick : Stamp) (r : Nat × Nat) (hv : s.alarms.verifying = false) (hj : runJob s w = some j)
    (ho : j.opcode ≠ 0x4A) (htick : tick = (s.engine w).rs + (s.engine w).rt * 2 ^ 16) (hdue : tick ≤ s.time.mono) (hr : j.ran = some r)
    (h : (s.engine w).ends = [t]) (ht : t ≤ tick) :
    releaseTick s w
      = (let fault := ((s.engine w).agrees.take 1).contains false
        let out := if j.expiredAt tick then (stTimeout, 2) else if fault then (stFaultDetected, 0) else r
        let u := release (noteSlack s w t tick) w j out.1 out.2
        if fault then countFault u w j else u) := by
  have h0 : (s.engine w).ends[1 - 1]? = some t := by simp [h]
  have hdec : tickDecides s w j tick 1 = true := by
    have : s.due tick = true := decide_eq_true hdue
    simp [tickDecides, this, endedBy_of _ 1 t tick h0 ht]
  have hno : ¬ (j.opcode = 0x4A ∨ (!tickDecides s w j tick 1) = true ∨ s.alarms.verifying = true) := by simp [ho, hdec, hv]
  have htick' : (s.engine w).rs + (s.engine w).rt * nsUnit = tick := htick.symm
  simp only [releaseTick, hj, htick', hno, if_false]
  rw [releaseAt_ended s w j tick t 1 h0 ht, chargeBlocks_other s j _ _ ho, hr]
  simp only [ho, false_and, if_false, Option.getD_some]

theorem releaseTick_late (s : State) (w : Nat) (j : Job) (tick : Stamp) (hv : s.alarms.verifying = false) (hj : runJob s w = some j)
    (ho : j.opcode ≠ 0x4A) (htick : tick = (s.engine w).rs + (s.engine w).rt * 2 ^ 16) (hpast : tick < s.time.mono) (h : (s.engine w).ends = [])
    (hd : j.expiredAt tick = false) : releaseTick s w
      = raisesA ((release s w j stLate 0).modEngine w (fun x => { x with cntLate := satInc 32 x.cntLate })) j 0x0A w := by
  have hdec : tickDecides s w j tick 1 = true := by
    have : s.past tick = true := decide_eq_true hpast
    simp [tickDecides, this]
  have hno : ¬ (j.opcode = 0x4A ∨ (!tickDecides s w j tick 1) = true ∨ s.alarms.verifying = true) := by simp [ho, hdec, hv]
  have htick' : (s.engine w).rs + (s.engine w).rt * nsUnit = tick := htick.symm
  simp only [releaseTick, hj, htick', hno, if_false]
  rw [releaseAt_late s w j tick 1 (by simp [h]) hd, chargeBlocks_other s j _ _ ho]

/-- A signature's job at the tick of the block in progress. -/
def atBlock (e : Engine) (k : Job) (rt : Nat) : Job := { k with rtNs := rt, blocks := e.block }

/-- The blocks up to `b` accept the signature. -/
def acceptsBy (j : Job) (b : Nat) : Bool :=
  match j.ran with
  | some (st, _) => st == stOk && decide (j.accepted ≤ b)
  | none => false

theorem blockTick_of (s : State) (w : Nat) (j : Job) (rt : Nat) (tick : Stamp) (hj : runJob s w = some j)
    (hrt : rt = jobRt j (s.engine w).floorRun (s.engine w).block) (htick : tick = (s.engine w).rs + rt * nsUnit) : blockTick s w
      = (if j.opcode ≠ 0x4A ∨ !tickDecides s w j tick (s.engine w).block ∨ s.alarms.verifying then s
        else if ((atBlock (s.engine w) j rt).expiredAt tick || !endedBy (s.engine w) (s.engine w).block tick
            || acceptsBy (atBlock (s.engine w) j rt) (s.engine w).block || (s.engine w).block == 16) = true then
          releaseAt (s.modJob j.id (atBlock (s.engine w) · rt)) w (atBlock (s.engine w) j rt) tick (s.engine w).block
        else (s.modJob j.id (atBlock (s.engine w) · rt)).modEngine w (fun e => { e with
          block := (s.engine w).block + 1, rt := jobRt (atBlock (s.engine w) j rt) e.floorRun ((s.engine w).block + 1) })) := by
  subst htick hrt
  unfold blockTick
  rw [hj]
  rfl

/-- The tick of a block of a signature that ended in time, before its deadline and below the last block: it is the accepting one, or the next follows. -/
theorem blockTick_ended (s : State) (w : Nat) (j : Job) (t tick : Stamp) (rt : Nat) (hv : s.alarms.verifying = false) (hj : runJob s w = some j)
    (ho : j.opcode = 0x4A) (hrt : rt = jobRt j (s.engine w).floorRun (s.engine w).block) (htick : tick = (s.engine w).rs + rt * 2 ^ 16)
    (hd : ∀ d, j.deadline = some d → tick ≤ d) (hdue : tick ≤ s.time.mono) (hb : (s.engine w).block < 16)
    (h : (s.engine w).ends[(s.engine w).block - 1]? = some t) (ht : t ≤ tick) (hr : j.ran = some (0, 0)) :
    blockTick s w = (if j.accepted ≤ (s.engine w).block
      then releaseAt (s.modJob j.id (atBlock (s.engine w) · rt)) w (atBlock (s.engine w) j rt) tick (s.engine w).block
      else (s.modJob j.id (atBlock (s.engine w) · rt)).modEngine w (fun e => { e with
        block := (s.engine w).block + 1, rt := jobRt (atBlock (s.engine w) j rt) e.floorRun ((s.engine w).block + 1) })) := by
  have hended := endedBy_of (s.engine w) _ t tick h ht
  have hdec : tickDecides s w j tick (s.engine w).block = true := by
    have : s.due tick = true := decide_eq_true hdue
    simp [tickDecides, this, hended]
  have hno : ¬ (j.opcode ≠ 0x4A ∨ (!tickDecides s w j tick (s.engine w).block) = true ∨ s.alarms.verifying = true) := by simp [ho, hdec, hv]
  have hexp : (atBlock (s.engine w) j rt).expiredAt tick = false := expiredAt_false j tick hd
  have hlast : ((s.engine w).block == 16) = false := by simpa using Nat.ne_of_lt hb
  have hacc : acceptsBy (atBlock (s.engine w) j rt) (s.engine w).block = decide (j.accepted ≤ (s.engine w).block) := by
    simp [acceptsBy, atBlock, hr]
  rw [blockTick_of s w j rt tick hj hrt htick, if_neg hno, hexp, hended, hlast, hacc]
  simp only [Bool.not_true, Bool.or_false, Bool.false_or, decide_eq_true_iff]

theorem blockTick_next (s : State) (w : Nat) (j : Job) (t tick : Stamp) (rt : Nat) (hv : s.alarms.verifying = false) (hj : runJob s w = some j)
    (ho : j.opcode = 0x4A) (hrt : rt = jobRt j (s.engine w).floorRun (s.engine w).block) (htick : tick = (s.engine w).rs + rt * 2 ^ 16)
    (hd : ∀ d, j.deadline = some d → tick ≤ d) (hdue : tick ≤ s.time.mono) (hb : (s.engine w).block < 16)
    (h : (s.engine w).ends[(s.engine w).block - 1]? = some t) (ht : t ≤ tick) (hr : j.ran = some (0, 0)) (ha : (s.engine w).block < j.accepted) :
    blockTick s w = (s.modJob j.id (atBlock (s.engine w) · rt)).modEngine w (fun e => { e with
        block := (s.engine w).block + 1, rt := jobRt (atBlock (s.engine w) j rt) e.floorRun ((s.engine w).block + 1) }) := by
  rw [blockTick_ended s w j t tick rt hv hj ho hrt htick hd hdue hb h ht hr, if_neg (Nat.not_le.mpr ha)]

theorem blockTick_accepts (s : State) (w : Nat) (j : Job) (t tick : Stamp) (rt : Nat) (hv : s.alarms.verifying = false) (hj : runJob s w = some j)
    (ho : j.opcode = 0x4A) (hrt : rt = jobRt j (s.engine w).floorRun (s.engine w).block) (htick : tick = (s.engine w).rs + rt * 2 ^ 16)
    (hd : ∀ d, j.deadline = some d → tick ≤ d) (hdue : tick ≤ s.time.mono) (hb : (s.engine w).block < 16)
    (h : (s.engine w).ends[(s.engine w).block - 1]? = some t) (ht : t ≤ tick) (hr : j.ran = some (0, 0)) (ha : j.accepted ≤ (s.engine w).block)
    (hf : ((s.engine w).agrees.take (s.engine w).block).contains false = false) :
    blockTick s w = release (noteSlack (chargeBlocks (s.modJob j.id (atBlock (s.engine w) · rt)) (atBlock (s.engine w) j rt) (s.engine w).floorRun
      (s.engine w).block) w t tick) w (atBlock (s.engine w) j rt) 0 0 := by
  have hexp : (atBlock (s.engine w) j rt).expiredAt tick = false := expiredAt_false j tick hd
  have hacc : ¬ (s.engine w).block < (atBlock (s.engine w) j rt).accepted := Nat.not_lt.mpr ha
  have hran : (atBlock (s.engine w) j rt).ran = some (0, 0) := hr
  rw [blockTick_ended s w j t tick rt hv hj ho hrt htick hd hdue hb h ht hr, if_pos ha]
  refine (releaseAt_ended (s.modJob j.id (atBlock (s.engine w) · rt)) w (atBlock (s.engine w) j rt) tick t (s.engine w).block h ht).trans ?_
  have hf' : (((s.modJob j.id (atBlock (s.engine w) · rt)).engine w).agrees.take (s.engine w).block).contains false = false := hf
  simp only [hf', hexp, hacc, and_false, Bool.false_eq_true, if_false, hran, Option.getD_some]
  rfl

-- Wipes (R321)

theorem wipeDone_of (s : State) (w : Nat) (clean : Bool) (id seat : Nat) (h : (s.engine w).wipeOf = some (id, seat)) :
    wipeDone s w clean = if clean then s.modEngine w Engine.wiped else alarmA (keepOutcome (s.modEngine w Engine.wiped) id) 0x0B w seat := by
  simp only [wipeDone, h]

theorem wipeDone_memory (s : State) (w : Nat) (clean : Bool) (id : Nat) (h : (s.engine w).wiping = some id) :
    wipeDone s w clean = if clean then s.modEngine w (fun e => { e with wiping := none })
      else alarmA (keepOutcome (s.modEngine w (fun e => { e with wiping := none })) id) 0x0B w (s.engine w).wipeSeat := by
  rw [wipeDone_of s w clean id _ (by rw [Engine.wipeOf, h]), State.modEngine_congr s w Engine.wiped (fun e => { e with wiping := none })]
  simp [Engine.wiped, h]

theorem wipeDone_stage (s : State) (w : Nat) (clean : Bool) (id : Nat) (hm : (s.engine w).wiping = none) (h : (s.engine w).stageWipe = some id) :
    wipeDone s w clean = if clean then s.modEngine w (fun e => { e with stageWipe := none })
      else alarmA (keepOutcome (s.modEngine w (fun e => { e with stageWipe := none })) id) 0x0B w (s.engine w).stageSeat := by
  rw [wipeDone_of s w clean id _ (by rw [Engine.wipeOf, hm, h]), State.modEngine_congr s w Engine.wiped (fun e => { e with stageWipe := none })]
  simp [Engine.wiped, hm]

theorem wipeDone_none (s : State) (w : Nat) (clean : Bool) (hm : (s.engine w).wiping = none) (h : (s.engine w).stageWipe = none) : wipeDone s w clean = s := by
  simp only [wipeDone, Engine.wipeOf, hm, h]

/-- A command whose result waiting work follows. -/
theorem ok_carryAll {t u : State} (h : t = u) : ok (carryAll t) = .next (carryAll u) := by rw [h, ok]

/-- The commands of an engine, by its wing. -/
theorem exec_engine (s : State) (w : Nat) (hw : w < 8) : exec (.runStart w) s = ok (carryAll (runStart s w))
    ∧ (∀ a, exec (.datapathDone w a) s = ok (fin (datapathDone s w a))) ∧ exec (.releaseTick w) s = ok (carryAll (releaseTick s w))
    ∧ exec (.mldsaBlockTick w) s = ok (carryAll (blockTick s w)) ∧ (∀ c, exec (.wipeDone w c) s = ok (carryAll (wipeDone s w c)))
    ∧ exec (.engineLoad w) s = ok (fin (engLoad s w)) := by
  have hm : w % 8 = w := Nat.mod_eq_of_lt hw
  have h : exec (.runStart w) s = ok (carryAll (runStart s (w % 8))) ∧ (∀ a, exec (.datapathDone w a) s = ok (fin (datapathDone s (w % 8) a)))
      ∧ exec (.releaseTick w) s = ok (carryAll (releaseTick s (w % 8))) ∧ exec (.mldsaBlockTick w) s = ok (carryAll (blockTick s (w % 8)))
      ∧ (∀ c, exec (.wipeDone w c) s = ok (carryAll (wipeDone s (w % 8) c))) ∧ exec (.engineLoad w) s = ok (fin (engLoad s (w % 8))) :=
    ⟨rfl, fun _ => rfl, rfl, rfl, fun _ => rfl, rfl⟩
  rwa [hm] at h

/-- Settles O35. -/
theorem enginesRunInPhases : Obligations.EnginesRunInPhases := by
  intro s w e hw he
  subst he
  obtain ⟨hstart, hdata, htick, hblock, hwipe, -⟩ := exec_engine s w hw
  rw [hstart, htick, hblock]
  simp only [hdata, hwipe]
  refine ⟨fun hv => ⟨fun j hserv hj hf hr hwi => ok_carryAll (runStart_full s w j hserv hv hj hf hr hwi),
    fun j agree hj hr h => by rw [datapathDone_ends s w j agree hv hj hr h, ok]; rfl, fun j r tick hj ho ht hdue hr => ⟨fun t u hends hle hu => ?_,
      fun hends hpast hd => ok_carryAll (releaseTick_late s w j tick hv hj ho ht hpast hends (expiredAt_false j tick hd))⟩,
    fun j k t tick hj ho ht hd hdue hb hends hle hr hk => ?_⟩, fun id u hwi hu => ?_, fun id u hm hwi hu => ?_, fun hm hst clean => ?_⟩
  · have hrel := releaseTick_ended s w j t tick r hv hj ho ht hdue hr hends hle
    subst hu
    refine ⟨fun ha hd => ok_carryAll ?_, fun ha d hd hlt => ok_carryAll ?_, fun ha hd => ok_carryAll ?_⟩
    · rw [hrel, ha, expiredAt_false j tick hd]
      rfl
    · rw [hrel, ha, expiredAt_true j d tick hd hlt]
      rfl
    · rw [hrel, ha, expiredAt_false j tick hd]
      rfl
  · subst hk
    exact ⟨fun ha => ok_carryAll (blockTick_next s w j t tick _ hv hj ho rfl ht hd hdue hb hends hle hr ha),
      fun ha hf => ok_carryAll (blockTick_accepts s w j t tick _ hv hj ho rfl ht hd hdue hb hends hle hr ha hf)⟩
  · subst hu
    exact ⟨ok_carryAll (wipeDone_memory s w true id hwi), ok_carryAll (wipeDone_memory s w false id hwi)⟩
  · subst hu
    exact ⟨ok_carryAll (wipeDone_stage s w true id hm hwi), ok_carryAll (wipeDone_stage s w false id hm hwi)⟩
  · exact ok_carryAll (wipeDone_none s w clean hm hst)

-- Loads (R221, R318)

/-- Settles O36. -/
theorem enginesLoadTheSchedulersChoice : Obligations.EnginesLoadTheSchedulersChoice := by
  intro s u w k d j hw hserv hv hok hp hs hsw hu hpick hfind
  obtain ⟨-, -, -, -, -, hload⟩ := exec_engine s w hw
  have hgate : (!s.serving || s.alarms.verifying || !s.wingOk w || (s.wing w).power != 2 || (s.engine w).staged.isSome || (s.engine w).stageWipe.isSome) = false := by
    simp [hserv, hv, hok, hp, hs, hsw]
  rw [hload, engLoad, hgate, ok]
  simp only [Bool.false_eq_true, if_false, ← hu, hpick, hfind]

-- Registers (R332, R343, R344, R360)

/-- A read that clears, served: the value goes to the reader and the register clears. -/
theorem ok_clearRead (s : State) (off idle v : Nat) (t : State) (hs : s.served off = true) (hv : engReg s off = v) (ht : engRead (readBack s v) off = t) :
    ok (clearRead s off idle) = .next t := by
  rw [clearRead, hregRead_served s off idle _ hs, hv, ht, ok]

theorem engReg_slack (s : State) (w : Nat) (hw : w < 8) : engReg s (0x60010 + w * 0x1000) = (s.engine w).slackMin := by
  have h1 : 0x60010 + w * 0x1000 < 0x68000 := by omega
  have h2 : (0x60010 + w * 0x1000) % 0x10000 / 0x1000 = w := by omega
  have h3 : (0x60010 + w * 0x1000) % 0x1000 = 0x10 := by omega
  simp only [engReg, h1, if_true, h2, h3]

theorem engRead_slack (s : State) (w : Nat) (hw : w < 8) : engRead s (0x60010 + w * 0x1000) = s.modEngine w (fun e => { e with slackMin := 0xFFFFFFFF }) := by
  have h1 : 0x60010 + w * 0x1000 < 0x68000 := by omega
  have h2 : (0x60010 + w * 0x1000) % 0x10000 / 0x1000 = w := by omega
  have h3 : (0x60010 + w * 0x1000) % 0x1000 = 0x10 := by omega
  simp only [engRead, h1, if_true, h2, h3]

theorem engReg_admit (s : State) (seat : Nat) (h : seat < 1024) : engReg s (0x69004 + seat * 8) = admitSts (s.seat seat) := by
  have h1 : ¬ 0x69004 + seat * 8 < 0x68000 := by omega
  have h2 : ¬ 0x6B000 ≤ 0x69004 + seat * 8 := by omega
  have h3 : 0x69000 ≤ 0x69004 + seat * 8 := by omega
  have h4 : (0x69004 + seat * 8 - 0x69000) / 8 = seat := by omega
  have h5 : (0x69004 + seat * 8) % 8 = 4 := by omega
  simp only [engReg, h1, h2, h3, if_true, if_false, h4, h5]
  rfl

theorem engRead_admit (s : State) (seat : Nat) (h : seat < 1024) : engRead s (0x69004 + seat * 8) = s.modSeat seat (fun t => { t with shed := 0 }) := by
  have h1 : ¬ 0x69004 + seat * 8 < 0x68000 := by omega
  have h2 : 0x69004 + seat * 8 ≠ 0x68008 := by omega
  have h3 : 0x69000 ≤ 0x69004 + seat * 8 ∧ 0x69004 + seat * 8 < 0x6B000 ∧ (0x69004 + seat * 8) % 8 = 4 := by omega
  have h4 : (0x69004 + seat * 8 - 0x69000) / 8 = seat := by omega
  rw [engRead, if_neg h1, if_neg h2, if_pos h3, h4]

/-- Settles O37. -/
theorem engineRegistersSetQueryAndClear : Obligations.EngineRegistersSetQueryAndClear := by
  refine fun s v => ⟨fun hs => ⟨fun h => exec_mgrWrite s _ _ _ hs ?_, fun h => exec_mgrWrite s _ _ _ hs ?_⟩, fun hs => exec_mgrWrite s _ _ _ hs rfl,
    fun w hw hs => ?_, fun hs => ok_clearRead s _ _ _ _ hs rfl rfl, fun seat hseat hs => ?_⟩
  · exact if_neg h
  · exact if_pos h
  · have hm : w % 8 = w := Nat.mod_eq_of_lt hw
    calc exec (.slackRead w) s = ok (clearRead s (0x60010 + w % 8 * 0x1000) 0xFFFFFFFF) := rfl
      _ = _ := by
        rw [hm]
        exact ok_clearRead s _ _ _ _ hs (engReg_slack s w hw) (engRead_slack _ w hw)
  · have hm : seat % 1024 = seat := Nat.mod_eq_of_lt hseat
    calc exec (.admitStsRead seat) s = ok (clearRead s (0x69004 + seat % 1024 * 8) 0) := rfl
      _ = _ := by
        rw [hm]
        exact ok_clearRead s _ _ _ _ hs (engReg_admit s seat hseat) (engRead_admit _ seat hseat)

end Sys2Proof.Machine
end

section
/-! PROOF. Key-management jobs (O38, O39). -/

namespace Sys2Proof.Machine

-- Jobs by their name

theorem State.job?_modJob_other (s : State) (id i : Nat) (f : Job → Job) (hf : ∀ k, (f k).id = k.id) (h : i ≠ id) : (s.modJob id f).job? i = s.job? i := by
  have hcomp : ((fun j : Job => j.id == i) ∘ fun j => if j.id == id then f j else j) = fun j => j.id == i := by
    funext j
    simp only [Function.comp]
    split
    · rw [hf]
    · rfl
  simp only [State.job?, State.modJob, List.find?_map, hcomp]
  cases hj : s.jobs.find? (fun j => j.id == i) with
  | none => rfl
  | some j =>
    have hi : j.id = i := by simpa using List.find?_some hj
    have hne : (j.id == id) = false := by simpa [hi] using h
    simp only [Option.map_some, hne, Bool.false_eq_true, if_false]

/-- Where no two jobs share a name each is found by its own. -/
theorem job?_of_mem {s : State} {j : Job} (hn : (s.jobs.map (·.id)).Nodup) (hj : j ∈ s.jobs) : s.job? j.id = some j := by
  unfold State.job?
  generalize s.jobs = l at hn hj
  induction l with
  | nil => simp at hj
  | cons k ks ih =>
    rw [List.map_cons, List.nodup_cons] at hn
    rcases List.mem_cons.mp hj with rfl | hmem
    · simp
    · have hne : (k.id == j.id) = false := by
        rw [beq_eq_false_iff_ne]
        intro h
        exact hn.1 (h ▸ List.mem_map_of_mem hmem)
      rw [List.find?_cons, hne]
      exact ih hn.2 hmem

theorem State.mem_of_job? {s : State} {id : Nat} {j : Job} (h : s.job? id = some j) : j ∈ s.jobs := List.mem_of_find?_eq_some h

-- Jobs that fail (R192)

/-- The record of a failed job: its outcome and nothing held. -/
def failedWith (o : Outcome) (s : State) (k : Job) : Job :=
  { k with outcome := some { o with stamp := s.now, at_ := s.mono }, phase := .done, inDone := k.seen, got := [], key := [], drawn := [], inner := [], outer := []
           held := .none, leaseWait := .none, ranIn := jobWing k }

theorem fixOutcome_jobs (s : State) (id : Nat) (j : Job) (o : Outcome) (hj : s.job? id = some j) (ho : j.outcome = none) (ha : alarmNow s = false) :
    (fixOutcome s id o).jobs = (s.modJob id (failedWith o s)).jobs := by
  simp only [fixOutcome, hj, ho, ha, Option.isSome_none, Bool.false_and, Bool.or_self, Bool.false_eq_true, if_false]
  rfl

/-- What a job that failed has left. -/
def quitWith (k : Job) : Job := { k with outs := [], entry := [] }

theorem quit_jobs (s : State) (id : Nat) : (quit s id).jobs = (s.modJob id quitWith).jobs := rfl

/-- A live job that fails has the status and the subcode, whatever else its record says; other jobs stay. -/
theorem failJob_job? (s : State) (id status sub : Nat) (j : Job) (hj : s.job? id = some j) (ho : j.outcome = none) (ha : alarmNow s = false) :
    (∃ k o, (failJob s id status sub).job? id = some k ∧ k.outcome = some o ∧ o.status = status ∧ o.sub = sub)
      ∧ ∀ i, i ≠ id → (failJob s id status sub).job? i = s.job? i := by
  have hfix := fixOutcome_jobs s id j { status := status, sub := sub, result := baseResult s j, softLimit := softNow s j, opf := baseOpf j } hj ho ha
  have hq := quit_jobs (fixOutcome s id { status := status, sub := sub, result := baseResult s j, softLimit := softNow s j, opf := baseOpf j }) id
  have hfail : failJob s id status sub = quit (fixOutcome s id { status := status, sub := sub, result := baseResult s j, softLimit := softNow s j, opf := baseOpf j }) id := by
    simp only [failJob, hj, ho, Option.isSome_none, Bool.false_eq_true, if_false]
  rw [hfail]
  refine ⟨?_, fun i hi => ?_⟩
  · rw [State.job?_of_jobs hq, State.job?_modJob _ _ quitWith (fun _ => rfl), State.job?_of_jobs hfix,
      State.job?_modJob _ _ (failedWith _ s) (fun _ => rfl), hj]
    exact ⟨_, _, rfl, rfl, rfl, rfl⟩
  · rw [State.job?_of_jobs hq, State.job?_modJob_other _ _ _ quitWith (fun _ => rfl) hi, State.job?_of_jobs hfix,
      State.job?_modJob_other _ _ _ (failedWith _ s) (fun _ => rfl) hi]

theorem failJob_done (s : State) (id status sub : Nat) (h : ∀ j, s.job? id = some j → j.outcome ≠ none) : failJob s id status sub = s := by
  unfold failJob
  cases hj : s.job? id with
  | none => rfl
  | some j =>
    cases ho : j.outcome with
    | none => exact absurd ho (h j hj)
    | some o => simp [ho]

theorem alarmNow_of {s t : State} (ha : t.alarms = s.alarms) (ht : t.time = s.time) : alarmNow t = alarmNow s := by
  simp only [alarmNow, ha, State.mono, ht]

theorem failJob_alarmNow (s : State) (id status sub : Nat) : alarmNow (failJob s id status sub) = alarmNow s :=
  alarmNow_of ((failJob_keeps s id status sub).alarms rfl) ((failJob_keeps s id status sub).time rfl)

/-- The job has failed so. -/
def failedAs (s : State) (id status sub : Nat) : Prop := ∃ k o, s.job? id = some k ∧ k.outcome = some o ∧ o.status = status ∧ o.sub = sub

/-- A job that has failed stays so whatever job fails next. -/
theorem failJob_failedAs (s : State) (i id status sub : Nat) (ha : alarmNow s = false) (h : failedAs s id status sub) : failedAs (failJob s i status sub) id status sub := by
  obtain ⟨k, o, hk, ho, hst, hsub⟩ := h
  by_cases hlive : ∃ j, s.job? i = some j ∧ j.outcome = none
  · obtain ⟨j, hj, hjo⟩ := hlive
    obtain ⟨hself, hother⟩ := failJob_job? s i status sub j hj hjo ha
    by_cases hi : id = i
    · exact hi ▸ hself
    · exact ⟨k, o, (hother id hi).trans hk, ho, hst, hsub⟩
  · rw [failJob_done s i status sub (fun j hj hjo => hlive ⟨j, hj, hjo⟩)]
    exact ⟨k, o, hk, ho, hst, hsub⟩

/-- Every live job of a list fails. -/
theorem failJobs_failedAs (l : List Nat) (s : State) (status sub : Nat) (ha : alarmNow s = false) (id : Nat)
    (h : failedAs s id status sub ∨ (id ∈ l ∧ ∃ j, s.job? id = some j ∧ j.outcome = none)) :
    failedAs (l.foldl (fun s id => failJob s id status sub) s) id status sub := by
  induction l generalizing s with
  | nil => simpa using h
  | cons i l ih =>
    refine ih (failJob s i status sub) ((failJob_alarmNow s i status sub).trans ha) ?_
    rcases h with h | ⟨hmem, j, hj, ho⟩
    · exact .inl (failJob_failedAs s i id status sub ha h)
    · by_cases hi : id = i
      · subst hi
        exact .inl (failJob_job? s id status sub j hj ho ha).1
      · by_cases hlive : ∃ k, s.job? i = some k ∧ k.outcome = none
        · obtain ⟨k, hk, hko⟩ := hlive
          exact .inr ⟨List.mem_of_ne_of_mem hi hmem, j, ((failJob_job? s i status sub k hk hko ha).2 id hi).trans hj, ho⟩
        · rw [failJob_done s i status sub (fun k hk hko => hlive ⟨k, hk, hko⟩)]
          exact .inr ⟨List.mem_of_ne_of_mem hi hmem, j, hj, ho⟩

theorem quit_bwk (s : State) (id : Nat) : (quit s id).keys.bwk = s.keys.bwk := rfl

theorem failJob_bwk (s : State) (id status sub : Nat) : (failJob s id status sub).keys.bwk = s.keys.bwk := by
  unfold failJob
  split
  · rfl
  · split
    · rfl
    · exact (quit_bwk _ id).trans (congrArg KeyStore.bwk ((fixOutcome_keeps s id _).keys rfl))

theorem failJobs_bwk (l : List Nat) (s : State) (status sub : Nat) : (l.foldl (fun s id => failJob s id status sub) s).keys.bwk = s.keys.bwk := by
  induction l generalizing s with
  | nil => rfl
  | cons i l ih => exact (ih _).trans (failJob_bwk s i status sub)

-- A unit of the key store (R392, R393, R410)

theorem storeReady_iff (s : State) (j : Job) (op : Nat) (h : storeReady s j op = true) :
    (s.serving = true ∧ s.alarms.verifying = false) ∧ j.opcode = op ∧ j.phase = .store true ∧ seedLate s j = false ∧ (j.late s && !j.committed) = false := by
  simp only [storeReady, State.working, Bool.and_eq_true, Bool.not_eq_true', beq_iff_eq] at h
  obtain ⟨⟨⟨⟨hw, hop⟩, hp⟩, hs⟩, hl⟩ := h
  exact ⟨hw, hop, hp, hs, hl⟩

/-- A job at its unit, in time, does its work. -/
theorem storeOp_ready (s : State) (id op : Nat) (j : Job) (f : State → Job → Ck State) (hj : s.liveJob id = some j) (h : storeReady s j op = true) :
    storeOp s id op f = storeWork s id f := by
  obtain ⟨⟨hserv, hv⟩, hop, hp, hs, hl⟩ := storeReady_iff s j op h
  simp only [storeOp, hj, hserv, hv, hop, hp, inTime, hs, hl, Bool.not_true, bne_self_eq_false, Bool.or_self, Bool.false_eq_true, if_false, if_true]

theorem storeWork_started (s : State) (id : Nat) (j : Job) (f : State → Job → Ck State) (hj : s.liveJob id = some j) (hst : j.started = true) :
    storeWork s id f = runCk s j (f s j) := by
  simp only [storeWork, hj, hst, if_true]

theorem storeWork_starts (s t : State) (id : Nat) (j k : Job) (f : State → Job → Ck State) (hj : s.liveJob id = some j) (hst : j.started = false)
    (hs : startKey s j = .ok t) (hk : t.liveJob id = some k) (hks : k.started = true) : storeWork s id f = runCk t k (f t k) := by
  simp only [storeWork, hj, hst, hs, runCk, Bool.false_eq_true, if_false, hk, hks, if_true]

/-- A command of the key store on a started job whose work passes. -/
theorem ok_storeOp {s t : State} {id op : Nat} {j : Job} {f : State → Job → Ck State} (hj : s.liveJob id = some j) (h : storeReady s j op = true)
    (hst : j.started = true) (hf : f s j = .ok t) : ok (carryAll (storeOp s id op f)) = .next (carryAll t) := by
  rw [storeOp_ready s id op j f hj h, storeWork_started s id j f hj hst, hf, runCk, ok]

/-- One on a job that starts now. -/
theorem ok_storeOp_starts {s t : State} {id op : Nat} {j k : Job} (f : State → Job → Ck State) (hj : s.liveJob id = some j) (hst : j.started = false)
    (hs : startKey s j = .ok t) (hk : t.liveJob id = some k) (hks : k.started = true) (h : storeReady s j op = true) :
    ok (carryAll (storeOp s id op f)) = .next (carryAll (runCk t k (f t k))) := by
  rw [storeOp_ready s id op j f hj h, storeWork_starts s t id j k f hj hst hs hk hks, ok]

-- Keys that are written (R378, R386, R388)

theorem runImport_read (s : State) (j : Job) (b : Bytes) (hb : wholeBuf j 48 = .ok b) :
    (∀ p m, kwpUnwrap j.key b = some p → material (attrAlg j.newAttr) p = some m → runImport s j = .ok (writeNew s j m))
    ∧ (∀ p, kwpUnwrap j.key b = some p → material (attrAlg j.newAttr) p = none → runImport s j = .ok (matFail s j stKeyHandle))
    ∧ (kwpUnwrap j.key b = none → runImport s j = .ok (matFail s j stAuthFail)) := by
  have hrun : runImport s j = (match kwpUnwrap j.key b with
      | none => pure (matFail s j stAuthFail)
      | some m => match material (attrAlg j.newAttr) m with
        | none => pure (matFail s j stKeyHandle)
        | some m => pure (writeNew s j m)) := by
    rw [runImport, hb]
    rfl
  rw [hrun]
  refine ⟨fun p m hp hm => ?_, fun p hp hm => ?_, fun hp => ?_⟩
  · simp only [hp, hm]
    rfl
  · simp only [hp, hm]
    rfl
  · simp only [hp]
    rfl

theorem runDerive_read (s : State) (j : Job) (b i : Bytes) (hb : wholeBuf j 48 = .ok b) (hi : wholeBuf j 64 = .ok i) :
    runDerive s j = .ok (writeNew s j (hkdf j.kHash j.key b i (madeLen (attrAlg j.newAttr)))) := by
  rw [runDerive, hb, hi]
  rfl

/-- KEY_GENERATE draws its material once the random bytes of its seat and its generator allow it. -/
theorem genStart_draws (s : State) (j : Job) (r : State × Bytes) (hop : j.opcode = 0x62) (hrate : (s.seat j.seat).actJ / 2 ^ 16 ≠ 0) (hno : noDraws s = .ok ())
    (hb : madeLen (attrAlg j.newAttr) ≤ (s.seat j.seat).bucket) (hr : tryDraw s j.seat (madeLen (attrAlg j.newAttr)) = some r) :
    genStart s j = .ok (((endWait r.1 j.id).modSeat j.seat (fun t => { t with bucket := t.bucket - madeLen (attrAlg j.newAttr) })).modJob j.id
      (fun k => { k with drawn := r.2, drawDone := true })) := by
  have hck : chk ((s.seat j.seat).actJ / 2 ^ 16 == 0) stQuota 2 = .ok () := by
    simp only [chk, beq_eq_false_iff_ne.mpr hrate, Bool.false_eq_true, if_false]
  have hwait : chkWait s (decide (madeLen (attrAlg j.newAttr) ≤ (s.seat j.seat).bucket)) = .ok () := by
    simp only [chkWait, decide_eq_true hb, if_true]
  rw [genStart, if_pos hop]
  dsimp only
  rw [hck, hno, hwait, hr]
  rfl

/-- Settles O38. -/
theorem keyJobsImportExportGenerateAndDerive : Obligations.KeyJobsImportExportGenerateAndDerive := by
  intro s id j put hj hput
  have hput' (m : Bytes) : writeNew s j m = put m := by
    rw [hput]
    rfl
  refine ⟨fun hst => ⟨fun b h hb => ⟨fun p m hp hm => ?_, fun p hp hm => ?_, fun hp => ?_⟩, fun o h ho => ?_, fun h => ?_, fun b i h hb hi => ?_⟩,
    fun n r hop hn hrate hno hbk hr => ?_, fun t k hst hs hk hks => ⟨ok_storeOp_starts runImport hj hst hs hk hks, ok_storeOp_starts runExport hj hst hs hk hks,
      ok_storeOp_starts runGenerate hj hst hs hk hks, ok_storeOp_starts runDerive hj hst hs hk hks⟩⟩
  · exact ok_storeOp hj h hst (((runImport_read s j b hb).1 p m hp hm).trans (by rw [hput']))
  · exact ok_storeOp hj h hst ((runImport_read s j b hb).2.1 p hp hm)
  · exact ok_storeOp hj h hst ((runImport_read s j b hb).2.2 hp)
  · exact ok_storeOp hj h hst (by rw [runExport, ← ho])
  · exact ok_storeOp hj h hst (by rw [runGenerate, hput'])
  · exact ok_storeOp hj h hst (by rw [runDerive_read s j b i hb hi, hput'])
  · subst hn
    exact genStart_draws s j r hop hrate hno hbk hr

-- Keys that are read, deleted and moved (R369, R389, R390)

theorem runDelete_fresh (s : State) (j : Job) (a : Attr) (hz : j.zeroed = false) (ha : subjectRec s j = .ok a) :
    runDelete s j = .ok (dropSubject (eraseEntry s j a) j) := by
  rw [runDelete, hz, ha]
  rfl

theorem runDelete_zeroed (s : State) (j : Job) (hz : j.zeroed = true) : runDelete s j = .ok (dropSubject s j) := by
  rw [runDelete, hz]
  rfl

theorem runEscrowIn_unwrapped (s : State) (j : Job) (b bwk : Bytes) (hb : wholeBuf j 48 = .ok b) (hk : bwkOf s = some bwk) :
    (kwpUnwrap bwk b = none → runEscrowIn s j = .ok (matFail s j stAuthFail))
    ∧ ∀ t m, kwpUnwrap bwk b = some t → t.length = 32 + fieldLE t 28 4 → attrOk (fieldLE t 0 4) = true → material (attrAlg (fieldLE t 0 4)) (t.drop 32) = some m →
      runEscrowIn s j = .ok (keyOk (writeEntry s j j.seat j.subject (fieldLE t 0 4) (if fieldLE t 4 8 = 0 then 0 else s.secs + fieldLE t 4 8) (fieldLE t 12 8)
        (fieldLE t 20 8) (freshBlob s j) m) j m.length 0) := by
  refine ⟨fun hu => ?_, fun t m hu hl ha hm => ?_⟩
  · rw [runEscrowIn, hb]
    show (match bwkOf s with | none => _ | some bwk => match kwpUnwrap bwk b with | none => _ | some t => _) = _
    rw [hk]
    show (match kwpUnwrap bwk b with | none => _ | some t => _) = _
    rw [hu]
    rfl
  · rw [runEscrowIn, hb]
    show (match bwkOf s with | none => _ | some bwk => match kwpUnwrap bwk b with | none => _ | some t => _) = _
    rw [hk]
    show (match kwpUnwrap bwk b with | none => _ | some t => _) = _
    rw [hu]
    show (match (if t.length = 32 + fieldLE t 28 4 ∧ attrOk (fieldLE t 0 4) = true then material (attrAlg (fieldLE t 0 4)) (t.drop 32) else none) with
      | none => _ | some m => _) = _
    rw [if_pos ⟨hl, ha⟩, hm]
    rfl

/-- ERASE of BWK: the escrow jobs at work fail, others stay (R369, R394). -/
theorem eraseBwk_bwk (s : State) : (eraseBwk s).keys.bwk = none := failJobs_bwk _ _ _ _

theorem eraseBwk_quiet (s : State) (h : ∀ j ∈ s.jobs, escrowJob j = false) : eraseBwk s = { s with keys := { s.keys with bwk := none } } := by
  have hnone : s.jobs.filter escrowJob = [] := List.filter_eq_nil_iff.mpr (fun j hj => by simp [h j hj])
  rw [eraseBwk, hnone]
  rfl

theorem eraseBwk_fails (s : State) (hv : s.alarms.verifying = false) (hn : (s.jobs.map (·.id)).Nodup) (j : Job) (hj : j ∈ s.jobs) (he : escrowJob j = true) :
    failedAs (eraseBwk s) j.id stKeyHandle 0x40 := by
  have ha : alarmNow (s.modKeys (fun k => { k with bwk := none })) = false := by
    show (s.alarms.verifying && _) = false
    rw [hv, Bool.false_and]
  have hlive : j.outcome = none := by
    simp only [escrowJob, Bool.and_eq_true, Option.isNone_iff_eq_none] at he
    exact he.1.2
  exact failJobs_failedAs _ _ _ _ ha j.id (.inr ⟨List.mem_map_of_mem (List.mem_filter.mpr ⟨hj, he⟩), j, job?_of_mem hn hj, hlive⟩)

/-- Settles O39. -/
theorem keyJobsDeleteInformRestrictAndEscrow : Obligations.KeyJobsDeleteInformRestrictAndEscrow := by
  refine ⟨fun s id j a bwk hj hst => ⟨fun ha => ⟨fun h hz => ?_, fun h => ?_, fun x l h hx hl => ?_, fun o h hk ho => ?_⟩, fun h hz => ?_,
    fun b h hb hk => ⟨fun t m hu hlen hok hm => ?_, fun hu => ?_⟩⟩, fun s hs => ?_⟩
  · exact ok_storeOp hj h hst (runDelete_fresh s j a hz ha)
  · refine ok_storeOp hj h hst ?_
    rw [runInfo, ha]
    rfl
  · refine ok_storeOp hj h hst ?_
    rw [runRestrict, ha, hx, hl]
    rfl
  · refine ok_storeOp hj h hst ?_
    rw [runEscrowOut, ha, ho]
    show (match bwkOf s with | none => _ | some bwk => _) = _
    rw [hk]
    rfl
  · exact ok_storeOp hj h hst (runDelete_zeroed s j hz)
  · exact ok_storeOp hj h hst ((runEscrowIn_unwrapped s j b bwk hb hk).2 t m hu hlen hok hm)
  · exact ok_storeOp hj h hst ((runEscrowIn_unwrapped s j b bwk hb hk).1 hu)
  · refine ⟨eraseBwk s, ?_, eraseBwk_bwk s, eraseBwk_quiet s, fun hv hn j hj he => ?_⟩
    · show execEraseBwk s = _
      rw [execEraseBwk, mgrWrite_served s _ _ hs, ok]
    · obtain ⟨k, o, hk, ho, hst, hsub⟩ := eraseBwk_fails s hv hn j hj he
      exact ⟨k, State.mem_of_job? hk, State.job?_id hk, o, ho, hst, hsub⟩

end Sys2Proof.Machine
end

section
/-! PROOF. Random values: sources, words, the random opcodes and RNG_CMD (O40 to O43). -/

namespace Sys2Proof.Machine

-- Sources (R399 to R405)

/-- A source after the samples of one more block, with the repetition test's state `r` after it. -/
def blockSeen (s : State) (i : Nat) (r : Bool × Nat × Bool) : State :=
  s.modSource i (fun x => { x with lastBit := r.1, run := r.2.1, blockAt := s.mono })

/-- The block of a source in its start-up test or in use, out of rehearsal and with no raw job on it. -/
theorem sourceBlock_tested (s : State) (i : Nat) (v : BitVec 512) (l : List Bool) (r : Bool × Nat × Bool) (hl : l = sampleBits v) (hr : r = rctRun (s.source i) l)
    (hup : s.up = true) (hon : s.entropy.on = true) (hraw : (s.source i).raw = none)
    (hreh : s.entropy.rehearsal = false) (hst : (s.source i).st = 0 ∨ (s.source i).st = 1) :
    sourceBlock s i v = (if (r.2.2 || aptFails l) = true then sourceFails (blockSeen s i r) i
      else if (s.source i).st = 0 then
        (blockSeen s i r).modSource i (fun x => if x.testOk = 0 then { x with testOk := 1 } else { x with testOk := 0, st := 1, consec := 0 })
      else condition ((blockSeen s i r).modSource i (fun x => { x with consec := 0 })) i l) := by
  have hreh' : (blockSeen s i r).entropy.rehearsal = false := hreh
  unfold sourceBlock
  simp only [blockSeen] at hreh'
  rcases hst with h | h
  · simp only [hup, hon, h, hraw, BEq.rfl, Bool.true_or, Bool.and_self, Bool.not_true, Bool.false_eq_true, if_false, Option.isSome_none, if_true, ← hl, ← hr, blockSeen,
      hreh']
  · simp only [hup, hon, h, hraw, BEq.rfl, Bool.true_or, Bool.or_true, Bool.and_self, Bool.not_true, Bool.false_eq_true, if_false, Option.isSome_none, if_true, ← hl, ← hr,
      blockSeen, hreh', Nat.one_ne_zero]

theorem restartDone_early (s : State) (i : Nat) (h : s.time.mono < (s.source i).readyAt) : restartDone s i = s := by
  have hd : s.due (s.source i).readyAt = false := decide_eq_false (Nat.not_le.mpr h)
  simp [restartDone, hd]

theorem restartDone_due (s : State) (i : Nat) (hup : s.up = true) (hon : s.entropy.on = true) (hst : (s.source i).st = 2)
    (h : (s.source i).readyAt ≤ s.time.mono) : restartDone s i
      = s.modSource i (fun x => { x with st := 0, testOk := 0, lastBit := false, run := 0, reg := 0, passed := 0, rawSkip := false, blockAt := s.mono }) := by
  have hd : s.due (s.source i).readyAt = true := decide_eq_true h
  simp [restartDone, hup, hon, hst, hd]

/-- Settles O40. -/
theorem sourceBlocksAreTested : Obligations.SourceBlocksAreTested := by
  intro s u i v x l r hi hup hon hx hl hr hraw hu
  have hm : i % 16 = i := Nat.mod_eq_of_lt hi
  rw [hx] at hr hraw ⊢
  have hu' : u = blockSeen s i r := hu
  have hblock : exec (.sourceBlock i v) s = ok (carryAll (sourceBlock s i v)) := by
    show execSourceBlock i v s = _
    rw [execSourceBlock, hm]
  have hrest : exec (.sourceRestartDone i) s = ok (fin (restartDone s i)) := by
    show execSourceRestartDone i s = _
    rw [execSourceRestartDone, hm]
  rw [hblock, hrest, hu']
  refine ⟨fun hreh hrct hapt => ⟨fun hst => ok_carryAll ?_, fun hst => ok_carryAll ?_⟩, fun hreh hbad hst => ok_carryAll ?_, fun hst hlt => ?_, fun hst hle => ?_⟩
  · rw [sourceBlock_tested s i v l r hl hr hup hon hraw hreh (.inl hst)]
    simp only [hrct, hapt, Bool.or_self, Bool.false_eq_true, if_false, hst, if_true]
  · rw [sourceBlock_tested s i v l r hl hr hup hon hraw hreh (.inr hst)]
    simp only [hrct, hapt, Bool.or_self, Bool.false_eq_true, if_false, hst, Nat.one_ne_zero]
  · have hor : (r.2.2 || aptFails l) = true := by
      rcases hbad with h | h <;> simp [h]
    rw [sourceBlock_tested s i v l r hl hr hup hon hraw hreh (by omega)]
    simp only [hor, if_true]
  · rw [restartDone_early s i hlt, ok]
  · rw [restartDone_due s i hup hon hst hle, ok]
    rfl

-- Words (R405, R407, R408)

/-- The word at the head of the pool goes to generator `i`. -/
def wordGiven (s : State) (i : Nat) (w : Bytes) (rest : List Bytes) : State :=
  { s with entropy := { s.entropy with pool := rest } }.modInst i (fun d => { d with words := d.words ++ [w], want := d.want - 1 })

theorem deliverWord_given (s : State) (i : Nat) (w : Bytes) (rest : List Bytes) (hn : nextWanted s = some i) (hp : s.entropy.pool = w :: rest) :
    deliverWord s = (if ((wordGiven s i w rest).inst i).want = 0 then seedDone (wordGiven s i w rest) i else wordGiven s i w rest) := by
  unfold deliverWord
  simp only [hp, hn]
  rfl

theorem seedDone_inst (s : State) (i : Nat) : ((seedDone s i).inst i).st = 2 ∧ ((seedDone s i).inst i).want = 0 := by
  have h : (seedDone s i).inst i = ((s.modInst i (fun d => { d with
      st := 2, want := 0, reqs := 0, seededAt := s.time.secure, reseed := false, words := [], byJob := false, addl := []
      key := (if (s.inst i).st = 1 then drbgInstantiate (s.inst i).words.flatten (drbgPers s i)
        else drbgReseed (s.inst i).key (s.inst i).v (s.inst i).words.flatten (beBytes 8 s.now ++ (s.inst i).addl)).1
      v := (if (s.inst i).st = 1 then drbgInstantiate (s.inst i).words.flatten (drbgPers s i)
        else drbgReseed (s.inst i).key (s.inst i).v (s.inst i).words.flatten (beBytes 8 s.now ++ (s.inst i).addl)).2 })).inst i) := rfl
  rw [h, State.inst_modInst]
  exact ⟨rfl, rfl⟩

theorem wordDelivery_more (s : State) (i : Nat) (w : Bytes) (rest : List Bytes) (hn : nextWanted s = some i) (hp : s.entropy.pool = w :: rest)
    (hw : ((wordGiven s i w rest).inst i).want ≠ 0) : wordDelivery s = wordGiven s i w rest := by
  have hno : ¬ (((wordGiven s i w rest).inst i).st = 2 ∧ ((wordGiven s i w rest).inst i).want = 0 ∧ (s.inst i).want = 1) := fun h => hw h.2.1
  simp only [wordDelivery, hn, deliverWord_given s i w rest hn hp, if_neg hw, if_neg hno]

theorem wordDelivery_last (s : State) (i : Nat) (w : Bytes) (rest : List Bytes) (hn : nextWanted s = some i) (hp : s.entropy.pool = w :: rest)
    (hw : ((wordGiven s i w rest).inst i).want = 0) (h1 : (s.inst i).want = 1) :
    wordDelivery s = (if (s.inst i).byJob then reseedDone (endWaits (seedDone (wordGiven s i w rest) i) i) i else endWaits (seedDone (wordGiven s i w rest) i) i) := by
  obtain ⟨hst, hwant⟩ := seedDone_inst (wordGiven s i w rest) i
  simp only [wordDelivery, hn, deliverWord_given s i w rest hn hp, if_pos hw, hst, hwant, h1, and_self, if_true]

/-- Settles O41. -/
theorem wordsSeedInstances : Obligations.WordsSeedInstances := by
  refine fun s i hup => ⟨fun w rest t hn hp ht => ?_, fun hi hst hage => ?_, fun hi hst hage => ?_⟩
  · have ht' : t = wordGiven s i w rest := ht
    have hex : exec .wordDelivery s = ok (carryAll (cardGo (tryWants (wordDelivery s)))) := by
      show execWordDelivery s = _
      rw [execWordDelivery, hup, if_pos rfl]
    rw [hex, ht']
    exact ⟨fun hw => ok_carryAll (by rw [wordDelivery_more s i w rest hn hp hw]), fun hw h1 => ok_carryAll (by rw [wordDelivery_last s i w rest hn hp hw h1])⟩
  · have hm : i % 1032 = i := Nat.mod_eq_of_lt hi
    have hcond : (s.up && (s.inst i).st == 2 && decide (900000000 ≤ ageNs s (s.inst i))) = true := by simp [hup, hst, ageNs, hage]
    show execReseedDue i s = _
    rw [execReseedDue, hm, hcond, whenDo_true, ok]
  · have hm : i % 1032 = i := Nat.mod_eq_of_lt hi
    have hcond : (s.up && (s.inst i).st == 2 && decide (1000000000 ≤ ageNs s (s.inst i))) = true := by simp [hup, hst, ageNs, hage]
    show execInstHeld i s = _
    rw [execInstHeld, hm, hcond, whenDo_true, ok]
    rfl

-- The random opcodes (R417, R418, R421)

theorem farmReady_iff (s : State) (j : Job) (op : Nat) (h : farmReady s j op = true) :
    (s.serving = true ∧ s.alarms.verifying = false) ∧ j.opcode = op ∧ (∃ b, j.phase = .farm b) ∧ seedLate s j = false ∧ (j.late s && !j.committed) = false
      ∧ j.hasRead (j.dataRead 32 0 (j.avail 32)) = true ∧ j.reseedWait = false := by
  simp only [farmReady, State.working, Bool.and_eq_true, Bool.not_eq_true', beq_iff_eq, Bool.or_eq_true] at h
  obtain ⟨⟨⟨⟨⟨⟨hw, hop⟩, hp⟩, hs⟩, hl⟩, hr⟩, hwait⟩ := h
  exact ⟨hw, hop, hp.elim (⟨_, ·⟩) (⟨_, ·⟩), hs, hl, hr, hwait⟩

/-- A change of a live job that keeps its name and gives it no outcome. -/
theorem State.liveJob_modJob (s : State) (id : Nat) (f : Job → Job) (j : Job) (hj : s.liveJob id = some j) (hid : ∀ k, (f k).id = k.id) (ho : (f j).outcome = none) :
    (s.modJob id f).liveJob id = some (f j) := by
  rw [State.liveJob_iff, State.job?_modJob s id f hid, ((State.liveJob_iff s id j).mp hj).1]
  exact ⟨rfl, ho⟩

/-- A random job whose additional input is read starts, and does its work where its generator serves it. -/
theorem farmOp_ready (s : State) (id op : Nat) (j : Job) (f : State → Job → State) (hj : s.liveJob id = some j) (h : farmReady s j op = true) (hop : op ≠ 0x52)
    (hd : drawOk (s.modJob id (fun k => { k with started := true })) j.seat = true) :
    farmOp s id op f = f (s.modJob id (fun k => { k with started := true })) { j with started := true } := by
  obtain ⟨⟨hserv, hv⟩, ho, ⟨b, hp⟩, hs, hl, hr, hwait⟩ := farmReady_iff s j op h
  have hlive : (s.modJob id (fun k => { k with started := true })).liveJob id = some { j with started := true } :=
    State.liveJob_modJob s id (fun k => { k with started := true }) j hj (fun _ => rfl) ((State.liveJob_iff s id j).mp hj).2
  simp only [farmOp, hj, hserv, hv, ho, hp, inTime, hs, hl, hr, hop, hlive, hwait, hd, Bool.not_true, bne_self_eq_false, Bool.or_self, Bool.false_eq_true,
    if_false, if_true]

theorem farmOp_raw (s : State) (id : Nat) (j : Job) (f : State → Job → State) (hj : s.liveJob id = some j) (h : farmReady s j 0x52 = true) :
    farmOp s id 0x52 f = f s j := by
  obtain ⟨⟨hserv, hv⟩, ho, ⟨b, hp⟩, hs, hl, -, -⟩ := farmReady_iff s j 0x52 h
  simp only [farmOp, hj, hserv, hv, ho, hp, inTime, hs, hl, Bool.not_true, bne_self_eq_false, Bool.or_self, Bool.false_eq_true, if_false, if_true]

theorem rngNext_part (s t : State) (j : Job) (hpr : j.opBit 15 = true → j.reseeded = true) (hp : partReady s j = true) (ht : farmTake s j = some t) :
    rngNext s j = genPart t j := by
  have hno : (j.opBit 15 && !j.reseeded) = false := by
    cases h : j.opBit 15 with
    | true => simp [hpr h]
    | false => rfl
  simp only [rngNext, hno, hp, ht, Bool.not_true, Bool.false_eq_true, if_false]

theorem askReseed_asks (s : State) (j : Job) (hop : j.opcode = 0x51) (hw : (s.inst j.seat).want = 0) (hc : canSeed s = true) :
    askReseed s j = (reseedRequest s j.seat true (j.dataOf 32 0 (j.avail 32))).modJob j.id (fun k => { k with reseedWait := true, phase := .farm true }) := by
  simp only [askReseed, hw, hc, hop, ne_eq, not_true_eq_false, Bool.not_true, Bool.false_eq_true, or_self, if_false, if_true]

theorem rawStart_free (s : State) (j : Job) (i : Nat) (hi : i = j.fld 16 1 % 16) (hreh : s.entropy.rehearsal = true) (hraw : (s.source i).raw = none) :
    rawStart s j = (s.modSource i (fun x => { x with raw := some j.id, rawSkip := (x.st == 0 || x.st == 1) && x.blockAt != s.mono })).modJob j.id
      (fun k => { k with phase := .farm true }) := by
  subst hi
  simp only [rawStart, hreh, hraw, Option.bind_none, Option.isSome_none, Bool.not_true, Bool.or_self, Bool.false_eq_true, if_false]

/-- Settles O42. -/
theorem randomJobsDrawReseedAndRecord : Obligations.RandomJobsDrawReseedAndRecord := by
  intro s u id j k hj hu hk
  subst hu hk
  refine ⟨fun t h hd hpr hp ht => ok_carryAll ?_, fun h hd hw hc => ok_carryAll ?_, fun i h hi hreh hraw => ok_carryAll ?_⟩
  · exact (farmOp_ready s id 0x50 j rngNext hj h (by decide) hd).trans (rngNext_part _ t _ hpr hp ht)
  · obtain ⟨-, hop, -⟩ := farmReady_iff s j 0x51 h
    exact (farmOp_ready s id 0x51 j askReseed hj h (by decide) hd).trans (askReseed_asks _ _ hop hw hc)
  · exact (farmOp_raw s id j rawStart hj h).trans (rawStart_free s j i hi hreh hraw)

-- RNG_CMD (R419, R422, R424)

theorem rngResult_eq (s : State) (r : Nat) : rngResult s r = vector { s with entropy := { s.entropy with cmdResult := r } } 4 := rfl

theorem enterRehearsal_in (s : State) (h : s.entropy.rehearsal = true) : enterRehearsal s = rngResult s 3 := by rw [enterRehearsal, if_pos h]

theorem enterRehearsal_refused (s : State) (h : s.entropy.rehearsal = false) (ha : authInForce s 1 = false) : enterRehearsal s = rngResult s 1 := by
  simp only [enterRehearsal, h, ha, Bool.false_eq_true, if_false, Bool.not_false, if_true]

theorem enterRehearsal_enters (s : State) (h : s.entropy.rehearsal = false) (ha : authInForce s 1 = true) (u : State)
    (hu : u = failDrawers (zeroAllInst s) (if s.alarms.bActive then stEntropyFailed else stRngRehearsal)) :
    enterRehearsal s = rngResult (endAuth { u with entropy := { u.entropy with rehearsal := true } } 1) 0 := by
  simp only [enterRehearsal, h, ha, Bool.false_eq_true, if_false, Bool.not_true, ← hu]

theorem reviveSources_some (s : State) (mask : Nat) (l : List Nat) (hl : l = (List.range 16).filter (fun i => mask.testBit i && (s.source i).st == 3)) (hne : l ≠ []) :
    reviveSources s mask = rngResult (l.foldl (fun s i => restartSource (s.modSource i (fun x => { x with consec := 0, recent := [] })) i) s) 0 := by
  rw [reviveSources, ← hl, if_neg hne]

/-- Settles O43. -/
theorem entropyCommandsLeaveTheirResult : Obligations.EntropyCommandsLeaveTheirResult := by
  intro s hs
  have cmd (f : State → State) (t : State) (h : f s = t) : ok (carryAll (mgrWrite s 0x40004 f)) = .next (carryAll t) := by
    rw [mgrWrite_served s _ _ hs, h, ok]
  have cmd' (f : State → State) (t : State) (h : f s = t) : ok (fin (mgrWrite s 0x40004 f)) = .next (fin t) := by
    rw [mgrWrite_served s _ _ hs, h, ok]
  refine ⟨fun h => cmd _ _ (enterRehearsal_in s h), fun h ha => cmd _ _ (enterRehearsal_refused s h ha), fun u h ha hu => cmd _ _ ?_, fun u h hu => cmd _ _ ?_,
    fun h => cmd _ _ ?_, fun mask l u hl hne hu => cmd' _ _ ?_, fun u hu => cmd' _ _ ?_⟩
  · rw [enterRehearsal_enters s h ha u hu]
    rfl
  · rw [exitRehearsal, if_pos h, ← hu]
    rfl
  · rw [exitRehearsal, if_neg (by simp [h])]
    rfl
  · rw [reviveSources_some s mask l hl hne, ← hu]
    rfl
  · rw [clearCounts, ← hu]
    rfl

end Sys2Proof.Machine
end

section
/-! PROOF. The packet front: packets in and out, banks, the peer table's rehash and scanner (O44, O45). -/

namespace Sys2Proof.Machine

-- Packets in (R76, R425 to R435)

theorem packetArrive_discards (s : State) (port : Nat) (m : BitVec 128) (b : Bytes) (err : Bool) (hr : pktReady s port = true) (h : err = true ∨ 16384 < b.length) :
    packetArrive s port m b err = s.modFront (fun f => { f with cntDiscard := wrapInc 32 f.cntDiscard }) := by
  have hbad : (err || decide (16384 < b.length)) = true := by
    rcases h with h | h <;> simp [h]
  simp only [packetArrive, hr, hbad, Bool.not_true, Bool.false_eq_true, if_false, if_true]

/-- The packet of a job, as it enters. -/
def pktOf (m : BitVec 128) (b : Bytes) (w : Parse) (e : Nat × Bool × Bool) : Pkt :=
  { metaIn := m, bytes := b, out := b, term := w.kind % 16, off := w.off, fin := w.fin, epoch := e.1, ipv6 := w.v6, sender := w.sender
    port := if w.kind = 9 ∧ 8 ≤ w.off then fieldBE b (w.off - 8) 2 else 0
    assoc := if m.getLsbD 24 then m.toNat % 2 ^ 24 else 0, named := m.getLsbD 24, flags := flag e.2.2 19 }

/-- Its job, the next in order. -/
def pktJob (s : State) (port : Nat) (m : BitVec 128) (p : Pkt) : Job :=
  { id := s.nextJob, src := .packet port, opcode := if m.getLsbD 24 then 0x10 else 0x11, acceptAt := s.stamp, pkt := some p }

theorem packetArrive_parsed (s : State) (port : Nat) (m : BitVec 128) (b : Bytes) (e : Nat × Bool × Bool) (w : Parse) (hr : pktReady s port = true)
    (hlen : b.length ≤ 16384) (he : e = epochOf s m) (hw : w = parse s e.2.1 b) :
    packetArrive s port m b false = parsed
      { s with jobs := s.jobs ++ [pktJob s port m (pktOf m b w e)], nextJob := s.nextJob + 1
               front := if e.2.2 then { s.front with cntRenewed := wrapInc 32 s.front.cntRenewed } else s.front } s.nextJob w (m.getLsbD 24) b e.1 := by
  have hgood : (false || decide (16384 < b.length)) = false := by simpa using hlen
  simp only [packetArrive, hr, hgood, Bool.not_true, Bool.false_eq_true, if_false, ← he, ← hw]
  obtain ⟨epoch, bank, renewed⟩ := e
  cases renewed <;> rfl

-- Packets out (R75, R77)

theorem packetTake_oldest (s : State) (port : Nat) (o : PktOut) (hclk : s.mem.stalled.contains .pkclk = false) (ho : s.front.outQ.find? (fun o => o.port == port) = some o)
    (hfirst : ∀ x ∈ s.front.outQ, x.named = true → o.named = true → x.assoc = o.assoc → o.order ≤ x.order) :
    packetTake s port = s.modFront (fun f => { f with outQ := f.outQ.erase o }) := by
  have hb : outBehind s o = false := by
    simp only [outBehind, List.any_eq_false, Bool.and_eq_true, beq_iff_eq, decide_eq_true_iff]
    rintro x hx ⟨⟨⟨h1, h2⟩, h3⟩, h4⟩
    exact absurd h4 (Nat.not_lt.mpr (hfirst x hx h1 h2 h3))
  simp only [packetTake, ho, hclk, hb, Bool.or_self, Bool.false_eq_true, if_false]

-- The end of an epoch's drain (R436)

theorem drainEnd_clears (s : State) (hd : s.front.draining = true) (hj : ∀ j ∈ s.jobs, ∀ p, j.pkt = some p → p.epoch ≠ prevEpoch s)
    (ho : ∀ o ∈ s.front.outQ, bits o.metaOut.toNat 25 24 ≠ prevEpoch s) (hf : ∀ f ∈ s.front.follow, followLive s f = true → f.epoch ≠ prevEpoch s)
    (hg : s.front.swapAt + s.front.grace * 1000 * 2 ^ 16 ≤ s.time.mono) : drainEnd s = s.modFront (fun f => { f with draining := false }) := by
  have h1 : s.jobs.any (fun j => j.pkt.any (fun p => p.epoch == prevEpoch s)) = false := by
    simpa [List.any_eq_false, Option.any_eq_true] using hj
  have h2 : s.front.outQ.any (fun o => bits o.metaOut.toNat 25 24 == prevEpoch s) = false := by simpa [List.any_eq_false] using ho
  have h3 : s.front.follow.any (fun f => followLive s f && f.epoch == prevEpoch s) = false := by simpa [List.any_eq_false] using hf
  have hdue : s.due (s.front.swapAt + s.front.grace * 1000 * nsUnit) = true := decide_eq_true hg
  simp only [drainEnd, h1, h2, h3, hd, hdue, Bool.or_self, Bool.not_false, Bool.and_self, if_true]

/-- Settles O44. -/
theorem packetsEnterInOrderAndLeave : Obligations.PacketsEnterInOrderAndLeave := by
  refine fun s port m b => ⟨fun err hr h => ok_carry (packetArrive_discards s port m b err hr h), fun e w p j u hr hlen he hw hp hj hu => ok_carry ?_,
    fun o hup hclk ho hfirst => ?_, fun e hr hd he hj ho hf hg => ?_⟩
  · rw [packetArrive_parsed s port m b e w hr hlen he hw, hu, hj, hp]
    rfl
  · calc exec (.packetOutAccept port) s = ok (whenDo s.up s (packetTake · port)) := rfl
      _ = _ := by
        rw [hup, whenDo_true, packetTake_oldest s port o hclk ho hfirst, ok]
        rfl
  · subst he
    calc exec .epochDrainEnd s = ok (whenDo s.ready s drainEnd) := rfl
      _ = _ := by
        rw [hr, whenDo_true, drainEnd_clears s hd hj ho hf hg, ok]
        rfl

-- Banks (R434)

theorem nodePut_taken (s : State) (i : Nat) (v : W32) (hi : i < 1024) (hb : (s.front.bank = true → i < 512) ∧ (s.front.bank = false → 512 ≤ i) ∧ s.front.draining = false)
    (hv : i % 8 ≠ 0 ∨ v.toNat / 2 ^ 8 % 2 ^ 8 ≤ 2) :
    nodePut s (0x71000 + 4 * i) v = s.modFront (fun f => { f with nodes := tabSet 0 f.nodes i (v.toNat &&& nodeMask i) }) := by
  have ho : (0x71000 + 4 * i) % 0x1000 / 4 = i := by omega
  obtain ⟨h1, h2, h3⟩ := hb
  have hsel : (i % 8 == 0 && decide (2 < bits v.toNat 15 8)) = false := by
    rw [bits_eq_div]
    rcases hv with h | h
    · simp [h]
    · simp only [Bool.and_eq_false_iff, decide_eq_false_iff_not]
      exact .inr (Nat.not_lt.mpr h)
  have hbank : (decide (512 ≤ i) == s.front.bank) = false := by
    cases hb : s.front.bank with
    | true => simpa using h1 hb
    | false => simpa using h2 hb
  simp only [nodePut, ho, hbank, h3, hsel, Bool.or_self, Bool.false_eq_true, if_false]

theorem nodePut_refused (s : State) (i : Nat) (v : W32) (hi : i < 1024) (hb : (s.front.bank = true ∧ 512 ≤ i) ∨ (s.front.bank = false ∧ i < 512)
    ∨ s.front.draining = true ∨ (i % 8 = 0 ∧ 2 < v.toNat / 2 ^ 8 % 2 ^ 8)) : nodePut s (0x71000 + 4 * i) v = refuse s (0x71000 + 4 * i) v := by
  have ho : (0x71000 + 4 * i) % 0x1000 / 4 = i := by omega
  have hbad : ((decide (512 ≤ i) == s.front.bank) || s.front.draining || i % 8 == 0 && decide (2 < bits v.toNat 15 8)) = true := by
    rw [bits_eq_div]
    rcases hb with ⟨h, hi⟩ | ⟨h, hi⟩ | h | ⟨h, hv⟩
    · simp [h, hi]
    · simp [h, hi]
    · simp [h]
    · have hv' : decide (2 < v.toNat / 2 ^ 8 % 2 ^ (15 + 1 - 8)) = true := decide_eq_true hv
      rw [h, hv', BEq.rfl, Bool.and_self, Bool.or_true]
  simp only [nodePut, ho, hbad, if_true]

/-- The node word at its offset. -/
theorem exec_nodeWrite (s : State) (i : Nat) (v : W32) (hi : i < 1024) (hs : s.served (0x71000 + 4 * i) = true) :
    exec (.nodeWrite (4 * i) v) s = .next (nodePut s (0x71000 + 4 * i) v) := by
  have ho : 0x71000 + 4 * i % 0x1000 / 4 * 4 = 0x71000 + 4 * i := by omega
  show execNodeWrite (4 * i) v s = _
  rw [execNodeWrite, ho]
  exact exec_mgrWrite s _ _ (nodePut · (0x71000 + 4 * i) v) hs rfl

theorem swapCmd_swaps (s : State) (hd : s.front.draining = false) (hn : (nf (nodeBytes s (!s.front.bank) 0) 31).testBit 7 = true) : swapCmd s = doSwap s := by
  simp only [swapCmd, hd, hn, Bool.not_true, Bool.or_self, Bool.false_eq_true, if_false]

theorem swapCmd_draining (s : State) (hd : s.front.draining = true) : swapCmd s = s := by
  simp only [swapCmd, hd, Bool.true_or, if_true]

-- Rehash (R453)

theorem rehashCmd_begins (s : State) (v : W32) (hf : s.front.forerunner = false) (hb : s.front.rehashBusy = false) (hn : s.front.peerNext ≠ 0) :
    rehashCmd s v = s.modFront (fun f => { f with
      rehashBusy := true, rehashAt := 0, rehBase := f.peerNext, rehSeed1 := f.nextSeed1, rehSeed2 := f.nextSeed2
      peers := f.peers.filter (fun p => decide (p.1 < 65536)) }) := by
  simp only [rehashCmd, hf, hb, hn, Bool.false_eq_true, if_false, Bool.false_or, decide_false]

theorem rehashEnd_ends (s : State) (hb : s.front.rehashBusy = true) (ha : 262144 ≤ s.front.rehashAt) (hr : bucketsRead s = false) :
    rehashEnd s = vector { s with front := { s.front with
      rehashBusy := false, rehashAt := 0, peerBase := s.front.rehBase, seed1 := s.front.rehSeed1, seed2 := s.front.rehSeed2
      peers := s.front.peers.filterMap (fun p => if 65536 ≤ p.1 then some (p.1 - 65536, p.2) else none) } } 5 := by
  simp only [rehashEnd, hb, hr, Nat.not_lt.mpr ha, Bool.not_true, Bool.false_eq_true, if_false]

-- The scanner (R452)

/-- The visit is noted with the instant it is made. -/
def visitNoted (s : State) (b : Nat) : State := s.modFront (fun f => { f with visits := f.visits ++ [b], visited := tabPut f.visited b s.mono })

theorem ageVisit_due (s : State) (b : Nat) (ha : s.front.age ≠ 0) (hr : s.front.rehashBusy = false) (hp : s.front.peerBase ≠ 0) (he : s.front.enabled = true)
    (hv : s.front.visits.contains b = false) (hd : visitDue s b = true) :
    ageVisit s b = if (bucket? s 0 b).isNone then readBucket (visitNoted s b) 0 b else visitNoted s b := by
  simp only [ageVisit, ha, hr, hp, he, hv, hd, decide_false, Bool.not_true, Bool.or_self, Bool.false_eq_true, if_false]
  rfl

theorem ageVisit_none (s : State) (b : Nat) (h : s.front.age = 0 ∨ s.front.rehashBusy = true ∨ visitDue s b = false) : ageVisit s b = s := by
  rw [ageVisit, if_pos]
  rcases h with h | h | h <;> simp [h]

theorem visitDue_first (s : State) (b : Nat) (h : ∀ p ∈ s.front.visited, p.1 ≠ b) : visitDue s b = true := by
  have hn : s.front.visited.find? (fun p => p.1 == b) = none := by simpa [List.find?_eq_none] using h
  simp only [visitDue, hn]

theorem visitDue_again (s : State) (b : Nat) (p : Nat × Stamp) (h : s.front.visited.find? (fun p => p.1 == b) = some p) :
    visitDue s b = decide (p.2 + s.front.age * 1000000000 * 2 ^ 16 ≤ s.time.mono) := by
  simp only [visitDue, h]
  rfl

theorem ageSlot_same (b k : Nat) (v : Bytes) (s : State) (h : aged (nf (slotBytes v k) 21) = nf (slotBytes v k) 21) : ageSlot b v s k = s := by
  simp only [ageSlot, h, if_true]

theorem ageSlot_aged (b k : Nat) (v : Bytes) (s : State) (h : aged (nf (slotBytes v k) 21) ≠ nf (slotBytes v k) 21) :
    ageSlot b v s k = peerPush (setSlot s 0 b k (overlay (slotBytes v k) 21 [BitVec.ofNat 8 (aged (nf (slotBytes v k) 21))])) none
      [(peerAddr s 0 b + 32 * k + 21, [BitVec.ofNat 8 (aged (nf (slotBytes v k) 21))])] := by
  simp only [ageSlot, if_neg (Ne.symm h)]

theorem maskSet_clear (f i : Nat) (h : f.testBit i = true) : maskSet f i false = f - 2 ^ i := by
  simp only [maskSet, h, Bool.false_eq_true, if_false, if_true]

/-- Bit 1, clear, is set by adding it. -/
theorem maskSet_stale (f : Nat) (h : f.testBit 1 = false) : maskSet f 1 true = f + 2 := by
  have hbit : f % 4 = 0 ∨ f % 4 = 1 := by
    rw [Nat.testBit_eq_decide_div_mod_eq] at h
    have h1 : f / 2 ^ 1 % 2 ≠ 1 := of_decide_eq_false h
    omega
  have hf : f = 2 ^ 2 * (f / 4) ||| f % 4 := by
    rw [← Nat.two_pow_add_eq_or_of_lt (Nat.mod_lt f (by decide))]
    omega
  have hd : f % 4 ||| 2 = f % 4 + 2 := by rcases hbit with h | h <;> rw [h] <;> rfl
  calc f ||| 2 = 2 ^ 2 * (f / 4) ||| (f % 4 + 2) := by rw [← hd, ← Nat.or_assoc, ← hf]
    _ = 2 ^ 2 * (f / 4) + (f % 4 + 2) := (Nat.two_pow_add_eq_or_of_lt (by omega) _).symm
    _ = f + 2 := by omega

/-- The flags of an entry after the scanner's visit: HIT goes first, then STALE comes, then VALID goes. -/
theorem aged_cases (f : Nat) : (f.testBit 0 = false → aged f = f) ∧ (f.testBit 0 = true → f.testBit 2 = true → aged f = f - 4)
    ∧ (f.testBit 0 = true → f.testBit 2 = false → f.testBit 1 = false → aged f = f + 2)
    ∧ (f.testBit 0 = true → f.testBit 2 = false → f.testBit 1 = true → aged f = f - 1) := by
  refine ⟨fun h0 => ?_, fun h0 h2 => ?_, fun h0 h2 h1 => ?_, fun h0 h2 h1 => ?_⟩
  · simp only [aged, h0, Bool.not_false, if_true]
  · simp only [aged, h0, h2, Bool.not_true, Bool.false_eq_true, if_false, if_true, maskSet_clear f 2 h2] <;> rfl
  · simp only [aged, h0, h2, h1, Bool.not_true, Bool.false_eq_true, if_false, maskSet_stale f h1]
  · simp only [aged, h0, h2, h1, Bool.not_true, Bool.false_eq_true, if_false, if_true, maskSet_clear f 0 h0] <;> rfl

/-- Settles O45. -/
theorem banksSwapAndPeerTablesAge : Obligations.BanksSwapAndPeerTablesAge := by
  intro s
  refine ⟨fun o i v hi ho hs => ?_, fun hs => ⟨fun hd hn => exec_mgrWrite s _ _ _ hs ((swapCmd_swaps s hd hn).trans rfl),
      fun hd => exec_mgrWrite s _ _ _ hs (swapCmd_draining s hd)⟩,
    fun hs hf hb hn => ok_carry ?_, fun hs hf => ⟨_, ok_carry ?_, rfl⟩, fun f hr hv hf hb ha hbr => ok_carry ?_, fun bucket hbu hr ha => ?_,
    visitDue_first s, visitDue_again s, fun b k v f hf => ?_, fun f _ => aged_cases f, fun seat hseat hs => ?_⟩
  · subst ho
    rw [exec_nodeWrite s i v hi hs]
    exact ⟨fun hb hv => by rw [nodePut_taken s i v hi hb hv]; rfl, fun hb => by rw [nodePut_refused s i v hi hb]; rfl⟩
  · rw [mgrWrite_served s _ _ hs, rehashCmd_begins s 1 hf hb hn]
    rfl
  · rw [mgrWrite_served s _ _ hs, rehashCmd, if_pos hf]
    rfl
  · subst hf
    rw [hr, hv, Bool.not_false, Bool.and_self, whenDo_true, rehashEnd_ends s hb ha hbr]
  · have hm : bucket % 65536 = bucket := Nat.mod_eq_of_lt hbu
    have hex (t : State) (h : ageVisit s bucket = t) : exec (.peerAgeVisit bucket) s = .next (carry t) := by
      show execPeerAgeVisit bucket s = _
      rw [execPeerAgeVisit, hm, hr, ha, Bool.not_false, Bool.and_self, whenDo_true, h, ok]
    refine ⟨fun u hage hreh hbase hen hvis hdue hu => ?_, fun h => hex s (ageVisit_none s bucket h)⟩
    have hu' : u = visitNoted s bucket := hu
    rw [hu']
    have hage' := ageVisit_due s bucket hage hreh hbase hen hvis hdue
    exact ⟨fun hn => hex _ (by rw [hage', hn]; rfl), fun hn => hex _ (by rw [hage', if_neg (by simpa using hn)])⟩
  · subst hf
    exact ⟨ageSlot_same b k v s, ageSlot_aged b k v s⟩
  · have hm : seat % 1024 = seat := Nat.mod_eq_of_lt hseat
    show execStrangerStsRead seat s = _
    rw [execStrangerStsRead, hm, hregRead_served s _ _ _ hs, ok]
    rfl

end Sys2Proof.Machine
end

section
/-! PROOF. The reset values and the idle step (O58, O2). -/

namespace Sys2Proof.Machine

/-- Settles O58: the reset state is plain data, whose fields and register words evaluate. -/
theorem resetLeavesTheStatedValues : Obligations.ResetLeavesTheStatedValues := by
  unfold Obligations.ResetLeavesTheStatedValues
  have seat0 (i : Nat) : State.reset.seat i = {} := rfl
  refine ⟨rfl, rfl, rfl, rfl, rfl, rfl, rfl, fun i => ?_, ?_, ?_, ?_, ?_, ?_, rfl, rfl, ?_⟩
  · rw [seat0]; exact ⟨rfl, rfl, rfl, rfl, rfl, rfl, rfl, rfl, rfl⟩
  case refine_7 => exact ⟨by decide, by decide, by decide, by decide⟩
  all_goals decide

-- The idle step -------------------------------------------------------------------------------------------------------------

theorem tick_time (s : State) : (tick s).time = if s.start.vaonBad then s.time else timeTick s.time := by
  unfold tick; split <;> rfl

/-- What a wing has to do does not depend on the wings. -/
theorem wingBusy_congr {s t : State} (hj : t.jobs = s.jobs) (hm : t.mem = s.mem) (he : t.engines = s.engines) (w : Nat) : wingBusy t w = wingBusy s w := by
  simp only [wingBusy, writesOut, State.engine, hj, hm, he]

/-- One wing's part of `idleTick`. -/
def noteBusy (s : State) (w : Nat) : State :=
  if (s.wing w).power == 2 && wingBusy s w then s.modWing w (fun x => { x with idleAt := s.mono }) else s

theorem idleTick_eq (s : State) : idleTick s = (List.range 8).foldl noteBusy s := rfl

theorem noteBusy_busy (s : State) (v w : Nat) : wingBusy (noteBusy s v) w = wingBusy s w := by
  unfold noteBusy; split <;> rfl

theorem noteBusy_mono (s : State) (v : Nat) : (noteBusy s v).mono = s.mono := by
  unfold noteBusy; split <;> rfl

theorem noteBusy_place (s : State) (v : Nat) : { (noteBusy s v).place with wings := s.place.wings } = s.place := by
  unfold noteBusy; split <;> rfl

theorem noteBusy_wing (s : State) (v w : Nat) :
    (noteBusy s v).wing w = if w = v ∧ (s.wing w).power = 2 ∧ wingBusy s w = true then { s.wing w with idleAt := s.mono } else s.wing w := by
  unfold noteBusy
  by_cases e : w = v
  · subst e
    by_cases hb : (s.wing w).power = 2 ∧ wingBusy s w = true
    · rw [if_pos (by simpa using hb), if_pos ⟨rfl, hb⟩]
      exact tabGet_tabSet_same ..
    · rw [if_neg (by simpa using hb), if_neg (fun h => hb h.2)]
  · have hn : ¬(w = v ∧ (s.wing w).power = 2 ∧ wingBusy s w = true) := fun h => e h.1
    simp only [hn, if_false]
    split
    · exact tabGet_tabSet_other _ _ _ _ _ e
    · rfl

theorem foldl_noteBusy_wing (l : List Nat) (s : State) (w : Nat) :
    (l.foldl noteBusy s).wing w = if w ∈ l ∧ (s.wing w).power = 2 ∧ wingBusy s w = true then { s.wing w with idleAt := s.mono } else s.wing w := by
  induction l generalizing s with
  | nil => simp
  | cons v l ih =>
    rw [List.foldl_cons, ih, noteBusy_busy, noteBusy_mono, noteBusy_wing]
    by_cases hb : (s.wing w).power = 2 ∧ wingBusy s w = true
    · by_cases hv : w = v <;> by_cases hl : w ∈ l <;> simp [hv, hl, hb]
      all_goals simp_all
    · have nb (p : Prop) : ¬(p ∧ (s.wing w).power = 2 ∧ wingBusy s w = true) := fun h => hb h.2
      simp only [nb, if_false]

theorem foldl_noteBusy_place (l : List Nat) (s : State) : { (l.foldl noteBusy s).place with wings := s.place.wings } = s.place := by
  induction l generalizing s with
  | nil => rfl
  | cons v l ih =>
    calc { (l.foldl noteBusy (noteBusy s v)).place with wings := s.place.wings }
        = { ({ (l.foldl noteBusy (noteBusy s v)).place with wings := (noteBusy s v).place.wings } : Place) with wings := s.place.wings } := rfl
      _ = { (noteBusy s v).place with wings := s.place.wings } := by rw [ih]
      _ = s.place := noteBusy_place s v

-- What the card port does of itself depends on the port and the time alone ----------------------------------------------------

theorem State.due_congr {s t : State} (ht : t.time = s.time) (x : Stamp) : t.due x = s.due x := by rw [State.due, State.due, ht]

theorem cardReset_cust {s t : State} (hc : t.cust = s.cust) (ht : t.time = s.time) : (cardReset t).cust = (cardReset s).cust := by
  unfold cardReset
  rw [hc]
  cases s.cust.rstAt with
  | none => exact hc
  | some x =>
    dsimp only
    rw [State.due_congr ht]
    cases s.due x with
    | false => exact hc
    | true => simp only [if_true, State.modCust, hc]

theorem cardDivide_cust {s t : State} (hc : t.cust = s.cust) (ht : t.time = s.time) : (cardDivide t).cust = (cardDivide s).cust := by
  unfold cardDivide
  rw [hc]
  cases s.cust.divNext with
  | none => exact hc
  | some p =>
    dsimp only
    rw [State.due_congr ht]
    cases s.due p.1 with
    | false => exact hc
    | true => simp only [if_true, State.modCust, hc]

theorem recPhase_cust {s t : State} (hc : t.cust = s.cust) (ht : t.time = s.time) (i p : Nat) : (recPhase t i p).cust = (recPhase s i p).cust := by
  simp only [recPhase, State.modCustRec, State.modCust, State.custRec, State.secs, hc, ht]

theorem cardCatchUp_cust {s t : State} (hc : t.cust = s.cust) (ht : t.time = s.time) : (cardCatchUp t).cust = (cardCatchUp s).cust := by
  unfold cardCatchUp
  rw [hc]
  cases s.cust.jrec with
  | none => exact hc
  | some i =>
    dsimp only
    rw [State.due_congr ht, State.custRec, State.custRec, hc]
    split
    · exact recPhase_cust hc ht i 2
    · exact hc

theorem cardTick_cust {s t : State} (hc : t.cust = s.cust) (ht : t.time = s.time) : (cardTick t).cust = (cardTick s).cust := by
  have t1 : (cardReset t).time = (cardReset s).time := by rw [(cardReset_keeps t).time rfl, (cardReset_keeps s).time rfl, ht]
  have t2 : (cardDivide (cardReset t)).time = (cardDivide (cardReset s)).time := by rw [(cardDivide_keeps _).time rfl, (cardDivide_keeps _).time rfl, t1]
  exact cardCatchUp_cust (cardDivide_cust (cardReset_cust hc ht) t1) t2

theorem cardTick_idle {s : State} (hr : s.cust.rstAt = none) (hd : s.cust.divNext = none) (hj : s.cust.jrec = none) : cardTick s = s := by
  rw [cardTick, show cardReset s = s by rw [cardReset, hr], show cardDivide s = s by rw [cardDivide, hd], cardCatchUp, hj]

theorem ageDue_still {s : State} (h : s.front.visits = [] ∨ s.front.rehashBusy = true ∨ s.alarms.aActive = true) : ageDue s = s := by
  unfold ageDue
  split
  · rfl
  · next hn =>
    obtain hv | hb | ha := h
    · rw [hv]; rfl
    · simp [hb] at hn
    · simp [ha] at hn

theorem Keeps.eq_idle {s u : State} (h : Keeps (only [.front, .time, .cust, .place]) s u) :
    { u with time := s.time, place := s.place, front := s.front, cust := s.cust } = s := by
  cases u; cases s
  simp only [State.mk.injEq, true_and]
  exact ⟨h.pending rfl, h.params rfl, h.start rfl, h.journal rfl, h.alarms rfl, h.seats rfl, h.rings rfl, h.seatRegs rfl, h.offers rfl, h.jobs rfl, h.nextJob rfl,
    h.mem rfl, h.buffers rfl, h.engines rfl, h.keys rfl, h.window rfl, h.entropy rfl, h.relay rfl, h.prompts rfl, h.freeCount rfl⟩

/-- Settles O2: each of the four passes of the idle step changes its own part alone, and the wings are noted busy one by one. -/
theorem idleStepPassesOneNanosecond : Obligations.IdleStepPassesOneNanosecond := by
  intro s hp
  have ka := ageDue_keeps s
  have kt := tick_keeps (ageDue s)
  have kc := cardTick_keeps (tick (ageDue s))
  have ki := idleTick_keeps (cardTick (tick (ageDue s)))
  have kv : Keeps (only [.front, .time, .cust]) s (cardTick (tick (ageDue s))) := ((ka.mono rfl).trans (kt.mono rfl)).trans (kc.mono rfl)
  have ku : Keeps (only [.front, .time, .cust, .place]) s (idleTick (cardTick (tick (ageDue s)))) := (kv.mono rfl).trans (ki.mono rfl)
  have htime : (cardTick (tick (ageDue s))).time = if s.start.vaonBad then s.time else timeTick s.time := by
    rw [kc.time rfl, tick_time, ka.start rfl, ka.time rfl]
  have hcust : (cardTick (tick (ageDue s))).cust = (cardTick { s with time := (cardTick (tick (ageDue s))).time }).cust := by
    refine cardTick_cust ?_ ?_
    · rw [kt.cust rfl, ka.cust rfl]
    · exact (kc.time rfl).symm
  have hwing (w : Nat) : (cardTick (tick (ageDue s))).wing w = s.wing w := by rw [State.wing, State.wing, kv.place rfl]
  refine ⟨idleTick (cardTick (tick (ageDue s))), by rw [step, hp], ?_, ?_, ?_, ?_, ?_, ?_, ?_, ?_⟩
  · rw [ki.time rfl, htime]
  · exact ku.eq_idle
  · rw [← kv.place rfl, idleTick_eq]; exact foldl_noteBusy_place _ _
  · intro w
    rw [ki.time rfl, idleTick_eq, foldl_noteBusy_wing, wingBusy_congr (kv.jobs rfl) (kv.mem rfl) (kv.engines rfl), hwing]
    simp only [List.mem_range]
    rfl
  · rw [ki.front rfl, kc.front rfl, kt.front rfl]
  · intro h
    rw [ki.front rfl, kc.front rfl, kt.front rfl, ageDue_still h]
  · rw [ki.cust rfl, ki.time rfl, hcust]
  · intro hr hd hj
    rw [ki.cust rfl, hcust, cardTick_idle (by exact hr) (by exact hd) (by exact hj)]

end Sys2Proof.Machine
end

section
/-! PROOF. What a command may change: the part it acts on, and the seat it names (O60). -/

namespace Sys2Proof.Machine

-- Part by part --------------------------------------------------------------------------------------------------------------

theorem movesWindow_eq (c : Instr) : movesWindow c = movedBy c .window := by cases c <;> rfl
theorem movesJournal_eq (c : Instr) : movesJournal c = movedBy c .journal := by cases c <;> rfl
theorem movesTime_eq (c : Instr) : movesTime c = movedBy c .time := by cases c <;> rfl
theorem movesCust_eq (c : Instr) : movesCust c = movedBy c .cust := by cases c <;> rfl
theorem movesOffers_eq (c : Instr) : movesOffers c = movedBy c .offers := by cases c <;> rfl
theorem actsOnSeats_eq (c : Instr) : actsOnSeats c = ownMoves c .seats := by cases c <;> rfl
theorem actsOnRings_eq (c : Instr) : actsOnRings c = ownMoves c .rings := by cases c <;> rfl
theorem actsOnJobs_eq (c : Instr) : actsOnJobs c = ownMoves c .jobs := by cases c <;> rfl
theorem actsOnKeys_eq (c : Instr) : actsOnKeys c = ownMoves c .keys := by cases c <;> rfl
theorem actsOnAlarms_eq (c : Instr) : actsOnAlarms c = ownMoves c .alarms := by cases c <;> rfl
theorem actsOnMem_eq (c : Instr) : actsOnMem c = ownMoves c .mem := by cases c <;> rfl
theorem actsOnFront_eq (c : Instr) : actsOnFront c = ownMoves c .front := by cases c <;> rfl
theorem actsOnRelay_eq (c : Instr) : actsOnRelay c = ownMoves c .relay := by cases c <;> rfl
theorem actsOnEntropy_eq (c : Instr) : actsOnEntropy c = ownMoves c .entropy := by cases c <;> rfl
theorem actsOnEngines_eq (c : Instr) : actsOnEngines c = ownMoves c .engines := by cases c <;> rfl
theorem actsOnPlace_eq (c : Instr) : actsOnPlace c = ownMoves c .place := by cases c <;> rfl
theorem actsOnBuffers_eq (c : Instr) : actsOnBuffers c = ownMoves c .buffers := by cases c <;> rfl
theorem actsOnStart_eq (c : Instr) : actsOnStart c = ownMoves c .start := by cases c <;> rfl

-- Another seat --------------------------------------------------------------------------------------------------------------

/-- What belongs to seat `k` stands in `u` as in `s`: its settings, its rings, its keys, and where `p` holds its jobs. -/
structure Apart (p : Prop) (k : Nat) (s u : State) : Prop where
  seat : u.seat k = s.seat k
  ring : ∀ i < 16, u.ring k i = s.ring k i
  jobs : p → u.jobs.filter (fun j => j.seat == k) = s.jobs.filter (fun j => j.seat == k)
  attrs : u.keys.attrs.filter (fun a => a.seat == k) = s.keys.attrs.filter (fun a => a.seat == k)
  scheds : u.keys.scheds.filter (fun a => a.seat == k) = s.keys.scheds.filter (fun a => a.seat == k)
  slots : u.keys.slots.filter (fun a => a.seat == k) = s.keys.slots.filter (fun a => a.seat == k)

/-- No job of seat `k` has the name `id`. -/
def Foreign (k id : Nat) (s : State) : Prop := ∀ j ∈ s.jobs.filter (fun j => j.seat == k), j.id ≠ id

section
variable {p : Prop} {k m : Nat} {s t u : State}

theorem Apart.refl (s : State) : Apart p k s s := ⟨rfl, fun _ _ => rfl, fun _ => rfl, rfl, rfl, rfl⟩

theorem Apart.trans (h : Apart p k s t) (g : Apart p k t u) : Apart p k s u where
  seat := g.seat.trans h.seat
  ring i hi := (g.ring i hi).trans (h.ring i hi)
  jobs hp := (g.jobs hp).trans (h.jobs hp)
  attrs := g.attrs.trans h.attrs
  scheds := g.scheds.trans h.scheds
  slots := g.slots.trans h.slots

/-- The lists of keys are as they were, whatever else of the key store moved. -/
structure SameKeys (s u : State) : Prop where
  attrs : u.keys.attrs = s.keys.attrs
  scheds : u.keys.scheds = s.keys.scheds
  slots : u.keys.slots = s.keys.slots

theorem SameKeys.of_keys (h : u.keys = s.keys) : SameKeys s u := ⟨by rw [h], by rw [h], by rw [h]⟩

theorem SameKeys.trans (h : SameKeys s t) (g : SameKeys t u) : SameKeys s u :=
  ⟨g.attrs.trans h.attrs, g.scheds.trans h.scheds, g.slots.trans h.slots⟩

theorem State.seat_of_seats (h : u.seats = s.seats) (i : Nat) : u.seat i = s.seat i := congrArg (fun l => tabGet ({} : Seat) l i) h

theorem Apart.of_parts (hs : u.seats = s.seats) (hr : u.rings = s.rings)
    (hj : p → u.jobs.filter (fun j => j.seat == k) = s.jobs.filter (fun j => j.seat == k)) (hk : SameKeys s u) : Apart p k s u where
  seat := State.seat_of_seats hs k
  ring i _ := State.ring_of_rings hr k i
  jobs := hj
  attrs := by rw [hk.attrs]
  scheds := by rw [hk.scheds]
  slots := by rw [hk.slots]

/-- A change of other parts is apart from every seat. -/
theorem Apart.of_keeps {ch : Part → Bool} (h : Keeps ch s u) (hs : ch .seats = false) (hr : ch .rings = false) (hj : ch .jobs = false)
    (hk : ch .keys = false) : Apart p k s u :=
  .of_parts (h.seats hs) (h.rings hr) (fun _ => by rw [h.jobs hj]) (.of_keys (h.keys hk))

theorem Apart.foldl {α : Type} {f : State → α → State} (l : List α) (s0 : State) (hf : ∀ t, Apart p k s0 t → ∀ a ∈ l, Apart p k t (f t a))
    (h : Apart p k s0 s) : Apart p k s0 (l.foldl f s) := by
  induction l generalizing s with
  | nil => exact h
  | cons a l ih => exact ih (fun t ht b hb => hf t ht b (List.mem_cons_of_mem a hb)) (h.trans (hf s h a List.mem_cons_self))

theorem Apart.ite {b : Prop} [Decidable b] (h : Apart p k s t) (g : Apart p k s u) : Apart p k s (if b then t else u) := by
  split <;> assumption

theorem Foreign.of_apart {id : Nat} (h : Apart p k s t) (hp : p) (hf : Foreign k id s) : Foreign k id t := by
  unfold Foreign; rw [h.jobs hp]; exact hf

/-- Where no two jobs share a name, a name tells its job. -/
theorem job_eq_of_id {l : List Job} {i j : Job} (hn : (l.map (·.id)).Nodup) (hi : i ∈ l) (hj : j ∈ l) (e : i.id = j.id) : i = j := by
  induction l with
  | nil => cases hi
  | cons a l ih =>
    rw [List.map_cons, List.nodup_cons] at hn
    obtain ⟨ha, hl⟩ := hn
    obtain rfl | hil := List.mem_cons.mp hi
    · obtain rfl | hjl := List.mem_cons.mp hj
      · rfl
      · exact absurd (e ▸ List.mem_map_of_mem hjl) ha
    · obtain rfl | hjl := List.mem_cons.mp hj
      · exact absurd (e ▸ List.mem_map_of_mem hil) ha
      · exact ih hl hil hjl

/-- A job of another seat has a name of its own where no two jobs share one. -/
theorem Foreign.of_nodup {j : Job} (hn : (s.jobs.map (·.id)).Nodup) (hj : j ∈ s.jobs) (hk : j.seat ≠ k) : Foreign k j.id s := by
  intro i hi e
  obtain ⟨him, hik⟩ := List.mem_filter.mp hi
  have : i = j := job_eq_of_id hn him hj e
  exact hk (by rw [← this]; exact beq_iff_eq.mp hik)

-- Own updates of another seat

theorem modSeat_apart (s : State) (f : Seat → Seat) (h : k ≠ m) : Apart p k s (s.modSeat m f) where
  seat := State.seat_modSeat_other s m k f h
  ring _ _ := rfl
  jobs _ := rfl
  attrs := rfl
  scheds := rfl
  slots := rfl

theorem modRing_apart (s : State) (f : Ring → Ring) {i : Nat} (hi : i < 16) (h : k ≠ m) : Apart p k s (s.modRing m i f) where
  seat := rfl
  ring j hj := State.ring_modRing_other s m i k j f (by unfold ringKey; omega)
  jobs _ := rfl
  attrs := rfl
  scheds := rfl
  slots := rfl

theorem onSlots_apart (s : State) (f : Ring → Ring) (h : k ≠ m) : Apart p k s (onSlots s m f) :=
  .foldl _ s (fun t _ _ hi => modRing_apart t f (List.mem_range.mp hi) h) (.refl s)

theorem modJob_others {id : Nat} {f : Job → Job} (hf : ∀ j, (f j).seat = j.seat) (h : Foreign k id s) :
    (s.modJob id f).jobs.filter (fun j => j.seat == k) = s.jobs.filter (fun j => j.seat == k) := by
  unfold Foreign at h
  rw [State.modJob]
  dsimp only
  generalize s.jobs = js at h ⊢
  induction js with
  | nil => rfl
  | cons j l ih =>
    have hs : ((if j.id == id then f j else j).seat == k) = (j.seat == k) := by split <;> simp only [hf]
    by_cases hk : (j.seat == k) = true
    · rw [List.filter_cons_of_pos (by exact hk)] at h
      obtain ⟨hne, hl⟩ := List.forall_mem_cons.mp h
      rw [List.map_cons, List.filter_cons_of_pos (by rw [hs]; exact hk), List.filter_cons_of_pos (by exact hk), ih hl,
        if_neg (by simpa using hne)]
    · rw [List.filter_cons_of_neg (by exact hk)] at h
      rw [List.map_cons, List.filter_cons_of_neg (by rw [hs]; exact hk), List.filter_cons_of_neg (by exact hk), ih h]

-- Jobs that stop

/-- The record `fixOutcome` leaves of a job. -/
def fixedAs (s : State) (o : Outcome) (j : Job) : Job :=
  { j with outcome := some { o with stamp := s.now, at_ := s.mono }, phase := .done, inDone := j.seen, got := [], key := [], drawn := [], inner := [], outer := []
           held := .none, leaseWait := .none, ranIn := jobWing j }

theorem fixOutcome_others {id : Nat} (o : Outcome) (h : Foreign k id s) :
    (fixOutcome s id o).jobs.filter (fun j => j.seat == k) = s.jobs.filter (fun j => j.seat == k) := by
  unfold fixOutcome
  split
  · rfl
  · split
    · rfl
    · exact modJob_others (f := fixedAs s o) (fun _ => rfl) h

theorem quit_others {id : Nat} (h : Foreign k id s) :
    (quit s id).jobs.filter (fun j => j.seat == k) = s.jobs.filter (fun j => j.seat == k) :=
  modJob_others (f := quitWith) (fun _ => rfl) h

theorem stop_others {id status sub : Nat} (h : Foreign k id s) :
    (stop s id status sub).jobs.filter (fun j => j.seat == k) = s.jobs.filter (fun j => j.seat == k) := by
  unfold stop
  split
  · rfl
  · split
    · rfl
    · dsimp only
      have hfix (o : Outcome) : Foreign k id (fixOutcome s id o) := by unfold Foreign; rw [fixOutcome_others o h]; exact h
      rw [quit_others (hfix _), fixOutcome_others _ h]

theorem quit_sameKeys (s : State) (id : Nat) : SameKeys s (quit s id) := ⟨rfl, rfl, rfl⟩

theorem stop_sameKeys (s : State) (id status sub : Nat) : SameKeys s (stop s id status sub) := by
  unfold stop
  split
  · exact .of_keys rfl
  · split
    · exact .of_keys rfl
    · exact (SameKeys.of_keys ((fixOutcome_keeps ..).keys rfl)).trans (quit_sameKeys ..)

theorem stop_apart {id status sub : Nat} (h : p → Foreign k id s) : Apart p k s (stop s id status sub) :=
  .of_parts ((stop_keeps ..).seats rfl) ((stop_keeps ..).rings rfl) (fun hp => stop_others (h hp)) (stop_sameKeys ..)

theorem stopWhere_apart {q : Job → Bool} {status sub : Nat} (hp : p → (s.jobs.map (·.id)).Nodup) (hq : ∀ j, q j = true → j.seat ≠ k) :
    Apart p k s (stopWhere s q status sub) := by
  refine .foldl _ s (fun t ht id hid => stop_apart (fun h => ?_)) (.refl s)
  obtain ⟨j, hj, rfl⟩ := List.mem_map.mp hid
  obtain ⟨hm, hc⟩ := List.mem_filter.mp hj
  exact .of_apart ht h (.of_nodup (hp h) hm (hq j (Bool.and_eq_true_iff.mp hc).1))

-- Curtain, start and restart

theorem unissued_seat {j : Job} (h : unissued m j = true) : j.seat = m := by
  unfold unissued at h
  simp only [Bool.and_eq_true, beq_iff_eq] at h
  exact h.1.1

theorem squash_apart (hp : p → (s.jobs.map (·.id)).Nodup) (h : k ≠ m) : Apart p k s (squash s m) := by
  unfold squash
  split
  · exact stopWhere_apart hp (fun j hj => by rw [unissued_seat hj]; exact Ne.symm h)
  · exact .refl s

theorem onSlots_jobs (s : State) (f : Ring → Ring) : (onSlots s m f).jobs = s.jobs := (onSlots_keeps s m f).jobs rfl

/-- A ring with its producer index recorded. -/
def noteCut (r : Ring) : Ring := { r with cut := some r.db }

/-- A seat on which the curtain falls. -/
def curtainDown (sq : Bool) (t : Seat) : Seat := { t with transit := .curtain sq }

theorem curtainCmd_eq (s : State) (sq : Bool) : curtainCmd s m sq = squash ((onSlots s m noteCut).modSeat m (curtainDown sq)) m := rfl

theorem curtainCmd_apart (sq : Bool) (hp : p → (s.jobs.map (·.id)).Nodup) (h : k ≠ m) : Apart p k s (curtainCmd s m sq) := by
  have hj : ((onSlots s m noteCut).modSeat m (curtainDown sq)).jobs = s.jobs :=
    ((State.modSeat_keeps (onSlots s m noteCut) m (curtainDown sq)).jobs rfl).trans (onSlots_jobs s noteCut)
  rw [curtainCmd_eq]
  exact ((onSlots_apart s noteCut h).trans (modSeat_apart _ (curtainDown sq) h)).trans (squash_apart (by rw [hj]; exact hp) h)

theorem applySeatX_apart (s : State) (h : k ≠ m) : Apart p k s (applySeatX s m) := by
  unfold applySeatX
  refine .trans ?_ (modSeat_apart _ _ h)
  split
  · exact .of_keeps (tlbDropSeat_keeps ..) rfl rfl rfl rfl
  · exact .refl s

theorem startCmd_apart (s : State) (h : k ≠ m) : Apart p k s (startCmd s m) := by
  unfold startCmd
  extract_lets s1 s2
  have h1 : Apart p k s s1 := applySeatX_apart s h
  have h2 : Apart p k s1 s2 := onSlots_apart s1 _ h
  exact ((h1.trans h2).trans (modSeat_apart s2 _ h)).trans (.of_keeps (instRequest_keeps ..) rfl rfl rfl rfl)

theorem restartCmd_apart (s : State) (h : k ≠ m) : Apart p k s (restartCmd s m) := by
  unfold restartCmd
  extract_lets s1 s2
  have h1 : Apart p k s s1 := applySeatX_apart s h
  have h2 : Apart p k s1 s2 := onSlots_apart s1 _ h
  exact ((h1.trans h2).trans (modSeat_apart s2 _ h)).trans (.of_keeps (instRequest_keeps ..) rfl rfl rfl rfl)

-- Reset and disable

theorem filter_other {α : Type} (l : List α) (seat : α → Nat) (h : k ≠ m) :
    (l.filter (fun a => seat a != m)).filter (fun a => seat a == k) = l.filter (fun a => seat a == k) := by
  rw [List.filter_filter]
  refine List.filter_congr (fun a _ => ?_)
  by_cases e : seat a = k
  · simp [e, h]
  · simp [e]

theorem eraseSeatKeys_apart (s : State) (h : k ≠ m) : Apart p k s (eraseSeatKeys s m) where
  seat := rfl
  ring _ _ := rfl
  jobs _ := rfl
  attrs := filter_other s.keys.attrs (·.seat) h
  scheds := filter_other s.keys.scheds (·.seat) h
  slots := filter_other s.keys.slots (·.seat) h

theorem tabGet_filter {α : Type} (d : α) (t : List (Nat × α)) (q : Nat → Bool) (i : Nat) (h : q i = true) :
    tabGet d (t.filter (fun e => q e.1)) i = tabGet d t i := by
  induction t with
  | nil => rfl
  | cons e t ih =>
    by_cases he : q e.1 = true
    · rw [List.filter_cons_of_pos (by exact he)]
      by_cases hi : e.1 = i <;> simp [tabGet, hi, ih]
    · rw [List.filter_cons_of_neg (by exact he), ih]
      have hi : e.1 ≠ i := fun e' => he (by rw [e']; exact h)
      simp [tabGet, hi]

theorem dropRings_apart (s : State) (h : k ≠ m) : Apart p k s { s with rings := s.rings.filter (fun e => e.1 / 16 != m) } where
  seat := rfl
  ring i hi := tabGet_filter ({} : Ring) s.rings (fun n => n / 16 != m) (ringKey k i) (by
    have : ringKey k i / 16 = k := by unfold ringKey; omega
    simpa [this] using h)
  jobs _ := rfl
  attrs := rfl
  scheds := rfl
  slots := rfl

/-- A seat's regions, keys and translations are dropped. -/
theorem dropSeat_apart (s : State) (h : k ≠ m) : Apart p k s (tlbDropSeat (eraseSeatKeys (dropRegions s m) m) m) :=
  ((Apart.of_keeps (dropRegions_keeps s m) rfl rfl rfl rfl).trans (eraseSeatKeys_apart _ h)).trans (.of_keeps (tlbDropSeat_keeps ..) rfl rfl rfl rfl)

theorem disableCmd_apart (s : State) (h : k ≠ m) : Apart p k s (disableCmd s m) := by
  unfold disableCmd
  extract_lets s1 src s2 d
  have h1 : Apart p k s s1 := dropSeat_apart s h
  have h2 : Apart p k s1 s2 := (Apart.of_keeps (setOffer_keeps s1 m {}) rfl rfl rfl rfl).trans (dropRings_apart (setOffer s1 m {}) h)
  exact (h1.trans h2).trans (modSeat_apart s2 _ h)

theorem freeSpill_apart (s : State) (id : Nat) : Apart p k s (freeSpill s id) := .of_parts rfl rfl (fun _ => rfl) ⟨rfl, rfl, rfl⟩

theorem dropJobs_apart (s : State) (a : List Access) (h : k ≠ m) :
    Apart p k s { s with jobs := s.jobs.filter (fun j => !resetJob m j), mem := { s.mem with accesses := a } } := by
  refine .of_parts rfl rfl (fun _ => ?_) ⟨rfl, rfl, rfl⟩
  show (s.jobs.filter _).filter _ = _
  rw [List.filter_filter]
  refine List.filter_congr (fun j _ => ?_)
  by_cases e : j.seat = k
  · simp [resetJob, e, h]
  · simp [e]

theorem resetCmd_apart (hp : p → (s.jobs.map (·.id)).Nodup) (h : k ≠ m) : Apart p k s (resetCmd s m) := by
  have h1 : Apart p k s (migAbandon s m) := .of_keeps (migAbandon_keeps s m) rfl rfl rfl rfl
  have hj : (migAbandon s m).jobs = s.jobs := (migAbandon_keeps s m).jobs rfl
  have h2 : Apart p k (migAbandon s m) (stopWhere (migAbandon s m) (fun j => j.seat == m && j.pkt.isSome) stSquashed 0) := by
    refine stopWhere_apart (by rw [hj]; exact hp) (fun j hj => ?_)
    rw [beq_iff_eq.mp (Bool.and_eq_true_iff.mp hj).1]
    exact Ne.symm h
  unfold resetCmd
  extract_lets s1 s2 js ids s3 s4 mem s5 s6 s7
  have h3 : Apart p k s2 s3 := .foldl js s2 (fun t _ j _ => .of_keeps (cancelAway_keeps t j) rfl rfl rfl rfl) (.refl s2)
  have h4 : Apart p k s3 s4 :=
    .foldl ids s3 (fun t _ id _ => (freeSpill_apart t id).trans (.of_keeps (engineLeave_keeps (freeSpill t id) id) rfl rfl rfl rfl)) (.refl s3)
  have h5 : Apart p k s4 s5 := (dropJobs_apart s4 _ h).trans (.of_keeps (lastAborted_keeps _) rfl rfl rfl rfl)
  have h6 : Apart p k s5 s6 := dropSeat_apart s5 h
  have h7 : Apart p k s6 s7 := onSlots_apart s6 _ h
  exact ((((((h1.trans h2).trans h3).trans h4).trans h5).trans h6).trans h7).trans (modSeat_apart s7 _ h)

-- Freeze

theorem wrapRec_sameKeys (s : State) (w : SymW) (j : Job) (b : Nat) (c : Ctx) : SameKeys s (wrapRec s w j b c).1 := ⟨rfl, rfl, rfl⟩

/-- What `wrapSpill` leaves of its job. -/
def wrappedAs (n : Nat) (j : Job) : Job := { j with held := .wrapping n, ctx := { msgBytes := j.ctx.msgBytes } }

theorem wrapSpill_apart {j : Job} {b n : Nat} (h : p → Foreign k j.id s) : Apart p k s (wrapSpill s j b n) := by
  unfold wrapSpill
  extract_lets r s1 s2 s3
  have hr : Keeps (only [.place, .keys]) s r.1 := wrapRec_keeps ..
  have h1 : Keeps (only [.mem]) r.1 s1 := addWrite_keeps ..
  have hj : s3.jobs = s.jobs := (h1.jobs rfl).trans (hr.jobs rfl)
  refine .of_parts ((h1.seats rfl).trans (hr.seats rfl)) ((h1.rings rfl).trans (hr.rings rfl)) (fun hp => ?_) ?_
  · refine (modJob_others (s := s3) (f := wrappedAs n) (fun _ => rfl) ?_).trans (by rw [hj])
    unfold Foreign; rw [hj]; exact h hp
  · exact (wrapRec_sameKeys s (symOf s j) j b j.ctx).trans ((SameKeys.of_keys (h1.keys rfl)).trans ⟨rfl, rfl, rfl⟩)

/-- A record that stays clear for want of a slot. -/
def stuckAs (j : Job) : Job := { j with held := .stuck }

/-- The spill region is full. -/
def spillFull (s : State) : State := s.modKeys (fun x => { x with spillFull := true })

theorem spillStuck_apart {j : Job} {b : Nat} (h : p → Foreign k j.id s) :
    Apart p k s ((alarmC (spillFull s) 0x47 b j.seat).modJob j.id stuckAs) := by
  have ha := alarmC_keeps (spillFull s) 0x47 b j.seat
  have hj : (alarmC (spillFull s) 0x47 b j.seat).jobs = s.jobs := ha.jobs rfl
  have h1 : SameKeys s (spillFull s) := ⟨rfl, rfl, rfl⟩
  have h2 : SameKeys (spillFull s) ((alarmC (spillFull s) 0x47 b j.seat).modJob j.id stuckAs) := .of_keys (ha.keys rfl)
  refine .of_parts (ha.seats rfl) (ha.rings rfl) (fun hp => ?_) (h1.trans h2)
  refine (modJob_others (f := stuckAs) (fun _ => rfl) ?_).trans (by rw [hj])
  unfold Foreign; rw [hj]; exact h hp

theorem spillJob_apart {j : Job} {b : Nat} (h : p → Foreign k j.id s) : Apart p k s (spillJob s j b) := by
  unfold spillJob
  split
  · exact wrapSpill_apart h
  · exact wrapSpill_apart h
  · exact spillStuck_apart h
  · exact .refl s

theorem flushOf_apart {j : Job} (h : p → Foreign k j.id s) : Apart p k s (flushOf s j) := by
  unfold flushOf
  split
  · exact spillJob_apart h
  · exact .refl s

theorem freezeFlush_apart (hp : p → (s.jobs.map (·.id)).Nodup) (h : k ≠ m) : Apart p k s (freezeFlush s m) := by
  refine .foldl _ s (fun t ht j hj => flushOf_apart (fun q => ?_)) (.refl s)
  obtain ⟨hm, hc⟩ := List.mem_filter.mp hj
  have hs : j.seat = m := by simp only [Bool.and_eq_true, beq_iff_eq] at hc; exact hc.1.1
  exact .of_apart ht q (.of_nodup (hp q) hm (by rw [hs]; exact Ne.symm h))

theorem freezeCmd_apart (hp : p → (s.jobs.map (·.id)).Nodup) (h : k ≠ m) : Apart p k s (freezeCmd s m) :=
  (modSeat_apart s _ h).trans (freezeFlush_apart hp h)

-- The seat commands

theorem seatResult_apart (s : State) (cmd seat r : Nat) : Apart p k s (seatResult s cmd seat r) := .of_keeps (seatResult_keeps ..) rfl rfl rfl rfl

/-- A command that is accepted leaves a state apart from seat `k`. -/
def AnsApart (p : Prop) (k : Nat) (s : State) (r : Except Nat State) : Prop := ∀ u, r = .ok u → Apart p k s u

theorem AnsApart.ok (h : Apart p k s u) : AnsApart p k s (.ok u) := fun _ e => Except.ok.inj e ▸ h

theorem AnsApart.error {n : Nat} : AnsApart p k s (.error n) := fun _ e => nomatch e

theorem AnsApart.ite {b : Prop} [Decidable b] {x y : Except Nat State} (h : AnsApart p k s x) (g : AnsApart p k s y) : AnsApart p k s (if b then x else y) := by
  split <;> assumption

/-- A command that is no migration has its effect on its own seat. -/
theorem seatAct_apart {cmd : Nat} (sq : Bool) (hp : p → (s.jobs.map (·.id)).Nodup) (h : k ≠ m) (hc : cmd ≠ 9 ∧ cmd ≠ 10 ∧ cmd ≠ 11) :
    AnsApart p k s (seatAct s cmd m sq) := by
  obtain ⟨h9, h10, h11⟩ := hc
  unfold seatAct
  dsimp only
  split
  · exact .ite .error (.ite .error (.ok (modSeat_apart s _ h)))
  · exact .ite (.ok (startCmd_apart s h)) .error
  · exact .ok (curtainCmd_apart sq hp h)
  · exact .ite (.ok (restartCmd_apart s h)) .error
  · exact .ok (resetCmd_apart hp h)
  · exact .ok (resetCmd_apart hp h)
  · exact .ok (resetCmd_apart hp h)
  · exact .ite .error (.ok (resetCmd_apart hp h))
  · exact .ok (disableCmd_apart s h)
  · exact .ite (.ok (disableCmd_apart s h)) .error
  · exact .ok (freezeCmd_apart hp h)
  · exact .ite .error (.ok (modSeat_apart s _ h))
  · exact absurd rfl h9
  · exact absurd rfl h10
  · exact absurd rfl h11
  · exact .ite (.ok ((modSeat_apart s _ h).trans (.of_keeps (setOffer_keeps ..) rfl rfl rfl rfl))) .error
  · exact .error

theorem seatCmd_apart {cmd : Nat} (sq : Bool) (hp : p → (s.jobs.map (·.id)).Nodup) (h : k ≠ m) (hc : cmd ≠ 9 ∧ cmd ≠ 10 ∧ cmd ≠ 11) :
    Apart p k s (seatCmd s cmd m sq) := by
  unfold seatCmd
  dsimp only
  split
  · exact seatResult_apart ..
  · split
    · exact seatResult_apart ..
    · split
      · exact seatResult_apart ..
      · split
        · next t ht =>
          have hj : (seatResult s cmd m 0).jobs = s.jobs := (seatResult_keeps ..).jobs rfl
          exact (seatResult_apart s cmd m 0).trans (seatAct_apart sq (by rw [hj]; exact hp) h hc t ht)
        · exact seatResult_apart ..

theorem hreg_apart {f : State → State} (src off : Nat) (b : Bool) (hf : Apart p k s (f s)) : Apart p k s (hreg s src off b f) := by
  unfold hreg
  split
  · exact .refl s
  · split
    · exact .refl s
    · split
      · exact .of_keeps (accessAlarm_keeps ..) rfl rfl rfl rfl
      · split
        · exact .refl s
        · exact hf

/-- What a seat command that is no migration does is apart from every other seat. -/
theorem seatExec_apart {cmd : Nat} (sq : Bool) (hm : m < 1024) (hp : p → (s.jobs.map (·.id)).Nodup) (h : k ≠ m) (hc : cmd ≠ 9 ∧ cmd ≠ 10 ∧ cmd ≠ 11) :
    Apart p k s (mgrWrite s 0x20000 (fun t => seatCmd t cmd (m % 1024) sq)) := by
  rw [Nat.mod_eq_of_lt hm]
  exact hreg_apart _ _ _ (seatCmd_apart sq hp h hc)

-- Ring accesses

theorem ringDoorbell_apart (s : State) {i : Nat} (v : W32) (hi : i < 16) (h : k ≠ m) : Apart p k s (ringDoorbell s m i v) := by
  unfold ringDoorbell
  dsimp only
  exact .ite (.refl s) (.ite (modRing_apart s _ hi h) (modRing_apart s _ hi h))

theorem evalRing_apart (s : State) {i : Nat} (hi : i < 16) (h : k ≠ m) : Apart p k s (evalRing s m i) := by
  unfold evalRing
  extract_lets r count time now enough old urgent s1
  have h1 : Apart p k s s1 := modRing_apart s _ hi h
  exact .ite ((h1.trans (modRing_apart s1 _ hi h)).trans (.of_keeps (raise_keeps ..) rfl rfl rfl rfl)) h1

theorem ringHead_apart (s : State) {i : Nat} (v : W32) (hi : i < 16) (h : k ≠ m) : Apart p k s (ringHead s m i v) := by
  unfold ringHead
  dsimp only
  exact .ite ((modRing_apart s _ hi h).trans (evalRing_apart _ hi h)) (modRing_apart s _ hi h)

theorem ringResume_apart (s : State) {i : Nat} (hi : i < 16) (h : k ≠ m) : Apart p k s (ringResume s m i) := modRing_apart s _ hi h

theorem stopFetch_apart (s : State) {i : Nat} (q : Bool) (hi : i < 16) (h : k ≠ m) : Apart p k s (stopFetch s m i q) := by
  unfold stopFetch
  extract_lets s1
  have h1 : Apart p k s s1 := modRing_apart s _ hi h
  exact h1.trans (.of_parts rfl rfl (fun _ => rfl) ⟨rfl, rfl, rfl⟩)

theorem enableSeat0_apart (s : State) {i : Nat} (hi : i < 16) (h : k ≠ 0) : Apart p k s (enableSeat0 s i) := by
  unfold enableSeat0
  dsimp only
  exact .ite ((applySeatX_apart s h).trans (modRing_apart _ _ hi h)) (modSeat_apart s _ h)

theorem ringCtrl_apart (s : State) (src : Nat) {i : Nat} (e r : Bool) (hi : i < 16) (h : k ≠ m) : Apart p k s (ringCtrl s src m i e r) := by
  unfold ringCtrl
  extract_lets r0 t s1
  have h1 : Apart p k s s1 := by
    refine .ite (.refl s) ?_
    split
    · next h0 =>
      rw [h0] at h
      exact .ite (enableSeat0_apart s hi h) ((modRing_apart s _ hi h).trans (stopFetch_apart _ false hi h))
    · exact .ite (modRing_apart s _ hi h) (modSeat_apart s _ h)
  exact .ite (h1.trans (ringResume_apart s1 hi h)) h1

theorem ringSetting_apart (s : State) (src : Nat) {i : Nat} (reg : Nat) (v : W32) (hi : i < 16) (h : k ≠ m) :
    Apart p k s (ringSetting s src m i reg v) := by
  unfold ringSetting
  refine .ite (.of_keeps (accessAlarm_keeps ..) rfl rfl rfl rfl) ?_
  split
  · next h0 =>
    rw [h0] at h
    exact .ite (modSeat_apart s _ h) (modRing_apart s _ hi h)
  · exact .ite (modRing_apart s _ hi h) (modSeat_apart s _ h)

/-- An access to a ring of a seat, whose effect keeps the jobs and the keys and every other seat. -/
theorem ringAccess_apart {f : Nat → Nat → State → State} (src slot reg : Nat) (hm : m < 1024)
    (hf : ∀ i, i < 16 → Apart p k s (f m i s)) : Apart p k s (ringAccess s src (m % 1024) (slot % 16) reg (f (m % 1024) (slot % 16))) := by
  rw [Nat.mod_eq_of_lt hm]
  exact hreg_apart _ _ _ (hf _ (Nat.mod_lt _ (by decide)))

end

/-- What part 2 of O60 says of one write to a ring. -/
def RingWriteApart (s : State) (k : Nat) (c : Instr) : Prop :=
  ∃ u, exec c s = .next (fin u) ∧ u.seat k = s.seat k ∧ (∀ i < 16, u.ring k i = s.ring k i) ∧ u.jobs = s.jobs ∧ u.keys = s.keys

theorem RingWriteApart.of {s u : State} {k : Nat} {c : Instr} {ch : Part → Bool} (he : exec c s = .next (fin u)) (ha : Apart True k s u)
    (hk : Keeps ch s u) (hj : ch .jobs = false) (hy : ch .keys = false) : RingWriteApart s k c :=
  ⟨u, he, ha.seat, ha.ring, hk.jobs hj, hk.keys hy⟩

/-- What part 3 of O60 says of one seat command. -/
def SeatCommandApart (s : State) (k : Nat) (c : Instr) : Prop :=
  ∃ u, exec c s = .next (carryAll u) ∧ u.seat k = s.seat k ∧ (∀ i < 16, u.ring k i = s.ring k i)
    ∧ ((s.jobs.map (·.id)).Nodup → u.jobs.filter (fun j => j.seat == k) = s.jobs.filter (fun j => j.seat == k))
    ∧ u.keys.attrs.filter (fun a => a.seat == k) = s.keys.attrs.filter (fun a => a.seat == k)
    ∧ u.keys.scheds.filter (fun a => a.seat == k) = s.keys.scheds.filter (fun a => a.seat == k)
    ∧ u.keys.slots.filter (fun a => a.seat == k) = s.keys.slots.filter (fun a => a.seat == k)

theorem SeatCommandApart.of {s : State} {m k : Nat} {c : Instr} (cmd : Nat) (sq : Bool) (hm : m < 1024) (h : k ≠ m) (hc : cmd ≠ 9 ∧ cmd ≠ 10 ∧ cmd ≠ 11)
    (he : exec c s = seatExec cmd m sq s) : SeatCommandApart s k c := by
  have ha := seatExec_apart (p := (s.jobs.map (·.id)).Nodup) (cmd := cmd) sq hm id h hc
  exact ⟨_, he, ha.seat, ha.ring, ha.jobs, ha.attrs, ha.scheds, ha.slots⟩

theorem ringWrites_apart (s : State) (src m k slot reg : Nat) (v : W32) (b : Bool) (hm : m < 1024) (h : k ≠ m) :
    ∀ c ∈ [Instr.doorbell src m slot v, .cqHeadWrite src m slot v, .ringEnable src m slot b, .ringDisable src m slot b, .resume src m slot,
      .ringSettingWrite src m slot reg v], RingWriteApart s k c := by
  simp only [List.forall_mem_cons]
  refine ⟨?_, ?_, ?_, ?_, ?_, ?_, List.forall_mem_nil _⟩
  · exact .of rfl (ringAccess_apart (f := fun a i t => ringDoorbell t a i v) src slot _ hm (fun i hi => ringDoorbell_apart s v hi h))
      (ringAccess_keeps (ch := only [.alarms, .prompts, .rings]) rfl (.refl s) (fun t => (ringDoorbell_keeps t _ _ v).mono rfl)) rfl rfl
  · exact .of rfl (ringAccess_apart (f := fun a i t => ringHead t a i v) src slot _ hm (fun i hi => ringHead_apart s v hi h))
      (ringAccess_keeps (ch := only [.alarms, .prompts, .rings]) rfl (.refl s) (fun t => (ringHead_keeps t _ _ v).mono rfl)) rfl rfl
  · exact .of rfl (ringAccess_apart (f := fun a i t => ringCtrl t src a i true b) src slot _ hm (fun i hi => ringCtrl_apart s src true b hi h))
      (ringAccess_keeps (ch := only [.alarms, .prompts, .rings, .seats, .mem]) rfl (.refl s) (fun t => (ringCtrl_keeps t src _ _ true b).mono rfl)) rfl rfl
  · exact .of rfl (ringAccess_apart (f := fun a i t => ringCtrl t src a i false b) src slot _ hm (fun i hi => ringCtrl_apart s src false b hi h))
      (ringAccess_keeps (ch := only [.alarms, .prompts, .rings, .seats, .mem]) rfl (.refl s) (fun t => (ringCtrl_keeps t src _ _ false b).mono rfl)) rfl rfl
  · exact .of rfl (ringAccess_apart (f := fun a i t => ringResume t a i) src slot _ hm (fun i hi => ringResume_apart s hi h))
      (ringAccess_keeps (ch := only [.alarms, .prompts, .rings]) rfl (.refl s) (fun t => (ringResume_keeps t _ _).mono rfl)) rfl rfl
  · exact .of rfl (ringAccess_apart (f := fun a i t => ringSetting t src a i (reg % 128) v) src slot _ hm (fun i hi => ringSetting_apart s src _ v hi h))
      (ringAccess_keeps (ch := only [.alarms, .prompts, .rings, .seats]) rfl (.refl s) (fun t => (ringSetting_keeps t src _ _ _ v).mono rfl)) rfl rfl

theorem seatCommands_apart (s : State) (m k : Nat) (sq : Bool) (hm : m < 1024) (h : k ≠ m) :
    ∀ c ∈ [Instr.configure m, .start m, .curtain m sq, .restart m, .reset m, .disable m, .freeze m, .thaw m, .migCancel m], SeatCommandApart s k c := by
  simp only [List.forall_mem_cons]
  exact ⟨.of 1 false hm h (by decide) rfl, .of 2 false hm h (by decide) rfl, .of 3 sq hm h (by decide) rfl, .of 4 false hm h (by decide) rfl,
    .of 5 false hm h (by decide) rfl, .of 6 false hm h (by decide) rfl, .of 7 false hm h (by decide) rfl, .of 8 false hm h (by decide) rfl,
    .of 12 false hm h (by decide) rfl, List.forall_mem_nil _⟩

/-- Settles O60: the frames of the commands give the parts, and what a command of one seat does is apart from every other seat. -/
theorem eachPartChangesByItsOwnCommands : Obligations.EachPartChangesByItsOwnCommands := by
  refine ⟨fun c s t e => ?_, fun s src m k slot reg v b hm h => ringWrites_apart s src m k slot reg v b hm h,
    fun s m k sq hm h => seatCommands_apart s m k sq hm h⟩
  have hk := (exec_keeps c s).next_keeps t e
  obtain ⟨u, hu, ho⟩ := (exec_own c s).next_own t e
  rw [movesWindow_eq, movesJournal_eq, movesTime_eq, movesCust_eq, movesOffers_eq]
  refine ⟨hk.window, hk.journal, hk.time, hk.cust, hk.offers, u, hu, ?_⟩
  rw [actsOnSeats_eq, actsOnRings_eq, actsOnJobs_eq, actsOnKeys_eq, actsOnAlarms_eq, actsOnMem_eq, actsOnFront_eq, actsOnRelay_eq, actsOnEntropy_eq,
    actsOnEngines_eq, actsOnPlace_eq, actsOnBuffers_eq, actsOnStart_eq]
  exact ⟨ho.seats, ho.rings, ho.jobs, ho.keys, ho.alarms, ho.mem, ho.front, ho.relay, ho.entropy, ho.engines, ho.place, ho.buffers, ho.start⟩

end Sys2Proof.Machine
end

section
/-! PROOF. Seat commands and transitions (O56, O57). -/

namespace Sys2Proof.Machine

-- Seat commands (R129 to R131)

/-- The table of R129: the states of a seat in which a command is listed. -/
def inTable (t : Seat) (cmd : Nat) : Bool :=
  match cmd with
  | 1 => t.state == 0
  | 2 => t.state == 1
  | 3 => t.state == 2
  | 4 => t.state == 3
  | 5 => t.state == 1 || t.state == 2 || t.state == 3 || (t.state == 4 && !t.saved)
  | 6 => t.state == 1 || (t.state == 4 && t.saved)
  | 7 => t.state == 3
  | 8 => t.state == 4 && !t.saved
  | 9 => t.state == 1
  | 10 => t.state == 4 && !t.saved
  | 11 => t.state == 1
  | 12 => t.state == 1 && t.offer
  | _ => false

theorem seatAct_unlisted (s : State) (cmd m : Nat) (sq : Bool) (h : inTable (s.seat m) cmd = false) : seatAct s cmd m sq = .error 1 := by
  unfold seatAct
  dsimp only
  split <;> simp_all [inTable]

/-- A seat command of the manager that HOSTREG serves. -/
theorem exec_seatCmd (s : State) (cmd m : Nat) (sq : Bool) (hs : s.served 0x20000 = true) (hm : m < 1024) :
    seatExec cmd m sq s = .next (carryAll (seatCmd s cmd m sq)) := by
  rw [seatExec, Nat.mod_eq_of_lt hm]
  exact ok_carryAll (mgrWrite_served s 0x20000 _ hs)

/-- A command that nothing refuses at once is judged by the table. -/
theorem seatCmd_judged (s : State) (cmd m : Nat) (sq : Bool) (h0 : m ≠ 0) (h1 : cmd = 1 → s.start.state = 3)
    (ht : (s.seat m).transit = .none ∨ (cmd = 5 ∧ resetting (s.seat m) = false)) :
    seatCmd s cmd m sq = match seatAct (seatResult s cmd m 0) cmd m sq with
      | .ok s => s
      | .error r => seatResult s cmd m r := by
  have h1' : ¬(s.start.state ≠ 3 ∧ cmd = 1) := fun h => h.1 (h1 h.2)
  have ht' : ¬((s.seat m).transit ≠ .none ∧ (cmd ≠ 5 ∨ resetting (s.seat m) = true)) := by
    obtain h | ⟨h5, hr⟩ := ht
    · exact fun g => g.1 h
    · exact fun g => g.2.elim (fun n => n h5) (fun r => by rw [hr] at r; exact Bool.noConfusion r)
  rw [seatCmd]
  rw [if_neg h0, if_neg h1', if_neg ht'] <;> rfl

-- The rows of the table

theorem seatAct_configure (s : State) (m : Nat) (sq : Bool) (h : (s.seat m).state = 0) : seatAct s 1 m sq =
    if (s.seat m).spent then .error 9 else if !settingsOk s m then .error 2 else .ok (s.modSeat m (fun t => { t with state := 1 })) := by
  simp only [seatAct, h]

theorem seatAct_start (s : State) (m : Nat) (sq : Bool) (h : (s.seat m).state = 1) : seatAct s 2 m sq =
    if settingsOk s m then .ok (startCmd s m) else .error 2 := by
  simp only [seatAct, h]

theorem seatAct_curtain (s : State) (m : Nat) (sq : Bool) (h : (s.seat m).state = 2) : seatAct s 3 m sq =
    .ok (curtainCmd s m sq) := by
  simp only [seatAct, h]

theorem seatAct_restart (s : State) (m : Nat) (sq : Bool) (h : (s.seat m).state = 3) : seatAct s 4 m sq =
    if settingsOk s m then .ok (restartCmd s m) else .error 2 := by
  simp only [seatAct, h]

theorem seatAct_freeze (s : State) (m : Nat) (sq : Bool) (h : (s.seat m).state = 3) : seatAct s 7 m sq =
    .ok (freezeCmd s m) := by
  simp only [seatAct, h]

theorem seatAct_migOffer (s : State) (m : Nat) (sq : Bool) (h : (s.seat m).state = 1) : seatAct s 9 m sq =
    if !migProviders s then .error 1 else if s.seatRegs.migBufLen < 1232 then .error 4 else .ok (migBegin s m .offer) := by
  simp only [seatAct, h]

theorem seatAct_restore (s : State) (m : Nat) (sq : Bool) (h : (s.seat m).state = 1) : seatAct s 11 m sq =
    if !(s.seat m).offer then .error 6 else if !migProviders s then .error 1
      else if s.seatRegs.migBufLen < 1184 then .error 7 else .ok (migBegin s m .restore) := by
  simp only [seatAct, h]

theorem seatAct_migCancel (s : State) (m : Nat) (sq : Bool) (h : (s.seat m).state = 1) : seatAct s 12 m sq =
    if (s.seat m).offer then .ok (setOffer (s.modSeat m (fun t => { t with offer := false })) m {}) else .error 1 := by
  simp only [seatAct, h]

theorem seatAct_reset (s : State) (m : Nat) (sq : Bool)
    (h : (s.seat m).state = 1 ∨ (s.seat m).state = 2 ∨ (s.seat m).state = 3 ∨ ((s.seat m).state = 4 ∧ (s.seat m).saved = false)) :
    seatAct s 5 m sq = .ok (resetCmd s m) := by
  obtain h | h | h | ⟨h, hv⟩ := h
  · simp only [seatAct, h]
  · simp only [seatAct, h]
  · simp only [seatAct, h]
  · simp only [seatAct, h, hv, Bool.false_eq_true, if_false]

theorem seatAct_disable (s : State) (m : Nat) (sq : Bool) (h : (s.seat m).state = 1 ∨ ((s.seat m).state = 4 ∧ (s.seat m).saved = true)) :
    seatAct s 6 m sq = .ok (disableCmd s m) := by
  obtain h | ⟨h, hv⟩ := h
  · simp only [seatAct, h]
  · simp only [seatAct, h, hv, if_true]

theorem seatAct_thaw (s : State) (m : Nat) (sq : Bool) (h : (s.seat m).state = 4) (hv : (s.seat m).saved = false) :
    seatAct s 8 m sq = .ok (s.modSeat m (fun t => { t with state := 3 })) := by
  simp only [seatAct, h, hv, Bool.false_eq_true, if_false]

theorem seatAct_save (s : State) (m : Nat) (sq : Bool) (h : (s.seat m).state = 4) (hv : (s.seat m).saved = false) :
    seatAct s 10 m sq = if migProviders s then .ok (migBegin s m .save) else .error 1 := by
  simp only [seatAct, h, hv, Bool.false_or]
  cases migProviders s <;> rfl

/-- A seat's command is judged at once: no transition is in progress, or a RESET takes it over. -/
structure Judged (s : State) (cmd m : Nat) : Prop where
  served : s.served 0x20000 = true
  seat : m ≠ 0
  range : m < 1024
  stage : cmd = 1 → s.start.state = 3
  transit : (s.seat m).transit = .none ∨ (cmd = 5 ∧ resetting (s.seat m) = false)

theorem Judged.accepted {s u : State} {cmd m : Nat} {sq : Bool} (h : Judged s cmd m) (e : seatAct (seatResult s cmd m 0) cmd m sq = .ok u) :
    seatExec cmd m sq s = .next (carryAll u) := by
  rw [exec_seatCmd s cmd m sq h.served h.range, seatCmd_judged s cmd m sq h.seat h.stage h.transit, e]

theorem Judged.refused {s : State} {cmd m r : Nat} {sq : Bool} (h : Judged s cmd m) (e : seatAct (seatResult s cmd m 0) cmd m sq = .error r) :
    seatExec cmd m sq s = .next (carryAll (seatResult s cmd m r)) := by
  rw [exec_seatCmd s cmd m sq h.served h.range, seatCmd_judged s cmd m sq h.seat h.stage h.transit, e]

/-- A command in a state the table does not list for it is refused with RESULT 0x01. -/
theorem Judged.unlisted {s : State} {cmd m : Nat} {sq : Bool} (h : Judged s cmd m) (e : inTable (s.seat m) cmd = false) :
    seatExec cmd m sq s = .next (carryAll (seatResult s cmd m 1)) :=
  h.refused (seatAct_unlisted _ cmd m sq e)

/-- A transition in progress refuses a command but a RESET that may take it over. -/
theorem seatExec_busy (s : State) (cmd m : Nat) (sq : Bool) (hs : s.served 0x20000 = true) (hm : m < 1024) (h0 : m ≠ 0) (h1 : cmd = 1 → s.start.state = 3)
    (ht : (s.seat m).transit ≠ .none) (h5 : cmd = 5 → resetting (s.seat m) = true) :
    seatExec cmd m sq s = .next (carryAll (seatResult s cmd m 3)) := by
  have hb : cmd ≠ 5 ∨ resetting (s.seat m) = true := by
    by_cases e : cmd = 5
    · exact .inr (h5 e)
    · exact .inl e
  rw [exec_seatCmd s cmd m sq hs hm, seatCmd]
  simp only [h0, if_false, show ¬(s.start.state ≠ 3 ∧ cmd = 1) from fun h => h.1 (h1 h.2), ht, hb, ne_eq, not_false_eq_true, and_self, if_true]

theorem seatExec_seat0 (s : State) (cmd : Nat) (sq : Bool) (hs : s.served 0x20000 = true) :
    seatExec cmd 0 sq s = .next (carryAll (seatResult s cmd 0 0x0A)) := by
  rw [exec_seatCmd s cmd 0 sq hs (by decide), seatCmd, if_pos rfl]

theorem seatExec_unready (s : State) (m : Nat) (sq : Bool) (hs : s.served 0x20000 = true) (hm : m < 1024) (h0 : m ≠ 0) (h : s.start.state ≠ 3) :
    seatExec 1 m sq s = .next (carryAll (seatResult s 1 m 1)) := by
  rw [exec_seatCmd s 1 m sq hs hm, seatCmd]
  simp only [h0, if_false, h, ne_eq, not_false_eq_true, and_self, if_true]

-- What the commands leave of their seat

theorem foldl_modRing_ring (l : List Nat) (s : State) (m i : Nat) (f : Ring → Ring) (hl : l.Nodup) :
    (l.foldl (fun s j => s.modRing m j f) s).ring m i = if i ∈ l then f (s.ring m i) else s.ring m i := by
  induction l generalizing s with
  | nil => rfl
  | cons j l ih =>
    obtain ⟨hj, hl⟩ := List.nodup_cons.mp hl
    rw [List.foldl_cons, ih _ hl]
    by_cases e : i = j
    · subst e
      simp [hj]
    · have hr : (s.modRing m j f).ring m i = s.ring m i := State.ring_modRing_other s m j m i f (by unfold ringKey; omega)
      simp only [hr, List.mem_cons, e, false_or]

theorem onSlots_ring (s : State) (m i : Nat) (f : Ring → Ring) (hi : i < 16) : (onSlots s m f).ring m i = f (s.ring m i) := by
  rw [onSlots, foldl_modRing_ring _ _ _ _ _ List.nodup_range, if_pos (List.mem_range.mpr hi)]

theorem onSlots_seat (s : State) (m i : Nat) (f : Ring → Ring) : (onSlots s m f).seat i = s.seat i := State.seat_of_seats ((onSlots_keeps s m f).seats rfl) i

theorem applySeatX_seat (s : State) (m : Nat) : (applySeatX s m).seat m = { s.seat m with act := (s.seat m).set } := by
  unfold applySeatX
  extract_lets t s1
  have h1 : s1.seat m = s.seat m := by
    show (if _ then tlbDropSeat s m else s).seat m = _
    split <;> rfl
  rw [State.seat_modSeat, h1]

theorem startCmd_seat (s : State) (m : Nat) : (startCmd s m).seat m = { s.seat m with act := (s.seat m).set, state := 2, bucket := 65536 } := by
  unfold startCmd
  extract_lets s1 s2
  rw [State.seat_of_seats ((instRequest_keeps ..).seats rfl), State.seat_modSeat, onSlots_seat, applySeatX_seat]

theorem restartCmd_seat (s : State) (m : Nat) : (restartCmd s m).seat m = { s.seat m with act := (s.seat m).set, state := 2 } := by
  unfold restartCmd
  extract_lets s1 s2
  rw [State.seat_of_seats ((instRequest_keeps ..).seats rfl), State.seat_modSeat, onSlots_seat, applySeatX_seat]

theorem curtainCmd_seat (s : State) (m : Nat) (sq : Bool) : (curtainCmd s m sq).seat m = { s.seat m with transit := .curtain sq } := by
  rw [curtainCmd_eq, State.seat_of_seats ((squash_keeps ..).seats rfl), State.seat_modSeat, onSlots_seat]
  rfl

theorem curtainCmd_ring (s : State) (m i : Nat) (sq : Bool) (hi : i < 16) : (curtainCmd s m sq).ring m i = noteCut (s.ring m i) := by
  rw [curtainCmd_eq, State.ring_of_rings ((squash_keeps ..).rings rfl), State.ring_of_rings ((State.modSeat_keeps ..).rings rfl), onSlots_ring _ _ _ _ hi]

theorem tabGet_filter_out {α : Type} (d : α) (t : List (Nat × α)) (q : Nat → Bool) (i : Nat) (h : q i = false) : tabGet d (t.filter (fun e => q e.1)) i = d := by
  induction t with
  | nil => rfl
  | cons e t ih =>
    by_cases he : q e.1 = true
    · rw [List.filter_cons_of_pos (by exact he)]
      have hi : e.1 ≠ i := fun e' => by rw [e', h] at he; exact Bool.noConfusion he
      simp [tabGet, hi, ih]
    · rw [List.filter_cons_of_neg (by exact he), ih]

theorem dropSeat_keeps (s : State) (m : Nat) : Keeps (only [.mem, .entropy, .keys, .buffers]) s (tlbDropSeat (eraseSeatKeys (dropRegions s m) m) m) :=
  (((dropRegions_keeps s m).mono rfl).trans ((eraseSeatKeys_keeps _ m).mono rfl)).trans ((tlbDropSeat_keeps _ m).mono rfl)

theorem disableCmd_seat (s : State) (m : Nat) : ∃ u : Seat, u = s.seat m ∧ (disableCmd s m).seat m =
    { u with state := 0, gen := if u.gen < 0xFFFF then u.gen + 1 else u.gen, spent := u.spent || u.gen == 0xFFFF, saved := false, offer := false
             shareW := ({} : Seat).shareW, shareJ := ({} : Seat).shareJ, shareK := ({} : Seat).shareK, actW := ({} : Seat).shareW
             actJ := ({} : Seat).shareJ, actK := ({} : Seat).shareK, set := {}, act := {}, bays := [], rrSlot := 0 } := by
  refine ⟨_, rfl, ?_⟩
  unfold disableCmd
  extract_lets s1 src s2 d
  have h2 : s2.seat m = s.seat m := State.seat_of_seats (((setOffer_keeps s1 m {}).seats rfl).trans ((dropSeat_keeps s m).seats rfl)) m
  rw [State.seat_modSeat, h2]

theorem disableCmd_ring (s : State) (m i : Nat) (hi : i < 16) : (disableCmd s m).ring m i = {} :=
  tabGet_filter_out ({} : Ring) s.rings (fun n => n / 16 != m) (ringKey m i) (by
    have : ringKey m i / 16 = m := by unfold ringKey; omega
    simp [this])

/-- What a reset leaves of a ring (R155). -/
def resetRing (r : Ring) : Ring := { ringFresh r with set := { r.set with enable := false }, act := { r.act with enable := false }, recsOut := 0 }

theorem resetCmd_seat (s : State) (m : Nat) : ((resetCmd s m).seat m).transit = .reset s.time.mono := by
  unfold resetCmd
  extract_lets s1 s2 js ids s3 s4 mem s5 s6 s7
  have k3 : Keeps (only [.relay]) s2 s3 := .foldl js (fun t j => cancelAway_keeps t j) (.refl s2)
  have k4 : Keeps (only [.keys, .engines]) s3 s4 :=
    .foldl ids (fun t id => ((freeSpill_keeps t id).mono rfl).trans ((engineLeave_keeps (freeSpill t id) id).mono rfl)) (.refl s3)
  have h5 : s5.time = s4.time := (lastAborted_keeps _).time rfl
  have h7 : s7.time = s6.time := (onSlots_keeps s6 m resetRing).time rfl
  have ht : s7.time = s.time := by
    rw [h7, show s6.time = s5.time from (dropSeat_keeps s5 m).time rfl, h5, k4.time rfl, k3.time rfl, (stopWhere_keeps ..).time rfl, (migAbandon_keeps ..).time rfl]
  rw [State.seat_modSeat]
  exact congrArg (fun t : TimeBase => Transit.reset t.mono) ht

theorem resetCmd_jobs (s : State) (m : Nat) : ∀ j ∈ (resetCmd s m).jobs, resetJob m j = false := by
  unfold resetCmd
  extract_lets s1 s2 js ids s3 s4 mem s5 s6 s7
  have h5 : s5.jobs = s4.jobs.filter (fun j => !resetJob m j) := (lastAborted_keeps _).jobs rfl
  have h6 : s6.jobs = s5.jobs := (dropSeat_keeps s5 m).jobs rfl
  have h7 : s7.jobs = s5.jobs := ((onSlots_keeps s6 m resetRing).jobs rfl).trans h6
  rw [(State.modSeat_keeps s7 m _).jobs rfl]
  intro j hj'
  rw [h7, h5] at hj'
  simpa using (List.mem_filter.mp hj').2

theorem resetCmd_ring (s : State) (m i : Nat) (hi : i < 16) : ∃ r, (resetCmd s m).ring m i = resetRing r := by
  unfold resetCmd
  extract_lets s1 s2 js ids s3 s4 mem s5 s6 s7
  refine ⟨s6.ring m i, ?_⟩
  rw [State.ring_of_rings ((State.modSeat_keeps s7 m _).rings rfl)]
  exact onSlots_ring s6 m i resetRing hi

-- The table's commands (O56)

/-- `a` of O56 is the state in which the command is noted as accepted. -/
theorem seatResult_zero (s : State) (c m : Nat) : seatResult s c m 0 = { s with seatRegs := { s.seatRegs with cmdSts := c * 2 ^ 24 + m } } := by
  simp only [seatResult, State.modRegs, Nat.zero_mul, Nat.add_zero]

/-- Settles O56: the rows of the table, what each command leaves of its seat, and its refusals. -/
theorem seatCommandsFollowTheirTable : Obligations.SeatCommandsFollowTheirTable := by
  intro s m t ht hs hm1 hm a ha
  subst ht
  have h0 : m ≠ 0 := Nat.one_le_iff_ne_zero.mp hm1
  have ea (c : Nat) : a c = seatResult s c m 0 := by rw [ha, seatResult_zero]
  have other (c : Nat) (hn : (s.seat m).transit = .none) (hc : c ≠ 1) : Judged s c m := ⟨hs, h0, hm, fun e => absurd e hc, .inl hn⟩
  refine ⟨fun hn => ?_, fun hr hst => ?_, fun sq n refused en er => ?_⟩
  · refine ⟨fun hst h3 hsp hok => ?_, fun hst hok => ?_, fun sq hst => ?_, fun hst hok => ?_, fun hst => ?_, fun hst => ?_, fun hst hv => ?_,
      fun hst hp hb => ?_, fun hst hv hp => ?_, fun hst ho hp hb => ?_, fun hst ho => ?_, fun hst sq => ?_⟩
    · rw [ea] at hok ⊢
      have hsp' : ((seatResult s 1 m 0).seat m).spent = false := hsp
      refine Judged.accepted ⟨hs, h0, hm, fun _ => h3, .inl hn⟩ ?_
      rw [seatAct_configure (seatResult s 1 m 0) m false hst, hsp', hok]
      rfl
    · rw [ea] at hok ⊢
      refine ⟨(other 2 hn (by decide)).accepted ?_, ?_, ?_, ?_⟩
      · rw [seatAct_start (seatResult s 2 m 0) m false hst, if_pos hok]
      all_goals rw [startCmd_seat]
      rfl
    · rw [ea]
      refine ⟨(other 3 hn (by decide)).accepted (seatAct_curtain (seatResult s 3 m 0) m sq hst), ?_, fun i hi => ?_⟩
      · rw [curtainCmd_seat]
      · rw [curtainCmd_ring _ _ _ _ hi]; rfl
    · rw [ea] at hok ⊢
      refine ⟨(other 4 hn (by decide)).accepted ?_, ?_, ?_⟩
      · rw [seatAct_restart (seatResult s 4 m 0) m false hst, if_pos hok]
      all_goals rw [restartCmd_seat]
      rfl
    · rw [ea]
      obtain ⟨u, hu, hd⟩ := disableCmd_seat (seatResult s 6 m 0) m
      have hu' : u = s.seat m := hu
      rw [hd, hu']
      refine ⟨(other 6 hn (by decide)).accepted (seatAct_disable (seatResult s 6 m 0) m false hst), rfl, rfl, fun hg => ?_, rfl,
        fun i hi => disableCmd_ring _ m i hi⟩
      show ((s.seat m).spent || (s.seat m).gen == 0xFFFF) = true
      rw [hg, beq_self_eq_true, Bool.or_true]
    · rw [ea]
      exact (other 7 hn (by decide)).accepted (seatAct_freeze (seatResult s 7 m 0) m false hst)
    · rw [ea]
      exact (other 8 hn (by decide)).accepted (seatAct_thaw (seatResult s 8 m 0) m false hst hv)
    · rw [ea]
      have hp' : migProviders (seatResult s 9 m 0) = true := hp
      refine (other 9 hn (by decide)).accepted ?_
      rw [seatAct_migOffer (seatResult s 9 m 0) m false hst, hp']
      exact if_neg (Nat.not_lt.mpr hb)
    · rw [ea]
      refine (other 10 hn (by decide)).accepted ?_
      rw [seatAct_save (seatResult s 10 m 0) m false hst hv]
      exact if_pos hp
    · rw [ea]
      have hp' : migProviders (seatResult s 11 m 0) = true := hp
      have ho' : ((seatResult s 11 m 0).seat m).offer = true := ho
      refine (other 11 hn (by decide)).accepted ?_
      rw [seatAct_restore (seatResult s 11 m 0) m false hst, hp', ho']
      exact if_neg (Nat.not_lt.mpr hb)
    · rw [ea]
      refine (other 12 hn (by decide)).accepted ?_
      rw [seatAct_migCancel (seatResult s 12 m 0) m false hst]
      exact if_pos ho
    · exact (other 3 hn (by decide)).unlisted (by simpa [inTable] using hst)
  · rw [ea]
    have hr' : resetting (s.seat m) = false := by
      unfold resetting
      split
      · next b hb => exact absurd hb (hr b)
      · rfl
    refine ⟨Judged.accepted ⟨hs, h0, hm, fun e => absurd e (by decide), .inr ⟨rfl, hr'⟩⟩ (seatAct_reset (seatResult s 5 m 0) m false hst), resetCmd_seat _ m, resetCmd_jobs _ m,
      fun i hi => ?_⟩
    obtain ⟨r, e⟩ := resetCmd_ring (seatResult s 5 m 0) m i hi
    rw [e]
    exact ⟨rfl, rfl⟩
  · have er' (c r m : Nat) : refused c r m = .next (carryAll (seatResult s c m r)) := by rw [er]; rfl
    have row (k : Nat) : ∀ p ∈ n k, (∃ b, exec p.2.1 s = seatExec p.1 k b s) ∧ p.2.2 = inTable (s.seat m) p.1 := by
      rw [en]
      simp only [List.forall_mem_cons]
      exact ⟨⟨⟨false, rfl⟩, rfl⟩, ⟨⟨false, rfl⟩, rfl⟩, ⟨⟨sq, rfl⟩, rfl⟩, ⟨⟨false, rfl⟩, rfl⟩, ⟨⟨false, rfl⟩, rfl⟩, ⟨⟨false, rfl⟩, rfl⟩, ⟨⟨false, rfl⟩, rfl⟩,
        ⟨⟨false, rfl⟩, rfl⟩, ⟨⟨false, rfl⟩, rfl⟩, ⟨⟨false, rfl⟩, rfl⟩, ⟨⟨false, rfl⟩, rfl⟩, ⟨⟨false, rfl⟩, rfl⟩, List.forall_mem_nil _⟩
    refine ⟨fun p hp => ?_, fun h3 => ?_, fun hn p hp h1 h5 => ?_, fun hn p hp hf => ?_, fun hn => ?_⟩
    · obtain ⟨⟨b, e⟩, -⟩ := row 0 p hp
      rw [e, er']
      exact seatExec_seat0 s p.1 b hs
    · rw [er']
      exact seatExec_unready s m false hs hm h0 h3
    · obtain ⟨⟨b, e⟩, -⟩ := row m p hp
      rw [e, er']
      refine seatExec_busy s p.1 m b hs hm h0 h1 hn (fun c => ?_)
      obtain ⟨at_, ht⟩ := h5 c
      rw [resetting, ht]
    · obtain ⟨⟨b, e⟩, hl⟩ := row m p hp
      rw [e, er']
      by_cases h3 : p.1 = 1 → s.start.state = 3
      · exact Judged.unlisted ⟨hs, h0, hm, h3, .inl hn⟩ (hl ▸ hf)
      · obtain ⟨e1, h3⟩ := Classical.not_imp.mp h3
        rw [e1]
        exact seatExec_unready s m b hs hm h0 h3
    · simp only [er']
      refine ⟨fun hst h3 => ⟨fun hsp => ?_, fun hsp hok => ?_⟩, fun hst hok => ?_, fun hst hok => ?_, fun hst => ⟨fun hp => ?_, fun hp hb => ?_⟩,
        fun hst hv hp => ?_, fun hst => ⟨fun ho => ?_, fun ho hp => ?_, fun ho hp hb => ?_⟩⟩
      · refine Judged.refused ⟨hs, h0, hm, fun _ => h3, .inl hn⟩ ?_
        rw [seatAct_configure (seatResult s 1 m 0) m false hst]
        exact if_pos hsp
      · rw [ea] at hok
        have hsp' : ((seatResult s 1 m 0).seat m).spent = false := hsp
        refine Judged.refused ⟨hs, h0, hm, fun _ => h3, .inl hn⟩ ?_
        rw [seatAct_configure (seatResult s 1 m 0) m false hst, hsp', hok]
        rfl
      · rw [ea] at hok
        refine (other 2 hn (by decide)).refused ?_
        rw [seatAct_start (seatResult s 2 m 0) m false hst, hok]
        rfl
      · rw [ea] at hok
        refine (other 4 hn (by decide)).refused ?_
        rw [seatAct_restart (seatResult s 4 m 0) m false hst, hok]
        rfl
      · have hp' : migProviders (seatResult s 9 m 0) = false := hp
        refine (other 9 hn (by decide)).refused ?_
        rw [seatAct_migOffer (seatResult s 9 m 0) m false hst, hp']
        rfl
      · have hp' : migProviders (seatResult s 9 m 0) = true := hp
        refine (other 9 hn (by decide)).refused ?_
        rw [seatAct_migOffer (seatResult s 9 m 0) m false hst, hp']
        exact if_pos hb
      · have hp' : migProviders (seatResult s 10 m 0) = false := hp
        refine (other 10 hn (by decide)).refused ?_
        rw [seatAct_save (seatResult s 10 m 0) m false hst hv, hp']
        rfl
      · have ho' : ((seatResult s 11 m 0).seat m).offer = false := ho
        refine (other 11 hn (by decide)).refused ?_
        rw [seatAct_restore (seatResult s 11 m 0) m false hst, ho']
        rfl
      · have ho' : ((seatResult s 11 m 0).seat m).offer = true := ho
        have hp' : migProviders (seatResult s 11 m 0) = false := hp
        refine (other 11 hn (by decide)).refused ?_
        rw [seatAct_restore (seatResult s 11 m 0) m false hst, ho', hp']
        rfl
      · have ho' : ((seatResult s 11 m 0).seat m).offer = true := ho
        have hp' : migProviders (seatResult s 11 m 0) = true := hp
        refine (other 11 hn (by decide)).refused ?_
        rw [seatAct_restore (seatResult s 11 m 0) m false hst, ho', hp']
        exact if_pos hb

end Sys2Proof.Machine
end

section
/-! PROOF. Transitions end and settings are taken (O57). -/

namespace Sys2Proof.Machine

theorem ok_fin {t u : State} (h : t = u) : ok (fin t) = .next (fin u) := by rw [h, ok]

-- Ends of transitions (R148, R156, R271)

theorem curtainQuiet_quiet (s : State) (m : Nat) (sq : Bool) (ht : (s.seat m).transit = .curtain sq) (hr : ∀ i < 16, cutReached (s.ring m i) = true)
    (hj : ∀ j ∈ s.jobs, holdsCurtain m j = false) (hw : seatWrites s m = false) :
    curtainQuiet s m = vector ((onSlots s m (fun r => { r with cut := none })).modSeat m (fun t => { t with state := 3, transit := .none })) 1 := by
  have hall : (List.range 16).all (fun i => cutReached (s.ring m i)) = true := List.all_eq_true.mpr (fun i hi => hr i (List.mem_range.mp hi))
  have hany : s.jobs.any (holdsCurtain m) = false := List.any_eq_false.mpr (fun j h => by rw [hj j h]; exact Bool.false_ne_true)
  rw [curtainQuiet, ht]
  simp only [hall, hany, hw, Bool.not_false, Bool.and_self, if_true]

/-- What `resetReport` makes of the seat. -/
def reportedSeat (writing : Bool) (t : Seat) : Seat :=
  { t with state := 1, transit := .none, resetJobs := [], saved := false, writesOpen := writing, credit := if admitRate t = 0 then t.credit else admitDepth t }

theorem resetReport_done (s : State) (m : Nat) (b : Stamp) (ht : (s.seat m).transit = .reset b)
    (h : oldWrites s m = false ∨ s.due (b + 100000 * nsUnit) = true) :
    resetReport s m = vector (zeroInst (if oldWrites s m then alarmC (s.modSeat m (reportedSeat (oldWrites s m))) 0x45 m 0
      else s.modSeat m (reportedSeat (oldWrites s m))) m) 1 := by
  have hc : (oldWrites s m && !s.due (b + 100000 * nsUnit)) = false := by
    cases h with
    | inl h => rw [h]; rfl
    | inr h => rw [h]; exact Bool.and_false _
  rw [resetReport, ht]
  simp only [hc, Bool.false_eq_true, if_false]
  rfl

theorem transitionEnd_freeze (s : State) (m : Nat) (ht : (s.seat m).transit = .freeze) (hf : flushed (freezeFlush s m) m = true) :
    transitionEnd s m = vector ((freezeFlush s m).modSeat m (fun t => { t with state := 4, transit := .none })) 1 := by
  rw [transitionEnd, ht]
  simp only [hf, if_true]

-- Ends of migrations (R159, R162, R164)

/-- One round of `migGo`. -/
def migRound (last : Bool) (s : State) : State := migStep (migTake s) last

theorem migGo_eq (s : State) (last : Bool) : migGo s last = (List.range 7).foldl (fun u _ => migRound last u) (migRound last s) := by
  rw [show migGo s last = (List.range 8).foldl (fun u _ => migRound last u) s from rfl, List.range_succ_eq_map, List.foldl_cons, List.foldl_map]

theorem migTake_busy (s : State) (m : Nat) (h : s.seatRegs.migSeat = some m) : migTake s = s := by
  unfold migTake
  split
  · next hn _ => rw [h] at hn; exact nomatch hn
  · rfl

theorem migTake_empty (s : State) (h : s.seatRegs.migQueue = []) : migTake s = s := by
  unfold migTake
  split
  · next hn => rw [h] at hn; exact nomatch hn
  · rfl

theorem migRound_rest (s : State) (last : Bool) (h : s.seatRegs.migSeat = none) (hq : s.seatRegs.migQueue = []) : migRound last s = s := by
  rw [migRound, migTake_empty s hq, migStep, h]

theorem foldl_migRound_rest (l : List Nat) (s : State) (last : Bool) (h : s.seatRegs.migSeat = none) (hq : s.seatRegs.migQueue = []) :
    l.foldl (fun u _ => migRound last u) s = s := by
  induction l with
  | nil => rfl
  | cons i l ih => rw [List.foldl_cons, migRound_rest s last h hq, ih]

theorem migRound_step (s : State) (m : Nat) (h : s.seatRegs.migSeat = some m) (hi : migIdle s = true) (hv : s.alarms.verifying = false) :
    migRound true s = match (s.seat m).transit with
      | .offer => offerStep s m true
      | .save => saveStep s m true
      | .restore => restoreStep s m true
      | _ => s := by
  rw [migRound, migTake_busy s m h, migStep, h]
  simp only [hi, hv, Bool.not_true, Bool.or_self, Bool.false_eq_true, if_false] <;> rfl

theorem transitionEnd_mig (s : State) (m : Nat) (h : s.seatRegs.migSeat = some m)
    (ht : (s.seat m).transit = .offer ∨ (s.seat m).transit = .save ∨ (s.seat m).transit = .restore) : transitionEnd s m = migGo s true := by
  have hb : (s.seatRegs.migSeat == some m) = true := beq_iff_eq.mpr h
  obtain ht | ht | ht := ht <;> rw [transitionEnd, ht] <;> simp only [hb]

/-- Jobs taken out of the block, with their spill slots. -/
theorem dropJobs_keeps (l : List Nat) (s : State) : Keeps (only [.keys, .jobs]) s (l.foldl (fun s id => (freeSpill s id).dropJob id) s) :=
  .foldl l (fun t id => ((freeSpill_keeps t id).mono rfl).trans ((State.dropJob_keeps _ id).mono rfl)) (.refl s)

/-- A good end of a migration clears the transition of its seat. -/
theorem migEnd_seat (s : State) (m : Nat) (h : s.seatRegs.migSeat = some m) : (migEnd s 0).seat m = { s.seat m with transit := .none } := by
  unfold migEnd
  split
  · next hn => rw [h] at hn; exact nomatch hn
  · next m' hm' =>
    obtain rfl : m = m' := Option.some.inj (h.symm.trans hm')
    extract_lets undo mine gone s1 sts s2
    have h1 : s1.seat m = s.seat m := State.seat_of_seats ((dropJobs_keeps gone s).seats rfl) m
    have h2 : s2.seat m = { s.seat m with transit := .none } := by rw [State.seat_modSeat, h1]
    exact (State.seat_of_seats ((vector_keeps _ 1).seats rfl) m).trans h2

theorem saveEnd_seat (s : State) (m : Nat) (h : s.seatRegs.migSeat = some m) : (saveEnd s m).seat m = { s.seat m with saved := true, transit := .none } := by
  unfold saveEnd
  extract_lets s1
  have k1 : Keeps (only [.keys, .jobs]) s s1 :=
    .foldl (pausedJobs s m) (fun t j => ((freeSpill_keeps t j.id).mono rfl).trans ((State.dropJob_keeps _ j.id).mono rfl)) (.refl s)
  rw [migEnd_seat _ m (by rw [(State.modSeat_keeps s1 m _).seatRegs rfl, k1.seatRegs rfl, h]), State.seat_modSeat, State.seat_of_seats (k1.seats rfl)]

theorem restoreEnd_seat (s : State) (m : Nat) (h : s.seatRegs.migSeat = some m) :
    (restoreEnd s m).seat m = { s.seat m with state := 4, offer := false, saved := false, transit := .none } := by
  unfold restoreEnd
  extract_lets s1
  have k1 : Keeps (only [.rings]) s s1 := restoreRings_keeps ..
  have hr : (setOffer (s1.modSeat m (fun t => { t with state := 4, offer := false, saved := false })) m {}).seatRegs.migSeat = some m := by
    rw [(setOffer_keeps ..).seatRegs rfl, (State.modSeat_keeps s1 m _).seatRegs rfl, k1.seatRegs rfl, h]
  rw [migEnd_seat _ m hr, State.seat_of_seats ((setOffer_keeps _ m {}).seats rfl), State.seat_modSeat, State.seat_of_seats (k1.seats rfl)]

theorem saveStep_last (s : State) (m : Nat) (h : 6 ≤ s.seatRegs.migStep) : saveStep s m true = saveEnd s m := by
  obtain ⟨n, e⟩ := Nat.exists_eq_add_of_le h
  rw [saveStep, e, Nat.add_comm]
  rfl

theorem restoreStep_last (s : State) (m : Nat) (h : 4 ≤ s.seatRegs.migStep) : restoreStep s m true = restoreEnd s m := by
  obtain ⟨n, e⟩ := Nat.exists_eq_add_of_le h
  rw [restoreStep, e, Nat.add_comm]
  rfl

/-- What MIG_OFFER has set before its transition ends. -/
def offerMade (s : State) (m : Nat) (k : List (Nat × Bytes)) : State :=
  ((setOffer s m { ident := tabGet [] k 0, xPriv := tabGet [] k 1, kemDk := tabGet [] k 2 }).modSeat m (fun t => { t with offer := true })).modRegs
    (fun g => { g with migLen := 1232 })

theorem offerMade_seat (s : State) (m : Nat) (k : List (Nat × Bytes)) : (offerMade s m k).seat m = { s.seat m with offer := true } :=
  State.seat_modSeat (setOffer s m { ident := tabGet [] k 0, xPriv := tabGet [] k 1, kemDk := tabGet [] k 2 }) m (fun t => { t with offer := true })

-- Settings (R143, R151, R152)

theorem latchEpoch_seat (s : State) (m : Nat) : (latchEpoch s).seat m = s.seat m := State.seat_of_seats ((latchEpoch_keeps s).seats rfl) m

theorem seatXWrite_rejected (s : State) (o : Nat) (v : W32) (h : seatXOpen s s.seatRegs.sel = false) : seatXWrite s o v = rejectCfg s s.seatRegs.sel := by
  simp only [seatXWrite, h, Bool.not_false, Bool.true_or, if_true]

/-- A setting that is taken: at once while no job of the seat can run, else held. -/
theorem seatXWrite_taken (s : State) (o : Nat) (v : W32) (u : State) (h : seatXOpen s s.seatRegs.sel = true) (ho : o ≠ 0x0C ∨ bits v.toNat 15 8 ≠ 0)
    (hu : u = s.modSeat s.seatRegs.sel (fun t => { t with set := setWord t.set o v.toNat })) :
    seatXWrite s o v = if s.seatRegs.sel ≠ 0 ∧ (s.seat s.seatRegs.sel).state ≤ 1 then applySeatX u s.seatRegs.sel else u := by
  have hc : (o == 0x0C && bits v.toNat 15 8 == 0) = false := by
    rw [Bool.and_eq_false_iff, beq_eq_false_iff_ne, beq_eq_false_iff_ne]
    exact ho
  have hs : (u.seat s.seatRegs.sel).state = (s.seat s.seatRegs.sel).state := by rw [hu, State.seat_modSeat]
  rw [hu] at hs ⊢
  simp only [seatXWrite, h, hc, Bool.not_true, Bool.or_self, Bool.false_eq_true, if_false, hs]

theorem seatXOpen_iff (s : State) (m : Nat) (h : m ≠ 0) :
    seatXOpen s m = true ↔ (s.seat m).state = 0 ∨ (s.seat m).state = 1 ∨ (s.seat m).state = 3 := by
  simp [seatXOpen, settingsOpen, h, or_assoc]

-- Translations (R141, R168)

/-- Translations are dropped, with the invalidation that is left under way. -/
def invalidated (s : State) (p : TlbEntry → Bool) (i : Option (Nat × Nat × Nat)) : State :=
  { tlbDrop s p with mem := { (tlbDrop s p).mem with inv := i } }

theorem atuInv_taken (s : State) (v : W32) (h : s.mem.inv = none) (hv : v.toNat / 2 ^ 30 < 2 ∨ (v.toNat / 2 ^ 30 = 2 ∧ bits v.toNat 29 16 ≠ 0)) :
    atuInv s v = invalidated s (invCovers v.toNat s.seatRegs.invAddr) (some (v.toNat, s.seatRegs.invAddr, s.mem.nextId)) := by
  have hc : ¬(v.toNat / 2 ^ 30 = 3 ∨ (v.toNat / 2 ^ 30 = 2 ∧ bits v.toNat 29 16 = 0)) := by omega
  simp only [atuInv, h, Option.isSome_none, Bool.false_eq_true, if_false, hc]
  rfl

theorem atuInvDone_done (s : State) (w b k : Nat) (h : s.mem.inv = some (w, b, k)) (hw : ∀ x ∈ s.mem.accesses, walking k x = false) :
    atuInvDone s = invalidated s (invCovers w b) none := by
  have hany : s.mem.accesses.any (walking k) = false := List.any_eq_false.mpr (fun x hx => by rw [hw x hx]; exact Bool.false_ne_true)
  rw [atuInvDone, h]
  exact if_neg (by rw [hany]; exact Bool.false_ne_true)

-- Settings and transitions (O57)

/-- Settles O57: each transition's end, and each setting's rule, by the lemma about it. -/
theorem seatTransitionsEndAndSettingsAreTaken : Obligations.SeatTransitionsEndAndSettingsAreTaken := by
  intro s m t ht hm
  subst ht
  have hmod : m % 1024 = m := Nat.mod_eq_of_lt hm
  refine ⟨fun hup => ⟨fun sq htr hc hj hw => ?_, fun b htr ho => ?_, fun b htr ho hb => ?_, fun hv htr hf => ?_, fun k more hv hms hi hmore => ?_⟩, fun w v hw hs => ?_,
    fun o v ho1 ho2 hs hsel => ?_, fun v hs hinv hv => ?_, fun w b k hup hinv hx => ?_, fun hs => exec_hregRead s _ _ _ _ hs rfl⟩
  · refine ⟨(onSlots s m (fun r => { r with cut := none })).modSeat m (fun t => { t with state := 3, transit := .none }), ?_, ?_, fun i hi => ?_⟩
    · refine ok_carryAll ?_
      rw [hup, whenDo_true, hmod, curtainQuiet_quiet s m sq htr hc hj hw]
    · rw [State.seat_modSeat, onSlots_seat]
    · rw [State.ring_of_rings ((State.modSeat_keeps _ m _).rings rfl), onSlots_ring _ _ _ _ hi]
  · refine ⟨_, ok_carryAll ?_, rfl⟩
    rw [hup, whenDo_true, hmod, resetReport_done s m b htr (.inl ho), ho]
    rfl
  · have hd : s.due (b + 100000 * nsUnit) = true := decide_eq_true hb
    refine ⟨reportedSeat true (s.seat m), ok_carryAll ?_, rfl, rfl, rfl⟩
    rw [hup, whenDo_true, hmod, resetReport_done s m b htr (.inr hd), ho]
    rfl
  · refine ⟨(freezeFlush s m).modSeat m (fun t => { t with state := 4, transit := .none }), ok_carryAll ?_, ?_, ?_⟩
    · rw [hup, hv, Bool.not_false, Bool.and_self, whenDo_true, hmod, transitionEnd_freeze s m htr hf]
    all_goals rw [State.seat_modSeat]
  · have hmore' (u : State) : more u = (List.range 7).foldl (fun u _ => migRound true u) u := by rw [hmore]; rfl
    have hgo (u : State) (ht : (s.seat m).transit = .offer ∨ (s.seat m).transit = .save ∨ (s.seat m).transit = .restore) (hu : migRound true s = u) :
        exec (.seatTransitionEnd m) s = .next (carryAll (more u)) := by
      refine ok_carryAll ?_
      rw [hup, hv, Bool.not_false, Bool.and_self, whenDo_true, hmod, transitionEnd_mig s m hms ht, migGo_eq, hu, hmore']
    have hstep := migRound_step s m hms hi hv
    refine ⟨fun u hu htr h0 hk => ?_, fun u hu htr h6 => ?_, fun u hu htr h4 => ?_, fun u hn hq => ?_⟩
    · have hr : migRound true s = u := by
        rw [hstep, htr]
        simp only [offerStep, h0, if_false, Bool.not_true, Bool.false_eq_true]
        rw [hu, hk]
      refine ⟨hgo u (.inl htr) hr, ?_⟩
      have hu' : u = migEnd (offerMade s m k) 0 := hu
      rw [hu', migEnd_seat (offerMade s m k) m hms, offerMade_seat]
      exact ⟨rfl, rfl⟩
    · have hr : migRound true s = u := by
        rw [hstep, htr, hu]
        exact saveStep_last s m h6
      refine ⟨hgo u (.inr (.inl htr)) hr, ?_⟩
      rw [hu, saveEnd_seat s m hms]
      exact ⟨rfl, rfl⟩
    · have hr : migRound true s = u := by
        rw [hstep, htr, hu]
        exact restoreStep_last s m h4
      refine ⟨hgo u (.inr (.inr htr)) hr, ?_⟩
      rw [hu, restoreEnd_seat s m hms]
      exact ⟨rfl, rfl, rfl⟩
    · rw [hmore', foldl_migRound_rest _ u true hn hq]
  · have hw3 : w % 3 = w := Nat.mod_eq_of_lt hw
    have hex (u : State) (h : shareWrite s m w v = u) : exec (.shareWrite m w v) s = .next (fin u) := by
      refine ok_fin ?_
      rw [hmod, hw3, mgrWrite_served s _ _ hs, h]
    refine ⟨fun h => hex _ ?_, fun h => hex _ ?_⟩
    · rw [shareWrite, if_pos h, State.modSeat, latchEpoch_seat]
    · rw [shareWrite, if_neg (by rw [h]; exact Bool.false_ne_true)]
      rfl
  · have ho : o % 0x100 = o := Nat.mod_eq_of_lt (by omega)
    have hex (u : State) (h : seatXWrite s o v = u) : exec (.seatXWrite o v) s = .next (fin u) := by
      refine ok_fin ?_
      rw [ho, mgrWrite_served s _ _ hs, h]
    have hu : s.setSeat m { s.seat m with set := setWord (s.seat m).set o v.toNat }
        = s.modSeat s.seatRegs.sel (fun t => { t with set := setWord t.set o v.toNat }) := by rw [← hsel]; rfl
    refine ⟨fun hov => ⟨fun h0 hst => hex _ ?_, fun h0 hst => hex _ ?_, fun h0 hop => hex _ ?_⟩, fun h => hex _ ?_⟩
    · have hop : seatXOpen s s.seatRegs.sel = true := by
        rw [← hsel, seatXOpen_iff s m h0]
        exact hst.elim .inl (fun h => .inr (.inl h))
      rw [seatXWrite_taken s o v _ hop hov hu, ← hsel]
      exact if_pos ⟨h0, by omega⟩
    · have hop : seatXOpen s s.seatRegs.sel = true := by
        rw [← hsel, seatXOpen_iff s m h0]
        exact .inr (.inr hst)
      rw [seatXWrite_taken s o v _ hop hov hu, ← hsel]
      exact if_neg (fun h => by omega)
    · subst h0
      rw [seatXWrite_taken s o v _ (by rw [← hsel]; exact hop) hov hu, ← hsel]
      exact if_neg (fun h => h.1 rfl)
    · rw [seatXWrite_rejected s o v, ← hsel]
      · rfl
      · rw [← hsel]
        obtain ⟨h0, hst⟩ | ⟨h0, hop⟩ := h
        · rw [← Bool.not_eq_true, seatXOpen_iff s m h0]
          omega
        · rw [h0]; exact hop
  · refine ⟨invalidated s (invCovers v.toNat s.seatRegs.invAddr) (some (v.toNat, s.seatRegs.invAddr, s.mem.nextId)), ok_fin ?_, rfl, rfl⟩
    rw [mgrWrite_served s _ _ hs, atuInv_taken s v hinv hv]
  · refine ⟨invalidated s (invCovers w b) none, ok_fin ?_, rfl, rfl⟩
    rw [hup, whenDo_true, atuInvDone_done s w b k hinv hx]

end Sys2Proof.Machine
end

section
/-! PROOF. Answers of the memory ports (O55). -/

namespace Sys2Proof.Machine

/-- A request whose table walk waits for an answer on port 0, tag 0. -/
def walkingRequest : Access := { id := 5, owner := .image 0, va := 0, len := 8, st := .walkOut 3 0 0 0 }

/-- A request of the same number at the next address. -/
def namesake : Access := { id := 5, owner := .image 0, va := 1, len := 8, st := .walk 0 0 }

/-- Two requests share a number, and the clock of port 1, to which both will go, is lost. -/
def sharedNumber : State :=
  { State.reset with mem := { State.reset.mem with discard := false, stalled := [.mclk1], accesses := [walkingRequest, namesake] } }

/-- A table entry: a readable leaf at 4096. -/
def leafBeat : Bytes := [0x0B#8, 0x10#8] ++ zeros 126

/-- The states of the requests an outcome leaves. -/
def requestsAfter (o : Host.Outcome State Fault Refusal) : List AccSt :=
  match o with
  | .next t => t.mem.accesses.map (·.st)
  | _ => []

/-- What O55 says of the answer: every request of the number takes the address of the one that was answered. -/
def statedAnswer : State :=
  (tlbAdd sharedNumber { seat := 0, page := 0, base := 4096, r := true, w := false, log2 := 12 }).modAccess 5 (fun x => { x with st := .ready 4096 })

theorem requestsAfter_answer : requestsAfter (exec (.memReadData 0 0 leafBeat true) sharedNumber) = [.ready 4096, .ready 4097] := by
  decide +kernel

theorem requestsAfter_stated : requestsAfter (.next (carryAll statedAnswer)) = [.ready 4096, .ready 4096] := by
  decide +kernel

/-- Refutes O55: two requests that share a number (which the model's own steps never make, but the statement allows) and wait for different addresses. The
answer to the walk of one makes both ready, each for the address its own `va` gives, where the statement gives both the address of the one answered. -/
theorem not_memoryAnswersReachTheirOwner : ¬ Obligations.MemoryAnswersReachTheirOwner := by
  intro h
  obtain ⟨-, hanswer, -⟩ := h sharedNumber 0 0 leafBeat (by decide +kernel)
  obtain ⟨-, hone⟩ := hanswer rfl (by decide)
  obtain ⟨-, hwalk, -, -⟩ := hone walkingRequest rfl
  obtain ⟨-, hleaf, -⟩ := hwalk 3 0 (fieldLE leafBeat 0 8) rfl (by decide) rfl
  obtain ⟨-, hready⟩ := hleaf 4096 true false (tlbAdd sharedNumber { seat := 0, page := 0, base := 4096, r := true, w := false, log2 := 12 }) (by decide) rfl
  have hsame : requestsAfter (exec (.memReadData 0 0 leafBeat true) sharedNumber) = requestsAfter (.next (carryAll statedAnswer)) :=
    congrArg requestsAfter (hready rfl)
  rw [requestsAfter_answer, requestsAfter_stated] at hsame
  exact absurd hsame (by decide)

end Sys2Proof.Machine
end

section
/-! PROOF. Sensors and class A alarms: what is erased, and the jobs that are stopped (O54). -/

namespace Sys2Proof.Machine

-- Jobs that are stopped (R192)

theorem fixOutcome_jobs_of (s : State) (id : Nat) (j : Job) (o : Outcome) (hj : s.job? id = some j) (ho : j.outcome = none)
    (ha : alarmNow s = false ∨ o.status = stAlarmAbort) : (fixOutcome s id o).jobs = (s.modJob id (failedWith o s)).jobs := by
  have hc : (alarmNow s && o.status != stAlarmAbort) = false := by
    obtain h | h := ha <;> simp [h]
  simp only [fixOutcome, hj, ho, hc, Option.isSome_none, Bool.or_self, Bool.false_eq_true, if_false]
  rfl

theorem stop_done (s : State) (id status sub : Nat) (h : ∀ j, s.job? id = some j → j.outcome ≠ none) : stop s id status sub = s := by
  unfold stop
  split
  · rfl
  · next j hj => exact if_pos (Option.isSome_iff_ne_none.mpr (h j hj))

/-- A live job that is stopped has the status and the subcode; other jobs stay. -/
theorem stop_job? (s : State) (id status sub : Nat) (j : Job) (hj : s.job? id = some j) (ho : j.outcome = none)
    (ha : alarmNow s = false ∨ status = stAlarmAbort) :
    failedAs (stop s id status sub) id status sub ∧ ∀ i, i ≠ id → (stop s id status sub).job? i = s.job? i := by
  obtain ⟨o, hs, hst, hsub⟩ : ∃ o : Outcome, stop s id status sub = quit (fixOutcome s id o) id ∧ o.status = status ∧ o.sub = sub := by
    unfold stop
    rw [hj]
    exact ⟨_, if_neg (by rw [ho]; exact Bool.false_ne_true), rfl, rfl⟩
  have hfix := fixOutcome_jobs_of s id j o hj ho (ha.imp_right (fun h => hst.trans h))
  have hq := quit_jobs (fixOutcome s id o) id
  rw [hs]
  refine ⟨?_, fun i hi => ?_⟩
  · unfold failedAs
    rw [State.job?_of_jobs hq, State.job?_modJob _ _ quitWith (fun _ => rfl), State.job?_of_jobs hfix, State.job?_modJob _ _ (failedWith o s) (fun _ => rfl), hj]
    exact ⟨_, _, rfl, rfl, hst, hsub⟩
  · rw [State.job?_of_jobs hq, State.job?_modJob_other _ _ _ quitWith (fun _ => rfl) hi, State.job?_of_jobs hfix,
      State.job?_modJob_other _ _ _ (failedWith o s) (fun _ => rfl) hi]

theorem stop_alarmNow (s : State) (id status sub : Nat) : alarmNow (stop s id status sub) = alarmNow s :=
  alarmNow_of ((stop_keeps s id status sub).alarms rfl) ((stop_keeps s id status sub).time rfl)

/-- Every live job of a list is stopped, and stays so whatever is stopped after it. -/
theorem stops_failedAs (l : List Nat) (s : State) (status sub : Nat) (ha : alarmNow s = false ∨ status = stAlarmAbort) (id : Nat)
    (h : failedAs s id status sub ∨ (id ∈ l ∧ ∃ j, s.job? id = some j ∧ j.outcome = none)) :
    failedAs (l.foldl (fun s id => stop s id status sub) s) id status sub := by
  induction l generalizing s with
  | nil => simpa using h
  | cons i l ih =>
    refine ih (stop s i status sub) (by rw [stop_alarmNow]; exact ha) ?_
    by_cases hlive : ∃ k, s.job? i = some k ∧ k.outcome = none
    · obtain ⟨k, hk, hko⟩ := hlive
      obtain ⟨hself, hother⟩ := stop_job? s i status sub k hk hko ha
      by_cases hi : id = i
      · exact .inl (hi ▸ hself)
      · refine h.imp (fun ⟨k, o, hk, hr⟩ => ⟨k, o, (hother id hi).trans hk, hr⟩) (fun ⟨hmem, j, hj, ho⟩ => ?_)
        exact ⟨List.mem_of_ne_of_mem hi hmem, j, (hother id hi).trans hj, ho⟩
    · rw [stop_done s i status sub (fun k hk hko => hlive ⟨k, hk, hko⟩)]
      refine h.imp_right (fun ⟨hmem, j, hj, ho⟩ => ⟨List.mem_of_ne_of_mem (fun e : id = i => hlive ⟨j, by rw [← e]; exact hj, ho⟩) hmem, j, hj, ho⟩)

/-- `stopWhere` ends every live job it is for. -/
theorem stopWhere_failedAs {s : State} {p : Job → Bool} {status sub : Nat} (ha : alarmNow s = false ∨ status = stAlarmAbort)
    (hn : (s.jobs.map (·.id)).Nodup) {j : Job} (hj : j ∈ s.jobs) (ho : j.outcome = none) (hp : p j = true) :
    failedAs (stopWhere s p status sub) j.id status sub := by
  refine stops_failedAs _ s status sub ha j.id (.inr ⟨?_, j, job?_of_mem hn hj, ho⟩)
  exact List.mem_map_of_mem (List.mem_filter.mpr ⟨hj, by rw [hp, ho]; rfl⟩)

/-- A job that has failed stands in the list of jobs. -/
theorem failedAs.mem {s : State} {id status sub : Nat} (h : failedAs s id status sub) :
    ∃ k ∈ s.jobs, k.id = id ∧ ∃ o, k.outcome = some o ∧ o.status = status ∧ o.sub = sub := by
  obtain ⟨k, o, hk, ho, hst, hsub⟩ := h
  exact ⟨k, State.mem_of_job? hk, State.job?_id hk, o, ho, hst, hsub⟩

-- Sensors (R525)

theorem sensorRead_holds (s : State) (x : Sensor) (d0 : W32) :
    (sensorRead s x d0).alarms.holds = s.alarms.holds ∧ (sensorRead s x d0).alarms.armed = s.alarms.armed ∧ tripsAt (sensorRead s x d0) x = tripsAt s x
      ∧ (sensorRead s x d0).up = s.up := by
  cases x <;> exact ⟨rfl, rfl, rfl, rfl⟩

theorem sensorTrip_quiet (s : State) (x : Sensor) (d0 d1 : W32) (hup : s.up = true) (h : tripsAt s x d0 d1 = false) : sensorTrip s x d0 d1 = sensorRead s x d0 := by
  obtain ⟨-, -, ht, -⟩ := sensorRead_holds s x d0
  simp only [sensorTrip, hup, if_true, ht, h, Bool.not_false]

theorem sensorTrip_trips (s u : State) (x : Sensor) (d0 d1 : W32) (hup : s.up = true) (h : tripsAt s x d0 d1 = true)
    (hu : u = { sensorRead s x d0 with alarms :=
      { (sensorRead s x d0).alarms with holds := (x, d0, d1) :: s.alarms.holds.filter (fun h => h.1 != x) } }) :
    sensorTrip s x d0 d1 = if !s.alarms.armed || (sensorHolds s x && (x == .tempWarn || x == .avd18)) then u else raiseTrip u x d0 d1 := by
  obtain ⟨hh, ha, ht, hr⟩ := sensorRead_holds s x d0
  have hu' : (sensorRead s x d0).modAlarms (fun a => { a with holds := (x, d0, d1) :: a.holds.filter (fun h => h.1 != x) }) = u := by
    rw [hu, State.modAlarms, hh]
  have hup' : u.up = true := by rw [hu]; exact hr.trans hup
  have harm : u.alarms.armed = s.alarms.armed := by rw [hu]; exact ha
  have hw : sensorHolds (sensorRead s x d0) x = sensorHolds s x := by rw [sensorHolds, sensorHolds, hh]
  rw [sensorTrip]
  simp only [hup, if_true, ht, h, Bool.not_true, Bool.false_eq_true, if_false, hu', hup', harm, Bool.false_or, hw]

-- What a class A alarm erases (R38, R526)

/-- Nothing of a key, a generator, an operand, a result or a held entry is left. -/
structure Erased (t : State) : Prop where
  attrs : t.keys.attrs = []
  scheds : t.keys.scheds = []
  slots : t.keys.slots = []
  seatKeys : t.keys.seatKeys = []
  hash : t.window.hash = []
  part : t.window.part = []
  east : t.relay.east.keyed = false
  west : t.relay.west.keyed = false
  rk : t.relay.rk = []
  auth : t.cust.auth = []
  shares : t.cust.shares = []
  inst : t.entropy.inst = []
  pool : t.entropy.pool = []
  cache : t.front.cache = []
  peers : t.front.peers = []
  buffers : t.buffers = []
  lanes : ∀ b, (t.bay b).lanes = []
  engines : ∀ w, (t.engine w).staged = none ∧ (t.engine w).loadFull = false ∧ (t.engine w).running = none
  jobs : ∀ j ∈ t.jobs, j.outcome = none → j.key = [] ∧ j.drawn = [] ∧ j.got = [] ∧ j.entry = [] ∧ j.outs = [] ∧ j.inner = [] ∧ j.outer = []

/-- What holds of every entry of a table and of its default holds of what is read from it. -/
theorem tabGet_of_all {α : Type} (d : α) (p : α → Prop) (t : List (Nat × α)) (hd : p d) (ht : ∀ e ∈ t, p e.2) (i : Nat) : p (tabGet d t i) := by
  induction t with
  | nil => exact hd
  | cons e t ih =>
    obtain ⟨he, ht⟩ := List.forall_mem_cons.mp ht
    unfold tabGet
    split
    · exact he
    · exact ih ht

theorem tabMap_all {α : Type} [DecidableEq α] (d : α) (p : α → Prop) (t : List (Nat × α)) (f : Nat → α → α) (hf : ∀ i v, p (f i v)) :
    ∀ e ∈ tabMap d t f, p e.2 := by
  intro e he
  obtain ⟨x, -, rfl⟩ := List.mem_map.mp (List.mem_filter.mp he).1
  exact hf x.1 x.2

theorem tabMap_default {α : Type} [DecidableEq α] (d : α) (t : List (Nat × α)) : tabMap d t (fun _ _ => d) = [] := by
  induction t with
  | nil => rfl
  | cons e t ih => simpa [tabMap] using ih

theorem eraseEngine_idle (s : State) (e : Engine) : (eraseEngine s e).staged = none ∧ (eraseEngine s e).loadFull = false ∧ (eraseEngine s e).running = none := by
  unfold eraseEngine
  split
  · exact ⟨rfl, rfl, rfl⟩
  · next h => exact ⟨rfl, rfl, h⟩

theorem eraseJob_live {j : Job} (h : (eraseJob j).outcome = none) : (eraseJob j).key = [] ∧ (eraseJob j).drawn = [] ∧ (eraseJob j).got = []
    ∧ (eraseJob j).entry = [] ∧ (eraseJob j).outs = [] ∧ (eraseJob j).inner = [] ∧ (eraseJob j).outer = [] := by
  unfold eraseJob at h ⊢
  split
  · next ho => rw [if_pos ho] at h; rw [h] at ho; exact absurd ho Bool.false_ne_true
  · exact ⟨rfl, rfl, rfl, rfl, rfl, rfl, rfl⟩

theorem erased_eraseAll {s : State} (he : s.relay.east.keyed = false) (hw : s.relay.west.keyed = false) (ha : s.cust.auth = []) (hs : s.cust.shares = []) :
    Erased (eraseAll s) where
  attrs := rfl
  scheds := rfl
  slots := rfl
  seatKeys := rfl
  hash := rfl
  part := rfl
  east := he
  west := hw
  rk := rfl
  auth := ha
  shares := hs
  inst := rfl
  pool := rfl
  cache := rfl
  peers := rfl
  buffers := tabMap_default [] _
  lanes := tabGet_of_all ({} : Bay) (fun b => b.lanes = []) _ rfl
    (tabMap_all ({} : Bay) (fun b => b.lanes = []) s.place.bays (fun _ b => { b with lanes := [] }) (fun _ _ => rfl))
  engines := tabGet_of_all ({} : Engine) (fun e => e.staged = none ∧ e.loadFull = false ∧ e.running = none) _ ⟨rfl, rfl, rfl⟩
    (tabMap_all ({} : Engine) (fun e => e.staged = none ∧ e.loadFull = false ∧ e.running = none) s.engines.eng (fun _ e => eraseEngine (zeroAllInst s) e)
      (fun _ e => eraseEngine_idle (zeroAllInst s) e))
  jobs := by
    intro j hj ho
    obtain ⟨k, -, rfl⟩ := List.mem_map.mp hj
    exact eraseJob_live ho

/-- A change of parts that hold nothing erased leaves what is erased so. -/
theorem Erased.of_parts {s t : State} (h : Erased s) (hk : t.keys = s.keys) (hw : t.window = s.window) (he : t.relay.east.keyed = s.relay.east.keyed)
    (hv : t.relay.west.keyed = s.relay.west.keyed) (hr : t.relay.rk = s.relay.rk) (hc : t.cust = s.cust) (hi : t.entropy.inst = [])
    (hp : t.entropy.pool = s.entropy.pool) (hf : t.front = s.front) (hb : t.buffers = s.buffers) (hl : t.place = s.place) (hn : t.engines = s.engines)
    (hj : t.jobs = s.jobs) : Erased t where
  attrs := by rw [hk, h.attrs]
  scheds := by rw [hk, h.scheds]
  slots := by rw [hk, h.slots]
  seatKeys := by rw [hk, h.seatKeys]
  hash := by rw [hw, h.hash]
  part := by rw [hw, h.part]
  east := by rw [he, h.east]
  west := by rw [hv, h.west]
  rk := by rw [hr, h.rk]
  auth := by rw [hc, h.auth]
  shares := by rw [hc, h.shares]
  inst := hi
  pool := by rw [hp, h.pool]
  cache := by rw [hf, h.cache]
  peers := by rw [hf, h.peers]
  buffers := by rw [hb, h.buffers]
  lanes b := by rw [State.bay, hl]; exact h.lanes b
  engines w := by rw [State.engine, hn]; exact h.engines w
  jobs j hm := by rw [hj] at hm; exact h.jobs j hm

/-- A change of other parts alone. -/
theorem Erased.of_keeps {s t : State} (h : Erased s) (k : Keeps (allBut [.keys, .window, .relay, .cust, .entropy, .front, .buffers, .place, .engines, .jobs]) s t) :
    Erased t :=
  h.of_parts (k.keys rfl) (k.window rfl) (by rw [k.relay rfl]) (by rw [k.relay rfl]) (by rw [k.relay rfl]) (k.cust rfl) (by rw [k.entropy rfl]; exact h.inst)
    (by rw [k.entropy rfl]) (k.front rfl) (k.buffers rfl) (k.place rfl) (k.engines rfl) (k.jobs rfl)

theorem Erased.mailBreak {s : State} (h : Erased s) : Erased (mailBreak s) := by
  unfold Machine.mailBreak
  split
  · unfold mailEnd
    refine Erased.of_keeps ?_ ((vector_keeps _ 7).mono rfl)
    exact h.of_parts rfl rfl rfl rfl rfl rfl h.inst rfl rfl rfl rfl rfl rfl
  · exact h

theorem wipeRegions_nil {s : State} (p : Nat → Region → Bool) (h : s.buffers = []) : (wipeRegions s p).buffers = [] := by
  simp [wipeRegions, h, tabMap]

theorem Erased.wipeBay {s : State} (h : Erased s) (b : Nat) : Erased (wipeBay s b) where
  attrs := h.attrs
  scheds := by show s.keys.scheds.filter _ = []; rw [h.scheds]; rfl
  slots := h.slots
  seatKeys := h.seatKeys
  hash := h.hash
  part := h.part
  east := h.east
  west := h.west
  rk := h.rk
  auth := h.auth
  shares := h.shares
  inst := h.inst
  pool := h.pool
  cache := h.cache
  peers := h.peers
  buffers := wipeRegions_nil _ (by exact h.buffers)
  lanes c := by
    by_cases e : c = b
    · subst e
      exact congrArg Bay.lanes (State.bay_modBay s c (fun x => { x with lanes := [] }))
    · exact (congrArg Bay.lanes (tabGet_tabSet_other ({} : Bay) s.place.bays b c _ e)).trans (h.lanes c)
  engines := h.engines
  jobs := h.jobs

theorem Erased.wipeBays {s : State} (h : Erased s) (l : List Nat) (f : Nat → Nat) : Erased (l.foldl (fun s i => Machine.wipeBay s (f i)) s) := by
  induction l generalizing s with
  | nil => exact h
  | cons i l ih => exact ih (h.wipeBay (f i))

/-- Changes of the placement tables that leave the bays. -/
theorem Erased.of_bays {s t : State} (h : Erased s) (k : Keeps (only [.place]) s t) (hb : t.place.bays = s.place.bays) : Erased t where
  attrs := by rw [k.keys rfl, h.attrs]
  scheds := by rw [k.keys rfl, h.scheds]
  slots := by rw [k.keys rfl, h.slots]
  seatKeys := by rw [k.keys rfl, h.seatKeys]
  hash := by rw [k.window rfl, h.hash]
  part := by rw [k.window rfl, h.part]
  east := by rw [k.relay rfl, h.east]
  west := by rw [k.relay rfl, h.west]
  rk := by rw [k.relay rfl, h.rk]
  auth := by rw [k.cust rfl, h.auth]
  shares := by rw [k.cust rfl, h.shares]
  inst := by rw [k.entropy rfl, h.inst]
  pool := by rw [k.entropy rfl, h.pool]
  cache := by rw [k.front rfl, h.cache]
  peers := by rw [k.front rfl, h.peers]
  buffers := by rw [k.buffers rfl, h.buffers]
  lanes b := by rw [State.bay, hb]; exact h.lanes b
  engines w := by rw [State.engine, k.engines rfl]; exact h.engines w
  jobs := by rw [k.jobs rfl]; exact h.jobs

theorem mendHome_bays (s : State) : (mendHome s).place.bays = s.place.bays := by
  unfold mendHome
  dsimp only
  split <;> rfl

theorem Erased.markWingFailed {s : State} (h : Erased s) (w : Nat) : Erased (markWingFailed s w) := by
  unfold Machine.markWingFailed
  extract_lets s1 s2 s3
  have h1 : Erased s1 := h.of_bays (State.modWing_keeps ..) rfl
  have h2 : Erased s2 := h1.of_keeps ((State.modStart_keeps ..).mono rfl)
  have h3 : Erased s3 := h2.of_keeps ((State.modJournal_keeps ..).mono rfl)
  exact (h3.wipeBays _ (fun i => 8 * w + i)).of_bays (mendHome_keeps _) (mendHome_bays _)

theorem Erased.failWing {s : State} (h : Erased s) (w : Nat) : Erased (failWing s w) := (h.markWingFailed w).of_keeps ((alarmC_keeps ..).mono rfl)

theorem Erased.halt {s : State} (h : Erased s) : Erased (halt s) := by
  unfold Machine.halt
  extract_lets s1
  have h1 : Erased s1 := h.of_keeps ((endStart_keeps ..).mono rfl)
  have h2 : Erased (s1.modStart (fun t => { t with step12 := false, rootReq := false })) := h1.of_keeps ((State.modStart_keeps ..).mono rfl)
  exact h2.of_parts rfl rfl rfl rfl rfl rfl rfl rfl rfl rfl rfl rfl rfl

theorem Erased.putOutcome {s : State} (h : Erased s) (k o : Nat) : Erased (putOutcome s k o) := h.of_keeps ((putOutcome_keeps ..).mono rfl)

theorem Erased.startAlarm {s : State} (h : Erased s) : Erased (startAlarm s) := by
  unfold Machine.startAlarm
  split
  · extract_lets s1
    have h1 : Erased s1 := by
      show Erased (match s.start.running with | some k => Machine.putOutcome s k 9 | none => s)
      split
      · exact h.putOutcome ..
      · exact h
    split
    · exact (h1.putOutcome 12 9).halt
    · exact h1.halt
  · exact h

-- The class A alarm

theorem alarmC_alarms (s : State) (c d0 d1 : Nat) : ∃ l n k, (alarmC s c d0 d1).alarms = { s.alarms with log := l, total := n, cntC := k } := by
  unfold alarmC
  dsimp only
  split
  · exact ⟨_, _, _, rfl⟩
  · exact ⟨_, _, _, (vector_keeps _ 0).alarms rfl⟩

/-- A class A alarm is in force and its erasure is to be verified. -/
structure InForce (s : State) (c : Nat) (t : State) : Prop where
  active : t.alarms.aActive = true
  verifying : t.alarms.verifying = true
  cause : t.alarms.aCause = if s.alarms.aActive then s.alarms.aCause else c
  lock : c = 0x0C → t.alarms.clearLock = true

theorem InForce.of_alarms {s t u : State} {c : Nat} (h : InForce s c t) (e : u.alarms = t.alarms) : InForce s c u := by
  obtain ⟨h1, h2, h3, h4⟩ := h
  exact ⟨by rw [e, h1], by rw [e, h2], by rw [e, h3], by rw [e]; exact h4⟩

theorem InForce.failWing {s t : State} {c : Nat} (h : InForce s c t) (w : Nat) : InForce s c (failWing t w) := by
  obtain ⟨l, n, k, e⟩ := alarmC_alarms (markWingFailed t w) 0x51 w 0
  have hm : (markWingFailed t w).alarms = t.alarms := (markWingFailed_keeps t w).alarms rfl
  rw [hm] at e
  obtain ⟨h1, h2, h3, h4⟩ := h
  unfold Machine.failWing
  exact ⟨by rw [e]; exact h1, by rw [e]; exact h2, by rw [e]; exact h3, by rw [e]; exact h4⟩

theorem cardAlarm_cust (s : State) : (cardAlarm s).cust.auth = [] ∧ (cardAlarm s).cust.shares = [] := ⟨rfl, rfl⟩

/-- What a class A alarm leaves: it is in force, and everything is erased. -/
theorem alarmA_spec (s : State) (c d0 d1 : Nat) : InForce s c (alarmA s c d0 d1) ∧ Erased (alarmA s c d0 d1) := by
  unfold alarmA
  extract_lets s1 lock al s2 s3 s4 s5 s6 s7 s8
  have f2 : InForce s c s2 := ⟨rfl, rfl, rfl, fun hc => by
    show (s.alarms.clearLock || (c == 0x0C || thirdAlarm s1)) = true
    rw [hc]; simp⟩
  have k3 : Keeps (only [.rings, .mem, .jobs]) s2 s3 := ((reopen_keeps s2).mono rfl).trans ((dropFetches_keeps _).mono rfl)
  have f3 := f2.of_alarms (k3.alarms rfl)
  have f4 := f3.of_alarms ((endRehearsal_keeps s3).alarms rfl)
  have f5 := f4.of_alarms ((cardAlarm_keeps s4).alarms rfl)
  have f6 := f5.of_alarms ((sendBoth_keeps s5 (.alarm s5.relay.member)).alarms rfl)
  have ku : Keeps (only [.relay]) s6 (unkeyHop (unkeyHop s6 .east) .west) := (unkeyHop_keeps s6 .east).trans (unkeyHop_keeps _ .west)
  have ke : Keeps (only [.front, .jobs, .engines, .relay, .keys, .window, .seatRegs, .entropy, .buffers, .place]) s6 (eraseAll (unkeyHop (unkeyHop s6 .east) .west)) :=
    (ku.mono rfl).trans ((eraseAll_keeps _).mono rfl)
  have f7 : InForce s c s7 := (f6.of_alarms (ke.alarms rfl)).of_alarms ((mailBreak_keeps _).alarms rfl)
  have hauth : (unkeyHop (unkeyHop s6 .east) .west).cust = s5.cust := (ku.cust rfl).trans ((sendBoth_keeps s5 (.alarm s5.relay.member)).cust rfl)
  have e7 : Erased s7 := (erased_eraseAll rfl rfl (by rw [hauth]; rfl) (by rw [hauth]; rfl)).mailBreak
  have f8 : InForce s c s8 := by
    show InForce s c (if c = 0x0B then failWing s7 d0 else s7)
    split
    · exact f7.failWing d0
    · exact f7
  have e8 : Erased s8 := by
    show Erased (if c = 0x0B then failWing s7 d0 else s7)
    split
    · exact e7.failWing d0
    · exact e7
  exact ⟨f8.of_alarms ((startAlarm_keeps s8).alarms rfl), e8.startAlarm⟩

end Sys2Proof.Machine
end

section
/-! PROOF. Alarms: verification, clearing, faulty units, port clocks and accesses (O54). -/

namespace Sys2Proof.Machine

-- Verification (R526, R527)

/-- What `erasureVerified` has noted before the jobs end. -/
def noted (s : State) (e : Erasure) : State :=
  { s with
    alarms := { s.alarms with verifying := false, eraseFail := s.alarms.eraseFail || !e.clean, clearLock := s.alarms.clearLock || !e.clean
                              heldMems := s.alarms.heldMems ++ e.dirty.filter (fun m => !s.alarms.heldMems.contains m) }
    seats := tabMap {} s.seats (fun _ t => abortReset s.now s.mono t) }

theorem erasureVerified_eq (s : State) (e : Erasure) :
    erasureVerified s e = sixthStep (stopWhere (noted s e) (fun _ => true) stAlarmAbort 0) (s.jobs.any (fun j => j.outcome.isNone)) := rfl

theorem sixthStep_alarms (s : State) (b : Bool) : (sixthStep s b).alarms.verifying = s.alarms.verifying ∧ (sixthStep s b).alarms.eraseFail = s.alarms.eraseFail
    ∧ (sixthStep s b).alarms.clearLock = s.alarms.clearLock ∧ (sixthStep s b).alarms.heldMems = s.alarms.heldMems := by
  unfold sixthStep
  split
  · exact ⟨rfl, rfl, rfl, rfl⟩
  · dsimp only
    split
    · exact ⟨rfl, rfl, rfl, rfl⟩
    · have ha := (vector_keeps { s with alarms := { s.alarms with step6 := false } } 0).alarms rfl
      rw [ha]
      exact ⟨rfl, rfl, rfl, rfl⟩

theorem mem_vector (s : State) (n : Nat) : ⟨0, n⟩ ∈ (vector s n).prompts := by
  unfold vector raise
  split
  · next h => exact List.contains_iff_mem.mp h
  · exact List.mem_append_right _ (List.mem_singleton.mpr rfl)

theorem sixthStep_aborted (s : State) (h : s.alarms.step6 = true) : (sixthStep s true).alarms.vec0Wait = true := by
  simp only [sixthStep, h, Bool.not_true, Bool.false_eq_true, if_false, if_true]

theorem sixthStep_none (s : State) (h : s.alarms.step6 = true) : ⟨0, 0⟩ ∈ (sixthStep s false).prompts := by
  simp only [sixthStep, h, Bool.not_true, Bool.false_eq_true, if_false]
  exact mem_vector _ 0

theorem stops_mem {s : State} {status sub : Nat} {j : Job} (ha : alarmNow s = false ∨ status = stAlarmAbort) (p : Job → Bool)
    (hn : (s.jobs.map (·.id)).Nodup) (hj : j ∈ s.jobs) (ho : j.outcome = none) (hp : p j = true) :
    ∃ k ∈ (stopWhere s p status sub).jobs, k.id = j.id ∧ ∃ o, k.outcome = some o ∧ o.status = status ∧ o.sub = sub :=
  (stopWhere_failedAs ha hn hj ho hp).mem

-- Clearing (R534)

theorem clearAResult_le (s : State) : clearAResult s = 0 ∨ clearAResult s = 1 ∨ clearAResult s = 3 ∨ clearAResult s = 4 := by
  unfold clearAResult
  dsimp only
  split
  · omega
  · split
    · omega
    · split <;> omega

theorem clearBResult_le (s : State) : clearBResult s = 0 ∨ clearBResult s = 2 ∨ clearBResult s = 4 := by
  unfold clearBResult
  split
  · omega
  · split <;> omega

theorem almClear_a (s : State) : almClear s true false = if clearAResult s = 0 then { acceptA s with alarms := { (acceptA s).alarms with clearResult := 0 } }
    else { s with alarms := { s.alarms with clearResult := if clearAResult s = 1 ∨ clearAResult s = 3 then clearAResult s else 4 } } := by
  by_cases h : clearAResult s = 0
  · simp [almClear, h, State.modAlarms]
  · simp [almClear, h, State.modAlarms]

theorem almClear_b (s : State) : almClear s false true = if clearBResult s = 0 then { acceptB s with alarms := { (acceptB s).alarms with clearResult := 0 } }
    else { s with alarms := { s.alarms with clearResult := clearBResult s } } := by
  obtain h | h | h := clearBResult_le s <;> simp [almClear, h, State.modAlarms]

theorem acceptA_alarms (s : State) : (acceptA s).alarms = { s.alarms with aActive := false, aCause := 0 } := by
  unfold acceptA
  rw [(tryWants_keeps _).alarms rfl, (sendHello_keeps _ false).alarms rfl, (requestAll_keeps _).alarms rfl, (vector_keeps _ 0).alarms rfl]
  rfl

theorem acceptA_prompts (s : State) : ⟨0, 0⟩ ∈ (acceptA s).prompts := by
  unfold acceptA
  rw [(tryWants_keeps _).prompts rfl, (sendHello_keeps _ false).prompts rfl, (requestAll_keeps _).prompts rfl]
  exact mem_vector _ 0

theorem acceptB_alarms (s : State) : (acceptB s).alarms = { s.alarms with bActive := false, bCause := 0 } := by
  unfold acceptB
  rw [(requestAll_keeps _).alarms rfl, (vector_keeps _ 0).alarms rfl]
  rfl

theorem acceptB_prompts (s : State) : ⟨0, 0⟩ ∈ (acceptB s).prompts := by
  unfold acceptB
  rw [(requestAll_keeps _).prompts rfl]
  exact mem_vector _ 0

theorem clearAResult_zero (s : State) : clearAResult s = 0 ↔ s.alarms.aActive = true ∧ s.alarms.clearLock = false ∧ s.alarms.verifying = false
    ∧ ∀ h ∈ s.alarms.holds, 7 ≤ sensorBit h.1 := by
  have hh : (s.alarms.holds.any (fun h => decide (sensorBit h.1 ≤ 6))) = false ↔ ∀ h ∈ s.alarms.holds, 7 ≤ sensorBit h.1 := by
    rw [List.any_eq_false]
    exact forall₂_congr (fun h _ => by rw [decide_eq_true_iff]; omega)
  rw [← hh]
  unfold clearAResult
  dsimp only
  generalize s.alarms.holds.any (fun h => decide (sensorBit h.1 ≤ 6)) = trips
  cases s.alarms.aActive with
  | false => simp
  | true => cases s.alarms.clearLock with
    | true => simp
    | false => cases s.alarms.verifying <;> cases trips <;> simp

theorem clearBResult_zero (s : State) : clearBResult s = 0 ↔ s.alarms.bActive = true ∧ 4 ≤ healthy s := by
  unfold clearBResult
  cases hb : s.alarms.bActive
  · simp
  · rw [Bool.not_true, if_neg Bool.false_ne_true]
    split <;> simp <;> omega

-- Faulty units (R28, R34)

/-- A job is put back for the dispatcher. -/
theorem returnQueued_mem {s : State} {b : Nat} {k : Job} (h : k ∈ s.jobs) : ∃ j ∈ (returnQueued s b).jobs, j.id = k.id ∧ j.outcome = k.outcome := by
  refine ⟨_, List.mem_map_of_mem h, ?_⟩
  split
  · split <;> exact ⟨rfl, rfl⟩
  · split <;> exact ⟨rfl, rfl⟩
  · exact ⟨rfl, rfl⟩

theorem sequencerFault_retired (s : State) (b : Nat) : ((sequencerFault s b).bay b).retired = true := by
  unfold sequencerFault
  extract_lets s1 s2 s3 s4 s5
  have h2 : (s2.bay b).retired = true := by
    rw [State.bay, (stopWhere_keeps s1 (heldInBay b) stInternal 0x0C).place rfl]
    exact congrArg Bay.retired (State.bay_modBay s b (fun x => { x with retired := true }))
  have h3 : (s3.bay b).retired = true :=
    (congrArg Bay.retired (State.bay_modBay (returnQueued s2 b) b (fun x => { x with lanes := [] }))).trans h2
  have h5 : s5.place = s3.place := by
    show (if isGuarded b then zeroInst s4 (1024 + b / 8) else s4).place = _
    split
    · exact ((zeroInst_keeps s4 (1024 + b / 8)).place rfl).trans ((modStartRec_keeps s3 _).place rfl)
    · exact (modStartRec_keeps s3 _).place rfl
  rw [State.bay, mendHome_bays, (alarmC_keeps s5 0x50 b 0).place rfl, h5]
  exact h3

theorem sequencerFault_bayOk (s : State) (b : Nat) : (sequencerFault s b).bayOk b = false := by
  rw [State.bayOk, sequencerFault_retired, Bool.not_true, Bool.and_false]

theorem sequencerFault_jobs {s : State} {b : Nat} {j : Job} (hn : (s.jobs.map (·.id)).Nodup) (hj : j ∈ s.jobs) (ho : j.outcome = none)
    (hb : heldInBay b j = true) (ha : alarmNow s = false) :
    ∃ k ∈ (sequencerFault s b).jobs, k.id = j.id ∧ ∃ o, k.outcome = some o ∧ o.status = stInternal ∧ o.sub = 0x0C := by
  unfold sequencerFault
  extract_lets s1 s2 s3 s4 s5
  obtain ⟨k, hk, hid, hout⟩ := stops_mem (s := s1) (status := stInternal) (sub := 0x0C) (.inl ha) (heldInBay b) hn hj ho hb
  obtain ⟨q, hq, hqid, hqo⟩ := returnQueued_mem (s := s2) (b := b) hk
  have h3 : s3.jobs = (returnQueued s2 b).jobs := (wipeBay_keeps _ b).jobs rfl
  have h4 : s4.jobs = s3.jobs := (modStartRec_keeps s3 _).jobs rfl
  have h5 : s5.jobs = s4.jobs := by
    show (if isGuarded b then zeroInst s4 (1024 + b / 8) else s4).jobs = _
    split
    · exact (zeroInst_keeps s4 (1024 + b / 8)).jobs rfl
    · rfl
  have he : (mendHome (alarmC s5 0x50 b 0)).jobs = (returnQueued s2 b).jobs := by
    rw [(mendHome_keeps _).jobs rfl, (alarmC_keeps s5 0x50 b 0).jobs rfl, h5, h4, h3]
  rw [he]
  exact ⟨q, hq, hqid.trans hid, by rw [hqo]; exact hout⟩

theorem mendHome_wings (s : State) : (mendHome s).place.wings = s.place.wings := by
  unfold mendHome
  dsimp only
  split <;> rfl

theorem wipeBays_wings (l : List Nat) (f : Nat → Nat) (s : State) : (l.foldl (fun s i => wipeBay s (f i)) s).place.wings = s.place.wings := by
  induction l generalizing s with
  | nil => rfl
  | cons i l ih => exact (ih (wipeBay s (f i))).trans rfl

theorem wipeBays_journal (l : List Nat) (f : Nat → Nat) (s : State) : (l.foldl (fun s i => wipeBay s (f i)) s).journal = s.journal :=
  (Keeps.foldl (ch := only [.place, .buffers, .keys]) l (fun t i => wipeBay_keeps t (f i)) (.refl s)).journal rfl

/-- A wing that has failed is gated, excluded from now on and at the next start. -/
theorem markWingFailed_wing (s : State) (w : Nat) : (markWingFailed s w).wing w = { s.wing w with failed := true, power := 0 }
    ∧ (markWingFailed s w).journal.excl.testBit w = true := by
  unfold markWingFailed
  extract_lets s1 s2 s3
  constructor
  · rw [State.wing, mendHome_wings, wipeBays_wings]
    exact State.wing_modWing s w (fun x => { x with failed := true, power := 0 })
  · rw [(mendHome_keeps _).journal rfl, wipeBays_journal]
    show (maskSet s.journal.excl w true).testBit w = true
    rw [maskSet, if_pos rfl, Nat.testBit_or, Nat.testBit_two_pow_self, Bool.or_true]

theorem wingFailure_wing (s : State) (w : Nat) : (wingFailure s w).wingOk w = false ∧ (wingFailure s w).journal.excl.testBit w = true
    ∧ ((wingFailure s w).wing w).power = 0 := by
  unfold wingFailure
  extract_lets s1 s2 s3
  obtain ⟨hw, hj⟩ := markWingFailed_wing s2 w
  have hwing : (alarmC s3 0x51 w 0).wing w = { s2.wing w with failed := true, power := 0 } := by
    rw [State.wing, (alarmC_keeps s3 0x51 w 0).place rfl, (zeroInst_keeps (markWingFailed s2 w) (1024 + w)).place rfl]
    exact hw
  refine ⟨?_, ?_, by rw [hwing]⟩
  · rw [State.wingOk, hwing, Bool.not_true, Bool.and_false]
  · rw [(alarmC_keeps s3 0x51 w 0).journal rfl, (zeroInst_keeps (markWingFailed s2 w) (1024 + w)).journal rfl]
    exact hj

-- Alarms (O54)

theorem accessAlarm_eq (s : State) (src off : Nat) (w : Bool) (h : src < 2048) :
    accessAlarm s src off w = alarmC s 0x40 off ((if w then 2048 else 0) + src) := by
  rw [accessAlarm, Nat.mod_eq_of_lt h]
  cases w <;> rfl

theorem exec_accessViolation (s : State) (src o : Nat) (w : Bool) (hsrc : src < 2048) (ho : o < 2 ^ 24) (h4 : o % 4 = 0) (hp : permitted src o w = false)
    (hst : s.start.state ≠ 5) (hopen : s.hostOpen = true) :
    exec (.accessViolation src o w) s = .next (alarmC s 0x40 o ((if w then 2048 else 0) + src)) := by
  have e : o % 2 ^ 24 / 4 * 4 = o := by omega
  have h5 : (s.start.state == 5) = false := by simpa using hst
  show execAccessViolation src o w s = _
  rw [execAccessViolation]
  simp only [Nat.mod_eq_of_lt hsrc, e, hp, Bool.not_false, whenDo_true, hreg, hopen, h5, Bool.not_true, Bool.false_and, Bool.false_eq_true, if_false, if_true,
    accessAlarm_eq s src o w hsrc, ok]

/-- Settles O54: each event of an alarm's life, by the lemma about its step. -/
theorem alarmsEraseAbortAndClear : Obligations.AlarmsEraseAbortAndClear := by
  intro s hup
  refine ⟨fun x d0 d1 => ⟨fun h => ?_, fun u h hu => ⟨fun harm hx => ?_, fun hq => ?_⟩⟩, fun x => rfl, ?_, fun c d0 d1 t ht => ?_, fun e hv => ?_, fun hs => ?_,
    acceptA_alarms s, acceptA_prompts s, acceptB_alarms s, acceptB_prompts s, ⟨clearAResult_zero s, clearBResult_zero s⟩, fun b hb hok => ?_, fun w hw hok => ?_,
    fun p => ⟨fun hr hp => ?_, rfl⟩, exec_accessViolation s, fun p q hc hp => ?_⟩
  · exact ok_carryAll (sensorTrip_quiet s x d0 d1 hup h)
  · refine ok_carryAll ((sensorTrip_trips s u x d0 d1 hup h hu).trans (if_neg ?_))
    obtain ⟨hw, h18⟩ | hh := hx
    · simp [harm, hw, h18]
    · simp [harm, hh]
  · refine ok_carryAll ((sensorTrip_trips s u x d0 d1 hup h hu).trans (if_pos ?_))
    obtain harm | ⟨hx, hh⟩ := hq
    · simp [harm]
    · obtain hx | hx := hx <;> simp [hx] at hh ⊢ <;> simp [hh]
  · refine ok_carryAll ?_
    rw [hup, whenDo_true]
  · subst ht
    obtain ⟨hf, he⟩ := alarmA_spec s c d0 d1
    refine ⟨hf.active, hf.verifying, hf.cause, hf.lock, he.attrs, he.scheds, he.slots, he.seatKeys, he.hash, he.part, he.east, he.west, he.rk, he.auth, he.shares,
      he.inst, he.pool, he.cache, he.peers, fun b => by rw [he.buffers]; rfl, he.lanes, he.engines, he.jobs, ?_⟩
    rw [alarmN, hf.active, Bool.true_or, Bool.not_true, Bool.or_false]
  · refine ⟨erasureVerified s e, ok_carryAll (by rw [hup, hv, Bool.and_self, whenDo_true]), ?_⟩
    rw [erasureVerified_eq]
    obtain ⟨h1, h2, h3, h4⟩ := sixthStep_alarms (stopWhere (noted s e) (fun _ => true) stAlarmAbort 0) (s.jobs.any (fun j => j.outcome.isNone))
    have hal : (stopWhere (noted s e) (fun _ => true) stAlarmAbort 0).alarms = (noted s e).alarms := (stopWhere_keeps ..).alarms rfl
    rw [h1, h2, h3, h4, hal]
    refine ⟨rfl, rfl, rfl, fun m hm => ?_, fun hn j hj ho => ?_, fun h6 => ⟨fun ⟨j, hj, ho⟩ => ?_, fun hall => ?_⟩⟩
    · show m ∈ s.alarms.heldMems ++ e.dirty.filter (fun m => !s.alarms.heldMems.contains m)
      by_cases hh : m ∈ s.alarms.heldMems
      · exact List.mem_append_left _ hh
      · exact List.mem_append_right _ (List.mem_filter.mpr ⟨hm, by simpa using hh⟩)
    · rw [(sixthStep_keeps ..).jobs rfl]
      obtain ⟨k, hk, hid, o, hko, hst, -⟩ := stops_mem (s := noted s e) (status := stAlarmAbort) (sub := 0) (.inr rfl) (fun _ => true) hn hj ho rfl
      exact ⟨k, hk, hid, o, hko, hst⟩
    · have hany : s.jobs.any (fun j => j.outcome.isNone) = true := List.any_eq_true.mpr ⟨j, hj, by rw [ho]; rfl⟩
      rw [hany]
      exact sixthStep_aborted _ (by rw [hal]; exact h6)
    · have hany : s.jobs.any (fun j => j.outcome.isNone) = false := List.any_eq_false.mpr (fun j hj => by simpa using hall j hj)
      rw [hany]
      exact sixthStep_none _ (by rw [hal]; exact h6)
  · have hex (a b : Bool) : ok (carryAll (mgrWrite s 0xB0004 (fun s => almClear s a b))) = .next (carryAll (almClear s a b)) :=
      ok_carryAll (mgrWrite_served s 0xB0004 _ hs)
    have ha : exec .clearA s = .next (carryAll (almClear s true false)) := hex true false
    have hb : exec .clearB s = .next (carryAll (almClear s false true)) := hex false true
    rw [ha, hb, almClear_a, almClear_b]
    exact ⟨fun h => by rw [if_pos h], fun h => by rw [if_neg h], fun h => by rw [if_pos h], fun h => by rw [if_neg h]⟩
  · refine ⟨ok_carryAll ?_, sequencerFault_bayOk s b, fun hn j hj ho hh ha => sequencerFault_jobs hn hj ho hh ha⟩
    rw [Nat.mod_eq_of_lt hb, hup, hok, Bool.and_self, whenDo_true]
  · refine ⟨ok_carryAll ?_, wingFailure_wing s w⟩
    rw [Nat.mod_eq_of_lt hw, hup, hok, Bool.and_self, whenDo_true]
  · have hc : s.mem.stalled.contains p = false := by simpa using hp
    show ok _ = _
    rw [hup, hr, hc, Bool.not_false, Bool.and_self, Bool.and_self, whenDo_true, ok]
  · show ok _ = _
    rw [hc, Bool.not_false, whenDo_true, hp, ok]
    rfl

end Sys2Proof.Machine
end

section
/-! PROOF. The start: its steps, their bounds, the images and the commands of the stage manager (O53). -/

namespace Sys2Proof.Machine

-- Ends of steps (R102 to R108)

/-- A time bound that has not passed. -/
theorem State.past_false {s : State} {t : Stamp} (h : s.time.mono ≤ t) : s.past t = false := decide_eq_false (Nat.not_lt.mpr h)

theorem State.past_true {s : State} {t : Stamp} (h : t < s.time.mono) : s.past t = true := decide_eq_true h

/-- A step of the main sequence that ends within its bound. -/
theorem exec_startStepDone_main {s : State} {k info : Nat} {good : Bool} (hup : s.up = true) (hk : k ≠ 12) (hr : s.start.running = some k)
    (hb : k ≤ 2 ∨ s.time.mono ≤ s.start.stepAt + stepBound k * nsUnit) :
    exec (.startStepDone k good info) s = .next (carryAll (mainDone s k good info)) := by
  have hin : inBound s k s.start.stepAt = true := by
    obtain h | h := hb
    · simp [inBound, h]
    · rw [inBound, State.past_false h, Bool.not_false, Bool.or_true]
  show ok (carryAll (whenDo s.up s (fun t => stepDone t k good info))) = _
  rw [hup, whenDo_true, stepDone]
  simp only [hk, hr, hin, if_false, if_true, ok]

/-- A step under RUN_STEP that ends within its bound. -/
theorem exec_startStepDone_run {s : State} {k info : Nat} {good : Bool} (hup : s.up = true) (hk : k ≠ 12) (hr : s.start.running ≠ some k)
    (hrun : s.start.runStep = some k) (hb : s.time.mono ≤ s.start.stepAt + stepBound k * nsUnit) :
    exec (.startStepDone k good info) s = .next (carryAll (runDone s k good)) := by
  have hin : inBound s k s.start.stepAt = true := by rw [inBound, State.past_false hb, Bool.not_false, Bool.or_true]
  show ok (carryAll (whenDo s.up s (fun t => stepDone t k good info))) = _
  rw [hup, whenDo_true, stepDone]
  simp only [hk, hr, hrun, hin, if_false, if_true, ok]

/-- A step of the main sequence at its bound. -/
theorem exec_startStepBound_main {s : State} {k : Nat} (hup : s.up = true) (hk : k ≠ 12) (hr : s.start.running = some k)
    (hb : s.start.stepAt + stepBound k * nsUnit < s.time.mono) : exec (.startStepBound k) s = .next (carryAll (mainBound s k)) := by
  have hd : boundDue s k s.start.stepAt = true := by rw [boundDue, State.past_true hb, Bool.or_true]
  show ok (carryAll (whenDo s.up s (fun t => stepAtBound t k))) = _
  rw [hup, whenDo_true, stepAtBound]
  simp only [hk, hr, hd, if_false, if_true, ok]

theorem doneLadder_good {s : State} {r : Nat} (hr : s.start.rootKey = some r) (hb : s.start.rootBad = false) :
    doneLadder s true = beginEntropy (putOutcome (deriveBk s r) 3 2) := by
  rw [doneLadder, hr]
  simp only [hb, Bool.not_true, Bool.or_self, Bool.false_eq_true, if_false]
  rfl

theorem doneEntropy_passed {s : State} (hb : s.alarms.bActive = false) (hn : 4 ≤ sourcesPassed s) (hd : drawOk s 0 = true) :
    doneEntropy s = beginStep (putOutcome (epochStep s) 4 2) 5 := by
  simp only [doneEntropy, hb, hn, hd, Bool.false_eq_true, if_false, and_self, if_true]
  rfl

theorem wingsAwake_of {s : State} (h : ∀ w < 8, s.start.plan9.testBit w = true → (s.wing w).power = 2) : wingsAwake s = true := by
  refine List.all_eq_true.mpr (fun w hw => ?_)
  cases hp : s.start.plan9.testBit w
  · rfl
  · simp [h w (List.mem_range.mp hw) hp]

theorem relayVerdict_formed {s : State} (h1 : s.relay.noBwk = false) (h2 : s.relay.authFail = false) (h3 : s.relay.formed = true) (h4 : s.relay.member ≠ 0xFF) :
    relayVerdict s = some true := by
  simp [relayVerdict, h1, h2, h3, h4]

theorem relayVerdict_formed_iff (s : State) :
    relayVerdict s = some true ↔ s.relay.noBwk = false ∧ s.relay.authFail = false ∧ s.relay.formed = true ∧ s.relay.member ≠ 0xFF := by
  unfold relayVerdict
  dsimp only
  cases s.relay.noBwk <;> cases s.relay.authFail <;> cases s.relay.formed <;> simp

theorem exec_cardReady {s : State} {info : Nat} (hup : s.up = true) (h12 : s.start.step12 = true) (hr : s.start.runStep = none) (hst : s.cust.st = 4)
    (hb : s.time.mono ≤ s.start.step12At + stepBound 12 * nsUnit) :
    exec (.startStepDone 12 true info) s = .next (carryAll (putOutcome { s with start := { s.start with step12 := false } } 12 2)) := by
  have hin : inBound s 12 s.start.step12At = true := by rw [inBound, State.past_false hb, Bool.not_false, Bool.or_true]
  have hc : cardIsReady s = true := by rw [cardIsReady, hst]; rfl
  have hrun : (putOutcome { s with start := { s.start with step12 := false } } 12 outPass).start.runStep = none := hr
  show ok (carryAll (whenDo s.up s (fun t => stepDone t 12 true info))) = _
  rw [hup, whenDo_true, stepDone]
  simp only [if_true, hc, hin, endCard, h12, Bool.and_self, State.modStart, hrun, ok]
  rw [show ((none : Option Nat) == some 12) = false from rfl, Bool.and_false]
  rfl

-- The wings of step 9 (R34, R112)

/-- What the later steps of a start leave alone. -/
structure SameWings (s t : State) : Prop where
  wings : t.start.wingsActive = s.start.wingsActive
  excl : t.journal.excl = s.journal.excl

theorem SameWings.refl (s : State) : SameWings s s := ⟨rfl, rfl⟩

theorem SameWings.trans {s t u : State} (h : SameWings s t) (g : SameWings t u) : SameWings s u := ⟨g.wings.trans h.wings, g.excl.trans h.excl⟩

theorem SameWings.of_keeps {ch : Part → Bool} {s t : State} (h : Keeps ch s t) (hs : ch .start = false) (hj : ch .journal = false) : SameWings s t :=
  ⟨by rw [h.start hs], by rw [h.journal hj]⟩

theorem putOutcome_wings (s : State) (k o : Nat) : SameWings s (putOutcome s k o) := ⟨rfl, rfl⟩

theorem beginStep_wings (s : State) (k : Nat) : SameWings s (beginStep s k) := ⟨rfl, rfl⟩

theorem setStep_wings (s : State) (k : Nat) : SameWings s (s.modStart (fun t => { t with step := k })) := ⟨rfl, rfl⟩

theorem endStart_wings (s : State) (k c : Nat) : SameWings s (endStart s k c) := ⟨rfl, rfl⟩

theorem enterService_wings (s : State) : SameWings s (enterService s) := .of_keeps (enterService_keeps s) rfl rfl

theorem safeStage_wings (s : State) (k c : Nat) : SameWings s (safeStage s k c) :=
  ((setStep_wings s k).trans (endStart_wings _ 4 c)).trans (enterService_wings _)

theorem enterReady_wings (s : State) : SameWings s (enterReady s) := by
  unfold enterReady
  exact ((endStart_wings s 3 0).trans (.of_keeps (fillHome_keeps _) rfl rfl)).trans (enterService_wings _)

theorem beginRelay_wings (s : State) : SameWings s (beginRelay s) := by
  unfold beginRelay
  split
  · exact ((setStep_wings s 11).trans (putOutcome_wings ..)).trans (enterReady_wings _)
  · split
    · exact ((setStep_wings s 11).trans (putOutcome_wings ..)).trans (enterReady_wings _)
    · exact (beginStep_wings s 11).trans (.of_keeps (relayBegin_keeps _) rfl rfl)

theorem beginFront_wings (s : State) : SameWings s (beginFront s) := by
  unfold beginFront
  split
  · exact ((setStep_wings s 10).trans (putOutcome_wings ..)).trans (beginRelay_wings _)
  · exact ⟨rfl, rfl⟩

theorem doneWings_wings (s : State) (info : Nat) : (doneWings s info).start.wingsActive = s.start.plan9 &&& info
    ∧ (doneWings s info).journal.excl = s.journal.excl ||| (s.start.plan9 - (s.start.plan9 &&& info)) := by
  unfold doneWings
  extract_lets plan good bad s1 s2 s3 s4
  have k3 : Keeps (only [.place]) s2 s3 := .foldl (List.range 8) (fun t w => State.modWing_keeps t w _) (.refl s2)
  have k4 : Keeps (only [.entropy, .place]) s3 s4 := by
    refine .foldl (List.range 8) (fun t w => ?_) (.refl s3)
    split
    · exact (reseedWing_keeps t w).mono rfl
    · exact .refl t
  have h4 : SameWings s2 s4 := (SameWings.of_keeps k3 rfl rfl).trans (.of_keeps k4 rfl rfl)
  have hend : SameWings s4 (if good = 0 then safeStage (putOutcome s4 9 outFailed) 9 4
      else beginFront (requestAll (putOutcome s4 9 (if bad ≠ 0 then outFailed else if plan = 255 then outPass else outAlt)))) := by
    split
    · exact (putOutcome_wings ..).trans (safeStage_wings ..)
    · exact ((putOutcome_wings ..).trans (.of_keeps (requestAll_keeps _) rfl rfl)).trans (beginFront_wings _)
  exact ⟨(h4.trans hend).wings, (h4.trans hend).excl⟩

-- States of the start (R115)

theorem failHalt_state (s : State) (k : Nat) : (failHalt s k).start.state = 5 := rfl

theorem enterService_start (s : State) : (enterService s).start = s.start := (enterService_keeps s).start rfl

theorem enterReady_state (s : State) : (enterReady s).start.state = 3 := by
  unfold enterReady
  rw [enterService_start]
  rfl

theorem safeStage_state (s : State) (k c : Nat) : (safeStage s k c).start.state = 4 ∧ (safeStage s k c).start.safeCause = c := by
  unfold safeStage
  rw [enterService_start]
  exact ⟨rfl, rfl⟩

theorem enterService_seat (s : State) : ((enterService s).seat 0).state = 2 := by
  unfold enterService
  have h : ((requestAll (seatZeroRuns s)).seat 0).state = 2 := by
    rw [State.seat_of_seats ((requestAll_keeps _).seats rfl)]
    exact congrArg Seat.state (State.seat_modSeat s 0 (fun t => { t with state := 2, bucket := 65536 }))
  dsimp only
  split
  · rw [State.seat_of_seats ((vector_keeps _ 6).seats rfl)]; exact h
  · exact h

theorem relayAtBound_eq (s : State) :
    relayAtBound s = if s.relay.noBwk = false ∧ s.relay.authFail = false ∧ s.relay.formed = true ∧ s.relay.member ≠ 0xFF then 2 else 5 := by
  simp only [relayAtBound, relayVerdict_formed_iff]
  rfl

/-- A step under RUN_STEP at its bound, but for step 10, whose ports come back. -/
theorem exec_startStepBound_run {s : State} (hup : s.up = true) (hr : s.start.running ≠ some 11) (hrun : s.start.runStep = some 11)
    (hb : s.start.stepAt + stepBound 11 * nsUnit < s.time.mono) : exec (.startStepBound 11) s = .next (carryAll (runEnd s 11 (relayAtBound s))) := by
  have hd : boundDue s 11 s.start.stepAt = true := by rw [boundDue, State.past_true hb, Bool.or_true]
  show ok (carryAll (whenDo s.up s (fun t => stepAtBound t 11))) = _
  rw [hup, whenDo_true, stepAtBound]
  simp only [hr, hrun, hd, if_false, if_true, ok, show (11 : Nat) ≠ 12 by decide, show (11 : Nat) ≠ 10 by decide]

/-- SMG_BOOT_CTRL while it is not locked. -/
theorem bootCtrl_open {s : State} {v : W32} (h6 : s.start.running ≠ some 6) (h7 : s.start.running ≠ some 7) :
    bootCtrl s v = if v.toNat.testBit 0 && s.start.state == 2 then beginSmf { s with start := { s.start with imagesValid := v.toNat.testBit 0 } }
      else { s with start := { s.start with imagesValid := v.toNat.testBit 0 } } := by
  have hl : imgLock s = false := by simp [imgLock, h6, h7]
  rw [bootCtrl, hl]
  rfl

-- Commands of the stage manager (R126, R127)

theorem smgCmd_clearFail {s : State} {k : Nat} (hb : s.start.cmdBusy = false) (hst : s.start.state ≠ 0) (hk : k ≤ 12) :
    smgCmd s 1 k = smgEnd (clearFails s k) 0 := by
  simp only [smgCmd, hb, Bool.false_eq_true, if_false, hst, Nat.not_lt.mpr hk]

theorem smgCmd_runStep {s : State} {k : Nat} (hb : s.start.cmdBusy = false) (hst : s.start.state = 3) (h10 : 10 ≤ k) (hk : k ≤ 12) :
    smgCmd s 2 k = runBegin s k := by
  simp only [smgCmd, hb, Bool.false_eq_true, if_false, hst, ne_eq, not_true_eq_false, Nat.not_lt.mpr hk, Nat.not_lt.mpr h10, or_self]

theorem smgCmd_runStep_unready {s : State} {k : Nat} (hb : s.start.cmdBusy = false) (hst : s.start.state ≠ 3) : smgCmd s 2 k = smgEnd s 3 := by
  simp only [smgCmd, hb, Bool.false_eq_true, if_false, hst, ne_eq, not_false_eq_true, if_true]

theorem smgCmd_accept {s : State} (hb : s.start.cmdBusy = false) (hst : s.start.state = 3 ∨ s.start.state = 4) :
    smgCmd s 3 0 = if authInForce s 2 then smgEnd (endAuth (s.modStart (fun t => { t with accept := true })) 2) 0 else smgEnd s 1 := by
  have h : ¬(s.start.state ≠ 3 ∧ s.start.state ≠ 4) := by omega
  simp only [smgCmd, hb, Bool.false_eq_true, if_false, h, ne_eq, not_true_eq_false]
  cases authInForce s 2 <;> rfl

-- The start (O53)

/-- Settles O53: each step's end and bound, the states the start ends in, and the commands of the stage manager. -/
theorem startStepsLeadToService : Obligations.StartStepsLeadToService := by
  intro s hup
  refine ⟨fun info => ⟨fun hr => ⟨?_, ?_⟩, fun hr => ?_, fun r hr hb hk hg => ?_, fun hr hb ha hn hd => ?_, fun t hr hb ht => ?_, fun hr hb hw => ?_,
    doneWings_wings s info, fun hr hrun hb hd => ?_, fun hr hb h1 h2 h3 h4 => ?_, fun h12 hrun hst hb => exec_cardReady hup h12 hrun hst hb⟩,
    fun hr hb ha => ⟨fun hn => ?_, fun hn hd => ?_, fun hn hd => ?_⟩, fun hr hb => exec_startStepBound_main hup (by decide) hr hb,
    fun hr hb => exec_startStepBound_main hup (by decide) hr hb, fun o ho hb => ⟨fun hr => ?_, fun hr hrun => ?_⟩,
    ⟨rfl, enterReady_state s, (safeStage_state s 6 1).1, (safeStage_state s 6 1).2, ?_, rfl⟩, fun d e hreq hb => ?_, fun hreq hb => ?_,
    fun v hs h6 h7 => ⟨fun h => ?_, fun hst hv => ?_⟩, fun v => ⟨fun hs => exec_mgrWrite s _ _ _ hs rfl, fun hs => exec_mgrWrite s _ _ _ hs rfl⟩, fun hs hb => ?_⟩
  · exact exec_startStepDone_main hup (by decide) hr (.inl (by decide))
  · exact exec_startStepDone_main hup (by decide) hr (.inl (by decide))
  · exact exec_startStepDone_main hup (by decide) hr (.inl (by decide))
  · rw [exec_startStepDone_main hup (by decide) hr (.inr hb), ← doneLadder_good hk hg]
    rfl
  · rw [exec_startStepDone_main hup (by decide) hr (.inr hb), ← doneEntropy_passed ha hn hd]
    rfl
  · subst ht
    exact exec_startStepDone_main hup (by decide) hr (.inr hb)
  · rw [exec_startStepDone_main hup (by decide) hr (.inr hb), mainDone, wingsAwake_of hw]
    rfl
  · rw [exec_startStepDone_run hup (by decide) hr hrun hb, runDone, hd]
    rfl
  · rw [exec_startStepDone_main hup (by decide) hr (.inr hb), mainDone, doneRelay, relayVerdict_formed h1 h2 h3 h4]
    · rfl
    all_goals decide
  · rw [exec_startStepBound_main hup (by decide) hr hb, mainBound]
    simp only [hn, if_true, ha, Bool.false_eq_true, if_false]
  · rw [exec_startStepBound_main hup (by decide) hr hb, mainBound, ← doneEntropy_passed ha hn hd]
    simp only [Nat.not_lt.mpr hn, if_false, ha, hd, Bool.not_false, Bool.and_self, if_true]
  · rw [exec_startStepBound_main hup (by decide) hr hb, mainBound]
    simp only [Nat.not_lt.mpr hn, if_false, hd, Bool.and_false, Bool.false_eq_true]
  · rw [exec_startStepBound_main hup (by decide) hr hb, mainBound, relayAtBound_eq, ← ho]
  · rw [exec_startStepBound_run hup hr hrun hb, runEnd]
    simp only [relayAtBound_eq, ← ho]
    rfl
  · unfold enterReady
    exact enterService_seat _
  · have hp : s.past (s.start.stepAt + 1000000 * nsUnit) = false := State.past_false hb
    show ok _ = _
    rw [hup, hreq, hp, Bool.not_false, Bool.and_self, Bool.and_self, whenDo_true, ok]
    rfl
  · have hp : s.past (s.start.stepAt + 1000000 * nsUnit) = true := State.past_true hb
    refine ok_fin ?_
    rw [hup, hreq, hp, Bool.and_self, Bool.and_self, whenDo_true]
  · refine ok_carryAll ?_
    rw [mgrWrite_served s _ _ hs, bootCtrl_open h6 h7]
    exact if_neg (by obtain h | h := h <;> simp [h])
  · refine ok_carryAll ?_
    rw [mgrWrite_served s _ _ hs, bootCtrl_open h6 h7, hv]
    exact if_pos (by simp [hst])
  · have hrun (k : Nat) (u : State) (h : smgCmd s 2 (k % 2 ^ 24) = u) : exec (.runStep k) s = .next (carryAll u) := by
      refine ok_carryAll ?_
      rw [mgrWrite_served s _ _ hs, h]
    refine ⟨fun k hst hk1 hk => ?_, fun hst => ?_, fun u k hst hu => ⟨fun hk => ?_, fun hk hp => ?_, fun hk => ?_⟩, fun hst k => hrun k _ (smgCmd_runStep_unready hb hst),
      fun hst => ⟨fun ha => ?_, fun ha => ?_⟩⟩
    · refine exec_mgrWrite s _ _ _ hs ?_
      have hk' : k % 2 ^ 24 = k := Nat.mod_eq_of_lt (by omega)
      rw [hk', smgCmd_clearFail hb hst hk, clearFails]
      simp only [Nat.one_le_iff_ne_zero.mp hk1, if_false]
      rfl
    · exact exec_mgrWrite s _ _ _ hs (smgCmd_clearFail hb hst (by decide))
    · subst hk hu
      exact hrun 10 _ (smgCmd_runStep hb hst (by decide) (by decide))
    · subst hk hu
      refine hrun 11 _ ((smgCmd_runStep hb hst (by decide) (by decide)).trans ?_)
      exact if_pos hp
    · subst hk hu
      exact hrun 12 _ (smgCmd_runStep hb hst (by decide) (by decide))
    · refine exec_mgrWrite s _ _ _ hs ?_
      rw [smgCmd_accept hb hst, if_pos ha]
      rfl
    · refine exec_mgrWrite s _ _ _ hs ?_
      rw [smgCmd_accept hb hst, if_neg (by rw [ha]; exact Bool.false_ne_true)]

end Sys2Proof.Machine
end

section
/-! PROOF. Resets (chapters 2, 3, 15 and 17): what a reset and the loss of VAON leave, and the start that follows a release (O52). -/

namespace Sys2Proof.Machine

-- The card's write in progress (R519)

/-- The parts of the card port that the settling of a write leaves as they are. -/
structure SameCard (c d : Cust) : Prop where
  det : d.det = c.det
  rootHash : d.rootHash = c.rootHash
  rootSet : d.rootSet = c.rootSet
  nextTxn : d.nextTxn = c.nextTxn

theorem cardCatchUp_same (s : State) : SameCard s.cust (cardCatchUp s).cust := by
  unfold cardCatchUp
  split
  · split
    · exact ⟨rfl, rfl, rfl, rfl⟩
    · exact ⟨rfl, rfl, rfl, rfl⟩
  · exact ⟨rfl, rfl, rfl, rfl⟩

theorem cutWrite_same (s : State) : SameCard s.cust (cutWrite s).1.cust := by
  have h := cardCatchUp_same s
  unfold cutWrite
  extract_lets t
  split
  · exact h
  · split
    · exact ⟨h.det, h.rootHash, h.rootSet, h.nextTxn⟩
    · split
      · exact h
      · exact h

theorem cutWrite_idle {s : State} (h : s.cust.jrec = none) : (cutWrite s).1 = s := by
  have hc : cardCatchUp s = s := by rw [cardCatchUp, h]
  unfold cutWrite
  rw [hc]
  simp only [h]

-- What a reset keeps (R60, R72, R94, R95)

/-- The state a reset erases from: stage time stopped, the card's write settled. -/
def stopped (s : State) : State := (cutWrite (timeStop s)).1

theorem stopped_keeps (s : State) : Keeps (only [.time, .cust]) s (stopped s) :=
  ((timeStop_keeps s).mono rfl).trans ((cutWrite_keeps _).mono rfl)

theorem stopped_time (s : State) : (stopped s).time = (timeStop s).time := (cutWrite_keeps _).time rfl

theorem timeStop_cust (s : State) : (timeStop s).cust = s.cust := (timeStop_keeps s).cust rfl

theorem timeStop_snap (s : State) : (timeStop s).time.secSnap = s.time.secSnap ∧ (timeStop s).time.secGood = s.time.secGood := by
  unfold timeStop
  split
  · exact ⟨rfl, rfl⟩
  · exact ⟨rfl, rfl⟩

theorem stopped_same (s : State) : SameCard s.cust (stopped s).cust := by
  have h := cutWrite_same (timeStop s)
  rwa [timeStop_cust] at h

theorem stopped_recs {s : State} (h : s.cust.jrec = none) : (stopped s).cust.recs = s.cust.recs := by
  rw [stopped, cutWrite_idle (by rw [timeStop_cust]; exact h), timeStop_cust]

/-- What every reset leaves of the block, as O52 names it. -/
def resetKept (s t : State) : Prop :=
  t.up = false ∧ t.start.state = 0 ∧ t.start.vaonBad = s.start.vaonBad ∧ t.params = s.params ∧ t.pending = s.pending
    ∧ t.journal = s.journal ∧ t.time.secure = s.time.secure ∧ t.time.secSnap = s.time.secSnap ∧ t.time.secGood = s.time.secGood ∧ t.time.runs = false
    ∧ t.seats = tabMap {} s.seats (fun _ x => { gen := x.gen, spent := x.spent }) ∧ (∀ i, (t.seat i).state = 0)
    ∧ t.keys = { epoch := s.keys.epoch, wrapStarts := s.keys.wrapStarts, epochGood := s.keys.epochGood, bwk := s.keys.bwk }
    ∧ t.cust.rootHash = s.cust.rootHash ∧ t.cust.rootSet = s.cust.rootSet ∧ t.cust.det = s.cust.det ∧ t.cust.nextTxn = s.cust.nextTxn
    ∧ (s.cust.jrec = none → t.cust.recs = s.cust.recs) ∧ t.cust.vcc = false ∧ t.cust.rstn = false ∧ t.cust.auth = [] ∧ t.cust.shares = []
    ∧ t.jobs = [] ∧ t.rings = [] ∧ t.offers = [] ∧ t.buffers = [] ∧ t.prompts = [] ∧ t.window = {} ∧ t.entropy = {} ∧ t.front = {} ∧ t.engines = {}
    ∧ t.place = {} ∧ t.seatRegs = {} ∧ t.mem.accesses = [] ∧ t.mem.discard = true ∧ t.mem.discardAt = s.time.secure ∧ alarmN t = true
    ∧ (∀ sd, t.hop sd = { link := (s.hop sd).link, rxPulses := if (s.hop sd).link then 128 else 0 })

theorem blockReset_start (s : State) : (blockReset s).start = startKept s.start := congrArg startKept ((stopped_keeps s).start rfl)

theorem blockReset_seats (s : State) : (blockReset s).seats = tabMap {} s.seats (fun _ t => seatKept t) :=
  congrArg (fun l => tabMap ({} : Seat) l (fun _ t => seatKept t)) ((stopped_keeps s).seats rfl)

theorem blockReset_cust (s : State) : (blockReset s).cust = custKept (stopped s).cust := rfl

theorem blockReset_lastA (s : State) : (blockReset s).alarms.lastA = s.alarms.lastA :=
  by
  have h : (blockReset s).alarms.lastA = (stopped s).alarms.lastA := rfl
  rw [h, (stopped_keeps s).alarms rfl]

theorem timeStop_refKhz (s : State) : (timeStop s).time.refKhz = s.time.refKhz := by
  unfold timeStop
  split
  · rfl
  · rfl

theorem blockReset_refKhz (s : State) : (blockReset s).time.refKhz = s.time.refKhz := by
  have h : (blockReset s).time = timeReset (stopped s).time false := rfl
  rw [h, stopped_time]
  exact timeStop_refKhz s

theorem blockReset_down {s : State} (h : s.start.porst = true ∨ s.start.blkrst = true) : (blockReset s).up = false := by
  rw [State.up, blockReset_start]
  obtain h | h := h
  · simp [startKept, h]
  · simp [startKept, h]

theorem blockReset_kept {s : State} (h : s.start.porst = true ∨ s.start.blkrst = true) : resetKept s (blockReset s) := by
  have k := stopped_keeps s
  have hsec : (stopped s).time.secure = s.time.secure := by rw [stopped_time, timeStop_secure]
  obtain ⟨hsnap, hgood⟩ := timeStop_snap s
  rw [← stopped_time] at hsnap hgood
  have hc := stopped_same s
  refine ⟨blockReset_down h, rfl, ?_, k.params rfl, k.pending rfl, k.journal rfl, hsec, hsnap, hgood, rfl, blockReset_seats s, ?_, ?_,
    hc.rootHash, hc.rootSet, hc.det, hc.nextTxn, stopped_recs, rfl, rfl, rfl, rfl, rfl, rfl, rfl, rfl, rfl, rfl, rfl, rfl, rfl, rfl, rfl, rfl, rfl,
    hsec, ?_, ?_⟩
  · rw [blockReset_start]; rfl
  · intro i
    rw [State.seat, blockReset_seats]
    exact tabGet_of_all ({} : Seat) (fun t => t.state = 0) _ rfl (tabMap_all ({} : Seat) (fun t => t.state = 0) _ _ (fun _ _ => rfl)) i
  · exact congrArg keysKept (k.keys rfl)
  · simp [alarmN, blockReset]
  · intro sd
    have hr : (stopped s).relay = s.relay := k.relay rfl
    cases sd with
    | east => exact congrArg (fun r => hopKept r.east) hr
    | west => exact congrArg (fun r => hopKept r.west) hr

/-- The registers that PORST_N resets beside are no part of what a reset keeps. -/
theorem vaonReset_kept {s : State} (h : s.start.porst = true ∨ s.start.blkrst = true) : resetKept s (vaonReset (blockReset s)) :=
  blockReset_kept h

-- The start that follows a release (R103, R109, R114, R518)

theorem custJournalCheck_good {s : State} (hb : s.cust.badRecs = []) (hg : s.cust.jGood = true) : custJournalCheck s = s := by
  have h : (s.cust.badRecs.foldl dropCustRec s).modCust (fun c => { c with badRecs := [] }) = s := by
    simp only [hb, List.foldl_nil, State.modCust]
    rw [← hb]
  unfold custJournalCheck
  rw [h]
  simp only [hg, if_true]

theorem custJournalCheck_bad {s : State} (hb : s.cust.badRecs = []) (hg : s.cust.jGood = false) :
    custJournalCheck s = alarmC (s.modCust (fun c => { c with jGood := true, nextTxn := txnAfter s })) 0x4D 0 0 := by
  have h : (s.cust.badRecs.foldl dropCustRec s).modCust (fun c => { c with badRecs := [] }) = s := by
    simp only [hb, List.foldl_nil, State.modCust]
    rw [← hb]
  unfold custJournalCheck
  rw [h]
  simp only [hg, Bool.false_eq_true, if_false]

theorem alarmC_modCust_alarms (s : State) (f : Cust → Cust) (c d0 d1 : Nat) : (alarmC (s.modCust f) c d0 d1).alarms = (alarmC s c d0 d1).alarms := by
  unfold alarmC
  extract_lets _ a b _ x y
  have h : b.alarms = y.alarms := rfl
  rw [h]
  split
  · exact h
  · rw [(vector_keeps b 0).alarms rfl, (vector_keeps y 0).alarms rfl, h]

theorem startBegin_after (s : State) : Keeps (only [.start, .journal]) (custJournalCheck s) (startBegin s) := by
  unfold startBegin
  extract_lets a p b c
  have ha : Keeps (only [.start, .journal]) (custJournalCheck s) a :=
    ((journalCheck_keeps (custJournalCheck s)).mono rfl).trans ((countCut_keeps _).mono rfl)
  have hb : Keeps (only [.start, .journal]) a b := (State.modStart_keeps a _).mono rfl
  have hc : Keeps (only [.start, .journal]) b c := (State.modJournal_keeps b _).mono rfl
  exact ((ha.trans hb).trans hc).trans (beginStep_keeps c 1)

theorem journalCheck_good {s : State} (h : s.journal.good = true) : journalCheck s = s := by rw [journalCheck, if_pos h]

/-- What a start whose journals are good begins with. -/
theorem startBegin_good {s : State} (hj : s.journal.good = true) (hg : s.cust.jGood = true) (hb : s.cust.badRecs = []) :
    (startBegin s).start.running = some 1 ∧ (startBegin s).start.state = 1 ∧ (startBegin s).journal.count = (s.journal.count + 1) % 2 ^ 32
      ∧ (startBegin s).journal.last = (s.journal.last + 1) % 16 ∧ (startBegin s).start.outcomes = 1 :: List.replicate 11 0
      ∧ (startBegin s).start.plan9 = maskOf 8 (fun w => !s.journal.excl.testBit w) := by
  unfold startBegin
  rw [custJournalCheck_good hb hg, journalCheck_good hj]
  exact ⟨rfl, rfl, rfl, rfl, rfl, rfl⟩

theorem maskOf_succ (n : Nat) (p : Nat → Bool) : maskOf (n + 1) p = if p n then maskOf n p + 2 ^ n else maskOf n p := by
  simp [maskOf, List.range_succ]

theorem maskOf_lt (n : Nat) (p : Nat → Bool) : maskOf n p < 2 ^ n := by
  induction n with
  | zero => exact Nat.one_pos
  | succ n ih =>
    rw [maskOf_succ, Nat.pow_succ]
    split
    · omega
    · omega

theorem maskOf_testBit (n : Nat) (p : Nat → Bool) (w : Nat) (hw : w < n) : (maskOf n p).testBit w = p w := by
  induction n with
  | zero => omega
  | succ n ih =>
    have hlt := maskOf_lt n p
    rw [maskOf_succ]
    obtain h | rfl : w < n ∨ w = n := by omega
    · cases p n with
      | true => rw [if_pos rfl, Nat.add_comm, Nat.testBit_two_pow_add_gt h, ih h]
      | false => exact ih h
    · cases hp : p w with
      | true => rw [if_pos rfl, Nat.add_comm, Nat.testBit_two_pow_add_eq, Nat.testBit_lt_two_pow hlt]; rfl
      | false => exact Nat.testBit_lt_two_pow hlt

-- O52

theorem exec_porstNRelease {s : State} (h : s.start.porst = true) : exec .porstNRelease s =
    .next (carryAll (released { s with start := { s.start with porst := false } })) := by
  show ok (carryAll (whenDo s.start.porst s (fun s => released (s.modStart (fun t => { t with porst := false }))))) = _
  rw [h, whenDo_true]
  rfl

theorem exec_blkrstNRelease {s : State} (h : s.start.blkrst = true) : exec .blkrstNRelease s =
    .next (carryAll (released { s with start := { s.start with blkrst := false } })) := by
  show ok (carryAll (whenDo s.start.blkrst s (fun s => released (s.modStart (fun t => { t with blkrst := false }))))) = _
  rw [h, whenDo_true]
  rfl

theorem vaonLost_down (s : State) : (vaonLost s).up = false := by
  have h : (vaonLost s).start.vaonBad = true := by
    show (blockReset (s.modStart (fun t => { t with vaonBad := true }))).start.vaonBad = true
    rw [blockReset_start]
    rfl
  simp [State.up, h]

theorem vaonLost_det (s : State) : (vaonLost s).cust = { det := s.cust.det } := by
  have h : (vaonLost s).cust = { det := (stopped (s.modStart (fun t => { t with vaonBad := true }))).cust.det } := rfl
  rw [h, (stopped_same _).det]
  rfl

/-- Settles O52: a reset keeps the parts it names because the settling of the card's write and the stop of stage time touch those two parts alone; the start
that follows a release depends on the journals, and its plan on the wings excluded. -/
theorem resetsKeepWhatIsRetained : Obligations.ResetsKeepWhatIsRetained := by
  unfold Obligations.ResetsKeepWhatIsRetained
  intro s kept hk
  replace hk : kept = resetKept s := hk
  refine ⟨fun h => ?_, fun h => ?_, fun h => ?_, fun h => ?_, fun u h hu => ?_, fun u h hu => ?_, fun hb => ⟨fun hg => ?_, fun hg => ⟨?_, ?_⟩⟩,
    fun hj hg hb => ?_, fun hd ht => ?_, fun h => ?_, fun u h hg hu => ⟨?_, ?_⟩⟩
  · have hr : resetKept s (vaonReset (blockReset (s.modStart (fun t => { t with porst := true })))) := vaonReset_kept (Or.inl rfl)
    refine ⟨_, ?_, hk ▸ hr, ?_, rfl, rfl, rfl, rfl⟩
    · show ok (whenDo (!s.start.porst) s _) = _
      rw [h]
      rfl
    · exact congrArg Start.porst (blockReset_start (s.modStart (fun t => { t with porst := true })))
  · have hr : resetKept s (blockReset (s.modStart (fun t => { t with blkrst := true }))) := blockReset_kept (Or.inr rfl)
    have hs := blockReset_start (s.modStart (fun t => { t with blkrst := true }))
    refine ⟨_, ?_, hk ▸ hr, ?_⟩
    · show ok (whenDo (!s.start.blkrst) s _) = _
      rw [h]
      rfl
    · rw [hs]
      exact ⟨rfl, rfl, rfl, rfl, rfl, rfl, rfl, rfl, blockReset_lastA _, blockReset_refKhz _⟩
  · show ok (whenDo (!s.start.porst) s _) = _
    rw [h]
    rfl
  · show ok (whenDo (!s.start.blkrst) s _) = _
    rw [h]
    rfl
  · rw [exec_porstNRelease h, hu]
    rfl
  · rw [exec_blkrstNRelease h, hu]
    rfl
  · rw [(startBegin_after s).cust rfl, custJournalCheck_good hb hg]
  · rw [(startBegin_after s).cust rfl, custJournalCheck_bad hb hg, (alarmC_keeps ..).cust rfl]
    rfl
  · rw [(startBegin_after s).alarms rfl, custJournalCheck_bad hb hg, alarmC_modCust_alarms]
  · obtain ⟨h1, h2, h3, h4, h5, h6⟩ := startBegin_good hj hg hb
    refine ⟨h1, h2, h3, h4, h5, fun w hw => ?_⟩
    rw [h6, maskOf_testBit 8 _ w hw]
  · show ok (whenDo (s.mem.discard && decide (s.mem.discardAt + 10000 ≤ s.time.secure)) s _) = _
    rw [hd, decide_eq_true ht]
    rfl
  · refine ⟨vaonLost s, ?_, vaonLost_down s, rfl, rfl, rfl, rfl, rfl, rfl, rfl, vaonLost_det s, rfl⟩
    show ok (whenDo (!s.start.vaonBad) s vaonLost) = _
    rw [h]
    rfl
  · show ok (carryAll (whenDo s.start.vaonBad s vaonBack)) = _
    rw [h, whenDo_true, vaonBack, hu]
    simp only [State.modStart, hg, Bool.false_eq_true, if_false]
    rfl
  · rw [hu]
    simp only [State.up]
    cases s.start.porst <;> cases s.start.blkrst <;> rfl

end Sys2Proof.Machine
end

section
/-! PROOF. The hops of the relay ring (chapter 16): what a message that is sent changes, and how hops are keyed and broken. -/

namespace Sys2Proof.Machine

-- Reading and changing a hop

theorem State.hop_modHop (s : State) (sd : Side) (f : RHop → RHop) : (s.modHop sd f).hop sd = f (s.hop sd) := by
  cases sd with
  | east => rfl
  | west => rfl

theorem State.hop_modHop_other (s : State) {sd sd' : Side} (f : RHop → RHop) (h : sd' ≠ sd) : (s.modHop sd f).hop sd' = s.hop sd' := by
  cases sd with
  | east => cases sd' with
    | east => exact absurd rfl h
    | west => rfl
  | west => cases sd' with
    | east => rfl
    | west => exact absurd rfl h

theorem State.modHop_congr {s : State} {sd : Side} {f g : RHop → RHop} (h : f (s.hop sd) = g (s.hop sd)) : s.modHop sd f = s.modHop sd g := by
  cases sd with
  | east => exact congrArg (fun e => { s with relay := { s.relay with east := e } }) h
  | west => exact congrArg (fun e => { s with relay := { s.relay with west := e } }) h

theorem State.modHop_modHop (s : State) (sd : Side) (f g : RHop → RHop) : (s.modHop sd f).modHop sd g = s.modHop sd (fun h => g (f h)) := by
  cases sd with
  | east => rfl
  | west => rfl

theorem State.modHop_id (s : State) (sd : Side) : s.modHop sd id = s := by
  cases sd with
  | east => rfl
  | west => rfl

theorem State.modHop_self {s : State} {sd : Side} {f : RHop → RHop} (h : f (s.hop sd) = s.hop sd) : s.modHop sd f = s :=
  (State.modHop_congr (g := id) h).trans (s.modHop_id sd)

theorem State.modHop_sent (s : State) (sd : Side) (f : RHop → RHop) : (s.modHop sd f).relay.sent = s.relay.sent := by
  cases sd with
  | east => rfl
  | west => rfl

theorem State.modHop_member (s : State) (sd : Side) (f : RHop → RHop) : (s.modHop sd f).relay.member = s.relay.member := by
  cases sd with
  | east => rfl
  | west => rfl

theorem State.hop_sent (s : State) (sd : Side) (l : List RSent) : State.hop { s with relay := { s.relay with sent := l } } sd = s.hop sd := by
  cases sd with
  | east => rfl
  | west => rfl

theorem other_ne (sd : Side) : other sd ≠ sd := by
  cases sd with
  | east => decide
  | west => decide

-- What sending leaves (R475, R476)

/-- A hop without what leaves it: its credits, its queue and its count. -/
def RHop.still (h : RHop) : RHop := { h with credits := 0, txSeq := 0, txLeft := 0, queue := [] }

/-- The ring without what leaves it. -/
def Relay.still (r : Relay) : Relay := { r with east := r.east.still, west := r.west.still, sent := [] }

theorem modHop_still {s : State} {sd : Side} {f : RHop → RHop} (h : ∀ x : RHop, (f x).still = x.still) : (s.modHop sd f).relay.still = s.relay.still := by
  cases sd with
  | east => exact congrArg (fun e => { s.relay.still with east := e }) (h s.relay.east)
  | west => exact congrArg (fun e => { s.relay.still with west := e }) (h s.relay.west)

theorem still_hop {s t : State} (h : t.relay.still = s.relay.still) (sd : Side) : (t.hop sd).still = (s.hop sd).still := by
  cases sd with
  | east => exact congrArg (fun r : Relay => r.east) h
  | west => exact congrArg (fun r : Relay => r.west) h

theorem still_formed {s t : State} (h : t.relay.still = s.relay.still) : t.relay.formed = s.relay.formed := by
  have hf (r : Relay) : r.still.formed = r.formed := rfl
  rw [← hf t.relay, h, hf]

theorem hopPut_still (s : State) (sd : Side) (m : RSent) (t : List RSent) : (hopPut s sd m t).relay.still = s.relay.still := by
  unfold hopPut
  extract_lets h n left u
  have hu : u.relay.still = s.relay.still := modHop_still (fun _ => rfl)
  split
  · exact hu
  · exact hu

theorem hopDrainF_still (sd : Side) (n : Nat) (s : State) : (hopDrainF sd n s).relay.still = s.relay.still := by
  induction n generalizing s with
  | zero => rfl
  | succ n ih =>
    rw [hopDrainF]
    split
    · rfl
    · split
      · exact (ih _).trans (hopPut_still s sd _ _)
      · rfl

/-- A hop whose count a message takes, unless it is a keying one. -/
def RHop.counted (keying : Bool) (h : RHop) : RHop := if keying then h else { h with txSeq := h.txSeq + 1 }

/-- A hop with one message more that waits. -/
def RHop.push (m : RSent) (h : RHop) : RHop := { h with queue := h.queue ++ [m] }

/-- A message as a hop numbers and encrypts it. -/
def RHop.message (h : RHop) (sd : Side) (src dst hops : Nat) (msg : RMsg) : RSent :=
  let m : RSent := { east := sd == .east, src := src, dst := dst, hops := hops, seq := if isKeying msg then 0 else h.txSeq, phase := h.phase, msg := msg }
  { m with wire := relayWire h.sendKey m }

/-- Whether a hop takes a message. -/
def RHop.takes (h : RHop) (msg : RMsg) : Bool := h.link && (h.keyed || isKeying msg) && !decide (16288 < rmsgLen msg)

theorem hopSend_eq (s : State) (sd : Side) (src dst hops : Nat) (msg : RMsg) : hopSend s sd src dst hops msg =
    if (s.hop sd).takes msg then
      hopDrain ((s.modHop sd (RHop.counted (isKeying msg))).modHop sd (RHop.push ((s.hop sd).message sd src dst hops msg))) sd
    else s := by
  have h : (!(s.hop sd).link || !((s.hop sd).keyed || isKeying msg) || decide (16288 < rmsgLen msg)) = !(s.hop sd).takes msg := by simp [RHop.takes]
  unfold hopSend
  extract_lets c r1 r2 u
  rw [h]
  cases (s.hop sd).takes msg with
  | false => rfl
  | true => rfl

theorem counted_still (k : Bool) (h : RHop) : (h.counted k).still = h.still := by
  cases k with
  | false => rfl
  | true => rfl

theorem hopSend_still (s : State) (sd : Side) (src dst hops : Nat) (m : RMsg) : (hopSend s sd src dst hops m).relay.still = s.relay.still := by
  rw [hopSend_eq]
  split
  · exact (hopDrainF_still sd _ _).trans ((modHop_still (f := RHop.push _) (fun _ => rfl)).trans (modHop_still (counted_still _)))
  · rfl

theorem rmsgFlits_pos (m : RMsg) : 0 < rmsgFlits m := by
  unfold rmsgFlits ceilDiv
  split
  · omega
  · omega

/-- The one message of a hop that has credits for it leaves whole. -/
theorem hopDrain_one {s : State} {sd : Side} {m : RSent} (hq : (s.hop sd).queue = [m]) (ht : (s.hop sd).txLeft = 0) (hs : relayStalled s = false)
    (hc : rmsgFlits m.msg ≤ (s.hop sd).credits) : ∃ u, u = s.modHop sd (fun h => { h with credits := h.credits - rmsgFlits m.msg, txLeft := 0, queue := [] }) ∧
    hopDrain s sd = { u with relay := { u.relay with sent := m :: u.relay.sent } } := by
  have hp := rmsgFlits_pos m.msg
  have hleave : canLeave s sd = true := by
    rw [canLeave, hs, decide_eq_true (by omega)]
    rfl
  refine ⟨_, rfl, ?_⟩
  rw [hopDrain, hq]
  show hopDrainF sd 1 s = _
  rw [hopDrainF]
  simp only [hq, hleave, if_true]
  rw [hopDrainF, hopPut, flitsNow, ht]
  simp only [if_true, Nat.min_eq_right hc, Nat.sub_self]

theorem sliceZ_length (b : Bytes) (off n : Nat) : (sliceZ b off n).length = n := by
  simp only [sliceZ, zeros, List.length_append, List.length_replicate, List.length_take]
  omega

theorem relayWire_length (key : Bytes) (m : RSent) : (relayWire key m).length = 64 * rmsgFlits m.msg := by
  unfold relayWire
  exact sliceZ_length _ _ _

/-- A message of the ring that a keyed hop has credits for leaves at once, numbered and encrypted. -/
theorem hopSend_leaves {s : State} {sd : Side} {m : RMsg} (src dst hops : Nat) (hm : isKeying m = false) (hl : (s.hop sd).link = true)
    (hk : (s.hop sd).keyed = true) (hn : rmsgLen m ≤ 16288) (hs : relayStalled s = false) (hq : (s.hop sd).queue = []) (ht : (s.hop sd).txLeft = 0)
    (hc : rmsgFlits m ≤ (s.hop sd).credits) :
    (hopSend s sd src dst hops m).relay.sent = (s.hop sd).message sd src dst hops m :: s.relay.sent ∧
      (hopSend s sd src dst hops m).hop sd =
        { s.hop sd with txSeq := (s.hop sd).txSeq + 1, credits := (s.hop sd).credits - rmsgFlits m, txLeft := 0, queue := [] } := by
  have htake : (s.hop sd).takes m = true := by simp [RHop.takes, hl, hk, Nat.not_lt.mpr hn]
  have hv : (((s.modHop sd (RHop.counted (isKeying m))).modHop sd (RHop.push ((s.hop sd).message sd src dst hops m))).hop sd) =
      { s.hop sd with txSeq := (s.hop sd).txSeq + 1, queue := [(s.hop sd).message sd src dst hops m] } := by
    rw [State.hop_modHop, State.hop_modHop, hm, RHop.push, RHop.counted, hq]
    rfl
  have hst (f g : RHop → RHop) : relayStalled ((s.modHop sd f).modHop sd g) = false := by
    rw [relayStalled, (State.modHop_keeps ..).mem rfl, (State.modHop_keeps ..).mem rfl]
    exact hs
  obtain ⟨u, hu, hd⟩ := hopDrain_one (congrArg RHop.queue hv) ((congrArg RHop.txLeft hv).trans ht) (hst _ _) (by rw [hv]; exact hc)
  rw [hopSend_eq, if_pos htake, hd]
  refine ⟨?_, ?_⟩
  · rw [hu]
    simp only [State.modHop_sent]
  · rw [State.hop_sent, hu, State.hop_modHop, hv]
    rfl

-- Links and credits (R85)

theorem exec_linkUp {s : State} {sd : Side} (hup : s.up = true) (hp : s.params.relayPresent = true) :
    exec (.linkUp sd) s = .next (fin ((if (s.hop sd).keyed = true then breakHop s sd else s).modHop sd (fun h =>
      { h with link := true, upAt := (if (s.hop sd).keyed = true then breakHop s sd else s).time.mono, credits := 0, queue := [], txLeft := 0, rxPulses := 128 }))) := by
  show ok (fin (linkRise s sd)) = _
  unfold linkRise
  rw [hup, hp]
  rfl

/-- A hop with one credit more. -/
def RHop.credit (h : RHop) : RHop := { h with credits := h.credits + 1 }

theorem exec_creditReturn {s : State} {sd : Side} (hup : s.up = true) (hs : relayStalled s = false) (hl : (s.hop sd).link = true) :
    exec (.creditReturn sd) s = .next (fin (sendHello (hopDrain (s.modHop sd RHop.credit) sd) false)) := by
  show ok (fin (creditIn s sd)) = _
  unfold creditIn
  rw [hup, hs, hl]
  rfl

theorem hopDrain_empty {s : State} {sd : Side} (h : (s.hop sd).queue = []) : hopDrain s sd = s := by
  rw [hopDrain, h]
  rfl

/-- The flits of a message that are still to leave. -/
def RHop.toSend (h : RHop) (m : RSent) : Nat := if h.txLeft = 0 then rmsgFlits m.msg else h.txLeft

/-- A hop that has spent its credits sends nothing. -/
theorem hopDrainF_spent {s : State} {sd : Side} (h : (s.hop sd).credits = 0) (n : Nat) : hopDrainF sd n s = s := by
  cases n with
  | zero => rfl
  | succ n =>
    have hc : canLeave s sd = false := by simp [canLeave, h]
    rw [hopDrainF, hc]
    cases (s.hop sd).queue with
    | nil => rfl
    | cons m q => rfl

/-- One credit, where none was held, lets one flit of the first message leave. -/
theorem hopDrain_credit {s : State} {sd : Side} {m : RSent} {q : List RSent} (hs : relayStalled s = false) (hq : (s.hop sd).queue = m :: q)
    (hc : (s.hop sd).credits = 0) : hopDrain (s.modHop sd RHop.credit) sd =
      hopDrainF sd q.length (hopPut (s.modHop sd RHop.credit) sd m q) := by
  have hst : relayStalled (s.modHop sd RHop.credit) = false := by
    rw [relayStalled, (State.modHop_keeps ..).mem rfl]
    exact hs
  have hl : canLeave (s.modHop sd RHop.credit) sd = true := by
    rw [canLeave, hst, State.hop_modHop, RHop.credit, hc]
    rfl
  have hq' : ((s.modHop sd RHop.credit).hop sd).queue = m :: q := by
    rw [State.hop_modHop]
    exact hq
  rw [hopDrain, hq', List.length_cons, hopDrainF, hq']
  simp only [hl, if_true]

theorem hopPut_credit {s : State} {sd : Side} {m : RSent} {q : List RSent} (hc : (s.hop sd).credits = 0) (hn : 0 < (s.hop sd).toSend m) (u : State)
    (hu : u = s.modHop sd (fun h => { h with txLeft := h.toSend m - 1, queue := if h.toSend m - 1 = 0 then q else h.queue })) :
    hopPut (s.modHop sd RHop.credit) sd m q =
      if (s.hop sd).toSend m - 1 = 0 then { u with relay := { u.relay with sent := m :: u.relay.sent } } else u := by
  have hnow : flitsNow (s.hop sd).credit m = 1 := by
    rw [flitsNow, RHop.credit, hc]
    exact Nat.min_eq_left hn
  have he : (s.modHop sd RHop.credit).modHop sd (fun h => { h with
      credits := h.credits - 1, txLeft := (s.hop sd).toSend m - 1, queue := if (s.hop sd).toSend m - 1 = 0 then q else h.queue }) = u := by
    rw [hu, State.modHop_modHop]
    refine State.modHop_congr ?_
    simp only [RHop.credit, Nat.add_sub_cancel, RHop.toSend]
  unfold hopPut
  extract_lets h n left w
  have hh : h = (s.hop sd).credit := State.hop_modHop s sd RHop.credit
  have hn1 : n = 1 := (congrArg (fun x => flitsNow x m) hh).trans hnow
  have hleft : left = (s.hop sd).toSend m - 1 := by
    show (if h.txLeft = 0 then rmsgFlits m.msg else h.txLeft) - n = _
    rw [hn1, hh]
    rfl
  have hw : w = u := by
    show (s.modHop sd RHop.credit).modHop sd (fun h => { h with credits := h.credits - n, txLeft := left, queue := if left = 0 then q else h.queue }) = u
    rw [hn1, hleft]
    exact he
  show (if left = 0 then { w with relay := { w.relay with sent := m :: w.relay.sent } } else w) = _
  rw [hw, hleft]

-- Keying: HELLO (R478, R481, R489)

theorem helloDue_iff (s : State) (again : Bool) : helloDue s again = true ↔ relayOn s = true ∧ s.relay.east.link = true ∧ 0 < s.relay.east.credits ∧
    relayStalled s = false ∧ s.relay.east.hello = [] ∧ (again = true ∨ (s.relay.east.keyed = false ∧ s.relay.east.broken = false)) := by
  have hc : canLeave s .east = true ↔ 0 < s.relay.east.credits ∧ relayStalled s = false := by
    rw [canLeave, Bool.and_eq_true, decide_eq_true_eq, Bool.not_eq_true']
    rfl
  simp [helloDue, hc, and_assoc]

theorem sendHello_not {s : State} {again : Bool} (h : helloDue s again = false) : sendHello s again = s := by
  rw [sendHello, h]
  rfl

theorem sendHello_noBwk {s : State} {again : Bool} (h : helloDue s again = true) (hb : bwkOf s = none) :
    sendHello s again = { s with relay := { s.relay with noBwk := true } } := by
  rw [sendHello, h, needBwk, hb]
  rfl

/-- The hop that waits for the answer to its HELLO. -/
def RHop.asking (h : RHop) (x dk hello : Bytes) (at_ : Stamp) (ph : Bool) : RHop :=
  { h with xPriv := x, kemDk := dk, hello := hello, helloAt := at_, newPhase := ph }

theorem still_asking {h g : RHop} {x dk hello : Bytes} {at_ : Stamp} {ph : Bool} (e : h.still = (g.asking x dk hello at_ ph).still) :
    h.hello = hello ∧ h.newPhase = ph ∧ h.xPriv = x ∧ h.kemDk = dk ∧ h.keyed = g.keyed ∧ h.sendKey = g.sendKey :=
  ⟨congrArg (fun h : RHop => h.hello) e, congrArg (fun h : RHop => h.newPhase) e, congrArg (fun h : RHop => h.xPriv) e, congrArg (fun h : RHop => h.kemDk) e,
    show h.still.keyed = g.keyed by rw [e]; rfl, show h.still.sendKey = g.sendKey by rw [e]; rfl⟩

theorem tryDraw_relay {s : State} {i n : Nat} {r : State × Bytes} (h : tryDraw s i n = some r) : r.1.relay = s.relay := by
  obtain ⟨t, b⟩ := r
  exact ((tryDraw_keeps s i n).get h).relay rfl

theorem sendHello_still {s : State} {again : Bool} {b : Bytes} {r : State × Bytes} (h : helloDue s again = true) (hb : bwkOf s = some b)
    (hr : tryDraw s 0 96 = some r) : (sendHello s again).relay.east.still = (s.relay.east.asking (sliceZ r.2 0 32) (kemKeygen 0x12 (sliceZ r.2 32 32) (sliceZ r.2 64 32)).2
      (x25519 (sliceZ r.2 0 32) x25519Base ++ (kemKeygen 0x12 (sliceZ r.2 32 32) (sliceZ r.2 64 32)).1 ++
        [if (if s.relay.east.keyed then !s.relay.east.phase else s.relay.east.phase) then 1 else 0]) s.mono
      (if s.relay.east.keyed then !s.relay.east.phase else s.relay.east.phase)).still := by
  rw [← tryDraw_relay hr, sendHello, h, needBwk, hb]
  simp only [Bool.not_true, Bool.false_eq_true, if_false, hr]
  exact still_hop (hopSend_still ..) .east

theorem exec_hopRekeyDue {s : State} (hk : s.relay.east.keyed = true)
    (h : 2 ^ 32 ≤ s.relay.east.txSeq ∨ 2 ^ 32 ≤ s.relay.east.rxSeq ∨ s.relay.east.keyedAt + 3600000000000 ≤ s.time.secure) :
    exec (.hopRekeyDue .east) s = .next (fin (sendHello s true)) := by
  show ok (fin (rekeyDue s .east)) = _
  unfold rekeyDue
  extract_lets c
  have hc : c = s.relay.east := rfl
  have hd : (decide (2 ^ 32 ≤ s.relay.east.txSeq) || decide (2 ^ 32 ≤ s.relay.east.rxSeq) ||
      decide (s.relay.east.keyedAt + 3600000000000 ≤ s.time.secure)) = true := by
    simp only [Bool.or_eq_true, decide_eq_true_eq, or_assoc]
    exact h
  rw [hc, hk, hd]
  rfl

theorem exec_brokenHopRekey {s : State} {sd : Side} (hon : relayOn s = true) (hl : (s.hop sd).link = true) (hk : (s.hop sd).keyed = false)
    (ht : (s.hop sd).upAt + 10000 * nsUnit ≤ s.time.mono)
    (h : (s.hop sd).broken = true ∨ (sd = .east ∧ s.relay.east.hello ≠ [] ∧ s.relay.east.helloAt + 300000 * nsUnit < s.time.mono)) :
    exec (.brokenHopRekey sd) s = .next (fin (sendHello (s.modHop sd (fun h => { h with broken := false, hello := [], xPriv := [], kemDk := [] })) false)) := by
  have hlost : ((s.hop sd).broken || helloLost s sd) = true := by
    obtain hb | ⟨rfl, hh, hp⟩ := h
    · rw [hb]; rfl
    · have he : s.hop .east = s.relay.east := rfl
      rw [he] at hk
      simp [helloLost, he, hk, hh, State.past_true hp]
  have hd : s.due ((s.hop sd).upAt + 10000 * nsUnit) = true := decide_eq_true ht
  show ok (fin (brokenRekey s sd)) = _
  unfold brokenRekey
  extract_lets c
  have hc : c = s.hop sd := rfl
  rw [hc, hon, hlost, hl, hd]
  refine congrArg (fun v => Host.Outcome.next (fin (sendHello v false))) (State.modHop_congr ?_)
  simp only [hk, Bool.false_eq_true, if_false]

theorem exec_brokenHopRekey_not {s : State} {sd : Side} (h : s.time.mono < (s.hop sd).upAt + 10000 * nsUnit ∨ (s.hop sd).link = false) :
    exec (.brokenHopRekey sd) s = .next (fin s) := by
  show ok (fin (brokenRekey s sd)) = _
  unfold brokenRekey
  extract_lets c
  have hc : c = s.hop sd := rfl
  obtain h | h := h
  · have hd : s.due ((s.hop sd).upAt + 10000 * nsUnit) = false := decide_eq_false (Nat.not_le.mpr h)
    simp [hc, hd, ok]
  · simp [hc, h, ok]

-- Keying: what arrives (R479)

/-- A message that comes while its link is up gives its buffers back and is taken. -/
theorem arrive_up {s : State} {sd : Side} (hup : s.up = true) (hs : relayStalled s = false) (hl : (s.hop sd).link = true) (n : Nat) (f : State → State) :
    arrive s sd n f = f (takeFlits s sd n) := by
  rw [arrive, hup, hs, hl]
  rfl

theorem relayOn_up {s : State} (h : relayOn s = true) : s.up = true := by
  simp only [relayOn, Bool.and_eq_true] at h
  obtain ⟨⟨⟨hup, -⟩, -⟩, -⟩ := h
  exact hup

theorem exec_hello {s : State} {x ek : Bytes} {ph : Bool} (hup : s.up = true) (hs : relayStalled s = false) (hl : s.relay.west.link = true) :
    exec (.hello x ek ph) s = .next (fin (takeHello (takeFlits s .west (rmsgFlits (.hello x ek ph))) x ek ph)) := by
  show ok (fin (arrive s .west _ (fun t => takeHello t x ek ph))) = _
  rw [arrive_up (sd := .west) hup hs hl]
  rfl

theorem takeHello_keep {u : State} {x ek : Bytes} {ph : Bool} (hs : relayStalled u = false) (hl : u.relay.west.link = true) (hk : kemEkOk 0x12 ek = true)
    (hon : relayOn u = false) : takeHello u x ek ph = keepHello u x ek ph := by
  rw [takeHello, hs, hl, hk, hon]
  rfl

theorem takeHello_answer {u : State} {x ek b : Bytes} {ph : Bool} {r : State × Bytes} (hs : relayStalled u = false) (hl : u.relay.west.link = true)
    (hk : kemEkOk 0x12 ek = true) (hon : relayOn u = true) (hb : bwkOf u = some b) (hr : tryDraw u 0 64 = some r) (pub : Bytes) (m : Bytes × Bytes)
    (dg keys : Bytes) (hpub : pub = x25519 (sliceZ r.2 0 32) x25519Base) (hm : m = kemEncaps 0x12 ek (sliceZ r.2 32 32))
    (hdg : dg = hopDigest (x ++ ek ++ [if ph then 1 else 0]) pub m.2) (hkeys : keys = hopKeys (x25519 (sliceZ r.2 0 32) x) m.1 (lakOf b) dg) :
    takeHello u x ek ph = hopSend (r.1.modHop .west (fun h => { h with newKeys := keys, digest := dg, newPhase := ph, confirming := true })) .west
      r.1.relay.member 0xFF 0 (.reply pub m.2 (confirmTag keys dg 0x57)) := by
  have hgo : (relayStalled u || !u.relay.west.link || !kemEkOk 0x12 ek) = false := by rw [hs, hl, hk]; rfl
  unfold takeHello needBwk
  rw [hgo, hon, hb]
  simp -zeta only [Bool.not_true, Bool.false_eq_true, if_false, hr]
  extract_lets d kem pub' dg' keys' w
  have hkem : kem = m := hm.symm
  have hpb : pub' = pub := hpub.symm
  have hd : dg' = dg := by
    rw [hdg, ← hkem, ← hpb]
  have hks : keys' = keys := by
    rw [hkeys, ← hkem, ← hd]
  have hw : w = r.1.modHop .west (fun h => { h with newKeys := keys, digest := dg, newPhase := ph, confirming := true }) := by
    rw [← hks, ← hd]
  have hmem : w.relay.member = r.1.relay.member := State.modHop_member ..
  rw [hmem, hw, hkem, hpb, hks, hd]

theorem exec_reply {s : State} {x ct w : Bytes} (hup : s.up = true) (hs : relayStalled s = false) (hl : s.relay.east.link = true) :
    exec (.reply x ct w) s = .next (carryAll (takeReply (takeFlits s .east (rmsgFlits (.reply x ct w))) x ct w)) := by
  show ok (carryAll (arrive s .east _ (fun t => takeReply t x ct w))) = _
  rw [arrive_up (sd := .east) hup hs hl]
  rfl

/-- What REPLY does is judged by its tag. -/
theorem takeReply_judged {u : State} {x ct w b : Bytes} (hb : bwkOf u = some b) (hon : relayOn u = true) (hl : u.relay.east.link = true)
    (hh : u.relay.east.hello ≠ []) (dg keys : Bytes) (hdg : dg = hopDigest u.relay.east.hello x ct)
    (hkeys : keys = hopKeys (x25519 u.relay.east.xPriv x) (kemDecaps 0x12 u.relay.east.kemDk ct) (lakOf b) dg) :
    takeReply u x ct w = if confirmTag keys dg 0x57 ≠ w then authFails u .east
      else keyedHop (hopSend u .east u.relay.member 0xFF 0 (.confirm (confirmTag keys dg 0x45))) .east keys u.relay.east.newPhase := by
  have hn : (u.relay.east.hello == []) = false := by simpa using hh
  rw [takeReply, hb]
  simp only [hon, hl, hn, Bool.not_true, Bool.or_self, Bool.false_eq_true, if_false]
  rw [hkeys, hdg]

theorem exec_confirm {s : State} {e : Bytes} (hup : s.up = true) (hs : relayStalled s = false) (hl : s.relay.west.link = true) :
    exec (.confirm e) s = .next (carryAll (takeConfirm (takeFlits s .west (rmsgFlits (.confirm e))) e)) := by
  show ok (carryAll (arrive s .west _ (fun t => takeConfirm t e))) = _
  rw [arrive_up (sd := .west) hup hs hl]
  rfl

/-- What CONFIRM does is judged by its tag. -/
theorem takeConfirm_judged {u : State} {e : Bytes} (hon : relayOn u = true) (hc : u.relay.west.confirming = true) :
    takeConfirm u e = if confirmTag u.relay.west.newKeys u.relay.west.digest 0x45 ≠ e then authFails u .west
      else keyedHop u .west u.relay.west.newKeys u.relay.west.newPhase := by
  rw [takeConfirm, hon]
  simp only [hc, Bool.not_true, Bool.or_self, Bool.false_eq_true, if_false]

theorem authFails_east (u : State) : authFails u .east = { u with relay := { u.relay with
    east := { u.relay.east with xPriv := [], kemDk := [], hello := [], newKeys := [], digest := [], confirming := false }
    authFail := true, cntAuth := satInc 32 u.relay.cntAuth } } := rfl

-- Keyed hops (R480, R481)

/-- A hop under new keys. -/
def RHop.newlyKeyed (h : RHop) (again : Bool) (sd : Side) (keys : Bytes) (ph : Bool) (secure : Nat) (at_ : Stamp) (off : Bool) : RHop :=
  { h with
    keyed := true, broken := false, phase := ph, sendKey := if sd = .east then sliceZ keys 0 32 else sliceZ keys 32 32
    recvKey := if sd = .east then sliceZ keys 32 32 else sliceZ keys 0 32, newKeys := [], digest := [], confirming := false, keyedAt := secure, txSeq := 0
    rxSeq := 0, oldPhase := if again then some h.rxSeq else none, lastRx := at_, xPriv := [], kemDk := [], hello := [], echoes := 0, best := 0, offpkg := off }

/-- A hop newly keyed, before its echoes. -/
def rekeyed (s : State) (sd : Side) (keys : Bytes) (ph : Bool) : State :=
  s.modHop sd (fun h => h.newlyKeyed (s.hop sd).keyed sd keys ph s.time.secure s.mono (offpkgBit s sd))

theorem echoes_still (sd : Side) (l : List Nat) (s : State) :
    (l.foldl (fun s _ => hopSend s sd s.relay.member 0xFF 0 .echo) s).relay.still = s.relay.still := by
  induction l generalizing s with
  | nil => rfl
  | cons a l ih => exact (ih _).trans (hopSend_still ..)

theorem sendProbe_hop (s : State) (sd sd' : Side) : ((sendProbe s sd).hop sd').still = (s.hop sd').still ∧ (sendProbe s sd).relay.formed = s.relay.formed := by
  have hu := hopSend_still s sd s.relay.member 0xFF 0 (.probe false s.relay.formed s.relay.leaderIs)
  unfold sendProbe
  extract_lets u
  split
  · exact ⟨still_hop hu sd', still_formed hu⟩
  · have hv : u.relay.formed = s.relay.formed := still_formed hu
    refine ⟨?_, hv⟩
    cases sd' with
    | east => exact still_hop hu .east
    | west => exact still_hop hu .west

theorem keyHop_hop (s : State) (sd : Side) (keys : Bytes) (ph : Bool) : ((keyHop s sd keys ph).hop sd).still =
    ((s.hop sd).newlyKeyed (s.hop sd).keyed sd keys ph s.time.secure s.mono (offpkgBit s sd)).still ∧ (keyHop s sd keys ph).relay.formed = s.relay.formed := by
  have hk : keyHop s sd keys ph = if (s.hop sd).keyed then (List.range 16).foldl (fun s _ => hopSend s sd s.relay.member 0xFF 0 .echo) (rekeyed s sd keys ph)
      else sendProbe ((List.range 16).foldl (fun s _ => hopSend s sd s.relay.member 0xFF 0 .echo) (rekeyed s sd keys ph)) sd := rfl
  have hr : (rekeyed s sd keys ph).hop sd = (s.hop sd).newlyKeyed (s.hop sd).keyed sd keys ph s.time.secure s.mono (offpkgBit s sd) := State.hop_modHop s sd _
  have hf : (rekeyed s sd keys ph).relay.formed = s.relay.formed := by
    cases sd with
    | east => rfl
    | west => rfl
  have he := echoes_still sd (List.range 16) (rekeyed s sd keys ph)
  have hh := (still_hop he sd).trans (congrArg RHop.still hr)
  have hm := (still_formed he).trans hf
  rw [hk]
  split
  · exact ⟨hh, hm⟩
  · obtain ⟨h1, h2⟩ := sendProbe_hop ((List.range 16).foldl (fun s _ => hopSend s sd s.relay.member 0xFF 0 .echo) (rekeyed s sd keys ph)) sd sd
    exact ⟨h1.trans hh, h2.trans hm⟩

theorem keyedHop_untold {s : State} {sd : Side} (keys : Bytes) (ph : Bool) (h : s.relay.formed = false ∨ (s.hop sd).keyed = true) :
    keyedHop s sd keys ph = keyHop s sd keys ph := by
  unfold keyedHop
  extract_lets again u
  split
  · rfl
  · next hn =>
    obtain hf | hk := h
    · have hu : u.relay.formed = false := (keyHop_hop s sd keys ph).2.trans hf
      rw [stateHops, hu]
      rfl
    · exact absurd hk hn

-- Breaking (R87, R476)

/-- The ring without the work that waited for a hop. -/
def dropWants (s : State) (sd : Side) : State :=
  s.modRelay (fun r => { r with wants := r.wants.filter (fun w => match w with
    | .hello _ => sd != .east
    | .answer _ _ _ => sd != .west
    | _ => true) })

/-- A hop that is broken: its keys are gone, the ring work that waited for it goes, and a break of a keyed hop is counted. -/
def broken (s : State) (sd : Side) : State :=
  let u := dropWants ((unkeyHop s sd).modHop sd (fun h => { h with broken := true })) sd
  { u with relay := { u.relay with cntBreak := if (s.hop sd).keyed then (s.relay.cntBreak + 1) % 2 ^ 32 else s.relay.cntBreak } }

theorem broken_hop (s : State) (sd : Side) : (broken s sd).hop sd = { (s.hop sd).unkeyed with broken := true } := by
  cases sd with
  | east => rfl
  | west => rfl

/-- The parts of the ring that the breaking of a hop does not touch. -/
theorem broken_ring (s : State) (sd : Side) : (broken s sd).relay.formed = s.relay.formed ∧ (broken s sd).relay.map = s.relay.map ∧
    (broken s sd).relay.member = s.relay.member := by
  cases sd with
  | east => exact ⟨rfl, rfl, rfl⟩
  | west => exact ⟨rfl, rfl, rfl⟩

theorem broken_uncounted {s : State} {sd : Side} (hk : (s.hop sd).keyed = false) :
    dropWants ((unkeyHop s sd).modHop sd (fun h => { h with broken := true })) sd = broken s sd := by
  unfold broken
  rw [hk]
  cases sd with
  | east => rfl
  | west => rfl

theorem broken_counted {s : State} {sd : Side} (hk : (s.hop sd).keyed = true) :
    (dropWants ((unkeyHop s sd).modHop sd (fun h => { h with broken := true })) sd).modRelay (fun r => { r with cntBreak := wrapInc 32 r.cntBreak }) =
      broken s sd := by
  unfold broken wrapInc
  rw [hk]
  cases sd with
  | east => rfl
  | west => rfl

theorem breakHop_eq (s : State) (sd : Side) : breakHop s sd = if (s.hop sd).keyed = false then broken s sd else if s.relay.formed = false then broken s sd
    else onBreak (hopSend (broken s sd) (other sd) s.relay.member 0xFF 0 (.break_ (if sd = .east then ownPos s else (ownPos s + s.relay.map.length - 1) % s.relay.map.length)))
      (if sd = .east then ownPos s else (ownPos s + s.relay.map.length - 1) % s.relay.map.length) := by
  obtain ⟨hf, hm, hn⟩ := broken_ring s sd
  have ho : ownPos (broken s sd) = ownPos s := by rw [ownPos, ownPos, hm, hn]
  rw [← hf, ← hm, ← hn, ← ho]
  unfold breakHop
  extract_lets was u v w n p
  cases hk : (s.hop sd).keyed with
  | false =>
    have hw : was = false := hk
    have hv : v = broken s sd := broken_uncounted hk
    rw [hw, hv]
    simp only [Bool.not_false, if_true]
  | true =>
    have hw : was = true := hk
    have hv : w = broken s sd := broken_counted hk
    have hp : p = if sd = .east then ownPos w else (ownPos w + w.relay.map.length - 1) % w.relay.map.length := rfl
    rw [hw, hp, hv]
    cases (broken s sd).relay.formed with
    | false => simp only [Bool.not_false, Bool.not_true, Bool.false_eq_true, if_true, if_false, Bool.true_eq_false]
    | true => simp only [Bool.not_true, Bool.false_eq_true, if_false, Bool.true_eq_false]

theorem breakHop_untold {s : State} {sd : Side} (h : (s.hop sd).keyed = false ∨ s.relay.formed = false) : breakHop s sd = broken s sd := by
  rw [breakHop_eq]
  obtain h | h := h
  · rw [if_pos h]
  · rw [h, if_pos rfl, ite_self]

theorem exec_hopBreak {s : State} {sd : Side} (b : Bool) (hup : s.up = true) (hl : (s.hop sd).link = true) :
    exec (.hopBreak ⟨sd, b⟩) s = .next (carryAll (if b then linkFall s sd else breakHop s sd)) := by
  show ok (carryAll (whenDo (s.up && (s.hop sd).link) s (fun s => if b then linkFall s sd else breakHop s sd))) = _
  rw [hup, hl]
  rfl

theorem exec_hopSilence {s : State} {sd : Side} (hup : s.up = true) (hk : (s.hop sd).keyed = true)
    (ht : (s.hop sd).lastRx + 10000 * nsUnit < s.time.mono) : exec (.hopSilence sd) s = .next (carryAll (breakHop s sd)) := by
  show ok (carryAll (whenDo (s.up && (s.hop sd).keyed && s.past ((s.hop sd).lastRx + 10000 * nsUnit)) s (fun t => breakHop t sd))) = _
  rw [hup, hk, State.past_true ht]
  rfl

-- Accepting a message (R475, R476)

theorem takeFlits_hop (s : State) (sd : Side) (n : Nat) : (takeFlits s sd n).hop sd = { s.hop sd with rxPulses := (s.hop sd).rxPulses + n } :=
  State.hop_modHop s sd _

theorem accept_eq {s : State} {h : Hop} (hup : s.up = true) (hs : relayStalled s = false) (hl : (s.hop h.side).link = true) (u : State)
    (hu : u = takeFlits s h.side (h.flits % 256)) : accept s h =
      if (s.hop h.side).keyed = false then (u, false)
      else if h.flits % 256 = 0 ∨ !h.tagOk ∨ (if h.phase = (s.hop h.side).phase then some (s.hop h.side).rxSeq else (s.hop h.side).oldPhase) ≠ some h.seq then
        (breakHop (if h.tagOk then u else { u with relay := { u.relay with cntAuth := satInc 32 s.relay.cntAuth } }) h.side, false)
      else (u.modHop h.side (fun c => if h.phase = c.phase then { c with rxSeq := c.rxSeq + 1, lastRx := s.time.mono, oldPhase := none }
        else { c with oldPhase := some (h.seq + 1), lastRx := s.time.mono }), true) := by
  have hc : (u.hop h.side) = { s.hop h.side with rxPulses := (s.hop h.side).rxPulses + h.flits % 256 } := by rw [hu, takeFlits_hop]
  have hup' : u.up = true := by rw [hu, takeFlits, State.up, (State.modHop_keeps ..).start rfl]; exact hup
  have hs' : relayStalled u = false := by rw [hu, takeFlits, relayStalled, (State.modHop_keeps ..).mem rfl]; exact hs
  have hm : u.mono = s.time.mono := by rw [hu, takeFlits, State.mono, (State.modHop_keeps ..).time rfl]
  have ha : u.relay.cntAuth = s.relay.cntAuth := by
    rw [hu, takeFlits]
    cases h.side with
    | east => rfl
    | west => rfl
  unfold accept
  rw [arrive_up hup hs hl, ← hu]
  extract_lets v c e w
  have hv : v = u := rfl
  have hk : c.keyed = (s.hop h.side).keyed := by show (u.hop h.side).keyed = _; rw [hc]
  have hlk : c.link = true := by show (u.hop h.side).link = true; rw [hc]; exact hl
  have hph : c.phase = (s.hop h.side).phase := by show (u.hop h.side).phase = _; rw [hc]
  have hrx : c.rxSeq = (s.hop h.side).rxSeq := by show (u.hop h.side).rxSeq = _; rw [hc]
  have hold : c.oldPhase = (s.hop h.side).oldPhase := by show (u.hop h.side).oldPhase = _; rw [hc]
  have he : e = if h.phase = (s.hop h.side).phase then some (s.hop h.side).rxSeq else (s.hop h.side).oldPhase := by
    show (if h.phase = c.phase then some c.rxSeq else c.oldPhase) = _
    rw [hph, hrx, hold]
  rw [hv, hk, hlk, hup', hs', he]
  cases (s.hop h.side).keyed with
  | false => rfl
  | true =>
    simp only [Bool.not_true, Bool.or_self, Bool.false_eq_true, if_false, Bool.true_eq_false]
    rw [hm, ← ha]
    generalize (if h.phase = (s.hop h.side).phase then some (s.hop h.side).rxSeq else (s.hop h.side).oldPhase) = x
    have hw : w = if h.tagOk then u else { u with relay := { u.relay with cntAuth := satInc 32 u.relay.cntAuth } } := rfl
    rw [hw]

/-- What a message of this phase must be numbered. -/
def RHop.awaits (c : RHop) (phase : Bool) : Option Nat := if phase = c.phase then some c.rxSeq else c.oldPhase

theorem accept_bad {s : State} {h : Hop} (hup : s.up = true) (hs : relayStalled s = false) (hl : (s.hop h.side).link = true) (hk : (s.hop h.side).keyed = true)
    (u : State) (hu : u = takeFlits s h.side (h.flits % 256)) (hx : h.flits % 256 = 0 ∨ h.tagOk = false ∨ (s.hop h.side).awaits h.phase ≠ some h.seq) :
    accept s h = (breakHop (if h.tagOk then u else { u with relay := { u.relay with cntAuth := satInc 32 s.relay.cntAuth } }) h.side, false) := by
  rw [accept_eq hup hs hl u hu, if_neg (by rw [hk]; decide), if_pos]
  rw [Bool.not_eq_true']
  exact hx

theorem accept_good {s : State} {h : Hop} (hup : s.up = true) (hs : relayStalled s = false) (hl : (s.hop h.side).link = true) (hk : (s.hop h.side).keyed = true)
    (u : State) (hu : u = takeFlits s h.side (h.flits % 256)) (hf : h.flits % 256 ≠ 0) (ht : h.tagOk = true) (hx : (s.hop h.side).awaits h.phase = some h.seq) :
    accept s h = (u.modHop h.side (fun c => if h.phase = c.phase then { c with rxSeq := c.rxSeq + 1, lastRx := s.time.mono, oldPhase := none }
        else { c with oldPhase := some (h.seq + 1), lastRx := s.time.mono }), true) := by
  rw [accept_eq hup hs hl u hu, if_neg (by rw [hk]; decide), if_neg]
  rw [ht, ← RHop.awaits]
  simp [hf, hx]

-- Echoes (R480)

theorem receiveHere_taken {s u : State} {h : Hop} (ha : accept s h = (u, true)) (f : State → State) : receiveHere s h f = f u := by
  delta receiveHere
  rw [ha]

/-- An echo that has come back. -/
def RHop.echoed (ns : Nat) (h : RHop) : RHop :=
  { h with
    echoes := h.echoes + 1, best := if h.echoes = 0 then ns else min h.best ns
    latency := if h.echoes + 1 = 16 then (if h.echoes = 0 then ns else min h.best ns) / 2 else h.latency }

theorem echoHere_back (u : State) (sd : Side) (ns : Nat) : echoHere u sd true ns = u.modHop sd (RHop.echoed ns) := rfl

theorem exec_echo {s u : State} {sd : Side} {e : EchoRx} (ns : Nat) (h : accept s (echoHop e sd) = (u, true)) :
    exec (.echo sd e ns) s = .next (carryAll (echoHere u sd e.returned ns)) := by
  show ok (carryAll (receiveHere s (echoHop e sd) (fun t => echoHere t sd e.returned ns))) = _
  rw [receiveHere_taken h, ok]

-- O46

/-- Settles O46: a hop that sends changes only its credits, its queue and its count, so that what keys or breaks it stands; what it accepts is judged by its phase,
its number and its tag. -/
theorem hopsAreKeyedMeasuredAndBroken : Obligations.HopsAreKeyedMeasuredAndBroken := by
  unfold Obligations.HopsAreKeyedMeasuredAndBroken
  intro s sd b
  refine ⟨fun u hup hp hu => ?_, fun hup hs hl => ⟨fun hq => ?_, fun m q n hq hc hn => ⟨fun h1 => ?_, fun u h1 hu hq' => ?_⟩⟩,
    fun again => ⟨helloDue_iff s again, sendHello_not, sendHello_noBwk, fun r hd hb hr => ?_⟩, exec_hopRekeyDue,
    fun hon hl hk ht h => exec_brokenHopRekey hon hl hk ht h, exec_brokenHopRekey_not,
    fun x ek ph u hup hs hl hk hu => ⟨fun hon => ?_, fun r pub m dg keys hon hb hr hpub hm hdg hkeys => ?_⟩,
    fun x ct w u e dg keys hu he hb hon hs hl hh hdg hkeys => ⟨fun hw => ?_, fun hw => ?_⟩,
    fun u hon hs hl hc hu => ⟨fun hw => ?_, fun hw => ?_⟩, fun keys ph h hh => ?_, keyedHop_untold,
    fun e ns u ha => ⟨fun hr => ?_, fun hr h15 => ?_, fun hr h15 => ?_⟩, fun hup hl => ⟨exec_hopBreak false hup hl, exec_hopBreak true hup hl⟩,
    fun u v hu hv => ?_, fun hup hk ht => exec_hopSilence hup hk ht,
    fun h c u hup hs hc hl hu => ⟨fun hk => ?_, fun hk hf ht => ⟨fun hp hq => ?_, fun hp hq => ?_⟩, fun hk ht hx => ?_, fun hk ht => ?_⟩,
    fun m dst x hm hl hk hn hs hq ht hc hx => ?_⟩
  · rw [hu]
    exact exec_linkUp hup hp
  · rw [exec_creditReturn hup hs hl, hopDrain_empty (by rw [State.hop_modHop]; exact hq)]
    rfl
  · have ht : (s.hop sd).toSend m = n := hn.symm
    have hput := hopPut_credit (q := q) hc (by rw [ht]; omega) _ rfl
    rw [ht, if_neg (by omega)] at hput
    have he : s.modHop sd (fun h => { h with txLeft := h.toSend m - 1, queue := if h.toSend m - 1 = 0 then q else h.queue }) =
        s.modHop sd (fun h => { h with txLeft := n - 1 }) := by
      refine State.modHop_congr ?_
      rw [ht, if_neg (by omega)]
    rw [exec_creditReturn hup hs hl, hopDrain_credit hs hq hc, hput, he, hopDrainF_spent]
    rw [State.hop_modHop]
    exact hc
  · have ht : (s.hop sd).toSend m = 1 := hn.symm.trans h1
    have hput := hopPut_credit (q := q) hc (by rw [ht]; omega) _ rfl
    rw [ht, if_pos rfl] at hput
    have he : s.modHop sd (fun h => { h with txLeft := h.toSend m - 1, queue := if h.toSend m - 1 = 0 then q else h.queue }) = u := by
      rw [hu]
      refine State.modHop_congr ?_
      rw [ht, if_pos rfl]
    rw [exec_creditReturn hup hs hl, hopDrain_credit hs hq hc, hput, he, hq']
    rfl
  · have hx := sendHello_still hd hb hr
    generalize kemKeygen 0x12 (sliceZ r.2 32 32) (sliceZ r.2 64 32) = k at hx ⊢
    exact ⟨_, k.1, k.2, _, rfl, rfl, rfl, still_asking hx⟩
  · rw [exec_hello hup hs hl, ← hu, takeHello_keep _ _ hk]
    · rw [hu]; exact hon
    · rw [hu]; exact hs
    · rw [hu]; exact hl
  · rw [exec_hello hup hs hl, ← hu, takeHello_answer _ _ hk _ _ hr pub m dg keys hpub hm hdg hkeys]
    · rw [hu]; exact hs
    · rw [hu]; exact hl
    · rw [hu]; exact hon
    · rw [hu]; exact hb
  · rw [exec_reply (relayOn_up hon) hs (by rw [he, hu] at hl; exact hl), ← hu, takeReply_judged _ _ (he ▸ hl) (he ▸ hh) dg keys (he ▸ hdg) (he ▸ hkeys),
      if_neg (not_not_intro hw), he]
    · rw [hu]; exact hb
    · rw [hu]; exact hon
  · rw [exec_reply (relayOn_up hon) hs (by rw [he, hu] at hl; exact hl), ← hu, takeReply_judged _ _ (he ▸ hl) (he ▸ hh) dg keys (he ▸ hdg) (he ▸ hkeys),
      if_pos hw, he, authFails_east, hu]
    · rfl
    · rw [hu]; exact hb
    · rw [hu]; exact hon
  · rw [exec_confirm (relayOn_up hon) hs hl, ← hu, takeConfirm_judged (by rw [hu]; exact hon) (by rw [hu]; exact hc), hu]
    rw [if_neg]
    · rfl
    · exact not_not_intro hw
  · rw [exec_confirm (relayOn_up hon) hs hl, ← hu, takeConfirm_judged (by rw [hu]; exact hon) (by rw [hu]; exact hc), hu, if_pos]
    · exact ⟨_, rfl, rfl, rfl, rfl, rfl, rfl⟩
    · exact hw
  · obtain ⟨hst, -⟩ := keyHop_hop s sd keys ph
    rw [← hh] at hst
    refine ⟨congrArg (fun h : RHop => h.keyed) hst, congrArg (fun h : RHop => h.broken) hst, congrArg (fun h : RHop => h.phase) hst,
      congrArg (fun h : RHop => h.keyedAt) hst, congrArg (fun h : RHop => h.rxSeq) hst, congrArg (fun h : RHop => h.offpkg) hst,
      congrArg (fun h : RHop => h.oldPhase) hst, fun hsd => ⟨(congrArg (fun h : RHop => h.sendKey) hst).trans ?_, (congrArg (fun h : RHop => h.recvKey) hst).trans ?_⟩,
      fun hsd => ⟨(congrArg (fun h : RHop => h.sendKey) hst).trans ?_, (congrArg (fun h : RHop => h.recvKey) hst).trans ?_⟩⟩
    · exact if_pos hsd
    · exact if_pos hsd
    · exact if_neg (by rw [hsd]; decide)
    · exact if_neg (by rw [hsd]; decide)
  · rw [exec_echo ns ha, hr]
    rfl
  · rw [exec_echo ns ha, hr, echoHere_back]
    refine congrArg (fun v => Host.Outcome.next (carryAll v)) (State.modHop_congr ?_)
    rw [RHop.echoed, if_neg (show ¬ (u.hop sd).echoes + 1 = 16 by omega)]
  · rw [exec_echo ns ha, hr, echoHere_back]
    refine congrArg (fun v => Host.Outcome.next (carryAll v)) (State.modHop_congr ?_)
    rw [RHop.echoed, h15]
    rfl
  · have hvb : v = broken s sd := by rw [hv, hu]; rfl
    have hop := broken_hop s sd
    rw [hvb, hop]
    refine ⟨rfl, rfl, rfl, rfl, breakHop_untold, fun p n hk hf hn hp => ?_⟩
    rw [breakHop_eq, hk, hf, hp, hn]
    rfl
  · rw [accept_eq hup hs (hc ▸ hl) u hu, if_pos (hc ▸ hk)]
  · rw [accept_good hup hs (hc ▸ hl) (hc ▸ hk) u hu hf ht (by rw [← hc, RHop.awaits, if_pos hp, hq])]
    have hph : (u.hop h.side).phase = c.phase := by rw [hu, takeFlits_hop, hc]
    exact congrArg (fun v => (v, true)) (State.modHop_congr (if_pos (by rw [hph]; exact hp)))
  · rw [accept_good hup hs (hc ▸ hl) (hc ▸ hk) u hu hf ht (by rw [← hc, RHop.awaits, if_neg hp, hq])]
    have hph : (u.hop h.side).phase = c.phase := by rw [hu, takeFlits_hop, hc]
    exact congrArg (fun v => (v, true)) (State.modHop_congr (if_neg (by rw [hph]; exact hp)))
  · rw [accept_bad hup hs (hc ▸ hl) (hc ▸ hk) u hu, ht, if_pos rfl]
    rw [← hc, RHop.awaits]
    obtain h0 | ⟨hp, hq⟩ | ⟨hp, hq⟩ := hx
    · exact Or.inl h0
    · rw [if_pos hp]
      exact Or.inr (Or.inr (fun e => hq (Option.some.inj e).symm))
    · rw [if_neg hp]
      exact Or.inr (Or.inr hq)
  · rw [accept_bad hup hs (hc ▸ hl) (hc ▸ hk) u hu (Or.inr (Or.inl ht)), ht]
    rfl
  · obtain ⟨hsent, hhop⟩ := hopSend_leaves s.relay.member dst 0 hm hl hk hn hs hq ht hc
    refine ⟨_, rfl, ?_, ?_, ?_, ?_, ?_⟩
    · rw [hsent, hx, RHop.message, hm]
      rfl
    · rw [hhop]
    · rw [hhop]
    · rw [hhop]
    · rw [relayWire_length, hx]

end Sys2Proof.Machine
end

section
/-! PROOF. The forming of the relay ring (chapter 16): what its messages do once they are accepted (O47). -/

namespace Sys2Proof.Machine

-- Receiving (R477)

theorem receive_all {s u : State} {h : Hop} {msg : RMsg} {f : State → State} (ha : accept s h = (u, true)) (hs : h.src ≠ u.relay.member) (hd : h.dst = 0xFF) :
    receive s h msg f = f (forward u h msg) := by
  delta receive
  rw [ha]
  simp only [hs, hd, if_false, if_true, true_or, BEq.rfl, Bool.true_or]

theorem receive_mine {s u : State} {h : Hop} {msg : RMsg} {f : State → State} (ha : accept s h = (u, true)) (hs : h.src ≠ u.relay.member)
    (hd : h.dst = u.relay.member) (hn : h.dst ≠ 0xFF) : receive s h msg f = f u := by
  have hn' : u.relay.member ≠ 0xFF := hd ▸ hn
  delta receive
  rw [ha]
  simp [hs, hd, hn']

theorem receive_other {s u : State} {h : Hop} {msg : RMsg} {f : State → State} (ha : accept s h = (u, true)) (hs : h.src ≠ u.relay.member)
    (hd : h.dst ≠ u.relay.member) (hn : h.dst ≠ 0xFF) : receive s h msg f = forward u h msg := by
  delta receive
  rw [ha]
  simp [hs, hd, hn]

/-- A message for this member, or for all, is acted on; one for all is passed on first. -/
theorem receive_taken {s u v : State} {h : Hop} {msg : RMsg} {f : State → State} (ha : accept s h = (u, true)) (hs : h.src ≠ u.relay.member)
    (hd : h.dst = 0xFF ∨ h.dst = u.relay.member) (hv : v = if h.dst = 0xFF then forward u h msg else u) : receive s h msg f = f v := by
  by_cases h0 : h.dst = 0xFF
  · rw [receive_all ha hs h0, hv, if_pos h0]
  · rw [receive_mine ha hs (hd.resolve_left h0) h0, hv, if_neg h0]

theorem forward_near {u : State} {h : Hop} (msg : RMsg) (hn : h.hops < 254) : forward u h msg = hopSend u (other h.side) h.src h.dst (h.hops + 1) msg := by
  rw [forward, if_neg (by omega)]

theorem forward_still (u : State) (h : Hop) (msg : RMsg) : (forward u h msg).relay.still = u.relay.still := by
  rw [forward]
  split
  · rfl
  · exact hopSend_still ..

-- PROBE (R482)

theorem exec_probe {s u v : State} {h : Hop} {a f : Bool} {l : Nat} (ha : accept s h = (u, true)) (hs : h.src ≠ u.relay.member)
    (hd : h.dst = 0xFF ∨ h.dst = u.relay.member) (hv : v = if h.dst = 0xFF then forward u h (.probe a f l) else u) :
    exec (.probe h a f l) s = .next (carryAll (probeHere v h a f l)) := by
  show ok (carryAll (receive s h (.probe a f l) (fun t => probeHere t h a f l))) = _
  rw [receive_taken ha hs hd hv, ok]

theorem probeHere_answer {v : State} {h : Hop} {l : Nat} (hf : v.relay.formed = false) (w : State)
    (hw : w = { v.modHop h.side (fun c => { c with probed := true }) with relay :=
      { (v.modHop h.side (fun c => { c with probed := true })).relay with leaderIs := l } }) :
    probeHere v h true true l = if v.relay.east.probed || v.relay.west.probed then w
      else hopSend { w with relay := { w.relay with rejoin := false } } h.side 0xFF l 0 (.join false false w.relay.member []) := by
  rw [hw, probeHere, hf]
  rfl

-- The election (R482, R494)

theorem drawIdentity_some {s : State} {r : State × Bytes} (h : tryDraw s 0 6 = some r) :
    drawIdentity s = some (r.1, s.relay.ctrlAct / 2 ^ 16 * 2 ^ 48 + beNat r.2) := by
  rw [drawIdentity, h]
  rfl

theorem ownIdentity_drawn {s : State} {r : State × Bytes} (hi : s.relay.identity = none) (h : tryDraw s 0 6 = some r) (n : Nat)
    (hn : n = s.relay.ctrlAct / 2 ^ 16 * 2 ^ 48 + beNat r.2) :
    ownIdentity s = some ({ r.1 with relay := { r.1.relay with identity := some n } }, n) := by
  rw [ownIdentity, hi, drawIdentity_some h, hn]
  rfl

theorem ownIdentity_held {s : State} {n : Nat} (hi : s.relay.identity = some n) : ownIdentity s = some (s, n) := by
  rw [ownIdentity, hi]

theorem exec_electionStart {s : State} {p : Nat} {y : State × Nat} (hon : relayOn s = true) (hf : s.relay.formed = false) (he : s.relay.east.keyed = true)
    (hw : s.relay.west.keyed = true) (hpe : s.relay.east.probed = false) (hpw : s.relay.west.probed = false) (hes : s.relay.electSent = false)
    (hp : s.relay.probeAt = some p) (ht : p + 1000000 * nsUnit < s.time.mono) (ho : ownIdentity s = some y) :
    exec .electionStart s = .next (fin (sendElect y.1 y.2)) := by
  show ok (fin (electionStart s)) = _
  unfold electionStart
  extract_lets r late
  have hl : late = true := by
    have hm : s.past (p + 1000000 * nsUnit) = true := State.past_true ht
    simp only [late, r, hp, hm]
  simp only [hl, r, hon, hf, he, hw, hpe, hpw, hes, Bool.not_false, Bool.and_self, if_true, ho, ok]

theorem exec_elect {s u : State} {h : Hop} (c : Candidate) (ha : accept s h = (u, true)) : exec (.elect h c) s = .next (carryAll (electHere u h c)) := by
  show ok (carryAll (receiveHere s h (fun t => electHere t h c))) = _
  rw [receiveHere_taken ha, ok]

/-- What ELECT does once this member's identity is known. -/
theorem electHere_known {u x : State} {h : Hop} {c : Candidate} {own : Nat} (hf : u.relay.formed = false) (ho : ownIdentity u = some (x, own)) (v : State)
    (hv : v = { x with relay := { x.relay with rejoin := x.relay.rejoin || x.relay.east.probed || x.relay.west.probed } }) :
    electHere u h c = if c.value < own then forward v h (.elect c.value) else if x.relay.electSent = false then sendElect v own
      else if c.value = own ∧ c.own = true then becomeLeader v else v := by
  rw [electHere, hf, ho, hv]
  cases hx : x.relay.electSent with
  | false => simp [State.modRelay, hx]
  | true => simp [State.modRelay, hx]

-- NUMBER, MAP and JOIN (R482, R483)

theorem exec_number {s u : State} {h : Hop} (n : Nat) (ha : accept s h = (u, true)) : exec (.number h n) s = .next (carryAll (numberHere u h n)) := by
  show ok (carryAll (receiveHere s h (fun t => numberHere t h n))) = _
  rw [receiveHere_taken ha, ok]

theorem exec_join {s t : State} {h : Hop} {a r k : Bool} {n : Nat} {rk : Bytes} (ht : joinIn s h a r n rk k = t) :
    exec (.join h a r n rk k) s = .next (carryAll t) := by
  show ok (carryAll (joinIn s h a r n rk k)) = _
  rw [ht, ok]

/-- The answer to a JOIN that this member waits for. -/
theorem joinIn_answer {s u : State} {h : Hop} {r : Bool} {n : Nat} {rk : Bytes} (ha : accept s h = (u, true))
    (hs : ¬(u.relay.member ≠ 0xFF ∧ h.src = u.relay.member)) (hm : joinMine u h n = true) : joinIn s h true r n rk true =
      if r then { u with relay := { u.relay with full := true } } else { u with relay := { u.relay with member := n, rk := rk, sealNo := 0, leaderIs := h.src } } := by
  delta joinIn
  rw [ha]
  simp only [hs, hm, if_false, if_true, Bool.not_true, Bool.false_eq_true]
  rfl

/-- A JOIN is removed by a member of no ring. -/
theorem joinIn_unformed {s u : State} {h : Hop} {r k : Bool} {n : Nat} {rk : Bytes} (ha : accept s h = (u, true))
    (hs : ¬(u.relay.member ≠ 0xFF ∧ h.src = u.relay.member)) (hf : u.relay.formed = false) : joinIn s h false r n rk k = u := by
  delta joinIn
  rw [ha]
  simp only [hs, hf, if_false, if_true, Bool.not_false]

/-- A JOIN for another member is passed on. -/
theorem joinIn_other {s u : State} {h : Hop} {r k : Bool} {n : Nat} {rk : Bytes} (ha : accept s h = (u, true))
    (hs : ¬(u.relay.member ≠ 0xFF ∧ h.src = u.relay.member)) (hf : u.relay.formed = true) (hd : h.dst ≠ u.relay.member) :
    joinIn s h false r n rk k = forward u h (.join false r n rk) := by
  delta joinIn
  rw [ha]
  simp only [hs, hf, hd, if_false, if_true, Bool.not_false, Bool.not_true, Bool.false_eq_true, ne_eq, not_false_eq_true]

/-- The leader answers a JOIN. -/
theorem joinIn_leader {s u : State} {h : Hop} {r k : Bool} {n : Nat} {rk : Bytes} (ha : accept s h = (u, true))
    (hs : ¬(u.relay.member ≠ 0xFF ∧ h.src = u.relay.member)) (hf : u.relay.formed = true) (hd : h.dst = u.relay.member) (hl : u.relay.leader = true) :
    joinIn s h false r n rk k = answerJoin u h n := by
  delta joinIn
  rw [ha]
  simp only [hs, hf, hd, hl, if_false, if_true, Bool.not_false, Bool.not_true, Bool.false_eq_true, ne_eq, not_true_eq_false]

-- The MAP a member holds (R483)

/-- The MAP of the ring, and this member's place in it, as they were. -/
structure SameMap (s t : State) : Prop where
  formed : t.relay.formed = s.relay.formed
  map : t.relay.map = s.relay.map
  member : t.relay.member = s.relay.member

theorem SameMap.refl (s : State) : SameMap s s := ⟨rfl, rfl, rfl⟩

theorem SameMap.trans {s t u : State} (a : SameMap s t) (b : SameMap t u) : SameMap s u :=
  ⟨b.formed.trans a.formed, b.map.trans a.map, b.member.trans a.member⟩

theorem SameMap.of_relay {s t : State} (h : t.relay = s.relay) : SameMap s t := ⟨by rw [h], by rw [h], by rw [h]⟩

theorem SameMap.foldl {α : Type} {f : State → α → State} (h : ∀ s a, SameMap s (f s a)) (l : List α) (s : State) : SameMap s (l.foldl f s) := by
  induction l generalizing s with
  | nil => exact .refl s
  | cons a l ih => exact (h s a).trans (ih (f s a))

theorem SameMap.of_still {s t : State} (h : t.relay.still = s.relay.still) : SameMap s t :=
  ⟨show t.relay.still.formed = s.relay.still.formed by rw [h], show t.relay.still.map = s.relay.still.map by rw [h],
    show t.relay.still.member = s.relay.still.member by rw [h]⟩

theorem hopSend_sameMap (s : State) (sd : Side) (src dst hops : Nat) (m : RMsg) : SameMap s (hopSend s sd src dst hops m) := .of_still (hopSend_still ..)

theorem sendTo_sameMap (s : State) (dst : Nat) (m : RMsg) : SameMap s (sendTo s dst m) := by
  unfold sendTo
  split
  · exact hopSend_sameMap ..
  · exact .refl s

theorem modHop_sameMap (s : State) (sd : Side) (f : RHop → RHop) : SameMap s (s.modHop sd f) := by
  cases sd with
  | east => exact ⟨rfl, rfl, rfl⟩
  | west => exact ⟨rfl, rfl, rfl⟩

theorem vector_sameMap (s : State) (m : Nat) : SameMap s (vector s m) := .of_relay ((vector_keeps ..).relay rfl)

theorem loseAwayOf_sameMap (p : Nat → Bool) (s : State) (j : Job) : SameMap s (loseAwayOf p s j) := by
  unfold loseAwayOf
  split
  · split
    · exact (SameMap.of_relay ((stop_keeps ..).relay rfl)).trans (sendTo_sameMap ..)
    · exact .refl s
  · exact .refl s

theorem mailEnd_sameMap (s : State) (r : Nat) : SameMap s (mailEnd s r) := by
  unfold mailEnd
  exact SameMap.trans (t := { s with mem := _, relay := { s.relay with mailBusy := false, mailAsked := false, mailResult := r, mailGot := [] } }) ⟨rfl, rfl, rfl⟩
    (vector_sameMap _ 7)

theorem mailBreak_sameMap (s : State) : SameMap s (mailBreak s) := by
  unfold mailBreak
  split
  · exact mailEnd_sameMap s 3
  · exact .refl s

theorem setRole_sameMap (s : State) : SameMap s (setRole s) := by
  unfold setRole
  split
  · exact .refl s
  · split
    · dsimp only
      split
      · refine SameMap.trans ?_ (vector_sameMap _ 6)
        refine SameMap.trans ?_ (.of_relay ((alarmC_keeps ..).relay rfl))
        exact ⟨rfl, rfl, rfl⟩
      · exact ⟨rfl, rfl, rfl⟩
    · exact ⟨rfl, rfl, rfl⟩

/-- A new MAP is held, and vector 7 is raised. -/
theorem newMap_spec (s : State) (es : List MapEntry) : (newMap s es).relay.formed = es.any (fun e => e.member == s.relay.member) ∧
    (newMap s es).relay.map = es ∧ (newMap s es).relay.member = s.relay.member ∧ ⟨0, 7⟩ ∈ (newMap s es).prompts := by
  unfold newMap
  extract_lets m a b c d
  have hb : SameMap a b := (SameMap.foldl (loseAwayOf_sameMap _) _ a).trans (.of_relay ((dropOrigin_keeps ..).relay rfl))
  have hc : SameMap b c := by
    show SameMap b (if reached b b.relay.mailDst then b else mailBreak b)
    split
    · exact .refl b
    · exact mailBreak_sameMap b
  have hd : SameMap c d := by
    show SameMap c (if !c.relay.inboxFull && !reached c c.relay.sender then c.modRelay (fun r => { r with part := 0, got := 0, partPath := [] }) else c)
    split
    · exact ⟨rfl, rfl, rfl⟩
    · exact .refl c
  obtain ⟨hf, hm, hn⟩ := (((hb.trans hc).trans hd).trans (setRole_sameMap d)).trans (vector_sameMap _ 7)
  exact ⟨hf, hm, hn, mem_vector _ 7⟩

theorem tellLeader_sameMap (s : State) (sd : Side) : SameMap s (tellLeader s sd) := by
  unfold tellLeader
  split
  · exact .refl s
  · dsimp only
    split
    · exact hopSend_sameMap ..
    · exact hopSend_sameMap ..

theorem sendProbe_sameMap (s : State) (sd : Side) : SameMap s (sendProbe s sd) := by
  have h := hopSend_sameMap s sd s.relay.member 0xFF 0 (.probe false s.relay.formed s.relay.leaderIs)
  unfold sendProbe
  extract_lets u
  split
  · exact h
  · exact h.trans ⟨rfl, rfl, rfl⟩

theorem probeAgain_sameMap (s : State) : SameMap s (probeAgain s) := by
  unfold probeAgain
  split
  · exact .refl s
  · refine SameMap.trans ?_ (sendProbe_sameMap ..)
    refine SameMap.trans ?_ (sendProbe_sameMap ..)
    refine SameMap.trans ?_ (modHop_sameMap ..)
    refine SameMap.trans ?_ (modHop_sameMap ..)
    exact ⟨rfl, rfl, rfl⟩

theorem askKey_sameMap (s : State) : SameMap s (askKey s) := by
  unfold askKey
  split
  · exact sendTo_sameMap ..
  · exact .refl s

theorem markOwn_still {s t : State} (h : t.relay.still = s.relay.still) (es : List MapEntry) : markOwn t es = markOwn s es := by
  have hm : t.relay.member = s.relay.member := (SameMap.of_still h).member
  have he : t.relay.east.offpkg = s.relay.east.offpkg := show t.relay.still.east.offpkg = s.relay.still.east.offpkg by rw [h]
  have hk : t.relay.east.keyed = s.relay.east.keyed := show t.relay.still.east.keyed = s.relay.still.east.keyed by rw [h]
  have hw : t.relay.west.offpkg = s.relay.west.offpkg := show t.relay.still.west.offpkg = s.relay.still.west.offpkg by rw [h]
  have hx : t.relay.west.keyed = s.relay.west.keyed := show t.relay.still.west.keyed = s.relay.still.west.keyed by rw [h]
  unfold markOwn
  rw [hm, he, hk, hw, hx]

/-- MAP gives a member its ring, unless it leads one under a lower number. -/
theorem mapHere_spec {v : State} {h : Hop} (es : List MapEntry) (hd : h.dst = 0xFF) (hl : v.relay.leader = false ∨ h.src ≤ v.relay.member) :
    (mapHere v h es).relay.formed = (markOwn v es).any (fun e => e.member == v.relay.member) ∧ (mapHere v h es).relay.map = markOwn v es ∧
      (mapHere v h es).relay.member = v.relay.member ∧ ⟨0, 7⟩ ∈ (mapHere v h es).prompts := by
  have hn : (v.relay.leader && decide (v.relay.member < h.src)) = false := by
    obtain h0 | h0 := hl
    · rw [h0]; rfl
    · rw [decide_eq_false (Nat.not_lt.mpr h0), Bool.and_false]
  unfold mapHere
  rw [if_neg (not_not_intro hd), hn, if_neg Bool.false_ne_true]
  extract_lets a b
  obtain ⟨hf, hm, hmem, hp⟩ := newMap_spec v (markOwn v es)
  have hb : SameMap a b ∧ b.prompts = a.prompts := by
    show SameMap a (if a.relay.formed && misstated a es then tellLeader a h.side else a) ∧
      (if a.relay.formed && misstated a es then tellLeader a h.side else a).prompts = a.prompts
    split
    · exact ⟨tellLeader_sameMap .., (tellLeader_keeps ..).prompts rfl⟩
    · exact ⟨.refl a, rfl⟩
  obtain ⟨kf, km, kn⟩ := (hb.1.trans (probeAgain_sameMap b)).trans (askKey_sameMap _)
  refine ⟨kf.trans hf, km.trans hm, kn.trans hmem, ?_⟩
  rw [(askKey_keeps _).prompts rfl, (probeAgain_keeps _).prompts rfl, hb.2]
  exact hp

theorem exec_map {s u v : State} {h : Hop} {es : List MapEntry} (ha : accept s h = (u, true)) (hs : h.src ≠ u.relay.member)
    (hd : h.dst = 0xFF ∨ h.dst = u.relay.member) (hv : v = if h.dst = 0xFF then forward u h (.map es) else u) :
    exec (.map h es) s = .next (carryAll (mapHere v h es)) := by
  show ok (carryAll (receive s h (.map es) (fun t => mapHere t h es))) = _
  rw [receive_taken ha hs hd hv, ok]

/-- The leader answers a member of its ring with the number it has. -/
theorem answerJoin_back {u : State} {h : Hop} {own : Nat} (hb : u.relay.map.any (fun e => e.member == own) = true) (t : State)
    (ht : t = hopSend (pairSeal u u.relay.member own u.relay.rk).1 h.side u.relay.member own 0
      (.join true false own (pairSeal u u.relay.member own u.relay.rk).2)) :
    answerJoin u h own = if h.src ≠ 0xFF then t else sendMap t u.relay.map := by
  rw [ht, answerJoin]
  simp only [hb, if_true]

theorem answerJoin_full {u : State} {h : Hop} {own : Nat} (hb : u.relay.map.any (fun e => e.member == own) = false) (hf : freeMember u.relay.map = none) :
    answerJoin u h own = hopSend u h.side u.relay.member 0xFF 0 (.join true true 0xFF []) := by
  rw [answerJoin]
  simp only [hb, hf, Bool.false_eq_true, if_false]

-- O47

/-- Settles O47: an accepted message goes to its rule, which the lemmas above state one by one; what a new MAP sets going does not touch the MAP. -/
theorem ringsFormFromTheirMessages : Obligations.RingsFormFromTheirMessages := by
  unfold Obligations.RingsFormFromTheirMessages
  intro s u h ha
  refine ⟨fun l f v hs hd hv => ⟨fun hf => ?_, fun hf => ?_⟩, fun l v w hs hd hv hf hw => ⟨fun he hx => ?_, fun he => ?_⟩,
    fun x r p n hx hon hf he hw hpe hpw hi hes hp ht hr hn => ?_, fun c hf => ?_,
    fun c r m v hf hi hr hm hv => ⟨fun hlt hh => ?_, fun hle hes => ?_⟩,
    fun c own v hf hi hv => ⟨fun hlt hh => ?_, fun hle hes => ?_, fun ho hes => ?_, fun r hc hes hr => ?_⟩,
    fun n hf hl hn hh => ?_, fun n hf hl hn => ?_, fun es hs hd hl => ?_, fun es hs hd hn hl => ?_, fun m rk hf hp hm => ?_,
    fun own rk k hm => ⟨fun hf hd hl => ?_, fun hf hd hh => ?_, fun hf => ?_⟩, fun own r hb hr => ?_, fun own hb hf => answerJoin_full hb hf,
    fun st f a v hs hv hd => ?_, fun st f a hs h0 hd hh => ?_⟩
  · rw [exec_probe ha hs hd hv, probeHere, hf]
    rfl
  · rw [exec_probe ha hs hd hv, probeHere, hf]
    rfl
  · rw [exec_probe ha hs hd hv, probeHere_answer hf w hw, he, hx]
    rfl
  · rw [exec_probe ha hs hd hv, probeHere_answer hf w hw, if_pos]
    rw [Bool.or_eq_true]
    exact he
  · rw [hx] at hf he hw hpe hpw hi hes hp hn
    rw [exec_electionStart hon hf he hw hpe hpw hes hp ht (ownIdentity_drawn hi hr n hn)]
    rfl
  · rw [exec_elect c ha, electHere, hf]
    rfl
  · rw [exec_elect c ha, electHere_known hf (ownIdentity_drawn hi hr m hm) v (hv.trans rfl), if_pos hlt, forward_near _ hh]
  · rw [exec_elect c ha, electHere_known hf (ownIdentity_drawn hi hr m hm) v (hv.trans rfl), if_neg (Nat.not_lt.mpr hle), if_pos hes]
    rfl
  · rw [exec_elect c ha, electHere_known hf (ownIdentity_held hi) v hv, if_pos hlt, forward_near _ hh]
  · rw [exec_elect c ha, electHere_known hf (ownIdentity_held hi) v hv, if_neg (Nat.not_lt.mpr hle), if_pos hes]
    rfl
  · rw [exec_elect c ha, electHere_known hf (ownIdentity_held hi) v hv, if_neg, if_neg, if_neg]
    · rintro ⟨h1, h2⟩
      obtain h3 | ⟨-, h3⟩ := ho
      · omega
      · rw [h3] at h2
        exact Bool.false_ne_true h2
    · rw [hes]
      decide
    · omega
  · rw [exec_elect c ha, electHere_known hf (ownIdentity_held hi) v hv, hc, if_neg (Nat.lt_irrefl own), if_neg (by rw [hes]; decide), if_pos ⟨rfl, rfl⟩,
      becomeLeader, hr]
    rfl
  · rw [exec_number n ha, numberHere, hf, hl, if_neg Bool.false_ne_true, if_neg Bool.false_ne_true, if_neg (by omega), forward_near _ hh]
    rfl
  · rw [exec_number n ha, numberHere, hf, hl, if_neg Bool.false_ne_true, if_pos rfl, Nat.min_eq_left hn]
    rfl
  · have hst := forward_still u h (.map es)
    obtain ⟨h1, h2, h3⟩ := SameMap.of_still hst
    have hl' : (forward u h (.map es)).relay.leader = u.relay.leader := show (forward u h (.map es)).relay.still.leader = u.relay.still.leader by rw [hst]
    obtain ⟨k1, k2, k3, k4⟩ := mapHere_spec (v := forward u h (.map es)) es hd (by rw [hl', h3]; exact hl)
    refine ⟨_, exec_map ha hs (Or.inl hd) (if_pos hd).symm, ?_, ?_, ?_, k4⟩
    · rw [k1, markOwn_still hst, h3]
    · rw [k2, markOwn_still hst]
    · rw [k3, h3]
  · rw [exec_map ha hs (Or.inr hd) (if_neg hn).symm, mapHere, if_pos hn, hl, if_pos rfl]
  · have hs : ¬(u.relay.member ≠ 0xFF ∧ h.src = u.relay.member) := by
      rintro ⟨h1, h2⟩
      obtain ⟨h3, -⟩ | ⟨-, h3, -⟩ := hm
      · exact h1 h3
      · exact h3 h2
    have hj : joinMine u h m = true := by
      have hp' : (u.relay.east.probed || u.relay.west.probed) = true := by rw [Bool.or_eq_true]; exact hp
      rw [joinMine, hf, hp']
      obtain ⟨h1, h2⟩ | ⟨h1, -, h2⟩ := hm
      · simpa [h1] using h2
      · simp [h1, h2]
    exact ⟨exec_join (joinIn_answer ha hs hj), exec_join (joinIn_answer ha hs hj)⟩
  · exact exec_join (joinIn_leader ha (fun ⟨h1, h2⟩ => hm.elim h1 (fun h3 => h3 h2)) hf hd hl)
  · rw [exec_join (joinIn_other ha (fun ⟨h1, h2⟩ => hm.elim h1 (fun h3 => h3 h2)) hf hd), forward_near _ hh]
  · exact exec_join (joinIn_unformed ha (fun ⟨h1, h2⟩ => hm.elim h1 (fun h3 => h3 h2)) hf)
  · refine ⟨_, rfl, fun h0 => ?_, fun h0 => ?_⟩
    · rw [answerJoin_back hb _ rfl, if_neg (not_not_intro h0), hr]
      rfl
    · rw [answerJoin_back hb _ rfl, if_pos h0, hr]
      rfl
  · show ok (fin (receive s h (.adv st f a) _)) = _
    rw [receive_taken ha hs hd hv]
    rfl
  · show ok (fin (receive s h (.adv st f a) _)) = _
    rw [receive_other ha hs hd h0, forward_near _ hh]
    rfl

end Sys2Proof.Machine
end

section
/-! PROOF. The traffic of the relay ring (chapter 16): relayed jobs, the stage time of its master and mail (O48). -/

namespace Sys2Proof.Machine

-- Relayed jobs (R485 to R487)

theorem jobHere_accepted {u : State} {h : Hop} {j : RelayedJob} {key : Bytes} (ha : acceptsRelayed u = true) (he : isEngine j.opcode = true)
    (hk : jobKey u h.src j = some key) : ∃ k : Job, (jobHere u h j).jobs = u.jobs ++ [k] ∧ (jobHere u h j).nextJob = u.nextJob + 1 ∧ k.id = u.nextJob ∧
      k.src = .relayed h.src j.tag ∧ k.opcode = j.opcode ∧ k.body = j.body ∧ k.key = key ∧
      (jobHere u h j).place.cntRelayIn = (u.place.cntRelayIn + 1) % 2 ^ 32 := by
  rw [jobHere, ha, he, if_neg (show ¬(!true || !true) = true by decide), hk]
  exact ⟨_, rfl, rfl, rfl, rfl, rfl, rfl, rfl, rfl⟩

theorem jobHere_refused {u : State} {h : Hop} {j : RelayedJob} (ha : acceptsRelayed u = true) (he : isEngine j.opcode = true) (hk : jobKey u h.src j = none) :
    jobHere u h j = refuseJob u h.src j := by
  rw [jobHere, ha, he]
  simp only [Bool.not_true, Bool.or_self, Bool.false_eq_true, if_false, hk]

/-- A DONE whose RESULT is zero reports no run that reached its release. -/
theorem done_zero {d : RelayedDone} (h : d.result = 0) : doneReleased d = false ∧ doneWrites d = false := by
  rw [doneReleased, doneWrites, h]
  exact ⟨rfl, rfl⟩

/-- The job as a DONE of RESULT zero leaves its counts. -/
def unrun (u : State) (j : Job) : State := u.modJob j.id (fun _ => { j with blocks := 0, floor := 0, rtNs := 0 })

theorem takeDone_opened {u : State} {j : Job} {d : RelayedDone} {key : Bytes} (h : d.result = 0) (hs : d.status ≠ 0)
    (hk : doneKey (unrun u j) { j with blocks := 0, floor := 0, rtNs := 0 } d = some key) :
    takeDone u j d = fixOutcome (unrun u j) j.id
      { status := if isStatus d.status then d.status else stInternal, sub := d.subcode, opf := d.opflags, inB := d.inBytes } := by
  obtain ⟨hr, hw⟩ := done_zero h
  have hg : (d.status == stOk) = false := by simpa using hs
  have hj : ({ j with blocks := 0 / 2 ^ 40, floor := bits 0 39 32, rtNs := 0 % 2 ^ 32 } : Job) = { j with blocks := 0, floor := 0, rtNs := 0 } := rfl
  rw [unrun] at hk ⊢
  unfold takeDone
  simp only [hr, hw, hg, h, hj, hk, Bool.false_eq_true, if_false]

theorem takeDone_sealed {u : State} {j : Job} {d : RelayedDone} (h : d.result = 0)
    (hk : doneKey (unrun u j) { j with blocks := 0, floor := 0, rtNs := 0 } d = none) :
    takeDone u j d = failJob (unrun u j) j.id stKeyHandle 3 := by
  obtain ⟨hr, -⟩ := done_zero h
  have hj : ({ j with blocks := 0 / 2 ^ 40, floor := bits 0 39 32, rtNs := 0 % 2 ^ 32 } : Job) = { j with blocks := 0, floor := 0, rtNs := 0 } := rfl
  rw [unrun] at hk ⊢
  unfold takeDone
  simp only [hr, h, hj, hk, Bool.false_eq_true, if_false]

theorem unrun_relay (u : State) (j : Job) : (unrun u j).relay = u.relay := (State.modJob_keeps ..).relay rfl

theorem exec_relayDone {s u : State} {h : Hop} (d : RelayedDone) (ha : accept s h = (u, true)) (hs : h.src ≠ u.relay.member) (hd : h.dst = u.relay.member)
    (hn : h.dst ≠ 0xFF) : exec (.relayDone h d) s = .next (carryAll (doneHere u h d)) := by
  show ok (carryAll (receive s h (.done d) (fun t => doneHere t h d))) = _
  rw [receive_mine ha hs hd hn, ok]

-- Mail (R493)

theorem exec_mail {s u : State} {h : Hop} (total off : Nat) (part : Bytes) (f : Bool) (ha : accept s h = (u, true)) (hs : h.src ≠ u.relay.member)
    (hd : h.dst = u.relay.member) (hn : h.dst ≠ 0xFF) : exec (.mail h total off part f) s = .next (fin (mailHere u h total off part f)) := by
  show ok (fin (receive s h (.mail total off part f) (fun t => mailHere t h total off part f))) = _
  rw [receive_mine ha hs hd hn, ok]

theorem inboxTakes_iff (u : State) (src total : Nat) :
    inboxTakes u src total = true ↔ u.relay.inboxFull = false ∧ total ≤ u.relay.inboxLen ∧ (u.relay.got = 0 ∨ u.relay.sender = src) := by
  simp [inboxTakes, and_assoc]

/-- A part that goes on from the last is written to the inbox. -/
theorem mailPart_next {u : State} {src total off : Nat} {part : Bytes} (hf : u.relay.inboxFull = false) (hl : total ≤ u.relay.inboxLen)
    (ht : off + part.length ≤ total) (hp : u.relay.part = off) (hs : u.relay.sender = src) (hg : u.relay.got = total) :
    mailPart u src total off part (off + part.length == total) =
      addWrites { u with relay := { u.relay with part := off + part.length } } .inboxWrite 0 (u.relay.inbox + off) part 0 := by
  rw [mailPart, hf, decide_eq_false (Nat.not_lt.mpr hl), decide_eq_false (Nat.not_lt.mpr ht), bne_self_eq_false]
  rw [if_neg (show ¬(false || false || false || false) = true by decide), if_neg]
  · rfl
  · rintro (h | h | h)
    · exact h hp
    · exact h hs
    · exact h hg

theorem mailHere_asked {u : State} {h : Hop} (total : Nat) (f : Bool) : mailHere u h total 0 [] f = if inboxTakes u h.src total then
    sendTo (inboxFor u h.src total) h.src (.mail total total [] true) else sendTo u h.src (.mail total total [] false) := by
  rw [mailHere, if_neg (not_not_intro rfl), if_pos rfl]

theorem mailHere_answered {u : State} {h : Hop} {total : Nat} (f : Bool) (h0 : 0 < total) (ha : u.relay.mailAsked = true) (hd : u.relay.mailDst = h.src)
    (ht : u.relay.mailTotal = total) : mailHere u h total total [] f = if f then mailReads u else mailEnd u 2 := by
  have hc : (u.relay.mailAsked && u.relay.mailDst == h.src && u.relay.mailTotal == total) = true := by simp [ha, hd, ht]
  rw [mailHere, if_neg (not_not_intro rfl), if_neg (by omega), hc, if_pos rfl]

theorem exec_mailSend {s : State} (v : W32) (hs : s.served 0x9002C = true) : exec (.mailSend v) s = .next (fin (mailCmd s v)) := by
  show ok (fin (mgrWrite s 0x9002C (fun t => mailCmd t v))) = _
  rw [mgrWrite_served s _ _ hs, ok]

theorem mailCmd_refused {s : State} {v : W32} (hb : s.relay.mailBusy = false) (hv : v.toNat / 2 ^ 24 = 1)
    (h : s.relay.formed = false ∨ reached s (v.toNat % 256) = false ∨ s.relay.mailLen = 0 ∨ 2 ^ 24 < s.relay.mailLen) : mailCmd s v = mailEnd s 2 := by
  have hc : (!s.relay.formed || !reached s (v.toNat % 256) || s.relay.mailLen == 0 || decide (2 ^ 24 < s.relay.mailLen)) = true := by
    simp only [Bool.or_eq_true, Bool.not_eq_true', beq_iff_eq, decide_eq_true_eq, or_assoc]
    exact h
  unfold mailCmd
  extract_lets m n
  rw [hb, hv, if_neg (by decide), hc, if_pos rfl]

theorem mailCmd_sent {s : State} {v : W32} (hb : s.relay.mailBusy = false) (hv : v.toNat / 2 ^ 24 = 1) (m n : Nat) (hm : m = v.toNat % 256)
    (hn : n = s.relay.mailLen) (hf : s.relay.formed = true) (hr : reached s m = true) (h0 : 0 < n) (hl : n ≤ 2 ^ 24) (t : State)
    (ht : t = { s with relay := { s.relay with
      mailBusy := true, mailDst := m, mailTotal := n, mailGot := [], mailAsked := true, mailPath := hopsUsed s s.relay.member m } }) :
    mailCmd s v = if m ≠ s.relay.member then sendTo t m (.mail n 0 [] false) else if inboxTakes t m n then mailReads (inboxFor t m n) else mailEnd t 2 := by
  have hc : (!s.relay.formed || !reached s m || n == 0 || decide (2 ^ 24 < n)) = false := by
    rw [hf, hr, decide_eq_false (Nat.not_lt.mpr hl), beq_false_of_ne (Nat.pos_iff_ne_zero.mp h0)]
    rfl
  subst hm
  subst hn
  unfold mailCmd
  extract_lets m' n' u
  have hu : u = t := ht.symm
  rw [hb, hv, if_neg (by decide), hc, if_neg Bool.false_ne_true, hu, ht]

-- Stage time within a package (R490 to R492)

theorem exec_time {s u : State} {h : Hop} (v : Stamp) (n : Nat) (ha : accept s h = (u, true)) :
    exec (.time h v n) s = .next (carryAll (timeHere u h v n)) := by
  show ok (carryAll (receiveHere s h (fun t => timeHere t h v n))) = _
  rw [receiveHere_taken ha, ok]

/-- The follower that has heard its master. -/
def heard (u : State) : State := { u with relay := { u.relay with timeSeen := true, lastTime := u.time.mono } }

/-- How far a follower's stage time may lie from its master's (R491). -/
def nearBy (u : State) : Int := 8 * masterHops u * 2 ^ 16

theorem steer_eq {u : State} {v d : Int} (hv : 0 ≤ v) (hd : d = v - u.stamp) :
    steer u v.toNat = if u.relay.timeSeen = false ∨ nearBy u < d ∨ d < -nearBy u then applyStep (heard u) d
      else { (takeFree (heard u)).1 with time := { u.time with rate := ownRate (takeFree (heard u)).2 d } } := by
  have hvd : ((v.toNat : Nat) : Int) - u.stamp = d := by rw [Int.toNat_of_nonneg hv, hd]
  unfold steer
  extract_lets d' near first t f
  have h1 : d' = d := hvd
  have h2 : near = nearBy u := rfl
  have h3 : (first || decide (near < d') || decide (d' < -near)) = true ↔ u.relay.timeSeen = false ∨ nearBy u < d ∨ d < -nearBy u := by
    rw [h1, h2, Bool.or_eq_true, Bool.or_eq_true, decide_eq_true_eq, decide_eq_true_eq, or_assoc]
    exact or_congr_left (iff_of_eq (Bool.not_eq_true' _))
  rw [ite_congr (propext h3) (fun _ => rfl) (fun _ => rfl), h1]
  rfl

/-- A follower that steps takes its master's stage time. -/
theorem steer_step {u : State} {v d : Int} (hv : 0 ≤ v) (hmax : v ≤ (2 ^ 64 - 1) * 2 ^ 16) (hd : d = v - u.stamp)
    (h : u.relay.timeSeen = false ∨ nearBy u < d ∨ d < -nearBy u) :
    ((steer u v.toNat).stamp : Int) = v ∧ (steer u v.toNat).time.stepped = true ∧ (steer u v.toNat).relay.timeSeen = true := by
  have hs : ((heard u).stamp : Int) + d = v := by
    have hh : (heard u).stamp = u.stamp := rfl
    rw [hh, hd]
    omega
  rw [steer_eq hv hd, if_pos h]
  refine ⟨?_, rfl, rfl⟩
  rw [stamp_applyStep (heard u) d (by rw [hs]; exact hv) (by rw [hs]; exact hmax), hs, Int.toNat_of_nonneg hv]

theorem exec_timeSend {s t : State} (hup : s.up = true) (hr : s.time.runs = true) (hd : s.time.timeDue ≤ s.time.mono)
    (ht : t = { s with time := { s.time with timeDue := s.time.timeDue + 1000 * nsUnit } }) : exec .timeSend s =
      .next (fin (if s.relay.formed && s.relay.pkgMaster && !hopOff s .east then hopSend t .east s.relay.member 0xFF 0 (.time s.stamp) else t)) := by
  have hdue : s.due s.time.timeDue = true := decide_eq_true hd
  show ok (fin (timeSend s)) = _
  unfold timeSend
  rw [hup, hr, hdue, if_neg (by decide), ht]
  rfl

-- O48

/-- Settles O48: an accepted message of the traffic goes to its rule; what is asked of a relayed job, of mail and of the time of the package follows from it. -/
theorem ringTrafficReachesItsMember : Obligations.RingTrafficReachesItsMember := by
  unfold Obligations.RingTrafficReachesItsMember
  intro s u h
  refine ⟨fun ha hs hd hn => ⟨fun j hacc he => ⟨fun key hk => ?_, fun hk => ?_, rfl⟩, fun d => ⟨fun j hj => ⟨fun hl => ?_, fun hl => ?_⟩, fun hj => ?_⟩,
    fun d j hp hk h0 hst => ?_, fun d j hp hk ho h0 => ?_, fun ts => ?_, fun m => ?_, fun p => ?_, fun total off part hp hf hl ht hpt hsn hg => ?_,
    fun total f => ⟨inboxTakes_iff u h.src total, fun hi => ?_, fun hi => ?_⟩, fun total h0 ha' hd' ht => ⟨?_, ?_⟩⟩,
    fun v n w ha hf hs hw => ⟨fun ho => ?_, fun ho => ?_⟩, fun v d hv hmax hd => ⟨fun h => steer_step hv hmax hd h, fun hs hlo hhi => ?_⟩,
    fun t hup hr hd ht => exec_timeSend hup hr hd ht, fun hup hf hl => ?_,
    fun v m n hs hb hv hm hn => ⟨fun h => ?_, fun t hf hr h0 hl ht => ⟨fun hne => ?_, fun he hi => ?_, fun he hi => ?_⟩⟩, fun v hs hv => ?_⟩
  · obtain ⟨k, h1, h2, h3⟩ := jobHere_accepted hacc he hk
    refine ⟨jobHere u h j, k, ?_, h1, h2, h3⟩
    show ok (carryAll (receive s h (.job j) (fun t => jobHere t h j))) = _
    rw [receive_mine ha hs hd hn, ok]
  · show ok (carryAll (receive s h (.job j) (fun t => jobHere t h j))) = _
    rw [receive_mine ha hs hd hn, jobHere_refused hacc he hk]
    rfl
  · rw [exec_relayDone d ha hs hd hn, doneHere, hj]
    simp only [hl, Bool.false_eq_true, if_false]
  · refine ⟨_, rfl, ?_⟩
    rw [exec_relayDone d ha hs hd hn, doneHere, hj]
    simp only [hl, if_true]
    rfl
  · rw [exec_relayDone d ha hs hd hn, doneHere, hj]
    rfl
  · refine takeDone_opened (key := []) h0 hst ?_
    rw [doneKey]
    simp only [hp, hk, if_true]
  · refine takeDone_sealed h0 ?_
    rw [doneKey]
    simp only [hp, hk, if_false]
    unfold pairOpen at ho ⊢
    rw [unrun_relay]
    exact ho
  · show ok (carryAll (receive s h (.cancel ts) (fun t => dropOrigin t (fun o g => o == h.src && ts.contains g)))) = _
    rw [receive_mine ha hs hd hn, ok]
  · show ok (carryAll (receive s h (.alarm m) (fun t => memberAlarm t m))) = _
    rw [receive_mine ha hs hd hn, ok]
  · show ok (carryAll (receive s h (.break_ p) (fun t => onBreak t p))) = _
    rw [receive_mine ha hs hd hn, ok]
  · rw [exec_mail total off part _ ha hs hd hn, mailHere, if_pos hp, mailPart_next hf hl ht hpt hsn hg]
  · refine ⟨_, rfl, ?_⟩
    rw [exec_mail total 0 [] f ha hs hd hn, mailHere_asked, if_pos hi]
    rfl
  · rw [exec_mail total 0 [] f ha hs hd hn, mailHere_asked, hi]
    rfl
  · rw [exec_mail total total [] true ha hs hd hn, mailHere_answered true h0 ha' hd' ht]
    rfl
  · rw [exec_mail total total [] false ha hs hd hn, mailHere_answered false h0 ha' hd' ht]
    rfl
  · have hne : (h.src == u.relay.member) = false := beq_false_of_ne hs
    have hw' : v + ((u.hop h.side).latency + n) * nsUnit = w := hw.symm
    rw [exec_time v n ha, timeHere, ho, hf, hne, if_neg (by decide), hw']
  · rw [exec_time v n ha, timeHere, ho]
    rfl
  · rw [steer_eq hv hd, if_neg]
    · exact ⟨rfl, rfl⟩
    · rintro (h0 | h0 | h0)
      · rw [hs] at h0
        exact Bool.noConfusion h0
      · exact absurd hhi (Int.not_le.mpr h0)
      · exact absurd hlo (Int.not_le.mpr h0)
  · have hp : s.past (s.relay.lastTime + 10000 * nsUnit) = true := State.past_true hl
    show ok (timeLoss s) = _
    rw [timeLoss, hup, hf, hp]
    rfl
  · refine ⟨mailEnd s 2, ?_, ?_, mem_vector _ 7⟩
    · rw [exec_mailSend v hs, mailCmd_refused hb hv (by rw [← hm, ← hn]; exact h)]
    · exact (vector_keeps _ 7).relay rfl
  · rw [exec_mailSend v hs, mailCmd_sent hb hv m n hm hn hf hr h0 hl t ht, if_pos hne]
  · rw [exec_mailSend v hs, mailCmd_sent hb hv m n hm hn hf hr h0 hl t ht, if_neg (not_not_intro he), if_pos hi]
  · rw [exec_mailSend v hs, mailCmd_sent hb hv m n hm hn hf hr h0 hl t ht, if_neg (not_not_intro he), hi]
    rfl
  · refine exec_mgrWrite s _ _ _ hs ?_
    rw [inboxFree, hv]
    rfl

end Sys2Proof.Machine
end

section
/-! PROOF. The custodian card: its activation and its removal (chapter 17; O49). -/

namespace Sys2Proof.Machine

/-- A command whose condition holds has its effect. -/
theorem ok_finWhen {b : Bool} {s u : State} {f : State → State} (hb : b = true) (h : f s = u) : ok (fin (whenDo b s f)) = .next (fin u) := by
  rw [hb, whenDo_true, h, ok]

/-- A command whose condition does not hold leaves what waits. -/
theorem ok_finWhen_not {b : Bool} {s : State} {f : State → State} (hb : b = false) : ok (fin (whenDo b s f)) = .next (fin s) := by
  rw [hb, whenDo_false, ok]

theorem State.due_true {s : State} {t : Stamp} (h : t ≤ s.time.mono) : s.due t = true := decide_eq_true h

theorem State.due_false {s : State} {t : Stamp} (h : s.time.mono < t) : s.due t = false := decide_eq_false (Nat.not_le.mpr h)

-- Insertion and activation (R91, R497, R498)

theorem exec_cardDebounce {s : State} (hup : s.up = true) (hr : s.time.runs = true) (hd : s.cust.det = true) (h1 : s.cust.st = 1)
    (ht : s.cust.detAt + 10000000 * nsUnit ≤ s.time.mono) (h0 : s.time.refUsed ≠ 0) :
    exec .cardDebounce s = .next (fin (cardActivate (s.modCust (fun c => { c with present := true })))) := by
  show ok (fin (whenDo _ s _)) = _
  refine ok_finWhen ?_ ?_
  · rw [hup, hr, hd, h1, State.due_true ht]
    rfl
  · dsimp only
    rw [if_neg]
    rw [h1]
    simpa using h0

theorem exec_cardDebounce_early {s : State} (ht : s.time.mono < s.cust.detAt + 10000000 * nsUnit) : exec .cardDebounce s = .next (fin s) := by
  show ok (fin (whenDo _ s _)) = _
  refine ok_finWhen_not ?_
  rw [State.due_false ht, Bool.and_false]

theorem exec_activationSupplyTimer {s : State} (hup : s.up = true) (h2 : s.cust.st = 2) (hv : s.cust.vcc = true) (hl : s.cust.ioLow = true)
    (ht : s.cust.actAt + 1000000 * nsUnit ≤ s.time.mono) : exec .activationSupplyTimer s = .next (fin { s with cust :=
      { s.cust with ioLow := false, clkDiv := max 1 (s.time.refUsed / 1000), rstAt := some (s.time.mono + cycles s 500) } }) := by
  show ok (fin (whenDo _ s _)) = _
  refine ok_finWhen ?_ rfl
  rw [hup, h2, hv, hl, State.due_true ht]
  rfl

theorem cardTick_reset {s : State} {t : Stamp} (ht : s.cust.rstAt = some t) (hd : s.cust.divNext = none) (hj : s.cust.jrec = none) : cardTick s =
    if s.due t then { s with cust := { s.cust with rstn := true, rstAt := none, actAt := t } } else s := by
  have hr : cardReset s = if s.due t then { s with cust := { s.cust with rstn := true, rstAt := none, actAt := t } } else s := by rw [cardReset, ht]; rfl
  rw [cardTick, hr]
  cases s.due t with
  | false =>
    simp only [Bool.false_eq_true, if_false]
    rw [cardDivide, hd, cardCatchUp, hj]
  | true =>
    simp only [if_true]
    rw [cardDivide]
    simp only [hd]
    rw [cardCatchUp]
    simp only [hj]

-- The answer to reset (R498 to R501)

theorem atrInTime_iff (s : State) (a : Atr) : atrInTime s a = true ↔
    400 ≤ a.first ∧ a.first ≤ 40000 ∧ a.gap ≤ 9600 ∧ s.time.mono ≤ s.cust.actAt + cycles s a.first + etus s 20160 := by
  simp [atrInTime, State.past, and_assoc]

/-- The class a card states suits the supply of the block (R499). -/
def classSuits (s : State) (a : Atr) : Bool :=
  match a.classInd with
  | none => !s.params.custClassC
  | some (b, c) => if s.params.custClassC then c else b

theorem classSuits_iff (s : State) (a : Atr) : classSuits s a = true ↔ (a.classInd = none → s.params.custClassC = false) ∧
    (∀ x y, a.classInd = some (x, y) → (if s.params.custClassC then y else x) = true) := by
  unfold classSuits
  cases h : a.classInd with
  | none => simp
  | some p =>
    obtain ⟨x, y⟩ := p
    simp only [reduceCtorEq, false_implies, true_and, Option.some.injEq, Prod.mk.injEq]
    exact ⟨fun g _ _ e => by rw [← e.1, ← e.2]; exact g, fun g => g x y ⟨rfl, rfl⟩⟩

/-- The mode a card states is one the block takes (R499). -/
def modeSuits (a : Atr) : Bool :=
  match a.ta2 with
  | none => true
  | some t1 => t1 && cardSupported (a.ta1.getD 0x11)

theorem modeSuits_iff (a : Atr) : modeSuits a = true ↔ ∀ x, a.ta2 = some x → x = true ∧ cardSupported (a.ta1.getD 0x11) = true := by
  unfold modeSuits
  cases a.ta2 with
  | none => simp
  | some x => simp

theorem atrOk_iff (s : State) (a : Atr) : atrOk s a = true ↔ a.tckOk = true ∧ a.offersT1 = true ∧ a.tc3Lrc = true ∧
    (a.classInd = none → s.params.custClassC = false) ∧ (∀ x y, a.classInd = some (x, y) → (if s.params.custClassC then y else x) = true) ∧
    (∀ x, a.ta2 = some x → x = true ∧ cardSupported (a.ta1.getD 0x11) = true) := by
  have h : atrOk s a = (a.tckOk && a.offersT1 && classSuits s a && a.tc3Lrc && modeSuits a) := rfl
  rw [h, Bool.and_eq_true, Bool.and_eq_true, Bool.and_eq_true, Bool.and_eq_true, classSuits_iff, modeSuits_iff]
  simp only [and_assoc, and_left_comm, and_comm]

theorem exec_answerToReset {s : State} (a : Atr) (hup : s.up = true) (h2 : s.cust.st = 2) (hr : s.cust.rstn = true) (hp : s.cust.ppsWant = none) :
    exec (.answerToReset a) s = .next (fin (atrIn s a)) := by
  show ok (fin (whenDo _ s _)) = _
  refine ok_finWhen ?_ rfl
  rw [hup, h2, hr, hp]
  rfl

theorem atrIn_failed {s : State} {a : Atr} (h : atrInTime s a = false ∨ atrOk s a = false) : atrIn s a = activationFailed s := by
  rw [atrIn, if_pos]
  obtain h | h := h
  · rw [h]; rfl
  · rw [h]; simp

/-- The port once it has taken what an answer to reset says. -/
def atrTaken (s : State) (a : Atr) : Cust :=
  { s.cust with
    ifsc := a.ta3.getD 0x20, bwi := a.tb3.getD 0x4D / 16, cwi := a.tb3.getD 0x4D % 16, clkStopOk := a.clockLow && a.t15, lastAt := s.time.mono }

/-- A card offers other values than the default, and this is its first activation (R500, R501). -/
theorem offersPps_iff (x : Nat) (second : Bool) : (cardSupported x && !(cardFi x == some 372 && cardDi x == some 1) && !second) = true ↔
    cardSupported x = true ∧ ¬(cardFi x = some 372 ∧ cardDi x = some 1) ∧ second = false := by
  rw [Bool.and_eq_true, Bool.and_eq_true, Bool.not_eq_true', Bool.not_eq_true', ← Bool.not_eq_true, Bool.and_eq_true, beq_iff_eq, beq_iff_eq, and_assoc]

theorem atrIn_specific {s : State} {a : Atr} {b : Bool} (ht : atrInTime s a = true) (ho : atrOk s a = true) (h2 : a.ta2 = some b) :
    atrIn s a = enterHold { s with cust := { atrTaken s a with fidi := a.ta1.getD 0x11 } } := by
  rw [atrIn, ht, ho, if_neg (by decide)]
  simp only [h2]
  rfl

theorem atrIn_negotiable {s : State} {a : Atr} (ht : atrInTime s a = true) (ho : atrOk s a = true) (h2 : a.ta2 = none) (x : Nat) (hx : x = a.ta1.getD 0x11) :
    atrIn s a = if cardSupported x && !(cardFi x == some 372 && cardDi x == some 1) && !s.cust.second then
        { s with cust := { atrTaken s a with
          ppsWant := some x, lastSent := [0xFF, 0x11, BitVec.ofNat 8 x, 0xFF ^^^ 0x11 ^^^ BitVec.ofNat 8 x], sendEnd := s.time.mono + etus s 44 } }
      else enterHold { s with cust := atrTaken s a } := by
  rw [hx, atrIn, ht, ho, if_neg (by decide)]
  simp only [h2]
  rfl

-- PPS, and what fails (R500 to R502)

theorem exec_ppsEcho {s : State} {t : Nat} (b : Bytes) (hup : s.up = true) (hp : s.cust.ppsWant = some t) : exec (.ppsEcho b) s =
    .next (fin (if b = s.cust.lastSent ∧ s.time.mono ≤ s.cust.sendEnd + etus s 9600 then enterHold { s with cust := { s.cust with fidi := t, ppsWant := none } }
      else activationFailed s)) := by
  show ok (fin (whenDo s.up s (fun u => ppsIn u b))) = _
  refine ok_finWhen hup ?_
  have hc : (!s.past (s.cust.sendEnd + etus s 9600)) = true ↔ s.time.mono ≤ s.cust.sendEnd + etus s 9600 := by simp [State.past]
  rw [ppsIn, hp]
  simp only [hc]
  rfl

theorem exec_ppsTimeout {s : State} {t : Nat} (hup : s.up = true) (hp : s.cust.ppsWant = some t) (h : s.cust.sendEnd + etus s 9600 < s.time.mono) :
    exec .ppsTimeout s = .next (fin (activationFailed s)) := by
  show ok (fin (whenDo _ s _)) = _
  refine ok_finWhen ?_ rfl
  rw [hup, hp, State.past_true h]
  rfl

theorem exec_answerToResetTimeout {s : State} (hup : s.up = true) (h2 : s.cust.st = 2) (hr : s.cust.rstn = true) (hp : s.cust.ppsWant = none)
    (h : s.cust.actAt + cycles s 40000 < s.time.mono) : exec .answerToResetTimeout s = .next (fin (activationFailed s)) := by
  show ok (fin (whenDo _ s _)) = _
  refine ok_finWhen ?_ rfl
  rw [hup, h2, hr, hp, State.past_true h]
  rfl

theorem activationFailed_cust (s : State) : (activationFailed s).cust.waiting = !s.cust.second ∧ (activationFailed s).cust.vcc = false ∧
    (activationFailed s).cust.rstn = false ∧ (activationFailed s).cust.st = if s.cust.second then 6 else s.cust.st := by
  unfold activationFailed cardFailed
  cases hs : s.cust.second with
  | false => exact ⟨rfl, rfl, rfl, rfl⟩
  | true =>
    simp only [Bool.not_true, Bool.false_eq_true, if_false, if_true]
    rw [(vector_keeps ..).cust rfl]
    exact ⟨rfl, rfl, rfl, rfl⟩

theorem exec_reactivationWait {s : State} (hup : s.up = true) (h2 : s.cust.st = 2) (hw : s.cust.waiting = true)
    (h : s.cust.actAt + 10000000 * nsUnit ≤ s.time.mono) : exec .reactivationWait s = .next (fin (cardActivate s)) := by
  show ok (fin (whenDo _ s _)) = _
  refine ok_finWhen ?_ rfl
  rw [hup, h2, hw, State.due_true h]
  rfl

theorem exec_readyMaxExpiry {s : State} (hup : s.up = true) (h3 : s.cust.st = 3) (h : s.cust.holdAt + bits s.cust.cfg 23 16 * 100000000 * nsUnit < s.time.mono) :
    exec .readyMaxExpiry s = .next (fin (cardFailed (cardOff s))) := by
  show ok (fin (whenDo _ s _)) = _
  refine ok_finWhen ?_ rfl
  rw [hup, h3, State.past_true h]
  rfl

theorem exec_clockStop {s : State} (hup : s.up = true) (ho : s.cust.clkStopOk = true) (hs : s.cust.clkStopped = false) (h3 : s.cust.st = 3 ∨ s.cust.st = 4)
    (hn : s.cust.op = .none) (h : max s.cust.sendEnd s.cust.lastAt + cycles s 1860 ≤ s.time.mono) :
    exec .clockStop s = .next (fin { s with cust := { s.cust with clkStopped := true, clkDiv := 0 } }) := by
  show ok (fin (whenDo _ s _)) = _
  refine ok_finWhen ?_ rfl
  have h34 : (s.cust.st == 3 || s.cust.st == 4) = true := by simpa using h3
  rw [hup, ho, hs, h34, hn, decide_eq_true (show _ ≤ s.mono from h)]
  rfl

-- Removal (R92, R508, R521, R522)

theorem cardRemove_absent {s : State} (h : s.cust.st = 0) : cardRemove s = s.modCust (fun c => { c with det := false, present := false }) := by
  rw [cardRemove]
  simp only [h, if_true]

/-- The card without its presence. -/
def cardGone (s : State) : State := s.modCust (fun c => { c with det := false, present := false })

theorem cardRemove_cust {s : State} (h : s.cust.st ≠ 0) : (cardRemove s).cust =
    { (cardCut (undoWrite (cardGone s)) 0 none).cust with auth := [], cntRemove := wrapInc 32 (cardCut (undoWrite (cardGone s)) 0 none).cust.cntRemove } := by
  unfold cardRemove
  simp only [h, if_false]
  rw [(vector_keeps ..).cust rfl, (endRehearsal_keeps ..).cust rfl]
  rfl

theorem cmdEnd_cust (s : State) (status sub : Nat) : (cmdEnd s status sub).cust =
    { s.cust with
      st := if s.cust.st = 5 then 4 else s.cust.st, jrec := none, op := .none, polling := false, challenge := [], ephPriv := []
      busy := false, sts := s.cust.cmd * 2 ^ 16 + sub * 2 ^ 8 + status } := (vector_keeps ..).cust rfl

/-- A cut command leaves the contacts low and no command. -/
theorem cardCut_cust (s : State) (st : Nat) : ∃ c, c = (cardOff (cutWrite s).1).cust ∧ (cardCut s st none).cust =
    if c.busy then { c with
        st := st, second := false, jrec := none, op := .none, polling := false, challenge := [], ephPriv := [], busy := false
        sts := c.cmd * 2 ^ 16 + (cutWrite s).2 * 2 ^ 8 + stCardInterrupted }
      else { c with st := st, second := false, jrec := none } := by
  refine ⟨_, rfl, ?_⟩
  unfold cardCut
  extract_lets r u v
  have hv : v = if u.cust.busy then cmdEnd u stCardInterrupted r.2 else u := rfl
  show { v.cust with st := st, second := false, jrec := none } = _
  rw [hv]
  obtain hb | hb := Bool.eq_false_or_eq_true u.cust.busy
  · rw [if_pos hb, cmdEnd_cust]
    exact (if_pos hb).symm
  · have hn : ¬u.cust.busy = true := by rw [hb]; decide
    rw [if_neg hn]
    exact (if_neg hn).symm

/-- What a removal leaves of the port (R92, R508). -/
theorem cardRemove_low {s : State} (h : s.cust.st ≠ 0) : (cardRemove s).cust.st = 0 ∧ (cardRemove s).cust.auth = [] ∧ (cardRemove s).cust.vcc = false ∧
    (cardRemove s).cust.rstn = false ∧ (cardRemove s).cust.clkDiv = 0 ∧ (cardRemove s).cust.ioLow = true ∧ (cardRemove s).cust.busy = false := by
  obtain ⟨c, hc, hcut⟩ := cardCut_cust (undoWrite (cardGone s)) 0
  rw [cardRemove_cust h, hcut]
  rw [hc]
  cases (cardOff (cutWrite (undoWrite (cardGone s))).1).cust.busy with
  | false => exact ⟨rfl, rfl, rfl, rfl, rfl, rfl, rfl⟩
  | true => exact ⟨rfl, rfl, rfl, rfl, rfl, rfl, rfl⟩

/-- The port without what a write that is cut off or taken back changes: its journal, its record and its command. -/
def Cust.still (c : Cust) : Cust := { c with recs := [], jrec := none, busy := false }

theorem modCustRec_still (s : State) (i : Nat) (f : CustRec → CustRec) : (s.modCustRec i f).cust.still = s.cust.still := rfl

theorem modCust_still {s : State} {f : Cust → Cust} (h : ∀ c : Cust, (f c).still = c.still) : (s.modCust f).cust.still = s.cust.still := h s.cust

theorem undoWrite_still (s : State) : (undoWrite s).cust.still = s.cust.still := by
  unfold undoWrite
  split
  · split
    · refine (modCust_still ?_).trans (modCustRec_still ..)
      exact fun _ => rfl
    · rfl
  · rfl

theorem cardCatchUp_still (s : State) : (cardCatchUp s).cust.still = s.cust.still := by
  unfold cardCatchUp
  split
  · split
    · rfl
    · rfl
  · rfl

theorem cutWrite_still (s : State) : (cutWrite s).1.cust.still = s.cust.still := by
  have h := cardCatchUp_still s
  unfold cutWrite
  extract_lets t
  split
  · exact h
  · split
    · exact h
    · split
      · exact h
      · exact h

theorem cardRemove_counted {s : State} (h : s.cust.st ≠ 0) : (cardRemove s).cust.det = false ∧ (cardRemove s).cust.present = false ∧
    (cardRemove s).cust.cntRemove = wrapInc 32 s.cust.cntRemove := by
  obtain ⟨c, hc, hcut⟩ := cardCut_cust (undoWrite (cardGone s)) 0
  have hst : (cutWrite (undoWrite (cardGone s))).1.cust.still = (cardGone s).cust.still := (cutWrite_still _).trans (undoWrite_still _)
  have hd : c.det = false := by
    rw [hc]
    exact show (cutWrite (undoWrite (cardGone s))).1.cust.still.det = _ by rw [hst]; rfl
  have hp : c.present = false := by
    rw [hc]
    exact show (cutWrite (undoWrite (cardGone s))).1.cust.still.present = _ by rw [hst]; rfl
  have hn : c.cntRemove = s.cust.cntRemove := by
    rw [hc]
    exact show (cutWrite (undoWrite (cardGone s))).1.cust.still.cntRemove = _ by rw [hst]; rfl
  rw [cardRemove_cust h, hcut]
  cases c.busy with
  | false => exact ⟨hd, hp, congrArg (wrapInc 32) hn⟩
  | true => exact ⟨hd, hp, congrArg (wrapInc 32) hn⟩

theorem cardRemove_away (s : State) : (cardRemove s).cust.det = false ∧ (cardRemove s).cust.present = false := by
  by_cases h : s.cust.st = 0
  · rw [cardRemove_absent h]
    exact ⟨rfl, rfl⟩
  · obtain ⟨h1, h2, -⟩ := cardRemove_counted h
    exact ⟨h1, h2⟩

/-- A card that is gone, with the write of a record taken back to COMMIT. -/
def undone (s : State) (i sec : Nat) : State := { cardGone s with cust := { (cardGone s).cust with
  recs := tabSet {} s.cust.recs i { s.custRec i with phase := 2, secureT := sec }, jrec := some i, busy := true } }

theorem undoWrite_gone {s : State} {i sec : Nat} (hl : s.cust.lastWrite = some (i, s.time.mono, sec))
    (hp : (s.custRec i).phase = 3 ∨ (s.custRec i).phase = 4) (hc : s.cust.cmd = 2 ∨ s.cust.cmd = 4) : undoWrite (cardGone s) = undone s i sec := by
  have hl' : (cardGone s).cust.lastWrite = some (i, s.time.mono, sec) := hl
  have hp' : s.time.mono = (cardGone s).mono ∧ (((cardGone s).custRec i).phase = 3 ∨ ((cardGone s).custRec i).phase = 4) := ⟨rfl, hp⟩
  have hb : (s.cust.busy || s.cust.cmd == 2 || s.cust.cmd == 4) = true := by
    obtain h2 | h4 := hc
    · simp [h2]
    · simp [h4]
  rw [undoWrite, hl']
  simp only [hp', and_self, if_true]
  rw [undone, ← hb]
  rfl

/-- A write in COMMIT stays open when it is cut off (R519, R522). -/
theorem cutWrite_commit {s : State} {i : Nat} (h : s.cust.jrec = some i ∧ (s.custRec i).phase = 2) : cutWrite s = (s, 2) := by
  obtain ⟨hj, hp⟩ := h
  have hc : cardCatchUp s = s := by
    rw [cardCatchUp, hj]
    simp [hp]
  unfold cutWrite
  rw [hc]
  simp [hj, hp]

theorem undone_rec (s : State) (i sec : Nat) : (undone s i sec).cust.jrec = some i ∧ ((undone s i sec).custRec i).phase = 2 := by
  refine ⟨rfl, ?_⟩
  have hrec := tabGet_tabSet_same ({} : CustRec) s.cust.recs i { s.custRec i with phase := 2, secureT := sec }
  exact (congrArg CustRec.phase hrec).trans rfl

/-- A write whose last status word came in the same character time is taken back, and its command is cut off (R522). -/
theorem cardRemove_undone {s : State} {i sec : Nat} (h : s.cust.st ≠ 0) (hl : s.cust.lastWrite = some (i, s.time.mono, sec))
    (hp : (s.custRec i).phase = 3 ∨ (s.custRec i).phase = 4) (hc : s.cust.cmd = 2 ∨ s.cust.cmd = 4) :
    (cardRemove s).custRec i = { s.custRec i with phase := 2, secureT := sec } ∧ (cardRemove s).cust.sts = s.cust.cmd * 2 ^ 16 + 2 * 2 ^ 8 + stCardInterrupted := by
  have hrec := tabGet_tabSet_same ({} : CustRec) s.cust.recs i { s.custRec i with phase := 2, secureT := sec }
  have hcut := cutWrite_commit (undone_rec s i sec)
  obtain ⟨c, hc', hcard⟩ := cardCut_cust (undone s i sec) 0
  rw [hcut] at hc' hcard
  have hb : c.busy = true := by rw [hc']; rfl
  rw [if_pos hb, hc'] at hcard
  rw [State.custRec, cardRemove_cust h, undoWrite_gone hl hp hc, hcard]
  exact ⟨hrec, rfl⟩

-- O49

/-- Settles O49: each command of the activation has its effect once its instant has come; a removal goes through the cut of the command and of its write. -/
theorem cardsAreActivatedAndRemoved : Obligations.CardsAreActivatedAndRemoved := by
  unfold Obligations.CardsAreActivatedAndRemoved
  intro s c hup hc
  subst hc
  refine ⟨fun hd => ?_, fun hr hd h1 ht h0 => exec_cardDebounce hup hr hd h1 ht h0, fun ht => exec_cardDebounce_early ht, fun h2 hv hl ht => ?_,
    fun t ht hd hj => ⟨fun h => ?_, fun h => ?_⟩, fun a h2 hr hp => ⟨atrInTime_iff s a, atrOk_iff s a, fun h => ?_, fun t k ht ho htb hk => ⟨fun b hb => ?_,
      fun x hx2 hx => ⟨fun h => ?_, fun hs hd hn => ?_⟩⟩⟩, fun t hp => ⟨fun h => ?_, fun b h => ?_, fun h => exec_ppsTimeout hup hp h⟩,
    fun h2 hr hp h => exec_answerToResetTimeout hup h2 hr hp h, rfl, rfl, rfl, rfl, ?_⟩
  · show ok (fin (whenDo _ s _)) = _
    refine ok_finWhen (by rw [hd]; rfl) ?_
    rw [hup]
    rfl
  · exact exec_activationSupplyTimer hup h2 hv hl ht
  · rw [cardTick_reset ht hd hj, State.due_true h, if_pos rfl]
  · rw [cardTick_reset ht hd hj, State.due_false h, if_neg Bool.false_ne_true]
  · rw [exec_answerToReset a hup h2 hr hp, atrIn_failed h]
  · rw [exec_answerToReset a hup h2 hr hp, atrIn_specific ht ho hb, hk, htb]
    rfl
  · rw [exec_answerToReset a hup h2 hr hp, atrIn_negotiable ht ho hx2 x hx, if_neg, hk, htb]
    · rfl
    · rw [offersPps_iff]
      rintro ⟨g1, g2, g3⟩
      obtain h | h | h := h
      · rw [h] at g1
        exact Bool.false_ne_true g1
      · exact g2 h
      · rw [h] at g3
        exact Bool.false_ne_true g3.symm
  · rw [exec_answerToReset a hup h2 hr hp, atrIn_negotiable ht ho hx2 x hx, if_pos, hk, htb]
    · rfl
    · rw [offersPps_iff]
      exact ⟨hs, hd, hn⟩
  · rw [exec_ppsEcho _ hup hp, if_pos ⟨rfl, h⟩]
  · rw [exec_ppsEcho _ hup hp, if_neg]
    rintro ⟨h1, h2⟩
    obtain h | h := h
    · exact h h1
    · exact absurd h2 (Nat.not_le.mpr h)
  · obtain ⟨f1, f2, f3, f4⟩ := activationFailed_cust s
    refine ⟨f1, f2, f3, f4, fun h2 hw h => exec_reactivationWait hup h2 hw h, fun h3 h => exec_readyMaxExpiry hup h3 h,
      fun ho hs h3 hn h => exec_clockStop hup ho hs h3 hn h, fun hd => ⟨cardRemove s, ?_, ?_, ?_, fun hst => ?_, fun i sec hst hl hph hcmd => ?_⟩⟩
    · show ok (fin (whenDo _ s _)) = _
      exact ok_finWhen hd rfl
    · exact (cardRemove_away s).1
    · exact (cardRemove_away s).2
    · obtain ⟨g1, g2, g3, g4, g5, g6, g7⟩ := cardRemove_low hst
      exact ⟨g1, g2, g3, g4, g5, g6, g7, (cardRemove_counted hst).2.2⟩
    · exact cardRemove_undone hst hl hph hcmd

end Sys2Proof.Machine
end

section
/-! PROOF. The link to the custodian card (chapter 17): its blocks, failed attempts and waits (O50). -/

namespace Sys2Proof.Machine

-- Blocks (R504, R505)

/-- The state in which a block is judged. -/
def blockCome (s : State) : State := { cardCatchUp s with cust := { (cardCatchUp s).cust with lastAt := s.time.mono, wtx := 1 } }

/-- The block in progress is none of the port's journal. -/
theorem blockCome_cust (s : State) : ∃ r, (blockCome s).cust = { s.cust with recs := r, lastAt := s.time.mono, wtx := 1 } := by
  unfold blockCome cardCatchUp
  split
  · split
    · exact ⟨_, rfl⟩
    · exact ⟨_, rfl⟩
  · exact ⟨_, rfl⟩

/-- A block that comes ends the wait for it. -/
theorem cardCatchUp_come (s : State) : (cardCatchUp s).modCust (fun c => { c with lastAt := s.mono, wtx := 1 }) = blockCome s := rfl

theorem exec_t1BlockRx {s : State} {b : CardBlock} (he : cardExpects s = true) (hb : awaitsMore s b = false) :
    exec (.t1BlockRx b) s = .next (fin (t1Block s b)) := by
  show ok (fin (whenDo _ s _)) = _
  refine ok_finWhen ?_ rfl
  rw [he, hb]
  rfl

section
variable {s : State} (hr : s.cust.resyncing = false)
include hr

theorem blockCome_resyncing : (blockCome s).cust.resyncing = false := by
  obtain ⟨r, h⟩ := blockCome_cust s
  rw [h]
  exact hr

theorem t1Block_bad : t1Block s .bad = attemptFailed (blockCome s) (fun s => sendR s 1) := by
  unfold t1Block
  rw [cardCatchUp_come]
  simp only [blockCome_resyncing hr, Bool.false_eq_true, if_false]

theorem t1Block_cut (w : Nat) : t1Block s (.cut w) = attemptFailed (blockCome s) (fun s => sendR s 2) := by
  unfold t1Block
  rw [cardCatchUp_come]
  simp only [blockCome_resyncing hr, Bool.false_eq_true, if_false]

theorem t1Block_ifsResponse (ho : (blockCome s).cust.op = .ifs) :
    t1Block s .ifsResponse = (blockCome s).modCust (fun c => { c with op := .none, fails := 0 }) := by
  unfold t1Block
  rw [cardCatchUp_come]
  simp only [blockCome_resyncing hr, ho, Bool.false_eq_true, if_false, if_true]

theorem t1Block_wtxRequest (k : Nat) :
    t1Block s (.wtxRequest k) = (sendBlock (blockCome s) 0xE3 [BitVec.ofNat 8 k]).modCust (fun c => { c with wtx := k }) := by
  unfold t1Block
  rw [cardCatchUp_come]
  simp only [blockCome_resyncing hr, Bool.false_eq_true, if_false]

theorem t1Block_ifsRequest {n : Nat} (h0 : 0 < n) (h1 : n ≤ 254) :
    t1Block s (.ifsRequest n) = (sendBlock (blockCome s) 0xE1 [BitVec.ofNat 8 n]).modCust (fun c => { c with ifsc := n }) := by
  unfold t1Block
  rw [cardCatchUp_come]
  have hn : ¬(n = 0 ∨ 254 < n) := by omega
  simp only [blockCome_resyncing hr, hn, Bool.false_eq_true, if_false]

/-- An acknowledgement has the next block sent. -/
theorem t1Block_rNext (ho : (blockCome s).cust.op ≠ .ifs) (ha : (blockCome s).cust.answering = false) (hi : (blockCome s).cust.outInf ≠ []) :
    t1Block s (.rBlock (!(blockCome s).cust.ns)) = sendI ((blockCome s).modCust (fun c => { c with ns := !c.ns, fails := 0 })) := by
  unfold t1Block
  rw [cardCatchUp_come]
  simp only [blockCome_resyncing hr, ho, ha, hi, ne_eq, not_false_eq_true, Bool.not_eq_self, Bool.false_eq_true, if_false, if_true]

/-- An R-block that names the block last sent has it sent again. -/
theorem t1Block_rAgain (ho : (blockCome s).cust.op ≠ .ifs) (ha : (blockCome s).cust.answering = false) :
    t1Block s (.rBlock (blockCome s).cust.ns) = attemptFailed (blockCome s) resendLast := by
  unfold t1Block
  rw [cardCatchUp_come]
  simp only [blockCome_resyncing hr, ho, ha, Bool.false_eq_true, if_false, if_true]

/-- The port with one more block of the card's answer. -/
def answered1 (s : State) (inf : Bytes) : State :=
  (blockCome s).modCust (fun c =>
    { c with nr := !c.nr, fails := 0, inInf := (blockCome s).cust.inInf ++ inf, ns := if c.answering then c.ns else !c.ns, answering := true })

/-- A block of the answer is taken; a chained one is acknowledged. -/
theorem t1Block_iBlock {more : Bool} {inf : Bytes} (ho : (blockCome s).cust.op ≠ .ifs) (hi : (blockCome s).cust.outInf = []) (all : Bytes)
    (hall : all = (blockCome s).cust.inInf ++ inf) : t1Block s (.iBlock (blockCome s).cust.nr more inf) = if more then sendR (answered1 s inf) 0
      else cardAnswer ((answered1 s inf).modCust (fun c => { c with inInf := [] })) (all.take (all.length - 2)) (beNat (all.drop (all.length - 2))) := by
  rw [hall]
  unfold t1Block
  rw [cardCatchUp_come]
  simp only [blockCome_resyncing hr, ho, hi, ne_eq, not_true_eq_false, or_self, Bool.false_eq_true, if_false]
  rfl

end

-- Failed attempts and waits (R505, R506)

/-- The count of a failed attempt. -/
def failed1 (s : State) : State := { s with cust := { s.cust with fails := s.cust.fails + 1, cntErr := satInc 32 s.cust.cntErr } }

theorem attemptFailed_eq {s : State} (f : State → State) (hr : s.cust.resyncing = false) : attemptFailed s f = if 2 ≤ s.cust.fails then
    (if 3 ≤ s.cust.resynchs then linkFail (failed1 s)
      else sendBlock { failed1 s with cust := { (failed1 s).cust with resyncing := true, resynchs := s.cust.resynchs + 1 } } 0xC0 [])
    else f (failed1 s) := by
  have hc : ((failed1 s).cust.resyncing = true ∨ 3 ≤ (failed1 s).cust.fails) ↔ 2 ≤ s.cust.fails := by
    have h1 : (failed1 s).cust.resyncing = false := hr
    have h2 : (failed1 s).cust.fails = s.cust.fails + 1 := rfl
    rw [h1, h2]
    simp
  have hs : s.modCust (fun c => { c with fails := c.fails + 1, cntErr := satInc 32 c.cntErr }) = failed1 s := rfl
  unfold attemptFailed
  rw [hs]
  simp only [hc]
  rfl

theorem exec_conditionQuery {s : State} (hup : s.up = true) (h3 : s.cust.st = 3) (ho : s.cust.op = .none) (hq : s.cust.queryAt ≤ s.time.mono) :
    exec .conditionQuery s =
      .next (fin (startApdu { s with cust := { s.cust with queryAt := s.time.mono + 10000000 * nsUnit } } .query 0x10 [])) := by
  show ok (fin (whenDo _ s _)) = _
  refine ok_finWhen ?_ rfl
  rw [hup, h3, ho, State.due_true hq]
  rfl

theorem exec_cardWaitExpiry {s : State} (he : cardExpects s = true) : exec .cardWaitExpiry s = .next (fin (if s.cust.sendEnd + s.cust.wtx * bwt s < s.time.mono then
    attemptFailed { cardCatchUp s with cust := { (cardCatchUp s).cust with wtx := 1 } } (fun s => sendR s 2) else s)) := by
  show ok (fin (whenDo _ s _)) = _
  split
  · next h =>
    refine ok_finWhen ?_ rfl
    rw [he, State.past_true h]
    rfl
  · next h =>
    refine ok_finWhen_not ?_
    rw [he, State.past_false (Nat.not_lt.mp h)]
    rfl

theorem exec_statusPoll {s : State} (hup : s.up = true) (hp : s.cust.polling = true) (ha : s.cust.apdu = [])
    (ht : s.cust.pollAt + 10000000 * nsUnit ≤ s.time.mono) : exec .statusPoll s = .next (fin (statusPollStep s)) := by
  show ok (fin (whenDo _ s _)) = _
  refine ok_finWhen ?_ rfl
  rw [hup, hp, ha, State.due_true ht]
  rfl

theorem cardCatchUp_cust_eq (s : State) : ∃ r, (cardCatchUp s).cust = { s.cust with recs := r } := by
  unfold cardCatchUp
  split
  · split
    · exact ⟨_, rfl⟩
    · exact ⟨_, rfl⟩
  · exact ⟨_, rfl⟩

theorem recPhase_cust_eq (s : State) (i p : Nat) : (recPhase s i p).cust = { s.cust with recs := (recPhase s i p).cust.recs } := rfl

/-- The settling of a write changes the journal alone. -/
theorem cutWrite_cust_eq (s : State) : ∃ r, (cutWrite s).1.cust = { s.cust with recs := r } := by
  obtain ⟨r, h⟩ := cardCatchUp_cust_eq s
  unfold cutWrite
  extract_lets t
  have ht : t.cust = { s.cust with recs := r } := h
  split
  · exact ⟨r, ht⟩
  · next i _ =>
    split
    · exact ⟨(recPhase t i 4).cust.recs, (recPhase_cust_eq t i 4).trans (by rw [ht])⟩
    · split
      · exact ⟨r, ht⟩
      · exact ⟨r, ht⟩

/-- WAIT_MAX ends the command and has the card started again. -/
theorem waitMax_cust (s : State) : (waitMax s).cust.st = 2 ∧ (waitMax s).cust.vcc = true ∧ (waitMax s).cust.busy = false ∧ (waitMax s).cust.second = false ∧
    (s.cust.busy = true → (waitMax s).cust.sts = s.cust.cmd * 2 ^ 16 + 0x20 * 2 ^ 8 + 0x50) := by
  obtain ⟨r, h⟩ := cutWrite_cust_eq s
  unfold waitMax
  extract_lets w u v
  have hb : u.cust.busy = s.cust.busy := show (cutWrite s).1.cust.busy = _ by rw [h]
  have hc : u.cust.cmd = s.cust.cmd := show (cutWrite s).1.cust.cmd = _ by rw [h]
  have hv : v = if s.cust.busy then cmdEnd u stTimeout 0x20 else u := by rw [← hb]
  have hs : (cardActivate (v.modCust (fun c => { c with second := false, jrec := none }))).cust.busy = v.cust.busy ∧
      (cardActivate (v.modCust (fun c => { c with second := false, jrec := none }))).cust.sts = v.cust.sts := ⟨rfl, rfl⟩
  refine ⟨rfl, rfl, hs.1.trans ?_, rfl, fun hbusy => hs.2.trans ?_⟩
  · rw [hv]
    split
    · rw [cmdEnd_cust]
    · next hn => rw [hb]; exact Bool.eq_false_iff.mpr hn
  · rw [hv, if_pos hbusy, cmdEnd_cust, ← hc]

theorem exec_waitMaxExpiry {s : State} (hup : s.up = true) (h3 : s.cust.st = 3 ∨ s.cust.st = 4 ∨ s.cust.st = 5) (ho : s.cust.op ≠ .none) (hi : s.cust.op ≠ .ifs)
    (ht : s.cust.cmdAt + bits s.cust.cfg 15 8 * 1000000000 * nsUnit < s.time.mono) : exec .waitMaxExpiry s = .next (fin (waitMax s)) := by
  show ok (fin (whenDo _ s _)) = _
  refine ok_finWhen ?_ rfl
  have h345 : (s.cust.st == 3 || s.cust.st == 4 || s.cust.st == 5) = true := by simpa [or_assoc] using h3
  rw [hup, h345, bne_iff_ne.mpr ho, bne_iff_ne.mpr hi, State.past_true ht]
  rfl

/-- The answer 0 to a query says that the card is ready. -/
theorem cardAnswer_ready {s : State} (h : s.cust.op = .query) : cardAnswer s [0] 0x9000 = cardReady (s.modCust (fun c => { c with polling := false })) := by
  simp only [cardAnswer, h, ne_eq, not_true_eq_false, and_false, if_false, if_true, and_self]

-- O50

/-- Settles O50: each block is judged in the state that its coming leaves, in which only the journal and the waits have moved on. -/
theorem cardExchangesFollowTheirBlocks : Obligations.CardExchangesFollowTheirBlocks := by
  unfold Obligations.CardExchangesFollowTheirBlocks
  intro s u c hup hc hu
  subst hc
  replace hu : u = blockCome s := hu
  subst hu
  obtain ⟨r, hcust⟩ := blockCome_cust s
  have hop : (blockCome s).cust.op = s.cust.op := by rw [hcust]
  have hns : (blockCome s).cust.ns = s.cust.ns := by rw [hcust]
  have hnr : (blockCome s).cust.nr = s.cust.nr := by rw [hcust]
  have hans : (blockCome s).cust.answering = s.cust.answering := by rw [hcust]
  have hout : (blockCome s).cust.outInf = s.cust.outInf := by rw [hcust]
  have hin : (blockCome s).cust.inInf = s.cust.inInf := by rw [hcust]
  refine ⟨exec_conditionQuery hup, fun he hr => ⟨fun ho => ?_, fun k => ⟨_, rfl, ?_⟩, fun n h0 h1 => ⟨_, rfl, ?_⟩, fun ho ha => ⟨fun hi => ?_, ?_⟩,
    fun b ho hi => ?_, fun ho hi hn => ?_, ?_, fun w => ⟨fun hw => ?_, fun hw => ?_⟩⟩, fun he => ⟨fun h => ?_, fun h => ?_⟩,
    fun f k hr hk => ⟨fun hf => ?_, fun hf hy => ?_, fun hf hy => ?_⟩, fun hp ha ht => ?_, fun h3 ho hi ht => ⟨waitMax s, ?_, waitMax_cust s⟩⟩
  · rw [exec_t1BlockRx he rfl, t1Block_ifsResponse hr (hop.trans ho)]
    rfl
  · rw [exec_t1BlockRx he rfl, t1Block_wtxRequest hr]
    rfl
  · rw [exec_t1BlockRx he rfl, t1Block_ifsRequest hr h0 h1]
    rfl
  · rw [← hns, exec_t1BlockRx he rfl, t1Block_rNext hr (by rw [hop]; exact ho) (hans.trans ha) (by rw [hout]; exact hi)]
    rfl
  · rw [← hns, exec_t1BlockRx he rfl, t1Block_rAgain hr (by rw [hop]; exact ho) (hans.trans ha)]
  · rw [← hnr, ← hns, ← hin, ← hans, exec_t1BlockRx he rfl, t1Block_iBlock hr (by rw [hop]; exact ho) (hout.trans hi) _ rfl, if_pos rfl]
    rfl
  · rw [← hnr, ← hns, ← hans, exec_t1BlockRx he rfl,
      t1Block_iBlock hr (by rw [hop, ho]; decide) (hout.trans hi) [0, 0x90, 0x00] (by rw [hin, hn]; rfl), if_neg Bool.false_ne_true]
    have h3 : beNat [0x90, 0x00] = 0x9000 := by decide
    show Host.Outcome.next (fin (cardAnswer _ [0] (beNat [0x90, 0x00]))) = _
    rw [h3, cardAnswer_ready (by exact hop.trans ho)]
    rw [answered1]
    generalize blockCome s = u
    rfl
  · rw [exec_t1BlockRx he rfl, t1Block_bad hr]
  · rw [exec_t1BlockRx (b := .cut w) he (decide_eq_false (Nat.not_le.mpr hw)), t1Block_cut hr]
  · show ok (fin (whenDo _ s _)) = _
    refine ok_finWhen_not ?_
    rw [he, awaitsMore, decide_eq_true hw]
    rfl
  · rw [exec_cardWaitExpiry he, if_pos h]
  · rw [exec_cardWaitExpiry he, if_neg (Nat.not_lt.mpr h)]
  · rw [attemptFailed_eq f hr, if_neg (by omega), hk]
    rfl
  · rw [attemptFailed_eq f hr, if_pos hf, if_neg (by omega), hk]
    rfl
  · rw [attemptFailed_eq f hr, if_pos hf, if_pos hy, hk]
    rfl
  · rw [exec_statusPoll hup hp ha ht]
    rfl
  · exact exec_waitMaxExpiry hup h3 ho hi ht

end Sys2Proof.Machine
end

section
/-! PROOF. The manager's commands to the custodian port (chapter 17; O51). -/

namespace Sys2Proof.Machine

-- Taking a command (R512)

/-- The port with a command taken. -/
def cmdTaken (s : State) (cmd arg : Nat) : State := { s with cust := { s.cust with busy := true, cmd := cmd, arg := arg, sts := cmd * 2 ^ 16 } }

/-- A served command that finds the port free is taken. -/
theorem custCmd_taken {s t : State} (cmd arg : Nat) (f : State → State) (hs : s.served 0xA0004 = true) (hb : s.cust.busy = false)
    (h : f (cmdTaken s cmd arg) = t) : ok (fin (custCmd s cmd arg f)) = .next (fin t) := by
  rw [← h, custCmd, mgrWrite_served s _ _ hs, hb, ok]
  rfl

theorem cmdDone_cust (s : State) (st sub : Nat) :
    (cmdDone s st sub).cust = { s.cust with busy := false, sts := s.cust.cmd * 2 ^ 16 + sub * 2 ^ 8 + st } := (vector_keeps ..).cust rfl

theorem mem_cmdDone (s : State) (st sub : Nat) : ⟨0, 8⟩ ∈ (cmdDone s st sub).prompts := mem_vector _ 8

-- Commands that use the card (R510 to R513)

/-- A command that uses a card which is not READY is refused. -/
theorem useCard_refused {u : State} (good : Bool) (h : u.cust.st ≠ 4) : useCard u good = cmdDone u stInternal 0x09 := if_pos h

theorem useCard_good {u : State} {good : Bool} (h : u.cust.st = 4) (hg : good = true) : useCard u good = cardGo u := by
  rw [useCard, if_neg (not_not_intro h), hg]
  rfl

/-- The port that works on a command. -/
def cardBusy (u : State) : State := { u with cust := { u.cust with st := 5 } }

/-- A command asks the card for its certificate first. -/
theorem cardGo_getCert {u : State} (h : u.cust.st = 4) (ho : u.cust.op = .none) (hr : u.cust.resyncing = false) (hc : u.cust.cert = none)
    (hs : u.cust.settle = []) (hb : u.cust.busy = true) : cardGo u = startApdu (cardBusy u) .getCert 0x20 [] := by
  simp only [cardGo, h, ho, hr, hc, hs, hb, true_or, not_true_eq_false, decide_true, Bool.not_true, Bool.false_eq_true, ne_eq, or_self, if_true, if_false]
  rfl

theorem cardGo_cmdGo {u : State} {k : Bytes} (h : u.cust.st = 4) (ho : u.cust.op = .none) (hr : u.cust.resyncing = false) (hc : u.cust.cert = some k)
    (hs : u.cust.settle = []) (hb : u.cust.busy = true) : cardGo u = cmdGo (cardBusy u) k := by
  simp only [cardGo, h, ho, hr, hc, hs, hb, true_or, not_true_eq_false, decide_true, Bool.not_true, Bool.false_eq_true, ne_eq, or_self, if_true, if_false]
  rfl

theorem cmdGo_authorize {u : State} {k : Bytes} (hj : certJudge u k = 0) (hr : (certRoles k).testBit (roleBit u.cust.cmd u.cust.arg) = true)
    (h2 : u.cust.cmd = 2) : cmdGo u k = sendAuthorize u k := by
  have hn : ¬(!(certRoles k).testBit (roleBit u.cust.cmd u.cust.arg)) = true := by
    rw [hr]
    decide
  rw [cmdGo]
  rw [if_neg (not_not_intro hj), if_neg hn, if_pos h2]

/-- The challenge of AUTHORIZE (R513), its numbers big-endian. -/
def challengeOf (s : State) (act : Nat) (nonce : Bytes) : Bytes :=
  ascii "GXPA" ++ beBytes 1 act ++ beBytes 4 0x47585064 ++ beBytes 4 s.keys.epochTag ++ nonce ++ beBytes 4 s.cust.nextTxn
    ++ (if act = 2 then beBytes 4 s.start.acceptSmf ++ beBytes 4 s.start.acceptSqm else zeros 8)

/-- AUTHORIZE sends its challenge under a journal record in DATA. -/
theorem sendAuthorize_sent {u : State} {k : Bytes} {i : Nat} {r : State × Bytes} (hi : freeRec u = some i) (hr : tryDraw u 0 32 = some r)
    (ha : u.cust.arg ≤ 3) (w : State) (hw : w = takeRec r.1 i 0x30 (certId k) u.cust.arg) :
    sendAuthorize u k = startApdu { w with cust := { w.cust with challenge := challengeOf u u.cust.arg r.2, voided := false } } .authorize 0x30
      (challengeOf u u.cust.arg r.2) := by
  obtain ⟨t, nonce⟩ := r
  have hk := (tryDraw_keeps u 0 32).get hr
  have hc : t.cust = u.cust := hk.cust rfl
  have hs : t.start = u.start := hk.start rfl
  have hkeys : t.keys = u.keys := hk.keys rfl
  have hm : u.cust.arg % 4 = u.cust.arg := Nat.mod_eq_of_lt (by omega)
  rw [sendAuthorize, hi]
  simp only [hr]
  rw [hc, hs, hkeys, hm, hw]
  rfl

theorem takeRec_rec (s : State) (i kind card detail : Nat) : (takeRec s i kind card detail).custRec i =
    { txn := s.cust.nextTxn, card := card, kind := kind, phase := 1, secureT := s.secs, detail := detail } :=
  tabGet_tabSet_same ({} : CustRec) s.cust.recs i _

/-- The argument of EXPORT_SHARE names a share of a split (R512, R517). -/
theorem exportShareCmd_good {u : State} {x m n : Nat} (h : u.cust.st = 4) (hx : x = bits u.cust.arg 4 0) (hm : m = bits u.cust.arg 12 8)
    (hn : n = bits u.cust.arg 20 16) (h1 : 2 ≤ m) (h2 : m ≤ n) (h3 : n ≤ 16) (h4 : 1 ≤ x) (h5 : x ≤ n) (h6 : bits u.cust.arg 7 5 = 0)
    (h7 : bits u.cust.arg 15 13 = 0) (h8 : bits u.cust.arg 23 21 = 0) (hb : (bwkOf u).isSome = true) (ha : authInForce u 3 = true) :
    exportShareCmd u = cardGo u := by
  have hb' : (bwkOf u).isNone = false := by
    rw [← Option.not_isSome, hb]
    rfl
  unfold exportShareCmd
  rw [if_neg (not_not_intro h), if_neg, hb', ha]
  · rfl
  · rw [← hx, ← hm, ← hn, h6, h7, h8]
    omega

-- Commands that need no card (R508, R509, R514, R520)

theorem recSettle_rec (s : State) (i p out j : Nat) : (recSettle s i p out).custRec j = (recPhase s i p).custRec j := by
  have hc : (recSettle s i p out).cust = { (recPhase s i p).cust with resolved := true, outcome := out, recSettled := i } := (vector_keeps ..).cust rfl
  rw [State.custRec, hc]
  rfl

theorem recPhase_rec (s : State) (i p : Nat) : (recPhase s i p).custRec i = { s.custRec i with phase := p, secureT := s.secs } :=
  tabGet_tabSet_same ({} : CustRec) s.cust.recs i _

theorem recPhase_rec_other (s : State) {i j : Nat} (p : Nat) (h : j ≠ i) : (recPhase s i p).custRec j = s.custRec j :=
  tabGet_tabSet_other ({} : CustRec) s.cust.recs i j _ h

/-- The contacts of a card that has been deactivated and has failed. -/
theorem cardFailed_off (s : State) : (cardFailed (cardOff s)).cust.st = 6 ∧ (cardFailed (cardOff s)).cust.vcc = false ∧
    (cardFailed (cardOff s)).cust.rstn = false ∧ (cardFailed (cardOff s)).cust.clkDiv = 0 ∧ (cardFailed (cardOff s)).cust.ioLow = true ∧
    (cardFailed (cardOff s)).cust.op = .none := by
  have h : (cardFailed (cardOff s)).cust = { (cardOff s).cust with st := 6, second := false } := (vector_keeps ..).cust rfl
  rw [h]
  exact ⟨rfl, rfl, rfl, rfl, rfl, rfl⟩

/-- A record that RECON_DROP settles: phase 5, the others as they were. -/
theorem recSettle_dropped (s : State) (i : Nat) : (recSettle s i 5 3).custRec i = { s.custRec i with phase := 5, secureT := s.secs } ∧
    (recSettle s i 5 3).cust.resolved = true ∧ (recSettle s i 5 3).cust.outcome = 3 ∧ (recSettle s i 5 3).cust.recSettled = i ∧
    ∀ j, j ≠ i → (recSettle s i 5 3).custRec j = s.custRec j := by
  have hc : (recSettle s i 5 3).cust = { (recPhase s i 5).cust with resolved := true, outcome := 3, recSettled := i } := (vector_keeps ..).cust rfl
  refine ⟨?_, ?_, ?_, ?_, fun j hj => ?_⟩
  · rw [recSettle_rec, recPhase_rec]
  · rw [hc]
  · rw [hc]
  · rw [hc]
  · rw [recSettle_rec, recPhase_rec_other s 5 hj]

/-- DEACTIVATE of a card that is not absent. -/
theorem deactivateCmd_off {u : State} (h0 : u.cust.arg = 0) (hst : u.cust.st ≠ 0) : deactivateCmd u =
    cmdDone ((cardFailed (cardOff (cutWrite u).1)).modCust (fun c => { c with jrec := none })) 0 0 := by
  rw [deactivateCmd, if_neg (not_not_intro h0), if_neg hst]

/-- ACTIVATE of a card that has failed. -/
theorem activateCmd_begins {u : State} (h0 : u.cust.arg = 0) (hp : u.cust.present = true) (h6 : u.cust.st = 6) (hr : u.time.refUsed ≠ 0) :
    activateCmd u = (cmdDone u 0 0).modCust (fun c => { c with
      second := false, st := 2, vcc := true, rstn := false, rstAt := none, clkDiv := 0, ioLow := true, waiting := false, actAt := u.time.mono }) := by
  have hn : ¬(u.cust.arg ≠ 0 ∨ (!u.cust.present) = true ∨ u.cust.st ≠ 6) := by simp [h0, hp, h6]
  have ht : ((cmdDone u 0 0).modCust (fun c => { c with second := false })).time = u.time := (cmdDone_keeps ..).time rfl
  unfold activateCmd
  rw [if_neg hn]
  refine (if_neg (by rw [ht]; exact hr)).trans ?_
  rw [cardActivate, State.mono, ht]
  rfl

-- Authorizations (R513, R514)

/-- The status word of a command that ends with OK. -/
theorem okSts (n : Nat) : n * 2 ^ 16 + 0 * 2 ^ 8 + stOk = n * 2 ^ 16 := by rw [Nat.zero_mul, stOk, Nat.add_zero]

theorem authorizeDone_signed {s : State} {sig : Bytes} (h : p384Check (certKey (s.cust.cert.getD [])) s.cust.challenge sig = true) :
    (authorizeDone s sig).cust.sts = s.cust.cmd * 2 ^ 16 ∧ (authorizeDone s sig).cust.auth =
      (if s.cust.arg % 4 = 2 ∧ s.cust.voided = true then []
        else [(s.cust.arg % 4, s.time.secure + (if s.cust.arg % 4 = 3 then 3600 else 60) * 1000000000)])
        ++ s.cust.auth.filter (fun p => !(p.1 == s.cust.arg % 4)) := by
  unfold authorizeDone
  extract_lets cert act secs u
  rw [if_pos h]
  obtain hv | hv := Classical.em (act = 2 ∧ s.cust.voided = true)
  · rw [if_pos (show act = 2 ∧ u.cust.voided = true from hv), if_pos hv, cmdEnd_cust]
    exact ⟨okSts _, (List.nil_append _).symm⟩
  · rw [if_neg (show ¬(act = 2 ∧ u.cust.voided = true) from hv), if_neg hv, cmdEnd_cust]
    exact ⟨okSts _, (List.singleton_append ..).symm⟩

theorem authorizeDone_refused {s : State} {sig : Bytes} (h : p384Check (certKey (s.cust.cert.getD [])) s.cust.challenge sig = false) :
    authorizeDone s sig = cmdEnd s stAuthFail 0x24 := by
  unfold authorizeDone
  extract_lets cert act secs u
  exact if_neg (by rw [h]; decide)

-- O51

/-- Settles O51: a command is taken first, and what it does then follows from its argument, the card's state and what the card has given. -/
theorem custodianCommandsTakeEffect : Obligations.CustodianCommandsTakeEffect := by
  unfold Obligations.CustodianCommandsTakeEffect
  intro s u c arg cmd hc hu
  subst hc
  replace hu : u = cmdTaken s cmd arg := hu
  subst hu
  refine ⟨fun hs hb => ⟨?_, ?_, fun hst => ⟨?_, ?_, ?_⟩, fun hst ho hr hcert hset => ⟨?_, ?_, ?_⟩, ?_, ?_, ?_, ?_, ?_, ?_, ?_⟩, ?_,
    fun sig v hv => ⟨fun h => ?_, fun h => ?_⟩, fun act h => ?_, fun hne ht => ?_⟩
  · rintro rfl h0 hr hh
    have hn : ¬(arg ≠ 0 ∨ s.cust.rootSet = true ∨ leNat s.cust.rootHash = 0) := by
      rw [hr]
      simp [h0, hh]
    exact custCmd_taken 1 arg rootLockCmd hs hb (if_neg hn)
  · rintro rfl h
    exact custCmd_taken 1 arg rootLockCmd hs hb (if_pos h)
  · rintro rfl
    exact custCmd_taken 2 arg authorizeCmd hs hb (useCard_refused _ hst)
  · rintro rfl
    exact custCmd_taken 3 arg importShareCmd hs hb (useCard_refused _ hst)
  · rintro rfl
    exact custCmd_taken 4 arg exportShareCmd hs hb (if_pos hst)
  · rintro rfl h1 h3
    have hg : (decide (1 ≤ arg) && decide (arg ≤ 3)) = true := by simp [h1, h3]
    exact custCmd_taken 2 arg authorizeCmd hs hb ((useCard_good (u := cmdTaken s 2 arg) hst hg).trans
      (cardGo_getCert (u := cmdTaken s 2 arg) hst ho hr hcert hset rfl))
  · rintro rfl h0
    exact custCmd_taken 3 arg importShareCmd hs hb ((useCard_good (u := cmdTaken s 3 arg) hst (beq_iff_eq.mpr h0)).trans
      (cardGo_getCert (u := cmdTaken s 3 arg) hst ho hr hcert hset rfl))
  · rintro x m n rfl hx hm hn h1 h2 h3 h4 h5 h6 h7 h8 hbwk ha
    exact custCmd_taken 4 arg exportShareCmd hs hb ((exportShareCmd_good (u := cmdTaken s 4 arg) hst hx hm hn h1 h2 h3 h4 h5 h6 h7 h8 hbwk ha).trans
      (cardGo_getCert (u := cmdTaken s 4 arg) hst ho hr hcert hset rfl))
  · rintro k i r w ch hst ho hr hset hcert hj rfl h1 h3 hrole hi hd hch hw
    subst hch
    have hg : (decide (1 ≤ arg) && decide (arg ≤ 3)) = true := by simp [h1, h3]
    have hbit : (certRoles k).testBit (roleBit 2 arg) = true := by
      rw [roleBit, if_pos rfl, Nat.mod_eq_of_lt (by omega)]
      exact hrole
    have hk := (tryDraw_keeps (cardBusy (cmdTaken s 2 arg)) 0 32).get hd
    refine ⟨custCmd_taken 2 arg authorizeCmd hs hb ?_, ?_⟩
    · calc authorizeCmd (cmdTaken s 2 arg)
        _ = cardGo (cmdTaken s 2 arg) := useCard_good (u := cmdTaken s 2 arg) hst hg
        _ = cmdGo (cardBusy (cmdTaken s 2 arg)) k := cardGo_cmdGo (u := cmdTaken s 2 arg) hst ho hr hcert hset rfl
        _ = sendAuthorize (cardBusy (cmdTaken s 2 arg)) k := cmdGo_authorize (u := cardBusy (cmdTaken s 2 arg)) hj hbit rfl
        _ = _ := sendAuthorize_sent (u := cardBusy (cmdTaken s 2 arg)) hi hd h3 w hw
    · rw [hw, takeRec_rec, hk.cust rfl, State.secs, hk.time rfl]
      rfl
  · rintro rfl h0
    exact custCmd_taken 5 arg sharesClearCmd hs hb (if_neg (not_not_intro h0))
  · rintro rfl h1 h3
    have hn : ¬(arg = 0 ∨ 3 < arg) := by omega
    exact custCmd_taken 6 arg authEndCmd hs hb (if_neg hn)
  · rintro rfl h
    exact custCmd_taken 6 arg authEndCmd hs hb (if_pos h)
  · rintro rfl h30 hopen
    have hn : ¬(30 < arg ∨ (!(s.custRec arg).isOpen) = true) := by
      rw [hopen]
      simp [h30]
    refine ⟨recSettle (cmdTaken s 7 arg) arg 5 3, custCmd_taken 7 arg reconDropCmd hs hb (if_neg hn), ?_⟩
    exact recSettle_dropped (cmdTaken s 7 arg) arg
  · rintro rfl h0 hst
    exact ⟨_, custCmd_taken 8 arg deactivateCmd hs hb (deactivateCmd_off (u := cmdTaken s 8 arg) h0 hst), cardFailed_off _⟩
  · rintro rfl h0 hp h6 hr
    exact ⟨_, rfl, custCmd_taken 9 arg activateCmd hs hb (activateCmd_begins (u := cmdTaken s 9 arg) h0 hp h6 hr)⟩
  · rintro v st sub rfl
    exact ⟨cmdDone_cust s st sub, mem_cmdDone s st sub⟩
  · rw [hv]
    exact authorizeDone_signed h
  · rw [hv, authorizeDone_refused h, cmdEnd_cust]
    exact ⟨rfl, rfl⟩
  · exact ok_finWhen h rfl
  · refine ok_finWhen ?_ rfl
    rw [decide_eq_true ht, Bool.and_true, Bool.not_eq_true', List.isEmpty_eq_false_iff]
    exact hne

end Sys2Proof.Machine
end
